-- ==== Sys2Proof/Word.lean ====
section
/-!
DEFINITION. The word types of the model and their plainest arithmetic.
Everything wider than a byte that the spec treats as bits is a `BitVec`; counts, addresses used as keys and indices are `Nat`.
-/

namespace Sys2Proof

/-- A byte of memory or of a message. -/
abbrev Byte := BitVec 8
/-- A 16-bit field. -/
abbrev W16 := BitVec 16
/-- A 32-bit word. -/
abbrev W32 := BitVec 32
/-- A 64-bit word: a register, a semaphore, a generator state half. -/
abbrev W64 := BitVec 64

/-- `2^48`, the modulus of a counter's COUNT field (R86, R549). -/
def counterMod : Nat := 2 ^ 48

end Sys2Proof
end

