-- ==== Sys2Proof/Syntax.lean ====
section
/-!
DEFINITION. The commands of the block: the one inductive `Instr`, one constructor per row of the operation table. Numbers that
name units (queue, core, function, link) are `Nat`; `WellFormed.lean` says which are legal.
-/

namespace Sys2Proof

/-- The link parameters a partner sends (R363): its shape, wrap bits and coordinates, its end's direction and position, the digest of
its key table, and the lanes it has trained. -/
structure LinkPar where
  dimX : Nat
  dimY : Nat
  dimZ : Nat
  wrap : Nat
  x : Nat
  y : Nat
  z : Nat
  dir : Nat
  pos : Nat
  digest : List Byte
  lanes : Nat
  deriving DecidableEq, Repr

/-- A mismatching word a traffic generator found (R280): bank (4 × group + bank), row, 32 B segment, 32-bit word, expected xor read. -/
structure TgMismatch where
  bank : Nat
  row : Nat
  seg : Nat
  word : Nat
  diff : Nat
  deriving DecidableEq, Repr

/-- What a PCIe configuration request does (R594, R595, R601): read the identity; set Bus Master Enable; MSI-X Enable and Function Mask; the
BAR2 size of the PF or of every VF; the max payload size; the completion timeout in microseconds; VF Enable with NumVFs. -/
inductive CfgOp where
  | identity
  | busMaster (on : Bool)
  | msix (enable maskAll : Bool)
  | bar2Size (vf : Bool) (log : Nat)
  | maxPayload (n : Nat)
  | completionTimeout (us : Nat)
  | vfEnable (n : Nat)
  deriving DecidableEq, Repr

/-- What the monitors of R554 measure in the beat that ends, in the table's units: thermal readings (256, every 10 µs), replica slacks in ps
(1,024), window currents in 0.1 A and voltages in mV (20 rails), lane eyes (lane, height, width; every 10 ms), the pseudo-channels that were
hot (R269), refresh and refresh-management commands issued (pseudo-channel and counts, R281), and the rails on which a governor withheld a
cycle (R482). A list of another length than its monitors is no reading. -/
structure BeatReading where
  temps : List Int
  slacks : List Int
  amps : List Nat
  volts : List Nat
  eyes : List (Nat × Nat × Nat)
  hot : List Nat
  refreshes : List (Nat × Nat × Nat)
  withheld : List Nat
  deriving DecidableEq, Repr
/-- The commands and events of the device, one constructor per row of the operation table. The docstring of a constructor is its
row's rule and what its operands carry from outside. -/
inductive Instr where
  /-- R316. Control command that completes with OK at once. `q i`: the command in flight. -/
  | nop (q i : Nat)
  /-- R316. Control command that completes once every earlier command of the queue has completed and its writes are performed at
  the named scope. -/
  | fence (q i : Nat)
  /-- R316. Control command that waits for a full 64-bit semaphore comparison, with an optional timeout. -/
  | wait (q i : Nat)
  /-- R316. TIMEOUT beats pass for a WAIT command, which completes with TIMEOUT. -/
  | waitTimeout (q i : Nat)
  /-- R316. Control command that adds to, sets or takes the maximum of a local or remote semaphore. -/
  | signal (q i : Nat)
  /-- R316. Control command that completes at the first beat at or after a given beat. -/
  | timer (q i : Nat)
  /-- R316. The beat named by a running TIMER is reached, and the TIMER completes with OK. -/
  | timerExpiry (q i : Nat)
  /-- R316. Control command that writes a sealed queue report, or captures a counter snapshot group at the next beat boundary.
  -/
  | report (q i : Nat)
  /-- R316. Control command that completes when every earlier command of the queue dispatched to its current core has completed.
  -/
  | drainMark (q i : Nat)
  /-- R79. Tile-engine matrix multiplication C := A * B with the fields and descriptor given. `stop`: stationary loads done when
  a recorded cancel stops it. -/
  | matmul (q i : Nat) (stop : Option Nat)
  /-- R79. Tile-engine matrix multiplication C := CIN + A * B. `stop` as for MATMUL. -/
  | matmulAcc (q i : Nat) (stop : Option Nat)
  /-- R193. Blockwise attention forward pass, writing O and a logsumexp per query row. `stop`: block pairs done when a recorded
  cancel stops it. -/
  | attnFwd (q i : Nat) (stop : Option Nat)
  /-- R194. Blockwise attention backward pass, accumulating dQ, dK and dV. `stop` as for ATTN_FWD. -/
  | attnBwd (q i : Nat) (stop : Option Nat)
  /-- R175. Input-gradient product, computed exactly as MATMUL. `stop` as for MATMUL. -/
  | bwdIn (q i : Nat) (stop : Option Nat)
  /-- R176. Weight-gradient product accumulated in place into C, optionally deferred. `stop` as for MATMUL. -/
  | bwdW (q i : Nat) (stop : Option Nat)
  /-- R124. Conversion engine rotates, takes statistics, scales and quantises a tensor under the CURRENT or CARRIED policy.
  `stop`: cancellation points passed when a recorded cancel stops it. -/
  | convert (q i : Nat) (stop : Option Nat)
  /-- R133. Conversion engine computes statistics, scales or K4 codebook gradients without writing codes. `stop` as for CONVERT.
  -/
  | stats (q i : Nat) (stop : Option Nat)
  /-- R133. Conversion engine applies the forward or inverse randomised Hadamard rotation only. `stop` as for CONVERT. -/
  | rotate (q i : Nat) (stop : Option Nat)
  /-- R130. Updates a K4 codebook from a KGRAD record. -/
  | codebookUpd (q i : Nat)
  /-- R317. Runs a vector program on the core's compute and movement threads until every started thread halts. `draws`: the
  image contains a random operation; `movBad`: it places an instruction a movement thread may not issue. -/
  | vprog (q i : Nat) (draws movBad : Bool)
  /-- R181. Vector unit applies an AdamW or momentum update to BF16 masters and E4M3 moments. `stop`: pieces of 16,384 elements
  done when a recorded cancel stops it. -/
  | optStep (q i : Nat) (stop : Option Nat)
  /-- R317. Cluster DMA engine copies BYTES from SRC to DST. `stop`: cancellation points passed before a recorded cancel stops
  it. -/
  | copy (q i : Nat) (stop : Option Nat)
  /-- R317. Cluster DMA engine copies indexed rows of SRC into a packed destination. -/
  | gather (q i : Nat) (stop : Option Nat)
  /-- R317. Cluster DMA engine copies packed source rows to indexed rows of DST. -/
  | scatter (q i : Nat) (stop : Option Nat)
  /-- R186. Losslessly compresses E4M3 codes into segments with an index and a size. `stop`: segments done when a recorded
  cancel stops it. -/
  | compress (q i : Nat) (stop : Option Nat)
  /-- R188. Restores a range of compressed segments to E4M3 codes. `stop` as for COMPRESS. -/
  | decompress (q i : Nat) (stop : Option Nat)
  /-- R386. Collective that reduces every member's contribution by the canonical tree, with the result on every rank. -/
  | allreduce (q i : Nat)
  /-- R386. Collective reduction in which each rank keeps its chunk of the result. -/
  | reduceScatter (q i : Nat)
  /-- R386. Collective that concatenates every rank's chunk in rank order on every rank. -/
  | allgather (q i : Nat)
  /-- R386. Collective that copies ROOT's contribution to every rank. -/
  | broadcast (q i : Nat)
  /-- R386. Collective reduction whose result is written on ROOT only. -/
  | reduce (q i : Nat)
  /-- R386. Collective pairwise exchange of unequal byte chunks between all ranks. -/
  | alltoallv (q i : Nat)
  /-- R386. Collective that completes once every member has started it. -/
  | barrier (q i : Nat)
  /-- R156. Opens a training-step attempt, taking the snapshot and clearing the step's counters. -/
  | stepBegin (q i : Nat)
  /-- R157. Asks for a commit decision on the open attempt, once every earlier command has completed. -/
  | stepCommit (q i : Nat)
  /-- R158. Every earlier command of the domain has completed; the cause word and beat are sampled and sent to rank 0. -/
  | stepCommitSample (f : Nat)
  /-- R163. Aborts the open attempt on this device alone with a given action. -/
  | stepAbort (q i : Nat)
  /-- R150. Computes one part sum of squares of a watched tensor and evaluates the watch when all parts have arrived. -/
  | normWatch (q i : Nat) (stop : Option Nat)
  /-- R216. Draws one token from each row of logits after the temperature, top-k and top-p cuts. `stop`: rows done when a
  recorded cancel stops it. -/
  | sample (q i : Nat) (stop : Option Nat)
  /-- R210. Saves the core's 64 generator states to a sealed generator area. -/
  | rngSave (q i : Nat)
  /-- R212. Loads the core's generator states from an area, or seeds them from JOBSEED and the physical position. -/
  | rngLoad (q i : Nat)
  /-- R467. Test command that runs an in-field structural test on a named slot at once. -/
  | iftRun (q i : Nat)
  /-- R467. Test command that checks the seals of a range and counts void and mismatched blocks. -/
  | sealScan (q i : Nat)
  /-- R467. Test command that injects a seal, checksum, range, ECC or hang error. -/
  | inject (q i : Nat)
  /-- R241. Thread load instruction. -/
  | ld (core thread reg addr size : Nat)
  /-- R241. Thread store instruction. `reg`: the register stored, or `value` when none is named. -/
  | st (core thread : Nat) (reg : Option Nat) (value addr size : Nat)
  /-- R226. Movement instruction that copies device memory into the scratchpad and counts on a completion counter. `spad`:
  scratchpad offset. -/
  | mvLd (core thread mvc addr spad len : Nat)
  /-- R226. Movement instruction that copies scratchpad to device memory. -/
  | mvSt (core thread mvc addr spad len : Nat)
  /-- R226. Movement instruction that prefetches into the cluster cache. -/
  | mvPf (core thread mvc addr len : Nat)
  /-- R227. Movement instruction that hands a transfer of up to 16 MiB to the cluster DMA engine. `out`: from the scratchpad. -/
  | mvBulk (core thread mvc : Nat) (out : Bool) (addr spad len : Nat)
  /-- R226. Compute thread waits until a completion counter reaches a value. -/
  | waitc (core thread mvc v : Nat)
  /-- R242. Thread fence at core scope. -/
  | fenceCore (core thread : Nat)
  /-- R242. Thread fence at cluster scope. -/
  | fenceCluster (core thread : Nat)
  /-- R242. Thread fence at device scope. -/
  | fenceDevice (core thread : Nat)
  /-- R242. Thread fence at fabric scope. -/
  | fenceFabric (core thread : Nat)
  /-- R243. Atomic semaphore add with release semantics. `scope`: 0 core, 1 cluster, 2 device, 3 fabric. -/
  | semaddRel (core thread sem v scope : Nat)
  /-- R243. Thread waits on a semaphore condition and then acquires. -/
  | semwaitAcq (core thread sem v scope : Nat)
  /-- R224. Thread halts. -/
  | halt (core thread : Nat)
  /-- R560. Compute thread writes a MARK record with a 16-bit value to the trace buffer. -/
  | trace (core thread v : Nat)
  /-- R214. Draws one generator word as a U32. -/
  | randU32 (core thread lane reg : Nat)
  /-- R214. Draws a uniform value in [0, 1). -/
  | randU (core thread lane reg : Nat)
  /-- R214. Draws a uniform value in (0, 1). -/
  | randUo (core thread lane reg : Nat)
  /-- R214. Draws a Bernoulli bit with probability T / 2^32. -/
  | randBern (core thread lane reg p : Nat)
  /-- R214. Draws two normal values by the Box-Muller method. -/
  | randNbm (core thread lane reg0 reg1 : Nat)
  /-- R214. Draws one normal value by table interpolation. -/
  | randNtab (core thread lane reg : Nat)
  /-- R305. 8-byte doorbell write updating TAIL and CDONE after the validity checks. `size`: bytes of the write. -/
  | doorbellWrite (f q size tail cdone : Nat)
  /-- R306. Sorter reads a submitted command from its ring slot and checks its header. -/
  | commandFetch (q : Nat)
  /-- R311. The beat counter reaches a head's not-before beat. -/
  | notBeforeReached (q : Nat)
  /-- R323. Sorter cycle with eligible heads grants one command by three-level deficit-weighted round robin. -/
  | sorterGrant
  /-- R325. A ready head's age reaches AGE_CAP and the head is promoted. -/
  | agePromotion (q : Nat)
  /-- R312. A command ends: its writes are performed, and its completion record, signal and interrupt follow. `m`, `withheld`:
  the governor's largest estimate in 0.01 A, and whether it withheld a cycle. -/
  | commandComplete (q i m : Nat) (withheld : Bool)
  /-- R327. Register write cancelling one command or a range of commands of a queue. `same`: the write falls in the grant cycle
  of the latest grant. -/
  | qmgCancel (f q index : Nat) (from_ same : Bool)
  /-- R336. QMG_QCMD action that validates the context and enables the selected queue. -/
  | queueEnable (f core : Nat)
  /-- R336. QMG_QCMD action that pauses the selected queue. -/
  | queuePause (f : Nat)
  /-- R336. QMG_QCMD action that resumes the selected queue. -/
  | queueResume (f : Nat)
  /-- R336. QMG_QCMD action that stops fetching and disables the queue once granted commands complete. -/
  | queueDisable (f : Nat)
  /-- R333. QMG_QCMD action that cancels from HEAD, waits, zeroes the counts and disables the queue. -/
  | queueReset (f : Nat)
  /-- R328. QMG_QCMD action that moves a queue to another core under a new epoch. -/
  | migrate (f core : Nat)
  /-- R328. The migration's DRAIN_MARK completes; generator states are saved and the queue starts on the new core. -/
  | migrationDrainDone (q : Nat)
  /-- R328. MIG_TO elapses before the drain mark completes, and the new core starts the queue. -/
  | migrationTimeout (q : Nat)
  /-- R336. Register write setting a semaphore as a release at device scope. -/
  | qmgSemvalWrite (f val : Nat)
  /-- R336. Register write atomically adding to a semaphore as a release. -/
  | qmgSemadd (f val : Nat)
  /-- R336. Write of the dead-letter ring base, which zeroes WR and RD. -/
  | dlqBaseWrite (f val : Nat)
  /-- R320. PF write to a tenant entry, validating ENABLE and refusing forbidden field changes. -/
  | tenantEntryWrite (f off val : Nat)
  /-- R335. Granule action that writes back, optionally zeroes and reassigns a range of granules. -/
  | assign (func tier clear : Nat)
  /-- R335. Granule action that reports the owner and run length from FIRST. -/
  | query (func tier clear : Nat)
  /-- R335. An ASSIGN or QUERY finishes and BUSY clears. -/
  | granuleActionDone
  /-- R170. NWT_CFG write that moves a HALTED step domain to IDLE. -/
  | haltClr (f : Nat)
  /-- R160. At the agreed beat Bc the committed generations flip, watch averages update and NWT_STEP increases. -/
  | commitFlip (f : Nat)
  /-- R162. No decision arrives within COMMIT_TIMEOUT beats, and STEP_COMMIT completes with TIMEOUT. -/
  | commitTimeout (f : Nat)
  /-- R476. The escapement grants a waiting current booking and the consumer may draw. -/
  | escGrant (rail : Nat)
  /-- R486. A pre-booking unused for PREBOOK_MAX windows is released. -/
  | prebookExpiry (q i : Nat)
  /-- R72. RAMP_HOLD cycles pass without a new array command, and the tile engine ramps down. -/
  | rampHoldExpiry (c : Nat)
  /-- R237. A core idle for 64 cycles gates its clock. -/
  | c1Entry (core : Nat)
  /-- R237. A core idle for C2_IDLE beats is power-gated with retention. -/
  | c2Entry (core : Nat)
  /-- R237. A core idle for C3_IDLE ms with every thread halted saves its generator states and turns off. -/
  | c3Entry (core : Nat)
  /-- R238. A wake event starts the wake of a sleeping core. `cause`: 1 command, 2 not-before beat, 3 semaphore, 4 test, 5
  retirement, 6 scratchpad access. -/
  | coreWake (core cause : Nat)
  /-- R239. The core reaches C0 and writes its WAKE marker. -/
  | wakeComplete (core : Nat)
  /-- R23. The woken spare takes the logical index and accepts commands. -/
  | spareReady (k : Nat)
  /-- R412. PS passes 999,999 and BEAT increases, driving beat-boundary actions. -/
  | beatBoundary (r : BeatReading)
  /-- R415. An 8-byte read of BEAT_NOW that latches PS into BEAT_FRAC. -/
  | beatNowRead (ps : Nat)
  /-- R550. A 4-byte read of a counter's low half latches its upper half for that function. -/
  | counterLowRead (f off : Nat)
  /-- R549. Write of CTR_CLEAR zeroing a block's counters at the next beat boundary. -/
  | ctrClear (f off : Nat)
  /-- R418. Periodic transmission of a TIME SYNC on every usable link. `ps`: picoseconds since the latest beat boundary. -/
  | timeSyncSend (ps : Nat)
  /-- R418. A received SYNC is timestamped and answered with a REPLY. -/
  | timeSyncReceive (k ps : Nat)
  /-- R419. A REPLY yields an offset and delay sample, which is validated and may step the counter. -/
  | timeReplyReceive (k ps : Nat)
  /-- R422. Once per TT_PERIOD the rate trim is steered toward the weighted neighbour offset. -/
  | trimUpdate
  /-- R416. No valid sample for 50 ms in ACQUIRING returns the device to UNALIGNED. -/
  | acquireTimeout
  /-- R349. The transmitter chooses a pool and sends a DATA, IDLE or CTRL flit. -/
  | flitTransmit (n : Nat)
  /-- R346. A flit is decoded, checked, accepted or discarded, and its ACK and credits are taken. `corr`, `unc`: codewords
  corrected and uncorrectable since the last flit; `syms`: symbols corrected per lane. -/
  | flitReceive (n : Nat) (flit : List Byte) (corr unc : Nat) (syms : List Nat)
  /-- R347. A received NAK makes the transmitter replay from ACK + 1. -/
  | nakReceive (n : Nat)
  /-- R347. The receiver repeats its NAK every 1.0 µs until the replay arrives. -/
  | nakRepeat (n : Nat)
  /-- R358. Signal on an ABSENT link with a partner expected starts training once the current is granted. -/
  | linkSignalDetect (n : Nat)
  /-- R358. At least one lane trains and locks on both sides, and the link enters AUTHENTICATING. `lanes`: mask of the lanes
  trained on both sides. -/
  | trainingComplete (n lanes : Nat)
  /-- R358. No lane trains within 150 ms, and the link returns to ABSENT. -/
  | trainingTimeout (n : Nat)
  /-- R358. 100 ms after a failed training, training is tried again. -/
  | trainingRetry (n : Nat)
  /-- R361. An SPDM authentication message of a link is received and processed. `verdict`: 0 accepted, else the QREASON of the
  failed check. -/
  | spdm (n verdict : Nat)
  /-- R361. An SPDM step gets no response within 200 ms and is repeated once, or fails. -/
  | spdmResponseTimeout (n : Nat)
  /-- R363. The partner's link parameters are checked and the link enters UP, DEGRADED or QUARANTINED. -/
  | linkpar (n : Nat) (p : LinkPar)
  /-- R358. A link spends 1.5 s in AUTHENTICATING and is quarantined. -/
  | authTimeout (n : Nat)
  /-- R359. A lane loses signal or codeword lock, and the link retrains. -/
  | laneFailure (n lane : Nat)
  /-- R359. The retrain ends at a new width, and replay resumes. -/
  | retrainComplete (n lanes : Nat)
  /-- R358. No signal on any lane for 100 µs returns the link to ABSENT. -/
  | signalLossTimeout (n : Nat)
  /-- R366. A pool starved for 100 consecutive beats raises LINK_STALL. -/
  | linkStall (n : Nat)
  /-- R366. MGT starved for STALL_QUAR ms quarantines the link with reason STALL. -/
  | mgtStallQuarantine (n : Nat)
  /-- R367. After 1,000 consecutive noisy beats, LINK_NOISY is raised. -/
  | linkNoisy (n : Nat)
  /-- R367. After 1,000 consecutive beats that are not noisy, NOISY_ACTIVE clears. -/
  | linkNoisyClear (n : Nat)
  /-- R374. LNK_CTL write that retrains the link, trying every lane. -/
  | retrain (n : Nat)
  /-- R365. LNK_CTL write that moves a QUARANTINED link to TRAINING. -/
  | release (n : Nat)
  /-- R374. LNK_CTL write that holds the link ABSENT, or releases it. `v`: the value written to LNK_CTL.DISABLE. -/
  | disable (n v : Nat)
  /-- R352. A message for another node is routed in dimension order onto a usable link. `k`: place among the messages waiting to
  be forwarded. -/
  | messageForward (k : Nat)
  /-- R356. Remote read request served after the partition-key and ownership checks. `k`: place of the message among those
  received. -/
  | rd (k : Nat)
  /-- R356. Remote write request served after the key, ownership and seal checks. -/
  | wr (k : Nat)
  /-- R345. Remote request to give a block the void seal, answered with WRACK. -/
  | void_ (k : Nat)
  /-- R356. Remote semaphore operation request. -/
  | sig (k : Nat)
  /-- R345. Response carrying read data and a status, handled by the requesting command. -/
  | rddata (k : Nat)
  /-- R345. Response acknowledging a WR or VOID with a status. -/
  | wrack (k : Nat)
  /-- R345. Response acknowledging a SIG with a status. -/
  | sigack (k : Nat)
  /-- R354. No response to RD, WR or SIG within 1,000 beats, and the command completes with TIMEOUT. -/
  | remoteRequestTimeout (tag : Nat)
  /-- R396. Collective data message of one chunk received. -/
  | colData (k : Nat)
  /-- R399. Postmark of a chunk received; the chunk is checked and acknowledged or refused. -/
  | colPmk (k : Nat)
  /-- R399. Chunk acknowledgement or NAK received by the sender. -/
  | colAck (k : Nat)
  /-- R398. Readiness message with arrival beat and digest received. -/
  | colReady (k : Nat)
  /-- R405. Arrival or ABORT control message of a collective received. -/
  | colCtrl (k : Nat)
  /-- R401. Sampled chunk sent to the checker for spot-recompute. -/
  | colSpot (k : Nat)
  /-- R401. Checker's verdict on sampled chunks received by a member. -/
  | colVerdict (k : Nat)
  /-- R159. Step-commit contribution or decision travelling up or down the direct tree. -/
  | colDecision (k : Nat)
  /-- R398. COL_READY is repeated every CHUNK_RESEND beats until the rank's data arrives. -/
  | colReadyResend (q i : Nat)
  /-- R399. No COL_ACK within CHUNK_RESEND beats; the chunk is resent or the collective ends with NO_ACK. -/
  | chunkResend (q i : Nat)
  /-- R405. TIMEOUT beats pass after the grant, and the collective completes with TIMEOUT and sends ABORT. -/
  | collectiveTimeout (q i : Nat)
  /-- R503. Every 10 ms a device chooses a give and sends POWER messages to its neighbours. -/
  | powerSharePeriod
  /-- R503. A received POWER message raises the cap by any give it names. -/
  | power (k : Nat)
  /-- R288. Shared-read request accepted at a home slice. `l`: line address (address / 128); `k`: cluster. -/
  | gets (l k : Nat)
  /-- R288. Ownership request accepted at a home slice. -/
  | getm (l k : Nat)
  /-- R288. Upgrade request from a sharer accepted at a home slice. -/
  | upg (l k : Nat)
  /-- R294. Non-caching read served at the home. -/
  | readnc (l k : Nat)
  /-- R294. Non-caching write served at the home. -/
  | writenc (l k : Nat)
  /-- R288. Dirty writeback received at the home. -/
  | putm (l k : Nat)
  /-- R288. Clean exclusive eviction received at the home. -/
  | pute (l k : Nat)
  /-- R288. Shared eviction received at the home. -/
  | puts (l k : Nat)
  /-- R287. Shared snoop received by a cluster. -/
  | snps (l k : Nat)
  /-- R287. Ownership snoop received by a cluster. -/
  | snpm (l k : Nat)
  /-- R287. Invalidating snoop received by a cluster. -/
  | snpinv (l k : Nat)
  /-- R287. Non-caching read snoop received by a cluster. -/
  | snprd (l k : Nat)
  /-- R287. Shared data grant received by a cluster. -/
  | datas (l k : Nat)
  /-- R287. Exclusive data grant received by a cluster. -/
  | datae (l k : Nat)
  /-- R287. Modified data grant received by a cluster. -/
  | datam (l k : Nat)
  /-- R287. Upgrade grant received by a cluster in SM. -/
  | ack (l k : Nat)
  /-- R287. Writeback acknowledgement moving a cluster line from IW to I. -/
  | wback (l k : Nat)
  /-- R288. Invalidation acknowledgement received at the home. -/
  | invack (l k : Nat)
  /-- R288. Snoop data response received at the home. -/
  | snpdata (l k : Nat)
  /-- R288. Snoop acknowledgement without data received at the home. -/
  | snpack (l k : Nat)
  /-- R291. Snoop answer from a cluster no longer holding the line. -/
  | miss (l k : Nat)
  /-- R291. Snoop answer from a cluster whose writeback is in flight. -/
  | missPutPending (l k : Nat)
  /-- R296. A snoop gets no answer within SNP_TO and the home treats the line as lost. -/
  | snoopTimeout (l k : Nat)
  /-- R293. A request has waited longer than AGE_WARN, and an event is logged. -/
  | dirAgeWarn (l : Nat)
  /-- R258. The patrol scrubber reads and corrects a die's fast tier once per SCRUB_HOURS. -/
  | scrubPass (k : Nat) (corrected lost : List Nat)
  /-- R259. The copy of a retiring bank into its spare ends. -/
  | bankCopyComplete (k j : Nat)
  /-- R268. Each 1 ms reading places each stack in its refresh and throttle state. -/
  | hbmTempReading (temps : List Nat)
  /-- R269. A pseudo-channel hot for 1,000 beats opens, or after 1,000 cool beats closes, an episode. -/
  | hotChannel (c : Nat)
  /-- R262. MEM_FCP_CTL action that writes back and invalidates a cache part and installs its new entry. -/
  | apply (f k : Nat)
  /-- R262. MEM_FCP_CTL action that writes back every dirty line of a cache part. -/
  | flush (f k : Nat)
  /-- R262. An APPLY or FLUSH finishes and BUSY clears. -/
  | fcpActionDone
  /-- R272. MEM_GCTL write enabling the traffic generators, or refused. -/
  | testMode (v : Nat)
  /-- R272. MEM_TG_CTL write that starts a pseudo-channel's traffic generator. -/
  | start (c val : Nat)
  /-- R279. MEM_TG_CTL write that stops a generator at the next 32 B boundary. -/
  | stop (c : Nat)
  /-- R272. A generator pass ends, setting DONE and FAIL and signalling the interrupt. -/
  | tgDone (c : Nat) (mism : List TgMismatch)
  /-- R456. The scheduler starts the in-field test of the idle slot due first. -/
  | iftStart
  /-- R457. A slot's due beat arrives untested, and its test is forced. -/
  | iftForced (k slot : Nat)
  /-- R458. An in-field test ends, passing or retiring the slot. -/
  | iftComplete (pass : Bool) (chain : Nat)
  /-- R459. An engine makes no progress for HANG_US and is reset. -/
  | coreHang (c : Nat)
  /-- R600. PF write resetting the named clusters. -/
  | hubClrst (mask : Nat)
  /-- R600. Every named cluster completes its reset and BUSY clears. -/
  | clusterResetDone
  /-- R625. Rising PWR_GOOD is the cold reset and starts the boot. The straps are operands. -/
  | pwrGoodRise (nodeId bootSel : Nat)
  /-- R580. A boot step that takes time ends, and the next step starts. -/
  | bootStepComplete
  /-- R580. The boot has not completed within 24 s, and a cold reset follows. -/
  | bootTimeout
  /-- R626. PWR_GOOD falls; clocks stop and enables are released. `n`: records of the batch being written that are in the store.
  -/
  | pwrGoodFall (n : Nat)
  /-- R625. PERST_N low starts the warm reset. -/
  | perstN
  /-- R612. A PCIe Hot Reset or DL_Down acts as the PERST_N warm reset. -/
  | hotReset
  /-- R610. Function-level reset of one function. -/
  | flr (f : Nat)
  /-- R611. Function-level reset of the PF, resetting every VF and clearing VF Enable. -/
  | pfFlr
  /-- R596. VF Enable changes from 1 to 0 and every VF undergoes an FLR. -/
  | vfEnableClear
  /-- R546. VDD_AON is lost without PWR_GOOD falling first. `n` as for PWR_GOOD_FALL. -/
  | powerLoss (n : Nat)
  /-- R499. FLOW_OK goes low and its 1 µs timer starts. -/
  | flowOkFall (ps : Nat)
  /-- R499. FLOW_OK low for 1 µs stops grants, clocks and compute rails. -/
  | flowStop (ps : Nat)
  /-- R500. A trip comparator reads 115 °C; clocks stop, rails are withdrawn and THERMTRIP_N asserts. -/
  | thermalTrip
  /-- R491. A droop detector fires and its cluster clock steps down. `d`: detector 0 to 255; `depth` in mV. -/
  | droop (d depth ps : Nat)
  /-- R491. DROOP_HOLD passes after the last detection, and the cluster clock starts to rise. -/
  | droopHoldExpiry (cluster ps : Nat)
  /-- R491. The cluster clock rises one step each 50 ns back to the die frequency. -/
  | droopRestoreStep (cluster ps : Nat)
  /-- R492. More than DROOP_STORM events in 1 ms raise the die voltage one step. -/
  | droopStorm (die : Nat)
  /-- R492. 100 ms without a storm returns the die voltage one step. -/
  | droopVoltageReturn (die : Nat)
  /-- R622. The tray acknowledges a rail-request frame once the rail has settled. -/
  | rqAck (rail : Nat)
  /-- R622. No acknowledgement within 4 µs; the frame is repeated. -/
  | rqAckTimeout (rail : Nat)
  /-- R625. A requested rail is not within limits 5 ms after its enable, and the boot fails. -/
  | railFault (r : Nat)
  /-- R494. Every 100 µs each die steps its frequency up, down or holds it. -/
  | opportunisticDecision (die : Nat)
  /-- R496. Every 1 ms the effective average ceilings are set from the cap. -/
  | capUpdate
  /-- R498. Every 10 µs the hottest sensor places each die in NORMAL, HOT or CRIT. -/
  | thermalStateEval
  /-- R498. A CRIT die steps down, or after exit steps back up, 50 MHz every 100 µs. -/
  | critStep (die : Nat)
  /-- R576. A processor leaves its watchdog unserviced for 10 ms and is reset. -/
  | watchdogReset (p : Nat)
  /-- R576. A reset processor restarts from the verified image. -/
  | processorReturn (p : Nat)
  /-- R505. A processor absent for 50 ms stops clusters and writes a FATAL FW_TIMEOUT record. `p`: 0 security, 1 power-
  management, 2 scheduler, 3 + k cluster control core k. -/
  | controllerAbsent (p : Nat)
  /-- R519. OD read request on any transport. -/
  | odRead (tr : Nat)
  /-- R519. OD write request, checked in order, staged or persisted and answered. -/
  | odWrite (tr : Nat)
  /-- R521. Write of 1 to a commit entry checks and persists its group as one batch. -/
  | odCommit (tr : Nat)
  /-- R526. OD write that applies the persistent tenant layout now. -/
  | applyNow (tr : Nat)
  /-- R547. OD write returning every RWP entry of 0x1000-0x7000 to its default. -/
  | defaults (tr : Nat)
  /-- R538. A journal batch's END record reads back intact and the write is acknowledged. -/
  | journalBatchPersisted (fails : List Nat)
  /-- R543. A compaction copy batch runs in a gap between writes. -/
  | compactionCopy
  /-- R541. Every 1,000,000 beats the rate-limit bucket gains one token. -/
  | tokenRefill
  /-- R534. OD_MB_CTL write that starts a mailbox OD request. -/
  | go (val : Nat)
  /-- R532. CAN FD frame carrying a whole OD request. -/
  | single (id : Nat) (data : List Byte)
  /-- R532. CAN FD frame starting a segmented transfer. -/
  | first (id : Nat) (data : List Byte)
  /-- R532. CAN FD consecutive frame of a segmented transfer. -/
  | consec (id : Nat) (data : List Byte)
  /-- R532. CAN FD flow-control frame of a segmented transfer. -/
  | flow (id : Nat) (data : List Byte)
  /-- R532. A gap of more than 100 ms ends a segmented transfer. -/
  | canTransferTimeout
  /-- R533. OD request carried in an MCTP vendor-defined message. -/
  | mctpOdRequest (i3c : Bool) (src tag : Nat) (body : List Byte)
  /-- R533. MCTP control message for endpoint discovery or identifier assignment. -/
  | mctpControl (i3c : Bool) (src : Nat) (body : List Byte)
  /-- R589. SPDM attestation request answered with signed measurements. -/
  | getMeasurements (i3c : Bool) (src : Nat) (body : List Byte)
  /-- R569. The always-on domain sends the health beacon once per second. -/
  | healthBeacon
  /-- R564. A queued event is written to the service log, subject to suppression. -/
  | serviceLogEventWrite
  /-- R565. At each power-on hour the digest and the lifetime totals are written. -/
  | hourlyDigest
  /-- R557. A qualifying idle cluster starts a timing-margin sweep. -/
  | marginSweep (k : Nat)
  /-- R557. A sweep ends and VMARGIN is recorded. -/
  | marginSweepComplete (k : Nat) (slacks : List Int)
  /-- R552. Write of a programmable counter's selection, taking effect at the next beat boundary. -/
  | telEvselWrite (k n val : Nat)
  /-- R553. TEL_SNAP_CTL write that captures a snapshot group at the next boundary. -/
  | snapGo (g : Nat)
  /-- R571. TEL_CFG write that resets the sensor maxima and minima at the next boundary. -/
  | maxclr
  /-- R561. TEL_TR_CTL FLUSH, or C3 entry, copies the trace records to the flush area. -/
  | traceFlush (k : Nat)
  /-- R559. TEL_TR_CTL write restarting the STOP-mode count. -/
  | traceStart (k : Nat)
  /-- R583. OD write that invalidates the inactive slot and erases it for a download. -/
  | dlBegin (tr : Nat)
  /-- R583. OD write programming up to 1,024 image bytes at DL_OFFSET. -/
  | dlData (tr : Nat)
  /-- R583. OD write copying the remaining image bytes from device memory. -/
  | dlFrom (tr : Nat)
  /-- R583. OD write that ends the download. -/
  | dlAbort (tr : Nat)
  /-- R584. OD write that reads and checks the inactive slot's image. -/
  | verify (tr : Nat)
  /-- R584. Verification ends, making the slot VERIFIED or INVALID. -/
  | verifyComplete
  /-- R585. OD write activating the verified image now with state handoff, or at the next reset. -/
  | activate (tr : Nat)
  /-- R585. The command boundary is reached; the blob is written and processors reset into the new image. -/
  | activateQuiesced
  /-- R585. Quiesce exceeds QUIESCE_MAX and the activation is abandoned. -/
  | quiesceTimeout
  /-- R585. The new image accepts the state blob and resumes grants. -/
  | handoffResume (ok : Bool)
  /-- R587. OD write confirming the trial image permanently. -/
  | confirm (tr : Nat)
  /-- R587. A healthy CONFIRM_MIN period in trial confirms the image. -/
  | autoConfirm
  /-- R587. OD write rejecting the trial image and returning to the other slot. -/
  | reject (tr : Nat)
  /-- R602. Host read through BAR2 as a non-caching access. -/
  | bar2Read (f o n : Nat)
  /-- R602. Host plain write through BAR2 that reseals its block. -/
  | bar2Write (f o : Nat) (data : List Byte)
  /-- R604. A completion for a host-form request arrives. -/
  | hostCompletion (tag status : Nat) (poison : Bool) (data : List Byte)
  /-- R606. A host-form request times out, and its command completes with TIMEOUT. -/
  | hostCompletionTimeout (tag : Nat)
  /-- R608. A vector with pending causes is unmasked and its message is sent. -/
  | msixUnmask (f v : Nat)
  /-- R608. HOLDOFF beats pass on a pending vector and the message is sent. -/
  | msixHoldoffExpiry (f v : Nat)
  /-- R594. PCIe configuration request to a function. -/
  | pcieConfigAccess (f : Nat) (op : CfgOp)
  /-- R7. Write to a register field that has no row of its own, under its access code. -/
  | registerWrite (f off n val : Nat)
  /-- R625. PERST_N rises, starting PCIe link training and configuration service, or taking effect when a warm reset in progress
  completes. -/
  | perstNRise
  /-- R627. FLOW_OK goes high, which after 1 µs high lets boot step 5 assert the compute-die enables and is reflected in
  PMC_STATUS.FLOW_OK. -/
  | flowOkRise (ps : Nat)
  /-- R239. Entry to C2 or C3 finishes after its entry time, the core reaches the sleep state and a wake that arrived during
  entry starts its wake time. -/
  | sleepEntryComplete (core : Nat)
  /-- R231. A scratchpad, fast-tier or capacity-tier controller returns data or an acknowledgement for an outstanding request,
  completing a miss register, movement request, DMA tag, prefetch or home-slice memory access. `home`: the memory access of line
  `a`'s home; else request `b` of core `a`. -/
  | memoryResponse (home : Bool) (a b : Nat)
  /-- R583. A NOR flash erase or page program of a download ends, passing or failing its verification, advancing or failing the
  download. -/
  | flashOperationComplete (ok : Bool)
  /-- R466. A pseudo-channel interface retrain after parity or training errors ends, resuming queued requests or, after a third
  failure, raising a FATAL PC_FENCED record. -/
  | pcRetrainComplete (c : Nat) (ok : Bool) (hit : List (Nat × Nat))
  /-- R271. The HBM4 stack's error check and scrub finds an uncorrectable error, voiding the block and writing an error record
  without any command. -/
  | errorCheckAndScrub (a : Nat)
  /-- R629. A TCK edge of the IEEE 1149.1 test access port advances the TAP controller and performs BYPASS, IDCODE,
  SAMPLE/PRELOAD or, in recovery, the EXTEST family. A rising edge; TRST_N is its level. -/
  | tck (tms tdi trstN : Bool)
  /-- R589. An SPDM request other than GET_MEASUREMENTS, such as GET_VERSION, GET_CERTIFICATE or KEY_EXCHANGE, arrives over MCTP
  and is answered by the security core. -/
  | spdmOverMctp (i3c : Bool) (src : Nat) (body : List Byte)
  deriving DecidableEq, Repr

end Sys2Proof
end

