-- ==== Sys2Proof/Decode.lean ====
section
/-!
DEFINITION. The command a word spells by the operation table's bits. The table gives no row any bits: every command of the block
arrives from outside already named, with its operands.
-/

namespace Sys2Proof

/-- No row of the table gives bits, so no word spells a command. -/
def decodeTableWord (_nbits _w : Nat) : Option Instr := none

end Sys2Proof
end

