-- ==== Sys2Proof/Config.lean ====
section
/-!
DEFINITION. What an implementation fixes and the spec leaves open: constants without a body, so that no proof can see a value.
Each is named in the assumption log (8) as a free value. The device's counts and sizes that the spec states are definitions.
-/

namespace Sys2Proof.Config

/-- Logical cores (R3). -/
def cores : Nat := 512
/-- Clusters (R3). -/
def clusters : Nat := 32
/-- Queues (R303). -/
def queues : Nat := 262144
/-- Functions (R319). -/
def functions : Nat := 512
/-- Device semaphores (R309). -/
def semaphores : Nat := 1048576
/-- Fabric links (R3). -/
def links : Nat := 36
/-- Booked rails (R474). -/
def rails : Nat := 19

/-- The disabled-unit map as shipped (R22): DESIGN CHOICE, log 7: no slot retired at the factory. -/
def factoryMap : Nat → Nat := fun _ => 0

/-- The n-th key drawn from the entropy source at a cold reset (R266): a free value. -/
opaque entropyKey : Nat → W64
/-- Byte values left unspecified, by draw number (R102, R273, R317): a free value. -/
opaque freeByte : Nat → Byte
/-- Words left unspecified, by draw number: a free value. -/
opaque freeWord : Nat → W64
/-- Which of the results that the error bound of 2 ulps allows a function unit gives (R101, R214), by function and argument: 0 exp and 1 ln of the
output converter, 2 ln, 3 sqrt, 4 cos and 5 sin of the vector unit; a free value. -/
opaque unitChoice : Nat → W32 → Nat
/-- The code a packed record gives for a field beyond its count, or with an exponent beyond the format (R186), by header, bitmap, fields and
place: a free value. -/
opaque recordCode : List Nat → Byte
/-- Digest of a communicator's fields at COL_READY, order not given (R382): a free value. -/
opaque colDigest : List Nat → W64
/-- V(f): the fused voltage in mV of a die at a frequency step (R489): a free value. -/
opaque vf : Nat → Nat → Nat
/-- Fused slopes and offsets of the sensors (R500): a free value. -/
opaque fused : Nat → Nat → Nat
/-- Factory identity values by object dictionary entry (R524): a free value. -/
opaque factory : Nat → List Byte
/-- Contents of the firmware images as shipped, by slot and offset (R577): a free value. -/
opaque factoryImage : Nat → Nat → Byte
/-- Signatures and certificates of the security core, by object and request (R361, R589): a free value. -/
opaque signature : Nat → List Byte → List Byte
/-- SHA-384 and the other digests of signed data (R583, R589): a free value of the bytes digested. -/
opaque digest384 : List Byte → List Byte
/-- Whether a certificate chain leads to the root whose digest is in the hub ROM, with the firmware-signing usage (R584): a free value. -/
opaque chainOk : List Byte → Bool
/-- Whether a signature fits a digest and a certificate chain (R584): a free value. -/
opaque signatureOk : List Byte → List Byte → List Byte → Bool

/-- What an instruction code of the test access port selects, 0xFF apart, and how many cells its boundary register has (R629): free values. -/
opaque tapCode : Nat → Nat
opaque boundaryCells : Nat

end Sys2Proof.Config
end

