-- ==== Sys2Proof/Machine/Bits.lean ====
section
/-!
DEFINITION. Bit fields, little-endian bytes, CRC-32C (R442) and CRC-64, and mix64 (R107): the helpers every family uses.
-/

namespace Sys2Proof.Machine

/-- Bits [hi:lo] of a natural number. -/
def bitsOf (n hi lo : Nat) : Nat := (n / 2 ^ lo) % 2 ^ (hi + 1 - lo)

/-- Bit `i` of a natural number. -/
def bitOf (n i : Nat) : Bool := (n / 2 ^ i) % 2 == 1

/-- `n` with bits [hi:lo] replaced by the low bits of `v`. -/
def setBits (n hi lo v : Nat) : Nat :=
  n % 2 ^ lo + (v % 2 ^ (hi + 1 - lo)) * 2 ^ lo + (n / 2 ^ (hi + 1)) * 2 ^ (hi + 1)

/-- 1 for true, 0 for false. -/
def b2n (b : Bool) : Nat := if b then 1 else 0

/-- A byte list read as a little-endian number (R28, R307). -/
def leNat : List Byte → Nat
  | [] => 0
  | b :: bs => b.toNat + 256 * leNat bs

/-- The `k` little-endian bytes of `n`. -/
def leBytes : Nat → Nat → List Byte
  | 0, _ => []
  | k + 1, n => BitVec.ofNat 8 n :: leBytes k (n / 256)

/-- Byte `i` of a list, 0 past its end. -/
def byteAt (bs : List Byte) (i : Nat) : Nat := (bs.getD i 0).toNat

/-- Little-endian field of `k` bytes at offset `i` of a command, descriptor or record. -/
def fieldAt (bs : List Byte) (i k : Nat) : Nat := leNat ((bs.drop i).take k)

/-- `a` is a multiple of `n`. -/
def isMultiple (a n : Nat) : Bool := a % n == 0

/-- Signed value of the low `w` bits of `n`. -/
def sext (w n : Nat) : Int :=
  let m := n % 2 ^ w
  if m < 2 ^ (w - 1) then (m : Int) else (m : Int) - (2 ^ w : Nat)

/-- Two's complement of `i` in `w` bits. -/
def unsext (w : Nat) (i : Int) : Nat := (i % ((2 ^ w : Nat) : Int)).toNat

/-- `(a - b) mod 2^w < 2^(w-1)`: a lies at or after b in modular order (R305, R310, R311, R316). -/
def modGe (w a b : Nat) : Bool := (a + 2 ^ w - b % 2 ^ w) % 2 ^ w < 2 ^ (w - 1)

/-- `(a - b) mod 2^w`. -/
def modSub (w a b : Nat) : Nat := (a % 2 ^ w + 2 ^ w - b % 2 ^ w) % 2 ^ w

/-- One bit step of a reflected CRC with polynomial `poly` (reflected form). -/
def crcBit (w : Nat) (poly c : BitVec w) : BitVec w :=
  if c.getLsbD 0 then (c >>> 1) ^^^ poly else c >>> 1

/-- One byte step of a reflected CRC. -/
def crcByte (w : Nat) (poly c : BitVec w) (b : Byte) : BitVec w :=
  let c1 := c ^^^ (b.setWidth w)
  let c2 := crcBit w poly (crcBit w poly (crcBit w poly (crcBit w poly c1)))
  crcBit w poly (crcBit w poly (crcBit w poly (crcBit w poly c2)))

/-- CRC-32C of a byte list: polynomial 0x1EDC6F41 reflected to 0x82F63B78, initial value and final xor all ones (R442). -/
def crc32c (bs : List Byte) : W32 :=
  (bs.foldl (fun c b => crcByte 32 0x82F63B78#32 c b) 0xFFFFFFFF#32) ^^^ 0xFFFFFFFF#32

/-- CRC-64 of R397 and R435: polynomial 0x42F0E1EBA9EA3693 reflected, initial value and final xor all ones. -/
def crc64 (bs : List Byte) : W64 :=
  (bs.foldl (fun c b => crcByte 64 0xC96C5795D7870F42#64 c b) 0xFFFFFFFFFFFFFFFF#64) ^^^ 0xFFFFFFFFFFFFFFFF#64

/-- CRC-32 of IEEE 802.3 (R342): polynomial 0x04C11DB7 reflected. -/
def crc32ieee (bs : List Byte) : W32 :=
  (bs.foldl (fun c b => crcByte 32 0xEDB88320#32 c b) 0xFFFFFFFF#32) ^^^ 0xFFFFFFFF#32

/-- The mixing function of R107, on 64-bit arithmetic. -/
def mix64 (z : W64) : W64 :=
  let z1 := (z ^^^ (z >>> 30)) * 0xBF58476D1CE4E5B9#64
  let z2 := (z1 ^^^ (z1 >>> 27)) * 0x94D049BB133111EB#64
  z2 ^^^ (z2 >>> 31)

/-- mix64 on numbers. -/
def mix64n (n : Nat) : Nat := (mix64 (BitVec.ofNat 64 n)).toNat

/-- Smaller of two option values, `none` being absent. -/
def optMin (a b : Option Nat) : Option Nat :=
  match a, b with
  | none, y => y
  | x, none => x
  | some x, some y => some (min x y)

/-- `x` put before the first element it does not come after. -/
def insertBy {α : Type} (le : α → α → Bool) (x : α) : List α → List α
  | [] => [x]
  | y :: ys => if le x y then x :: y :: ys else y :: insertBy le x ys

/-- A list in the order of `le`, equals in their old order. -/
def sortBy {α : Type} (le : α → α → Bool) (l : List α) : List α := l.foldr (insertBy le) []

/-- The addresses `a, a+1, …, a+n-1`. -/
def addrRange (a n : Nat) : List Nat := (List.range n).map (a + ·)

/-- Two byte ranges share a byte. -/
def overlaps (a n b m : Nat) : Bool := decide (a < b + m) && decide (b < a + n) && decide (0 < n) && decide (0 < m)

/-- Saturating addition with bound `top`. -/
def satAdd (top a b : Nat) : Nat := min top (a + b)

end Sys2Proof.Machine
end

