-- ==== Sys2Proof/Machine/Sparse.lean ====
section
/-!
DEFINITION. Sparse maps: a list of (key, value) pairs in one canonical form, keys strictly rising and no entry equal to what
an unlisted key reads as. Memory, the register file, the semaphores and every large table of the machine are held this way.
-/

namespace Sys2Proof.Machine

/-- What key `k` holds; `d k` where the map lists nothing. -/
def smapGet {α : Type} (d : Nat → α) : List (Nat × α) → Nat → α
  | [], k => d k
  | (k', v) :: m, k => if k' = k then v else smapGet d m k

/-- The map with `v` at `k`, in canonical form again: an entry that equals the unlisted value is not kept. -/
def smapPut {α : Type} [DecidableEq α] (d : Nat → α) : List (Nat × α) → Nat → α → List (Nat × α)
  | [], k, v => if v = d k then [] else [(k, v)]
  | (k', v') :: m, k, v =>
    if k < k' then (if v = d k then (k', v') :: m else (k, v) :: (k', v') :: m)
    else if k = k' then (if v = d k then m else (k, v) :: m)
    else (k', v') :: smapPut d m k v

/-- The canonical form: every key above `lo`, rising, and no entry equal to the unlisted value. -/
def smapWfFrom {α : Type} [DecidableEq α] (d : Nat → α) : Nat → List (Nat × α) → Bool
  | _, [] => true
  | lo, (k, v) :: m => decide (lo ≤ k) && decide (v ≠ d k) && smapWfFrom d (k + 1) m

/-- The canonical form of a whole map. -/
def smapWf {α : Type} [DecidableEq α] (d : Nat → α) (m : List (Nat × α)) : Bool := smapWfFrom d 0 m

/-- `k` changed by `f`. -/
def smapMod {α : Type} [DecidableEq α] (d : Nat → α) (m : List (Nat × α)) (k : Nat) (f : α → α) : List (Nat × α) :=
  smapPut d m k (f (smapGet d m k))

/-- Every listed entry whose key satisfies `p` is dropped: those keys read as unlisted again. -/
def smapDrop {α : Type} (p : Nat → Bool) (m : List (Nat × α)) : List (Nat × α) :=
  m.filter (fun kv => !p kv.1)

end Sys2Proof.Machine
end

