-- ==== Sys2Proof/Machine/RegMap.lean ====
section
/-!
DEFINITION. The BAR0 register map: every register's address, its fields with their access codes and their cold and warm reset
values (R7, R8, R9 and the register rules of each chapter). Registers that every function sees as its own at one BAR0 offset
(R599, R607, R609) have one key per function, above 2^32; the host access of `Machine/HostBus.lean` maps the offset to the key.
-/

namespace Sys2Proof.Machine

/-- Access codes of R7. -/
inductive Acc where
  | ro | rw | rw1c | wo | rws | rwp
  deriving DecidableEq, Repr

/-- A reset value: a number; the outer index times a number; one value for outer index 0 and another for the rest; a table by
outer index; a table by inner index. -/
inductive ResetV where
  | num (n : Nat)
  | outer (mul : Nat)
  | zeroElse (a b : Nat)
  | tableO (l : List Nat)
  | tableI (l : List Nat)
  deriving DecidableEq, Repr

/-- Warm reset column: the field keeps its value, or takes one. -/
inductive WarmV where
  | keep
  | val (v : ResetV)
  deriving DecidableEq, Repr

/-- One field of a register: bits [hi:lo]. Bits that no field covers are reserved (R9). -/
structure Fld where
  hi : Nat
  lo : Nat
  acc : Acc
  cold : ResetV
  warm : WarmV
  deriving DecidableEq, Repr

/-- The blocks whose CTR_CLEAR zeroes counters together (R549). -/
inductive Blk where
  | cub | cvt | nwt | rng | lsu | dir | qmg | lnk | col | beat | seal | ift | esc | tel | other
  deriving DecidableEq, Repr

/-- A register, or a two-level array of registers: `base + i*s1 + j*s2` with `i < n1`, `j < n2`.
`ctr` names the clear block of a counter with the layout of R86. -/
structure RegDesc where
  base : Nat
  n1 : Nat
  s1 : Nat
  n2 : Nat
  s2 : Nat
  fields : List Fld
  ctr : Option Blk
  deriving DecidableEq, Repr

/-- Read-only field. -/
def roK (hi lo cold : Nat) : Fld := ⟨hi, lo, .ro, .num cold, .keep⟩
/-- Read-only field that a warm reset returns to its cold value. -/
def roW (hi lo cold : Nat) : Fld := ⟨hi, lo, .ro, .num cold, .val (.num cold)⟩
/-- Read-write field (warm reset gives the cold value). -/
def rwF (hi lo cold : Nat) : Fld := ⟨hi, lo, .rw, .num cold, .val (.num cold)⟩
/-- Read-write field kept by a warm reset. -/
def rwK (hi lo cold : Nat) : Fld := ⟨hi, lo, .rw, .num cold, .keep⟩
/-- Sticky read-write field (RWS). -/
def rwsF (hi lo cold : Nat) : Fld := ⟨hi, lo, .rws, .num cold, .keep⟩
/-- Write-one-to-clear bit reset by a warm reset. -/
def w1c (b : Nat) : Fld := ⟨b, b, .rw1c, .num 0, .val (.num 0)⟩
/-- Write-one-to-clear bit kept by a warm reset. -/
def w1cK (b : Nat) : Fld := ⟨b, b, .rw1c, .num 0, .keep⟩
/-- Write-only action bits: they read 0 and are never stored. -/
def woF (hi lo : Nat) : Fld := ⟨hi, lo, .wo, .num 0, .val (.num 0)⟩
/-- The two fields of the counter layout (R86). -/
def ctrFields : List Fld := [⟨63, 63, .rw1c, .num 0, .val (.num 0)⟩, roW 47 0 0]
/-- A plain register array. -/
def regA (base n1 s1 n2 s2 : Nat) (fs : List Fld) : RegDesc := ⟨base, n1, s1, n2, s2, fs, none⟩
/-- A counter array of clear block `b`. -/
def ctrA (b : Blk) (base n1 s1 n2 s2 : Nat) : RegDesc := ⟨base, n1, s1, n2, s2, ctrFields, some b⟩
/-- Per-core array: 32 clusters, 16 cores at `stride` each (R6, R84). -/
def coreReg (off stride : Nat) (fs : List Fld) : RegDesc := regA (0x400000 + off) 32 0x20000 16 stride fs
/-- `n` consecutive counters of a per-core block: one descriptor each. -/
def coreCtrs (b : Blk) (off stride n : Nat) : List RegDesc :=
  (List.range n).map (fun m => ctrA b (0x400000 + off + 8 * m) 32 0x20000 16 stride)
/-- `n` consecutive counters in a block of an outer array. -/
def blockCtrs (b : Blk) (base n1 s1 n : Nat) : List RegDesc := [ctrA b base n1 s1 n 8]

/-! ### Register keys -/

/-- Base of the keys of the registers each function sees as its own. -/
def fnPrivate (f off : Nat) : Nat := 0x100000000 + f * 0x100000 + off

namespace A
/-- BAR0 window of cluster k (R6). -/
def cluster (k : Nat) : Nat := 0x400000 + k * 0x20000
/-- Register of logical core c at window offset `off` with per-core stride. -/
def core (c off stride : Nat) : Nat := cluster (c / 16) + off + (c % 16) * stride
def CUB (c o : Nat) : Nat := core c 0x4000 0x100 + o
def CVT (c o : Nat) : Nat := core c 0x5000 0x100 + o
def RNG (c o : Nat) : Nat := core c 0x6000 0x100 + o
def LSU (c o : Nat) : Nat := core c 0x7000 0x100 + o
def PMCC (c o : Nat) : Nat := core c 0x8000 0x80 + o
def DIRC (k o : Nat) : Nat := cluster k + 0x9000 + o
def IFTC (c o : Nat) : Nat := core c 0xA000 0x80 + o
def EVSEL (k n : Nat) : Nat := cluster k + 0xB000 + n * 0x10
def EVCNT (k n : Nat) : Nat := cluster k + 0xB008 + n * 0x10
def TR_CTL (k : Nat) : Nat := cluster k + 0xC000
def TR_WR (k : Nat) : Nat := cluster k + 0xC008
def NWT (f o : Nat) : Nat := 0x380000 + f * 0x80 + o
def TENANT (f o : Nat) : Nat := 0x330000 + f * 0x80 + o
def GRAN_RANGE : Nat := 0x340000
def GRAN_CMD : Nat := 0x340008
def QMGF (f o : Nat) : Nat := 0x310000 + f * 0x100 + o
def QMG_CFG : Nat := 0x300000
def QMG_STATUS : Nat := 0x300008
def QMG_GRANTS : Nat := 0x300010
def QMG_LOST_GRANT : Nat := 0x300018
def QMG_AGE_PROMO : Nat := 0x300020
def QMG_FULL_CYC : Nat := 0x300028
def QMG_MIGRATIONS : Nat := 0x300030
def LNK (n o : Nat) : Nat := 0x800000 + n * 0x4000 + o
def LANE (n l o : Nat) : Nat := LNK n (0x200 + l * 0x20 + o)
def FAB_STATUS : Nat := 0x890000
def COL_CFG : Nat := 0x900000
def COL_STATUS : Nat := 0x900008
def COL (o : Nat) : Nat := 0x900000 + o
def COLF (f o : Nat) : Nat := 0x910000 + f * 0x40 + o
def BEAT (o : Nat) : Nat := 0x980000 + o
def BEATF (f o : Nat) : Nat := 0x990000 + f * 0x40 + o
def MEM_HASH_ID : Nat := 0xA00000
def MEM_GCTL : Nat := 0xA00008
def MEM_FCP_CTL : Nat := 0xA00010
def MEM_HOT_STATUS : Nat := 0xA00018
def STK (s : Nat) : Nat := 0xA10000 + s * 0x40
def MEM_FT (k o : Nat) : Nat := 0xA20000 + k * 0x100 + o
def PART (f k w : Nat) : Nat := 0xA30000 + (4 * f + k) * 16 + w * 8
def TG (c o : Nat) : Nat := 0xA40000 + c * 0x100 + o
def DIR_CFG : Nat := 0xA80000
def DIR (s o : Nat) : Nat := 0xA90000 + s * 0x100 + o
def ESC_CFG : Nat := 0xB00000
def RAIL (r o : Nat) : Nat := 0xB01000 + r * 0x100 + o
def PMC_STATUS : Nat := 0xB80000
def PMC_DIE (k : Nat) : Nat := 0xB80100 + k * 0x40
def PMC_DROOP_SEQ (k : Nat) : Nat := 0xB80108 + k * 0x40
def PMC (o : Nat) : Nat := 0xB80200 + o
def DROOPLOG (k s w : Nat) : Nat := 0xB90000 + k * 0x400 + s * 0x10 + w * 8
def PHASE (p c : Nat) : Nat := 0xBA0000 + (8 * p + c) * 8
def SEAL_CFG : Nat := 0xC00000
def SEAL (o : Nat) : Nat := 0xC00000 + o
def IFT_CFG : Nat := 0xC10000
def IFT_STATUS : Nat := 0xC10008
def IFT (o : Nat) : Nat := 0xC10000 + o
def TEL_CFG : Nat := 0xD00000
def TEL_LIFE : Nat := 0xD00008
def TEL_SLOG : Nat := 0xD00010
def TEL (o : Nat) : Nat := 0xD00000 + o
def TEL_TS (s : Nat) : Nat := 0xD10000 + s * 8
def TEL_TM (m : Nat) : Nat := 0xD20000 + m * 8
def TEL_RAIL (r o : Nat) : Nat := 0xD30000 + r * 0x100 + o
def TEL_MARGIN (k w : Nat) : Nat := 0xD40000 + k * 0x10 + w * 8
def SNAP_CTL : Nat := 0xD50000
def SNAP_BUF (i : Nat) : Nat := 0xD50100 + i * 8
def TEL_DD (d : Nat) : Nat := 0xD60000 + d * 8
def MB_CTL : Nat := 0xE00000
def MB_STATUS : Nat := 0xE00008
def HUB_CLRST : Nat := 0x100
def ERR_WR : Nat := 0x4000
def ERR_RD : Nat := 0x4008
def ERR_STATUS : Nat := 0x4010
def FN_ID (f : Nat) : Nat := fnPrivate f 0
def BAR2_WIN (f : Nat) : Nat := fnPrivate f 8
def BAR2_ERR (f : Nat) : Nat := fnPrivate f 0x10
def MSIX_MOD (f v : Nat) : Nat := fnPrivate f (0x1A000 + v * 8)
def DOORBELL (q : Nat) : Nat := 0x100000 + q * 8
end A

/-! ### The table -/

/-- Window ceilings of the rails in tickets of 0.1 A (R474, R475). -/
def railWinCeil : List Nat :=
  [6200, 6200, 6200, 6200, 1200, 1200, 1200, 1200, 900, 900, 900, 900, 900, 900, 900, 900, 3600, 1600, 80]

def regsCore : List RegDesc :=
  [ coreReg 0x4000 0x100 [rwF 31 16 64, woF 0 0],                                            -- CUB_CFG R84
    coreReg 0x4008 0x100 [roW 49 32 0, roW 31 24 0, roW 19 18 0, roW 17 16 0, roW 10 8 0, roW 5 5 0, roW 4 4 0,
      roW 3 3 0, roW 2 2 0, roW 1 1 0, roW 0 0 0] ]                                          -- CUB_STATUS R85
  ++ coreCtrs .cub 0x4010 0x100 9                                                            -- CUB_ counters R86
  ++ [ coreReg 0x5000 0x100 [rwF 63 32 0x40C00000, rwF 31 16 0x200, woF 0 0],                -- CVT_CFG R138
       coreReg 0x5008 0x100 [roW 49 32 0, roW 31 24 0, roW 7 6 0, roW 5 4 0, roW 0 0 0] ]    -- CVT_STATUS R139
  ++ coreCtrs .cvt 0x5010 0x100 7                                                            -- R140
  ++ [ coreReg 0x6000 0x100 [woF 0 0],                                                       -- RNG_CFG R220
       coreReg 0x6008 0x100 [roW 49 32 0, roW 31 24 0, roW 1 1 0, roW 0 0 0],                -- RNG_STATUS R221
       coreReg 0x6010 0x100 [roW 17 17 0, roW 16 16 0, roW 15 0 0] ]                         -- RNG_SEEDPOS R222
  ++ coreCtrs .rng 0x6018 0x100 6                                                            -- R223
  ++ [ coreReg 0x7000 0x100 [rwF 23 16 8, rwF 11 8 8, rwF 7 5 3, rwF 2 2 1, rwF 1 1 1, woF 0 0],  -- MEM_LSU_CFG R246
       coreReg 0x7008 0x100 [roW 47 32 0, roW 31 16 0xFFFF, roW 15 9 0, roW 5 0 0] ]         -- MEM_LSU_STATUS R247
  ++ coreCtrs .lsu 0x7010 0x100 11                                                           -- R248
  ++ [ coreReg 0x8000 0x80 [rwF 47 32 10, rwF 31 16 100, rwF 15 8 3, rwF 1 0 2],             -- PMC_CORE_CFG R249
       coreReg 0x8008 0x80 [roW 3 3 0, roW 2 2 0, roW 1 0 0] ]                               -- PMC_CORE_STATUS R250
  ++ coreCtrs .other 0x8010 0x80 7                                                           -- R251
  ++ [ coreReg 0xA000 0x80 [roK 63 0 0], coreReg 0xA008 0x80 [roK 63 0 600000000],           -- IFT_CORE_LAST, DUE R472
       coreReg 0xA010 0x80 [roK 63 0 0] ]                                                    -- IFT_PLS_CUBE
  ++ coreCtrs .ift 0xA018 0x80 3

def regsCluster : List RegDesc :=
  [ ctrA .dir 0x409000 32 0x20000 6 8,                                                       -- DIR_CL_ counters R302
    regA 0x40B000 32 0x20000 16 0x10 [rwF 63 63 0, rwF 62 62 0, rwF 55 48 0, rwF 16 3 0],    -- TEL_EVSEL R573
    ctrA .tel 0x40B008 32 0x20000 16 0x10,                                                   -- TEL_EVCNT
    regA 0x40C000 32 0x20000 1 0 [rwK 15 8 0xFF, rwK 3 3 0, woF 2 2, w1c 1, woF 0 0],        -- TEL_TR_CTL
    regA 0x40C008 32 0x20000 1 0 [roK 63 32 0, roK 31 0 0] ]                                 -- TEL_TR_WR

def regsFunc : List RegDesc :=
  [ regA 0x330000 512 0x80 1 0 [⟨63, 63, .rws, .zeroElse 1 0, .keep⟩, w1c 62, roW 61 56 0,
      ⟨49, 32, .rws, .outer 512, .keep⟩, rwsF 18 0 512],                                     -- tenant 0x00 R334
    regA 0x330008 512 0x80 1 0 [rwsF 52 32 2048, ⟨19, 0, .rws, .outer 2048, .keep⟩],
    regA 0x330010 512 0x80 1 0 [rwsF 63 48 0, rwsF 15 0 1],
    regA 0x330018 512 0x80 2 8 [rwsF 63 0 0x0101010101010101],
    regA 0x330028 512 0x80 1 0 [⟨41, 32, .ro, .zeroElse 512 0, .keep⟩, ⟨18, 0, .ro, .zeroElse 409568 0, .keep⟩],
    regA 0x330040 512 0x80 8 8 [⟨63, 0, .rws, .zeroElse 0xFFFFFFFFFFFFFFFF 0, .keep⟩],
    regA 0x310000 512 0x100 1 0 [⟨17, 0, .rw, .outer 512, .val (.outer 512)⟩],               -- QMG_QSEL R336
    regA 0x310008 512 0x100 1 0 [roW 63 63 0, w1c 62, roW 61 56 0, rwF 24 16 0, woF 3 0],    -- QMG_QCMD
    regA 0x310010 512 0x100 8 8 [],                                                          -- QMG_QCTX: a view of the context
    regA 0x310050 512 0x100 1 0 [woF 63 32, woF 31 31, woF 17 0],                            -- QMG_CANCEL
    regA 0x310058 512 0x100 1 0 [rwF 19 0 0],                                                -- QMG_SEMSEL
    regA 0x310060 512 0x100 1 0 [],                                                          -- QMG_SEMVAL: a view
    regA 0x310068 512 0x100 1 0 [woF 63 0],                                                  -- QMG_SEMADD
    regA 0x310070 512 0x100 1 0 [rwsF 63 11 0, rwsF 4 0 0],                                  -- QMG_DLQ_BASE
    regA 0x310078 512 0x100 1 0 [rwF 63 32 0, roW 31 0 0],                                   -- QMG_DLQ_PTR
    regA 0x310080 512 0x100 1 0 [rwsF 26 16 0, roW 3 3 0, w1c 2, w1c 1, ⟨0, 0, .ro, .zeroElse 1 0, .keep⟩],
    ctrA .qmg 0x310088 512 0x100 6 8,                                                        -- R338 function counters
    regA 0x380000 512 0x80 1 0 [rwsF 63 7 0],                                                -- NWT_DOMAIN R169
    regA 0x380008 512 0x80 1 0 [woF 1 1, woF 0 0],                                           -- NWT_CFG R170
    regA 0x380010 512 0x80 1 0 [roW 39 32 0, roW 31 24 0, roW 23 16 0, roW 15 8 0, roW 5 3 0, roW 2 0 0],  -- NWT_STATUS R171
    regA 0x380018 512 0x80 1 0 [rwsF 63 0 0],                                                -- NWT_STEP R172
    regA 0x380020 512 0x80 1 0 [roW 31 0 0],                                                 -- NWT_CAUSE
    ctrA .nwt 0x380028 512 0x80 6 8,                                                         -- R173
    regA 0x910000 512 0x40 1 0 [rwsF 63 6 0], regA 0x910008 512 0x40 1 0 [rwsF 15 0 0],      -- COL_CTBL R410
    ctrA .col 0x910010 512 0x40 1 0,
    regA 0x990000 512 0x40 1 0 [],                                                           -- BEAT_F_NOW: a view R441
    regA 0x990008 512 0x40 1 0 [roK 63 32 0, roK 31 0 0],                                    -- BEAT_F_STEPSLIP
    regA 0x990010 512 0x40 1 0 [],                                                           -- BEAT_F_STATUS: a view
    ctrA .beat 0x990018 512 0x40 1 0,
    regA 0xA30000 2048 16 1 0 [rwsF 63 63 0, rwsF 11 0 0], regA 0xA30008 2048 16 1 0 [rwsF 11 0 0],  -- R276
    regA (fnPrivate 0 0) 512 0x100000 1 0 [roK 63 32 0x00040000, ⟨16, 16, .ro, .zeroElse 0 1, .keep⟩,
      ⟨8, 0, .ro, .outer 1, .keep⟩],                                                         -- HUB_FN_ID R599
    regA (fnPrivate 0 8) 512 0x100000 1 0 [rwF 63 21 0],                                     -- HUB_BAR2_WIN
    ctrA .other (fnPrivate 0 0x10) 512 0x100000 1 0,                                         -- HUB_BAR2_ERR
    regA (fnPrivate 0 0x1A000) 512 0x100000 2048 8 [rwF 31 16 0, rwF 15 0 1] ]               -- HUB_MSIX_MOD R609

def regsGlobal : List RegDesc :=
  [ regA 0x100 1 0 1 0 [roW 63 63 0, woF 31 0],                                              -- HUB_CLRST R600
    regA 0x4000 1 0 1 0 [roK 63 0 0], regA 0x4008 1 0 1 0 [rwK 63 0 0],                      -- HUB_ERR_WR, RD R473
    regA 0x4010 1 0 1 0 [roK 40 32 0, roW 5 5 0, roW 4 4 0, w1cK 3, w1cK 2, w1cK 1, w1cK 0], -- HUB_ERR_STATUS
    regA 0x300000 1 0 1 0 [rwF 47 32 1000, rwF 23 16 50, woF 0 0],                           -- QMG_CFG R337
    regA 0x300008 1 0 1 0 [roW 50 32 0, roW 18 0 0], ctrA .qmg 0x300010 1 0 5 8,             -- QMG_STATUS, R338
    regA 0x340000 1 0 1 0 [rwF 50 32 0, rwF 18 0 0],                                         -- QMG_GRAN_RANGE R335
    regA 0x340008 1 0 1 0 [roW 63 63 0, w1c 62, rwF 24 16 0, rwF 9 8 0, rwF 2 2 0, woF 1 0], -- QMG_GRAN_CMD
    regA 0x900000 1 0 1 0 [rwF 31 16 50, rwF 11 8 2, woF 0 0],                               -- COL_CFG R409
    regA 0x900008 1 0 1 0 [roW 38 32 0, roW 8 0 0], ctrA .col 0x900010 1 0 11 8,             -- COL_STATUS, R411
    regA 0x980000 1 0 1 0 [],                                                                -- BEAT_NOW: a view R438
    regA 0x980008 1 0 1 0 [roK 19 0 0],                                                      -- BEAT_FRAC
    regA 0x980010 1 0 1 0 [roK 47 32 0, roK 31 24 0xFF, roK 23 16 255, roK 4 4 0, roK 2 0 0],-- BEAT_STATUS R439
    regA 0x980018 1 0 1 0 [rwF 47 32 1000, rwF 31 16 100, woF 0 0],                          -- BEAT_CFG
    regA 0x980020 1 0 1 0 [roK 31 0 0], regA 0x980028 1 0 1 0 [roK 63 0 0],                  -- BEAT_TRIM, BEAT_CONTRACT
    ctrA .beat 0x980040 1 0 6 8,                                                             -- R440
    regA 0xC00000 1 0 1 0 [woF 0 0], ctrA .seal 0xC00010 1 0 6 8,                            -- SEAL_CFG R469
    regA 0xC10000 1 0 1 0 [rwF 63 48 600, rwF 47 32 1000, rwF 31 24 8, rwF 3 3 0, rwF 2 2 1, rwF 1 1 1, woF 0 0],  -- IFT_CFG R470
    regA 0xC10008 1 0 1 0 [roW 40 40 0, roW 36 32 0, roW 20 16 0, roW 9 0 0], ctrA .ift 0xC10010 1 0 6 8,          -- IFT_STATUS, R471
    regA 0xB00000 1 0 1 0 [rwF 47 40 8, rwF 39 32 16, rwF 2 2 1, rwF 1 1 1, woF 0 0],        -- ESC_CFG R509
    regA 0xB01000 19 0x100 1 0 [], regA 0xB01008 19 0x100 1 0 [], ctrA .esc 0xB01010 19 0x100 6 8,  -- ESC_RAIL_ R510: views
    regA 0xB80000 1 0 1 0 [roK 63 52 2400, roK 51 40 0, roK 35 35 1, roK 34 34 1, roK 33 33 1, roK 32 32 0, roW 16 16 0, roK 1 0 0], -- PMC_STATUS R511
    regA 0xB80100 4 0x40 1 0 [roK 63 56 0, roK 47 32 0, roK 23 16 30, roK 9 8 0, roW 7 0 0], -- PMC_DIE_STATUS R512
    regA 0xB80108 4 0x40 1 0 [roK 63 0 0],                                                   -- PMC_DROOP_SEQ
    ctrA .other 0xB80200 1 0 9 8,                                                            -- R514
    regA 0xB90000 4 0x400 64 0x10 [roK 63 0 0],                                              -- droop log word 0
    regA 0xB90008 4 0x400 64 0x10 [roK 63 44 0, roK 39 32 0, roK 31 24 0, roK 23 16 0, roK 15 8 0, roK 2 0 0],
    regA 0xBA0000 256 64 5 8 [roK 47 32 0, ⟨15, 0, .rw, .tableI [240, 30, 40, 120, 300], .keep⟩],  -- PMC_PHASE R513
    regA 0xD00000 1 0 1 0 [woF 1 1, woF 0 0],                                                -- TEL_CFG R571
    regA 0xD00008 1 0 1 0 [roK 63 32 0, roK 31 0 0],                                         -- TEL_LIFE
    regA 0xD00010 1 0 1 0 [roK 63 32 0, roW 31 23 0],                                        -- TEL_SLOG
    ctrA .tel 0xD00040 1 0 5 8,                                                              -- R572
    regA 0xD10000 256 8 1 0 [roK 31 16 0x8000, roK 15 0 0],                                  -- TEL_TS
    regA 0xD20000 1024 8 1 0 [roK 31 16 0x7FFF, roK 15 0 0],                                 -- TEL_TM
    regA 0xD30000 20 0x100 1 0 [roK 63 48 0, roW 31 16 0, roK 15 0 0],                       -- TEL_RAIL_NOW
    ctrA .tel 0xD30010 20 0x100 8 8, ctrA .tel 0xD30050 20 0x100 1 0,                        -- TEL_RAIL_HIST, OVER
    regA 0xD40000 512 0x10 1 0 [roK 47 32 0, roK 31 16 0, roK 15 0 0xFFFF],                  -- TEL_MARGIN word 0
    regA 0xD40008 512 0x10 1 0 [roK 63 0 0],                                                 -- TEL_MARGIN word 1
    regA 0xD50000 1 0 1 0 [roW 63 63 0, w1c 62, rwF 11 8 0, woF 0 0],                        -- TEL_SNAP_CTL
    regA 0xD50100 1 0 64 8 [roW 63 0 0],                                                     -- TEL_SNAP_BUF
    ctrA .tel 0xD60000 256 8 1 0,                                                            -- TEL_DD
    regA 0xE00000 1 0 1 0 [rwF 47 32 0, rwF 31 16 0, rwF 15 8 0, rwF 3 2 0, woF 0 0],        -- OD_MB_CTL R534
    regA 0xE00008 1 0 1 0 [roW 15 8 0, w1c 1, roW 0 0 0] ]                                   -- OD_MB_STATUS R535

def regsMemTier : List RegDesc :=
  [ regA 0xA00000 1 0 1 0 [roK 16 16 0, roK 15 0 0],                                         -- MEM_HASH_ID R275
    regA 0xA00008 1 0 1 0 [w1c 3, w1c 2, rwF 1 1 1, rwF 0 0 0],                              -- MEM_GCTL
    regA 0xA00010 1 0 1 0 [roW 31 31 0, rwF 24 16 0, rwF 13 12 0, woF 1 0],                  -- MEM_FCP_CTL
    regA 0xA00018 1 0 1 0 [roK 41 32 0, roW 25 16 0, w1cK 0],                                -- MEM_HOT_STATUS
    regA 0xA10000 12 0x40 1 0 [roK 15 8 0, roK 1 0 0],                                       -- MEM_STK_STATUS R277
    ctrA .other 0xA20000 4 0x100 7 8,                                                        -- R278
    regA 0xA40000 768 0x100 1 0 [rwF 63 32 1, rwF 23 16 50, rwF 11 8 0, rwF 7 6 2, rwF 2 2 0, woF 1 1, woF 0 0],  -- MEM_TG_CTL R279
    regA 0xA40008 768 0x100 1 0 [rwF 47 32 64, rwF 29 16 0, rwF 13 0 0],
    regA 0xA40010 768 0x100 1 0 [rwF 63 0 0xFFFFFFFFFFFFFFFF],
    regA 0xA40018 768 0x100 1 0 [roW 63 32 0, roW 8 4 0, roW 3 3 0, roW 2 2 0, roW 1 1 0, roW 0 0 0],
    regA 0xA40040 768 0x100 16 8 [roW 63 63 0, roW 61 56 0, roW 55 42 0, roW 41 37 0, roW 36 34 0, roW 31 0 0],  -- R280
    ctrA .other 0xA400C0 768 0x100 8 8,                                                      -- R281
    regA 0xA80000 1 0 1 0 [rwF 31 24 4, rwF 15 8 100, woF 0 0],                              -- DIR_CFG R299
    regA 0xA90000 64 0x100 1 0 [],                                                           -- DIR_SL_STATUS: a view R300
    ctrA .dir 0xA90010 64 0x100 11 8 ]                                                       -- R301

def regsLink : List RegDesc :=
  [ regA 0x800000 36 0x4000 1 0 [woF 3 3, woF 2 2, rwsF 1 1 0, woF 0 0],                     -- LNK_CTL R374
    regA 0x800008 36 0x4000 1 0 [roW 63 52 0, roW 51 49 0, roW 48 46 0, roK 39 32 0, roW 31 24 0, roW 23 16 0,
      roW 11 8 0, ⟨4, 4, .ro, .num 0, .keep⟩, roW 3 3 0, roW 2 0 0],                         -- LNK_STATUS R375
    regA 0x800010 36 0x4000 1 0 [roW 9 9 0, roW 8 8 0, w1cK 5, w1cK 4, w1cK 3, w1cK 2, w1cK 1, w1cK 0],  -- LNK_EVENT R376
    regA 0x800018 36 0x4000 1 0 [rwF 63 48 10, rwF 47 32 100, rwF 31 24 16, rwF 23 16 1, rwF 15 12 1, rwF 11 8 4, rwF 7 4 4],
    ctrA .lnk 0x800040 36 0x4000 15 8,                                                       -- R377
    regA 0x800200 36 0x4000 8 0x20 [roK 63 48 0, roK 47 32 0, roK 15 8 0, roW 2 2 0, roW 1 1 0, roW 0 0 0],  -- LNK_LANE_STATUS R378
    ctrA .lnk 0x800208 36 0x4000 8 0x20,
    regA 0x890000 1 0 1 0 [roK 59 48 0, roK 47 44 0, roK 43 40 0, roK 39 36 0, roW 35 30 0, roK 29 24 0, roW 0 0 0] ]  -- R379

/-- Every register of the map. -/
def regTable : List RegDesc := regsFunc ++ regsGlobal ++ regsCluster ++ regsMemTier ++ regsLink ++ regsCore

/-- Indices (i, j) of key `k` in descriptor `d`, when it lies there. -/
def RegDesc.locate (d : RegDesc) (k : Nat) : Option (Nat × Nat) :=
  if k < d.base then none else
  let o := k - d.base
  let i := if d.s1 = 0 then 0 else min (o / d.s1) (d.n1 - 1)
  let r := o - i * d.s1
  let j := if d.s2 = 0 then 0 else min (r / d.s2) (d.n2 - 1)
  if r = j * d.s2 ∧ i < d.n1 then some (i, j) else none

/-- The descriptor a key falls in, with its indices; none for an unassigned offset (R9). -/
def regFind : List RegDesc → Nat → Option (RegDesc × Nat × Nat)
  | [], _ => none
  | d :: ds, k => match d.locate k with
    | some (i, j) => some (d, i, j)
    | none => regFind ds k

def ResetV.value : ResetV → Nat → Nat → Nat
  | .num n, _, _ => n
  | .outer m, i, _ => m * i
  | .zeroElse a b, i, _ => if i = 0 then a else b
  | .tableO l, i, _ => l.getD i 0
  | .tableI l, _, j => l.getD j 0

/-- Cold reset value of a register (R8). -/
def regColdOf (d : RegDesc) (i j : Nat) : Nat :=
  d.fields.foldl (fun n f => setBits n f.hi f.lo (f.cold.value i j)) 0

/-- Cold reset value of the register with key `k`; 0 for an unassigned one. -/
def regCold (k : Nat) : W64 :=
  match regFind regTable k with
  | some (d, i, j) => BitVec.ofNat 64 (regColdOf d i j)
  | none => 0

/-- A register's value after a warm reset (R8): kept fields keep, the others take the Warm reset value. -/
def regWarmOf (d : RegDesc) (i j old : Nat) : Nat :=
  d.fields.foldl (fun n f => match f.warm with
    | .keep => setBits n f.hi f.lo (bitsOf old f.hi f.lo)
    | .val v => setBits n f.hi f.lo (v.value i j)) 0

/-- What a write leaves in a register (R7, R9): RW, RWS and RWP fields take the written bits that `mask` covers, RW1C bits written 1
become 0, the rest stays. -/
def regWriteOf (d : RegDesc) (old val mask : Nat) : Nat :=
  let new := (old ^^^ ((old ^^^ val) &&& mask))
  d.fields.foldl (fun n f => match f.acc with
    | .rw | .rws | .rwp => setBits n f.hi f.lo (bitsOf new f.hi f.lo)
    | .rw1c => if bitOf (val &&& mask) f.lo then setBits n f.hi f.lo 0 else n
    | .ro | .wo => n) old

end Sys2Proof.Machine
end

