-- ==== Sys2Proof/Machine/State.lean ====
section
/-!
DEFINITION. The state of the machine as plain data: every register, memory, queue, buffer, counter, mode and pin the spec gives
it, the queue of waiting commands, and the model's own two fields (the free-value counter and the outbox). Large tables are sparse
maps (`Machine/Sparse.lean`); what an unlisted key holds is the structure's `init` value, which is its value after a cold reset.
-/

namespace Sys2Proof.Machine

/-- Why a step stops with a fault. -/
inductive Fault where
  /-- Raised by a command whose operand names a core, cluster, queue, function, link, stack, rail or die that the device does not
  have (R6 and the counts of R3). Safe: no such command reaches the hardware. -/
  | unitAbsent
  deriving DecidableEq, Repr

/-- Why a step is refused. -/
inductive Refusal where
  /-- Raised by the dispatcher for a command that has no meaning yet. Safe: nothing runs. -/
  | notModelled (mnemonic : String)
  deriving DecidableEq, Repr

/-- What the device sends outward, for the parties outside to consume (DESIGN CHOICE, log 10). -/
inductive Out where
  /-- An MSI-X message of a function's vector: the table entry's address and data (R608). -/
  | msix (fn vec addr data : Nat)
  /-- A PCIe memory write to host memory under a function's requester ID (R604). -/
  | hostWrite (fn addr : Nat) (data : List Byte)
  /-- A PCIe memory read request (R604): function, tag, address, length. -/
  | hostRead (fn tag addr len : Nat)
  /-- The value a host read of BAR0, BAR2 or configuration space returned: function, offset or address, bytes, poisoned. -/
  | hostData (fn addr : Nat) (data : List Byte) (poison : Bool)
  /-- A CAN FD frame: identifier and payload (R531). -/
  | can (id : Nat) (data : List Byte)
  /-- An MCTP message: destination endpoint and body (R533). -/
  | mctp (dest : Nat) (data : List Byte)
  /-- A rail-request frame of 32 bits (R622). -/
  | rail (frame : Nat)
  /-- A symbol-level message of a link's training or authentication (R358, R361): link, kind, bytes. -/
  | link (link kind : Nat) (data : List Byte)
  /-- A flit (R342): link, bytes. -/
  | flit (link : Nat) (data : List Byte)
  deriving DecidableEq, Repr

/-! ### Step domains (chapter 06) -/

/-- A VN granule written in the open attempt (R143): region, granule index, and the pool granule taken (its physical address). -/
structure TakenGranule where
  region : Nat
  granule : Nat
  phys : Nat
  deriving DecidableEq, Repr

/-- A step decision (R159): action 0 COMMIT, 1 REPLAY, 2 RESTART, 3 HALT. -/
structure Decision where
  step : Nat
  attempt : Nat
  action : Nat
  causes : Nat
  beat : Nat
  deriving DecidableEq, Repr

/-- Generator fields that a snapshot keeps outside the snapshot area (R146). -/
structure SnapCore where
  core : Nat
  valid : Bool
  seeded : Bool
  posBase : Nat
  deriving DecidableEq, Repr

/-- A contribution on its way to rank 0 (R159): the rank it comes from, the step and attempt, and its subtree's highest action, causes
and highest sampling beat. -/
structure Contrib where
  rank : Nat
  step : Nat
  attempt : Nat
  action : Nat
  causes : Nat
  beat : Nat
  deriving DecidableEq, Repr

/-- The step domain of a function beyond its NWT_ registers (R141 to R168). -/
structure StepDomain where
  /-- Descriptor bytes as read at the latest STEP_BEGIN (R141). -/
  desc : List Byte
  taken : List TakenGranule
  /-- Pool granules not taken, by physical address, in list order (R143). -/
  pool : List Nat
  snap : List SnapCore
  /-- Step and action of the previous decision (R156). -/
  prevStep : Nat
  prevAction : Nat
  /-- Cause word and beat as sampled (R158). -/
  sampledCause : Nat
  sampledBeat : Nat
  /-- Beat boundaries passed at the sample (R414). -/
  sampledTick : Nat
  /-- The command that waits for its decision: queue, index, and whether it is LOCAL. -/
  commit : Option (Nat × Nat)
  commitLocal : Bool
  /-- Contributions received from the ranks below in the tree. -/
  contribs : List Contrib
  /-- The decision that waits for its beat (R160). -/
  decision : Option Decision
  /-- Rank 0's log of the last 16 decisions (R159). -/
  log : List Decision
  /-- Decision messages discarded (R159). -/
  discarded : Nat
  /-- First alarmed watch of the attempt and its norm (R152). -/
  firstWatch : Nat
  firstNorm : Nat
  beginBeat : Nat
  flipBeat : Nat
  /-- Layer groups in fall-back in the open attempt (R165). -/
  fbMask : List Bool
  /-- A fault of a command that completed after the sample, for the next attempt (R166). -/
  lateFault : Bool
  /-- Largest SLIP of the commands dispatched in the attempt (R428). -/
  maxSlip : Nat
  deriving DecidableEq, Repr

/-- A domain after a cold reset. -/
def StepDomain.init : StepDomain :=
  { desc := [], taken := [], pool := [], snap := [], prevStep := 0, prevAction := 0, sampledCause := 0, sampledBeat := 0, sampledTick := 0,
    commit := none, commitLocal := false, contribs := [], decision := none, log := [], discarded := 0, firstWatch := 0xFFFF,
    firstNorm := 0, beginBeat := 0, flipBeat := 0, fbMask := [], lateFault := false, maxSlip := 0 }

/-! ### Cores: tile engine, threads, movement, prefetch, generators, sleep (chapters 03, 08, 09) -/

/-- What a thread waits for (R225): a completion counter, a semaphore condition, or a fence of scope 0 core, 1 cluster, 2 device,
3 fabric. -/
inductive ThreadWait where
  | none
  | counter (c v : Nat)
  | sem (s v scope : Nat)
  | fence (scope : Nat)
  deriving DecidableEq, Repr

/-- A hardware thread (R224): running or halted, its registers and what it waits for. -/
structure Thread where
  running : Bool
  regs : List (Nat × Nat)
  wait : ThreadWait
  deriving DecidableEq, Repr

/-- A halted thread with registers zero (R247). -/
def Thread.init : Thread := { running := false, regs := [], wait := .none }

/-- A thread's load or store that waits for its block (R232): for a load the destination register, for a store the value. -/
structure ThreadAcc where
  thread : Nat
  store : Bool
  reg : Nat
  addr : Nat
  size : Nat
  value : Nat
  deriving DecidableEq, Repr

/-- Source of an outstanding request (R232): a thread's load or store, a movement into or out of the scratchpad, a prefetch of a
tracker, an MV.PF. Movements name their completion counter. -/
inductive ReqKind where
  | demand
  | moveIn (mvc : Nat)
  | moveOut (mvc : Nat)
  | moveCache (mvc : Nat)
  | prefetch
  deriving DecidableEq, Repr

/-- An outstanding or waiting request of a core: a naturally aligned block of up to 512 bytes (R227, R232). `id` is unique in its core;
`group` numbers the instruction it belongs to, whose completion counter moves when its last request completes (R226); `left` lists the
pieces not yet answered by their first address (a coherence line each, or the block itself). -/
structure CoreReq where
  id : Nat
  kind : ReqKind
  addr : Nat
  size : Nat
  /-- The scratchpad offset of a movement. -/
  other : Nat
  group : Nat
  left : List Nat
  /-- Thread accesses that wait for the block, merged ones included (R232). -/
  accs : List ThreadAcc
  deriving DecidableEq, Repr

/-- An MV.BULK that still has requests to issue (R227): the next address, scratchpad offset and bytes left. -/
structure Bulk where
  out : Bool
  addr : Nat
  spad : Nat
  len : Nat
  mvc : Nat
  group : Nat
  deriving DecidableEq, Repr

/-- A 512-byte block of the prefetch buffer (R233). `used`: a demand load has hit it (R235). -/
structure PfBlock where
  addr : Nat
  used : Bool
  deriving DecidableEq, Repr

/-- A prefetch tracker (R234). -/
structure Tracker where
  thread : Nat
  last : Nat
  stride : Int
  /-- Misses seen with this stride. -/
  run : Nat
  confirmed : Bool
  /-- First address not yet requested ahead. -/
  ahead : Nat
  deriving DecidableEq, Repr

/-- The resident stationary tile (R70): shape, mode and format of B; the SFMT of the block scales that load with it (0 none); codes and
scale bytes of its elements, K position times tile width plus column; the K4 codebook. -/
structure ResidentTile where
  shape : Nat
  mode : Nat
  fmtB : Nat
  sfmt : Nat
  codes : List Nat
  scales : List Nat
  book : List Byte
  deriving DecidableEq, Repr

/-- A running vector program (R317, R318): its queue, command index, the threads it started, whether it draws (R205), and the ranges of
the scratchpad its movements have filled. `stop`: the status and DETAIL it stops with. -/
structure VProgram where
  queue : Nat
  index : Nat
  threads : List Nat
  draws : Bool
  fills : List (Nat × Nat)
  stop : Option (Nat × Nat)
  deriving DecidableEq, Repr

/-- A logical core beyond its registers. -/
structure Core where
  threads : List (Nat × Thread)
  lastIssue : Nat
  /-- MVC0 to MVC7 (R226). -/
  mvc : List (Nat × Nat)
  missRegs : List CoreReq
  mvQueue : List CoreReq
  /-- Requests handed to the cluster DMA engine (R227, R228), each holding one tag. -/
  dmaReqs : List CoreReq
  bulks : List Bulk
  nextGroup : Nat
  /-- Prefetch buffer, most recently used first, and its size in blocks (R233). -/
  pfBuf : List PfBlock
  pfBlocks : Nat
  trackers : List Tracker
  vprog : Option VProgram
  tile : Option ResidentTile
  /-- Generator states, lane to S0 + 2^64 * S1 (R200). -/
  lanes : List (Nat × BitVec 128)
  /-- Generator state as it stood at the start of the drawing command, for R207. -/
  lanesSaved : List (Nat × BitVec 128)
  /-- Table index of stream cycles seen by the checker (R451). -/
  streamN : Nat
  /-- Beat boundaries passed when the core was last not idle (R236). -/
  idleSince : Nat
  /-- State being entered: 2 or 3; 0 none (R239). -/
  entering : Nat
  /-- Cause of a wake that arrived after the SLEEP marker, during entry; 0 none (R239, R560). -/
  wakeAfterEntry : Nat
  /-- Cause of the wake in progress (R560). -/
  wakeCause : Nat
  /-- A wake waits for its grant (R238). -/
  wakeWaitsGrant : Bool
  /-- An in-field test holds the core's queues (R457). -/
  testHold : Bool
  deriving DecidableEq, Repr

/-- A core after a cold reset (R208, R247, R250). -/
def Core.init : Core :=
  { threads := [], lastIssue := 15, mvc := [], missRegs := [], mvQueue := [], dmaReqs := [], bulks := [], nextGroup := 0, pfBuf := [],
    pfBlocks := 512, trackers := [], vprog := none, tile := none, lanes := [], lanesSaved := [], streamN := 0, idleSince := 0,
    entering := 0, wakeAfterEntry := 0, wakeCause := 0, wakeWaitsGrant := false, testHold := false }

/-! ### Memory tiers (chapter 10) -/

/-- An installed cache part (R260, R262): the partition entry in force. -/
structure CachePart where
  enable : Bool
  count : Nat
  first : Nat
  deriving DecidableEq, Repr

/-- A part after a cold reset: disabled. -/
def CachePart.init : CachePart := { enable := false, count := 0, first := 0 }

/-- A resident line of a cache part, in its set's list most recently used first (R261). -/
structure PartLine where
  line : Nat
  dirty : Bool
  deriving DecidableEq, Repr

/-- A bank copy in progress (R259): die, spare, logical bank, and the 256 B lines already copied. -/
structure BankCopy where
  die : Nat
  spare : Nat
  bank : Nat
  copied : List Nat
  deriving DecidableEq, Repr

/-- An APPLY or FLUSH in progress (R262). -/
structure PartAction where
  fn : Nat
  die : Nat
  apply : Bool
  deriving DecidableEq, Repr

/-- A granule action in progress (R335): the registers hold its parameters. -/
structure GranAction where
  zero : Bool
  tier : Nat
  first : Nat
  count : Nat
  fn : Nat
  query : Bool
  deriving DecidableEq, Repr

/-- The memory tiers beyond their bytes, seals and registers. -/
structure MemTiers where
  /-- Fixed key in force since the latest cold reset, or none: the key is the entropy draw numbered `keyDraw` (R266). -/
  keyFixed : Option Nat
  keyDraw : Nat
  /-- Owner of a granule, keyed tier * 2^20 + n (R254, R335). -/
  granOwner : List (Nat × Nat)
  parts : List (Nat × CachePart)
  /-- Resident lines, keyed part * 2^24 + set (R261). -/
  partSets : List (Nat × List PartLine)
  partAction : Option PartAction
  granAction : Option GranAction
  /-- Logical bank served by a spare, plus one, keyed die * 8 + spare (R259, R274). -/
  bankMap : List (Nat × Nat)
  copies : List BankCopy
  /-- Beats of corrected errors in the last hour, per bank (die * 256 + bank). -/
  bankCe : List (Nat × List Nat)
  /-- Beat + 1 of the last uncorrectable error per bank. -/
  bankUe : List (Nat × Nat)
  /-- Addresses of 8-byte words whose next read is uncorrectable (R271, R467). -/
  badWords : List Nat
  /-- Consecutive hot beats, consecutive cool beats of an open episode, open episodes' hot beats, per pseudo-channel (R269). -/
  hotRun : List (Nat × Nat)
  coolRun : List (Nat × Nat)
  openHot : List (Nat × Nat)
  /-- Generators told to stop (R279), by pseudo-channel. -/
  tgStop : List Nat
  /-- Retrains failed per pseudo-channel (R466). -/
  pcFails : List (Nat × Nat)
  deriving DecidableEq, Repr

/-! ### Cluster cache coherence (chapter 11) -/

/-- States of a line in a cluster cache (R287). -/
inductive LineSt where
  | I | S | E | M | IS | IM | SM | IW
  deriving DecidableEq, Repr

/-- Snoops (R286). -/
inductive SnoopKind where
  | snpS | snpM | snpInv | snpRd
  deriving DecidableEq, Repr

/-- A line of a cluster cache (R283, R287). Its data is the coherent value, which the model holds once, in memory (DESIGN CHOICE, log 23). `dirty` tells
a writeback of PutM from one of PutE; `poison` is the record of a loss (R296), with its SEQ. -/
structure CLine where
  st : LineSt
  dirty : Bool
  poison : Option Nat
  /-- Order of last use (R283). -/
  stamp : Nat
  /-- Requests that wait for the line, oldest first: core and request. -/
  waiting : List (Nat × Nat)
  /-- Snoops held under R290. -/
  held : List SnoopKind
  deriving DecidableEq, Repr

/-- A line that is not cached. -/
def CLine.init : CLine := { st := .I, dirty := false, poison := none, stamp := 0, waiting := [], held := [] }

/-- Request kinds at a home (R286), and the back-invalidation of R285. -/
inductive ReqType where
  | getS | getM | upg | readNC | writeNC | backInv
  deriving DecidableEq, Repr

/-- A request at a home: kind, requester (32 for a non-caching agent, R289), for a non-caching one its core and request, the bytes of a
WriteNC with their offset in the line, the deadlines of R293 (boundaries passed), and whether it has been warned of. -/
structure HomeReq where
  kind : ReqType
  from_ : Nat
  core : Nat
  req : Nat
  off : Nat
  data : List Byte
  warnAt : Nat
  warned : Bool
  deriving DecidableEq, Repr

/-- The open transaction of a line (R288): the request, clusters whose answer is awaited, clusters whose writeback is awaited after a MISS
(R291), writebacks that came before their MISS, whether memory is being accessed, whether a copy has supplied the data, and the
deadline of its snoops (R296). `crossed`: the owner no longer held the line. -/
structure Txn where
  req : HomeReq
  awaits : List Nat
  awaitsPut : List Nat
  putEarly : List Nat
  memWait : Bool
  gotData : Bool
  dirty : Bool
  poison : Option Nat
  crossed : Bool
  snoopDue : Nat
  deriving DecidableEq, Repr

/-- Directory entry of a line at its home slice (R285, R288, R289): `owner` for EM, `sharers` for S. -/
structure DirEntry where
  owner : Option Nat
  sharers : List Nat
  txn : Option Txn
  queue : List HomeReq
  /-- Non-caching requests that wait outside the line queue (R289). -/
  ncWait : List HomeReq
  stamp : Nat
  deriving DecidableEq, Repr

/-- A line without an entry: state I (R285). -/
def DirEntry.init : DirEntry := { owner := none, sharers := [], txn := none, queue := [], ncWait := [], stamp := 0 }

/-- Coherence messages of R286. -/
inductive CohKind where
  | getS | getM | upg | readNC | writeNC | putM | putE | putS
  | snpS | snpM | snpInv | snpRd
  | dataS | dataE | dataM | ack | wbAck | invAck | snpData | snpAck | miss | missPutPending
  deriving DecidableEq, Repr

/-- A message on its way between a cluster and a home (R286): line address, cluster, whether its data is dirty or poisoned, and for a
non-caching request its core, request, offset and bytes. -/
structure CohMsg where
  kind : CohKind
  line : Nat
  cluster : Nat
  dirty : Bool
  poison : Option Nat
  core : Nat
  req : Nat
  off : Nat
  data : List Byte
  deriving DecidableEq, Repr

/-- All coherence state. Cluster lines are keyed line * 32 + cluster. -/
structure Coherence where
  lines : List (Nat × CLine)
  dir : List (Nat × DirEntry)
  net : List CohMsg
  rrPtr : List (Nat × Nat)
  /-- Snoops that timed out: line * 32 + cluster, for late answers (R296). -/
  timedOut : List Nat
  stamp : Nat
  deriving DecidableEq, Repr

/-! ### Queues, commands, tenants, Sorter (chapter 12) -/

/-- A command fetched from its ring and not yet granted (R306). -/
structure Fetched where
  /-- Free-running command index (R303). -/
  index : Nat
  /-- The 64 command bytes, as read once from the slot (R306, R307). -/
  bytes : List Byte
  /-- Wait conditions seen satisfied so far (R310). -/
  latched : List Bool
  /-- The not-before beat has been reached (R311). -/
  nbReached : Bool
  /-- Beat boundaries passed when the head last became ready (R325). -/
  readyBeat : Option Nat
  /-- Beat boundaries passed at its promotion (R325). -/
  promoted : Option Nat
  /-- A pre-booking has been asked for (R486). -/
  prebooked : Bool
  deriving DecidableEq, Repr

/-- A migration in progress (R328). -/
structure Migration where
  oldCore : Nat
  newCore : Nat
  /-- The DRAIN_MARK of the old epoch has completed. -/
  drained : Bool
  /-- RNG_SAVE on the old core took place (step 3). -/
  saved : Bool
  /-- Beat boundaries passed when step 1 acted. -/
  since : Nat
  deriving DecidableEq, Repr

/-- A queue action that waits for the scheduler core (R576): 0 ENABLE, 1 PAUSE, 2 RESUME, 3 DISABLE, 4 RESET, 5 MIGRATE. -/
structure QAction where
  fn : Nat
  action : Nat
  core : Nat
  deriving DecidableEq, Repr

/-- A queue: its context words (R336), its counts (R304), the commands fetched and not yet granted (R306), and what a queue report
shows (R316). `state`: 0 DISABLED, 1 ENABLED, 2 PAUSED, 3 MIGRATING, 4 ERROR. -/
structure Queue where
  ring : Nat
  cpl : Nat
  head : Nat
  tail : Nat
  cdone : Nat
  epoch : Nat
  msix : Nat
  errState : Nat
  state : Nat
  rngBind : Bool
  irqEn : Bool
  bgroup : Nat
  log2size : Nat
  core : Nat
  rngArea : Nat
  done : Nat
  cancelled : Nat
  deadLetters : Nat
  slipSum : Nat
  fetched : List Fetched
  /-- Indices not yet fetched whose cancel is recorded (R327). -/
  cancelMarks : List Nat
  /-- A DISABLE (1) or RESET (2) waits for granted commands to complete; 0 none (R333, R336). -/
  stopping : Nat
  migration : Option Migration
  deferred : Option QAction
  /-- The PAUSED state was set by a UCT record and waits for RESUME (R461, R464). -/
  uctPaused : Bool
  deriving DecidableEq, Repr

/-- A queue after a cold reset: context zero, DISABLED (R333). -/
def Queue.init : Queue :=
  { ring := 0, cpl := 0, head := 0, tail := 0, cdone := 0, epoch := 0, msix := 0, errState := 0, state := 0, rngBind := false,
    irqEn := false, bgroup := 0, log2size := 0, core := 0, rngArea := 0, done := 0, cancelled := 0, deadLetters := 0,
    slipSum := 0, fetched := [], cancelMarks := [], stopping := 0, migration := none, deferred := none, uctPaused := false }

/-- A command granted to its engine and not yet completed (R312), with what the engine has recorded so far. -/
structure Flight where
  queue : Nat
  index : Nat
  fn : Nat
  core : Nat
  /-- Epoch under which it was granted (R328). -/
  epoch : Nat
  bytes : List Byte
  grantBeat : Nat
  /-- Beat boundaries passed at its grant, for durations (R414). -/
  grantTick : Nat
  /-- Its current is granted, so its engine may act (R480). -/
  powered : Bool
  /-- Amount booked, normalised, in 0.01 A (R485). -/
  booked : Nat
  /-- The engine has ended the command; COMMAND_COMPLETE may act (R312). -/
  ended : Bool
  /-- Status code of R314 recorded by the engine. -/
  status : Nat
  detail : Nat
  nanf : Bool
  inff : Bool
  reservedCode : Bool
  outlierOvf : Bool
  firstNan : Bool
  firstRow : Nat
  firstCol : Nat
  /-- Addresses of the 2 KiB blocks the command has written, in whole or part (R314). -/
  blocks : List Nat
  /-- A cancel was recorded after the grant (R327). -/
  cancel : Bool
  /-- Its result is stale (R329). -/
  stale : Bool
  /-- Requests to other devices or to the host still outstanding (R317, R354, R604). -/
  waiting : Nat
  /-- Physical ranges written by data that arrived, and remote blocks written (R317). -/
  wrote : List (Nat × Nat)
  remoteBlocks : List Nat
  /-- Its VOID messages have been sent (R317). -/
  voided : Bool
  /-- Dead-letter reason 3 instead of 1 applies: a remote device refused (R314). -/
  undelivered : Bool
  /-- The command was dispatched inside the function's open attempt (R154). -/
  inAttempt : Bool
  deriving DecidableEq, Repr

/-- The arbiter of R323: pointers and deficits of its levels, keyed as `Machine/Sorter.lean` says. -/
structure Sorter where
  ptrs : List (Nat × Nat)
  deficits : List (Nat × Nat)
  /-- The command granted in the present Sorter cycle, for R327's coincident cancel: queue and index. -/
  lastGrant : Option (Nat × Nat)
  deriving DecidableEq, Repr

/-- Per-function dead-letter bookkeeping (R330, R331): drops since the last record, and SEQ. -/
structure DeadLetters where
  lost : Nat
  seq : Nat
  deriving DecidableEq, Repr

/-! ### Fabric links (chapter 13) -/

/-- A message of R344, its payload length being LEN. -/
structure FabMsg where
  dst : Nat
  src : Nat
  pkey : Nat
  mtype : Nat
  flags : Nat
  aux : Nat
  tag : Nat
  addr : Nat
  sealW : Nat
  data : List Byte
  deriving DecidableEq, Repr

/-- A DATA flit in the replay buffer (R346): sequence number, pool, payload. -/
structure TxFlit where
  seq : Nat
  pool : Nat
  payload : List Byte
  deriving DecidableEq, Repr

/-- A link beyond its registers. Pools are numbered 2 * VC + dateline class (R343). -/
structure LinkState where
  /-- Byte streams of messages not yet framed, oldest first: pool and bytes left. -/
  txq : List (Nat × List Byte)
  replay : List TxFlit
  /-- A replay in progress: how many buffered flits have been sent again (R347). -/
  resend : Option Nat
  /-- A received NAK's ACK not yet acted on. -/
  nakFrom : Option Nat
  txSeq : Nat
  /-- Credits held, per pool (R348). -/
  credits : List (Nat × Nat)
  /-- The arbiter of R349 and the class of each VC served last. -/
  arb : Sorter
  lastClass : List (Nat × Nat)
  /-- SEQ of the last DATA flit accepted (R346). -/
  rxSeq : Nat
  rxStream : List (Nat × List Byte)
  /-- Credits to return, per pool. -/
  give : List (Nat × Nat)
  nakSend : Bool
  nakWait : Bool
  /-- CTRL flits to send: 1 retrain, 2 quarantine. -/
  ctrl : List Nat
  /-- Beat of the last change of state, and the beat from which training is tried again (R358). -/
  since : Nat
  retryAt : Nat
  /-- The partner is expected to be retrained on every lane (LNK_CTL.RETRAIN). -/
  allLanes : Bool
  /-- Consecutive starved beats per pool, and the pool LINK_STALL named (R366). -/
  starve : List (Nat × Nat)
  stallPool : Nat
  /-- Consecutive noisy and quiet beats; DATA flits sent and sent again in the present beat (R367). -/
  noisy : Nat
  quiet : Nat
  sent : Nat
  resent : Nat
  /-- Beats of malformed flits and of key violations within the last 1,000 beats (R364). -/
  malf : List Nat
  keyv : List Nat
  /-- Exchanges of R361 finished, the beat of the latest message sent, and whether it has been repeated. -/
  spdm : Nat
  spdmBeat : Nat
  spdmTwice : Bool
  /-- The authentication waits for the security core (R372, R576). -/
  authHeld : Bool
  /-- The bound of 1.5 s on the authentication has restarted (R372). -/
  authLate : Bool
  /-- Beat + 3 of the latest uncorrectable codeword or end of retrain; TIME messages before it are discarded (R368). -/
  timeBad : Nat
  /-- LNK_CFG in force (R376). -/
  cfg : Nat
  deriving DecidableEq, Repr

/-- A link after a cold reset. -/
def LinkState.init : LinkState :=
  { txq := [], replay := [], resend := none, nakFrom := none, txSeq := 0, credits := [],
    arb := { ptrs := [], deficits := [], lastGrant := none }, lastClass := [], rxSeq := 4095, rxStream := [], give := [],
    nakSend := false, nakWait := false, ctrl := [], since := 0, retryAt := 0, allLanes := false, starve := [], stallPool := 0, noisy := 0, quiet := 0,
    sent := 0, resent := 0, malf := [], keyv := [], spdm := 0, spdmBeat := 0, spdmTwice := false, authHeld := false, authLate := false, timeBad := 0, cfg := 0x000A_0064_1001_1440 }

/-- What an outstanding remote or host request asks for. -/
inductive RemKind where
  /-- Data to be read, for a local destination (or, again, a remote one). -/
  | read (dst len : Nat)
  | write (sealed : Bool)
  | sig
  | void
  /-- A piece of a core's request: core and request. -/
  | core (core req : Nat)
  deriving DecidableEq, Repr

/-- A request to another device or to the host that has no answer yet (R354, R604): its tag, its command when it has one, the
address in remote or host form, and the beat it was sent. -/
structure RemoteReq where
  tag : Nat
  host : Bool
  kind : RemKind
  queue : Nat
  index : Nat
  addr : Nat
  since : Nat
  deriving DecidableEq, Repr

/-- The fabric configuration in force since the latest cold reset (R350, R373): shape, wrap bits, beat origin, partition keys. -/
structure Fabric where
  dimX : Nat
  dimY : Nat
  dimZ : Nat
  wrap : Nat
  origin : Nat
  keys : List Nat
  links : List (Nat × LinkState)
  /-- Messages received for this device, with their link, not yet served. -/
  inbox : List (Nat × FabMsg)
  /-- Messages received for other nodes: the dimension and direction they arrived along, their class, not yet forwarded (R352). -/
  forward : List (Nat × Nat × FabMsg)
  requests : List RemoteReq
  nextTag : Nat
  deriving DecidableEq, Repr

/-- The default shape: one device (R373). -/
def Fabric.init : Fabric :=
  { dimX := 1, dimY := 1, dimZ := 1, wrap := 7, origin := 0, keys := [0], links := [], inbox := [], forward := [], requests := [],
    nextTag := 0 }

/-! ### Collectives (chapter 14) -/

/-- A transfer of one level of a collective: the rank at the other end, the local slot (own rank, or the virtual rank it hosts,
R391), the range of elements or bytes, its level number on the wire, and whether it carries a contribution not yet added to. -/
structure Xfer where
  peer : Nat
  slot : Nat
  lo : Nat
  len : Nat
  wire : Nat
  raw : Bool
  deriving DecidableEq, Repr

/-- One level of a collective's algorithm (R393): what is sent and what is awaited, moves between local slots (from, to, start,
length), and whether what arrives is combined by a tree node or copied. -/
structure ColLevel where
  sends : List Xfer
  recvs : List Xfer
  locals : List (Nat × Nat × Nat × Nat)
  combine : Bool
  deriving DecidableEq, Repr

/-- A chunk sent and not acknowledged (R397, R399): receiver, level, chunk index, its bytes, resends so far, beat of its postmark,
and whether it waits for the receiver's READY (R398). -/
structure ChunkOut where
  peer : Nat
  level : Nat
  chunk : Nat
  bytes : List Byte
  resends : Nat
  sentBeat : Nat
  waits : Bool
  deriving DecidableEq, Repr

/-- A chunk being received: sender, level, chunk index, pieces (offset, bytes), the postmark received, failed checks, accepted. -/
structure ChunkIn where
  peer : Nat
  level : Nat
  chunk : Nat
  pieces : List (Nat × List Byte)
  mark : Option Nat
  fails : Nat
  accepted : Bool
  deriving DecidableEq, Repr

/-- A communicator entry and its member list as read at the start (R380, R381). -/
structure Comm where
  p : Nat
  rank : Nat
  checker : Nat
  members : List Nat
  thresh : Nat
  timeout : Nat
  waitAddr : Nat
  spotSeed : Nat
  deriving DecidableEq, Repr

/-- A collective in progress on this member. -/
structure Collective where
  queue : Nat
  index : Nat
  fn : Nat
  op : Nat
  commId : Nat
  seq : Nat
  comm : Comm
  /-- The command and its descriptor as read at the start (R385), chunk sizes by rank (R387), and for ALLTOALLV by rank: bytes sent,
  their offset, bytes received, their offset. -/
  cmd : List Byte
  desc : List Byte
  counts : List Nat
  a2a : List (Nat × Nat × Nat × Nat)
  /-- 0 TREE, 1 BANDWIDTH, 2 PAIRWISE, 3 LOCAL (R404). -/
  algo : Nat
  digest : Nat
  arrival : Nat
  /-- Beat boundaries passed at the start, for its timeout (R414). -/
  since : Nat
  /-- Largest arrival beat heard, the lowest rank with it, and the smallest (R402). -/
  aMax : Nat
  aRank : Nat
  aMin : Nat
  /-- Vectors by slot: FP32 codes for reductions, bytes for movement; an absent node is an empty vector. -/
  vecs : List (Nat × List Nat)
  levels : List ColLevel
  /-- The sends of the present level have been handed out. -/
  started : Bool
  ready : List Nat
  /-- Ranks from which a COL_DATA or COL_CTRL has arrived, and the ARRIVE messages received: rank and level. -/
  heard : List Nat
  arrived : List (Nat × Nat)
  out : List ChunkOut
  inn : List ChunkIn
  /-- Beat of the latest COL_READY messages (R398). -/
  readyBeat : Nat
  /-- On the checker, pieces of sampled contributions: rank, chunk, offset, bytes (R401), and postmarks of results: chunk, first
  element, postmark; and the verdict (mismatches) when it is known. -/
  spot : List (Nat × Nat × Nat × List Byte)
  spotMarks : List (Nat × Nat × Nat)
  verdict : Option Nat
  deriving DecidableEq, Repr

/-- The collective engine: running collectives, early messages, matches completed (function, communicator, SEQ); bytes sent and accepted that
COL_BYTES_TX and COL_BYTES_RX have not counted yet (R411). -/
structure ColEngine where
  running : List Collective
  early : List FabMsg
  done : List (Nat × Nat × Nat)
  txRest : Nat := 0
  rxRest : Nat := 0
  deriving DecidableEq, Repr

/-! ### Beat alignment (chapter 15) -/

/-- A valid time-transfer sample (R418, R419): link, partner node, its hop count, offset in ps, boundaries passed; and whether it came from an
ALIGNED neighbour. -/
structure TimeSample where
  link : Nat
  node : Nat
  hops : Nat
  theta : Int
  beat : Nat
  aligned : Bool
  deriving DecidableEq, Repr

/-- The beat logic beyond its registers (R416 to R424). -/
structure BeatLogic where
  samples : List TimeSample
  /-- SYNCs sent and not answered: link, SNUM, T1 beat and ps. -/
  syncs : List (Nat × Nat × Nat × Nat)
  nextSnum : Nat
  /-- Beat boundaries passed at the latest SYNCs and at the latest TRIM_UPDATE. -/
  lastSync : Nat
  lastTrim : Nat
  /-- Consecutive valid samples below 20 ns in ACQUIRING; boundaries passed at the last valid sample. -/
  good : Nat
  lastValid : Nat
  wasAligned : Bool
  /-- Samples ahead of the origin, consecutive (R424). -/
  ahead : List Int
  /-- Links and beats of the latest ORIGIN conflict event (R419). -/
  conflicts : List (Nat × Nat)
  deriving DecidableEq, Repr

/-- The beat logic after a cold reset. -/
def BeatLogic.init : BeatLogic :=
  { samples := [], syncs := [], nextSnum := 0, lastSync := 0, lastTrim := 0, good := 0, lastValid := 0, wasAligned := false, ahead := [], conflicts := [] }

/-! ### Seals, faults, tests (chapter 16) and the disabled-unit map (chapter 01) -/

/-- An error record (R463). -/
structure ErrRecord where
  seq : Nat
  beat : Nat
  cls : Nat
  escalated : Bool
  closed : Bool
  injected : Bool
  cause : Nat
  unitKind : Nat
  slot : Nat
  unit : Nat
  fn : Nat
  queue : Nat
  index : Nat
  addr : Nat
  prevSeq : Nat
  detail : Nat
  deriving DecidableEq, Repr

/-- Per physical slot (cluster * 17 + slot): last pass, due beat, failures per cube and counters (R456, R472). -/
structure SlotData where
  lastPass : Nat
  due : Nat
  plsCube : List (Nat × Nat)
  plsRange : Nat
  plsSum : Nat
  plsSamples : Nat
  /-- Beat + 1 of the first plausibility failure of each cube; 0 none (R453). -/
  firstFail : List (Nat × Nat)
  /-- Beat + 1 of the last hang; 0 none (R459). -/
  lastHang : Nat
  testsRun : Nat
  testsFailed : Nat
  hangs : Nat
  deriving DecidableEq, Repr

/-- A slot after a cold reset: due DEADLINE (600 s) after boot (R468, R472). -/
def SlotData.init : SlotData :=
  { lastPass := 0, due := 600000000, plsCube := [], plsRange := 0, plsSum := 0, plsSamples := 0, firstFail := [], lastHang := 0,
    testsRun := 0, testsFailed := 0, hangs := 0 }

/-- An in-field test running or forced and waiting (R455 to R457). -/
structure FieldTest where
  cluster : Nat
  slot : Nat
  /-- Started by IFT_RUN: the queue and index of the command. -/
  cmd : Option (Nat × Nat)
  forced : Bool
  deriving DecidableEq, Repr

/-- An armed injection (R467). -/
structure Injection where
  kind : Nat
  addr : Nat
  core : Nat
  cube : Nat
  deriving DecidableEq, Repr

/-- Fault state of the device. -/
structure FaultState where
  ring : List ErrRecord
  /-- Beats of the latest records without INJECTED, newest first (R465). -/
  recent : List Nat
  /-- Units with a CE record in the last 3,600,000 beats: unit key and beat (R461). -/
  ceSeen : List (Nat × Nat)
  slots : List (Nat × SlotData)
  /-- Disabled-unit map words (R22). -/
  unitMap : List (Nat × Nat)
  /-- Clusters whose spare has been assigned and is not yet ready (R23). -/
  spareWaking : List Nat
  test : Option FieldTest
  waiting : List FieldTest
  armed : List Injection
  /-- ALERT_N is asserted (R461). -/
  alert : Bool
  deriving DecidableEq, Repr

/-! ### Escapement, clocks, power (chapter 17) -/

/-- Who holds or asks for a booking (R483). -/
inductive Owner where
  | cmd (q i : Nat)
  | pre (q i : Nat)
  | base (core : Nat)
  | wake (core : Nat)
  | pll (cluster : Nat)
  | cache (cluster : Nat)
  | link (link : Nat)
  | test
  | tg (pc : Nat)
  | refresh (stack : Nat)
  | die (die : Nat)
  | fast (die : Nat)
  | store
  | flash
  | hub
  | step (die : Nat)
  | scrub (die : Nat)
  | zeroing (rail : Nat)
  | stack (stack : Nat)
  | sweep (cluster : Nat)
  | linkLogic (link : Nat)
  | log
  deriving DecidableEq, Repr

/-- A granted booking (R475): tickets on a rail from window `start` on, up to window `stop` (exclusive) when it has an end. -/
structure Booking where
  rail : Nat
  amount : Nat
  /-- The nominal amount in 0.01 A / 256, from which a compute rail's is scaled anew at each step of its die (R481, R489). -/
  nominal : Nat
  start : Nat
  stop : Option Nat
  permanent : Bool
  owner : Owner
  deriving DecidableEq, Repr

/-- A waiting request (R476, R478): `windows` for LIMITED, none for HELD and PERMANENT; `earliest` is the first window it may start. -/
structure EscReq where
  rail : Nat
  amount : Nat
  nominal : Nat
  windows : Option Nat
  permanent : Bool
  sys : Bool
  owner : Owner
  earliest : Nat
  since : Nat
  deriving DecidableEq, Repr

/-- The ledger of R474 to R479: bookings, requests waiting in order of arrival, the effective average ceilings that differ from the
defaults (R496), and ESC_CFG in force (R509). -/
structure Escapement where
  bookings : List Booking
  waiting : List EscReq
  avgEff : List (Nat × Nat)
  cfg : Nat
  deriving DecidableEq, Repr

/-- A cluster clock stepped down by a droop (R491): steps below the die's frequency, whether the hold runs, and what the log will show:
deepest droop, most steps applied, log slot, detector, beat and phase of the first detection; `start` and `last` are instants in
picoseconds, of the detection and of the last detection or step. -/
structure DroopState where
  steps : Nat
  holding : Bool
  depth : Nat
  applied : Nat
  slot : Nat
  detector : Nat
  beat : Nat
  ps : Nat
  start : Nat
  last : Nat
  deriving DecidableEq, Repr

/-- A cluster whose clock runs at the die's frequency. -/
def DroopState.init : DroopState :=
  { steps := 0, holding := false, depth := 0, applied := 0, slot := 0, detector := 0, beat := 0, ps := 0, start := 0, last := 0 }

/-- A step of a die in progress (R489): the voltage it moves to, whether the frequency rises after it; `phase`: 0 waits for its current,
1 for the regulator, 2 for the end of a droop (R507). -/
structure RailStep where
  die : Nat
  mv : Nat
  up : Bool
  phase : Nat
  deriving DecidableEq, Repr

/-- A rail-request frame not yet acknowledged (R622). -/
structure RailFrame where
  rail : Nat
  mv : Nat
  since : Nat
  repeats : Nat
  deriving DecidableEq, Repr

/-- The latest POWER message of a neighbour (R502). -/
structure PowerMsg where
  node : Nat
  period : Nat
  crit : Nat
  cap : Nat
  floor : Nat
  ceil : Nat
  power : Nat
  giveTo : Nat
  give : Nat
  deriving DecidableEq, Repr

/-- Clocks, rails, thermal states and power sharing. -/
structure Power where
  /-- By cluster. -/
  droops : List (Nat × DroopState)
  /-- Boundaries passed at the droop events of each die within the last millisecond (R492). -/
  stormBeats : List (Nat × List Nat)
  /-- Voltage steps a die holds above V(f) for storms, and the boundaries passed at the last storm or return (R492). -/
  stormSteps : List (Nat × Nat)
  stormLast : List (Nat × Nat)
  /-- Milliseconds a die has spent in HOT (R498). -/
  hotMs : List (Nat × Nat)
  /-- CRIT steps a die has taken and not reversed (R498). -/
  critSteps : List (Nat × Nat)
  steps : List RailStep
  frames : List RailFrame
  /-- SEQ of the latest frame (R622). -/
  rqSeq : Nat
  /-- Dies that take no further upward step (R622). -/
  noUp : List Nat
  /-- Enables asserted, with the boundaries passed when: 0 RQ_EN_HD_N, 1 to 4 RQ_EN_CD0_N to RQ_EN_CD3_N, 5 RQ_EN_SR_N, 6 RQ_EN_HBM_N,
  7 RQ_EN_LNK_N (R622). -/
  enables : List (Nat × Nat)
  /-- Boundaries passed when a periodic task last ran (R493 to R503): 0 cap, 1 thermal states, 2 sharing, 8 + die decision, 16 + die CRIT. -/
  timers : List (Nat × Nat)
  /-- Instant of the last change of FLOW_OK, in picoseconds (R499). -/
  flowSince : Nat
  /-- Cluster clocks stopped (R499, R500, R505). -/
  clocksOff : Bool
  /-- THERMTRIP_N is asserted (R500). -/
  tripped : Bool
  /-- Processors whose absence beyond 50 ms has been acted on (R505). -/
  fwTimedOut : List Nat
  /-- Neighbours' latest POWER messages, and COL_CRIT_BEATS at the last period (R502, R503). -/
  peers : List PowerMsg
  critLast : Nat
  deriving DecidableEq, Repr
/-! ### Object dictionary, journal (chapter 18), firmware (chapter 20), boot (chapter 22) -/

/-- An OD request outstanding on a transport (R528, R529): transport 0 CAN FD, 1 MCTP over PCIe, 2 MCTP over I3C, 3 mailbox; the
requester's address and transaction tag; the header's fields and the value. `started`: its write has entered the persistence queue. -/
structure OdRequest where
  tr : Nat
  src : Nat
  tid : Nat
  op : Nat
  index : Nat
  sub : Nat
  len : Nat
  value : List Byte
  started : Bool
  deriving DecidableEq, Repr

/-- What follows a batch of Xolyn's own once it is persistent (R582 to R587, R23, R259): nothing, the erase of a download, the handoff of
an activation, the return to the other slot after a REJECT, the wake of a spare (cluster), a bank copy (die, spare). -/
inductive AfterBatch where
  | none
  | erase
  | handoff
  | reject
  | spare (cluster : Nat)
  | bankCopy (die spare : Nat)
  deriving DecidableEq, Repr

/-- A batch of the persistence queue (R529, R538): its entries in order, a value or a TOMBSTONE each; whether it is exempt (R541), the
transport it answers, the staged values it took, and what follows it. -/
structure OdBatch where
  entries : List (Nat × Nat × Option (List Byte))
  exempt : Bool
  answers : Option Nat
  staged : List (Nat × List Byte)
  after : AfterBatch
  deriving DecidableEq, Repr

/-- A segmented CAN FD transfer being received (R532): the request so far, the next sequence number, boundaries passed at its last frame. -/
structure CanIn where
  req : OdRequest
  next : Nat
  since : Nat
  deriving DecidableEq, Repr

/-- A segmented CAN FD transfer being sent (R532): receiver, tag, bytes left, next sequence number, and boundaries passed at its last frame. -/
structure CanOut where
  dst : Nat
  tid : Nat
  left : List Byte
  next : Nat
  since : Nat
  deriving DecidableEq, Repr

/-- The journal engine and the OD's requests (R529 to R547). -/
structure Journal where
  tokens : Nat
  /-- REFUSED, and records written for writes since manufacture (R542). -/
  refused : Nat
  used : Nat
  /-- Active region (0 A, 1 B), its generation and next free slot, the next SEQ (R536, R537). -/
  active : Nat
  gen : Nat
  next : Nat
  seq : Nat
  compacting : Bool
  compactions : Nat
  storeCe : Nat
  /-- Bad slots, numbered region * 262,144 + slot; they are kept in the key store (R538). -/
  bad : List Nat
  recovered : Bool
  /-- Entries, by OD key, that hold a persisted value, with its records; entries that the active region holds a record for (R543, R547). -/
  live : List (Nat × Nat)
  inNew : List Nat
  batches : List OdBatch
  /-- What the store's current has been asked for: 0 nothing, 1 the batch in front, 2 a compaction copy. -/
  busy : Nat
  requests : List OdRequest
  /-- Staged members of commit groups, by OD key (R521). -/
  staged : List (Nat × List Byte)
  canIn : Option CanIn
  canOut : Option CanOut
  /-- MCTP endpoint identifiers by transport (R524). -/
  eids : List (Nat × Nat)
  /-- APPLY_RESULT, by function; 0xFF where nothing is listed (R525). -/
  applied : List (Nat × Nat)
  /-- The mailbox's value buffer (R534). -/
  mbBuf : List (Nat × Byte)
  deriving DecidableEq, Repr

/-- The journal as it leaves the factory: region A, generation 1, nothing written (R547). -/
def Journal.init : Journal :=
  { tokens := 64, refused := 0, used := 0, active := 0, gen := 1, next := 1, seq := 1, compacting := false, compactions := 0, storeCe := 0, bad := [],
    recovered := false, live := [], inNew := [], batches := [], busy := 0, requests := [], staged := [], canIn := none, canOut := none, eids := [], applied := [], mbBuf := [] }

/-- Firmware update beyond the entries of 0x8010 (R577, R582 to R587). -/
structure Firmware where
  /-- The two NOR slots' bytes plus one, by flash offset, where they differ from the factory's (R577). -/
  flash : List (Nat × Nat)
  /-- LENGTH of the download, sectors still to erase, bytes that wait to be programmed and the offset of the next to program; the device
  address from which the security core copies the rest (R583). -/
  length : Nat
  erase : Nat
  buffer : List Byte
  next : Nat
  copyFrom : Option Nat
  /-- Slot of the update in progress, and slot whose image runs. -/
  target : Nat
  running : Nat
  /-- An activation in progress (R585): boundaries passed plus 1 at its start, 0 none; the command boundary has been passed; the processors
  have been reset into the image; it returns to the other slot after a REJECT (R587). -/
  quiesce : Nat
  blob : Bool
  handed : Bool
  back : Bool
  /-- Boundaries passed plus 1 at the start of the trial period, and whether it is still healthy (R587). -/
  trialSince : Nat
  healthy : Bool
  deriving DecidableEq, Repr

/-- Firmware as it leaves the factory: slot A runs. -/
def Firmware.init : Firmware :=
  { flash := [], length := 0, erase := 0, buffer := [], next := 0, copyFrom := none, target := 1, running := 0, quiesce := 0, blob := false,
    handed := false, back := false, trialSince := 0, healthy := true }

/-- Boot, pins and the test access port (R579 to R581, R621 to R629). -/
structure Boot where
  /-- Latest boot step that has ended (R580), and boundaries passed when the 24 s bound started. -/
  step : Nat
  since : Nat
  /-- PWR_GOOD and PERST_N as levels; the straps as sampled at the latest power-good. -/
  pwrGood : Bool
  perst : Bool
  nodeId : Nat
  bootSel : Nat
  recovery : Bool
  /-- Boots of the ACTIVE image that have failed one after the other (R581). -/
  failed : Nat
  /-- PCIe link trains or is up: configuration requests answered. -/
  pcieUp : Bool
  /-- OTP trip counter, the trips held in the lifetime totals (R628). -/
  otp : Nat
  /-- A requested rail has faulted (R625). -/
  railFault : Bool
  /-- TAP controller state and instruction in force, as `Machine/Boot.lean` numbers them, the shift register with its length, and the
  boundary register's output latch (R629). -/
  tap : Nat
  ir : Nat
  shift : Nat
  shiftLen : Nat
  cells : Nat
  deriving DecidableEq, Repr

/-- Right after a cold reset: power good, PERST_N high, step 1 passed (DEDUCED, log 6). -/
def Boot.init : Boot :=
  { step := 1, since := 0, pwrGood := true, perst := true, nodeId := 0, bootSel := 0, recovery := false, failed := 0, pcieUp := false,
    otp := 0, railFault := false, tap := 0, ir := 1, shift := 0, shiftLen := 0, cells := 0 }

/-! ### Telemetry and the service log (chapter 19), interrupts (chapter 21) -/

/-- An event waiting for the service log: kind, beat, and its data as (value, bytes) fields (R563, R564). -/
structure SlogEvent where
  kind : Nat
  beat : Nat
  data : List (Nat × Nat)
  deriving DecidableEq, Repr

/-- Telemetry, margin sweeps, the service log and the always-on totals (R549 to R569). -/
structure Tel where
  /-- Clusters being swept and the boundaries passed at the start; the boundaries passed plus 1 at a cluster's latest sweep (R557). -/
  sweeps : List (Nat × Nat)
  lastSweep : List (Nat × Nat)
  /-- Window currents of the present millisecond summed, per rail in 0.1 A (R554). -/
  railSum : List (Nat × Nat)
  /-- A MAXCLR waits for the next boundary (R571); TEL_EVSEL writes that wait for it, by cluster * 16 + counter (R552). -/
  maxClr : Bool
  evPend : List Nat
  /-- Trace flushes that wait for an absent cluster control core, by cluster (R576). -/
  flushWait : List Nat
  /-- Snapshots captured at a boundary for REPORT commands: queue, index, record (R553). -/
  captures : List (Nat × Nat × List Byte)
  /-- The current of the next service-log write has been asked for (R562). -/
  logAsked : Bool
  /-- Event records of the present power-on hour: kind, first DATA field, count (R564). -/
  supp : List (Nat × Nat × Nat)
  eseq : Nat
  dseq : Nat
  tseq : Nat
  /-- Cold resets since manufacture (R563). -/
  boots : Nat
  /-- Beat boundaries since the hour of the next digest began, and whether the module has been below 45 degrees since the last cycle (R558). -/
  hourBeats : Nat
  wasCool : Bool
  /-- Beacons sent; the hub's values for the next one, and the boundaries passed plus 1 when they were refreshed (R569). -/
  bseq : Nat
  beacon : List Byte
  beaconAt : Nat
  /-- Always-on tallies, and as they stood at the start of the hour (R566, R567); `cleared` holds what clears have removed from each
  counter, `hourCtr` each counter's lifetime count at the start of the hour (R565). -/
  acc : List (Nat × Nat)
  accHour : List (Nat × Nat)
  cleared : List (Nat × Nat)
  hourCtr : List (Nat × Nat)
  /-- Highest and lowest values of the hour: power, TJ of dies and hub, HBM, FLAGS, VMARGIN and slack per die (R565). -/
  pPeak : Nat
  tjPeak : List (Nat × Nat)
  hbmPeak : Nat
  flags : Nat
  vMin : List (Nat × Nat)
  sMin : List (Nat × Int)
  /-- The persistent store's bytes, by offset (R536, R562). -/
  store : List (Nat × Byte)
  deriving DecidableEq, Repr

/-- As it leaves the factory, in its first boot: nothing logged. -/
def Tel.init : Tel :=
  { sweeps := [], lastSweep := [], railSum := [], maxClr := false, evPend := [], flushWait := [], captures := [], logAsked := false, supp := [], eseq := 0, dseq := 0, tseq := 0, boots := 1, hourBeats := 0,
    wasCool := false, bseq := 0, beacon := [], beaconAt := 0, acc := [], accHour := [], cleared := [], hourCtr := [], pPeak := 0,
    tjPeak := [], hbmPeak := 0, flags := 0, vMin := [], sMin := [], store := [] }

/-- A trace buffer (R559 to R561): its records in order, records lost, and the STOP count. -/
structure TraceBuf where
  recs : List (List Byte)
  lost : Nat
  /-- Records since START (R559). -/
  sinceStart : Nat
  /-- Records written since cold reset (TR_WR). -/
  written : Nat
  /-- Records copied by flushes, and the count of records up to which the copies reach (R561). -/
  flushed : Nat
  upto : Nat
  deriving DecidableEq, Repr

/-- An MSI-X vector (R607, R608): the table entry, its pending bit, and the moderation state. -/
structure MsixVec where
  addr : Nat
  data : Nat
  masked : Bool
  pend : Bool
  causes : Nat
  firstBeat : Nat
  deriving DecidableEq, Repr

/-- A vector as PCIe resets it: masked, nothing pending. -/
def MsixVec.init : MsixVec := { addr := 0, data := 0, masked := true, pend := false, causes := 0, firstBeat := 0 }

/-- PCIe state of a function (R594 to R601, R610). -/
structure FnPcie where
  busMaster : Bool
  msixEnable : Bool
  msixMaskAll : Bool
  /-- On the PF: log2 of its BAR2 size and of every VF's (R601), the max payload size in bytes and the completion timeout in beats of the
  host's requests (R594). -/
  bar2Log : Nat
  vfBar2Log : Nat
  maxPayload : Nat
  cplTimeout : Nat
  deriving DecidableEq, Repr

/-- A function after reset; BAR2 takes its default sizes, 64 GiB for the PF and 4 GiB for a VF (R601); the completion timeout its default of
50 ms (R594); the max payload size the least, 128 bytes (DESIGN CHOICE, log 32). -/
def FnPcie.init : FnPcie :=
  { busMaster := false, msixEnable := false, msixMaskAll := false, bar2Log := 36, vfBar2Log := 32, maxPayload := 128, cplTimeout := 50000 }

/-! ### The machine -/

/-- The state of the machine. -/
structure State where
  /-- Commands waiting, first in, first out. -/
  pending : List Instr
  /-- The model's own counter of free values drawn (DESIGN CHOICE, log 8). -/
  free : Nat
  /-- What the device has sent outward, oldest first (DESIGN CHOICE, log 10). -/
  outbox : List Out
  /-- BAR0 registers, by key (`Machine/RegMap.lean`). -/
  regs : List (Nat × W64)
  /-- Bytes of the two tiers and the scratchpads, by device address (R252). -/
  mem : List Host.Cell
  /-- Seal of each 2 KiB block (by block address), as stored seal xor CRC-32C of the contents (R444, DESIGN CHOICE, log 4). -/
  seals : List (Nat × W32)
  /-- BEAT and PS (R412). -/
  beat : Nat
  ps : Nat
  /-- Beat boundaries passed since the cold reset: what a duration stated in beats counts (R414). Stored instants named `since` or the
  like are values of this count; stored beats are values of BEAT. -/
  ticks : Nat
  tiers : MemTiers
  coh : Coherence
  cores : List (Nat × Core)
  queues : List (Nat × Queue)
  flights : List Flight
  sorter : Sorter
  sems : List (Nat × W64)
  deadLetters : List (Nat × DeadLetters)
  domains : List (Nat × StepDomain)
  faults : FaultState
  /-- Service-log events waiting (R564). -/
  slogQ : List SlogEvent
  traces : List (Nat × TraceBuf)
  /-- MSI-X vectors, keyed function * 2048 + vector (R607). -/
  msix : List (Nat × MsixVec)
  pcie : List (Nat × FnPcie)
  /-- VF Enable and NumVFs (R596). -/
  vfEnable : Bool
  numVfs : Nat
  /-- CTR_CLEAR writes waiting for the next beat boundary (R549): block and instance. -/
  ctrClears : List (Blk × Nat)
  /-- Counter halves latched by a low read: function * 2^33 + key, and the upper half (R550). -/
  lowLatch : List (Nat × Nat)
  fabric : Fabric
  col : ColEngine
  beatLogic : BeatLogic
  esc : Escapement
  power : Power
  /-- Object dictionary values in force that differ from their defaults, keyed index * 256 + subindex (R515, R517). -/
  od : List (Nat × List Byte)
  /-- Firmware processors absent, with the beat since which: 0 to 2 the hub's, 3 + k cluster control core k (R505, R576). -/
  absent : List (Nat × Nat)
  jrn : Journal
  fw : Firmware
  boot : Boot
  /-- TEL_EVSEL selections in force, keyed cluster * 16 + counter; the registers hold the latest write (R552). -/
  evsel : List (Nat × Nat)
  tel : Tel
  /-- BAR0 and BAR2 answer: boot step 8 has been reached since the last reset (R625). -/
  barOpen : Bool
  /-- Clusters that HUB_CLRST is resetting, as a mask, and the boundaries passed at its write (R600). -/
  clrst : Nat
  clrstAt : Nat
  deriving DecidableEq, Repr

/-- The machine right after a cold reset, no boot step taken yet (R8, R256, R321, R333; DEDUCED, log 6): every register at its Cold reset
value, memory zero with void seals, function 0 owning everything, nothing running. -/
def State.reset : State :=
  { pending := [], free := 0, outbox := [], regs := [], mem := [], seals := [], beat := 0, ps := 0, ticks := 0,
    tiers := {
      keyFixed := none, keyDraw := 0, granOwner := [], parts := [], partSets := [], partAction := none, granAction := none,
      bankMap := [], copies := [], bankCe := [], bankUe := [], badWords := [], hotRun := [], coolRun := [], openHot := [],
      tgStop := [], pcFails := [] },
    coh := { lines := [], dir := [], net := [], rrPtr := [], timedOut := [], stamp := 0 },
    cores := [], queues := [], flights := [], sorter := { ptrs := [], deficits := [], lastGrant := none }, sems := [],
    deadLetters := [], domains := [],
    faults := {
      ring := [], recent := [], ceSeen := [], slots := [], unitMap := [], spareWaking := [], test := none, waiting := [],
      armed := [], alert := false },
    slogQ := [], traces := [], msix := [], pcie := [], vfEnable := false, numVfs := 0, ctrClears := [], lowLatch := [],
    fabric := Fabric.init, col := { running := [], early := [], done := [], txRest := 0, rxRest := 0 }, beatLogic := BeatLogic.init,
    esc := { bookings := [], waiting := [], avgEff := [], cfg := 0x0000081000000006 },
    power := {
      droops := [], stormBeats := [], stormSteps := [], stormLast := [], hotMs := [], critSteps := [], steps := [], frames := [],
      rqSeq := 31, noUp := [], enables := [], timers := [], flowSince := 0, clocksOff := false, tripped := false, fwTimedOut := [],
      peers := [], critLast := 0 },
    od := [], absent := [],
    jrn := Journal.init, fw := Firmware.init, boot := Boot.init,
    evsel := [], tel := Tel.init,
    barOpen := false, clrst := 0, clrstAt := 0
  }

end Sys2Proof.Machine
end

