-- ==== Sys2Proof/Machine/Ops.lean ====
section
/-!
DEFINITION. The named operations every family uses: registers and counters, interrupts, service-log events, the address map and its
ownership checks, memory bytes and their seals, semaphores, error records.
-/

namespace Sys2Proof.Machine

/-! ### Registers (R7 to R9) and counters (R86, R549) -/

/-- The value of the register with key `k`. -/
def State.reg (s : State) (k : Nat) : Nat := (smapGet regCold s.regs k).toNat

/-- The register with key `k` set to `v` as a whole. -/
def State.setReg (s : State) (k v : Nat) : State := { s with regs := smapPut regCold s.regs k (BitVec.ofNat 64 v) }

/-- Field [hi:lo] of a register. -/
def State.fld (s : State) (k hi lo : Nat) : Nat := bitsOf (s.reg k) hi lo

/-- Field [hi:lo] of a register set to `v`. -/
def State.setFld (s : State) (k hi lo v : Nat) : State := s.setReg k (setBits (s.reg k) hi lo v)

/-- A counter value with `n` events added: COUNT continues from the remainder past 2^48 - 1 and WRAP is set (R549). -/
def counterAdd (v n : Nat) : Nat :=
  let c := v % counterMod + n
  let w := bitOf v 63 || decide (counterMod ≤ c)
  b2n w * 2 ^ 63 + c % counterMod

/-- The core whose block holds counter `k` of a cluster window, for PHASE_EN (R552): the CUB_, CVT_, RNG_, MEM_ and PMC_ blocks. -/
def phaseCore (k : Nat) : Option Nat :=
  let o := (k - 0x400000) % 0x20000
  let c := (k - 0x400000) / 0x20000 * 16
  if 0x4000 ≤ o ∧ o < 0x8000 then some (c + o % 0x1000 / 0x100) else if 0x8000 ≤ o ∧ o < 0x8800 then some (c + o % 0x1000 / 0x80) else none

/-- Whether an event of counter `k` counts under a selection with PHASE_EN: the core executes a command of that tag (R552). -/
def State.phaseOk (s : State) (k sel : Nat) : Bool :=
  match phaseCore k with
  | none => true
  | some c => !bitOf sel 62
      || s.flights.any (fun f => f.core == c && !f.ended && byteAt f.bytes 2 == bitsOf sel 55 48)

/-- The programmable counters of a cluster that count the events of counter `k` (R552). -/
def State.evMatches (s : State) (k : Nat) : List Nat :=
  (s.evsel.filter (fun e => decide (0x400000 ≤ k) && decide (e.1 / 16 = (k - 0x400000) / 0x20000)
    && decide (bitsOf e.2 16 3 * 8 = (k - 0x400000) % 0x20000) && s.phaseOk k e.2)).map Prod.fst

/-- Counter `k` counts `n` events, and so does each programmable counter that selects it (R549, R552). -/
def State.count (s : State) (k : Nat) (n : Nat := 1) : State :=
  (s.evMatches k).foldl (fun t e => t.setReg (A.EVCNT (e / 16) (e % 16)) (counterAdd (t.reg (A.EVCNT (e / 16) (e % 16))) n))
    (s.setReg k (counterAdd (s.reg k) n))

/-- What counter `k` has counted over the module's life: what clears removed, and its COUNT (R565). -/
def State.total (s : State) (k : Nat) : Nat := smapGet (fun _ => 0) s.tel.cleared k + s.reg k % counterMod

/-- Always-on tally `k` grows by n (R566). -/
def State.tally (s : State) (k : Nat) (n : Nat := 1) : State :=
  { s with tel := { s.tel with acc := smapPut (fun _ => 0) s.tel.acc k (smapGet (fun _ => 0) s.tel.acc k + n) } }

/-- A value that reads as `d` when it is 0. -/
def zeroAs (d v : Nat) : Nat := if v = 0 then d else v

/-! ### Free values -/

/-- The next free value's number, and the state with the counter advanced. -/
def State.draw (s : State) : Nat × State := (s.free, { s with free := s.free + 1 })

/-- A cycle counter moves by a number of cycles that the model does not count: a free value (DESIGN CHOICE, log 8). -/
def State.countCycles (s : State) (k : Nat) : State :=
  let (n, s1) := s.draw
  s1.count k ((Config.freeWord n).toNat % 2 ^ 32)

/-! ### Outbox -/

/-- `o` is sent outward. -/
def State.send (s : State) (o : Out) : State := { s with outbox := s.outbox ++ [o] }

/-! ### Object dictionary values (R515) -/

/-- Key of an entry in the table of values. -/
def odKey (index sub : Nat) : Nat := index * 256 + sub

/-- The value in force of a numeric entry; `d` is its default. -/
def State.odNat (s : State) (index sub d : Nat) : Nat :=
  let v := smapGet (fun _ => ([] : List Byte)) s.od (odKey index sub)
  if v.isEmpty then d else leNat v

/-! ### Cores, queues, domains as tables -/

def State.core (s : State) (c : Nat) : Core := smapGet (fun _ => Core.init) s.cores c
def State.setCore (s : State) (c : Nat) (v : Core) : State := { s with cores := smapPut (fun _ => Core.init) s.cores c v }
def State.modCore (s : State) (c : Nat) (f : Core → Core) : State := s.setCore c (f (s.core c))
def State.queue (s : State) (q : Nat) : Queue := smapGet (fun _ => Queue.init) s.queues q
def State.setQueue (s : State) (q : Nat) (v : Queue) : State := { s with queues := smapPut (fun _ => Queue.init) s.queues q v }
def State.modQueue (s : State) (q : Nat) (f : Queue → Queue) : State := s.setQueue q (f (s.queue q))
def State.domain (s : State) (f : Nat) : StepDomain := smapGet (fun _ => StepDomain.init) s.domains f
def State.setDomain (s : State) (f : Nat) (v : StepDomain) : State :=
  { s with domains := smapPut (fun _ => StepDomain.init) s.domains f v }
def State.modDomain (s : State) (f : Nat) (g : StepDomain → StepDomain) : State := s.setDomain f (g (s.domain f))

/-! ### Functions (R319, R334, R596) -/

/-- QBASE, QCOUNT, SEM_BASE, SEM_COUNT, PKEY of function f (R334). -/
def State.qbase (s : State) (f : Nat) : Nat := s.fld (A.TENANT f 0) 49 32
def State.qcount (s : State) (f : Nat) : Nat := s.fld (A.TENANT f 0) 18 0
def State.semBase (s : State) (f : Nat) : Nat := s.fld (A.TENANT f 8) 19 0
def State.semCount (s : State) (f : Nat) : Nat := s.fld (A.TENANT f 8) 52 32
def State.pkey (s : State) (f : Nat) : Nat := s.fld (A.TENANT f 0x10) 63 48
def State.fnEnabled (s : State) (f : Nat) : Bool := s.fld (A.TENANT f 0) 63 63 == 1

/-- f owns queue q (R319). -/
def State.ownsQueue (s : State) (f q : Nat) : Bool := decide (s.qbase f ≤ q) && decide (q < s.qbase f + s.qcount f)

/-- f owns semaphore n (R309). -/
def State.ownsSem (s : State) (f n : Nat) : Bool := decide (s.semBase f ≤ n) && decide (n < s.semBase f + s.semCount f)

/-- f owns logical core c (R319, R334). -/
def State.ownsCore (s : State) (f c : Nat) : Bool := bitOf (s.reg (A.TENANT f (0x40 + 8 * (c / 64)))) (c % 64)

/-- The function a queue belongs to: the enabled function whose range holds it, else the lowest whose range holds it. -/
def State.fnOfQueue (s : State) (q : Nat) : Nat :=
  match (List.range 512).find? (fun f => s.fnEnabled f && s.ownsQueue f q) with
  | some f => f
  | none => ((List.range 512).find? (fun f => s.ownsQueue f q)).getD 0

/-- The function that owns a logical core, when one does. -/
def State.fnOfCore (s : State) (c : Nat) : Option Nat :=
  match (List.range 512).find? (fun f => decide (0 < f) && s.fnEnabled f && s.ownsCore f c) with
  | some f => some f
  | none => if s.ownsCore 0 c then some 0 else none

/-! ### Disabled-unit map (R19, R20, R22) -/

/-- Map word of cluster k. -/
def State.mapWord (s : State) (k : Nat) : Nat := smapGet (fun _ => 0) s.faults.unitMap k

/-- Logical core c is unavailable (R22). -/
def State.unavailable (s : State) (c : Nat) : Bool :=
  let w := s.mapWord (c / 16)
  bitOf w (c % 16) && (!bitOf w 19 || bitsOf w 23 20 != c % 16 || bitOf w 16)

/-- The physical slot that serves logical core c: its home slot, or slot 16 when the map says so (R19). -/
def State.slotOf (s : State) (c : Nat) : Nat :=
  let w := s.mapWord (c / 16)
  if bitOf w (c % 16) && bitOf w 19 && bitsOf w 23 20 == c % 16 then 16 else c % 16

/-! ### Address map (R252 to R255, R604) -/

/-- Start of the fast tier, of the scratchpads and of the generation aperture. -/
def fastBase : Nat := 0x10000000000
def scratchBase : Nat := 0x11000000000
def apertureBase : Nat := 0x10000000000000
def capEnd : Nat := 0xC000000000
def fastEnd : Nat := 0x10800000000
def scratchEnd : Nat := 0x11080000000
def apertureEnd : Nat := 0x18000000000000
/-- Offset of a die's system region in its fast tier (R255). -/
def sysOff : Nat := 0x1FF000000
/-- Bytes of fast tier per die. -/
def dieFast : Nat := 0x200000000

/-- The ranges of R252, with the host form of R604. -/
inductive Region where
  | capacity
  | fast (die off : Nat)
  | scratch (core off : Nat)
  | aperture (fn : Nat)
  | remote (node loc : Nat)
  | host (bus : Nat)
  | outside
  deriving DecidableEq, Repr

/-- The range an address lies in. -/
def regionOf (a : Nat) : Region :=
  if a < capEnd then .capacity
  else if fastBase ≤ a ∧ a < fastEnd then .fast ((a - fastBase) / dieFast) ((a - fastBase) % dieFast)
  else if scratchBase ≤ a ∧ a < scratchEnd then .scratch ((a - scratchBase) / 0x400000) ((a - scratchBase) % 0x400000)
  else if apertureBase ≤ a ∧ a < apertureEnd then .aperture ((a - apertureBase) / 0x40000000000)
  else if bitsOf a 63 60 = 8 ∧ a < 2 ^ 64 then .remote (bitsOf a 59 48) (bitsOf a 47 0)
  else if bitsOf a 63 60 = 9 ∧ a < 2 ^ 64 then .host (bitsOf a 59 0)
  else .outside

/-- Scratchpad address of byte `o` of logical core c. -/
def scratchAddr (c o : Nat) : Nat := scratchBase + c * 0x400000 + o

/-- Device address of byte `o` of die k's system region. -/
def sysAddr (k o : Nat) : Nat := fastBase + k * dieFast + sysOff + o

/-- Device address of semaphore n (R255, R313). -/
def semAddr (n : Nat) : Nat := sysAddr (n / 262144) (0x400000 + (n % 262144) * 8)

/-- Key of the granule that holds a tier address in the owner table (R254): tier * 2^20 + granule number. -/
def granuleKey (a : Nat) : Nat :=
  match regionOf a with
  | .fast die off => 2 ^ 20 + die * 4088 + off / 0x200000
  | _ => a / 0x200000

/-- Owner of the granule that holds a tier address; function 0 owns every granule after a cold reset (R321). -/
def State.granOwner (s : State) (a : Nat) : Nat := smapGet (fun _ => 0) s.tiers.granOwner (granuleKey a)

/-- The installed part of function f on die k (R260). -/
def State.part (s : State) (f k : Nat) : CachePart := smapGet (fun _ => CachePart.init) s.tiers.parts (4 * f + k)

/-- A fast-tier granule of die k lies in an enabled cache part (R260). -/
def State.inPart (s : State) (die off : Nat) : Bool :=
  s.tiers.parts.any (fun kp => kp.2.enable && kp.1 % 4 == die
    && decide (kp.2.first ≤ off / 0x200000) && decide (off / 0x200000 < kp.2.first + kp.2.count))

/-- The offset at which the prefetch buffer of a core starts (R230, R233). -/
def State.pfStart (s : State) (c : Nat) : Nat := 0x400000 - 512 * (s.core c).pfBlocks

/-- Ownership check of R252, R254, R255, R260 and R230 for a local, untranslated address: none when function f may access it,
else the status of R314 (PERMISSION 7, or FAULT_LOST 3 for the scratchpad of an unavailable core). -/
def State.denied (s : State) (f a : Nat) : Option Nat :=
  match regionOf a with
  | .capacity => if s.granOwner a = f then none else some 7
  | .fast die off =>
    if sysOff ≤ off then some 7
    else if s.granOwner a = f ∧ !s.inPart die off then none else some 7
  | .scratch c off =>
    if s.unavailable c then some 3
    else if s.ownsCore f c ∧ off < s.pfStart c then none else some 7
  | _ => some 7

/-! ### Memory bytes -/

/-- One stored byte of a tier or scratchpad: 0 where nothing is listed (R256). -/
def State.byte (s : State) (a : Nat) : Byte := smapGet (fun _ => (0 : Byte)) s.mem a

/-- One stored byte replaced. -/
def State.putByte (s : State) (a : Nat) (b : Byte) : State := { s with mem := smapPut (fun _ => (0 : Byte)) s.mem a b }

/-- `n` stored bytes from address `a`. -/
def State.bytes (s : State) (a n : Nat) : List Byte := (List.range n).map (fun i => s.byte (a + i))

/-- A byte list stored from address `a` on. -/
def putBytesMem (m : List Host.Cell) : Nat → List Byte → List Host.Cell
  | _, [] => m
  | a, b :: bs => putBytesMem (smapPut (fun _ => (0 : Byte)) m a b) (a + 1) bs

/-- A byte list stored from address `a` on: the bytes alone, no seal. -/
def State.putBytes (s : State) (a : Nat) (bs : List Byte) : State := { s with mem := putBytesMem s.mem a bs }

/-- The memory lists addresses strictly rising and no byte 0. -/
abbrev Memory.wf (m : List Host.Cell) : Prop := smapWf (fun _ => (0 : Byte)) m = true

/-! ### Seals (R442 to R445) -/

/-- Block address of a byte. -/
def blockOf (a : Nat) : Nat := a / 2048 * 2048

/-- The stored seal of block `b` xor the CRC of its contents: 0 valid, all ones void, else mismatched (R444). Every block is void
after a cold reset (R256). -/
def State.syndrome (s : State) (b : Nat) : W32 := smapGet (fun _ => 0xFFFFFFFF#32) s.seals b

/-- The syndrome of block `b` set. -/
def State.setSyndrome (s : State) (b : Nat) (x : W32) : State :=
  { s with seals := smapPut (fun _ => 0xFFFFFFFF#32) s.seals b x }

/-- States of a block (R444). -/
inductive SealState where
  | valid | void | mismatched
  deriving DecidableEq, Repr

/-- The state of block `b`. -/
def State.sealState (s : State) (b : Nat) : SealState :=
  if s.syndrome b = 0 then .valid else if s.syndrome b = 0xFFFFFFFF#32 then .void else .mismatched

/-- The stored seal itself (R442, R444). -/
def State.storedSeal (s : State) (b : Nat) : W32 := crc32c (s.bytes b 2048) ^^^ s.syndrome b

/-- Block addresses of the range [a, a + n). -/
def blocksOf (a n : Nat) : List Nat :=
  if n = 0 then [] else (List.range ((a + n - 1) / 2048 - a / 2048 + 1)).map (fun i => (a / 2048 + i) * 2048)

/-- Block `b` takes the void seal, counted in SEAL_VOID_SET (R469). -/
def State.voidBlock (s : State) (b : Nat) : State := (s.setSyndrome b 0xFFFFFFFF#32).count (A.SEAL 0x28)

/-- Every block of a list takes the void seal. -/
def State.voidBlocks (s : State) (bs : List Nat) : State := bs.foldl State.voidBlock s

/-- A plain write (R445): the bytes are stored and every block touched becomes valid, counted in SEAL_PLAIN. -/
def State.plainWrite (s : State) (a : Nat) (bs : List Byte) : State :=
  (blocksOf a bs.length).foldl (fun t b => (t.setSyndrome b 0).count (A.SEAL 0x30)) (s.putBytes a bs)

/-- A sealing write by hardware of `bs` at `a` (R445): a block written whole becomes valid, one written in part keeps its state,
counted in SEAL_DELTA. -/
def State.sealWrite (s : State) (a : Nat) (bs : List Byte) : State :=
  (blocksOf a bs.length).foldl (fun t b =>
    if a ≤ b ∧ b + 2048 ≤ a + bs.length then t.setSyndrome b 0 else t.count (A.SEAL 0x38)) (s.putBytes a bs)

/-! ### Coherent view of memory (R282, R294) -/

/-- Cluster lines hold this address: capacity tier and owned fast tier only (R282). -/
def cacheable (a : Nat) : Bool :=
  match regionOf a with
  | .capacity => true
  | .fast _ off => decide (off < sysOff)
  | _ => false

/-- Line of cluster k with line address `l`. -/
def State.cline (s : State) (k l : Nat) : CLine := smapGet (fun _ => CLine.init) s.coh.lines (l * 32 + k)

/-- Line of cluster k set. -/
def State.setCLine (s : State) (k l : Nat) (v : CLine) : State :=
  { s with coh := { s.coh with lines := smapPut (fun _ => CLine.init) s.coh.lines (l * 32 + k) v } }

/-- Bytes as a non-caching reader sees them (R294): the coherent value, which memory holds (DESIGN CHOICE, log 23). -/
def State.ncBytes (s : State) (a n : Nat) : List Byte := s.bytes a n

/-- The prefetch-buffer blocks of cluster k's cores that hold a byte of line `l` are dropped by an invalidation (R233, R235). -/
def State.invalPf (s : State) (k l : Nat) : State :=
  s.cores.foldl (fun t kv =>
    let hit (b : PfBlock) : Bool := decide (b.addr < l * 128 + 128) && decide (l * 128 < b.addr + 512)
    if kv.1 / 16 ≠ k ∨ !kv.2.pfBuf.any hit then t
    else (t.modCore kv.1 (fun x => { x with pfBuf := x.pfBuf.filter (fun b => !hit b) })).count (A.LSU kv.1 0x60)
      (kv.2.pfBuf.filter (fun b => hit b && !b.used)).length) s

/-- The block of line `l` after a writeback of a dirty line: a plain write, the block becomes valid (R445). -/
def State.writebackLine (s : State) (l : Nat) : State := (s.setSyndrome (blockOf (l * 128)) 0).count (A.SEAL 0x30)

/-- Cluster k's stable copy of line `l` leaves, a modified one after its writeback (R294). -/
def State.purgeCopy (s : State) (l k : Nat) : State :=
  match (s.cline k l).st with
  | .S | .E => (s.setCLine k l CLine.init).invalPf k l
  | .M => ((s.setCLine k l CLine.init).invalPf k l).writebackLine l
  | _ => s

/-- Line `l` is between states: a transaction is open at its home, or a cluster waits for a grant. -/
def State.lineMoving (s : State) (l : Nat) : Bool :=
  (smapGet (fun _ => DirEntry.init) s.coh.dir l).txn.isSome
    || (List.range 32).any (fun k => match (s.cline k l).st with | .IS | .IM | .SM => true | _ => false)

/-- The copies of line `l` leave the cluster caches at a write by a non-caching agent, and the directory entry with them (R294). While
the line moves, its copies stay: they hold the coherent value in any case (DESIGN CHOICE, log 5, log 23). -/
def State.purgeLine (s : State) (l : Nat) : State :=
  if s.lineMoving l then s
  else
    let s1 := (List.range 32).foldl (fun t k => t.purgeCopy l k) s
    { s1 with coh := { s1.coh with dir := smapDrop (fun key => key == l) s1.coh.dir } }

/-- Every line whose address satisfies `p` is purged. -/
def State.purgeWhere (s : State) (p : Nat → Bool) : State :=
  ((s.coh.lines.map (fun (e : Nat × CLine) => e.1 / 32) ++ s.coh.dir.map Prod.fst).eraseDups.filter (fun (l : Nat) => p (l * 128))).foldl State.purgeLine s

/-- The lines of a range are purged. Nothing is done where no cache holds a line. -/
def State.purgeRange (s : State) (a n : Nat) : State :=
  if s.coh.lines.isEmpty && s.coh.dir.isEmpty then s
  else if n = 0 then s
  else ((List.range ((a + n - 1) / 128 - a / 128 + 1)).map (· + a / 128)).foldl
    (fun t l => if cacheable (l * 128) then t.purgeLine l else t) s

/-! ### Service log and interrupts (R563, R564, R608) -/

/-- An event is raised for the service log; it is lost and counted when 256 wait (R564). -/
def State.event (s : State) (kind : Nat) (data : List (Nat × Nat)) : State :=
  if s.slogQ.length < 256 then
    ({ s with slogQ := s.slogQ ++ [{ kind := kind, beat := s.beat, data := data }] } : State).setFld A.TEL_SLOG 31 23
      (s.slogQ.length + 1)
  else (s.count (A.TEL 0x40)).tally 5

def State.msixVec (s : State) (f v : Nat) : MsixVec := smapGet (fun _ => MsixVec.init) s.msix (f * 2048 + v)
def State.setMsix (s : State) (f v : Nat) (m : MsixVec) : State :=
  { s with msix := smapPut (fun _ => MsixVec.init) s.msix (f * 2048 + v) m }
def State.fnPcie (s : State) (f : Nat) : FnPcie := smapGet (fun _ => FnPcie.init) s.pcie f
def State.setPcie (s : State) (f : Nat) (p : FnPcie) : State := { s with pcie := smapPut (fun _ => FnPcie.init) s.pcie f p }

/-- Vectors of a function (R594). -/
def vectorCount (f : Nat) : Nat := if f = 0 then 2048 else 64

/-- Function f exists on PCIe: the PF, or a VF that VF Enable and NumVFs cover (R596). -/
def State.fnPresent (s : State) (f : Nat) : Bool := f == 0 || (s.vfEnable && decide (f ≤ s.numVfs))

/-- Messages of vector v of f go out: enabled, not masked, bus master, no reset of the function (R608, R610). -/
def State.vectorOpen (s : State) (f v : Nat) : Bool :=
  let p := s.fnPcie f
  p.busMaster && p.msixEnable && !p.msixMaskAll && s.fnPresent f && !(s.msixVec f v).masked

/-- The message of vector v is sent and its pending count cleared (R608). -/
def State.sendVector (s : State) (f v : Nat) : State :=
  let m := s.msixVec f v
  (s.setMsix f v { m with causes := 0, firstBeat := 0, pend := false }).send (.msix f v m.addr m.data)

/-- A cause arrives at vector v of function f (R608): with moderation, or pending while the vector is masked. For a
function that does not exist it is discarded (R596). -/
def State.raiseVector (s : State) (f v : Nat) : State :=
  if vectorCount f ≤ v then s
  else if !s.fnPresent f then s
  else
    let m := s.msixVec f v
    let m1 := { m with causes := m.causes + 1, firstBeat := if m.causes = 0 then s.ticks else m.firstBeat }
    let s1 := s.setMsix f v m1
    if s.vectorOpen f v then
      if zeroAs 1 (s.fld (A.MSIX_MOD f v) 15 0) ≤ m1.causes then s1.sendVector f v else s1
    else s1.setMsix f v { m1 with pend := true }

/-! ### Semaphores (R309) -/

def State.sem (s : State) (n : Nat) : Nat := if n = 0 then 0 else (smapGet (fun _ => (0 : W64)) s.sems n).toNat

/-- Semaphore n set; the null semaphore ignores writes. -/
def State.setSem (s : State) (n v : Nat) : State :=
  if n = 0 then s else { s with sems := smapPut (fun _ => (0 : W64)) s.sems n (BitVec.ofNat 64 v) }

/-- Atomic add modulo 2^64. -/
def State.addSem (s : State) (n v : Nat) : State := s.setSem n (s.sem n + v)

/-! ### Flights -/

/-- The command in flight of queue q with index i. -/
def State.flight? (s : State) (q i : Nat) : Option Flight := s.flights.find? (fun f => f.queue == q && f.index == i)

/-- One command in flight changed. -/
def State.modFlight (s : State) (q i : Nat) (g : Flight → Flight) : State :=
  { s with flights := s.flights.map (fun f => if f.queue == q && f.index == i then g f else f) }

/-- The command in flight ends with a status and a DETAIL, unless it has ended already. -/
def State.endFlight (s : State) (q i status detail : Nat) : State :=
  s.modFlight q i (fun f => if f.ended then f else { f with ended := true, status := status, detail := detail })

/-- Opcode of a collective (R386). -/
def isCol (op : Nat) : Bool := decide (0x60 ≤ op) && decide (op ≤ 0x66)

/-- DETAIL of a collective (R404). -/
def colDetail (algo cause wait rank : Nat) : Nat := algo * 2 ^ 60 + cause * 2 ^ 56 + (wait % 2 ^ 32) * 2 ^ 16 + rank % 65536

/-- DETAIL of a command that something else than its engine ends: a collective's has R404's fields in every status (R313). -/
def State.endDetail (s : State) (f : Flight) (detail : Nat) : Nat :=
  if !isCol (byteAt f.bytes 0) then detail
  else match s.col.running.find? (fun c => c.queue == f.queue && c.index == f.index) with
    | some c => colDetail c.algo 0 (c.aMax - c.arrival) c.aRank
    | none => 0

/-- Commands in flight that satisfy `p` and have not ended take a status: the record part of `endFlights`. -/
def State.markEnded (s : State) (p : Flight → Bool) (status detail : Nat) : State :=
  { s with flights := s.flights.map (fun f =>
      if p f && !f.ended then { f with ended := true, status := status, detail := s.endDetail f detail } else f) }

/-- Every command in flight that satisfies `p` and has not ended ends with a status other than OK; its written blocks take the
void seal (R314). -/
def State.endFlights (s : State) (p : Flight → Bool) (status detail : Nat) : State :=
  ((s.flights.filter (fun f => p f && !f.ended)).foldl (fun t f => t.voidBlocks f.blocks) s).markEnded p status detail

/-! ### Error records (R461 to R465) -/

/-- Class names of R463. -/
def clsCE : Nat := 0
def clsUCC : Nat := 1
def clsUCT : Nat := 2
def clsFATAL : Nat := 3

/-- A record to be written, before SEQ, escalation and closing are known. -/
structure ErrNote where
  cls : Nat
  cause : Nat
  unitKind : Nat
  slot : Nat := 0xFF
  unit : Nat := 0
  fn : Nat := 0xFFFF
  queue : Nat := 0xFFFFFFFF
  index : Nat := 0
  addr : Nat := 0
  detail : Nat := 0
  injected : Bool := false
  /-- The record is closed when it is written (a CE record, or containment that is complete at once). -/
  closeNow : Bool := false
  deriving DecidableEq, Repr

/-- The device is FATAL (R461, R473). -/
def State.fatal (s : State) : Bool := s.fld A.ERR_STATUS 5 5 == 1

/-- FLOW_STOP is set (R499). -/
def State.flowStop (s : State) : Bool := s.fld A.PMC_STATUS 32 32 == 1

/-- The open uncorrected record of a unit, when it holds one (R465). -/
def State.openRecord (s : State) (kind unit : Nat) : Option ErrRecord :=
  s.faults.ring.find? (fun r => !r.closed && decide (r.cls ≠ 0) && r.unitKind == kind && r.unit == unit)

/-- Number of records not closed (R473). -/
def openCount (ring : List ErrRecord) : Nat := (ring.filter (fun r => !r.closed)).length

/-- The containment of class UCT (R461): the function's commands in flight end with FAULT_LOST and its queues pause. -/
def State.containUct (s : State) (f seq : Nat) : State :=
  let s1 := s.endFlights (fun x => x.fn == f) 3 seq
  { s1 with queues := s1.queues.map (fun kv =>
      if s1.ownsQueue f kv.1 && kv.2.state == 1 then (kv.1, { kv.2 with state := 2, uctPaused := true }) else kv) }

/-- The containment of class FATAL (R461): nothing more is granted, commands in flight end with FAULT_LOST, ALERT_N asserts. -/
def State.containFatal (s : State) (seq : Nat) : State :=
  let s1 := (s.setFld A.ERR_STATUS 5 5 1).endFlights (fun _ => true) 3 seq
  { s1 with faults := { s1.faults with alert := true } }

/-- The newest 256 records stay in the ring (R464). -/
def pushRing (ring : List ErrRecord) (r : ErrRecord) : List ErrRecord :=
  let l := ring ++ [r]
  l.drop (l.length - 256)

/-- A record with its class decided is written: SEQ, ring, OVERRUN, status bits, the service-log event, PF vector 0 (R463, R464,
R473), then the containment of its class. -/
def State.writeRecord (s : State) (n : ErrNote) (cls prev : Nat) (esc : Bool) : State :=
  let seq := s.reg A.ERR_WR
  let r : ErrRecord := {
    seq := seq, beat := s.beat, cls := cls, escalated := esc, closed := n.closeNow || cls == 0, injected := n.injected, cause := n.cause, unitKind := n.unitKind, slot := n.slot, unit := n.unit, fn := n.fn,
    queue := n.queue, index := n.index, addr := n.addr, prevSeq := prev, detail := n.detail }
  let ring := pushRing s.faults.ring r
  let s1 := { s with faults := { s.faults with
    ring := ring
    recent := if n.injected then s.faults.recent else (s.ticks :: s.faults.recent).filter (fun b => s.ticks < b + 1000) } }
  let s2 := s1.setReg A.ERR_WR (seq + 1)
  let s3 := if 256 ≤ seq - s.reg A.ERR_RD then s2.setFld A.ERR_STATUS 3 3 1 else s2
  let s4 := (if cls = 0 then s3.setFld A.ERR_STATUS 0 0 1 else if cls = 1 then s3.setFld A.ERR_STATUS 1 1 1
             else if cls = 2 then s3.setFld A.ERR_STATUS 2 2 1 else s3).setFld A.ERR_STATUS 40 32 (openCount ring)
  let s5 := s4.event 2 [(seq, 4), (cls, 1), (n.cause, 1), (n.unitKind, 1), (n.slot, 1), (n.unit, 4), (n.fn, 2), (n.queue, 4),
    (n.index, 4), (n.addr, 8), (n.detail, 8)]
  let s6 := (((s5.raiseVector 0 0).tally (0x100 + n.cause)).tally (0x200 + cls)).tally (0x300 + cls)
  if cls = 2 then s6.containUct (if n.fn < 512 then n.fn else 0) seq
  else if cls = 3 then s6.containFatal seq else s6

/-- The class a note is written with (R465): one above its own when its unit holds an open record; a UCT that no command and no
single owner gives a function becomes FATAL. Injected errors never escalate (R467). -/
def State.recordClass (s : State) (n : ErrNote) : Nat × Nat × Bool :=
  if n.cls = 0 ∨ n.cls = 3 ∨ n.injected then (n.cls, 0, false)
  else match s.openRecord n.unitKind n.unit with
    | none => (n.cls, 0, false)
    | some r =>
      let c := n.cls + 1
      (if c = 2 ∧ 512 ≤ n.fn then 3 else c, r.seq, true)

/-- An error is recorded (R461 to R465): a CE only for the first of its unit in 3,600,000 beats; 17 records within 1,000 beats
raise ERROR_STORM. -/
def State.record (s : State) (n : ErrNote) : State :=
  let unitKey := n.unitKind * 2 ^ 32 + n.unit
  if n.cls = 0 ∧ s.faults.ceSeen.any (fun ub => ub.1 == unitKey && decide (s.ticks < ub.2 + 3600000)) then s
  else
    let s0 := if n.cls = 0 then
        { s with faults := { s.faults with ceSeen :=
            (unitKey, s.ticks) :: s.faults.ceSeen.filter (fun ub => ub.1 != unitKey && decide (s.ticks < ub.2 + 3600000)) } }
      else s
    let (c, prev, esc) := s0.recordClass n
    let s1 := s0.writeRecord n c prev esc
    if 17 ≤ s1.faults.recent.length ∧ s1.fld A.ERR_STATUS 4 4 = 0 then
      (s1.setFld A.ERR_STATUS 4 4 1).writeRecord { cls := 3, cause := 0x11, unitKind := 11 } 3 0 false
    else s1

/-- Records that satisfy `p` are closed (R464). -/
def State.closeRecords (s : State) (p : ErrRecord → Bool) : State :=
  let ring := s.faults.ring.map (fun r => if p r && decide (r.cls ≠ 3) then { r with closed := true } else r)
  ({ s with faults := { s.faults with ring := ring } } : State).setFld A.ERR_STATUS 40 32 (openCount ring)

/-! ### Outcomes -/

/-- The next state of a command that takes effect. -/
abbrev Result := Host.Outcome State Fault Refusal

/-- A command that names a unit the device does not have stops; else it takes its effect. -/
def onUnit (present : Bool) (t : State) : Result := if present then .next t else .fault .unitAbsent

end Sys2Proof.Machine
end

