-- ==== Sys2Proof/Machine/Traffic.lean ====
section
/-!
DEFINITION. Where a capacity-tier address lies (R264, R265), the memory-side cache parts (R260, R261) and the traffic counters
(R278, R281). The parts hold copies that every agent sees as memory (R260), so memory bytes are stored once and a part holds which
lines it has and which of them are dirty.
-/

namespace Sys2Proof.Machine

/-- The interleave key in force (R266): the fixed key, or an entropy draw. -/
def State.hashKey (s : State) : Nat :=
  match s.tiers.keyFixed with
  | some k => k
  | none => (Config.entropyKey s.tiers.keyDraw).toNat

/-- The key fingerprint MEM_HASH_ID shows (R266, R275). -/
def State.hashId (s : State) : Nat := mix64n (mix64n s.hashKey) % 65536

/-- locate() of R264: pseudo-channel, unit offset q, byte in the unit, under key `key`. -/
def locate (key a : Nat) : Nat × Nat × Nat :=
  let u := a / 512
  let rlo := u % 256
  let m := u / 256
  let q := m / 3
  let rhi := m % 3
  let h := mix64n (q ^^^ key)
  let clo := rlo ^^^ (h % 256)
  let chi := (rhi + (h / 2 ^ 32) % 3) % 3
  (chi * 256 + clo, q, a % 512)

/-- The row geometry of R265: bank group, bank in group, half, row. -/
def rowPlace (q : Nat) : Nat × Nat × Nat × Nat :=
  (bitsOf q 3 0 ^^^ bitsOf q 10 7, bitsOf q 5 4, bitsOf q 6 6, bitsOf q 20 7)

/-- Pseudo-channel of a capacity-tier address. -/
def State.pcOf (s : State) (a : Nat) : Nat := (locate s.hashKey a).1

/-- Die of a pseudo-channel (R264). -/
def pcDie (pc : Nat) : Nat := pc / 64 / 3

/-- Bank of a fast-tier die offset (R257). -/
def fastBank (off : Nat) : Nat := bitsOf off 15 8 ^^^ bitsOf off 23 16

/-- Home slice of a line (R284). -/
def State.homeSlice (s : State) (a : Nat) : Nat :=
  match regionOf a with
  | .fast die off => 16 * die + fastBank off % 16
  | _ => 16 * pcDie (s.pcOf a) + s.pcOf a % 16

/-- Sets of a part with `count` granules (R261). -/
def partSetOf (count line : Nat) : Nat := mix64n line % (1008 * count)

/-- One access to the 256 B line `line` of an enabled part with key `pk` (4f + k): a hit or a miss with allocation and, of a full
set, the least recently used line leaving (R261); the die's MEM_FC_ counters (R278) and the pseudo-channel counters (R281). -/
def State.partAccess (s : State) (pk count line : Nat) (wr whole : Bool) : State :=
  let die := pk % 4
  let key := pk * 2 ^ 24 + partSetOf count line
  let set := smapGet (fun _ => ([] : List PartLine)) s.tiers.partSets key
  let put (t : State) (l : List PartLine) : State :=
    { t with tiers := { t.tiers with partSets := smapPut (fun _ => []) t.tiers.partSets key l } }
  match set.find? (fun x => x.line == line) with
  | some x => (put s ({ x with dirty := x.dirty || wr } :: set.filter (fun y => y.line != line))).count (A.MEM_FT die 0x20)
  | none =>
    let s1 := s.count (A.MEM_FT die 0x28)
    let s2 := if wr && whole then s1 else s1.count (A.TG (s.pcOf (line * 256)) 0xC0)
    let busy := decide (s.tiers.partAction = some ⟨pk / 4, die, true⟩)
    if busy then (if wr then s2.count (A.TG (s.pcOf (line * 256)) 0xC8) else s2)
    else
      let set1 := { line := line, dirty := wr } :: set
      match set1.drop 8 with
      | [] => put s2 set1
      | v :: _ =>
        let s3 := put s2 (set1.take 8)
        if v.dirty then (s3.count (A.MEM_FT die 0x30)).count (A.TG (s.pcOf (v.line * 256)) 0xC8) else s3

/-- Traffic of one 512 B unit of the capacity tier (R260, R281). -/
def State.unitAccess (s : State) (a n : Nat) (wr : Bool) : State :=
  let pc := s.pcOf a
  let f := s.granOwner a
  let p := s.part f (pcDie pc)
  if p.enable && decide (0 < p.count) then
    (List.range ((a + n - 1) / 256 - a / 256 + 1)).foldl (fun t i =>
      let line := a / 256 + i
      t.partAccess (4 * f + pcDie pc) p.count line wr (decide (a ≤ line * 256) && decide (line * 256 + 256 ≤ a + n))) s
  else s.count (A.TG pc (if wr then 0xC8 else 0xC0))

/-- A write to the fast tier marks the 256 B lines it touches as copied, in every bank copy in progress (R259). -/
def State.markCopied (s : State) (a n : Nat) : State :=
  match regionOf a with
  | .fast die off =>
    let lines := (List.range ((off + n - 1) / 256 - off / 256 + 1)).map (· + off / 256)
    { s with tiers := { s.tiers with copies := s.tiers.copies.map (fun (c : BankCopy) =>
        if c.die = die then { c with copied := (lines.filter (fun l => fastBank (l * 256) == c.bank && !c.copied.contains l)) ++ c.copied } else c) } }
  | _ => s

/-- Traffic of a range: nothing is counted outside the capacity tier. -/
def State.traffic (s : State) (a n : Nat) (wr : Bool) : State :=
  if n = 0 then s
  else if capEnd ≤ a then (if wr && !s.tiers.copies.isEmpty then s.markCopied a n else s)
  else (List.range ((a + n - 1) / 512 - a / 512 + 1)).foldl (fun t i =>
    let u := (a / 512 + i) * 512
    let lo := max a u
    t.unitAccess lo (min (a + n) (u + 512) - lo) wr) s

end Sys2Proof.Machine
end

