-- ==== Sys2Proof/Machine/Engine.lean ====
section
/-!
DEFINITION. How an engine command acts on memory: the generation aperture (R142 to R145), the ownership checks, the seal checks at
the first use of each block (R447, R449), the writes and the seals they keep (R445), cancellation points, and the way a command
ends (R314). An engine's own chapter supplies the job: segments between cancellation points, each with the ranges it reads and the
bytes it writes.
-/

namespace Sys2Proof.Machine

/-! ### Step domain fields (R141, R142, R171) -/

/-- A field of the domain descriptor as read at the latest STEP_BEGIN (R141). -/
def State.dd (s : State) (f off k : Nat) : Nat := fieldAt (s.domain f).desc off k

/-- NWT_STATUS.STATE: 0 IDLE, 1 OPEN, 2 COMMITTING, 3 RESTORING, 4 HALTED (R171). -/
def State.stepState (s : State) (f : Nat) : Nat := s.fld (A.NWT f 0x10) 2 0

/-- An attempt is open (R143): OPEN, or COMMITTING before its flip. -/
def State.attemptOpen (s : State) (f : Nat) : Bool := s.stepState f == 1 || s.stepState f == 2

/-- A bit of the local cause word is set (R154). -/
def State.setCause (s : State) (f bit : Nat) : State := s.setFld (A.NWT f 0x20) bit bit 1

/-- A generation region (R142). -/
structure GenRegion where
  vc : Nat
  vn : Nat
  gran : Nat
  map : Nat
  deriving DecidableEq, Repr

/-- Little-endian number of `k` stored bytes. -/
def State.num (s : State) (a k : Nat) : Nat := leNat (s.bytes a k)

/-- Entry i of the generation-region table of function f (R142). -/
def State.genRegion (s : State) (f i : Nat) : GenRegion :=
  let a := s.dd f 24 8 + 32 * i
  { vc := s.num a 8, vn := s.num (a + 8) 8, gran := s.num (a + 16) 4, map := s.num (a + 24) 8 }

/-- All regions of a function's descriptor. -/
def State.genRegions (s : State) (f : Nat) : List GenRegion := (List.range (s.dd f 32 1)).map (s.genRegion f)

/-- Physical address of granule g of a region's committed alias: bits [63:21] of its map entry. -/
def State.mapEntry (s : State) (r : GenRegion) (g : Nat) : Nat := s.num (r.map + 8 * g) 8 / 0x200000 * 0x200000

/-- The pool granule that stands for granule g of region i in the open attempt, when one was taken. -/
def State.takenOf (s : State) (f i g : Nat) : Option Nat :=
  ((s.domain f).taken.find? (fun t => t.region == i && t.granule == g)).map TakenGranule.phys

/-- What an address means to function f. -/
inductive Resolved where
  /-- A physical address of a tier or scratchpad. -/
  | phys (a : Nat)
  /-- The first write of the attempt to granule g of region i (R143), at this offset in the granule. -/
  | take (region granule off : Nat)
  /-- Refused with a status of R314. -/
  | deny (status : Nat)
  deriving DecidableEq, Repr

/-- Status and DETAIL of a refused access at `a`: the address with PERMISSION; FAULT_LOST without an error-ring record has DETAIL 0 (R254, R313; DEDUCED, log 14). -/
def denial (r : Resolved) (a : Nat) : Nat × Nat :=
  match r with
  | .deny st => (st, if st = 7 then a else 0)
  | _ => (7, a)

/-- An address in a region's alias: region index, region, is it VN, granule, offset. -/
def findAlias (a : Nat) : Nat → List GenRegion → Option (Nat × GenRegion × Bool × Nat × Nat)
  | _, [] => none
  | i, r :: rs =>
    let size := r.gran * 0x200000
    if r.vc ≤ a ∧ a < r.vc + size then some (i, r, false, (a - r.vc) / 0x200000, (a - r.vc) % 0x200000)
    else if r.vn ≤ a ∧ a < r.vn + size then some (i, r, true, (a - r.vn) / 0x200000, (a - r.vn) % 0x200000)
    else findAlias a (i + 1) rs

/-- An access of function f to address a (R252, R254, R143), for a write or a read. Remote and host form are no local addresses. -/
def State.resolve (s : State) (f a : Nat) (wr : Bool) : Resolved :=
  match regionOf a with
  | .aperture g =>
    if g ≠ f then .deny 7
    else match findAlias a 0 (s.genRegions f) with
      | none => .deny 7
      | some (i, r, isVn, gr, off) =>
        let committed := s.mapEntry r gr + off
        let ok (p : Nat) : Resolved := match s.denied f p with | none => .phys p | some c => .deny c
        if !s.attemptOpen f then ok committed
        else if !isVn then (if wr then .deny 7 else ok committed)
        else match s.takenOf f i gr with
          | some p => ok (p + off)
          | none => if wr then .take i gr off else ok committed
  | .remote _ _ | .host _ | .outside => .deny 7
  | _ => match s.denied f a with
    | none => .phys a
    | some c => .deny c

/-- A range cut at the 2 KiB block boundaries of its addresses. -/
def chunks (a n : Nat) : List (Nat × Nat) :=
  (blocksOf a n).map (fun b => let lo := max a b; (lo, min (a + n) (b + 2048) - lo))

/-- The status that refuses an access to a whole range, with its first refused address (R313); none when every part is allowed. -/
def State.refused (s : State) (f a n : Nat) (wr : Bool) : Option (Nat × Nat) :=
  (chunks a n).findSome? (fun c => match s.resolve f c.1 wr with
    | .deny st => some (denial (.deny st) c.1)
    | _ => none)

/-- The bytes function f reads at a (already allowed): through the aperture, coherent (R294). -/
def State.engRead (s : State) (f a n : Nat) : List Byte :=
  (chunks a n).flatMap (fun c => match s.resolve f c.1 false with
    | .phys p => s.ncBytes p c.2
    | _ => List.replicate c.2 0)

/-- Little-endian number function f reads at a. -/
def State.engNum (s : State) (f a k : Nat) : Nat := leNat (s.engRead f a k)

/-- The physical place of a write of function f at `a`, after taking a granule when it is the attempt's first write there (R143);
none when it is refused or the pool is empty (R144: the cause GEN_POOL is set). -/
def State.writePlace (s : State) (f a : Nat) : State × Option Nat :=
  match s.resolve f a true with
  | .phys p => (s, some p)
  | .take i g off =>
    match (s.domain f).pool with
    | [] => (s.setCause f 4, none)
    | p :: rest =>
      let s1 := s.modDomain f (fun d => { d with pool := rest, taken := d.taken ++ [⟨i, g, p⟩] })
      (({ s1 with seals := smapDrop (fun b => b / 0x200000 == p / 0x200000) s1.seals } : State).purgeRange p 0x200000, some (p + off))
  | .deny _ => (s, none)

/-- A write by a command within one block. Answers the physical address written. -/
def State.engWriteChunk (s : State) (f a : Nat) (bs : List Byte) : State × Option Nat :=
  match s.writePlace f a with
  | (s1, some p) => (((s1.purgeRange p bs.length).traffic p bs.length true).putBytes p bs, some p)
  | (s1, none) => (s1, none)

/-! ### Jobs -/

/-- The work of an engine between two cancellation points: the ranges whose blocks it first uses, in order of use, and its writes. -/
structure Seg where
  reads : List (Nat × Nat)
  writes : List (Nat × List Byte)
  deriving DecidableEq, Repr

/-- Where a job stands: the state, the blocks checked, the physical ranges written, and the first failure with its DETAIL. -/
structure JobSt where
  st : State
  seen : List Nat
  wrote : List (Nat × Nat)
  fail : Option (Nat × Nat)
  /-- Segments performed. -/
  done : Nat := 0

/-- A record for uncorrectable data met by a command (R271, R462), with the block voided. Answers the record's SEQ. -/
def State.uncorrectable (s : State) (f q i a : Nat) : State × Nat :=
  let seq := s.reg A.ERR_WR
  let inj := s.faults.armed.any (fun x => x.kind == 4 && x.addr / 8 == a / 8)
  let s1 := { s with
    tiers := { s.tiers with badWords := s.tiers.badWords.filter (fun w => w / 2048 != a / 2048) }
    faults := { s.faults with armed := s.faults.armed.filter (fun x => !(x.kind == 4 && x.addr / 8 == a / 8)) } }
  let s2 := (s1.voidBlock (blockOf a)).record
    { cls := 1, cause := 2, unitKind := 13, fn := f, queue := q, index := i, addr := a, injected := inj }
  let s3 := match regionOf a with
    | .capacity => s2.count (A.TG (s.pcOf a) 0xD8)
    | .fast die _ => s2.count (A.MEM_FT die 0x08)
    | _ => s2
  (s3, seq)

/-- The stored seal of block b still stands as an INJECT of kind 1 left it (R467). -/
def State.sealInjected (s : State) (b : Nat) : Bool :=
  s.faults.armed.any (fun x => x.kind == 1 && x.addr == b) && (s.syndrome b == 1#32 || s.syndrome b == 0xFFFFFFFE#32)

/-- The seal check of one block at its first use (R447, R449). -/
def JobSt.checkBlock (j : JobSt) (f q i : Nat) (verify : Bool) (a : Nat) : JobSt :=
  match j.st.resolve f a false with
  | .phys p =>
    let b := blockOf p
    if j.seen.contains b then j
    else
      let j1 := { j with seen := b :: j.seen }
      match j.st.tiers.badWords.find? (fun w => w / 2048 == b / 2048) with
      | some w =>
        let (s1, seq) := j.st.uncorrectable f q i w
        { j1 with st := s1, fail := if j.fail.isNone then some (3, seq) else j.fail }
      | none =>
        if !verify then j1
        else
          let s1 := j.st.count (A.SEAL 0x10)
          match j.st.sealState b with
          | .valid => { j1 with st := s1 }
          | .void => { j1 with st := s1.count (A.SEAL 0x20), fail := if j.fail.isNone then some (4, blockOf a) else j.fail }
          | .mismatched =>
            { j1 with
              st := (s1.count (A.SEAL 0x18)).record
                { cls := 1, cause := 3, unitKind := 13, fn := f, queue := q, index := i, addr := blockOf a, injected := j.st.sealInjected b }
              fail := if j.fail.isNone then some (4, blockOf a) else j.fail }
  | _ => j

/-- The checks of one range. -/
def JobSt.checkRange (j : JobSt) (f q i : Nat) (verify : Bool) (a n : Nat) : JobSt :=
  let j1 := (chunks a n).foldl (fun j c => j.checkBlock f q i verify c.1) j
  { j1 with st := (chunks a n).foldl (fun t c => match t.resolve f c.1 false with
      | .phys p => t.traffic p c.2 false
      | _ => t) j1.st }

/-- One write of a job, cut at block boundaries; a write the pool or the maps refuse fails the command with PERMISSION. -/
def JobSt.write (j : JobSt) (f a : Nat) (bs : List Byte) : JobSt :=
  (chunks a bs.length).foldl (fun j c =>
    match j.fail with
    | some (7, _) => j
    | _ =>
      let (s1, p) := j.st.engWriteChunk f c.1 ((bs.drop (c.1 - a)).take c.2)
      match p with
      | some p => { j with st := s1, wrote := (p, c.2) :: j.wrote }
      | none => { j with st := s1, fail := some (7, c.1) }) j

/-- The segments of a job, up to the first cancellation point at which a failure stands or the cancel stops it: `stop` is the
number of segments after which a recorded cancel stops the command. Answers whether the cancel stopped it. -/
def JobSt.run (j : JobSt) (f q i : Nat) (verify : Bool) : Option Nat → List Seg → JobSt × Bool
  | _, [] => (j, false)
  | stop, g :: gs =>
    match stop with
    | some 0 => (j, true)
    | _ =>
      let j1 := g.reads.foldl (fun j r => j.checkRange f q i verify r.1 r.2) j
      let j2 := (g.writes.foldl (fun j w => j.write f w.1 w.2) { j1 with done := j1.done + 1 } : JobSt)
      if j2.fail.isSome then (j2, false)
      else JobSt.run j2 f q i verify (stop.map (· - 1)) gs

/-- Physical blocks a list of physical ranges touches, without repeats. -/
def blocksTouched (rs : List (Nat × Nat)) : List Nat := (rs.flatMap (fun r => blocksOf r.1 r.2)).eraseDups

/-- Bytes of block `b` that the ranges cover, each range counted once. -/
def coverage (b : Nat) (rs : List (Nat × Nat)) : Nat :=
  (rs.eraseDups.map (fun r => min (r.1 + r.2) (b + 2048) - max r.1 b)).foldl (· + ·) 0

/-- The seals after a command's writes (R445): a block it wrote whole is valid; one it wrote in part keeps its state. -/
def State.sealBlocks (s : State) (rs : List (Nat × Nat)) : State :=
  (blocksTouched rs).foldl (fun t b => if 2048 ≤ coverage b rs then t.setSyndrome b 0 else t.count (A.SEAL 0x38)) s

/-- What a job left: the state, its status and DETAIL, the physical ranges it wrote, and the segments it performed. -/
structure JobResult where
  st : State
  status : Nat
  detail : Nat
  wrote : List (Nat × Nat)
  done : Nat := 0

/-- A job of function f for command (q, i): ownership of everything it names first, nothing written when refused (R252, R313); then
the segments; then the seals of what it wrote, void when it ended with anything but OK (R314). -/
def State.runJob (s : State) (f q i : Nat) (verify : Bool) (stop : Option Nat) (segs : List Seg) : JobResult :=
  let bad := segs.findSome? (fun g =>
    match g.reads.findSome? (fun r => s.refused f r.1 r.2 false) with
    | some x => some x
    | none => g.writes.findSome? (fun w => s.refused f w.1 w.2.length true))
  match bad with
  | some (st, a) => { st := s, status := st, detail := a, wrote := [] }
  | none =>
    let (j, cut) := JobSt.run { st := s, seen := [], wrote := [], fail := none } f q i verify stop segs
    match j.fail with
    | some (st, d) => { st := j.st.voidBlocks (blocksTouched j.wrote), status := st, detail := d, wrote := j.wrote, done := j.done }
    | none =>
      if cut then { st := j.st.voidBlocks (blocksTouched j.wrote), status := 2, detail := 0, wrote := j.wrote, done := j.done }
      else { st := j.st.sealBlocks j.wrote, status := 0, detail := 0, wrote := j.wrote, done := j.done }

/-- A cancelled command stops where the operand says; one that is not cancelled runs to its end (R327). -/
def Flight.stopAt (fl : Flight) (stop : Option Nat) : Option Nat := if fl.cancel then stop else none

/-- The flags of R56, R57 an engine reports. -/
structure Flags where
  nanf : Bool := false
  inff : Bool := false
  reservedCode : Bool := false
  outlierOvf : Bool := false
  firstNan : Bool := false
  firstRow : Nat := 0
  firstCol : Nat := 0
  deriving DecidableEq, Repr

/-- Command (q, i) ends with the result of its job and its flags. -/
def JobResult.finish (r : JobResult) (q i : Nat) (fl : Flags) : State :=
  r.st.modFlight q i (fun x =>
    { x with
      ended := true, status := r.status, detail := r.detail, blocks := blocksTouched r.wrote, nanf := fl.nanf, inff := fl.inff
      reservedCode := fl.reservedCode, outlierOvf := fl.outlierOvf, firstNan := fl.firstNan, firstRow := fl.firstRow
      firstCol := fl.firstCol })

/-- The command in flight (q, i), not ended, with this opcode. -/
def State.running (s : State) (q i opcode : Nat) : Option Flight :=
  match s.flight? q i with
  | some fl => if !fl.ended && byteAt fl.bytes 0 == opcode then some fl else none
  | none => none

/-- An engine command: `k` acts on the command in flight (q, i) when it runs and carries this opcode; else there is no effect
(DEDUCED, log 2). Its domain HALTED, it completes with CANCELLED without executing (R164, R332); its core unavailable, with FAULT_LOST
(R332). -/
def State.engine (s : State) (q i opcode : Nat) (k : Flight → State) : Result :=
  match s.running q i opcode with
  | none => .next s
  | some fl =>
    if s.stepState fl.fn = 4 then .next (s.endFlight q i 1 0)
    else if s.unavailable fl.core then .next (s.endFlight q i 3 0)
    else .next (k fl)

/-- Reserved bytes of a command or descriptor are 0: the offset of the first that is not. -/
def firstNonzero (bs : List Byte) : List Nat → Option Nat
  | [] => none
  | o :: os => if byteAt bs o ≠ 0 then some o else firstNonzero bs os

/-- Offsets lo to hi. -/
def offs (lo hi : Nat) : List Nat := (List.range (hi + 1 - lo)).map (· + lo)

/-- The first of several checks that fails: each is an offset and whether the field there is legal (R313's DETAIL). -/
def firstBad : List (Nat × Bool) → Option Nat
  | [] => none
  | (o, ok) :: cs => if ok then firstBad cs else some o

end Sys2Proof.Machine
end

