-- ==== Sys2Proof/Machine/Float.lean ====
section
/-!
DEFINITION. Number formats and rounding (R27 to R36, R39 to R41, R47 to R51): exact values, their rounding to every target by
truncation, to nearest even and stochastically, and FP32 arithmetic on 32-bit codes.
-/

namespace Sys2Proof.Machine

/-! ### Exact values -/

/-- A value before rounding: NaN, an infinity, a signed zero of a floating-point format, or exactly `m * 2^e` (where `m = 0` is the
exact zero of R47, which carries no sign). -/
inductive XVal where
  | nan
  | inf (neg : Bool)
  | zero (neg : Bool)
  | fin (m e : Int)
  deriving DecidableEq, Repr

/-- `m * 2^e` as a ratio of naturals for the magnitude of `m`. -/
def ratio (m e : Int) : Nat × Nat :=
  if 0 ≤ e then (m.natAbs * 2 ^ e.toNat, 1) else (m.natAbs, 2 ^ (-e).toNat)

/-- Sum of two dyadics. -/
def dyAdd (m1 e1 m2 e2 : Int) : Int × Int :=
  let e := min e1 e2
  (m1 * 2 ^ (e1 - e).toNat + m2 * 2 ^ (e2 - e).toNat, e)

/-- The sum of two values, exact (R47, R53): NaN and opposite infinities give NaN; an exact zero changes nothing; two signed zeros
give a negative one only when both are negative. -/
def XVal.add : XVal → XVal → XVal
  | .nan, _ => .nan
  | _, .nan => .nan
  | .inf a, .inf b => if a = b then .inf a else .nan
  | .inf a, _ => .inf a
  | _, .inf b => .inf b
  | .zero a, .zero b => .zero (a && b)
  | .zero a, .fin m e => if m = 0 then .zero a else .fin m e
  | .fin m e, .zero b => if m = 0 then .zero b else .fin m e
  | .fin m1 e1, .fin m2 e2 => let (m, e) := dyAdd m1 e1 m2 e2; .fin m e

/-- The sign of a value; an exact zero is not negative. -/
def XVal.neg? : XVal → Bool
  | .nan => false
  | .inf a => a
  | .zero a => a
  | .fin m _ => decide (m < 0)

/-- The value is a zero of either kind. -/
def XVal.isZero : XVal → Bool
  | .zero _ => true
  | .fin m _ => decide (m = 0)
  | _ => false

/-- The product of two values, exact (R53): an infinity times a zero is NaN. -/
def XVal.mul : XVal → XVal → XVal
  | .nan, _ => .nan
  | _, .nan => .nan
  | .inf a, y => if y.isZero then .nan else .inf (a != y.neg?)
  | x, .inf b => if x.isZero then .nan else .inf (x.neg? != b)
  | .zero a, y => .zero (a != y.neg?)
  | x, .zero b => .zero (x.neg? != b)
  | .fin m1 e1, .fin m2 e2 => .fin (m1 * m2) (e1 + e2)

/-- The opposite value. -/
def XVal.opp : XVal → XVal
  | .nan => .nan
  | .inf a => .inf !a
  | .zero a => .zero !a
  | .fin m e => .fin (-m) e

/-- A zero without a sign becomes +0. -/
def XVal.signed (x : XVal) : XVal := if x = .fin 0 0 then .zero false else match x with
  | .fin m e => if m = 0 then .zero false else .fin m e
  | y => y

/-- A signed zero becomes the exact zero (R47). -/
def XVal.unsigned : XVal → XVal
  | .zero _ => .fin 0 0
  | y => y

/-! ### Rounding -/

/-- How a value is rounded (R48): toward zero, to nearest even, or stochastically with a 16-bit number. -/
inductive RMode where
  | trunc
  | rne
  | sr (r16 : Nat)
  deriving DecidableEq, Repr

/-- The largest E with 2^E at most n/d (n, d positive). -/
def ilog2 (n d : Nat) : Int :=
  let a := Nat.log2 n
  let b := Nat.log2 d
  if b ≤ a then (if 2 ^ (a - b) * d ≤ n then (a - b : Nat) else ((a - b : Nat) : Int) - 1)
  else if d ≤ n * 2 ^ (b - a) then -((b - a : Nat) : Int) else -((b - a : Nat) : Int) - 1

/-- n/d rounded to an integer. -/
def roundNat (mode : RMode) (n d : Nat) : Nat :=
  let k := n / d
  let r := n % d
  match mode with
  | .trunc => k
  | .rne => if 2 * r < d then k else if d < 2 * r then k + 1 else k + k % 2
  | .sr r16 => if 65536 ≤ r * 65536 / d + r16 then k + 1 else k

/-- A floating-point target (R29, R33, R34, R36): mantissa bits, exponent of its smallest step, and the first code above its largest
finite magnitude. -/
structure FFmt where
  mb : Nat
  qmin : Int
  top : Nat
  deriving DecidableEq, Repr

def fmtFP32 : FFmt := ⟨23, -149, 0x7F800000⟩
def fmtBF16 : FFmt := ⟨7, -133, 0x7F80⟩
def fmtE4M3 : FFmt := ⟨3, -9, 0x7F⟩
def fmtE5M2 : FFmt := ⟨2, -16, 0x7C⟩
def fmtF4 : FFmt := ⟨1, -1, 8⟩

/-- The magnitude code of n/d on a target's grid, which continues above the largest finite value (R51): the code counts grid points,
so codes from `top` on lie above the largest finite value. E4M3 has no grid point at 480: from 448 to 512 there is one step. -/
def roundCode (f : FFmt) (mode : RMode) (n d : Nat) : Nat :=
  if n = 0 then 0
  else
    let q := max f.qmin (ilog2 n d - (f.mb : Int))
    let (n', d') := if 0 ≤ q then (n, d * 2 ^ q.toNat) else (n * 2 ^ (-q).toNat, d)
    if f.mb = 3 ∧ 448 * d ≤ n ∧ n < 512 * d then
      match mode with
      | .trunc => 0x7E
      | .rne => if n < 480 * d then 0x7E else 0x7F
      | .sr r16 => if 65536 ≤ (n - 448 * d) * 65536 / (64 * d) + r16 then 0x7F else 0x7E
    else (q - f.qmin).toNat * 2 ^ f.mb + roundNat mode n' d'

/-- The value of a magnitude code of a target. -/
def codeVal (f : FFmt) (c : Nat) : XVal :=
  let e := c / 2 ^ f.mb
  if e = 0 then .fin (c : Int) f.qmin else .fin ((c % 2 ^ f.mb + 2 ^ f.mb : Nat) : Int) (f.qmin + (e : Int) - 1)

/-! ### FP32 and BF16 codes (R36) -/

/-- Canonical NaN of FP32 (R36). -/
def nan32 : Nat := 0x7FC00000
def inf32 : Nat := 0x7F800000

/-- The value of an FP32 code. -/
def dec32 (c : Nat) : XVal :=
  let neg := bitOf c 31
  let m := c % 2 ^ 31
  if inf32 < m then .nan
  else if m = inf32 then .inf neg
  else if m = 0 then .zero neg
  else match codeVal fmtFP32 m with
    | .fin x e => .fin (if neg then -x else x) e
    | v => v

/-- A value rounded to an FP32 code: overflow under RNE gives an infinity; under truncation from 2^128 on (R47). -/
def enc32 (mode : RMode) : XVal → Nat
  | .nan => nan32
  | .inf neg => b2n neg * 2 ^ 31 + inf32
  | .zero neg => b2n neg * 2 ^ 31
  | .fin m e =>
    if m = 0 then 0
    else
      let (n, d) := ratio m e
      b2n (decide (m < 0)) * 2 ^ 31 + min inf32 (roundCode fmtFP32 mode n d)

/-- rne of R49 to FP32. -/
def rne32 (x : XVal) : Nat := enc32 .rne x
/-- trunc32 of R47. -/
def trunc32 (x : XVal) : Nat := enc32 .trunc x

def isNan32 (c : Nat) : Bool := decide (inf32 < c % 2 ^ 31)
def isInf32 (c : Nat) : Bool := decide (c % 2 ^ 31 = inf32)

/-- FP32 operations under RNE. -/
def fadd (a b : Nat) : Nat := rne32 ((dec32 a).add (dec32 b))
def fsub (a b : Nat) : Nat := rne32 ((dec32 a).add (dec32 b).opp)
def fmul (a b : Nat) : Nat := rne32 ((dec32 a).mul (dec32 b))
/-- trunc32(a + b) of two FP32 values. -/
def tadd (a b : Nat) : Nat := trunc32 ((dec32 a).add (dec32 b))

/-- rne(a / b) of finite b ≠ 0; IEEE 754 otherwise. -/
def fdiv (a b : Nat) : Nat :=
  match dec32 a, dec32 b with
  | .nan, _ => nan32
  | _, .nan => nan32
  | .inf x, .inf _ => if x then nan32 else nan32
  | .inf x, y => b2n (x != y.neg?) * 2 ^ 31 + inf32
  | x, .inf y => b2n (x.neg? != y) * 2 ^ 31
  | .zero _, .zero _ => nan32
  | x, .zero y => b2n (x.neg? != y) * 2 ^ 31 + inf32
  | .zero x, y => b2n (x != y.neg?) * 2 ^ 31
  | .fin m1 e1, .fin m2 e2 =>
    let (n1, d1) := ratio m1 e1
    let (n2, d2) := ratio m2 e2
    if n2 = 0 then nan32
    else b2n (decide (m1 < 0) != decide (m2 < 0)) * 2 ^ 31 + min inf32 (roundCode fmtFP32 .rne (n1 * d2) (d1 * n2))

/-- Integer square root, bit by bit from bit `k` down. -/
def isqrtFrom (n : Nat) : Nat → Nat → Nat
  | 0, r => r
  | k + 1, r => let t := r + 2 ^ k; isqrtFrom n k (if t * t ≤ n then t else r)

/-- rne(sqrt(a)) (R151). -/
def fsqrt (a : Nat) : Nat :=
  match dec32 a with
  | .nan => nan32
  | .inf neg => if neg then nan32 else inf32
  | .zero neg => b2n neg * 2 ^ 31
  | .fin m e =>
    if m < 0 then nan32
    else
      let e2 := (e - 64) / 2 * 2
      let n := m.natAbs * 2 ^ (e - e2).toNat
      let r := isqrtFrom n 50 0
      rne32 (.fin ((2 * r + (if r * r = n then 0 else 1) : Nat) : Int) (e2 / 2 - 1))

/-- IEEE 754 maximum of two codes: NaN when either is NaN; +0 above -0. -/
def fmax (a b : Nat) : Nat :=
  if isNan32 a || isNan32 b then nan32
  else
    let key (c : Nat) : Int := if bitOf c 31 then -((c % 2 ^ 31 : Nat) : Int) - 1 else ((c % 2 ^ 31 : Nat) : Int)
    if key a < key b then b else a

/-- Order key of a code that is not NaN: -0 just below +0. -/
def fkey (c : Nat) : Int := if bitOf c 31 then -((c % 2 ^ 31 : Nat) : Int) - 1 else ((c % 2 ^ 31 : Nat) : Int)

/-- a < b of two codes, false with a NaN; zeros are equal. -/
def flt (a b : Nat) : Bool :=
  !isNan32 a && !isNan32 b && !(a % 2 ^ 31 == 0 && b % 2 ^ 31 == 0) && decide (fkey a < fkey b)

/-- A finite FP32 code. -/
def isFin32 (c : Nat) : Bool := decide (c % 2 ^ 31 < inf32)

/-- The FP32 code of a natural number, rounded to nearest. -/
def natToF32 (n : Nat) : Nat := rne32 (XVal.fin (n : Int) 0)

/-- The magnitude of a code. -/
def fabs (c : Nat) : Nat := if isNan32 c then nan32 else c % 2 ^ 31

/-- The opposite of a code. -/
def fneg (c : Nat) : Nat := if isNan32 c then nan32 else if bitOf c 31 then c % 2 ^ 31 else c + 2 ^ 31

/-- The FP32 code of a BF16 code, exact (R36). -/
def bf16to32 (c : Nat) : Nat := if 0x7F80 < c % 2 ^ 15 then nan32 else c * 65536

/-! ### Function units (R101, R214)

Each function has an error of at most 2 ulps and gives the same bits for the same argument. The value is computed to more than 100 bits, and the
result is a free choice among the FP32 codes within the bound (DESIGN CHOICE, log 8). -/

/-- Fraction bits of the fixed-point values below. -/
def fixBits : Nat := 192

/-- A finite code as a multiple of 2^-149; the code of infinity continues the grid. -/
def codeGrid (c : Nat) : Int :=
  let m := c % 2 ^ 31
  let g : Nat := if m / 2 ^ 23 = 0 then m else (2 ^ 23 + m % 2 ^ 23) * 2 ^ (m / 2 ^ 23 - 1)
  if bitOf c 31 then -(g : Int) else g

/-- The code with a given place in the order of `fkey`. -/
def codeOfKey (k : Int) : Nat := if k < 0 then 2 ^ 31 + (-k - 1).toNat else k.toNat

/-- The result of function unit `fn` for argument code `c`, whose exact value is n/d: the code chosen among those within 2 ulps of n/d. -/
def within2 (fn c : Nat) (n : Int) (d : Nat) : Nat :=
  let near := (if n < 0 then 2 ^ 31 else 0) + min inf32 (roundCode fmtFP32 .rne n.natAbs d)
  let ulp : Int := if n = 0 then -149 else max (-149) (ilog2 n.natAbs d - 23)
  let r := codeOfKey (fkey near + (Config.unitChoice fn (BitVec.ofNat 32 c) % 11 : Nat) - 5)
  if r % 2 ^ 31 ≤ inf32 ∧ (codeGrid r * d - n * 2 ^ 149).natAbs ≤ 2 * 2 ^ (ulp + 149).toNat * d then r else near

/-- A finite code in fixed point, rounded down. -/
def fixOf (c : Nat) : Int := codeGrid c * 2 ^ (fixBits - 149)

/-- Sum of x^k/k! over the terms left, from term number `k`. -/
def expTerms (x : Nat) : Nat → Nat → Nat → Nat
  | 0, _, _ => 0
  | f + 1, k, term => term + expTerms x f (k + 1) (term * x / 2 ^ fixBits / (k + 1))

/-- e^x of a natural fixed-point number, by 8 halvings. -/
def expFix (x : Nat) : Nat :=
  (List.range 8).foldl (fun y _ => y * y / 2 ^ fixBits) (expTerms (x / 256) 48 0 (2 ^ fixBits))

/-- Sum of u^(2k+1)/(2k+1), the power `p` being the next. -/
def atanhTerms (u2 : Nat) : Nat → Nat → Nat → Nat
  | 0, _, _ => 0
  | f + 1, k, p => p / (2 * k + 1) + atanhTerms u2 f (k + 1) (p * u2 / 2 ^ fixBits)

/-- ln of n/d between 1 and 2, in fixed point. -/
def lnFix (n d : Nat) : Nat :=
  let u := (n - d) * 2 ^ fixBits / (n + d)
  2 * atanhTerms (u * u / 2 ^ fixBits) 64 0 u

/-- Alternating sum of x^(2k+o)/(2k+o)!: cos for `o` 0, sin for `o` 1. -/
def trigTerms (x2 o : Nat) : Nat → Nat → Nat → Int
  | 0, _, _ => 0
  | f + 1, k, term => (term : Int) - trigTerms x2 o f (k + 1) (term * x2 / 2 ^ fixBits / ((2 * k + o + 1) * (2 * k + o + 2)))

/-- exp of the output converter (R101). -/
def fexp (c : Nat) : Nat :=
  if isNan32 c then nan32 else if c = inf32 then inf32 else if c = 2 ^ 31 + inf32 then 0
  else
    let x := fixOf c
    if 90 * 2 ^ fixBits < x then inf32
    else if x < -(110 * 2 ^ fixBits) then within2 0 c 1 (2 ^ 160)
    else if x < 0 then within2 0 c (2 ^ fixBits) (expFix x.natAbs)
    else within2 0 c (expFix x.natAbs) (2 ^ fixBits)

/-- ln of unit `fn` (R101, R214). -/
def flnOf (fn c : Nat) : Nat :=
  if isNan32 c then nan32 else if c % 2 ^ 31 = 0 then 2 ^ 31 + inf32 else if bitOf c 31 then nan32
  else if c = inf32 then inf32
  else
    let g := (codeGrid c).toNat
    let k := Nat.log2 g
    within2 fn c ((lnFix g (2 ^ k) : Int) + ((k : Int) - 149) * lnFix 2 1) (2 ^ fixBits)

/-- ln of the output converter (R101). -/
def fln (c : Nat) : Nat := flnOf 1 c

/-- sqrt of the vector unit, of a positive finite code (R214). -/
def vsqrt (c : Nat) : Nat := within2 3 c (isqrtFrom (codeGrid c * 2 ^ 235).toNat 257 0) (2 ^ fixBits)

/-- cos of the vector unit, for an angle from 0 to 2 pi (R214). -/
def vcos (c : Nat) : Nat :=
  let x := (fixOf c).toNat
  within2 4 c (trigTerms (x * x / 2 ^ fixBits) 0 48 0 (2 ^ fixBits)) (2 ^ fixBits)

/-- sin of the vector unit, for an angle from 0 to 2 pi (R214). -/
def vsin (c : Nat) : Nat :=
  let x := (fixOf c).toNat
  within2 5 c (trigTerms (x * x / 2 ^ fixBits) 1 48 0 x) (2 ^ fixBits)

/-! ### Element formats (R27 to R36) -/

/-- Bits per element of a format code; 0 for a reserved one (R27). -/
def elemBits (f : Nat) : Nat := [4, 4, 4, 2, 8, 8, 8, 0, 16, 32].getD f 0

/-- Bytes of `n` packed elements. -/
def elemBytes (f n : Nat) : Nat := (n * elemBits f + 7) / 8

/-- Code of element `i` of packed bytes (R28). -/
def elemCode (f : Nat) (bs : List Byte) (i : Nat) : Nat :=
  let b := elemBits f
  if b < 8 then byteAt bs (i * b / 8) / 2 ^ (i * b % 8) % 2 ^ b else fieldAt bs (i * (b / 8)) (b / 8)

/-- Value of a signed code of a floating-point format with `w` bits in all. -/
def fltVal (f : FFmt) (w : Nat) (hasInf : Bool) (c : Nat) : XVal :=
  let neg := bitOf c (w - 1)
  let m := c % 2 ^ (w - 1)
  if hasInf && m == f.top then .inf neg
  else if f.top ≤ m then .nan
  else if m = 0 then .zero neg
  else match codeVal f m with
    | .fin x e => .fin (if neg then -x else x) e
    | v => v

/-- Value of an element code; K4 looks its codebook up (R29 to R36). Reserved T2 codes are zero (R32). -/
def elemVal (f : Nat) (book : List Byte) (c : Nat) : XVal :=
  if f = 0 then fltVal fmtF4 4 false c
  else if f = 1 then .fin (sext 4 c) 0
  else if f = 2 then .fin (sext 8 (byteAt book c)) (-4)
  else if f = 3 then .fin (if c = 1 then 1 else if c = 3 then -1 else 0) 0
  else if f = 4 then fltVal fmtE4M3 8 false c
  else if f = 5 then fltVal fmtE5M2 8 true c
  else if f = 6 then .fin (sext 8 c) 0
  else if f = 8 then dec32 (bf16to32 c)
  else dec32 c

/-- UE8M0 (R39). -/
def ue8m0 (b : Nat) : XVal := if b = 0xFF then .nan else .fin 1 ((b : Int) - 127)
/-- UE4M3 (R40): a zero byte is an exact zero. -/
def ue4m3 (b : Nat) : XVal := if 0x7F ≤ b then .nan else codeVal fmtE4M3 b

/-- A block scale of SFMT 1 or 2 (R42). -/
def blockScale (sfmt b : Nat) : XVal := if sfmt = 1 then ue8m0 b else ue4m3 b

/-! ### Targets of the output converter (R54) -/

/-- An exact value converted to FP32, BF16, E4M3 or E5M2 under RNE (R54). -/
def outConv (f : Nat) (x : XVal) : Nat :=
  if f = 9 then rne32 x
  else
    let (g, w, nan) := if f = 8 then (fmtBF16, 16, 0x7FC0) else if f = 5 then (fmtE5M2, 8, 0x7E) else (fmtE4M3, 8, 0x7F)
    match x with
    | .nan => nan
    | .inf neg => if f = 4 then nan else b2n neg * 2 ^ (w - 1) + g.top
    | .zero neg => b2n neg * 2 ^ (w - 1)
    | .fin m e =>
      if m = 0 then 0
      else
        let (n, d) := ratio m e
        let c := roundCode g .rne n d
        b2n (decide (m < 0)) * 2 ^ (w - 1) + (if f = 4 then min 0x7E c else min g.top c)

/-- Codes packed into bytes (R28): half-used bits are 0. -/
def packCodes (f : Nat) (cs : List Nat) : List Byte :=
  let b := elemBits f
  leBytes (elemBytes f cs.length) (cs.foldr (fun c n => c % 2 ^ b + n * 2 ^ b) 0)

/-! ### Trees -/

/-- One level of a padded pairwise tree: absent nodes pass their partner unchanged (R92). -/
def treeLevel {α : Type} (op : α → α → α) : List (Option α) → List (Option α)
  | [] => []
  | [a] => [a]
  | a :: b :: rest =>
    (match a, b with
     | some x, some y => some (op x y)
     | some x, none => some x
     | none, y => y) :: treeLevel op rest

/-- The padded pairwise tree with `n` levels left. -/
def treeN {α : Type} (op : α → α → α) : Nat → List (Option α) → Option α
  | 0, l => l.headD none
  | n + 1, l => treeN op n (treeLevel op l)

/-- ptree of R92 over present leaves in order. Leaves missing at the end are absent. -/
def ptree {α : Type} (op : α → α → α) (l : List (Option α)) : Option α := treeN op (Nat.log2 (2 * l.length - 1)) l

end Sys2Proof.Machine
end

