-- ==== Sys2Proof/Machine/Quant.lean ====
section
/-!
DEFINITION. Block scales chosen to fit (R118), and the flags of an output in any format (R56, R57).
-/

namespace Sys2Proof.Machine

/-- Magnitude of a finite value as a ratio; 0 for any other. -/
def magOf : XVal → Nat × Nat
  | .fin m e => ratio m e
  | _ => (0, 1)

/-- a <= b for ratios. -/
def ratLe (a b : Nat × Nat) : Bool := decide (a.1 * b.2 ≤ b.1 * a.2)

/-- a * b for ratios. -/
def ratMul (a b : Nat × Nat) : Nat × Nat := (a.1 * b.1, a.2 * b.2)

/-- The scale code of a block under a condition that grows with the scale (R118, R119): the smallest scale of the format that meets it,
limited to the format's range. SFMT 1 is UE8M0, SFMT 2 UE4M3. -/
def fitCode (sfmt : Nat) (ok : Nat × Nat → Bool) : Nat :=
  if sfmt = 1 then ((List.range 0xFF).find? (fun c => ok (magOf (ue8m0 c)))).getD 0xFE
  else (((List.range 0x7E).map (· + 1)).find? (fun c => ok (magOf (ue4m3 c)))).getD 0x7E

/-- Code of the scale 1.0 (R118). -/
def scaleOne (sfmt : Nat) : Nat := if sfmt = 1 then 0x7F else 0x38

/-- Largest finite magnitude of a list of FP32 codes, as a code. -/
def amaxOf (l : List Nat) : Nat := (l.filter isFin32).foldl (fun m c => max m (c % 2 ^ 31)) 0

/-- The fitted scale code of a block with largest magnitude `amax` (an FP32 code), element bound q and second-level scale g (R118). -/
def fitScale (sfmt : Nat) (q g : Nat × Nat) (amax : Nat) : Nat :=
  if amax = 0 then scaleOne sfmt
  else fitCode sfmt (fun s => ratLe (magOf (dec32 amax)) (ratMul (ratMul q s) g))

/-- A block of FP32 codes quantised to E4M3 with a fitted UE8M0 scale, g = 1 (R182, R388): the scale code and the element codes. -/
def quantE4M3 (l : List Nat) : Nat × List Nat :=
  let c := fitScale 1 (448, 1) (1, 1) (amaxOf l)
  let s := rne32 (ue8m0 c)
  (c, l.map (fun x => outConv 4 (dec32 (fdiv x s))))

/-- A list cut into groups of `n` (the last may be shorter); `fuel` groups at most. -/
def groupsOf {α : Type} (n : Nat) : Nat → List α → List (List α)
  | 0, _ => []
  | fuel + 1, l => if l.isEmpty then [] else l.take n :: groupsOf n fuel (l.drop n)

/-- Code `c` of format f is NaN; is infinite. -/
def codeNan (f c : Nat) : Bool :=
  if f = 9 then isNan32 c else if f = 8 then decide (0x7F80 < c % 2 ^ 15) else if f = 5 then decide (0x7C < c % 128)
  else if f = 4 then c % 128 == 0x7F else false
def codeInf (f c : Nat) : Bool :=
  if f = 9 then isInf32 c else if f = 8 then c % 2 ^ 15 == 0x7F80 else if f = 5 then c % 128 == 0x7C else false

/-- The flags of output codes of format f in row-major order with `cols` columns; `inf i` says whether the FP32 value of element i is
infinite (R56). -/
def outFlags (f cols : Nat) (codes : List Nat) (inf : Nat → Bool) : Flags :=
  let marks := codes.zipIdx.map (fun p => (codeNan f p.1, codeInf f p.1 || inf p.2))
  match marks.findIdx? (fun m => m.1 || m.2) with
  | none => {}
  | some i => { nanf := marks.any Prod.fst, inff := marks.any Prod.snd, firstNan := (marks.getD i (false, false)).1
                firstRow := i / cols, firstCol := i % cols }

end Sys2Proof.Machine
end

