-- ==== Sys2Proof/Machine/Array.lean ====
section
/-!
DEFINITION. The arithmetic of the tile engine: operands as they are read (R28, R42 to R45, R81, R115), scaled partials (R38, R46), the order
of the additions (R88 to R97), the value handed out (R46, R97), stalls of the outlier adder (R74), and the range check's bound (R450).
-/

namespace Sys2Proof.Machine

/-! ### Scale descriptors (R42, R43) and pairings (R37) -/

def sdFmt (d : Nat) : Nat := bitsOf d 15 14
def sdDir (d : Nat) : Nat := bitsOf d 13 12
def sdBlk (d : Nat) : Nat := bitsOf d 11 4
def sdG (d : Nat) : Bool := bitOf d 3

/-- The combinations R43 permits. -/
def sdescOk (d : Nat) : Bool :=
  d % 8 == 0 &&
    (if sdFmt d = 0 then sdDir d == 0 && sdBlk d == 0
     else if sdFmt d = 3 then false
     else if sdDir d = 0 then sdBlk d == 16 || sdBlk d == 32 || sdBlk d == 64 || sdBlk d == 128
     else if sdDir d = 1 then sdBlk d % 8 == 0 && decide (8 ≤ sdBlk d) && decide (sdBlk d ≤ 128)
     else sdDir d == 2 && sdBlk d == 32)

/-- Formats an array operand may have (R27). -/
def arrayFmt (f : Nat) : Bool := decide (f ≤ 6)

/-- A format of eight bits, which runs in wide mode (R65). -/
def wideFmt (f : Nat) : Bool := f == 4 || f == 5 || f == 6

/-- The pairings of R37. -/
def pairOk (a b : Nat) : Bool :=
  (decide (a ≤ 3) && decide (b ≤ 3)) || ((a == 4 || a == 5) && (b == 4 || b == 5)) || (a == 6 && b == 6)

/-- MODE of R85: 0 full, 1 double, 2 wide. -/
def pairMode (a b : Nat) : Nat := if a = 3 ∧ b = 3 then 1 else if wideFmt a then 2 else 0

def ceilDiv (n d : Nat) : Nat := (n + d - 1) / d

/-- Smallest e with n at most 2^e. -/
def clog2 (n : Nat) : Nat := if n ≤ 1 then 0 else Nat.log2 (n - 1) + 1

/-! ### Operands -/

/-- A tensor in memory in operand terms: `rows` is its non-K extent (R44, R81). -/
structure Tensor where
  fmt : Nat
  addr : Nat
  ld : Nat
  trans : Bool
  sd : Nat
  saddr : Nat
  /-- FP32 second-level scale, 1.0 when it has none (R41). -/
  g : Nat
  /-- Address of its codebook and its contents (R31). -/
  bookAddr : Nat
  book : List Byte
  /-- Address of its outlier side list, if it has one. -/
  ol : Option Nat
  rows : Nat
  k : Nat
  deriving DecidableEq, Repr

/-- What an array product multiplies: code values, scales along K or of 32 × 32 blocks, scales along the other dimension, the second-level
scale, and side-list values not yet scaled. -/
structure View where
  val : Nat → Nat → XVal
  ks : Nat → Nat → XVal
  ns : Nat → XVal
  g : XVal
  outs : Nat → Nat → List XVal

/-- The value 1 of an absent scale. -/
def xOne : XVal := .fin 1 0

/-- Code of element (x, y) of a stored matrix with rows of `ld` bytes (R28). -/
def storedCode (rd : Nat → Nat → Nat) (fmt addr ld x y : Nat) : Nat :=
  let b := elemBits fmt
  rd (addr + x * ld + y * b / 8) ((b + 7) / 8) / 2 ^ (y * b % 8) % 2 ^ b

/-- Code of element (r, k) of a tensor (R81). -/
def Tensor.code (t : Tensor) (rd : Nat → Nat → Nat) (r k : Nat) : Nat :=
  if t.trans then storedCode rd t.fmt t.addr t.ld k r else storedCode rd t.fmt t.addr t.ld r k

/-- Index of the scale of element (r, k) in its array (R44, R81). -/
def Tensor.scaleIdx (t : Tensor) (r k : Nat) : Nat :=
  if sdDir t.sd = 0 then r * ceilDiv t.k (sdBlk t.sd) + k / sdBlk t.sd
  else if sdDir t.sd = 1 then r / sdBlk t.sd
  else if t.trans then k / 32 * ceilDiv t.rows 32 + r / 32
  else r / 32 * ceilDiv t.k 32 + k / 32

/-- Scale byte of element (r, k). -/
def Tensor.scaleByte (t : Tensor) (rd : Nat → Nat → Nat) (r k : Nat) : Nat := rd (t.saddr + t.scaleIdx r k) 1

/-- The scales enter before the accumulator: along K, or 32 × 32 (R46). -/
def Tensor.kScaled (t : Tensor) : Bool := decide (sdFmt t.sd ≠ 0) && decide (sdDir t.sd ≠ 1)

/-- The entries of a side-list record at position `at_` of its block (R115): a COUNT above 4 reads as 4. -/
def sideValues (rec at_ : Nat) : List XVal :=
  (List.range (min 4 (rec % 8))).filterMap (fun e =>
    if bitsOf rec (10 + 7 * e) (4 + 7 * e) = at_ then some (fltVal fmtE4M3 8 false (bitsOf rec (39 + 8 * e) (32 + 8 * e))) else none)

/-- A tensor as a view. -/
def Tensor.view (t : Tensor) (rd : Nat → Nat → Nat) : View :=
  { val := fun r k => elemVal t.fmt t.book (t.code rd r k)
    ks := fun r k => if t.kScaled then blockScale (sdFmt t.sd) (t.scaleByte rd r k) else xOne
    ns := fun r => if sdFmt t.sd ≠ 0 ∧ sdDir t.sd = 1 then (blockScale (sdFmt t.sd) (t.scaleByte rd r 0)).signed else xOne
    g := dec32 t.g
    outs := fun r k => match t.ol with
      | none => []
      | some a => sideValues (rd (a + 8 * (r * ceilDiv t.k 128 + k / 128)) 8) (k % 128) }

/-- The byte ranges of part [x0, x1) × [y0, y1) of a stored matrix. -/
def rectRanges (addr ld bits x0 x1 y0 y1 : Nat) : List (Nat × Nat) :=
  (List.range (x1 - x0)).map (fun d => (addr + (x0 + d) * ld + y0 * bits / 8, (y1 * bits + 7) / 8 - y0 * bits / 8))

/-- The ranges of the codes of rows [r0, r1) and K positions [k0, k1). -/
def Tensor.codeRanges (t : Tensor) (r0 r1 k0 k1 : Nat) : List (Nat × Nat) :=
  if t.trans then rectRanges t.addr t.ld (elemBits t.fmt) k0 k1 r0 r1 else rectRanges t.addr t.ld (elemBits t.fmt) r0 r1 k0 k1

/-- The ranges of their scales. -/
def Tensor.scaleRanges (t : Tensor) (r0 r1 k0 k1 : Nat) : List (Nat × Nat) :=
  if sdFmt t.sd = 0 ∨ r1 ≤ r0 ∨ k1 ≤ k0 then []
  else (((List.range (r1 - r0)).flatMap (fun d =>
    [t.scaleIdx (r0 + d) k0, t.scaleIdx (r0 + d) ((k0 + k1) / 2), t.scaleIdx (r0 + d) (k1 - 1)]
      ++ (List.range ((k1 - k0) / 16)).map (fun e => t.scaleIdx (r0 + d) (k0 + 16 * e)))).eraseDups).map (fun i => (t.saddr + i, 1))

/-- The ranges of their side-list records. -/
def Tensor.sideRanges (t : Tensor) (r0 r1 k0 k1 : Nat) : List (Nat × Nat) :=
  match t.ol with
  | none => []
  | some a => if k1 ≤ k0 then [] else (List.range (r1 - r0)).map (fun d =>
      (a + 8 * ((r0 + d) * ceilDiv t.k 128 + k0 / 128), 8 * ((k1 - 1) / 128 + 1 - k0 / 128)))

/-- Bytes of its scale array (R44). -/
def Tensor.nscale (t : Tensor) : Nat :=
  if sdFmt t.sd = 0 then 0
  else if sdDir t.sd = 0 then t.rows * ceilDiv t.k (sdBlk t.sd)
  else if sdDir t.sd = 1 then ceilDiv t.rows (sdBlk t.sd)
  else ceilDiv t.rows 32 * ceilDiv t.k 32

/-- Every range a tensor occupies with its scales, side list and codebook. -/
def Tensor.allRanges (t : Tensor) : List (Nat × Nat) :=
  t.codeRanges 0 t.rows 0 t.k ++ (if sdFmt t.sd = 0 then [] else [(t.saddr, t.nscale)])
    ++ (match t.ol with | some a => [(a, 8 * t.rows * ceilDiv t.k 128)] | none => []) ++ (if t.fmt = 2 then [(t.bookAddr, 16)] else [])

/-! ### Products -/

/-- An array product: extents, shape code, mode, operands, the value each element starts from (none: +0), and TREEK_M in tree-K mode.
`free`: the operands change under the command, so that accumulator values are free, numbered from there (DESIGN CHOICE, log 34). -/
structure TileProd where
  m : Nat
  n : Nat
  k : Nat
  shape : Nat
  mode : Nat
  a : View
  b : View
  init : Option (Nat → Nat → Nat)
  treek : Option Nat
  free : Option Nat

/-- Cubes grouped along K (R63). -/
def TileProd.g (p : TileProd) : Nat := 2 ^ p.shape
/-- K positions of a unit (R88). -/
def TileProd.unitK (p : TileProd) : Nat := if p.mode = 1 then 64 else 32
def TileProd.kshape (p : TileProd) : Nat := p.g * p.unitK
def TileProd.nshape (p : TileProd) : Nat := 64 / p.g
/-- Loads L, column tiles, 8-row blocks (R66). -/
def TileProd.loads (p : TileProd) : Nat := ceilDiv p.k p.kshape
def TileProd.tiles (p : TileProd) : Nat := ceilDiv p.n p.nshape
def TileProd.blocks (p : TileProd) : Nat := ceilDiv p.m 8

/-- The half-sum of the 16 positions from `k0` with its scales (R38, R45, R46): none when every position lies beyond K. -/
def TileProd.half (p : TileProd) (i j k0 : Nat) : Option XVal :=
  if p.k ≤ k0 then none
  else
    let h := (List.range (min 16 (p.k - k0))).foldl (fun (h : XVal) d => h.add ((p.a.val i (k0 + d)).mul (p.b.val j (k0 + d))).unsigned) (.fin 0 0)
    some ((h.mul (p.a.ks i k0)).mul (p.b.ks j k0))

/-- The exact partial of unit u (R88): none when its K-blocks lie beyond K. -/
def TileProd.unit (p : TileProd) (i j u : Nat) : Option XVal :=
  match (List.range (p.unitK / 16)).filterMap (fun h => p.half i j (u * p.unitK + 16 * h)) with
  | [] => none
  | x :: xs => some (xs.foldl XVal.add x)

/-- A node of the cube adder tree, and a step of an accumulator (R47, R89). -/
def taddX (a b : XVal) : XVal := dec32 (trunc32 (a.add b))

/-- T_l of load l (R89, R90). -/
def TileProd.load (p : TileProd) (i j l : Nat) : XVal :=
  (ptree taddX ((List.range p.g).map (fun q => p.unit i j (p.g * l + q)))).getD (.fin 0 0)

/-- The chain over loads [l0, l1) from a start (R91). -/
def TileProd.chain (p : TileProd) (i j start l0 l1 : Nat) : Nat :=
  (List.range (l1 - l0)).foldl (fun a d => trunc32 ((dec32 a).add (p.load i j (l0 + d)))) start

/-- K-segments, and loads in each (R92). -/
def TileProd.segments (p : TileProd) (m : Nat) : Nat := ceilDiv (ceilDiv p.k 32) (2 ^ m)
def TileProd.segLoads (p : TileProd) (m : Nat) : Nat := 2 ^ m * 32 / p.kshape

/-- The accumulated value of element (i, j): R91, or R92 with CIN added after the root. -/
def TileProd.acc (p : TileProd) (i j : Nat) : Nat :=
  match p.treek with
  | none => p.chain i j (match p.init with | some c => c i j | none => 0) 0 p.loads
  | some m =>
    let root := (ptree fadd ((List.range (p.segments m)).map (fun t =>
      some (p.chain i j 0 (t * p.segLoads m) (min p.loads ((t + 1) * p.segLoads m)))))).getD 0
    match p.init with
    | some c => fadd (c i j) root
    | none => root

/-- Side-list values o of A at (i, k) and of B at (k, j), scaled (R116). -/
def TileProd.oA (p : TileProd) (i k : Nat) : List XVal := (p.a.outs i k).map (fun o => o.mul (p.a.ks i k))
def TileProd.oB (p : TileProd) (j k : Nat) : List XVal := (p.b.outs j k).map (fun o => o.mul (p.b.ks j k))

/-- The exact products of R73 for element (i, j), in the order of R96. -/
def TileProd.corrections (p : TileProd) (i j : Nat) : List XVal :=
  (List.range p.k).flatMap (fun k =>
    let x := p.oA i k
    let y := p.oB j k
    (x.map (fun o => (o.mul ((p.b.val j k).mul (p.b.ks j k))).unsigned) ++ y.map (fun o => (((p.a.val i k).mul (p.a.ks i k)).mul o).unsigned))
      ++ x.flatMap (fun o => y.map (fun o' => (o.mul o').unsigned)))

/-- The value of step 2 of R97: the correction element, when it has received a product, is added last. -/
def TileProd.value (p : TileProd) (i j : Nat) : Nat :=
  match p.free with
  | some n => (Config.freeWord (n + i * p.n + j)).toNat % 2 ^ 32
  | none =>
    match p.corrections i j with
    | [] => p.acc i j
    | cs => tadd (p.acc i j) (cs.foldl (fun c x => trunc32 ((dec32 c).add x)) 0)

/-- The exact value of step 3 of R97. -/
def TileProd.exact (p : TileProd) (i j : Nat) : XVal :=
  ((((dec32 (p.value i j)).mul (p.a.ns i)).mul (p.b.ns j)).mul p.a.g).mul p.b.g

/-- The FP32 value of an element (R56, R101). -/
def TileProd.f32 (p : TileProd) (i j : Nat) : Nat := rne32 (p.exact i j)

/-! ### The outlier adder's time (R74) -/

/-- Side-list entries in rows [r0, r1) and K positions [k0, k1). -/
def countOuts (o : Nat → Nat → List XVal) (r0 r1 k0 k1 : Nat) : Nat :=
  (List.range (r1 - r0)).foldl (fun n d => (List.range (k1 - k0)).foldl (fun n e => n + (o (r0 + d) (k0 + e)).length) n) 0

/-- Cycles a stream cycle pauses: block blk, tile, load. -/
def TileProd.outlierStall (p : TileProd) (blk tile load : Nat) : Nat :=
  ((List.range 8).map (fun q =>
    let k0 := min p.k (load * p.kshape + p.unitK * (q % p.g))
    let k1 := min p.k (k0 + p.unitK)
    let j0 := min p.n (tile * p.nshape + 8 * (q / p.g))
    let j1 := min p.n (j0 + 8)
    let i0 := 8 * blk
    let i1 := min p.m (i0 + 8)
    let nX := (List.range (k1 - k0)).foldl (fun n e =>
      n + countOuts p.a.outs i0 i1 (k0 + e) (k0 + e + 1) * countOuts p.b.outs j0 j1 (k0 + e) (k0 + e + 1)) 0
    ceilDiv (8 * countOuts p.a.outs i0 i1 k0 k1 + 8 * countOuts p.b.outs j0 j1 k0 k1 + nX) 128 - 1)).foldl max 0

/-! ### The range check (R450) -/

/-- a below b, for a.1 * 2^a.2. -/
def dyLt (a b : Int × Int) : Bool := decide ((dyAdd a.1 a.2 (-b.1) b.2).1 < 0)

/-- The largest magnitude of a list; none when a value is NaN or infinite. -/
def absMax : List XVal → Option (Int × Int)
  | [] => some (0, 0)
  | x :: xs =>
    match x, absMax xs with
    | .fin m e, some y => some (if dyLt y ((m.natAbs : Int), e) then ((m.natAbs : Int), e) else y)
    | .zero _, y => y
    | _, _ => none

/-- The smallest power of two not below a magnitude; 0 stays 0. -/
def pow2Up (x : Int × Int) : Int × Int :=
  if x.1 = 0 then (0, 0)
  else let l := Nat.log2 x.1.natAbs; if 2 ^ l = x.1.natAbs then (1, x.2 + l) else (1, x.2 + l + 1)

/-- The terms of S for the 8 × 8 block of rows [i0, i1) and columns [j0, j1); none when a value among them is special. -/
def TileProd.boundTerms (p : TileProd) (i0 i1 j0 j1 : Nat) : List (Option (Int × Int)) :=
  let rows := (List.range (i1 - i0)).map (· + i0)
  let cols := (List.range (j1 - j0)).map (· + j0)
  let magA (k : Nat) := absMax (rows.map (fun i => (p.a.val i k).mul (p.a.ks i k)))
  let magB (k : Nat) := absMax (cols.map (fun j => (p.b.val j k).mul (p.b.ks j k)))
  let times (x y : Option (Int × Int)) : Option (Int × Int) := match x, y with
    | some a, some b => some (a.1 * b.1, a.2 + b.2)
    | _, _ => none
  let one (x : XVal) := absMax [x]
  let largest (l : List (Option (Int × Int))) : Option (Int × Int) :=
    l.foldl (fun m x => match m, x with | some a, some b => some (if dyLt a b then b else a) | _, _ => none) (some (0, 0))
  let units := (List.range (ceilDiv p.k p.unitK)).map (fun u =>
    let ks := (List.range (min p.unitK (p.k - u * p.unitK))).map (· + u * p.unitK)
    times (some ((p.unitK : Int), 0)) (times (largest (ks.map magA)) (largest (ks.map magB))))
  let cin := match p.init with
    | some c => [absMax (rows.flatMap (fun i => cols.map (fun j => dec32 (c i j))))]
    | none => []
  let outl := (List.range p.k).flatMap (fun k =>
    let x := rows.flatMap (fun i => p.oA i k)
    let y := cols.flatMap (fun j => p.oB j k)
    x.map (fun o => times (one o) (magB k)) ++ y.map (fun o => times (one o) (magA k)) ++ x.flatMap (fun o => y.map (fun o' => times (one o) (one o'))))
  units ++ cin ++ outl

/-- The bound S from its terms, exact; none when the block passes without a check. -/
def boundOf (terms : List (Option (Int × Int))) : Option (Int × Int) :=
  match terms.foldl (fun (t : Option (Int × Int)) x => match t, x with
      | some a, some b => let y := pow2Up b; some (dyAdd a.1 a.2 y.1 y.2)
      | _, _ => none) (some (0, 0)) with
  | some s => if dyLt ((2 ^ 24 - 1 : Int), 104) s then none else some s
  | none => none

/-- Some finite element of the block lies above S + S * 2^-20. -/
def TileProd.above (p : TileProd) (i0 i1 j0 j1 : Nat) (s : Int × Int) : Bool :=
  (List.range (i1 - i0)).any (fun d => (List.range (j1 - j0)).any (fun e =>
    match dec32 (p.value (i0 + d) (j0 + e)) with
    | .fin m x => dyLt (s.1 * (2 ^ 20 + 1), s.2 - 20) ((m.natAbs : Int), x)
    | _ => false))

end Sys2Proof.Machine
end

