-- ==== Sys2Proof/Machine/ConvNum.lean ====
section
/-!
DEFINITION. The numbers of the conversion engine: rotation (R107, R108), outlier selection (R112, R113), scales (R117 to R120), quantisation
(R49 to R51, R55, R121), side-list records (R115), the order of SUMSQ (R123) and the next scales of a history (R125).
-/

namespace Sys2Proof.Machine

/-! ### Rotation -/

/-- Rotation block size of an RBLK code; 0 is none (R131). -/
def rblkSize (c : Nat) : Nat := if c = 0 then 0 else 16 * 2 ^ c

/-- c_n (R108). -/
def rotFactor (n : Nat) : Nat := if n = 32 then 0x3E3504F3 else if n = 64 then 0x3E000000 else if n = 128 then 0x3DB504F3 else 0x3D800000

/-- d(k) is -1 (R107). -/
def rotNeg (seed k : Nat) : Bool := bitOf (mix64n (seed ^^^ k)) 63

/-- One butterfly level (R108). -/
def butterfly (j : Nat) (x : List Nat) : List Nat :=
  (List.range x.length).map (fun a =>
    if bitOf a j then fsub (x.getD (a - 2 ^ j) 0) (x.getD a 0) else fadd (x.getD a 0) (x.getD (a + 2 ^ j) 0))

/-- The butterflies of a block of 2^m values. -/
def butterflies (m : Nat) (x : List Nat) : List Nat := (List.range m).foldl (fun y j => butterfly j y) x

/-- The signs of a block that starts at position k0. -/
def rotSigns (seed k0 : Nat) (x : List Nat) : List Nat := x.zipIdx.map (fun p => if rotNeg seed (k0 + p.2) then fneg p.1 else p.1)

/-- One block of n values from position k0, rotated or rotated back (R108). -/
def rotBlock (n seed : Nat) (inv : Bool) (k0 : Nat) (x : List Nat) : List Nat :=
  let scale (y : List Nat) : List Nat := (butterflies (Nat.log2 n) y).map (fmul (rotFactor n))
  if inv then rotSigns seed k0 (scale x) else scale (rotSigns seed k0 x)

/-- K extent after padding (R109). -/
def padK (n k : Nat) : Nat := if n = 0 then k else ceilDiv k n * n

/-- A row padded and rotated (R108, R109). -/
def rotRow (n seed : Nat) (inv : Bool) (x : List Nat) : List Nat :=
  if n = 0 then x
  else ((groupsOf n (padK n x.length) (x ++ List.replicate (padK n x.length - x.length) 0)).zipIdx).flatMap (fun p =>
    rotBlock n seed inv (n * p.2) p.1)

/-! ### Outliers -/

/-- Candidates, selected positions and overflow of one outlier block (R112, R113). -/
structure OutBlock where
  cands : List Nat
  picks : List Nat
  excess : Bool
  deriving DecidableEq, Repr

/-- The threshold of a block (R112). -/
def outThr (othr : Nat) (x : List Nat) : Option Nat :=
  let f := x.filter isFin32
  let rms := if f.isEmpty then 0 else fsqrt (fdiv (f.foldl (fun a v => fadd a (fmul v v)) 0) (natToF32 f.length))
  if rms % 2 ^ 31 = 0 then none else some (fmul othr rms)

/-- The selection in the block of a row that starts at position k0. -/
def selectBlock (othr ocap k0 : Nat) (x : List Nat) : OutBlock :=
  match outThr othr x with
  | none => { cands := [], picks := [], excess := false }
  | some t =>
    let c := (List.range x.length).filter (fun k => isFin32 (x.getD k 0) && flt t (fabs (x.getD k 0)))
    let mag (k : Nat) : Nat := fabs (x.getD k 0)
    let ahead (k : Nat) : Nat := (c.filter (fun j => decide (mag k < mag j) || (mag j == mag k && decide (j < k)))).length
    { cands := c.map (k0 + ·), picks := (c.filter (fun k => decide (ahead k < ocap))).map (k0 + ·), excess := decide (ocap < c.length) }

/-- The selection in a row, by block. -/
def selectRow (othr ocap : Nat) (x : List Nat) : List OutBlock :=
  ((groupsOf 128 x.length x).zipIdx).map (fun p => selectBlock othr ocap (128 * p.2) p.1)

/-! ### Scales -/

/-- Largest positive entry of a codebook and magnitude of the most negative one, in 1/16; 0 where there is none (R119). -/
def bookEnds (book : List Byte) : Nat × Nat :=
  (book.take 16).foldl (fun (p : Nat × Nat) b =>
    let n := sext 8 b.toNat
    if 0 < n then (max p.1 n.toNat, p.2) else (p.1, max p.2 (-n).toNat)) (0, 0)

/-- Q of a target as a ratio (R117, R120). -/
def convQ (fmt : Nat) (book : List Byte) : Nat × Nat :=
  if fmt = 2 then (max (bookEnds book).1 (bookEnds book).2, 16)
  else ([6, 7, 0, 1, 448, 57344, 127].getD fmt 1, 1)

/-- The fitted scale of a block from its finite values that are no candidates (R118, R119). -/
def fitBlock (sfmt fmt : Nat) (book : List Byte) (g : Nat) (vals : List Nat) : Nat :=
  let gr := magOf (dec32 g)
  if fmt = 2 then
    let xp := amaxOf (vals.filter (fun v => !bitOf v 31))
    let xn := amaxOf (vals.filter (fun v => bitOf v 31))
    let (ep, en) := bookEnds book
    let cond (e x : Nat) (sc : Nat × Nat) : Bool := e == 0 || x == 0 || ratLe (magOf (dec32 x)) (ratMul (ratMul (e, 16) sc) gr)
    if (ep = 0 ∨ xp = 0) ∧ (en = 0 ∨ xn = 0) then scaleOne sfmt
    else fitCode sfmt (fun sc => cond ep xp sc && cond en xn sc)
  else fitScale sfmt (convQ fmt book) gr (amaxOf vals)

/-- The computed g of GMODE 0b10 (R120). -/
def fitG (sfmt fmt : Nat) (book : List Byte) (amax : Nat) : Nat :=
  let q := convQ fmt book
  if amax = 0 ∨ q.1 = 0 then 0x3F800000
  else
    let (n, d) := magOf (dec32 amax)
    min inf32 (roundCode fmtFP32 .rne (n * q.2) (d * q.1 * (if sfmt = 2 then 448 else 1)))

/-- The scale of the next step (R125): `excess` says that the block's clipped share exceeded the threshold. A used scale that is NaN or zero
gives the fitted one (DEDUCED, log 35). -/
def nextScale (sfmt fit cur : Nat) (excess : Bool) : Nat :=
  if sfmt = 1 then
    if cur = 0xFF then fit else if excess then max fit cur else max fit (cur - 1)
  else if cur = 0 ∨ 0x7F ≤ cur then fit
  else if excess then max fit cur
  else
    let (n, d) := magOf (ue4m3 cur)
    max fit ((((List.range 0x7E).map (· + 1)).find? (fun c => ratLe (n, 2 * d) (magOf (ue4m3 c)))).getD 0x7E)

/-! ### Quantisation -/

/-- The codebook entry for an exact value m * 2^e (R49 to R51): index and whether it clips. -/
def quantK4 (mode : RMode) (book : List Byte) (m e : Int) : Nat × Bool :=
  let ent (i : Nat) : Int := sext 8 (byteAt book i)
  let idx := List.range 16
  -- the value and an entry in units of 2^(min e (-4))
  let u := min e (-4)
  let y := m * 2 ^ (e - u).toNat
  let v (i : Nat) : Int := ent i * 2 ^ (-4 - u).toNat
  let best (p : Nat → Nat → Bool) (l : List Nat) : Nat := l.foldl (fun b i => if p i b then i else b) (l.headD 0)
  let lowest := best (fun i b => decide (v i < v b)) idx
  let highest := best (fun i b => decide (v b < v i)) idx
  let nearest := best (fun i b => decide ((y - v i).natAbs < (y - v b).natAbs)) idx
  if y < v lowest then (lowest, true)
  else if v highest < y then (highest, true)
  else match mode with
    | .sr r16 =>
      let lo := best (fun i b => decide (v b < v i)) (idx.filter (fun i => decide (v i ≤ y)))
      let hs := idx.filter (fun i => decide (y < v i))
      if v lo = y ∨ hs.isEmpty then (lo, false)
      else
        let hi := best (fun i b => decide (v i < v b)) hs
        if 65536 ≤ (y - v lo).natAbs * 65536 / (v hi - v lo).natAbs + r16 then (hi, false) else (lo, false)
    | _ => (nearest, false)

/-- A magnitude n/d on the integers of T2 under R49: ties go down. -/
def roundT2 (mode : RMode) (n d : Nat) : Nat :=
  match mode with
  | .sr _ => roundNat mode n d
  | _ => let k := n / d; if 2 * (n % d) ≤ d then k else k + 1

/-- The exact value m * 2^e rounded and clipped to a target: code, clipped (R49 to R51). `neg` is its sign, also of a zero. -/
def quantFin (fmt : Nat) (book : List Byte) (mode : RMode) (neg : Bool) (m e : Int) : Nat × Bool :=
  let (n, d) := ratio m e
  let flt (f : FFmt) (w : Nat) : Nat × Bool :=
    let c := if n = 0 then 0 else roundCode f mode n d
    (b2n neg * 2 ^ (w - 1) + min (f.top - 1) c, decide (f.top ≤ c))
  let int (w k : Nat) : Nat × Bool :=
    let top := if neg then 2 ^ (w - 1) else 2 ^ (w - 1) - 1
    let v := min top k
    (if neg then (2 ^ w - v) % 2 ^ w else v, decide (top < k))
  if fmt = 0 then flt fmtF4 4
  else if fmt = 1 then int 4 (roundNat mode n d)
  else if fmt = 2 then quantK4 mode book m e
  else if fmt = 3 then (let k := roundT2 mode n d; (if k = 0 then 0 else if neg then 3 else 1, decide (1 < k)))
  else if fmt = 4 then flt fmtE4M3 8
  else if fmt = 5 then flt fmtE5M2 8
  else if fmt = 6 then int 8 (roundNat mode n d)
  else flt fmtBF16 16

/-- The largest finite code of a sign (R51, R55). -/
def largestCode (fmt : Nat) (book : List Byte) (neg : Bool) : Nat := (quantFin fmt book .rne neg (if neg then -1 else 1) 200).1

/-- NaN converted (R55). -/
def nanCode (fmt : Nat) (book : List Byte) : Nat :=
  if fmt = 2 then
    (List.range 16).foldl (fun b i => if (sext 8 (byteAt book i)).natAbs < (sext 8 (byteAt book b)).natAbs then i else b) 0
  else if fmt = 4 then 0x7F else if fmt = 5 then 0x7E else if fmt = 8 then 0x7FC0 else 0

/-- Element x (an FP32 code) with combined scale dv, quantised: code, clipped (R121, R122, R55). -/
def quantElem (fmt : Nat) (book : List Byte) (mode : RMode) (x dv : Nat) : Nat × Bool :=
  let y := fdiv x dv
  if isNan32 x || isNan32 y then (nanCode fmt book, false)
  else if isInf32 x then
    (if fmt = 4 then (0x7F, false)
     else if fmt = 5 then (if bitOf x 31 then 0xFC else 0x7C, false)
     else if fmt = 8 then (if bitOf x 31 then 0xFF80 else 0x7F80, false)
     else (largestCode fmt book (bitOf x 31), true))
  else match dec32 y with
    | .fin m e => quantFin fmt book mode (decide (m < 0)) m e
    | .zero neg => quantFin fmt book mode neg 0 0
    | .inf neg => (largestCode fmt book neg, true)
    | .nan => (nanCode fmt book, false)

/-- A side-list record from positions in the block and codes, in ascending order (R115). -/
def sideRecord (l : List (Nat × Nat)) : Nat :=
  (l.zipIdx).foldl (fun w p => w + p.1.1 * 2 ^ (4 + 7 * p.2) + p.1.2 * 2 ^ (32 + 8 * p.2)) l.length

/-! ### Sums -/

/-- The order of SUMSQ (R123): groups of 128 along K summed one after another, then the padded tree over all groups; `pick` says what an
element adds. -/
def groupSum (rows : List (List Nat)) (pick : Nat → Nat → Nat → Option Nat) : Nat :=
  (ptree fadd ((rows.zipIdx).flatMap (fun p => ((groupsOf 128 p.1.length p.1).zipIdx).map (fun g =>
    some ((g.1.zipIdx).foldl (fun a v => match pick v.1 p.2 (128 * g.2 + v.2) with
      | some t => fadd a t
      | none => a) 0))))).getD 0

end Sys2Proof.Machine
end

