-- ==== Sys2Proof/Machine/Rails.lean ====
section
/-!
DEFINITION. Rail requests (R622) and the fused voltages (R489): frames to the tray and the requested voltage of a compute rail.
-/

namespace Sys2Proof.Machine

/-- One byte of the CRC-8 of R622: polynomial 0x07, most significant bit first. -/
def crc8Byte (c b : Nat) : Nat :=
  (List.range 8).foldl (fun x _ => if 128 ≤ x then (x * 2) % 256 ^^^ 7 else x * 2) (c ^^^ b)

/-- CRC-8 over bits [31:8] of a frame, given as a 24-bit number (R622). -/
def crc8 (n : Nat) : Nat := crc8Byte (crc8Byte (crc8Byte 0 (n / 65536 % 256)) (n / 256 % 256)) (n % 256)

/-- A rail-request frame (R622): rail, voltage in mV, SEQ. -/
def railFrame (rail mv seq : Nat) : Nat :=
  let hi := 0xA * 2 ^ 20 + (rail % 32) * 2 ^ 15 + (mv * 2 / 5 % 1024) * 32 + seq % 32
  hi * 256 + crc8 hi

/-- The instant in picoseconds: boundaries passed and the phase of the present beat. -/
def State.now (s : State) : Nat := s.ticks * 1000000 + s.ps

/-- A frame that sets `rail` to `mv` goes out and waits for its acknowledgement; none is sent during FLOW_STOP (R627). -/
def State.sendFrame (s : State) (rail mv repeats : Nat) : State :=
  if s.flowStop then s
  else
    let q := (s.power.rqSeq + 1) % 32
    ({ s with power := { s.power with
        rqSeq := q
        frames := s.power.frames.filter (fun f => f.rail != rail) ++ [{ rail := rail, mv := mv, since := s.ticks, repeats := repeats }] } } : State).send
      (.rail (railFrame rail mv q))

/-- Requested voltage in mV, frequency step of 50 MHz and thermal state of compute die k (R512). -/
def State.volt (s : State) (k : Nat) : Nat := s.fld (A.PMC_DIE k) 47 32
def State.fstep (s : State) (k : Nat) : Nat := s.fld (A.PMC_DIE k) 23 16
def State.tstate (s : State) (k : Nat) : Nat := s.fld (A.PMC_DIE k) 9 8

/-- V(f), the fused voltage of die k in mV at a frequency step: a free value in the steps and bounds of R489. -/
def vOf (k f : Nat) : Nat := if f = 30 then 650 + 25 * (Config.vf k f % 5) else 600 + 25 * (Config.vf k f % 9)

/-- The voltage die k runs at for frequency step f: V(f) and the steps held for storms, at most 0.80 V (R489, R492). -/
def State.vTarget (s : State) (k f : Nat) : Nat := min 800 (vOf k f + 25 * smapGet (fun _ => 0) s.power.stormSteps k)

/-- One voltage step of die k toward `mv`: the request changes by 25 mV and its frame goes out (R489). -/
def State.voltStep (s : State) (k mv : Nat) : State :=
  let v := s.volt k
  let v1 := if v < mv then min mv (v + 25) else max mv (v - 25)
  ((s.setFld (A.PMC_DIE k) 47 32 v1).count (A.PMC 0x10)).sendFrame k v1 0

end Sys2Proof.Machine
end

