-- ==== Sys2Proof/Machine/TraceLog.lean ====
section
/-!
DEFINITION. The cluster trace buffer (R559 to R561).
-/

namespace Sys2Proof.Machine

/-- Records a trace buffer holds. -/
def traceSize : Nat := 65536

/-- A trace buffer after a cold reset. -/
def TraceBuf.init : TraceBuf := { recs := [], lost := 0, sinceStart := 0, written := 0, flushed := 0, upto := 0 }

def State.traceBuf (s : State) (k : Nat) : TraceBuf := smapGet (fun _ => TraceBuf.init) s.traces k
def State.setTraceBuf (s : State) (k : Nat) (b : TraceBuf) : State :=
  { s with traces := smapPut (fun _ => TraceBuf.init) s.traces k b }

/-- The 16 bytes of a record (R560). CYC, the cluster cycles elapsed in the beat, is a free value (DESIGN CHOICE, log 8): the model counts none. -/
def traceBytes (beat cyc kind core queue opcode info : Nat) : List Byte :=
  leBytes 6 beat ++ leBytes 2 cyc ++ leBytes 1 kind ++ leBytes 1 core ++ leBytes 3 queue ++ leBytes 1 opcode ++ leBytes 2 info

/-- A record enters the buffer: the newest 65,536 stay (R559). -/
def TraceBuf.push (b : TraceBuf) (r : List Byte) : TraceBuf :=
  let l := b.recs ++ [r]
  { b with recs := l.drop (l.length - traceSize), sinceStart := b.sinceStart + 1, written := b.written + 1 }

/-- TEL_TR_WR shows the low halves of the counts (R574). -/
def State.traceWr (s : State) (k : Nat) : State :=
  let b := s.traceBuf k
  s.setReg (A.TR_WR k) (b.flushed % 2 ^ 32 * 2 ^ 32 + b.written % 2 ^ 32)

/-- A record of cluster k is written when its source is enabled; in mode STOP a full buffer refuses and counts it, and the first
record accepted again is LOST (R559, R560). -/
def State.trace (s : State) (k kind core queue opcode info : Nat) : State :=
  if kind < 0x50 && s.fld (A.TR_CTL k) (8 + kind / 16) (8 + kind / 16) == 0 then s
  else
    let b := s.traceBuf k
    if s.fld (A.TR_CTL k) 3 3 = 1 ∧ traceSize ≤ b.sinceStart then s.setTraceBuf k { b with lost := b.lost + 1 }
    else
      let (n, s1) := s.draw
      let cyc := (Config.freeWord n).toNat % 65536
      let b1 := if b.lost = 0 then b
        else { (b.push (traceBytes s.beat cyc 0x50 0xFF 0 0 (min 65535 b.lost))) with lost := 0 }
      (s1.setTraceBuf k (b1.push (traceBytes s.beat cyc kind core queue opcode info))).traceWr k

/-- A record of a logical core. -/
def State.traceCore (s : State) (c kind queue opcode info : Nat) : State := s.trace (c / 16) kind (c % 16) queue opcode info

/-- Device address of cluster k's trace flush area (R255). -/
def traceArea (k : Nat) : Nat := sysAddr (k / 8) (0x800000 + (k % 8) * 0x100000)

/-- A flush of cluster k's buffer (R561): every record written since the last flush and still held goes to its place in the flush area;
then the FLUSH record and FLUSH_DONE. -/
def State.traceFlush (s : State) (k : Nat) : State :=
  let b := s.traceBuf k
  let first := max b.upto (b.written - b.recs.length)
  let n := b.written - first
  let s1 := ((b.recs.drop (b.recs.length - n)).zipIdx).foldl (fun (t : State) (x : List Byte × Nat) =>
    t.sealWrite (traceArea k + 16 * ((first + x.2) % traceSize)) x.1) s
  let s2 := s1.setTraceBuf k { b with flushed := b.flushed + n, upto := b.written }
  ((s2.trace k 0x60 0xFF 0 0 (min 65535 n)).traceWr k).setFld (A.TR_CTL k) 1 1 1

end Sys2Proof.Machine
end

