-- ==== Sys2Proof/Machine/Escapement.lean ====
section
/-!
DEFINITION. The escapement (R474 to R486): the ledger of current tickets, requests and grants, phase learning and pre-booking.
-/

namespace Sys2Proof.Machine

/-! ### The ledger -/

/-- Default average ceilings in tickets (R474). -/
def avgCeilDefault : List Nat :=
  [5900, 5900, 5900, 5900, 1200, 1200, 1200, 1200, 900, 900, 900, 900, 900, 900, 900, 900, 3600, 1600, 80]

/-- Window ceiling of a rail (R474). -/
def winCeil (r : Nat) : Nat := railWinCeil.getD r 0

/-- Average ceiling of a rail: AVG_CEILS of the OD (R508), by default R474's. -/
def State.avgCeil (s : State) (r : Nat) : Nat :=
  let v := smapGet (fun _ => ([] : List Byte)) s.od (0x2011 * 256)
  if v.isEmpty then avgCeilDefault.getD r 0 else fieldAt v (2 * r) 2

/-- Effective average ceiling of a rail (R496, R497). -/
def State.avgEff (s : State) (r : Nat) : Nat := smapGet s.avgCeil s.esc.avgEff r

/-- Tickets a booking has in window w. -/
def Booking.at_ (b : Booking) (w : Nat) : Nat :=
  if decide (b.start ≤ w) && (match b.stop with | none => true | some e => decide (w < e)) then b.amount else 0

/-- A booking without end, or one that is carried as HELD while more than 63 of its windows remain (R476). -/
def Booking.carriedHeld (b : Booking) (w : Nat) : Bool := match b.stop with | none => true | some e => decide (max w b.start + 63 < e)

/-- Tickets booked on rail r in window w (R476). -/
def State.booked (s : State) (r w : Nat) : Nat :=
  (s.esc.bookings.filter (fun b => b.rail == r)).foldl (fun n b => n + b.at_ w) 0

/-- Tickets booked in the ten windows from w on. -/
def State.booked10 (s : State) (r w : Nat) : Nat := (List.range 10).foldl (fun n j => n + s.booked r (w + j)) 0

/-- A booking of `amt` tickets from window `w` for `dur` windows (none: without end) fits (R476): the window ceiling in every calendar
window of its duration, and ten times the effective average ceiling in every run of ten windows that includes one. -/
def State.fits (s : State) (r amt w : Nat) (dur : Option Nat) : Bool :=
  let last := s.ticks + 63
  let e := match dur with | none => last + 1 | some d => min (w + d) (last + 1)
  (List.range (e - w)).all (fun k => decide (s.booked r (w + k) + amt ≤ winCeil r))
    && (List.range (e - w + 9)).all (fun k =>
      let r0 := w + k - 9
      let overlap := min (r0 + 10) e - max r0 w
      decide (s.booked10 r r0 + amt * overlap ≤ 10 * s.avgEff r))

/-- A request that a request of its class, or a SYSTEM request for a WORK one, waits ahead of on its rail (R478). -/
def State.heldBack (s : State) (q : EscReq) : Bool :=
  s.esc.waiting.any (fun x => x.rail == q.rail && (x.sys || !q.sys))

/-- Every booking of an owner ends with the present window, and its requests are withdrawn (R475, R480). -/
def State.release (s : State) (o : Owner) : State :=
  let stop (b : Booking) : Option Nat := match b.stop with | none => some (s.ticks + 1) | some e => some (min e (s.ticks + 1))
  { s with esc := { s.esc with
      bookings := s.esc.bookings.map (fun b => if decide (b.owner = o) then { b with stop := stop b } else b)
      waiting := s.esc.waiting.filter (fun x => decide (x.owner ≠ o)) } }

/-- Tickets of a nominal amount in 0.01 A times num/256 on rail r for a die at `v` mV and frequency step `f` (R481): compute rails scale
with both, rounded up to whole tickets. -/
def ticketsAt (r v f ca256 : Nat) : Nat :=
  if r < 4 then (ca256 * v * f + (256 * 700 * 30 * 10 - 1)) / (256 * 700 * 30 * 10) else (ca256 + 2559) / 2560

/-- The same at the rail's present voltage and frequency. -/
def State.ticketsN (s : State) (r ca256 : Nat) : Nat := ticketsAt r (s.volt r) (s.fstep r) ca256

/-- The bookings and requests of compute rail k are scaled anew (R481, R489): a booking without end takes its new amount from the next
window, the present one stays charged. -/
def State.rescale (s : State) (k : Nat) : State :=
  { s with esc := { s.esc with
      bookings := s.esc.bookings.flatMap (fun b =>
        if b.rail = k ∧ b.stop.isNone ∧ b.nominal ≠ 0 ∧ b.amount ≠ s.ticketsN k b.nominal then
          if s.ticks < b.start then [{ b with amount := s.ticketsN k b.nominal }]
          else [{ b with stop := some (s.ticks + 1) }, { b with amount := s.ticketsN k b.nominal, start := s.ticks + 1 }]
        else [b])
      waiting := s.esc.waiting.map (fun q =>
        if q.rail = k ∧ q.nominal ≠ 0 ∧ q.owner ≠ .step k then { q with amount := s.ticketsN k q.nominal } else q) } }

/-- Tickets by which the HELD bookings of die k grow at `v` mV and step `f` (R489). -/
def State.stepDelta (s : State) (k v f : Nat) : Nat :=
  s.esc.bookings.foldl (fun n b => if b.rail = k ∧ b.stop.isNone then n + (ticketsAt k v f b.nominal - b.amount) else n) 0

/-- A step of die k ends: the bookings stand at the new amounts and the step's own is released (R489). -/
def State.stepEnd (s : State) (k : Nat) : State :=
  let s1 := (s.rescale k).release (.step k)
  { s1 with power := { s1.power with steps := s1.power.steps.filter (fun x => x.die != k) } }

/-- The frequency of die k moves by one step (R489). -/
def State.setFstep (s : State) (k f : Nat) : State := (s.setFld (A.PMC_DIE k) 23 16 f).count (A.PMC 8)

/-- The step in progress on die k goes on: the next voltage step, then the frequency step, which waits while a droop holds a cluster of
the die down (R489, R507). -/
def State.stepAdvance (s : State) (k : Nat) : State :=
  match s.power.steps.find? (fun x => x.die == k) with
  | some x =>
    if x.phase = 0 then s
    else if s.volt k ≠ x.mv then s.voltStep k x.mv
    else if !x.up then s.stepEnd k
    else if s.fld (A.PMC_DIE k) 7 0 ≠ 0 then
      { s with power := { s.power with steps := s.power.steps.map (fun y => if y.die == k then { y with phase := 2 } else y) } }
    else (s.setFstep k (s.fstep k + 1)).stepEnd k
  | none => s

/-- The consumer of a granted booking may draw: a command's engine may act, a waking core's wake time runs, a die's step begins (R477,
R480, R489). -/
def State.powerOwner (s : State) (o : Owner) : State :=
  match o with
  | .cmd q i => s.modFlight q i (fun f => { f with powered := true })
  | .wake c => s.modCore c (fun x => { x with wakeWaitsGrant := false })
  | .step k =>
    ({ s with power := { s.power with steps := s.power.steps.map (fun y => if y.die == k then { y with phase := 1 } else y) } } : State).stepAdvance k
  | _ => s

/-- A booking is entered in the calendar and counted (R476, R510). -/
def State.enter (s : State) (q : EscReq) (w : Nat) : State :=
  let b : Booking := { rail := q.rail, amount := q.amount, nominal := q.nominal, start := w, stop := q.windows.map (w + ·), permanent := q.permanent,
                       owner := q.owner }
  (({ s with esc := { s.esc with bookings := s.esc.bookings ++ [b] } } : State).count (A.RAIL q.rail 0x10)).powerOwner q.owner

/-- A consumer asks for tickets (R476, R478): granted at once when it fits and nothing is ahead of it, else it waits. -/
def State.ask (s : State) (q : EscReq) : State :=
  let w := max q.earliest s.ticks
  if !s.heldBack q && s.fits q.rail q.amount w q.windows then s.enter q w
  else { s with esc := { s.esc with waiting := s.esc.waiting ++ [q] } }

/-- The request served next on a rail (R478): the oldest SYSTEM request, else the oldest WORK request. -/
def State.nextRequest (s : State) (r : Nat) : Option EscReq :=
  match s.esc.waiting.find? (fun x => x.rail == r && x.sys) with
  | some x => some x
  | none => s.esc.waiting.find? (fun x => x.rail == r)

/-- ESC_GRANT on a rail: the request served next is granted when it fits (R476). -/
def State.escGrant (s : State) (r : Nat) : State :=
  match s.nextRequest r with
  | none => s
  | some q =>
    let w := max q.earliest s.ticks
    if s.fits r q.amount w q.windows then
      ({ s with esc := { s.esc with waiting := s.esc.waiting.erase q } } : State).enter q w
    else s

def execEscGrant (r : Nat) (s : State) : Result := onUnit (decide (r < Config.rails)) (s.escGrant r)

/-- Bookings and requests of one owner become another's (R486). -/
def State.rename (s : State) (o o' : Owner) : State :=
  { s with esc := { s.esc with
      bookings := s.esc.bookings.map (fun b => if decide (b.owner = o) then { b with owner := o' } else b)
      waiting := s.esc.waiting.map (fun x => if decide (x.owner = o) then { x with owner := o' } else x) } }

/-- An owner has a granted booking. -/
def State.holds (s : State) (o : Owner) : Bool := s.esc.bookings.any (fun b => decide (b.owner = o) && b.stop.isNone)

/-! ### Amounts (R481, R483 to R485) -/

/-- Tickets of a nominal amount in 0.01 A. -/
def State.tickets (s : State) (r ca : Nat) : Nat := s.ticketsN r (ca * 256)

/-- Engine class of an opcode (R484): 0 tile, 1 conversion, 2 vector, 3 DMA, 4 collective; none books no current of its own.
STEP_BEGIN and STEP_ABORT copy their snapshot like any movement (R146); RNG_SAVE and RNG_LOAD book as vector work (DESIGN CHOICE, log 14). -/
def engineClass (op : Nat) : Option Nat :=
  if 0x10 ≤ op ∧ op ≤ 0x15 then some 0
  else if 0x30 ≤ op ∧ op ≤ 0x33 then some 1
  else if op = 0x40 ∨ op = 0x41 ∨ op = 0x73 ∨ (0x80 ≤ op ∧ op ≤ 0x82) then some 2
  else if (0x50 ≤ op ∧ op ≤ 0x54) ∨ op = 0x70 ∨ op = 0x72 then some 3
  else if 0x60 ≤ op ∧ op ≤ 0x66 then some 4
  else none

/-- Nominal amount of a class in 0.01 A (R483). -/
def classNominal (c : Nat) : Nat := [240, 30, 40, 120, 300].getD c 0

/-- A firmware processor is absent (R576). -/
def State.isAbsent (s : State) (p : Nat) : Bool := s.absent.any (fun x => x.1 == p)

/-- The power-management core or a cluster control core is absent, or an activation has passed its command boundary: outputs hold, and
learning, pre-booking, modes and sharing pause (R505, R585). -/
def State.held (s : State) : Bool := s.fw.blob || s.absent.any (fun x => x.1 == 1 || decide (3 ≤ x.1))

/-- Learned amount of a tag and class; values above the nominal read as the nominal (R513). -/
def State.learned (s : State) (p c : Nat) : Nat := min (classNominal c) (s.fld (A.PHASE p c) 15 0)

/-- Amount a command books, normalised, in 0.01 A / 256 (R484, R485): the nominal for tag 0 and while the power-management core is
absent (R505), else the learned amount with its guard, at most the nominal. -/
def State.bookAmount (s : State) (p c : Nat) : Nat :=
  if p = 0 ∨ s.held then classNominal c * 256
  else min (classNominal c * 256) (s.learned p c * (256 + bitsOf s.esc.cfg 39 32))

/-- The request of a command on its core's rail (R480, R483). -/
def State.cmdRequest (s : State) (core : Nat) (cmd : List Byte) (c : Nat) (o : Owner) (earliest : Nat) : EscReq :=
  { rail := core / 128, amount := s.ticketsN (core / 128) (s.bookAmount (byteAt cmd 2) c), nominal := s.bookAmount (byteAt cmd 2) c, windows := none, permanent := false,
    sys := false, owner := o, earliest := earliest, since := s.ticks }

/-- A SYSTEM request of a stated nominal amount. -/
def State.askSys (s : State) (r ca : Nat) (windows : Option Nat) (perm : Bool) (o : Owner) : State :=
  s.ask { rail := r, amount := s.tickets r ca, nominal := ca * 256, windows := windows, permanent := perm, sys := true, owner := o, earliest := s.ticks,
          since := s.ticks }

/-- The learned amount after a command of tag p and class c (R485): `m` is the governor's largest estimate, `withheld` that it
withheld a cycle, `booked` the amount booked. -/
def learnNext (nominal old booked m : Nat) (withheld : Bool) : Nat :=
  if withheld then min nominal (booked * 5 / 4) else if old < m then m else old - ((old - m) + 15) / 16

/-- PHASE_LEARN_UPDATE (R485): nothing for tag 0, with LEARN_EN = 0, or while a controller is absent. -/
def State.learn (s : State) (cmd : List Byte) (booked m : Nat) (withheld : Bool) : State :=
  match engineClass (byteAt cmd 0) with
  | none => s
  | some c =>
    let p := byteAt cmd 2
    if p = 0 ∨ !bitOf s.esc.cfg 2 ∨ s.held then s
    else
      let k := A.PHASE p c
      (s.setFld k 15 0 (min (classNominal c) (learnNext (classNominal c) (s.learned p c) booked m withheld))).setFld k 47 32
        (min 65535 (s.fld k 47 32 + 1))

/-! ### Pre-booking (R486) -/

/-- The window an NB names: as many windows ahead as the beats until NB, or the present window when NB has passed or is none. Windows
are numbered by the beat boundaries passed (R414, R474). -/
def State.nbWindow (s : State) (cmd : List Byte) : Nat :=
  let nb := fieldAt cmd 4 4
  if nb = 0 ∨ modGe 32 s.beat nb then s.ticks else s.ticks + modSub 32 nb s.beat

/-- A pre-booking is asked for a head that has become ready. -/
def State.prebook (s : State) (q core index : Nat) (cmd : List Byte) : State :=
  if !bitOf s.esc.cfg 1 ∨ s.held then s
  else match engineClass (byteAt cmd 0) with
    | none => s
    | some c => s.ask (s.cmdRequest core cmd c (.pre q index) (s.nbWindow cmd))

/-- The pre-booking of a command that will not use it is released, and counted if it was granted (R486, R510). -/
def State.dropPre (s : State) (q i : Nat) : State :=
  match s.esc.bookings.find? (fun b => decide (b.owner = .pre q i) && b.stop.isNone) with
  | some b => (s.release (.pre q i)).count (A.RAIL b.rail 0x30)
  | none => s.release (.pre q i)

/-- PREBOOK_EXPIRY: a pre-booking not used within PREBOOK_MAX windows is released and counted (R486). -/
def State.prebookExpiry (s : State) (q i : Nat) : State :=
  match s.esc.bookings.find? (fun b => decide (b.owner = .pre q i) && b.stop.isNone) with
  | some b =>
    if b.start + zeroAs 8 (bitsOf s.esc.cfg 47 40) ≤ s.ticks then (s.release (.pre q i)).count (A.RAIL b.rail 0x30) else s
  | none => s

def execPrebookExpiry (q i : Nat) (s : State) : Result := onUnit (decide (q < Config.queues)) (s.prebookExpiry q i)

/-- A command books at dispatch (R480, R486): its pre-booking becomes its booking, else it asks. A command of no engine class needs
none. -/
def State.bookCommand (s : State) (q i core : Nat) (cmd : List Byte) : State :=
  match engineClass (byteAt cmd 0) with
  | none => s.powerOwner (.cmd q i)
  | some c =>
    let s1 := s.modFlight q i (fun f => { f with booked := s.bookAmount (byteAt cmd 2) c / 256 })
    if s1.holds (.pre q i) then
      ((s1.rename (.pre q i) (.cmd q i)).count (A.RAIL (core / 128) 0x28)).powerOwner (.cmd q i)
    else if s1.esc.waiting.any (fun x => decide (x.owner = .pre q i)) then s1.rename (.pre q i) (.cmd q i)
    else s1.ask (s1.cmdRequest core cmd c (.cmd q i) s1.ticks)

/-- A command has a booking, granted or asked for. -/
def State.hasBooking (s : State) (q i : Nat) : Bool :=
  s.holds (.cmd q i) || s.esc.waiting.any (fun x => decide (x.owner = .cmd q i))

/-- An earlier granted tile command of the core has not ended: the tile engine takes its commands in order (R69). -/
def State.behindTile (s : State) (fl : Flight) : Bool :=
  engineClass (byteAt fl.bytes 0) == some 0 &&
    (match s.flights.find? (fun f => f.core == fl.core && !f.ended && engineClass (byteAt f.bytes 0) == some 0) with
     | some f => !(f.queue == fl.queue && f.index == fl.index)
     | none => false)

/-- A command of a domain that is COMMITTING waits for the flip (R160), as its accesses to generation aliases do; the model holds the
whole command of a domain with generation regions (DESIGN CHOICE, log 21). -/
def State.waitsFlip (s : State) (fl : Flight) : Bool :=
  s.stepState fl.fn == 2 && decide (0 < s.dd fl.fn 32 1) && !(decide (0x70 ≤ byteAt fl.bytes 0) && decide (byteAt fl.bytes 0 ≤ 0x72))

/-- An armed hang takes the next command of its core that an engine of the core holds (R467): the injection becomes kind 6, which names
the command by queue (`addr`) and index (`cube`), and the command makes no progress until CORE_HANG. -/
def State.hangs (s : State) (fl : Flight) : Option State :=
  let inCore := match engineClass (byteAt fl.bytes 0) with
    | some c => decide (c ≤ 2)
    | none => false
  if s.faults.armed.any (fun a => a.kind == 6 && a.addr == fl.queue && a.cube == fl.index) then some s
  else if !inCore then none
  else match s.faults.armed.find? (fun a => a.kind == 5 && a.core == fl.core) with
    | none => none
    | some a =>
      let x : Injection := { kind := 6, addr := fl.queue, core := fl.core, cube := fl.index }
      some { s with faults := { s.faults with armed := s.faults.armed.erase a ++ [x] } }

/-- An engine command (q, i) reaches its engine: the checks that give MALFORMED, then its booking, then, with its current granted,
its work `k` (R480). Without the grant it waits, and a cancel ends it there with nothing written (R327). -/
def State.dispatch (s : State) (q i op : Nat) (bad : Flight → Option Nat) (k : State → Flight → State) : Result :=
  s.engine q i op (fun fl =>
    match bad fl with
    | some o => s.endFlight q i 8 o
    | none =>
      if s.behindTile fl || s.waitsFlip fl then s
      else
        let s1 := if fl.powered || s.hasBooking q i then s else s.bookCommand q i fl.core fl.bytes
        match s1.flight? q i with
        | none => s1
        | some fl1 =>
          if fl1.powered then (match s1.hangs fl1 with | some t => t | none => k s1 fl1)
          else if fl1.cancel then (s1.release (.cmd q i)).endFlight q i 2 0
          else s1)

/-! ### Window boundary (R475, R510) -/

/-- Requests of one class held back on a rail: all but the first (R478). -/
def State.behindHead (s : State) (r : Nat) (sys : Bool) : Nat := (s.esc.waiting.filter (fun x => x.rail == r && x.sys == sys)).length - 1

/-- The ledger at a beat boundary, the beat counter already advanced: windows older than the hundred of R494 are dropped; waiting and
held-back requests are counted; ESC_CFG takes effect (R509). -/
def State.escWindow (s : State) : State :=
  let s1 := { s with esc := { s.esc with
      cfg := s.reg A.ESC_CFG
      bookings := s.esc.bookings.filter (fun b => match b.stop with
      | none => true
      | some e => decide (s.ticks < e + 100)) } }
  let rails := (s1.esc.waiting.map EscReq.rail).eraseDups
  rails.foldl (fun t r => (t.count (A.RAIL r 0x18)).count (A.RAIL r 0x20) (s1.behindHead r true + s1.behindHead r false)) s1

/-- ESC_RAIL_STATUS of rail r as it reads (R510). -/
def State.railStatus (s : State) (r : Nat) : Nat :=
  let held := (s.esc.bookings.filter (fun b => b.rail == r && b.carriedHeld s.ticks)).foldl (fun n b => n + b.amount) 0
  winCeil r * 2 ^ 48 + (s.avgEff r % 65536) * 2 ^ 32 + (s.booked r s.ticks % 65536) * 2 ^ 16 + held % 65536

/-- ESC_RAIL_WAIT of rail r as it reads (R510). -/
def State.railWait (s : State) (r : Nat) : Nat :=
  let w := s.esc.waiting.filter (fun x => x.rail == r)
  let amt := match w with | x :: _ => x.amount | [] => 0
  (amt % 65536) * 2 ^ 32 + ((w.filter (fun x => x.sys)).length % 65536) * 2 ^ 16 + (w.filter (fun x => !x.sys)).length % 65536

end Sys2Proof.Machine
end

