-- ==== Sys2Proof/Machine/Queues.lean ====
section
/-!
DEFINITION. Queues, doorbells, fetch, wait conditions, completion records, dead letters, cancellation and the queue actions
(R303 to R314, R327, R330 to R333, R336).
-/

namespace Sys2Proof.Machine

/-- Slots of a queue's rings (R303). -/
def Queue.size (q : Queue) : Nat := 2 ^ q.log2size

/-- A host or PF write that reaches the function's registers: BAR0 answers, the function exists, and no reset of it is in
progress (R596, R610, R625). -/
def State.reaches (s : State) (f : Nat) : Bool := s.barOpen && s.fnPresent f

/-! ### Dead letters (R330, R331) -/

/-- LOG2N as it reads: 4 to 16, anything else 0 (R336). -/
def State.dlqLog (s : State) (f : Nat) : Nat :=
  let n := s.fld (A.QMGF f 0x70) 4 0
  if 4 ≤ n ∧ n ≤ 16 then n else 0

def State.letters (s : State) (f : Nat) : DeadLetters := smapGet (fun _ => { lost := 0, seq := 0 }) s.deadLetters f
def State.setLetters (s : State) (f : Nat) (d : DeadLetters) : State :=
  { s with deadLetters := smapPut (fun _ => { lost := 0, seq := 0 }) s.deadLetters f d }

/-- A record that cannot be written is dropped: counted, DLQ_OVF set. -/
def State.dropLetter (s : State) (f : Nat) : State :=
  let d := s.letters f
  ((s.setLetters f { d with lost := min 65535 (d.lost + 1) }).count (A.QMGF f 0xA0)).setFld (A.QMGF f 0x80) 2 2 1

/-- DLQ_FULL follows the pointers (R336). -/
def State.dlqFullBit (s : State) (f : Nat) : State :=
  let p := A.QMGF f 0x78
  s.setFld (A.QMGF f 0x80) 3 3 (b2n (s.dlqLog f != 0 && modSub 32 (s.fld p 31 0) (s.fld p 63 32) == 2 ^ s.dlqLog f))

/-- The 128 bytes of a record (R331). -/
def letterBytes (cmd compl : List Byte) (q reason lost epoch beat seq : Nat) : List Byte :=
  cmd ++ compl ++ leBytes 4 q ++ leBytes 1 reason ++ leBytes 1 0 ++ leBytes 2 lost ++ leBytes 4 epoch ++ leBytes 4 0
    ++ leBytes 8 beat ++ leBytes 8 seq

/-- Where the next record of function f goes. -/
def State.letterAddr (s : State) (f : Nat) : Nat :=
  s.reg (A.QMGF f 0x70) / 2048 * 2048 + (s.fld (A.QMGF f 0x78) 31 0 % 2 ^ s.dlqLog f) * 128

/-- A dead-letter record is attempted (R330). Answers whether it was written. -/
def State.deadLetter (s : State) (f q : Nat) (cmd compl : List Byte) (reason : Nat) : State × Bool :=
  let p := A.QMGF f 0x78
  let a := s.letterAddr f
  if s.dlqLog f = 0 ∨ modSub 32 (s.fld p 31 0) (s.fld p 63 32) = 2 ^ s.dlqLog f ∨ (s.denied f a).isSome then (s.dropLetter f, false)
  else if s.tiers.badWords.any (fun w => w / 2048 == a / 2048) then
    ((s.dropLetter f).record { cls := 2, cause := 0x0C, unitKind := 9, unit := q, fn := f, queue := q, addr := a }, false)
  else
    let d := s.letters f
    let bs := letterBytes cmd compl q reason d.lost (s.queue q).epoch s.beat d.seq
    let s1 := ((s.purgeRange a 128).traffic a 128 true).sealWrite a bs
    let s2 := (s1.setLetters f { lost := 0, seq := d.seq + 1 }).setFld p 31 0 (s.fld p 31 0 + 1)
    let s3 := ((s2.modQueue q (fun x => { x with deadLetters := x.deadLetters + 1 })).count (A.QMGF f 0x98)).dlqFullBit f
    (s3.raiseVector f (s.fld (A.QMGF f 0x80) 26 16), true)

/-! ### Completion records (R312, R313) -/

/-- What a completion record tells. -/
structure Completion where
  index : Nat
  status : Nat
  opcode : Nat
  epoch : Nat
  slip : Nat
  detail : Nat
  flags : Flags
  deriving DecidableEq, Repr

/-- The 32 bytes of a completion record (R313). -/
def Completion.bytes (c : Completion) (log2size beat : Nat) (dl : Bool) : List Byte :=
  let phase := 1 - (c.index / 2 ^ log2size) % 2
  let b5 := b2n dl * 64 + phase * 32 + b2n c.flags.firstNan * 16 + b2n c.flags.outlierOvf * 8 + b2n c.flags.reservedCode * 4
    + b2n c.flags.inff * 2 + b2n c.flags.nanf
  leBytes 4 c.index ++ leBytes 1 c.status ++ leBytes 1 b5 ++ leBytes 1 c.opcode ++ leBytes 1 c.epoch ++ leBytes 4 c.flags.firstRow
    ++ leBytes 4 c.flags.firstCol ++ leBytes 4 c.slip ++ leBytes 4 beat ++ leBytes 8 c.detail

/-- Where the completion record of command i goes (R303). -/
def Queue.cplAddr (x : Queue) (i : Nat) : Nat := x.cpl + (i % x.size) * 32

/-- The dead-letter reason of a status (R314, R331). -/
def letterReason (status : Nat) (undelivered : Bool) : Option Nat :=
  if status = 6 then some 2 else if status = 7 then some (if undelivered then 3 else 1) else if status = 8 then some 1 else none

/-- The queue enters ERROR with a reason (R336 ERRSTATE). -/
def State.queueError (s : State) (q reason : Nat) : State := s.modQueue q (fun x => { x with state := 4, errState := reason })

/-- A completion record of queue q is written after its dead-letter record (R312, R330); a write that fails puts the queue into
ERROR with an UNDELIVERED record (R331). -/
def State.complete (s : State) (f q : Nat) (cmd : List Byte) (c : Completion) (undelivered : Bool) : State :=
  let x := s.queue q
  let (s1, dl) := match letterReason c.status undelivered with
    | some r => s.deadLetter f q cmd (c.bytes x.log2size s.beat true) r
    | none => (s, false)
  let a := x.cplAddr c.index
  let bs := c.bytes x.log2size s.beat dl
  let s2 := s1.modQueue q (fun y => { y with
    done := y.done + 1
    cancelled := y.cancelled + b2n (c.status == 1 || c.status == 2)
    slipSum := y.slipSum + c.slip })
  if (s.denied f a).isSome || s.tiers.badWords.any (fun w => w / 2048 == a / 2048) then
    ((s2.deadLetter f q cmd bs 3).1).queueError q 3
  else
    ((((s2.purgeRange a 32).traffic a 32 true).sealWrite a bs).count (A.QMGF f 0x88)).count (A.QMGF f 0xB0) c.slip

/-! ### Wait conditions and readiness (R310, R311, R322) -/

/-- Wait condition w of a command: WSEM, WVAL (R307). -/
def waitCond (cmd : List Byte) (w : Nat) : Nat × Nat :=
  let v := fieldAt cmd (16 + 4 * w) 4
  (v % 2 ^ 20, v / 2 ^ 20)

/-- NWAIT of a command. -/
def nwait (cmd : List Byte) : Nat := byteAt cmd 3 % 8

/-- Wait condition w holds now (R310). -/
def State.condHolds (s : State) (cmd : List Byte) (w : Nat) : Bool :=
  let (sem, val) := waitCond cmd w
  modGe 12 (s.sem sem) val

/-- The conditions of a head after a look at the semaphores: each latches (R310). -/
def State.latch (s : State) (h : Fetched) : List Bool :=
  (List.range (nwait h.bytes)).map (fun w => h.latched.getD w false || s.condHolds h.bytes w)

/-- The not-before beat of a command is reached (R311). -/
def State.nbHolds (s : State) (cmd : List Byte) : Bool :=
  let nb := fieldAt cmd 4 4
  nb == 0 || modGe 32 s.beat nb

/-- An opcode that holds its queue until it completes: FENCE, WAIT, TIMER (R316). -/
def holdsQueue (op : Nat) : Bool := op == 1 || op == 2 || op == 4

/-- The head of q is ready (R322), its conditions latched as `h` has them. -/
def State.headReady (s : State) (q : Nat) (h : Fetched) : Bool :=
  h.latched.length == nwait h.bytes && h.latched.all id && h.nbReached
    && !(bitOf (byteAt h.bytes 1) 1 && s.flights.any (fun f => f.queue == q && !f.stale))
    && !s.flights.any (fun f => f.queue == q && holdsQueue (byteAt f.bytes 0))

/-- The head of queue q looked at: conditions latch, and readiness starts or stops (R310, R325). -/
def State.refreshQueue (s : State) (q : Nat) (x : Queue) : Queue :=
  match x.fetched with
  | [] => x
  | h :: rest =>
    let h1 := { h with latched := s.latch h, nbReached := h.nbReached || s.nbHolds h.bytes }
    let h2 := if s.headReady q h1 then { h1 with readyBeat := some (h1.readyBeat.getD s.ticks) }
              else { h1 with readyBeat := none, promoted := none }
    { x with fetched := h2 :: rest }

/-- A head that has become ready asks for its pre-booking once (R486). -/
def State.prebookHead (s : State) (kv : Nat × Queue) : State :=
  match kv.2.fetched with
  | h :: rest =>
    if h.readyBeat.isSome && !h.prebooked then
      (s.setQueue kv.1 { kv.2 with fetched := { h with prebooked := true } :: rest }).prebook kv.1 kv.2.core h.index h.bytes
    else s
  | [] => s

/-- Every queue's head looked at. -/
def State.refreshHeads (s0 : State) : State :=
  let s := ({ s0 with queues := s0.queues.map (fun kv => (kv.1, s0.refreshQueue kv.1 kv.2)) } : State)
  let s := s.queues.foldl State.prebookHead s
  let qs := s.queues
  let heads := qs.filterMap (fun kv => kv.2.fetched.head?)
  (s.setFld A.QMG_STATUS 18 0 (heads.filter (fun h => h.readyBeat.isSome)).length).setFld
    A.QMG_STATUS 50 32 (heads.filter (fun h => h.promoted.isSome)).length

/-! ### Ends that need no engine -/

/-- A stopped queue whose granted commands have all completed: DISABLE ends, RESET zeroes the counts (R333, R336). -/
def State.settleQueue (s : State) (q : Nat) : State :=
  let x := s.queue q
  if x.stopping = 0 ∨ s.flights.any (fun f => f.queue == q) then s
  else if x.stopping = 1 then s.setQueue q { x with state := 0, stopping := 0 }
  else s.setQueue q { x with state := 0, stopping := 0, head := 0, tail := 0, cdone := 0, fetched := [], cancelMarks := [] }

/-- A command that is never dispatched ends: completion record, interrupt, no signal (R308, R327). -/
def State.endUngranted (s : State) (q index : Nat) (cmd : List Byte) (status detail : Nat) : State :=
  let f := s.fnOfQueue q
  let x := s.queue q
  let s1 := s.complete f q cmd
    { index := index, status := status, opcode := byteAt cmd 0, epoch := x.epoch % 256, slip := 0, detail := detail, flags := {} }
    false
  if bitOf (byteAt cmd 1) 0 && x.irqEn then s1.raiseVector f x.msix else s1

/-! ### DOORBELL_WRITE (R304, R305) -/

/-- The doorbell's checks (R305). -/
def Queue.doorbellValid (x : Queue) (tail cdone : Nat) : Bool :=
  modGe 32 tail x.tail && decide (modSub 32 tail x.head ≤ x.size) && decide (modSub 32 tail cdone ≤ x.size) && modGe 32 cdone x.cdone

/-- A doorbell write of function f to queue q. -/
def State.doorbell (s : State) (f q size tail cdone : Nat) : State :=
  let x := s.queue q
  if !s.reaches f then s
  else if size ≠ 8 ∨ !s.ownsQueue f q ∨ x.state = 0 ∨ x.state = 4 ∨ x.stopping ≠ 0 then s.count (A.QMGF f 0xA8)
  else if x.doorbellValid tail cdone then s.setQueue q { x with tail := tail % 2 ^ 32, cdone := cdone % 2 ^ 32 }
  else (((s.count (A.QMGF f 0xA8)).queueError q 1).deadLetter f q (List.replicate 64 0) (List.replicate 32 0) 4).1

def execDoorbellWrite (f q size tail cdone : Nat) (s : State) : Result :=
  onUnit (decide (f < 512) && decide (q < Config.queues)) (s.doorbell f q size tail cdone)

/-! ### COMMAND_FETCH (R306 to R308) -/

/-- Opcodes of R315. -/
def opcodeKnown (op : Nat) : Bool :=
  decide (op ≤ 6) || (decide (0x10 ≤ op) && decide (op ≤ 0x15)) || (decide (0x30 ≤ op) && decide (op ≤ 0x33)) || op == 0x40
    || op == 0x41 || (decide (0x50 ≤ op) && decide (op ≤ 0x54)) || (decide (0x60 ≤ op) && decide (op ≤ 0x66))
    || (decide (0x70 ≤ op) && decide (op ≤ 0x73)) || (decide (0x80 ≤ op) && decide (op ≤ 0x82))
    || (decide (0xF0 ≤ op) && decide (op ≤ 0xF2))

/-- The MALFORMED checks of a header, with the offset of the first field in error (R308, R313). -/
def headerMalformed (cmd : List Byte) : Option Nat :=
  firstBad ([(0, opcodeKnown (byteAt cmd 0)), (1, decide (byteAt cmd 1 < 8)), (3, decide (byteAt cmd 3 ≤ 4)),
    (10, decide (bitsOf (fieldAt cmd 8 4) 31 20 = 0))]
    ++ (List.range 4).map (fun w => (16 + 4 * w,
        if w < nwait cmd then decide ((waitCond cmd w).1 ≠ 0) else decide (fieldAt cmd (16 + 4 * w) 4 = 0))))

/-- The PERMISSION checks of a header, with DETAIL (R308, R313). -/
def State.headerDenied (s : State) (f : Nat) (cmd : List Byte) : Option Nat :=
  let sems := fieldAt cmd 8 4 % 2 ^ 20 :: (List.range (nwait cmd)).map (fun w => (waitCond cmd w).1)
  match sems.find? (fun n => decide (n ≠ 0) && !s.ownsSem f n) with
  | some n => some (semAddr n)
  | none => if 0xF0 ≤ byteAt cmd 0 ∧ f ≠ 0 then some 0 else none

/-- The ring slot of command i cannot be read: not memory the function owns in a tier, or uncorrectable (R303, R331). -/
def State.slotBad (s : State) (f a : Nat) : Bool :=
  !cacheable a || (s.denied f a).isSome || s.tiers.badWords.any (fun w => w / 64 == a / 64)

/-- The Sorter reads the next command of queue q. -/
def State.fetch (s : State) (q : Nat) : State :=
  let x := s.queue q
  let f := s.fnOfQueue q
  let a := x.ring + (x.head % x.size) * 64
  if (x.state = 0 ∨ x.state = 4) ∨ x.stopping ≠ 0 ∨ x.head = x.tail ∨ s.fatal then s
  else if s.slotBad f a then
    ((s.deadLetter f q (List.replicate 64 0) (List.replicate 32 0) 3).1).queueError q 2
  else
    let cmd := s.ncBytes a 64
    let s1 := (s.traffic a 64 false).setQueue q
      { x with head := (x.head + 1) % 2 ^ 32, cancelMarks := x.cancelMarks.filter (· != x.head) }
    if x.cancelMarks.contains x.head then s1.endUngranted q x.head cmd 1 0
    else match headerMalformed cmd with
      | some o => s1.endUngranted q x.head cmd 8 o
      | none => match s.headerDenied f cmd with
        | some d => s1.endUngranted q x.head cmd 7 d
        | none =>
          (s1.modQueue q (fun y => { y with
            fetched := y.fetched ++ [{ index := x.head, bytes := cmd, latched := [], nbReached := false, readyBeat := none,
                                       promoted := none, prebooked := false }] })).refreshHeads

def execCommandFetch (q : Nat) (s : State) : Result := onUnit (decide (q < Config.queues)) (s.fetch q)

/-! ### NOT_BEFORE_REACHED, AGE_PROMOTION (R311, R325) -/

/-- The beat counter has reached the head's not-before beat. -/
def execNotBeforeReached (q : Nat) (s : State) : Result := onUnit (decide (q < Config.queues)) s.refreshHeads

/-- A head that has been ready for AGE_CAP beats is promoted. -/
def State.promote (s : State) (q : Nat) : State :=
  let x := s.queue q
  match x.fetched with
  | h :: rest => match h.readyBeat, h.promoted with
    | some b, none =>
      if b + zeroAs 1000 (s.fld A.QMG_CFG 47 32) ≤ s.ticks then
        (s.setQueue q { x with fetched := { h with promoted := some s.ticks } :: rest }).refreshHeads
      else s
    | _, _ => s
  | [] => s

def execAgePromotion (q : Nat) (s : State) : Result := onUnit (decide (q < Config.queues)) (s.promote q)

/-! ### QMG_CANCEL (R327) -/

/-- One index of a cancel: a fetched command never runs; one not yet fetched is marked; the grant of the present cycle is
withdrawn when `same`; a later one is told to stop. -/
def State.cancelOne (s : State) (q i : Nat) (same : Bool) : State :=
  let x := s.queue q
  match x.fetched.find? (fun h => h.index == i) with
  | some h =>
    ((s.setQueue q { x with fetched := x.fetched.filter (fun y => y.index != i) }).dropPre q i).endUngranted q i h.bytes 1 0
  | none =>
    if modSub 32 i x.head < modSub 32 x.tail x.head then
      s.setQueue q { x with cancelMarks := if x.cancelMarks.contains i then x.cancelMarks else x.cancelMarks ++ [i] }
    else match s.flight? q i with
      | some fl =>
        if fl.ended then s
        else if same && decide (s.sorter.lastGrant = some (q, i)) then
          (((({ s with flights := s.flights.filter (fun g => !(g.queue == q && g.index == i)) } : State).release
            (.cmd q i)).dropPre q i).endUngranted q i fl.bytes 1 0).count A.QMG_LOST_GRANT
        else s.modFlight q i (fun g => { g with cancel := true })
      | none => s

/-- The indices a cancel names: one, or every one from INDEX to TAIL - 1. -/
def Queue.cancelList (x : Queue) (index : Nat) (from_ : Bool) : List Nat :=
  if from_ then (List.range (modSub 32 x.tail index)).map (fun k => (index + k) % 2 ^ 32) else [index % 2 ^ 32]

/-- Function f cancels. -/
def State.cancel (s : State) (f q index : Nat) (from_ same : Bool) : State :=
  if !s.ownsQueue f q then s
  else
    let x := s.queue q
    let l := if from_ && decide (2 ^ 17 < modSub 32 x.tail index) then [] else x.cancelList index from_
    ((l.foldl (fun t i => t.cancelOne q i same) s).count (A.QMGF f 0x90)).refreshHeads

def execQmgCancel (f q index : Nat) (from_ same : Bool) (s : State) : Result :=
  onUnit (decide (f < 512) && decide (q < Config.queues)) (if s.reaches f then s.cancel f q index from_ same else s)

/-! ### Queue actions (R336, R333) -/

/-- The queue QMG_QSEL of f selects. -/
def State.selected (s : State) (f : Nat) : Nat := s.fld (A.QMGF f 0) 17 0

/-- An action is in progress on a queue, or waits for the scheduler core (QMG_QCMD.BUSY, R576). -/
def Queue.busy (x : Queue) : Bool := x.stopping != 0 || x.migration.isSome || x.deferred.isSome

/-- A queue action is refused with an error code (QMG_QCMD ERR, ERRCODE). -/
def State.qcmdErr (s : State) (f code : Nat) : State := (s.setFld (A.QMGF f 8) 62 62 1).setFld (A.QMGF f 8) 61 56 code

/-- A queue action on queue q for f: refused when the queue is busy or not owned; `bad` names a further refusal. -/
def State.actOn (s : State) (f q : Nat) (bad : Queue → Option Nat) (act : Queue → State) : State :=
  let x := s.queue q
  if x.busy then s.qcmdErr f 5
  else if !s.ownsQueue f q then s.qcmdErr f 1
  else match bad x with
    | some code => s.qcmdErr f code
    | none => (act x).refreshHeads

/-- A queue action written by f for its selected queue: `run` does it, now, or after the return of an absent scheduler core (R576). -/
def State.queueAction (s : State) (f action core : Nat) (run : State → Nat → State) : State :=
  let q := s.selected f
  if !s.reaches f then s
  else if s.isAbsent 2 && !(s.queue q).busy then
    s.modQueue q (fun x => { x with deferred := some { fn := f, action := action, core := core } })
  else run s q

/-- A ring lies whole in tier granules f owns (R303). -/
def State.ringOk (s : State) (f a n : Nat) : Bool :=
  a % 64 == 0 && (chunks a n).all (fun c => cacheable c.1 && (s.denied f c.1).isNone)

/-- The context is valid (R303, R336, R607). -/
def State.contextOk (s : State) (f : Nat) (x : Queue) : Bool :=
  decide (4 ≤ x.log2size) && decide (x.log2size ≤ 16) && s.ringOk f x.ring (64 * x.size) && s.ringOk f x.cpl (32 * x.size)
    && decide (x.msix < vectorCount f) && (!x.rngBind || x.rngArea % 2048 == 0)

/-- f may run a queue on core c. -/
def State.coreOk (s : State) (f c : Nat) : Bool := decide (c < 512) && s.ownsCore f c && !s.unavailable c

/-- ENABLE of queue q on a core. -/
def State.enableOn (s : State) (f core q : Nat) : State :=
  (s.setFld (A.QMGF f 8) 24 16 core).actOn f q
    (fun x => if x.state ≠ 0 then some 2 else if !s.coreOk f core then some 3 else if !s.contextOk f x then some 4 else none)
    (fun x => (s.setFld (A.QMGF f 8) 24 16 core).setQueue q { x with state := 1, core := core, errState := 0 })

def execQueueEnable (f core : Nat) (s : State) : Result :=
  onUnit (decide (f < 512)) (s.queueAction f 0 core (fun t q => t.enableOn f core q))

/-- PAUSE of queue q. -/
def State.pauseOn (s : State) (f q : Nat) : State :=
  s.actOn f q (fun x => if x.state ≠ 1 then some 2 else none) (fun x => s.setQueue q { x with state := 2 })

def execQueuePause (f : Nat) (s : State) : Result := onUnit (decide (f < 512)) (s.queueAction f 1 0 (fun t q => t.pauseOn f q))

/-- RESUME; when no queue of the function is still paused by a UCT record, those records close (R461, R464). -/
def State.resume (s : State) (f q : Nat) (x : Queue) : State :=
  let s1 := s.setQueue q { x with state := 1, uctPaused := false }
  if s1.queues.any (fun kv => s1.ownsQueue f kv.1 && kv.2.uctPaused) then s1
  else s1.closeRecords (fun r => r.cls == 2 && r.fn == f)

/-- RESUME of queue q. -/
def State.resumeOn (s : State) (f q : Nat) : State :=
  s.actOn f q (fun x => if x.state ≠ 2 then some 2 else none) (fun x => s.resume f q x)

def execQueueResume (f : Nat) (s : State) : Result := onUnit (decide (f < 512)) (s.queueAction f 2 0 (fun t q => t.resumeOn f q))

/-- DISABLE of queue q. -/
def State.disableOn (s : State) (f q : Nat) : State :=
  s.actOn f q (fun x => if x.state = 0 ∨ x.state = 3 then some 2 else none)
    (fun x => (s.setQueue q { x with stopping := 1 }).settleQueue q)

def execQueueDisable (f : Nat) (s : State) : Result := onUnit (decide (f < 512)) (s.queueAction f 3 0 (fun t q => t.disableOn f q))

/-- RESET of queue q: everything not granted is cancelled, commands in flight are waited for (R333, R336). -/
def State.resetQueue (s : State) (q : Nat) : State :=
  let x := s.queue q
  let s1 := x.fetched.foldl (fun t h => t.cancelOne q h.index false) s
  let n := min (modSub 32 x.tail x.head) x.size
  let s2 := (List.range n).foldl (fun t k =>
    t.endUngranted q ((x.head + k) % 2 ^ 32) (t.ncBytes (x.ring + ((x.head + k) % x.size) * 64) 64) 1 0) s1
  (s2.modQueue q (fun y => { y with stopping := 2, head := y.tail, cancelMarks := [] })).settleQueue q

/-- RESET of queue q, when it may. -/
def State.resetOn (s : State) (f q : Nat) : State := s.actOn f q (fun _ => none) (fun _ => s.resetQueue q)

def execQueueReset (f : Nat) (s : State) : Result := onUnit (decide (f < 512)) (s.queueAction f 4 0 (fun t q => t.resetOn f q))

/-! ### Semaphore and dead-letter registers (R336) -/

/-- A write of QMG_SEMVAL, a release at device scope; outside f's range it sets SEM_ERR. -/
def execQmgSemvalWrite (f val : Nat) (s : State) : Result :=
  let n := s.fld (A.QMGF f 0x58) 19 0
  onUnit (decide (f < 512)) <|
    if !s.reaches f then s
    else if s.ownsSem f n then (s.setSem n val).refreshHeads else s.setFld (A.QMGF f 0x80) 1 1 1

/-- A write of QMG_SEMADD. -/
def execQmgSemadd (f val : Nat) (s : State) : Result :=
  let n := s.fld (A.QMGF f 0x58) 19 0
  onUnit (decide (f < 512)) <|
    if !s.reaches f then s
    else if s.ownsSem f n then (s.addSem n val).refreshHeads else s.setFld (A.QMGF f 0x80) 1 1 1

/-- A write of QMG_DLQ_BASE zeroes WR and RD and starts SEQ again (R331, R336). -/
def execDlqBaseWrite (f val : Nat) (s : State) : Result :=
  onUnit (decide (f < 512)) <|
    if !s.reaches f then s
    else (((s.setReg (A.QMGF f 0x70) (setBits (setBits 0 63 11 (bitsOf val 63 11)) 4 0 val)).setReg (A.QMGF f 0x78) 0).setLetters f
      { lost := (s.letters f).lost, seq := 0 }).dlqFullBit f

end Sys2Proof.Machine
end

