-- ==== Sys2Proof/Machine/SorterGrant.lean ====
section
/-!
DEFINITION. The Sorter (R322 to R325): readiness, eligibility, the three-level deficit-weighted round robin, and the grant.
-/

namespace Sys2Proof.Machine

/-- Commands in flight, not ended, that satisfy `p`. -/
def State.busyWith (s : State) (p : Flight → Bool) : Nat := (s.flights.filter (fun f => !f.ended && p f)).length

/-- Engine families of an opcode that share one engine of a core. -/
def isTile (op : Nat) : Bool := decide (0x10 ≤ op) && decide (op ≤ 0x15)
def isConv (op : Nat) : Bool := decide (0x30 ≤ op) && decide (op ≤ 0x33)
def isDma (op : Nat) : Bool := decide (0x50 ≤ op) && decide (op ≤ 0x54)
/-- Fixed-function vector commands (R225). -/
def isVec (op : Nat) : Bool := op == 0x41 || op == 0x73 || op == 0x80

/-- The target engine can accept a command (R322): the tile engine holds the command it runs and the next (R69); the conversion
engine, the fixed-function vector commands and VPROG one at a time (R104, R225); a DMA engine 16 (R632); a collective slice 16 and
the device 64 (R407). Every other opcode is always accepted. The depths R69, R104 leave unsaid are DESIGN CHOICE (log 14). -/
def State.engineAccepts (s : State) (core op : Nat) : Bool :=
  let here (p : Nat → Bool) := s.busyWith (fun f => f.core == core && p (byteAt f.bytes 0))
  if isTile op then decide (here isTile < 2)
  else if isConv op then decide (here isConv < 1)
  else if isVec op then decide (here isVec < 1)
  else if op = 0x40 then decide (here (· == 0x40) < 1)
  else if isDma op then decide (s.busyWith (fun f => f.core / 16 == core / 16 && isDma (byteAt f.bytes 0)) < 16)
  else if isCol op then
    decide (s.busyWith (fun f => f.core / 128 == core / 128 && isCol (byteAt f.bytes 0)) < 16)
      && decide (s.busyWith (fun f => isCol (byteAt f.bytes 0)) < 64)
  else true

/-- A deferred BWD_W (R176). -/
def deferred (cmd : List Byte) : Bool := byteAt cmd 0 == 0x15 && bitOf (byteAt cmd 63) 7

/-- A queue's head, when it is ready. -/
def Queue.readyHead (x : Queue) : Option Fetched :=
  match x.fetched with
  | h :: _ => if h.readyBeat.isSome then some h else none
  | [] => none

/-- R177 holds the deferred head of q: another ready command of the tile engine, of the same function, targets its core. -/
def State.heldByR177 (s : State) (q : Nat) (x : Queue) (h : Fetched) : Bool :=
  deferred h.bytes && h.promoted.isNone && s.queues.any (fun kv =>
    kv.1 != q && kv.2.core == x.core && s.fnOfQueue kv.1 == s.fnOfQueue q &&
      (match kv.2.readyHead with
       | some g => decide (0x10 ≤ byteAt g.bytes 0) && decide (byteAt g.bytes 0 ≤ 0x2F) && !deferred g.bytes
       | none => false))

/-- Nothing is granted at all: FATAL (R461), FLOW_STOP (R499) or stopped clocks (R500, R505). -/
def State.grantsStopped (s : State) : Bool := s.fatal || s.flowStop || s.power.clocksOff || s.fw.quiesce != 0

/-- Core c is in C0 and enters no other state (R237): its engines accept commands. -/
def State.awake (s : State) (c : Nat) : Bool := s.fld (A.PMCC c 8) 2 0 == 0

/-- The head of q is eligible (R322). -/
def State.eligible (s : State) (q : Nat) (x : Queue) : Bool :=
  match x.readyHead with
  | none => false
  | some h =>
    x.state == 1 && x.stopping == 0 && s.fnEnabled (s.fnOfQueue q) && s.engineAccepts x.core (byteAt h.bytes 0)
      && !s.heldByR177 q x h && !(s.core x.core).testHold && !s.grantsStopped && !bitOf s.clrst (x.core / 16)
      && (s.unavailable x.core || (s.awake x.core && !(s.faults.spareWaking.contains (x.core / 16) && s.slotOf x.core == 16)))

/-- Queues with an eligible head. -/
def State.eligibleQueues (s : State) : List (Nat × Queue) := s.queues.filter (fun kv => s.eligible kv.1 kv.2)

/-! ### Deficit-weighted round robin (R323) -/

/-- Pointer of a level instance (member + 1; 0: none visited) and the deficit of the member it stands at. -/
def Sorter.ptr (o : Sorter) (k : Nat) : Nat := smapGet (fun _ => 0) o.ptrs k
def Sorter.deficit (o : Sorter) (k : Nat) : Nat := smapGet (fun _ => 0) o.deficits k

/-- The member a level visits next after `p`: the first at or after p in ascending order, going round. -/
def nextMember (members : List Nat) (p : Nat) : Nat :=
  match members.find? (fun m => decide (p ≤ m)) with
  | some m => m
  | none => members.headD 0

/-- One level's choice among its members (ascending, not empty): the member at the pointer while it is eligible and has a deficit of
at least 1, else the next member, whose deficit becomes its quantum; the grant costs 1. A member left or skipped has deficit 0. -/
def Sorter.choose (o : Sorter) (k : Nat) (members : List Nat) (quantum : Nat → Nat) : Nat × Sorter :=
  let p := o.ptr k
  if 0 < p ∧ members.contains (p - 1) ∧ 1 ≤ o.deficit k then
    (p - 1, { o with deficits := smapPut (fun _ => 0) o.deficits k (o.deficit k - 1) })
  else
    let m := nextMember members p
    (m, { o with
      ptrs := smapPut (fun _ => 0) o.ptrs k (m + 1)
      deficits := smapPut (fun _ => 0) o.deficits k (zeroAs 1 (quantum m) - 1) })

/-- Ascending list without repeats. -/
def ascending (l : List Nat) : List Nat := sortBy (fun a b => decide (a ≤ b)) l.eraseDups

/-- Weight of branch group g of function f (R334). -/
def State.groupWeight (s : State) (f g : Nat) : Nat :=
  if g < 8 then bitsOf (s.reg (A.TENANT f 0x18)) (8 * g + 7) (8 * g) else bitsOf (s.reg (A.TENANT f 0x20)) (8 * (g - 8) + 7) (8 * (g - 8))

/-- The queue granted among eligible ones, and the arbiter after it: cluster, function, branch group, queue. -/
def State.arbitrate (s : State) (es : List (Nat × Queue)) : Nat × Sorter :=
  let (k, o1) := s.sorter.choose 0 (ascending (es.map (fun kv => kv.2.core / 16))) (fun _ => 1)
  let e2 := es.filter (fun kv => kv.2.core / 16 == k)
  let (f, o2) := o1.choose (1 + k) (ascending (e2.map (fun kv => s.fnOfQueue kv.1))) (fun f => s.fld (A.TENANT f 0x10) 15 0)
  let e3 := e2.filter (fun kv => s.fnOfQueue kv.1 == f)
  let (g, o3) := o2.choose (1024 + (k * 512 + f)) (ascending (e3.map (fun kv => kv.2.bgroup))) (s.groupWeight f)
  let e4 := e3.filter (fun kv => kv.2.bgroup == g)
  o3.choose (2 ^ 20 + (k * 512 + f) * 16 + g) (ascending (e4.map Prod.fst)) (fun _ => 1)

/-- The promoted eligible head that goes first: oldest promotion, then lower queue number (R325). -/
def oldestPromotion : List (Nat × Queue) → Option (Nat × Nat)
  | [] => none
  | (q, x) :: rest =>
    let here := match x.readyHead with | some h => h.promoted.map (fun b => (b, q)) | none => none
    match here, oldestPromotion rest with
    | none, r => r
    | some a, none => some a
    | some (b, q), some (b', q') => if b < b' ∨ (b = b' ∧ q < q') then some (b, q) else some (b', q')

/-! ### The grant -/

/-- The flight a granted command starts as. Its domain HALTED it ends with CANCELLED without executing (R164); its core unavailable,
with FAULT_LOST (R332). -/
def State.newFlight (s : State) (q : Nat) (x : Queue) (h : Fetched) : Flight :=
  let f := s.fnOfQueue q
  let dead := s.stepState f == 4 || s.unavailable x.core
  { queue := q, index := h.index, fn := f, core := x.core, epoch := x.epoch, bytes := h.bytes, grantBeat := s.beat, grantTick := s.ticks, powered := false,
    booked := 0, ended := dead, status := if s.stepState f = 4 then 1 else if s.unavailable x.core then 3 else 0, detail := 0,
    nanf := false, inff := false, reservedCode := false, outlierOvf := false, firstNan := false, firstRow := 0, firstCol := 0,
    blocks := [], cancel := false, stale := false, waiting := 0, wrote := [], remoteBlocks := [], voided := false, undelivered := false, inAttempt := s.attemptOpen f }

/-- Beats by which beat `b` lies after not-before beat `nb` (R313, R428). -/
def slipOf (b nb : Nat) : Nat := if nb ≠ 0 ∧ modGe 32 b nb then modSub 32 b nb else 0

/-- The attempt's largest SLIP after a dispatch (R428). -/
def State.noteSlip (s : State) (f : Nat) (cmd : List Byte) : State :=
  if s.attemptOpen f then s.modDomain f (fun d => { d with maxSlip := max d.maxSlip (slipOf s.beat (fieldAt cmd 4 4)) }) else s

/-- The head of queue q is granted to its engine (R322). -/
def State.grantQueue (s : State) (q : Nat) : State :=
  let x := s.queue q
  match x.fetched with
  | [] => s
  | h :: rest =>
    let s1 := (s.setQueue q { x with fetched := rest }).count A.QMG_GRANTS
    let s2 := { s1 with
      flights := s1.flights ++ [s.newFlight q x h]
      sorter := { s1.sorter with lastGrant := some (q, h.index) } }
    ((s2.noteSlip (s.fnOfQueue q) h.bytes).traceCore x.core 0x01 q (byteAt h.bytes 0) (h.index % 65536)).refreshHeads

/-- One Sorter cycle (R322 to R325). -/
def State.sorterCycle (s : State) : State :=
  let es := s.eligibleQueues
  match es with
  | [] => s
  | _ :: more =>
    let s1 := if more.isEmpty then s else s.count A.QMG_FULL_CYC
    match oldestPromotion es with
    | some (_, q) => (s1.count A.QMG_AGE_PROMO).grantQueue q
    | none =>
      let (q, o) := s1.arbitrate es
      ({ s1 with sorter := o } : State).grantQueue q

def execSorterGrant (s : State) : Result := .next s.sorterCycle

end Sys2Proof.Machine
end

