-- ==== Sys2Proof/Machine/Control.lean ====
section
/-!
DEFINITION. The control commands the Sorter executes (R316): NOP, FENCE, WAIT, SIGNAL, TIMER, REPORT, DRAIN_MARK (SIGNAL, which may leave the device, stands in `Machine/Remote.lean`), and the end of a
wait by time.
-/

namespace Sys2Proof.Machine

/-- Bytes of a control command that are reserved for each opcode (R316). -/
def controlReserved (op : Nat) : List Nat :=
  match op with
  | 0 => offs 32 63
  | 1 => offs 33 63
  | 2 => 37 :: 38 :: 39 :: offs 52 63
  | 3 => 37 :: offs 48 63
  | 4 => offs 40 63
  | 5 => offs 42 63
  | _ => offs 32 63

/-- A running control command whose reserved bytes and own field checks hold; one that breaks them ends with MALFORMED (R308). -/
def State.control (s : State) (q i op : Nat) (checks : List Byte → List (Nat × Bool)) (k : Flight → State) : Result :=
  s.engine q i op (fun fl =>
    match firstBad (checks fl.bytes ++ (controlReserved op).map (fun o => (o, byteAt fl.bytes o == 0))) with
    | some o => s.endFlight q i 8 o
    | none => k fl)

/-- Earlier commands of the queue are still in flight, those of a superseded epoch apart (R316, R329). -/
def State.earlierInFlight (s : State) (fl : Flight) : Bool :=
  s.flights.any (fun f => f.queue == fl.queue && f.index != fl.index && !f.stale
    && decide (modSub 32 fl.index f.index < 2 ^ 31))

def execNop (q i : Nat) (s : State) : Result := s.control q i 0 (fun _ => []) (fun _ => s.endFlight q i 0 0)

/-- FENCE completes when every earlier command of the queue has completed; their writes are then performed (R312). -/
def execFence (q i : Nat) (s : State) : Result :=
  s.control q i 1 (fun b => [(32, byteAt b 32 == 2 || byteAt b 32 == 3)])
    (fun fl => if s.earlierInFlight fl then (if fl.cancel then s.endFlight q i 2 0 else s) else s.endFlight q i 0 0)

/-- The comparison of a WAIT (R316). -/
def State.waitHolds (s : State) (b : List Byte) : Bool :=
  let v := fieldAt b 40 8
  let x := s.sem (fieldAt b 32 4)
  if byteAt b 36 = 1 then x == v else modGe 64 x v

/-- A semaphore of a control command the function does not own: PERMISSION with the semaphore's address (R309, R313). -/
def State.semDenied (s : State) (f n : Nat) : Bool := decide (n ≠ 0) && !s.ownsSem f n

def execWait (q i : Nat) (s : State) : Result :=
  s.control q i 2 (fun b => [(32, decide (fieldAt b 32 4 < 2 ^ 20)), (36, decide (byteAt b 36 < 2))]) (fun fl =>
    let n := fieldAt fl.bytes 32 4
    if s.semDenied fl.fn n then s.endFlight q i 7 (semAddr n)
    else if s.waitHolds fl.bytes then s.endFlight q i 0 0
    else if fl.cancel then s.endFlight q i 2 0 else s)

/-- TIMEOUT beats have passed for a WAIT that is still not satisfied: it ends with TIMEOUT and the beats waited (R313, R316). -/
def execWaitTimeout (q i : Nat) (s : State) : Result :=
  s.engine q i 2 (fun fl =>
    let t := fieldAt fl.bytes 48 4
    if t ≠ 0 ∧ fl.grantTick + t ≤ s.ticks ∧ !s.waitHolds fl.bytes then s.endFlight q i 9 (s.ticks - fl.grantTick) else s)

/-- A local semaphore operation: 0 add, 1 set, 2 unsigned maximum (R316, R356). -/
def State.semOp (s : State) (n op v : Nat) : State :=
  if op = 0 then s.addSem n v else if op = 1 then s.setSem n v else s.setSem n (max (s.sem n) v)

def execTimer (q i : Nat) (s : State) : Result :=
  s.control q i 4 (fun _ => []) (fun fl =>
    if fieldAt fl.bytes 32 8 ≤ s.beat then s.endFlight q i 0 0 else if fl.cancel then s.endFlight q i 2 0 else s)

/-- The beat of a running TIMER is reached. -/
def execTimerExpiry (q i : Nat) (s : State) : Result :=
  s.control q i 4 (fun _ => []) (fun fl => if fieldAt fl.bytes 32 8 ≤ s.beat then s.endFlight q i 0 0 else s)

/-- The 64-byte queue report (R316). -/
def State.queueReport (s : State) (q : Nat) : List Byte :=
  let x := s.queue q
  leBytes 8 s.beat ++ leBytes 4 x.head ++ leBytes 4 x.tail ++ leBytes 4 x.cdone ++ leBytes 4 x.epoch ++ leBytes 8 x.done
    ++ leBytes 8 x.cancelled ++ leBytes 8 x.deadLetters ++ leBytes 8 x.slipSum ++ leBytes 8 0

/-- BAR0 offset lies in a block that a virtual function's BAR0 decodes (R597, R553). -/
def vfOffset (f o : Nat) : Bool :=
  let inR (a n : Nat) : Bool := decide (a ≤ o) && decide (o < a + n)
  inR 0 0x18 || inR 0x10000 0x400 || inR 0x18000 8 || inR 0x1A000 0x200 || inR (0x310000 + f * 0x100) 0x100
    || inR (0x380000 + f * 0x80) 0x80 || inR (0x910000 + f * 0x40) 0x40 || inR (0x990000 + f * 0x40) 0x40

/-- BAR0 offsets listed by snapshot group g: the OD entry 0x7010 + g (R553). -/
def State.snapList (s : State) (g : Nat) : List Nat :=
  let v := smapGet (fun _ => ([] : List Byte)) s.od ((0x7010 + g) * 256)
  (List.range (v.length / 4)).map (fun j => fieldAt v (4 * j) 4)

/-- REPORT: KIND 0 writes at once; KIND 1 writes what the first beat boundary after its grant has captured (R316, R553). -/
def execReport (q i : Nat) (s : State) : Result :=
  s.control q i 5 (fun b => [(32, fieldAt b 32 8 % 64 == 0), (40, decide (byteAt b 40 < 2)), (41, decide (byteAt b 41 < 16))]) (fun fl =>
    let a := fieldAt fl.bytes 32 8
    let g := byteAt fl.bytes 41
    if byteAt fl.bytes 40 = 0 then
      (s.runJob fl.fn q i false none [{ reads := [], writes := [(a, s.queueReport q)] }]).finish q i {}
    else if fl.fn ≠ 0 ∧ !(s.snapList g).all (vfOffset fl.fn) then s.endFlight q i 7 a
    else match s.tel.captures.find? (fun x => x.1 == q && x.2.1 == i) with
      | none => s
      | some (_, _, rec_) => (s.runJob fl.fn q i false none [{ reads := [], writes := [(a, rec_)] }]).finish q i {})

/-- DRAIN_MARK: OK when every earlier command of the queue dispatched to its current core has completed (R316, R329). -/
def execDrainMark (q i : Nat) (s : State) : Result :=
  s.control q i 6 (fun _ => []) (fun fl =>
    if s.flights.any (fun f => f.queue == q && f.index != i && !f.stale && f.core == (s.queue q).core
        && decide (modSub 32 fl.index f.index < 2 ^ 31)) then s
    else s.endFlight q i 0 0)

end Sys2Proof.Machine
end

