-- ==== Sys2Proof/Machine/Rng.lean ====
section
/-!
DEFINITION. The lane generators (R200 to R214) and SAMPLE (R215 to R219).
-/

namespace Sys2Proof.Machine

/-! ### The generator (R200 to R205) -/

/-- S0 and S1 of a state. -/
def rngS0 (w : BitVec 128) : W64 := w.setWidth 64
def rngS1 (w : BitVec 128) : W64 := (w >>> 64).setWidth 64

/-- A state from its two words. -/
def rngState (s0 s1 : W64) : BitVec 128 := (s1.setWidth 128 <<< 64) ||| s0.setWidth 128

/-- One step: the output word and the next state (R200). -/
def rngStep (w : BitVec 128) : Nat × BitVec 128 :=
  let a := rngS0 w
  let b := rngS1 w
  let out := ((a + b) >>> 32).toNat
  let a1 := a ^^^ (a <<< 23)
  (out, rngState b (a1 ^^^ b ^^^ (a1 >>> 18) ^^^ (b >>> 5)))

/-- `n` steps: the words in order and the state after. -/
def rngSteps : Nat → BitVec 128 → List Nat × BitVec 128
  | 0, w => ([], w)
  | n + 1, w =>
    let (x, w1) := rngStep w
    let (xs, w2) := rngSteps n w1
    (x :: xs, w2)

/-- Physical position of lane 0 of the slot that serves logical core c (R203). -/
def State.posBase (s : State) (c : Nat) : Nat := (c / 16 * 17 + s.slotOf c) * 64

/-- The seeded state at physical position p (R204). -/
def seedState (jobseed p : Nat) : BitVec 128 :=
  rngState (mix64 (BitVec.ofNat 64 jobseed ^^^ BitVec.ofNat 64 (2 * p))) (mix64 (BitVec.ofNat 64 jobseed ^^^ BitVec.ofNat 64 (2 * p + 1)))

/-- The 64 states of a core. -/
def Core.laneList (x : Core) : List (BitVec 128) := (List.range 64).map (smapGet (fun _ => 0) x.lanes)

/-- The 64 states replaced. -/
def Core.putLanes (x : Core) (l : List (BitVec 128)) : Core :=
  { x with lanes := (List.range 64).foldl (fun m i => smapPut (fun _ => 0) m i (l.getD i 0)) [] }

/-- RNG_STATUS.VALID of core c. -/
def State.rngValid (s : State) (c : Nat) : Bool := s.fld (A.RNG c 8) 1 1 == 1

/-- The generators of core c are held by another command than (q, i) (R205): its running vector program draws. -/
def State.rngHeldByOther (s : State) (c q i : Nat) : Bool :=
  s.fld (A.RNG c 8) 0 0 == 1 &&
    (match (s.core c).vprog with
     | some v => !(v.queue == q && v.index == i)
     | none => false)

/-- All 64 lanes of core c step `n` times; RNG_WORDS counts lane 0's steps (R213, R223). Answers the words of each lane. -/
def State.drawWords (s : State) (c n : Nat) : List (List Nat) × State :=
  let l := ((s.core c).laneList).map (rngSteps n)
  (l.map Prod.fst, (s.modCore c (fun x => x.putLanes (l.map Prod.snd))).count (A.RNG c 0x18) n)

/-- r16 of random position e (R213). -/
def r16At (words : List (List Nat)) (e : Nat) : Nat :=
  let t := e % 128
  let w := (words.getD (t % 64) []).getD (e / 128) 0
  if t < 64 then w % 65536 else w / 65536

/-- RNG_SEEDPOS fields (R222). -/
def State.setSeedpos (s : State) (c : Nat) (seeded : Bool) (base : Nat) : State :=
  (s.setFld (A.RNG c 0x10) 17 17 (b2n seeded)).setFld (A.RNG c 0x10) 15 0 (if seeded then base else 0)

/-- The generators of core c go back to what they were at the drawing command's start (R207). -/
def State.rollback (s : State) (c : Nat) (saved : List (Nat × BitVec 128)) : State :=
  (s.modCore c (fun x => { x with lanes := saved })).count (A.RNG c 0x28)

/-- A drawing command (q, i) on its core: it waits while another holds the generators; not valid, it ends with FAULT_LOST (R208);
else `k` draws and works, and a status other than OK rolls the generators back (R207). -/
def State.drawing (s : State) (q i : Nat) (fl : Flight) (k : State → State) : State :=
  if s.rngHeldByOther fl.core q i then s.countCycles (A.RNG fl.core 0x20)
  else if !s.rngValid fl.core then s.endFlight q i 3 0
  else
    let saved := (s.core fl.core).lanes
    let s1 := k s
    match s1.flight? q i with
    | some f => if f.ended && f.status != 0 then s1.rollback fl.core saved else s1
    | none => s1

/-! ### Generator areas (R210 to R212) -/

/-- The 16 bytes of a lane's state (R211). -/
def stateBytes (w : BitVec 128) : List Byte := leBytes 8 (rngS0 w).toNat ++ leBytes 8 (rngS1 w).toNat

/-- The 1 KiB of a core's states (R211, R146). -/
def Core.laneBytes (x : Core) : List Byte := x.laneList.flatMap stateBytes

/-- States read from 1 KiB of bytes. -/
def lanesOfBytes (bs : List Byte) : List (BitVec 128) :=
  (List.range 64).map (fun l => rngState (BitVec.ofNat 64 (fieldAt bs (16 * l) 8)) (BitVec.ofNat 64 (fieldAt bs (16 * l + 8) 8)))

/-- The 2 KiB generator area of core c (R211). -/
def State.areaBytes (s : State) (c : Nat) : List Byte := (s.core c).laneBytes ++ List.replicate 1024 0

/-- An area lies outside the memory of function f (R212): what a read is refused for another reason than a lost unit. -/
def State.outsideMemory (s : State) (f a n : Nat) : Bool :=
  match s.refused f a n false with
  | some (st, _) => st == 7
  | none => false

/-- The MALFORMED checks of RNG_SAVE and RNG_LOAD (R210, R212). -/
def State.rngBad (s : State) (load : Bool) (fl : Flight) : Option Nat :=
  let b := fl.bytes
  let seed := byteAt b 40 == 1
  let area := fieldAt b 32 8
  firstBad ([(32, (load && seed) || (area % 2048 == 0 && !s.outsideMemory fl.fn area 2048)),
             (40, if load then decide (byteAt b 40 < 2) else byteAt b 40 == 0)]
    ++ (offs 41 47).map (fun o => (o, byteAt b o == 0))
    ++ [(48, (load && seed) || fieldAt b 48 8 == 0)]
    ++ (offs 56 63).map (fun o => (o, byteAt b o == 0)))

/-- The core's states go to AREA, sealed (R210, R211). -/
def State.saveLanes (s : State) (q i : Nat) (fl : Flight) : State :=
  (s.runJob fl.fn q i false (fl.stopAt none) [{ reads := [], writes := [(fieldAt fl.bytes 32 8, s.areaBytes fl.core)] }]).finish q i {}

/-- RNG_SAVE (R210, R211). -/
def execRngSave (q i : Nat) (s : State) : Result :=
  s.dispatch q i 0x81 (s.rngBad false) (fun t fl => t.drawing q i fl (fun u => u.saveLanes q i fl))

/-- The 64 states of core c become `l`, valid (R208, R222). -/
def State.loadLanes (s : State) (c : Nat) (l : List (BitVec 128)) (seeded : Bool) (base : Nat) : State :=
  ((s.modCore c (fun x => x.putLanes l)).setFld (A.RNG c 8) 1 1 1).setSeedpos c seeded base

/-- The states are seeded from JOBSEED and the physical positions of the core's lanes (R204). -/
def State.seedLanes (s : State) (q i : Nat) (fl : Flight) : State :=
  let base := s.posBase fl.core
  (s.loadLanes fl.core ((List.range 64).map (fun l => seedState (fieldAt fl.bytes 48 8) (base + l))) true base).endFlight q i 0 0

/-- The states come from a verified area; the area is read and checked before the generators are taken, and the command waits while another
command holds them (R205, R211, R212). -/
def State.areaLanes (s : State) (q i : Nat) (fl : Flight) : State :=
  let a := fieldAt fl.bytes 32 8
  let r := s.runJob fl.fn q i true none [{ reads := [(a, 2048)], writes := [] }]
  let l := lanesOfBytes (s.engRead fl.fn a 1024)
  if r.status ≠ 0 then r.finish q i {}
  else if l.any (fun w => w == 0) then r.st.endFlight q i 8 32
  else if s.rngHeldByOther fl.core q i then s.countCycles (A.RNG fl.core 0x20)
  else (r.st.loadLanes fl.core l false 0).endFlight q i 0 0

/-- RNG_LOAD, in seed mode or from an area; it waits while another command holds the generators (R205). -/
def execRngLoad (q i : Nat) (s : State) : Result :=
  s.dispatch q i 0x82 (s.rngBad true) (fun t fl =>
    if byteAt fl.bytes 40 ≠ 1 then t.areaLanes q i fl
    else if t.rngHeldByOther fl.core q i then t.countCycles (A.RNG fl.core 0x20)
    else t.seedLanes q i fl)

/-! ### SAMPLE (R215 to R219) -/

/-- Fields of SAMPLE (R215). -/
structure SampleCmd where
  src : Nat
  dst : Nat
  rows : Nat
  v : Nat
  invt : Nat
  topp : Nat
  k : Nat
  bf16 : Bool
  greedy : Bool
  deriving DecidableEq, Repr

def sampleCmd (b : List Byte) : SampleCmd :=
  { src := fieldAt b 32 8, dst := fieldAt b 40 8, rows := fieldAt b 48 4 / 2 ^ 20 + 1, v := fieldAt b 48 4 % 2 ^ 20 + 1,
    invt := fieldAt b 52 4, topp := fieldAt b 56 4, k := fieldAt b 60 2, bf16 := bitOf (byteAt b 62) 0, greedy := bitOf (byteAt b 62) 1 }

/-- Row stride of the logits. -/
def SampleCmd.stride (x : SampleCmd) : Nat := (x.v * (if x.bf16 then 2 else 4) + 15) / 16 * 16

/-- TOPP makes a cut (R215). -/
def toppCut (t : Nat) : Bool := flt 0 t && flt t 0x3F800000

/-- The MALFORMED checks of SAMPLE (R215, R216, R219). -/
def sampleBad (fl : Flight) : Option Nat :=
  let x := sampleCmd fl.bytes
  firstBad [(32, x.src % 16 == 0), (40, x.dst % 16 == 0), (52, isFin32 x.invt && flt 0 x.invt),
    (56, !(toppCut x.topp && x.k == 0)), (60, decide (x.k ≤ 1024)), (62, decide (byteAt fl.bytes 62 < 4)), (63, byteAt fl.bytes 63 == 0),
    (40, !overlaps x.src (x.rows * x.stride) x.dst (16 * x.rows))]

/-- Sequential prefix sums under RNE from a running sum. -/
def prefixSums : Nat → List Nat → List Nat
  | _, [] => []
  | acc, w :: ws => let a := fadd acc w; a :: prefixSums a ws

/-- Sequential prefix sums of a list, the first being its own value. -/
def sums : List Nat → List Nat
  | [] => []
  | w :: ws => w :: prefixSums w ws

/-- exp of R101 rounded, of a difference of scores. -/
def expOf (z m : Nat) : Nat := fexp (fsub z m)

/-- Candidates in C's order with their weights (R216, R217). -/
def sampleCands (x : SampleCmd) (z : List Nat) : List (Nat × Nat) :=
  let idx := List.range x.v
  let zi (j : Nat) := z.getD j 0
  let order := if 0 < x.k then
      (sortBy (fun a b => !flt (zi a) (zi b)) idx).take x.k
    else (List.range 64).flatMap (fun l => idx.filter (fun j => j % 64 == l))
  if idx.any (fun j => zi j == inf32) then
    let c := idx.filter (fun j => zi j == inf32)
    (if 0 < x.k then c.take x.k else c).map (fun j => (j, 0x3F800000))
  else
    let m := (order.map zi).foldl (fun a b => if flt a b then b else a) 0xFF800000
    order.map (fun j => (j, expOf (zi j) m))

/-- The kept prefix of candidates with prefix sums (R216). -/
def sampleKept (x : SampleCmd) (c : List (Nat × Nat)) (pre : List Nat) : Nat :=
  if 0 < x.k && toppCut x.topp then
    let bound := fmul x.topp (pre.getLastD 0)
    min c.length ((pre.takeWhile (fun p => flt p bound)).length + 1)
  else c.length

/-- The first index whose prefix sum exceeds t, or the last (R216). -/
def firstAbove (t : Nat) (pre : List Nat) : Nat :=
  let n := (pre.takeWhile (fun p => !flt t p)).length
  if n < pre.length then n else pre.length - 1

/-- Lane totals of the full-row path and the total (R216): per lane, sequential in ascending index. -/
def laneTotals (c : List (Nat × Nat)) : List (List (Nat × Nat)) :=
  (List.range 64).map (fun l => c.filter (fun p => p.1 % 64 == l))

/-- One row's record: token, candidates left, probability (R216 to R218). -/
def sampleRow (x : SampleCmd) (logits : List Nat) (word : Nat) : Nat × Nat × Nat :=
  let z := logits.map (fun l => if isNan32 l then 0xFF800000 else fmul l x.invt)
  if z.all (fun c => c == 0xFF800000 || isNan32 c) then (0xFFFFFFFF, 0, 0)
  else
    let c := sampleCands x z
    let u := rne32 (.fin ((word / 256 : Nat) : Int) (-24))
    let greedyFull := (List.range x.v).foldl (fun b j => if flt (z.getD b 0) (z.getD j 0) then j else b) 0
    if 0 < x.k ∨ z.any (fun v => v == inf32) then
      let pre := sums (c.map Prod.snd)
      let n := sampleKept x c pre
      let w := (pre.take n).getLastD 0
      let t := fmul u w
      let at_ := if x.greedy then 0 else firstAbove t (pre.take n)
      let p := c.getD at_ (0, 0)
      (if x.greedy && x.k == 0 then greedyFull else p.1, n, fdiv p.2 w)
    else
      let lanes := (laneTotals c).filter (fun l => !l.isEmpty)
      let tot := lanes.map (fun l => (sums (l.map Prod.snd)).getLastD 0)
      let pre := sums tot
      let w := pre.getLastD 0
      let t := fmul u w
      let li := firstAbove t pre
      let lane := lanes.getD li []
      let base := if li = 0 then none else pre[li - 1]?
      let inner := match base with | none => sums (lane.map Prod.snd) | some b => prefixSums b (lane.map Prod.snd)
      let p := lane.getD (firstAbove t inner) (0, 0)
      let tok := if x.greedy then greedyFull else p.1
      (tok, x.v, fdiv ((c.find? (fun y => y.1 == tok)).getD p).2 w)

/-- The logits of row r as FP32 codes. -/
def State.logits (s : State) (f : Nat) (x : SampleCmd) (r : Nat) : List Nat :=
  let bs := s.engRead f (x.src + r * x.stride) (x.v * (if x.bf16 then 2 else 4))
  (List.range x.v).map (fun j => if x.bf16 then bf16to32 (fieldAt bs (2 * j) 2) else fieldAt bs (4 * j) 4)

/-- Flags of a matrix of FP32 codes in row-major order with `cols` columns (R56, R57). -/
def flagsOf (cols : Nat) (l : List Nat) : Flags :=
  let first := (l.zipIdx).find? (fun p => isNan32 p.1 || isInf32 p.1)
  match first with
  | none => {}
  | some (c, i) => { nanf := l.any isNan32, inff := l.any isInf32, firstNan := isNan32 c, firstRow := i / cols, firstCol := i % cols }

/-- A token is drawn for each row and its record written (R215 to R219). -/
def State.sampleRows (s : State) (q i : Nat) (stop : Option Nat) (fl : Flight) : State :=
  let x := sampleCmd fl.bytes
  let (words, s1) := s.drawWords fl.core ((x.rows + 63) / 64)
  let recs := (List.range x.rows).map (fun r => sampleRow x (s.logits fl.fn x r) ((words.getD (r % 64) []).getD (r / 64) 0))
  let segs := recs.zipIdx.map (fun p => ({
    reads := [(x.src + p.2 * x.stride, x.v * (if x.bf16 then 2 else 4))]
    writes := [(x.dst + 16 * p.2, leBytes 4 p.1.1 ++ leBytes 4 p.1.2.1 ++ leBytes 4 p.1.2.2 ++ leBytes 4 0)] } : Seg))
  let r := s1.runJob fl.fn q i true (fl.stopAt stop) segs
  let n := if r.status = 0 then x.rows else min x.rows r.wrote.length
  let s2 := r.finish q i (flagsOf x.v ((List.range n).flatMap (fun k => s.logits fl.fn x k)))
  (s2.count (A.RNG fl.core 0x30) n).count (A.RNG fl.core 0x38) ((recs.take n).filter (fun p => p.1 == 0xFFFFFFFF)).length

/-- SAMPLE. `stop`: rows after which a cancel stops it (its cancellation points lie after each row and within one, R219; a row stopped
within itself writes nothing). -/
def execSample (q i : Nat) (stop : Option Nat) (s : State) : Result :=
  s.dispatch q i 0x80 sampleBad (fun t fl => t.drawing q i fl (fun u => u.sampleRows q i stop fl))

end Sys2Proof.Machine
end

