-- ==== Sys2Proof/Machine/Completion.lean ====
section
/-!
DEFINITION. What Xolyn does when a command has ended, in order (R312 to R314); stale results (R329).
-/

namespace Sys2Proof.Machine

/-- Codes that perform the signal (R314). -/
def signals (status : Nat) : Bool := status == 0 || (decide (2 ≤ status) && decide (status ≤ 5)) || status == 9 || status == 0xA

/-- Codes that set the step cause FAULT (R154). -/
def faultStatus (status : Nat) : Bool := status == 3 || status == 4 || status == 5 || status == 7 || status == 9

/-- SLIP: grant beat minus NB when positive (R313). -/
def Flight.slip (fl : Flight) : Nat := slipOf fl.grantBeat (fieldAt fl.bytes 4 4)

/-- The completion record of a flight; a stale one tells STALE_EPOCH (R313, R329). -/
def Flight.completion (fl : Flight) : Completion :=
  { index := fl.index, status := if fl.stale then 6 else fl.status, opcode := byteAt fl.bytes 0, epoch := fl.epoch % 256, slip := fl.slip
    detail := if fl.stale && !isCol (byteAt fl.bytes 0) then 0 else fl.detail
    flags := {
      nanf := fl.nanf, inff := fl.inff, reservedCode := fl.reservedCode, outlierOvf := fl.outlierOvf, firstNan := fl.firstNan
      firstRow := fl.firstRow, firstCol := fl.firstCol } }

/-- The signal of a completed command, when its status performs it (R307, R314). -/
def State.signal (s : State) (cmd : List Byte) (status : Nat) : State :=
  let n := fieldAt cmd 8 4 % 2 ^ 20
  if n = 0 ∨ !signals status then s
  else if bitOf (byteAt cmd 1) 2 then s.setSem n (fieldAt cmd 12 4) else s.addSem n (fieldAt cmd 12 4)

/-- The cause FAULT of a command dispatched in the attempt; after the sample it waits for the next attempt (R154, R166). -/
def State.faultCause (s : State) (fl : Flight) (status : Nat) : State :=
  if !fl.inAttempt ∨ !faultStatus status then s
  else if s.stepState fl.fn = 1 then s.setCause fl.fn 2
  else if s.stepState fl.fn = 2 then s.modDomain fl.fn (fun d => { d with lateFault := true })
  else s

/-- A vector program that ends releases its threads, and the generators when it held them, rolled back unless OK (R205, R207, R318). -/
def State.endProgram (s : State) (fl : Flight) (status : Nat) : State :=
  match (s.core fl.core).vprog with
  | some v =>
    if v.queue == fl.queue && v.index == fl.index then
      let x := s.core fl.core
      let held := s.fld (A.RNG fl.core 8) 0 0 == 1
      let s1 := if held && status != 0 then s.rollback fl.core x.lanesSaved else s
      (s1.setFld (A.RNG fl.core 8) 0 0 0).modCore fl.core (fun y => { y with
        vprog := none
        lanesSaved := []
        threads := y.threads.map (fun t => if v.threads.contains t.1 then (t.1, { t.2 with running := false, wait := .none }) else t) })
    else s
  | none => s

/-- A command that has ended leaves: in the order of R312, its record, its signal and its interrupt; then what its end releases.
`m` and `withheld` are the governor's largest estimate and whether it withheld a cycle (R482, R485). -/
def State.completeFlight (s : State) (fl : Flight) (m : Nat) (withheld : Bool) : State :=
  let q := fl.queue
  let c := fl.completion
  let s1 := if fl.stale then s.voidBlocks fl.blocks else s
  let s2 := s1.complete fl.fn q fl.bytes c fl.undelivered
  let s3 := if fl.stale then s2 else s2.signal fl.bytes c.status
  let s4 := if bitOf (byteAt fl.bytes 1) 0 && (s.queue q).irqEn then s3.raiseVector fl.fn (s.queue q).msix else s3
  let s5 := ((s4.faultCause fl c.status).endProgram fl c.status).modCore fl.core (fun x => { x with idleSince := s.ticks })
  let s6 := s5.closeRecords (fun r => r.cls == 1 && r.queue == q && r.index == fl.index)
  let op := byteAt fl.bytes 0
  let s7 := if op = 0x80 then s6.count (A.RNG fl.core 0x40)
    else if 0x10 ≤ op ∧ op ≤ 0x15 then s6.count (A.CUB fl.core 0x50)
    else if 0x30 ≤ op ∧ op ≤ 0x33 then s6.count (A.CVT fl.core 0x40)
    else if isCol op then ((s6.count (A.COL 0x10)).count (A.COLF fl.fn 0x10)).count (A.COL 0x58) (b2n (c.status == 9))
    else s6
  let s8 := ((s7.learn fl.bytes fl.booked m withheld).release (.cmd q fl.index)).dropPre q fl.index
  let dl := (letterReason c.status fl.undelivered).isSome && (s2.letters fl.fn).seq != (s1.letters fl.fn).seq
  let b5 := byteAt (c.bytes (s.queue q).log2size s.beat dl) 5
  let s9 := s8.traceCore fl.core 0x02 q (byteAt fl.bytes 0) (c.status * 256 + b5)
  (({ s9 with flights := s9.flights.filter (fun f => !(f.queue == q && f.index == fl.index)) } : State).refreshHeads).settleQueue q

end Sys2Proof.Machine
end

