-- ==== Sys2Proof/Machine/Tenants.lean ====
section
/-!
DEFINITION. Tenant entries (R319, R320, R334), granule actions (R335) and migration (R328, R329).
-/

namespace Sys2Proof.Machine

/-! ### TENANT_ENTRY_WRITE -/

/-- CFG_ERR with a code. -/
def State.cfgErr (s : State) (f code : Nat) : State := (s.setFld (A.TENANT f 0) 62 62 1).setFld (A.TENANT f 0) 61 56 code

/-- Two half-open ranges meet. -/
def rangesMeet (a n b m : Nat) : Bool := decide (a < b + m) && decide (b < a + n) && decide (0 < n) && decide (0 < m)

/-- Functions f and g share a core. -/
def State.sharesCore (s : State) (f g : Nat) : Bool :=
  (List.range 8).any (fun j => s.reg (A.TENANT f (0x40 + 8 * j)) &&& s.reg (A.TENANT g (0x40 + 8 * j)) != 0)

/-- The error code that keeps ENABLE at 0 (R320, R334), none when the entry is valid. -/
def State.enableError (s : State) (f : Nat) : Option Nat :=
  if !(List.range 512).any (fun c => s.ownsCore f c && !s.unavailable c) then some 1
  else if 262144 < s.qbase f + s.qcount f ∨ 1048576 < s.semBase f + s.semCount f then some 2
  else if (List.range 512).any (fun g => g != f && s.fnEnabled g && (s.sharesCore f g
      || rangesMeet (s.qbase f) (s.qcount f) (s.qbase g) (s.qcount g)
      || rangesMeet (s.semBase f) (s.semCount f) (s.semBase g) (s.semCount g))) then some 3
  else none

/-- ENABLE set, mirrored in QMG_FSTATUS (R336). -/
def State.setEnabled (s : State) (f v : Nat) : State := (s.setFld (A.TENANT f 0) 63 63 v).setFld (A.QMGF f 0x80) 0 0 v

/-- A write of field [hi:lo] that may not change while the function is enabled (R320). -/
def State.guardedField (s : State) (f off hi lo val : Nat) : State :=
  let new := bitsOf val hi lo
  let old := s.fld (A.TENANT f off) hi lo
  if new = old then s
  else if s.fnEnabled f then s.cfgErr f 5
  else s.setFld (A.TENANT f off) hi lo new

/-- Every queue of f is DISABLED. -/
def State.queuesDisabled (s : State) (f : Nat) : Bool := s.queues.all (fun kv => !s.ownsQueue f kv.1 || kv.2.state == 0)

/-- The ENABLE bit of a write to word 0 (R320). -/
def State.writeEnable (s : State) (f : Nat) (new : Bool) : State :=
  if new == s.fnEnabled f then s
  else if new then
    match s.enableError f with
    | some c => s.cfgErr f c
    | none => s.setEnabled f 1
  else if s.queuesDisabled f then s.setEnabled f 0 else s.cfgErr f 4

/-- CORES of the entry follows the mask (R334). -/
def State.countCores (s : State) (f : Nat) : State :=
  s.setFld (A.TENANT f 0x28) 41 32 ((List.range 512).filter (fun c => s.ownsCore f c)).length

/-- A write of the physical function to offset `off` of f's entry. -/
def State.tenantWrite (s : State) (f off val : Nat) : State :=
  if off = 0 then
    let s1 := if bitOf val 62 then s.setFld (A.TENANT f 0) 62 62 0 else s
    (((s1.guardedField f 0 49 32 val).guardedField f 0 18 0 val).writeEnable f (bitOf val 63)).refreshHeads
  else if off = 8 then (s.guardedField f 8 52 32 val).guardedField f 8 19 0 val
  else if off = 0x10 then
    (if bitsOf val 63 48 = 0xFFFF then s.cfgErr f 6 else s.guardedField f 0x10 63 48 val).setFld (A.TENANT f 0x10) 15 0 val
  else if off = 0x18 ∨ off = 0x20 then s.setReg (A.TENANT f off) val
  else if 0x40 ≤ off then (s.guardedField f off 63 0 val).countCores f
  else s

/-- Offsets of a tenant entry's words. -/
def tenantOffset (off : Nat) : Bool := off % 8 == 0 && decide (off < 0x80)

def execTenantEntryWrite (f off val : Nat) (s : State) : Result :=
  onUnit (decide (f < 512) && tenantOffset off) (if s.reaches 0 then s.tenantWrite f off val else s)

/-! ### Granule actions (R335) -/

/-- Granules of a tier. -/
def tierGranules (tier : Nat) : Nat := if tier = 0 then 393216 else 16352

/-- Owner-table key of granule n of a tier. -/
def granKey (tier n : Nat) : Nat := tier * 2 ^ 20 + n

def State.granuleOwner (s : State) (tier n : Nat) : Nat := smapGet (fun _ => 0) s.tiers.granOwner (granKey tier n)

/-- First device address of granule n of a tier. -/
def granAddr (tier n : Nat) : Nat := if tier = 0 then n * 0x200000 else fastBase + (n / 4088) * dieFast + (n % 4088) * 0x200000

/-- An ASSIGN is refused (R335). -/
def State.assignRefused (s : State) (func tier first count : Nat) : Bool :=
  decide (1 < tier) || count == 0 || decide (tierGranules tier < first + count)
    || (List.range count).any (fun j =>
        let o := s.granuleOwner tier (first + j)
        (o != 0 && o != func && s.fnEnabled o) || (tier == 1 && s.inPart ((first + j) / 4088) ((first + j) % 4088 * 0x200000)))

/-- The fields of QMG_GRAN_CMD that an action write sets. -/
def State.granFields (s : State) (func tier clear : Nat) : State :=
  ((s.setFld A.GRAN_CMD 24 16 func).setFld A.GRAN_CMD 9 8 tier).setFld A.GRAN_CMD 2 2 clear

/-- An action write: refused with ERR, or in progress with BUSY. A write while BUSY starts nothing and sets ERR (DEDUCED, log 15). -/
def State.granStart (s : State) (query : Bool) (func tier clear : Nat) : State :=
  let first := s.fld A.GRAN_RANGE 18 0
  let count := s.fld A.GRAN_RANGE 50 32
  if !s.reaches 0 then s
  else if s.tiers.granAction.isSome then s.setFld A.GRAN_CMD 62 62 1
  else
    let s1 := s.granFields func tier clear
    let bad := if query then decide (1 < tier) || decide (tierGranules tier ≤ first) else s.assignRefused func tier first count
    if bad then s1.setFld A.GRAN_CMD 62 62 1
    else
      ({ s1 with tiers := { s1.tiers with
          granAction := some { zero := clear == 1, tier := tier, first := first, count := count, fn := func, query := query } } }
        : State).setFld A.GRAN_CMD 63 63 1

def execAssign (func tier clear : Nat) (s : State) : Result :=
  onUnit (decide (func < 512) && decide (tier < 4) && decide (clear < 2)) (s.granStart false func tier clear)

def execQuery (func tier clear : Nat) (s : State) : Result :=
  onUnit (decide (func < 512) && decide (tier < 4) && decide (clear < 2)) (s.granStart true func tier clear)

/-- Length of the run of granules from n on with owner `o`, over at most `fuel` granules. -/
def State.runLength (s : State) (tier o : Nat) : Nat → Nat → Nat
  | 0, _ => 0
  | fuel + 1, n => if s.granuleOwner tier n = o then s.runLength tier o fuel (n + 1) + 1 else 0

/-- The bytes of a granule zeroed, its blocks void (R256). -/
def State.zeroGranule (s : State) (a : Nat) : State :=
  { s with
    mem := smapDrop (fun x => decide (a ≤ x) && decide (x < a + 0x200000)) s.mem
    seals := smapDrop (fun x => decide (a ≤ x) && decide (x < a + 0x200000)) s.seals }

/-- One granule changes its owner; GRANULES of both functions follow (R334). -/
def State.giveGranule (s : State) (tier n func : Nat) : State :=
  let o := s.granuleOwner tier n
  if o = func then s
  else
    let s1 := { s with tiers := { s.tiers with granOwner := smapPut (fun _ => 0) s.tiers.granOwner (granKey tier n) func } }
    let s2 := s1.setFld (A.TENANT o 0x28) 18 0 (s1.fld (A.TENANT o 0x28) 18 0 - 1)
    s2.setFld (A.TENANT func 0x28) 18 0 (s2.fld (A.TENANT func 0x28) 18 0 + 1)

/-- An ASSIGN of one granule: cluster-cache lines written back and invalidated, contents zeroed when asked, owner changed. -/
def State.assignGranule (s : State) (clear : Bool) (tier n func : Nat) : State :=
  let a := granAddr tier n
  let s1 := s.purgeWhere (fun x => decide (a ≤ x) && decide (x < a + 0x200000))
  (if clear then s1.zeroGranule a else s1).giveGranule tier n func

/-- The action in progress finishes: its effect, and BUSY clears. -/
def State.granDone (s : State) : State :=
  match s.tiers.granAction with
  | none => s
  | some g =>
    let s1 := ({ s with tiers := { s.tiers with granAction := none } } : State).setFld A.GRAN_CMD 63 63 0
    if g.query then
      let o := s.granuleOwner g.tier g.first
      (s1.setFld A.GRAN_CMD 24 16 o).setFld A.GRAN_RANGE 50 32 (s.runLength g.tier o (tierGranules g.tier - g.first) g.first)
    else (List.range g.count).foldl (fun t j => t.assignGranule g.zero g.tier (g.first + j) g.fn) s1

def execGranuleActionDone (s : State) : Result := .next s.granDone

/-! ### Migration (R328, R329) -/

/-- MIGRATE of queue q: step 1, and the drain mark behind its granted commands (R328). Only an ENABLED queue migrates (DEDUCED, log 16). -/
def State.migrateOn (s : State) (f core q : Nat) : State :=
  (s.setFld (A.QMGF f 8) 24 16 core).actOn f q
    (fun x => if x.state ≠ 1 then some 2 else if !s.coreOk f core then some 3 else none)
    (fun x => (s.setFld (A.QMGF f 8) 24 16 core).setQueue q { x with
      state := 3
      epoch := x.epoch + 1
      migration := some { oldCore := x.core, newCore := core, drained := false, saved := false, since := s.ticks } })

def execMigrate (f core : Nat) (s : State) : Result :=
  onUnit (decide (f < 512)) (s.queueAction f 5 core (fun t q => t.migrateOn f core q))

/-- The queue actions that waited for the scheduler core are done (R576). -/
def State.runDeferred (s : State) : State :=
  s.queues.foldl (fun t kv =>
    match kv.2.deferred with
    | none => t
    | some d =>
      let u := t.modQueue kv.1 (fun x => { x with deferred := none })
      if d.action = 0 then u.enableOn d.fn d.core kv.1
      else if d.action = 1 then u.pauseOn d.fn kv.1
      else if d.action = 2 then u.resumeOn d.fn kv.1
      else if d.action = 3 then u.disableOn d.fn kv.1
      else if d.action = 4 then u.resetOn d.fn kv.1
      else u.migrateOn d.fn d.core kv.1) s

/-- Steps 4 and 5: the new core starts the queue. -/
def State.migrateEnd (s : State) (q : Nat) (m : Migration) : State :=
  ((s.modQueue q (fun x => { x with state := 1, core := m.newCore, migration := none })).count A.QMG_MIGRATIONS).refreshHeads

/-- The generators of a core marked not valid (R328 step 4, R208). -/
def State.rngInvalidate (s : State) (c : Nat) : State := s.setFld (A.RNG c 8) 1 1 0

/-- RNG_SAVE of the old core to RNG_AREA and RNG_LOAD on the new one (R209, R328). The save takes place only with valid states and an
area in the function's memory (R208, R212). -/
def State.migrateRng (s : State) (q : Nat) (m : Migration) : State :=
  let a := (s.queue q).rngArea
  let f := s.fnOfQueue q
  if s.rngValid m.oldCore && (s.refused f a 2048 true).isNone then
    let l := (s.core m.oldCore).laneList
    let r := s.runJob f q 0 false none [{ reads := [], writes := [(a, s.areaBytes m.oldCore)] }]
    if r.status = 0 then r.st.loadLanes m.newCore l false 0 else r.st.rngInvalidate m.newCore
  else s.rngInvalidate m.newCore

/-- The drain mark of the old epoch completes: nothing of the queue is in flight. -/
def State.drainDone (s : State) (q : Nat) : State :=
  match (s.queue q).migration with
  | none => s
  | some m =>
    if s.flights.any (fun f => f.queue == q && !f.stale) then s
    else if (s.queue q).rngBind then
      if s.rngHeldByOther m.oldCore q 0 ∨ s.rngHeldByOther m.newCore q 0 then s else (s.migrateRng q m).migrateEnd q m
    else s.migrateEnd q m

def execMigrationDrainDone (q : Nat) (s : State) : Result := onUnit (decide (q < Config.queues)) (s.drainDone q)

/-- MIG_TO beats after step 1 with commands of the old epoch still in flight: the new core starts; their results are stale. -/
def State.migrationTimeout (s : State) (q : Nat) : State :=
  match (s.queue q).migration with
  | none => s
  | some m =>
    if s.ticks < m.since + zeroAs 50 (s.fld A.QMG_CFG 23 16) ∨ !s.flights.any (fun f => f.queue == q && !f.stale) then s
    else
      let s1 := { s with flights := s.flights.map (fun (f : Flight) => if f.queue == q then { f with stale := true } else f) }
      (if (s.queue q).rngBind then s1.rngInvalidate m.newCore else s1).migrateEnd q m

def execMigrationTimeout (q : Nat) (s : State) : Result := onUnit (decide (q < Config.queues)) (s.migrationTimeout q)

end Sys2Proof.Machine
end

