-- ==== Sys2Proof/Machine/Fabric.lean ====
section
/-!
DEFINITION. Fabric links at message level (R344, R345, R350 to R356): nodes, routing, sending and delivering messages, partition
keys, and the state changes of a link that these need.
-/

namespace Sys2Proof.Machine

/-! ### Links as a table -/

def State.link (s : State) (n : Nat) : LinkState := smapGet (fun _ => LinkState.init) s.fabric.links n
def State.setLink (s : State) (n : Nat) (l : LinkState) : State :=
  { s with fabric := { s.fabric with links := smapPut (fun _ => LinkState.init) s.fabric.links n l } }
def State.modLink (s : State) (n : Nat) (g : LinkState → LinkState) : State := s.setLink n (g (s.link n))

/-- State of link n (R375): 0 ABSENT, 1 TRAINING, 2 AUTHENTICATING, 3 UP, 4 DEGRADED, 5 QUARANTINED. -/
def State.linkSt (s : State) (n : Nat) : Nat := s.fld (A.LNK n 8) 2 0

/-- The link carries traffic of every VC. -/
def State.linkUp (s : State) (n : Nat) : Bool := s.linkSt n == 3 || s.linkSt n == 4

/-- Usable: UP or DEGRADED and not retraining (R353). -/
def State.usable (s : State) (n : Nat) : Bool := s.linkUp n && s.fld (A.LNK n 8) 3 3 == 0

/-! ### Shape (R17, R350, R351) -/

/-- The links of a direction by position (R17). Directions: 0 +X, 1 -X, 2 +Y, 3 -Y, 4 +Z, 5 -Z. -/
def dirLinks (d : Nat) : List Nat :=
  [[0, 6, 9, 18, 24, 27], [1, 7, 10, 19, 25, 28], [2, 8, 11, 20, 26, 29], [3, 12, 15, 21, 30, 33], [4, 13, 16, 22, 31, 34],
   [5, 14, 17, 23, 32, 35]].getD d []

/-- Direction and position of link n. -/
def linkPlace (n : Nat) : Nat × Nat :=
  match (List.range 6).find? (fun d => (dirLinks d).contains n) with
  | some d => (d, (dirLinks d).idxOf n)
  | none => (0, 0)

/-- Extent of dimension k (0 X, 1 Y, 2 Z), and whether it is a ring. -/
def Fabric.dim (f : Fabric) (k : Nat) : Nat := if k = 0 then f.dimX else if k = 1 then f.dimY else f.dimZ
def Fabric.ring (f : Fabric) (k : Nat) : Bool := bitOf f.wrap k

/-- This device's node and coordinate (R379). -/
def State.node (s : State) : Nat := s.fld A.FAB_STATUS 59 48
def State.coord (s : State) (k : Nat) : Nat := s.fld A.FAB_STATUS (47 - 4 * k) (44 - 4 * k)

/-- Coordinate k of node n (R350). -/
def Fabric.coordOf (f : Fabric) (n k : Nat) : Nat :=
  if k = 0 then n % f.dimX else if k = 1 then n / f.dimX % f.dimY else n / f.dimX / f.dimY

/-- A partner is expected in direction d (R351). -/
def State.partnerIn (s : State) (d : Nat) : Bool :=
  let k := d / 2
  let n := s.fabric.dim k
  decide (1 < n) && (s.fabric.ring k || (if d % 2 = 0 then decide (s.coord k + 1 < n) else decide (0 < s.coord k)))

/-- LINK_EN allows link n (R373). -/
def State.linkEnabled (s : State) (n : Nat) : Bool := bitOf (s.odNat 0x3040 1 0xFFFFFFFFF) n

/-- A partner is expected on link n, and the link is not held ABSENT (R351, R373, R374). -/
def State.expects (s : State) (n : Nat) : Bool :=
  s.partnerIn (linkPlace n).1 && s.linkEnabled n && s.fld (A.LNK n 0) 1 1 == 0

/-- The node expected in direction d. -/
def State.neighbour (s : State) (d : Nat) : Nat :=
  let f := s.fabric
  let c (k : Nat) : Nat :=
    if k = d / 2 then (if d % 2 = 0 then (s.coord k + 1) % f.dim k else (s.coord k + f.dim k - 1) % f.dim k) else s.coord k
  c 0 + f.dimX * (c 1 + f.dimY * c 2)

/-! ### Routing (R352, R353) -/

/-- The direction of the shorter way in dimension k from coordinate a to b; equal ways go +; a line has one way. -/
def Fabric.shortDir (f : Fabric) (k a b : Nat) : Nat :=
  if f.ring k then (if (b + f.dim k - a) % f.dim k * 2 ≤ f.dim k then 2 * k else 2 * k + 1)
  else if a < b then 2 * k else 2 * k + 1

/-- The link of direction d a message leaves on: position (DST + TAG) mod 6, or the next usable position upward. -/
def State.pickLink (s : State) (d dst tag : Nat) : Option Nat :=
  ((List.range 6).map (fun i => (dirLinks d).getD (((dst + tag) % 6 + i) % 6) 0)).find? s.usable

/-- The way of a message toward `dst`: its link and direction; the other way round a ring when the shorter has no usable link. With no
link at all, the link that discards it (R354). -/
def State.route (s : State) (dst tag : Nat) : Nat × Nat × Bool :=
  let f := s.fabric
  let k := ((List.range 3).find? (fun k => s.coord k != f.coordOf dst k)).getD 0
  let d := f.shortDir k (s.coord k) (f.coordOf dst k)
  match s.pickLink d dst tag with
  | some n => (n, d, true)
  | none =>
    let other := if d % 2 = 0 then d + 1 else d - 1
    match if f.ring k then s.pickLink other dst tag else none with
    | some n => (n, other, true)
    | none => ((dirLinks d).getD ((dst + tag) % 6) 0, d, false)

/-- Virtual channel of a message type (R345): 0 REQ, 1 RSP, 2 COL, 3 MGT; none for a type that does not exist. -/
def msgVc (t : Nat) : Option Nat :=
  if 1 ≤ t ∧ t ≤ 4 then some 0
  else if 0x10 ≤ t ∧ t ≤ 0x12 then some 1
  else if 0x20 ≤ t ∧ t ≤ 0x27 then some 2
  else if 0x30 ≤ t ∧ t ≤ 0x33 then some 3
  else none

/-- The bytes of a message, padded to the next 8-byte boundary (R343, R344). -/
def FabMsg.bytes (m : FabMsg) : List Byte :=
  let b := leBytes 2 m.dst ++ leBytes 2 m.src ++ leBytes 2 m.pkey ++ leBytes 1 m.mtype ++ leBytes 1 m.flags ++ leBytes 2 m.data.length
    ++ leBytes 2 m.aux ++ leBytes 4 m.tag ++ leBytes 8 m.addr ++ leBytes 4 m.sealW ++ leBytes 4 0 ++ m.data
  b ++ List.replicate ((8 - b.length % 8) % 8) 0

/-- The message whose 32 header bytes and payload these are. -/
def msgOfBytes (b : List Byte) : FabMsg :=
  { dst := fieldAt b 0 2 % 4096, src := fieldAt b 2 2 % 4096, pkey := fieldAt b 4 2, mtype := byteAt b 6, flags := byteAt b 7,
    aux := fieldAt b 10 2, tag := fieldAt b 12 4, addr := fieldAt b 16 8, sealW := fieldAt b 24 4
    data := (b.drop 32).take (fieldAt b 8 2) }

/-- A message queued on a link in dateline class `cls`. -/
def State.queueOn (s : State) (n cls : Nat) (m : FabMsg) : State :=
  s.modLink n (fun l => { l with txq := l.txq ++ [(2 * (msgVc m.mtype).getD 0 + cls, m.bytes)] })

/-- The class in which a message leaves in direction d, having arrived along dimension `k0` in class c0: class 0 at the start of each
dimension, class 1 once it crosses the wrap link (R352). -/
def State.leaveClass (s : State) (d k0 c0 : Nat) : Nat :=
  let k := d / 2
  let wraps := s.fabric.ring k && (if d % 2 = 0 then s.coord k + 1 == s.fabric.dim k else s.coord k == 0)
  if wraps then 1 else if k = k0 then c0 else 0

/-- A message leaves toward its node, or is discarded and counted when no link takes it (R352 to R354). -/
def State.transmit (s : State) (m : FabMsg) (k0 c0 : Nat) : State :=
  let (n, d, ok) := s.route m.dst m.tag
  if ok then s.queueOn n (s.leaveClass d k0 c0) m else s.count (A.LNK n 0xA8)

/-- A message of this device: delivered here when it names this node (R253), else sent. -/
def State.sendMsg (s : State) (m : FabMsg) : State :=
  if m.dst = s.node then { s with fabric := { s.fabric with inbox := s.fabric.inbox ++ [(36, m)] } }
  else s.transmit m 3 0

/-- A LOCAL message on one link (R344): to the link's partner only. -/
def State.sendLocal (s : State) (n mtype : Nat) (data : List Byte) : State :=
  s.queueOn n 0 { dst := s.neighbour (linkPlace n).1, src := s.node, pkey := 0xFFFF, mtype := mtype, flags := 1, aux := 0, tag := 0,
                  addr := 0, sealW := 0, data := data }

/-! ### Keys (R355) -/

/-- A key lies in the device's table. -/
def State.keyKnown (s : State) (k : Nat) : Bool := s.fabric.keys.contains k

/-- The function a served request belongs to: an enabled one with the key that owns the target (R356). -/
def State.keyOwner (s : State) (key : Nat) (owns : Nat → Bool) : Option Nat :=
  (List.range 512).find? (fun f => s.fnEnabled f && s.pkey f == key && owns f)

/-! ### Link status (R375, R376, R379) -/

/-- LNK_FAB_STATUS follows the links; READY needs alignment, nothing in training or authentication, and a usable partner or a fabric
of one device (R370, R379). -/
def State.fabCounts (s : State) : State :=
  let st := (List.range 36).map s.linkSt
  let up := (st.filter (fun x => x == 3 || x == 4)).length
  let ready := decide (s.fld (A.BEAT 0x10) 2 0 = 2)
    && (s.fabric.dimX * s.fabric.dimY * s.fabric.dimZ == 1 || (st.all (fun x => x != 1 && x != 2) && decide (0 < up)))
  ((s.setFld A.FAB_STATUS 35 30 up).setFld A.FAB_STATUS 29 24 (st.filter (fun x => x == 5)).length).setFld A.FAB_STATUS 0 0 (b2n ready)

/-- Link n changes its state; every change writes a service-log event (R358). -/
def State.linkTo (s : State) (n st : Nat) : State :=
  let old := s.linkSt n
  let s1 := ((s.setFld (A.LNK n 8) 2 0 st).setFld (A.LNK n 8) 3 3 0).modLink n (fun l => { l with since := s.ticks })
  let reg := A.LNK n 8
  let s2 := s1.event 4 [(n, 1), (old, 1), (st, 1), (s1.fld reg 39 32, 1), (s1.fld reg 11 8, 1), (s1.fld reg 63 52, 2)]
  s2.fabCounts

/-- The link's messages are discarded, with what it has received of a message (R354). -/
def State.dropTraffic (s : State) (n : Nat) : State :=
  s.modLink n (fun l => { l with txq := [], replay := [], resend := none, nakFrom := none, rxStream := [], nakSend := false,
                                 nakWait := false, give := [], credits := [] })

/-- Quarantine with a reason (R364). -/
def State.quarantine (s : State) (n reason : Nat) : State :=
  if s.linkSt n = 5 then s
  else
    let s1 := (((s.dropTraffic n).release (.link (36 + n))).modLink n (fun l => { l with ctrl := l.ctrl ++ [2] })).setFld (A.LNK n 8) 39 32 reason
    let s2 := (s1.setFld (A.LNK n 0x10) 4 4 1).setFld (A.LNK n 8) 3 3 0
    let s3 := if reason = 1 ∨ reason = 2 ∨ reason = 9 then s2.setFld (A.LNK n 0x10) 5 5 1 else s2
    (((s3.linkTo n 5).raiseVector 0 1).tally 8).tally (0x400 + n)

/-- A flit that is malformed: counted, and quarantine from MALF_THR within 1,000 beats (R364). -/
def State.malformed (s : State) (n : Nat) : State :=
  let l := s.link n
  let m := (s.ticks :: l.malf).filter (fun b => s.ticks < b + 1000)
  let s1 := (s.setLink n { l with malf := m }).count (A.LNK n 0x78)
  if zeroAs 16 (bitsOf l.cfg 31 24) ≤ m.length ∧ (2 ≤ s.linkSt n ∧ s.linkSt n ≤ 4) then s1.quarantine n 5 else s1

/-- A key violation: the message discarded and counted, and quarantine from KEYV_THR within 1,000 beats (R355, R364). -/
def State.keyViolation (s : State) (n : Nat) : State :=
  let l := s.link n
  let m := (s.ticks :: l.keyv).filter (fun b => s.ticks < b + 1000)
  let s1 := (s.setLink n { l with keyv := m }).count (A.LNK n 0x80)
  if zeroAs 1 (bitsOf l.cfg 23 16) ≤ m.length ∧ (2 ≤ s.linkSt n ∧ s.linkSt n ≤ 4) then s1.quarantine n 6 else s1

/-! ### Current of links (R369, R483) -/

/-- Rail VDD_LNK. -/
def railLnk : Nat := 16

/-- A link's booking on VDD_LNK becomes `ca` (0.01 A): a smaller amount takes the larger one's place at once. -/
def State.linkBook (s : State) (n ca : Nat) : State :=
  if s.holds (.link n) then
    match s.esc.bookings.find? (fun b => decide (b.owner = .link n) && b.stop.isNone) with
    | some b =>
      if (ca + 9) / 10 ≤ b.amount then
        { s with esc := { s.esc with bookings := s.esc.bookings.map (fun x =>
            if decide (x.owner = .link n) && x.stop.isNone then { x with amount := (ca + 9) / 10 } else x) } }
      else (s.release (.link n)).askSys railLnk ca none false (.link n)
    | none => s.askSys railLnk ca none false (.link n)
  else s.askSys railLnk ca none false (.link n)

/-- A message received whole on link n in class `cls`: the key check, then the inbox, or the queue of messages to forward
(R352, R355). LOCAL messages are never forwarded; SPDM and LINKPAR messages are taken by the security core (DESIGN CHOICE, log 17). -/
def State.deliver (s : State) (n cls : Nat) (m : FabMsg) : State :=
  let mgt := msgVc m.mtype == some 3
  if if m.pkey = 0xFFFF then !mgt else !s.keyKnown m.pkey then s.keyViolation n
  else if bitOf m.flags 0 || m.dst == s.node then
    if m.mtype = 0x30 ∨ m.mtype = 0x33 then s
    else if m.mtype = 0x31 ∧ s.ticks < (s.link n).timeBad then
      (if byteAt m.data 0 = 2 then s.count (A.BEAT 0x50) else s).count (A.LNK n 0xA0)
    else { s with fabric := { s.fabric with inbox := s.fabric.inbox ++ [(n, m)] } }
  else { s with fabric := { s.fabric with forward := s.fabric.forward ++ [((linkPlace n).1 / 2, cls, m)] } }

/-- A message header breaks R344 or R345 (R364). -/
def headerBroken (b : List Byte) (vc : Nat) : Bool :=
  let m := msgOfBytes b
  let len := fieldAt b 8 2
  decide (4096 ≤ fieldAt b 0 2) || decide (4096 ≤ fieldAt b 2 2) || decide (msgVc m.mtype ≠ some vc) || decide (4 ≤ m.flags)
    || decide (2048 < len) || decide (2 ^ 48 ≤ m.addr) || decide (fieldAt b 28 4 ≠ 0)
    || (bitOf m.flags 1 && (len != 2048 || m.addr % 2048 != 0))
    || (m.mtype == 1 && (decide (m.aux = 0) || decide (2048 < m.aux)))
    || (m.mtype == 4 && len != 0) || (m.mtype == 1 && len != 0) || (m.mtype == 2 && len == 0) || (m.mtype == 3 && len != 16)
    || ((decide (2 ≤ m.mtype ∧ m.mtype ≤ 4) || decide (0x30 ≤ m.mtype)) && m.aux != 0)

/-- The message whose SRC or TAG of the inbox entry `k`, when its type is `t`, and the state without it. -/
def State.takeMsg (s : State) (k t : Nat) : Option (Nat × FabMsg × State) :=
  match s.fabric.inbox[k]? with
  | some (n, m) => if m.mtype = t then
      some (n, m, { s with fabric := { s.fabric with inbox := s.fabric.inbox.eraseIdx k } }) else none
  | none => none

/-- A message received from entry `k` of the inbox and of type `t`, served by `f`; no effect when there is none. -/
def State.onMsg (s : State) (k t : Nat) (f : State → Nat → FabMsg → State) : Result :=
  match s.takeMsg k t with
  | some (n, m, s1) => .next (f s1 n m)
  | none => .next s

/-- MESSAGE_FORWARD: the message at place k of those for other nodes leaves toward its node (R352). -/
def execMessageForward (k : Nat) (s : State) : Result :=
  match s.fabric.forward[k]? with
  | some (k0, c0, m) =>
    .next (({ s with fabric := { s.fabric with forward := s.fabric.forward.eraseIdx k } } : State).transmit m k0 c0)
  | none => .next s

end Sys2Proof.Machine
end

