-- ==== Sys2Proof/Machine/Links.lean ====
section
/-!
DEFINITION. Fabric links (R342, R343, R346 to R349, R357 to R368): flits, replay, credits, training, authentication, retraining,
quarantine, stall and noise.
-/

namespace Sys2Proof.Machine

/-! ### Flits (R342, R343, R349) -/

/-- Flits a pool's receive buffer holds (R348). -/
def poolSize (p : Nat) : Nat := if p / 2 = 0 then 64 else if p / 2 = 3 then 16 else 288

/-- The 256 bytes of a flit: header fields, payload bytes (padded with zeros), CRC (R342, R343). -/
def flitBytes (typ vc cls replay seq ack nak pool cnt paylen : Nat) (payload : List Byte) : List Byte :=
  let h := typ + vc * 2 ^ 4 + cls * 2 ^ 6 + replay * 2 ^ 7 + seq * 2 ^ 8 + ack * 2 ^ 20 + nak * 2 ^ 32 + pool * 2 ^ 33 + cnt * 2 ^ 37
    + paylen * 2 ^ 45
  let b := leBytes 8 h ++ payload.take 244 ++ List.replicate (244 - payload.length) 0
  b ++ leBytes 4 (crc32ieee b).toNat

/-- What every flit of a link carries back (R346 to R348): ACK, NAK, and the first pool with credits to return. -/
def LinkState.feedback (l : LinkState) : Nat × Nat × Nat × Nat :=
  match l.give.find? (fun (e : Nat × Nat) => decide (0 < e.2)) with
  | some (p, c) => (l.rxSeq, b2n l.nakSend, p, min 255 c)
  | none => (l.rxSeq, b2n l.nakSend, 0, 0)

/-- A flit leaves: what it carried back is no longer owed. -/
def State.sendFlit (s : State) (n typ vc cls replay seq paylen : Nat) (payload : List Byte) : State :=
  let l := s.link n
  let (ack, nak, pool, cnt) := l.feedback
  let give := smapPut (fun _ => 0) l.give pool (smapGet (fun _ => 0) l.give pool - cnt)
  (s.setLink n { l with give := give, nakSend := false }).send (.flit n (flitBytes typ vc cls replay seq ack nak pool cnt paylen payload))

/-- Bytes waiting in pool p. -/
def LinkState.waitingBytes (l : LinkState) (p : Nat) : List Byte := (l.txq.filter (fun e => e.1 == p)).flatMap Prod.snd

/-- Credits held for pool p. -/
def LinkState.credit (l : LinkState) (p : Nat) : Nat := smapGet (fun _ => 0) l.credits p

/-- Pool p can send a DATA flit. -/
def LinkState.sendable (l : LinkState) (p : Nat) : Bool := !(l.waitingBytes p).isEmpty && decide (0 < l.credit p)

/-- The class of a VC served next: the two alternate (R349). -/
def LinkState.classOf (l : LinkState) (vc : Nat) : Nat :=
  let other := 1 - smapGet (fun _ => 1) l.lastClass vc
  if l.sendable (2 * vc + other) then other else 1 - other

/-- Weight of a VC (R349, R376). -/
def LinkState.weight (l : LinkState) (vc : Nat) : Nat :=
  zeroAs 1 (if vc = 0 then bitsOf l.cfg 15 12 else if vc = 1 then bitsOf l.cfg 7 4 else bitsOf l.cfg 11 8)

/-- The pool of the next DATA flit, and the arbiter after the choice: MGT first, else deficit-weighted round robin (R349). -/
def LinkState.choosePool (l : LinkState) : Option (Nat × Sorter) :=
  let can (vc : Nat) : Bool := l.sendable (2 * vc) || l.sendable (2 * vc + 1)
  if can 3 then some (6 + l.classOf 3, l.arb)
  else match (List.range 3).filter can with
    | [] => none
    | vs => let (vc, o) := l.arb.choose 0 vs l.weight; some (2 * vc + l.classOf vc, o)

/-- The first `k` bytes of pool p's stream taken away. -/
def takePool (p : Nat) : Nat → List (Nat × List Byte) → List (Nat × List Byte)
  | _, [] => []
  | k, (p', b) :: rest =>
    if p' = p then
      if b.length ≤ k then takePool p (k - b.length) rest else (p', b.drop k) :: takePool p 0 rest
    else (p', b) :: takePool p k rest

/-- A new DATA flit of pool p leaves and enters the replay buffer (R346). -/
def State.sendData (s : State) (n p : Nat) (o : Sorter) : State :=
  let l := s.link n
  let pay := (l.waitingBytes p).take 244
  let l1 := { l with
    txq := takePool p pay.length l.txq
    replay := l.replay ++ [{ seq := l.txSeq, pool := p, payload := pay }]
    txSeq := (l.txSeq + 1) % 4096
    credits := smapPut (fun _ => 0) l.credits p (l.credit p - 1)
    arb := o
    lastClass := smapPut (fun _ => 1) l.lastClass (p / 2) (p % 2)
    sent := l.sent + 1 }
  ((s.setLink n l1).sendFlit n 1 (p / 2) (p % 2) 0 l.txSeq pay.length pay).count (A.LNK n 0x40)

/-- The next flit of a replay leaves: `some 0` is the first of the round, which carries REPLAY; `some (j + 1)` is flit j (R347). -/
def State.sendReplay (s : State) (n k : Nat) : State :=
  let l := s.link n
  let j := k - 1
  match l.replay[j]? with
  | none => s.setLink n { l with resend := none }
  | some t =>
    let more := decide (j + 1 < l.replay.length)
    let s1 := s.setLink n { l with resend := if more then some (j + 2) else none, sent := l.sent + 1, resent := l.resent + 1 }
    ((s1.sendFlit n 1 (t.pool / 2) (t.pool % 2) (b2n (k == 0)) t.seq t.payload.length t.payload).count (A.LNK n 0x40)).count
      (A.LNK n 0x70)

/-- What a link sends next (R343, R347, R349, R357): CTRL flits first, then a replay, then new data, else IDLE. Without a controller
the links send IDLE only (R372). -/
def State.flitTransmit (s : State) (n : Nat) : State :=
  let l := s.link n
  let st := s.linkSt n
  if st < 2 ∨ 5 < st then s
  else if s.power.clocksOff then s.sendFlit n 0 0 0 0 0 0 []
  else match l.ctrl with
    | c :: rest => (s.setLink n { l with ctrl := rest }).sendFlit n 2 0 0 0 0 0 [BitVec.ofNat 8 c]
    | [] =>
      let idle := s.sendFlit n 0 0 0 0 0 0 []
      if st = 5 ∨ s.fld (A.LNK n 8) 3 3 = 1 then idle
      else match l.resend with
        | some k => s.sendReplay n k
        | none =>
          if 256 ≤ l.replay.length then idle
          else match l.choosePool with
            | some (p, o) => s.sendData n p o
            | none => idle

def execFlitTransmit (n : Nat) (s : State) : Result := onUnit (decide (n < Config.links)) (s.flitTransmit n)

/-! ### Retraining starts (R359) -/

/-- A retrain of link n begins; `all` lanes are tried when LNK_CTL.RETRAIN asked for it. -/
def State.retrain (s : State) (n : Nat) (all request : Bool) : State :=
  if !s.usable n then s
  else
    let s1 := (s.setFld (A.LNK n 8) 3 3 1).modLink n (fun l => { l with
      ctrl := if request then l.ctrl ++ [1] else l.ctrl
      allLanes := all
      timeBad := s.ticks + 1000000 })
    ((s1.setFld (A.LNK n 0x10) 2 2 1).count (A.LNK n 0x98)).askSys railLnk 270 none false (.link (36 + n))

/-! ### Receiving flits (R341 to R348, R364) -/

/-- ACK `a` leaves the replay buffer without the flits it covers; none when it lies outside the buffer (R346, R347). -/
def LinkState.ackTo (l : LinkState) (a : Nat) : Option LinkState :=
  match l.replay with
  | [] => if modSub 12 l.txSeq a = 1 then some l else none
  | t :: _ =>
    let k := modSub 12 (a + 1) t.seq
    if k ≤ l.replay.length then
      some { l with
        replay := l.replay.drop k
        resend := match l.resend with
          | some (j + 1) => if j < k then some 1 else some (j - k + 1)
          | r => r }
    else none

/-- The messages complete in a pool's stream are delivered, up to `fuel` of them; a broken header makes its flit malformed, and the
stream is dropped (DEDUCED, log 18). -/
def State.parseStream (s : State) (n p : Nat) : Nat → List Byte → State
  | 0, b => s.modLink n (fun l => { l with rxStream := smapPut (fun _ => []) l.rxStream p b })
  | fuel + 1, b =>
    let keep (t : State) (x : List Byte) : State := t.modLink n (fun l => { l with rxStream := smapPut (fun _ => []) l.rxStream p x })
    if b.length < 32 then keep s b
    else if headerBroken b (p / 2) then (keep s []).malformed n
    else
      let len := fieldAt b 8 2
      let whole := (32 + len + 7) / 8 * 8
      if b.length < whole then keep s b
      else if !((b.take whole).drop (32 + len)).all (fun x => x == 0) then (keep s []).malformed n
      else ((keep s []).deliver n (p % 2) (msgOfBytes b)).parseStream n p fuel (b.drop whole)

/-- An intact flit breaks R343 or R348 (R364). -/
def State.flitBroken (s : State) (n h : Nat) : Bool :=
  let l := s.link n
  let typ := bitsOf h 3 0
  let pool := 2 * bitsOf h 5 4 + bitsOf h 6 6
  let crdSel := bitsOf h 36 33
  let cnt := bitsOf h 44 37
  let pay := bitsOf h 52 45
  decide (2 < typ) || decide (bitsOf h 63 53 ≠ 0) || decide (8 ≤ crdSel) || decide (poolSize crdSel < l.credit crdSel + cnt)
    || (typ == 1 && (s.linkSt n == 2 && decide (bitsOf h 5 4 ≠ 3)))
    || (typ == 1 && (pay == 0 || decide (244 < pay)))
    || (typ == 1 && decide (poolSize pool ≤ smapGet (fun _ => 0) l.give pool))
    || (typ != 1 && (decide (pay ≠ 0) || decide (bitsOf h 19 4 ≠ 0)))
    || (bitOf h 32 && (l.ackTo (bitsOf h 31 20)).isNone)

/-- A DATA flit: accepted when it is next in order, else discarded with a NAK (R346, R347). -/
def State.takeData (s : State) (n h : Nat) (payload : List Byte) : State :=
  let l := s.link n
  let pool := 2 * bitsOf h 5 4 + bitsOf h 6 6
  let seq := bitsOf h 19 8
  if seq = (l.rxSeq + 1) % 4096 then
    let l1 := { l with
      rxSeq := seq
      nakWait := l.nakWait && !bitOf h 7
      nakSend := l.nakSend && !bitOf h 7
      timeBad := if bitOf h 7 then max l.timeBad (s.ticks + 3) else l.timeBad
      give := smapPut (fun _ => 0) l.give pool (smapGet (fun _ => 0) l.give pool + 1) }
    ((s.setLink n l1).count (A.LNK n 0x48)).parseStream n pool 80
      (smapGet (fun _ => []) l.rxStream pool ++ payload.take (bitsOf h 52 45))
  else s.setLink n { l with nakSend := true, nakWait := true }

/-- An intact, well-formed flit is acted on: its ACK, NAK and credits, then its type. -/
def State.takeFlit (s : State) (n h : Nat) (payload : List Byte) : State :=
  let l := s.link n
  let a := bitsOf h 31 20
  let l1 := (l.ackTo a).getD l
  let sel := bitsOf h 36 33
  let l2 := { l1 with
    credits := smapPut (fun _ => 0) l1.credits sel (l1.credit sel + bitsOf h 44 37)
    nakFrom := if bitOf h 32 then some a else l1.nakFrom }
  let s1 := s.setLink n l2
  let s2 := if s.fld (A.LNK n 0x10) 8 8 = 1 ∧ sel = l.stallPool ∧ bitsOf h 44 37 ≠ 0 then s1.setFld (A.LNK n 0x10) 8 8 0 else s1
  if bitsOf h 3 0 = 1 then s2.takeData n h payload
  else if bitsOf h 3 0 = 2 then
    if byteAt payload 0 = 2 then s2.quarantine n 8 else if byteAt payload 0 = 1 then s2.retrain n false false else s2
  else s2

/-- FEC symbols corrected on each lane are counted (R378). -/
def State.countSymbols (s : State) (n : Nat) (syms : List Nat) : State :=
  (List.range 8).foldl (fun t l => t.count (A.LANE n l 8) (syms.getD l 0)) s

/-- A flit arrives: `corr` and `unc` codewords corrected and uncorrectable since the last flit, `syms` symbols corrected per lane. A
damaged flit is never interpreted and makes a NAK (R342, R347); a quarantined link discards what it receives (R357). -/
def State.flitReceive (s : State) (n : Nat) (flit : List Byte) (corr unc : Nat) (syms : List Nat) : State :=
  let st := s.linkSt n
  if st < 2 ∨ 5 < st then s
  else
    let s1 := ((s.countSymbols n syms).count (A.LNK n 0x50) corr).count (A.LNK n 0x58) unc
    let s2 := if unc = 0 then s1 else s1.modLink n (fun l => { l with timeBad := max l.timeBad (s.ticks + 3) })
    let crcOk := flit.length == 256 && (crc32ieee (flit.take 252)).toNat == fieldAt flit 252 4
    let damaged := decide (unc ≠ 0) || !crcOk
    let s3 := if unc = 0 ∧ !crcOk then s2.count (A.LNK n 0x60) else s2
    if st = 5 then s3
    else if damaged then s3.modLink n (fun l => { l with nakSend := true, nakWait := true })
    else
      let h := fieldAt flit 0 8
      if s3.flitBroken n h then s3.malformed n else s3.takeFlit n h (flit.drop 8)

def execFlitReceive (n : Nat) (flit : List Byte) (corr unc : Nat) (syms : List Nat) (s : State) : Result :=
  onUnit (decide (n < Config.links)) (s.flitReceive n flit corr unc syms)

/-- NAK_RECEIVE: the transmitter replays from ACK + 1; every flit up to ACK has left the buffer (R347). -/
def execNakReceive (n : Nat) (s : State) : Result :=
  onUnit (decide (n < Config.links)) <|
    match (s.link n).nakFrom with
    | some _ =>
      (s.modLink n (fun l => { l with nakFrom := none, resend := if l.replay.isEmpty then none else some 0 })).count (A.LNK n 0x68)
    | none => s

/-- NAK_REPEAT: 1.0 µs has passed and the replay has not arrived (R347). -/
def execNakRepeat (n : Nat) (s : State) : Result :=
  onUnit (decide (n < Config.links)) <|
    if (s.link n).nakWait then s.modLink n (fun l => { l with nakSend := true }) else s

/-! ### Training (R357 to R359, R369) -/

/-- Tickets a link holds on VDD_LNK. -/
def State.linkTickets (s : State) (n : Nat) : Nat :=
  (s.esc.bookings.filter (fun b => decide (b.owner = .link n) && b.stop.isNone)).foldl (fun a b => a + b.amount) 0

/-- An ABSENT link with a partner and signal asks for its training current, and trains once it is granted (R358, R369). -/
def State.startTraining (s : State) (n : Nat) : State :=
  let s1 := if decide (120 ≤ s.linkTickets n) || s.esc.waiting.any (fun x => decide (x.owner = .link n)) then s
            else s.linkBook n 1200
  if 120 ≤ s1.linkTickets n then s1.linkTo n 1 else s1

/-- Signal on a link: counted and ignored where no partner is expected (R351). -/
def execLinkSignalDetect (n : Nat) (s : State) : Result :=
  onUnit (decide (n < Config.links)) <|
    if s.linkSt n ≠ 0 then s
    else if !s.expects n then s.count (A.LNK n 0xA8)
    else if s.ticks < (s.link n).retryAt then s
    else s.startTraining n

/-- 100 ms after a failed training it is tried again. -/
def execTrainingRetry (n : Nat) (s : State) : Result :=
  onUnit (decide (n < Config.links)) <|
    if s.linkSt n = 0 ∧ s.expects n ∧ (s.link n).retryAt ≠ 0 ∧ (s.link n).retryAt ≤ s.ticks then
      (s.modLink n (fun l => { l with retryAt := 0 })).startTraining n
    else s

/-- Lanes in a mask. -/
def laneCount (m : Nat) : Nat := ((List.range 8).filter (bitOf m)).length

/-- The width `k` trained lanes give (R359). -/
def widthOf (k : Nat) : Nat := if 8 ≤ k then 8 else if 4 ≤ k then 4 else if 2 ≤ k then 2 else k

/-- The first w lanes of a mask. -/
def firstLanes (m w : Nat) : Nat := (((List.range 8).filter (bitOf m)).take w).foldl (fun a l => a + 2 ^ l) 0

/-- The lane registers and the lane fields of LNK_STATUS after a training in which `tried` lanes were tried and `mask` trained. -/
def State.setLanes (s : State) (n tried mask w : Nat) : State :=
  let act := firstLanes mask w
  let old := s.fld (A.LNK n 8) 31 24
  let failed := (old &&& (255 - tried)) ||| (tried &&& (255 - mask))
  let s1 := ((s.setFld (A.LNK n 8) 31 24 failed).setFld (A.LNK n 8) 23 16 act).setFld (A.LNK n 8) 11 8 w
  (List.range 8).foldl (fun t l =>
    let r := A.LANE n l 0
    let fails := t.fld r 15 8
    ((t.setFld r 15 8 (if bitOf tried l && !bitOf mask l then min 255 (fails + 1) else fails)).setFld r 2 0
      (b2n (bitOf failed l) * 4 + b2n (bitOf act l) * 2 + b2n (bitOf mask l)))) s1

/-- The link layer as it starts in AUTHENTICATING: sequence numbers anew, credits for the MGT buffers (R348). -/
def State.freshLink (s : State) (n : Nat) : State :=
  s.modLink n (fun l => { l with
    txq := [], replay := [], resend := none, nakFrom := none, txSeq := 0, rxSeq := 4095, rxStream := [], give := [], nakSend := false
    nakWait := false, credits := [(6, 16), (7, 16)], spdm := 0, spdmBeat := s.ticks, spdmTwice := false, authHeld := false, authLate := false })

/-- The SPDM message of exchange step k: its bytes are the security core's (DESIGN CHOICE, log 17). While that core is absent the exchange waits
(R372, R576). -/
def State.sendSpdm (s : State) (n k : Nat) : State :=
  if s.isAbsent 0 then s.modLink n (fun l => { l with authHeld := true })
  else s.sendLocal n 0x30 ((Config.signature (0x100 + k) [BitVec.ofNat 8 n]).take 2048)

/-- The requester is the side in a + direction (R360). -/
def requester (n : Nat) : Bool := (linkPlace n).1 % 2 == 0

def State.trainingComplete (s : State) (n lanes : Nat) : State :=
  let w := widthOf (laneCount lanes)
  if s.linkSt n ≠ 1 ∨ w = 0 ∨ (s.link n).since + 150000 < s.ticks then s
  else
    let s1 := (((s.setLanes n 255 (lanes % 256) w).freshLink n).linkBook n 930).linkTo n 2
    if requester n then s1.sendSpdm n 1 else s1

def execTrainingComplete (n lanes : Nat) (s : State) : Result := onUnit (decide (n < Config.links)) (s.trainingComplete n lanes)

def execTrainingTimeout (n : Nat) (s : State) : Result :=
  onUnit (decide (n < Config.links)) <|
    if s.linkSt n = 1 ∧ (s.link n).since + 150000 ≤ s.ticks then
      (((s.setLanes n 255 0 0).linkBook n 50).linkTo n 0).modLink n (fun l => { l with retryAt := s.ticks + 100000 })
    else s

/-- Link n returns to ABSENT with a partner still expected, its messages discarded (R354, R358). -/
def State.linkAbsent (s : State) (n : Nat) : State :=
  let s1 := ((s.dropTraffic n).release (.link (36 + n))).setFld (A.LNK n 0x10) 9 8 0
  let s2 := if s.expects n then s1.linkBook n 50 else s1.release (.link n)
  ((s2.setFld (A.LNK n 8) 23 16 0).setFld (A.LNK n 8) 11 8 0).linkTo n 0

def execLaneFailure (n lane : Nat) (s : State) : Result :=
  onUnit (decide (n < Config.links) && decide (lane < 8)) <|
    if bitOf (s.fld (A.LNK n 8) 23 16) lane then (s.setFld (A.LANE n lane 0) 0 0 0).retrain n false true else s

/-- RETRAIN_COMPLETE: `lanes` trained on both sides; a lane excluded before is not counted unless every lane was tried (R359). -/
def State.retrainComplete (s : State) (n lanes : Nat) : State :=
  if s.fld (A.LNK n 8) 3 3 = 0 ∨ !s.linkUp n then s
  else
    let all := (s.link n).allLanes
    let tried := if all then 255 else 255 - s.fld (A.LNK n 8) 31 24
    let mask := lanes % 256 &&& tried
    let old := s.fld (A.LNK n 8) 11 8
    let w0 := widthOf (laneCount mask)
    let w := if all then w0 else min old w0
    if w = 0 then (s.setLanes n tried 0 0).linkAbsent n
    else
      let s0 := if all then s.setFld (A.LNK n 8) 31 24 0 else s
      let s1 := ((s0.setLanes n tried mask w).release (.link (36 + n))).setFld (A.LNK n 8) 3 3 0
      let s2 := if w < old then s1.setFld (A.LNK n 0x10) 3 3 1 else s1
      (s2.modLink n (fun l => { l with resend := if l.replay.isEmpty then none else some 0, allLanes := false, timeBad := s.ticks + 3
                                       sent := 0, resent := 0 })).linkTo n (if w = 8 then 3 else 4)

def execRetrainComplete (n lanes : Nat) (s : State) : Result := onUnit (decide (n < Config.links)) (s.retrainComplete n lanes)

/-- No signal on any lane for 100 µs. -/
def execSignalLossTimeout (n : Nat) (s : State) : Result :=
  onUnit (decide (n < Config.links)) (if s.linkUp n then s.linkAbsent n else s)

/-! ### LNK_CTL writes (R365, R374) -/

/-- LNK_CTL.RETRAIN: a retrain in which every lane is tried. -/
def execRetrain (n : Nat) (s : State) : Result :=
  onUnit (decide (n < Config.links)) (if s.reaches 0 then s.retrain n true true else s)

/-- LNK_CTL.RELEASE: QUARANTINED to TRAINING; the partner's values and the reason leave with it. -/
def State.releaseLink (s : State) (n : Nat) : State :=
  if s.linkSt n ≠ 5 then s
  else
    let s1 := (s.setFld (A.LNK n 8) 63 46 0).setFld (A.LNK n 8) 39 32 0
    let s2 := if s1.esc.waiting.any (fun x => decide (x.owner = .link n)) then s1 else s1.linkBook n 1200
    s2.linkTo n 1

def execRelease (n : Nat) (s : State) : Result := onUnit (decide (n < Config.links)) (if s.reaches 0 then s.releaseLink n else s)

/-- LNK_CTL.DISABLE written with `v`: 1 holds the link ABSENT with no current; 0 lets it train when a signal comes. -/
def State.disableLink (s : State) (n v : Nat) : State :=
  let s1 := s.setFld (A.LNK n 0) 1 1 v
  if v = 1 then
    let s2 := if s.linkSt n = 0 then s1.release (.link n) else s1.linkAbsent n
    s2
  else if s.fld (A.LNK n 0) 1 1 = 1 ∧ s1.expects n ∧ !s1.holds (.link n) then s1.linkBook n 50 else s1

def execDisable (n v : Nat) (s : State) : Result :=
  onUnit (decide (n < Config.links) && decide (v < 2)) (if s.reaches 0 then s.disableLink n v else s)

/-! ### Authentication (R360 to R363) -/

/-- LINKPAR of this side leaves: shape, wrap, coordinates, direction, position, key digest, lanes (R363). -/
def State.keyDigest (s : State) : List Byte :=
  Config.digest384 ((ascending s.fabric.keys).flatMap (leBytes 2))

def State.sendLinkpar (s : State) (n : Nat) : State :=
  let f := s.fabric
  let (d, j) := linkPlace n
  s.sendLocal n 0x33 (([f.dimX, f.dimY, f.dimZ, f.wrap, s.coord 0, s.coord 1, s.coord 2, d, j].map (BitVec.ofNat 8))
    ++ (s.keyDigest).take 48 ++ leBytes 1 (255 - s.fld (A.LNK n 8) 31 24))

/-- An SPDM message of the exchange is received; `verdict` is the security core's: 0 accepted, or the QREASON of the failed check
(R361, R362, R360: 1 AUTH, 3 COORD, 9 MODEL). After the sixth exchange both sides send LINKPAR. -/
def State.spdmReceive (s : State) (n verdict : Nat) : State :=
  let l := s.link n
  if s.linkSt n ≠ 2 ∨ 6 ≤ l.spdm ∨ s.isAbsent 0 then s
  else if verdict ≠ 0 then s.quarantine n verdict
  else
    let k := l.spdm + 1
    let s1 := s.setLink n { l with spdm := k, spdmBeat := s.ticks, spdmTwice := false }
    let s2 := if requester n then (if k < 6 then s1.sendSpdm n (k + 1) else s1) else s1.sendSpdm n (0x10 + k)
    if k = 6 then s2.sendLinkpar n else s2

def execSpdm (n verdict : Nat) (s : State) : Result :=
  onUnit (decide (n < Config.links) && (verdict == 0 || verdict == 1 || verdict == 3 || verdict == 9)) (s.spdmReceive n verdict)

/-- 200 ms without a response: the requester repeats the step once, then it fails (R361). -/
def execSpdmResponseTimeout (n : Nat) (s : State) : Result :=
  onUnit (decide (n < Config.links)) <|
    let l := s.link n
    if s.linkSt n ≠ 2 ∨ !requester n ∨ s.isAbsent 0 ∨ s.ticks < l.spdmBeat + 200000 then s
    else if l.spdmTwice then s.quarantine n 1
    else
      let s1 := s.setLink n { l with spdmTwice := true, spdmBeat := s.ticks }
      if 6 ≤ l.spdm then s1.sendLinkpar n else s1.sendSpdm n (l.spdm + 1)

/-- The partner's parameters differ from this side's (R363): the QREASON. -/
def State.linkparBad (s : State) (n : Nat) (p : LinkPar) : Option Nat :=
  let f := s.fabric
  let (d, j) := linkPlace n
  let node := p.x + f.dimX * (p.y + f.dimY * p.z)
  if p.dimX ≠ f.dimX ∨ p.dimY ≠ f.dimY ∨ p.dimZ ≠ f.dimZ ∨ p.wrap ≠ f.wrap ∨ f.dimX ≤ p.x ∨ f.dimY ≤ p.y ∨ f.dimZ ≤ p.z
    ∨ node ≠ s.neighbour d ∨ p.dir ≠ (if d % 2 = 0 then d + 1 else d - 1) ∨ p.pos ≠ j then some 3
  else if p.digest ≠ s.keyDigest then some 4
  else none

/-- LINKPAR received inside the session: the partner's values are recorded, then checked (R363, R375). -/
def State.linkpar (s : State) (n : Nat) (p : LinkPar) : State :=
  if s.linkSt n ≠ 2 ∨ (s.link n).spdm ≠ 6 ∨ s.isAbsent 0 then s
  else
    let node := p.x + s.fabric.dimX * (p.y + s.fabric.dimY * p.z)
    let s1 := ((s.setFld (A.LNK n 8) 63 52 node).setFld (A.LNK n 8) 51 49 p.pos).setFld (A.LNK n 8) 48 46 p.dir
    match s.linkparBad n p with
    | some r => s1.quarantine n r
    | none =>
      let s2 := s1.modLink n (fun l => { l with
        credits := (List.range 6).foldl (fun c q => smapPut (fun _ => 0) c q (poolSize q)) l.credits, starve := [] })
      s2.linkTo n (if s.fld (A.LNK n 8) 11 8 = 8 then 3 else 4)

def execLinkpar (n : Nat) (p : LinkPar) (s : State) : Result := onUnit (decide (n < Config.links)) (s.linkpar n p)

/-- The links in AUTHENTICATING. -/
def State.authLinks (s : State) : List Nat := (List.range Config.links).filter (fun n => s.linkSt n == 2)

/-- The security core resets: every authentication is abandoned and waits for its return; the bound of 1.5 s restarts once (R372). -/
def State.authAbandon (s : State) : State :=
  s.authLinks.foldl (fun t n => t.modLink n (fun l => { l with
    spdm := 0, spdmTwice := false, authHeld := true, since := if l.authLate then l.since else s.ticks, authLate := true })) s

/-- The security core is back: the authentications that waited start again. -/
def State.authAgain (s : State) : State :=
  (s.authLinks.filter (fun n => (s.link n).authHeld)).foldl (fun t n =>
    let u := t.modLink n (fun l => { l with authHeld := false, spdmBeat := s.ticks })
    if requester n then u.sendSpdm n 1 else u) s

/-- 1.5 s in AUTHENTICATING. -/
def execAuthTimeout (n : Nat) (s : State) : Result :=
  onUnit (decide (n < Config.links)) <|
    if s.linkSt n = 2 ∧ (s.link n).since + 1500000 ≤ s.ticks then s.quarantine n 2 else s

/-! ### Stall and noise (R366, R367) -/

/-- Pool p is starved now: bytes to send and no credit. -/
def LinkState.starved (l : LinkState) (p : Nat) : Bool := !(l.waitingBytes p).isEmpty && l.credit p == 0

/-- The beat of link n ends (R366, R367): starved pools and noisy beats are counted, and a change of LNK_CFG takes effect (R376). A
pool's starvation is looked at once, at the end of the beat (DEDUCED, log 18). -/
def State.linkBeat (s : State) (n : Nat) : State :=
  let l := s.link n
  let pools := (List.range 8).filter (fun p => 2 ≤ s.linkSt n && s.linkSt n ≤ 4 && l.starved p)
  let ppm := zeroAs 100 (bitsOf l.cfg 47 32)
  let noisy := decide (l.sent * ppm < l.resent * 1000000)
  let s1 := s.setLink n { l with
    starve := pools.map (fun p => (p, smapGet (fun _ => 0) l.starve p + 1))
    noisy := if noisy then l.noisy + 1 else 0
    quiet := if noisy then 0 else l.quiet + 1
    sent := 0
    resent := 0
    cfg := s.reg (A.LNK n 0x18) }
  let s2 := if pools.isEmpty then s1 else s1.count (A.LNK n 0x88) pools.length
  if noisy then s2.count (A.LNK n 0x90) else s2

def execLinkStall (n : Nat) (s : State) : Result :=
  onUnit (decide (n < Config.links)) <|
    match (s.link n).starve.find? (fun e => decide (100 ≤ e.2)) with
    | some (p, _) =>
      if s.fld (A.LNK n 0x10) 8 8 = 1 then s
      else (((s.setFld (A.LNK n 0x10) 0 0 1).setFld (A.LNK n 0x10) 8 8 1).modLink n (fun l => { l with stallPool := p })).event 5
        [(n, 1), (0, 1), (p, 1)]
    | none => s

def execMgtStallQuarantine (n : Nat) (s : State) : Result :=
  onUnit (decide (n < Config.links)) <|
    let l := s.link n
    let ms := bitsOf l.cfg 63 48
    if ms ≠ 0 ∧ (l.starve.any (fun e => (e.1 == 6 || e.1 == 7) && decide (1000 * ms ≤ e.2))) ∧ (2 ≤ s.linkSt n ∧ s.linkSt n ≤ 4) then
      s.quarantine n 7
    else s

def execLinkNoisy (n : Nat) (s : State) : Result :=
  onUnit (decide (n < Config.links)) <|
    if 1000 ≤ (s.link n).noisy ∧ s.fld (A.LNK n 0x10) 9 9 = 0 then
      ((s.setFld (A.LNK n 0x10) 1 1 1).setFld (A.LNK n 0x10) 9 9 1).event 5 [(n, 1), (1, 1), (0, 1)]
    else s

def execLinkNoisyClear (n : Nat) (s : State) : Result :=
  onUnit (decide (n < Config.links)) <|
    if 1000 ≤ (s.link n).quiet ∧ s.fld (A.LNK n 0x10) 9 9 = 1 then s.setFld (A.LNK n 0x10) 9 9 0 else s

end Sys2Proof.Machine
end

