-- ==== Sys2Proof/Machine/Remote.lean ====
section
/-!
DEFINITION. Requests between devices: remote-form addresses (R253), serving RD, WR, VOID and SIG (R345, R355, R356, R448), sending
requests and what a response does to its command (R345, R354), and SIGNAL (R316).
-/

namespace Sys2Proof.Machine

/-! ### Addresses -/

/-- A remote-form address (R253). -/
def remoteAddr (node a : Nat) : Nat := 2 ^ 63 + node * 2 ^ 48 + a

/-- An address naming this device in remote form is served locally (R253). -/
def State.localForm (s : State) (a : Nat) : Nat :=
  match regionOf a with
  | .remote n loc => if n = s.node then loc else a
  | _ => a

/-- Remote form, or host form. -/
def isRemote (a : Nat) : Bool := match regionOf a with | .remote _ _ => true | _ => false
def isHost (a : Nat) : Bool := match regionOf a with | .host _ => true | _ => false

/-! ### Sending requests -/

/-- A request is recorded under a new tag. -/
def State.addRequest (s : State) (host : Bool) (kind : RemKind) (q i addr : Nat) : State :=
  { s with fabric := { s.fabric with
      requests := s.fabric.requests ++
        [{ tag := s.fabric.nextTag, host := host, kind := kind, queue := q, index := i, addr := addr, since := s.ticks }]
      nextTag := (s.fabric.nextTag + 1) % 2 ^ 32 } }

/-- A request message of function f for a remote-form address leaves, and its answer is awaited (R344, R355). -/
def State.request (s : State) (f q i addr mtype flags aux sealW : Nat) (data : List Byte) (kind : RemKind) : State :=
  (s.addRequest false kind q i addr).sendMsg
    { dst := bitsOf addr 59 48, src := s.node, pkey := s.pkey f, mtype := mtype, flags := flags, aux := aux, tag := s.fabric.nextTag,
      addr := bitsOf addr 47 0, sealW := sealW, data := data }

/-- A host request leaves under the function's requester ID (R604). -/
def State.hostRequest (s : State) (f q i addr len : Nat) (kind : RemKind) : State :=
  (s.addRequest true kind q i addr).send (.hostRead f s.fabric.nextTag (bitsOf addr 59 0) len)

/-- Function f may send remote requests: its key lies in the device's table (R355). -/
def State.mayRemote (s : State) (f : Nat) : Bool := s.keyKnown (s.pkey f) && s.pkey f != 0xFFFF

/-- The request with a tag. -/
def State.findRequest (s : State) (host : Bool) (tag : Nat) : Option RemoteReq :=
  s.fabric.requests.find? (fun r => r.tag == tag && r.host == host)

/-- The request with a tag is answered. -/
def State.dropRequest (s : State) (host : Bool) (tag : Nat) : State :=
  { s with fabric := { s.fabric with requests := s.fabric.requests.filter (fun r => !(r.tag == tag && r.host == host)) } }

/-! ### Serving requests (R356) -/

/-- The local ranges a request may name (R253); any other is BADADDR. -/
def servable (a n : Nat) : Bool :=
  let ok (x : Nat) : Bool := match regionOf x with | .capacity | .fast _ _ | .scratch _ _ => true | _ => false
  ok a && ok (a + n - 1)

/-- The status of a request for [a, a + n) with key `key` (R345, R356): 0 and the function served, 1 PERMISSION, 2 FAULT, 3 BADADDR. A
device that is FATAL or in FLOW_STOP answers FAULT (R461, R499). -/
def State.serveCheck (s : State) (key a n : Nat) (wr : Bool) : Nat × Nat :=
  if s.fatal || s.flowStop then (2, 0)
  else if !servable a n then (3, 0)
  else match s.keyOwner key (fun f => (s.refused f a n wr).isNone) with
    | some f => (0, f)
    | none =>
      match regionOf a with
      | .scratch c _ => if s.unavailable c then (2, 0) else (1, 0)
      | _ => (1, 0)

/-- A response to message `m` (R344, R355). -/
def State.respond (s : State) (m : FabMsg) (mtype flags status sealW : Nat) (data : List Byte) : State :=
  s.sendMsg { dst := m.src, src := s.node, pkey := m.pkey, mtype := mtype, flags := flags, aux := status, tag := m.tag, addr := 0,
              sealW := sealW, data := data }

/-- RD served: exactly its bytes; a whole aligned block goes with its stored seal (R345, R448). Poisoned data answers FAULT, the record
being this device's. -/
def State.serveRd (s : State) (m : FabMsg) : State :=
  let (st, f) := s.serveCheck m.pkey m.addr m.aux false
  if st ≠ 0 then s.respond m 0x10 0 st 0 []
  else match s.tiers.badWords.find? (fun w => decide (m.addr / 8 ≤ w / 8) && decide (w / 8 ≤ (m.addr + m.aux - 1) / 8)) with
    | some w => ((s.uncorrectable f 0xFFFFFFFF 0 w).1).respond m 0x10 0 2 0 []
    | none =>
      let s1 := s.traffic m.addr m.aux false
      let d := s.ncBytes m.addr m.aux
      if m.aux = 2048 ∧ m.addr % 2048 = 0 then
        s1.respond m 0x10 2 0 ((crc32c d) ^^^ (s.syndrome m.addr)).toNat d
      else s1.respond m 0x10 0 0 0 d

def execRd (k : Nat) (s : State) : Result := s.onMsg k 1 (fun t _ m => t.serveRd m)

/-- A seal that does not match its payload, met at a link receiver: counted, and recorded when it is not the void seal (R447, R449). -/
def State.sealMiss (s : State) (f q i a : Nat) (data : List Byte) (w : Nat) : State :=
  if (crc32c data ^^^ 0xFFFFFFFF#32).toNat = w then s.count (A.SEAL 0x20)
  else (s.count (A.SEAL 0x18)).record { cls := 1, cause := 3, unitKind := 13, fn := f, queue := q, index := i, addr := a }

/-- WR served (R345, R356, R448): a sealed block is checked before it is written and becomes valid; any other is a plain write. -/
def State.serveWr (s : State) (m : FabMsg) : State :=
  let n := m.data.length
  let (st, f) := s.serveCheck m.pkey m.addr n true
  if st ≠ 0 then s.respond m 0x11 0 st 0 []
  else
    let write (t : State) : State := (t.purgeRange m.addr n).traffic m.addr n true
    if bitOf m.flags 1 then
      let s1 := s.count (A.SEAL 0x10)
      if (crc32c m.data).toNat = m.sealW then
        (((write s1).putBytes m.addr m.data).setSyndrome m.addr 0).respond m 0x11 0 0 0 []
      else (s1.sealMiss f 0xFFFFFFFF 0 m.addr m.data m.sealW).respond m 0x11 0 2 0 []
    else ((write s).plainWrite m.addr m.data).respond m 0x11 0 0 0 []

def execWr (k : Nat) (s : State) : Result := s.onMsg k 2 (fun t _ m => t.serveWr m)

/-- VOID served: checked as a WR is, then the block takes the void seal (R345). -/
def State.serveVoid (s : State) (m : FabMsg) : State :=
  let (st, _) := s.serveCheck m.pkey (blockOf m.addr) 2048 true
  if st ≠ 0 then s.respond m 0x11 0 st 0 [] else (s.voidBlock (blockOf m.addr)).respond m 0x11 0 0 0 []

def execVoid (k : Nat) (s : State) : Result := s.onMsg k 4 (fun t _ m => t.serveVoid m)

/-- SIG served: the semaphore must lie in the range of an enabled function with the message's key (R356). -/
def State.serveSig (s : State) (m : FabMsg) : State :=
  let n := fieldAt m.data 0 4
  if s.fatal || s.flowStop then s.respond m 0x12 0 2 0 []
  else match s.keyOwner m.pkey (fun f => s.ownsSem f n) with
  | none => s.respond m 0x12 0 (if n < 2 ^ 20 then 1 else 3) 0 []
  | some _ => ((s.semOp n (byteAt m.data 4) (fieldAt m.data 8 8)).refreshHeads).respond m 0x12 0 0 0 []

def execSig (k : Nat) (s : State) : Result := s.onMsg k 3 (fun t _ m => t.serveSig m)

/-! ### Answers to commands (R317, R345, R354) -/

/-- Physical blocks of a flight's writes. -/
def Flight.wroteBlocks (fl : Flight) : List Nat := blocksTouched fl.wrote

/-- VOID messages for every remote block a failed command has written (R317). -/
def State.sendVoids (s : State) (fl : Flight) : State :=
  let s1 := fl.remoteBlocks.foldl (fun t b => t.request fl.fn fl.queue fl.index b 4 0 0 0 [] .void) s
  s1.modFlight fl.queue fl.index (fun x => { x with voided := true, waiting := x.waiting + fl.remoteBlocks.length })

/-- Nothing of command (q, i) is outstanding any more: with a status other than OK its remote blocks are voided first; then it ends,
its local blocks sealed, or void when it failed (R314, R317, R445). -/
def State.settleMove (s : State) (q i : Nat) : State :=
  match s.flight? q i with
  | none => s
  | some fl =>
    if fl.waiting ≠ 0 then s
    else if fl.status ≠ 0 ∧ !fl.remoteBlocks.isEmpty ∧ !fl.voided then s.sendVoids fl
    else if fl.ended then s
    else
      let s1 := if fl.status = 0 then s.sealBlocks fl.wrote else s.voidBlocks fl.wroteBlocks
      s1.modFlight q i (fun x => { x with ended := true, blocks := fl.wroteBlocks })

/-- One request of command (q, i) has been answered; `fail` is a status with its DETAIL and whether a remote device refused. The first
failure is the command's. -/
def State.answered (s : State) (q i : Nat) (fail : Option (Nat × Nat × Bool)) : State :=
  (s.modFlight q i (fun x =>
    let y := { x with waiting := x.waiting - 1 }
    match fail with
    | some (st, d, und) => if x.status = 0 ∧ !x.ended then { y with status := st, detail := d, undelivered := und } else y
    | none => y)).settleMove q i

/-- What a response status means to its command (R345). -/
def failOf (status addr : Nat) (sealedWr : Bool) : Option (Nat × Nat × Bool) :=
  if status = 0 then none
  else if status = 1 ∨ status = 3 then some (7, addr, true)
  else some (if sealedWr then 4 else 3, addr, false)

/-- Data of a remote or host read of command (q, i) is written at its local destination. -/
def State.writeFetched (s : State) (fl : Flight) (dst : Nat) (data : List Byte) : State :=
  (chunks dst data.length).foldl (fun t c =>
    let (t1, p) := t.engWriteChunk fl.fn c.1 ((data.drop (c.1 - dst)).take c.2)
    match p with
    | some p => t1.modFlight fl.queue fl.index (fun x => { x with wrote := x.wrote ++ [(p, c.2)] })
    | none => t1.modFlight fl.queue fl.index (fun x => if x.status = 0 then { x with status := 7, detail := c.1 } else x)) s

/-- `n` bytes cut into parts of at most `m`, each with its offset. -/
def cutBytes (n m : Nat) (b : List Byte) : List (Nat × List Byte) :=
  (List.range ((n + m - 1) / m)).map (fun j => (j * m, (b.drop (j * m)).take m))

/-- Data bound for another device leaves as a WR, sealed when it is a whole aligned block (R448); data bound for the host leaves as a
PCIe write, which has no answer (R604). -/
def State.sendOn (s : State) (fl : Flight) (dst : Nat) (data : List Byte) (stored : Nat) : State :=
  if isHost dst then (cutBytes data.length (s.fnPcie 0).maxPayload data).foldl (fun t x => t.send (.hostWrite fl.fn (bitsOf dst 59 0 + x.1) x.2)) s
  else
    let whole := data.length == 2048 && dst % 2048 == 0
    let s1 := s.request fl.fn fl.queue fl.index dst 2 (if whole then 2 else 0) 0 (if whole then stored else 0) data (.write whole)
    s1.modFlight fl.queue fl.index (fun x => { x with
      waiting := x.waiting + 1
      remoteBlocks := if x.remoteBlocks.contains (blockOf dst) then x.remoteBlocks else x.remoteBlocks ++ [blockOf dst] })

/-- Data arrives for a read of command (q, i): to its local destination, or on to a remote one or the host. -/
def State.fetched (s : State) (q i dst : Nat) (data : List Byte) : State :=
  match s.flight? q i with
  | none => s
  | some fl =>
    if fl.ended then s
    else if isRemote dst ∨ isHost dst then s.sendOn fl dst data (crc32c data).toNat
    else s.writeFetched fl dst data

/-- A response that answers no outstanding request is discarded and counted (R354). -/
def State.lateResponse (s : State) (n : Nat) : State := if n < 36 then s.count (A.LNK n 0xB0) else s

/-- A response's seal fails at the requester (R448): the failure of the read's command. -/
def FabMsg.sealBad (m : FabMsg) : Bool := bitOf m.flags 1 && (crc32c m.data).toNat != m.sealW

/-- RDDATA for a command's read. -/
def State.readAnswer (s : State) (r : RemoteReq) (dst len : Nat) (m : FabMsg) : State :=
  let s0 := s.dropRequest false r.tag
  let fn := match s.flight? r.queue r.index with | some fl => fl.fn | none => 0xFFFF
  if m.aux ≠ 0 then s0.answered r.queue r.index (failOf m.aux r.addr false)
  else if m.sealBad then
    ((s0.count (A.SEAL 0x10)).sealMiss fn r.queue r.index r.addr m.data m.sealW).answered r.queue r.index (some (4, r.addr, false))
  else
    let s1 := if bitOf m.flags 1 then s0.count (A.SEAL 0x10) else s0
    (s1.fetched r.queue r.index dst (m.data.take len)).answered r.queue r.index none

/-! ### SIGNAL (R316) -/

/-- A remote SIGNAL leaves as a SIG message and waits for its SIGACK; without a key in the table it is refused (R355). -/
def State.remoteSignal (s : State) (fl : Flight) (node n op v : Nat) : State :=
  let a := remoteAddr node (semAddr n)
  if !s.mayRemote fl.fn then s.endFlight fl.queue fl.index 7 a
  else
    ((s.addRequest false .sig fl.queue fl.index a).sendMsg
      { dst := node, src := s.node, pkey := s.pkey fl.fn, mtype := 3, flags := 0, aux := 0, tag := s.fabric.nextTag, addr := 0,
        sealW := 0, data := leBytes 4 n ++ leBytes 1 op ++ leBytes 3 0 ++ leBytes 8 v }).modFlight fl.queue fl.index
      (fun f => { f with waiting := 1 })

/-- SIGNAL: local at once; remote after every earlier command of the queue has completed, then it waits for its answer. -/
def execSignal (q i : Nat) (s : State) : Result :=
  s.control q i 3 (fun b => [(32, decide (fieldAt b 32 4 < 2 ^ 20)), (36, decide (byteAt b 36 < 3)), (39, decide (byteAt b 39 < 16))])
    (fun fl =>
      let n := fieldAt fl.bytes 32 4
      let op := byteAt fl.bytes 36
      let node := fieldAt fl.bytes 38 2
      let v := fieldAt fl.bytes 40 8
      if node = 0xFFF ∨ node = s.node then
        if s.semDenied fl.fn n then s.endFlight q i 7 (semAddr n)
        else ((s.semOp n op v).endFlight q i 0 0).refreshHeads
      else if fl.waiting ≠ 0 then s
      else if s.earlierInFlight fl then (if fl.cancel then s.endFlight q i 2 0 else s)
      else s.remoteSignal fl node n op v)

/-- SIGACK: the SIGNAL that waits for it ends (R316, R345). -/
def State.sigAnswer (s : State) (n : Nat) (m : FabMsg) : State :=
  match s.findRequest false m.tag with
  | some r =>
    if r.kind = .sig then (s.dropRequest false r.tag).answered r.queue r.index (failOf m.aux r.addr false) else s.lateResponse n
  | none => s.lateResponse n

def execSigack (k : Nat) (s : State) : Result := s.onMsg k 0x12 (fun t n m => t.sigAnswer n m)

end Sys2Proof.Machine
end

