-- ==== Sys2Proof/Machine/CoreReqs.lean ====
section
/-!
DEFINITION. What a core has outstanding (R226 to R233): requests and their pieces, the movement queue, DMA tags and bulk transfers, the
accesses that wait for a block, the prefetch buffer, and the end of a vector program (R317, R318).
-/

namespace Sys2Proof.Machine

/-! ### Lookups -/

/-- The command of a core's running vector program. -/
def State.vprogFlight (s : State) (c : Nat) : Option Flight :=
  match (s.core c).vprog with
  | some v => s.flight? v.queue v.index
  | none => none

/-- The function a core's running program belongs to. -/
def State.coreFn (s : State) (c : Nat) : Nat :=
  match s.vprogFlight c with
  | some fl => fl.fn
  | none => (s.fnOfCore c).getD 0

/-- Requests of a core that are under way: in a miss register or under a DMA tag. -/
def Core.underWay (x : Core) : List CoreReq := x.missRegs ++ x.dmaReqs

def Core.modReq (x : Core) (id : Nat) (g : CoreReq → CoreReq) : Core :=
  let f (r : CoreReq) : CoreReq := if r.id == id then g r else r
  { x with missRegs := x.missRegs.map f, dmaReqs := x.dmaReqs.map f }

def State.coreReq? (s : State) (c id : Nat) : Option CoreReq := (s.core c).underWay.find? (fun r => r.id == id)

def Core.thread (x : Core) (t : Nat) : Thread := smapGet (fun _ => Thread.init) x.threads t
def Core.setThread (x : Core) (t : Nat) (v : Thread) : Core := { x with threads := smapPut (fun _ => Thread.init) x.threads t v }

/-- A register of a thread. -/
def Thread.reg (x : Thread) (r : Nat) : Nat := smapGet (fun _ => 0) x.regs r
def Thread.setReg (x : Thread) (r v : Nat) : Thread := { x with regs := smapPut (fun _ => 0) x.regs r v }

/-- Register r of thread t of core c set. -/
def State.writeThreadReg (s : State) (c t r v : Nat) : State := s.modCore c (fun x => x.setThread t ((x.thread t).setReg r v))

/-- Free miss registers of a core (R232). -/
def Core.freeRegs (x : Core) : Nat := 48 - x.missRegs.length

/-! ### DMA tags (R228) -/

/-- Shared tags in use in a cluster: what its cores hold beyond their reserved 128. -/
def State.sharedTags (s : State) (k : Nat) : Nat :=
  ((List.range 16).map (fun j => (s.core (16 * k + j)).dmaReqs.length - 128)).foldl (· + ·) 0

/-- A DMA tag is available to core c. -/
def State.tagFree (s : State) (c : Nat) : Bool :=
  decide ((s.core c).dmaReqs.length < 128) || decide (s.sharedTags (c / 16) < 2048)

/-! ### The end of a vector program (R317, R318) -/

/-- Nothing of the core's program is outstanding: prefetches do not count. -/
def Core.drained (x : Core) : Bool :=
  (x.underWay.all (fun r => decide (r.kind = .prefetch) && r.accs.isEmpty)) && x.mvQueue.isEmpty && x.bulks.isEmpty

/-- The program's threads have all halted and nothing of it is outstanding: its command ends, its fills sealed (R445), the blocks it
wrote by movement sealed, or void when it stopped (R318). -/
def State.programSettle (s : State) (c : Nat) : State :=
  let x := s.core c
  match x.vprog with
  | none => s
  | some v =>
    if v.threads.any (fun t => (x.thread t).running) || !x.drained then s
    else
      let s1 := (s.sealBlocks v.fills).modCore c (fun y => { y with vprog := some { v with fills := [] }, idleSince := s.ticks })
      let s2 := match v.stop with
        | some (st, d) => s1.modFlight v.queue v.index (fun f => if f.ended then f else { f with status := st, detail := d })
        | none => s1
      s2.settleMove v.queue v.index

/-- The program of core c stops with a status (R318): no thread issues any more; what has been issued completes; transfers not yet
handed on are dropped. -/
def State.stopProgram (s : State) (c st d : Nat) : State :=
  match (s.core c).vprog with
  | none => s
  | some v =>
    if v.stop.isSome then s
    else
      (s.modCore c (fun x => { x with
        vprog := some { v with stop := some (st, d) }
        bulks := []
        threads := x.threads.map (fun t => if v.threads.contains t.1 then (t.1, { t.2 with running := false, wait := .none }) else t) })).programSettle c

/-! ### Accesses -/

/-- The first uncorrectable word of a range (R271). -/
def State.badWord (s : State) (a n : Nat) : Option Nat :=
  s.tiers.badWords.find? (fun w => decide (a / 8 ≤ w / 8) && decide (w / 8 ≤ (a + n - 1) / 8) && decide (0 < n))

/-- Uncorrectable data met by the core's program: the record, and the program stops with FAULT_LOST (R271, R318). -/
def State.programBad (s : State) (c w : Nat) : State :=
  match s.vprogFlight c with
  | some fl =>
    let (s1, seq) := s.uncorrectable fl.fn fl.queue fl.index w
    s1.stopProgram c 3 seq
  | none => (s.uncorrectable (s.coreFn c) 0xFFFFFFFF 0 w).1

/-- A thread's access takes effect (R240, R241). A store to a scratchpad is a plain write; one to a cached line reaches its block's seal
with the writeback (R445). -/
def State.perform (s : State) (c : Nat) (a : ThreadAcc) (poison : Option Nat) : State :=
  if a.store then
    if cacheable a.addr then s.putBytes a.addr (leBytes a.size a.value) else s.plainWrite a.addr (leBytes a.size a.value)
  else match poison with
    | some seq => s.stopProgram c 3 seq
    | none => match s.badWord a.addr a.size with
      | some w => s.programBad c w
      | none => s.writeThreadReg c a.thread a.reg (s.num a.addr a.size)

/-- A piece of a request is answered. -/
def State.pieceDone (s : State) (c id p : Nat) : State := s.modCore c (fun x => x.modReq id (fun r => { r with left := r.left.erase p }))

/-- Bytes arrive for a movement into the scratchpad: `n` bytes of the piece at `p`. -/
def State.fill (s : State) (c : Nat) (r : CoreReq) (p : Nat) (data : List Byte) : State :=
  let a := scratchAddr c (r.other + (p - r.addr))
  (s.putBytes a data).modCore c (fun x => { x with vprog := x.vprog.map (fun v => { v with fills := (a, data.length) :: v.fills }) })

/-- Bytes of piece `p` of request `r`: a line, or the whole request. -/
def CoreReq.pieceLen (r : CoreReq) (p : Nat) : Nat :=
  if cacheable r.addr then min (p / 128 * 128 + 128) (r.addr + r.size) - p else r.size

/-- The loads that merged into request (c, id) leave it. -/
def State.dropAccs (s : State) (c id : Nat) : State := s.modCore c (fun x => x.modReq id (fun r => { r with accs := [] }))

/-- A piece of a movement into the scratchpad is read from local memory; loads that merged into it take their values (R232). -/
def State.fillLocal (s : State) (c : Nat) (r : CoreReq) (p n : Nat) : State :=
  match s.badWord p n with
  | some w => ((s.programBad c w).dropAccs c r.id).pieceDone c r.id p
  | none =>
    let here (a : ThreadAcc) : Bool := decide (p ≤ a.addr) && decide (a.addr < p + n)
    let s1 := (s.fill c r p (s.bytes p n)).modCore c (fun x => x.modReq r.id (fun y => { y with accs := y.accs.filter (fun a => !here a) }))
    ((r.accs.filter here).foldl (fun t a => t.perform c a none) s1).pieceDone c r.id p

/-- What a movement out of the scratchpad wrote is the command's (R318). -/
def State.noteWritten (s : State) (c p n : Nat) : State :=
  match (s.core c).vprog with
  | some v => s.modFlight v.queue v.index (fun f => { f with wrote := (p, n) :: f.wrote })
  | none => s

/-- The scratchpad bytes a movement sends for piece `p`. -/
def State.outBytes (s : State) (c : Nat) (r : CoreReq) (p n : Nat) : List Byte := s.bytes (scratchAddr c (r.other + (p - r.addr))) n

/-! ### Coherence messages (R286) -/

/-- A message enters its channel. -/
def State.sendCoh (s : State) (m : CohMsg) : State := { s with coh := { s.coh with net := s.coh.net ++ [m] } }

/-- A message that carries nothing but its kind. -/
def cohMsg (kind : CohKind) (l k : Nat) : CohMsg :=
  { kind := kind, line := l, cluster := k, dirty := false, poison := none, core := 0, req := 0, off := 0, data := [] }

/-- A cluster sends a request for a line (R302). -/
def State.clusterRequest (s : State) (kind : CohKind) (l k : Nat) : State := (s.sendCoh (cohMsg kind l k)).count (A.DIRC k 8)

/-- A non-caching request of core c's request `id` for `n` bytes from `p` on (R294). -/
def State.ncRequest (s : State) (kind : CohKind) (c id p : Nat) (data : List Byte) : State :=
  (s.sendCoh { kind := kind, line := p / 128, cluster := c / 16, dirty := false, poison := none, core := c, req := id, off := p % 128,
               data := data }).count (A.DIRC (c / 16) 8)

/-- Set of a line in a cluster cache (R283) and in its home's directory (R285). -/
def clSet (l : Nat) : Nat := bitsOf (mix64n l) 27 16
def dirSet (l : Nat) : Nat := mix64n l % 4096

/-- Readable in this state (R287). -/
def LineSt.readable (x : LineSt) : Bool := match x with | .S | .E | .M | .SM => true | _ => false
/-- Writable in this state. -/
def LineSt.writable (x : LineSt) : Bool := match x with | .E | .M => true | _ => false
/-- A stable state other than I. -/
def LineSt.resident (x : LineSt) : Bool := match x with | .S | .E | .M => true | _ => false

/-- Line `l` of cluster k is used: its place in the replacement order (R283). -/
def State.touchLine (s : State) (k l : Nat) : State :=
  let n := s.coh.stamp + 1
  ({ s with coh := { s.coh with stamp := n } } : State).setCLine k l { s.cline k l with stamp := n }

/-- Line `l` leaves cluster k by replacement (R287): PutS, PutE or PutM; its prefetch-buffer blocks are dropped (R283). -/
def State.evictLine (s : State) (k l : Nat) : State :=
  let x := s.cline k l
  let s1 := s.invalPf k l
  match x.st with
  | .S => (s1.setCLine k l CLine.init).sendCoh (cohMsg .putS l k)
  | .E => (s1.setCLine k l { x with st := .IW, dirty := false, waiting := [] }).sendCoh (cohMsg .putE l k)
  | .M => ((s1.setCLine k l { x with st := .IW, dirty := true, waiting := [] }).sendCoh { cohMsg .putM l k with dirty := true }).count (A.DIRC k 0x20)
  | _ => s

/-- Room for line `l` in its set of 16 ways: the line used least recently of the stable ones leaves (R283, DESIGN CHOICE, log 23). None when the set
is full of lines that wait. -/
def State.makeRoom (s : State) (k l : Nat) : Option State :=
  let set := s.coh.lines.filter (fun e => e.1 % 32 == k && clSet (e.1 / 32) == clSet l && decide (e.2.st ≠ .IW) && decide (e.2.st ≠ .I))
  if set.length < 16 then some s
  else
    let vict := set.filter (fun e => e.2.st.resident && e.2.waiting.isEmpty)
    match (vict.map (fun e => e.2.stamp)).min? with
    | none => none
    | some m => match vict.find? (fun e => e.2.stamp == m) with
      | some e => some (s.evictLine k (e.1 / 32))
      | none => none

/-- Request (c, id) waits for line `l` of its cluster; from I the line asks for what it needs (R287). -/
def State.waitLine (s : State) (c id l : Nat) (store : Bool) : Option State :=
  let k := c / 16
  let x := s.cline k l
  let wait (t : State) (st : LineSt) : State := t.setCLine k l { t.cline k l with st := st, waiting := (t.cline k l).waiting ++ [(c, id)] }
  match x.st with
  | .I => match s.makeRoom k l with
    | none => none
    | some t => some ((wait t (if store then .IM else .IS)).clusterRequest (if store then .getM else .getS) l k)
  | .S => some ((wait s .SM).clusterRequest .upg l k)
  | _ => some (wait s x.st)

/-! ### Issuing a request (R227, R232, R253) -/

/-- The pieces of a block: its lines when clusters may cache it, else the block itself. -/
def piecesOf (a n : Nat) : List Nat :=
  if cacheable a then (List.range ((a + n - 1) / 128 - a / 128 + 1)).map (fun i => if i = 0 then a else (a / 128 + i) * 128) else [a]

/-- One piece of request `r` of core c goes out (R253, R287, R294). -/
def State.issuePiece (s : State) (c : Nat) (r : CoreReq) (p : Nat) : State :=
  let k := c / 16
  let n := r.pieceLen p
  let f := s.coreFn c
  match regionOf p with
  | .remote _ _ => match r.kind with
    | .moveOut _ => s.request f 0xFFFFFFFF 0 p 2 0 0 0 (s.outBytes c r p n) (.core c r.id)
    | _ => s.request f 0xFFFFFFFF 0 p 1 0 n 0 [] (.core c r.id)
  | _ =>
    if !cacheable p then s
    else
      let l := p / 128
      let st := (s.cline k l).st
      match r.kind with
      | .moveIn _ =>
        if st.readable then
          let s1 := (s.touchLine k l).count (A.DIRC k 0)
          match (s.cline k l).poison with
          | some seq => (s1.stopProgram c 3 seq).pieceDone c r.id p
          | none => s1.fillLocal c r p n
        else s.ncRequest .readNC c r.id p []
      | .moveOut _ =>
        let bs := s.outBytes c r p n
        if st.writable then
          (((((s.touchLine k l).count (A.DIRC k 0)).setCLine k l { s.cline k l with st := .M }).putBytes p bs).noteWritten c p n).pieceDone c r.id p
        else s.ncRequest .writeNC c r.id p bs
      | _ =>
        if st.readable then (s.count (A.DIRC k 0)).pieceDone c r.id p
        else (s.waitLine c r.id l false).getD (s.pieceDone c r.id p)

/-- A request that holds a miss register or a DMA tag goes out. -/
def State.issueReq (s : State) (c : Nat) (r : CoreReq) : State := r.left.foldl (fun t p => t.issuePiece c r p) s

/-! ### Requests that have been answered -/

/-- A prefetched block enters the buffer, most recently used first; the block used least recently leaves (R233, R235). -/
def State.insertPf (s : State) (c a : Nat) (used : Bool) : State :=
  let x := s.core c
  if x.pfBlocks = 0 then s
  else
    let l := { addr := a, used := used } :: x.pfBuf.filter (fun b => b.addr != a)
    let out := l.drop x.pfBlocks
    (s.setCore c { x with pfBuf := l.take x.pfBlocks }).count (A.LSU c 0x58) (out.filter (fun b => !b.used)).length

/-- The completion counter of a movement instruction moves when none of its requests is left (R226). -/
def State.groupDone (s : State) (c group mvc : Nat) : State :=
  let x := s.core c
  if (x.underWay ++ x.mvQueue).any (fun r => r.group == group) || x.bulks.any (fun b => b.group == group) then s
  else s.modCore c (fun y => { y with mvc := smapPut (fun _ => 0) y.mvc mvc ((smapGet (fun _ => 0) y.mvc mvc + 1) % 2 ^ 32) })

/-- An answered request leaves its register or tag. -/
def State.finishReq (s : State) (c : Nat) (r : CoreReq) : State :=
  let keep (l : List CoreReq) : List CoreReq := l.filter (fun y => y.id != r.id)
  let s1 := s.modCore c (fun x => { x with missRegs := keep x.missRegs, dmaReqs := keep x.dmaReqs })
  match r.kind with
  | .demand => s1
  | .prefetch => s1.insertPf c r.addr (r.group == 1)
  | .moveIn m | .moveOut m | .moveCache m => s1.groupDone c r.group m

/-- The next request of a bulk transfer: up to the next multiple of 512 bytes (R227). -/
def State.issueBulk (s : State) (c : Nat) (b : Bulk) (rest : List Bulk) : State :=
  let n := min b.len (512 - b.addr % 512)
  let x := s.core c
  let r : CoreReq := {
    id := x.nextGroup, kind := if b.out then .moveOut b.mvc else .moveIn b.mvc, addr := b.addr, size := n, other := b.spad
    group := b.group, left := piecesOf b.addr n, accs := [] }
  let b1 := { b with addr := b.addr + n, spad := b.spad + n, len := b.len - n }
  (s.setCore c { x with
    nextGroup := x.nextGroup + 1
    dmaReqs := x.dmaReqs ++ [r]
    bulks := if b1.len = 0 then rest else b1 :: rest }).issueReq c r

/-- One move of the core's requests: an answered one leaves, else the oldest waiting movement takes a free register, else a bulk
transfer takes a tag (R227, R228). -/
def State.churn1 (s : State) (c : Nat) : Option State :=
  let x := s.core c
  match x.underWay.find? (fun r => r.left.isEmpty && r.accs.isEmpty) with
  | some r => some (s.finishReq c r)
  | none => match x.mvQueue with
    | r :: rest =>
      if 0 < x.freeRegs then some ((s.setCore c { x with mvQueue := rest, missRegs := x.missRegs ++ [r] }).issueReq c r)
      else none
    | [] => match x.bulks with
      | b :: rest => if s.tagFree c then some (s.issueBulk c b rest) else none
      | [] => none

/-- Moves until none is left, then a look at the program's end. -/
def State.churnN (s : State) (c : Nat) : Nat → State
  | 0 => s.programSettle c
  | n + 1 => match s.churn1 c with
    | some t => t.churnN c n
    | none => s.programSettle c

/-- A bound on the moves a core can make. -/
def Core.moves (x : Core) : Nat := 2 * (x.underWay.length + x.mvQueue.length + (x.bulks.map (fun b => b.len / 16 + 2)).foldl (· + ·) 0) + 2

def State.churn (s : State) (c : Nat) : State := s.churnN c ((s.core c).moves)

/-! ### A line becomes usable (R287, R290) -/

/-- The accesses of request (c, id) to line `l` take effect in order, up to a store that needs ownership. Answers whether none is left. -/
def State.serveAccs (s : State) (c id l : Nat) (poison : Option Nat) : List ThreadAcc → State × Bool
  | [] => (s, true)
  | a :: as =>
    if a.addr / 128 ≠ l then s.serveAccs c id l poison as
    else
      let k := c / 16
      let st := (s.cline k l).st
      let done (t : State) : State := t.modCore c (fun x => x.modReq id (fun r => { r with accs := r.accs.erase a }))
      if a.store then
        if st.writable then
          State.serveAccs (((done s).setCLine k l { s.cline k l with st := .M }).perform c a poison) c id l poison as
        else (s, false)
      else if st.readable then State.serveAccs ((done s).perform c a poison) c id l poison as
      else (s, false)

/-- The requests that wait for line `l` of cluster k are served in order, up to one that must wait on. -/
def State.serveWaiting (s : State) (k l : Nat) : List (Nat × Nat) → State
  | [] => s.setCLine k l { s.cline k l with waiting := [] }
  | (c, id) :: rest =>
    match s.coreReq? c id with
    | none => s.serveWaiting k l rest
    | some r =>
      let (s1, ok) := s.serveAccs c id l (s.cline k l).poison r.accs
      if ok then
        let p := if r.addr / 128 = l then r.addr else l * 128
        ((s1.pieceDone c id p).churn c).serveWaiting k l rest
      else s1.setCLine k l { s1.cline k l with waiting := (c, id) :: rest }

end Sys2Proof.Machine
end

