-- ==== Sys2Proof/Machine/Coherence.lean ====
section
/-!
DEFINITION. The directory protocol (R282 to R296): each message row takes its message from the channel at its receiver, a cluster or
the line's home slice, and does what R287 to R291 and R294 say. The rows name the line by its line address `l` (address / 128) and the
cluster `k`; those of non-caching requests name the message by its place `n` among those for the line.
-/

namespace Sys2Proof.Machine

/-! ### Channels (R286) -/

/-- Class of a message: 0 RSP, 1 WB, 2 SNP, 3 REQ. -/
def CohKind.cls (x : CohKind) : Nat :=
  match x with
  | .putM | .putE | .putS => 1
  | .snpS | .snpM | .snpInv | .snpRd => 2
  | .getS | .getM | .upg | .readNC | .writeNC => 3
  | _ => 0

/-- Sent by a cluster to a home. -/
def CohKind.toHome (x : CohKind) : Bool :=
  match x with
  | .snpS | .snpM | .snpInv | .snpRd | .dataS | .dataE | .dataM | .ack | .wbAck => false
  | _ => true

/-- Home slice of line `l` (R284). -/
def State.lineHome (s : State) (l : Nat) : Nat := s.homeSlice (l * 128)

/-- Two messages travel in one channel: same class, source and destination. -/
def State.sameChannel (s : State) (a b : CohMsg) : Bool :=
  a.kind.cls == b.kind.cls && a.kind.toHome == b.kind.toHome && a.cluster == b.cluster && s.lineHome a.line == s.lineHome b.line

/-- The first message that satisfies `p` and the messages before and after it. -/
def splitMsg (p : CohMsg → Bool) : List CohMsg → Option (List CohMsg × CohMsg × List CohMsg)
  | [] => none
  | m :: ms => if p m then some ([], m, ms) else (splitMsg p ms).map (fun x => (m :: x.1, x.2.1, x.2.2))

/-- The message arrives: it leaves its channel, when none sent before it in the channel is still on its way (R286). -/
def State.takeCoh (s : State) (p : CohMsg → Bool) : Option (CohMsg × State) :=
  match splitMsg p s.coh.net with
  | some (before, m, after) =>
    if before.any (s.sameChannel m) then none
    else some (m, { s with coh := { s.coh with net := before ++ after } })
  | none => none

/-! ### Directory entries -/

def State.dirEntry (s : State) (l : Nat) : DirEntry := smapGet (fun _ => DirEntry.init) s.coh.dir l
def State.setDir (s : State) (l : Nat) (e : DirEntry) : State :=
  { s with coh := { s.coh with dir := smapPut (fun _ => DirEntry.init) s.coh.dir l e } }
def State.modDir (s : State) (l : Nat) (g : DirEntry → DirEntry) : State := s.setDir l (g (s.dirEntry l))

/-- A directory counter of line `l`'s home slice (R301). -/
def State.countDir (s : State) (l off : Nat) (n : Nat := 1) : State := s.count (A.DIR (s.lineHome l) off) n

/-- Open transactions and requests that wait outside a line queue at slice `h`: its REQ buffer entries in use (R286, DESIGN CHOICE, log 23). -/
def State.reqInUse (s : State) (h : Nat) : Nat :=
  ((s.coh.dir.filter (fun e => s.lineHome e.1 == h)).map (fun e => (if e.2.txn.isSome then 1 else 0) + e.2.ncWait.length)).foldl (· + ·) 0

/-- SNP_TO and AGE_WARN in beats (R299). -/
def State.snpTo (s : State) : Nat := let v := s.fld (A.DIR_CFG) 31 24; if 1 ≤ v ∧ v ≤ 16 then v else 4
def State.ageWarn (s : State) : Nat := zeroAs 100 (s.fld A.DIR_CFG 15 8)

/-! ### Transactions (R288) -/

/-- A snoop leaves for each cluster of a list. -/
def State.snoop (s : State) (l : Nat) (kind : CohKind) (ks : List Nat) : State :=
  ks.foldl (fun t k => (t.sendCoh (cohMsg kind l k)).countDir l 0x38) s

/-- A transaction begins with the snoops and the memory access its request needs in the entry's state (R288, R294, R285). -/
def State.startTxn (s : State) (l : Nat) (q : HomeReq) : State :=
  let e := s.dirEntry l
  let y := q.from_
  let kind := if q.kind = .upg ∧ !(e.owner.isNone && e.sharers.contains y) then .getM else q.kind
  let whole := decide (q.off = 0) && decide (q.data.length = 128)
  let sn : Option (CohKind × List Nat) :=
    match e.owner with
    | some x => (match kind with
        | .getS => some (.snpS, [x])
        | .readNC => some (.snpRd, [x])
        | .writeNC => some (if whole then .snpInv else .snpM, [x])
        | _ => some (.snpM, [x]))
    | none =>
      let ks := ascending (if kind = .upg then e.sharers.erase y else e.sharers)
      (match kind with
        | .getS | .readNC => none
        | _ => if ks.isEmpty then none else some (.snpInv, ks))
  let q1 := { q with kind := kind }
  let t : Txn := {
    req := q1, awaits := (match sn with | some (_, ks) => ks | none => []), awaitsPut := [], putEarly := [], memWait := false
    gotData := false, dirty := false, poison := none, crossed := false, snoopDue := s.ticks + s.snpTo }
  let s1 := s.setDir l { e with txn := some t }
  match sn with
  | some (kd, ks) => s1.snoop l kd ks
  | none => s1

/-- A grant leaves for the requester. -/
def State.grant (s : State) (l : Nat) (t : Txn) (kind : CohKind) : State :=
  s.sendCoh { cohMsg kind l t.req.from_ with poison := t.poison }

/-- A non-caching request has its answer: the piece of core c's request. -/
def State.ncAnswer (s : State) (l : Nat) (t : Txn) : State :=
  let q := t.req
  match s.coreReq? q.core q.req with
  | none => s
  | some r =>
    let p := l * 128 + q.off
    match q.kind, t.poison with
    | .readNC, some seq => (((s.stopProgram q.core 3 seq).dropAccs q.core q.req).pieceDone q.core q.req p).churn q.core
    | .readNC, none => (s.fillLocal q.core r p (r.pieceLen p)).churn q.core
    | _, _ => (s.pieceDone q.core q.req p).churn q.core

/-- What the entry holds after its transaction (R288, R291, R294). -/
def Txn.after (t : Txn) (e : DirEntry) : Option Nat × List Nat :=
  let y := t.req.from_
  match t.req.kind with
  | .getS => match e.owner with
    | some x => if t.crossed then (some y, []) else (none, [x, y])
    | none => if e.sharers.isEmpty then (some y, []) else (none, e.sharers ++ [y])
  | .getM | .upg => (some y, [])
  | .readNC => if t.crossed then (none, []) else (e.owner, e.sharers)
  | .writeNC | .backInv => (none, [])

/-- The transaction's last part: the grant or answer, the data written where R287 and R294 write it, and the entry (R288). -/
def State.endTxn (s : State) (l : Nat) (t : Txn) : State :=
  let e := s.dirEntry l
  let (o, sh) := t.after e
  let dirtyMem (u : State) : State := if t.dirty then (u.writebackLine l).traffic (l * 128) 128 true else u
  let s1 := s.setDir l { e with txn := none, owner := o, sharers := sh }
  match t.req.kind with
  | .getS =>
    let kind := if o.isSome then .dataE else .dataS
    (dirtyMem s1).grant l t kind
  | .getM => s1.grant l t .dataM
  | .upg => s1.grant l t .ack
  | .readNC => (dirtyMem s1).ncAnswer l t
  | .writeNC =>
    let a := l * 128 + t.req.off
    (((if t.dirty then s1.writebackLine l else s1).putBytes a t.req.data).noteWritten t.req.core a t.req.data.length).ncAnswer l t
  | .backInv => dirtyMem s1

/-- The transaction still needs memory: it reads the line when no copy supplied it, and a WriteNC writes (R288, R294). -/
def Txn.needsMem (t : Txn) : Bool :=
  match t.req.kind with
  | .getS | .getM | .readNC => !t.gotData
  | .writeNC => true
  | .upg | .backInv => false

/-- The transaction has every answer: it goes to memory, or ends, and the line's queue is served next (R288, R289). `fuel` bounds the
requests served at once. -/
def State.advance (s : State) (l : Nat) : Nat → State
  | 0 => s
  | fuel + 1 =>
    let e := s.dirEntry l
    match e.txn with
    | some t =>
      if !t.awaits.isEmpty || !t.awaitsPut.isEmpty || t.memWait then s
      else if t.needsMem then s.setDir l { e with txn := some { t with memWait := true } }
      else (s.endTxn l t).advance l fuel
    | none =>
      let e1 := match e.ncWait with
        | n :: ns => if e.queue.any (fun q => q.from_ == 32) then e else { e with queue := e.queue ++ [n], ncWait := ns }
        | [] => e
      match e1.queue with
      | [] => s.setDir l (if e1.owner.isNone && e1.sharers.isEmpty then DirEntry.init else e1)
      | q :: qs => (((s.setDir l { e1 with queue := qs }).countCycles (A.DIR (s.lineHome l) 0x48)).startTxn l q).advance l fuel

/-- Requests a line can have. -/
def DirEntry.bound (e : DirEntry) : Nat := 2 * (e.queue.length + e.ncWait.length) + 4

def State.advanceLine (s : State) (l : Nat) : State := s.advance l (s.dirEntry l).bound

/-! ### Requests at a home (R285, R288, R289, R292) -/

/-- The entry that leaves a full directory set for a new one: used least recently and not busy (R285). -/
def State.dirVictim (s : State) (l : Nat) : Option Nat :=
  let set := s.coh.dir.filter (fun e => s.lineHome e.1 == s.lineHome l && dirSet e.1 == dirSet l)
  if set.length < 16 ∨ set.any (fun e => e.1 == l) then none
  else
    let idle := set.filter (fun e => e.2.txn.isNone)
    match (idle.map (fun e => e.2.stamp)).min? with
    | some m => (idle.find? (fun e => e.2.stamp == m)).map Prod.fst
    | none => none

/-- A full set in which every entry is busy. -/
def State.dirFull (s : State) (l : Nat) : Bool :=
  let set := s.coh.dir.filter (fun e => s.lineHome e.1 == s.lineHome l && dirSet e.1 == dirSet l)
  decide (16 ≤ set.length) && !set.any (fun e => e.1 == l)

/-- An entry of the line's set is already being back-invalidated. -/
def State.dirLeaving (s : State) (l : Nat) : Bool :=
  s.coh.dir.any (fun e => s.lineHome e.1 == s.lineHome l && dirSet e.1 == dirSet l
    && (match e.2.txn with | some t => decide (t.req.kind = .backInv) | none => false))

/-- The request is accepted: the rotating pointer moves past its requester (R289); it begins, or joins the line's queue; a second
non-caching request of a line waits outside the queue. -/
def State.accept (s : State) (l : Nat) (q : HomeReq) (off : Nat) : State :=
  let n := s.coh.stamp + 1
  let s0 := (({ s with coh := { s.coh with stamp := n, rrPtr := smapPut (fun _ => 0) s.coh.rrPtr (s.lineHome l) ((q.from_ + 1) % 33) } } : State).countDir l
    off).modDir l (fun e => { e with stamp := n })
  let e := s0.dirEntry l
  if e.txn.isNone then (s0.startTxn l q).advanceLine l
  else if q.from_ = 32 ∧ (e.queue.any (fun x => x.from_ == 32) || (match e.txn with | some t => t.req.from_ == 32 | none => false)) then
    s0.setDir l { e with ncWait := e.ncWait ++ [q] }
  else s0.setDir l { e with queue := e.queue ++ [q] }

/-- A back-invalidation of the line of an entry that must leave (R285). -/
def State.backInvalidate (s : State) (v : Nat) : State :=
  ((s.countDir v 0x50).startTxn v { kind := .backInv, from_ := 33, core := 0, req := 0, off := 0, data := [], warnAt := s.ticks + s.ageWarn,
                                    warned := false }).advanceLine v

/-- A request reaches the home: while its slice's buffer is full it stays in its channel, and while its set is full the entry used least
recently leaves first (R285, R286). -/
def State.atHome (s : State) (l : Nat) (p : CohMsg → Bool) (kind : ReqType) (off : Nat) : State :=
  if 256 ≤ s.reqInUse (s.lineHome l) then s
  else match s.takeCoh p with
    | none => s
    | some (m, t) =>
      if s.dirFull l then
        (match if s.dirLeaving l then none else s.dirVictim l with
         | some v => s.backInvalidate v
         | none => s)
      else
        let nc := decide (kind = .readNC) || decide (kind = .writeNC)
        t.accept l { kind := kind, from_ := if nc then 32 else m.cluster, core := m.core, req := m.req, off := m.off, data := m.data,
                     warnAt := s.ticks + s.ageWarn, warned := false } off

/-- Message of this kind for line l to or from cluster k. -/
def isMsg (kind : CohKind) (l k : Nat) (m : CohMsg) : Bool := decide (m.kind = kind) && m.line == l && m.cluster == k

/-- Lines lie in the two tiers, below the system regions (R282). -/
def lineOk (l k : Nat) : Bool := decide (k < 32) && cacheable (l * 128)

def execGets (l k : Nat) (s : State) : Result := onUnit (lineOk l k) (s.atHome l (isMsg .getS l k) .getS 0x10)
def execGetm (l k : Nat) (s : State) : Result := onUnit (lineOk l k) (s.atHome l (isMsg .getM l k) .getM 0x18)
def execUpg (l k : Nat) (s : State) : Result := onUnit (lineOk l k) (s.atHome l (isMsg .upg l k) .upg 0x20)
def execReadnc (l k : Nat) (s : State) : Result := onUnit (lineOk l k) (s.atHome l (isMsg .readNC l k) .readNC 0x28)
def execWritenc (l k : Nat) (s : State) : Result := onUnit (lineOk l k) (s.atHome l (isMsg .writeNC l k) .writeNC 0x28)

/-! ### Writebacks at a home (R288, R291) -/

/-- PutM, PutE or PutS of cluster k: served at once (R286). It answers the line's open snoop of k when there is one (R291); else R288's
table; a stray one is acknowledged. Every one is acknowledged with WbAck. -/
def State.putAt (s : State) (l k : Nat) (m : CohMsg) : State :=
  let s1 := (s.countDir l 0x30).sendCoh (cohMsg .wbAck l k)
  let e := s1.dirEntry l
  let toMem (u : State) : State := if decide (m.kind = .putM) then (u.writebackLine l).traffic (l * 128) 128 true else u
  match e.txn with
  | some t =>
    if m.kind = .putS then
      (if t.awaits.contains k then s1.countDir l 0x40 else s1).setDir l { e with sharers := e.sharers.erase k }
    else if t.awaits.contains k || t.awaitsPut.contains k then
      let early := t.awaits.contains k
      let t1 := { t with
        putEarly := if early then k :: t.putEarly else t.putEarly
        awaitsPut := t.awaitsPut.erase k
        gotData := t.gotData || decide (m.kind = .putM)
        dirty := t.dirty || decide (m.kind = .putM)
        crossed := true }
      ((s1.countDir l 0x40).setDir l { e with txn := some t1 }).advanceLine l
    else toMem (s1.setDir l { e with owner := if e.owner = some k then none else e.owner, sharers := e.sharers.erase k })
  | none =>
    let s2 := s1.setDir l { e with owner := if e.owner = some k then none else e.owner, sharers := e.sharers.erase k }
    (if e.owner = some k then toMem s2 else s2).advanceLine l

/-- A writeback row. -/
def State.putRow (s : State) (l k : Nat) (kind : CohKind) : State :=
  match s.takeCoh (isMsg kind l k) with
  | some (m, t) => t.putAt l k m
  | none => s

def execPutm (l k : Nat) (s : State) : Result := onUnit (lineOk l k) (s.putRow l k .putM)
def execPute (l k : Nat) (s : State) : Result := onUnit (lineOk l k) (s.putRow l k .putE)
def execPuts (l k : Nat) (s : State) : Result := onUnit (lineOk l k) (s.putRow l k .putS)

/-! ### Snoops at a cluster (R287, R290) -/

/-- A cluster's answer to a snoop. -/
def State.snoopAnswer (s : State) (l k : Nat) (kind : CohKind) (dirty : Bool) : State :=
  s.sendCoh { cohMsg kind l k with dirty := dirty, poison := (s.cline k l).poison }

/-- Line `l` of cluster k is invalidated by a snoop (R302, R233). -/
def State.invalidated (s : State) (l k : Nat) : State :=
  ((s.setCLine k l CLine.init).invalPf k l).count (A.DIRC k 0x18)

/-- A snoop acts on the cluster's line and is answered, by the table of R287. -/
def State.answerSnoop (s : State) (l k : Nat) (sn : SnoopKind) : State :=
  let x := s.cline k l
  match x.st, sn with
  | .I, .snpInv => s.snoopAnswer l k .invAck false
  | .I, _ => s.snoopAnswer l k .miss false
  | .IW, _ => s.snoopAnswer l k .missPutPending false
  | .S, .snpM | .S, .snpInv => (s.invalidated l k).snoopAnswer l k .invAck false
  | .S, _ => s.snoopAnswer l k .snpAck false
  | .E, .snpS => (s.snoopAnswer l k .snpData false).setCLine k l { x with st := .S }
  | .E, .snpM => (s.snoopAnswer l k .snpData false).invalidated l k
  | .E, .snpInv => (s.invalidated l k).snoopAnswer l k .invAck false
  | .E, .snpRd => s.snoopAnswer l k .snpData false
  | .M, .snpS => (s.snoopAnswer l k .snpData true).setCLine k l { x with st := .S }
  | .M, .snpM => (s.snoopAnswer l k .snpData true).invalidated l k
  | .M, .snpInv => (s.invalidated l k).snoopAnswer l k .invAck false
  | .M, .snpRd => s.snoopAnswer l k .snpData true
  | .SM, .snpM | .SM, .snpInv =>
    (((s.snoopAnswer l k .invAck false).setCLine k l { x with st := .IM }).invalPf k l).count (A.DIRC k 0x18)
  | .SM, _ => s.snoopAnswer l k .snpAck false
  | .IS, _ | .IM, _ => s.setCLine k l { x with held := x.held ++ [sn] }

/-- Held snoops are answered from the new state (R290). -/
def State.answerHeld (s : State) (l k : Nat) : State :=
  let h := (s.cline k l).held
  h.foldl (fun t sn => t.answerSnoop l k sn) (s.setCLine k l { s.cline k l with held := [] })

/-- Requests that still wait after a snoop or a grant ask again (R287): an upgrade from S, ownership or a read from I. -/
def State.askAgain (s : State) (l k : Nat) : State :=
  let x := s.cline k l
  match x.waiting with
  | [] => s
  | (c, id) :: _ =>
    let store : Bool := match s.coreReq? c id with
      | some r => (match r.accs.find? (fun a => a.addr / 128 == l) with | some a => a.store | none => false)
      | none => false
    match x.st with
    | .S => (s.setCLine k l { x with st := .SM }).clusterRequest .upg l k
    | .I => (s.setCLine k l { x with st := if store then .IM else .IS }).clusterRequest (if store then .getM else .getS) l k
    | _ => s

/-- A snoop row. -/
def State.snoopRow (s : State) (l k : Nat) (kind : CohKind) (sn : SnoopKind) : State :=
  match s.takeCoh (isMsg kind l k) with
  | some (_, t) => (t.count (A.DIRC k 0x10)).answerSnoop l k sn
  | none => s

def execSnps (l k : Nat) (s : State) : Result := onUnit (lineOk l k) (s.snoopRow l k .snpS .snpS)
def execSnpm (l k : Nat) (s : State) : Result := onUnit (lineOk l k) (s.snoopRow l k .snpM .snpM)
def execSnpinv (l k : Nat) (s : State) : Result := onUnit (lineOk l k) (s.snoopRow l k .snpInv .snpInv)
def execSnprd (l k : Nat) (s : State) : Result := onUnit (lineOk l k) (s.snoopRow l k .snpRd .snpRd)

/-! ### Grants at a cluster (R287, R290) -/

/-- The line takes its granted state; waiting accesses are served; then held snoops; then what still waits asks again. A line a snoop
has taken keeps its waiting requests. -/
def State.granted (s : State) (l k : Nat) (st : LineSt) (poison : Option Nat) : State :=
  let s1 := (s.setCLine k l { s.cline k l with st := st, poison := poison }).touchLine k l
  let s2 := s1.serveWaiting k l (s1.cline k l).waiting
  let w := (s2.cline k l).waiting
  let s3 := s2.answerHeld l k
  let x := s3.cline k l
  (s3.setCLine k l { x with waiting := w ++ x.waiting.filter (fun e => !w.contains e) }).askAgain l k

/-- A grant row: taken when the line waits for it. -/
def State.grantRow (s : State) (l k : Nat) (kind : CohKind) (st : LineSt) : State :=
  match s.takeCoh (isMsg kind l k) with
  | some (m, t) => match (t.cline k l).st with
    | .IS | .IM | .SM => t.granted l k st m.poison
    | _ => t
  | none => s

def execDatas (l k : Nat) (s : State) : Result := onUnit (lineOk l k) (s.grantRow l k .dataS .S)
def execDatae (l k : Nat) (s : State) : Result := onUnit (lineOk l k) (s.grantRow l k .dataE .E)
def execDatam (l k : Nat) (s : State) : Result := onUnit (lineOk l k) (s.grantRow l k .dataM .M)
def execAck (l k : Nat) (s : State) : Result := onUnit (lineOk l k) (s.grantRow l k .ack .M)

/-- WbAck: IW to I, and what waited for it asks (R287). -/
def execWback (l k : Nat) (s : State) : Result :=
  onUnit (lineOk l k) <| match s.takeCoh (isMsg .wbAck l k) with
    | some (_, t) =>
      if (t.cline k l).st = .IW then (t.setCLine k l { CLine.init with waiting := (t.cline k l).waiting }).askAgain l k else t
    | none => s

/-! ### Answers at a home (R288, R291, R296) -/

/-- An answer of cluster k to a snoop of the open transaction; one that comes after its timeout is discarded and counted (R296). -/
def State.answerRow (s : State) (l k : Nat) (kind : CohKind) (g : Txn → CohMsg → Txn) : State :=
  match s.takeCoh (isMsg kind l k) with
  | none => s
  | some (m, t) =>
    if t.coh.timedOut.contains (l * 32 + k) then
      ({ t with coh := { t.coh with timedOut := t.coh.timedOut.erase (l * 32 + k) } } : State).countDir l 0x58
    else
      let e := t.dirEntry l
      match e.txn with
      | some x =>
        if x.awaits.contains k then
          (t.setDir l { e with txn := some (g { x with awaits := x.awaits.erase k } m) }).advanceLine l
        else t
      | none => t

/-- Data of a snooped copy: dirty data of a GetS goes to memory (R287); poisoned data poisons the grant. -/
def Txn.withData (t : Txn) (m : CohMsg) : Txn :=
  { t with gotData := true, dirty := t.dirty || (m.dirty && t.req.kind != .getM && t.req.kind != .readNC)
           poison := if m.poison.isSome then m.poison else t.poison }

/-- A MISS or MISS_PUT_PENDING: the writeback is awaited, unless it has come (R291). -/
def Txn.withMiss (t : Txn) (k : Nat) : Txn :=
  if t.putEarly.contains k then { t with putEarly := t.putEarly.erase k, crossed := true }
  else { t with awaitsPut := k :: t.awaitsPut, crossed := true }

def execInvack (l k : Nat) (s : State) : Result := onUnit (lineOk l k) (s.answerRow l k .invAck (fun t _ => t))
def execSnpdata (l k : Nat) (s : State) : Result := onUnit (lineOk l k) (s.answerRow l k .snpData (fun t m => t.withData m))
def execSnpack (l k : Nat) (s : State) : Result := onUnit (lineOk l k) (s.answerRow l k .snpAck (fun t _ => t))
def execMiss (l k : Nat) (s : State) : Result := onUnit (lineOk l k) (s.answerRow l k .miss (fun t _ => t.withMiss k))
def execMissPutPending (l k : Nat) (s : State) : Result :=
  onUnit (lineOk l k) (s.answerRow l k .missPutPending (fun t _ => t.withMiss k))

/-- Line `l`'s bytes are lost: each holds any value (DESIGN CHOICE, log 8), and its block takes the void seal (R296). -/
def State.loseLine (s : State) (l : Nat) : State :=
  let bs := (List.range 128).map (fun i => Config.freeByte (s.free + i))
  ((({ s with free := s.free + 128 } : State).putBytes (l * 128) bs).voidBlock (blockOf (l * 128)))

/-- SNOOP_TIMEOUT: cluster k has not answered within SNP_TO: it is treated as having lost the line; lost by its owner, the block takes
the void seal and the data is poisoned (R296). -/
def execSnoopTimeout (l k : Nat) (s : State) : Result :=
  onUnit (lineOk l k) <|
    let e := s.dirEntry l
    match e.txn with
    | none => s
    | some t =>
      if !(t.awaits.contains k || t.awaitsPut.contains k) || decide (s.ticks < t.snoopDue) then s
      else
        let owner := e.owner == some k
        let seq := s.reg A.ERR_WR
        let s1 := ((({ s with coh := { s.coh with timedOut := if t.awaits.contains k then (l * 32 + k) :: s.coh.timedOut else s.coh.timedOut } } : State).countDir
          l 0x58).record { cls := 1, cause := 8, unitKind := 7, unit := k, addr := l * 128, closeNow := true })
        let s2 := if owner then s1.loseLine l else s1
        let t1 := { t with awaits := t.awaits.erase k, awaitsPut := t.awaitsPut.erase k, gotData := t.gotData || owner, crossed := t.crossed || owner
                           poison := if owner then some seq else t.poison }
        (s2.setDir l { e with txn := some t1, sharers := e.sharers.erase k }).advanceLine l

/-- DIR_AGE_WARN: a request of line `l` that has waited longer than AGE_WARN is logged and counted once (R293). -/
def execDirAgeWarn (l : Nat) (s : State) : Result :=
  onUnit (cacheable (l * 128)) <|
    let e := s.dirEntry l
    let due (q : HomeReq) : Bool := decide (q.warnAt < s.ticks) && !q.warned
    let mark (q : HomeReq) : HomeReq := if due q then { q with warned := true } else q
    let late := (e.queue ++ e.ncWait).filter due
    let s1 := s.setDir l { e with queue := e.queue.map mark, ncWait := e.ncWait.map mark }
    late.foldl (fun t q => (t.countDir l 0x60).event 0x0F
      [(s.lineHome l, 1), (q.from_, 1), (s.ticks - (q.warnAt - s.ageWarn), 4)]) (if late.isEmpty then s else s1)

/-! ### MEMORY_RESPONSE (R231) -/

/-- The memory access of line `l`'s transaction is answered: a bad word poisons what it returns (R271). -/
def State.homeMemory (s : State) (l : Nat) : State :=
  let e := s.dirEntry l
  match e.txn with
  | some t =>
    if !t.memWait then s
    else
      let wr := decide (t.req.kind = .writeNC)
      let s1 := s.traffic (l * 128) 128 wr
      let t1 := { t with memWait := false, gotData := true }
      (match if wr then none else s.badWord (l * 128) 128 with
       | some w =>
         let (s2, seq) := s1.uncorrectable 0xFFFF 0xFFFFFFFF 0 w
         ((s2.setDir l { e with txn := none }).endTxn l { t1 with poison := some seq })
       | none => (s1.setDir l { e with txn := none }).endTxn l t1).advanceLine l
  | none => s

/-- The block of a request to a scratchpad is answered: a core that sleeps serves it after its wake (R230, R238). -/
def State.scratchMemory (s : State) (c : Nat) (r : CoreReq) : State :=
  match regionOf r.addr with
  | .scratch o _ =>
    if !s.awake o && o != c then s
    else match r.kind with
      | .moveOut _ =>
        let bs := s.outBytes c r r.addr r.size
        (((s.putBytes r.addr bs).noteWritten c r.addr r.size).pieceDone c r.id r.addr).churn c
      | .demand =>
        ((r.accs.foldl (fun t a => t.perform c a none) (s.modCore c (fun x => x.modReq r.id (fun y => { y with accs := [] })))).pieceDone c r.id
          r.addr).churn c
      | _ => (s.fillLocal c r r.addr r.size).churn c
  | _ => s

/-- MEMORY_RESPONSE: `home`: the memory access of the home of line `a`; else request `b` of core `a` to a scratchpad. -/
def execMemoryResponse (home : Bool) (a b : Nat) (s : State) : Result :=
  if home then onUnit (cacheable (a * 128)) (s.homeMemory a)
  else onUnit (decide (a < Config.cores)) <| match s.coreReq? a b with
    | some r => if r.left.contains r.addr then s.scratchMemory a r else s
    | none => s

end Sys2Proof.Machine
end

