-- ==== Sys2Proof/Machine/NormalTable.lean ====
section
/-!
DEFINITION. The read-only table of the table normal (R214): TAB[i] is the FP32 value nearest to the quantile of the standard normal distribution at
(i + 0.5)/1024. Computed from that definition; the upper half is listed, the lower one is its mirror.
-/

namespace Sys2Proof.Machine

def normalRow0 : List Nat := [
  0x3AA06C9C, 0x3B70A309, 0x3BC88811, 0x3C0C5F76, 0x3C347B1B, 0x3C5C9707, 0x3C8259A5, 0x3C9667F9, 0x3CAA7689, 0x3CBE855B,
  0x3CD29479, 0x3CE6A3E9, 0x3CFAB3B3, 0x3D0761F0, 0x3D116A3C, 0x3D1B72C1, 0x3D257B83, 0x3D2F8487, 0x3D398DCF, 0x3D439760,
  0x3D4DA13F, 0x3D57AB6E, 0x3D61B5F2, 0x3D6BC0CF, 0x3D75CC09, 0x3D7FD7A4, 0x3D84F1D2, 0x3D89F806, 0x3D8EFE71, 0x3D940514,
  0x3D990BF2, 0x3D9E130C, 0x3DA31A64, 0x3DA821FD, 0x3DAD29D8, 0x3DB231F8, 0x3DB73A5F, 0x3DBC430E, 0x3DC14C07, 0x3DC6554D,
  0x3DCB5EE2, 0x3DD068C7, 0x3DD572FF, 0x3DDA7D8C, 0x3DDF886F, 0x3DE493AC, 0x3DE99F43, 0x3DEEAB37, 0x3DF3B78B, 0x3DF8C43F,
  0x3DFDD156, 0x3E016F6A, 0x3E03F65B, 0x3E067D82, 0x3E0904DF, 0x3E0B8C72, 0x3E0E143D, 0x3E109C41, 0x3E13247E, 0x3E15ACF7,
  0x3E1835AC, 0x3E1ABE9E, 0x3E1D47CE, 0x3E1FD13E ]

def normalRow1 : List Nat := [
  0x3E225AED, 0x3E24E4DE, 0x3E276F12, 0x3E29F989, 0x3E2C8445, 0x3E2F0F46, 0x3E319A8E, 0x3E34261E, 0x3E36B1F7, 0x3E393E1A,
  0x3E3BCA88, 0x3E3E5743, 0x3E40E44B, 0x3E4371A1, 0x3E45FF47, 0x3E488D3E, 0x3E4B1B86, 0x3E4DAA22, 0x3E503911, 0x3E52C856,
  0x3E5557F1, 0x3E57E7E4, 0x3E5A782F, 0x3E5D08D4, 0x3E5F99D4, 0x3E622B30, 0x3E64BCE9, 0x3E674F01, 0x3E69E179, 0x3E6C7451,
  0x3E6F078B, 0x3E719B28, 0x3E742F29, 0x3E76C390, 0x3E79585E, 0x3E7BED94, 0x3E7E8332, 0x3E808C9E, 0x3E81D7D8, 0x3E832349,
  0x3E846EF0, 0x3E85BAD0, 0x3E8706E7, 0x3E885337, 0x3E899FC1, 0x3E8AEC85, 0x3E8C3984, 0x3E8D86BE, 0x3E8ED433, 0x3E9021E6,
  0x3E916FD6, 0x3E92BE04, 0x3E940C70, 0x3E955B1C, 0x3E96AA07, 0x3E97F933, 0x3E9948A0, 0x3E9A984F, 0x3E9BE840, 0x3E9D3875,
  0x3E9E88ED, 0x3E9FD9AA, 0x3EA12AAC, 0x3EA27BF4 ]

def normalRow2 : List Nat := [
  0x3EA3CD83, 0x3EA51F59, 0x3EA67177, 0x3EA7C3DD, 0x3EA9168D, 0x3EAA6987, 0x3EABBCCC, 0x3EAD105C, 0x3EAE6438, 0x3EAFB861,
  0x3EB10CD8, 0x3EB2619D, 0x3EB3B6B1, 0x3EB50C16, 0x3EB661CA, 0x3EB7B7D0, 0x3EB90E28, 0x3EBA64D3, 0x3EBBBBD2, 0x3EBD1324,
  0x3EBE6ACC, 0x3EBFC2CA, 0x3EC11B1E, 0x3EC273CA, 0x3EC3CCCE, 0x3EC5262B, 0x3EC67FE2, 0x3EC7D9F3, 0x3EC93460, 0x3ECA8F29,
  0x3ECBEA4F, 0x3ECD45D3, 0x3ECEA1B6, 0x3ECFFDF8, 0x3ED15A9A, 0x3ED2B79E, 0x3ED41503, 0x3ED572CC, 0x3ED6D0F8, 0x3ED82F89,
  0x3ED98E7F, 0x3EDAEDDB, 0x3EDC4D9F, 0x3EDDADCB, 0x3EDF0E60, 0x3EE06F5F, 0x3EE1D0C8, 0x3EE3329E, 0x3EE494E0, 0x3EE5F78F,
  0x3EE75AAD, 0x3EE8BE3B, 0x3EEA2239, 0x3EEB86A8, 0x3EECEB89, 0x3EEE50DE, 0x3EEFB6A7, 0x3EF11CE5, 0x3EF28399, 0x3EF3EAC5,
  0x3EF55269, 0x3EF6BA86, 0x3EF8231D, 0x3EF98C2F ]

def normalRow3 : List Nat := [
  0x3EFAF5BE, 0x3EFC5FCA, 0x3EFDCA54, 0x3EFF355E, 0x3F005074, 0x3F01067A, 0x3F01BCC1, 0x3F02734A, 0x3F032A16, 0x3F03E124,
  0x3F049876, 0x3F05500C, 0x3F0607E7, 0x3F06C007, 0x3F07786D, 0x3F083119, 0x3F08EA0C, 0x3F09A347, 0x3F0A5CCA, 0x3F0B1696,
  0x3F0BD0AB, 0x3F0C8B0A, 0x3F0D45B3, 0x3F0E00A8, 0x3F0EBBE9, 0x3F0F7776, 0x3F103351, 0x3F10EF79, 0x3F11ABEF, 0x3F1268B5,
  0x3F1325CA, 0x3F13E330, 0x3F14A0E7, 0x3F155EF0, 0x3F161D4B, 0x3F16DBF9, 0x3F179AFB, 0x3F185A52, 0x3F1919FD, 0x3F19D9FF,
  0x3F1A9A58, 0x3F1B5B08, 0x3F1C1C10, 0x3F1CDD71, 0x3F1D9F2C, 0x3F1E6141, 0x3F1F23B1, 0x3F1FE67D, 0x3F20A9A7, 0x3F216D2D,
  0x3F223112, 0x3F22F556, 0x3F23B9FA, 0x3F247EFF, 0x3F254466, 0x3F260A2F, 0x3F26D05B, 0x3F2796EB, 0x3F285DE1, 0x3F29253C,
  0x3F29ECFE, 0x3F2AB528, 0x3F2B7DBB, 0x3F2C46B6 ]

def normalRow4 : List Nat := [
  0x3F2D101D, 0x3F2DD9EE, 0x3F2EA42C, 0x3F2F6ED7, 0x3F3039F1, 0x3F310579, 0x3F31D172, 0x3F329DDB, 0x3F336AB7, 0x3F343806,
  0x3F3505C9, 0x3F35D402, 0x3F36A2B0, 0x3F3771D6, 0x3F384175, 0x3F39118D, 0x3F39E21F, 0x3F3AB32D, 0x3F3B84B8, 0x3F3C56C1,
  0x3F3D2948, 0x3F3DFC50, 0x3F3ECFDA, 0x3F3FA3E6, 0x3F407876, 0x3F414D8B, 0x3F422326, 0x3F42F949, 0x3F43CFF4, 0x3F44A72A,
  0x3F457EEA, 0x3F465738, 0x3F473013, 0x3F48097E, 0x3F48E379, 0x3F49BE07, 0x3F4A9927, 0x3F4B74DD, 0x3F4C5129, 0x3F4D2E0C,
  0x3F4E0B89, 0x3F4EE9A1, 0x3F4FC854, 0x3F50A7A6, 0x3F518796, 0x3F526827, 0x3F53495B, 0x3F542B33, 0x3F550DB0, 0x3F55F0D4,
  0x3F56D4A2, 0x3F57B91A, 0x3F589E3E, 0x3F598410, 0x3F5A6A93, 0x3F5B51C6, 0x3F5C39AE, 0x3F5D224A, 0x3F5E0B9E, 0x3F5EF5AB,
  0x3F5FE072, 0x3F60CBF7, 0x3F61B83A, 0x3F62A53E ]

def normalRow5 : List Nat := [
  0x3F639306, 0x3F648192, 0x3F6570E5, 0x3F666101, 0x3F6751E9, 0x3F68439E, 0x3F693623, 0x3F6A297A, 0x3F6B1DA6, 0x3F6C12A7,
  0x3F6D0882, 0x3F6DFF39, 0x3F6EF6CD, 0x3F6FEF41, 0x3F70E898, 0x3F71E2D5, 0x3F72DDF9, 0x3F73DA09, 0x3F74D705, 0x3F75D4F1,
  0x3F76D3D0, 0x3F77D3A5, 0x3F78D472, 0x3F79D63B, 0x3F7AD902, 0x3F7BDCCA, 0x3F7CE196, 0x3F7DE76A, 0x3F7EEE49, 0x3F7FF636,
  0x3F807F9A, 0x3F8104A3, 0x3F818A38, 0x3F82105A, 0x3F82970D, 0x3F831E50, 0x3F83A626, 0x3F842E92, 0x3F84B794, 0x3F85412E,
  0x3F85CB64, 0x3F865636, 0x3F86E1A7, 0x3F876DB9, 0x3F87FA6D, 0x3F8887C7, 0x3F8915C8, 0x3F89A472, 0x3F8A33C8, 0x3F8AC3CD,
  0x3F8B5482, 0x3F8BE5E9, 0x3F8C7807, 0x3F8D0ADC, 0x3F8D9E6B, 0x3F8E32B8, 0x3F8EC7C5, 0x3F8F5D94, 0x3F8FF429, 0x3F908B86,
  0x3F9123AE, 0x3F91BCA4, 0x3F92566C, 0x3F92F107 ]

def normalRow6 : List Nat := [
  0x3F938C7B, 0x3F9428C9, 0x3F94C5F6, 0x3F956403, 0x3F9602F7, 0x3F96A2D2, 0x3F97439A, 0x3F97E552, 0x3F9887FE, 0x3F992BA2,
  0x3F99D042, 0x3F9A75E1, 0x3F9B1C85, 0x3F9BC431, 0x3F9C6CEB, 0x3F9D16B6, 0x3F9DC197, 0x3F9E6D93, 0x3F9F1AAE, 0x3F9FC8EF,
  0x3FA0785A, 0x3FA128F4, 0x3FA1DAC4, 0x3FA28DCD, 0x3FA34217, 0x3FA3F7A8, 0x3FA4AE84, 0x3FA566B3, 0x3FA6203B, 0x3FA6DB22,
  0x3FA79770, 0x3FA8552C, 0x3FA9145C, 0x3FA9D508, 0x3FAA9738, 0x3FAB5AF4, 0x3FAC2044, 0x3FACE730, 0x3FADAFC1, 0x3FAE7A01,
  0x3FAF45F7, 0x3FB013AE, 0x3FB0E331, 0x3FB1B488, 0x3FB287BF, 0x3FB35CE0, 0x3FB433F7, 0x3FB50D10, 0x3FB5E836, 0x3FB6C577,
  0x3FB7A4DF, 0x3FB8867D, 0x3FB96A5D, 0x3FBA508F, 0x3FBB3922, 0x3FBC2425, 0x3FBD11A9, 0x3FBE01C0, 0x3FBEF47A, 0x3FBFE9EB,
  0x3FC0E225, 0x3FC1DD3D, 0x3FC2DB48, 0x3FC3DC5C ]

def normalRow7 : List Nat := [
  0x3FC4E08F, 0x3FC5E7FA, 0x3FC6F2B6, 0x3FC800DC, 0x3FC9128A, 0x3FCA27DA, 0x3FCB40ED, 0x3FCC5DE1, 0x3FCD7ED8, 0x3FCEA3F6,
  0x3FCFCD5F, 0x3FD0FB3B, 0x3FD22DB3, 0x3FD364F3, 0x3FD4A128, 0x3FD5E285, 0x3FD7293C, 0x3FD87584, 0x3FD9C79A, 0x3FDB1FB9,
  0x3FDC7E26, 0x3FDDE326, 0x3FDF4F05, 0x3FE0C215, 0x3FE23CAD, 0x3FE3BF29, 0x3FE549ED, 0x3FE6DD67, 0x3FE87A0C, 0x3FEA2059,
  0x3FEBD0D8, 0x3FED8C1F, 0x3FEF52D0, 0x3FF1259F, 0x3FF3054D, 0x3FF4F2B2, 0x3FF6EEBB, 0x3FF8FA6F, 0x3FFB16F1, 0x3FFD4587,
  0x3FFF879D, 0x4000EF67, 0x40022676, 0x40036A04, 0x4004BB3F, 0x40061B85, 0x40078C6B, 0x40090FCC, 0x400AA7D8, 0x400C572C,
  0x400E20F1, 0x40100902, 0x4012142D, 0x40144880, 0x4016ADD1, 0x40194E7B, 0x401C38A0, 0x401F8045, 0x4023432F, 0x4027B091,
  0x402D1A57, 0x40342378, 0x403E66BD, 0x40530537 ]

/-- Codes of TAB[512] to TAB[1023]. -/
def normalUpper : List Nat :=
  normalRow0 ++ normalRow1 ++ normalRow2 ++ normalRow3 ++ normalRow4 ++ normalRow5 ++ normalRow6 ++ normalRow7

/-- Code of TAB[i]. -/
def normalTab (i : Nat) : Nat := if i < 512 then 2 ^ 31 + normalUpper.getD (511 - i) 0 else normalUpper.getD (i - 512) 0

/-- The table normal of word `y`. -/
def tableNormal (y : Nat) : Nat :=
  if y < 2 ^ 21 then normalTab 0
  else if 4292870144 ≤ y then normalTab 1023
  else
    let i := (y - 2 ^ 21) / 2 ^ 22
    let f := rne32 (.fin (((y - 2 ^ 21) % 2 ^ 22 : Nat) : Int) (-22))
    fadd (normalTab i) (fmul f (fsub (normalTab (i + 1)) (normalTab i)))

/-- The two normal values of Box and Muller from u1 and u2. -/
def boxMuller (u1 u2 : Nat) : Nat × Nat :=
  let r := vsqrt (fmul (2 ^ 31 + 0x40000000) (flnOf 2 u1))
  let a := fmul 0x40C90FDB u2
  (fmul r (vcos a), fmul r (vsin a))

end Sys2Proof.Machine
end

