-- ==== Sys2Proof/Machine/Threads.lean ====
section
/-!
DEFINITION. Threads of a vector program (R224 to R245, R317, R318): VPROG, loads and stores, movements, waits, fences, semaphore
operations, HALT, TRACE and the random operations (R214). The spec gives no format of a program image (DESIGN CHOICE, log 13), so the rows of the
instructions carry what the program would.
-/

namespace Sys2Proof.Machine

/-! ### Readiness (R225) -/

/-- Accesses of thread t of core c not yet performed: loads, stores, and those to other devices (R242). -/
def State.pendingAccs (s : State) (c t : Nat) (load store remote : Bool) : Bool :=
  (s.core c).underWay.any (fun r => r.accs.any (fun a => a.thread == t && (if a.store then store else load) && (remote || !isRemote r.addr)))

/-- A fence of this scope is satisfied (R242): CORE waits for loads; CLUSTER and DEVICE for every access on the device; FABRIC for all. -/
def State.fenceDone (s : State) (c t scope : Nat) : Bool :=
  if scope = 0 then !s.pendingAccs c t true false true
  else if scope = 3 then !s.pendingAccs c t true true true
  else !s.pendingAccs c t true true false && !s.pendingAccs c t true false true

/-- What the thread waits for has come. -/
def State.waitDone (s : State) (c t : Nat) : Bool :=
  match ((s.core c).thread t).wait with
  | .none => true
  | .counter m v => modGe 32 (smapGet (fun _ => 0) (s.core c).mvc m) v
  | .sem n v _ => modGe 64 (s.sem n) v
  | .fence scope => s.fenceDone c t scope

/-- Thread t of core c is ready (R225). -/
def State.threadReady (s : State) (c t : Nat) : Bool := ((s.core c).thread t).running && s.waitDone c t

/-- The state an instruction of thread t acts on when it issues: the thread waits for nothing any more and the instruction is counted (R225,
R250); the cycles of a fence it waited for are counted, a free value. -/
def State.issued (s : State) (c t : Nat) : State :=
  let s1 := (s.modCore c (fun x => { (x.setThread t { x.thread t with wait := .none }) with lastIssue := t, idleSince := s.ticks })).count
    (A.LSU c 0x10)
  match ((s.core c).thread t).wait with
  | .fence _ => s1.countCycles (A.LSU c 0x38)
  | _ => s1

/-- An instruction of thread t of core c issues (R225): nothing happens when the thread is not ready, or not of the kind `move`
(a movement thread is 12 to 15, R224); a recorded cancel stops the program instead (R318); else it is counted and acts. -/
def State.issue (s : State) (c t : Nat) (move : Bool) (k : State → Flight → State) : State :=
  if t ≥ 16 ∨ (12 ≤ t) ≠ (move = true) ∨ !s.threadReady c t ∨ !s.awake c then s
  else match s.vprogFlight c with
    | none => s
    | some fl =>
      if fl.cancel then s.stopProgram c 2 0
      else k (s.issued c t) fl

/-- A row of a thread instruction. -/
def threadRow (c t : Nat) (move : Bool) (s : State) (k : State → Flight → State) : Result :=
  onUnit (decide (c < Config.cores) && decide (t < 16)) (s.issue c t move k)

/-! ### VPROG (R317) -/

/-- The MALFORMED checks of VPROG; `movBad`: the image places another instruction on a movement thread (R224). -/
def vprogBad (movBad : Bool) (fl : Flight) : Option Nat :=
  let b := fl.bytes
  firstBad ([(32, fieldAt b 32 8 % 64 == 0), (40, fieldAt b 40 8 % 64 == 0)] ++ (offs 50 63).map (fun o => (o, byteAt b o == 0))
    ++ [(32, !movBad)])

/-- The prefetch buffer takes the size PF_BUF names when no thread runs and no miss register is busy; its blocks go (R233, R235). -/
def State.applyPfBuf (s : State) (c : Nat) : State :=
  let v := s.fld (A.LSU c 0) 7 5
  let n := [0, 128, 256, 512, 1024].getD v 512
  let x := s.core c
  if n = x.pfBlocks ∨ x.threads.any (fun t => t.2.running) ∨ !x.missRegs.isEmpty then s
  else (s.setCore c { x with pfBlocks := n, pfBuf := [] }).count (A.LSU c 0x58) (x.pfBuf.filter (fun b => !b.used)).length

/-- VPROG: its threads start; it waits while the core runs another program, and, when it draws, while another command holds the
generators (R205). Run again with a cancel recorded, it stops (R318). -/
def State.vprog (s : State) (fl : Flight) (draws : Bool) : State :=
  let c := fl.core
  match (s.core c).vprog with
  | some v => if v.queue = fl.queue ∧ v.index = fl.index ∧ fl.cancel then s.stopProgram c 2 0 else s
  | none =>
    let img := fieldAt fl.bytes 32 8
    let args := fieldAt fl.bytes 40 8
    match s.refused fl.fn img 64 false with
    | some (st, a) => s.endFlight fl.queue fl.index st a
    | none => match s.refused fl.fn args 64 false with
      | some (st, a) => s.endFlight fl.queue fl.index st a
      | none =>
        if draws && s.rngHeldByOther c fl.queue fl.index then s.countCycles (A.RNG c 0x20)
        else if draws && !s.rngValid c then s.endFlight fl.queue fl.index 3 0
        else
          let mask := fieldAt fl.bytes 48 2
          let ts := (List.range 16).filter (bitOf mask)
          let s1 := ((s.countCycles (A.LSU c 0x18)).applyPfBuf c).modCore c (fun x => { x with
            vprog := some { queue := fl.queue, index := fl.index, threads := ts, draws := draws, fills := [], stop := none }
            lanesSaved := if draws then x.lanes else []
            threads := (ts.foldl (fun y t => y.setThread t { y.thread t with running := true, wait := .none }) x).threads })
          let s2 := if draws then
              ((s1.setFld (A.RNG c 8) 0 0 1).setFld (A.RNG c 8) 49 32 fl.queue).setFld (A.RNG c 8) 31 24 0x40
            else s1
          s2.programSettle c

/-- `draws`: the image contains a random operation; `movBad`: it places another instruction than R224's on a movement thread. -/
def execVprog (q i : Nat) (draws movBad : Bool) (s : State) : Result :=
  s.dispatch q i 0x40 (vprogBad movBad) (fun t fl => t.vprog fl draws)

/-! ### Prefetch (R233 to R235) -/

/-- Block address. -/
def pfAddr (a : Nat) : Nat := a / 512 * 512

/-- A tracker asks for a block: inside the granule of the demand address, owned, not there and not asked for, while more than PF_RESERVE
miss registers are free (R232, R234). -/
def State.prefetchBlock (s : State) (c from_ a : Nat) : State :=
  let x := s.core c
  let f := s.coreFn c
  if a / 0x200000 ≠ from_ / 0x200000 ∨ !cacheable a ∨ (s.denied f a).isSome ∨ x.pfBlocks = 0 ∨ x.freeRegs ≤ s.fld (A.LSU c 0) 11 8
    ∨ x.pfBuf.any (fun b => b.addr == a) ∨ x.underWay.any (fun r => decide (r.kind = .prefetch) && r.addr == a) then s
  else
    let r : CoreReq := { id := x.nextGroup, kind := .prefetch, addr := a, size := 512, other := 0, group := 0, left := piecesOf a 512, accs := [] }
    (((s.setCore c { x with nextGroup := x.nextGroup + 1, missRegs := x.missRegs ++ [r] }).count (A.LSU c 0x40)).issueReq c r).churn c

/-- Blocks a confirmed tracker keeps ahead of address `a`: PF_DIST of them, in the direction of its stride (R234). -/
def aheadBlocks (d : Int) (a dist : Nat) : List Nat :=
  (List.range dist).map (fun (j : Nat) =>
    let step : Int := if d.natAbs ≤ 512 then (if d < 0 then -512 else 512) else d
    pfAddr (((pfAddr a : Nat) : Int) + step * ((j : Int) + 1)).toNat)

/-- A stride that trackers follow: a stream or a longer stride, whichever is enabled (R234). -/
def State.strideOn (s : State) (c : Nat) (d : Int) : Bool :=
  if d = 0 then false
  else if d.natAbs ≤ 512 then s.fld (A.LSU c 0) 1 1 == 1
  else decide (d.natAbs ≤ 65536) && s.fld (A.LSU c 0) 2 2 == 1

/-- The trackers of a core after a demand miss of thread t at `a`: the thread's tracker that `a` continues, else one that knows a single miss
within reach, else a new one in place of the tracker used least recently (DESIGN CHOICE, log 24). Three misses of one stride confirm (R234). -/
def trainTrackers (ts : List Tracker) (t a : Nat) : List Tracker :=
  let mine := ts.filter (fun x => x.thread == t)
  let near (x : Tracker) : Bool := x.run == 0 && x.last != a && decide (((a : Int) - x.last).natAbs ≤ 65536)
  match (mine.find? (fun x => x.run != 0 && ((x.last : Int) + x.stride) == (a : Int))).or (mine.find? near) with
  | none => ({ thread := t, last := a, stride := 0, run := 0, confirmed := false, ahead := 0 } :: ts).take 16
  | some x =>
    { x with last := a, stride := (a : Int) - x.last, run := x.run + 1, confirmed := x.confirmed || decide (1 ≤ x.run) } :: ts.erase x

/-- The trackers of core c see a demand access of thread t at `a`; `miss` trains them, a hit moves a confirmed one on. Blocks ahead are
asked for (R234). A tracker that has come to its granule's end stops: it must be confirmed again in the next. -/
def State.trackDemand (s : State) (c t a : Nat) (miss : Bool) : State :=
  let x := s.core c
  let ts := if miss then trainTrackers x.trackers t a
    else match x.trackers.find? (fun y => y.thread == t && y.confirmed && decide (((a : Int) - y.last).natAbs ≤ 65536)) with
      | some y => { y with last := a } :: x.trackers.erase y
      | none => x.trackers
  let s1 := s.setCore c { x with trackers := ts }
  match ts with
  | y :: rest =>
    if y.thread = t ∧ y.confirmed ∧ s.strideOn c y.stride then
      let d := s.fld (A.LSU c 0) 23 16
      let bs := aheadBlocks y.stride a (if 1 ≤ d ∧ d ≤ 32 then d else 8)
      let s2 := bs.foldl (fun u b => u.prefetchBlock c a b) s1
      if bs.any (fun b => b / 0x200000 != a / 0x200000) then
        s2.modCore c (fun z => { z with trackers := if z.trackers = ts then rest else z.trackers })
      else s2
    else s1
  | [] => s1

/-! ### Loads and stores (R227, R230, R232, R241) -/

/-- Sizes of an access: a power of two up to 64 bytes, aligned (R231, R241; DESIGN CHOICE, log 13). -/
def accOk (a n : Nat) : Bool := [1, 2, 4, 8, 16, 32, 64].contains n && a % n == 0

/-- A new demand request takes a miss register. -/
def State.newDemand (s : State) (c addr size : Nat) (acc : ThreadAcc) : State :=
  let x := s.core c
  s.setCore c { x with
    nextGroup := x.nextGroup + 1
    missRegs := x.missRegs ++ [{ id := x.nextGroup, kind := .demand, addr := addr, size := size, other := 0, group := 0, left := [addr], accs := [acc] }] }

/-- The request that holds the block of `a` last, of the core: one whose data at `a` is still to come (R232). -/
def Core.holding (x : Core) (a : Nat) : Option CoreReq :=
  (x.missRegs.filter (fun r => (match r.kind with | .demand | .prefetch | .moveIn _ => true | _ => false)
    && r.left.any (fun p => decide (p ≤ a) && decide (a < p + r.pieceLen p)))).getLast?

/-- An access merges into a request that holds its block; a prefetch so met was late (R232, R235). -/
def State.mergeAcc (s : State) (c : Nat) (r : CoreReq) (acc : ThreadAcc) : State :=
  let late := decide (r.kind = .prefetch) && r.group == 0
  let s1 := s.modCore c (fun x => x.modReq r.id (fun y => { y with accs := y.accs ++ [acc], group := if late then 1 else y.group }))
  if late then s1.count (A.LSU c 0x50) else s1

/-- An access of a thread to a cached line of its cluster's memory, at physical address `acc.addr`. `back`: the state in which the instruction has
not issued, for an access that finds no miss register and waits (R232). -/
def State.cachedAccess (s back : State) (c : Nat) (acc : ThreadAcc) : State :=
  let k := c / 16
  let l := acc.addr / 128
  let x := s.core c
  let ln := s.cline k l
  match x.pfBuf.find? (fun b => !acc.store && decide (b.addr ≤ acc.addr) && decide (acc.addr < b.addr + 512)) with
  | some b =>
    let s1 := (s.setCore c { x with pfBuf := { b with used := true } :: x.pfBuf.erase b }).perform c acc ln.poison
    (if b.used then s1 else s1.count (A.LSU c 0x48)).trackDemand c acc.thread acc.addr false
  | none =>
    let held := x.holding acc.addr
    match if acc.store then none else held with
    | some r => (s.mergeAcc c r acc).trackDemand c acc.thread acc.addr false
    | none =>
      if held.isNone && (if acc.store then ln.st.writable else ln.st.readable) then
        let s1 := (s.touchLine k l).count (A.DIRC k 0)
        let s2 := if acc.store then s1.setCLine k l { s1.cline k l with st := .M } else s1
        s2.perform c acc ln.poison
      else if x.freeRegs = 0 then back.countCycles (A.LSU c 0x20)
      else
        let s1 := s.newDemand c (l * 128) 128 acc
        match s1.waitLine c x.nextGroup l acc.store with
        | some s2 => s2.trackDemand c acc.thread acc.addr true
        | none => back

/-- An access of a thread to a block that no cache holds: another core's scratchpad, or another device (R230, R253). A load from another device
waits for the core's stores to its block (R241). -/
def State.uncachedAccess (s back : State) (c : Nat) (fl : Flight) (acc : ThreadAcc) : State :=
  let x := s.core c
  let blk := acc.addr / 64 * 64
  if !acc.store && isRemote acc.addr && x.underWay.any (fun r => overlaps r.addr r.size blk 64 && r.accs.any ThreadAcc.store) then back
  else match if acc.store then none else x.holding acc.addr with
  | some r => s.mergeAcc c r acc
  | none =>
    if x.freeRegs = 0 then back.countCycles (A.LSU c 0x20)
    else if !isRemote acc.addr then s.newDemand c blk 64 acc
    else if !s.mayRemote fl.fn then s.stopProgram c 7 acc.addr
    else if acc.store then
      (s.newDemand c acc.addr acc.size acc).request fl.fn 0xFFFFFFFF 0 acc.addr 2 0 0 0 (leBytes acc.size acc.value) (.core c x.nextGroup)
    else (s.newDemand c blk 64 acc).request fl.fn 0xFFFFFFFF 0 blk 1 0 64 0 [] (.core c x.nextGroup)

/-- A thread's load or store (R230, R241, R252): its own scratchpad at once, the prefetch buffer's range reading 0; a refused address
stops the program. `back` is the state before it issued. -/
def State.access (s back : State) (c : Nat) (fl : Flight) (acc0 : ThreadAcc) : State :=
  let a := s.localForm acc0.addr
  let acc := { acc0 with addr := a }
  if !accOk a acc.size then s
  else if isRemote a then s.uncachedAccess back c fl acc
  else
    let own := match regionOf a with | .scratch o _ => o == c | _ => false
    let off := a % 0x400000
    if own && decide (s.pfStart c ≤ off) then (if acc.store then s else s.writeThreadReg c acc.thread acc.reg 0)
    else match (if acc.store then s.writePlace fl.fn a else (s, match s.resolve fl.fn a false with | .phys p => some p | _ => none)) with
      | (s1, none) => s1.stopProgram c (denial (s.resolve fl.fn a acc.store) a).1 (denial (s.resolve fl.fn a acc.store) a).2
      | (s1, some p) =>
        let acc1 := { acc with addr := p }
        if own then s1.perform c acc1 none
        else if cacheable p then s1.cachedAccess back c acc1
        else s1.uncachedAccess back c fl acc1

/-- LD: register `reg` of thread t takes `size` bytes at address `a`. -/
def execLd (c t reg a size : Nat) (s : State) : Result :=
  threadRow c t false s (fun u fl => u.access s c fl { thread := t, store := false, reg := reg, addr := a, size := size, value := 0 })

/-- ST: `size` bytes of register `reg`, or of `value` when none is named, go to address `a`. The thread is not ready while a load to the
register is outstanding (R225). -/
def execSt (c t : Nat) (reg : Option Nat) (value a size : Nat) (s : State) : Result :=
  let waits := match reg with
    | some r => (s.core c).underWay.any (fun q => q.accs.any (fun x => !x.store && x.thread == t && x.reg == r))
    | none => false
  if waits then onUnit (decide (c < Config.cores) && decide (t < 16)) s
  else threadRow c t false s (fun u fl =>
    let v := match reg with | some r => ((u.core c).thread t).reg r | none => value
    u.access s c fl { thread := t, store := true, reg := 0, addr := a, size := size, value := v })

/-! ### Movements (R226, R227) -/

/-- A range cut into naturally aligned requests of at most 512 bytes. -/
def moveBlocks : Nat → Nat → Nat → List (Nat × Nat)
  | 0, _, _ => []
  | fuel + 1, a, n =>
    if n = 0 then []
    else
      let k := ([512, 256, 128, 64, 32, 16].find? (fun k => decide (k ≤ n) && a % k == 0)).getD 16
      (a, k) :: moveBlocks fuel (a + k) (n - k)

/-- A request of a movement takes its place (R227): a miss register, else the movement queue, else the queue's oldest entry goes to the
DMA engine under a tag. None when no place is left. -/
def State.placeMove (s : State) (c : Nat) (r : CoreReq) : Option State :=
  let x := s.core c
  if 0 < x.freeRegs ∧ x.mvQueue.isEmpty then some ((s.setCore c { x with missRegs := x.missRegs ++ [r] }).issueReq c r)
  else if x.mvQueue.length < 64 then some (s.setCore c { x with mvQueue := x.mvQueue ++ [r] })
  else if s.tagFree c then match x.mvQueue with
    | o :: rest =>
      some (((s.setCore c { x with mvQueue := rest ++ [r], dmaReqs := x.dmaReqs ++ [o] }).count (A.LSU c 0x28)).issueReq c o)
    | [] => none
  else none

/-- Places for every request of a movement, or for none. -/
def State.placeMoves (s : State) (c : Nat) : List CoreReq → Option State
  | [] => some s
  | r :: rs => match s.placeMove c r with
    | some t => t.placeMoves c rs
    | none => none

/-- The physical, or remote, blocks of a movement at `a`, the attempt's first writes taking their granules; else the status and address
that refuse it (R143, R252). -/
def State.movePlaces (s : State) (fn : Nat) (wr : Bool) : List (Nat × Nat) → State × List (Nat × Nat) × Option (Nat × Nat)
  | [] => (s, [], none)
  | (a, n) :: rest =>
    let a1 := s.localForm a
    let (s1, p) : State × Option Nat :=
      if isRemote a1 then (s, if s.mayRemote fn then some a1 else none)
      else if wr then s.writePlace fn a1 else (s, match s.resolve fn a1 false with | .phys p => some p | _ => none)
    match p with
    | none => (s1, [], some (denial (s.resolve fn a1 wr) a))
    | some p =>
      let (s2, l, bad) := s1.movePlaces fn wr rest
      (s2, (p, n) :: l, bad)

/-- The requests of a movement: `spad` is the scratchpad offset of the first byte. -/
def moveReqs (id0 : Nat) (kind : ReqKind) (group spad : Nat) : List (Nat × Nat) → List CoreReq
  | [] => []
  | (p, n) :: rest =>
    { id := id0, kind := kind, addr := p, size := n, other := spad, group := group, left := piecesOf p n, accs := [] }
      :: moveReqs (id0 + 1) kind group (spad + n) rest

/-- The core's requests move on; a movement with no request at all is complete (R226). -/
def State.churnMove (s : State) (c : Nat) (kind : ReqKind) (g : Nat) (empty : Bool) : State :=
  match kind with
  | .moveCache m => if empty then s.groupDone c g m else s.churn c
  | _ => s.churn c

/-- MV.LD, MV.ST and MV.PF issue whole, or, without places for all their requests, not at all (R227). Remote blocks written are the
command's (R317). `back` is the state before it issued. -/
def State.movement (s back : State) (c : Nat) (fl : Flight) (kind : ReqKind) (wr : Bool) (a n spad : Nat) : State :=
  let (s1, ps, bad) := s.movePlaces fl.fn wr (moveBlocks (n + 1) a n)
  match bad with
  | some (st, d) => s.stopProgram c st d
  | none =>
    let pf := match kind with | .moveCache _ => true | _ => false
    if !pf && decide (spad + n > s.pfStart c) then s.stopProgram c 7 (scratchAddr c spad)
    else
      let g := (s1.core c).nextGroup
      let rs := moveReqs (g + 1) kind g spad (if pf then ps.filter (fun p => cacheable p.1) else ps)
      match (s1.modCore c (fun x => { x with nextGroup := g + 1 + rs.length })).placeMoves c rs with
      | none => back.countCycles (A.LSU c 0x30)
      | some t =>
        let rb := if wr then (ps.filter (fun p => isRemote p.1)).map (fun p => blockOf p.1) else []
        (t.modFlight fl.queue fl.index (fun f => { f with remoteBlocks := (f.remoteBlocks ++ rb).eraseDups })).churnMove c kind g rs.isEmpty

/-- Lengths of MV.LD and MV.ST (R226). -/
def moveLenOk (n : Nat) : Bool := decide (16 ≤ n) && decide (n ≤ 4096) && n % 16 == 0

/-- An address and a scratchpad offset that 16-byte units allow. -/
def moveAligned (a spad : Nat) : Bool := a % 16 == 0 && spad % 16 == 0

/-- MV.LD: `n` bytes from device memory at `a` to scratchpad offset `spad`, counted on MVC `m`. -/
def execMvLd (c t m a spad n : Nat) (s : State) : Result :=
  threadRow c t true s (fun u fl => if moveLenOk n ∧ moveAligned a spad ∧ m < 8 then u.movement s c fl (.moveIn m) false a n spad else u)

def execMvSt (c t m a spad n : Nat) (s : State) : Result :=
  threadRow c t true s (fun u fl => if moveLenOk n ∧ moveAligned a spad ∧ m < 8 then u.movement s c fl (.moveOut m) true a n spad else u)

/-- MV.PF: the lines of [a, a + n) are brought into the cluster cache; what it cannot hold is passed over. -/
def execMvPf (c t m a n : Nat) (s : State) : Result :=
  threadRow c t true s (fun u fl =>
    if 64 ≤ n ∧ n ≤ 4096 ∧ n % 16 = 0 ∧ a % 16 = 0 ∧ m < 8 then u.movement s c fl (.moveCache m) false a n 0 else u)

/-- MV.BULK: a transfer of up to 16 MiB goes to the DMA engine (R227), into the scratchpad or, with `out`, to device memory. -/
def State.moveBulk (u : State) (c : Nat) (fl : Flight) (m : Nat) (out : Bool) (a spad n : Nat) : State :=
  let (s1, _, bad) := u.movePlaces fl.fn out ((chunks a n).map (fun p => (p.1, p.2)))
  match bad with
  | some (st, d) => u.stopProgram c st d
  | none =>
    if spad + n > u.pfStart c then u.stopProgram c 7 (scratchAddr c spad)
    else
      let x := s1.core c
      let g := x.nextGroup
      let rb := if out ∧ isRemote (s1.localForm a) then blocksOf a n else []
      ((s1.setCore c { x with
        nextGroup := g + 1
        bulks := x.bulks ++ (chunks a n).map (fun p =>
          { out := out, addr := (match s1.resolve fl.fn (s1.localForm p.1) out with | .phys q => q | _ => s1.localForm p.1)
            spad := spad + (p.1 - a), len := p.2, mvc := m, group := g }) }).modFlight fl.queue fl.index
        (fun f => { f with remoteBlocks := (f.remoteBlocks ++ rb).eraseDups })).churn c

/-- Lengths and alignment of MV.BULK (R227). -/
def bulkOk (m a spad n : Nat) : Bool :=
  decide (16 ≤ n) && decide (n ≤ 0x1000000) && n % 16 == 0 && moveAligned a spad && decide (m < 8)

def execMvBulk (c t m : Nat) (out : Bool) (a spad n : Nat) (s : State) : Result :=
  threadRow c t true s (fun u fl => if bulkOk m a spad n then u.moveBulk c fl m out a spad n else u)

/-! ### Waits, fences and semaphores (R226, R242, R243) -/

/-- The thread takes a wait. -/
def State.threadWait (s : State) (c t : Nat) (w : ThreadWait) : State := s.modCore c (fun x => x.setThread t { x.thread t with wait := w })

def execWaitc (c t m v : Nat) (s : State) : Result :=
  threadRow c t false s (fun u _ => if m < 8 then u.threadWait c t (.counter m v) else u)

def execFenceCore (c t : Nat) (s : State) : Result := threadRow c t false s (fun u _ => u.threadWait c t (.fence 0))
def execFenceCluster (c t : Nat) (s : State) : Result := threadRow c t false s (fun u _ => u.threadWait c t (.fence 1))
def execFenceDevice (c t : Nat) (s : State) : Result := threadRow c t false s (fun u _ => u.threadWait c t (.fence 2))
def execFenceFabric (c t : Nat) (s : State) : Result := threadRow c t false s (fun u _ => u.threadWait c t (.fence 3))

/-- SEMADD.REL: every earlier access of the thread is performed with respect to the scope first (R243): until then the instruction does
not issue. A semaphore outside the function's range stops the program with PERMISSION. -/
def execSemaddRel (c t n v scope : Nat) (s : State) : Result :=
  if !s.fenceDone c t (min scope 3) then onUnit (decide (c < Config.cores) && decide (t < 16)) s
  else threadRow c t false s (fun u fl =>
    if !u.ownsSem fl.fn n then u.stopProgram c 7 (semAddr n) else (u.addSem n v).refreshHeads)

def execSemwaitAcq (c t n v scope : Nat) (s : State) : Result :=
  threadRow c t false s (fun u fl =>
    if !u.ownsSem fl.fn n then u.stopProgram c 7 (semAddr n) else u.threadWait c t (.sem n v (min scope 3)))

/-! ### HALT, TRACE (R224, R560) -/

/-- HALT: the thread halts; the last one ends the program (R317). -/
def execHalt (c t : Nat) (s : State) : Result :=
  threadRow c t (decide (12 ≤ t)) s (fun u _ =>
    (((u.countCycles (A.LSU c 0x18)).modCore c (fun x => x.setThread t { x.thread t with running := false, wait := .none })).programSettle c).applyPfBuf c)

/-- TRACE: a MARK record (R560). -/
def execTrace (c t v : Nat) (s : State) : Result :=
  threadRow c t false s (fun u fl => u.traceCore c 0x40 fl.queue 0x40 (v % 65536))

/-! ### Random operations (R214) -/

/-- One lane steps: its word, and the state after (R200, R214). -/
def State.drawLane (s : State) (c lane : Nat) : Nat × State :=
  let (w, st) := rngStep (smapGet (fun _ => 0) (s.core c).lanes lane)
  let s1 := s.modCore c (fun x => { x with lanes := smapPut (fun _ => 0) x.lanes lane st })
  (w, if lane = 0 then s1.count (A.RNG c 0x18) else s1)

/-- A random operation of lane `lane`: the program holds the generators (R205); `k` writes the result. -/
def randRow (c t lane : Nat) (s : State) (k : Nat → State → State) : Result :=
  threadRow c t false s (fun u _ =>
    match (u.core c).vprog with
    | some v => if v.draws ∧ lane < 64 then (let (w, u1) := u.drawLane c lane; k w u1) else u
    | none => u)

/-- FP32 code of n × 2^-24, exact (R214). -/
def frac24 (n : Nat) : Nat := rne32 (.fin (n : Int) (-24))

def execRandU32 (c t lane reg : Nat) (s : State) : Result := randRow c t lane s (fun w u => u.writeThreadReg c t reg w)
def execRandU (c t lane reg : Nat) (s : State) : Result := randRow c t lane s (fun w u => u.writeThreadReg c t reg (frac24 (w / 256)))
def execRandUo (c t lane reg : Nat) (s : State) : Result :=
  randRow c t lane s (fun w u => u.writeThreadReg c t reg (frac24 (2 * (w / 512) + 1)))

/-- RAND.BERN: 1 when the word is below `p`. -/
def execRandBern (c t lane reg p : Nat) (s : State) : Result :=
  randRow c t lane s (fun w u => u.writeThreadReg c t reg (b2n (decide (w < p))))

/-- RAND.NBM: two normal values by Box and Muller. -/
def execRandNbm (c t lane reg0 reg1 : Nat) (s : State) : Result :=
  randRow c t lane s (fun w1 u =>
    let (w2, u2) := u.drawLane c lane
    let u1 := frac24 (2 * (w1 / 512) + 1)
    let ub := frac24 (w2 / 256)
    let z := boxMuller u1 ub
    (u2.writeThreadReg c t reg0 z.1).writeThreadReg c t reg1 z.2)

/-- RAND.NTAB: the table normal of the word. -/
def execRandNtab (c t lane reg : Nat) (s : State) : Result := randRow c t lane s (fun w u => u.writeThreadReg c t reg (tableNormal w))

/-! ### Answers from other devices (R253, R354) -/

/-- The loads of request `r` take their values from its bytes. -/
def CoreReq.takeRegs (r : CoreReq) (c : Nat) (b : List Byte) (s : State) : State :=
  r.accs.foldl (fun (t : State) (x : ThreadAcc) =>
    if x.store then t else t.writeThreadReg c x.thread x.reg (fieldAt b (x.addr - r.addr) x.size)) s

/-- Request `r` of core c has its answer: `data` of a read, or `fail`. -/
def State.coreAnswer (s : State) (c id : Nat) (data : Option (List Byte)) (fail : Option (Nat × Nat)) : State :=
  match s.coreReq? c id with
  | none => s
  | some r =>
    let s1 := match fail with
      | some (st, d) => s.stopProgram c st d
      | none => match r.kind, data with
        | .moveIn _, some b => r.takeRegs c b (s.fill c r r.addr b)
        | .demand, some b => r.takeRegs c b s
        | _, _ => s
    ((s1.modCore c (fun x => x.modReq id (fun y => { y with accs := [] }))).pieceDone c id r.addr).churn c

/-- RDDATA: it answers a read of a command or of a core (R345, R448), or nothing (R354). -/
def State.rddata (s : State) (n : Nat) (m : FabMsg) : State :=
  match s.findRequest false m.tag with
  | none => s.lateResponse n
  | some r => match r.kind with
    | .read dst len => s.readAnswer r dst len m
    | .core c id =>
      let s0 := s.dropRequest false r.tag
      let fail := (failOf m.aux r.addr false).map (fun x => (x.1, x.2.1))
      if m.aux = 0 ∧ m.sealBad then
        ((s0.count (A.SEAL 0x10)).sealMiss (s.coreFn c) 0xFFFFFFFF 0 r.addr m.data m.sealW).coreAnswer c id none (some (4, r.addr))
      else s0.coreAnswer c id (some m.data) fail
    | _ => s.lateResponse n

def execRddata (k : Nat) (s : State) : Result := s.onMsg k 0x10 (fun t n m => t.rddata n m)

/-- WRACK: it answers a write of a command or of a core, or a VOID, whose outcome changes nothing (R317, R345). -/
def State.wrack (s : State) (n : Nat) (m : FabMsg) : State :=
  match s.findRequest false m.tag with
  | none => s.lateResponse n
  | some r =>
    let s0 := s.dropRequest false r.tag
    match r.kind with
    | .write sealed_ => s0.answered r.queue r.index (failOf m.aux r.addr sealed_)
    | .void => s0.answered r.queue r.index none
    | .core c id => s0.coreAnswer c id none ((failOf m.aux r.addr false).map (fun x => (x.1, x.2.1)))
    | _ => s.lateResponse n

def execWrack (k : Nat) (s : State) : Result := s.onMsg k 0x11 (fun t n m => t.wrack n m)

/-- REMOTE_REQUEST_TIMEOUT: no answer to the request with this tag within 1,000 beats (R354). -/
def execRemoteRequestTimeout (tag : Nat) (s : State) : Result :=
  match s.findRequest false tag with
  | none => .next s
  | some r =>
    if s.ticks < r.since + 1000 then .next s
    else
      let s0 := s.dropRequest false tag
      let d := s.ticks - r.since
      .next (match r.kind with
        | .void => s0.answered r.queue r.index none
        | .core c id => s0.coreAnswer c id none (some (9, d))
        | _ => s0.answered r.queue r.index (some (9, d, false)))

end Sys2Proof.Machine
end

