-- ==== Sys2Proof/Machine/Sleep.lean ====
section
/-!
DEFINITION. Sleep states of the cores (R236 to R239, R249, R250), their bookings (R480, R483) and the cluster PLLs (R488).
-/

namespace Sys2Proof.Machine

/-- CSTATE of a core (R250). -/
def State.cstate (s : State) (c : Nat) : Nat := s.fld (A.PMCC c 8) 1 0
/-- A wake is in progress. -/
def State.waking (s : State) (c : Nat) : Bool := s.fld (A.PMCC c 8) 3 3 == 1

/-- MAXC: 0 reads as 1 (R249). -/
def State.maxC (s : State) (c : Nat) : Nat := zeroAs 1 (s.fld (A.PMCC c 0) 1 0)

/-- Every thread of the core is halted. -/
def Core.halted (x : Core) : Bool := x.threads.all (fun t => !t.2.running)

/-- The core is idle (R236). -/
def State.idle (s : State) (c : Nat) : Bool :=
  let x := s.core c
  !s.flights.any (fun f => f.core == c && !f.ended)
    && x.threads.all (fun t => !t.2.running || (match t.2.wait with | .sem _ _ _ => !s.waitDone c t.1 | _ => false))
    && x.missRegs.isEmpty && x.mvQueue.isEmpty && x.dmaReqs.isEmpty && x.bulks.isEmpty && !x.testHold

/-! ### Wake events (R238, R560) -/

/-- The Sorter has a ready command for the core. -/
def State.wakeReady (s : State) (c : Nat) : Bool :=
  s.queues.any (fun kv => kv.2.core == c && kv.2.state == 1 && kv.2.readyHead.isSome)

/-- A command to the core has a not-before beat within WAKE_LEAD. -/
def State.wakeNb (s : State) (c : Nat) : Bool :=
  let lead := s.fld (A.PMCC c 0) 15 8
  s.queues.any (fun kv => kv.2.core == c && kv.2.state == 1 && kv.2.fetched.any (fun h =>
    let nb := fieldAt h.bytes 4 4
    decide (nb ≠ 0) && (modGe 32 s.beat nb || decide (modSub 32 nb s.beat ≤ lead))))

/-- A thread waits in SEMWAIT.ACQ and its condition holds. -/
def State.wakeSem (s : State) (c : Nat) : Bool :=
  (s.core c).threads.any (fun t => t.2.running && (match t.2.wait with | .sem _ _ _ => s.waitDone c t.1 | _ => false))

/-- A test runs or waits on the slot that serves the core. -/
def State.wakeTest (s : State) (c : Nat) : Bool :=
  let here (x : FieldTest) : Bool := x.cluster == c / 16 && x.slot == s.slotOf c
  (match s.faults.test with | some x => here x | none => false) || s.faults.waiting.any here

/-- The wake event of a cause stands: 1 command, 2 not-before beat, 3 semaphore, 4 test, 5 retirement, 6 an access to the scratchpad by
another agent, which is the sender's to say (R238, R560). -/
def State.wakeEvent (s : State) (c cause : Nat) : Bool :=
  match cause with
  | 1 => s.wakeReady c
  | 2 => s.wakeNb c
  | 3 => s.wakeSem c
  | 4 => s.wakeTest c
  | 5 => s.faults.spareWaking.contains (c / 16) && s.slotOf c == 16
    && !s.jrn.batches.any (fun b => match b.after with | .spare k => k == c / 16 | _ => false)
  | 6 => true
  | _ => false

/-! ### Bookings (R480, R483, R488) -/

/-- Every core of cluster k sleeps in C2 or C3: its PLL stops. -/
def State.pllOff (s : State) (k : Nat) : Bool :=
  (List.range 16).all (fun j => decide (2 ≤ s.cstate (16 * k + j)) && !s.waking (16 * k + j) || s.unavailable (16 * k + j))

/-- A core of die k is in C0. -/
def State.dieActive (s : State) (k : Nat) : Bool := (List.range 128).any (fun j => s.cstate (128 * k + j) == 0 && !s.unavailable (128 * k + j))

/-- An owner's HELD booking on rail r becomes `ca` (0.01 A), when it differs. -/
def State.rebook (s : State) (r ca : Nat) (o : Owner) : State :=
  match s.esc.bookings.find? (fun b => decide (b.owner = o) && b.stop.isNone) with
  | some b => if b.amount = s.tickets r ca then s else (s.release o).askSys r ca none false o
  | none => s.askSys r ca none false o

/-- The cluster cache's booking follows the PLL, and the fast tier's follows its die's cores (R483, R488). -/
def State.sleepBookings (s : State) (c : Nat) : State :=
  let k := c / 16
  let d := c / 128
  let s1 := s.rebook d (if s.pllOff k then 30 else 150) (.cache k)
  if s1.dieActive d then s1.rebook (4 + d) 3000 (.fast d) else s1.release (.fast d)

/-! ### Entry (R237, R239) -/

/-- 64 idle cycles: the clock is gated. -/
def execC1Entry (c : Nat) (s : State) : Result :=
  onUnit (decide (c < Config.cores)) <|
    if s.fld (A.PMCC c 8) 3 0 = 0 ∧ s.idle c then (s.setFld (A.PMCC c 8) 1 0 1).count (A.PMCC c 0x10) else s

/-- Entry to C2 or C3 becomes final with the SLEEP marker; a wake event that stands abandons it (R239). What C2 loses goes: prefetch
buffer and stationary tile. C3 saves the generator states (R208) and flushes the trace buffer (R561). -/
def State.enterSleep (s : State) (c n : Nat) : State :=
  if s.wakeEvent c 1 || s.wakeEvent c 2 || s.wakeEvent c 3 || s.wakeEvent c 4 then s.count (A.PMCC c 0x40)
  else
    let x := s.core c
    let s1 := (s.count (A.LSU c 0x58) (x.pfBuf.filter (fun b => !b.used)).length).setCore c { x with pfBuf := [], tile := none, entering := n, wakeAfterEntry := 0 }
    let s2 := ((s1.setFld (A.PMCC c 8) 2 2 1).count (A.PMCC c (0x10 + 8 * (n - 1)))).traceCore c 0x10 0 0 n
    let s3 := if n = 3 then (s2.sealWrite (sysAddr (c / 128) (0x600000 + c % 128 * 1024)) x.laneBytes).traceFlush (c / 16) else s2
    s3.release (.base c)

def execC2Entry (c : Nat) (s : State) : Result :=
  onUnit (decide (c < Config.cores)) <|
    if s.fld (A.PMCC c 8) 3 1 = 0 ∧ 2 ≤ s.maxC c ∧ s.idle c
      ∧ (s.core c).idleSince + zeroAs 100 (s.fld (A.PMCC c 0) 31 16) ≤ s.ticks then s.enterSleep c 2 else s

/-- C3 entry waits for an absent cluster control core (R576). -/
def execC3Entry (c : Nat) (s : State) : Result :=
  onUnit (decide (c < Config.cores)) <|
    if s.isAbsent (3 + c / 16) then s
    else if s.fld (A.PMCC c 8) 3 2 = 0 ∧ s.cstate c ≤ 2 ∧ 3 ≤ s.maxC c ∧ s.idle c ∧ (s.core c).halted
      ∧ (s.core c).idleSince + 1000 * zeroAs 10 (s.fld (A.PMCC c 0) 47 32) ≤ s.ticks then s.enterSleep c 3 else s

/-! ### Wake (R237 to R239) -/

/-- The wake of a core in C1, C2 or C3 begins: from C2 and C3 it books the in-rush and the baseline, and the start of a stopped PLL. -/
def State.startWake (s : State) (c cause : Nat) : State :=
  let deep := decide (2 ≤ s.cstate c)
  let off := s.pllOff (c / 16)
  let s1 := (s.setFld (A.PMCC c 8) 3 3 1).modCore c (fun x => { x with wakeCause := cause, wakeWaitsGrant := deep })
  if !deep then s1
  else
    let s2 := if off then s1.askSys (c / 128) 100 (some 6) false (.pll (c / 16)) else s1
    ((s2.askSys (c / 128) 400 (some 2) false (.wake c)).askSys (c / 128) 35 none false (.base c)).sleepBookings c

def State.coreWake (s : State) (c cause : Nat) : State :=
  if !s.wakeEvent c cause then s
  else if (s.core c).entering ≠ 0 then
    s.modCore c (fun x => { x with wakeAfterEntry := if x.wakeAfterEntry = 0 then cause else x.wakeAfterEntry })
  else if s.cstate c = 0 ∨ s.waking c then s
  else s.startWake c cause

/-- CORE_WAKE: `cause` as R560 numbers it. -/
def execCoreWake (c cause : Nat) (s : State) : Result := onUnit (decide (c < Config.cores) && decide (1 ≤ cause) && decide (cause ≤ 6)) (s.coreWake c cause)

/-- The scratchpad of a core is zero, every block void (R237). -/
def State.zeroScratch (s : State) (c : Nat) : State :=
  let here (a : Nat) : Bool := decide (scratchAddr c 0 ≤ a) && decide (a < scratchAddr c 0x400000)
  { s with mem := smapDrop here s.mem, seals := smapDrop here s.seals }

/-- SLEEP_ENTRY_COMPLETE: the state is reached; a wake that arrived during entry starts now (R239). -/
def execSleepEntryComplete (c : Nat) (s : State) : Result :=
  onUnit (decide (c < Config.cores)) <|
    let x := s.core c
    if x.entering = 0 then s
    else
      let s1 := (((s.setFld (A.PMCC c 8) 2 2 0).setFld (A.PMCC c 8) 1 0 x.entering).setCore c { x with entering := 0, wakeAfterEntry := 0 }).sleepBookings c
      if x.wakeAfterEntry ≠ 0 then s1.startWake c x.wakeAfterEntry else s1

/-- WAKE_COMPLETE: with its grants the core reaches C0 and writes its WAKE marker; from C3 its scratchpad is zeroed, its threads and
completion counters start anew, and the generator states come back from their area (R208, R237, R239). -/
def execWakeComplete (c : Nat) (s : State) : Result :=
  onUnit (decide (c < Config.cores)) <|
    let x := s.core c
    let waits := s.esc.waiting.any (fun q => decide (q.owner = .wake c) || decide (q.owner = .pll (c / 16)))
    if !s.waking c || x.wakeWaitsGrant || waits then s
    else
      let from_ := s.cstate c
      let s1 := if from_ = 3 then
          let l := if x.wakeCause = 5 then [] else lanesOfBytes (s.bytes (sysAddr (c / 128) (0x600000 + c % 128 * 1024)) 1024)
          (s.zeroScratch c).modCore c (fun y => { y.putLanes l with threads := [], mvc := [] })
        else s
      let s2 := ((s1.setFld (A.PMCC c 8) 3 3 0).setFld (A.PMCC c 8) 1 0 0).modCore c (fun y => { y with idleSince := s.ticks, wakeCause := 0 })
      (if from_ = 1 then s2 else s2.traceCore c 0x11 0 0 (from_ * 256 + x.wakeCause)).sleepBookings c

/-- Cores whose PMC_CORE_STATUS is not that of C0. -/
def State.sleepers (s : State) : List Nat :=
  (s.regs.map Prod.fst).filterMap (fun k =>
    let o := (k - 0x400000) % 0x20000
    if 0x400000 ≤ k ∧ k < 0x800000 ∧ 0x8000 ≤ o ∧ o < 0x8800 ∧ o % 0x80 = 8 then some ((k - 0x400000) / 0x20000 * 16 + (o - 0x8000) / 0x80) else none)

/-- Cores that a command, a thread or a request may keep from being idle. -/
def State.workers (s : State) : List Nat := (s.cores.map Prod.fst ++ s.flights.map Flight.core).eraseDups

/-- The cores' part of a beat boundary (R236, R251): idle time restarts for cores that are not idle; beats in C2, in C3 and waiting for a
wake's grant are counted. -/
def State.coreBeat (s : State) : State :=
  let s1 := s.workers.foldl (fun t c => if s.idle c then t else t.modCore c (fun x => { x with idleSince := s.ticks })) s
  s.sleepers.foldl (fun t c =>
    let t1 := if t.cstate c = 2 then t.count (A.PMCC c 0x28) else if t.cstate c = 3 then t.count (A.PMCC c 0x30) else t
    if (t.core c).wakeWaitsGrant then t1.count (A.PMCC c 0x38) else t1) s1

end Sys2Proof.Machine
end

