-- ==== Sys2Proof/Machine/Time.lean ====
section
/-!
DEFINITION. Time transfer and the alignment states of the beat logic (R412 to R424). A row that needs the sub-beat phase carries it
in picoseconds as its operand `ps` (DESIGN CHOICE, log 22).
-/

namespace Sys2Proof.Machine

/-- Picoseconds of one beat. -/
def psBeat : Int := 1000000

/-- Alignment state: 0 UNALIGNED, 1 ACQUIRING, 2 ALIGNED, 3 HOLDOVER (R416). -/
def State.beatState (s : State) : Nat := s.fld (A.BEAT 0x10) 2 0
def State.beatHops (s : State) : Nat := s.fld (A.BEAT 0x10) 23 16

/-- This device is the origin (R424). -/
def State.isOrigin (s : State) : Bool := s.node == s.fabric.origin

/-- TT_PERIOD and ACQ_PERIOD: values out of range read as the defaults (R439). -/
def State.ttPeriod (s : State) : Nat :=
  let v := s.fld (A.BEAT 0x18) 47 32
  if 100 ≤ v ∧ v ≤ 10000 then v else 1000
def State.acqPeriod (s : State) : Nat :=
  let v := s.fld (A.BEAT 0x18) 31 16
  if 50 ≤ v ∧ v ≤ 1000 then v else 100

def State.modBeat (s : State) (g : BeatLogic → BeatLogic) : State := { s with beatLogic := g s.beatLogic }

/-- The state changes; READY follows it (R370). -/
def State.setBeatState (s : State) (v : Nat) : State := (s.setFld (A.BEAT 0x10) 2 0 v).fabCounts

/-- The phase is `ps` picoseconds past the latest boundary, when that is a phase not behind the present one. -/
def State.phase (s : State) (ps : Nat) : State := if s.ps ≤ ps ∧ ps < 1000000 then { s with ps := ps } else s

/-- The counter as picoseconds. -/
def State.clock (s : State) : Int := (s.beat : Int) * psBeat + s.ps

/-- A step of the counter by `d` picoseconds, counted (R421, R424). A step passes no boundary (R414). -/
def State.stepBy (s : State) (d : Int) : State :=
  let v := s.clock + d
  let m : Int := (2 ^ 64 : Nat)
  let t := { s with beat := ((v / psBeat) % m).toNat, ps := (v % psBeat).toNat }
  t.count (A.BEAT 0x58)

/-! ### Samples -/

/-- Insertion into an ascending list. -/
def insertAsc (x : Int) : List Int → List Int
  | [] => [x]
  | y :: ys => if x ≤ y then x :: y :: ys else y :: insertAsc x ys

/-- Ascending order. -/
def sortAsc (l : List Int) : List Int := l.foldl (fun acc x => insertAsc x acc) []

/-- Median; of an even number the mean of the two middle values, rounded down (DESIGN CHOICE, log 22). -/
def median (l : List Int) : Int :=
  let a := sortAsc l
  let n := a.length
  if n % 2 = 1 then a.getD (n / 2) 0 else (a.getD (n / 2 - 1) 0 + a.getD (n / 2) 0) / 2

/-- Valid samples of the last 4 × TT_PERIOD beats. -/
def State.fresh (s : State) : List TimeSample := s.beatLogic.samples.filter (fun x => decide (s.ticks ≤ x.beat + 4 * s.ttPeriod))

/-- Hop count (R420): 255 when there is no path. -/
def State.hopCount (s : State) : Nat :=
  if s.isOrigin then 0
  else match (s.fresh.map TimeSample.hops).min? with
    | some m => if m + 1 ≤ 63 then m + 1 else 255
    | none => 255

/-- The source of a device in acquisition: the link of smallest HOPS, the lowest index among equals (R420). -/
def State.sourceOf (s : State) : Option Nat :=
  let c := s.fresh.filter (fun x => decide (x.hops ≤ 62))
  match (c.map (fun x => x.hops * 64 + x.link)).min? with
  | some v => some (v % 64)
  | none => none

/-- The hop count and the source are shown; an ALIGNED device with no path holds over, and one that holds over acquires again when a
path returns (R416, R420). The origin stays ALIGNED. -/
def State.pathCheck (s : State) : State :=
  let h := s.hopCount
  let s1 := s.setFld (A.BEAT 0x10) 23 16 h
  let s2 := s1.setFld (A.BEAT 0x10) 31 24 (if s.beatState < 2 then (s.sourceOf).getD 0xFF else 0xFF)
  if s.isOrigin then s2
  else if s.beatState = 2 ∧ h = 255 then s2.setBeatState 3
  else if s.beatState = 3 ∧ h ≠ 255 then (s2.modBeat (fun b => { b with good := 0, lastValid := s.ticks })).setBeatState 1
  else s2

/-! ### TIME messages (R417, R418) -/

/-- The 48 payload bytes. -/
def timeBytes (kind state hops snum : Nat) (t1 t2 t3 : Nat × Nat) (origin : Nat) : List Byte :=
  let stamp (t : Nat × Nat) : List Byte := leBytes 8 t.1 ++ leBytes 4 t.2
  leBytes 1 kind ++ leBytes 1 state ++ leBytes 1 hops ++ [0] ++ leBytes 4 snum ++ stamp t1 ++ stamp t2 ++ stamp t3
    ++ leBytes 2 origin ++ leBytes 2 0

/-- One link's SYNC. -/
def State.syncLink (s : State) (n : Nat) : State :=
  let k := s.beatLogic.nextSnum
  let s1 := s.modBeat (fun b => { b with
    nextSnum := (k + 1) % 2 ^ 32, syncs := (n, k, s.beat, s.ps) :: b.syncs.filter (fun x => x.1 != n) })
  (s1.sendLocal n 0x31 (timeBytes 1 s.beatState s.beatHops k (s.beat, s.ps) (0, 0) (0, 0) s.fabric.origin)).count (A.BEAT 0x40)

/-- TIME_SYNC_SEND: on every usable link, once per period (R418). -/
def execTimeSyncSend (ps : Nat) (s : State) : Result :=
  let s1 := s.phase ps
  let period := if s.beatState < 2 then s.acqPeriod else s.ttPeriod
  if s.ticks < s.beatLogic.lastSync + period then .next s
  else .next (((List.range 36).filter s.usable).foldl State.syncLink (s1.modBeat (fun b => { b with lastSync := s.ticks })))

/-- A TIME message that breaks R417. -/
def timeBroken (d : List Byte) : Bool := d.length != 48 || !(byteAt d 0 == 1 || byteAt d 0 == 2)

/-- TIME_SYNC_RECEIVE: a SYNC at place `k` is answered on its link (R418). T1 of a REPLY is the SYNC's (DESIGN CHOICE, log 22). -/
def execTimeSyncReceive (k ps : Nat) (s : State) : Result :=
  match s.takeMsg k 0x31 with
  | none => .next s
  | some (n, m, s1) =>
    let d := m.data
    if timeBroken d then .next (s1.malformed n)
    else if byteAt d 0 ≠ 1 then .next s
    else
      let t := s1.phase ps
      .next (t.sendLocal n 0x31 (timeBytes 2 t.beatState t.beatHops (fieldAt d 4 4) (fieldAt d 8 8, fieldAt d 16 4) (t.beat, t.ps) (t.beat, t.ps)
        t.fabric.origin))

/-! ### The sample of a REPLY (R419 to R421, R424) -/

/-- ORIGIN conflict: counted, and one event per link per hour (R419). -/
def State.originConflict (s : State) (n other : Nat) : State :=
  let s1 := s.count (A.BEAT 0x68)
  if s.beatLogic.conflicts.any (fun c => c.1 == n && decide (s.ticks < c.2 + 3600000000)) then s1
  else (s1.modBeat (fun b => { b with conflicts := (n, s.ticks) :: b.conflicts.filter (fun c => c.1 != n) })).event 0x0E
    [(0, 1), (n, 1), (other, 2), (0, 8)]

/-- The steps that a device in acquisition takes on a valid sample (R416, R421). -/
def State.acquire (s : State) (theta : Int) : State :=
  if s.beatState = 0 then
    match s.sourceOf with
    | none => s
    | some src =>
      let mine := (s.beatLogic.samples.filter (fun x => x.link == src)).take 8
      if mine.length < 8 then s
      else
        let m := median (mine.map TimeSample.theta)
        let s1 := if s.beatLogic.wasAligned && decide (m < 0) then s else s.stepBy m
        (s1.modBeat (fun b => { b with
          samples := if s.beatLogic.wasAligned && decide (m < 0) then b.samples else [], syncs := [], good := 0, lastValid := s.ticks })).setBeatState 1
  else if s.beatState = 1 then
    let g := if decide (theta < 20000) && decide (-20000 < theta) then s.beatLogic.good + 1 else 0
    let s1 := s.modBeat (fun b => { b with good := g })
    if 16 ≤ g then (s1.modBeat (fun b => { b with wasAligned := true })).setBeatState 2 else s1
  else s

/-- The origin's forward step (R424): 8 consecutive samples more than one beat ahead that agree within 100 ns. -/
def State.originStep (s : State) (n : Nat) (theta : Int) : State :=
  let l := if theta > psBeat then (theta :: s.beatLogic.ahead).take 8 else []
  let s1 := s.modBeat (fun b => { b with ahead := l })
  let a := sortAsc l
  if l.length = 8 ∧ a.getD 7 0 - a.getD 0 0 ≤ 100000 then
    let m := median l
    ((s1.stepBy m).modBeat (fun b => { b with ahead := [], samples := [], syncs := [] })).event 0x0E
      [(1, 1), (n, 1), (s.fabric.origin, 2), (unsext 64 m, 8)]
  else s1

/-- A valid sample (R419) is kept, counted, and acted on. -/
def State.validSample (s : State) (n : Nat) (m : FabMsg) (theta : Int) : State :=
  let x : TimeSample := { link := n, node := m.src, hops := byteAt m.data 2, theta := theta, beat := s.ticks, aligned := true }
  let s1 := (s.modBeat (fun b => { b with
    samples := x :: b.samples.filter (fun y => decide (s.ticks ≤ y.beat + 4 * s.ttPeriod)), lastValid := s.ticks })).count (A.BEAT 0x48)
  (if s.isOrigin then s1.originStep n theta else s1.acquire theta).pathCheck

/-- TIME_REPLY_RECEIVE: the REPLY at place `k` of the messages received, at phase `ps` (R418, R419). -/
def execTimeReplyReceive (k ps : Nat) (s : State) : Result :=
  match s.takeMsg k 0x31 with
  | none => .next s
  | some (n, m, s0) =>
    let d := m.data
    if timeBroken d then .next (s0.malformed n)
    else if byteAt d 0 ≠ 2 then .next s
    else
      let t := s0.phase ps
      match t.beatLogic.syncs.find? (fun x => x.1 == n && x.2.1 == fieldAt d 4 4) with
      | none => .next t
      | some (_, _, b1, p1) =>
        let s1 := t.modBeat (fun b => { b with syncs := b.syncs.filter (fun x => x.1 != n) })
        let at_ (b p : Nat) : Int := (b : Int) * psBeat + p
        let fwd := at_ (fieldAt d 20 8) (fieldAt d 28 4) - at_ b1 p1
        let bwd := t.clock - at_ (fieldAt d 32 8) (fieldAt d 40 4)
        let theta := (fwd - bwd) / 2
        let delta := (fwd + bwd) / 2
        let other := fieldAt d 44 2
        if other ≠ t.fabric.origin then .next ((s1.count (A.BEAT 0x50)).originConflict n other)
        else if byteAt d 1 ≠ 2 ∨ delta < 20000 ∨ 2000000 < delta
            ∨ (t.beatState = 2 ∧ !t.isOrigin ∧ (1000000 < theta ∨ theta < -1000000)) then .next (s1.count (A.BEAT 0x50))
        else .next (s1.validSample n m theta)

/-! ### Steering (R422, R423) -/

/-- The offset of one neighbour: the median of its valid samples over all links to it. -/
def State.neighbourOffset (s : State) (node : Nat) : Int :=
  median ((s.fresh.filter (fun x => x.node == node)).map TimeSample.theta)

/-- Weight of a neighbour by its latest hop count (R422). -/
def State.neighbourWeight (s : State) (node : Nat) : Nat :=
  match s.fresh.find? (fun x => x.node == node) with
  | some x => if x.hops < s.beatHops then 2 else if x.hops = s.beatHops then 1 else 0
  | none => 0

/-- The target e in picoseconds (R422): none when nothing weighs. -/
def State.target (s : State) : Option Int :=
  if s.beatState = 1 then
    match s.sourceOf with
    | some src => some (median ((s.fresh.filter (fun x => x.link == src)).map TimeSample.theta))
    | none => none
  else
    let nodes := (s.fresh.map TimeSample.node).eraseDups
    let w := nodes.foldl (fun a n => a + s.neighbourWeight n) 0
    if w = 0 then none
    else some (nodes.foldl (fun (a : Int) n => a + (s.neighbourWeight n : Int) * s.neighbourOffset n) 0 / (w : Int))

/-- A value kept within ±lim. -/
def clampInt (lim x : Int) : Int := if x < -lim then -lim else if lim < x then lim else x

/-- TRIM_UPDATE, once per TT_PERIOD (R422): the trim moves by e / (8 × TT_PERIOD), a step of 1 ps per beat being 100,000 units of
0.01 ppb, and by the integral term, whose form the spec does not give: a free value (DESIGN CHOICE, log 22). The origin keeps trim 0; HOLDOVER keeps
the trim; UNALIGNED has trim 0. -/
def execTrimUpdate (s : State) : Result :=
  if s.ticks < s.beatLogic.lastTrim + s.ttPeriod then .next s
  else
    let s1 := (s.modBeat (fun b => { b with lastTrim := s.ticks })).pathCheck
    if s.isOrigin ∨ s1.beatState = 0 ∨ s1.beatState = 3 then .next s1
    else match s1.target with
      | none => .next s1
      | some e =>
        let (n, s2) := s1.draw
        let trim := sext 32 (s.reg (A.BEAT 0x20)) + e * 100000 / (8 * (s.ttPeriod : Int)) + (Config.freeWord n).toInt
        .next ((s2.setReg (A.BEAT 0x20) (unsext 32 (clampInt 6000000 trim))).setFld (A.BEAT 0x10) 47 32 (unsext 16 (clampInt 32767 (e / 1000))))

/-- ACQUIRE_TIMEOUT: no valid sample for 50 ms in ACQUIRING (R416). -/
def execAcquireTimeout (s : State) : Result :=
  if s.beatState = 1 ∧ s.beatLogic.lastValid + 50000 ≤ s.ticks then
    .next ((((s.modBeat (fun b => { b with samples := [], syncs := [], good := 0 })).setReg (A.BEAT 0x20) 0).setBeatState 0).pathCheck)
  else .next s

/-- BEAT_NOW_READ: the read returns BEAT and latches PS (R415). -/
def execBeatNowRead (ps : Nat) (s : State) : Result :=
  let t := s.phase ps
  .next ((t.setFld (A.BEAT 8) 19 0 t.ps).send (.hostData 0 (A.BEAT 0) (leBytes 8 t.beat) false))

/-- The beat logic at a boundary: beats in HOLDOVER are counted (R423), and a path may have been lost (R420). -/
def State.timeBeat (s : State) : State := (if s.beatState = 3 then s.count (A.BEAT 0x60) else s).pathCheck

end Sys2Proof.Machine
end

