-- ==== Sys2Proof/Machine/Power.lean ====
section
/-!
DEFINITION. Clocks, voltages, droop, thermal states, the cap and its sharing, and the last lines of defence (R487 to R508, R622).
-/

namespace Sys2Proof.Machine

/-! ### Periodic tasks and steps (R489) -/

/-- Task `key` is due: `period` boundaries have passed since it last ran. -/
def State.due (s : State) (key period : Nat) : Bool := decide (smapGet (fun _ => 0) s.power.timers key + period ≤ s.ticks)

/-- Task `key` runs now. -/
def State.ran (s : State) (key : Nat) : State :=
  { s with power := { s.power with timers := smapPut (fun _ => 0) s.power.timers key s.ticks } }

/-- A step is in progress on die k. -/
def State.stepping (s : State) (k : Nat) : Bool := s.power.steps.any (fun x => x.die == k)

/-- A step toward `mv` begins: the growth of the die's HELD bookings is asked for, and the step waits for its grant (R489). -/
def State.askStep (s : State) (k mv f : Nat) (up : Bool) : State :=
  let d := s.stepDelta k mv f
  let x : RailStep := { die := k, mv := mv, up := up, phase := if d = 0 then 1 else 0 }
  let s1 := { s with power := { s.power with steps := s.power.steps ++ [x] } }
  if d = 0 then s1.stepAdvance k
  else s1.ask { rail := k, amount := d, nominal := 0, windows := none, permanent := false, sys := true, owner := .step k, earliest := s.ticks,
                since := s.ticks }

/-- An upward frequency step of die k, to at most 1.85 GHz. -/
def State.stepUp (s : State) (k : Nat) : State :=
  if s.stepping k || s.power.noUp.contains k || decide (37 ≤ s.fstep k) then s
  else s.askStep k (max (s.volt k) (s.vTarget k (s.fstep k + 1))) (s.fstep k + 1) true

/-- A downward frequency step of die k: the frequency first, then the voltage; a step in progress is given up. -/
def State.stepDown (s : State) (k : Nat) : State :=
  let s1 := (s.stepEnd k).setFstep k (s.fstep k - 1)
  let mv := s1.vTarget k (s.fstep k - 1)
  if mv < s1.volt k then
    let x : RailStep := { die := k, mv := mv, up := false, phase := 1 }
    (({ s1 with power := { s1.power with steps := s1.power.steps ++ [x] } } : State).rescale k).stepAdvance k
  else s1.rescale k

/-- RQ_ACK: the tray acknowledges the frame of `rail`; the step it belongs to goes on. Upward steps hold while a controller is absent
(R505), and end on a die that takes none (R622). -/
def execRqAck (rail : Nat) (s : State) : Result :=
  onUnit (decide (rail < Config.rails)) <|
    if !s.power.frames.any (fun f => f.rail == rail) then s
    else
      let s1 := { s with power := { s.power with frames := s.power.frames.filter (fun f => f.rail != rail) } }
      match s1.power.steps.find? (fun x => x.die == rail) with
      | some x => if x.up && s1.power.noUp.contains rail then s1.stepEnd rail else if x.up && s1.held then s1 else s1.stepAdvance rail
      | none => s1

/-- RQ_ACK_TIMEOUT: no acknowledgement within 4 µs: the frame is repeated; after three repeats every 1 ms, and the die steps up no more
(R622). During FLOW_STOP it is not sent again (R627). -/
def execRqAckTimeout (rail : Nat) (s : State) : Result :=
  onUnit (decide (rail < Config.rails)) <|
    match s.power.frames.find? (fun f => f.rail == rail) with
    | none => s
    | some f =>
      if s.ticks < f.since + (if f.repeats < 3 then 4 else 1000) then s
      else if s.flowStop then { s with power := { s.power with frames := s.power.frames.filter (fun x => x.rail != rail) } }
      else
        let s1 := s.sendFrame rail f.mv (f.repeats + 1)
        if f.repeats = 2 ∧ rail < 4 then { s1 with power := { s1.power with noUp := rail :: s1.power.noUp } } else s1

/-! ### Droop (R491, R492) -/

def State.droop (s : State) (c : Nat) : DroopState := smapGet (fun _ => DroopState.init) s.power.droops c
def State.setDroop (s : State) (c : Nat) (d : DroopState) : State :=
  { s with power := { s.power with droops := smapPut (fun _ => DroopState.init) s.power.droops c d } }

/-- A sweep of cluster c is given up (R557). -/
def State.abandonSweep (s : State) (c : Nat) : State :=
  if s.tel.sweeps.any (fun x => x.1 == c) then
    (({ s with tel := { s.tel with sweeps := s.tel.sweeps.filter (fun x => x.1 != c) } } : State).count (A.TEL 0x60)).release (.sweep c)
  else s

/-- The clock of cluster c runs. -/
def State.clocked (s : State) (c : Nat) : Bool := !s.power.clocksOff && !s.pllOff c

/-- Detector `d` (R554 numbers it) sees a droop of `depth` mV at phase `ps`: its cluster's clock steps down by DROOP_STEPS, and the hold
starts anew; the first detection opens a log event (R491). -/
def State.droopHit (s : State) (d depth : Nat) : State :=
  let k := d / 64
  let c := d / 8
  let x := s.droop c
  let n := max x.steps (s.odNat 0x2050 2 4)
  let s0 := (s.count (A.TEL_DD d)).abandonSweep c
  if x.steps ≠ 0 then
    s0.setDroop c { x with steps := n, holding := true, depth := max x.depth depth, applied := max x.applied n, last := s.now }
  else
    let sq := s.reg (A.PMC_DROOP_SEQ k)
    let s1 := (((s0.setReg (A.PMC_DROOP_SEQ k) (sq + 1)).count (A.PMC 0)).setFld (A.PMC_DIE k) (c % 8) (c % 8) 1).setDroop c
      { steps := n, holding := true, depth := depth, applied := n, slot := sq % 64, detector := d % 64, beat := s.beat, ps := s.ps,
        start := s.now, last := s.now }
    let old := (smapGet (fun _ => ([] : List Nat)) s.power.stormBeats k).filter (fun b => decide (s.ticks < b + 1000))
    let s2 := { s1 with power := { s1.power with stormBeats := smapPut (fun _ => ([] : List Nat)) s1.power.stormBeats k (s.ticks :: old) } }
    s2.trace c 0x30 0xFF 0 0 (min 65535 depth)

def execDroop (d depth ps : Nat) (s : State) : Result :=
  onUnit (decide (d < 256)) <|
    let s1 := s.phase ps
    if s.odNat 0x2050 1 45 ≤ depth ∧ s.clocked (d / 8) then s1.droopHit d depth else s1

/-- The clock of cluster c rises by one step; at the die's frequency the event's log slot is written and a step that waited goes on
(R491, R507, R512). -/
def State.droopRise (s : State) (c : Nat) : State :=
  let x := s.droop c
  let k := c / 8
  if 1 < x.steps then s.setDroop c { x with steps := x.steps - 1, holding := false, last := s.now }
  else
    let hold := min 255 ((s.now - x.start) / 10000)
    let w1 := x.ps * 2 ^ 44 + x.depth % 256 * 2 ^ 32 + x.applied % 256 * 2 ^ 24 + hold * 2 ^ 16 + x.detector * 2 ^ 8 + c % 8
    let s1 := ((((s.setDroop c DroopState.init).setReg (A.DROOPLOG k x.slot 0) x.beat).setReg (A.DROOPLOG k x.slot 1) w1).setFld (A.PMC_DIE k) (c % 8)
      (c % 8) 0)
    if s1.power.steps.any (fun y => y.die == k && y.phase == 2) then s1.stepAdvance k else s1

/-- DROOP_HOLD_EXPIRY: DROOP_HOLD ns have passed since the last detection; the clock takes its first step up. -/
def execDroopHoldExpiry (c ps : Nat) (s : State) : Result :=
  onUnit (decide (c < Config.clusters)) <|
    let s1 := s.phase ps
    let x := s1.droop c
    if x.steps ≠ 0 ∧ x.holding ∧ x.last + 1000 * s.odNat 0x2050 3 200 ≤ s1.now then s1.droopRise c else s1

/-- DROOP_RESTORE_STEP: one step each 50 ns. -/
def execDroopRestoreStep (c ps : Nat) (s : State) : Result :=
  onUnit (decide (c < Config.clusters)) <|
    let s1 := s.phase ps
    let x := s1.droop c
    if x.steps ≠ 0 ∧ !x.holding ∧ x.last + 50000 ≤ s1.now then s1.droopRise c else s1

/-- DROOP_STORM: more than DROOP_STORM events of die k within 1 ms: its voltage rises by one step, to at most 0.80 V, with its booking,
and an event is written (R492). Paused while a controller is absent (R505). -/
def execDroopStorm (k : Nat) (s : State) : Result :=
  onUnit (decide (k < 4)) <|
    let n := ((smapGet (fun _ => ([] : List Nat)) s.power.stormBeats k).filter (fun b => decide (s.ticks < b + 1000))).length
    if n ≤ s.odNat 0x2050 4 64 ∨ s.held ∨ s.stepping k ∨ s.power.clocksOff then s
    else
      let s1 := { s with power := { s.power with
          stormBeats := smapPut (fun _ => ([] : List Nat)) s.power.stormBeats k []
          stormLast := smapPut (fun _ => 0) s.power.stormLast k s.ticks } }
      if 800 ≤ s.volt k then s1
      else
        let v := s.volt k + 25
        let s2 := { s1 with power := { s1.power with
            stormSteps := smapPut (fun _ => 0) s1.power.stormSteps k (smapGet (fun _ => 0) s1.power.stormSteps k + 1) } }
        (s2.askStep k v (s.fstep k) false).event 9 [(k, 1), (v, 2), (n, 2)]

/-- DROOP_VOLTAGE_RETURN: 100 ms without a storm: the voltage falls one step, never below V(f) (R492). -/
def execDroopVoltageReturn (k : Nat) (s : State) : Result :=
  onUnit (decide (k < 4)) <|
    let n := smapGet (fun _ => 0) s.power.stormSteps k
    if n = 0 ∨ s.ticks < smapGet (fun _ => 0) s.power.stormLast k + 100000 ∨ s.held ∨ s.stepping k then s
    else
      let s1 := { s with power := { s.power with
          stormSteps := smapPut (fun _ => 0) s.power.stormSteps k (n - 1)
          stormLast := smapPut (fun _ => 0) s.power.stormLast k s.ticks } }
      if s1.vTarget k (s.fstep k) < s.volt k then s1.askStep k (max (vOf k (s.fstep k)) (s.volt k - 25)) (s.fstep k) false else s1

/-! ### Thermal states (R498) -/

/-- The hottest of die k's 60 sensors, in 0.125 degrees (R498, R554). -/
def State.hottest (s : State) (k : Nat) : Int :=
  ((List.range 60).map (fun i => sext 16 (s.fld (A.TEL_TS (60 * k + i)) 15 0))).foldl max (-32768)

/-- TJ_HOT in 0.125 degrees. -/
def State.tjHot (s : State) : Int := 8 * (s.odNat 0x2040 1 100 : Int)

/-- The thermal state a reading leads to, with the exit thresholds of R498: 0 NORMAL, 1 HOT, 2 CRIT. -/
def nextThermal (st : Nat) (hot t : Int) : Nat :=
  if 840 ≤ t ∨ (st = 2 ∧ 816 ≤ t) then 2 else if hot ≤ t ∨ (1 ≤ st ∧ hot - 24 ≤ t) then 1 else 0

/-- One die is placed in its state; entries to HOT and CRIT are logged (R498). -/
def State.thermalDie (s : State) (k : Nat) : State :=
  let t := s.hottest k
  let st := nextThermal (s.tstate k) s.tjHot t
  let s1 := (s.setFld (A.PMC_DIE k) 63 56 (min 255 (t / 8).toNat)).setFld (A.PMC_DIE k) 9 8 st
  let s2 := if st = 0 then { s1 with power := { s1.power with hotMs := smapPut (fun _ => 0) s1.power.hotMs k 0 } } else s1
  if st ≠ s.tstate k ∧ st ≠ 0 then s2.event 8 [(k, 1), (st, 1), (unsext 16 t, 2)] else s2

/-- THERMAL_STATE_EVAL, every 10 µs. -/
def execThermalStateEval (s : State) : Result :=
  .next (if s.due 1 10 && !s.power.tripped then (List.range 4).foldl State.thermalDie (s.ran 1) else s)

/-- CRIT_STEP of die k, every 100 µs: in CRIT one step down to at most 1.00 GHz; after CRIT one step back up (R498). -/
def execCritStep (k : Nat) (s : State) : Result :=
  onUnit (decide (k < 4)) <|
    let n := smapGet (fun _ => 0) s.power.critSteps k
    let put (t : State) (m : Nat) : State := { t with power := { t.power with critSteps := smapPut (fun _ => 0) t.power.critSteps k m } }
    if !s.due (16 + k) 100 ∨ s.power.clocksOff then s
    else if s.tstate k = 2 ∧ 20 < s.fstep k then ((put s (n + 1)).stepDown k).ran (16 + k)
    else if s.tstate k ≠ 2 ∧ n ≠ 0 ∧ !s.stepping k then ((put s (n - 1)).stepUp k).ran (16 + k)
    else s

/-! ### Operating modes (R493, R494) -/

/-- Tickets booked on rail r over the last 100 windows. -/
def State.booked100 (s : State) (r : Nat) : Nat :=
  (List.range (min 100 s.ticks)).foldl (fun n j => n + s.booked r (s.ticks - 1 - j)) 0

/-- OPPORTUNISTIC_DECISION of die k, every 100 µs: up, down or hold (R494). In FIXED mode a die above 1.50 GHz steps down to it (R493).
CRIT prevails (R507), and modes pause while a controller is absent (R505). -/
def execOpportunisticDecision (k : Nat) (s : State) : Result :=
  onUnit (decide (k < 4)) <|
    if !s.due (8 + k) 100 ∨ s.held ∨ s.power.clocksOff ∨ s.stepping k ∨ s.tstate k = 2 ∨ smapGet (fun _ => 0) s.power.critSteps k ≠ 0 then s
    else
      let s1 := s.ran (8 + k)
      let f := s.fstep k
      if s.fld A.PMC_STATUS 1 0 ≠ 1 then (if 30 < f then s1.stepDown k else s1)
      else
        let i100 := s.booked100 k
        let lim := 100 * s.avgEff k
        if lim < i100 ∨ s.tstate k ≠ 0 then (if 30 < f then s1.stepDown k else s1)
        else if f < 37 ∧ i100 * (s.vTarget k (f + 1) * (f + 1)) ≤ lim * (s.vTarget k f * f) ∧ s.hottest k < s.tjHot - 40 then s1.stepUp k
        else s1

/-! ### Cap (R495 to R497) and power sharing (R502, R503) -/

def State.cap (s : State) : Nat := s.fld A.PMC_STATUS 63 52
def State.setCap (s : State) (w : Nat) : State := s.setFld A.PMC_STATUS 63 52 w
def State.capFloor (s : State) : Nat := s.odNat 0x2020 2 2400
def State.capCeil (s : State) : Nat := s.odNat 0x2020 3 2400
def State.sharing (s : State) : Bool := s.odNat 0x2020 4 1 == 1

/-- Measured power of a rail over the last millisecond, in 0.1 mW (R496). -/
def State.railPower (s : State) (r : Nat) : Nat := s.fld (A.TEL_RAIL r 0) 15 0 * s.fld (A.TEL_RAIL r 0) 63 48

/-- Power of every rail but the compute rails, in 0.1 mW. -/
def State.restPower (s : State) : Nat := (List.range 16).foldl (fun n j => n + s.railPower (4 + j)) 0

/-- `x` times 0.95, n times, rounded down at the end. -/
def cooled (x n : Nat) : Nat := x * 95 ^ n / 100 ^ n

/-- The effective average ceiling of compute rail k (R496, R498). -/
def State.newCeil (s : State) (k rest : Nat) : Nat :=
  let base := if s.volt k = 0 then s.avgCeil k else min (s.avgCeil k) ((s.cap * 10000 - rest) / (4 * s.volt k))
  let n := smapGet (fun _ => 0) s.power.hotMs k
  if n = 0 then base else min base (max (cooled base n) (s.avgCeil k * 60 / 100))

/-- CAP_UPDATE, every 1 ms: the effective average ceilings are set from the cap; a die that is HOT has spent one more millisecond so. -/
def execCapUpdate (s : State) : Result :=
  .next (if !s.due 0 1000 || s.held || s.power.tripped then s
    else
      let s1 := s.ran 0
      let s2 := { s1 with power := { s1.power with hotMs := (List.range 4).foldl (fun m k =>
          if s.tstate k = 1 then smapPut (fun _ => 0) m k (smapGet (fun _ => 0) m k + 1) else m) s1.power.hotMs } }
      let rest := s2.restPower
      { s2 with esc := { s2.esc with avgEff := (List.range 4).foldl (fun m k => smapPut s2.avgCeil m k (s2.newCeil k rest)) s2.esc.avgEff } })

/-- Directions with a usable link, each with its neighbour and its lowest-numbered usable link. -/
def State.powerTargets (s : State) : List (Nat × Nat) :=
  let all := (List.range 6).filterMap (fun d =>
    match (ascending (dirLinks d)).find? s.usable with
    | some n => if s.partnerIn d then some (s.neighbour d, n) else none
    | none => none)
  all.foldl (fun l x => match l.find? (fun y => y.1 == x.1) with
    | some y => if x.2 < y.2 then l.map (fun z => if z.1 == x.1 then x else z) else l
    | none => l ++ [x]) []

/-- The neighbour that receives a give (R503): the largest CRIT among those that may, the lower node on a tie. -/
def choosePeer (crit critMin : Nat) (ps : List PowerMsg) : Option PowerMsg :=
  (ps.filter (fun p => decide (crit + critMin ≤ p.crit) && decide (p.cap < p.ceil))).foldl (fun b p =>
    match b with
    | none => some p
    | some q => if q.crit < p.crit ∨ (p.crit = q.crit ∧ p.node < q.node) then some p else some q) none

/-- The payload of R502. -/
def powerBytes (period crit cap floor ceil power to_ give : Nat) : List Byte :=
  leBytes 4 period ++ leBytes 4 crit ++ leBytes 2 cap ++ leBytes 2 floor ++ leBytes 2 ceil ++ leBytes 2 power ++ leBytes 2 to_ ++ leBytes 2 give
    ++ leBytes 12 0

/-- One period of sharing (R502, R503): the peer chosen, what is given to it, and the POWER message to every neighbour. `crit` is the period's
critical count. -/
def State.shareRound (s : State) (crit : Nat) : State :=
  let targets := s.powerTargets
  let near := s.power.peers.filter (fun p => targets.any (fun t => t.1 == p.node))
  let pick := choosePeer crit (s.odNat 0x2020 6 10) near
  let give := match pick with
    | some p => min (s.odNat 0x2020 5 25) (min (s.cap - s.capFloor) (p.ceil - p.cap))
    | none => 0
  let to_ := match pick with | some p => if give = 0 then 0xFFFF else p.node | none => 0xFFFF
  let s2 := (s.setCap (s.cap - give)).count (A.PMC 0x30) give
  let body := powerBytes (s.beat / 10000) crit (s.cap - give) s.capFloor s.capCeil (s.fld A.PMC_STATUS 51 40) to_ give
  targets.foldl (fun t x => (t.queueOn x.2 (t.leaveClass (linkPlace x.2).1 3 0)
    { dst := x.1, src := s.node, pkey := 0xFFFF, mtype := 0x32, flags := 0, aux := 0, tag := 0, addr := 0, sealW := 0, data := body }).count
    (A.PMC 0x20)) s2

/-- POWER_SHARE_PERIOD: at a multiple of 10,000 beats the device chooses a give and tells its neighbours (R502, R503). -/
def execPowerSharePeriod (s : State) : Result :=
  .next (if s.beat % 10000 ≠ 0 ∨ smapGet (fun _ => 0) s.power.timers 2 = s.ticks + 1 ∨ s.held then s
    else
      let now := s.total (A.COL 0x60)
      let s1 := { s with power := { s.power with timers := smapPut (fun _ => 0) s.power.timers 2 (s.ticks + 1), critLast := now } }
      if s.beatState ≠ 2 ∨ !s.sharing then s1 else s1.shareRound (now - s.power.critLast))

/-- A POWER message is applied on arrival (R503, R507): kept as its sender's latest; a give to this device raises the cap, and what the
ceiling takes away, or all of it while the cap holds, is lost and counted. -/
def State.powerMessage (s : State) (m : FabMsg) : State :=
  let b := m.data
  let p : PowerMsg := {
    node := m.src, period := fieldAt b 0 4, crit := fieldAt b 4 4, cap := fieldAt b 8 2, floor := fieldAt b 10 2, ceil := fieldAt b 12 2,
    power := fieldAt b 14 2, giveTo := fieldAt b 16 2, give := fieldAt b 18 2 }
  let s1 := ({ s with power := { s.power with peers := s.power.peers.filter (fun x => x.node != m.src) ++ [p] } } : State).count (A.PMC 0x28)
  if p.giveTo ≠ s.node then s1
  else
    let take := if s.sharing ∧ s.beatState = 2 then min p.give (s.capCeil - s.cap) else 0
    ((s1.setCap (s.cap + take)).count (A.PMC 0x38) take).count (A.PMC 0x40) (p.give - take)

/-- POWER: message k of those received. Sharing pauses while a controller is absent: the message waits (R505). -/
def execPower (k : Nat) (s : State) : Result := if s.held then .next s else s.onMsg k 0x32 (fun t _ m => t.powerMessage m)

/-! ### Last lines of defence (R499, R500) -/

def State.setFlow (s : State) (v ps : Nat) : State :=
  let s1 := s.phase ps
  if s1.fld A.PMC_STATUS 33 33 = v then s1
  else
    let s2 := s1.setFld A.PMC_STATUS 33 33 v
    { s2 with power := { s2.power with flowSince := s1.now } }

/-- FLOW_OK goes low and its timer starts. -/
def execFlowOkFall (ps : Nat) (s : State) : Result := .next (s.setFlow 0 ps)
/-- FLOW_OK goes high. -/
def execFlowOkRise (ps : Nat) (s : State) : Result := .next (s.setFlow 1 ps)

/-- A modified line of a cluster cache is lost with its cache: memory keeps what it held before, which the model no longer knows (DESIGN CHOICE, log 8);
the seal stays (R499). -/
def State.dropDirty (s : State) (l : Nat) : State :=
  let bs := (List.range 128).map (fun i => Config.freeByte (s.free + i))
  ({ s with free := s.free + 128 } : State).putBytes (l * 128) bs

/-- The cluster caches and directories are empty, modified lines lost. -/
def State.loseCaches (s : State) : State :=
  let dirty := (s.coh.lines.filter (fun e => decide (e.2.st = .M) || decide (e.2.st = .IW) && e.2.dirty)).map (fun e => e.1 / 32)
  let s1 := dirty.eraseDups.foldl State.dropDirty s
  { s1 with coh := { lines := [], dir := [], net := [], rrPtr := [], timedOut := [], stamp := 0 } }

/-- The compute dies stop: commands in flight leave without records, scratchpads and generator states are lost, every core is as in C3
(R499). -/
def State.stopDies (s : State) : State :=
  let s1 := s.loseCaches
  let s2 := s1.flights.foldl (fun t f => (t.release (.cmd f.queue f.index)).release (.pre f.queue f.index)) s1
  let inScratch (a : Nat) : Bool := decide (scratchBase ≤ a) && decide (a < scratchEnd)
  let s3 := { s2 with
    flights := []
    fabric := { s2.fabric with requests := [] }
    col := { s2.col with running := [] }
    mem := smapDrop inScratch s2.mem
    seals := smapDrop inScratch s2.seals
    cores := []
    power := { s2.power with clocksOff := true, steps := [], enables := s2.power.enables.filter (fun e => !(decide (1 ≤ e.1) && decide (e.1 ≤ 4)))
                             frames := s2.power.frames.filter (fun f => decide (4 ≤ f.rail)) } }
  (List.range Config.cores).foldl (fun t c => ((t.setFld (A.PMCC c 8) 3 0 3).rngInvalidate c).release (.base c)) s3

/-- FLOW_STOP: FLOW_OK has been low for 1 µs with FLOW_EN = 1 (R499). -/
def execFlowStop (ps : Nat) (s : State) : Result :=
  .next (
    let s1 := s.phase ps
    if s1.fld A.PMC_STATUS 34 34 = 0 ∨ s1.fld A.PMC_STATUS 33 33 = 1 ∨ s1.flowStop ∨ s1.power.tripped ∨ s1.now < s1.power.flowSince + 1000000 then s1
    else
      let s2 := (s1.setFld A.PMC_STATUS 32 32 1).stopDies
      let s3 := { s2 with faults := { s2.faults with alert := true } }
      (List.range 12).foldl (fun t k => t.release (.stack k)) ((({ s3 with fw := { s3.fw with quiesce := if s3.fw.blob then s3.fw.quiesce else 0 } } : State).event 0x0A []).tally 1))

/-- THERMAL_TRIP: a trip comparator reads 115 degrees with TRIP_EN = 1: every clock but the always-on clock stops, every rail request is
withdrawn, THERMTRIP_N asserts, and memory is lost (R500): each byte listed or not holds any value until the cold reset that must
follow, and the model reads it as 0 under the void seal (DESIGN CHOICE, log 25). -/
def State.trip (s : State) : State :=
  let s1 := s.stopDies
  { s1 with
    mem := [], seals := [], queues := [], sems := [], barOpen := false
    esc := { s1.esc with bookings := [], waiting := [] }
    fabric := { s1.fabric with links := [], inbox := [], forward := [] }
    power := { s1.power with enables := [], frames := [], tripped := true }
    boot := { s1.boot with otp := min 255 (s1.boot.otp + 1) } }

def execThermalTrip (s : State) : Result :=
  .next (if s.fld A.PMC_STATUS 35 35 = 0 ∨ s.power.tripped then s
    else
      let s1 := s.trip
      (List.range Config.links).foldl (fun t n => t.setFld (A.LNK n 8) 2 0 0) s1)

/-! ### Absent controllers (R505) -/

/-- CONTROLLER_ABSENT: processor p (0 security, 1 power-management, 2 scheduler, 3 + k cluster control core k) absent for 50 ms: the cluster
clocks stop, links send IDLE only, ALERT_N asserts, and a FATAL record is written (R505, R576). -/
def execControllerAbsent (p : Nat) (s : State) : Result :=
  onUnit (decide (p < 35)) <|
    match s.absent.find? (fun x => x.1 == p) with
    | none => s
    | some x =>
      if s.ticks < x.2 + 50000 ∨ s.power.fwTimedOut.contains p then s
      else
        ({ s with
          power := { s.power with clocksOff := true, fwTimedOut := p :: s.power.fwTimedOut }
          faults := { s.faults with alert := true } } : State).record { cls := 3, cause := 0x10, unitKind := 12, unit := p }

/-! ### At a beat boundary (R514) -/

/-- PMC_HOT_BEATS, and the sweeps of clusters for which a command is ready or a test has started are given up (R557). -/
def State.powerBeat (s : State) : State :=
  let s1 := if (List.range 4).any (fun k => s.tstate k != 0) then s.count (A.PMC 0x18) else s
  s1.tel.sweeps.foldl (fun t x =>
    if t.queues.any (fun q => q.2.core / 16 == x.1 && q.2.readyHead.isSome) then t.abandonSweep x.1 else t) s1

end Sys2Proof.Machine
end

