-- ==== Sys2Proof/Machine/Telemetry.lean ====
section
/-!
DEFINITION. Telemetry, margin sweeps, the service log and the health beacon (R549 to R573).
-/

namespace Sys2Proof.Machine

/-! ### Counter clears and reads (R549, R550) -/

/-- The block and instance whose counters the CTR_CLEAR of the register with key `k` zeroes; none for a register without that bit. -/
def clearOf (k : Nat) : Option (Blk × Nat) :=
  let o := (k - 0x400000) % 0x20000
  let c := (k - 0x400000) / 0x20000 * 16
  if 0x400000 ≤ k ∧ k < 0x800000 then
    if 0x4000 ≤ o ∧ o < 0x5000 ∧ o % 0x100 = 0 then some (.cub, c + (o - 0x4000) / 0x100)
    else if 0x5000 ≤ o ∧ o < 0x6000 ∧ o % 0x100 = 0 then some (.cvt, c + (o - 0x5000) / 0x100)
    else if 0x6000 ≤ o ∧ o < 0x7000 ∧ o % 0x100 = 0 then some (.rng, c + (o - 0x6000) / 0x100)
    else if 0x7000 ≤ o ∧ o < 0x8000 ∧ o % 0x100 = 0 then some (.lsu, c + (o - 0x7000) / 0x100)
    else none
  else if 0x380000 ≤ k ∧ k < 0x390000 ∧ (k - 0x380000) % 0x80 = 8 then some (.nwt, (k - 0x380000) / 0x80)
  else if 0x800000 ≤ k ∧ k < 0x890000 ∧ (k - 0x800000) % 0x4000 = 0 then some (.lnk, (k - 0x800000) / 0x4000)
  else if k = A.DIR_CFG then some (.dir, 0)
  else if k = A.QMG_CFG then some (.qmg, 0)
  else if k = A.COL_CFG then some (.col, 0)
  else if k = A.BEAT 0x18 then some (.beat, 0)
  else if k = A.SEAL_CFG then some (.seal, 0)
  else if k = A.IFT_CFG then some (.ift, 0)
  else if k = A.ESC_CFG then some (.esc, 0)
  else if k = A.TEL_CFG then some (.tel, 0)
  else none

/-- Blocks whose counters are zeroed for one core, function or link; the others are zeroed on the whole device. -/
def perInstance (b : Blk) : Bool := decide (b = .cub ∨ b = .cvt ∨ b = .rng ∨ b = .lsu ∨ b = .nwt ∨ b = .lnk)

/-- Key `k` is a counter of block `b`, instance `i`. -/
def counterOf (k : Nat) (b : Blk) (i : Nat) : Bool :=
  match regFind regTable k with
  | some (d, x, y) =>
    decide (d.ctr = some b) && (!perInstance b ||
      (if b = .nwt ∨ b = .lnk then x == i else 16 * x + y == i))
  | none => false

/-- Counter `k` becomes 0; what it had counted stays in the always-on totals (R549, R565). -/
def State.zeroCtr (s : State) (k : Nat) : State :=
  let n := s.reg k % counterMod
  let s1 := if n = 0 then s else { s with tel := { s.tel with cleared := smapPut (fun _ => 0) s.tel.cleared k (s.total k) } }
  { s1 with regs := smapDrop (fun x => x == k) s1.regs }

/-- The counters of a block are zeroed; a clear of TEL_ also ends the peaks of R571. -/
def State.doClear (s : State) (b : Blk) (i : Nat) : State :=
  let s1 := ((s.regs.map Prod.fst).filter (fun k => counterOf k b i)).foldl State.zeroCtr s
  if b = .tel then (List.range 20).foldl (fun t r => t.setFld (A.TEL_RAIL r 0) 31 16 0) s1
  else if b = .ift then
    { s1 with faults := { s1.faults with slots := s1.faults.slots.map (fun e => (e.1, { e.2 with plsRange := 0, plsSum := 0, plsSamples := 0 })) } }
  else s1

/-- Offset `o` of function f's BAR0 lies in its own identity registers, MSI-X structures or moderation registers (R597, R599). -/
def ownOffset (f o : Nat) : Bool :=
  let inR (a n : Nat) : Bool := decide (a ≤ o) && decide (o < a + n)
  inR 0 0x18 || inR 0x10000 (16 * vectorCount f) || inR 0x18000 (vectorCount f / 8) || inR 0x1A000 (8 * vectorCount f)

/-- Function f's BAR0 decodes offset `off`: the key of the register there (R597, R599). -/
def barKey (f off : Nat) : Option Nat :=
  if ownOffset f off then some (fnPrivate f off) else if f = 0 ∨ vfOffset f off then some off else none

/-- CTR_CLEAR: function f writes 1 to bit 0 of the register at BAR0 offset `off`: the counters become 0 at the next boundary (R549). -/
def execCtrClear (f off : Nat) (s : State) : Result :=
  onUnit (decide (f < 512)) <|
    match barKey f off with
    | some k =>
      match clearOf k with
      | some (b, i) =>
        if s.reaches f then { s with ctrClears := if s.ctrClears.contains (b, i) then s.ctrClears else s.ctrClears ++ [(b, i)] } else s
      | none => s
    | none => s

/-! ### Programmable counters, snapshots, maxima, traces (R552, R553, R559, R561, R571) -/

/-- TEL_EVSEL_WRITE: the selection of counter n of cluster k waits for the next boundary (R552). -/
def execTelEvselWrite (k n val : Nat) (s : State) : Result :=
  onUnit (decide (k < Config.clusters) && decide (n < 16)) <|
    if !s.reaches 0 then s
    else
      let key := A.EVSEL k n
      let v := setBits (setBits (setBits 0 63 62 (bitsOf val 63 62)) 55 48 (bitsOf val 55 48)) 16 3 (bitsOf val 16 3)
      let s1 := s.setReg key v
      { s1 with tel := { s1.tel with evPend := if s1.tel.evPend.contains (16 * k + n) then s1.tel.evPend else s1.tel.evPend ++ [16 * k + n] } }

/-- SNAP_GO: a capture of group `g` into TEL_SNAP_BUF at the next boundary; ignored while one is pending (R553, R571). -/
def execSnapGo (g : Nat) (s : State) : Result :=
  onUnit (decide (g < 16)) <|
    if !s.reaches 0 ∨ s.fld A.SNAP_CTL 63 63 = 1 then s else (s.setFld A.SNAP_CTL 11 8 g).setFld A.SNAP_CTL 63 63 1

/-- MAXCLR: the highest temperatures and lowest slacks start anew at the next boundary (R571). -/
def execMaxclr (s : State) : Result := .next (if s.reaches 0 then { s with tel := { s.tel with maxClr := true } } else s)

/-- TRACE_FLUSH of cluster k (R561); it waits for an absent cluster control core (R576). -/
def execTraceFlush (k : Nat) (s : State) : Result :=
  onUnit (decide (k < Config.clusters)) <|
    if !s.reaches 0 then s
    else if s.isAbsent (3 + k) then
      { s with tel := { s.tel with flushWait := if s.tel.flushWait.contains k then s.tel.flushWait else k :: s.tel.flushWait } }
    else s.traceFlush k

/-- TRACE_START: the STOP count of cluster k starts anew (R559). -/
def execTraceStart (k : Nat) (s : State) : Result :=
  onUnit (decide (k < Config.clusters)) (if s.reaches 0 then s.setTraceBuf k { s.traceBuf k with sinceStart := 0 } else s)

/-! ### Margin sweeps (R557) -/

/-- Cluster k qualifies for a sweep. -/
def State.sweepOk (s : State) (k : Nat) : Bool :=
  let d := k / 8
  let near (b : List Byte) : Bool := fieldAt b 4 4 != 0 && decide (modSub 32 (fieldAt b 4 4) s.beat ≤ 250)
  s.odNat 0x7020 2 1 == 1 && !s.isAbsent 2 && !s.held && s.fstep d == 30 && s.tstate d == 0
    && !s.tel.sweeps.any (fun x => x.1 == k)
    && decide (smapGet (fun _ => 0) s.tel.lastSweep k = 0 ∨ smapGet (fun _ => 0) s.tel.lastSweep k + 60000000 * s.odNat 0x7020 1 60 ≤ s.ticks + 1)
    && (List.range 16).all (fun j => s.idle (16 * k + j))
    && !s.queues.any (fun q => q.2.core / 16 == k && (q.2.readyHead.isSome || q.2.fetched.any (fun h => near h.bytes)))
    && (match s.faults.test with | some t => t.cluster != k | none => true)

/-- MARGIN_SWEEP: a sweep of cluster k starts with its booking. -/
def execMarginSweep (k : Nat) (s : State) : Result :=
  onUnit (decide (k < Config.clusters)) <|
    if s.sweepOk k then
      ({ s with tel := { s.tel with sweeps := s.tel.sweeps ++ [(k, s.ticks)] } } : State).askSys (k / 8) 100 (some 41) false (.sweep k)
    else s

/-- Picoseconds per mV of die k at 1.50 GHz in hundredths: a fused free value, not 0 (R557). -/
def slackPerMv (k : Nat) : Nat := Config.fused 1 k % 1000 + 1

/-- MARGIN_SWEEP_COMPLETE: after 40 µs the slacks measured by cluster k's 30 monitors give VMARGIN (R557). -/
def execMarginSweepComplete (k : Nat) (slacks : List Int) (s : State) : Result :=
  onUnit (decide (k < Config.clusters)) <|
    match s.tel.sweeps.find? (fun x => x.1 == k) with
    | none => s
    | some x =>
      if s.ticks < x.2 + 40 ∨ s.esc.waiting.any (fun q => decide (q.owner = .sweep k)) ∨ slacks.length ≠ 30 then s
      else
        let m := slacks.foldl min 32767
        let v := min 0xFFFE (m * 100 / (slackPerMv (k / 8) : Int)).toNat
        let s1 := ({ s with tel := { s.tel with
            sweeps := s.tel.sweeps.filter (fun y => y.1 != k)
            lastSweep := smapPut (fun _ => 0) s.tel.lastSweep k (s.ticks + 1)
            vMin := smapPut (fun _ => 0xFFFF) s.tel.vMin (k / 8) (min v (smapGet (fun _ => 0xFFFF) s.tel.vMin (k / 8))) } } : State).release (.sweep k)
        let s2 := ((s1.setReg (A.TEL_MARGIN k 0) (unsext 16 m * 2 ^ 32 + s.volt (k / 8) * 2 ^ 16 + v)).setReg (A.TEL_MARGIN k 1) s.beat).count (A.TEL 0x58)
        if v < s.odNat 0x7020 3 30 then s2.event 0x11 [(k, 1), (0, 1), (v, 2), (unsext 16 m, 2)] else s2

/-! ### The service log (R562 to R567) -/

/-- Bytes written into the persistent store from offset `o`. -/
def State.storeWrite (s : State) (o : Nat) (bs : List Byte) : State :=
  { s with tel := { s.tel with store := putBytesMem s.tel.store o bs } }

/-- Bytes of the persistent store. -/
def State.storeRead (s : State) (o n : Nat) : List Byte := (List.range n).map (fun i => smapGet (fun _ => (0 : Byte)) s.tel.store (o + i))

/-- A record with its CRC at the end (R562). -/
def withCrc (b : List Byte) : List Byte := b ++ leBytes 4 (crc32c b).toNat

/-- Windows of the booking of a store write of n 64-byte units (R539, R562). -/
def storeWindows (n : Nat) : Nat := max 8 (7 + (n + 1) / 2)

/-- An event record (R563). -/
def eventRecord (eseq boots : Nat) (limit : Bool) (e : SlogEvent) : List Byte :=
  let d := e.data.flatMap (fun x => leBytes x.2 x.1)
  withCrc (leBytes 8 eseq ++ leBytes 8 e.beat ++ leBytes 1 e.kind ++ leBytes 1 (b2n limit) ++ leBytes 2 boots ++ (d ++ List.replicate 40 0).take 40)

/-- The first field of an event's DATA. -/
def SlogEvent.first (e : SlogEvent) : Nat := match e.data with | (v, _) :: _ => v | [] => 0

/-- The FATAL record and the BOOT record are never suppressed (R564). -/
def SlogEvent.kept (e : SlogEvent) : Bool := e.kind == 1 || (e.kind == 2 && (match e.data with | _ :: (c, _) :: _ => c == 3 | _ => false))

/-- This device's CAN FD address: NODE_ID as sampled (R524, R531, R624). -/
def State.canNode (s : State) : Nat := s.boot.nodeId

/-- Identifier of a CAN FD frame (R531). -/
def canId (pri kind dst src tid : Nat) : Nat := pri * 2 ^ 26 + kind * 2 ^ 24 + dst * 2 ^ 17 + src * 2 ^ 10 + tid * 2 ^ 6

/-- The current of a service-log write of n units: asked for once; `k` writes when it is granted. -/
def State.logWrite (s : State) (n : Nat) (k : State → State) : State :=
  let s1 := if s.tel.logAsked then s
    else ({ s with tel := { s.tel with logAsked := true } } : State).askSys 17 200 (some (storeWindows n)) false .log
  if s1.esc.waiting.any (fun q => decide (q.owner = .log)) then s1
  else k { s1 with tel := { s1.tel with logAsked := false } }

/-- The oldest event leaves the queue. -/
def State.dropEvent (s : State) : State :=
  { s with slogQ := s.slogQ.drop 1 }.setFld A.TEL_SLOG 31 23 (s.slogQ.length - 1)

/-- Records of an event's key written in this hour. -/
def State.keyCount (s : State) (e : SlogEvent) : Nat :=
  match s.tel.supp.find? (fun x => x.1 == e.kind && x.2.1 == e.first) with | some x => x.2.2 | none => 0

/-- An event's record is written to its slot, and sent on CAN FD (R563, R564). -/
def State.writeEvent (s : State) (e : SlogEvent) : State :=
  let n := s.keyCount e
  let r := eventRecord s.tel.eseq s.tel.boots (n + 1 == s.odNat 0x7040 1 16) e
  let s1 := s.storeWrite (0x2B00000 + s.tel.eseq % 212992 * 64) r
  let s2 := ({ s1 with tel := { s1.tel with
      eseq := s.tel.eseq + 1
      supp := (e.kind, e.first, n + 1) :: s.tel.supp.filter (fun x => !(x.1 == e.kind && x.2.1 == e.first)) } } : State).setFld A.TEL_SLOG 63 32
    ((s.tel.eseq + 1) % 2 ^ 32)
  let s3 := s2.tally 3
  if s.odNat 0x1010 4 1 = 1 then s3.send (.can (canId 0 3 (s.odNat 0x1010 3 0x40) s.canNode 0) r) else s3

/-- SERVICE_LOG_EVENT_WRITE: the oldest event is written, or suppressed beyond SUPPRESS_N of its key in the hour (R564). -/
def execServiceLogEventWrite (s : State) : Result :=
  .next (match s.slogQ with
    | [] => s
    | e :: _ =>
      if s.isAbsent 2 || s.power.tripped then s
      else if s.odNat 0x7040 1 16 ≤ s.keyCount e ∧ !e.kept then (s.dropEvent.count (A.TEL 0x48)).tally 4
      else s.logWrite 1 (fun t => t.dropEvent.writeEvent e))

/-! ### Digest and totals (R565, R566) -/

/-- Events of the hour of every counter that satisfies `p`. -/
def State.hourSum (s : State) (p : Nat → Bool) : Nat :=
  (((s.regs.map Prod.fst ++ s.tel.cleared.map Prod.fst).filter p).eraseDups).foldl
    (fun n k => n + (s.total k - smapGet (fun _ => 0) s.tel.hourCtr k)) 0

/-- Lifetime count of every counter that satisfies `p`. -/
def State.lifeSum (s : State) (p : Nat → Bool) : Nat :=
  (((s.regs.map Prod.fst ++ s.tel.cleared.map Prod.fst).filter p).eraseDups).foldl (fun n k => n + s.total k) 0

/-- Key `k` is offset `off` of a block of `n` at `base` with stride `st`. -/
def inBlocks (base n st off k : Nat) : Bool := decide (base ≤ k) && decide ((k - base) / st < n) && (k - base) % st == off

/-- Key `k` is offset `o + i * stride` (i below 16) of a cluster window. -/
def inCores (o stride k : Nat) : Bool :=
  decide (0x400000 ≤ k) && decide (k < 0x800000) && decide (o ≤ (k - 0x400000) % 0x20000)
    && decide (((k - 0x400000) % 0x20000 - o) / stride < 16) && ((k - 0x400000) % 0x20000 - o) % stride == 0

/-- Always-on tally of the hour. -/
def State.hourTally (s : State) (k : Nat) : Nat := smapGet (fun _ => 0) s.tel.acc k - smapGet (fun _ => 0) s.tel.accHour k

/-- Lifetime tally. -/
def State.lifeTally (s : State) (k : Nat) : Nat := smapGet (fun _ => 0) s.tel.acc k

/-- Plausibility failures of the slots, by the cube counts. -/
def State.plsTotal (s : State) : Nat := s.lifeTally 0x104 + s.lifeTally 0x105

/-- Share of the hour's windows of rail r in bin b, in 1/65,535 (R565). -/
def State.binShare (s : State) (r b : Nat) : Nat :=
  let h (k : Nat) : Nat := s.total k - smapGet (fun _ => 0) s.tel.hourCtr k
  let all := (List.range 8).foldl (fun n j => n + h (A.TEL_RAIL r (0x10 + 8 * j))) 0 + h (A.TEL_RAIL r 0x50)
  if all = 0 then 0 else h (A.TEL_RAIL r (0x10 + 8 * b)) * 65535 / all

/-- Lowest eye height of the active lanes, and lanes excluded. -/
def State.eyeMin (s : State) : Nat :=
  ((List.range 288).filter (fun j => s.fld (A.LANE (j / 8) (j % 8) 0) 1 1 == 1)).foldl (fun m j => min m (s.fld (A.LANE (j / 8) (j % 8) 0) 63 48)) 0xFFFF
def State.lanesFailed (s : State) : Nat := ((List.range 288).filter (fun j => s.fld (A.LANE (j / 8) (j % 8) 0) 2 2 == 1)).length

/-- A degree value of a byte field, 0 below zero. -/
def degByte (n : Nat) : Nat := min 255 n

/-- Microseconds of a power-on hour: 90,000,000,000 cycles of the 25 MHz reference (R558). -/
def hourLength : Nat := 3600000000

/-- The digest record (R565). -/
def State.digest (s : State) : List Byte :=
  let h := s.hourSum
  let u4 (n : Nat) : List Byte := leBytes 4 (min n 0xFFFFFFFF)
  let u2 (n : Nat) : List Byte := leBytes 2 (min n 0xFFFF)
  let wh := s.hourTally 7 / 3600000
  withCrc (leBytes 8 s.tel.dseq ++ leBytes 4 s.tel.boots ++ leBytes 4 (s.fld A.TEL_LIFE 63 32) ++ leBytes 8 s.beat ++ leBytes 4 (s.fld A.TEL_LIFE 31 0)
    ++ u4 wh ++ u2 wh ++ u2 s.tel.pPeak
    ++ (List.range 5).flatMap (fun j => leBytes 1 (degByte (smapGet (fun _ => 0) s.tel.tjPeak j))) ++ leBytes 1 (degByte s.tel.hbmPeak)
    ++ leBytes 2 s.tel.flags
    ++ (List.range 4).flatMap (fun d => leBytes 2 (smapGet (fun _ => 0xFFFF) s.tel.vMin d))
    ++ (List.range 4).flatMap (fun d => leBytes 2 (unsext 16 (smapGet (fun _ => 32767) s.tel.sMin d)))
    ++ (List.range 4).flatMap (fun c => u4 (s.hourTally (0x200 + c)))
    ++ u4 (h (· == A.SEAL 0x18)) ++ u4 (s.hourTally 0x104 + s.hourTally 0x105)
    ++ u2 (h (· == A.IFT 0x10)) ++ u2 (h (· == A.IFT 0x18))
    ++ u4 (h (inBlocks 0xA40000 768 0x100 0xD0)) ++ u4 (h (inBlocks 0xA40000 768 0x100 0xD8))
    ++ u4 (h (inBlocks 0xA20000 4 0x100 0) + h (inBlocks 0x409028 32 0x20000 0))
    ++ u4 (h (inBlocks 0xA40000 768 0x100 0xF0)) ++ u4 (h (inBlocks 0xA40000 768 0x100 0xF8))
    ++ u4 (h (inBlocks 0x800000 36 0x4000 0x70)) ++ u4 (h (inBlocks 0x800000 36 0x4000 0x58))
    ++ u2 (h (inBlocks 0x800000 36 0x4000 0x98)) ++ u2 (s.hourTally 8)
    ++ u2 s.eyeMin ++ u2 s.lanesFailed ++ u4 (h (· == A.PMC 0))
    ++ u4 (h (inBlocks 0x380000 512 0x80 0x38)) ++ u4 (h (inBlocks 0x380000 512 0x80 0x40)) ++ u4 (h (inBlocks 0x380000 512 0x80 0x30))
    ++ u4 (h (inBlocks 0x310000 512 0x100 0xB0))
    ++ leBytes 8 (h (inCores 0x4010 0x100)) ++ u2 (s.hourTally 3) ++ u2 (s.hourTally 4 + s.hourTally 5) ++ leBytes 4 0
    ++ (List.range 19).flatMap (fun r => (List.range 8).flatMap (fun b => u2 (s.binShare r b))) ++ leBytes 44 0)

/-- The slot data of a physical slot (R472). -/
def State.slotData (s : State) (k : Nat) : SlotData := smapGet (fun _ => SlotData.init) s.faults.slots k

/-- The lifetime totals record (R566). The layout within its ranges is the order in which R566 names the values (DESIGN CHOICE, log 26). -/
def State.totals (s : State) : List Byte :=
  let l := s.lifeSum
  let pad (n : Nat) (b : List Byte) : List Byte := (b ++ List.replicate n 0).take n
  withCrc (
    pad 64 (leBytes 8 s.tel.tseq ++ leBytes 8 s.tel.dseq ++ leBytes 4 s.tel.boots ++ leBytes 4 (s.fld A.TEL_LIFE 63 32) ++ leBytes 4 (s.fld A.TEL_LIFE 31 0)
      ++ leBytes 8 (s.lifeTally 7 / 3600000) ++ leBytes 4 (s.lifeTally 0) ++ leBytes 4 (s.lifeTally 1) ++ leBytes 4 (s.lifeTally 2))
    ++ pad 960 ((List.range 17).flatMap (fun c => leBytes 8 (s.lifeTally (0x101 + c))) ++ (List.range 4).flatMap (fun c => leBytes 8 (s.lifeTally (0x200 + c)))
      ++ leBytes 8 (s.lifeTally 3) ++ leBytes 8 (s.lifeTally 4) ++ leBytes 8 (s.lifeTally 5))
    ++ (List.range 19).flatMap (fun r => (List.range 8).flatMap (fun b => leBytes 8 (s.total (A.TEL_RAIL r (0x10 + 8 * b)))))
    ++ (List.range 36).flatMap (fun n => leBytes 8 (s.total (A.LNK n 0x70)) ++ leBytes 8 (s.total (A.LNK n 0x58)) ++ leBytes 4 (s.total (A.LNK n 0x98))
      ++ leBytes 4 (s.lifeTally (0x400 + n)))
    ++ (List.range 12).flatMap (fun k =>
      leBytes 8 (l (fun x => inBlocks 0xA40000 768 0x100 0xD0 x && (x - 0xA40000) / 0x100 / 64 == k))
        ++ leBytes 8 (l (fun x => inBlocks 0xA40000 768 0x100 0xD8 x && (x - 0xA40000) / 0x100 / 64 == k)))
    ++ pad 8704 ((List.range 544).flatMap (fun k =>
      let d := s.slotData k
      (List.range 8).flatMap (fun q => leBytes 1 (min 255 (smapGet (fun _ => 0) d.plsCube q))) ++ leBytes 4 d.testsRun ++ leBytes 2 d.testsFailed
        ++ leBytes 2 d.hangs))
    ++ List.replicate 4380 0)

/-- The hour's accumulations start anew. -/
def State.newHour (s : State) : State :=
  let keys := (s.regs.map Prod.fst ++ s.tel.cleared.map Prod.fst).eraseDups
  { s with tel := { s.tel with
      hourBeats := s.tel.hourBeats - hourLength, accHour := s.tel.acc, pPeak := 0, tjPeak := [], hbmPeak := 0, flags := 0, vMin := [], sMin := []
      hourCtr := keys.foldl (fun m k => smapPut (fun _ => 0) m k (s.total k)) [] } }

/-- HOURLY_DIGEST: at the end of a power-on hour the digest and the lifetime totals are written (R565, R566). -/
def execHourlyDigest (s : State) : Result :=
  .next (if s.tel.hourBeats < hourLength || s.isAbsent 2 || s.power.tripped then s
    else s.logWrite 264 (fun t =>
      let t1 := t.storeWrite (0x2100000 + t.tel.dseq % 20480 * 512) t.digest
      let t2 := t1.storeWrite (0x2000000 + t.tel.tseq % 64 * 16384) t.totals
      ({ t2 with tel := { t2.tel with dseq := t.tel.dseq + 1, tseq := t.tel.tseq + 1 } } : State).newHour))

/-! ### Health beacon (R569) -/

/-- The hottest of the hub's 16 sensors, in 0.125 degrees. -/
def State.hubHot (s : State) : Int := ((List.range 16).map (fun i => sext 16 (s.fld (A.TEL_TS (240 + i)) 15 0))).foldl max (-32768)

/-- Slots retired after shipment: the RETIRED bits that the factory map lacks (R22). -/
def State.retirements (s : State) : Nat :=
  s.faults.unitMap.foldl (fun n e => n + ((List.range 17).filter (fun b => bitOf e.2 b && !bitOf (Config.factoryMap e.1) b)).length) 0

/-- Write budget left (R542): journal records not yet written. -/
def State.budgetLeft (s : State) : Nat := 4000000000 - s.jrn.used

/-- The values the hub gives the next beacons: bytes 2 to 63 of R569, BEAT left 0. -/
def State.beaconValues (s : State) : List Byte :=
  let deg (t : Int) : Nat := min 255 (t / 8).toNat
  let st := s.fld A.FAB_STATUS 0 0 + 2 * b2n s.fatal + 4 * b2n s.flowStop + 8 * b2n s.held + 32 * b2n ((List.range 4).any (fun k => s.tstate k != 0))
    + 64 * b2n (s.beatState == 2)
  let vm := (List.range 32).foldl (fun m k => min m (s.fld (A.TEL_MARGIN k 0) 15 0)) 0xFFFF
  leBytes 1 st ++ leBytes 1 (s.fld A.PMC_STATUS 1 0) ++ leBytes 4 (s.fld A.TEL_LIFE 63 32) ++ leBytes 8 0
    ++ (List.range 4).flatMap (fun k => leBytes 1 (deg (s.hottest k))) ++ leBytes 1 (deg s.hubHot)
    ++ leBytes 1 ((List.range 12).foldl (fun m k => max m (s.fld (A.STK k) 15 8)) 0)
    ++ leBytes 2 (s.fld A.PMC_STATUS 51 40) ++ leBytes 2 s.cap ++ leBytes 1 (s.fld A.FAB_STATUS 35 30) ++ leBytes 1 (s.fld A.FAB_STATUS 29 24)
    ++ leBytes 2 s.node ++ leBytes 2 (s.fld A.ERR_STATUS 40 32) ++ leBytes 4 (s.lifeTally 0x301) ++ leBytes 2 (s.lifeTally 0x302) ++ leBytes 2 (s.lifeTally 0x303)
    ++ leBytes 2 vm ++ leBytes 2 s.retirements ++ leBytes 8 (s.tel.eseq - 1) ++ leBytes 4 (s.budgetLeft / 1000000) ++ leBytes 8 0

/-- The beacon's payload (R569): zero until the hub has refreshed its values; BSEQ, BEAT, TRIPPED and the age of the values are the
always-on domain's. -/
def State.beaconBytes (s : State) : List Byte :=
  if s.tel.beaconAt = 0 then List.replicate 64 0
  else
    let v := s.tel.beacon
    let st := byteAt v 0 % 16 + 16 * b2n s.power.tripped + byteAt v 0 / 32 % 4 * 32 + 128 * b2n (s.tel.beaconAt + 1000000 ≤ s.ticks)
    leBytes 2 s.tel.bseq ++ leBytes 1 st ++ (v.drop 1).take 5 ++ leBytes 8 s.beat ++ v.drop 14

/-- HEALTH_BEACON: at the boundary where BEAT mod 1,000,000 = NODE_ID × 15,625, once (R569). -/
def execHealthBeacon (s : State) : Result :=
  .next (if s.odNat 0x1010 4 1 ≠ 1 ∨ s.beat % 1000000 ≠ s.canNode * 15625 ∨ smapGet (fun _ => 0) s.power.timers 3 = s.ticks + 1 then s
    else
      let s1 := { s with
        power := { s.power with timers := smapPut (fun _ => 0) s.power.timers 3 (s.ticks + 1) }
        tel := { s.tel with bseq := (s.tel.bseq + 1) % 65536 } }
      (s1.send (.can (canId 2 2 0x7F s.canNode 0) s.beaconBytes)).count (A.TEL 0x50))

end Sys2Proof.Machine
end

