-- ==== Sys2Proof/Machine/OdTable.lean ====
section
/-!
DEFINITION. The object dictionary's catalogue (R523 to R527, R274, R373, R408, R508, R547, R568, R591): types, access codes, defaults, stated
ranges and commit groups; the lengths and values a write may carry (R515, R518) and the rules of the commit groups.
-/

namespace Sys2Proof.Machine

/-! ### Catalogue -/

/-- Types of R515: an unsigned integer of a number of bytes (BOOL is one byte of 0 or 1), BLOB, STR. -/
inductive OdTy where
  | uint (bytes : Nat)
  | blob
  | str
  deriving DecidableEq, Repr

/-- Access codes of R519. -/
inductive OdAcc where
  | ro | rw | wo | rwp
  deriving DecidableEq, Repr

/-- Entries index to index + n - 1, subindices sub to sub + m - 1, with their range, default and the commit entry of their group (0
none). -/
structure OdEntry where
  index : Nat
  n : Nat
  sub : Nat
  m : Nat
  ty : OdTy
  acc : OdAcc
  dflt : Nat
  lo : Nat
  hi : Nat
  commit : Nat
  deriving DecidableEq, Repr

/-- A RWP integer entry with its default and range. -/
def odP (index sub bytes dflt lo hi : Nat) (commit : Nat := 0) : OdEntry := ⟨index, 1, sub, 1, .uint bytes, .rwp, dflt, lo, hi, commit⟩
/-- A RWP BOOL entry. -/
def odB (index sub dflt : Nat) (commit : Nat := 0) : OdEntry := odP index sub 1 dflt 0 1 commit
/-- Read-only entries. -/
def odR (index sub m : Nat) (ty : OdTy) : OdEntry := ⟨index, 1, sub, m, ty, .ro, 0, 0, 0, 0⟩
/-- A write-only entry. -/
def odW (index sub bytes hi : Nat) : OdEntry := ⟨index, 1, sub, 1, .uint bytes, .wo, 0, 0, hi, 0⟩
/-- A member of the tenant layout's groups, 0x5200 + f (R525). -/
def odT (sub : Nat) (ty : OdTy) (dflt hi : Nat) : OdEntry := ⟨0x5200, 512, sub, 1, ty, .rwp, dflt, 0, hi, 0xB⟩

/-- Largest values of U16, U32 and U64. -/
def u16 : Nat := 0xFFFF
def u32 : Nat := 0xFFFFFFFF
def u64 : Nat := 0xFFFFFFFFFFFFFFFF

/-- 0x1000 (R524) and 0x2000 (R508). -/
def odTable1 : List OdEntry :=
  [ odR 0x1000 1 3 .str, odR 0x1000 4 1 (.uint 2), odR 0x1000 5 2 .str, odR 0x1000 7 1 (.uint 4), odR 0x1000 8 1 (.uint 2),
    odR 0x1010 1 1 (.uint 1), odP 0x1010 2 1 0 0 1, odP 0x1010 3 1 0x40 0x40 0x7E, odB 0x1010 4 1, odR 0x1010 5 2 (.uint 1),
    odB 0x1020 1 1, odB 0x1020 2 1, odB 0x1020 3 1, odB 0x1020 4 1,
    odP 0x2010 1 1 0 0 1, ⟨0x2011, 1, 0, 1, .blob, .rwp, 0, 0, 0, 0⟩,
    odP 0x2020 1 2 2400 0 u16 7, odP 0x2020 2 2 2400 0 u16 7, odP 0x2020 3 2 2400 0 u16 7, odB 0x2020 4 1 7, odP 0x2020 5 2 25 1 200 7,
    odP 0x2020 6 2 10 0 u16 7, odW 0x2020 7 1 1,
    odB 0x2030 1 1 3, odB 0x2030 2 1 3, odW 0x2030 3 1 1,
    odP 0x2040 1 1 100 85 104, odR 0x2041 0 1 (.uint 2),
    odP 0x2050 1 1 45 25 100, odP 0x2050 2 1 4 1 8, odP 0x2050 3 2 200 50 2000, odP 0x2050 4 2 64 0 u16 ]

/-- 0x3000 (R373, R408), 0x4000 (R274), 0x5000 (R525), 0x6000 (R527). -/
def odTable2 : List OdEntry :=
  [ odP 0x3010 1 1 0 0 255 9, odP 0x3010 2 1 0 0 255 9, odP 0x3010 3 1 0 0 255 9, odP 0x3010 4 1 1 1 16 9, odP 0x3010 5 1 1 1 16 9,
    odP 0x3010 6 1 1 1 16 9, odP 0x3010 7 1 7 0 255 9, odP 0x3010 8 2 0 0 u16 9, odW 0x3010 9 1 1, odR 0x3011 0 1 (.uint 2),
    odP 0x3020 0 1 1 1 64 0x41, ⟨0x3020, 1, 1, 64, .uint 2, .rwp, 0, 0, 0xFFFE, 0x41⟩, odW 0x3020 0x41 1 1,
    odP 0x3040 1 8 0xFFFFFFFFF 0 u64, odP 0x3050 1 4 262144 0 u32, odP 0x3050 2 4 100000 1 u32,
    odB 0x4010 1 0 3, odP 0x4010 2 8 0 0 u64 3, odW 0x4010 3 1 1, odP 0x4020 1 1 4 1 24, odP 0x4020 2 2 256 0 u16, odR 0x4021 0 1 .blob,
    odB 0x5010 0 0, odW 0x5011 0 1 1, odR 0x5012 0 1 .blob,
    odT 1 (.uint 1) 0 1, odT 2 .blob 0 0, odT 3 (.uint 4) 0 u32, odT 4 (.uint 4) 512 u32, odT 5 (.uint 4) 0 u32, odT 6 (.uint 4) 2048 u32,
    odT 7 (.uint 2) 0 0xFFFE, odT 8 (.uint 2) 1 u16, odT 9 .blob 0 0, odT 0xA .blob 0 0, ⟨0x5200, 512, 0xB, 1, .uint 1, .wo, 0, 0, 1, 0⟩,
    odR 0x6010 0 1 .blob, odR 0x6011 0 1 (.uint 2), odR 0x6012 0 1 (.uint 8) ]

/-- 0x7000 (R568), 0x8000 (R591), 0x9000 (R547). -/
def odTable3 : List OdEntry :=
  [ ⟨0x7010, 16, 0, 1, .blob, .rw, 0, 0, 0, 0⟩, odP 0x7020 1 2 60 10 1440, odB 0x7020 2 1, odP 0x7020 3 2 30 0 200,
    ⟨0x7030, 1, 1, 1, .uint 8, .rw, 0, 0, u64, 0⟩, odR 0x7030 2 1 .blob, ⟨0x7030, 1, 3, 1, .uint 8, .rw, 0, 0, u64, 0⟩, odR 0x7030 4 2 .blob,
    odR 0x7030 6 2 (.uint 8), odP 0x7040 1 1 16 1 255,
    odR 0x8010 1 3 (.uint 1), odR 0x8010 4 2 (.uint 4), odR 0x8010 6 2 (.uint 1), odR 0x8010 8 1 (.uint 2), odR 0x8010 9 1 (.uint 1),
    odW 0x8020 1 4 u32, ⟨0x8020, 1, 2, 1, .uint 4, .rw, 0, 0, u32, 0⟩, ⟨0x8020, 1, 3, 1, .blob, .wo, 0, 0, 0, 0⟩, odW 0x8020 4 8 u64, odW 0x8020 5 1 1,
    odW 0x8021 0 1 1, ⟨0x8022, 1, 1, 1, .uint 1, .wo, 0, 1, 2, 0⟩, odW 0x8022 2 1 1, odW 0x8022 3 1 1,
    odP 0x8023 1 2 60 0 u16, odP 0x8023 2 2 200 10 1000, ⟨0x8040, 1, 0, 1, .blob, .rwp, 0, 0, 0, 0⟩, odR 0x8050 0 1 .blob,
    odR 0x9010 1 2 (.uint 8), odR 0x9010 3 2 (.uint 4), odR 0x9011 1 1 (.uint 1), odR 0x9011 2 1 (.uint 8), odR 0x9020 1 1 (.uint 1),
    odR 0x9020 2 3 (.uint 4), odR 0x9020 5 1 (.uint 1), odR 0x9020 6 1 (.uint 4), odR 0x9030 1 2 (.uint 4), odR 0x9030 3 1 (.uint 1),
    odW 0x9040 1 1 1 ]

/-- The catalogue (R523). -/
def odTable : List OdEntry := odTable1 ++ odTable2 ++ odTable3

/-- The entry covers an index. -/
def OdEntry.hasIndex (e : OdEntry) (i : Nat) : Bool := decide (e.index ≤ i) && decide (i < e.index + e.n)

/-- The entry of an index and subindex. -/
def odFind (i b : Nat) : Option OdEntry := odTable.find? (fun e => e.hasIndex i && decide (e.sub ≤ b) && decide (b < e.sub + e.m))

/-- Highest subindex of an object; none for an index the catalogue does not list. -/
def odHighest (i : Nat) : Option Nat :=
  (odTable.filter (fun e => e.hasIndex i)).foldl (fun m e => some (max (m.getD 0) (e.sub + e.m - 1))) none

/-- Default value of an entry. -/
def odDefault (e : OdEntry) (i b : Nat) : List Byte :=
  match e.ty with
  | .uint k =>
    leBytes k (if i = 0x5200 ∧ b = 1 then 1 else if 0x5200 ≤ i ∧ i < 0x5400 ∧ b = 3 then 512 * (i - 0x5200)
      else if 0x5200 ≤ i ∧ i < 0x5400 ∧ b = 5 then 2048 * (i - 0x5200) else e.dflt)
  | _ =>
    if i = 0x2011 then avgCeilDefault.flatMap (leBytes 2)
    else if 0x5200 ≤ i ∧ i < 0x5400 ∧ b = 2 then List.replicate 64 (if i = 0x5200 then 0xFF else 0)
    else if 0x5200 ≤ i ∧ i < 0x5400 ∧ b = 9 then List.replicate 16 1
    else []

/-- The persisted value of an RWP entry, or the value of an RW one (R519, R520). -/
def State.odValue (s : State) (i b : Nat) : List Byte :=
  let v := smapGet (fun _ => ([] : List Byte)) s.od (odKey i b)
  if !v.isEmpty then v else match odFind i b with
    | some e => odDefault e i b
    | none => []

/-! ### Checks of a write (R515, R518, R530) -/

/-- A BLOB's length and contents are such as its entry allows. -/
def blobOk (i b : Nat) (v : List Byte) : Bool :=
  let n := v.length
  if i = 0x2011 then n == 38 && (List.range 19).all (fun r => decide (fieldAt v (2 * r) 2 ≤ winCeil r))
  else if 0x7010 ≤ i ∧ i < 0x7020 then
    n % 4 == 0 && decide (n ≤ 256) && (List.range (n / 4)).all (fun j =>
      match regFind regTable (fieldAt v (4 * j) 4) with
      | some (d, _, _) => d.ctr.isSome
      | none => false)
  else if i = 0x8020 then decide (1 ≤ n) && decide (n ≤ 1024)
  else if i = 0x8040 then n == 0 || n == 48
  else if b = 2 then n == 64
  else if b = 9 then n == 16
  else n % 8 == 0 && decide (n ≤ 512)

/-- The code of R517 a write's length and value give: 5 TYPE_LEN, 6 RANGE, none when they fit. -/
def odBad (e : OdEntry) (i b len : Nat) (v : List Byte) : Option Nat :=
  if v.length ≠ len then some 5
  else match e.ty with
    | .uint k => if len ≠ k then some 5 else if leNat v < e.lo ∨ e.hi < leNat v then some 6 else none
    | .blob => if blobOk i b v then none else some 6
    | .str => none

/-- WR_EN of a transport (R524). -/
def State.writesOn (s : State) (tr : Nat) : Bool := s.odNat 0x1020 (tr + 1) 1 == 1

/-- The write would leave every WR_EN at 0. -/
def State.lastWrEn (s : State) (i b : Nat) (v : List Byte) : Bool :=
  i == 0x1020 && leNat v == 0 && (List.range 4).all (fun t => t + 1 == b || !s.writesOn t)

/-! ### Commit groups (R521) -/

/-- Members of the group committed by entry i:b. -/
def odMembers (i b : Nat) : List Nat :=
  (odTable.filter (fun e => e.hasIndex i && e.commit == b && b != 0)).flatMap (fun e => (List.range e.m).map (· + e.sub))

/-- The candidate value of a member. -/
def State.candidate (s : State) (i b : Nat) : List Byte :=
  match s.jrn.staged.find? (fun x => x.1 == odKey i b) with
  | some x => x.2
  | none => s.odValue i b

/-- Core c is in a CORE_MASK. -/
def maskHas (v : List Byte) (c : Nat) : Bool := bitOf (byteAt v (c / 8)) (c % 8)

/-- The group's rule on the candidate set (R350, R508, R501, R320). -/
def State.groupRule (s : State) (i : Nat) : Bool :=
  let n (b : Nat) : Nat := leNat (s.candidate i b)
  if i = 0x3010 then
    decide (n 1 < n 4) && decide (n 2 < n 5) && decide (n 3 < n 6) && decide (n 4 * n 5 * n 6 ≤ 4096) && decide (n 8 < n 4 * n 5 * n 6)
  else if i = 0x2020 then decide (1200 ≤ n 2) && decide (n 2 ≤ n 1) && decide (n 1 ≤ n 3) && decide (n 3 ≤ 2400)
  else if i = 0x2030 then n 1 != 0 || n 2 != 0
  else if 0x5200 ≤ i ∧ i < 0x5400 then
    n 1 == 0 || ((List.range 512).any (fun c => maskHas (s.candidate i 2) c && !s.unavailable c) && decide (n 3 + n 4 ≤ 262144)
      && decide (n 5 + n 6 ≤ 1048576))
  else true

end Sys2Proof.Machine
end

