-- ==== Sys2Proof/Machine/Journal.lean ====
section
/-!
DEFINITION. The persistent store's journal (R536 to R546): records, batches, the region switch, compaction copies and the rebuild.
-/

namespace Sys2Proof.Machine

/-! ### Records (R536, R537) -/

/-- Slots of a region, and the slot at which it switches (R536, R543). -/
def regionSlots : Nat := 262144
def switchSlot : Nat := 196608

/-- A record before it takes its SEQ and its place in a batch: kind 1 VALUE, 2 COPY, 3 TOMBSTONE, 4 HEADER, 5 COMPLETE. -/
structure JRec where
  index : Nat
  sub : Nat
  kind : Nat
  len : Nat
  seg : Nat
  value : List Byte
  deriving DecidableEq, Repr

/-- The 64 bytes of a record (R537). -/
def JRec.bytes (r : JRec) (flags batchLen seq gen : Nat) : List Byte :=
  withCrc (leBytes 2 r.index ++ leBytes 1 r.sub ++ leBytes 1 r.kind ++ leBytes 1 flags ++ leBytes 1 0 ++ leBytes 2 batchLen ++ leBytes 8 seq ++ leBytes 4 gen
    ++ leBytes 2 r.len ++ leBytes 2 r.seg ++ (r.value ++ List.replicate 32 0).take 32 ++ leBytes 4 0)

/-- Records a value takes: max(1, ⌈LEN / 32⌉). -/
def recCount (v : List Byte) : Nat := max 1 ((v.length + 31) / 32)

/-- The records of one entry of a batch. -/
def recsOf (kind : Nat) (e : Nat × Nat × Option (List Byte)) : List JRec :=
  match e.2.2 with
  | none => [{ index := e.1, sub := e.2.1, kind := 3, len := 0, seg := 0, value := [] }]
  | some v => (List.range (recCount v)).map (fun j =>
      { index := e.1, sub := e.2.1, kind := kind, len := v.length, seg := j, value := (v.drop (32 * j)).take 32 })

/-! ### Writing (R538) -/

/-- The next free slot that is not marked bad, from slot `n` on. -/
def Journal.freeFrom (j : Journal) : Nat → Nat → Nat
  | 0, n => n
  | k + 1, n => if j.bad.contains (j.active * regionSlots + n) then j.freeFrom k (n + 1) else n

/-- `n` slots fail their comparison and are marked bad, one after the other. -/
def Journal.fail (j : Journal) : Nat → Journal
  | 0 => j
  | n + 1 =>
    let p := j.freeFrom j.bad.length j.next
    ({ j with bad := (j.active * regionSlots + p) :: j.bad, next := p + 1 } : Journal).fail n

/-- A record written into the next good slot of the active region. -/
def State.putRec (s : State) (r : JRec) (flags batchLen : Nat) : State :=
  let j := s.jrn
  let p := j.freeFrom j.bad.length j.next
  let s1 := s.storeWrite ((j.active * regionSlots + p) * 64) (r.bytes flags batchLen j.seq j.gen)
  { s1 with jrn := { s1.jrn with next := p + 1, seq := j.seq + 1 } }

/-- The records of a batch, `n` in all, `i` written: `fails` says how many slots fail ahead of each record. Answers whether the batch is
persistent; eight failing slots in a row end it (R538). -/
def State.putBatch (s : State) (n : Nat) : Nat → List Nat → List JRec → State × Bool
  | _, _, [] => (s, true)
  | i, fails, r :: rs =>
    let f := fails.headD 0
    let s1 := { s with jrn := s.jrn.fail (min 8 f) }
    if 8 ≤ f then (s1, false)
    else
      (s1.putRec r ((if i = 0 then 1 else 0) + (if i + 1 = n then 2 else 0)) (if i = 0 then n else 0)).putBatch n (i + 1) fails.tail rs

/-- A region's HEADER with its generation, first SEQ and state: 1 COMPACTING, 2 ACTIVE (DESIGN CHOICE, log 27). -/
def State.putHeader (s : State) (region gen first st : Nat) : State :=
  s.storeWrite (region * regionSlots * 64)
    (({ index := 0, sub := 0, kind := 4, len := 0, seg := 0, value := leBytes 4 st } : JRec).bytes 3 1 first gen)

/-- The region switch (R543, 1 and 2). -/
def State.switchRegion (s : State) : State :=
  let r := 1 - s.jrn.active
  let s1 := s.putHeader r (s.jrn.gen + 1) s.jrn.seq 1
  { s1 with jrn := { s1.jrn with
      active := r, gen := s.jrn.gen + 1, next := 1, compacting := true, compactions := s.jrn.compactions + 1, inNew := [] } }

/-- Live records (R543, R547). -/
def Journal.liveCount (j : Journal) : Nat := j.live.foldl (fun n x => n + x.2) 0

/-- The bookkeeping of one entry whose record has become persistent. -/
def Journal.noteLive (j : Journal) (e : Nat × Nat × Option (List Byte)) : Journal :=
  let k := odKey e.1 e.2.1
  { j with
    live := smapPut (fun _ => 0) j.live k (match e.2.2 with | none => 0 | some v => recCount v)
    inNew := if j.inNew.contains k then j.inNew else k :: j.inNew }

/-- The store's current is asked for: for the batch in front when nothing else is being written (R539). -/
def State.storeKick (s : State) : State :=
  match s.jrn.batches with
  | [] => s
  | b :: _ =>
    if s.jrn.busy ≠ 0 then s
    else
      ({ s with jrn := { s.jrn with busy := 1 } } : State).askSys 17 200 (some (storeWindows (b.entries.flatMap (recsOf 1)).length)) false .store

/-- The store's current has been granted. -/
def State.storeGranted (s : State) : Bool := !s.esc.waiting.any (fun q => decide (q.owner = .store))

/-- A batch enters the persistence queue (R529). -/
def State.persist (s : State) (b : OdBatch) : State := ({ s with jrn := { s.jrn with batches := s.jrn.batches ++ [b] } } : State).storeKick

/-- A batch of Xolyn's own (R541). -/
def exemptBatch (entries : List (Nat × Nat × Option (List Byte))) (after : AfterBatch) : OdBatch :=
  { entries := entries, exempt := true, answers := none, staged := [], after := after }

/-! ### Compaction (R543) -/

/-- Live entries that the active region has no record for, the values in `od`. -/
def State.toCopy (s : State) : List Nat := (s.jrn.live.map Prod.fst).filter (fun k => !s.jrn.inNew.contains k)

/-- As many of the entries as fit in 32 records. -/
def State.copySet (s : State) : Nat → List Nat → List (Nat × Nat × Option (List Byte))
  | _, [] => []
  | room, k :: ks =>
    let v := smapGet (fun _ => ([] : List Byte)) s.od k
    if recCount v ≤ room then (k / 256, k % 256, some v) :: s.copySet (room - recCount v) ks else []

/-- A copy batch is written; when nothing is left, the COMPLETE record and the HEADER with state ACTIVE (R543, 3 and 4). -/
def State.copyBatch (s : State) : State :=
  let es := s.copySet 32 s.toCopy
  let s1 :=
    if es.isEmpty then
      let t := s.putRec { index := 0, sub := 0, kind := 5, len := 0, seg := 0, value := [] } 3 1
      let t1 := t.putHeader t.jrn.active t.jrn.gen s.jrn.seq 2
      { t1 with jrn := { t1.jrn with compacting := false } }
    else
      let rs := es.flatMap (recsOf 2)
      let t := (s.putBatch rs.length 0 [] rs).1
      { t with jrn := es.foldl Journal.noteLive t.jrn }
  ({ s1 with jrn := { s1.jrn with busy := 0 } } : State).storeKick

/-- COMPACTION_COPY: a copy batch in a gap between writes. -/
def execCompactionCopy (s : State) : Result :=
  .next (
    if !s.jrn.compacting ∨ s.jrn.busy = 1 ∨ s.power.tripped then s
    else
      let s1 := if s.jrn.busy = 2 then s
        else ({ s with jrn := { s.jrn with busy := 2 } } : State).askSys 17 200 (some (storeWindows 32)) false .store
      if s1.storeGranted then s1.copyBatch else s1)

/-! ### Rebuild (R544, R545) -/

/-- A slot as read: its number, its 64 bytes. -/
abbrev Slot := Nat × List Byte

/-- The slots of a region that hold anything, in order; slot 0 is the HEADER's. -/
def State.slotsIn (s : State) (region : Nat) : List Slot :=
  let lo := region * regionSlots * 64
  let ks := ((s.tel.store.filter (fun e => decide (lo ≤ e.1) && decide (e.1 < lo + regionSlots * 64))).map (fun e => (e.1 - lo) / 64)).eraseDups
  ks.map (fun k => (k, s.storeRead (lo + 64 * k) 64))

/-- A slot's CRC is right (R537). -/
def slotValid (b : List Byte) : Bool := fieldAt b 60 4 == (crc32c (b.take 60)).toNat

/-- GEN of a region by its HEADER; 0 without a valid one. -/
def headerGen (ss : List Slot) : Nat :=
  match ss.find? (fun x => x.1 == 0) with
  | some x => if slotValid x.2 && byteAt x.2 3 == 4 then fieldAt x.2 16 4 else 0
  | none => 0

/-- SEQ and FLAGS of a record. -/
def seqOf (b : List Byte) : Nat := fieldAt b 8 8
def isBegin (b : List Byte) : Bool := bitOf (byteAt b 4) 0
def isEnd (b : List Byte) : Bool := bitOf (byteAt b 4) 1

/-- The valid records of a region's generation that belong to a batch whose END is present. -/
def usableRecs (gen : Nat) (ss : List Slot) : List (List Byte) :=
  let v := (ss.filter (fun x => x.1 != 0 && slotValid x.2 && fieldAt x.2 16 4 == gen && decide (byteAt x.2 3 ≠ 0))).map Prod.snd
  v.filter (fun r =>
    match (v.filter (fun x => isEnd x && decide (seqOf r ≤ seqOf x))).map seqOf with
    | [] => false
    | e :: es =>
      let last := es.foldl min e
      !v.any (fun x => isBegin x && decide (seqOf r < seqOf x) && decide (seqOf x ≤ last)))

/-- The value that begins at record `r` (segment 0) when every segment of it is there: SEQ and value. -/
def wholeValue (v : List (List Byte)) (r : List Byte) : Option (Nat × List Byte) :=
  let n := max 1 ((fieldAt r 20 2 + 31) / 32)
  let parts := (List.range n).map (fun j => v.find? (fun x => seqOf x == seqOf r + j && fieldAt x 0 3 == fieldAt r 0 3 && fieldAt x 22 2 == j))
  if parts.all Option.isSome then
    some (seqOf r, (parts.flatMap (fun p => ((p.getD []).drop 24).take 32)).take (fieldAt r 20 2))
  else none

/-- The latest value of entry `key` among records of the given kinds: none without one, `some none` for a TOMBSTONE. -/
def latest (v : List (List Byte)) (key : Nat) (kinds : List Nat) : Option (Option (List Byte)) :=
  let rs := v.filter (fun r => fieldAt r 0 2 * 256 + byteAt r 2 == key && kinds.contains (byteAt r 3) && fieldAt r 22 2 == 0)
  (rs.foldl (fun (best : Option (Nat × Option (List Byte))) r =>
    let c : Option (Nat × Option (List Byte)) := if byteAt r 3 = 3 then some (seqOf r, none) else (wholeValue v r).map (fun x => (x.1, some x.2))
    match best, c with
    | none, c => c
    | b, none => b
    | some b, some c => if b.1 ≤ c.1 then some c else some b) none).map Prod.snd

/-- A slot that is not blank and fails its CRC, with a valid record behind it (R545). -/
def skipped (ss : List Slot) : List (List Byte) :=
  let last := (ss.filter (fun x => slotValid x.2)).foldl (fun m x => max m x.1) 0
  (ss.filter (fun x => decide (0 < x.1 ∧ x.1 < last) && !slotValid x.2 && decide (byteAt x.2 3 ≠ 0))).map Prod.snd

/-- The rebuild at a cold reset: every persisted value from the journal. With no valid HEADER the store is as it left the factory, region
A of generation 1 (DESIGN CHOICE, log 27). -/
def State.rebuild (s : State) : State :=
  let sa := s.slotsIn 0
  let sb := s.slotsIn 1
  let ga := if headerGen sa = 0 ∧ headerGen sb = 0 then 1 else headerGen sa
  let gb := headerGen sb
  let active := if ga < gb then 1 else 0
  let gen := max ga gb
  let oldGen := if ga < gb ∧ ga = 0 then 1 else min ga gb
  let ssNew := if active = 1 then sb else sa
  let new := usableRecs gen ssNew
  let old := usableRecs oldGen (if active = 1 then sa else sb)
  let complete := decide (gen = 1) || new.any (fun r => byteAt r 3 == 5)
  let keys := ((new ++ (if complete then [] else old)).filter (fun r => byteAt r 3 != 5)).map (fun r => fieldAt r 0 2 * 256 + byteAt r 2)
  let value (k : Nat) : Option (List Byte) :=
    match latest new k [1, 3] with
    | some v => v
    | none => match latest new k [2] with
      | some v => v
      | none => if complete then none else (latest old k [1, 2, 3]).getD none
  let bad := skipped ssNew
  let od := keys.foldl (fun m k => smapPut (fun _ => ([] : List Byte)) m k ((value k).getD [])) []
  let live := keys.foldl (fun m k => smapPut (fun _ => 0) m k (match value k with | none => 0 | some v => recCount v)) []
  let s1 := { s with
    od := od
    jrn := { s.jrn with
      active := active, gen := gen, next := (ssNew.filter (fun x => fieldAt x.2 16 4 == gen || decide (x.1 = 0))).foldl (fun m x => max m (x.1 + 1)) 1
      seq := (new ++ old).foldl (fun m r => max m (seqOf r + 1)) 1
      compacting := !complete, recovered := !complete, storeCe := bad.length
      live := live
      inNew := (new.map (fun r => fieldAt r 0 2 * 256 + byteAt r 2)).eraseDups
      batches := [], busy := 0, requests := [], staged := [], canIn := none, canOut := none } }
  bad.foldl (fun t r => t.event 0x10 [(3, 1), (fieldAt r 0 2, 2), (byteAt r 2, 1), (t.budgetLeft, 8)]) s1

end Sys2Proof.Machine
end

