-- ==== Sys2Proof/Machine/Od.lean ====
section
/-!
DEFINITION. The object dictionary (R515 to R535, R548): reads, writes, commits, the four transports and their answers, the tenant layout's
apply, DEFAULTS, and the persistence of batches.
-/

namespace Sys2Proof.Machine

/-! ### Firmware images (R577, R578), named by the identity entries -/

/-- A byte of the NOR flash. -/
def State.flashByte (s : State) (o : Nat) : Nat :=
  let v := smapGet (fun _ => 0) s.fw.flash o
  if v = 0 then (Config.factoryImage (o / 0x2000000) (o % 0x2000000)).toNat else v - 1

/-- `n` bytes of a slot from offset `o`. -/
def State.imageBytes (s : State) (slot o n : Nat) : List Byte := (List.range n).map (fun j => BitVec.ofNat 8 (s.flashByte (slot * 0x2000000 + o + j)))

/-- A little-endian field of a slot's image header. -/
def State.imageField (s : State) (slot o n : Nat) : Nat := leNat (s.imageBytes slot o n)

/-- FW_VERSION of the running image. -/
def State.fwVersion (s : State) : Nat := s.imageField s.fw.running 4 4

/-- An entry of 0x8010 (R591): its journalled value, else the factory's: slot A ACTIVE, slot B INVALID (DESIGN CHOICE, log 28). -/
def State.fwEntry (s : State) (b : Nat) : Nat := s.odNat 0x8010 b (if b = 2 then 3 else if b = 4 then s.imageField 0 4 4 else 0)

/-! ### Contract digest (R435) -/

/-- The record over which the digest is taken. -/
def State.contractRecord (s : State) : List Byte :=
  let v := s.fwVersion
  leBytes 2 (v / 2 ^ 24) ++ leBytes 2 (v / 2 ^ 16 % 256) ++ leBytes 2 (v % 65536) ++ [0x42#8, 0x31#8] ++ (List.range 32).flatMap (fun k => leBytes 4 (s.mapWord k))

/-- The digest is computed anew; a change writes a CONTRACT event: cause 0 map, 1 firmware. -/
def State.newContract (s : State) (cause : Nat) : State :=
  let old := s.reg (A.BEAT 0x28)
  let new := (crc64 s.contractRecord).toNat
  if new = old then s else (s.setReg (A.BEAT 0x28) new).event 0x0C [(old, 8), (new, 8), (cause, 1)]

/-! ### Reads (R519, R520) -/

/-- ASCII text. -/
def ascii (l : List Nat) : List Byte := l.map (BitVec.ofNat 8)

/-- A factory value of `n` bytes: a free value. -/
def factoryBytes (k n : Nat) : List Byte := (Config.factory k ++ List.replicate n 0).take n

/-- Pyrud's PCI vendor identifier (R524). -/
def pciVendor : Nat := leNat (factoryBytes 0x100004 2)

/-- Word j of the disabled-unit map as bytes (R22). -/
def State.mapBytes (s : State) : List Byte := (List.range 32).flatMap (fun k => leBytes 4 (s.mapWord k))

/-- BANK_MAP: a record of two bytes per spare (R274). -/
def State.bankMapBytes (s : State) : List Byte :=
  (List.range 32).flatMap (fun j =>
    let v := smapGet (fun _ => 0) s.tiers.bankMap j
    leBytes 2 (if v = 0 then 0 else 0x8000 + (v - 1)))

/-- A log record of the store when it exists and has not been overwritten, else zeros (R568). -/
def State.logRecord (s : State) (base slots size sel next : Nat) : List Byte :=
  if sel < next ∧ next ≤ sel + slots then s.storeRead (base + sel % slots * size) size else List.replicate size 0

/-- The value of a read-only entry. -/
def State.roValue (s : State) (i b : Nat) : List Byte :=
  let j := s.jrn
  if i = 0x1000 then
    if b = 1 then ascii [0x50, 0x79, 0x72, 0x75, 0x64] else if b = 2 then ascii [0x4C, 0x58, 0x34, 0x30, 0x39, 0x36]
    else if b = 3 then Config.factory 0x100003 else if b = 4 then leBytes 2 pciVendor else if b = 5 then ascii [0x42, 0x31]
    else if b = 6 then factoryBytes 0x100006 16 else if b = 7 then leBytes 4 s.fwVersion else leBytes 2 0x0400
  else if i = 0x1010 then (if b = 1 then leBytes 1 s.canNode else leBytes 1 (smapGet (fun _ => 0) j.eids (b - 4)))
  else if i = 0x2041 then leBytes 2 s.cap
  else if i = 0x3011 then leBytes 2 s.node
  else if i = 0x4021 then s.bankMapBytes
  else if i = 0x5012 then (List.range 512).map (fun f => BitVec.ofNat 8 (smapGet (fun _ => 0xFF) j.applied f))
  else if i = 0x6010 then s.mapBytes
  else if i = 0x6011 then leBytes 2 s.retirements
  else if i = 0x6012 then leBytes 8 (s.reg (A.BEAT 0x28))
  else if i = 0x7030 then
    if b = 2 then s.logRecord 0x2B00000 212992 64 (s.odNat i 1 0) s.tel.eseq else if b = 4 then s.logRecord 0x2100000 20480 512 (s.odNat i 3 0) s.tel.dseq
    else if b = 5 then s.totals else leBytes 8 (if b = 6 then s.tel.eseq else s.tel.dseq)
  else if i = 0x8010 then leBytes (if b = 4 ∨ b = 5 then 4 else if b = 8 then 2 else 1) (s.fwEntry b)
  else if i = 0x8050 then Config.factory 0x805000
  else if i = 0x9010 then
    leBytes (if b ≤ 2 then 8 else 4) ([4000000000, s.budgetLeft, 1000000, j.used - 4000000000].getD (b - 1) 0)
  else if i = 0x9011 then (if b = 1 then leBytes 1 j.tokens else leBytes 8 j.refused)
  else if i = 0x9020 then
    leBytes (if b = 1 ∨ b = 5 then 1 else 4) ([j.active, j.gen, j.next, j.liveCount, b2n j.compacting, j.compactions].getD (b - 1) 0)
  else if i = 0x9030 then leBytes (if b = 3 then 1 else 4) ([j.storeCe, j.bad.length, b2n j.recovered].getD (b - 1) 0)
  else []

/-- The recovery boot serves the ranges 0x1000 and 0x8000 alone (R579). -/
def State.odLimited (s : State) (i : Nat) : Bool := s.boot.recovery && !(i / 0x1000 == 1 || i / 0x1000 == 8)

/-- The entry a request names, or the code of existence: 1 NO_OBJECT, 2 NO_SUB. Subindex 0 of a REC is its highest subindex. -/
def State.odEntry (s : State) (i b : Nat) : Except Nat OdEntry :=
  if s.odLimited i then .error 1
  else match odFind i b, odHighest i with
    | some e, _ => .ok e
    | none, none => .error 1
    | none, some _ => if b = 0 then .ok (odR i 0 1 (.uint 1)) else .error 2

/-- A read: its result code and value. -/
def State.odRead (s : State) (i b : Nat) : Nat × List Byte :=
  match s.odEntry i b with
  | .error c => (c, [])
  | .ok e =>
    match e.acc with
    | .wo => (4, [])
    | .ro => (0, ((if (odFind i b).isNone then leBytes 1 ((odHighest i).getD 0) else s.roValue i b)).take 65535)
    | _ => (0, s.odValue i b)

/-! ### Answers (R528, R531 to R535) -/

/-- The header of R528. -/
def odHeader (op i b code len : Nat) : List Byte := leBytes 1 op ++ leBytes 2 i ++ leBytes 1 b ++ leBytes 1 code ++ leBytes 2 len

/-- A frame padded to the next CAN FD data length (R532). -/
def canPad (d : List Byte) : List Byte :=
  let n := d.length
  d ++ List.replicate ((([8, 12, 16, 20, 24, 32, 48, 64].find? (fun m => decide (n ≤ m))).getD 64) - n) 0

/-- A frame of KIND 1 to a controller. -/
def State.canResult (s : State) (dst tid : Nat) (d : List Byte) : State := s.send (.can (canId 1 1 dst s.canNode tid) (canPad d))

/-- CONSEC frames of the transfer being sent: up to `n`, the sequence continuing. -/
def State.canMore (s : State) (x : CanOut) : Nat → State
  | 0 => { s with jrn := { s.jrn with canOut := if x.left.isEmpty then none else some { x with since := s.ticks } } }
  | n + 1 =>
    if x.left.isEmpty then { s with jrn := { s.jrn with canOut := none } }
    else (s.canResult x.dst x.tid (leBytes 1 (0x80 + x.next % 64) ++ x.left.take 63)).canMore { x with left := x.left.drop 63, next := x.next + 1 } n

/-- The request ends with a result code and, for a read, its value. -/
def State.odAnswer (s : State) (r : OdRequest) (code : Nat) (value : List Byte) : State :=
  let d := odHeader 3 r.index r.sub code value.length ++ value
  if r.tr = 0 then
    if value.length ≤ 56 then s.canResult r.src r.tid (leBytes 1 0 ++ d)
    else
      let s1 := s.canResult r.src r.tid (leBytes 1 0x40 ++ d.take 63)
      { s1 with jrn := { s1.jrn with canOut := some { dst := r.src, tid := r.tid, left := d.drop 63, next := 1, since := s.ticks } } }
  else if r.tr < 3 then s.send (.mctp r.src (leBytes 1 0x7E ++ leBytes 1 (pciVendor / 256) ++ leBytes 1 pciVendor ++ leBytes 1 1 ++ d))
  else
    let s1 := { s with jrn := { s.jrn with mbBuf := putBytesMem s.jrn.mbBuf 0 value } }
    let s2 := if r.op = 1 then s1.setFld A.MB_CTL 47 32 value.length else s1
    (((s2.setFld A.MB_STATUS 15 8 code).setFld A.MB_STATUS 1 1 1).setFld A.MB_STATUS 0 0 0).raiseVector 0 3

/-- A request ends and leaves its transport. -/
def State.odEnd (s : State) (r : OdRequest) (code : Nat) (value : List Byte) : State :=
  ({ s with jrn := { s.jrn with requests := s.jrn.requests.filter (fun x => x.tr != r.tr) } } : State).odAnswer r code value

/-- The OD is served: from boot step 8 on, and in a recovery boot over MCTP and the mailbox (R579, R580). -/
def State.odServed (s : State) (tr : Nat) : Bool := if s.boot.recovery then tr != 0 else decide (8 ≤ s.boot.step)

/-- The transport has a request outstanding (R529). -/
def State.odBusy (s : State) (tr : Nat) : Bool :=
  s.jrn.requests.any (fun x => x.tr == tr) || (tr == 0 && (s.jrn.canIn.isSome || s.jrn.canOut.isSome))

/-- A request has been received completely: it is outstanding, or answered BUSY. An OP other than READ and WRITE gives RANGE (R528). While
the OD is not served or the security core is absent, nothing is answered (R576, R580). -/
def State.odArrive (s : State) (r : OdRequest) : State :=
  if !s.odServed r.tr || s.isAbsent 0 then s
  else if s.odBusy r.tr then s.odAnswer r 9 []
  else if r.op ≠ 1 ∧ r.op ≠ 2 then s.odAnswer r 6 []
  else { s with jrn := { s.jrn with requests := s.jrn.requests ++ [r] } }

/-- The outstanding request of a transport that a row serves. -/
def State.odServe (s : State) (tr : Nat) (pick : OdRequest → Bool) (k : OdRequest → State) : Result :=
  onUnit (decide (tr < 4)) <|
    match s.jrn.requests.find? (fun r => r.tr == tr && !r.started) with
    | some r => if !s.isAbsent 0 && pick r then k r else s
    | none => s

/-- OD_READ: the outstanding read of a transport is served (R519). -/
def execOdRead (tr : Nat) (s : State) : Result :=
  s.odServe tr (fun r => r.op == 1) (fun r => s.odEnd r (s.odRead r.index r.sub).1 (s.odRead r.index r.sub).2)

/-! ### Writes (R518 to R521, R541, R542) -/

/-- The first check a write fails, ahead of token and budget (R518, R530). -/
def State.odRefused (s : State) (r : OdRequest) : Option Nat :=
  match s.odEntry r.index r.sub with
  | .error c => some c
  | .ok e =>
    match e.acc with
    | .ro => some 3
    | _ =>
      match odBad e r.index r.sub r.len r.value with
      | some c => some c
      | none =>
        if s.lastWrEn r.index r.sub r.value then some 6
        else if !s.writesOn r.tr then some 0xA
        else none

/-- An accepted write that persists: token, budget, live set, then the queue (R541 to R543). -/
def State.odPersist (s : State) (r : OdRequest) (entries : List (Nat × Nat × Option (List Byte))) (staged : List (Nat × List Byte)) : State :=
  let n := (entries.flatMap (recsOf 1)).length
  if s.jrn.tokens = 0 then ({ s with jrn := { s.jrn with refused := s.jrn.refused + 1 } } : State).odEnd r 7 []
  else if s.budgetLeft ≤ 1000000 then s.odEnd r 8 []
  else if 65536 + entries.foldl (fun m e => m + smapGet (fun _ => 0) s.jrn.live (odKey e.1 e.2.1)) 0 < s.jrn.liveCount + n then s.odEnd r 0xC []
  else
    let s1 := { s with jrn := { s.jrn with
        tokens := s.jrn.tokens - 1
        staged := s.jrn.staged.filter (fun x => !staged.any (fun y => y.1 == x.1))
        requests := s.jrn.requests.map (fun (x : OdRequest) => if x.tr == r.tr then { x with started := true } else x) } }
    s1.persist { entries := entries, exempt := false, answers := some r.tr, staged := staged, after := .none }

/-- OD_WRITE: the outstanding write of a transport, of any entry whose write has no row of its own: the checks, then staging for a
member of a commit group, effect for RW, persistence for RWP (R518, R519, R521). -/
def execOdWrite (tr : Nat) (s : State) : Result :=
  s.odServe tr (fun r => r.op == 2 && (match s.odEntry r.index r.sub with | .ok e => decide (e.acc ≠ .wo) | .error _ => true)) (fun r =>
    match s.odRefused r with
    | some c => s.odEnd r c []
    | none =>
      let k := odKey r.index r.sub
      match odFind r.index r.sub with
      | none => s
      | some e =>
        if e.commit ≠ 0 then
          ({ s with jrn := { s.jrn with staged := (k, r.value) :: s.jrn.staged.filter (fun x => x.1 != k) } } : State).odEnd r 0 []
        else if e.acc = .rw then ({ s with od := smapPut (fun _ => ([] : List Byte)) s.od k r.value } : State).odEnd r 0 []
        else s.odPersist r [(r.index, r.sub, some r.value)] [])

/-- A write of a WO entry of row `pick`: its checks, then its action `k`; a BOOL written 0 does nothing and is answered OK. -/
def State.odAction (s : State) (tr : Nat) (pick : Nat → Nat → Bool) (k : OdRequest → Nat → State) : Result :=
  s.odServe tr (fun r => r.op == 2 && pick r.index r.sub) (fun r =>
    match s.odRefused r with
    | some c => s.odEnd r c []
    | none => if leNat r.value = 0 ∧ (odFind r.index r.sub).any (fun e => decide (e.hi = 1)) then s.odEnd r 0 [] else k r (leNat r.value))

/-- The entry commits a group. -/
def isCommit (i b : Nat) : Bool := !(odMembers i b).isEmpty

/-- OD_COMMIT: the group's rule on the candidate set, then every member as one batch (R521). -/
def execOdCommit (tr : Nat) (s : State) : Result :=
  s.odAction tr isCommit (fun r _ =>
    if !s.groupRule r.index then s.odEnd r 0xB []
    else
      let ms := odMembers r.index r.sub
      s.odPersist r (ms.map (fun b => (r.index, b, some (s.candidate r.index b))))
        (s.jrn.staged.filter (fun x => ms.any (fun b => odKey r.index b == x.1))))

/-- DEFAULTS (R547): a TOMBSTONE for every persisted entry of 0x1000 to 0x7000, in batches of up to 65; the last answers. -/
def State.tombBatches (s : State) (keys : List Nat) : Nat → List (List Nat)
  | 0 => []
  | n + 1 => if keys.isEmpty then [] else keys.take 65 :: s.tombBatches (keys.drop 65) n

def execDefaults (tr : Nat) (s : State) : Result :=
  s.odAction tr (fun i b => i == 0x9040 && b == 1) (fun r _ =>
    let keys := (s.jrn.live.map Prod.fst).filter (fun k => decide (0x1000 ≤ k / 256) && decide (k / 256 < 0x8000)
      && (odFind (k / 256) (k % 256)).any (fun e => decide (e.acc = .rwp)))
    let bs := s.tombBatches keys (keys.length + 1)
    if s.jrn.tokens = 0 then ({ s with jrn := { s.jrn with refused := s.jrn.refused + 1 } } : State).odEnd r 7 []
    else if s.budgetLeft ≤ 1000000 then s.odEnd r 8 []
    else if bs.isEmpty then ({ s with jrn := { s.jrn with tokens := s.jrn.tokens - 1 } } : State).odEnd r 0 []
    else
      let s1 := { s with jrn := { s.jrn with
          tokens := s.jrn.tokens - 1
          requests := s.jrn.requests.map (fun (x : OdRequest) => if x.tr == r.tr then { x with started := true } else x) } }
      (bs.zip (List.range bs.length)).foldl (fun (t : State) b => t.persist {
        entries := b.1.map (fun k => (k / 256, k % 256, none)), exempt := false, answers := if b.2 + 1 = bs.length then some r.tr else none
        staged := [], after := .none }) s1)

/-- TOKEN_REFILL: one token at each 1,000,000th beat boundary, once (R541). -/
def execTokenRefill (s : State) : Result :=
  .next (if s.beat % 1000000 ≠ 0 ∨ s.beat = 0 ∨ smapGet (fun _ => 0) s.power.timers 4 = s.ticks + 1 then s
    else { s with
      power := { s.power with timers := smapPut (fun _ => 0) s.power.timers 4 (s.ticks + 1) }
      jrn := { s.jrn with tokens := min 64 (s.jrn.tokens + 1) } })

/-! ### Tenant layout (R525, R526) -/

/-- The words of a tenant entry from the layout's persisted values (R334, R525). -/
def State.layoutEntry (s : State) (f : Nat) : State :=
  let i := 0x5200 + f
  let n (b : Nat) : Nat := leNat (s.odValue i b)
  let s1 := (((s.setReg (A.TENANT f 0) (n 3 * 2 ^ 32 + n 4 % 2 ^ 19)).setReg (A.TENANT f 8) (n 6 % 2 ^ 21 * 2 ^ 32 + n 5 % 2 ^ 20)).setFld (A.TENANT f 0x10) 63 48
    (n 7)).setFld (A.TENANT f 0x10) 15 0 (n 8)
  let s2 := (s1.setReg (A.TENANT f 0x18) (fieldAt (s.odValue i 9) 0 8)).setReg (A.TENANT f 0x20) (fieldAt (s.odValue i 9) 8 8)
  ((List.range 8).foldl (fun t j => t.setReg (A.TENANT f (0x40 + 8 * j)) (fieldAt (s.odValue i 2) (8 * j) 8)) s2).countCores f

/-- A range or count of the layout that its field of R334 cannot hold: the function fails validation with code 2. -/
def State.layoutWide (s : State) (f : Nat) : Bool :=
  let n (b : Nat) : Nat := leNat (s.odValue (0x5200 + f) b)
  decide (262144 < n 3 + n 4) || decide (1048576 < n 5 + n 6) || decide (2 ^ 18 ≤ n 3) || decide (2 ^ 20 ≤ n 5)

/-- One run of GRANULES assigned to f; one that overlaps an earlier assignment, or that ASSIGN would refuse, is skipped: code 3. -/
def State.layoutRun (s : State) (f first count tier : Nat) : State :=
  if s.assignRefused f tier first count || (List.range count).any (fun j => s.granuleOwner tier (first + j) != 0) then
    { s with jrn := { s.jrn with applied := smapPut (fun _ => 0xFF) s.jrn.applied f 3 } }
  else (List.range count).foldl (fun t j => t.assignGranule false tier (first + j) f) s

/-- The runs of one function. -/
def State.layoutRuns (s : State) (f : Nat) : State :=
  let v := s.odValue (0x5200 + f) 0xA
  (List.range (v.length / 8)).foldl (fun t j =>
    let w := fieldAt v (8 * j) 4
    t.layoutRun f (w % 2 ^ 31) (fieldAt v (8 * j + 4) 4) (w / 2 ^ 31)) s

/-- A function with ENABLE is enabled under R320 and its ERRCODE recorded; a code 3 of its runs stands. -/
def State.layoutEnable (s : State) (f : Nat) : State :=
  if leNat (s.odValue (0x5200 + f) 1) ≠ 1 then s
  else
    let err := if s.layoutWide f then some 2 else s.enableError f
    let s1 := match err with | some c => s.cfgErr f c | none => s.setEnabled f 1
    if smapGet (fun _ => 0xFF) s.jrn.applied f = 3 then s1
    else { s1 with jrn := { s1.jrn with applied := smapPut (fun _ => 0xFF) s1.jrn.applied f (err.getD 0) } }

/-- The apply (R526). -/
def State.layoutApply (s : State) : State :=
  let s1 := (List.range 512).foldl (fun t f => if f = 0 then t else t.setEnabled f 0) { s with jrn := { s.jrn with applied := [] } }
  let given := (s1.tiers.granOwner.map Prod.fst)
  let s2 := given.foldl (fun t k => t.giveGranule (k / 2 ^ 20) (k % 2 ^ 20) 0) s1
  let s3 := (List.range 511).foldl (fun t j => t.layoutRuns (j + 1)) s2
  let s4 := (List.range 512).foldl (fun t f => (t.layoutEntry f).setEnabled f 0) s3
  ((List.range 512).foldl State.layoutEnable s4).refreshHeads

/-- APPLY_NOW: BUSY unless no function other than 0 is enabled; the apply is the scheduler core's and waits for it (R525, R526, R574). -/
def execApplyNow (tr : Nat) (s : State) : Result :=
  s.odAction tr (fun i b => i == 0x5011 && b == 0) (fun r _ =>
    if (List.range 512).any (fun f => f != 0 && s.fnEnabled f) then s.odEnd r 9 []
    else if s.isAbsent 2 then s
    else s.layoutApply.odEnd r 0 [])

/-! ### Persistence of a batch (R519, R521, R538, R548) -/

/-- Every enabled link may train, every other is held ABSENT (R373). -/
def State.linksByEnable (s : State) : State :=
  (List.range Config.links).foldl (fun t n =>
    if !t.linkEnabled n then (if t.linkSt n = 0 then t.release (.link n) else t.linkAbsent n)
    else if t.expects n ∧ t.linkSt n = 0 ∧ !t.holds (.link n) ∧ t.fld (A.LNK n 0) 1 1 = 0 then t.linkBook n 50 else t) s

/-- The effect of a persisted value at its acknowledgement, beyond what reads it directly (R493, R495, R501, R508, R373). -/
def State.odEffect (s : State) (i b : Nat) : State :=
  let n := leNat (s.odValue i b)
  if i = 0x2010 then s.setFld A.PMC_STATUS 1 0 n
  else if i = 0x2011 then { s with esc := { s.esc with avgEff := [] } }
  else if i = 0x2020 ∧ b = 1 then s.setCap n
  else if i = 0x2030 ∧ b = 1 then s.setFld A.PMC_STATUS 34 34 n
  else if i = 0x2030 ∧ b = 2 then (s.setFld A.PMC_STATUS 35 35 n).event 0x0B [(s.fld A.PMC_STATUS 34 34, 1), (n, 1)]
  else if i = 0x3040 ∧ 10 ≤ s.boot.step then s.linksByEnable
  else s

/-- A STORE event of the budget when it crosses a mark (R542, R563). -/
def State.budgetEvent (s : State) (before kind mark : Nat) : State :=
  if mark < before ∧ s.budgetLeft ≤ mark then s.event 0x10 [(kind, 1), (0, 2), (0, 1), (s.budgetLeft, 8)] else s

/-- The request a batch answers. -/
def State.batchRequest (s : State) (b : OdBatch) : Option OdRequest :=
  match b.answers with
  | some tr => s.jrn.requests.find? (fun r => r.tr == tr && r.started)
  | none => none

/-- The batch in front has been written, persistent (`ok`) or not: values, effects, budget, the answer (R538, R541, R542). -/
def State.batchEnd (s : State) (b : OdBatch) (n : Nat) (ok : Bool) : State :=
  let s0 := { s with jrn := { s.jrn with batches := s.jrn.batches.drop 1, busy := 0 } }
  if ok then
    let left := s.budgetLeft
    let s1 := { s0 with
      od := b.entries.foldl (fun (m : List (Nat × List Byte)) (e : Nat × Nat × Option (List Byte)) =>
        smapPut (fun _ => ([] : List Byte)) m (odKey e.1 e.2.1) (e.2.2.getD [])) s0.od
      jrn := { b.entries.foldl Journal.noteLive s0.jrn with used := s0.jrn.used + n } }
    let s2 := b.entries.foldl (fun t e => t.odEffect e.1 e.2.1) s1
    let s3 := (s2.budgetEvent left 1 399999999).budgetEvent left 2 1000000
    match s.batchRequest b with
    | some r => s3.odEnd r 0 []
    | none => s3
  else
    let e := b.entries.headD (0, 0, none)
    let s1 := (({ s0 with jrn := { s0.jrn with
        tokens := if b.exempt then s0.jrn.tokens else min 64 (s0.jrn.tokens + 1)
        staged := s0.jrn.staged ++ b.staged.filter (fun x => !s0.jrn.staged.any (fun y => y.1 == x.1)) } } : State)).event 0x10
      [(0, 1), (e.1, 2), (e.2.1, 1), (s.budgetLeft, 8)]
    match s.batchRequest b with
    | some r => s1.odEnd r 0xC []
    | none => s1

/-- The batch in front is written by the journal engine, the region switched first when the batch does not fit (R543, R548). -/
def State.batchWrite (s : State) (b : OdBatch) (fails : List Nat) : State × Bool :=
  let rs := b.entries.flatMap (recsOf 1)
  let s1 := if switchSlot < s.jrn.next + rs.length ∧ !s.jrn.compacting then s.switchRegion else s
  s1.putBatch rs.length 0 fails rs

/-! ### CAN FD (R531, R532) -/

/-- A frame for this device from a controller: KIND 0, DST this node, SRC 0x40 to 0x7E. Answers SRC and TID. -/
def State.canFor (s : State) (id : Nat) : Option (Nat × Nat) :=
  if bitsOf id 25 24 = 0 ∧ bitsOf id 23 17 = s.canNode ∧ 0x40 ≤ bitsOf id 16 10 ∧ bitsOf id 16 10 ≤ 0x7E then some (bitsOf id 16 10, bitsOf id 9 6)
  else none

/-- The request a SINGLE or FIRST frame carries: the header, and as much of the value as it holds. -/
def canRequest (src tid : Nat) (d : List Byte) : OdRequest :=
  { tr := 0, src := src, tid := tid, op := byteAt d 1, index := fieldAt d 2 2, sub := byteAt d 4, len := fieldAt d 6 2
    value := ((d.drop 8).take 56).take (fieldAt d 6 2), started := false }

/-- The frame is long enough for a header and of type `ft` (R532). -/
def canType (ft : Nat) (d : List Byte) : Bool := decide (8 ≤ d.length) && decide (d.length ≤ 64) && byteAt d 0 / 64 == ft

/-- SINGLE: a frame that carries a whole request. -/
def execSingle (id : Nat) (data : List Byte) (s : State) : Result :=
  .next (match s.canFor id with
    | some (src, tid) => if canType 0 data ∧ byteAt data 0 % 64 = 0 then s.odArrive (canRequest src tid data) else s
    | none => s)

/-- FIRST: a transfer starts and is answered with FLOW, or the transport is BUSY. -/
def execFirst (id : Nat) (data : List Byte) (s : State) : Result :=
  .next (match s.canFor id with
    | some (src, tid) =>
      let r := canRequest src tid data
      if !canType 1 data ∨ r.len ≤ 56 ∨ !s.odServed 0 ∨ s.isAbsent 0 then s
      else if s.odBusy 0 then s.odAnswer r 9 []
      else
        ({ s with jrn := { s.jrn with canIn := some { req := r, next := 1, since := s.ticks } } } : State).canResult src tid
          [0xC0#8, 0#8, 0#8, 0#8]
    | none => s)

/-- A transfer being received ends: a WRITE is answered TIMEOUT (R532). -/
def State.canStop (s : State) (x : CanIn) : State :=
  let s1 := { s with jrn := { s.jrn with canIn := none } }
  if x.req.op = 2 then s1.odAnswer x.req 0xD [] else s1

/-- CONSEC: the next value bytes; a sequence error ends the transfer. -/
def execConsec (id : Nat) (data : List Byte) (s : State) : Result :=
  .next (match s.canFor id, s.jrn.canIn with
    | some (src, tid), some x =>
      if x.req.src ≠ src ∨ x.req.tid ≠ tid ∨ byteAt data 0 / 64 ≠ 2 then s
      else if byteAt data 0 % 64 ≠ x.next % 64 ∨ x.since + 100000 < s.ticks then s.canStop x
      else
        let v := (x.req.value ++ (data.drop 1).take 63).take x.req.len
        if v.length < x.req.len then
          { s with jrn := { s.jrn with canIn := some { req := { x.req with value := v }, next := x.next + 1, since := s.ticks } } }
        else ({ s with jrn := { s.jrn with canIn := none } } : State).odArrive { x.req with value := v }
    | _, _ => s)

/-- FLOW: the transfer being sent goes on with BS frames (0: all), waits, or ends. -/
def execFlow (id : Nat) (data : List Byte) (s : State) : Result :=
  .next (match s.canFor id, s.jrn.canOut with
    | some (src, tid), some x =>
      if x.dst ≠ src ∨ x.tid ≠ tid ∨ byteAt data 0 / 64 ≠ 3 then s
      else if byteAt data 1 = 0 then s.canMore x (if byteAt data 2 = 0 then x.left.length + 1 else byteAt data 2)
      else if byteAt data 1 = 1 then { s with jrn := { s.jrn with canOut := some { x with since := s.ticks } } }
      else if byteAt data 1 = 2 then { s with jrn := { s.jrn with canOut := none } }
      else s
    | _, _ => s)

/-- CAN_TRANSFER_TIMEOUT: a gap of more than 100 ms ends a transfer. -/
def execCanTransferTimeout (s : State) : Result :=
  .next (
    let s1 := match s.jrn.canIn with
      | some x => if x.since + 100000 < s.ticks then s.canStop x else s
      | none => s
    match s1.jrn.canOut with
    | some x => if x.since + 100000 < s.ticks then { s1 with jrn := { s1.jrn with canOut := none } } else s1
    | none => s1)

/-! ### Mailbox (R534, R535) -/

/-- GO: a write of `val` to OD_MB_CTL with GO = 1 starts a request with the buffer's bytes; ignored while BUSY. -/
def execGo (val : Nat) (s : State) : Result :=
  .next (
    if !s.reaches 0 ∨ s.fld A.MB_STATUS 0 0 = 1 then s
    else
      let s1 := (s.setReg A.MB_CTL (setBits (setBits 0 47 8 (bitsOf val 47 8)) 3 2 (bitsOf val 3 2))).setFld A.MB_STATUS 0 0 1
      let n := if bitsOf val 3 2 = 2 then bitsOf val 47 32 else 0
      s1.odArrive { tr := 3, src := 0, tid := 0, op := bitsOf val 3 2, index := bitsOf val 31 16, sub := bitsOf val 15 8, len := n
                    value := (List.range n).map (smapGet (fun _ => (0 : Byte)) s.jrn.mbBuf), started := false })

/-! ### MCTP (R533) and SPDM (R589) -/

/-- MCTP_OD_REQUEST over I3C (`i3c`) or PCIe, from endpoint `src` with a message tag: type 0x7E, the PCI vendor identifier, class 0x01, then
header and value; a message with another identifier or class is dropped. -/
def execMctpOdRequest (i3c : Bool) (src tag : Nat) (body : List Byte) (s : State) : Result :=
  .next (
    if body.length < 11 ∨ byteAt body 0 ≠ 0x7E ∨ byteAt body 1 * 256 + byteAt body 2 ≠ pciVendor ∨ byteAt body 3 ≠ 1 then s
    else
      let d := body.drop 4
      s.odArrive { tr := if i3c then 2 else 1, src := src, tid := tag, op := byteAt d 0, index := fieldAt d 1 2, sub := byteAt d 3, len := fieldAt d 5 2
                   value := d.drop 7, started := false })

/-- Completion code and data of a control message (DSP0236, PRESUMED, log 29): 1 Set Endpoint ID, 2 Get Endpoint ID, 4 Get MCTP Version
Support, 5 Get Message Type Support; others are unsupported. -/
def State.mctpReply (s : State) (tr : Nat) (cmd : Nat) (d : List Byte) : State × List Byte :=
  let eid := smapGet (fun _ => 0) s.jrn.eids tr
  if cmd = 1 then
    let e := byteAt d 1
    if byteAt d 0 % 4 < 2 ∧ 8 ≤ e ∧ e < 255 then
      ({ s with jrn := { s.jrn with eids := smapPut (fun _ => 0) s.jrn.eids tr e } }, leBytes 1 0 ++ leBytes 1 0 ++ leBytes 1 e ++ leBytes 1 0)
    else (s, leBytes 1 2)
  else if cmd = 2 then (s, leBytes 1 0 ++ leBytes 1 eid ++ leBytes 1 0 ++ leBytes 1 0)
  else if cmd = 4 then (s, leBytes 1 0 ++ leBytes 1 1 ++ [0xF1#8, 0xF3#8, 0xF1#8, 0#8])
  else if cmd = 5 then (s, leBytes 1 0 ++ leBytes 1 3 ++ [0#8, 5#8, 0x7E#8])
  else (s, leBytes 1 5)

/-- MCTP_CONTROL: a control request is answered with the request's instance identifier. -/
def execMctpControl (i3c : Bool) (src : Nat) (body : List Byte) (s : State) : Result :=
  .next (
    if s.isAbsent 0 ∨ byteAt body 0 ≠ 0 ∨ byteAt body 1 < 128 ∨ body.length < 3 then s
    else
      let (s1, d) := s.mctpReply (if i3c then 2 else 1) (byteAt body 2) (body.drop 3)
      s1.send (.mctp src (leBytes 1 0 ++ leBytes 1 (byteAt body 1 % 128) ++ leBytes 1 (byteAt body 2) ++ d)))

/-- The measurement blocks of R589, as raw bytes. -/
def State.measurement (s : State) (k : Nat) : List Byte :=
  let slot := s.fw.running
  if k = 1 then Config.digest384 (Config.factory 0x100)
  else if k = 2 then Config.digest384 (s.imageBytes slot 0 4096)
  else if k ≤ 6 then
    Config.digest384 (s.imageBytes slot (s.imageField slot (96 + 16 * (k - 3)) 4) (min 33554432 (s.imageField slot (100 + 16 * (k - 3)) 4)))
  else if k = 7 then leBytes 4 s.fwVersion ++ leBytes 2 (s.imageField slot 8 2) ++ leBytes 1 (s.fwEntry 1) ++ leBytes 1 (s.fwEntry 6)
  else if k = 8 then leBytes 8 (s.reg (A.BEAT 0x28))
  else Config.digest384 (leBytes 1 (s.fld A.PMC_STATUS 34 34) ++ leBytes 1 (s.fld A.PMC_STATUS 35 35) ++ s.keyDigest ++ s.odValue 0x8040 0)

/-- A DMTF measurement block with a raw bit stream (DSP0274, PRESUMED, log 29). -/
def State.measurementBlock (s : State) (k : Nat) : List Byte :=
  let v := s.measurement k
  leBytes 1 k ++ leBytes 1 1 ++ leBytes 2 (v.length + 3) ++ leBytes 1 (0x80 + k) ++ leBytes 2 v.length ++ v

/-- GET_MEASUREMENTS: the blocks asked for (0 their number, 0xFF all), signed with the device key (R589). -/
def execGetMeasurements (i3c : Bool) (src : Nat) (body : List Byte) (s : State) : Result :=
  .next (
    if s.isAbsent 0 ∨ byteAt body 0 ≠ 5 ∨ byteAt body 2 ≠ 0xE0 ∨ (s.boot.step < 8 ∧ !s.boot.recovery) then s
    else
      let k := byteAt body 4
      let ks := if k = 0xFF then (List.range 9).map (· + 1) else if 1 ≤ k ∧ k ≤ 9 then [k] else []
      let rec_ := ks.flatMap s.measurementBlock
      let (n, s1) := s.draw
      let head := leBytes 1 5 ++ leBytes 1 0x13 ++ leBytes 1 0x60 ++ leBytes 1 (if k = 0 then 9 else 0) ++ leBytes 1 0 ++ leBytes 1 ks.length
        ++ leBytes 3 rec_.length ++ rec_ ++ (List.range 32).map (fun j => Config.freeByte (n + j)) ++ leBytes 2 0
      let i3 := b2n i3c
      s1.send (.mctp src (head ++ Config.signature (0x200 + i3) (body ++ head))))

/-- SPDM_OVER_MCTP: another SPDM request is answered by the security core; what DSP0274 fixes of the answer's bytes beyond its code is a
free value of the request (R589, DESIGN CHOICE, log 29). Request codes 0x81 to 0x84 answer 0x01 to 0x04, 0xE0 to 0xEF answer 0x60 to 0x6F; others ERROR. -/
def execSpdmOverMctp (i3c : Bool) (src : Nat) (body : List Byte) (s : State) : Result :=
  .next (
    if s.isAbsent 0 ∨ byteAt body 0 ≠ 5 ∨ byteAt body 2 = 0xE0 ∨ (s.boot.step < 8 ∧ !s.boot.recovery) then s
    else
      let c := byteAt body 2
      let code := if (0x81 ≤ c ∧ c ≤ 0x84) ∨ (0xE0 ≤ c ∧ c ≤ 0xEF) then c - 0x80 else 0x7F
      s.send (.mctp src (leBytes 1 5 ++ leBytes 1 0x13 ++ leBytes 1 code ++ Config.signature (0x210 + b2n i3c) body)))

end Sys2Proof.Machine
end

