-- ==== Sys2Proof/Machine/Firmware.lean ====
section
/-!
DEFINITION. Firmware processors, images and updates (R574 to R593): watchdogs, download, verification, activation, confirmation.
-/

namespace Sys2Proof.Machine

/-! ### Slots and stages (R582, R591) -/

/-- STAGE, and the state of a slot. -/
def State.stage (s : State) : Nat := s.fwEntry 6
def State.slotState (s : State) (k : Nat) : Nat := s.fwEntry (2 + k)

/-- The inactive slot: neither ACTIVE nor ACTIVE_TRIAL (R583). -/
def State.inactiveSlot (s : State) : Nat := if s.slotState 0 = 2 ∨ s.slotState 0 = 3 then 1 else 0

/-- The slot in trial. -/
def State.trialSlot (s : State) : Nat := if s.slotState 0 = 2 then 0 else 1

/-- Bytes of an entry of 0x8010. -/
def fwSize (b : Nat) : Nat := if b = 4 ∨ b = 5 then 4 else if b = 8 then 2 else 1

/-- Entries of 0x8010 change by one exempt batch (R582). -/
def State.fwSet (s : State) (vals : List (Nat × Nat)) (after : AfterBatch) : State :=
  s.persist (exemptBatch (vals.map (fun v => (0x8010, v.1, some (leBytes (fwSize v.1) v.2)))) after)

/-- A change of stage waits to become persistent, or an activation runs: no other stage starts. -/
def State.fwBusy (s : State) : Bool := s.fw.quiesce != 0 || s.jrn.batches.any (fun b => b.entries.any (fun e => e.1 == 0x8010))

/-- A FIRMWARE event (R593). -/
def State.fwEvent (s : State) (kind slot processor : Nat) : State :=
  s.event 0x12 [(kind, 1), (slot, 1), (s.imageField slot 4 4, 4), (s.stage, 1), (s.fwEntry 7, 1), (s.fwEntry 9, 1), (processor, 1)]

/-- A write of an update entry that starts or advances a stage: BUSY out of order (R582, R592). -/
def State.fwAction (s : State) (tr i b : Nat) (stages : List Nat) (k : OdRequest → Nat → State) : Result :=
  s.odAction tr (fun x y => x == i && y == b) (fun r v => if s.fwBusy || !stages.contains s.stage then s.odEnd r 9 [] else k r v)

/-! ### Download (R583) -/

/-- A flash operation waits to run and books 0.5 A on VDD_IO18 (R577). -/
def State.flashKick (s : State) : State :=
  if (s.fw.erase ≠ 0 ∨ !s.fw.buffer.isEmpty ∨ s.fw.copyFrom.isSome) ∧ !s.holds .flash ∧ !s.esc.waiting.any (fun q => decide (q.owner = .flash)) then
    s.askSys 18 50 none false .flash
  else s

/-- A download ends without an image: the slot stays INVALID and the stage is IDLE. -/
def State.downloadEnd (s : State) (result : List (Nat × Nat)) : State :=
  (({ s with fw := { s.fw with erase := 0, buffer := [], copyFrom := none } } : State).release .flash).fwSet ([(6, 0)] ++ result) .none

/-- DL_BEGIN: the inactive slot becomes INVALID, persistent, and is then erased. -/
def execDlBegin (tr : Nat) (s : State) : Result :=
  s.fwAction tr 0x8020 1 [0] (fun r v =>
    if v = 0 ∨ 33554432 < v then s.odEnd r 6 []
    else
      let k := s.inactiveSlot
      (({ s with
        fw := { s.fw with length := v, target := k, erase := 0, buffer := [], next := 0, copyFrom := none }
        od := smapPut (fun _ => ([] : List Byte)) s.od (odKey 0x8020 2) (leBytes 4 0) } : State).fwSet [(2 + k, 0), (4 + k, 0), (6, 1)] .erase).odEnd r 0 [])

/-- DL_OFFSET (R591). -/
def State.dlOffset (s : State) : Nat := s.odNat 0x8020 2 0
def State.setDlOffset (s : State) (n : Nat) : State := { s with od := smapPut (fun _ => ([] : List Byte)) s.od (odKey 0x8020 2) (leBytes 4 n) }

/-- Flash work of the download is in progress. -/
def State.dlRunning (s : State) : Bool := s.fw.erase != 0 || !s.fw.buffer.isEmpty || s.fw.copyFrom.isSome

/-- DL_DATA: up to 1,024 bytes at DL_OFFSET, which advances; BUSY while earlier bytes or the erase are in progress (DESIGN CHOICE, log 28). -/
def execDlData (tr : Nat) (s : State) : Result :=
  s.fwAction tr 0x8020 3 [1] (fun r _ =>
    if s.dlRunning then s.odEnd r 9 []
    else if s.fw.length < s.dlOffset + r.value.length then s.odEnd r 6 []
    else
      ((({ s with fw := { s.fw with buffer := r.value, next := s.dlOffset } } : State).setDlOffset (s.dlOffset + r.value.length)).flashKick).odEnd r 0 [])

/-- Function 0 owns the memory of the range. -/
def State.ownedByPf (s : State) (a n : Nat) : Bool := (List.range ((a + n - 1) / 0x200000 - a / 0x200000 + 1)).all (fun j =>
  (s.denied 0 (if j = 0 then a else (a / 0x200000 + j) * 0x200000)).isNone)

/-- DL_FROM: the remaining bytes are copied from device memory of function 0. -/
def execDlFrom (tr : Nat) (s : State) : Result :=
  s.fwAction tr 0x8020 4 [1] (fun r v =>
    let n := s.fw.length - s.dlOffset
    if s.dlRunning then s.odEnd r 9 []
    else if n = 0 ∨ !s.ownedByPf v n then s.odEnd r 6 []
    else ((({ s with fw := { s.fw with copyFrom := some v, next := s.dlOffset } } : State)).flashKick).odEnd r 0 [])

/-- DL_ABORT: the download ends. -/
def execDlAbort (tr : Nat) (s : State) : Result := s.fwAction tr 0x8020 5 [1, 2] (fun r _ => (s.downloadEnd []).odEnd r 0 [])

/-- A run of flash bytes programmed. -/
def State.program (s : State) (o : Nat) (bs : List Byte) : State :=
  { s with fw := { s.fw with flash := ((List.range bs.length).zip bs).foldl (fun m (x : Nat × Byte) => smapPut (fun _ => 0) m (o + x.1) (x.2.toNat + 1)) s.fw.flash } }

/-- A sector erased: every byte 0xFF. -/
def State.eraseSector (s : State) (o : Nat) : State := s.program o (List.replicate 65536 0xFF)

/-- A page of `bs` is programmed at the download's next offset; the image's last byte ends the download (R582). -/
def State.pageDone (s : State) (bs : List Byte) : State :=
  let s1 := (s.program (s.fw.target * 0x2000000 + s.fw.next) bs).release .flash
  let s2 := { s1 with fw := { s1.fw with next := s.fw.next + bs.length } }
  if s2.fw.next = s.fw.length then (({ s2 with fw := { s2.fw with copyFrom := none } } : State).fwSet [(6, 2)] .none)
  else s2.flashKick

/-- FLASH_OPERATION_COMPLETE: a sector erase, or a page program of the bytes sent or copied, ends; `ok`: its verification passed (R583,
R592). -/
def execFlashOperationComplete (ok : Bool) (s : State) : Result :=
  .next (
    if s.stage ≠ 1 ∨ !s.holds .flash then s
    else if !ok then s.downloadEnd [(9, 9)]
    else
      let w := s.fw
      if w.erase ≠ 0 then
        let k := (w.length + 65535) / 65536 - w.erase
        (({ (s.eraseSector (w.target * 0x2000000 + k * 65536)) with fw := {
              (s.eraseSector (w.target * 0x2000000 + k * 65536)).fw with erase := w.erase - 1 } } : State).release .flash).flashKick
      else
        let n := 256 - w.next % 256
        if !w.buffer.isEmpty then ({ s with fw := { w with buffer := w.buffer.drop n } } : State).pageDone (w.buffer.take n)
        else match w.copyFrom with
          | none => s.release .flash
          | some a =>
            let m := min n (w.length - w.next)
            (({ s with fw := { w with copyFrom := some (a + m) } } : State).setDlOffset (w.next + m)).pageDone (s.ncBytes a m))

/-! ### Verification (R584) -/

/-- The first check of R584 that a slot's image fails, 1 to 6; `len` is the LENGTH it must have. -/
def State.imageFails (s : State) (slot len : Nat) : Option Nat :=
  let f := s.imageField slot
  if f 0 4 ≠ 0x5746584C ∨ s.imageBytes slot 16 16 ≠ ascii [0x4C, 0x58, 0x34, 0x30, 0x39, 0x36] ++ List.replicate 10 0 ∨ f 32 2 % 2 = 0 then some 1
  else if f 36 4 ≠ len ∨ len < 8192 ∨ 33554432 < len then some 2
  else if s.imageBytes slot 48 48 ≠ Config.digest384 (s.imageBytes slot 4096 (len - 4096)) then some 3
  else if !Config.chainOk (s.imageBytes slot 1024 2048) then some 4
  else if !Config.signatureOk (s.imageBytes slot 1024 2048) (Config.digest384 (s.imageBytes slot 0 4000)) (s.imageBytes slot 4000 96) then some 5
  else if f 8 2 < s.fwEntry 8 then some 6
  else none

/-- VERIFY: the stage starts. -/
def execVerify (tr : Nat) (s : State) : Result := s.fwAction tr 0x8021 0 [2] (fun r _ => (s.fwSet [(6, 3)] .none).odEnd r 0 [])

/-- VERIFY_COMPLETE: the slot is VERIFIED, or stays INVALID with the check in LAST_RESULT. -/
def execVerifyComplete (s : State) : Result :=
  .next (
    if s.stage ≠ 3 ∨ s.fwBusy ∨ s.isAbsent 0 then s
    else
      let k := s.fw.target
      match s.imageFails k s.fw.length with
      | some c => s.fwSet [(2 + k, 0), (6, 0), (9, c)] .none
      | none => s.fwSet [(2 + k, 1), (4 + k, s.imageField k 4 4), (6, 4)] .none)

/-! ### Activation (R585, R586) -/

/-- The running image's blob format is one the image of slot `k` accepts. -/
def State.blobFits (s : State) (k : Nat) : Bool :=
  let o := s.imageField s.fw.running 14 2
  decide (s.imageField k 10 2 ≤ o) && decide (o ≤ s.imageField k 12 2)

/-- Activation at once is possible. -/
def State.canHandOff (s : State) (k : Nat) : Bool := s.blobFits k && !s.flowStop && !s.fatal && !s.boot.recovery

/-- ACTIVATE with value 1 (at once, R585) or 2 (at the next reset). -/
def execActivate (tr : Nat) (s : State) : Result :=
  s.fwAction tr 0x8022 1 [4] (fun r v =>
    let k := s.fw.target
    if v = 2 then (s.fwSet [(2 + k, 2), (6, 5), (7, 0)] .none).odEnd r 0 []
    else if !s.canHandOff k then s.odEnd r 0xB []
    else ({ s with fw := { s.fw with quiesce := s.ticks + 1, back := false } } : State).odEnd r 0 [])

/-- Nothing runs: the command boundary of R585. -/
def State.quiesced (s : State) : Bool := s.flights.isEmpty && s.faults.test.isNone

/-- Segmented CAN FD transfers end with TIMEOUT (R586). -/
def State.canEnd (s : State) : State :=
  let s1 := match s.jrn.canIn with
    | some x => s.canStop x
    | none => s
  { s1 with jrn := { s1.jrn with canOut := none } }

/-- Order 5 of R585: all 35 processors reset into the image of the target slot; outputs hold. -/
def State.handOff (s : State) : State :=
  let s1 := s.canEnd.authAbandon
  ({ s1 with
    absent := (List.range 35).map (fun p => (p, s.ticks))
    fw := { s1.fw with handed := true, running := s1.fw.target } } : State).setFld A.PMC_STATUS 16 16 1

/-- ACTIVATE_QUIESCED: orders 3 and 4 of R585: the blob is written, and the TRIAL batch is queued; a return after REJECT needs none. -/
def execActivateQuiesced (s : State) : Result :=
  .next (
    if s.fw.quiesce = 0 ∨ s.fw.blob ∨ !s.quiesced then s
    else
      let s1 := { s with fw := { s.fw with blob := true } }
      if s.fw.back then s1.handOff else s1.fwSet [(2 + s.fw.target, 2), (6, 5), (7, 1)] .handoff)

/-- QUIESCE_TIMEOUT: the command boundary has not been reached within QUIESCE_MAX ms; the activation is abandoned. -/
def execQuiesceTimeout (s : State) : Result :=
  .next (
    if s.fw.quiesce = 0 ∨ s.fw.blob ∨ s.quiesced ∨ s.ticks + 1 < s.fw.quiesce + 1000 * s.odNat 0x8023 2 200 then s
    else ({ s with fw := { s.fw with quiesce := 0 } } : State).fwSet [(9, 7)] .none)

/-- What waited for absent processors goes on: queue actions, trace flushes, authentications, held steps (R372, R505, R576). -/
def State.backTo (s : State) : State :=
  let s1 := if s.isAbsent 2 then s else s.runDeferred
  let s2 := (s1.tel.flushWait.filter (fun k => !s1.isAbsent (3 + k))).foldl State.traceFlush s1
  let s2 := { s2 with tel := { s2.tel with flushWait := s2.tel.flushWait.filter (fun k => s2.isAbsent (3 + k)) } }
  let s3 := if s2.isAbsent 0 then s2 else s2.authAgain
  if s3.held then s3 else (List.range 4).foldl State.stepAdvance (s3.setFld A.PMC_STATUS 16 16 0)

/-- HANDOFF_RESUME: the new image takes up the blob (`ok`) and resumes grants, orders 6; or it refuses the blob, a failed trial boot: it
stays held until R505 acts (R586). -/
def execHandoffResume (ok : Bool) (s : State) : Result :=
  .next (
    if !s.fw.handed ∨ s.power.clocksOff then s
    else if !ok then ({ s with fw := { s.fw with handed := false } } : State).fwSet [(9, 10)] .none
    else
      let s1 := { s with
        absent := []
        fw := { s.fw with quiesce := 0, blob := false, handed := false, trialSince := if s.fw.back then 0 else s.ticks + 1, healthy := true } }
      (s1.backTo.newContract 1).refreshHeads)

/-! ### Confirmation (R587) -/

/-- The CONFIRMED record. -/
def State.confirm (s : State) : State :=
  let k := s.trialSlot
  ({ s with fw := { s.fw with trialSince := 0 } } : State).fwSet
    [(1, k), (2 + k, 3), (2 + (1 - k), 4), (6, 0), (7, 0), (8, s.imageField k 8 2)] .none

/-- CONFIRM; RANGE outside TRIAL (R592). -/
def execConfirm (tr : Nat) (s : State) : Result :=
  s.odAction tr (fun i b => i == 0x8022 && b == 2) (fun r _ =>
    if s.stage ≠ 5 then s.odEnd r 6 [] else if s.fwBusy then s.odEnd r 9 [] else s.confirm.odEnd r 0 [])

/-- AUTO_CONFIRM: CONFIRM_MIN healthy minutes of the trial have passed. -/
def execAutoConfirm (s : State) : Result :=
  .next (
    let m := s.odNat 0x8023 1 60
    if s.stage ≠ 5 ∨ s.fwBusy ∨ m = 0 ∨ s.fw.trialSince = 0 ∨ !s.fw.healthy ∨ s.fatal ∨ s.isAbsent 0 ∨ s.ticks + 1 < s.fw.trialSince + 60000000 * m then s
    else s.confirm)

/-- REJECT during TRIAL: the trial slot becomes REJECTED, the other ACTIVE; then the return to it. -/
def execReject (tr : Nat) (s : State) : Result :=
  s.fwAction tr 0x8022 3 [5] (fun r _ =>
    let k := s.trialSlot
    (({ s with fw := { s.fw with trialSince := 0 } } : State).fwSet [(1, 1 - k), (2 + k, 5), (2 + (1 - k), 3), (6, 0), (7, 0)] .reject).odEnd r 0 [])

/-- After the REJECT batch: the other slot is activated at once when its blob formats allow, else at the next reset. -/
def State.rejectBack (s : State) : State :=
  let k := if s.slotState 0 = 3 then 0 else 1
  if s.fw.running = k ∨ !s.canHandOff k then s
  else { s with fw := { s.fw with target := k, quiesce := s.ticks + 1, back := true } }

/-! ### Watchdogs (R576) -/

/-- What the security core's reset loses: requests not yet being written get no result, authentications start again, a download ends (R372, R548,
R583). -/
def State.securityLost (s : State) : State :=
  let front := if s.jrn.busy = 1 then s.jrn.batches.take 1 else []
  let rest := (if s.jrn.busy = 1 then s.jrn.batches.drop 1 else s.jrn.batches).filter (fun b => b.exempt)
  let s1 : State := { s with jrn := { s.jrn with
    batches := front.map (fun b => { b with answers := none }) ++ rest, requests := [], canIn := none, canOut := none } }
  let s2 := s1.authAbandon
  if s.stage = 1 ∨ s.stage = 2 then s2.downloadEnd [] else s2

/-- WATCHDOG_RESET of processor p: 0 security, 1 power-management, 2 scheduler, 3 + k cluster control core k. It is absent until it returns;
a FIRMWARE event is written, and a trial period is no longer healthy (R505, R576, R587). -/
def execWatchdogReset (p : Nat) (s : State) : Result :=
  onUnit (decide (p < 35)) <|
    if s.isAbsent p ∨ s.power.tripped then s
    else
      let s1 := { s with
        absent := s.absent ++ [(p, s.ticks)]
        fw := { s.fw with healthy := false } }
      let s2 := if s1.held then s1.setFld A.PMC_STATUS 16 16 1 else s1
      (if p = 0 then s2.securityLost else s2).fwEvent 1 s.fw.running p

/-- PROCESSOR_RETURN: processor p runs again; what waited for it goes on. The clocks a longer absence has stopped stay off (R505). -/
def execProcessorReturn (p : Nat) (s : State) : Result :=
  onUnit (decide (p < 35)) <|
    if !s.isAbsent p ∨ s.fw.handed then s else ({ s with absent := s.absent.filter (fun x => x.1 != p) } : State).backTo

end Sys2Proof.Machine
end

