-- ==== Sys2Proof/Machine/Tiers.lean ====
section
/-!
DEFINITION. The memory tiers' own commands (R258 to R281, R466): patrol scrub and bank sparing, cache-part actions, stack states, hot channels, the
traffic generators, channel retrains and error check and scrub.
-/

namespace Sys2Proof.Machine

/-! ### Contents that the spec leaves unspecified (R273) -/

/-- `n` bytes from `a` take free values. -/
def State.freeBytes (s : State) (a n : Nat) : State :=
  let new : List Host.Cell := (List.range n).filterMap (fun i =>
    if Config.freeByte (s.free + i) = 0 then none else some (a + i, Config.freeByte (s.free + i)))
  { s with
    free := s.free + n
    mem := s.mem.filter (fun c => decide (c.1 < a)) ++ new ++ s.mem.filter (fun c => decide (a + n ≤ c.1)) }

/-- The seals of a range's blocks take free values. -/
def State.freeSeals (s : State) (a n : Nat) : State :=
  (blocksOf a n).foldl (fun t b => let (k, t1) := t.draw; t1.setSyndrome b ((Config.freeWord k).setWidth 32)) s

/-! ### Fast-tier banks (R258, R259) -/

/-- A bank's unit number in records. -/
def bankUnit (die bank : Nat) : Nat := 256 * die + bank

/-- The bank is retired when a spare is free: a BANK_RETIRE record, and the new bank map persistent before the copy (R259). -/
def State.retireBank (s : State) (die bank : Nat) : State :=
  match (List.range 8).find? (fun j => smapGet (fun _ => 0) s.tiers.bankMap (8 * die + j) = 0) with
  | none => s
  | some j =>
    let s1 := ((s.count (A.MEM_FT die 0x18)).record { cls := 1, cause := 0x0B, unitKind := 5, unit := bankUnit die bank })
    let s2 := { s1 with tiers := { s1.tiers with
        bankMap := smapPut (fun _ => 0) s1.tiers.bankMap (8 * die + j) (bank + 1)
        bankCe := smapPut (fun _ => []) s1.tiers.bankCe (bankUnit die bank) []
        bankUe := smapPut (fun _ => 0) s1.tiers.bankUe (bankUnit die bank) 0 } }
    s2.persist (exemptBatch [(0x4021, 0, some s2.bankMapBytes)] (.bankCopy die j))

/-- A corrected word at die offset `off` (R258, R461): counted, recorded as the first of its unit, and the bank retired beyond
BANK_CE_RETIRE in an hour. -/
def State.fastCorrected (s : State) (die off : Nat) : State :=
  let u := bankUnit die (fastBank off)
  let l := (s.ticks :: smapGet (fun _ => []) s.tiers.bankCe u).filter (fun b => decide (s.ticks < b + 3600000000))
  let s1 := ({ s with tiers := { s.tiers with bankCe := smapPut (fun _ => []) s.tiers.bankCe u l } } : State).count (A.MEM_FT die 0)
  let s2 := s1.record { cls := 0, cause := 1, unitKind := 5, unit := u }
  if s.odNat 0x4020 2 256 < l.length then s2.retireBank die (fastBank off) else s2

/-- An uncorrectable word at die offset `off` met by the scrubber (R271): its block is void, a record without a command is written, and the
bank retired at its second within 24 hours. -/
def State.fastUncorrectable (s : State) (die off : Nat) : State :=
  let u := bankUnit die (fastBank off)
  let a := fastBase + die * dieFast + off
  let last := smapGet (fun _ => 0) s.tiers.bankUe u
  let s1 := ((s.voidBlock (blockOf a)).count (A.MEM_FT die 8)).record
    { cls := 1, cause := 2, unitKind := 13, fn := s.granOwner a, addr := a, closeNow := true }
  let s2 := { s1 with tiers := { s1.tiers with bankUe := smapPut (fun _ => 0) s1.tiers.bankUe u (s.ticks + 1) } }
  if last ≠ 0 ∧ s.ticks < last + 86400000000 then s2.retireBank die (fastBank off) else s2

/-- SCRUB_PASS: the patrol of die k ends a pass, once per SCRUB_HOURS; die offsets of the words it corrected and found uncorrectable. -/
def execScrubPass (k : Nat) (corrected lost : List Nat) (s : State) : Result :=
  onUnit (decide (k < 4)) <|
    if !s.due (32 + k) (3600000000 * s.odNat 0x4020 1 4) ∨ !s.holds (.scrub k) ∨ !(corrected ++ lost).all (fun o => decide (o < dieFast)) then s
    else
      let s1 := corrected.foldl (fun t o => t.fastCorrected k o) (s.ran (32 + k))
      (lost.foldl (fun t o => t.fastUncorrectable k o) s1).count (A.MEM_FT k 0x10)

/-- BANK_COPY_COMPLETE: the copy into a spare of die k ends; blocks with uncorrectable words are copied with the void seal, and the record is
closed (R259, R464). -/
def execBankCopyComplete (k j : Nat) (s : State) : Result :=
  onUnit (decide (k < 4) && decide (j < 8)) <|
    match s.tiers.copies.find? (fun c => c.die == k && c.spare == j) with
    | none => s
    | some c =>
      let bad := s.tiers.badWords.filter (fun a => match regionOf a with
        | .fast die off => die == k && fastBank off == c.bank
        | _ => false)
      let s1 := { s with tiers := { s.tiers with
          copies := s.tiers.copies.filter (fun (x : BankCopy) => !(x.die == k && x.spare == j))
          badWords := s.tiers.badWords.filter (fun a => !bad.contains a) } }
      (s1.voidBlocks (bad.map blockOf).eraseDups).closeRecords (fun r => r.cause == 0x0B && r.unit == bankUnit k c.bank)

/-! ### Cache parts (R260 to R262, R276) -/

/-- The entry written for part (f, k). -/
def State.partEntry (s : State) (f k : Nat) : CachePart :=
  { enable := s.fld (A.PART f k 0) 63 63 == 1, count := s.fld (A.PART f k 0) 11 0, first := s.fld (A.PART f k 1) 11 0 }

/-- An entry that APPLY refuses (R276). -/
def State.partInvalid (s : State) (f k : Nat) (p : CachePart) : Bool :=
  p.enable && decide (0 < p.count) && (decide (4088 < p.first + p.count)
    || (List.range p.count).any (fun j => s.granuleOwner 1 (k * 4088 + p.first + j) != f)
    || s.tiers.parts.any (fun x => x.1 != 4 * f + k && x.1 % 4 == k && x.2.enable && rangesMeet x.2.first x.2.count p.first p.count))

/-- A write of MEM_FCP_CTL with ACTION APPLY or FLUSH; ignored while BUSY. An APPLY of an invalid entry sets FCP_ERR and leaves the old part. -/
def State.partStart (s : State) (f k : Nat) (apply : Bool) : State :=
  if !s.reaches 0 ∨ s.tiers.partAction.isSome then s
  else
    let s1 := (s.setFld A.MEM_FCP_CTL 24 16 f).setFld A.MEM_FCP_CTL 13 12 k
    if apply && s.partInvalid f k (s.partEntry f k) then s1.setFld A.MEM_GCTL 3 3 1
    else ({ s1 with tiers := { s1.tiers with partAction := some { fn := f, die := k, apply := apply } } } : State).setFld A.MEM_FCP_CTL 31 31 1

def execApply (f k : Nat) (s : State) : Result := onUnit (decide (f < 512) && decide (k < 4)) (s.partStart f k true)
def execFlush (f k : Nat) (s : State) : Result := onUnit (decide (f < 512) && decide (k < 4)) (s.partStart f k false)

/-- Every dirty line of part `pk` is written back, counted on its die and pseudo-channel. -/
def State.partWriteback (s : State) (pk : Nat) : State :=
  let mine (e : Nat × List PartLine) : Bool := e.1 / 2 ^ 24 == pk
  let dirty := (s.tiers.partSets.filter mine).flatMap (fun e => e.2.filter PartLine.dirty)
  let s1 := dirty.foldl (fun t l => (t.count (A.MEM_FT (pk % 4) 0x30)).count (A.TG (t.pcOf (l.line * 256)) 0xC8)) s
  { s1 with tiers := { s1.tiers with partSets := s1.tiers.partSets.map (fun (e : Nat × List PartLine) =>
      if mine e then (e.1, e.2.map (fun l => { l with dirty := false })) else e) } }

/-- Granules of an enabled part, by device address. -/
def partGranules (k : Nat) (p : CachePart) : List Nat :=
  if p.enable then (List.range p.count).map (fun j => granAddr 1 (k * 4088 + p.first + j)) else []

/-- A part is installed in place of the old one, empty; granules that are scratch again hold unspecified contents (DESIGN CHOICE, log 30). -/
def State.partInstall (s : State) (f k : Nat) (p : CachePart) : State :=
  let pk := 4 * f + k
  let old := partGranules k (s.part f k)
  let s1 := s.partWriteback pk
  let s2 := { s1 with tiers := { s1.tiers with
      partSets := smapDrop (fun key => key / 2 ^ 24 == pk) s1.tiers.partSets
      parts := smapPut (fun _ => CachePart.init) s1.tiers.parts pk p } }
  (old.filter (fun a => !(partGranules k p).contains a)).foldl (fun t a => (t.freeBytes a 0x200000).freeSeals a 0x200000) s2

/-- FCP_ACTION_DONE: the action in progress finishes and BUSY clears. -/
def execFcpActionDone (s : State) : Result :=
  .next (match s.tiers.partAction with
    | none => s
    | some x =>
      let s1 := ({ s with tiers := { s.tiers with partAction := none } } : State).setFld A.MEM_FCP_CTL 31 31 0
      if x.apply then s1.partInstall x.fn x.die (s1.partEntry x.fn x.die) else s1.partWriteback (4 * x.fn + x.die))

/-! ### Stacks (R268) -/

/-- State of a stack at a reading in degrees: 0 NORMAL, 1 REFX2, 2 HALF, 3 STOP, with the exit thresholds. -/
def nextStack (st t : Nat) : Nat :=
  if 105 ≤ t ∨ (st = 3 ∧ 102 ≤ t) then 3
  else if 95 ≤ t ∨ (2 ≤ st ∧ 92 ≤ t) then 2
  else if 85 ≤ t ∨ (1 ≤ st ∧ 82 ≤ t) then 1 else 0

/-- Rail of a stack's core supply, and of its interface supply (R474). -/
def hbcRail (k : Nat) : Nat := 8 + k / 3
def hbqRail (k : Nat) : Nat := 12 + k / 3

/-- The stack's refresh is booked at 1.5 A, or 3.0 A with the interval halved; PERMANENT (R483). -/
def State.bookRefresh (s : State) (k st : Nat) : State := (s.release (.refresh k)).askSys (hbcRail k) (if st = 0 then 150 else 300) none true (.refresh k)

/-- The stack's traffic, HELD on both rails except in STOP. -/
def State.bookStack (s : State) (k st : Nat) : State :=
  if st = 3 then s.release (.stack k)
  else if s.holds (.stack k) || s.esc.waiting.any (fun q => decide (q.owner = .stack k)) then s
  else (s.askSys (hbcRail k) 1800 none false (.stack k)).askSys (hbqRail k) 1800 none false (.stack k)

/-- One stack takes a reading. -/
def State.stackReading (s : State) (k t : Nat) : State :=
  let old := s.fld (A.STK k) 1 0
  let st := nextStack old t
  let s1 := (s.setFld (A.STK k) 15 8 (min 255 t)).setFld (A.STK k) 1 0 st
  let s2 := if decide (old = 0) ≠ decide (st = 0) then s1.bookRefresh k st else s1
  let s3 := if decide (old = 3) ≠ decide (st = 3) then s2.bookStack k st else s2
  if 2 ≤ st ∧ old < st then s3.event 7 [(k, 1), (st, 1), (min 255 t, 1)] else s3

/-- HBM_TEMP_READING: the twelve stacks' hottest sensors, every 1 ms. -/
def execHbmTempReading (temps : List Nat) (s : State) : Result :=
  .next (if temps.length ≠ 12 ∨ !s.due 5 1000 ∨ s.boot.step < 7 ∨ s.power.tripped then s
    else
      let s1 := ((List.range 12).zip temps).foldl (fun t (x : Nat × Nat) => t.stackReading x.1 x.2) (s.ran 5)
      { s1 with tel := { s1.tel with hbmPeak := max s1.tel.hbmPeak (temps.foldl max 0) } })

/-! ### Hot channels (R269) -/

/-- One beat in which the pseudo-channels of `hot` were hot: counters and runs. -/
def State.hotBeat (s : State) (hot : List Nat) : State :=
  let h := hot.filter (fun c => decide (c < 768))
  let s1 := h.foldl (fun t c => t.count (A.TG c 0xF0)) s
  { s1 with tiers := { s1.tiers with
      hotRun := h.foldl (fun m c => smapPut (fun _ => 0) m c (smapGet (fun _ => 0) s1.tiers.hotRun c + 1)) []
      coolRun := (s1.tiers.openHot.map Prod.fst).foldl (fun m c =>
        smapPut (fun _ => 0) m c (if h.contains c then 0 else smapGet (fun _ => 0) s1.tiers.coolRun c + 1)) []
      openHot := s1.tiers.openHot.map (fun (e : Nat × Nat) => if h.contains e.1 then (e.1, e.2 + 1) else e) } }

/-- HOT_CHANNEL: an episode of pseudo-channel c opens after 1,000 hot beats with HOT_EN, or closes after 1,000 cool ones; no event is raised with
HOT_EN = 0. -/
def execHotChannel (c : Nat) (s : State) : Result :=
  onUnit (decide (c < 768)) <|
    let run := smapGet (fun _ => 0) s.tiers.hotRun c
    match s.tiers.openHot.find? (fun e => e.1 == c) with
    | some e =>
      if smapGet (fun _ => 0) s.tiers.coolRun c < 1000 then s
      else
        let s1 := { s with tiers := { s.tiers with openHot := s.tiers.openHot.filter (fun x => x.1 != c) } }
        let s2 := s1.setFld A.MEM_HOT_STATUS 25 16 s1.tiers.openHot.length
        if s.fld A.MEM_GCTL 1 1 = 0 then s2 else s2.event 6 [(c, 2), (0, 1), (e.2, 8)]
    | none =>
      if run < 1000 ∨ s.fld A.MEM_GCTL 1 1 = 0 then s
      else
        let s1 := { s with tiers := { s.tiers with openHot := s.tiers.openHot ++ [(c, run)] } }
        (((s1.setFld A.MEM_HOT_STATUS 41 32 c).setFld A.MEM_HOT_STATUS 25 16 s1.tiers.openHot.length).setFld A.MEM_HOT_STATUS 0 0 1).event 6
          [(c, 2), (1, 1), (run, 8)]

/-! ### Traffic generators (R272, R273, R279, R280) -/

/-- TEST_MODE written with `v`: 1 only with every virtual function disabled and no queue of the physical function enabled. -/
def execTestMode (v : Nat) (s : State) : Result :=
  onUnit (decide (v < 2)) <|
    if !s.reaches 0 then s
    else if v = 1 ∧ ((List.range 512).any (fun f => f != 0 && s.fnEnabled f) ∨ s.queues.any (fun q => s.ownsQueue 0 q.1 && q.2.state == 1)) then
      s.setFld A.MEM_GCTL 2 2 1
    else s.setFld A.MEM_GCTL 0 0 v

/-- START: a write of `val` to MEM_TG_CTL of pseudo-channel c with START = 1. -/
def execStart (c val : Nat) (s : State) : Result :=
  onUnit (decide (c < 768)) <|
    if !s.reaches 0 ∨ s.fld (A.TG c 0x18) 0 0 = 1 then s
    else
      let s1 := s.setReg (A.TG c 0) (setBits (setBits (setBits (setBits (setBits 0 63 32 (bitsOf val 63 32)) 23 16 (bitsOf val 23 16)) 11 8 (bitsOf val 11 8)) 7 6
        (bitsOf val 7 6)) 2 2 (bitsOf val 2 2))
      if s.fld A.MEM_GCTL 0 0 = 0 ∨ 4 ≤ bitsOf val 11 8 then s1.setFld A.MEM_GCTL 2 2 1
      else
        let s2 := (List.range 16).foldl (fun t e => t.setReg (A.TG c (0x40 + 8 * e)) 0) (s1.setReg (A.TG c 0x18) 1)
        s2.askSys (hbcRail (c / 64)) 40 none false (.tg c)

/-- STOP: the generator of pseudo-channel c stops at the next 32 B boundary. -/
def execStop (c : Nat) (s : State) : Result :=
  onUnit (decide (c < 768)) <|
    if !s.reaches 0 ∨ s.fld (A.TG c 0x18) 0 0 = 0 ∨ s.tiers.tgStop.contains c then s
    else { s with tiers := { s.tiers with tgStop := c :: s.tiers.tgStop } }

/-- Device address of the 512 B unit at offset q of pseudo-channel c: the inverse of R264. -/
def unlocate (key c q : Nat) : Nat :=
  let h := mix64n (q ^^^ key)
  (256 * (3 * q + (c / 256 + 3 - (h / 2 ^ 32) % 3) % 3) + ((c % 256) ^^^ (h % 256))) * 512

/-- The generator of pseudo-channel c works on offset q: a bank of its mask, a row of its range (R265, R279). -/
def State.tgCovers (s : State) (c q : Nat) : Bool :=
  let (g, b, _, row) := rowPlace q
  let first := s.fld (A.TG c 8) 13 0
  bitOf (s.reg (A.TG c 0x10)) (4 * g + b) && decide (first ≤ row) && decide (row < first + zeroAs 16384 (s.fld (A.TG c 8) 29 16))

/-- The data of the generator's range is destroyed (R272): contents and seals are unspecified. -/
def State.tgDestroy (s : State) (c : Nat) : State :=
  (List.range 2097152).foldl (fun t q =>
    if s.tgCovers c q then (t.freeBytes (unlocate s.hashKey c q) 512).freeSeals (unlocate s.hashKey c q) 512 else t) s

/-- One mismatch (bank, row, segment, word, expected xor read) enters the log, or sets OVF past 16 entries (R273, R280). -/
def State.tgMismatch (s : State) (c : Nat) (m : TgMismatch) : State :=
  let n := s.fld (A.TG c 0x18) 8 4
  let s1 := (s.setFld (A.TG c 0x18) 63 32 (min (2 ^ 32 - 1) (s.fld (A.TG c 0x18) 63 32 + 1)))
  if n < 16 then
    (s1.setReg (A.TG c (0x40 + 8 * n)) (2 ^ 63 + m.bank % 64 * 2 ^ 56 + m.row % 16384 * 2 ^ 42 + m.seg % 32 * 2 ^ 37 + m.word % 8 * 2 ^ 34 + m.diff % 2 ^ 32)).setFld
      (A.TG c 0x18) 8 4 (n + 1)
  else s1.setFld (A.TG c 0x18) 3 3 1

/-- TG_DONE: a pass of the generator of pseudo-channel c ends with the mismatches it met; without LOOP, or told to stop, the run ends. -/
def execTgDone (c : Nat) (mism : List TgMismatch) (s : State) : Result :=
  onUnit (decide (c < 768)) <|
    if s.fld (A.TG c 0x18) 0 0 = 0 ∨ !s.holds (.tg c) then s
    else
      let s1 := mism.foldl (fun t m => t.tgMismatch c m) s
      if s.fld (A.TG c 0) 2 2 = 1 ∧ !s.tiers.tgStop.contains c then s1
      else
        let s2 := ((s1.release (.tg c)).tgDestroy c)
        let s3 := { s2 with tiers := { s2.tiers with tgStop := s2.tiers.tgStop.filter (fun x => x != c) } }
        (((s3.setFld (A.TG c 0x18) 0 0 0).setFld (A.TG c 0x18) 1 1 1).setFld (A.TG c 0x18) 2 2 (if s3.fld (A.TG c 0x18) 63 32 = 0 then 0 else 1)).raiseVector
          0 2

/-! ### Channel retrains, error check and scrub (R271, R466) -/

/-- PC_RETRAIN_COMPLETE: the retrain of pseudo-channel c ends. Commands whose requests were in flight on it (`hit`) end with FAULT_LOST; the
third failure in a row fences the channel. -/
def execPcRetrainComplete (c : Nat) (ok : Bool) (hit : List (Nat × Nat)) (s : State) : Result :=
  onUnit (decide (c < 768)) <|
    let n := smapGet (fun _ => 0) s.tiers.pcFails c + 1
    let s1 := { s with tiers := { s.tiers with pcFails := smapPut (fun _ => 0) s.tiers.pcFails c (if ok then 0 else n) } }
    let s2 := s1.endFlights (fun f => hit.any (fun x => x.1 == f.queue && x.2 == f.index)) 3 (s.reg A.ERR_WR)
    if ok then s2.record { cls := 1, cause := 0x0A, unitKind := 4, unit := c, closeNow := true }
    else if n = 3 then s2.record { cls := 3, cause := 0x0D, unitKind := 4, unit := c }
    else s2

/-- ERROR_CHECK_AND_SCRUB: the stack's own scrub finds the word at capacity address `a` uncorrectable. -/
def execErrorCheckAndScrub (a : Nat) (s : State) : Result :=
  onUnit (decide (a < capEnd)) <|
    ((s.voidBlock (blockOf a)).count (A.TG (s.pcOf a) 0xD8)).record
      { cls := 1, cause := 2, unitKind := 13, fn := s.granOwner a, addr := a, closeNow := true }

end Sys2Proof.Machine
end

