-- ==== Sys2Proof/Machine/Faults.lean ====
section
/-!
DEFINITION. Retirement of physical slots (R19 to R24), in-field tests (R455 to R460), hangs, plausibility failures (R453, R454), the test and
diagnostic commands (R467), and the end of a batch of the persistence queue (R538).
-/

namespace Sys2Proof.Machine

/-! ### Slots -/

/-- Key of a physical slot. -/
def slotKey (k slot : Nat) : Nat := 17 * k + slot

def State.modSlot (s : State) (k slot : Nat) (f : SlotData → SlotData) : State :=
  { s with faults := { s.faults with slots := smapPut (fun _ => SlotData.init) s.faults.slots (slotKey k slot) (f (s.slotData (slotKey k slot))) } }

/-- A slot is retired (R22). -/
def State.slotRetired (s : State) (k slot : Nat) : Bool := bitOf (s.mapWord k) slot

/-- The logical core that a healthy slot serves (R19, R22). -/
def State.coreOfSlot (s : State) (k slot : Nat) : Option Nat :=
  if s.slotRetired k slot then none
  else if slot < 16 then some (16 * k + slot)
  else if bitOf (s.mapWord k) 19 then some (16 * k + bitsOf (s.mapWord k) 23 20)
  else none

/-- Beats between passed tests: DEADLINE (R470). -/
def State.iftDeadline (s : State) : Nat :=
  let d := s.fld A.IFT_CFG 63 48
  1000000 * (if 60 ≤ d ∧ d ≤ 600 then d else 600)

/-- Beats to a diagnostic test: DIAG_DUE. -/
def State.diagDue (s : State) : Nat := 1000 * zeroAs 1000 (s.fld A.IFT_CFG 47 32)

/-- HANG_US, in beats. -/
def State.hangBeats (s : State) : Nat :=
  let h := s.fld A.IFT_CFG 31 24
  if 4 ≤ h ∧ h ≤ 16 then h else 8

/-- The slot's test falls due within DIAG_DUE (R453, R459, R460). -/
def State.bringDue (s : State) (k slot : Nat) : State := s.modSlot k slot (fun d => { d with due := min d.due (s.beat + s.diagDue) })

/-! ### Retirement (R19 to R24, R458) -/

/-- The map word after a slot is retired: the healthy unassigned spare takes the logical core, else the core is unavailable. -/
def mapAfter (w slot : Nat) : Nat :=
  if slot < 16 then
    let w1 := setBits (setBits w slot slot 1) 18 18 1
    if !bitOf w 19 && !bitOf w 16 then setBits (setBits w1 19 19 1) 23 20 slot else setBits w1 17 17 1
  else if bitOf w 19 then setBits (setBits (setBits w 16 16 1) 17 17 1) 18 18 1
  else setBits w 16 16 1

/-- What the loss of its slot takes from logical core c: the generator states (R208), threads, scratchpad side state and armed injections
(R467). Its spare is in C3. -/
def State.loseCore (s : State) (c : Nat) : State :=
  let x := s.core c
  let s1 := s.setCore c { Core.init with vprog := x.vprog, nextGroup := x.nextGroup, streamN := x.streamN, pfBlocks := x.pfBlocks, idleSince := s.ticks }
  let s2 := (((s1.setFld (A.RNG c 8) 1 1 0).setFld (A.RNG c 8) 0 0 0).setFld (A.PMCC c 8) 3 0 3).release (.base c)
  { s2 with faults := { s2.faults with armed := s2.faults.armed.filter (fun (a : Injection) => a.core != c || a.kind == 1 || a.kind == 4) } }

/-- Waiting commands of a tenant whose last core has become unavailable (R20). -/
def State.endWaiting (s : State) (f seq : Nat) : State :=
  if (List.range Config.cores).any (fun c => s.fnOfCore c == some f && !s.unavailable c) then s
  else
    let qs := s.queues.filter (fun kv => s.ownsQueue f kv.1)
    let s1 := qs.foldl (fun t kv => kv.2.fetched.foldl (fun u (h : Fetched) => (u.dropPre kv.1 h.index).endUngranted kv.1 h.index h.bytes 3 seq) t) s
    { s1 with queues := s1.queues.map (fun kv => if qs.any (fun x => x.1 == kv.1) then (kv.1, { kv.2 with fetched := [] }) else kv) }

/-- A slot is retired (R23), named by record `seq`: commands in flight on it end; the map word is updated, its write exempt from the rate
limit (R541); the spare's own test falls due (R460). -/
def State.retireSlot (s : State) (k slot seq : Nat) : State :=
  if s.slotRetired k slot then s
  else
    let old := s.mapWord k
    let new := mapAfter old slot
    let s1 := match s.coreOfSlot k slot with
      | some c => (s.endFlights (fun x => x.core == c) 3 seq).loseCore c
      | none => s
    let s2 := ({ s1 with faults := { s1.faults with unitMap := smapPut (fun _ => 0) s1.faults.unitMap k new } } : State).count (A.IFT 0x38)
    let s3 := match s.coreOfSlot k slot with
      | some c =>
        if s2.unavailable c then
          match s.fnOfCore c with
          | some f => s2.endWaiting f seq
          | none => s2
        else
          ({ s2 with faults := { s2.faults with spareWaking := k :: s2.faults.spareWaking.filter (fun x => x != k) } } : State).bringDue k 16
      | none => s2
    let s4 := (s3.event 0x0D [(k, 1), (old, 4), (new, 4)]).newContract 0
    (s4.persist (exemptBatch [(0x6010, 0, some s4.mapBytes)] (.spare k))).refreshHeads

/-- SPARE_READY: the woken spare of cluster k takes the logical index and accepts commands (R23); the record of the failure is closed. -/
def execSpareReady (k : Nat) (s : State) : Result :=
  onUnit (decide (k < 32)) <|
    let c := 16 * k + bitsOf (s.mapWord k) 23 20
    if !s.faults.spareWaking.contains k ∨ s.cstate c ≠ 0 ∨ s.waking c then s
    else
      (({ s with faults := { s.faults with spareWaking := s.faults.spareWaking.filter (fun x => x != k) } } : State).closeRecords
        (fun r => r.cause == 6 && r.unit == c)).refreshHeads

/-! ### Plausibility failures (R453, R454) -/

/-- Cube `cube` of the core of flight `fl` fails: the range check, the checksum check or both in one command; `detail` is R463's. Answers
the record's SEQ. The second command within an hour retires the slot; an injected failure counts toward nothing. -/
def State.plsFail (s : State) (fl : Flight) (cube : Nat) (range sum injected : Bool) (detail : Nat) : State × Nat :=
  let c := fl.core
  let k := c / 16
  let slot := s.slotOf c
  let seq := s.reg A.ERR_WR
  let d := s.slotData (slotKey k slot)
  let first := smapGet (fun _ => 0) d.firstFail cube
  let again := !injected && decide (first ≠ 0) && decide (s.ticks + 1 ≤ first + 3600000)
  let s1 := s.record
    { cls := 1, cause := if range then 4 else 5, unitKind := 2, slot := slot, unit := 8 * c + cube, fn := fl.fn, queue := fl.queue, index := fl.index
      detail := detail, injected := injected }
  let s2 := (s1.modSlot k slot (fun d => { d with
      plsCube := smapPut (fun _ => 0) d.plsCube cube (min 255 (smapGet (fun _ => 0) d.plsCube cube + 1))
      plsRange := counterAdd d.plsRange (b2n range)
      plsSum := counterAdd d.plsSum (b2n sum)
      firstFail := if injected || again then d.firstFail else smapPut (fun _ => 0) d.firstFail cube (s.ticks + 1) })).bringDue k slot
  (if again then s2.retireSlot k slot seq else s2, seq)

/-! ### In-field tests (R455 to R458) -/

/-- IFT_STATUS.OVERDUE: tests forced and waiting. -/
def State.showOverdue (s : State) : State := s.setFld A.IFT_STATUS 9 0 (s.faults.waiting.filter FieldTest.forced).length

/-- A test starts: its current is asked for, the core's queues are held, its stationary tile and prefetch buffer go, and it is woken. -/
def State.testStart (s : State) (t : FieldTest) : State :=
  let s1 := { s with faults := { s.faults with test := some t } }
  let s2 := (((s1.setFld A.IFT_STATUS 40 40 1).setFld A.IFT_STATUS 36 32 t.slot).setFld A.IFT_STATUS 20 16 t.cluster).askSys (t.cluster / 8) 500 (some 182)
    false .test
  match s.coreOfSlot t.cluster t.slot with
  | some c => (s2.modCore c (fun x => { x with testHold := true, tile := none, pfBuf := [] })).coreWake c 4
  | none => s2

/-- The scheduler core starts no test: it is absent, or an activation has passed its command boundary (R576, R585). -/
def State.testsWait (s : State) : Bool := s.isAbsent 2 || s.fw.blob

/-- The forced test in front (R457): nothing more is granted to its core, and it starts when the commands running there have completed. -/
def State.forceNext (s : State) : State :=
  match s.faults.test, s.faults.waiting with
  | none, t :: rest =>
    let s1 := ({ s with faults := { s.faults with waiting := rest } } : State).showOverdue
    if s.slotRetired t.cluster t.slot then
      match t.cmd with
      | some (q, i) => s1.endFlight q i 0 2
      | none => s1
    else if s.testsWait then s
    else match s.coreOfSlot t.cluster t.slot with
      | some c =>
        if s.flights.any (fun f => f.core == c && !(t.cmd == some (f.queue, f.index))) then s.modCore c (fun x => { x with testHold := true })
        else s1.testStart t
      | none => s1.testStart t
  | _, _ => s

/-- A slot that the scheduler may test now (R456): healthy, its core idle, no ready head for it, no not-before beat within 250 beats. -/
def State.idleSlot (s : State) (k slot : Nat) : Bool :=
  !s.slotRetired k slot &&
    (match s.coreOfSlot k slot with
     | none => true
     | some c =>
       s.idle c && !s.queues.any (fun kv => kv.2.core == c && (kv.2.readyHead.isSome || kv.2.fetched.any (fun h =>
         let nb := fieldAt h.bytes 4 4
         decide (nb ≠ 0) && decide (modSub 32 nb s.beat ≤ 250)))))

/-- The idle slot whose test falls due first, the lowest of those. -/
def State.firstDue (s : State) : Option Nat :=
  ((List.range 544).filter (fun n => s.idleSlot (n / 17) (n % 17))).foldl (fun (b : Option Nat) n =>
    match b with
    | none => some n
    | some m => if (s.slotData n).due < (s.slotData m).due then some n else b) none

/-- IFT_START: the scheduler starts the test of the idle slot that is due first, one at a time. -/
def execIftStart (s : State) : Result :=
  .next (if s.testsWait ∨ s.faults.test.isSome ∨ !s.faults.waiting.isEmpty then s
    else match s.firstDue with
      | some n => s.testStart { cluster := n / 17, slot := n % 17, cmd := none, forced := false }
      | none => s)

/-- Forced tests in order of due beat, lowest slot first; a test that IFT_RUN asks for goes first. -/
def State.insertForced (s : State) (t : FieldTest) : List FieldTest → List FieldTest
  | [] => [t]
  | u :: us =>
    let before := t.cmd.isSome || (u.cmd.isNone &&
      (decide ((s.slotData (slotKey t.cluster t.slot)).due < (s.slotData (slotKey u.cluster u.slot)).due) ||
        (decide ((s.slotData (slotKey t.cluster t.slot)).due = (s.slotData (slotKey u.cluster u.slot)).due) &&
          decide (slotKey t.cluster t.slot < slotKey u.cluster u.slot))))
    if before then t :: u :: us else u :: s.insertForced t us

/-- IFT_FORCED: the due beat of a slot arrives and its test has not run. -/
def execIftForced (k slot : Nat) (s : State) : Result :=
  onUnit (decide (k < 32) && decide (slot < 17)) <|
    let here (t : FieldTest) : Bool := t.cluster == k && t.slot == slot
    if s.slotRetired k slot ∨ s.beat < (s.slotData (slotKey k slot)).due ∨ s.faults.test.any here ∨ s.faults.waiting.any here then s
    else
      let t : FieldTest := { cluster := k, slot := slot, cmd := none, forced := true }
      ((({ s with faults := { s.faults with waiting := s.insertForced t s.faults.waiting } } : State).count (A.IFT 0x20)).showOverdue).forceNext

/-- The current of the test in progress is granted and its 180 us have passed. -/
def State.testOver (s : State) : Bool :=
  !s.esc.waiting.any (fun q => decide (q.owner = .test)) &&
    s.esc.bookings.all (fun b => decide (b.owner ≠ .test) || decide (b.start + 180 ≤ s.ticks) || decide (s.ticks + 1 < b.start))

/-- IFT_COMPLETE: the test ends, passing or failing with a scan chain's number (R458). -/
def execIftComplete (pass : Bool) (chain : Nat) (s : State) : Result :=
  .next (match s.faults.test with
    | none => s
    | some t =>
      let core := s.coreOfSlot t.cluster t.slot
      let asleep := match core with
        | some c => !s.awake c
        | none => false
      if !s.testOver || asleep then s
      else
        let seq := s.reg A.ERR_WR
        let s1 := (({ s with faults := { s.faults with test := none } } : State).setReg A.IFT_STATUS (s.fld A.IFT_STATUS 9 0)).count (A.IFT 0x10)
        let s2 := match core with
          | some c => s1.modCore c (fun x => { x with testHold := false, tile := none, pfBuf := [], idleSince := s.ticks })
          | none => s1
        let s3 := match t.cmd with
          | some (q, i) => s2.endFlight q i 0 (b2n pass)
          | none => s2
        let s4 := s3.modSlot t.cluster t.slot (fun d => { d with testsRun := d.testsRun + 1, testsFailed := d.testsFailed + b2n (!pass) })
        let s5 := (if pass then
            s4.modSlot t.cluster t.slot (fun d => { d with lastPass := s.beat, due := s.beat + s.iftDeadline })
          else
            let unit := core.getD (16 * t.cluster)
            let u1 := (s4.count (A.IFT 0x18)).record { cls := 1, cause := 6, unitKind := 1, slot := t.slot, unit := unit, detail := chain }
            let u2 := { u1 with fw := { u1.fw with healthy := u1.fw.healthy && u1.fw.trialSince == 0 } }
            u2.retireSlot t.cluster t.slot seq)
        s5.forceNext)

/-! ### Hangs (R459) -/

/-- The command is held by an engine of its core: tile engine, conversion engine or vector unit. -/
def Flight.inCore (fl : Flight) : Bool :=
  match engineClass (byteAt fl.bytes 0) with
  | some c => decide (c ≤ 2)
  | none => false

/-- CORE_HANG: an engine of core c holds a command and makes no progress for HANG_US. Its cluster control core resets the core's engines,
whose commands end with FAULT_LOST; a second hang of the slot within an hour retires it. -/
def execCoreHang (c : Nat) (s : State) : Result :=
  onUnit (decide (c < Config.cores)) <|
    let held := s.flights.filter (fun f => f.core == c && f.inCore && !f.ended && f.powered && decide (f.grantTick + s.hangBeats ≤ s.ticks))
    let hung := s.faults.armed.find? (fun (a : Injection) => a.kind == 6 && a.core == c)
    let named := match hung with
      | some a => held.find? (fun (f : Flight) => f.queue == a.addr && f.index == a.cube)
      | none => held.head?
    match named with
    | none => s
    | some fl =>
      if s.isAbsent (3 + c / 16) then s
      else
        let k := c / 16
        let slot := s.slotOf c
        let seq := s.reg A.ERR_WR
        let last := (s.slotData (slotKey k slot)).lastHang
        let injected := hung.isSome
        let again := !injected && decide (last ≠ 0) && decide (s.ticks + 1 ≤ last + 3600000)
        let s1 := ({ s with faults := { s.faults with armed := s.faults.armed.filter (fun (a : Injection) => !(a.kind == 6 && a.core == c)) } } : State)
        let s2 := (s1.endFlights (fun f => f.core == c && f.inCore) 3 seq).record
          { cls := 1, cause := 7, unitKind := 1, slot := slot, unit := c, fn := fl.fn, queue := fl.queue, index := fl.index, injected := injected }
        let s3 := ((s2.modCore c (fun x => { x with tile := none })).count (A.IFT 0x30)).modSlot k slot (fun d => { d with
          hangs := d.hangs + 1, lastHang := if injected then d.lastHang else s.ticks + 1 })
        let s4 := s3.bringDue k slot
        if again then s4.retireSlot k slot seq else s4

/-- COMMAND_COMPLETE: an ended command of queue q whose remote and host requests have all been answered; a forced test that waited for it
starts (R312, R457). -/
def execCommandComplete (q i m : Nat) (withheld : Bool) (s : State) : Result :=
  match s.flight? q i with
  | some fl => if fl.ended && fl.waiting == 0 then .next (s.completeFlight fl m withheld).forceNext else .next s
  | none => .next s

/-! ### Test and diagnostic commands (R467) -/

/-- Offset of the first reserved byte that is not 0 in a list of bytes. -/
def reservedBad (b : List Byte) (os : List Nat) : List (Nat × Bool) := os.map (fun o => (o, byteAt b o == 0))

/-- IFT_RUN: the named slot is tested at once, before tests that are forced; a retired slot or an unavailable core runs no test. -/
def execIftRun (q i : Nat) (s : State) : Result :=
  s.dispatch q i 0xF0
    (fun fl => firstBad ([(32, decide (fieldAt fl.bytes 32 2 < Config.cores)), (34, decide (byteAt fl.bytes 34 < 2))] ++ reservedBad fl.bytes (offs 35 63)))
    (fun s fl =>
      let c := fieldAt fl.bytes 32 2
      let k := c / 16
      let slot := if byteAt fl.bytes 34 = 1 then 16 else s.slotOf c
      let here (t : FieldTest) : Bool := t.cmd == some (q, i)
      if s.faults.test.any here ∨ s.faults.waiting.any here then s
      else if s.slotRetired k slot ∨ (byteAt fl.bytes 34 = 0 ∧ s.unavailable c) then s.endFlight q i 0 2
      else
        let t : FieldTest := { cluster := k, slot := slot, cmd := some (q, i), forced := false }
        ({ s with faults := { s.faults with waiting := s.insertForced t s.faults.waiting } } : State).forceNext)

/-- SEAL_SCAN: void and mismatched blocks of a range are counted; nothing changes and no record is written. -/
def execSealScan (q i : Nat) (s : State) : Result :=
  s.dispatch q i 0xF1
    (fun fl => firstBad ([(32, fieldAt fl.bytes 32 8 % 2048 == 0), (40, fieldAt fl.bytes 40 8 % 2048 == 0)] ++ reservedBad fl.bytes (offs 48 63)))
    (fun s fl =>
      let a := fieldAt fl.bytes 32 8
      let n := fieldAt fl.bytes 40 8
      match s.refused fl.fn a n false with
      | some (st, d) => s.endFlight q i st d
      | none =>
        let kinds := (chunks a n).map (fun c => match s.resolve fl.fn c.1 false with
          | .phys p => s.sealState (blockOf p)
          | _ => SealState.valid)
        s.endFlight q i 0 ((kinds.filter (fun k => decide (k = SealState.void))).length * 2 ^ 32
          + (kinds.filter (fun k => decide (k = SealState.mismatched))).length))

/-- An address that INJECT may name for kinds 1 and 4: in a tier or a scratchpad, outside the system region. -/
def injectable (a : Nat) : Bool :=
  match regionOf a with
  | .capacity => true
  | .fast _ off => decide (off < sysOff)
  | .scratch _ _ => true
  | _ => false

/-- Kind 1: bit 0 of the stored seal is inverted at once; an inversion undone leaves no trace of the injection. -/
def State.flipSeal (s : State) (b : Nat) : State :=
  let s1 := s.setSyndrome b (s.syndrome b ^^^ 1#32)
  let x : Injection := { kind := 1, addr := b, core := 0, cube := 0 }
  { s1 with faults := { s1.faults with
      armed := if s1.faults.armed.contains x then s1.faults.armed.filter (fun y => decide (y ≠ x)) else s1.faults.armed ++ [x] } }

/-- INJECT: without INJECT_EN it completes with PERMISSION, before its fields are looked at (DEDUCED, log 31). -/
def execInject (q i : Nat) (s : State) : Result :=
  s.dispatch q i 0xF2 (fun fl =>
      let b := fl.bytes
      let kind := byteAt b 32
      if s.fld A.IFT_CFG 3 3 = 0 then none
      else firstBad ([(32, decide (1 ≤ kind) && decide (kind ≤ 5))] ++ reservedBad b (offs 33 39)
        ++ [(48, decide (fieldAt b 48 2 < Config.cores)), (50, !(kind == 2 || kind == 3) || decide (byteAt b 50 < 8))] ++ reservedBad b (offs 51 63)))
    (fun s fl =>
      let kind := byteAt fl.bytes 32
      let a := fieldAt fl.bytes 40 8
      let x : Injection := { kind := kind, addr := a / 8 * 8, core := fieldAt fl.bytes 48 2, cube := byteAt fl.bytes 50 }
      if s.fld A.IFT_CFG 3 3 = 0 then s.endFlight q i 7 0
      else if (kind = 1 ∨ kind = 4) ∧ !injectable a then s.endFlight q i 7 a
      else if kind = 1 then (s.flipSeal (blockOf a)).endFlight q i 0 0
      else
        let s1 := { s with faults := { s.faults with armed := s.faults.armed ++ [x] } }
        let s2 := if kind = 4 then { s1 with tiers := { s1.tiers with badWords := (a / 8 * 8) :: s1.tiers.badWords } } else s1
        s2.endFlight q i 0 0)

/-! ### The persistence queue (R538) -/

/-- What follows a batch of Xolyn's own that is persistent. -/
def State.afterBatch (s : State) (a : AfterBatch) : State :=
  match a with
  | .none => s
  | .erase => ({ s with fw := { s.fw with erase := (s.fw.length + 65535) / 65536 } } : State).flashKick
  | .handoff => s.handOff
  | .reject => s.rejectBack
  | .spare k =>
    let c := 16 * k + bitsOf (s.mapWord k) 23 20
    if s.faults.spareWaking.contains k then s.coreWake c 5
    else s.closeRecords (fun r => r.cause == 6 && decide (r.unit / 16 = k))
  | .bankCopy die j =>
    let x : BankCopy := { die := die, spare := j, bank := smapGet (fun _ => 0) s.tiers.bankMap (8 * die + j) - 1, copied := [] }
    { s with tiers := { s.tiers with copies := s.tiers.copies ++ [x] } }

/-- JOURNAL_BATCH_PERSISTED: the batch in front is written; `fails` says how many slots fail their comparison ahead of each record. Its
values take force, its request is answered, and what follows it starts; past slot 196,608 the regions switch (R538, R543). -/
def execJournalBatchPersisted (fails : List Nat) (s : State) : Result :=
  .next (match s.jrn.batches with
    | [] => s
    | b :: _ =>
      if s.jrn.busy ≠ 1 ∨ !s.storeGranted then s
      else
        let (s1, ok) := s.batchWrite b fails
        let s2 := s1.batchEnd b (b.entries.flatMap (recsOf 1)).length ok
        let s3 := if ok && b.entries.any (fun e => e.1 == 0x8010) then s2.fwEvent 0 s2.fw.target 0xFF else s2
        let s4 := if ok then s3.afterBatch b.after else s3
        let s5 := if switchSlot ≤ s4.jrn.next ∧ !s4.jrn.compacting then s4.switchRegion else s4
        s5.storeKick)

end Sys2Proof.Machine
end

