-- ==== Sys2Proof/Machine/TileEngine.lean ====
section
/-!
DEFINITION. MATMUL, MATMUL_ACC, BWD_IN and BWD_W (R59 to R87, R101 to R103, R175, R176): their fields and checks, the order of work, what is
read when, the drains, the plausibility checks (R450 to R454), the resident tile (R70), the counters of R86 and the activity ramp (R72).
-/

namespace Sys2Proof.Machine

/-! ### Commands with a descriptor -/

/-- An engine command with a 128-byte descriptor at DESC, bytes 32 to 39, 64-byte aligned, read once at its start: `bad` checks command and
descriptor, `k` works. A descriptor the function may not read ends the command with PERMISSION (R75). -/
def State.withDesc (s : State) (q i op : Nat) (bad : Flight → List Byte → Option Nat) (k : State → Flight → List Byte → State) : Result :=
  s.dispatch q i op
    (fun fl =>
      let a := fieldAt fl.bytes 32 8
      if a % 64 ≠ 0 then some 32 else if (s.refused fl.fn a 128 false).isSome then none else bad fl (s.engRead fl.fn a 128))
    (fun t fl =>
      let a := fieldAt fl.bytes 32 8
      match t.refused fl.fn a 128 false with
      | some (st, d) => t.endFlight q i st d
      | none => k t fl (t.engRead fl.fn a 128))

/-- Byte offsets `os` of a command or, from 64 on, of its descriptor must hold 0. -/
def zeroBytes (b d : List Byte) (os : List Nat) : List (Nat × Bool) :=
  os.map (fun o => (o, (if o < 64 then byteAt b o else byteAt d (o - 64)) == 0))

/-- Ranges of two lists share a byte. -/
def spansMeet (xs ys : List (Nat × Nat)) : Bool := xs.any (fun x => ys.any (fun y => overlaps x.1 x.2 y.1 y.2))

/-- An extent of a command (R79, R131, R191). -/
def extentOk (n : Nat) : Bool := decide (1 ≤ n) && decide (n ≤ 16777216)

/-- A counter grows by n, when n is not 0. -/
def State.countN (s : State) (k n : Nat) : State := if n = 0 then s else s.count k n

/-- The flags over the written part of a `rows` × `cols` output; `mark` tells NaN and infinite, none where nothing is written (R56, R57). -/
def flagsOver (rows cols : Nat) (mark : Nat → Nat → Option (Bool × Bool)) : Flags :=
  let all := (List.range rows).flatMap (fun i => (List.range cols).map (fun j => (mark i j).getD (false, false)))
  match all.findIdx? (fun x => x.1 || x.2) with
  | none => {}
  | some e => { nanf := all.any Prod.fst, inff := all.any Prod.snd, firstNan := (all.getD e (false, false)).1, firstRow := e / cols, firstCol := e % cols }

/-- The chunks of ranges first used at one point, by ascending address (R76). -/
def usePoint (rs : List (Nat × Nat)) : List (Nat × Nat) :=
  (rs.flatMap (fun r => chunks r.1 r.2)).foldr (fun c l => (l.takeWhile (fun x => decide (x.1 / 2048 < c.1 / 2048))) ++ c ::
    (l.dropWhile (fun x => decide (x.1 / 2048 < c.1 / 2048)))) []

/-! ### Fields (R79, R80, R176) -/

/-- A MATMUL, MATMUL_ACC, BWD_IN or BWD_W. -/
structure MatCmd where
  m : Nat
  n : Nat
  k : Nat
  fmtC : Nat
  treek : Option Nat
  shape : Nat
  keep : Bool
  fuse : Nat
  mpass : Nat
  a : Tensor
  b : Tensor
  cAddr : Nat
  ldc : Nat
  /-- CIN as it is read: address and row distance; none when elements start at +0. -/
  cin : Option (Nat × Nat)
  fuseAddr : Nat
  deriving DecidableEq, Repr

/-- The 16 bytes of a codebook when the format is K4. -/
def State.bookOf (s : State) (f fmt a : Nat) : List Byte := if fmt = 2 then s.engRead f a 16 else []

/-- The command of function f with bytes b and descriptor d. -/
def State.matCmd (s : State) (f : Nat) (b d : List Byte) : MatCmd :=
  let op := byteAt b 0
  let bit (o i : Nat) : Bool := bitOf (byteAt b o) i
  let m := fieldAt b 40 4
  let n := fieldAt b 44 4
  let k := fieldAt b 48 4
  let fa := byteAt b 56 % 16
  let fb := byteAt b 56 / 16
  { m := m, n := n, k := k, fmtC := byteAt b 57 % 16
    treek := if bit 58 7 then some (bitsOf (byteAt b 58) 6 4) else none
    shape := byteAt b 58 % 4, keep := bit 59 7, fuse := bitsOf (byteAt b 59) 2 1, mpass := fieldAt b 60 2
    a := { fmt := fa, addr := fieldAt d 0 8, ld := fieldAt d 24 4, trans := bit 59 4, sd := fieldAt b 52 2, saddr := fieldAt d 40 8
           g := if sdG (fieldAt b 52 2) then fieldAt d 56 4 else 0x3F800000, bookAddr := fieldAt d 64 8, book := s.bookOf f fa (fieldAt d 64 8)
           ol := if bit 59 6 then some (fieldAt d 80 8) else none, rows := m, k := k }
    b := { fmt := fb, addr := fieldAt d 8 8, ld := fieldAt d 28 4, trans := bit 59 3, sd := fieldAt b 54 2, saddr := fieldAt d 48 8
           g := if sdG (fieldAt b 54 2) then fieldAt d 60 4 else 0x3F800000, bookAddr := fieldAt d 72 8, book := s.bookOf f fb (fieldAt d 72 8)
           ol := if bit 59 5 then some (fieldAt d 88 8) else none, rows := n, k := k }
    cAddr := fieldAt d 16 8, ldc := fieldAt d 32 4
    cin := if op = 0x11 then some (fieldAt d 104 8, fieldAt d 36 4)
           else if op = 0x15 ∧ !bitOf (fieldAt b 62 2) 14 then some (fieldAt d 16 8, fieldAt d 32 4) else none
    fuseAddr := fieldAt d 96 8 }

/-- Entries of the accumulator of a column group, and entries an 8-row block takes (R63, R64). -/
def MatCmd.entries (c : MatCmd) : Nat := 256 * 2 ^ c.shape
def MatCmd.perBlock (c : MatCmd) : Nat :=
  match c.treek with
  | none => 1
  | some m => 1 + clog2 (ceilDiv (ceilDiv c.k 32) (2 ^ m))

/-- 8-row blocks per pass: MPASS, or the largest value that fits for 0 (R79). -/
def MatCmd.pass (c : MatCmd) : Nat :=
  if c.mpass ≠ 0 then c.mpass
  else
    let half := c.entries / 2 / c.perBlock
    min (ceilDiv c.m 8) (if half = 0 then c.entries / c.perBlock else half)

/-- The rows of a matrix of `bits`-bit elements as ranges. -/
def rowRanges (addr ld bits rows cols : Nat) : List (Nat × Nat) := rectRanges addr ld bits 0 rows 0 cols

/-- The ranges of C, of CIN, and of the fused records (R102). -/
def MatCmd.cRanges (c : MatCmd) : List (Nat × Nat) := rowRanges c.cAddr c.ldc (elemBits c.fmtC) c.m c.n
def MatCmd.cinRanges (c : MatCmd) : List (Nat × Nat) :=
  match c.cin with
  | some (a, ld) => rowRanges a ld 32 c.m c.n
  | none => []
def MatCmd.fuseBytes (c : MatCmd) : Nat := if c.fuse = 1 then 8 else 4

/-- R82, with the span of C and CIN compared first. -/
def MatCmd.cinOk (c : MatCmd) : Bool :=
  match c.cin with
  | none => true
  | some (a, ld) =>
    (a == c.cAddr && ld == c.ldc && c.fmtC == 9) ||
      !(overlaps a (c.m * ld) c.cAddr (c.m * c.ldc) && spansMeet c.cinRanges c.cRanges)

/-- Least row stride of a stored tensor. -/
def Tensor.rowBytes (t : Tensor) : Nat := elemBytes t.fmt (if t.trans then t.rows else t.k)

/-- The checks of R83 (R175, R176), by offset. -/
def MatCmd.bad (c : MatCmd) (b d : List Byte) : Option Nat :=
  let op := byteAt b 0
  let b58 := byteAt b 58
  let fmts := arrayFmt c.a.fmt && arrayFmt c.b.fmt && pairOk c.a.fmt c.b.fmt
  let unitBlocks := 2 ^ c.shape * (if pairMode c.a.fmt c.b.fmt = 1 then 2 else 1)
  firstBad ([(40, extentOk c.m), (44, extentOk c.n), (48, extentOk c.k), (52, sdescOk c.a.sd), (54, sdescOk c.b.sd), (56, fmts),
    (57, decide (byteAt b 57 < 16) && (c.fmtC == 9 || (op != 0x15 && (c.fmtC == 8 || c.fmtC == 4 || c.fmtC == 5)))),
    (58, bitsOf b58 3 2 == 0 && (match c.treek with | none => bitsOf b58 6 4 == 0 | some m => decide (unitBlocks ≤ 2 ^ m))),
    (59, byteAt b 59 % 2 == 0 && c.fuse != 3 && !(wideFmt c.a.fmt && (c.a.ol.isSome || c.b.ol.isSome))),
    (60, decide (1 ≤ c.pass) && decide (c.pass * c.perBlock ≤ c.entries)),
    (62, if op = 0x15 then fieldAt b 62 2 % 2 ^ 14 == 0 else fieldAt b 62 2 == 0),
    (64, c.a.addr % 16 == 0), (72, c.b.addr % 16 == 0), (80, c.cAddr % 16 == 0),
    (88, c.a.ld % 16 == 0 && decide (c.a.rowBytes ≤ c.a.ld)), (92, c.b.ld % 16 == 0 && decide (c.b.rowBytes ≤ c.b.ld)),
    (96, c.ldc % 16 == 0 && decide (elemBytes c.fmtC c.n ≤ c.ldc)),
    (100, op != 0x11 || (fieldAt d 36 4 % 16 == 0 && decide (4 * c.n ≤ fieldAt d 36 4))),
    (104, sdFmt c.a.sd == 0 || c.a.saddr % 16 == 0), (112, sdFmt c.b.sd == 0 || c.b.saddr % 16 == 0), (168, c.cinOk)]
    ++ zeroBytes b d (offs 176 191))

/-! ### The run -/

/-- A command under way: its product, the same with the resident tile for its first load (R70), and whether it takes that tile. -/
structure MatRun where
  c : MatCmd
  p : TileProd
  pk : TileProd
  kept : Bool
  fuseFree : Option Nat

/-- The resident tile in place of B's first tile. -/
def keptView (v : View) (t : ResidentTile) (kshape nshape : Nat) : View :=
  { v with
    val := fun j k => if j < nshape ∧ k < kshape then elemVal t.fmtB t.book (t.codes.getD (k * nshape + j) 0) else v.val j k
    ks := fun j k => if j < nshape ∧ k < kshape then
        (if t.sfmt = 0 then xOne else blockScale t.sfmt (t.scales.getD (k * nshape + j) 0)) else v.ks j k }

/-- The resident tile of a core that a command may use (R70). -/
def usableTile (t : Option ResidentTile) (c : MatCmd) : Option ResidentTile :=
  match t with
  | some x => if c.keep && x.shape == c.shape && x.mode == pairMode c.a.fmt c.b.fmt && x.fmtB == c.b.fmt then some x else none
  | none => none

/-- C shares bytes with an operand; the fused records share bytes with an operand, C or CIN (R102, DESIGN CHOICE, log 34). -/
def MatCmd.cOverlaps (c : MatCmd) : Bool := spansMeet c.cRanges (c.a.allRanges ++ c.b.allRanges)
def MatCmd.fuseOverlaps (c : MatCmd) : Bool :=
  c.fuse != 0 && spansMeet [(c.fuseAddr, c.fuseBytes * c.m)] (c.a.allRanges ++ c.b.allRanges ++ c.cRanges ++ c.cinRanges)

/-- The run of command c for function f on a core with resident tile `tile`. -/
def State.matRun (s : State) (f : Nat) (c : MatCmd) (tile : Option ResidentTile) : MatRun :=
  let rd (a n : Nat) : Nat := s.engNum f a n
  let p : TileProd := {
    m := c.m, n := c.n, k := c.k, shape := c.shape, mode := pairMode c.a.fmt c.b.fmt, a := c.a.view rd, b := c.b.view rd
    init := c.cin.map (fun x i j => rd (x.1 + i * x.2 + 4 * j) 4)
    treek := c.treek, free := if c.cOverlaps then some s.free else none }
  { c := c, p := p
    pk := match usableTile tile c with
      | some t => { p with b := keptView p.b t p.kshape p.nshape }
      | none => p
    kept := (usableTile tile c).isSome, fuseFree := if c.fuseOverlaps then some (s.free + c.m * c.n) else none }

/-- The product that computes element (i, j): the resident tile serves the first load of the first pass and tile only. -/
def MatRun.at_ (r : MatRun) (i j : Nat) : TileProd := if r.kept && decide (i < 8 * r.c.pass) && decide (j < r.p.nshape) then r.pk else r.p

def MatRun.passes (r : MatRun) : Nat := ceilDiv r.p.blocks r.c.pass
/-- Stationary loads of the whole command. -/
def MatRun.total (r : MatRun) : Nat := r.passes * r.p.tiles * r.p.loads
/-- 8-row blocks of a pass, and its rows. -/
def MatRun.passBlocks (r : MatRun) (pass : Nat) : Nat := min r.c.pass (r.p.blocks - pass * r.c.pass)
def MatRun.rows (r : MatRun) (pass : Nat) : Nat × Nat := (8 * r.c.pass * pass, min r.c.m (8 * r.c.pass * (pass + 1)))
/-- Columns of a tile, and K positions of a load. -/
def MatRun.cols (r : MatRun) (tile : Nat) : Nat × Nat := (r.p.nshape * tile, min r.c.n (r.p.nshape * (tile + 1)))
def MatRun.ks (r : MatRun) (load : Nat) : Nat × Nat := (r.p.kshape * load, min r.c.k (r.p.kshape * (load + 1)))
/-- Stream cycles before stationary load n. -/
def MatRun.streamsBefore (r : MatRun) (n : Nat) : Nat :=
  let per := r.p.tiles * r.p.loads
  n / per * per * r.c.pass + n % per * r.passBlocks (n / per)

/-- Numbers lo to hi - 1. -/
def between (x : Nat × Nat) : List Nat := (List.range (x.2 - x.1)).map (· + x.1)

/-! ### Fused rows (R101, R102) -/

/-- -infinity. -/
def ninf32 : Nat := 0xFF800000

/-- One column tile of a row: M and S after it. -/
def fuseTile (ms : Nat × Nat) (fs : List Nat) : Nat × Nat :=
  let mt := fs.foldl fmax ninf32
  let st := (ptree fadd (fs.map (fun x => some (fexp (fsub x mt))))).getD 0
  let mn := fmax ms.1 mt
  (mn, fadd (if ms.1 = ninf32 then 0 else fmul ms.2 (fexp (fsub ms.1 mn))) (if mt = ninf32 then 0 else fmul st (fexp (fsub mt mn))))

/-- M, S and lse of a row from its tiles' FP32 values. -/
def fuseRow (tiles : List (List Nat)) : Nat × Nat × Nat :=
  let ms := tiles.foldl fuseTile (ninf32, 0)
  if isNan32 ms.1 then (nan32, nan32, nan32)
  else if ms.1 = ninf32 then (ninf32, 0, ninf32)
  else if ms.1 = inf32 then (inf32, nan32, inf32)
  else (ms.1, ms.2, fadd ms.1 (fln ms.2))

/-- The record of row i (R102). -/
def MatRun.fuseRecord (r : MatRun) (i : Nat) : List Byte :=
  let x := fuseRow ((List.range r.p.tiles).map (fun t => (between (r.cols t)).map (fun j => (r.at_ i j).f32 i j)))
  if r.c.fuse = 1 then leBytes 4 x.1 ++ leBytes 4 x.2.1 else leBytes 4 x.2.2

/-- Its writes: where the region overlaps another, a free choice for each byte says whether the record's byte stays (R102). -/
def MatRun.fuseWrites (r : MatRun) (i : Nat) : List (Nat × List Byte) :=
  let a := r.c.fuseAddr + r.c.fuseBytes * i
  match r.fuseFree with
  | none => [(a, r.fuseRecord i)]
  | some n =>
    let others := r.c.a.allRanges ++ r.c.b.allRanges ++ r.c.cRanges ++ r.c.cinRanges
    (r.fuseRecord i).zipIdx.filterMap (fun x =>
      if spansMeet [(a + x.2, 1)] others && (Config.freeByte (n + r.c.fuseBytes * i + x.2)).toNat % 2 == 0 then none else some (a + x.2, [x.1]))

/-! ### Reads and writes in order (R66, R76, R77) -/

/-- The writes of the drain of column tile number `t`, counted over the passes. -/
def MatRun.drain (r : MatRun) (t : Nat) : List (Nat × List Byte) :=
  let pass := t / r.p.tiles
  let tile := t % r.p.tiles
  let cols := between (r.cols tile)
  let rows := between (r.rows pass)
  rows.map (fun i => (r.c.cAddr + i * r.c.ldc + r.p.nshape * tile * elemBits r.c.fmtC / 8,
      packCodes r.c.fmtC (cols.map (fun j => outConv r.c.fmtC ((r.at_ i j).exact i j)))))
    ++ (if r.c.fuse ≠ 0 ∧ tile + 1 = r.p.tiles then rows.flatMap r.fuseWrites else [])

/-- What stationary load n and its stream cycles use first, in order. -/
def MatRun.reads (r : MatRun) (n : Nat) : List (Nat × Nat) :=
  let t := n / r.p.loads
  let load := n % r.p.loads
  let pass := t / r.p.tiles
  let (i0, i1) := r.rows pass
  let (j0, j1) := r.cols (t % r.p.tiles)
  let (k0, k1) := r.ks load
  let a := r.c.a
  let b := r.c.b
  let skip := r.kept && n == 0
  (if n = 0 ∧ a.fmt = 2 then [(a.bookAddr, 16)] else [])
    ++ (match r.c.cin with
        | some (x, ld) => if load = 0 then usePoint (rectRanges x ld 32 i0 i1 j0 j1) else []
        | none => [])
    ++ usePoint ((if skip then [] else b.codeRanges j0 j1 k0 k1 ++ (if b.fmt = 2 then [(b.bookAddr, 16)] else []))
        ++ (if skip && b.kScaled then [] else b.scaleRanges j0 j1 k0 k1) ++ b.sideRanges j0 j1 k0 k1)
    ++ (List.range (r.passBlocks pass)).flatMap (fun blk =>
        let r0 := i0 + 8 * blk
        let r1 := min i1 (r0 + 8)
        usePoint (a.codeRanges r0 r1 k0 k1 ++ a.scaleRanges r0 r1 k0 k1 ++ a.sideRanges r0 r1 k0 k1))

/-- The segments between cancellation points: each stationary load with its stream cycles, and the drain of the tile before it, which runs
beside them; the last drain follows the last cancellation point (R77). -/
def MatRun.segs (r : MatRun) : List Seg :=
  (List.range (r.total + 1)).map (fun n =>
    { reads := if n = r.total then [] else r.reads n
      writes := if 0 < n ∧ n % r.p.loads = 0 then r.drain (n / r.p.loads - 1) else [] })

/-! ### Plausibility checks (R450 to R454, R467) -/

/-- An injection of a kind is armed for a cube of a core. -/
def State.armedCube (s : State) (kind core cube : Nat) : Bool :=
  s.faults.armed.any (fun (x : Injection) => x.kind == kind && x.core == core && x.cube == cube)

/-- A failed range check: cube, bound, injected. -/
structure RangeFail where
  cube : Nat
  bound : Int × Int
  injected : Bool
  deriving DecidableEq, Repr

/-- The first block of a product that fails the range check: `at_` gives the product whose value drains in a block, `terms` the products that
S is summed over. 8-row blocks [b0, b1) and columns [j0, j1) drain; the block stands in the memory of cube (block mod g) of its column
group (R63). -/
def State.rangeFail (s : State) (core : Nat) (at_ : Nat → Nat → TileProd) (terms : Nat → Nat → List TileProd) (p : TileProd) (b0 b1 j0 j1 : Nat) :
    Option RangeFail :=
  if s.fld A.IFT_CFG 1 1 = 0 ∨ p.free.isSome then none
  else (List.range (b1 - b0)).findSome? (fun b => (List.range (ceilDiv (j1 - j0) 8)).findSome? (fun cg =>
    let i0 := 8 * (b0 + b)
    let c0 := j0 + 8 * cg
    let x := at_ i0 c0
    let cube := p.g * cg + b % p.g
    match boundOf ((terms i0 c0).flatMap (fun (y : TileProd) => y.boundTerms i0 (min p.m (i0 + 8)) c0 (min j1 (c0 + 8)))) with
    | none => none
    | some bd =>
      let inj := s.armedCube 3 core cube
      if inj || x.above i0 (min p.m (i0 + 8)) c0 (min j1 (c0 + 8)) bd then some { cube := cube, bound := bd, injected := inj } else none))

/-- The first of `n` stream cycles, numbered from `n0`, whose checked tile an injection fails: its cube (R451). The checker's two sums are
those of exact arithmetic and agree without one (DESIGN CHOICE, log 34). -/
def State.sumFail (s : State) (core n0 n : Nat) : Option Nat :=
  if s.fld A.IFT_CFG 2 2 = 0 then none
  else (List.range n).findSome? (fun d =>
    let x := n0 + d
    if x % 8 = 7 && s.armedCube 2 core (x / 8 % 8) then some (x / 8 % 8) else none)

/-- The first segment of a run in which a check fails. -/
def State.matPls (s : State) (core : Nat) (r : MatRun) : Option (Nat × Option RangeFail × Option Nat) :=
  (List.range (r.total + 1)).findSome? (fun n =>
    let rf := if 0 < n ∧ n % r.p.loads = 0 then
        (let t := n / r.p.loads - 1
         let pass := t / r.p.tiles
         let (j0, j1) := r.cols (t % r.p.tiles)
         s.rangeFail core r.at_ (fun i j => [r.at_ i j]) r.p (r.c.pass * pass) (r.c.pass * pass + r.passBlocks pass) j0 j1)
      else none
    let sf := if n = r.total then none
      else s.sumFail core ((s.core core).streamN + r.streamsBefore n) (r.streamsBefore (n + 1) - r.streamsBefore n)
    if rf.isSome || sf.isSome then some (n, rf, sf) else none)

/-- Programmable counters that select a counter kept with a physical slot (R472, R552). -/
def State.countSelected (s : State) (k n : Nat) : State :=
  (s.evMatches k).foldl (fun t e => t.setReg (A.EVCNT (e / 16) (e % 16)) (counterAdd (t.reg (A.EVCNT (e / 16) (e % 16))) n)) s

/-- The failures of one command: one record, both cubes' counts (R453, R454), the injections spent. Answers the record's SEQ. -/
def State.plsRecord (s : State) (fl : Flight) (rf : Option RangeFail) (sf : Option Nat) : State × Nat :=
  let cube := match rf with | some x => x.cube | none => sf.getD 0
  let inj := match rf with | some x => x.injected | none => true
  let detail := match rf with | some x => rne32 (.fin x.bound.1 x.bound.2) | none => 0xFF
  let (s1, seq) := s.plsFail fl cube rf.isSome sf.isSome inj detail
  let k := fl.core / 16
  let s2 := match sf with
    | some q => if q = cube then s1 else s1.modSlot k (s.slotOf fl.core) (fun d => { d with
        plsCube := smapPut (fun _ => 0) d.plsCube q (min 255 (smapGet (fun _ => 0) d.plsCube q + 1)) })
    | none => s1
  let s3 := { s2 with faults := { s2.faults with armed := s2.faults.armed.filter (fun (x : Injection) =>
    !(x.core == fl.core && ((x.kind == 3 && rf.any (fun (y : RangeFail) => y.injected && y.cube == x.cube)) || (x.kind == 2 && sf == some x.cube)))) } }
  ((s3.countSelected (A.IFTC fl.core 0x18) (b2n rf.isSome)).countSelected (A.IFTC fl.core 0x20) (b2n sf.isSome), seq)

/-- Stream cycles of a core: the checker's numbering and the tiles it checked (R451, R472). -/
def State.streamed (s : State) (core n : Nat) : State :=
  let n0 := (s.core core).streamN
  let s1 := s.modCore core (fun x => { x with streamN := n0 + n })
  if s.fld A.IFT_CFG 2 2 = 0 then s1
  else
    let m := (n0 + n) / 8 - n0 / 8
    (s1.modSlot (core / 16) (s.slotOf core) (fun d => { d with plsSamples := counterAdd d.plsSamples m })).countSelected (A.IFTC core 0x28) m

/-! ### Counters, ramp and resident tile (R70 to R72, R84 to R86) -/

/-- A range lies wholly in the core's own scratchpad (R75). -/
def inOwnScratch (core a n : Nat) : Bool := decide (scratchAddr core 0 ≤ a) && decide (a + n ≤ scratchAddr core 0 + 0x400000)

/-- The array's activity around a command that streamed (R71, R72): a ramp from idle is counted, then full activity is held for RAMP_HOLD
cycles; CUB_STATUS shows shape and mode. -/
def State.arrayActivity (s : State) (core shape mode : Nat) : State :=
  let hold := decide (0 < s.fld (A.CUB core 0) 31 16)
  let s1 := if s.fld (A.CUB core 8) 10 8 = 0 then s.count (A.CUB core 0x40) else s
  ((((s1.countCycles (A.CUB core 0x38)).setFld (A.CUB core 8) 19 18 shape).setFld (A.CUB core 8) 17 16 mode).setFld (A.CUB core 8) 10 8
    (if hold then 4 else 0)).setFld (A.CUB core 8) 5 5 (b2n hold)

/-- The counters of R86 after a run that performed `done` segments. -/
def State.matCounters (s : State) (core : Nat) (r : MatRun) (done : Nat) : State :=
  let n := min done r.total
  let streams := r.streamsBefore n
  let own := (r.c.a.allRanges ++ r.c.b.allRanges ++ r.c.cinRanges).all (fun x => inOwnScratch core x.1 x.2)
  let outl := if r.c.a.ol.isNone && r.c.b.ol.isNone then 0
    else (List.range n).foldl (fun m x =>
      let t := x / r.p.loads
      (List.range (r.passBlocks (t / r.p.tiles))).foldl (fun m b =>
        m + r.p.outlierStall (r.c.pass * (t / r.p.tiles) + b) (t % r.p.tiles) (x % r.p.loads)) m) 0
  let drains := if r.c.pass * r.c.perBlock ≤ r.c.entries / 2 then 0
    else (ceilDiv n r.p.loads - 1) * (6 + ceilDiv r.c.pass r.p.g - 32)
  let s1 := (s.countN (A.CUB core 0x10) (streams * (if r.p.mode = 2 then 4 else 1))).countN (A.CUB core 0x18) (32 * (n - b2n r.kept))
  let s2 := if own then s1 else s1.countCycles (A.CUB core 0x20)
  (((s2.countN (A.CUB core 0x28) outl).countN (A.CUB core 0x30) drains).countN (A.CUB core 0x48) (b2n r.kept)).streamed core streams

/-- The tile that becomes resident after the last load (R70). -/
def MatRun.lastTile (r : MatRun) (rd : Nat → Nat → Nat) (old : Option ResidentTile) : Option ResidentTile :=
  if r.kept && r.total == 1 then old
  else
    let b := r.c.b
    let j0 := (r.cols (r.p.tiles - 1)).1
    let k0 := (r.ks (r.p.loads - 1)).1
    let cell (f : Nat → Nat → Nat) : List Nat := (List.range (r.p.kshape * r.p.nshape)).map (fun e =>
      let k := k0 + e / r.p.nshape
      let j := j0 + e % r.p.nshape
      if k < r.c.k ∧ j < r.c.n then f j k else 0)
    some { shape := r.c.shape, mode := r.p.mode, fmtB := b.fmt, sfmt := if b.kScaled then sdFmt b.sd else 0, codes := cell (b.code rd)
           scales := if b.kScaled then cell (b.scaleByte rd) else [], book := b.book }

/-! ### Flags (R32, R56, R57) -/

/-- Column tiles drained when `done` segments were performed. -/
def MatRun.drained (r : MatRun) (done : Nat) : Nat := (done - 1) / r.p.loads

/-- A T2 code 0b10 was read by one of the first n loads. -/
def MatRun.reserved (r : MatRun) (rd : Nat → Nat → Nat) (n : Nat) : Bool :=
  (r.c.a.fmt == 3 || r.c.b.fmt == 3) && (List.range n).any (fun x =>
    let t := x / r.p.loads
    let ks := between (r.ks (x % r.p.loads))
    let hit (y : Tensor) (rows : Nat × Nat) : Bool := y.fmt == 3 && (between rows).any (fun i => ks.any (fun k => y.code rd i k == 2))
    hit r.c.a (r.rows (t / r.p.tiles)) || hit r.c.b (r.cols (t % r.p.tiles)))

/-- The flags of the outputs written and operands read. -/
def MatRun.flags (r : MatRun) (rd : Nat → Nat → Nat) (done : Nat) : Flags :=
  let f := flagsOver r.c.m r.c.n (fun i j =>
    if i / (8 * r.c.pass) * r.p.tiles + j / r.p.nshape < r.drained done then
      let x := (r.at_ i j).exact i j
      let code := outConv r.c.fmtC x
      some (codeNan r.c.fmtC code, codeInf r.c.fmtC code || isInf32 (rne32 x))
    else none)
  { f with reservedCode := r.reserved rd (min done r.total) }

/-! ### The commands -/

/-- A result under a plausibility failure that reached its cancellation point: FAULT_LOST, written blocks void (R453, R454). Against a seal
failure of the same segment the spec names no order: the choice is free (DESIGN CHOICE, log 34). -/
def JobResult.withPls (r : JobResult) (fl : Flight) (pls : Option (Nat × Option RangeFail × Option Nat)) : JobResult :=
  match pls with
  | none => r
  | some (n, rf, sf) =>
    if r.done ≠ n + 1 ∨ !(r.status == 0 || r.status == 4) then r
    else
      let (x, s1) := r.st.draw
      let (s2, seq) := s1.plsRecord fl rf sf
      if r.status = 4 ∧ (Config.freeByte x).toNat % 2 = 1 then { r with st := s2 }
      else { r with st := s2.voidBlocks (blocksTouched r.wrote), status := 3, detail := seq }

/-- The work of a MATMUL, MATMUL_ACC, BWD_IN or BWD_W. `stop`: stationary loads after which a recorded cancel stops it. -/
def State.runMat (s : State) (q i : Nat) (stop : Option Nat) (fl : Flight) (d : List Byte) : State :=
  let c := s.matCmd fl.fn fl.bytes d
  let core := fl.core
  let run := s.matRun fl.fn c (s.core core).tile
  let rd (a n : Nat) : Nat := s.engNum fl.fn a n
  let s0 := { s with free := s.free + (if c.cOverlaps || c.fuseOverlaps then c.m * c.n + c.fuseBytes * c.m else 0) }
  let pls := s0.matPls core run
  let segs := match pls with
    | some (n, _, _) => run.segs.take (n + 1)
    | none => run.segs
  let r := (s0.runJob fl.fn q i true ((fl.stopAt stop).map (max 1)) segs).withPls fl pls
  if r.done = 0 then r.finish q i {}
  else
    let s1 := ((r.st.matCounters core run r.done).arrayActivity core c.shape run.p.mode).modCore core (fun x => { x with
      tile := if r.status = 0 then run.lastTile rd (s.core core).tile else none })
    ({ r with st := s1 } : JobResult).finish q i (run.flags rd r.done)

/-- A tile command of opcode `op`. -/
def State.matCommand (s : State) (q i op : Nat) (stop : Option Nat) : Result :=
  s.withDesc q i op (fun fl d => (s.matCmd fl.fn fl.bytes d).bad fl.bytes d) (fun t fl d => t.runMat q i stop fl d)

def execMatmul (q i : Nat) (stop : Option Nat) (s : State) : Result := s.matCommand q i 0x10 stop
def execMatmulAcc (q i : Nat) (stop : Option Nat) (s : State) : Result := s.matCommand q i 0x11 stop
def execBwdIn (q i : Nat) (stop : Option Nat) (s : State) : Result := s.matCommand q i 0x14 stop
def execBwdW (q i : Nat) (stop : Option Nat) (s : State) : Result := s.matCommand q i 0x15 stop

/-- RAMP_HOLD_EXPIRY: no array command has come in RAMP_HOLD cycles; the activity of core c ramps down to idle (R72). -/
def execRampHoldExpiry (c : Nat) (s : State) : Result :=
  onUnit (decide (c < Config.cores)) <|
    if s.fld (A.CUB c 8) 5 5 = 0 then s
    else ((s.setFld (A.CUB c 8) 10 8 0).setFld (A.CUB c 8) 5 5 0).countCycles (A.CUB c 0x38)

end Sys2Proof.Machine
end

