-- ==== Sys2Proof/Machine/Attention.lean ====
section
/-!
DEFINITION. ATTN_FWD and ATTN_BWD (R190 to R196): blockwise attention on the tile engine, the vector unit and the conversion engine.
-/

namespace Sys2Proof.Machine

/-! ### Fields (R191, R192) -/

/-- An attention command; tensors and arrays that an opcode does not have are at 0. -/
structure AttnCmd where
  bwd : Bool
  lq : Nat
  lk : Nat
  dqk : Nat
  dv : Nat
  scale : Nat
  init : Bool
  srDs : Bool
  pfmt : Nat
  mask : Nat
  fmtO : Nat
  shapeV : Nat
  shapeS : Nat
  qpos : Nat
  q : Tensor
  kT : Tensor
  v : Tensor
  dO : Tensor
  o : Nat
  lse : Nat
  dq : Nat
  dk : Nat
  dvA : Nat
  len : Nat
  deriving DecidableEq, Repr

/-- Scale descriptor of 32 × 32 UE8M0 scales with a second-level scale (R190). -/
def attnSd : Nat := 0x6208

/-- A row's bytes rounded up to a multiple of 16. -/
def up16 (n : Nat) : Nat := (n + 15) / 16 * 16

/-- An F4 tensor with 32 × 32 scales, `rows` rows of `k` elements. -/
def attnTensor (addr saddr g rows k : Nat) : Tensor :=
  { fmt := 0, addr := addr, ld := up16 (k / 2), trans := false, sd := attnSd, saddr := saddr, g := g, bookAddr := 0, book := [], ol := none,
    rows := rows, k := k }

/-- The command with bytes b and descriptor d. -/
def attnCmd (b d : List Byte) : AttnCmd :=
  let bwd := byteAt b 0 == 0x13
  let lq := fieldAt b 40 4
  let lk := fieldAt b 44 4
  let dqk := fieldAt b 48 2
  let dv := fieldAt b 50 2
  let a (n : Nat) : Nat := fieldAt d n 8
  let f (n : Nat) : Nat := fieldAt d n 4
  { bwd := bwd, lq := lq, lk := lk, dqk := dqk, dv := dv, scale := fieldAt b 52 4, init := bitOf (byteAt b 56) 5, srDs := bitOf (byteAt b 56) 4
    pfmt := bitsOf (byteAt b 56) 3 2, mask := byteAt b 56 % 4, fmtO := byteAt b 57 % 16, shapeV := bitsOf (byteAt b 58) 3 2
    shapeS := byteAt b 58 % 4, qpos := fieldAt b 60 4
    q := attnTensor (a 0) (a (if bwd then 72 else 40)) (f (if bwd then 112 else 72)) lq dqk
    kT := attnTensor (a 8) (a (if bwd then 80 else 48)) (f (if bwd then 116 else 76)) lk dqk
    v := attnTensor (a 16) (a (if bwd then 88 else 56)) (f (if bwd then 120 else 80)) lk dv
    dO := attnTensor (if bwd then a 32 else 0) (a 96) (f 124) lq dv
    o := a 24, lse := a (if bwd then 40 else 32), dq := a 48, dk := a 56, dvA := a 64, len := a (if bwd then 104 else 64) }

/-- Row strides of O and of the FP32 gradients. -/
def AttnCmd.ldo (c : AttnCmd) : Nat := up16 (elemBytes c.fmtO c.dv)
def AttnCmd.ldg (w : Nat) : Nat := up16 (4 * w)

/-- Written regions with the offset of their field, and the regions only read. -/
def AttnCmd.written (c : AttnCmd) : List (Nat × List (Nat × Nat)) :=
  if c.bwd then [(112, rowRanges c.dq (AttnCmd.ldg c.dqk) 32 c.lq c.dqk), (120, rowRanges c.dk (AttnCmd.ldg c.dqk) 32 c.lk c.dqk),
    (128, rowRanges c.dvA (AttnCmd.ldg c.dv) 32 c.lk c.dv)]
  else [(88, rowRanges c.o c.ldo (elemBits c.fmtO) c.lq c.dv), (96, [(c.lse, 4 * c.lq)])]
def AttnCmd.inputs (c : AttnCmd) : List (Nat × Nat) :=
  c.q.allRanges ++ c.kT.allRanges ++ c.v.allRanges ++ (if c.mask = 2 then [(c.len, 4 * c.lq)] else [])
    ++ (if c.bwd then c.dO.allRanges ++ rowRanges c.o c.ldo (elemBits c.fmtO) c.lq c.dv ++ [(c.lse, 4 * c.lq)] else [])

/-- A width of R191. -/
def attnWidth (n : Nat) : Bool := decide (32 ≤ n) && decide (n ≤ 256) && n % 32 == 0

/-- The checks of R196, by offset. -/
def AttnCmd.bad (c : AttnCmd) (b d : List Byte) : Option Nat :=
  let x := byteAt b 56
  firstBad ([(40, extentOk c.lq), (44, extentOk c.lk), (48, attnWidth c.dqk), (50, attnWidth c.dv),
    (56, decide (x < 64) && decide (c.pfmt ≤ 1) && c.mask != 3 && (c.bwd || !(c.init || c.srDs))),
    (57, decide (byteAt b 57 < 16) && (c.fmtO == 9 || c.fmtO == 8 || c.fmtO == 4)),
    (58, decide (byteAt b 58 < 16)), (59, byteAt b 59 == 0)]
    ++ (c.written.zipIdx).map (fun w => (w.1.1,
        !(spansMeet w.1.2 c.inputs || (c.written.zipIdx).any (fun z => decide (z.2 ≠ w.2) && spansMeet w.1.2 z.1.2))))
    ++ (if c.bwd then [] else zeroBytes b d (offs 148 191)))

/-! ### Blocks and views -/

/-- Rows of block n of an extent in blocks of 128 (R190): first row and number. -/
def blockRows (ext n : Nat) : Nat × Nat := (128 * n, min 128 (ext - 128 * n))

/-- Key j is allowed for query row i (R190). -/
def AttnCmd.allowed (c : AttnCmd) (rd : Nat → Nat → Nat) (i j : Nat) : Bool :=
  if c.mask = 1 then decide (j ≤ c.qpos + i) else if c.mask = 2 then decide (j < rd (c.len + 4 * i) 4) else true

/-- A block pair with some allowed key is visited. -/
def AttnCmd.visited (c : AttnCmd) (rd : Nat → Nat → Nat) (qb kb : Nat) : Bool :=
  (List.range (blockRows c.lq qb).2).any (fun r => (List.range (blockRows c.lk kb).2).any (fun j =>
    c.allowed rd (128 * qb + r) (128 * kb + j)))

/-- The view from row `off` on. -/
def View.fromRow (v : View) (off : Nat) : View := { v with val := fun r k => v.val (r + off) k, ks := fun r k => v.ks (r + off) k }

/-- The transposed view from K position `off` on: its rows are the other's columns (R81). -/
def View.flip (v : View) (off : Nat) : View := { v with val := fun r k => v.val (k + off) r, ks := fun r k => v.ks (k + off) r }

/-- A quantised tile: its codes by row and column, and its scale bytes by row and block of 32 columns, or by 32 × 32 block. -/
structure QTile where
  fmt : Nat
  codes : List (List Nat)
  scales : List (List Nat)
  square : Bool
  deriving DecidableEq, Repr

def QTile.scaleAt (t : QTile) (r c : Nat) : XVal := ue8m0 ((t.scales.getD (if t.square then r / 32 else r) []).getD (c / 32) 0x7F)
def QTile.codeAt (t : QTile) (r c : Nat) : XVal := elemVal t.fmt [] ((t.codes.getD r []).getD c 0)

/-- The tile as an operand with K along its columns; without a second-level scale. -/
def QTile.view (t : QTile) : View :=
  { val := t.codeAt, ks := t.scaleAt, ns := fun _ => xOne, g := xOne, outs := fun _ _ => [] }

/-- Q of R117 for the two formats of a tile. -/
def tileQ (fmt : Nat) : Nat × Nat := if fmt = 4 then (448, 1) else (6, 1)

/-- Values quantised with scales along the columns, blocks of 32 (R193). -/
def quantRows (fmt : Nat) (x : List (List Nat)) : QTile :=
  let scales := x.map (fun row => (groupsOf 32 row.length row).map (fun b => fitScale 1 (tileQ fmt) (1, 1) (amaxOf b)))
  { fmt := fmt, scales := scales, square := false
    codes := (x.zipIdx).map (fun p => (p.1.zipIdx).map (fun e =>
      (quantElem fmt [] .rne e.1 (rne32 (ue8m0 ((scales.getD p.2 []).getD (e.2 / 32) 0x7F)))).1)) }

/-- Values quantised with 32 × 32 scales (R194); `mode` gives each position's rounding. -/
def quantSquare (fmt : Nat) (mode : Nat → Nat → RMode) (x : List (List Nat)) : QTile :=
  let scales := (groupsOf 32 x.length x).map (fun rows =>
    (List.range (ceilDiv ((x.headD []).length) 32)).map (fun cb =>
      fitScale 1 (tileQ fmt) (1, 1) (amaxOf (rows.flatMap (fun row => (row.drop (32 * cb)).take 32)))))
  { fmt := fmt, scales := scales, square := true
    codes := (x.zipIdx).map (fun p => (p.1.zipIdx).map (fun e =>
      (quantElem fmt [] (mode p.2 e.2) e.1 (rne32 (ue8m0 ((scales.getD (p.2 / 32) []).getD (e.2 / 32) 0x7F)))).1)) }

/-- A product of attention: sequential, from a start (R193, R194). -/
def attnProd (m n k shape mode : Nat) (a b : View) (init : Option (Nat → Nat → Nat)) : TileProd :=
  { m := m, n := n, k := k, shape := shape, mode := mode, a := a, b := b, init := init, treek := none, free := none }

/-- A matrix of values by row and column. -/
def tabulate (m n : Nat) (f : Nat → Nat → Nat) : List (List Nat) := (List.range m).map (fun i => (List.range n).map (f i))

/-- MODE of a product with the probabilities. -/
def AttnCmd.pmode (c : AttnCmd) : Nat := if c.pfmt = 1 then 2 else 0
def AttnCmd.pf (c : AttnCmd) : Nat := if c.pfmt = 1 then 4 else 0

/-- Output marks NaN and infinite of FP32 values stored in format f (R56). -/
def marksOf (f : Nat) (l : List Nat) : List (Bool × Bool) :=
  l.map (fun x => let c := outConv f (dec32 x); (codeNan f c, codeInf f c || isInf32 x))

/-- What lies between two cancellation points: reads, writes, the products that drain with those whose terms bound them (R450), all products
run, and the output rows written: matrix, row, marks. -/
structure AttnSeg where
  reads : List (Nat × Nat)
  writes : List (Nat × List Byte)
  checks : List (TileProd × List TileProd)
  prods : List TileProd
  outs : List (Nat × Nat × List (Bool × Bool))

/-- Rows [r0, r0 + n) of a tensor with their scales, at one point of use. -/
def Tensor.rowUse (t : Tensor) (r0 n : Nat) : List (Nat × Nat) := usePoint (t.codeRanges r0 (r0 + n) 0 t.k ++ t.scaleRanges r0 (r0 + n) 0 t.k)

/-- The visited block pairs in a loop order: `outer` blocks first. -/
def pairsOf (outer inner : Nat) (vis : Nat → Nat → Bool) : List (Nat × Nat) :=
  (List.range outer).flatMap (fun x => ((List.range inner).filter (vis x)).map (fun y => (x, y)))

/-- Scores of a block pair, masked, and the product they come from (R193). -/
def AttnCmd.scoreProd (c : AttnCmd) (rd : Nat → Nat → Nat) (qb kb : Nat) : TileProd :=
  attnProd (blockRows c.lq qb).2 (blockRows c.lk kb).2 c.dqk c.shapeS 0 ((c.q.view rd).fromRow (128 * qb)) ((c.kT.view rd).fromRow (128 * kb)) none
def AttnCmd.scores (c : AttnCmd) (rd : Nat → Nat → Nat) (qb kb : Nat) (p : TileProd) : List (List Nat) :=
  tabulate p.m p.n (fun i j => if c.allowed rd (128 * qb + i) (128 * kb + j) then fmul c.scale (p.f32 i j) else ninf32)

/-! ### ATTN_FWD (R193) -/

/-- A query block under way: M, L, Oacc by row. -/
structure FwdRows where
  m : List Nat
  l : List Nat
  o : List (List Nat)
  deriving DecidableEq, Repr

/-- One block pair: the rows after it and the two products run. -/
def AttnCmd.fwdPair (c : AttnCmd) (rd : Nat → Nat → Nat) (qb kb : Nat) (x : FwdRows) : FwdRows × List TileProd :=
  let sp := c.scoreProd rd qb kb
  let s := c.scores rd qb kb sp
  let mn := (s.zipIdx).map (fun p => fmax (x.m.getD p.2 ninf32) (p.1.foldl fmax ninf32))
  let pr := (s.zipIdx).map (fun p => p.1.map (fun v => if v = ninf32 then 0 else fexp (fsub v (mn.getD p.2 0))))
  let pq := quantRows c.pf pr
  let lt := (List.range sp.m).map (fun i => (ptree fadd ((List.range sp.n).map (fun j => some (rne32 ((pq.codeAt i j).mul (pq.scaleAt i j)))))).getD 0)
  let cf := (List.range sp.m).map (fun i =>
    let m := x.m.getD i ninf32
    if m = mn.getD i 0 ∨ (m % 2 ^ 31 = 0 ∧ mn.getD i 0 % 2 ^ 31 = 0) then 0x3F800000 else if m = ninf32 then 0 else fexp (fsub m (mn.getD i 0)))
  let pv := attnProd sp.m c.dv sp.n c.shapeV c.pmode pq.view ((c.v.view rd).flip (128 * kb)) none
  ({ m := mn
     l := (List.range sp.m).map (fun i => fadd (fmul (x.l.getD i 0) (cf.getD i 0)) (lt.getD i 0))
     o := tabulate sp.m c.dv (fun i j => fadd (fmul ((x.o.getD i []).getD j 0) (cf.getD i 0)) (pv.f32 i j)) }, [sp, pv])

/-- The outputs of a query block: rows of O as FP32 values, and LSE. -/
def AttnCmd.fwdOut (c : AttnCmd) (rd : Nat → Nat → Nat) (qb : Nat) (x : FwdRows) : List (List Nat × Nat) :=
  (List.range (blockRows c.lq qb).2).map (fun i =>
    let m := x.m.getD i ninf32
    if isNan32 m then (List.replicate c.dv nan32, nan32)
    else if !(List.range c.lk).any (c.allowed rd (128 * qb + i)) then (List.replicate c.dv 0, ninf32)
    else ((List.range c.dv).map (fun j => fdiv ((x.o.getD i []).getD j 0) (x.l.getD i 0)), fadd m (fln (x.l.getD i 0))))

/-- Writes and marks of query block qb. -/
def AttnCmd.fwdWrites (c : AttnCmd) (qb : Nat) (out : List (List Nat × Nat)) : List (Nat × List Byte) × List (Nat × Nat × List (Bool × Bool)) :=
  ((out.zipIdx).map (fun p => (c.o + (128 * qb + p.2) * c.ldo, packCodes c.fmtO (p.1.1.map (fun v => outConv c.fmtO (dec32 v)))))
      ++ [(c.lse + 512 * qb, out.flatMap (fun p => leBytes 4 p.2))],
   (out.zipIdx).map (fun p => (0, 128 * qb + p.2, marksOf c.fmtO p.1.1)))

/-- The segments of ATTN_FWD: one block pair each, with the outputs of the query blocks finished before it; the last outputs at the end. -/
def AttnCmd.fwdSegs (c : AttnCmd) (rd : Nat → Nat → Nat) : List AttnSeg :=
  let nq := ceilDiv c.lq 128
  let blank (qb : Nat) : FwdRows := let n := (blockRows c.lq qb).2; ⟨List.replicate n ninf32, List.replicate n 0, List.replicate n (List.replicate c.dv 0)⟩
  -- each query block's pairs with their products, and its outputs
  let blocks := (List.range nq).map (fun qb =>
    let kbs := (List.range (ceilDiv c.lk 128)).filter (c.visited rd qb)
    let (x, ps) := kbs.foldl (fun (acc : FwdRows × List (Nat × List TileProd)) kb =>
      let (y, pr) := c.fwdPair rd qb kb acc.1
      (y, acc.2 ++ [(kb, pr)])) (blank qb, [])
    (ps, c.fwdWrites qb (c.fwdOut rd qb x)))
  -- fold: finished outputs wait for the next segment
  let (segs, left) := (blocks.zipIdx).foldl (fun (acc : List AttnSeg × List (List (Nat × List Byte) × List (Nat × Nat × List (Bool × Bool)))) b =>
    let mine := (b.1.1.zipIdx).map (fun p => ({
      reads := (if p.2 = 0 then c.q.rowUse (128 * b.2) (blockRows c.lq b.2).2 else [])
        ++ c.kT.rowUse (128 * p.1.1) (blockRows c.lk p.1.1).2 ++ c.v.rowUse (128 * p.1.1) (blockRows c.lk p.1.1).2
      writes := if p.2 = 0 then acc.2.flatMap Prod.fst else []
      checks := p.1.2.map (fun y => (y, [y]))
      prods := p.1.2
      outs := if p.2 = 0 then acc.2.flatMap Prod.snd else [] } : AttnSeg))
    if mine.isEmpty then (acc.1, acc.2 ++ [b.1.2]) else (acc.1 ++ mine, [b.1.2])) ([], [])
  segs ++ [{ reads := [], writes := left.flatMap Prod.fst, checks := [], prods := [], outs := left.flatMap Prod.snd }]

/-! ### ATTN_BWD (R194) -/

/-- What the loops carry: dQ by row (none: not yet touched), and of the present key block the two accumulators with the products that have
gone into them. -/
structure BwdSt where
  dq : List (Option (List Nat))
  dv : List (List Nat)
  dk : List (List Nat)
  dvP : List TileProd
  dkP : List TileProd

/-- FP32 row i of a gradient in memory; +0 with INIT = 1. -/
def AttnCmd.gradRow (c : AttnCmd) (rd : Nat → Nat → Nat) (a w i : Nat) : List Nat :=
  (List.range w).map (fun j => if c.init then 0 else rd (a + i * AttnCmd.ldg w + 4 * j) 4)

/-- D(i) of R194. -/
def AttnCmd.dRow (c : AttnCmd) (rd : Nat → Nat → Nat) (i : Nat) : Nat :=
  let v := c.dO.view rd
  (ptree fadd ((List.range c.dv).map (fun j =>
    some (fmul (rne32 (((v.val i j).mul (v.ks i j)).mul v.g)) (rne32 (elemVal c.fmtO [] (storedCode rd c.fmtO c.o c.ldo i j))))))).getD 0

/-- One block pair, the j-th visited: the state after, the products run, and the new rows of dQ. -/
def AttnCmd.bwdPair (c : AttnCmd) (rd : Nat → Nat → Nat) (words : List (List Nat)) (j kb qb : Nat) (x : BwdSt) :
    BwdSt × List TileProd × List TileProd × List (List Nat) :=
  let sp := c.scoreProd rd qb kb
  let s := c.scores rd qb kb sp
  let q0 := 128 * qb
  let k0 := 128 * kb
  let p := (s.zipIdx).map (fun r => r.1.map (fun v => if v = ninf32 then 0 else fexp (fsub v (rd (c.lse + 4 * (q0 + r.2)) 4))))
  let dp := attnProd sp.m sp.n c.dv c.shapeS 0 ((c.dO.view rd).fromRow q0) ((c.v.view rd).fromRow k0) none
  let d := (List.range sp.m).map (fun i => c.dRow rd (q0 + i))
  let ds := tabulate sp.m sp.n (fun i e => fmul ((p.getD i []).getD e 0) (fsub (dp.f32 i e) (d.getD i 0)))
  let pq := quantSquare c.pf (fun _ _ => .rne) p
  let dsq := quantSquare 0 (fun r e => if c.srDs then .sr (r16At words (16384 * j + 128 * r + e)) else .rne) ds
  let dvp := attnProd sp.n c.dv sp.m c.shapeV c.pmode (pq.view.flip 0) ((c.dO.view rd).flip q0) (some (fun r e => (x.dv.getD r []).getD e 0))
  let dkp := attnProd sp.n c.dqk sp.m c.shapeV 0 (dsq.view.flip 0) ((c.q.view rd).flip q0) (some (fun r e => (x.dk.getD r []).getD e 0))
  let dqp := attnProd sp.m c.dqk sp.n c.shapeS 0 dsq.view ((c.kT.view rd).flip k0) none
  let dqNew := (List.range sp.m).map (fun i =>
    let old := match x.dq.getD (q0 + i) none with
      | some r => r
      | none => c.gradRow rd c.dq c.dqk (q0 + i)
    (List.range c.dqk).map (fun e => fadd (old.getD e 0) (fmul c.scale (dqp.f32 i e))))
  let bare (t : TileProd) : TileProd := { t with init := none }
  ({ dq := (x.dq.zipIdx).map (fun r => if q0 ≤ r.2 ∧ r.2 < q0 + sp.m then dqNew[r.2 - q0]? else r.1)
     dv := tabulate sp.n c.dv dvp.value, dk := tabulate sp.n c.dqk dkp.value, dvP := x.dvP ++ [bare dvp], dkP := x.dkP ++ [bare dkp] },
   [sp, dp, dqp], [dvp, dkp], dqNew)

/-- Rows of FP32 values written at a stride, with their marks. -/
def gradWrites (mat a w r0 : Nat) (rows : List (List Nat)) : List (Nat × List Byte) × List (Nat × Nat × List (Bool × Bool)) :=
  ((rows.zipIdx).map (fun p => (a + (r0 + p.2) * AttnCmd.ldg w, packCodes 9 p.1)), (rows.zipIdx).map (fun p => (mat, r0 + p.2, marksOf 9 p.1)))

/-- What the end of a key block leaves for the next segment. -/
structure BwdLeft where
  reads : List (Nat × Nat)
  writes : List (Nat × List Byte)
  checks : List (TileProd × List TileProd)
  outs : List (Nat × Nat × List (Bool × Bool))

/-- The end of key block kb: dK and dV of its rows (R194). `lastP`: the last products of the two chains. -/
def AttnCmd.bwdEnd (c : AttnCmd) (rd : Nat → Nat → Nat) (kb : Nat) (x : BwdSt) (lastP : List TileProd) : BwdLeft :=
  let (k0, n) := blockRows c.lk kb
  let gq := dec32 c.q.g
  let gdo := dec32 c.dO.g
  let dk := (List.range n).map (fun r => ((c.gradRow rd c.dk c.dqk (k0 + r)).zipIdx).map (fun e =>
    fadd e.1 (fmul c.scale (rne32 ((dec32 ((x.dk.getD r []).getD e.2 0)).mul gq)))))
  let dv := (List.range n).map (fun r => ((c.gradRow rd c.dvA c.dv (k0 + r)).zipIdx).map (fun e =>
    fadd e.1 (rne32 ((dec32 ((x.dv.getD r []).getD e.2 0)).mul gdo))))
  let a := gradWrites 1 c.dk c.dqk k0 dk
  let b := gradWrites 2 c.dvA c.dv k0 dv
  { reads := if c.init then [] else
      usePoint (rectRanges c.dk (AttnCmd.ldg c.dqk) 32 k0 (k0 + n) 0 c.dqk) ++ usePoint (rectRanges c.dvA (AttnCmd.ldg c.dv) 32 k0 (k0 + n) 0 c.dv)
    writes := a.1 ++ b.1
    checks := match lastP with
      | [u, w] => [(u, x.dvP), (w, x.dkP)]
      | _ => []
    outs := a.2 ++ b.2 }

/-- The segments of ATTN_BWD. -/
def AttnCmd.bwdSegs (c : AttnCmd) (rd : Nat → Nat → Nat) (words : List (List Nat)) : List AttnSeg :=
  let nq := ceilDiv c.lq 128
  let start : List (Option (List Nat)) := List.replicate c.lq none
  let (segs, left, _) := (List.range (ceilDiv c.lk 128)).foldl (fun (acc : List AttnSeg × List BwdLeft × List (Option (List Nat))) kb =>
    let (k0, n) := blockRows c.lk kb
    let qbs := (List.range nq).filter (fun qb => c.visited rd qb kb)
    let x0 : BwdSt := { dq := acc.2.2, dv := tabulate n c.dv (fun _ _ => 0), dk := tabulate n c.dqk (fun _ _ => 0), dvP := [], dkP := [] }
    let (mine, x, lastP) := qbs.foldl (fun (y : List AttnSeg × BwdSt × List TileProd) qb =>
      let (st, ps, chain, dqNew) := c.bwdPair rd words (acc.1.length + y.1.length) kb qb y.2.1
      let (q0, m) := blockRows c.lq qb
      let w := gradWrites 0 c.dq c.dqk q0 dqNew
      let first := y.1.isEmpty
      let seg : AttnSeg := {
        reads := (if first then acc.2.1.flatMap BwdLeft.reads ++ c.kT.rowUse k0 n ++ c.v.rowUse k0 n else [])
          ++ c.q.rowUse q0 m ++ c.dO.rowUse q0 m ++ usePoint (rectRanges c.o c.ldo (elemBits c.fmtO) q0 (q0 + m) 0 c.dv ++ [(c.lse + 4 * q0, 4 * m)])
          ++ (if c.init then [] else usePoint (rectRanges c.dq (AttnCmd.ldg c.dqk) 32 q0 (q0 + m) 0 c.dqk))
        writes := (if first then acc.2.1.flatMap BwdLeft.writes else []) ++ w.1
        checks := (if first then acc.2.1.flatMap BwdLeft.checks else []) ++ ps.map (fun z => (z, [z]))
        prods := ps ++ chain
        outs := (if first then acc.2.1.flatMap BwdLeft.outs else []) ++ w.2 }
      (y.1 ++ [seg], st, chain)) ([], x0, [])
    let e := c.bwdEnd rd kb x lastP
    if mine.isEmpty then (acc.1, acc.2.1 ++ [e], x.dq) else (acc.1 ++ mine, [e], x.dq)) ([], [], start)
  segs ++ [{ reads := left.flatMap BwdLeft.reads, writes := left.flatMap BwdLeft.writes, checks := left.flatMap BwdLeft.checks, prods := [],
             outs := left.flatMap BwdLeft.outs }]

/-! ### The commands -/

/-- Stream cycles and stationary loads of a product (R66): every 8-row block of at most 32 fits one pass. -/
def TileProd.streams (p : TileProd) : Nat := p.blocks * p.tiles * p.loads
def TileProd.loadsAll (p : TileProd) : Nat := p.tiles * p.loads

/-- The first segment in which a plausibility check fails (R450, R451). -/
def State.attnPls (s : State) (core : Nat) (segs : List AttnSeg) : Option (Nat × Option RangeFail × Option Nat) :=
  let streamsOf (x : AttnSeg) : Nat := (x.prods.map TileProd.streams).foldl (· + ·) 0
  (List.range segs.length).findSome? (fun n =>
    match segs[n]? with
    | none => none
    | some x =>
      let before := ((segs.take n).map streamsOf).foldl (· + ·) 0
      let rf := x.checks.findSome? (fun (p, terms) => (List.range p.tiles).findSome? (fun t =>
        s.rangeFail core (fun _ _ => p) (fun _ _ => terms) p 0 p.blocks (t * p.nshape) (min p.n ((t + 1) * p.nshape))))
      let sf := s.sumFail core ((s.core core).streamN + before) (streamsOf x)
      if rf.isSome || sf.isSome then some (n, rf, sf) else none)

/-- The flags over the output rows written, matrix by matrix; when several matrices hold a flagged element, which of them gives the position
is a free choice (DESIGN CHOICE, log 36). -/
def AttnCmd.flags (c : AttnCmd) (outs : List (Nat × Nat × List (Bool × Bool))) (free : Nat) : Flags :=
  let one (mat rows cols : Nat) : Flags := flagsOver rows cols (fun r e =>
    match outs.reverse.find? (fun x => x.1 == mat && x.2.1 == r) with
    | some x => x.2.2[e]?
    | none => none)
  let fs := if c.bwd then [one 0 c.lq c.dqk, one 1 c.lk c.dqk, one 2 c.lk c.dv] else [one 0 c.lq c.dv]
  let set := fs.filter (fun f => f.nanf || f.inff)
  let pick := set.getD ((Config.freeWord free).toNat % max 1 set.length) {}
  { pick with nanf := set.any Flags.nanf, inff := set.any Flags.inff }

/-- The stationary tile that the last product leaves (R70): V for ATTN_FWD, K for ATTN_BWD, of the last key block visited. -/
def AttnCmd.lastTile (c : AttnCmd) (rd : Nat → Nat → Nat) (kb : Nat) : ResidentTile :=
  let src := if c.bwd then c.kT else c.v
  let n := (blockRows c.lk kb).2
  let shape := if c.bwd then c.shapeS else c.shapeV
  let p := attnProd 1 src.k n shape 0 (src.view (fun _ _ => 0)) (src.view (fun _ _ => 0)) none
  let k0 := (p.loads - 1) * p.kshape
  let j0 := (p.tiles - 1) * p.nshape
  let cell (f : Nat → Nat → Nat) : List Nat := (List.range (p.kshape * p.nshape)).map (fun e =>
    let k := k0 + e / p.nshape
    let j := j0 + e % p.nshape
    if k < n ∧ j < src.k then f (128 * kb + k) j else 0)
  { shape := shape, mode := if c.bwd then 0 else c.pmode, fmtB := 0, sfmt := 1, codes := cell (src.code rd), scales := cell (src.scaleByte rd), book := [] }

/-- The work of ATTN_FWD or ATTN_BWD. `stop`: block pairs done when a recorded cancel stops it. -/
def State.runAttn (s : State) (q i : Nat) (stop : Option Nat) (fl : Flight) (d : List Byte) : State :=
  let c := attnCmd fl.bytes d
  let core := fl.core
  let rd (a n : Nat) : Nat := s.engNum fl.fn a n
  let visits := if c.bwd then pairsOf (ceilDiv c.lk 128) (ceilDiv c.lq 128) (fun kb qb => c.visited rd qb kb)
    else (pairsOf (ceilDiv c.lq 128) (ceilDiv c.lk 128) (c.visited rd)).map (fun x => (x.2, x.1))
  let npairs := visits.length
  let words := if c.bwd && c.srDs then (((s.core core).laneList).map (rngSteps (128 * npairs))).map Prod.fst else []
  let lens := if c.mask = 2 then usePoint [(c.len, 4 * c.lq)] else []
  let segs := match (if c.bwd then c.bwdSegs rd words else c.fwdSegs rd) with
    | x :: xs => { x with reads := lens ++ x.reads } :: xs
    | [] => []
  let pls := s.attnPls core segs
  let cut := match pls with
    | some (n, _, _) => segs.take (n + 1)
    | none => segs
  let jobs : List Seg := cut.map (fun x => { reads := x.reads, writes := x.writes })
  let r := (s.runJob fl.fn q i true ((fl.stopAt stop).map (max 1)) jobs).withPls fl pls
  let run := segs.take r.done
  let prods := run.flatMap AttnSeg.prods
  let sum (f : TileProd → Nat) : Nat := (prods.map f).foldl (· + ·) 0
  let pairs := (run.filter (fun x => !x.prods.isEmpty)).length
  let (free, s1) := r.st.draw
  let s2 := (s1.countN (A.CUB core 0x10) (sum (fun p => p.streams * (if p.mode = 2 then 4 else 1)))).countN (A.CUB core 0x18) (sum (fun p => 32 * p.loadsAll))
  let s3 := if prods.isEmpty then s2 else
    ((((s2.countCycles (A.CUB core 0x20)).countCycles (A.CUB core 0x30)).streamed core (sum TileProd.streams)).arrayActivity core
      (if c.bwd then c.shapeS else c.shapeV) (if c.bwd then 0 else c.pmode)).modCore core (fun x => { x with
        tile := if r.status = 0 then visits.getLast?.map (fun v => c.lastTile rd v.1) else none })
  let s4 := if c.bwd && c.srDs && decide (0 < pairs) then (s3.drawWords core (128 * pairs)).2 else s3
  ({ r with st := s4 } : JobResult).finish q i (c.flags (run.flatMap AttnSeg.outs) free)

def execAttnFwd (q i : Nat) (stop : Option Nat) (s : State) : Result :=
  s.withDesc q i 0x12 (fun fl d => (attnCmd fl.bytes d).bad fl.bytes d) (fun t fl d => t.runAttn q i stop fl d)
def execAttnBwd (q i : Nat) (stop : Option Nat) (s : State) : Result :=
  s.withDesc q i 0x13 (fun fl d => (attnCmd fl.bytes d).bad fl.bytes d)
    (fun t fl d => if (attnCmd fl.bytes d).srDs then t.drawing q i fl (fun u => u.runAttn q i stop fl d) else t.runAttn q i stop fl d)

end Sys2Proof.Machine
end

