-- ==== Sys2Proof/Machine/ColPlan.lean ====
section
/-!
DEFINITION. The schedule of a collective (R387, R389, R391, R393): virtual ranks, levels of exchange, chunk ranges, and the canonical
tree's node operation.
-/

namespace Sys2Proof.Machine

/-- Smallest power of two not below p (R389). -/
def pow2Ceil (p : Nat) : Nat := if p ≤ 1 then 1 else 2 ^ (Nat.log2 (p - 1) + 1)

/-- What a schedule depends on: members, own rank, root, total elements or bytes, and the chunk sizes of R387. -/
structure ColGeo where
  p : Nat
  me : Nat
  root : Nat
  n : Nat
  counts : List Nat
  deriving DecidableEq, Repr

/-- Leaves of the tree, and its levels. -/
def ColGeo.pp (g : ColGeo) : Nat := pow2Ceil g.p
def ColGeo.lv (g : ColGeo) : Nat := Nat.log2 g.pp

/-- The rank that plays slot v (R391). -/
def ColGeo.host (g : ColGeo) (v : Nat) : Nat := if v < g.p then v else v - g.pp / 2

/-- The slots this member plays. -/
def ColGeo.slots (g : ColGeo) : List Nat :=
  g.me :: (if g.p ≤ g.me + g.pp / 2 ∧ g.me + g.pp / 2 < g.pp then [g.me + g.pp / 2] else [])

/-- Present leaves in the aligned block of 2^l slots that holds u. -/
def ColGeo.present (g : ColGeo) (u l : Nat) : Nat :=
  let b := u / 2 ^ l * 2 ^ l
  min g.p (b + 2 ^ l) - b

/-- Start of internal chunk j, of Pp chunks of the n elements (R393). -/
def ColGeo.bound (g : ColGeo) (j : Nat) : Nat := j * (g.n / g.pp) + min j (g.n % g.pp)

/-- Chunk offset of rank q under R387. -/
def ColGeo.off (g : ColGeo) (q : Nat) : Nat := (g.counts.take q).foldl (· + ·) 0

/-- First internal chunk of slot u's range after l levels of halving, at which bit k of u chooses a half at level k (DESIGN CHOICE, log 20). -/
def ColGeo.lowOf (g : ColGeo) (u l : Nat) : Nat :=
  (List.range l).foldl (fun a k => a + (u / 2 ^ k % 2) * (g.pp / 2 ^ (k + 1))) 0

/-- Wire level of a transfer to slot t at level l: a hosted slot's is marked (DESIGN CHOICE, log 20). -/
def wireLevel (p l t : Nat) : Nat := l + (if p ≤ t then 0x80 else 0)

/-- A level at which slot u sends to `part u`: `has u` says it has something, `rng u` the range it sends. -/
def ColGeo.level (g : ColGeo) (l : Nat) (part : Nat → Nat) (has : Nat → Bool) (rng : Nat → Nat × Nat) (raw : Nat → Bool)
    (combine : Bool) : ColLevel :=
  { sends := g.slots.filterMap (fun u =>
      let t := part u
      if g.host t != g.me && has u && decide (0 < (rng u).2) then
        some { peer := g.host t, slot := u, lo := (rng u).1, len := (rng u).2, wire := wireLevel g.p l t, raw := raw u }
      else none)
    recvs := g.slots.filterMap (fun u =>
      let t := part u
      if g.host t != g.me && has t && decide (0 < (rng t).2) then
        some { peer := g.host t, slot := u, lo := (rng t).1, len := (rng t).2, wire := wireLevel g.p l u, raw := raw t }
      else none)
    locals := g.slots.filterMap (fun u =>
      let t := part u
      if g.host t == g.me && has t && decide (0 < (rng t).2) then some (t, u, (rng t).1, (rng t).2) else none)
    combine := combine }

/-- Recursive doubling of whole vectors up the tree. -/
def ColGeo.doubling (g : ColGeo) : List ColLevel :=
  (List.range g.lv).map (fun l => g.level l (fun u => u ^^^ 2 ^ l) (fun u => decide (0 < g.present u l)) (fun _ => (0, g.n))
    (fun u => g.present u l == 1) true)

/-- Recursive halving: at level l slot u sends the half of its range that its partner keeps. -/
def ColGeo.halving (g : ColGeo) : List ColLevel :=
  (List.range g.lv).map (fun l =>
    let half := g.pp / 2 ^ (l + 1)
    let rng (u : Nat) : Nat × Nat :=
      let a := g.lowOf (u ^^^ 2 ^ l) (l + 1)
      (g.bound a, g.bound (a + half) - g.bound a)
    g.level l (fun u => u ^^^ 2 ^ l) (fun u => decide (0 < g.present u l)) rng (fun u => g.present u l == 1) true)

/-- The allgather that undoes a halving: level k exchanges what has been gathered so far. -/
def ColGeo.unhalving (g : ColGeo) : List ColLevel :=
  (List.range g.lv).map (fun k =>
    let l := g.lv - 1 - k
    let size := g.pp / 2 ^ (l + 1)
    let rng (u : Nat) : Nat × Nat := let a := g.lowOf u (l + 1); (g.bound a, g.bound (a + size) - g.bound a)
    g.level (g.lv + k) (fun u => u ^^^ 2 ^ l) (fun _ => true) rng (fun _ => false) false)

/-- One level in which every slot sends parts of its internal chunk to ranks: `want q` is the range rank q takes. -/
def ColGeo.deal (g : ColGeo) (want : Nat → Nat × Nat) (takers : List Nat) : ColLevel :=
  let own (u : Nat) : Nat × Nat := let a := g.lowOf u g.lv; (g.bound a, g.bound (a + 1))
  let cut (u q : Nat) : Nat × Nat :=
    let lo := max (own u).1 (want q).1
    (lo, min (own u).2 ((want q).1 + (want q).2) - lo)
  let mk (u q peer : Nat) : Xfer :=
    { peer := peer, slot := if peer = q then u else g.me, lo := (cut u q).1, len := (cut u q).2, wire := wireLevel g.p g.lv u, raw := false }
  { sends := g.slots.flatMap (fun u => takers.filterMap (fun q =>
      if q != g.me && decide (0 < (cut u q).2) then some (mk u q q) else none))
    recvs := if takers.contains g.me then (List.range g.pp).filterMap (fun u =>
      if g.host u != g.me && decide (0 < (cut u g.me).2) then
        some { peer := g.host u, slot := g.me, lo := (cut u g.me).1, len := (cut u g.me).2, wire := wireLevel g.p g.lv u, raw := false }
      else none) else []
    locals := if takers.contains g.me then g.slots.filterMap (fun u =>
      if u != g.me && decide (0 < (cut u g.me).2) then some (u, g.me, (cut u g.me).1, (cut u g.me).2) else none) else []
    combine := false }

/-- REDUCE's way up the tree, then rank 0 to ROOT. -/
def ColGeo.reduceTree (g : ColGeo) : List ColLevel :=
  (List.range g.lv).map (fun l =>
    let up := decide (g.me % 2 ^ (l + 1) = 2 ^ l)
    let down := decide (g.me % 2 ^ (l + 1) = 0) && decide (g.me + 2 ^ l < g.p)
    { sends := if up then
        [{ peer := g.me - 2 ^ l, slot := g.me, lo := 0, len := g.n, wire := l, raw := g.present g.me l == 1 }] else []
      recvs := if down then
        [{ peer := g.me + 2 ^ l, slot := g.me, lo := 0, len := g.n, wire := l, raw := g.present (g.me + 2 ^ l) l == 1 }] else []
      locals := []
      combine := true : ColLevel })
  ++ [{ sends := if g.me = 0 ∧ g.root ≠ 0 then [{ peer := g.root, slot := 0, lo := 0, len := g.n, wire := g.lv, raw := false }] else []
        recvs := if g.me = g.root ∧ g.root ≠ 0 then [{ peer := 0, slot := g.me, lo := 0, len := g.n, wire := g.lv, raw := false }]
                 else []
        locals := []
        combine := false }]

/-- Each rank of `from_` sends its range directly to every other rank that takes it. -/
def ColGeo.direct (g : ColGeo) (from_ : List Nat) (rng : Nat → Nat × Nat) : ColLevel :=
  let others := (List.range g.p).filter (· != g.me)
  let x (peer src : Nat) : Xfer := { peer := peer, slot := g.me, lo := (rng src).1, len := (rng src).2, wire := 0, raw := false }
  { sends := if from_.contains g.me && decide (0 < (rng g.me).2) then others.map (fun q => x q g.me) else []
    recvs := (from_.filter (fun q => q != g.me && decide (0 < (rng q).2))).map (fun q => x q q)
    locals := []
    combine := false }

/-- BROADCAST by halving from ROOT. -/
def ColGeo.scatter (g : ColGeo) : List ColLevel :=
  (List.range g.lv).map (fun k =>
    let d := g.pp / 2 ^ (k + 1)
    let holds (u : Nat) : Bool := (u ^^^ g.root) % (2 * d) == 0
    let rng (u : Nat) : Nat × Nat := let a := (u ^^^ d) / d * d; (g.bound a, g.bound (a + d) - g.bound a)
    g.level k (fun u => u ^^^ d) holds rng (fun _ => false) false)

/-- The doubling that follows a scatter, or gathers chunks that lie in rank order; `start b` is where the chunks of slot b begin. -/
def ColGeo.gather (g : ColGeo) (base : Nat) (start : Nat → Nat) : List ColLevel :=
  (List.range g.lv).map (fun l =>
    let rng (u : Nat) : Nat × Nat := let b := u / 2 ^ l * 2 ^ l; (start b, start (b + 2 ^ l) - start b)
    g.level (base + l) (fun u => u ^^^ 2 ^ l) (fun _ => true) rng (fun _ => false) false)

/-- PAIRWISE (R393): rank me sends to (me + k) mod P in order; slots 2^16 + q and 2^17 + q hold what goes to and comes from q. -/
def ColGeo.pairwise (g : ColGeo) (a2a : List (Nat × Nat × Nat × Nat)) : List ColLevel :=
  let ks := (List.range (g.p - 1)).map (fun k => (g.me + k + 1) % g.p)
  let sc (q : Nat) : Nat := (a2a.getD q (0, 0, 0, 0)).1
  let rc (q : Nat) : Nat := (a2a.getD q (0, 0, 0, 0)).2.2.1
  [{ sends := (ks.filter (fun q => decide (0 < sc q))).map (fun q =>
       { peer := q, slot := 2 ^ 16 + q, lo := 0, len := sc q, wire := 0, raw := false })
     recvs := (ks.filter (fun q => decide (0 < rc q))).map (fun q =>
       { peer := q, slot := 2 ^ 17 + q, lo := 0, len := rc q, wire := 0, raw := false })
     locals := []
     combine := false }]

/-- The levels of a collective (R393). Algorithms: 0 TREE, 1 BANDWIDTH, 2 PAIRWISE, 3 LOCAL. -/
def ColGeo.plan (g : ColGeo) (op algo : Nat) (a2a : List (Nat × Nat × Nat × Nat)) : List ColLevel :=
  if algo = 3 then []
  else if op = 0x65 then g.pairwise a2a
  else if op = 0x66 then g.doubling
  else if op = 0x60 then (if algo = 0 then g.doubling else g.halving ++ g.unhalving)
  else if op = 0x61 then
    (if algo = 0 then g.doubling else g.halving ++ [g.deal (fun q => (g.off q, g.counts.getD q 0)) (List.range g.p)])
  else if op = 0x64 then (if algo = 0 then g.reduceTree else g.halving ++ [g.deal (fun _ => (0, g.n)) [g.root]])
  else if op = 0x62 then
    (if algo = 0 then [g.direct (List.range g.p) (fun q => (g.off q, g.counts.getD q 0))] else g.gather 0 g.off)
  else (if algo = 0 then [g.direct [g.root] (fun _ => (0, g.n))] else g.scatter ++ g.gather g.lv g.bound)

/-! ### Vectors -/

/-- A range of a slot's vector replaced; an absent vector becomes zeros outside it. -/
def setRange (total : Nat) (v : List Nat) (lo : Nat) (d : List Nat) : List Nat :=
  let v := if v.isEmpty then List.replicate total 0 else v
  v.take lo ++ d ++ v.drop (lo + d.length)

/-- A range of a slot's vector combined with what arrived by a node operation; an absent vector takes it. -/
def combRange (f : Nat → Nat → Nat) (total : Nat) (v : List Nat) (lo : Nat) (d : List Nat) : List Nat :=
  if v.isEmpty then setRange total v lo d else v.take lo ++ List.zipWith f ((v.drop lo).take d.length) d ++ v.drop (lo + d.length)

/-- Node operation of the canonical tree (R389). -/
def nodeOp (max_ : Bool) (a b : Nat) : Nat := if max_ then fmax a b else fadd a b

/-- Reductions. -/
def isReduction (op : Nat) : Bool := op == 0x60 || op == 0x61 || op == 0x64

/-- Bytes per element on the wire (R393). -/
def wireSize (op dtIn : Nat) (raw : Bool) : Nat := if !isReduction op then 1 else if raw && dtIn == 8 then 2 else 4

/-- Wire form of values (R393). -/
def toWire (w : Nat) (l : List Nat) : List Byte :=
  l.flatMap (fun c => if w = 1 then leBytes 1 c else if w = 2 then leBytes 2 (c / 65536) else leBytes 4 c)

/-- Values of a wire form. -/
def ofWire (w : Nat) (b : List Byte) : List Nat :=
  (List.range (b.length / w)).map (fun i => if w = 2 then bf16to32 (fieldAt b (2 * i) 2) else fieldAt b (w * i) w)

/-- Bytes of chunk k of a wire form (R397). -/
def chunkBytes (b : List Byte) (k : Nat) : List Byte := (b.drop (65536 * k)).take 65536

/-- Chunks of a wire form of n bytes. -/
def chunkCount (n : Nat) : Nat := (n + 65535) / 65536

/-- Postmark of a chunk (R397). -/
def postmark (comm seq rank level chunk : Nat) (b : List Byte) : Nat :=
  (crc64 (leBytes 4 comm ++ leBytes 4 seq ++ leBytes 2 rank ++ leBytes 1 level ++ leBytes 1 0 ++ leBytes 4 chunk ++ b)).toNat

end Sys2Proof.Machine
end

