-- ==== Sys2Proof/Machine/Collective.lean ====
section
/-!
DEFINITION. The collective engine (chapter 14): communicators, the start of a collective, chunks and postmarks, messages, spot
recompute, slowest member, completion and failure. STEP decisions travel in `Machine/Steps.lean`.
-/

namespace Sys2Proof.Machine

/-! ### Communicators (R380, R381) -/

/-- The entry COMM of function f's table, with its member list, read now. -/
def State.readComm (s : State) (f comm : Nat) : Comm :=
  let a := s.reg (A.COLF f 0) + 64 * comm
  let e := s.engRead f a 64
  let p := fieldAt e 0 2
  { p := p, rank := fieldAt e 2 2, checker := fieldAt e 4 2, members := (List.range p).map (fun r => s.engNum f (fieldAt e 8 8 + 4 * r) 4)
    thresh := fieldAt e 16 4, timeout := fieldAt e 20 4, waitAddr := fieldAt e 24 8, spotSeed := fieldAt e 32 8 }

/-- Node of a member word. -/
def memberNode (w : Nat) : Nat := w % 4096

def Comm.node (c : Comm) (r : Nat) : Nat := memberNode (c.members.getD r 0)

/-- The entry breaks R381. -/
def State.commBad (s : State) (f comm : Nat) : Bool :=
  let a := s.reg (A.COLF f 0) + 64 * comm
  let e := s.engRead f a 64
  let c := s.readComm f comm
  decide (min 4096 (s.fld (A.COLF f 8) 15 0) ≤ comm) || c.p == 0 || decide (16384 < c.p) || decide (c.p ≤ c.rank)
    || decide (c.checker ≠ 0xFFFF ∧ c.p ≤ c.checker)
    || c.members.getD c.rank 0 != s.node + f * 4096 || c.members.any (fun w => decide (2 ^ 21 ≤ w))
    || c.members.eraseDups.length != c.members.length
    || (firstNonzero e (6 :: 7 :: offs 40 63)).isSome || fieldAt e 8 8 % 4 != 0 || fieldAt e 24 8 % 8 != 0

/-! ### Command fields (R384, R385) -/

def colDtIn (b : List Byte) : Nat := byteAt b 52 % 16
def colDtOut (b : List Byte) : Nat := byteAt b 52 / 16
def colOp (b : List Byte) : Nat := byteAt b 53 % 4
def colAlgo (b : List Byte) : Nat := byteAt b 53 / 4 % 4
def colSpot (b : List Byte) : Bool := bitOf (byteAt b 53) 4
def colCount (b : List Byte) : Nat := fieldAt b 48 4
def colRoot (b : List Byte) : Nat := fieldAt b 54 2

/-- Field checks of a collective command (R313, R384, R388). -/
def colBad (fl : Flight) : Option Nat :=
  let b := fl.bytes
  let op := byteAt b 0
  firstBad [(32, fieldAt b 32 8 % 64 == 0), (48, op != 0x66 || colCount b == 0),
    (52, !isReduction op || ((colDtIn b == 9 || colDtIn b == 8 || colDtIn b == 4) && (colDtOut b == 9 || colDtOut b == 8 || colDtOut b == 4))),
    (52, isReduction op || byteAt b 52 == 0),
    (53, decide (byteAt b 53 < 32) && colAlgo b != 3 && (if isReduction op then decide (colOp b < 2) else colOp b == 0)),
    (54, op == 0x63 || op == 0x64 || colRoot b == 0), (60, fieldAt b 60 4 == 0)]

/-- Chunk sizes by rank (R387), in elements for reductions and bytes for movement. -/
def State.colCounts (s : State) (f : Nat) (b d : List Byte) (p : Nat) : List Nat :=
  let a := fieldAt d 40 8
  let op := byteAt b 0
  if a ≠ 0 ∧ (op = 0x61 ∨ op = 0x62) then (List.range p).map (fun r => s.engNum f (a + 4 * r) 4)
  else if op = 0x62 then List.replicate p (colCount b)
  else (List.range p).map (fun r => colCount b / p + b2n (decide (r < colCount b % p)))

/-- Counts and offsets of ALLTOALLV by rank. -/
def State.colA2a (s : State) (f : Nat) (d : List Byte) (p : Nat) : List (Nat × Nat × Nat × Nat) :=
  (List.range p).map (fun r => (s.engNum f (fieldAt d 48 8 + 8 * r) 8, s.engNum f (fieldAt d 56 8 + 8 * r) 8,
    s.engNum f (fieldAt d 64 8 + 8 * r) 8, s.engNum f (fieldAt d 72 8 + 8 * r) 8))

/-- Scales of n E4M3 elements, one per 32 (R388). -/
def scaleCount (n : Nat) : Nat := (n + 31) / 32

/-- The ranges a collective reads with seals: IN and IN_SCL (R386, R400). -/
def Collective.inputs (c : Collective) : List (Nat × Nat) :=
  let n := colCount c.cmd
  let a := fieldAt c.desc 0 8
  let me := c.comm.rank
  if isReduction c.op then
    (a, n * elemBytes (colDtIn c.cmd) 1) :: (if colDtIn c.cmd = 4 then [(fieldAt c.desc 16 8, scaleCount n)] else [])
  else if c.op = 0x62 then [(a, c.counts.getD me 0)]
  else if c.op = 0x63 then (if colRoot c.cmd = me then [(a, n)] else [])
  else if c.op = 0x65 then c.a2a.map (fun x => (a + x.2.1, x.1))
  else []

/-- Elements or bytes of OUT on this member. -/
def Collective.outLen (c : Collective) : Nat :=
  if c.op = 0x60 then colCount c.cmd
  else if c.op = 0x61 then c.counts.getD c.comm.rank 0
  else if c.op = 0x64 then (if colRoot c.cmd = c.comm.rank then colCount c.cmd else 0)
  else if c.op = 0x62 then c.counts.foldl (· + ·) 0
  else if c.op = 0x63 then colCount c.cmd
  else 0

/-- The ranges a collective writes: OUT, OUT_SCL and SCRATCH. -/
def Collective.outputs (c : Collective) : List (Nat × Nat) :=
  let a := fieldAt c.desc 8 8
  if isReduction c.op then
    [(a, c.outLen * elemBytes (colDtOut c.cmd) 1)]
      ++ (if colDtOut c.cmd = 4 then [(fieldAt c.desc 24 8, scaleCount c.outLen)] else [])
      ++ [(fieldAt c.desc 32 8, (8 * colCount c.cmd + 2047) / 2048 * 2048)]
  else if c.op = 0x65 then c.a2a.map (fun x => (a + x.2.2.2, x.2.2.1))
  else if c.op = 0x66 then [] else [(a, c.outLen)]

/-- The descriptor's arrays. -/
def Collective.arrays (c : Collective) : List (Nat × Nat) :=
  let p := c.comm.p
  (if fieldAt c.desc 40 8 ≠ 0 ∧ (c.op = 0x61 ∨ c.op = 0x62) then [(fieldAt c.desc 40 8, 4 * p)] else [])
    ++ (if c.op = 0x65 then (List.range 4).map (fun k => (fieldAt c.desc (48 + 8 * k) 8, 8 * p)) else [])

/-- Two ranges of a list share a byte. -/
def selfOverlap (w : List (Nat × Nat)) : Bool :=
  (w.zipIdx).any (fun x => (w.zipIdx).any (fun y => decide (x.2 < y.2) && overlaps x.1.1 x.1.2 y.1.1 y.1.2))

/-- IN, OUT, SCRATCH or an array shares a byte with another of them; equal IN and OUT of an ALLREDUCE are allowed, and the parts of one ALLTOALLV
buffer are that one buffer (R386). -/
def Collective.overlapping (c : Collective) : Bool :=
  let w := c.outputs
  let r := c.inputs ++ c.arrays
  w.any (fun x => r.any (fun y => overlaps x.1 x.2 y.1 y.2
      && !(c.op == 0x60 && x.1 == fieldAt c.desc 8 8 && y.1 == fieldAt c.desc 0 8 && x.1 == y.1)))
    || (c.op != 0x65 && selfOverlap w) || selfOverlap c.arrays
    || c.arrays.any (fun x => c.inputs.any (fun y => overlaps x.1 x.2 y.1 y.2))

/-- ROOT against P, and the descriptor's checks, offsets counted from 64 (R384 to R388). -/
def Collective.descBad (c : Collective) : Option Nat :=
  let d := c.desc
  firstBad ([(54, !(c.op == 0x63 || c.op == 0x64) || decide (colRoot c.cmd < c.comm.p)), (64, fieldAt d 0 8 % 16 == 0), (72, fieldAt d 8 8 % 16 == 0),
    (96, !isReduction c.op || fieldAt d 32 8 % 2048 == 0), (104, c.op != 0x61 || c.counts.foldl (· + ·) 0 == colCount c.cmd),
    (104, !(c.op == 0x61 && colDtOut c.cmd == 4)
      || (List.range c.comm.p).all (fun r => (c.counts.take r).foldl (· + ·) 0 % 32 == 0)),
    (72, !c.overlapping)] ++ (offs 80 127).map (fun o => (64 + o, byteAt d o == 0)))

/-! ### The engine's table -/

/-- COL_STATUS follows the tables (R409). -/
def State.colStatus (s : State) : State :=
  (s.setFld A.COL_STATUS 38 32 s.col.running.length).setFld A.COL_STATUS 8 0 s.col.early.length

/-- One running collective changed. -/
def State.putCol (s : State) (c : Collective) : State :=
  { s with col := { s.col with running := s.col.running.map (fun x => if x.queue == c.queue && x.index == c.index then c else x) } }

def State.findCol (s : State) (q i : Nat) : Option Collective := s.col.running.find? (fun c => c.queue == q && c.index == i)

/-- The match (communicator, SEQ) of function f has completed: that is remembered, and messages held for it are late (R398). -/
def State.matchDone (s : State) (f comm seq : Nat) : State :=
  let mine (m : FabMsg) : Bool := s.pkey f == m.pkey && fieldAt m.data 0 4 == comm && fieldAt m.data 4 4 == seq
  (({ s with col := { s.col with
      early := s.col.early.filter (fun m => !mine m)
      done := (f, comm, seq) :: s.col.done.filter (· != (f, comm, seq)) } } : State).count (A.COL 0x48) (s.col.early.filter mine).length).colStatus

/-- A collective leaves the engine. -/
def State.dropCol (s : State) (c : Collective) : State :=
  ({ s with col := { s.col with running := s.col.running.filter (fun x => !(x.queue == c.queue && x.index == c.index)) } } : State).matchDone
    c.fn c.commId c.seq

/-- The outputs of a collective that ends other than OK or MALFORMED: chunks are written as they are accepted (R399), so each block of OUT and
SCRATCH may have been written; one that was holds free values under the void seal (R405; DESIGN CHOICE, log 8). -/
def State.spoilOutputs (s : State) (c : Collective) : State :=
  if !c.inn.any ChunkIn.accepted then s
  else (c.outputs.flatMap (fun r => chunks r.1 r.2)).foldl (fun t x =>
    if (Config.freeByte t.free).toNat % 2 = 0 then { t with free := t.free + 1 }
    else
      let bs := (List.range x.2).map (fun k => Config.freeByte (t.free + 1 + k))
      match ({ t with free := t.free + 1 + x.2 } : State).engWriteChunk c.fn x.1 bs with
      | (u, some p) => u.voidBlock (blockOf p)
      | (u, none) => u) s

/-- Collectives whose command has ended otherwise (a fault, a reset) leave without ABORT (R406). -/
def State.pruneCols (s : State) : State :=
  (s.col.running.filter (fun c => match s.flight? c.queue c.index with | some fl => fl.ended | none => true)).foldl
    (fun t c => (t.spoilOutputs c).dropCol c) s

/-! ### Messages (R394, R396) -/

def Collective.geo (c : Collective) : ColGeo :=
  { p := c.comm.p, me := c.comm.rank, root := colRoot c.cmd
    n := if c.op = 0x62 then c.counts.foldl (· + ·) 0 else colCount c.cmd, counts := c.counts }

/-- A collective message to a rank. -/
def State.colSend (s : State) (c : Collective) (rank mtype aux tag addr : Nat) (data : List Byte) : State :=
  s.sendMsg { dst := c.comm.node rank, src := s.node, pkey := s.pkey c.fn, mtype := mtype, flags := 0, aux := aux
              tag := (c.seq ^^^ tag) % 2 ^ 32, addr := addr, sealW := 0, data := data }

/-- The arrival fields a message carries. -/
def Collective.arrivalBytes (c : Collective) (pad : Nat) : List Byte :=
  leBytes 8 c.aMax ++ leBytes 2 c.aRank ++ leBytes pad 0 ++ leBytes 8 c.aMin

/-- The ranks whose arrival this member's completion depends on (R402). -/
def Collective.inM (c : Collective) (r : Nat) : Bool :=
  let g := c.geo
  let me := g.me
  if c.op = 0x64 ∧ me ≠ g.root ∧ me ≠ 0 then
    let l := ((List.range g.lv).find? (fun l => decide (me % 2 ^ (l + 1) = 2 ^ l))).getD 0
    decide (me ≤ r) && decide (r < me + 2 ^ l)
  else if c.op = 0x63 then (if me = g.root then r == me else if c.algo = 1 then true else r == g.root || r == me)
  else true

/-- An arrival beat of a rank is taken into account. -/
def Collective.meet (c : Collective) (rank aMax aMin : Nat) : Collective :=
  if !c.inM rank then c
  else
    let c1 := if c.aMax < aMax ∨ (c.aMax = aMax ∧ rank < c.aRank) then { c with aMax := aMax, aRank := rank } else c
    { c1 with aMin := min c1.aMin aMin }

/-- COL_BYTES_TX and COL_BYTES_RX count every 2,048 bytes; what is left over counts with the next (R411). -/
def State.countTx (s : State) (n : Nat) : State :=
  ({ s with col := { s.col with txRest := (s.col.txRest + n) % 2048 } } : State).count (A.COL 0x18) ((s.col.txRest + n) / 2048)
def State.countRx (s : State) (n : Nat) : State :=
  ({ s with col := { s.col with rxRest := (s.col.rxRest + n) % 2048 } } : State).count (A.COL 0x20) ((s.col.rxRest + n) / 2048)

/-- The data messages and the postmark of a chunk leave (R396, R397). -/
def State.sendChunk (s : State) (c : Collective) (o : ChunkOut) : State :=
  let n := (o.bytes.length + 2047) / 2048
  let s1 := (List.range n).foldl (fun t k =>
    t.colSend c o.peer 0x20 o.level o.chunk (2048 * k) ((o.bytes.drop (2048 * k)).take 2048)) s
  let mark := postmark c.commId c.seq c.comm.rank o.level o.chunk o.bytes
  (s1.colSend c o.peer 0x21 0 o.chunk 0
    (leBytes 4 c.commId ++ leBytes 4 c.seq ++ leBytes 2 c.comm.rank ++ leBytes 1 o.level ++ leBytes 1 0 ++ leBytes 4 o.chunk
      ++ leBytes 4 o.bytes.length ++ leBytes 4 0 ++ leBytes 8 mark ++ c.arrivalBytes 6)).countTx o.bytes.length

/-- A control message: 1 ARRIVE, 2 ABORT (R396). An ARRIVE of level l carries l where data carry their chunk index (DESIGN CHOICE, log 20). -/
def State.sendCtrl (s : State) (c : Collective) (rank kind level : Nat) : State :=
  s.colSend c rank 0x24 0 level 0
    (leBytes 4 c.commId ++ leBytes 4 c.seq ++ leBytes 1 kind ++ leBytes 1 0 ++ leBytes 2 c.comm.rank ++ leBytes 4 0 ++ c.arrivalBytes 6)

/-- READY messages to ranks. -/
def State.sendReady (s : State) (c : Collective) (ranks : List Nat) : State :=
  ranks.foldl (fun t r => t.colSend c r 0x23 0 0 0
    (leBytes 4 c.commId ++ leBytes 4 c.seq ++ leBytes 2 c.comm.rank ++ leBytes 6 0 ++ leBytes 8 c.arrival ++ leBytes 8 c.digest)) s

/-- The ranks this member receives from. -/
def Collective.sources (c : Collective) : List Nat := (c.levels.flatMap (fun l => l.recvs.map Xfer.peer)).eraseDups

/-- ABORT to every other member (R405). -/
def State.sendAborts (s : State) (c : Collective) : State :=
  ((List.range c.comm.p).filter (· != c.comm.rank)).foldl (fun t r => t.sendCtrl c r 2 0) s

/-! ### Ends (R403 to R405) -/

/-- A collective ends other than by finishing: it leaves, and its command ends; MALFORMED has written nothing. -/
def State.endCol (s : State) (c : Collective) (status detail : Nat) : State :=
  ((if status = 8 then s else s.spoilOutputs c).dropCol c).endFlight c.queue c.index status detail

/-- A collective command refused before its algorithm is chosen: DETAIL's fields are 0, and the match has completed (R313; DESIGN CHOICE, log 20). -/
def State.refuseCol (s : State) (fl : Flight) (status : Nat) : State :=
  (s.matchDone fl.fn (fieldAt fl.bytes 40 4) (fieldAt fl.bytes 44 4)).endFlight fl.queue fl.index status 0

/-- A failure with its CAUSE (R404, R405). -/
def State.failCol (s : State) (c : Collective) (status cause : Nat) (abort : Bool) : State :=
  let s1 := if abort then s.sendAborts c else s
  s1.endCol c status (colDetail c.algo cause (c.aMax - c.arrival) c.aRank)

/-- A POSTMARK record (R462): its unit is the queue of the collective (DESIGN CHOICE, log 20). -/
def State.postmarkRecord (s : State) (c : Collective) : State :=
  s.record { cls := 1, cause := 9, unitKind := 9, unit := c.queue, fn := c.fn, queue := c.queue, index := c.index }

/-- Output values to bytes, with the codes for the flags; E4M3 outputs come with their scales (R388). -/
def colConvert (dt : Nat) (v : List Nat) : List Byte × List Byte × List Nat :=
  if dt = 4 then
    let gs := (groupsOf 32 (scaleCount v.length) v).map quantE4M3
    let codes := gs.flatMap Prod.snd
    (packCodes 4 codes, gs.flatMap (fun g => leBytes 1 g.1), codes)
  else
    let codes := v.map (fun x => outConv dt (dec32 x))
    (packCodes dt codes, [], codes)

def Collective.vec (c : Collective) (k : Nat) : List Nat := smapGet (fun _ => ([] : List Nat)) c.vecs k

/-- The writes of a finished collective, with the output codes of a reduction. -/
def Collective.results (c : Collective) : List (Nat × List Byte) × List Nat :=
  let a := fieldAt c.desc 8 8
  let me := c.comm.rank
  let v := c.vec me
  if isReduction c.op then
    let part := if c.op = 0x61 then (v.drop (c.geo.off c.comm.rank)).take c.outLen else if c.outLen = 0 then [] else v
    let (b, sc, codes) := colConvert (colDtOut c.cmd) part
    ((a, b) :: (if colDtOut c.cmd = 4 then [(fieldAt c.desc 24 8, sc)] else []), codes)
  else if c.op = 0x65 then
    ((List.range c.comm.p).map (fun q => (a + (c.a2a.getD q (0, 0, 0, 0)).2.2.2, (c.vec (2 ^ 17 + q)).map (BitVec.ofNat 8))), [])
  else if c.op = 0x66 then ([], [])
  else ([(a, v.map (BitVec.ofNat 8))], [])

/-- The bytes that two ranges of a list share, as ranges. -/
def sharedRanges : List (Nat × Nat) → List (Nat × Nat)
  | [] => []
  | x :: xs => xs.filterMap (fun y => if overlaps x.1 x.2 y.1 y.2 then
      some (max x.1 y.1, min (x.1 + x.2) (y.1 + y.2) - max x.1 y.1) else none) ++ sharedRanges xs

/-- Writes of free bytes to ranges, drawn from number n on. -/
def freeWrites : Nat → List (Nat × Nat) → List (Nat × List Byte)
  | _, [] => []
  | n, r :: rs => (r.1, (List.range r.2).map (fun k => Config.freeByte (n + k))) :: freeWrites (n + r.2) rs

/-- Free bytes for SCRATCH, and for what two ranks of an ALLTOALLV write alike: no rule gives the contents (DESIGN CHOICE, log 8). -/
def State.scratchWrites (s : State) (c : Collective) : State × List (Nat × List Byte) :=
  let rs := if isReduction c.op ∧ c.algo ≠ 3 then [(fieldAt c.desc 32 8, (8 * colCount c.cmd + 2047) / 2048 * 2048)]
    else if c.op = 0x65 then sharedRanges c.outputs else []
  ({ s with free := s.free + (rs.map Prod.snd).foldl (· + ·) 0 }, freeWrites s.free rs)

/-- The wait counter of the slowest rank, or COL_CRIT_BEATS (R403). -/
def State.slowCounters (s : State) (c : Collective) : State :=
  let s1 := if c.aRank = c.comm.rank then s.count (A.COL 0x60) (c.arrival - c.aMin) else s
  let a := c.comm.waitAddr + 8 * c.aRank
  if c.comm.waitAddr = 0 ∨ (s1.refused c.fn a 8 true).isSome then s1
  else
    let r := s1.runJob c.fn c.queue c.index false none
      [{ reads := [], writes := [(a, leBytes 8 (s1.engNum c.fn a 8 + (c.aMax - c.arrival)))] }]
    r.st

/-- A collective whose work is done writes its outputs, seals them and ends (R400, R404). -/
def State.finishCol (s : State) (c : Collective) : State :=
  let (ws, codes) := c.results
  let (s1, sw) := s.scratchWrites c
  let r := s1.runJob c.fn c.queue c.index false none [{ reads := [], writes := ws ++ sw }]
  let d := colDetail c.algo 0 (c.aMax - c.arrival) c.aRank
  let fl := if isReduction c.op then outFlags (colDtOut c.cmd) (max 1 codes.length) codes (fun _ => false) else {}
  (({ r with detail := d }.finish c.queue c.index fl).slowCounters c).dropCol c

/-! ### Spot recompute (R401) -/

/-- SPOT applies: a reduction of a communicator with a checker. -/
def Collective.spotOn (c : Collective) : Bool :=
  isReduction c.op && colSpot c.cmd && c.comm.checker != 0xFFFF && c.algo != 3

/-- Sampled chunks of the FP32 result vector. -/
def Collective.sampled (c : Collective) : List Nat :=
  if !c.spotOn then []
  else (List.range (chunkCount (4 * colCount c.cmd))).filter (fun k =>
    mix64n (c.comm.spotSeed ^^^ (c.seq * 2 ^ 32) ^^^ k) % 1024 == 0)

/-- Elements of chunk k. -/
def Collective.chunkElems (c : Collective) (k : Nat) : Nat × Nat := (16384 * k, min 16384 (colCount c.cmd - 16384 * k))

/-- Parts of a chunk's result, each with the rank whose result holds it: rank 0 under TREE, the internal owners under BANDWIDTH. -/
def Collective.spotParts (c : Collective) (k : Nat) : List (Nat × Nat × Nat × Nat) :=
  let (a, n) := c.chunkElems k
  let g := c.geo
  if c.algo = 0 then [(0, 0, a, n)]
  else (List.range g.pp).filterMap (fun u =>
    let j := g.lowOf u g.lv
    let lo := max a (g.bound j)
    let hi := min (a + n) (g.bound (j + 1))
    if lo < hi then some (g.host u, u, lo, hi - lo) else none)

/-- A COL_SPOT message: a 28-byte head (COMM, SEQ, rank, kind, chunk, first element or offset, postmark) and bytes (DESIGN CHOICE, log 20). -/
def State.sendSpotPiece (s : State) (c : Collective) (kind chunk off mark : Nat) (b : List Byte) : State :=
  s.colSend c c.comm.checker 0x25 0 chunk 0
    (leBytes 4 c.commId ++ leBytes 4 c.seq ++ leBytes 2 c.comm.rank ++ leBytes 1 kind ++ leBytes 1 0 ++ leBytes 4 chunk ++ leBytes 4 off
      ++ leBytes 8 mark ++ b)

/-- A member's contribution to every sampled chunk goes to the checker, at the start. -/
def State.sendSpots (s : State) (c : Collective) : State :=
  c.sampled.foldl (fun t k =>
    let (a, n) := c.chunkElems k
    let b := toWire 4 (((c.vec c.comm.rank).drop a).take n)
    let mark := postmark c.commId c.seq c.comm.rank 0xFF k b
    (List.range ((b.length + 1983) / 1984)).foldl (fun t j =>
      t.sendSpotPiece c 0 k (1984 * j) mark ((b.drop (1984 * j)).take 1984)) t) s

/-- The postmarks of the results this member holds go to the checker, once its work is done. -/
def State.sendSpotMarks (s : State) (c : Collective) : State :=
  c.sampled.foldl (fun t k => ((c.spotParts k).filter (fun x => x.1 == c.comm.rank)).foldl (fun t (_, u, lo, n) =>
    t.sendSpotPiece c 1 k lo (postmark c.commId c.seq 0xFFFF 0xFF k (toWire 4 (((c.vec u).drop lo).take n))) []) t) s

/-- Bytes of a rank's contribution to chunk k, when every piece has come. -/
def Collective.spotData (c : Collective) (rank k : Nat) : Option (List Byte) :=
  let ps := c.spot.filter (fun x => x.1 == rank && x.2.1 == k)
  let n := 4 * (c.chunkElems k).2
  let b := (List.range ((n + 1983) / 1984)).flatMap (fun j => match ps.find? (fun x => x.2.2.1 == 1984 * j) with
    | some x => x.2.2.2
    | none => [])
  if b.length = n then some b else none

/-- The checker's verdict on chunk k, when it has everything: whether the postmarks differ. -/
def Collective.spotCheck (c : Collective) (k : Nat) : Option Bool :=
  let data := (List.range c.comm.p).map (fun r => c.spotData r k)
  let marks := (c.spotParts k).map (fun x => c.spotMarks.find? (fun m => m.1 == k && m.2.1 == x.2.2.1))
  if data.all Option.isSome && marks.all Option.isSome then
    let (a, _) := c.chunkElems k
    let vs := data.map (fun b => ofWire 4 (b.getD []))
    let res := (List.range (c.chunkElems k).2).map (fun e =>
      (ptree (nodeOp (colOp c.cmd == 1)) (vs.map (fun v => some (v.getD e 0)))).getD 0)
    some ((c.spotParts k).zip marks |>.any (fun (x, m) =>
      postmark c.commId c.seq 0xFFFF 0xFF k (toWire 4 ((res.drop (x.2.2.1 - a)).take x.2.2.2)) != (m.getD (0, 0, 0)).2.2))
  else none

/-- The verdict reaches this member: it completes, or fails with CAUSE SPOT. -/
def State.takeVerdict (s : State) (c : Collective) (bad : Nat) : State :=
  s.putCol { c with verdict := some bad }

/-- The checker sends its verdict to every member when every sampled chunk is decided. -/
def State.spotDecide (s : State) (c : Collective) : State :=
  let v := c.sampled.map c.spotCheck
  if c.comm.rank ≠ c.comm.checker ∨ c.verdict.isSome ∨ c.sampled.isEmpty ∨ !v.all Option.isSome then s
  else
    let bad := (v.filter (fun x => x == some true)).length
    let s1 := ((List.range c.comm.p).filter (· != c.comm.rank)).foldl (fun t r =>
      t.colSend c r 0x26 0 0 0 (leBytes 4 c.commId ++ leBytes 4 c.seq ++ leBytes 4 c.sampled.length ++ leBytes 4 bad)) s
    ((s1.count (A.COL 0x38) c.sampled.length).count (A.COL 0x40) bad).takeVerdict c bad

/-! ### Progress -/

/-- Wire bytes of a transfer. -/
def Collective.xferLen (c : Collective) (x : Xfer) : Nat := x.len * wireSize c.op (colDtIn c.cmd) x.raw

/-- The wire bytes this member sends for a transfer. -/
def Collective.xferBytes (c : Collective) (x : Xfer) : List Byte :=
  toWire (wireSize c.op (colDtIn c.cmd) x.raw) (((c.vec x.slot).drop x.lo).take x.len)

/-- The bytes received for a transfer, when every chunk has been accepted. -/
def Collective.received (c : Collective) (x : Xfer) : Option (List Byte) :=
  let n := chunkCount (c.xferLen x)
  let cs := (List.range n).map (fun k => c.inn.find? (fun y => y.peer == x.peer && y.level == x.wire && y.chunk == k && y.accepted))
  if cs.all Option.isSome then
    some (cs.flatMap (fun y => match y with
      | some y => (List.range ((y.pieces.length))).flatMap (fun j => match y.pieces.find? (fun p => p.1 == 2048 * j) with
          | some p => p.2
          | none => [])
      | none => []))
  else none

/-- The present level's sends are handed out: chunks to ranks that are ready leave now (R398); an ARRIVE has no data. -/
def State.startLevel (s : State) (c : Collective) (l : ColLevel) : State × Collective :=
  if c.op = 0x66 then
    (l.sends.foldl (fun t x => t.sendCtrl c x.peer 1 x.wire) s, { c with started := true })
  else
    let outs := l.sends.flatMap (fun x =>
      let b := c.xferBytes x
      (List.range (chunkCount b.length)).map (fun k => ({
        peer := x.peer, level := x.wire, chunk := k, bytes := chunkBytes b k, resends := 0, sentBeat := s.ticks
        waits := !c.ready.contains x.peer } : ChunkOut)))
    ((outs.filter (fun o => !o.waits)).foldl (fun t o => t.sendChunk c o) s, { c with started := true, out := c.out ++ outs })

/-- What has arrived at the present level is taken into the vectors; none while something is missing. -/
def Collective.takeLevel (c : Collective) (l : ColLevel) : Option Collective :=
  if c.op = 0x66 then
    if l.recvs.all (fun x => c.arrived.contains (x.peer, x.wire)) then some c else none
  else
    let got := l.recvs.map (fun x => (x, c.received x))
    if got.all (fun g => g.2.isSome) then
      let ups := got.map (fun g => (g.1.slot, g.1.lo, ofWire (wireSize c.op (colDtIn c.cmd) g.1.raw) (g.2.getD [])))
        ++ l.locals.map (fun x => (x.2.1, x.2.2.1, ((c.vec x.1).drop x.2.2.1).take x.2.2.2))
      let total := c.geo.n
      some { c with vecs := ups.foldl (fun m (k, lo, d) =>
        let v := smapGet (fun _ => ([] : List Nat)) m k
        let v' := if l.combine then combRange (nodeOp (colOp c.cmd == 1)) total v lo d
                  else setRange (if c.op = 0x65 then d.length else total) v lo d
        smapPut (fun _ => []) m k v') c.vecs }
    else none

/-- A collective runs on as far as it can: level by level, then, with everything acknowledged and the verdict in, to its end. -/
def State.runCol (s : State) (c : Collective) : Nat → State
  | 0 => s.putCol c
  | fuel + 1 =>
    match c.levels with
    | l :: rest =>
      let (s1, c1) := if c.started then (s, c) else s.startLevel c l
      match c1.takeLevel l with
      | some c2 => s1.runCol { c2 with levels := rest, started := false } fuel
      | none => s1.putCol c1
    | [] =>
      -- `started` now says that the result postmarks have been sent
      let (s1, c1) := if c.started then (s, c) else (s.sendSpotMarks c, { c with started := true })
      let s2 := (s1.putCol c1).spotDecide c1
      let c2 := (s2.findCol c.queue c.index).getD c1
      match c2.verdict with
      | some bad =>
        if bad ≠ 0 then ((s2.postmarkRecord c2).failCol c2 5 2 false)
        else if c2.out.isEmpty then s2.finishCol c2 else s2
      | none => if c2.out.isEmpty ∧ c2.sampled.isEmpty then s2.finishCol c2 else s2

/-- Fuel for `runCol`. -/
def Collective.fuel (c : Collective) : Nat := c.levels.length + 1

/-! ### Start (R381, R382, R392) -/

/-- The vectors at the start: contributions in the tree's entry form (R388), bytes for movement. -/
def State.colVectors (s : State) (c : Collective) : List (Nat × List Nat) :=
  let n := colCount c.cmd
  let me := c.comm.rank
  let a := fieldAt c.desc 0 8
  let bytesAt (x k : Nat) : List Nat := (s.engRead c.fn x k).map (fun b => b.toNat)
  if isReduction c.op then
    let dt := colDtIn c.cmd
    let b := s.engRead c.fn a (n * elemBytes dt 1)
    let sc := if dt = 4 then s.engRead c.fn (fieldAt c.desc 16 8) (scaleCount n) else []
    [(me, (List.range n).map (fun j =>
      let e := elemCode dt b j
      if dt = 9 then e else if dt = 8 then bf16to32 e else rne32 ((elemVal 4 [] e).mul (ue8m0 (byteAt sc (j / 32))))))]
  else if c.op = 0x62 then [(me, setRange c.geo.n [] (c.geo.off me) (bytesAt a (c.counts.getD me 0)))]
  else if c.op = 0x63 then (if colRoot c.cmd = me then [(me, bytesAt a n)] else [])
  else if c.op = 0x65 then
    let xs := c.a2a.zipIdx
    xs.foldl (fun m (x, q) => smapPut (fun _ => []) m (2 ^ 16 + q) (bytesAt (a + x.2.1) x.1))
      (smapPut (fun _ => []) [] (2 ^ 17 + me) (bytesAt (a + (c.a2a.getD me (0, 0, 0, 0)).2.1) (c.a2a.getD me (0, 0, 0, 0)).1))
  else []

/-- The effective algorithm threshold, and timeout (R380, R408). -/
def State.colThresh (s : State) (m : Comm) : Nat := if m.thresh = 0 then s.odNat 0x3050 1 262144 else m.thresh
def State.colTimeout (s : State) (c : Collective) : Nat :=
  let t := fieldAt c.cmd 56 4
  if t ≠ 0 then t else if c.comm.timeout ≠ 0 then c.comm.timeout else s.odNat 0x3050 2 100000

/-- The algorithm of R392. -/
def State.colAlgoOf (s : State) (b : List Byte) (m : Comm) (counts : List Nat) : Nat :=
  let op := byteAt b 0
  if m.p = 1 then 3 else if op = 0x65 then 2 else if op = 0x66 then 0
  else if colAlgo b = 1 then 0 else if colAlgo b = 2 then 1
  else
    let size := if isReduction op then colCount b * elemBytes (colDtIn b) 1
                else if op = 0x63 then colCount b else counts.foldl max 0
    if size < s.colThresh m then 0 else 1

/-- The fields the digest covers, in the order R382 names them. -/
def State.colDigest (s : State) (b : List Byte) (m : Comm) (counts : List Nat) : Nat :=
  (Config.colDigest ([m.p] ++ m.members ++ [s.colThresh m, byteAt b 0, colCount b, colDtIn b, colDtOut b, colOp b, colRoot b, colAlgo b]
    ++ counts)).toNat

/-- The collective a command starts as. -/
def State.newCol (s : State) (fl : Flight) : Collective :=
  let b := fl.bytes
  let m := s.readComm fl.fn (fieldAt b 40 4)
  let d := s.engRead fl.fn (fieldAt b 32 8) 128
  let counts := s.colCounts fl.fn b d m.p
  let op := byteAt b 0
  { queue := fl.queue, index := fl.index, fn := fl.fn, op := op, commId := fieldAt b 40 4, seq := fieldAt b 44 4, comm := m, cmd := b, desc := d
    counts := counts, a2a := if op = 0x65 then s.colA2a fl.fn d m.p else [], algo := s.colAlgoOf b m counts
    digest := s.colDigest b m (if fieldAt d 40 8 = 0 then [] else counts), arrival := fl.grantBeat, since := fl.grantTick, aMax := fl.grantBeat, aRank := m.rank
    aMin := fl.grantBeat, vecs := [], levels := [], started := false, ready := [], heard := [], arrived := [], out := [], inn := []
    readyBeat := s.ticks, spot := [], spotMarks := [], verdict := none }

/-- Seal checks and read traffic of the inputs. -/
def State.colCheck (s : State) (c : Collective) : State × Option (Nat × Nat) :=
  let j := c.inputs.foldl (fun (j : JobSt) r => j.checkRange c.fn c.queue c.index true r.1 r.2)
    { st := s, seen := [], wrote := [], fail := none }
  (j.st, j.fail)

/-! ### Received messages -/

/-- A running collective that a message with key `pkey` may be for. -/
def State.matchCol (s : State) (m : FabMsg) (p : Collective → Bool) : Option Collective :=
  s.col.running.find? (fun c => s.pkey c.fn == m.pkey && p c)

/-- A message for a collective that is not running here: late when it has completed, else held while the table has room (R398). -/
def State.holdMsg (s : State) (m : FabMsg) : State :=
  if s.col.done.any (fun d => s.pkey d.1 == m.pkey && d.2.1 == fieldAt m.data 0 4 && d.2.2 == fieldAt m.data 4 4) then
    s.count (A.COL 0x48)
  else if s.col.early.length < 256 then ({ s with col := { s.col with early := s.col.early ++ [m] } } : State).colStatus
  else s.count (A.COL 0x50)

/-- The collective has this COMM and SEQ, and rank `r` of it lies on the message's source node. -/
def Collective.isFor (c : Collective) (m : FabMsg) (r : Nat) : Bool :=
  c.commId == fieldAt m.data 0 4 && c.seq == fieldAt m.data 4 4 && decide (r < c.comm.p) && c.comm.node r == m.src

/-- COL_READY (R382, R398): a different digest ends the collective; else chunks that waited for the rank leave. -/
def State.takeReady (s : State) (m : FabMsg) : State :=
  let r := fieldAt m.data 8 2
  match s.matchCol m (fun c => c.isFor m r && !c.ready.contains r) with
  | some c =>
    if fieldAt m.data 24 8 ≠ c.digest then s.failCol c 8 5 false
    else
      let c1 := ({ c with ready := c.ready ++ [r] } : Collective).meet r (fieldAt m.data 16 8) (fieldAt m.data 16 8)
      let s1 := (c1.out.filter (fun o => o.waits && o.peer == r)).foldl (fun t o => t.sendChunk c1 o) s
      (s1.runCol { c1 with out := c1.out.map (fun o => if o.peer == r then { o with waits := false, sentBeat := s.ticks } else o) } c1.fuel)
  | none =>
    match s.matchCol m (fun c => c.isFor m r) with
    | some c =>
      -- a repeated READY of a barrier asks for the ARRIVE again (R398)
      if c.op = 0x66 then
        let sent := (c.geo.doubling.take (c.geo.lv - c.levels.length + b2n c.started)).flatMap (fun l => l.sends.filter (fun x => x.peer == r))
        sent.foldl (fun t x => t.sendCtrl c r 1 x.wire) s
      else s
    | none => s.holdMsg m

/-- COL_CTRL (R405): an ABORT ends the collective with FAULT_LOST; an ARRIVE counts for its level. -/
def State.takeCtrl (s : State) (m : FabMsg) : State :=
  let r := fieldAt m.data 10 2
  match s.matchCol m (fun c => c.isFor m r) with
  | some c =>
    if byteAt m.data 8 = 2 then s.failCol c 3 4 false
    else
      let lvl := m.tag ^^^ c.seq
      let c1 := c.meet (fieldAt m.data 24 2) (fieldAt m.data 16 8) (fieldAt m.data 32 8)
      s.runCol { c1 with heard := if c1.heard.contains r then c1.heard else c1.heard ++ [r]
                         arrived := if c1.arrived.contains (r, lvl) then c1.arrived else c1.arrived ++ [(r, lvl)] } c1.fuel
  | none => s.holdMsg m

/-- The transfer expected from rank r at a wire level. -/
def Collective.expected (c : Collective) (r lvl : Nat) : Option Xfer :=
  (c.levels.flatMap ColLevel.recvs).find? (fun x => x.peer == r && x.wire == lvl)

/-- Length of chunk k of a transfer, when it has one. -/
def Collective.chunkLen (c : Collective) (x : Xfer) (k : Nat) : Option Nat :=
  let n := c.xferLen x
  if k < chunkCount n then some (min 65536 (n - 65536 * k)) else none

/-- COL_ACK leaves: bit 0 of AUX is NAK (R396). -/
def State.sendAck (s : State) (c : Collective) (r lvl k : Nat) (nak : Bool) : State :=
  s.colSend c r 0x22 (b2n nak) k 0 (leBytes 4 c.commId ++ leBytes 4 c.seq ++ leBytes 4 k ++ leBytes 4 lvl)

/-- One incoming chunk changed. -/
def Collective.putIn (c : Collective) (y : ChunkIn) : Collective :=
  { c with inn := y :: c.inn.filter (fun z => !(z.peer == y.peer && z.level == y.level && z.chunk == y.chunk)) }

def Collective.getIn (c : Collective) (r lvl k : Nat) : ChunkIn :=
  (c.inn.find? (fun z => z.peer == r && z.level == lvl && z.chunk == k)).getD
    { peer := r, level := lvl, chunk := k, pieces := [], mark := none, fails := 0, accepted := false }

/-- Bytes of a chunk's pieces in order. -/
def ChunkIn.bytes (y : ChunkIn) : List Byte :=
  (List.range 32).flatMap (fun j => match y.pieces.find? (fun p => p.1 == 2048 * j) with | some p => p.2 | none => [])

/-- A chunk is looked at once its bytes and its postmark are here (R399). -/
def State.checkChunk (s : State) (c : Collective) (y : ChunkIn) (len : Nat) : State :=
  match y.mark with
  | none => s.putCol (c.putIn y)
  | some pm =>
    let b := y.bytes
    if b.length < len then s.putCol (c.putIn y)
    else if b.length = len ∧ postmark c.commId c.seq y.peer y.level y.chunk b = pm then
      let c1 := c.putIn { y with accepted := true }
      ((s.sendAck c1 y.peer y.level y.chunk false).countRx len).runCol c1 c1.fuel
    else
      let s1 := (s.sendAck c y.peer y.level y.chunk true).count (A.COL 0x28)
      let c1 := c.putIn { y with pieces := [], mark := none, fails := y.fails + 1 }
      if 3 ≤ y.fails + 1 then (s1.postmarkRecord c1).failCol c1 5 1 true else s1.putCol c1

/-- COL_DATA: bytes of the chunk whose index is TAG xor SEQ, from a rank on the source node that this level awaits (DESIGN CHOICE, log 20). -/
def State.takeColData (s : State) (m : FabMsg) : State :=
  let rankOf (c : Collective) : Option Nat := (List.range c.comm.p).find? (fun r => c.comm.node r == m.src && (match c.expected r m.aux with
    | some x => (c.chunkLen x (m.tag ^^^ c.seq)).isSome && !(c.getIn r m.aux (m.tag ^^^ c.seq)).accepted
        && !(c.getIn r m.aux (m.tag ^^^ c.seq)).pieces.any (fun p => p.1 == m.addr)
    | none => false))
  -- a chunk, or a piece of one, that is here already: discarded (R399)
  let known (c : Collective) : Bool := (List.range c.comm.p).any (fun r => c.comm.node r == m.src && ((c.expected r m.aux).isSome
    || (c.getIn r m.aux (m.tag ^^^ c.seq)).accepted))
  match s.matchCol m (fun c => (rankOf c).isSome) with
  | some c =>
    let r := (rankOf c).getD 0
    let k := m.tag ^^^ c.seq
    let y := c.getIn r m.aux k
    match c.expected r m.aux with
    | some x =>
      let c1 := { c with heard := if c.heard.contains r then c.heard else c.heard ++ [r] }
      s.checkChunk c1 { y with pieces := y.pieces ++ [(m.addr, m.data)] } ((c.chunkLen x k).getD 0)
    | none => s
  | none => if (s.matchCol m known).isSome then s else s.count (A.COL 0x48)

/-- COL_PMK: the postmark and arrival fields of a chunk; one accepted before is acknowledged again (R399). -/
def State.takePmk (s : State) (m : FabMsg) : State :=
  let r := fieldAt m.data 8 2
  let lvl := byteAt m.data 10
  let k := fieldAt m.data 12 4
  match s.matchCol m (fun c => c.isFor m r && ((c.expected r lvl).isSome || (c.getIn r lvl k).accepted || c.op == 0x65)) with
  | some c =>
    let y := c.getIn r lvl k
    if y.accepted then s.sendAck c r lvl k false
    else
      let c1 := c.meet (fieldAt m.data 40 2) (fieldAt m.data 32 8) (fieldAt m.data 48 8)
      match (c.expected r lvl).bind (fun x => c.chunkLen x k) with
      | some len =>
        if c.op = 0x65 ∧ len ≠ fieldAt m.data 16 4 then s.failCol c1 8 5 false
        else s.checkChunk c1 { y with mark := some (fieldAt m.data 24 8) } len
      | none => if c.op = 0x65 then s.failCol c1 8 5 false else s.putCol c1
  | none => s.holdMsg m

/-- COL_ACK: the chunk is released, or sent again at once (R399). -/
def State.takeAck (s : State) (m : FabMsg) : State :=
  let k := fieldAt m.data 8 4
  let lvl := byteAt m.data 12
  let isIt (c : Collective) (o : ChunkOut) : Bool := o.level == lvl && o.chunk == k && c.comm.node o.peer == m.src && !o.waits
  match s.matchCol m (fun c => c.commId == fieldAt m.data 0 4 && c.seq == fieldAt m.data 4 4 && c.out.any (isIt c)) with
  | some c =>
    match c.out.find? (isIt c) with
    | some o =>
      if bitOf m.aux 0 then
        (s.sendChunk c o).putCol { c with out := c.out.map (fun x => if x = o then { x with sentBeat := s.ticks } else x) }
      else s.runCol { c with out := c.out.erase o } c.fuel
    | none => s
  | none =>
    if s.col.running.any (fun c => s.pkey c.fn == m.pkey && c.commId == fieldAt m.data 0 4 && c.seq == fieldAt m.data 4 4) then s
    else s.count (A.COL 0x48)

/-- COL_SPOT at the checker: a piece of a contribution (kind 0) or a result's postmark (kind 1). -/
def State.takeSpot (s : State) (m : FabMsg) : State :=
  let r := fieldAt m.data 8 2
  let k := fieldAt m.data 12 4
  let off := fieldAt m.data 16 4
  match s.matchCol m (fun c => c.isFor m r && c.comm.checker == c.comm.rank) with
  | some c =>
    let c1 := if byteAt m.data 10 = 0 then { c with spot := c.spot ++ [(r, k, off, m.data.drop 28)] }
              else { c with spotMarks := c.spotMarks ++ [(k, off, fieldAt m.data 20 8)] }
    s.runCol c1 c1.fuel
  | none => s.holdMsg m

/-- COL_VERDICT at a member. -/
def State.takeVerdictMsg (s : State) (m : FabMsg) : State :=
  match s.matchCol m (fun c => c.commId == fieldAt m.data 0 4 && c.seq == fieldAt m.data 4 4 && c.verdict.isNone
      && c.comm.node c.comm.checker == m.src) with
  | some c =>
    let bad := fieldAt m.data 12 4
    if bad ≠ 0 then ((s.postmarkRecord c).failCol c 5 2 false)
    else let c1 := { c with verdict := some bad }; s.runCol c1 c1.fuel
  | none => s.holdMsg m

/-- A collective message by its type. -/
def State.takeCol (s : State) (m : FabMsg) : State :=
  if m.mtype = 0x21 then s.takePmk m else if m.mtype = 0x23 then s.takeReady m else if m.mtype = 0x24 then s.takeCtrl m
  else if m.mtype = 0x25 then s.takeSpot m else if m.mtype = 0x26 then s.takeVerdictMsg m
  else if m.mtype = 0x22 then s.takeAck m else s

def execColData (k : Nat) (s : State) : Result := s.onMsg k 0x20 (fun t _ m => t.pruneCols.takeColData m)
def execColPmk (k : Nat) (s : State) : Result := s.onMsg k 0x21 (fun t _ m => t.pruneCols.takePmk m)
def execColAck (k : Nat) (s : State) : Result := s.onMsg k 0x22 (fun t _ m => t.pruneCols.takeAck m)
def execColReady (k : Nat) (s : State) : Result := s.onMsg k 0x23 (fun t _ m => t.pruneCols.takeReady m)
def execColCtrl (k : Nat) (s : State) : Result := s.onMsg k 0x24 (fun t _ m => t.pruneCols.takeCtrl m)
def execColSpot (k : Nat) (s : State) : Result := s.onMsg k 0x25 (fun t _ m => t.pruneCols.takeSpot m)
def execColVerdict (k : Nat) (s : State) : Result := s.onMsg k 0x26 (fun t _ m => t.pruneCols.takeVerdictMsg m)

/-! ### The commands -/

/-- The messages held for a collective that starts are taken in order (R398). -/
def State.replayEarly (s : State) (c : Collective) : State :=
  let mine (m : FabMsg) : Bool := s.pkey c.fn == m.pkey && fieldAt m.data 0 4 == c.commId && fieldAt m.data 4 4 == c.seq
  let ms := s.col.early.filter mine
  ms.foldl State.takeCol ({ s with col := { s.col with early := s.col.early.filter (fun m => !mine m) } } : State).colStatus

/-- What the start reads before it knows its operands: the communicator's entry and member list, and the descriptor (R381, R385). -/
def State.colTables (s : State) (fl : Flight) : List (Nat × Nat) :=
  let a := s.reg (A.COLF fl.fn 0) + 64 * fieldAt fl.bytes 40 4
  let e := s.engRead fl.fn a 64
  (a, 64) :: (fieldAt fl.bytes 32 8, 128) :: (if fieldAt e 0 2 ≤ 16384 then [(fieldAt e 8 8, 4 * fieldAt e 0 2)] else [])

/-- An ABORT of a member is held for collective c (R405). -/
def State.abortHeld (s : State) (c : Collective) : Bool :=
  s.col.early.any (fun m => s.pkey c.fn == m.pkey && m.mtype == 0x24 && byteAt m.data 8 == 2 && c.isFor m (fieldAt m.data 10 2))

/-- A collective starts (R381, R382): its communicator, descriptor and operands are checked, then it enters the engine, tells the ranks
it receives from that it is ready, and runs. -/
def State.startCol (s : State) (fl : Flight) : State :=
  if min 4096 (s.fld (A.COLF fl.fn 8) 15 0) ≤ fieldAt fl.bytes 40 4 then s.refuseCol fl 8
  else match (s.colTables fl).findSome? (fun r => s.refused fl.fn r.1 r.2 false) with
  | some (st, _) => s.refuseCol fl st
  | none =>
    if s.commBad fl.fn (fieldAt fl.bytes 40 4) then s.refuseCol fl 8
    else
      let c := s.newCol fl
      match c.arrays.findSome? (fun r => s.refused fl.fn r.1 r.2 false) with
      | some (st, _) => s.refuseCol fl st
      | none =>
        if (if c.op = 0x66 then none else c.descBad).isSome then s.refuseCol fl 8
        else match c.inputs.findSome? (fun r => s.refused fl.fn r.1 r.2 false),
              c.outputs.findSome? (fun r => s.refused fl.fn r.1 r.2 true) with
        | some (st, _), _ => s.failCol c st 0 false
        | none, some (st, _) => s.failCol c st 0 false
        | none, none =>
          if c.op = 0x65 ∧ (let x := c.a2a.getD c.comm.rank (0, 0, 0, 0); x.1 ≠ x.2.2.1) then s.failCol c 8 5 false
          else if !s.mayRemote fl.fn ∧ c.comm.members.any (fun w => memberNode w != s.node) then s.failCol c 7 0 false
          else if s.abortHeld c then s.failCol c 3 4 false
          else
            let (s1, bad) := s.colCheck c
            match bad with
            | some (st, _) => s1.failCol c st (if st = 4 then 6 else 0) true
            | none =>
              let c1 := { c with vecs := s1.colVectors c, levels := c.geo.plan c.op c.algo c.a2a }
              let s2 := ({ s1 with col := { s1.col with
                  running := s1.col.running ++ [c1], done := s1.col.done.filter (· != (c.fn, c.commId, c.seq)) } } : State).colStatus
              let s3 := ((s2.sendReady c1 c1.sources).sendSpots c1).runCol c1 c1.fuel
              s3.replayEarly c1

/-- A collective command at its engine: it starts, or, running with a cancel recorded, ends at the next chunk boundary with
CANCELLED_PARTIAL and sends ABORT (R405). -/
def State.collective (s : State) (q i op : Nat) : Result :=
  s.pruneCols.dispatch q i op (fun fl => (colBad fl).map (fun _ => 0)) (fun t fl => match t.findCol q i with
    | none => t.startCol fl
    | some c => if fl.cancel then t.failCol c 2 0 true else t)

def execAllreduce (q i : Nat) (s : State) : Result := s.collective q i 0x60
def execReduceScatter (q i : Nat) (s : State) : Result := s.collective q i 0x61
def execAllgather (q i : Nat) (s : State) : Result := s.collective q i 0x62
def execBroadcast (q i : Nat) (s : State) : Result := s.collective q i 0x63
def execReduce (q i : Nat) (s : State) : Result := s.collective q i 0x64
def execAlltoallv (q i : Nat) (s : State) : Result := s.collective q i 0x65
def execBarrier (q i : Nat) (s : State) : Result := s.collective q i 0x66

/-! ### Times (R398, R399, R405) -/

/-- CHUNK_RESEND in beats. -/
def State.chunkResend (s : State) : Nat := zeroAs 50 (s.fld A.COL_CFG 31 16)

/-- COL_READY is repeated to the ranks that have sent nothing yet. -/
def State.readyResend (s : State) (q i : Nat) : State :=
  match s.findCol q i with
  | some c =>
    let left := c.sources.filter (fun r => !c.heard.contains r)
    if left.isEmpty ∨ s.ticks < c.readyBeat + s.chunkResend then s
    else (s.sendReady c left).putCol { c with readyBeat := s.ticks }
  | none => s

def execColReadyResend (q i : Nat) (s : State) : Result := .next (s.pruneCols.readyResend q i)

/-- Every chunk unacknowledged for CHUNK_RESEND beats is sent again, or ends the collective after MAX_RESEND resends. -/
def State.resendChunks (s : State) (q i : Nat) : State :=
  match s.findCol q i with
  | some c =>
    let due (o : ChunkOut) : Bool := !o.waits && decide (o.sentBeat + s.chunkResend ≤ s.ticks)
    if c.out.any (fun o => due o && decide (zeroAs 2 (s.fld A.COL_CFG 11 8) ≤ o.resends)) then s.failCol c 9 3 true
    else
      let s1 := (c.out.filter due).foldl (fun t o => (t.sendChunk c o).count (A.COL 0x30)) s
      s1.putCol { c with out := c.out.map (fun o => if due o then { o with resends := o.resends + 1, sentBeat := s.ticks } else o) }
  | none => s

def execChunkResend (q i : Nat) (s : State) : Result := .next (s.pruneCols.resendChunks q i)

/-- The lowest rank whose message is still awaited (R404). -/
def Collective.awaited (c : Collective) : Nat :=
  let rs := (c.sources.filter (fun r => !c.heard.contains r)) ++ c.out.map ChunkOut.peer ++ c.sources
  rs.foldl min (rs.headD c.comm.rank)

/-- TIMEOUT beats have passed after the grant. -/
def State.colTimeoutHit (s : State) (q i : Nat) : State :=
  match s.findCol q i with
  | some c =>
    if s.ticks < c.since + s.colTimeout c then s
    else (s.sendAborts c).endCol c 9 (colDetail c.algo 0 (s.ticks - c.since) c.awaited)
  | none => s

def execCollectiveTimeout (q i : Nat) (s : State) : Result := .next (s.pruneCols.colTimeoutHit q i)

end Sys2Proof.Machine
end

