-- ==== Sys2Proof/Machine/Movement.lean ====
section
/-!
DEFINITION. COPY, GATHER and SCATTER on the cluster DMA engine (R317, R604 to R606), between local, remote and host memory.
-/

namespace Sys2Proof.Machine

/-- A piece of a movement: source (none: zero bytes), destination, length. -/
structure Piece where
  src : Option Nat
  dst : Nat
  len : Nat
  deriving DecidableEq, Repr

/-- Bytes from `a` to the next multiple of `m`. -/
def toNext (a m : Nat) : Nat := m - a % m

/-- `n` bytes from src to dst cut so that no piece crosses a 2 KiB boundary of either side, nor exceeds 512 B to or from the host. -/
def cutPieces : Nat → Option Nat → Nat → Nat → List Piece
  | 0, _, _, _ => []
  | fuel + 1, src, dst, n =>
    if n = 0 then []
    else
      let cap := if isHost dst || (match src with | some a => isHost a | none => false) then 512 else 2048
      let l1 := min n (min cap (toNext dst 2048))
      let l := match src with | some a => min l1 (toNext a 2048) | none => l1
      { src := src, dst := dst, len := l } :: cutPieces fuel (src.map (· + l)) (dst + l) (n - l)

/-- The parts of rows of `rb` bytes that lie in [lo, hi) of the packed stream: row, offset in the row, length. -/
def rowParts (rb lo hi : Nat) : List (Nat × Nat × Nat) :=
  if hi ≤ lo ∨ rb = 0 then []
  else (List.range ((hi - 1) / rb - lo / rb + 1)).map (fun d =>
    let r := lo / rb + d
    let a := max lo (r * rb)
    (r, a - r * rb, min hi ((r + 1) * rb) - a))

/-- Segments of a packed stream of `total` bytes: 64 KiB between cancellation points (R317). -/
def moveSegments (total : Nat) (f : Nat → Nat → List Piece) : List (List Piece) :=
  (List.range ((total + 65535) / 65536)).map (fun j => f (j * 65536) (min total ((j + 1) * 65536)))

/-! ### Running a movement -/

/-- One piece of a movement: a local source is checked and read; a local destination is written; anything else becomes a request. -/
def JobSt.movePiece (j : JobSt) (fl : Flight) (pick : State → Piece → List Byte) (p : Piece) : JobSt :=
  let q := fl.queue
  let i := fl.index
  let note (t : State) (dst : Nat) (kind : RemKind) (srcAddr : Nat) : State :=
    let t1 := if isHost srcAddr then t.hostRequest fl.fn q i srcAddr p.len kind
              else t.request fl.fn q i srcAddr 1 0 p.len 0 [] kind
    t1.modFlight q i (fun x => { x with
      waiting := x.waiting + 1
      remoteBlocks := if isRemote dst && !x.remoteBlocks.contains (blockOf dst) then x.remoteBlocks ++ [blockOf dst]
                      else x.remoteBlocks })
  match p.src with
  | none =>
    let data := List.replicate p.len (0 : Byte)
    if isRemote p.dst ∨ isHost p.dst then { j with st := j.st.sendOn fl p.dst data (crc32c data).toNat }
    else j.write fl.fn p.dst data
  | some a =>
    if isRemote a ∨ isHost a then { j with st := note j.st p.dst (.read p.dst p.len) a }
    else
      let j1 := j.checkRange fl.fn q i true a p.len
      let data := pick j1.st { p with src := some a }
      if isRemote p.dst ∨ isHost p.dst then
        let stored := match j1.st.resolve fl.fn a false with
          | .phys x => ((crc32c data) ^^^ (j1.st.syndrome (blockOf x))).toNat
          | _ => 0
        if j1.fail.isSome ∧ isHost p.dst then j1 else { j1 with st := j1.st.sendOn fl p.dst data stored }
      else j1.write fl.fn p.dst data

/-- The segments of a movement up to the first cancellation point at which a failure stands or the cancel stops it (R317, R449). -/
def JobSt.moveRun (j : JobSt) (fl : Flight) (pick : State → Piece → List Byte) : Option Nat → List (List Piece) → JobSt × Bool
  | _, [] => (j, false)
  | stop, g :: gs =>
    match stop with
    | some 0 => (j, true)
    | _ =>
      let j1 := g.foldl (fun j p => j.movePiece fl pick p) j
      if j1.fail.isSome then (j1, false) else JobSt.moveRun j1 fl pick (stop.map (· - 1)) gs

/-- The first refusal of a movement's pieces before anything moves (R252, R313, R355, R606): a local range the function does not own, a
remote address without a key in the table, a host address with bus mastering off. -/
def State.moveRefused (s : State) (f : Nat) (p : Piece) : Option (Nat × Nat) :=
  let one (a : Nat) (wr : Bool) : Option (Nat × Nat) :=
    if isRemote a then (if s.mayRemote f then none else some (7, a))
    else if isHost a then (if (s.fnPcie f).busMaster then none else some (7, a))
    else s.refused f a p.len wr
  match p.src with
  | some a => match one a false with
    | some x => some x
    | none => one p.dst true
  | none => one p.dst true

/-- A movement of a command: refused whole, or run; then it ends at once, or when its last request has been answered. -/
def State.moveCommand (s : State) (fl : Flight) (stop : Option Nat) (pick : State → Piece → List Byte) (segs : List (List Piece)) :
    State :=
  match segs.findSome? (fun g => g.findSome? (s.moveRefused fl.fn)) with
  | some (st, a) => s.endFlight fl.queue fl.index st a
  | none =>
    let (j, cut) := JobSt.moveRun { st := s, seen := [], wrote := [], fail := none } fl pick (fl.stopAt stop) segs
    let (st, d) := match j.fail with
      | some x => x
      | none => if cut then (2, 0) else (0, 0)
    (j.st.modFlight fl.queue fl.index (fun x => { x with
      wrote := j.wrote ++ x.wrote
      status := if x.status = 0 then st else x.status
      detail := if x.status = 0 then d else x.detail })).settleMove fl.queue fl.index

/-- The bytes of a piece's local source. -/
def pickLocal (f : Nat) (s : State) (p : Piece) : List Byte :=
  match p.src with
  | some a => s.engRead f a p.len
  | none => List.replicate p.len 0

/-! ### COPY -/

/-- A command with requests outstanding waits; else `k` acts. -/
def State.idleMove (s : State) (fl : Flight) (k : State) : State := if fl.waiting = 0 then k else s

/-- A COPY's movement, in the pieces of R404. -/
def State.copyCommand (s : State) (fl : Flight) (stop : Option Nat) : State :=
  let src := s.localForm (fieldAt fl.bytes 32 8)
  let dst := s.localForm (fieldAt fl.bytes 40 8)
  s.moveCommand fl stop (pickLocal fl.fn) (moveSegments (fieldAt fl.bytes 48 8) (fun lo hi =>
    cutPieces (hi - lo) (some (src + lo)) (dst + lo) (hi - lo)))

/-- Field checks of COPY (R317): the offset of the first field in error. -/
def State.copyBad (s : State) (fl : Flight) : Option Nat :=
  let b := fl.bytes
  let n := fieldAt b 48 8
  let lenOk := decide (1 ≤ n) && decide (n ≤ 2 ^ 40)
  firstBad ([(32, !lenOk || !overlaps (s.localForm (fieldAt b 32 8)) n (s.localForm (fieldAt b 40 8)) n), (48, lenOk)]
    ++ (offs 56 63).map (fun o => (o, byteAt b o == 0)))

def execCopy (q i : Nat) (stop : Option Nat) (s : State) : Result :=
  s.dispatch q i 0x50 s.copyBad (fun t fl => t.idleMove fl (t.copyCommand fl stop))

/-! ### GATHER and SCATTER -/

/-- The index that names no row. -/
def noRow : Nat := 0xFFFFFFFF

/-- Field checks of GATHER and SCATTER; `packed` is the offset of the packed side's address field. -/
def State.rowsBad (s : State) (packed : Nat) (fl : Flight) : Option Nat :=
  let b := fl.bytes
  let rows := fieldAt b 56 4
  let rb := fieldAt b 60 4
  let sizeOk := decide (1 ≤ rows) && decide (16 ≤ rb) && decide (rb ≤ 1048576) && rb % 16 == 0
  firstBad [(packed, !sizeOk || !overlaps (s.localForm (fieldAt b packed 8)) (rows * rb) (fieldAt b 48 8) (4 * rows)),
    (48, fieldAt b 48 8 % 4 == 0), (56, decide (1 ≤ rows)),
    (60, decide (16 ≤ rb) && decide (rb ≤ 1048576) && rb % 16 == 0)]

/-- The checks of the IDX array and of the rows it names, in order: ownership of IDX, its seals, then every row. Answers the state (the
checks count) and the failure. `base` is the indexed side, `pack` the packed side, `wr` whether rows are written. -/
def State.indexCheck (s : State) (fl : Flight) (base pack idx rows rb : Nat) (wr : Bool) : State × Option (Nat × Nat) :=
  if isHost idx then (s, some (7, idx))
  else match s.refused fl.fn idx (4 * rows) false with
    | some x => (s, some x)
    | none =>
      let j := ({ st := s, seen := [], wrote := [], fail := none } : JobSt).checkRange fl.fn fl.queue fl.index true idx (4 * rows)
      match j.fail with
      | some x => (j.st, some x)
      | none =>
        (j.st, (List.range rows).findSome? (fun r =>
          let v := s.engNum fl.fn (idx + 4 * r) 4
          let a := s.localForm (base + v * rb)
          if v = noRow then none
          else if overlaps a rb pack (rows * rb) || overlaps a rb idx (4 * rows) then some (8, 48)
          else if isRemote a ∨ isHost a then none
          else s.refused fl.fn a rb wr))

/-- An indexed movement after its checks. A failed check releases the booking. -/
def State.rowsCommand (s : State) (fl : Flight) (stop : Option Nat) (scatter : Bool) : State :=
  let b := fl.bytes
  let idx := fieldAt b 48 8
  let rows := fieldAt b 56 4
  let rb := fieldAt b 60 4
  let base := s.localForm (fieldAt b (if scatter then 40 else 32) 8)
  let pack := s.localForm (fieldAt b (if scatter then 32 else 40) 8)
  let (s1, bad) := s.indexCheck fl base pack idx rows rb scatter
  match bad with
  | some (st, d) => (s1.release (.cmd fl.queue fl.index)).endFlight fl.queue fl.index st d
  | none =>
    let ix := (List.range rows).map (fun r => s.engNum fl.fn (idx + 4 * r) 4)
    let row (r : Nat) : Nat := s.localForm (base + ix.getD r 0 * rb)
    let segs := moveSegments (rows * rb) (fun lo hi => (rowParts rb lo hi).flatMap (fun (r, o, n) =>
      if ix.getD r 0 = noRow then (if scatter then [] else cutPieces n none (pack + r * rb + o) n)
      else if scatter then cutPieces n (some (pack + r * rb + o)) (row r + o) n
      else cutPieces n (some (row r + o)) (pack + r * rb + o) n))
    -- a row that equal indices name ends as a mix of its source rows, byte by byte, unspecified (R317): a free choice
    let pick (t : State) (p : Piece) : List Byte := match p.src with
      | none => List.replicate p.len 0
      | some a =>
        if !scatter then t.engRead fl.fn a p.len
        else
          let r := (a - pack) / rb
          let same := (List.range rows).filter (fun r' => ix.getD r' 0 == ix.getD r 0)
          if same.length ≤ 1 then t.engRead fl.fn a p.len
          else (List.range p.len).map (fun k =>
            let o := (a - pack) % rb + k
            let c := same.getD ((Config.freeWord (s.free + r * rb + o)).toNat % same.length) r
            (t.engRead fl.fn (pack + c * rb + o) 1).getD 0 0)
    ({ s1 with free := s1.free + rows * rb } : State).moveCommand fl stop pick segs

def execGather (q i : Nat) (stop : Option Nat) (s : State) : Result :=
  s.dispatch q i 0x51 (s.rowsBad 40) (fun t fl => t.idleMove fl (t.rowsCommand fl stop false))

def execScatter (q i : Nat) (stop : Option Nat) (s : State) : Result :=
  s.dispatch q i 0x52 (s.rowsBad 32) (fun t fl => t.idleMove fl (t.rowsCommand fl stop true))

end Sys2Proof.Machine
end

