-- ==== Sys2Proof/Machine/Steps.lean ====
section
/-!
DEFINITION. Step domains (chapter 06): STEP_BEGIN and the snapshot, the norm watch, STEP_COMMIT with its decision, the flip, the
abort, STEP_ABORT and HALT_CLR.
-/

namespace Sys2Proof.Machine

/-! ### Fields -/

/-- NWT_STATUS fields (R171). -/
def State.nwtNA (s : State) (f : Nat) : Nat := s.fld (A.NWT f 0x10) 15 8
def State.nwtAttempt (s : State) (f : Nat) : Nat := s.fld (A.NWT f 0x10) 23 16
def State.nwtNF (s : State) (f : Nat) : Nat := s.fld (A.NWT f 0x10) 31 24
def State.nwtRS (s : State) (f : Nat) : Nat := s.fld (A.NWT f 0x10) 39 32
def State.setStep (s : State) (f st : Nat) : State := s.setFld (A.NWT f 0x10) 2 0 st
def State.nwtStep (s : State) (f : Nat) : Nat := s.reg (A.NWT f 0x18)

/-- A write by Xolyn for function f, kept within its blocks' seals (R168, R445). -/
def State.hwWrite (s : State) (f a : Nat) (bs : List Byte) : State :=
  (chunks a bs.length).foldl (fun t c => match t.resolve f c.1 true with
    | .phys p => ((t.purgeRange p c.2).traffic p c.2 true).sealWrite p ((bs.drop (c.1 - a)).take c.2)
    | _ => t) s

/-- Address of watch w, and of layer group g (R141, R148, R149). -/
def State.watchAddr (s : State) (f w : Nat) : Nat := s.dd f 0 8 + 128 * w
def State.groupAddr (s : State) (f g : Nat) : Nat := s.dd f 16 8 + 16 * g

/-- FB_LEFT of a group (R149). -/
def State.fbLeft (s : State) (f g : Nat) : Nat := s.engNum f (s.groupAddr f g + 10) 2

/-- A field of the domain descriptor at offset `off` of bytes `d`, 0 selecting `dflt`. -/
def ddOr (d : List Byte) (off k dflt : Nat) : Nat := zeroAs dflt (fieldAt d off k)

/-! ### Step record (R168) -/

/-- The 256 bytes of the step record. -/
def State.stepRecordBytes (s : State) (f step outcome causes localCauses bc flip beats : Nat) : List Byte :=
  let d := s.domain f
  let mask := (List.range 128).map (fun k => BitVec.ofNat 8 ((List.range 8).foldl (fun n j =>
    n + (if d.fbMask.getD (8 * k + j) false then 2 ^ j else 0)) 0))
  leBytes 8 step ++ leBytes 1 (s.nwtAttempt f) ++ leBytes 1 outcome ++ leBytes 1 (s.nwtNA f) ++ leBytes 1 (s.nwtNF f)
    ++ leBytes 4 causes ++ leBytes 4 localCauses ++ leBytes 2 d.firstWatch ++ leBytes 1 (s.nwtRS f) ++ leBytes 1 0
    ++ leBytes 4 d.firstNorm ++ leBytes 4 beats ++ leBytes 8 d.beginBeat ++ leBytes 8 bc ++ leBytes 8 flip ++ leBytes 8 0 ++ mask
    ++ leBytes 64 0

/-- The step record is written, sealed at creation. SNAP_BEATS is a free value, since the model does not time copies (DESIGN CHOICE, log 21). -/
def State.stepRecord (s : State) (f step outcome causes localCauses bc flip : Nat) : State :=
  let (k, s1) := s.draw
  s1.hwWrite f (s.dd f 80 8) (s.stepRecordBytes f step outcome causes localCauses bc flip ((Config.freeWord k).toNat % 2 ^ 32))

/-! ### STEP_BEGIN (R141, R142, R146, R156) -/

/-- Regions named by a descriptor. -/
def State.regionsOf (s : State) (f : Nat) (d : List Byte) : List GenRegion :=
  (List.range (byteAt d 32)).map (fun i =>
    let a := fieldAt d 24 8 + 32 * i
    { vc := s.engNum f a 8, vn := s.engNum f (a + 8) 8, gran := s.engNum f (a + 16) 4, map := s.engNum f (a + 24) 8 })

/-- Pool list of a descriptor: physical addresses in order. -/
def State.poolOf (s : State) (f : Nat) (d : List Byte) : List Nat :=
  (List.range (fieldAt d 76 4)).map (fun i => s.engNum f (fieldAt d 88 8 + 8 * i) 8 / 0x200000 * 0x200000)

/-- Snapshot-list entries: address and size. -/
def State.snapEntries (s : State) (f : Nat) (d : List Byte) : List (Nat × Nat) :=
  (List.range (fieldAt d 36 2)).map (fun i => (s.engNum f (fieldAt d 40 8 + 16 * i) 8, s.engNum f (fieldAt d 40 8 + 16 * i + 8) 4))

/-- The descriptor's own fields (R141): offsets counted from 64. -/
def descriptorBad (d : List Byte) : Option Nat :=
  firstBad ([(64, fieldAt d 0 8 % 128 == 0), (72, decide (fieldAt d 8 2 ≤ 4096)), (74, decide (fieldAt d 10 2 ≤ 1024)),
    (76, fieldAt d 12 4 == 0), (80, fieldAt d 16 8 % 16 == 0), (88, fieldAt d 24 8 % 32 == 0), (96, decide (byteAt d 32 ≤ 64)),
    (100, decide (fieldAt d 36 2 ≤ 4096) && fieldAt d 38 2 == 0), (104, fieldAt d 40 8 % 16 == 0), (112, fieldAt d 48 8 % 64 == 0),
    (120, decide (fieldAt d 56 4 < 2 ^ 20)), (124, decide (fieldAt d 60 4 ≤ 65536)), (136, decide (fieldAt d 72 4 < 2 ^ 20)),
    (144, fieldAt d 80 8 % 64 == 0), (152, fieldAt d 88 8 % 8 == 0)]
    ++ (offs 96 127).map (fun o => (64 + o, byteAt d o == 0)))

/-- The tables break R142 or R149, aliases or maps overlap, or a pool granule is also mapped (R156). -/
def State.tablesBad (s : State) (f : Nat) (d : List Byte) : Bool :=
  let rs := s.regionsOf f d
  let g := 0x200000
  let ali (r : GenRegion) : List (Nat × Nat) := [(r.vc, r.gran * g), (r.vn, r.gran * g)]
  let all := rs.flatMap ali
  let maps := rs.map (fun r => (r.map, 8 * r.gran))
  let pairs (l : List (Nat × Nat)) : Bool :=
    (l.zipIdx).any (fun x => (l.zipIdx).any (fun y => decide (x.2 < y.2) && overlaps x.1.1 x.1.2 y.1.1 y.1.2))
  let inSlice (a n : Nat) : Bool := decide (apertureBase + f * 0x40000000000 ≤ a) && decide (a + n ≤ apertureBase + (f + 1) * 0x40000000000)
  rs.any (fun r => r.vc % g != 0 || r.vn % g != 0 || r.gran == 0 || decide (32768 < r.gran) || r.map % 8 != 0
      || !inSlice r.vc (r.gran * g) || !inSlice r.vn (r.gran * g))
    || (List.range (byteAt d 32)).any (fun i => s.engNum f (fieldAt d 24 8 + 32 * i + 20) 4 != 0)
    || pairs all || pairs maps
    || rs.any (fun r => (List.range r.gran).any (fun k => s.engNum f (r.map + 8 * k) 8 % g != 0
        || (s.poolOf f d).contains (s.engNum f (r.map + 8 * k) 8 / g * g)))
    || (List.range (fieldAt d 76 4)).any (fun i => s.engNum f (fieldAt d 88 8 + 8 * i) 8 % g != 0)
    || (List.range (fieldAt d 36 2)).any (fun i => s.engNum f (fieldAt d 40 8 + 16 * i + 8) 4 % 64 != 0
        || s.engNum f (fieldAt d 40 8 + 16 * i + 12) 4 != 0)
    || (List.range (fieldAt d 10 2)).any (fun i => s.engNum f (fieldAt d 16 8 + 16 * i + 12) 4 != 0)

/-- Logical cores of function f, ascending. -/
def State.coresOf (s : State) (f : Nat) : List Nat := (List.range 512).filter (s.ownsCore f)

/-- Ranges the descriptor names, which the function must own (R141). -/
def State.descRanges (s : State) (f : Nat) (d : List Byte) : List (Nat × Nat) :=
  let snap := s.snapEntries f d
  let size := 8 * fieldAt d 60 4 + (snap.map Prod.snd).foldl (· + ·) 0 + 1024 * (s.coresOf f).length
  [(fieldAt d 0 8, 128 * fieldAt d 8 2), (fieldAt d 16 8, 16 * fieldAt d 10 2), (fieldAt d 24 8, 32 * byteAt d 32),
   (fieldAt d 40 8, 16 * fieldAt d 36 2), (fieldAt d 48 8, size), (fieldAt d 80 8, 256), (fieldAt d 88 8, 8 * fieldAt d 76 4)]
    ++ (s.regionsOf f d).map (fun r => (r.map, 8 * r.gran)) ++ snap

/-- A malformed STEP_BEGIN (R156): the offset. The domain not idle and a wrong STEP are told at STEP's offset. -/
def State.stepBeginBad (s : State) (fl : Flight) : Option Nat :=
  let f := fl.fn
  let b := fl.bytes
  let da := s.reg (A.NWT f 0)
  let d := s.engRead f da 128
  match firstBad ([(32, s.stepState f == 0 && fieldAt b 32 8 == (s.nwtStep f + 1) % 2 ^ 64)]
      ++ (offs 40 63).map (fun o => (o, byteAt b o == 0))) with
  | some o => some o
  | none =>
    if (s.refused f da 128 false).isSome then none
    else match descriptorBad d with
      | some o => some o
      | none =>
        if ((s.descRanges f d).any (fun r => (s.refused f r.1 r.2 false).isSome)) then none
        else if s.tablesBad f d then some (if byteAt d 32 = 0 then 100 else 88) else none

/-- The semaphore range of a descriptor is not the function's. -/
def State.semRangeDenied (s : State) (f : Nat) (d : List Byte) : Bool :=
  let n := fieldAt d 60 4
  (decide (0 < n) && !(s.ownsSem f (fieldAt d 56 4) && s.ownsSem f (fieldAt d 56 4 + n - 1)))
    || (fieldAt d 72 4 != 0 && !s.ownsSem f (fieldAt d 72 4))

/-- The snapshot as writes into the area, in the order semaphores, list, generator states (R146; the order is DESIGN CHOICE, log 21). -/
def State.snapWrites (s : State) (f : Nat) (d : List Byte) : List (Nat × List Byte) :=
  let sems := (List.range (fieldAt d 60 4)).flatMap (fun k => leBytes 8 (s.sem (fieldAt d 56 4 + k)))
  let regs := (s.snapEntries f d).flatMap (fun e => s.engRead f e.1 e.2)
  let gens := (s.coresOf f).flatMap (fun c => (s.core c).laneBytes)
  [(fieldAt d 48 8, sems ++ regs ++ gens)]

/-- Watches' PARTS and STATE cleared (R156, R161). -/
def State.clearWatches (s : State) (f : Nat) : State :=
  (List.range (s.dd f 8 2)).foldl (fun t w => t.hwWrite f (t.watchAddr f w + 28) (leBytes 3 0)) s

/-- An attempt opens: STATE, cause word, pool and fall-back mask; a fault held for it is its cause at once (R143, R165, R166). -/
def State.openAttempt (s : State) (f attempt : Nat) : State :=
  let s1 := ((s.setFld (A.NWT f 0x10) 23 16 attempt).setStep f 1).setReg (A.NWT f 0x20) 0
  let s2 := s1.modDomain f (fun d => { d with
    taken := [], pool := s.poolOf f d.desc, commit := none, commitLocal := false, decision := none, firstWatch := 0xFFFF, firstNorm := 0, maxSlip := 0
    fbMask := (List.range (fieldAt d.desc 10 2)).map (fun g => decide (0 < s.fbLeft f g)), lateFault := false })
  if (s.domain f).lateFault then s2.setCause f 2 else s2

/-- STEP_BEGIN acts (R156). -/
def State.stepBegin (s : State) (fl : Flight) : State :=
  let f := fl.fn
  let q := fl.queue
  let i := fl.index
  let da := s.reg (A.NWT f 0)
  let d := s.engRead f da 128
  match s.refused f da 128 false with
  | some (st, a) => s.endFlight q i st a
  | none => match (s.descRanges f d).findSome? (fun r => s.refused f r.1 r.2 false) with
    | some (st, a) => s.endFlight q i st a
    | none =>
      if s.semRangeDenied f d then s.endFlight q i 7 (semAddr (fieldAt d 56 4))
      else
        let r := s.runJob f q i false none [{ reads := [], writes := s.snapWrites f d }]
        if r.status ≠ 0 then r.finish q i {}
        else
          let step := fieldAt fl.bytes 32 8
          let keepRS := (s.domain f).prevStep == step && (s.domain f).prevAction == 2
          let s1 := r.st.modDomain f (fun x => { x with
            desc := d, beginBeat := s.beat, flipBeat := 0, sampledCause := 0
            snap := (s.coresOf f).map (fun c => { core := c, valid := s.rngValid c, seeded := s.fld (A.RNG c 0x10) 17 17 == 1
                                                  posBase := s.fld (A.RNG c 0x10) 15 0 }) })
          let s2 := (s1.setFld (A.NWT f 0x10) 15 8 0).setFld (A.NWT f 0x10) 31 24 0
          let s3 := ((if keepRS then s2 else s2.setFld (A.NWT f 0x10) 39 32 0).clearWatches f).openAttempt f 0
          (s3.stepRecord f step 0 0 0 0 0).endFlight q i 0 0

/-- STEP_BEGIN; its copies wait for an absent scheduler core (R576). -/
def execStepBegin (q i : Nat) (s : State) : Result :=
  s.dispatch q i 0x70 s.stepBeginBad (fun t fl => if t.isAbsent 2 then t else t.stepBegin fl)

/-! ### NORM_WATCH (R148, R150 to R152) -/

/-- A watch's fields as read now. -/
def State.watch (s : State) (f w : Nat) : List Byte := s.engRead f (s.watchAddr f w) 128

/-- Field checks of NORM_WATCH (R150, R151). -/
def State.normBad (s : State) (fl : Flight) : Option Nat :=
  let b := fl.bytes
  let f := fl.fn
  let rows := fieldAt b 40 4
  let cols := fieldAt b 44 4
  let eb := if byteAt b 55 = 8 then 2 else 4
  let w := fieldAt b 52 2
  let p := byteAt b 54
  let x := s.watch f w
  firstBad ([(32, fieldAt b 32 8 % 16 == 0), (40, decide (1 ≤ rows) && decide (rows ≤ 2 ^ 24)),
    (44, decide (1 ≤ cols) && decide (cols ≤ 2 ^ 24)), (48, fieldAt b 48 4 % 16 == 0 && decide (cols * eb ≤ fieldAt b 48 4)),
    (52, s.stepState f == 1 && decide (w < s.dd f 8 2) && decide (byteAt x 0 / 2 % 4 ≠ 3) && decide (byteAt x 0 < 16)
      && decide (fieldAt x 2 2 < s.dd f 10 2)),
    (54, decide (p < 16) && decide (p < byteAt x 1) && !bitOf (fieldAt x 28 2) p), (55, byteAt b 55 == 8 || byteAt b 55 == 9)]
    ++ (offs 56 63).map (fun o => (o, byteAt b o == 0)))

/-- FP32 codes of row r of a matrix of FP32 or BF16 elements. -/
def State.rowOf (s : State) (f src lds fmt cols r : Nat) : List Nat :=
  let eb := if fmt = 8 then 2 else 4
  let bs := s.engRead f (src + r * lds) (cols * eb)
  (List.range cols).map (fun j => if fmt = 8 then bf16to32 (fieldAt bs (2 * j) 2) else fieldAt bs (4 * j) 4)

/-- Sum of squares in the order of R123: groups of 128 along each row, in sequence, then the padded tree over all groups. -/
def sumSq (rows : List (List Nat)) : Nat :=
  let groups := rows.flatMap (fun r => groupsOf 128 (r.length / 128 + 1) r)
  (ptree fadd (groups.map (fun g => some (g.foldl (fun a x => fadd a (fmul x x)) 0)))).getD 0

/-- Segments of 16,384 elements of a row-major matrix, as the ranges they read (R150, R184). -/
def elementSegments (src lds eb rows cols : Nat) : List Seg :=
  (List.range ((rows * cols + 16383) / 16384)).map (fun k =>
    let lo := 16384 * k
    let hi := min (rows * cols) (lo + 16384)
    { reads := (rowParts cols lo hi).map (fun p => (src + p.1 * lds + p.2.1 * eb, p.2.2 * eb)), writes := [] })

/-- A watch alarms (R152): its STATE, the cause bit, ALARM_SEM, a service-log event, the step record's first watch. -/
def State.alarm (s : State) (f w n bit : Nat) : State :=
  let d := s.domain f
  let s1 := ((s.hwWrite f (s.watchAddr f w + 30) (leBytes 1 3)).setCause f bit).count (A.NWT f 0x30)
  let s2 := s1.addSem (s.dd f 72 4) 1
  let s3 := s2.event 3 [(f, 2), (w, 2), (s.nwtStep f + 1, 8), (s.nwtAttempt f, 1), (bit, 1), (n, 4)]
  let s4 := if d.firstWatch = 0xFFFF then
      ((s3.modDomain f (fun x => { x with firstWatch := w, firstNorm := n })).hwWrite f (s.dd f 80 8 + 20) (leBytes 2 w)).hwWrite f
        (s.dd f 80 8 + 24) (leBytes 4 n)
    else s3
  s4.refreshHeads

/-- All parts are in: the watch is evaluated (R151). -/
def State.evalWatch (s : State) (f w : Nat) : State :=
  let x := s.watch f w
  let np := byteAt x 1
  let t := (ptree fadd ((List.range np).map (fun p => some (fieldAt x (64 + 4 * p) 4)))).getD 0
  let n := fsqrt t
  let s1 := ((s.hwWrite f (s.watchAddr f w + 20) (leBytes 4 n)).hwWrite f (s.watchAddr f w + 30) (leBytes 1 1)).count (A.NWT f 0x28)
  let ratio := if fieldAt x 4 4 % 2 ^ 31 = 0 then 0x41000000 else fieldAt x 4 4
  let ema := fieldAt x 16 4
  if !bitOf (byteAt x 0) 0 then s1
  else if isNan32 n || isInf32 n then s1.alarm f w n 1
  else if bitOf (byteAt x 0) 3 && decide (fieldAt x 12 2 ≤ fieldAt x 24 4) && flt 0 ema && flt (fmul ratio ema) n then s1.alarm f w n 0
  else s1

/-- A part of a watch arrives. -/
def State.takePart (s : State) (f w p sum : Nat) : State :=
  let x := s.watch f w
  let parts := setBits (fieldAt x 28 2) p p 1
  let s1 := (s.hwWrite f (s.watchAddr f w + 64 + 4 * p) (leBytes 4 sum)).hwWrite f (s.watchAddr f w + 28) (leBytes 2 parts)
  if parts % 2 ^ byteAt x 1 = 2 ^ byteAt x 1 - 1 then s1.evalWatch f w else s1

/-- The part's sum of squares is formed and, when every element could be read, taken into its watch (R148 to R152). -/
def State.normPart (s : State) (q i : Nat) (stop : Option Nat) (fl : Flight) : State :=
  let b := fl.bytes
  let fmt := byteAt b 55
  let rows := fieldAt b 40 4
  let cols := fieldAt b 44 4
  let eb := if fmt = 8 then 2 else 4
  let r := s.runJob fl.fn q i true (fl.stopAt stop) (elementSegments (fieldAt b 32 8) (fieldAt b 48 4) eb rows cols)
  let m := (List.range rows).map (s.rowOf fl.fn (fieldAt b 32 8) (fieldAt b 48 4) fmt cols)
  let s1 := r.finish q i (if r.status = 0 then flagsOf cols m.flatten else {})
  if r.status = 0 then s1.takePart fl.fn (fieldAt b 52 2) (byteAt b 54) (sumSq m) else s1

def execNormWatch (q i : Nat) (stop : Option Nat) (s : State) : Result := s.dispatch q i 0x73 s.normBad (fun t fl => t.normPart q i stop fl)

/-! ### Actions (R155) -/

/-- The action and effect of an alarmed watch: action, then 0 none, 1 rescale, 2 fall-back. -/
def watchAction (policy na : Nat) : Nat × Nat :=
  if policy = 0 then (if na < 2 then (1, 1) else (2, 2))
  else if policy = 1 then (if na < 2 then (1, 2) else (3, 0))
  else (3, 0)

/-- Watches that alarmed in the attempt. -/
def State.alarmed (s : State) (f : Nat) : List Nat :=
  (List.range (s.dd f 8 2)).filter (fun w => bitOf (byteAt (s.watch f w) 30) 1)

/-- The local action of cause word `c` (R155). -/
def State.localAction (s : State) (f c : Nat) : Nat :=
  let faults := if bitOf c 2 || bitOf c 5 then (if s.nwtNF f < zeroAs 3 (s.dd f 33 1) then 1 else 3) else 0
  let gen := if bitOf c 3 || bitOf c 4 then 3 else 0
  let ws := (s.alarmed f).map (fun w => (watchAction (byteAt (s.watch f w) 0 / 2 % 4) (s.nwtNA f)).1)
  let a := (faults :: gen :: ws).foldl max 0
  if a = 2 ∧ 1 ≤ s.nwtRS f then 3 else a

/-! ### Restore and abort (R145, R146, R161) -/

/-- The snapshot copied back. -/
def State.restore (s : State) (f q i : Nat) : State :=
  let d := (s.domain f).desc
  let area := fieldAt d 48 8
  let ns := fieldAt d 60 4
  let snap := s.snapEntries f d
  let base := area + 8 * ns
  let (ws, off) := snap.foldl (fun (x : List (Nat × List Byte) × Nat) e => (x.1 ++ [(e.1, s.engRead f (base + x.2) e.2)], x.2 + e.2)) ([], 0)
  let s1 := (s.runJob f q i false none [{ reads := [], writes := ws }]).st
  let s2 := (List.range ns).foldl (fun t k => t.setSem (fieldAt d 56 4 + k) (s.engNum f (area + 8 * k) 8)) s1
  ((s.domain f).snap.zipIdx.foldl (fun t (c, k) =>
    let l := lanesOfBytes (s.engRead f (base + off + 1024 * k) 1024)
    ((t.modCore c.core (fun x => x.putLanes l)).setFld (A.RNG c.core 8) 1 1 (b2n c.valid)).setSeedpos c.core c.seeded c.posBase) s2).refreshHeads

/-- The effects of the watches that alarmed (R161 step 3). -/
def State.watchEffects (s : State) (f na : Nat) (ws : List Nat) : State :=
  ws.foldl (fun t w =>
    let x := s.watch f w
    let g := fieldAt x 2 2
    let e := (watchAction (byteAt x 0 / 2 % 4) na).2
    if e = 1 then
      (List.range (t.engNum f (t.groupAddr f g + 8) 2)).foldl (fun t k =>
        let h := t.engNum f (t.engNum f (t.groupAddr f g) 8 + 8 * k) 8
        t.hwWrite f h (leBytes 1 (setBits (t.engNum f h 1) 1 1 1))) t
    else if e = 2 then t.hwWrite f (t.groupAddr f g + 10) (leBytes 2 (max (t.fbLeft f g) (zeroAs 100 (fieldAt x 14 2))))
    else t) s

/-- The implicit or explicit abort (R161, R163): `policy` says that effects apply and counters change. -/
def State.abort (s : State) (f q i action causes bc : Nat) (policy : Bool) : State :=
  let step := s.nwtStep f + 1
  let na := s.nwtNA f
  let ws := s.alarmed f
  let loc := if policy then (s.domain f).sampledCause else s.reg (A.NWT f 0x20)
  let s1 := s.restore f q i
  let s2 := (s1.modDomain f (fun d => { d with taken := [], pool := s.poolOf f d.desc, commit := none, decision := none
                                               prevStep := step, prevAction := action })).clearWatches f
  let s3 := s2.setReg (A.NWT f 0x20) 0
  let s4 := if policy then
      let t := s3.watchEffects f na ws
      let u := if bitOf causes 0 || bitOf causes 1 then t.setFld (A.NWT f 0x10) 15 8 (min 255 (na + 1))
               else t.setFld (A.NWT f 0x10) 31 24 (min 255 (s.nwtNF f + 1))
      if action = 2 then u.setFld (A.NWT f 0x10) 39 32 (min 255 (s.nwtRS f + 1)) else u
    else s3
  let rec0 := s4.stepRecord f step (action + 1) causes loc bc 0
  let s5 := if action = 1 then rec0.openAttempt f (s.nwtAttempt f + 1) else if action = 2 then rec0.setStep f 0 else rec0.setStep f 4
  (((s5.setFld (A.NWT f 0x10) 5 3 action).count (A.NWT f 0x40)).endFlight q i 0xA 0).modDomain f (fun d => { d with
    contribs := d.contribs.filter (fun c => !(c.step == step && decide (c.attempt ≤ s.nwtAttempt f))) })

/-! ### The flip (R145, R153, R160) -/

/-- A watch evaluated in the committed attempt updates its average; one not evaluated is counted (R153). -/
def State.commitWatch (s : State) (f w : Nat) : State :=
  let x := s.watch f w
  if !bitOf (byteAt x 30) 0 then s.count (A.NWT f 0x50)
  else
    let n := fieldAt x 20 4
    let ema := fieldAt x 16 4
    let alpha := if fieldAt x 8 4 % 2 ^ 31 = 0 then 0x3D800000 else fieldAt x 8 4
    let e := if bitOf (byteAt x 0) 3 then fadd ema (fmul alpha (fsub n ema)) else n
    ((s.hwWrite f (s.watchAddr f w) (leBytes 1 (setBits (byteAt x 0) 3 3 1))).hwWrite f (s.watchAddr f w + 16) (leBytes 4 e)).hwWrite f
      (s.watchAddr f w + 24) (leBytes 4 (fieldAt x 24 4 + 1))

/-- Maps and pool after a commit: each granule written becomes the committed one, its former granule takes the place of the granule
taken in the pool list (R145; the place is DESIGN CHOICE, log 21). -/
def State.commitMaps (s : State) (f : Nat) : State :=
  let d := s.domain f
  let pool := fieldAt d.desc 88 8
  d.taken.foldl (fun t x =>
    let r := t.genRegion f x.region
    let old := t.mapEntry r x.granule
    let full := t.poolOf f d.desc
    let slot := full.idxOf x.phys
    (t.hwWrite f (r.map + 8 * x.granule) (leBytes 8 x.phys)).hwWrite f (pool + 8 * slot) (leBytes 8 old)) s

/-- The commit takes effect: maps, watches, fall-back counters, NWT_STEP (R160). -/
def State.flip (s : State) (f : Nat) (d : Decision) : State :=
  let m := (s.domain f).fbMask
  let s0 := s.setStep f 0
  let s1 := s0.commitMaps f
  let s2 := (List.range (s.dd f 8 2)).foldl (fun t w => t.commitWatch f w) s1
  let s3 := (List.range (s.dd f 10 2)).foldl (fun t g =>
    if m.getD g false then t.hwWrite f (t.groupAddr f g + 10) (leBytes 2 (t.fbLeft f g - 1)) else t) s2
  let s4 := (s3.setReg (A.NWT f 0x18) d.step).setFld (A.NWT f 0x10) 5 3 0
  let s5 := (s4.count (A.NWT f 0x38)).stepRecord f d.step 1 d.causes (s.domain f).sampledCause d.beat s.beat
  let s6 := match (s.domain f).commit with
    | some (q, i) => s5.endFlight q i 0 0
    | none => s5
  (s6.setReg (A.NWT f 0x20) 0).modDomain f (fun x => { x with
    taken := [], commit := none, decision := none, prevStep := d.step, prevAction := 0, flipBeat := s.beat
    contribs := x.contribs.filter (fun c => decide (c.step ≠ d.step)) })

/-- STEP_SLIP and MAX_CMD_SLIP are written at every decision (R428). -/
def State.noteStepSlip (s : State) (f q i : Nat) : State :=
  let d := s.domain f
  let nb := match s.flight? q i with
    | some fl => fieldAt fl.bytes 4 4
    | none => 0
  let slip := slipOf d.sampledBeat nb
  let k := 0x990000 + f * 0x40
  let s1 := s.setReg (k + 8) (d.maxSlip % 2 ^ 32 * 2 ^ 32 + slip)
  if slip = 0 then s1 else s1.count (k + 0x18)

/-- A decision acts on this device: an abort at once; a commit at its beat, or at once when that beat has passed (R160, R161). -/
def State.stepDecide (s : State) (f : Nat) (d : Decision) : State :=
  match (s.domain f).commit with
  | none => s.modDomain f (fun x => { x with discarded := x.discarded + 1 })
  | some (q, i) =>
    if s.stepState f ≠ 2 ∨ d.step ≠ s.nwtStep f + 1 ∨ d.attempt ≠ s.nwtAttempt f ∨ (s.domain f).decision.isSome then
      s.modDomain f (fun x => { x with discarded := x.discarded + 1 })
    else
      let t := s.noteStepSlip f q i
      if d.action = 0 then
        if d.beat < s.beat then (t.flip f d).count (A.NWT f 0x48) else t.modDomain f (fun x => { x with decision := some d })
      else t.abort f q i d.action d.causes d.beat true

/-- COMMIT_FLIP: the agreed beat is reached. -/
def execCommitFlip (f : Nat) (s : State) : Result :=
  onUnit (decide (f < 512)) <| match (s.domain f).decision with
    | some d => if d.beat ≤ s.beat then s.flip f d else s
    | none => s

/-! ### The direct tree (R159, R396) -/

/-- The communicator of function f's domain. -/
def State.stepComm (s : State) (f : Nat) : Comm := s.readComm f (s.dd f 64 4)

/-- Parent of a rank above 0 in the canonical tree, and its children among p ranks. -/
def treeParent (r : Nat) : Nat := r - 2 ^ (((List.range 14).find? (fun l => r % 2 ^ (l + 1) != 0)).getD 0)
def treeChildren (p r : Nat) : List Nat :=
  ((List.range 14).map (2 ^ ·)).filterMap (fun d => if r % (2 * d) = 0 ∧ r + d < p then some (r + d) else none)

/-- A COL_DECISION message: TAG bit 0 says down, [15:1] the rank it comes from, [31:16] the rank it goes to (DESIGN CHOICE, log 21). -/
def State.sendDecision (s : State) (f : Nat) (m : Comm) (down : Bool) (src dst : Nat) (c : Contrib) : State :=
  s.sendMsg { dst := m.node dst, src := s.node, pkey := s.pkey f, mtype := 0x27, flags := 0, aux := 0
              tag := b2n down + 2 * (src % 2 ^ 15) + 2 ^ 16 * dst, addr := 0, sealW := 0
              data := leBytes 8 c.step ++ leBytes 1 c.attempt ++ leBytes 1 c.action ++ leBytes 2 0 ++ leBytes 4 c.causes ++ leBytes 8 c.beat }

/-- A decision goes on to a rank's children. -/
def State.passDown (s : State) (f : Nat) (m : Comm) (d : Decision) : State :=
  (treeChildren m.p m.rank).foldl (fun t r => t.sendDecision f m true m.rank r
    { rank := m.rank, step := d.step, attempt := d.attempt, action := d.action, causes := d.causes, beat := d.beat }) s

/-- Two contributions as a node of the tree keeps them. -/
def Contrib.merge (a b : Contrib) : Contrib :=
  { a with action := max a.action b.action, causes := a.causes ||| b.causes, beat := max a.beat b.beat }

/-- This member's own contribution. -/
def State.ownContrib (s : State) (f rank : Nat) : Contrib :=
  let d := s.domain f
  { rank := rank, step := s.nwtStep f + 1, attempt := s.nwtAttempt f, action := s.localAction f d.sampledCause, causes := d.sampledCause
    beat := d.sampledBeat }

/-- Once every rank below has contributed to this attempt, the merged contribution goes up, or at rank 0 becomes the decision, which is
logged and sent down (R159). -/
def State.stepReduce (s : State) (f : Nat) : State :=
  let d := s.domain f
  let m := s.stepComm f
  let own := s.ownContrib f m.rank
  let mine := d.contribs.filter (fun c => c.step == own.step && c.attempt == own.attempt)
  if s.stepState f ≠ 2 ∨ d.commit.isNone ∨ d.commitLocal ∨ d.decision.isSome then s
  else if !(treeChildren m.p m.rank).all (fun r => mine.any (fun c => c.rank == r)) then s
  else
    let all := mine.foldl Contrib.merge own
    if m.rank = 0 then
      let dec : Decision := { step := own.step, attempt := own.attempt, action := all.action, causes := all.causes
                              beat := all.beat + zeroAs 20 (s.dd f 34 2) }
      ((s.modDomain f (fun x => { x with log := (dec :: x.log).take 16 })).passDown f m dec).stepDecide f dec
    else s.sendDecision f m false m.rank (treeParent m.rank) all

/-- The function whose member `rank` this device is, for a message with key `pkey`. -/
def State.stepMember (s : State) (pkey rank : Nat) : Option Nat :=
  (s.domains.map Prod.fst).find? (fun f => s.pkey f == pkey && !(s.domain f).desc.isEmpty
    && (let m := s.stepComm f; m.rank == rank && m.members.getD rank 0 == s.node + f * 4096))

/-- COL_DECISION received: a decision acts and goes on down; a contribution is kept, answered from rank 0's log when its step and
attempt are decided (R162), or passed up by a member that has left its attempt. -/
def State.takeDecision (s : State) (m : FabMsg) : State :=
  let src := bitsOf m.tag 15 1
  let c : Contrib := { rank := src, step := fieldAt m.data 0 8, attempt := byteAt m.data 8, action := byteAt m.data 9
                       causes := fieldAt m.data 12 4, beat := fieldAt m.data 16 8 }
  match s.stepMember m.pkey (bitsOf m.tag 31 16) with
  | none => s
  | some f =>
    let co := s.stepComm f
    if bitOf m.tag 0 then
      let d : Decision := { step := c.step, attempt := c.attempt, action := c.action, causes := c.causes, beat := c.beat }
      let open_ := s.stepState f == 2 && c.step == s.nwtStep f + 1 && c.attempt == s.nwtAttempt f && (s.domain f).decision.isNone
      (if open_ then s.passDown f co d else s).stepDecide f d
    else match (s.domain f).log.find? (fun d => d.step == c.step && d.attempt == c.attempt) with
      | some d => s.sendDecision f co true co.rank src
          { rank := co.rank, step := d.step, attempt := d.attempt, action := d.action, causes := d.causes, beat := d.beat }
      | none =>
        let past := decide (c.step ≤ s.nwtStep f) || (c.step == s.nwtStep f + 1 && s.attemptOpen f && decide (c.attempt < s.nwtAttempt f))
        if past then (if co.rank = 0 then s else s.sendDecision f co false src (treeParent co.rank) c)
        else
          let put (l : List Contrib) : List Contrib :=
            c :: l.filter (fun y => !(y.rank == c.rank && y.step == c.step && y.attempt == c.attempt))
          (s.modDomain f (fun x => { x with contribs := put x.contribs })).stepReduce f

def execColDecision (k : Nat) (s : State) : Result := s.onMsg k 0x27 (fun t _ m => t.takeDecision m)

/-! ### STEP_COMMIT (R157 to R159, R162) -/

/-- A malformed STEP_COMMIT. -/
def State.stepCommitBad (s : State) (fl : Flight) : Option Nat :=
  let b := fl.bytes
  if (s.domain fl.fn).commit = some (fl.queue, fl.index) then none
  else firstBad ([(32, s.attemptOpen fl.fn && fieldAt b 32 8 == s.nwtStep fl.fn + 1), (40, decide (byteAt b 40 < 4))]
    ++ (offs 41 63).map (fun o => (o, byteAt b o == 0)))

/-- STEP_COMMIT at the step controller: it waits to be sampled; a cancel recorded before that ends it. -/
def State.stepCommit (s : State) (fl : Flight) : State :=
  let d := s.domain fl.fn
  if d.commit = some (fl.queue, fl.index) then
    if fl.cancel ∧ s.stepState fl.fn = 1 then
      (s.modDomain fl.fn (fun x => { x with commit := none })).endFlight fl.queue fl.index 2 0
    else s
  else if d.commit.isSome then s
  else s.modDomain fl.fn (fun x => { x with commit := some (fl.queue, fl.index), commitLocal := bitOf (byteAt fl.bytes 40) 1 })

def execStepCommit (q i : Nat) (s : State) : Result :=
  s.dispatch q i 0x71 s.stepCommitBad (fun t fl => t.stepCommit fl)

/-- Commands of function f granted before (q, i) have all completed (R158). -/
def State.earlierDone (s : State) (f q i : Nat) : Bool :=
  (s.flights.takeWhile (fun x => !(x.queue == q && x.index == i))).all (fun x => x.fn != f || x.stale)

/-- A granule taken in the attempt still holds a void block (R144). -/
def State.genIncomplete (s : State) (f : Nat) : Bool :=
  (s.domain f).taken.any (fun t => (List.range 1024).any (fun k => s.syndrome (t.phys + 2048 * k) == 0xFFFFFFFF#32))

/-- STEP_COMMIT_SAMPLE: the cause word and the beat are sampled; the contribution leaves, or with LOCAL the local values decide. -/
def State.stepSample (s : State) (f : Nat) : State :=
  match (s.domain f).commit with
  | none => s
  | some (q, i) =>
    if s.stepState f ≠ 1 ∨ !s.earlierDone f q i then s
    else match s.flight? q i with
      | none => s
      | some fl =>
        let s1 := if s.genIncomplete f then s.setCause f 3 else s
        let s2 := if bitOf (byteAt fl.bytes 40) 0 then s1.setCause f 5 else s1
        let c := s2.fld (A.NWT f 0x20) 31 0
        let s3 := (s2.setStep f 2).modDomain f (fun d => { d with sampledCause := c, sampledBeat := s.beat, sampledTick := s.ticks })
        if (s.domain f).commitLocal then
          s3.stepDecide f { step := s.nwtStep f + 1, attempt := s.nwtAttempt f, action := s3.localAction f c, causes := c, beat := s.beat + 1 }
        else s3.stepReduce f

def execStepCommitSample (f : Nat) (s : State) : Result := onUnit (decide (f < 512)) (s.stepSample f)

/-- COMMIT_TIMEOUT beats after sampling without a decision: the attempt stays open (R162). -/
def State.commitTimeout (s : State) (f : Nat) : State :=
  let d := s.domain f
  match d.commit with
  | none => s
  | some (q, i) =>
    if s.stepState f ≠ 2 ∨ d.decision.isSome ∨ s.ticks < d.sampledTick + zeroAs 100000 (s.dd f 68 4) then s
    else
      let s1 := ((s.setStep f 1).setFld (A.NWT f 0x10) 5 3 4).modDomain f (fun x => { x with commit := none })
      (s1.stepRecord f (s.nwtStep f + 1) 5 0 d.sampledCause 0 0).endFlight q i 9 (s.ticks - d.sampledTick)

def execCommitTimeout (f : Nat) (s : State) : Result := onUnit (decide (f < 512)) (s.commitTimeout f)

/-! ### STEP_ABORT, HALT_CLR (R163, R164, R170) -/

def State.stepAbortBad (s : State) (fl : Flight) : Option Nat :=
  let b := fl.bytes
  firstBad ([(32, s.attemptOpen fl.fn && fieldAt b 32 8 == s.nwtStep fl.fn + 1),
    (40, decide (1 ≤ byteAt b 40) && decide (byteAt b 40 < 4))]
    ++ (offs 41 63).map (fun o => (o, byteAt b o == 0)))

/-- STEP_ABORT; its copies wait for an absent scheduler core (R576). -/
def execStepAbort (q i : Nat) (s : State) : Result :=
  s.dispatch q i 0x72 s.stepAbortBad (fun t fl =>
    if t.isAbsent 2 then t
    else if !t.earlierDone fl.fn q i then (if fl.cancel then t.endFlight q i 2 0 else t)
    else t.abort fl.fn q i (byteAt fl.bytes 40) (t.fld (A.NWT fl.fn 0x20) 31 0) 0 false)

/-- HALT_CLR written to NWT_CFG of function f by function g (the physical function, or f itself). -/
def execHaltClr (f : Nat) (s : State) : Result :=
  onUnit (decide (f < 512)) (if s.barOpen ∧ s.stepState f = 4 then s.setStep f 0 else s)

end Sys2Proof.Machine
end

