-- ==== Sys2Proof/Machine/Resets.lean ====
section
/-!
DEFINITION. Cluster resets (R297, R333, R600) and function-level resets (R610, R611, R596).
-/

namespace Sys2Proof.Machine

/-- A register takes its Warm reset value; what a counter held stays in the lifetime totals (R8, R549, R565). -/
def State.warmReg (s : State) (k : Nat) : State :=
  match regFind regTable k with
  | some (d, i, j) =>
    let s1 := if d.ctr.isSome then s.zeroCtr k else s
    s1.setReg k (regWarmOf d i j (s1.reg k))
  | none => s

/-! ### Cluster reset -/

/-- The MEM_ and PMC_ core blocks of core c. -/
def coreBlock (c : Nat) : List Nat :=
  [A.LSU c 0, A.LSU c 8] ++ (List.range 11).map (fun n => A.LSU c (0x10 + 8 * n)) ++ [A.PMCC c 0, A.PMCC c 8]
    ++ (List.range 7).map (fun n => A.PMCC c (0x10 + 8 * n))

/-- A core's part of a cluster reset (R208, R70, R451, R467; chapter 09): its threads halt, its requests and prefetch buffer go, its generator
states are lost, its scratchpad takes void seals, the blocks MEM_ and PMC_ their Warm reset values. It is in C0. -/
def State.resetCore (s : State) (c : Nat) : State :=
  let x := s.core c
  let slept := decide (2 ≤ s.cstate c)
  let s1 := s.count (A.LSU c 0x58) (x.pfBuf.filter (fun b => !b.used)).length
  let s2 := s1.setCore c { Core.init with
    threads := x.threads.map (fun t => (t.1, { t.2 with running := false, wait := .none }))
    mvc := x.mvc, vprog := x.vprog, nextGroup := x.nextGroup, idleSince := s.ticks, testHold := x.testHold }
  let s3 := ((coreBlock c).foldl State.warmReg s2).setFld (A.RNG c 8) 1 0 0
  let here (a : Nat) : Bool := decide (scratchAddr c 0 ≤ a) && decide (a < scratchAddr c 0x400000)
  let s4 := { s3 with
    seals := smapDrop here s3.seals
    tiers := { s3.tiers with badWords := s3.tiers.badWords.filter (fun a => !(here a && s3.faults.armed.any (fun y => y.kind == 4 && y.addr == a))) }
    faults := { s3.faults with armed := s3.faults.armed.filter (fun (y : Injection) =>
      if y.kind == 1 then true else if y.kind == 4 then !here y.addr else y.core != c) } }
  if slept then ((s4.release (.base c)).askSys (c / 128) 35 none false (.base c)).sleepBookings c else s4

/-- Lines of cluster k that are cached or wait. -/
def State.clusterLines (s : State) (k : Nat) : List Nat := (s.coh.lines.filter (fun e => e.1 % 32 == k && decide (e.2.st ≠ .I))).map (fun e => e.1 / 32)

/-- The directory names cluster k on line `l`. -/
def DirEntry.names (e : DirEntry) (k : Nat) : Bool :=
  e.owner == some k || e.sharers.contains k || e.queue.any (fun q => q.from_ == k)
    || (match e.txn with | some t => t.req.from_ == k || t.awaits.contains k || t.awaitsPut.contains k | none => false)

/-- Nothing of cluster k is left in the caches, on the way, or in the directory (R297). -/
def State.clusterOut (s : State) (k : Nat) : Bool :=
  (s.clusterLines k).isEmpty && !s.coh.net.any (fun m => m.cluster == k && decide (m.kind ≠ .wbAck)) && !s.coh.dir.any (fun e => e.2.names k)

/-- Writebacks of every line of cluster k that is in a stable state (R297). -/
def State.writeOut (s : State) (k : Nat) : State := (s.clusterLines k).foldl (fun t l => t.evictLine k l) s

/-- What is left of cluster k on line `l` after SNP_TO is treated as lost (R296, R297): what its owner held, the block taking the void seal;
its requests are dropped, and one whose transaction is open becomes an invalidation, or a read that nobody takes. -/
def State.loseFrom (s : State) (k l : Nat) : State :=
  let e := s.dirEntry l
  let s1 := if e.owner = some k ∨ e.sharers.contains k then
      (s.countDir l 0x58).record { cls := 1, cause := 8, unitKind := 7, unit := k, addr := l * 128, closeNow := true }
    else s
  let s2 := if e.owner = some k then s1.loseLine l else s1
  let mine (t : Txn) : Txn :=
    if t.req.from_ = k then
      { t with req := { t.req with kind := if t.req.kind = .getS then .readNC else .backInv, from_ := 33, core := Config.cores } }
    else t
  let txn := e.txn.map (fun t =>
    let lost := e.owner == some k && (t.awaits.contains k || t.awaitsPut.contains k)
    { mine t with awaits := t.awaits.erase k, awaitsPut := t.awaitsPut.erase k, gotData := t.gotData || lost, crossed := t.crossed || lost
                  poison := if lost then some (s.reg A.ERR_WR) else t.poison })
  (s2.setDir l { e with txn := txn, owner := if e.owner = some k then none else e.owner, sharers := e.sharers.erase k
                        queue := e.queue.filter (fun q => q.from_ != k) }).advanceLine l

/-- Cluster k is reset although its lines are not out. -/
def State.loseCluster (s : State) (k : Nat) : State :=
  let ls := ((s.coh.dir.filter (fun e => e.2.names k)).map Prod.fst)
  let s1 := ls.foldl (fun t l => t.loseFrom k l) s
  { s1 with coh := { s1.coh with
      lines := s1.coh.lines.filter (fun e => e.1 % 32 != k)
      net := s1.coh.net.filter (fun m => m.cluster != k)
      timedOut := s1.coh.timedOut.filter (fun x => x % 32 != k) } }

/-- The clusters of a mask. -/
def clustersOf (mask : Nat) : List Nat := (List.range 32).filter (bitOf mask)

/-- HUB_CLRST written with `mask`: the clusters' commands in flight end with FAULT_LOST, their cores are reset, and their caches start to
write back; ignored while BUSY. -/
def execHubClrst (mask : Nat) (s : State) : Result :=
  .next (
    let m := mask % 2 ^ 32
    if !s.reaches 0 ∨ s.fld A.HUB_CLRST 63 63 = 1 ∨ m = 0 then s
    else
      let s1 := ({ s with clrst := m, clrstAt := s.ticks } : State).setFld A.HUB_CLRST 63 63 1
      (clustersOf m).foldl (fun t k =>
        ((List.range 16).foldl (fun u j => u.resetCore (16 * k + j)) (t.endFlights (fun f => f.core / 16 == k) 3 0)).writeOut k) s1)

/-- CLUSTER_RESET_DONE: every cluster named is out of the directory, or SNP_TO has passed: BUSY clears (R297, R600). -/
def execClusterResetDone (s : State) : Result :=
  .next (
    if s.fld A.HUB_CLRST 63 63 = 0 then s
    else
      let ks := clustersOf s.clrst
      let s1 := ks.foldl State.writeOut s
      let late := decide (s.clrstAt + s.snpTo ≤ s.ticks)
      if !late && !ks.all s1.clusterOut then s1
      else
        let s2 := (ks.filter (fun k => !s1.clusterOut k)).foldl State.loseCluster s1
        ((({ s2 with clrst := 0 } : State).setFld A.HUB_CLRST 63 63 0).closeRecords (fun r => r.cause == 8 && r.cls == 1)).refreshHeads)

/-! ### Function-level reset -/

/-- The domain of f becomes IDLE by the abort mapping (R145, R166). -/
def State.domainIdle (s : State) (f : Nat) : State :=
  let d := s.domain f
  (s.modDomain f (fun x => { x with
    taken := [], pool := if d.taken.isEmpty then x.pool else s.poolOf f x.desc, commit := none, contribs := [], decision := none, snap := []
    lateFault := false })).setFld (A.NWT f 0x10) 2 0 0

/-- A command of f in flight leaves: CANCELLED_PARTIAL unless it had ended, its requests to other devices and the host abandoned (R610). -/
def State.flrFlight (s : State) (fl : Flight) : State :=
  let q := fl.queue
  let i := fl.index
  let s1 := s.endFlights (fun x => x.queue == q && x.index == i) 2 0
  let s2 := if fl.voided || fl.remoteBlocks.isEmpty || fl.ended then s1 else s1.sendVoids fl
  let s3 := { s2 with fabric := { s2.fabric with requests := s2.fabric.requests.filter (fun r => !(r.queue == q && r.index == i)) } }
  match s3.flight? q i with
  | some x =>
    let m := match engineClass (byteAt x.bytes 0) with
      | some c => s3.learned (byteAt x.bytes 2) c
      | none => 0
    s3.completeFlight { x with waiting := 0 } m false
  | none => s3

/-- The registers every function has as its own, and HUB_MSIX_MOD, take their Warm reset values; the MSI-X table and configuration space their
reset values (R599, R610). -/
def State.flrRegs (s : State) (f : Nat) : State :=
  let lo := fnPrivate f 0
  let s1 := ((s.regs.map Prod.fst).filter (fun k => decide (lo ≤ k) && decide (k < lo + 0x100000))).foldl State.warmReg s
  let p := s.fnPcie f
  let s2 := s1.setPcie f { FnPcie.init with vfBar2Log := p.vfBar2Log, maxPayload := p.maxPayload }
  { s2 with
    msix := smapDrop (fun k => k / 2048 == f) s2.msix
    lowLatch := s2.lowLatch.filter (fun e => e.1 / 2 ^ 33 != f) }

/-- A function-level reset of f (R610): vectors first, so that no message is sent; commands and queues (R333); host requests; cache parts
(R262); cluster lines (R297); the step domain (R166); collectives without ABORT (R406); the dead-letter queue's pointers; registers. -/
def State.flr (s : State) (f : Nat) : State :=
  let s0 := { s with msix := smapDrop (fun k => k / 2048 == f) s.msix }
  let s1 := s0.flights.foldl (fun t fl => if fl.fn = f then t.flrFlight fl else t) s0
  let qs := (s1.queues.map Prod.fst).filter (fun q => s1.ownsQueue f q)
  let s2 := qs.foldl (fun (t : State) q => t.modQueue q (fun x => { x with migration := none, deferred := none })) s1
  let s3 := qs.foldl (fun (t : State) q => (t.resetQueue q).modQueue q (fun x => { x with uctPaused := false })) s2
  let s4 := { s3 with
    col := { s3.col with running := s3.col.running.filter (fun (c : Collective) => c.fn != f) } }
  let s5 := (List.range 4).foldl (fun t k => t.partInstall f k (t.part f k)) s4
  let s6 := (s5.purgeWhere (fun a => s5.granOwner a == f)).domainIdle f
  ((((s6.setFld (A.QMGF f 0x78) 63 0 0).closeRecords (fun r => r.cls == 2 && r.fn == f)).flrRegs f).refreshHeads).forceNext

/-- FLR of the physical function (R611): every enabled VF with it, and VF Enable clears. -/
def State.pfFlr (s : State) : State :=
  let vfs := if s.vfEnable then (List.range s.numVfs).map (· + 1) else []
  let s1 := (vfs.foldl State.flr s).flr 0
  { (s1.setPcie 0 FnPcie.init) with vfEnable := false, numVfs := 0 }

/-- FLR: the host writes Initiate Function Level Reset of function f. -/
def execFlr (f : Nat) (s : State) : Result :=
  onUnit (decide (f < 512)) (if !s.boot.pcieUp ∨ !s.fnPresent f then s else if f = 0 then s.pfFlr else s.flr f)

def execPfFlr (s : State) : Result := .next (if s.boot.pcieUp then s.pfFlr else s)

/-- VF_ENABLE_CLEAR: VF Enable goes from 1 to 0: every VF undergoes a function-level reset (R596). -/
def execVfEnableClear (s : State) : Result :=
  .next (if !s.boot.pcieUp ∨ !s.vfEnable then s
    else { ((List.range s.numVfs).foldl (fun t j => t.flr (j + 1)) s) with vfEnable := false })

end Sys2Proof.Machine
end

