-- ==== Sys2Proof/Machine/HostPort.lean ====
section
/-!
DEFINITION. The PCIe port (R594 to R608): BAR2, host-form completions, MSI-X unmasking and moderation, configuration requests.
-/

namespace Sys2Proof.Machine

/-! ### BAR2 (R601, R602) -/

/-- log2 of the BAR2 size of function f. -/
def State.bar2Log (s : State) (f : Nat) : Nat := if f = 0 then (s.fnPcie 0).bar2Log else (s.fnPcie 0).vfBar2Log

/-- Device address of BAR2 offset `o`: BASE bits below the size read as 0 (R599). -/
def State.bar2Addr (s : State) (f o : Nat) : Nat :=
  let w := 2 ^ s.bar2Log f
  s.reg (A.BAR2_WIN f) / w * w + o

/-- One address of a BAR2 access is refused (R602). -/
def State.bar2Refused (s : State) (f a : Nat) (wr : Bool) : Bool :=
  match regionOf a with
  | .capacity => f != 0 && s.granOwner a != f
  | .fast _ off =>
    if sysOff ≤ off then wr || f != 0
    else f != 0 && s.granOwner a != f
  | .scratch c _ => s.unavailable c || (f != 0 && !s.ownsCore f c)
  | _ => true

/-- The access is refused. -/
def State.bar2Bad (s : State) (f a n : Nat) (wr : Bool) : Bool := (chunks a n).any (fun c => s.bar2Refused f c.1 wr || s.bar2Refused f (c.1 + c.2 - 1) wr)

/-- The sleeping core whose scratchpad an access names: it is woken, and the access waits (R238). -/
def State.bar2Sleeper (s : State) (a : Nat) : Option Nat :=
  match regionOf a with
  | .scratch c _ => if s.cstate c = 0 ∧ !s.waking c then none else some c
  | _ => none

/-- Function f's BAR2 decodes [o, o + n). -/
def State.bar2Hit (s : State) (f o n : Nat) : Bool := s.reaches f && decide (1 ≤ n) && decide (o + n ≤ 2 ^ s.bar2Log f)

/-- Context word `w` of a queue as it reads (R336). -/
def Queue.word (x : Queue) (w : Nat) : Nat :=
  match w with
  | 0 => x.ring
  | 1 => x.cpl
  | 2 => x.head * 2 ^ 32 + x.tail
  | 3 => x.epoch * 2 ^ 32 + x.cdone
  | 4 => x.msix * 2 ^ 48 + x.errState * 2 ^ 40 + x.state * 2 ^ 32 + b2n x.rngBind * 2 ^ 29 + b2n x.irqEn * 2 ^ 28 + x.bgroup * 2 ^ 24
      + x.log2size * 2 ^ 16 + x.core
  | 5 => x.rngArea
  | 6 => x.done
  | _ => 0

/-- A byte of die `k`'s system region at offset `o`: queue contexts and semaphores first, then what the hub has stored (R255). -/
def State.sysByte (s : State) (k o a : Nat) : Byte :=
  if o < 0x400000 then BitVec.ofNat 8 ((s.queue (65536 * k + o / 64)).word (o % 64 / 8) / 2 ^ (8 * (o % 8)))
  else if o < 0x600000 then BitVec.ofNat 8 (s.sem (262144 * k + (o - 0x400000) / 8) / 2 ^ (8 * (o % 8)))
  else s.byte a

/-- A byte as a BAR2 read returns it. -/
def State.hostByte (s : State) (a : Nat) : Byte :=
  match regionOf a with
  | .fast k off => if sysOff ≤ off then s.sysByte k (off - sysOff) a else s.byte a
  | _ => s.byte a

/-- Bytes as a BAR2 read returns them. -/
def State.hostBytes (s : State) (a n : Nat) : List Byte := (List.range n).map (fun i => s.hostByte (a + i))

/-- BAR2_READ: function f reads `n` bytes, at most 4,096 (R594), at offset `o`. -/
def execBar2Read (f o n : Nat) (s : State) : Result :=
  onUnit (decide (f < 512)) <|
    if !s.fnPresent f ∨ 4096 < n then s
    else if !s.barOpen then s.send (.hostData f o (List.replicate n 0) false)
    else if !s.bar2Hit f o n then s
    else
      let a := s.bar2Addr f o
      if s.bar2Bad f a n false then (s.count (A.BAR2_ERR f)).send (.hostData f o (List.replicate n 0) false)
      else match s.bar2Sleeper a with
        | some c => s.coreWake c 6
        | none =>
          let s1 := (chunks a n).foldl (fun t c => t.traffic c.1 c.2 false) s
          match s.badWord a n with
          | some w => ((s1.uncorrectable 0xFFFF 0xFFFFFFFF 0 w).1).send (.hostData f o (s.hostBytes a n) true)
          | none => s1.send (.hostData f o (s.hostBytes a n) false)

/-- BAR2_WRITE: function f writes `data` at offset `o`: a plain write, at most a max payload size of 512 bytes (R445, R594). -/
def execBar2Write (f o : Nat) (data : List Byte) (s : State) : Result :=
  onUnit (decide (f < 512)) <|
    let n := data.length
    if !s.fnPresent f ∨ 512 < n ∨ !s.bar2Hit f o n then s
    else
      let a := s.bar2Addr f o
      if s.bar2Bad f a n true then s.count (A.BAR2_ERR f)
      else match s.bar2Sleeper a with
        | some c => s.coreWake c 6
        | none => (chunks a n).foldl (fun t c => ((t.purgeRange c.1 c.2).traffic c.1 c.2 true).plainWrite c.1 ((data.drop (c.1 - a)).take c.2)) s

/-! ### Host-form requests (R604, R606) -/

/-- HOST_COMPLETION for the request with `tag`: PCIe completion status 0 successful, 1 unsupported request, 4 completer abort; poisoned or
not; its data. A late one is discarded (R613). -/
def execHostCompletion (tag status : Nat) (poison : Bool) (data : List Byte) (s : State) : Result :=
  .next (match s.findRequest true tag with
    | none => s
    | some r =>
      match r.kind with
      | .read dst len =>
        if status = 0 ∧ !poison ∧ data.length < len then s
        else
          let s1 := s.dropRequest true tag
          if status ≠ 0 then s1.answered r.queue r.index (some (7, r.addr, false))
          else if poison then s1.answered r.queue r.index (some (3, r.addr, false))
          else (s1.fetched r.queue r.index dst (data.take len)).answered r.queue r.index none
      | _ => s.dropRequest true tag)

/-- HOST_COMPLETION_TIMEOUT: the completion timeout of the host's setting, by default 50 ms, has passed. -/
def execHostCompletionTimeout (tag : Nat) (s : State) : Result :=
  .next (match s.findRequest true tag with
    | none => s
    | some r =>
      if s.ticks < r.since + (s.fnPcie 0).cplTimeout then s
      else (s.dropRequest true tag).answered r.queue r.index (some (9, s.ticks - r.since, false)))

/-! ### MSI-X (R607, R608) -/

/-- A vector that may send and has causes pending behind its pending bit sends at once. -/
def State.flushVector (s : State) (f v : Nat) : State :=
  let m := s.msixVec f v
  if m.pend && decide (m.causes ≠ 0) && s.vectorOpen f v then s.sendVector f v else s

/-- Every vector of f. -/
def State.flushVectors (s : State) (f : Nat) : State :=
  ((s.msix.map Prod.fst).filter (fun k => k / 2048 == f)).foldl (fun t k => t.flushVector f (k % 2048)) s

/-- MSIX_UNMASK: the mask bit of vector v of f is cleared; with causes pending its message is sent at once. -/
def execMsixUnmask (f v : Nat) (s : State) : Result :=
  onUnit (decide (f < 512) && decide (v < vectorCount f)) <|
    if !s.reaches f then s
    else
      let m := s.msixVec f v
      let s1 := s.setMsix f v { m with masked := false }
      if m.masked && decide (m.causes ≠ 0) && s1.vectorOpen f v then s1.sendVector f v else s1

/-- MSIX_HOLDOFF_EXPIRY: HOLDOFF beats have passed since the first pending cause; a vector that may not send keeps its pending bit. -/
def execMsixHoldoffExpiry (f v : Nat) (s : State) : Result :=
  onUnit (decide (f < 512) && decide (v < vectorCount f)) <|
    let m := s.msixVec f v
    let h := s.fld (A.MSIX_MOD f v) 31 16
    if m.causes = 0 ∨ h = 0 ∨ s.ticks < m.firstBeat + h then s
    else if s.vectorOpen f v then s.sendVector f v
    else s.setMsix f v { m with pend := true }

/-! ### Configuration space (R594 to R596, R601) -/

/-- The identity of function f: vendor, device, revision, class code, subsystem vendor and subsystem, as R595 gives them. -/
def identityBytes (f : Nat) : List Byte :=
  leBytes 2 pciVendor ++ leBytes 2 (if f = 0 then 0x4096 else 0x4097) ++ [0xB1#8] ++ leBytes 3 0x120000 ++ leBytes 2 pciVendor ++ leBytes 2 1

/-- PCIE_CONFIG_ACCESS: a configuration request to function f. The settings that SR-IOV and the link have once are the PF's. -/
def execPcieConfigAccess (f : Nat) (op : CfgOp) (s : State) : Result :=
  onUnit (decide (f < 512)) <|
    if !s.boot.pcieUp ∨ !s.fnPresent f then s
    else
      let p := s.fnPcie f
      let b := s.fnPcie 0
      match op with
      | .identity => s.send (.hostData f 0 (identityBytes f) false)
      | .busMaster on => (s.setPcie f { p with busMaster := on }).flushVectors f
      | .msix en all => (s.setPcie f { p with msixEnable := en, msixMaskAll := all }).flushVectors f
      | .bar2Size vf log =>
        if f ≠ 0 then s
        else if vf then (if 21 ≤ log ∧ log ≤ 36 then s.setPcie 0 { b with vfBar2Log := log } else s)
        else if 30 ≤ log ∧ log ≤ 41 then s.setPcie 0 { b with bar2Log := log }
        else s
      | .maxPayload n => if f = 0 ∧ (n = 128 ∨ n = 256 ∨ n = 512) then s.setPcie 0 { b with maxPayload := n } else s
      | .completionTimeout us => if f = 0 ∧ 50 ≤ us ∧ us ≤ 64000000 then s.setPcie 0 { b with cplTimeout := us } else s
      | .vfEnable n => if f = 0 ∧ !s.vfEnable ∧ n ≤ 511 then { s with vfEnable := true, numVfs := n } else s

end Sys2Proof.Machine
end

