-- ==== Sys2Proof/Machine/Boot.lean ====
section
/-!
DEFINITION. Power-good, the boot and its failures, losses of power, the warm reset and the test access port (R546, R567, R579 to R581, R588,
R612, R621 to R629).
-/

namespace Sys2Proof.Machine

/-! ### The cold reset (R8, R256, R297, R321, R333, R506, R567) -/

/-- The registers that hold what the always-on domain and the log keep, and the level of the FLOW_OK input (R511, R558, R571). -/
def State.coldRegs (s old : State) : State :=
  ((s.setReg A.TEL_LIFE (old.reg A.TEL_LIFE)).setFld A.TEL_SLOG 63 32 (old.fld A.TEL_SLOG 63 32)).setFld A.PMC_STATUS 33 33 (old.fld A.PMC_STATUS 33 33)

/-- What a cold reset leaves of a state `s`, before any boot step: everything as in `State.reset`, but for the flash, the persistent store, the
always-on totals, the OTP counter and the pins; the counters' counts go to the lifetime totals (R565, R567, R573). The instant starts at 0. -/
def State.coldState (s : State) : State :=
  let c := (((s.regs.map Prod.fst).filter (fun k => match regFind regTable k with | some (d, _, _) => d.ctr.isSome | none => false)).foldl State.zeroCtr s).tel
  let drop (m : List (Nat × Nat)) : List (Nat × Nat) := smapDrop (fun k => decide (0x300 ≤ k) && decide (k < 0x400)) m
  ({ State.reset with
    pending := s.pending, free := s.free, outbox := s.outbox
    fw := { Firmware.init with flash := s.fw.flash, length := s.fw.length, target := s.fw.target, running := s.fw.running }
    jrn := { Journal.init with used := s.jrn.used, compactions := s.jrn.compactions, bad := s.jrn.bad }
    boot := { s.boot with step := 0, since := 0, recovery := false, pcieUp := false, railFault := false }
    tel := { c with
      sweeps := [], lastSweep := [], railSum := [], maxClr := false, evPend := [], flushWait := [], captures := [], logAsked := false
      boots := c.boots + 1, bseq := 0, beacon := [], beaconAt := 0, acc := drop c.acc, accHour := drop c.accHour } } : State).coldRegs s

/-- Records of the batch in front that have reached the store when power goes: the first `n` of them (R546). -/
def State.journalCut (s : State) (n : Nat) : State :=
  match s.jrn.batches with
  | b :: _ =>
    if s.jrn.busy ≠ 1 ∨ !s.storeGranted then s
    else
      let rs := b.entries.flatMap (recsOf 1)
      let s1 := if switchSlot < s.jrn.next + rs.length ∧ !s.jrn.compacting then s.switchRegion else s
      let s2 := (s1.putBatch rs.length 0 [] (rs.take n)).1
      { s2 with jrn := { s2.jrn with used := s2.jrn.used + min n rs.length } }
  | [] => s

/-! ### Power (R546, R567, R624, R626, R627) -/

/-- PWR_GOOD_RISE: the cold reset; the straps are sampled as `nodeId` and `bootSel`, and boot step 1 follows. Nothing starts while THERMTRIP_N is
asserted (R627). -/
def execPwrGoodRise (nodeId bootSel : Nat) (s : State) : Result :=
  .next (if s.boot.pwrGood then s
    else if s.power.tripped then { s with boot := { s.boot with pwrGood := true } }
    else
      let c := s.coldState
      { c with boot := { c.boot with pwrGood := true, step := 1, nodeId := nodeId % 64, bootSel := bootSel % 4 } })

/-- PWR_GOOD_FALL: every clock but the always-on clock stops and every enable is released (R626); of a batch being written, `n` records are in
the store. The beat counter runs on. -/
def execPwrGoodFall (n : Nat) (s : State) : Result :=
  .next (if !s.boot.pwrGood then s
    else
      let c := (s.journalCut n).coldState
      { c with
        beat := s.beat, ps := s.ps, ticks := s.ticks
        tel := { c.tel with boots := s.tel.boots }
        power := { c.power with clocksOff := true, tripped := s.power.tripped, flowSince := s.power.flowSince }
        boot := { c.boot with pwrGood := false } })

/-- Power-on hours and thermal cycles as the newest lifetime totals hold them, laid out as in TEL_LIFE (R566, R571). -/
def State.storedLife (s : State) : Nat :=
  let b := s.storeRead (0x2000000 + (s.tel.tseq - 1) % 64 * 16384 + 20) 8
  if s.tel.tseq = 0 then 0 else fieldAt b 0 4 * 2 ^ 32 + fieldAt b 4 4

/-- POWER_LOSS: VDD_AON is lost: of a batch being written, `n` records are in the store; queued events, and what the totals have gained since
they were last written, are lost (R546, R567). THERMTRIP_N is released (R500), and the test access port is reset. -/
def execPowerLoss (n : Nat) (s : State) : Result :=
  .next (
    let t := s.journalCut n
    let c := { t with tel := { t.tel with
        acc := t.tel.accHour, cleared := t.tel.hourCtr, hourBeats := 0, supp := [], wasCool := false, pPeak := 0, tjPeak := [], hbmPeak := 0, flags := 0
        vMin := [], sMin := [] } }.coldState
    let c1 := { c with
      tel := { c.tel with boots := s.tel.boots, cleared := s.tel.hourCtr }
      power := { c.power with clocksOff := true }
      boot := { c.boot with pwrGood := false, tap := 0, ir := 1, shift := 0, shiftLen := 0, cells := 0 } }
    c1.setReg A.TEL_LIFE s.storedLife)

/-! ### Slot choice (R581, R582, R588) -/

/-- What the update's state becomes at any reset: a download or a check is lost, and so is the staged copy (R582, R583, R588). -/
def State.stageFix (s : State) : List (Nat × Nat) :=
  if 1 ≤ s.stage ∧ s.stage ≤ 3 then [(2 + s.inactiveSlot, 0), (6, 0)]
  else if s.stage = 4 then [(2 + s.inactiveSlot, 0), (6, 2)]
  else []

/-- Slot in state ACTIVE. -/
def State.activeSlot (s : State) : Nat := if s.slotState 0 = 3 then 0 else 1

/-- A slot's image fails a check at boot, its own header giving its length (R584). -/
def State.bootFails (s : State) (k : Nat) : Bool := (s.imageFails k (s.imageField k 36 4)).isSome

/-- R581, 1 to 3: the slot that boots, and the entries of 0x8010 that change. -/
def State.firstChoice (s : State) : Nat × List (Nat × Nat) :=
  if s.stage = 5 then
    let k := s.trialSlot
    if 2 ≤ s.fwEntry 7 then (1 - k, [(1, 1 - k), (2 + k, 5), (2 + (1 - k), 3), (6, 0), (7, 0), (9, 8)])
    else (k, [(7, s.fwEntry 7 + 1)])
  else (s.activeSlot, s.stageFix)

/-- R581, 4 and 5: the slot in state PREVIOUS takes the place of one that cannot run; none leaves the ROM in recovery. -/
def State.bootChoice (s : State) : Option Nat × List (Nat × Nat) :=
  let (k, es) := s.firstChoice
  let isActive := decide (s.stage ≠ 5 ∨ 2 ≤ s.fwEntry 7)
  if s.bootFails k ∨ (isActive ∧ 3 ≤ s.boot.failed) then
    match [0, 1].find? (fun c => c != k && s.slotState c == 4 && decide (s.fwEntry 8 ≤ s.imageField c 8 2) && !s.bootFails c) with
    | some c => (some c, es ++ [(1, c), (2 + c, 3), (2 + k, 5)])
    | none => (none, es)
  else (some k, es)

/-! ### Boot steps (R504, R580) -/

/-- An OD number in force from the boot on. -/
def State.shapeFromOd (s : State) : State :=
  let n (b d : Nat) : Nat := s.odNat 0x3010 b d
  let f : Fabric := { Fabric.init with
    dimX := n 4 1, dimY := n 5 1, dimZ := n 6 1, wrap := n 7 7 % 8, origin := n 8 0
    keys := (List.range (s.odNat 0x3020 0 1)).map (fun j => s.odNat 0x3020 (j + 1) 0) }
  let node := n 1 0 + f.dimX * (n 2 0 + f.dimY * n 3 0)
  let s1 := ({ s with fabric := f } : State).setFld A.FAB_STATUS 59 48 node
  (((s1.setFld A.FAB_STATUS 47 44 (n 1 0)).setFld A.FAB_STATUS 43 40 (n 2 0)).setFld A.FAB_STATUS 39 36 (n 3 0)).setFld (A.BEAT 0x10) 4 4
    (b2n (node == f.origin))

/-- The disabled-unit map and the bank map as the journal holds them; the factory map where it holds none (R22, R259). -/
def State.mapsFromOd (s : State) : State :=
  let m := smapGet (fun _ => ([] : List Byte)) s.od (odKey 0x6010 0)
  let b := smapGet (fun _ => ([] : List Byte)) s.od (odKey 0x4021 0)
  { s with
    faults := { s.faults with unitMap := (List.range 32).foldl (fun l k => smapPut (fun _ => 0) l k (if m.isEmpty then Config.factoryMap k else fieldAt m (4 * k) 4)) [] }
    tiers := { s.tiers with bankMap := (List.range 32).foldl (fun l j =>
      let v := fieldAt b (2 * j) 2
      smapPut (fun _ => 0) l j (if 0x8000 ≤ v then v % 256 + 1 else 0)) [] } }

/-- Step 2: the hub is powered, and the journal rebuilt; its values of the power and fabric ranges are in force (R350, R495, R501, R506, R544). -/
def State.bootStep2 (s : State) : State :=
  let s1 := (({ s with power := { s.power with enables := [(0, s.ticks)] } } : State).sendFrame 17 750 0).rebuild
  let s2 := (((s1.setFld A.PMC_STATUS 1 0 (s1.odNat 0x2010 1 0)).setCap (s1.odNat 0x2020 1 2400)).setFld A.PMC_STATUS 34 34 (s1.odNat 0x2030 1 1)).setFld
    A.PMC_STATUS 35 35 (s1.odNat 0x2030 2 1)
  s2.mapsFromOd.shapeFromOd

/-- A recovery boot: no image runs; the OD is served over MCTP and the mailbox (R579). -/
def State.recover (s : State) : State :=
  { s with boot := { s.boot with recovery := true, pcieUp := s.boot.perst }, barOpen := s.boot.perst }

/-- Step 3: the slot is chosen; a change of state or attempt count is persistent before the image starts. -/
def State.bootStep3 (s : State) : State :=
  if s.boot.bootSel = 1 then s.recover
  else
    let (k, es) := s.bootChoice
    let s1 := if es.isEmpty then s else s.fwSet es .none
    let s2 := if s.stage = 5 ∧ 2 ≤ s.fwEntry 7 then s1.fwEvent 3 s.trialSlot 0xFF else s1
    match k with
    | some k => { s2 with
        fw := { s2.fw with running := k }
        boot := { s2.boot with failed := if s.slotState k = 4 then 0 else s2.boot.failed } }
    | none => s2.recover

/-- Step 4: the image runs; the hub's current is booked and KEY drawn; PCIe answers configuration requests when PERST_N is high (R266, R483,
R625). -/
def State.bootStep4 (s : State) : State :=
  let s1 := s.askSys 17 10000 none true .hub
  let s2 :=
    if s.odNat 0x4010 1 0 = 1 then { s1 with tiers := { s1.tiers with keyFixed := some (s.odNat 0x4010 2 0) } }
    else { s1 with tiers := { s1.tiers with keyFixed := none, keyDraw := s1.free }, free := s1.free + 1 }
  { s2 with boot := { s2.boot with pcieUp := s2.boot.perst } }

/-- Compute die k is powered 2 ms after the die before it, at V(f), with the in-rush of R483; its directory slices are booked (R504, R622). -/
def State.powerDie (s : State) (k : Nat) : State :=
  let t := s.ticks + 2000 * k
  let s1 := ({ s with power := { s.power with enables := s.power.enables ++ [(1 + k, t)] } } : State).setFld (A.PMC_DIE k) 47 32 (vOf k (s.fstep k))
  let s2 := s1.sendFrame k (vOf k (s.fstep k)) 0
  let rush (u : State) (r ca : Nat) : State := u.ask {
    rail := r, amount := u.tickets r ca, nominal := ca * 256, windows := some 2000, permanent := false, sys := true, owner := .die (4 + k), earliest := t,
    since := s.ticks }
  let s3 := rush (rush s2 k 25000) (4 + k) 6000
  if s3.holds (.die k) then s3 else s3.askSys k 400 none false (.die k)

/-- The zeroing of a tier draws on rail r for the present window: the model zeroes in one step (DESIGN CHOICE, log 33). -/
def State.zeroDraw (s : State) (r ca : Nat) : State := (s.askSys r ca none false (.zeroing r)).release (.zeroing r)

/-- FLOW_OK is high, or does not matter (R499, R627). -/
def State.flowGood (s : State) : Bool :=
  s.fld A.PMC_STATUS 34 34 == 0 || (s.fld A.PMC_STATUS 33 33 == 1 && decide (s.power.flowSince = 0 ∨ s.power.flowSince + 1000000 ≤ s.now))

/-- Step 5: the dies are powered and the fast tier zeroed; its scrubber runs (R256, R258). -/
def State.bootStep5 (s : State) : State :=
  let s1 := (List.range 4).foldl State.powerDie { s with power := { s.power with enables := s.power.enables ++ [(5, s.ticks)] } }
  (List.range 4).foldl (fun t k => (t.zeroDraw (4 + k) 4000).askSys (4 + k) 100 none false (.scrub k)) s1

/-- Step 6: every core is in C3 (R580), every cluster cache at its snoop-only clock (R483). -/
def State.bootStep6 (s : State) : State :=
  let s1 := (List.range Config.cores).foldl (fun t c => t.setFld (A.PMCC c 8) 1 0 3) s
  (List.range Config.clusters).foldl (fun t k => t.askSys (k / 8) 30 none false (.cache k)) s1

/-- Step 7: refresh and traffic of the stacks are booked, memory trained, the capacity tier zeroed (R256, R483). -/
def State.bootStep7 (s : State) : State :=
  let s1 := { s with power := { s.power with enables := s.power.enables ++ [(6, s.ticks)] } }
  let s2 := (List.range 12).foldl (fun t k => (t.bookRefresh k 0).bookStack k 0) s1
  (List.range 4).foldl (fun t g => t.zeroDraw (8 + g) 3000) s2

/-- Step 8: the OD is served, the tenant layout applied, the BOOT event written (R526, R563, R628). -/
def State.bootStep8 (s : State) : State :=
  let s1 := if s.odNat 0x5010 0 0 = 1 then s.layoutApply else s
  let trips := s.lifeTally 2
  let s2 := s1.event 1 [(s.fwVersion, 4), ((crc64 s.contractRecord).toNat, 8), (s.hashId, 2), (b2n (decide (trips < s.boot.otp)), 1), (s.tel.boots, 4)]
  { s2 with
    tel := { s2.tel with acc := smapPut (fun _ => 0) s2.tel.acc 2 (max trips s.boot.otp) }
    barOpen := s.boot.perst }

/-- Step 10: the enabled links may train; the origin is ALIGNED (R373, R416); a trial period starts (R587). -/
def State.bootStep10 (s : State) : State :=
  let s1 := ({ s with
    power := { s.power with enables := s.power.enables ++ [(7, s.ticks)] }
    fw := { s.fw with trialSince := if s.stage = 5 then s.ticks + 1 else 0, healthy := true }
    boot := { s.boot with failed := 0 } } : State).linksByEnable
  if s1.isOrigin then (s1.setFld (A.BEAT 0x10) 23 16 0).setBeatState 2 else s1

/-- The effect of boot step n. -/
def State.bootStep (s : State) (n : Nat) : State :=
  match n with
  | 2 => s.bootStep2
  | 3 => s.bootStep3
  | 4 => s.bootStep4
  | 5 => s.bootStep5
  | 6 => s.bootStep6
  | 7 => s.bootStep7
  | 8 => s.bootStep8
  | 9 => s.setReg (A.BEAT 0x28) (crc64 s.contractRecord).toNat
  | 10 => s.bootStep10
  | _ => s

/-- BOOT_STEP_COMPLETE: the next boot step ends. Step 4 waits for the store; step 5 for coolant flow, from which the bound of 24 s then runs
(R627). -/
def execBootStepComplete (s : State) : Result :=
  .next (
    let n := s.boot.step + 1
    if !s.boot.pwrGood ∨ s.power.tripped ∨ s.boot.railFault ∨ s.boot.recovery ∨ s.boot.step = 0 ∨ 10 < n then s
    else if n = 4 ∧ s.fwBusy then s
    else if n = 5 ∧ !s.flowGood then { s with boot := { s.boot with since := s.ticks } }
    else
      let s1 := s.bootStep n
      { s1 with boot := { s1.boot with step := n } })

/-- BOOT_TIMEOUT: step 10 has not been reached within 24 s, or a rail has faulted: the boot has failed, and every domain but the always-on domain
takes a cold reset (R580, R625). -/
def execBootTimeout (s : State) : Result :=
  .next (
    let late := decide (s.boot.since + 24000000 ≤ s.ticks ∧ s.boot.step < 10) && !(s.boot.step == 4 && !s.flowGood)
    if !s.boot.pwrGood ∨ s.power.tripped ∨ s.boot.recovery ∨ s.boot.step = 0 ∨ !(late || s.boot.railFault) then s
    else
      let c := s.coldState
      let n := if 3 ≤ s.boot.step ∧ s.slotState s.fw.running = 3 then s.boot.failed + 1 else s.boot.failed
      let c1 := { c with
        beat := s.beat, ps := s.ps, ticks := s.ticks, od := s.od
        power := { c.power with flowSince := s.power.flowSince }
        boot := { c.boot with step := 1, since := s.ticks, failed := n } }
      { c1.fwEvent 2 s.fw.running 0xFF with od := [] })

/-- Enable group of a rail (R622). -/
def enableOf (r : Nat) : Nat := if r < 4 then 1 + r else if r < 8 then 5 else if r < 16 then 6 else if r = 16 then 7 else 0

/-- RAIL_FAULT: rail r is not within its limits 5 ms after its enable: every enable is released, ALERT_N asserts and the boot fails (R625). VDD_IO18
has no enable. -/
def execRailFault (r : Nat) (s : State) : Result :=
  onUnit (decide (r < Config.rails)) <|
    match s.power.enables.find? (fun e => r != 18 && e.1 == enableOf r) with
    | some e =>
      if s.ticks < e.2 + 5000 then s
      else { s with
        power := { s.power with enables := [], frames := [], clocksOff := true }
        faults := { s.faults with alert := true }
        boot := { s.boot with railFault := true } }
    | none => s

/-! ### The warm reset (R8, R166, R208, R297, R333, R365, R372, R406, R461, R468, R499, R506, R535, R625) -/

/-- Queues, tenants and commands: what is in flight leaves without records, its unfinished blocks void (DESIGN CHOICE, log 33). -/
def State.warmQueues (s : State) : State :=
  let s1 := (s.flights.filter (fun f => !f.ended)).foldl (fun t f => t.voidBlocks f.blocks) s
  let work (o : Owner) : Bool := match o with | .cmd _ _ => true | .pre _ _ => true | _ => false
  let owners := ((s1.esc.bookings.map Booking.owner ++ s1.esc.waiting.map EscReq.owner).filter work).eraseDups
  let s2 := owners.foldl State.release s1
  let s3 := { s2 with
    flights := [], sorter := State.reset.sorter, col := State.reset.col
    fabric := { s2.fabric with requests := [], inbox := [], forward := [] }
    queues := s2.queues.map (fun (e : Nat × Queue) => (e.1, { e.2 with
      state := 0, head := 0, tail := 0, cdone := 0, fetched := [], cancelMarks := [], stopping := 0, migration := none, deferred := none, uctPaused := false })) }
  (s3.domains.map Prod.fst).foldl State.domainIdle s3

/-- Cluster caches write back and are empty (R297). -/
def State.warmCaches (s : State) : State :=
  let dirty := (s.coh.lines.filter (fun e => decide (e.2.st = .M) || decide (e.2.st = .IW) && e.2.dirty)).map (fun e => e.1 / 32)
  let s1 := dirty.eraseDups.foldl State.writebackLine s
  { s1 with coh := State.reset.coh }

/-- Fault state: FATAL records close, tests and armed injections go, ALERT_N is released (R464, R467, R468). -/
def State.warmFaults (s : State) : State :=
  let ring := s.faults.ring.map (fun r => if r.cls = 3 then { r with closed := true } else r)
  let gone := (s.faults.armed.filter (fun y => y.kind == 4)).map Injection.addr
  ({ s with
    faults := { s.faults with
      ring := ring, test := none, waiting := [], armed := s.faults.armed.filter (fun y => y.kind == 1), alert := s.flowStop }
    tiers := { s.tiers with badWords := s.tiers.badWords.filter (fun a => !gone.contains a) }
    cores := s.cores.map (fun e => (e.1, { e.2 with testHold := false })) } : State).setFld A.ERR_STATUS 40 32 (openCount ring)

/-- Memory: actions are given up; a running generator stops, the contents of its range unspecified (R273). -/
def State.warmTiers (s : State) : State :=
  let s1 := ((List.range 768).filter (fun c => s.fld (A.TG c 0x18) 0 0 == 1)).foldl (fun t c => (t.tgDestroy c).release (.tg c)) s
  { s1 with tiers := { s1.tiers with partAction := none, granAction := none, hotRun := [], coolRun := [], openHot := [], tgStop := [] } }

/-- Links that are not QUARANTINED go to ABSENT (R365, R372). -/
def State.warmLinks (s : State) : State :=
  (List.range Config.links).foldl (fun t n =>
    let u := if t.linkSt n = 5 ∨ t.linkSt n = 0 then t else t.linkAbsent n
    u.modLink n (fun l => { l with cfg := LinkState.init.cfg })) s

/-- The od key of a RW entry (0x7010 + g, 0x7030:01 and :03, 0x8020:02). -/
def rwEntry (k : Nat) : Bool :=
  (k % 256 == 0 && decide (0x7010 ≤ k / 256) && decide (k / 256 < 0x7020)) || k == odKey 0x7030 1 || k == odKey 0x7030 3 || k == odKey 0x8020 2

/-- RW entries hold their default (R519). The mailbox's request ends without a result, like a write that loses power, and staged values are lost (R521, R535, R546). -/
def State.warmOd (s : State) : State :=
  let mine (b : OdBatch) : Bool := b.answers == some 3
  let cut := s.jrn.busy == 1 && (s.jrn.batches.take 1).any mine
  let s1 := if cut then s.release .store else s
  ({ s1 with
    od := smapDrop rwEntry s1.od
    jrn := { s1.jrn with
      requests := s1.jrn.requests.filter (fun r => r.tr != 3), batches := s1.jrn.batches.filter (fun b => !mine b), staged := [], mbBuf := []
      busy := if cut then 0 else s1.jrn.busy } } : State).storeKick

/-- Telemetry and interrupts: what waits for a boundary goes; the queue of events is empty, as its register says (R571, DESIGN CHOICE, log 33). -/
def State.warmTel (s : State) : State :=
  let s1 := s.tel.sweeps.foldl (fun t x => t.release (.sweep x.1)) s
  { s1 with
    tel := { s1.tel with sweeps := [], maxClr := false, evPend := [], flushWait := [], captures := [] }
    slogQ := [], evsel := [], ctrClears := [], lowLatch := [], msix := [], pcie := [], vfEnable := false, numVfs := 0, clrst := 0 }

/-- Every register takes its Warm reset value; a quarantined link and ESC_CFG in force follow. -/
def State.warmRegs (s : State) : State :=
  let quar := (List.range Config.links).filter (fun n => s.linkSt n == 5)
  let s1 := (s.regs.map Prod.fst).foldl State.warmReg s
  let s2 := quar.foldl (fun t n => t.setFld (A.LNK n 8) 2 0 5) s1
  ({ s2 with
    esc := { s2.esc with cfg := s2.reg A.ESC_CFG }
    power := { s2.power with droops := [] } } : State).fabCounts

/-- The cores are reset, or, with their dies off, lose what they hold and are as in C3 (R208, R297, R499). -/
def State.warmCores (s : State) (off : Bool) : State :=
  if off then (List.range Config.cores).foldl (fun t c => t.setFld (A.PMCC c 8) 3 0 3) { s with cores := [] }
  else (List.range Config.cores).foldl State.resetCore s

/-- With FLOW_OK high the dies that FLOW_STOP had stopped are powered again, and the stacks take traffic (R499). -/
def State.flowBack (s : State) : State :=
  if !s.flowStop ∨ s.fld A.PMC_STATUS 33 33 = 0 then s
  else
    let s1 := (List.range 4).foldl State.powerDie (s.setFld A.PMC_STATUS 32 32 0)
    (List.range 12).foldl (fun t k => t.bookStack k (t.fld (A.STK k) 1 0)) s1

/-- Firmware: an update's stage as after any reset; the slot of an activation with value 2, or of a rollback, runs (R581, R585, R587). -/
def State.warmFirmware (s : State) : State :=
  let (k, es) := s.firstChoice
  let s1 := { s with
    absent := []
    fw := { s.fw with erase := 0, buffer := [], copyFrom := none, quiesce := 0, blob := false, handed := false, back := false } }
  let s2 := s1.release .flash
  if s.boot.recovery ∨ k = s.fw.running then (if s.stageFix.isEmpty then s2 else s2.fwSet s.stageFix .none)
  else
    let s3 := { s2 with fw := { s2.fw with running := k, trialSince := if s.stage = 5 then s.ticks + 1 else 0, healthy := true } }
    (if es.isEmpty then s3 else s3.fwSet es .none).newContract 1

/-- The warm reset as one step (DESIGN CHOICE, log 33). -/
def State.warmReset (s : State) : State :=
  let s1 := s.warmQueues.warmCaches.warmTiers.warmLinks.warmTel.warmOd
  let s2 := s1.flowBack
  let off := s2.flowStop || s2.boot.recovery
  let s3 := ((s2.warmRegs.warmFaults).warmCores off).warmFirmware
  ({ s3 with power := { s3.power with clocksOff := off, fwTimedOut := [] } } : State).tally 0

/-- The device runs, so that a warm reset acts: the boot has passed step 8, or ended in recovery (R579, R627). -/
def State.runs (s : State) : Bool := s.boot.pwrGood && !s.power.tripped && !s.boot.railFault && (decide (8 ≤ s.boot.step) || s.boot.recovery)

/-- PERST_N falls: the warm reset; before boot step 8 the cold boot goes on (R627). PCIe is down until the rise. -/
def execPerstN (s : State) : Result :=
  .next (
    if !s.boot.perst then s
    else
      let s1 := if s.runs then s.warmReset else s
      { s1 with boot := { s1.boot with perst := false, pcieUp := false }, barOpen := false })

/-- PERST_N rises: PCIe trains, and configuration requests are answered, from boot step 4 on (R625). -/
def execPerstNRise (s : State) : Result :=
  .next (
    if s.boot.perst then s
    else
      { s with
        boot := { s.boot with perst := true, pcieUp := s.boot.pwrGood && !s.power.tripped && (decide (4 ≤ s.boot.step) || s.boot.recovery) }
        barOpen := s.runs })

/-- HOT_RESET: a Hot Reset or DL_Down acts as the warm reset (R612); the link trains again at once. -/
def execHotReset (s : State) : Result := .next (if s.boot.pcieUp && s.runs then s.warmReset else s)

/-! ### Test access port (R629) -/

/-- The next state of the TAP controller of IEEE 1149.1: 0 Test-Logic-Reset, 1 Run-Test/Idle, 2 Select-DR, 3 Capture-DR, 4 Shift-DR, 5 Exit1-DR,
6 Pause-DR, 7 Exit2-DR, 8 Update-DR, and 9 to 15 the same for the instruction register. -/
def tapNext (st : Nat) (tms : Bool) : Nat :=
  let to0 := [1, 1, 3, 4, 4, 6, 6, 4, 1, 10, 11, 11, 13, 13, 11, 1]
  let to1 := [0, 2, 9, 5, 5, 8, 7, 8, 2, 0, 12, 12, 15, 14, 15, 2]
  (if tms then to1 else to0).getD st 0

/-- Instruction of an 8-bit code: 0 BYPASS, 1 IDCODE, 2 SAMPLE/PRELOAD, 3 EXTEST, 4 EXTEST_PULSE, 5 CLAMP, 6 HIGHZ. IEEE 1149.1 gives BYPASS all
ones; the others' codes are free (DESIGN CHOICE, log 33). The EXTEST family is BYPASS outside a recovery boot. -/
def State.tapInstr (s : State) (code : Nat) : Nat :=
  let i := if code = 255 then 0 else Config.tapCode code % 7
  if 3 ≤ i ∧ !s.boot.recovery then 0 else i

/-- IDCODE: version 1, part 0x4096, manufacturer field 0x2A5, bit 0 set. -/
def tapId : Nat := 0x1409654B

/-- The cells of the boundary register as captured: free values of the pins. -/
def State.tapPins (s : State) : Nat :=
  (List.range Config.boundaryCells).foldl (fun n i => n + (Config.freeByte (s.free + i)).toNat % 2 * 2 ^ i) 0

/-- What the controller does on a rising edge in its present state. -/
def State.tapAct (s : State) (tdi : Bool) : State :=
  let b := s.boot
  let load (v n : Nat) : State := { s with boot := { b with shift := v, shiftLen := n } }
  let push : State := { s with boot := { b with shift := b.shift / 2 + b2n tdi * 2 ^ (b.shiftLen - 1) } }
  if b.tap = 3 then
    if b.ir = 1 then load tapId 32
    else if b.ir = 2 ∨ b.ir = 3 ∨ b.ir = 4 then { load s.tapPins Config.boundaryCells with free := s.free + Config.boundaryCells }
    else load 0 1
  else if b.tap = 4 ∨ b.tap = 11 then push
  else if b.tap = 10 then { load (1 + (Config.freeByte s.free).toNat % 64 * 4) 8 with free := s.free + 1 }
  else s

/-- TCK: a rising edge with TMS, TDI and TRST_N; the update states act as they are entered. TRST_N low resets the controller. -/
def execTck (tms tdi trstN : Bool) (s : State) : Result :=
  .next (
    if !trstN then { s with boot := { s.boot with tap := 0, ir := 1 } }
    else
      let s1 := s.tapAct tdi
      let t := tapNext s.boot.tap tms
      let b := s1.boot
      let b1 :=
        if t = 0 then { b with ir := 1 }
        else if t = 15 then { b with ir := s.tapInstr (b.shift % 256) }
        else if t = 8 ∧ 2 ≤ b.ir ∧ b.ir ≤ 4 then { b with cells := b.shift }
        else b
      { s1 with boot := { b1 with tap := t } })

end Sys2Proof.Machine
end

