-- ==== Sys2Proof/Machine/HostBus.lean ====
section
/-!
DEFINITION. BAR0 (R597 to R599): what each register reads as, the two halves of a counter (R550), and writes to fields that have no row of
their own (R7, R9).
-/

namespace Sys2Proof.Machine

/-! ### Registers whose value is a view of other state -/

/-- The 64 bytes of an error record (R463). -/
def ErrRecord.bytes (r : ErrRecord) : List Byte :=
  leBytes 8 r.seq ++ leBytes 8 r.beat ++ leBytes 1 (r.cls + 4 * b2n r.escalated + 8 * b2n r.closed + 16 * b2n r.injected) ++ leBytes 1 r.cause
    ++ leBytes 1 r.unitKind ++ leBytes 1 r.slot ++ leBytes 4 r.unit ++ leBytes 2 r.fn ++ leBytes 2 0 ++ leBytes 4 r.queue ++ leBytes 4 r.index
    ++ leBytes 4 0 ++ leBytes 8 r.addr ++ leBytes 8 r.prevSeq ++ leBytes 8 r.detail

/-- Bytes [o, o + 8) of slot `i` of the error ring (R473): zeros in a slot no record has reached. -/
def State.ringWord (s : State) (i o : Nat) : Nat :=
  match (s.faults.ring.filter (fun r => r.seq % 256 == i)).getLast? with
  | some r => fieldAt r.bytes o 8
  | none => 0

/-- A register of function f's queue block, at block offset `o` (R336). -/
def State.queueBlock (s : State) (f o : Nat) : Nat :=
  let q := s.selected f
  if o = 8 then setBits (s.reg (A.QMGF f 8)) 63 63 (b2n (s.queue q).busy)
  else if 0x10 ≤ o ∧ o < 0x50 then (if s.ownsQueue f q then (s.queue q).word ((o - 0x10) / 8) else 0)
  else if o = 0x60 then (if s.ownsSem f (s.fld (A.QMGF f 0x58) 19 0) then s.sem (s.fld (A.QMGF f 0x58) 19 0) else 0)
  else s.reg (A.QMGF f o)

/-- MEM_LSU_STATUS of a core (R247). -/
def State.lsuStatus (s : State) (c : Nat) : Nat :=
  let x := s.core c
  let mask (p : Nat → Bool) : Nat := (List.range 16).foldl (fun n t => n + b2n (p t) * 2 ^ t) 0
  mask (fun t => s.threadReady c t) * 2 ^ 32 + mask (fun t => !(x.thread t).running) * 2 ^ 16 + x.mvQueue.length % 128 * 2 ^ 9
    + x.missRegs.length % 64

/-- DIR_SL_STATUS of slice `h` (R300). -/
def State.sliceStatus (s : State) (h : Nat) : Nat :=
  let mine := s.coh.dir.filter (fun e => s.lineHome e.1 == h)
  let early := (mine.map (fun e => match e.2.txn with | some t => t.putEarly.length | none => 0)).foldl (· + ·) 0
  smapGet (fun _ => 0) s.coh.rrPtr h * 2 ^ 42 + early % 128 * 2 ^ 32 + s.reqInUse h % 512 * 2 ^ 16
    + (mine.filter (fun e => e.2.txn.isSome)).length % 512

/-- A register of core c's in-field test block, at block offset `o`: it belongs to the slot that serves the core (R472). -/
def State.testBlock (s : State) (c o : Nat) : Nat :=
  let d := s.slotData (c / 16 * 17 + s.slotOf c)
  if o = 0 then d.lastPass
  else if o = 8 then d.due
  else if o = 0x10 then (List.range 8).foldl (fun n q => n + min 255 (smapGet (fun _ => 0) d.plsCube q) * 256 ^ q) 0
  else if o = 0x18 then d.plsRange
  else if o = 0x20 then d.plsSum
  else if o = 0x28 then d.plsSamples
  else 0

/-- A register of cluster k's window, at window offset `o` (R84, R222, R247, R472): the views among them. -/
def State.windowReg (s : State) (k o : Nat) : Nat :=
  let c (base stride : Nat) : Nat := 16 * k + (o - base) / stride
  let r := s.reg (A.cluster k + o)
  if 0x4000 ≤ o ∧ o < 0x5000 ∧ o % 0x100 = 8 then setBits r 4 4 (b2n (s.core (c 0x4000 0x100)).tile.isSome)
  else if 0x6000 ≤ o ∧ o < 0x7000 ∧ o % 0x100 = 0x10 then setBits r 16 16 (b2n (bitOf r 17 && bitsOf r 15 0 == s.posBase (c 0x6000 0x100)))
  else if 0x7000 ≤ o ∧ o < 0x8000 ∧ o % 0x100 = 8 then s.lsuStatus (c 0x7000 0x100)
  else if 0xA000 ≤ o ∧ o < 0xA800 then s.testBlock (c 0xA000 0x80) (o % 0x80)
  else r

/-- A register of function f's own block: identity, MSI-X table and pending bits, moderation (R599, R607, R609). -/
def State.ownReg (s : State) (f o : Nat) : Nat :=
  if o = 0 then setBits (s.reg (A.FN_ID f)) 63 32 s.fwVersion
  else if o = 8 then s.reg (A.BAR2_WIN f) / 2 ^ s.bar2Log f * 2 ^ s.bar2Log f
  else if 0x10000 ≤ o ∧ o < 0x18000 then
    let m := s.msixVec f ((o - 0x10000) / 16)
    if o % 16 = 0 then m.addr else m.data + b2n m.masked * 2 ^ 32
  else if 0x18000 ≤ o ∧ o < 0x19000 then
    (List.range 64).foldl (fun n j => n + b2n (s.msixVec f ((o - 0x18000) * 8 + j)).pend * 2 ^ j) 0
  else s.reg (fnPrivate f o)

/-- The 8-byte value of the register with key `k` (R9: 0 where nothing is assigned). -/
def State.readKey (s : State) (k : Nat) : Nat :=
  if fnPrivate 0 0 ≤ k then s.ownReg ((k - fnPrivate 0 0) / 0x100000) ((k - fnPrivate 0 0) % 0x100000)
  else if 0x310000 ≤ k ∧ k < 0x330000 then s.queueBlock ((k - 0x310000) / 0x100) (k % 0x100)
  else if 0x400000 ≤ k ∧ k < 0x800000 then s.windowReg ((k - 0x400000) / 0x20000) (k % 0x20000)
  else if 0x8000 ≤ k ∧ k < 0xC000 then s.ringWord ((k - 0x8000) / 0x40) (k % 0x40)
  else if k = A.BEAT 0 then s.beat
  else if 0x990000 ≤ k ∧ k < 0x998000 ∧ k % 0x40 = 0 then s.beat
  else if 0x990000 ≤ k ∧ k < 0x998000 ∧ k % 0x40 = 0x10 then s.beatState
  else if k = A.MEM_HASH_ID then b2n s.tiers.keyFixed.isSome * 2 ^ 16 + s.hashId
  else if 0xA90000 ≤ k ∧ k < 0xA94000 ∧ k % 0x100 = 0 then s.sliceStatus ((k - 0xA90000) / 0x100)
  else if 0xB01000 ≤ k ∧ k < 0xB02300 ∧ k % 0x100 = 0 then s.railStatus ((k - 0xB01000) / 0x100)
  else if 0xB01000 ≤ k ∧ k < 0xB02300 ∧ k % 0x100 = 8 then s.railWait ((k - 0xB01000) / 0x100)
  else if 0xE10000 ≤ k ∧ k < 0xE20000 then leNat ((List.range 8).map (fun i => smapGet (fun _ => (0 : Byte)) s.jrn.mbBuf (k - 0xE10000 + i)))
  else s.reg k

/-- The register with key `k` is a counter with the layout of R86. -/
def isCounter (k : Nat) : Bool := match regFind regTable k with | some (d, _, _) => d.ctr.isSome | none => false

/-- Doorbell of a queue at offset `o`. -/
def doorbellOf (o : Nat) : Option Nat := if 0x100000 ≤ o ∧ o < 0x300000 then some ((o - 0x100000) / 8) else none

/-- Key of the upper half latched for function f (R550). -/
def latchKey (f k : Nat) : Nat := f * 2 ^ 33 + k

/-- What function f reads with `n` bytes at offset `off` of its BAR0 (R9, R304, R550, R597, R598): zeros from an access that is refused. -/
def State.readBar0 (s : State) (f off n : Nat) : Nat :=
  if (n ≠ 4 ∧ n ≠ 8) ∨ off % n ≠ 0 ∨ !s.reaches f then 0
  else
    let o := off / 8 * 8
    let v := match doorbellOf o with
      | some q => if f = 0 ∨ s.ownsQueue f q then (s.queue q).head * 2 ^ 32 + (s.queue q).tail else 0
      | none => match barKey f o with
        | some k => s.readKey k
        | none => 0
    if n = 8 then v
    else if off % 8 = 0 then v % 2 ^ 32
    else match barKey f o with
      | some k => match smapGet (fun _ => 0) s.lowLatch (latchKey f k) with
        | 0 => v / 2 ^ 32
        | h + 1 => h
      | none => v / 2 ^ 32

/-- COUNTER_LOW_READ: function f reads 4 bytes of a counter at `off`: at its low half the upper half is latched for f, at its upper half the
latch is used up (R550). -/
def execCounterLowRead (f off : Nat) (s : State) : Result :=
  onUnit (decide (f < 512)) <|
    match barKey f (off / 8 * 8) with
    | some k =>
      if s.reaches f ∧ off % 4 = 0 ∧ isCounter k then
        ({ s with lowLatch := smapPut (fun _ => 0) s.lowLatch (latchKey f k) (if off % 8 = 0 then s.readKey k / 2 ^ 32 + 1 else 0) } : State).send
          (.hostData f off (leBytes 4 (s.readBar0 f off 4)) false)
      else s
    | none => s

/-! ### Writes -/

/-- Bits of a register that have a row of their own: REGISTER_WRITE leaves them (R7). -/
def rowBits (k : Nat) : Nat :=
  if k = A.MEM_GCTL then 1
  else if 0x330000 ≤ k ∧ k < 0x340000 then 2 ^ 64 - 1
  else if 0x310000 ≤ k ∧ k < 0x330000 ∧ (k % 0x100 = 0x70 ∨ k % 0x100 = 0x60) then 2 ^ 64 - 1
  else if 0x800000 ≤ k ∧ k < 0x890000 ∧ k % 0x4000 = 0 then 2 ^ 64 - 1
  else if 0x400000 ≤ k ∧ k < 0x800000 ∧ 0xB000 ≤ k % 0x20000 ∧ k % 0x20000 < 0xB100 ∧ k % 0x10 = 0 then 2 ^ 64 - 1
  else 0

/-- The plain effect of a write: each field under its access code (R7, R9). -/
def State.plainReg (s : State) (k val mask : Nat) : State :=
  match regFind regTable k with
  | some (d, _, _) => s.setReg k (regWriteOf d (s.reg k) val (mask ^^^ (mask &&& rowBits k)))
  | none => s

/-- `old` with the bits of `mask` taken from `val`. -/
def merge (old val mask : Nat) : Nat := old ^^^ ((old ^^^ val) &&& mask)

/-- A write to a context word of the selected queue (R336): every writable field while it is DISABLED, BGROUP and IRQ_EN while it is
ENABLED. -/
def State.writeContext (s : State) (f w val mask : Nat) : State :=
  let q := s.selected f
  let x := s.queue q
  let v := merge (x.word w) val mask
  if !s.ownsQueue f q then s
  else if x.state = 1 ∧ w = 4 then s.setQueue q { x with irqEn := bitOf v 28, bgroup := bitsOf v 27 24 }
  else if x.state ≠ 0 then s
  else match w with
    | 0 => s.setQueue q { x with ring := v }
    | 1 => s.setQueue q { x with cpl := v }
    | 4 => s.setQueue q { x with
        msix := bitsOf v 63 48, rngBind := bitOf v 29, irqEn := bitOf v 28, bgroup := bitsOf v 27 24, log2size := bitsOf v 23 16 }
    | 5 => s.setQueue q { x with rngArea := v }
    | _ => s

/-- A write to a function's queue block (R336): a QSEL outside its range is ignored and sets ERR code 1; a new RD may end DLQ_FULL. -/
def State.writeQueueBlock (s : State) (f o val mask : Nat) : State :=
  if o = 0 then (if s.ownsQueue f (bitsOf (merge (s.reg (A.QMGF f 0)) val mask) 17 0) then s.plainReg (A.QMGF f 0) val mask else s.qcmdErr f 1)
  else if 0x10 ≤ o ∧ o < 0x50 then s.writeContext f ((o - 0x10) / 8) val mask
  else if o = 0x78 then (s.plainReg (A.QMGF f 0x78) val mask).dlqFullBit f
  else s.plainReg (A.QMGF f o) val mask

/-- A write to function f's MSI-X table or to its own registers (R599, R607, R609): unmasking is MSIX_UNMASK's, the pending bits are
read-only. -/
def State.writeOwn (s : State) (f o val mask : Nat) : State :=
  if 0x10000 ≤ o ∧ o < 0x18000 then
    let v := (o - 0x10000) / 16
    let m := s.msixVec f v
    if o % 16 = 0 then s.setMsix f v { m with addr := merge m.addr val mask }
    else s.setMsix f v { m with data := merge m.data val mask % 2 ^ 32, masked := m.masked || bitOf (val &&& mask) 32 }
  else if 0x18000 ≤ o ∧ o < 0x19000 then s
  else s.plainReg (fnPrivate f o) val mask

/-- A write to cluster k's window (R246, R472): PF_BUF follows R233, and the WRAP bits of the plausibility counters lie with the slot. -/
def State.writeWindow (s : State) (k o val mask : Nat) : State :=
  if 0x7000 ≤ o ∧ o < 0x8000 ∧ o % 0x100 = 0 then (s.plainReg (A.cluster k + o) val mask).applyPfBuf (16 * k + (o - 0x7000) / 0x100)
  else if 0xA000 ≤ o ∧ o < 0xA800 then
    let c := 16 * k + (o - 0xA000) / 0x80
    let wrap (n : Nat) : Nat := if bitOf (val &&& mask) 63 then n % counterMod else n
    if o % 0x80 = 0x18 then s.modSlot k (s.slotOf c) (fun d => { d with plsRange := wrap d.plsRange })
    else if o % 0x80 = 0x20 then s.modSlot k (s.slotOf c) (fun d => { d with plsSum := wrap d.plsSum })
    else if o % 0x80 = 0x28 then s.modSlot k (s.slotOf c) (fun d => { d with plsSamples := wrap d.plsSamples })
    else s
  else s.plainReg (A.cluster k + o) val mask

/-- A write to the register with key `k`: NWT_STEP only while its domain is IDLE (R172); a generator's registers and the mailbox not while
they are BUSY (R279, R534); a learned amount above its nominal reads as the nominal (R513); the others by their access codes. -/
def State.writeKey (s : State) (k val mask : Nat) : State :=
  if fnPrivate 0 0 ≤ k then s.writeOwn ((k - fnPrivate 0 0) / 0x100000) ((k - fnPrivate 0 0) % 0x100000) val mask
  else if 0x310000 ≤ k ∧ k < 0x330000 then s.writeQueueBlock ((k - 0x310000) / 0x100) (k % 0x100) val mask
  else if 0x400000 ≤ k ∧ k < 0x800000 then s.writeWindow ((k - 0x400000) / 0x20000) (k % 0x20000) val mask
  else if 0x380000 ≤ k ∧ k < 0x390000 ∧ k % 0x80 = 0x18 then (if s.stepState ((k - 0x380000) / 0x80) = 0 then s.plainReg k val mask else s)
  else if 0xA40000 ≤ k ∧ k < 0xA70000 ∧ k % 0x100 ≤ 0x10 then
    (if s.fld (A.TG ((k - 0xA40000) / 0x100) 0x18) 0 0 = 1 then s else s.plainReg k val mask)
  else if k = A.MB_CTL then (if s.fld A.MB_STATUS 0 0 = 1 then s else s.plainReg k val mask)
  else if 0xE10000 ≤ k ∧ k < 0xE20000 then
    if s.fld A.MB_STATUS 0 0 = 1 then s
    else { s with jrn := { s.jrn with mbBuf := putBytesMem s.jrn.mbBuf (k - 0xE10000) (leBytes 8 (merge (s.readKey k) val mask)) } }
  else if 0xBA0000 ≤ k ∧ k < 0xBA4000 then
    let c := k / 8 % 8
    let t := s.plainReg k val mask
    if 5 ≤ c then s else t.setFld k 15 0 (min (classNominal c) (t.fld k 15 0))
  else s.plainReg k val mask

/-- REGISTER_WRITE: function f writes `val` with `n` bytes at offset `off` of its BAR0. An access that R598 refuses is ignored and counted;
doorbells have their own row. -/
def execRegisterWrite (f off n val : Nat) (s : State) : Result :=
  onUnit (decide (f < 512)) <|
    if !s.reaches f then s
    else if (n ≠ 4 ∧ n ≠ 8) ∨ off % n ≠ 0 then (if (doorbellOf off).isSome then s else s.count (A.BAR2_ERR f))
    else if (doorbellOf off).isSome then s
    else match barKey f (off / 8 * 8) with
      | some k => if n = 8 then s.writeKey k (val % 2 ^ 64) (2 ^ 64 - 1)
                  else s.writeKey k (val % 2 ^ 32 * 2 ^ (off % 8 * 8)) ((2 ^ 32 - 1) * 2 ^ (off % 8 * 8))
      | none => s

end Sys2Proof.Machine
end

