-- ==== Sys2Proof/Machine/Boundary.lean ====
section
/-!
DEFINITION. A beat boundary (R412, R414) and what happens at it: snapshots, clears, selections (R549 to R553), the readings of the monitors
(R554 to R558), the window of the escapement (R475), and the counters that count beats.
-/

namespace Sys2Proof.Machine

/-! ### Snapshots (R553) -/

/-- Registers a snapshot group lists, as they read now. -/
def State.snapValues (s : State) (g : Nat) : List Nat := ((s.snapList g).take 64).map s.readKey

/-- A counter-snapshot record: 64 bytes of header, the counters in list order, padded to 64 bytes. -/
def State.snapRecord (s : State) (g f : Nat) : List Byte :=
  let l := s.snapValues g
  let rec_ := leBytes 8 s.beat ++ leBytes 1 g ++ leBytes 1 l.length ++ leBytes 2 f ++ leBytes 52 0 ++ l.flatMap (leBytes 8)
  rec_ ++ List.replicate ((64 - rec_.length % 64) % 64) 0

/-- A pending capture into TEL_SNAP_BUF is made. -/
def State.snapBuffer (s : State) : State :=
  if s.fld A.SNAP_CTL 63 63 = 0 then s
  else
    let l := s.snapValues (s.fld A.SNAP_CTL 11 8)
    (((l.zip (List.range 64)).foldl (fun t x => t.setReg (A.SNAP_BUF x.2) x.1) s).setFld A.SNAP_CTL 63 63 0).setFld A.SNAP_CTL 62 62 1

/-- Captures for the REPORT commands of KIND 1 granted in the beat that ends; those of commands that have gone are dropped. -/
def State.snapReports (s : State) : State :=
  let due := s.flights.filter (fun fl => byteAt fl.bytes 0 == 5 && byteAt fl.bytes 40 == 1 && !fl.ended)
  { s with tel := { s.tel with captures := due.map (fun fl =>
      match s.tel.captures.find? (fun x => x.1 == fl.queue && x.2.1 == fl.index) with
      | some x => x
      | none => (fl.queue, fl.index, s.snapRecord (byteAt fl.bytes 41) fl.fn)) } }

/-! ### Clears and selections (R549, R552, R571) -/

/-- Every pending CTR_CLEAR. -/
def State.runClears (s : State) : State := ({ s with ctrClears := [] } : State) |> fun t => s.ctrClears.foldl (fun u x => u.doClear x.1 x.2) t

/-- Every pending selection of a programmable counter. -/
def State.runSelections (s : State) : State :=
  s.tel.evPend.foldl (fun t e =>
    let v := t.reg (A.EVSEL (e / 16) (e % 16))
    let t1 := { t with evsel := smapPut (fun _ => 0) t.evsel e v }
    if bitOf v 63 then t1.zeroCtr (A.EVCNT (e / 16) (e % 16)) else t1) { s with tel := { s.tel with evPend := [] } }

/-- A pending MAXCLR. -/
def State.runMaxClr (s : State) : State :=
  if !s.tel.maxClr then s
  else
    let s1 := (List.range 256).foldl (fun t i => t.setFld (A.TEL_TS i) 31 16 0x8000) { s with tel := { s.tel with maxClr := false } }
    (List.range 1024).foldl (fun t m => t.setFld (A.TEL_TM m) 31 16 0x7FFF) s1

/-! ### Monitors (R554 to R558) -/

/-- One thermal reading (R555). -/
def State.readTemp (s : State) (i : Nat) (t : Int) : State :=
  let s1 := s.setFld (A.TEL_TS i) 15 0 (unsext 16 t)
  let s2 := if sext 16 (s.fld (A.TEL_TS i) 31 16) < t then s1.setFld (A.TEL_TS i) 31 16 (unsext 16 t) else s1
  let d := i / 60
  { s2 with tel := { s2.tel with
      tjPeak := smapPut (fun _ => 0) s2.tel.tjPeak d (max (smapGet (fun _ => 0) s2.tel.tjPeak d) (t / 8).toNat) } }

/-- A thermal cycle: above 85 degrees after below 45 (R558). -/
def State.thermalCycle (s : State) (hot : Int) : State :=
  if hot < 360 then { s with tel := { s.tel with wasCool := true } }
  else if s.tel.wasCool ∧ 680 < hot then
    ({ s with tel := { s.tel with wasCool := false } } : State).setFld A.TEL_LIFE 31 0 (s.fld A.TEL_LIFE 31 0 + 1)
  else s

/-- The 256 thermal readings. -/
def State.readTemps (s : State) (l : List Int) : State :=
  if l.length ≠ 256 ∨ s.ticks % 10 ≠ 0 then s
  else (((List.range 256).zip l).foldl (fun t x => t.readTemp x.1 x.2) s).thermalCycle (l.foldl max (-32768))

/-- Monitor m takes its sample: the hub's, and a cluster's while its PLL runs (R555). -/
def State.monitorOn (s : State) (m : Nat) : Bool := decide (960 ≤ m) || s.clocked (m / 30)

/-- One slack reading: below 0 it raises an event (R555, R563). -/
def State.readSlack (s : State) (m : Nat) (v : Int) : State :=
  let s1 := s.setFld (A.TEL_TM m) 15 0 (unsext 16 v)
  let s2 := if v < sext 16 (s.fld (A.TEL_TM m) 31 16) then s1.setFld (A.TEL_TM m) 31 16 (unsext 16 v) else s1
  let s3 := if m < 960 then
      { s2 with tel := { s2.tel with
          sMin := smapPut (fun _ => 32767) s2.tel.sMin (m / 240) (min (smapGet (fun _ => 32767) s2.tel.sMin (m / 240)) v) } }
    else s2
  if v < 0 then s3.event 0x11 [(m % 256, 1), (1, 1), (m, 2), (unsext 16 v, 2)] else s3

/-- The slack readings. -/
def State.readSlacks (s : State) (l : List Int) : State :=
  if l.length ≠ 1024 then s
  else ((List.range 1024).zip l).foldl (fun t x => if s.monitorOn x.1 then t.readSlack x.1 x.2 else t) s

/-- Ceiling of a rail for the bins of R556: its window ceiling, for VDD_AON 2.0 A. -/
def binCeil (r : Nat) : Nat := if r = 19 then 20 else winCeil r

/-- The window of rail r that ends: its bin, its peak, its voltage, and its share of the millisecond (R554, R556). Entry 32 of the sums is the
module's power. -/
def State.readRail (s : State) (r i v : Nat) : State :=
  let c := binCeil r
  let s1 := if c < i then s.count (A.TEL_RAIL r 0x50) else s.count (A.TEL_RAIL r (0x10 + 8 * min 7 (i * 8 / c)))
  let s2 := (s1.setFld (A.TEL_RAIL r 0) 31 16 (max (s.fld (A.TEL_RAIL r 0) 31 16) i)).setFld (A.TEL_RAIL r 0) 63 48 v
  let sum := smapPut (fun _ => 0) s2.tel.railSum r (smapGet (fun _ => 0) s2.tel.railSum r + i)
  { s2 with tel := { s2.tel with
      railSum := if r < 19 then smapPut (fun _ => 0) sum 32 (smapGet (fun _ => 0) sum 32 + i * v) else sum } }

/-- A millisecond ends: average currents, the module power (R495), its peak and its energy. -/
def State.railMillisecond (s : State) : State :=
  let get := smapGet (fun _ => 0) s.tel.railSum
  let p := min 4095 (get 32 / 10000000)
  let s1 := (List.range 20).foldl (fun t r => t.setFld (A.TEL_RAIL r 0) 15 0 (get r / 1000)) s
  let s2 := (s1.setFld A.PMC_STATUS 51 40 p).tally 7 p
  { s2 with tel := { s2.tel with railSum := [], pPeak := max s2.tel.pPeak p } }

/-- The rail readings. -/
def State.readRails (s : State) (amps volts : List Nat) : State :=
  let s1 := if amps.length ≠ 20 ∨ volts.length ≠ 20 then s
    else ((List.range 20).zip (amps.zip volts)).foldl (fun t x => t.readRail x.1 x.2.1 x.2.2) s
  if s.ticks % 1000 = 0 then s1.railMillisecond else s1

/-- The eyes of the active lanes (R378). -/
def State.readEyes (s : State) (l : List (Nat × Nat × Nat)) : State :=
  if s.ticks % 10000 ≠ 0 then s
  else l.foldl (fun t x =>
    let k := A.LANE (x.1 / 8) (x.1 % 8) 0
    if 288 ≤ x.1 ∨ t.fld k 1 1 = 0 then t else (t.setFld k 63 48 x.2.1).setFld k 47 32 x.2.2) s

/-- Refresh commands issued (R281). -/
def State.readRefreshes (s : State) (l : List (Nat × Nat × Nat)) : State :=
  l.foldl (fun t x => if 768 ≤ x.1 then t else (t.count (A.TG x.1 0xE0) x.2.1).count (A.TG x.1 0xE8) x.2.2) s

/-- Governors that withheld a cycle in the window (R482, R510). -/
def State.readGovernors (s : State) (l : List Nat) : State :=
  (l.eraseDups.filter (fun r => decide (r < Config.rails))).foldl (fun t r => t.count (A.RAIL r 0x38)) s

/-! ### Counters of beats, digest flags, beacon -/

/-- MEM_PC_THROT of the stacks in HALF or STOP (R281). -/
def State.throttleBeat (s : State) : State :=
  ((List.range 12).filter (fun k => decide (2 ≤ s.fld (A.STK k) 1 0))).foldl (fun t k =>
    (List.range 64).foldl (fun u j => u.count (A.TG (64 * k + j) 0xF8)) t) s

/-- IFT_PLANNED_BEATS while a test holds a core (R457, R471). -/
def State.testBeat (s : State) : State := if s.faults.test.isSome then s.count (A.IFT 0x28) else s

/-- FLAGS of the hour's digest (R565). -/
def State.flagBeat (s : State) : State :=
  let f := b2n (s.fld A.PMC_STATUS 1 0 == 1) + 2 * b2n s.flowStop + 4 * b2n ((List.range 4).any (fun k => s.tstate k != 0)) + 8 * b2n s.fatal
    + 16 * b2n (s.beatState != 2)
  { s with tel := { s.tel with flags := s.tel.flags ||| f } }

/-- The hub refreshes the beacon's values every 100 ms, from the time its firmware is loaded (R569). -/
def State.beaconBeat (s : State) : State :=
  if s.ticks % 100000 ≠ 0 ∨ s.boot.step < 4 then s else { s with tel := { s.tel with beacon := s.beaconValues, beaconAt := s.ticks + 1 } }

/-! ### The boundary -/

/-- PS returns to 0 and BEAT increases (R412); the power-on hour goes on, and when it ends POH counts it and the next hour's events count
anew (R558, R564). -/
def State.tickOver (s : State) : State :=
  let t := { s with
    beat := (s.beat + 1) % 2 ^ 64
    ps := 0
    ticks := s.ticks + 1
    tel := { s.tel with hourBeats := s.tel.hourBeats + 1 } }
  if t.tel.hourBeats % hourLength = 0 then
    ({ t with tel := { t.tel with supp := [] } } : State).setFld A.TEL_LIFE 63 32 (t.fld A.TEL_LIFE 63 32 + 1)
  else t

/-- What the powered device does at the boundary: captures, then clears, then what is counted (R551). -/
def State.boundary (s : State) (r : BeatReading) : State :=
  let s1 := (((s.snapBuffer.snapReports).runClears).runSelections).runMaxClr
  let s2 := (((((s1.readTemps r.temps).readSlacks r.slacks).readRails r.amps r.volts).readEyes r.eyes).readRefreshes r.refreshes).readGovernors r.withheld
  let s3 := ((s2.hotBeat r.hot).throttleBeat).escWindow
  let s4 := (((List.range Config.links).foldl State.linkBeat s3).timeBeat).coreBeat
  ((s4.powerBeat.testBeat).flagBeat.beaconBeat).forceNext

/-- BEAT_BOUNDARY. After a trip and without power the always-on domain counts alone (R500, R569). -/
def execBeatBoundary (r : BeatReading) (s : State) : Result :=
  .next (if !s.boot.pwrGood || s.power.tripped then s.tickOver else s.tickOver.boundary r)

end Sys2Proof.Machine
end

