-- ==== Sys2Proof/Machine/Convert.lean ====
section
/-!
DEFINITION. CONVERT, STATS, ROTATE and CODEBOOK_UPD (R104 to R140): fields and checks, the five stages, policies and histories, the records,
cancellation points, flags and the counters of R140.
-/

namespace Sys2Proof.Machine

/-! ### Fields (R131, R132) -/

/-- A CONVERT, STATS or ROTATE. -/
structure ConvCmd where
  op : Nat
  rows : Nat
  k : Nat
  sd : Nat
  fmt : Nat
  carried : Bool
  sr : Bool
  outl : Bool
  n : Nat
  opx : Bool
  gmode : Nat
  moment : Bool
  transIn : Bool
  transOut : Bool
  ocap : Nat
  gs : Nat
  src : Tensor
  dst : Nat
  ldd : Nat
  scl : Nat
  ol : Nat
  hist : Nat
  stat : Nat
  seed : Nat
  cb : Nat
  book : List Byte
  gout : Nat
  othr : Nat
  clipthr : Nat
  kstat : Nat
  deriving DecidableEq, Repr

/-- The outlier multiple: the descriptor's, or CVT_CFG's; a value that is not finite and positive is read as 6.0 (R132, R138). -/
def othrOf (d cfg : Nat) : Nat :=
  let v := if d % 2 ^ 31 = 0 then cfg else d
  if isFin32 v && flt 0 v then v else 0x40C00000

/-- The command of function f on a core, with descriptor d. -/
def State.convCmd (s : State) (f core : Nat) (b d : List Byte) : ConvCmd :=
  let x := byteAt b 51
  let y := byteAt b 52
  let fi := byteAt b 50 % 16
  let fo := byteAt b 50 / 16
  let ssd := fieldAt d 80 2
  let thr := fieldAt d 100 4
  let cfg := A.CVT core 0
  { op := byteAt b 0, rows := fieldAt b 40 4, k := fieldAt b 44 4, sd := fieldAt b 48 2, fmt := fo, carried := bitsOf x 7 6 == 1
    sr := bitOf x 5, outl := bitOf x 4, n := rblkSize (bitsOf x 3 1), opx := bitOf x 0, gmode := bitsOf y 7 6, moment := bitOf y 5
    transIn := bitOf y 4, transOut := bitOf y 3, ocap := zeroAs 4 (bitsOf y 2 0), gs := fieldAt b 56 4
    src := { fmt := fi, addr := fieldAt d 0 8, ld := fieldAt d 24 4, trans := bitOf y 4, sd := ssd, saddr := fieldAt d 72 8
             g := if sdG ssd then fieldAt d 84 4 else 0x3F800000, bookAddr := fieldAt d 112 8, book := s.bookOf f fi (fieldAt d 112 8), ol := none
             rows := fieldAt b 40 4, k := fieldAt b 44 4 }
    dst := fieldAt d 8 8, ldd := fieldAt d 28 4, scl := fieldAt d 16 8, ol := fieldAt d 32 8, hist := fieldAt d 40 8, stat := fieldAt d 48 8
    seed := fieldAt d 56 8, cb := fieldAt d 64 8, book := s.bookOf f fo (fieldAt d 64 8), gout := fieldAt d 88 8
    othr := othrOf (fieldAt d 96 4) (s.fld cfg 63 32), clipthr := if bitOf thr 31 then thr % 65536 else s.fld cfg 31 16
    kstat := fieldAt d 104 8 }

/-- KGRAD of STATS, INV of ROTATE, and drawing (R131, R205). -/
def ConvCmd.kgrad (c : ConvCmd) : Bool := c.op == 0x31 && c.opx
def ConvCmd.inv (c : ConvCmd) : Bool := c.op == 0x32 && c.opx
def ConvCmd.draws (c : ConvCmd) : Bool := c.op == 0x30 && c.sr
/-- K extent with padding, and present elements (R109, R111). -/
def ConvCmd.kp (c : ConvCmd) : Nat := padK c.n c.k
def ConvCmd.elems (c : ConvCmd) : Nat := c.rows * c.kp
/-- SFMT of the output, and its scale array as R44 lays it out. -/
def ConvCmd.sfmt (c : ConvCmd) : Nat := sdFmt c.sd
def ConvCmd.scaleIdx (c : ConvCmd) (r k : Nat) : Nat := ({ c.src with trans := false, sd := c.sd, k := c.kp } : Tensor).scaleIdx r k
def ConvCmd.nscale (c : ConvCmd) : Nat := ({ c.src with sd := c.sd, k := c.kp } : Tensor).nscale
/-- Codes are written. -/
def ConvCmd.writesCodes (c : ConvCmd) : Bool := c.op != 0x31
/-- The extents of a stored output row and the number of rows. -/
def ConvCmd.outRow (c : ConvCmd) : Nat := if c.transOut then c.rows else c.kp
def ConvCmd.outRows (c : ConvCmd) : Nat := if c.transOut then c.kp else c.rows
/-- Outlier blocks of a row. -/
def ConvCmd.outBlocks (c : ConvCmd) : Nat := ceilDiv c.kp 128

/-- Bytes read and bytes written by the command, for the overlap check of R134. -/
def ConvCmd.srcRanges (c : ConvCmd) : List (Nat × Nat) :=
  c.src.codeRanges 0 c.rows 0 c.k ++ (if sdFmt c.src.sd = 0 then [] else [(c.src.saddr, c.src.nscale)])
def ConvCmd.outRanges (c : ConvCmd) : List (Nat × Nat) :=
  (if c.kgrad then [(c.kstat, 128)]
   else (if c.writesCodes then rowRanges c.dst c.ldd (elemBits c.fmt) c.outRows c.outRow else [])
     ++ (if c.op = 0x30 ∨ (c.op = 0x31 ∧ c.scl ≠ 0) then [(c.scl, c.nscale)] else [])
     ++ (if c.op = 0x30 ∧ c.outl then [(c.ol, 8 * c.rows * c.outBlocks)] else [])
     ++ (if c.op = 0x30 ∧ c.carried then [(c.hist, 64 + c.nscale)] else [])
     ++ (if c.op ≠ 0x32 ∧ c.gmode = 2 then [(c.gout, 4)] else []))
  ++ (if c.op ≠ 0x32 ∧ c.stat ≠ 0 then [(c.stat, 64)] else [])

/-- A format the conversion engine reads, and one it writes (R27, R134). -/
def convSource (f : Nat) : Bool := decide (f ≤ 6) || f == 8 || f == 9
def convTarget (f : Nat) : Bool := decide (f ≤ 6) || f == 8

/-- The checks of R134, with what R120, R131 and R133 require, by offset. -/
def ConvCmd.bad (c : ConvCmd) (b d : List Byte) : Option Nat :=
  let x := byteAt b 51
  let y := byteAt b 52
  let rot := c.op == 0x32
  let plain (f : Nat) : Bool := f == 8 || f == 9
  let thr := fieldAt d 100 4
  firstBad ([(40, extentOk c.rows), (44, extentOk c.k),
    (48, sdescOk c.sd && !((rot || c.fmt == 8) && c.sd != 0)),
    (50, if rot then plain c.src.fmt && plain c.fmt
         else convTarget c.fmt && (if c.kgrad then plain c.src.fmt else convSource c.src.fmt)),
    (51, decide (bitsOf x 7 6 ≤ 1) && !(c.carried && c.op != 0x30) && decide (bitsOf x 3 1 ≤ 4) && !(rot && (c.sr || c.outl))
      && !(c.outl && decide (8 ≤ elemBits c.fmt)) && !(c.op == 0x30 && c.opx)),
    (52, c.gmode != 3 && !(c.gmode == 2 && c.sfmt == 1) && !((rot || c.fmt == 8) && c.gmode != 0) && decide (bitsOf y 2 0 ≤ 4))]
    ++ zeroBytes b d [53, 54, 55] ++ [(56, c.gmode != 1 || (isFin32 c.gs && flt 0 c.gs))] ++ zeroBytes b d [60, 61, 62, 63]
    ++ [(64, c.src.addr % 16 == 0 && !spansMeet c.srcRanges c.outRanges),
      (72, !(c.writesCodes || c.kgrad) || c.dst % 16 == 0),
      (88, c.src.ld % 16 == 0 && decide (c.src.rowBytes ≤ c.src.ld)),
      (92, !(c.writesCodes || c.kgrad) || (c.ldd % 16 == 0 && decide (elemBytes c.fmt c.outRow ≤ c.ldd))),
      (144, sdescOk c.src.sd)] ++ zeroBytes b d [146, 147]
    ++ [(164, thr / 65536 % 2 ^ 15 == 0)] ++ zeroBytes b d (offs 184 191))

/-! ### The stages -/

/-- A scale history as read (R126). -/
structure ScaleHist where
  valid : Bool
  force : Bool
  same : Bool
  g : Nat
  codes : List Nat
  deriving DecidableEq, Repr

/-- The history of a CARRIED command. -/
def ConvCmd.readHist (c : ConvCmd) (bs : List Byte) : ScaleHist :=
  { valid := bitOf (byteAt bs 0) 0, force := bitOf (byteAt bs 0) 1
    same := fieldAt bs 2 2 == c.sd && fieldAt bs 4 4 == c.nscale && byteAt bs 12 % 16 == c.fmt
    g := fieldAt bs 8 4, codes := (bs.drop 64).map BitVec.toNat }

/-- An element quantised: its code in the tensor, whether it clipped, and its side-list code when it is an outlier. -/
structure QElem where
  code : Nat
  clip : Bool
  side : Option Nat
  deriving DecidableEq, Repr

/-- What a command computes. -/
structure ConvRun where
  c : ConvCmd
  /-- Source values, rotated values, the selection by row and block. -/
  x : List (List Nat)
  rot : List (List Nat)
  sel : List (List OutBlock)
  amaxT : Nat
  amaxB : Nat
  /-- It quantises with carried scales (R125); FLAGS of R123; the g used; block scales used. -/
  useHist : Bool
  flags : Nat
  g : Nat
  codes : List Nat
  q : List (List QElem)
  /-- Next scales and next g (R125), and blocks whose clipped share exceeded the threshold. -/
  next : List Nat
  nextG : Nat
  excess : Nat

/-- Elements of scale block b, in operand terms (R44). -/
def ConvCmd.members (c : ConvCmd) (b : Nat) : List (Nat × Nat) :=
  let blk := sdBlk c.sd
  let rect (r0 r1 k0 k1 : Nat) := (between (r0, min c.rows r1)).flatMap (fun r => (between (k0, min c.kp k1)).map (fun k => (r, k)))
  if sdDir c.sd = 0 then
    (let w := ceilDiv c.kp blk; rect (b / w) (b / w + 1) (b % w * blk) (b % w * blk + blk))
  else if sdDir c.sd = 1 then rect (b * blk) (b * blk + blk) 0 c.kp
  else (let w := ceilDiv c.kp 32; rect (b / w * 32) (b / w * 32 + 32) (b % w * 32) (b % w * 32 + 32))

def cellAt {α : Type} (l : List (List α)) (d : α) (r k : Nat) : α := (l.getD r []).getD k d

/-- Is position k a candidate, or selected, in a row's selection. -/
def isCand (sel : List OutBlock) (k : Nat) : Bool := ((sel.getD (k / 128) ⟨[], [], false⟩).cands).contains k
def isPick (sel : List OutBlock) (k : Nat) : Bool := ((sel.getD (k / 128) ⟨[], [], false⟩).picks).contains k

/-- The block scale value of an element as a value, from the scale codes (R121). -/
def ConvCmd.scaleVal (c : ConvCmd) (codes : List Nat) (r k : Nat) : XVal :=
  if c.sfmt = 0 then xOne else blockScale c.sfmt (codes.getD (c.scaleIdx r k) 0)

/-- The run of a command: `rd` reads numbers, `hist` are the history's bytes, `words` the generator words (R213). -/
def ConvCmd.run (c : ConvCmd) (rd : Nat → Nat → Nat) (hist : List Byte) (words : List (List Nat)) : ConvRun :=
  let v := c.src.view rd
  let x := (List.range c.rows).map (fun r => (List.range c.k).map (fun k =>
    rne32 ((((v.val r k).mul (v.ks r k)).mul (v.ns r)).mul v.g)))
  let rot := x.map (rotRow c.n c.seed c.inv)
  let sel := rot.map (fun row => if c.outl then selectRow c.othr c.ocap row else [])
  let amaxT := amaxOf rot.flatten
  let blocks := List.range c.nscale
  let vals (b : Nat) : List Nat := ((c.members b).filter (fun e => !isCand (sel.getD e.1 []) e.2)).map (fun e => cellAt rot 0 e.1 e.2)
  let all : List Nat := (rot.zipIdx).flatMap (fun p => (p.1.zipIdx).filterMap (fun e => if isCand (sel.getD p.2 []) e.2 then none else some e.1))
  let h := c.readHist hist
  let useHist := c.carried && h.valid && !h.force && h.same
  let gFit := if c.kgrad then c.gs else if c.gmode = 0 then 0x3F800000 else if c.gmode = 1 then c.gs else fitG c.sfmt c.fmt c.book amaxT
  let g := if useHist && c.gmode == 2 then h.g else gFit
  let fit := blocks.map (fun b => fitBlock c.sfmt c.fmt c.book g (vals b))
  let codes := if useHist then blocks.map (fun b => h.codes.getD b 0) else fit
  let q := (rot.zipIdx).map (fun p => (p.1.zipIdx).map (fun e =>
    let dv := rne32 ((c.scaleVal codes p.2 e.2).mul (dec32 g))
    let mode := if c.draws then RMode.sr (r16At words (p.2 * c.kp + e.2)) else RMode.rne
    if isPick (sel.getD p.2 []) e.2 then
      let y := quantElem 4 [] mode e.1 dv
      ({ code := 0, clip := y.2, side := some y.1 } : QElem)
    else
      let y := quantElem c.fmt c.book mode e.1 dv
      { code := y.1, clip := y.2, side := none }))
  let q := if c.kgrad || c.op == 0x32 then [] else q
  let clipped (es : List (Nat × Nat)) : Nat := (es.filter (fun e => (cellAt q ⟨0, false, none⟩ e.1 e.2).clip)).length
  let isOver (b : Nat) : Bool := decide (c.clipthr * (c.members b).length < clipped (c.members b) * 65536)
  let allClipped := (q.flatten.filter QElem.clip).length
  { c := c, x := x, rot := rot, sel := sel, amaxT := amaxT
    amaxB := if c.sfmt = 0 then amaxOf all else (blocks.map (fun b => amaxOf (vals b))).foldl max 0
    useHist := useHist
    flags := b2n (!useHist) + 2 * b2n (c.carried && (!h.valid || !h.same)) + 4 * b2n (c.carried && h.force)
    g := g, codes := codes, q := q
    next := blocks.map (fun b => nextScale c.sfmt (fit.getD b 0) (codes.getD b 0) (isOver b))
    nextG := if c.gmode = 2 then
        (let low := if c.clipthr * c.elems < allClipped * 65536 then g else fmul g 0x3F000000
         if flt gFit low then low else gFit)
      else g
    excess := (blocks.filter isOver).length }

/-! ### Records -/

/-- Row r, position k of the element with stored index e, and back (R135). -/
def ConvCmd.stored (c : ConvCmd) (r k : Nat) : Nat := if c.transIn then k * c.rows + r else r * c.kp + k

/-- Elements with stored index below `hi` that satisfy p. -/
def ConvRun.countBelow (t : ConvRun) (hi : Nat) (p : QElem → Bool) : Nat :=
  ((t.q.zipIdx).map (fun row => ((row.1.zipIdx).filter (fun e => p e.1 && decide (t.c.stored row.2 e.2 < hi))).length)).foldl (· + ·) 0

/-- Outlier blocks with overflow whose last element has stored index below `hi`. -/
def ConvRun.overBelow (t : ConvRun) (hi : Nat) : Nat :=
  ((t.sel.zipIdx).map (fun row => ((row.1.zipIdx).filter (fun b =>
    b.1.excess && decide (t.c.stored row.2 (min (t.c.kp - 1) (128 * b.2 + 127)) < hi))).length)).foldl (· + ·) 0

/-- SUMSQ (R123). -/
def ConvRun.sumsq (t : ConvRun) : Nat :=
  if t.c.moment then groupSum t.rot (fun v _ _ => if isFin32 v then some (fmul v v) else none) else 0

/-- The statistics record (R123). -/
def ConvRun.statBytes (t : ConvRun) : List Byte :=
  let n := t.c.elems
  leBytes 8 n ++ leBytes 8 (t.countBelow n QElem.clip) ++ leBytes 4 (t.countBelow n (fun e => e.side.isSome)) ++ leBytes 4 (t.overBelow n)
    ++ leBytes 4 t.amaxT ++ leBytes 4 t.amaxB ++ leBytes 4 t.sumsq ++ leBytes 4 t.g ++ leBytes 4 (if t.useHist then t.excess else 0)
    ++ leBytes 1 t.flags ++ leBytes 19 0

/-- The next history (R125 to R127). -/
def ConvRun.histBytes (t : ConvRun) : List Byte :=
  leBytes 1 1 ++ leBytes 1 0 ++ leBytes 2 t.c.sd ++ leBytes 4 t.c.nscale ++ leBytes 4 t.nextG ++ leBytes 4 t.c.fmt ++ leBytes 48 0
    ++ t.next.map (BitVec.ofNat 8)

/-- The KGRAD record (R129): sums and counts per code of the code tensor at DST, side-list positions left out. -/
def ConvRun.kgradBytes (t : ConvRun) (rd : Nat → Nat → Nat) : List Byte :=
  let c := t.c
  let w : Tensor := { c.src with
    fmt := 2, addr := c.dst, ld := c.ldd, trans := c.transOut, sd := c.sd, saddr := c.scl, ol := if c.outl then some c.ol else none }
  let listed (r k : Nat) : Bool := match w.ol with
    | some a => !(sideValues (rd (a + 8 * (r * ceilDiv c.k 128 + k / 128)) 8) (k % 128)).isEmpty
    | none => false
  let scale (r k : Nat) : XVal := if sdFmt c.sd = 0 then xOne else blockScale (sdFmt c.sd) (rd (c.scl + ({ w with trans := false }).scaleIdx r k) 1)
  let term (v r k : Nat) : Nat := rne32 (((dec32 v).mul (scale r k)).mul (dec32 c.gs))
  let of (i r k : Nat) : Bool := w.code rd r k == i && !listed r k
  (List.range 16).flatMap (fun i => leBytes 4 (groupSum t.x (fun v r k => if of i r k then some (term v r k) else none)))
    ++ (List.range 16).flatMap (fun i => leBytes 4
      (((List.range c.rows).map (fun r => ((List.range c.k).filter (of i r)).length)).foldl (· + ·) 0))

/-! ### Reads and writes in order (R135) -/

/-- Source rows of the stored elements [lo, hi): stored row, first and last column. -/
def storedRuns (len lo hi : Nat) : List (Nat × Nat × Nat) :=
  if hi ≤ lo ∨ len = 0 then []
  else (List.range ((hi - 1) / len + 1 - lo / len)).map (fun d =>
    let x := lo / len + d
    (x, max lo (x * len) - x * len, min hi ((x + 1) * len) - x * len))

/-- What the elements [lo, hi) read: codes block by block, with the scales of their elements. -/
def ConvCmd.itemReads (c : ConvCmd) (lo hi : Nat) : List (Nat × Nat) :=
  let t := c.src
  let bits := elemBits t.fmt
  let len := if t.trans then c.rows else c.kp
  let real := if t.trans then c.rows else c.k
  (storedRuns len lo hi).flatMap (fun (x, y0, y1) =>
    if real ≤ y0 ∨ (t.trans ∧ c.k ≤ x) then []
    else
      let base := t.addr + x * t.ld
      (chunks (base + y0 * bits / 8) ((min real y1 * bits + 7) / 8 - y0 * bits / 8)).flatMap (fun p =>
        let e0 := (p.1 - base) * 8 / bits
        let e1 := min (min real y1) (((p.1 - base + p.2) * 8) / bits)
        let sc := if sdFmt t.sd = 0 then [] else
          ((between (e0, e1)).map (fun y => t.saddr + (if t.trans then t.scaleIdx y x else t.scaleIdx x y))).eraseDups
        usePoint (p :: (sc.take 1).map (fun a => (a, 1))) ++ (sc.drop 1).map (fun a => (a, 1))))

/-- What is read before the first element: codebooks and history (R137). -/
def ConvCmd.startReads (c : ConvCmd) : List (Nat × Nat) :=
  usePoint ((if c.src.fmt = 2 then [(c.src.bookAddr, 16)] else [])
    ++ (if (c.fmt = 2 ∧ c.op ≠ 0x32) ∨ c.kgrad then [(c.cb, 16)] else [])
    ++ (if c.carried then [(c.hist, 64 + c.nscale)] else []))
  ++ (if c.kgrad then
      rowRanges c.dst c.ldd 4 (if c.transOut then c.k else c.rows) (if c.transOut then c.rows else c.k)
        ++ (if c.sfmt = 0 then [] else [(c.scl, c.nscale)]) ++ (if c.outl then [(c.ol, 8 * c.rows * ceilDiv c.k 128)] else [])
     else [])

/-- Output code of an element: quantised, or rotated only (R121, R133). -/
def ConvRun.outCode (t : ConvRun) (r k : Nat) : Nat :=
  if t.c.op = 0x32 then
    (if t.c.fmt = 9 then cellAt t.rot 0 r k else (quantElem 8 [] .rne (cellAt t.rot 0 r k) 0x3F800000).1)
  else (cellAt t.q ⟨0, false, none⟩ r k).code

/-- The bytes of columns [y0, y1) of stored output row x, when the elements of stored index below `hi` have been quantised: other elements of
the same bytes keep what stands there, unused bits are 0 (R28). -/
def ConvRun.codeBytes (t : ConvRun) (rd : Nat → Nat → Nat) (hi x y0 y1 : Nat) : Nat × List Byte :=
  let c := t.c
  let bits := elemBits c.fmt
  let at_ (y : Nat) : Nat × Nat := if c.transOut then (y, x) else (x, y)
  if 8 ≤ bits then (c.dst + x * c.ldd + y0 * bits / 8, packCodes c.fmt ((between (y0, y1)).map (fun y => t.outCode (at_ y).1 (at_ y).2)))
  else
    let per := 8 / bits
    let b0 := y0 / per
    let z1 := ceilDiv y1 per * per
    let vals := (between (b0 * per, z1)).map (fun y =>
      if c.outRow ≤ y then 0
      else if c.stored (at_ y).1 (at_ y).2 < hi then t.outCode (at_ y).1 (at_ y).2
      else rd (c.dst + x * c.ldd + y / per) 1 / 2 ^ (y % per * bits) % 2 ^ bits)
    (c.dst + x * c.ldd + b0, packCodes c.fmt vals)

/-- Writes at consecutive addresses joined. -/
def joinWrites (ws : List (Nat × List Byte)) : List (Nat × List Byte) :=
  ws.foldr (fun w l => match l with
    | (a, bs) :: rest => if w.1 + w.2.length = a then (w.1, w.2 ++ bs) :: rest else w :: l
    | [] => [w]) []

/-- What the quantising pass writes for the elements [lo, hi): codes, then the scales and side-list records whose last element is among
them (R135), and the computed g with the first (R120). -/
def ConvRun.itemWrites (t : ConvRun) (rd : Nat → Nat → Nat) (lo hi : Nat) : List (Nat × List Byte) :=
  let c := t.c
  let len := if c.transIn then c.rows else c.kp
  let codes := if !c.writesCodes then [] else
    (storedRuns len lo hi).flatMap (fun (x, y0, y1) =>
      if c.transIn = c.transOut then [t.codeBytes rd hi x y0 y1]
      else (between (y0, y1)).map (fun y => t.codeBytes rd hi y x (x + 1)))
  let last (es : List (Nat × Nat)) : Nat := es.foldl (fun m e => max m (c.stored e.1 e.2)) 0
  let within (n : Nat) : Bool := decide (lo ≤ n) && decide (n < hi)
  let scales := if c.op = 0x30 ∨ (c.op = 0x31 ∧ c.scl ≠ 0) then
      (List.range c.nscale).filterMap (fun b => if within (last (c.members b)) then some (c.scl + b, leBytes 1 (t.codes.getD b 0)) else none)
    else []
  let sides := if c.op = 0x30 ∧ c.outl then
      (List.range (c.rows * c.outBlocks)).filterMap (fun i =>
        let r := i / c.outBlocks
        let k0 := 128 * (i % c.outBlocks)
        if within (c.stored r (min (c.kp - 1) (k0 + 127))) then
          some (c.ol + 8 * i, leBytes 8 (sideRecord ((List.range (min 128 (c.kp - k0))).filterMap (fun j =>
            ((cellAt t.q ⟨0, false, none⟩ r (k0 + j)).side).map (fun y => (j, y))))))
        else none)
    else []
  codes ++ joinWrites scales ++ joinWrites sides ++ (if lo = 0 ∧ c.gmode = 2 then [(c.gout, leBytes 4 t.g)] else [])

/-- A piece of a pass: whether it belongs to the pass that quantises, and its elements. -/
structure ConvItem where
  last : Bool
  lo : Nat
  hi : Nat
  deriving DecidableEq, Repr

/-- The pieces between cancellation points, which follow every 16,384 elements of each pass (R135); two passes but for CARRIED, ROTATE and
KGRAD (R124, R125, R133). -/
def ConvRun.pieces (t : ConvRun) : List (List ConvItem) :=
  let n := t.c.elems
  let cs (last : Bool) : List ConvItem := (List.range (ceilDiv n 16384)).map (fun j => ⟨last, 16384 * j, min n (16384 * (j + 1))⟩)
  if t.useHist ∨ t.c.op = 0x32 ∨ t.c.kgrad then (cs true).map (fun x => [x])
  else if n % 16384 = 0 then (cs false ++ cs true).map (fun x => [x])
  else ((cs false).take (n / 16384)).map (fun x => [x]) ++ [(cs false).drop (n / 16384) ++ (cs true).take 1] ++ ((cs true).drop 1).map (fun x => [x])

/-- What stands at the end of the command: the KGRAD record, the history, the statistics record (R123, R125, R129). -/
def ConvRun.endWrites (t : ConvRun) (rd : Nat → Nat → Nat) : List (Nat × List Byte) :=
  (if t.c.kgrad then [(t.c.kstat, t.kgradBytes rd)] else []) ++ (if t.c.carried then [(t.c.hist, t.histBytes)] else [])
    ++ (if t.c.op ≠ 0x32 ∧ t.c.stat ≠ 0 then [(t.c.stat, t.statBytes)] else [])

/-- The segments of the job; the records come after the last element, once nothing can stop the command. -/
def ConvRun.segs (t : ConvRun) (rd : Nat → Nat → Nat) : List Seg :=
  let body := t.pieces.map (fun its => ({
    reads := its.flatMap (fun (x : ConvItem) => t.c.itemReads x.lo x.hi)
    writes := its.flatMap (fun (x : ConvItem) => if x.last && !t.c.kgrad then t.itemWrites rd x.lo x.hi else []) } : Seg))
  (match body with
   | x :: xs => { x with reads := t.c.startReads ++ x.reads } :: xs
   | [] => []) ++ [{ reads := [], writes := t.endWrites rd }]

/-! ### End of a command -/

/-- Elements quantised or counted, and elements read, when `done` segments were performed. -/
def ConvRun.doneLast (t : ConvRun) (done : Nat) : Nat :=
  (((t.pieces.take done).flatten.filter ConvItem.last).map ConvItem.hi).foldl max 0
def ConvRun.doneRead (t : ConvRun) (done : Nat) : Nat := (((t.pieces.take done).flatten).map ConvItem.hi).foldl max 0

/-- The flags of R136: over the input read and the outputs written, by position in operand terms. -/
def ConvRun.endFlags (t : ConvRun) (rd : Nat → Nat → Nat) (done : Nat) : Flags :=
  let c := t.c
  let n := t.doneLast done
  let m := t.doneRead done
  let f := flagsOver c.rows c.kp (fun r k =>
    let i := cellAt t.x 0 r k
    let seen := c.op != 0x32 && decide (k < c.k) && decide (c.stored r k < m)
    let out := c.writesCodes && decide (c.stored r k < n)
    let o := t.outCode r k
    some ((seen && isNan32 i) || (out && codeNan c.fmt o), (seen && isInf32 i) || (out && codeInf c.fmt o)))
  { f with
    outlierOvf := decide (0 < t.overBelow n)
    reservedCode := c.src.fmt == 3 && (List.range c.rows).any (fun r => (List.range c.k).any (fun k =>
      decide (c.stored r k < m) && c.src.code rd r k == 2)) }

/-- The counters of R140 after `done` segments; `ok`: the command ends with OK. -/
def State.convCounters (s : State) (core : Nat) (t : ConvRun) (done : Nat) (ok : Bool) : State :=
  let n := if t.c.op = 0x32 then 0 else t.doneLast done
  ((((s.countN (A.CVT core 0x10) n).countN (A.CVT core 0x18) (t.countBelow n QElem.clip)).countN (A.CVT core 0x20)
    (t.countBelow n (fun e => e.side.isSome))).countN (A.CVT core 0x28) (if t.c.kgrad then 0 else t.overBelow n)).countN (A.CVT core 0x30)
    (if ok && t.useHist then t.excess else 0)

/-- The work of a CONVERT, STATS or ROTATE. `stop`: cancellation points passed when a recorded cancel stops it. -/
def State.runConv (s : State) (q i : Nat) (stop : Option Nat) (fl : Flight) (d : List Byte) : State :=
  let c := s.convCmd fl.fn fl.core fl.bytes d
  let rd (a n : Nat) : Nat := s.engNum fl.fn a n
  let words := if c.draws then (((s.core fl.core).laneList).map (rngSteps (ceilDiv c.elems 128))).map Prod.fst else []
  let t := c.run rd (if c.carried then s.engRead fl.fn c.hist (64 + c.nscale) else []) words
  let s0 := if c.carried && !t.useHist && (s.refused fl.fn c.hist (64 + c.nscale) false).isNone then s.count (A.CVT fl.core 0x38) else s
  let at_ := match (fl.stopAt stop).map (max 1) with
    | some n => if n < t.pieces.length then some n else none
    | none => none
  let r := s0.runJob fl.fn q i true at_ (t.segs rd)
  let n := t.doneLast r.done
  let last := if n = 0 then 0 else if c.transIn then
      (let x := (n - 1) / c.rows; let y := (n - 1) % c.rows; max (y * c.kp + x) (if 0 < x then (c.rows - 1) * c.kp + x - 1 else 0))
    else n - 1
  let s1 := r.st.convCounters fl.core t r.done (r.status == 0)
  let s2 := if c.draws && decide (0 < n) then (s1.drawWords fl.core (last / 128 + 1)).2 else s1
  ({ r with st := s2 } : JobResult).finish q i (t.endFlags rd r.done)

/-- A command of R131 with opcode `op`. -/
def State.convCommand (s : State) (q i op : Nat) (stop : Option Nat) : Result :=
  s.withDesc q i op (fun fl d => (s.convCmd fl.fn fl.core fl.bytes d).bad fl.bytes d)
    (fun t fl d => if (t.convCmd fl.fn fl.core fl.bytes d).draws then t.drawing q i fl (fun u => u.runConv q i stop fl d) else t.runConv q i stop fl d)

def execConvert (q i : Nat) (stop : Option Nat) (s : State) : Result := s.convCommand q i 0x30 stop
def execStats (q i : Nat) (stop : Option Nat) (s : State) : Result := s.convCommand q i 0x31 stop
def execRotate (q i : Nat) (stop : Option Nat) (s : State) : Result := s.convCommand q i 0x32 stop

/-! ### CODEBOOK_UPD (R130) -/

/-- rne(a / n) for a count n. -/
def fdivNat (a n : Nat) : Nat :=
  match dec32 a with
  | .fin m e => let (x, y) := ratio m e; b2n (decide (m < 0)) * 2 ^ 31 + min inf32 (roundCode fmtFP32 .rne x (y * n))
  | v => rne32 v

/-- A new entry value on the 1/16 grid, clamped; none for NaN, whose entry the spec does not state. -/
def bookRound (mode : RMode) (c : Nat) : Option Nat :=
  match dec32 c with
  | .nan => none
  | .inf neg => some (if neg then 0x80 else 0x7F)
  | .zero _ => some 0
  | .fin m e =>
    let (n, d) := ratio m (e + 4)
    let k := roundNat mode n d
    some (if m < 0 then (256 - min 128 k) % 256 else min 127 k)

/-- Entry i updated, with the free value for NaN. -/
def bookEntry (b stat book : List Byte) (words : List (List Nat)) (free i : Nat) : Byte :=
  let old := book.getD i 0
  let cnt := fieldAt stat (64 + 4 * i) 4
  if bitOf (fieldAt b 60 2) i ∨ cnt = 0 then old
  else
    let g := if bitOf (byteAt b 62) 1 then fdivNat (fieldAt stat (4 * i) 4) cnt else rne32 (dec32 (fieldAt stat (4 * i) 4))
    let c := fsub (rne32 (.fin (sext 8 old.toNat) (-4))) (fmul (fieldAt b 56 4) g)
    match bookRound (if bitOf (byteAt b 62) 0 then .sr (r16At words i) else .rne) c with
    | some v => BitVec.ofNat 8 v
    | none => Config.freeByte (free + i)

/-- CODEBOOK_UPD. -/
def State.runBook (s : State) (q i : Nat) (fl : Flight) : State :=
  let b := fl.bytes
  let cbIn := fieldAt b 32 8
  let kst := fieldAt b 48 8
  let draws := bitOf (byteAt b 62) 0
  let (words, s1) := if draws then s.drawWords fl.core 1 else ([], s)
  let book := s.engRead fl.fn cbIn 16
  let stat := s.engRead fl.fn kst 128
  let out := (List.range 16).map (bookEntry b stat book words s.free)
  let s2 := { s1 with free := s1.free + 16 }
  (s2.runJob fl.fn q i true none
    [{ reads := usePoint [(cbIn, 16), (kst, 128)], writes := [] }, { reads := [], writes := [(fieldAt b 40 8, out)] }]).finish q i {}

def execCodebookUpd (q i : Nat) (s : State) : Result :=
  s.dispatch q i 0x33
    (fun fl => firstBad [(62, decide (byteAt fl.bytes 62 < 4)), (63, byteAt fl.bytes 63 == 0)])
    (fun t fl => if bitOf (byteAt fl.bytes 62) 0 then t.drawing q i fl (fun u => u.runBook q i fl) else t.runBook q i fl)

end Sys2Proof.Machine
end

