-- ==== Sys2Proof/Machine/Train.lean ====
section
/-!
DEFINITION. OPT_STEP (R179 to R185), COMPRESS and DECOMPRESS (R186 to R189).
-/

namespace Sys2Proof.Machine

/-! ### Order of use -/

/-- Blocks of several arrays in order of the element that first uses them, ties by address (R449): `arrays` gives the address and the bits
per element of each; elements [lo, hi). -/
def elementReads (arrays : List (Nat × Nat)) (lo hi : Nat) : List (Nat × Nat) :=
  let all := arrays.flatMap (fun a =>
    let x := a.1 + lo * a.2 / 8
    (chunks x ((hi * a.2 + 7) / 8 - lo * a.2 / 8)).map (fun c => (max lo ((c.1 - a.1) * 8 / a.2), c)))
  let before (x y : Nat × Nat × Nat) : Bool := decide (x.1 < y.1) || (x.1 == y.1 && decide (x.2.1 < y.2.1))
  (all.foldr (fun c l => l.takeWhile (fun x => before x c) ++ c :: l.dropWhile (fun x => before x c)) []).map Prod.snd

/-! ### OPT_STEP -/

/-- An OPT_STEP (R179, R180). -/
structure OptCmd where
  n : Nat
  bf16G : Bool
  sr : Bool
  alg : Nat
  lr : Nat
  wd : Nat
  gscale : Nat
  wIn : Nat
  wOut : Nat
  mIn : Nat
  mOut : Nat
  uIn : Nat
  uOut : Nat
  msIn : Nat
  msOut : Nat
  usIn : Nat
  usOut : Nat
  g : Nat
  b1 : Nat
  ob1 : Nat
  b2 : Nat
  ob2 : Nat
  eps : Nat
  c1 : Nat
  c2 : Nat
  deriving DecidableEq, Repr

def optCmd (b d : List Byte) : OptCmd :=
  let a (o : Nat) : Nat := fieldAt d o 8
  let f (o : Nat) : Nat := fieldAt d o 4
  { n := fieldAt b 40 4, bf16G := bitOf (byteAt b 44) 3, sr := bitOf (byteAt b 44) 2, alg := byteAt b 44 % 4, lr := fieldAt b 48 4
    wd := fieldAt b 52 4, gscale := fieldAt b 56 4, wIn := a 0, wOut := a 8, mIn := a 16, mOut := a 24, uIn := a 32, uOut := a 40, msIn := a 48
    msOut := a 56, usIn := a 64, usOut := a 72, g := a 80, b1 := f 88, ob1 := f 92, b2 := f 96, ob2 := f 100, eps := f 104, c1 := f 108, c2 := f 112 }

/-- ADAMW uses the second moment; MOMENTUM ignores its fields (R181). -/
def OptCmd.adam (c : OptCmd) : Bool := c.alg == 0

/-- Input arrays: descriptor offset, address, bytes; an output's counterpart is the input eight bytes before it (R180, R184). -/
def OptCmd.ins (c : OptCmd) : List (Nat × Nat × Nat) :=
  let s := ceilDiv c.n 32
  [(64, c.wIn, 2 * c.n), (80, c.mIn, c.n)] ++ (if c.adam then [(96, c.uIn, c.n)] else []) ++ [(112, c.msIn, s)]
    ++ (if c.adam then [(128, c.usIn, s)] else []) ++ [(144, c.g, (if c.bf16G then 2 else 4) * c.n)]
def OptCmd.outs (c : OptCmd) : List (Nat × Nat × Nat) :=
  let s := ceilDiv c.n 32
  [(72, c.wOut, 2 * c.n), (88, c.mOut, c.n)] ++ (if c.adam then [(104, c.uOut, c.n)] else []) ++ [(120, c.msOut, s)]
    ++ (if c.adam then [(136, c.usOut, s)] else [])

/-- The checks of R184, by offset. -/
def OptCmd.bad (c : OptCmd) (b d : List Byte) : Option Nat :=
  let hit (x : Nat × Nat × Nat) : Bool := c.outs.any (fun y => y.1 != x.1 + 8 && overlaps x.2.1 x.2.2 y.2.1 y.2.2)
  let aligned (x : Nat × Nat × Nat) : Bool := x.2.1 % (if 112 ≤ x.1 ∧ x.1 < 144 then 8 else 16) == 0
  let order (l : List (Nat × Bool)) : List (Nat × Bool) :=
    l.foldr (fun x acc => acc.takeWhile (fun y => decide (y.1 < x.1)) ++ x :: acc.dropWhile (fun y => decide (y.1 < x.1))) []
  firstBad ([(40, decide (1 ≤ c.n)), (44, decide (byteAt b 44 < 16) && decide (c.alg ≤ 1))] ++ zeroBytes b d [45, 46, 47, 60, 61, 62, 63]
    ++ order (c.ins.map (fun x => (x.1, aligned x && !hit x)) ++ c.outs.map (fun x => (x.1, aligned x))) ++ zeroBytes b d (offs 180 191))

/-- What one element stores before rounding: w, m, u as FP32 values (R181). -/
structure OptElem where
  w : Nat
  m : Nat
  u : Nat
  deriving DecidableEq, Repr

/-- The update of one element in FP32 (R181). -/
def OptCmd.update (c : OptCmd) (g wold m0 u0 : Nat) : OptElem :=
  let gr := fmul g c.gscale
  let step (d : Nat) : Nat := fsub wold (fmul c.lr (fadd d (fmul c.wd wold)))
  if c.adam then
    let m := fadd (fmul c.b1 m0) (fmul c.ob1 gr)
    let v := fadd (fmul c.b2 (fmul u0 u0)) (fmul c.ob2 (fmul gr gr))
    let d := fdiv (fmul m c.c1) (fadd (fsqrt (fmul v c.c2)) c.eps)
    { w := step d, m := m, u := fsqrt v }
  else
    let m := fadd (fmul c.b1 m0) gr
    { w := step m, m := m, u := 0 }

/-- A dequantised moment (R181). -/
def momentOf (code scale : Nat) : Nat := rne32 ((elemVal 4 [] code).mul (ue8m0 scale))

/-- The BF16 code stored for a master: RNE, or stochastic on the grid that goes on above the largest finite value; overflow gives an
infinity (R183). -/
def masterCode (mode : RMode) (x : Nat) : Nat :=
  match mode, dec32 x with
  | .sr r, .fin m e =>
    let (n, d) := ratio m e
    b2n (decide (m < 0)) * 2 ^ 15 + min 0x7F80 (roundCode fmtBF16 (.sr r) n d)
  | _, v => outConv 8 v

/-- A block of at most 32 moment values: its scale and codes (R182). -/
def momentBlock (l : List Nat) : Nat × List Nat :=
  let c := fitScale 1 (448, 1) (1, 1) (amaxOf l)
  (c, l.map (fun x => (quantElem 4 [] .rne x (rne32 (ue8m0 c))).1))

/-- What a command stores: master codes, moment blocks. -/
structure OptOut where
  w : List Nat
  m : List (Nat × List Nat)
  u : List (Nat × List Nat)
  deriving DecidableEq, Repr

def OptCmd.run (c : OptCmd) (rd : Nat → Nat → Nat) (words : List (List Nat)) : OptOut :=
  let es := (List.range c.n).map (fun e =>
    c.update (if c.bf16G then bf16to32 (rd (c.g + 2 * e) 2) else rd (c.g + 4 * e) 4) (bf16to32 (rd (c.wIn + 2 * e) 2))
      (momentOf (rd (c.mIn + e) 1) (rd (c.msIn + e / 32) 1)) (if c.adam then momentOf (rd (c.uIn + e) 1) (rd (c.usIn + e / 32) 1) else 0))
  { w := es.zipIdx.map (fun p => masterCode (if c.sr then .sr (r16At words p.2) else .rne) p.1.w)
    m := (groupsOf 32 c.n (es.map OptElem.m)).map momentBlock
    u := if c.adam then (groupsOf 32 c.n (es.map OptElem.u)).map momentBlock else [] }

/-- Reads and writes of elements [lo, hi); both are multiples of 32 but for the end. -/
def OptCmd.seg (c : OptCmd) (o : OptOut) (lo hi : Nat) : Seg :=
  let blocks (l : List (Nat × List Nat)) : List (Nat × List Nat) := (l.drop (lo / 32)).take (ceilDiv (hi - lo) 32)
  let moment (a sa : Nat) (l : List (Nat × List Nat)) : List (Nat × List Byte) :=
    [(a + lo, packCodes 4 ((blocks l).flatMap Prod.snd)), (sa + lo / 32, (blocks l).map (fun b => BitVec.ofNat 8 b.1))]
  { reads := elementReads ([(c.wIn, 16), (c.mIn, 8), (c.g, if c.bf16G then 16 else 32)] ++ (if c.adam then [(c.uIn, 8)] else [])) lo hi
      ++ usePoint ([(c.msIn + lo / 32, ceilDiv (hi - lo) 32)] ++ (if c.adam then [(c.usIn + lo / 32, ceilDiv (hi - lo) 32)] else []))
    writes := (c.wOut + 2 * lo, packCodes 8 ((o.w.drop lo).take (hi - lo))) :: moment c.mOut c.msOut o.m
      ++ (if c.adam then moment c.uOut c.usOut o.u else []) }

/-- The flags: one row, an element NaN when any stored value of it is (R183). -/
def OptOut.flags (o : OptOut) (n : Nat) : Flags :=
  let m := o.m.flatMap Prod.snd
  let u := o.u.flatMap Prod.snd
  flagsOver 1 n (fun _ e =>
    let w := o.w.getD e 0
    let nan := codeNan 8 w || codeNan 4 (m.getD e 0) || codeNan 4 (u.getD e 0)
    some (nan, codeInf 8 w))

/-- The work of OPT_STEP; cancellation points after every 16,384 elements (R184). -/
def State.runOpt (s : State) (q i : Nat) (stop : Option Nat) (fl : Flight) (d : List Byte) : State :=
  let c := optCmd fl.bytes d
  let rd (a n : Nat) : Nat := s.engNum fl.fn a n
  let words := if c.sr then (((s.core fl.core).laneList).map (rngSteps (ceilDiv c.n 128))).map Prod.fst else []
  let o := c.run rd words
  let segs := (List.range (ceilDiv c.n 16384)).map (fun j => c.seg o (16384 * j) (min c.n (16384 * (j + 1))))
  let r := s.runJob fl.fn q i true ((fl.stopAt stop).map (max 1)) segs
  let n := min c.n (16384 * r.done)
  let s1 := if c.sr && decide (0 < n) then (r.st.drawWords fl.core (ceilDiv n 128)).2 else r.st
  ({ r with st := s1 } : JobResult).finish q i (o.flags n)

def execOptStep (q i : Nat) (stop : Option Nat) (s : State) : Result :=
  s.withDesc q i 0x41 (fun fl d => (optCmd fl.bytes d).bad fl.bytes d)
    (fun t fl d => if (optCmd fl.bytes d).sr then t.drawing q i fl (fun u => u.runOpt q i stop fl d) else t.runOpt q i stop fl d)

/-! ### COMPRESS (R186, R187) -/

/-- Exponent field of an E4M3 code. -/
def expField (c : Nat) : Nat := bitsOf c 6 3

/-- Bits of a number; 0 for 0. -/
def bitLen (n : Nat) : Nat := if n = 0 then 0 else Nat.log2 n + 1

/-- The record of a group of 64 codes. -/
def groupRecord (codes : List Nat) : List Byte :=
  let nz := codes.filter (· != 0)
  if nz.isEmpty then [0, 0]
  else
    let emin := (nz.map expField).foldl min 15
    let w := bitLen ((nz.map expField).foldl max 0 - emin)
    if 10 + ceilDiv (nz.length * (4 + w)) 8 < 66 then
      let field (c : Nat) : Nat := c % 8 + (expField c - emin) * 8 + c / 128 * 2 ^ (w + 3)
      leBytes 2 (2 ^ 14 + w * 2 ^ 11 + emin * 2 ^ 7 + (nz.length - 1))
        ++ leBytes 8 ((codes.zipIdx).foldl (fun m p => if p.1 = 0 then m else m + 2 ^ p.2) 0)
        ++ leBytes (ceilDiv (nz.length * (4 + w)) 8) (nz.foldr (fun c n => field c + n * 2 ^ (4 + w)) 0)
    else leBytes 2 (2 ^ 15) ++ codes.map (BitVec.ofNat 8)

/-- A segment of up to 2,048 codes: its records, padded (R187). -/
def segmentBytes (codes : List Nat) : List Byte :=
  let rs := (groupsOf 64 32 codes).flatMap (fun g => groupRecord (g ++ List.replicate (64 - g.length) 0))
  rs ++ List.replicate (up16n rs.length - rs.length) 0
where
  /-- Rounded up to a multiple of 16. -/
  up16n (n : Nat) : Nat := (n + 15) / 16 * 16

/-- COMPRESS fields (R188). -/
structure CompCmd where
  src : Nat
  data : Nat
  index : Nat
  n : Nat
  cap : Nat
  deriving DecidableEq, Repr

def compCmd (b : List Byte) : CompCmd :=
  { src := fieldAt b 32 8, data := fieldAt b 40 8, index := fieldAt b 48 8, n := fieldAt b 56 4, cap := fieldAt b 60 4 }

def CompCmd.segs (c : CompCmd) : Nat := ceilDiv c.n 2048
/-- SIZE_ADDR (R188). -/
def CompCmd.size (c : CompCmd) : Nat := (c.index + 4 * c.segs + 7) / 8 * 8

/-- The checks of R189 on COMPRESS. -/
def CompCmd.bad (c : CompCmd) : Option Nat :=
  let src := (c.src, c.n)
  let data := (c.data, c.cap)
  let rest := [(c.index, 4 * c.segs), (c.size, 8)]
  firstBad [(32, c.src % 16 == 0 && !spansMeet [src] (data :: rest)), (40, c.data % 16 == 0 && !spansMeet [data] rest), (48, c.index % 4 == 0),
    (56, decide (1 ≤ c.n)), (60, decide (2112 * c.segs ≤ c.cap))]

/-- COMPRESS runs: segment by segment its records, its index entry, and at the end the size (R184 to R186). -/
def State.runCompress (t : State) (q i : Nat) (stop : Option Nat) (fl : Flight) : State :=
  let c := compCmd fl.bytes
  let piece (j : Nat) : Nat × Nat := (c.src + 2048 * j, min 2048 (c.n - 2048 * j))
  let out := (List.range c.segs).map (fun j => segmentBytes ((t.engRead fl.fn (piece j).1 (piece j).2).map BitVec.toNat))
  let off (j : Nat) : Nat := ((out.take j).map List.length).foldl (· + ·) 0
  let segs : List Seg := (out.zipIdx).map (fun p => {
    reads := [piece p.2], writes := [(c.data + off p.2, p.1), (c.index + 4 * p.2, leBytes 4 (off p.2))] })
  let at_ := match (fl.stopAt stop).map (max 1) with
    | some n => if n < c.segs then some n else none
    | none => none
  (t.runJob fl.fn q i true at_ (segs ++ [{ reads := [], writes := [(c.size, leBytes 8 (off c.segs))] }])).finish q i {}

def execCompress (q i : Nat) (stop : Option Nat) (s : State) : Result :=
  s.dispatch q i 0x53 (fun fl => (compCmd fl.bytes).bad) (fun t fl => t.runCompress q i stop fl)

/-! ### DECOMPRESS (R187 to R189) -/

/-- DECOMPRESS fields (R188). -/
structure DecompCmd where
  data : Nat
  index : Nat
  dst : Nat
  first : Nat
  nseg : Nat
  deriving DecidableEq, Repr

def decompCmd (b : List Byte) : DecompCmd :=
  { data := fieldAt b 32 8, index := fieldAt b 40 8, dst := fieldAt b 48 8, first := fieldAt b 56 4, nseg := fieldAt b 60 4 }

/-- One record at address a: its length, and its 64 codes; no codes when the record fails the checks of R189. A code whose field lies beyond NNZ,
or whose exponent lies beyond the format, is a free value (DESIGN CHOICE, log 37). -/
def readRecord (rd : Nat → Nat → Nat) (a : Nat) : Nat × Option (List Nat) :=
  let h := rd a 2
  let w := bitsOf h 13 11
  if bitOf h 6 || decide (bitsOf h 15 14 = 3) || decide (4 < w) then (2, none)
  else if bitsOf h 15 14 = 0 then (2, some (List.replicate 64 0))
  else if bitsOf h 15 14 = 2 then (66, some ((List.range 64).map (fun i => rd (a + 2 + i) 1)))
  else
    let nnz := bitsOf h 5 0 + 1
    let len := ceilDiv (nnz * (4 + w)) 8
    let map_ := rd (a + 2) 8
    let fields := rd (a + 10) len
    let code (r : Nat) : Nat :=
      let x := fields / 2 ^ (r * (4 + w)) % 2 ^ (4 + w)
      let e := bitsOf h 10 7 + x / 8 % 2 ^ w
      if r < nnz ∧ e < 16 then x % 8 + e * 8 + x / 2 ^ (w + 3) * 128 else (Config.recordCode [h, map_, fields, r]).toNat
    (10 + len, some ((List.range 64).map (fun i =>
      if bitOf map_ i then code ((List.range i).filter (bitOf map_)).length else 0)))

/-- Up to n records from address a: bytes read, codes, and whether one was bad. -/
def readRecords (rd : Nat → Nat → Nat) : Nat → Nat → Nat × List Nat × Bool
  | 0, _ => (0, [], false)
  | n + 1, a =>
    match readRecord rd a with
    | (l, none) => (l, [], true)
    | (l, some cs) => let (m, ds, bad) := readRecords rd n (a + l); (l + m, cs ++ ds, bad)

/-- What a segment restores: address and length read, codes; a bad record, or an offset beyond the data, ends it (none of an offset's data is
read). `free` chooses how many groups the last segment named holds, where the index entry behind it does not show 32 (DESIGN CHOICE, log 37). -/
structure SegRead where
  at_ : Nat
  len : Nat
  codes : List Nat
  bad : Option Nat
  deriving DecidableEq, Repr

def DecompCmd.segment (c : DecompCmd) (rd : Nat → Nat → Nat) (free j : Nat) : SegRead :=
  let n := c.first + j
  let off := rd (c.index + 4 * n) 4
  if 2112 * n < off then { at_ := c.data + off, len := 0, codes := [], bad := some 40 }
  else
    let (l, _, b) := readRecords rd 32 (c.data + off)
    let full := !b && (off + l + 15) / 16 * 16 == rd (c.index + 4 * (n + 1)) 4
    let k := if j + 1 < c.nseg ∨ full then 32 else (Config.freeWord free).toNat % 32 + 1
    let (l', cs, b') := readRecords rd k (c.data + off)
    { at_ := c.data + off, len := l', codes := cs, bad := if b' then some 32 else none }

/-- Segments up to the first that ends the command. -/
def DecompCmd.segments (c : DecompCmd) (rd : Nat → Nat → Nat) (free : Nat) : List SegRead :=
  let all := (List.range c.nseg).map (c.segment rd free)
  match all.findIdx? (fun x => x.bad.isSome) with
  | some n => all.take (n + 1)
  | none => all

/-- The checks of R189 that come before the booking. -/
def DecompCmd.bad (c : DecompCmd) (segs : List SegRead) : Option Nat :=
  let dst := [(c.dst, 2048 * c.nseg)]
  firstBad [(32, !spansMeet dst (segs.map (fun x => (x.at_, x.len)))),
    (40, c.index % 4 == 0 && !spansMeet dst [(c.index + 4 * c.first, 4 * c.nseg)]), (48, c.dst % 16 == 0),
    (60, decide (1 ≤ c.nseg) && decide (c.nseg ≤ 2097152))]

/-- A job that a bad record or offset ends at segment n: MALFORMED, written blocks void (R189); against a seal failure of the same segment
the spec names no order: a free choice (DESIGN CHOICE, log 37). -/
def JobResult.withBad (r : JobResult) (bad : Option (Nat × Nat)) : JobResult :=
  match bad with
  | none => r
  | some (n, o) =>
    if r.done ≠ n + 1 ∨ !(r.status == 0 || r.status == 4) then r
    else
      let (x, s1) := r.st.draw
      if r.status = 4 ∧ (Config.freeByte x).toNat % 2 = 1 then { r with st := s1 }
      else { r with st := s1.voidBlocks (blocksTouched r.wrote), status := 8, detail := o }

/-- Field checks of DECOMPRESS, over the index entries as they stand (R188, R189). -/
def State.decompBad (s : State) (fl : Flight) : Option Nat :=
  let c := decompCmd fl.bytes
  c.bad (if c.nseg ≤ 2097152 then c.segments (s.engNum fl.fn) s.free else [])

/-- DECOMPRESS runs (R187 to R189). -/
def State.runDecompress (t : State) (q i : Nat) (stop : Option Nat) (fl : Flight) : State :=
  let c := decompCmd fl.bytes
  let (x, t1) := t.draw
  let rs := c.segments (t.engNum fl.fn) x
  let segs : List Seg := (rs.zipIdx).map (fun p => {
    reads := (c.index + 4 * (c.first + p.2), 4) :: (if p.1.len = 0 then [] else [(p.1.at_, p.1.len)])
    writes := if p.1.codes.isEmpty then [] else [(c.dst + 2048 * p.2, p.1.codes.map (BitVec.ofNat 8))] })
  let bad := match rs.findIdx? (fun y => y.bad.isSome) with
    | some n => some (n, ((rs[n]?.bind SegRead.bad).getD 32))
    | none => none
  ((t1.runJob fl.fn q i true ((fl.stopAt stop).map (max 1)) segs).withBad bad).finish q i {}

def execDecompress (q i : Nat) (stop : Option Nat) (s : State) : Result :=
  s.dispatch q i 0x54 s.decompBad (fun t fl => t.runDecompress q i stop fl)

end Sys2Proof.Machine
end

