-- ==== Sys2Proof/Machine/Dispatch.lean ====
section
/-!
DEFINITION. The dispatcher: one arm per command, each a direct call of its meaning.
-/

namespace Sys2Proof.Machine

/-- The effect of a command on everything but the queue of waiting commands. -/
def exec (i : Instr) (s : State) : Host.Outcome State Fault Refusal :=
  match i with
  | .nop q ix => Sys2Proof.Machine.execNop q ix s
  | .fence q ix => Sys2Proof.Machine.execFence q ix s
  | .wait q ix => Sys2Proof.Machine.execWait q ix s
  | .waitTimeout q ix => Sys2Proof.Machine.execWaitTimeout q ix s
  | .signal q ix => Sys2Proof.Machine.execSignal q ix s
  | .timer q ix => Sys2Proof.Machine.execTimer q ix s
  | .timerExpiry q ix => Sys2Proof.Machine.execTimerExpiry q ix s
  | .report q ix => Sys2Proof.Machine.execReport q ix s
  | .drainMark q ix => Sys2Proof.Machine.execDrainMark q ix s
  | .matmul q ix stop => Sys2Proof.Machine.execMatmul q ix stop s
  | .matmulAcc q ix stop => Sys2Proof.Machine.execMatmulAcc q ix stop s
  | .attnFwd q ix stop => Sys2Proof.Machine.execAttnFwd q ix stop s
  | .attnBwd q ix stop => Sys2Proof.Machine.execAttnBwd q ix stop s
  | .bwdIn q ix stop => Sys2Proof.Machine.execBwdIn q ix stop s
  | .bwdW q ix stop => Sys2Proof.Machine.execBwdW q ix stop s
  | .convert q ix stop => Sys2Proof.Machine.execConvert q ix stop s
  | .stats q ix stop => Sys2Proof.Machine.execStats q ix stop s
  | .rotate q ix stop => Sys2Proof.Machine.execRotate q ix stop s
  | .codebookUpd q ix => Sys2Proof.Machine.execCodebookUpd q ix s
  | .vprog q ix draws movBad => Sys2Proof.Machine.execVprog q ix draws movBad s
  | .optStep q ix stop => Sys2Proof.Machine.execOptStep q ix stop s
  | .copy q ix stop => Sys2Proof.Machine.execCopy q ix stop s
  | .gather q ix stop => Sys2Proof.Machine.execGather q ix stop s
  | .scatter q ix stop => Sys2Proof.Machine.execScatter q ix stop s
  | .compress q ix stop => Sys2Proof.Machine.execCompress q ix stop s
  | .decompress q ix stop => Sys2Proof.Machine.execDecompress q ix stop s
  | .allreduce q ix => Sys2Proof.Machine.execAllreduce q ix s
  | .reduceScatter q ix => Sys2Proof.Machine.execReduceScatter q ix s
  | .allgather q ix => Sys2Proof.Machine.execAllgather q ix s
  | .broadcast q ix => Sys2Proof.Machine.execBroadcast q ix s
  | .reduce q ix => Sys2Proof.Machine.execReduce q ix s
  | .alltoallv q ix => Sys2Proof.Machine.execAlltoallv q ix s
  | .barrier q ix => Sys2Proof.Machine.execBarrier q ix s
  | .stepBegin q ix => Sys2Proof.Machine.execStepBegin q ix s
  | .stepCommit q ix => Sys2Proof.Machine.execStepCommit q ix s
  | .stepCommitSample f => Sys2Proof.Machine.execStepCommitSample f s
  | .stepAbort q ix => Sys2Proof.Machine.execStepAbort q ix s
  | .normWatch q ix stop => Sys2Proof.Machine.execNormWatch q ix stop s
  | .sample q ix stop => Sys2Proof.Machine.execSample q ix stop s
  | .rngSave q ix => Sys2Proof.Machine.execRngSave q ix s
  | .rngLoad q ix => Sys2Proof.Machine.execRngLoad q ix s
  | .iftRun q ix => Sys2Proof.Machine.execIftRun q ix s
  | .sealScan q ix => Sys2Proof.Machine.execSealScan q ix s
  | .inject q ix => Sys2Proof.Machine.execInject q ix s
  | .ld core thread reg addr size => Sys2Proof.Machine.execLd core thread reg addr size s
  | .st core thread reg value addr size => Sys2Proof.Machine.execSt core thread reg value addr size s
  | .mvLd core thread mvc addr spad len => Sys2Proof.Machine.execMvLd core thread mvc addr spad len s
  | .mvSt core thread mvc addr spad len => Sys2Proof.Machine.execMvSt core thread mvc addr spad len s
  | .mvPf core thread mvc addr len => Sys2Proof.Machine.execMvPf core thread mvc addr len s
  | .mvBulk core thread mvc out addr spad len => Sys2Proof.Machine.execMvBulk core thread mvc out addr spad len s
  | .waitc core thread mvc v => Sys2Proof.Machine.execWaitc core thread mvc v s
  | .fenceCore core thread => Sys2Proof.Machine.execFenceCore core thread s
  | .fenceCluster core thread => Sys2Proof.Machine.execFenceCluster core thread s
  | .fenceDevice core thread => Sys2Proof.Machine.execFenceDevice core thread s
  | .fenceFabric core thread => Sys2Proof.Machine.execFenceFabric core thread s
  | .semaddRel core thread sem v scope => Sys2Proof.Machine.execSemaddRel core thread sem v scope s
  | .semwaitAcq core thread sem v scope => Sys2Proof.Machine.execSemwaitAcq core thread sem v scope s
  | .halt core thread => Sys2Proof.Machine.execHalt core thread s
  | .trace core thread v => Sys2Proof.Machine.execTrace core thread v s
  | .randU32 core thread lane reg => Sys2Proof.Machine.execRandU32 core thread lane reg s
  | .randU core thread lane reg => Sys2Proof.Machine.execRandU core thread lane reg s
  | .randUo core thread lane reg => Sys2Proof.Machine.execRandUo core thread lane reg s
  | .randBern core thread lane reg p => Sys2Proof.Machine.execRandBern core thread lane reg p s
  | .randNbm core thread lane reg0 reg1 => Sys2Proof.Machine.execRandNbm core thread lane reg0 reg1 s
  | .randNtab core thread lane reg => Sys2Proof.Machine.execRandNtab core thread lane reg s
  | .doorbellWrite f q size tail cdone => Sys2Proof.Machine.execDoorbellWrite f q size tail cdone s
  | .commandFetch q => Sys2Proof.Machine.execCommandFetch q s
  | .notBeforeReached q => Sys2Proof.Machine.execNotBeforeReached q s
  | .sorterGrant => Sys2Proof.Machine.execSorterGrant s
  | .agePromotion q => Sys2Proof.Machine.execAgePromotion q s
  | .commandComplete q ix m withheld => Sys2Proof.Machine.execCommandComplete q ix m withheld s
  | .qmgCancel f q index from_ same => Sys2Proof.Machine.execQmgCancel f q index from_ same s
  | .queueEnable f core => Sys2Proof.Machine.execQueueEnable f core s
  | .queuePause f => Sys2Proof.Machine.execQueuePause f s
  | .queueResume f => Sys2Proof.Machine.execQueueResume f s
  | .queueDisable f => Sys2Proof.Machine.execQueueDisable f s
  | .queueReset f => Sys2Proof.Machine.execQueueReset f s
  | .migrate f core => Sys2Proof.Machine.execMigrate f core s
  | .migrationDrainDone q => Sys2Proof.Machine.execMigrationDrainDone q s
  | .migrationTimeout q => Sys2Proof.Machine.execMigrationTimeout q s
  | .qmgSemvalWrite f val => Sys2Proof.Machine.execQmgSemvalWrite f val s
  | .qmgSemadd f val => Sys2Proof.Machine.execQmgSemadd f val s
  | .dlqBaseWrite f val => Sys2Proof.Machine.execDlqBaseWrite f val s
  | .tenantEntryWrite f off val => Sys2Proof.Machine.execTenantEntryWrite f off val s
  | .assign func tier clear => Sys2Proof.Machine.execAssign func tier clear s
  | .query func tier clear => Sys2Proof.Machine.execQuery func tier clear s
  | .granuleActionDone => Sys2Proof.Machine.execGranuleActionDone s
  | .haltClr f => Sys2Proof.Machine.execHaltClr f s
  | .commitFlip f => Sys2Proof.Machine.execCommitFlip f s
  | .commitTimeout f => Sys2Proof.Machine.execCommitTimeout f s
  | .escGrant rail => Sys2Proof.Machine.execEscGrant rail s
  | .prebookExpiry q ix => Sys2Proof.Machine.execPrebookExpiry q ix s
  | .rampHoldExpiry c => Sys2Proof.Machine.execRampHoldExpiry c s
  | .c1Entry core => Sys2Proof.Machine.execC1Entry core s
  | .c2Entry core => Sys2Proof.Machine.execC2Entry core s
  | .c3Entry core => Sys2Proof.Machine.execC3Entry core s
  | .coreWake core cause => Sys2Proof.Machine.execCoreWake core cause s
  | .wakeComplete core => Sys2Proof.Machine.execWakeComplete core s
  | .spareReady k => Sys2Proof.Machine.execSpareReady k s
  | .beatBoundary r => Sys2Proof.Machine.execBeatBoundary r s
  | .beatNowRead ps => Sys2Proof.Machine.execBeatNowRead ps s
  | .counterLowRead f off => Sys2Proof.Machine.execCounterLowRead f off s
  | .ctrClear f off => Sys2Proof.Machine.execCtrClear f off s
  | .timeSyncSend ps => Sys2Proof.Machine.execTimeSyncSend ps s
  | .timeSyncReceive k ps => Sys2Proof.Machine.execTimeSyncReceive k ps s
  | .timeReplyReceive k ps => Sys2Proof.Machine.execTimeReplyReceive k ps s
  | .trimUpdate => Sys2Proof.Machine.execTrimUpdate s
  | .acquireTimeout => Sys2Proof.Machine.execAcquireTimeout s
  | .flitTransmit n => Sys2Proof.Machine.execFlitTransmit n s
  | .flitReceive n flit corr unc syms => Sys2Proof.Machine.execFlitReceive n flit corr unc syms s
  | .nakReceive n => Sys2Proof.Machine.execNakReceive n s
  | .nakRepeat n => Sys2Proof.Machine.execNakRepeat n s
  | .linkSignalDetect n => Sys2Proof.Machine.execLinkSignalDetect n s
  | .trainingComplete n lanes => Sys2Proof.Machine.execTrainingComplete n lanes s
  | .trainingTimeout n => Sys2Proof.Machine.execTrainingTimeout n s
  | .trainingRetry n => Sys2Proof.Machine.execTrainingRetry n s
  | .spdm n verdict => Sys2Proof.Machine.execSpdm n verdict s
  | .spdmResponseTimeout n => Sys2Proof.Machine.execSpdmResponseTimeout n s
  | .linkpar n p => Sys2Proof.Machine.execLinkpar n p s
  | .authTimeout n => Sys2Proof.Machine.execAuthTimeout n s
  | .laneFailure n lane => Sys2Proof.Machine.execLaneFailure n lane s
  | .retrainComplete n lanes => Sys2Proof.Machine.execRetrainComplete n lanes s
  | .signalLossTimeout n => Sys2Proof.Machine.execSignalLossTimeout n s
  | .linkStall n => Sys2Proof.Machine.execLinkStall n s
  | .mgtStallQuarantine n => Sys2Proof.Machine.execMgtStallQuarantine n s
  | .linkNoisy n => Sys2Proof.Machine.execLinkNoisy n s
  | .linkNoisyClear n => Sys2Proof.Machine.execLinkNoisyClear n s
  | .retrain n => Sys2Proof.Machine.execRetrain n s
  | .release n => Sys2Proof.Machine.execRelease n s
  | .disable n v => Sys2Proof.Machine.execDisable n v s
  | .messageForward k => Sys2Proof.Machine.execMessageForward k s
  | .rd k => Sys2Proof.Machine.execRd k s
  | .wr k => Sys2Proof.Machine.execWr k s
  | .void_ k => Sys2Proof.Machine.execVoid k s
  | .sig k => Sys2Proof.Machine.execSig k s
  | .rddata k => Sys2Proof.Machine.execRddata k s
  | .wrack k => Sys2Proof.Machine.execWrack k s
  | .sigack k => Sys2Proof.Machine.execSigack k s
  | .remoteRequestTimeout tag => Sys2Proof.Machine.execRemoteRequestTimeout tag s
  | .colData k => Sys2Proof.Machine.execColData k s
  | .colPmk k => Sys2Proof.Machine.execColPmk k s
  | .colAck k => Sys2Proof.Machine.execColAck k s
  | .colReady k => Sys2Proof.Machine.execColReady k s
  | .colCtrl k => Sys2Proof.Machine.execColCtrl k s
  | .colSpot k => Sys2Proof.Machine.execColSpot k s
  | .colVerdict k => Sys2Proof.Machine.execColVerdict k s
  | .colDecision k => Sys2Proof.Machine.execColDecision k s
  | .colReadyResend q ix => Sys2Proof.Machine.execColReadyResend q ix s
  | .chunkResend q ix => Sys2Proof.Machine.execChunkResend q ix s
  | .collectiveTimeout q ix => Sys2Proof.Machine.execCollectiveTimeout q ix s
  | .powerSharePeriod => Sys2Proof.Machine.execPowerSharePeriod s
  | .power k => Sys2Proof.Machine.execPower k s
  | .gets l k => Sys2Proof.Machine.execGets l k s
  | .getm l k => Sys2Proof.Machine.execGetm l k s
  | .upg l k => Sys2Proof.Machine.execUpg l k s
  | .readnc l k => Sys2Proof.Machine.execReadnc l k s
  | .writenc l k => Sys2Proof.Machine.execWritenc l k s
  | .putm l k => Sys2Proof.Machine.execPutm l k s
  | .pute l k => Sys2Proof.Machine.execPute l k s
  | .puts l k => Sys2Proof.Machine.execPuts l k s
  | .snps l k => Sys2Proof.Machine.execSnps l k s
  | .snpm l k => Sys2Proof.Machine.execSnpm l k s
  | .snpinv l k => Sys2Proof.Machine.execSnpinv l k s
  | .snprd l k => Sys2Proof.Machine.execSnprd l k s
  | .datas l k => Sys2Proof.Machine.execDatas l k s
  | .datae l k => Sys2Proof.Machine.execDatae l k s
  | .datam l k => Sys2Proof.Machine.execDatam l k s
  | .ack l k => Sys2Proof.Machine.execAck l k s
  | .wback l k => Sys2Proof.Machine.execWback l k s
  | .invack l k => Sys2Proof.Machine.execInvack l k s
  | .snpdata l k => Sys2Proof.Machine.execSnpdata l k s
  | .snpack l k => Sys2Proof.Machine.execSnpack l k s
  | .miss l k => Sys2Proof.Machine.execMiss l k s
  | .missPutPending l k => Sys2Proof.Machine.execMissPutPending l k s
  | .snoopTimeout l k => Sys2Proof.Machine.execSnoopTimeout l k s
  | .dirAgeWarn l => Sys2Proof.Machine.execDirAgeWarn l s
  | .scrubPass k corrected lost => Sys2Proof.Machine.execScrubPass k corrected lost s
  | .bankCopyComplete k j => Sys2Proof.Machine.execBankCopyComplete k j s
  | .hbmTempReading temps => Sys2Proof.Machine.execHbmTempReading temps s
  | .hotChannel c => Sys2Proof.Machine.execHotChannel c s
  | .apply f k => Sys2Proof.Machine.execApply f k s
  | .flush f k => Sys2Proof.Machine.execFlush f k s
  | .fcpActionDone => Sys2Proof.Machine.execFcpActionDone s
  | .testMode v => Sys2Proof.Machine.execTestMode v s
  | .start c val => Sys2Proof.Machine.execStart c val s
  | .stop c => Sys2Proof.Machine.execStop c s
  | .tgDone c mism => Sys2Proof.Machine.execTgDone c mism s
  | .iftStart => Sys2Proof.Machine.execIftStart s
  | .iftForced k slot => Sys2Proof.Machine.execIftForced k slot s
  | .iftComplete pass chain => Sys2Proof.Machine.execIftComplete pass chain s
  | .coreHang c => Sys2Proof.Machine.execCoreHang c s
  | .hubClrst mask => Sys2Proof.Machine.execHubClrst mask s
  | .clusterResetDone => Sys2Proof.Machine.execClusterResetDone s
  | .pwrGoodRise nodeId bootSel => Sys2Proof.Machine.execPwrGoodRise nodeId bootSel s
  | .bootStepComplete => Sys2Proof.Machine.execBootStepComplete s
  | .bootTimeout => Sys2Proof.Machine.execBootTimeout s
  | .pwrGoodFall n => Sys2Proof.Machine.execPwrGoodFall n s
  | .perstN => Sys2Proof.Machine.execPerstN s
  | .hotReset => Sys2Proof.Machine.execHotReset s
  | .flr f => Sys2Proof.Machine.execFlr f s
  | .pfFlr => Sys2Proof.Machine.execPfFlr s
  | .vfEnableClear => Sys2Proof.Machine.execVfEnableClear s
  | .powerLoss n => Sys2Proof.Machine.execPowerLoss n s
  | .flowOkFall ps => Sys2Proof.Machine.execFlowOkFall ps s
  | .flowStop ps => Sys2Proof.Machine.execFlowStop ps s
  | .thermalTrip => Sys2Proof.Machine.execThermalTrip s
  | .droop d depth ps => Sys2Proof.Machine.execDroop d depth ps s
  | .droopHoldExpiry cluster ps => Sys2Proof.Machine.execDroopHoldExpiry cluster ps s
  | .droopRestoreStep cluster ps => Sys2Proof.Machine.execDroopRestoreStep cluster ps s
  | .droopStorm die => Sys2Proof.Machine.execDroopStorm die s
  | .droopVoltageReturn die => Sys2Proof.Machine.execDroopVoltageReturn die s
  | .rqAck rail => Sys2Proof.Machine.execRqAck rail s
  | .rqAckTimeout rail => Sys2Proof.Machine.execRqAckTimeout rail s
  | .railFault r => Sys2Proof.Machine.execRailFault r s
  | .opportunisticDecision die => Sys2Proof.Machine.execOpportunisticDecision die s
  | .capUpdate => Sys2Proof.Machine.execCapUpdate s
  | .thermalStateEval => Sys2Proof.Machine.execThermalStateEval s
  | .critStep die => Sys2Proof.Machine.execCritStep die s
  | .watchdogReset p => Sys2Proof.Machine.execWatchdogReset p s
  | .processorReturn p => Sys2Proof.Machine.execProcessorReturn p s
  | .controllerAbsent p => Sys2Proof.Machine.execControllerAbsent p s
  | .odRead tr => Sys2Proof.Machine.execOdRead tr s
  | .odWrite tr => Sys2Proof.Machine.execOdWrite tr s
  | .odCommit tr => Sys2Proof.Machine.execOdCommit tr s
  | .applyNow tr => Sys2Proof.Machine.execApplyNow tr s
  | .defaults tr => Sys2Proof.Machine.execDefaults tr s
  | .journalBatchPersisted fails => Sys2Proof.Machine.execJournalBatchPersisted fails s
  | .compactionCopy => Sys2Proof.Machine.execCompactionCopy s
  | .tokenRefill => Sys2Proof.Machine.execTokenRefill s
  | .go val => Sys2Proof.Machine.execGo val s
  | .single id data => Sys2Proof.Machine.execSingle id data s
  | .first id data => Sys2Proof.Machine.execFirst id data s
  | .consec id data => Sys2Proof.Machine.execConsec id data s
  | .flow id data => Sys2Proof.Machine.execFlow id data s
  | .canTransferTimeout => Sys2Proof.Machine.execCanTransferTimeout s
  | .mctpOdRequest i3c src tag body => Sys2Proof.Machine.execMctpOdRequest i3c src tag body s
  | .mctpControl i3c src body => Sys2Proof.Machine.execMctpControl i3c src body s
  | .getMeasurements i3c src body => Sys2Proof.Machine.execGetMeasurements i3c src body s
  | .healthBeacon => Sys2Proof.Machine.execHealthBeacon s
  | .serviceLogEventWrite => Sys2Proof.Machine.execServiceLogEventWrite s
  | .hourlyDigest => Sys2Proof.Machine.execHourlyDigest s
  | .marginSweep k => Sys2Proof.Machine.execMarginSweep k s
  | .marginSweepComplete k slacks => Sys2Proof.Machine.execMarginSweepComplete k slacks s
  | .telEvselWrite k n val => Sys2Proof.Machine.execTelEvselWrite k n val s
  | .snapGo g => Sys2Proof.Machine.execSnapGo g s
  | .maxclr => Sys2Proof.Machine.execMaxclr s
  | .traceFlush k => Sys2Proof.Machine.execTraceFlush k s
  | .traceStart k => Sys2Proof.Machine.execTraceStart k s
  | .dlBegin tr => Sys2Proof.Machine.execDlBegin tr s
  | .dlData tr => Sys2Proof.Machine.execDlData tr s
  | .dlFrom tr => Sys2Proof.Machine.execDlFrom tr s
  | .dlAbort tr => Sys2Proof.Machine.execDlAbort tr s
  | .verify tr => Sys2Proof.Machine.execVerify tr s
  | .verifyComplete => Sys2Proof.Machine.execVerifyComplete s
  | .activate tr => Sys2Proof.Machine.execActivate tr s
  | .activateQuiesced => Sys2Proof.Machine.execActivateQuiesced s
  | .quiesceTimeout => Sys2Proof.Machine.execQuiesceTimeout s
  | .handoffResume ok => Sys2Proof.Machine.execHandoffResume ok s
  | .confirm tr => Sys2Proof.Machine.execConfirm tr s
  | .autoConfirm => Sys2Proof.Machine.execAutoConfirm s
  | .reject tr => Sys2Proof.Machine.execReject tr s
  | .bar2Read f o n => Sys2Proof.Machine.execBar2Read f o n s
  | .bar2Write f o data => Sys2Proof.Machine.execBar2Write f o data s
  | .hostCompletion tag status poison data => Sys2Proof.Machine.execHostCompletion tag status poison data s
  | .hostCompletionTimeout tag => Sys2Proof.Machine.execHostCompletionTimeout tag s
  | .msixUnmask f v => Sys2Proof.Machine.execMsixUnmask f v s
  | .msixHoldoffExpiry f v => Sys2Proof.Machine.execMsixHoldoffExpiry f v s
  | .pcieConfigAccess f op => Sys2Proof.Machine.execPcieConfigAccess f op s
  | .registerWrite f off n val => Sys2Proof.Machine.execRegisterWrite f off n val s
  | .perstNRise => Sys2Proof.Machine.execPerstNRise s
  | .flowOkRise ps => Sys2Proof.Machine.execFlowOkRise ps s
  | .sleepEntryComplete core => Sys2Proof.Machine.execSleepEntryComplete core s
  | .memoryResponse home a b => Sys2Proof.Machine.execMemoryResponse home a b s
  | .flashOperationComplete ok => Sys2Proof.Machine.execFlashOperationComplete ok s
  | .pcRetrainComplete c ok hit => Sys2Proof.Machine.execPcRetrainComplete c ok hit s
  | .errorCheckAndScrub a => Sys2Proof.Machine.execErrorCheckAndScrub a s
  | .tck tms tdi trstN => Sys2Proof.Machine.execTck tms tdi trstN s
  | .spdmOverMctp i3c src body => Sys2Proof.Machine.execSpdmOverMctp i3c src body s

end Sys2Proof.Machine
end

