-- ==== Sys2Proof/Safety.lean ====
section
/-!
DEFINITION. What the statements call a command that can act: the conditions, on the state and the operands alone, under which the
spec has a command take its own effect.
-/

namespace Sys2Proof.Machine

/-- A step takes an effect: it stops neither with a fault nor with a refusal. -/
def Completes (s : State) : Prop := ∃ t, step s = .next t

/-- The command in flight (q, i) is `fl`, not ended, of opcode `op`; its step domain is not HALTED (R164) and its core is available
(R332). -/
abbrev State.Live (s : State) (q i op : Nat) (fl : Flight) : Prop :=
  s.running q i op = some fl ∧ s.stepState fl.fn ≠ 4 ∧ s.unavailable fl.core = false

/-- A live command that its engine may work on: its current is granted (R480), no earlier tile command of its core is unfinished (R69),
its domain does not wait for a flip (R160), and no injected hang holds it (R467). -/
abbrev State.Works (s : State) (q i op : Nat) (fl : Flight) : Prop :=
  s.Live q i op fl ∧ fl.powered = true ∧ s.behindTile fl = false ∧ s.waitsFlip fl = false ∧ s.hangs fl = none

/-- The reserved bytes of a control command are zero (R316). -/
abbrev reservedZero (op : Nat) (fl : Flight) : Prop := (controlReserved op).all (fun o => byteAt fl.bytes o == 0) = true

/-- The 128-byte descriptor of a command, 64-byte aligned and in memory its function may read, is `d`. -/
abbrev State.Describes (s : State) (fl : Flight) (d : List Byte) : Prop :=
  fieldAt fl.bytes 32 8 % 64 = 0 ∧ s.refused fl.fn (fieldAt fl.bytes 32 8) 128 false = none
    ∧ s.engRead fl.fn (fieldAt fl.bytes 32 8) 128 = d

/-- The generators of the command's core are valid and no other command holds them (R205, R208). -/
abbrev State.MayDraw (s : State) (q i : Nat) (fl : Flight) : Prop :=
  s.rngHeldByOther fl.core q i = false ∧ s.rngValid fl.core = true

/-- What a drawing command (q, i) that its work has led to `t` leaves: has it ended with a status other than OK, its core's generator states
are those of the state `s` in which it began (R207). -/
def State.afterDraw (s : State) (q i : Nat) (fl : Flight) (t : State) : State :=
  match t.flight? q i with
  | some f => if f.ended && f.status != 0 then t.rollback fl.core (s.core fl.core).lanes else t
  | none => t

/-- Thread t of core c may issue an instruction, of a movement thread when `move`, for the program of the command `fl` that runs on the
core (R224, R225, R318). -/
abbrev State.Issues (s : State) (c t : Nat) (move : Bool) (fl : Flight) : Prop :=
  c < Config.cores ∧ t < 16 ∧ (12 ≤ t ↔ move = true) ∧ s.threadReady c t = true ∧ s.awake c = true ∧ s.vprogFlight c = some fl
    ∧ fl.cancel = false

/-- Message `m` of type `t` from link `n` stands at place `k` of the inbox. -/
abbrev State.Arrived (s : State) (k t n : Nat) (m : FabMsg) : Prop := s.fabric.inbox[k]? = some (n, m) ∧ m.mtype = t

/-- The state without the message at place `k` of the inbox. -/
def State.withoutMsg (s : State) (k : Nat) : State := { s with fabric := { s.fabric with inbox := s.fabric.inbox.eraseIdx k } }

/-- The object-dictionary request that transport `tr` has outstanding is `r`, and the security core is present to serve it (R514). -/
abbrev State.Serves (s : State) (tr : Nat) (r : OdRequest) : Prop :=
  tr < 4 ∧ s.jrn.requests.find? (fun x => x.tr == tr && !x.started) = some r ∧ s.isAbsent 0 = false

/-- Transport `tr` has the write of the action entry (index, sub) outstanding, its checks hold, and its value is `v`, which is not the
BOOL 0 that does nothing. -/
abbrev State.Commands (s : State) (tr index sub : Nat) (r : OdRequest) (v : Nat) : Prop :=
  s.Serves tr r ∧ r.op = 2 ∧ r.index = index ∧ r.sub = sub ∧ s.odRefused r = none ∧ leNat r.value = v ∧ v ≠ 0

/-- What every step keeps (R8, R309, R412, R464, R564): memory, its seals, the register file and the semaphores in canonical form, BEAT within its 64 bits and its phase within
the beat, at most 256 events waiting for the service log and at most 256 records in the error ring. -/
def State.Inv (s : State) : Prop :=
  Memory.wf s.mem ∧ smapWf regCold s.regs = true ∧ s.beat < 2 ^ 64 ∧ s.ps < 1000000 ∧ s.slogQ.length ≤ 256 ∧ s.faults.ring.length ≤ 256
    ∧ smapWf (fun _ => (0 : W64)) s.sems = true ∧ smapWf (fun _ => 0xFFFFFFFF#32) s.seals = true

/-- What configures the device beside its registers: the time base and its logic, the arbiter, PCIe configuration, waiting clears and latches of counters, object
dictionary values, absent processors, boot and pins, selections in force, open windows and a cluster reset in progress. -/
def State.conf (s : State) :=
  (s.beat, s.ticks, s.sorter, s.pcie, s.vfEnable, s.numVfs, s.ctrClears, s.lowLatch, s.beatLogic, s.od, s.absent, s.boot, s.evsel, s.barOpen, s.clrst, s.clrstAt)

/-- The commands that may store to memory or act on a semaphore, at once or through what they set going. -/
def storesSomething : Instr → Bool
  | .signal .. | .report .. | .matmul .. | .matmulAcc .. | .attnFwd .. | .attnBwd .. | .bwdIn .. | .bwdW .. | .convert .. | .stats .. | .rotate ..
  | .codebookUpd .. | .optStep .. | .copy .. | .gather .. | .scatter .. | .compress .. | .decompress .. | .allreduce .. | .reduceScatter ..
  | .allgather .. | .broadcast .. | .reduce .. | .alltoallv .. | .barrier .. | .stepBegin .. | .stepCommitSample .. | .stepAbort ..
  | .normWatch .. | .sample .. | .rngSave .. | .rngLoad .. | .ld .. | .st .. | .mvLd .. | .mvSt .. | .mvPf .. | .mvBulk .. | .semaddRel ..
  | .doorbellWrite .. | .commandFetch .. | .commandComplete .. | .qmgCancel .. | .queueReset .. | .migrationDrainDone .. | .qmgSemvalWrite ..
  | .qmgSemadd .. | .granuleActionDone | .commitFlip .. | .commitTimeout .. | .c2Entry .. | .c3Entry .. | .wakeComplete .. | .wr .. | .sig ..
  | .rddata .. | .wrack .. | .remoteRequestTimeout .. | .colData .. | .colPmk .. | .colAck .. | .colReady .. | .colCtrl .. | .colSpot ..
  | .colVerdict .. | .colDecision .. | .colReadyResend .. | .chunkResend .. | .collectiveTimeout .. | .gets .. | .getm .. | .upg .. | .readnc .. | .writenc .. | .putm .. | .pute .. | .puts .. | .datas ..
  | .datae .. | .datam .. | .ack .. | .invack .. | .snpdata .. | .snpack .. | .miss .. | .missPutPending .. | .snoopTimeout .. | .fcpActionDone
  | .tgDone .. | .iftComplete .. | .coreHang .. | .clusterResetDone | .pwrGoodRise .. | .bootStepComplete | .bootTimeout | .pwrGoodFall ..
  | .perstN | .hotReset | .flr .. | .pfFlr | .vfEnableClear | .powerLoss .. | .flowStop .. | .thermalTrip | .processorReturn .. | .applyNow ..
  | .traceFlush .. | .handoffResume .. | .bar2Write .. | .hostCompletion .. | .memoryResponse .. => true
  | _ => false

/-- The commands that may change what configures the device (`State.conf`). -/
def configures : Instr → Bool
  | .sorterGrant | .beatBoundary .. | .counterLowRead .. | .ctrClear .. | .timeSyncSend .. | .timeReplyReceive .. | .trimUpdate | .acquireTimeout
  | .hubClrst .. | .clusterResetDone | .pwrGoodRise .. | .bootStepComplete | .bootTimeout | .pwrGoodFall .. | .perstN | .hotReset | .flr ..
  | .pfFlr | .vfEnableClear | .powerLoss .. | .thermalTrip | .railFault .. | .watchdogReset .. | .processorReturn .. | .odWrite ..
  | .journalBatchPersisted .. | .dlBegin .. | .dlData .. | .activateQuiesced | .handoffResume .. | .pcieConfigAccess .. | .perstNRise
  | .flashOperationComplete .. | .tck .. => true
  | _ => false

end Sys2Proof.Machine
end

