-- ==== Sys2Proof/Certificates/Slice0/Obligations.lean ====
section
/-!
DEFINITION. The statements for the provers. Those on commands say, for every state and operands that meet their hypotheses, that the command answers a next
state, that of its own effect, named by the operation of the model that its rule describes.
-/

open Sys2Proof Sys2Proof.Machine

/-- The queue of waiting commands (log 1): a step with a command in front is that command's effect on the state with the rest of the queue, and a step on
an empty queue changes nothing. The model's choices in it: log 1. -/
def Obligations.StepRunsFront : Prop :=
  (∀ (c : Instr) (rest : List Instr) (s : State), step { s with pending := c :: rest } = exec c { s with pending := rest })
  ∧ ∀ s : State, s.pending = [] → step s = .next s

/-- Control commands end with OK (R316): NOP at once; FENCE with no earlier command of its queue in flight; WAIT on an owned or null semaphore whose
condition holds; TIMER and TIMER_EXPIRY from their beat on; DRAIN_MARK when no earlier command of its queue on its core is in flight. WAIT_TIMEOUT
ends a WAIT whose TIMEOUT beats have passed with TIMEOUT and the beats waited; SIGNAL on its own node acts on an owned semaphore and lets waiting
heads look at it; REPORT of KIND 0 stores the queue's 64 bytes at its address, of KIND 1 the record that the beat boundary captured (R316, R553). The
model's choices in it: log 2, 5, 14. -/
def Obligations.ControlCommandsEnd : Prop :=
  (∀ (q i : Nat) (fl : Flight) (s : State),
       (s.Live q i 0 fl → reservedZero 0 fl → exec (.nop q i) s = .next (s.endFlight q i 0 0))
       ∧ (s.Live q i 1 fl → reservedZero 1 fl → (byteAt fl.bytes 32 = 2 ∨ byteAt fl.bytes 32 = 3) → s.earlierInFlight fl = false →
           exec (.fence q i) s = .next (s.endFlight q i 0 0))
       ∧ (s.Live q i 2 fl → reservedZero 2 fl → fieldAt fl.bytes 32 4 < 2 ^ 20 → byteAt fl.bytes 36 < 2 →
           s.semDenied fl.fn (fieldAt fl.bytes 32 4) = false → s.waitHolds fl.bytes = true →
           exec (.wait q i) s = .next (s.endFlight q i 0 0))
       ∧ (s.Live q i 4 fl → reservedZero 4 fl → fieldAt fl.bytes 32 8 ≤ s.beat →
           exec (.timer q i) s = .next (s.endFlight q i 0 0) ∧ exec (.timerExpiry q i) s = .next (s.endFlight q i 0 0))
       ∧ (s.Live q i 6 fl → reservedZero 6 fl →
           (∀ g ∈ s.flights, g.queue = q → g.core = (s.queue q).core → g.stale = false → g.index = i ∨ 2 ^ 31 ≤ modSub 32 fl.index g.index) →
           exec (.drainMark q i) s = .next (s.endFlight q i 0 0)))
  ∧ (∀ (q i : Nat) (fl : Flight) (s : State),
       (s.Live q i 2 fl → fieldAt fl.bytes 48 4 ≠ 0 → fl.grantTick + fieldAt fl.bytes 48 4 ≤ s.ticks → s.waitHolds fl.bytes = false →
           exec (.waitTimeout q i) s = .next (s.endFlight q i 9 (s.ticks - fl.grantTick)))
       ∧ (s.Live q i 3 fl → reservedZero 3 fl → fieldAt fl.bytes 32 4 < 2 ^ 20 → byteAt fl.bytes 36 < 3 → byteAt fl.bytes 39 < 16 →
           (fieldAt fl.bytes 38 2 = 0xFFF ∨ fieldAt fl.bytes 38 2 = s.node) → s.semDenied fl.fn (fieldAt fl.bytes 32 4) = false →
           exec (.signal q i) s
             = .next (((s.semOp (fieldAt fl.bytes 32 4) (byteAt fl.bytes 36) (fieldAt fl.bytes 40 8)).endFlight q i 0 0).refreshHeads))
       ∧ (s.Live q i 5 fl → reservedZero 5 fl → fieldAt fl.bytes 32 8 % 64 = 0 → byteAt fl.bytes 41 < 16 → byteAt fl.bytes 40 = 0 →
           exec (.report q i) s = .next ((s.runJob fl.fn q i false none
             [{ reads := [], writes := [(fieldAt fl.bytes 32 8, s.queueReport q)] }]).finish q i {}))
       ∧ ∀ rec_ : List Byte, s.Live q i 5 fl → reservedZero 5 fl → fieldAt fl.bytes 32 8 % 64 = 0 → byteAt fl.bytes 41 < 16 →
           byteAt fl.bytes 40 = 1 → (fl.fn = 0 ∨ (s.snapList (byteAt fl.bytes 41)).all (vfOffset fl.fn) = true) →
           s.tel.captures.find? (fun x => x.1 == q && x.2.1 == i) = some (q, i, rec_) →
           exec (.report q i) s
             = .next ((s.runJob fl.fn q i false none [{ reads := [], writes := [(fieldAt fl.bytes 32 8, rec_)] }]).finish q i {}))

/-- Commands enter a queue (R304 to R308, R310, R311, R325): a valid doorbell moves TAIL and CDONE; a fetch reads the next ring slot, advances HEAD and
keeps the command waiting for readiness; NOT_BEFORE_REACHED looks at the heads; a head ready for AGE_CAP beats is promoted. -/
def Obligations.CommandsEnterQueues : Prop :=
  ∀ (f q tail cdone b : Nat) (h : Fetched) (rest : List Fetched) (s : State), f < 512 → q < Config.queues →
    (s.reaches f = true → s.ownsQueue f q = true → (s.queue q).state ≠ 0 → (s.queue q).state ≠ 4 → (s.queue q).stopping = 0 →
      (s.queue q).doorbellValid tail cdone = true →
      exec (.doorbellWrite f q 8 tail cdone) s
        = .next (s.setQueue q { s.queue q with tail := tail % 2 ^ 32, cdone := cdone % 2 ^ 32 }))
    ∧ (∀ (a : Nat) (cmd : List Byte), (s.queue q).state ≠ 0 → (s.queue q).state ≠ 4 → (s.queue q).stopping = 0 →
      (s.queue q).head ≠ (s.queue q).tail → s.fatal = false →
      a = (s.queue q).ring + (s.queue q).head % (s.queue q).size * 64 → cmd = s.ncBytes a 64 → s.slotBad (s.fnOfQueue q) a = false →
      (s.queue q).cancelMarks.contains (s.queue q).head = false → headerMalformed cmd = none → s.headerDenied (s.fnOfQueue q) cmd = none →
      exec (.commandFetch q) s
        = .next ((((s.traffic a 64 false).setQueue q { s.queue q with
              head := ((s.queue q).head + 1) % 2 ^ 32, cancelMarks := (s.queue q).cancelMarks.filter (· != (s.queue q).head) }).modQueue q
            (fun y => { y with fetched := y.fetched ++ [{ index := (s.queue q).head, bytes := cmd, latched := [], nbReached := false, readyBeat := none, promoted := none, prebooked := false }] })).refreshHeads))
    ∧ exec (.notBeforeReached q) s = .next s.refreshHeads
    ∧ ((s.queue q).fetched = h :: rest → h.readyBeat = some b → h.promoted = none →
        b + zeroAs 1000 (s.fld A.QMG_CFG 47 32) ≤ s.ticks →
        exec (.agePromotion q) s
          = .next ((s.setQueue q { s.queue q with fetched := { h with promoted := some s.ticks } :: rest }).refreshHeads))

/-- SORTER_GRANT (R322, R323, R325): of several eligible heads the one promoted first is granted; with none promoted, the one the weighted round robin
names. The grant moves the head from its queue to the commands in flight. COMMAND_COMPLETE (R312) takes an ended command out. The model's choices in
it: log 14. -/
def Obligations.GrantsAndCompletions : Prop :=
  ∀ (q i m : Nat) (withheld : Bool) (fl : Flight) (s : State),
    (∀ (es : List (Nat × Queue)) (s1 : State), s.eligibleQueues = es → es ≠ [] → s1 = (if es.length = 1 then s else s.count A.QMG_FULL_CYC) →
        (∀ t : Nat, oldestPromotion es = some (t, q) → exec .sorterGrant s = .next ((s1.count A.QMG_AGE_PROMO).grantQueue q))
        ∧ (∀ o : Sorter, oldestPromotion es = none → s1.arbitrate es = (q, o) →
            exec .sorterGrant s = .next (({ s1 with sorter := o } : State).grantQueue q)))
    ∧ (∀ (h : Fetched) (rest : List Fetched), (s.queue q).fetched = h :: rest → ∃ t : State,
        s.grantQueue q = State.refreshHeads t ∧ t.flights = s.flights ++ [s.newFlight q (s.queue q) h]
          ∧ t.queues = (s.setQueue q { s.queue q with fetched := rest }).queues ∧ t.sorter.lastGrant = some (q, h.index))
    ∧ (s.flight? q i = some fl → fl.ended = true → fl.waiting = 0 →
        exec (.commandComplete q i m withheld) s = .next (s.completeFlight fl m withheld).forceNext)

/-- QMG_CANCEL (R327): each index named is cancelled, once, and the cancel is counted for the function. The queue actions (R333, R336) of a function that
reaches its registers, on a queue it owns that no other action holds, with the scheduler core present. Registers of the queue manager (R309, R331,
R336): QMG_SEMVAL and QMG_SEMADD act on an owned semaphore and let the heads look; QMG_DLQ_BASE takes its value, and WR, RD and SEQ start at zero. The
model's choices in it: log 16. -/
def Obligations.QueuesControlled : Prop :=
  (∀ (f core q index : Nat) (from_ same : Bool) (s : State), f < 512 → s.reaches f = true →
       (q < Config.queues → s.ownsQueue f q = true → (from_ = true → modSub 32 (s.queue q).tail index ≤ 2 ^ 17) →
         exec (.qmgCancel f q index from_ same) s = .next (((((s.queue q).cancelList index from_).foldl (fun t i => t.cancelOne q i same) s).count
           (A.QMGF f 0x90)).refreshHeads))
       ∧ (s.selected f = q → s.isAbsent 2 = false → s.ownsQueue f q = true → (s.queue q).busy = false →
         ((s.queue q).state = 0 → s.coreOk f core = true →
             s.contextOk f (s.queue q) = true →
             exec (.queueEnable f core) s = .next (((s.setFld (A.QMGF f 8) 24 16 core).setQueue q
               { s.queue q with state := 1, core := core, errState := 0 }).refreshHeads))
         ∧ ((s.queue q).state = 1 → exec (.queuePause f) s = .next ((s.setQueue q { s.queue q with state := 2 }).refreshHeads))
         ∧ ((s.queue q).state = 2 → exec (.queueResume f) s = .next ((s.resume f q (s.queue q)).refreshHeads))
         ∧ ((s.queue q).state ≠ 0 → (s.queue q).state ≠ 3 →
             exec (.queueDisable f) s = .next (((s.setQueue q { s.queue q with stopping := 1 }).settleQueue q).refreshHeads))
         ∧ exec (.queueReset f) s = .next ((s.resetQueue q).refreshHeads)
         ∧ ((s.queue q).state = 1 → s.coreOk f core = true →
             exec (.migrate f core) s = .next (((s.setFld (A.QMGF f 8) 24 16 core).setQueue q { s.queue q with
               state := 3, epoch := (s.queue q).epoch + 1
               migration := some { oldCore := (s.queue q).core, newCore := core, drained := false, saved := false, since := s.ticks } }).refreshHeads))))
  ∧ (∀ (f val : Nat) (s : State), f < 512 → s.reaches f = true →
       (s.ownsSem f (s.fld (A.QMGF f 0x58) 19 0) = true →
         exec (.qmgSemvalWrite f val) s = .next ((s.setSem (s.fld (A.QMGF f 0x58) 19 0) val).refreshHeads)
         ∧ exec (.qmgSemadd f val) s = .next ((s.addSem (s.fld (A.QMGF f 0x58) 19 0) val).refreshHeads))
       ∧ exec (.dlqBaseWrite f val) s
           = .next ((((s.setReg (A.QMGF f 0x70) (setBits (setBits 0 63 11 (bitsOf val 63 11)) 4 0 val)).setReg (A.QMGF f 0x78) 0).setLetters f
               { lost := (s.letters f).lost, seq := 0 }).dlqFullBit f))

/-- The end of a migration (R328, R329): the drain mark done, the new core starts the queue, with the generators moved when they are bound; at the timeout
it starts too, and what is still in flight is stale. The model's choices in it: log 16. -/
def Obligations.MigrationsEnd : Prop :=
  ∀ (q : Nat) (m : Migration) (s : State), q < Config.queues → (s.queue q).migration = some m →
    (s.flights.any (fun f => f.queue == q && !f.stale) = false →
      ((s.queue q).rngBind = false → exec (.migrationDrainDone q) s = .next (s.migrateEnd q m))
      ∧ ((s.queue q).rngBind = true → s.rngHeldByOther m.oldCore q 0 = false → s.rngHeldByOther m.newCore q 0 = false →
          exec (.migrationDrainDone q) s = .next ((s.migrateRng q m).migrateEnd q m)))
    ∧ (m.since + zeroAs 50 (s.fld A.QMG_CFG 23 16) ≤ s.ticks → s.flights.any (fun f => f.queue == q && !f.stale) = true →
      (s.queue q).rngBind = false →
      exec (.migrationTimeout q) s = .next (({ s with flights := s.flights.map (fun (f : Flight) =>
        if f.queue == q then { f with stale := true } else f) } : State).migrateEnd q m))

/-- The tenant table and the granule actions (R320, R334, R335), written by a PF that BAR0 answers: an entry word is written; ASSIGN and QUERY set their
fields and go on until GRANULE_ACTION_DONE, which gives the granules to the function, or answers the owner and the run. The model's choices in it: log
15. -/
def Obligations.TenancyActs : Prop :=
  ∀ (f off val tier clear : Nat) (g : GranAction) (s : State),
    (f < 512 → tenantOffset off = true → s.reaches 0 = true → exec (.tenantEntryWrite f off val) s = .next (s.tenantWrite f off val))
    ∧ (f < 512 → tier < 2 → clear < 2 → s.reaches 0 = true → s.tiers.granAction = none →
        (s.assignRefused f tier (s.fld A.GRAN_RANGE 18 0) (s.fld A.GRAN_RANGE 50 32) = false →
          exec (.assign f tier clear) s = .next (({ s.granFields f tier clear with tiers := { (s.granFields f tier clear).tiers with
            granAction := some { zero := clear == 1, tier := tier, first := s.fld A.GRAN_RANGE 18 0, count := s.fld A.GRAN_RANGE 50 32, fn := f, query := false } } } : State).setFld A.GRAN_CMD 63 63 1))
        ∧ (s.fld A.GRAN_RANGE 18 0 < tierGranules tier →
          exec (.query f tier clear) s = .next (({ s.granFields f tier clear with tiers := { (s.granFields f tier clear).tiers with
            granAction := some { zero := clear == 1, tier := tier, first := s.fld A.GRAN_RANGE 18 0, count := s.fld A.GRAN_RANGE 50 32, fn := f, query := true } } } : State).setFld A.GRAN_CMD 63 63 1)))
    ∧ (s.tiers.granAction = some g → ∀ s1 : State,
        s1 = (({ s with tiers := { s.tiers with granAction := none } } : State).setFld A.GRAN_CMD 63 63 0) →
        (g.query = false → exec .granuleActionDone s
          = .next ((List.range g.count).foldl (fun t j => t.assignGranule g.zero g.tier (g.first + j) g.fn) s1))
        ∧ (g.query = true → exec .granuleActionDone s
          = .next ((s1.setFld A.GRAN_CMD 24 16 (s.granuleOwner g.tier g.first)).setFld A.GRAN_RANGE 50 32
              (s.runLength g.tier (s.granuleOwner g.tier g.first) (tierGranules g.tier - g.first) g.first))))

/-- The ledger (R476, R478, R486): ESC_GRANT enters the booking served next in the first window in which it fits; PREBOOK_EXPIRY releases a pre-booking
unused for PREBOOK_MAX windows and counts it. The model's choices in it: log 14. -/
def Obligations.TicketsGranted : Prop :=
  ∀ (r q i : Nat) (x : EscReq) (b : Booking) (s : State),
    (r < Config.rails → s.nextRequest r = some x → s.fits r x.amount (max x.earliest s.ticks) x.windows = true →
      exec (.escGrant r) s
        = .next (({ s with esc := { s.esc with waiting := s.esc.waiting.erase x } } : State).enter x (max x.earliest s.ticks)))
    ∧ (q < Config.queues → s.esc.bookings.find? (fun b => decide (b.owner = .pre q i) && b.stop.isNone) = some b →
      b.start + zeroAs 8 (bitsOf s.esc.cfg 47 40) ≤ s.ticks →
      exec (.prebookExpiry q i) s = .next ((s.release (.pre q i)).count (A.RAIL b.rail 0x30)))

/-- Training of a link of the device (R358, R369): an enabled ABSENT link with a partner and its current trains when a signal comes, and again 100 ms
after a failure; with at least one lane trained in time it authenticates; after 150 ms it is ABSENT. The model's choices in it: log 18. -/
def Obligations.LinksTrain : Prop :=
  ∀ (n lanes : Nat) (s : State), n < Config.links →
    (s.linkSt n = 0 → s.expects n = true → (s.link n).retryAt ≤ s.ticks →
      (120 ≤ s.linkTickets n → exec (.linkSignalDetect n) s = .next (s.linkTo n 1))
      ∧ ((s.link n).retryAt ≠ 0 → ∀ t : State, t = s.modLink n (fun l => { l with retryAt := 0 }) → 120 ≤ t.linkTickets n →
          exec (.trainingRetry n) s = .next (t.linkTo n 1)))
    ∧ (s.linkSt n = 1 → s.ticks ≤ (s.link n).since + 150000 → widthOf (laneCount lanes) ≠ 0 → ∀ t : State,
        t = (((s.setLanes n 255 (lanes % 256) (widthOf (laneCount lanes))).freshLink n).linkBook n 930).linkTo n 2 →
        exec (.trainingComplete n lanes) s = .next (if requester n then t.sendSpdm n 1 else t))
    ∧ (s.linkSt n = 1 → (s.link n).since + 150000 ≤ s.ticks →
        exec (.trainingTimeout n) s
          = .next ((((s.setLanes n 255 0 0).linkBook n 50).linkTo n 0).modLink n (fun l => { l with retryAt := s.ticks + 100000 })))

/-- Authentication of a link (R358, R360 to R363, R372, R576): an accepted exchange is followed by the next, the sixth by LINKPAR; a failed one, and 1.5
s, quarantine the link; an answer that the requester has awaited for 200 ms is asked for once more; matching parameters bring the link UP, or DEGRADED
with fewer than 8 lanes; without the security core the exchange waits. The model's choices in it: log 17. -/
def Obligations.LinksAuthenticate : Prop :=
  ∀ (n v : Nat) (p : LinkPar) (s : State), n < Config.links → s.linkSt n = 2 →
    (s.isAbsent 0 = false →
      ((s.link n).spdm < 6 →
        ((v = 1 ∨ v = 3 ∨ v = 9) → exec (.spdm n v) s = .next (s.quarantine n v))
        ∧ (∀ k : Nat, k = (s.link n).spdm + 1 → ∀ t : State, t = s.setLink n { s.link n with spdm := k, spdmBeat := s.ticks, spdmTwice := false } →
            (k < 6 → exec (.spdm n 0) s = .next (if requester n then t.sendSpdm n (k + 1) else t.sendSpdm n (0x10 + k)))
            ∧ (k = 6 → exec (.spdm n 0) s = .next ((if requester n then t else t.sendSpdm n (0x10 + k)).sendLinkpar n))))
      ∧ (requester n = true → (s.link n).spdmBeat + 200000 ≤ s.ticks →
        ((s.link n).spdmTwice = true → exec (.spdmResponseTimeout n) s = .next (s.quarantine n 1))
        ∧ ((s.link n).spdmTwice = false → ∀ t : State, t = s.setLink n { s.link n with spdmTwice := true, spdmBeat := s.ticks } →
            exec (.spdmResponseTimeout n) s = .next (if 6 ≤ (s.link n).spdm then t.sendLinkpar n else t.sendSpdm n ((s.link n).spdm + 1))))
      ∧ ((s.link n).spdm = 6 → s.linkparBad n p = none → ∀ t : State,
          t = ((s.setFld (A.LNK n 8) 63 52 (p.x + s.fabric.dimX * (p.y + s.fabric.dimY * p.z))).setFld (A.LNK n 8) 51 49 p.pos).setFld
            (A.LNK n 8) 48 46 p.dir →
          exec (.linkpar n p) s = .next ((t.modLink n (fun l => { l with
            credits := (List.range 6).foldl (fun c q => smapPut (fun _ => 0) c q (poolSize q)) l.credits, starve := [] })).linkTo n
              (if s.fld (A.LNK n 8) 11 8 = 8 then 3 else 4))))
    ∧ (s.isAbsent 0 = true → (v = 0 ∨ v = 1 ∨ v = 3 ∨ v = 9) →
        exec (.spdm n v) s = .next s ∧ exec (.spdmResponseTimeout n) s = .next s ∧ exec (.linkpar n p) s = .next s)
    ∧ ((s.link n).since + 1500000 ≤ s.ticks → exec (.authTimeout n) s = .next (s.quarantine n 2))

/-- Flits (R346, R347, R349): a link in AUTHENTICATING, UP or DEGRADED that does not retrain sends, in this order, CTRL flits, the next flit of a replay,
new data, IDLE; a received intact flit is counted and acted on, a damaged one asks for a replay; a received NAK starts the replay from the oldest flit
held. The model's choices in it: log 18. -/
def Obligations.FlitsMove : Prop :=
  ∀ (n corr : Nat) (flit : List Byte) (syms : List Nat) (s : State), n < Config.links →
    (2 ≤ s.linkSt n → s.linkSt n ≤ 4 → s.fld (A.LNK n 8) 3 3 = 0 → s.power.clocksOff = false →
      (∀ (c : Nat) (rest : List Nat), (s.link n).ctrl = c :: rest →
        exec (.flitTransmit n) s = .next ((s.setLink n { s.link n with ctrl := rest }).sendFlit n 2 0 0 0 0 0 [BitVec.ofNat 8 c]))
      ∧ ((s.link n).ctrl = [] →
        (∀ k : Nat, (s.link n).resend = some k → exec (.flitTransmit n) s = .next (s.sendReplay n k))
        ∧ (∀ (p : Nat) (o : Sorter), (s.link n).resend = none → (s.link n).replay.length < 256 → (s.link n).choosePool = some (p, o) →
            exec (.flitTransmit n) s = .next (s.sendData n p o))
        ∧ ((s.link n).resend = none → (s.link n).choosePool = none →
            exec (.flitTransmit n) s = .next (s.sendFlit n 0 0 0 0 0 0 []))))
    ∧ (2 ≤ s.linkSt n → s.linkSt n ≤ 4 → ∀ t : State, t = (((s.countSymbols n syms).count (A.LNK n 0x50) corr).count (A.LNK n 0x58) 0) →
        flit.length = 256 → (crc32ieee (flit.take 252)).toNat = fieldAt flit 252 4 → t.flitBroken n (fieldAt flit 0 8) = false →
        exec (.flitReceive n flit corr 0 syms) s = .next (t.takeFlit n (fieldAt flit 0 8) (flit.drop 8)))
    ∧ (∀ a : Nat, (s.link n).nakFrom = some a →
        exec (.nakReceive n) s = .next ((s.modLink n (fun l => { l with
          nakFrom := none, resend := if l.replay.isEmpty then none else some 0 })).count (A.LNK n 0x68)))
    ∧ ((s.link n).nakWait = true → exec (.nakRepeat n) s = .next (s.modLink n (fun l => { l with nakSend := true })))

/-- What goes wrong on a link that carries traffic (R358, R359, R364, R366, R367): a failed active lane starts a retrain; a retrain with a lane left ends
in UP or DEGRADED with its replay; no signal for 100 µs is ABSENT; a pool starved for 100 beats stalls; management pools starved for MGT_STALL ms
quarantine; 1,000 noisy beats are NOISY until 1,000 quiet ones. LNK_CTL writes of a PF that BAR0 answers (R365, R374): RETRAIN of a usable link tries
every lane; RELEASE lets a QUARANTINED link train with the partner's values gone; DISABLE holds the link ABSENT. The model's choices in it: log 18. -/
def Obligations.LinkTroubleAndControl : Prop :=
  (∀ (n lane lanes p b : Nat) (s : State), n < Config.links →
       (lane < 8 → bitOf (s.fld (A.LNK n 8) 23 16) lane = true →
         exec (.laneFailure n lane) s = .next ((s.setFld (A.LANE n lane 0) 0 0 0).retrain n false true))
       ∧ (s.fld (A.LNK n 8) 3 3 = 1 → s.linkUp n = true → (s.link n).allLanes = false → ∀ tried mask w : Nat,
           tried = 255 - s.fld (A.LNK n 8) 31 24 → mask = (lanes % 256 &&& tried) → w = min (s.fld (A.LNK n 8) 11 8) (widthOf (laneCount mask)) →
           w ≠ 0 → ∀ t : State, t = ((s.setLanes n tried mask w).release (.link (36 + n))).setFld (A.LNK n 8) 3 3 0 →
           exec (.retrainComplete n lanes) s
             = .next (((if w < s.fld (A.LNK n 8) 11 8 then t.setFld (A.LNK n 0x10) 3 3 1 else t).modLink n (fun l => { l with
                 resend := if l.replay.isEmpty then none else some 0, allLanes := false, timeBad := s.ticks + 3, sent := 0, resent := 0 })).linkTo n
                   (if w = 8 then 3 else 4)))
       ∧ (s.linkUp n = true → exec (.signalLossTimeout n) s = .next (s.linkAbsent n))
       ∧ ((s.link n).starve.find? (fun e => decide (100 ≤ e.2)) = some (p, b) → s.fld (A.LNK n 0x10) 8 8 = 0 →
           exec (.linkStall n) s = .next ((((s.setFld (A.LNK n 0x10) 0 0 1).setFld (A.LNK n 0x10) 8 8 1).modLink n (fun l =>
             { l with stallPool := p })).event 5 [(n, 1), (0, 1), (p, 1)]))
       ∧ ((p = 6 ∨ p = 7) → (p, b) ∈ (s.link n).starve → bitsOf (s.link n).cfg 63 48 ≠ 0 → 1000 * bitsOf (s.link n).cfg 63 48 ≤ b →
           2 ≤ s.linkSt n → s.linkSt n ≤ 4 → exec (.mgtStallQuarantine n) s = .next (s.quarantine n 7))
       ∧ (1000 ≤ (s.link n).noisy → s.fld (A.LNK n 0x10) 9 9 = 0 →
           exec (.linkNoisy n) s = .next (((s.setFld (A.LNK n 0x10) 1 1 1).setFld (A.LNK n 0x10) 9 9 1).event 5 [(n, 1), (1, 1), (0, 1)]))
       ∧ (1000 ≤ (s.link n).quiet → s.fld (A.LNK n 0x10) 9 9 = 1 → exec (.linkNoisyClear n) s = .next (s.setFld (A.LNK n 0x10) 9 9 0)))
  ∧ (∀ (n : Nat) (s : State), n < Config.links → s.reaches 0 = true →
       (s.usable n = true → ∀ t : State, t = (s.setFld (A.LNK n 8) 3 3 1).modLink n (fun l => { l with
             ctrl := l.ctrl ++ [1], allLanes := true, timeBad := s.ticks + 1000000 }) →
           exec (.retrain n) s = .next (((t.setFld (A.LNK n 0x10) 2 2 1).count (A.LNK n 0x98)).askSys railLnk 270 none false (.link (36 + n))))
       ∧ (s.linkSt n = 5 → ∀ t : State, t = (s.setFld (A.LNK n 8) 63 46 0).setFld (A.LNK n 8) 39 32 0 →
           exec (.release n) s = .next ((if t.esc.waiting.any (fun x => decide (x.owner = .link n)) then t else t.linkBook n 1200).linkTo n 1))
       ∧ (s.linkSt n ≠ 0 → exec (.disable n 1) s = .next ((s.setFld (A.LNK n 0) 1 1 1).linkAbsent n))
       ∧ (s.fld (A.LNK n 0) 1 1 = 1 → ∀ t : State, t = s.setFld (A.LNK n 0) 1 1 0 → t.expects n = true → t.holds (.link n) = false →
           exec (.disable n 0) s = .next (t.linkBook n 50)))

/-- A message of the fabric is taken from the inbox and served by its type: remote reads, writes, voids and signals and their answers (R345, R353 to
R356), the messages of collectives (R396 to R405), step decisions (R159), POWER messages while outputs are not held (R503); a message for another node
is forwarded (R352). The model's choices in it: log 17, 19 to 22, 25. -/
def Obligations.MessagesServed : Prop :=
  ∀ (k n : Nat) (m : FabMsg) (s : State),
    (s.Arrived k 1 n m → exec (.rd k) s = .next ((s.withoutMsg k).serveRd m))
    ∧ (s.Arrived k 2 n m → exec (.wr k) s = .next ((s.withoutMsg k).serveWr m))
    ∧ (s.Arrived k 3 n m → exec (.sig k) s = .next ((s.withoutMsg k).serveSig m))
    ∧ (s.Arrived k 4 n m → exec (.void_ k) s = .next ((s.withoutMsg k).serveVoid m))
    ∧ (s.Arrived k 0x10 n m → exec (.rddata k) s = .next ((s.withoutMsg k).rddata n m))
    ∧ (s.Arrived k 0x11 n m → exec (.wrack k) s = .next ((s.withoutMsg k).wrack n m))
    ∧ (s.Arrived k 0x12 n m → exec (.sigack k) s = .next ((s.withoutMsg k).sigAnswer n m))
    ∧ (s.Arrived k 0x20 n m → exec (.colData k) s = .next ((s.withoutMsg k).pruneCols.takeColData m))
    ∧ (s.Arrived k 0x21 n m → exec (.colPmk k) s = .next ((s.withoutMsg k).pruneCols.takePmk m))
    ∧ (s.Arrived k 0x22 n m → exec (.colAck k) s = .next ((s.withoutMsg k).pruneCols.takeAck m))
    ∧ (s.Arrived k 0x23 n m → exec (.colReady k) s = .next ((s.withoutMsg k).pruneCols.takeReady m))
    ∧ (s.Arrived k 0x24 n m → exec (.colCtrl k) s = .next ((s.withoutMsg k).pruneCols.takeCtrl m))
    ∧ (s.Arrived k 0x25 n m → exec (.colSpot k) s = .next ((s.withoutMsg k).pruneCols.takeSpot m))
    ∧ (s.Arrived k 0x26 n m → exec (.colVerdict k) s = .next ((s.withoutMsg k).pruneCols.takeVerdictMsg m))
    ∧ (s.Arrived k 0x27 n m → exec (.colDecision k) s = .next ((s.withoutMsg k).takeDecision m))
    ∧ (s.Arrived k 0x32 n m → s.held = false → exec (.power k) s = .next ((s.withoutMsg k).powerMessage m))
    ∧ ∀ k0 c0 : Nat, s.fabric.forward[k]? = some (k0, c0, m) →
        exec (.messageForward k) s
          = .next (({ s with fabric := { s.fabric with forward := s.fabric.forward.eraseIdx k } } : State).transmit m k0 c0)

/-- Requests that leave the device end (R354, R604, R606): a remote request after 1,000 beats, a host request at its completion, which gives the bytes to
the movement, or with an error status or poison ends its command, and at its timeout. The model's choices in it: log 19. -/
def Obligations.OutsideRequestsEnd : Prop :=
  ∀ (tag status dst len : Nat) (data : List Byte) (r : RemoteReq) (s : State),
    (s.findRequest false tag = some r → r.since + 1000 ≤ s.ticks → ∀ t : State, t = s.dropRequest false tag →
      (∀ c id : Nat, r.kind = .core c id → exec (.remoteRequestTimeout tag) s = .next (t.coreAnswer c id none (some (9, s.ticks - r.since))))
      ∧ (r.kind = .void → exec (.remoteRequestTimeout tag) s = .next (t.answered r.queue r.index none))
      ∧ ((∀ c id : Nat, r.kind ≠ .core c id) → r.kind ≠ .void →
          exec (.remoteRequestTimeout tag) s = .next (t.answered r.queue r.index (some (9, s.ticks - r.since, false)))))
    ∧ (s.findRequest true tag = some r → ∀ t : State, t = s.dropRequest true tag →
      (r.kind = .read dst len →
        (len ≤ data.length → exec (.hostCompletion tag 0 false data) s
          = .next ((t.fetched r.queue r.index dst (data.take len)).answered r.queue r.index none))
        ∧ (status ≠ 0 → exec (.hostCompletion tag status false data) s = .next (t.answered r.queue r.index (some (7, r.addr, false))))
        ∧ exec (.hostCompletion tag 0 true data) s = .next (t.answered r.queue r.index (some (3, r.addr, false))))
      ∧ (r.since + (s.fnPcie 0).cplTimeout ≤ s.ticks →
          exec (.hostCompletionTimeout tag) s = .next (t.answered r.queue r.index (some (9, s.ticks - r.since, false)))))

/-- Tile commands (R72, R79, R80, R175, R176): MATMUL, MATMUL_ACC, BWD_IN and BWD_W with a sound command and descriptor do their work, with the cancel
operand in force only on a cancelled command; RAMP_HOLD_EXPIRY takes the ramp of a core down. The model's choices in it: log 5, 34. -/
def Obligations.TileCommandsRun : Prop :=
  ∀ (q i c : Nat) (stop : Option Nat) (fl : Flight) (d : List Byte) (s : State),
    (s.Describes fl d → (s.matCmd fl.fn fl.bytes d).bad fl.bytes d = none →
      (s.Works q i 0x10 fl → exec (.matmul q i stop) s = .next (s.runMat q i stop fl d))
      ∧ (s.Works q i 0x11 fl → exec (.matmulAcc q i stop) s = .next (s.runMat q i stop fl d))
      ∧ (s.Works q i 0x14 fl → exec (.bwdIn q i stop) s = .next (s.runMat q i stop fl d))
      ∧ (s.Works q i 0x15 fl → exec (.bwdW q i stop) s = .next (s.runMat q i stop fl d)))
    ∧ (c < Config.cores → s.fld (A.CUB c 8) 5 5 = 1 →
        exec (.rampHoldExpiry c) s = .next (((s.setFld (A.CUB c 8) 10 8 0).setFld (A.CUB c 8) 5 5 0).countCycles (A.CUB c 0x38)))

/-- Commands with a descriptor beside the tile's: attention forward and backward (R193, R194), CONVERT, STATS, ROTATE (R124, R133), OPT_STEP (R181), and
CODEBOOK_UPD (R130). One that draws random numbers does so while no other command holds the generators, which are valid. The model's choices in it:
log 5, 35 to 37. -/
def Obligations.DescribedCommandsRun : Prop :=
  ∀ (q i : Nat) (stop : Option Nat) (fl : Flight) (d : List Byte) (s : State), s.Describes fl d →
    ((attnCmd fl.bytes d).bad fl.bytes d = none →
      (s.Works q i 0x12 fl → exec (.attnFwd q i stop) s = .next (s.runAttn q i stop fl d))
      ∧ (s.Works q i 0x13 fl → (attnCmd fl.bytes d).srDs = false → exec (.attnBwd q i stop) s = .next (s.runAttn q i stop fl d)))
    ∧ ((s.convCmd fl.fn fl.core fl.bytes d).bad fl.bytes d = none → (s.convCmd fl.fn fl.core fl.bytes d).draws = false →
      (s.Works q i 0x30 fl → exec (.convert q i stop) s = .next (s.runConv q i stop fl d))
      ∧ (s.Works q i 0x31 fl → exec (.stats q i stop) s = .next (s.runConv q i stop fl d))
      ∧ (s.Works q i 0x32 fl → exec (.rotate q i stop) s = .next (s.runConv q i stop fl d)))
    ∧ ((optCmd fl.bytes d).bad fl.bytes d = none → (optCmd fl.bytes d).sr = false → s.Works q i 0x41 fl →
        exec (.optStep q i stop) s = .next (s.runOpt q i stop fl d))
    ∧ (s.Works q i 0x33 fl → byteAt fl.bytes 62 < 4 → byteAt fl.bytes 63 = 0 → bitOf (byteAt fl.bytes 62) 0 = false →
        exec (.codebookUpd q i) s = .next (s.runBook q i fl))

/-- A command that draws (R205, R207, R208), here the drawing forms of attention backward, conversion, OPT_STEP and CODEBOOK_UPD: with valid generators
that no other command holds it does its work, and if it then has ended with a status other than OK the core's generator states are as before it. The
model's choices in it: log 5, 35 to 37. -/
def Obligations.DrawingCommandsRun : Prop :=
  ∀ (q i : Nat) (stop : Option Nat) (fl : Flight) (d : List Byte) (s : State), s.MayDraw q i fl →
      (s.Describes fl d →
        (s.Works q i 0x13 fl → (attnCmd fl.bytes d).bad fl.bytes d = none → (attnCmd fl.bytes d).srDs = true →
          exec (.attnBwd q i stop) s = .next (s.afterDraw q i fl (s.runAttn q i stop fl d)))
        ∧ ((s.convCmd fl.fn fl.core fl.bytes d).bad fl.bytes d = none → (s.convCmd fl.fn fl.core fl.bytes d).draws = true →
          (s.Works q i 0x30 fl → exec (.convert q i stop) s = .next (s.afterDraw q i fl (s.runConv q i stop fl d)))
          ∧ (s.Works q i 0x32 fl → exec (.rotate q i stop) s = .next (s.afterDraw q i fl (s.runConv q i stop fl d))))
        ∧ (s.Works q i 0x41 fl → (optCmd fl.bytes d).bad fl.bytes d = none → (optCmd fl.bytes d).sr = true →
          exec (.optStep q i stop) s = .next (s.afterDraw q i fl (s.runOpt q i stop fl d))))
      ∧ (s.Works q i 0x33 fl → byteAt fl.bytes 62 < 4 → byteAt fl.bytes 63 = 0 → bitOf (byteAt fl.bytes 62) 0 = true →
          exec (.codebookUpd q i) s = .next (s.afterDraw q i fl (s.runBook q i fl)))
      ∧ (s.Works q i 0x80 fl → sampleBad fl = none → exec (.sample q i stop) s = .next (s.afterDraw q i fl (s.sampleRows q i stop fl)))
      ∧ (s.Works q i 0x81 fl → s.rngBad false fl = none → exec (.rngSave q i) s = .next (s.afterDraw q i fl (s.saveLanes q i fl)))

/-- Data movement and compression (R186 to R189, R317): a sound COPY, GATHER or SCATTER with nothing outstanding starts its movement; COMPRESS and
DECOMPRESS work through their segments. RNG_LOAD (R204, R212) seeds the generators, or takes a verified area. The model's choices in it: log 19, 37. -/
def Obligations.MovementCommandsRun : Prop :=
  ∀ (q i : Nat) (stop : Option Nat) (fl : Flight) (s : State),
    (fl.waiting = 0 →
      (s.Works q i 0x50 fl → s.copyBad fl = none → exec (.copy q i stop) s = .next (s.copyCommand fl stop))
      ∧ (s.Works q i 0x51 fl → s.rowsBad 40 fl = none → exec (.gather q i stop) s = .next (s.rowsCommand fl stop false))
      ∧ (s.Works q i 0x52 fl → s.rowsBad 32 fl = none → exec (.scatter q i stop) s = .next (s.rowsCommand fl stop true)))
    ∧ (s.Works q i 0x53 fl → (compCmd fl.bytes).bad = none → exec (.compress q i stop) s = .next (s.runCompress q i stop fl))
    ∧ (s.Works q i 0x54 fl → s.decompBad fl = none → exec (.decompress q i stop) s = .next (s.runDecompress q i stop fl))
    ∧ (s.Works q i 0x82 fl → s.rngBad true fl = none → s.rngHeldByOther fl.core q i = false →
        (byteAt fl.bytes 40 = 1 → exec (.rngLoad q i) s = .next (s.seedLanes q i fl))
        ∧ (byteAt fl.bytes 40 = 0 → exec (.rngLoad q i) s = .next (s.areaLanes q i fl)))

/-- Collectives (R380 to R411): each of the seven starts when its communicator, descriptor and buffers hold; its READY messages to the sources still
silent, and its unacknowledged chunks, are sent again after CHUNK_RESEND beats; after its timeout it ends with TIMEOUT. What the start of a collective
is (R383 to R390): with the communicator, its members and the descriptor readable and sound, every input readable and every output writable, a key for
the fabric where another node takes part, no ABORT held for it, and valid seals, it runs with its plan, sends READY and its spot samples, goes on as
far as it can, and takes the messages that came early. The model's choices in it: log 20. -/
def Obligations.CollectivesRun : Prop :=
  (∀ (q i : Nat) (fl : Flight) (c : Collective) (s t : State), t = s.pruneCols →
       (colBad fl = none → t.findCol q i = none →
         (t.Works q i 0x60 fl → exec (.allreduce q i) s = .next (t.startCol fl))
         ∧ (t.Works q i 0x61 fl → exec (.reduceScatter q i) s = .next (t.startCol fl))
         ∧ (t.Works q i 0x62 fl → exec (.allgather q i) s = .next (t.startCol fl))
         ∧ (t.Works q i 0x63 fl → exec (.broadcast q i) s = .next (t.startCol fl))
         ∧ (t.Works q i 0x64 fl → exec (.reduce q i) s = .next (t.startCol fl))
         ∧ (t.Works q i 0x65 fl → exec (.alltoallv q i) s = .next (t.startCol fl))
         ∧ (t.Works q i 0x66 fl → exec (.barrier q i) s = .next (t.startCol fl)))
       ∧ (t.findCol q i = some c →
         (c.sources.filter (fun r => !c.heard.contains r) ≠ [] → c.readyBeat + t.chunkResend ≤ t.ticks →
           exec (.colReadyResend q i) s = .next ((t.sendReady c (c.sources.filter (fun r => !c.heard.contains r))).putCol { c with readyBeat := t.ticks }))
         ∧ (∀ due : ChunkOut → Bool, due = (fun o => !o.waits && decide (o.sentBeat + t.chunkResend ≤ t.ticks)) →
             c.out.any (fun o => due o && decide (zeroAs 2 (t.fld A.COL_CFG 11 8) ≤ o.resends)) = false →
             exec (.chunkResend q i) s = .next (((c.out.filter due).foldl (fun u o => (u.sendChunk c o).count (A.COL 0x30)) t).putCol
               { c with out := c.out.map (fun o => if due o then { o with resends := o.resends + 1, sentBeat := t.ticks } else o) }))
         ∧ (c.since + t.colTimeout c ≤ t.ticks →
             exec (.collectiveTimeout q i) s = .next ((t.sendAborts c).endCol c 9 (colDetail c.algo 0 (t.ticks - c.since) c.awaited)))))
  ∧ (∀ (fl : Flight) (c c1 : Collective) (s s1 s2 : State), c = s.newCol fl →
       (∀ r ∈ s.colTables fl, s.refused fl.fn r.1 r.2 false = none) →
       s.commBad fl.fn (fieldAt fl.bytes 40 4) = false → (c.op ≠ 0x66 → c.descBad = none) →
       (∀ r ∈ c.inputs ++ c.arrays, s.refused fl.fn r.1 r.2 false = none) → (∀ r ∈ c.outputs, s.refused fl.fn r.1 r.2 true = none) →
       c.op ≠ 0x65 → s.mayRemote fl.fn = true → s.abortHeld c = false → s.colCheck c = (s1, none) →
       c1 = { c with vecs := s1.colVectors c, levels := c.geo.plan c.op c.algo c.a2a } →
       s2 = ({ s1 with col := { s1.col with
         running := s1.col.running ++ [c1], done := s1.col.done.filter (· != (c.fn, c.commId, c.seq)) } } : State).colStatus →
       s.startCol fl = ((((s2.sendReady c1 c1.sources).sendSpots c1).runCol c1 c1.fuel).replayEarly c1))

/-- Step domains (R150, R156, R157, R163): STEP_BEGIN opens an attempt, STEP_COMMIT waits for its decision, STEP_ABORT with everything earlier completed
restores the snapshot, NORM_WATCH takes a part into its watch. Decisions of a step domain (R158 to R162, R170): at the sample the cause word and the
beat are kept, the domain is COMMITTING, and a LOCAL commit decides at once; at the decided beat the attempt flips; without a decision the attempt
stays open after COMMIT_TIMEOUT; HALT_CLR leads back to IDLE. The model's choices in it: log 21. -/
def Obligations.StepDomainsRun : Prop :=
  (∀ (q i : Nat) (stop : Option Nat) (fl : Flight) (s : State),
       (s.Works q i 0x70 fl → s.stepBeginBad fl = none → s.isAbsent 2 = false → exec (.stepBegin q i) s = .next (s.stepBegin fl))
       ∧ (s.Works q i 0x71 fl → s.stepCommitBad fl = none → (s.domain fl.fn).commit = none →
           exec (.stepCommit q i) s = .next (s.modDomain fl.fn (fun x => { x with
             commit := some (fl.queue, fl.index), commitLocal := bitOf (byteAt fl.bytes 40) 1 })))
       ∧ (s.Works q i 0x72 fl → s.stepAbortBad fl = none → s.isAbsent 2 = false → s.earlierDone fl.fn q i = true →
           exec (.stepAbort q i) s = .next (s.abort fl.fn q i (byteAt fl.bytes 40) (s.fld (A.NWT fl.fn 0x20) 31 0) 0 false))
       ∧ (s.Works q i 0x73 fl → s.normBad fl = none → exec (.normWatch q i stop) s = .next (s.normPart q i stop fl)))
  ∧ (∀ (f q i c : Nat) (fl : Flight) (d : Decision) (s s1 s2 t : State), f < 512 →
       ((s.domain f).commit = some (q, i) → s.stepState f = 1 → s.earlierDone f q i = true → s.flight? q i = some fl →
         s1 = (if s.genIncomplete f then s.setCause f 3 else s) → s2 = (if bitOf (byteAt fl.bytes 40) 0 then s1.setCause f 5 else s1) →
         c = s2.fld (A.NWT f 0x20) 31 0 →
         t = (s2.setStep f 2).modDomain f (fun d => { d with sampledCause := c, sampledBeat := s.beat, sampledTick := s.ticks }) →
         ((s.domain f).commitLocal = true → exec (.stepCommitSample f) s = .next (t.stepDecide f
           { step := s.nwtStep f + 1, attempt := s.nwtAttempt f, action := t.localAction f c, causes := c, beat := s.beat + 1 }))
         ∧ ((s.domain f).commitLocal = false → exec (.stepCommitSample f) s = .next (t.stepReduce f)))
       ∧ ((s.domain f).decision = some d → d.beat ≤ s.beat → exec (.commitFlip f) s = .next (s.flip f d))
       ∧ ((s.domain f).commit = some (q, i) → s.stepState f = 2 → (s.domain f).decision = none →
           (s.domain f).sampledTick + zeroAs 100000 (s.dd f 68 4) ≤ s.ticks →
           exec (.commitTimeout f) s = .next (((((s.setStep f 1).setFld (A.NWT f 0x10) 5 3 4).modDomain f (fun x => { x with commit := none })).stepRecord f
             (s.nwtStep f + 1) 5 0 (s.domain f).sampledCause 0 0).endFlight q i 9 (s.ticks - (s.domain f).sampledTick)))
       ∧ (s.barOpen = true → s.stepState f = 4 → exec (.haltClr f) s = .next (s.setStep f 0)))

/-- Test commands of function 0 (R455, R467): IFT_RUN asks for a test of a slot in service; SEAL_SCAN counts void and mismatched blocks of an allowed
range; INJECT of kind 1 flips the seal of a block, of the kinds 2, 3 and 5 arms the injection, of kind 4 also spoils the word. The model's choices in
it: log 31. -/
def Obligations.TestCommandsRun : Prop :=
  ∀ (q i a n c : Nat) (fl : Flight) (s : State),
    (s.Works q i 0xF0 fl → c = fieldAt fl.bytes 32 2 → c < Config.cores → byteAt fl.bytes 34 = 0 → (∀ o ∈ offs 35 63, byteAt fl.bytes o = 0) →
      s.faults.test.any (fun t => t.cmd == some (q, i)) = false → s.faults.waiting.any (fun t => t.cmd == some (q, i)) = false →
      s.slotRetired (c / 16) (s.slotOf c) = false → s.unavailable c = false →
      ∀ x : FieldTest, x = { cluster := c / 16, slot := s.slotOf c, cmd := some (q, i), forced := false } →
      exec (.iftRun q i) s
        = .next (({ s with faults := { s.faults with waiting := s.insertForced x s.faults.waiting } } : State).forceNext))
    ∧ (s.Works q i 0xF1 fl → a = fieldAt fl.bytes 32 8 → n = fieldAt fl.bytes 40 8 → a % 2048 = 0 → n % 2048 = 0 →
      (∀ o ∈ offs 48 63, byteAt fl.bytes o = 0) → s.refused fl.fn a n false = none → ∀ kinds : List SealState,
      kinds = (chunks a n).map (fun c => match s.resolve fl.fn c.1 false with | .phys p => s.sealState (blockOf p) | _ => SealState.valid) →
      exec (.sealScan q i) s = .next (s.endFlight q i 0 ((kinds.filter (fun k => decide (k = SealState.void))).length * 2 ^ 32
        + (kinds.filter (fun k => decide (k = SealState.mismatched))).length)))
    ∧ (s.Works q i 0xF2 fl → s.fld A.IFT_CFG 3 3 = 1 → (∀ o ∈ offs 33 39 ++ offs 51 63, byteAt fl.bytes o = 0) →
      a = fieldAt fl.bytes 40 8 → fieldAt fl.bytes 48 2 < Config.cores → byteAt fl.bytes 50 < 8 →
      (byteAt fl.bytes 32 = 1 → injectable a = true → exec (.inject q i) s = .next ((s.flipSeal (blockOf a)).endFlight q i 0 0))
      ∧ (∀ (x : Injection) (t : State), x = { kind := byteAt fl.bytes 32, addr := a / 8 * 8, core := fieldAt fl.bytes 48 2, cube := byteAt fl.bytes 50 } →
          t = { s with faults := { s.faults with armed := s.faults.armed ++ [x] } } →
          ((byteAt fl.bytes 32 = 2 ∨ byteAt fl.bytes 32 = 3 ∨ byteAt fl.bytes 32 = 5) → exec (.inject q i) s = .next (t.endFlight q i 0 0))
          ∧ (byteAt fl.bytes 32 = 4 → injectable a = true → exec (.inject q i) s
              = .next (({ t with tiers := { t.tiers with badWords := (a / 8 * 8) :: t.tiers.badWords } } : State).endFlight q i 0 0))))

/-- VPROG on a core that runs no other program starts the threads of its mask (R224, R317), here for a program that draws no random numbers and whose
image and arguments its function may read. The model's choices in it: log 13. -/
def Obligations.VectorProgramsStart : Prop :=
  ∀ (q i c : Nat) (fl : Flight) (s : State) (ts : List Nat), s.Works q i 0x40 fl → fl.core = c → vprogBad false fl = none →
    (s.core c).vprog = none → s.refused fl.fn (fieldAt fl.bytes 32 8) 64 false = none → s.refused fl.fn (fieldAt fl.bytes 40 8) 64 false = none →
    ts = (List.range 16).filter (bitOf (fieldAt fl.bytes 48 2)) →
    exec (.vprog q i false false) s = .next ((((s.countCycles (A.LSU c 0x18)).applyPfBuf c).modCore c (fun x => { x with
      vprog := some { queue := fl.queue, index := fl.index, threads := ts, draws := false, fills := [], stop := none }
      lanesSaved := []
      threads := (ts.foldl (fun y t => y.setThread t { y.thread t with running := true, wait := .none }) x).threads })).programSettle c)

/-- Thread instructions that move data (R226, R227, R241): a load, and a store whose register has arrived, of a legal size and alignment access memory; a
movement thread's MV.LD, MV.ST and MV.PF of legal lengths, and MV.BULK, hand their blocks over. The model's choices in it: log 13, 24. -/
def Obligations.ThreadsMoveData : Prop :=
  ∀ (c t m reg value a spad n : Nat) (out : Bool) (fl : Flight) (s u : State), u = s.issued c t →
    (s.Issues c t false fl → accOk (u.localForm a) n = true →
      exec (.ld c t reg a n) s = .next (u.access s c fl { thread := t, store := false, reg := reg, addr := a, size := n, value := 0 })
      ∧ exec (.st c t none value a n) s = .next (u.access s c fl { thread := t, store := true, reg := 0, addr := a, size := n, value := value })
      ∧ ((s.core c).underWay.any (fun q => q.accs.any (fun x => !x.store && x.thread == t && x.reg == reg)) = false →
          exec (.st c t (some reg) value a n) s = .next (u.access s c fl
            { thread := t, store := true, reg := 0, addr := a, size := n, value := ((u.core c).thread t).reg reg })))
    ∧ (s.Issues c t true fl → m < 8 →
      (moveLenOk n = true → moveAligned a spad = true →
        exec (.mvLd c t m a spad n) s = .next (u.movement s c fl (.moveIn m) false a n spad)
        ∧ exec (.mvSt c t m a spad n) s = .next (u.movement s c fl (.moveOut m) true a n spad))
      ∧ (64 ≤ n → n ≤ 4096 → n % 16 = 0 → a % 16 = 0 → exec (.mvPf c t m a n) s = .next (u.movement s c fl (.moveCache m) false a n 0))
      ∧ (bulkOk m a spad n = true → exec (.mvBulk c t m out a spad n) s = .next (u.moveBulk c fl m out a spad n)))

/-- Thread instructions that order and signal (R224, R226, R242, R243, R560): WAITC and the fences take their wait; SEMADD.REL with the thread's earlier
accesses performed adds to an owned semaphore, SEMWAIT.ACQ waits for one; HALT ends the thread; TRACE writes its record. The model's choices in it:
log 13. -/
def Obligations.ThreadsSynchronize : Prop :=
  ∀ (c t m v n scope : Nat) (fl : Flight) (s u : State), u = s.issued c t → s.Issues c t false fl →
    (m < 8 → exec (.waitc c t m v) s = .next (u.threadWait c t (.counter m v)))
    ∧ exec (.fenceCore c t) s = .next (u.threadWait c t (.fence 0))
    ∧ exec (.fenceCluster c t) s = .next (u.threadWait c t (.fence 1))
    ∧ exec (.fenceDevice c t) s = .next (u.threadWait c t (.fence 2))
    ∧ exec (.fenceFabric c t) s = .next (u.threadWait c t (.fence 3))
    ∧ (u.ownsSem fl.fn n = true →
        exec (.semwaitAcq c t n v scope) s = .next (u.threadWait c t (.sem n v (min scope 3)))
        ∧ (s.fenceDone c t (min scope 3) = true → exec (.semaddRel c t n v scope) s = .next ((u.addSem n v).refreshHeads)))
    ∧ exec (.halt c t) s = .next ((((u.countCycles (A.LSU c 0x18)).modCore c (fun x => x.setThread t { x.thread t with running := false, wait := .none })).programSettle c).applyPfBuf c)
    ∧ exec (.trace c t v) s = .next (u.traceCore c 0x40 fl.queue 0x40 (v % 65536))

/-- The random operations of a program that draws (R205, R214): each steps its lane and writes the value formed from the lane's word; the Box-Muller pair
steps it twice. The model's choices in it: log 8, 13. -/
def Obligations.ThreadsDraw : Prop :=
  ∀ (c t lane reg reg1 p w w2 : Nat) (fl : Flight) (v : VProgram) (s u1 u2 : State), s.Issues c t false fl → t < 12 →
    ((s.issued c t).core c).vprog = some v → v.draws = true → lane < 64 → (s.issued c t).drawLane c lane = (w, u1) → u1.drawLane c lane = (w2, u2) →
    exec (.randU32 c t lane reg) s = .next (u1.writeThreadReg c t reg w)
    ∧ exec (.randU c t lane reg) s = .next (u1.writeThreadReg c t reg (frac24 (w / 256)))
    ∧ exec (.randUo c t lane reg) s = .next (u1.writeThreadReg c t reg (frac24 (2 * (w / 512) + 1)))
    ∧ exec (.randBern c t lane reg p) s = .next (u1.writeThreadReg c t reg (if w < p then 1 else 0))
    ∧ exec (.randNtab c t lane reg) s = .next (u1.writeThreadReg c t reg (tableNormal w))
    ∧ ∀ z : Nat × Nat, z = boxMuller (frac24 (2 * (w / 512) + 1)) (frac24 (w2 / 256)) →
        exec (.randNbm c t lane reg reg1) s = .next ((u2.writeThreadReg c t reg z.1).writeThreadReg c t reg1 z.2)

/-- Core sleep (R236 to R239): an idle core enters C1 at once, C2 and C3 after their idle times and as far as MAXC lets it; the entry ends in its state;
an event wakes a sleeping core; with its wake current granted the core is in C0 again. The model's choices in it: log 24. -/
def Obligations.CoresSleepAndWake : Prop :=
  ∀ (c cause : Nat) (s : State), c < Config.cores →
    (s.fld (A.PMCC c 8) 3 0 = 0 → s.idle c = true → exec (.c1Entry c) s = .next ((s.setFld (A.PMCC c 8) 1 0 1).count (A.PMCC c 0x10)))
    ∧ (s.fld (A.PMCC c 8) 3 1 = 0 → 2 ≤ s.maxC c → s.idle c = true → (s.core c).idleSince + zeroAs 100 (s.fld (A.PMCC c 0) 31 16) ≤ s.ticks →
        exec (.c2Entry c) s = .next (s.enterSleep c 2))
    ∧ (s.isAbsent (3 + c / 16) = false → s.fld (A.PMCC c 8) 3 2 = 0 → s.cstate c ≤ 2 → 3 ≤ s.maxC c → s.idle c = true → (s.core c).halted = true →
        (s.core c).idleSince + 1000 * zeroAs 10 (s.fld (A.PMCC c 0) 47 32) ≤ s.ticks → exec (.c3Entry c) s = .next (s.enterSleep c 3))
    ∧ ((s.core c).entering ≠ 0 → ∀ t : State, t = (((s.setFld (A.PMCC c 8) 2 2 0).setFld (A.PMCC c 8) 1 0 (s.core c).entering).setCore c
          { s.core c with entering := 0, wakeAfterEntry := 0 }).sleepBookings c →
        exec (.sleepEntryComplete c) s = .next (if (s.core c).wakeAfterEntry = 0 then t else t.startWake c (s.core c).wakeAfterEntry))
    ∧ (1 ≤ cause → cause ≤ 6 → s.wakeEvent c cause = true → (s.core c).entering = 0 → s.cstate c ≠ 0 → s.waking c = false →
        exec (.coreWake c cause) s = .next (s.startWake c cause))
    ∧ (s.waking c = true → (s.core c).wakeWaitsGrant = false →
        s.esc.waiting.any (fun q => decide (q.owner = .wake c) || decide (q.owner = .pll (c / 16))) = false →
        ∀ awakened : State → State, awakened = (fun u => ((u.setFld (A.PMCC c 8) 3 3 0).setFld (A.PMCC c 8) 1 0 0).modCore c (fun y =>
          { y with idleSince := s.ticks, wakeCause := 0 })) →
        (s.cstate c = 1 → exec (.wakeComplete c) s = .next ((awakened s).sleepBookings c))
        ∧ (s.cstate c = 2 → exec (.wakeComplete c) s = .next (((awakened s).traceCore c 0x11 0 0 (512 + (s.core c).wakeCause)).sleepBookings c))
        ∧ (s.cstate c = 3 → ∀ l : List (BitVec 128),
            l = (if (s.core c).wakeCause = 5 then [] else lanesOfBytes (s.bytes (sysAddr (c / 128) (0x600000 + c % 128 * 1024)) 1024)) →
            exec (.wakeComplete c) s = .next (((awakened ((s.zeroScratch c).modCore c (fun y => { y.putLanes l with threads := [], mvc := [] }))).traceCore
              c 0x11 0 0 (768 + (s.core c).wakeCause)).sleepBookings c)))

/-- Device time (R415 to R422): BEAT_NOW gives the beat and keeps the phase for BEAT_PS; at its period the device sends SYNC on every usable link; a SYNC
is answered with the times of its arrival; a REPLY to this device's SYNC whose delay is in range is a valid sample; the trim follows the target; an
acquisition without a valid sample for 50,000 beats starts again. The model's choices in it: log 22. -/
def Obligations.DeviceTimeRuns : Prop :=
  ∀ (k n ps : Nat) (m : FabMsg) (s t : State),
    exec (.beatNowRead ps) s = .next (((s.phase ps).setFld (A.BEAT 8) 19 0 (s.phase ps).ps).send
      (.hostData 0 (A.BEAT 0) (leBytes 8 (s.phase ps).beat) false))
    ∧ (s.beatLogic.lastSync + (if s.beatState < 2 then s.acqPeriod else s.ttPeriod) ≤ s.ticks →
        exec (.timeSyncSend ps) s = .next (((List.range 36).filter s.usable).foldl State.syncLink ((s.phase ps).modBeat (fun b =>
          { b with lastSync := s.ticks }))))
    ∧ (s.Arrived k 0x31 n m → timeBroken m.data = false → t = (s.withoutMsg k).phase ps →
        (byteAt m.data 0 = 1 → exec (.timeSyncReceive k ps) s = .next (t.sendLocal n 0x31 (timeBytes 2 t.beatState t.beatHops (fieldAt m.data 4 4)
          (fieldAt m.data 8 8, fieldAt m.data 16 4) (t.beat, t.ps) (t.beat, t.ps) t.fabric.origin)))
        ∧ (∀ (b1 p1 : Nat) (fwd bwd : Int), byteAt m.data 0 = 2 →
            t.beatLogic.syncs.find? (fun x => x.1 == n && x.2.1 == fieldAt m.data 4 4) = some (n, fieldAt m.data 4 4, b1, p1) →
            fwd = ((fieldAt m.data 20 8 : Nat) : Int) * psBeat + (fieldAt m.data 28 4 : Nat) - ((b1 : Int) * psBeat + (p1 : Nat)) →
            bwd = t.clock - (((fieldAt m.data 32 8 : Nat) : Int) * psBeat + (fieldAt m.data 40 4 : Nat)) →
            fieldAt m.data 44 2 = t.fabric.origin → byteAt m.data 1 = 2 → 20000 ≤ (fwd + bwd) / 2 → (fwd + bwd) / 2 ≤ 2000000 → t.beatState ≠ 2 →
            exec (.timeReplyReceive k ps) s = .next ((t.modBeat (fun b => { b with syncs := b.syncs.filter (fun x => x.1 != n) })).validSample n m
              ((fwd - bwd) / 2))))
    ∧ (∀ (e : Int) (x : Nat) (u : State), s.beatLogic.lastTrim + s.ttPeriod ≤ s.ticks → s.isOrigin = false →
        t = (s.modBeat (fun b => { b with lastTrim := s.ticks })).pathCheck → t.beatState ≠ 0 → t.beatState ≠ 3 → t.target = some e → t.draw = (x, u) →
        exec .trimUpdate s = .next ((u.setReg (A.BEAT 0x20) (unsext 32 (clampInt 6000000 (sext 32 (s.reg (A.BEAT 0x20)) + e * 100000 / (8 * (s.ttPeriod : Int))
          + (Config.freeWord x).toInt)))).setFld (A.BEAT 0x10) 47 32 (unsext 16 (clampInt 32767 (e / 1000)))))
    ∧ (s.beatState = 1 → s.beatLogic.lastValid + 50000 ≤ s.ticks →
        exec .acquireTimeout s = .next ((((s.modBeat (fun b => { b with samples := [], syncs := [], good := 0 })).setReg (A.BEAT 0x20) 0).setBeatState 0).pathCheck))

/-- Requests reach their home (R285, R286, R288, R294): with a buffer entry free, the request first in its channel, and its directory set not full of
other lines, the request leaves the channel and is accepted: it begins, or waits for the line. The messages of writebacks, snoops and grants (R286,
R287, R291): each leaves its channel and takes its effect at the home or at the cluster: a snoop is counted and answered from the line's state; a
grant is taken by a line that waits for it; WbAck ends a writeback. Answers to the snoops of a line's open transaction (R288, R291, R293, R296): one
that is awaited and not timed out leaves the awaited ones, with what it brings; a snoop past its time from a cluster that is not the owner no longer
counts, with a record; waiting requests past their warning time are reported once; memory's answer ends the transaction's access. The model's choices
in it: log 23. -/
def Obligations.CoherenceRuns : Prop :=
  (∀ (l k : Nat) (m : CohMsg) (s t : State), k < 32 → cacheable (l * 128) = true → s.reqInUse (s.lineHome l) < 256 → s.dirFull l = false →
       (s.takeCoh (isMsg .getS l k) = some (m, t) → exec (.gets l k) s = .next (t.accept l
         { kind := .getS, from_ := m.cluster, core := m.core, req := m.req, off := m.off, data := m.data, warnAt := s.ticks + s.ageWarn, warned := false } 0x10))
       ∧ (s.takeCoh (isMsg .getM l k) = some (m, t) → exec (.getm l k) s = .next (t.accept l
         { kind := .getM, from_ := m.cluster, core := m.core, req := m.req, off := m.off, data := m.data, warnAt := s.ticks + s.ageWarn, warned := false } 0x18))
       ∧ (s.takeCoh (isMsg .upg l k) = some (m, t) → exec (.upg l k) s = .next (t.accept l
         { kind := .upg, from_ := m.cluster, core := m.core, req := m.req, off := m.off, data := m.data, warnAt := s.ticks + s.ageWarn, warned := false } 0x20))
       ∧ (s.takeCoh (isMsg .readNC l k) = some (m, t) → exec (.readnc l k) s = .next (t.accept l
         { kind := .readNC, from_ := 32, core := m.core, req := m.req, off := m.off, data := m.data, warnAt := s.ticks + s.ageWarn, warned := false } 0x28))
       ∧ (s.takeCoh (isMsg .writeNC l k) = some (m, t) → exec (.writenc l k) s = .next (t.accept l
         { kind := .writeNC, from_ := 32, core := m.core, req := m.req, off := m.off, data := m.data, warnAt := s.ticks + s.ageWarn, warned := false } 0x28)))
  ∧ (∀ (l k : Nat) (m : CohMsg) (s t : State), k < 32 → cacheable (l * 128) = true →
       (s.takeCoh (isMsg .putM l k) = some (m, t) → exec (.putm l k) s = .next (t.putAt l k m))
       ∧ (s.takeCoh (isMsg .putE l k) = some (m, t) → exec (.pute l k) s = .next (t.putAt l k m))
       ∧ (s.takeCoh (isMsg .putS l k) = some (m, t) → exec (.puts l k) s = .next (t.putAt l k m))
       ∧ (s.takeCoh (isMsg .snpS l k) = some (m, t) → exec (.snps l k) s = .next ((t.count (A.DIRC k 0x10)).answerSnoop l k .snpS))
       ∧ (s.takeCoh (isMsg .snpM l k) = some (m, t) → exec (.snpm l k) s = .next ((t.count (A.DIRC k 0x10)).answerSnoop l k .snpM))
       ∧ (s.takeCoh (isMsg .snpInv l k) = some (m, t) → exec (.snpinv l k) s = .next ((t.count (A.DIRC k 0x10)).answerSnoop l k .snpInv))
       ∧ (s.takeCoh (isMsg .snpRd l k) = some (m, t) → exec (.snprd l k) s = .next ((t.count (A.DIRC k 0x10)).answerSnoop l k .snpRd))
       ∧ (((t.cline k l).st = .IS ∨ (t.cline k l).st = .IM ∨ (t.cline k l).st = .SM) →
         (s.takeCoh (isMsg .dataS l k) = some (m, t) → exec (.datas l k) s = .next (t.granted l k .S m.poison))
         ∧ (s.takeCoh (isMsg .dataE l k) = some (m, t) → exec (.datae l k) s = .next (t.granted l k .E m.poison))
         ∧ (s.takeCoh (isMsg .dataM l k) = some (m, t) → exec (.datam l k) s = .next (t.granted l k .M m.poison))
         ∧ (s.takeCoh (isMsg .ack l k) = some (m, t) → exec (.ack l k) s = .next (t.granted l k .M m.poison)))
       ∧ (s.takeCoh (isMsg .wbAck l k) = some (m, t) → (t.cline k l).st = .IW →
           exec (.wback l k) s = .next ((t.setCLine k l { CLine.init with waiting := (t.cline k l).waiting }).askAgain l k)))
  ∧ (∀ (l k : Nat) (m : CohMsg) (x x1 : Txn) (s t : State), k < 32 → cacheable (l * 128) = true →
       ((t.dirEntry l).txn = some x → x.awaits.contains k = true → t.coh.timedOut.contains (l * 32 + k) = false → x1 = { x with awaits := x.awaits.erase k } →
         (s.takeCoh (isMsg .invAck l k) = some (m, t) → exec (.invack l k) s = .next ((t.setDir l { t.dirEntry l with txn := some x1 }).advanceLine l))
         ∧ (s.takeCoh (isMsg .snpAck l k) = some (m, t) → exec (.snpack l k) s = .next ((t.setDir l { t.dirEntry l with txn := some x1 }).advanceLine l))
         ∧ (s.takeCoh (isMsg .snpData l k) = some (m, t) →
             exec (.snpdata l k) s = .next ((t.setDir l { t.dirEntry l with txn := some (x1.withData m) }).advanceLine l))
         ∧ (s.takeCoh (isMsg .miss l k) = some (m, t) →
             exec (.miss l k) s = .next ((t.setDir l { t.dirEntry l with txn := some (x1.withMiss k) }).advanceLine l))
         ∧ (s.takeCoh (isMsg .missPutPending l k) = some (m, t) →
             exec (.missPutPending l k) s = .next ((t.setDir l { t.dirEntry l with txn := some (x1.withMiss k) }).advanceLine l)))
       ∧ ((s.dirEntry l).txn = some x → x.awaits.contains k = true → x.snoopDue ≤ s.ticks → (s.dirEntry l).owner ≠ some k →
           t = ((({ s with coh := { s.coh with timedOut := (l * 32 + k) :: s.coh.timedOut } } : State).countDir l 0x58).record
             { cls := 1, cause := 8, unitKind := 7, unit := k, addr := l * 128, closeNow := true }) →
           exec (.snoopTimeout l k) s = .next ((t.setDir l { s.dirEntry l with
             txn := some { x with awaits := x.awaits.erase k, awaitsPut := x.awaitsPut.erase k }, sharers := (s.dirEntry l).sharers.erase k }).advanceLine l))
       ∧ (∀ (q : HomeReq), (s.dirEntry l).queue = [q] → (s.dirEntry l).ncWait = [] → q.warnAt < s.ticks → q.warned = false →
           exec (.dirAgeWarn l) s = .next (((s.setDir l { s.dirEntry l with queue := [{ q with warned := true }], ncWait := [] }).countDir l 0x60).event 0x0F
             [(s.lineHome l, 1), (q.from_, 1), (s.ticks - (q.warnAt - s.ageWarn), 4)]))
       ∧ ((s.dirEntry l).txn = some x → x.memWait = true → x.req.kind ≠ .writeNC → s.badWord (l * 128) 128 = none →
           exec (.memoryResponse true l k) s = .next ((((s.traffic (l * 128) 128 false).setDir l { s.dirEntry l with txn := none }).endTxn l
             { x with memWait := false, gotData := true }).advanceLine l))
       ∧ (∀ (c : Nat) (r : CoreReq), c < Config.cores → s.coreReq? c k = some r → r.left.contains r.addr = true →
           exec (.memoryResponse false c k) s = .next (s.scratchMemory c r)))

/-- A beat passes (R412, R414, R551): the counter steps and its phase is zero; while the device has power and has not tripped the boundary's work follows:
captures, clears, selections and the peak reset, then what is measured and counted. The model's choices in it: log 26. -/
def Obligations.BeatBoundariesPass : Prop :=
  ∀ (r : BeatReading) (s t : State), t = s.tickOver →
    t.beat = (s.beat + 1) % 2 ^ 64 ∧ t.ps = 0 ∧ t.ticks = s.ticks + 1
    ∧ (s.boot.pwrGood = true → s.power.tripped = false →
        exec (.beatBoundary r) s = .next (t.boundary r)
        ∧ ∃ t1 : State, t1 = ((((t.snapBuffer.snapReports).runClears).runSelections).runMaxClr) ∧ ∃ t2 : State,
            t2 = ((((((t1.readTemps r.temps).readSlacks r.slacks).readRails r.amps r.volts).readEyes r.eyes).readRefreshes r.refreshes).readGovernors r.withheld)
            ∧ t.boundary r = (((((List.range Config.links).foldl State.linkBeat (((t2.hotBeat r.hot).throttleBeat).escWindow)).timeBeat).coreBeat.powerBeat.testBeat).flagBeat.beaconBeat).forceNext)
    ∧ ((s.boot.pwrGood = false ∨ s.power.tripped = true) → exec (.beatBoundary r) s = .next t)

/-- Cooling and clocks (R491, R499, R500, R627): FLOW_OK sets its bit and starts its time; 1 µs without flow, with the flow sensor armed, stops the dies;
a trip takes everything down; a droop of at least the threshold steps a clocked cluster down; after the hold, and then every 50 ns, the clock rises.
The model's choices in it: log 25. -/
def Obligations.ProtectionActs : Prop :=
  ∀ (d depth c ps : Nat) (s t : State), t = s.phase ps →
    (t.fld A.PMC_STATUS 33 33 = 1 → exec (.flowOkFall ps) s
        = .next { t.setFld A.PMC_STATUS 33 33 0 with power := { (t.setFld A.PMC_STATUS 33 33 0).power with flowSince := t.now } })
    ∧ (t.fld A.PMC_STATUS 33 33 = 0 → exec (.flowOkRise ps) s
        = .next { t.setFld A.PMC_STATUS 33 33 1 with power := { (t.setFld A.PMC_STATUS 33 33 1).power with flowSince := t.now } })
    ∧ (t.fld A.PMC_STATUS 34 34 = 1 → t.fld A.PMC_STATUS 33 33 = 0 → t.flowStop = false → t.power.tripped = false → t.power.flowSince + 1000000 ≤ t.now →
        ∀ u v : State, u = (t.setFld A.PMC_STATUS 32 32 1).stopDies → v = { u with faults := { u.faults with alert := true } } →
        exec (.flowStop ps) s = .next ((List.range 12).foldl (fun x k => x.release (.stack k))
          ((({ v with fw := { v.fw with quiesce := if v.fw.blob then v.fw.quiesce else 0 } } : State).event 0x0A []).tally 1)))
    ∧ (s.fld A.PMC_STATUS 35 35 = 1 → s.power.tripped = false →
        exec .thermalTrip s = .next ((List.range Config.links).foldl (fun x n => x.setFld (A.LNK n 8) 2 0 0) s.trip))
    ∧ (d < 256 → s.odNat 0x2050 1 45 ≤ depth → s.clocked (d / 8) = true → exec (.droop d depth ps) s = .next (t.droopHit d depth))
    ∧ (c < Config.clusters → (t.droop c).steps ≠ 0 →
        ((t.droop c).holding = true → (t.droop c).last + 1000 * s.odNat 0x2050 3 200 ≤ t.now → exec (.droopHoldExpiry c ps) s = .next (t.droopRise c))
        ∧ ((t.droop c).holding = false → (t.droop c).last + 50000 ≤ t.now → exec (.droopRestoreStep c ps) s = .next (t.droopRise c)))

/-- Voltage and frequency of a die (R489, R492, R498, R622): more droops in a window than the limit raise the voltage by 25 mV, and 100 ms without take it
back; thermal states are evaluated every 10 µs and CRIT steps every 100 µs; the tray's acknowledgement lets a step go on, and a frame without one is
sent again. The model's choices in it: log 25. -/
def Obligations.RailsStep : Prop :=
  ∀ (k n rail : Nat) (f : RailFrame) (x : RailStep) (s t : State),
    (k < 4 → s.held = false → s.stepping k = false →
      (n = ((smapGet (fun _ => ([] : List Nat)) s.power.stormBeats k).filter (fun b => decide (s.ticks < b + 1000))).length →
        s.odNat 0x2050 4 64 < n → s.power.clocksOff = false → s.volt k < 800 →
        t = { s with power := { s.power with
          stormBeats := smapPut (fun _ => ([] : List Nat)) s.power.stormBeats k []
          stormLast := smapPut (fun _ => 0) s.power.stormLast k s.ticks
          stormSteps := smapPut (fun _ => 0) s.power.stormSteps k (smapGet (fun _ => 0) s.power.stormSteps k + 1) } } →
        exec (.droopStorm k) s = .next ((t.askStep k (s.volt k + 25) (s.fstep k) false).event 9 [(k, 1), (s.volt k + 25, 2), (n, 2)]))
      ∧ (n = smapGet (fun _ => 0) s.power.stormSteps k → n ≠ 0 → smapGet (fun _ => 0) s.power.stormLast k + 100000 ≤ s.ticks →
        t = { s with power := { s.power with
          stormSteps := smapPut (fun _ => 0) s.power.stormSteps k (n - 1), stormLast := smapPut (fun _ => 0) s.power.stormLast k s.ticks } } →
        t.vTarget k (s.fstep k) < s.volt k →
        exec (.droopVoltageReturn k) s = .next (t.askStep k (max (vOf k (s.fstep k)) (s.volt k - 25)) (s.fstep k) false)))
    ∧ (s.due 1 10 = true → s.power.tripped = false → exec .thermalStateEval s = .next ((List.range 4).foldl State.thermalDie (s.ran 1)))
    ∧ (k < 4 → s.due (16 + k) 100 = true → s.power.clocksOff = false → s.tstate k = 2 → 20 < s.fstep k →
        exec (.critStep k) s = .next ((({ s with power := { s.power with
          critSteps := smapPut (fun _ => 0) s.power.critSteps k (smapGet (fun _ => 0) s.power.critSteps k + 1) } } : State).stepDown k).ran (16 + k)))
    ∧ (rail < Config.rails →
      (s.power.frames.any (fun f => f.rail == rail) = true → s.held = false → s.power.noUp.contains rail = false →
        t = { s with power := { s.power with frames := s.power.frames.filter (fun f => f.rail != rail) } } →
        (s.power.steps.find? (fun x => x.die == rail) = some x → exec (.rqAck rail) s = .next (t.stepAdvance rail))
        ∧ (s.power.steps.find? (fun x => x.die == rail) = none → exec (.rqAck rail) s = .next t))
      ∧ (s.power.frames.find? (fun f => f.rail == rail) = some f → f.since + (if f.repeats < 3 then 4 else 1000) ≤ s.ticks → s.flowStop = false →
          (f.repeats ≠ 2 ∨ 4 ≤ rail) → exec (.rqAckTimeout rail) s = .next (s.sendFrame rail f.mv (f.repeats + 1))))

/-- The slow power controls (R493, R494, R496, R502, R503, R505, R576): every 100 µs a die with the MAXF mode and room steps up, without it down to 1.50
GHz; every millisecond the ceilings are set from the cap; every 10,000 beats a sharing device counts its period and tells its neighbours; a processor
absent for 50 ms with a controller's duty stops the clocks with a FATAL record; a watchdog makes a processor absent and its return brings it back. The
model's choices in it: log 25. -/
def Obligations.PowerControllersAct : Prop :=
  ∀ (k p b : Nat) (s t : State),
    (k < 4 → s.due (8 + k) 100 = true → s.held = false → s.power.clocksOff = false → s.stepping k = false → s.tstate k ≠ 2 →
      smapGet (fun _ => 0) s.power.critSteps k = 0 →
      (s.fld A.PMC_STATUS 1 0 ≠ 1 → 30 < s.fstep k → exec (.opportunisticDecision k) s = .next ((s.ran (8 + k)).stepDown k))
      ∧ (s.fld A.PMC_STATUS 1 0 = 1 → s.booked100 k ≤ 100 * s.avgEff k → s.tstate k = 0 → s.fstep k < 37 → s.hottest k < s.tjHot - 40 →
          s.booked100 k * (s.vTarget k (s.fstep k + 1) * (s.fstep k + 1)) ≤ 100 * s.avgEff k * (s.vTarget k (s.fstep k) * s.fstep k) →
          exec (.opportunisticDecision k) s = .next ((s.ran (8 + k)).stepUp k)))
    ∧ (s.due 0 1000 = true → s.held = false → s.power.tripped = false →
        ∀ hot : List (Nat × Nat), hot = (List.range 4).foldl (fun m k =>
          if s.tstate k = 1 then smapPut (fun _ => 0) m k (smapGet (fun _ => 0) m k + 1) else m) (s.ran 0).power.hotMs →
        t = { s.ran 0 with power := { (s.ran 0).power with hotMs := hot } } →
        ∀ eff : List (Nat × Nat), eff = (List.range 4).foldl (fun m k => smapPut t.avgCeil m k (t.newCeil k t.restPower)) t.esc.avgEff →
        exec .capUpdate s = .next { t with esc := { t.esc with avgEff := eff } })
    ∧ (s.beat % 10000 = 0 → smapGet (fun _ => 0) s.power.timers 2 ≠ s.ticks + 1 → s.held = false →
        t = { s with power := { s.power with timers := smapPut (fun _ => 0) s.power.timers 2 (s.ticks + 1), critLast := s.total (A.COL 0x60) } } →
        ((s.beatState ≠ 2 ∨ s.sharing = false) → exec .powerSharePeriod s = .next t)
        ∧ (s.beatState = 2 → s.sharing = true → exec .powerSharePeriod s = .next (t.shareRound (s.total (A.COL 0x60) - s.power.critLast))))
    ∧ (p < 35 →
      (s.absent.find? (fun x => x.1 == p) = some (p, b) → b + 50000 ≤ s.ticks → s.power.fwTimedOut.contains p = false →
        exec (.controllerAbsent p) s = .next (({ s with
          power := { s.power with clocksOff := true, fwTimedOut := p :: s.power.fwTimedOut }
          faults := { s.faults with alert := true } } : State).record { cls := 3, cause := 0x10, unitKind := 12, unit := p }))
      ∧ (s.isAbsent p = false → s.power.tripped = false →
          t = { s with absent := s.absent ++ [(p, s.ticks)], fw := { s.fw with healthy := false } } → ∀ u : State,
          u = (if t.held then t.setFld A.PMC_STATUS 16 16 1 else t) →
          exec (.watchdogReset p) s = .next ((if p = 0 then u.securityLost else u).fwEvent 1 s.fw.running p))
      ∧ (s.isAbsent p = true → s.fw.handed = false →
          exec (.processorReturn p) s = .next (({ s with absent := s.absent.filter (fun x => x.1 != p) } : State).backTo)))

/-- The object dictionary (R518 to R521, R526, R547): an outstanding request is served: a read with the value and its code; a write of RW at once, of a
member of a commit group by staging, of RWP by a batch; a commit with its group's rule satisfied by one batch of the members; APPLY_NOW and DEFAULTS.
The model's choices in it: log 27. -/
def Obligations.DictionaryServes : Prop :=
  ∀ (tr v : Nat) (r : OdRequest) (e : OdEntry) (s : State), s.Serves tr r →
    (r.op = 1 → exec (.odRead tr) s = .next (s.odEnd r (s.odRead r.index r.sub).1 (s.odRead r.index r.sub).2))
    ∧ (r.op = 2 → s.odEntry r.index r.sub = .ok e → e.acc ≠ .wo → s.odRefused r = none → odFind r.index r.sub = some e →
      (e.commit ≠ 0 → exec (.odWrite tr) s = .next (({ s with jrn := { s.jrn with
        staged := (odKey r.index r.sub, r.value) :: s.jrn.staged.filter (fun x => x.1 != odKey r.index r.sub) } } : State).odEnd r 0 []))
      ∧ (e.commit = 0 → e.acc = .rw → exec (.odWrite tr) s
          = .next (({ s with od := smapPut (fun _ => ([] : List Byte)) s.od (odKey r.index r.sub) r.value } : State).odEnd r 0 []))
      ∧ (e.commit = 0 → e.acc ≠ .rw → exec (.odWrite tr) s = .next (s.odPersist r [(r.index, r.sub, some r.value)] [])))
    ∧ (r.op = 2 → isCommit r.index r.sub = true → s.odRefused r = none → leNat r.value ≠ 0 → s.groupRule r.index = true →
        exec (.odCommit tr) s = .next (s.odPersist r ((odMembers r.index r.sub).map (fun b => (r.index, b, some (s.candidate r.index b))))
          (s.jrn.staged.filter (fun x => (odMembers r.index r.sub).any (fun b => odKey r.index b == x.1)))))
    ∧ (s.Commands tr 0x5011 0 r v → (List.range 512).any (fun f => f != 0 && s.fnEnabled f) = false → s.isAbsent 2 = false →
        exec (.applyNow tr) s = .next (s.layoutApply.odEnd r 0 []))
    ∧ (s.Commands tr 0x9040 1 r v → s.jrn.tokens ≠ 0 → 1000000 < s.budgetLeft → ∀ keys : List Nat,
        keys = (s.jrn.live.map Prod.fst).filter (fun k => decide (0x1000 ≤ k / 256) && decide (k / 256 < 0x8000)
          && (odFind (k / 256) (k % 256)).any (fun e => decide (e.acc = .rwp))) →
        s.tombBatches keys (keys.length + 1) = [] →
        exec (.defaults tr) s = .next (({ s with jrn := { s.jrn with tokens := s.jrn.tokens - 1 } } : State).odEnd r 0 []))

/-- The journal (R538 to R543): the batch in front, its store current granted, is written, ends and has its effect, and the next one starts; a compaction
copies its next batch; one token comes at every 1,000,000th beat. The model's choices in it: log 27. -/
def Obligations.JournalWorks : Prop :=
  ∀ (fails : List Nat) (b : OdBatch) (rest : List OdBatch) (ok : Bool) (s s1 s2 s3 s4 s5 : State),
    (s.jrn.batches = b :: rest → s.jrn.busy = 1 → s.storeGranted = true → s.batchWrite b fails = (s1, ok) →
        s2 = s1.batchEnd b (b.entries.flatMap (recsOf 1)).length ok →
        s3 = (if ok && b.entries.any (fun e => e.1 == 0x8010) then s2.fwEvent 0 s2.fw.target 0xFF else s2) →
        s4 = (if ok then s3.afterBatch b.after else s3) → s5 = (if switchSlot ≤ s4.jrn.next ∧ !s4.jrn.compacting then s4.switchRegion else s4) →
        exec (.journalBatchPersisted fails) s = .next s5.storeKick)
    ∧ (s.jrn.compacting = true → s.jrn.busy = 2 → s.power.tripped = false → s.storeGranted = true →
        exec .compactionCopy s = .next s.copyBatch)
    ∧ (s.beat % 1000000 = 0 → s.beat ≠ 0 → smapGet (fun _ => 0) s.power.timers 4 ≠ s.ticks + 1 →
        exec .tokenRefill s = .next { s with
          power := { s.power with timers := smapPut (fun _ => 0) s.power.timers 4 (s.ticks + 1) }
          jrn := { s.jrn with tokens := min 64 (s.jrn.tokens + 1) } })

/-- Requests over CAN FD and the mailbox (R531, R532, R534): a SINGLE frame and a GO write are whole requests; a FIRST frame opens a segmented one and is
answered with FLOW; CONSEC frames in sequence fill it and the last completes it; FLOW lets a segmented answer go on; 100 ms of silence end either. The
model's choices in it: log 27. -/
def Obligations.CanAndMailboxCarryRequests : Prop :=
  ∀ (id src tid val : Nat) (data v : List Byte) (x : CanIn) (y : CanOut) (s : State),
    (s.canFor id = some (src, tid) →
      (canType 0 data = true → byteAt data 0 % 64 = 0 → exec (.single id data) s = .next (s.odArrive (canRequest src tid data)))
      ∧ (canType 1 data = true → 56 < (canRequest src tid data).len → s.odServed 0 = true → s.isAbsent 0 = false → s.odBusy 0 = false →
          exec (.first id data) s = .next (({ s with jrn := { s.jrn with
            canIn := some { req := canRequest src tid data, next := 1, since := s.ticks } } } : State).canResult src tid [0xC0#8, 0#8, 0#8, 0#8]))
      ∧ (s.jrn.canIn = some x → x.req.src = src → x.req.tid = tid → byteAt data 0 / 64 = 2 → byteAt data 0 % 64 = x.next % 64 →
          s.ticks ≤ x.since + 100000 → v = (x.req.value ++ (data.drop 1).take 63).take x.req.len →
          (v.length < x.req.len → exec (.consec id data) s
            = .next { s with jrn := { s.jrn with canIn := some { req := { x.req with value := v }, next := x.next + 1, since := s.ticks } } })
          ∧ (x.req.len ≤ v.length → exec (.consec id data) s
            = .next (({ s with jrn := { s.jrn with canIn := none } } : State).odArrive { x.req with value := v })))
      ∧ (s.jrn.canOut = some y → y.dst = src → y.tid = tid → byteAt data 0 / 64 = 3 → byteAt data 1 = 0 →
          exec (.flow id data) s = .next (s.canMore y (if byteAt data 2 = 0 then y.left.length + 1 else byteAt data 2))))
    ∧ (s.jrn.canIn = some x → x.since + 100000 < s.ticks → (s.canStop x).jrn.canOut = none → exec .canTransferTimeout s = .next (s.canStop x))
    ∧ (s.reaches 0 = true → s.fld A.MB_STATUS 0 0 = 0 → ∀ n : Nat, n = (if bitsOf val 3 2 = 2 then bitsOf val 47 32 else 0) →
        exec (.go val) s = .next (((s.setReg A.MB_CTL (setBits (setBits 0 47 8 (bitsOf val 47 8)) 3 2 (bitsOf val 3 2))).setFld A.MB_STATUS 0 0 1).odArrive
          { tr := 3, src := 0, tid := 0, op := bitsOf val 3 2, index := bitsOf val 31 16, sub := bitsOf val 15 8, len := n, value := (List.range n).map (smapGet (fun _ => (0 : Byte)) s.jrn.mbBuf), started := false }))

/-- MCTP messages (R533, R589; the body formats are the family's, log 29): a vendor-defined OD request arrives whole; a control request is answered; SPDM
is answered by the security core, with the measurement blocks asked for. The model's choices in it: log 29. -/
def Obligations.MctpMessagesAnswered : Prop :=
  ∀ (i3c : Bool) (src tag : Nat) (body d : List Byte) (s t : State),
    (11 ≤ body.length → byteAt body 0 = 0x7E → byteAt body 1 * 256 + byteAt body 2 = pciVendor → byteAt body 3 = 1 →
        exec (.mctpOdRequest i3c src tag body) s = .next (s.odArrive
          { tr := if i3c then 2 else 1, src := src, tid := tag, op := byteAt (body.drop 4) 0, index := fieldAt (body.drop 4) 1 2, sub := byteAt (body.drop 4) 3, len := fieldAt (body.drop 4) 5 2, value := (body.drop 4).drop 7, started := false }))
    ∧ (s.isAbsent 0 = false → byteAt body 0 = 0 → 128 ≤ byteAt body 1 → 3 ≤ body.length →
        s.mctpReply (if i3c then 2 else 1) (byteAt body 2) (body.drop 3) = (t, d) →
        exec (.mctpControl i3c src body) s
          = .next (t.send (.mctp src (leBytes 1 0 ++ leBytes 1 (byteAt body 1 % 128) ++ leBytes 1 (byteAt body 2) ++ d))))
    ∧ (s.isAbsent 0 = false → byteAt body 0 = 5 → (8 ≤ s.boot.step ∨ s.boot.recovery = true) →
      (byteAt body 2 = 0xE0 → ∃ reply : List Byte, exec (.getMeasurements i3c src body) s = .next (s.draw.2.send (.mctp src reply)))
      ∧ (byteAt body 2 ≠ 0xE0 → ∃ reply : List Byte, exec (.spdmOverMctp i3c src body) s = .next (s.send (.mctp src reply))))

/-- Telemetry registers (R549 to R553, R559, R561, R571): a write of a counter clears it at the next boundary; a read of a low half latches the high half;
an event selection and a peak clear wait for the boundary; SNAP_GO arms a snapshot; TRACE_FLUSH and TRACE_START act on the cluster's trace. What
telemetry sends and keeps (R557, R563 to R566, R569): the beacon goes out at its beat; a margin sweep books its current, and 40 beats after starts
ends with the smallest slack; the oldest event is written to the service log, and the digest of an hour's totals with them. The model's choices in it:
log 26. -/
def Obligations.TelemetryActs : Prop :=
  (∀ (f off k n val g : Nat) (key i : Nat) (b : Blk) (s : State), f < 512 → k < Config.clusters → n < 16 → g < 16 → s.reaches 0 = true →
       (s.reaches f = true → barKey f off = some key → clearOf key = some (b, i) →
         exec (.ctrClear f off) s = .next { s with ctrClears := if s.ctrClears.contains (b, i) then s.ctrClears else s.ctrClears ++ [(b, i)] })
       ∧ (s.reaches f = true → off % 4 = 0 → barKey f (off / 8 * 8) = some key → isCounter key = true →
         exec (.counterLowRead f off) s = .next (({ s with lowLatch := smapPut (fun _ => 0) s.lowLatch (latchKey f key) (if off % 8 = 0 then s.readKey key / 2 ^ 32 + 1 else 0) } : State).send (.hostData f off (leBytes 4 (s.readBar0 f off 4)) false)))
       ∧ (∀ s1 : State, s1 = s.setReg (A.EVSEL k n) (setBits (setBits (setBits 0 63 62 (bitsOf val 63 62)) 55 48 (bitsOf val 55 48)) 16 3 (bitsOf val 16 3)) →
         exec (.telEvselWrite k n val) s = .next { s1 with tel := { s1.tel with
           evPend := if s1.tel.evPend.contains (16 * k + n) then s1.tel.evPend else s1.tel.evPend ++ [16 * k + n] } })
       ∧ (s.fld A.SNAP_CTL 63 63 ≠ 1 → exec (.snapGo g) s = .next ((s.setFld A.SNAP_CTL 11 8 g).setFld A.SNAP_CTL 63 63 1))
       ∧ exec .maxclr s = .next { s with tel := { s.tel with maxClr := true } }
       ∧ (s.isAbsent (3 + k) = false → exec (.traceFlush k) s = .next (s.traceFlush k))
       ∧ exec (.traceStart k) s = .next (s.setTraceBuf k { s.traceBuf k with sinceStart := 0 }))
  ∧ (∀ (k since : Nat) (slacks : List Int) (m : Int) (v : Nat) (e : SlogEvent) (rest : List SlogEvent) (s t u : State),
       (s.odNat 0x1010 4 1 = 1 → s.beat % 1000000 = s.canNode * 15625 → smapGet (fun _ => 0) s.power.timers 3 ≠ s.ticks + 1 →
         t = { s with power := { s.power with timers := smapPut (fun _ => 0) s.power.timers 3 (s.ticks + 1) }, tel := { s.tel with bseq := (s.tel.bseq + 1) % 65536 } } →
         exec .healthBeacon s = .next ((t.send (.can (canId 2 2 0x7F s.canNode 0) s.beaconBytes)).count (A.TEL 0x50)))
       ∧ (k < Config.clusters → s.sweepOk k = true →
         t = { s with tel := { s.tel with sweeps := s.tel.sweeps ++ [(k, s.ticks)] } } →
         exec (.marginSweep k) s = .next (t.askSys (k / 8) 100 (some 41) false (.sweep k)))
       ∧ (s.Inv → k < Config.clusters → s.tel.sweeps.find? (fun x => x.1 == k) = some (k, since) → since + 40 ≤ s.ticks →
         s.esc.waiting.any (fun q => decide (q.owner = .sweep k)) = false → slacks.length = 30 → m = slacks.foldl min 32767 →
         v = min 0xFFFE (m * 100 / (slackPerMv (k / 8) : Int)).toNat → s.odNat 0x7020 3 30 ≤ v →
         ∃ t : State, exec (.marginSweepComplete k slacks) s = .next t ∧ t.reg (A.TEL_MARGIN k 1) = s.beat ∧ t.tel.sweeps = s.tel.sweeps.filter (fun y => y.1 != k))
       ∧ (s.slogQ = e :: rest → s.isAbsent 2 = false → s.power.tripped = false →
         (s.odNat 0x7040 1 16 ≤ s.keyCount e → e.kept = false → exec .serviceLogEventWrite s = .next ((s.dropEvent.count (A.TEL 0x48)).tally 4))
         ∧ ((s.keyCount e < s.odNat 0x7040 1 16 ∨ e.kept = true) → exec .serviceLogEventWrite s = .next (s.logWrite 1 (fun t => t.dropEvent.writeEvent e))))
       ∧ (3600000000 ≤ s.tel.hourBeats → s.isAbsent 2 = false → s.power.tripped = false → s.tel.logAsked = true →
         s.esc.waiting.any (fun q => decide (q.owner = .log)) = false →
         t = { s with tel := { s.tel with logAsked := false } } →
         u = (t.storeWrite (0x2100000 + t.tel.dseq % 20480 * 512) t.digest).storeWrite (0x2000000 + t.tel.tseq % 64 * 16384) t.totals →
         exec .hourlyDigest s = .next (({ u with tel := { u.tel with dseq := t.tel.dseq + 1, tseq := t.tel.tseq + 1 } } : State).newHour)))

/-- The update's actions (R582 to R587): with no change waiting and the stage the one the entry needs, DL_BEGIN makes the inactive slot INVALID, DL_DATA
and DL_FROM give bytes, DL_ABORT ends, VERIFY, ACTIVATE, CONFIRM and REJECT start their stages; each write answers. The update's own events (R583 to
R587): a flash operation that fails its verification ends the download with code 9, one that passes erases a sector or programs a page; verification
makes the slot VERIFIED or records its check; quiesced, the new image is made active and takes over; too late, code 7; the trial is confirmed by
itself. The model's choices in it: log 28. -/
def Obligations.UpdatesRun : Prop :=
  (∀ (tr v : Nat) (r : OdRequest) (s : State), s.fwBusy = false →
       (s.Commands tr 0x8020 1 r v → s.stage = 0 → v ≤ 33554432 → ∀ k : Nat, k = s.inactiveSlot → ∀ t : State,
         t = { s with fw := { s.fw with length := v, target := k, erase := 0, buffer := [], next := 0, copyFrom := none }, od := smapPut (fun _ => ([] : List Byte)) s.od (odKey 0x8020 2) (leBytes 4 0) } →
         exec (.dlBegin tr) s = .next ((t.fwSet [(2 + k, 0), (4 + k, 0), (6, 1)] .erase).odEnd r 0 []))
       ∧ (s.Commands tr 0x8020 3 r v → s.stage = 1 → s.dlRunning = false → s.dlOffset + r.value.length ≤ s.fw.length →
         ∀ t : State, t = { s with fw := { s.fw with buffer := r.value, next := s.dlOffset } } →
         exec (.dlData tr) s = .next (((t.setDlOffset (s.dlOffset + r.value.length)).flashKick).odEnd r 0 []))
       ∧ (s.Commands tr 0x8020 4 r v → s.stage = 1 → s.dlRunning = false → s.dlOffset < s.fw.length → s.ownedByPf v (s.fw.length - s.dlOffset) = true →
         ∀ t : State, t = { s with fw := { s.fw with copyFrom := some v, next := s.dlOffset } } →
         exec (.dlFrom tr) s = .next (t.flashKick.odEnd r 0 []))
       ∧ (s.Commands tr 0x8020 5 r v → (s.stage = 1 ∨ s.stage = 2) → exec (.dlAbort tr) s = .next ((s.downloadEnd []).odEnd r 0 []))
       ∧ (s.Commands tr 0x8021 0 r v → s.stage = 2 → exec (.verify tr) s = .next ((s.fwSet [(6, 3)] .none).odEnd r 0 []))
       ∧ (s.Commands tr 0x8022 1 r v → s.stage = 4 →
         (v = 2 → exec (.activate tr) s = .next ((s.fwSet [(2 + s.fw.target, 2), (6, 5), (7, 0)] .none).odEnd r 0 []))
         ∧ (v = 1 → s.canHandOff s.fw.target = true →
             exec (.activate tr) s = .next (({ s with fw := { s.fw with quiesce := s.ticks + 1, back := false } } : State).odEnd r 0 [])))
       ∧ (s.Commands tr 0x8022 2 r v → s.stage = 5 → exec (.confirm tr) s = .next (s.confirm.odEnd r 0 []))
       ∧ (s.Commands tr 0x8022 3 r v → s.stage = 5 → ∀ k : Nat, k = s.trialSlot →
         exec (.reject tr) s = .next ((({ s with fw := { s.fw with trialSince := 0 } } : State).fwSet
           [(1, 1 - k), (2 + k, 5), (2 + (1 - k), 3), (6, 0), (7, 0)] .reject).odEnd r 0 [])))
  ∧ (∀ (k c m : Nat) (s t : State),
       (s.stage = 1 → s.holds .flash = true →
         exec (.flashOperationComplete false) s = .next (s.downloadEnd [(9, 9)])
         ∧ (s.fw.erase ≠ 0 → k = (s.fw.length + 65535) / 65536 - s.fw.erase → t = s.eraseSector (s.fw.target * 0x2000000 + k * 65536) →
             exec (.flashOperationComplete true) s = .next ((({ t with fw := { t.fw with erase := s.fw.erase - 1 } } : State).release .flash).flashKick))
         ∧ (s.fw.erase = 0 → s.fw.buffer ≠ [] → t = { s with fw := { s.fw with buffer := s.fw.buffer.drop (256 - s.fw.next % 256) } } →
             exec (.flashOperationComplete true) s = .next (t.pageDone (s.fw.buffer.take (256 - s.fw.next % 256)))))
       ∧ (s.stage = 3 → s.fwBusy = false → s.isAbsent 0 = false → k = s.fw.target →
         (s.imageFails k s.fw.length = some c → exec .verifyComplete s = .next (s.fwSet [(2 + k, 0), (6, 0), (9, c)] .none))
         ∧ (s.imageFails k s.fw.length = none → exec .verifyComplete s = .next (s.fwSet [(2 + k, 1), (4 + k, s.imageField k 4 4), (6, 4)] .none)))
       ∧ (s.fw.quiesce ≠ 0 → s.fw.blob = false →
         (s.quiesced = true → t = { s with fw := { s.fw with blob := true } } →
           exec .activateQuiesced s = .next (if s.fw.back then t.handOff else t.fwSet [(2 + s.fw.target, 2), (6, 5), (7, 1)] .handoff))
         ∧ (s.quiesced = false → s.fw.quiesce + 1000 * s.odNat 0x8023 2 200 ≤ s.ticks + 1 →
           exec .quiesceTimeout s = .next (({ s with fw := { s.fw with quiesce := 0 } } : State).fwSet [(9, 7)] .none)))
       ∧ (s.fw.handed = true → s.power.clocksOff = false →
         exec (.handoffResume false) s = .next (({ s with fw := { s.fw with handed := false } } : State).fwSet [(9, 10)] .none)
         ∧ (t = { s with absent := [], fw := { s.fw with quiesce := 0, blob := false, handed := false, trialSince := if s.fw.back then 0 else s.ticks + 1, healthy := true } } →
           exec (.handoffResume true) s = .next ((t.backTo.newContract 1).refreshHeads)))
       ∧ (s.stage = 5 → s.fwBusy = false → m = s.odNat 0x8023 1 60 → m ≠ 0 → s.fw.trialSince ≠ 0 → s.fw.healthy = true → s.fatal = false → s.isAbsent 0 = false →
         s.fw.trialSince + 60000000 * m ≤ s.ticks + 1 → exec .autoConfirm s = .next s.confirm))

/-- The memory tiers (R258, R259, R262, R268, R269, R271, R466): a scrub pass meets corrected and lost words; a bank copy ends with a spare in use;
readings set the stacks' states; a channel hot for 1,000 periods is reported, and again when it has cooled; an APPLY or a FLUSH of a cache part starts
and is done; a scrubbed error is recorded; a retrained channel counts, the third failure in a row is FATAL. The model's choices in it: log 30. -/
def Obligations.TiersAct : Prop :=
  ∀ (k j f c a : Nat) (corrected lost temps : List Nat) (b : BankCopy) (x : PartAction) (hit : List (Nat × Nat)) (s t : State),
    (k < 4 → s.due (32 + k) (3600000000 * s.odNat 0x4020 1 4) = true → s.holds (.scrub k) = true → (corrected ++ lost).all (fun o => decide (o < dieFast)) = true →
      exec (.scrubPass k corrected lost) s = .next ((lost.foldl (fun t o => t.fastUncorrectable k o)
        (corrected.foldl (fun t o => t.fastCorrected k o) (s.ran (32 + k)))).count (A.MEM_FT k 0x10)))
    ∧ (k < 4 → j < 8 → s.tiers.copies.find? (fun c => c.die == k && c.spare == j) = some b → ∃ u : State,
      exec (.bankCopyComplete k j) s = .next u ∧ (u.tiers.copies.any (fun c => c.die == k && c.spare == j) = false))
    ∧ (temps.length = 12 → s.due 5 1000 = true → 7 ≤ s.boot.step → s.power.tripped = false →
      t = ((List.range 12).zip temps).foldl (fun t (x : Nat × Nat) => t.stackReading x.1 x.2) (s.ran 5) →
      exec (.hbmTempReading temps) s = .next { t with tel := { t.tel with hbmPeak := max t.tel.hbmPeak (temps.foldl max 0) } })
    ∧ (c < 768 → s.tiers.openHot.find? (fun e => e.1 == c) = none → 1000 ≤ smapGet (fun _ => 0) s.tiers.hotRun c → s.fld A.MEM_GCTL 1 1 = 1 →
      t = { s with tiers := { s.tiers with openHot := s.tiers.openHot ++ [(c, smapGet (fun _ => 0) s.tiers.hotRun c)] } } →
      exec (.hotChannel c) s = .next ((((t.setFld A.MEM_HOT_STATUS 41 32 c).setFld A.MEM_HOT_STATUS 25 16 t.tiers.openHot.length).setFld A.MEM_HOT_STATUS 0 0 1).event 6
        [(c, 2), (1, 1), (smapGet (fun _ => 0) s.tiers.hotRun c, 8)]))
    ∧ (f < 512 → k < 4 → s.reaches 0 = true → s.tiers.partAction = none → t = (s.setFld A.MEM_FCP_CTL 24 16 f).setFld A.MEM_FCP_CTL 13 12 k →
      (s.partInvalid f k (s.partEntry f k) = false →
        exec (.apply f k) s = .next (({ t with tiers := { t.tiers with partAction := some { fn := f, die := k, apply := true } } } : State).setFld A.MEM_FCP_CTL 31 31 1))
      ∧ exec (.flush f k) s = .next (({ t with tiers := { t.tiers with partAction := some { fn := f, die := k, apply := false } } } : State).setFld A.MEM_FCP_CTL 31 31 1))
    ∧ (s.tiers.partAction = some x → t = ({ s with tiers := { s.tiers with partAction := none } } : State).setFld A.MEM_FCP_CTL 31 31 0 →
      (x.apply = true → exec .fcpActionDone s = .next (t.partInstall x.fn x.die (t.partEntry x.fn x.die)))
      ∧ (x.apply = false → exec .fcpActionDone s = .next (t.partWriteback (4 * x.fn + x.die))))
    ∧ (a < capEnd → exec (.errorCheckAndScrub a) s = .next (((s.voidBlock (blockOf a)).count (A.TG (s.pcOf a) 0xD8)).record
        { cls := 1, cause := 2, unitKind := 13, fn := s.granOwner a, addr := a, closeNow := true }))
    ∧ (c < 768 → ∀ u : State, u = ({ s with tiers := { s.tiers with pcFails := smapPut (fun _ => 0) s.tiers.pcFails c 0 } } : State) →
      exec (.pcRetrainComplete c true hit) s = .next ((u.endFlights (fun f => hit.any (fun x => x.1 == f.queue && x.2 == f.index)) 3 (s.reg A.ERR_WR)).record
        { cls := 1, cause := 0x0A, unitKind := 4, unit := c, closeNow := true }))

/-- The memory's test generators (R272, R279): TEST_MODE is set while only the PF has queues, or TEST_ERR says it is not; START in test mode with a
pattern clears the results and books the current; STOP is remembered; a run ends with its bits and its vector. The model's choices in it: log 30. -/
def Obligations.MemoryTestsRun : Prop :=
  ∀ (c v val : Nat) (mism : List TgMismatch) (s t : State), s.reaches 0 = true → c < 768 →
    (exec (.testMode 0) s = .next (s.setFld A.MEM_GCTL 0 0 0))
    ∧ ((List.range 512).any (fun f => f != 0 && s.fnEnabled f) = false → s.queues.any (fun q => s.ownsQueue 0 q.1 && q.2.state == 1) = false →
        exec (.testMode 1) s = .next (s.setFld A.MEM_GCTL 0 0 1))
    ∧ (s.fld (A.TG c 0x18) 0 0 = 0 → s.fld A.MEM_GCTL 0 0 = 1 → bitsOf val 11 8 < 4 →
        v = setBits (setBits (setBits (setBits (setBits 0 63 32 (bitsOf val 63 32)) 23 16 (bitsOf val 23 16)) 11 8 (bitsOf val 11 8)) 7 6 (bitsOf val 7 6)) 2 2 (bitsOf val 2 2) →
        exec (.start c val) s = .next (((List.range 16).foldl (fun t e => t.setReg (A.TG c (0x40 + 8 * e)) 0)
          ((s.setReg (A.TG c 0) v).setReg (A.TG c 0x18) 1)).askSys (hbcRail (c / 64)) 40 none false (.tg c)))
    ∧ (s.fld (A.TG c 0x18) 0 0 = 1 →
      (s.tiers.tgStop.contains c = false → exec (.stop c) s = .next { s with tiers := { s.tiers with tgStop := c :: s.tiers.tgStop } })
      ∧ (s.holds (.tg c) = true → t = mism.foldl (fun t m => t.tgMismatch c m) s →
          (s.fld (A.TG c 0) 2 2 = 1 → s.tiers.tgStop.contains c = false → exec (.tgDone c mism) s = .next t)
          ∧ (s.fld (A.TG c 0) 2 2 = 0 → ∀ u w : State, u = (t.release (.tg c)).tgDestroy c → w = { u with tiers := { u.tiers with tgStop := u.tiers.tgStop.filter (fun x => x != c) } } →
              exec (.tgDone c mism) s = .next ((((w.setFld (A.TG c 0x18) 0 0 0).setFld (A.TG c 0x18) 1 1 1).setFld (A.TG c 0x18) 2 2
                (if w.fld (A.TG c 0x18) 63 32 = 0 then 0 else 1)).raiseVector 0 2))))

/-- Field tests and hangs (R23, R455 to R459): a due test starts when none runs; a test past its deadline is forced; a test that is over counts, with a
pass setting the next deadline and a fail recording and retiring the slot; a spare that has woken serves; a hang ends the core's commands and is
recorded. The model's choices in it: log 31. -/
def Obligations.FieldTestsRun : Prop :=
  ∀ (n k slot chain c core : Nat) (t x : FieldTest) (fl : Flight) (s u : State),
    (s.testsWait = false → s.faults.test = none → s.faults.waiting = [] → s.firstDue = some n →
      exec .iftStart s = .next (s.testStart { cluster := n / 17, slot := n % 17, cmd := none, forced := false }))
    ∧ (k < 32 → slot < 17 → s.slotRetired k slot = false → (s.slotData (slotKey k slot)).due ≤ s.beat → s.faults.test = none → s.faults.waiting = [] →
      x = { cluster := k, slot := slot, cmd := none, forced := true } → u = { s with faults := { s.faults with waiting := s.insertForced x [] } } →
      exec (.iftForced k slot) s = .next (((u.count (A.IFT 0x20)).showOverdue).forceNext))
    ∧ (s.faults.test = some t → s.testOver = true → s.coreOfSlot t.cluster t.slot = some core → s.awake core = true → t.cmd = none →
      u = ((({ s with faults := { s.faults with test := none } } : State).setReg A.IFT_STATUS (s.fld A.IFT_STATUS 9 0)).count (A.IFT 0x10)).modCore core
        (fun x => { x with testHold := false, tile := none, pfBuf := [], idleSince := s.ticks }) →
      (exec (.iftComplete true chain) s = .next (((u.modSlot t.cluster t.slot (fun d => { d with testsRun := d.testsRun + 1, testsFailed := d.testsFailed })).modSlot
        t.cluster t.slot (fun d => { d with lastPass := s.beat, due := s.beat + s.iftDeadline })).forceNext)
      ∧ (∀ v w : State, v = ((u.modSlot t.cluster t.slot (fun d => { d with testsRun := d.testsRun + 1, testsFailed := d.testsFailed + 1 })).count (A.IFT 0x18)).record
            { cls := 1, cause := 6, unitKind := 1, slot := t.slot, unit := core, detail := chain } →
          w = { v with fw := { v.fw with healthy := v.fw.healthy && v.fw.trialSince == 0 } } →
          exec (.iftComplete false chain) s = .next ((w.retireSlot t.cluster t.slot (s.reg A.ERR_WR)).forceNext))))
    ∧ (k < 32 → c = 16 * k + bitsOf (s.mapWord k) 23 20 → s.faults.spareWaking.contains k = true → s.cstate c = 0 → s.waking c = false →
      exec (.spareReady k) s = .next ((({ s with faults := { s.faults with spareWaking := s.faults.spareWaking.filter (fun x => x != k) } } : State).closeRecords
        (fun r => r.cause == 6 && r.unit == c)).refreshHeads))
    ∧ (c < Config.cores → s.faults.armed.find? (fun a => a.kind == 6 && a.core == c) = none → s.isAbsent (3 + c / 16) = false →
      (s.flights.filter (fun f => f.core == c && f.inCore && !f.ended && f.powered && decide (f.grantTick + s.hangBeats ≤ s.ticks))).head? = some fl →
      ∀ k slot last : Nat, k = c / 16 → slot = s.slotOf c → last = (s.slotData (slotKey k slot)).lastHang → ∀ v w y : State,
        v = (({ s with faults := { s.faults with armed := s.faults.armed.filter (fun a => !(a.kind == 6 && a.core == c)) } } : State).endFlights
          (fun f => f.core == c && f.inCore) 3 (s.reg A.ERR_WR)).record
          { cls := 1, cause := 7, unitKind := 1, slot := slot, unit := c, fn := fl.fn, queue := fl.queue, index := fl.index } →
        w = ((v.modCore c (fun x => { x with tile := none })).count (A.IFT 0x30)).modSlot k slot (fun d => { d with hangs := d.hangs + 1, lastHang := s.ticks + 1 }) →
        y = w.bringDue k slot →
        exec (.coreHang c) s = .next (if last ≠ 0 ∧ s.ticks + 1 ≤ last + 3600000 then y.retireSlot k slot (s.reg A.ERR_WR) else y))

/-- Resets while the device runs (R596, R600, R610 to R612, R625): HUB_CLRST starts the reset of the clusters named and CLUSTER_RESET_DONE ends it; FLR of
a VF, FLR of the PF and the clearing of VF Enable; PERST_N low resets and closes the link, rising it opens it again; a hot reset. The model's choices
in it: log 32. -/
def Obligations.RunningResetsAct : Prop :=
  ∀ (mask f : Nat) (s t u : State),
    (s.reaches 0 = true → s.fld A.HUB_CLRST 63 63 ≠ 1 → mask % 2 ^ 32 ≠ 0 → t = ({ s with clrst := mask % 2 ^ 32, clrstAt := s.ticks } : State).setFld A.HUB_CLRST 63 63 1 →
      exec (.hubClrst mask) s = .next ((clustersOf (mask % 2 ^ 32)).foldl (fun t k =>
        ((List.range 16).foldl (fun u j => u.resetCore (16 * k + j)) (t.endFlights (fun f => f.core / 16 == k) 3 0)).writeOut k) t))
    ∧ (s.fld A.HUB_CLRST 63 63 ≠ 0 → t = (clustersOf s.clrst).foldl State.writeOut s → (s.clrstAt + s.snpTo ≤ s.ticks ∨ (clustersOf s.clrst).all t.clusterOut = true) →
      u = ((clustersOf s.clrst).filter (fun k => !t.clusterOut k)).foldl State.loseCluster t →
      exec .clusterResetDone s = .next (((({ u with clrst := 0 } : State).setFld A.HUB_CLRST 63 63 0).closeRecords (fun r => r.cause == 8 && r.cls == 1)).refreshHeads))
    ∧ (s.boot.pcieUp = true →
      (f < 512 → f ≠ 0 → s.fnPresent f = true → exec (.flr f) s = .next (s.flr f))
      ∧ exec (.flr 0) s = .next s.pfFlr
      ∧ exec .pfFlr s = .next s.pfFlr
      ∧ (s.vfEnable = true → exec .vfEnableClear s = .next { ((List.range s.numVfs).foldl (fun t j => t.flr (j + 1)) s) with vfEnable := false })
      ∧ (s.runs = true → exec .hotReset s = .next s.warmReset))
    ∧ (s.boot.perst = true → t = (if s.runs then s.warmReset else s) → exec .perstN s = .next { t with boot := { t.boot with perst := false, pcieUp := false }, barOpen := false })
    ∧ (s.boot.perst = false → exec .perstNRise s = .next { s with
        boot := { s.boot with perst := true, pcieUp := s.boot.pwrGood && !s.power.tripped && (decide (4 ≤ s.boot.step) || s.boot.recovery) }
        barOpen := s.runs })

/-- Power and boot (R546, R580, R625, R626): PWR_GOOD rising starts a cold reset with the straps sampled, falling drops all but what flash and the
counters of the module keep; a loss of power also loses what no flash holds; each boot step leads to the next, an overdue boot starts again, a rail
that does not settle stops it. The test access port (IEEE 1149.1, R629): TRST_N low is Test-Logic-Reset with the IDCODE instruction; an edge of TCK
acts in the state the port is in and leads to the next state; Test-Logic-Reset selects IDCODE, Update-IR the instruction shifted, Update-DR of a
boundary instruction the cells. The model's choices in it: log 33. -/
def Obligations.PowerBootAndTap : Prop :=
  (∀ (node sel n r b e : Nat) (s t u : State),
       (s.boot.pwrGood = false → s.power.tripped = false → t = s.coldState →
         exec (.pwrGoodRise node sel) s = .next { t with boot := { t.boot with pwrGood := true, step := 1, nodeId := node % 64, bootSel := sel % 4 } })
       ∧ (s.boot.pwrGood = true → t = (s.journalCut n).coldState →
         exec (.pwrGoodFall n) s = .next { t with
           beat := s.beat, ps := s.ps, ticks := s.ticks
           tel := { t.tel with boots := s.tel.boots }
           power := { t.power with clocksOff := true, tripped := s.power.tripped, flowSince := s.power.flowSince }
           boot := { t.boot with pwrGood := false } })
       ∧ (∃ w y : State, exec (.powerLoss n) s = .next (y.setReg A.TEL_LIFE s.storedLife) ∧ y.mem = w.coldState.mem ∧ y.regs = w.coldState.regs
           ∧ w.fw = (s.journalCut n).fw ∧ y.boot.pwrGood = false ∧ y.boot.tap = 0 ∧ y.boot.ir = 1)
       ∧ (s.boot.pwrGood = true → s.power.tripped = false → s.boot.recovery = false → s.boot.step ≠ 0 →
         (s.boot.railFault = false → s.boot.step < 10 → (s.boot.step = 3 → s.fwBusy = false) → (s.boot.step = 4 → s.flowGood = true) → t = s.bootStep (s.boot.step + 1) →
           exec .bootStepComplete s = .next { t with boot := { t.boot with step := s.boot.step + 1 } })
         ∧ (s.boot.railFault = true → t = s.coldState → b = (if 3 ≤ s.boot.step ∧ s.slotState s.fw.running = 3 then s.boot.failed + 1 else s.boot.failed) →
             u = { t with beat := s.beat, ps := s.ps, ticks := s.ticks, od := s.od, power := { t.power with flowSince := s.power.flowSince }, boot := { t.boot with step := 1, since := s.ticks, failed := b } } →
             exec .bootTimeout s = .next { u.fwEvent 2 s.fw.running 0xFF with od := [] }))
       ∧ (r < 18 → s.power.enables.find? (fun e => e.1 == enableOf r) = some (enableOf r, e) → e + 5000 ≤ s.ticks →
         exec (.railFault r) s = .next { s with
           power := { s.power with enables := [], frames := [], clocksOff := true }
           faults := { s.faults with alert := true }
           boot := { s.boot with railFault := true } }))
  ∧ (∀ (tms tdi : Bool) (s t : State) (b : Boot), t = s.tapAct tdi →
       exec (.tck tms tdi false) s = .next { s with boot := { s.boot with tap := 0, ir := 1 } }
       ∧ (tapNext s.boot.tap tms = 0 → exec (.tck tms tdi true) s = .next { t with boot := { t.boot with ir := 1, tap := 0 } })
       ∧ (tapNext s.boot.tap tms = 15 → exec (.tck tms tdi true) s = .next { t with boot := { t.boot with ir := s.tapInstr (t.boot.shift % 256), tap := 15 } })
       ∧ (tapNext s.boot.tap tms = 8 → 2 ≤ t.boot.ir → t.boot.ir ≤ 4 → exec (.tck tms tdi true) s = .next { t with boot := { t.boot with cells := t.boot.shift, tap := 8 } })
       ∧ (tapNext s.boot.tap tms ≠ 0 → tapNext s.boot.tap tms ≠ 15 → tapNext s.boot.tap tms ≠ 8 → b = { t.boot with tap := tapNext s.boot.tap tms } →
           exec (.tck tms tdi true) s = .next { t with boot := b }))

/-- The host's window and registers (R7, R594, R599, R602, R608): a BAR2 read answers the bytes (in the system region the queue contexts and semaphores)
and a BAR2 write stores them where every granule may be accessed and the scratchpad is awake; an unmasked vector with pending causes is sent, a vector
held is sent at the end of its hold-off; configuration accesses; a register is written. The model's choices in it: log 32. -/
def Obligations.HostAccessesAct : Prop :=
  ∀ (f o n v val off key : Nat) (data : List Byte) (on en all : Bool) (a : Nat) (s : State), f < 512 →
    (s.reaches f = true →
      (s.bar2Hit f o n = true → n ≤ 4096 → a = s.bar2Addr f o → s.bar2Bad f a n false = false → s.bar2Sleeper a = none → s.badWord a n = none →
        exec (.bar2Read f o n) s = .next (((chunks a n).foldl (fun t c => t.traffic c.1 c.2 false) s).send (.hostData f o (s.hostBytes a n) false)))
      ∧ (s.bar2Hit f o data.length = true → data.length ≤ 512 → a = s.bar2Addr f o → s.bar2Bad f a data.length true = false → s.bar2Sleeper a = none →
        exec (.bar2Write f o data) s = .next ((chunks a data.length).foldl (fun t c =>
          ((t.purgeRange c.1 c.2).traffic c.1 c.2 true).plainWrite c.1 ((data.drop (c.1 - a)).take c.2)) s))
      ∧ (v < vectorCount f → ∀ m : MsixVec, m = s.msixVec f v → ∀ t : State, t = s.setMsix f v { m with masked := false } →
        exec (.msixUnmask f v) s = .next (if m.masked && decide (m.causes ≠ 0) && t.vectorOpen f v then t.sendVector f v else t))
      ∧ (off % 8 = 0 → doorbellOf off = none → barKey f off = some key → exec (.registerWrite f off 8 val) s = .next (s.writeKey key (val % 2 ^ 64) (2 ^ 64 - 1)))
      ∧ (off % 4 = 0 → doorbellOf off = none → barKey f (off / 8 * 8) = some key →
        exec (.registerWrite f off 4 val) s = .next (s.writeKey key (val % 2 ^ 32 * 2 ^ (off % 8 * 8)) ((2 ^ 32 - 1) * 2 ^ (off % 8 * 8)))))
    ∧ (v < vectorCount f → (s.msixVec f v).causes ≠ 0 → s.fld (A.MSIX_MOD f v) 31 16 ≠ 0 → (s.msixVec f v).firstBeat + s.fld (A.MSIX_MOD f v) 31 16 ≤ s.ticks →
      exec (.msixHoldoffExpiry f v) s = .next (if s.vectorOpen f v then s.sendVector f v else s.setMsix f v { (s.msixVec f v) with pend := true }))
    ∧ (s.boot.pcieUp = true → s.fnPresent f = true →
      exec (.pcieConfigAccess f .identity) s = .next (s.send (.hostData f 0 (identityBytes f) false))
      ∧ exec (.pcieConfigAccess f (.busMaster on)) s = .next ((s.setPcie f { (s.fnPcie f) with busMaster := on }).flushVectors f)
      ∧ exec (.pcieConfigAccess f (.msix en all)) s = .next ((s.setPcie f { (s.fnPcie f) with msixEnable := en, msixMaskAll := all }).flushVectors f)
      ∧ (30 ≤ n → n ≤ 41 → exec (.pcieConfigAccess 0 (.bar2Size false n)) s = .next (s.setPcie 0 { (s.fnPcie 0) with bar2Log := n }))
      ∧ (21 ≤ n → n ≤ 36 → exec (.pcieConfigAccess 0 (.bar2Size true n)) s = .next (s.setPcie 0 { (s.fnPcie 0) with vfBar2Log := n }))
      ∧ ((n = 128 ∨ n = 256 ∨ n = 512) → exec (.pcieConfigAccess 0 (.maxPayload n)) s = .next (s.setPcie 0 { (s.fnPcie 0) with maxPayload := n }))
      ∧ (50 ≤ n → n ≤ 64000000 → exec (.pcieConfigAccess 0 (.completionTimeout n)) s = .next (s.setPcie 0 { (s.fnPcie 0) with cplTimeout := n }))
      ∧ (s.vfEnable = false → n ≤ 511 → exec (.pcieConfigAccess 0 (.vfEnable n)) s = .next { s with vfEnable := true, numVfs := n }))

/-- What every step keeps, over every state and not only those a run reaches: the invariant `State.Inv` (memory, seals, registers and semaphores in
canonical form; BEAT and its phase in their ranges; at most 256 events waiting for the service log and 256 records in the error ring). The model's
choices in it: log 3, 4. -/
def Obligations.InvariantKept : Prop := ∀ s t : State, s.Inv → step s = .next t → t.Inv

/-- The state after reset meets the invariant. The model's choices in it: log 6, 7. -/
def Obligations.ResetMeetsInvariant : Prop := State.reset.Inv

/-- Commands leave their queue one by one, and none enters it, is lost or changes its place: after a step that answers a next state, what waits is what
waited behind the command in front. The model's choices in it: log 1. -/
def Obligations.OneCommandLeaves : Prop := ∀ s t : State, step s = .next t → t.pending = s.pending.tail

/-- The frame of the commands that store nothing (`storesSomething` lists the others): every byte of memory and every semaphore reads as before. -/
def Obligations.StoringNothing : Prop :=
  ∀ (c : Instr) (s t : State), storesSomething c = false → exec c s = .next t → (∀ a : Nat, t.byte a = s.byte a) ∧ ∀ n : Nat, t.sem n = s.sem n

/-- The frame of the commands that do not configure the device (`configures` lists the others): the time base and its logic, the arbiter, PCIe
configuration, waiting clears, counter latches, object-dictionary values, absent processors, boot, pins, selections and windows stay. The model's
choices in it: log 3. -/
def Obligations.ConfigurationStays : Prop :=
  ∀ (c : Instr) (s t : State), configures c = false → exec c s = .next t →
    t.beat = s.beat ∧ t.ticks = s.ticks ∧ t.sorter = s.sorter ∧ t.pcie = s.pcie ∧ t.vfEnable = s.vfEnable ∧ t.numVfs = s.numVfs
    ∧ t.ctrClears = s.ctrClears ∧ t.lowLatch = s.lowLatch ∧ t.beatLogic = s.beatLogic ∧ t.od = s.od ∧ t.absent = s.absent ∧ t.boot = s.boot
    ∧ t.evsel = s.evsel ∧ t.barOpen = s.barOpen ∧ t.clrst = s.clrst ∧ t.clrstAt = s.clrstAt

/-- Writes (R445): a plain write and a sealing write store their bytes at their addresses and no other byte; a plain write makes every block it touches
valid, a sealing write only those it writes whole; every other block keeps its state. The model's choices in it: log 4. -/
def Obligations.WritesStoreExactly : Prop :=
  ∀ (a x : Nat) (bs : List Byte) (s : State), s.Inv →
    (s.plainWrite a bs).byte x = (if a ≤ x ∧ x < a + bs.length then bs.getD (x - a) 0 else s.byte x)
    ∧ (s.sealWrite a bs).byte x = (if a ≤ x ∧ x < a + bs.length then bs.getD (x - a) 0 else s.byte x)
    ∧ (x % 2048 = 0 →
        (s.plainWrite a bs).sealState x = (if bs ≠ [] ∧ a < x + 2048 ∧ x < a + bs.length then .valid else s.sealState x)
        ∧ (s.sealWrite a bs).sealState x = (if a ≤ x ∧ x + 2048 ≤ a + bs.length then .valid else s.sealState x))

/-- The host's writes through BAR2 (R601, R602): the bytes go to the addresses the window gives and nowhere else; a write that is refused, or that waits
for a sleeping core, stores nothing. The model's choices in it: log 32. -/
def Obligations.HostWriteStoresExactly : Prop :=
  ∀ (f o a : Nat) (data : List Byte) (s : State), s.Inv → f < 512 → s.reaches f = true → s.bar2Hit f o data.length = true → data.length ≤ 512 →
    a = s.bar2Addr f o → ∃ t : State, exec (.bar2Write f o data) s = .next t
      ∧ (s.bar2Bad f a data.length true = false → s.bar2Sleeper a = none →
          ∀ x : Nat, t.byte x = if a ≤ x ∧ x < a + data.length then data.getD (x - a) 0 else s.byte x)
      ∧ ((s.bar2Bad f a data.length true = true ∨ s.bar2Sleeper a ≠ none) → ∀ x : Nat, t.byte x = s.byte x)

/-- The end of a command (R312, R314): it is marked ended with its status and DETAIL, once, and no other command in flight changes; ended by an error that
takes several, every one that has not ended takes the status, and the blocks it wrote take the void seal; its bytes stay. The model's choices in it:
log 5. -/
def Obligations.EndingCommands : Prop :=
  ∀ (q i status detail : Nat) (s t : State),
    (t = s.endFlight q i status detail →
      (∀ fl : Flight, s.flight? q i = some fl → fl.ended = false → t.flight? q i = some { fl with ended := true, status := status, detail := detail })
      ∧ (∀ fl : Flight, s.flight? q i = some fl → fl.ended = true → t.flight? q i = some fl)
      ∧ (∀ q' i' : Nat, (q', i') ≠ (q, i) → t.flight? q' i' = s.flight? q' i')
      ∧ t = { s with flights := t.flights })
    ∧ ∀ p : Flight → Bool, t = s.endFlights p status detail →
        t.flights = s.flights.map (fun f => if p f && !f.ended then { f with ended := true, status := status, detail := detail } else f)
        ∧ (∀ a : Nat, t.byte a = s.byte a)
        ∧ (s.Inv → ∀ b : Nat, t.sealState b = if (s.flights.any (fun f => p f && !f.ended && f.blocks.contains b)) = true then .void else s.sealState b)

/-- The three states of a seal block (R444), the check that only a valid one passes, and the write that makes a void block valid again. -/
def Obligations.SealStates : Prop :=
  ∀ (s : State) (b : Nat),
    (s.sealState b = .valid ↔ s.storedSeal b = crc32c (s.bytes b 2048))
    ∧ (s.sealState b = .void ↔ s.storedSeal b = crc32c (s.bytes b 2048) ^^^ 0xFFFFFFFF#32)
    ∧ (s.sealState b = .mismatched ↔ s.storedSeal b ≠ crc32c (s.bytes b 2048) ∧ s.storedSeal b ≠ crc32c (s.bytes b 2048) ^^^ 0xFFFFFFFF#32)
    ∧ (∀ (f q i a p : Nat) (j : JobSt), j.st = s → j.fail = none → s.resolve f a false = .phys p → b = blockOf p → j.seen.contains b = false →
        s.tiers.badWords.find? (fun w => w / 2048 == b / 2048) = none →
        ((j.checkBlock f q i true a).fail = none ↔ s.sealState b = .valid))
    ∧ ∀ (a : Nat) (bs : List Byte), s.Inv → b % 2048 = 0 → bs ≠ [] → a < b + 2048 → b < a + bs.length → (s.plainWrite a bs).sealState b = .valid

/-- Semaphores (R309): the null semaphore reads as 0 and ignores writes; every other one holds what is written, additions wrapping modulo 2^64; a write of
one leaves the others alone. -/
def Obligations.SemaphoreRule : Prop :=
  ∀ (n m v : Nat) (s : State), s.Inv →
    s.sem 0 = 0 ∧ s.setSem 0 v = s
    ∧ (n ≠ 0 → (s.setSem n v).sem n = v % 2 ^ 64 ∧ (s.addSem n v).sem n = (s.sem n + v) % 2 ^ 64)
    ∧ (m ≠ n → (s.setSem n v).sem m = s.sem m ∧ (s.addSem n v).sem m = s.sem m)

/-- Integer codes and power-of-two scales (R30, R35, R39). -/
def Obligations.CodesAndScales : Prop :=
  (∀ (c : Nat) (book : List Byte), c < 16 → elemVal 1 book c = .fin (if c < 8 then (c : Int) else (c : Int) - 16) 0)
  ∧ (∀ (c : Nat) (book : List Byte), c < 256 → elemVal 6 book c = .fin (if c < 128 then (c : Int) else (c : Int) - 256) 0)
  ∧ (∀ e : Nat, e < 255 → ue8m0 e = .fin 1 ((e : Int) - 127)) ∧ ue8m0 255 = .nan
  ∧ ∀ (e : Nat) (x : Int) (n : Bool), ue8m0 e ≠ .fin 0 x ∧ ue8m0 e ≠ .zero n

/-- The tenant entries after a cold reset (R321). -/
def Obligations.TenantsAfterColdReset : Prop :=
  State.reset.fnEnabled 0 = true ∧ (∀ c : Nat, c < 512 → State.reset.ownsCore 0 c = true) ∧ (∀ a : Nat, State.reset.granOwner a = 0)
  ∧ (∀ f : Nat, f < 512 → State.reset.qbase f = 512 * f ∧ State.reset.qcount f = 512 ∧ State.reset.semBase f = 2048 * f ∧ State.reset.semCount f = 2048
      ∧ State.reset.fld (A.TENANT f 0x10) 15 0 = 1 ∧ State.reset.reg (A.TENANT f 0x18) = 0x0101010101010101
      ∧ State.reset.reg (A.TENANT f 0x20) = 0x0101010101010101 ∧ State.reset.pkey f = 0)
  ∧ ∀ f : Nat, 0 < f → f < 512 → State.reset.fnEnabled f = false ∧ ∀ c : Nat, c < 512 → State.reset.ownsCore f c = false

/-- Containment (R461): class UCT ends the function's commands with FAULT_LOST and pauses its enabled queues; class FATAL ends every command with
FAULT_LOST, sets FATAL and asserts ALERT_N. The model's choices in it: log 31. -/
def Obligations.ErrorsContained : Prop :=
  ∀ (f seq : Nat) (s t : State),
    (t = s.endFlights (fun x => x.fn == f) 3 seq →
      (s.containUct f seq).flights = t.flights
      ∧ ∀ q : Nat, ((s.containUct f seq).queue q).state = if t.ownsQueue f q = true ∧ (s.queue q).state = 1 then 2 else (s.queue q).state)
    ∧ (s.containFatal seq).flights = s.flights.map (fun x => if x.ended then x else { x with ended := true, status := 3, detail := seq })
    ∧ (s.containFatal seq).faults.alert = true
    ∧ (s.Inv → (s.containFatal seq).fatal = true)

/-- Interrupt moderation (R608): a cause at an open vector sends the message when COUNT causes are pending, and clears them, or else waits; at a vector
that may not send it sets the pending bit. -/
def Obligations.InterruptsModerated : Prop :=
  ∀ (f v : Nat) (m : MsixVec) (s : State), v < vectorCount f → s.fnPresent f = true → m = s.msixVec f v → ∀ m1 : MsixVec,
    m1 = { m with causes := m.causes + 1, firstBeat := if m.causes = 0 then s.ticks else m.firstBeat } →
    (s.vectorOpen f v = true → zeroAs 1 (s.fld (A.MSIX_MOD f v) 15 0) ≤ m.causes + 1 →
      (s.raiseVector f v).outbox = s.outbox ++ [.msix f v m.addr m.data]
      ∧ (s.raiseVector f v).msix = ((s.setMsix f v m1).setMsix f v { m1 with causes := 0, firstBeat := 0, pend := false }).msix)
    ∧ (s.vectorOpen f v = true → m.causes + 1 < zeroAs 1 (s.fld (A.MSIX_MOD f v) 15 0) → s.raiseVector f v = s.setMsix f v m1)
    ∧ (s.vectorOpen f v = false → (s.raiseVector f v).outbox = s.outbox
      ∧ (s.raiseVector f v).msix = ((s.setMsix f v m1).setMsix f v { m1 with pend := true }).msix)

/-- Counters (R549): an event adds its amount to COUNT modulo 2^48; passing 2^48 - 1 sets WRAP, which stays; no other register of the hub moves. -/
def Obligations.CountersCount : Prop :=
  ∀ (k n k' : Nat) (s : State), s.Inv → k < 0x400000 → n < 2 ^ 48 →
    (s.count k n).reg k % 2 ^ 48 = (s.reg k + n) % 2 ^ 48
    ∧ (bitOf ((s.count k n).reg k) 63 = true ↔ bitOf (s.reg k) 63 = true ∨ 2 ^ 48 ≤ s.reg k % 2 ^ 48 + n)
    ∧ (k' ≠ k → (s.count k n).reg k' = s.reg k')

/-- The doorbell check (R305): a write to an ENABLED or PAUSED queue that holds all four conditions updates TAIL and CDONE; one that does not changes
neither, puts the queue into ERROR and offers a dead letter with reason DOORBELL; to a DISABLED or ERROR queue it is ignored and counted. -/
def Obligations.DoorbellsChecked : Prop :=
  ∀ (f q tail cdone : Nat) (x : Queue) (s : State), f < 512 → q < Config.queues → s.reaches f = true → s.ownsQueue f q = true → x = s.queue q → x.stopping = 0 →
    (x.doorbellValid tail cdone = true ↔
      (((tail : Int) - x.tail) % 2 ^ 32 < 2 ^ 31 ∧ ((tail : Int) - x.head) % 2 ^ 32 ≤ x.size ∧ ((tail : Int) - cdone) % 2 ^ 32 ≤ x.size
        ∧ ((cdone : Int) - x.cdone) % 2 ^ 32 < 2 ^ 31))
    ∧ ((x.state = 1 ∨ x.state = 2) →
      (x.doorbellValid tail cdone = true →
        exec (.doorbellWrite f q 8 tail cdone) s = .next (s.setQueue q { x with tail := tail % 2 ^ 32, cdone := cdone % 2 ^ 32 }))
      ∧ (x.doorbellValid tail cdone = false → ∀ t : State, t = (s.count (A.QMGF f 0xA8)).setQueue q { x with state := 4, errState := 1 } →
        exec (.doorbellWrite f q 8 tail cdone) s = .next (t.deadLetter f q (List.replicate 64 0) (List.replicate 32 0) 4).1))
    ∧ ((x.state = 0 ∨ x.state = 4) → exec (.doorbellWrite f q 8 tail cdone) s = .next (s.count (A.QMGF f 0xA8)))
end

