-- ==== Sys2Proof/Laws/Sparse.lean ====
section
/-!
SUPPORT. Sparse maps: reading after writing, and the canonical form kept by every operation on them.
-/

namespace Sys2Proof.Machine

variable {α : Type} [DecidableEq α] {d : Nat → α}

omit [DecidableEq α] in
@[simp] theorem smapGet_nil (k : Nat) : smapGet d [] k = d k := rfl

omit [DecidableEq α] in
@[simp] theorem smapGet_cons (k k' : Nat) (v : α) (m : List (Nat × α)) :
    smapGet d ((k', v) :: m) k = if k' = k then v else smapGet d m k := rfl

theorem smapWfFrom_cons {lo k : Nat} {v : α} {m : List (Nat × α)} :
    smapWfFrom d lo ((k, v) :: m) = true ↔ lo ≤ k ∧ v ≠ d k ∧ smapWfFrom d (k + 1) m = true := by
  simp [smapWfFrom, and_assoc]

theorem smapWfFrom_mono {lo lo' : Nat} {m : List (Nat × α)} (hl : lo' ≤ lo) (h : smapWfFrom d lo m = true) : smapWfFrom d lo' m = true := by
  cases m with
  | nil => rfl
  | cons kv m =>
    rw [smapWfFrom_cons] at h ⊢
    exact ⟨Nat.le_trans hl h.1, h.2⟩

/-- Below the first key of a canonical map nothing is listed. -/
theorem smapGet_below {lo k : Nat} {m : List (Nat × α)} (h : smapWfFrom d lo m = true) (hk : k < lo) : smapGet d m k = d k := by
  induction m generalizing lo with
  | nil => rfl
  | cons kv m ih =>
    obtain ⟨k', v⟩ := kv
    rw [smapWfFrom_cons] at h
    rw [smapGet_cons, if_neg (by omega), ih h.2.2 (by omega)]

/-- A write is read back, and every other key reads as before. -/
theorem smapGet_put_from {lo : Nat} {m : List (Nat × α)} (h : smapWfFrom d lo m = true) (k k' : Nat) (v : α) :
    smapGet d (smapPut d m k v) k' = if k' = k then v else smapGet d m k' := by
  induction m generalizing lo with
  | nil =>
    simp only [smapPut]
    by_cases hv : v = d k
    · by_cases hk : k' = k
      · subst hk; simp [hv]
      · simp [hv, hk]
    · simp only [hv, if_false, smapGet_cons, smapGet_nil]
      by_cases hk : k = k'
      · simp [hk]
      · simp [hk, Ne.symm hk]
  | cons kv m ih =>
    obtain ⟨k₀, v₀⟩ := kv
    have h' := h
    rw [smapWfFrom_cons] at h'
    simp only [smapPut]
    by_cases h1 : k < k₀
    · rw [if_pos h1]
      have below : smapGet d ((k₀, v₀) :: m) k = d k := smapGet_below (lo := k₀)
        (by rw [smapWfFrom_cons]; exact ⟨Nat.le_refl _, h'.2⟩) h1
      by_cases hv : v = d k
      · rw [if_pos hv]
        by_cases hk : k' = k
        · rw [hk, if_pos rfl, below, hv]
        · rw [if_neg hk]
      · rw [if_neg hv, smapGet_cons]
        by_cases hk : k = k'
        · rw [if_pos hk, if_pos hk.symm]
        · rw [if_neg hk, if_neg (Ne.symm hk)]
    · rw [if_neg h1]
      by_cases h2 : k = k₀
      · subst h2
        rw [if_pos rfl]
        by_cases hv : v = d k
        · rw [if_pos hv]
          by_cases hk : k' = k
          · subst hk; rw [if_pos rfl, smapGet_below h'.2.2 (by omega), hv]
          · rw [if_neg hk, smapGet_cons, if_neg (Ne.symm hk)]
        · rw [if_neg hv]
          by_cases hk : k' = k
          · subst hk; simp
          · simp [hk, Ne.symm hk]
      · rw [if_neg h2, smapGet_cons, ih h'.2.2, smapGet_cons]
        by_cases hk : k' = k
        · subst hk; simp [Ne.symm h2]
        · simp [hk]

theorem smapGet_put {m : List (Nat × α)} (h : smapWf d m = true) (k k' : Nat) (v : α) :
    smapGet d (smapPut d m k v) k' = if k' = k then v else smapGet d m k' := smapGet_put_from h k k' v

omit [DecidableEq α] in
theorem smapGet_eq_of_none {m : List (Nat × α)} {k : Nat} (h : ∀ kv ∈ m, kv.1 ≠ k) : smapGet d m k = d k := by
  induction m with
  | nil => rfl
  | cons kv m ih =>
    obtain ⟨k', v⟩ := kv
    rw [smapGet_cons, if_neg (h _ (List.mem_cons_self ..)), ih (fun x hx => h x (List.mem_cons_of_mem _ hx))]

/-- What is written is read back in any map, canonical or not. -/
theorem smapGet_put_other (m : List (Nat × α)) {k k' : Nat} (v : α) (hk : k' ≠ k) : smapGet d (smapPut d m k v) k' = smapGet d m k' := by
  induction m with
  | nil => simp only [smapPut]; split <;> simp [Ne.symm hk]
  | cons kv m ih =>
    obtain ⟨k₀, v₀⟩ := kv
    simp only [smapPut]
    split
    · split
      · rfl
      · simp [Ne.symm hk]
    · split
      · next h => subst h; split <;> simp [Ne.symm hk]
      · simp [ih]

/-- A write keeps the canonical form. -/
theorem smapWfFrom_put {lo k : Nat} {m : List (Nat × α)} (v : α) (h : smapWfFrom d lo m = true) (hk : lo ≤ k) :
    smapWfFrom d lo (smapPut d m k v) = true := by
  induction m generalizing lo with
  | nil =>
    simp only [smapPut]
    split
    · rfl
    · next hv => rw [smapWfFrom_cons]; exact ⟨hk, hv, rfl⟩
  | cons kv m ih =>
    obtain ⟨k₀, v₀⟩ := kv
    have h' := h
    rw [smapWfFrom_cons] at h'
    simp only [smapPut]
    split
    · next h1 =>
      split
      · exact h
      · next hv => rw [smapWfFrom_cons, smapWfFrom_cons]; exact ⟨hk, hv, by omega, h'.2⟩
    · split
      · next h1 h2 =>
        subst h2
        split
        · exact smapWfFrom_mono (by omega) h'.2.2
        · next hv => rw [smapWfFrom_cons]; exact ⟨hk, hv, h'.2.2⟩
      · next h1 h2 => rw [smapWfFrom_cons]; exact ⟨h'.1, h'.2.1, ih h'.2.2 (by omega)⟩

theorem smapWf_put {m : List (Nat × α)} (k : Nat) (v : α) (h : smapWf d m = true) : smapWf d (smapPut d m k v) = true :=
  smapWfFrom_put v h (Nat.zero_le k)

theorem smapWfFrom_filter {lo : Nat} {m : List (Nat × α)} (p : Nat × α → Bool) (h : smapWfFrom d lo m = true) :
    smapWfFrom d lo (m.filter p) = true := by
  induction m generalizing lo with
  | nil => rfl
  | cons kv m ih =>
    obtain ⟨k, v⟩ := kv
    rw [smapWfFrom_cons] at h
    by_cases hp : p (k, v) = true
    · rw [List.filter_cons_of_pos hp, smapWfFrom_cons]; exact ⟨h.1, h.2.1, ih h.2.2⟩
    · rw [List.filter_cons_of_neg hp]; exact smapWfFrom_mono (by omega) (ih h.2.2)

/-- Dropping entries keeps the canonical form. -/
theorem smapWf_drop {m : List (Nat × α)} (p : Nat → Bool) (h : smapWf d m = true) : smapWf d (smapDrop p m) = true :=
  smapWfFrom_filter _ h

theorem smapWf_filter {m : List (Nat × α)} (p : Nat × α → Bool) (h : smapWf d m = true) : smapWf d (m.filter p) = true :=
  smapWfFrom_filter _ h

omit [DecidableEq α] in
/-- A dropped key reads as unlisted; every other key reads as before. -/
theorem smapGet_drop (p : Nat → Bool) (m : List (Nat × α)) (k : Nat) : smapGet d (smapDrop p m) k = if p k then d k else smapGet d m k := by
  induction m with
  | nil => simp [smapDrop]
  | cons kv m ih =>
    obtain ⟨k', v⟩ := kv
    simp only [smapDrop] at ih ⊢
    by_cases hp : p k' = true
    · rw [List.filter_cons_of_neg (by simp [hp]), ih, smapGet_cons]
      by_cases hk : k' = k
      · subst hk; simp [hp]
      · simp [hk]
    · rw [List.filter_cons_of_pos (by simp [hp]), smapGet_cons, smapGet_cons, ih]
      by_cases hk : k' = k
      · subst hk; simp [hp]
      · simp [hk]

/-- Two canonical maps, all keys of the first below those of the second, joined. -/
theorem smapWfFrom_append {lo mid : Nat} {m n : List (Nat × α)} (h : smapWfFrom d lo m = true) (hn : smapWfFrom d mid n = true)
    (hlo : lo ≤ mid) (hm : ∀ kv ∈ m, kv.1 < mid) : smapWfFrom d lo (m ++ n) = true := by
  induction m generalizing lo with
  | nil => exact smapWfFrom_mono hlo hn
  | cons kv m ih =>
    obtain ⟨k, v⟩ := kv
    rw [smapWfFrom_cons] at h
    rw [List.cons_append, smapWfFrom_cons]
    have hk := hm _ (List.mem_cons_self ..)
    exact ⟨h.1, h.2.1, ih h.2.2 (by omega) (fun x hx => hm x (List.mem_cons_of_mem _ hx))⟩

/-- The entries from key `k` on of a canonical map are canonical above `k`. -/
theorem smapWfFrom_filter_ge {lo k : Nat} {m : List (Nat × α)} (h : smapWfFrom d lo m = true) :
    smapWfFrom d k (m.filter (fun c => decide (k ≤ c.1))) = true := by
  induction m generalizing lo with
  | nil => rfl
  | cons kv m ih =>
    obtain ⟨k', v⟩ := kv
    rw [smapWfFrom_cons] at h
    by_cases hk : k ≤ k'
    · rw [List.filter_cons_of_pos (by simpa using hk), smapWfFrom_cons]
      exact ⟨hk, h.2.1, smapWfFrom_filter _ h.2.2⟩
    · rw [List.filter_cons_of_neg (by simpa using hk)]; exact ih h.2.2

/-- Values at consecutive keys, the unlisted ones left out, make a canonical map. -/
theorem smapWfFrom_cells (f : Nat → α) (a n : Nat) :
    smapWfFrom d a ((List.range n).filterMap (fun i => if f i = d (a + i) then none else some (a + i, f i))) = true
      ∧ ∀ kv ∈ (List.range n).filterMap (fun i => if f i = d (a + i) then none else some (a + i, f i)), kv.1 < a + n := by
  induction n with
  | zero => exact ⟨rfl, fun kv h => by simp at h⟩
  | succ n ih =>
    obtain ⟨h1, h2⟩ := ih
    rw [List.range_succ, List.filterMap_append]
    by_cases hv : f n = d (a + n)
    · simp only [List.filterMap_cons, hv, if_true, List.filterMap_nil, List.append_nil]
      exact ⟨h1, fun kv h => by have := h2 kv h; omega⟩
    · simp only [List.filterMap_cons, hv, if_false, List.filterMap_nil]
      refine ⟨smapWfFrom_append (mid := a + n) h1 ?_ (by omega) h2, fun kv h => ?_⟩
      · rw [smapWfFrom_cons]; exact ⟨Nat.le_refl _, hv, rfl⟩
      · rw [List.mem_append] at h
        rcases h with h | h
        · have := h2 kv h; omega
        · rw [List.mem_singleton] at h; subst h; simp only; omega

/-- Consecutive keys of a canonical map replaced: the map is canonical again. -/
theorem smapWf_splice {m : List (Nat × α)} (f : Nat → α) (a n : Nat) (h : smapWf d m = true) :
    smapWf d (m.filter (fun c => decide (c.1 < a)) ++ (List.range n).filterMap (fun i => if f i = d (a + i) then none else some (a + i, f i))
      ++ m.filter (fun c => decide (a + n ≤ c.1))) = true := by
  obtain ⟨h1, h2⟩ := smapWfFrom_cells (d := d) f a n
  refine smapWfFrom_append (mid := a + n) (smapWfFrom_append (mid := a) (smapWfFrom_filter _ h) h1 (by omega) (fun kv hk => ?_))
    (smapWfFrom_filter_ge h) (by omega) (fun kv hk => ?_)
  · simpa using (List.mem_filter.1 hk).2
  · rw [List.mem_append] at hk
    rcases hk with hk | hk
    · have : kv.1 < a := by simpa using (List.mem_filter.1 hk).2
      omega
    · exact h2 kv hk

end Sys2Proof.Machine
end

