-- ==== Sys2Proof/Laws/Keeps.lean ====
section
/-!
SUPPORT. The relation that every operation of the machine respects: the queue of waiting commands is left alone, and the invariant is kept.
One lemma per operation, in the files Laws/Keeps….lean, says that the operation respects it; the lemmas here are the rules they use.
-/

namespace Sys2Proof.Machine

/-- `Keeps s t` on the parts of `t` that it speaks of. -/
def KeepsParts (s : State) (p : List Instr) (m : List Host.Cell) (r : List (Nat × W64)) (b ps : Nat) (q : List SlogEvent) (g : List ErrRecord) (w : List (Nat × W64)) (l : List (Nat × W32)) : Prop :=
  p = s.pending ∧ (s.Inv → Memory.wf m ∧ smapWf regCold r = true ∧ b < 2 ^ 64 ∧ ps < 1000000 ∧ q.length ≤ 256 ∧ g.length ≤ 256 ∧ smapWf (fun _ => (0 : W64)) w = true ∧ smapWf (fun _ => 0xFFFFFFFF#32) l = true)

/-- From `s` to `t` the queue is unchanged and the invariant is kept. -/
def Keeps (s t : State) : Prop := KeepsParts s t.pending t.mem t.regs t.beat t.ps t.slogQ t.faults.ring t.sems t.seals

/-- The same of an outcome's next state. -/
def KeepsR (s : State) (r : Result) : Prop := ∀ t, r = .next t → Keeps s t

/-- The same of the state `f` finds in an answer, when there is one. -/
def KeepsO {α : Type} (f : α → State) (s : State) (o : Option α) : Prop := ∀ x, o = some x → Keeps s (f x)

variable {s t : State}

theorem Keeps.refl (s : State) : Keeps s s := ⟨rfl, fun h => h⟩

theorem Keeps.pending (h : Keeps s t) : t.pending = s.pending := h.1

theorem Keeps.inv (h : Keeps s t) (hs : s.Inv) : t.Inv := h.2 hs

theorem Keeps.parts (h : Keeps s t) : KeepsParts s t.pending t.mem t.regs t.beat t.ps t.slogQ t.faults.ring t.sems t.seals := h

theorem Keeps.fields {p m r b ps q w l} {f : FaultState} {x1 x2 x5 x6 x7 x8 x9 x10 x11 x13 x14 x15 x16 x17 x18 x19 x20 x21 x22 x23 x24 x25 x26 x27 x28 x29 x30 x31 x32 x33 x34 x35 x36}
    (h : KeepsParts s p m r b ps q f.ring w l) :
    Keeps s ⟨p, x1, x2, r, m, l, b, ps, x5, x6, x7, x8, x9, x10, x11, w, x13, x14, f, q, x15, x16, x17, x18, x19, x20, x21, x22, x23, x24, x25, x26, x27, x28, x29, x30, x31, x32, x33, x34, x35, x36⟩ := h

theorem Keeps.withMem {m} (h : Keeps s t) (hm : s.Inv → Memory.wf t.mem → Memory.wf m) : KeepsParts s t.pending m t.regs t.beat t.ps t.slogQ t.faults.ring t.sems t.seals :=
  ⟨h.1, fun i => let ⟨a, b⟩ := h.2 i; ⟨hm i a, b⟩⟩

theorem Keeps.withRegs {r} (h : Keeps s t) (hr : smapWf regCold t.regs = true → smapWf regCold r = true) :
    KeepsParts s t.pending t.mem r t.beat t.ps t.slogQ t.faults.ring t.sems t.seals :=
  ⟨h.1, fun i => let ⟨a, b, c⟩ := h.2 i; ⟨a, hr b, c⟩⟩

theorem Keeps.withBeat {b ps} (h : Keeps s t) (hb : b < 2 ^ 64) (hp : ps < 1000000) : KeepsParts s t.pending t.mem t.regs b ps t.slogQ t.faults.ring t.sems t.seals :=
  ⟨h.1, fun i => let ⟨x, y, _, _, d⟩ := h.2 i; ⟨x, y, hb, hp, d⟩⟩

theorem Keeps.withPs {ps} (h : Keeps s t) (hp : ps < 1000000) : KeepsParts s t.pending t.mem t.regs t.beat ps t.slogQ t.faults.ring t.sems t.seals :=
  ⟨h.1, fun i => let ⟨x, y, z, _, d⟩ := h.2 i; ⟨x, y, z, hp, d⟩⟩

theorem Keeps.mixBeat {u : State} (h : Keeps s t) (h' : Keeps s u) : KeepsParts s t.pending t.mem t.regs u.beat u.ps t.slogQ t.faults.ring t.sems t.seals :=
  ⟨h.1, fun i => let ⟨x, y, _, _, d⟩ := h.2 i; let ⟨_, _, z, p, _⟩ := h'.2 i; ⟨x, y, z, p, d⟩⟩

theorem Keeps.fresh (h : Keeps s t) : KeepsParts s t.pending [] [] 0 0 [] [] [] [] :=
  ⟨h.1, fun _ => ⟨rfl, rfl, by decide, by decide, by decide, by decide, rfl, rfl⟩⟩

theorem Keeps.withSlog {q} (h : Keeps s t) (hq : t.slogQ.length ≤ 256 → q.length ≤ 256) : KeepsParts s t.pending t.mem t.regs t.beat t.ps q t.faults.ring t.sems t.seals :=
  ⟨h.1, fun i => let ⟨a, b, c, f, d, e⟩ := h.2 i; ⟨a, b, c, f, hq d, e⟩⟩

theorem Keeps.withRing {g} (h : Keeps s t) (hg : t.faults.ring.length ≤ 256 → g.length ≤ 256) : KeepsParts s t.pending t.mem t.regs t.beat t.ps t.slogQ g t.sems t.seals :=
  ⟨h.1, fun i => let ⟨a, b, c, f, d, e, k⟩ := h.2 i; ⟨a, b, c, f, d, hg e, k⟩⟩

theorem Keeps.mk_iff {p m r b ps q w l} {f : FaultState} {x1 x2 x5 x6 x7 x8 x9 x10 x11 x13 x14 x15 x16 x17 x18 x19 x20 x21 x22 x23 x24 x25 x26 x27 x28 x29 x30 x31 x32 x33 x34 x35 x36} :
    Keeps s ⟨p, x1, x2, r, m, l, b, ps, x5, x6, x7, x8, x9, x10, x11, w, x13, x14, f, q, x15, x16, x17, x18, x19, x20, x21, x22, x23, x24, x25, x26, x27, x28, x29, x30, x31, x32, x33, x34, x35, x36⟩
      ↔ KeepsParts s p m r b ps q f.ring w l := Iff.rfl

theorem Keeps.isFun {α β : Sort _} {G : Prop} (_ : α → β) (h : G) : G := h

theorem Keeps.isFaults {G : Prop} (_ : FaultState) (h : G) : G := h

theorem Keeps.withSems {w} (h : Keeps s t) (hw : smapWf (fun _ => (0 : W64)) t.sems = true → smapWf (fun _ => (0 : W64)) w = true) :
    KeepsParts s t.pending t.mem t.regs t.beat t.ps t.slogQ t.faults.ring w t.seals :=
  ⟨h.1, fun i => let ⟨a, b, c, f, d, e, k, j⟩ := h.2 i; ⟨a, b, c, f, d, e, hw k, j⟩⟩

theorem Keeps.withSeals {l} (h : Keeps s t) (hl : smapWf (fun _ => 0xFFFFFFFF#32) t.seals = true → smapWf (fun _ => 0xFFFFFFFF#32) l = true) :
    KeepsParts s t.pending t.mem t.regs t.beat t.ps t.slogQ t.faults.ring t.sems l :=
  ⟨h.1, fun i => let ⟨a, b, c, f, d, e, k, j⟩ := h.2 i; ⟨a, b, c, f, d, e, k, hl j⟩⟩

theorem Keeps.dropped (h : Keeps s t) (p : Nat → Bool) :
    KeepsParts s t.pending (smapDrop p t.mem) t.regs t.beat t.ps t.slogQ t.faults.ring t.sems (smapDrop p t.seals) :=
  ⟨h.1, fun i => let ⟨a, b, c, f, d, e, k, j⟩ := h.2 i; ⟨smapWf_drop _ a, b, c, f, d, e, k, smapWf_drop _ j⟩⟩

theorem Keeps.lost (h : Keeps s t) : KeepsParts s t.pending [] t.regs t.beat t.ps t.slogQ t.faults.ring [] [] :=
  ⟨h.1, fun i => let ⟨_, b, c, f, d, e, _⟩ := h.2 i; ⟨rfl, b, c, f, d, e, rfl, rfl⟩⟩

/-- A named intermediate state is kept when its value is. -/
theorem Keeps.bind {x v : State} {G : Prop} (e : x = v) (hv : Keeps s v) (h : Keeps s x → G) : G := h (e ▸ hv)

theorem Keeps.bindFst {α : Type} {x v : State × α} {G : Prop} (e : x = v) (hv : Keeps s v.1) (h : Keeps s x.1 → G) : G := h (e ▸ hv)

theorem Keeps.bindSnd {α : Type} {x v : α × State} {G : Prop} (e : x = v) (hv : Keeps s v.2) (h : Keeps s x.2 → G) : G := h (e ▸ hv)

theorem Keeps.bindJob {x v : JobSt} {G : Prop} (e : x = v) (hv : Keeps s v.st) (h : Keeps s x.st → G) : G := h (e ▸ hv)

theorem Keeps.bindRes {x v : JobResult} {G : Prop} (e : x = v) (hv : Keeps s v.st) (h : Keeps s x.st → G) : G := h (e ▸ hv)

theorem Keeps.ite {c : Prop} [Decidable c] {a b : State} (ha : Keeps s a) (hb : Keeps s b) : Keeps s (if c then a else b) := by split <;> assumption

theorem Keeps.foldl {α : Type} {f : State → α → State} {l : List α} {a : State} (ha : Keeps s a) (hf : ∀ x y, Keeps s x → Keeps s (f x y)) :
    Keeps s (l.foldl f a) := by
  induction l generalizing a with
  | nil => exact ha
  | cons y l ih => exact ih (hf a y ha)

theorem Keeps.foldlPair {α β : Type} {f : State × β → α → State × β} {l : List α} {a : State × β} (ha : Keeps s a.1) (hf : ∀ x y, Keeps s x.1 → Keeps s (f x y).1) :
    Keeps s (l.foldl f a).1 := by
  induction l generalizing a with
  | nil => exact ha
  | cons y l ih => exact ih (hf a y ha)

theorem Keeps.foldlJob {α : Type} {f : JobSt → α → JobSt} {l : List α} {a : JobSt} (ha : Keeps s a.st) (hf : ∀ x y, Keeps s x.st → Keeps s (f x y).st) :
    Keeps s (l.foldl f a).st := by
  induction l generalizing a with
  | nil => exact ha
  | cons y l ih => exact ih (hf a y ha)

theorem Keeps.iteJob {c : Prop} [Decidable c] {a b : JobSt} (ha : Keeps s a.st) (hb : Keeps s b.st) : Keeps s (if c then a else b).st := by split <;> assumption

theorem Keeps.iteFst {α : Type} {c : Prop} [Decidable c] {a b : State × α} (ha : Keeps s a.1) (hb : Keeps s b.1) : Keeps s (if c then a else b).1 := by split <;> assumption

theorem Keeps.iteSnd {α : Type} {c : Prop} [Decidable c] {a b : α × State} (ha : Keeps s a.2) (hb : Keeps s b.2) : Keeps s (if c then a else b).2 := by split <;> assumption

/-- A state taken out of a pair, or of an answer, is kept when the pair's or the answer's is. -/
theorem Keeps.fstEq {α : Type} {p : State × α} {b : α} (e : p = (t, b)) (h : Keeps s p.1) : Keeps s t := by rw [e] at h; exact h

theorem Keeps.sndEq {α : Type} {p : α × State} {b : α} (e : p = (b, t)) (h : Keeps s p.2) : Keeps s t := by rw [e] at h; exact h

theorem Keeps.jobEq {α : Type} {p : JobSt × α} {j : JobSt} {b : α} (e : p = (j, b)) (h : Keeps s p.1.st) : Keeps s j.st := by rw [e] at h; exact h

theorem Keeps.optEq {o : Option State} (e : o = some t) (h : KeepsO (fun x => x) s o) : Keeps s t := h t e

theorem Keeps.optEq2 {α : Type} {o : Option (α × State)} {b : α} (e : o = some (b, t)) (h : KeepsO (fun x => x.2) s o) : Keeps s t := h (b, t) e

theorem Keeps.optEq3 {α β : Type} {o : Option (α × β × State)} {b : α} {c : β} (e : o = some (b, c, t)) (h : KeepsO (fun x => x.2.2) s o) : Keeps s t :=
  h (b, c, t) e

theorem KeepsO.none {α : Type} {f : α → State} : KeepsO f s none := fun _ e => nomatch e

theorem KeepsO.some {α : Type} {f : α → State} {x : α} (h : Keeps s (f x)) : KeepsO f s (some x) := fun _ e => by cases e; exact h

theorem KeepsO.ite {α : Type} {f : α → State} {c : Prop} [Decidable c] {a b : Option α} (ha : KeepsO f s a) (hb : KeepsO f s b) :
    KeepsO f s (if c then a else b) := by split <;> assumption

theorem Keeps.getD {o : Option State} {d : State} (h : KeepsO (fun x => x) s o) (hd : Keeps s d) : Keeps s (o.getD d) := by
  cases o with
  | none => exact hd
  | some x => exact h x rfl

theorem KeepsR.next (h : Keeps s t) : KeepsR s (.next t) := fun _ e => by cases e; exact h

theorem KeepsR.fault {e : Fault} : KeepsR s (.fault e) := fun _ e => nomatch e

theorem KeepsR.refused {e : Refusal} : KeepsR s (.refused e) := fun _ e => nomatch e

theorem KeepsR.onUnit {p : Bool} (h : Keeps s t) : KeepsR s (onUnit p t) := by
  unfold Sys2Proof.Machine.onUnit; split
  · exact .next h
  · exact .fault

theorem KeepsR.ite {c : Prop} [Decidable c] {a b : Result} (ha : KeepsR s a) (hb : KeepsR s b) : KeepsR s (if c then a else b) := by split <;> assumption

/-- The ring holds at most its 256 newest records (R464). -/
theorem pushRing_length (ring : List ErrRecord) (r : ErrRecord) : (pushRing ring r).length ≤ 256 := by
  simp only [pushRing, List.length_drop, List.length_append, List.length_singleton]; omega

/-- Storing bytes keeps memory canonical. -/
theorem putBytesMem_wf {m : List Host.Cell} (a : Nat) (bs : List Byte) (h : Memory.wf m) : Memory.wf (putBytesMem m a bs) := by
  induction bs generalizing m a with
  | nil => exact h
  | cons b bs ih => exact ih (a + 1) (smapWf_put a b h)

end Sys2Proof.Machine
end

