-- ==== Sys2Proof/Laws/KeepsOps.lean ====
section
/-!
SUPPORT. The operations of Machine/Ops.lean leave the queue alone and keep the invariant (Laws/Keeps.lean).
-/

set_option linter.all false

namespace Sys2Proof.Machine

theorem State.setSem_keeps {s0 : State} {s : State} (n : Nat) (v : Nat) (hs : Keeps s0 s) :
    Keeps s0 (State.setSem s n v) := by
  unfold State.setSem
  split
  · exact hs
  · exact Keeps.fields (hs.withSems (smapWf_put _ _))

theorem State.markEnded_keeps {s0 : State} {s : State} (p : Flight → Bool) (status : Nat) (detail : Nat) (hs : Keeps s0 s) :
    Keeps s0 (State.markEnded s p status detail) := by
  unfold State.markEnded
  repeat' with_reducible first
    | assumption | intro _ | apply Keeps.ite | apply Keeps.foldl | (simp only [Keeps.mk_iff]; apply Keeps.parts) | split | dsimp only

theorem State.setReg_keeps {s0 : State} {s : State} (k : Nat) (v : Nat) (hs : Keeps s0 s) :
    Keeps s0 (State.setReg s k v) := by
  exact Keeps.fields (hs.withRegs (smapWf_put _ _))

theorem State.count_keeps {s0 : State} {s : State} (k : Nat) (n : Nat) (hs : Keeps s0 s) :
    Keeps s0 (State.count s k n) := by
  unfold State.count
  repeat' with_reducible first
    | assumption | intro _ | apply State.setReg_keeps | apply Keeps.ite | apply Keeps.foldl | (simp only [Keeps.mk_iff]; apply Keeps.parts) | split
    | dsimp only

theorem State.setSyndrome_keeps {s0 : State} {s : State} (b : Nat) (x : W32) (hs : Keeps s0 s) :
    Keeps s0 (State.setSyndrome s b x) := by
  exact Keeps.fields (hs.withSeals (smapWf_put _ _))

theorem State.voidBlock_keeps {s0 : State} {s : State} (b : Nat) (hs : Keeps s0 s) :
    Keeps s0 (State.voidBlock s b) := by
  unfold State.voidBlock
  repeat' with_reducible first
    | assumption | intro _ | apply State.count_keeps | apply State.setSyndrome_keeps | apply Keeps.ite | apply Keeps.foldl
    | (simp only [Keeps.mk_iff]; apply Keeps.parts) | split | dsimp only

theorem State.voidBlocks_keeps {s0 : State} {s : State} (bs : List Nat) (hs : Keeps s0 s) :
    Keeps s0 (State.voidBlocks s bs) := by
  unfold State.voidBlocks
  repeat' with_reducible first
    | assumption | intro _ | apply State.voidBlock_keeps | apply Keeps.ite | apply Keeps.foldl | (simp only [Keeps.mk_iff]; apply Keeps.parts) | split
    | dsimp only

theorem State.endFlights_keeps {s0 : State} {s : State} (p : Flight → Bool) (status : Nat) (detail : Nat) (hs : Keeps s0 s) :
    Keeps s0 (State.endFlights s p status detail) := by
  unfold State.endFlights
  repeat' with_reducible first
    | assumption | intro _ | apply State.markEnded_keeps | apply State.voidBlocks_keeps | apply Keeps.ite | apply Keeps.foldl
    | (simp only [Keeps.mk_iff]; apply Keeps.parts) | split | dsimp only

theorem State.setFld_keeps {s0 : State} {s : State} (k : Nat) (hi : Nat) (lo : Nat) (v : Nat) (hs : Keeps s0 s) :
    Keeps s0 (State.setFld s k hi lo v) := by
  unfold State.setFld
  repeat' with_reducible first
    | assumption | intro _ | apply State.setReg_keeps | apply Keeps.ite | apply Keeps.foldl | (simp only [Keeps.mk_iff]; apply Keeps.parts) | split
    | dsimp only

theorem State.tally_keeps {s0 : State} {s : State} (k : Nat) (n : Nat) (hs : Keeps s0 s) :
    Keeps s0 (State.tally s k n) := by
  unfold State.tally
  repeat' with_reducible first
    | assumption | intro _
    | (extract_lets +onlyGivenNames x; clear_value (hx : x = _); first | refine Keeps.bind (s := s0) hx ?_ (fun _ => ?_) | (refine Keeps.isFaults x ?_; subst hx) | skip)
    | apply Keeps.ite | apply Keeps.foldl | (simp only [Keeps.mk_iff]; apply Keeps.parts) | split | dsimp only

theorem State.containFatal_keeps {s0 : State} {s : State} (seq : Nat) (hs : Keeps s0 s) :
    Keeps s0 (State.containFatal s seq) := by
  unfold State.containFatal
  repeat' with_reducible first
    | assumption | intro _
    | (extract_lets +onlyGivenNames x; clear_value (hx : x = _); first | refine Keeps.bind (s := s0) hx ?_ (fun _ => ?_) | (refine Keeps.isFaults x ?_; subst hx) | skip)
    | apply State.setFld_keeps | apply State.endFlights_keeps | apply Keeps.ite | apply Keeps.foldl | (simp only [Keeps.mk_iff]; apply Keeps.parts)
    | split | dsimp only

theorem State.containUct_keeps {s0 : State} {s : State} (f : Nat) (seq : Nat) (hs : Keeps s0 s) :
    Keeps s0 (State.containUct s f seq) := by
  unfold State.containUct
  repeat' with_reducible first
    | assumption | intro _
    | (extract_lets +onlyGivenNames x; clear_value (hx : x = _); first | refine Keeps.bind (s := s0) hx ?_ (fun _ => ?_) | (refine Keeps.isFaults x ?_; subst hx) | skip)
    | apply State.endFlights_keeps | apply Keeps.ite | apply Keeps.foldl | (simp only [Keeps.mk_iff]; apply Keeps.parts) | split | dsimp only

theorem State.setMsix_keeps {s0 : State} {s : State} (f : Nat) (v : Nat) (m : MsixVec) (hs : Keeps s0 s) :
    Keeps s0 (State.setMsix s f v m) := by
  unfold State.setMsix
  repeat' with_reducible first
    | assumption | intro _ | apply Keeps.ite | apply Keeps.foldl | (simp only [Keeps.mk_iff]; apply Keeps.parts) | split | dsimp only

theorem State.send_keeps {s0 : State} {s : State} (o : Out) (hs : Keeps s0 s) :
    Keeps s0 (State.send s o) := by
  unfold State.send
  repeat' with_reducible first
    | assumption | intro _ | apply Keeps.ite | apply Keeps.foldl | (simp only [Keeps.mk_iff]; apply Keeps.parts) | split | dsimp only

theorem State.sendVector_keeps {s0 : State} {s : State} (f : Nat) (v : Nat) (hs : Keeps s0 s) :
    Keeps s0 (State.sendVector s f v) := by
  unfold State.sendVector
  repeat' with_reducible first
    | assumption | intro _
    | (extract_lets +onlyGivenNames x; clear_value (hx : x = _); first | refine Keeps.bind (s := s0) hx ?_ (fun _ => ?_) | (refine Keeps.isFaults x ?_; subst hx) | skip)
    | apply State.setMsix_keeps | apply State.send_keeps | apply Keeps.ite | apply Keeps.foldl | (simp only [Keeps.mk_iff]; apply Keeps.parts) | split
    | dsimp only

theorem State.raiseVector_keeps {s0 : State} {s : State} (f : Nat) (v : Nat) (hs : Keeps s0 s) :
    Keeps s0 (State.raiseVector s f v) := by
  unfold State.raiseVector
  repeat' with_reducible first
    | assumption | intro _
    | (extract_lets +onlyGivenNames x; clear_value (hx : x = _); first | refine Keeps.bind (s := s0) hx ?_ (fun _ => ?_) | (refine Keeps.isFaults x ?_; subst hx) | skip)
    | apply State.setMsix_keeps | apply State.sendVector_keeps | apply Keeps.ite | apply Keeps.foldl | (simp only [Keeps.mk_iff]; apply Keeps.parts)
    | split | dsimp only

theorem State.event_keeps {s0 : State} {s : State} (kind : Nat) (data : List (Nat × Nat)) (hs : Keeps s0 s) :
    Keeps s0 (State.event s kind data) := by
  unfold State.event
  split
  · next hl =>
    apply State.setFld_keeps
    exact Keeps.fields (hs.withSlog (fun _ => by simp only [List.length_append, List.length_singleton]; omega))
  · exact State.tally_keeps _ _ (State.count_keeps _ _ hs)

theorem State.writeRecord_keeps {s0 : State} {s : State} (n : ErrNote) (cls : Nat) (prev : Nat) (esc : Bool) (hs : Keeps s0 s) :
    Keeps s0 (State.writeRecord s n cls prev esc) := by
  unfold State.writeRecord
  extract_lets seq r ring src s1 s2
  have hr : ring.length ≤ 256 := pushRing_length s.faults.ring r
  clear_value ring
  have h1 : Keeps s0 s1 := by
    unfold s1
    apply Keeps.fields
    exact hs.withRing (g := ring) (fun _ => hr)
  have h2 : Keeps s0 s2 := State.setReg_keeps _ _ h1
  clear_value s1 s2 r
  repeat' with_reducible first
    | assumption
    | (extract_lets +onlyGivenNames x; clear_value (hx : x = _); first | refine Keeps.bind (s := s0) hx ?_ (fun _ => ?_) | skip)
    | apply State.containUct_keeps | apply State.containFatal_keeps | apply State.tally_keeps | apply State.raiseVector_keeps
    | apply State.event_keeps | apply State.setFld_keeps | apply Keeps.ite

theorem State.setCLine_keeps {s0 : State} {s : State} (k : Nat) (l : Nat) (v : CLine) (hs : Keeps s0 s) :
    Keeps s0 (State.setCLine s k l v) := by
  unfold State.setCLine
  repeat' with_reducible first
    | assumption | intro _
    | (extract_lets +onlyGivenNames x; clear_value (hx : x = _); first | refine Keeps.bind (s := s0) hx ?_ (fun _ => ?_) | (refine Keeps.isFaults x ?_; subst hx) | skip)
    | apply Keeps.ite | apply Keeps.foldl | (simp only [Keeps.mk_iff]; apply Keeps.parts) | split | dsimp only

theorem State.setCore_keeps {s0 : State} {s : State} (c : Nat) (v : Core) (hs : Keeps s0 s) :
    Keeps s0 (State.setCore s c v) := by
  unfold State.setCore
  repeat' with_reducible first
    | assumption | intro _ | apply Keeps.ite | apply Keeps.foldl | (simp only [Keeps.mk_iff]; apply Keeps.parts) | split | dsimp only

theorem State.modCore_keeps {s0 : State} {s : State} (c : Nat) (f : Core → Core) (hs : Keeps s0 s) :
    Keeps s0 (State.modCore s c f) := by
  unfold State.modCore
  repeat' with_reducible first
    | assumption | intro _ | apply State.setCore_keeps | apply Keeps.ite | apply Keeps.foldl | (simp only [Keeps.mk_iff]; apply Keeps.parts) | split
    | dsimp only

theorem State.invalPf_keeps {s0 : State} {s : State} (k : Nat) (l : Nat) (hs : Keeps s0 s) :
    Keeps s0 (State.invalPf s k l) := by
  unfold State.invalPf
  repeat' with_reducible first
    | assumption | intro _
    | (extract_lets +onlyGivenNames x; clear_value (hx : x = _); first | refine Keeps.bind (s := s0) hx ?_ (fun _ => ?_) | (refine Keeps.isFaults x ?_; subst hx) | skip)
    | apply State.modCore_keeps | apply State.count_keeps | apply Keeps.ite | apply Keeps.foldl | (simp only [Keeps.mk_iff]; apply Keeps.parts) | split
    | dsimp only

theorem State.writebackLine_keeps {s0 : State} {s : State} (l : Nat) (hs : Keeps s0 s) :
    Keeps s0 (State.writebackLine s l) := by
  unfold State.writebackLine
  repeat' with_reducible first
    | assumption | intro _ | apply State.count_keeps | apply State.setSyndrome_keeps | apply Keeps.ite | apply Keeps.foldl
    | (simp only [Keeps.mk_iff]; apply Keeps.parts) | split | dsimp only

theorem State.purgeCopy_keeps {s0 : State} {s : State} (l : Nat) (k : Nat) (hs : Keeps s0 s) :
    Keeps s0 (State.purgeCopy s l k) := by
  unfold State.purgeCopy
  repeat' with_reducible first
    | assumption | intro _ | apply State.invalPf_keeps | apply State.writebackLine_keeps | apply State.setCLine_keeps | apply Keeps.ite
    | apply Keeps.foldl | (simp only [Keeps.mk_iff]; apply Keeps.parts) | split | dsimp only

theorem State.purgeLine_keeps {s0 : State} {s : State} (l : Nat) (hs : Keeps s0 s) :
    Keeps s0 (State.purgeLine s l) := by
  unfold State.purgeLine
  repeat' with_reducible first
    | assumption | intro _
    | (extract_lets +onlyGivenNames x; clear_value (hx : x = _); first | refine Keeps.bind (s := s0) hx ?_ (fun _ => ?_) | (refine Keeps.isFaults x ?_; subst hx) | skip)
    | apply State.purgeCopy_keeps | apply Keeps.ite | apply Keeps.foldl | (simp only [Keeps.mk_iff]; apply Keeps.parts) | split | dsimp only

theorem State.purgeWhere_keeps {s0 : State} {s : State} (p : Nat → Bool) (hs : Keeps s0 s) :
    Keeps s0 (State.purgeWhere s p) := by
  unfold State.purgeWhere
  repeat' with_reducible first
    | assumption | intro _ | apply State.purgeLine_keeps | apply Keeps.ite | apply Keeps.foldl | (simp only [Keeps.mk_iff]; apply Keeps.parts) | split
    | dsimp only

theorem State.setDomain_keeps {s0 : State} {s : State} (f : Nat) (v : StepDomain) (hs : Keeps s0 s) :
    Keeps s0 (State.setDomain s f v) := by
  unfold State.setDomain
  repeat' with_reducible first
    | assumption | intro _ | apply Keeps.ite | apply Keeps.foldl | (simp only [Keeps.mk_iff]; apply Keeps.parts) | split | dsimp only

theorem State.record_keeps {s0 : State} {s : State} (n : ErrNote) (hs : Keeps s0 s) :
    Keeps s0 (State.record s n) := by
  unfold State.record
  repeat' with_reducible first
    | assumption | intro _
    | (extract_lets +onlyGivenNames x; clear_value (hx : x = _); first | refine Keeps.bind (s := s0) hx ?_ (fun _ => ?_) | (refine Keeps.isFaults x ?_; subst hx) | skip)
    | apply State.writeRecord_keeps | apply State.setFld_keeps | apply Keeps.ite | apply Keeps.foldl | (simp only [Keeps.mk_iff]; apply Keeps.parts)
    | split | dsimp only

theorem State.putByte_keeps {s0 : State} {s : State} (a : Nat) (b : Byte) (hs : Keeps s0 s) :
    Keeps s0 (State.putByte s a b) := by
  exact Keeps.fields (hs.withMem (fun _ => smapWf_put _ _))

theorem State.setQueue_keeps {s0 : State} {s : State} (q : Nat) (v : Queue) (hs : Keeps s0 s) :
    Keeps s0 (State.setQueue s q v) := by
  unfold State.setQueue
  repeat' with_reducible first
    | assumption | intro _ | apply Keeps.ite | apply Keeps.foldl | (simp only [Keeps.mk_iff]; apply Keeps.parts) | split | dsimp only

theorem State.putBytes_keeps {s0 : State} {s : State} (a : Nat) (bs : List Byte) (hs : Keeps s0 s) :
    Keeps s0 (State.putBytes s a bs) := by
  exact Keeps.fields (hs.withMem (fun _ => putBytesMem_wf _ _))

theorem State.sealWrite_keeps {s0 : State} {s : State} (a : Nat) (bs : List Byte) (hs : Keeps s0 s) :
    Keeps s0 (State.sealWrite s a bs) := by
  unfold State.sealWrite
  repeat' with_reducible first
    | assumption | intro _ | apply State.count_keeps | apply State.putBytes_keeps | apply State.setSyndrome_keeps | apply Keeps.ite | apply Keeps.foldl
    | (simp only [Keeps.mk_iff]; apply Keeps.parts) | split | dsimp only

theorem State.modFlight_keeps {s0 : State} {s : State} (q : Nat) (i : Nat) (g : Flight → Flight) (hs : Keeps s0 s) :
    Keeps s0 (State.modFlight s q i g) := by
  unfold State.modFlight
  repeat' with_reducible first
    | assumption | intro _ | apply Keeps.ite | apply Keeps.foldl | (simp only [Keeps.mk_iff]; apply Keeps.parts) | split | dsimp only

theorem State.purgeRange_keeps {s0 : State} {s : State} (a : Nat) (n : Nat) (hs : Keeps s0 s) :
    Keeps s0 (State.purgeRange s a n) := by
  unfold State.purgeRange
  repeat' with_reducible first
    | assumption | intro _ | apply State.purgeLine_keeps | apply Keeps.ite | apply Keeps.foldl | (simp only [Keeps.mk_iff]; apply Keeps.parts) | split
    | dsimp only

theorem State.modQueue_keeps {s0 : State} {s : State} (q : Nat) (f : Queue → Queue) (hs : Keeps s0 s) :
    Keeps s0 (State.modQueue s q f) := by
  unfold State.modQueue
  repeat' with_reducible first
    | assumption | intro _ | apply State.setQueue_keeps | apply Keeps.ite | apply Keeps.foldl | (simp only [Keeps.mk_iff]; apply Keeps.parts) | split
    | dsimp only

theorem State.draw_keeps {s0 : State} {s : State} (hs : Keeps s0 s) :
    Keeps s0 (State.draw s).2 := by
  unfold State.draw
  repeat' with_reducible first
    | assumption | intro _ | apply Keeps.ite | apply Keeps.foldl | (simp only [Keeps.mk_iff]; apply Keeps.parts) | apply Keeps.iteFst | apply Keeps.iteSnd
    | refine Keeps.sndEq (by assumption) ?_ | split | dsimp only

theorem State.countCycles_keeps {s0 : State} {s : State} (k : Nat) (hs : Keeps s0 s) :
    Keeps s0 (State.countCycles s k) := by
  unfold State.countCycles
  repeat' with_reducible first
    | assumption | intro _ | apply State.draw_keeps | apply State.count_keeps | apply Keeps.ite | apply Keeps.foldl
    | (simp only [Keeps.mk_iff]; apply Keeps.parts) | apply Keeps.iteFst | apply Keeps.iteSnd | refine Keeps.sndEq (by assumption) ?_ | split | dsimp only

theorem State.plainWrite_keeps {s0 : State} {s : State} (a : Nat) (bs : List Byte) (hs : Keeps s0 s) :
    Keeps s0 (State.plainWrite s a bs) := by
  unfold State.plainWrite
  repeat' with_reducible first
    | assumption | intro _ | apply State.count_keeps | apply State.putBytes_keeps | apply State.setSyndrome_keeps | apply Keeps.ite | apply Keeps.foldl
    | (simp only [Keeps.mk_iff]; apply Keeps.parts) | split | dsimp only

theorem State.setPcie_keeps {s0 : State} {s : State} (f : Nat) (p : FnPcie) (hs : Keeps s0 s) :
    Keeps s0 (State.setPcie s f p) := by
  unfold State.setPcie
  repeat' with_reducible first
    | assumption | intro _ | apply Keeps.ite | apply Keeps.foldl | (simp only [Keeps.mk_iff]; apply Keeps.parts) | split | dsimp only

theorem onUnit_keeps {s0 : State} (present : Bool) {t : State} (ht : Keeps s0 t) :
    KeepsR s0 (onUnit present t) := by
  unfold onUnit
  repeat' with_reducible first
    | assumption | intro _ | apply KeepsR.next | exact KeepsR.fault | exact KeepsR.refused | apply KeepsR.onUnit | apply KeepsR.ite | apply Keeps.ite
    | apply Keeps.foldl | (simp only [Keeps.mk_iff]; apply Keeps.parts) | split | dsimp only

theorem State.endFlight_keeps {s0 : State} {s : State} (q : Nat) (i : Nat) (status : Nat) (detail : Nat) (hs : Keeps s0 s) :
    Keeps s0 (State.endFlight s q i status detail) := by
  unfold State.endFlight
  repeat' with_reducible first
    | assumption | intro _ | apply State.modFlight_keeps | apply Keeps.ite | apply Keeps.foldl | (simp only [Keeps.mk_iff]; apply Keeps.parts) | split
    | dsimp only

theorem State.modDomain_keeps {s0 : State} {s : State} (f : Nat) (g : StepDomain → StepDomain) (hs : Keeps s0 s) :
    Keeps s0 (State.modDomain s f g) := by
  unfold State.modDomain
  repeat' with_reducible first
    | assumption | intro _ | apply State.setDomain_keeps | apply Keeps.ite | apply Keeps.foldl | (simp only [Keeps.mk_iff]; apply Keeps.parts) | split
    | dsimp only

theorem State.closeRecords_keeps {s0 : State} {s : State} (p : ErrRecord → Bool) (hs : Keeps s0 s) :
    Keeps s0 (State.closeRecords s p) := by
  unfold State.closeRecords
  apply State.setFld_keeps
  exact Keeps.fields (hs.withRing (fun h => by simpa only [List.length_map] using h))

theorem State.addSem_keeps {s0 : State} {s : State} (n : Nat) (v : Nat) (hs : Keeps s0 s) :
    Keeps s0 (State.addSem s n v) := by
  unfold State.addSem
  repeat' with_reducible first
    | assumption | intro _ | apply State.setSem_keeps | apply Keeps.ite | apply Keeps.foldl | (simp only [Keeps.mk_iff]; apply Keeps.parts) | split
    | dsimp only

end Sys2Proof.Machine
end

