-- ==== Sys2Proof/Laws/KeepsTraffic.lean ====
section
/-!
SUPPORT. The operations of Machine/Traffic.lean leave the queue alone and keep the invariant (Laws/Keeps.lean).
-/

set_option linter.all false

namespace Sys2Proof.Machine

theorem State.partAccess_keeps {s0 : State} {s : State} (pk : Nat) (count : Nat) (line : Nat) (wr : Bool) (whole : Bool) (hs : Keeps s0 s) :
    Keeps s0 (State.partAccess s pk count line wr whole) := by
  unfold State.partAccess
  repeat' with_reducible first
    | assumption | intro _
    | (extract_lets +onlyGivenNames x; clear_value (hx : x = _); first | refine Keeps.bind (s := s0) hx ?_ (fun _ => ?_) | (refine Keeps.isFaults x ?_; subst hx) | (refine Keeps.isFun x ?_; subst hx) | skip)
    | apply State.count_keeps | apply Keeps.ite | apply Keeps.foldl | (simp only [Keeps.mk_iff]; apply Keeps.parts) | split | dsimp only

theorem State.unitAccess_keeps {s0 : State} {s : State} (a : Nat) (n : Nat) (wr : Bool) (hs : Keeps s0 s) :
    Keeps s0 (State.unitAccess s a n wr) := by
  unfold State.unitAccess
  repeat' with_reducible first
    | assumption | intro _
    | (extract_lets +onlyGivenNames x; clear_value (hx : x = _); first | refine Keeps.bind (s := s0) hx ?_ (fun _ => ?_) | (refine Keeps.isFaults x ?_; subst hx) | skip)
    | apply State.partAccess_keeps | apply State.count_keeps | apply Keeps.ite | apply Keeps.foldl | (simp only [Keeps.mk_iff]; apply Keeps.parts) | split
    | dsimp only

theorem State.markCopied_keeps {s0 : State} {s : State} (a : Nat) (n : Nat) (hs : Keeps s0 s) :
    Keeps s0 (State.markCopied s a n) := by
  unfold State.markCopied
  repeat' with_reducible first
    | assumption | intro _
    | (extract_lets +onlyGivenNames x; clear_value (hx : x = _); first | refine Keeps.bind (s := s0) hx ?_ (fun _ => ?_) | (refine Keeps.isFaults x ?_; subst hx) | skip)
    | apply Keeps.ite | apply Keeps.foldl | (simp only [Keeps.mk_iff]; apply Keeps.parts) | split | dsimp only

theorem State.traffic_keeps {s0 : State} {s : State} (a : Nat) (n : Nat) (wr : Bool) (hs : Keeps s0 s) :
    Keeps s0 (State.traffic s a n wr) := by
  unfold State.traffic
  repeat' with_reducible first
    | assumption | intro _
    | (extract_lets +onlyGivenNames x; clear_value (hx : x = _); first | refine Keeps.bind (s := s0) hx ?_ (fun _ => ?_) | (refine Keeps.isFaults x ?_; subst hx) | skip)
    | apply State.unitAccess_keeps | apply State.markCopied_keeps | apply Keeps.ite | apply Keeps.foldl | (simp only [Keeps.mk_iff]; apply Keeps.parts)
    | split | dsimp only

end Sys2Proof.Machine
end

