-- ==== Sys2Proof/Laws/KeepsEngine.lean ====
section
/-!
SUPPORT. The operations of Machine/Engine.lean leave the queue alone and keep the invariant (Laws/Keeps.lean).
-/

set_option linter.all false

namespace Sys2Proof.Machine

theorem State.setCause_keeps {s0 : State} {s : State} (f : Nat) (bit : Nat) (hs : Keeps s0 s) :
    Keeps s0 (State.setCause s f bit) := by
  unfold State.setCause
  repeat' with_reducible first
    | assumption | intro _ | apply State.setFld_keeps | apply Keeps.ite | apply Keeps.foldl | (simp only [Keeps.mk_iff]; apply Keeps.parts) | split
    | dsimp only

theorem State.writePlace_keeps {s0 : State} {s : State} (f : Nat) (a : Nat) (hs : Keeps s0 s) :
    Keeps s0 (State.writePlace s f a).1 := by
  unfold State.writePlace
  repeat' with_reducible first
    | assumption | intro _
    | (extract_lets +onlyGivenNames x; clear_value (hx : x = _); first | refine Keeps.bind (s := s0) hx ?_ (fun _ => ?_) | refine Keeps.bindFst (s := s0) hx ?_ (fun _ => ?_) | (refine Keeps.isFaults x ?_; subst hx) | skip)
    | apply State.purgeRange_keeps | apply State.setCause_keeps | apply State.modDomain_keeps | apply Keeps.ite | apply Keeps.foldl
    | (simp only [Keeps.mk_iff]; apply Keeps.parts) | apply Keeps.iteFst | apply Keeps.iteSnd | refine Keeps.fstEq (by assumption) ?_
    | (simp only [Keeps.mk_iff]; refine Keeps.withSeals ?_ (smapWf_drop _)) | split | dsimp only

theorem State.engWriteChunk_keeps {s0 : State} {s : State} (f : Nat) (a : Nat) (bs : List Byte) (hs : Keeps s0 s) :
    Keeps s0 (State.engWriteChunk s f a bs).1 := by
  unfold State.engWriteChunk
  repeat' with_reducible first
    | assumption | intro _ | apply State.purgeRange_keeps | apply State.traffic_keeps | apply State.writePlace_keeps | apply State.putBytes_keeps
    | apply Keeps.ite | apply Keeps.foldl | (simp only [Keeps.mk_iff]; apply Keeps.parts) | apply Keeps.iteFst | apply Keeps.iteSnd
    | refine Keeps.fstEq (by assumption) ?_ | split | dsimp only

theorem JobSt.write_keeps {s0 : State} {j : JobSt} (f : Nat) (a : Nat) (bs : List Byte) (hj : Keeps s0 j.st) :
    Keeps s0 (JobSt.write j f a bs).st := by
  unfold JobSt.write
  repeat' with_reducible first
    | assumption | intro _ | apply State.engWriteChunk_keeps | apply Keeps.ite | apply Keeps.foldl | (simp only [Keeps.mk_iff]; apply Keeps.parts)
    | apply Keeps.iteFst | apply Keeps.iteSnd | apply Keeps.iteJob | apply Keeps.foldlJob | refine Keeps.fstEq (by assumption) ?_ | split | dsimp only

theorem State.uncorrectable_keeps {s0 : State} {s : State} (f : Nat) (q : Nat) (i : Nat) (a : Nat) (hs : Keeps s0 s) :
    Keeps s0 (State.uncorrectable s f q i a).1 := by
  unfold State.uncorrectable
  repeat' with_reducible first
    | assumption | intro _
    | (extract_lets +onlyGivenNames x; clear_value (hx : x = _); first | refine Keeps.bind (s := s0) hx ?_ (fun _ => ?_) | refine Keeps.bindFst (s := s0) hx ?_ (fun _ => ?_) | (refine Keeps.isFaults x ?_; subst hx) | skip)
    | apply State.record_keeps | apply State.voidBlock_keeps | apply State.count_keeps | apply Keeps.ite | apply Keeps.foldl
    | (simp only [Keeps.mk_iff]; apply Keeps.parts) | apply Keeps.iteFst | apply Keeps.iteSnd | refine Keeps.fstEq (by assumption) ?_ | split | dsimp only

theorem JobSt.checkBlock_keeps {s0 : State} {j : JobSt} (f : Nat) (q : Nat) (i : Nat) (verify : Bool) (a : Nat) (hj : Keeps s0 j.st) :
    Keeps s0 (JobSt.checkBlock j f q i verify a).st := by
  unfold JobSt.checkBlock
  repeat' with_reducible first
    | assumption | intro _
    | (extract_lets +onlyGivenNames x; clear_value (hx : x = _); first | refine Keeps.bind (s := s0) hx ?_ (fun _ => ?_) | refine Keeps.bindFst (s := s0) hx ?_ (fun _ => ?_) | refine Keeps.bindJob (s := s0) hx ?_ (fun _ => ?_) | refine Keeps.bindRes (s := s0) hx ?_ (fun _ => ?_) | (refine Keeps.isFaults x ?_; subst hx) | skip)
    | apply State.record_keeps | apply State.uncorrectable_keeps | apply State.count_keeps | apply Keeps.ite | apply Keeps.foldl
    | (simp only [Keeps.mk_iff]; apply Keeps.parts) | apply Keeps.iteFst | apply Keeps.iteSnd | apply Keeps.iteJob | apply Keeps.foldlJob
    | refine Keeps.fstEq (by assumption) ?_ | split | dsimp only

theorem JobSt.checkRange_keeps {s0 : State} {j : JobSt} (f : Nat) (q : Nat) (i : Nat) (verify : Bool) (a : Nat) (n : Nat) (hj : Keeps s0 j.st) :
    Keeps s0 (JobSt.checkRange j f q i verify a n).st := by
  unfold JobSt.checkRange
  repeat' with_reducible first
    | assumption | intro _
    | (extract_lets +onlyGivenNames x; clear_value (hx : x = _); first | refine Keeps.bind (s := s0) hx ?_ (fun _ => ?_) | refine Keeps.bindJob (s := s0) hx ?_ (fun _ => ?_) | refine Keeps.bindRes (s := s0) hx ?_ (fun _ => ?_) | (refine Keeps.isFaults x ?_; subst hx) | skip)
    | apply State.traffic_keeps | apply JobSt.checkBlock_keeps | apply Keeps.ite | apply Keeps.foldl | (simp only [Keeps.mk_iff]; apply Keeps.parts)
    | apply Keeps.iteJob | apply Keeps.foldlJob | split | dsimp only

theorem JobSt.run_keeps {s0 : State} {j : JobSt} (f : Nat) (q : Nat) (i : Nat) (verify : Bool) (x6 : Option Nat) (x7 : List Seg) (hj : Keeps s0 j.st) :
    Keeps s0 (JobSt.run j f q i verify x6 x7).1.st := by
  induction x7 generalizing j f q i verify x6 with
  | nil =>
    unfold JobSt.run
    repeat' with_reducible first
      | assumption | intro _ | apply JobSt.write_keeps | apply JobSt.checkRange_keeps | apply Keeps.ite | apply Keeps.foldl
      | (simp only [Keeps.mk_iff]; apply Keeps.parts) | apply Keeps.iteJob | apply Keeps.foldlJob | refine Keeps.jobEq (by assumption) ?_ | split
      | dsimp only
  | cons y ys ih =>
    unfold JobSt.run
    repeat' with_reducible first
      | assumption | intro _ | apply JobSt.write_keeps | apply JobSt.checkRange_keeps | apply ih | apply Keeps.ite | apply Keeps.foldl
      | (simp only [Keeps.mk_iff]; apply Keeps.parts) | apply Keeps.iteJob | apply Keeps.foldlJob | refine Keeps.jobEq (by assumption) ?_ | split
      | dsimp only

theorem State.sealBlocks_keeps {s0 : State} {s : State} (rs : List (Nat × Nat)) (hs : Keeps s0 s) :
    Keeps s0 (State.sealBlocks s rs) := by
  unfold State.sealBlocks
  repeat' with_reducible first
    | assumption | intro _ | apply State.count_keeps | apply State.setSyndrome_keeps | apply Keeps.ite | apply Keeps.foldl
    | (simp only [Keeps.mk_iff]; apply Keeps.parts) | split | dsimp only

theorem State.runJob_keeps {s0 : State} {s : State} (f : Nat) (q : Nat) (i : Nat) (verify : Bool) (stop : Option Nat) (segs : List Seg) (hs : Keeps s0 s) :
    Keeps s0 (State.runJob s f q i verify stop segs).st := by
  unfold State.runJob
  repeat' with_reducible first
    | assumption | intro _
    | (extract_lets +onlyGivenNames x; clear_value (hx : x = _); first | refine Keeps.bind (s := s0) hx ?_ (fun _ => ?_) | refine Keeps.bindJob (s := s0) hx ?_ (fun _ => ?_) | refine Keeps.bindRes (s := s0) hx ?_ (fun _ => ?_) | (refine Keeps.isFaults x ?_; subst hx) | skip)
    | apply State.voidBlocks_keeps | apply JobSt.run_keeps | apply State.sealBlocks_keeps | apply Keeps.ite | apply Keeps.foldl
    | (simp only [Keeps.mk_iff]; apply Keeps.parts) | apply Keeps.iteJob | apply Keeps.foldlJob | refine Keeps.jobEq (by assumption) ?_ | split
    | dsimp only

theorem State.engine_keeps {s0 : State} {s : State} (q : Nat) (i : Nat) (opcode : Nat) (k : Flight → State) (hs : Keeps s0 s) (hk : ∀ y0, Keeps s0 (k y0)) :
    KeepsR s0 (State.engine s q i opcode k) := by
  unfold State.engine
  repeat' with_reducible first
    | assumption | intro _ | apply State.endFlight_keeps | apply hk | apply KeepsR.next | exact KeepsR.fault | exact KeepsR.refused | apply KeepsR.onUnit
    | apply KeepsR.ite | apply Keeps.ite | apply Keeps.foldl | (simp only [Keeps.mk_iff]; apply Keeps.parts) | split | dsimp only

theorem JobResult.finish_keeps {s0 : State} {r : JobResult} (q : Nat) (i : Nat) (fl : Flags) (hr : Keeps s0 r.st) :
    Keeps s0 (JobResult.finish r q i fl) := by
  unfold JobResult.finish
  repeat' with_reducible first
    | assumption | intro _ | apply State.modFlight_keeps | apply Keeps.ite | apply Keeps.foldl | (simp only [Keeps.mk_iff]; apply Keeps.parts) | split
    | dsimp only

end Sys2Proof.Machine
end

