-- ==== Sys2Proof/Laws/KeepsTraceLog.lean ====
section
/-!
SUPPORT. The operations of Machine/TraceLog.lean leave the queue alone and keep the invariant (Laws/Keeps.lean).
-/

set_option linter.all false

namespace Sys2Proof.Machine

theorem State.traceWr_keeps {s0 : State} {s : State} (k : Nat) (hs : Keeps s0 s) :
    Keeps s0 (State.traceWr s k) := by
  unfold State.traceWr
  repeat' with_reducible first
    | assumption | intro _
    | (extract_lets +onlyGivenNames x; clear_value (hx : x = _); first | refine Keeps.bind (s := s0) hx ?_ (fun _ => ?_) | (refine Keeps.isFaults x ?_; subst hx) | skip)
    | apply State.setReg_keeps | apply Keeps.ite | apply Keeps.foldl | (simp only [Keeps.mk_iff]; apply Keeps.parts) | split | dsimp only

theorem State.setTraceBuf_keeps {s0 : State} {s : State} (k : Nat) (b : TraceBuf) (hs : Keeps s0 s) :
    Keeps s0 (State.setTraceBuf s k b) := by
  unfold State.setTraceBuf
  repeat' with_reducible first
    | assumption | intro _ | apply Keeps.ite | apply Keeps.foldl | (simp only [Keeps.mk_iff]; apply Keeps.parts) | split | dsimp only

theorem State.trace_keeps {s0 : State} {s : State} (k : Nat) (kind : Nat) (core : Nat) (queue : Nat) (opcode : Nat) (info : Nat) (hs : Keeps s0 s) :
    Keeps s0 (State.trace s k kind core queue opcode info) := by
  unfold State.trace
  repeat' with_reducible first
    | assumption | intro _
    | (extract_lets +onlyGivenNames x; clear_value (hx : x = _); first | refine Keeps.bind (s := s0) hx ?_ (fun _ => ?_) | refine Keeps.bindSnd (s := s0) hx ?_ (fun _ => ?_) | (refine Keeps.isFaults x ?_; subst hx) | skip)
    | apply State.draw_keeps | apply State.traceWr_keeps | apply State.setTraceBuf_keeps | apply Keeps.ite | apply Keeps.foldl
    | (simp only [Keeps.mk_iff]; apply Keeps.parts) | apply Keeps.iteFst | apply Keeps.iteSnd | refine Keeps.sndEq (by assumption) ?_ | split | dsimp only

theorem State.traceCore_keeps {s0 : State} {s : State} (c : Nat) (kind : Nat) (queue : Nat) (opcode : Nat) (info : Nat) (hs : Keeps s0 s) :
    Keeps s0 (State.traceCore s c kind queue opcode info) := by
  unfold State.traceCore
  repeat' with_reducible first
    | assumption | intro _ | apply State.trace_keeps | apply Keeps.ite | apply Keeps.foldl | (simp only [Keeps.mk_iff]; apply Keeps.parts) | split
    | dsimp only

theorem State.traceFlush_keeps {s0 : State} {s : State} (k : Nat) (hs : Keeps s0 s) :
    Keeps s0 (State.traceFlush s k) := by
  unfold State.traceFlush
  repeat' with_reducible first
    | assumption | intro _
    | (extract_lets +onlyGivenNames x; clear_value (hx : x = _); first | refine Keeps.bind (s := s0) hx ?_ (fun _ => ?_) | (refine Keeps.isFaults x ?_; subst hx) | skip)
    | apply State.sealWrite_keeps | apply State.setFld_keeps | apply State.traceWr_keeps | apply State.trace_keeps | apply State.setTraceBuf_keeps
    | apply Keeps.ite | apply Keeps.foldl | (simp only [Keeps.mk_iff]; apply Keeps.parts) | split | dsimp only

end Sys2Proof.Machine
end

