-- ==== Sys2Proof/Laws/KeepsRails.lean ====
section
/-!
SUPPORT. The operations of Machine/Rails.lean leave the queue alone and keep the invariant (Laws/Keeps.lean).
-/

set_option linter.all false

namespace Sys2Proof.Machine

theorem State.sendFrame_keeps {s0 : State} {s : State} (rail : Nat) (mv : Nat) (repeats : Nat) (hs : Keeps s0 s) :
    Keeps s0 (State.sendFrame s rail mv repeats) := by
  unfold State.sendFrame
  repeat' with_reducible first
    | assumption | intro _
    | (extract_lets +onlyGivenNames x; clear_value (hx : x = _); first | refine Keeps.bind (s := s0) hx ?_ (fun _ => ?_) | (refine Keeps.isFaults x ?_; subst hx) | skip)
    | apply State.send_keeps | apply Keeps.ite | apply Keeps.foldl | (simp only [Keeps.mk_iff]; apply Keeps.parts) | split | dsimp only

theorem State.voltStep_keeps {s0 : State} {s : State} (k : Nat) (mv : Nat) (hs : Keeps s0 s) :
    Keeps s0 (State.voltStep s k mv) := by
  unfold State.voltStep
  repeat' with_reducible first
    | assumption | intro _
    | (extract_lets +onlyGivenNames x; clear_value (hx : x = _); first | refine Keeps.bind (s := s0) hx ?_ (fun _ => ?_) | (refine Keeps.isFaults x ?_; subst hx) | skip)
    | apply State.sendFrame_keeps | apply State.setFld_keeps | apply State.count_keeps | apply Keeps.ite | apply Keeps.foldl
    | (simp only [Keeps.mk_iff]; apply Keeps.parts) | split | dsimp only

end Sys2Proof.Machine
end

