-- ==== Sys2Proof/Laws/KeepsEscapement.lean ====
section
/-!
SUPPORT. The operations of Machine/Escapement.lean leave the queue alone and keep the invariant (Laws/Keeps.lean).
-/

set_option linter.all false

namespace Sys2Proof.Machine

theorem State.release_keeps {s0 : State} {s : State} (o : Owner) (hs : Keeps s0 s) :
    Keeps s0 (State.release s o) := by
  unfold State.release
  repeat' with_reducible first
    | assumption | intro _
    | (extract_lets +onlyGivenNames x; clear_value (hx : x = _); first | refine Keeps.bind (s := s0) hx ?_ (fun _ => ?_) | (refine Keeps.isFaults x ?_; subst hx) | skip)
    | apply Keeps.ite | apply Keeps.foldl | (simp only [Keeps.mk_iff]; apply Keeps.parts) | split | dsimp only

theorem State.setFstep_keeps {s0 : State} {s : State} (k : Nat) (f : Nat) (hs : Keeps s0 s) :
    Keeps s0 (State.setFstep s k f) := by
  unfold State.setFstep
  repeat' with_reducible first
    | assumption | intro _ | apply State.setFld_keeps | apply State.count_keeps | apply Keeps.ite | apply Keeps.foldl
    | (simp only [Keeps.mk_iff]; apply Keeps.parts) | split | dsimp only

theorem State.rescale_keeps {s0 : State} {s : State} (k : Nat) (hs : Keeps s0 s) :
    Keeps s0 (State.rescale s k) := by
  unfold State.rescale
  repeat' with_reducible first
    | assumption | intro _
    | (extract_lets +onlyGivenNames x; clear_value (hx : x = _); first | refine Keeps.bind (s := s0) hx ?_ (fun _ => ?_) | (refine Keeps.isFaults x ?_; subst hx) | skip)
    | apply Keeps.ite | apply Keeps.foldl | (simp only [Keeps.mk_iff]; apply Keeps.parts) | split | dsimp only

theorem State.stepEnd_keeps {s0 : State} {s : State} (k : Nat) (hs : Keeps s0 s) :
    Keeps s0 (State.stepEnd s k) := by
  unfold State.stepEnd
  repeat' with_reducible first
    | assumption | intro _
    | (extract_lets +onlyGivenNames x; clear_value (hx : x = _); first | refine Keeps.bind (s := s0) hx ?_ (fun _ => ?_) | (refine Keeps.isFaults x ?_; subst hx) | skip)
    | apply State.rescale_keeps | apply State.release_keeps | apply Keeps.ite | apply Keeps.foldl | (simp only [Keeps.mk_iff]; apply Keeps.parts) | split
    | dsimp only

theorem State.stepAdvance_keeps {s0 : State} {s : State} (k : Nat) (hs : Keeps s0 s) :
    Keeps s0 (State.stepAdvance s k) := by
  unfold State.stepAdvance
  repeat' with_reducible first
    | assumption | intro _
    | (extract_lets +onlyGivenNames x; clear_value (hx : x = _); first | refine Keeps.bind (s := s0) hx ?_ (fun _ => ?_) | (refine Keeps.isFaults x ?_; subst hx) | skip)
    | apply State.setFstep_keeps | apply State.voltStep_keeps | apply State.stepEnd_keeps | apply Keeps.ite | apply Keeps.foldl
    | (simp only [Keeps.mk_iff]; apply Keeps.parts) | split | dsimp only

theorem State.powerOwner_keeps {s0 : State} {s : State} (o : Owner) (hs : Keeps s0 s) :
    Keeps s0 (State.powerOwner s o) := by
  unfold State.powerOwner
  repeat' with_reducible first
    | assumption | intro _
    | (extract_lets +onlyGivenNames x; clear_value (hx : x = _); first | refine Keeps.bind (s := s0) hx ?_ (fun _ => ?_) | (refine Keeps.isFaults x ?_; subst hx) | skip)
    | apply State.modCore_keeps | apply State.modFlight_keeps | apply State.stepAdvance_keeps | apply Keeps.ite | apply Keeps.foldl
    | (simp only [Keeps.mk_iff]; apply Keeps.parts) | split | dsimp only

theorem State.enter_keeps {s0 : State} {s : State} (q : EscReq) (w : Nat) (hs : Keeps s0 s) :
    Keeps s0 (State.enter s q w) := by
  unfold State.enter
  repeat' with_reducible first
    | assumption | intro _
    | (extract_lets +onlyGivenNames x; clear_value (hx : x = _); first | refine Keeps.bind (s := s0) hx ?_ (fun _ => ?_) | (refine Keeps.isFaults x ?_; subst hx) | skip)
    | apply State.powerOwner_keeps | apply State.count_keeps | apply Keeps.ite | apply Keeps.foldl | (simp only [Keeps.mk_iff]; apply Keeps.parts) | split
    | dsimp only

theorem State.ask_keeps {s0 : State} {s : State} (q : EscReq) (hs : Keeps s0 s) :
    Keeps s0 (State.ask s q) := by
  unfold State.ask
  repeat' with_reducible first
    | assumption | intro _
    | (extract_lets +onlyGivenNames x; clear_value (hx : x = _); first | refine Keeps.bind (s := s0) hx ?_ (fun _ => ?_) | (refine Keeps.isFaults x ?_; subst hx) | skip)
    | apply State.enter_keeps | apply Keeps.ite | apply Keeps.foldl | (simp only [Keeps.mk_iff]; apply Keeps.parts) | split | dsimp only

theorem State.prebook_keeps {s0 : State} {s : State} (q : Nat) (core : Nat) (index : Nat) (cmd : List Byte) (hs : Keeps s0 s) :
    Keeps s0 (State.prebook s q core index cmd) := by
  unfold State.prebook
  repeat' with_reducible first
    | assumption | intro _ | apply State.ask_keeps | apply Keeps.ite | apply Keeps.foldl | (simp only [Keeps.mk_iff]; apply Keeps.parts) | split
    | dsimp only

theorem State.escGrant_keeps {s0 : State} {s : State} (r : Nat) (hs : Keeps s0 s) :
    Keeps s0 (State.escGrant s r) := by
  unfold State.escGrant
  repeat' with_reducible first
    | assumption | intro _
    | (extract_lets +onlyGivenNames x; clear_value (hx : x = _); first | refine Keeps.bind (s := s0) hx ?_ (fun _ => ?_) | (refine Keeps.isFaults x ?_; subst hx) | skip)
    | apply State.enter_keeps | apply Keeps.ite | apply Keeps.foldl | (simp only [Keeps.mk_iff]; apply Keeps.parts) | split | dsimp only

theorem execEscGrant_keeps {s0 : State} (r : Nat) {s : State} (hs : Keeps s0 s) :
    KeepsR s0 (execEscGrant r s) := by
  unfold execEscGrant
  repeat' with_reducible first
    | assumption | intro _ | apply onUnit_keeps | apply State.escGrant_keeps | apply KeepsR.next | exact KeepsR.fault | exact KeepsR.refused
    | apply KeepsR.onUnit | apply KeepsR.ite | apply Keeps.ite | apply Keeps.foldl | (simp only [Keeps.mk_iff]; apply Keeps.parts) | split | dsimp only

theorem State.hangs_keeps {s0 : State} {s : State} (fl : Flight) (hs : Keeps s0 s) :
    KeepsO (fun x => x) s0 (State.hangs s fl) := by
  unfold State.hangs
  repeat' with_reducible first
    | assumption | intro _
    | (extract_lets +onlyGivenNames x; clear_value (hx : x = _); first | refine Keeps.bind (s := s0) hx ?_ (fun _ => ?_) | (refine Keeps.isFaults x ?_; subst hx) | skip)
    | exact KeepsO.none | apply KeepsO.some | apply KeepsO.ite | apply Keeps.ite | apply Keeps.foldl | (simp only [Keeps.mk_iff]; apply Keeps.parts)
    | refine Keeps.optEq (by assumption) ?_ | apply Keeps.getD | split | dsimp only

theorem State.rename_keeps {s0 : State} {s : State} (o : Owner) (o' : Owner) (hs : Keeps s0 s) :
    Keeps s0 (State.rename s o o') := by
  unfold State.rename
  repeat' with_reducible first
    | assumption | intro _
    | (extract_lets +onlyGivenNames x; clear_value (hx : x = _); first | refine Keeps.bind (s := s0) hx ?_ (fun _ => ?_) | (refine Keeps.isFaults x ?_; subst hx) | skip)
    | apply Keeps.ite | apply Keeps.foldl | (simp only [Keeps.mk_iff]; apply Keeps.parts) | split | dsimp only

theorem State.bookCommand_keeps {s0 : State} {s : State} (q : Nat) (i : Nat) (core : Nat) (cmd : List Byte) (hs : Keeps s0 s) :
    Keeps s0 (State.bookCommand s q i core cmd) := by
  unfold State.bookCommand
  repeat' with_reducible first
    | assumption | intro _
    | (extract_lets +onlyGivenNames x; clear_value (hx : x = _); first | refine Keeps.bind (s := s0) hx ?_ (fun _ => ?_) | (refine Keeps.isFaults x ?_; subst hx) | skip)
    | apply State.powerOwner_keeps | apply State.rename_keeps | apply State.ask_keeps | apply State.modFlight_keeps | apply State.count_keeps
    | apply Keeps.ite | apply Keeps.foldl | (simp only [Keeps.mk_iff]; apply Keeps.parts) | split | dsimp only

theorem State.dispatch_keeps {s0 : State} {s : State} (q : Nat) (i : Nat) (op : Nat) (bad : Flight → Option Nat) (k : State → Flight → State) (hs : Keeps s0 s) (hk : ∀ y0 y1, Keeps s0 y0 → Keeps s0 (k y0 y1)) :
    KeepsR s0 (State.dispatch s q i op bad k) := by
  unfold State.dispatch
  repeat' with_reducible first
    | assumption | intro _
    | (extract_lets +onlyGivenNames x; clear_value (hx : x = _); first | refine Keeps.bind (s := s0) hx ?_ (fun _ => ?_) | (refine Keeps.isFaults x ?_; subst hx) | skip)
    | apply State.hangs_keeps | apply State.bookCommand_keeps | apply State.endFlight_keeps | apply State.engine_keeps | apply State.release_keeps
    | apply hk | apply KeepsR.next | exact KeepsR.fault | exact KeepsR.refused | apply KeepsR.onUnit | apply KeepsR.ite | apply Keeps.ite
    | apply Keeps.foldl | (simp only [Keeps.mk_iff]; apply Keeps.parts) | refine Keeps.optEq (by assumption) ?_ | apply Keeps.getD | split | dsimp only

theorem State.askSys_keeps {s0 : State} {s : State} (r : Nat) (ca : Nat) (windows : Option Nat) (perm : Bool) (o : Owner) (hs : Keeps s0 s) :
    Keeps s0 (State.askSys s r ca windows perm o) := by
  unfold State.askSys
  repeat' with_reducible first
    | assumption | intro _ | apply State.ask_keeps | apply Keeps.ite | apply Keeps.foldl | (simp only [Keeps.mk_iff]; apply Keeps.parts) | split
    | dsimp only

theorem State.escWindow_keeps {s0 : State} {s : State} (hs : Keeps s0 s) :
    Keeps s0 (State.escWindow s) := by
  unfold State.escWindow
  repeat' with_reducible first
    | assumption | intro _
    | (extract_lets +onlyGivenNames x; clear_value (hx : x = _); first | refine Keeps.bind (s := s0) hx ?_ (fun _ => ?_) | (refine Keeps.isFaults x ?_; subst hx) | skip)
    | apply State.count_keeps | apply Keeps.ite | apply Keeps.foldl | (simp only [Keeps.mk_iff]; apply Keeps.parts) | split | dsimp only

theorem State.dropPre_keeps {s0 : State} {s : State} (q : Nat) (i : Nat) (hs : Keeps s0 s) :
    Keeps s0 (State.dropPre s q i) := by
  unfold State.dropPre
  repeat' with_reducible first
    | assumption | intro _ | apply State.count_keeps | apply State.release_keeps | apply Keeps.ite | apply Keeps.foldl
    | (simp only [Keeps.mk_iff]; apply Keeps.parts) | split | dsimp only

theorem State.prebookExpiry_keeps {s0 : State} {s : State} (q : Nat) (i : Nat) (hs : Keeps s0 s) :
    Keeps s0 (State.prebookExpiry s q i) := by
  unfold State.prebookExpiry
  repeat' with_reducible first
    | assumption | intro _ | apply State.count_keeps | apply State.release_keeps | apply Keeps.ite | apply Keeps.foldl
    | (simp only [Keeps.mk_iff]; apply Keeps.parts) | split | dsimp only

theorem execPrebookExpiry_keeps {s0 : State} (q : Nat) (i : Nat) {s : State} (hs : Keeps s0 s) :
    KeepsR s0 (execPrebookExpiry q i s) := by
  unfold execPrebookExpiry
  repeat' with_reducible first
    | assumption | intro _ | apply onUnit_keeps | apply State.prebookExpiry_keeps | apply KeepsR.next | exact KeepsR.fault | exact KeepsR.refused
    | apply KeepsR.onUnit | apply KeepsR.ite | apply Keeps.ite | apply Keeps.foldl | (simp only [Keeps.mk_iff]; apply Keeps.parts) | split | dsimp only

theorem State.learn_keeps {s0 : State} {s : State} (cmd : List Byte) (booked : Nat) (m : Nat) (withheld : Bool) (hs : Keeps s0 s) :
    Keeps s0 (State.learn s cmd booked m withheld) := by
  unfold State.learn
  repeat' with_reducible first
    | assumption | intro _
    | (extract_lets +onlyGivenNames x; clear_value (hx : x = _); first | refine Keeps.bind (s := s0) hx ?_ (fun _ => ?_) | (refine Keeps.isFaults x ?_; subst hx) | skip)
    | apply State.setFld_keeps | apply Keeps.ite | apply Keeps.foldl | (simp only [Keeps.mk_iff]; apply Keeps.parts) | split | dsimp only

end Sys2Proof.Machine
end

