-- ==== Sys2Proof/Laws/KeepsQueues.lean ====
section
/-!
SUPPORT. The operations of Machine/Queues.lean leave the queue alone and keep the invariant (Laws/Keeps.lean).
-/

set_option linter.all false

namespace Sys2Proof.Machine

theorem State.resume_keeps {s0 : State} {s : State} (f : Nat) (q : Nat) (x : Queue) (hs : Keeps s0 s) :
    Keeps s0 (State.resume s f q x) := by
  unfold State.resume
  repeat' with_reducible first
    | assumption | intro _
    | (extract_lets +onlyGivenNames x; clear_value (hx : x = _); first | refine Keeps.bind (s := s0) hx ?_ (fun _ => ?_) | (refine Keeps.isFaults x ?_; subst hx) | skip)
    | apply State.closeRecords_keeps | apply State.setQueue_keeps | apply Keeps.ite | apply Keeps.foldl | (simp only [Keeps.mk_iff]; apply Keeps.parts)
    | split | dsimp only

theorem State.prebookHead_keeps {s0 : State} {s : State} (kv : Nat × Queue) (hs : Keeps s0 s) :
    Keeps s0 (State.prebookHead s kv) := by
  unfold State.prebookHead
  repeat' with_reducible first
    | assumption | intro _
    | (extract_lets +onlyGivenNames x; clear_value (hx : x = _); first | refine Keeps.bind (s := s0) hx ?_ (fun _ => ?_) | (refine Keeps.isFaults x ?_; subst hx) | skip)
    | apply State.setQueue_keeps | apply State.prebook_keeps | apply Keeps.ite | apply Keeps.foldl | (simp only [Keeps.mk_iff]; apply Keeps.parts) | split
    | dsimp only

theorem State.refreshHeads_keeps {s0 : State} {x1 : State} (hx1 : Keeps s0 x1) :
    Keeps s0 (State.refreshHeads x1) := by
  unfold State.refreshHeads
  repeat' with_reducible first
    | assumption | intro _
    | (extract_lets +onlyGivenNames x; clear_value (hx : x = _); first | refine Keeps.bind (s := s0) hx ?_ (fun _ => ?_) | (refine Keeps.isFaults x ?_; subst hx) | skip)
    | apply State.prebookHead_keeps | apply State.setFld_keeps | apply Keeps.ite | apply Keeps.foldl | (simp only [Keeps.mk_iff]; apply Keeps.parts)
    | split | dsimp only

theorem State.qcmdErr_keeps {s0 : State} {s : State} (f : Nat) (code : Nat) (hs : Keeps s0 s) :
    Keeps s0 (State.qcmdErr s f code) := by
  unfold State.qcmdErr
  repeat' with_reducible first
    | assumption | intro _ | apply State.setFld_keeps | apply Keeps.ite | apply Keeps.foldl | (simp only [Keeps.mk_iff]; apply Keeps.parts) | split
    | dsimp only

theorem State.actOn_keeps {s0 : State} {s : State} (f : Nat) (q : Nat) (bad : Queue → Option Nat) (act : Queue → State) (hs : Keeps s0 s) (hact : ∀ y0, Keeps s0 (act y0)) :
    Keeps s0 (State.actOn s f q bad act) := by
  unfold State.actOn
  repeat' with_reducible first
    | assumption | intro _
    | (extract_lets +onlyGivenNames x; clear_value (hx : x = _); first | refine Keeps.bind (s := s0) hx ?_ (fun _ => ?_) | (refine Keeps.isFaults x ?_; subst hx) | skip)
    | apply State.refreshHeads_keeps | apply State.qcmdErr_keeps | apply hact | apply Keeps.ite | apply Keeps.foldl
    | (simp only [Keeps.mk_iff]; apply Keeps.parts) | split | dsimp only

theorem State.resumeOn_keeps {s0 : State} {s : State} (f : Nat) (q : Nat) (hs : Keeps s0 s) :
    Keeps s0 (State.resumeOn s f q) := by
  unfold State.resumeOn
  repeat' with_reducible first
    | assumption | intro _ | apply State.resume_keeps | apply State.actOn_keeps | apply Keeps.ite | apply Keeps.foldl
    | (simp only [Keeps.mk_iff]; apply Keeps.parts) | split | dsimp only

theorem State.queueAction_keeps {s0 : State} {s : State} (f : Nat) (action : Nat) (core : Nat) (run : State → Nat → State) (hs : Keeps s0 s) (hrun : ∀ y0 y1, Keeps s0 y0 → Keeps s0 (run y0 y1)) :
    Keeps s0 (State.queueAction s f action core run) := by
  unfold State.queueAction
  repeat' with_reducible first
    | assumption | intro _
    | (extract_lets +onlyGivenNames x; clear_value (hx : x = _); first | refine Keeps.bind (s := s0) hx ?_ (fun _ => ?_) | (refine Keeps.isFaults x ?_; subst hx) | skip)
    | apply State.modQueue_keeps | apply hrun | apply Keeps.ite | apply Keeps.foldl | (simp only [Keeps.mk_iff]; apply Keeps.parts) | split | dsimp only

theorem execQueueResume_keeps {s0 : State} (f : Nat) {s : State} (hs : Keeps s0 s) :
    KeepsR s0 (execQueueResume f s) := by
  unfold execQueueResume
  repeat' with_reducible first
    | assumption | intro _ | apply State.resumeOn_keeps | apply onUnit_keeps | apply State.queueAction_keeps | apply KeepsR.next | exact KeepsR.fault
    | exact KeepsR.refused | apply KeepsR.onUnit | apply KeepsR.ite | apply Keeps.ite | apply Keeps.foldl | (simp only [Keeps.mk_iff]; apply Keeps.parts)
    | split | dsimp only

theorem State.dlqFullBit_keeps {s0 : State} {s : State} (f : Nat) (hs : Keeps s0 s) :
    Keeps s0 (State.dlqFullBit s f) := by
  unfold State.dlqFullBit
  repeat' with_reducible first
    | assumption | intro _
    | (extract_lets +onlyGivenNames x; clear_value (hx : x = _); first | refine Keeps.bind (s := s0) hx ?_ (fun _ => ?_) | (refine Keeps.isFaults x ?_; subst hx) | skip)
    | apply State.setFld_keeps | apply Keeps.ite | apply Keeps.foldl | (simp only [Keeps.mk_iff]; apply Keeps.parts) | split | dsimp only

theorem State.setLetters_keeps {s0 : State} {s : State} (f : Nat) (d : DeadLetters) (hs : Keeps s0 s) :
    Keeps s0 (State.setLetters s f d) := by
  unfold State.setLetters
  repeat' with_reducible first
    | assumption | intro _ | apply Keeps.ite | apply Keeps.foldl | (simp only [Keeps.mk_iff]; apply Keeps.parts) | split | dsimp only

theorem State.dropLetter_keeps {s0 : State} {s : State} (f : Nat) (hs : Keeps s0 s) :
    Keeps s0 (State.dropLetter s f) := by
  unfold State.dropLetter
  repeat' with_reducible first
    | assumption | intro _
    | (extract_lets +onlyGivenNames x; clear_value (hx : x = _); first | refine Keeps.bind (s := s0) hx ?_ (fun _ => ?_) | (refine Keeps.isFaults x ?_; subst hx) | skip)
    | apply State.setFld_keeps | apply State.setLetters_keeps | apply State.count_keeps | apply Keeps.ite | apply Keeps.foldl
    | (simp only [Keeps.mk_iff]; apply Keeps.parts) | split | dsimp only

theorem State.deadLetter_keeps {s0 : State} {s : State} (f : Nat) (q : Nat) (cmd : List Byte) (compl : List Byte) (reason : Nat) (hs : Keeps s0 s) :
    Keeps s0 (State.deadLetter s f q cmd compl reason).1 := by
  unfold State.deadLetter
  repeat' with_reducible first
    | assumption | intro _
    | (extract_lets +onlyGivenNames x; clear_value (hx : x = _); first | refine Keeps.bind (s := s0) hx ?_ (fun _ => ?_) | refine Keeps.bindFst (s := s0) hx ?_ (fun _ => ?_) | (refine Keeps.isFaults x ?_; subst hx) | skip)
    | apply State.purgeRange_keeps | apply State.sealWrite_keeps | apply State.setFld_keeps | apply State.traffic_keeps | apply State.dlqFullBit_keeps
    | apply State.record_keeps | apply State.setLetters_keeps | apply State.dropLetter_keeps | apply State.modQueue_keeps | apply State.raiseVector_keeps
    | apply State.count_keeps | apply Keeps.ite | apply Keeps.foldl | (simp only [Keeps.mk_iff]; apply Keeps.parts) | apply Keeps.iteFst
    | apply Keeps.iteSnd | refine Keeps.fstEq (by assumption) ?_ | split | dsimp only

theorem State.settleQueue_keeps {s0 : State} {s : State} (q : Nat) (hs : Keeps s0 s) :
    Keeps s0 (State.settleQueue s q) := by
  unfold State.settleQueue
  repeat' with_reducible first
    | assumption | intro _
    | (extract_lets +onlyGivenNames x; clear_value (hx : x = _); first | refine Keeps.bind (s := s0) hx ?_ (fun _ => ?_) | (refine Keeps.isFaults x ?_; subst hx) | skip)
    | apply State.setQueue_keeps | apply Keeps.ite | apply Keeps.foldl | (simp only [Keeps.mk_iff]; apply Keeps.parts) | split | dsimp only

theorem State.queueError_keeps {s0 : State} {s : State} (q : Nat) (reason : Nat) (hs : Keeps s0 s) :
    Keeps s0 (State.queueError s q reason) := by
  unfold State.queueError
  repeat' with_reducible first
    | assumption | intro _ | apply State.modQueue_keeps | apply Keeps.ite | apply Keeps.foldl | (simp only [Keeps.mk_iff]; apply Keeps.parts) | split
    | dsimp only

theorem State.complete_keeps {s0 : State} {s : State} (f : Nat) (q : Nat) (cmd : List Byte) (c : Completion) (undelivered : Bool) (hs : Keeps s0 s) :
    Keeps s0 (State.complete s f q cmd c undelivered) := by
  unfold State.complete
  repeat' with_reducible first
    | assumption | intro _
    | (extract_lets +onlyGivenNames x; clear_value (hx : x = _); first | refine Keeps.bind (s := s0) hx ?_ (fun _ => ?_) | refine Keeps.bindFst (s := s0) hx ?_ (fun _ => ?_) | (refine Keeps.isFaults x ?_; subst hx) | skip)
    | apply State.purgeRange_keeps | apply State.sealWrite_keeps | apply State.traffic_keeps | apply State.deadLetter_keeps | apply State.queueError_keeps
    | apply State.modQueue_keeps | apply State.count_keeps | apply Keeps.ite | apply Keeps.foldl | (simp only [Keeps.mk_iff]; apply Keeps.parts)
    | apply Keeps.iteFst | apply Keeps.iteSnd | refine Keeps.fstEq (by assumption) ?_ | split | dsimp only

theorem State.endUngranted_keeps {s0 : State} {s : State} (q : Nat) (index : Nat) (cmd : List Byte) (status : Nat) (detail : Nat) (hs : Keeps s0 s) :
    Keeps s0 (State.endUngranted s q index cmd status detail) := by
  unfold State.endUngranted
  repeat' with_reducible first
    | assumption | intro _
    | (extract_lets +onlyGivenNames x; clear_value (hx : x = _); first | refine Keeps.bind (s := s0) hx ?_ (fun _ => ?_) | (refine Keeps.isFaults x ?_; subst hx) | skip)
    | apply State.complete_keeps | apply State.raiseVector_keeps | apply Keeps.ite | apply Keeps.foldl | (simp only [Keeps.mk_iff]; apply Keeps.parts)
    | split | dsimp only

theorem State.cancelOne_keeps {s0 : State} {s : State} (q : Nat) (i : Nat) (same : Bool) (hs : Keeps s0 s) :
    Keeps s0 (State.cancelOne s q i same) := by
  unfold State.cancelOne
  repeat' with_reducible first
    | assumption | apply State.dropPre_keeps | intro _
    | (extract_lets +onlyGivenNames x; clear_value (hx : x = _); first | refine Keeps.bind (s := s0) hx ?_ (fun _ => ?_) | (refine Keeps.isFaults x ?_; subst hx) | skip)
    | apply State.setQueue_keeps | apply State.modFlight_keeps | apply State.count_keeps | apply State.release_keeps | apply State.endUngranted_keeps
    | apply Keeps.ite | apply Keeps.foldl | (simp only [Keeps.mk_iff]; apply Keeps.parts) | split | dsimp only

theorem State.resetQueue_keeps {s0 : State} {s : State} (q : Nat) (hs : Keeps s0 s) :
    Keeps s0 (State.resetQueue s q) := by
  unfold State.resetQueue
  repeat' with_reducible first
    | assumption | intro _
    | (extract_lets +onlyGivenNames x; clear_value (hx : x = _); first | refine Keeps.bind (s := s0) hx ?_ (fun _ => ?_) | (refine Keeps.isFaults x ?_; subst hx) | skip)
    | apply State.settleQueue_keeps | apply State.cancelOne_keeps | apply State.modQueue_keeps | apply State.endUngranted_keeps | apply Keeps.ite
    | apply Keeps.foldl | (simp only [Keeps.mk_iff]; apply Keeps.parts) | split | dsimp only

theorem State.pauseOn_keeps {s0 : State} {s : State} (f : Nat) (q : Nat) (hs : Keeps s0 s) :
    Keeps s0 (State.pauseOn s f q) := by
  unfold State.pauseOn
  repeat' with_reducible first
    | assumption | intro _ | apply State.setQueue_keeps | apply State.actOn_keeps | apply Keeps.ite | apply Keeps.foldl
    | (simp only [Keeps.mk_iff]; apply Keeps.parts) | split | dsimp only

theorem execQueuePause_keeps {s0 : State} (f : Nat) {s : State} (hs : Keeps s0 s) :
    KeepsR s0 (execQueuePause f s) := by
  unfold execQueuePause
  repeat' with_reducible first
    | assumption | intro _ | apply onUnit_keeps | apply State.queueAction_keeps | apply State.pauseOn_keeps | apply KeepsR.next | exact KeepsR.fault
    | exact KeepsR.refused | apply KeepsR.onUnit | apply KeepsR.ite | apply Keeps.ite | apply Keeps.foldl | (simp only [Keeps.mk_iff]; apply Keeps.parts)
    | split | dsimp only

theorem State.disableOn_keeps {s0 : State} {s : State} (f : Nat) (q : Nat) (hs : Keeps s0 s) :
    Keeps s0 (State.disableOn s f q) := by
  unfold State.disableOn
  repeat' with_reducible first
    | assumption | intro _ | apply State.setQueue_keeps | apply State.settleQueue_keeps | apply State.actOn_keeps | apply Keeps.ite | apply Keeps.foldl
    | (simp only [Keeps.mk_iff]; apply Keeps.parts) | split | dsimp only

theorem execQueueDisable_keeps {s0 : State} (f : Nat) {s : State} (hs : Keeps s0 s) :
    KeepsR s0 (execQueueDisable f s) := by
  unfold execQueueDisable
  repeat' with_reducible first
    | assumption | intro _ | apply onUnit_keeps | apply State.queueAction_keeps | apply State.disableOn_keeps | apply KeepsR.next | exact KeepsR.fault
    | exact KeepsR.refused | apply KeepsR.onUnit | apply KeepsR.ite | apply Keeps.ite | apply Keeps.foldl | (simp only [Keeps.mk_iff]; apply Keeps.parts)
    | split | dsimp only

theorem State.cancel_keeps {s0 : State} {s : State} (f : Nat) (q : Nat) (index : Nat) (x5 : Bool) (same : Bool) (hs : Keeps s0 s) :
    Keeps s0 (State.cancel s f q index x5 same) := by
  unfold State.cancel
  repeat' with_reducible first
    | assumption | intro _
    | (extract_lets +onlyGivenNames x; clear_value (hx : x = _); first | refine Keeps.bind (s := s0) hx ?_ (fun _ => ?_) | (refine Keeps.isFaults x ?_; subst hx) | skip)
    | apply State.cancelOne_keeps | apply State.refreshHeads_keeps | apply State.count_keeps | apply Keeps.ite | apply Keeps.foldl
    | (simp only [Keeps.mk_iff]; apply Keeps.parts) | split | dsimp only

theorem State.enableOn_keeps {s0 : State} {s : State} (f : Nat) (core : Nat) (q : Nat) (hs : Keeps s0 s) :
    Keeps s0 (State.enableOn s f core q) := by
  unfold State.enableOn
  repeat' with_reducible first
    | assumption | intro _ | apply State.setQueue_keeps | apply State.setFld_keeps | apply State.actOn_keeps | apply Keeps.ite | apply Keeps.foldl
    | (simp only [Keeps.mk_iff]; apply Keeps.parts) | split | dsimp only

theorem execQmgSemvalWrite_keeps {s0 : State} (f : Nat) (val : Nat) {s : State} (hs : Keeps s0 s) :
    KeepsR s0 (execQmgSemvalWrite f val s) := by
  unfold execQmgSemvalWrite
  repeat' with_reducible first
    | assumption | intro _
    | (extract_lets +onlyGivenNames x; clear_value (hx : x = _); first | refine Keeps.bind (s := s0) hx ?_ (fun _ => ?_) | (refine Keeps.isFaults x ?_; subst hx) | skip)
    | apply State.setFld_keeps | apply State.setSem_keeps | apply onUnit_keeps | apply State.refreshHeads_keeps | apply KeepsR.next | exact KeepsR.fault
    | exact KeepsR.refused | apply KeepsR.onUnit | apply KeepsR.ite | apply Keeps.ite | apply Keeps.foldl | (simp only [Keeps.mk_iff]; apply Keeps.parts)
    | split | dsimp only

theorem State.resetOn_keeps {s0 : State} {s : State} (f : Nat) (q : Nat) (hs : Keeps s0 s) :
    Keeps s0 (State.resetOn s f q) := by
  unfold State.resetOn
  repeat' with_reducible first
    | assumption | intro _ | apply State.resetQueue_keeps | apply State.actOn_keeps | apply Keeps.ite | apply Keeps.foldl
    | (simp only [Keeps.mk_iff]; apply Keeps.parts) | split | dsimp only

theorem execQueueReset_keeps {s0 : State} (f : Nat) {s : State} (hs : Keeps s0 s) :
    KeepsR s0 (execQueueReset f s) := by
  unfold execQueueReset
  repeat' with_reducible first
    | assumption | intro _ | apply State.resetOn_keeps | apply onUnit_keeps | apply State.queueAction_keeps | apply KeepsR.next | exact KeepsR.fault
    | exact KeepsR.refused | apply KeepsR.onUnit | apply KeepsR.ite | apply Keeps.ite | apply Keeps.foldl | (simp only [Keeps.mk_iff]; apply Keeps.parts)
    | split | dsimp only

theorem execQmgSemadd_keeps {s0 : State} (f : Nat) (val : Nat) {s : State} (hs : Keeps s0 s) :
    KeepsR s0 (execQmgSemadd f val s) := by
  unfold execQmgSemadd
  repeat' with_reducible first
    | assumption | intro _
    | (extract_lets +onlyGivenNames x; clear_value (hx : x = _); first | refine Keeps.bind (s := s0) hx ?_ (fun _ => ?_) | (refine Keeps.isFaults x ?_; subst hx) | skip)
    | apply State.addSem_keeps | apply State.setFld_keeps | apply onUnit_keeps | apply State.refreshHeads_keeps | apply KeepsR.next | exact KeepsR.fault
    | exact KeepsR.refused | apply KeepsR.onUnit | apply KeepsR.ite | apply Keeps.ite | apply Keeps.foldl | (simp only [Keeps.mk_iff]; apply Keeps.parts)
    | split | dsimp only

theorem execNotBeforeReached_keeps {s0 : State} (q : Nat) {s : State} (hs : Keeps s0 s) :
    KeepsR s0 (execNotBeforeReached q s) := by
  unfold execNotBeforeReached
  repeat' with_reducible first
    | assumption | intro _ | apply onUnit_keeps | apply State.refreshHeads_keeps | apply KeepsR.next | exact KeepsR.fault | exact KeepsR.refused
    | apply KeepsR.onUnit | apply KeepsR.ite | apply Keeps.ite | apply Keeps.foldl | (simp only [Keeps.mk_iff]; apply Keeps.parts) | split | dsimp only

theorem execQmgCancel_keeps {s0 : State} (f : Nat) (q : Nat) (index : Nat) (x4 : Bool) (same : Bool) {s : State} (hs : Keeps s0 s) :
    KeepsR s0 (execQmgCancel f q index x4 same s) := by
  unfold execQmgCancel
  repeat' with_reducible first
    | assumption | intro _ | apply onUnit_keeps | apply State.cancel_keeps | apply KeepsR.next | exact KeepsR.fault | exact KeepsR.refused
    | apply KeepsR.onUnit | apply KeepsR.ite | apply Keeps.ite | apply Keeps.foldl | (simp only [Keeps.mk_iff]; apply Keeps.parts) | split | dsimp only

theorem State.doorbell_keeps {s0 : State} {s : State} (f : Nat) (q : Nat) (size : Nat) (tail : Nat) (cdone : Nat) (hs : Keeps s0 s) :
    Keeps s0 (State.doorbell s f q size tail cdone) := by
  unfold State.doorbell
  repeat' with_reducible first
    | assumption | intro _
    | (extract_lets +onlyGivenNames x; clear_value (hx : x = _); first | refine Keeps.bind (s := s0) hx ?_ (fun _ => ?_) | refine Keeps.bindFst (s := s0) hx ?_ (fun _ => ?_) | (refine Keeps.isFaults x ?_; subst hx) | skip)
    | apply State.setQueue_keeps | apply State.deadLetter_keeps | apply State.queueError_keeps | apply State.count_keeps | apply Keeps.ite
    | apply Keeps.foldl | (simp only [Keeps.mk_iff]; apply Keeps.parts) | apply Keeps.iteFst | apply Keeps.iteSnd | refine Keeps.fstEq (by assumption) ?_
    | split | dsimp only

theorem execDoorbellWrite_keeps {s0 : State} (f : Nat) (q : Nat) (size : Nat) (tail : Nat) (cdone : Nat) {s : State} (hs : Keeps s0 s) :
    KeepsR s0 (execDoorbellWrite f q size tail cdone s) := by
  unfold execDoorbellWrite
  repeat' with_reducible first
    | assumption | intro _ | apply State.doorbell_keeps | apply onUnit_keeps | apply KeepsR.next | exact KeepsR.fault | exact KeepsR.refused
    | apply KeepsR.onUnit | apply KeepsR.ite | apply Keeps.ite | apply Keeps.foldl | (simp only [Keeps.mk_iff]; apply Keeps.parts) | split | dsimp only

theorem execDlqBaseWrite_keeps {s0 : State} (f : Nat) (val : Nat) {s : State} (hs : Keeps s0 s) :
    KeepsR s0 (execDlqBaseWrite f val s) := by
  unfold execDlqBaseWrite
  repeat' with_reducible first
    | assumption | intro _ | apply State.setReg_keeps | apply State.dlqFullBit_keeps | apply State.setLetters_keeps | apply onUnit_keeps
    | apply KeepsR.next | exact KeepsR.fault | exact KeepsR.refused | apply KeepsR.onUnit | apply KeepsR.ite | apply Keeps.ite | apply Keeps.foldl
    | (simp only [Keeps.mk_iff]; apply Keeps.parts) | split | dsimp only

theorem State.fetch_keeps {s0 : State} {s : State} (q : Nat) (hs : Keeps s0 s) :
    Keeps s0 (State.fetch s q) := by
  unfold State.fetch
  repeat' with_reducible first
    | assumption | intro _
    | (extract_lets +onlyGivenNames x; clear_value (hx : x = _); first | refine Keeps.bind (s := s0) hx ?_ (fun _ => ?_) | refine Keeps.bindFst (s := s0) hx ?_ (fun _ => ?_) | (refine Keeps.isFaults x ?_; subst hx) | skip)
    | apply State.setQueue_keeps | apply State.traffic_keeps | apply State.deadLetter_keeps | apply State.refreshHeads_keeps
    | apply State.queueError_keeps | apply State.modQueue_keeps | apply State.endUngranted_keeps | apply Keeps.ite | apply Keeps.foldl
    | (simp only [Keeps.mk_iff]; apply Keeps.parts) | apply Keeps.iteFst | apply Keeps.iteSnd | refine Keeps.fstEq (by assumption) ?_ | split | dsimp only

theorem State.promote_keeps {s0 : State} {s : State} (q : Nat) (hs : Keeps s0 s) :
    Keeps s0 (State.promote s q) := by
  unfold State.promote
  repeat' with_reducible first
    | assumption | intro _
    | (extract_lets +onlyGivenNames x; clear_value (hx : x = _); first | refine Keeps.bind (s := s0) hx ?_ (fun _ => ?_) | (refine Keeps.isFaults x ?_; subst hx) | skip)
    | apply State.setQueue_keeps | apply State.refreshHeads_keeps | apply Keeps.ite | apply Keeps.foldl | (simp only [Keeps.mk_iff]; apply Keeps.parts)
    | split | dsimp only

theorem execAgePromotion_keeps {s0 : State} (q : Nat) {s : State} (hs : Keeps s0 s) :
    KeepsR s0 (execAgePromotion q s) := by
  unfold execAgePromotion
  repeat' with_reducible first
    | assumption | intro _ | apply onUnit_keeps | apply State.promote_keeps | apply KeepsR.next | exact KeepsR.fault | exact KeepsR.refused
    | apply KeepsR.onUnit | apply KeepsR.ite | apply Keeps.ite | apply Keeps.foldl | (simp only [Keeps.mk_iff]; apply Keeps.parts) | split | dsimp only

theorem execCommandFetch_keeps {s0 : State} (q : Nat) {s : State} (hs : Keeps s0 s) :
    KeepsR s0 (execCommandFetch q s) := by
  unfold execCommandFetch
  repeat' with_reducible first
    | assumption | intro _ | apply onUnit_keeps | apply State.fetch_keeps | apply KeepsR.next | exact KeepsR.fault | exact KeepsR.refused
    | apply KeepsR.onUnit | apply KeepsR.ite | apply Keeps.ite | apply Keeps.foldl | (simp only [Keeps.mk_iff]; apply Keeps.parts) | split | dsimp only

theorem execQueueEnable_keeps {s0 : State} (f : Nat) (core : Nat) {s : State} (hs : Keeps s0 s) :
    KeepsR s0 (execQueueEnable f core s) := by
  unfold execQueueEnable
  repeat' with_reducible first
    | assumption | intro _ | apply onUnit_keeps | apply State.queueAction_keeps | apply State.enableOn_keeps | apply KeepsR.next | exact KeepsR.fault
    | exact KeepsR.refused | apply KeepsR.onUnit | apply KeepsR.ite | apply Keeps.ite | apply Keeps.foldl | (simp only [Keeps.mk_iff]; apply Keeps.parts)
    | split | dsimp only

end Sys2Proof.Machine
end

