-- ==== Sys2Proof/Laws/KeepsSorterGrant.lean ====
section
/-!
SUPPORT. The operations of Machine/SorterGrant.lean leave the queue alone and keep the invariant (Laws/Keeps.lean).
-/

set_option linter.all false

namespace Sys2Proof.Machine

theorem State.noteSlip_keeps {s0 : State} {s : State} (f : Nat) (cmd : List Byte) (hs : Keeps s0 s) :
    Keeps s0 (State.noteSlip s f cmd) := by
  unfold State.noteSlip
  repeat' with_reducible first
    | assumption | intro _ | apply State.modDomain_keeps | apply Keeps.ite | apply Keeps.foldl | (simp only [Keeps.mk_iff]; apply Keeps.parts) | split
    | dsimp only

theorem State.grantQueue_keeps {s0 : State} {s : State} (q : Nat) (hs : Keeps s0 s) :
    Keeps s0 (State.grantQueue s q) := by
  unfold State.grantQueue
  repeat' with_reducible first
    | assumption | intro _
    | (extract_lets +onlyGivenNames x; clear_value (hx : x = _); first | refine Keeps.bind (s := s0) hx ?_ (fun _ => ?_) | (refine Keeps.isFaults x ?_; subst hx) | skip)
    | apply State.traceCore_keeps | apply State.noteSlip_keeps | apply State.setQueue_keeps | apply State.refreshHeads_keeps | apply State.count_keeps
    | apply Keeps.ite | apply Keeps.foldl | (simp only [Keeps.mk_iff]; apply Keeps.parts) | split | dsimp only

theorem State.sorterCycle_keeps {s0 : State} {s : State} (hs : Keeps s0 s) :
    Keeps s0 (State.sorterCycle s) := by
  unfold State.sorterCycle
  repeat' with_reducible first
    | assumption | intro _
    | (extract_lets +onlyGivenNames x; clear_value (hx : x = _); first | refine Keeps.bind (s := s0) hx ?_ (fun _ => ?_) | (refine Keeps.isFaults x ?_; subst hx) | skip)
    | apply State.grantQueue_keeps | apply State.count_keeps | apply Keeps.ite | apply Keeps.foldl | (simp only [Keeps.mk_iff]; apply Keeps.parts) | split
    | dsimp only

theorem execSorterGrant_keeps {s0 : State} {s : State} (hs : Keeps s0 s) :
    KeepsR s0 (execSorterGrant s) := by
  unfold execSorterGrant
  repeat' with_reducible first
    | assumption | intro _ | apply State.sorterCycle_keeps | apply KeepsR.next | exact KeepsR.fault | exact KeepsR.refused | apply KeepsR.onUnit
    | apply KeepsR.ite | apply Keeps.ite | apply Keeps.foldl | (simp only [Keeps.mk_iff]; apply Keeps.parts) | split | dsimp only

end Sys2Proof.Machine
end

