-- ==== Sys2Proof/Laws/KeepsControl.lean ====
section
/-!
SUPPORT. The operations of Machine/Control.lean leave the queue alone and keep the invariant (Laws/Keeps.lean).
-/

set_option linter.all false

namespace Sys2Proof.Machine

theorem State.control_keeps {s0 : State} {s : State} (q : Nat) (i : Nat) (op : Nat) (checks : List Byte → List (Nat × Bool)) (k : Flight → State) (hs : Keeps s0 s) (hk : ∀ y0, Keeps s0 (k y0)) :
    KeepsR s0 (State.control s q i op checks k) := by
  unfold State.control
  repeat' with_reducible first
    | assumption | intro _ | apply State.endFlight_keeps | apply State.engine_keeps | apply hk | apply KeepsR.next | exact KeepsR.fault
    | exact KeepsR.refused | apply KeepsR.onUnit | apply KeepsR.ite | apply Keeps.ite | apply Keeps.foldl | (simp only [Keeps.mk_iff]; apply Keeps.parts)
    | split | dsimp only

theorem execDrainMark_keeps {s0 : State} (q : Nat) (i : Nat) {s : State} (hs : Keeps s0 s) :
    KeepsR s0 (execDrainMark q i s) := by
  unfold execDrainMark
  repeat' with_reducible first
    | assumption | intro _ | apply State.control_keeps | apply State.endFlight_keeps | apply KeepsR.next | exact KeepsR.fault | exact KeepsR.refused
    | apply KeepsR.onUnit | apply KeepsR.ite | apply Keeps.ite | apply Keeps.foldl | (simp only [Keeps.mk_iff]; apply Keeps.parts) | split | dsimp only

theorem execReport_keeps {s0 : State} (q : Nat) (i : Nat) {s : State} (hs : Keeps s0 s) :
    KeepsR s0 (execReport q i s) := by
  unfold execReport
  repeat' with_reducible first
    | assumption | intro _
    | (extract_lets +onlyGivenNames x; clear_value (hx : x = _); first | refine Keeps.bind (s := s0) hx ?_ (fun _ => ?_) | refine Keeps.bindJob (s := s0) hx ?_ (fun _ => ?_) | refine Keeps.bindRes (s := s0) hx ?_ (fun _ => ?_) | (refine Keeps.isFaults x ?_; subst hx) | skip)
    | apply State.control_keeps | apply State.endFlight_keeps | apply State.runJob_keeps | apply JobResult.finish_keeps | apply KeepsR.next
    | exact KeepsR.fault | exact KeepsR.refused | apply KeepsR.onUnit | apply KeepsR.ite | apply Keeps.ite | apply Keeps.foldl
    | (simp only [Keeps.mk_iff]; apply Keeps.parts) | apply Keeps.iteJob | apply Keeps.foldlJob | split | dsimp only

theorem execNop_keeps {s0 : State} (q : Nat) (i : Nat) {s : State} (hs : Keeps s0 s) :
    KeepsR s0 (execNop q i s) := by
  unfold execNop
  repeat' with_reducible first
    | assumption | intro _ | apply State.control_keeps | apply State.endFlight_keeps | apply KeepsR.next | exact KeepsR.fault | exact KeepsR.refused
    | apply KeepsR.onUnit | apply KeepsR.ite | apply Keeps.ite | apply Keeps.foldl | (simp only [Keeps.mk_iff]; apply Keeps.parts) | split | dsimp only

theorem execWaitTimeout_keeps {s0 : State} (q : Nat) (i : Nat) {s : State} (hs : Keeps s0 s) :
    KeepsR s0 (execWaitTimeout q i s) := by
  unfold execWaitTimeout
  repeat' with_reducible first
    | assumption | intro _
    | (extract_lets +onlyGivenNames x; clear_value (hx : x = _); first | refine Keeps.bind (s := s0) hx ?_ (fun _ => ?_) | (refine Keeps.isFaults x ?_; subst hx) | skip)
    | apply State.endFlight_keeps | apply State.engine_keeps | apply KeepsR.next | exact KeepsR.fault | exact KeepsR.refused | apply KeepsR.onUnit
    | apply KeepsR.ite | apply Keeps.ite | apply Keeps.foldl | (simp only [Keeps.mk_iff]; apply Keeps.parts) | split | dsimp only

theorem execWait_keeps {s0 : State} (q : Nat) (i : Nat) {s : State} (hs : Keeps s0 s) :
    KeepsR s0 (execWait q i s) := by
  unfold execWait
  repeat' with_reducible first
    | assumption | intro _
    | (extract_lets +onlyGivenNames x; clear_value (hx : x = _); first | refine Keeps.bind (s := s0) hx ?_ (fun _ => ?_) | (refine Keeps.isFaults x ?_; subst hx) | skip)
    | apply State.control_keeps | apply State.endFlight_keeps | apply KeepsR.next | exact KeepsR.fault | exact KeepsR.refused | apply KeepsR.onUnit
    | apply KeepsR.ite | apply Keeps.ite | apply Keeps.foldl | (simp only [Keeps.mk_iff]; apply Keeps.parts) | split | dsimp only

theorem execTimer_keeps {s0 : State} (q : Nat) (i : Nat) {s : State} (hs : Keeps s0 s) :
    KeepsR s0 (execTimer q i s) := by
  unfold execTimer
  repeat' with_reducible first
    | assumption | intro _ | apply State.control_keeps | apply State.endFlight_keeps | apply KeepsR.next | exact KeepsR.fault | exact KeepsR.refused
    | apply KeepsR.onUnit | apply KeepsR.ite | apply Keeps.ite | apply Keeps.foldl | (simp only [Keeps.mk_iff]; apply Keeps.parts) | split | dsimp only

theorem execFence_keeps {s0 : State} (q : Nat) (i : Nat) {s : State} (hs : Keeps s0 s) :
    KeepsR s0 (execFence q i s) := by
  unfold execFence
  repeat' with_reducible first
    | assumption | intro _ | apply State.control_keeps | apply State.endFlight_keeps | apply KeepsR.next | exact KeepsR.fault | exact KeepsR.refused
    | apply KeepsR.onUnit | apply KeepsR.ite | apply Keeps.ite | apply Keeps.foldl | (simp only [Keeps.mk_iff]; apply Keeps.parts) | split | dsimp only

theorem execTimerExpiry_keeps {s0 : State} (q : Nat) (i : Nat) {s : State} (hs : Keeps s0 s) :
    KeepsR s0 (execTimerExpiry q i s) := by
  unfold execTimerExpiry
  repeat' with_reducible first
    | assumption | intro _ | apply State.control_keeps | apply State.endFlight_keeps | apply KeepsR.next | exact KeepsR.fault | exact KeepsR.refused
    | apply KeepsR.onUnit | apply KeepsR.ite | apply Keeps.ite | apply Keeps.foldl | (simp only [Keeps.mk_iff]; apply Keeps.parts) | split | dsimp only

theorem State.semOp_keeps {s0 : State} {s : State} (n : Nat) (op : Nat) (v : Nat) (hs : Keeps s0 s) :
    Keeps s0 (State.semOp s n op v) := by
  unfold State.semOp
  repeat' with_reducible first
    | assumption | intro _ | apply State.addSem_keeps | apply State.setSem_keeps | apply Keeps.ite | apply Keeps.foldl
    | (simp only [Keeps.mk_iff]; apply Keeps.parts) | split | dsimp only

end Sys2Proof.Machine
end

