-- ==== Sys2Proof/Laws/KeepsRng.lean ====
section
/-!
SUPPORT. The operations of Machine/Rng.lean leave the queue alone and keep the invariant (Laws/Keeps.lean).
-/

set_option linter.all false

namespace Sys2Proof.Machine

theorem State.rollback_keeps {s0 : State} {s : State} (c : Nat) (saved : List (Nat × BitVec 128)) (hs : Keeps s0 s) :
    Keeps s0 (State.rollback s c saved) := by
  unfold State.rollback
  repeat' with_reducible first
    | assumption | intro _ | apply State.modCore_keeps | apply State.count_keeps | apply Keeps.ite | apply Keeps.foldl
    | (simp only [Keeps.mk_iff]; apply Keeps.parts) | split | dsimp only

theorem State.drawing_keeps {s0 : State} {s : State} (q : Nat) (i : Nat) (fl : Flight) (k : State → State) (hs : Keeps s0 s) (hk : ∀ y0, Keeps s0 y0 → Keeps s0 (k y0)) :
    Keeps s0 (State.drawing s q i fl k) := by
  unfold State.drawing
  repeat' with_reducible first
    | assumption | intro _ | apply State.countCycles_keeps
    | (extract_lets +onlyGivenNames x; clear_value (hx : x = _); first | refine Keeps.bind (s := s0) hx ?_ (fun _ => ?_) | (refine Keeps.isFaults x ?_; subst hx) | skip)
    | apply State.rollback_keeps | apply State.endFlight_keeps | apply State.count_keeps | apply hk | apply Keeps.ite | apply Keeps.foldl
    | (simp only [Keeps.mk_iff]; apply Keeps.parts) | split | dsimp only

theorem State.saveLanes_keeps {s0 : State} {s : State} (q : Nat) (i : Nat) (fl : Flight) (hs : Keeps s0 s) :
    Keeps s0 (State.saveLanes s q i fl) := by
  unfold State.saveLanes
  repeat' with_reducible first
    | assumption | intro _ | apply State.runJob_keeps | apply JobResult.finish_keeps | apply Keeps.ite | apply Keeps.foldl
    | (simp only [Keeps.mk_iff]; apply Keeps.parts) | apply Keeps.iteJob | apply Keeps.foldlJob | split | dsimp only

theorem State.setSeedpos_keeps {s0 : State} {s : State} (c : Nat) (seeded : Bool) (base : Nat) (hs : Keeps s0 s) :
    Keeps s0 (State.setSeedpos s c seeded base) := by
  unfold State.setSeedpos
  repeat' with_reducible first
    | assumption | intro _ | apply State.setFld_keeps | apply Keeps.ite | apply Keeps.foldl | (simp only [Keeps.mk_iff]; apply Keeps.parts) | split
    | dsimp only

theorem State.loadLanes_keeps {s0 : State} {s : State} (c : Nat) (l : List (BitVec 128)) (seeded : Bool) (base : Nat) (hs : Keeps s0 s) :
    Keeps s0 (State.loadLanes s c l seeded base) := by
  unfold State.loadLanes
  repeat' with_reducible first
    | assumption | intro _ | apply State.modCore_keeps | apply State.setFld_keeps | apply State.setSeedpos_keeps | apply Keeps.ite | apply Keeps.foldl
    | (simp only [Keeps.mk_iff]; apply Keeps.parts) | split | dsimp only

theorem State.seedLanes_keeps {s0 : State} {s : State} (q : Nat) (i : Nat) (fl : Flight) (hs : Keeps s0 s) :
    Keeps s0 (State.seedLanes s q i fl) := by
  unfold State.seedLanes
  repeat' with_reducible first
    | assumption | intro _
    | (extract_lets +onlyGivenNames x; clear_value (hx : x = _); first | refine Keeps.bind (s := s0) hx ?_ (fun _ => ?_) | (refine Keeps.isFaults x ?_; subst hx) | skip)
    | apply State.loadLanes_keeps | apply State.endFlight_keeps | apply Keeps.ite | apply Keeps.foldl | (simp only [Keeps.mk_iff]; apply Keeps.parts)
    | split | dsimp only

theorem State.drawWords_keeps {s0 : State} {s : State} (c : Nat) (n : Nat) (hs : Keeps s0 s) :
    Keeps s0 (State.drawWords s c n).2 := by
  unfold State.drawWords
  repeat' with_reducible first
    | assumption | intro _
    | (extract_lets +onlyGivenNames x; clear_value (hx : x = _); first | refine Keeps.bind (s := s0) hx ?_ (fun _ => ?_) | refine Keeps.bindSnd (s := s0) hx ?_ (fun _ => ?_) | (refine Keeps.isFaults x ?_; subst hx) | skip)
    | apply State.modCore_keeps | apply State.count_keeps | apply Keeps.ite | apply Keeps.foldl | (simp only [Keeps.mk_iff]; apply Keeps.parts)
    | apply Keeps.iteFst | apply Keeps.iteSnd | refine Keeps.sndEq (by assumption) ?_ | split | dsimp only

theorem State.sampleRows_keeps {s0 : State} {s : State} (q : Nat) (i : Nat) (stop : Option Nat) (fl : Flight) (hs : Keeps s0 s) :
    Keeps s0 (State.sampleRows s q i stop fl) := by
  unfold State.sampleRows
  repeat' with_reducible first
    | assumption | intro _
    | (extract_lets +onlyGivenNames x; clear_value (hx : x = _); first | refine Keeps.bind (s := s0) hx ?_ (fun _ => ?_) | refine Keeps.bindSnd (s := s0) hx ?_ (fun _ => ?_) | refine Keeps.bindJob (s := s0) hx ?_ (fun _ => ?_) | refine Keeps.bindRes (s := s0) hx ?_ (fun _ => ?_) | (refine Keeps.isFaults x ?_; subst hx) | skip)
    | apply State.drawWords_keeps | apply State.runJob_keeps | apply State.count_keeps | apply JobResult.finish_keeps | apply Keeps.ite
    | apply Keeps.foldl | (simp only [Keeps.mk_iff]; apply Keeps.parts) | apply Keeps.iteFst | apply Keeps.iteSnd | apply Keeps.iteJob
    | apply Keeps.foldlJob | refine Keeps.sndEq (by assumption) ?_ | split | dsimp only

theorem execRngSave_keeps {s0 : State} (q : Nat) (i : Nat) {s : State} (hs : Keeps s0 s) :
    KeepsR s0 (execRngSave q i s) := by
  unfold execRngSave
  repeat' with_reducible first
    | assumption | intro _ | apply State.dispatch_keeps | apply State.drawing_keeps | apply State.saveLanes_keeps | apply KeepsR.next | exact KeepsR.fault
    | exact KeepsR.refused | apply KeepsR.onUnit | apply KeepsR.ite | apply Keeps.ite | apply Keeps.foldl | (simp only [Keeps.mk_iff]; apply Keeps.parts)
    | split | dsimp only

theorem State.areaLanes_keeps {s0 : State} {s : State} (q : Nat) (i : Nat) (fl : Flight) (hs : Keeps s0 s) :
    Keeps s0 (State.areaLanes s q i fl) := by
  unfold State.areaLanes
  repeat' with_reducible first
    | assumption | intro _ | apply State.countCycles_keeps
    | (extract_lets +onlyGivenNames x; clear_value (hx : x = _); first | refine Keeps.bind (s := s0) hx ?_ (fun _ => ?_) | refine Keeps.bindJob (s := s0) hx ?_ (fun _ => ?_) | refine Keeps.bindRes (s := s0) hx ?_ (fun _ => ?_) | (refine Keeps.isFaults x ?_; subst hx) | skip)
    | apply State.loadLanes_keeps | apply State.endFlight_keeps | apply State.runJob_keeps | apply JobResult.finish_keeps | apply Keeps.ite
    | apply Keeps.foldl | (simp only [Keeps.mk_iff]; apply Keeps.parts) | apply Keeps.iteJob | apply Keeps.foldlJob | split | dsimp only

theorem execSample_keeps {s0 : State} (q : Nat) (i : Nat) (stop : Option Nat) {s : State} (hs : Keeps s0 s) :
    KeepsR s0 (execSample q i stop s) := by
  unfold execSample
  repeat' with_reducible first
    | assumption | intro _ | apply State.sampleRows_keeps | apply State.dispatch_keeps | apply State.drawing_keeps | apply KeepsR.next
    | exact KeepsR.fault | exact KeepsR.refused | apply KeepsR.onUnit | apply KeepsR.ite | apply Keeps.ite | apply Keeps.foldl
    | (simp only [Keeps.mk_iff]; apply Keeps.parts) | split | dsimp only

theorem execRngLoad_keeps {s0 : State} (q : Nat) (i : Nat) {s : State} (hs : Keeps s0 s) :
    KeepsR s0 (execRngLoad q i s) := by
  unfold execRngLoad
  repeat' with_reducible first
    | assumption | intro _ | apply State.countCycles_keeps | apply State.areaLanes_keeps | apply State.seedLanes_keeps | apply State.dispatch_keeps | apply State.count_keeps
    | apply KeepsR.next | exact KeepsR.fault | exact KeepsR.refused | apply KeepsR.onUnit | apply KeepsR.ite | apply Keeps.ite | apply Keeps.foldl
    | (simp only [Keeps.mk_iff]; apply Keeps.parts) | split | dsimp only

end Sys2Proof.Machine
end

