-- ==== Sys2Proof/Laws/KeepsCompletion.lean ====
section
/-!
SUPPORT. The operations of Machine/Completion.lean leave the queue alone and keep the invariant (Laws/Keeps.lean).
-/

set_option linter.all false

namespace Sys2Proof.Machine

theorem State.signal_keeps {s0 : State} {s : State} (cmd : List Byte) (status : Nat) (hs : Keeps s0 s) :
    Keeps s0 (State.signal s cmd status) := by
  unfold State.signal
  repeat' with_reducible first
    | assumption | intro _
    | (extract_lets +onlyGivenNames x; clear_value (hx : x = _); first | refine Keeps.bind (s := s0) hx ?_ (fun _ => ?_) | (refine Keeps.isFaults x ?_; subst hx) | skip)
    | apply State.addSem_keeps | apply State.setSem_keeps | apply Keeps.ite | apply Keeps.foldl | (simp only [Keeps.mk_iff]; apply Keeps.parts) | split
    | dsimp only

theorem State.endProgram_keeps {s0 : State} {s : State} (fl : Flight) (status : Nat) (hs : Keeps s0 s) :
    Keeps s0 (State.endProgram s fl status) := by
  unfold State.endProgram
  repeat' with_reducible first
    | assumption | intro _
    | (extract_lets +onlyGivenNames x; clear_value (hx : x = _); first | refine Keeps.bind (s := s0) hx ?_ (fun _ => ?_) | (refine Keeps.isFaults x ?_; subst hx) | skip)
    | apply State.rollback_keeps | apply State.modCore_keeps | apply State.setFld_keeps | apply Keeps.ite | apply Keeps.foldl
    | (simp only [Keeps.mk_iff]; apply Keeps.parts) | split | dsimp only

theorem State.faultCause_keeps {s0 : State} {s : State} (fl : Flight) (status : Nat) (hs : Keeps s0 s) :
    Keeps s0 (State.faultCause s fl status) := by
  unfold State.faultCause
  repeat' with_reducible first
    | assumption | intro _ | apply State.setCause_keeps | apply State.modDomain_keeps | apply Keeps.ite | apply Keeps.foldl
    | (simp only [Keeps.mk_iff]; apply Keeps.parts) | split | dsimp only

theorem State.completeFlight_keeps {s0 : State} {s : State} (fl : Flight) (m : Nat) (withheld : Bool) (hs : Keeps s0 s) :
    Keeps s0 (State.completeFlight s fl m withheld) := by
  unfold State.completeFlight
  repeat' with_reducible first
    | assumption | apply State.dropPre_keeps | intro _
    | (extract_lets +onlyGivenNames x; clear_value (hx : x = _); first | refine Keeps.bind (s := s0) hx ?_ (fun _ => ?_) | (refine Keeps.isFaults x ?_; subst hx) | skip)
    | apply State.closeRecords_keeps | apply State.traceCore_keeps | apply State.voidBlocks_keeps | apply State.settleQueue_keeps
    | apply State.modCore_keeps | apply State.complete_keeps | apply State.endProgram_keeps | apply State.refreshHeads_keeps | apply State.learn_keeps
    | apply State.signal_keeps | apply State.faultCause_keeps | apply State.raiseVector_keeps | apply State.count_keeps | apply State.release_keeps
    | apply Keeps.ite | apply Keeps.foldl | (simp only [Keeps.mk_iff]; apply Keeps.parts) | split | dsimp only

end Sys2Proof.Machine
end

