-- ==== Sys2Proof/Laws/KeepsTenants.lean ====
section
/-!
SUPPORT. The operations of Machine/Tenants.lean leave the queue alone and keep the invariant (Laws/Keeps.lean).
-/

set_option linter.all false

namespace Sys2Proof.Machine

theorem State.granFields_keeps {s0 : State} {s : State} (func : Nat) (tier : Nat) (clear : Nat) (hs : Keeps s0 s) :
    Keeps s0 (State.granFields s func tier clear) := by
  unfold State.granFields
  repeat' with_reducible first
    | assumption | intro _ | apply State.setFld_keeps | apply Keeps.ite | apply Keeps.foldl | (simp only [Keeps.mk_iff]; apply Keeps.parts) | split
    | dsimp only

theorem State.granStart_keeps {s0 : State} {s : State} (query : Bool) (func : Nat) (tier : Nat) (clear : Nat) (hs : Keeps s0 s) :
    Keeps s0 (State.granStart s query func tier clear) := by
  unfold State.granStart
  repeat' with_reducible first
    | assumption | intro _
    | (extract_lets +onlyGivenNames x; clear_value (hx : x = _); first | refine Keeps.bind (s := s0) hx ?_ (fun _ => ?_) | (refine Keeps.isFaults x ?_; subst hx) | skip)
    | apply State.setFld_keeps | apply State.granFields_keeps | apply Keeps.ite | apply Keeps.foldl | (simp only [Keeps.mk_iff]; apply Keeps.parts)
    | split | dsimp only

theorem execAssign_keeps {s0 : State} (func : Nat) (tier : Nat) (clear : Nat) {s : State} (hs : Keeps s0 s) :
    KeepsR s0 (execAssign func tier clear s) := by
  unfold execAssign
  repeat' with_reducible first
    | assumption | intro _ | apply onUnit_keeps | apply State.granStart_keeps | apply KeepsR.next | exact KeepsR.fault | exact KeepsR.refused
    | apply KeepsR.onUnit | apply KeepsR.ite | apply Keeps.ite | apply Keeps.foldl | (simp only [Keeps.mk_iff]; apply Keeps.parts) | split | dsimp only

theorem State.countCores_keeps {s0 : State} {s : State} (f : Nat) (hs : Keeps s0 s) :
    Keeps s0 (State.countCores s f) := by
  unfold State.countCores
  repeat' with_reducible first
    | assumption | intro _ | apply State.setFld_keeps | apply Keeps.ite | apply Keeps.foldl | (simp only [Keeps.mk_iff]; apply Keeps.parts) | split
    | dsimp only

theorem State.giveGranule_keeps {s0 : State} {s : State} (tier : Nat) (n : Nat) (func : Nat) (hs : Keeps s0 s) :
    Keeps s0 (State.giveGranule s tier n func) := by
  unfold State.giveGranule
  repeat' with_reducible first
    | assumption | intro _
    | (extract_lets +onlyGivenNames x; clear_value (hx : x = _); first | refine Keeps.bind (s := s0) hx ?_ (fun _ => ?_) | (refine Keeps.isFaults x ?_; subst hx) | skip)
    | apply State.setFld_keeps | apply Keeps.ite | apply Keeps.foldl | (simp only [Keeps.mk_iff]; apply Keeps.parts) | split | dsimp only

theorem State.zeroGranule_keeps {s0 : State} {s : State} (a : Nat) (hs : Keeps s0 s) :
    Keeps s0 (State.zeroGranule s a) := by
  unfold State.zeroGranule
  repeat' with_reducible first
    | assumption | intro _ | apply Keeps.ite | apply Keeps.foldl | (simp only [Keeps.mk_iff]; apply Keeps.parts)
    | (simp only [Keeps.mk_iff]; refine Keeps.dropped ?_ _) | split | dsimp only

theorem State.assignGranule_keeps {s0 : State} {s : State} (clear : Bool) (tier : Nat) (n : Nat) (func : Nat) (hs : Keeps s0 s) :
    Keeps s0 (State.assignGranule s clear tier n func) := by
  unfold State.assignGranule
  repeat' with_reducible first
    | assumption | intro _
    | (extract_lets +onlyGivenNames x; clear_value (hx : x = _); first | refine Keeps.bind (s := s0) hx ?_ (fun _ => ?_) | (refine Keeps.isFaults x ?_; subst hx) | skip)
    | apply State.giveGranule_keeps | apply State.zeroGranule_keeps | apply State.purgeWhere_keeps | apply Keeps.ite | apply Keeps.foldl
    | (simp only [Keeps.mk_iff]; apply Keeps.parts) | split | dsimp only

theorem State.granDone_keeps {s0 : State} {s : State} (hs : Keeps s0 s) :
    Keeps s0 (State.granDone s) := by
  unfold State.granDone
  repeat' with_reducible first
    | assumption | intro _
    | (extract_lets +onlyGivenNames x; clear_value (hx : x = _); first | refine Keeps.bind (s := s0) hx ?_ (fun _ => ?_) | (refine Keeps.isFaults x ?_; subst hx) | skip)
    | apply State.setFld_keeps | apply State.assignGranule_keeps | apply Keeps.ite | apply Keeps.foldl | (simp only [Keeps.mk_iff]; apply Keeps.parts)
    | split | dsimp only

theorem State.migrateOn_keeps {s0 : State} {s : State} (f : Nat) (core : Nat) (q : Nat) (hs : Keeps s0 s) :
    Keeps s0 (State.migrateOn s f core q) := by
  unfold State.migrateOn
  repeat' with_reducible first
    | assumption | intro _ | apply State.setQueue_keeps | apply State.setFld_keeps | apply State.actOn_keeps | apply Keeps.ite | apply Keeps.foldl
    | (simp only [Keeps.mk_iff]; apply Keeps.parts) | split | dsimp only

theorem State.cfgErr_keeps {s0 : State} {s : State} (f : Nat) (code : Nat) (hs : Keeps s0 s) :
    Keeps s0 (State.cfgErr s f code) := by
  unfold State.cfgErr
  repeat' with_reducible first
    | assumption | intro _ | apply State.setFld_keeps | apply Keeps.ite | apply Keeps.foldl | (simp only [Keeps.mk_iff]; apply Keeps.parts) | split
    | dsimp only

theorem State.guardedField_keeps {s0 : State} {s : State} (f : Nat) (off : Nat) (hi : Nat) (lo : Nat) (val : Nat) (hs : Keeps s0 s) :
    Keeps s0 (State.guardedField s f off hi lo val) := by
  unfold State.guardedField
  repeat' with_reducible first
    | assumption | intro _
    | (extract_lets +onlyGivenNames x; clear_value (hx : x = _); first | refine Keeps.bind (s := s0) hx ?_ (fun _ => ?_) | (refine Keeps.isFaults x ?_; subst hx) | skip)
    | apply State.setFld_keeps | apply State.cfgErr_keeps | apply Keeps.ite | apply Keeps.foldl | (simp only [Keeps.mk_iff]; apply Keeps.parts) | split
    | dsimp only

theorem State.rngInvalidate_keeps {s0 : State} {s : State} (c : Nat) (hs : Keeps s0 s) :
    Keeps s0 (State.rngInvalidate s c) := by
  unfold State.rngInvalidate
  repeat' with_reducible first
    | assumption | intro _ | apply State.setFld_keeps | apply Keeps.ite | apply Keeps.foldl | (simp only [Keeps.mk_iff]; apply Keeps.parts) | split
    | dsimp only

theorem State.migrateRng_keeps {s0 : State} {s : State} (q : Nat) (m : Migration) (hs : Keeps s0 s) :
    Keeps s0 (State.migrateRng s q m) := by
  unfold State.migrateRng
  repeat' with_reducible first
    | assumption | intro _
    | (extract_lets +onlyGivenNames x; clear_value (hx : x = _); first | refine Keeps.bind (s := s0) hx ?_ (fun _ => ?_) | refine Keeps.bindJob (s := s0) hx ?_ (fun _ => ?_) | refine Keeps.bindRes (s := s0) hx ?_ (fun _ => ?_) | (refine Keeps.isFaults x ?_; subst hx) | skip)
    | apply State.loadLanes_keeps | apply State.rngInvalidate_keeps | apply State.runJob_keeps | apply Keeps.ite | apply Keeps.foldl
    | (simp only [Keeps.mk_iff]; apply Keeps.parts) | apply Keeps.iteJob | apply Keeps.foldlJob | split | dsimp only

theorem State.migrateEnd_keeps {s0 : State} {s : State} (q : Nat) (m : Migration) (hs : Keeps s0 s) :
    Keeps s0 (State.migrateEnd s q m) := by
  unfold State.migrateEnd
  repeat' with_reducible first
    | assumption | intro _ | apply State.refreshHeads_keeps | apply State.modQueue_keeps | apply State.count_keeps | apply Keeps.ite | apply Keeps.foldl
    | (simp only [Keeps.mk_iff]; apply Keeps.parts) | split | dsimp only

theorem State.drainDone_keeps {s0 : State} {s : State} (q : Nat) (hs : Keeps s0 s) :
    Keeps s0 (State.drainDone s q) := by
  unfold State.drainDone
  repeat' with_reducible first
    | assumption | intro _ | apply State.migrateEnd_keeps | apply State.migrateRng_keeps | apply Keeps.ite | apply Keeps.foldl
    | (simp only [Keeps.mk_iff]; apply Keeps.parts) | split | dsimp only

theorem execMigrationDrainDone_keeps {s0 : State} (q : Nat) {s : State} (hs : Keeps s0 s) :
    KeepsR s0 (execMigrationDrainDone q s) := by
  unfold execMigrationDrainDone
  repeat' with_reducible first
    | assumption | intro _ | apply State.drainDone_keeps | apply onUnit_keeps | apply KeepsR.next | exact KeepsR.fault | exact KeepsR.refused
    | apply KeepsR.onUnit | apply KeepsR.ite | apply Keeps.ite | apply Keeps.foldl | (simp only [Keeps.mk_iff]; apply Keeps.parts) | split | dsimp only

theorem State.setEnabled_keeps {s0 : State} {s : State} (f : Nat) (v : Nat) (hs : Keeps s0 s) :
    Keeps s0 (State.setEnabled s f v) := by
  unfold State.setEnabled
  repeat' with_reducible first
    | assumption | intro _ | apply State.setFld_keeps | apply Keeps.ite | apply Keeps.foldl | (simp only [Keeps.mk_iff]; apply Keeps.parts) | split
    | dsimp only

theorem execQuery_keeps {s0 : State} (func : Nat) (tier : Nat) (clear : Nat) {s : State} (hs : Keeps s0 s) :
    KeepsR s0 (execQuery func tier clear s) := by
  unfold execQuery
  repeat' with_reducible first
    | assumption | intro _ | apply onUnit_keeps | apply State.granStart_keeps | apply KeepsR.next | exact KeepsR.fault | exact KeepsR.refused
    | apply KeepsR.onUnit | apply KeepsR.ite | apply Keeps.ite | apply Keeps.foldl | (simp only [Keeps.mk_iff]; apply Keeps.parts) | split | dsimp only

theorem State.migrationTimeout_keeps {s0 : State} {s : State} (q : Nat) (hs : Keeps s0 s) :
    Keeps s0 (State.migrationTimeout s q) := by
  unfold State.migrationTimeout
  repeat' with_reducible first
    | assumption | intro _
    | (extract_lets +onlyGivenNames x; clear_value (hx : x = _); first | refine Keeps.bind (s := s0) hx ?_ (fun _ => ?_) | (refine Keeps.isFaults x ?_; subst hx) | skip)
    | apply State.migrateEnd_keeps | apply State.rngInvalidate_keeps | apply Keeps.ite | apply Keeps.foldl | (simp only [Keeps.mk_iff]; apply Keeps.parts)
    | split | dsimp only

theorem execGranuleActionDone_keeps {s0 : State} {s : State} (hs : Keeps s0 s) :
    KeepsR s0 (execGranuleActionDone s) := by
  unfold execGranuleActionDone
  repeat' with_reducible first
    | assumption | intro _ | apply State.granDone_keeps | apply KeepsR.next | exact KeepsR.fault | exact KeepsR.refused | apply KeepsR.onUnit
    | apply KeepsR.ite | apply Keeps.ite | apply Keeps.foldl | (simp only [Keeps.mk_iff]; apply Keeps.parts) | split | dsimp only

theorem execMigrationTimeout_keeps {s0 : State} (q : Nat) {s : State} (hs : Keeps s0 s) :
    KeepsR s0 (execMigrationTimeout q s) := by
  unfold execMigrationTimeout
  repeat' with_reducible first
    | assumption | intro _ | apply onUnit_keeps | apply State.migrationTimeout_keeps | apply KeepsR.next | exact KeepsR.fault | exact KeepsR.refused
    | apply KeepsR.onUnit | apply KeepsR.ite | apply Keeps.ite | apply Keeps.foldl | (simp only [Keeps.mk_iff]; apply Keeps.parts) | split | dsimp only

theorem execMigrate_keeps {s0 : State} (f : Nat) (core : Nat) {s : State} (hs : Keeps s0 s) :
    KeepsR s0 (execMigrate f core s) := by
  unfold execMigrate
  repeat' with_reducible first
    | assumption | intro _ | apply State.migrateOn_keeps | apply onUnit_keeps | apply State.queueAction_keeps | apply KeepsR.next | exact KeepsR.fault
    | exact KeepsR.refused | apply KeepsR.onUnit | apply KeepsR.ite | apply Keeps.ite | apply Keeps.foldl | (simp only [Keeps.mk_iff]; apply Keeps.parts)
    | split | dsimp only

theorem State.runDeferred_keeps {s0 : State} {s : State} (hs : Keeps s0 s) :
    Keeps s0 (State.runDeferred s) := by
  unfold State.runDeferred
  repeat' with_reducible first
    | assumption | intro _
    | (extract_lets +onlyGivenNames x; clear_value (hx : x = _); first | refine Keeps.bind (s := s0) hx ?_ (fun _ => ?_) | (refine Keeps.isFaults x ?_; subst hx) | skip)
    | apply State.resumeOn_keeps | apply State.migrateOn_keeps | apply State.resetOn_keeps | apply State.enableOn_keeps | apply State.modQueue_keeps
    | apply State.disableOn_keeps | apply State.pauseOn_keeps | apply Keeps.ite | apply Keeps.foldl | (simp only [Keeps.mk_iff]; apply Keeps.parts)
    | split | dsimp only

theorem State.writeEnable_keeps {s0 : State} {s : State} (f : Nat) (new : Bool) (hs : Keeps s0 s) :
    Keeps s0 (State.writeEnable s f new) := by
  unfold State.writeEnable
  repeat' with_reducible first
    | assumption | intro _ | apply State.cfgErr_keeps | apply State.setEnabled_keeps | apply Keeps.ite | apply Keeps.foldl
    | (simp only [Keeps.mk_iff]; apply Keeps.parts) | split | dsimp only

theorem State.tenantWrite_keeps {s0 : State} {s : State} (f : Nat) (off : Nat) (val : Nat) (hs : Keeps s0 s) :
    Keeps s0 (State.tenantWrite s f off val) := by
  unfold State.tenantWrite
  repeat' with_reducible first
    | assumption | intro _
    | (extract_lets +onlyGivenNames x; clear_value (hx : x = _); first | refine Keeps.bind (s := s0) hx ?_ (fun _ => ?_) | (refine Keeps.isFaults x ?_; subst hx) | skip)
    | apply State.setReg_keeps | apply State.guardedField_keeps | apply State.setFld_keeps | apply State.writeEnable_keeps | apply State.cfgErr_keeps
    | apply State.refreshHeads_keeps | apply State.countCores_keeps | apply Keeps.ite | apply Keeps.foldl | (simp only [Keeps.mk_iff]; apply Keeps.parts)
    | split | dsimp only

theorem execTenantEntryWrite_keeps {s0 : State} (f : Nat) (off : Nat) (val : Nat) {s : State} (hs : Keeps s0 s) :
    KeepsR s0 (execTenantEntryWrite f off val s) := by
  unfold execTenantEntryWrite
  repeat' with_reducible first
    | assumption | intro _ | apply onUnit_keeps | apply State.tenantWrite_keeps | apply KeepsR.next | exact KeepsR.fault | exact KeepsR.refused
    | apply KeepsR.onUnit | apply KeepsR.ite | apply Keeps.ite | apply Keeps.foldl | (simp only [Keeps.mk_iff]; apply Keeps.parts) | split | dsimp only

end Sys2Proof.Machine
end

