-- ==== Sys2Proof/Laws/KeepsFabric.lean ====
section
/-!
SUPPORT. The operations of Machine/Fabric.lean leave the queue alone and keep the invariant (Laws/Keeps.lean).
-/

set_option linter.all false

namespace Sys2Proof.Machine

theorem State.fabCounts_keeps {s0 : State} {s : State} (hs : Keeps s0 s) :
    Keeps s0 (State.fabCounts s) := by
  unfold State.fabCounts
  repeat' with_reducible first
    | assumption | intro _
    | (extract_lets +onlyGivenNames x; clear_value (hx : x = _); first | refine Keeps.bind (s := s0) hx ?_ (fun _ => ?_) | (refine Keeps.isFaults x ?_; subst hx) | skip)
    | apply State.setFld_keeps | apply Keeps.ite | apply Keeps.foldl | (simp only [Keeps.mk_iff]; apply Keeps.parts) | split | dsimp only

theorem State.setLink_keeps {s0 : State} {s : State} (n : Nat) (l : LinkState) (hs : Keeps s0 s) :
    Keeps s0 (State.setLink s n l) := by
  unfold State.setLink
  repeat' with_reducible first
    | assumption | intro _
    | (extract_lets +onlyGivenNames x; clear_value (hx : x = _); first | refine Keeps.bind (s := s0) hx ?_ (fun _ => ?_) | (refine Keeps.isFaults x ?_; subst hx) | skip)
    | apply Keeps.ite | apply Keeps.foldl | (simp only [Keeps.mk_iff]; apply Keeps.parts) | split | dsimp only

theorem State.modLink_keeps {s0 : State} {s : State} (n : Nat) (g : LinkState → LinkState) (hs : Keeps s0 s) :
    Keeps s0 (State.modLink s n g) := by
  unfold State.modLink
  repeat' with_reducible first
    | assumption | intro _ | apply State.setLink_keeps | apply Keeps.ite | apply Keeps.foldl | (simp only [Keeps.mk_iff]; apply Keeps.parts) | split
    | dsimp only

theorem State.linkTo_keeps {s0 : State} {s : State} (n : Nat) (st : Nat) (hs : Keeps s0 s) :
    Keeps s0 (State.linkTo s n st) := by
  unfold State.linkTo
  repeat' with_reducible first
    | assumption | intro _
    | (extract_lets +onlyGivenNames x; clear_value (hx : x = _); first | refine Keeps.bind (s := s0) hx ?_ (fun _ => ?_) | (refine Keeps.isFaults x ?_; subst hx) | skip)
    | apply State.modLink_keeps | apply State.setFld_keeps | apply State.fabCounts_keeps | apply State.event_keeps | apply Keeps.ite | apply Keeps.foldl
    | (simp only [Keeps.mk_iff]; apply Keeps.parts) | split | dsimp only

theorem State.queueOn_keeps {s0 : State} {s : State} (n : Nat) (cls : Nat) (m : FabMsg) (hs : Keeps s0 s) :
    Keeps s0 (State.queueOn s n cls m) := by
  unfold State.queueOn
  repeat' with_reducible first
    | assumption | intro _ | apply State.modLink_keeps | apply Keeps.ite | apply Keeps.foldl | (simp only [Keeps.mk_iff]; apply Keeps.parts) | split
    | dsimp only

theorem State.dropTraffic_keeps {s0 : State} {s : State} (n : Nat) (hs : Keeps s0 s) :
    Keeps s0 (State.dropTraffic s n) := by
  unfold State.dropTraffic
  repeat' with_reducible first
    | assumption | intro _ | apply State.modLink_keeps | apply Keeps.ite | apply Keeps.foldl | (simp only [Keeps.mk_iff]; apply Keeps.parts) | split
    | dsimp only

theorem State.quarantine_keeps {s0 : State} {s : State} (n : Nat) (reason : Nat) (hs : Keeps s0 s) :
    Keeps s0 (State.quarantine s n reason) := by
  unfold State.quarantine
  repeat' with_reducible first
    | assumption | intro _
    | (extract_lets +onlyGivenNames x; clear_value (hx : x = _); first | refine Keeps.bind (s := s0) hx ?_ (fun _ => ?_) | (refine Keeps.isFaults x ?_; subst hx) | skip)
    | apply State.modLink_keeps | apply State.dropTraffic_keeps | apply State.setFld_keeps | apply State.tally_keeps | apply State.linkTo_keeps
    | apply State.raiseVector_keeps | apply State.release_keeps | apply Keeps.ite | apply Keeps.foldl | (simp only [Keeps.mk_iff]; apply Keeps.parts)
    | split | dsimp only

theorem State.malformed_keeps {s0 : State} {s : State} (n : Nat) (hs : Keeps s0 s) :
    Keeps s0 (State.malformed s n) := by
  unfold State.malformed
  repeat' with_reducible first
    | assumption | intro _
    | (extract_lets +onlyGivenNames x; clear_value (hx : x = _); first | refine Keeps.bind (s := s0) hx ?_ (fun _ => ?_) | (refine Keeps.isFaults x ?_; subst hx) | skip)
    | apply State.setLink_keeps | apply State.quarantine_keeps | apply State.count_keeps | apply Keeps.ite | apply Keeps.foldl
    | (simp only [Keeps.mk_iff]; apply Keeps.parts) | split | dsimp only

theorem State.transmit_keeps {s0 : State} {s : State} (m : FabMsg) (k0 : Nat) (c0 : Nat) (hs : Keeps s0 s) :
    Keeps s0 (State.transmit s m k0 c0) := by
  unfold State.transmit
  repeat' with_reducible first
    | assumption | intro _ | apply State.queueOn_keeps | apply State.count_keeps | apply Keeps.ite | apply Keeps.foldl
    | (simp only [Keeps.mk_iff]; apply Keeps.parts) | split | dsimp only

theorem State.sendMsg_keeps {s0 : State} {s : State} (m : FabMsg) (hs : Keeps s0 s) :
    Keeps s0 (State.sendMsg s m) := by
  unfold State.sendMsg
  repeat' with_reducible first
    | assumption | intro _
    | (extract_lets +onlyGivenNames x; clear_value (hx : x = _); first | refine Keeps.bind (s := s0) hx ?_ (fun _ => ?_) | (refine Keeps.isFaults x ?_; subst hx) | skip)
    | apply State.transmit_keeps | apply Keeps.ite | apply Keeps.foldl | (simp only [Keeps.mk_iff]; apply Keeps.parts) | split | dsimp only

theorem State.sendLocal_keeps {s0 : State} {s : State} (n : Nat) (mtype : Nat) (data : List Byte) (hs : Keeps s0 s) :
    Keeps s0 (State.sendLocal s n mtype data) := by
  unfold State.sendLocal
  repeat' with_reducible first
    | assumption | intro _ | apply State.queueOn_keeps | apply Keeps.ite | apply Keeps.foldl | (simp only [Keeps.mk_iff]; apply Keeps.parts) | split
    | dsimp only

theorem State.takeMsg_keeps {s0 : State} {s : State} (k : Nat) (t : Nat) (hs : Keeps s0 s) :
    KeepsO (fun x => x.2.2) s0 (State.takeMsg s k t) := by
  unfold State.takeMsg
  repeat' with_reducible first
    | assumption | intro _
    | (extract_lets +onlyGivenNames x; clear_value (hx : x = _); first | refine Keeps.bind (s := s0) hx ?_ (fun _ => ?_) | (refine Keeps.isFaults x ?_; subst hx) | skip)
    | exact KeepsO.none | apply KeepsO.some | apply KeepsO.ite | apply Keeps.ite | apply Keeps.foldl | (simp only [Keeps.mk_iff]; apply Keeps.parts)
    | refine Keeps.optEq3 (by assumption) ?_ | split | dsimp only

theorem execMessageForward_keeps {s0 : State} (k : Nat) {s : State} (hs : Keeps s0 s) :
    KeepsR s0 (execMessageForward k s) := by
  unfold execMessageForward
  repeat' with_reducible first
    | assumption | intro _
    | (extract_lets +onlyGivenNames x; clear_value (hx : x = _); first | refine Keeps.bind (s := s0) hx ?_ (fun _ => ?_) | (refine Keeps.isFaults x ?_; subst hx) | skip)
    | apply State.transmit_keeps | apply KeepsR.next | exact KeepsR.fault | exact KeepsR.refused | apply KeepsR.onUnit | apply KeepsR.ite
    | apply Keeps.ite | apply Keeps.foldl | (simp only [Keeps.mk_iff]; apply Keeps.parts) | split | dsimp only

theorem State.onMsg_keeps {s0 : State} {s : State} (k : Nat) (t : Nat) (f : State → Nat → FabMsg → State) (hs : Keeps s0 s) (hf : ∀ y0 y1 y2, Keeps s0 y0 → Keeps s0 (f y0 y1 y2)) :
    KeepsR s0 (State.onMsg s k t f) := by
  unfold State.onMsg
  repeat' with_reducible first
    | assumption | intro _ | apply State.takeMsg_keeps | apply hf | apply KeepsR.next | exact KeepsR.fault | exact KeepsR.refused | apply KeepsR.onUnit
    | apply KeepsR.ite | apply Keeps.ite | apply Keeps.foldl | (simp only [Keeps.mk_iff]; apply Keeps.parts) | refine Keeps.optEq3 (by assumption) ?_
    | split | dsimp only

theorem State.keyViolation_keeps {s0 : State} {s : State} (n : Nat) (hs : Keeps s0 s) :
    Keeps s0 (State.keyViolation s n) := by
  unfold State.keyViolation
  repeat' with_reducible first
    | assumption | intro _
    | (extract_lets +onlyGivenNames x; clear_value (hx : x = _); first | refine Keeps.bind (s := s0) hx ?_ (fun _ => ?_) | (refine Keeps.isFaults x ?_; subst hx) | skip)
    | apply State.setLink_keeps | apply State.quarantine_keeps | apply State.count_keeps | apply Keeps.ite | apply Keeps.foldl
    | (simp only [Keeps.mk_iff]; apply Keeps.parts) | split | dsimp only

theorem State.linkBook_keeps {s0 : State} {s : State} (n : Nat) (ca : Nat) (hs : Keeps s0 s) :
    Keeps s0 (State.linkBook s n ca) := by
  unfold State.linkBook
  repeat' with_reducible first
    | assumption | intro _
    | (extract_lets +onlyGivenNames x; clear_value (hx : x = _); first | refine Keeps.bind (s := s0) hx ?_ (fun _ => ?_) | (refine Keeps.isFaults x ?_; subst hx) | skip)
    | apply State.askSys_keeps | apply State.release_keeps | apply Keeps.ite | apply Keeps.foldl | (simp only [Keeps.mk_iff]; apply Keeps.parts) | split
    | dsimp only

theorem State.deliver_keeps {s0 : State} {s : State} (n : Nat) (cls : Nat) (m : FabMsg) (hs : Keeps s0 s) :
    Keeps s0 (State.deliver s n cls m) := by
  unfold State.deliver
  repeat' with_reducible first
    | assumption | intro _
    | (extract_lets +onlyGivenNames x; clear_value (hx : x = _); first | refine Keeps.bind (s := s0) hx ?_ (fun _ => ?_) | (refine Keeps.isFaults x ?_; subst hx) | skip)
    | apply State.keyViolation_keeps | apply State.count_keeps | apply Keeps.ite | apply Keeps.foldl | (simp only [Keeps.mk_iff]; apply Keeps.parts)
    | split | dsimp only

end Sys2Proof.Machine
end

