-- ==== Sys2Proof/Laws/KeepsLinks.lean ====
section
/-!
SUPPORT. The operations of Machine/Links.lean leave the queue alone and keep the invariant (Laws/Keeps.lean).
-/

set_option linter.all false

namespace Sys2Proof.Machine

theorem execLinkNoisyClear_keeps {s0 : State} (n : Nat) {s : State} (hs : Keeps s0 s) :
    KeepsR s0 (execLinkNoisyClear n s) := by
  unfold execLinkNoisyClear
  repeat' with_reducible first
    | assumption | intro _ | apply State.setFld_keeps | apply onUnit_keeps | apply KeepsR.next | exact KeepsR.fault | exact KeepsR.refused
    | apply KeepsR.onUnit | apply KeepsR.ite | apply Keeps.ite | apply Keeps.foldl | (simp only [Keeps.mk_iff]; apply Keeps.parts) | split | dsimp only

theorem State.releaseLink_keeps {s0 : State} {s : State} (n : Nat) (hs : Keeps s0 s) :
    Keeps s0 (State.releaseLink s n) := by
  unfold State.releaseLink
  repeat' with_reducible first
    | assumption | intro _
    | (extract_lets +onlyGivenNames x; clear_value (hx : x = _); first | refine Keeps.bind (s := s0) hx ?_ (fun _ => ?_) | (refine Keeps.isFaults x ?_; subst hx) | skip)
    | apply State.setFld_keeps | apply State.linkBook_keeps | apply State.linkTo_keeps | apply Keeps.ite | apply Keeps.foldl
    | (simp only [Keeps.mk_iff]; apply Keeps.parts) | split | dsimp only

theorem State.sendLinkpar_keeps {s0 : State} {s : State} (n : Nat) (hs : Keeps s0 s) :
    Keeps s0 (State.sendLinkpar s n) := by
  unfold State.sendLinkpar
  repeat' with_reducible first
    | assumption | intro _
    | (extract_lets +onlyGivenNames x; clear_value (hx : x = _); first | refine Keeps.bind (s := s0) hx ?_ (fun _ => ?_) | (refine Keeps.isFaults x ?_; subst hx) | skip)
    | apply State.sendLocal_keeps | apply Keeps.ite | apply Keeps.foldl | (simp only [Keeps.mk_iff]; apply Keeps.parts) | split | dsimp only

theorem State.sendSpdm_keeps {s0 : State} {s : State} (n : Nat) (k : Nat) (hs : Keeps s0 s) :
    Keeps s0 (State.sendSpdm s n k) := by
  unfold State.sendSpdm
  repeat' with_reducible first
    | assumption | intro _ | apply State.modLink_keeps | apply State.sendLocal_keeps | apply Keeps.ite | apply Keeps.foldl | (simp only [Keeps.mk_iff]; apply Keeps.parts) | split
    | dsimp only

theorem execSpdmResponseTimeout_keeps {s0 : State} (n : Nat) {s : State} (hs : Keeps s0 s) :
    KeepsR s0 (execSpdmResponseTimeout n s) := by
  unfold execSpdmResponseTimeout
  repeat' with_reducible first
    | assumption | intro _
    | (extract_lets +onlyGivenNames x; clear_value (hx : x = _); first | refine Keeps.bind (s := s0) hx ?_ (fun _ => ?_) | (refine Keeps.isFaults x ?_; subst hx) | skip)
    | apply State.sendLinkpar_keeps | apply State.sendSpdm_keeps | apply onUnit_keeps | apply State.setLink_keeps | apply State.quarantine_keeps
    | apply KeepsR.next | exact KeepsR.fault | exact KeepsR.refused | apply KeepsR.onUnit | apply KeepsR.ite | apply Keeps.ite | apply Keeps.foldl
    | (simp only [Keeps.mk_iff]; apply Keeps.parts) | split | dsimp only

theorem State.linkAbsent_keeps {s0 : State} {s : State} (n : Nat) (hs : Keeps s0 s) :
    Keeps s0 (State.linkAbsent s n) := by
  unfold State.linkAbsent
  repeat' with_reducible first
    | assumption | intro _
    | (extract_lets +onlyGivenNames x; clear_value (hx : x = _); first | refine Keeps.bind (s := s0) hx ?_ (fun _ => ?_) | (refine Keeps.isFaults x ?_; subst hx) | skip)
    | apply State.dropTraffic_keeps | apply State.setFld_keeps | apply State.linkBook_keeps | apply State.linkTo_keeps | apply State.release_keeps
    | apply Keeps.ite | apply Keeps.foldl | (simp only [Keeps.mk_iff]; apply Keeps.parts) | split | dsimp only

theorem execSignalLossTimeout_keeps {s0 : State} (n : Nat) {s : State} (hs : Keeps s0 s) :
    KeepsR s0 (execSignalLossTimeout n s) := by
  unfold execSignalLossTimeout
  repeat' with_reducible first
    | assumption | intro _ | apply State.linkAbsent_keeps | apply onUnit_keeps | apply KeepsR.next | exact KeepsR.fault | exact KeepsR.refused
    | apply KeepsR.onUnit | apply KeepsR.ite | apply Keeps.ite | apply Keeps.foldl | (simp only [Keeps.mk_iff]; apply Keeps.parts) | split | dsimp only

theorem State.retrain_keeps {s0 : State} {s : State} (n : Nat) (all : Bool) (request : Bool) (hs : Keeps s0 s) :
    Keeps s0 (State.retrain s n all request) := by
  unfold State.retrain
  repeat' with_reducible first
    | assumption | intro _
    | (extract_lets +onlyGivenNames x; clear_value (hx : x = _); first | refine Keeps.bind (s := s0) hx ?_ (fun _ => ?_) | (refine Keeps.isFaults x ?_; subst hx) | skip)
    | apply State.modLink_keeps | apply State.setFld_keeps | apply State.askSys_keeps | apply State.count_keeps | apply Keeps.ite | apply Keeps.foldl
    | (simp only [Keeps.mk_iff]; apply Keeps.parts) | split | dsimp only

theorem execRetrain_keeps {s0 : State} (n : Nat) {s : State} (hs : Keeps s0 s) :
    KeepsR s0 (execRetrain n s) := by
  unfold execRetrain
  repeat' with_reducible first
    | assumption | intro _ | apply onUnit_keeps | apply State.retrain_keeps | apply KeepsR.next | exact KeepsR.fault | exact KeepsR.refused
    | apply KeepsR.onUnit | apply KeepsR.ite | apply Keeps.ite | apply Keeps.foldl | (simp only [Keeps.mk_iff]; apply Keeps.parts) | split | dsimp only

theorem State.freshLink_keeps {s0 : State} {s : State} (n : Nat) (hs : Keeps s0 s) :
    Keeps s0 (State.freshLink s n) := by
  unfold State.freshLink
  repeat' with_reducible first
    | assumption | intro _ | apply State.modLink_keeps | apply Keeps.ite | apply Keeps.foldl | (simp only [Keeps.mk_iff]; apply Keeps.parts) | split
    | dsimp only

theorem State.startTraining_keeps {s0 : State} {s : State} (n : Nat) (hs : Keeps s0 s) :
    Keeps s0 (State.startTraining s n) := by
  unfold State.startTraining
  repeat' with_reducible first
    | assumption | intro _
    | (extract_lets +onlyGivenNames x; clear_value (hx : x = _); first | refine Keeps.bind (s := s0) hx ?_ (fun _ => ?_) | (refine Keeps.isFaults x ?_; subst hx) | skip)
    | apply State.linkBook_keeps | apply State.linkTo_keeps | apply Keeps.ite | apply Keeps.foldl | (simp only [Keeps.mk_iff]; apply Keeps.parts) | split
    | dsimp only

theorem State.setLanes_keeps {s0 : State} {s : State} (n : Nat) (tried : Nat) (mask : Nat) (w : Nat) (hs : Keeps s0 s) :
    Keeps s0 (State.setLanes s n tried mask w) := by
  unfold State.setLanes
  repeat' with_reducible first
    | assumption | intro _
    | (extract_lets +onlyGivenNames x; clear_value (hx : x = _); first | refine Keeps.bind (s := s0) hx ?_ (fun _ => ?_) | (refine Keeps.isFaults x ?_; subst hx) | skip)
    | apply State.setFld_keeps | apply Keeps.ite | apply Keeps.foldl | (simp only [Keeps.mk_iff]; apply Keeps.parts) | split | dsimp only

theorem State.retrainComplete_keeps {s0 : State} {s : State} (n : Nat) (lanes : Nat) (hs : Keeps s0 s) :
    Keeps s0 (State.retrainComplete s n lanes) := by
  unfold State.retrainComplete
  repeat' with_reducible first
    | assumption | intro _
    | (extract_lets +onlyGivenNames x; clear_value (hx : x = _); first | refine Keeps.bind (s := s0) hx ?_ (fun _ => ?_) | (refine Keeps.isFaults x ?_; subst hx) | skip)
    | apply State.modLink_keeps | apply State.setLanes_keeps | apply State.linkAbsent_keeps | apply State.setFld_keeps | apply State.linkTo_keeps
    | apply State.release_keeps | apply Keeps.ite | apply Keeps.foldl | (simp only [Keeps.mk_iff]; apply Keeps.parts) | split | dsimp only

theorem State.parseStream_keeps {s0 : State} {s : State} (n : Nat) (p : Nat) (x4 : Nat) (x5 : List Byte) (hs : Keeps s0 s) :
    Keeps s0 (State.parseStream s n p x4 x5) := by
  induction x4 generalizing s n p x5 with
  | zero =>
    unfold State.parseStream
    repeat' with_reducible first
      | assumption | intro _ | apply State.modLink_keeps | apply State.malformed_keeps | apply State.deliver_keeps | apply Keeps.ite
      | apply Keeps.foldl | (simp only [Keeps.mk_iff]; apply Keeps.parts) | split | dsimp only
  | succ m ih =>
    unfold State.parseStream
    repeat' with_reducible first
      | assumption | intro _ | apply State.modLink_keeps | apply State.malformed_keeps | apply State.deliver_keeps | apply ih | apply Keeps.ite
      | apply Keeps.foldl | (simp only [Keeps.mk_iff]; apply Keeps.parts) | split | dsimp only

theorem State.takeData_keeps {s0 : State} {s : State} (n : Nat) (h : Nat) (payload : List Byte) (hs : Keeps s0 s) :
    Keeps s0 (State.takeData s n h payload) := by
  unfold State.takeData
  repeat' with_reducible first
    | assumption | intro _
    | (extract_lets +onlyGivenNames x; clear_value (hx : x = _); first | refine Keeps.bind (s := s0) hx ?_ (fun _ => ?_) | (refine Keeps.isFaults x ?_; subst hx) | skip)
    | apply State.parseStream_keeps | apply State.setLink_keeps | apply State.count_keeps | apply Keeps.ite | apply Keeps.foldl
    | (simp only [Keeps.mk_iff]; apply Keeps.parts) | split | dsimp only

theorem State.takeFlit_keeps {s0 : State} {s : State} (n : Nat) (h : Nat) (payload : List Byte) (hs : Keeps s0 s) :
    Keeps s0 (State.takeFlit s n h payload) := by
  unfold State.takeFlit
  repeat' with_reducible first
    | assumption | intro _
    | (extract_lets +onlyGivenNames x; clear_value (hx : x = _); first | refine Keeps.bind (s := s0) hx ?_ (fun _ => ?_) | (refine Keeps.isFaults x ?_; subst hx) | skip)
    | apply State.setFld_keeps | apply State.takeData_keeps | apply State.setLink_keeps | apply State.quarantine_keeps | apply State.retrain_keeps
    | apply Keeps.ite | apply Keeps.foldl | (simp only [Keeps.mk_iff]; apply Keeps.parts) | split | dsimp only

theorem State.sendFlit_keeps {s0 : State} {s : State} (n : Nat) (typ : Nat) (vc : Nat) (cls : Nat) (replay : Nat) (seq : Nat) (paylen : Nat) (payload : List Byte) (hs : Keeps s0 s) :
    Keeps s0 (State.sendFlit s n typ vc cls replay seq paylen payload) := by
  unfold State.sendFlit
  repeat' with_reducible first
    | assumption | intro _
    | (extract_lets +onlyGivenNames x; clear_value (hx : x = _); first | refine Keeps.bind (s := s0) hx ?_ (fun _ => ?_) | (refine Keeps.isFaults x ?_; subst hx) | skip)
    | apply State.setLink_keeps | apply State.send_keeps | apply Keeps.ite | apply Keeps.foldl | (simp only [Keeps.mk_iff]; apply Keeps.parts) | split
    | dsimp only

theorem State.sendData_keeps {s0 : State} {s : State} (n : Nat) (p : Nat) (o : Sorter) (hs : Keeps s0 s) :
    Keeps s0 (State.sendData s n p o) := by
  unfold State.sendData
  repeat' with_reducible first
    | assumption | intro _
    | (extract_lets +onlyGivenNames x; clear_value (hx : x = _); first | refine Keeps.bind (s := s0) hx ?_ (fun _ => ?_) | (refine Keeps.isFaults x ?_; subst hx) | skip)
    | apply State.sendFlit_keeps | apply State.setLink_keeps | apply State.count_keeps | apply Keeps.ite | apply Keeps.foldl
    | (simp only [Keeps.mk_iff]; apply Keeps.parts) | split | dsimp only

theorem State.sendReplay_keeps {s0 : State} {s : State} (n : Nat) (k : Nat) (hs : Keeps s0 s) :
    Keeps s0 (State.sendReplay s n k) := by
  unfold State.sendReplay
  repeat' with_reducible first
    | assumption | intro _
    | (extract_lets +onlyGivenNames x; clear_value (hx : x = _); first | refine Keeps.bind (s := s0) hx ?_ (fun _ => ?_) | (refine Keeps.isFaults x ?_; subst hx) | skip)
    | apply State.sendFlit_keeps | apply State.setLink_keeps | apply State.count_keeps | apply Keeps.ite | apply Keeps.foldl
    | (simp only [Keeps.mk_iff]; apply Keeps.parts) | split | dsimp only

theorem State.flitTransmit_keeps {s0 : State} {s : State} (n : Nat) (hs : Keeps s0 s) :
    Keeps s0 (State.flitTransmit s n) := by
  unfold State.flitTransmit
  repeat' with_reducible first
    | assumption | intro _
    | (extract_lets +onlyGivenNames x; clear_value (hx : x = _); first | refine Keeps.bind (s := s0) hx ?_ (fun _ => ?_) | (refine Keeps.isFaults x ?_; subst hx) | skip)
    | apply State.sendData_keeps | apply State.sendFlit_keeps | apply State.sendReplay_keeps | apply State.setLink_keeps | apply Keeps.ite
    | apply Keeps.foldl | (simp only [Keeps.mk_iff]; apply Keeps.parts) | split | dsimp only

theorem execFlitTransmit_keeps {s0 : State} (n : Nat) {s : State} (hs : Keeps s0 s) :
    KeepsR s0 (execFlitTransmit n s) := by
  unfold execFlitTransmit
  repeat' with_reducible first
    | assumption | intro _ | apply onUnit_keeps | apply State.flitTransmit_keeps | apply KeepsR.next | exact KeepsR.fault | exact KeepsR.refused
    | apply KeepsR.onUnit | apply KeepsR.ite | apply Keeps.ite | apply Keeps.foldl | (simp only [Keeps.mk_iff]; apply Keeps.parts) | split | dsimp only

theorem State.countSymbols_keeps {s0 : State} {s : State} (n : Nat) (syms : List Nat) (hs : Keeps s0 s) :
    Keeps s0 (State.countSymbols s n syms) := by
  unfold State.countSymbols
  repeat' with_reducible first
    | assumption | intro _ | apply State.count_keeps | apply Keeps.ite | apply Keeps.foldl | (simp only [Keeps.mk_iff]; apply Keeps.parts) | split
    | dsimp only

theorem execRelease_keeps {s0 : State} (n : Nat) {s : State} (hs : Keeps s0 s) :
    KeepsR s0 (execRelease n s) := by
  unfold execRelease
  repeat' with_reducible first
    | assumption | intro _ | apply State.releaseLink_keeps | apply onUnit_keeps | apply KeepsR.next | exact KeepsR.fault | exact KeepsR.refused
    | apply KeepsR.onUnit | apply KeepsR.ite | apply Keeps.ite | apply Keeps.foldl | (simp only [Keeps.mk_iff]; apply Keeps.parts) | split | dsimp only

theorem State.authAbandon_keeps {s0 : State} {s : State} (hs : Keeps s0 s) :
    Keeps s0 (State.authAbandon s) := by
  unfold State.authAbandon
  repeat' with_reducible first
    | assumption | intro _ | apply State.modLink_keeps | apply Keeps.ite | apply Keeps.foldl | (simp only [Keeps.mk_iff]; apply Keeps.parts) | split | dsimp only

theorem State.authAgain_keeps {s0 : State} {s : State} (hs : Keeps s0 s) :
    Keeps s0 (State.authAgain s) := by
  unfold State.authAgain
  repeat' with_reducible first
    | assumption | intro _ | apply State.sendSpdm_keeps | apply State.modLink_keeps | apply Keeps.ite | apply Keeps.foldl
    | (simp only [Keeps.mk_iff]; apply Keeps.parts) | split | dsimp only

theorem execAuthTimeout_keeps {s0 : State} (n : Nat) {s : State} (hs : Keeps s0 s) :
    KeepsR s0 (execAuthTimeout n s) := by
  unfold execAuthTimeout
  repeat' with_reducible first
    | assumption | intro _ | apply onUnit_keeps | apply State.quarantine_keeps | apply KeepsR.next | exact KeepsR.fault | exact KeepsR.refused
    | apply KeepsR.onUnit | apply KeepsR.ite | apply Keeps.ite | apply Keeps.foldl | (simp only [Keeps.mk_iff]; apply Keeps.parts) | split | dsimp only

theorem State.spdmReceive_keeps {s0 : State} {s : State} (n : Nat) (verdict : Nat) (hs : Keeps s0 s) :
    Keeps s0 (State.spdmReceive s n verdict) := by
  unfold State.spdmReceive
  repeat' with_reducible first
    | assumption | intro _
    | (extract_lets +onlyGivenNames x; clear_value (hx : x = _); first | refine Keeps.bind (s := s0) hx ?_ (fun _ => ?_) | (refine Keeps.isFaults x ?_; subst hx) | skip)
    | apply State.sendLinkpar_keeps | apply State.sendSpdm_keeps | apply State.setLink_keeps | apply State.quarantine_keeps | apply Keeps.ite
    | apply Keeps.foldl | (simp only [Keeps.mk_iff]; apply Keeps.parts) | split | dsimp only

theorem execSpdm_keeps {s0 : State} (n : Nat) (verdict : Nat) {s : State} (hs : Keeps s0 s) :
    KeepsR s0 (execSpdm n verdict s) := by
  unfold execSpdm
  repeat' with_reducible first
    | assumption | intro _ | apply State.spdmReceive_keeps | apply onUnit_keeps | apply KeepsR.next | exact KeepsR.fault | exact KeepsR.refused
    | apply KeepsR.onUnit | apply KeepsR.ite | apply Keeps.ite | apply Keeps.foldl | (simp only [Keeps.mk_iff]; apply Keeps.parts) | split | dsimp only

theorem execLaneFailure_keeps {s0 : State} (n : Nat) (lane : Nat) {s : State} (hs : Keeps s0 s) :
    KeepsR s0 (execLaneFailure n lane s) := by
  unfold execLaneFailure
  repeat' with_reducible first
    | assumption | intro _ | apply State.setFld_keeps | apply onUnit_keeps | apply State.retrain_keeps | apply KeepsR.next | exact KeepsR.fault
    | exact KeepsR.refused | apply KeepsR.onUnit | apply KeepsR.ite | apply Keeps.ite | apply Keeps.foldl | (simp only [Keeps.mk_iff]; apply Keeps.parts)
    | split | dsimp only

theorem execNakRepeat_keeps {s0 : State} (n : Nat) {s : State} (hs : Keeps s0 s) :
    KeepsR s0 (execNakRepeat n s) := by
  unfold execNakRepeat
  repeat' with_reducible first
    | assumption | intro _ | apply State.modLink_keeps | apply onUnit_keeps | apply KeepsR.next | exact KeepsR.fault | exact KeepsR.refused
    | apply KeepsR.onUnit | apply KeepsR.ite | apply Keeps.ite | apply Keeps.foldl | (simp only [Keeps.mk_iff]; apply Keeps.parts) | split | dsimp only

theorem execRetrainComplete_keeps {s0 : State} (n : Nat) (lanes : Nat) {s : State} (hs : Keeps s0 s) :
    KeepsR s0 (execRetrainComplete n lanes s) := by
  unfold execRetrainComplete
  repeat' with_reducible first
    | assumption | intro _ | apply State.retrainComplete_keeps | apply onUnit_keeps | apply KeepsR.next | exact KeepsR.fault | exact KeepsR.refused
    | apply KeepsR.onUnit | apply KeepsR.ite | apply Keeps.ite | apply Keeps.foldl | (simp only [Keeps.mk_iff]; apply Keeps.parts) | split | dsimp only

theorem State.flitReceive_keeps {s0 : State} {s : State} (n : Nat) (flit : List Byte) (corr : Nat) (unc : Nat) (syms : List Nat) (hs : Keeps s0 s) :
    Keeps s0 (State.flitReceive s n flit corr unc syms) := by
  unfold State.flitReceive
  repeat' with_reducible first
    | assumption | intro _
    | (extract_lets +onlyGivenNames x; clear_value (hx : x = _); first | refine Keeps.bind (s := s0) hx ?_ (fun _ => ?_) | (refine Keeps.isFaults x ?_; subst hx) | skip)
    | apply State.modLink_keeps | apply State.countSymbols_keeps | apply State.malformed_keeps | apply State.count_keeps | apply State.takeFlit_keeps
    | apply Keeps.ite | apply Keeps.foldl | (simp only [Keeps.mk_iff]; apply Keeps.parts) | split | dsimp only

theorem execFlitReceive_keeps {s0 : State} (n : Nat) (flit : List Byte) (corr : Nat) (unc : Nat) (syms : List Nat) {s : State} (hs : Keeps s0 s) :
    KeepsR s0 (execFlitReceive n flit corr unc syms s) := by
  unfold execFlitReceive
  repeat' with_reducible first
    | assumption | intro _ | apply State.flitReceive_keeps | apply onUnit_keeps | apply KeepsR.next | exact KeepsR.fault | exact KeepsR.refused
    | apply KeepsR.onUnit | apply KeepsR.ite | apply Keeps.ite | apply Keeps.foldl | (simp only [Keeps.mk_iff]; apply Keeps.parts) | split | dsimp only

theorem execTrainingRetry_keeps {s0 : State} (n : Nat) {s : State} (hs : Keeps s0 s) :
    KeepsR s0 (execTrainingRetry n s) := by
  unfold execTrainingRetry
  repeat' with_reducible first
    | assumption | intro _ | apply State.modLink_keeps | apply State.startTraining_keeps | apply onUnit_keeps | apply KeepsR.next | exact KeepsR.fault
    | exact KeepsR.refused | apply KeepsR.onUnit | apply KeepsR.ite | apply Keeps.ite | apply Keeps.foldl | (simp only [Keeps.mk_iff]; apply Keeps.parts)
    | split | dsimp only

theorem execNakReceive_keeps {s0 : State} (n : Nat) {s : State} (hs : Keeps s0 s) :
    KeepsR s0 (execNakReceive n s) := by
  unfold execNakReceive
  repeat' with_reducible first
    | assumption | intro _ | apply State.modLink_keeps | apply onUnit_keeps | apply State.count_keeps | apply KeepsR.next | exact KeepsR.fault
    | exact KeepsR.refused | apply KeepsR.onUnit | apply KeepsR.ite | apply Keeps.ite | apply Keeps.foldl | (simp only [Keeps.mk_iff]; apply Keeps.parts)
    | split | dsimp only

theorem State.linkpar_keeps {s0 : State} {s : State} (n : Nat) (p : LinkPar) (hs : Keeps s0 s) :
    Keeps s0 (State.linkpar s n p) := by
  unfold State.linkpar
  repeat' with_reducible first
    | assumption | intro _
    | (extract_lets +onlyGivenNames x; clear_value (hx : x = _); first | refine Keeps.bind (s := s0) hx ?_ (fun _ => ?_) | (refine Keeps.isFaults x ?_; subst hx) | skip)
    | apply State.modLink_keeps | apply State.setFld_keeps | apply State.linkTo_keeps | apply State.quarantine_keeps | apply Keeps.ite | apply Keeps.foldl
    | (simp only [Keeps.mk_iff]; apply Keeps.parts) | split | dsimp only

theorem execLinkpar_keeps {s0 : State} (n : Nat) (p : LinkPar) {s : State} (hs : Keeps s0 s) :
    KeepsR s0 (execLinkpar n p s) := by
  unfold execLinkpar
  repeat' with_reducible first
    | assumption | intro _ | apply onUnit_keeps | apply State.linkpar_keeps | apply KeepsR.next | exact KeepsR.fault | exact KeepsR.refused
    | apply KeepsR.onUnit | apply KeepsR.ite | apply Keeps.ite | apply Keeps.foldl | (simp only [Keeps.mk_iff]; apply Keeps.parts) | split | dsimp only

theorem execLinkSignalDetect_keeps {s0 : State} (n : Nat) {s : State} (hs : Keeps s0 s) :
    KeepsR s0 (execLinkSignalDetect n s) := by
  unfold execLinkSignalDetect
  repeat' with_reducible first
    | assumption | intro _ | apply State.startTraining_keeps | apply onUnit_keeps | apply State.count_keeps | apply KeepsR.next | exact KeepsR.fault
    | exact KeepsR.refused | apply KeepsR.onUnit | apply KeepsR.ite | apply Keeps.ite | apply Keeps.foldl | (simp only [Keeps.mk_iff]; apply Keeps.parts)
    | split | dsimp only

theorem State.trainingComplete_keeps {s0 : State} {s : State} (n : Nat) (lanes : Nat) (hs : Keeps s0 s) :
    Keeps s0 (State.trainingComplete s n lanes) := by
  unfold State.trainingComplete
  repeat' with_reducible first
    | assumption | intro _
    | (extract_lets +onlyGivenNames x; clear_value (hx : x = _); first | refine Keeps.bind (s := s0) hx ?_ (fun _ => ?_) | (refine Keeps.isFaults x ?_; subst hx) | skip)
    | apply State.setLanes_keeps | apply State.freshLink_keeps | apply State.sendSpdm_keeps | apply State.linkBook_keeps | apply State.linkTo_keeps
    | apply Keeps.ite | apply Keeps.foldl | (simp only [Keeps.mk_iff]; apply Keeps.parts) | split | dsimp only

theorem execTrainingComplete_keeps {s0 : State} (n : Nat) (lanes : Nat) {s : State} (hs : Keeps s0 s) :
    KeepsR s0 (execTrainingComplete n lanes s) := by
  unfold execTrainingComplete
  repeat' with_reducible first
    | assumption | intro _ | apply onUnit_keeps | apply State.trainingComplete_keeps | apply KeepsR.next | exact KeepsR.fault | exact KeepsR.refused
    | apply KeepsR.onUnit | apply KeepsR.ite | apply Keeps.ite | apply Keeps.foldl | (simp only [Keeps.mk_iff]; apply Keeps.parts) | split | dsimp only

theorem execLinkNoisy_keeps {s0 : State} (n : Nat) {s : State} (hs : Keeps s0 s) :
    KeepsR s0 (execLinkNoisy n s) := by
  unfold execLinkNoisy
  repeat' with_reducible first
    | assumption | intro _ | apply State.setFld_keeps | apply onUnit_keeps | apply State.event_keeps | apply KeepsR.next | exact KeepsR.fault
    | exact KeepsR.refused | apply KeepsR.onUnit | apply KeepsR.ite | apply Keeps.ite | apply Keeps.foldl | (simp only [Keeps.mk_iff]; apply Keeps.parts)
    | split | dsimp only

theorem execMgtStallQuarantine_keeps {s0 : State} (n : Nat) {s : State} (hs : Keeps s0 s) :
    KeepsR s0 (execMgtStallQuarantine n s) := by
  unfold execMgtStallQuarantine
  repeat' with_reducible first
    | assumption | intro _
    | (extract_lets +onlyGivenNames x; clear_value (hx : x = _); first | refine Keeps.bind (s := s0) hx ?_ (fun _ => ?_) | (refine Keeps.isFaults x ?_; subst hx) | skip)
    | apply onUnit_keeps | apply State.quarantine_keeps | apply KeepsR.next | exact KeepsR.fault | exact KeepsR.refused | apply KeepsR.onUnit
    | apply KeepsR.ite | apply Keeps.ite | apply Keeps.foldl | (simp only [Keeps.mk_iff]; apply Keeps.parts) | split | dsimp only

theorem State.linkBeat_keeps {s0 : State} {s : State} (n : Nat) (hs : Keeps s0 s) :
    Keeps s0 (State.linkBeat s n) := by
  unfold State.linkBeat
  repeat' with_reducible first
    | assumption | intro _
    | (extract_lets +onlyGivenNames x; clear_value (hx : x = _); first | refine Keeps.bind (s := s0) hx ?_ (fun _ => ?_) | (refine Keeps.isFaults x ?_; subst hx) | skip)
    | apply State.setLink_keeps | apply State.count_keeps | apply Keeps.ite | apply Keeps.foldl | (simp only [Keeps.mk_iff]; apply Keeps.parts) | split
    | dsimp only

theorem execTrainingTimeout_keeps {s0 : State} (n : Nat) {s : State} (hs : Keeps s0 s) :
    KeepsR s0 (execTrainingTimeout n s) := by
  unfold execTrainingTimeout
  repeat' with_reducible first
    | assumption | intro _ | apply State.modLink_keeps | apply State.setLanes_keeps | apply State.linkBook_keeps | apply onUnit_keeps
    | apply State.linkTo_keeps | apply KeepsR.next | exact KeepsR.fault | exact KeepsR.refused | apply KeepsR.onUnit | apply KeepsR.ite | apply Keeps.ite
    | apply Keeps.foldl | (simp only [Keeps.mk_iff]; apply Keeps.parts) | split | dsimp only

theorem State.disableLink_keeps {s0 : State} {s : State} (n : Nat) (v : Nat) (hs : Keeps s0 s) :
    Keeps s0 (State.disableLink s n v) := by
  unfold State.disableLink
  repeat' with_reducible first
    | assumption | intro _
    | (extract_lets +onlyGivenNames x; clear_value (hx : x = _); first | refine Keeps.bind (s := s0) hx ?_ (fun _ => ?_) | (refine Keeps.isFaults x ?_; subst hx) | skip)
    | apply State.linkAbsent_keeps | apply State.setFld_keeps | apply State.linkBook_keeps | apply State.release_keeps | apply Keeps.ite
    | apply Keeps.foldl | (simp only [Keeps.mk_iff]; apply Keeps.parts) | split | dsimp only

theorem execDisable_keeps {s0 : State} (n : Nat) (v : Nat) {s : State} (hs : Keeps s0 s) :
    KeepsR s0 (execDisable n v s) := by
  unfold execDisable
  repeat' with_reducible first
    | assumption | intro _ | apply State.disableLink_keeps | apply onUnit_keeps | apply KeepsR.next | exact KeepsR.fault | exact KeepsR.refused
    | apply KeepsR.onUnit | apply KeepsR.ite | apply Keeps.ite | apply Keeps.foldl | (simp only [Keeps.mk_iff]; apply Keeps.parts) | split | dsimp only

theorem execLinkStall_keeps {s0 : State} (n : Nat) {s : State} (hs : Keeps s0 s) :
    KeepsR s0 (execLinkStall n s) := by
  unfold execLinkStall
  repeat' with_reducible first
    | assumption | intro _ | apply State.modLink_keeps | apply State.setFld_keeps | apply onUnit_keeps | apply State.event_keeps | apply KeepsR.next
    | exact KeepsR.fault | exact KeepsR.refused | apply KeepsR.onUnit | apply KeepsR.ite | apply Keeps.ite | apply Keeps.foldl
    | (simp only [Keeps.mk_iff]; apply Keeps.parts) | split | dsimp only

end Sys2Proof.Machine
end

