-- ==== Sys2Proof/Laws/KeepsRemote.lean ====
section
/-!
SUPPORT. The operations of Machine/Remote.lean leave the queue alone and keep the invariant (Laws/Keeps.lean).
-/

set_option linter.all false

namespace Sys2Proof.Machine

theorem State.addRequest_keeps {s0 : State} {s : State} (host : Bool) (kind : RemKind) (q : Nat) (i : Nat) (addr : Nat) (hs : Keeps s0 s) :
    Keeps s0 (State.addRequest s host kind q i addr) := by
  unfold State.addRequest
  repeat' with_reducible first
    | assumption | intro _
    | (extract_lets +onlyGivenNames x; clear_value (hx : x = _); first | refine Keeps.bind (s := s0) hx ?_ (fun _ => ?_) | (refine Keeps.isFaults x ?_; subst hx) | skip)
    | apply Keeps.ite | apply Keeps.foldl | (simp only [Keeps.mk_iff]; apply Keeps.parts) | split | dsimp only

theorem State.request_keeps {s0 : State} {s : State} (f : Nat) (q : Nat) (i : Nat) (addr : Nat) (mtype : Nat) (flags : Nat) (aux : Nat) (sealW : Nat) (data : List Byte) (kind : RemKind) (hs : Keeps s0 s) :
    Keeps s0 (State.request s f q i addr mtype flags aux sealW data kind) := by
  unfold State.request
  repeat' with_reducible first
    | assumption | intro _ | apply State.addRequest_keeps | apply State.sendMsg_keeps | apply Keeps.ite | apply Keeps.foldl
    | (simp only [Keeps.mk_iff]; apply Keeps.parts) | split | dsimp only

theorem State.sendOn_keeps {s0 : State} {s : State} (fl : Flight) (dst : Nat) (data : List Byte) (stored : Nat) (hs : Keeps s0 s) :
    Keeps s0 (State.sendOn s fl dst data stored) := by
  unfold State.sendOn
  repeat' with_reducible first
    | assumption | intro _
    | (extract_lets +onlyGivenNames x; clear_value (hx : x = _); first | refine Keeps.bind (s := s0) hx ?_ (fun _ => ?_) | (refine Keeps.isFaults x ?_; subst hx) | skip)
    | apply State.request_keeps | apply State.modFlight_keeps | apply State.send_keeps | apply Keeps.ite | apply Keeps.foldl
    | (simp only [Keeps.mk_iff]; apply Keeps.parts) | split | dsimp only

theorem State.writeFetched_keeps {s0 : State} {s : State} (fl : Flight) (dst : Nat) (data : List Byte) (hs : Keeps s0 s) :
    Keeps s0 (State.writeFetched s fl dst data) := by
  unfold State.writeFetched
  repeat' with_reducible first
    | assumption | intro _ | apply State.engWriteChunk_keeps | apply State.modFlight_keeps | apply Keeps.ite | apply Keeps.foldl
    | (simp only [Keeps.mk_iff]; apply Keeps.parts) | apply Keeps.iteFst | apply Keeps.iteSnd | refine Keeps.fstEq (by assumption) ?_ | split | dsimp only

theorem State.fetched_keeps {s0 : State} {s : State} (q : Nat) (i : Nat) (dst : Nat) (data : List Byte) (hs : Keeps s0 s) :
    Keeps s0 (State.fetched s q i dst data) := by
  unfold State.fetched
  repeat' with_reducible first
    | assumption | intro _ | apply State.sendOn_keeps | apply State.writeFetched_keeps | apply Keeps.ite | apply Keeps.foldl
    | (simp only [Keeps.mk_iff]; apply Keeps.parts) | split | dsimp only

theorem State.respond_keeps {s0 : State} {s : State} (m : FabMsg) (mtype : Nat) (flags : Nat) (status : Nat) (sealW : Nat) (data : List Byte) (hs : Keeps s0 s) :
    Keeps s0 (State.respond s m mtype flags status sealW data) := by
  unfold State.respond
  repeat' with_reducible first
    | assumption | intro _ | apply State.sendMsg_keeps | apply Keeps.ite | apply Keeps.foldl | (simp only [Keeps.mk_iff]; apply Keeps.parts) | split
    | dsimp only

theorem State.serveSig_keeps {s0 : State} {s : State} (m : FabMsg) (hs : Keeps s0 s) :
    Keeps s0 (State.serveSig s m) := by
  unfold State.serveSig
  repeat' with_reducible first
    | assumption | intro _
    | (extract_lets +onlyGivenNames x; clear_value (hx : x = _); first | refine Keeps.bind (s := s0) hx ?_ (fun _ => ?_) | (refine Keeps.isFaults x ?_; subst hx) | skip)
    | apply State.semOp_keeps | apply State.refreshHeads_keeps | apply State.respond_keeps | apply Keeps.ite | apply Keeps.foldl
    | (simp only [Keeps.mk_iff]; apply Keeps.parts) | split | dsimp only

theorem State.sendVoids_keeps {s0 : State} {s : State} (fl : Flight) (hs : Keeps s0 s) :
    Keeps s0 (State.sendVoids s fl) := by
  unfold State.sendVoids
  repeat' with_reducible first
    | assumption | intro _
    | (extract_lets +onlyGivenNames x; clear_value (hx : x = _); first | refine Keeps.bind (s := s0) hx ?_ (fun _ => ?_) | (refine Keeps.isFaults x ?_; subst hx) | skip)
    | apply State.request_keeps | apply State.modFlight_keeps | apply Keeps.ite | apply Keeps.foldl | (simp only [Keeps.mk_iff]; apply Keeps.parts)
    | split | dsimp only

theorem State.settleMove_keeps {s0 : State} {s : State} (q : Nat) (i : Nat) (hs : Keeps s0 s) :
    Keeps s0 (State.settleMove s q i) := by
  unfold State.settleMove
  repeat' with_reducible first
    | assumption | intro _
    | (extract_lets +onlyGivenNames x; clear_value (hx : x = _); first | refine Keeps.bind (s := s0) hx ?_ (fun _ => ?_) | (refine Keeps.isFaults x ?_; subst hx) | skip)
    | apply State.voidBlocks_keeps | apply State.modFlight_keeps | apply State.sendVoids_keeps | apply State.sealBlocks_keeps | apply Keeps.ite
    | apply Keeps.foldl | (simp only [Keeps.mk_iff]; apply Keeps.parts) | split | dsimp only

theorem State.answered_keeps {s0 : State} {s : State} (q : Nat) (i : Nat) (fail : Option (Nat × Nat × Bool)) (hs : Keeps s0 s) :
    Keeps s0 (State.answered s q i fail) := by
  unfold State.answered
  repeat' with_reducible first
    | assumption | intro _
    | (extract_lets +onlyGivenNames x; clear_value (hx : x = _); first | refine Keeps.bind (s := s0) hx ?_ (fun _ => ?_) | (refine Keeps.isFaults x ?_; subst hx) | skip)
    | apply State.settleMove_keeps | apply State.modFlight_keeps | apply Keeps.ite | apply Keeps.foldl | (simp only [Keeps.mk_iff]; apply Keeps.parts)
    | split | dsimp only

theorem State.serveRd_keeps {s0 : State} {s : State} (m : FabMsg) (hs : Keeps s0 s) :
    Keeps s0 (State.serveRd s m) := by
  unfold State.serveRd
  repeat' with_reducible first
    | assumption | intro _
    | (extract_lets +onlyGivenNames x; clear_value (hx : x = _); first | refine Keeps.bind (s := s0) hx ?_ (fun _ => ?_) | refine Keeps.bindFst (s := s0) hx ?_ (fun _ => ?_) | (refine Keeps.isFaults x ?_; subst hx) | skip)
    | apply State.traffic_keeps | apply State.respond_keeps | apply State.uncorrectable_keeps | apply Keeps.ite | apply Keeps.foldl
    | (simp only [Keeps.mk_iff]; apply Keeps.parts) | apply Keeps.iteFst | apply Keeps.iteSnd | refine Keeps.fstEq (by assumption) ?_ | split | dsimp only

theorem execSig_keeps {s0 : State} (k : Nat) {s : State} (hs : Keeps s0 s) :
    KeepsR s0 (execSig k s) := by
  unfold execSig
  repeat' with_reducible first
    | assumption | intro _ | apply State.serveSig_keeps | apply State.onMsg_keeps | apply KeepsR.next | exact KeepsR.fault | exact KeepsR.refused
    | apply KeepsR.onUnit | apply KeepsR.ite | apply Keeps.ite | apply Keeps.foldl | (simp only [Keeps.mk_iff]; apply Keeps.parts) | split | dsimp only

theorem State.dropRequest_keeps {s0 : State} {s : State} (host : Bool) (tag : Nat) (hs : Keeps s0 s) :
    Keeps s0 (State.dropRequest s host tag) := by
  unfold State.dropRequest
  repeat' with_reducible first
    | assumption | intro _
    | (extract_lets +onlyGivenNames x; clear_value (hx : x = _); first | refine Keeps.bind (s := s0) hx ?_ (fun _ => ?_) | (refine Keeps.isFaults x ?_; subst hx) | skip)
    | apply Keeps.ite | apply Keeps.foldl | (simp only [Keeps.mk_iff]; apply Keeps.parts) | split | dsimp only

theorem State.sealMiss_keeps {s0 : State} {s : State} (f : Nat) (q : Nat) (i : Nat) (a : Nat) (data : List Byte) (w : Nat) (hs : Keeps s0 s) :
    Keeps s0 (State.sealMiss s f q i a data w) := by
  unfold State.sealMiss
  repeat' with_reducible first
    | assumption | intro _ | apply State.record_keeps | apply State.count_keeps | apply Keeps.ite | apply Keeps.foldl
    | (simp only [Keeps.mk_iff]; apply Keeps.parts) | split | dsimp only

theorem State.serveWr_keeps {s0 : State} {s : State} (m : FabMsg) (hs : Keeps s0 s) :
    Keeps s0 (State.serveWr s m) := by
  unfold State.serveWr
  repeat' with_reducible first
    | assumption | intro _
    | (extract_lets +onlyGivenNames x; clear_value (hx : x = _); first | refine Keeps.bind (s := s0) hx ?_ (fun _ => ?_) | (refine Keeps.isFaults x ?_; subst hx) | (refine Keeps.isFun x ?_; subst hx) | skip)
    | apply State.purgeRange_keeps | apply State.traffic_keeps | apply State.plainWrite_keeps | apply State.respond_keeps | apply State.sealMiss_keeps
    | apply State.count_keeps | apply State.putBytes_keeps | apply State.setSyndrome_keeps | apply Keeps.ite | apply Keeps.foldl
    | (simp only [Keeps.mk_iff]; apply Keeps.parts) | split | dsimp only

theorem State.remoteSignal_keeps {s0 : State} {s : State} (fl : Flight) (node : Nat) (n : Nat) (op : Nat) (v : Nat) (hs : Keeps s0 s) :
    Keeps s0 (State.remoteSignal s fl node n op v) := by
  unfold State.remoteSignal
  repeat' with_reducible first
    | assumption | intro _
    | (extract_lets +onlyGivenNames x; clear_value (hx : x = _); first | refine Keeps.bind (s := s0) hx ?_ (fun _ => ?_) | (refine Keeps.isFaults x ?_; subst hx) | skip)
    | apply State.addRequest_keeps | apply State.endFlight_keeps | apply State.modFlight_keeps | apply State.sendMsg_keeps | apply Keeps.ite
    | apply Keeps.foldl | (simp only [Keeps.mk_iff]; apply Keeps.parts) | split | dsimp only

theorem State.readAnswer_keeps {s0 : State} {s : State} (r : RemoteReq) (dst : Nat) (len : Nat) (m : FabMsg) (hs : Keeps s0 s) :
    Keeps s0 (State.readAnswer s r dst len m) := by
  unfold State.readAnswer
  repeat' with_reducible first
    | assumption | intro _
    | (extract_lets +onlyGivenNames x; clear_value (hx : x = _); first | refine Keeps.bind (s := s0) hx ?_ (fun _ => ?_) | (refine Keeps.isFaults x ?_; subst hx) | skip)
    | apply State.dropRequest_keeps | apply State.fetched_keeps | apply State.answered_keeps | apply State.sealMiss_keeps | apply State.count_keeps
    | apply Keeps.ite | apply Keeps.foldl | (simp only [Keeps.mk_iff]; apply Keeps.parts) | split | dsimp only

theorem execWr_keeps {s0 : State} (k : Nat) {s : State} (hs : Keeps s0 s) :
    KeepsR s0 (execWr k s) := by
  unfold execWr
  repeat' with_reducible first
    | assumption | intro _ | apply State.serveWr_keeps | apply State.onMsg_keeps | apply KeepsR.next | exact KeepsR.fault | exact KeepsR.refused
    | apply KeepsR.onUnit | apply KeepsR.ite | apply Keeps.ite | apply Keeps.foldl | (simp only [Keeps.mk_iff]; apply Keeps.parts) | split | dsimp only

theorem State.lateResponse_keeps {s0 : State} {s : State} (n : Nat) (hs : Keeps s0 s) :
    Keeps s0 (State.lateResponse s n) := by
  unfold State.lateResponse
  repeat' with_reducible first
    | assumption | intro _ | apply State.count_keeps | apply Keeps.ite | apply Keeps.foldl | (simp only [Keeps.mk_iff]; apply Keeps.parts) | split
    | dsimp only

theorem State.sigAnswer_keeps {s0 : State} {s : State} (n : Nat) (m : FabMsg) (hs : Keeps s0 s) :
    Keeps s0 (State.sigAnswer s n m) := by
  unfold State.sigAnswer
  repeat' with_reducible first
    | assumption | intro _ | apply State.dropRequest_keeps | apply State.answered_keeps | apply State.lateResponse_keeps | apply Keeps.ite
    | apply Keeps.foldl | (simp only [Keeps.mk_iff]; apply Keeps.parts) | split | dsimp only

theorem execSigack_keeps {s0 : State} (k : Nat) {s : State} (hs : Keeps s0 s) :
    KeepsR s0 (execSigack k s) := by
  unfold execSigack
  repeat' with_reducible first
    | assumption | intro _ | apply State.onMsg_keeps | apply State.sigAnswer_keeps | apply KeepsR.next | exact KeepsR.fault | exact KeepsR.refused
    | apply KeepsR.onUnit | apply KeepsR.ite | apply Keeps.ite | apply Keeps.foldl | (simp only [Keeps.mk_iff]; apply Keeps.parts) | split | dsimp only

theorem State.serveVoid_keeps {s0 : State} {s : State} (m : FabMsg) (hs : Keeps s0 s) :
    Keeps s0 (State.serveVoid s m) := by
  unfold State.serveVoid
  repeat' with_reducible first
    | assumption | intro _ | apply State.voidBlock_keeps | apply State.respond_keeps | apply Keeps.ite | apply Keeps.foldl
    | (simp only [Keeps.mk_iff]; apply Keeps.parts) | split | dsimp only

theorem execVoid_keeps {s0 : State} (k : Nat) {s : State} (hs : Keeps s0 s) :
    KeepsR s0 (execVoid k s) := by
  unfold execVoid
  repeat' with_reducible first
    | assumption | intro _ | apply State.onMsg_keeps | apply State.serveVoid_keeps | apply KeepsR.next | exact KeepsR.fault | exact KeepsR.refused
    | apply KeepsR.onUnit | apply KeepsR.ite | apply Keeps.ite | apply Keeps.foldl | (simp only [Keeps.mk_iff]; apply Keeps.parts) | split | dsimp only

theorem execRd_keeps {s0 : State} (k : Nat) {s : State} (hs : Keeps s0 s) :
    KeepsR s0 (execRd k s) := by
  unfold execRd
  repeat' with_reducible first
    | assumption | intro _ | apply State.serveRd_keeps | apply State.onMsg_keeps | apply KeepsR.next | exact KeepsR.fault | exact KeepsR.refused
    | apply KeepsR.onUnit | apply KeepsR.ite | apply Keeps.ite | apply Keeps.foldl | (simp only [Keeps.mk_iff]; apply Keeps.parts) | split | dsimp only

theorem State.hostRequest_keeps {s0 : State} {s : State} (f : Nat) (q : Nat) (i : Nat) (addr : Nat) (len : Nat) (kind : RemKind) (hs : Keeps s0 s) :
    Keeps s0 (State.hostRequest s f q i addr len kind) := by
  unfold State.hostRequest
  repeat' with_reducible first
    | assumption | intro _ | apply State.addRequest_keeps | apply State.send_keeps | apply Keeps.ite | apply Keeps.foldl
    | (simp only [Keeps.mk_iff]; apply Keeps.parts) | split | dsimp only

theorem execSignal_keeps {s0 : State} (q : Nat) (i : Nat) {s : State} (hs : Keeps s0 s) :
    KeepsR s0 (execSignal q i s) := by
  unfold execSignal
  repeat' with_reducible first
    | assumption | intro _
    | (extract_lets +onlyGivenNames x; clear_value (hx : x = _); first | refine Keeps.bind (s := s0) hx ?_ (fun _ => ?_) | (refine Keeps.isFaults x ?_; subst hx) | skip)
    | apply State.control_keeps | apply State.remoteSignal_keeps | apply State.semOp_keeps | apply State.endFlight_keeps | apply State.refreshHeads_keeps
    | apply KeepsR.next | exact KeepsR.fault | exact KeepsR.refused | apply KeepsR.onUnit | apply KeepsR.ite | apply Keeps.ite | apply Keeps.foldl
    | (simp only [Keeps.mk_iff]; apply Keeps.parts) | split | dsimp only

end Sys2Proof.Machine
end

