-- ==== Sys2Proof/Laws/KeepsMovement.lean ====
section
/-!
SUPPORT. The operations of Machine/Movement.lean leave the queue alone and keep the invariant (Laws/Keeps.lean).
-/

set_option linter.all false

namespace Sys2Proof.Machine

theorem JobSt.movePiece_keeps {s0 : State} {j : JobSt} (fl : Flight) (pick : State → Piece → List Byte) (p : Piece) (hj : Keeps s0 j.st) :
    Keeps s0 (JobSt.movePiece j fl pick p).st := by
  unfold JobSt.movePiece
  repeat' with_reducible first
    | assumption | intro _
    | (extract_lets +onlyGivenNames x; clear_value (hx : x = _); first | refine Keeps.bind (s := s0) hx ?_ (fun _ => ?_) | refine Keeps.bindJob (s := s0) hx ?_ (fun _ => ?_) | refine Keeps.bindRes (s := s0) hx ?_ (fun _ => ?_) | (refine Keeps.isFaults x ?_; subst hx) | (refine Keeps.isFun x ?_; subst hx) | skip)
    | apply JobSt.write_keeps | apply State.request_keeps | apply State.modFlight_keeps | apply State.sendOn_keeps | apply State.hostRequest_keeps
    | apply JobSt.checkRange_keeps | apply Keeps.ite | apply Keeps.foldl | (simp only [Keeps.mk_iff]; apply Keeps.parts) | apply Keeps.iteJob
    | apply Keeps.foldlJob | split | dsimp only

theorem JobSt.moveRun_keeps {s0 : State} {j : JobSt} (fl : Flight) (pick : State → Piece → List Byte) (x4 : Option Nat) (x5 : List (List Piece)) (hj : Keeps s0 j.st) :
    Keeps s0 (JobSt.moveRun j fl pick x4 x5).1.st := by
  induction x5 generalizing j fl pick x4 with
  | nil =>
    unfold JobSt.moveRun
    repeat' with_reducible first
      | assumption | intro _ | apply JobSt.movePiece_keeps | apply Keeps.ite | apply Keeps.foldl | (simp only [Keeps.mk_iff]; apply Keeps.parts)
      | apply Keeps.iteJob | apply Keeps.foldlJob | refine Keeps.jobEq (by assumption) ?_ | split | dsimp only
  | cons y ys ih =>
    unfold JobSt.moveRun
    repeat' with_reducible first
      | assumption | intro _ | apply JobSt.movePiece_keeps | apply ih | apply Keeps.ite | apply Keeps.foldl | (simp only [Keeps.mk_iff]; apply Keeps.parts)
      | apply Keeps.iteJob | apply Keeps.foldlJob | refine Keeps.jobEq (by assumption) ?_ | split | dsimp only

theorem State.moveCommand_keeps {s0 : State} {s : State} (fl : Flight) (stop : Option Nat) (pick : State → Piece → List Byte) (segs : List (List Piece)) (hs : Keeps s0 s) :
    Keeps s0 (State.moveCommand s fl stop pick segs) := by
  unfold State.moveCommand
  repeat' with_reducible first
    | assumption | intro _ | apply JobSt.moveRun_keeps | apply State.settleMove_keeps | apply State.endFlight_keeps | apply State.modFlight_keeps
    | apply Keeps.ite | apply Keeps.foldl | (simp only [Keeps.mk_iff]; apply Keeps.parts) | apply Keeps.iteJob | apply Keeps.foldlJob
    | refine Keeps.jobEq (by assumption) ?_ | split | dsimp only

theorem State.indexCheck_keeps {s0 : State} {s : State} (fl : Flight) (base : Nat) (pack : Nat) (idx : Nat) (rows : Nat) (rb : Nat) (wr : Bool) (hs : Keeps s0 s) :
    Keeps s0 (State.indexCheck s fl base pack idx rows rb wr).1 := by
  unfold State.indexCheck
  repeat' with_reducible first
    | assumption | intro _
    | (extract_lets +onlyGivenNames x; clear_value (hx : x = _); first | refine Keeps.bind (s := s0) hx ?_ (fun _ => ?_) | refine Keeps.bindFst (s := s0) hx ?_ (fun _ => ?_) | refine Keeps.bindJob (s := s0) hx ?_ (fun _ => ?_) | refine Keeps.bindRes (s := s0) hx ?_ (fun _ => ?_) | (refine Keeps.isFaults x ?_; subst hx) | skip)
    | apply JobSt.checkRange_keeps | apply Keeps.ite | apply Keeps.foldl | (simp only [Keeps.mk_iff]; apply Keeps.parts) | apply Keeps.iteFst
    | apply Keeps.iteSnd | apply Keeps.iteJob | apply Keeps.foldlJob | refine Keeps.fstEq (by assumption) ?_ | split | dsimp only

theorem State.rowsCommand_keeps {s0 : State} {s : State} (fl : Flight) (stop : Option Nat) (scatter : Bool) (hs : Keeps s0 s) :
    Keeps s0 (State.rowsCommand s fl stop scatter) := by
  unfold State.rowsCommand
  repeat' with_reducible first
    | assumption | intro _
    | (extract_lets +onlyGivenNames x; clear_value (hx : x = _); first | refine Keeps.bind (s := s0) hx ?_ (fun _ => ?_) | refine Keeps.bindFst (s := s0) hx ?_ (fun _ => ?_) | (refine Keeps.isFaults x ?_; subst hx) | (refine Keeps.isFun x ?_; subst hx) | skip)
    | apply State.endFlight_keeps | apply State.indexCheck_keeps | apply State.moveCommand_keeps | apply State.release_keeps | apply Keeps.ite
    | apply Keeps.foldl | (simp only [Keeps.mk_iff]; apply Keeps.parts) | apply Keeps.iteFst | apply Keeps.iteSnd | refine Keeps.fstEq (by assumption) ?_
    | split | dsimp only

theorem State.idleMove_keeps {s0 : State} {s : State} (fl : Flight) {k : State} (hs : Keeps s0 s) (hk : Keeps s0 k) :
    Keeps s0 (State.idleMove s fl k) := by
  unfold State.idleMove
  repeat' with_reducible first
    | assumption | intro _ | apply Keeps.ite | apply Keeps.foldl | (simp only [Keeps.mk_iff]; apply Keeps.parts) | split | dsimp only

theorem execScatter_keeps {s0 : State} (q : Nat) (i : Nat) (stop : Option Nat) {s : State} (hs : Keeps s0 s) :
    KeepsR s0 (execScatter q i stop s) := by
  unfold execScatter
  repeat' with_reducible first
    | assumption | intro _ | apply State.dispatch_keeps | apply State.rowsCommand_keeps | apply State.idleMove_keeps | apply KeepsR.next
    | exact KeepsR.fault | exact KeepsR.refused | apply KeepsR.onUnit | apply KeepsR.ite | apply Keeps.ite | apply Keeps.foldl
    | (simp only [Keeps.mk_iff]; apply Keeps.parts) | split | dsimp only

theorem State.copyCommand_keeps {s0 : State} {s : State} (fl : Flight) (stop : Option Nat) (hs : Keeps s0 s) :
    Keeps s0 (State.copyCommand s fl stop) := by
  unfold State.copyCommand
  repeat' with_reducible first
    | assumption | intro _
    | (extract_lets +onlyGivenNames x; clear_value (hx : x = _); first | refine Keeps.bind (s := s0) hx ?_ (fun _ => ?_) | (refine Keeps.isFaults x ?_; subst hx) | skip)
    | apply State.moveCommand_keeps | apply Keeps.ite | apply Keeps.foldl | (simp only [Keeps.mk_iff]; apply Keeps.parts) | split | dsimp only

theorem execCopy_keeps {s0 : State} (q : Nat) (i : Nat) (stop : Option Nat) {s : State} (hs : Keeps s0 s) :
    KeepsR s0 (execCopy q i stop s) := by
  unfold execCopy
  repeat' with_reducible first
    | assumption | intro _ | apply State.dispatch_keeps | apply State.copyCommand_keeps | apply State.idleMove_keeps | apply KeepsR.next
    | exact KeepsR.fault | exact KeepsR.refused | apply KeepsR.onUnit | apply KeepsR.ite | apply Keeps.ite | apply Keeps.foldl
    | (simp only [Keeps.mk_iff]; apply Keeps.parts) | split | dsimp only

theorem execGather_keeps {s0 : State} (q : Nat) (i : Nat) (stop : Option Nat) {s : State} (hs : Keeps s0 s) :
    KeepsR s0 (execGather q i stop s) := by
  unfold execGather
  repeat' with_reducible first
    | assumption | intro _ | apply State.dispatch_keeps | apply State.rowsCommand_keeps | apply State.idleMove_keeps | apply KeepsR.next
    | exact KeepsR.fault | exact KeepsR.refused | apply KeepsR.onUnit | apply KeepsR.ite | apply Keeps.ite | apply Keeps.foldl
    | (simp only [Keeps.mk_iff]; apply Keeps.parts) | split | dsimp only

end Sys2Proof.Machine
end

