-- ==== Sys2Proof/Laws/KeepsCollective.lean ====
section
/-!
SUPPORT. The operations of Machine/Collective.lean leave the queue alone and keep the invariant (Laws/Keeps.lean).
-/

set_option linter.all false

namespace Sys2Proof.Machine

theorem State.putCol_keeps {s0 : State} {s : State} (c : Collective) (hs : Keeps s0 s) :
    Keeps s0 (State.putCol s c) := by
  unfold State.putCol
  repeat' with_reducible first
    | assumption | intro _
    | (extract_lets +onlyGivenNames x; clear_value (hx : x = _); first | refine Keeps.bind (s := s0) hx ?_ (fun _ => ?_) | (refine Keeps.isFaults x ?_; subst hx) | skip)
    | apply Keeps.ite | apply Keeps.foldl | (simp only [Keeps.mk_iff]; apply Keeps.parts) | split | dsimp only

theorem State.colSend_keeps {s0 : State} {s : State} (c : Collective) (rank : Nat) (mtype : Nat) (aux : Nat) (tag : Nat) (addr : Nat) (data : List Byte) (hs : Keeps s0 s) :
    Keeps s0 (State.colSend s c rank mtype aux tag addr data) := by
  unfold State.colSend
  repeat' with_reducible first
    | assumption | intro _ | apply State.sendMsg_keeps | apply Keeps.ite | apply Keeps.foldl | (simp only [Keeps.mk_iff]; apply Keeps.parts) | split
    | dsimp only

theorem State.sendReady_keeps {s0 : State} {s : State} (c : Collective) (ranks : List Nat) (hs : Keeps s0 s) :
    Keeps s0 (State.sendReady s c ranks) := by
  unfold State.sendReady
  repeat' with_reducible first
    | assumption | intro _ | apply State.colSend_keeps | apply Keeps.ite | apply Keeps.foldl | (simp only [Keeps.mk_iff]; apply Keeps.parts) | split
    | dsimp only

theorem State.readyResend_keeps {s0 : State} {s : State} (q : Nat) (i : Nat) (hs : Keeps s0 s) :
    Keeps s0 (State.readyResend s q i) := by
  unfold State.readyResend
  repeat' with_reducible first
    | assumption | intro _
    | (extract_lets +onlyGivenNames x; clear_value (hx : x = _); first | refine Keeps.bind (s := s0) hx ?_ (fun _ => ?_) | (refine Keeps.isFaults x ?_; subst hx) | skip)
    | apply State.putCol_keeps | apply State.sendReady_keeps | apply Keeps.ite | apply Keeps.foldl | (simp only [Keeps.mk_iff]; apply Keeps.parts) | split
    | dsimp only

theorem State.colStatus_keeps {s0 : State} {s : State} (hs : Keeps s0 s) :
    Keeps s0 (State.colStatus s) := by
  unfold State.colStatus
  repeat' with_reducible first
    | assumption | intro _ | apply State.setFld_keeps | apply Keeps.ite | apply Keeps.foldl | (simp only [Keeps.mk_iff]; apply Keeps.parts) | split
    | dsimp only

theorem State.holdMsg_keeps {s0 : State} {s : State} (m : FabMsg) (hs : Keeps s0 s) :
    Keeps s0 (State.holdMsg s m) := by
  unfold State.holdMsg
  repeat' with_reducible first
    | assumption | intro _
    | (extract_lets +onlyGivenNames x; clear_value (hx : x = _); first | refine Keeps.bind (s := s0) hx ?_ (fun _ => ?_) | (refine Keeps.isFaults x ?_; subst hx) | skip)
    | apply State.count_keeps | apply State.colStatus_keeps | apply Keeps.ite | apply Keeps.foldl | (simp only [Keeps.mk_iff]; apply Keeps.parts) | split
    | dsimp only

theorem State.sendSpotPiece_keeps {s0 : State} {s : State} (c : Collective) (kind : Nat) (chunk : Nat) (off : Nat) (mark : Nat) (b : List Byte) (hs : Keeps s0 s) :
    Keeps s0 (State.sendSpotPiece s c kind chunk off mark b) := by
  unfold State.sendSpotPiece
  repeat' with_reducible first
    | assumption | intro _ | apply State.colSend_keeps | apply Keeps.ite | apply Keeps.foldl | (simp only [Keeps.mk_iff]; apply Keeps.parts) | split
    | dsimp only

theorem State.sendSpotMarks_keeps {s0 : State} {s : State} (c : Collective) (hs : Keeps s0 s) :
    Keeps s0 (State.sendSpotMarks s c) := by
  unfold State.sendSpotMarks
  repeat' with_reducible first
    | assumption | intro _ | apply State.sendSpotPiece_keeps | apply Keeps.ite | apply Keeps.foldl | (simp only [Keeps.mk_iff]; apply Keeps.parts) | split
    | dsimp only

theorem State.sendCtrl_keeps {s0 : State} {s : State} (c : Collective) (rank : Nat) (kind : Nat) (level : Nat) (hs : Keeps s0 s) :
    Keeps s0 (State.sendCtrl s c rank kind level) := by
  unfold State.sendCtrl
  repeat' with_reducible first
    | assumption | intro _ | apply State.colSend_keeps | apply Keeps.ite | apply Keeps.foldl | (simp only [Keeps.mk_iff]; apply Keeps.parts) | split
    | dsimp only

theorem State.countTx_keeps {s0 : State} {s : State} (n : Nat) (hs : Keeps s0 s) :
    Keeps s0 (State.countTx s n) := by
  unfold State.countTx
  repeat' with_reducible first
    | assumption | intro _
    | (extract_lets +onlyGivenNames x; clear_value (hx : x = _); first | refine Keeps.bind (s := s0) hx ?_ (fun _ => ?_) | (refine Keeps.isFaults x ?_; subst hx) | skip)
    | apply State.count_keeps
    | apply Keeps.ite | apply Keeps.foldl | (simp only [Keeps.mk_iff]; apply Keeps.parts) | refine Keeps.fstEq (by assumption) ?_ | split | dsimp only

theorem State.countRx_keeps {s0 : State} {s : State} (n : Nat) (hs : Keeps s0 s) :
    Keeps s0 (State.countRx s n) := by
  unfold State.countRx
  repeat' with_reducible first
    | assumption | intro _
    | (extract_lets +onlyGivenNames x; clear_value (hx : x = _); first | refine Keeps.bind (s := s0) hx ?_ (fun _ => ?_) | (refine Keeps.isFaults x ?_; subst hx) | skip)
    | apply State.count_keeps
    | apply Keeps.ite | apply Keeps.foldl | (simp only [Keeps.mk_iff]; apply Keeps.parts) | refine Keeps.fstEq (by assumption) ?_ | split | dsimp only

theorem State.sendChunk_keeps {s0 : State} {s : State} (c : Collective) (o : ChunkOut) (hs : Keeps s0 s) :
    Keeps s0 (State.sendChunk s c o) := by
  unfold State.sendChunk
  repeat' with_reducible first
    | assumption | intro _ | apply State.countTx_keeps
    | (extract_lets +onlyGivenNames x; clear_value (hx : x = _); first | refine Keeps.bind (s := s0) hx ?_ (fun _ => ?_) | (refine Keeps.isFaults x ?_; subst hx) | skip)
    | apply State.colSend_keeps | apply State.count_keeps | apply Keeps.ite | apply Keeps.foldl | (simp only [Keeps.mk_iff]; apply Keeps.parts) | split
    | dsimp only

theorem State.startLevel_keeps {s0 : State} {s : State} (c : Collective) (l : ColLevel) (hs : Keeps s0 s) :
    Keeps s0 (State.startLevel s c l).1 := by
  unfold State.startLevel
  repeat' with_reducible first
    | assumption | intro _
    | (extract_lets +onlyGivenNames x; clear_value (hx : x = _); first | refine Keeps.bind (s := s0) hx ?_ (fun _ => ?_) | refine Keeps.bindFst (s := s0) hx ?_ (fun _ => ?_) | (refine Keeps.isFaults x ?_; subst hx) | skip)
    | apply State.sendCtrl_keeps | apply State.sendChunk_keeps | apply Keeps.ite | apply Keeps.foldl | (simp only [Keeps.mk_iff]; apply Keeps.parts)
    | apply Keeps.iteFst | apply Keeps.iteSnd | refine Keeps.fstEq (by assumption) ?_ | split | dsimp only

theorem State.slowCounters_keeps {s0 : State} {s : State} (c : Collective) (hs : Keeps s0 s) :
    Keeps s0 (State.slowCounters s c) := by
  unfold State.slowCounters
  repeat' with_reducible first
    | assumption | intro _
    | (extract_lets +onlyGivenNames x; clear_value (hx : x = _); first | refine Keeps.bind (s := s0) hx ?_ (fun _ => ?_) | refine Keeps.bindJob (s := s0) hx ?_ (fun _ => ?_) | refine Keeps.bindRes (s := s0) hx ?_ (fun _ => ?_) | (refine Keeps.isFaults x ?_; subst hx) | skip)
    | apply State.runJob_keeps | apply State.count_keeps | apply Keeps.ite | apply Keeps.foldl | (simp only [Keeps.mk_iff]; apply Keeps.parts)
    | apply Keeps.iteJob | apply Keeps.foldlJob | split | dsimp only

theorem State.scratchWrites_keeps {s0 : State} {s : State} (c : Collective) (hs : Keeps s0 s) :
    Keeps s0 (State.scratchWrites s c).1 := by
  unfold State.scratchWrites
  repeat' with_reducible first
    | assumption | intro _
    | (extract_lets +onlyGivenNames x; clear_value (hx : x = _); first | refine Keeps.bind (s := s0) hx ?_ (fun _ => ?_) | refine Keeps.bindFst (s := s0) hx ?_ (fun _ => ?_) | (refine Keeps.isFaults x ?_; subst hx) | skip)
    | apply Keeps.ite | apply Keeps.foldl | (simp only [Keeps.mk_iff]; apply Keeps.parts) | apply Keeps.iteFst | apply Keeps.iteSnd
    | refine Keeps.fstEq (by assumption) ?_ | split | dsimp only

theorem State.matchDone_keeps {s0 : State} {s : State} (f comm seq : Nat) (hs : Keeps s0 s) :
    Keeps s0 (State.matchDone s f comm seq) := by
  unfold State.matchDone
  repeat' with_reducible first
    | assumption | intro _
    | (extract_lets +onlyGivenNames x; clear_value (hx : x = _); first | refine Keeps.bind (s := s0) hx ?_ (fun _ => ?_) | (refine Keeps.isFaults x ?_; subst hx) | skip)
    | apply State.colStatus_keeps
    | apply State.count_keeps
    | apply Keeps.ite | apply Keeps.foldl | (simp only [Keeps.mk_iff]; apply Keeps.parts) | refine Keeps.fstEq (by assumption) ?_ | split | dsimp only

theorem State.dropCol_keeps {s0 : State} {s : State} (c : Collective) (hs : Keeps s0 s) :
    Keeps s0 (State.dropCol s c) := by
  unfold State.dropCol
  repeat' with_reducible first
    | assumption | intro _ | apply State.matchDone_keeps
    | (extract_lets +onlyGivenNames x; clear_value (hx : x = _); first | refine Keeps.bind (s := s0) hx ?_ (fun _ => ?_) | (refine Keeps.isFaults x ?_; subst hx) | skip)
    | apply State.colStatus_keeps | apply Keeps.ite | apply Keeps.foldl | (simp only [Keeps.mk_iff]; apply Keeps.parts) | split | dsimp only

theorem State.finishCol_keeps {s0 : State} {s : State} (c : Collective) (hs : Keeps s0 s) :
    Keeps s0 (State.finishCol s c) := by
  unfold State.finishCol
  repeat' with_reducible first
    | assumption | intro _
    | (extract_lets +onlyGivenNames x; clear_value (hx : x = _); first | refine Keeps.bind (s := s0) hx ?_ (fun _ => ?_) | refine Keeps.bindFst (s := s0) hx ?_ (fun _ => ?_) | refine Keeps.bindJob (s := s0) hx ?_ (fun _ => ?_) | refine Keeps.bindRes (s := s0) hx ?_ (fun _ => ?_) | (refine Keeps.isFaults x ?_; subst hx) | skip)
    | apply State.slowCounters_keeps | apply State.scratchWrites_keeps | apply State.dropCol_keeps | apply State.runJob_keeps | apply State.count_keeps
    | apply JobResult.finish_keeps | apply Keeps.ite | apply Keeps.foldl | (simp only [Keeps.mk_iff]; apply Keeps.parts) | apply Keeps.iteFst
    | apply Keeps.iteSnd | apply Keeps.iteJob | apply Keeps.foldlJob | refine Keeps.fstEq (by assumption) ?_ | split | dsimp only

theorem State.takeVerdict_keeps {s0 : State} {s : State} (c : Collective) (bad : Nat) (hs : Keeps s0 s) :
    Keeps s0 (State.takeVerdict s c bad) := by
  unfold State.takeVerdict
  repeat' with_reducible first
    | assumption | intro _ | apply State.putCol_keeps | apply Keeps.ite | apply Keeps.foldl | (simp only [Keeps.mk_iff]; apply Keeps.parts) | split
    | dsimp only

theorem State.spotDecide_keeps {s0 : State} {s : State} (c : Collective) (hs : Keeps s0 s) :
    Keeps s0 (State.spotDecide s c) := by
  unfold State.spotDecide
  repeat' with_reducible first
    | assumption | intro _
    | (extract_lets +onlyGivenNames x; clear_value (hx : x = _); first | refine Keeps.bind (s := s0) hx ?_ (fun _ => ?_) | (refine Keeps.isFaults x ?_; subst hx) | skip)
    | apply State.colSend_keeps | apply State.takeVerdict_keeps | apply State.count_keeps | apply Keeps.ite | apply Keeps.foldl
    | (simp only [Keeps.mk_iff]; apply Keeps.parts) | split | dsimp only

theorem State.spoilOutputs_keeps {s0 : State} {s : State} (c : Collective) (hs : Keeps s0 s) :
    Keeps s0 (State.spoilOutputs s c) := by
  unfold State.spoilOutputs
  repeat' with_reducible first
    | assumption | intro _
    | (extract_lets +onlyGivenNames x; clear_value (hx : x = _); first | refine Keeps.bind (s := s0) hx ?_ (fun _ => ?_) | (refine Keeps.isFaults x ?_; subst hx) | skip)
    | apply State.engWriteChunk_keeps
    | apply State.voidBlock_keeps
    | apply Keeps.ite | apply Keeps.foldl | (simp only [Keeps.mk_iff]; apply Keeps.parts) | refine Keeps.fstEq (by assumption) ?_ | split | dsimp only

theorem State.endCol_keeps {s0 : State} {s : State} (c : Collective) (status : Nat) (detail : Nat) (hs : Keeps s0 s) :
    Keeps s0 (State.endCol s c status detail) := by
  unfold State.endCol
  repeat' with_reducible first
    | assumption | intro _ | apply State.spoilOutputs_keeps | apply State.endFlight_keeps | apply State.dropCol_keeps | apply State.count_keeps | apply Keeps.ite | apply Keeps.foldl
    | (simp only [Keeps.mk_iff]; apply Keeps.parts) | split | dsimp only

theorem State.sendAborts_keeps {s0 : State} {s : State} (c : Collective) (hs : Keeps s0 s) :
    Keeps s0 (State.sendAborts s c) := by
  unfold State.sendAborts
  repeat' with_reducible first
    | assumption | intro _ | apply State.sendCtrl_keeps | apply Keeps.ite | apply Keeps.foldl | (simp only [Keeps.mk_iff]; apply Keeps.parts) | split
    | dsimp only

theorem State.failCol_keeps {s0 : State} {s : State} (c : Collective) (status : Nat) (cause : Nat) (abort : Bool) (hs : Keeps s0 s) :
    Keeps s0 (State.failCol s c status cause abort) := by
  unfold State.failCol
  repeat' with_reducible first
    | assumption | intro _
    | (extract_lets +onlyGivenNames x; clear_value (hx : x = _); first | refine Keeps.bind (s := s0) hx ?_ (fun _ => ?_) | (refine Keeps.isFaults x ?_; subst hx) | skip)
    | apply State.endCol_keeps | apply State.sendAborts_keeps | apply Keeps.ite | apply Keeps.foldl | (simp only [Keeps.mk_iff]; apply Keeps.parts)
    | split | dsimp only

theorem State.postmarkRecord_keeps {s0 : State} {s : State} (c : Collective) (hs : Keeps s0 s) :
    Keeps s0 (State.postmarkRecord s c) := by
  unfold State.postmarkRecord
  repeat' with_reducible first
    | assumption | intro _ | apply State.record_keeps | apply Keeps.ite | apply Keeps.foldl | (simp only [Keeps.mk_iff]; apply Keeps.parts) | split
    | dsimp only

theorem State.runCol_keeps {s0 : State} {s : State} (c : Collective) (x3 : Nat) (hs : Keeps s0 s) :
    Keeps s0 (State.runCol s c x3) := by
  induction x3 generalizing s c with
  | zero =>
    unfold State.runCol
    repeat' with_reducible first
      | assumption | intro _ | apply State.sendSpotMarks_keeps | apply State.startLevel_keeps | apply State.putCol_keeps | apply State.finishCol_keeps
      | apply State.spotDecide_keeps | apply State.failCol_keeps | apply State.postmarkRecord_keeps | apply Keeps.ite | apply Keeps.foldl
      | (simp only [Keeps.mk_iff]; apply Keeps.parts) | apply Keeps.iteFst | apply Keeps.iteSnd | refine Keeps.fstEq (by assumption) ?_ | split | dsimp only
  | succ m ih =>
    unfold State.runCol
    repeat' with_reducible first
      | assumption | intro _ | apply State.sendSpotMarks_keeps | apply State.startLevel_keeps | apply State.putCol_keeps | apply State.finishCol_keeps
      | apply State.spotDecide_keeps | apply State.failCol_keeps | apply State.postmarkRecord_keeps | apply ih | apply Keeps.ite | apply Keeps.foldl
      | (simp only [Keeps.mk_iff]; apply Keeps.parts) | apply Keeps.iteFst | apply Keeps.iteSnd | refine Keeps.fstEq (by assumption) ?_ | split | dsimp only

theorem State.takeCtrl_keeps {s0 : State} {s : State} (m : FabMsg) (hs : Keeps s0 s) :
    Keeps s0 (State.takeCtrl s m) := by
  unfold State.takeCtrl
  repeat' with_reducible first
    | assumption | intro _
    | (extract_lets +onlyGivenNames x; clear_value (hx : x = _); first | refine Keeps.bind (s := s0) hx ?_ (fun _ => ?_) | (refine Keeps.isFaults x ?_; subst hx) | skip)
    | apply State.holdMsg_keeps | apply State.runCol_keeps | apply State.failCol_keeps | apply Keeps.ite | apply Keeps.foldl
    | (simp only [Keeps.mk_iff]; apply Keeps.parts) | split | dsimp only

theorem State.refuseCol_keeps {s0 : State} {s : State} (fl : Flight) (status : Nat) (hs : Keeps s0 s) :
    Keeps s0 (State.refuseCol s fl status) := by
  unfold State.refuseCol
  repeat' with_reducible first
    | assumption | intro _
    | (extract_lets +onlyGivenNames x; clear_value (hx : x = _); first | refine Keeps.bind (s := s0) hx ?_ (fun _ => ?_) | (refine Keeps.isFaults x ?_; subst hx) | skip)
    | apply State.endFlight_keeps
    | apply State.matchDone_keeps
    | apply Keeps.ite | apply Keeps.foldl | (simp only [Keeps.mk_iff]; apply Keeps.parts) | refine Keeps.fstEq (by assumption) ?_ | split | dsimp only

theorem State.pruneCols_keeps {s0 : State} {s : State} (hs : Keeps s0 s) :
    Keeps s0 (State.pruneCols s) := by
  unfold State.pruneCols
  repeat' with_reducible first
    | assumption | intro _ | apply State.spoilOutputs_keeps | apply State.dropCol_keeps | apply Keeps.ite | apply Keeps.foldl | (simp only [Keeps.mk_iff]; apply Keeps.parts) | split
    | dsimp only

theorem execColReadyResend_keeps {s0 : State} (q : Nat) (i : Nat) {s : State} (hs : Keeps s0 s) :
    KeepsR s0 (execColReadyResend q i s) := by
  unfold execColReadyResend
  repeat' with_reducible first
    | assumption | intro _ | apply State.pruneCols_keeps | apply State.readyResend_keeps | apply KeepsR.next | exact KeepsR.fault | exact KeepsR.refused
    | apply KeepsR.onUnit | apply KeepsR.ite | apply Keeps.ite | apply Keeps.foldl | (simp only [Keeps.mk_iff]; apply Keeps.parts) | split | dsimp only

theorem State.sendAck_keeps {s0 : State} {s : State} (c : Collective) (r : Nat) (lvl : Nat) (k : Nat) (nak : Bool) (hs : Keeps s0 s) :
    Keeps s0 (State.sendAck s c r lvl k nak) := by
  unfold State.sendAck
  repeat' with_reducible first
    | assumption | intro _ | apply State.colSend_keeps | apply Keeps.ite | apply Keeps.foldl | (simp only [Keeps.mk_iff]; apply Keeps.parts) | split
    | dsimp only

theorem State.checkChunk_keeps {s0 : State} {s : State} (c : Collective) (y : ChunkIn) (len : Nat) (hs : Keeps s0 s) :
    Keeps s0 (State.checkChunk s c y len) := by
  unfold State.checkChunk
  repeat' with_reducible first
    | assumption | intro _ | apply State.countRx_keeps
    | (extract_lets +onlyGivenNames x; clear_value (hx : x = _); first | refine Keeps.bind (s := s0) hx ?_ (fun _ => ?_) | (refine Keeps.isFaults x ?_; subst hx) | skip)
    | apply State.runCol_keeps | apply State.putCol_keeps | apply State.sendAck_keeps | apply State.failCol_keeps | apply State.postmarkRecord_keeps
    | apply State.count_keeps | apply Keeps.ite | apply Keeps.foldl | (simp only [Keeps.mk_iff]; apply Keeps.parts) | split | dsimp only

theorem State.takeSpot_keeps {s0 : State} {s : State} (m : FabMsg) (hs : Keeps s0 s) :
    Keeps s0 (State.takeSpot s m) := by
  unfold State.takeSpot
  repeat' with_reducible first
    | assumption | intro _
    | (extract_lets +onlyGivenNames x; clear_value (hx : x = _); first | refine Keeps.bind (s := s0) hx ?_ (fun _ => ?_) | (refine Keeps.isFaults x ?_; subst hx) | skip)
    | apply State.holdMsg_keeps | apply State.runCol_keeps | apply Keeps.ite | apply Keeps.foldl | (simp only [Keeps.mk_iff]; apply Keeps.parts) | split
    | dsimp only

theorem execColSpot_keeps {s0 : State} (k : Nat) {s : State} (hs : Keeps s0 s) :
    KeepsR s0 (execColSpot k s) := by
  unfold execColSpot
  repeat' with_reducible first
    | assumption | intro _ | apply State.pruneCols_keeps | apply State.onMsg_keeps | apply State.takeSpot_keeps | apply KeepsR.next | exact KeepsR.fault
    | exact KeepsR.refused | apply KeepsR.onUnit | apply KeepsR.ite | apply Keeps.ite | apply Keeps.foldl | (simp only [Keeps.mk_iff]; apply Keeps.parts)
    | split | dsimp only

theorem State.takePmk_keeps {s0 : State} {s : State} (m : FabMsg) (hs : Keeps s0 s) :
    Keeps s0 (State.takePmk s m) := by
  unfold State.takePmk
  repeat' with_reducible first
    | assumption | intro _
    | (extract_lets +onlyGivenNames x; clear_value (hx : x = _); first | refine Keeps.bind (s := s0) hx ?_ (fun _ => ?_) | (refine Keeps.isFaults x ?_; subst hx) | skip)
    | apply State.holdMsg_keeps | apply State.checkChunk_keeps | apply State.putCol_keeps | apply State.sendAck_keeps | apply State.failCol_keeps
    | apply Keeps.ite | apply Keeps.foldl | (simp only [Keeps.mk_iff]; apply Keeps.parts) | split | dsimp only

theorem execColPmk_keeps {s0 : State} (k : Nat) {s : State} (hs : Keeps s0 s) :
    KeepsR s0 (execColPmk k s) := by
  unfold execColPmk
  repeat' with_reducible first
    | assumption | intro _ | apply State.pruneCols_keeps | apply State.onMsg_keeps | apply State.takePmk_keeps | apply KeepsR.next | exact KeepsR.fault
    | exact KeepsR.refused | apply KeepsR.onUnit | apply KeepsR.ite | apply Keeps.ite | apply Keeps.foldl | (simp only [Keeps.mk_iff]; apply Keeps.parts)
    | split | dsimp only

theorem State.colTimeoutHit_keeps {s0 : State} {s : State} (q : Nat) (i : Nat) (hs : Keeps s0 s) :
    Keeps s0 (State.colTimeoutHit s q i) := by
  unfold State.colTimeoutHit
  repeat' with_reducible first
    | assumption | intro _ | apply State.endCol_keeps | apply State.sendAborts_keeps | apply Keeps.ite | apply Keeps.foldl
    | (simp only [Keeps.mk_iff]; apply Keeps.parts) | split | dsimp only

theorem State.takeVerdictMsg_keeps {s0 : State} {s : State} (m : FabMsg) (hs : Keeps s0 s) :
    Keeps s0 (State.takeVerdictMsg s m) := by
  unfold State.takeVerdictMsg
  repeat' with_reducible first
    | assumption | intro _
    | (extract_lets +onlyGivenNames x; clear_value (hx : x = _); first | refine Keeps.bind (s := s0) hx ?_ (fun _ => ?_) | (refine Keeps.isFaults x ?_; subst hx) | skip)
    | apply State.holdMsg_keeps | apply State.runCol_keeps | apply State.failCol_keeps | apply State.postmarkRecord_keeps | apply Keeps.ite
    | apply Keeps.foldl | (simp only [Keeps.mk_iff]; apply Keeps.parts) | split | dsimp only

theorem State.takeAck_keeps {s0 : State} {s : State} (m : FabMsg) (hs : Keeps s0 s) :
    Keeps s0 (State.takeAck s m) := by
  unfold State.takeAck
  repeat' with_reducible first
    | assumption | intro _
    | (extract_lets +onlyGivenNames x; clear_value (hx : x = _); first | refine Keeps.bind (s := s0) hx ?_ (fun _ => ?_) | (refine Keeps.isFaults x ?_; subst hx) | skip)
    | apply State.runCol_keeps | apply State.putCol_keeps | apply State.sendChunk_keeps | apply State.count_keeps | apply Keeps.ite | apply Keeps.foldl
    | (simp only [Keeps.mk_iff]; apply Keeps.parts) | split | dsimp only

theorem State.takeReady_keeps {s0 : State} {s : State} (m : FabMsg) (hs : Keeps s0 s) :
    Keeps s0 (State.takeReady s m) := by
  unfold State.takeReady
  repeat' with_reducible first
    | assumption | intro _
    | (extract_lets +onlyGivenNames x; clear_value (hx : x = _); first | refine Keeps.bind (s := s0) hx ?_ (fun _ => ?_) | (refine Keeps.isFaults x ?_; subst hx) | skip)
    | apply State.sendCtrl_keeps | apply State.holdMsg_keeps | apply State.runCol_keeps | apply State.sendChunk_keeps | apply State.failCol_keeps
    | apply Keeps.ite | apply Keeps.foldl | (simp only [Keeps.mk_iff]; apply Keeps.parts) | split | dsimp only

theorem State.takeCol_keeps {s0 : State} {s : State} (m : FabMsg) (hs : Keeps s0 s) :
    Keeps s0 (State.takeCol s m) := by
  unfold State.takeCol
  repeat' with_reducible first
    | assumption | intro _ | apply State.takeVerdictMsg_keeps | apply State.takeAck_keeps | apply State.takeReady_keeps | apply State.takeSpot_keeps
    | apply State.takeCtrl_keeps | apply State.takePmk_keeps | apply Keeps.ite | apply Keeps.foldl | (simp only [Keeps.mk_iff]; apply Keeps.parts) | split
    | dsimp only

theorem State.resendChunks_keeps {s0 : State} {s : State} (q : Nat) (i : Nat) (hs : Keeps s0 s) :
    Keeps s0 (State.resendChunks s q i) := by
  unfold State.resendChunks
  repeat' with_reducible first
    | assumption | intro _
    | (extract_lets +onlyGivenNames x; clear_value (hx : x = _); first | refine Keeps.bind (s := s0) hx ?_ (fun _ => ?_) | (refine Keeps.isFaults x ?_; subst hx) | skip)
    | apply State.putCol_keeps | apply State.sendChunk_keeps | apply State.failCol_keeps | apply State.count_keeps | apply Keeps.ite | apply Keeps.foldl
    | (simp only [Keeps.mk_iff]; apply Keeps.parts) | split | dsimp only

theorem execColVerdict_keeps {s0 : State} (k : Nat) {s : State} (hs : Keeps s0 s) :
    KeepsR s0 (execColVerdict k s) := by
  unfold execColVerdict
  repeat' with_reducible first
    | assumption | intro _ | apply State.takeVerdictMsg_keeps | apply State.pruneCols_keeps | apply State.onMsg_keeps | apply KeepsR.next
    | exact KeepsR.fault | exact KeepsR.refused | apply KeepsR.onUnit | apply KeepsR.ite | apply Keeps.ite | apply Keeps.foldl
    | (simp only [Keeps.mk_iff]; apply Keeps.parts) | split | dsimp only

theorem State.colCheck_keeps {s0 : State} {s : State} (c : Collective) (hs : Keeps s0 s) :
    Keeps s0 (State.colCheck s c).1 := by
  unfold State.colCheck
  repeat' with_reducible first
    | assumption | intro _
    | (extract_lets +onlyGivenNames x; clear_value (hx : x = _); first | refine Keeps.bind (s := s0) hx ?_ (fun _ => ?_) | refine Keeps.bindFst (s := s0) hx ?_ (fun _ => ?_) | refine Keeps.bindJob (s := s0) hx ?_ (fun _ => ?_) | refine Keeps.bindRes (s := s0) hx ?_ (fun _ => ?_) | (refine Keeps.isFaults x ?_; subst hx) | skip)
    | apply JobSt.checkRange_keeps | apply Keeps.ite | apply Keeps.foldl | (simp only [Keeps.mk_iff]; apply Keeps.parts) | apply Keeps.iteFst
    | apply Keeps.iteSnd | apply Keeps.iteJob | apply Keeps.foldlJob | refine Keeps.fstEq (by assumption) ?_ | split | dsimp only

theorem State.sendSpots_keeps {s0 : State} {s : State} (c : Collective) (hs : Keeps s0 s) :
    Keeps s0 (State.sendSpots s c) := by
  unfold State.sendSpots
  repeat' with_reducible first
    | assumption | intro _
    | (extract_lets +onlyGivenNames x; clear_value (hx : x = _); first | refine Keeps.bind (s := s0) hx ?_ (fun _ => ?_) | (refine Keeps.isFaults x ?_; subst hx) | skip)
    | apply State.sendSpotPiece_keeps | apply Keeps.ite | apply Keeps.foldl | (simp only [Keeps.mk_iff]; apply Keeps.parts) | split | dsimp only

theorem State.replayEarly_keeps {s0 : State} {s : State} (c : Collective) (hs : Keeps s0 s) :
    Keeps s0 (State.replayEarly s c) := by
  unfold State.replayEarly
  repeat' with_reducible first
    | assumption | intro _
    | (extract_lets +onlyGivenNames x; clear_value (hx : x = _); first | refine Keeps.bind (s := s0) hx ?_ (fun _ => ?_) | (refine Keeps.isFaults x ?_; subst hx) | skip)
    | apply State.takeCol_keeps | apply State.colStatus_keeps | apply Keeps.ite | apply Keeps.foldl | (simp only [Keeps.mk_iff]; apply Keeps.parts)
    | split | dsimp only

theorem State.startCol_keeps {s0 : State} {s : State} (fl : Flight) (hs : Keeps s0 s) :
    Keeps s0 (State.startCol s fl) := by
  unfold State.startCol
  repeat' with_reducible first
    | assumption | intro _ | apply State.refuseCol_keeps
    | (extract_lets +onlyGivenNames x; clear_value (hx : x = _); first | refine Keeps.bind (s := s0) hx ?_ (fun _ => ?_) | refine Keeps.bindFst (s := s0) hx ?_ (fun _ => ?_) | (refine Keeps.isFaults x ?_; subst hx) | skip)
    | apply State.sendSpots_keeps | apply State.runCol_keeps | apply State.replayEarly_keeps | apply State.endFlight_keeps | apply State.colCheck_keeps
    | apply State.failCol_keeps | apply State.sendReady_keeps | apply State.colStatus_keeps | apply Keeps.ite | apply Keeps.foldl
    | (simp only [Keeps.mk_iff]; apply Keeps.parts) | apply Keeps.iteFst | apply Keeps.iteSnd | refine Keeps.fstEq (by assumption) ?_ | split | dsimp only

theorem State.collective_keeps {s0 : State} {s : State} (q : Nat) (i : Nat) (op : Nat) (hs : Keeps s0 s) :
    KeepsR s0 (State.collective s q i op) := by
  unfold State.collective
  repeat' with_reducible first
    | assumption | intro _ | apply State.pruneCols_keeps | apply State.dispatch_keeps | apply State.failCol_keeps | apply State.startCol_keeps
    | apply KeepsR.next | exact KeepsR.fault | exact KeepsR.refused | apply KeepsR.onUnit | apply KeepsR.ite | apply Keeps.ite | apply Keeps.foldl
    | (simp only [Keeps.mk_iff]; apply Keeps.parts) | split | dsimp only

theorem execAllgather_keeps {s0 : State} (q : Nat) (i : Nat) {s : State} (hs : Keeps s0 s) :
    KeepsR s0 (execAllgather q i s) := by
  unfold execAllgather
  repeat' with_reducible first
    | assumption | intro _ | apply State.collective_keeps | apply KeepsR.next | exact KeepsR.fault | exact KeepsR.refused | apply KeepsR.onUnit
    | apply KeepsR.ite | apply Keeps.ite | apply Keeps.foldl | (simp only [Keeps.mk_iff]; apply Keeps.parts) | split | dsimp only

theorem execCollectiveTimeout_keeps {s0 : State} (q : Nat) (i : Nat) {s : State} (hs : Keeps s0 s) :
    KeepsR s0 (execCollectiveTimeout q i s) := by
  unfold execCollectiveTimeout
  repeat' with_reducible first
    | assumption | intro _ | apply State.pruneCols_keeps | apply State.colTimeoutHit_keeps | apply KeepsR.next | exact KeepsR.fault | exact KeepsR.refused
    | apply KeepsR.onUnit | apply KeepsR.ite | apply Keeps.ite | apply Keeps.foldl | (simp only [Keeps.mk_iff]; apply Keeps.parts) | split | dsimp only

theorem execBroadcast_keeps {s0 : State} (q : Nat) (i : Nat) {s : State} (hs : Keeps s0 s) :
    KeepsR s0 (execBroadcast q i s) := by
  unfold execBroadcast
  repeat' with_reducible first
    | assumption | intro _ | apply State.collective_keeps | apply KeepsR.next | exact KeepsR.fault | exact KeepsR.refused | apply KeepsR.onUnit
    | apply KeepsR.ite | apply Keeps.ite | apply Keeps.foldl | (simp only [Keeps.mk_iff]; apply Keeps.parts) | split | dsimp only

theorem State.takeColData_keeps {s0 : State} {s : State} (m : FabMsg) (hs : Keeps s0 s) :
    Keeps s0 (State.takeColData s m) := by
  unfold State.takeColData
  repeat' with_reducible first
    | assumption | intro _
    | (extract_lets +onlyGivenNames x; clear_value (hx : x = _); first | refine Keeps.bind (s := s0) hx ?_ (fun _ => ?_) | (refine Keeps.isFaults x ?_; subst hx) | skip)
    | apply State.checkChunk_keeps | apply State.count_keeps | apply Keeps.ite | apply Keeps.foldl | (simp only [Keeps.mk_iff]; apply Keeps.parts) | split
    | dsimp only

theorem execColData_keeps {s0 : State} (k : Nat) {s : State} (hs : Keeps s0 s) :
    KeepsR s0 (execColData k s) := by
  unfold execColData
  repeat' with_reducible first
    | assumption | intro _ | apply State.pruneCols_keeps | apply State.takeColData_keeps | apply State.onMsg_keeps | apply KeepsR.next
    | exact KeepsR.fault | exact KeepsR.refused | apply KeepsR.onUnit | apply KeepsR.ite | apply Keeps.ite | apply Keeps.foldl
    | (simp only [Keeps.mk_iff]; apply Keeps.parts) | split | dsimp only

theorem execColCtrl_keeps {s0 : State} (k : Nat) {s : State} (hs : Keeps s0 s) :
    KeepsR s0 (execColCtrl k s) := by
  unfold execColCtrl
  repeat' with_reducible first
    | assumption | intro _ | apply State.pruneCols_keeps | apply State.onMsg_keeps | apply State.takeCtrl_keeps | apply KeepsR.next | exact KeepsR.fault
    | exact KeepsR.refused | apply KeepsR.onUnit | apply KeepsR.ite | apply Keeps.ite | apply Keeps.foldl | (simp only [Keeps.mk_iff]; apply Keeps.parts)
    | split | dsimp only

theorem execReduceScatter_keeps {s0 : State} (q : Nat) (i : Nat) {s : State} (hs : Keeps s0 s) :
    KeepsR s0 (execReduceScatter q i s) := by
  unfold execReduceScatter
  repeat' with_reducible first
    | assumption | intro _ | apply State.collective_keeps | apply KeepsR.next | exact KeepsR.fault | exact KeepsR.refused | apply KeepsR.onUnit
    | apply KeepsR.ite | apply Keeps.ite | apply Keeps.foldl | (simp only [Keeps.mk_iff]; apply Keeps.parts) | split | dsimp only

theorem execBarrier_keeps {s0 : State} (q : Nat) (i : Nat) {s : State} (hs : Keeps s0 s) :
    KeepsR s0 (execBarrier q i s) := by
  unfold execBarrier
  repeat' with_reducible first
    | assumption | intro _ | apply State.collective_keeps | apply KeepsR.next | exact KeepsR.fault | exact KeepsR.refused | apply KeepsR.onUnit
    | apply KeepsR.ite | apply Keeps.ite | apply Keeps.foldl | (simp only [Keeps.mk_iff]; apply Keeps.parts) | split | dsimp only

theorem execChunkResend_keeps {s0 : State} (q : Nat) (i : Nat) {s : State} (hs : Keeps s0 s) :
    KeepsR s0 (execChunkResend q i s) := by
  unfold execChunkResend
  repeat' with_reducible first
    | assumption | intro _ | apply State.pruneCols_keeps | apply State.resendChunks_keeps | apply KeepsR.next | exact KeepsR.fault | exact KeepsR.refused
    | apply KeepsR.onUnit | apply KeepsR.ite | apply Keeps.ite | apply Keeps.foldl | (simp only [Keeps.mk_iff]; apply Keeps.parts) | split | dsimp only

theorem execAlltoallv_keeps {s0 : State} (q : Nat) (i : Nat) {s : State} (hs : Keeps s0 s) :
    KeepsR s0 (execAlltoallv q i s) := by
  unfold execAlltoallv
  repeat' with_reducible first
    | assumption | intro _ | apply State.collective_keeps | apply KeepsR.next | exact KeepsR.fault | exact KeepsR.refused | apply KeepsR.onUnit
    | apply KeepsR.ite | apply Keeps.ite | apply Keeps.foldl | (simp only [Keeps.mk_iff]; apply Keeps.parts) | split | dsimp only

theorem execColAck_keeps {s0 : State} (k : Nat) {s : State} (hs : Keeps s0 s) :
    KeepsR s0 (execColAck k s) := by
  unfold execColAck
  repeat' with_reducible first
    | assumption | intro _ | apply State.takeAck_keeps | apply State.pruneCols_keeps | apply State.onMsg_keeps | apply KeepsR.next | exact KeepsR.fault
    | exact KeepsR.refused | apply KeepsR.onUnit | apply KeepsR.ite | apply Keeps.ite | apply Keeps.foldl | (simp only [Keeps.mk_iff]; apply Keeps.parts)
    | split | dsimp only

theorem execReduce_keeps {s0 : State} (q : Nat) (i : Nat) {s : State} (hs : Keeps s0 s) :
    KeepsR s0 (execReduce q i s) := by
  unfold execReduce
  repeat' with_reducible first
    | assumption | intro _ | apply State.collective_keeps | apply KeepsR.next | exact KeepsR.fault | exact KeepsR.refused | apply KeepsR.onUnit
    | apply KeepsR.ite | apply Keeps.ite | apply Keeps.foldl | (simp only [Keeps.mk_iff]; apply Keeps.parts) | split | dsimp only

theorem execColReady_keeps {s0 : State} (k : Nat) {s : State} (hs : Keeps s0 s) :
    KeepsR s0 (execColReady k s) := by
  unfold execColReady
  repeat' with_reducible first
    | assumption | intro _ | apply State.pruneCols_keeps | apply State.takeReady_keeps | apply State.onMsg_keeps | apply KeepsR.next | exact KeepsR.fault
    | exact KeepsR.refused | apply KeepsR.onUnit | apply KeepsR.ite | apply Keeps.ite | apply Keeps.foldl | (simp only [Keeps.mk_iff]; apply Keeps.parts)
    | split | dsimp only

theorem execAllreduce_keeps {s0 : State} (q : Nat) (i : Nat) {s : State} (hs : Keeps s0 s) :
    KeepsR s0 (execAllreduce q i s) := by
  unfold execAllreduce
  repeat' with_reducible first
    | assumption | intro _ | apply State.collective_keeps | apply KeepsR.next | exact KeepsR.fault | exact KeepsR.refused | apply KeepsR.onUnit
    | apply KeepsR.ite | apply Keeps.ite | apply Keeps.foldl | (simp only [Keeps.mk_iff]; apply Keeps.parts) | split | dsimp only

end Sys2Proof.Machine
end

