-- ==== Sys2Proof/Laws/KeepsSteps.lean ====
section
/-!
SUPPORT. The operations of Machine/Steps.lean leave the queue alone and keep the invariant (Laws/Keeps.lean).
-/

set_option linter.all false

namespace Sys2Proof.Machine

theorem State.hwWrite_keeps {s0 : State} {s : State} (f : Nat) (a : Nat) (bs : List Byte) (hs : Keeps s0 s) :
    Keeps s0 (State.hwWrite s f a bs) := by
  unfold State.hwWrite
  repeat' with_reducible first
    | assumption | intro _ | apply State.purgeRange_keeps | apply State.sealWrite_keeps | apply State.traffic_keeps | apply Keeps.ite | apply Keeps.foldl
    | (simp only [Keeps.mk_iff]; apply Keeps.parts) | split | dsimp only

theorem State.commitWatch_keeps {s0 : State} {s : State} (f : Nat) (w : Nat) (hs : Keeps s0 s) :
    Keeps s0 (State.commitWatch s f w) := by
  unfold State.commitWatch
  repeat' with_reducible first
    | assumption | intro _
    | (extract_lets +onlyGivenNames x; clear_value (hx : x = _); first | refine Keeps.bind (s := s0) hx ?_ (fun _ => ?_) | (refine Keeps.isFaults x ?_; subst hx) | skip)
    | apply State.hwWrite_keeps | apply State.count_keeps | apply Keeps.ite | apply Keeps.foldl | (simp only [Keeps.mk_iff]; apply Keeps.parts) | split
    | dsimp only

theorem State.sendDecision_keeps {s0 : State} {s : State} (f : Nat) (m : Comm) (down : Bool) (src : Nat) (dst : Nat) (c : Contrib) (hs : Keeps s0 s) :
    Keeps s0 (State.sendDecision s f m down src dst c) := by
  unfold State.sendDecision
  repeat' with_reducible first
    | assumption | intro _ | apply State.sendMsg_keeps | apply Keeps.ite | apply Keeps.foldl | (simp only [Keeps.mk_iff]; apply Keeps.parts) | split
    | dsimp only

theorem State.passDown_keeps {s0 : State} {s : State} (f : Nat) (m : Comm) (d : Decision) (hs : Keeps s0 s) :
    Keeps s0 (State.passDown s f m d) := by
  unfold State.passDown
  repeat' with_reducible first
    | assumption | intro _ | apply State.sendDecision_keeps | apply Keeps.ite | apply Keeps.foldl | (simp only [Keeps.mk_iff]; apply Keeps.parts) | split
    | dsimp only

theorem State.restore_keeps {s0 : State} {s : State} (f : Nat) (q : Nat) (i : Nat) (hs : Keeps s0 s) :
    Keeps s0 (State.restore s f q i) := by
  unfold State.restore
  repeat' with_reducible first
    | assumption | intro _
    | (extract_lets +onlyGivenNames x; clear_value (hx : x = _); first | refine Keeps.bind (s := s0) hx ?_ (fun _ => ?_) | refine Keeps.bindJob (s := s0) hx ?_ (fun _ => ?_) | refine Keeps.bindRes (s := s0) hx ?_ (fun _ => ?_) | (refine Keeps.isFaults x ?_; subst hx) | skip)
    | apply State.modCore_keeps | apply State.setFld_keeps | apply State.setSem_keeps | apply State.setSeedpos_keeps | apply State.refreshHeads_keeps
    | apply State.runJob_keeps | apply Keeps.ite | apply Keeps.foldl | (simp only [Keeps.mk_iff]; apply Keeps.parts) | apply Keeps.iteJob
    | apply Keeps.foldlJob | split | dsimp only

theorem State.clearWatches_keeps {s0 : State} {s : State} (f : Nat) (hs : Keeps s0 s) :
    Keeps s0 (State.clearWatches s f) := by
  unfold State.clearWatches
  repeat' with_reducible first
    | assumption | intro _ | apply State.hwWrite_keeps | apply Keeps.ite | apply Keeps.foldl | (simp only [Keeps.mk_iff]; apply Keeps.parts) | split
    | dsimp only

theorem State.setStep_keeps {s0 : State} {s : State} (f : Nat) (st : Nat) (hs : Keeps s0 s) :
    Keeps s0 (State.setStep s f st) := by
  unfold State.setStep
  repeat' with_reducible first
    | assumption | intro _ | apply State.setFld_keeps | apply Keeps.ite | apply Keeps.foldl | (simp only [Keeps.mk_iff]; apply Keeps.parts) | split
    | dsimp only

theorem State.watchEffects_keeps {s0 : State} {s : State} (f : Nat) (na : Nat) (ws : List Nat) (hs : Keeps s0 s) :
    Keeps s0 (State.watchEffects s f na ws) := by
  unfold State.watchEffects
  repeat' with_reducible first
    | assumption | intro _
    | (extract_lets +onlyGivenNames x; clear_value (hx : x = _); first | refine Keeps.bind (s := s0) hx ?_ (fun _ => ?_) | (refine Keeps.isFaults x ?_; subst hx) | skip)
    | apply State.hwWrite_keeps | apply Keeps.ite | apply Keeps.foldl | (simp only [Keeps.mk_iff]; apply Keeps.parts) | split | dsimp only

theorem State.openAttempt_keeps {s0 : State} {s : State} (f : Nat) (attempt : Nat) (hs : Keeps s0 s) :
    Keeps s0 (State.openAttempt s f attempt) := by
  unfold State.openAttempt
  repeat' with_reducible first
    | assumption | intro _
    | (extract_lets +onlyGivenNames x; clear_value (hx : x = _); first | refine Keeps.bind (s := s0) hx ?_ (fun _ => ?_) | (refine Keeps.isFaults x ?_; subst hx) | skip)
    | apply State.setReg_keeps | apply State.setStep_keeps | apply State.setFld_keeps | apply State.setCause_keeps | apply State.modDomain_keeps
    | apply Keeps.ite | apply Keeps.foldl | (simp only [Keeps.mk_iff]; apply Keeps.parts) | split | dsimp only

theorem State.stepRecord_keeps {s0 : State} {s : State} (f : Nat) (step : Nat) (outcome : Nat) (causes : Nat) (localCauses : Nat) (bc : Nat) (flip : Nat) (hs : Keeps s0 s) :
    Keeps s0 (State.stepRecord s f step outcome causes localCauses bc flip) := by
  unfold State.stepRecord
  repeat' with_reducible first
    | assumption | intro _ | apply State.hwWrite_keeps | apply State.draw_keeps | apply Keeps.ite | apply Keeps.foldl | (simp only [Keeps.mk_iff]; apply Keeps.parts) | split
    | dsimp only

theorem State.abort_keeps {s0 : State} {s : State} (f : Nat) (q : Nat) (i : Nat) (action : Nat) (causes : Nat) (bc : Nat) (policy : Bool) (hs : Keeps s0 s) :
    Keeps s0 (State.abort s f q i action causes bc policy) := by
  unfold State.abort
  repeat' with_reducible first
    | assumption | intro _
    | (extract_lets +onlyGivenNames x; clear_value (hx : x = _); first | refine Keeps.bind (s := s0) hx ?_ (fun _ => ?_) | (refine Keeps.isFaults x ?_; subst hx) | skip)
    | apply State.setReg_keeps | apply State.restore_keeps | apply State.clearWatches_keeps | apply State.setStep_keeps | apply State.setFld_keeps
    | apply State.watchEffects_keeps | apply State.endFlight_keeps | apply State.openAttempt_keeps | apply State.stepRecord_keeps
    | apply State.count_keeps | apply State.modDomain_keeps | apply Keeps.ite | apply Keeps.foldl | (simp only [Keeps.mk_iff]; apply Keeps.parts) | split
    | dsimp only

theorem State.commitMaps_keeps {s0 : State} {s : State} (f : Nat) (hs : Keeps s0 s) :
    Keeps s0 (State.commitMaps s f) := by
  unfold State.commitMaps
  repeat' with_reducible first
    | assumption | intro _
    | (extract_lets +onlyGivenNames x; clear_value (hx : x = _); first | refine Keeps.bind (s := s0) hx ?_ (fun _ => ?_) | (refine Keeps.isFaults x ?_; subst hx) | skip)
    | apply State.hwWrite_keeps | apply Keeps.ite | apply Keeps.foldl | (simp only [Keeps.mk_iff]; apply Keeps.parts) | split | dsimp only

theorem State.flip_keeps {s0 : State} {s : State} (f : Nat) (d : Decision) (hs : Keeps s0 s) :
    Keeps s0 (State.flip s f d) := by
  unfold State.flip
  repeat' with_reducible first
    | assumption | intro _
    | (extract_lets +onlyGivenNames x; clear_value (hx : x = _); first | refine Keeps.bind (s := s0) hx ?_ (fun _ => ?_) | (refine Keeps.isFaults x ?_; subst hx) | skip)
    | apply State.setReg_keeps | apply State.setStep_keeps | apply State.setFld_keeps | apply State.commitWatch_keeps | apply State.hwWrite_keeps
    | apply State.endFlight_keeps | apply State.commitMaps_keeps | apply State.stepRecord_keeps | apply State.count_keeps | apply State.modDomain_keeps
    | apply Keeps.ite | apply Keeps.foldl | (simp only [Keeps.mk_iff]; apply Keeps.parts) | split | dsimp only

theorem State.noteStepSlip_keeps {s0 : State} {s : State} (f : Nat) (q : Nat) (i : Nat) (hs : Keeps s0 s) :
    Keeps s0 (State.noteStepSlip s f q i) := by
  unfold State.noteStepSlip
  repeat' with_reducible first
    | assumption | intro _
    | (extract_lets +onlyGivenNames x; clear_value (hx : x = _); first | refine Keeps.bind (s := s0) hx ?_ (fun _ => ?_) | (refine Keeps.isFaults x ?_; subst hx) | skip)
    | apply State.setReg_keeps | apply State.count_keeps | apply Keeps.ite | apply Keeps.foldl | (simp only [Keeps.mk_iff]; apply Keeps.parts) | split
    | dsimp only

theorem State.stepDecide_keeps {s0 : State} {s : State} (f : Nat) (d : Decision) (hs : Keeps s0 s) :
    Keeps s0 (State.stepDecide s f d) := by
  unfold State.stepDecide
  repeat' with_reducible first
    | assumption | intro _
    | (extract_lets +onlyGivenNames x; clear_value (hx : x = _); first | refine Keeps.bind (s := s0) hx ?_ (fun _ => ?_) | (refine Keeps.isFaults x ?_; subst hx) | skip)
    | apply State.abort_keeps | apply State.flip_keeps | apply State.noteStepSlip_keeps | apply State.count_keeps | apply State.modDomain_keeps
    | apply Keeps.ite | apply Keeps.foldl | (simp only [Keeps.mk_iff]; apply Keeps.parts) | split | dsimp only

theorem State.stepReduce_keeps {s0 : State} {s : State} (f : Nat) (hs : Keeps s0 s) :
    Keeps s0 (State.stepReduce s f) := by
  unfold State.stepReduce
  repeat' with_reducible first
    | assumption | intro _
    | (extract_lets +onlyGivenNames x; clear_value (hx : x = _); first | refine Keeps.bind (s := s0) hx ?_ (fun _ => ?_) | (refine Keeps.isFaults x ?_; subst hx) | skip)
    | apply State.passDown_keeps | apply State.stepDecide_keeps | apply State.sendDecision_keeps | apply State.modDomain_keeps | apply Keeps.ite
    | apply Keeps.foldl | (simp only [Keeps.mk_iff]; apply Keeps.parts) | split | dsimp only

theorem State.alarm_keeps {s0 : State} {s : State} (f : Nat) (w : Nat) (n : Nat) (bit : Nat) (hs : Keeps s0 s) :
    Keeps s0 (State.alarm s f w n bit) := by
  unfold State.alarm
  repeat' with_reducible first
    | assumption | intro _
    | (extract_lets +onlyGivenNames x; clear_value (hx : x = _); first | refine Keeps.bind (s := s0) hx ?_ (fun _ => ?_) | (refine Keeps.isFaults x ?_; subst hx) | skip)
    | apply State.addSem_keeps | apply State.setCause_keeps | apply State.hwWrite_keeps | apply State.refreshHeads_keeps | apply State.count_keeps
    | apply State.modDomain_keeps | apply State.event_keeps | apply Keeps.ite | apply Keeps.foldl | (simp only [Keeps.mk_iff]; apply Keeps.parts) | split
    | dsimp only

theorem State.stepSample_keeps {s0 : State} {s : State} (f : Nat) (hs : Keeps s0 s) :
    Keeps s0 (State.stepSample s f) := by
  unfold State.stepSample
  repeat' with_reducible first
    | assumption | intro _
    | (extract_lets +onlyGivenNames x; clear_value (hx : x = _); first | refine Keeps.bind (s := s0) hx ?_ (fun _ => ?_) | (refine Keeps.isFaults x ?_; subst hx) | skip)
    | apply State.setStep_keeps | apply State.setCause_keeps | apply State.stepDecide_keeps | apply State.stepReduce_keeps | apply State.modDomain_keeps
    | apply Keeps.ite | apply Keeps.foldl | (simp only [Keeps.mk_iff]; apply Keeps.parts) | split | dsimp only

theorem execStepCommitSample_keeps {s0 : State} (f : Nat) {s : State} (hs : Keeps s0 s) :
    KeepsR s0 (execStepCommitSample f s) := by
  unfold execStepCommitSample
  repeat' with_reducible first
    | assumption | intro _ | apply onUnit_keeps | apply State.stepSample_keeps | apply KeepsR.next | exact KeepsR.fault | exact KeepsR.refused
    | apply KeepsR.onUnit | apply KeepsR.ite | apply Keeps.ite | apply Keeps.foldl | (simp only [Keeps.mk_iff]; apply Keeps.parts) | split | dsimp only

theorem State.evalWatch_keeps {s0 : State} {s : State} (f : Nat) (w : Nat) (hs : Keeps s0 s) :
    Keeps s0 (State.evalWatch s f w) := by
  unfold State.evalWatch
  repeat' with_reducible first
    | assumption | intro _
    | (extract_lets +onlyGivenNames x; clear_value (hx : x = _); first | refine Keeps.bind (s := s0) hx ?_ (fun _ => ?_) | (refine Keeps.isFaults x ?_; subst hx) | skip)
    | apply State.hwWrite_keeps | apply State.alarm_keeps | apply State.count_keeps | apply Keeps.ite | apply Keeps.foldl
    | (simp only [Keeps.mk_iff]; apply Keeps.parts) | split | dsimp only

theorem State.stepCommit_keeps {s0 : State} {s : State} (fl : Flight) (hs : Keeps s0 s) :
    Keeps s0 (State.stepCommit s fl) := by
  unfold State.stepCommit
  repeat' with_reducible first
    | assumption | intro _
    | (extract_lets +onlyGivenNames x; clear_value (hx : x = _); first | refine Keeps.bind (s := s0) hx ?_ (fun _ => ?_) | (refine Keeps.isFaults x ?_; subst hx) | skip)
    | apply State.endFlight_keeps | apply State.modDomain_keeps | apply Keeps.ite | apply Keeps.foldl | (simp only [Keeps.mk_iff]; apply Keeps.parts)
    | split | dsimp only

theorem execStepCommit_keeps {s0 : State} (q : Nat) (i : Nat) {s : State} (hs : Keeps s0 s) :
    KeepsR s0 (execStepCommit q i s) := by
  unfold execStepCommit
  repeat' with_reducible first
    | assumption | intro _ | apply State.stepCommit_keeps | apply State.dispatch_keeps | apply KeepsR.next | exact KeepsR.fault | exact KeepsR.refused
    | apply KeepsR.onUnit | apply KeepsR.ite | apply Keeps.ite | apply Keeps.foldl | (simp only [Keeps.mk_iff]; apply Keeps.parts) | split | dsimp only

theorem execHaltClr_keeps {s0 : State} (f : Nat) {s : State} (hs : Keeps s0 s) :
    KeepsR s0 (execHaltClr f s) := by
  unfold execHaltClr
  repeat' with_reducible first
    | assumption | intro _ | apply State.setStep_keeps | apply onUnit_keeps | apply KeepsR.next | exact KeepsR.fault | exact KeepsR.refused
    | apply KeepsR.onUnit | apply KeepsR.ite | apply Keeps.ite | apply Keeps.foldl | (simp only [Keeps.mk_iff]; apply Keeps.parts) | split | dsimp only

theorem State.takePart_keeps {s0 : State} {s : State} (f : Nat) (w : Nat) (p : Nat) (sum : Nat) (hs : Keeps s0 s) :
    Keeps s0 (State.takePart s f w p sum) := by
  unfold State.takePart
  repeat' with_reducible first
    | assumption | intro _
    | (extract_lets +onlyGivenNames x; clear_value (hx : x = _); first | refine Keeps.bind (s := s0) hx ?_ (fun _ => ?_) | (refine Keeps.isFaults x ?_; subst hx) | skip)
    | apply State.hwWrite_keeps | apply State.evalWatch_keeps | apply Keeps.ite | apply Keeps.foldl | (simp only [Keeps.mk_iff]; apply Keeps.parts)
    | split | dsimp only

theorem State.normPart_keeps {s0 : State} {s : State} (q : Nat) (i : Nat) (stop : Option Nat) (fl : Flight) (hs : Keeps s0 s) :
    Keeps s0 (State.normPart s q i stop fl) := by
  unfold State.normPart
  repeat' with_reducible first
    | assumption | intro _
    | (extract_lets +onlyGivenNames x; clear_value (hx : x = _); first | refine Keeps.bind (s := s0) hx ?_ (fun _ => ?_) | refine Keeps.bindJob (s := s0) hx ?_ (fun _ => ?_) | refine Keeps.bindRes (s := s0) hx ?_ (fun _ => ?_) | (refine Keeps.isFaults x ?_; subst hx) | skip)
    | apply State.takePart_keeps | apply State.runJob_keeps | apply JobResult.finish_keeps | apply Keeps.ite | apply Keeps.foldl
    | (simp only [Keeps.mk_iff]; apply Keeps.parts) | apply Keeps.iteJob | apply Keeps.foldlJob | split | dsimp only

theorem State.commitTimeout_keeps {s0 : State} {s : State} (f : Nat) (hs : Keeps s0 s) :
    Keeps s0 (State.commitTimeout s f) := by
  unfold State.commitTimeout
  repeat' with_reducible first
    | assumption | intro _
    | (extract_lets +onlyGivenNames x; clear_value (hx : x = _); first | refine Keeps.bind (s := s0) hx ?_ (fun _ => ?_) | (refine Keeps.isFaults x ?_; subst hx) | skip)
    | apply State.setStep_keeps | apply State.setFld_keeps | apply State.endFlight_keeps | apply State.stepRecord_keeps | apply State.modDomain_keeps
    | apply Keeps.ite | apply Keeps.foldl | (simp only [Keeps.mk_iff]; apply Keeps.parts) | split | dsimp only

theorem execCommitFlip_keeps {s0 : State} (f : Nat) {s : State} (hs : Keeps s0 s) :
    KeepsR s0 (execCommitFlip f s) := by
  unfold execCommitFlip
  repeat' with_reducible first
    | assumption | intro _ | apply onUnit_keeps | apply State.flip_keeps | apply KeepsR.next | exact KeepsR.fault | exact KeepsR.refused
    | apply KeepsR.onUnit | apply KeepsR.ite | apply Keeps.ite | apply Keeps.foldl | (simp only [Keeps.mk_iff]; apply Keeps.parts) | split | dsimp only

theorem execStepAbort_keeps {s0 : State} (q : Nat) (i : Nat) {s : State} (hs : Keeps s0 s) :
    KeepsR s0 (execStepAbort q i s) := by
  unfold execStepAbort
  repeat' with_reducible first
    | assumption | intro _ | apply State.abort_keeps | apply State.dispatch_keeps | apply State.endFlight_keeps | apply KeepsR.next | exact KeepsR.fault
    | exact KeepsR.refused | apply KeepsR.onUnit | apply KeepsR.ite | apply Keeps.ite | apply Keeps.foldl | (simp only [Keeps.mk_iff]; apply Keeps.parts)
    | split | dsimp only

theorem State.takeDecision_keeps {s0 : State} {s : State} (m : FabMsg) (hs : Keeps s0 s) :
    Keeps s0 (State.takeDecision s m) := by
  unfold State.takeDecision
  repeat' with_reducible first
    | assumption | intro _
    | (extract_lets +onlyGivenNames x; clear_value (hx : x = _); first | refine Keeps.bind (s := s0) hx ?_ (fun _ => ?_) | (refine Keeps.isFaults x ?_; subst hx) | skip)
    | apply State.passDown_keeps | apply State.stepDecide_keeps | apply State.sendDecision_keeps | apply State.stepReduce_keeps
    | apply State.modDomain_keeps | apply Keeps.ite | apply Keeps.foldl | (simp only [Keeps.mk_iff]; apply Keeps.parts) | split | dsimp only

theorem execColDecision_keeps {s0 : State} (k : Nat) {s : State} (hs : Keeps s0 s) :
    KeepsR s0 (execColDecision k s) := by
  unfold execColDecision
  repeat' with_reducible first
    | assumption | intro _ | apply State.onMsg_keeps | apply State.takeDecision_keeps | apply KeepsR.next | exact KeepsR.fault | exact KeepsR.refused
    | apply KeepsR.onUnit | apply KeepsR.ite | apply Keeps.ite | apply Keeps.foldl | (simp only [Keeps.mk_iff]; apply Keeps.parts) | split | dsimp only

theorem execCommitTimeout_keeps {s0 : State} (f : Nat) {s : State} (hs : Keeps s0 s) :
    KeepsR s0 (execCommitTimeout f s) := by
  unfold execCommitTimeout
  repeat' with_reducible first
    | assumption | intro _ | apply onUnit_keeps | apply State.commitTimeout_keeps | apply KeepsR.next | exact KeepsR.fault | exact KeepsR.refused
    | apply KeepsR.onUnit | apply KeepsR.ite | apply Keeps.ite | apply Keeps.foldl | (simp only [Keeps.mk_iff]; apply Keeps.parts) | split | dsimp only

theorem execNormWatch_keeps {s0 : State} (q : Nat) (i : Nat) (stop : Option Nat) {s : State} (hs : Keeps s0 s) :
    KeepsR s0 (execNormWatch q i stop s) := by
  unfold execNormWatch
  repeat' with_reducible first
    | assumption | intro _ | apply State.normPart_keeps | apply State.dispatch_keeps | apply KeepsR.next | exact KeepsR.fault | exact KeepsR.refused
    | apply KeepsR.onUnit | apply KeepsR.ite | apply Keeps.ite | apply Keeps.foldl | (simp only [Keeps.mk_iff]; apply Keeps.parts) | split | dsimp only

theorem State.stepBegin_keeps {s0 : State} {s : State} (fl : Flight) (hs : Keeps s0 s) :
    Keeps s0 (State.stepBegin s fl) := by
  unfold State.stepBegin
  repeat' with_reducible first
    | assumption | intro _
    | (extract_lets +onlyGivenNames x; clear_value (hx : x = _); first | refine Keeps.bind (s := s0) hx ?_ (fun _ => ?_) | refine Keeps.bindJob (s := s0) hx ?_ (fun _ => ?_) | refine Keeps.bindRes (s := s0) hx ?_ (fun _ => ?_) | (refine Keeps.isFaults x ?_; subst hx) | skip)
    | apply State.clearWatches_keeps | apply State.setFld_keeps | apply State.endFlight_keeps | apply State.openAttempt_keeps
    | apply State.stepRecord_keeps | apply State.runJob_keeps | apply State.modDomain_keeps | apply JobResult.finish_keeps | apply Keeps.ite
    | apply Keeps.foldl | (simp only [Keeps.mk_iff]; apply Keeps.parts) | apply Keeps.iteJob | apply Keeps.foldlJob | split | dsimp only

theorem execStepBegin_keeps {s0 : State} (q : Nat) (i : Nat) {s : State} (hs : Keeps s0 s) :
    KeepsR s0 (execStepBegin q i s) := by
  unfold execStepBegin
  repeat' with_reducible first
    | assumption | intro _ | apply State.dispatch_keeps | apply State.stepBegin_keeps | apply KeepsR.next | exact KeepsR.fault | exact KeepsR.refused
    | apply KeepsR.onUnit | apply KeepsR.ite | apply Keeps.ite | apply Keeps.foldl | (simp only [Keeps.mk_iff]; apply Keeps.parts) | split | dsimp only

end Sys2Proof.Machine
end

