-- ==== Sys2Proof/Laws/KeepsTime.lean ====
section
/-!
SUPPORT. The operations of Machine/Time.lean leave the queue alone and keep the invariant (Laws/Keeps.lean).
-/

set_option linter.all false

namespace Sys2Proof.Machine

theorem State.modBeat_keeps {s0 : State} {s : State} (g : BeatLogic → BeatLogic) (hs : Keeps s0 s) :
    Keeps s0 (State.modBeat s g) := by
  unfold State.modBeat
  repeat' with_reducible first
    | assumption | intro _ | apply Keeps.ite | apply Keeps.foldl | (simp only [Keeps.mk_iff]; apply Keeps.parts) | split | dsimp only

theorem State.originConflict_keeps {s0 : State} {s : State} (n : Nat) (other : Nat) (hs : Keeps s0 s) :
    Keeps s0 (State.originConflict s n other) := by
  unfold State.originConflict
  repeat' with_reducible first
    | assumption | intro _
    | (extract_lets +onlyGivenNames x; clear_value (hx : x = _); first | refine Keeps.bind (s := s0) hx ?_ (fun _ => ?_) | (refine Keeps.isFaults x ?_; subst hx) | skip)
    | apply State.modBeat_keeps | apply State.count_keeps | apply State.event_keeps | apply Keeps.ite | apply Keeps.foldl
    | (simp only [Keeps.mk_iff]; apply Keeps.parts) | split | dsimp only

theorem State.stepBy_keeps {s0 : State} {s : State} (d : Int) (hs : Keeps s0 s) :
    Keeps s0 (State.stepBy s d) := by
  unfold State.stepBy
  apply State.count_keeps
  exact Keeps.fields (hs.withBeat (by omega) (by simp only [psBeat]; omega))

theorem State.setBeatState_keeps {s0 : State} {s : State} (v : Nat) (hs : Keeps s0 s) :
    Keeps s0 (State.setBeatState s v) := by
  unfold State.setBeatState
  repeat' with_reducible first
    | assumption | intro _ | apply State.setFld_keeps | apply State.fabCounts_keeps | apply Keeps.ite | apply Keeps.foldl
    | (simp only [Keeps.mk_iff]; apply Keeps.parts) | split | dsimp only

theorem State.acquire_keeps {s0 : State} {s : State} (theta : Int) (hs : Keeps s0 s) :
    Keeps s0 (State.acquire s theta) := by
  unfold State.acquire
  repeat' with_reducible first
    | assumption | intro _
    | (extract_lets +onlyGivenNames x; clear_value (hx : x = _); first | refine Keeps.bind (s := s0) hx ?_ (fun _ => ?_) | (refine Keeps.isFaults x ?_; subst hx) | skip)
    | apply State.modBeat_keeps | apply State.stepBy_keeps | apply State.setBeatState_keeps | apply Keeps.ite | apply Keeps.foldl
    | (simp only [Keeps.mk_iff]; apply Keeps.parts) | split | dsimp only

theorem State.phase_keeps {s0 : State} {s : State} (ps : Nat) (hs : Keeps s0 s) :
    Keeps s0 (State.phase s ps) := by
  unfold State.phase
  split
  · next h => exact Keeps.fields (hs.withPs h.2)
  · exact hs

theorem State.pathCheck_keeps {s0 : State} {s : State} (hs : Keeps s0 s) :
    Keeps s0 (State.pathCheck s) := by
  unfold State.pathCheck
  repeat' with_reducible first
    | assumption | intro _
    | (extract_lets +onlyGivenNames x; clear_value (hx : x = _); first | refine Keeps.bind (s := s0) hx ?_ (fun _ => ?_) | (refine Keeps.isFaults x ?_; subst hx) | skip)
    | apply State.modBeat_keeps | apply State.setFld_keeps | apply State.setBeatState_keeps | apply Keeps.ite | apply Keeps.foldl
    | (simp only [Keeps.mk_iff]; apply Keeps.parts) | split | dsimp only

theorem execTrimUpdate_keeps {s0 : State} {s : State} (hs : Keeps s0 s) :
    KeepsR s0 (execTrimUpdate s) := by
  unfold execTrimUpdate
  repeat' with_reducible first
    | assumption | intro _
    | (extract_lets +onlyGivenNames x; clear_value (hx : x = _); first | refine Keeps.bind (s := s0) hx ?_ (fun _ => ?_) | refine Keeps.bindSnd (s := s0) hx ?_ (fun _ => ?_) | (refine Keeps.isFaults x ?_; subst hx) | skip)
    | apply State.setReg_keeps | apply State.draw_keeps | apply State.modBeat_keeps | apply State.setFld_keeps | apply State.pathCheck_keeps
    | apply KeepsR.next | exact KeepsR.fault | exact KeepsR.refused | apply KeepsR.onUnit | apply KeepsR.ite | apply Keeps.ite | apply Keeps.foldl
    | (simp only [Keeps.mk_iff]; apply Keeps.parts) | apply Keeps.iteFst | apply Keeps.iteSnd | refine Keeps.sndEq (by assumption) ?_ | split | dsimp only

theorem State.timeBeat_keeps {s0 : State} {s : State} (hs : Keeps s0 s) :
    Keeps s0 (State.timeBeat s) := by
  unfold State.timeBeat
  repeat' with_reducible first
    | assumption | intro _ | apply State.pathCheck_keeps | apply State.count_keeps | apply Keeps.ite | apply Keeps.foldl
    | (simp only [Keeps.mk_iff]; apply Keeps.parts) | split | dsimp only

theorem State.originStep_keeps {s0 : State} {s : State} (n : Nat) (theta : Int) (hs : Keeps s0 s) :
    Keeps s0 (State.originStep s n theta) := by
  unfold State.originStep
  repeat' with_reducible first
    | assumption | intro _
    | (extract_lets +onlyGivenNames x; clear_value (hx : x = _); first | refine Keeps.bind (s := s0) hx ?_ (fun _ => ?_) | (refine Keeps.isFaults x ?_; subst hx) | skip)
    | apply State.modBeat_keeps | apply State.stepBy_keeps | apply State.event_keeps | apply Keeps.ite | apply Keeps.foldl
    | (simp only [Keeps.mk_iff]; apply Keeps.parts) | split | dsimp only

theorem State.validSample_keeps {s0 : State} {s : State} (n : Nat) (m : FabMsg) (theta : Int) (hs : Keeps s0 s) :
    Keeps s0 (State.validSample s n m theta) := by
  unfold State.validSample
  repeat' with_reducible first
    | assumption | intro _
    | (extract_lets +onlyGivenNames x; clear_value (hx : x = _); first | refine Keeps.bind (s := s0) hx ?_ (fun _ => ?_) | (refine Keeps.isFaults x ?_; subst hx) | skip)
    | apply State.acquire_keeps | apply State.modBeat_keeps | apply State.pathCheck_keeps | apply State.originStep_keeps | apply State.count_keeps
    | apply Keeps.ite | apply Keeps.foldl | (simp only [Keeps.mk_iff]; apply Keeps.parts) | split | dsimp only

theorem execTimeReplyReceive_keeps {s0 : State} (k : Nat) (ps : Nat) {s : State} (hs : Keeps s0 s) :
    KeepsR s0 (execTimeReplyReceive k ps s) := by
  unfold execTimeReplyReceive
  repeat' with_reducible first
    | assumption | intro _
    | (extract_lets +onlyGivenNames x; clear_value (hx : x = _); first | refine Keeps.bind (s := s0) hx ?_ (fun _ => ?_) | (refine Keeps.isFaults x ?_; subst hx) | skip)
    | apply State.originConflict_keeps | apply State.validSample_keeps | apply State.modBeat_keeps | apply State.takeMsg_keeps
    | apply State.malformed_keeps | apply State.phase_keeps | apply State.count_keeps | apply KeepsR.next | exact KeepsR.fault | exact KeepsR.refused
    | apply KeepsR.onUnit | apply KeepsR.ite | apply Keeps.ite | apply Keeps.foldl | (simp only [Keeps.mk_iff]; apply Keeps.parts)
    | refine Keeps.optEq3 (by assumption) ?_ | split | dsimp only

theorem execAcquireTimeout_keeps {s0 : State} {s : State} (hs : Keeps s0 s) :
    KeepsR s0 (execAcquireTimeout s) := by
  unfold execAcquireTimeout
  repeat' with_reducible first
    | assumption | intro _ | apply State.setReg_keeps | apply State.modBeat_keeps | apply State.pathCheck_keeps | apply State.setBeatState_keeps
    | apply KeepsR.next | exact KeepsR.fault | exact KeepsR.refused | apply KeepsR.onUnit | apply KeepsR.ite | apply Keeps.ite | apply Keeps.foldl
    | (simp only [Keeps.mk_iff]; apply Keeps.parts) | split | dsimp only

theorem execTimeSyncReceive_keeps {s0 : State} (k : Nat) (ps : Nat) {s : State} (hs : Keeps s0 s) :
    KeepsR s0 (execTimeSyncReceive k ps s) := by
  unfold execTimeSyncReceive
  repeat' with_reducible first
    | assumption | intro _
    | (extract_lets +onlyGivenNames x; clear_value (hx : x = _); first | refine Keeps.bind (s := s0) hx ?_ (fun _ => ?_) | (refine Keeps.isFaults x ?_; subst hx) | skip)
    | apply State.takeMsg_keeps | apply State.malformed_keeps | apply State.sendLocal_keeps | apply State.phase_keeps | apply KeepsR.next
    | exact KeepsR.fault | exact KeepsR.refused | apply KeepsR.onUnit | apply KeepsR.ite | apply Keeps.ite | apply Keeps.foldl
    | (simp only [Keeps.mk_iff]; apply Keeps.parts) | refine Keeps.optEq3 (by assumption) ?_ | split | dsimp only

theorem State.syncLink_keeps {s0 : State} {s : State} (n : Nat) (hs : Keeps s0 s) :
    Keeps s0 (State.syncLink s n) := by
  unfold State.syncLink
  repeat' with_reducible first
    | assumption | intro _
    | (extract_lets +onlyGivenNames x; clear_value (hx : x = _); first | refine Keeps.bind (s := s0) hx ?_ (fun _ => ?_) | (refine Keeps.isFaults x ?_; subst hx) | skip)
    | apply State.modBeat_keeps | apply State.sendLocal_keeps | apply State.count_keeps | apply Keeps.ite | apply Keeps.foldl
    | (simp only [Keeps.mk_iff]; apply Keeps.parts) | split | dsimp only

theorem execTimeSyncSend_keeps {s0 : State} (ps : Nat) {s : State} (hs : Keeps s0 s) :
    KeepsR s0 (execTimeSyncSend ps s) := by
  unfold execTimeSyncSend
  repeat' with_reducible first
    | assumption | intro _
    | (extract_lets +onlyGivenNames x; clear_value (hx : x = _); first | refine Keeps.bind (s := s0) hx ?_ (fun _ => ?_) | (refine Keeps.isFaults x ?_; subst hx) | skip)
    | apply State.syncLink_keeps | apply State.modBeat_keeps | apply State.phase_keeps | apply KeepsR.next | exact KeepsR.fault | exact KeepsR.refused
    | apply KeepsR.onUnit | apply KeepsR.ite | apply Keeps.ite | apply Keeps.foldl | (simp only [Keeps.mk_iff]; apply Keeps.parts) | split | dsimp only

theorem execBeatNowRead_keeps {s0 : State} (ps : Nat) {s : State} (hs : Keeps s0 s) :
    KeepsR s0 (execBeatNowRead ps s) := by
  unfold execBeatNowRead
  repeat' with_reducible first
    | assumption | intro _
    | (extract_lets +onlyGivenNames x; clear_value (hx : x = _); first | refine Keeps.bind (s := s0) hx ?_ (fun _ => ?_) | (refine Keeps.isFaults x ?_; subst hx) | skip)
    | apply State.setFld_keeps | apply State.phase_keeps | apply State.send_keeps | apply KeepsR.next | exact KeepsR.fault | exact KeepsR.refused
    | apply KeepsR.onUnit | apply KeepsR.ite | apply Keeps.ite | apply Keeps.foldl | (simp only [Keeps.mk_iff]; apply Keeps.parts) | split | dsimp only

end Sys2Proof.Machine
end

