-- ==== Sys2Proof/Laws/KeepsCoreReqs.lean ====
section
/-!
SUPPORT. The operations of Machine/CoreReqs.lean leave the queue alone and keep the invariant (Laws/Keeps.lean).
-/

set_option linter.all false

namespace Sys2Proof.Machine

theorem State.fill_keeps {s0 : State} {s : State} (c : Nat) (r : CoreReq) (p : Nat) (data : List Byte) (hs : Keeps s0 s) :
    Keeps s0 (State.fill s c r p data) := by
  unfold State.fill
  repeat' with_reducible first
    | assumption | intro _
    | (extract_lets +onlyGivenNames x; clear_value (hx : x = _); first | refine Keeps.bind (s := s0) hx ?_ (fun _ => ?_) | (refine Keeps.isFaults x ?_; subst hx) | skip)
    | apply State.modCore_keeps | apply State.putBytes_keeps | apply Keeps.ite | apply Keeps.foldl | (simp only [Keeps.mk_iff]; apply Keeps.parts) | split
    | dsimp only

theorem State.sendCoh_keeps {s0 : State} {s : State} (m : CohMsg) (hs : Keeps s0 s) :
    Keeps s0 (State.sendCoh s m) := by
  unfold State.sendCoh
  repeat' with_reducible first
    | assumption | intro _
    | (extract_lets +onlyGivenNames x; clear_value (hx : x = _); first | refine Keeps.bind (s := s0) hx ?_ (fun _ => ?_) | (refine Keeps.isFaults x ?_; subst hx) | skip)
    | apply Keeps.ite | apply Keeps.foldl | (simp only [Keeps.mk_iff]; apply Keeps.parts) | split | dsimp only

theorem State.evictLine_keeps {s0 : State} {s : State} (k : Nat) (l : Nat) (hs : Keeps s0 s) :
    Keeps s0 (State.evictLine s k l) := by
  unfold State.evictLine
  repeat' with_reducible first
    | assumption | intro _
    | (extract_lets +onlyGivenNames x; clear_value (hx : x = _); first | refine Keeps.bind (s := s0) hx ?_ (fun _ => ?_) | (refine Keeps.isFaults x ?_; subst hx) | skip)
    | apply State.sendCoh_keeps | apply State.invalPf_keeps | apply State.setCLine_keeps | apply State.count_keeps | apply Keeps.ite | apply Keeps.foldl
    | (simp only [Keeps.mk_iff]; apply Keeps.parts) | split | dsimp only

theorem State.makeRoom_keeps {s0 : State} {s : State} (k : Nat) (l : Nat) (hs : Keeps s0 s) :
    KeepsO (fun x => x) s0 (State.makeRoom s k l) := by
  unfold State.makeRoom
  repeat' with_reducible first
    | assumption | intro _
    | (extract_lets +onlyGivenNames x; clear_value (hx : x = _); first | refine Keeps.bind (s := s0) hx ?_ (fun _ => ?_) | (refine Keeps.isFaults x ?_; subst hx) | skip)
    | apply State.evictLine_keeps | exact KeepsO.none | apply KeepsO.some | apply KeepsO.ite | apply Keeps.ite | apply Keeps.foldl
    | (simp only [Keeps.mk_iff]; apply Keeps.parts) | refine Keeps.optEq (by assumption) ?_ | apply Keeps.getD | split | dsimp only

theorem State.clusterRequest_keeps {s0 : State} {s : State} (kind : CohKind) (l : Nat) (k : Nat) (hs : Keeps s0 s) :
    Keeps s0 (State.clusterRequest s kind l k) := by
  unfold State.clusterRequest
  repeat' with_reducible first
    | assumption | intro _ | apply State.sendCoh_keeps | apply State.count_keeps | apply Keeps.ite | apply Keeps.foldl
    | (simp only [Keeps.mk_iff]; apply Keeps.parts) | split | dsimp only

theorem State.waitLine_keeps {s0 : State} {s : State} (c : Nat) (id : Nat) (l : Nat) (store : Bool) (hs : Keeps s0 s) :
    KeepsO (fun x => x) s0 (State.waitLine s c id l store) := by
  unfold State.waitLine
  repeat' with_reducible first
    | assumption | intro _
    | (extract_lets +onlyGivenNames x; clear_value (hx : x = _); first | refine Keeps.bind (s := s0) hx ?_ (fun _ => ?_) | (refine Keeps.isFaults x ?_; subst hx) | (refine Keeps.isFun x ?_; subst hx) | skip)
    | apply State.makeRoom_keeps | apply State.clusterRequest_keeps | apply State.setCLine_keeps | exact KeepsO.none | apply KeepsO.some
    | apply KeepsO.ite | apply Keeps.ite | apply Keeps.foldl | (simp only [Keeps.mk_iff]; apply Keeps.parts) | refine Keeps.optEq (by assumption) ?_
    | apply Keeps.getD | split | dsimp only

theorem State.ncRequest_keeps {s0 : State} {s : State} (kind : CohKind) (c : Nat) (id : Nat) (p : Nat) (data : List Byte) (hs : Keeps s0 s) :
    Keeps s0 (State.ncRequest s kind c id p data) := by
  unfold State.ncRequest
  repeat' with_reducible first
    | assumption | intro _ | apply State.sendCoh_keeps | apply State.count_keeps | apply Keeps.ite | apply Keeps.foldl
    | (simp only [Keeps.mk_iff]; apply Keeps.parts) | split | dsimp only

theorem State.insertPf_keeps {s0 : State} {s : State} (c : Nat) (a : Nat) (used : Bool) (hs : Keeps s0 s) :
    Keeps s0 (State.insertPf s c a used) := by
  unfold State.insertPf
  repeat' with_reducible first
    | assumption | intro _
    | (extract_lets +onlyGivenNames x; clear_value (hx : x = _); first | refine Keeps.bind (s := s0) hx ?_ (fun _ => ?_) | (refine Keeps.isFaults x ?_; subst hx) | skip)
    | apply State.setCore_keeps | apply State.count_keeps | apply Keeps.ite | apply Keeps.foldl | (simp only [Keeps.mk_iff]; apply Keeps.parts) | split
    | dsimp only

theorem State.groupDone_keeps {s0 : State} {s : State} (c : Nat) (group : Nat) (mvc : Nat) (hs : Keeps s0 s) :
    Keeps s0 (State.groupDone s c group mvc) := by
  unfold State.groupDone
  repeat' with_reducible first
    | assumption | intro _
    | (extract_lets +onlyGivenNames x; clear_value (hx : x = _); first | refine Keeps.bind (s := s0) hx ?_ (fun _ => ?_) | (refine Keeps.isFaults x ?_; subst hx) | skip)
    | apply State.modCore_keeps | apply Keeps.ite | apply Keeps.foldl | (simp only [Keeps.mk_iff]; apply Keeps.parts) | split | dsimp only

theorem State.finishReq_keeps {s0 : State} {s : State} (c : Nat) (r : CoreReq) (hs : Keeps s0 s) :
    Keeps s0 (State.finishReq s c r) := by
  unfold State.finishReq
  repeat' with_reducible first
    | assumption | intro _
    | (extract_lets +onlyGivenNames x; clear_value (hx : x = _); first | refine Keeps.bind (s := s0) hx ?_ (fun _ => ?_) | (refine Keeps.isFaults x ?_; subst hx) | skip)
    | apply State.groupDone_keeps | apply State.modCore_keeps | apply State.insertPf_keeps | apply Keeps.ite | apply Keeps.foldl
    | (simp only [Keeps.mk_iff]; apply Keeps.parts) | split | dsimp only

theorem State.writeThreadReg_keeps {s0 : State} {s : State} (c : Nat) (t : Nat) (r : Nat) (v : Nat) (hs : Keeps s0 s) :
    Keeps s0 (State.writeThreadReg s c t r v) := by
  unfold State.writeThreadReg
  repeat' with_reducible first
    | assumption | intro _ | apply State.modCore_keeps | apply Keeps.ite | apply Keeps.foldl | (simp only [Keeps.mk_iff]; apply Keeps.parts) | split
    | dsimp only

theorem State.programSettle_keeps {s0 : State} {s : State} (c : Nat) (hs : Keeps s0 s) :
    Keeps s0 (State.programSettle s c) := by
  unfold State.programSettle
  repeat' with_reducible first
    | assumption | intro _
    | (extract_lets +onlyGivenNames x; clear_value (hx : x = _); first | refine Keeps.bind (s := s0) hx ?_ (fun _ => ?_) | (refine Keeps.isFaults x ?_; subst hx) | skip)
    | apply State.modCore_keeps | apply State.settleMove_keeps | apply State.modFlight_keeps | apply State.sealBlocks_keeps | apply Keeps.ite
    | apply Keeps.foldl | (simp only [Keeps.mk_iff]; apply Keeps.parts) | split | dsimp only

theorem State.stopProgram_keeps {s0 : State} {s : State} (c : Nat) (st : Nat) (d : Nat) (hs : Keeps s0 s) :
    Keeps s0 (State.stopProgram s c st d) := by
  unfold State.stopProgram
  repeat' with_reducible first
    | assumption | intro _
    | (extract_lets +onlyGivenNames x; clear_value (hx : x = _); first | refine Keeps.bind (s := s0) hx ?_ (fun _ => ?_) | (refine Keeps.isFaults x ?_; subst hx) | skip)
    | apply State.modCore_keeps | apply State.programSettle_keeps | apply Keeps.ite | apply Keeps.foldl | (simp only [Keeps.mk_iff]; apply Keeps.parts)
    | split | dsimp only

theorem State.programBad_keeps {s0 : State} {s : State} (c : Nat) (w : Nat) (hs : Keeps s0 s) :
    Keeps s0 (State.programBad s c w) := by
  unfold State.programBad
  repeat' with_reducible first
    | assumption | intro _ | apply State.stopProgram_keeps | apply State.uncorrectable_keeps | apply Keeps.ite | apply Keeps.foldl
    | (simp only [Keeps.mk_iff]; apply Keeps.parts) | apply Keeps.iteFst | apply Keeps.iteSnd | refine Keeps.fstEq (by assumption) ?_ | split | dsimp only

theorem State.perform_keeps {s0 : State} {s : State} (c : Nat) (a : ThreadAcc) (poison : Option Nat) (hs : Keeps s0 s) :
    Keeps s0 (State.perform s c a poison) := by
  unfold State.perform
  repeat' with_reducible first
    | assumption | intro _ | apply State.plainWrite_keeps | apply State.stopProgram_keeps | apply State.programBad_keeps
    | apply State.writeThreadReg_keeps | apply State.putBytes_keeps | apply Keeps.ite | apply Keeps.foldl | (simp only [Keeps.mk_iff]; apply Keeps.parts)
    | split | dsimp only

theorem State.pieceDone_keeps {s0 : State} {s : State} (c : Nat) (id : Nat) (p : Nat) (hs : Keeps s0 s) :
    Keeps s0 (State.pieceDone s c id p) := by
  unfold State.pieceDone
  repeat' with_reducible first
    | assumption | intro _ | apply State.modCore_keeps | apply Keeps.ite | apply Keeps.foldl | (simp only [Keeps.mk_iff]; apply Keeps.parts) | split
    | dsimp only

theorem State.touchLine_keeps {s0 : State} {s : State} (k : Nat) (l : Nat) (hs : Keeps s0 s) :
    Keeps s0 (State.touchLine s k l) := by
  unfold State.touchLine
  repeat' with_reducible first
    | assumption | intro _
    | (extract_lets +onlyGivenNames x; clear_value (hx : x = _); first | refine Keeps.bind (s := s0) hx ?_ (fun _ => ?_) | (refine Keeps.isFaults x ?_; subst hx) | skip)
    | apply State.setCLine_keeps | apply Keeps.ite | apply Keeps.foldl | (simp only [Keeps.mk_iff]; apply Keeps.parts) | split | dsimp only

theorem State.dropAccs_keeps {s0 : State} {s : State} (c id : Nat) (hs : Keeps s0 s) :
    Keeps s0 (State.dropAccs s c id) := by
  unfold State.dropAccs
  repeat' with_reducible first
    | assumption | intro _ | apply State.modCore_keeps | apply Keeps.ite | apply Keeps.foldl | (simp only [Keeps.mk_iff]; apply Keeps.parts) | split | dsimp only

theorem State.noteWritten_keeps {s0 : State} {s : State} (c : Nat) (p : Nat) (n : Nat) (hs : Keeps s0 s) :
    Keeps s0 (State.noteWritten s c p n) := by
  unfold State.noteWritten
  repeat' with_reducible first
    | assumption | intro _ | apply State.modFlight_keeps | apply Keeps.ite | apply Keeps.foldl | (simp only [Keeps.mk_iff]; apply Keeps.parts) | split
    | dsimp only

theorem State.fillLocal_keeps {s0 : State} {s : State} (c : Nat) (r : CoreReq) (p : Nat) (n : Nat) (hs : Keeps s0 s) :
    Keeps s0 (State.fillLocal s c r p n) := by
  unfold State.fillLocal
  repeat' with_reducible first
    | assumption | intro _ | apply State.perform_keeps | apply State.modCore_keeps | apply State.dropAccs_keeps | apply State.pieceDone_keeps | apply State.fill_keeps | apply State.programBad_keeps | apply Keeps.ite | apply Keeps.foldl
    | (simp only [Keeps.mk_iff]; apply Keeps.parts) | split | dsimp only

theorem State.issuePiece_keeps {s0 : State} {s : State} (c : Nat) (r : CoreReq) (p : Nat) (hs : Keeps s0 s) :
    Keeps s0 (State.issuePiece s c r p) := by
  unfold State.issuePiece
  repeat' with_reducible first
    | assumption | intro _ | apply State.stopProgram_keeps | apply State.noteWritten_keeps
    | (extract_lets +onlyGivenNames x; clear_value (hx : x = _); first | refine Keeps.bind (s := s0) hx ?_ (fun _ => ?_) | (refine Keeps.isFaults x ?_; subst hx) | skip)
    | apply State.pieceDone_keeps | apply State.ncRequest_keeps | apply State.touchLine_keeps | apply State.request_keeps | apply State.setCLine_keeps
    | apply State.count_keeps | apply State.waitLine_keeps | apply State.putBytes_keeps | apply State.fillLocal_keeps | apply Keeps.ite
    | apply Keeps.foldl | (simp only [Keeps.mk_iff]; apply Keeps.parts) | refine Keeps.optEq (by assumption) ?_ | apply Keeps.getD | split | dsimp only

theorem State.issueReq_keeps {s0 : State} {s : State} (c : Nat) (r : CoreReq) (hs : Keeps s0 s) :
    Keeps s0 (State.issueReq s c r) := by
  unfold State.issueReq
  repeat' with_reducible first
    | assumption | intro _ | apply State.issuePiece_keeps | apply Keeps.ite | apply Keeps.foldl | (simp only [Keeps.mk_iff]; apply Keeps.parts) | split
    | dsimp only

theorem State.issueBulk_keeps {s0 : State} {s : State} (c : Nat) (b : Bulk) (rest : List Bulk) (hs : Keeps s0 s) :
    Keeps s0 (State.issueBulk s c b rest) := by
  unfold State.issueBulk
  repeat' with_reducible first
    | assumption | intro _
    | (extract_lets +onlyGivenNames x; clear_value (hx : x = _); first | refine Keeps.bind (s := s0) hx ?_ (fun _ => ?_) | (refine Keeps.isFaults x ?_; subst hx) | skip)
    | apply State.issueReq_keeps | apply State.setCore_keeps | apply Keeps.ite | apply Keeps.foldl | (simp only [Keeps.mk_iff]; apply Keeps.parts) | split
    | dsimp only

theorem State.churn1_keeps {s0 : State} {s : State} (c : Nat) (hs : Keeps s0 s) :
    KeepsO (fun x => x) s0 (State.churn1 s c) := by
  unfold State.churn1
  repeat' with_reducible first
    | assumption | intro _
    | (extract_lets +onlyGivenNames x; clear_value (hx : x = _); first | refine Keeps.bind (s := s0) hx ?_ (fun _ => ?_) | (refine Keeps.isFaults x ?_; subst hx) | skip)
    | apply State.issueBulk_keeps | apply State.finishReq_keeps | apply State.issueReq_keeps | apply State.setCore_keeps | exact KeepsO.none
    | apply KeepsO.some | apply KeepsO.ite | apply Keeps.ite | apply Keeps.foldl | (simp only [Keeps.mk_iff]; apply Keeps.parts)
    | refine Keeps.optEq (by assumption) ?_ | apply Keeps.getD | split | dsimp only

theorem State.churnN_keeps {s0 : State} {s : State} (c : Nat) (x3 : Nat) (hs : Keeps s0 s) :
    Keeps s0 (State.churnN s c x3) := by
  induction x3 generalizing s c with
  | zero =>
    unfold State.churnN
    repeat' with_reducible first
      | assumption | intro _ | apply State.programSettle_keeps | apply State.churn1_keeps | apply Keeps.ite | apply Keeps.foldl
      | (simp only [Keeps.mk_iff]; apply Keeps.parts) | refine Keeps.optEq (by assumption) ?_ | apply Keeps.getD | split | dsimp only
  | succ m ih =>
    unfold State.churnN
    repeat' with_reducible first
      | assumption | intro _ | apply State.programSettle_keeps | apply State.churn1_keeps | apply ih | apply Keeps.ite | apply Keeps.foldl
      | (simp only [Keeps.mk_iff]; apply Keeps.parts) | refine Keeps.optEq (by assumption) ?_ | apply Keeps.getD | split | dsimp only

theorem State.churn_keeps {s0 : State} {s : State} (c : Nat) (hs : Keeps s0 s) :
    Keeps s0 (State.churn s c) := by
  unfold State.churn
  repeat' with_reducible first
    | assumption | intro _ | apply State.churnN_keeps | apply Keeps.ite | apply Keeps.foldl | (simp only [Keeps.mk_iff]; apply Keeps.parts) | split
    | dsimp only

theorem State.serveAccs_keeps {s0 : State} {s : State} (c : Nat) (id : Nat) (l : Nat) (poison : Option Nat) (x6 : List ThreadAcc) (hs : Keeps s0 s) :
    Keeps s0 (State.serveAccs s c id l poison x6).1 := by
  induction x6 generalizing s c id l poison with
  | nil =>
    unfold State.serveAccs
    repeat' with_reducible first
      | assumption | intro _ | apply State.modCore_keeps | apply State.perform_keeps | apply State.setCLine_keeps | apply Keeps.ite
      | apply Keeps.foldl | (simp only [Keeps.mk_iff]; apply Keeps.parts) | apply Keeps.iteFst | apply Keeps.iteSnd | refine Keeps.fstEq (by assumption) ?_
      | split | dsimp only
  | cons y ys ih =>
    unfold State.serveAccs
    repeat' with_reducible first
      | assumption | intro _ | apply State.modCore_keeps | apply State.perform_keeps | apply State.setCLine_keeps | apply ih | apply Keeps.ite
      | apply Keeps.foldl | (simp only [Keeps.mk_iff]; apply Keeps.parts) | apply Keeps.iteFst | apply Keeps.iteSnd | refine Keeps.fstEq (by assumption) ?_
      | split | dsimp only

theorem State.serveWaiting_keeps {s0 : State} {s : State} (k : Nat) (l : Nat) (x4 : List (Nat × Nat)) (hs : Keeps s0 s) :
    Keeps s0 (State.serveWaiting s k l x4) := by
  induction x4 generalizing s k l with
  | nil =>
    unfold State.serveWaiting
    repeat' with_reducible first
      | assumption | intro _ | apply State.churn_keeps | apply State.pieceDone_keeps | apply State.setCLine_keeps | apply State.serveAccs_keeps
      | apply Keeps.ite | apply Keeps.foldl | (simp only [Keeps.mk_iff]; apply Keeps.parts) | apply Keeps.iteFst | apply Keeps.iteSnd
      | refine Keeps.fstEq (by assumption) ?_ | split | dsimp only
  | cons y ys ih =>
    unfold State.serveWaiting
    repeat' with_reducible first
      | assumption | intro _ | apply State.churn_keeps | apply State.pieceDone_keeps | apply State.setCLine_keeps | apply State.serveAccs_keeps | apply ih
      | apply Keeps.ite | apply Keeps.foldl | (simp only [Keeps.mk_iff]; apply Keeps.parts) | apply Keeps.iteFst | apply Keeps.iteSnd
      | refine Keeps.fstEq (by assumption) ?_ | split | dsimp only

end Sys2Proof.Machine
end

