-- ==== Sys2Proof/Laws/KeepsCoherence.lean ====
section
/-!
SUPPORT. The operations of Machine/Coherence.lean leave the queue alone and keep the invariant (Laws/Keeps.lean).
-/

set_option linter.all false

namespace Sys2Proof.Machine

theorem State.snoopAnswer_keeps {s0 : State} {s : State} (l : Nat) (k : Nat) (kind : CohKind) (dirty : Bool) (hs : Keeps s0 s) :
    Keeps s0 (State.snoopAnswer s l k kind dirty) := by
  unfold State.snoopAnswer
  repeat' with_reducible first
    | assumption | intro _
    | (extract_lets +onlyGivenNames x; clear_value (hx : x = _); first | refine Keeps.bind (s := s0) hx ?_ (fun _ => ?_) | (refine Keeps.isFaults x ?_; subst hx) | skip)
    | apply State.sendCoh_keeps | apply Keeps.ite | apply Keeps.foldl | (simp only [Keeps.mk_iff]; apply Keeps.parts) | split | dsimp only

theorem State.invalidated_keeps {s0 : State} {s : State} (l : Nat) (k : Nat) (hs : Keeps s0 s) :
    Keeps s0 (State.invalidated s l k) := by
  unfold State.invalidated
  repeat' with_reducible first
    | assumption | intro _ | apply State.invalPf_keeps | apply State.setCLine_keeps | apply State.count_keeps | apply Keeps.ite | apply Keeps.foldl
    | (simp only [Keeps.mk_iff]; apply Keeps.parts) | split | dsimp only

theorem State.answerSnoop_keeps {s0 : State} {s : State} (l : Nat) (k : Nat) (sn : SnoopKind) (hs : Keeps s0 s) :
    Keeps s0 (State.answerSnoop s l k sn) := by
  unfold State.answerSnoop
  repeat' with_reducible first
    | assumption | intro _
    | (extract_lets +onlyGivenNames x; clear_value (hx : x = _); first | refine Keeps.bind (s := s0) hx ?_ (fun _ => ?_) | (refine Keeps.isFaults x ?_; subst hx) | skip)
    | apply State.invalPf_keeps | apply State.setCLine_keeps | apply State.snoopAnswer_keeps | apply State.count_keeps | apply State.invalidated_keeps
    | apply Keeps.ite | apply Keeps.foldl | (simp only [Keeps.mk_iff]; apply Keeps.parts) | split | dsimp only

theorem State.takeCoh_keeps {s0 : State} {s : State} (p : CohMsg → Bool) (hs : Keeps s0 s) :
    KeepsO (fun x => x.2) s0 (State.takeCoh s p) := by
  unfold State.takeCoh
  repeat' with_reducible first
    | assumption | intro _
    | (extract_lets +onlyGivenNames x; clear_value (hx : x = _); first | refine Keeps.bind (s := s0) hx ?_ (fun _ => ?_) | (refine Keeps.isFaults x ?_; subst hx) | skip)
    | exact KeepsO.none | apply KeepsO.some | apply KeepsO.ite | apply Keeps.ite | apply Keeps.foldl | (simp only [Keeps.mk_iff]; apply Keeps.parts)
    | refine Keeps.optEq2 (by assumption) ?_ | split | dsimp only

theorem State.snoopRow_keeps {s0 : State} {s : State} (l : Nat) (k : Nat) (kind : CohKind) (sn : SnoopKind) (hs : Keeps s0 s) :
    Keeps s0 (State.snoopRow s l k kind sn) := by
  unfold State.snoopRow
  repeat' with_reducible first
    | assumption | intro _ | apply State.answerSnoop_keeps | apply State.takeCoh_keeps | apply State.count_keeps | apply Keeps.ite | apply Keeps.foldl
    | (simp only [Keeps.mk_iff]; apply Keeps.parts) | refine Keeps.optEq2 (by assumption) ?_ | split | dsimp only

theorem execSnprd_keeps {s0 : State} (l : Nat) (k : Nat) {s : State} (hs : Keeps s0 s) :
    KeepsR s0 (execSnprd l k s) := by
  unfold execSnprd
  repeat' with_reducible first
    | assumption | intro _ | apply State.snoopRow_keeps | apply onUnit_keeps | apply KeepsR.next | exact KeepsR.fault | exact KeepsR.refused
    | apply KeepsR.onUnit | apply KeepsR.ite | apply Keeps.ite | apply Keeps.foldl | (simp only [Keeps.mk_iff]; apply Keeps.parts) | split | dsimp only

theorem State.askAgain_keeps {s0 : State} {s : State} (l : Nat) (k : Nat) (hs : Keeps s0 s) :
    Keeps s0 (State.askAgain s l k) := by
  unfold State.askAgain
  repeat' with_reducible first
    | assumption | intro _
    | (extract_lets +onlyGivenNames x; clear_value (hx : x = _); first | refine Keeps.bind (s := s0) hx ?_ (fun _ => ?_) | (refine Keeps.isFaults x ?_; subst hx) | skip)
    | apply State.clusterRequest_keeps | apply State.setCLine_keeps | apply Keeps.ite | apply Keeps.foldl | (simp only [Keeps.mk_iff]; apply Keeps.parts)
    | split | dsimp only

theorem execWback_keeps {s0 : State} (l : Nat) (k : Nat) {s : State} (hs : Keeps s0 s) :
    KeepsR s0 (execWback l k s) := by
  unfold execWback
  repeat' with_reducible first
    | assumption | intro _
    | (extract_lets +onlyGivenNames x; clear_value (hx : x = _); first | refine Keeps.bind (s := s0) hx ?_ (fun _ => ?_) | (refine Keeps.isFaults x ?_; subst hx) | skip)
    | apply State.askAgain_keeps | apply onUnit_keeps | apply State.takeCoh_keeps | apply State.setCLine_keeps | apply KeepsR.next | exact KeepsR.fault
    | exact KeepsR.refused | apply KeepsR.onUnit | apply KeepsR.ite | apply Keeps.ite | apply Keeps.foldl | (simp only [Keeps.mk_iff]; apply Keeps.parts)
    | refine Keeps.optEq2 (by assumption) ?_ | split | dsimp only

theorem State.answerHeld_keeps {s0 : State} {s : State} (l : Nat) (k : Nat) (hs : Keeps s0 s) :
    Keeps s0 (State.answerHeld s l k) := by
  unfold State.answerHeld
  repeat' with_reducible first
    | assumption | intro _
    | (extract_lets +onlyGivenNames x; clear_value (hx : x = _); first | refine Keeps.bind (s := s0) hx ?_ (fun _ => ?_) | (refine Keeps.isFaults x ?_; subst hx) | skip)
    | apply State.answerSnoop_keeps | apply State.setCLine_keeps | apply Keeps.ite | apply Keeps.foldl | (simp only [Keeps.mk_iff]; apply Keeps.parts)
    | split | dsimp only

theorem State.setDir_keeps {s0 : State} {s : State} (l : Nat) (e : DirEntry) (hs : Keeps s0 s) :
    Keeps s0 (State.setDir s l e) := by
  unfold State.setDir
  repeat' with_reducible first
    | assumption | intro _
    | (extract_lets +onlyGivenNames x; clear_value (hx : x = _); first | refine Keeps.bind (s := s0) hx ?_ (fun _ => ?_) | (refine Keeps.isFaults x ?_; subst hx) | skip)
    | apply Keeps.ite | apply Keeps.foldl | (simp only [Keeps.mk_iff]; apply Keeps.parts) | split | dsimp only

theorem State.countDir_keeps {s0 : State} {s : State} (l : Nat) (off : Nat) (n : Nat) (hs : Keeps s0 s) :
    Keeps s0 (State.countDir s l off n) := by
  unfold State.countDir
  repeat' with_reducible first
    | assumption | intro _ | apply State.count_keeps | apply Keeps.ite | apply Keeps.foldl | (simp only [Keeps.mk_iff]; apply Keeps.parts) | split
    | dsimp only

theorem State.snoop_keeps {s0 : State} {s : State} (l : Nat) (kind : CohKind) (ks : List Nat) (hs : Keeps s0 s) :
    Keeps s0 (State.snoop s l kind ks) := by
  unfold State.snoop
  repeat' with_reducible first
    | assumption | intro _ | apply State.sendCoh_keeps | apply State.countDir_keeps | apply Keeps.ite | apply Keeps.foldl
    | (simp only [Keeps.mk_iff]; apply Keeps.parts) | split | dsimp only

theorem State.startTxn_keeps {s0 : State} {s : State} (l : Nat) (q : HomeReq) (hs : Keeps s0 s) :
    Keeps s0 (State.startTxn s l q) := by
  unfold State.startTxn
  repeat' with_reducible first
    | assumption | intro _
    | (extract_lets +onlyGivenNames x; clear_value (hx : x = _); first | refine Keeps.bind (s := s0) hx ?_ (fun _ => ?_) | (refine Keeps.isFaults x ?_; subst hx) | skip)
    | apply State.snoop_keeps | apply State.setDir_keeps | apply Keeps.ite | apply Keeps.foldl | (simp only [Keeps.mk_iff]; apply Keeps.parts) | split
    | dsimp only

theorem State.ncAnswer_keeps {s0 : State} {s : State} (l : Nat) (t : Txn) (hs : Keeps s0 s) :
    Keeps s0 (State.ncAnswer s l t) := by
  unfold State.ncAnswer
  repeat' with_reducible first
    | assumption | intro _ | apply State.dropAccs_keeps
    | (extract_lets +onlyGivenNames x; clear_value (hx : x = _); first | refine Keeps.bind (s := s0) hx ?_ (fun _ => ?_) | (refine Keeps.isFaults x ?_; subst hx) | skip)
    | apply State.churn_keeps | apply State.pieceDone_keeps | apply State.stopProgram_keeps | apply State.fillLocal_keeps | apply Keeps.ite
    | apply Keeps.foldl | (simp only [Keeps.mk_iff]; apply Keeps.parts) | split | dsimp only

theorem State.grant_keeps {s0 : State} {s : State} (l : Nat) (t : Txn) (kind : CohKind) (hs : Keeps s0 s) :
    Keeps s0 (State.grant s l t kind) := by
  unfold State.grant
  repeat' with_reducible first
    | assumption | intro _
    | (extract_lets +onlyGivenNames x; clear_value (hx : x = _); first | refine Keeps.bind (s := s0) hx ?_ (fun _ => ?_) | (refine Keeps.isFaults x ?_; subst hx) | skip)
    | apply State.sendCoh_keeps | apply Keeps.ite | apply Keeps.foldl | (simp only [Keeps.mk_iff]; apply Keeps.parts) | split | dsimp only

theorem State.endTxn_keeps {s0 : State} {s : State} (l : Nat) (t : Txn) (hs : Keeps s0 s) :
    Keeps s0 (State.endTxn s l t) := by
  unfold State.endTxn
  repeat' with_reducible first
    | assumption | intro _
    | (extract_lets +onlyGivenNames x; clear_value (hx : x = _); first | refine Keeps.bind (s := s0) hx ?_ (fun _ => ?_) | (refine Keeps.isFaults x ?_; subst hx) | (refine Keeps.isFun x ?_; subst hx) | skip)
    | apply State.noteWritten_keeps | apply State.ncAnswer_keeps | apply State.traffic_keeps | apply State.grant_keeps | apply State.setDir_keeps
    | apply State.writebackLine_keeps | apply State.putBytes_keeps | apply Keeps.ite | apply Keeps.foldl | (simp only [Keeps.mk_iff]; apply Keeps.parts)
    | split | dsimp only

theorem State.advance_keeps {s0 : State} {s : State} (l : Nat) (x3 : Nat) (hs : Keeps s0 s) :
    Keeps s0 (State.advance s l x3) := by
  induction x3 generalizing s l with
  | zero =>
    unfold State.advance
    repeat' with_reducible first
      | assumption | intro _ | apply State.countCycles_keeps | apply State.setDir_keeps | apply State.startTxn_keeps | apply State.endTxn_keeps
      | apply Keeps.ite | apply Keeps.foldl | (simp only [Keeps.mk_iff]; apply Keeps.parts) | split | dsimp only
  | succ m ih =>
    unfold State.advance
    repeat' with_reducible first
      | assumption | intro _ | apply State.countCycles_keeps | apply State.setDir_keeps | apply State.startTxn_keeps | apply State.endTxn_keeps | apply ih
      | apply Keeps.ite | apply Keeps.foldl | (simp only [Keeps.mk_iff]; apply Keeps.parts) | split | dsimp only

theorem State.advanceLine_keeps {s0 : State} {s : State} (l : Nat) (hs : Keeps s0 s) :
    Keeps s0 (State.advanceLine s l) := by
  unfold State.advanceLine
  repeat' with_reducible first
    | assumption | intro _ | apply State.advance_keeps | apply Keeps.ite | apply Keeps.foldl | (simp only [Keeps.mk_iff]; apply Keeps.parts) | split
    | dsimp only

theorem State.putAt_keeps {s0 : State} {s : State} (l : Nat) (k : Nat) (m : CohMsg) (hs : Keeps s0 s) :
    Keeps s0 (State.putAt s l k m) := by
  unfold State.putAt
  repeat' with_reducible first
    | assumption | intro _
    | (extract_lets +onlyGivenNames x; clear_value (hx : x = _); first | refine Keeps.bind (s := s0) hx ?_ (fun _ => ?_) | (refine Keeps.isFaults x ?_; subst hx) | (refine Keeps.isFun x ?_; subst hx) | skip)
    | apply State.sendCoh_keeps | apply State.traffic_keeps | apply State.advanceLine_keeps | apply State.setDir_keeps | apply State.writebackLine_keeps
    | apply State.countDir_keeps | apply Keeps.ite | apply Keeps.foldl | (simp only [Keeps.mk_iff]; apply Keeps.parts) | split | dsimp only

theorem State.putRow_keeps {s0 : State} {s : State} (l : Nat) (k : Nat) (kind : CohKind) (hs : Keeps s0 s) :
    Keeps s0 (State.putRow s l k kind) := by
  unfold State.putRow
  repeat' with_reducible first
    | assumption | intro _ | apply State.putAt_keeps | apply State.takeCoh_keeps | apply Keeps.ite | apply Keeps.foldl
    | (simp only [Keeps.mk_iff]; apply Keeps.parts) | refine Keeps.optEq2 (by assumption) ?_ | split | dsimp only

theorem State.backInvalidate_keeps {s0 : State} {s : State} (v : Nat) (hs : Keeps s0 s) :
    Keeps s0 (State.backInvalidate s v) := by
  unfold State.backInvalidate
  repeat' with_reducible first
    | assumption | intro _ | apply State.advanceLine_keeps | apply State.countDir_keeps | apply State.startTxn_keeps | apply Keeps.ite | apply Keeps.foldl
    | (simp only [Keeps.mk_iff]; apply Keeps.parts) | split | dsimp only

theorem State.modDir_keeps {s0 : State} {s : State} (l : Nat) (g : DirEntry → DirEntry) (hs : Keeps s0 s) :
    Keeps s0 (State.modDir s l g) := by
  unfold State.modDir
  repeat' with_reducible first
    | assumption | intro _ | apply State.setDir_keeps | apply Keeps.ite | apply Keeps.foldl | (simp only [Keeps.mk_iff]; apply Keeps.parts) | split
    | dsimp only

theorem State.accept_keeps {s0 : State} {s : State} (l : Nat) (q : HomeReq) (off : Nat) (hs : Keeps s0 s) :
    Keeps s0 (State.accept s l q off) := by
  unfold State.accept
  repeat' with_reducible first
    | assumption | intro _
    | (extract_lets +onlyGivenNames x; clear_value (hx : x = _); first | refine Keeps.bind (s := s0) hx ?_ (fun _ => ?_) | (refine Keeps.isFaults x ?_; subst hx) | skip)
    | apply State.modDir_keeps | apply State.advanceLine_keeps | apply State.setDir_keeps | apply State.countDir_keeps | apply State.startTxn_keeps
    | apply Keeps.ite | apply Keeps.foldl | (simp only [Keeps.mk_iff]; apply Keeps.parts) | split | dsimp only

theorem State.atHome_keeps {s0 : State} {s : State} (l : Nat) (p : CohMsg → Bool) (kind : ReqType) (off : Nat) (hs : Keeps s0 s) :
    Keeps s0 (State.atHome s l p kind off) := by
  unfold State.atHome
  repeat' with_reducible first
    | assumption | intro _
    | (extract_lets +onlyGivenNames x; clear_value (hx : x = _); first | refine Keeps.bind (s := s0) hx ?_ (fun _ => ?_) | (refine Keeps.isFaults x ?_; subst hx) | skip)
    | apply State.takeCoh_keeps | apply State.backInvalidate_keeps | apply State.accept_keeps | apply Keeps.ite | apply Keeps.foldl
    | (simp only [Keeps.mk_iff]; apply Keeps.parts) | refine Keeps.optEq2 (by assumption) ?_ | split | dsimp only

theorem execGetm_keeps {s0 : State} (l : Nat) (k : Nat) {s : State} (hs : Keeps s0 s) :
    KeepsR s0 (execGetm l k s) := by
  unfold execGetm
  repeat' with_reducible first
    | assumption | intro _ | apply onUnit_keeps | apply State.atHome_keeps | apply KeepsR.next | exact KeepsR.fault | exact KeepsR.refused
    | apply KeepsR.onUnit | apply KeepsR.ite | apply Keeps.ite | apply Keeps.foldl | (simp only [Keeps.mk_iff]; apply Keeps.parts) | split | dsimp only

theorem State.answerRow_keeps {s0 : State} {s : State} (l : Nat) (k : Nat) (kind : CohKind) (g : Txn → CohMsg → Txn) (hs : Keeps s0 s) :
    Keeps s0 (State.answerRow s l k kind g) := by
  unfold State.answerRow
  repeat' with_reducible first
    | assumption | intro _
    | (extract_lets +onlyGivenNames x; clear_value (hx : x = _); first | refine Keeps.bind (s := s0) hx ?_ (fun _ => ?_) | (refine Keeps.isFaults x ?_; subst hx) | skip)
    | apply State.advanceLine_keeps | apply State.takeCoh_keeps | apply State.setDir_keeps | apply State.countDir_keeps | apply Keeps.ite
    | apply Keeps.foldl | (simp only [Keeps.mk_iff]; apply Keeps.parts) | refine Keeps.optEq2 (by assumption) ?_ | split | dsimp only

theorem State.scratchMemory_keeps {s0 : State} {s : State} (c : Nat) (r : CoreReq) (hs : Keeps s0 s) :
    Keeps s0 (State.scratchMemory s c r) := by
  unfold State.scratchMemory
  repeat' with_reducible first
    | assumption | intro _
    | (extract_lets +onlyGivenNames x; clear_value (hx : x = _); first | refine Keeps.bind (s := s0) hx ?_ (fun _ => ?_) | (refine Keeps.isFaults x ?_; subst hx) | skip)
    | apply State.noteWritten_keeps | apply State.churn_keeps | apply State.modCore_keeps | apply State.pieceDone_keeps | apply State.perform_keeps
    | apply State.putBytes_keeps | apply State.fillLocal_keeps | apply Keeps.ite | apply Keeps.foldl | (simp only [Keeps.mk_iff]; apply Keeps.parts)
    | split | dsimp only

theorem State.homeMemory_keeps {s0 : State} {s : State} (l : Nat) (hs : Keeps s0 s) :
    Keeps s0 (State.homeMemory s l) := by
  unfold State.homeMemory
  repeat' with_reducible first
    | assumption | intro _
    | (extract_lets +onlyGivenNames x; clear_value (hx : x = _); first | refine Keeps.bind (s := s0) hx ?_ (fun _ => ?_) | refine Keeps.bindFst (s := s0) hx ?_ (fun _ => ?_) | (refine Keeps.isFaults x ?_; subst hx) | skip)
    | apply State.traffic_keeps | apply State.advanceLine_keeps | apply State.setDir_keeps | apply State.uncorrectable_keeps | apply State.endTxn_keeps
    | apply Keeps.ite | apply Keeps.foldl | (simp only [Keeps.mk_iff]; apply Keeps.parts) | apply Keeps.iteFst | apply Keeps.iteSnd
    | refine Keeps.fstEq (by assumption) ?_ | split | dsimp only

theorem execMemoryResponse_keeps {s0 : State} (home : Bool) (a : Nat) (b : Nat) {s : State} (hs : Keeps s0 s) :
    KeepsR s0 (execMemoryResponse home a b s) := by
  unfold execMemoryResponse
  repeat' with_reducible first
    | assumption | intro _ | apply State.scratchMemory_keeps | apply onUnit_keeps | apply State.homeMemory_keeps | apply KeepsR.next | exact KeepsR.fault
    | exact KeepsR.refused | apply KeepsR.onUnit | apply KeepsR.ite | apply Keeps.ite | apply Keeps.foldl | (simp only [Keeps.mk_iff]; apply Keeps.parts)
    | split | dsimp only

theorem execUpg_keeps {s0 : State} (l : Nat) (k : Nat) {s : State} (hs : Keeps s0 s) :
    KeepsR s0 (execUpg l k s) := by
  unfold execUpg
  repeat' with_reducible first
    | assumption | intro _ | apply onUnit_keeps | apply State.atHome_keeps | apply KeepsR.next | exact KeepsR.fault | exact KeepsR.refused
    | apply KeepsR.onUnit | apply KeepsR.ite | apply Keeps.ite | apply Keeps.foldl | (simp only [Keeps.mk_iff]; apply Keeps.parts) | split | dsimp only

theorem State.granted_keeps {s0 : State} {s : State} (l : Nat) (k : Nat) (st : LineSt) (poison : Option Nat) (hs : Keeps s0 s) :
    Keeps s0 (State.granted s l k st poison) := by
  unfold State.granted
  repeat' with_reducible first
    | assumption | intro _
    | (extract_lets +onlyGivenNames x; clear_value (hx : x = _); first | refine Keeps.bind (s := s0) hx ?_ (fun _ => ?_) | (refine Keeps.isFaults x ?_; subst hx) | skip)
    | apply State.serveWaiting_keeps | apply State.answerHeld_keeps | apply State.askAgain_keeps | apply State.touchLine_keeps
    | apply State.setCLine_keeps | apply Keeps.ite | apply Keeps.foldl | (simp only [Keeps.mk_iff]; apply Keeps.parts) | split | dsimp only

theorem State.grantRow_keeps {s0 : State} {s : State} (l : Nat) (k : Nat) (kind : CohKind) (st : LineSt) (hs : Keeps s0 s) :
    Keeps s0 (State.grantRow s l k kind st) := by
  unfold State.grantRow
  repeat' with_reducible first
    | assumption | intro _ | apply State.granted_keeps | apply State.takeCoh_keeps | apply Keeps.ite | apply Keeps.foldl
    | (simp only [Keeps.mk_iff]; apply Keeps.parts) | refine Keeps.optEq2 (by assumption) ?_ | split | dsimp only

theorem execDatas_keeps {s0 : State} (l : Nat) (k : Nat) {s : State} (hs : Keeps s0 s) :
    KeepsR s0 (execDatas l k s) := by
  unfold execDatas
  repeat' with_reducible first
    | assumption | intro _ | apply State.grantRow_keeps | apply onUnit_keeps | apply KeepsR.next | exact KeepsR.fault | exact KeepsR.refused
    | apply KeepsR.onUnit | apply KeepsR.ite | apply Keeps.ite | apply Keeps.foldl | (simp only [Keeps.mk_iff]; apply Keeps.parts) | split | dsimp only

theorem execGets_keeps {s0 : State} (l : Nat) (k : Nat) {s : State} (hs : Keeps s0 s) :
    KeepsR s0 (execGets l k s) := by
  unfold execGets
  repeat' with_reducible first
    | assumption | intro _ | apply onUnit_keeps | apply State.atHome_keeps | apply KeepsR.next | exact KeepsR.fault | exact KeepsR.refused
    | apply KeepsR.onUnit | apply KeepsR.ite | apply Keeps.ite | apply Keeps.foldl | (simp only [Keeps.mk_iff]; apply Keeps.parts) | split | dsimp only

theorem execSnps_keeps {s0 : State} (l : Nat) (k : Nat) {s : State} (hs : Keeps s0 s) :
    KeepsR s0 (execSnps l k s) := by
  unfold execSnps
  repeat' with_reducible first
    | assumption | intro _ | apply State.snoopRow_keeps | apply onUnit_keeps | apply KeepsR.next | exact KeepsR.fault | exact KeepsR.refused
    | apply KeepsR.onUnit | apply KeepsR.ite | apply Keeps.ite | apply Keeps.foldl | (simp only [Keeps.mk_iff]; apply Keeps.parts) | split | dsimp only

theorem State.loseLine_keeps {s0 : State} {s : State} (l : Nat) (hs : Keeps s0 s) :
    Keeps s0 (State.loseLine s l) := by
  unfold State.loseLine
  repeat' with_reducible first
    | assumption | intro _
    | (extract_lets +onlyGivenNames x; clear_value (hx : x = _); first | refine Keeps.bind (s := s0) hx ?_ (fun _ => ?_) | (refine Keeps.isFaults x ?_; subst hx) | skip)
    | apply State.voidBlock_keeps | apply State.putBytes_keeps | apply Keeps.ite | apply Keeps.foldl | (simp only [Keeps.mk_iff]; apply Keeps.parts)
    | split | dsimp only

theorem execDirAgeWarn_keeps {s0 : State} (l : Nat) {s : State} (hs : Keeps s0 s) :
    KeepsR s0 (execDirAgeWarn l s) := by
  unfold execDirAgeWarn
  repeat' with_reducible first
    | assumption | intro _
    | (extract_lets +onlyGivenNames x; clear_value (hx : x = _); first | refine Keeps.bind (s := s0) hx ?_ (fun _ => ?_) | (refine Keeps.isFaults x ?_; subst hx) | skip)
    | apply onUnit_keeps | apply State.setDir_keeps | apply State.countDir_keeps | apply State.event_keeps | apply KeepsR.next | exact KeepsR.fault
    | exact KeepsR.refused | apply KeepsR.onUnit | apply KeepsR.ite | apply Keeps.ite | apply Keeps.foldl | (simp only [Keeps.mk_iff]; apply Keeps.parts)
    | split | dsimp only

theorem execSnpack_keeps {s0 : State} (l : Nat) (k : Nat) {s : State} (hs : Keeps s0 s) :
    KeepsR s0 (execSnpack l k s) := by
  unfold execSnpack
  repeat' with_reducible first
    | assumption | intro _ | apply State.answerRow_keeps | apply onUnit_keeps | apply KeepsR.next | exact KeepsR.fault | exact KeepsR.refused
    | apply KeepsR.onUnit | apply KeepsR.ite | apply Keeps.ite | apply Keeps.foldl | (simp only [Keeps.mk_iff]; apply Keeps.parts) | split | dsimp only

theorem execReadnc_keeps {s0 : State} (l : Nat) (k : Nat) {s : State} (hs : Keeps s0 s) :
    KeepsR s0 (execReadnc l k s) := by
  unfold execReadnc
  repeat' with_reducible first
    | assumption | intro _ | apply onUnit_keeps | apply State.atHome_keeps | apply KeepsR.next | exact KeepsR.fault | exact KeepsR.refused
    | apply KeepsR.onUnit | apply KeepsR.ite | apply Keeps.ite | apply Keeps.foldl | (simp only [Keeps.mk_iff]; apply Keeps.parts) | split | dsimp only

theorem execSnpinv_keeps {s0 : State} (l : Nat) (k : Nat) {s : State} (hs : Keeps s0 s) :
    KeepsR s0 (execSnpinv l k s) := by
  unfold execSnpinv
  repeat' with_reducible first
    | assumption | intro _ | apply State.snoopRow_keeps | apply onUnit_keeps | apply KeepsR.next | exact KeepsR.fault | exact KeepsR.refused
    | apply KeepsR.onUnit | apply KeepsR.ite | apply Keeps.ite | apply Keeps.foldl | (simp only [Keeps.mk_iff]; apply Keeps.parts) | split | dsimp only

theorem execPute_keeps {s0 : State} (l : Nat) (k : Nat) {s : State} (hs : Keeps s0 s) :
    KeepsR s0 (execPute l k s) := by
  unfold execPute
  repeat' with_reducible first
    | assumption | intro _ | apply State.putRow_keeps | apply onUnit_keeps | apply KeepsR.next | exact KeepsR.fault | exact KeepsR.refused
    | apply KeepsR.onUnit | apply KeepsR.ite | apply Keeps.ite | apply Keeps.foldl | (simp only [Keeps.mk_iff]; apply Keeps.parts) | split | dsimp only

theorem execPutm_keeps {s0 : State} (l : Nat) (k : Nat) {s : State} (hs : Keeps s0 s) :
    KeepsR s0 (execPutm l k s) := by
  unfold execPutm
  repeat' with_reducible first
    | assumption | intro _ | apply State.putRow_keeps | apply onUnit_keeps | apply KeepsR.next | exact KeepsR.fault | exact KeepsR.refused
    | apply KeepsR.onUnit | apply KeepsR.ite | apply Keeps.ite | apply Keeps.foldl | (simp only [Keeps.mk_iff]; apply Keeps.parts) | split | dsimp only

theorem execMiss_keeps {s0 : State} (l : Nat) (k : Nat) {s : State} (hs : Keeps s0 s) :
    KeepsR s0 (execMiss l k s) := by
  unfold execMiss
  repeat' with_reducible first
    | assumption | intro _ | apply State.answerRow_keeps | apply onUnit_keeps | apply KeepsR.next | exact KeepsR.fault | exact KeepsR.refused
    | apply KeepsR.onUnit | apply KeepsR.ite | apply Keeps.ite | apply Keeps.foldl | (simp only [Keeps.mk_iff]; apply Keeps.parts) | split | dsimp only

theorem execSnpm_keeps {s0 : State} (l : Nat) (k : Nat) {s : State} (hs : Keeps s0 s) :
    KeepsR s0 (execSnpm l k s) := by
  unfold execSnpm
  repeat' with_reducible first
    | assumption | intro _ | apply State.snoopRow_keeps | apply onUnit_keeps | apply KeepsR.next | exact KeepsR.fault | exact KeepsR.refused
    | apply KeepsR.onUnit | apply KeepsR.ite | apply Keeps.ite | apply Keeps.foldl | (simp only [Keeps.mk_iff]; apply Keeps.parts) | split | dsimp only

theorem execDatae_keeps {s0 : State} (l : Nat) (k : Nat) {s : State} (hs : Keeps s0 s) :
    KeepsR s0 (execDatae l k s) := by
  unfold execDatae
  repeat' with_reducible first
    | assumption | intro _ | apply State.grantRow_keeps | apply onUnit_keeps | apply KeepsR.next | exact KeepsR.fault | exact KeepsR.refused
    | apply KeepsR.onUnit | apply KeepsR.ite | apply Keeps.ite | apply Keeps.foldl | (simp only [Keeps.mk_iff]; apply Keeps.parts) | split | dsimp only

theorem execSnoopTimeout_keeps {s0 : State} (l : Nat) (k : Nat) {s : State} (hs : Keeps s0 s) :
    KeepsR s0 (execSnoopTimeout l k s) := by
  unfold execSnoopTimeout
  repeat' with_reducible first
    | assumption | intro _
    | (extract_lets +onlyGivenNames x; clear_value (hx : x = _); first | refine Keeps.bind (s := s0) hx ?_ (fun _ => ?_) | (refine Keeps.isFaults x ?_; subst hx) | skip)
    | apply State.loseLine_keeps | apply State.record_keeps | apply onUnit_keeps | apply State.advanceLine_keeps | apply State.setDir_keeps
    | apply State.countDir_keeps | apply KeepsR.next | exact KeepsR.fault | exact KeepsR.refused | apply KeepsR.onUnit | apply KeepsR.ite
    | apply Keeps.ite | apply Keeps.foldl | (simp only [Keeps.mk_iff]; apply Keeps.parts) | split | dsimp only

theorem execPuts_keeps {s0 : State} (l : Nat) (k : Nat) {s : State} (hs : Keeps s0 s) :
    KeepsR s0 (execPuts l k s) := by
  unfold execPuts
  repeat' with_reducible first
    | assumption | intro _ | apply State.putRow_keeps | apply onUnit_keeps | apply KeepsR.next | exact KeepsR.fault | exact KeepsR.refused
    | apply KeepsR.onUnit | apply KeepsR.ite | apply Keeps.ite | apply Keeps.foldl | (simp only [Keeps.mk_iff]; apply Keeps.parts) | split | dsimp only

theorem execWritenc_keeps {s0 : State} (l : Nat) (k : Nat) {s : State} (hs : Keeps s0 s) :
    KeepsR s0 (execWritenc l k s) := by
  unfold execWritenc
  repeat' with_reducible first
    | assumption | intro _ | apply onUnit_keeps | apply State.atHome_keeps | apply KeepsR.next | exact KeepsR.fault | exact KeepsR.refused
    | apply KeepsR.onUnit | apply KeepsR.ite | apply Keeps.ite | apply Keeps.foldl | (simp only [Keeps.mk_iff]; apply Keeps.parts) | split | dsimp only

theorem execSnpdata_keeps {s0 : State} (l : Nat) (k : Nat) {s : State} (hs : Keeps s0 s) :
    KeepsR s0 (execSnpdata l k s) := by
  unfold execSnpdata
  repeat' with_reducible first
    | assumption | intro _ | apply State.answerRow_keeps | apply onUnit_keeps | apply KeepsR.next | exact KeepsR.fault | exact KeepsR.refused
    | apply KeepsR.onUnit | apply KeepsR.ite | apply Keeps.ite | apply Keeps.foldl | (simp only [Keeps.mk_iff]; apply Keeps.parts) | split | dsimp only

theorem execAck_keeps {s0 : State} (l : Nat) (k : Nat) {s : State} (hs : Keeps s0 s) :
    KeepsR s0 (execAck l k s) := by
  unfold execAck
  repeat' with_reducible first
    | assumption | intro _ | apply State.grantRow_keeps | apply onUnit_keeps | apply KeepsR.next | exact KeepsR.fault | exact KeepsR.refused
    | apply KeepsR.onUnit | apply KeepsR.ite | apply Keeps.ite | apply Keeps.foldl | (simp only [Keeps.mk_iff]; apply Keeps.parts) | split | dsimp only

theorem execInvack_keeps {s0 : State} (l : Nat) (k : Nat) {s : State} (hs : Keeps s0 s) :
    KeepsR s0 (execInvack l k s) := by
  unfold execInvack
  repeat' with_reducible first
    | assumption | intro _ | apply State.answerRow_keeps | apply onUnit_keeps | apply KeepsR.next | exact KeepsR.fault | exact KeepsR.refused
    | apply KeepsR.onUnit | apply KeepsR.ite | apply Keeps.ite | apply Keeps.foldl | (simp only [Keeps.mk_iff]; apply Keeps.parts) | split | dsimp only

theorem execMissPutPending_keeps {s0 : State} (l : Nat) (k : Nat) {s : State} (hs : Keeps s0 s) :
    KeepsR s0 (execMissPutPending l k s) := by
  unfold execMissPutPending
  repeat' with_reducible first
    | assumption | intro _ | apply State.answerRow_keeps | apply onUnit_keeps | apply KeepsR.next | exact KeepsR.fault | exact KeepsR.refused
    | apply KeepsR.onUnit | apply KeepsR.ite | apply Keeps.ite | apply Keeps.foldl | (simp only [Keeps.mk_iff]; apply Keeps.parts) | split | dsimp only

theorem execDatam_keeps {s0 : State} (l : Nat) (k : Nat) {s : State} (hs : Keeps s0 s) :
    KeepsR s0 (execDatam l k s) := by
  unfold execDatam
  repeat' with_reducible first
    | assumption | intro _ | apply State.grantRow_keeps | apply onUnit_keeps | apply KeepsR.next | exact KeepsR.fault | exact KeepsR.refused
    | apply KeepsR.onUnit | apply KeepsR.ite | apply Keeps.ite | apply Keeps.foldl | (simp only [Keeps.mk_iff]; apply Keeps.parts) | split | dsimp only

end Sys2Proof.Machine
end

