-- ==== Sys2Proof/Laws/KeepsThreads.lean ====
section
/-!
SUPPORT. The operations of Machine/Threads.lean leave the queue alone and keep the invariant (Laws/Keeps.lean).
-/

set_option linter.all false

namespace Sys2Proof.Machine

theorem State.threadWait_keeps {s0 : State} {s : State} (c : Nat) (t : Nat) (w : ThreadWait) (hs : Keeps s0 s) :
    Keeps s0 (State.threadWait s c t w) := by
  unfold State.threadWait
  repeat' with_reducible first
    | assumption | intro _
    | (extract_lets +onlyGivenNames x; clear_value (hx : x = _); first | refine Keeps.bind (s := s0) hx ?_ (fun _ => ?_) | (refine Keeps.isFaults x ?_; subst hx) | skip)
    | apply State.modCore_keeps | apply Keeps.ite | apply Keeps.foldl | (simp only [Keeps.mk_iff]; apply Keeps.parts) | split | dsimp only

theorem State.issued_keeps {s0 : State} {s : State} (c : Nat) (t : Nat) (hs : Keeps s0 s) :
    Keeps s0 (State.issued s c t) := by
  unfold State.issued
  repeat' with_reducible first
    | assumption | intro _
    | (extract_lets +onlyGivenNames x; clear_value (hx : x = _); first | refine Keeps.bind (s := s0) hx ?_ (fun _ => ?_) | (refine Keeps.isFaults x ?_; subst hx) | skip)
    | apply State.countCycles_keeps | apply State.modCore_keeps | apply State.count_keeps | apply Keeps.ite | apply Keeps.foldl
    | (simp only [Keeps.mk_iff]; apply Keeps.parts) | split | dsimp only

theorem State.issue_keeps {s0 : State} {s : State} (c : Nat) (t : Nat) (move : Bool) (k : State → Flight → State) (hs : Keeps s0 s) (hk : ∀ y0 y1, Keeps s0 y0 → Keeps s0 (k y0 y1)) :
    Keeps s0 (State.issue s c t move k) := by
  unfold State.issue
  repeat' with_reducible first
    | assumption | intro _ | apply State.issued_keeps | apply State.stopProgram_keeps | apply hk | apply Keeps.ite | apply Keeps.foldl
    | (simp only [Keeps.mk_iff]; apply Keeps.parts) | split | dsimp only

theorem threadRow_keeps {s0 : State} (c : Nat) (t : Nat) (move : Bool) {s : State} (k : State → Flight → State) (hs : Keeps s0 s) (hk : ∀ y0 y1, Keeps s0 y0 → Keeps s0 (k y0 y1)) :
    KeepsR s0 (threadRow c t move s k) := by
  unfold threadRow
  repeat' with_reducible first
    | assumption | intro _ | apply State.issue_keeps | apply onUnit_keeps | apply hk | apply KeepsR.next | exact KeepsR.fault | exact KeepsR.refused
    | apply KeepsR.onUnit | apply KeepsR.ite | apply Keeps.ite | apply Keeps.foldl | (simp only [Keeps.mk_iff]; apply Keeps.parts) | split | dsimp only

theorem execFenceDevice_keeps {s0 : State} (c : Nat) (t : Nat) {s : State} (hs : Keeps s0 s) :
    KeepsR s0 (execFenceDevice c t s) := by
  unfold execFenceDevice
  repeat' with_reducible first
    | assumption | intro _ | apply State.threadWait_keeps | apply threadRow_keeps | apply KeepsR.next | exact KeepsR.fault | exact KeepsR.refused
    | apply KeepsR.onUnit | apply KeepsR.ite | apply Keeps.ite | apply Keeps.foldl | (simp only [Keeps.mk_iff]; apply Keeps.parts) | split | dsimp only

theorem execSemwaitAcq_keeps {s0 : State} (c : Nat) (t : Nat) (n : Nat) (v : Nat) (scope : Nat) {s : State} (hs : Keeps s0 s) :
    KeepsR s0 (execSemwaitAcq c t n v scope s) := by
  unfold execSemwaitAcq
  repeat' with_reducible first
    | assumption | intro _ | apply State.threadWait_keeps | apply State.stopProgram_keeps | apply threadRow_keeps | apply KeepsR.next | exact KeepsR.fault
    | exact KeepsR.refused | apply KeepsR.onUnit | apply KeepsR.ite | apply Keeps.ite | apply Keeps.foldl | (simp only [Keeps.mk_iff]; apply Keeps.parts)
    | split | dsimp only

theorem State.movePlaces_keeps {s0 : State} {s : State} (fn : Nat) (wr : Bool) (x4 : List (Nat × Nat)) (hs : Keeps s0 s) :
    Keeps s0 (State.movePlaces s fn wr x4).1 := by
  induction x4 generalizing s fn wr with
  | nil =>
    unfold State.movePlaces
    repeat' with_reducible first
      | assumption | intro _ | apply State.writePlace_keeps | apply Keeps.ite | apply Keeps.foldl | (simp only [Keeps.mk_iff]; apply Keeps.parts)
      | apply Keeps.iteFst | apply Keeps.iteSnd | refine Keeps.fstEq (by assumption) ?_ | split | dsimp only
  | cons y ys ih =>
    unfold State.movePlaces
    repeat' with_reducible first
      | assumption | intro _ | apply State.writePlace_keeps | apply ih | apply Keeps.ite | apply Keeps.foldl | (simp only [Keeps.mk_iff]; apply Keeps.parts)
      | apply Keeps.iteFst | apply Keeps.iteSnd | refine Keeps.fstEq (by assumption) ?_ | split | dsimp only

theorem State.moveBulk_keeps {s0 : State} {u : State} (c : Nat) (fl : Flight) (m : Nat) (out : Bool) (a : Nat) (spad : Nat) (n : Nat) (hu : Keeps s0 u) :
    Keeps s0 (State.moveBulk u c fl m out a spad n) := by
  unfold State.moveBulk
  repeat' with_reducible first
    | assumption | intro _
    | (extract_lets +onlyGivenNames x; clear_value (hx : x = _); first | refine Keeps.bind (s := s0) hx ?_ (fun _ => ?_) | refine Keeps.bindFst (s := s0) hx ?_ (fun _ => ?_) | (refine Keeps.isFaults x ?_; subst hx) | skip)
    | apply State.churn_keeps | apply State.movePlaces_keeps | apply State.setCore_keeps | apply State.stopProgram_keeps | apply State.modFlight_keeps
    | apply Keeps.ite | apply Keeps.foldl | (simp only [Keeps.mk_iff]; apply Keeps.parts) | apply Keeps.iteFst | apply Keeps.iteSnd
    | refine Keeps.fstEq (by assumption) ?_ | split | dsimp only

theorem State.drawLane_keeps {s0 : State} {s : State} (c : Nat) (lane : Nat) (hs : Keeps s0 s) :
    Keeps s0 (State.drawLane s c lane).2 := by
  unfold State.drawLane
  repeat' with_reducible first
    | assumption | intro _
    | (extract_lets +onlyGivenNames x; clear_value (hx : x = _); first | refine Keeps.bind (s := s0) hx ?_ (fun _ => ?_) | refine Keeps.bindSnd (s := s0) hx ?_ (fun _ => ?_) | (refine Keeps.isFaults x ?_; subst hx) | skip)
    | apply State.modCore_keeps | apply State.count_keeps | apply Keeps.ite | apply Keeps.foldl | (simp only [Keeps.mk_iff]; apply Keeps.parts)
    | apply Keeps.iteFst | apply Keeps.iteSnd | refine Keeps.sndEq (by assumption) ?_ | split | dsimp only

theorem randRow_keeps {s0 : State} (c : Nat) (t : Nat) (lane : Nat) {s : State} (k : Nat → State → State) (hs : Keeps s0 s) (hk : ∀ y0 y1, Keeps s0 y1 → Keeps s0 (k y0 y1)) :
    KeepsR s0 (randRow c t lane s k) := by
  unfold randRow
  repeat' with_reducible first
    | assumption | intro _ | apply State.drawLane_keeps | apply threadRow_keeps | apply hk | apply KeepsR.next | exact KeepsR.fault | exact KeepsR.refused
    | apply KeepsR.onUnit | apply KeepsR.ite | apply Keeps.ite | apply Keeps.foldl | (simp only [Keeps.mk_iff]; apply Keeps.parts) | apply Keeps.iteFst
    | apply Keeps.iteSnd | refine Keeps.sndEq (by assumption) ?_ | split | dsimp only

theorem execRandUo_keeps {s0 : State} (c : Nat) (t : Nat) (lane : Nat) (reg : Nat) {s : State} (hs : Keeps s0 s) :
    KeepsR s0 (execRandUo c t lane reg s) := by
  unfold execRandUo
  repeat' with_reducible first
    | assumption | intro _ | apply randRow_keeps | apply State.writeThreadReg_keeps | apply KeepsR.next | exact KeepsR.fault | exact KeepsR.refused
    | apply KeepsR.onUnit | apply KeepsR.ite | apply Keeps.ite | apply Keeps.foldl | (simp only [Keeps.mk_iff]; apply Keeps.parts) | split | dsimp only

theorem State.newDemand_keeps {s0 : State} {s : State} (c : Nat) (addr : Nat) (size : Nat) (acc : ThreadAcc) (hs : Keeps s0 s) :
    Keeps s0 (State.newDemand s c addr size acc) := by
  unfold State.newDemand
  repeat' with_reducible first
    | assumption | intro _
    | (extract_lets +onlyGivenNames x; clear_value (hx : x = _); first | refine Keeps.bind (s := s0) hx ?_ (fun _ => ?_) | (refine Keeps.isFaults x ?_; subst hx) | skip)
    | apply State.setCore_keeps | apply Keeps.ite | apply Keeps.foldl | (simp only [Keeps.mk_iff]; apply Keeps.parts) | split | dsimp only

theorem execRandBern_keeps {s0 : State} (c : Nat) (t : Nat) (lane : Nat) (reg : Nat) (p : Nat) {s : State} (hs : Keeps s0 s) :
    KeepsR s0 (execRandBern c t lane reg p s) := by
  unfold execRandBern
  repeat' with_reducible first
    | assumption | intro _ | apply randRow_keeps | apply State.writeThreadReg_keeps | apply KeepsR.next | exact KeepsR.fault | exact KeepsR.refused
    | apply KeepsR.onUnit | apply KeepsR.ite | apply Keeps.ite | apply Keeps.foldl | (simp only [Keeps.mk_iff]; apply Keeps.parts) | split | dsimp only

theorem State.mergeAcc_keeps {s0 : State} {s : State} (c : Nat) (r : CoreReq) (acc : ThreadAcc) (hs : Keeps s0 s) :
    Keeps s0 (State.mergeAcc s c r acc) := by
  unfold State.mergeAcc
  repeat' with_reducible first
    | assumption | intro _
    | (extract_lets +onlyGivenNames x; clear_value (hx : x = _); first | refine Keeps.bind (s := s0) hx ?_ (fun _ => ?_) | (refine Keeps.isFaults x ?_; subst hx) | skip)
    | apply State.modCore_keeps | apply State.count_keeps | apply Keeps.ite | apply Keeps.foldl | (simp only [Keeps.mk_iff]; apply Keeps.parts) | split
    | dsimp only

theorem State.uncachedAccess_keeps {s0 : State} {s back : State} (c : Nat) (fl : Flight) (acc : ThreadAcc) (hs : Keeps s0 s) (hb : Keeps s0 back) :
    Keeps s0 (State.uncachedAccess s back c fl acc) := by
  unfold State.uncachedAccess
  repeat' with_reducible first
    | assumption | intro _
    | (extract_lets +onlyGivenNames x; clear_value (hx : x = _); first | refine Keeps.bind (s := s0) hx ?_ (fun _ => ?_) | (refine Keeps.isFaults x ?_; subst hx) | skip)
    | apply State.mergeAcc_keeps | apply State.countCycles_keeps | apply State.newDemand_keeps | apply State.request_keeps | apply State.stopProgram_keeps
    | apply Keeps.ite | apply Keeps.foldl | (simp only [Keeps.mk_iff]; apply Keeps.parts) | split | dsimp only

theorem State.prefetchBlock_keeps {s0 : State} {s : State} (c : Nat) (x3 : Nat) (a : Nat) (hs : Keeps s0 s) :
    Keeps s0 (State.prefetchBlock s c x3 a) := by
  unfold State.prefetchBlock
  repeat' with_reducible first
    | assumption | intro _
    | (extract_lets +onlyGivenNames x; clear_value (hx : x = _); first | refine Keeps.bind (s := s0) hx ?_ (fun _ => ?_) | (refine Keeps.isFaults x ?_; subst hx) | skip)
    | apply State.churn_keeps | apply State.issueReq_keeps | apply State.setCore_keeps | apply State.count_keeps | apply Keeps.ite | apply Keeps.foldl
    | (simp only [Keeps.mk_iff]; apply Keeps.parts) | split | dsimp only

theorem State.trackDemand_keeps {s0 : State} {s : State} (c : Nat) (t : Nat) (a : Nat) (miss : Bool) (hs : Keeps s0 s) :
    Keeps s0 (State.trackDemand s c t a miss) := by
  unfold State.trackDemand
  repeat' with_reducible first
    | assumption | intro _
    | (extract_lets +onlyGivenNames x; clear_value (hx : x = _); first | refine Keeps.bind (s := s0) hx ?_ (fun _ => ?_) | (refine Keeps.isFaults x ?_; subst hx) | skip)
    | apply State.modCore_keeps | apply State.setCore_keeps | apply State.prefetchBlock_keeps | apply Keeps.ite | apply Keeps.foldl
    | (simp only [Keeps.mk_iff]; apply Keeps.parts) | split | dsimp only

theorem State.cachedAccess_keeps {s0 : State} {s back : State} (c : Nat) (acc : ThreadAcc) (hs : Keeps s0 s) (hb : Keeps s0 back) :
    Keeps s0 (State.cachedAccess s back c acc) := by
  unfold State.cachedAccess
  repeat' with_reducible first
    | assumption | intro _
    | (extract_lets +onlyGivenNames x; clear_value (hx : x = _); first | refine Keeps.bind (s := s0) hx ?_ (fun _ => ?_) | (refine Keeps.isFaults x ?_; subst hx) | skip)
    | apply State.mergeAcc_keeps | apply State.countCycles_keeps | apply State.trackDemand_keeps | apply State.setCore_keeps | apply State.touchLine_keeps
    | apply State.newDemand_keeps | apply State.perform_keeps | apply State.setCLine_keeps | apply State.count_keeps | apply State.waitLine_keeps
    | apply Keeps.ite | apply Keeps.foldl | (simp only [Keeps.mk_iff]; apply Keeps.parts) | refine Keeps.optEq (by assumption) ?_ | apply Keeps.getD
    | split | dsimp only

theorem State.access_keeps {s0 : State} {s back : State} (c : Nat) (fl : Flight) (acc0 : ThreadAcc) (hs : Keeps s0 s) (hb : Keeps s0 back) :
    Keeps s0 (State.access s back c fl acc0) := by
  unfold State.access
  repeat' with_reducible first
    | assumption | intro _
    | (extract_lets +onlyGivenNames x; clear_value (hx : x = _); first | refine Keeps.bind (s := s0) hx ?_ (fun _ => ?_) | refine Keeps.bindFst (s := s0) hx ?_ (fun _ => ?_) | (refine Keeps.isFaults x ?_; subst hx) | skip)
    | apply State.uncachedAccess_keeps | apply State.perform_keeps | apply State.stopProgram_keeps | apply State.writePlace_keeps
    | apply State.writeThreadReg_keeps | apply State.cachedAccess_keeps | apply Keeps.ite | apply Keeps.foldl
    | (simp only [Keeps.mk_iff]; apply Keeps.parts) | apply Keeps.iteFst | apply Keeps.iteSnd | refine Keeps.fstEq (by assumption) ?_ | split | dsimp only

theorem CoreReq.takeRegs_keeps {s0 : State} {s : State} (r : CoreReq) (c : Nat) (b : List Byte) (hs : Keeps s0 s) :
    Keeps s0 (CoreReq.takeRegs r c b s) := by
  unfold CoreReq.takeRegs
  repeat' with_reducible first
    | assumption | intro _ | apply State.writeThreadReg_keeps | apply Keeps.ite | apply Keeps.foldl | (simp only [Keeps.mk_iff]; apply Keeps.parts) | split | dsimp only

theorem State.coreAnswer_keeps {s0 : State} {s : State} (c : Nat) (id : Nat) (data : Option (List Byte)) (fail : Option (Nat × Nat)) (hs : Keeps s0 s) :
    Keeps s0 (State.coreAnswer s c id data fail) := by
  unfold State.coreAnswer
  repeat' with_reducible first
    | assumption | intro _ | apply CoreReq.takeRegs_keeps
    | (extract_lets +onlyGivenNames x; clear_value (hx : x = _); first | refine Keeps.bind (s := s0) hx ?_ (fun _ => ?_) | (refine Keeps.isFaults x ?_; subst hx) | skip)
    | apply State.churn_keeps | apply State.modCore_keeps | apply State.pieceDone_keeps | apply State.fill_keeps | apply State.stopProgram_keeps
    | apply State.writeThreadReg_keeps | apply Keeps.ite | apply Keeps.foldl | (simp only [Keeps.mk_iff]; apply Keeps.parts) | split | dsimp only

theorem State.wrack_keeps {s0 : State} {s : State} (n : Nat) (m : FabMsg) (hs : Keeps s0 s) :
    Keeps s0 (State.wrack s n m) := by
  unfold State.wrack
  repeat' with_reducible first
    | assumption | intro _
    | (extract_lets +onlyGivenNames x; clear_value (hx : x = _); first | refine Keeps.bind (s := s0) hx ?_ (fun _ => ?_) | (refine Keeps.isFaults x ?_; subst hx) | skip)
    | apply State.coreAnswer_keeps | apply State.dropRequest_keeps | apply State.answered_keeps | apply State.lateResponse_keeps | apply Keeps.ite
    | apply Keeps.foldl | (simp only [Keeps.mk_iff]; apply Keeps.parts) | split | dsimp only

theorem execWrack_keeps {s0 : State} (k : Nat) {s : State} (hs : Keeps s0 s) :
    KeepsR s0 (execWrack k s) := by
  unfold execWrack
  repeat' with_reducible first
    | assumption | intro _ | apply State.wrack_keeps | apply State.onMsg_keeps | apply KeepsR.next | exact KeepsR.fault | exact KeepsR.refused
    | apply KeepsR.onUnit | apply KeepsR.ite | apply Keeps.ite | apply Keeps.foldl | (simp only [Keeps.mk_iff]; apply Keeps.parts) | split | dsimp only

theorem execRandU32_keeps {s0 : State} (c : Nat) (t : Nat) (lane : Nat) (reg : Nat) {s : State} (hs : Keeps s0 s) :
    KeepsR s0 (execRandU32 c t lane reg s) := by
  unfold execRandU32
  repeat' with_reducible first
    | assumption | intro _ | apply randRow_keeps | apply State.writeThreadReg_keeps | apply KeepsR.next | exact KeepsR.fault | exact KeepsR.refused
    | apply KeepsR.onUnit | apply KeepsR.ite | apply Keeps.ite | apply Keeps.foldl | (simp only [Keeps.mk_iff]; apply Keeps.parts) | split | dsimp only

theorem execRandNtab_keeps {s0 : State} (c : Nat) (t : Nat) (lane : Nat) (reg : Nat) {s : State} (hs : Keeps s0 s) :
    KeepsR s0 (execRandNtab c t lane reg s) := by
  unfold execRandNtab
  repeat' with_reducible first
    | assumption | intro _ | apply randRow_keeps | apply State.writeThreadReg_keeps | apply KeepsR.next | exact KeepsR.fault | exact KeepsR.refused
    | apply KeepsR.onUnit | apply KeepsR.ite | apply Keeps.ite | apply Keeps.foldl | (simp only [Keeps.mk_iff]; apply Keeps.parts) | split | dsimp only

theorem State.placeMove_keeps {s0 : State} {s : State} (c : Nat) (r : CoreReq) (hs : Keeps s0 s) :
    KeepsO (fun x => x) s0 (State.placeMove s c r) := by
  unfold State.placeMove
  repeat' with_reducible first
    | assumption | intro _
    | (extract_lets +onlyGivenNames x; clear_value (hx : x = _); first | refine Keeps.bind (s := s0) hx ?_ (fun _ => ?_) | (refine Keeps.isFaults x ?_; subst hx) | skip)
    | apply State.issueReq_keeps | apply State.setCore_keeps | apply State.count_keeps | exact KeepsO.none | apply KeepsO.some | apply KeepsO.ite
    | apply Keeps.ite | apply Keeps.foldl | (simp only [Keeps.mk_iff]; apply Keeps.parts) | refine Keeps.optEq (by assumption) ?_ | apply Keeps.getD
    | split | dsimp only

theorem State.rddata_keeps {s0 : State} {s : State} (n : Nat) (m : FabMsg) (hs : Keeps s0 s) :
    Keeps s0 (State.rddata s n m) := by
  unfold State.rddata
  repeat' with_reducible first
    | assumption | intro _
    | (extract_lets +onlyGivenNames x; clear_value (hx : x = _); first | refine Keeps.bind (s := s0) hx ?_ (fun _ => ?_) | (refine Keeps.isFaults x ?_; subst hx) | skip)
    | apply State.coreAnswer_keeps | apply State.dropRequest_keeps | apply State.lateResponse_keeps | apply State.readAnswer_keeps
    | apply State.sealMiss_keeps | apply State.count_keeps | apply Keeps.ite | apply Keeps.foldl | (simp only [Keeps.mk_iff]; apply Keeps.parts) | split
    | dsimp only

theorem execSemaddRel_keeps {s0 : State} (c : Nat) (t : Nat) (n : Nat) (v : Nat) (scope : Nat) {s : State} (hs : Keeps s0 s) :
    KeepsR s0 (execSemaddRel c t n v scope s) := by
  unfold execSemaddRel
  repeat' with_reducible first
    | assumption | intro _ | apply State.addSem_keeps | apply onUnit_keeps | apply State.refreshHeads_keeps | apply State.stopProgram_keeps
    | apply threadRow_keeps | apply KeepsR.next | exact KeepsR.fault | exact KeepsR.refused | apply KeepsR.onUnit | apply KeepsR.ite | apply Keeps.ite
    | apply Keeps.foldl | (simp only [Keeps.mk_iff]; apply Keeps.parts) | split | dsimp only

theorem execFenceCore_keeps {s0 : State} (c : Nat) (t : Nat) {s : State} (hs : Keeps s0 s) :
    KeepsR s0 (execFenceCore c t s) := by
  unfold execFenceCore
  repeat' with_reducible first
    | assumption | intro _ | apply State.threadWait_keeps | apply threadRow_keeps | apply KeepsR.next | exact KeepsR.fault | exact KeepsR.refused
    | apply KeepsR.onUnit | apply KeepsR.ite | apply Keeps.ite | apply Keeps.foldl | (simp only [Keeps.mk_iff]; apply Keeps.parts) | split | dsimp only

theorem execMvBulk_keeps {s0 : State} (c : Nat) (t : Nat) (m : Nat) (out : Bool) (a : Nat) (spad : Nat) (n : Nat) {s : State} (hs : Keeps s0 s) :
    KeepsR s0 (execMvBulk c t m out a spad n s) := by
  unfold execMvBulk
  repeat' with_reducible first
    | assumption | intro _ | apply threadRow_keeps | apply State.moveBulk_keeps | apply KeepsR.next | exact KeepsR.fault | exact KeepsR.refused
    | apply KeepsR.onUnit | apply KeepsR.ite | apply Keeps.ite | apply Keeps.foldl | (simp only [Keeps.mk_iff]; apply Keeps.parts) | split | dsimp only

theorem State.placeMoves_keeps {s0 : State} {s : State} (c : Nat) (x3 : List CoreReq) (hs : Keeps s0 s) :
    KeepsO (fun x => x) s0 (State.placeMoves s c x3) := by
  induction x3 generalizing s c with
  | nil =>
    unfold State.placeMoves
    repeat' with_reducible first
      | assumption | intro _ | apply State.placeMove_keeps | exact KeepsO.none | apply KeepsO.some | apply KeepsO.ite | apply Keeps.ite
      | apply Keeps.foldl | (simp only [Keeps.mk_iff]; apply Keeps.parts) | refine Keeps.optEq (by assumption) ?_ | apply Keeps.getD | split | dsimp only
  | cons y ys ih =>
    unfold State.placeMoves
    repeat' with_reducible first
      | assumption | intro _ | apply State.placeMove_keeps | apply ih | exact KeepsO.none | apply KeepsO.some | apply KeepsO.ite | apply Keeps.ite
      | apply Keeps.foldl | (simp only [Keeps.mk_iff]; apply Keeps.parts) | refine Keeps.optEq (by assumption) ?_ | apply Keeps.getD | split | dsimp only

theorem State.churnMove_keeps {s0 : State} {s : State} (c : Nat) (kind : ReqKind) (g : Nat) (empty : Bool) (hs : Keeps s0 s) :
    Keeps s0 (State.churnMove s c kind g empty) := by
  unfold State.churnMove
  repeat' with_reducible first
    | assumption | intro _ | apply State.groupDone_keeps | apply State.churn_keeps | apply Keeps.ite | apply Keeps.foldl
    | (simp only [Keeps.mk_iff]; apply Keeps.parts) | split | dsimp only

theorem State.movement_keeps {s0 : State} {s back : State} (c : Nat) (fl : Flight) (kind : ReqKind) (wr : Bool) (a : Nat) (n : Nat) (spad : Nat) (hs : Keeps s0 s) (hb : Keeps s0 back) :
    Keeps s0 (State.movement s back c fl kind wr a n spad) := by
  unfold State.movement
  repeat' with_reducible first
    | assumption | intro _
    | (extract_lets +onlyGivenNames x; clear_value (hx : x = _); first | refine Keeps.bind (s := s0) hx ?_ (fun _ => ?_) | refine Keeps.bindFst (s := s0) hx ?_ (fun _ => ?_) | (refine Keeps.isFaults x ?_; subst hx) | skip)
    | apply State.countCycles_keeps | apply State.modCore_keeps | apply State.movePlaces_keeps | apply State.placeMoves_keeps
    | apply State.stopProgram_keeps | apply State.churnMove_keeps | apply State.modFlight_keeps | apply Keeps.ite | apply Keeps.foldl
    | (simp only [Keeps.mk_iff]; apply Keeps.parts) | apply Keeps.iteFst | apply Keeps.iteSnd | refine Keeps.fstEq (by assumption) ?_
    | refine Keeps.optEq (by assumption) ?_ | apply Keeps.getD | split | dsimp only

theorem execMvSt_keeps {s0 : State} (c : Nat) (t : Nat) (m : Nat) (a : Nat) (spad : Nat) (n : Nat) {s : State} (hs : Keeps s0 s) :
    KeepsR s0 (execMvSt c t m a spad n s) := by
  unfold execMvSt
  repeat' with_reducible first
    | assumption | intro _ | apply threadRow_keeps | apply State.movement_keeps | apply KeepsR.next | exact KeepsR.fault | exact KeepsR.refused
    | apply KeepsR.onUnit | apply KeepsR.ite | apply Keeps.ite | apply Keeps.foldl | (simp only [Keeps.mk_iff]; apply Keeps.parts) | split | dsimp only

theorem State.applyPfBuf_keeps {s0 : State} {s : State} (c : Nat) (hs : Keeps s0 s) :
    Keeps s0 (State.applyPfBuf s c) := by
  unfold State.applyPfBuf
  repeat' with_reducible first
    | assumption | intro _
    | (extract_lets +onlyGivenNames x; clear_value (hx : x = _); first | refine Keeps.bind (s := s0) hx ?_ (fun _ => ?_) | (refine Keeps.isFaults x ?_; subst hx) | skip)
    | apply State.setCore_keeps | apply State.count_keeps | apply Keeps.ite | apply Keeps.foldl | (simp only [Keeps.mk_iff]; apply Keeps.parts) | split
    | dsimp only

theorem State.vprog_keeps {s0 : State} {s : State} (fl : Flight) (draws : Bool) (hs : Keeps s0 s) :
    Keeps s0 (State.vprog s fl draws) := by
  unfold State.vprog
  repeat' with_reducible first
    | assumption | intro _ | apply State.countCycles_keeps
    | (extract_lets +onlyGivenNames x; clear_value (hx : x = _); first | refine Keeps.bind (s := s0) hx ?_ (fun _ => ?_) | (refine Keeps.isFaults x ?_; subst hx) | skip)
    | apply State.modCore_keeps | apply State.programSettle_keeps | apply State.setFld_keeps | apply State.endFlight_keeps | apply State.stopProgram_keeps
    | apply State.count_keeps | apply State.applyPfBuf_keeps | apply Keeps.ite | apply Keeps.foldl | (simp only [Keeps.mk_iff]; apply Keeps.parts) | split
    | dsimp only

theorem execLd_keeps {s0 : State} (c : Nat) (t : Nat) (reg : Nat) (a : Nat) (size : Nat) {s : State} (hs : Keeps s0 s) :
    KeepsR s0 (execLd c t reg a size s) := by
  unfold execLd
  repeat' with_reducible first
    | assumption | intro _ | apply threadRow_keeps | apply State.access_keeps | apply KeepsR.next | exact KeepsR.fault | exact KeepsR.refused
    | apply KeepsR.onUnit | apply KeepsR.ite | apply Keeps.ite | apply Keeps.foldl | (simp only [Keeps.mk_iff]; apply Keeps.parts) | split | dsimp only

theorem execRandNbm_keeps {s0 : State} (c : Nat) (t : Nat) (lane : Nat) (reg0 : Nat) (reg1 : Nat) {s : State} (hs : Keeps s0 s) :
    KeepsR s0 (execRandNbm c t lane reg0 reg1 s) := by
  unfold execRandNbm
  repeat' with_reducible first
    | assumption | intro _
    | (extract_lets +onlyGivenNames x; clear_value (hx : x = _); first | refine Keeps.bind (s := s0) hx ?_ (fun _ => ?_) | refine Keeps.bindSnd (s := s0) hx ?_ (fun _ => ?_) | (refine Keeps.isFaults x ?_; subst hx) | skip)
    | apply randRow_keeps | apply State.drawLane_keeps | apply State.writeThreadReg_keeps | apply KeepsR.next | exact KeepsR.fault | exact KeepsR.refused
    | apply KeepsR.onUnit | apply KeepsR.ite | apply Keeps.ite | apply Keeps.foldl | (simp only [Keeps.mk_iff]; apply Keeps.parts) | apply Keeps.iteFst
    | apply Keeps.iteSnd | refine Keeps.sndEq (by assumption) ?_ | split | dsimp only

theorem execHalt_keeps {s0 : State} (c : Nat) (t : Nat) {s : State} (hs : Keeps s0 s) :
    KeepsR s0 (execHalt c t s) := by
  unfold execHalt
  repeat' with_reducible first
    | assumption | intro _ | apply State.countCycles_keeps
    | (extract_lets +onlyGivenNames x; clear_value (hx : x = _); first | refine Keeps.bind (s := s0) hx ?_ (fun _ => ?_) | (refine Keeps.isFaults x ?_; subst hx) | skip)
    | apply State.modCore_keeps | apply State.programSettle_keeps | apply threadRow_keeps | apply State.applyPfBuf_keeps | apply KeepsR.next
    | exact KeepsR.fault | exact KeepsR.refused | apply KeepsR.onUnit | apply KeepsR.ite | apply Keeps.ite | apply Keeps.foldl
    | (simp only [Keeps.mk_iff]; apply Keeps.parts) | split | dsimp only

theorem execMvLd_keeps {s0 : State} (c : Nat) (t : Nat) (m : Nat) (a : Nat) (spad : Nat) (n : Nat) {s : State} (hs : Keeps s0 s) :
    KeepsR s0 (execMvLd c t m a spad n s) := by
  unfold execMvLd
  repeat' with_reducible first
    | assumption | intro _ | apply threadRow_keeps | apply State.movement_keeps | apply KeepsR.next | exact KeepsR.fault | exact KeepsR.refused
    | apply KeepsR.onUnit | apply KeepsR.ite | apply Keeps.ite | apply Keeps.foldl | (simp only [Keeps.mk_iff]; apply Keeps.parts) | split | dsimp only

theorem execRandU_keeps {s0 : State} (c : Nat) (t : Nat) (lane : Nat) (reg : Nat) {s : State} (hs : Keeps s0 s) :
    KeepsR s0 (execRandU c t lane reg s) := by
  unfold execRandU
  repeat' with_reducible first
    | assumption | intro _ | apply randRow_keeps | apply State.writeThreadReg_keeps | apply KeepsR.next | exact KeepsR.fault | exact KeepsR.refused
    | apply KeepsR.onUnit | apply KeepsR.ite | apply Keeps.ite | apply Keeps.foldl | (simp only [Keeps.mk_iff]; apply Keeps.parts) | split | dsimp only

theorem execFenceFabric_keeps {s0 : State} (c : Nat) (t : Nat) {s : State} (hs : Keeps s0 s) :
    KeepsR s0 (execFenceFabric c t s) := by
  unfold execFenceFabric
  repeat' with_reducible first
    | assumption | intro _ | apply State.threadWait_keeps | apply threadRow_keeps | apply KeepsR.next | exact KeepsR.fault | exact KeepsR.refused
    | apply KeepsR.onUnit | apply KeepsR.ite | apply Keeps.ite | apply Keeps.foldl | (simp only [Keeps.mk_iff]; apply Keeps.parts) | split | dsimp only

theorem execSt_keeps {s0 : State} (c : Nat) (t : Nat) (reg : Option Nat) (value : Nat) (a : Nat) (size : Nat) {s : State} (hs : Keeps s0 s) :
    KeepsR s0 (execSt c t reg value a size s) := by
  unfold execSt
  repeat' with_reducible first
    | assumption | intro _
    | (extract_lets +onlyGivenNames x; clear_value (hx : x = _); first | refine Keeps.bind (s := s0) hx ?_ (fun _ => ?_) | (refine Keeps.isFaults x ?_; subst hx) | skip)
    | apply onUnit_keeps | apply threadRow_keeps | apply State.access_keeps | apply KeepsR.next | exact KeepsR.fault | exact KeepsR.refused
    | apply KeepsR.onUnit | apply KeepsR.ite | apply Keeps.ite | apply Keeps.foldl | (simp only [Keeps.mk_iff]; apply Keeps.parts) | split | dsimp only

theorem execMvPf_keeps {s0 : State} (c : Nat) (t : Nat) (m : Nat) (a : Nat) (n : Nat) {s : State} (hs : Keeps s0 s) :
    KeepsR s0 (execMvPf c t m a n s) := by
  unfold execMvPf
  repeat' with_reducible first
    | assumption | intro _ | apply threadRow_keeps | apply State.movement_keeps | apply KeepsR.next | exact KeepsR.fault | exact KeepsR.refused
    | apply KeepsR.onUnit | apply KeepsR.ite | apply Keeps.ite | apply Keeps.foldl | (simp only [Keeps.mk_iff]; apply Keeps.parts) | split | dsimp only

theorem execWaitc_keeps {s0 : State} (c : Nat) (t : Nat) (m : Nat) (v : Nat) {s : State} (hs : Keeps s0 s) :
    KeepsR s0 (execWaitc c t m v s) := by
  unfold execWaitc
  repeat' with_reducible first
    | assumption | intro _ | apply State.threadWait_keeps | apply threadRow_keeps | apply KeepsR.next | exact KeepsR.fault | exact KeepsR.refused
    | apply KeepsR.onUnit | apply KeepsR.ite | apply Keeps.ite | apply Keeps.foldl | (simp only [Keeps.mk_iff]; apply Keeps.parts) | split | dsimp only

theorem execFenceCluster_keeps {s0 : State} (c : Nat) (t : Nat) {s : State} (hs : Keeps s0 s) :
    KeepsR s0 (execFenceCluster c t s) := by
  unfold execFenceCluster
  repeat' with_reducible first
    | assumption | intro _ | apply State.threadWait_keeps | apply threadRow_keeps | apply KeepsR.next | exact KeepsR.fault | exact KeepsR.refused
    | apply KeepsR.onUnit | apply KeepsR.ite | apply Keeps.ite | apply Keeps.foldl | (simp only [Keeps.mk_iff]; apply Keeps.parts) | split | dsimp only

theorem execRddata_keeps {s0 : State} (k : Nat) {s : State} (hs : Keeps s0 s) :
    KeepsR s0 (execRddata k s) := by
  unfold execRddata
  repeat' with_reducible first
    | assumption | intro _ | apply State.rddata_keeps | apply State.onMsg_keeps | apply KeepsR.next | exact KeepsR.fault | exact KeepsR.refused
    | apply KeepsR.onUnit | apply KeepsR.ite | apply Keeps.ite | apply Keeps.foldl | (simp only [Keeps.mk_iff]; apply Keeps.parts) | split | dsimp only

theorem execTrace_keeps {s0 : State} (c : Nat) (t : Nat) (v : Nat) {s : State} (hs : Keeps s0 s) :
    KeepsR s0 (execTrace c t v s) := by
  unfold execTrace
  repeat' with_reducible first
    | assumption | intro _ | apply State.traceCore_keeps | apply threadRow_keeps | apply KeepsR.next | exact KeepsR.fault | exact KeepsR.refused
    | apply KeepsR.onUnit | apply KeepsR.ite | apply Keeps.ite | apply Keeps.foldl | (simp only [Keeps.mk_iff]; apply Keeps.parts) | split | dsimp only

theorem execVprog_keeps {s0 : State} (q : Nat) (i : Nat) (draws : Bool) (movBad : Bool) {s : State} (hs : Keeps s0 s) :
    KeepsR s0 (execVprog q i draws movBad s) := by
  unfold execVprog
  repeat' with_reducible first
    | assumption | intro _ | apply State.vprog_keeps | apply State.dispatch_keeps | apply KeepsR.next | exact KeepsR.fault | exact KeepsR.refused
    | apply KeepsR.onUnit | apply KeepsR.ite | apply Keeps.ite | apply Keeps.foldl | (simp only [Keeps.mk_iff]; apply Keeps.parts) | split | dsimp only

theorem execRemoteRequestTimeout_keeps {s0 : State} (tag : Nat) {s : State} (hs : Keeps s0 s) :
    KeepsR s0 (execRemoteRequestTimeout tag s) := by
  unfold execRemoteRequestTimeout
  repeat' with_reducible first
    | assumption | intro _
    | (extract_lets +onlyGivenNames x; clear_value (hx : x = _); first | refine Keeps.bind (s := s0) hx ?_ (fun _ => ?_) | (refine Keeps.isFaults x ?_; subst hx) | skip)
    | apply State.coreAnswer_keeps | apply State.dropRequest_keeps | apply State.answered_keeps | apply KeepsR.next | exact KeepsR.fault
    | exact KeepsR.refused | apply KeepsR.onUnit | apply KeepsR.ite | apply Keeps.ite | apply Keeps.foldl | (simp only [Keeps.mk_iff]; apply Keeps.parts)
    | split | dsimp only

end Sys2Proof.Machine
end

