-- ==== Sys2Proof/Laws/KeepsSleep.lean ====
section
/-!
SUPPORT. The operations of Machine/Sleep.lean leave the queue alone and keep the invariant (Laws/Keeps.lean).
-/

set_option linter.all false

namespace Sys2Proof.Machine

theorem State.enterSleep_keeps {s0 : State} {s : State} (c : Nat) (n : Nat) (hs : Keeps s0 s) :
    Keeps s0 (State.enterSleep s c n) := by
  unfold State.enterSleep
  repeat' with_reducible first
    | assumption | intro _
    | (extract_lets +onlyGivenNames x; clear_value (hx : x = _); first | refine Keeps.bind (s := s0) hx ?_ (fun _ => ?_) | (refine Keeps.isFaults x ?_; subst hx) | skip)
    | apply State.traceCore_keeps | apply State.sealWrite_keeps | apply State.setFld_keeps | apply State.traceFlush_keeps | apply State.setCore_keeps
    | apply State.count_keeps | apply State.release_keeps | apply Keeps.ite | apply Keeps.foldl | (simp only [Keeps.mk_iff]; apply Keeps.parts) | split
    | dsimp only

theorem execC2Entry_keeps {s0 : State} (c : Nat) {s : State} (hs : Keeps s0 s) :
    KeepsR s0 (execC2Entry c s) := by
  unfold execC2Entry
  repeat' with_reducible first
    | assumption | intro _ | apply onUnit_keeps | apply State.enterSleep_keeps | apply KeepsR.next | exact KeepsR.fault | exact KeepsR.refused
    | apply KeepsR.onUnit | apply KeepsR.ite | apply Keeps.ite | apply Keeps.foldl | (simp only [Keeps.mk_iff]; apply Keeps.parts) | split | dsimp only

theorem State.rebook_keeps {s0 : State} {s : State} (r : Nat) (ca : Nat) (o : Owner) (hs : Keeps s0 s) :
    Keeps s0 (State.rebook s r ca o) := by
  unfold State.rebook
  repeat' with_reducible first
    | assumption | intro _ | apply State.askSys_keeps | apply State.release_keeps | apply Keeps.ite | apply Keeps.foldl
    | (simp only [Keeps.mk_iff]; apply Keeps.parts) | split | dsimp only

theorem State.sleepBookings_keeps {s0 : State} {s : State} (c : Nat) (hs : Keeps s0 s) :
    Keeps s0 (State.sleepBookings s c) := by
  unfold State.sleepBookings
  repeat' with_reducible first
    | assumption | intro _
    | (extract_lets +onlyGivenNames x; clear_value (hx : x = _); first | refine Keeps.bind (s := s0) hx ?_ (fun _ => ?_) | (refine Keeps.isFaults x ?_; subst hx) | skip)
    | apply State.rebook_keeps | apply State.release_keeps | apply Keeps.ite | apply Keeps.foldl | (simp only [Keeps.mk_iff]; apply Keeps.parts) | split
    | dsimp only

theorem State.startWake_keeps {s0 : State} {s : State} (c : Nat) (cause : Nat) (hs : Keeps s0 s) :
    Keeps s0 (State.startWake s c cause) := by
  unfold State.startWake
  repeat' with_reducible first
    | assumption | intro _
    | (extract_lets +onlyGivenNames x; clear_value (hx : x = _); first | refine Keeps.bind (s := s0) hx ?_ (fun _ => ?_) | (refine Keeps.isFaults x ?_; subst hx) | skip)
    | apply State.modCore_keeps | apply State.setFld_keeps | apply State.askSys_keeps | apply State.sleepBookings_keeps | apply Keeps.ite
    | apply Keeps.foldl | (simp only [Keeps.mk_iff]; apply Keeps.parts) | split | dsimp only

theorem State.coreBeat_keeps {s0 : State} {s : State} (hs : Keeps s0 s) :
    Keeps s0 (State.coreBeat s) := by
  unfold State.coreBeat
  repeat' with_reducible first
    | assumption | intro _
    | (extract_lets +onlyGivenNames x; clear_value (hx : x = _); first | refine Keeps.bind (s := s0) hx ?_ (fun _ => ?_) | (refine Keeps.isFaults x ?_; subst hx) | skip)
    | apply State.modCore_keeps | apply State.count_keeps | apply Keeps.ite | apply Keeps.foldl | (simp only [Keeps.mk_iff]; apply Keeps.parts) | split
    | dsimp only

theorem State.coreWake_keeps {s0 : State} {s : State} (c : Nat) (cause : Nat) (hs : Keeps s0 s) :
    Keeps s0 (State.coreWake s c cause) := by
  unfold State.coreWake
  repeat' with_reducible first
    | assumption | intro _ | apply State.startWake_keeps | apply State.modCore_keeps | apply Keeps.ite | apply Keeps.foldl
    | (simp only [Keeps.mk_iff]; apply Keeps.parts) | split | dsimp only

theorem execC3Entry_keeps {s0 : State} (c : Nat) {s : State} (hs : Keeps s0 s) :
    KeepsR s0 (execC3Entry c s) := by
  unfold execC3Entry
  repeat' with_reducible first
    | assumption | intro _ | apply onUnit_keeps | apply State.enterSleep_keeps | apply KeepsR.next | exact KeepsR.fault | exact KeepsR.refused
    | apply KeepsR.onUnit | apply KeepsR.ite | apply Keeps.ite | apply Keeps.foldl | (simp only [Keeps.mk_iff]; apply Keeps.parts) | split | dsimp only

theorem execSleepEntryComplete_keeps {s0 : State} (c : Nat) {s : State} (hs : Keeps s0 s) :
    KeepsR s0 (execSleepEntryComplete c s) := by
  unfold execSleepEntryComplete
  repeat' with_reducible first
    | assumption | intro _
    | (extract_lets +onlyGivenNames x; clear_value (hx : x = _); first | refine Keeps.bind (s := s0) hx ?_ (fun _ => ?_) | (refine Keeps.isFaults x ?_; subst hx) | skip)
    | apply State.startWake_keeps | apply State.setFld_keeps | apply onUnit_keeps | apply State.setCore_keeps | apply State.sleepBookings_keeps
    | apply KeepsR.next | exact KeepsR.fault | exact KeepsR.refused | apply KeepsR.onUnit | apply KeepsR.ite | apply Keeps.ite | apply Keeps.foldl
    | (simp only [Keeps.mk_iff]; apply Keeps.parts) | split | dsimp only

theorem State.zeroScratch_keeps {s0 : State} {s : State} (c : Nat) (hs : Keeps s0 s) :
    Keeps s0 (State.zeroScratch s c) := by
  unfold State.zeroScratch
  repeat' with_reducible first
    | assumption | intro _
    | (extract_lets +onlyGivenNames x; clear_value (hx : x = _); first | refine Keeps.bind (s := s0) hx ?_ (fun _ => ?_) | (refine Keeps.isFaults x ?_; subst hx) | skip)
    | apply Keeps.ite | apply Keeps.foldl | (simp only [Keeps.mk_iff]; apply Keeps.parts) | (simp only [Keeps.mk_iff]; refine Keeps.dropped ?_ _) | split
    | dsimp only

theorem execWakeComplete_keeps {s0 : State} (c : Nat) {s : State} (hs : Keeps s0 s) :
    KeepsR s0 (execWakeComplete c s) := by
  unfold execWakeComplete
  repeat' with_reducible first
    | assumption | intro _
    | (extract_lets +onlyGivenNames x; clear_value (hx : x = _); first | refine Keeps.bind (s := s0) hx ?_ (fun _ => ?_) | (refine Keeps.isFaults x ?_; subst hx) | skip)
    | apply State.traceCore_keeps | apply State.modCore_keeps | apply State.setFld_keeps | apply State.zeroScratch_keeps | apply onUnit_keeps
    | apply State.sleepBookings_keeps | apply KeepsR.next | exact KeepsR.fault | exact KeepsR.refused | apply KeepsR.onUnit | apply KeepsR.ite
    | apply Keeps.ite | apply Keeps.foldl | (simp only [Keeps.mk_iff]; apply Keeps.parts) | split | dsimp only

theorem execC1Entry_keeps {s0 : State} (c : Nat) {s : State} (hs : Keeps s0 s) :
    KeepsR s0 (execC1Entry c s) := by
  unfold execC1Entry
  repeat' with_reducible first
    | assumption | intro _ | apply State.setFld_keeps | apply onUnit_keeps | apply State.count_keeps | apply KeepsR.next | exact KeepsR.fault
    | exact KeepsR.refused | apply KeepsR.onUnit | apply KeepsR.ite | apply Keeps.ite | apply Keeps.foldl | (simp only [Keeps.mk_iff]; apply Keeps.parts)
    | split | dsimp only

theorem execCoreWake_keeps {s0 : State} (c : Nat) (cause : Nat) {s : State} (hs : Keeps s0 s) :
    KeepsR s0 (execCoreWake c cause s) := by
  unfold execCoreWake
  repeat' with_reducible first
    | assumption | intro _ | apply State.coreWake_keeps | apply onUnit_keeps | apply KeepsR.next | exact KeepsR.fault | exact KeepsR.refused
    | apply KeepsR.onUnit | apply KeepsR.ite | apply Keeps.ite | apply Keeps.foldl | (simp only [Keeps.mk_iff]; apply Keeps.parts) | split | dsimp only

end Sys2Proof.Machine
end

