-- ==== Sys2Proof/Laws/KeepsTelemetry.lean ====
section
/-!
SUPPORT. The operations of Machine/Telemetry.lean leave the queue alone and keep the invariant (Laws/Keeps.lean).
-/

set_option linter.all false

namespace Sys2Proof.Machine

theorem State.newHour_keeps {s0 : State} {s : State} (hs : Keeps s0 s) :
    Keeps s0 (State.newHour s) := by
  unfold State.newHour
  repeat' with_reducible first
    | assumption | intro _
    | (extract_lets +onlyGivenNames x; clear_value (hx : x = _); first | refine Keeps.bind (s := s0) hx ?_ (fun _ => ?_) | (refine Keeps.isFaults x ?_; subst hx) | skip)
    | apply State.setFld_keeps | apply Keeps.ite | apply Keeps.foldl | (simp only [Keeps.mk_iff]; apply Keeps.parts) | split | dsimp only

theorem State.logWrite_keeps {s0 : State} {s : State} (n : Nat) (k : State → State) (hs : Keeps s0 s) (hk : ∀ y0, Keeps s0 y0 → Keeps s0 (k y0)) :
    Keeps s0 (State.logWrite s n k) := by
  unfold State.logWrite
  repeat' with_reducible first
    | assumption | intro _
    | (extract_lets +onlyGivenNames x; clear_value (hx : x = _); first | refine Keeps.bind (s := s0) hx ?_ (fun _ => ?_) | (refine Keeps.isFaults x ?_; subst hx) | skip)
    | apply State.askSys_keeps | apply hk | apply Keeps.ite | apply Keeps.foldl | (simp only [Keeps.mk_iff]; apply Keeps.parts) | split | dsimp only

theorem State.storeWrite_keeps {s0 : State} {s : State} (o : Nat) (bs : List Byte) (hs : Keeps s0 s) :
    Keeps s0 (State.storeWrite s o bs) := by
  unfold State.storeWrite
  repeat' with_reducible first
    | assumption | intro _
    | (extract_lets +onlyGivenNames x; clear_value (hx : x = _); first | refine Keeps.bind (s := s0) hx ?_ (fun _ => ?_) | (refine Keeps.isFaults x ?_; subst hx) | skip)
    | apply Keeps.ite | apply Keeps.foldl | (simp only [Keeps.mk_iff]; apply Keeps.parts) | split | dsimp only

theorem execHourlyDigest_keeps {s0 : State} {s : State} (hs : Keeps s0 s) :
    KeepsR s0 (execHourlyDigest s) := by
  unfold execHourlyDigest
  repeat' with_reducible first
    | assumption | intro _
    | (extract_lets +onlyGivenNames x; clear_value (hx : x = _); first | refine Keeps.bind (s := s0) hx ?_ (fun _ => ?_) | (refine Keeps.isFaults x ?_; subst hx) | skip)
    | apply State.newHour_keeps | apply State.logWrite_keeps | apply State.storeWrite_keeps | apply KeepsR.next | exact KeepsR.fault
    | exact KeepsR.refused | apply KeepsR.onUnit | apply KeepsR.ite | apply Keeps.ite | apply Keeps.foldl | (simp only [Keeps.mk_iff]; apply Keeps.parts)
    | split | dsimp only

theorem execCtrClear_keeps {s0 : State} (f : Nat) (off : Nat) {s : State} (hs : Keeps s0 s) :
    KeepsR s0 (execCtrClear f off s) := by
  unfold execCtrClear
  repeat' with_reducible first
    | assumption | intro _ | apply onUnit_keeps | apply KeepsR.next | exact KeepsR.fault | exact KeepsR.refused | apply KeepsR.onUnit | apply KeepsR.ite
    | apply Keeps.ite | apply Keeps.foldl | (simp only [Keeps.mk_iff]; apply Keeps.parts) | split | dsimp only

theorem State.writeEvent_keeps {s0 : State} {s : State} (e : SlogEvent) (hs : Keeps s0 s) :
    Keeps s0 (State.writeEvent s e) := by
  unfold State.writeEvent
  repeat' with_reducible first
    | assumption | intro _
    | (extract_lets +onlyGivenNames x; clear_value (hx : x = _); first | refine Keeps.bind (s := s0) hx ?_ (fun _ => ?_) | (refine Keeps.isFaults x ?_; subst hx) | skip)
    | apply State.setFld_keeps | apply State.tally_keeps | apply State.storeWrite_keeps | apply State.send_keeps | apply Keeps.ite | apply Keeps.foldl
    | (simp only [Keeps.mk_iff]; apply Keeps.parts) | split | dsimp only

theorem execHealthBeacon_keeps {s0 : State} {s : State} (hs : Keeps s0 s) :
    KeepsR s0 (execHealthBeacon s) := by
  unfold execHealthBeacon
  repeat' with_reducible first
    | assumption | intro _
    | (extract_lets +onlyGivenNames x; clear_value (hx : x = _); first | refine Keeps.bind (s := s0) hx ?_ (fun _ => ?_) | (refine Keeps.isFaults x ?_; subst hx) | skip)
    | apply State.count_keeps | apply State.send_keeps | apply KeepsR.next | exact KeepsR.fault | exact KeepsR.refused | apply KeepsR.onUnit
    | apply KeepsR.ite | apply Keeps.ite | apply Keeps.foldl | (simp only [Keeps.mk_iff]; apply Keeps.parts) | split | dsimp only

theorem State.dropEvent_keeps {s0 : State} {s : State} (hs : Keeps s0 s) :
    Keeps s0 (State.dropEvent s) := by
  unfold State.dropEvent
  repeat' with_reducible first
    | assumption | intro _ | apply State.setFld_keeps | apply Keeps.ite | apply Keeps.foldl | (simp only [Keeps.mk_iff]; apply Keeps.parts)
    | (simp only [Keeps.mk_iff]; refine Keeps.withSlog ?_ (fun h => by rw [List.length_drop]; omega)) | split | dsimp only

theorem execServiceLogEventWrite_keeps {s0 : State} {s : State} (hs : Keeps s0 s) :
    KeepsR s0 (execServiceLogEventWrite s) := by
  unfold execServiceLogEventWrite
  repeat' with_reducible first
    | assumption | intro _ | apply State.logWrite_keeps | apply State.dropEvent_keeps | apply State.writeEvent_keeps | apply State.tally_keeps
    | apply State.count_keeps | apply KeepsR.next | exact KeepsR.fault | exact KeepsR.refused | apply KeepsR.onUnit | apply KeepsR.ite | apply Keeps.ite
    | apply Keeps.foldl | (simp only [Keeps.mk_iff]; apply Keeps.parts) | split | dsimp only

theorem execMaxclr_keeps {s0 : State} {s : State} (hs : Keeps s0 s) :
    KeepsR s0 (execMaxclr s) := by
  unfold execMaxclr
  repeat' with_reducible first
    | assumption | intro _
    | (extract_lets +onlyGivenNames x; clear_value (hx : x = _); first | refine Keeps.bind (s := s0) hx ?_ (fun _ => ?_) | (refine Keeps.isFaults x ?_; subst hx) | skip)
    | apply KeepsR.next | exact KeepsR.fault | exact KeepsR.refused | apply KeepsR.onUnit | apply KeepsR.ite | apply Keeps.ite | apply Keeps.foldl
    | (simp only [Keeps.mk_iff]; apply Keeps.parts) | split | dsimp only

theorem execMarginSweepComplete_keeps {s0 : State} (k : Nat) (slacks : List Int) {s : State} (hs : Keeps s0 s) :
    KeepsR s0 (execMarginSweepComplete k slacks s) := by
  unfold execMarginSweepComplete
  repeat' with_reducible first
    | assumption | intro _
    | (extract_lets +onlyGivenNames x; clear_value (hx : x = _); first | refine Keeps.bind (s := s0) hx ?_ (fun _ => ?_) | (refine Keeps.isFaults x ?_; subst hx) | skip)
    | apply State.setReg_keeps | apply onUnit_keeps | apply State.count_keeps | apply State.release_keeps | apply State.event_keeps | apply KeepsR.next
    | exact KeepsR.fault | exact KeepsR.refused | apply KeepsR.onUnit | apply KeepsR.ite | apply Keeps.ite | apply Keeps.foldl
    | (simp only [Keeps.mk_iff]; apply Keeps.parts) | split | dsimp only

theorem execMarginSweep_keeps {s0 : State} (k : Nat) {s : State} (hs : Keeps s0 s) :
    KeepsR s0 (execMarginSweep k s) := by
  unfold execMarginSweep
  repeat' with_reducible first
    | assumption | intro _
    | (extract_lets +onlyGivenNames x; clear_value (hx : x = _); first | refine Keeps.bind (s := s0) hx ?_ (fun _ => ?_) | (refine Keeps.isFaults x ?_; subst hx) | skip)
    | apply State.askSys_keeps | apply onUnit_keeps | apply KeepsR.next | exact KeepsR.fault | exact KeepsR.refused | apply KeepsR.onUnit
    | apply KeepsR.ite | apply Keeps.ite | apply Keeps.foldl | (simp only [Keeps.mk_iff]; apply Keeps.parts) | split | dsimp only

theorem execTraceFlush_keeps {s0 : State} (k : Nat) {s : State} (hs : Keeps s0 s) :
    KeepsR s0 (execTraceFlush k s) := by
  unfold execTraceFlush
  repeat' with_reducible first
    | assumption | intro _
    | (extract_lets +onlyGivenNames x; clear_value (hx : x = _); first | refine Keeps.bind (s := s0) hx ?_ (fun _ => ?_) | (refine Keeps.isFaults x ?_; subst hx) | skip)
    | apply State.traceFlush_keeps | apply onUnit_keeps | apply KeepsR.next | exact KeepsR.fault | exact KeepsR.refused | apply KeepsR.onUnit
    | apply KeepsR.ite | apply Keeps.ite | apply Keeps.foldl | (simp only [Keeps.mk_iff]; apply Keeps.parts) | split | dsimp only

theorem execTraceStart_keeps {s0 : State} (k : Nat) {s : State} (hs : Keeps s0 s) :
    KeepsR s0 (execTraceStart k s) := by
  unfold execTraceStart
  repeat' with_reducible first
    | assumption | intro _
    | (extract_lets +onlyGivenNames x; clear_value (hx : x = _); first | refine Keeps.bind (s := s0) hx ?_ (fun _ => ?_) | (refine Keeps.isFaults x ?_; subst hx) | skip)
    | apply onUnit_keeps | apply State.setTraceBuf_keeps | apply KeepsR.next | exact KeepsR.fault | exact KeepsR.refused | apply KeepsR.onUnit
    | apply KeepsR.ite | apply Keeps.ite | apply Keeps.foldl | (simp only [Keeps.mk_iff]; apply Keeps.parts) | split | dsimp only

theorem execTelEvselWrite_keeps {s0 : State} (k : Nat) (n : Nat) (val : Nat) {s : State} (hs : Keeps s0 s) :
    KeepsR s0 (execTelEvselWrite k n val s) := by
  unfold execTelEvselWrite
  repeat' with_reducible first
    | assumption | intro _
    | (extract_lets +onlyGivenNames x; clear_value (hx : x = _); first | refine Keeps.bind (s := s0) hx ?_ (fun _ => ?_) | (refine Keeps.isFaults x ?_; subst hx) | skip)
    | apply State.setReg_keeps | apply onUnit_keeps | apply KeepsR.next | exact KeepsR.fault | exact KeepsR.refused | apply KeepsR.onUnit
    | apply KeepsR.ite | apply Keeps.ite | apply Keeps.foldl | (simp only [Keeps.mk_iff]; apply Keeps.parts) | split | dsimp only

theorem State.zeroCtr_keeps {s0 : State} {s : State} (k : Nat) (hs : Keeps s0 s) :
    Keeps s0 (State.zeroCtr s k) := by
  unfold State.zeroCtr
  repeat' with_reducible first
    | assumption | intro _
    | (extract_lets +onlyGivenNames x; clear_value (hx : x = _); first | refine Keeps.bind (s := s0) hx ?_ (fun _ => ?_) | (refine Keeps.isFaults x ?_; subst hx) | skip)
    | apply Keeps.ite | apply Keeps.foldl | (simp only [Keeps.mk_iff]; apply Keeps.parts)
    | (simp only [Keeps.mk_iff]; refine Keeps.withRegs ?_ (smapWf_drop _)) | split | dsimp only

theorem execSnapGo_keeps {s0 : State} (g : Nat) {s : State} (hs : Keeps s0 s) :
    KeepsR s0 (execSnapGo g s) := by
  unfold execSnapGo
  repeat' with_reducible first
    | assumption | intro _ | apply State.setFld_keeps | apply onUnit_keeps | apply KeepsR.next | exact KeepsR.fault | exact KeepsR.refused
    | apply KeepsR.onUnit | apply KeepsR.ite | apply Keeps.ite | apply Keeps.foldl | (simp only [Keeps.mk_iff]; apply Keeps.parts) | split | dsimp only

theorem State.doClear_keeps {s0 : State} {s : State} (b : Blk) (i : Nat) (hs : Keeps s0 s) :
    Keeps s0 (State.doClear s b i) := by
  unfold State.doClear
  repeat' with_reducible first
    | assumption | intro _
    | (extract_lets +onlyGivenNames x; clear_value (hx : x = _); first | refine Keeps.bind (s := s0) hx ?_ (fun _ => ?_) | (refine Keeps.isFaults x ?_; subst hx) | skip)
    | apply State.setFld_keeps | apply State.zeroCtr_keeps | apply Keeps.ite | apply Keeps.foldl | (simp only [Keeps.mk_iff]; apply Keeps.parts) | split
    | dsimp only

end Sys2Proof.Machine
end

