-- ==== Sys2Proof/Laws/KeepsJournal.lean ====
section
/-!
SUPPORT. The operations of Machine/Journal.lean leave the queue alone and keep the invariant (Laws/Keeps.lean).
-/

set_option linter.all false

namespace Sys2Proof.Machine

theorem State.putHeader_keeps {s0 : State} {s : State} (region : Nat) (gen : Nat) (first : Nat) (st : Nat) (hs : Keeps s0 s) :
    Keeps s0 (State.putHeader s region gen first st) := by
  unfold State.putHeader
  repeat' with_reducible first
    | assumption | intro _ | apply State.storeWrite_keeps | apply Keeps.ite | apply Keeps.foldl | (simp only [Keeps.mk_iff]; apply Keeps.parts) | split
    | dsimp only

theorem State.putRec_keeps {s0 : State} {s : State} (r : JRec) (flags : Nat) (batchLen : Nat) (hs : Keeps s0 s) :
    Keeps s0 (State.putRec s r flags batchLen) := by
  unfold State.putRec
  repeat' with_reducible first
    | assumption | intro _
    | (extract_lets +onlyGivenNames x; clear_value (hx : x = _); first | refine Keeps.bind (s := s0) hx ?_ (fun _ => ?_) | (refine Keeps.isFaults x ?_; subst hx) | skip)
    | apply State.storeWrite_keeps | apply Keeps.ite | apply Keeps.foldl | (simp only [Keeps.mk_iff]; apply Keeps.parts) | split | dsimp only

theorem State.putBatch_keeps {s0 : State} {s : State} (n : Nat) (x3 : Nat) (x4 : List Nat) (x5 : List JRec) (hs : Keeps s0 s) :
    Keeps s0 (State.putBatch s n x3 x4 x5).1 := by
  induction x5 generalizing s n x3 x4 with
  | nil =>
    unfold State.putBatch
    repeat' with_reducible first
      | assumption | intro _ | apply State.putRec_keeps | apply Keeps.ite | apply Keeps.foldl | (simp only [Keeps.mk_iff]; apply Keeps.parts)
      | apply Keeps.iteFst | apply Keeps.iteSnd | refine Keeps.fstEq (by assumption) ?_ | split | dsimp only
  | cons y ys ih =>
    unfold State.putBatch
    repeat' with_reducible first
      | assumption | intro _ | apply State.putRec_keeps | apply ih | apply Keeps.ite | apply Keeps.foldl | (simp only [Keeps.mk_iff]; apply Keeps.parts)
      | apply Keeps.iteFst | apply Keeps.iteSnd | refine Keeps.fstEq (by assumption) ?_ | split | dsimp only

theorem State.storeKick_keeps {s0 : State} {s : State} (hs : Keeps s0 s) :
    Keeps s0 (State.storeKick s) := by
  unfold State.storeKick
  repeat' with_reducible first
    | assumption | intro _
    | (extract_lets +onlyGivenNames x; clear_value (hx : x = _); first | refine Keeps.bind (s := s0) hx ?_ (fun _ => ?_) | (refine Keeps.isFaults x ?_; subst hx) | skip)
    | apply State.askSys_keeps | apply Keeps.ite | apply Keeps.foldl | (simp only [Keeps.mk_iff]; apply Keeps.parts) | split | dsimp only

theorem State.copyBatch_keeps {s0 : State} {s : State} (hs : Keeps s0 s) :
    Keeps s0 (State.copyBatch s) := by
  unfold State.copyBatch
  repeat' with_reducible first
    | assumption | intro _
    | (extract_lets +onlyGivenNames x; clear_value (hx : x = _); first | refine Keeps.bind (s := s0) hx ?_ (fun _ => ?_) | refine Keeps.bindFst (s := s0) hx ?_ (fun _ => ?_) | (refine Keeps.isFaults x ?_; subst hx) | skip)
    | apply State.putHeader_keeps | apply State.putBatch_keeps | apply State.putRec_keeps | apply State.storeKick_keeps | apply Keeps.ite
    | apply Keeps.foldl | (simp only [Keeps.mk_iff]; apply Keeps.parts) | apply Keeps.iteFst | apply Keeps.iteSnd | refine Keeps.fstEq (by assumption) ?_
    | split | dsimp only

theorem execCompactionCopy_keeps {s0 : State} {s : State} (hs : Keeps s0 s) :
    KeepsR s0 (execCompactionCopy s) := by
  unfold execCompactionCopy
  repeat' with_reducible first
    | assumption | intro _
    | (extract_lets +onlyGivenNames x; clear_value (hx : x = _); first | refine Keeps.bind (s := s0) hx ?_ (fun _ => ?_) | (refine Keeps.isFaults x ?_; subst hx) | skip)
    | apply State.askSys_keeps | apply State.copyBatch_keeps | apply KeepsR.next | exact KeepsR.fault | exact KeepsR.refused | apply KeepsR.onUnit
    | apply KeepsR.ite | apply Keeps.ite | apply Keeps.foldl | (simp only [Keeps.mk_iff]; apply Keeps.parts) | split | dsimp only

theorem State.switchRegion_keeps {s0 : State} {s : State} (hs : Keeps s0 s) :
    Keeps s0 (State.switchRegion s) := by
  unfold State.switchRegion
  repeat' with_reducible first
    | assumption | intro _
    | (extract_lets +onlyGivenNames x; clear_value (hx : x = _); first | refine Keeps.bind (s := s0) hx ?_ (fun _ => ?_) | (refine Keeps.isFaults x ?_; subst hx) | skip)
    | apply State.putHeader_keeps | apply Keeps.ite | apply Keeps.foldl | (simp only [Keeps.mk_iff]; apply Keeps.parts) | split | dsimp only

theorem State.persist_keeps {s0 : State} {s : State} (b : OdBatch) (hs : Keeps s0 s) :
    Keeps s0 (State.persist s b) := by
  unfold State.persist
  repeat' with_reducible first
    | assumption | intro _
    | (extract_lets +onlyGivenNames x; clear_value (hx : x = _); first | refine Keeps.bind (s := s0) hx ?_ (fun _ => ?_) | (refine Keeps.isFaults x ?_; subst hx) | skip)
    | apply State.storeKick_keeps | apply Keeps.ite | apply Keeps.foldl | (simp only [Keeps.mk_iff]; apply Keeps.parts) | split | dsimp only

theorem State.rebuild_keeps {s0 : State} {s : State} (hs : Keeps s0 s) :
    Keeps s0 (State.rebuild s) := by
  unfold State.rebuild
  repeat' with_reducible first
    | assumption | intro _
    | (extract_lets +onlyGivenNames x; clear_value (hx : x = _); first | refine Keeps.bind (s := s0) hx ?_ (fun _ => ?_) | (refine Keeps.isFaults x ?_; subst hx) | skip)
    | apply State.event_keeps | apply Keeps.ite | apply Keeps.foldl | (simp only [Keeps.mk_iff]; apply Keeps.parts) | split | dsimp only

end Sys2Proof.Machine
end

