-- ==== Sys2Proof/Laws/KeepsOd.lean ====
section
/-!
SUPPORT. The operations of Machine/Od.lean leave the queue alone and keep the invariant (Laws/Keeps.lean).
-/

set_option linter.all false

namespace Sys2Proof.Machine

theorem State.odServe_keeps {s0 : State} {s : State} (tr : Nat) (pick : OdRequest → Bool) (k : OdRequest → State) (hs : Keeps s0 s) (hk : ∀ y0, Keeps s0 (k y0)) :
    KeepsR s0 (State.odServe s tr pick k) := by
  unfold State.odServe
  repeat' with_reducible first
    | assumption | intro _ | apply onUnit_keeps | apply hk | apply KeepsR.next | exact KeepsR.fault | exact KeepsR.refused | apply KeepsR.onUnit
    | apply KeepsR.ite | apply Keeps.ite | apply Keeps.foldl | (simp only [Keeps.mk_iff]; apply Keeps.parts) | split | dsimp only

theorem State.canResult_keeps {s0 : State} {s : State} (dst : Nat) (tid : Nat) (d : List Byte) (hs : Keeps s0 s) :
    Keeps s0 (State.canResult s dst tid d) := by
  unfold State.canResult
  repeat' with_reducible first
    | assumption | intro _ | apply State.send_keeps | apply Keeps.ite | apply Keeps.foldl | (simp only [Keeps.mk_iff]; apply Keeps.parts) | split
    | dsimp only

theorem State.odAnswer_keeps {s0 : State} {s : State} (r : OdRequest) (code : Nat) (value : List Byte) (hs : Keeps s0 s) :
    Keeps s0 (State.odAnswer s r code value) := by
  unfold State.odAnswer
  repeat' with_reducible first
    | assumption | intro _
    | (extract_lets +onlyGivenNames x; clear_value (hx : x = _); first | refine Keeps.bind (s := s0) hx ?_ (fun _ => ?_) | (refine Keeps.isFaults x ?_; subst hx) | skip)
    | apply State.setFld_keeps | apply State.canResult_keeps | apply State.raiseVector_keeps | apply State.send_keeps | apply Keeps.ite
    | apply Keeps.foldl | (simp only [Keeps.mk_iff]; apply Keeps.parts) | split | dsimp only

theorem State.odEnd_keeps {s0 : State} {s : State} (r : OdRequest) (code : Nat) (value : List Byte) (hs : Keeps s0 s) :
    Keeps s0 (State.odEnd s r code value) := by
  unfold State.odEnd
  repeat' with_reducible first
    | assumption | intro _
    | (extract_lets +onlyGivenNames x; clear_value (hx : x = _); first | refine Keeps.bind (s := s0) hx ?_ (fun _ => ?_) | (refine Keeps.isFaults x ?_; subst hx) | skip)
    | apply State.odAnswer_keeps | apply Keeps.ite | apply Keeps.foldl | (simp only [Keeps.mk_iff]; apply Keeps.parts) | split | dsimp only

theorem State.odAction_keeps {s0 : State} {s : State} (tr : Nat) (pick : Nat → Nat → Bool) (k : OdRequest → Nat → State) (hs : Keeps s0 s) (hk : ∀ y0 y1, Keeps s0 (k y0 y1)) :
    KeepsR s0 (State.odAction s tr pick k) := by
  unfold State.odAction
  repeat' with_reducible first
    | assumption | intro _ | apply State.odServe_keeps | apply State.odEnd_keeps | apply hk | apply KeepsR.next | exact KeepsR.fault
    | exact KeepsR.refused | apply KeepsR.onUnit | apply KeepsR.ite | apply Keeps.ite | apply Keeps.foldl | (simp only [Keeps.mk_iff]; apply Keeps.parts)
    | split | dsimp only

theorem State.canMore_keeps {s0 : State} {s : State} (x : CanOut) (x3 : Nat) (hs : Keeps s0 s) :
    Keeps s0 (State.canMore s x x3) := by
  induction x3 generalizing s x with
  | zero =>
    unfold State.canMore
    repeat' with_reducible first
      | assumption | intro _ | apply State.canResult_keeps | apply Keeps.ite | apply Keeps.foldl | (simp only [Keeps.mk_iff]; apply Keeps.parts)
      | split | dsimp only
  | succ m ih =>
    unfold State.canMore
    repeat' with_reducible first
      | assumption | intro _ | apply State.canResult_keeps | apply ih | apply Keeps.ite | apply Keeps.foldl | (simp only [Keeps.mk_iff]; apply Keeps.parts)
      | split | dsimp only

theorem State.batchWrite_keeps {s0 : State} {s : State} (b : OdBatch) (fails : List Nat) (hs : Keeps s0 s) :
    Keeps s0 (State.batchWrite s b fails).1 := by
  unfold State.batchWrite
  repeat' with_reducible first
    | assumption | intro _
    | (extract_lets +onlyGivenNames x; clear_value (hx : x = _); first | refine Keeps.bind (s := s0) hx ?_ (fun _ => ?_) | refine Keeps.bindFst (s := s0) hx ?_ (fun _ => ?_) | (refine Keeps.isFaults x ?_; subst hx) | skip)
    | apply State.putBatch_keeps | apply State.switchRegion_keeps | apply Keeps.ite | apply Keeps.foldl | (simp only [Keeps.mk_iff]; apply Keeps.parts)
    | apply Keeps.iteFst | apply Keeps.iteSnd | refine Keeps.fstEq (by assumption) ?_ | split | dsimp only

theorem State.layoutRun_keeps {s0 : State} {s : State} (f : Nat) (first : Nat) (count : Nat) (tier : Nat) (hs : Keeps s0 s) :
    Keeps s0 (State.layoutRun s f first count tier) := by
  unfold State.layoutRun
  repeat' with_reducible first
    | assumption | intro _
    | (extract_lets +onlyGivenNames x; clear_value (hx : x = _); first | refine Keeps.bind (s := s0) hx ?_ (fun _ => ?_) | (refine Keeps.isFaults x ?_; subst hx) | skip)
    | apply State.assignGranule_keeps | apply Keeps.ite | apply Keeps.foldl | (simp only [Keeps.mk_iff]; apply Keeps.parts) | split | dsimp only

theorem State.layoutRuns_keeps {s0 : State} {s : State} (f : Nat) (hs : Keeps s0 s) :
    Keeps s0 (State.layoutRuns s f) := by
  unfold State.layoutRuns
  repeat' with_reducible first
    | assumption | intro _
    | (extract_lets +onlyGivenNames x; clear_value (hx : x = _); first | refine Keeps.bind (s := s0) hx ?_ (fun _ => ?_) | (refine Keeps.isFaults x ?_; subst hx) | skip)
    | apply State.layoutRun_keeps | apply Keeps.ite | apply Keeps.foldl | (simp only [Keeps.mk_iff]; apply Keeps.parts) | split | dsimp only

theorem State.layoutEnable_keeps {s0 : State} {s : State} (f : Nat) (hs : Keeps s0 s) :
    Keeps s0 (State.layoutEnable s f) := by
  unfold State.layoutEnable
  repeat' with_reducible first
    | assumption | intro _
    | (extract_lets +onlyGivenNames x; clear_value (hx : x = _); first | refine Keeps.bind (s := s0) hx ?_ (fun _ => ?_) | (refine Keeps.isFaults x ?_; subst hx) | skip)
    | apply State.cfgErr_keeps | apply State.setEnabled_keeps | apply Keeps.ite | apply Keeps.foldl | (simp only [Keeps.mk_iff]; apply Keeps.parts)
    | split | dsimp only

theorem State.layoutEntry_keeps {s0 : State} {s : State} (f : Nat) (hs : Keeps s0 s) :
    Keeps s0 (State.layoutEntry s f) := by
  unfold State.layoutEntry
  repeat' with_reducible first
    | assumption | intro _
    | (extract_lets +onlyGivenNames x; clear_value (hx : x = _); first | refine Keeps.bind (s := s0) hx ?_ (fun _ => ?_) | (refine Keeps.isFaults x ?_; subst hx) | skip)
    | apply State.setReg_keeps | apply State.setFld_keeps | apply State.countCores_keeps | apply Keeps.ite | apply Keeps.foldl
    | (simp only [Keeps.mk_iff]; apply Keeps.parts) | split | dsimp only

theorem State.layoutApply_keeps {s0 : State} {s : State} (hs : Keeps s0 s) :
    Keeps s0 (State.layoutApply s) := by
  unfold State.layoutApply
  repeat' with_reducible first
    | assumption | intro _
    | (extract_lets +onlyGivenNames x; clear_value (hx : x = _); first | refine Keeps.bind (s := s0) hx ?_ (fun _ => ?_) | (refine Keeps.isFaults x ?_; subst hx) | skip)
    | apply State.layoutRuns_keeps | apply State.giveGranule_keeps | apply State.layoutEnable_keeps | apply State.setEnabled_keeps
    | apply State.refreshHeads_keeps | apply State.layoutEntry_keeps | apply Keeps.ite | apply Keeps.foldl | (simp only [Keeps.mk_iff]; apply Keeps.parts)
    | split | dsimp only

theorem execDefaults_keeps {s0 : State} (tr : Nat) {s : State} (hs : Keeps s0 s) :
    KeepsR s0 (execDefaults tr s) := by
  unfold execDefaults
  repeat' with_reducible first
    | assumption | intro _
    | (extract_lets +onlyGivenNames x; clear_value (hx : x = _); first | refine Keeps.bind (s := s0) hx ?_ (fun _ => ?_) | (refine Keeps.isFaults x ?_; subst hx) | skip)
    | apply State.odEnd_keeps | apply State.odAction_keeps | apply State.persist_keeps | apply KeepsR.next | exact KeepsR.fault | exact KeepsR.refused
    | apply KeepsR.onUnit | apply KeepsR.ite | apply Keeps.ite | apply Keeps.foldl | (simp only [Keeps.mk_iff]; apply Keeps.parts) | split | dsimp only

theorem State.odArrive_keeps {s0 : State} {s : State} (r : OdRequest) (hs : Keeps s0 s) :
    Keeps s0 (State.odArrive s r) := by
  unfold State.odArrive
  repeat' with_reducible first
    | assumption | intro _
    | (extract_lets +onlyGivenNames x; clear_value (hx : x = _); first | refine Keeps.bind (s := s0) hx ?_ (fun _ => ?_) | (refine Keeps.isFaults x ?_; subst hx) | skip)
    | apply State.odAnswer_keeps | apply Keeps.ite | apply Keeps.foldl | (simp only [Keeps.mk_iff]; apply Keeps.parts) | split | dsimp only

theorem execMctpOdRequest_keeps {s0 : State} (i3c : Bool) (src : Nat) (tag : Nat) (body : List Byte) {s : State} (hs : Keeps s0 s) :
    KeepsR s0 (execMctpOdRequest i3c src tag body s) := by
  unfold execMctpOdRequest
  repeat' with_reducible first
    | assumption | intro _
    | (extract_lets +onlyGivenNames x; clear_value (hx : x = _); first | refine Keeps.bind (s := s0) hx ?_ (fun _ => ?_) | (refine Keeps.isFaults x ?_; subst hx) | skip)
    | apply State.odArrive_keeps | apply KeepsR.next | exact KeepsR.fault | exact KeepsR.refused | apply KeepsR.onUnit | apply KeepsR.ite
    | apply Keeps.ite | apply Keeps.foldl | (simp only [Keeps.mk_iff]; apply Keeps.parts) | split | dsimp only

theorem State.newContract_keeps {s0 : State} {s : State} (cause : Nat) (hs : Keeps s0 s) :
    Keeps s0 (State.newContract s cause) := by
  unfold State.newContract
  repeat' with_reducible first
    | assumption | intro _
    | (extract_lets +onlyGivenNames x; clear_value (hx : x = _); first | refine Keeps.bind (s := s0) hx ?_ (fun _ => ?_) | (refine Keeps.isFaults x ?_; subst hx) | skip)
    | apply State.setReg_keeps | apply State.event_keeps | apply Keeps.ite | apply Keeps.foldl | (simp only [Keeps.mk_iff]; apply Keeps.parts) | split
    | dsimp only

theorem execTokenRefill_keeps {s0 : State} {s : State} (hs : Keeps s0 s) :
    KeepsR s0 (execTokenRefill s) := by
  unfold execTokenRefill
  repeat' with_reducible first
    | assumption | intro _
    | (extract_lets +onlyGivenNames x; clear_value (hx : x = _); first | refine Keeps.bind (s := s0) hx ?_ (fun _ => ?_) | (refine Keeps.isFaults x ?_; subst hx) | skip)
    | apply KeepsR.next | exact KeepsR.fault | exact KeepsR.refused | apply KeepsR.onUnit | apply KeepsR.ite | apply Keeps.ite | apply Keeps.foldl
    | (simp only [Keeps.mk_iff]; apply Keeps.parts) | split | dsimp only

theorem State.odPersist_keeps {s0 : State} {s : State} (r : OdRequest) (entries : List (Nat × Nat × Option (List Byte))) (staged : List (Nat × List Byte)) (hs : Keeps s0 s) :
    Keeps s0 (State.odPersist s r entries staged) := by
  unfold State.odPersist
  repeat' with_reducible first
    | assumption | intro _
    | (extract_lets +onlyGivenNames x; clear_value (hx : x = _); first | refine Keeps.bind (s := s0) hx ?_ (fun _ => ?_) | (refine Keeps.isFaults x ?_; subst hx) | skip)
    | apply State.odEnd_keeps | apply State.persist_keeps | apply Keeps.ite | apply Keeps.foldl | (simp only [Keeps.mk_iff]; apply Keeps.parts) | split
    | dsimp only

theorem execOdCommit_keeps {s0 : State} (tr : Nat) {s : State} (hs : Keeps s0 s) :
    KeepsR s0 (execOdCommit tr s) := by
  unfold execOdCommit
  repeat' with_reducible first
    | assumption | intro _
    | (extract_lets +onlyGivenNames x; clear_value (hx : x = _); first | refine Keeps.bind (s := s0) hx ?_ (fun _ => ?_) | (refine Keeps.isFaults x ?_; subst hx) | skip)
    | apply State.odPersist_keeps | apply State.odEnd_keeps | apply State.odAction_keeps | apply KeepsR.next | exact KeepsR.fault | exact KeepsR.refused
    | apply KeepsR.onUnit | apply KeepsR.ite | apply Keeps.ite | apply Keeps.foldl | (simp only [Keeps.mk_iff]; apply Keeps.parts) | split | dsimp only

theorem execFirst_keeps {s0 : State} (id : Nat) (data : List Byte) {s : State} (hs : Keeps s0 s) :
    KeepsR s0 (execFirst id data s) := by
  unfold execFirst
  repeat' with_reducible first
    | assumption | intro _
    | (extract_lets +onlyGivenNames x; clear_value (hx : x = _); first | refine Keeps.bind (s := s0) hx ?_ (fun _ => ?_) | (refine Keeps.isFaults x ?_; subst hx) | skip)
    | apply State.odAnswer_keeps | apply State.canResult_keeps | apply KeepsR.next | exact KeepsR.fault | exact KeepsR.refused | apply KeepsR.onUnit
    | apply KeepsR.ite | apply Keeps.ite | apply Keeps.foldl | (simp only [Keeps.mk_iff]; apply Keeps.parts) | split | dsimp only

theorem execOdWrite_keeps {s0 : State} (tr : Nat) {s : State} (hs : Keeps s0 s) :
    KeepsR s0 (execOdWrite tr s) := by
  unfold execOdWrite
  repeat' with_reducible first
    | assumption | intro _
    | (extract_lets +onlyGivenNames x; clear_value (hx : x = _); first | refine Keeps.bind (s := s0) hx ?_ (fun _ => ?_) | (refine Keeps.isFaults x ?_; subst hx) | skip)
    | apply State.odPersist_keeps | apply State.odServe_keeps | apply State.odEnd_keeps | apply KeepsR.next | exact KeepsR.fault | exact KeepsR.refused
    | apply KeepsR.onUnit | apply KeepsR.ite | apply Keeps.ite | apply Keeps.foldl | (simp only [Keeps.mk_iff]; apply Keeps.parts) | split | dsimp only

theorem execSpdmOverMctp_keeps {s0 : State} (i3c : Bool) (src : Nat) (body : List Byte) {s : State} (hs : Keeps s0 s) :
    KeepsR s0 (execSpdmOverMctp i3c src body s) := by
  unfold execSpdmOverMctp
  repeat' with_reducible first
    | assumption | intro _
    | (extract_lets +onlyGivenNames x; clear_value (hx : x = _); first | refine Keeps.bind (s := s0) hx ?_ (fun _ => ?_) | (refine Keeps.isFaults x ?_; subst hx) | skip)
    | apply State.send_keeps | apply KeepsR.next | exact KeepsR.fault | exact KeepsR.refused | apply KeepsR.onUnit | apply KeepsR.ite | apply Keeps.ite
    | apply Keeps.foldl | (simp only [Keeps.mk_iff]; apply Keeps.parts) | split | dsimp only

theorem execFlow_keeps {s0 : State} (id : Nat) (data : List Byte) {s : State} (hs : Keeps s0 s) :
    KeepsR s0 (execFlow id data s) := by
  unfold execFlow
  repeat' with_reducible first
    | assumption | intro _
    | (extract_lets +onlyGivenNames x; clear_value (hx : x = _); first | refine Keeps.bind (s := s0) hx ?_ (fun _ => ?_) | (refine Keeps.isFaults x ?_; subst hx) | skip)
    | apply State.canMore_keeps | apply KeepsR.next | exact KeepsR.fault | exact KeepsR.refused | apply KeepsR.onUnit | apply KeepsR.ite | apply Keeps.ite
    | apply Keeps.foldl | (simp only [Keeps.mk_iff]; apply Keeps.parts) | split | dsimp only

theorem execGo_keeps {s0 : State} (val : Nat) {s : State} (hs : Keeps s0 s) :
    KeepsR s0 (execGo val s) := by
  unfold execGo
  repeat' with_reducible first
    | assumption | intro _
    | (extract_lets +onlyGivenNames x; clear_value (hx : x = _); first | refine Keeps.bind (s := s0) hx ?_ (fun _ => ?_) | (refine Keeps.isFaults x ?_; subst hx) | skip)
    | apply State.setReg_keeps | apply State.setFld_keeps | apply State.odArrive_keeps | apply KeepsR.next | exact KeepsR.fault | exact KeepsR.refused
    | apply KeepsR.onUnit | apply KeepsR.ite | apply Keeps.ite | apply Keeps.foldl | (simp only [Keeps.mk_iff]; apply Keeps.parts) | split | dsimp only

theorem State.mctpReply_keeps {s0 : State} {s : State} (tr : Nat) (cmd : Nat) (d : List Byte) (hs : Keeps s0 s) :
    Keeps s0 (State.mctpReply s tr cmd d).1 := by
  unfold State.mctpReply
  repeat' with_reducible first
    | assumption | intro _
    | (extract_lets +onlyGivenNames x; clear_value (hx : x = _); first | refine Keeps.bind (s := s0) hx ?_ (fun _ => ?_) | refine Keeps.bindFst (s := s0) hx ?_ (fun _ => ?_) | (refine Keeps.isFaults x ?_; subst hx) | skip)
    | apply Keeps.ite | apply Keeps.foldl | (simp only [Keeps.mk_iff]; apply Keeps.parts) | apply Keeps.iteFst | apply Keeps.iteSnd
    | refine Keeps.fstEq (by assumption) ?_ | split | dsimp only

theorem execMctpControl_keeps {s0 : State} (i3c : Bool) (src : Nat) (body : List Byte) {s : State} (hs : Keeps s0 s) :
    KeepsR s0 (execMctpControl i3c src body s) := by
  unfold execMctpControl
  repeat' with_reducible first
    | assumption | intro _ | apply State.send_keeps | apply State.mctpReply_keeps | apply KeepsR.next | exact KeepsR.fault | exact KeepsR.refused
    | apply KeepsR.onUnit | apply KeepsR.ite | apply Keeps.ite | apply Keeps.foldl | (simp only [Keeps.mk_iff]; apply Keeps.parts) | apply Keeps.iteFst
    | apply Keeps.iteSnd | refine Keeps.fstEq (by assumption) ?_ | split | dsimp only

theorem State.canStop_keeps {s0 : State} {s : State} (x : CanIn) (hs : Keeps s0 s) :
    Keeps s0 (State.canStop s x) := by
  unfold State.canStop
  repeat' with_reducible first
    | assumption | intro _
    | (extract_lets +onlyGivenNames x; clear_value (hx : x = _); first | refine Keeps.bind (s := s0) hx ?_ (fun _ => ?_) | (refine Keeps.isFaults x ?_; subst hx) | skip)
    | apply State.odAnswer_keeps | apply Keeps.ite | apply Keeps.foldl | (simp only [Keeps.mk_iff]; apply Keeps.parts) | split | dsimp only

theorem execConsec_keeps {s0 : State} (id : Nat) (data : List Byte) {s : State} (hs : Keeps s0 s) :
    KeepsR s0 (execConsec id data s) := by
  unfold execConsec
  repeat' with_reducible first
    | assumption | intro _
    | (extract_lets +onlyGivenNames x; clear_value (hx : x = _); first | refine Keeps.bind (s := s0) hx ?_ (fun _ => ?_) | (refine Keeps.isFaults x ?_; subst hx) | skip)
    | apply State.odArrive_keeps | apply State.canStop_keeps | apply KeepsR.next | exact KeepsR.fault | exact KeepsR.refused | apply KeepsR.onUnit
    | apply KeepsR.ite | apply Keeps.ite | apply Keeps.foldl | (simp only [Keeps.mk_iff]; apply Keeps.parts) | split | dsimp only

theorem execOdRead_keeps {s0 : State} (tr : Nat) {s : State} (hs : Keeps s0 s) :
    KeepsR s0 (execOdRead tr s) := by
  unfold execOdRead
  repeat' with_reducible first
    | assumption | intro _ | apply State.odServe_keeps | apply State.odEnd_keeps | apply KeepsR.next | exact KeepsR.fault | exact KeepsR.refused
    | apply KeepsR.onUnit | apply KeepsR.ite | apply Keeps.ite | apply Keeps.foldl | (simp only [Keeps.mk_iff]; apply Keeps.parts) | split | dsimp only

theorem execSingle_keeps {s0 : State} (id : Nat) (data : List Byte) {s : State} (hs : Keeps s0 s) :
    KeepsR s0 (execSingle id data s) := by
  unfold execSingle
  repeat' with_reducible first
    | assumption | intro _ | apply State.odArrive_keeps | apply KeepsR.next | exact KeepsR.fault | exact KeepsR.refused | apply KeepsR.onUnit
    | apply KeepsR.ite | apply Keeps.ite | apply Keeps.foldl | (simp only [Keeps.mk_iff]; apply Keeps.parts) | split | dsimp only

theorem State.linksByEnable_keeps {s0 : State} {s : State} (hs : Keeps s0 s) :
    Keeps s0 (State.linksByEnable s) := by
  unfold State.linksByEnable
  repeat' with_reducible first
    | assumption | intro _ | apply State.linkAbsent_keeps | apply State.linkBook_keeps | apply State.release_keeps | apply Keeps.ite | apply Keeps.foldl
    | (simp only [Keeps.mk_iff]; apply Keeps.parts) | split | dsimp only

theorem State.odEffect_keeps {s0 : State} {s : State} (i : Nat) (b : Nat) (hs : Keeps s0 s) :
    Keeps s0 (State.odEffect s i b) := by
  unfold State.odEffect
  repeat' with_reducible first
    | assumption | intro _
    | (extract_lets +onlyGivenNames x; clear_value (hx : x = _); first | refine Keeps.bind (s := s0) hx ?_ (fun _ => ?_) | (refine Keeps.isFaults x ?_; subst hx) | skip)
    | apply State.setCap_keeps | apply State.setFld_keeps | apply State.linksByEnable_keeps | apply State.event_keeps | apply Keeps.ite
    | apply Keeps.foldl | (simp only [Keeps.mk_iff]; apply Keeps.parts) | split | dsimp only

theorem execApplyNow_keeps {s0 : State} (tr : Nat) {s : State} (hs : Keeps s0 s) :
    KeepsR s0 (execApplyNow tr s) := by
  unfold execApplyNow
  repeat' with_reducible first
    | assumption | intro _ | apply State.odEnd_keeps | apply State.layoutApply_keeps | apply State.odAction_keeps | apply KeepsR.next | exact KeepsR.fault
    | exact KeepsR.refused | apply KeepsR.onUnit | apply KeepsR.ite | apply Keeps.ite | apply Keeps.foldl | (simp only [Keeps.mk_iff]; apply Keeps.parts)
    | split | dsimp only

theorem execCanTransferTimeout_keeps {s0 : State} {s : State} (hs : Keeps s0 s) :
    KeepsR s0 (execCanTransferTimeout s) := by
  unfold execCanTransferTimeout
  repeat' with_reducible first
    | assumption | intro _
    | (extract_lets +onlyGivenNames x; clear_value (hx : x = _); first | refine Keeps.bind (s := s0) hx ?_ (fun _ => ?_) | (refine Keeps.isFaults x ?_; subst hx) | skip)
    | apply State.canStop_keeps | apply KeepsR.next | exact KeepsR.fault | exact KeepsR.refused | apply KeepsR.onUnit | apply KeepsR.ite | apply Keeps.ite
    | apply Keeps.foldl | (simp only [Keeps.mk_iff]; apply Keeps.parts) | split | dsimp only

theorem execGetMeasurements_keeps {s0 : State} (i3c : Bool) (src : Nat) (body : List Byte) {s : State} (hs : Keeps s0 s) :
    KeepsR s0 (execGetMeasurements i3c src body s) := by
  unfold execGetMeasurements
  repeat' with_reducible first
    | assumption | intro _
    | (extract_lets +onlyGivenNames x; clear_value (hx : x = _); first | refine Keeps.bind (s := s0) hx ?_ (fun _ => ?_) | refine Keeps.bindSnd (s := s0) hx ?_ (fun _ => ?_) | (refine Keeps.isFaults x ?_; subst hx) | skip)
    | apply State.draw_keeps | apply State.send_keeps | apply KeepsR.next | exact KeepsR.fault | exact KeepsR.refused | apply KeepsR.onUnit
    | apply KeepsR.ite | apply Keeps.ite | apply Keeps.foldl | (simp only [Keeps.mk_iff]; apply Keeps.parts) | apply Keeps.iteFst | apply Keeps.iteSnd
    | refine Keeps.sndEq (by assumption) ?_ | split | dsimp only

theorem State.budgetEvent_keeps {s0 : State} {s : State} (before : Nat) (kind : Nat) (mark : Nat) (hs : Keeps s0 s) :
    Keeps s0 (State.budgetEvent s before kind mark) := by
  unfold State.budgetEvent
  repeat' with_reducible first
    | assumption | intro _ | apply State.event_keeps | apply Keeps.ite | apply Keeps.foldl | (simp only [Keeps.mk_iff]; apply Keeps.parts) | split
    | dsimp only

theorem State.batchEnd_keeps {s0 : State} {s : State} (b : OdBatch) (n : Nat) (ok : Bool) (hs : Keeps s0 s) :
    Keeps s0 (State.batchEnd s b n ok) := by
  unfold State.batchEnd
  repeat' with_reducible first
    | assumption | intro _
    | (extract_lets +onlyGivenNames x; clear_value (hx : x = _); first | refine Keeps.bind (s := s0) hx ?_ (fun _ => ?_) | (refine Keeps.isFaults x ?_; subst hx) | skip)
    | apply State.odEnd_keeps | apply State.odEffect_keeps | apply State.budgetEvent_keeps | apply State.event_keeps | apply Keeps.ite | apply Keeps.foldl
    | (simp only [Keeps.mk_iff]; apply Keeps.parts) | split | dsimp only

end Sys2Proof.Machine
end

