-- ==== Sys2Proof/Laws/KeepsFirmware.lean ====
section
/-!
SUPPORT. The operations of Machine/Firmware.lean leave the queue alone and keep the invariant (Laws/Keeps.lean).
-/

set_option linter.all false

namespace Sys2Proof.Machine

theorem State.backTo_keeps {s0 : State} {s : State} (hs : Keeps s0 s) :
    Keeps s0 (State.backTo s) := by
  unfold State.backTo
  repeat' with_reducible first
    | assumption | apply State.authAbandon_keeps | apply State.authAgain_keeps | intro _
    | (extract_lets +onlyGivenNames x; clear_value (hx : x = _); first | refine Keeps.bind (s := s0) hx ?_ (fun _ => ?_) | (refine Keeps.isFaults x ?_; subst hx) | skip)
    | apply State.runDeferred_keeps | apply State.setFld_keeps | apply State.traceFlush_keeps | apply State.stepAdvance_keeps | apply Keeps.ite
    | apply Keeps.foldl | (simp only [Keeps.mk_iff]; apply Keeps.parts) | split | dsimp only

theorem State.fwAction_keeps {s0 : State} {s : State} (tr : Nat) (i : Nat) (b : Nat) (stages : List Nat) (k : OdRequest → Nat → State) (hs : Keeps s0 s) (hk : ∀ y0 y1, Keeps s0 (k y0 y1)) :
    KeepsR s0 (State.fwAction s tr i b stages k) := by
  unfold State.fwAction
  repeat' with_reducible first
    | assumption | intro _ | apply State.odEnd_keeps | apply State.odAction_keeps | apply hk | apply KeepsR.next | exact KeepsR.fault
    | exact KeepsR.refused | apply KeepsR.onUnit | apply KeepsR.ite | apply Keeps.ite | apply Keeps.foldl | (simp only [Keeps.mk_iff]; apply Keeps.parts)
    | split | dsimp only

theorem State.setDlOffset_keeps {s0 : State} {s : State} (n : Nat) (hs : Keeps s0 s) :
    Keeps s0 (State.setDlOffset s n) := by
  unfold State.setDlOffset
  repeat' with_reducible first
    | assumption | intro _ | apply Keeps.ite | apply Keeps.foldl | (simp only [Keeps.mk_iff]; apply Keeps.parts) | split | dsimp only

theorem State.flashKick_keeps {s0 : State} {s : State} (hs : Keeps s0 s) :
    Keeps s0 (State.flashKick s) := by
  unfold State.flashKick
  repeat' with_reducible first
    | assumption | intro _ | apply State.askSys_keeps | apply Keeps.ite | apply Keeps.foldl | (simp only [Keeps.mk_iff]; apply Keeps.parts) | split
    | dsimp only

theorem execDlData_keeps {s0 : State} (tr : Nat) {s : State} (hs : Keeps s0 s) :
    KeepsR s0 (execDlData tr s) := by
  unfold execDlData
  repeat' with_reducible first
    | assumption | intro _
    | (extract_lets +onlyGivenNames x; clear_value (hx : x = _); first | refine Keeps.bind (s := s0) hx ?_ (fun _ => ?_) | (refine Keeps.isFaults x ?_; subst hx) | skip)
    | apply State.fwAction_keeps | apply State.odEnd_keeps | apply State.setDlOffset_keeps | apply State.flashKick_keeps | apply KeepsR.next
    | exact KeepsR.fault | exact KeepsR.refused | apply KeepsR.onUnit | apply KeepsR.ite | apply Keeps.ite | apply Keeps.foldl
    | (simp only [Keeps.mk_iff]; apply Keeps.parts) | split | dsimp only

theorem execProcessorReturn_keeps {s0 : State} (p : Nat) {s : State} (hs : Keeps s0 s) :
    KeepsR s0 (execProcessorReturn p s) := by
  unfold execProcessorReturn
  repeat' with_reducible first
    | assumption | intro _ | apply onUnit_keeps | apply State.backTo_keeps | apply KeepsR.next | exact KeepsR.fault | exact KeepsR.refused
    | apply KeepsR.onUnit | apply KeepsR.ite | apply Keeps.ite | apply Keeps.foldl | (simp only [Keeps.mk_iff]; apply Keeps.parts) | split | dsimp only

theorem State.fwSet_keeps {s0 : State} {s : State} (vals : List (Nat × Nat)) (after : AfterBatch) (hs : Keeps s0 s) :
    Keeps s0 (State.fwSet s vals after) := by
  unfold State.fwSet
  repeat' with_reducible first
    | assumption | intro _ | apply State.persist_keeps | apply Keeps.ite | apply Keeps.foldl | (simp only [Keeps.mk_iff]; apply Keeps.parts) | split
    | dsimp only

theorem State.confirm_keeps {s0 : State} {s : State} (hs : Keeps s0 s) :
    Keeps s0 (State.confirm s) := by
  unfold State.confirm
  repeat' with_reducible first
    | assumption | intro _
    | (extract_lets +onlyGivenNames x; clear_value (hx : x = _); first | refine Keeps.bind (s := s0) hx ?_ (fun _ => ?_) | (refine Keeps.isFaults x ?_; subst hx) | skip)
    | apply State.fwSet_keeps | apply Keeps.ite | apply Keeps.foldl | (simp only [Keeps.mk_iff]; apply Keeps.parts) | split | dsimp only

theorem execAutoConfirm_keeps {s0 : State} {s : State} (hs : Keeps s0 s) :
    KeepsR s0 (execAutoConfirm s) := by
  unfold execAutoConfirm
  repeat' with_reducible first
    | assumption | intro _
    | (extract_lets +onlyGivenNames x; clear_value (hx : x = _); first | refine Keeps.bind (s := s0) hx ?_ (fun _ => ?_) | (refine Keeps.isFaults x ?_; subst hx) | skip)
    | apply State.confirm_keeps | apply KeepsR.next | exact KeepsR.fault | exact KeepsR.refused | apply KeepsR.onUnit | apply KeepsR.ite | apply Keeps.ite
    | apply Keeps.foldl | (simp only [Keeps.mk_iff]; apply Keeps.parts) | split | dsimp only

theorem State.canEnd_keeps {s0 : State} {s : State} (hs : Keeps s0 s) :
    Keeps s0 (State.canEnd s) := by
  unfold State.canEnd
  repeat' with_reducible first
    | assumption | intro _
    | (extract_lets +onlyGivenNames x; clear_value (hx : x = _); first | refine Keeps.bind (s := s0) hx ?_ (fun _ => ?_) | (refine Keeps.isFaults x ?_; subst hx) | skip)
    | apply State.canStop_keeps | apply Keeps.ite | apply Keeps.foldl | (simp only [Keeps.mk_iff]; apply Keeps.parts) | split | dsimp only

theorem execQuiesceTimeout_keeps {s0 : State} {s : State} (hs : Keeps s0 s) :
    KeepsR s0 (execQuiesceTimeout s) := by
  unfold execQuiesceTimeout
  repeat' with_reducible first
    | assumption | intro _
    | (extract_lets +onlyGivenNames x; clear_value (hx : x = _); first | refine Keeps.bind (s := s0) hx ?_ (fun _ => ?_) | (refine Keeps.isFaults x ?_; subst hx) | skip)
    | apply State.fwSet_keeps | apply KeepsR.next | exact KeepsR.fault | exact KeepsR.refused | apply KeepsR.onUnit | apply KeepsR.ite | apply Keeps.ite
    | apply Keeps.foldl | (simp only [Keeps.mk_iff]; apply Keeps.parts) | split | dsimp only

theorem execDlBegin_keeps {s0 : State} (tr : Nat) {s : State} (hs : Keeps s0 s) :
    KeepsR s0 (execDlBegin tr s) := by
  unfold execDlBegin
  repeat' with_reducible first
    | assumption | intro _
    | (extract_lets +onlyGivenNames x; clear_value (hx : x = _); first | refine Keeps.bind (s := s0) hx ?_ (fun _ => ?_) | (refine Keeps.isFaults x ?_; subst hx) | skip)
    | apply State.fwAction_keeps | apply State.odEnd_keeps | apply State.fwSet_keeps | apply KeepsR.next | exact KeepsR.fault | exact KeepsR.refused
    | apply KeepsR.onUnit | apply KeepsR.ite | apply Keeps.ite | apply Keeps.foldl | (simp only [Keeps.mk_iff]; apply Keeps.parts) | split | dsimp only

theorem State.fwEvent_keeps {s0 : State} {s : State} (kind : Nat) (slot : Nat) (processor : Nat) (hs : Keeps s0 s) :
    Keeps s0 (State.fwEvent s kind slot processor) := by
  unfold State.fwEvent
  repeat' with_reducible first
    | assumption | intro _ | apply State.event_keeps | apply Keeps.ite | apply Keeps.foldl | (simp only [Keeps.mk_iff]; apply Keeps.parts) | split
    | dsimp only

theorem execHandoffResume_keeps {s0 : State} (ok : Bool) {s : State} (hs : Keeps s0 s) :
    KeepsR s0 (execHandoffResume ok s) := by
  unfold execHandoffResume
  repeat' with_reducible first
    | assumption | intro _
    | (extract_lets +onlyGivenNames x; clear_value (hx : x = _); first | refine Keeps.bind (s := s0) hx ?_ (fun _ => ?_) | (refine Keeps.isFaults x ?_; subst hx) | skip)
    | apply State.newContract_keeps | apply State.backTo_keeps | apply State.refreshHeads_keeps | apply State.fwSet_keeps | apply State.fwEvent_keeps
    | apply KeepsR.next | exact KeepsR.fault | exact KeepsR.refused | apply KeepsR.onUnit | apply KeepsR.ite | apply Keeps.ite | apply Keeps.foldl
    | (simp only [Keeps.mk_iff]; apply Keeps.parts) | split | dsimp only

theorem execActivate_keeps {s0 : State} (tr : Nat) {s : State} (hs : Keeps s0 s) :
    KeepsR s0 (execActivate tr s) := by
  unfold execActivate
  repeat' with_reducible first
    | assumption | intro _
    | (extract_lets +onlyGivenNames x; clear_value (hx : x = _); first | refine Keeps.bind (s := s0) hx ?_ (fun _ => ?_) | (refine Keeps.isFaults x ?_; subst hx) | skip)
    | apply State.fwAction_keeps | apply State.odEnd_keeps | apply State.fwSet_keeps | apply KeepsR.next | exact KeepsR.fault | exact KeepsR.refused
    | apply KeepsR.onUnit | apply KeepsR.ite | apply Keeps.ite | apply Keeps.foldl | (simp only [Keeps.mk_iff]; apply Keeps.parts) | split | dsimp only

theorem State.handOff_keeps {s0 : State} {s : State} (hs : Keeps s0 s) :
    Keeps s0 (State.handOff s) := by
  unfold State.handOff
  repeat' with_reducible first
    | assumption | apply State.authAbandon_keeps | apply State.authAgain_keeps | intro _
    | (extract_lets +onlyGivenNames x; clear_value (hx : x = _); first | refine Keeps.bind (s := s0) hx ?_ (fun _ => ?_) | (refine Keeps.isFaults x ?_; subst hx) | skip)
    | apply State.setFld_keeps | apply State.canEnd_keeps | apply Keeps.ite | apply Keeps.foldl | (simp only [Keeps.mk_iff]; apply Keeps.parts) | split
    | dsimp only

theorem execActivateQuiesced_keeps {s0 : State} {s : State} (hs : Keeps s0 s) :
    KeepsR s0 (execActivateQuiesced s) := by
  unfold execActivateQuiesced
  repeat' with_reducible first
    | assumption | intro _
    | (extract_lets +onlyGivenNames x; clear_value (hx : x = _); first | refine Keeps.bind (s := s0) hx ?_ (fun _ => ?_) | (refine Keeps.isFaults x ?_; subst hx) | skip)
    | apply State.fwSet_keeps | apply State.handOff_keeps | apply KeepsR.next | exact KeepsR.fault | exact KeepsR.refused | apply KeepsR.onUnit
    | apply KeepsR.ite | apply Keeps.ite | apply Keeps.foldl | (simp only [Keeps.mk_iff]; apply Keeps.parts) | split | dsimp only

theorem execVerify_keeps {s0 : State} (tr : Nat) {s : State} (hs : Keeps s0 s) :
    KeepsR s0 (execVerify tr s) := by
  unfold execVerify
  repeat' with_reducible first
    | assumption | intro _ | apply State.fwAction_keeps | apply State.odEnd_keeps | apply State.fwSet_keeps | apply KeepsR.next | exact KeepsR.fault
    | exact KeepsR.refused | apply KeepsR.onUnit | apply KeepsR.ite | apply Keeps.ite | apply Keeps.foldl | (simp only [Keeps.mk_iff]; apply Keeps.parts)
    | split | dsimp only

theorem State.program_keeps {s0 : State} {s : State} (o : Nat) (bs : List Byte) (hs : Keeps s0 s) :
    Keeps s0 (State.program s o bs) := by
  unfold State.program
  repeat' with_reducible first
    | assumption | intro _
    | (extract_lets +onlyGivenNames x; clear_value (hx : x = _); first | refine Keeps.bind (s := s0) hx ?_ (fun _ => ?_) | (refine Keeps.isFaults x ?_; subst hx) | skip)
    | apply Keeps.ite | apply Keeps.foldl | (simp only [Keeps.mk_iff]; apply Keeps.parts) | split | dsimp only

theorem State.pageDone_keeps {s0 : State} {s : State} (bs : List Byte) (hs : Keeps s0 s) :
    Keeps s0 (State.pageDone s bs) := by
  unfold State.pageDone
  repeat' with_reducible first
    | assumption | intro _
    | (extract_lets +onlyGivenNames x; clear_value (hx : x = _); first | refine Keeps.bind (s := s0) hx ?_ (fun _ => ?_) | (refine Keeps.isFaults x ?_; subst hx) | skip)
    | apply State.flashKick_keeps | apply State.fwSet_keeps | apply State.release_keeps | apply State.program_keeps | apply Keeps.ite | apply Keeps.foldl
    | (simp only [Keeps.mk_iff]; apply Keeps.parts) | split | dsimp only

theorem State.downloadEnd_keeps {s0 : State} {s : State} (result : List (Nat × Nat)) (hs : Keeps s0 s) :
    Keeps s0 (State.downloadEnd s result) := by
  unfold State.downloadEnd
  repeat' with_reducible first
    | assumption | intro _
    | (extract_lets +onlyGivenNames x; clear_value (hx : x = _); first | refine Keeps.bind (s := s0) hx ?_ (fun _ => ?_) | (refine Keeps.isFaults x ?_; subst hx) | skip)
    | apply State.fwSet_keeps | apply State.release_keeps | apply Keeps.ite | apply Keeps.foldl | (simp only [Keeps.mk_iff]; apply Keeps.parts) | split
    | dsimp only

theorem State.eraseSector_keeps {s0 : State} {s : State} (o : Nat) (hs : Keeps s0 s) :
    Keeps s0 (State.eraseSector s o) := by
  unfold State.eraseSector
  repeat' with_reducible first
    | assumption | intro _ | apply State.program_keeps | apply Keeps.ite | apply Keeps.foldl | (simp only [Keeps.mk_iff]; apply Keeps.parts) | split
    | dsimp only

theorem execFlashOperationComplete_keeps {s0 : State} (ok : Bool) {s : State} (hs : Keeps s0 s) :
    KeepsR s0 (execFlashOperationComplete ok s) := by
  unfold execFlashOperationComplete
  repeat' with_reducible first
    | assumption | intro _
    | (extract_lets +onlyGivenNames x; clear_value (hx : x = _); first | refine Keeps.bind (s := s0) hx ?_ (fun _ => ?_) | (refine Keeps.isFaults x ?_; subst hx) | skip)
    | apply State.pageDone_keeps | apply State.downloadEnd_keeps | apply State.setDlOffset_keeps | apply State.flashKick_keeps
    | apply State.eraseSector_keeps | apply State.release_keeps | apply KeepsR.next | exact KeepsR.fault | exact KeepsR.refused | apply KeepsR.onUnit
    | apply KeepsR.ite | apply Keeps.ite | apply Keeps.foldl | (simp only [Keeps.mk_iff]; apply Keeps.parts) | split | dsimp only

theorem execReject_keeps {s0 : State} (tr : Nat) {s : State} (hs : Keeps s0 s) :
    KeepsR s0 (execReject tr s) := by
  unfold execReject
  repeat' with_reducible first
    | assumption | intro _
    | (extract_lets +onlyGivenNames x; clear_value (hx : x = _); first | refine Keeps.bind (s := s0) hx ?_ (fun _ => ?_) | (refine Keeps.isFaults x ?_; subst hx) | skip)
    | apply State.fwAction_keeps | apply State.odEnd_keeps | apply State.fwSet_keeps | apply KeepsR.next | exact KeepsR.fault | exact KeepsR.refused
    | apply KeepsR.onUnit | apply KeepsR.ite | apply Keeps.ite | apply Keeps.foldl | (simp only [Keeps.mk_iff]; apply Keeps.parts) | split | dsimp only

theorem execConfirm_keeps {s0 : State} (tr : Nat) {s : State} (hs : Keeps s0 s) :
    KeepsR s0 (execConfirm tr s) := by
  unfold execConfirm
  repeat' with_reducible first
    | assumption | intro _ | apply State.odEnd_keeps | apply State.confirm_keeps | apply State.odAction_keeps | apply KeepsR.next | exact KeepsR.fault
    | exact KeepsR.refused | apply KeepsR.onUnit | apply KeepsR.ite | apply Keeps.ite | apply Keeps.foldl | (simp only [Keeps.mk_iff]; apply Keeps.parts)
    | split | dsimp only

theorem execDlAbort_keeps {s0 : State} (tr : Nat) {s : State} (hs : Keeps s0 s) :
    KeepsR s0 (execDlAbort tr s) := by
  unfold execDlAbort
  repeat' with_reducible first
    | assumption | intro _ | apply State.fwAction_keeps | apply State.downloadEnd_keeps | apply State.odEnd_keeps | apply KeepsR.next | exact KeepsR.fault
    | exact KeepsR.refused | apply KeepsR.onUnit | apply KeepsR.ite | apply Keeps.ite | apply Keeps.foldl | (simp only [Keeps.mk_iff]; apply Keeps.parts)
    | split | dsimp only

theorem execVerifyComplete_keeps {s0 : State} {s : State} (hs : Keeps s0 s) :
    KeepsR s0 (execVerifyComplete s) := by
  unfold execVerifyComplete
  repeat' with_reducible first
    | assumption | intro _
    | (extract_lets +onlyGivenNames x; clear_value (hx : x = _); first | refine Keeps.bind (s := s0) hx ?_ (fun _ => ?_) | (refine Keeps.isFaults x ?_; subst hx) | skip)
    | apply State.fwSet_keeps | apply KeepsR.next | exact KeepsR.fault | exact KeepsR.refused | apply KeepsR.onUnit | apply KeepsR.ite | apply Keeps.ite
    | apply Keeps.foldl | (simp only [Keeps.mk_iff]; apply Keeps.parts) | split | dsimp only

theorem execDlFrom_keeps {s0 : State} (tr : Nat) {s : State} (hs : Keeps s0 s) :
    KeepsR s0 (execDlFrom tr s) := by
  unfold execDlFrom
  repeat' with_reducible first
    | assumption | intro _
    | (extract_lets +onlyGivenNames x; clear_value (hx : x = _); first | refine Keeps.bind (s := s0) hx ?_ (fun _ => ?_) | (refine Keeps.isFaults x ?_; subst hx) | skip)
    | apply State.fwAction_keeps | apply State.odEnd_keeps | apply State.flashKick_keeps | apply KeepsR.next | exact KeepsR.fault | exact KeepsR.refused
    | apply KeepsR.onUnit | apply KeepsR.ite | apply Keeps.ite | apply Keeps.foldl | (simp only [Keeps.mk_iff]; apply Keeps.parts) | split | dsimp only

theorem State.rejectBack_keeps {s0 : State} {s : State} (hs : Keeps s0 s) :
    Keeps s0 (State.rejectBack s) := by
  unfold State.rejectBack
  repeat' with_reducible first
    | assumption | intro _
    | (extract_lets +onlyGivenNames x; clear_value (hx : x = _); first | refine Keeps.bind (s := s0) hx ?_ (fun _ => ?_) | (refine Keeps.isFaults x ?_; subst hx) | skip)
    | apply Keeps.ite | apply Keeps.foldl | (simp only [Keeps.mk_iff]; apply Keeps.parts) | split | dsimp only

theorem State.securityLost_keeps {s0 : State} {s : State} (hs : Keeps s0 s) :
    Keeps s0 (State.securityLost s) := by
  unfold State.securityLost
  repeat' with_reducible first
    | assumption | apply State.authAbandon_keeps | apply State.authAgain_keeps | intro _
    | (extract_lets +onlyGivenNames x; clear_value (hx : x = _); first | refine Keeps.bind (s := s0) hx ?_ (fun _ => ?_) | (refine Keeps.isFaults x ?_; subst hx) | skip)
    | apply State.downloadEnd_keeps | apply Keeps.ite | apply Keeps.foldl | (simp only [Keeps.mk_iff]; apply Keeps.parts) | split | dsimp only

theorem execWatchdogReset_keeps {s0 : State} (p : Nat) {s : State} (hs : Keeps s0 s) :
    KeepsR s0 (execWatchdogReset p s) := by
  unfold execWatchdogReset
  repeat' with_reducible first
    | assumption | intro _
    | (extract_lets +onlyGivenNames x; clear_value (hx : x = _); first | refine Keeps.bind (s := s0) hx ?_ (fun _ => ?_) | (refine Keeps.isFaults x ?_; subst hx) | skip)
    | apply State.securityLost_keeps | apply State.setFld_keeps | apply onUnit_keeps | apply State.fwEvent_keeps | apply KeepsR.next | exact KeepsR.fault
    | exact KeepsR.refused | apply KeepsR.onUnit | apply KeepsR.ite | apply Keeps.ite | apply Keeps.foldl | (simp only [Keeps.mk_iff]; apply Keeps.parts)
    | split | dsimp only

end Sys2Proof.Machine
end

