-- ==== Sys2Proof/Laws/KeepsTiers.lean ====
section
/-!
SUPPORT. The operations of Machine/Tiers.lean leave the queue alone and keep the invariant (Laws/Keeps.lean).
-/

set_option linter.all false

namespace Sys2Proof.Machine

theorem State.partStart_keeps {s0 : State} {s : State} (f : Nat) (k : Nat) (apply : Bool) (hs : Keeps s0 s) :
    Keeps s0 (State.partStart s f k apply) := by
  unfold State.partStart
  repeat' with_reducible first
    | assumption | intro _
    | (extract_lets +onlyGivenNames x; clear_value (hx : x = _); first | refine Keeps.bind (s := s0) hx ?_ (fun _ => ?_) | (refine Keeps.isFaults x ?_; subst hx) | skip)
    | apply State.setFld_keeps | apply Keeps.ite | apply Keeps.foldl | (simp only [Keeps.mk_iff]; apply Keeps.parts) | split | dsimp only

theorem execFlush_keeps {s0 : State} (f : Nat) (k : Nat) {s : State} (hs : Keeps s0 s) :
    KeepsR s0 (execFlush f k s) := by
  unfold execFlush
  repeat' with_reducible first
    | assumption | intro _ | apply onUnit_keeps | apply State.partStart_keeps | apply KeepsR.next | exact KeepsR.fault | exact KeepsR.refused
    | apply KeepsR.onUnit | apply KeepsR.ite | apply Keeps.ite | apply Keeps.foldl | (simp only [Keeps.mk_iff]; apply Keeps.parts) | split | dsimp only

theorem execErrorCheckAndScrub_keeps {s0 : State} (a : Nat) {s : State} (hs : Keeps s0 s) :
    KeepsR s0 (execErrorCheckAndScrub a s) := by
  unfold execErrorCheckAndScrub
  repeat' with_reducible first
    | assumption | intro _ | apply State.record_keeps | apply onUnit_keeps | apply State.voidBlock_keeps | apply State.count_keeps | apply KeepsR.next
    | exact KeepsR.fault | exact KeepsR.refused | apply KeepsR.onUnit | apply KeepsR.ite | apply Keeps.ite | apply Keeps.foldl
    | (simp only [Keeps.mk_iff]; apply Keeps.parts) | split | dsimp only

theorem State.retireBank_keeps {s0 : State} {s : State} (die : Nat) (bank : Nat) (hs : Keeps s0 s) :
    Keeps s0 (State.retireBank s die bank) := by
  unfold State.retireBank
  repeat' with_reducible first
    | assumption | intro _
    | (extract_lets +onlyGivenNames x; clear_value (hx : x = _); first | refine Keeps.bind (s := s0) hx ?_ (fun _ => ?_) | (refine Keeps.isFaults x ?_; subst hx) | skip)
    | apply State.record_keeps | apply State.count_keeps | apply State.persist_keeps | apply Keeps.ite | apply Keeps.foldl
    | (simp only [Keeps.mk_iff]; apply Keeps.parts) | split | dsimp only

theorem State.fastUncorrectable_keeps {s0 : State} {s : State} (die : Nat) (off : Nat) (hs : Keeps s0 s) :
    Keeps s0 (State.fastUncorrectable s die off) := by
  unfold State.fastUncorrectable
  repeat' with_reducible first
    | assumption | intro _
    | (extract_lets +onlyGivenNames x; clear_value (hx : x = _); first | refine Keeps.bind (s := s0) hx ?_ (fun _ => ?_) | (refine Keeps.isFaults x ?_; subst hx) | skip)
    | apply State.record_keeps | apply State.voidBlock_keeps | apply State.retireBank_keeps | apply State.count_keeps | apply Keeps.ite
    | apply Keeps.foldl | (simp only [Keeps.mk_iff]; apply Keeps.parts) | split | dsimp only

theorem State.freeBytes_keeps {s0 : State} {s : State} (a : Nat) (n : Nat) (hs : Keeps s0 s) :
    Keeps s0 (State.freeBytes s a n) := by
  unfold State.freeBytes
  simp only [Keeps.mk_iff]
  exact hs.withMem (fun _ h => smapWf_splice (d := fun _ => (0 : Byte)) (fun i => Config.freeByte (s.free + i)) a n h)

theorem State.freeSeals_keeps {s0 : State} {s : State} (a : Nat) (n : Nat) (hs : Keeps s0 s) :
    Keeps s0 (State.freeSeals s a n) := by
  unfold State.freeSeals
  repeat' with_reducible first
    | assumption | intro _ | apply State.draw_keeps | apply State.setSyndrome_keeps | apply Keeps.ite | apply Keeps.foldl
    | (simp only [Keeps.mk_iff]; apply Keeps.parts) | apply Keeps.iteFst | apply Keeps.iteSnd | refine Keeps.sndEq (by assumption) ?_ | split | dsimp only

theorem State.tgDestroy_keeps {s0 : State} {s : State} (c : Nat) (hs : Keeps s0 s) :
    Keeps s0 (State.tgDestroy s c) := by
  unfold State.tgDestroy
  repeat' with_reducible first
    | assumption | intro _ | apply State.freeBytes_keeps | apply State.freeSeals_keeps | apply Keeps.ite | apply Keeps.foldl
    | (simp only [Keeps.mk_iff]; apply Keeps.parts) | split | dsimp only

theorem State.tgMismatch_keeps {s0 : State} {s : State} (c : Nat) (m : TgMismatch) (hs : Keeps s0 s) :
    Keeps s0 (State.tgMismatch s c m) := by
  unfold State.tgMismatch
  repeat' with_reducible first
    | assumption | intro _
    | (extract_lets +onlyGivenNames x; clear_value (hx : x = _); first | refine Keeps.bind (s := s0) hx ?_ (fun _ => ?_) | (refine Keeps.isFaults x ?_; subst hx) | skip)
    | apply State.setReg_keeps | apply State.setFld_keeps | apply Keeps.ite | apply Keeps.foldl | (simp only [Keeps.mk_iff]; apply Keeps.parts) | split
    | dsimp only

theorem execTgDone_keeps {s0 : State} (c : Nat) (mism : List TgMismatch) {s : State} (hs : Keeps s0 s) :
    KeepsR s0 (execTgDone c mism s) := by
  unfold execTgDone
  repeat' with_reducible first
    | assumption | intro _
    | (extract_lets +onlyGivenNames x; clear_value (hx : x = _); first | refine Keeps.bind (s := s0) hx ?_ (fun _ => ?_) | (refine Keeps.isFaults x ?_; subst hx) | skip)
    | apply State.tgDestroy_keeps | apply State.setFld_keeps | apply State.tgMismatch_keeps | apply onUnit_keeps | apply State.raiseVector_keeps
    | apply State.release_keeps | apply KeepsR.next | exact KeepsR.fault | exact KeepsR.refused | apply KeepsR.onUnit | apply KeepsR.ite | apply Keeps.ite
    | apply Keeps.foldl | (simp only [Keeps.mk_iff]; apply Keeps.parts) | split | dsimp only

theorem State.fastCorrected_keeps {s0 : State} {s : State} (die : Nat) (off : Nat) (hs : Keeps s0 s) :
    Keeps s0 (State.fastCorrected s die off) := by
  unfold State.fastCorrected
  repeat' with_reducible first
    | assumption | intro _
    | (extract_lets +onlyGivenNames x; clear_value (hx : x = _); first | refine Keeps.bind (s := s0) hx ?_ (fun _ => ?_) | (refine Keeps.isFaults x ?_; subst hx) | skip)
    | apply State.record_keeps | apply State.retireBank_keeps | apply State.count_keeps | apply Keeps.ite | apply Keeps.foldl
    | (simp only [Keeps.mk_iff]; apply Keeps.parts) | split | dsimp only

theorem execBankCopyComplete_keeps {s0 : State} (k : Nat) (j : Nat) {s : State} (hs : Keeps s0 s) :
    KeepsR s0 (execBankCopyComplete k j s) := by
  unfold execBankCopyComplete
  repeat' with_reducible first
    | assumption | intro _
    | (extract_lets +onlyGivenNames x; clear_value (hx : x = _); first | refine Keeps.bind (s := s0) hx ?_ (fun _ => ?_) | (refine Keeps.isFaults x ?_; subst hx) | skip)
    | apply State.closeRecords_keeps | apply State.voidBlocks_keeps | apply onUnit_keeps | apply KeepsR.next | exact KeepsR.fault | exact KeepsR.refused
    | apply KeepsR.onUnit | apply KeepsR.ite | apply Keeps.ite | apply Keeps.foldl | (simp only [Keeps.mk_iff]; apply Keeps.parts) | split | dsimp only

theorem execStart_keeps {s0 : State} (c : Nat) (val : Nat) {s : State} (hs : Keeps s0 s) :
    KeepsR s0 (execStart c val s) := by
  unfold execStart
  repeat' with_reducible first
    | assumption | intro _
    | (extract_lets +onlyGivenNames x; clear_value (hx : x = _); first | refine Keeps.bind (s := s0) hx ?_ (fun _ => ?_) | (refine Keeps.isFaults x ?_; subst hx) | skip)
    | apply State.setReg_keeps | apply State.setFld_keeps | apply State.askSys_keeps | apply onUnit_keeps | apply KeepsR.next | exact KeepsR.fault
    | exact KeepsR.refused | apply KeepsR.onUnit | apply KeepsR.ite | apply Keeps.ite | apply Keeps.foldl | (simp only [Keeps.mk_iff]; apply Keeps.parts)
    | split | dsimp only

theorem State.bookStack_keeps {s0 : State} {s : State} (k : Nat) (st : Nat) (hs : Keeps s0 s) :
    Keeps s0 (State.bookStack s k st) := by
  unfold State.bookStack
  repeat' with_reducible first
    | assumption | intro _ | apply State.askSys_keeps | apply State.release_keeps | apply Keeps.ite | apply Keeps.foldl
    | (simp only [Keeps.mk_iff]; apply Keeps.parts) | split | dsimp only

theorem State.bookRefresh_keeps {s0 : State} {s : State} (k : Nat) (st : Nat) (hs : Keeps s0 s) :
    Keeps s0 (State.bookRefresh s k st) := by
  unfold State.bookRefresh
  repeat' with_reducible first
    | assumption | intro _ | apply State.askSys_keeps | apply State.release_keeps | apply Keeps.ite | apply Keeps.foldl
    | (simp only [Keeps.mk_iff]; apply Keeps.parts) | split | dsimp only

theorem State.stackReading_keeps {s0 : State} {s : State} (k : Nat) (t : Nat) (hs : Keeps s0 s) :
    Keeps s0 (State.stackReading s k t) := by
  unfold State.stackReading
  repeat' with_reducible first
    | assumption | intro _
    | (extract_lets +onlyGivenNames x; clear_value (hx : x = _); first | refine Keeps.bind (s := s0) hx ?_ (fun _ => ?_) | (refine Keeps.isFaults x ?_; subst hx) | skip)
    | apply State.setFld_keeps | apply State.bookStack_keeps | apply State.bookRefresh_keeps | apply State.event_keeps | apply Keeps.ite
    | apply Keeps.foldl | (simp only [Keeps.mk_iff]; apply Keeps.parts) | split | dsimp only

theorem execHbmTempReading_keeps {s0 : State} (temps : List Nat) {s : State} (hs : Keeps s0 s) :
    KeepsR s0 (execHbmTempReading temps s) := by
  unfold execHbmTempReading
  repeat' with_reducible first
    | assumption | intro _
    | (extract_lets +onlyGivenNames x; clear_value (hx : x = _); first | refine Keeps.bind (s := s0) hx ?_ (fun _ => ?_) | (refine Keeps.isFaults x ?_; subst hx) | skip)
    | apply State.stackReading_keeps | apply State.ran_keeps | apply KeepsR.next | exact KeepsR.fault | exact KeepsR.refused | apply KeepsR.onUnit
    | apply KeepsR.ite | apply Keeps.ite | apply Keeps.foldl | (simp only [Keeps.mk_iff]; apply Keeps.parts) | split | dsimp only

theorem execScrubPass_keeps {s0 : State} (k : Nat) (corrected : List Nat) (lost : List Nat) {s : State} (hs : Keeps s0 s) :
    KeepsR s0 (execScrubPass k corrected lost s) := by
  unfold execScrubPass
  repeat' with_reducible first
    | assumption | intro _
    | (extract_lets +onlyGivenNames x; clear_value (hx : x = _); first | refine Keeps.bind (s := s0) hx ?_ (fun _ => ?_) | (refine Keeps.isFaults x ?_; subst hx) | skip)
    | apply State.fastUncorrectable_keeps | apply State.ran_keeps | apply onUnit_keeps | apply State.count_keeps | apply State.fastCorrected_keeps
    | apply KeepsR.next | exact KeepsR.fault | exact KeepsR.refused | apply KeepsR.onUnit | apply KeepsR.ite | apply Keeps.ite | apply Keeps.foldl
    | (simp only [Keeps.mk_iff]; apply Keeps.parts) | split | dsimp only

theorem State.partWriteback_keeps {s0 : State} {s : State} (pk : Nat) (hs : Keeps s0 s) :
    Keeps s0 (State.partWriteback s pk) := by
  unfold State.partWriteback
  repeat' with_reducible first
    | assumption | intro _
    | (extract_lets +onlyGivenNames x; clear_value (hx : x = _); first | refine Keeps.bind (s := s0) hx ?_ (fun _ => ?_) | (refine Keeps.isFaults x ?_; subst hx) | skip)
    | apply State.count_keeps | apply Keeps.ite | apply Keeps.foldl | (simp only [Keeps.mk_iff]; apply Keeps.parts) | split | dsimp only

theorem State.partInstall_keeps {s0 : State} {s : State} (f : Nat) (k : Nat) (p : CachePart) (hs : Keeps s0 s) :
    Keeps s0 (State.partInstall s f k p) := by
  unfold State.partInstall
  repeat' with_reducible first
    | assumption | intro _
    | (extract_lets +onlyGivenNames x; clear_value (hx : x = _); first | refine Keeps.bind (s := s0) hx ?_ (fun _ => ?_) | (refine Keeps.isFaults x ?_; subst hx) | skip)
    | apply State.partWriteback_keeps | apply State.freeBytes_keeps | apply State.freeSeals_keeps | apply Keeps.ite | apply Keeps.foldl
    | (simp only [Keeps.mk_iff]; apply Keeps.parts) | split | dsimp only

theorem execStop_keeps {s0 : State} (c : Nat) {s : State} (hs : Keeps s0 s) :
    KeepsR s0 (execStop c s) := by
  unfold execStop
  repeat' with_reducible first
    | assumption | intro _
    | (extract_lets +onlyGivenNames x; clear_value (hx : x = _); first | refine Keeps.bind (s := s0) hx ?_ (fun _ => ?_) | (refine Keeps.isFaults x ?_; subst hx) | skip)
    | apply onUnit_keeps | apply KeepsR.next | exact KeepsR.fault | exact KeepsR.refused | apply KeepsR.onUnit | apply KeepsR.ite | apply Keeps.ite
    | apply Keeps.foldl | (simp only [Keeps.mk_iff]; apply Keeps.parts) | split | dsimp only

theorem execHotChannel_keeps {s0 : State} (c : Nat) {s : State} (hs : Keeps s0 s) :
    KeepsR s0 (execHotChannel c s) := by
  unfold execHotChannel
  repeat' with_reducible first
    | assumption | intro _
    | (extract_lets +onlyGivenNames x; clear_value (hx : x = _); first | refine Keeps.bind (s := s0) hx ?_ (fun _ => ?_) | (refine Keeps.isFaults x ?_; subst hx) | skip)
    | apply State.setFld_keeps | apply onUnit_keeps | apply State.event_keeps | apply KeepsR.next | exact KeepsR.fault | exact KeepsR.refused
    | apply KeepsR.onUnit | apply KeepsR.ite | apply Keeps.ite | apply Keeps.foldl | (simp only [Keeps.mk_iff]; apply Keeps.parts) | split | dsimp only

theorem execPcRetrainComplete_keeps {s0 : State} (c : Nat) (ok : Bool) (hit : List (Nat × Nat)) {s : State} (hs : Keeps s0 s) :
    KeepsR s0 (execPcRetrainComplete c ok hit s) := by
  unfold execPcRetrainComplete
  repeat' with_reducible first
    | assumption | intro _
    | (extract_lets +onlyGivenNames x; clear_value (hx : x = _); first | refine Keeps.bind (s := s0) hx ?_ (fun _ => ?_) | (refine Keeps.isFaults x ?_; subst hx) | skip)
    | apply State.record_keeps | apply onUnit_keeps | apply State.endFlights_keeps | apply KeepsR.next | exact KeepsR.fault | exact KeepsR.refused
    | apply KeepsR.onUnit | apply KeepsR.ite | apply Keeps.ite | apply Keeps.foldl | (simp only [Keeps.mk_iff]; apply Keeps.parts) | split | dsimp only

theorem State.hotBeat_keeps {s0 : State} {s : State} (hot : List Nat) (hs : Keeps s0 s) :
    Keeps s0 (State.hotBeat s hot) := by
  unfold State.hotBeat
  repeat' with_reducible first
    | assumption | intro _
    | (extract_lets +onlyGivenNames x; clear_value (hx : x = _); first | refine Keeps.bind (s := s0) hx ?_ (fun _ => ?_) | (refine Keeps.isFaults x ?_; subst hx) | skip)
    | apply State.count_keeps | apply Keeps.ite | apply Keeps.foldl | (simp only [Keeps.mk_iff]; apply Keeps.parts) | split | dsimp only

theorem execTestMode_keeps {s0 : State} (v : Nat) {s : State} (hs : Keeps s0 s) :
    KeepsR s0 (execTestMode v s) := by
  unfold execTestMode
  repeat' with_reducible first
    | assumption | intro _ | apply State.setFld_keeps | apply onUnit_keeps | apply KeepsR.next | exact KeepsR.fault | exact KeepsR.refused
    | apply KeepsR.onUnit | apply KeepsR.ite | apply Keeps.ite | apply Keeps.foldl | (simp only [Keeps.mk_iff]; apply Keeps.parts) | split | dsimp only

theorem execApply_keeps {s0 : State} (f : Nat) (k : Nat) {s : State} (hs : Keeps s0 s) :
    KeepsR s0 (execApply f k s) := by
  unfold execApply
  repeat' with_reducible first
    | assumption | intro _ | apply onUnit_keeps | apply State.partStart_keeps | apply KeepsR.next | exact KeepsR.fault | exact KeepsR.refused
    | apply KeepsR.onUnit | apply KeepsR.ite | apply Keeps.ite | apply Keeps.foldl | (simp only [Keeps.mk_iff]; apply Keeps.parts) | split | dsimp only

theorem execFcpActionDone_keeps {s0 : State} {s : State} (hs : Keeps s0 s) :
    KeepsR s0 (execFcpActionDone s) := by
  unfold execFcpActionDone
  repeat' with_reducible first
    | assumption | intro _
    | (extract_lets +onlyGivenNames x; clear_value (hx : x = _); first | refine Keeps.bind (s := s0) hx ?_ (fun _ => ?_) | (refine Keeps.isFaults x ?_; subst hx) | skip)
    | apply State.partWriteback_keeps | apply State.setFld_keeps | apply State.partInstall_keeps | apply KeepsR.next | exact KeepsR.fault
    | exact KeepsR.refused | apply KeepsR.onUnit | apply KeepsR.ite | apply Keeps.ite | apply Keeps.foldl | (simp only [Keeps.mk_iff]; apply Keeps.parts)
    | split | dsimp only

end Sys2Proof.Machine
end

