-- ==== Sys2Proof/Laws/KeepsFaults.lean ====
section
/-!
SUPPORT. The operations of Machine/Faults.lean leave the queue alone and keep the invariant (Laws/Keeps.lean).
-/

set_option linter.all false

namespace Sys2Proof.Machine

theorem State.modSlot_keeps {s0 : State} {s : State} (k : Nat) (slot : Nat) (f : SlotData → SlotData) (hs : Keeps s0 s) :
    Keeps s0 (State.modSlot s k slot f) := by
  unfold State.modSlot
  repeat' with_reducible first
    | assumption | intro _
    | (extract_lets +onlyGivenNames x; clear_value (hx : x = _); first | refine Keeps.bind (s := s0) hx ?_ (fun _ => ?_) | (refine Keeps.isFaults x ?_; subst hx) | skip)
    | apply Keeps.ite | apply Keeps.foldl | (simp only [Keeps.mk_iff]; apply Keeps.parts) | split | dsimp only

theorem State.bringDue_keeps {s0 : State} {s : State} (k : Nat) (slot : Nat) (hs : Keeps s0 s) :
    Keeps s0 (State.bringDue s k slot) := by
  unfold State.bringDue
  repeat' with_reducible first
    | assumption | intro _ | apply State.modSlot_keeps | apply Keeps.ite | apply Keeps.foldl | (simp only [Keeps.mk_iff]; apply Keeps.parts) | split
    | dsimp only

theorem State.loseCore_keeps {s0 : State} {s : State} (c : Nat) (hs : Keeps s0 s) :
    Keeps s0 (State.loseCore s c) := by
  unfold State.loseCore
  repeat' with_reducible first
    | assumption | intro _
    | (extract_lets +onlyGivenNames x; clear_value (hx : x = _); first | refine Keeps.bind (s := s0) hx ?_ (fun _ => ?_) | (refine Keeps.isFaults x ?_; subst hx) | skip)
    | apply State.setFld_keeps | apply State.setCore_keeps | apply State.release_keeps | apply Keeps.ite | apply Keeps.foldl
    | (simp only [Keeps.mk_iff]; apply Keeps.parts) | split | dsimp only

theorem State.endWaiting_keeps {s0 : State} {s : State} (f : Nat) (seq : Nat) (hs : Keeps s0 s) :
    Keeps s0 (State.endWaiting s f seq) := by
  unfold State.endWaiting
  repeat' with_reducible first
    | assumption | apply State.dropPre_keeps | intro _
    | (extract_lets +onlyGivenNames x; clear_value (hx : x = _); first | refine Keeps.bind (s := s0) hx ?_ (fun _ => ?_) | (refine Keeps.isFaults x ?_; subst hx) | skip)
    | apply State.endUngranted_keeps | apply Keeps.ite | apply Keeps.foldl | (simp only [Keeps.mk_iff]; apply Keeps.parts) | split | dsimp only

theorem State.retireSlot_keeps {s0 : State} {s : State} (k : Nat) (slot : Nat) (seq : Nat) (hs : Keeps s0 s) :
    Keeps s0 (State.retireSlot s k slot seq) := by
  unfold State.retireSlot
  repeat' with_reducible first
    | assumption | intro _
    | (extract_lets +onlyGivenNames x; clear_value (hx : x = _); first | refine Keeps.bind (s := s0) hx ?_ (fun _ => ?_) | (refine Keeps.isFaults x ?_; subst hx) | skip)
    | apply State.newContract_keeps | apply State.loseCore_keeps | apply State.bringDue_keeps | apply State.refreshHeads_keeps
    | apply State.endWaiting_keeps | apply State.count_keeps | apply State.endFlights_keeps | apply State.persist_keeps | apply State.event_keeps
    | apply Keeps.ite | apply Keeps.foldl | (simp only [Keeps.mk_iff]; apply Keeps.parts) | split | dsimp only

theorem execCoreHang_keeps {s0 : State} (c : Nat) {s : State} (hs : Keeps s0 s) :
    KeepsR s0 (execCoreHang c s) := by
  unfold execCoreHang
  repeat' with_reducible first
    | assumption | intro _
    | (extract_lets +onlyGivenNames x; clear_value (hx : x = _); first | refine Keeps.bind (s := s0) hx ?_ (fun _ => ?_) | (refine Keeps.isFaults x ?_; subst hx) | skip)
    | apply State.modCore_keeps | apply State.modSlot_keeps | apply State.record_keeps | apply State.bringDue_keeps | apply onUnit_keeps
    | apply State.retireSlot_keeps | apply State.count_keeps | apply State.endFlights_keeps | apply KeepsR.next | exact KeepsR.fault
    | exact KeepsR.refused | apply KeepsR.onUnit | apply KeepsR.ite | apply Keeps.ite | apply Keeps.foldl | (simp only [Keeps.mk_iff]; apply Keeps.parts)
    | split | dsimp only

theorem State.plsFail_keeps {s0 : State} {s : State} (fl : Flight) (cube : Nat) (range : Bool) (sum : Bool) (injected : Bool) (detail : Nat) (hs : Keeps s0 s) :
    Keeps s0 (State.plsFail s fl cube range sum injected detail).1 := by
  unfold State.plsFail
  repeat' with_reducible first
    | assumption | intro _
    | (extract_lets +onlyGivenNames x; clear_value (hx : x = _); first | refine Keeps.bind (s := s0) hx ?_ (fun _ => ?_) | refine Keeps.bindFst (s := s0) hx ?_ (fun _ => ?_) | (refine Keeps.isFaults x ?_; subst hx) | skip)
    | apply State.modSlot_keeps | apply State.record_keeps | apply State.bringDue_keeps | apply State.retireSlot_keeps | apply Keeps.ite
    | apply Keeps.foldl | (simp only [Keeps.mk_iff]; apply Keeps.parts) | apply Keeps.iteFst | apply Keeps.iteSnd | refine Keeps.fstEq (by assumption) ?_
    | split | dsimp only

theorem State.showOverdue_keeps {s0 : State} {s : State} (hs : Keeps s0 s) :
    Keeps s0 (State.showOverdue s) := by
  unfold State.showOverdue
  repeat' with_reducible first
    | assumption | intro _ | apply State.setFld_keeps | apply Keeps.ite | apply Keeps.foldl | (simp only [Keeps.mk_iff]; apply Keeps.parts) | split
    | dsimp only

theorem State.testStart_keeps {s0 : State} {s : State} (t : FieldTest) (hs : Keeps s0 s) :
    Keeps s0 (State.testStart s t) := by
  unfold State.testStart
  repeat' with_reducible first
    | assumption | intro _
    | (extract_lets +onlyGivenNames x; clear_value (hx : x = _); first | refine Keeps.bind (s := s0) hx ?_ (fun _ => ?_) | (refine Keeps.isFaults x ?_; subst hx) | skip)
    | apply State.modCore_keeps | apply State.setFld_keeps | apply State.askSys_keeps | apply State.coreWake_keeps | apply Keeps.ite | apply Keeps.foldl
    | (simp only [Keeps.mk_iff]; apply Keeps.parts) | split | dsimp only

theorem State.forceNext_keeps {s0 : State} {s : State} (hs : Keeps s0 s) :
    Keeps s0 (State.forceNext s) := by
  unfold State.forceNext
  repeat' with_reducible first
    | assumption | intro _
    | (extract_lets +onlyGivenNames x; clear_value (hx : x = _); first | refine Keeps.bind (s := s0) hx ?_ (fun _ => ?_) | (refine Keeps.isFaults x ?_; subst hx) | skip)
    | apply State.showOverdue_keeps | apply State.modCore_keeps | apply State.endFlight_keeps | apply State.testStart_keeps | apply Keeps.ite
    | apply Keeps.foldl | (simp only [Keeps.mk_iff]; apply Keeps.parts) | split | dsimp only

theorem execIftForced_keeps {s0 : State} (k : Nat) (slot : Nat) {s : State} (hs : Keeps s0 s) :
    KeepsR s0 (execIftForced k slot s) := by
  unfold execIftForced
  repeat' with_reducible first
    | assumption | intro _
    | (extract_lets +onlyGivenNames x; clear_value (hx : x = _); first | refine Keeps.bind (s := s0) hx ?_ (fun _ => ?_) | (refine Keeps.isFaults x ?_; subst hx) | skip)
    | apply State.showOverdue_keeps | apply State.forceNext_keeps | apply onUnit_keeps | apply State.count_keeps | apply KeepsR.next | exact KeepsR.fault
    | exact KeepsR.refused | apply KeepsR.onUnit | apply KeepsR.ite | apply Keeps.ite | apply Keeps.foldl | (simp only [Keeps.mk_iff]; apply Keeps.parts)
    | split | dsimp only

theorem execIftComplete_keeps {s0 : State} (pass : Bool) (chain : Nat) {s : State} (hs : Keeps s0 s) :
    KeepsR s0 (execIftComplete pass chain s) := by
  unfold execIftComplete
  repeat' with_reducible first
    | assumption | intro _
    | (extract_lets +onlyGivenNames x; clear_value (hx : x = _); first | refine Keeps.bind (s := s0) hx ?_ (fun _ => ?_) | (refine Keeps.isFaults x ?_; subst hx) | skip)
    | apply State.setReg_keeps | apply State.forceNext_keeps | apply State.modCore_keeps | apply State.modSlot_keeps | apply State.record_keeps
    | apply State.endFlight_keeps | apply State.retireSlot_keeps | apply State.count_keeps | apply KeepsR.next | exact KeepsR.fault | exact KeepsR.refused
    | apply KeepsR.onUnit | apply KeepsR.ite | apply Keeps.ite | apply Keeps.foldl | (simp only [Keeps.mk_iff]; apply Keeps.parts) | split | dsimp only

theorem execIftRun_keeps {s0 : State} (q : Nat) (i : Nat) {s : State} (hs : Keeps s0 s) :
    KeepsR s0 (execIftRun q i s) := by
  unfold execIftRun
  repeat' with_reducible first
    | assumption | intro _
    | (extract_lets +onlyGivenNames x; clear_value (hx : x = _); first | refine Keeps.bind (s := s0) hx ?_ (fun _ => ?_) | (refine Keeps.isFaults x ?_; subst hx) | skip)
    | apply State.forceNext_keeps | apply State.dispatch_keeps | apply State.endFlight_keeps | apply KeepsR.next | exact KeepsR.fault
    | exact KeepsR.refused | apply KeepsR.onUnit | apply KeepsR.ite | apply Keeps.ite | apply Keeps.foldl | (simp only [Keeps.mk_iff]; apply Keeps.parts)
    | split | dsimp only

theorem State.afterBatch_keeps {s0 : State} {s : State} (a : AfterBatch) (hs : Keeps s0 s) :
    Keeps s0 (State.afterBatch s a) := by
  unfold State.afterBatch
  repeat' with_reducible first
    | assumption | intro _
    | (extract_lets +onlyGivenNames x; clear_value (hx : x = _); first | refine Keeps.bind (s := s0) hx ?_ (fun _ => ?_) | (refine Keeps.isFaults x ?_; subst hx) | skip)
    | apply State.closeRecords_keeps | apply State.rejectBack_keeps | apply State.coreWake_keeps | apply State.flashKick_keeps | apply State.handOff_keeps
    | apply Keeps.ite | apply Keeps.foldl | (simp only [Keeps.mk_iff]; apply Keeps.parts) | split | dsimp only

theorem execIftStart_keeps {s0 : State} {s : State} (hs : Keeps s0 s) :
    KeepsR s0 (execIftStart s) := by
  unfold execIftStart
  repeat' with_reducible first
    | assumption | intro _ | apply State.testStart_keeps | apply KeepsR.next | exact KeepsR.fault | exact KeepsR.refused | apply KeepsR.onUnit
    | apply KeepsR.ite | apply Keeps.ite | apply Keeps.foldl | (simp only [Keeps.mk_iff]; apply Keeps.parts) | split | dsimp only

theorem State.flipSeal_keeps {s0 : State} {s : State} (b : Nat) (hs : Keeps s0 s) :
    Keeps s0 (State.flipSeal s b) := by
  unfold State.flipSeal
  repeat' with_reducible first
    | assumption | intro _
    | (extract_lets +onlyGivenNames x; clear_value (hx : x = _); first | refine Keeps.bind (s := s0) hx ?_ (fun _ => ?_) | (refine Keeps.isFaults x ?_; subst hx) | skip)
    | apply State.setSyndrome_keeps | apply Keeps.ite | apply Keeps.foldl | (simp only [Keeps.mk_iff]; apply Keeps.parts) | split | dsimp only

theorem execJournalBatchPersisted_keeps {s0 : State} (fails : List Nat) {s : State} (hs : Keeps s0 s) :
    KeepsR s0 (execJournalBatchPersisted fails s) := by
  unfold execJournalBatchPersisted
  repeat' with_reducible first
    | assumption | intro _
    | (extract_lets +onlyGivenNames x; clear_value (hx : x = _); first | refine Keeps.bind (s := s0) hx ?_ (fun _ => ?_) | refine Keeps.bindFst (s := s0) hx ?_ (fun _ => ?_) | (refine Keeps.isFaults x ?_; subst hx) | skip)
    | apply State.batchWrite_keeps | apply State.switchRegion_keeps | apply State.fwEvent_keeps | apply State.storeKick_keeps
    | apply State.afterBatch_keeps | apply State.batchEnd_keeps | apply KeepsR.next | exact KeepsR.fault | exact KeepsR.refused | apply KeepsR.onUnit
    | apply KeepsR.ite | apply Keeps.ite | apply Keeps.foldl | (simp only [Keeps.mk_iff]; apply Keeps.parts) | apply Keeps.iteFst | apply Keeps.iteSnd
    | refine Keeps.fstEq (by assumption) ?_ | split | dsimp only

theorem execSpareReady_keeps {s0 : State} (k : Nat) {s : State} (hs : Keeps s0 s) :
    KeepsR s0 (execSpareReady k s) := by
  unfold execSpareReady
  repeat' with_reducible first
    | assumption | intro _
    | (extract_lets +onlyGivenNames x; clear_value (hx : x = _); first | refine Keeps.bind (s := s0) hx ?_ (fun _ => ?_) | (refine Keeps.isFaults x ?_; subst hx) | skip)
    | apply State.closeRecords_keeps | apply onUnit_keeps | apply State.refreshHeads_keeps | apply KeepsR.next | exact KeepsR.fault | exact KeepsR.refused
    | apply KeepsR.onUnit | apply KeepsR.ite | apply Keeps.ite | apply Keeps.foldl | (simp only [Keeps.mk_iff]; apply Keeps.parts) | split | dsimp only

theorem execSealScan_keeps {s0 : State} (q : Nat) (i : Nat) {s : State} (hs : Keeps s0 s) :
    KeepsR s0 (execSealScan q i s) := by
  unfold execSealScan
  repeat' with_reducible first
    | assumption | intro _
    | (extract_lets +onlyGivenNames x; clear_value (hx : x = _); first | refine Keeps.bind (s := s0) hx ?_ (fun _ => ?_) | (refine Keeps.isFaults x ?_; subst hx) | skip)
    | apply State.dispatch_keeps | apply State.endFlight_keeps | apply KeepsR.next | exact KeepsR.fault | exact KeepsR.refused | apply KeepsR.onUnit
    | apply KeepsR.ite | apply Keeps.ite | apply Keeps.foldl | (simp only [Keeps.mk_iff]; apply Keeps.parts) | split | dsimp only

theorem execCommandComplete_keeps {s0 : State} (q : Nat) (i : Nat) (m : Nat) (withheld : Bool) {s : State} (hs : Keeps s0 s) :
    KeepsR s0 (execCommandComplete q i m withheld s) := by
  unfold execCommandComplete
  repeat' with_reducible first
    | assumption | intro _ | apply State.forceNext_keeps | apply State.completeFlight_keeps | apply KeepsR.next | exact KeepsR.fault
    | exact KeepsR.refused | apply KeepsR.onUnit | apply KeepsR.ite | apply Keeps.ite | apply Keeps.foldl | (simp only [Keeps.mk_iff]; apply Keeps.parts)
    | split | dsimp only

theorem execInject_keeps {s0 : State} (q : Nat) (i : Nat) {s : State} (hs : Keeps s0 s) :
    KeepsR s0 (execInject q i s) := by
  unfold execInject
  repeat' with_reducible first
    | assumption | intro _
    | (extract_lets +onlyGivenNames x; clear_value (hx : x = _); first | refine Keeps.bind (s := s0) hx ?_ (fun _ => ?_) | (refine Keeps.isFaults x ?_; subst hx) | skip)
    | apply State.flipSeal_keeps | apply State.dispatch_keeps | apply State.endFlight_keeps | apply KeepsR.next | exact KeepsR.fault
    | exact KeepsR.refused | apply KeepsR.onUnit | apply KeepsR.ite | apply Keeps.ite | apply Keeps.foldl | (simp only [Keeps.mk_iff]; apply Keeps.parts)
    | split | dsimp only

end Sys2Proof.Machine
end

