-- ==== Sys2Proof/Laws/KeepsResets.lean ====
section
/-!
SUPPORT. The operations of Machine/Resets.lean leave the queue alone and keep the invariant (Laws/Keeps.lean).
-/

set_option linter.all false

namespace Sys2Proof.Machine

theorem State.flrFlight_keeps {s0 : State} {s : State} (fl : Flight) (hs : Keeps s0 s) :
    Keeps s0 (State.flrFlight s fl) := by
  unfold State.flrFlight
  repeat' with_reducible first
    | assumption | intro _
    | (extract_lets +onlyGivenNames x; clear_value (hx : x = _); first | refine Keeps.bind (s := s0) hx ?_ (fun _ => ?_) | (refine Keeps.isFaults x ?_; subst hx) | skip)
    | apply State.sendVoids_keeps | apply State.completeFlight_keeps | apply State.endFlights_keeps | apply Keeps.ite | apply Keeps.foldl
    | (simp only [Keeps.mk_iff]; apply Keeps.parts) | split | dsimp only

theorem State.domainIdle_keeps {s0 : State} {s : State} (f : Nat) (hs : Keeps s0 s) :
    Keeps s0 (State.domainIdle s f) := by
  unfold State.domainIdle
  repeat' with_reducible first
    | assumption | intro _
    | (extract_lets +onlyGivenNames x; clear_value (hx : x = _); first | refine Keeps.bind (s := s0) hx ?_ (fun _ => ?_) | (refine Keeps.isFaults x ?_; subst hx) | skip)
    | apply State.setFld_keeps | apply State.modDomain_keeps | apply Keeps.ite | apply Keeps.foldl | (simp only [Keeps.mk_iff]; apply Keeps.parts) | split
    | dsimp only

theorem State.warmReg_keeps {s0 : State} {s : State} (k : Nat) (hs : Keeps s0 s) :
    Keeps s0 (State.warmReg s k) := by
  unfold State.warmReg
  repeat' with_reducible first
    | assumption | intro _
    | (extract_lets +onlyGivenNames x; clear_value (hx : x = _); first | refine Keeps.bind (s := s0) hx ?_ (fun _ => ?_) | (refine Keeps.isFaults x ?_; subst hx) | skip)
    | apply State.setReg_keeps | apply State.zeroCtr_keeps | apply Keeps.ite | apply Keeps.foldl | (simp only [Keeps.mk_iff]; apply Keeps.parts) | split
    | dsimp only

theorem State.flrRegs_keeps {s0 : State} {s : State} (f : Nat) (hs : Keeps s0 s) :
    Keeps s0 (State.flrRegs s f) := by
  unfold State.flrRegs
  repeat' with_reducible first
    | assumption | intro _
    | (extract_lets +onlyGivenNames x; clear_value (hx : x = _); first | refine Keeps.bind (s := s0) hx ?_ (fun _ => ?_) | (refine Keeps.isFaults x ?_; subst hx) | skip)
    | apply State.setPcie_keeps | apply State.warmReg_keeps | apply Keeps.ite | apply Keeps.foldl | (simp only [Keeps.mk_iff]; apply Keeps.parts) | split
    | dsimp only

theorem State.flr_keeps {s0 : State} {s : State} (f : Nat) (hs : Keeps s0 s) :
    Keeps s0 (State.flr s f) := by
  unfold State.flr
  repeat' with_reducible first
    | assumption | intro _
    | (extract_lets +onlyGivenNames x; clear_value (hx : x = _); first | refine Keeps.bind (s := s0) hx ?_ (fun _ => ?_) | (refine Keeps.isFaults x ?_; subst hx) | skip)
    | apply State.closeRecords_keeps | apply State.flrFlight_keeps | apply State.domainIdle_keeps | apply State.forceNext_keeps
    | apply State.flrRegs_keeps | apply State.setFld_keeps | apply State.resetQueue_keeps | apply State.refreshHeads_keeps | apply State.partInstall_keeps
    | apply State.purgeWhere_keeps | apply State.modQueue_keeps | apply Keeps.ite | apply Keeps.foldl | (simp only [Keeps.mk_iff]; apply Keeps.parts)
    | split | dsimp only

theorem State.pfFlr_keeps {s0 : State} {s : State} (hs : Keeps s0 s) :
    Keeps s0 (State.pfFlr s) := by
  unfold State.pfFlr
  repeat' with_reducible first
    | assumption | intro _
    | (extract_lets +onlyGivenNames x; clear_value (hx : x = _); first | refine Keeps.bind (s := s0) hx ?_ (fun _ => ?_) | (refine Keeps.isFaults x ?_; subst hx) | skip)
    | apply State.setPcie_keeps | apply State.flr_keeps | apply Keeps.ite | apply Keeps.foldl | (simp only [Keeps.mk_iff]; apply Keeps.parts) | split
    | dsimp only

theorem execPfFlr_keeps {s0 : State} {s : State} (hs : Keeps s0 s) :
    KeepsR s0 (execPfFlr s) := by
  unfold execPfFlr
  repeat' with_reducible first
    | assumption | intro _ | apply State.pfFlr_keeps | apply KeepsR.next | exact KeepsR.fault | exact KeepsR.refused | apply KeepsR.onUnit
    | apply KeepsR.ite | apply Keeps.ite | apply Keeps.foldl | (simp only [Keeps.mk_iff]; apply Keeps.parts) | split | dsimp only

theorem State.resetCore_keeps {s0 : State} {s : State} (c : Nat) (hs : Keeps s0 s) :
    Keeps s0 (State.resetCore s c) := by
  unfold State.resetCore
  repeat' with_reducible first
    | assumption | intro _
    | (extract_lets +onlyGivenNames x; clear_value (hx : x = _); first | refine Keeps.bind (s := s0) hx ?_ (fun _ => ?_) | (refine Keeps.isFaults x ?_; subst hx) | skip)
    | apply State.warmReg_keeps | apply State.setFld_keeps | apply State.askSys_keeps | apply State.setCore_keeps | apply State.count_keeps
    | apply State.sleepBookings_keeps | apply State.release_keeps | apply Keeps.ite | apply Keeps.foldl | (simp only [Keeps.mk_iff]; apply Keeps.parts)
    | (simp only [Keeps.mk_iff]; refine Keeps.withSeals ?_ (smapWf_drop _)) | split | dsimp only

theorem State.writeOut_keeps {s0 : State} {s : State} (k : Nat) (hs : Keeps s0 s) :
    Keeps s0 (State.writeOut s k) := by
  unfold State.writeOut
  repeat' with_reducible first
    | assumption | intro _ | apply State.evictLine_keeps | apply Keeps.ite | apply Keeps.foldl | (simp only [Keeps.mk_iff]; apply Keeps.parts) | split
    | dsimp only

theorem execHubClrst_keeps {s0 : State} (mask : Nat) {s : State} (hs : Keeps s0 s) :
    KeepsR s0 (execHubClrst mask s) := by
  unfold execHubClrst
  repeat' with_reducible first
    | assumption | intro _
    | (extract_lets +onlyGivenNames x; clear_value (hx : x = _); first | refine Keeps.bind (s := s0) hx ?_ (fun _ => ?_) | (refine Keeps.isFaults x ?_; subst hx) | skip)
    | apply State.resetCore_keeps | apply State.setFld_keeps | apply State.writeOut_keeps | apply State.endFlights_keeps | apply KeepsR.next
    | exact KeepsR.fault | exact KeepsR.refused | apply KeepsR.onUnit | apply KeepsR.ite | apply Keeps.ite | apply Keeps.foldl
    | (simp only [Keeps.mk_iff]; apply Keeps.parts) | split | dsimp only

theorem State.loseFrom_keeps {s0 : State} {s : State} (k : Nat) (l : Nat) (hs : Keeps s0 s) :
    Keeps s0 (State.loseFrom s k l) := by
  unfold State.loseFrom
  repeat' with_reducible first
    | assumption | intro _
    | (extract_lets +onlyGivenNames x; clear_value (hx : x = _); first | refine Keeps.bind (s := s0) hx ?_ (fun _ => ?_) | (refine Keeps.isFaults x ?_; subst hx) | skip)
    | apply State.loseLine_keeps | apply State.record_keeps | apply State.advanceLine_keeps | apply State.setDir_keeps | apply State.countDir_keeps
    | apply Keeps.ite | apply Keeps.foldl | (simp only [Keeps.mk_iff]; apply Keeps.parts) | split | dsimp only

theorem execVfEnableClear_keeps {s0 : State} {s : State} (hs : Keeps s0 s) :
    KeepsR s0 (execVfEnableClear s) := by
  unfold execVfEnableClear
  repeat' with_reducible first
    | assumption | intro _
    | (extract_lets +onlyGivenNames x; clear_value (hx : x = _); first | refine Keeps.bind (s := s0) hx ?_ (fun _ => ?_) | (refine Keeps.isFaults x ?_; subst hx) | skip)
    | apply State.flr_keeps | apply KeepsR.next | exact KeepsR.fault | exact KeepsR.refused | apply KeepsR.onUnit | apply KeepsR.ite | apply Keeps.ite
    | apply Keeps.foldl | (simp only [Keeps.mk_iff]; apply Keeps.parts) | split | dsimp only

theorem State.loseCluster_keeps {s0 : State} {s : State} (k : Nat) (hs : Keeps s0 s) :
    Keeps s0 (State.loseCluster s k) := by
  unfold State.loseCluster
  repeat' with_reducible first
    | assumption | intro _
    | (extract_lets +onlyGivenNames x; clear_value (hx : x = _); first | refine Keeps.bind (s := s0) hx ?_ (fun _ => ?_) | (refine Keeps.isFaults x ?_; subst hx) | skip)
    | apply State.loseFrom_keeps | apply Keeps.ite | apply Keeps.foldl | (simp only [Keeps.mk_iff]; apply Keeps.parts) | split | dsimp only

theorem execFlr_keeps {s0 : State} (f : Nat) {s : State} (hs : Keeps s0 s) :
    KeepsR s0 (execFlr f s) := by
  unfold execFlr
  repeat' with_reducible first
    | assumption | intro _ | apply onUnit_keeps | apply State.flr_keeps | apply State.pfFlr_keeps | apply KeepsR.next | exact KeepsR.fault
    | exact KeepsR.refused | apply KeepsR.onUnit | apply KeepsR.ite | apply Keeps.ite | apply Keeps.foldl | (simp only [Keeps.mk_iff]; apply Keeps.parts)
    | split | dsimp only

theorem execClusterResetDone_keeps {s0 : State} {s : State} (hs : Keeps s0 s) :
    KeepsR s0 (execClusterResetDone s) := by
  unfold execClusterResetDone
  repeat' with_reducible first
    | assumption | intro _
    | (extract_lets +onlyGivenNames x; clear_value (hx : x = _); first | refine Keeps.bind (s := s0) hx ?_ (fun _ => ?_) | (refine Keeps.isFaults x ?_; subst hx) | skip)
    | apply State.closeRecords_keeps | apply State.setFld_keeps | apply State.loseCluster_keeps | apply State.refreshHeads_keeps
    | apply State.writeOut_keeps | apply KeepsR.next | exact KeepsR.fault | exact KeepsR.refused | apply KeepsR.onUnit | apply KeepsR.ite
    | apply Keeps.ite | apply Keeps.foldl | (simp only [Keeps.mk_iff]; apply Keeps.parts) | split | dsimp only

end Sys2Proof.Machine
end

