-- ==== Sys2Proof/Laws/KeepsHostPort.lean ====
section
/-!
SUPPORT. The operations of Machine/HostPort.lean leave the queue alone and keep the invariant (Laws/Keeps.lean).
-/

set_option linter.all false

namespace Sys2Proof.Machine

theorem execMsixHoldoffExpiry_keeps {s0 : State} (f : Nat) (v : Nat) {s : State} (hs : Keeps s0 s) :
    KeepsR s0 (execMsixHoldoffExpiry f v s) := by
  unfold execMsixHoldoffExpiry
  repeat' with_reducible first
    | assumption | intro _
    | (extract_lets +onlyGivenNames x; clear_value (hx : x = _); first | refine Keeps.bind (s := s0) hx ?_ (fun _ => ?_) | (refine Keeps.isFaults x ?_; subst hx) | skip)
    | apply State.setMsix_keeps | apply State.sendVector_keeps | apply onUnit_keeps | apply KeepsR.next | exact KeepsR.fault | exact KeepsR.refused
    | apply KeepsR.onUnit | apply KeepsR.ite | apply Keeps.ite | apply Keeps.foldl | (simp only [Keeps.mk_iff]; apply Keeps.parts) | split | dsimp only

theorem execHostCompletionTimeout_keeps {s0 : State} (tag : Nat) {s : State} (hs : Keeps s0 s) :
    KeepsR s0 (execHostCompletionTimeout tag s) := by
  unfold execHostCompletionTimeout
  repeat' with_reducible first
    | assumption | intro _ | apply State.dropRequest_keeps | apply State.answered_keeps | apply KeepsR.next | exact KeepsR.fault | exact KeepsR.refused
    | apply KeepsR.onUnit | apply KeepsR.ite | apply Keeps.ite | apply Keeps.foldl | (simp only [Keeps.mk_iff]; apply Keeps.parts) | split | dsimp only

theorem execHostCompletion_keeps {s0 : State} (tag : Nat) (status : Nat) (poison : Bool) (data : List Byte) {s : State} (hs : Keeps s0 s) :
    KeepsR s0 (execHostCompletion tag status poison data s) := by
  unfold execHostCompletion
  repeat' with_reducible first
    | assumption | intro _
    | (extract_lets +onlyGivenNames x; clear_value (hx : x = _); first | refine Keeps.bind (s := s0) hx ?_ (fun _ => ?_) | (refine Keeps.isFaults x ?_; subst hx) | skip)
    | apply State.dropRequest_keeps | apply State.fetched_keeps | apply State.answered_keeps | apply KeepsR.next | exact KeepsR.fault
    | exact KeepsR.refused | apply KeepsR.onUnit | apply KeepsR.ite | apply Keeps.ite | apply Keeps.foldl | (simp only [Keeps.mk_iff]; apply Keeps.parts)
    | split | dsimp only

theorem State.flushVector_keeps {s0 : State} {s : State} (f : Nat) (v : Nat) (hs : Keeps s0 s) :
    Keeps s0 (State.flushVector s f v) := by
  unfold State.flushVector
  repeat' with_reducible first
    | assumption | intro _
    | (extract_lets +onlyGivenNames x; clear_value (hx : x = _); first | refine Keeps.bind (s := s0) hx ?_ (fun _ => ?_) | (refine Keeps.isFaults x ?_; subst hx) | skip)
    | apply State.sendVector_keeps | apply Keeps.ite | apply Keeps.foldl | (simp only [Keeps.mk_iff]; apply Keeps.parts) | split | dsimp only

theorem State.flushVectors_keeps {s0 : State} {s : State} (f : Nat) (hs : Keeps s0 s) :
    Keeps s0 (State.flushVectors s f) := by
  unfold State.flushVectors
  repeat' with_reducible first
    | assumption | intro _ | apply State.flushVector_keeps | apply Keeps.ite | apply Keeps.foldl | (simp only [Keeps.mk_iff]; apply Keeps.parts) | split
    | dsimp only

theorem execPcieConfigAccess_keeps {s0 : State} (f : Nat) (op : CfgOp) {s : State} (hs : Keeps s0 s) :
    KeepsR s0 (execPcieConfigAccess f op s) := by
  unfold execPcieConfigAccess
  repeat' with_reducible first
    | assumption | intro _
    | (extract_lets +onlyGivenNames x; clear_value (hx : x = _); first | refine Keeps.bind (s := s0) hx ?_ (fun _ => ?_) | (refine Keeps.isFaults x ?_; subst hx) | skip)
    | apply State.setPcie_keeps | apply onUnit_keeps | apply State.send_keeps | apply State.flushVectors_keeps | apply KeepsR.next | exact KeepsR.fault
    | exact KeepsR.refused | apply KeepsR.onUnit | apply KeepsR.ite | apply Keeps.ite | apply Keeps.foldl | (simp only [Keeps.mk_iff]; apply Keeps.parts)
    | split | dsimp only

theorem execBar2Read_keeps {s0 : State} (f : Nat) (o : Nat) (n : Nat) {s : State} (hs : Keeps s0 s) :
    KeepsR s0 (execBar2Read f o n s) := by
  unfold execBar2Read
  repeat' with_reducible first
    | assumption | intro _
    | (extract_lets +onlyGivenNames x; clear_value (hx : x = _); first | refine Keeps.bind (s := s0) hx ?_ (fun _ => ?_) | refine Keeps.bindFst (s := s0) hx ?_ (fun _ => ?_) | (refine Keeps.isFaults x ?_; subst hx) | skip)
    | apply State.traffic_keeps | apply State.coreWake_keeps | apply onUnit_keeps | apply State.uncorrectable_keeps | apply State.count_keeps
    | apply State.send_keeps | apply KeepsR.next | exact KeepsR.fault | exact KeepsR.refused | apply KeepsR.onUnit | apply KeepsR.ite | apply Keeps.ite
    | apply Keeps.foldl | (simp only [Keeps.mk_iff]; apply Keeps.parts) | apply Keeps.iteFst | apply Keeps.iteSnd | refine Keeps.fstEq (by assumption) ?_
    | split | dsimp only

theorem execBar2Write_keeps {s0 : State} (f : Nat) (o : Nat) (data : List Byte) {s : State} (hs : Keeps s0 s) :
    KeepsR s0 (execBar2Write f o data s) := by
  unfold execBar2Write
  repeat' with_reducible first
    | assumption | intro _
    | (extract_lets +onlyGivenNames x; clear_value (hx : x = _); first | refine Keeps.bind (s := s0) hx ?_ (fun _ => ?_) | (refine Keeps.isFaults x ?_; subst hx) | skip)
    | apply State.purgeRange_keeps | apply State.traffic_keeps | apply State.coreWake_keeps | apply State.plainWrite_keeps | apply onUnit_keeps
    | apply State.count_keeps | apply KeepsR.next | exact KeepsR.fault | exact KeepsR.refused | apply KeepsR.onUnit | apply KeepsR.ite | apply Keeps.ite
    | apply Keeps.foldl | (simp only [Keeps.mk_iff]; apply Keeps.parts) | split | dsimp only

theorem execMsixUnmask_keeps {s0 : State} (f : Nat) (v : Nat) {s : State} (hs : Keeps s0 s) :
    KeepsR s0 (execMsixUnmask f v s) := by
  unfold execMsixUnmask
  repeat' with_reducible first
    | assumption | intro _
    | (extract_lets +onlyGivenNames x; clear_value (hx : x = _); first | refine Keeps.bind (s := s0) hx ?_ (fun _ => ?_) | (refine Keeps.isFaults x ?_; subst hx) | skip)
    | apply State.setMsix_keeps | apply State.sendVector_keeps | apply onUnit_keeps | apply KeepsR.next | exact KeepsR.fault | exact KeepsR.refused
    | apply KeepsR.onUnit | apply KeepsR.ite | apply Keeps.ite | apply Keeps.foldl | (simp only [Keeps.mk_iff]; apply Keeps.parts) | split | dsimp only

end Sys2Proof.Machine
end

