-- ==== Sys2Proof/Laws/KeepsBoot.lean ====
section
/-!
SUPPORT. The operations of Machine/Boot.lean leave the queue alone and keep the invariant (Laws/Keeps.lean).
-/

set_option linter.all false

namespace Sys2Proof.Machine

theorem State.bootStep4_keeps {s0 : State} {s : State} (hs : Keeps s0 s) :
    Keeps s0 (State.bootStep4 s) := by
  unfold State.bootStep4
  repeat' with_reducible first
    | assumption | intro _
    | (extract_lets +onlyGivenNames x; clear_value (hx : x = _); first | refine Keeps.bind (s := s0) hx ?_ (fun _ => ?_) | (refine Keeps.isFaults x ?_; subst hx) | skip)
    | apply State.askSys_keeps | apply Keeps.ite | apply Keeps.foldl | (simp only [Keeps.mk_iff]; apply Keeps.parts) | split | dsimp only

theorem execPerstNRise_keeps {s0 : State} {s : State} (hs : Keeps s0 s) :
    KeepsR s0 (execPerstNRise s) := by
  unfold execPerstNRise
  repeat' with_reducible first
    | assumption | intro _
    | (extract_lets +onlyGivenNames x; clear_value (hx : x = _); first | refine Keeps.bind (s := s0) hx ?_ (fun _ => ?_) | (refine Keeps.isFaults x ?_; subst hx) | skip)
    | apply KeepsR.next | exact KeepsR.fault | exact KeepsR.refused | apply KeepsR.onUnit | apply KeepsR.ite | apply Keeps.ite | apply Keeps.foldl
    | (simp only [Keeps.mk_iff]; apply Keeps.parts) | split | dsimp only

theorem State.warmCores_keeps {s0 : State} {s : State} (off : Bool) (hs : Keeps s0 s) :
    Keeps s0 (State.warmCores s off) := by
  unfold State.warmCores
  repeat' with_reducible first
    | assumption | intro _ | apply State.resetCore_keeps | apply State.setFld_keeps | apply Keeps.ite | apply Keeps.foldl
    | (simp only [Keeps.mk_iff]; apply Keeps.parts) | split | dsimp only

theorem State.warmLinks_keeps {s0 : State} {s : State} (hs : Keeps s0 s) :
    Keeps s0 (State.warmLinks s) := by
  unfold State.warmLinks
  repeat' with_reducible first
    | assumption | intro _
    | (extract_lets +onlyGivenNames x; clear_value (hx : x = _); first | refine Keeps.bind (s := s0) hx ?_ (fun _ => ?_) | (refine Keeps.isFaults x ?_; subst hx) | skip)
    | apply State.modLink_keeps | apply State.linkAbsent_keeps | apply Keeps.ite | apply Keeps.foldl | (simp only [Keeps.mk_iff]; apply Keeps.parts)
    | split | dsimp only

theorem State.warmCaches_keeps {s0 : State} {s : State} (hs : Keeps s0 s) :
    Keeps s0 (State.warmCaches s) := by
  unfold State.warmCaches
  repeat' with_reducible first
    | assumption | intro _
    | (extract_lets +onlyGivenNames x; clear_value (hx : x = _); first | refine Keeps.bind (s := s0) hx ?_ (fun _ => ?_) | (refine Keeps.isFaults x ?_; subst hx) | skip)
    | apply State.writebackLine_keeps | apply Keeps.ite | apply Keeps.foldl | (simp only [Keeps.mk_iff]; apply Keeps.parts) | split | dsimp only

theorem State.powerDie_keeps {s0 : State} {s : State} (k : Nat) (hs : Keeps s0 s) :
    Keeps s0 (State.powerDie s k) := by
  unfold State.powerDie
  repeat' with_reducible first
    | assumption | intro _
    | (extract_lets +onlyGivenNames x; clear_value (hx : x = _); first | refine Keeps.bind (s := s0) hx ?_ (fun _ => ?_) | (refine Keeps.isFaults x ?_; subst hx) | (refine Keeps.isFun x ?_; subst hx) | skip)
    | apply State.sendFrame_keeps | apply State.ask_keeps | apply State.setFld_keeps | apply State.askSys_keeps | apply Keeps.ite | apply Keeps.foldl
    | (simp only [Keeps.mk_iff]; apply Keeps.parts) | split | dsimp only

theorem State.flowBack_keeps {s0 : State} {s : State} (hs : Keeps s0 s) :
    Keeps s0 (State.flowBack s) := by
  unfold State.flowBack
  repeat' with_reducible first
    | assumption | intro _
    | (extract_lets +onlyGivenNames x; clear_value (hx : x = _); first | refine Keeps.bind (s := s0) hx ?_ (fun _ => ?_) | (refine Keeps.isFaults x ?_; subst hx) | skip)
    | apply State.setFld_keeps | apply State.bookStack_keeps | apply State.powerDie_keeps | apply Keeps.ite | apply Keeps.foldl
    | (simp only [Keeps.mk_iff]; apply Keeps.parts) | split | dsimp only

theorem State.warmFirmware_keeps {s0 : State} {s : State} (hs : Keeps s0 s) :
    Keeps s0 (State.warmFirmware s) := by
  unfold State.warmFirmware
  repeat' with_reducible first
    | assumption | intro _
    | (extract_lets +onlyGivenNames x; clear_value (hx : x = _); first | refine Keeps.bind (s := s0) hx ?_ (fun _ => ?_) | (refine Keeps.isFaults x ?_; subst hx) | skip)
    | apply State.newContract_keeps | apply State.fwSet_keeps | apply State.release_keeps | apply Keeps.ite | apply Keeps.foldl
    | (simp only [Keeps.mk_iff]; apply Keeps.parts) | split | dsimp only

theorem State.warmQueues_keeps {s0 : State} {s : State} (hs : Keeps s0 s) :
    Keeps s0 (State.warmQueues s) := by
  unfold State.warmQueues
  repeat' with_reducible first
    | assumption | intro _
    | (extract_lets +onlyGivenNames x; clear_value (hx : x = _); first | refine Keeps.bind (s := s0) hx ?_ (fun _ => ?_) | (refine Keeps.isFaults x ?_; subst hx) | skip)
    | apply State.domainIdle_keeps | apply State.voidBlocks_keeps | apply State.release_keeps | apply Keeps.ite | apply Keeps.foldl
    | (simp only [Keeps.mk_iff]; apply Keeps.parts) | split | dsimp only

theorem State.warmTel_keeps {s0 : State} {s : State} (hs : Keeps s0 s) :
    Keeps s0 (State.warmTel s) := by
  unfold State.warmTel
  repeat' with_reducible first
    | assumption | intro _
    | (extract_lets +onlyGivenNames x; clear_value (hx : x = _); first | refine Keeps.bind (s := s0) hx ?_ (fun _ => ?_) | (refine Keeps.isFaults x ?_; subst hx) | skip)
    | apply State.release_keeps | apply Keeps.ite | apply Keeps.foldl | (simp only [Keeps.mk_iff]; apply Keeps.parts)
    | (simp only [Keeps.mk_iff]; refine Keeps.withSlog ?_ (fun _ => Nat.zero_le _)) | split | dsimp only

theorem State.warmTiers_keeps {s0 : State} {s : State} (hs : Keeps s0 s) :
    Keeps s0 (State.warmTiers s) := by
  unfold State.warmTiers
  repeat' with_reducible first
    | assumption | intro _
    | (extract_lets +onlyGivenNames x; clear_value (hx : x = _); first | refine Keeps.bind (s := s0) hx ?_ (fun _ => ?_) | (refine Keeps.isFaults x ?_; subst hx) | skip)
    | apply State.tgDestroy_keeps | apply State.release_keeps | apply Keeps.ite | apply Keeps.foldl | (simp only [Keeps.mk_iff]; apply Keeps.parts)
    | split | dsimp only

theorem State.warmFaults_keeps {s0 : State} {s : State} (hs : Keeps s0 s) :
    Keeps s0 (State.warmFaults s) := by
  unfold State.warmFaults
  extract_lets ring gone
  apply State.setFld_keeps
  simp only [Keeps.mk_iff]
  exact hs.withRing (g := ring) (fun h => by unfold ring; rw [List.length_map]; exact h)

theorem State.warmRegs_keeps {s0 : State} {s : State} (hs : Keeps s0 s) :
    Keeps s0 (State.warmRegs s) := by
  unfold State.warmRegs
  repeat' with_reducible first
    | assumption | intro _
    | (extract_lets +onlyGivenNames x; clear_value (hx : x = _); first | refine Keeps.bind (s := s0) hx ?_ (fun _ => ?_) | (refine Keeps.isFaults x ?_; subst hx) | skip)
    | apply State.warmReg_keeps | apply State.setFld_keeps | apply State.fabCounts_keeps | apply Keeps.ite | apply Keeps.foldl
    | (simp only [Keeps.mk_iff]; apply Keeps.parts) | split | dsimp only

theorem State.warmOd_keeps {s0 : State} {s : State} (hs : Keeps s0 s) :
    Keeps s0 (State.warmOd s) := by
  unfold State.warmOd
  repeat' with_reducible first
    | assumption | intro _
    | (extract_lets +onlyGivenNames x; clear_value (hx : x = _); first | refine Keeps.bind (s := s0) hx ?_ (fun _ => ?_) | (refine Keeps.isFaults x ?_; subst hx) | skip)
    | apply State.storeKick_keeps | apply State.release_keeps | apply Keeps.ite | apply Keeps.foldl | (simp only [Keeps.mk_iff]; apply Keeps.parts)
    | split | dsimp only

theorem State.warmReset_keeps {s0 : State} {s : State} (hs : Keeps s0 s) :
    Keeps s0 (State.warmReset s) := by
  unfold State.warmReset
  repeat' with_reducible first
    | assumption | intro _
    | (extract_lets +onlyGivenNames x; clear_value (hx : x = _); first | refine Keeps.bind (s := s0) hx ?_ (fun _ => ?_) | (refine Keeps.isFaults x ?_; subst hx) | skip)
    | apply State.warmCores_keeps | apply State.warmLinks_keeps | apply State.warmCaches_keeps | apply State.flowBack_keeps
    | apply State.warmFirmware_keeps | apply State.warmQueues_keeps | apply State.tally_keeps | apply State.warmTel_keeps | apply State.warmTiers_keeps
    | apply State.warmFaults_keeps | apply State.warmRegs_keeps | apply State.warmOd_keeps | apply Keeps.ite | apply Keeps.foldl
    | (simp only [Keeps.mk_iff]; apply Keeps.parts) | split | dsimp only

theorem State.coldRegs_keeps {s0 : State} {s : State} {old : State} (hs : Keeps s0 s) (hold : Keeps s0 old) :
    Keeps s0 (State.coldRegs s old) := by
  unfold State.coldRegs
  repeat' with_reducible first
    | assumption | intro _ | apply State.setReg_keeps | apply State.setFld_keeps | apply Keeps.ite | apply Keeps.foldl
    | (simp only [Keeps.mk_iff]; apply Keeps.parts) | split | dsimp only

theorem State.coldState_keeps {s0 : State} {s : State} (hs : Keeps s0 s) :
    Keeps s0 (State.coldState s) := by
  unfold State.coldState
  extract_lets c drop
  refine State.coldRegs_keeps ?_ hs
  simp only [Keeps.mk_iff]
  exact hs.fresh

theorem State.mapsFromOd_keeps {s0 : State} {s : State} (hs : Keeps s0 s) :
    Keeps s0 (State.mapsFromOd s) := by
  unfold State.mapsFromOd
  repeat' with_reducible first
    | assumption | intro _
    | (extract_lets +onlyGivenNames x; clear_value (hx : x = _); first | refine Keeps.bind (s := s0) hx ?_ (fun _ => ?_) | (refine Keeps.isFaults x ?_; subst hx) | skip)
    | apply Keeps.ite | apply Keeps.foldl | (simp only [Keeps.mk_iff]; apply Keeps.parts) | split | dsimp only

theorem State.tapAct_keeps {s0 : State} {s : State} (tdi : Bool) (hs : Keeps s0 s) :
    Keeps s0 (State.tapAct s tdi) := by
  unfold State.tapAct
  repeat' with_reducible first
    | assumption | intro _
    | (extract_lets +onlyGivenNames x; clear_value (hx : x = _); first | refine Keeps.bind (s := s0) hx ?_ (fun _ => ?_) | (refine Keeps.isFaults x ?_; subst hx) | (refine Keeps.isFun x ?_; subst hx) | skip)
    | apply Keeps.ite | apply Keeps.foldl | (simp only [Keeps.mk_iff]; apply Keeps.parts) | split | dsimp only

theorem State.shapeFromOd_keeps {s0 : State} {s : State} (hs : Keeps s0 s) :
    Keeps s0 (State.shapeFromOd s) := by
  unfold State.shapeFromOd
  repeat' with_reducible first
    | assumption | intro _
    | (extract_lets +onlyGivenNames x; clear_value (hx : x = _); first | refine Keeps.bind (s := s0) hx ?_ (fun _ => ?_) | (refine Keeps.isFaults x ?_; subst hx) | skip)
    | apply State.setFld_keeps | apply Keeps.ite | apply Keeps.foldl | (simp only [Keeps.mk_iff]; apply Keeps.parts) | split | dsimp only

theorem execHotReset_keeps {s0 : State} {s : State} (hs : Keeps s0 s) :
    KeepsR s0 (execHotReset s) := by
  unfold execHotReset
  repeat' with_reducible first
    | assumption | intro _ | apply State.warmReset_keeps | apply KeepsR.next | exact KeepsR.fault | exact KeepsR.refused | apply KeepsR.onUnit
    | apply KeepsR.ite | apply Keeps.ite | apply Keeps.foldl | (simp only [Keeps.mk_iff]; apply Keeps.parts) | split | dsimp only

theorem State.bootStep10_keeps {s0 : State} {s : State} (hs : Keeps s0 s) :
    Keeps s0 (State.bootStep10 s) := by
  unfold State.bootStep10
  repeat' with_reducible first
    | assumption | intro _
    | (extract_lets +onlyGivenNames x; clear_value (hx : x = _); first | refine Keeps.bind (s := s0) hx ?_ (fun _ => ?_) | (refine Keeps.isFaults x ?_; subst hx) | skip)
    | apply State.setFld_keeps | apply State.linksByEnable_keeps | apply State.setBeatState_keeps | apply Keeps.ite | apply Keeps.foldl
    | (simp only [Keeps.mk_iff]; apply Keeps.parts) | split | dsimp only

theorem State.zeroDraw_keeps {s0 : State} {s : State} (r : Nat) (ca : Nat) (hs : Keeps s0 s) :
    Keeps s0 (State.zeroDraw s r ca) := by
  unfold State.zeroDraw
  repeat' with_reducible first
    | assumption | intro _ | apply State.askSys_keeps | apply State.release_keeps | apply Keeps.ite | apply Keeps.foldl
    | (simp only [Keeps.mk_iff]; apply Keeps.parts) | split | dsimp only

theorem State.bootStep5_keeps {s0 : State} {s : State} (hs : Keeps s0 s) :
    Keeps s0 (State.bootStep5 s) := by
  unfold State.bootStep5
  repeat' with_reducible first
    | assumption | intro _
    | (extract_lets +onlyGivenNames x; clear_value (hx : x = _); first | refine Keeps.bind (s := s0) hx ?_ (fun _ => ?_) | (refine Keeps.isFaults x ?_; subst hx) | skip)
    | apply State.askSys_keeps | apply State.powerDie_keeps | apply State.zeroDraw_keeps | apply Keeps.ite | apply Keeps.foldl
    | (simp only [Keeps.mk_iff]; apply Keeps.parts) | split | dsimp only

theorem State.bootStep8_keeps {s0 : State} {s : State} (hs : Keeps s0 s) :
    Keeps s0 (State.bootStep8 s) := by
  unfold State.bootStep8
  repeat' with_reducible first
    | assumption | intro _
    | (extract_lets +onlyGivenNames x; clear_value (hx : x = _); first | refine Keeps.bind (s := s0) hx ?_ (fun _ => ?_) | (refine Keeps.isFaults x ?_; subst hx) | skip)
    | apply State.layoutApply_keeps | apply State.event_keeps | apply Keeps.ite | apply Keeps.foldl | (simp only [Keeps.mk_iff]; apply Keeps.parts)
    | split | dsimp only

theorem State.bootStep2_keeps {s0 : State} {s : State} (hs : Keeps s0 s) :
    Keeps s0 (State.bootStep2 s) := by
  unfold State.bootStep2
  repeat' with_reducible first
    | assumption | intro _
    | (extract_lets +onlyGivenNames x; clear_value (hx : x = _); first | refine Keeps.bind (s := s0) hx ?_ (fun _ => ?_) | (refine Keeps.isFaults x ?_; subst hx) | skip)
    | apply State.mapsFromOd_keeps | apply State.setCap_keeps | apply State.sendFrame_keeps | apply State.setFld_keeps | apply State.rebuild_keeps
    | apply State.shapeFromOd_keeps | apply Keeps.ite | apply Keeps.foldl | (simp only [Keeps.mk_iff]; apply Keeps.parts) | split | dsimp only

theorem State.bootStep7_keeps {s0 : State} {s : State} (hs : Keeps s0 s) :
    Keeps s0 (State.bootStep7 s) := by
  unfold State.bootStep7
  repeat' with_reducible first
    | assumption | intro _
    | (extract_lets +onlyGivenNames x; clear_value (hx : x = _); first | refine Keeps.bind (s := s0) hx ?_ (fun _ => ?_) | (refine Keeps.isFaults x ?_; subst hx) | skip)
    | apply State.bookStack_keeps | apply State.bookRefresh_keeps | apply State.zeroDraw_keeps | apply Keeps.ite | apply Keeps.foldl
    | (simp only [Keeps.mk_iff]; apply Keeps.parts) | split | dsimp only

theorem State.bootStep6_keeps {s0 : State} {s : State} (hs : Keeps s0 s) :
    Keeps s0 (State.bootStep6 s) := by
  unfold State.bootStep6
  repeat' with_reducible first
    | assumption | intro _
    | (extract_lets +onlyGivenNames x; clear_value (hx : x = _); first | refine Keeps.bind (s := s0) hx ?_ (fun _ => ?_) | (refine Keeps.isFaults x ?_; subst hx) | skip)
    | apply State.setFld_keeps | apply State.askSys_keeps | apply Keeps.ite | apply Keeps.foldl | (simp only [Keeps.mk_iff]; apply Keeps.parts) | split
    | dsimp only

theorem State.recover_keeps {s0 : State} {s : State} (hs : Keeps s0 s) :
    Keeps s0 (State.recover s) := by
  unfold State.recover
  repeat' with_reducible first
    | assumption | intro _
    | (extract_lets +onlyGivenNames x; clear_value (hx : x = _); first | refine Keeps.bind (s := s0) hx ?_ (fun _ => ?_) | (refine Keeps.isFaults x ?_; subst hx) | skip)
    | apply Keeps.ite | apply Keeps.foldl | (simp only [Keeps.mk_iff]; apply Keeps.parts) | split | dsimp only

theorem State.bootStep3_keeps {s0 : State} {s : State} (hs : Keeps s0 s) :
    Keeps s0 (State.bootStep3 s) := by
  unfold State.bootStep3
  repeat' with_reducible first
    | assumption | intro _
    | (extract_lets +onlyGivenNames x; clear_value (hx : x = _); first | refine Keeps.bind (s := s0) hx ?_ (fun _ => ?_) | (refine Keeps.isFaults x ?_; subst hx) | skip)
    | apply State.fwSet_keeps | apply State.fwEvent_keeps | apply State.recover_keeps | apply Keeps.ite | apply Keeps.foldl
    | (simp only [Keeps.mk_iff]; apply Keeps.parts) | split | dsimp only

theorem State.bootStep_keeps {s0 : State} {s : State} (n : Nat) (hs : Keeps s0 s) :
    Keeps s0 (State.bootStep s n) := by
  unfold State.bootStep
  repeat' with_reducible first
    | assumption | intro _ | apply State.setReg_keeps | apply State.bootStep10_keeps | apply State.bootStep5_keeps | apply State.bootStep8_keeps
    | apply State.bootStep2_keeps | apply State.bootStep7_keeps | apply State.bootStep6_keeps | apply State.bootStep3_keeps | apply State.bootStep4_keeps
    | apply Keeps.ite | apply Keeps.foldl | (simp only [Keeps.mk_iff]; apply Keeps.parts) | split | dsimp only

theorem execPerstN_keeps {s0 : State} {s : State} (hs : Keeps s0 s) :
    KeepsR s0 (execPerstN s) := by
  unfold execPerstN
  repeat' with_reducible first
    | assumption | intro _
    | (extract_lets +onlyGivenNames x; clear_value (hx : x = _); first | refine Keeps.bind (s := s0) hx ?_ (fun _ => ?_) | (refine Keeps.isFaults x ?_; subst hx) | skip)
    | apply State.warmReset_keeps | apply KeepsR.next | exact KeepsR.fault | exact KeepsR.refused | apply KeepsR.onUnit | apply KeepsR.ite
    | apply Keeps.ite | apply Keeps.foldl | (simp only [Keeps.mk_iff]; apply Keeps.parts) | split | dsimp only

theorem execRailFault_keeps {s0 : State} (r : Nat) {s : State} (hs : Keeps s0 s) :
    KeepsR s0 (execRailFault r s) := by
  unfold execRailFault
  repeat' with_reducible first
    | assumption | intro _
    | (extract_lets +onlyGivenNames x; clear_value (hx : x = _); first | refine Keeps.bind (s := s0) hx ?_ (fun _ => ?_) | (refine Keeps.isFaults x ?_; subst hx) | skip)
    | apply onUnit_keeps | apply KeepsR.next | exact KeepsR.fault | exact KeepsR.refused | apply KeepsR.onUnit | apply KeepsR.ite | apply Keeps.ite
    | apply Keeps.foldl | (simp only [Keeps.mk_iff]; apply Keeps.parts) | split | dsimp only

theorem execPwrGoodRise_keeps {s0 : State} (nodeId : Nat) (bootSel : Nat) {s : State} (hs : Keeps s0 s) :
    KeepsR s0 (execPwrGoodRise nodeId bootSel s) := by
  unfold execPwrGoodRise
  repeat' with_reducible first
    | assumption | intro _
    | (extract_lets +onlyGivenNames x; clear_value (hx : x = _); first | refine Keeps.bind (s := s0) hx ?_ (fun _ => ?_) | (refine Keeps.isFaults x ?_; subst hx) | skip)
    | apply State.coldState_keeps | apply KeepsR.next | exact KeepsR.fault | exact KeepsR.refused | apply KeepsR.onUnit | apply KeepsR.ite
    | apply Keeps.ite | apply Keeps.foldl | (simp only [Keeps.mk_iff]; apply Keeps.parts) | split | dsimp only

theorem State.journalCut_keeps {s0 : State} {s : State} (n : Nat) (hs : Keeps s0 s) :
    Keeps s0 (State.journalCut s n) := by
  unfold State.journalCut
  repeat' with_reducible first
    | assumption | intro _
    | (extract_lets +onlyGivenNames x; clear_value (hx : x = _); first | refine Keeps.bind (s := s0) hx ?_ (fun _ => ?_) | refine Keeps.bindFst (s := s0) hx ?_ (fun _ => ?_) | (refine Keeps.isFaults x ?_; subst hx) | skip)
    | apply State.putBatch_keeps | apply State.switchRegion_keeps | apply Keeps.ite | apply Keeps.foldl | (simp only [Keeps.mk_iff]; apply Keeps.parts)
    | apply Keeps.iteFst | apply Keeps.iteSnd | refine Keeps.fstEq (by assumption) ?_ | split | dsimp only

theorem execPowerLoss_keeps {s0 : State} (n : Nat) {s : State} (hs : Keeps s0 s) :
    KeepsR s0 (execPowerLoss n s) := by
  unfold execPowerLoss
  repeat' with_reducible first
    | assumption | intro _
    | (extract_lets +onlyGivenNames x; clear_value (hx : x = _); first | refine Keeps.bind (s := s0) hx ?_ (fun _ => ?_) | (refine Keeps.isFaults x ?_; subst hx) | skip)
    | apply State.journalCut_keeps | apply State.setReg_keeps | apply State.coldState_keeps | apply KeepsR.next | exact KeepsR.fault
    | exact KeepsR.refused | apply KeepsR.onUnit | apply KeepsR.ite | apply Keeps.ite | apply Keeps.foldl | (simp only [Keeps.mk_iff]; apply Keeps.parts)
    | split | dsimp only

theorem execBootStepComplete_keeps {s0 : State} {s : State} (hs : Keeps s0 s) :
    KeepsR s0 (execBootStepComplete s) := by
  unfold execBootStepComplete
  repeat' with_reducible first
    | assumption | intro _
    | (extract_lets +onlyGivenNames x; clear_value (hx : x = _); first | refine Keeps.bind (s := s0) hx ?_ (fun _ => ?_) | (refine Keeps.isFaults x ?_; subst hx) | skip)
    | apply State.bootStep_keeps | apply KeepsR.next | exact KeepsR.fault | exact KeepsR.refused | apply KeepsR.onUnit | apply KeepsR.ite
    | apply Keeps.ite | apply Keeps.foldl | (simp only [Keeps.mk_iff]; apply Keeps.parts) | split | dsimp only

theorem execPwrGoodFall_keeps {s0 : State} (n : Nat) {s : State} (hs : Keeps s0 s) :
    KeepsR s0 (execPwrGoodFall n s) := by
  unfold execPwrGoodFall
  repeat' with_reducible first
    | assumption | intro _
    | (extract_lets +onlyGivenNames x; clear_value (hx : x = _); first | refine Keeps.bind (s := s0) hx ?_ (fun _ => ?_) | (refine Keeps.isFaults x ?_; subst hx) | skip)
    | apply State.journalCut_keeps | apply State.coldState_keeps | apply KeepsR.next | exact KeepsR.fault | exact KeepsR.refused | apply KeepsR.onUnit
    | apply KeepsR.ite | apply Keeps.ite | apply Keeps.foldl | (simp only [Keeps.mk_iff]; apply Keeps.parts)
    | (simp only [Keeps.mk_iff]; refine Keeps.mixBeat ?_ ‹Keeps s0 s›) | split | dsimp only

theorem execTck_keeps {s0 : State} (tms : Bool) (tdi : Bool) (trstN : Bool) {s : State} (hs : Keeps s0 s) :
    KeepsR s0 (execTck tms tdi trstN s) := by
  unfold execTck
  repeat' with_reducible first
    | assumption | intro _
    | (extract_lets +onlyGivenNames x; clear_value (hx : x = _); first | refine Keeps.bind (s := s0) hx ?_ (fun _ => ?_) | (refine Keeps.isFaults x ?_; subst hx) | skip)
    | apply State.tapAct_keeps | apply KeepsR.next | exact KeepsR.fault | exact KeepsR.refused | apply KeepsR.onUnit | apply KeepsR.ite | apply Keeps.ite
    | apply Keeps.foldl | (simp only [Keeps.mk_iff]; apply Keeps.parts) | split | dsimp only

theorem execBootTimeout_keeps {s0 : State} {s : State} (hs : Keeps s0 s) :
    KeepsR s0 (execBootTimeout s) := by
  unfold execBootTimeout
  repeat' with_reducible first
    | assumption | intro _
    | (extract_lets +onlyGivenNames x; clear_value (hx : x = _); first | refine Keeps.bind (s := s0) hx ?_ (fun _ => ?_) | (refine Keeps.isFaults x ?_; subst hx) | skip)
    | apply State.coldState_keeps | apply State.fwEvent_keeps | apply KeepsR.next | exact KeepsR.fault | exact KeepsR.refused | apply KeepsR.onUnit
    | apply KeepsR.ite | apply Keeps.ite | apply Keeps.foldl | (simp only [Keeps.mk_iff]; apply Keeps.parts)
    | (simp only [Keeps.mk_iff]; refine Keeps.mixBeat ?_ ‹Keeps s0 s›) | split | dsimp only

end Sys2Proof.Machine
end

