-- ==== Sys2Proof/Laws/KeepsTileEngine.lean ====
section
/-!
SUPPORT. The operations of Machine/TileEngine.lean leave the queue alone and keep the invariant (Laws/Keeps.lean).
-/

set_option linter.all false

namespace Sys2Proof.Machine

theorem State.withDesc_keeps {s0 : State} {s : State} (q : Nat) (i : Nat) (op : Nat) (bad : Flight → List Byte → Option Nat) (k : State → Flight → List Byte → State) (hs : Keeps s0 s) (hk : ∀ y0 y1 y2, Keeps s0 y0 → Keeps s0 (k y0 y1 y2)) :
    KeepsR s0 (State.withDesc s q i op bad k) := by
  unfold State.withDesc
  repeat' with_reducible first
    | assumption | intro _
    | (extract_lets +onlyGivenNames x; clear_value (hx : x = _); first | refine Keeps.bind (s := s0) hx ?_ (fun _ => ?_) | (refine Keeps.isFaults x ?_; subst hx) | skip)
    | apply State.dispatch_keeps | apply State.endFlight_keeps | apply hk | apply KeepsR.next | exact KeepsR.fault | exact KeepsR.refused
    | apply KeepsR.onUnit | apply KeepsR.ite | apply Keeps.ite | apply Keeps.foldl | (simp only [Keeps.mk_iff]; apply Keeps.parts) | split | dsimp only

theorem execRampHoldExpiry_keeps {s0 : State} (c : Nat) {s : State} (hs : Keeps s0 s) :
    KeepsR s0 (execRampHoldExpiry c s) := by
  unfold execRampHoldExpiry
  repeat' with_reducible first
    | assumption | intro _ | apply State.countCycles_keeps | apply State.setFld_keeps | apply onUnit_keeps | apply KeepsR.next | exact KeepsR.fault
    | exact KeepsR.refused | apply KeepsR.onUnit | apply KeepsR.ite | apply Keeps.ite | apply Keeps.foldl | (simp only [Keeps.mk_iff]; apply Keeps.parts)
    | split | dsimp only

theorem State.countSelected_keeps {s0 : State} {s : State} (k : Nat) (n : Nat) (hs : Keeps s0 s) :
    Keeps s0 (State.countSelected s k n) := by
  unfold State.countSelected
  repeat' with_reducible first
    | assumption | intro _ | apply State.setReg_keeps | apply Keeps.ite | apply Keeps.foldl | (simp only [Keeps.mk_iff]; apply Keeps.parts) | split
    | dsimp only

theorem State.streamed_keeps {s0 : State} {s : State} (core : Nat) (n : Nat) (hs : Keeps s0 s) :
    Keeps s0 (State.streamed s core n) := by
  unfold State.streamed
  repeat' with_reducible first
    | assumption | intro _
    | (extract_lets +onlyGivenNames x; clear_value (hx : x = _); first | refine Keeps.bind (s := s0) hx ?_ (fun _ => ?_) | (refine Keeps.isFaults x ?_; subst hx) | skip)
    | apply State.modCore_keeps | apply State.modSlot_keeps | apply State.countSelected_keeps | apply Keeps.ite | apply Keeps.foldl
    | (simp only [Keeps.mk_iff]; apply Keeps.parts) | split | dsimp only

theorem State.plsRecord_keeps {s0 : State} {s : State} (fl : Flight) (rf : Option RangeFail) (sf : Option Nat) (hs : Keeps s0 s) :
    Keeps s0 (State.plsRecord s fl rf sf).1 := by
  unfold State.plsRecord
  repeat' with_reducible first
    | assumption | intro _
    | (extract_lets +onlyGivenNames x; clear_value (hx : x = _); first | refine Keeps.bind (s := s0) hx ?_ (fun _ => ?_) | refine Keeps.bindFst (s := s0) hx ?_ (fun _ => ?_) | (refine Keeps.isFaults x ?_; subst hx) | skip)
    | apply State.plsFail_keeps | apply State.modSlot_keeps | apply State.countSelected_keeps | apply Keeps.ite | apply Keeps.foldl
    | (simp only [Keeps.mk_iff]; apply Keeps.parts) | apply Keeps.iteFst | apply Keeps.iteSnd | refine Keeps.fstEq (by assumption) ?_ | split | dsimp only

theorem JobResult.withPls_keeps {s0 : State} {r : JobResult} (fl : Flight) (pls : Option (Nat × Option RangeFail × Option Nat)) (hr : Keeps s0 r.st) :
    Keeps s0 (JobResult.withPls r fl pls).st := by
  unfold JobResult.withPls
  repeat' with_reducible first
    | assumption | intro _ | apply State.draw_keeps | apply State.voidBlocks_keeps | apply State.plsRecord_keeps | apply Keeps.ite | apply Keeps.foldl
    | (simp only [Keeps.mk_iff]; apply Keeps.parts) | apply Keeps.iteFst | apply Keeps.iteSnd | apply Keeps.iteJob | apply Keeps.foldlJob
    | refine Keeps.fstEq (by assumption) ?_ | refine Keeps.sndEq (by assumption) ?_ | split | dsimp only

theorem State.arrayActivity_keeps {s0 : State} {s : State} (core : Nat) (shape : Nat) (mode : Nat) (hs : Keeps s0 s) :
    Keeps s0 (State.arrayActivity s core shape mode) := by
  unfold State.arrayActivity
  repeat' with_reducible first
    | assumption | intro _
    | (extract_lets +onlyGivenNames x; clear_value (hx : x = _); first | refine Keeps.bind (s := s0) hx ?_ (fun _ => ?_) | (refine Keeps.isFaults x ?_; subst hx) | skip)
    | apply State.countCycles_keeps | apply State.setFld_keeps | apply State.count_keeps | apply Keeps.ite | apply Keeps.foldl
    | (simp only [Keeps.mk_iff]; apply Keeps.parts) | split | dsimp only

theorem State.countN_keeps {s0 : State} {s : State} (k : Nat) (n : Nat) (hs : Keeps s0 s) :
    Keeps s0 (State.countN s k n) := by
  unfold State.countN
  repeat' with_reducible first
    | assumption | intro _ | apply State.count_keeps | apply Keeps.ite | apply Keeps.foldl | (simp only [Keeps.mk_iff]; apply Keeps.parts) | split
    | dsimp only

theorem State.matCounters_keeps {s0 : State} {s : State} (core : Nat) (r : MatRun) (done : Nat) (hs : Keeps s0 s) :
    Keeps s0 (State.matCounters s core r done) := by
  unfold State.matCounters
  repeat' with_reducible first
    | assumption | intro _
    | (extract_lets +onlyGivenNames x; clear_value (hx : x = _); first | refine Keeps.bind (s := s0) hx ?_ (fun _ => ?_) | (refine Keeps.isFaults x ?_; subst hx) | skip)
    | apply State.countCycles_keeps | apply State.countN_keeps | apply State.streamed_keeps | apply Keeps.ite | apply Keeps.foldl
    | (simp only [Keeps.mk_iff]; apply Keeps.parts) | split | dsimp only

theorem State.runMat_keeps {s0 : State} {s : State} (q : Nat) (i : Nat) (stop : Option Nat) (fl : Flight) (d : List Byte) (hs : Keeps s0 s) :
    Keeps s0 (State.runMat s q i stop fl d) := by
  unfold State.runMat
  repeat' with_reducible first
    | assumption | intro _
    | (extract_lets +onlyGivenNames x; clear_value (hx : x = _); first | refine Keeps.bind (s := s0) hx ?_ (fun _ => ?_) | refine Keeps.bindJob (s := s0) hx ?_ (fun _ => ?_) | refine Keeps.bindRes (s := s0) hx ?_ (fun _ => ?_) | (refine Keeps.isFaults x ?_; subst hx) | skip)
    | apply JobResult.withPls_keeps | apply State.modCore_keeps | apply State.arrayActivity_keeps | apply State.runJob_keeps
    | apply JobResult.finish_keeps | apply State.matCounters_keeps | apply Keeps.ite | apply Keeps.foldl | (simp only [Keeps.mk_iff]; apply Keeps.parts)
    | apply Keeps.iteJob | apply Keeps.foldlJob | split | dsimp only

theorem State.matCommand_keeps {s0 : State} {s : State} (q : Nat) (i : Nat) (op : Nat) (stop : Option Nat) (hs : Keeps s0 s) :
    KeepsR s0 (State.matCommand s q i op stop) := by
  unfold State.matCommand
  repeat' with_reducible first
    | assumption | intro _ | apply State.runMat_keeps | apply State.withDesc_keeps | apply KeepsR.next | exact KeepsR.fault | exact KeepsR.refused
    | apply KeepsR.onUnit | apply KeepsR.ite | apply Keeps.ite | apply Keeps.foldl | (simp only [Keeps.mk_iff]; apply Keeps.parts) | split | dsimp only

theorem execBwdW_keeps {s0 : State} (q : Nat) (i : Nat) (stop : Option Nat) {s : State} (hs : Keeps s0 s) :
    KeepsR s0 (execBwdW q i stop s) := by
  unfold execBwdW
  repeat' with_reducible first
    | assumption | intro _ | apply State.matCommand_keeps | apply KeepsR.next | exact KeepsR.fault | exact KeepsR.refused | apply KeepsR.onUnit
    | apply KeepsR.ite | apply Keeps.ite | apply Keeps.foldl | (simp only [Keeps.mk_iff]; apply Keeps.parts) | split | dsimp only

theorem execMatmul_keeps {s0 : State} (q : Nat) (i : Nat) (stop : Option Nat) {s : State} (hs : Keeps s0 s) :
    KeepsR s0 (execMatmul q i stop s) := by
  unfold execMatmul
  repeat' with_reducible first
    | assumption | intro _ | apply State.matCommand_keeps | apply KeepsR.next | exact KeepsR.fault | exact KeepsR.refused | apply KeepsR.onUnit
    | apply KeepsR.ite | apply Keeps.ite | apply Keeps.foldl | (simp only [Keeps.mk_iff]; apply Keeps.parts) | split | dsimp only

theorem execBwdIn_keeps {s0 : State} (q : Nat) (i : Nat) (stop : Option Nat) {s : State} (hs : Keeps s0 s) :
    KeepsR s0 (execBwdIn q i stop s) := by
  unfold execBwdIn
  repeat' with_reducible first
    | assumption | intro _ | apply State.matCommand_keeps | apply KeepsR.next | exact KeepsR.fault | exact KeepsR.refused | apply KeepsR.onUnit
    | apply KeepsR.ite | apply Keeps.ite | apply Keeps.foldl | (simp only [Keeps.mk_iff]; apply Keeps.parts) | split | dsimp only

theorem execMatmulAcc_keeps {s0 : State} (q : Nat) (i : Nat) (stop : Option Nat) {s : State} (hs : Keeps s0 s) :
    KeepsR s0 (execMatmulAcc q i stop s) := by
  unfold execMatmulAcc
  repeat' with_reducible first
    | assumption | intro _ | apply State.matCommand_keeps | apply KeepsR.next | exact KeepsR.fault | exact KeepsR.refused | apply KeepsR.onUnit
    | apply KeepsR.ite | apply Keeps.ite | apply Keeps.foldl | (simp only [Keeps.mk_iff]; apply Keeps.parts) | split | dsimp only

end Sys2Proof.Machine
end

