-- ==== Sys2Proof/Laws/KeepsConvert.lean ====
section
/-!
SUPPORT. The operations of Machine/Convert.lean leave the queue alone and keep the invariant (Laws/Keeps.lean).
-/

set_option linter.all false

namespace Sys2Proof.Machine

theorem State.convCounters_keeps {s0 : State} {s : State} (core : Nat) (t : ConvRun) (done : Nat) (ok : Bool) (hs : Keeps s0 s) :
    Keeps s0 (State.convCounters s core t done ok) := by
  unfold State.convCounters
  repeat' with_reducible first
    | assumption | intro _
    | (extract_lets +onlyGivenNames x; clear_value (hx : x = _); first | refine Keeps.bind (s := s0) hx ?_ (fun _ => ?_) | (refine Keeps.isFaults x ?_; subst hx) | skip)
    | apply State.countN_keeps | apply Keeps.ite | apply Keeps.foldl | (simp only [Keeps.mk_iff]; apply Keeps.parts) | split | dsimp only

theorem State.runConv_keeps {s0 : State} {s : State} (q : Nat) (i : Nat) (stop : Option Nat) (fl : Flight) (d : List Byte) (hs : Keeps s0 s) :
    Keeps s0 (State.runConv s q i stop fl d) := by
  unfold State.runConv
  repeat' with_reducible first
    | assumption | intro _
    | (extract_lets +onlyGivenNames x; clear_value (hx : x = _); first | refine Keeps.bind (s := s0) hx ?_ (fun _ => ?_) | refine Keeps.bindSnd (s := s0) hx ?_ (fun _ => ?_) | refine Keeps.bindJob (s := s0) hx ?_ (fun _ => ?_) | refine Keeps.bindRes (s := s0) hx ?_ (fun _ => ?_) | (refine Keeps.isFaults x ?_; subst hx) | skip)
    | apply State.drawWords_keeps | apply State.runJob_keeps | apply State.count_keeps | apply JobResult.finish_keeps | apply State.convCounters_keeps
    | apply Keeps.ite | apply Keeps.foldl | (simp only [Keeps.mk_iff]; apply Keeps.parts) | apply Keeps.iteFst | apply Keeps.iteSnd | apply Keeps.iteJob
    | apply Keeps.foldlJob | refine Keeps.sndEq (by assumption) ?_ | split | dsimp only

theorem State.convCommand_keeps {s0 : State} {s : State} (q : Nat) (i : Nat) (op : Nat) (stop : Option Nat) (hs : Keeps s0 s) :
    KeepsR s0 (State.convCommand s q i op stop) := by
  unfold State.convCommand
  repeat' with_reducible first
    | assumption | intro _ | apply State.runConv_keeps | apply State.drawing_keeps | apply State.withDesc_keeps | apply KeepsR.next | exact KeepsR.fault
    | exact KeepsR.refused | apply KeepsR.onUnit | apply KeepsR.ite | apply Keeps.ite | apply Keeps.foldl | (simp only [Keeps.mk_iff]; apply Keeps.parts)
    | split | dsimp only

theorem execRotate_keeps {s0 : State} (q : Nat) (i : Nat) (stop : Option Nat) {s : State} (hs : Keeps s0 s) :
    KeepsR s0 (execRotate q i stop s) := by
  unfold execRotate
  repeat' with_reducible first
    | assumption | intro _ | apply State.convCommand_keeps | apply KeepsR.next | exact KeepsR.fault | exact KeepsR.refused | apply KeepsR.onUnit
    | apply KeepsR.ite | apply Keeps.ite | apply Keeps.foldl | (simp only [Keeps.mk_iff]; apply Keeps.parts) | split | dsimp only

theorem execStats_keeps {s0 : State} (q : Nat) (i : Nat) (stop : Option Nat) {s : State} (hs : Keeps s0 s) :
    KeepsR s0 (execStats q i stop s) := by
  unfold execStats
  repeat' with_reducible first
    | assumption | intro _ | apply State.convCommand_keeps | apply KeepsR.next | exact KeepsR.fault | exact KeepsR.refused | apply KeepsR.onUnit
    | apply KeepsR.ite | apply Keeps.ite | apply Keeps.foldl | (simp only [Keeps.mk_iff]; apply Keeps.parts) | split | dsimp only

theorem State.runBook_keeps {s0 : State} {s : State} (q : Nat) (i : Nat) (fl : Flight) (hs : Keeps s0 s) :
    Keeps s0 (State.runBook s q i fl) := by
  unfold State.runBook
  repeat' with_reducible first
    | assumption | intro _
    | (extract_lets +onlyGivenNames x; clear_value (hx : x = _); first | refine Keeps.bind (s := s0) hx ?_ (fun _ => ?_) | refine Keeps.bindSnd (s := s0) hx ?_ (fun _ => ?_) | refine Keeps.bindJob (s := s0) hx ?_ (fun _ => ?_) | refine Keeps.bindRes (s := s0) hx ?_ (fun _ => ?_) | (refine Keeps.isFaults x ?_; subst hx) | skip)
    | apply State.drawWords_keeps | apply State.runJob_keeps | apply JobResult.finish_keeps | apply Keeps.ite | apply Keeps.foldl
    | (simp only [Keeps.mk_iff]; apply Keeps.parts) | apply Keeps.iteFst | apply Keeps.iteSnd | apply Keeps.iteJob | apply Keeps.foldlJob
    | refine Keeps.sndEq (by assumption) ?_ | split | dsimp only

theorem execCodebookUpd_keeps {s0 : State} (q : Nat) (i : Nat) {s : State} (hs : Keeps s0 s) :
    KeepsR s0 (execCodebookUpd q i s) := by
  unfold execCodebookUpd
  repeat' with_reducible first
    | assumption | intro _ | apply State.runBook_keeps | apply State.dispatch_keeps | apply State.drawing_keeps | apply KeepsR.next | exact KeepsR.fault
    | exact KeepsR.refused | apply KeepsR.onUnit | apply KeepsR.ite | apply Keeps.ite | apply Keeps.foldl | (simp only [Keeps.mk_iff]; apply Keeps.parts)
    | split | dsimp only

theorem execConvert_keeps {s0 : State} (q : Nat) (i : Nat) (stop : Option Nat) {s : State} (hs : Keeps s0 s) :
    KeepsR s0 (execConvert q i stop s) := by
  unfold execConvert
  repeat' with_reducible first
    | assumption | intro _ | apply State.convCommand_keeps | apply KeepsR.next | exact KeepsR.fault | exact KeepsR.refused | apply KeepsR.onUnit
    | apply KeepsR.ite | apply Keeps.ite | apply Keeps.foldl | (simp only [Keeps.mk_iff]; apply Keeps.parts) | split | dsimp only

end Sys2Proof.Machine
end

