-- ==== Sys2Proof/Laws/KeepsAttention.lean ====
section
/-!
SUPPORT. The operations of Machine/Attention.lean leave the queue alone and keep the invariant (Laws/Keeps.lean).
-/

set_option linter.all false

namespace Sys2Proof.Machine

theorem State.runAttn_keeps {s0 : State} {s : State} (q : Nat) (i : Nat) (stop : Option Nat) (fl : Flight) (d : List Byte) (hs : Keeps s0 s) :
    Keeps s0 (State.runAttn s q i stop fl d) := by
  unfold State.runAttn
  repeat' with_reducible first
    | assumption | intro _
    | (extract_lets +onlyGivenNames x; clear_value (hx : x = _); first | refine Keeps.bind (s := s0) hx ?_ (fun _ => ?_) | refine Keeps.bindSnd (s := s0) hx ?_ (fun _ => ?_) | refine Keeps.bindJob (s := s0) hx ?_ (fun _ => ?_) | refine Keeps.bindRes (s := s0) hx ?_ (fun _ => ?_) | (refine Keeps.isFaults x ?_; subst hx) | skip)
    | apply JobResult.withPls_keeps | apply State.draw_keeps | apply State.countCycles_keeps | apply State.drawWords_keeps | apply State.modCore_keeps
    | apply State.countN_keeps | apply State.arrayActivity_keeps | apply State.runJob_keeps | apply JobResult.finish_keeps | apply State.streamed_keeps
    | apply Keeps.ite | apply Keeps.foldl | (simp only [Keeps.mk_iff]; apply Keeps.parts) | apply Keeps.iteFst | apply Keeps.iteSnd | apply Keeps.iteJob
    | apply Keeps.foldlJob | refine Keeps.sndEq (by assumption) ?_ | split | dsimp only

theorem execAttnFwd_keeps {s0 : State} (q : Nat) (i : Nat) (stop : Option Nat) {s : State} (hs : Keeps s0 s) :
    KeepsR s0 (execAttnFwd q i stop s) := by
  unfold execAttnFwd
  repeat' with_reducible first
    | assumption | intro _ | apply State.runAttn_keeps | apply State.withDesc_keeps | apply KeepsR.next | exact KeepsR.fault | exact KeepsR.refused
    | apply KeepsR.onUnit | apply KeepsR.ite | apply Keeps.ite | apply Keeps.foldl | (simp only [Keeps.mk_iff]; apply Keeps.parts) | split | dsimp only

theorem execAttnBwd_keeps {s0 : State} (q : Nat) (i : Nat) (stop : Option Nat) {s : State} (hs : Keeps s0 s) :
    KeepsR s0 (execAttnBwd q i stop s) := by
  unfold execAttnBwd
  repeat' with_reducible first
    | assumption | intro _ | apply State.drawing_keeps | apply State.runAttn_keeps | apply State.withDesc_keeps | apply KeepsR.next | exact KeepsR.fault
    | exact KeepsR.refused | apply KeepsR.onUnit | apply KeepsR.ite | apply Keeps.ite | apply Keeps.foldl | (simp only [Keeps.mk_iff]; apply Keeps.parts)
    | split | dsimp only

end Sys2Proof.Machine
end

