-- ==== Sys2Proof/Laws/KeepsTrain.lean ====
section
/-!
SUPPORT. The operations of Machine/Train.lean leave the queue alone and keep the invariant (Laws/Keeps.lean).
-/

set_option linter.all false

namespace Sys2Proof.Machine

theorem State.runCompress_keeps {s0 : State} {t : State} (q : Nat) (i : Nat) (stop : Option Nat) (fl : Flight) (ht : Keeps s0 t) :
    Keeps s0 (State.runCompress t q i stop fl) := by
  unfold State.runCompress
  repeat' with_reducible first
    | assumption | intro _
    | (extract_lets +onlyGivenNames x; clear_value (hx : x = _); first | refine Keeps.bind (s := s0) hx ?_ (fun _ => ?_) | refine Keeps.bindJob (s := s0) hx ?_ (fun _ => ?_) | refine Keeps.bindRes (s := s0) hx ?_ (fun _ => ?_) | (refine Keeps.isFaults x ?_; subst hx) | skip)
    | apply State.runJob_keeps | apply JobResult.finish_keeps | apply Keeps.ite | apply Keeps.foldl | (simp only [Keeps.mk_iff]; apply Keeps.parts)
    | apply Keeps.iteJob | apply Keeps.foldlJob | split | dsimp only

theorem execCompress_keeps {s0 : State} (q : Nat) (i : Nat) (stop : Option Nat) {s : State} (hs : Keeps s0 s) :
    KeepsR s0 (execCompress q i stop s) := by
  unfold execCompress
  repeat' with_reducible first
    | assumption | intro _ | apply State.dispatch_keeps | apply State.runCompress_keeps | apply KeepsR.next | exact KeepsR.fault | exact KeepsR.refused
    | apply KeepsR.onUnit | apply KeepsR.ite | apply Keeps.ite | apply Keeps.foldl | (simp only [Keeps.mk_iff]; apply Keeps.parts) | split | dsimp only

theorem State.runOpt_keeps {s0 : State} {s : State} (q : Nat) (i : Nat) (stop : Option Nat) (fl : Flight) (d : List Byte) (hs : Keeps s0 s) :
    Keeps s0 (State.runOpt s q i stop fl d) := by
  unfold State.runOpt
  repeat' with_reducible first
    | assumption | intro _
    | (extract_lets +onlyGivenNames x; clear_value (hx : x = _); first | refine Keeps.bind (s := s0) hx ?_ (fun _ => ?_) | refine Keeps.bindSnd (s := s0) hx ?_ (fun _ => ?_) | refine Keeps.bindJob (s := s0) hx ?_ (fun _ => ?_) | refine Keeps.bindRes (s := s0) hx ?_ (fun _ => ?_) | (refine Keeps.isFaults x ?_; subst hx) | skip)
    | apply State.drawWords_keeps | apply State.runJob_keeps | apply JobResult.finish_keeps | apply Keeps.ite | apply Keeps.foldl
    | (simp only [Keeps.mk_iff]; apply Keeps.parts) | apply Keeps.iteFst | apply Keeps.iteSnd | apply Keeps.iteJob | apply Keeps.foldlJob
    | refine Keeps.sndEq (by assumption) ?_ | split | dsimp only

theorem JobResult.withBad_keeps {s0 : State} {r : JobResult} (bad : Option (Nat × Nat)) (hr : Keeps s0 r.st) :
    Keeps s0 (JobResult.withBad r bad).st := by
  unfold JobResult.withBad
  repeat' with_reducible first
    | assumption | intro _ | apply State.draw_keeps | apply State.voidBlocks_keeps | apply Keeps.ite | apply Keeps.foldl
    | (simp only [Keeps.mk_iff]; apply Keeps.parts) | apply Keeps.iteFst | apply Keeps.iteSnd | apply Keeps.iteJob | apply Keeps.foldlJob
    | refine Keeps.sndEq (by assumption) ?_ | split | dsimp only

theorem State.runDecompress_keeps {s0 : State} {t : State} (q : Nat) (i : Nat) (stop : Option Nat) (fl : Flight) (ht : Keeps s0 t) :
    Keeps s0 (State.runDecompress t q i stop fl) := by
  unfold State.runDecompress
  repeat' with_reducible first
    | assumption | intro _
    | (extract_lets +onlyGivenNames x; clear_value (hx : x = _); first | refine Keeps.bind (s := s0) hx ?_ (fun _ => ?_) | refine Keeps.bindSnd (s := s0) hx ?_ (fun _ => ?_) | refine Keeps.bindJob (s := s0) hx ?_ (fun _ => ?_) | refine Keeps.bindRes (s := s0) hx ?_ (fun _ => ?_) | (refine Keeps.isFaults x ?_; subst hx) | skip)
    | apply JobResult.withBad_keeps | apply State.draw_keeps | apply State.runJob_keeps | apply JobResult.finish_keeps | apply Keeps.ite
    | apply Keeps.foldl | (simp only [Keeps.mk_iff]; apply Keeps.parts) | apply Keeps.iteFst | apply Keeps.iteSnd | apply Keeps.iteJob
    | apply Keeps.foldlJob | refine Keeps.sndEq (by assumption) ?_ | split | dsimp only

theorem execDecompress_keeps {s0 : State} (q : Nat) (i : Nat) (stop : Option Nat) {s : State} (hs : Keeps s0 s) :
    KeepsR s0 (execDecompress q i stop s) := by
  unfold execDecompress
  repeat' with_reducible first
    | assumption | intro _ | apply State.dispatch_keeps | apply State.runDecompress_keeps | apply KeepsR.next | exact KeepsR.fault | exact KeepsR.refused
    | apply KeepsR.onUnit | apply KeepsR.ite | apply Keeps.ite | apply Keeps.foldl | (simp only [Keeps.mk_iff]; apply Keeps.parts) | split | dsimp only

theorem execOptStep_keeps {s0 : State} (q : Nat) (i : Nat) (stop : Option Nat) {s : State} (hs : Keeps s0 s) :
    KeepsR s0 (execOptStep q i stop s) := by
  unfold execOptStep
  repeat' with_reducible first
    | assumption | intro _ | apply State.runOpt_keeps | apply State.drawing_keeps | apply State.withDesc_keeps | apply KeepsR.next | exact KeepsR.fault
    | exact KeepsR.refused | apply KeepsR.onUnit | apply KeepsR.ite | apply Keeps.ite | apply Keeps.foldl | (simp only [Keeps.mk_iff]; apply Keeps.parts)
    | split | dsimp only

end Sys2Proof.Machine
end

