-- ==== Sys2Proof/Laws/KeepsHostBus.lean ====
section
/-!
SUPPORT. The operations of Machine/HostBus.lean leave the queue alone and keep the invariant (Laws/Keeps.lean).
-/

set_option linter.all false

namespace Sys2Proof.Machine

theorem State.writeContext_keeps {s0 : State} {s : State} (f : Nat) (w : Nat) (val : Nat) (mask : Nat) (hs : Keeps s0 s) :
    Keeps s0 (State.writeContext s f w val mask) := by
  unfold State.writeContext
  repeat' with_reducible first
    | assumption | intro _
    | (extract_lets +onlyGivenNames x; clear_value (hx : x = _); first | refine Keeps.bind (s := s0) hx ?_ (fun _ => ?_) | (refine Keeps.isFaults x ?_; subst hx) | skip)
    | apply State.setQueue_keeps | apply Keeps.ite | apply Keeps.foldl | (simp only [Keeps.mk_iff]; apply Keeps.parts) | split | dsimp only

theorem State.plainReg_keeps {s0 : State} {s : State} (k : Nat) (val : Nat) (mask : Nat) (hs : Keeps s0 s) :
    Keeps s0 (State.plainReg s k val mask) := by
  unfold State.plainReg
  repeat' with_reducible first
    | assumption | intro _ | apply State.setReg_keeps | apply Keeps.ite | apply Keeps.foldl | (simp only [Keeps.mk_iff]; apply Keeps.parts) | split
    | dsimp only

theorem State.writeOwn_keeps {s0 : State} {s : State} (f : Nat) (o : Nat) (val : Nat) (mask : Nat) (hs : Keeps s0 s) :
    Keeps s0 (State.writeOwn s f o val mask) := by
  unfold State.writeOwn
  repeat' with_reducible first
    | assumption | intro _
    | (extract_lets +onlyGivenNames x; clear_value (hx : x = _); first | refine Keeps.bind (s := s0) hx ?_ (fun _ => ?_) | (refine Keeps.isFaults x ?_; subst hx) | skip)
    | apply State.setMsix_keeps | apply State.plainReg_keeps | apply Keeps.ite | apply Keeps.foldl | (simp only [Keeps.mk_iff]; apply Keeps.parts) | split
    | dsimp only

theorem State.writeQueueBlock_keeps {s0 : State} {s : State} (f : Nat) (o : Nat) (val : Nat) (mask : Nat) (hs : Keeps s0 s) :
    Keeps s0 (State.writeQueueBlock s f o val mask) := by
  unfold State.writeQueueBlock
  repeat' with_reducible first
    | assumption | intro _ | apply State.plainReg_keeps | apply State.dlqFullBit_keeps | apply State.qcmdErr_keeps | apply State.writeContext_keeps
    | apply Keeps.ite | apply Keeps.foldl | (simp only [Keeps.mk_iff]; apply Keeps.parts) | split | dsimp only

theorem State.writeWindow_keeps {s0 : State} {s : State} (k : Nat) (o : Nat) (val : Nat) (mask : Nat) (hs : Keeps s0 s) :
    Keeps s0 (State.writeWindow s k o val mask) := by
  unfold State.writeWindow
  repeat' with_reducible first
    | assumption | intro _
    | (extract_lets +onlyGivenNames x; clear_value (hx : x = _); first | refine Keeps.bind (s := s0) hx ?_ (fun _ => ?_) | (refine Keeps.isFaults x ?_; subst hx) | skip)
    | apply State.plainReg_keeps | apply State.modSlot_keeps | apply State.applyPfBuf_keeps | apply Keeps.ite | apply Keeps.foldl
    | (simp only [Keeps.mk_iff]; apply Keeps.parts) | split | dsimp only

theorem State.writeKey_keeps {s0 : State} {s : State} (k : Nat) (val : Nat) (mask : Nat) (hs : Keeps s0 s) :
    Keeps s0 (State.writeKey s k val mask) := by
  unfold State.writeKey
  repeat' with_reducible first
    | assumption | intro _
    | (extract_lets +onlyGivenNames x; clear_value (hx : x = _); first | refine Keeps.bind (s := s0) hx ?_ (fun _ => ?_) | (refine Keeps.isFaults x ?_; subst hx) | skip)
    | apply State.plainReg_keeps | apply State.setFld_keeps | apply State.writeOwn_keeps | apply State.writeQueueBlock_keeps
    | apply State.writeWindow_keeps | apply Keeps.ite | apply Keeps.foldl | (simp only [Keeps.mk_iff]; apply Keeps.parts) | split | dsimp only

theorem execRegisterWrite_keeps {s0 : State} (f : Nat) (off : Nat) (n : Nat) (val : Nat) {s : State} (hs : Keeps s0 s) :
    KeepsR s0 (execRegisterWrite f off n val s) := by
  unfold execRegisterWrite
  repeat' with_reducible first
    | assumption | intro _ | apply State.writeKey_keeps | apply onUnit_keeps | apply State.count_keeps | apply KeepsR.next | exact KeepsR.fault
    | exact KeepsR.refused | apply KeepsR.onUnit | apply KeepsR.ite | apply Keeps.ite | apply Keeps.foldl | (simp only [Keeps.mk_iff]; apply Keeps.parts)
    | split | dsimp only

theorem execCounterLowRead_keeps {s0 : State} (f : Nat) (off : Nat) {s : State} (hs : Keeps s0 s) :
    KeepsR s0 (execCounterLowRead f off s) := by
  unfold execCounterLowRead
  repeat' with_reducible first
    | assumption | intro _ | apply onUnit_keeps | apply State.send_keeps | apply KeepsR.next | exact KeepsR.fault | exact KeepsR.refused
    | apply KeepsR.onUnit | apply KeepsR.ite | apply Keeps.ite | apply Keeps.foldl | (simp only [Keeps.mk_iff]; apply Keeps.parts) | split | dsimp only

end Sys2Proof.Machine
end

