-- ==== Sys2Proof/Laws/KeepsBoundary.lean ====
section
/-!
SUPPORT. The operations of Machine/Boundary.lean leave the queue alone and keep the invariant (Laws/Keeps.lean).
-/

set_option linter.all false

namespace Sys2Proof.Machine

theorem State.thermalCycle_keeps {s0 : State} {s : State} (hot : Int) (hs : Keeps s0 s) :
    Keeps s0 (State.thermalCycle s hot) := by
  unfold State.thermalCycle
  repeat' with_reducible first
    | assumption | intro _
    | (extract_lets +onlyGivenNames x; clear_value (hx : x = _); first | refine Keeps.bind (s := s0) hx ?_ (fun _ => ?_) | (refine Keeps.isFaults x ?_; subst hx) | skip)
    | apply State.setFld_keeps | apply Keeps.ite | apply Keeps.foldl | (simp only [Keeps.mk_iff]; apply Keeps.parts) | split | dsimp only

theorem State.throttleBeat_keeps {s0 : State} {s : State} (hs : Keeps s0 s) :
    Keeps s0 (State.throttleBeat s) := by
  unfold State.throttleBeat
  repeat' with_reducible first
    | assumption | intro _ | apply State.count_keeps | apply Keeps.ite | apply Keeps.foldl | (simp only [Keeps.mk_iff]; apply Keeps.parts) | split
    | dsimp only

theorem State.railMillisecond_keeps {s0 : State} {s : State} (hs : Keeps s0 s) :
    Keeps s0 (State.railMillisecond s) := by
  unfold State.railMillisecond
  repeat' with_reducible first
    | assumption | intro _
    | (extract_lets +onlyGivenNames x; clear_value (hx : x = _); first | refine Keeps.bind (s := s0) hx ?_ (fun _ => ?_) | (refine Keeps.isFaults x ?_; subst hx) | skip)
    | apply State.setFld_keeps | apply State.tally_keeps | apply Keeps.ite | apply Keeps.foldl | (simp only [Keeps.mk_iff]; apply Keeps.parts) | split
    | dsimp only

theorem State.readRail_keeps {s0 : State} {s : State} (r : Nat) (i : Nat) (v : Nat) (hs : Keeps s0 s) :
    Keeps s0 (State.readRail s r i v) := by
  unfold State.readRail
  repeat' with_reducible first
    | assumption | intro _
    | (extract_lets +onlyGivenNames x; clear_value (hx : x = _); first | refine Keeps.bind (s := s0) hx ?_ (fun _ => ?_) | (refine Keeps.isFaults x ?_; subst hx) | skip)
    | apply State.setFld_keeps | apply State.count_keeps | apply Keeps.ite | apply Keeps.foldl | (simp only [Keeps.mk_iff]; apply Keeps.parts) | split
    | dsimp only

theorem State.readRails_keeps {s0 : State} {s : State} (amps : List Nat) (volts : List Nat) (hs : Keeps s0 s) :
    Keeps s0 (State.readRails s amps volts) := by
  unfold State.readRails
  repeat' with_reducible first
    | assumption | intro _
    | (extract_lets +onlyGivenNames x; clear_value (hx : x = _); first | refine Keeps.bind (s := s0) hx ?_ (fun _ => ?_) | (refine Keeps.isFaults x ?_; subst hx) | skip)
    | apply State.railMillisecond_keeps | apply State.readRail_keeps | apply Keeps.ite | apply Keeps.foldl | (simp only [Keeps.mk_iff]; apply Keeps.parts)
    | split | dsimp only

theorem State.snapBuffer_keeps {s0 : State} {s : State} (hs : Keeps s0 s) :
    Keeps s0 (State.snapBuffer s) := by
  unfold State.snapBuffer
  repeat' with_reducible first
    | assumption | intro _
    | (extract_lets +onlyGivenNames x; clear_value (hx : x = _); first | refine Keeps.bind (s := s0) hx ?_ (fun _ => ?_) | (refine Keeps.isFaults x ?_; subst hx) | skip)
    | apply State.setReg_keeps | apply State.setFld_keeps | apply Keeps.ite | apply Keeps.foldl | (simp only [Keeps.mk_iff]; apply Keeps.parts) | split
    | dsimp only

theorem State.runClears_keeps {s0 : State} {s : State} (hs : Keeps s0 s) :
    Keeps s0 (State.runClears s) := by
  unfold State.runClears
  repeat' with_reducible first
    | assumption | intro _ | apply State.doClear_keeps | apply Keeps.ite | apply Keeps.foldl | (simp only [Keeps.mk_iff]; apply Keeps.parts) | split
    | dsimp only

theorem State.readSlack_keeps {s0 : State} {s : State} (m : Nat) (v : Int) (hs : Keeps s0 s) :
    Keeps s0 (State.readSlack s m v) := by
  unfold State.readSlack
  repeat' with_reducible first
    | assumption | intro _
    | (extract_lets +onlyGivenNames x; clear_value (hx : x = _); first | refine Keeps.bind (s := s0) hx ?_ (fun _ => ?_) | (refine Keeps.isFaults x ?_; subst hx) | skip)
    | apply State.setFld_keeps | apply State.event_keeps | apply Keeps.ite | apply Keeps.foldl | (simp only [Keeps.mk_iff]; apply Keeps.parts) | split
    | dsimp only

theorem State.readSlacks_keeps {s0 : State} {s : State} (l : List Int) (hs : Keeps s0 s) :
    Keeps s0 (State.readSlacks s l) := by
  unfold State.readSlacks
  repeat' with_reducible first
    | assumption | intro _ | apply State.readSlack_keeps | apply Keeps.ite | apply Keeps.foldl | (simp only [Keeps.mk_iff]; apply Keeps.parts) | split
    | dsimp only

theorem State.tickOver_keeps {s0 : State} {s : State} (hs : Keeps s0 s) :
    Keeps s0 (State.tickOver s) := by
  unfold State.tickOver
  have h : ∀ e, Keeps s0 { s with beat := (s.beat + 1) % 2 ^ 64, ps := 0, ticks := s.ticks + 1, tel := e } := fun _ =>
    Keeps.fields (hs.withBeat (Nat.mod_lt _ (by decide)) (by decide))
  exact Keeps.ite (State.setFld_keeps _ _ _ _ (h _)) (h _)

theorem State.flagBeat_keeps {s0 : State} {s : State} (hs : Keeps s0 s) :
    Keeps s0 (State.flagBeat s) := by
  unfold State.flagBeat
  repeat' with_reducible first
    | assumption | intro _
    | (extract_lets +onlyGivenNames x; clear_value (hx : x = _); first | refine Keeps.bind (s := s0) hx ?_ (fun _ => ?_) | (refine Keeps.isFaults x ?_; subst hx) | skip)
    | apply Keeps.ite | apply Keeps.foldl | (simp only [Keeps.mk_iff]; apply Keeps.parts) | split | dsimp only

theorem State.snapReports_keeps {s0 : State} {s : State} (hs : Keeps s0 s) :
    Keeps s0 (State.snapReports s) := by
  unfold State.snapReports
  repeat' with_reducible first
    | assumption | intro _
    | (extract_lets +onlyGivenNames x; clear_value (hx : x = _); first | refine Keeps.bind (s := s0) hx ?_ (fun _ => ?_) | (refine Keeps.isFaults x ?_; subst hx) | skip)
    | apply Keeps.ite | apply Keeps.foldl | (simp only [Keeps.mk_iff]; apply Keeps.parts) | split | dsimp only

theorem State.runMaxClr_keeps {s0 : State} {s : State} (hs : Keeps s0 s) :
    Keeps s0 (State.runMaxClr s) := by
  unfold State.runMaxClr
  repeat' with_reducible first
    | assumption | intro _
    | (extract_lets +onlyGivenNames x; clear_value (hx : x = _); first | refine Keeps.bind (s := s0) hx ?_ (fun _ => ?_) | (refine Keeps.isFaults x ?_; subst hx) | skip)
    | apply State.setFld_keeps | apply Keeps.ite | apply Keeps.foldl | (simp only [Keeps.mk_iff]; apply Keeps.parts) | split | dsimp only

theorem State.readTemp_keeps {s0 : State} {s : State} (i : Nat) (t : Int) (hs : Keeps s0 s) :
    Keeps s0 (State.readTemp s i t) := by
  unfold State.readTemp
  repeat' with_reducible first
    | assumption | intro _
    | (extract_lets +onlyGivenNames x; clear_value (hx : x = _); first | refine Keeps.bind (s := s0) hx ?_ (fun _ => ?_) | (refine Keeps.isFaults x ?_; subst hx) | skip)
    | apply State.setFld_keeps | apply Keeps.ite | apply Keeps.foldl | (simp only [Keeps.mk_iff]; apply Keeps.parts) | split | dsimp only

theorem State.testBeat_keeps {s0 : State} {s : State} (hs : Keeps s0 s) :
    Keeps s0 (State.testBeat s) := by
  unfold State.testBeat
  repeat' with_reducible first
    | assumption | intro _ | apply State.count_keeps | apply Keeps.ite | apply Keeps.foldl | (simp only [Keeps.mk_iff]; apply Keeps.parts) | split
    | dsimp only

theorem State.readGovernors_keeps {s0 : State} {s : State} (l : List Nat) (hs : Keeps s0 s) :
    Keeps s0 (State.readGovernors s l) := by
  unfold State.readGovernors
  repeat' with_reducible first
    | assumption | intro _ | apply State.count_keeps | apply Keeps.ite | apply Keeps.foldl | (simp only [Keeps.mk_iff]; apply Keeps.parts) | split
    | dsimp only

theorem State.runSelections_keeps {s0 : State} {s : State} (hs : Keeps s0 s) :
    Keeps s0 (State.runSelections s) := by
  unfold State.runSelections
  repeat' with_reducible first
    | assumption | intro _
    | (extract_lets +onlyGivenNames x; clear_value (hx : x = _); first | refine Keeps.bind (s := s0) hx ?_ (fun _ => ?_) | (refine Keeps.isFaults x ?_; subst hx) | skip)
    | apply State.zeroCtr_keeps | apply Keeps.ite | apply Keeps.foldl | (simp only [Keeps.mk_iff]; apply Keeps.parts) | split | dsimp only

theorem State.readTemps_keeps {s0 : State} {s : State} (l : List Int) (hs : Keeps s0 s) :
    Keeps s0 (State.readTemps s l) := by
  unfold State.readTemps
  repeat' with_reducible first
    | assumption | intro _ | apply State.readTemp_keeps | apply State.thermalCycle_keeps | apply Keeps.ite | apply Keeps.foldl
    | (simp only [Keeps.mk_iff]; apply Keeps.parts) | split | dsimp only

theorem State.readEyes_keeps {s0 : State} {s : State} (l : List (Nat × Nat × Nat)) (hs : Keeps s0 s) :
    Keeps s0 (State.readEyes s l) := by
  unfold State.readEyes
  repeat' with_reducible first
    | assumption | intro _
    | (extract_lets +onlyGivenNames x; clear_value (hx : x = _); first | refine Keeps.bind (s := s0) hx ?_ (fun _ => ?_) | (refine Keeps.isFaults x ?_; subst hx) | skip)
    | apply State.setFld_keeps | apply Keeps.ite | apply Keeps.foldl | (simp only [Keeps.mk_iff]; apply Keeps.parts) | split | dsimp only

theorem State.readRefreshes_keeps {s0 : State} {s : State} (l : List (Nat × Nat × Nat)) (hs : Keeps s0 s) :
    Keeps s0 (State.readRefreshes s l) := by
  unfold State.readRefreshes
  repeat' with_reducible first
    | assumption | intro _ | apply State.count_keeps | apply Keeps.ite | apply Keeps.foldl | (simp only [Keeps.mk_iff]; apply Keeps.parts) | split
    | dsimp only

theorem State.beaconBeat_keeps {s0 : State} {s : State} (hs : Keeps s0 s) :
    Keeps s0 (State.beaconBeat s) := by
  unfold State.beaconBeat
  repeat' with_reducible first
    | assumption | intro _
    | (extract_lets +onlyGivenNames x; clear_value (hx : x = _); first | refine Keeps.bind (s := s0) hx ?_ (fun _ => ?_) | (refine Keeps.isFaults x ?_; subst hx) | skip)
    | apply Keeps.ite | apply Keeps.foldl | (simp only [Keeps.mk_iff]; apply Keeps.parts) | split | dsimp only

theorem State.boundary_keeps {s0 : State} {s : State} (r : BeatReading) (hs : Keeps s0 s) :
    Keeps s0 (State.boundary s r) := by
  unfold State.boundary
  repeat' with_reducible first
    | assumption | intro _
    | (extract_lets +onlyGivenNames x; clear_value (hx : x = _); first | refine Keeps.bind (s := s0) hx ?_ (fun _ => ?_) | (refine Keeps.isFaults x ?_; subst hx) | skip)
    | apply State.readEyes_keeps | apply State.runMaxClr_keeps | apply State.testBeat_keeps | apply State.readSlacks_keeps | apply State.linkBeat_keeps
    | apply State.forceNext_keeps | apply State.readRails_keeps | apply State.runSelections_keeps | apply State.readRefreshes_keeps
    | apply State.powerBeat_keeps | apply State.escWindow_keeps | apply State.readGovernors_keeps | apply State.coreBeat_keeps
    | apply State.timeBeat_keeps | apply State.readTemps_keeps | apply State.throttleBeat_keeps | apply State.runClears_keeps
    | apply State.snapReports_keeps | apply State.beaconBeat_keeps | apply State.hotBeat_keeps | apply State.snapBuffer_keeps | apply State.flagBeat_keeps
    | apply Keeps.ite | apply Keeps.foldl | (simp only [Keeps.mk_iff]; apply Keeps.parts) | split | dsimp only

theorem execBeatBoundary_keeps {s0 : State} (r : BeatReading) {s : State} (hs : Keeps s0 s) :
    KeepsR s0 (execBeatBoundary r s) := by
  unfold execBeatBoundary
  repeat' with_reducible first
    | assumption | intro _ | apply State.tickOver_keeps | apply State.boundary_keeps | apply KeepsR.next | exact KeepsR.fault | exact KeepsR.refused
    | apply KeepsR.onUnit | apply KeepsR.ite | apply Keeps.ite | apply Keeps.foldl | (simp only [Keeps.mk_iff]; apply Keeps.parts) | split | dsimp only

end Sys2Proof.Machine
end

