-- ==== Sys2Proof/Laws/KeepsDispatch.lean ====
section
/-!
SUPPORT. Every command leaves the queue alone and keeps the invariant (Laws/Keeps.lean).
-/

namespace Sys2Proof.Machine

/-- What every command does to the queue and to the invariant. -/
theorem exec_keeps (i : Instr) {s0 s : State} (hs : Keeps s0 s) : KeepsR s0 (exec i s) := by
  cases i with
  | nop q i => delta exec; exact execNop_keeps _ _ hs
  | fence q i => delta exec; exact execFence_keeps _ _ hs
  | wait q i => delta exec; exact execWait_keeps _ _ hs
  | waitTimeout q i => delta exec; exact execWaitTimeout_keeps _ _ hs
  | signal q i => delta exec; exact execSignal_keeps _ _ hs
  | timer q i => delta exec; exact execTimer_keeps _ _ hs
  | timerExpiry q i => delta exec; exact execTimerExpiry_keeps _ _ hs
  | report q i => delta exec; exact execReport_keeps _ _ hs
  | drainMark q i => delta exec; exact execDrainMark_keeps _ _ hs
  | matmul q i stop => delta exec; exact execMatmul_keeps _ _ _ hs
  | matmulAcc q i stop => delta exec; exact execMatmulAcc_keeps _ _ _ hs
  | attnFwd q i stop => delta exec; exact execAttnFwd_keeps _ _ _ hs
  | attnBwd q i stop => delta exec; exact execAttnBwd_keeps _ _ _ hs
  | bwdIn q i stop => delta exec; exact execBwdIn_keeps _ _ _ hs
  | bwdW q i stop => delta exec; exact execBwdW_keeps _ _ _ hs
  | convert q i stop => delta exec; exact execConvert_keeps _ _ _ hs
  | stats q i stop => delta exec; exact execStats_keeps _ _ _ hs
  | rotate q i stop => delta exec; exact execRotate_keeps _ _ _ hs
  | codebookUpd q i => delta exec; exact execCodebookUpd_keeps _ _ hs
  | vprog q i draws movBad => delta exec; exact execVprog_keeps _ _ _ _ hs
  | optStep q i stop => delta exec; exact execOptStep_keeps _ _ _ hs
  | copy q i stop => delta exec; exact execCopy_keeps _ _ _ hs
  | gather q i stop => delta exec; exact execGather_keeps _ _ _ hs
  | scatter q i stop => delta exec; exact execScatter_keeps _ _ _ hs
  | compress q i stop => delta exec; exact execCompress_keeps _ _ _ hs
  | decompress q i stop => delta exec; exact execDecompress_keeps _ _ _ hs
  | allreduce q i => delta exec; exact execAllreduce_keeps _ _ hs
  | reduceScatter q i => delta exec; exact execReduceScatter_keeps _ _ hs
  | allgather q i => delta exec; exact execAllgather_keeps _ _ hs
  | broadcast q i => delta exec; exact execBroadcast_keeps _ _ hs
  | reduce q i => delta exec; exact execReduce_keeps _ _ hs
  | alltoallv q i => delta exec; exact execAlltoallv_keeps _ _ hs
  | barrier q i => delta exec; exact execBarrier_keeps _ _ hs
  | stepBegin q i => delta exec; exact execStepBegin_keeps _ _ hs
  | stepCommit q i => delta exec; exact execStepCommit_keeps _ _ hs
  | stepCommitSample f => delta exec; exact execStepCommitSample_keeps _ hs
  | stepAbort q i => delta exec; exact execStepAbort_keeps _ _ hs
  | normWatch q i stop => delta exec; exact execNormWatch_keeps _ _ _ hs
  | sample q i stop => delta exec; exact execSample_keeps _ _ _ hs
  | rngSave q i => delta exec; exact execRngSave_keeps _ _ hs
  | rngLoad q i => delta exec; exact execRngLoad_keeps _ _ hs
  | iftRun q i => delta exec; exact execIftRun_keeps _ _ hs
  | sealScan q i => delta exec; exact execSealScan_keeps _ _ hs
  | inject q i => delta exec; exact execInject_keeps _ _ hs
  | ld core thread reg addr size => delta exec; exact execLd_keeps _ _ _ _ _ hs
  | st core thread reg value addr size => delta exec; exact execSt_keeps _ _ _ _ _ _ hs
  | mvLd core thread mvc addr spad len => delta exec; exact execMvLd_keeps _ _ _ _ _ _ hs
  | mvSt core thread mvc addr spad len => delta exec; exact execMvSt_keeps _ _ _ _ _ _ hs
  | mvPf core thread mvc addr len => delta exec; exact execMvPf_keeps _ _ _ _ _ hs
  | mvBulk core thread mvc out addr spad len => delta exec; exact execMvBulk_keeps _ _ _ _ _ _ _ hs
  | waitc core thread mvc v => delta exec; exact execWaitc_keeps _ _ _ _ hs
  | fenceCore core thread => delta exec; exact execFenceCore_keeps _ _ hs
  | fenceCluster core thread => delta exec; exact execFenceCluster_keeps _ _ hs
  | fenceDevice core thread => delta exec; exact execFenceDevice_keeps _ _ hs
  | fenceFabric core thread => delta exec; exact execFenceFabric_keeps _ _ hs
  | semaddRel core thread sem v scope => delta exec; exact execSemaddRel_keeps _ _ _ _ _ hs
  | semwaitAcq core thread sem v scope => delta exec; exact execSemwaitAcq_keeps _ _ _ _ _ hs
  | halt core thread => delta exec; exact execHalt_keeps _ _ hs
  | trace core thread v => delta exec; exact execTrace_keeps _ _ _ hs
  | randU32 core thread lane reg => delta exec; exact execRandU32_keeps _ _ _ _ hs
  | randU core thread lane reg => delta exec; exact execRandU_keeps _ _ _ _ hs
  | randUo core thread lane reg => delta exec; exact execRandUo_keeps _ _ _ _ hs
  | randBern core thread lane reg p => delta exec; exact execRandBern_keeps _ _ _ _ _ hs
  | randNbm core thread lane reg0 reg1 => delta exec; exact execRandNbm_keeps _ _ _ _ _ hs
  | randNtab core thread lane reg => delta exec; exact execRandNtab_keeps _ _ _ _ hs
  | doorbellWrite f q size tail cdone => delta exec; exact execDoorbellWrite_keeps _ _ _ _ _ hs
  | commandFetch q => delta exec; exact execCommandFetch_keeps _ hs
  | notBeforeReached q => delta exec; exact execNotBeforeReached_keeps _ hs
  | sorterGrant => delta exec; exact execSorterGrant_keeps hs
  | agePromotion q => delta exec; exact execAgePromotion_keeps _ hs
  | commandComplete q i m withheld => delta exec; exact execCommandComplete_keeps _ _ _ _ hs
  | qmgCancel f q index from_ same => delta exec; exact execQmgCancel_keeps _ _ _ _ _ hs
  | queueEnable f core => delta exec; exact execQueueEnable_keeps _ _ hs
  | queuePause f => delta exec; exact execQueuePause_keeps _ hs
  | queueResume f => delta exec; exact execQueueResume_keeps _ hs
  | queueDisable f => delta exec; exact execQueueDisable_keeps _ hs
  | queueReset f => delta exec; exact execQueueReset_keeps _ hs
  | migrate f core => delta exec; exact execMigrate_keeps _ _ hs
  | migrationDrainDone q => delta exec; exact execMigrationDrainDone_keeps _ hs
  | migrationTimeout q => delta exec; exact execMigrationTimeout_keeps _ hs
  | qmgSemvalWrite f val => delta exec; exact execQmgSemvalWrite_keeps _ _ hs
  | qmgSemadd f val => delta exec; exact execQmgSemadd_keeps _ _ hs
  | dlqBaseWrite f val => delta exec; exact execDlqBaseWrite_keeps _ _ hs
  | tenantEntryWrite f off val => delta exec; exact execTenantEntryWrite_keeps _ _ _ hs
  | assign func tier clear => delta exec; exact execAssign_keeps _ _ _ hs
  | query func tier clear => delta exec; exact execQuery_keeps _ _ _ hs
  | granuleActionDone => delta exec; exact execGranuleActionDone_keeps hs
  | haltClr f => delta exec; exact execHaltClr_keeps _ hs
  | commitFlip f => delta exec; exact execCommitFlip_keeps _ hs
  | commitTimeout f => delta exec; exact execCommitTimeout_keeps _ hs
  | escGrant rail => delta exec; exact execEscGrant_keeps _ hs
  | prebookExpiry q i => delta exec; exact execPrebookExpiry_keeps _ _ hs
  | rampHoldExpiry c => delta exec; exact execRampHoldExpiry_keeps _ hs
  | c1Entry core => delta exec; exact execC1Entry_keeps _ hs
  | c2Entry core => delta exec; exact execC2Entry_keeps _ hs
  | c3Entry core => delta exec; exact execC3Entry_keeps _ hs
  | coreWake core cause => delta exec; exact execCoreWake_keeps _ _ hs
  | wakeComplete core => delta exec; exact execWakeComplete_keeps _ hs
  | spareReady k => delta exec; exact execSpareReady_keeps _ hs
  | beatBoundary r => delta exec; exact execBeatBoundary_keeps _ hs
  | beatNowRead ps => delta exec; exact execBeatNowRead_keeps _ hs
  | counterLowRead f off => delta exec; exact execCounterLowRead_keeps _ _ hs
  | ctrClear f off => delta exec; exact execCtrClear_keeps _ _ hs
  | timeSyncSend ps => delta exec; exact execTimeSyncSend_keeps _ hs
  | timeSyncReceive k ps => delta exec; exact execTimeSyncReceive_keeps _ _ hs
  | timeReplyReceive k ps => delta exec; exact execTimeReplyReceive_keeps _ _ hs
  | trimUpdate => delta exec; exact execTrimUpdate_keeps hs
  | acquireTimeout => delta exec; exact execAcquireTimeout_keeps hs
  | flitTransmit n => delta exec; exact execFlitTransmit_keeps _ hs
  | flitReceive n flit corr unc syms => delta exec; exact execFlitReceive_keeps _ _ _ _ _ hs
  | nakReceive n => delta exec; exact execNakReceive_keeps _ hs
  | nakRepeat n => delta exec; exact execNakRepeat_keeps _ hs
  | linkSignalDetect n => delta exec; exact execLinkSignalDetect_keeps _ hs
  | trainingComplete n lanes => delta exec; exact execTrainingComplete_keeps _ _ hs
  | trainingTimeout n => delta exec; exact execTrainingTimeout_keeps _ hs
  | trainingRetry n => delta exec; exact execTrainingRetry_keeps _ hs
  | spdm n verdict => delta exec; exact execSpdm_keeps _ _ hs
  | spdmResponseTimeout n => delta exec; exact execSpdmResponseTimeout_keeps _ hs
  | linkpar n p => delta exec; exact execLinkpar_keeps _ _ hs
  | authTimeout n => delta exec; exact execAuthTimeout_keeps _ hs
  | laneFailure n lane => delta exec; exact execLaneFailure_keeps _ _ hs
  | retrainComplete n lanes => delta exec; exact execRetrainComplete_keeps _ _ hs
  | signalLossTimeout n => delta exec; exact execSignalLossTimeout_keeps _ hs
  | linkStall n => delta exec; exact execLinkStall_keeps _ hs
  | mgtStallQuarantine n => delta exec; exact execMgtStallQuarantine_keeps _ hs
  | linkNoisy n => delta exec; exact execLinkNoisy_keeps _ hs
  | linkNoisyClear n => delta exec; exact execLinkNoisyClear_keeps _ hs
  | retrain n => delta exec; exact execRetrain_keeps _ hs
  | release n => delta exec; exact execRelease_keeps _ hs
  | disable n v => delta exec; exact execDisable_keeps _ _ hs
  | messageForward k => delta exec; exact execMessageForward_keeps _ hs
  | rd k => delta exec; exact execRd_keeps _ hs
  | wr k => delta exec; exact execWr_keeps _ hs
  | void_ k => delta exec; exact execVoid_keeps _ hs
  | sig k => delta exec; exact execSig_keeps _ hs
  | rddata k => delta exec; exact execRddata_keeps _ hs
  | wrack k => delta exec; exact execWrack_keeps _ hs
  | sigack k => delta exec; exact execSigack_keeps _ hs
  | remoteRequestTimeout tag => delta exec; exact execRemoteRequestTimeout_keeps _ hs
  | colData k => delta exec; exact execColData_keeps _ hs
  | colPmk k => delta exec; exact execColPmk_keeps _ hs
  | colAck k => delta exec; exact execColAck_keeps _ hs
  | colReady k => delta exec; exact execColReady_keeps _ hs
  | colCtrl k => delta exec; exact execColCtrl_keeps _ hs
  | colSpot k => delta exec; exact execColSpot_keeps _ hs
  | colVerdict k => delta exec; exact execColVerdict_keeps _ hs
  | colDecision k => delta exec; exact execColDecision_keeps _ hs
  | colReadyResend q i => delta exec; exact execColReadyResend_keeps _ _ hs
  | chunkResend q i => delta exec; exact execChunkResend_keeps _ _ hs
  | collectiveTimeout q i => delta exec; exact execCollectiveTimeout_keeps _ _ hs
  | powerSharePeriod => delta exec; exact execPowerSharePeriod_keeps hs
  | power k => delta exec; exact execPower_keeps _ hs
  | gets l k => delta exec; exact execGets_keeps _ _ hs
  | getm l k => delta exec; exact execGetm_keeps _ _ hs
  | upg l k => delta exec; exact execUpg_keeps _ _ hs
  | readnc l k => delta exec; exact execReadnc_keeps _ _ hs
  | writenc l k => delta exec; exact execWritenc_keeps _ _ hs
  | putm l k => delta exec; exact execPutm_keeps _ _ hs
  | pute l k => delta exec; exact execPute_keeps _ _ hs
  | puts l k => delta exec; exact execPuts_keeps _ _ hs
  | snps l k => delta exec; exact execSnps_keeps _ _ hs
  | snpm l k => delta exec; exact execSnpm_keeps _ _ hs
  | snpinv l k => delta exec; exact execSnpinv_keeps _ _ hs
  | snprd l k => delta exec; exact execSnprd_keeps _ _ hs
  | datas l k => delta exec; exact execDatas_keeps _ _ hs
  | datae l k => delta exec; exact execDatae_keeps _ _ hs
  | datam l k => delta exec; exact execDatam_keeps _ _ hs
  | ack l k => delta exec; exact execAck_keeps _ _ hs
  | wback l k => delta exec; exact execWback_keeps _ _ hs
  | invack l k => delta exec; exact execInvack_keeps _ _ hs
  | snpdata l k => delta exec; exact execSnpdata_keeps _ _ hs
  | snpack l k => delta exec; exact execSnpack_keeps _ _ hs
  | miss l k => delta exec; exact execMiss_keeps _ _ hs
  | missPutPending l k => delta exec; exact execMissPutPending_keeps _ _ hs
  | snoopTimeout l k => delta exec; exact execSnoopTimeout_keeps _ _ hs
  | dirAgeWarn l => delta exec; exact execDirAgeWarn_keeps _ hs
  | scrubPass k corrected lost => delta exec; exact execScrubPass_keeps _ _ _ hs
  | bankCopyComplete k j => delta exec; exact execBankCopyComplete_keeps _ _ hs
  | hbmTempReading temps => delta exec; exact execHbmTempReading_keeps _ hs
  | hotChannel c => delta exec; exact execHotChannel_keeps _ hs
  | apply f k => delta exec; exact execApply_keeps _ _ hs
  | flush f k => delta exec; exact execFlush_keeps _ _ hs
  | fcpActionDone => delta exec; exact execFcpActionDone_keeps hs
  | testMode v => delta exec; exact execTestMode_keeps _ hs
  | start c val => delta exec; exact execStart_keeps _ _ hs
  | stop c => delta exec; exact execStop_keeps _ hs
  | tgDone c mism => delta exec; exact execTgDone_keeps _ _ hs
  | iftStart => delta exec; exact execIftStart_keeps hs
  | iftForced k slot => delta exec; exact execIftForced_keeps _ _ hs
  | iftComplete pass chain => delta exec; exact execIftComplete_keeps _ _ hs
  | coreHang c => delta exec; exact execCoreHang_keeps _ hs
  | hubClrst mask => delta exec; exact execHubClrst_keeps _ hs
  | clusterResetDone => delta exec; exact execClusterResetDone_keeps hs
  | pwrGoodRise nodeId bootSel => delta exec; exact execPwrGoodRise_keeps _ _ hs
  | bootStepComplete => delta exec; exact execBootStepComplete_keeps hs
  | bootTimeout => delta exec; exact execBootTimeout_keeps hs
  | pwrGoodFall n => delta exec; exact execPwrGoodFall_keeps _ hs
  | perstN => delta exec; exact execPerstN_keeps hs
  | hotReset => delta exec; exact execHotReset_keeps hs
  | flr f => delta exec; exact execFlr_keeps _ hs
  | pfFlr => delta exec; exact execPfFlr_keeps hs
  | vfEnableClear => delta exec; exact execVfEnableClear_keeps hs
  | powerLoss n => delta exec; exact execPowerLoss_keeps _ hs
  | flowOkFall ps => delta exec; exact execFlowOkFall_keeps _ hs
  | flowStop ps => delta exec; exact execFlowStop_keeps _ hs
  | thermalTrip => delta exec; exact execThermalTrip_keeps hs
  | droop d depth ps => delta exec; exact execDroop_keeps _ _ _ hs
  | droopHoldExpiry cluster ps => delta exec; exact execDroopHoldExpiry_keeps _ _ hs
  | droopRestoreStep cluster ps => delta exec; exact execDroopRestoreStep_keeps _ _ hs
  | droopStorm die => delta exec; exact execDroopStorm_keeps _ hs
  | droopVoltageReturn die => delta exec; exact execDroopVoltageReturn_keeps _ hs
  | rqAck rail => delta exec; exact execRqAck_keeps _ hs
  | rqAckTimeout rail => delta exec; exact execRqAckTimeout_keeps _ hs
  | railFault r => delta exec; exact execRailFault_keeps _ hs
  | opportunisticDecision die => delta exec; exact execOpportunisticDecision_keeps _ hs
  | capUpdate => delta exec; exact execCapUpdate_keeps hs
  | thermalStateEval => delta exec; exact execThermalStateEval_keeps hs
  | critStep die => delta exec; exact execCritStep_keeps _ hs
  | watchdogReset p => delta exec; exact execWatchdogReset_keeps _ hs
  | processorReturn p => delta exec; exact execProcessorReturn_keeps _ hs
  | controllerAbsent p => delta exec; exact execControllerAbsent_keeps _ hs
  | odRead tr => delta exec; exact execOdRead_keeps _ hs
  | odWrite tr => delta exec; exact execOdWrite_keeps _ hs
  | odCommit tr => delta exec; exact execOdCommit_keeps _ hs
  | applyNow tr => delta exec; exact execApplyNow_keeps _ hs
  | defaults tr => delta exec; exact execDefaults_keeps _ hs
  | journalBatchPersisted fails => delta exec; exact execJournalBatchPersisted_keeps _ hs
  | compactionCopy => delta exec; exact execCompactionCopy_keeps hs
  | tokenRefill => delta exec; exact execTokenRefill_keeps hs
  | go val => delta exec; exact execGo_keeps _ hs
  | single id data => delta exec; exact execSingle_keeps _ _ hs
  | first id data => delta exec; exact execFirst_keeps _ _ hs
  | consec id data => delta exec; exact execConsec_keeps _ _ hs
  | flow id data => delta exec; exact execFlow_keeps _ _ hs
  | canTransferTimeout => delta exec; exact execCanTransferTimeout_keeps hs
  | mctpOdRequest i3c src tag body => delta exec; exact execMctpOdRequest_keeps _ _ _ _ hs
  | mctpControl i3c src body => delta exec; exact execMctpControl_keeps _ _ _ hs
  | getMeasurements i3c src body => delta exec; exact execGetMeasurements_keeps _ _ _ hs
  | healthBeacon => delta exec; exact execHealthBeacon_keeps hs
  | serviceLogEventWrite => delta exec; exact execServiceLogEventWrite_keeps hs
  | hourlyDigest => delta exec; exact execHourlyDigest_keeps hs
  | marginSweep k => delta exec; exact execMarginSweep_keeps _ hs
  | marginSweepComplete k slacks => delta exec; exact execMarginSweepComplete_keeps _ _ hs
  | telEvselWrite k n val => delta exec; exact execTelEvselWrite_keeps _ _ _ hs
  | snapGo g => delta exec; exact execSnapGo_keeps _ hs
  | maxclr => delta exec; exact execMaxclr_keeps hs
  | traceFlush k => delta exec; exact execTraceFlush_keeps _ hs
  | traceStart k => delta exec; exact execTraceStart_keeps _ hs
  | dlBegin tr => delta exec; exact execDlBegin_keeps _ hs
  | dlData tr => delta exec; exact execDlData_keeps _ hs
  | dlFrom tr => delta exec; exact execDlFrom_keeps _ hs
  | dlAbort tr => delta exec; exact execDlAbort_keeps _ hs
  | verify tr => delta exec; exact execVerify_keeps _ hs
  | verifyComplete => delta exec; exact execVerifyComplete_keeps hs
  | activate tr => delta exec; exact execActivate_keeps _ hs
  | activateQuiesced => delta exec; exact execActivateQuiesced_keeps hs
  | quiesceTimeout => delta exec; exact execQuiesceTimeout_keeps hs
  | handoffResume ok => delta exec; exact execHandoffResume_keeps _ hs
  | confirm tr => delta exec; exact execConfirm_keeps _ hs
  | autoConfirm => delta exec; exact execAutoConfirm_keeps hs
  | reject tr => delta exec; exact execReject_keeps _ hs
  | bar2Read f o n => delta exec; exact execBar2Read_keeps _ _ _ hs
  | bar2Write f o data => delta exec; exact execBar2Write_keeps _ _ _ hs
  | hostCompletion tag status poison data => delta exec; exact execHostCompletion_keeps _ _ _ _ hs
  | hostCompletionTimeout tag => delta exec; exact execHostCompletionTimeout_keeps _ hs
  | msixUnmask f v => delta exec; exact execMsixUnmask_keeps _ _ hs
  | msixHoldoffExpiry f v => delta exec; exact execMsixHoldoffExpiry_keeps _ _ hs
  | pcieConfigAccess f op => delta exec; exact execPcieConfigAccess_keeps _ _ hs
  | registerWrite f off n val => delta exec; exact execRegisterWrite_keeps _ _ _ _ hs
  | perstNRise => delta exec; exact execPerstNRise_keeps hs
  | flowOkRise ps => delta exec; exact execFlowOkRise_keeps _ hs
  | sleepEntryComplete core => delta exec; exact execSleepEntryComplete_keeps _ hs
  | memoryResponse home a b => delta exec; exact execMemoryResponse_keeps _ _ _ hs
  | flashOperationComplete ok => delta exec; exact execFlashOperationComplete_keeps _ hs
  | pcRetrainComplete c ok hit => delta exec; exact execPcRetrainComplete_keeps _ _ _ hs
  | errorCheckAndScrub a => delta exec; exact execErrorCheckAndScrub_keeps _ hs
  | tck tms tdi trstN => delta exec; exact execTck_keeps _ _ _ hs
  | spdmOverMctp i3c src body => delta exec; exact execSpdmOverMctp_keeps _ _ _ hs

end Sys2Proof.Machine
end

