-- ==== Sys2Proof/Laws/SameMem.lean ====
section
/-!
SUPPORT. The relation of the operations that store nothing: every byte of memory and every semaphore stays. One lemma per such operation is in the files Laws/SameMem….lean.
-/

namespace Sys2Proof.Machine

/-- From `s` to `t` memory and the semaphores are unchanged. -/
def SameMem (s t : State) : Prop := (t.mem, t.sems) = (s.mem, s.sems)

/-- The same of an outcome's next state. -/
def SameMemR (s : State) (r : Result) : Prop := ∀ t, r = .next t → SameMem s t

/-- The same of the state `f` finds in an answer, when there is one. -/
def SameMemO {α : Type} (f : α → State) (s : State) (o : Option α) : Prop := ∀ x, o = some x → SameMem s (f x)

variable {s t : State}

theorem SameMem.refl (s : State) : SameMem s s := rfl

theorem SameMem.parts (h : SameMem s t) : (t.mem, t.sems) = (s.mem, s.sems) := h

theorem SameMem.mk_iff {p m r b ps q} {f : FaultState} {sems x1 x2 x3 x5 x6 x7 x8 x9 x10 x11 x13 x14 x15 x16 x17 x18 x19 x20 x21 x22 x23 x24 x25 x26 x27 x28 x29 x30 x31 x32 x33 x34 x35 x36} :
    SameMem s ⟨p, x1, x2, r, m, x3, b, ps, x5, x6, x7, x8, x9, x10, x11, sems, x13, x14, f, q, x15, x16, x17, x18, x19, x20, x21, x22, x23, x24, x25, x26, x27, x28, x29, x30, x31, x32, x33, x34, x35, x36⟩
      ↔ (m, sems) = (s.mem, s.sems) := Iff.rfl

theorem SameMem.isFun {α β : Sort _} {G : Prop} (_ : α → β) (h : G) : G := h

theorem SameMem.isFaults {G : Prop} (_ : FaultState) (h : G) : G := h

/-- A named intermediate state is kept when its value is. -/
theorem SameMem.bind {x v : State} {G : Prop} (e : x = v) (hv : SameMem s v) (h : SameMem s x → G) : G := h (e ▸ hv)

theorem SameMem.bindFst {α : Type} {x v : State × α} {G : Prop} (e : x = v) (hv : SameMem s v.1) (h : SameMem s x.1 → G) : G := h (e ▸ hv)

theorem SameMem.bindSnd {α : Type} {x v : α × State} {G : Prop} (e : x = v) (hv : SameMem s v.2) (h : SameMem s x.2 → G) : G := h (e ▸ hv)

theorem SameMem.bindJob {x v : JobSt} {G : Prop} (e : x = v) (hv : SameMem s v.st) (h : SameMem s x.st → G) : G := h (e ▸ hv)

theorem SameMem.bindRes {x v : JobResult} {G : Prop} (e : x = v) (hv : SameMem s v.st) (h : SameMem s x.st → G) : G := h (e ▸ hv)

theorem SameMem.ite {c : Prop} [Decidable c] {a b : State} (ha : SameMem s a) (hb : SameMem s b) : SameMem s (if c then a else b) := by split <;> assumption

theorem SameMem.foldl {α : Type} {f : State → α → State} {l : List α} {a : State} (ha : SameMem s a) (hf : ∀ x y, SameMem s x → SameMem s (f x y)) :
    SameMem s (l.foldl f a) := by
  induction l generalizing a with
  | nil => exact ha
  | cons y l ih => exact ih (hf a y ha)

theorem SameMem.foldlPair {α β : Type} {f : State × β → α → State × β} {l : List α} {a : State × β} (ha : SameMem s a.1) (hf : ∀ x y, SameMem s x.1 → SameMem s (f x y).1) :
    SameMem s (l.foldl f a).1 := by
  induction l generalizing a with
  | nil => exact ha
  | cons y l ih => exact ih (hf a y ha)

theorem SameMem.foldlJob {α : Type} {f : JobSt → α → JobSt} {l : List α} {a : JobSt} (ha : SameMem s a.st) (hf : ∀ x y, SameMem s x.st → SameMem s (f x y).st) :
    SameMem s (l.foldl f a).st := by
  induction l generalizing a with
  | nil => exact ha
  | cons y l ih => exact ih (hf a y ha)

theorem SameMem.iteJob {c : Prop} [Decidable c] {a b : JobSt} (ha : SameMem s a.st) (hb : SameMem s b.st) : SameMem s (if c then a else b).st := by split <;> assumption

theorem SameMem.iteFst {α : Type} {c : Prop} [Decidable c] {a b : State × α} (ha : SameMem s a.1) (hb : SameMem s b.1) : SameMem s (if c then a else b).1 := by split <;> assumption

theorem SameMem.iteSnd {α : Type} {c : Prop} [Decidable c] {a b : α × State} (ha : SameMem s a.2) (hb : SameMem s b.2) : SameMem s (if c then a else b).2 := by split <;> assumption

/-- A state taken out of a pair, or of an answer, is kept when the pair's or the answer's is. -/
theorem SameMem.fstEq {α : Type} {p : State × α} {b : α} (e : p = (t, b)) (h : SameMem s p.1) : SameMem s t := by rw [e] at h; exact h

theorem SameMem.sndEq {α : Type} {p : α × State} {b : α} (e : p = (b, t)) (h : SameMem s p.2) : SameMem s t := by rw [e] at h; exact h

theorem SameMem.jobEq {α : Type} {p : JobSt × α} {j : JobSt} {b : α} (e : p = (j, b)) (h : SameMem s p.1.st) : SameMem s j.st := by rw [e] at h; exact h

theorem SameMem.optEq {o : Option State} (e : o = some t) (h : SameMemO (fun x => x) s o) : SameMem s t := h t e

theorem SameMem.optEq2 {α : Type} {o : Option (α × State)} {b : α} (e : o = some (b, t)) (h : SameMemO (fun x => x.2) s o) : SameMem s t := h (b, t) e

theorem SameMem.optEq3 {α β : Type} {o : Option (α × β × State)} {b : α} {c : β} (e : o = some (b, c, t)) (h : SameMemO (fun x => x.2.2) s o) : SameMem s t :=
  h (b, c, t) e

theorem SameMemO.none {α : Type} {f : α → State} : SameMemO f s none := fun _ e => nomatch e

theorem SameMemO.some {α : Type} {f : α → State} {x : α} (h : SameMem s (f x)) : SameMemO f s (some x) := fun _ e => by cases e; exact h

theorem SameMemO.ite {α : Type} {f : α → State} {c : Prop} [Decidable c] {a b : Option α} (ha : SameMemO f s a) (hb : SameMemO f s b) :
    SameMemO f s (if c then a else b) := by split <;> assumption

theorem SameMem.getD {o : Option State} {d : State} (h : SameMemO (fun x => x) s o) (hd : SameMem s d) : SameMem s (o.getD d) := by
  cases o with
  | none => exact hd
  | some x => exact h x rfl

theorem SameMemR.next (h : SameMem s t) : SameMemR s (.next t) := fun _ e => by cases e; exact h

theorem SameMemR.fault {e : Fault} : SameMemR s (.fault e) := fun _ e => nomatch e

theorem SameMemR.refused {e : Refusal} : SameMemR s (.refused e) := fun _ e => nomatch e

theorem SameMemR.onUnit {p : Bool} (h : SameMem s t) : SameMemR s (onUnit p t) := by
  unfold Sys2Proof.Machine.onUnit; split
  · exact .next h
  · exact .fault

theorem SameMemR.ite {c : Prop} [Decidable c] {a b : Result} (ha : SameMemR s a) (hb : SameMemR s b) : SameMemR s (if c then a else b) := by split <;> assumption


end Sys2Proof.Machine
end

