-- ==== Sys2Proof/Laws/SameMemOps.lean ====
section
/-!
SUPPORT. What the operations of Machine/Ops.lean leave alone (Laws/SameMem.lean).
-/

set_option linter.all false

namespace Sys2Proof.Machine

theorem State.markEnded_mem {s0 : State} {s : State} (p : Flight → Bool) (status : Nat) (detail : Nat) (hs : SameMem s0 s) :
    SameMem s0 (State.markEnded s p status detail) := by
  unfold State.markEnded
  repeat' with_reducible first
    | assumption | intro _ | apply SameMem.ite | apply SameMem.foldl | (simp only [SameMem.mk_iff]; apply SameMem.parts) | split | dsimp only

theorem State.setReg_mem {s0 : State} {s : State} (k : Nat) (v : Nat) (hs : SameMem s0 s) :
    SameMem s0 (State.setReg s k v) := by
  unfold State.setReg
  repeat' with_reducible first
    | assumption | intro _ | apply SameMem.ite | apply SameMem.foldl | (simp only [SameMem.mk_iff]; apply SameMem.parts) | split | dsimp only

theorem State.count_mem {s0 : State} {s : State} (k : Nat) (n : Nat) (hs : SameMem s0 s) :
    SameMem s0 (State.count s k n) := by
  unfold State.count
  repeat' with_reducible first
    | assumption | intro _ | apply State.setReg_mem | apply SameMem.ite | apply SameMem.foldl | (simp only [SameMem.mk_iff]; apply SameMem.parts) | split
    | dsimp only

theorem State.setSyndrome_mem {s0 : State} {s : State} (b : Nat) (x : W32) (hs : SameMem s0 s) :
    SameMem s0 (State.setSyndrome s b x) := by
  unfold State.setSyndrome
  repeat' with_reducible first
    | assumption | intro _ | apply SameMem.ite | apply SameMem.foldl | (simp only [SameMem.mk_iff]; apply SameMem.parts) | split | dsimp only

theorem State.voidBlock_mem {s0 : State} {s : State} (b : Nat) (hs : SameMem s0 s) :
    SameMem s0 (State.voidBlock s b) := by
  unfold State.voidBlock
  repeat' with_reducible first
    | assumption | intro _ | apply State.count_mem | apply State.setSyndrome_mem | apply SameMem.ite | apply SameMem.foldl
    | (simp only [SameMem.mk_iff]; apply SameMem.parts) | split | dsimp only

theorem State.voidBlocks_mem {s0 : State} {s : State} (bs : List Nat) (hs : SameMem s0 s) :
    SameMem s0 (State.voidBlocks s bs) := by
  unfold State.voidBlocks
  repeat' with_reducible first
    | assumption | intro _ | apply State.voidBlock_mem | apply SameMem.ite | apply SameMem.foldl | (simp only [SameMem.mk_iff]; apply SameMem.parts) | split
    | dsimp only

theorem State.endFlights_mem {s0 : State} {s : State} (p : Flight → Bool) (status : Nat) (detail : Nat) (hs : SameMem s0 s) :
    SameMem s0 (State.endFlights s p status detail) := by
  unfold State.endFlights
  repeat' with_reducible first
    | assumption | intro _ | apply State.markEnded_mem | apply State.voidBlocks_mem | apply SameMem.ite | apply SameMem.foldl
    | (simp only [SameMem.mk_iff]; apply SameMem.parts) | split | dsimp only

theorem State.setFld_mem {s0 : State} {s : State} (k : Nat) (hi : Nat) (lo : Nat) (v : Nat) (hs : SameMem s0 s) :
    SameMem s0 (State.setFld s k hi lo v) := by
  unfold State.setFld
  repeat' with_reducible first
    | assumption | intro _ | apply State.setReg_mem | apply SameMem.ite | apply SameMem.foldl | (simp only [SameMem.mk_iff]; apply SameMem.parts) | split
    | dsimp only

theorem State.tally_mem {s0 : State} {s : State} (k : Nat) (n : Nat) (hs : SameMem s0 s) :
    SameMem s0 (State.tally s k n) := by
  unfold State.tally
  repeat' with_reducible first
    | assumption | intro _
    | (extract_lets +onlyGivenNames x; clear_value (hx : x = _); first | refine SameMem.bind (s := s0) hx ?_ (fun _ => ?_) | (refine SameMem.isFaults x ?_; subst hx) | skip)
    | apply SameMem.ite | apply SameMem.foldl | (simp only [SameMem.mk_iff]; apply SameMem.parts) | split | dsimp only

theorem State.containFatal_mem {s0 : State} {s : State} (seq : Nat) (hs : SameMem s0 s) :
    SameMem s0 (State.containFatal s seq) := by
  unfold State.containFatal
  repeat' with_reducible first
    | assumption | intro _
    | (extract_lets +onlyGivenNames x; clear_value (hx : x = _); first | refine SameMem.bind (s := s0) hx ?_ (fun _ => ?_) | (refine SameMem.isFaults x ?_; subst hx) | skip)
    | apply State.setFld_mem | apply State.endFlights_mem | apply SameMem.ite | apply SameMem.foldl | (simp only [SameMem.mk_iff]; apply SameMem.parts) | split
    | dsimp only

theorem State.containUct_mem {s0 : State} {s : State} (f : Nat) (seq : Nat) (hs : SameMem s0 s) :
    SameMem s0 (State.containUct s f seq) := by
  unfold State.containUct
  repeat' with_reducible first
    | assumption | intro _
    | (extract_lets +onlyGivenNames x; clear_value (hx : x = _); first | refine SameMem.bind (s := s0) hx ?_ (fun _ => ?_) | (refine SameMem.isFaults x ?_; subst hx) | skip)
    | apply State.endFlights_mem | apply SameMem.ite | apply SameMem.foldl | (simp only [SameMem.mk_iff]; apply SameMem.parts) | split | dsimp only

theorem State.setMsix_mem {s0 : State} {s : State} (f : Nat) (v : Nat) (m : MsixVec) (hs : SameMem s0 s) :
    SameMem s0 (State.setMsix s f v m) := by
  unfold State.setMsix
  repeat' with_reducible first
    | assumption | intro _ | apply SameMem.ite | apply SameMem.foldl | (simp only [SameMem.mk_iff]; apply SameMem.parts) | split | dsimp only

theorem State.send_mem {s0 : State} {s : State} (o : Out) (hs : SameMem s0 s) :
    SameMem s0 (State.send s o) := by
  unfold State.send
  repeat' with_reducible first
    | assumption | intro _ | apply SameMem.ite | apply SameMem.foldl | (simp only [SameMem.mk_iff]; apply SameMem.parts) | split | dsimp only

theorem State.sendVector_mem {s0 : State} {s : State} (f : Nat) (v : Nat) (hs : SameMem s0 s) :
    SameMem s0 (State.sendVector s f v) := by
  unfold State.sendVector
  repeat' with_reducible first
    | assumption | intro _
    | (extract_lets +onlyGivenNames x; clear_value (hx : x = _); first | refine SameMem.bind (s := s0) hx ?_ (fun _ => ?_) | (refine SameMem.isFaults x ?_; subst hx) | skip)
    | apply State.setMsix_mem | apply State.send_mem | apply SameMem.ite | apply SameMem.foldl | (simp only [SameMem.mk_iff]; apply SameMem.parts) | split
    | dsimp only

theorem State.raiseVector_mem {s0 : State} {s : State} (f : Nat) (v : Nat) (hs : SameMem s0 s) :
    SameMem s0 (State.raiseVector s f v) := by
  unfold State.raiseVector
  repeat' with_reducible first
    | assumption | intro _
    | (extract_lets +onlyGivenNames x; clear_value (hx : x = _); first | refine SameMem.bind (s := s0) hx ?_ (fun _ => ?_) | (refine SameMem.isFaults x ?_; subst hx) | skip)
    | apply State.setMsix_mem | apply State.sendVector_mem | apply SameMem.ite | apply SameMem.foldl | (simp only [SameMem.mk_iff]; apply SameMem.parts) | split
    | dsimp only

theorem State.event_mem {s0 : State} {s : State} (kind : Nat) (data : List (Nat × Nat)) (hs : SameMem s0 s) :
    SameMem s0 (State.event s kind data) := by
  unfold State.event
  repeat' with_reducible first
    | assumption | intro _ | apply State.setFld_mem | apply State.tally_mem | apply State.count_mem | apply SameMem.ite | apply SameMem.foldl
    | (simp only [SameMem.mk_iff]; apply SameMem.parts) | split | dsimp only

theorem State.writeRecord_mem {s0 : State} {s : State} (n : ErrNote) (cls : Nat) (prev : Nat) (esc : Bool) (hs : SameMem s0 s) :
    SameMem s0 (State.writeRecord s n cls prev esc) := by
  unfold State.writeRecord
  repeat' with_reducible first
    | assumption | intro _
    | (extract_lets +onlyGivenNames x; clear_value (hx : x = _); first | refine SameMem.bind (s := s0) hx ?_ (fun _ => ?_) | (refine SameMem.isFaults x ?_; subst hx) | skip)
    | apply State.setReg_mem | apply State.setFld_mem | apply State.tally_mem | apply State.containFatal_mem | apply State.containUct_mem
    | apply State.raiseVector_mem | apply State.event_mem | apply SameMem.ite | apply SameMem.foldl | (simp only [SameMem.mk_iff]; apply SameMem.parts) | split
    | dsimp only

theorem State.setCLine_mem {s0 : State} {s : State} (k : Nat) (l : Nat) (v : CLine) (hs : SameMem s0 s) :
    SameMem s0 (State.setCLine s k l v) := by
  unfold State.setCLine
  repeat' with_reducible first
    | assumption | intro _
    | (extract_lets +onlyGivenNames x; clear_value (hx : x = _); first | refine SameMem.bind (s := s0) hx ?_ (fun _ => ?_) | (refine SameMem.isFaults x ?_; subst hx) | skip)
    | apply SameMem.ite | apply SameMem.foldl | (simp only [SameMem.mk_iff]; apply SameMem.parts) | split | dsimp only

theorem State.setCore_mem {s0 : State} {s : State} (c : Nat) (v : Core) (hs : SameMem s0 s) :
    SameMem s0 (State.setCore s c v) := by
  unfold State.setCore
  repeat' with_reducible first
    | assumption | intro _ | apply SameMem.ite | apply SameMem.foldl | (simp only [SameMem.mk_iff]; apply SameMem.parts) | split | dsimp only

theorem State.modCore_mem {s0 : State} {s : State} (c : Nat) (f : Core → Core) (hs : SameMem s0 s) :
    SameMem s0 (State.modCore s c f) := by
  unfold State.modCore
  repeat' with_reducible first
    | assumption | intro _ | apply State.setCore_mem | apply SameMem.ite | apply SameMem.foldl | (simp only [SameMem.mk_iff]; apply SameMem.parts) | split
    | dsimp only

theorem State.invalPf_mem {s0 : State} {s : State} (k : Nat) (l : Nat) (hs : SameMem s0 s) :
    SameMem s0 (State.invalPf s k l) := by
  unfold State.invalPf
  repeat' with_reducible first
    | assumption | intro _
    | (extract_lets +onlyGivenNames x; clear_value (hx : x = _); first | refine SameMem.bind (s := s0) hx ?_ (fun _ => ?_) | (refine SameMem.isFaults x ?_; subst hx) | skip)
    | apply State.modCore_mem | apply State.count_mem | apply SameMem.ite | apply SameMem.foldl | (simp only [SameMem.mk_iff]; apply SameMem.parts) | split
    | dsimp only

theorem State.writebackLine_mem {s0 : State} {s : State} (l : Nat) (hs : SameMem s0 s) :
    SameMem s0 (State.writebackLine s l) := by
  unfold State.writebackLine
  repeat' with_reducible first
    | assumption | intro _ | apply State.count_mem | apply State.setSyndrome_mem | apply SameMem.ite | apply SameMem.foldl
    | (simp only [SameMem.mk_iff]; apply SameMem.parts) | split | dsimp only

theorem State.purgeCopy_mem {s0 : State} {s : State} (l : Nat) (k : Nat) (hs : SameMem s0 s) :
    SameMem s0 (State.purgeCopy s l k) := by
  unfold State.purgeCopy
  repeat' with_reducible first
    | assumption | intro _ | apply State.invalPf_mem | apply State.writebackLine_mem | apply State.setCLine_mem | apply SameMem.ite | apply SameMem.foldl
    | (simp only [SameMem.mk_iff]; apply SameMem.parts) | split | dsimp only

theorem State.purgeLine_mem {s0 : State} {s : State} (l : Nat) (hs : SameMem s0 s) :
    SameMem s0 (State.purgeLine s l) := by
  unfold State.purgeLine
  repeat' with_reducible first
    | assumption | intro _
    | (extract_lets +onlyGivenNames x; clear_value (hx : x = _); first | refine SameMem.bind (s := s0) hx ?_ (fun _ => ?_) | (refine SameMem.isFaults x ?_; subst hx) | skip)
    | apply State.purgeCopy_mem | apply SameMem.ite | apply SameMem.foldl | (simp only [SameMem.mk_iff]; apply SameMem.parts) | split | dsimp only

theorem State.purgeWhere_mem {s0 : State} {s : State} (p : Nat → Bool) (hs : SameMem s0 s) :
    SameMem s0 (State.purgeWhere s p) := by
  unfold State.purgeWhere
  repeat' with_reducible first
    | assumption | intro _ | apply State.purgeLine_mem | apply SameMem.ite | apply SameMem.foldl | (simp only [SameMem.mk_iff]; apply SameMem.parts) | split
    | dsimp only

theorem State.setDomain_mem {s0 : State} {s : State} (f : Nat) (v : StepDomain) (hs : SameMem s0 s) :
    SameMem s0 (State.setDomain s f v) := by
  unfold State.setDomain
  repeat' with_reducible first
    | assumption | intro _ | apply SameMem.ite | apply SameMem.foldl | (simp only [SameMem.mk_iff]; apply SameMem.parts) | split | dsimp only

theorem State.record_mem {s0 : State} {s : State} (n : ErrNote) (hs : SameMem s0 s) :
    SameMem s0 (State.record s n) := by
  unfold State.record
  repeat' with_reducible first
    | assumption | intro _
    | (extract_lets +onlyGivenNames x; clear_value (hx : x = _); first | refine SameMem.bind (s := s0) hx ?_ (fun _ => ?_) | (refine SameMem.isFaults x ?_; subst hx) | skip)
    | apply State.writeRecord_mem | apply State.setFld_mem | apply SameMem.ite | apply SameMem.foldl | (simp only [SameMem.mk_iff]; apply SameMem.parts) | split
    | dsimp only

theorem State.setQueue_mem {s0 : State} {s : State} (q : Nat) (v : Queue) (hs : SameMem s0 s) :
    SameMem s0 (State.setQueue s q v) := by
  unfold State.setQueue
  repeat' with_reducible first
    | assumption | intro _ | apply SameMem.ite | apply SameMem.foldl | (simp only [SameMem.mk_iff]; apply SameMem.parts) | split | dsimp only

theorem State.modFlight_mem {s0 : State} {s : State} (q : Nat) (i : Nat) (g : Flight → Flight) (hs : SameMem s0 s) :
    SameMem s0 (State.modFlight s q i g) := by
  unfold State.modFlight
  repeat' with_reducible first
    | assumption | intro _ | apply SameMem.ite | apply SameMem.foldl | (simp only [SameMem.mk_iff]; apply SameMem.parts) | split | dsimp only

theorem State.purgeRange_mem {s0 : State} {s : State} (a : Nat) (n : Nat) (hs : SameMem s0 s) :
    SameMem s0 (State.purgeRange s a n) := by
  unfold State.purgeRange
  repeat' with_reducible first
    | assumption | intro _ | apply State.purgeLine_mem | apply SameMem.ite | apply SameMem.foldl | (simp only [SameMem.mk_iff]; apply SameMem.parts) | split
    | dsimp only

theorem State.modQueue_mem {s0 : State} {s : State} (q : Nat) (f : Queue → Queue) (hs : SameMem s0 s) :
    SameMem s0 (State.modQueue s q f) := by
  unfold State.modQueue
  repeat' with_reducible first
    | assumption | intro _ | apply State.setQueue_mem | apply SameMem.ite | apply SameMem.foldl | (simp only [SameMem.mk_iff]; apply SameMem.parts) | split
    | dsimp only

theorem State.draw_mem {s0 : State} {s : State} (hs : SameMem s0 s) :
    SameMem s0 (State.draw s).2 := by
  unfold State.draw
  repeat' with_reducible first
    | assumption | intro _ | apply SameMem.ite | apply SameMem.foldl | (simp only [SameMem.mk_iff]; apply SameMem.parts) | apply SameMem.iteFst | apply SameMem.iteSnd
    | refine SameMem.sndEq (by assumption) ?_ | split | dsimp only

theorem State.countCycles_mem {s0 : State} {s : State} (k : Nat) (hs : SameMem s0 s) :
    SameMem s0 (State.countCycles s k) := by
  unfold State.countCycles
  repeat' with_reducible first
    | assumption | intro _ | apply State.draw_mem | apply State.count_mem | apply SameMem.ite | apply SameMem.foldl
    | (simp only [SameMem.mk_iff]; apply SameMem.parts) | apply SameMem.iteFst | apply SameMem.iteSnd | refine SameMem.sndEq (by assumption) ?_ | split | dsimp only

theorem State.setPcie_mem {s0 : State} {s : State} (f : Nat) (p : FnPcie) (hs : SameMem s0 s) :
    SameMem s0 (State.setPcie s f p) := by
  unfold State.setPcie
  repeat' with_reducible first
    | assumption | intro _ | apply SameMem.ite | apply SameMem.foldl | (simp only [SameMem.mk_iff]; apply SameMem.parts) | split | dsimp only

theorem onUnit_mem {s0 : State} (present : Bool) {t : State} (ht : SameMem s0 t) :
    SameMemR s0 (onUnit present t) := by
  unfold onUnit
  repeat' with_reducible first
    | assumption | intro _ | apply SameMemR.next | exact SameMemR.fault | exact SameMemR.refused | apply SameMemR.onUnit | apply SameMemR.ite | apply SameMem.ite
    | apply SameMem.foldl | (simp only [SameMem.mk_iff]; apply SameMem.parts) | split | dsimp only

theorem State.endFlight_mem {s0 : State} {s : State} (q : Nat) (i : Nat) (status : Nat) (detail : Nat) (hs : SameMem s0 s) :
    SameMem s0 (State.endFlight s q i status detail) := by
  unfold State.endFlight
  repeat' with_reducible first
    | assumption | intro _ | apply State.modFlight_mem | apply SameMem.ite | apply SameMem.foldl | (simp only [SameMem.mk_iff]; apply SameMem.parts) | split
    | dsimp only

theorem State.modDomain_mem {s0 : State} {s : State} (f : Nat) (g : StepDomain → StepDomain) (hs : SameMem s0 s) :
    SameMem s0 (State.modDomain s f g) := by
  unfold State.modDomain
  repeat' with_reducible first
    | assumption | intro _ | apply State.setDomain_mem | apply SameMem.ite | apply SameMem.foldl | (simp only [SameMem.mk_iff]; apply SameMem.parts) | split
    | dsimp only

theorem State.closeRecords_mem {s0 : State} {s : State} (p : ErrRecord → Bool) (hs : SameMem s0 s) :
    SameMem s0 (State.closeRecords s p) := by
  unfold State.closeRecords
  repeat' with_reducible first
    | assumption | intro _
    | (extract_lets +onlyGivenNames x; clear_value (hx : x = _); first | refine SameMem.bind (s := s0) hx ?_ (fun _ => ?_) | (refine SameMem.isFaults x ?_; subst hx) | skip)
    | apply State.setFld_mem | apply SameMem.ite | apply SameMem.foldl | (simp only [SameMem.mk_iff]; apply SameMem.parts) | split | dsimp only

end Sys2Proof.Machine
end

