-- ==== Sys2Proof/Laws/SameMemTraffic.lean ====
section
/-!
SUPPORT. What the operations of Machine/Traffic.lean leave alone (Laws/SameMem.lean).
-/

set_option linter.all false

namespace Sys2Proof.Machine

theorem State.partAccess_mem {s0 : State} {s : State} (pk : Nat) (count : Nat) (line : Nat) (wr : Bool) (whole : Bool) (hs : SameMem s0 s) :
    SameMem s0 (State.partAccess s pk count line wr whole) := by
  unfold State.partAccess
  repeat' with_reducible first
    | assumption | intro _
    | (extract_lets +onlyGivenNames x; clear_value (hx : x = _); first | refine SameMem.bind (s := s0) hx ?_ (fun _ => ?_) | (refine SameMem.isFaults x ?_; subst hx) | (refine SameMem.isFun x ?_; subst hx) | skip)
    | apply State.count_mem | apply SameMem.ite | apply SameMem.foldl | (simp only [SameMem.mk_iff]; apply SameMem.parts) | split | dsimp only

theorem State.unitAccess_mem {s0 : State} {s : State} (a : Nat) (n : Nat) (wr : Bool) (hs : SameMem s0 s) :
    SameMem s0 (State.unitAccess s a n wr) := by
  unfold State.unitAccess
  repeat' with_reducible first
    | assumption | intro _
    | (extract_lets +onlyGivenNames x; clear_value (hx : x = _); first | refine SameMem.bind (s := s0) hx ?_ (fun _ => ?_) | (refine SameMem.isFaults x ?_; subst hx) | skip)
    | apply State.partAccess_mem | apply State.count_mem | apply SameMem.ite | apply SameMem.foldl | (simp only [SameMem.mk_iff]; apply SameMem.parts) | split
    | dsimp only

theorem State.markCopied_mem {s0 : State} {s : State} (a : Nat) (n : Nat) (hs : SameMem s0 s) :
    SameMem s0 (State.markCopied s a n) := by
  unfold State.markCopied
  repeat' with_reducible first
    | assumption | intro _
    | (extract_lets +onlyGivenNames x; clear_value (hx : x = _); first | refine SameMem.bind (s := s0) hx ?_ (fun _ => ?_) | (refine SameMem.isFaults x ?_; subst hx) | skip)
    | apply SameMem.ite | apply SameMem.foldl | (simp only [SameMem.mk_iff]; apply SameMem.parts) | split | dsimp only

theorem State.traffic_mem {s0 : State} {s : State} (a : Nat) (n : Nat) (wr : Bool) (hs : SameMem s0 s) :
    SameMem s0 (State.traffic s a n wr) := by
  unfold State.traffic
  repeat' with_reducible first
    | assumption | intro _
    | (extract_lets +onlyGivenNames x; clear_value (hx : x = _); first | refine SameMem.bind (s := s0) hx ?_ (fun _ => ?_) | (refine SameMem.isFaults x ?_; subst hx) | skip)
    | apply State.unitAccess_mem | apply State.markCopied_mem | apply SameMem.ite | apply SameMem.foldl | (simp only [SameMem.mk_iff]; apply SameMem.parts)
    | split | dsimp only

end Sys2Proof.Machine
end

