-- ==== Sys2Proof/Laws/SameMemEngine.lean ====
section
/-!
SUPPORT. What the operations of Machine/Engine.lean leave alone (Laws/SameMem.lean).
-/

set_option linter.all false

namespace Sys2Proof.Machine

theorem State.setCause_mem {s0 : State} {s : State} (f : Nat) (bit : Nat) (hs : SameMem s0 s) :
    SameMem s0 (State.setCause s f bit) := by
  unfold State.setCause
  repeat' with_reducible first
    | assumption | intro _ | apply State.setFld_mem | apply SameMem.ite | apply SameMem.foldl | (simp only [SameMem.mk_iff]; apply SameMem.parts) | split
    | dsimp only

theorem State.writePlace_mem {s0 : State} {s : State} (f : Nat) (a : Nat) (hs : SameMem s0 s) :
    SameMem s0 (State.writePlace s f a).1 := by
  unfold State.writePlace
  repeat' with_reducible first
    | assumption | intro _
    | (extract_lets +onlyGivenNames x; clear_value (hx : x = _); first | refine SameMem.bind (s := s0) hx ?_ (fun _ => ?_) | refine SameMem.bindFst (s := s0) hx ?_ (fun _ => ?_) | (refine SameMem.isFaults x ?_; subst hx) | skip)
    | apply State.purgeRange_mem | apply State.setCause_mem | apply State.modDomain_mem | apply SameMem.ite | apply SameMem.foldl
    | (simp only [SameMem.mk_iff]; apply SameMem.parts) | apply SameMem.iteFst | apply SameMem.iteSnd | refine SameMem.fstEq (by assumption) ?_ | split | dsimp only

theorem State.uncorrectable_mem {s0 : State} {s : State} (f : Nat) (q : Nat) (i : Nat) (a : Nat) (hs : SameMem s0 s) :
    SameMem s0 (State.uncorrectable s f q i a).1 := by
  unfold State.uncorrectable
  repeat' with_reducible first
    | assumption | intro _
    | (extract_lets +onlyGivenNames x; clear_value (hx : x = _); first | refine SameMem.bind (s := s0) hx ?_ (fun _ => ?_) | refine SameMem.bindFst (s := s0) hx ?_ (fun _ => ?_) | (refine SameMem.isFaults x ?_; subst hx) | skip)
    | apply State.record_mem | apply State.voidBlock_mem | apply State.count_mem | apply SameMem.ite | apply SameMem.foldl
    | (simp only [SameMem.mk_iff]; apply SameMem.parts) | apply SameMem.iteFst | apply SameMem.iteSnd | refine SameMem.fstEq (by assumption) ?_ | split | dsimp only

theorem JobSt.checkBlock_mem {s0 : State} {j : JobSt} (f : Nat) (q : Nat) (i : Nat) (verify : Bool) (a : Nat) (hj : SameMem s0 j.st) :
    SameMem s0 (JobSt.checkBlock j f q i verify a).st := by
  unfold JobSt.checkBlock
  repeat' with_reducible first
    | assumption | intro _
    | (extract_lets +onlyGivenNames x; clear_value (hx : x = _); first | refine SameMem.bind (s := s0) hx ?_ (fun _ => ?_) | refine SameMem.bindFst (s := s0) hx ?_ (fun _ => ?_) | refine SameMem.bindJob (s := s0) hx ?_ (fun _ => ?_) | refine SameMem.bindRes (s := s0) hx ?_ (fun _ => ?_) | (refine SameMem.isFaults x ?_; subst hx) | skip)
    | apply State.record_mem | apply State.uncorrectable_mem | apply State.count_mem | apply SameMem.ite | apply SameMem.foldl
    | (simp only [SameMem.mk_iff]; apply SameMem.parts) | apply SameMem.iteFst | apply SameMem.iteSnd | apply SameMem.iteJob | apply SameMem.foldlJob
    | refine SameMem.fstEq (by assumption) ?_ | split | dsimp only

theorem JobSt.checkRange_mem {s0 : State} {j : JobSt} (f : Nat) (q : Nat) (i : Nat) (verify : Bool) (a : Nat) (n : Nat) (hj : SameMem s0 j.st) :
    SameMem s0 (JobSt.checkRange j f q i verify a n).st := by
  unfold JobSt.checkRange
  repeat' with_reducible first
    | assumption | intro _
    | (extract_lets +onlyGivenNames x; clear_value (hx : x = _); first | refine SameMem.bind (s := s0) hx ?_ (fun _ => ?_) | refine SameMem.bindJob (s := s0) hx ?_ (fun _ => ?_) | refine SameMem.bindRes (s := s0) hx ?_ (fun _ => ?_) | (refine SameMem.isFaults x ?_; subst hx) | skip)
    | apply State.traffic_mem | apply JobSt.checkBlock_mem | apply SameMem.ite | apply SameMem.foldl | (simp only [SameMem.mk_iff]; apply SameMem.parts)
    | apply SameMem.iteJob | apply SameMem.foldlJob | split | dsimp only

theorem State.sealBlocks_mem {s0 : State} {s : State} (rs : List (Nat × Nat)) (hs : SameMem s0 s) :
    SameMem s0 (State.sealBlocks s rs) := by
  unfold State.sealBlocks
  repeat' with_reducible first
    | assumption | intro _ | apply State.count_mem | apply State.setSyndrome_mem | apply SameMem.ite | apply SameMem.foldl
    | (simp only [SameMem.mk_iff]; apply SameMem.parts) | split | dsimp only

theorem State.engine_mem {s0 : State} {s : State} (q : Nat) (i : Nat) (opcode : Nat) (k : Flight → State) (hs : SameMem s0 s) (hk : ∀ y0, SameMem s0 (k y0)) :
    SameMemR s0 (State.engine s q i opcode k) := by
  unfold State.engine
  repeat' with_reducible first
    | assumption | intro _ | apply State.endFlight_mem | apply hk | apply SameMemR.next | exact SameMemR.fault | exact SameMemR.refused | apply SameMemR.onUnit
    | apply SameMemR.ite | apply SameMem.ite | apply SameMem.foldl | (simp only [SameMem.mk_iff]; apply SameMem.parts) | split | dsimp only

theorem JobResult.finish_mem {s0 : State} {r : JobResult} (q : Nat) (i : Nat) (fl : Flags) (hr : SameMem s0 r.st) :
    SameMem s0 (JobResult.finish r q i fl) := by
  unfold JobResult.finish
  repeat' with_reducible first
    | assumption | intro _ | apply State.modFlight_mem | apply SameMem.ite | apply SameMem.foldl | (simp only [SameMem.mk_iff]; apply SameMem.parts) | split
    | dsimp only

end Sys2Proof.Machine
end

