-- ==== Sys2Proof/Laws/SameMemTraceLog.lean ====
section
/-!
SUPPORT. What the operations of Machine/TraceLog.lean leave alone (Laws/SameMem.lean).
-/

set_option linter.all false

namespace Sys2Proof.Machine

theorem State.traceWr_mem {s0 : State} {s : State} (k : Nat) (hs : SameMem s0 s) :
    SameMem s0 (State.traceWr s k) := by
  unfold State.traceWr
  repeat' with_reducible first
    | assumption | intro _
    | (extract_lets +onlyGivenNames x; clear_value (hx : x = _); first | refine SameMem.bind (s := s0) hx ?_ (fun _ => ?_) | (refine SameMem.isFaults x ?_; subst hx) | skip)
    | apply State.setReg_mem | apply SameMem.ite | apply SameMem.foldl | (simp only [SameMem.mk_iff]; apply SameMem.parts) | split | dsimp only

theorem State.setTraceBuf_mem {s0 : State} {s : State} (k : Nat) (b : TraceBuf) (hs : SameMem s0 s) :
    SameMem s0 (State.setTraceBuf s k b) := by
  unfold State.setTraceBuf
  repeat' with_reducible first
    | assumption | intro _ | apply SameMem.ite | apply SameMem.foldl | (simp only [SameMem.mk_iff]; apply SameMem.parts) | split | dsimp only

theorem State.trace_mem {s0 : State} {s : State} (k : Nat) (kind : Nat) (core : Nat) (queue : Nat) (opcode : Nat) (info : Nat) (hs : SameMem s0 s) :
    SameMem s0 (State.trace s k kind core queue opcode info) := by
  unfold State.trace
  repeat' with_reducible first
    | assumption | intro _
    | (extract_lets +onlyGivenNames x; clear_value (hx : x = _); first | refine SameMem.bind (s := s0) hx ?_ (fun _ => ?_) | refine SameMem.bindSnd (s := s0) hx ?_ (fun _ => ?_) | (refine SameMem.isFaults x ?_; subst hx) | skip)
    | apply State.draw_mem | apply State.traceWr_mem | apply State.setTraceBuf_mem | apply SameMem.ite | apply SameMem.foldl
    | (simp only [SameMem.mk_iff]; apply SameMem.parts) | apply SameMem.iteFst | apply SameMem.iteSnd | refine SameMem.sndEq (by assumption) ?_ | split | dsimp only

theorem State.traceCore_mem {s0 : State} {s : State} (c : Nat) (kind : Nat) (queue : Nat) (opcode : Nat) (info : Nat) (hs : SameMem s0 s) :
    SameMem s0 (State.traceCore s c kind queue opcode info) := by
  unfold State.traceCore
  repeat' with_reducible first
    | assumption | intro _ | apply State.trace_mem | apply SameMem.ite | apply SameMem.foldl | (simp only [SameMem.mk_iff]; apply SameMem.parts) | split
    | dsimp only

end Sys2Proof.Machine
end

