-- ==== Sys2Proof/Laws/SameMemRails.lean ====
section
/-!
SUPPORT. What the operations of Machine/Rails.lean leave alone (Laws/SameMem.lean).
-/

set_option linter.all false

namespace Sys2Proof.Machine

theorem State.sendFrame_mem {s0 : State} {s : State} (rail : Nat) (mv : Nat) (repeats : Nat) (hs : SameMem s0 s) :
    SameMem s0 (State.sendFrame s rail mv repeats) := by
  unfold State.sendFrame
  repeat' with_reducible first
    | assumption | intro _
    | (extract_lets +onlyGivenNames x; clear_value (hx : x = _); first | refine SameMem.bind (s := s0) hx ?_ (fun _ => ?_) | (refine SameMem.isFaults x ?_; subst hx) | skip)
    | apply State.send_mem | apply SameMem.ite | apply SameMem.foldl | (simp only [SameMem.mk_iff]; apply SameMem.parts) | split | dsimp only

theorem State.voltStep_mem {s0 : State} {s : State} (k : Nat) (mv : Nat) (hs : SameMem s0 s) :
    SameMem s0 (State.voltStep s k mv) := by
  unfold State.voltStep
  repeat' with_reducible first
    | assumption | intro _
    | (extract_lets +onlyGivenNames x; clear_value (hx : x = _); first | refine SameMem.bind (s := s0) hx ?_ (fun _ => ?_) | (refine SameMem.isFaults x ?_; subst hx) | skip)
    | apply State.sendFrame_mem | apply State.setFld_mem | apply State.count_mem | apply SameMem.ite | apply SameMem.foldl
    | (simp only [SameMem.mk_iff]; apply SameMem.parts) | split | dsimp only

end Sys2Proof.Machine
end

