-- ==== Sys2Proof/Laws/SameMemEscapement.lean ====
section
/-!
SUPPORT. What the operations of Machine/Escapement.lean leave alone (Laws/SameMem.lean).
-/

set_option linter.all false

namespace Sys2Proof.Machine

theorem State.release_mem {s0 : State} {s : State} (o : Owner) (hs : SameMem s0 s) :
    SameMem s0 (State.release s o) := by
  unfold State.release
  repeat' with_reducible first
    | assumption | intro _
    | (extract_lets +onlyGivenNames x; clear_value (hx : x = _); first | refine SameMem.bind (s := s0) hx ?_ (fun _ => ?_) | (refine SameMem.isFaults x ?_; subst hx) | skip)
    | apply SameMem.ite | apply SameMem.foldl | (simp only [SameMem.mk_iff]; apply SameMem.parts) | split | dsimp only

theorem State.setFstep_mem {s0 : State} {s : State} (k : Nat) (f : Nat) (hs : SameMem s0 s) :
    SameMem s0 (State.setFstep s k f) := by
  unfold State.setFstep
  repeat' with_reducible first
    | assumption | intro _ | apply State.setFld_mem | apply State.count_mem | apply SameMem.ite | apply SameMem.foldl
    | (simp only [SameMem.mk_iff]; apply SameMem.parts) | split | dsimp only

theorem State.rescale_mem {s0 : State} {s : State} (k : Nat) (hs : SameMem s0 s) :
    SameMem s0 (State.rescale s k) := by
  unfold State.rescale
  repeat' with_reducible first
    | assumption | intro _
    | (extract_lets +onlyGivenNames x; clear_value (hx : x = _); first | refine SameMem.bind (s := s0) hx ?_ (fun _ => ?_) | (refine SameMem.isFaults x ?_; subst hx) | skip)
    | apply SameMem.ite | apply SameMem.foldl | (simp only [SameMem.mk_iff]; apply SameMem.parts) | split | dsimp only

theorem State.stepEnd_mem {s0 : State} {s : State} (k : Nat) (hs : SameMem s0 s) :
    SameMem s0 (State.stepEnd s k) := by
  unfold State.stepEnd
  repeat' with_reducible first
    | assumption | intro _
    | (extract_lets +onlyGivenNames x; clear_value (hx : x = _); first | refine SameMem.bind (s := s0) hx ?_ (fun _ => ?_) | (refine SameMem.isFaults x ?_; subst hx) | skip)
    | apply State.rescale_mem | apply State.release_mem | apply SameMem.ite | apply SameMem.foldl | (simp only [SameMem.mk_iff]; apply SameMem.parts) | split
    | dsimp only

theorem State.stepAdvance_mem {s0 : State} {s : State} (k : Nat) (hs : SameMem s0 s) :
    SameMem s0 (State.stepAdvance s k) := by
  unfold State.stepAdvance
  repeat' with_reducible first
    | assumption | intro _
    | (extract_lets +onlyGivenNames x; clear_value (hx : x = _); first | refine SameMem.bind (s := s0) hx ?_ (fun _ => ?_) | (refine SameMem.isFaults x ?_; subst hx) | skip)
    | apply State.setFstep_mem | apply State.voltStep_mem | apply State.stepEnd_mem | apply SameMem.ite | apply SameMem.foldl
    | (simp only [SameMem.mk_iff]; apply SameMem.parts) | split | dsimp only

theorem State.powerOwner_mem {s0 : State} {s : State} (o : Owner) (hs : SameMem s0 s) :
    SameMem s0 (State.powerOwner s o) := by
  unfold State.powerOwner
  repeat' with_reducible first
    | assumption | intro _
    | (extract_lets +onlyGivenNames x; clear_value (hx : x = _); first | refine SameMem.bind (s := s0) hx ?_ (fun _ => ?_) | (refine SameMem.isFaults x ?_; subst hx) | skip)
    | apply State.modCore_mem | apply State.modFlight_mem | apply State.stepAdvance_mem | apply SameMem.ite | apply SameMem.foldl
    | (simp only [SameMem.mk_iff]; apply SameMem.parts) | split | dsimp only

theorem State.enter_mem {s0 : State} {s : State} (q : EscReq) (w : Nat) (hs : SameMem s0 s) :
    SameMem s0 (State.enter s q w) := by
  unfold State.enter
  repeat' with_reducible first
    | assumption | intro _
    | (extract_lets +onlyGivenNames x; clear_value (hx : x = _); first | refine SameMem.bind (s := s0) hx ?_ (fun _ => ?_) | (refine SameMem.isFaults x ?_; subst hx) | skip)
    | apply State.powerOwner_mem | apply State.count_mem | apply SameMem.ite | apply SameMem.foldl | (simp only [SameMem.mk_iff]; apply SameMem.parts) | split
    | dsimp only

theorem State.ask_mem {s0 : State} {s : State} (q : EscReq) (hs : SameMem s0 s) :
    SameMem s0 (State.ask s q) := by
  unfold State.ask
  repeat' with_reducible first
    | assumption | intro _
    | (extract_lets +onlyGivenNames x; clear_value (hx : x = _); first | refine SameMem.bind (s := s0) hx ?_ (fun _ => ?_) | (refine SameMem.isFaults x ?_; subst hx) | skip)
    | apply State.enter_mem | apply SameMem.ite | apply SameMem.foldl | (simp only [SameMem.mk_iff]; apply SameMem.parts) | split | dsimp only

theorem State.prebook_mem {s0 : State} {s : State} (q : Nat) (core : Nat) (index : Nat) (cmd : List Byte) (hs : SameMem s0 s) :
    SameMem s0 (State.prebook s q core index cmd) := by
  unfold State.prebook
  repeat' with_reducible first
    | assumption | intro _ | apply State.ask_mem | apply SameMem.ite | apply SameMem.foldl | (simp only [SameMem.mk_iff]; apply SameMem.parts) | split
    | dsimp only

theorem State.escGrant_mem {s0 : State} {s : State} (r : Nat) (hs : SameMem s0 s) :
    SameMem s0 (State.escGrant s r) := by
  unfold State.escGrant
  repeat' with_reducible first
    | assumption | intro _
    | (extract_lets +onlyGivenNames x; clear_value (hx : x = _); first | refine SameMem.bind (s := s0) hx ?_ (fun _ => ?_) | (refine SameMem.isFaults x ?_; subst hx) | skip)
    | apply State.enter_mem | apply SameMem.ite | apply SameMem.foldl | (simp only [SameMem.mk_iff]; apply SameMem.parts) | split | dsimp only

theorem execEscGrant_mem {s0 : State} (r : Nat) {s : State} (hs : SameMem s0 s) :
    SameMemR s0 (execEscGrant r s) := by
  unfold execEscGrant
  repeat' with_reducible first
    | assumption | intro _ | apply onUnit_mem | apply State.escGrant_mem | apply SameMemR.next | exact SameMemR.fault | exact SameMemR.refused
    | apply SameMemR.onUnit | apply SameMemR.ite | apply SameMem.ite | apply SameMem.foldl | (simp only [SameMem.mk_iff]; apply SameMem.parts) | split | dsimp only

theorem State.hangs_mem {s0 : State} {s : State} (fl : Flight) (hs : SameMem s0 s) :
    SameMemO (fun x => x) s0 (State.hangs s fl) := by
  unfold State.hangs
  repeat' with_reducible first
    | assumption | intro _
    | (extract_lets +onlyGivenNames x; clear_value (hx : x = _); first | refine SameMem.bind (s := s0) hx ?_ (fun _ => ?_) | (refine SameMem.isFaults x ?_; subst hx) | skip)
    | exact SameMemO.none | apply SameMemO.some | apply SameMemO.ite | apply SameMem.ite | apply SameMem.foldl | (simp only [SameMem.mk_iff]; apply SameMem.parts)
    | refine SameMem.optEq (by assumption) ?_ | apply SameMem.getD | split | dsimp only

theorem State.rename_mem {s0 : State} {s : State} (o : Owner) (o' : Owner) (hs : SameMem s0 s) :
    SameMem s0 (State.rename s o o') := by
  unfold State.rename
  repeat' with_reducible first
    | assumption | intro _
    | (extract_lets +onlyGivenNames x; clear_value (hx : x = _); first | refine SameMem.bind (s := s0) hx ?_ (fun _ => ?_) | (refine SameMem.isFaults x ?_; subst hx) | skip)
    | apply SameMem.ite | apply SameMem.foldl | (simp only [SameMem.mk_iff]; apply SameMem.parts) | split | dsimp only

theorem State.bookCommand_mem {s0 : State} {s : State} (q : Nat) (i : Nat) (core : Nat) (cmd : List Byte) (hs : SameMem s0 s) :
    SameMem s0 (State.bookCommand s q i core cmd) := by
  unfold State.bookCommand
  repeat' with_reducible first
    | assumption | intro _
    | (extract_lets +onlyGivenNames x; clear_value (hx : x = _); first | refine SameMem.bind (s := s0) hx ?_ (fun _ => ?_) | (refine SameMem.isFaults x ?_; subst hx) | skip)
    | apply State.powerOwner_mem | apply State.rename_mem | apply State.ask_mem | apply State.modFlight_mem | apply State.count_mem | apply SameMem.ite
    | apply SameMem.foldl | (simp only [SameMem.mk_iff]; apply SameMem.parts) | split | dsimp only

theorem State.dispatch_mem {s0 : State} {s : State} (q : Nat) (i : Nat) (op : Nat) (bad : Flight → Option Nat) (k : State → Flight → State) (hs : SameMem s0 s) (hk : ∀ y0 y1, SameMem s0 y0 → SameMem s0 (k y0 y1)) :
    SameMemR s0 (State.dispatch s q i op bad k) := by
  unfold State.dispatch
  repeat' with_reducible first
    | assumption | intro _
    | (extract_lets +onlyGivenNames x; clear_value (hx : x = _); first | refine SameMem.bind (s := s0) hx ?_ (fun _ => ?_) | (refine SameMem.isFaults x ?_; subst hx) | skip)
    | apply State.hangs_mem | apply State.bookCommand_mem | apply State.endFlight_mem | apply State.engine_mem | apply State.release_mem | apply hk
    | apply SameMemR.next | exact SameMemR.fault | exact SameMemR.refused | apply SameMemR.onUnit | apply SameMemR.ite | apply SameMem.ite | apply SameMem.foldl
    | (simp only [SameMem.mk_iff]; apply SameMem.parts) | refine SameMem.optEq (by assumption) ?_ | apply SameMem.getD | split | dsimp only

theorem State.askSys_mem {s0 : State} {s : State} (r : Nat) (ca : Nat) (windows : Option Nat) (perm : Bool) (o : Owner) (hs : SameMem s0 s) :
    SameMem s0 (State.askSys s r ca windows perm o) := by
  unfold State.askSys
  repeat' with_reducible first
    | assumption | intro _ | apply State.ask_mem | apply SameMem.ite | apply SameMem.foldl | (simp only [SameMem.mk_iff]; apply SameMem.parts) | split
    | dsimp only

theorem State.escWindow_mem {s0 : State} {s : State} (hs : SameMem s0 s) :
    SameMem s0 (State.escWindow s) := by
  unfold State.escWindow
  repeat' with_reducible first
    | assumption | intro _
    | (extract_lets +onlyGivenNames x; clear_value (hx : x = _); first | refine SameMem.bind (s := s0) hx ?_ (fun _ => ?_) | (refine SameMem.isFaults x ?_; subst hx) | skip)
    | apply State.count_mem | apply SameMem.ite | apply SameMem.foldl | (simp only [SameMem.mk_iff]; apply SameMem.parts) | split | dsimp only

theorem State.dropPre_mem {s0 : State} {s : State} (q : Nat) (i : Nat) (hs : SameMem s0 s) :
    SameMem s0 (State.dropPre s q i) := by
  unfold State.dropPre
  repeat' with_reducible first
    | assumption | intro _ | apply State.count_mem | apply State.release_mem | apply SameMem.ite | apply SameMem.foldl
    | (simp only [SameMem.mk_iff]; apply SameMem.parts) | split | dsimp only

theorem State.prebookExpiry_mem {s0 : State} {s : State} (q : Nat) (i : Nat) (hs : SameMem s0 s) :
    SameMem s0 (State.prebookExpiry s q i) := by
  unfold State.prebookExpiry
  repeat' with_reducible first
    | assumption | intro _ | apply State.count_mem | apply State.release_mem | apply SameMem.ite | apply SameMem.foldl
    | (simp only [SameMem.mk_iff]; apply SameMem.parts) | split | dsimp only

theorem execPrebookExpiry_mem {s0 : State} (q : Nat) (i : Nat) {s : State} (hs : SameMem s0 s) :
    SameMemR s0 (execPrebookExpiry q i s) := by
  unfold execPrebookExpiry
  repeat' with_reducible first
    | assumption | intro _ | apply onUnit_mem | apply State.prebookExpiry_mem | apply SameMemR.next | exact SameMemR.fault | exact SameMemR.refused
    | apply SameMemR.onUnit | apply SameMemR.ite | apply SameMem.ite | apply SameMem.foldl | (simp only [SameMem.mk_iff]; apply SameMem.parts) | split | dsimp only

theorem State.learn_mem {s0 : State} {s : State} (cmd : List Byte) (booked : Nat) (m : Nat) (withheld : Bool) (hs : SameMem s0 s) :
    SameMem s0 (State.learn s cmd booked m withheld) := by
  unfold State.learn
  repeat' with_reducible first
    | assumption | intro _
    | (extract_lets +onlyGivenNames x; clear_value (hx : x = _); first | refine SameMem.bind (s := s0) hx ?_ (fun _ => ?_) | (refine SameMem.isFaults x ?_; subst hx) | skip)
    | apply State.setFld_mem | apply SameMem.ite | apply SameMem.foldl | (simp only [SameMem.mk_iff]; apply SameMem.parts) | split | dsimp only

end Sys2Proof.Machine
end

