-- ==== Sys2Proof/Laws/SameMemQueues.lean ====
section
/-!
SUPPORT. What the operations of Machine/Queues.lean leave alone (Laws/SameMem.lean).
-/

set_option linter.all false

namespace Sys2Proof.Machine

theorem State.resume_mem {s0 : State} {s : State} (f : Nat) (q : Nat) (x : Queue) (hs : SameMem s0 s) :
    SameMem s0 (State.resume s f q x) := by
  unfold State.resume
  repeat' with_reducible first
    | assumption | intro _
    | (extract_lets +onlyGivenNames x; clear_value (hx : x = _); first | refine SameMem.bind (s := s0) hx ?_ (fun _ => ?_) | (refine SameMem.isFaults x ?_; subst hx) | skip)
    | apply State.closeRecords_mem | apply State.setQueue_mem | apply SameMem.ite | apply SameMem.foldl | (simp only [SameMem.mk_iff]; apply SameMem.parts)
    | split | dsimp only

theorem State.prebookHead_mem {s0 : State} {s : State} (kv : Nat × Queue) (hs : SameMem s0 s) :
    SameMem s0 (State.prebookHead s kv) := by
  unfold State.prebookHead
  repeat' with_reducible first
    | assumption | intro _
    | (extract_lets +onlyGivenNames x; clear_value (hx : x = _); first | refine SameMem.bind (s := s0) hx ?_ (fun _ => ?_) | (refine SameMem.isFaults x ?_; subst hx) | skip)
    | apply State.setQueue_mem | apply State.prebook_mem | apply SameMem.ite | apply SameMem.foldl | (simp only [SameMem.mk_iff]; apply SameMem.parts) | split
    | dsimp only

theorem State.refreshHeads_mem {s0 : State} {x1 : State} (hx1 : SameMem s0 x1) :
    SameMem s0 (State.refreshHeads x1) := by
  unfold State.refreshHeads
  repeat' with_reducible first
    | assumption | intro _
    | (extract_lets +onlyGivenNames x; clear_value (hx : x = _); first | refine SameMem.bind (s := s0) hx ?_ (fun _ => ?_) | (refine SameMem.isFaults x ?_; subst hx) | skip)
    | apply State.prebookHead_mem | apply State.setFld_mem | apply SameMem.ite | apply SameMem.foldl | (simp only [SameMem.mk_iff]; apply SameMem.parts) | split
    | dsimp only

theorem State.qcmdErr_mem {s0 : State} {s : State} (f : Nat) (code : Nat) (hs : SameMem s0 s) :
    SameMem s0 (State.qcmdErr s f code) := by
  unfold State.qcmdErr
  repeat' with_reducible first
    | assumption | intro _ | apply State.setFld_mem | apply SameMem.ite | apply SameMem.foldl | (simp only [SameMem.mk_iff]; apply SameMem.parts) | split
    | dsimp only

theorem State.actOn_mem {s0 : State} {s : State} (f : Nat) (q : Nat) (bad : Queue → Option Nat) (act : Queue → State) (hs : SameMem s0 s) (hact : ∀ y0, SameMem s0 (act y0)) :
    SameMem s0 (State.actOn s f q bad act) := by
  unfold State.actOn
  repeat' with_reducible first
    | assumption | intro _
    | (extract_lets +onlyGivenNames x; clear_value (hx : x = _); first | refine SameMem.bind (s := s0) hx ?_ (fun _ => ?_) | (refine SameMem.isFaults x ?_; subst hx) | skip)
    | apply State.refreshHeads_mem | apply State.qcmdErr_mem | apply hact | apply SameMem.ite | apply SameMem.foldl
    | (simp only [SameMem.mk_iff]; apply SameMem.parts) | split | dsimp only

theorem State.resumeOn_mem {s0 : State} {s : State} (f : Nat) (q : Nat) (hs : SameMem s0 s) :
    SameMem s0 (State.resumeOn s f q) := by
  unfold State.resumeOn
  repeat' with_reducible first
    | assumption | intro _ | apply State.resume_mem | apply State.actOn_mem | apply SameMem.ite | apply SameMem.foldl
    | (simp only [SameMem.mk_iff]; apply SameMem.parts) | split | dsimp only

theorem State.queueAction_mem {s0 : State} {s : State} (f : Nat) (action : Nat) (core : Nat) (run : State → Nat → State) (hs : SameMem s0 s) (hrun : ∀ y0 y1, SameMem s0 y0 → SameMem s0 (run y0 y1)) :
    SameMem s0 (State.queueAction s f action core run) := by
  unfold State.queueAction
  repeat' with_reducible first
    | assumption | intro _
    | (extract_lets +onlyGivenNames x; clear_value (hx : x = _); first | refine SameMem.bind (s := s0) hx ?_ (fun _ => ?_) | (refine SameMem.isFaults x ?_; subst hx) | skip)
    | apply State.modQueue_mem | apply hrun | apply SameMem.ite | apply SameMem.foldl | (simp only [SameMem.mk_iff]; apply SameMem.parts) | split | dsimp only

theorem execQueueResume_mem {s0 : State} (f : Nat) {s : State} (hs : SameMem s0 s) :
    SameMemR s0 (execQueueResume f s) := by
  unfold execQueueResume
  repeat' with_reducible first
    | assumption | intro _ | apply State.resumeOn_mem | apply onUnit_mem | apply State.queueAction_mem | apply SameMemR.next | exact SameMemR.fault
    | exact SameMemR.refused | apply SameMemR.onUnit | apply SameMemR.ite | apply SameMem.ite | apply SameMem.foldl | (simp only [SameMem.mk_iff]; apply SameMem.parts)
    | split | dsimp only

theorem State.dlqFullBit_mem {s0 : State} {s : State} (f : Nat) (hs : SameMem s0 s) :
    SameMem s0 (State.dlqFullBit s f) := by
  unfold State.dlqFullBit
  repeat' with_reducible first
    | assumption | intro _
    | (extract_lets +onlyGivenNames x; clear_value (hx : x = _); first | refine SameMem.bind (s := s0) hx ?_ (fun _ => ?_) | (refine SameMem.isFaults x ?_; subst hx) | skip)
    | apply State.setFld_mem | apply SameMem.ite | apply SameMem.foldl | (simp only [SameMem.mk_iff]; apply SameMem.parts) | split | dsimp only

theorem State.setLetters_mem {s0 : State} {s : State} (f : Nat) (d : DeadLetters) (hs : SameMem s0 s) :
    SameMem s0 (State.setLetters s f d) := by
  unfold State.setLetters
  repeat' with_reducible first
    | assumption | intro _ | apply SameMem.ite | apply SameMem.foldl | (simp only [SameMem.mk_iff]; apply SameMem.parts) | split | dsimp only

theorem State.dropLetter_mem {s0 : State} {s : State} (f : Nat) (hs : SameMem s0 s) :
    SameMem s0 (State.dropLetter s f) := by
  unfold State.dropLetter
  repeat' with_reducible first
    | assumption | intro _
    | (extract_lets +onlyGivenNames x; clear_value (hx : x = _); first | refine SameMem.bind (s := s0) hx ?_ (fun _ => ?_) | (refine SameMem.isFaults x ?_; subst hx) | skip)
    | apply State.setFld_mem | apply State.setLetters_mem | apply State.count_mem | apply SameMem.ite | apply SameMem.foldl
    | (simp only [SameMem.mk_iff]; apply SameMem.parts) | split | dsimp only

theorem State.settleQueue_mem {s0 : State} {s : State} (q : Nat) (hs : SameMem s0 s) :
    SameMem s0 (State.settleQueue s q) := by
  unfold State.settleQueue
  repeat' with_reducible first
    | assumption | intro _
    | (extract_lets +onlyGivenNames x; clear_value (hx : x = _); first | refine SameMem.bind (s := s0) hx ?_ (fun _ => ?_) | (refine SameMem.isFaults x ?_; subst hx) | skip)
    | apply State.setQueue_mem | apply SameMem.ite | apply SameMem.foldl | (simp only [SameMem.mk_iff]; apply SameMem.parts) | split | dsimp only

theorem State.queueError_mem {s0 : State} {s : State} (q : Nat) (reason : Nat) (hs : SameMem s0 s) :
    SameMem s0 (State.queueError s q reason) := by
  unfold State.queueError
  repeat' with_reducible first
    | assumption | intro _ | apply State.modQueue_mem | apply SameMem.ite | apply SameMem.foldl | (simp only [SameMem.mk_iff]; apply SameMem.parts) | split
    | dsimp only

theorem State.pauseOn_mem {s0 : State} {s : State} (f : Nat) (q : Nat) (hs : SameMem s0 s) :
    SameMem s0 (State.pauseOn s f q) := by
  unfold State.pauseOn
  repeat' with_reducible first
    | assumption | intro _ | apply State.setQueue_mem | apply State.actOn_mem | apply SameMem.ite | apply SameMem.foldl
    | (simp only [SameMem.mk_iff]; apply SameMem.parts) | split | dsimp only

theorem execQueuePause_mem {s0 : State} (f : Nat) {s : State} (hs : SameMem s0 s) :
    SameMemR s0 (execQueuePause f s) := by
  unfold execQueuePause
  repeat' with_reducible first
    | assumption | intro _ | apply onUnit_mem | apply State.queueAction_mem | apply State.pauseOn_mem | apply SameMemR.next | exact SameMemR.fault
    | exact SameMemR.refused | apply SameMemR.onUnit | apply SameMemR.ite | apply SameMem.ite | apply SameMem.foldl | (simp only [SameMem.mk_iff]; apply SameMem.parts)
    | split | dsimp only

theorem State.disableOn_mem {s0 : State} {s : State} (f : Nat) (q : Nat) (hs : SameMem s0 s) :
    SameMem s0 (State.disableOn s f q) := by
  unfold State.disableOn
  repeat' with_reducible first
    | assumption | intro _ | apply State.setQueue_mem | apply State.settleQueue_mem | apply State.actOn_mem | apply SameMem.ite | apply SameMem.foldl
    | (simp only [SameMem.mk_iff]; apply SameMem.parts) | split | dsimp only

theorem execQueueDisable_mem {s0 : State} (f : Nat) {s : State} (hs : SameMem s0 s) :
    SameMemR s0 (execQueueDisable f s) := by
  unfold execQueueDisable
  repeat' with_reducible first
    | assumption | intro _ | apply onUnit_mem | apply State.queueAction_mem | apply State.disableOn_mem | apply SameMemR.next | exact SameMemR.fault
    | exact SameMemR.refused | apply SameMemR.onUnit | apply SameMemR.ite | apply SameMem.ite | apply SameMem.foldl | (simp only [SameMem.mk_iff]; apply SameMem.parts)
    | split | dsimp only

theorem State.enableOn_mem {s0 : State} {s : State} (f : Nat) (core : Nat) (q : Nat) (hs : SameMem s0 s) :
    SameMem s0 (State.enableOn s f core q) := by
  unfold State.enableOn
  repeat' with_reducible first
    | assumption | intro _ | apply State.setQueue_mem | apply State.setFld_mem | apply State.actOn_mem | apply SameMem.ite | apply SameMem.foldl
    | (simp only [SameMem.mk_iff]; apply SameMem.parts) | split | dsimp only

theorem execNotBeforeReached_mem {s0 : State} (q : Nat) {s : State} (hs : SameMem s0 s) :
    SameMemR s0 (execNotBeforeReached q s) := by
  unfold execNotBeforeReached
  repeat' with_reducible first
    | assumption | intro _ | apply onUnit_mem | apply State.refreshHeads_mem | apply SameMemR.next | exact SameMemR.fault | exact SameMemR.refused
    | apply SameMemR.onUnit | apply SameMemR.ite | apply SameMem.ite | apply SameMem.foldl | (simp only [SameMem.mk_iff]; apply SameMem.parts) | split | dsimp only

theorem execDlqBaseWrite_mem {s0 : State} (f : Nat) (val : Nat) {s : State} (hs : SameMem s0 s) :
    SameMemR s0 (execDlqBaseWrite f val s) := by
  unfold execDlqBaseWrite
  repeat' with_reducible first
    | assumption | intro _ | apply State.setReg_mem | apply State.dlqFullBit_mem | apply State.setLetters_mem | apply onUnit_mem | apply SameMemR.next
    | exact SameMemR.fault | exact SameMemR.refused | apply SameMemR.onUnit | apply SameMemR.ite | apply SameMem.ite | apply SameMem.foldl
    | (simp only [SameMem.mk_iff]; apply SameMem.parts) | split | dsimp only

theorem State.promote_mem {s0 : State} {s : State} (q : Nat) (hs : SameMem s0 s) :
    SameMem s0 (State.promote s q) := by
  unfold State.promote
  repeat' with_reducible first
    | assumption | intro _
    | (extract_lets +onlyGivenNames x; clear_value (hx : x = _); first | refine SameMem.bind (s := s0) hx ?_ (fun _ => ?_) | (refine SameMem.isFaults x ?_; subst hx) | skip)
    | apply State.setQueue_mem | apply State.refreshHeads_mem | apply SameMem.ite | apply SameMem.foldl | (simp only [SameMem.mk_iff]; apply SameMem.parts)
    | split | dsimp only

theorem execAgePromotion_mem {s0 : State} (q : Nat) {s : State} (hs : SameMem s0 s) :
    SameMemR s0 (execAgePromotion q s) := by
  unfold execAgePromotion
  repeat' with_reducible first
    | assumption | intro _ | apply onUnit_mem | apply State.promote_mem | apply SameMemR.next | exact SameMemR.fault | exact SameMemR.refused
    | apply SameMemR.onUnit | apply SameMemR.ite | apply SameMem.ite | apply SameMem.foldl | (simp only [SameMem.mk_iff]; apply SameMem.parts) | split | dsimp only

theorem execQueueEnable_mem {s0 : State} (f : Nat) (core : Nat) {s : State} (hs : SameMem s0 s) :
    SameMemR s0 (execQueueEnable f core s) := by
  unfold execQueueEnable
  repeat' with_reducible first
    | assumption | intro _ | apply onUnit_mem | apply State.queueAction_mem | apply State.enableOn_mem | apply SameMemR.next | exact SameMemR.fault
    | exact SameMemR.refused | apply SameMemR.onUnit | apply SameMemR.ite | apply SameMem.ite | apply SameMem.foldl | (simp only [SameMem.mk_iff]; apply SameMem.parts)
    | split | dsimp only

end Sys2Proof.Machine
end

