-- ==== Sys2Proof/Laws/SameMemSorterGrant.lean ====
section
/-!
SUPPORT. What the operations of Machine/SorterGrant.lean leave alone (Laws/SameMem.lean).
-/

set_option linter.all false

namespace Sys2Proof.Machine

theorem State.noteSlip_mem {s0 : State} {s : State} (f : Nat) (cmd : List Byte) (hs : SameMem s0 s) :
    SameMem s0 (State.noteSlip s f cmd) := by
  unfold State.noteSlip
  repeat' with_reducible first
    | assumption | intro _ | apply State.modDomain_mem | apply SameMem.ite | apply SameMem.foldl | (simp only [SameMem.mk_iff]; apply SameMem.parts) | split
    | dsimp only

theorem State.grantQueue_mem {s0 : State} {s : State} (q : Nat) (hs : SameMem s0 s) :
    SameMem s0 (State.grantQueue s q) := by
  unfold State.grantQueue
  repeat' with_reducible first
    | assumption | intro _
    | (extract_lets +onlyGivenNames x; clear_value (hx : x = _); first | refine SameMem.bind (s := s0) hx ?_ (fun _ => ?_) | (refine SameMem.isFaults x ?_; subst hx) | skip)
    | apply State.traceCore_mem | apply State.noteSlip_mem | apply State.setQueue_mem | apply State.refreshHeads_mem | apply State.count_mem
    | apply SameMem.ite | apply SameMem.foldl | (simp only [SameMem.mk_iff]; apply SameMem.parts) | split | dsimp only

theorem State.sorterCycle_mem {s0 : State} {s : State} (hs : SameMem s0 s) :
    SameMem s0 (State.sorterCycle s) := by
  unfold State.sorterCycle
  repeat' with_reducible first
    | assumption | intro _
    | (extract_lets +onlyGivenNames x; clear_value (hx : x = _); first | refine SameMem.bind (s := s0) hx ?_ (fun _ => ?_) | (refine SameMem.isFaults x ?_; subst hx) | skip)
    | apply State.grantQueue_mem | apply State.count_mem | apply SameMem.ite | apply SameMem.foldl | (simp only [SameMem.mk_iff]; apply SameMem.parts) | split
    | dsimp only

theorem execSorterGrant_mem {s0 : State} {s : State} (hs : SameMem s0 s) :
    SameMemR s0 (execSorterGrant s) := by
  unfold execSorterGrant
  repeat' with_reducible first
    | assumption | intro _ | apply State.sorterCycle_mem | apply SameMemR.next | exact SameMemR.fault | exact SameMemR.refused | apply SameMemR.onUnit
    | apply SameMemR.ite | apply SameMem.ite | apply SameMem.foldl | (simp only [SameMem.mk_iff]; apply SameMem.parts) | split | dsimp only

end Sys2Proof.Machine
end

