-- ==== Sys2Proof/Laws/SameMemControl.lean ====
section
/-!
SUPPORT. What the operations of Machine/Control.lean leave alone (Laws/SameMem.lean).
-/

set_option linter.all false

namespace Sys2Proof.Machine

theorem State.control_mem {s0 : State} {s : State} (q : Nat) (i : Nat) (op : Nat) (checks : List Byte → List (Nat × Bool)) (k : Flight → State) (hs : SameMem s0 s) (hk : ∀ y0, SameMem s0 (k y0)) :
    SameMemR s0 (State.control s q i op checks k) := by
  unfold State.control
  repeat' with_reducible first
    | assumption | intro _ | apply State.endFlight_mem | apply State.engine_mem | apply hk | apply SameMemR.next | exact SameMemR.fault | exact SameMemR.refused
    | apply SameMemR.onUnit | apply SameMemR.ite | apply SameMem.ite | apply SameMem.foldl | (simp only [SameMem.mk_iff]; apply SameMem.parts) | split | dsimp only

theorem execDrainMark_mem {s0 : State} (q : Nat) (i : Nat) {s : State} (hs : SameMem s0 s) :
    SameMemR s0 (execDrainMark q i s) := by
  unfold execDrainMark
  repeat' with_reducible first
    | assumption | intro _ | apply State.control_mem | apply State.endFlight_mem | apply SameMemR.next | exact SameMemR.fault | exact SameMemR.refused
    | apply SameMemR.onUnit | apply SameMemR.ite | apply SameMem.ite | apply SameMem.foldl | (simp only [SameMem.mk_iff]; apply SameMem.parts) | split | dsimp only

theorem execNop_mem {s0 : State} (q : Nat) (i : Nat) {s : State} (hs : SameMem s0 s) :
    SameMemR s0 (execNop q i s) := by
  unfold execNop
  repeat' with_reducible first
    | assumption | intro _ | apply State.control_mem | apply State.endFlight_mem | apply SameMemR.next | exact SameMemR.fault | exact SameMemR.refused
    | apply SameMemR.onUnit | apply SameMemR.ite | apply SameMem.ite | apply SameMem.foldl | (simp only [SameMem.mk_iff]; apply SameMem.parts) | split | dsimp only

theorem execWaitTimeout_mem {s0 : State} (q : Nat) (i : Nat) {s : State} (hs : SameMem s0 s) :
    SameMemR s0 (execWaitTimeout q i s) := by
  unfold execWaitTimeout
  repeat' with_reducible first
    | assumption | intro _
    | (extract_lets +onlyGivenNames x; clear_value (hx : x = _); first | refine SameMem.bind (s := s0) hx ?_ (fun _ => ?_) | (refine SameMem.isFaults x ?_; subst hx) | skip)
    | apply State.endFlight_mem | apply State.engine_mem | apply SameMemR.next | exact SameMemR.fault | exact SameMemR.refused | apply SameMemR.onUnit
    | apply SameMemR.ite | apply SameMem.ite | apply SameMem.foldl | (simp only [SameMem.mk_iff]; apply SameMem.parts) | split | dsimp only

theorem execWait_mem {s0 : State} (q : Nat) (i : Nat) {s : State} (hs : SameMem s0 s) :
    SameMemR s0 (execWait q i s) := by
  unfold execWait
  repeat' with_reducible first
    | assumption | intro _
    | (extract_lets +onlyGivenNames x; clear_value (hx : x = _); first | refine SameMem.bind (s := s0) hx ?_ (fun _ => ?_) | (refine SameMem.isFaults x ?_; subst hx) | skip)
    | apply State.control_mem | apply State.endFlight_mem | apply SameMemR.next | exact SameMemR.fault | exact SameMemR.refused | apply SameMemR.onUnit
    | apply SameMemR.ite | apply SameMem.ite | apply SameMem.foldl | (simp only [SameMem.mk_iff]; apply SameMem.parts) | split | dsimp only

theorem execTimer_mem {s0 : State} (q : Nat) (i : Nat) {s : State} (hs : SameMem s0 s) :
    SameMemR s0 (execTimer q i s) := by
  unfold execTimer
  repeat' with_reducible first
    | assumption | intro _ | apply State.control_mem | apply State.endFlight_mem | apply SameMemR.next | exact SameMemR.fault | exact SameMemR.refused
    | apply SameMemR.onUnit | apply SameMemR.ite | apply SameMem.ite | apply SameMem.foldl | (simp only [SameMem.mk_iff]; apply SameMem.parts) | split | dsimp only

theorem execFence_mem {s0 : State} (q : Nat) (i : Nat) {s : State} (hs : SameMem s0 s) :
    SameMemR s0 (execFence q i s) := by
  unfold execFence
  repeat' with_reducible first
    | assumption | intro _ | apply State.control_mem | apply State.endFlight_mem | apply SameMemR.next | exact SameMemR.fault | exact SameMemR.refused
    | apply SameMemR.onUnit | apply SameMemR.ite | apply SameMem.ite | apply SameMem.foldl | (simp only [SameMem.mk_iff]; apply SameMem.parts) | split | dsimp only

theorem execTimerExpiry_mem {s0 : State} (q : Nat) (i : Nat) {s : State} (hs : SameMem s0 s) :
    SameMemR s0 (execTimerExpiry q i s) := by
  unfold execTimerExpiry
  repeat' with_reducible first
    | assumption | intro _ | apply State.control_mem | apply State.endFlight_mem | apply SameMemR.next | exact SameMemR.fault | exact SameMemR.refused
    | apply SameMemR.onUnit | apply SameMemR.ite | apply SameMem.ite | apply SameMem.foldl | (simp only [SameMem.mk_iff]; apply SameMem.parts) | split | dsimp only

end Sys2Proof.Machine
end

