-- ==== Sys2Proof/Laws/SameMemRng.lean ====
section
/-!
SUPPORT. What the operations of Machine/Rng.lean leave alone (Laws/SameMem.lean).
-/

set_option linter.all false

namespace Sys2Proof.Machine

theorem State.rollback_mem {s0 : State} {s : State} (c : Nat) (saved : List (Nat × BitVec 128)) (hs : SameMem s0 s) :
    SameMem s0 (State.rollback s c saved) := by
  unfold State.rollback
  repeat' with_reducible first
    | assumption | intro _ | apply State.modCore_mem | apply State.count_mem | apply SameMem.ite | apply SameMem.foldl
    | (simp only [SameMem.mk_iff]; apply SameMem.parts) | split | dsimp only

theorem State.drawing_mem {s0 : State} {s : State} (q : Nat) (i : Nat) (fl : Flight) (k : State → State) (hs : SameMem s0 s) (hk : ∀ y0, SameMem s0 y0 → SameMem s0 (k y0)) :
    SameMem s0 (State.drawing s q i fl k) := by
  unfold State.drawing
  repeat' with_reducible first
    | assumption | intro _ | apply State.countCycles_mem
    | (extract_lets +onlyGivenNames x; clear_value (hx : x = _); first | refine SameMem.bind (s := s0) hx ?_ (fun _ => ?_) | (refine SameMem.isFaults x ?_; subst hx) | skip)
    | apply State.rollback_mem | apply State.endFlight_mem | apply State.count_mem | apply hk | apply SameMem.ite | apply SameMem.foldl
    | (simp only [SameMem.mk_iff]; apply SameMem.parts) | split | dsimp only

theorem State.setSeedpos_mem {s0 : State} {s : State} (c : Nat) (seeded : Bool) (base : Nat) (hs : SameMem s0 s) :
    SameMem s0 (State.setSeedpos s c seeded base) := by
  unfold State.setSeedpos
  repeat' with_reducible first
    | assumption | intro _ | apply State.setFld_mem | apply SameMem.ite | apply SameMem.foldl | (simp only [SameMem.mk_iff]; apply SameMem.parts) | split
    | dsimp only

theorem State.loadLanes_mem {s0 : State} {s : State} (c : Nat) (l : List (BitVec 128)) (seeded : Bool) (base : Nat) (hs : SameMem s0 s) :
    SameMem s0 (State.loadLanes s c l seeded base) := by
  unfold State.loadLanes
  repeat' with_reducible first
    | assumption | intro _ | apply State.modCore_mem | apply State.setFld_mem | apply State.setSeedpos_mem | apply SameMem.ite | apply SameMem.foldl
    | (simp only [SameMem.mk_iff]; apply SameMem.parts) | split | dsimp only

theorem State.seedLanes_mem {s0 : State} {s : State} (q : Nat) (i : Nat) (fl : Flight) (hs : SameMem s0 s) :
    SameMem s0 (State.seedLanes s q i fl) := by
  unfold State.seedLanes
  repeat' with_reducible first
    | assumption | intro _
    | (extract_lets +onlyGivenNames x; clear_value (hx : x = _); first | refine SameMem.bind (s := s0) hx ?_ (fun _ => ?_) | (refine SameMem.isFaults x ?_; subst hx) | skip)
    | apply State.loadLanes_mem | apply State.endFlight_mem | apply SameMem.ite | apply SameMem.foldl | (simp only [SameMem.mk_iff]; apply SameMem.parts) | split
    | dsimp only

theorem State.drawWords_mem {s0 : State} {s : State} (c : Nat) (n : Nat) (hs : SameMem s0 s) :
    SameMem s0 (State.drawWords s c n).2 := by
  unfold State.drawWords
  repeat' with_reducible first
    | assumption | intro _
    | (extract_lets +onlyGivenNames x; clear_value (hx : x = _); first | refine SameMem.bind (s := s0) hx ?_ (fun _ => ?_) | refine SameMem.bindSnd (s := s0) hx ?_ (fun _ => ?_) | (refine SameMem.isFaults x ?_; subst hx) | skip)
    | apply State.modCore_mem | apply State.count_mem | apply SameMem.ite | apply SameMem.foldl | (simp only [SameMem.mk_iff]; apply SameMem.parts)
    | apply SameMem.iteFst | apply SameMem.iteSnd | refine SameMem.sndEq (by assumption) ?_ | split | dsimp only

end Sys2Proof.Machine
end

