-- ==== Sys2Proof/Laws/SameMemCompletion.lean ====
section
/-!
SUPPORT. What the operations of Machine/Completion.lean leave alone (Laws/SameMem.lean).
-/

set_option linter.all false

namespace Sys2Proof.Machine

theorem State.endProgram_mem {s0 : State} {s : State} (fl : Flight) (status : Nat) (hs : SameMem s0 s) :
    SameMem s0 (State.endProgram s fl status) := by
  unfold State.endProgram
  repeat' with_reducible first
    | assumption | intro _
    | (extract_lets +onlyGivenNames x; clear_value (hx : x = _); first | refine SameMem.bind (s := s0) hx ?_ (fun _ => ?_) | (refine SameMem.isFaults x ?_; subst hx) | skip)
    | apply State.rollback_mem | apply State.modCore_mem | apply State.setFld_mem | apply SameMem.ite | apply SameMem.foldl
    | (simp only [SameMem.mk_iff]; apply SameMem.parts) | split | dsimp only

theorem State.faultCause_mem {s0 : State} {s : State} (fl : Flight) (status : Nat) (hs : SameMem s0 s) :
    SameMem s0 (State.faultCause s fl status) := by
  unfold State.faultCause
  repeat' with_reducible first
    | assumption | intro _ | apply State.setCause_mem | apply State.modDomain_mem | apply SameMem.ite | apply SameMem.foldl
    | (simp only [SameMem.mk_iff]; apply SameMem.parts) | split | dsimp only

end Sys2Proof.Machine
end

