-- ==== Sys2Proof/Laws/SameMemTenants.lean ====
section
/-!
SUPPORT. What the operations of Machine/Tenants.lean leave alone (Laws/SameMem.lean).
-/

set_option linter.all false

namespace Sys2Proof.Machine

theorem State.granFields_mem {s0 : State} {s : State} (func : Nat) (tier : Nat) (clear : Nat) (hs : SameMem s0 s) :
    SameMem s0 (State.granFields s func tier clear) := by
  unfold State.granFields
  repeat' with_reducible first
    | assumption | intro _ | apply State.setFld_mem | apply SameMem.ite | apply SameMem.foldl | (simp only [SameMem.mk_iff]; apply SameMem.parts) | split
    | dsimp only

theorem State.granStart_mem {s0 : State} {s : State} (query : Bool) (func : Nat) (tier : Nat) (clear : Nat) (hs : SameMem s0 s) :
    SameMem s0 (State.granStart s query func tier clear) := by
  unfold State.granStart
  repeat' with_reducible first
    | assumption | intro _
    | (extract_lets +onlyGivenNames x; clear_value (hx : x = _); first | refine SameMem.bind (s := s0) hx ?_ (fun _ => ?_) | (refine SameMem.isFaults x ?_; subst hx) | skip)
    | apply State.setFld_mem | apply State.granFields_mem | apply SameMem.ite | apply SameMem.foldl | (simp only [SameMem.mk_iff]; apply SameMem.parts) | split
    | dsimp only

theorem execAssign_mem {s0 : State} (func : Nat) (tier : Nat) (clear : Nat) {s : State} (hs : SameMem s0 s) :
    SameMemR s0 (execAssign func tier clear s) := by
  unfold execAssign
  repeat' with_reducible first
    | assumption | intro _ | apply onUnit_mem | apply State.granStart_mem | apply SameMemR.next | exact SameMemR.fault | exact SameMemR.refused
    | apply SameMemR.onUnit | apply SameMemR.ite | apply SameMem.ite | apply SameMem.foldl | (simp only [SameMem.mk_iff]; apply SameMem.parts) | split | dsimp only

theorem State.countCores_mem {s0 : State} {s : State} (f : Nat) (hs : SameMem s0 s) :
    SameMem s0 (State.countCores s f) := by
  unfold State.countCores
  repeat' with_reducible first
    | assumption | intro _ | apply State.setFld_mem | apply SameMem.ite | apply SameMem.foldl | (simp only [SameMem.mk_iff]; apply SameMem.parts) | split
    | dsimp only

theorem State.giveGranule_mem {s0 : State} {s : State} (tier : Nat) (n : Nat) (func : Nat) (hs : SameMem s0 s) :
    SameMem s0 (State.giveGranule s tier n func) := by
  unfold State.giveGranule
  repeat' with_reducible first
    | assumption | intro _
    | (extract_lets +onlyGivenNames x; clear_value (hx : x = _); first | refine SameMem.bind (s := s0) hx ?_ (fun _ => ?_) | (refine SameMem.isFaults x ?_; subst hx) | skip)
    | apply State.setFld_mem | apply SameMem.ite | apply SameMem.foldl | (simp only [SameMem.mk_iff]; apply SameMem.parts) | split | dsimp only

theorem State.migrateOn_mem {s0 : State} {s : State} (f : Nat) (core : Nat) (q : Nat) (hs : SameMem s0 s) :
    SameMem s0 (State.migrateOn s f core q) := by
  unfold State.migrateOn
  repeat' with_reducible first
    | assumption | intro _ | apply State.setQueue_mem | apply State.setFld_mem | apply State.actOn_mem | apply SameMem.ite | apply SameMem.foldl
    | (simp only [SameMem.mk_iff]; apply SameMem.parts) | split | dsimp only

theorem State.cfgErr_mem {s0 : State} {s : State} (f : Nat) (code : Nat) (hs : SameMem s0 s) :
    SameMem s0 (State.cfgErr s f code) := by
  unfold State.cfgErr
  repeat' with_reducible first
    | assumption | intro _ | apply State.setFld_mem | apply SameMem.ite | apply SameMem.foldl | (simp only [SameMem.mk_iff]; apply SameMem.parts) | split
    | dsimp only

theorem State.guardedField_mem {s0 : State} {s : State} (f : Nat) (off : Nat) (hi : Nat) (lo : Nat) (val : Nat) (hs : SameMem s0 s) :
    SameMem s0 (State.guardedField s f off hi lo val) := by
  unfold State.guardedField
  repeat' with_reducible first
    | assumption | intro _
    | (extract_lets +onlyGivenNames x; clear_value (hx : x = _); first | refine SameMem.bind (s := s0) hx ?_ (fun _ => ?_) | (refine SameMem.isFaults x ?_; subst hx) | skip)
    | apply State.setFld_mem | apply State.cfgErr_mem | apply SameMem.ite | apply SameMem.foldl | (simp only [SameMem.mk_iff]; apply SameMem.parts) | split
    | dsimp only

theorem State.rngInvalidate_mem {s0 : State} {s : State} (c : Nat) (hs : SameMem s0 s) :
    SameMem s0 (State.rngInvalidate s c) := by
  unfold State.rngInvalidate
  repeat' with_reducible first
    | assumption | intro _ | apply State.setFld_mem | apply SameMem.ite | apply SameMem.foldl | (simp only [SameMem.mk_iff]; apply SameMem.parts) | split
    | dsimp only

theorem State.migrateEnd_mem {s0 : State} {s : State} (q : Nat) (m : Migration) (hs : SameMem s0 s) :
    SameMem s0 (State.migrateEnd s q m) := by
  unfold State.migrateEnd
  repeat' with_reducible first
    | assumption | intro _ | apply State.refreshHeads_mem | apply State.modQueue_mem | apply State.count_mem | apply SameMem.ite | apply SameMem.foldl
    | (simp only [SameMem.mk_iff]; apply SameMem.parts) | split | dsimp only

theorem State.setEnabled_mem {s0 : State} {s : State} (f : Nat) (v : Nat) (hs : SameMem s0 s) :
    SameMem s0 (State.setEnabled s f v) := by
  unfold State.setEnabled
  repeat' with_reducible first
    | assumption | intro _ | apply State.setFld_mem | apply SameMem.ite | apply SameMem.foldl | (simp only [SameMem.mk_iff]; apply SameMem.parts) | split
    | dsimp only

theorem execQuery_mem {s0 : State} (func : Nat) (tier : Nat) (clear : Nat) {s : State} (hs : SameMem s0 s) :
    SameMemR s0 (execQuery func tier clear s) := by
  unfold execQuery
  repeat' with_reducible first
    | assumption | intro _ | apply onUnit_mem | apply State.granStart_mem | apply SameMemR.next | exact SameMemR.fault | exact SameMemR.refused
    | apply SameMemR.onUnit | apply SameMemR.ite | apply SameMem.ite | apply SameMem.foldl | (simp only [SameMem.mk_iff]; apply SameMem.parts) | split | dsimp only

theorem State.migrationTimeout_mem {s0 : State} {s : State} (q : Nat) (hs : SameMem s0 s) :
    SameMem s0 (State.migrationTimeout s q) := by
  unfold State.migrationTimeout
  repeat' with_reducible first
    | assumption | intro _
    | (extract_lets +onlyGivenNames x; clear_value (hx : x = _); first | refine SameMem.bind (s := s0) hx ?_ (fun _ => ?_) | (refine SameMem.isFaults x ?_; subst hx) | skip)
    | apply State.migrateEnd_mem | apply State.rngInvalidate_mem | apply SameMem.ite | apply SameMem.foldl | (simp only [SameMem.mk_iff]; apply SameMem.parts)
    | split | dsimp only

theorem execMigrationTimeout_mem {s0 : State} (q : Nat) {s : State} (hs : SameMem s0 s) :
    SameMemR s0 (execMigrationTimeout q s) := by
  unfold execMigrationTimeout
  repeat' with_reducible first
    | assumption | intro _ | apply onUnit_mem | apply State.migrationTimeout_mem | apply SameMemR.next | exact SameMemR.fault | exact SameMemR.refused
    | apply SameMemR.onUnit | apply SameMemR.ite | apply SameMem.ite | apply SameMem.foldl | (simp only [SameMem.mk_iff]; apply SameMem.parts) | split | dsimp only

theorem execMigrate_mem {s0 : State} (f : Nat) (core : Nat) {s : State} (hs : SameMem s0 s) :
    SameMemR s0 (execMigrate f core s) := by
  unfold execMigrate
  repeat' with_reducible first
    | assumption | intro _ | apply State.migrateOn_mem | apply onUnit_mem | apply State.queueAction_mem | apply SameMemR.next | exact SameMemR.fault
    | exact SameMemR.refused | apply SameMemR.onUnit | apply SameMemR.ite | apply SameMem.ite | apply SameMem.foldl | (simp only [SameMem.mk_iff]; apply SameMem.parts)
    | split | dsimp only

theorem State.writeEnable_mem {s0 : State} {s : State} (f : Nat) (new : Bool) (hs : SameMem s0 s) :
    SameMem s0 (State.writeEnable s f new) := by
  unfold State.writeEnable
  repeat' with_reducible first
    | assumption | intro _ | apply State.cfgErr_mem | apply State.setEnabled_mem | apply SameMem.ite | apply SameMem.foldl
    | (simp only [SameMem.mk_iff]; apply SameMem.parts) | split | dsimp only

theorem State.tenantWrite_mem {s0 : State} {s : State} (f : Nat) (off : Nat) (val : Nat) (hs : SameMem s0 s) :
    SameMem s0 (State.tenantWrite s f off val) := by
  unfold State.tenantWrite
  repeat' with_reducible first
    | assumption | intro _
    | (extract_lets +onlyGivenNames x; clear_value (hx : x = _); first | refine SameMem.bind (s := s0) hx ?_ (fun _ => ?_) | (refine SameMem.isFaults x ?_; subst hx) | skip)
    | apply State.setReg_mem | apply State.guardedField_mem | apply State.setFld_mem | apply State.writeEnable_mem | apply State.cfgErr_mem
    | apply State.refreshHeads_mem | apply State.countCores_mem | apply SameMem.ite | apply SameMem.foldl | (simp only [SameMem.mk_iff]; apply SameMem.parts)
    | split | dsimp only

theorem execTenantEntryWrite_mem {s0 : State} (f : Nat) (off : Nat) (val : Nat) {s : State} (hs : SameMem s0 s) :
    SameMemR s0 (execTenantEntryWrite f off val s) := by
  unfold execTenantEntryWrite
  repeat' with_reducible first
    | assumption | intro _ | apply onUnit_mem | apply State.tenantWrite_mem | apply SameMemR.next | exact SameMemR.fault | exact SameMemR.refused
    | apply SameMemR.onUnit | apply SameMemR.ite | apply SameMem.ite | apply SameMem.foldl | (simp only [SameMem.mk_iff]; apply SameMem.parts) | split | dsimp only

end Sys2Proof.Machine
end

