-- ==== Sys2Proof/Laws/SameMemFabric.lean ====
section
/-!
SUPPORT. What the operations of Machine/Fabric.lean leave alone (Laws/SameMem.lean).
-/

set_option linter.all false

namespace Sys2Proof.Machine

theorem State.fabCounts_mem {s0 : State} {s : State} (hs : SameMem s0 s) :
    SameMem s0 (State.fabCounts s) := by
  unfold State.fabCounts
  repeat' with_reducible first
    | assumption | intro _
    | (extract_lets +onlyGivenNames x; clear_value (hx : x = _); first | refine SameMem.bind (s := s0) hx ?_ (fun _ => ?_) | (refine SameMem.isFaults x ?_; subst hx) | skip)
    | apply State.setFld_mem | apply SameMem.ite | apply SameMem.foldl | (simp only [SameMem.mk_iff]; apply SameMem.parts) | split | dsimp only

theorem State.setLink_mem {s0 : State} {s : State} (n : Nat) (l : LinkState) (hs : SameMem s0 s) :
    SameMem s0 (State.setLink s n l) := by
  unfold State.setLink
  repeat' with_reducible first
    | assumption | intro _
    | (extract_lets +onlyGivenNames x; clear_value (hx : x = _); first | refine SameMem.bind (s := s0) hx ?_ (fun _ => ?_) | (refine SameMem.isFaults x ?_; subst hx) | skip)
    | apply SameMem.ite | apply SameMem.foldl | (simp only [SameMem.mk_iff]; apply SameMem.parts) | split | dsimp only

theorem State.modLink_mem {s0 : State} {s : State} (n : Nat) (g : LinkState → LinkState) (hs : SameMem s0 s) :
    SameMem s0 (State.modLink s n g) := by
  unfold State.modLink
  repeat' with_reducible first
    | assumption | intro _ | apply State.setLink_mem | apply SameMem.ite | apply SameMem.foldl | (simp only [SameMem.mk_iff]; apply SameMem.parts) | split
    | dsimp only

theorem State.linkTo_mem {s0 : State} {s : State} (n : Nat) (st : Nat) (hs : SameMem s0 s) :
    SameMem s0 (State.linkTo s n st) := by
  unfold State.linkTo
  repeat' with_reducible first
    | assumption | intro _
    | (extract_lets +onlyGivenNames x; clear_value (hx : x = _); first | refine SameMem.bind (s := s0) hx ?_ (fun _ => ?_) | (refine SameMem.isFaults x ?_; subst hx) | skip)
    | apply State.modLink_mem | apply State.setFld_mem | apply State.fabCounts_mem | apply State.event_mem | apply SameMem.ite | apply SameMem.foldl
    | (simp only [SameMem.mk_iff]; apply SameMem.parts) | split | dsimp only

theorem State.queueOn_mem {s0 : State} {s : State} (n : Nat) (cls : Nat) (m : FabMsg) (hs : SameMem s0 s) :
    SameMem s0 (State.queueOn s n cls m) := by
  unfold State.queueOn
  repeat' with_reducible first
    | assumption | intro _ | apply State.modLink_mem | apply SameMem.ite | apply SameMem.foldl | (simp only [SameMem.mk_iff]; apply SameMem.parts) | split
    | dsimp only

theorem State.dropTraffic_mem {s0 : State} {s : State} (n : Nat) (hs : SameMem s0 s) :
    SameMem s0 (State.dropTraffic s n) := by
  unfold State.dropTraffic
  repeat' with_reducible first
    | assumption | intro _ | apply State.modLink_mem | apply SameMem.ite | apply SameMem.foldl | (simp only [SameMem.mk_iff]; apply SameMem.parts) | split
    | dsimp only

theorem State.quarantine_mem {s0 : State} {s : State} (n : Nat) (reason : Nat) (hs : SameMem s0 s) :
    SameMem s0 (State.quarantine s n reason) := by
  unfold State.quarantine
  repeat' with_reducible first
    | assumption | intro _
    | (extract_lets +onlyGivenNames x; clear_value (hx : x = _); first | refine SameMem.bind (s := s0) hx ?_ (fun _ => ?_) | (refine SameMem.isFaults x ?_; subst hx) | skip)
    | apply State.modLink_mem | apply State.dropTraffic_mem | apply State.setFld_mem | apply State.tally_mem | apply State.linkTo_mem
    | apply State.raiseVector_mem | apply State.release_mem | apply SameMem.ite | apply SameMem.foldl | (simp only [SameMem.mk_iff]; apply SameMem.parts) | split
    | dsimp only

theorem State.malformed_mem {s0 : State} {s : State} (n : Nat) (hs : SameMem s0 s) :
    SameMem s0 (State.malformed s n) := by
  unfold State.malformed
  repeat' with_reducible first
    | assumption | intro _
    | (extract_lets +onlyGivenNames x; clear_value (hx : x = _); first | refine SameMem.bind (s := s0) hx ?_ (fun _ => ?_) | (refine SameMem.isFaults x ?_; subst hx) | skip)
    | apply State.setLink_mem | apply State.quarantine_mem | apply State.count_mem | apply SameMem.ite | apply SameMem.foldl
    | (simp only [SameMem.mk_iff]; apply SameMem.parts) | split | dsimp only

theorem State.transmit_mem {s0 : State} {s : State} (m : FabMsg) (k0 : Nat) (c0 : Nat) (hs : SameMem s0 s) :
    SameMem s0 (State.transmit s m k0 c0) := by
  unfold State.transmit
  repeat' with_reducible first
    | assumption | intro _ | apply State.queueOn_mem | apply State.count_mem | apply SameMem.ite | apply SameMem.foldl
    | (simp only [SameMem.mk_iff]; apply SameMem.parts) | split | dsimp only

theorem State.sendMsg_mem {s0 : State} {s : State} (m : FabMsg) (hs : SameMem s0 s) :
    SameMem s0 (State.sendMsg s m) := by
  unfold State.sendMsg
  repeat' with_reducible first
    | assumption | intro _
    | (extract_lets +onlyGivenNames x; clear_value (hx : x = _); first | refine SameMem.bind (s := s0) hx ?_ (fun _ => ?_) | (refine SameMem.isFaults x ?_; subst hx) | skip)
    | apply State.transmit_mem | apply SameMem.ite | apply SameMem.foldl | (simp only [SameMem.mk_iff]; apply SameMem.parts) | split | dsimp only

theorem State.sendLocal_mem {s0 : State} {s : State} (n : Nat) (mtype : Nat) (data : List Byte) (hs : SameMem s0 s) :
    SameMem s0 (State.sendLocal s n mtype data) := by
  unfold State.sendLocal
  repeat' with_reducible first
    | assumption | intro _ | apply State.queueOn_mem | apply SameMem.ite | apply SameMem.foldl | (simp only [SameMem.mk_iff]; apply SameMem.parts) | split
    | dsimp only

theorem State.takeMsg_mem {s0 : State} {s : State} (k : Nat) (t : Nat) (hs : SameMem s0 s) :
    SameMemO (fun x => x.2.2) s0 (State.takeMsg s k t) := by
  unfold State.takeMsg
  repeat' with_reducible first
    | assumption | intro _
    | (extract_lets +onlyGivenNames x; clear_value (hx : x = _); first | refine SameMem.bind (s := s0) hx ?_ (fun _ => ?_) | (refine SameMem.isFaults x ?_; subst hx) | skip)
    | exact SameMemO.none | apply SameMemO.some | apply SameMemO.ite | apply SameMem.ite | apply SameMem.foldl | (simp only [SameMem.mk_iff]; apply SameMem.parts)
    | refine SameMem.optEq3 (by assumption) ?_ | split | dsimp only

theorem execMessageForward_mem {s0 : State} (k : Nat) {s : State} (hs : SameMem s0 s) :
    SameMemR s0 (execMessageForward k s) := by
  unfold execMessageForward
  repeat' with_reducible first
    | assumption | intro _
    | (extract_lets +onlyGivenNames x; clear_value (hx : x = _); first | refine SameMem.bind (s := s0) hx ?_ (fun _ => ?_) | (refine SameMem.isFaults x ?_; subst hx) | skip)
    | apply State.transmit_mem | apply SameMemR.next | exact SameMemR.fault | exact SameMemR.refused | apply SameMemR.onUnit | apply SameMemR.ite | apply SameMem.ite
    | apply SameMem.foldl | (simp only [SameMem.mk_iff]; apply SameMem.parts) | split | dsimp only

theorem State.onMsg_mem {s0 : State} {s : State} (k : Nat) (t : Nat) (f : State → Nat → FabMsg → State) (hs : SameMem s0 s) (hf : ∀ y0 y1 y2, SameMem s0 y0 → SameMem s0 (f y0 y1 y2)) :
    SameMemR s0 (State.onMsg s k t f) := by
  unfold State.onMsg
  repeat' with_reducible first
    | assumption | intro _ | apply State.takeMsg_mem | apply hf | apply SameMemR.next | exact SameMemR.fault | exact SameMemR.refused | apply SameMemR.onUnit
    | apply SameMemR.ite | apply SameMem.ite | apply SameMem.foldl | (simp only [SameMem.mk_iff]; apply SameMem.parts) | refine SameMem.optEq3 (by assumption) ?_
    | split | dsimp only

theorem State.keyViolation_mem {s0 : State} {s : State} (n : Nat) (hs : SameMem s0 s) :
    SameMem s0 (State.keyViolation s n) := by
  unfold State.keyViolation
  repeat' with_reducible first
    | assumption | intro _
    | (extract_lets +onlyGivenNames x; clear_value (hx : x = _); first | refine SameMem.bind (s := s0) hx ?_ (fun _ => ?_) | (refine SameMem.isFaults x ?_; subst hx) | skip)
    | apply State.setLink_mem | apply State.quarantine_mem | apply State.count_mem | apply SameMem.ite | apply SameMem.foldl
    | (simp only [SameMem.mk_iff]; apply SameMem.parts) | split | dsimp only

theorem State.linkBook_mem {s0 : State} {s : State} (n : Nat) (ca : Nat) (hs : SameMem s0 s) :
    SameMem s0 (State.linkBook s n ca) := by
  unfold State.linkBook
  repeat' with_reducible first
    | assumption | intro _
    | (extract_lets +onlyGivenNames x; clear_value (hx : x = _); first | refine SameMem.bind (s := s0) hx ?_ (fun _ => ?_) | (refine SameMem.isFaults x ?_; subst hx) | skip)
    | apply State.askSys_mem | apply State.release_mem | apply SameMem.ite | apply SameMem.foldl | (simp only [SameMem.mk_iff]; apply SameMem.parts) | split
    | dsimp only

theorem State.deliver_mem {s0 : State} {s : State} (n : Nat) (cls : Nat) (m : FabMsg) (hs : SameMem s0 s) :
    SameMem s0 (State.deliver s n cls m) := by
  unfold State.deliver
  repeat' with_reducible first
    | assumption | intro _
    | (extract_lets +onlyGivenNames x; clear_value (hx : x = _); first | refine SameMem.bind (s := s0) hx ?_ (fun _ => ?_) | (refine SameMem.isFaults x ?_; subst hx) | skip)
    | apply State.keyViolation_mem | apply State.count_mem | apply SameMem.ite | apply SameMem.foldl | (simp only [SameMem.mk_iff]; apply SameMem.parts) | split
    | dsimp only

end Sys2Proof.Machine
end

