-- ==== Sys2Proof/Laws/SameMemLinks.lean ====
section
/-!
SUPPORT. What the operations of Machine/Links.lean leave alone (Laws/SameMem.lean).
-/

set_option linter.all false

namespace Sys2Proof.Machine

theorem execLinkNoisyClear_mem {s0 : State} (n : Nat) {s : State} (hs : SameMem s0 s) :
    SameMemR s0 (execLinkNoisyClear n s) := by
  unfold execLinkNoisyClear
  repeat' with_reducible first
    | assumption | intro _ | apply State.setFld_mem | apply onUnit_mem | apply SameMemR.next | exact SameMemR.fault | exact SameMemR.refused
    | apply SameMemR.onUnit | apply SameMemR.ite | apply SameMem.ite | apply SameMem.foldl | (simp only [SameMem.mk_iff]; apply SameMem.parts) | split | dsimp only

theorem State.releaseLink_mem {s0 : State} {s : State} (n : Nat) (hs : SameMem s0 s) :
    SameMem s0 (State.releaseLink s n) := by
  unfold State.releaseLink
  repeat' with_reducible first
    | assumption | intro _
    | (extract_lets +onlyGivenNames x; clear_value (hx : x = _); first | refine SameMem.bind (s := s0) hx ?_ (fun _ => ?_) | (refine SameMem.isFaults x ?_; subst hx) | skip)
    | apply State.setFld_mem | apply State.linkBook_mem | apply State.linkTo_mem | apply SameMem.ite | apply SameMem.foldl
    | (simp only [SameMem.mk_iff]; apply SameMem.parts) | split | dsimp only

theorem State.sendLinkpar_mem {s0 : State} {s : State} (n : Nat) (hs : SameMem s0 s) :
    SameMem s0 (State.sendLinkpar s n) := by
  unfold State.sendLinkpar
  repeat' with_reducible first
    | assumption | intro _
    | (extract_lets +onlyGivenNames x; clear_value (hx : x = _); first | refine SameMem.bind (s := s0) hx ?_ (fun _ => ?_) | (refine SameMem.isFaults x ?_; subst hx) | skip)
    | apply State.sendLocal_mem | apply SameMem.ite | apply SameMem.foldl | (simp only [SameMem.mk_iff]; apply SameMem.parts) | split | dsimp only

theorem State.sendSpdm_mem {s0 : State} {s : State} (n : Nat) (k : Nat) (hs : SameMem s0 s) :
    SameMem s0 (State.sendSpdm s n k) := by
  unfold State.sendSpdm
  repeat' with_reducible first
    | assumption | intro _ | apply State.modLink_mem | apply State.sendLocal_mem | apply SameMem.ite | apply SameMem.foldl | (simp only [SameMem.mk_iff]; apply SameMem.parts) | split
    | dsimp only

theorem execSpdmResponseTimeout_mem {s0 : State} (n : Nat) {s : State} (hs : SameMem s0 s) :
    SameMemR s0 (execSpdmResponseTimeout n s) := by
  unfold execSpdmResponseTimeout
  repeat' with_reducible first
    | assumption | intro _
    | (extract_lets +onlyGivenNames x; clear_value (hx : x = _); first | refine SameMem.bind (s := s0) hx ?_ (fun _ => ?_) | (refine SameMem.isFaults x ?_; subst hx) | skip)
    | apply State.sendLinkpar_mem | apply State.sendSpdm_mem | apply onUnit_mem | apply State.setLink_mem | apply State.quarantine_mem | apply SameMemR.next
    | exact SameMemR.fault | exact SameMemR.refused | apply SameMemR.onUnit | apply SameMemR.ite | apply SameMem.ite | apply SameMem.foldl
    | (simp only [SameMem.mk_iff]; apply SameMem.parts) | split | dsimp only

theorem State.linkAbsent_mem {s0 : State} {s : State} (n : Nat) (hs : SameMem s0 s) :
    SameMem s0 (State.linkAbsent s n) := by
  unfold State.linkAbsent
  repeat' with_reducible first
    | assumption | intro _
    | (extract_lets +onlyGivenNames x; clear_value (hx : x = _); first | refine SameMem.bind (s := s0) hx ?_ (fun _ => ?_) | (refine SameMem.isFaults x ?_; subst hx) | skip)
    | apply State.dropTraffic_mem | apply State.setFld_mem | apply State.linkBook_mem | apply State.linkTo_mem | apply State.release_mem | apply SameMem.ite
    | apply SameMem.foldl | (simp only [SameMem.mk_iff]; apply SameMem.parts) | split | dsimp only

theorem execSignalLossTimeout_mem {s0 : State} (n : Nat) {s : State} (hs : SameMem s0 s) :
    SameMemR s0 (execSignalLossTimeout n s) := by
  unfold execSignalLossTimeout
  repeat' with_reducible first
    | assumption | intro _ | apply State.linkAbsent_mem | apply onUnit_mem | apply SameMemR.next | exact SameMemR.fault | exact SameMemR.refused
    | apply SameMemR.onUnit | apply SameMemR.ite | apply SameMem.ite | apply SameMem.foldl | (simp only [SameMem.mk_iff]; apply SameMem.parts) | split | dsimp only

theorem State.retrain_mem {s0 : State} {s : State} (n : Nat) (all : Bool) (request : Bool) (hs : SameMem s0 s) :
    SameMem s0 (State.retrain s n all request) := by
  unfold State.retrain
  repeat' with_reducible first
    | assumption | intro _
    | (extract_lets +onlyGivenNames x; clear_value (hx : x = _); first | refine SameMem.bind (s := s0) hx ?_ (fun _ => ?_) | (refine SameMem.isFaults x ?_; subst hx) | skip)
    | apply State.modLink_mem | apply State.setFld_mem | apply State.askSys_mem | apply State.count_mem | apply SameMem.ite | apply SameMem.foldl
    | (simp only [SameMem.mk_iff]; apply SameMem.parts) | split | dsimp only

theorem execRetrain_mem {s0 : State} (n : Nat) {s : State} (hs : SameMem s0 s) :
    SameMemR s0 (execRetrain n s) := by
  unfold execRetrain
  repeat' with_reducible first
    | assumption | intro _ | apply onUnit_mem | apply State.retrain_mem | apply SameMemR.next | exact SameMemR.fault | exact SameMemR.refused
    | apply SameMemR.onUnit | apply SameMemR.ite | apply SameMem.ite | apply SameMem.foldl | (simp only [SameMem.mk_iff]; apply SameMem.parts) | split | dsimp only

theorem State.freshLink_mem {s0 : State} {s : State} (n : Nat) (hs : SameMem s0 s) :
    SameMem s0 (State.freshLink s n) := by
  unfold State.freshLink
  repeat' with_reducible first
    | assumption | intro _ | apply State.modLink_mem | apply SameMem.ite | apply SameMem.foldl | (simp only [SameMem.mk_iff]; apply SameMem.parts) | split
    | dsimp only

theorem State.startTraining_mem {s0 : State} {s : State} (n : Nat) (hs : SameMem s0 s) :
    SameMem s0 (State.startTraining s n) := by
  unfold State.startTraining
  repeat' with_reducible first
    | assumption | intro _
    | (extract_lets +onlyGivenNames x; clear_value (hx : x = _); first | refine SameMem.bind (s := s0) hx ?_ (fun _ => ?_) | (refine SameMem.isFaults x ?_; subst hx) | skip)
    | apply State.linkBook_mem | apply State.linkTo_mem | apply SameMem.ite | apply SameMem.foldl | (simp only [SameMem.mk_iff]; apply SameMem.parts) | split
    | dsimp only

theorem State.setLanes_mem {s0 : State} {s : State} (n : Nat) (tried : Nat) (mask : Nat) (w : Nat) (hs : SameMem s0 s) :
    SameMem s0 (State.setLanes s n tried mask w) := by
  unfold State.setLanes
  repeat' with_reducible first
    | assumption | intro _
    | (extract_lets +onlyGivenNames x; clear_value (hx : x = _); first | refine SameMem.bind (s := s0) hx ?_ (fun _ => ?_) | (refine SameMem.isFaults x ?_; subst hx) | skip)
    | apply State.setFld_mem | apply SameMem.ite | apply SameMem.foldl | (simp only [SameMem.mk_iff]; apply SameMem.parts) | split | dsimp only

theorem State.retrainComplete_mem {s0 : State} {s : State} (n : Nat) (lanes : Nat) (hs : SameMem s0 s) :
    SameMem s0 (State.retrainComplete s n lanes) := by
  unfold State.retrainComplete
  repeat' with_reducible first
    | assumption | intro _
    | (extract_lets +onlyGivenNames x; clear_value (hx : x = _); first | refine SameMem.bind (s := s0) hx ?_ (fun _ => ?_) | (refine SameMem.isFaults x ?_; subst hx) | skip)
    | apply State.modLink_mem | apply State.setLanes_mem | apply State.linkAbsent_mem | apply State.setFld_mem | apply State.linkTo_mem
    | apply State.release_mem | apply SameMem.ite | apply SameMem.foldl | (simp only [SameMem.mk_iff]; apply SameMem.parts) | split | dsimp only

theorem State.parseStream_mem {s0 : State} {s : State} (n : Nat) (p : Nat) (x4 : Nat) (x5 : List Byte) (hs : SameMem s0 s) :
    SameMem s0 (State.parseStream s n p x4 x5) := by
  induction x4 generalizing s n p x5 with
  | zero =>
    unfold State.parseStream
    repeat' with_reducible first
      | assumption | intro _ | apply State.modLink_mem | apply State.malformed_mem | apply State.deliver_mem | apply SameMem.ite
      | apply SameMem.foldl | (simp only [SameMem.mk_iff]; apply SameMem.parts) | split | dsimp only
  | succ m ih =>
    unfold State.parseStream
    repeat' with_reducible first
      | assumption | intro _ | apply State.modLink_mem | apply State.malformed_mem | apply State.deliver_mem | apply ih | apply SameMem.ite
      | apply SameMem.foldl | (simp only [SameMem.mk_iff]; apply SameMem.parts) | split | dsimp only

theorem State.takeData_mem {s0 : State} {s : State} (n : Nat) (h : Nat) (payload : List Byte) (hs : SameMem s0 s) :
    SameMem s0 (State.takeData s n h payload) := by
  unfold State.takeData
  repeat' with_reducible first
    | assumption | intro _
    | (extract_lets +onlyGivenNames x; clear_value (hx : x = _); first | refine SameMem.bind (s := s0) hx ?_ (fun _ => ?_) | (refine SameMem.isFaults x ?_; subst hx) | skip)
    | apply State.parseStream_mem | apply State.setLink_mem | apply State.count_mem | apply SameMem.ite | apply SameMem.foldl
    | (simp only [SameMem.mk_iff]; apply SameMem.parts) | split | dsimp only

theorem State.takeFlit_mem {s0 : State} {s : State} (n : Nat) (h : Nat) (payload : List Byte) (hs : SameMem s0 s) :
    SameMem s0 (State.takeFlit s n h payload) := by
  unfold State.takeFlit
  repeat' with_reducible first
    | assumption | intro _
    | (extract_lets +onlyGivenNames x; clear_value (hx : x = _); first | refine SameMem.bind (s := s0) hx ?_ (fun _ => ?_) | (refine SameMem.isFaults x ?_; subst hx) | skip)
    | apply State.setFld_mem | apply State.takeData_mem | apply State.setLink_mem | apply State.quarantine_mem | apply State.retrain_mem | apply SameMem.ite
    | apply SameMem.foldl | (simp only [SameMem.mk_iff]; apply SameMem.parts) | split | dsimp only

theorem State.sendFlit_mem {s0 : State} {s : State} (n : Nat) (typ : Nat) (vc : Nat) (cls : Nat) (replay : Nat) (seq : Nat) (paylen : Nat) (payload : List Byte) (hs : SameMem s0 s) :
    SameMem s0 (State.sendFlit s n typ vc cls replay seq paylen payload) := by
  unfold State.sendFlit
  repeat' with_reducible first
    | assumption | intro _
    | (extract_lets +onlyGivenNames x; clear_value (hx : x = _); first | refine SameMem.bind (s := s0) hx ?_ (fun _ => ?_) | (refine SameMem.isFaults x ?_; subst hx) | skip)
    | apply State.setLink_mem | apply State.send_mem | apply SameMem.ite | apply SameMem.foldl | (simp only [SameMem.mk_iff]; apply SameMem.parts) | split
    | dsimp only

theorem State.sendData_mem {s0 : State} {s : State} (n : Nat) (p : Nat) (o : Sorter) (hs : SameMem s0 s) :
    SameMem s0 (State.sendData s n p o) := by
  unfold State.sendData
  repeat' with_reducible first
    | assumption | intro _
    | (extract_lets +onlyGivenNames x; clear_value (hx : x = _); first | refine SameMem.bind (s := s0) hx ?_ (fun _ => ?_) | (refine SameMem.isFaults x ?_; subst hx) | skip)
    | apply State.sendFlit_mem | apply State.setLink_mem | apply State.count_mem | apply SameMem.ite | apply SameMem.foldl
    | (simp only [SameMem.mk_iff]; apply SameMem.parts) | split | dsimp only

theorem State.sendReplay_mem {s0 : State} {s : State} (n : Nat) (k : Nat) (hs : SameMem s0 s) :
    SameMem s0 (State.sendReplay s n k) := by
  unfold State.sendReplay
  repeat' with_reducible first
    | assumption | intro _
    | (extract_lets +onlyGivenNames x; clear_value (hx : x = _); first | refine SameMem.bind (s := s0) hx ?_ (fun _ => ?_) | (refine SameMem.isFaults x ?_; subst hx) | skip)
    | apply State.sendFlit_mem | apply State.setLink_mem | apply State.count_mem | apply SameMem.ite | apply SameMem.foldl
    | (simp only [SameMem.mk_iff]; apply SameMem.parts) | split | dsimp only

theorem State.flitTransmit_mem {s0 : State} {s : State} (n : Nat) (hs : SameMem s0 s) :
    SameMem s0 (State.flitTransmit s n) := by
  unfold State.flitTransmit
  repeat' with_reducible first
    | assumption | intro _
    | (extract_lets +onlyGivenNames x; clear_value (hx : x = _); first | refine SameMem.bind (s := s0) hx ?_ (fun _ => ?_) | (refine SameMem.isFaults x ?_; subst hx) | skip)
    | apply State.sendData_mem | apply State.sendFlit_mem | apply State.sendReplay_mem | apply State.setLink_mem | apply SameMem.ite | apply SameMem.foldl
    | (simp only [SameMem.mk_iff]; apply SameMem.parts) | split | dsimp only

theorem execFlitTransmit_mem {s0 : State} (n : Nat) {s : State} (hs : SameMem s0 s) :
    SameMemR s0 (execFlitTransmit n s) := by
  unfold execFlitTransmit
  repeat' with_reducible first
    | assumption | intro _ | apply onUnit_mem | apply State.flitTransmit_mem | apply SameMemR.next | exact SameMemR.fault | exact SameMemR.refused
    | apply SameMemR.onUnit | apply SameMemR.ite | apply SameMem.ite | apply SameMem.foldl | (simp only [SameMem.mk_iff]; apply SameMem.parts) | split | dsimp only

theorem State.countSymbols_mem {s0 : State} {s : State} (n : Nat) (syms : List Nat) (hs : SameMem s0 s) :
    SameMem s0 (State.countSymbols s n syms) := by
  unfold State.countSymbols
  repeat' with_reducible first
    | assumption | intro _ | apply State.count_mem | apply SameMem.ite | apply SameMem.foldl | (simp only [SameMem.mk_iff]; apply SameMem.parts) | split
    | dsimp only

theorem execRelease_mem {s0 : State} (n : Nat) {s : State} (hs : SameMem s0 s) :
    SameMemR s0 (execRelease n s) := by
  unfold execRelease
  repeat' with_reducible first
    | assumption | intro _ | apply State.releaseLink_mem | apply onUnit_mem | apply SameMemR.next | exact SameMemR.fault | exact SameMemR.refused
    | apply SameMemR.onUnit | apply SameMemR.ite | apply SameMem.ite | apply SameMem.foldl | (simp only [SameMem.mk_iff]; apply SameMem.parts) | split | dsimp only

theorem State.authAbandon_mem {s0 : State} {s : State} (hs : SameMem s0 s) :
    SameMem s0 (State.authAbandon s) := by
  unfold State.authAbandon
  repeat' with_reducible first
    | assumption | intro _ | apply State.modLink_mem | apply SameMem.ite | apply SameMem.foldl | (simp only [SameMem.mk_iff]; apply SameMem.parts) | split | dsimp only

theorem State.authAgain_mem {s0 : State} {s : State} (hs : SameMem s0 s) :
    SameMem s0 (State.authAgain s) := by
  unfold State.authAgain
  repeat' with_reducible first
    | assumption | intro _ | apply State.sendSpdm_mem | apply State.modLink_mem | apply SameMem.ite | apply SameMem.foldl
    | (simp only [SameMem.mk_iff]; apply SameMem.parts) | split | dsimp only

theorem execAuthTimeout_mem {s0 : State} (n : Nat) {s : State} (hs : SameMem s0 s) :
    SameMemR s0 (execAuthTimeout n s) := by
  unfold execAuthTimeout
  repeat' with_reducible first
    | assumption | intro _ | apply onUnit_mem | apply State.quarantine_mem | apply SameMemR.next | exact SameMemR.fault | exact SameMemR.refused
    | apply SameMemR.onUnit | apply SameMemR.ite | apply SameMem.ite | apply SameMem.foldl | (simp only [SameMem.mk_iff]; apply SameMem.parts) | split | dsimp only

theorem State.spdmReceive_mem {s0 : State} {s : State} (n : Nat) (verdict : Nat) (hs : SameMem s0 s) :
    SameMem s0 (State.spdmReceive s n verdict) := by
  unfold State.spdmReceive
  repeat' with_reducible first
    | assumption | intro _
    | (extract_lets +onlyGivenNames x; clear_value (hx : x = _); first | refine SameMem.bind (s := s0) hx ?_ (fun _ => ?_) | (refine SameMem.isFaults x ?_; subst hx) | skip)
    | apply State.sendLinkpar_mem | apply State.sendSpdm_mem | apply State.setLink_mem | apply State.quarantine_mem | apply SameMem.ite | apply SameMem.foldl
    | (simp only [SameMem.mk_iff]; apply SameMem.parts) | split | dsimp only

theorem execSpdm_mem {s0 : State} (n : Nat) (verdict : Nat) {s : State} (hs : SameMem s0 s) :
    SameMemR s0 (execSpdm n verdict s) := by
  unfold execSpdm
  repeat' with_reducible first
    | assumption | intro _ | apply State.spdmReceive_mem | apply onUnit_mem | apply SameMemR.next | exact SameMemR.fault | exact SameMemR.refused
    | apply SameMemR.onUnit | apply SameMemR.ite | apply SameMem.ite | apply SameMem.foldl | (simp only [SameMem.mk_iff]; apply SameMem.parts) | split | dsimp only

theorem execLaneFailure_mem {s0 : State} (n : Nat) (lane : Nat) {s : State} (hs : SameMem s0 s) :
    SameMemR s0 (execLaneFailure n lane s) := by
  unfold execLaneFailure
  repeat' with_reducible first
    | assumption | intro _ | apply State.setFld_mem | apply onUnit_mem | apply State.retrain_mem | apply SameMemR.next | exact SameMemR.fault
    | exact SameMemR.refused | apply SameMemR.onUnit | apply SameMemR.ite | apply SameMem.ite | apply SameMem.foldl | (simp only [SameMem.mk_iff]; apply SameMem.parts)
    | split | dsimp only

theorem execNakRepeat_mem {s0 : State} (n : Nat) {s : State} (hs : SameMem s0 s) :
    SameMemR s0 (execNakRepeat n s) := by
  unfold execNakRepeat
  repeat' with_reducible first
    | assumption | intro _ | apply State.modLink_mem | apply onUnit_mem | apply SameMemR.next | exact SameMemR.fault | exact SameMemR.refused
    | apply SameMemR.onUnit | apply SameMemR.ite | apply SameMem.ite | apply SameMem.foldl | (simp only [SameMem.mk_iff]; apply SameMem.parts) | split | dsimp only

theorem execRetrainComplete_mem {s0 : State} (n : Nat) (lanes : Nat) {s : State} (hs : SameMem s0 s) :
    SameMemR s0 (execRetrainComplete n lanes s) := by
  unfold execRetrainComplete
  repeat' with_reducible first
    | assumption | intro _ | apply State.retrainComplete_mem | apply onUnit_mem | apply SameMemR.next | exact SameMemR.fault | exact SameMemR.refused
    | apply SameMemR.onUnit | apply SameMemR.ite | apply SameMem.ite | apply SameMem.foldl | (simp only [SameMem.mk_iff]; apply SameMem.parts) | split | dsimp only

theorem State.flitReceive_mem {s0 : State} {s : State} (n : Nat) (flit : List Byte) (corr : Nat) (unc : Nat) (syms : List Nat) (hs : SameMem s0 s) :
    SameMem s0 (State.flitReceive s n flit corr unc syms) := by
  unfold State.flitReceive
  repeat' with_reducible first
    | assumption | intro _
    | (extract_lets +onlyGivenNames x; clear_value (hx : x = _); first | refine SameMem.bind (s := s0) hx ?_ (fun _ => ?_) | (refine SameMem.isFaults x ?_; subst hx) | skip)
    | apply State.modLink_mem | apply State.countSymbols_mem | apply State.malformed_mem | apply State.count_mem | apply State.takeFlit_mem
    | apply SameMem.ite | apply SameMem.foldl | (simp only [SameMem.mk_iff]; apply SameMem.parts) | split | dsimp only

theorem execFlitReceive_mem {s0 : State} (n : Nat) (flit : List Byte) (corr : Nat) (unc : Nat) (syms : List Nat) {s : State} (hs : SameMem s0 s) :
    SameMemR s0 (execFlitReceive n flit corr unc syms s) := by
  unfold execFlitReceive
  repeat' with_reducible first
    | assumption | intro _ | apply State.flitReceive_mem | apply onUnit_mem | apply SameMemR.next | exact SameMemR.fault | exact SameMemR.refused
    | apply SameMemR.onUnit | apply SameMemR.ite | apply SameMem.ite | apply SameMem.foldl | (simp only [SameMem.mk_iff]; apply SameMem.parts) | split | dsimp only

theorem execTrainingRetry_mem {s0 : State} (n : Nat) {s : State} (hs : SameMem s0 s) :
    SameMemR s0 (execTrainingRetry n s) := by
  unfold execTrainingRetry
  repeat' with_reducible first
    | assumption | intro _ | apply State.modLink_mem | apply State.startTraining_mem | apply onUnit_mem | apply SameMemR.next | exact SameMemR.fault
    | exact SameMemR.refused | apply SameMemR.onUnit | apply SameMemR.ite | apply SameMem.ite | apply SameMem.foldl | (simp only [SameMem.mk_iff]; apply SameMem.parts)
    | split | dsimp only

theorem execNakReceive_mem {s0 : State} (n : Nat) {s : State} (hs : SameMem s0 s) :
    SameMemR s0 (execNakReceive n s) := by
  unfold execNakReceive
  repeat' with_reducible first
    | assumption | intro _ | apply State.modLink_mem | apply onUnit_mem | apply State.count_mem | apply SameMemR.next | exact SameMemR.fault
    | exact SameMemR.refused | apply SameMemR.onUnit | apply SameMemR.ite | apply SameMem.ite | apply SameMem.foldl | (simp only [SameMem.mk_iff]; apply SameMem.parts)
    | split | dsimp only

theorem State.linkpar_mem {s0 : State} {s : State} (n : Nat) (p : LinkPar) (hs : SameMem s0 s) :
    SameMem s0 (State.linkpar s n p) := by
  unfold State.linkpar
  repeat' with_reducible first
    | assumption | intro _
    | (extract_lets +onlyGivenNames x; clear_value (hx : x = _); first | refine SameMem.bind (s := s0) hx ?_ (fun _ => ?_) | (refine SameMem.isFaults x ?_; subst hx) | skip)
    | apply State.modLink_mem | apply State.setFld_mem | apply State.linkTo_mem | apply State.quarantine_mem | apply SameMem.ite | apply SameMem.foldl
    | (simp only [SameMem.mk_iff]; apply SameMem.parts) | split | dsimp only

theorem execLinkpar_mem {s0 : State} (n : Nat) (p : LinkPar) {s : State} (hs : SameMem s0 s) :
    SameMemR s0 (execLinkpar n p s) := by
  unfold execLinkpar
  repeat' with_reducible first
    | assumption | intro _ | apply onUnit_mem | apply State.linkpar_mem | apply SameMemR.next | exact SameMemR.fault | exact SameMemR.refused
    | apply SameMemR.onUnit | apply SameMemR.ite | apply SameMem.ite | apply SameMem.foldl | (simp only [SameMem.mk_iff]; apply SameMem.parts) | split | dsimp only

theorem execLinkSignalDetect_mem {s0 : State} (n : Nat) {s : State} (hs : SameMem s0 s) :
    SameMemR s0 (execLinkSignalDetect n s) := by
  unfold execLinkSignalDetect
  repeat' with_reducible first
    | assumption | intro _ | apply State.startTraining_mem | apply onUnit_mem | apply State.count_mem | apply SameMemR.next | exact SameMemR.fault
    | exact SameMemR.refused | apply SameMemR.onUnit | apply SameMemR.ite | apply SameMem.ite | apply SameMem.foldl | (simp only [SameMem.mk_iff]; apply SameMem.parts)
    | split | dsimp only

theorem State.trainingComplete_mem {s0 : State} {s : State} (n : Nat) (lanes : Nat) (hs : SameMem s0 s) :
    SameMem s0 (State.trainingComplete s n lanes) := by
  unfold State.trainingComplete
  repeat' with_reducible first
    | assumption | intro _
    | (extract_lets +onlyGivenNames x; clear_value (hx : x = _); first | refine SameMem.bind (s := s0) hx ?_ (fun _ => ?_) | (refine SameMem.isFaults x ?_; subst hx) | skip)
    | apply State.setLanes_mem | apply State.freshLink_mem | apply State.sendSpdm_mem | apply State.linkBook_mem | apply State.linkTo_mem
    | apply SameMem.ite | apply SameMem.foldl | (simp only [SameMem.mk_iff]; apply SameMem.parts) | split | dsimp only

theorem execTrainingComplete_mem {s0 : State} (n : Nat) (lanes : Nat) {s : State} (hs : SameMem s0 s) :
    SameMemR s0 (execTrainingComplete n lanes s) := by
  unfold execTrainingComplete
  repeat' with_reducible first
    | assumption | intro _ | apply onUnit_mem | apply State.trainingComplete_mem | apply SameMemR.next | exact SameMemR.fault | exact SameMemR.refused
    | apply SameMemR.onUnit | apply SameMemR.ite | apply SameMem.ite | apply SameMem.foldl | (simp only [SameMem.mk_iff]; apply SameMem.parts) | split | dsimp only

theorem execLinkNoisy_mem {s0 : State} (n : Nat) {s : State} (hs : SameMem s0 s) :
    SameMemR s0 (execLinkNoisy n s) := by
  unfold execLinkNoisy
  repeat' with_reducible first
    | assumption | intro _ | apply State.setFld_mem | apply onUnit_mem | apply State.event_mem | apply SameMemR.next | exact SameMemR.fault
    | exact SameMemR.refused | apply SameMemR.onUnit | apply SameMemR.ite | apply SameMem.ite | apply SameMem.foldl | (simp only [SameMem.mk_iff]; apply SameMem.parts)
    | split | dsimp only

theorem execMgtStallQuarantine_mem {s0 : State} (n : Nat) {s : State} (hs : SameMem s0 s) :
    SameMemR s0 (execMgtStallQuarantine n s) := by
  unfold execMgtStallQuarantine
  repeat' with_reducible first
    | assumption | intro _
    | (extract_lets +onlyGivenNames x; clear_value (hx : x = _); first | refine SameMem.bind (s := s0) hx ?_ (fun _ => ?_) | (refine SameMem.isFaults x ?_; subst hx) | skip)
    | apply onUnit_mem | apply State.quarantine_mem | apply SameMemR.next | exact SameMemR.fault | exact SameMemR.refused | apply SameMemR.onUnit
    | apply SameMemR.ite | apply SameMem.ite | apply SameMem.foldl | (simp only [SameMem.mk_iff]; apply SameMem.parts) | split | dsimp only

theorem State.linkBeat_mem {s0 : State} {s : State} (n : Nat) (hs : SameMem s0 s) :
    SameMem s0 (State.linkBeat s n) := by
  unfold State.linkBeat
  repeat' with_reducible first
    | assumption | intro _
    | (extract_lets +onlyGivenNames x; clear_value (hx : x = _); first | refine SameMem.bind (s := s0) hx ?_ (fun _ => ?_) | (refine SameMem.isFaults x ?_; subst hx) | skip)
    | apply State.setLink_mem | apply State.count_mem | apply SameMem.ite | apply SameMem.foldl | (simp only [SameMem.mk_iff]; apply SameMem.parts) | split
    | dsimp only

theorem execTrainingTimeout_mem {s0 : State} (n : Nat) {s : State} (hs : SameMem s0 s) :
    SameMemR s0 (execTrainingTimeout n s) := by
  unfold execTrainingTimeout
  repeat' with_reducible first
    | assumption | intro _ | apply State.modLink_mem | apply State.setLanes_mem | apply State.linkBook_mem | apply onUnit_mem | apply State.linkTo_mem
    | apply SameMemR.next | exact SameMemR.fault | exact SameMemR.refused | apply SameMemR.onUnit | apply SameMemR.ite | apply SameMem.ite | apply SameMem.foldl
    | (simp only [SameMem.mk_iff]; apply SameMem.parts) | split | dsimp only

theorem State.disableLink_mem {s0 : State} {s : State} (n : Nat) (v : Nat) (hs : SameMem s0 s) :
    SameMem s0 (State.disableLink s n v) := by
  unfold State.disableLink
  repeat' with_reducible first
    | assumption | intro _
    | (extract_lets +onlyGivenNames x; clear_value (hx : x = _); first | refine SameMem.bind (s := s0) hx ?_ (fun _ => ?_) | (refine SameMem.isFaults x ?_; subst hx) | skip)
    | apply State.linkAbsent_mem | apply State.setFld_mem | apply State.linkBook_mem | apply State.release_mem | apply SameMem.ite | apply SameMem.foldl
    | (simp only [SameMem.mk_iff]; apply SameMem.parts) | split | dsimp only

theorem execDisable_mem {s0 : State} (n : Nat) (v : Nat) {s : State} (hs : SameMem s0 s) :
    SameMemR s0 (execDisable n v s) := by
  unfold execDisable
  repeat' with_reducible first
    | assumption | intro _ | apply State.disableLink_mem | apply onUnit_mem | apply SameMemR.next | exact SameMemR.fault | exact SameMemR.refused
    | apply SameMemR.onUnit | apply SameMemR.ite | apply SameMem.ite | apply SameMem.foldl | (simp only [SameMem.mk_iff]; apply SameMem.parts) | split | dsimp only

theorem execLinkStall_mem {s0 : State} (n : Nat) {s : State} (hs : SameMem s0 s) :
    SameMemR s0 (execLinkStall n s) := by
  unfold execLinkStall
  repeat' with_reducible first
    | assumption | intro _ | apply State.modLink_mem | apply State.setFld_mem | apply onUnit_mem | apply State.event_mem | apply SameMemR.next
    | exact SameMemR.fault | exact SameMemR.refused | apply SameMemR.onUnit | apply SameMemR.ite | apply SameMem.ite | apply SameMem.foldl
    | (simp only [SameMem.mk_iff]; apply SameMem.parts) | split | dsimp only

end Sys2Proof.Machine
end

