-- ==== Sys2Proof/Laws/SameMemRemote.lean ====
section
/-!
SUPPORT. What the operations of Machine/Remote.lean leave alone (Laws/SameMem.lean).
-/

set_option linter.all false

namespace Sys2Proof.Machine

theorem State.addRequest_mem {s0 : State} {s : State} (host : Bool) (kind : RemKind) (q : Nat) (i : Nat) (addr : Nat) (hs : SameMem s0 s) :
    SameMem s0 (State.addRequest s host kind q i addr) := by
  unfold State.addRequest
  repeat' with_reducible first
    | assumption | intro _
    | (extract_lets +onlyGivenNames x; clear_value (hx : x = _); first | refine SameMem.bind (s := s0) hx ?_ (fun _ => ?_) | (refine SameMem.isFaults x ?_; subst hx) | skip)
    | apply SameMem.ite | apply SameMem.foldl | (simp only [SameMem.mk_iff]; apply SameMem.parts) | split | dsimp only

theorem State.request_mem {s0 : State} {s : State} (f : Nat) (q : Nat) (i : Nat) (addr : Nat) (mtype : Nat) (flags : Nat) (aux : Nat) (sealW : Nat) (data : List Byte) (kind : RemKind) (hs : SameMem s0 s) :
    SameMem s0 (State.request s f q i addr mtype flags aux sealW data kind) := by
  unfold State.request
  repeat' with_reducible first
    | assumption | intro _ | apply State.addRequest_mem | apply State.sendMsg_mem | apply SameMem.ite | apply SameMem.foldl
    | (simp only [SameMem.mk_iff]; apply SameMem.parts) | split | dsimp only

theorem State.sendOn_mem {s0 : State} {s : State} (fl : Flight) (dst : Nat) (data : List Byte) (stored : Nat) (hs : SameMem s0 s) :
    SameMem s0 (State.sendOn s fl dst data stored) := by
  unfold State.sendOn
  repeat' with_reducible first
    | assumption | intro _
    | (extract_lets +onlyGivenNames x; clear_value (hx : x = _); first | refine SameMem.bind (s := s0) hx ?_ (fun _ => ?_) | (refine SameMem.isFaults x ?_; subst hx) | skip)
    | apply State.request_mem | apply State.modFlight_mem | apply State.send_mem | apply SameMem.ite | apply SameMem.foldl
    | (simp only [SameMem.mk_iff]; apply SameMem.parts) | split | dsimp only

theorem State.respond_mem {s0 : State} {s : State} (m : FabMsg) (mtype : Nat) (flags : Nat) (status : Nat) (sealW : Nat) (data : List Byte) (hs : SameMem s0 s) :
    SameMem s0 (State.respond s m mtype flags status sealW data) := by
  unfold State.respond
  repeat' with_reducible first
    | assumption | intro _ | apply State.sendMsg_mem | apply SameMem.ite | apply SameMem.foldl | (simp only [SameMem.mk_iff]; apply SameMem.parts) | split
    | dsimp only

theorem State.sendVoids_mem {s0 : State} {s : State} (fl : Flight) (hs : SameMem s0 s) :
    SameMem s0 (State.sendVoids s fl) := by
  unfold State.sendVoids
  repeat' with_reducible first
    | assumption | intro _
    | (extract_lets +onlyGivenNames x; clear_value (hx : x = _); first | refine SameMem.bind (s := s0) hx ?_ (fun _ => ?_) | (refine SameMem.isFaults x ?_; subst hx) | skip)
    | apply State.request_mem | apply State.modFlight_mem | apply SameMem.ite | apply SameMem.foldl | (simp only [SameMem.mk_iff]; apply SameMem.parts) | split
    | dsimp only

theorem State.settleMove_mem {s0 : State} {s : State} (q : Nat) (i : Nat) (hs : SameMem s0 s) :
    SameMem s0 (State.settleMove s q i) := by
  unfold State.settleMove
  repeat' with_reducible first
    | assumption | intro _
    | (extract_lets +onlyGivenNames x; clear_value (hx : x = _); first | refine SameMem.bind (s := s0) hx ?_ (fun _ => ?_) | (refine SameMem.isFaults x ?_; subst hx) | skip)
    | apply State.voidBlocks_mem | apply State.modFlight_mem | apply State.sendVoids_mem | apply State.sealBlocks_mem | apply SameMem.ite
    | apply SameMem.foldl | (simp only [SameMem.mk_iff]; apply SameMem.parts) | split | dsimp only

theorem State.answered_mem {s0 : State} {s : State} (q : Nat) (i : Nat) (fail : Option (Nat × Nat × Bool)) (hs : SameMem s0 s) :
    SameMem s0 (State.answered s q i fail) := by
  unfold State.answered
  repeat' with_reducible first
    | assumption | intro _
    | (extract_lets +onlyGivenNames x; clear_value (hx : x = _); first | refine SameMem.bind (s := s0) hx ?_ (fun _ => ?_) | (refine SameMem.isFaults x ?_; subst hx) | skip)
    | apply State.settleMove_mem | apply State.modFlight_mem | apply SameMem.ite | apply SameMem.foldl | (simp only [SameMem.mk_iff]; apply SameMem.parts) | split
    | dsimp only

theorem State.serveRd_mem {s0 : State} {s : State} (m : FabMsg) (hs : SameMem s0 s) :
    SameMem s0 (State.serveRd s m) := by
  unfold State.serveRd
  repeat' with_reducible first
    | assumption | intro _
    | (extract_lets +onlyGivenNames x; clear_value (hx : x = _); first | refine SameMem.bind (s := s0) hx ?_ (fun _ => ?_) | refine SameMem.bindFst (s := s0) hx ?_ (fun _ => ?_) | (refine SameMem.isFaults x ?_; subst hx) | skip)
    | apply State.traffic_mem | apply State.respond_mem | apply State.uncorrectable_mem | apply SameMem.ite | apply SameMem.foldl
    | (simp only [SameMem.mk_iff]; apply SameMem.parts) | apply SameMem.iteFst | apply SameMem.iteSnd | refine SameMem.fstEq (by assumption) ?_ | split | dsimp only

theorem State.dropRequest_mem {s0 : State} {s : State} (host : Bool) (tag : Nat) (hs : SameMem s0 s) :
    SameMem s0 (State.dropRequest s host tag) := by
  unfold State.dropRequest
  repeat' with_reducible first
    | assumption | intro _
    | (extract_lets +onlyGivenNames x; clear_value (hx : x = _); first | refine SameMem.bind (s := s0) hx ?_ (fun _ => ?_) | (refine SameMem.isFaults x ?_; subst hx) | skip)
    | apply SameMem.ite | apply SameMem.foldl | (simp only [SameMem.mk_iff]; apply SameMem.parts) | split | dsimp only

theorem State.sealMiss_mem {s0 : State} {s : State} (f : Nat) (q : Nat) (i : Nat) (a : Nat) (data : List Byte) (w : Nat) (hs : SameMem s0 s) :
    SameMem s0 (State.sealMiss s f q i a data w) := by
  unfold State.sealMiss
  repeat' with_reducible first
    | assumption | intro _ | apply State.record_mem | apply State.count_mem | apply SameMem.ite | apply SameMem.foldl
    | (simp only [SameMem.mk_iff]; apply SameMem.parts) | split | dsimp only

theorem State.remoteSignal_mem {s0 : State} {s : State} (fl : Flight) (node : Nat) (n : Nat) (op : Nat) (v : Nat) (hs : SameMem s0 s) :
    SameMem s0 (State.remoteSignal s fl node n op v) := by
  unfold State.remoteSignal
  repeat' with_reducible first
    | assumption | intro _
    | (extract_lets +onlyGivenNames x; clear_value (hx : x = _); first | refine SameMem.bind (s := s0) hx ?_ (fun _ => ?_) | (refine SameMem.isFaults x ?_; subst hx) | skip)
    | apply State.addRequest_mem | apply State.endFlight_mem | apply State.modFlight_mem | apply State.sendMsg_mem | apply SameMem.ite | apply SameMem.foldl
    | (simp only [SameMem.mk_iff]; apply SameMem.parts) | split | dsimp only

theorem State.lateResponse_mem {s0 : State} {s : State} (n : Nat) (hs : SameMem s0 s) :
    SameMem s0 (State.lateResponse s n) := by
  unfold State.lateResponse
  repeat' with_reducible first
    | assumption | intro _ | apply State.count_mem | apply SameMem.ite | apply SameMem.foldl | (simp only [SameMem.mk_iff]; apply SameMem.parts) | split
    | dsimp only

theorem State.sigAnswer_mem {s0 : State} {s : State} (n : Nat) (m : FabMsg) (hs : SameMem s0 s) :
    SameMem s0 (State.sigAnswer s n m) := by
  unfold State.sigAnswer
  repeat' with_reducible first
    | assumption | intro _ | apply State.dropRequest_mem | apply State.answered_mem | apply State.lateResponse_mem | apply SameMem.ite | apply SameMem.foldl
    | (simp only [SameMem.mk_iff]; apply SameMem.parts) | split | dsimp only

theorem execSigack_mem {s0 : State} (k : Nat) {s : State} (hs : SameMem s0 s) :
    SameMemR s0 (execSigack k s) := by
  unfold execSigack
  repeat' with_reducible first
    | assumption | intro _ | apply State.onMsg_mem | apply State.sigAnswer_mem | apply SameMemR.next | exact SameMemR.fault | exact SameMemR.refused
    | apply SameMemR.onUnit | apply SameMemR.ite | apply SameMem.ite | apply SameMem.foldl | (simp only [SameMem.mk_iff]; apply SameMem.parts) | split | dsimp only

theorem State.serveVoid_mem {s0 : State} {s : State} (m : FabMsg) (hs : SameMem s0 s) :
    SameMem s0 (State.serveVoid s m) := by
  unfold State.serveVoid
  repeat' with_reducible first
    | assumption | intro _ | apply State.voidBlock_mem | apply State.respond_mem | apply SameMem.ite | apply SameMem.foldl
    | (simp only [SameMem.mk_iff]; apply SameMem.parts) | split | dsimp only

theorem execVoid_mem {s0 : State} (k : Nat) {s : State} (hs : SameMem s0 s) :
    SameMemR s0 (execVoid k s) := by
  unfold execVoid
  repeat' with_reducible first
    | assumption | intro _ | apply State.onMsg_mem | apply State.serveVoid_mem | apply SameMemR.next | exact SameMemR.fault | exact SameMemR.refused
    | apply SameMemR.onUnit | apply SameMemR.ite | apply SameMem.ite | apply SameMem.foldl | (simp only [SameMem.mk_iff]; apply SameMem.parts) | split | dsimp only

theorem execRd_mem {s0 : State} (k : Nat) {s : State} (hs : SameMem s0 s) :
    SameMemR s0 (execRd k s) := by
  unfold execRd
  repeat' with_reducible first
    | assumption | intro _ | apply State.serveRd_mem | apply State.onMsg_mem | apply SameMemR.next | exact SameMemR.fault | exact SameMemR.refused
    | apply SameMemR.onUnit | apply SameMemR.ite | apply SameMem.ite | apply SameMem.foldl | (simp only [SameMem.mk_iff]; apply SameMem.parts) | split | dsimp only

theorem State.hostRequest_mem {s0 : State} {s : State} (f : Nat) (q : Nat) (i : Nat) (addr : Nat) (len : Nat) (kind : RemKind) (hs : SameMem s0 s) :
    SameMem s0 (State.hostRequest s f q i addr len kind) := by
  unfold State.hostRequest
  repeat' with_reducible first
    | assumption | intro _ | apply State.addRequest_mem | apply State.send_mem | apply SameMem.ite | apply SameMem.foldl
    | (simp only [SameMem.mk_iff]; apply SameMem.parts) | split | dsimp only

end Sys2Proof.Machine
end

