-- ==== Sys2Proof/Laws/SameMemMovement.lean ====
section
/-!
SUPPORT. What the operations of Machine/Movement.lean leave alone (Laws/SameMem.lean).
-/

set_option linter.all false

namespace Sys2Proof.Machine

theorem State.indexCheck_mem {s0 : State} {s : State} (fl : Flight) (base : Nat) (pack : Nat) (idx : Nat) (rows : Nat) (rb : Nat) (wr : Bool) (hs : SameMem s0 s) :
    SameMem s0 (State.indexCheck s fl base pack idx rows rb wr).1 := by
  unfold State.indexCheck
  repeat' with_reducible first
    | assumption | intro _
    | (extract_lets +onlyGivenNames x; clear_value (hx : x = _); first | refine SameMem.bind (s := s0) hx ?_ (fun _ => ?_) | refine SameMem.bindFst (s := s0) hx ?_ (fun _ => ?_) | refine SameMem.bindJob (s := s0) hx ?_ (fun _ => ?_) | refine SameMem.bindRes (s := s0) hx ?_ (fun _ => ?_) | (refine SameMem.isFaults x ?_; subst hx) | skip)
    | apply JobSt.checkRange_mem | apply SameMem.ite | apply SameMem.foldl | (simp only [SameMem.mk_iff]; apply SameMem.parts) | apply SameMem.iteFst
    | apply SameMem.iteSnd | apply SameMem.iteJob | apply SameMem.foldlJob | refine SameMem.fstEq (by assumption) ?_ | split | dsimp only

theorem State.idleMove_mem {s0 : State} {s : State} (fl : Flight) {k : State} (hs : SameMem s0 s) (hk : SameMem s0 k) :
    SameMem s0 (State.idleMove s fl k) := by
  unfold State.idleMove
  repeat' with_reducible first
    | assumption | intro _ | apply SameMem.ite | apply SameMem.foldl | (simp only [SameMem.mk_iff]; apply SameMem.parts) | split | dsimp only

end Sys2Proof.Machine
end

