-- ==== Sys2Proof/Laws/SameMemSteps.lean ====
section
/-!
SUPPORT. What the operations of Machine/Steps.lean leave alone (Laws/SameMem.lean).
-/

set_option linter.all false

namespace Sys2Proof.Machine

theorem State.sendDecision_mem {s0 : State} {s : State} (f : Nat) (m : Comm) (down : Bool) (src : Nat) (dst : Nat) (c : Contrib) (hs : SameMem s0 s) :
    SameMem s0 (State.sendDecision s f m down src dst c) := by
  unfold State.sendDecision
  repeat' with_reducible first
    | assumption | intro _ | apply State.sendMsg_mem | apply SameMem.ite | apply SameMem.foldl | (simp only [SameMem.mk_iff]; apply SameMem.parts) | split
    | dsimp only

theorem State.passDown_mem {s0 : State} {s : State} (f : Nat) (m : Comm) (d : Decision) (hs : SameMem s0 s) :
    SameMem s0 (State.passDown s f m d) := by
  unfold State.passDown
  repeat' with_reducible first
    | assumption | intro _ | apply State.sendDecision_mem | apply SameMem.ite | apply SameMem.foldl | (simp only [SameMem.mk_iff]; apply SameMem.parts) | split
    | dsimp only

theorem State.setStep_mem {s0 : State} {s : State} (f : Nat) (st : Nat) (hs : SameMem s0 s) :
    SameMem s0 (State.setStep s f st) := by
  unfold State.setStep
  repeat' with_reducible first
    | assumption | intro _ | apply State.setFld_mem | apply SameMem.ite | apply SameMem.foldl | (simp only [SameMem.mk_iff]; apply SameMem.parts) | split
    | dsimp only

theorem State.openAttempt_mem {s0 : State} {s : State} (f : Nat) (attempt : Nat) (hs : SameMem s0 s) :
    SameMem s0 (State.openAttempt s f attempt) := by
  unfold State.openAttempt
  repeat' with_reducible first
    | assumption | intro _
    | (extract_lets +onlyGivenNames x; clear_value (hx : x = _); first | refine SameMem.bind (s := s0) hx ?_ (fun _ => ?_) | (refine SameMem.isFaults x ?_; subst hx) | skip)
    | apply State.setReg_mem | apply State.setStep_mem | apply State.setFld_mem | apply State.setCause_mem | apply State.modDomain_mem | apply SameMem.ite
    | apply SameMem.foldl | (simp only [SameMem.mk_iff]; apply SameMem.parts) | split | dsimp only

theorem State.noteStepSlip_mem {s0 : State} {s : State} (f : Nat) (q : Nat) (i : Nat) (hs : SameMem s0 s) :
    SameMem s0 (State.noteStepSlip s f q i) := by
  unfold State.noteStepSlip
  repeat' with_reducible first
    | assumption | intro _
    | (extract_lets +onlyGivenNames x; clear_value (hx : x = _); first | refine SameMem.bind (s := s0) hx ?_ (fun _ => ?_) | (refine SameMem.isFaults x ?_; subst hx) | skip)
    | apply State.setReg_mem | apply State.count_mem | apply SameMem.ite | apply SameMem.foldl | (simp only [SameMem.mk_iff]; apply SameMem.parts) | split
    | dsimp only

theorem State.stepCommit_mem {s0 : State} {s : State} (fl : Flight) (hs : SameMem s0 s) :
    SameMem s0 (State.stepCommit s fl) := by
  unfold State.stepCommit
  repeat' with_reducible first
    | assumption | intro _
    | (extract_lets +onlyGivenNames x; clear_value (hx : x = _); first | refine SameMem.bind (s := s0) hx ?_ (fun _ => ?_) | (refine SameMem.isFaults x ?_; subst hx) | skip)
    | apply State.endFlight_mem | apply State.modDomain_mem | apply SameMem.ite | apply SameMem.foldl | (simp only [SameMem.mk_iff]; apply SameMem.parts) | split
    | dsimp only

theorem execStepCommit_mem {s0 : State} (q : Nat) (i : Nat) {s : State} (hs : SameMem s0 s) :
    SameMemR s0 (execStepCommit q i s) := by
  unfold execStepCommit
  repeat' with_reducible first
    | assumption | intro _ | apply State.stepCommit_mem | apply State.dispatch_mem | apply SameMemR.next | exact SameMemR.fault | exact SameMemR.refused
    | apply SameMemR.onUnit | apply SameMemR.ite | apply SameMem.ite | apply SameMem.foldl | (simp only [SameMem.mk_iff]; apply SameMem.parts) | split | dsimp only

theorem execHaltClr_mem {s0 : State} (f : Nat) {s : State} (hs : SameMem s0 s) :
    SameMemR s0 (execHaltClr f s) := by
  unfold execHaltClr
  repeat' with_reducible first
    | assumption | intro _ | apply State.setStep_mem | apply onUnit_mem | apply SameMemR.next | exact SameMemR.fault | exact SameMemR.refused
    | apply SameMemR.onUnit | apply SameMemR.ite | apply SameMem.ite | apply SameMem.foldl | (simp only [SameMem.mk_iff]; apply SameMem.parts) | split | dsimp only

end Sys2Proof.Machine
end

