-- ==== Sys2Proof/Laws/SameMemTime.lean ====
section
/-!
SUPPORT. What the operations of Machine/Time.lean leave alone (Laws/SameMem.lean).
-/

set_option linter.all false

namespace Sys2Proof.Machine

theorem State.modBeat_mem {s0 : State} {s : State} (g : BeatLogic → BeatLogic) (hs : SameMem s0 s) :
    SameMem s0 (State.modBeat s g) := by
  unfold State.modBeat
  repeat' with_reducible first
    | assumption | intro _ | apply SameMem.ite | apply SameMem.foldl | (simp only [SameMem.mk_iff]; apply SameMem.parts) | split | dsimp only

theorem State.originConflict_mem {s0 : State} {s : State} (n : Nat) (other : Nat) (hs : SameMem s0 s) :
    SameMem s0 (State.originConflict s n other) := by
  unfold State.originConflict
  repeat' with_reducible first
    | assumption | intro _
    | (extract_lets +onlyGivenNames x; clear_value (hx : x = _); first | refine SameMem.bind (s := s0) hx ?_ (fun _ => ?_) | (refine SameMem.isFaults x ?_; subst hx) | skip)
    | apply State.modBeat_mem | apply State.count_mem | apply State.event_mem | apply SameMem.ite | apply SameMem.foldl
    | (simp only [SameMem.mk_iff]; apply SameMem.parts) | split | dsimp only

theorem State.stepBy_mem {s0 : State} {s : State} (d : Int) (hs : SameMem s0 s) :
    SameMem s0 (State.stepBy s d) := by
  unfold State.stepBy
  repeat' with_reducible first
    | assumption | intro _
    | (extract_lets +onlyGivenNames x; clear_value (hx : x = _); first | refine SameMem.bind (s := s0) hx ?_ (fun _ => ?_) | (refine SameMem.isFaults x ?_; subst hx) | skip)
    | apply State.count_mem | apply SameMem.ite | apply SameMem.foldl | (simp only [SameMem.mk_iff]; apply SameMem.parts) | split | dsimp only

theorem State.setBeatState_mem {s0 : State} {s : State} (v : Nat) (hs : SameMem s0 s) :
    SameMem s0 (State.setBeatState s v) := by
  unfold State.setBeatState
  repeat' with_reducible first
    | assumption | intro _ | apply State.setFld_mem | apply State.fabCounts_mem | apply SameMem.ite | apply SameMem.foldl
    | (simp only [SameMem.mk_iff]; apply SameMem.parts) | split | dsimp only

theorem State.acquire_mem {s0 : State} {s : State} (theta : Int) (hs : SameMem s0 s) :
    SameMem s0 (State.acquire s theta) := by
  unfold State.acquire
  repeat' with_reducible first
    | assumption | intro _
    | (extract_lets +onlyGivenNames x; clear_value (hx : x = _); first | refine SameMem.bind (s := s0) hx ?_ (fun _ => ?_) | (refine SameMem.isFaults x ?_; subst hx) | skip)
    | apply State.modBeat_mem | apply State.stepBy_mem | apply State.setBeatState_mem | apply SameMem.ite | apply SameMem.foldl
    | (simp only [SameMem.mk_iff]; apply SameMem.parts) | split | dsimp only

theorem State.phase_mem {s0 : State} {s : State} (ps : Nat) (hs : SameMem s0 s) :
    SameMem s0 (State.phase s ps) := by
  unfold State.phase
  repeat' with_reducible first
    | assumption | intro _ | apply SameMem.ite | apply SameMem.foldl | (simp only [SameMem.mk_iff]; apply SameMem.parts) | split | dsimp only

theorem State.pathCheck_mem {s0 : State} {s : State} (hs : SameMem s0 s) :
    SameMem s0 (State.pathCheck s) := by
  unfold State.pathCheck
  repeat' with_reducible first
    | assumption | intro _
    | (extract_lets +onlyGivenNames x; clear_value (hx : x = _); first | refine SameMem.bind (s := s0) hx ?_ (fun _ => ?_) | (refine SameMem.isFaults x ?_; subst hx) | skip)
    | apply State.modBeat_mem | apply State.setFld_mem | apply State.setBeatState_mem | apply SameMem.ite | apply SameMem.foldl
    | (simp only [SameMem.mk_iff]; apply SameMem.parts) | split | dsimp only

theorem execTrimUpdate_mem {s0 : State} {s : State} (hs : SameMem s0 s) :
    SameMemR s0 (execTrimUpdate s) := by
  unfold execTrimUpdate
  repeat' with_reducible first
    | assumption | intro _
    | (extract_lets +onlyGivenNames x; clear_value (hx : x = _); first | refine SameMem.bind (s := s0) hx ?_ (fun _ => ?_) | refine SameMem.bindSnd (s := s0) hx ?_ (fun _ => ?_) | (refine SameMem.isFaults x ?_; subst hx) | skip)
    | apply State.setReg_mem | apply State.draw_mem | apply State.modBeat_mem | apply State.setFld_mem | apply State.pathCheck_mem | apply SameMemR.next
    | exact SameMemR.fault | exact SameMemR.refused | apply SameMemR.onUnit | apply SameMemR.ite | apply SameMem.ite | apply SameMem.foldl
    | (simp only [SameMem.mk_iff]; apply SameMem.parts) | apply SameMem.iteFst | apply SameMem.iteSnd | refine SameMem.sndEq (by assumption) ?_ | split | dsimp only

theorem State.timeBeat_mem {s0 : State} {s : State} (hs : SameMem s0 s) :
    SameMem s0 (State.timeBeat s) := by
  unfold State.timeBeat
  repeat' with_reducible first
    | assumption | intro _ | apply State.pathCheck_mem | apply State.count_mem | apply SameMem.ite | apply SameMem.foldl
    | (simp only [SameMem.mk_iff]; apply SameMem.parts) | split | dsimp only

theorem State.originStep_mem {s0 : State} {s : State} (n : Nat) (theta : Int) (hs : SameMem s0 s) :
    SameMem s0 (State.originStep s n theta) := by
  unfold State.originStep
  repeat' with_reducible first
    | assumption | intro _
    | (extract_lets +onlyGivenNames x; clear_value (hx : x = _); first | refine SameMem.bind (s := s0) hx ?_ (fun _ => ?_) | (refine SameMem.isFaults x ?_; subst hx) | skip)
    | apply State.modBeat_mem | apply State.stepBy_mem | apply State.event_mem | apply SameMem.ite | apply SameMem.foldl
    | (simp only [SameMem.mk_iff]; apply SameMem.parts) | split | dsimp only

theorem State.validSample_mem {s0 : State} {s : State} (n : Nat) (m : FabMsg) (theta : Int) (hs : SameMem s0 s) :
    SameMem s0 (State.validSample s n m theta) := by
  unfold State.validSample
  repeat' with_reducible first
    | assumption | intro _
    | (extract_lets +onlyGivenNames x; clear_value (hx : x = _); first | refine SameMem.bind (s := s0) hx ?_ (fun _ => ?_) | (refine SameMem.isFaults x ?_; subst hx) | skip)
    | apply State.acquire_mem | apply State.modBeat_mem | apply State.pathCheck_mem | apply State.originStep_mem | apply State.count_mem | apply SameMem.ite
    | apply SameMem.foldl | (simp only [SameMem.mk_iff]; apply SameMem.parts) | split | dsimp only

theorem execTimeReplyReceive_mem {s0 : State} (k : Nat) (ps : Nat) {s : State} (hs : SameMem s0 s) :
    SameMemR s0 (execTimeReplyReceive k ps s) := by
  unfold execTimeReplyReceive
  repeat' with_reducible first
    | assumption | intro _
    | (extract_lets +onlyGivenNames x; clear_value (hx : x = _); first | refine SameMem.bind (s := s0) hx ?_ (fun _ => ?_) | (refine SameMem.isFaults x ?_; subst hx) | skip)
    | apply State.originConflict_mem | apply State.validSample_mem | apply State.modBeat_mem | apply State.takeMsg_mem | apply State.malformed_mem
    | apply State.phase_mem | apply State.count_mem | apply SameMemR.next | exact SameMemR.fault | exact SameMemR.refused | apply SameMemR.onUnit
    | apply SameMemR.ite | apply SameMem.ite | apply SameMem.foldl | (simp only [SameMem.mk_iff]; apply SameMem.parts) | refine SameMem.optEq3 (by assumption) ?_
    | split | dsimp only

theorem execAcquireTimeout_mem {s0 : State} {s : State} (hs : SameMem s0 s) :
    SameMemR s0 (execAcquireTimeout s) := by
  unfold execAcquireTimeout
  repeat' with_reducible first
    | assumption | intro _ | apply State.setReg_mem | apply State.modBeat_mem | apply State.pathCheck_mem | apply State.setBeatState_mem
    | apply SameMemR.next | exact SameMemR.fault | exact SameMemR.refused | apply SameMemR.onUnit | apply SameMemR.ite | apply SameMem.ite | apply SameMem.foldl
    | (simp only [SameMem.mk_iff]; apply SameMem.parts) | split | dsimp only

theorem execTimeSyncReceive_mem {s0 : State} (k : Nat) (ps : Nat) {s : State} (hs : SameMem s0 s) :
    SameMemR s0 (execTimeSyncReceive k ps s) := by
  unfold execTimeSyncReceive
  repeat' with_reducible first
    | assumption | intro _
    | (extract_lets +onlyGivenNames x; clear_value (hx : x = _); first | refine SameMem.bind (s := s0) hx ?_ (fun _ => ?_) | (refine SameMem.isFaults x ?_; subst hx) | skip)
    | apply State.takeMsg_mem | apply State.malformed_mem | apply State.sendLocal_mem | apply State.phase_mem | apply SameMemR.next | exact SameMemR.fault
    | exact SameMemR.refused | apply SameMemR.onUnit | apply SameMemR.ite | apply SameMem.ite | apply SameMem.foldl | (simp only [SameMem.mk_iff]; apply SameMem.parts)
    | refine SameMem.optEq3 (by assumption) ?_ | split | dsimp only

theorem State.syncLink_mem {s0 : State} {s : State} (n : Nat) (hs : SameMem s0 s) :
    SameMem s0 (State.syncLink s n) := by
  unfold State.syncLink
  repeat' with_reducible first
    | assumption | intro _
    | (extract_lets +onlyGivenNames x; clear_value (hx : x = _); first | refine SameMem.bind (s := s0) hx ?_ (fun _ => ?_) | (refine SameMem.isFaults x ?_; subst hx) | skip)
    | apply State.modBeat_mem | apply State.sendLocal_mem | apply State.count_mem | apply SameMem.ite | apply SameMem.foldl
    | (simp only [SameMem.mk_iff]; apply SameMem.parts) | split | dsimp only

theorem execTimeSyncSend_mem {s0 : State} (ps : Nat) {s : State} (hs : SameMem s0 s) :
    SameMemR s0 (execTimeSyncSend ps s) := by
  unfold execTimeSyncSend
  repeat' with_reducible first
    | assumption | intro _
    | (extract_lets +onlyGivenNames x; clear_value (hx : x = _); first | refine SameMem.bind (s := s0) hx ?_ (fun _ => ?_) | (refine SameMem.isFaults x ?_; subst hx) | skip)
    | apply State.syncLink_mem | apply State.modBeat_mem | apply State.phase_mem | apply SameMemR.next | exact SameMemR.fault | exact SameMemR.refused
    | apply SameMemR.onUnit | apply SameMemR.ite | apply SameMem.ite | apply SameMem.foldl | (simp only [SameMem.mk_iff]; apply SameMem.parts) | split | dsimp only

theorem execBeatNowRead_mem {s0 : State} (ps : Nat) {s : State} (hs : SameMem s0 s) :
    SameMemR s0 (execBeatNowRead ps s) := by
  unfold execBeatNowRead
  repeat' with_reducible first
    | assumption | intro _
    | (extract_lets +onlyGivenNames x; clear_value (hx : x = _); first | refine SameMem.bind (s := s0) hx ?_ (fun _ => ?_) | (refine SameMem.isFaults x ?_; subst hx) | skip)
    | apply State.setFld_mem | apply State.phase_mem | apply State.send_mem | apply SameMemR.next | exact SameMemR.fault | exact SameMemR.refused
    | apply SameMemR.onUnit | apply SameMemR.ite | apply SameMem.ite | apply SameMem.foldl | (simp only [SameMem.mk_iff]; apply SameMem.parts) | split | dsimp only

end Sys2Proof.Machine
end

