-- ==== Sys2Proof/Laws/SameMemCoreReqs.lean ====
section
/-!
SUPPORT. What the operations of Machine/CoreReqs.lean leave alone (Laws/SameMem.lean).
-/

set_option linter.all false

namespace Sys2Proof.Machine

theorem State.sendCoh_mem {s0 : State} {s : State} (m : CohMsg) (hs : SameMem s0 s) :
    SameMem s0 (State.sendCoh s m) := by
  unfold State.sendCoh
  repeat' with_reducible first
    | assumption | intro _
    | (extract_lets +onlyGivenNames x; clear_value (hx : x = _); first | refine SameMem.bind (s := s0) hx ?_ (fun _ => ?_) | (refine SameMem.isFaults x ?_; subst hx) | skip)
    | apply SameMem.ite | apply SameMem.foldl | (simp only [SameMem.mk_iff]; apply SameMem.parts) | split | dsimp only

theorem State.evictLine_mem {s0 : State} {s : State} (k : Nat) (l : Nat) (hs : SameMem s0 s) :
    SameMem s0 (State.evictLine s k l) := by
  unfold State.evictLine
  repeat' with_reducible first
    | assumption | intro _
    | (extract_lets +onlyGivenNames x; clear_value (hx : x = _); first | refine SameMem.bind (s := s0) hx ?_ (fun _ => ?_) | (refine SameMem.isFaults x ?_; subst hx) | skip)
    | apply State.sendCoh_mem | apply State.invalPf_mem | apply State.setCLine_mem | apply State.count_mem | apply SameMem.ite | apply SameMem.foldl
    | (simp only [SameMem.mk_iff]; apply SameMem.parts) | split | dsimp only

theorem State.makeRoom_mem {s0 : State} {s : State} (k : Nat) (l : Nat) (hs : SameMem s0 s) :
    SameMemO (fun x => x) s0 (State.makeRoom s k l) := by
  unfold State.makeRoom
  repeat' with_reducible first
    | assumption | intro _
    | (extract_lets +onlyGivenNames x; clear_value (hx : x = _); first | refine SameMem.bind (s := s0) hx ?_ (fun _ => ?_) | (refine SameMem.isFaults x ?_; subst hx) | skip)
    | apply State.evictLine_mem | exact SameMemO.none | apply SameMemO.some | apply SameMemO.ite | apply SameMem.ite | apply SameMem.foldl
    | (simp only [SameMem.mk_iff]; apply SameMem.parts) | refine SameMem.optEq (by assumption) ?_ | apply SameMem.getD | split | dsimp only

theorem State.clusterRequest_mem {s0 : State} {s : State} (kind : CohKind) (l : Nat) (k : Nat) (hs : SameMem s0 s) :
    SameMem s0 (State.clusterRequest s kind l k) := by
  unfold State.clusterRequest
  repeat' with_reducible first
    | assumption | intro _ | apply State.sendCoh_mem | apply State.count_mem | apply SameMem.ite | apply SameMem.foldl
    | (simp only [SameMem.mk_iff]; apply SameMem.parts) | split | dsimp only

theorem State.waitLine_mem {s0 : State} {s : State} (c : Nat) (id : Nat) (l : Nat) (store : Bool) (hs : SameMem s0 s) :
    SameMemO (fun x => x) s0 (State.waitLine s c id l store) := by
  unfold State.waitLine
  repeat' with_reducible first
    | assumption | intro _
    | (extract_lets +onlyGivenNames x; clear_value (hx : x = _); first | refine SameMem.bind (s := s0) hx ?_ (fun _ => ?_) | (refine SameMem.isFaults x ?_; subst hx) | (refine SameMem.isFun x ?_; subst hx) | skip)
    | apply State.makeRoom_mem | apply State.clusterRequest_mem | apply State.setCLine_mem | exact SameMemO.none | apply SameMemO.some | apply SameMemO.ite
    | apply SameMem.ite | apply SameMem.foldl | (simp only [SameMem.mk_iff]; apply SameMem.parts) | refine SameMem.optEq (by assumption) ?_ | apply SameMem.getD
    | split | dsimp only

theorem State.ncRequest_mem {s0 : State} {s : State} (kind : CohKind) (c : Nat) (id : Nat) (p : Nat) (data : List Byte) (hs : SameMem s0 s) :
    SameMem s0 (State.ncRequest s kind c id p data) := by
  unfold State.ncRequest
  repeat' with_reducible first
    | assumption | intro _ | apply State.sendCoh_mem | apply State.count_mem | apply SameMem.ite | apply SameMem.foldl
    | (simp only [SameMem.mk_iff]; apply SameMem.parts) | split | dsimp only

theorem State.insertPf_mem {s0 : State} {s : State} (c : Nat) (a : Nat) (used : Bool) (hs : SameMem s0 s) :
    SameMem s0 (State.insertPf s c a used) := by
  unfold State.insertPf
  repeat' with_reducible first
    | assumption | intro _
    | (extract_lets +onlyGivenNames x; clear_value (hx : x = _); first | refine SameMem.bind (s := s0) hx ?_ (fun _ => ?_) | (refine SameMem.isFaults x ?_; subst hx) | skip)
    | apply State.setCore_mem | apply State.count_mem | apply SameMem.ite | apply SameMem.foldl | (simp only [SameMem.mk_iff]; apply SameMem.parts) | split
    | dsimp only

theorem State.groupDone_mem {s0 : State} {s : State} (c : Nat) (group : Nat) (mvc : Nat) (hs : SameMem s0 s) :
    SameMem s0 (State.groupDone s c group mvc) := by
  unfold State.groupDone
  repeat' with_reducible first
    | assumption | intro _
    | (extract_lets +onlyGivenNames x; clear_value (hx : x = _); first | refine SameMem.bind (s := s0) hx ?_ (fun _ => ?_) | (refine SameMem.isFaults x ?_; subst hx) | skip)
    | apply State.modCore_mem | apply SameMem.ite | apply SameMem.foldl | (simp only [SameMem.mk_iff]; apply SameMem.parts) | split | dsimp only

theorem State.finishReq_mem {s0 : State} {s : State} (c : Nat) (r : CoreReq) (hs : SameMem s0 s) :
    SameMem s0 (State.finishReq s c r) := by
  unfold State.finishReq
  repeat' with_reducible first
    | assumption | intro _
    | (extract_lets +onlyGivenNames x; clear_value (hx : x = _); first | refine SameMem.bind (s := s0) hx ?_ (fun _ => ?_) | (refine SameMem.isFaults x ?_; subst hx) | skip)
    | apply State.groupDone_mem | apply State.modCore_mem | apply State.insertPf_mem | apply SameMem.ite | apply SameMem.foldl
    | (simp only [SameMem.mk_iff]; apply SameMem.parts) | split | dsimp only

theorem State.writeThreadReg_mem {s0 : State} {s : State} (c : Nat) (t : Nat) (r : Nat) (v : Nat) (hs : SameMem s0 s) :
    SameMem s0 (State.writeThreadReg s c t r v) := by
  unfold State.writeThreadReg
  repeat' with_reducible first
    | assumption | intro _ | apply State.modCore_mem | apply SameMem.ite | apply SameMem.foldl | (simp only [SameMem.mk_iff]; apply SameMem.parts) | split
    | dsimp only

theorem State.programSettle_mem {s0 : State} {s : State} (c : Nat) (hs : SameMem s0 s) :
    SameMem s0 (State.programSettle s c) := by
  unfold State.programSettle
  repeat' with_reducible first
    | assumption | intro _
    | (extract_lets +onlyGivenNames x; clear_value (hx : x = _); first | refine SameMem.bind (s := s0) hx ?_ (fun _ => ?_) | (refine SameMem.isFaults x ?_; subst hx) | skip)
    | apply State.modCore_mem | apply State.settleMove_mem | apply State.modFlight_mem | apply State.sealBlocks_mem | apply SameMem.ite | apply SameMem.foldl
    | (simp only [SameMem.mk_iff]; apply SameMem.parts) | split | dsimp only

theorem State.stopProgram_mem {s0 : State} {s : State} (c : Nat) (st : Nat) (d : Nat) (hs : SameMem s0 s) :
    SameMem s0 (State.stopProgram s c st d) := by
  unfold State.stopProgram
  repeat' with_reducible first
    | assumption | intro _
    | (extract_lets +onlyGivenNames x; clear_value (hx : x = _); first | refine SameMem.bind (s := s0) hx ?_ (fun _ => ?_) | (refine SameMem.isFaults x ?_; subst hx) | skip)
    | apply State.modCore_mem | apply State.programSettle_mem | apply SameMem.ite | apply SameMem.foldl | (simp only [SameMem.mk_iff]; apply SameMem.parts)
    | split | dsimp only

theorem State.programBad_mem {s0 : State} {s : State} (c : Nat) (w : Nat) (hs : SameMem s0 s) :
    SameMem s0 (State.programBad s c w) := by
  unfold State.programBad
  repeat' with_reducible first
    | assumption | intro _ | apply State.stopProgram_mem | apply State.uncorrectable_mem | apply SameMem.ite | apply SameMem.foldl
    | (simp only [SameMem.mk_iff]; apply SameMem.parts) | apply SameMem.iteFst | apply SameMem.iteSnd | refine SameMem.fstEq (by assumption) ?_ | split | dsimp only

theorem State.pieceDone_mem {s0 : State} {s : State} (c : Nat) (id : Nat) (p : Nat) (hs : SameMem s0 s) :
    SameMem s0 (State.pieceDone s c id p) := by
  unfold State.pieceDone
  repeat' with_reducible first
    | assumption | intro _ | apply State.modCore_mem | apply SameMem.ite | apply SameMem.foldl | (simp only [SameMem.mk_iff]; apply SameMem.parts) | split
    | dsimp only

theorem State.touchLine_mem {s0 : State} {s : State} (k : Nat) (l : Nat) (hs : SameMem s0 s) :
    SameMem s0 (State.touchLine s k l) := by
  unfold State.touchLine
  repeat' with_reducible first
    | assumption | intro _
    | (extract_lets +onlyGivenNames x; clear_value (hx : x = _); first | refine SameMem.bind (s := s0) hx ?_ (fun _ => ?_) | (refine SameMem.isFaults x ?_; subst hx) | skip)
    | apply State.setCLine_mem | apply SameMem.ite | apply SameMem.foldl | (simp only [SameMem.mk_iff]; apply SameMem.parts) | split | dsimp only

theorem State.dropAccs_mem {s0 : State} {s : State} (c id : Nat) (hs : SameMem s0 s) :
    SameMem s0 (State.dropAccs s c id) := by
  unfold State.dropAccs
  repeat' with_reducible first
    | assumption | intro _ | apply State.modCore_mem | apply SameMem.ite | apply SameMem.foldl | (simp only [SameMem.mk_iff]; apply SameMem.parts) | split | dsimp only

theorem State.noteWritten_mem {s0 : State} {s : State} (c : Nat) (p : Nat) (n : Nat) (hs : SameMem s0 s) :
    SameMem s0 (State.noteWritten s c p n) := by
  unfold State.noteWritten
  repeat' with_reducible first
    | assumption | intro _ | apply State.modFlight_mem | apply SameMem.ite | apply SameMem.foldl | (simp only [SameMem.mk_iff]; apply SameMem.parts) | split
    | dsimp only

end Sys2Proof.Machine
end

