-- ==== Sys2Proof/Laws/SameMemCoherence.lean ====
section
/-!
SUPPORT. What the operations of Machine/Coherence.lean leave alone (Laws/SameMem.lean).
-/

set_option linter.all false

namespace Sys2Proof.Machine

theorem State.snoopAnswer_mem {s0 : State} {s : State} (l : Nat) (k : Nat) (kind : CohKind) (dirty : Bool) (hs : SameMem s0 s) :
    SameMem s0 (State.snoopAnswer s l k kind dirty) := by
  unfold State.snoopAnswer
  repeat' with_reducible first
    | assumption | intro _
    | (extract_lets +onlyGivenNames x; clear_value (hx : x = _); first | refine SameMem.bind (s := s0) hx ?_ (fun _ => ?_) | (refine SameMem.isFaults x ?_; subst hx) | skip)
    | apply State.sendCoh_mem | apply SameMem.ite | apply SameMem.foldl | (simp only [SameMem.mk_iff]; apply SameMem.parts) | split | dsimp only

theorem State.invalidated_mem {s0 : State} {s : State} (l : Nat) (k : Nat) (hs : SameMem s0 s) :
    SameMem s0 (State.invalidated s l k) := by
  unfold State.invalidated
  repeat' with_reducible first
    | assumption | intro _ | apply State.invalPf_mem | apply State.setCLine_mem | apply State.count_mem | apply SameMem.ite | apply SameMem.foldl
    | (simp only [SameMem.mk_iff]; apply SameMem.parts) | split | dsimp only

theorem State.answerSnoop_mem {s0 : State} {s : State} (l : Nat) (k : Nat) (sn : SnoopKind) (hs : SameMem s0 s) :
    SameMem s0 (State.answerSnoop s l k sn) := by
  unfold State.answerSnoop
  repeat' with_reducible first
    | assumption | intro _
    | (extract_lets +onlyGivenNames x; clear_value (hx : x = _); first | refine SameMem.bind (s := s0) hx ?_ (fun _ => ?_) | (refine SameMem.isFaults x ?_; subst hx) | skip)
    | apply State.invalPf_mem | apply State.setCLine_mem | apply State.snoopAnswer_mem | apply State.count_mem | apply State.invalidated_mem
    | apply SameMem.ite | apply SameMem.foldl | (simp only [SameMem.mk_iff]; apply SameMem.parts) | split | dsimp only

theorem State.takeCoh_mem {s0 : State} {s : State} (p : CohMsg → Bool) (hs : SameMem s0 s) :
    SameMemO (fun x => x.2) s0 (State.takeCoh s p) := by
  unfold State.takeCoh
  repeat' with_reducible first
    | assumption | intro _
    | (extract_lets +onlyGivenNames x; clear_value (hx : x = _); first | refine SameMem.bind (s := s0) hx ?_ (fun _ => ?_) | (refine SameMem.isFaults x ?_; subst hx) | skip)
    | exact SameMemO.none | apply SameMemO.some | apply SameMemO.ite | apply SameMem.ite | apply SameMem.foldl | (simp only [SameMem.mk_iff]; apply SameMem.parts)
    | refine SameMem.optEq2 (by assumption) ?_ | split | dsimp only

theorem State.snoopRow_mem {s0 : State} {s : State} (l : Nat) (k : Nat) (kind : CohKind) (sn : SnoopKind) (hs : SameMem s0 s) :
    SameMem s0 (State.snoopRow s l k kind sn) := by
  unfold State.snoopRow
  repeat' with_reducible first
    | assumption | intro _ | apply State.answerSnoop_mem | apply State.takeCoh_mem | apply State.count_mem | apply SameMem.ite | apply SameMem.foldl
    | (simp only [SameMem.mk_iff]; apply SameMem.parts) | refine SameMem.optEq2 (by assumption) ?_ | split | dsimp only

theorem execSnprd_mem {s0 : State} (l : Nat) (k : Nat) {s : State} (hs : SameMem s0 s) :
    SameMemR s0 (execSnprd l k s) := by
  unfold execSnprd
  repeat' with_reducible first
    | assumption | intro _ | apply State.snoopRow_mem | apply onUnit_mem | apply SameMemR.next | exact SameMemR.fault | exact SameMemR.refused
    | apply SameMemR.onUnit | apply SameMemR.ite | apply SameMem.ite | apply SameMem.foldl | (simp only [SameMem.mk_iff]; apply SameMem.parts) | split | dsimp only

theorem State.askAgain_mem {s0 : State} {s : State} (l : Nat) (k : Nat) (hs : SameMem s0 s) :
    SameMem s0 (State.askAgain s l k) := by
  unfold State.askAgain
  repeat' with_reducible first
    | assumption | intro _
    | (extract_lets +onlyGivenNames x; clear_value (hx : x = _); first | refine SameMem.bind (s := s0) hx ?_ (fun _ => ?_) | (refine SameMem.isFaults x ?_; subst hx) | skip)
    | apply State.clusterRequest_mem | apply State.setCLine_mem | apply SameMem.ite | apply SameMem.foldl | (simp only [SameMem.mk_iff]; apply SameMem.parts)
    | split | dsimp only

theorem execWback_mem {s0 : State} (l : Nat) (k : Nat) {s : State} (hs : SameMem s0 s) :
    SameMemR s0 (execWback l k s) := by
  unfold execWback
  repeat' with_reducible first
    | assumption | intro _
    | (extract_lets +onlyGivenNames x; clear_value (hx : x = _); first | refine SameMem.bind (s := s0) hx ?_ (fun _ => ?_) | (refine SameMem.isFaults x ?_; subst hx) | skip)
    | apply State.askAgain_mem | apply onUnit_mem | apply State.takeCoh_mem | apply State.setCLine_mem | apply SameMemR.next | exact SameMemR.fault
    | exact SameMemR.refused | apply SameMemR.onUnit | apply SameMemR.ite | apply SameMem.ite | apply SameMem.foldl | (simp only [SameMem.mk_iff]; apply SameMem.parts)
    | refine SameMem.optEq2 (by assumption) ?_ | split | dsimp only

theorem State.answerHeld_mem {s0 : State} {s : State} (l : Nat) (k : Nat) (hs : SameMem s0 s) :
    SameMem s0 (State.answerHeld s l k) := by
  unfold State.answerHeld
  repeat' with_reducible first
    | assumption | intro _
    | (extract_lets +onlyGivenNames x; clear_value (hx : x = _); first | refine SameMem.bind (s := s0) hx ?_ (fun _ => ?_) | (refine SameMem.isFaults x ?_; subst hx) | skip)
    | apply State.answerSnoop_mem | apply State.setCLine_mem | apply SameMem.ite | apply SameMem.foldl | (simp only [SameMem.mk_iff]; apply SameMem.parts) | split
    | dsimp only

theorem State.setDir_mem {s0 : State} {s : State} (l : Nat) (e : DirEntry) (hs : SameMem s0 s) :
    SameMem s0 (State.setDir s l e) := by
  unfold State.setDir
  repeat' with_reducible first
    | assumption | intro _
    | (extract_lets +onlyGivenNames x; clear_value (hx : x = _); first | refine SameMem.bind (s := s0) hx ?_ (fun _ => ?_) | (refine SameMem.isFaults x ?_; subst hx) | skip)
    | apply SameMem.ite | apply SameMem.foldl | (simp only [SameMem.mk_iff]; apply SameMem.parts) | split | dsimp only

theorem State.countDir_mem {s0 : State} {s : State} (l : Nat) (off : Nat) (n : Nat) (hs : SameMem s0 s) :
    SameMem s0 (State.countDir s l off n) := by
  unfold State.countDir
  repeat' with_reducible first
    | assumption | intro _ | apply State.count_mem | apply SameMem.ite | apply SameMem.foldl | (simp only [SameMem.mk_iff]; apply SameMem.parts) | split
    | dsimp only

theorem State.snoop_mem {s0 : State} {s : State} (l : Nat) (kind : CohKind) (ks : List Nat) (hs : SameMem s0 s) :
    SameMem s0 (State.snoop s l kind ks) := by
  unfold State.snoop
  repeat' with_reducible first
    | assumption | intro _ | apply State.sendCoh_mem | apply State.countDir_mem | apply SameMem.ite | apply SameMem.foldl
    | (simp only [SameMem.mk_iff]; apply SameMem.parts) | split | dsimp only

theorem State.startTxn_mem {s0 : State} {s : State} (l : Nat) (q : HomeReq) (hs : SameMem s0 s) :
    SameMem s0 (State.startTxn s l q) := by
  unfold State.startTxn
  repeat' with_reducible first
    | assumption | intro _
    | (extract_lets +onlyGivenNames x; clear_value (hx : x = _); first | refine SameMem.bind (s := s0) hx ?_ (fun _ => ?_) | (refine SameMem.isFaults x ?_; subst hx) | skip)
    | apply State.snoop_mem | apply State.setDir_mem | apply SameMem.ite | apply SameMem.foldl | (simp only [SameMem.mk_iff]; apply SameMem.parts) | split
    | dsimp only

theorem State.grant_mem {s0 : State} {s : State} (l : Nat) (t : Txn) (kind : CohKind) (hs : SameMem s0 s) :
    SameMem s0 (State.grant s l t kind) := by
  unfold State.grant
  repeat' with_reducible first
    | assumption | intro _
    | (extract_lets +onlyGivenNames x; clear_value (hx : x = _); first | refine SameMem.bind (s := s0) hx ?_ (fun _ => ?_) | (refine SameMem.isFaults x ?_; subst hx) | skip)
    | apply State.sendCoh_mem | apply SameMem.ite | apply SameMem.foldl | (simp only [SameMem.mk_iff]; apply SameMem.parts) | split | dsimp only

theorem State.modDir_mem {s0 : State} {s : State} (l : Nat) (g : DirEntry → DirEntry) (hs : SameMem s0 s) :
    SameMem s0 (State.modDir s l g) := by
  unfold State.modDir
  repeat' with_reducible first
    | assumption | intro _ | apply State.setDir_mem | apply SameMem.ite | apply SameMem.foldl | (simp only [SameMem.mk_iff]; apply SameMem.parts) | split
    | dsimp only

theorem execSnps_mem {s0 : State} (l : Nat) (k : Nat) {s : State} (hs : SameMem s0 s) :
    SameMemR s0 (execSnps l k s) := by
  unfold execSnps
  repeat' with_reducible first
    | assumption | intro _ | apply State.snoopRow_mem | apply onUnit_mem | apply SameMemR.next | exact SameMemR.fault | exact SameMemR.refused
    | apply SameMemR.onUnit | apply SameMemR.ite | apply SameMem.ite | apply SameMem.foldl | (simp only [SameMem.mk_iff]; apply SameMem.parts) | split | dsimp only

theorem execDirAgeWarn_mem {s0 : State} (l : Nat) {s : State} (hs : SameMem s0 s) :
    SameMemR s0 (execDirAgeWarn l s) := by
  unfold execDirAgeWarn
  repeat' with_reducible first
    | assumption | intro _
    | (extract_lets +onlyGivenNames x; clear_value (hx : x = _); first | refine SameMem.bind (s := s0) hx ?_ (fun _ => ?_) | (refine SameMem.isFaults x ?_; subst hx) | skip)
    | apply onUnit_mem | apply State.setDir_mem | apply State.countDir_mem | apply State.event_mem | apply SameMemR.next | exact SameMemR.fault
    | exact SameMemR.refused | apply SameMemR.onUnit | apply SameMemR.ite | apply SameMem.ite | apply SameMem.foldl | (simp only [SameMem.mk_iff]; apply SameMem.parts)
    | split | dsimp only

theorem execSnpinv_mem {s0 : State} (l : Nat) (k : Nat) {s : State} (hs : SameMem s0 s) :
    SameMemR s0 (execSnpinv l k s) := by
  unfold execSnpinv
  repeat' with_reducible first
    | assumption | intro _ | apply State.snoopRow_mem | apply onUnit_mem | apply SameMemR.next | exact SameMemR.fault | exact SameMemR.refused
    | apply SameMemR.onUnit | apply SameMemR.ite | apply SameMem.ite | apply SameMem.foldl | (simp only [SameMem.mk_iff]; apply SameMem.parts) | split | dsimp only

theorem execSnpm_mem {s0 : State} (l : Nat) (k : Nat) {s : State} (hs : SameMem s0 s) :
    SameMemR s0 (execSnpm l k s) := by
  unfold execSnpm
  repeat' with_reducible first
    | assumption | intro _ | apply State.snoopRow_mem | apply onUnit_mem | apply SameMemR.next | exact SameMemR.fault | exact SameMemR.refused
    | apply SameMemR.onUnit | apply SameMemR.ite | apply SameMem.ite | apply SameMem.foldl | (simp only [SameMem.mk_iff]; apply SameMem.parts) | split | dsimp only

end Sys2Proof.Machine
end

