-- ==== Sys2Proof/Laws/SameMemThreads.lean ====
section
/-!
SUPPORT. What the operations of Machine/Threads.lean leave alone (Laws/SameMem.lean).
-/

set_option linter.all false

namespace Sys2Proof.Machine

theorem State.threadWait_mem {s0 : State} {s : State} (c : Nat) (t : Nat) (w : ThreadWait) (hs : SameMem s0 s) :
    SameMem s0 (State.threadWait s c t w) := by
  unfold State.threadWait
  repeat' with_reducible first
    | assumption | intro _
    | (extract_lets +onlyGivenNames x; clear_value (hx : x = _); first | refine SameMem.bind (s := s0) hx ?_ (fun _ => ?_) | (refine SameMem.isFaults x ?_; subst hx) | skip)
    | apply State.modCore_mem | apply SameMem.ite | apply SameMem.foldl | (simp only [SameMem.mk_iff]; apply SameMem.parts) | split | dsimp only

theorem State.issued_mem {s0 : State} {s : State} (c : Nat) (t : Nat) (hs : SameMem s0 s) :
    SameMem s0 (State.issued s c t) := by
  unfold State.issued
  repeat' with_reducible first
    | assumption | intro _
    | (extract_lets +onlyGivenNames x; clear_value (hx : x = _); first | refine SameMem.bind (s := s0) hx ?_ (fun _ => ?_) | (refine SameMem.isFaults x ?_; subst hx) | skip)
    | apply State.countCycles_mem | apply State.modCore_mem | apply State.count_mem | apply SameMem.ite | apply SameMem.foldl
    | (simp only [SameMem.mk_iff]; apply SameMem.parts) | split | dsimp only

theorem State.issue_mem {s0 : State} {s : State} (c : Nat) (t : Nat) (move : Bool) (k : State → Flight → State) (hs : SameMem s0 s) (hk : ∀ y0 y1, SameMem s0 y0 → SameMem s0 (k y0 y1)) :
    SameMem s0 (State.issue s c t move k) := by
  unfold State.issue
  repeat' with_reducible first
    | assumption | intro _ | apply State.issued_mem | apply State.stopProgram_mem | apply hk | apply SameMem.ite | apply SameMem.foldl
    | (simp only [SameMem.mk_iff]; apply SameMem.parts) | split | dsimp only

theorem threadRow_mem {s0 : State} (c : Nat) (t : Nat) (move : Bool) {s : State} (k : State → Flight → State) (hs : SameMem s0 s) (hk : ∀ y0 y1, SameMem s0 y0 → SameMem s0 (k y0 y1)) :
    SameMemR s0 (threadRow c t move s k) := by
  unfold threadRow
  repeat' with_reducible first
    | assumption | intro _ | apply State.issue_mem | apply onUnit_mem | apply hk | apply SameMemR.next | exact SameMemR.fault | exact SameMemR.refused
    | apply SameMemR.onUnit | apply SameMemR.ite | apply SameMem.ite | apply SameMem.foldl | (simp only [SameMem.mk_iff]; apply SameMem.parts) | split | dsimp only

theorem execFenceDevice_mem {s0 : State} (c : Nat) (t : Nat) {s : State} (hs : SameMem s0 s) :
    SameMemR s0 (execFenceDevice c t s) := by
  unfold execFenceDevice
  repeat' with_reducible first
    | assumption | intro _ | apply State.threadWait_mem | apply threadRow_mem | apply SameMemR.next | exact SameMemR.fault | exact SameMemR.refused
    | apply SameMemR.onUnit | apply SameMemR.ite | apply SameMem.ite | apply SameMem.foldl | (simp only [SameMem.mk_iff]; apply SameMem.parts) | split | dsimp only

theorem execSemwaitAcq_mem {s0 : State} (c : Nat) (t : Nat) (n : Nat) (v : Nat) (scope : Nat) {s : State} (hs : SameMem s0 s) :
    SameMemR s0 (execSemwaitAcq c t n v scope s) := by
  unfold execSemwaitAcq
  repeat' with_reducible first
    | assumption | intro _ | apply State.threadWait_mem | apply State.stopProgram_mem | apply threadRow_mem | apply SameMemR.next | exact SameMemR.fault
    | exact SameMemR.refused | apply SameMemR.onUnit | apply SameMemR.ite | apply SameMem.ite | apply SameMem.foldl | (simp only [SameMem.mk_iff]; apply SameMem.parts)
    | split | dsimp only

theorem State.movePlaces_mem {s0 : State} {s : State} (fn : Nat) (wr : Bool) (x4 : List (Nat × Nat)) (hs : SameMem s0 s) :
    SameMem s0 (State.movePlaces s fn wr x4).1 := by
  induction x4 generalizing s fn wr with
  | nil =>
    unfold State.movePlaces
    repeat' with_reducible first
      | assumption | intro _ | apply State.writePlace_mem | apply SameMem.ite | apply SameMem.foldl | (simp only [SameMem.mk_iff]; apply SameMem.parts)
      | apply SameMem.iteFst | apply SameMem.iteSnd | refine SameMem.fstEq (by assumption) ?_ | split | dsimp only
  | cons y ys ih =>
    unfold State.movePlaces
    repeat' with_reducible first
      | assumption | intro _ | apply State.writePlace_mem | apply ih | apply SameMem.ite | apply SameMem.foldl | (simp only [SameMem.mk_iff]; apply SameMem.parts)
      | apply SameMem.iteFst | apply SameMem.iteSnd | refine SameMem.fstEq (by assumption) ?_ | split | dsimp only

theorem State.drawLane_mem {s0 : State} {s : State} (c : Nat) (lane : Nat) (hs : SameMem s0 s) :
    SameMem s0 (State.drawLane s c lane).2 := by
  unfold State.drawLane
  repeat' with_reducible first
    | assumption | intro _
    | (extract_lets +onlyGivenNames x; clear_value (hx : x = _); first | refine SameMem.bind (s := s0) hx ?_ (fun _ => ?_) | refine SameMem.bindSnd (s := s0) hx ?_ (fun _ => ?_) | (refine SameMem.isFaults x ?_; subst hx) | skip)
    | apply State.modCore_mem | apply State.count_mem | apply SameMem.ite | apply SameMem.foldl | (simp only [SameMem.mk_iff]; apply SameMem.parts)
    | apply SameMem.iteFst | apply SameMem.iteSnd | refine SameMem.sndEq (by assumption) ?_ | split | dsimp only

theorem randRow_mem {s0 : State} (c : Nat) (t : Nat) (lane : Nat) {s : State} (k : Nat → State → State) (hs : SameMem s0 s) (hk : ∀ y0 y1, SameMem s0 y1 → SameMem s0 (k y0 y1)) :
    SameMemR s0 (randRow c t lane s k) := by
  unfold randRow
  repeat' with_reducible first
    | assumption | intro _ | apply State.drawLane_mem | apply threadRow_mem | apply hk | apply SameMemR.next | exact SameMemR.fault | exact SameMemR.refused
    | apply SameMemR.onUnit | apply SameMemR.ite | apply SameMem.ite | apply SameMem.foldl | (simp only [SameMem.mk_iff]; apply SameMem.parts) | apply SameMem.iteFst
    | apply SameMem.iteSnd | refine SameMem.sndEq (by assumption) ?_ | split | dsimp only

theorem execRandUo_mem {s0 : State} (c : Nat) (t : Nat) (lane : Nat) (reg : Nat) {s : State} (hs : SameMem s0 s) :
    SameMemR s0 (execRandUo c t lane reg s) := by
  unfold execRandUo
  repeat' with_reducible first
    | assumption | intro _ | apply randRow_mem | apply State.writeThreadReg_mem | apply SameMemR.next | exact SameMemR.fault | exact SameMemR.refused
    | apply SameMemR.onUnit | apply SameMemR.ite | apply SameMem.ite | apply SameMem.foldl | (simp only [SameMem.mk_iff]; apply SameMem.parts) | split | dsimp only

theorem State.newDemand_mem {s0 : State} {s : State} (c : Nat) (addr : Nat) (size : Nat) (acc : ThreadAcc) (hs : SameMem s0 s) :
    SameMem s0 (State.newDemand s c addr size acc) := by
  unfold State.newDemand
  repeat' with_reducible first
    | assumption | intro _
    | (extract_lets +onlyGivenNames x; clear_value (hx : x = _); first | refine SameMem.bind (s := s0) hx ?_ (fun _ => ?_) | (refine SameMem.isFaults x ?_; subst hx) | skip)
    | apply State.setCore_mem | apply SameMem.ite | apply SameMem.foldl | (simp only [SameMem.mk_iff]; apply SameMem.parts) | split | dsimp only

theorem execRandBern_mem {s0 : State} (c : Nat) (t : Nat) (lane : Nat) (reg : Nat) (p : Nat) {s : State} (hs : SameMem s0 s) :
    SameMemR s0 (execRandBern c t lane reg p s) := by
  unfold execRandBern
  repeat' with_reducible first
    | assumption | intro _ | apply randRow_mem | apply State.writeThreadReg_mem | apply SameMemR.next | exact SameMemR.fault | exact SameMemR.refused
    | apply SameMemR.onUnit | apply SameMemR.ite | apply SameMem.ite | apply SameMem.foldl | (simp only [SameMem.mk_iff]; apply SameMem.parts) | split | dsimp only

theorem State.mergeAcc_mem {s0 : State} {s : State} (c : Nat) (r : CoreReq) (acc : ThreadAcc) (hs : SameMem s0 s) :
    SameMem s0 (State.mergeAcc s c r acc) := by
  unfold State.mergeAcc
  repeat' with_reducible first
    | assumption | intro _
    | (extract_lets +onlyGivenNames x; clear_value (hx : x = _); first | refine SameMem.bind (s := s0) hx ?_ (fun _ => ?_) | (refine SameMem.isFaults x ?_; subst hx) | skip)
    | apply State.modCore_mem | apply State.count_mem | apply SameMem.ite | apply SameMem.foldl | (simp only [SameMem.mk_iff]; apply SameMem.parts) | split
    | dsimp only

theorem State.uncachedAccess_mem {s0 : State} {s back : State} (c : Nat) (fl : Flight) (acc : ThreadAcc) (hs : SameMem s0 s) (hb : SameMem s0 back) :
    SameMem s0 (State.uncachedAccess s back c fl acc) := by
  unfold State.uncachedAccess
  repeat' with_reducible first
    | assumption | intro _
    | (extract_lets +onlyGivenNames x; clear_value (hx : x = _); first | refine SameMem.bind (s := s0) hx ?_ (fun _ => ?_) | (refine SameMem.isFaults x ?_; subst hx) | skip)
    | apply State.mergeAcc_mem | apply State.countCycles_mem | apply State.newDemand_mem | apply State.request_mem | apply State.stopProgram_mem
    | apply SameMem.ite | apply SameMem.foldl | (simp only [SameMem.mk_iff]; apply SameMem.parts) | split | dsimp only

theorem execRandU32_mem {s0 : State} (c : Nat) (t : Nat) (lane : Nat) (reg : Nat) {s : State} (hs : SameMem s0 s) :
    SameMemR s0 (execRandU32 c t lane reg s) := by
  unfold execRandU32
  repeat' with_reducible first
    | assumption | intro _ | apply randRow_mem | apply State.writeThreadReg_mem | apply SameMemR.next | exact SameMemR.fault | exact SameMemR.refused
    | apply SameMemR.onUnit | apply SameMemR.ite | apply SameMem.ite | apply SameMem.foldl | (simp only [SameMem.mk_iff]; apply SameMem.parts) | split | dsimp only

theorem execRandNtab_mem {s0 : State} (c : Nat) (t : Nat) (lane : Nat) (reg : Nat) {s : State} (hs : SameMem s0 s) :
    SameMemR s0 (execRandNtab c t lane reg s) := by
  unfold execRandNtab
  repeat' with_reducible first
    | assumption | intro _ | apply randRow_mem | apply State.writeThreadReg_mem | apply SameMemR.next | exact SameMemR.fault | exact SameMemR.refused
    | apply SameMemR.onUnit | apply SameMemR.ite | apply SameMem.ite | apply SameMem.foldl | (simp only [SameMem.mk_iff]; apply SameMem.parts) | split | dsimp only

theorem execFenceCore_mem {s0 : State} (c : Nat) (t : Nat) {s : State} (hs : SameMem s0 s) :
    SameMemR s0 (execFenceCore c t s) := by
  unfold execFenceCore
  repeat' with_reducible first
    | assumption | intro _ | apply State.threadWait_mem | apply threadRow_mem | apply SameMemR.next | exact SameMemR.fault | exact SameMemR.refused
    | apply SameMemR.onUnit | apply SameMemR.ite | apply SameMem.ite | apply SameMem.foldl | (simp only [SameMem.mk_iff]; apply SameMem.parts) | split | dsimp only

theorem State.applyPfBuf_mem {s0 : State} {s : State} (c : Nat) (hs : SameMem s0 s) :
    SameMem s0 (State.applyPfBuf s c) := by
  unfold State.applyPfBuf
  repeat' with_reducible first
    | assumption | intro _
    | (extract_lets +onlyGivenNames x; clear_value (hx : x = _); first | refine SameMem.bind (s := s0) hx ?_ (fun _ => ?_) | (refine SameMem.isFaults x ?_; subst hx) | skip)
    | apply State.setCore_mem | apply State.count_mem | apply SameMem.ite | apply SameMem.foldl | (simp only [SameMem.mk_iff]; apply SameMem.parts) | split
    | dsimp only

theorem State.vprog_mem {s0 : State} {s : State} (fl : Flight) (draws : Bool) (hs : SameMem s0 s) :
    SameMem s0 (State.vprog s fl draws) := by
  unfold State.vprog
  repeat' with_reducible first
    | assumption | intro _ | apply State.countCycles_mem
    | (extract_lets +onlyGivenNames x; clear_value (hx : x = _); first | refine SameMem.bind (s := s0) hx ?_ (fun _ => ?_) | (refine SameMem.isFaults x ?_; subst hx) | skip)
    | apply State.modCore_mem | apply State.programSettle_mem | apply State.setFld_mem | apply State.endFlight_mem | apply State.stopProgram_mem
    | apply State.count_mem | apply State.applyPfBuf_mem | apply SameMem.ite | apply SameMem.foldl | (simp only [SameMem.mk_iff]; apply SameMem.parts) | split
    | dsimp only

theorem execRandNbm_mem {s0 : State} (c : Nat) (t : Nat) (lane : Nat) (reg0 : Nat) (reg1 : Nat) {s : State} (hs : SameMem s0 s) :
    SameMemR s0 (execRandNbm c t lane reg0 reg1 s) := by
  unfold execRandNbm
  repeat' with_reducible first
    | assumption | intro _
    | (extract_lets +onlyGivenNames x; clear_value (hx : x = _); first | refine SameMem.bind (s := s0) hx ?_ (fun _ => ?_) | refine SameMem.bindSnd (s := s0) hx ?_ (fun _ => ?_) | (refine SameMem.isFaults x ?_; subst hx) | skip)
    | apply randRow_mem | apply State.drawLane_mem | apply State.writeThreadReg_mem | apply SameMemR.next | exact SameMemR.fault | exact SameMemR.refused
    | apply SameMemR.onUnit | apply SameMemR.ite | apply SameMem.ite | apply SameMem.foldl | (simp only [SameMem.mk_iff]; apply SameMem.parts) | apply SameMem.iteFst
    | apply SameMem.iteSnd | refine SameMem.sndEq (by assumption) ?_ | split | dsimp only

theorem execHalt_mem {s0 : State} (c : Nat) (t : Nat) {s : State} (hs : SameMem s0 s) :
    SameMemR s0 (execHalt c t s) := by
  unfold execHalt
  repeat' with_reducible first
    | assumption | intro _ | apply State.countCycles_mem
    | (extract_lets +onlyGivenNames x; clear_value (hx : x = _); first | refine SameMem.bind (s := s0) hx ?_ (fun _ => ?_) | (refine SameMem.isFaults x ?_; subst hx) | skip)
    | apply State.modCore_mem | apply State.programSettle_mem | apply threadRow_mem | apply State.applyPfBuf_mem | apply SameMemR.next | exact SameMemR.fault
    | exact SameMemR.refused | apply SameMemR.onUnit | apply SameMemR.ite | apply SameMem.ite | apply SameMem.foldl | (simp only [SameMem.mk_iff]; apply SameMem.parts)
    | split | dsimp only

theorem execRandU_mem {s0 : State} (c : Nat) (t : Nat) (lane : Nat) (reg : Nat) {s : State} (hs : SameMem s0 s) :
    SameMemR s0 (execRandU c t lane reg s) := by
  unfold execRandU
  repeat' with_reducible first
    | assumption | intro _ | apply randRow_mem | apply State.writeThreadReg_mem | apply SameMemR.next | exact SameMemR.fault | exact SameMemR.refused
    | apply SameMemR.onUnit | apply SameMemR.ite | apply SameMem.ite | apply SameMem.foldl | (simp only [SameMem.mk_iff]; apply SameMem.parts) | split | dsimp only

theorem execFenceFabric_mem {s0 : State} (c : Nat) (t : Nat) {s : State} (hs : SameMem s0 s) :
    SameMemR s0 (execFenceFabric c t s) := by
  unfold execFenceFabric
  repeat' with_reducible first
    | assumption | intro _ | apply State.threadWait_mem | apply threadRow_mem | apply SameMemR.next | exact SameMemR.fault | exact SameMemR.refused
    | apply SameMemR.onUnit | apply SameMemR.ite | apply SameMem.ite | apply SameMem.foldl | (simp only [SameMem.mk_iff]; apply SameMem.parts) | split | dsimp only

theorem execWaitc_mem {s0 : State} (c : Nat) (t : Nat) (m : Nat) (v : Nat) {s : State} (hs : SameMem s0 s) :
    SameMemR s0 (execWaitc c t m v s) := by
  unfold execWaitc
  repeat' with_reducible first
    | assumption | intro _ | apply State.threadWait_mem | apply threadRow_mem | apply SameMemR.next | exact SameMemR.fault | exact SameMemR.refused
    | apply SameMemR.onUnit | apply SameMemR.ite | apply SameMem.ite | apply SameMem.foldl | (simp only [SameMem.mk_iff]; apply SameMem.parts) | split | dsimp only

theorem execFenceCluster_mem {s0 : State} (c : Nat) (t : Nat) {s : State} (hs : SameMem s0 s) :
    SameMemR s0 (execFenceCluster c t s) := by
  unfold execFenceCluster
  repeat' with_reducible first
    | assumption | intro _ | apply State.threadWait_mem | apply threadRow_mem | apply SameMemR.next | exact SameMemR.fault | exact SameMemR.refused
    | apply SameMemR.onUnit | apply SameMemR.ite | apply SameMem.ite | apply SameMem.foldl | (simp only [SameMem.mk_iff]; apply SameMem.parts) | split | dsimp only

theorem execTrace_mem {s0 : State} (c : Nat) (t : Nat) (v : Nat) {s : State} (hs : SameMem s0 s) :
    SameMemR s0 (execTrace c t v s) := by
  unfold execTrace
  repeat' with_reducible first
    | assumption | intro _ | apply State.traceCore_mem | apply threadRow_mem | apply SameMemR.next | exact SameMemR.fault | exact SameMemR.refused
    | apply SameMemR.onUnit | apply SameMemR.ite | apply SameMem.ite | apply SameMem.foldl | (simp only [SameMem.mk_iff]; apply SameMem.parts) | split | dsimp only

theorem execVprog_mem {s0 : State} (q : Nat) (i : Nat) (draws : Bool) (movBad : Bool) {s : State} (hs : SameMem s0 s) :
    SameMemR s0 (execVprog q i draws movBad s) := by
  unfold execVprog
  repeat' with_reducible first
    | assumption | intro _ | apply State.vprog_mem | apply State.dispatch_mem | apply SameMemR.next | exact SameMemR.fault | exact SameMemR.refused
    | apply SameMemR.onUnit | apply SameMemR.ite | apply SameMem.ite | apply SameMem.foldl | (simp only [SameMem.mk_iff]; apply SameMem.parts) | split | dsimp only

end Sys2Proof.Machine
end

