-- ==== Sys2Proof/Laws/SameMemSleep.lean ====
section
/-!
SUPPORT. What the operations of Machine/Sleep.lean leave alone (Laws/SameMem.lean).
-/

set_option linter.all false

namespace Sys2Proof.Machine

theorem State.rebook_mem {s0 : State} {s : State} (r : Nat) (ca : Nat) (o : Owner) (hs : SameMem s0 s) :
    SameMem s0 (State.rebook s r ca o) := by
  unfold State.rebook
  repeat' with_reducible first
    | assumption | intro _ | apply State.askSys_mem | apply State.release_mem | apply SameMem.ite | apply SameMem.foldl
    | (simp only [SameMem.mk_iff]; apply SameMem.parts) | split | dsimp only

theorem State.sleepBookings_mem {s0 : State} {s : State} (c : Nat) (hs : SameMem s0 s) :
    SameMem s0 (State.sleepBookings s c) := by
  unfold State.sleepBookings
  repeat' with_reducible first
    | assumption | intro _
    | (extract_lets +onlyGivenNames x; clear_value (hx : x = _); first | refine SameMem.bind (s := s0) hx ?_ (fun _ => ?_) | (refine SameMem.isFaults x ?_; subst hx) | skip)
    | apply State.rebook_mem | apply State.release_mem | apply SameMem.ite | apply SameMem.foldl | (simp only [SameMem.mk_iff]; apply SameMem.parts) | split
    | dsimp only

theorem State.startWake_mem {s0 : State} {s : State} (c : Nat) (cause : Nat) (hs : SameMem s0 s) :
    SameMem s0 (State.startWake s c cause) := by
  unfold State.startWake
  repeat' with_reducible first
    | assumption | intro _
    | (extract_lets +onlyGivenNames x; clear_value (hx : x = _); first | refine SameMem.bind (s := s0) hx ?_ (fun _ => ?_) | (refine SameMem.isFaults x ?_; subst hx) | skip)
    | apply State.modCore_mem | apply State.setFld_mem | apply State.askSys_mem | apply State.sleepBookings_mem | apply SameMem.ite | apply SameMem.foldl
    | (simp only [SameMem.mk_iff]; apply SameMem.parts) | split | dsimp only

theorem State.coreBeat_mem {s0 : State} {s : State} (hs : SameMem s0 s) :
    SameMem s0 (State.coreBeat s) := by
  unfold State.coreBeat
  repeat' with_reducible first
    | assumption | intro _
    | (extract_lets +onlyGivenNames x; clear_value (hx : x = _); first | refine SameMem.bind (s := s0) hx ?_ (fun _ => ?_) | (refine SameMem.isFaults x ?_; subst hx) | skip)
    | apply State.modCore_mem | apply State.count_mem | apply SameMem.ite | apply SameMem.foldl | (simp only [SameMem.mk_iff]; apply SameMem.parts) | split
    | dsimp only

theorem State.coreWake_mem {s0 : State} {s : State} (c : Nat) (cause : Nat) (hs : SameMem s0 s) :
    SameMem s0 (State.coreWake s c cause) := by
  unfold State.coreWake
  repeat' with_reducible first
    | assumption | intro _ | apply State.startWake_mem | apply State.modCore_mem | apply SameMem.ite | apply SameMem.foldl
    | (simp only [SameMem.mk_iff]; apply SameMem.parts) | split | dsimp only

theorem execSleepEntryComplete_mem {s0 : State} (c : Nat) {s : State} (hs : SameMem s0 s) :
    SameMemR s0 (execSleepEntryComplete c s) := by
  unfold execSleepEntryComplete
  repeat' with_reducible first
    | assumption | intro _
    | (extract_lets +onlyGivenNames x; clear_value (hx : x = _); first | refine SameMem.bind (s := s0) hx ?_ (fun _ => ?_) | (refine SameMem.isFaults x ?_; subst hx) | skip)
    | apply State.startWake_mem | apply State.setFld_mem | apply onUnit_mem | apply State.setCore_mem | apply State.sleepBookings_mem | apply SameMemR.next
    | exact SameMemR.fault | exact SameMemR.refused | apply SameMemR.onUnit | apply SameMemR.ite | apply SameMem.ite | apply SameMem.foldl
    | (simp only [SameMem.mk_iff]; apply SameMem.parts) | split | dsimp only

theorem execC1Entry_mem {s0 : State} (c : Nat) {s : State} (hs : SameMem s0 s) :
    SameMemR s0 (execC1Entry c s) := by
  unfold execC1Entry
  repeat' with_reducible first
    | assumption | intro _ | apply State.setFld_mem | apply onUnit_mem | apply State.count_mem | apply SameMemR.next | exact SameMemR.fault
    | exact SameMemR.refused | apply SameMemR.onUnit | apply SameMemR.ite | apply SameMem.ite | apply SameMem.foldl | (simp only [SameMem.mk_iff]; apply SameMem.parts)
    | split | dsimp only

theorem execCoreWake_mem {s0 : State} (c : Nat) (cause : Nat) {s : State} (hs : SameMem s0 s) :
    SameMemR s0 (execCoreWake c cause s) := by
  unfold execCoreWake
  repeat' with_reducible first
    | assumption | intro _ | apply State.coreWake_mem | apply onUnit_mem | apply SameMemR.next | exact SameMemR.fault | exact SameMemR.refused
    | apply SameMemR.onUnit | apply SameMemR.ite | apply SameMem.ite | apply SameMem.foldl | (simp only [SameMem.mk_iff]; apply SameMem.parts) | split | dsimp only

end Sys2Proof.Machine
end

