-- ==== Sys2Proof/Laws/SameMemPower.lean ====
section
/-!
SUPPORT. What the operations of Machine/Power.lean leave alone (Laws/SameMem.lean).
-/

set_option linter.all false

namespace Sys2Proof.Machine

theorem State.ran_mem {s0 : State} {s : State} (key : Nat) (hs : SameMem s0 s) :
    SameMem s0 (State.ran s key) := by
  unfold State.ran
  repeat' with_reducible first
    | assumption | intro _
    | (extract_lets +onlyGivenNames x; clear_value (hx : x = _); first | refine SameMem.bind (s := s0) hx ?_ (fun _ => ?_) | (refine SameMem.isFaults x ?_; subst hx) | skip)
    | apply SameMem.ite | apply SameMem.foldl | (simp only [SameMem.mk_iff]; apply SameMem.parts) | split | dsimp only

theorem State.thermalDie_mem {s0 : State} {s : State} (k : Nat) (hs : SameMem s0 s) :
    SameMem s0 (State.thermalDie s k) := by
  unfold State.thermalDie
  repeat' with_reducible first
    | assumption | intro _
    | (extract_lets +onlyGivenNames x; clear_value (hx : x = _); first | refine SameMem.bind (s := s0) hx ?_ (fun _ => ?_) | (refine SameMem.isFaults x ?_; subst hx) | skip)
    | apply State.setFld_mem | apply State.event_mem | apply SameMem.ite | apply SameMem.foldl | (simp only [SameMem.mk_iff]; apply SameMem.parts) | split
    | dsimp only

theorem execThermalStateEval_mem {s0 : State} {s : State} (hs : SameMem s0 s) :
    SameMemR s0 (execThermalStateEval s) := by
  unfold execThermalStateEval
  repeat' with_reducible first
    | assumption | intro _ | apply State.ran_mem | apply State.thermalDie_mem | apply SameMemR.next | exact SameMemR.fault | exact SameMemR.refused
    | apply SameMemR.onUnit | apply SameMemR.ite | apply SameMem.ite | apply SameMem.foldl | (simp only [SameMem.mk_iff]; apply SameMem.parts) | split | dsimp only

theorem State.abandonSweep_mem {s0 : State} {s : State} (c : Nat) (hs : SameMem s0 s) :
    SameMem s0 (State.abandonSweep s c) := by
  unfold State.abandonSweep
  repeat' with_reducible first
    | assumption | intro _
    | (extract_lets +onlyGivenNames x; clear_value (hx : x = _); first | refine SameMem.bind (s := s0) hx ?_ (fun _ => ?_) | (refine SameMem.isFaults x ?_; subst hx) | skip)
    | apply State.count_mem | apply State.release_mem | apply SameMem.ite | apply SameMem.foldl | (simp only [SameMem.mk_iff]; apply SameMem.parts) | split
    | dsimp only

theorem State.setDroop_mem {s0 : State} {s : State} (c : Nat) (d : DroopState) (hs : SameMem s0 s) :
    SameMem s0 (State.setDroop s c d) := by
  unfold State.setDroop
  repeat' with_reducible first
    | assumption | intro _
    | (extract_lets +onlyGivenNames x; clear_value (hx : x = _); first | refine SameMem.bind (s := s0) hx ?_ (fun _ => ?_) | (refine SameMem.isFaults x ?_; subst hx) | skip)
    | apply SameMem.ite | apply SameMem.foldl | (simp only [SameMem.mk_iff]; apply SameMem.parts) | split | dsimp only

theorem State.droopHit_mem {s0 : State} {s : State} (d : Nat) (depth : Nat) (hs : SameMem s0 s) :
    SameMem s0 (State.droopHit s d depth) := by
  unfold State.droopHit
  repeat' with_reducible first
    | assumption | intro _
    | (extract_lets +onlyGivenNames x; clear_value (hx : x = _); first | refine SameMem.bind (s := s0) hx ?_ (fun _ => ?_) | (refine SameMem.isFaults x ?_; subst hx) | skip)
    | apply State.setReg_mem | apply State.abandonSweep_mem | apply State.setFld_mem | apply State.trace_mem | apply State.setDroop_mem
    | apply State.count_mem | apply SameMem.ite | apply SameMem.foldl | (simp only [SameMem.mk_iff]; apply SameMem.parts) | split | dsimp only

theorem execControllerAbsent_mem {s0 : State} (p : Nat) {s : State} (hs : SameMem s0 s) :
    SameMemR s0 (execControllerAbsent p s) := by
  unfold execControllerAbsent
  repeat' with_reducible first
    | assumption | intro _
    | (extract_lets +onlyGivenNames x; clear_value (hx : x = _); first | refine SameMem.bind (s := s0) hx ?_ (fun _ => ?_) | (refine SameMem.isFaults x ?_; subst hx) | skip)
    | apply State.record_mem | apply onUnit_mem | apply SameMemR.next | exact SameMemR.fault | exact SameMemR.refused | apply SameMemR.onUnit | apply SameMemR.ite
    | apply SameMem.ite | apply SameMem.foldl | (simp only [SameMem.mk_iff]; apply SameMem.parts) | split | dsimp only

theorem State.askStep_mem {s0 : State} {s : State} (k : Nat) (mv : Nat) (f : Nat) (up : Bool) (hs : SameMem s0 s) :
    SameMem s0 (State.askStep s k mv f up) := by
  unfold State.askStep
  repeat' with_reducible first
    | assumption | intro _
    | (extract_lets +onlyGivenNames x; clear_value (hx : x = _); first | refine SameMem.bind (s := s0) hx ?_ (fun _ => ?_) | (refine SameMem.isFaults x ?_; subst hx) | skip)
    | apply State.ask_mem | apply State.stepAdvance_mem | apply SameMem.ite | apply SameMem.foldl | (simp only [SameMem.mk_iff]; apply SameMem.parts) | split
    | dsimp only

theorem execDroopVoltageReturn_mem {s0 : State} (k : Nat) {s : State} (hs : SameMem s0 s) :
    SameMemR s0 (execDroopVoltageReturn k s) := by
  unfold execDroopVoltageReturn
  repeat' with_reducible first
    | assumption | intro _
    | (extract_lets +onlyGivenNames x; clear_value (hx : x = _); first | refine SameMem.bind (s := s0) hx ?_ (fun _ => ?_) | (refine SameMem.isFaults x ?_; subst hx) | skip)
    | apply State.askStep_mem | apply onUnit_mem | apply SameMemR.next | exact SameMemR.fault | exact SameMemR.refused | apply SameMemR.onUnit | apply SameMemR.ite
    | apply SameMem.ite | apply SameMem.foldl | (simp only [SameMem.mk_iff]; apply SameMem.parts) | split | dsimp only

theorem State.stepDown_mem {s0 : State} {s : State} (k : Nat) (hs : SameMem s0 s) :
    SameMem s0 (State.stepDown s k) := by
  unfold State.stepDown
  repeat' with_reducible first
    | assumption | intro _
    | (extract_lets +onlyGivenNames x; clear_value (hx : x = _); first | refine SameMem.bind (s := s0) hx ?_ (fun _ => ?_) | (refine SameMem.isFaults x ?_; subst hx) | skip)
    | apply State.rescale_mem | apply State.setFstep_mem | apply State.stepEnd_mem | apply State.stepAdvance_mem | apply SameMem.ite | apply SameMem.foldl
    | (simp only [SameMem.mk_iff]; apply SameMem.parts) | split | dsimp only

theorem State.stepUp_mem {s0 : State} {s : State} (k : Nat) (hs : SameMem s0 s) :
    SameMem s0 (State.stepUp s k) := by
  unfold State.stepUp
  repeat' with_reducible first
    | assumption | intro _ | apply State.askStep_mem | apply SameMem.ite | apply SameMem.foldl | (simp only [SameMem.mk_iff]; apply SameMem.parts) | split
    | dsimp only

theorem execOpportunisticDecision_mem {s0 : State} (k : Nat) {s : State} (hs : SameMem s0 s) :
    SameMemR s0 (execOpportunisticDecision k s) := by
  unfold execOpportunisticDecision
  repeat' with_reducible first
    | assumption | intro _
    | (extract_lets +onlyGivenNames x; clear_value (hx : x = _); first | refine SameMem.bind (s := s0) hx ?_ (fun _ => ?_) | (refine SameMem.isFaults x ?_; subst hx) | skip)
    | apply State.ran_mem | apply onUnit_mem | apply State.stepDown_mem | apply State.stepUp_mem | apply SameMemR.next | exact SameMemR.fault
    | exact SameMemR.refused | apply SameMemR.onUnit | apply SameMemR.ite | apply SameMem.ite | apply SameMem.foldl | (simp only [SameMem.mk_iff]; apply SameMem.parts)
    | split | dsimp only

theorem execCapUpdate_mem {s0 : State} {s : State} (hs : SameMem s0 s) :
    SameMemR s0 (execCapUpdate s) := by
  unfold execCapUpdate
  repeat' with_reducible first
    | assumption | intro _
    | (extract_lets +onlyGivenNames x; clear_value (hx : x = _); first | refine SameMem.bind (s := s0) hx ?_ (fun _ => ?_) | (refine SameMem.isFaults x ?_; subst hx) | skip)
    | apply State.ran_mem | apply SameMemR.next | exact SameMemR.fault | exact SameMemR.refused | apply SameMemR.onUnit | apply SameMemR.ite | apply SameMem.ite
    | apply SameMem.foldl | (simp only [SameMem.mk_iff]; apply SameMem.parts) | split | dsimp only

theorem execRqAckTimeout_mem {s0 : State} (rail : Nat) {s : State} (hs : SameMem s0 s) :
    SameMemR s0 (execRqAckTimeout rail s) := by
  unfold execRqAckTimeout
  repeat' with_reducible first
    | assumption | intro _
    | (extract_lets +onlyGivenNames x; clear_value (hx : x = _); first | refine SameMem.bind (s := s0) hx ?_ (fun _ => ?_) | (refine SameMem.isFaults x ?_; subst hx) | skip)
    | apply State.sendFrame_mem | apply onUnit_mem | apply SameMemR.next | exact SameMemR.fault | exact SameMemR.refused | apply SameMemR.onUnit
    | apply SameMemR.ite | apply SameMem.ite | apply SameMem.foldl | (simp only [SameMem.mk_iff]; apply SameMem.parts) | split | dsimp only

theorem State.powerBeat_mem {s0 : State} {s : State} (hs : SameMem s0 s) :
    SameMem s0 (State.powerBeat s) := by
  unfold State.powerBeat
  repeat' with_reducible first
    | assumption | intro _
    | (extract_lets +onlyGivenNames x; clear_value (hx : x = _); first | refine SameMem.bind (s := s0) hx ?_ (fun _ => ?_) | (refine SameMem.isFaults x ?_; subst hx) | skip)
    | apply State.abandonSweep_mem | apply State.count_mem | apply SameMem.ite | apply SameMem.foldl | (simp only [SameMem.mk_iff]; apply SameMem.parts) | split
    | dsimp only

theorem State.setFlow_mem {s0 : State} {s : State} (v : Nat) (ps : Nat) (hs : SameMem s0 s) :
    SameMem s0 (State.setFlow s v ps) := by
  unfold State.setFlow
  repeat' with_reducible first
    | assumption | intro _
    | (extract_lets +onlyGivenNames x; clear_value (hx : x = _); first | refine SameMem.bind (s := s0) hx ?_ (fun _ => ?_) | (refine SameMem.isFaults x ?_; subst hx) | skip)
    | apply State.setFld_mem | apply State.phase_mem | apply SameMem.ite | apply SameMem.foldl | (simp only [SameMem.mk_iff]; apply SameMem.parts) | split
    | dsimp only

theorem execFlowOkRise_mem {s0 : State} (ps : Nat) {s : State} (hs : SameMem s0 s) :
    SameMemR s0 (execFlowOkRise ps s) := by
  unfold execFlowOkRise
  repeat' with_reducible first
    | assumption | intro _ | apply State.setFlow_mem | apply SameMemR.next | exact SameMemR.fault | exact SameMemR.refused | apply SameMemR.onUnit
    | apply SameMemR.ite | apply SameMem.ite | apply SameMem.foldl | (simp only [SameMem.mk_iff]; apply SameMem.parts) | split | dsimp only

theorem State.droopRise_mem {s0 : State} {s : State} (c : Nat) (hs : SameMem s0 s) :
    SameMem s0 (State.droopRise s c) := by
  unfold State.droopRise
  repeat' with_reducible first
    | assumption | intro _
    | (extract_lets +onlyGivenNames x; clear_value (hx : x = _); first | refine SameMem.bind (s := s0) hx ?_ (fun _ => ?_) | (refine SameMem.isFaults x ?_; subst hx) | skip)
    | apply State.setReg_mem | apply State.setFld_mem | apply State.setDroop_mem | apply State.stepAdvance_mem | apply SameMem.ite | apply SameMem.foldl
    | (simp only [SameMem.mk_iff]; apply SameMem.parts) | split | dsimp only

theorem execDroopHoldExpiry_mem {s0 : State} (c : Nat) (ps : Nat) {s : State} (hs : SameMem s0 s) :
    SameMemR s0 (execDroopHoldExpiry c ps s) := by
  unfold execDroopHoldExpiry
  repeat' with_reducible first
    | assumption | intro _
    | (extract_lets +onlyGivenNames x; clear_value (hx : x = _); first | refine SameMem.bind (s := s0) hx ?_ (fun _ => ?_) | (refine SameMem.isFaults x ?_; subst hx) | skip)
    | apply onUnit_mem | apply State.droopRise_mem | apply State.phase_mem | apply SameMemR.next | exact SameMemR.fault | exact SameMemR.refused
    | apply SameMemR.onUnit | apply SameMemR.ite | apply SameMem.ite | apply SameMem.foldl | (simp only [SameMem.mk_iff]; apply SameMem.parts) | split | dsimp only

theorem execDroop_mem {s0 : State} (d : Nat) (depth : Nat) (ps : Nat) {s : State} (hs : SameMem s0 s) :
    SameMemR s0 (execDroop d depth ps s) := by
  unfold execDroop
  repeat' with_reducible first
    | assumption | intro _
    | (extract_lets +onlyGivenNames x; clear_value (hx : x = _); first | refine SameMem.bind (s := s0) hx ?_ (fun _ => ?_) | (refine SameMem.isFaults x ?_; subst hx) | skip)
    | apply onUnit_mem | apply State.droopHit_mem | apply State.phase_mem | apply SameMemR.next | exact SameMemR.fault | exact SameMemR.refused
    | apply SameMemR.onUnit | apply SameMemR.ite | apply SameMem.ite | apply SameMem.foldl | (simp only [SameMem.mk_iff]; apply SameMem.parts) | split | dsimp only

theorem State.setCap_mem {s0 : State} {s : State} (w : Nat) (hs : SameMem s0 s) :
    SameMem s0 (State.setCap s w) := by
  unfold State.setCap
  repeat' with_reducible first
    | assumption | intro _ | apply State.setFld_mem | apply SameMem.ite | apply SameMem.foldl | (simp only [SameMem.mk_iff]; apply SameMem.parts) | split
    | dsimp only

theorem State.shareRound_mem {s0 : State} {s : State} (crit : Nat) (hs : SameMem s0 s) :
    SameMem s0 (State.shareRound s crit) := by
  unfold State.shareRound
  repeat' with_reducible first
    | assumption | intro _
    | (extract_lets +onlyGivenNames x; clear_value (hx : x = _); first | refine SameMem.bind (s := s0) hx ?_ (fun _ => ?_) | (refine SameMem.isFaults x ?_; subst hx) | skip)
    | apply State.setCap_mem | apply State.queueOn_mem | apply State.count_mem | apply SameMem.ite | apply SameMem.foldl
    | (simp only [SameMem.mk_iff]; apply SameMem.parts) | split | dsimp only

theorem execPowerSharePeriod_mem {s0 : State} {s : State} (hs : SameMem s0 s) :
    SameMemR s0 (execPowerSharePeriod s) := by
  unfold execPowerSharePeriod
  repeat' with_reducible first
    | assumption | intro _
    | (extract_lets +onlyGivenNames x; clear_value (hx : x = _); first | refine SameMem.bind (s := s0) hx ?_ (fun _ => ?_) | (refine SameMem.isFaults x ?_; subst hx) | skip)
    | apply State.shareRound_mem | apply SameMemR.next | exact SameMemR.fault | exact SameMemR.refused | apply SameMemR.onUnit | apply SameMemR.ite
    | apply SameMem.ite | apply SameMem.foldl | (simp only [SameMem.mk_iff]; apply SameMem.parts) | split | dsimp only

theorem execDroopRestoreStep_mem {s0 : State} (c : Nat) (ps : Nat) {s : State} (hs : SameMem s0 s) :
    SameMemR s0 (execDroopRestoreStep c ps s) := by
  unfold execDroopRestoreStep
  repeat' with_reducible first
    | assumption | intro _
    | (extract_lets +onlyGivenNames x; clear_value (hx : x = _); first | refine SameMem.bind (s := s0) hx ?_ (fun _ => ?_) | (refine SameMem.isFaults x ?_; subst hx) | skip)
    | apply onUnit_mem | apply State.droopRise_mem | apply State.phase_mem | apply SameMemR.next | exact SameMemR.fault | exact SameMemR.refused
    | apply SameMemR.onUnit | apply SameMemR.ite | apply SameMem.ite | apply SameMem.foldl | (simp only [SameMem.mk_iff]; apply SameMem.parts) | split | dsimp only

theorem execFlowOkFall_mem {s0 : State} (ps : Nat) {s : State} (hs : SameMem s0 s) :
    SameMemR s0 (execFlowOkFall ps s) := by
  unfold execFlowOkFall
  repeat' with_reducible first
    | assumption | intro _ | apply State.setFlow_mem | apply SameMemR.next | exact SameMemR.fault | exact SameMemR.refused | apply SameMemR.onUnit
    | apply SameMemR.ite | apply SameMem.ite | apply SameMem.foldl | (simp only [SameMem.mk_iff]; apply SameMem.parts) | split | dsimp only

theorem execRqAck_mem {s0 : State} (rail : Nat) {s : State} (hs : SameMem s0 s) :
    SameMemR s0 (execRqAck rail s) := by
  unfold execRqAck
  repeat' with_reducible first
    | assumption | intro _
    | (extract_lets +onlyGivenNames x; clear_value (hx : x = _); first | refine SameMem.bind (s := s0) hx ?_ (fun _ => ?_) | (refine SameMem.isFaults x ?_; subst hx) | skip)
    | apply onUnit_mem | apply State.stepEnd_mem | apply State.stepAdvance_mem | apply SameMemR.next | exact SameMemR.fault | exact SameMemR.refused
    | apply SameMemR.onUnit | apply SameMemR.ite | apply SameMem.ite | apply SameMem.foldl | (simp only [SameMem.mk_iff]; apply SameMem.parts) | split | dsimp only

theorem execDroopStorm_mem {s0 : State} (k : Nat) {s : State} (hs : SameMem s0 s) :
    SameMemR s0 (execDroopStorm k s) := by
  unfold execDroopStorm
  repeat' with_reducible first
    | assumption | intro _
    | (extract_lets +onlyGivenNames x; clear_value (hx : x = _); first | refine SameMem.bind (s := s0) hx ?_ (fun _ => ?_) | (refine SameMem.isFaults x ?_; subst hx) | skip)
    | apply State.askStep_mem | apply onUnit_mem | apply State.event_mem | apply SameMemR.next | exact SameMemR.fault | exact SameMemR.refused
    | apply SameMemR.onUnit | apply SameMemR.ite | apply SameMem.ite | apply SameMem.foldl | (simp only [SameMem.mk_iff]; apply SameMem.parts) | split | dsimp only

theorem execCritStep_mem {s0 : State} (k : Nat) {s : State} (hs : SameMem s0 s) :
    SameMemR s0 (execCritStep k s) := by
  unfold execCritStep
  repeat' with_reducible first
    | assumption | intro _
    | (extract_lets +onlyGivenNames x; clear_value (hx : x = _); first | refine SameMem.bind (s := s0) hx ?_ (fun _ => ?_) | (refine SameMem.isFaults x ?_; subst hx) | (refine SameMem.isFun x ?_; subst hx) | skip)
    | apply State.ran_mem | apply onUnit_mem | apply State.stepDown_mem | apply State.stepUp_mem | apply SameMemR.next | exact SameMemR.fault
    | exact SameMemR.refused | apply SameMemR.onUnit | apply SameMemR.ite | apply SameMem.ite | apply SameMem.foldl | (simp only [SameMem.mk_iff]; apply SameMem.parts)
    | split | dsimp only

theorem State.powerMessage_mem {s0 : State} {s : State} (m : FabMsg) (hs : SameMem s0 s) :
    SameMem s0 (State.powerMessage s m) := by
  unfold State.powerMessage
  repeat' with_reducible first
    | assumption | intro _
    | (extract_lets +onlyGivenNames x; clear_value (hx : x = _); first | refine SameMem.bind (s := s0) hx ?_ (fun _ => ?_) | (refine SameMem.isFaults x ?_; subst hx) | skip)
    | apply State.setCap_mem | apply State.count_mem | apply SameMem.ite | apply SameMem.foldl | (simp only [SameMem.mk_iff]; apply SameMem.parts) | split
    | dsimp only

theorem execPower_mem {s0 : State} (k : Nat) {s : State} (hs : SameMem s0 s) :
    SameMemR s0 (execPower k s) := by
  unfold execPower
  repeat' with_reducible first
    | assumption | intro _ | apply State.powerMessage_mem | apply State.onMsg_mem | apply SameMemR.next | exact SameMemR.fault | exact SameMemR.refused
    | apply SameMemR.onUnit | apply SameMemR.ite | apply SameMem.ite | apply SameMem.foldl | (simp only [SameMem.mk_iff]; apply SameMem.parts) | split | dsimp only

end Sys2Proof.Machine
end

