-- ==== Sys2Proof/Laws/SameMemTelemetry.lean ====
section
/-!
SUPPORT. What the operations of Machine/Telemetry.lean leave alone (Laws/SameMem.lean).
-/

set_option linter.all false

namespace Sys2Proof.Machine

theorem State.newHour_mem {s0 : State} {s : State} (hs : SameMem s0 s) :
    SameMem s0 (State.newHour s) := by
  unfold State.newHour
  repeat' with_reducible first
    | assumption | intro _
    | (extract_lets +onlyGivenNames x; clear_value (hx : x = _); first | refine SameMem.bind (s := s0) hx ?_ (fun _ => ?_) | (refine SameMem.isFaults x ?_; subst hx) | skip)
    | apply State.setFld_mem | apply SameMem.ite | apply SameMem.foldl | (simp only [SameMem.mk_iff]; apply SameMem.parts) | split | dsimp only

theorem State.logWrite_mem {s0 : State} {s : State} (n : Nat) (k : State → State) (hs : SameMem s0 s) (hk : ∀ y0, SameMem s0 y0 → SameMem s0 (k y0)) :
    SameMem s0 (State.logWrite s n k) := by
  unfold State.logWrite
  repeat' with_reducible first
    | assumption | intro _
    | (extract_lets +onlyGivenNames x; clear_value (hx : x = _); first | refine SameMem.bind (s := s0) hx ?_ (fun _ => ?_) | (refine SameMem.isFaults x ?_; subst hx) | skip)
    | apply State.askSys_mem | apply hk | apply SameMem.ite | apply SameMem.foldl | (simp only [SameMem.mk_iff]; apply SameMem.parts) | split | dsimp only

theorem State.storeWrite_mem {s0 : State} {s : State} (o : Nat) (bs : List Byte) (hs : SameMem s0 s) :
    SameMem s0 (State.storeWrite s o bs) := by
  unfold State.storeWrite
  repeat' with_reducible first
    | assumption | intro _
    | (extract_lets +onlyGivenNames x; clear_value (hx : x = _); first | refine SameMem.bind (s := s0) hx ?_ (fun _ => ?_) | (refine SameMem.isFaults x ?_; subst hx) | skip)
    | apply SameMem.ite | apply SameMem.foldl | (simp only [SameMem.mk_iff]; apply SameMem.parts) | split | dsimp only

theorem execHourlyDigest_mem {s0 : State} {s : State} (hs : SameMem s0 s) :
    SameMemR s0 (execHourlyDigest s) := by
  unfold execHourlyDigest
  repeat' with_reducible first
    | assumption | intro _
    | (extract_lets +onlyGivenNames x; clear_value (hx : x = _); first | refine SameMem.bind (s := s0) hx ?_ (fun _ => ?_) | (refine SameMem.isFaults x ?_; subst hx) | skip)
    | apply State.newHour_mem | apply State.logWrite_mem | apply State.storeWrite_mem | apply SameMemR.next | exact SameMemR.fault | exact SameMemR.refused
    | apply SameMemR.onUnit | apply SameMemR.ite | apply SameMem.ite | apply SameMem.foldl | (simp only [SameMem.mk_iff]; apply SameMem.parts) | split | dsimp only

theorem execCtrClear_mem {s0 : State} (f : Nat) (off : Nat) {s : State} (hs : SameMem s0 s) :
    SameMemR s0 (execCtrClear f off s) := by
  unfold execCtrClear
  repeat' with_reducible first
    | assumption | intro _ | apply onUnit_mem | apply SameMemR.next | exact SameMemR.fault | exact SameMemR.refused | apply SameMemR.onUnit | apply SameMemR.ite
    | apply SameMem.ite | apply SameMem.foldl | (simp only [SameMem.mk_iff]; apply SameMem.parts) | split | dsimp only

theorem State.writeEvent_mem {s0 : State} {s : State} (e : SlogEvent) (hs : SameMem s0 s) :
    SameMem s0 (State.writeEvent s e) := by
  unfold State.writeEvent
  repeat' with_reducible first
    | assumption | intro _
    | (extract_lets +onlyGivenNames x; clear_value (hx : x = _); first | refine SameMem.bind (s := s0) hx ?_ (fun _ => ?_) | (refine SameMem.isFaults x ?_; subst hx) | skip)
    | apply State.setFld_mem | apply State.tally_mem | apply State.storeWrite_mem | apply State.send_mem | apply SameMem.ite | apply SameMem.foldl
    | (simp only [SameMem.mk_iff]; apply SameMem.parts) | split | dsimp only

theorem execHealthBeacon_mem {s0 : State} {s : State} (hs : SameMem s0 s) :
    SameMemR s0 (execHealthBeacon s) := by
  unfold execHealthBeacon
  repeat' with_reducible first
    | assumption | intro _
    | (extract_lets +onlyGivenNames x; clear_value (hx : x = _); first | refine SameMem.bind (s := s0) hx ?_ (fun _ => ?_) | (refine SameMem.isFaults x ?_; subst hx) | skip)
    | apply State.count_mem | apply State.send_mem | apply SameMemR.next | exact SameMemR.fault | exact SameMemR.refused | apply SameMemR.onUnit
    | apply SameMemR.ite | apply SameMem.ite | apply SameMem.foldl | (simp only [SameMem.mk_iff]; apply SameMem.parts) | split | dsimp only

theorem State.dropEvent_mem {s0 : State} {s : State} (hs : SameMem s0 s) :
    SameMem s0 (State.dropEvent s) := by
  unfold State.dropEvent
  repeat' with_reducible first
    | assumption | intro _ | apply State.setFld_mem | apply SameMem.ite | apply SameMem.foldl | (simp only [SameMem.mk_iff]; apply SameMem.parts) | split
    | dsimp only

theorem execServiceLogEventWrite_mem {s0 : State} {s : State} (hs : SameMem s0 s) :
    SameMemR s0 (execServiceLogEventWrite s) := by
  unfold execServiceLogEventWrite
  repeat' with_reducible first
    | assumption | intro _ | apply State.logWrite_mem | apply State.dropEvent_mem | apply State.writeEvent_mem | apply State.tally_mem
    | apply State.count_mem | apply SameMemR.next | exact SameMemR.fault | exact SameMemR.refused | apply SameMemR.onUnit | apply SameMemR.ite | apply SameMem.ite
    | apply SameMem.foldl | (simp only [SameMem.mk_iff]; apply SameMem.parts) | split | dsimp only

theorem execMaxclr_mem {s0 : State} {s : State} (hs : SameMem s0 s) :
    SameMemR s0 (execMaxclr s) := by
  unfold execMaxclr
  repeat' with_reducible first
    | assumption | intro _
    | (extract_lets +onlyGivenNames x; clear_value (hx : x = _); first | refine SameMem.bind (s := s0) hx ?_ (fun _ => ?_) | (refine SameMem.isFaults x ?_; subst hx) | skip)
    | apply SameMemR.next | exact SameMemR.fault | exact SameMemR.refused | apply SameMemR.onUnit | apply SameMemR.ite | apply SameMem.ite | apply SameMem.foldl
    | (simp only [SameMem.mk_iff]; apply SameMem.parts) | split | dsimp only

theorem execMarginSweepComplete_mem {s0 : State} (k : Nat) (slacks : List Int) {s : State} (hs : SameMem s0 s) :
    SameMemR s0 (execMarginSweepComplete k slacks s) := by
  unfold execMarginSweepComplete
  repeat' with_reducible first
    | assumption | intro _
    | (extract_lets +onlyGivenNames x; clear_value (hx : x = _); first | refine SameMem.bind (s := s0) hx ?_ (fun _ => ?_) | (refine SameMem.isFaults x ?_; subst hx) | skip)
    | apply State.setReg_mem | apply onUnit_mem | apply State.count_mem | apply State.release_mem | apply State.event_mem | apply SameMemR.next
    | exact SameMemR.fault | exact SameMemR.refused | apply SameMemR.onUnit | apply SameMemR.ite | apply SameMem.ite | apply SameMem.foldl
    | (simp only [SameMem.mk_iff]; apply SameMem.parts) | split | dsimp only

theorem execMarginSweep_mem {s0 : State} (k : Nat) {s : State} (hs : SameMem s0 s) :
    SameMemR s0 (execMarginSweep k s) := by
  unfold execMarginSweep
  repeat' with_reducible first
    | assumption | intro _
    | (extract_lets +onlyGivenNames x; clear_value (hx : x = _); first | refine SameMem.bind (s := s0) hx ?_ (fun _ => ?_) | (refine SameMem.isFaults x ?_; subst hx) | skip)
    | apply State.askSys_mem | apply onUnit_mem | apply SameMemR.next | exact SameMemR.fault | exact SameMemR.refused | apply SameMemR.onUnit | apply SameMemR.ite
    | apply SameMem.ite | apply SameMem.foldl | (simp only [SameMem.mk_iff]; apply SameMem.parts) | split | dsimp only

theorem execTraceStart_mem {s0 : State} (k : Nat) {s : State} (hs : SameMem s0 s) :
    SameMemR s0 (execTraceStart k s) := by
  unfold execTraceStart
  repeat' with_reducible first
    | assumption | intro _
    | (extract_lets +onlyGivenNames x; clear_value (hx : x = _); first | refine SameMem.bind (s := s0) hx ?_ (fun _ => ?_) | (refine SameMem.isFaults x ?_; subst hx) | skip)
    | apply onUnit_mem | apply State.setTraceBuf_mem | apply SameMemR.next | exact SameMemR.fault | exact SameMemR.refused | apply SameMemR.onUnit
    | apply SameMemR.ite | apply SameMem.ite | apply SameMem.foldl | (simp only [SameMem.mk_iff]; apply SameMem.parts) | split | dsimp only

theorem execTelEvselWrite_mem {s0 : State} (k : Nat) (n : Nat) (val : Nat) {s : State} (hs : SameMem s0 s) :
    SameMemR s0 (execTelEvselWrite k n val s) := by
  unfold execTelEvselWrite
  repeat' with_reducible first
    | assumption | intro _
    | (extract_lets +onlyGivenNames x; clear_value (hx : x = _); first | refine SameMem.bind (s := s0) hx ?_ (fun _ => ?_) | (refine SameMem.isFaults x ?_; subst hx) | skip)
    | apply State.setReg_mem | apply onUnit_mem | apply SameMemR.next | exact SameMemR.fault | exact SameMemR.refused | apply SameMemR.onUnit | apply SameMemR.ite
    | apply SameMem.ite | apply SameMem.foldl | (simp only [SameMem.mk_iff]; apply SameMem.parts) | split | dsimp only

theorem State.zeroCtr_mem {s0 : State} {s : State} (k : Nat) (hs : SameMem s0 s) :
    SameMem s0 (State.zeroCtr s k) := by
  unfold State.zeroCtr
  repeat' with_reducible first
    | assumption | intro _
    | (extract_lets +onlyGivenNames x; clear_value (hx : x = _); first | refine SameMem.bind (s := s0) hx ?_ (fun _ => ?_) | (refine SameMem.isFaults x ?_; subst hx) | skip)
    | apply SameMem.ite | apply SameMem.foldl | (simp only [SameMem.mk_iff]; apply SameMem.parts) | split | dsimp only

theorem execSnapGo_mem {s0 : State} (g : Nat) {s : State} (hs : SameMem s0 s) :
    SameMemR s0 (execSnapGo g s) := by
  unfold execSnapGo
  repeat' with_reducible first
    | assumption | intro _ | apply State.setFld_mem | apply onUnit_mem | apply SameMemR.next | exact SameMemR.fault | exact SameMemR.refused
    | apply SameMemR.onUnit | apply SameMemR.ite | apply SameMem.ite | apply SameMem.foldl | (simp only [SameMem.mk_iff]; apply SameMem.parts) | split | dsimp only

theorem State.doClear_mem {s0 : State} {s : State} (b : Blk) (i : Nat) (hs : SameMem s0 s) :
    SameMem s0 (State.doClear s b i) := by
  unfold State.doClear
  repeat' with_reducible first
    | assumption | intro _
    | (extract_lets +onlyGivenNames x; clear_value (hx : x = _); first | refine SameMem.bind (s := s0) hx ?_ (fun _ => ?_) | (refine SameMem.isFaults x ?_; subst hx) | skip)
    | apply State.setFld_mem | apply State.zeroCtr_mem | apply SameMem.ite | apply SameMem.foldl | (simp only [SameMem.mk_iff]; apply SameMem.parts) | split
    | dsimp only

end Sys2Proof.Machine
end

