-- ==== Sys2Proof/Laws/SameMemJournal.lean ====
section
/-!
SUPPORT. What the operations of Machine/Journal.lean leave alone (Laws/SameMem.lean).
-/

set_option linter.all false

namespace Sys2Proof.Machine

theorem State.putHeader_mem {s0 : State} {s : State} (region : Nat) (gen : Nat) (first : Nat) (st : Nat) (hs : SameMem s0 s) :
    SameMem s0 (State.putHeader s region gen first st) := by
  unfold State.putHeader
  repeat' with_reducible first
    | assumption | intro _ | apply State.storeWrite_mem | apply SameMem.ite | apply SameMem.foldl | (simp only [SameMem.mk_iff]; apply SameMem.parts) | split
    | dsimp only

theorem State.putRec_mem {s0 : State} {s : State} (r : JRec) (flags : Nat) (batchLen : Nat) (hs : SameMem s0 s) :
    SameMem s0 (State.putRec s r flags batchLen) := by
  unfold State.putRec
  repeat' with_reducible first
    | assumption | intro _
    | (extract_lets +onlyGivenNames x; clear_value (hx : x = _); first | refine SameMem.bind (s := s0) hx ?_ (fun _ => ?_) | (refine SameMem.isFaults x ?_; subst hx) | skip)
    | apply State.storeWrite_mem | apply SameMem.ite | apply SameMem.foldl | (simp only [SameMem.mk_iff]; apply SameMem.parts) | split | dsimp only

theorem State.putBatch_mem {s0 : State} {s : State} (n : Nat) (x3 : Nat) (x4 : List Nat) (x5 : List JRec) (hs : SameMem s0 s) :
    SameMem s0 (State.putBatch s n x3 x4 x5).1 := by
  induction x5 generalizing s n x3 x4 with
  | nil =>
    unfold State.putBatch
    repeat' with_reducible first
      | assumption | intro _ | apply State.putRec_mem | apply SameMem.ite | apply SameMem.foldl | (simp only [SameMem.mk_iff]; apply SameMem.parts)
      | apply SameMem.iteFst | apply SameMem.iteSnd | refine SameMem.fstEq (by assumption) ?_ | split | dsimp only
  | cons y ys ih =>
    unfold State.putBatch
    repeat' with_reducible first
      | assumption | intro _ | apply State.putRec_mem | apply ih | apply SameMem.ite | apply SameMem.foldl | (simp only [SameMem.mk_iff]; apply SameMem.parts)
      | apply SameMem.iteFst | apply SameMem.iteSnd | refine SameMem.fstEq (by assumption) ?_ | split | dsimp only

theorem State.storeKick_mem {s0 : State} {s : State} (hs : SameMem s0 s) :
    SameMem s0 (State.storeKick s) := by
  unfold State.storeKick
  repeat' with_reducible first
    | assumption | intro _
    | (extract_lets +onlyGivenNames x; clear_value (hx : x = _); first | refine SameMem.bind (s := s0) hx ?_ (fun _ => ?_) | (refine SameMem.isFaults x ?_; subst hx) | skip)
    | apply State.askSys_mem | apply SameMem.ite | apply SameMem.foldl | (simp only [SameMem.mk_iff]; apply SameMem.parts) | split | dsimp only

theorem State.copyBatch_mem {s0 : State} {s : State} (hs : SameMem s0 s) :
    SameMem s0 (State.copyBatch s) := by
  unfold State.copyBatch
  repeat' with_reducible first
    | assumption | intro _
    | (extract_lets +onlyGivenNames x; clear_value (hx : x = _); first | refine SameMem.bind (s := s0) hx ?_ (fun _ => ?_) | refine SameMem.bindFst (s := s0) hx ?_ (fun _ => ?_) | (refine SameMem.isFaults x ?_; subst hx) | skip)
    | apply State.putHeader_mem | apply State.putBatch_mem | apply State.putRec_mem | apply State.storeKick_mem | apply SameMem.ite | apply SameMem.foldl
    | (simp only [SameMem.mk_iff]; apply SameMem.parts) | apply SameMem.iteFst | apply SameMem.iteSnd | refine SameMem.fstEq (by assumption) ?_ | split | dsimp only

theorem execCompactionCopy_mem {s0 : State} {s : State} (hs : SameMem s0 s) :
    SameMemR s0 (execCompactionCopy s) := by
  unfold execCompactionCopy
  repeat' with_reducible first
    | assumption | intro _
    | (extract_lets +onlyGivenNames x; clear_value (hx : x = _); first | refine SameMem.bind (s := s0) hx ?_ (fun _ => ?_) | (refine SameMem.isFaults x ?_; subst hx) | skip)
    | apply State.askSys_mem | apply State.copyBatch_mem | apply SameMemR.next | exact SameMemR.fault | exact SameMemR.refused | apply SameMemR.onUnit
    | apply SameMemR.ite | apply SameMem.ite | apply SameMem.foldl | (simp only [SameMem.mk_iff]; apply SameMem.parts) | split | dsimp only

theorem State.switchRegion_mem {s0 : State} {s : State} (hs : SameMem s0 s) :
    SameMem s0 (State.switchRegion s) := by
  unfold State.switchRegion
  repeat' with_reducible first
    | assumption | intro _
    | (extract_lets +onlyGivenNames x; clear_value (hx : x = _); first | refine SameMem.bind (s := s0) hx ?_ (fun _ => ?_) | (refine SameMem.isFaults x ?_; subst hx) | skip)
    | apply State.putHeader_mem | apply SameMem.ite | apply SameMem.foldl | (simp only [SameMem.mk_iff]; apply SameMem.parts) | split | dsimp only

theorem State.persist_mem {s0 : State} {s : State} (b : OdBatch) (hs : SameMem s0 s) :
    SameMem s0 (State.persist s b) := by
  unfold State.persist
  repeat' with_reducible first
    | assumption | intro _
    | (extract_lets +onlyGivenNames x; clear_value (hx : x = _); first | refine SameMem.bind (s := s0) hx ?_ (fun _ => ?_) | (refine SameMem.isFaults x ?_; subst hx) | skip)
    | apply State.storeKick_mem | apply SameMem.ite | apply SameMem.foldl | (simp only [SameMem.mk_iff]; apply SameMem.parts) | split | dsimp only

theorem State.rebuild_mem {s0 : State} {s : State} (hs : SameMem s0 s) :
    SameMem s0 (State.rebuild s) := by
  unfold State.rebuild
  repeat' with_reducible first
    | assumption | intro _
    | (extract_lets +onlyGivenNames x; clear_value (hx : x = _); first | refine SameMem.bind (s := s0) hx ?_ (fun _ => ?_) | (refine SameMem.isFaults x ?_; subst hx) | skip)
    | apply State.event_mem | apply SameMem.ite | apply SameMem.foldl | (simp only [SameMem.mk_iff]; apply SameMem.parts) | split | dsimp only

end Sys2Proof.Machine
end

