-- ==== Sys2Proof/Laws/SameMemOd.lean ====
section
/-!
SUPPORT. What the operations of Machine/Od.lean leave alone (Laws/SameMem.lean).
-/

set_option linter.all false

namespace Sys2Proof.Machine

theorem State.odServe_mem {s0 : State} {s : State} (tr : Nat) (pick : OdRequest → Bool) (k : OdRequest → State) (hs : SameMem s0 s) (hk : ∀ y0, SameMem s0 (k y0)) :
    SameMemR s0 (State.odServe s tr pick k) := by
  unfold State.odServe
  repeat' with_reducible first
    | assumption | intro _ | apply onUnit_mem | apply hk | apply SameMemR.next | exact SameMemR.fault | exact SameMemR.refused | apply SameMemR.onUnit
    | apply SameMemR.ite | apply SameMem.ite | apply SameMem.foldl | (simp only [SameMem.mk_iff]; apply SameMem.parts) | split | dsimp only

theorem State.canResult_mem {s0 : State} {s : State} (dst : Nat) (tid : Nat) (d : List Byte) (hs : SameMem s0 s) :
    SameMem s0 (State.canResult s dst tid d) := by
  unfold State.canResult
  repeat' with_reducible first
    | assumption | intro _ | apply State.send_mem | apply SameMem.ite | apply SameMem.foldl | (simp only [SameMem.mk_iff]; apply SameMem.parts) | split
    | dsimp only

theorem State.odAnswer_mem {s0 : State} {s : State} (r : OdRequest) (code : Nat) (value : List Byte) (hs : SameMem s0 s) :
    SameMem s0 (State.odAnswer s r code value) := by
  unfold State.odAnswer
  repeat' with_reducible first
    | assumption | intro _
    | (extract_lets +onlyGivenNames x; clear_value (hx : x = _); first | refine SameMem.bind (s := s0) hx ?_ (fun _ => ?_) | (refine SameMem.isFaults x ?_; subst hx) | skip)
    | apply State.setFld_mem | apply State.canResult_mem | apply State.raiseVector_mem | apply State.send_mem | apply SameMem.ite | apply SameMem.foldl
    | (simp only [SameMem.mk_iff]; apply SameMem.parts) | split | dsimp only

theorem State.odEnd_mem {s0 : State} {s : State} (r : OdRequest) (code : Nat) (value : List Byte) (hs : SameMem s0 s) :
    SameMem s0 (State.odEnd s r code value) := by
  unfold State.odEnd
  repeat' with_reducible first
    | assumption | intro _
    | (extract_lets +onlyGivenNames x; clear_value (hx : x = _); first | refine SameMem.bind (s := s0) hx ?_ (fun _ => ?_) | (refine SameMem.isFaults x ?_; subst hx) | skip)
    | apply State.odAnswer_mem | apply SameMem.ite | apply SameMem.foldl | (simp only [SameMem.mk_iff]; apply SameMem.parts) | split | dsimp only

theorem State.odAction_mem {s0 : State} {s : State} (tr : Nat) (pick : Nat → Nat → Bool) (k : OdRequest → Nat → State) (hs : SameMem s0 s) (hk : ∀ y0 y1, SameMem s0 (k y0 y1)) :
    SameMemR s0 (State.odAction s tr pick k) := by
  unfold State.odAction
  repeat' with_reducible first
    | assumption | intro _ | apply State.odServe_mem | apply State.odEnd_mem | apply hk | apply SameMemR.next | exact SameMemR.fault | exact SameMemR.refused
    | apply SameMemR.onUnit | apply SameMemR.ite | apply SameMem.ite | apply SameMem.foldl | (simp only [SameMem.mk_iff]; apply SameMem.parts) | split | dsimp only

theorem State.canMore_mem {s0 : State} {s : State} (x : CanOut) (x3 : Nat) (hs : SameMem s0 s) :
    SameMem s0 (State.canMore s x x3) := by
  induction x3 generalizing s x with
  | zero =>
    unfold State.canMore
    repeat' with_reducible first
      | assumption | intro _ | apply State.canResult_mem | apply SameMem.ite | apply SameMem.foldl | (simp only [SameMem.mk_iff]; apply SameMem.parts)
      | split | dsimp only
  | succ m ih =>
    unfold State.canMore
    repeat' with_reducible first
      | assumption | intro _ | apply State.canResult_mem | apply ih | apply SameMem.ite | apply SameMem.foldl | (simp only [SameMem.mk_iff]; apply SameMem.parts)
      | split | dsimp only

theorem State.batchWrite_mem {s0 : State} {s : State} (b : OdBatch) (fails : List Nat) (hs : SameMem s0 s) :
    SameMem s0 (State.batchWrite s b fails).1 := by
  unfold State.batchWrite
  repeat' with_reducible first
    | assumption | intro _
    | (extract_lets +onlyGivenNames x; clear_value (hx : x = _); first | refine SameMem.bind (s := s0) hx ?_ (fun _ => ?_) | refine SameMem.bindFst (s := s0) hx ?_ (fun _ => ?_) | (refine SameMem.isFaults x ?_; subst hx) | skip)
    | apply State.putBatch_mem | apply State.switchRegion_mem | apply SameMem.ite | apply SameMem.foldl | (simp only [SameMem.mk_iff]; apply SameMem.parts)
    | apply SameMem.iteFst | apply SameMem.iteSnd | refine SameMem.fstEq (by assumption) ?_ | split | dsimp only

theorem State.layoutEnable_mem {s0 : State} {s : State} (f : Nat) (hs : SameMem s0 s) :
    SameMem s0 (State.layoutEnable s f) := by
  unfold State.layoutEnable
  repeat' with_reducible first
    | assumption | intro _
    | (extract_lets +onlyGivenNames x; clear_value (hx : x = _); first | refine SameMem.bind (s := s0) hx ?_ (fun _ => ?_) | (refine SameMem.isFaults x ?_; subst hx) | skip)
    | apply State.cfgErr_mem | apply State.setEnabled_mem | apply SameMem.ite | apply SameMem.foldl | (simp only [SameMem.mk_iff]; apply SameMem.parts) | split
    | dsimp only

theorem State.layoutEntry_mem {s0 : State} {s : State} (f : Nat) (hs : SameMem s0 s) :
    SameMem s0 (State.layoutEntry s f) := by
  unfold State.layoutEntry
  repeat' with_reducible first
    | assumption | intro _
    | (extract_lets +onlyGivenNames x; clear_value (hx : x = _); first | refine SameMem.bind (s := s0) hx ?_ (fun _ => ?_) | (refine SameMem.isFaults x ?_; subst hx) | skip)
    | apply State.setReg_mem | apply State.setFld_mem | apply State.countCores_mem | apply SameMem.ite | apply SameMem.foldl
    | (simp only [SameMem.mk_iff]; apply SameMem.parts) | split | dsimp only

theorem execDefaults_mem {s0 : State} (tr : Nat) {s : State} (hs : SameMem s0 s) :
    SameMemR s0 (execDefaults tr s) := by
  unfold execDefaults
  repeat' with_reducible first
    | assumption | intro _
    | (extract_lets +onlyGivenNames x; clear_value (hx : x = _); first | refine SameMem.bind (s := s0) hx ?_ (fun _ => ?_) | (refine SameMem.isFaults x ?_; subst hx) | skip)
    | apply State.odEnd_mem | apply State.odAction_mem | apply State.persist_mem | apply SameMemR.next | exact SameMemR.fault | exact SameMemR.refused
    | apply SameMemR.onUnit | apply SameMemR.ite | apply SameMem.ite | apply SameMem.foldl | (simp only [SameMem.mk_iff]; apply SameMem.parts) | split | dsimp only

theorem State.odArrive_mem {s0 : State} {s : State} (r : OdRequest) (hs : SameMem s0 s) :
    SameMem s0 (State.odArrive s r) := by
  unfold State.odArrive
  repeat' with_reducible first
    | assumption | intro _
    | (extract_lets +onlyGivenNames x; clear_value (hx : x = _); first | refine SameMem.bind (s := s0) hx ?_ (fun _ => ?_) | (refine SameMem.isFaults x ?_; subst hx) | skip)
    | apply State.odAnswer_mem | apply SameMem.ite | apply SameMem.foldl | (simp only [SameMem.mk_iff]; apply SameMem.parts) | split | dsimp only

theorem execMctpOdRequest_mem {s0 : State} (i3c : Bool) (src : Nat) (tag : Nat) (body : List Byte) {s : State} (hs : SameMem s0 s) :
    SameMemR s0 (execMctpOdRequest i3c src tag body s) := by
  unfold execMctpOdRequest
  repeat' with_reducible first
    | assumption | intro _
    | (extract_lets +onlyGivenNames x; clear_value (hx : x = _); first | refine SameMem.bind (s := s0) hx ?_ (fun _ => ?_) | (refine SameMem.isFaults x ?_; subst hx) | skip)
    | apply State.odArrive_mem | apply SameMemR.next | exact SameMemR.fault | exact SameMemR.refused | apply SameMemR.onUnit | apply SameMemR.ite | apply SameMem.ite
    | apply SameMem.foldl | (simp only [SameMem.mk_iff]; apply SameMem.parts) | split | dsimp only

theorem State.newContract_mem {s0 : State} {s : State} (cause : Nat) (hs : SameMem s0 s) :
    SameMem s0 (State.newContract s cause) := by
  unfold State.newContract
  repeat' with_reducible first
    | assumption | intro _
    | (extract_lets +onlyGivenNames x; clear_value (hx : x = _); first | refine SameMem.bind (s := s0) hx ?_ (fun _ => ?_) | (refine SameMem.isFaults x ?_; subst hx) | skip)
    | apply State.setReg_mem | apply State.event_mem | apply SameMem.ite | apply SameMem.foldl | (simp only [SameMem.mk_iff]; apply SameMem.parts) | split
    | dsimp only

theorem execTokenRefill_mem {s0 : State} {s : State} (hs : SameMem s0 s) :
    SameMemR s0 (execTokenRefill s) := by
  unfold execTokenRefill
  repeat' with_reducible first
    | assumption | intro _
    | (extract_lets +onlyGivenNames x; clear_value (hx : x = _); first | refine SameMem.bind (s := s0) hx ?_ (fun _ => ?_) | (refine SameMem.isFaults x ?_; subst hx) | skip)
    | apply SameMemR.next | exact SameMemR.fault | exact SameMemR.refused | apply SameMemR.onUnit | apply SameMemR.ite | apply SameMem.ite | apply SameMem.foldl
    | (simp only [SameMem.mk_iff]; apply SameMem.parts) | split | dsimp only

theorem State.odPersist_mem {s0 : State} {s : State} (r : OdRequest) (entries : List (Nat × Nat × Option (List Byte))) (staged : List (Nat × List Byte)) (hs : SameMem s0 s) :
    SameMem s0 (State.odPersist s r entries staged) := by
  unfold State.odPersist
  repeat' with_reducible first
    | assumption | intro _
    | (extract_lets +onlyGivenNames x; clear_value (hx : x = _); first | refine SameMem.bind (s := s0) hx ?_ (fun _ => ?_) | (refine SameMem.isFaults x ?_; subst hx) | skip)
    | apply State.odEnd_mem | apply State.persist_mem | apply SameMem.ite | apply SameMem.foldl | (simp only [SameMem.mk_iff]; apply SameMem.parts) | split
    | dsimp only

theorem execOdCommit_mem {s0 : State} (tr : Nat) {s : State} (hs : SameMem s0 s) :
    SameMemR s0 (execOdCommit tr s) := by
  unfold execOdCommit
  repeat' with_reducible first
    | assumption | intro _
    | (extract_lets +onlyGivenNames x; clear_value (hx : x = _); first | refine SameMem.bind (s := s0) hx ?_ (fun _ => ?_) | (refine SameMem.isFaults x ?_; subst hx) | skip)
    | apply State.odPersist_mem | apply State.odEnd_mem | apply State.odAction_mem | apply SameMemR.next | exact SameMemR.fault | exact SameMemR.refused
    | apply SameMemR.onUnit | apply SameMemR.ite | apply SameMem.ite | apply SameMem.foldl | (simp only [SameMem.mk_iff]; apply SameMem.parts) | split | dsimp only

theorem execFirst_mem {s0 : State} (id : Nat) (data : List Byte) {s : State} (hs : SameMem s0 s) :
    SameMemR s0 (execFirst id data s) := by
  unfold execFirst
  repeat' with_reducible first
    | assumption | intro _
    | (extract_lets +onlyGivenNames x; clear_value (hx : x = _); first | refine SameMem.bind (s := s0) hx ?_ (fun _ => ?_) | (refine SameMem.isFaults x ?_; subst hx) | skip)
    | apply State.odAnswer_mem | apply State.canResult_mem | apply SameMemR.next | exact SameMemR.fault | exact SameMemR.refused | apply SameMemR.onUnit
    | apply SameMemR.ite | apply SameMem.ite | apply SameMem.foldl | (simp only [SameMem.mk_iff]; apply SameMem.parts) | split | dsimp only

theorem execOdWrite_mem {s0 : State} (tr : Nat) {s : State} (hs : SameMem s0 s) :
    SameMemR s0 (execOdWrite tr s) := by
  unfold execOdWrite
  repeat' with_reducible first
    | assumption | intro _
    | (extract_lets +onlyGivenNames x; clear_value (hx : x = _); first | refine SameMem.bind (s := s0) hx ?_ (fun _ => ?_) | (refine SameMem.isFaults x ?_; subst hx) | skip)
    | apply State.odPersist_mem | apply State.odServe_mem | apply State.odEnd_mem | apply SameMemR.next | exact SameMemR.fault | exact SameMemR.refused
    | apply SameMemR.onUnit | apply SameMemR.ite | apply SameMem.ite | apply SameMem.foldl | (simp only [SameMem.mk_iff]; apply SameMem.parts) | split | dsimp only

theorem execSpdmOverMctp_mem {s0 : State} (i3c : Bool) (src : Nat) (body : List Byte) {s : State} (hs : SameMem s0 s) :
    SameMemR s0 (execSpdmOverMctp i3c src body s) := by
  unfold execSpdmOverMctp
  repeat' with_reducible first
    | assumption | intro _
    | (extract_lets +onlyGivenNames x; clear_value (hx : x = _); first | refine SameMem.bind (s := s0) hx ?_ (fun _ => ?_) | (refine SameMem.isFaults x ?_; subst hx) | skip)
    | apply State.send_mem | apply SameMemR.next | exact SameMemR.fault | exact SameMemR.refused | apply SameMemR.onUnit | apply SameMemR.ite | apply SameMem.ite
    | apply SameMem.foldl | (simp only [SameMem.mk_iff]; apply SameMem.parts) | split | dsimp only

theorem execFlow_mem {s0 : State} (id : Nat) (data : List Byte) {s : State} (hs : SameMem s0 s) :
    SameMemR s0 (execFlow id data s) := by
  unfold execFlow
  repeat' with_reducible first
    | assumption | intro _
    | (extract_lets +onlyGivenNames x; clear_value (hx : x = _); first | refine SameMem.bind (s := s0) hx ?_ (fun _ => ?_) | (refine SameMem.isFaults x ?_; subst hx) | skip)
    | apply State.canMore_mem | apply SameMemR.next | exact SameMemR.fault | exact SameMemR.refused | apply SameMemR.onUnit | apply SameMemR.ite | apply SameMem.ite
    | apply SameMem.foldl | (simp only [SameMem.mk_iff]; apply SameMem.parts) | split | dsimp only

theorem execGo_mem {s0 : State} (val : Nat) {s : State} (hs : SameMem s0 s) :
    SameMemR s0 (execGo val s) := by
  unfold execGo
  repeat' with_reducible first
    | assumption | intro _
    | (extract_lets +onlyGivenNames x; clear_value (hx : x = _); first | refine SameMem.bind (s := s0) hx ?_ (fun _ => ?_) | (refine SameMem.isFaults x ?_; subst hx) | skip)
    | apply State.setReg_mem | apply State.setFld_mem | apply State.odArrive_mem | apply SameMemR.next | exact SameMemR.fault | exact SameMemR.refused
    | apply SameMemR.onUnit | apply SameMemR.ite | apply SameMem.ite | apply SameMem.foldl | (simp only [SameMem.mk_iff]; apply SameMem.parts) | split | dsimp only

theorem State.mctpReply_mem {s0 : State} {s : State} (tr : Nat) (cmd : Nat) (d : List Byte) (hs : SameMem s0 s) :
    SameMem s0 (State.mctpReply s tr cmd d).1 := by
  unfold State.mctpReply
  repeat' with_reducible first
    | assumption | intro _
    | (extract_lets +onlyGivenNames x; clear_value (hx : x = _); first | refine SameMem.bind (s := s0) hx ?_ (fun _ => ?_) | refine SameMem.bindFst (s := s0) hx ?_ (fun _ => ?_) | (refine SameMem.isFaults x ?_; subst hx) | skip)
    | apply SameMem.ite | apply SameMem.foldl | (simp only [SameMem.mk_iff]; apply SameMem.parts) | apply SameMem.iteFst | apply SameMem.iteSnd
    | refine SameMem.fstEq (by assumption) ?_ | split | dsimp only

theorem execMctpControl_mem {s0 : State} (i3c : Bool) (src : Nat) (body : List Byte) {s : State} (hs : SameMem s0 s) :
    SameMemR s0 (execMctpControl i3c src body s) := by
  unfold execMctpControl
  repeat' with_reducible first
    | assumption | intro _ | apply State.send_mem | apply State.mctpReply_mem | apply SameMemR.next | exact SameMemR.fault | exact SameMemR.refused
    | apply SameMemR.onUnit | apply SameMemR.ite | apply SameMem.ite | apply SameMem.foldl | (simp only [SameMem.mk_iff]; apply SameMem.parts) | apply SameMem.iteFst
    | apply SameMem.iteSnd | refine SameMem.fstEq (by assumption) ?_ | split | dsimp only

theorem State.canStop_mem {s0 : State} {s : State} (x : CanIn) (hs : SameMem s0 s) :
    SameMem s0 (State.canStop s x) := by
  unfold State.canStop
  repeat' with_reducible first
    | assumption | intro _
    | (extract_lets +onlyGivenNames x; clear_value (hx : x = _); first | refine SameMem.bind (s := s0) hx ?_ (fun _ => ?_) | (refine SameMem.isFaults x ?_; subst hx) | skip)
    | apply State.odAnswer_mem | apply SameMem.ite | apply SameMem.foldl | (simp only [SameMem.mk_iff]; apply SameMem.parts) | split | dsimp only

theorem execConsec_mem {s0 : State} (id : Nat) (data : List Byte) {s : State} (hs : SameMem s0 s) :
    SameMemR s0 (execConsec id data s) := by
  unfold execConsec
  repeat' with_reducible first
    | assumption | intro _
    | (extract_lets +onlyGivenNames x; clear_value (hx : x = _); first | refine SameMem.bind (s := s0) hx ?_ (fun _ => ?_) | (refine SameMem.isFaults x ?_; subst hx) | skip)
    | apply State.odArrive_mem | apply State.canStop_mem | apply SameMemR.next | exact SameMemR.fault | exact SameMemR.refused | apply SameMemR.onUnit
    | apply SameMemR.ite | apply SameMem.ite | apply SameMem.foldl | (simp only [SameMem.mk_iff]; apply SameMem.parts) | split | dsimp only

theorem execOdRead_mem {s0 : State} (tr : Nat) {s : State} (hs : SameMem s0 s) :
    SameMemR s0 (execOdRead tr s) := by
  unfold execOdRead
  repeat' with_reducible first
    | assumption | intro _ | apply State.odServe_mem | apply State.odEnd_mem | apply SameMemR.next | exact SameMemR.fault | exact SameMemR.refused
    | apply SameMemR.onUnit | apply SameMemR.ite | apply SameMem.ite | apply SameMem.foldl | (simp only [SameMem.mk_iff]; apply SameMem.parts) | split | dsimp only

theorem execSingle_mem {s0 : State} (id : Nat) (data : List Byte) {s : State} (hs : SameMem s0 s) :
    SameMemR s0 (execSingle id data s) := by
  unfold execSingle
  repeat' with_reducible first
    | assumption | intro _ | apply State.odArrive_mem | apply SameMemR.next | exact SameMemR.fault | exact SameMemR.refused | apply SameMemR.onUnit
    | apply SameMemR.ite | apply SameMem.ite | apply SameMem.foldl | (simp only [SameMem.mk_iff]; apply SameMem.parts) | split | dsimp only

theorem State.linksByEnable_mem {s0 : State} {s : State} (hs : SameMem s0 s) :
    SameMem s0 (State.linksByEnable s) := by
  unfold State.linksByEnable
  repeat' with_reducible first
    | assumption | intro _ | apply State.linkAbsent_mem | apply State.linkBook_mem | apply State.release_mem | apply SameMem.ite | apply SameMem.foldl
    | (simp only [SameMem.mk_iff]; apply SameMem.parts) | split | dsimp only

theorem State.odEffect_mem {s0 : State} {s : State} (i : Nat) (b : Nat) (hs : SameMem s0 s) :
    SameMem s0 (State.odEffect s i b) := by
  unfold State.odEffect
  repeat' with_reducible first
    | assumption | intro _
    | (extract_lets +onlyGivenNames x; clear_value (hx : x = _); first | refine SameMem.bind (s := s0) hx ?_ (fun _ => ?_) | (refine SameMem.isFaults x ?_; subst hx) | skip)
    | apply State.setCap_mem | apply State.setFld_mem | apply State.linksByEnable_mem | apply State.event_mem | apply SameMem.ite | apply SameMem.foldl
    | (simp only [SameMem.mk_iff]; apply SameMem.parts) | split | dsimp only

theorem execCanTransferTimeout_mem {s0 : State} {s : State} (hs : SameMem s0 s) :
    SameMemR s0 (execCanTransferTimeout s) := by
  unfold execCanTransferTimeout
  repeat' with_reducible first
    | assumption | intro _
    | (extract_lets +onlyGivenNames x; clear_value (hx : x = _); first | refine SameMem.bind (s := s0) hx ?_ (fun _ => ?_) | (refine SameMem.isFaults x ?_; subst hx) | skip)
    | apply State.canStop_mem | apply SameMemR.next | exact SameMemR.fault | exact SameMemR.refused | apply SameMemR.onUnit | apply SameMemR.ite | apply SameMem.ite
    | apply SameMem.foldl | (simp only [SameMem.mk_iff]; apply SameMem.parts) | split | dsimp only

theorem execGetMeasurements_mem {s0 : State} (i3c : Bool) (src : Nat) (body : List Byte) {s : State} (hs : SameMem s0 s) :
    SameMemR s0 (execGetMeasurements i3c src body s) := by
  unfold execGetMeasurements
  repeat' with_reducible first
    | assumption | intro _
    | (extract_lets +onlyGivenNames x; clear_value (hx : x = _); first | refine SameMem.bind (s := s0) hx ?_ (fun _ => ?_) | refine SameMem.bindSnd (s := s0) hx ?_ (fun _ => ?_) | (refine SameMem.isFaults x ?_; subst hx) | skip)
    | apply State.draw_mem | apply State.send_mem | apply SameMemR.next | exact SameMemR.fault | exact SameMemR.refused | apply SameMemR.onUnit | apply SameMemR.ite
    | apply SameMem.ite | apply SameMem.foldl | (simp only [SameMem.mk_iff]; apply SameMem.parts) | apply SameMem.iteFst | apply SameMem.iteSnd
    | refine SameMem.sndEq (by assumption) ?_ | split | dsimp only

theorem State.budgetEvent_mem {s0 : State} {s : State} (before : Nat) (kind : Nat) (mark : Nat) (hs : SameMem s0 s) :
    SameMem s0 (State.budgetEvent s before kind mark) := by
  unfold State.budgetEvent
  repeat' with_reducible first
    | assumption | intro _ | apply State.event_mem | apply SameMem.ite | apply SameMem.foldl | (simp only [SameMem.mk_iff]; apply SameMem.parts) | split
    | dsimp only

theorem State.batchEnd_mem {s0 : State} {s : State} (b : OdBatch) (n : Nat) (ok : Bool) (hs : SameMem s0 s) :
    SameMem s0 (State.batchEnd s b n ok) := by
  unfold State.batchEnd
  repeat' with_reducible first
    | assumption | intro _
    | (extract_lets +onlyGivenNames x; clear_value (hx : x = _); first | refine SameMem.bind (s := s0) hx ?_ (fun _ => ?_) | (refine SameMem.isFaults x ?_; subst hx) | skip)
    | apply State.odEnd_mem | apply State.odEffect_mem | apply State.budgetEvent_mem | apply State.event_mem | apply SameMem.ite | apply SameMem.foldl
    | (simp only [SameMem.mk_iff]; apply SameMem.parts) | split | dsimp only

end Sys2Proof.Machine
end

