-- ==== Sys2Proof/Laws/SameMemFirmware.lean ====
section
/-!
SUPPORT. What the operations of Machine/Firmware.lean leave alone (Laws/SameMem.lean).
-/

set_option linter.all false

namespace Sys2Proof.Machine

theorem State.fwAction_mem {s0 : State} {s : State} (tr : Nat) (i : Nat) (b : Nat) (stages : List Nat) (k : OdRequest → Nat → State) (hs : SameMem s0 s) (hk : ∀ y0 y1, SameMem s0 (k y0 y1)) :
    SameMemR s0 (State.fwAction s tr i b stages k) := by
  unfold State.fwAction
  repeat' with_reducible first
    | assumption | intro _ | apply State.odEnd_mem | apply State.odAction_mem | apply hk | apply SameMemR.next | exact SameMemR.fault | exact SameMemR.refused
    | apply SameMemR.onUnit | apply SameMemR.ite | apply SameMem.ite | apply SameMem.foldl | (simp only [SameMem.mk_iff]; apply SameMem.parts) | split | dsimp only

theorem State.setDlOffset_mem {s0 : State} {s : State} (n : Nat) (hs : SameMem s0 s) :
    SameMem s0 (State.setDlOffset s n) := by
  unfold State.setDlOffset
  repeat' with_reducible first
    | assumption | intro _ | apply SameMem.ite | apply SameMem.foldl | (simp only [SameMem.mk_iff]; apply SameMem.parts) | split | dsimp only

theorem State.flashKick_mem {s0 : State} {s : State} (hs : SameMem s0 s) :
    SameMem s0 (State.flashKick s) := by
  unfold State.flashKick
  repeat' with_reducible first
    | assumption | intro _ | apply State.askSys_mem | apply SameMem.ite | apply SameMem.foldl | (simp only [SameMem.mk_iff]; apply SameMem.parts) | split
    | dsimp only

theorem execDlData_mem {s0 : State} (tr : Nat) {s : State} (hs : SameMem s0 s) :
    SameMemR s0 (execDlData tr s) := by
  unfold execDlData
  repeat' with_reducible first
    | assumption | intro _
    | (extract_lets +onlyGivenNames x; clear_value (hx : x = _); first | refine SameMem.bind (s := s0) hx ?_ (fun _ => ?_) | (refine SameMem.isFaults x ?_; subst hx) | skip)
    | apply State.fwAction_mem | apply State.odEnd_mem | apply State.setDlOffset_mem | apply State.flashKick_mem | apply SameMemR.next | exact SameMemR.fault
    | exact SameMemR.refused | apply SameMemR.onUnit | apply SameMemR.ite | apply SameMem.ite | apply SameMem.foldl | (simp only [SameMem.mk_iff]; apply SameMem.parts)
    | split | dsimp only

theorem State.fwSet_mem {s0 : State} {s : State} (vals : List (Nat × Nat)) (after : AfterBatch) (hs : SameMem s0 s) :
    SameMem s0 (State.fwSet s vals after) := by
  unfold State.fwSet
  repeat' with_reducible first
    | assumption | intro _ | apply State.persist_mem | apply SameMem.ite | apply SameMem.foldl | (simp only [SameMem.mk_iff]; apply SameMem.parts) | split
    | dsimp only

theorem State.confirm_mem {s0 : State} {s : State} (hs : SameMem s0 s) :
    SameMem s0 (State.confirm s) := by
  unfold State.confirm
  repeat' with_reducible first
    | assumption | intro _
    | (extract_lets +onlyGivenNames x; clear_value (hx : x = _); first | refine SameMem.bind (s := s0) hx ?_ (fun _ => ?_) | (refine SameMem.isFaults x ?_; subst hx) | skip)
    | apply State.fwSet_mem | apply SameMem.ite | apply SameMem.foldl | (simp only [SameMem.mk_iff]; apply SameMem.parts) | split | dsimp only

theorem execAutoConfirm_mem {s0 : State} {s : State} (hs : SameMem s0 s) :
    SameMemR s0 (execAutoConfirm s) := by
  unfold execAutoConfirm
  repeat' with_reducible first
    | assumption | intro _
    | (extract_lets +onlyGivenNames x; clear_value (hx : x = _); first | refine SameMem.bind (s := s0) hx ?_ (fun _ => ?_) | (refine SameMem.isFaults x ?_; subst hx) | skip)
    | apply State.confirm_mem | apply SameMemR.next | exact SameMemR.fault | exact SameMemR.refused | apply SameMemR.onUnit | apply SameMemR.ite | apply SameMem.ite
    | apply SameMem.foldl | (simp only [SameMem.mk_iff]; apply SameMem.parts) | split | dsimp only

theorem State.canEnd_mem {s0 : State} {s : State} (hs : SameMem s0 s) :
    SameMem s0 (State.canEnd s) := by
  unfold State.canEnd
  repeat' with_reducible first
    | assumption | intro _
    | (extract_lets +onlyGivenNames x; clear_value (hx : x = _); first | refine SameMem.bind (s := s0) hx ?_ (fun _ => ?_) | (refine SameMem.isFaults x ?_; subst hx) | skip)
    | apply State.canStop_mem | apply SameMem.ite | apply SameMem.foldl | (simp only [SameMem.mk_iff]; apply SameMem.parts) | split | dsimp only

theorem execQuiesceTimeout_mem {s0 : State} {s : State} (hs : SameMem s0 s) :
    SameMemR s0 (execQuiesceTimeout s) := by
  unfold execQuiesceTimeout
  repeat' with_reducible first
    | assumption | intro _
    | (extract_lets +onlyGivenNames x; clear_value (hx : x = _); first | refine SameMem.bind (s := s0) hx ?_ (fun _ => ?_) | (refine SameMem.isFaults x ?_; subst hx) | skip)
    | apply State.fwSet_mem | apply SameMemR.next | exact SameMemR.fault | exact SameMemR.refused | apply SameMemR.onUnit | apply SameMemR.ite | apply SameMem.ite
    | apply SameMem.foldl | (simp only [SameMem.mk_iff]; apply SameMem.parts) | split | dsimp only

theorem execDlBegin_mem {s0 : State} (tr : Nat) {s : State} (hs : SameMem s0 s) :
    SameMemR s0 (execDlBegin tr s) := by
  unfold execDlBegin
  repeat' with_reducible first
    | assumption | intro _
    | (extract_lets +onlyGivenNames x; clear_value (hx : x = _); first | refine SameMem.bind (s := s0) hx ?_ (fun _ => ?_) | (refine SameMem.isFaults x ?_; subst hx) | skip)
    | apply State.fwAction_mem | apply State.odEnd_mem | apply State.fwSet_mem | apply SameMemR.next | exact SameMemR.fault | exact SameMemR.refused
    | apply SameMemR.onUnit | apply SameMemR.ite | apply SameMem.ite | apply SameMem.foldl | (simp only [SameMem.mk_iff]; apply SameMem.parts) | split | dsimp only

theorem State.fwEvent_mem {s0 : State} {s : State} (kind : Nat) (slot : Nat) (processor : Nat) (hs : SameMem s0 s) :
    SameMem s0 (State.fwEvent s kind slot processor) := by
  unfold State.fwEvent
  repeat' with_reducible first
    | assumption | intro _ | apply State.event_mem | apply SameMem.ite | apply SameMem.foldl | (simp only [SameMem.mk_iff]; apply SameMem.parts) | split
    | dsimp only

theorem execActivate_mem {s0 : State} (tr : Nat) {s : State} (hs : SameMem s0 s) :
    SameMemR s0 (execActivate tr s) := by
  unfold execActivate
  repeat' with_reducible first
    | assumption | intro _
    | (extract_lets +onlyGivenNames x; clear_value (hx : x = _); first | refine SameMem.bind (s := s0) hx ?_ (fun _ => ?_) | (refine SameMem.isFaults x ?_; subst hx) | skip)
    | apply State.fwAction_mem | apply State.odEnd_mem | apply State.fwSet_mem | apply SameMemR.next | exact SameMemR.fault | exact SameMemR.refused
    | apply SameMemR.onUnit | apply SameMemR.ite | apply SameMem.ite | apply SameMem.foldl | (simp only [SameMem.mk_iff]; apply SameMem.parts) | split | dsimp only

theorem State.handOff_mem {s0 : State} {s : State} (hs : SameMem s0 s) :
    SameMem s0 (State.handOff s) := by
  unfold State.handOff
  repeat' with_reducible first
    | assumption | apply State.authAbandon_mem | apply State.authAgain_mem | intro _
    | (extract_lets +onlyGivenNames x; clear_value (hx : x = _); first | refine SameMem.bind (s := s0) hx ?_ (fun _ => ?_) | (refine SameMem.isFaults x ?_; subst hx) | skip)
    | apply State.setFld_mem | apply State.canEnd_mem | apply SameMem.ite | apply SameMem.foldl | (simp only [SameMem.mk_iff]; apply SameMem.parts) | split
    | dsimp only

theorem execActivateQuiesced_mem {s0 : State} {s : State} (hs : SameMem s0 s) :
    SameMemR s0 (execActivateQuiesced s) := by
  unfold execActivateQuiesced
  repeat' with_reducible first
    | assumption | intro _
    | (extract_lets +onlyGivenNames x; clear_value (hx : x = _); first | refine SameMem.bind (s := s0) hx ?_ (fun _ => ?_) | (refine SameMem.isFaults x ?_; subst hx) | skip)
    | apply State.fwSet_mem | apply State.handOff_mem | apply SameMemR.next | exact SameMemR.fault | exact SameMemR.refused | apply SameMemR.onUnit
    | apply SameMemR.ite | apply SameMem.ite | apply SameMem.foldl | (simp only [SameMem.mk_iff]; apply SameMem.parts) | split | dsimp only

theorem execVerify_mem {s0 : State} (tr : Nat) {s : State} (hs : SameMem s0 s) :
    SameMemR s0 (execVerify tr s) := by
  unfold execVerify
  repeat' with_reducible first
    | assumption | intro _ | apply State.fwAction_mem | apply State.odEnd_mem | apply State.fwSet_mem | apply SameMemR.next | exact SameMemR.fault
    | exact SameMemR.refused | apply SameMemR.onUnit | apply SameMemR.ite | apply SameMem.ite | apply SameMem.foldl | (simp only [SameMem.mk_iff]; apply SameMem.parts)
    | split | dsimp only

theorem State.program_mem {s0 : State} {s : State} (o : Nat) (bs : List Byte) (hs : SameMem s0 s) :
    SameMem s0 (State.program s o bs) := by
  unfold State.program
  repeat' with_reducible first
    | assumption | intro _
    | (extract_lets +onlyGivenNames x; clear_value (hx : x = _); first | refine SameMem.bind (s := s0) hx ?_ (fun _ => ?_) | (refine SameMem.isFaults x ?_; subst hx) | skip)
    | apply SameMem.ite | apply SameMem.foldl | (simp only [SameMem.mk_iff]; apply SameMem.parts) | split | dsimp only

theorem State.pageDone_mem {s0 : State} {s : State} (bs : List Byte) (hs : SameMem s0 s) :
    SameMem s0 (State.pageDone s bs) := by
  unfold State.pageDone
  repeat' with_reducible first
    | assumption | intro _
    | (extract_lets +onlyGivenNames x; clear_value (hx : x = _); first | refine SameMem.bind (s := s0) hx ?_ (fun _ => ?_) | (refine SameMem.isFaults x ?_; subst hx) | skip)
    | apply State.flashKick_mem | apply State.fwSet_mem | apply State.release_mem | apply State.program_mem | apply SameMem.ite | apply SameMem.foldl
    | (simp only [SameMem.mk_iff]; apply SameMem.parts) | split | dsimp only

theorem State.downloadEnd_mem {s0 : State} {s : State} (result : List (Nat × Nat)) (hs : SameMem s0 s) :
    SameMem s0 (State.downloadEnd s result) := by
  unfold State.downloadEnd
  repeat' with_reducible first
    | assumption | intro _
    | (extract_lets +onlyGivenNames x; clear_value (hx : x = _); first | refine SameMem.bind (s := s0) hx ?_ (fun _ => ?_) | (refine SameMem.isFaults x ?_; subst hx) | skip)
    | apply State.fwSet_mem | apply State.release_mem | apply SameMem.ite | apply SameMem.foldl | (simp only [SameMem.mk_iff]; apply SameMem.parts) | split
    | dsimp only

theorem State.eraseSector_mem {s0 : State} {s : State} (o : Nat) (hs : SameMem s0 s) :
    SameMem s0 (State.eraseSector s o) := by
  unfold State.eraseSector
  repeat' with_reducible first
    | assumption | intro _ | apply State.program_mem | apply SameMem.ite | apply SameMem.foldl | (simp only [SameMem.mk_iff]; apply SameMem.parts) | split
    | dsimp only

theorem execFlashOperationComplete_mem {s0 : State} (ok : Bool) {s : State} (hs : SameMem s0 s) :
    SameMemR s0 (execFlashOperationComplete ok s) := by
  unfold execFlashOperationComplete
  repeat' with_reducible first
    | assumption | intro _
    | (extract_lets +onlyGivenNames x; clear_value (hx : x = _); first | refine SameMem.bind (s := s0) hx ?_ (fun _ => ?_) | (refine SameMem.isFaults x ?_; subst hx) | skip)
    | apply State.pageDone_mem | apply State.downloadEnd_mem | apply State.setDlOffset_mem | apply State.flashKick_mem | apply State.eraseSector_mem
    | apply State.release_mem | apply SameMemR.next | exact SameMemR.fault | exact SameMemR.refused | apply SameMemR.onUnit | apply SameMemR.ite | apply SameMem.ite
    | apply SameMem.foldl | (simp only [SameMem.mk_iff]; apply SameMem.parts) | split | dsimp only

theorem execReject_mem {s0 : State} (tr : Nat) {s : State} (hs : SameMem s0 s) :
    SameMemR s0 (execReject tr s) := by
  unfold execReject
  repeat' with_reducible first
    | assumption | intro _
    | (extract_lets +onlyGivenNames x; clear_value (hx : x = _); first | refine SameMem.bind (s := s0) hx ?_ (fun _ => ?_) | (refine SameMem.isFaults x ?_; subst hx) | skip)
    | apply State.fwAction_mem | apply State.odEnd_mem | apply State.fwSet_mem | apply SameMemR.next | exact SameMemR.fault | exact SameMemR.refused
    | apply SameMemR.onUnit | apply SameMemR.ite | apply SameMem.ite | apply SameMem.foldl | (simp only [SameMem.mk_iff]; apply SameMem.parts) | split | dsimp only

theorem execConfirm_mem {s0 : State} (tr : Nat) {s : State} (hs : SameMem s0 s) :
    SameMemR s0 (execConfirm tr s) := by
  unfold execConfirm
  repeat' with_reducible first
    | assumption | intro _ | apply State.odEnd_mem | apply State.confirm_mem | apply State.odAction_mem | apply SameMemR.next | exact SameMemR.fault
    | exact SameMemR.refused | apply SameMemR.onUnit | apply SameMemR.ite | apply SameMem.ite | apply SameMem.foldl | (simp only [SameMem.mk_iff]; apply SameMem.parts)
    | split | dsimp only

theorem execDlAbort_mem {s0 : State} (tr : Nat) {s : State} (hs : SameMem s0 s) :
    SameMemR s0 (execDlAbort tr s) := by
  unfold execDlAbort
  repeat' with_reducible first
    | assumption | intro _ | apply State.fwAction_mem | apply State.downloadEnd_mem | apply State.odEnd_mem | apply SameMemR.next | exact SameMemR.fault
    | exact SameMemR.refused | apply SameMemR.onUnit | apply SameMemR.ite | apply SameMem.ite | apply SameMem.foldl | (simp only [SameMem.mk_iff]; apply SameMem.parts)
    | split | dsimp only

theorem execVerifyComplete_mem {s0 : State} {s : State} (hs : SameMem s0 s) :
    SameMemR s0 (execVerifyComplete s) := by
  unfold execVerifyComplete
  repeat' with_reducible first
    | assumption | intro _
    | (extract_lets +onlyGivenNames x; clear_value (hx : x = _); first | refine SameMem.bind (s := s0) hx ?_ (fun _ => ?_) | (refine SameMem.isFaults x ?_; subst hx) | skip)
    | apply State.fwSet_mem | apply SameMemR.next | exact SameMemR.fault | exact SameMemR.refused | apply SameMemR.onUnit | apply SameMemR.ite | apply SameMem.ite
    | apply SameMem.foldl | (simp only [SameMem.mk_iff]; apply SameMem.parts) | split | dsimp only

theorem execDlFrom_mem {s0 : State} (tr : Nat) {s : State} (hs : SameMem s0 s) :
    SameMemR s0 (execDlFrom tr s) := by
  unfold execDlFrom
  repeat' with_reducible first
    | assumption | intro _
    | (extract_lets +onlyGivenNames x; clear_value (hx : x = _); first | refine SameMem.bind (s := s0) hx ?_ (fun _ => ?_) | (refine SameMem.isFaults x ?_; subst hx) | skip)
    | apply State.fwAction_mem | apply State.odEnd_mem | apply State.flashKick_mem | apply SameMemR.next | exact SameMemR.fault | exact SameMemR.refused
    | apply SameMemR.onUnit | apply SameMemR.ite | apply SameMem.ite | apply SameMem.foldl | (simp only [SameMem.mk_iff]; apply SameMem.parts) | split | dsimp only

theorem State.rejectBack_mem {s0 : State} {s : State} (hs : SameMem s0 s) :
    SameMem s0 (State.rejectBack s) := by
  unfold State.rejectBack
  repeat' with_reducible first
    | assumption | intro _
    | (extract_lets +onlyGivenNames x; clear_value (hx : x = _); first | refine SameMem.bind (s := s0) hx ?_ (fun _ => ?_) | (refine SameMem.isFaults x ?_; subst hx) | skip)
    | apply SameMem.ite | apply SameMem.foldl | (simp only [SameMem.mk_iff]; apply SameMem.parts) | split | dsimp only

theorem State.securityLost_mem {s0 : State} {s : State} (hs : SameMem s0 s) :
    SameMem s0 (State.securityLost s) := by
  unfold State.securityLost
  repeat' with_reducible first
    | assumption | apply State.authAbandon_mem | apply State.authAgain_mem | intro _
    | (extract_lets +onlyGivenNames x; clear_value (hx : x = _); first | refine SameMem.bind (s := s0) hx ?_ (fun _ => ?_) | (refine SameMem.isFaults x ?_; subst hx) | skip)
    | apply State.downloadEnd_mem | apply SameMem.ite | apply SameMem.foldl | (simp only [SameMem.mk_iff]; apply SameMem.parts) | split | dsimp only

theorem execWatchdogReset_mem {s0 : State} (p : Nat) {s : State} (hs : SameMem s0 s) :
    SameMemR s0 (execWatchdogReset p s) := by
  unfold execWatchdogReset
  repeat' with_reducible first
    | assumption | intro _
    | (extract_lets +onlyGivenNames x; clear_value (hx : x = _); first | refine SameMem.bind (s := s0) hx ?_ (fun _ => ?_) | (refine SameMem.isFaults x ?_; subst hx) | skip)
    | apply State.securityLost_mem | apply State.setFld_mem | apply onUnit_mem | apply State.fwEvent_mem | apply SameMemR.next | exact SameMemR.fault
    | exact SameMemR.refused | apply SameMemR.onUnit | apply SameMemR.ite | apply SameMem.ite | apply SameMem.foldl | (simp only [SameMem.mk_iff]; apply SameMem.parts)
    | split | dsimp only

end Sys2Proof.Machine
end

