-- ==== Sys2Proof/Laws/SameMemTiers.lean ====
section
/-!
SUPPORT. What the operations of Machine/Tiers.lean leave alone (Laws/SameMem.lean).
-/

set_option linter.all false

namespace Sys2Proof.Machine

theorem State.partStart_mem {s0 : State} {s : State} (f : Nat) (k : Nat) (apply : Bool) (hs : SameMem s0 s) :
    SameMem s0 (State.partStart s f k apply) := by
  unfold State.partStart
  repeat' with_reducible first
    | assumption | intro _
    | (extract_lets +onlyGivenNames x; clear_value (hx : x = _); first | refine SameMem.bind (s := s0) hx ?_ (fun _ => ?_) | (refine SameMem.isFaults x ?_; subst hx) | skip)
    | apply State.setFld_mem | apply SameMem.ite | apply SameMem.foldl | (simp only [SameMem.mk_iff]; apply SameMem.parts) | split | dsimp only

theorem execFlush_mem {s0 : State} (f : Nat) (k : Nat) {s : State} (hs : SameMem s0 s) :
    SameMemR s0 (execFlush f k s) := by
  unfold execFlush
  repeat' with_reducible first
    | assumption | intro _ | apply onUnit_mem | apply State.partStart_mem | apply SameMemR.next | exact SameMemR.fault | exact SameMemR.refused
    | apply SameMemR.onUnit | apply SameMemR.ite | apply SameMem.ite | apply SameMem.foldl | (simp only [SameMem.mk_iff]; apply SameMem.parts) | split | dsimp only

theorem execErrorCheckAndScrub_mem {s0 : State} (a : Nat) {s : State} (hs : SameMem s0 s) :
    SameMemR s0 (execErrorCheckAndScrub a s) := by
  unfold execErrorCheckAndScrub
  repeat' with_reducible first
    | assumption | intro _ | apply State.record_mem | apply onUnit_mem | apply State.voidBlock_mem | apply State.count_mem | apply SameMemR.next
    | exact SameMemR.fault | exact SameMemR.refused | apply SameMemR.onUnit | apply SameMemR.ite | apply SameMem.ite | apply SameMem.foldl
    | (simp only [SameMem.mk_iff]; apply SameMem.parts) | split | dsimp only

theorem State.retireBank_mem {s0 : State} {s : State} (die : Nat) (bank : Nat) (hs : SameMem s0 s) :
    SameMem s0 (State.retireBank s die bank) := by
  unfold State.retireBank
  repeat' with_reducible first
    | assumption | intro _
    | (extract_lets +onlyGivenNames x; clear_value (hx : x = _); first | refine SameMem.bind (s := s0) hx ?_ (fun _ => ?_) | (refine SameMem.isFaults x ?_; subst hx) | skip)
    | apply State.record_mem | apply State.count_mem | apply State.persist_mem | apply SameMem.ite | apply SameMem.foldl
    | (simp only [SameMem.mk_iff]; apply SameMem.parts) | split | dsimp only

theorem State.fastUncorrectable_mem {s0 : State} {s : State} (die : Nat) (off : Nat) (hs : SameMem s0 s) :
    SameMem s0 (State.fastUncorrectable s die off) := by
  unfold State.fastUncorrectable
  repeat' with_reducible first
    | assumption | intro _
    | (extract_lets +onlyGivenNames x; clear_value (hx : x = _); first | refine SameMem.bind (s := s0) hx ?_ (fun _ => ?_) | (refine SameMem.isFaults x ?_; subst hx) | skip)
    | apply State.record_mem | apply State.voidBlock_mem | apply State.retireBank_mem | apply State.count_mem | apply SameMem.ite | apply SameMem.foldl
    | (simp only [SameMem.mk_iff]; apply SameMem.parts) | split | dsimp only

theorem State.freeSeals_mem {s0 : State} {s : State} (a : Nat) (n : Nat) (hs : SameMem s0 s) :
    SameMem s0 (State.freeSeals s a n) := by
  unfold State.freeSeals
  repeat' with_reducible first
    | assumption | intro _ | apply State.draw_mem | apply State.setSyndrome_mem | apply SameMem.ite | apply SameMem.foldl
    | (simp only [SameMem.mk_iff]; apply SameMem.parts) | apply SameMem.iteFst | apply SameMem.iteSnd | refine SameMem.sndEq (by assumption) ?_ | split | dsimp only

theorem State.tgMismatch_mem {s0 : State} {s : State} (c : Nat) (m : TgMismatch) (hs : SameMem s0 s) :
    SameMem s0 (State.tgMismatch s c m) := by
  unfold State.tgMismatch
  repeat' with_reducible first
    | assumption | intro _
    | (extract_lets +onlyGivenNames x; clear_value (hx : x = _); first | refine SameMem.bind (s := s0) hx ?_ (fun _ => ?_) | (refine SameMem.isFaults x ?_; subst hx) | skip)
    | apply State.setReg_mem | apply State.setFld_mem | apply SameMem.ite | apply SameMem.foldl | (simp only [SameMem.mk_iff]; apply SameMem.parts) | split
    | dsimp only

theorem State.fastCorrected_mem {s0 : State} {s : State} (die : Nat) (off : Nat) (hs : SameMem s0 s) :
    SameMem s0 (State.fastCorrected s die off) := by
  unfold State.fastCorrected
  repeat' with_reducible first
    | assumption | intro _
    | (extract_lets +onlyGivenNames x; clear_value (hx : x = _); first | refine SameMem.bind (s := s0) hx ?_ (fun _ => ?_) | (refine SameMem.isFaults x ?_; subst hx) | skip)
    | apply State.record_mem | apply State.retireBank_mem | apply State.count_mem | apply SameMem.ite | apply SameMem.foldl
    | (simp only [SameMem.mk_iff]; apply SameMem.parts) | split | dsimp only

theorem execBankCopyComplete_mem {s0 : State} (k : Nat) (j : Nat) {s : State} (hs : SameMem s0 s) :
    SameMemR s0 (execBankCopyComplete k j s) := by
  unfold execBankCopyComplete
  repeat' with_reducible first
    | assumption | intro _
    | (extract_lets +onlyGivenNames x; clear_value (hx : x = _); first | refine SameMem.bind (s := s0) hx ?_ (fun _ => ?_) | (refine SameMem.isFaults x ?_; subst hx) | skip)
    | apply State.closeRecords_mem | apply State.voidBlocks_mem | apply onUnit_mem | apply SameMemR.next | exact SameMemR.fault | exact SameMemR.refused
    | apply SameMemR.onUnit | apply SameMemR.ite | apply SameMem.ite | apply SameMem.foldl | (simp only [SameMem.mk_iff]; apply SameMem.parts) | split | dsimp only

theorem execStart_mem {s0 : State} (c : Nat) (val : Nat) {s : State} (hs : SameMem s0 s) :
    SameMemR s0 (execStart c val s) := by
  unfold execStart
  repeat' with_reducible first
    | assumption | intro _
    | (extract_lets +onlyGivenNames x; clear_value (hx : x = _); first | refine SameMem.bind (s := s0) hx ?_ (fun _ => ?_) | (refine SameMem.isFaults x ?_; subst hx) | skip)
    | apply State.setReg_mem | apply State.setFld_mem | apply State.askSys_mem | apply onUnit_mem | apply SameMemR.next | exact SameMemR.fault
    | exact SameMemR.refused | apply SameMemR.onUnit | apply SameMemR.ite | apply SameMem.ite | apply SameMem.foldl | (simp only [SameMem.mk_iff]; apply SameMem.parts)
    | split | dsimp only

theorem State.bookStack_mem {s0 : State} {s : State} (k : Nat) (st : Nat) (hs : SameMem s0 s) :
    SameMem s0 (State.bookStack s k st) := by
  unfold State.bookStack
  repeat' with_reducible first
    | assumption | intro _ | apply State.askSys_mem | apply State.release_mem | apply SameMem.ite | apply SameMem.foldl
    | (simp only [SameMem.mk_iff]; apply SameMem.parts) | split | dsimp only

theorem State.bookRefresh_mem {s0 : State} {s : State} (k : Nat) (st : Nat) (hs : SameMem s0 s) :
    SameMem s0 (State.bookRefresh s k st) := by
  unfold State.bookRefresh
  repeat' with_reducible first
    | assumption | intro _ | apply State.askSys_mem | apply State.release_mem | apply SameMem.ite | apply SameMem.foldl
    | (simp only [SameMem.mk_iff]; apply SameMem.parts) | split | dsimp only

theorem State.stackReading_mem {s0 : State} {s : State} (k : Nat) (t : Nat) (hs : SameMem s0 s) :
    SameMem s0 (State.stackReading s k t) := by
  unfold State.stackReading
  repeat' with_reducible first
    | assumption | intro _
    | (extract_lets +onlyGivenNames x; clear_value (hx : x = _); first | refine SameMem.bind (s := s0) hx ?_ (fun _ => ?_) | (refine SameMem.isFaults x ?_; subst hx) | skip)
    | apply State.setFld_mem | apply State.bookStack_mem | apply State.bookRefresh_mem | apply State.event_mem | apply SameMem.ite | apply SameMem.foldl
    | (simp only [SameMem.mk_iff]; apply SameMem.parts) | split | dsimp only

theorem execHbmTempReading_mem {s0 : State} (temps : List Nat) {s : State} (hs : SameMem s0 s) :
    SameMemR s0 (execHbmTempReading temps s) := by
  unfold execHbmTempReading
  repeat' with_reducible first
    | assumption | intro _
    | (extract_lets +onlyGivenNames x; clear_value (hx : x = _); first | refine SameMem.bind (s := s0) hx ?_ (fun _ => ?_) | (refine SameMem.isFaults x ?_; subst hx) | skip)
    | apply State.stackReading_mem | apply State.ran_mem | apply SameMemR.next | exact SameMemR.fault | exact SameMemR.refused | apply SameMemR.onUnit
    | apply SameMemR.ite | apply SameMem.ite | apply SameMem.foldl | (simp only [SameMem.mk_iff]; apply SameMem.parts) | split | dsimp only

theorem execScrubPass_mem {s0 : State} (k : Nat) (corrected : List Nat) (lost : List Nat) {s : State} (hs : SameMem s0 s) :
    SameMemR s0 (execScrubPass k corrected lost s) := by
  unfold execScrubPass
  repeat' with_reducible first
    | assumption | intro _
    | (extract_lets +onlyGivenNames x; clear_value (hx : x = _); first | refine SameMem.bind (s := s0) hx ?_ (fun _ => ?_) | (refine SameMem.isFaults x ?_; subst hx) | skip)
    | apply State.fastUncorrectable_mem | apply State.ran_mem | apply onUnit_mem | apply State.count_mem | apply State.fastCorrected_mem
    | apply SameMemR.next | exact SameMemR.fault | exact SameMemR.refused | apply SameMemR.onUnit | apply SameMemR.ite | apply SameMem.ite | apply SameMem.foldl
    | (simp only [SameMem.mk_iff]; apply SameMem.parts) | split | dsimp only

theorem State.partWriteback_mem {s0 : State} {s : State} (pk : Nat) (hs : SameMem s0 s) :
    SameMem s0 (State.partWriteback s pk) := by
  unfold State.partWriteback
  repeat' with_reducible first
    | assumption | intro _
    | (extract_lets +onlyGivenNames x; clear_value (hx : x = _); first | refine SameMem.bind (s := s0) hx ?_ (fun _ => ?_) | (refine SameMem.isFaults x ?_; subst hx) | skip)
    | apply State.count_mem | apply SameMem.ite | apply SameMem.foldl | (simp only [SameMem.mk_iff]; apply SameMem.parts) | split | dsimp only

theorem execStop_mem {s0 : State} (c : Nat) {s : State} (hs : SameMem s0 s) :
    SameMemR s0 (execStop c s) := by
  unfold execStop
  repeat' with_reducible first
    | assumption | intro _
    | (extract_lets +onlyGivenNames x; clear_value (hx : x = _); first | refine SameMem.bind (s := s0) hx ?_ (fun _ => ?_) | (refine SameMem.isFaults x ?_; subst hx) | skip)
    | apply onUnit_mem | apply SameMemR.next | exact SameMemR.fault | exact SameMemR.refused | apply SameMemR.onUnit | apply SameMemR.ite | apply SameMem.ite
    | apply SameMem.foldl | (simp only [SameMem.mk_iff]; apply SameMem.parts) | split | dsimp only

theorem execHotChannel_mem {s0 : State} (c : Nat) {s : State} (hs : SameMem s0 s) :
    SameMemR s0 (execHotChannel c s) := by
  unfold execHotChannel
  repeat' with_reducible first
    | assumption | intro _
    | (extract_lets +onlyGivenNames x; clear_value (hx : x = _); first | refine SameMem.bind (s := s0) hx ?_ (fun _ => ?_) | (refine SameMem.isFaults x ?_; subst hx) | skip)
    | apply State.setFld_mem | apply onUnit_mem | apply State.event_mem | apply SameMemR.next | exact SameMemR.fault | exact SameMemR.refused
    | apply SameMemR.onUnit | apply SameMemR.ite | apply SameMem.ite | apply SameMem.foldl | (simp only [SameMem.mk_iff]; apply SameMem.parts) | split | dsimp only

theorem execPcRetrainComplete_mem {s0 : State} (c : Nat) (ok : Bool) (hit : List (Nat × Nat)) {s : State} (hs : SameMem s0 s) :
    SameMemR s0 (execPcRetrainComplete c ok hit s) := by
  unfold execPcRetrainComplete
  repeat' with_reducible first
    | assumption | intro _
    | (extract_lets +onlyGivenNames x; clear_value (hx : x = _); first | refine SameMem.bind (s := s0) hx ?_ (fun _ => ?_) | (refine SameMem.isFaults x ?_; subst hx) | skip)
    | apply State.record_mem | apply onUnit_mem | apply State.endFlights_mem | apply SameMemR.next | exact SameMemR.fault | exact SameMemR.refused
    | apply SameMemR.onUnit | apply SameMemR.ite | apply SameMem.ite | apply SameMem.foldl | (simp only [SameMem.mk_iff]; apply SameMem.parts) | split | dsimp only

theorem State.hotBeat_mem {s0 : State} {s : State} (hot : List Nat) (hs : SameMem s0 s) :
    SameMem s0 (State.hotBeat s hot) := by
  unfold State.hotBeat
  repeat' with_reducible first
    | assumption | intro _
    | (extract_lets +onlyGivenNames x; clear_value (hx : x = _); first | refine SameMem.bind (s := s0) hx ?_ (fun _ => ?_) | (refine SameMem.isFaults x ?_; subst hx) | skip)
    | apply State.count_mem | apply SameMem.ite | apply SameMem.foldl | (simp only [SameMem.mk_iff]; apply SameMem.parts) | split | dsimp only

theorem execTestMode_mem {s0 : State} (v : Nat) {s : State} (hs : SameMem s0 s) :
    SameMemR s0 (execTestMode v s) := by
  unfold execTestMode
  repeat' with_reducible first
    | assumption | intro _ | apply State.setFld_mem | apply onUnit_mem | apply SameMemR.next | exact SameMemR.fault | exact SameMemR.refused
    | apply SameMemR.onUnit | apply SameMemR.ite | apply SameMem.ite | apply SameMem.foldl | (simp only [SameMem.mk_iff]; apply SameMem.parts) | split | dsimp only

theorem execApply_mem {s0 : State} (f : Nat) (k : Nat) {s : State} (hs : SameMem s0 s) :
    SameMemR s0 (execApply f k s) := by
  unfold execApply
  repeat' with_reducible first
    | assumption | intro _ | apply onUnit_mem | apply State.partStart_mem | apply SameMemR.next | exact SameMemR.fault | exact SameMemR.refused
    | apply SameMemR.onUnit | apply SameMemR.ite | apply SameMem.ite | apply SameMem.foldl | (simp only [SameMem.mk_iff]; apply SameMem.parts) | split | dsimp only

end Sys2Proof.Machine
end

