-- ==== Sys2Proof/Laws/SameMemFaults.lean ====
section
/-!
SUPPORT. What the operations of Machine/Faults.lean leave alone (Laws/SameMem.lean).
-/

set_option linter.all false

namespace Sys2Proof.Machine

theorem State.modSlot_mem {s0 : State} {s : State} (k : Nat) (slot : Nat) (f : SlotData → SlotData) (hs : SameMem s0 s) :
    SameMem s0 (State.modSlot s k slot f) := by
  unfold State.modSlot
  repeat' with_reducible first
    | assumption | intro _
    | (extract_lets +onlyGivenNames x; clear_value (hx : x = _); first | refine SameMem.bind (s := s0) hx ?_ (fun _ => ?_) | (refine SameMem.isFaults x ?_; subst hx) | skip)
    | apply SameMem.ite | apply SameMem.foldl | (simp only [SameMem.mk_iff]; apply SameMem.parts) | split | dsimp only

theorem State.bringDue_mem {s0 : State} {s : State} (k : Nat) (slot : Nat) (hs : SameMem s0 s) :
    SameMem s0 (State.bringDue s k slot) := by
  unfold State.bringDue
  repeat' with_reducible first
    | assumption | intro _ | apply State.modSlot_mem | apply SameMem.ite | apply SameMem.foldl | (simp only [SameMem.mk_iff]; apply SameMem.parts) | split
    | dsimp only

theorem State.loseCore_mem {s0 : State} {s : State} (c : Nat) (hs : SameMem s0 s) :
    SameMem s0 (State.loseCore s c) := by
  unfold State.loseCore
  repeat' with_reducible first
    | assumption | intro _
    | (extract_lets +onlyGivenNames x; clear_value (hx : x = _); first | refine SameMem.bind (s := s0) hx ?_ (fun _ => ?_) | (refine SameMem.isFaults x ?_; subst hx) | skip)
    | apply State.setFld_mem | apply State.setCore_mem | apply State.release_mem | apply SameMem.ite | apply SameMem.foldl
    | (simp only [SameMem.mk_iff]; apply SameMem.parts) | split | dsimp only

theorem State.showOverdue_mem {s0 : State} {s : State} (hs : SameMem s0 s) :
    SameMem s0 (State.showOverdue s) := by
  unfold State.showOverdue
  repeat' with_reducible first
    | assumption | intro _ | apply State.setFld_mem | apply SameMem.ite | apply SameMem.foldl | (simp only [SameMem.mk_iff]; apply SameMem.parts) | split
    | dsimp only

theorem State.testStart_mem {s0 : State} {s : State} (t : FieldTest) (hs : SameMem s0 s) :
    SameMem s0 (State.testStart s t) := by
  unfold State.testStart
  repeat' with_reducible first
    | assumption | intro _
    | (extract_lets +onlyGivenNames x; clear_value (hx : x = _); first | refine SameMem.bind (s := s0) hx ?_ (fun _ => ?_) | (refine SameMem.isFaults x ?_; subst hx) | skip)
    | apply State.modCore_mem | apply State.setFld_mem | apply State.askSys_mem | apply State.coreWake_mem | apply SameMem.ite | apply SameMem.foldl
    | (simp only [SameMem.mk_iff]; apply SameMem.parts) | split | dsimp only

theorem State.forceNext_mem {s0 : State} {s : State} (hs : SameMem s0 s) :
    SameMem s0 (State.forceNext s) := by
  unfold State.forceNext
  repeat' with_reducible first
    | assumption | intro _
    | (extract_lets +onlyGivenNames x; clear_value (hx : x = _); first | refine SameMem.bind (s := s0) hx ?_ (fun _ => ?_) | (refine SameMem.isFaults x ?_; subst hx) | skip)
    | apply State.showOverdue_mem | apply State.modCore_mem | apply State.endFlight_mem | apply State.testStart_mem | apply SameMem.ite | apply SameMem.foldl
    | (simp only [SameMem.mk_iff]; apply SameMem.parts) | split | dsimp only

theorem execIftForced_mem {s0 : State} (k : Nat) (slot : Nat) {s : State} (hs : SameMem s0 s) :
    SameMemR s0 (execIftForced k slot s) := by
  unfold execIftForced
  repeat' with_reducible first
    | assumption | intro _
    | (extract_lets +onlyGivenNames x; clear_value (hx : x = _); first | refine SameMem.bind (s := s0) hx ?_ (fun _ => ?_) | (refine SameMem.isFaults x ?_; subst hx) | skip)
    | apply State.showOverdue_mem | apply State.forceNext_mem | apply onUnit_mem | apply State.count_mem | apply SameMemR.next | exact SameMemR.fault
    | exact SameMemR.refused | apply SameMemR.onUnit | apply SameMemR.ite | apply SameMem.ite | apply SameMem.foldl | (simp only [SameMem.mk_iff]; apply SameMem.parts)
    | split | dsimp only

theorem execIftRun_mem {s0 : State} (q : Nat) (i : Nat) {s : State} (hs : SameMem s0 s) :
    SameMemR s0 (execIftRun q i s) := by
  unfold execIftRun
  repeat' with_reducible first
    | assumption | intro _
    | (extract_lets +onlyGivenNames x; clear_value (hx : x = _); first | refine SameMem.bind (s := s0) hx ?_ (fun _ => ?_) | (refine SameMem.isFaults x ?_; subst hx) | skip)
    | apply State.forceNext_mem | apply State.dispatch_mem | apply State.endFlight_mem | apply SameMemR.next | exact SameMemR.fault | exact SameMemR.refused
    | apply SameMemR.onUnit | apply SameMemR.ite | apply SameMem.ite | apply SameMem.foldl | (simp only [SameMem.mk_iff]; apply SameMem.parts) | split | dsimp only

theorem State.afterBatch_mem {s0 : State} {s : State} (a : AfterBatch) (hs : SameMem s0 s) :
    SameMem s0 (State.afterBatch s a) := by
  unfold State.afterBatch
  repeat' with_reducible first
    | assumption | intro _
    | (extract_lets +onlyGivenNames x; clear_value (hx : x = _); first | refine SameMem.bind (s := s0) hx ?_ (fun _ => ?_) | (refine SameMem.isFaults x ?_; subst hx) | skip)
    | apply State.closeRecords_mem | apply State.rejectBack_mem | apply State.coreWake_mem | apply State.flashKick_mem | apply State.handOff_mem
    | apply SameMem.ite | apply SameMem.foldl | (simp only [SameMem.mk_iff]; apply SameMem.parts) | split | dsimp only

theorem execIftStart_mem {s0 : State} {s : State} (hs : SameMem s0 s) :
    SameMemR s0 (execIftStart s) := by
  unfold execIftStart
  repeat' with_reducible first
    | assumption | intro _ | apply State.testStart_mem | apply SameMemR.next | exact SameMemR.fault | exact SameMemR.refused | apply SameMemR.onUnit
    | apply SameMemR.ite | apply SameMem.ite | apply SameMem.foldl | (simp only [SameMem.mk_iff]; apply SameMem.parts) | split | dsimp only

theorem State.flipSeal_mem {s0 : State} {s : State} (b : Nat) (hs : SameMem s0 s) :
    SameMem s0 (State.flipSeal s b) := by
  unfold State.flipSeal
  repeat' with_reducible first
    | assumption | intro _
    | (extract_lets +onlyGivenNames x; clear_value (hx : x = _); first | refine SameMem.bind (s := s0) hx ?_ (fun _ => ?_) | (refine SameMem.isFaults x ?_; subst hx) | skip)
    | apply State.setSyndrome_mem | apply SameMem.ite | apply SameMem.foldl | (simp only [SameMem.mk_iff]; apply SameMem.parts) | split | dsimp only

theorem execJournalBatchPersisted_mem {s0 : State} (fails : List Nat) {s : State} (hs : SameMem s0 s) :
    SameMemR s0 (execJournalBatchPersisted fails s) := by
  unfold execJournalBatchPersisted
  repeat' with_reducible first
    | assumption | intro _
    | (extract_lets +onlyGivenNames x; clear_value (hx : x = _); first | refine SameMem.bind (s := s0) hx ?_ (fun _ => ?_) | refine SameMem.bindFst (s := s0) hx ?_ (fun _ => ?_) | (refine SameMem.isFaults x ?_; subst hx) | skip)
    | apply State.batchWrite_mem | apply State.switchRegion_mem | apply State.fwEvent_mem | apply State.storeKick_mem | apply State.afterBatch_mem
    | apply State.batchEnd_mem | apply SameMemR.next | exact SameMemR.fault | exact SameMemR.refused | apply SameMemR.onUnit | apply SameMemR.ite | apply SameMem.ite
    | apply SameMem.foldl | (simp only [SameMem.mk_iff]; apply SameMem.parts) | apply SameMem.iteFst | apply SameMem.iteSnd | refine SameMem.fstEq (by assumption) ?_
    | split | dsimp only

theorem execSpareReady_mem {s0 : State} (k : Nat) {s : State} (hs : SameMem s0 s) :
    SameMemR s0 (execSpareReady k s) := by
  unfold execSpareReady
  repeat' with_reducible first
    | assumption | intro _
    | (extract_lets +onlyGivenNames x; clear_value (hx : x = _); first | refine SameMem.bind (s := s0) hx ?_ (fun _ => ?_) | (refine SameMem.isFaults x ?_; subst hx) | skip)
    | apply State.closeRecords_mem | apply onUnit_mem | apply State.refreshHeads_mem | apply SameMemR.next | exact SameMemR.fault | exact SameMemR.refused
    | apply SameMemR.onUnit | apply SameMemR.ite | apply SameMem.ite | apply SameMem.foldl | (simp only [SameMem.mk_iff]; apply SameMem.parts) | split | dsimp only

theorem execSealScan_mem {s0 : State} (q : Nat) (i : Nat) {s : State} (hs : SameMem s0 s) :
    SameMemR s0 (execSealScan q i s) := by
  unfold execSealScan
  repeat' with_reducible first
    | assumption | intro _
    | (extract_lets +onlyGivenNames x; clear_value (hx : x = _); first | refine SameMem.bind (s := s0) hx ?_ (fun _ => ?_) | (refine SameMem.isFaults x ?_; subst hx) | skip)
    | apply State.dispatch_mem | apply State.endFlight_mem | apply SameMemR.next | exact SameMemR.fault | exact SameMemR.refused | apply SameMemR.onUnit
    | apply SameMemR.ite | apply SameMem.ite | apply SameMem.foldl | (simp only [SameMem.mk_iff]; apply SameMem.parts) | split | dsimp only

theorem execInject_mem {s0 : State} (q : Nat) (i : Nat) {s : State} (hs : SameMem s0 s) :
    SameMemR s0 (execInject q i s) := by
  unfold execInject
  repeat' with_reducible first
    | assumption | intro _
    | (extract_lets +onlyGivenNames x; clear_value (hx : x = _); first | refine SameMem.bind (s := s0) hx ?_ (fun _ => ?_) | (refine SameMem.isFaults x ?_; subst hx) | skip)
    | apply State.flipSeal_mem | apply State.dispatch_mem | apply State.endFlight_mem | apply SameMemR.next | exact SameMemR.fault | exact SameMemR.refused
    | apply SameMemR.onUnit | apply SameMemR.ite | apply SameMem.ite | apply SameMem.foldl | (simp only [SameMem.mk_iff]; apply SameMem.parts) | split | dsimp only

end Sys2Proof.Machine
end

