-- ==== Sys2Proof/Laws/SameMemHostPort.lean ====
section
/-!
SUPPORT. What the operations of Machine/HostPort.lean leave alone (Laws/SameMem.lean).
-/

set_option linter.all false

namespace Sys2Proof.Machine

theorem execMsixHoldoffExpiry_mem {s0 : State} (f : Nat) (v : Nat) {s : State} (hs : SameMem s0 s) :
    SameMemR s0 (execMsixHoldoffExpiry f v s) := by
  unfold execMsixHoldoffExpiry
  repeat' with_reducible first
    | assumption | intro _
    | (extract_lets +onlyGivenNames x; clear_value (hx : x = _); first | refine SameMem.bind (s := s0) hx ?_ (fun _ => ?_) | (refine SameMem.isFaults x ?_; subst hx) | skip)
    | apply State.setMsix_mem | apply State.sendVector_mem | apply onUnit_mem | apply SameMemR.next | exact SameMemR.fault | exact SameMemR.refused
    | apply SameMemR.onUnit | apply SameMemR.ite | apply SameMem.ite | apply SameMem.foldl | (simp only [SameMem.mk_iff]; apply SameMem.parts) | split | dsimp only

theorem execHostCompletionTimeout_mem {s0 : State} (tag : Nat) {s : State} (hs : SameMem s0 s) :
    SameMemR s0 (execHostCompletionTimeout tag s) := by
  unfold execHostCompletionTimeout
  repeat' with_reducible first
    | assumption | intro _ | apply State.dropRequest_mem | apply State.answered_mem | apply SameMemR.next | exact SameMemR.fault | exact SameMemR.refused
    | apply SameMemR.onUnit | apply SameMemR.ite | apply SameMem.ite | apply SameMem.foldl | (simp only [SameMem.mk_iff]; apply SameMem.parts) | split | dsimp only

theorem State.flushVector_mem {s0 : State} {s : State} (f : Nat) (v : Nat) (hs : SameMem s0 s) :
    SameMem s0 (State.flushVector s f v) := by
  unfold State.flushVector
  repeat' with_reducible first
    | assumption | intro _
    | (extract_lets +onlyGivenNames x; clear_value (hx : x = _); first | refine SameMem.bind (s := s0) hx ?_ (fun _ => ?_) | (refine SameMem.isFaults x ?_; subst hx) | skip)
    | apply State.sendVector_mem | apply SameMem.ite | apply SameMem.foldl | (simp only [SameMem.mk_iff]; apply SameMem.parts) | split | dsimp only

theorem State.flushVectors_mem {s0 : State} {s : State} (f : Nat) (hs : SameMem s0 s) :
    SameMem s0 (State.flushVectors s f) := by
  unfold State.flushVectors
  repeat' with_reducible first
    | assumption | intro _ | apply State.flushVector_mem | apply SameMem.ite | apply SameMem.foldl | (simp only [SameMem.mk_iff]; apply SameMem.parts) | split
    | dsimp only

theorem execPcieConfigAccess_mem {s0 : State} (f : Nat) (op : CfgOp) {s : State} (hs : SameMem s0 s) :
    SameMemR s0 (execPcieConfigAccess f op s) := by
  unfold execPcieConfigAccess
  repeat' with_reducible first
    | assumption | intro _
    | (extract_lets +onlyGivenNames x; clear_value (hx : x = _); first | refine SameMem.bind (s := s0) hx ?_ (fun _ => ?_) | (refine SameMem.isFaults x ?_; subst hx) | skip)
    | apply State.setPcie_mem | apply onUnit_mem | apply State.send_mem | apply State.flushVectors_mem | apply SameMemR.next | exact SameMemR.fault
    | exact SameMemR.refused | apply SameMemR.onUnit | apply SameMemR.ite | apply SameMem.ite | apply SameMem.foldl | (simp only [SameMem.mk_iff]; apply SameMem.parts)
    | split | dsimp only

theorem execBar2Read_mem {s0 : State} (f : Nat) (o : Nat) (n : Nat) {s : State} (hs : SameMem s0 s) :
    SameMemR s0 (execBar2Read f o n s) := by
  unfold execBar2Read
  repeat' with_reducible first
    | assumption | intro _
    | (extract_lets +onlyGivenNames x; clear_value (hx : x = _); first | refine SameMem.bind (s := s0) hx ?_ (fun _ => ?_) | refine SameMem.bindFst (s := s0) hx ?_ (fun _ => ?_) | (refine SameMem.isFaults x ?_; subst hx) | skip)
    | apply State.traffic_mem | apply State.coreWake_mem | apply onUnit_mem | apply State.uncorrectable_mem | apply State.count_mem | apply State.send_mem
    | apply SameMemR.next | exact SameMemR.fault | exact SameMemR.refused | apply SameMemR.onUnit | apply SameMemR.ite | apply SameMem.ite | apply SameMem.foldl
    | (simp only [SameMem.mk_iff]; apply SameMem.parts) | apply SameMem.iteFst | apply SameMem.iteSnd | refine SameMem.fstEq (by assumption) ?_ | split | dsimp only

theorem execMsixUnmask_mem {s0 : State} (f : Nat) (v : Nat) {s : State} (hs : SameMem s0 s) :
    SameMemR s0 (execMsixUnmask f v s) := by
  unfold execMsixUnmask
  repeat' with_reducible first
    | assumption | intro _
    | (extract_lets +onlyGivenNames x; clear_value (hx : x = _); first | refine SameMem.bind (s := s0) hx ?_ (fun _ => ?_) | (refine SameMem.isFaults x ?_; subst hx) | skip)
    | apply State.setMsix_mem | apply State.sendVector_mem | apply onUnit_mem | apply SameMemR.next | exact SameMemR.fault | exact SameMemR.refused
    | apply SameMemR.onUnit | apply SameMemR.ite | apply SameMem.ite | apply SameMem.foldl | (simp only [SameMem.mk_iff]; apply SameMem.parts) | split | dsimp only

end Sys2Proof.Machine
end

