-- ==== Sys2Proof/Laws/Memory.lean ====
section
/-!
SUPPORT. Memory bytes and seals after a write: the bytes stored, and nothing else.
-/

namespace Sys2Proof.Machine

/-- Storing bytes in a canonical memory: those addresses read the bytes stored, every other as before. -/
theorem putBytesMem_get {m : List Host.Cell} (hm : Memory.wf m) (a : Nat) (bs : List Byte) (x : Nat) :
    smapGet (fun _ => (0 : Byte)) (putBytesMem m a bs) x
      = if a ≤ x ∧ x < a + bs.length then bs.getD (x - a) 0 else smapGet (fun _ => (0 : Byte)) m x := by
  induction bs generalizing m a with
  | nil => rw [putBytesMem, if_neg (by simp only [List.length_nil]; omega)]
  | cons b bs ih =>
    rw [putBytesMem, ih (smapWf_put a b hm), smapGet_put hm, List.length_cons]
    by_cases h1 : a + 1 ≤ x ∧ x < a + 1 + bs.length
    · rw [if_pos h1, if_pos (by omega), show x - a = (x - (a + 1)) + 1 by omega, List.getD_cons_succ]
    · rw [if_neg h1]
      by_cases h2 : x = a
      · subst h2; rw [if_pos rfl, if_pos (by omega), Nat.sub_self, List.getD_cons_zero]
      · rw [if_neg h2, if_neg (by omega)]

/-- `State.putBytes` on one byte. -/
theorem State.byte_putBytes {s : State} (h : Memory.wf s.mem) (a : Nat) (bs : List Byte) (x : Nat) :
    (s.putBytes a bs).byte x = if a ≤ x ∧ x < a + bs.length then bs.getD (x - a) 0 else s.byte x :=
  putBytesMem_get h a bs x

/-- What leaves memory alone leaves every byte alone. -/
theorem SameMem.byte {s t : State} (h : SameMem s t) (x : Nat) : t.byte x = s.byte x := by
  have h1 : t.mem = s.mem := congrArg Prod.fst h
  rw [State.byte, State.byte, h1]

/-- What leaves the semaphores alone. -/
theorem SameMem.sem {s t : State} (h : SameMem s t) (n : Nat) : t.sem n = s.sem n := by
  have h1 : t.sems = s.sems := congrArg Prod.snd h
  rw [State.sem, State.sem, h1]

theorem SameMem.trans {s t u : State} (h : SameMem s t) (h' : SameMem t u) : SameMem s u := Eq.trans h' h

/-- A plain write stores its bytes and no other (R445). -/
theorem State.byte_plainWrite {s : State} (h : Memory.wf s.mem) (a : Nat) (bs : List Byte) (x : Nat) :
    (s.plainWrite a bs).byte x = if a ≤ x ∧ x < a + bs.length then bs.getD (x - a) 0 else s.byte x := by
  rw [← State.byte_putBytes h]
  refine SameMem.byte ?_ x
  unfold State.plainWrite
  exact SameMem.foldl (SameMem.refl _) (fun y z hy => State.count_mem _ _ (State.setSyndrome_mem _ _ hy))

/-- A sealing write stores its bytes and no other (R445). -/
theorem State.byte_sealWrite {s : State} (h : Memory.wf s.mem) (a : Nat) (bs : List Byte) (x : Nat) :
    (s.sealWrite a bs).byte x = if a ≤ x ∧ x < a + bs.length then bs.getD (x - a) 0 else s.byte x := by
  rw [← State.byte_putBytes h]
  refine SameMem.byte ?_ x
  unfold State.sealWrite
  exact SameMem.foldl (SameMem.refl _) (fun y z hy => SameMem.ite (State.setSyndrome_mem _ _ hy) (State.count_mem _ _ hy))

/-- The block addresses of a range: its first block, and every one up to the block of its last byte. -/
theorem mem_blocksOf {a n b : Nat} : b ∈ blocksOf a n ↔ n ≠ 0 ∧ b % 2048 = 0 ∧ a / 2048 * 2048 ≤ b ∧ b < a + n := by
  unfold blocksOf
  by_cases hn : n = 0
  · simp [hn]
  · rw [if_neg hn]
    simp only [List.mem_map, List.mem_range]
    constructor
    · rintro ⟨i, hi, rfl⟩; omega
    · rintro ⟨_, h1, h2, h3⟩; exact ⟨b / 2048 - a / 2048, by omega, by omega⟩

end Sys2Proof.Machine
end

