-- ==== Sys2Proof/Laws/Operations.lean ====
section
/-!
SUPPORT. The ways into a command's work: when the conditions of Safety.lean hold, the shared operation that every meaning of its kind goes through answers
the next state of that work; and what the shared updates of registers and of the commands in flight leave.
-/

set_option linter.all false

namespace Sys2Proof.Machine

/-- No check fails just when every check holds. -/
theorem firstBad_eq_none {l : List (Nat × Bool)} : firstBad l = none ↔ ∀ x ∈ l, x.2 = true := by
  induction l with
  | nil => simp [firstBad]
  | cons a t ih => obtain ⟨o, b⟩ := a; cases b <;> simp [firstBad, ih]

/-- A live command reaches its engine. -/
theorem engine_of_live {s : State} {q i op : Nat} {fl : Flight} (h : s.Live q i op fl) (k) : s.engine q i op k = .next (k fl) := by
  obtain ⟨a, b, c⟩ := h
  simp [State.engine, a, b, c]

/-- A command that runs is in flight. -/
theorem flight_of_running {s : State} {q i op : Nat} {fl : Flight} (h : s.running q i op = some fl) : s.flight? q i = some fl := by
  unfold State.running at h
  split at h
  · rename_i g hg; split at h <;> simp_all
  · cases h

/-- A live control command whose reserved bytes are zero and whose checks hold takes its effect (R316). -/
theorem control_of_live {s : State} {q i op : Nat} {fl : Flight} (h : s.Live q i op fl) (r : reservedZero op fl) (cs) (hc : ∀ x ∈ cs fl.bytes, x.2 = true) (k) :
    s.control q i op cs k = .next (k fl) := by
  have e : firstBad (cs fl.bytes ++ (controlReserved op).map (fun o => (o, byteAt fl.bytes o == 0))) = none := by
    rw [firstBad_eq_none]; intro x hx
    rcases List.mem_append.1 hx with h1 | h1
    · exact hc x h1
    · obtain ⟨o, ho, rfl⟩ := List.mem_map.1 h1
      exact (List.all_eq_true.1 r) o ho
  rw [State.control, engine_of_live h, e]

/-- A command its engine may work on, with no bad field, does its work. -/
theorem dispatch_of_works {s : State} {q i op : Nat} {fl : Flight} (h : s.Works q i op fl) (bad) (hb : bad fl = none) (k) :
    s.dispatch q i op bad k = .next (k s fl) := by
  obtain ⟨h1, h2, h3, h4, h5⟩ := h
  rw [State.dispatch, engine_of_live h1]
  simp [hb, h3, h4, h2, flight_of_running h1.1, h5]

/-- The same for a command with a descriptor. -/
theorem withDesc_of_works {s : State} {q i op : Nat} {fl : Flight} {d} (h : s.Works q i op fl) (hd : s.Describes fl d) (bad) (hb : bad fl d = none) (k) :
    s.withDesc q i op bad k = .next (k s fl d) := by
  obtain ⟨h1, h2, h3⟩ := hd
  rw [State.withDesc, dispatch_of_works h]
  · simp only [h2, h3]
  · simp only [h1, h2, h3]; simpa using hb

/-- A command that may draw does its work, and an end other than OK takes its draws back (R207). -/
theorem drawing_of_mayDraw {s : State} {q i : Nat} {fl} (h : s.MayDraw q i fl) (k : State → State) : s.drawing q i fl k = s.afterDraw q i fl (k s) := by
  rw [State.drawing, State.afterDraw, h.1, h.2]; rfl

/-- A thread that may issue does so. -/
theorem threadRow_of_issues {s : State} {c t : Nat} {mv : Bool} {fl} (h : s.Issues c t mv fl) (k) : threadRow c t mv s k = .next (k (s.issued c t) fl) := by
  obtain ⟨a, b, d, e, f, g, i⟩ := h
  simp only [threadRow, onUnit, a, b, State.issue]
  have hn : ¬ (t ≥ 16 ∨ (12 ≤ t) ≠ (mv = true) ∨ (!s.threadReady c t) = true ∨ (!s.awake c) = true) := by
    simp [d, e, f]; omega
  simp only [hn, g, i]
  simp

/-- An outstanding request is served. -/
theorem odServe_of_serves {s : State} {tr r} (h : s.Serves tr r) (pick) (hp : pick r = true) (k) : s.odServe tr pick k = .next (k r) := by
  obtain ⟨a, b, c⟩ := h
  simp only [State.odServe, onUnit, a, b, c, hp]; simp

/-- A write of an action entry that its checks accept takes its action. -/
theorem odAction_of_serves {s : State} {tr r} (h : s.Serves tr r) (pick : Nat → Nat → Bool) (ho : r.op = 2) (hp : pick r.index r.sub = true) (hr : s.odRefused r = none)
    (hv : leNat r.value ≠ 0) (k) : s.odAction tr pick k = .next (k r (leNat r.value)) := by
  rw [State.odAction, odServe_of_serves h _ (by simp [ho, hp])]; simp [hr, hv]

/-- The same for an entry of the update, at a stage that takes it. -/
theorem fwAction_of_commands {s : State} {tr i b r v st} (h : s.Commands tr i b r v) (hb : s.fwBusy = false) (hs : st.contains s.stage = true) (k) :
    s.fwAction tr i b st k = .next (k r v) := by
  obtain ⟨a, b, c, d, e, f, g⟩ := h; subst f
  rw [State.fwAction, odAction_of_serves a _ b (by simp [c, d]) e g]; rw [hb, hs]; rfl

/-- A register after a write of one. -/
theorem reg_setReg {s : State} (hs : smapWf regCold s.regs = true) (k v k' : Nat) : (s.setReg k v).reg k' = if k' = k then v % 2 ^ 64 else s.reg k' := by
  unfold State.reg State.setReg
  simp only
  rw [smapGet_put hs]
  split
  · exact BitVec.toNat_ofNat ..
  · rfl

/-- Counting touches no command in flight. -/
theorem flights_count (s : State) (k n : Nat) : (s.count k n).flights = s.flights := by
  unfold State.count
  generalize s.evMatches k = l
  have : ∀ (l : List Nat) (t : State),
      (l.foldl (fun t e => t.setReg (A.EVCNT (e / 16) (e % 16)) (counterAdd (t.reg (A.EVCNT (e / 16) (e % 16))) n)) t).flights = t.flights := by
    intro l
    induction l with
    | nil => intro t; rfl
    | cons a l ih => intro t; rw [List.foldl_cons, ih]; rfl
  rw [this]; rfl

/-- Void seals touch no command in flight. -/
theorem flights_voidBlocks (bs : List Nat) (s : State) : (s.voidBlocks bs).flights = s.flights := by
  unfold State.voidBlocks
  induction bs generalizing s with
  | nil => rfl
  | cons b bs ih => rw [List.foldl_cons, ih]; exact flights_count _ _ _

end Sys2Proof.Machine
end

