-- ==== Sys2Proof/Laws/SameConf.lean ====
section
/-!
SUPPORT. The relation of the operations that leave the device's configuration alone (State.conf). One lemma per such operation is in the files Laws/SameConf….lean.
-/

namespace Sys2Proof.Machine

/-- From `s` to `t` what configures the device is unchanged. -/
def SameConf (s t : State) : Prop := t.conf = s.conf

/-- The same of an outcome's next state. -/
def SameConfR (s : State) (r : Result) : Prop := ∀ t, r = .next t → SameConf s t

/-- The same of the state `f` finds in an answer, when there is one. -/
def SameConfO {α : Type} (f : α → State) (s : State) (o : Option α) : Prop := ∀ x, o = some x → SameConf s (f x)

variable {s t : State}

theorem SameConf.refl (s : State) : SameConf s s := rfl

theorem SameConf.parts (h : SameConf s t) : (t.beat, t.ticks, t.sorter, t.pcie, t.vfEnable, t.numVfs, t.ctrClears, t.lowLatch, t.beatLogic, t.od, t.absent, t.boot, t.evsel, t.barOpen, t.clrst, t.clrstAt) = s.conf := h

theorem SameConf.mk_iff {pending free outbox regs mem seals beat ps ticks tiers coh cores queues flights sorter sems deadLetters domains faults slogQ traces msix pcie vfEnable numVfs ctrClears lowLatch fabric col beatLogic esc power od absent jrn fw boot evsel tel barOpen clrst clrstAt} :
    SameConf s ⟨pending, free, outbox, regs, mem, seals, beat, ps, ticks, tiers, coh, cores, queues, flights, sorter, sems, deadLetters, domains, faults, slogQ, traces, msix, pcie, vfEnable, numVfs, ctrClears, lowLatch, fabric, col, beatLogic, esc, power, od, absent, jrn, fw, boot, evsel, tel, barOpen, clrst, clrstAt⟩
      ↔ (beat, ticks, sorter, pcie, vfEnable, numVfs, ctrClears, lowLatch, beatLogic, od, absent, boot, evsel, barOpen, clrst, clrstAt) = s.conf := Iff.rfl

theorem SameConf.isFun {α β : Sort _} {G : Prop} (_ : α → β) (h : G) : G := h

theorem SameConf.isFaults {G : Prop} (_ : FaultState) (h : G) : G := h

/-- A named intermediate state is kept when its value is. -/
theorem SameConf.bind {x v : State} {G : Prop} (e : x = v) (hv : SameConf s v) (h : SameConf s x → G) : G := h (e ▸ hv)

theorem SameConf.bindFst {α : Type} {x v : State × α} {G : Prop} (e : x = v) (hv : SameConf s v.1) (h : SameConf s x.1 → G) : G := h (e ▸ hv)

theorem SameConf.bindSnd {α : Type} {x v : α × State} {G : Prop} (e : x = v) (hv : SameConf s v.2) (h : SameConf s x.2 → G) : G := h (e ▸ hv)

theorem SameConf.bindJob {x v : JobSt} {G : Prop} (e : x = v) (hv : SameConf s v.st) (h : SameConf s x.st → G) : G := h (e ▸ hv)

theorem SameConf.bindRes {x v : JobResult} {G : Prop} (e : x = v) (hv : SameConf s v.st) (h : SameConf s x.st → G) : G := h (e ▸ hv)

theorem SameConf.ite {c : Prop} [Decidable c] {a b : State} (ha : SameConf s a) (hb : SameConf s b) : SameConf s (if c then a else b) := by split <;> assumption

theorem SameConf.foldl {α : Type} {f : State → α → State} {l : List α} {a : State} (ha : SameConf s a) (hf : ∀ x y, SameConf s x → SameConf s (f x y)) :
    SameConf s (l.foldl f a) := by
  induction l generalizing a with
  | nil => exact ha
  | cons y l ih => exact ih (hf a y ha)

theorem SameConf.foldlPair {α β : Type} {f : State × β → α → State × β} {l : List α} {a : State × β} (ha : SameConf s a.1) (hf : ∀ x y, SameConf s x.1 → SameConf s (f x y).1) :
    SameConf s (l.foldl f a).1 := by
  induction l generalizing a with
  | nil => exact ha
  | cons y l ih => exact ih (hf a y ha)

theorem SameConf.foldlJob {α : Type} {f : JobSt → α → JobSt} {l : List α} {a : JobSt} (ha : SameConf s a.st) (hf : ∀ x y, SameConf s x.st → SameConf s (f x y).st) :
    SameConf s (l.foldl f a).st := by
  induction l generalizing a with
  | nil => exact ha
  | cons y l ih => exact ih (hf a y ha)

theorem SameConf.iteJob {c : Prop} [Decidable c] {a b : JobSt} (ha : SameConf s a.st) (hb : SameConf s b.st) : SameConf s (if c then a else b).st := by split <;> assumption

theorem SameConf.iteFst {α : Type} {c : Prop} [Decidable c] {a b : State × α} (ha : SameConf s a.1) (hb : SameConf s b.1) : SameConf s (if c then a else b).1 := by split <;> assumption

theorem SameConf.iteSnd {α : Type} {c : Prop} [Decidable c] {a b : α × State} (ha : SameConf s a.2) (hb : SameConf s b.2) : SameConf s (if c then a else b).2 := by split <;> assumption

/-- A state taken out of a pair, or of an answer, is kept when the pair's or the answer's is. -/
theorem SameConf.fstEq {α : Type} {p : State × α} {b : α} (e : p = (t, b)) (h : SameConf s p.1) : SameConf s t := by rw [e] at h; exact h

theorem SameConf.sndEq {α : Type} {p : α × State} {b : α} (e : p = (b, t)) (h : SameConf s p.2) : SameConf s t := by rw [e] at h; exact h

theorem SameConf.jobEq {α : Type} {p : JobSt × α} {j : JobSt} {b : α} (e : p = (j, b)) (h : SameConf s p.1.st) : SameConf s j.st := by rw [e] at h; exact h

theorem SameConf.optEq {o : Option State} (e : o = some t) (h : SameConfO (fun x => x) s o) : SameConf s t := h t e

theorem SameConf.optEq2 {α : Type} {o : Option (α × State)} {b : α} (e : o = some (b, t)) (h : SameConfO (fun x => x.2) s o) : SameConf s t := h (b, t) e

theorem SameConf.optEq3 {α β : Type} {o : Option (α × β × State)} {b : α} {c : β} (e : o = some (b, c, t)) (h : SameConfO (fun x => x.2.2) s o) : SameConf s t :=
  h (b, c, t) e

theorem SameConfO.none {α : Type} {f : α → State} : SameConfO f s none := fun _ e => nomatch e

theorem SameConfO.some {α : Type} {f : α → State} {x : α} (h : SameConf s (f x)) : SameConfO f s (some x) := fun _ e => by cases e; exact h

theorem SameConfO.ite {α : Type} {f : α → State} {c : Prop} [Decidable c] {a b : Option α} (ha : SameConfO f s a) (hb : SameConfO f s b) :
    SameConfO f s (if c then a else b) := by split <;> assumption

theorem SameConf.getD {o : Option State} {d : State} (h : SameConfO (fun x => x) s o) (hd : SameConf s d) : SameConf s (o.getD d) := by
  cases o with
  | none => exact hd
  | some x => exact h x rfl

theorem SameConfR.next (h : SameConf s t) : SameConfR s (.next t) := fun _ e => by cases e; exact h

theorem SameConfR.fault {e : Fault} : SameConfR s (.fault e) := fun _ e => nomatch e

theorem SameConfR.refused {e : Refusal} : SameConfR s (.refused e) := fun _ e => nomatch e

theorem SameConfR.onUnit {p : Bool} (h : SameConf s t) : SameConfR s (onUnit p t) := by
  unfold Sys2Proof.Machine.onUnit; split
  · exact .next h
  · exact .fault

theorem SameConfR.ite {c : Prop} [Decidable c] {a b : Result} (ha : SameConfR s a) (hb : SameConfR s b) : SameConfR s (if c then a else b) := by split <;> assumption


end Sys2Proof.Machine
end

