-- ==== Sys2Proof/Laws/SameConfOps.lean ====
section
/-!
SUPPORT. What the operations of Machine/Ops.lean leave alone (Laws/SameConf.lean).
-/

set_option linter.all false

namespace Sys2Proof.Machine

theorem State.setSem_conf {s0 : State} {s : State} (n : Nat) (v : Nat) (hs : SameConf s0 s) :
    SameConf s0 (State.setSem s n v) := by
  unfold State.setSem
  repeat' with_reducible first
    | assumption | intro _ | apply SameConf.ite | apply SameConf.foldl | (simp only [SameConf.mk_iff]; apply SameConf.parts) | split | dsimp only

theorem State.markEnded_conf {s0 : State} {s : State} (p : Flight → Bool) (status : Nat) (detail : Nat) (hs : SameConf s0 s) :
    SameConf s0 (State.markEnded s p status detail) := by
  unfold State.markEnded
  repeat' with_reducible first
    | assumption | intro _ | apply SameConf.ite | apply SameConf.foldl | (simp only [SameConf.mk_iff]; apply SameConf.parts) | split | dsimp only

theorem State.setReg_conf {s0 : State} {s : State} (k : Nat) (v : Nat) (hs : SameConf s0 s) :
    SameConf s0 (State.setReg s k v) := by
  unfold State.setReg
  repeat' with_reducible first
    | assumption | intro _ | apply SameConf.ite | apply SameConf.foldl | (simp only [SameConf.mk_iff]; apply SameConf.parts) | split | dsimp only

theorem State.count_conf {s0 : State} {s : State} (k : Nat) (n : Nat) (hs : SameConf s0 s) :
    SameConf s0 (State.count s k n) := by
  unfold State.count
  repeat' with_reducible first
    | assumption | intro _ | apply State.setReg_conf | apply SameConf.ite | apply SameConf.foldl | (simp only [SameConf.mk_iff]; apply SameConf.parts) | split
    | dsimp only

theorem State.setSyndrome_conf {s0 : State} {s : State} (b : Nat) (x : W32) (hs : SameConf s0 s) :
    SameConf s0 (State.setSyndrome s b x) := by
  unfold State.setSyndrome
  repeat' with_reducible first
    | assumption | intro _ | apply SameConf.ite | apply SameConf.foldl | (simp only [SameConf.mk_iff]; apply SameConf.parts) | split | dsimp only

theorem State.voidBlock_conf {s0 : State} {s : State} (b : Nat) (hs : SameConf s0 s) :
    SameConf s0 (State.voidBlock s b) := by
  unfold State.voidBlock
  repeat' with_reducible first
    | assumption | intro _ | apply State.count_conf | apply State.setSyndrome_conf | apply SameConf.ite | apply SameConf.foldl
    | (simp only [SameConf.mk_iff]; apply SameConf.parts) | split | dsimp only

theorem State.voidBlocks_conf {s0 : State} {s : State} (bs : List Nat) (hs : SameConf s0 s) :
    SameConf s0 (State.voidBlocks s bs) := by
  unfold State.voidBlocks
  repeat' with_reducible first
    | assumption | intro _ | apply State.voidBlock_conf | apply SameConf.ite | apply SameConf.foldl | (simp only [SameConf.mk_iff]; apply SameConf.parts) | split
    | dsimp only

theorem State.endFlights_conf {s0 : State} {s : State} (p : Flight → Bool) (status : Nat) (detail : Nat) (hs : SameConf s0 s) :
    SameConf s0 (State.endFlights s p status detail) := by
  unfold State.endFlights
  repeat' with_reducible first
    | assumption | intro _ | apply State.markEnded_conf | apply State.voidBlocks_conf | apply SameConf.ite | apply SameConf.foldl
    | (simp only [SameConf.mk_iff]; apply SameConf.parts) | split | dsimp only

theorem State.setFld_conf {s0 : State} {s : State} (k : Nat) (hi : Nat) (lo : Nat) (v : Nat) (hs : SameConf s0 s) :
    SameConf s0 (State.setFld s k hi lo v) := by
  unfold State.setFld
  repeat' with_reducible first
    | assumption | intro _ | apply State.setReg_conf | apply SameConf.ite | apply SameConf.foldl | (simp only [SameConf.mk_iff]; apply SameConf.parts) | split
    | dsimp only

theorem State.tally_conf {s0 : State} {s : State} (k : Nat) (n : Nat) (hs : SameConf s0 s) :
    SameConf s0 (State.tally s k n) := by
  unfold State.tally
  repeat' with_reducible first
    | assumption | intro _
    | (extract_lets +onlyGivenNames x; clear_value (hx : x = _); first | refine SameConf.bind (s := s0) hx ?_ (fun _ => ?_) | (refine SameConf.isFaults x ?_; subst hx) | skip)
    | apply SameConf.ite | apply SameConf.foldl | (simp only [SameConf.mk_iff]; apply SameConf.parts) | split | dsimp only

theorem State.containFatal_conf {s0 : State} {s : State} (seq : Nat) (hs : SameConf s0 s) :
    SameConf s0 (State.containFatal s seq) := by
  unfold State.containFatal
  repeat' with_reducible first
    | assumption | intro _
    | (extract_lets +onlyGivenNames x; clear_value (hx : x = _); first | refine SameConf.bind (s := s0) hx ?_ (fun _ => ?_) | (refine SameConf.isFaults x ?_; subst hx) | skip)
    | apply State.setFld_conf | apply State.endFlights_conf | apply SameConf.ite | apply SameConf.foldl | (simp only [SameConf.mk_iff]; apply SameConf.parts) | split
    | dsimp only

theorem State.containUct_conf {s0 : State} {s : State} (f : Nat) (seq : Nat) (hs : SameConf s0 s) :
    SameConf s0 (State.containUct s f seq) := by
  unfold State.containUct
  repeat' with_reducible first
    | assumption | intro _
    | (extract_lets +onlyGivenNames x; clear_value (hx : x = _); first | refine SameConf.bind (s := s0) hx ?_ (fun _ => ?_) | (refine SameConf.isFaults x ?_; subst hx) | skip)
    | apply State.endFlights_conf | apply SameConf.ite | apply SameConf.foldl | (simp only [SameConf.mk_iff]; apply SameConf.parts) | split | dsimp only

theorem State.setMsix_conf {s0 : State} {s : State} (f : Nat) (v : Nat) (m : MsixVec) (hs : SameConf s0 s) :
    SameConf s0 (State.setMsix s f v m) := by
  unfold State.setMsix
  repeat' with_reducible first
    | assumption | intro _ | apply SameConf.ite | apply SameConf.foldl | (simp only [SameConf.mk_iff]; apply SameConf.parts) | split | dsimp only

theorem State.send_conf {s0 : State} {s : State} (o : Out) (hs : SameConf s0 s) :
    SameConf s0 (State.send s o) := by
  unfold State.send
  repeat' with_reducible first
    | assumption | intro _ | apply SameConf.ite | apply SameConf.foldl | (simp only [SameConf.mk_iff]; apply SameConf.parts) | split | dsimp only

theorem State.sendVector_conf {s0 : State} {s : State} (f : Nat) (v : Nat) (hs : SameConf s0 s) :
    SameConf s0 (State.sendVector s f v) := by
  unfold State.sendVector
  repeat' with_reducible first
    | assumption | intro _
    | (extract_lets +onlyGivenNames x; clear_value (hx : x = _); first | refine SameConf.bind (s := s0) hx ?_ (fun _ => ?_) | (refine SameConf.isFaults x ?_; subst hx) | skip)
    | apply State.setMsix_conf | apply State.send_conf | apply SameConf.ite | apply SameConf.foldl | (simp only [SameConf.mk_iff]; apply SameConf.parts) | split
    | dsimp only

theorem State.raiseVector_conf {s0 : State} {s : State} (f : Nat) (v : Nat) (hs : SameConf s0 s) :
    SameConf s0 (State.raiseVector s f v) := by
  unfold State.raiseVector
  repeat' with_reducible first
    | assumption | intro _
    | (extract_lets +onlyGivenNames x; clear_value (hx : x = _); first | refine SameConf.bind (s := s0) hx ?_ (fun _ => ?_) | (refine SameConf.isFaults x ?_; subst hx) | skip)
    | apply State.setMsix_conf | apply State.sendVector_conf | apply SameConf.ite | apply SameConf.foldl | (simp only [SameConf.mk_iff]; apply SameConf.parts) | split
    | dsimp only

theorem State.event_conf {s0 : State} {s : State} (kind : Nat) (data : List (Nat × Nat)) (hs : SameConf s0 s) :
    SameConf s0 (State.event s kind data) := by
  unfold State.event
  repeat' with_reducible first
    | assumption | intro _ | apply State.setFld_conf | apply State.tally_conf | apply State.count_conf | apply SameConf.ite | apply SameConf.foldl
    | (simp only [SameConf.mk_iff]; apply SameConf.parts) | split | dsimp only

theorem State.writeRecord_conf {s0 : State} {s : State} (n : ErrNote) (cls : Nat) (prev : Nat) (esc : Bool) (hs : SameConf s0 s) :
    SameConf s0 (State.writeRecord s n cls prev esc) := by
  unfold State.writeRecord
  repeat' with_reducible first
    | assumption | intro _
    | (extract_lets +onlyGivenNames x; clear_value (hx : x = _); first | refine SameConf.bind (s := s0) hx ?_ (fun _ => ?_) | (refine SameConf.isFaults x ?_; subst hx) | skip)
    | apply State.setReg_conf | apply State.setFld_conf | apply State.tally_conf | apply State.containFatal_conf | apply State.containUct_conf
    | apply State.raiseVector_conf | apply State.event_conf | apply SameConf.ite | apply SameConf.foldl | (simp only [SameConf.mk_iff]; apply SameConf.parts) | split
    | dsimp only

theorem State.setCLine_conf {s0 : State} {s : State} (k : Nat) (l : Nat) (v : CLine) (hs : SameConf s0 s) :
    SameConf s0 (State.setCLine s k l v) := by
  unfold State.setCLine
  repeat' with_reducible first
    | assumption | intro _
    | (extract_lets +onlyGivenNames x; clear_value (hx : x = _); first | refine SameConf.bind (s := s0) hx ?_ (fun _ => ?_) | (refine SameConf.isFaults x ?_; subst hx) | skip)
    | apply SameConf.ite | apply SameConf.foldl | (simp only [SameConf.mk_iff]; apply SameConf.parts) | split | dsimp only

theorem State.setCore_conf {s0 : State} {s : State} (c : Nat) (v : Core) (hs : SameConf s0 s) :
    SameConf s0 (State.setCore s c v) := by
  unfold State.setCore
  repeat' with_reducible first
    | assumption | intro _ | apply SameConf.ite | apply SameConf.foldl | (simp only [SameConf.mk_iff]; apply SameConf.parts) | split | dsimp only

theorem State.modCore_conf {s0 : State} {s : State} (c : Nat) (f : Core → Core) (hs : SameConf s0 s) :
    SameConf s0 (State.modCore s c f) := by
  unfold State.modCore
  repeat' with_reducible first
    | assumption | intro _ | apply State.setCore_conf | apply SameConf.ite | apply SameConf.foldl | (simp only [SameConf.mk_iff]; apply SameConf.parts) | split
    | dsimp only

theorem State.invalPf_conf {s0 : State} {s : State} (k : Nat) (l : Nat) (hs : SameConf s0 s) :
    SameConf s0 (State.invalPf s k l) := by
  unfold State.invalPf
  repeat' with_reducible first
    | assumption | intro _
    | (extract_lets +onlyGivenNames x; clear_value (hx : x = _); first | refine SameConf.bind (s := s0) hx ?_ (fun _ => ?_) | (refine SameConf.isFaults x ?_; subst hx) | skip)
    | apply State.modCore_conf | apply State.count_conf | apply SameConf.ite | apply SameConf.foldl | (simp only [SameConf.mk_iff]; apply SameConf.parts) | split
    | dsimp only

theorem State.writebackLine_conf {s0 : State} {s : State} (l : Nat) (hs : SameConf s0 s) :
    SameConf s0 (State.writebackLine s l) := by
  unfold State.writebackLine
  repeat' with_reducible first
    | assumption | intro _ | apply State.count_conf | apply State.setSyndrome_conf | apply SameConf.ite | apply SameConf.foldl
    | (simp only [SameConf.mk_iff]; apply SameConf.parts) | split | dsimp only

theorem State.purgeCopy_conf {s0 : State} {s : State} (l : Nat) (k : Nat) (hs : SameConf s0 s) :
    SameConf s0 (State.purgeCopy s l k) := by
  unfold State.purgeCopy
  repeat' with_reducible first
    | assumption | intro _ | apply State.invalPf_conf | apply State.writebackLine_conf | apply State.setCLine_conf | apply SameConf.ite | apply SameConf.foldl
    | (simp only [SameConf.mk_iff]; apply SameConf.parts) | split | dsimp only

theorem State.purgeLine_conf {s0 : State} {s : State} (l : Nat) (hs : SameConf s0 s) :
    SameConf s0 (State.purgeLine s l) := by
  unfold State.purgeLine
  repeat' with_reducible first
    | assumption | intro _
    | (extract_lets +onlyGivenNames x; clear_value (hx : x = _); first | refine SameConf.bind (s := s0) hx ?_ (fun _ => ?_) | (refine SameConf.isFaults x ?_; subst hx) | skip)
    | apply State.purgeCopy_conf | apply SameConf.ite | apply SameConf.foldl | (simp only [SameConf.mk_iff]; apply SameConf.parts) | split | dsimp only

theorem State.purgeWhere_conf {s0 : State} {s : State} (p : Nat → Bool) (hs : SameConf s0 s) :
    SameConf s0 (State.purgeWhere s p) := by
  unfold State.purgeWhere
  repeat' with_reducible first
    | assumption | intro _ | apply State.purgeLine_conf | apply SameConf.ite | apply SameConf.foldl | (simp only [SameConf.mk_iff]; apply SameConf.parts) | split
    | dsimp only

theorem State.setDomain_conf {s0 : State} {s : State} (f : Nat) (v : StepDomain) (hs : SameConf s0 s) :
    SameConf s0 (State.setDomain s f v) := by
  unfold State.setDomain
  repeat' with_reducible first
    | assumption | intro _ | apply SameConf.ite | apply SameConf.foldl | (simp only [SameConf.mk_iff]; apply SameConf.parts) | split | dsimp only

theorem State.record_conf {s0 : State} {s : State} (n : ErrNote) (hs : SameConf s0 s) :
    SameConf s0 (State.record s n) := by
  unfold State.record
  repeat' with_reducible first
    | assumption | intro _
    | (extract_lets +onlyGivenNames x; clear_value (hx : x = _); first | refine SameConf.bind (s := s0) hx ?_ (fun _ => ?_) | (refine SameConf.isFaults x ?_; subst hx) | skip)
    | apply State.writeRecord_conf | apply State.setFld_conf | apply SameConf.ite | apply SameConf.foldl | (simp only [SameConf.mk_iff]; apply SameConf.parts) | split
    | dsimp only

theorem State.putByte_conf {s0 : State} {s : State} (a : Nat) (b : Byte) (hs : SameConf s0 s) :
    SameConf s0 (State.putByte s a b) := by
  unfold State.putByte
  repeat' with_reducible first
    | assumption | intro _ | apply SameConf.ite | apply SameConf.foldl | (simp only [SameConf.mk_iff]; apply SameConf.parts) | split | dsimp only

theorem State.setQueue_conf {s0 : State} {s : State} (q : Nat) (v : Queue) (hs : SameConf s0 s) :
    SameConf s0 (State.setQueue s q v) := by
  unfold State.setQueue
  repeat' with_reducible first
    | assumption | intro _ | apply SameConf.ite | apply SameConf.foldl | (simp only [SameConf.mk_iff]; apply SameConf.parts) | split | dsimp only

theorem State.putBytes_conf {s0 : State} {s : State} (a : Nat) (bs : List Byte) (hs : SameConf s0 s) :
    SameConf s0 (State.putBytes s a bs) := by
  unfold State.putBytes
  repeat' with_reducible first
    | assumption | intro _ | apply SameConf.ite | apply SameConf.foldl | (simp only [SameConf.mk_iff]; apply SameConf.parts) | split | dsimp only

theorem State.sealWrite_conf {s0 : State} {s : State} (a : Nat) (bs : List Byte) (hs : SameConf s0 s) :
    SameConf s0 (State.sealWrite s a bs) := by
  unfold State.sealWrite
  repeat' with_reducible first
    | assumption | intro _ | apply State.count_conf | apply State.putBytes_conf | apply State.setSyndrome_conf | apply SameConf.ite | apply SameConf.foldl
    | (simp only [SameConf.mk_iff]; apply SameConf.parts) | split | dsimp only

theorem State.modFlight_conf {s0 : State} {s : State} (q : Nat) (i : Nat) (g : Flight → Flight) (hs : SameConf s0 s) :
    SameConf s0 (State.modFlight s q i g) := by
  unfold State.modFlight
  repeat' with_reducible first
    | assumption | intro _ | apply SameConf.ite | apply SameConf.foldl | (simp only [SameConf.mk_iff]; apply SameConf.parts) | split | dsimp only

theorem State.purgeRange_conf {s0 : State} {s : State} (a : Nat) (n : Nat) (hs : SameConf s0 s) :
    SameConf s0 (State.purgeRange s a n) := by
  unfold State.purgeRange
  repeat' with_reducible first
    | assumption | intro _ | apply State.purgeLine_conf | apply SameConf.ite | apply SameConf.foldl | (simp only [SameConf.mk_iff]; apply SameConf.parts) | split
    | dsimp only

theorem State.modQueue_conf {s0 : State} {s : State} (q : Nat) (f : Queue → Queue) (hs : SameConf s0 s) :
    SameConf s0 (State.modQueue s q f) := by
  unfold State.modQueue
  repeat' with_reducible first
    | assumption | intro _ | apply State.setQueue_conf | apply SameConf.ite | apply SameConf.foldl | (simp only [SameConf.mk_iff]; apply SameConf.parts) | split
    | dsimp only

theorem State.draw_conf {s0 : State} {s : State} (hs : SameConf s0 s) :
    SameConf s0 (State.draw s).2 := by
  unfold State.draw
  repeat' with_reducible first
    | assumption | intro _ | apply SameConf.ite | apply SameConf.foldl | (simp only [SameConf.mk_iff]; apply SameConf.parts) | apply SameConf.iteFst | apply SameConf.iteSnd
    | refine SameConf.sndEq (by assumption) ?_ | split | dsimp only

theorem State.countCycles_conf {s0 : State} {s : State} (k : Nat) (hs : SameConf s0 s) :
    SameConf s0 (State.countCycles s k) := by
  unfold State.countCycles
  repeat' with_reducible first
    | assumption | intro _ | apply State.draw_conf | apply State.count_conf | apply SameConf.ite | apply SameConf.foldl
    | (simp only [SameConf.mk_iff]; apply SameConf.parts) | apply SameConf.iteFst | apply SameConf.iteSnd | refine SameConf.sndEq (by assumption) ?_ | split | dsimp only

theorem State.plainWrite_conf {s0 : State} {s : State} (a : Nat) (bs : List Byte) (hs : SameConf s0 s) :
    SameConf s0 (State.plainWrite s a bs) := by
  unfold State.plainWrite
  repeat' with_reducible first
    | assumption | intro _ | apply State.count_conf | apply State.putBytes_conf | apply State.setSyndrome_conf | apply SameConf.ite | apply SameConf.foldl
    | (simp only [SameConf.mk_iff]; apply SameConf.parts) | split | dsimp only

theorem onUnit_conf {s0 : State} (present : Bool) {t : State} (ht : SameConf s0 t) :
    SameConfR s0 (onUnit present t) := by
  unfold onUnit
  repeat' with_reducible first
    | assumption | intro _ | apply SameConfR.next | exact SameConfR.fault | exact SameConfR.refused | apply SameConfR.onUnit | apply SameConfR.ite | apply SameConf.ite
    | apply SameConf.foldl | (simp only [SameConf.mk_iff]; apply SameConf.parts) | split | dsimp only

theorem State.endFlight_conf {s0 : State} {s : State} (q : Nat) (i : Nat) (status : Nat) (detail : Nat) (hs : SameConf s0 s) :
    SameConf s0 (State.endFlight s q i status detail) := by
  unfold State.endFlight
  repeat' with_reducible first
    | assumption | intro _ | apply State.modFlight_conf | apply SameConf.ite | apply SameConf.foldl | (simp only [SameConf.mk_iff]; apply SameConf.parts) | split
    | dsimp only

theorem State.modDomain_conf {s0 : State} {s : State} (f : Nat) (g : StepDomain → StepDomain) (hs : SameConf s0 s) :
    SameConf s0 (State.modDomain s f g) := by
  unfold State.modDomain
  repeat' with_reducible first
    | assumption | intro _ | apply State.setDomain_conf | apply SameConf.ite | apply SameConf.foldl | (simp only [SameConf.mk_iff]; apply SameConf.parts) | split
    | dsimp only

theorem State.closeRecords_conf {s0 : State} {s : State} (p : ErrRecord → Bool) (hs : SameConf s0 s) :
    SameConf s0 (State.closeRecords s p) := by
  unfold State.closeRecords
  repeat' with_reducible first
    | assumption | intro _
    | (extract_lets +onlyGivenNames x; clear_value (hx : x = _); first | refine SameConf.bind (s := s0) hx ?_ (fun _ => ?_) | (refine SameConf.isFaults x ?_; subst hx) | skip)
    | apply State.setFld_conf | apply SameConf.ite | apply SameConf.foldl | (simp only [SameConf.mk_iff]; apply SameConf.parts) | split | dsimp only

theorem State.addSem_conf {s0 : State} {s : State} (n : Nat) (v : Nat) (hs : SameConf s0 s) :
    SameConf s0 (State.addSem s n v) := by
  unfold State.addSem
  repeat' with_reducible first
    | assumption | intro _ | apply State.setSem_conf | apply SameConf.ite | apply SameConf.foldl | (simp only [SameConf.mk_iff]; apply SameConf.parts) | split
    | dsimp only

end Sys2Proof.Machine
end

