-- ==== Sys2Proof/Laws/SameConfTraffic.lean ====
section
/-!
SUPPORT. What the operations of Machine/Traffic.lean leave alone (Laws/SameConf.lean).
-/

set_option linter.all false

namespace Sys2Proof.Machine

theorem State.partAccess_conf {s0 : State} {s : State} (pk : Nat) (count : Nat) (line : Nat) (wr : Bool) (whole : Bool) (hs : SameConf s0 s) :
    SameConf s0 (State.partAccess s pk count line wr whole) := by
  unfold State.partAccess
  repeat' with_reducible first
    | assumption | intro _
    | (extract_lets +onlyGivenNames x; clear_value (hx : x = _); first | refine SameConf.bind (s := s0) hx ?_ (fun _ => ?_) | (refine SameConf.isFaults x ?_; subst hx) | (refine SameConf.isFun x ?_; subst hx) | skip)
    | apply State.count_conf | apply SameConf.ite | apply SameConf.foldl | (simp only [SameConf.mk_iff]; apply SameConf.parts) | split | dsimp only

theorem State.unitAccess_conf {s0 : State} {s : State} (a : Nat) (n : Nat) (wr : Bool) (hs : SameConf s0 s) :
    SameConf s0 (State.unitAccess s a n wr) := by
  unfold State.unitAccess
  repeat' with_reducible first
    | assumption | intro _
    | (extract_lets +onlyGivenNames x; clear_value (hx : x = _); first | refine SameConf.bind (s := s0) hx ?_ (fun _ => ?_) | (refine SameConf.isFaults x ?_; subst hx) | skip)
    | apply State.partAccess_conf | apply State.count_conf | apply SameConf.ite | apply SameConf.foldl | (simp only [SameConf.mk_iff]; apply SameConf.parts) | split
    | dsimp only

theorem State.markCopied_conf {s0 : State} {s : State} (a : Nat) (n : Nat) (hs : SameConf s0 s) :
    SameConf s0 (State.markCopied s a n) := by
  unfold State.markCopied
  repeat' with_reducible first
    | assumption | intro _
    | (extract_lets +onlyGivenNames x; clear_value (hx : x = _); first | refine SameConf.bind (s := s0) hx ?_ (fun _ => ?_) | (refine SameConf.isFaults x ?_; subst hx) | skip)
    | apply SameConf.ite | apply SameConf.foldl | (simp only [SameConf.mk_iff]; apply SameConf.parts) | split | dsimp only

theorem State.traffic_conf {s0 : State} {s : State} (a : Nat) (n : Nat) (wr : Bool) (hs : SameConf s0 s) :
    SameConf s0 (State.traffic s a n wr) := by
  unfold State.traffic
  repeat' with_reducible first
    | assumption | intro _
    | (extract_lets +onlyGivenNames x; clear_value (hx : x = _); first | refine SameConf.bind (s := s0) hx ?_ (fun _ => ?_) | (refine SameConf.isFaults x ?_; subst hx) | skip)
    | apply State.unitAccess_conf | apply State.markCopied_conf | apply SameConf.ite | apply SameConf.foldl | (simp only [SameConf.mk_iff]; apply SameConf.parts)
    | split | dsimp only

end Sys2Proof.Machine
end

