-- ==== Sys2Proof/Laws/SameConfEngine.lean ====
section
/-!
SUPPORT. What the operations of Machine/Engine.lean leave alone (Laws/SameConf.lean).
-/

set_option linter.all false

namespace Sys2Proof.Machine

theorem State.setCause_conf {s0 : State} {s : State} (f : Nat) (bit : Nat) (hs : SameConf s0 s) :
    SameConf s0 (State.setCause s f bit) := by
  unfold State.setCause
  repeat' with_reducible first
    | assumption | intro _ | apply State.setFld_conf | apply SameConf.ite | apply SameConf.foldl | (simp only [SameConf.mk_iff]; apply SameConf.parts) | split
    | dsimp only

theorem State.writePlace_conf {s0 : State} {s : State} (f : Nat) (a : Nat) (hs : SameConf s0 s) :
    SameConf s0 (State.writePlace s f a).1 := by
  unfold State.writePlace
  repeat' with_reducible first
    | assumption | intro _
    | (extract_lets +onlyGivenNames x; clear_value (hx : x = _); first | refine SameConf.bind (s := s0) hx ?_ (fun _ => ?_) | refine SameConf.bindFst (s := s0) hx ?_ (fun _ => ?_) | (refine SameConf.isFaults x ?_; subst hx) | skip)
    | apply State.purgeRange_conf | apply State.setCause_conf | apply State.modDomain_conf | apply SameConf.ite | apply SameConf.foldl
    | (simp only [SameConf.mk_iff]; apply SameConf.parts) | apply SameConf.iteFst | apply SameConf.iteSnd | refine SameConf.fstEq (by assumption) ?_ | split | dsimp only

theorem State.engWriteChunk_conf {s0 : State} {s : State} (f : Nat) (a : Nat) (bs : List Byte) (hs : SameConf s0 s) :
    SameConf s0 (State.engWriteChunk s f a bs).1 := by
  unfold State.engWriteChunk
  repeat' with_reducible first
    | assumption | intro _ | apply State.purgeRange_conf | apply State.traffic_conf | apply State.writePlace_conf | apply State.putBytes_conf
    | apply SameConf.ite | apply SameConf.foldl | (simp only [SameConf.mk_iff]; apply SameConf.parts) | apply SameConf.iteFst | apply SameConf.iteSnd
    | refine SameConf.fstEq (by assumption) ?_ | split | dsimp only

theorem JobSt.write_conf {s0 : State} {j : JobSt} (f : Nat) (a : Nat) (bs : List Byte) (hj : SameConf s0 j.st) :
    SameConf s0 (JobSt.write j f a bs).st := by
  unfold JobSt.write
  repeat' with_reducible first
    | assumption | intro _ | apply State.engWriteChunk_conf | apply SameConf.ite | apply SameConf.foldl | (simp only [SameConf.mk_iff]; apply SameConf.parts)
    | apply SameConf.iteFst | apply SameConf.iteSnd | apply SameConf.iteJob | apply SameConf.foldlJob | refine SameConf.fstEq (by assumption) ?_ | split | dsimp only

theorem State.uncorrectable_conf {s0 : State} {s : State} (f : Nat) (q : Nat) (i : Nat) (a : Nat) (hs : SameConf s0 s) :
    SameConf s0 (State.uncorrectable s f q i a).1 := by
  unfold State.uncorrectable
  repeat' with_reducible first
    | assumption | intro _
    | (extract_lets +onlyGivenNames x; clear_value (hx : x = _); first | refine SameConf.bind (s := s0) hx ?_ (fun _ => ?_) | refine SameConf.bindFst (s := s0) hx ?_ (fun _ => ?_) | (refine SameConf.isFaults x ?_; subst hx) | skip)
    | apply State.record_conf | apply State.voidBlock_conf | apply State.count_conf | apply SameConf.ite | apply SameConf.foldl
    | (simp only [SameConf.mk_iff]; apply SameConf.parts) | apply SameConf.iteFst | apply SameConf.iteSnd | refine SameConf.fstEq (by assumption) ?_ | split | dsimp only

theorem JobSt.checkBlock_conf {s0 : State} {j : JobSt} (f : Nat) (q : Nat) (i : Nat) (verify : Bool) (a : Nat) (hj : SameConf s0 j.st) :
    SameConf s0 (JobSt.checkBlock j f q i verify a).st := by
  unfold JobSt.checkBlock
  repeat' with_reducible first
    | assumption | intro _
    | (extract_lets +onlyGivenNames x; clear_value (hx : x = _); first | refine SameConf.bind (s := s0) hx ?_ (fun _ => ?_) | refine SameConf.bindFst (s := s0) hx ?_ (fun _ => ?_) | refine SameConf.bindJob (s := s0) hx ?_ (fun _ => ?_) | refine SameConf.bindRes (s := s0) hx ?_ (fun _ => ?_) | (refine SameConf.isFaults x ?_; subst hx) | skip)
    | apply State.record_conf | apply State.uncorrectable_conf | apply State.count_conf | apply SameConf.ite | apply SameConf.foldl
    | (simp only [SameConf.mk_iff]; apply SameConf.parts) | apply SameConf.iteFst | apply SameConf.iteSnd | apply SameConf.iteJob | apply SameConf.foldlJob
    | refine SameConf.fstEq (by assumption) ?_ | split | dsimp only

theorem JobSt.checkRange_conf {s0 : State} {j : JobSt} (f : Nat) (q : Nat) (i : Nat) (verify : Bool) (a : Nat) (n : Nat) (hj : SameConf s0 j.st) :
    SameConf s0 (JobSt.checkRange j f q i verify a n).st := by
  unfold JobSt.checkRange
  repeat' with_reducible first
    | assumption | intro _
    | (extract_lets +onlyGivenNames x; clear_value (hx : x = _); first | refine SameConf.bind (s := s0) hx ?_ (fun _ => ?_) | refine SameConf.bindJob (s := s0) hx ?_ (fun _ => ?_) | refine SameConf.bindRes (s := s0) hx ?_ (fun _ => ?_) | (refine SameConf.isFaults x ?_; subst hx) | skip)
    | apply State.traffic_conf | apply JobSt.checkBlock_conf | apply SameConf.ite | apply SameConf.foldl | (simp only [SameConf.mk_iff]; apply SameConf.parts)
    | apply SameConf.iteJob | apply SameConf.foldlJob | split | dsimp only

theorem JobSt.run_conf {s0 : State} {j : JobSt} (f : Nat) (q : Nat) (i : Nat) (verify : Bool) (x6 : Option Nat) (x7 : List Seg) (hj : SameConf s0 j.st) :
    SameConf s0 (JobSt.run j f q i verify x6 x7).1.st := by
  induction x7 generalizing j f q i verify x6 with
  | nil =>
    unfold JobSt.run
    repeat' with_reducible first
      | assumption | intro _ | apply JobSt.write_conf | apply JobSt.checkRange_conf | apply SameConf.ite | apply SameConf.foldl
      | (simp only [SameConf.mk_iff]; apply SameConf.parts) | apply SameConf.iteJob | apply SameConf.foldlJob | refine SameConf.jobEq (by assumption) ?_ | split
      | dsimp only
  | cons y ys ih =>
    unfold JobSt.run
    repeat' with_reducible first
      | assumption | intro _ | apply JobSt.write_conf | apply JobSt.checkRange_conf | apply ih | apply SameConf.ite | apply SameConf.foldl
      | (simp only [SameConf.mk_iff]; apply SameConf.parts) | apply SameConf.iteJob | apply SameConf.foldlJob | refine SameConf.jobEq (by assumption) ?_ | split
      | dsimp only

theorem State.sealBlocks_conf {s0 : State} {s : State} (rs : List (Nat × Nat)) (hs : SameConf s0 s) :
    SameConf s0 (State.sealBlocks s rs) := by
  unfold State.sealBlocks
  repeat' with_reducible first
    | assumption | intro _ | apply State.count_conf | apply State.setSyndrome_conf | apply SameConf.ite | apply SameConf.foldl
    | (simp only [SameConf.mk_iff]; apply SameConf.parts) | split | dsimp only

theorem State.runJob_conf {s0 : State} {s : State} (f : Nat) (q : Nat) (i : Nat) (verify : Bool) (stop : Option Nat) (segs : List Seg) (hs : SameConf s0 s) :
    SameConf s0 (State.runJob s f q i verify stop segs).st := by
  unfold State.runJob
  repeat' with_reducible first
    | assumption | intro _
    | (extract_lets +onlyGivenNames x; clear_value (hx : x = _); first | refine SameConf.bind (s := s0) hx ?_ (fun _ => ?_) | refine SameConf.bindJob (s := s0) hx ?_ (fun _ => ?_) | refine SameConf.bindRes (s := s0) hx ?_ (fun _ => ?_) | (refine SameConf.isFaults x ?_; subst hx) | skip)
    | apply State.voidBlocks_conf | apply JobSt.run_conf | apply State.sealBlocks_conf | apply SameConf.ite | apply SameConf.foldl
    | (simp only [SameConf.mk_iff]; apply SameConf.parts) | apply SameConf.iteJob | apply SameConf.foldlJob | refine SameConf.jobEq (by assumption) ?_ | split
    | dsimp only

theorem State.engine_conf {s0 : State} {s : State} (q : Nat) (i : Nat) (opcode : Nat) (k : Flight → State) (hs : SameConf s0 s) (hk : ∀ y0, SameConf s0 (k y0)) :
    SameConfR s0 (State.engine s q i opcode k) := by
  unfold State.engine
  repeat' with_reducible first
    | assumption | intro _ | apply State.endFlight_conf | apply hk | apply SameConfR.next | exact SameConfR.fault | exact SameConfR.refused | apply SameConfR.onUnit
    | apply SameConfR.ite | apply SameConf.ite | apply SameConf.foldl | (simp only [SameConf.mk_iff]; apply SameConf.parts) | split | dsimp only

theorem JobResult.finish_conf {s0 : State} {r : JobResult} (q : Nat) (i : Nat) (fl : Flags) (hr : SameConf s0 r.st) :
    SameConf s0 (JobResult.finish r q i fl) := by
  unfold JobResult.finish
  repeat' with_reducible first
    | assumption | intro _ | apply State.modFlight_conf | apply SameConf.ite | apply SameConf.foldl | (simp only [SameConf.mk_iff]; apply SameConf.parts) | split
    | dsimp only

end Sys2Proof.Machine
end

