-- ==== Sys2Proof/Laws/SameConfTraceLog.lean ====
section
/-!
SUPPORT. What the operations of Machine/TraceLog.lean leave alone (Laws/SameConf.lean).
-/

set_option linter.all false

namespace Sys2Proof.Machine

theorem State.traceWr_conf {s0 : State} {s : State} (k : Nat) (hs : SameConf s0 s) :
    SameConf s0 (State.traceWr s k) := by
  unfold State.traceWr
  repeat' with_reducible first
    | assumption | intro _
    | (extract_lets +onlyGivenNames x; clear_value (hx : x = _); first | refine SameConf.bind (s := s0) hx ?_ (fun _ => ?_) | (refine SameConf.isFaults x ?_; subst hx) | skip)
    | apply State.setReg_conf | apply SameConf.ite | apply SameConf.foldl | (simp only [SameConf.mk_iff]; apply SameConf.parts) | split | dsimp only

theorem State.setTraceBuf_conf {s0 : State} {s : State} (k : Nat) (b : TraceBuf) (hs : SameConf s0 s) :
    SameConf s0 (State.setTraceBuf s k b) := by
  unfold State.setTraceBuf
  repeat' with_reducible first
    | assumption | intro _ | apply SameConf.ite | apply SameConf.foldl | (simp only [SameConf.mk_iff]; apply SameConf.parts) | split | dsimp only

theorem State.trace_conf {s0 : State} {s : State} (k : Nat) (kind : Nat) (core : Nat) (queue : Nat) (opcode : Nat) (info : Nat) (hs : SameConf s0 s) :
    SameConf s0 (State.trace s k kind core queue opcode info) := by
  unfold State.trace
  repeat' with_reducible first
    | assumption | intro _
    | (extract_lets +onlyGivenNames x; clear_value (hx : x = _); first | refine SameConf.bind (s := s0) hx ?_ (fun _ => ?_) | refine SameConf.bindSnd (s := s0) hx ?_ (fun _ => ?_) | (refine SameConf.isFaults x ?_; subst hx) | skip)
    | apply State.draw_conf | apply State.traceWr_conf | apply State.setTraceBuf_conf | apply SameConf.ite | apply SameConf.foldl
    | (simp only [SameConf.mk_iff]; apply SameConf.parts) | apply SameConf.iteFst | apply SameConf.iteSnd | refine SameConf.sndEq (by assumption) ?_ | split | dsimp only

theorem State.traceCore_conf {s0 : State} {s : State} (c : Nat) (kind : Nat) (queue : Nat) (opcode : Nat) (info : Nat) (hs : SameConf s0 s) :
    SameConf s0 (State.traceCore s c kind queue opcode info) := by
  unfold State.traceCore
  repeat' with_reducible first
    | assumption | intro _ | apply State.trace_conf | apply SameConf.ite | apply SameConf.foldl | (simp only [SameConf.mk_iff]; apply SameConf.parts) | split
    | dsimp only

theorem State.traceFlush_conf {s0 : State} {s : State} (k : Nat) (hs : SameConf s0 s) :
    SameConf s0 (State.traceFlush s k) := by
  unfold State.traceFlush
  repeat' with_reducible first
    | assumption | intro _
    | (extract_lets +onlyGivenNames x; clear_value (hx : x = _); first | refine SameConf.bind (s := s0) hx ?_ (fun _ => ?_) | (refine SameConf.isFaults x ?_; subst hx) | skip)
    | apply State.sealWrite_conf | apply State.setFld_conf | apply State.traceWr_conf | apply State.trace_conf | apply State.setTraceBuf_conf
    | apply SameConf.ite | apply SameConf.foldl | (simp only [SameConf.mk_iff]; apply SameConf.parts) | split | dsimp only

end Sys2Proof.Machine
end

