-- ==== Sys2Proof/Laws/SameConfRails.lean ====
section
/-!
SUPPORT. What the operations of Machine/Rails.lean leave alone (Laws/SameConf.lean).
-/

set_option linter.all false

namespace Sys2Proof.Machine

theorem State.sendFrame_conf {s0 : State} {s : State} (rail : Nat) (mv : Nat) (repeats : Nat) (hs : SameConf s0 s) :
    SameConf s0 (State.sendFrame s rail mv repeats) := by
  unfold State.sendFrame
  repeat' with_reducible first
    | assumption | intro _
    | (extract_lets +onlyGivenNames x; clear_value (hx : x = _); first | refine SameConf.bind (s := s0) hx ?_ (fun _ => ?_) | (refine SameConf.isFaults x ?_; subst hx) | skip)
    | apply State.send_conf | apply SameConf.ite | apply SameConf.foldl | (simp only [SameConf.mk_iff]; apply SameConf.parts) | split | dsimp only

theorem State.voltStep_conf {s0 : State} {s : State} (k : Nat) (mv : Nat) (hs : SameConf s0 s) :
    SameConf s0 (State.voltStep s k mv) := by
  unfold State.voltStep
  repeat' with_reducible first
    | assumption | intro _
    | (extract_lets +onlyGivenNames x; clear_value (hx : x = _); first | refine SameConf.bind (s := s0) hx ?_ (fun _ => ?_) | (refine SameConf.isFaults x ?_; subst hx) | skip)
    | apply State.sendFrame_conf | apply State.setFld_conf | apply State.count_conf | apply SameConf.ite | apply SameConf.foldl
    | (simp only [SameConf.mk_iff]; apply SameConf.parts) | split | dsimp only

end Sys2Proof.Machine
end

