-- ==== Sys2Proof/Laws/SameConfEscapement.lean ====
section
/-!
SUPPORT. What the operations of Machine/Escapement.lean leave alone (Laws/SameConf.lean).
-/

set_option linter.all false

namespace Sys2Proof.Machine

theorem State.release_conf {s0 : State} {s : State} (o : Owner) (hs : SameConf s0 s) :
    SameConf s0 (State.release s o) := by
  unfold State.release
  repeat' with_reducible first
    | assumption | intro _
    | (extract_lets +onlyGivenNames x; clear_value (hx : x = _); first | refine SameConf.bind (s := s0) hx ?_ (fun _ => ?_) | (refine SameConf.isFaults x ?_; subst hx) | skip)
    | apply SameConf.ite | apply SameConf.foldl | (simp only [SameConf.mk_iff]; apply SameConf.parts) | split | dsimp only

theorem State.setFstep_conf {s0 : State} {s : State} (k : Nat) (f : Nat) (hs : SameConf s0 s) :
    SameConf s0 (State.setFstep s k f) := by
  unfold State.setFstep
  repeat' with_reducible first
    | assumption | intro _ | apply State.setFld_conf | apply State.count_conf | apply SameConf.ite | apply SameConf.foldl
    | (simp only [SameConf.mk_iff]; apply SameConf.parts) | split | dsimp only

theorem State.rescale_conf {s0 : State} {s : State} (k : Nat) (hs : SameConf s0 s) :
    SameConf s0 (State.rescale s k) := by
  unfold State.rescale
  repeat' with_reducible first
    | assumption | intro _
    | (extract_lets +onlyGivenNames x; clear_value (hx : x = _); first | refine SameConf.bind (s := s0) hx ?_ (fun _ => ?_) | (refine SameConf.isFaults x ?_; subst hx) | skip)
    | apply SameConf.ite | apply SameConf.foldl | (simp only [SameConf.mk_iff]; apply SameConf.parts) | split | dsimp only

theorem State.stepEnd_conf {s0 : State} {s : State} (k : Nat) (hs : SameConf s0 s) :
    SameConf s0 (State.stepEnd s k) := by
  unfold State.stepEnd
  repeat' with_reducible first
    | assumption | intro _
    | (extract_lets +onlyGivenNames x; clear_value (hx : x = _); first | refine SameConf.bind (s := s0) hx ?_ (fun _ => ?_) | (refine SameConf.isFaults x ?_; subst hx) | skip)
    | apply State.rescale_conf | apply State.release_conf | apply SameConf.ite | apply SameConf.foldl | (simp only [SameConf.mk_iff]; apply SameConf.parts) | split
    | dsimp only

theorem State.stepAdvance_conf {s0 : State} {s : State} (k : Nat) (hs : SameConf s0 s) :
    SameConf s0 (State.stepAdvance s k) := by
  unfold State.stepAdvance
  repeat' with_reducible first
    | assumption | intro _
    | (extract_lets +onlyGivenNames x; clear_value (hx : x = _); first | refine SameConf.bind (s := s0) hx ?_ (fun _ => ?_) | (refine SameConf.isFaults x ?_; subst hx) | skip)
    | apply State.setFstep_conf | apply State.voltStep_conf | apply State.stepEnd_conf | apply SameConf.ite | apply SameConf.foldl
    | (simp only [SameConf.mk_iff]; apply SameConf.parts) | split | dsimp only

theorem State.powerOwner_conf {s0 : State} {s : State} (o : Owner) (hs : SameConf s0 s) :
    SameConf s0 (State.powerOwner s o) := by
  unfold State.powerOwner
  repeat' with_reducible first
    | assumption | intro _
    | (extract_lets +onlyGivenNames x; clear_value (hx : x = _); first | refine SameConf.bind (s := s0) hx ?_ (fun _ => ?_) | (refine SameConf.isFaults x ?_; subst hx) | skip)
    | apply State.modCore_conf | apply State.modFlight_conf | apply State.stepAdvance_conf | apply SameConf.ite | apply SameConf.foldl
    | (simp only [SameConf.mk_iff]; apply SameConf.parts) | split | dsimp only

theorem State.enter_conf {s0 : State} {s : State} (q : EscReq) (w : Nat) (hs : SameConf s0 s) :
    SameConf s0 (State.enter s q w) := by
  unfold State.enter
  repeat' with_reducible first
    | assumption | intro _
    | (extract_lets +onlyGivenNames x; clear_value (hx : x = _); first | refine SameConf.bind (s := s0) hx ?_ (fun _ => ?_) | (refine SameConf.isFaults x ?_; subst hx) | skip)
    | apply State.powerOwner_conf | apply State.count_conf | apply SameConf.ite | apply SameConf.foldl | (simp only [SameConf.mk_iff]; apply SameConf.parts) | split
    | dsimp only

theorem State.ask_conf {s0 : State} {s : State} (q : EscReq) (hs : SameConf s0 s) :
    SameConf s0 (State.ask s q) := by
  unfold State.ask
  repeat' with_reducible first
    | assumption | intro _
    | (extract_lets +onlyGivenNames x; clear_value (hx : x = _); first | refine SameConf.bind (s := s0) hx ?_ (fun _ => ?_) | (refine SameConf.isFaults x ?_; subst hx) | skip)
    | apply State.enter_conf | apply SameConf.ite | apply SameConf.foldl | (simp only [SameConf.mk_iff]; apply SameConf.parts) | split | dsimp only

theorem State.prebook_conf {s0 : State} {s : State} (q : Nat) (core : Nat) (index : Nat) (cmd : List Byte) (hs : SameConf s0 s) :
    SameConf s0 (State.prebook s q core index cmd) := by
  unfold State.prebook
  repeat' with_reducible first
    | assumption | intro _ | apply State.ask_conf | apply SameConf.ite | apply SameConf.foldl | (simp only [SameConf.mk_iff]; apply SameConf.parts) | split
    | dsimp only

theorem State.escGrant_conf {s0 : State} {s : State} (r : Nat) (hs : SameConf s0 s) :
    SameConf s0 (State.escGrant s r) := by
  unfold State.escGrant
  repeat' with_reducible first
    | assumption | intro _
    | (extract_lets +onlyGivenNames x; clear_value (hx : x = _); first | refine SameConf.bind (s := s0) hx ?_ (fun _ => ?_) | (refine SameConf.isFaults x ?_; subst hx) | skip)
    | apply State.enter_conf | apply SameConf.ite | apply SameConf.foldl | (simp only [SameConf.mk_iff]; apply SameConf.parts) | split | dsimp only

theorem execEscGrant_conf {s0 : State} (r : Nat) {s : State} (hs : SameConf s0 s) :
    SameConfR s0 (execEscGrant r s) := by
  unfold execEscGrant
  repeat' with_reducible first
    | assumption | intro _ | apply onUnit_conf | apply State.escGrant_conf | apply SameConfR.next | exact SameConfR.fault | exact SameConfR.refused
    | apply SameConfR.onUnit | apply SameConfR.ite | apply SameConf.ite | apply SameConf.foldl | (simp only [SameConf.mk_iff]; apply SameConf.parts) | split | dsimp only

theorem State.hangs_conf {s0 : State} {s : State} (fl : Flight) (hs : SameConf s0 s) :
    SameConfO (fun x => x) s0 (State.hangs s fl) := by
  unfold State.hangs
  repeat' with_reducible first
    | assumption | intro _
    | (extract_lets +onlyGivenNames x; clear_value (hx : x = _); first | refine SameConf.bind (s := s0) hx ?_ (fun _ => ?_) | (refine SameConf.isFaults x ?_; subst hx) | skip)
    | exact SameConfO.none | apply SameConfO.some | apply SameConfO.ite | apply SameConf.ite | apply SameConf.foldl | (simp only [SameConf.mk_iff]; apply SameConf.parts)
    | refine SameConf.optEq (by assumption) ?_ | apply SameConf.getD | split | dsimp only

theorem State.rename_conf {s0 : State} {s : State} (o : Owner) (o' : Owner) (hs : SameConf s0 s) :
    SameConf s0 (State.rename s o o') := by
  unfold State.rename
  repeat' with_reducible first
    | assumption | intro _
    | (extract_lets +onlyGivenNames x; clear_value (hx : x = _); first | refine SameConf.bind (s := s0) hx ?_ (fun _ => ?_) | (refine SameConf.isFaults x ?_; subst hx) | skip)
    | apply SameConf.ite | apply SameConf.foldl | (simp only [SameConf.mk_iff]; apply SameConf.parts) | split | dsimp only

theorem State.bookCommand_conf {s0 : State} {s : State} (q : Nat) (i : Nat) (core : Nat) (cmd : List Byte) (hs : SameConf s0 s) :
    SameConf s0 (State.bookCommand s q i core cmd) := by
  unfold State.bookCommand
  repeat' with_reducible first
    | assumption | intro _
    | (extract_lets +onlyGivenNames x; clear_value (hx : x = _); first | refine SameConf.bind (s := s0) hx ?_ (fun _ => ?_) | (refine SameConf.isFaults x ?_; subst hx) | skip)
    | apply State.powerOwner_conf | apply State.rename_conf | apply State.ask_conf | apply State.modFlight_conf | apply State.count_conf | apply SameConf.ite
    | apply SameConf.foldl | (simp only [SameConf.mk_iff]; apply SameConf.parts) | split | dsimp only

theorem State.dispatch_conf {s0 : State} {s : State} (q : Nat) (i : Nat) (op : Nat) (bad : Flight → Option Nat) (k : State → Flight → State) (hs : SameConf s0 s) (hk : ∀ y0 y1, SameConf s0 y0 → SameConf s0 (k y0 y1)) :
    SameConfR s0 (State.dispatch s q i op bad k) := by
  unfold State.dispatch
  repeat' with_reducible first
    | assumption | intro _
    | (extract_lets +onlyGivenNames x; clear_value (hx : x = _); first | refine SameConf.bind (s := s0) hx ?_ (fun _ => ?_) | (refine SameConf.isFaults x ?_; subst hx) | skip)
    | apply State.hangs_conf | apply State.bookCommand_conf | apply State.endFlight_conf | apply State.engine_conf | apply State.release_conf | apply hk
    | apply SameConfR.next | exact SameConfR.fault | exact SameConfR.refused | apply SameConfR.onUnit | apply SameConfR.ite | apply SameConf.ite | apply SameConf.foldl
    | (simp only [SameConf.mk_iff]; apply SameConf.parts) | refine SameConf.optEq (by assumption) ?_ | apply SameConf.getD | split | dsimp only

theorem State.askSys_conf {s0 : State} {s : State} (r : Nat) (ca : Nat) (windows : Option Nat) (perm : Bool) (o : Owner) (hs : SameConf s0 s) :
    SameConf s0 (State.askSys s r ca windows perm o) := by
  unfold State.askSys
  repeat' with_reducible first
    | assumption | intro _ | apply State.ask_conf | apply SameConf.ite | apply SameConf.foldl | (simp only [SameConf.mk_iff]; apply SameConf.parts) | split
    | dsimp only

theorem State.escWindow_conf {s0 : State} {s : State} (hs : SameConf s0 s) :
    SameConf s0 (State.escWindow s) := by
  unfold State.escWindow
  repeat' with_reducible first
    | assumption | intro _
    | (extract_lets +onlyGivenNames x; clear_value (hx : x = _); first | refine SameConf.bind (s := s0) hx ?_ (fun _ => ?_) | (refine SameConf.isFaults x ?_; subst hx) | skip)
    | apply State.count_conf | apply SameConf.ite | apply SameConf.foldl | (simp only [SameConf.mk_iff]; apply SameConf.parts) | split | dsimp only

theorem State.dropPre_conf {s0 : State} {s : State} (q : Nat) (i : Nat) (hs : SameConf s0 s) :
    SameConf s0 (State.dropPre s q i) := by
  unfold State.dropPre
  repeat' with_reducible first
    | assumption | intro _ | apply State.count_conf | apply State.release_conf | apply SameConf.ite | apply SameConf.foldl
    | (simp only [SameConf.mk_iff]; apply SameConf.parts) | split | dsimp only

theorem State.prebookExpiry_conf {s0 : State} {s : State} (q : Nat) (i : Nat) (hs : SameConf s0 s) :
    SameConf s0 (State.prebookExpiry s q i) := by
  unfold State.prebookExpiry
  repeat' with_reducible first
    | assumption | intro _ | apply State.count_conf | apply State.release_conf | apply SameConf.ite | apply SameConf.foldl
    | (simp only [SameConf.mk_iff]; apply SameConf.parts) | split | dsimp only

theorem execPrebookExpiry_conf {s0 : State} (q : Nat) (i : Nat) {s : State} (hs : SameConf s0 s) :
    SameConfR s0 (execPrebookExpiry q i s) := by
  unfold execPrebookExpiry
  repeat' with_reducible first
    | assumption | intro _ | apply onUnit_conf | apply State.prebookExpiry_conf | apply SameConfR.next | exact SameConfR.fault | exact SameConfR.refused
    | apply SameConfR.onUnit | apply SameConfR.ite | apply SameConf.ite | apply SameConf.foldl | (simp only [SameConf.mk_iff]; apply SameConf.parts) | split | dsimp only

theorem State.learn_conf {s0 : State} {s : State} (cmd : List Byte) (booked : Nat) (m : Nat) (withheld : Bool) (hs : SameConf s0 s) :
    SameConf s0 (State.learn s cmd booked m withheld) := by
  unfold State.learn
  repeat' with_reducible first
    | assumption | intro _
    | (extract_lets +onlyGivenNames x; clear_value (hx : x = _); first | refine SameConf.bind (s := s0) hx ?_ (fun _ => ?_) | (refine SameConf.isFaults x ?_; subst hx) | skip)
    | apply State.setFld_conf | apply SameConf.ite | apply SameConf.foldl | (simp only [SameConf.mk_iff]; apply SameConf.parts) | split | dsimp only

end Sys2Proof.Machine
end

