-- ==== Sys2Proof/Laws/SameConfQueues.lean ====
section
/-!
SUPPORT. What the operations of Machine/Queues.lean leave alone (Laws/SameConf.lean).
-/

set_option linter.all false

namespace Sys2Proof.Machine

theorem State.resume_conf {s0 : State} {s : State} (f : Nat) (q : Nat) (x : Queue) (hs : SameConf s0 s) :
    SameConf s0 (State.resume s f q x) := by
  unfold State.resume
  repeat' with_reducible first
    | assumption | intro _
    | (extract_lets +onlyGivenNames x; clear_value (hx : x = _); first | refine SameConf.bind (s := s0) hx ?_ (fun _ => ?_) | (refine SameConf.isFaults x ?_; subst hx) | skip)
    | apply State.closeRecords_conf | apply State.setQueue_conf | apply SameConf.ite | apply SameConf.foldl | (simp only [SameConf.mk_iff]; apply SameConf.parts)
    | split | dsimp only

theorem State.prebookHead_conf {s0 : State} {s : State} (kv : Nat × Queue) (hs : SameConf s0 s) :
    SameConf s0 (State.prebookHead s kv) := by
  unfold State.prebookHead
  repeat' with_reducible first
    | assumption | intro _
    | (extract_lets +onlyGivenNames x; clear_value (hx : x = _); first | refine SameConf.bind (s := s0) hx ?_ (fun _ => ?_) | (refine SameConf.isFaults x ?_; subst hx) | skip)
    | apply State.setQueue_conf | apply State.prebook_conf | apply SameConf.ite | apply SameConf.foldl | (simp only [SameConf.mk_iff]; apply SameConf.parts) | split
    | dsimp only

theorem State.refreshHeads_conf {s0 : State} {x1 : State} (hx1 : SameConf s0 x1) :
    SameConf s0 (State.refreshHeads x1) := by
  unfold State.refreshHeads
  repeat' with_reducible first
    | assumption | intro _
    | (extract_lets +onlyGivenNames x; clear_value (hx : x = _); first | refine SameConf.bind (s := s0) hx ?_ (fun _ => ?_) | (refine SameConf.isFaults x ?_; subst hx) | skip)
    | apply State.prebookHead_conf | apply State.setFld_conf | apply SameConf.ite | apply SameConf.foldl | (simp only [SameConf.mk_iff]; apply SameConf.parts) | split
    | dsimp only

theorem State.qcmdErr_conf {s0 : State} {s : State} (f : Nat) (code : Nat) (hs : SameConf s0 s) :
    SameConf s0 (State.qcmdErr s f code) := by
  unfold State.qcmdErr
  repeat' with_reducible first
    | assumption | intro _ | apply State.setFld_conf | apply SameConf.ite | apply SameConf.foldl | (simp only [SameConf.mk_iff]; apply SameConf.parts) | split
    | dsimp only

theorem State.actOn_conf {s0 : State} {s : State} (f : Nat) (q : Nat) (bad : Queue → Option Nat) (act : Queue → State) (hs : SameConf s0 s) (hact : ∀ y0, SameConf s0 (act y0)) :
    SameConf s0 (State.actOn s f q bad act) := by
  unfold State.actOn
  repeat' with_reducible first
    | assumption | intro _
    | (extract_lets +onlyGivenNames x; clear_value (hx : x = _); first | refine SameConf.bind (s := s0) hx ?_ (fun _ => ?_) | (refine SameConf.isFaults x ?_; subst hx) | skip)
    | apply State.refreshHeads_conf | apply State.qcmdErr_conf | apply hact | apply SameConf.ite | apply SameConf.foldl
    | (simp only [SameConf.mk_iff]; apply SameConf.parts) | split | dsimp only

theorem State.resumeOn_conf {s0 : State} {s : State} (f : Nat) (q : Nat) (hs : SameConf s0 s) :
    SameConf s0 (State.resumeOn s f q) := by
  unfold State.resumeOn
  repeat' with_reducible first
    | assumption | intro _ | apply State.resume_conf | apply State.actOn_conf | apply SameConf.ite | apply SameConf.foldl
    | (simp only [SameConf.mk_iff]; apply SameConf.parts) | split | dsimp only

theorem State.queueAction_conf {s0 : State} {s : State} (f : Nat) (action : Nat) (core : Nat) (run : State → Nat → State) (hs : SameConf s0 s) (hrun : ∀ y0 y1, SameConf s0 y0 → SameConf s0 (run y0 y1)) :
    SameConf s0 (State.queueAction s f action core run) := by
  unfold State.queueAction
  repeat' with_reducible first
    | assumption | intro _
    | (extract_lets +onlyGivenNames x; clear_value (hx : x = _); first | refine SameConf.bind (s := s0) hx ?_ (fun _ => ?_) | (refine SameConf.isFaults x ?_; subst hx) | skip)
    | apply State.modQueue_conf | apply hrun | apply SameConf.ite | apply SameConf.foldl | (simp only [SameConf.mk_iff]; apply SameConf.parts) | split | dsimp only

theorem execQueueResume_conf {s0 : State} (f : Nat) {s : State} (hs : SameConf s0 s) :
    SameConfR s0 (execQueueResume f s) := by
  unfold execQueueResume
  repeat' with_reducible first
    | assumption | intro _ | apply State.resumeOn_conf | apply onUnit_conf | apply State.queueAction_conf | apply SameConfR.next | exact SameConfR.fault
    | exact SameConfR.refused | apply SameConfR.onUnit | apply SameConfR.ite | apply SameConf.ite | apply SameConf.foldl | (simp only [SameConf.mk_iff]; apply SameConf.parts)
    | split | dsimp only

theorem State.dlqFullBit_conf {s0 : State} {s : State} (f : Nat) (hs : SameConf s0 s) :
    SameConf s0 (State.dlqFullBit s f) := by
  unfold State.dlqFullBit
  repeat' with_reducible first
    | assumption | intro _
    | (extract_lets +onlyGivenNames x; clear_value (hx : x = _); first | refine SameConf.bind (s := s0) hx ?_ (fun _ => ?_) | (refine SameConf.isFaults x ?_; subst hx) | skip)
    | apply State.setFld_conf | apply SameConf.ite | apply SameConf.foldl | (simp only [SameConf.mk_iff]; apply SameConf.parts) | split | dsimp only

theorem State.setLetters_conf {s0 : State} {s : State} (f : Nat) (d : DeadLetters) (hs : SameConf s0 s) :
    SameConf s0 (State.setLetters s f d) := by
  unfold State.setLetters
  repeat' with_reducible first
    | assumption | intro _ | apply SameConf.ite | apply SameConf.foldl | (simp only [SameConf.mk_iff]; apply SameConf.parts) | split | dsimp only

theorem State.dropLetter_conf {s0 : State} {s : State} (f : Nat) (hs : SameConf s0 s) :
    SameConf s0 (State.dropLetter s f) := by
  unfold State.dropLetter
  repeat' with_reducible first
    | assumption | intro _
    | (extract_lets +onlyGivenNames x; clear_value (hx : x = _); first | refine SameConf.bind (s := s0) hx ?_ (fun _ => ?_) | (refine SameConf.isFaults x ?_; subst hx) | skip)
    | apply State.setFld_conf | apply State.setLetters_conf | apply State.count_conf | apply SameConf.ite | apply SameConf.foldl
    | (simp only [SameConf.mk_iff]; apply SameConf.parts) | split | dsimp only

theorem State.deadLetter_conf {s0 : State} {s : State} (f : Nat) (q : Nat) (cmd : List Byte) (compl : List Byte) (reason : Nat) (hs : SameConf s0 s) :
    SameConf s0 (State.deadLetter s f q cmd compl reason).1 := by
  unfold State.deadLetter
  repeat' with_reducible first
    | assumption | intro _
    | (extract_lets +onlyGivenNames x; clear_value (hx : x = _); first | refine SameConf.bind (s := s0) hx ?_ (fun _ => ?_) | refine SameConf.bindFst (s := s0) hx ?_ (fun _ => ?_) | (refine SameConf.isFaults x ?_; subst hx) | skip)
    | apply State.purgeRange_conf | apply State.sealWrite_conf | apply State.setFld_conf | apply State.traffic_conf | apply State.dlqFullBit_conf
    | apply State.record_conf | apply State.setLetters_conf | apply State.dropLetter_conf | apply State.modQueue_conf | apply State.raiseVector_conf
    | apply State.count_conf | apply SameConf.ite | apply SameConf.foldl | (simp only [SameConf.mk_iff]; apply SameConf.parts) | apply SameConf.iteFst
    | apply SameConf.iteSnd | refine SameConf.fstEq (by assumption) ?_ | split | dsimp only

theorem State.settleQueue_conf {s0 : State} {s : State} (q : Nat) (hs : SameConf s0 s) :
    SameConf s0 (State.settleQueue s q) := by
  unfold State.settleQueue
  repeat' with_reducible first
    | assumption | intro _
    | (extract_lets +onlyGivenNames x; clear_value (hx : x = _); first | refine SameConf.bind (s := s0) hx ?_ (fun _ => ?_) | (refine SameConf.isFaults x ?_; subst hx) | skip)
    | apply State.setQueue_conf | apply SameConf.ite | apply SameConf.foldl | (simp only [SameConf.mk_iff]; apply SameConf.parts) | split | dsimp only

theorem State.queueError_conf {s0 : State} {s : State} (q : Nat) (reason : Nat) (hs : SameConf s0 s) :
    SameConf s0 (State.queueError s q reason) := by
  unfold State.queueError
  repeat' with_reducible first
    | assumption | intro _ | apply State.modQueue_conf | apply SameConf.ite | apply SameConf.foldl | (simp only [SameConf.mk_iff]; apply SameConf.parts) | split
    | dsimp only

theorem State.complete_conf {s0 : State} {s : State} (f : Nat) (q : Nat) (cmd : List Byte) (c : Completion) (undelivered : Bool) (hs : SameConf s0 s) :
    SameConf s0 (State.complete s f q cmd c undelivered) := by
  unfold State.complete
  repeat' with_reducible first
    | assumption | intro _
    | (extract_lets +onlyGivenNames x; clear_value (hx : x = _); first | refine SameConf.bind (s := s0) hx ?_ (fun _ => ?_) | refine SameConf.bindFst (s := s0) hx ?_ (fun _ => ?_) | (refine SameConf.isFaults x ?_; subst hx) | skip)
    | apply State.purgeRange_conf | apply State.sealWrite_conf | apply State.traffic_conf | apply State.deadLetter_conf | apply State.queueError_conf
    | apply State.modQueue_conf | apply State.count_conf | apply SameConf.ite | apply SameConf.foldl | (simp only [SameConf.mk_iff]; apply SameConf.parts)
    | apply SameConf.iteFst | apply SameConf.iteSnd | refine SameConf.fstEq (by assumption) ?_ | split | dsimp only

theorem State.endUngranted_conf {s0 : State} {s : State} (q : Nat) (index : Nat) (cmd : List Byte) (status : Nat) (detail : Nat) (hs : SameConf s0 s) :
    SameConf s0 (State.endUngranted s q index cmd status detail) := by
  unfold State.endUngranted
  repeat' with_reducible first
    | assumption | intro _
    | (extract_lets +onlyGivenNames x; clear_value (hx : x = _); first | refine SameConf.bind (s := s0) hx ?_ (fun _ => ?_) | (refine SameConf.isFaults x ?_; subst hx) | skip)
    | apply State.complete_conf | apply State.raiseVector_conf | apply SameConf.ite | apply SameConf.foldl | (simp only [SameConf.mk_iff]; apply SameConf.parts)
    | split | dsimp only

theorem State.cancelOne_conf {s0 : State} {s : State} (q : Nat) (i : Nat) (same : Bool) (hs : SameConf s0 s) :
    SameConf s0 (State.cancelOne s q i same) := by
  unfold State.cancelOne
  repeat' with_reducible first
    | assumption | apply State.dropPre_conf | intro _
    | (extract_lets +onlyGivenNames x; clear_value (hx : x = _); first | refine SameConf.bind (s := s0) hx ?_ (fun _ => ?_) | (refine SameConf.isFaults x ?_; subst hx) | skip)
    | apply State.setQueue_conf | apply State.modFlight_conf | apply State.count_conf | apply State.release_conf | apply State.endUngranted_conf
    | apply SameConf.ite | apply SameConf.foldl | (simp only [SameConf.mk_iff]; apply SameConf.parts) | split | dsimp only

theorem State.resetQueue_conf {s0 : State} {s : State} (q : Nat) (hs : SameConf s0 s) :
    SameConf s0 (State.resetQueue s q) := by
  unfold State.resetQueue
  repeat' with_reducible first
    | assumption | intro _
    | (extract_lets +onlyGivenNames x; clear_value (hx : x = _); first | refine SameConf.bind (s := s0) hx ?_ (fun _ => ?_) | (refine SameConf.isFaults x ?_; subst hx) | skip)
    | apply State.settleQueue_conf | apply State.cancelOne_conf | apply State.modQueue_conf | apply State.endUngranted_conf | apply SameConf.ite
    | apply SameConf.foldl | (simp only [SameConf.mk_iff]; apply SameConf.parts) | split | dsimp only

theorem State.pauseOn_conf {s0 : State} {s : State} (f : Nat) (q : Nat) (hs : SameConf s0 s) :
    SameConf s0 (State.pauseOn s f q) := by
  unfold State.pauseOn
  repeat' with_reducible first
    | assumption | intro _ | apply State.setQueue_conf | apply State.actOn_conf | apply SameConf.ite | apply SameConf.foldl
    | (simp only [SameConf.mk_iff]; apply SameConf.parts) | split | dsimp only

theorem execQueuePause_conf {s0 : State} (f : Nat) {s : State} (hs : SameConf s0 s) :
    SameConfR s0 (execQueuePause f s) := by
  unfold execQueuePause
  repeat' with_reducible first
    | assumption | intro _ | apply onUnit_conf | apply State.queueAction_conf | apply State.pauseOn_conf | apply SameConfR.next | exact SameConfR.fault
    | exact SameConfR.refused | apply SameConfR.onUnit | apply SameConfR.ite | apply SameConf.ite | apply SameConf.foldl | (simp only [SameConf.mk_iff]; apply SameConf.parts)
    | split | dsimp only

theorem State.disableOn_conf {s0 : State} {s : State} (f : Nat) (q : Nat) (hs : SameConf s0 s) :
    SameConf s0 (State.disableOn s f q) := by
  unfold State.disableOn
  repeat' with_reducible first
    | assumption | intro _ | apply State.setQueue_conf | apply State.settleQueue_conf | apply State.actOn_conf | apply SameConf.ite | apply SameConf.foldl
    | (simp only [SameConf.mk_iff]; apply SameConf.parts) | split | dsimp only

theorem execQueueDisable_conf {s0 : State} (f : Nat) {s : State} (hs : SameConf s0 s) :
    SameConfR s0 (execQueueDisable f s) := by
  unfold execQueueDisable
  repeat' with_reducible first
    | assumption | intro _ | apply onUnit_conf | apply State.queueAction_conf | apply State.disableOn_conf | apply SameConfR.next | exact SameConfR.fault
    | exact SameConfR.refused | apply SameConfR.onUnit | apply SameConfR.ite | apply SameConf.ite | apply SameConf.foldl | (simp only [SameConf.mk_iff]; apply SameConf.parts)
    | split | dsimp only

theorem State.cancel_conf {s0 : State} {s : State} (f : Nat) (q : Nat) (index : Nat) (x5 : Bool) (same : Bool) (hs : SameConf s0 s) :
    SameConf s0 (State.cancel s f q index x5 same) := by
  unfold State.cancel
  repeat' with_reducible first
    | assumption | intro _
    | (extract_lets +onlyGivenNames x; clear_value (hx : x = _); first | refine SameConf.bind (s := s0) hx ?_ (fun _ => ?_) | (refine SameConf.isFaults x ?_; subst hx) | skip)
    | apply State.cancelOne_conf | apply State.refreshHeads_conf | apply State.count_conf | apply SameConf.ite | apply SameConf.foldl
    | (simp only [SameConf.mk_iff]; apply SameConf.parts) | split | dsimp only

theorem State.enableOn_conf {s0 : State} {s : State} (f : Nat) (core : Nat) (q : Nat) (hs : SameConf s0 s) :
    SameConf s0 (State.enableOn s f core q) := by
  unfold State.enableOn
  repeat' with_reducible first
    | assumption | intro _ | apply State.setQueue_conf | apply State.setFld_conf | apply State.actOn_conf | apply SameConf.ite | apply SameConf.foldl
    | (simp only [SameConf.mk_iff]; apply SameConf.parts) | split | dsimp only

theorem execQmgSemvalWrite_conf {s0 : State} (f : Nat) (val : Nat) {s : State} (hs : SameConf s0 s) :
    SameConfR s0 (execQmgSemvalWrite f val s) := by
  unfold execQmgSemvalWrite
  repeat' with_reducible first
    | assumption | intro _
    | (extract_lets +onlyGivenNames x; clear_value (hx : x = _); first | refine SameConf.bind (s := s0) hx ?_ (fun _ => ?_) | (refine SameConf.isFaults x ?_; subst hx) | skip)
    | apply State.setFld_conf | apply State.setSem_conf | apply onUnit_conf | apply State.refreshHeads_conf | apply SameConfR.next | exact SameConfR.fault
    | exact SameConfR.refused | apply SameConfR.onUnit | apply SameConfR.ite | apply SameConf.ite | apply SameConf.foldl | (simp only [SameConf.mk_iff]; apply SameConf.parts)
    | split | dsimp only

theorem State.resetOn_conf {s0 : State} {s : State} (f : Nat) (q : Nat) (hs : SameConf s0 s) :
    SameConf s0 (State.resetOn s f q) := by
  unfold State.resetOn
  repeat' with_reducible first
    | assumption | intro _ | apply State.resetQueue_conf | apply State.actOn_conf | apply SameConf.ite | apply SameConf.foldl
    | (simp only [SameConf.mk_iff]; apply SameConf.parts) | split | dsimp only

theorem execQueueReset_conf {s0 : State} (f : Nat) {s : State} (hs : SameConf s0 s) :
    SameConfR s0 (execQueueReset f s) := by
  unfold execQueueReset
  repeat' with_reducible first
    | assumption | intro _ | apply State.resetOn_conf | apply onUnit_conf | apply State.queueAction_conf | apply SameConfR.next | exact SameConfR.fault
    | exact SameConfR.refused | apply SameConfR.onUnit | apply SameConfR.ite | apply SameConf.ite | apply SameConf.foldl | (simp only [SameConf.mk_iff]; apply SameConf.parts)
    | split | dsimp only

theorem execQmgSemadd_conf {s0 : State} (f : Nat) (val : Nat) {s : State} (hs : SameConf s0 s) :
    SameConfR s0 (execQmgSemadd f val s) := by
  unfold execQmgSemadd
  repeat' with_reducible first
    | assumption | intro _
    | (extract_lets +onlyGivenNames x; clear_value (hx : x = _); first | refine SameConf.bind (s := s0) hx ?_ (fun _ => ?_) | (refine SameConf.isFaults x ?_; subst hx) | skip)
    | apply State.addSem_conf | apply State.setFld_conf | apply onUnit_conf | apply State.refreshHeads_conf | apply SameConfR.next | exact SameConfR.fault
    | exact SameConfR.refused | apply SameConfR.onUnit | apply SameConfR.ite | apply SameConf.ite | apply SameConf.foldl | (simp only [SameConf.mk_iff]; apply SameConf.parts)
    | split | dsimp only

theorem execNotBeforeReached_conf {s0 : State} (q : Nat) {s : State} (hs : SameConf s0 s) :
    SameConfR s0 (execNotBeforeReached q s) := by
  unfold execNotBeforeReached
  repeat' with_reducible first
    | assumption | intro _ | apply onUnit_conf | apply State.refreshHeads_conf | apply SameConfR.next | exact SameConfR.fault | exact SameConfR.refused
    | apply SameConfR.onUnit | apply SameConfR.ite | apply SameConf.ite | apply SameConf.foldl | (simp only [SameConf.mk_iff]; apply SameConf.parts) | split | dsimp only

theorem execQmgCancel_conf {s0 : State} (f : Nat) (q : Nat) (index : Nat) (x4 : Bool) (same : Bool) {s : State} (hs : SameConf s0 s) :
    SameConfR s0 (execQmgCancel f q index x4 same s) := by
  unfold execQmgCancel
  repeat' with_reducible first
    | assumption | intro _ | apply onUnit_conf | apply State.cancel_conf | apply SameConfR.next | exact SameConfR.fault | exact SameConfR.refused
    | apply SameConfR.onUnit | apply SameConfR.ite | apply SameConf.ite | apply SameConf.foldl | (simp only [SameConf.mk_iff]; apply SameConf.parts) | split | dsimp only

theorem State.doorbell_conf {s0 : State} {s : State} (f : Nat) (q : Nat) (size : Nat) (tail : Nat) (cdone : Nat) (hs : SameConf s0 s) :
    SameConf s0 (State.doorbell s f q size tail cdone) := by
  unfold State.doorbell
  repeat' with_reducible first
    | assumption | intro _
    | (extract_lets +onlyGivenNames x; clear_value (hx : x = _); first | refine SameConf.bind (s := s0) hx ?_ (fun _ => ?_) | refine SameConf.bindFst (s := s0) hx ?_ (fun _ => ?_) | (refine SameConf.isFaults x ?_; subst hx) | skip)
    | apply State.setQueue_conf | apply State.deadLetter_conf | apply State.queueError_conf | apply State.count_conf | apply SameConf.ite | apply SameConf.foldl
    | (simp only [SameConf.mk_iff]; apply SameConf.parts) | apply SameConf.iteFst | apply SameConf.iteSnd | refine SameConf.fstEq (by assumption) ?_ | split | dsimp only

theorem execDoorbellWrite_conf {s0 : State} (f : Nat) (q : Nat) (size : Nat) (tail : Nat) (cdone : Nat) {s : State} (hs : SameConf s0 s) :
    SameConfR s0 (execDoorbellWrite f q size tail cdone s) := by
  unfold execDoorbellWrite
  repeat' with_reducible first
    | assumption | intro _ | apply State.doorbell_conf | apply onUnit_conf | apply SameConfR.next | exact SameConfR.fault | exact SameConfR.refused
    | apply SameConfR.onUnit | apply SameConfR.ite | apply SameConf.ite | apply SameConf.foldl | (simp only [SameConf.mk_iff]; apply SameConf.parts) | split | dsimp only

theorem execDlqBaseWrite_conf {s0 : State} (f : Nat) (val : Nat) {s : State} (hs : SameConf s0 s) :
    SameConfR s0 (execDlqBaseWrite f val s) := by
  unfold execDlqBaseWrite
  repeat' with_reducible first
    | assumption | intro _ | apply State.setReg_conf | apply State.dlqFullBit_conf | apply State.setLetters_conf | apply onUnit_conf | apply SameConfR.next
    | exact SameConfR.fault | exact SameConfR.refused | apply SameConfR.onUnit | apply SameConfR.ite | apply SameConf.ite | apply SameConf.foldl
    | (simp only [SameConf.mk_iff]; apply SameConf.parts) | split | dsimp only

theorem State.fetch_conf {s0 : State} {s : State} (q : Nat) (hs : SameConf s0 s) :
    SameConf s0 (State.fetch s q) := by
  unfold State.fetch
  repeat' with_reducible first
    | assumption | intro _
    | (extract_lets +onlyGivenNames x; clear_value (hx : x = _); first | refine SameConf.bind (s := s0) hx ?_ (fun _ => ?_) | refine SameConf.bindFst (s := s0) hx ?_ (fun _ => ?_) | (refine SameConf.isFaults x ?_; subst hx) | skip)
    | apply State.setQueue_conf | apply State.traffic_conf | apply State.deadLetter_conf | apply State.refreshHeads_conf | apply State.queueError_conf
    | apply State.modQueue_conf | apply State.endUngranted_conf | apply SameConf.ite | apply SameConf.foldl | (simp only [SameConf.mk_iff]; apply SameConf.parts)
    | apply SameConf.iteFst | apply SameConf.iteSnd | refine SameConf.fstEq (by assumption) ?_ | split | dsimp only

theorem State.promote_conf {s0 : State} {s : State} (q : Nat) (hs : SameConf s0 s) :
    SameConf s0 (State.promote s q) := by
  unfold State.promote
  repeat' with_reducible first
    | assumption | intro _
    | (extract_lets +onlyGivenNames x; clear_value (hx : x = _); first | refine SameConf.bind (s := s0) hx ?_ (fun _ => ?_) | (refine SameConf.isFaults x ?_; subst hx) | skip)
    | apply State.setQueue_conf | apply State.refreshHeads_conf | apply SameConf.ite | apply SameConf.foldl | (simp only [SameConf.mk_iff]; apply SameConf.parts)
    | split | dsimp only

theorem execAgePromotion_conf {s0 : State} (q : Nat) {s : State} (hs : SameConf s0 s) :
    SameConfR s0 (execAgePromotion q s) := by
  unfold execAgePromotion
  repeat' with_reducible first
    | assumption | intro _ | apply onUnit_conf | apply State.promote_conf | apply SameConfR.next | exact SameConfR.fault | exact SameConfR.refused
    | apply SameConfR.onUnit | apply SameConfR.ite | apply SameConf.ite | apply SameConf.foldl | (simp only [SameConf.mk_iff]; apply SameConf.parts) | split | dsimp only

theorem execCommandFetch_conf {s0 : State} (q : Nat) {s : State} (hs : SameConf s0 s) :
    SameConfR s0 (execCommandFetch q s) := by
  unfold execCommandFetch
  repeat' with_reducible first
    | assumption | intro _ | apply onUnit_conf | apply State.fetch_conf | apply SameConfR.next | exact SameConfR.fault | exact SameConfR.refused
    | apply SameConfR.onUnit | apply SameConfR.ite | apply SameConf.ite | apply SameConf.foldl | (simp only [SameConf.mk_iff]; apply SameConf.parts) | split | dsimp only

theorem execQueueEnable_conf {s0 : State} (f : Nat) (core : Nat) {s : State} (hs : SameConf s0 s) :
    SameConfR s0 (execQueueEnable f core s) := by
  unfold execQueueEnable
  repeat' with_reducible first
    | assumption | intro _ | apply onUnit_conf | apply State.queueAction_conf | apply State.enableOn_conf | apply SameConfR.next | exact SameConfR.fault
    | exact SameConfR.refused | apply SameConfR.onUnit | apply SameConfR.ite | apply SameConf.ite | apply SameConf.foldl | (simp only [SameConf.mk_iff]; apply SameConf.parts)
    | split | dsimp only

end Sys2Proof.Machine
end

