-- ==== Sys2Proof/Laws/SameConfSorterGrant.lean ====
section
/-!
SUPPORT. What the operations of Machine/SorterGrant.lean leave alone (Laws/SameConf.lean).
-/

set_option linter.all false

namespace Sys2Proof.Machine

theorem State.noteSlip_conf {s0 : State} {s : State} (f : Nat) (cmd : List Byte) (hs : SameConf s0 s) :
    SameConf s0 (State.noteSlip s f cmd) := by
  unfold State.noteSlip
  repeat' with_reducible first
    | assumption | intro _ | apply State.modDomain_conf | apply SameConf.ite | apply SameConf.foldl | (simp only [SameConf.mk_iff]; apply SameConf.parts) | split
    | dsimp only

end Sys2Proof.Machine
end

