-- ==== Sys2Proof/Laws/SameConfControl.lean ====
section
/-!
SUPPORT. What the operations of Machine/Control.lean leave alone (Laws/SameConf.lean).
-/

set_option linter.all false

namespace Sys2Proof.Machine

theorem State.control_conf {s0 : State} {s : State} (q : Nat) (i : Nat) (op : Nat) (checks : List Byte → List (Nat × Bool)) (k : Flight → State) (hs : SameConf s0 s) (hk : ∀ y0, SameConf s0 (k y0)) :
    SameConfR s0 (State.control s q i op checks k) := by
  unfold State.control
  repeat' with_reducible first
    | assumption | intro _ | apply State.endFlight_conf | apply State.engine_conf | apply hk | apply SameConfR.next | exact SameConfR.fault
    | exact SameConfR.refused | apply SameConfR.onUnit | apply SameConfR.ite | apply SameConf.ite | apply SameConf.foldl | (simp only [SameConf.mk_iff]; apply SameConf.parts)
    | split | dsimp only

theorem execDrainMark_conf {s0 : State} (q : Nat) (i : Nat) {s : State} (hs : SameConf s0 s) :
    SameConfR s0 (execDrainMark q i s) := by
  unfold execDrainMark
  repeat' with_reducible first
    | assumption | intro _ | apply State.control_conf | apply State.endFlight_conf | apply SameConfR.next | exact SameConfR.fault | exact SameConfR.refused
    | apply SameConfR.onUnit | apply SameConfR.ite | apply SameConf.ite | apply SameConf.foldl | (simp only [SameConf.mk_iff]; apply SameConf.parts) | split | dsimp only

theorem execReport_conf {s0 : State} (q : Nat) (i : Nat) {s : State} (hs : SameConf s0 s) :
    SameConfR s0 (execReport q i s) := by
  unfold execReport
  repeat' with_reducible first
    | assumption | intro _
    | (extract_lets +onlyGivenNames x; clear_value (hx : x = _); first | refine SameConf.bind (s := s0) hx ?_ (fun _ => ?_) | refine SameConf.bindJob (s := s0) hx ?_ (fun _ => ?_) | refine SameConf.bindRes (s := s0) hx ?_ (fun _ => ?_) | (refine SameConf.isFaults x ?_; subst hx) | skip)
    | apply State.control_conf | apply State.endFlight_conf | apply State.runJob_conf | apply JobResult.finish_conf | apply SameConfR.next
    | exact SameConfR.fault | exact SameConfR.refused | apply SameConfR.onUnit | apply SameConfR.ite | apply SameConf.ite | apply SameConf.foldl
    | (simp only [SameConf.mk_iff]; apply SameConf.parts) | apply SameConf.iteJob | apply SameConf.foldlJob | split | dsimp only

theorem execNop_conf {s0 : State} (q : Nat) (i : Nat) {s : State} (hs : SameConf s0 s) :
    SameConfR s0 (execNop q i s) := by
  unfold execNop
  repeat' with_reducible first
    | assumption | intro _ | apply State.control_conf | apply State.endFlight_conf | apply SameConfR.next | exact SameConfR.fault | exact SameConfR.refused
    | apply SameConfR.onUnit | apply SameConfR.ite | apply SameConf.ite | apply SameConf.foldl | (simp only [SameConf.mk_iff]; apply SameConf.parts) | split | dsimp only

theorem execWaitTimeout_conf {s0 : State} (q : Nat) (i : Nat) {s : State} (hs : SameConf s0 s) :
    SameConfR s0 (execWaitTimeout q i s) := by
  unfold execWaitTimeout
  repeat' with_reducible first
    | assumption | intro _
    | (extract_lets +onlyGivenNames x; clear_value (hx : x = _); first | refine SameConf.bind (s := s0) hx ?_ (fun _ => ?_) | (refine SameConf.isFaults x ?_; subst hx) | skip)
    | apply State.endFlight_conf | apply State.engine_conf | apply SameConfR.next | exact SameConfR.fault | exact SameConfR.refused | apply SameConfR.onUnit
    | apply SameConfR.ite | apply SameConf.ite | apply SameConf.foldl | (simp only [SameConf.mk_iff]; apply SameConf.parts) | split | dsimp only

theorem execWait_conf {s0 : State} (q : Nat) (i : Nat) {s : State} (hs : SameConf s0 s) :
    SameConfR s0 (execWait q i s) := by
  unfold execWait
  repeat' with_reducible first
    | assumption | intro _
    | (extract_lets +onlyGivenNames x; clear_value (hx : x = _); first | refine SameConf.bind (s := s0) hx ?_ (fun _ => ?_) | (refine SameConf.isFaults x ?_; subst hx) | skip)
    | apply State.control_conf | apply State.endFlight_conf | apply SameConfR.next | exact SameConfR.fault | exact SameConfR.refused | apply SameConfR.onUnit
    | apply SameConfR.ite | apply SameConf.ite | apply SameConf.foldl | (simp only [SameConf.mk_iff]; apply SameConf.parts) | split | dsimp only

theorem execTimer_conf {s0 : State} (q : Nat) (i : Nat) {s : State} (hs : SameConf s0 s) :
    SameConfR s0 (execTimer q i s) := by
  unfold execTimer
  repeat' with_reducible first
    | assumption | intro _ | apply State.control_conf | apply State.endFlight_conf | apply SameConfR.next | exact SameConfR.fault | exact SameConfR.refused
    | apply SameConfR.onUnit | apply SameConfR.ite | apply SameConf.ite | apply SameConf.foldl | (simp only [SameConf.mk_iff]; apply SameConf.parts) | split | dsimp only

theorem execFence_conf {s0 : State} (q : Nat) (i : Nat) {s : State} (hs : SameConf s0 s) :
    SameConfR s0 (execFence q i s) := by
  unfold execFence
  repeat' with_reducible first
    | assumption | intro _ | apply State.control_conf | apply State.endFlight_conf | apply SameConfR.next | exact SameConfR.fault | exact SameConfR.refused
    | apply SameConfR.onUnit | apply SameConfR.ite | apply SameConf.ite | apply SameConf.foldl | (simp only [SameConf.mk_iff]; apply SameConf.parts) | split | dsimp only

theorem execTimerExpiry_conf {s0 : State} (q : Nat) (i : Nat) {s : State} (hs : SameConf s0 s) :
    SameConfR s0 (execTimerExpiry q i s) := by
  unfold execTimerExpiry
  repeat' with_reducible first
    | assumption | intro _ | apply State.control_conf | apply State.endFlight_conf | apply SameConfR.next | exact SameConfR.fault | exact SameConfR.refused
    | apply SameConfR.onUnit | apply SameConfR.ite | apply SameConf.ite | apply SameConf.foldl | (simp only [SameConf.mk_iff]; apply SameConf.parts) | split | dsimp only

theorem State.semOp_conf {s0 : State} {s : State} (n : Nat) (op : Nat) (v : Nat) (hs : SameConf s0 s) :
    SameConf s0 (State.semOp s n op v) := by
  unfold State.semOp
  repeat' with_reducible first
    | assumption | intro _ | apply State.addSem_conf | apply State.setSem_conf | apply SameConf.ite | apply SameConf.foldl
    | (simp only [SameConf.mk_iff]; apply SameConf.parts) | split | dsimp only

end Sys2Proof.Machine
end

