-- ==== Sys2Proof/Laws/SameConfRng.lean ====
section
/-!
SUPPORT. What the operations of Machine/Rng.lean leave alone (Laws/SameConf.lean).
-/

set_option linter.all false

namespace Sys2Proof.Machine

theorem State.rollback_conf {s0 : State} {s : State} (c : Nat) (saved : List (Nat × BitVec 128)) (hs : SameConf s0 s) :
    SameConf s0 (State.rollback s c saved) := by
  unfold State.rollback
  repeat' with_reducible first
    | assumption | intro _ | apply State.modCore_conf | apply State.count_conf | apply SameConf.ite | apply SameConf.foldl
    | (simp only [SameConf.mk_iff]; apply SameConf.parts) | split | dsimp only

theorem State.drawing_conf {s0 : State} {s : State} (q : Nat) (i : Nat) (fl : Flight) (k : State → State) (hs : SameConf s0 s) (hk : ∀ y0, SameConf s0 y0 → SameConf s0 (k y0)) :
    SameConf s0 (State.drawing s q i fl k) := by
  unfold State.drawing
  repeat' with_reducible first
    | assumption | intro _ | apply State.countCycles_conf
    | (extract_lets +onlyGivenNames x; clear_value (hx : x = _); first | refine SameConf.bind (s := s0) hx ?_ (fun _ => ?_) | (refine SameConf.isFaults x ?_; subst hx) | skip)
    | apply State.rollback_conf | apply State.endFlight_conf | apply State.count_conf | apply hk | apply SameConf.ite | apply SameConf.foldl
    | (simp only [SameConf.mk_iff]; apply SameConf.parts) | split | dsimp only

theorem State.saveLanes_conf {s0 : State} {s : State} (q : Nat) (i : Nat) (fl : Flight) (hs : SameConf s0 s) :
    SameConf s0 (State.saveLanes s q i fl) := by
  unfold State.saveLanes
  repeat' with_reducible first
    | assumption | intro _ | apply State.runJob_conf | apply JobResult.finish_conf | apply SameConf.ite | apply SameConf.foldl
    | (simp only [SameConf.mk_iff]; apply SameConf.parts) | apply SameConf.iteJob | apply SameConf.foldlJob | split | dsimp only

theorem State.setSeedpos_conf {s0 : State} {s : State} (c : Nat) (seeded : Bool) (base : Nat) (hs : SameConf s0 s) :
    SameConf s0 (State.setSeedpos s c seeded base) := by
  unfold State.setSeedpos
  repeat' with_reducible first
    | assumption | intro _ | apply State.setFld_conf | apply SameConf.ite | apply SameConf.foldl | (simp only [SameConf.mk_iff]; apply SameConf.parts) | split
    | dsimp only

theorem State.loadLanes_conf {s0 : State} {s : State} (c : Nat) (l : List (BitVec 128)) (seeded : Bool) (base : Nat) (hs : SameConf s0 s) :
    SameConf s0 (State.loadLanes s c l seeded base) := by
  unfold State.loadLanes
  repeat' with_reducible first
    | assumption | intro _ | apply State.modCore_conf | apply State.setFld_conf | apply State.setSeedpos_conf | apply SameConf.ite | apply SameConf.foldl
    | (simp only [SameConf.mk_iff]; apply SameConf.parts) | split | dsimp only

theorem State.seedLanes_conf {s0 : State} {s : State} (q : Nat) (i : Nat) (fl : Flight) (hs : SameConf s0 s) :
    SameConf s0 (State.seedLanes s q i fl) := by
  unfold State.seedLanes
  repeat' with_reducible first
    | assumption | intro _
    | (extract_lets +onlyGivenNames x; clear_value (hx : x = _); first | refine SameConf.bind (s := s0) hx ?_ (fun _ => ?_) | (refine SameConf.isFaults x ?_; subst hx) | skip)
    | apply State.loadLanes_conf | apply State.endFlight_conf | apply SameConf.ite | apply SameConf.foldl | (simp only [SameConf.mk_iff]; apply SameConf.parts)
    | split | dsimp only

theorem State.drawWords_conf {s0 : State} {s : State} (c : Nat) (n : Nat) (hs : SameConf s0 s) :
    SameConf s0 (State.drawWords s c n).2 := by
  unfold State.drawWords
  repeat' with_reducible first
    | assumption | intro _
    | (extract_lets +onlyGivenNames x; clear_value (hx : x = _); first | refine SameConf.bind (s := s0) hx ?_ (fun _ => ?_) | refine SameConf.bindSnd (s := s0) hx ?_ (fun _ => ?_) | (refine SameConf.isFaults x ?_; subst hx) | skip)
    | apply State.modCore_conf | apply State.count_conf | apply SameConf.ite | apply SameConf.foldl | (simp only [SameConf.mk_iff]; apply SameConf.parts)
    | apply SameConf.iteFst | apply SameConf.iteSnd | refine SameConf.sndEq (by assumption) ?_ | split | dsimp only

theorem State.sampleRows_conf {s0 : State} {s : State} (q : Nat) (i : Nat) (stop : Option Nat) (fl : Flight) (hs : SameConf s0 s) :
    SameConf s0 (State.sampleRows s q i stop fl) := by
  unfold State.sampleRows
  repeat' with_reducible first
    | assumption | intro _
    | (extract_lets +onlyGivenNames x; clear_value (hx : x = _); first | refine SameConf.bind (s := s0) hx ?_ (fun _ => ?_) | refine SameConf.bindSnd (s := s0) hx ?_ (fun _ => ?_) | refine SameConf.bindJob (s := s0) hx ?_ (fun _ => ?_) | refine SameConf.bindRes (s := s0) hx ?_ (fun _ => ?_) | (refine SameConf.isFaults x ?_; subst hx) | skip)
    | apply State.drawWords_conf | apply State.runJob_conf | apply State.count_conf | apply JobResult.finish_conf | apply SameConf.ite | apply SameConf.foldl
    | (simp only [SameConf.mk_iff]; apply SameConf.parts) | apply SameConf.iteFst | apply SameConf.iteSnd | apply SameConf.iteJob | apply SameConf.foldlJob
    | refine SameConf.sndEq (by assumption) ?_ | split | dsimp only

theorem execRngSave_conf {s0 : State} (q : Nat) (i : Nat) {s : State} (hs : SameConf s0 s) :
    SameConfR s0 (execRngSave q i s) := by
  unfold execRngSave
  repeat' with_reducible first
    | assumption | intro _ | apply State.dispatch_conf | apply State.drawing_conf | apply State.saveLanes_conf | apply SameConfR.next | exact SameConfR.fault
    | exact SameConfR.refused | apply SameConfR.onUnit | apply SameConfR.ite | apply SameConf.ite | apply SameConf.foldl | (simp only [SameConf.mk_iff]; apply SameConf.parts)
    | split | dsimp only

theorem State.areaLanes_conf {s0 : State} {s : State} (q : Nat) (i : Nat) (fl : Flight) (hs : SameConf s0 s) :
    SameConf s0 (State.areaLanes s q i fl) := by
  unfold State.areaLanes
  repeat' with_reducible first
    | assumption | intro _ | apply State.countCycles_conf
    | (extract_lets +onlyGivenNames x; clear_value (hx : x = _); first | refine SameConf.bind (s := s0) hx ?_ (fun _ => ?_) | refine SameConf.bindJob (s := s0) hx ?_ (fun _ => ?_) | refine SameConf.bindRes (s := s0) hx ?_ (fun _ => ?_) | (refine SameConf.isFaults x ?_; subst hx) | skip)
    | apply State.loadLanes_conf | apply State.endFlight_conf | apply State.runJob_conf | apply JobResult.finish_conf | apply SameConf.ite
    | apply SameConf.foldl | (simp only [SameConf.mk_iff]; apply SameConf.parts) | apply SameConf.iteJob | apply SameConf.foldlJob | split | dsimp only

theorem execSample_conf {s0 : State} (q : Nat) (i : Nat) (stop : Option Nat) {s : State} (hs : SameConf s0 s) :
    SameConfR s0 (execSample q i stop s) := by
  unfold execSample
  repeat' with_reducible first
    | assumption | intro _ | apply State.sampleRows_conf | apply State.dispatch_conf | apply State.drawing_conf | apply SameConfR.next | exact SameConfR.fault
    | exact SameConfR.refused | apply SameConfR.onUnit | apply SameConfR.ite | apply SameConf.ite | apply SameConf.foldl | (simp only [SameConf.mk_iff]; apply SameConf.parts)
    | split | dsimp only

theorem execRngLoad_conf {s0 : State} (q : Nat) (i : Nat) {s : State} (hs : SameConf s0 s) :
    SameConfR s0 (execRngLoad q i s) := by
  unfold execRngLoad
  repeat' with_reducible first
    | assumption | intro _ | apply State.countCycles_conf | apply State.areaLanes_conf | apply State.seedLanes_conf | apply State.dispatch_conf | apply State.count_conf
    | apply SameConfR.next | exact SameConfR.fault | exact SameConfR.refused | apply SameConfR.onUnit | apply SameConfR.ite | apply SameConf.ite | apply SameConf.foldl
    | (simp only [SameConf.mk_iff]; apply SameConf.parts) | split | dsimp only

end Sys2Proof.Machine
end

