-- ==== Sys2Proof/Laws/SameConfCompletion.lean ====
section
/-!
SUPPORT. What the operations of Machine/Completion.lean leave alone (Laws/SameConf.lean).
-/

set_option linter.all false

namespace Sys2Proof.Machine

theorem State.signal_conf {s0 : State} {s : State} (cmd : List Byte) (status : Nat) (hs : SameConf s0 s) :
    SameConf s0 (State.signal s cmd status) := by
  unfold State.signal
  repeat' with_reducible first
    | assumption | intro _
    | (extract_lets +onlyGivenNames x; clear_value (hx : x = _); first | refine SameConf.bind (s := s0) hx ?_ (fun _ => ?_) | (refine SameConf.isFaults x ?_; subst hx) | skip)
    | apply State.addSem_conf | apply State.setSem_conf | apply SameConf.ite | apply SameConf.foldl | (simp only [SameConf.mk_iff]; apply SameConf.parts) | split
    | dsimp only

theorem State.endProgram_conf {s0 : State} {s : State} (fl : Flight) (status : Nat) (hs : SameConf s0 s) :
    SameConf s0 (State.endProgram s fl status) := by
  unfold State.endProgram
  repeat' with_reducible first
    | assumption | intro _
    | (extract_lets +onlyGivenNames x; clear_value (hx : x = _); first | refine SameConf.bind (s := s0) hx ?_ (fun _ => ?_) | (refine SameConf.isFaults x ?_; subst hx) | skip)
    | apply State.rollback_conf | apply State.modCore_conf | apply State.setFld_conf | apply SameConf.ite | apply SameConf.foldl
    | (simp only [SameConf.mk_iff]; apply SameConf.parts) | split | dsimp only

theorem State.faultCause_conf {s0 : State} {s : State} (fl : Flight) (status : Nat) (hs : SameConf s0 s) :
    SameConf s0 (State.faultCause s fl status) := by
  unfold State.faultCause
  repeat' with_reducible first
    | assumption | intro _ | apply State.setCause_conf | apply State.modDomain_conf | apply SameConf.ite | apply SameConf.foldl
    | (simp only [SameConf.mk_iff]; apply SameConf.parts) | split | dsimp only

theorem State.completeFlight_conf {s0 : State} {s : State} (fl : Flight) (m : Nat) (withheld : Bool) (hs : SameConf s0 s) :
    SameConf s0 (State.completeFlight s fl m withheld) := by
  unfold State.completeFlight
  repeat' with_reducible first
    | assumption | apply State.dropPre_conf | intro _
    | (extract_lets +onlyGivenNames x; clear_value (hx : x = _); first | refine SameConf.bind (s := s0) hx ?_ (fun _ => ?_) | (refine SameConf.isFaults x ?_; subst hx) | skip)
    | apply State.closeRecords_conf | apply State.traceCore_conf | apply State.voidBlocks_conf | apply State.settleQueue_conf | apply State.modCore_conf
    | apply State.complete_conf | apply State.endProgram_conf | apply State.refreshHeads_conf | apply State.learn_conf | apply State.signal_conf
    | apply State.faultCause_conf | apply State.raiseVector_conf | apply State.count_conf | apply State.release_conf | apply SameConf.ite | apply SameConf.foldl
    | (simp only [SameConf.mk_iff]; apply SameConf.parts) | split | dsimp only

end Sys2Proof.Machine
end

