-- ==== Sys2Proof/Laws/SameConfTenants.lean ====
section
/-!
SUPPORT. What the operations of Machine/Tenants.lean leave alone (Laws/SameConf.lean).
-/

set_option linter.all false

namespace Sys2Proof.Machine

theorem State.granFields_conf {s0 : State} {s : State} (func : Nat) (tier : Nat) (clear : Nat) (hs : SameConf s0 s) :
    SameConf s0 (State.granFields s func tier clear) := by
  unfold State.granFields
  repeat' with_reducible first
    | assumption | intro _ | apply State.setFld_conf | apply SameConf.ite | apply SameConf.foldl | (simp only [SameConf.mk_iff]; apply SameConf.parts) | split
    | dsimp only

theorem State.granStart_conf {s0 : State} {s : State} (query : Bool) (func : Nat) (tier : Nat) (clear : Nat) (hs : SameConf s0 s) :
    SameConf s0 (State.granStart s query func tier clear) := by
  unfold State.granStart
  repeat' with_reducible first
    | assumption | intro _
    | (extract_lets +onlyGivenNames x; clear_value (hx : x = _); first | refine SameConf.bind (s := s0) hx ?_ (fun _ => ?_) | (refine SameConf.isFaults x ?_; subst hx) | skip)
    | apply State.setFld_conf | apply State.granFields_conf | apply SameConf.ite | apply SameConf.foldl | (simp only [SameConf.mk_iff]; apply SameConf.parts) | split
    | dsimp only

theorem execAssign_conf {s0 : State} (func : Nat) (tier : Nat) (clear : Nat) {s : State} (hs : SameConf s0 s) :
    SameConfR s0 (execAssign func tier clear s) := by
  unfold execAssign
  repeat' with_reducible first
    | assumption | intro _ | apply onUnit_conf | apply State.granStart_conf | apply SameConfR.next | exact SameConfR.fault | exact SameConfR.refused
    | apply SameConfR.onUnit | apply SameConfR.ite | apply SameConf.ite | apply SameConf.foldl | (simp only [SameConf.mk_iff]; apply SameConf.parts) | split | dsimp only

theorem State.countCores_conf {s0 : State} {s : State} (f : Nat) (hs : SameConf s0 s) :
    SameConf s0 (State.countCores s f) := by
  unfold State.countCores
  repeat' with_reducible first
    | assumption | intro _ | apply State.setFld_conf | apply SameConf.ite | apply SameConf.foldl | (simp only [SameConf.mk_iff]; apply SameConf.parts) | split
    | dsimp only

theorem State.giveGranule_conf {s0 : State} {s : State} (tier : Nat) (n : Nat) (func : Nat) (hs : SameConf s0 s) :
    SameConf s0 (State.giveGranule s tier n func) := by
  unfold State.giveGranule
  repeat' with_reducible first
    | assumption | intro _
    | (extract_lets +onlyGivenNames x; clear_value (hx : x = _); first | refine SameConf.bind (s := s0) hx ?_ (fun _ => ?_) | (refine SameConf.isFaults x ?_; subst hx) | skip)
    | apply State.setFld_conf | apply SameConf.ite | apply SameConf.foldl | (simp only [SameConf.mk_iff]; apply SameConf.parts) | split | dsimp only

theorem State.zeroGranule_conf {s0 : State} {s : State} (a : Nat) (hs : SameConf s0 s) :
    SameConf s0 (State.zeroGranule s a) := by
  unfold State.zeroGranule
  repeat' with_reducible first
    | assumption | intro _ | apply SameConf.ite | apply SameConf.foldl | (simp only [SameConf.mk_iff]; apply SameConf.parts) | split | dsimp only

theorem State.assignGranule_conf {s0 : State} {s : State} (clear : Bool) (tier : Nat) (n : Nat) (func : Nat) (hs : SameConf s0 s) :
    SameConf s0 (State.assignGranule s clear tier n func) := by
  unfold State.assignGranule
  repeat' with_reducible first
    | assumption | intro _
    | (extract_lets +onlyGivenNames x; clear_value (hx : x = _); first | refine SameConf.bind (s := s0) hx ?_ (fun _ => ?_) | (refine SameConf.isFaults x ?_; subst hx) | skip)
    | apply State.giveGranule_conf | apply State.zeroGranule_conf | apply State.purgeWhere_conf | apply SameConf.ite | apply SameConf.foldl
    | (simp only [SameConf.mk_iff]; apply SameConf.parts) | split | dsimp only

theorem State.granDone_conf {s0 : State} {s : State} (hs : SameConf s0 s) :
    SameConf s0 (State.granDone s) := by
  unfold State.granDone
  repeat' with_reducible first
    | assumption | intro _
    | (extract_lets +onlyGivenNames x; clear_value (hx : x = _); first | refine SameConf.bind (s := s0) hx ?_ (fun _ => ?_) | (refine SameConf.isFaults x ?_; subst hx) | skip)
    | apply State.setFld_conf | apply State.assignGranule_conf | apply SameConf.ite | apply SameConf.foldl | (simp only [SameConf.mk_iff]; apply SameConf.parts)
    | split | dsimp only

theorem State.migrateOn_conf {s0 : State} {s : State} (f : Nat) (core : Nat) (q : Nat) (hs : SameConf s0 s) :
    SameConf s0 (State.migrateOn s f core q) := by
  unfold State.migrateOn
  repeat' with_reducible first
    | assumption | intro _ | apply State.setQueue_conf | apply State.setFld_conf | apply State.actOn_conf | apply SameConf.ite | apply SameConf.foldl
    | (simp only [SameConf.mk_iff]; apply SameConf.parts) | split | dsimp only

theorem State.cfgErr_conf {s0 : State} {s : State} (f : Nat) (code : Nat) (hs : SameConf s0 s) :
    SameConf s0 (State.cfgErr s f code) := by
  unfold State.cfgErr
  repeat' with_reducible first
    | assumption | intro _ | apply State.setFld_conf | apply SameConf.ite | apply SameConf.foldl | (simp only [SameConf.mk_iff]; apply SameConf.parts) | split
    | dsimp only

theorem State.guardedField_conf {s0 : State} {s : State} (f : Nat) (off : Nat) (hi : Nat) (lo : Nat) (val : Nat) (hs : SameConf s0 s) :
    SameConf s0 (State.guardedField s f off hi lo val) := by
  unfold State.guardedField
  repeat' with_reducible first
    | assumption | intro _
    | (extract_lets +onlyGivenNames x; clear_value (hx : x = _); first | refine SameConf.bind (s := s0) hx ?_ (fun _ => ?_) | (refine SameConf.isFaults x ?_; subst hx) | skip)
    | apply State.setFld_conf | apply State.cfgErr_conf | apply SameConf.ite | apply SameConf.foldl | (simp only [SameConf.mk_iff]; apply SameConf.parts) | split
    | dsimp only

theorem State.rngInvalidate_conf {s0 : State} {s : State} (c : Nat) (hs : SameConf s0 s) :
    SameConf s0 (State.rngInvalidate s c) := by
  unfold State.rngInvalidate
  repeat' with_reducible first
    | assumption | intro _ | apply State.setFld_conf | apply SameConf.ite | apply SameConf.foldl | (simp only [SameConf.mk_iff]; apply SameConf.parts) | split
    | dsimp only

theorem State.migrateRng_conf {s0 : State} {s : State} (q : Nat) (m : Migration) (hs : SameConf s0 s) :
    SameConf s0 (State.migrateRng s q m) := by
  unfold State.migrateRng
  repeat' with_reducible first
    | assumption | intro _
    | (extract_lets +onlyGivenNames x; clear_value (hx : x = _); first | refine SameConf.bind (s := s0) hx ?_ (fun _ => ?_) | refine SameConf.bindJob (s := s0) hx ?_ (fun _ => ?_) | refine SameConf.bindRes (s := s0) hx ?_ (fun _ => ?_) | (refine SameConf.isFaults x ?_; subst hx) | skip)
    | apply State.loadLanes_conf | apply State.rngInvalidate_conf | apply State.runJob_conf | apply SameConf.ite | apply SameConf.foldl
    | (simp only [SameConf.mk_iff]; apply SameConf.parts) | apply SameConf.iteJob | apply SameConf.foldlJob | split | dsimp only

theorem State.migrateEnd_conf {s0 : State} {s : State} (q : Nat) (m : Migration) (hs : SameConf s0 s) :
    SameConf s0 (State.migrateEnd s q m) := by
  unfold State.migrateEnd
  repeat' with_reducible first
    | assumption | intro _ | apply State.refreshHeads_conf | apply State.modQueue_conf | apply State.count_conf | apply SameConf.ite | apply SameConf.foldl
    | (simp only [SameConf.mk_iff]; apply SameConf.parts) | split | dsimp only

theorem State.drainDone_conf {s0 : State} {s : State} (q : Nat) (hs : SameConf s0 s) :
    SameConf s0 (State.drainDone s q) := by
  unfold State.drainDone
  repeat' with_reducible first
    | assumption | intro _ | apply State.migrateEnd_conf | apply State.migrateRng_conf | apply SameConf.ite | apply SameConf.foldl
    | (simp only [SameConf.mk_iff]; apply SameConf.parts) | split | dsimp only

theorem execMigrationDrainDone_conf {s0 : State} (q : Nat) {s : State} (hs : SameConf s0 s) :
    SameConfR s0 (execMigrationDrainDone q s) := by
  unfold execMigrationDrainDone
  repeat' with_reducible first
    | assumption | intro _ | apply State.drainDone_conf | apply onUnit_conf | apply SameConfR.next | exact SameConfR.fault | exact SameConfR.refused
    | apply SameConfR.onUnit | apply SameConfR.ite | apply SameConf.ite | apply SameConf.foldl | (simp only [SameConf.mk_iff]; apply SameConf.parts) | split | dsimp only

theorem State.setEnabled_conf {s0 : State} {s : State} (f : Nat) (v : Nat) (hs : SameConf s0 s) :
    SameConf s0 (State.setEnabled s f v) := by
  unfold State.setEnabled
  repeat' with_reducible first
    | assumption | intro _ | apply State.setFld_conf | apply SameConf.ite | apply SameConf.foldl | (simp only [SameConf.mk_iff]; apply SameConf.parts) | split
    | dsimp only

theorem execQuery_conf {s0 : State} (func : Nat) (tier : Nat) (clear : Nat) {s : State} (hs : SameConf s0 s) :
    SameConfR s0 (execQuery func tier clear s) := by
  unfold execQuery
  repeat' with_reducible first
    | assumption | intro _ | apply onUnit_conf | apply State.granStart_conf | apply SameConfR.next | exact SameConfR.fault | exact SameConfR.refused
    | apply SameConfR.onUnit | apply SameConfR.ite | apply SameConf.ite | apply SameConf.foldl | (simp only [SameConf.mk_iff]; apply SameConf.parts) | split | dsimp only

theorem State.migrationTimeout_conf {s0 : State} {s : State} (q : Nat) (hs : SameConf s0 s) :
    SameConf s0 (State.migrationTimeout s q) := by
  unfold State.migrationTimeout
  repeat' with_reducible first
    | assumption | intro _
    | (extract_lets +onlyGivenNames x; clear_value (hx : x = _); first | refine SameConf.bind (s := s0) hx ?_ (fun _ => ?_) | (refine SameConf.isFaults x ?_; subst hx) | skip)
    | apply State.migrateEnd_conf | apply State.rngInvalidate_conf | apply SameConf.ite | apply SameConf.foldl | (simp only [SameConf.mk_iff]; apply SameConf.parts)
    | split | dsimp only

theorem execGranuleActionDone_conf {s0 : State} {s : State} (hs : SameConf s0 s) :
    SameConfR s0 (execGranuleActionDone s) := by
  unfold execGranuleActionDone
  repeat' with_reducible first
    | assumption | intro _ | apply State.granDone_conf | apply SameConfR.next | exact SameConfR.fault | exact SameConfR.refused | apply SameConfR.onUnit
    | apply SameConfR.ite | apply SameConf.ite | apply SameConf.foldl | (simp only [SameConf.mk_iff]; apply SameConf.parts) | split | dsimp only

theorem execMigrationTimeout_conf {s0 : State} (q : Nat) {s : State} (hs : SameConf s0 s) :
    SameConfR s0 (execMigrationTimeout q s) := by
  unfold execMigrationTimeout
  repeat' with_reducible first
    | assumption | intro _ | apply onUnit_conf | apply State.migrationTimeout_conf | apply SameConfR.next | exact SameConfR.fault | exact SameConfR.refused
    | apply SameConfR.onUnit | apply SameConfR.ite | apply SameConf.ite | apply SameConf.foldl | (simp only [SameConf.mk_iff]; apply SameConf.parts) | split | dsimp only

theorem execMigrate_conf {s0 : State} (f : Nat) (core : Nat) {s : State} (hs : SameConf s0 s) :
    SameConfR s0 (execMigrate f core s) := by
  unfold execMigrate
  repeat' with_reducible first
    | assumption | intro _ | apply State.migrateOn_conf | apply onUnit_conf | apply State.queueAction_conf | apply SameConfR.next | exact SameConfR.fault
    | exact SameConfR.refused | apply SameConfR.onUnit | apply SameConfR.ite | apply SameConf.ite | apply SameConf.foldl | (simp only [SameConf.mk_iff]; apply SameConf.parts)
    | split | dsimp only

theorem State.runDeferred_conf {s0 : State} {s : State} (hs : SameConf s0 s) :
    SameConf s0 (State.runDeferred s) := by
  unfold State.runDeferred
  repeat' with_reducible first
    | assumption | intro _
    | (extract_lets +onlyGivenNames x; clear_value (hx : x = _); first | refine SameConf.bind (s := s0) hx ?_ (fun _ => ?_) | (refine SameConf.isFaults x ?_; subst hx) | skip)
    | apply State.resumeOn_conf | apply State.migrateOn_conf | apply State.resetOn_conf | apply State.enableOn_conf | apply State.modQueue_conf
    | apply State.disableOn_conf | apply State.pauseOn_conf | apply SameConf.ite | apply SameConf.foldl | (simp only [SameConf.mk_iff]; apply SameConf.parts) | split
    | dsimp only

theorem State.writeEnable_conf {s0 : State} {s : State} (f : Nat) (new : Bool) (hs : SameConf s0 s) :
    SameConf s0 (State.writeEnable s f new) := by
  unfold State.writeEnable
  repeat' with_reducible first
    | assumption | intro _ | apply State.cfgErr_conf | apply State.setEnabled_conf | apply SameConf.ite | apply SameConf.foldl
    | (simp only [SameConf.mk_iff]; apply SameConf.parts) | split | dsimp only

theorem State.tenantWrite_conf {s0 : State} {s : State} (f : Nat) (off : Nat) (val : Nat) (hs : SameConf s0 s) :
    SameConf s0 (State.tenantWrite s f off val) := by
  unfold State.tenantWrite
  repeat' with_reducible first
    | assumption | intro _
    | (extract_lets +onlyGivenNames x; clear_value (hx : x = _); first | refine SameConf.bind (s := s0) hx ?_ (fun _ => ?_) | (refine SameConf.isFaults x ?_; subst hx) | skip)
    | apply State.setReg_conf | apply State.guardedField_conf | apply State.setFld_conf | apply State.writeEnable_conf | apply State.cfgErr_conf
    | apply State.refreshHeads_conf | apply State.countCores_conf | apply SameConf.ite | apply SameConf.foldl | (simp only [SameConf.mk_iff]; apply SameConf.parts)
    | split | dsimp only

theorem execTenantEntryWrite_conf {s0 : State} (f : Nat) (off : Nat) (val : Nat) {s : State} (hs : SameConf s0 s) :
    SameConfR s0 (execTenantEntryWrite f off val s) := by
  unfold execTenantEntryWrite
  repeat' with_reducible first
    | assumption | intro _ | apply onUnit_conf | apply State.tenantWrite_conf | apply SameConfR.next | exact SameConfR.fault | exact SameConfR.refused
    | apply SameConfR.onUnit | apply SameConfR.ite | apply SameConf.ite | apply SameConf.foldl | (simp only [SameConf.mk_iff]; apply SameConf.parts) | split | dsimp only

end Sys2Proof.Machine
end

