-- ==== Sys2Proof/Laws/SameConfFabric.lean ====
section
/-!
SUPPORT. What the operations of Machine/Fabric.lean leave alone (Laws/SameConf.lean).
-/

set_option linter.all false

namespace Sys2Proof.Machine

theorem State.fabCounts_conf {s0 : State} {s : State} (hs : SameConf s0 s) :
    SameConf s0 (State.fabCounts s) := by
  unfold State.fabCounts
  repeat' with_reducible first
    | assumption | intro _
    | (extract_lets +onlyGivenNames x; clear_value (hx : x = _); first | refine SameConf.bind (s := s0) hx ?_ (fun _ => ?_) | (refine SameConf.isFaults x ?_; subst hx) | skip)
    | apply State.setFld_conf | apply SameConf.ite | apply SameConf.foldl | (simp only [SameConf.mk_iff]; apply SameConf.parts) | split | dsimp only

theorem State.setLink_conf {s0 : State} {s : State} (n : Nat) (l : LinkState) (hs : SameConf s0 s) :
    SameConf s0 (State.setLink s n l) := by
  unfold State.setLink
  repeat' with_reducible first
    | assumption | intro _
    | (extract_lets +onlyGivenNames x; clear_value (hx : x = _); first | refine SameConf.bind (s := s0) hx ?_ (fun _ => ?_) | (refine SameConf.isFaults x ?_; subst hx) | skip)
    | apply SameConf.ite | apply SameConf.foldl | (simp only [SameConf.mk_iff]; apply SameConf.parts) | split | dsimp only

theorem State.modLink_conf {s0 : State} {s : State} (n : Nat) (g : LinkState → LinkState) (hs : SameConf s0 s) :
    SameConf s0 (State.modLink s n g) := by
  unfold State.modLink
  repeat' with_reducible first
    | assumption | intro _ | apply State.setLink_conf | apply SameConf.ite | apply SameConf.foldl | (simp only [SameConf.mk_iff]; apply SameConf.parts) | split
    | dsimp only

theorem State.linkTo_conf {s0 : State} {s : State} (n : Nat) (st : Nat) (hs : SameConf s0 s) :
    SameConf s0 (State.linkTo s n st) := by
  unfold State.linkTo
  repeat' with_reducible first
    | assumption | intro _
    | (extract_lets +onlyGivenNames x; clear_value (hx : x = _); first | refine SameConf.bind (s := s0) hx ?_ (fun _ => ?_) | (refine SameConf.isFaults x ?_; subst hx) | skip)
    | apply State.modLink_conf | apply State.setFld_conf | apply State.fabCounts_conf | apply State.event_conf | apply SameConf.ite | apply SameConf.foldl
    | (simp only [SameConf.mk_iff]; apply SameConf.parts) | split | dsimp only

theorem State.queueOn_conf {s0 : State} {s : State} (n : Nat) (cls : Nat) (m : FabMsg) (hs : SameConf s0 s) :
    SameConf s0 (State.queueOn s n cls m) := by
  unfold State.queueOn
  repeat' with_reducible first
    | assumption | intro _ | apply State.modLink_conf | apply SameConf.ite | apply SameConf.foldl | (simp only [SameConf.mk_iff]; apply SameConf.parts) | split
    | dsimp only

theorem State.dropTraffic_conf {s0 : State} {s : State} (n : Nat) (hs : SameConf s0 s) :
    SameConf s0 (State.dropTraffic s n) := by
  unfold State.dropTraffic
  repeat' with_reducible first
    | assumption | intro _ | apply State.modLink_conf | apply SameConf.ite | apply SameConf.foldl | (simp only [SameConf.mk_iff]; apply SameConf.parts) | split
    | dsimp only

theorem State.quarantine_conf {s0 : State} {s : State} (n : Nat) (reason : Nat) (hs : SameConf s0 s) :
    SameConf s0 (State.quarantine s n reason) := by
  unfold State.quarantine
  repeat' with_reducible first
    | assumption | intro _
    | (extract_lets +onlyGivenNames x; clear_value (hx : x = _); first | refine SameConf.bind (s := s0) hx ?_ (fun _ => ?_) | (refine SameConf.isFaults x ?_; subst hx) | skip)
    | apply State.modLink_conf | apply State.dropTraffic_conf | apply State.setFld_conf | apply State.tally_conf | apply State.linkTo_conf
    | apply State.raiseVector_conf | apply State.release_conf | apply SameConf.ite | apply SameConf.foldl | (simp only [SameConf.mk_iff]; apply SameConf.parts)
    | split | dsimp only

theorem State.malformed_conf {s0 : State} {s : State} (n : Nat) (hs : SameConf s0 s) :
    SameConf s0 (State.malformed s n) := by
  unfold State.malformed
  repeat' with_reducible first
    | assumption | intro _
    | (extract_lets +onlyGivenNames x; clear_value (hx : x = _); first | refine SameConf.bind (s := s0) hx ?_ (fun _ => ?_) | (refine SameConf.isFaults x ?_; subst hx) | skip)
    | apply State.setLink_conf | apply State.quarantine_conf | apply State.count_conf | apply SameConf.ite | apply SameConf.foldl
    | (simp only [SameConf.mk_iff]; apply SameConf.parts) | split | dsimp only

theorem State.transmit_conf {s0 : State} {s : State} (m : FabMsg) (k0 : Nat) (c0 : Nat) (hs : SameConf s0 s) :
    SameConf s0 (State.transmit s m k0 c0) := by
  unfold State.transmit
  repeat' with_reducible first
    | assumption | intro _ | apply State.queueOn_conf | apply State.count_conf | apply SameConf.ite | apply SameConf.foldl
    | (simp only [SameConf.mk_iff]; apply SameConf.parts) | split | dsimp only

theorem State.sendMsg_conf {s0 : State} {s : State} (m : FabMsg) (hs : SameConf s0 s) :
    SameConf s0 (State.sendMsg s m) := by
  unfold State.sendMsg
  repeat' with_reducible first
    | assumption | intro _
    | (extract_lets +onlyGivenNames x; clear_value (hx : x = _); first | refine SameConf.bind (s := s0) hx ?_ (fun _ => ?_) | (refine SameConf.isFaults x ?_; subst hx) | skip)
    | apply State.transmit_conf | apply SameConf.ite | apply SameConf.foldl | (simp only [SameConf.mk_iff]; apply SameConf.parts) | split | dsimp only

theorem State.sendLocal_conf {s0 : State} {s : State} (n : Nat) (mtype : Nat) (data : List Byte) (hs : SameConf s0 s) :
    SameConf s0 (State.sendLocal s n mtype data) := by
  unfold State.sendLocal
  repeat' with_reducible first
    | assumption | intro _ | apply State.queueOn_conf | apply SameConf.ite | apply SameConf.foldl | (simp only [SameConf.mk_iff]; apply SameConf.parts) | split
    | dsimp only

theorem State.takeMsg_conf {s0 : State} {s : State} (k : Nat) (t : Nat) (hs : SameConf s0 s) :
    SameConfO (fun x => x.2.2) s0 (State.takeMsg s k t) := by
  unfold State.takeMsg
  repeat' with_reducible first
    | assumption | intro _
    | (extract_lets +onlyGivenNames x; clear_value (hx : x = _); first | refine SameConf.bind (s := s0) hx ?_ (fun _ => ?_) | (refine SameConf.isFaults x ?_; subst hx) | skip)
    | exact SameConfO.none | apply SameConfO.some | apply SameConfO.ite | apply SameConf.ite | apply SameConf.foldl | (simp only [SameConf.mk_iff]; apply SameConf.parts)
    | refine SameConf.optEq3 (by assumption) ?_ | split | dsimp only

theorem execMessageForward_conf {s0 : State} (k : Nat) {s : State} (hs : SameConf s0 s) :
    SameConfR s0 (execMessageForward k s) := by
  unfold execMessageForward
  repeat' with_reducible first
    | assumption | intro _
    | (extract_lets +onlyGivenNames x; clear_value (hx : x = _); first | refine SameConf.bind (s := s0) hx ?_ (fun _ => ?_) | (refine SameConf.isFaults x ?_; subst hx) | skip)
    | apply State.transmit_conf | apply SameConfR.next | exact SameConfR.fault | exact SameConfR.refused | apply SameConfR.onUnit | apply SameConfR.ite | apply SameConf.ite
    | apply SameConf.foldl | (simp only [SameConf.mk_iff]; apply SameConf.parts) | split | dsimp only

theorem State.onMsg_conf {s0 : State} {s : State} (k : Nat) (t : Nat) (f : State → Nat → FabMsg → State) (hs : SameConf s0 s) (hf : ∀ y0 y1 y2, SameConf s0 y0 → SameConf s0 (f y0 y1 y2)) :
    SameConfR s0 (State.onMsg s k t f) := by
  unfold State.onMsg
  repeat' with_reducible first
    | assumption | intro _ | apply State.takeMsg_conf | apply hf | apply SameConfR.next | exact SameConfR.fault | exact SameConfR.refused | apply SameConfR.onUnit
    | apply SameConfR.ite | apply SameConf.ite | apply SameConf.foldl | (simp only [SameConf.mk_iff]; apply SameConf.parts) | refine SameConf.optEq3 (by assumption) ?_
    | split | dsimp only

theorem State.keyViolation_conf {s0 : State} {s : State} (n : Nat) (hs : SameConf s0 s) :
    SameConf s0 (State.keyViolation s n) := by
  unfold State.keyViolation
  repeat' with_reducible first
    | assumption | intro _
    | (extract_lets +onlyGivenNames x; clear_value (hx : x = _); first | refine SameConf.bind (s := s0) hx ?_ (fun _ => ?_) | (refine SameConf.isFaults x ?_; subst hx) | skip)
    | apply State.setLink_conf | apply State.quarantine_conf | apply State.count_conf | apply SameConf.ite | apply SameConf.foldl
    | (simp only [SameConf.mk_iff]; apply SameConf.parts) | split | dsimp only

theorem State.linkBook_conf {s0 : State} {s : State} (n : Nat) (ca : Nat) (hs : SameConf s0 s) :
    SameConf s0 (State.linkBook s n ca) := by
  unfold State.linkBook
  repeat' with_reducible first
    | assumption | intro _
    | (extract_lets +onlyGivenNames x; clear_value (hx : x = _); first | refine SameConf.bind (s := s0) hx ?_ (fun _ => ?_) | (refine SameConf.isFaults x ?_; subst hx) | skip)
    | apply State.askSys_conf | apply State.release_conf | apply SameConf.ite | apply SameConf.foldl | (simp only [SameConf.mk_iff]; apply SameConf.parts) | split
    | dsimp only

theorem State.deliver_conf {s0 : State} {s : State} (n : Nat) (cls : Nat) (m : FabMsg) (hs : SameConf s0 s) :
    SameConf s0 (State.deliver s n cls m) := by
  unfold State.deliver
  repeat' with_reducible first
    | assumption | intro _
    | (extract_lets +onlyGivenNames x; clear_value (hx : x = _); first | refine SameConf.bind (s := s0) hx ?_ (fun _ => ?_) | (refine SameConf.isFaults x ?_; subst hx) | skip)
    | apply State.keyViolation_conf | apply State.count_conf | apply SameConf.ite | apply SameConf.foldl | (simp only [SameConf.mk_iff]; apply SameConf.parts) | split
    | dsimp only

end Sys2Proof.Machine
end

