-- ==== Sys2Proof/Laws/SameConfLinks.lean ====
section
/-!
SUPPORT. What the operations of Machine/Links.lean leave alone (Laws/SameConf.lean).
-/

set_option linter.all false

namespace Sys2Proof.Machine

theorem execLinkNoisyClear_conf {s0 : State} (n : Nat) {s : State} (hs : SameConf s0 s) :
    SameConfR s0 (execLinkNoisyClear n s) := by
  unfold execLinkNoisyClear
  repeat' with_reducible first
    | assumption | intro _ | apply State.setFld_conf | apply onUnit_conf | apply SameConfR.next | exact SameConfR.fault | exact SameConfR.refused
    | apply SameConfR.onUnit | apply SameConfR.ite | apply SameConf.ite | apply SameConf.foldl | (simp only [SameConf.mk_iff]; apply SameConf.parts) | split | dsimp only

theorem State.releaseLink_conf {s0 : State} {s : State} (n : Nat) (hs : SameConf s0 s) :
    SameConf s0 (State.releaseLink s n) := by
  unfold State.releaseLink
  repeat' with_reducible first
    | assumption | intro _
    | (extract_lets +onlyGivenNames x; clear_value (hx : x = _); first | refine SameConf.bind (s := s0) hx ?_ (fun _ => ?_) | (refine SameConf.isFaults x ?_; subst hx) | skip)
    | apply State.setFld_conf | apply State.linkBook_conf | apply State.linkTo_conf | apply SameConf.ite | apply SameConf.foldl
    | (simp only [SameConf.mk_iff]; apply SameConf.parts) | split | dsimp only

theorem State.sendLinkpar_conf {s0 : State} {s : State} (n : Nat) (hs : SameConf s0 s) :
    SameConf s0 (State.sendLinkpar s n) := by
  unfold State.sendLinkpar
  repeat' with_reducible first
    | assumption | intro _
    | (extract_lets +onlyGivenNames x; clear_value (hx : x = _); first | refine SameConf.bind (s := s0) hx ?_ (fun _ => ?_) | (refine SameConf.isFaults x ?_; subst hx) | skip)
    | apply State.sendLocal_conf | apply SameConf.ite | apply SameConf.foldl | (simp only [SameConf.mk_iff]; apply SameConf.parts) | split | dsimp only

theorem State.sendSpdm_conf {s0 : State} {s : State} (n : Nat) (k : Nat) (hs : SameConf s0 s) :
    SameConf s0 (State.sendSpdm s n k) := by
  unfold State.sendSpdm
  repeat' with_reducible first
    | assumption | intro _ | apply State.modLink_conf | apply State.sendLocal_conf | apply SameConf.ite | apply SameConf.foldl | (simp only [SameConf.mk_iff]; apply SameConf.parts) | split
    | dsimp only

theorem execSpdmResponseTimeout_conf {s0 : State} (n : Nat) {s : State} (hs : SameConf s0 s) :
    SameConfR s0 (execSpdmResponseTimeout n s) := by
  unfold execSpdmResponseTimeout
  repeat' with_reducible first
    | assumption | intro _
    | (extract_lets +onlyGivenNames x; clear_value (hx : x = _); first | refine SameConf.bind (s := s0) hx ?_ (fun _ => ?_) | (refine SameConf.isFaults x ?_; subst hx) | skip)
    | apply State.sendLinkpar_conf | apply State.sendSpdm_conf | apply onUnit_conf | apply State.setLink_conf | apply State.quarantine_conf
    | apply SameConfR.next | exact SameConfR.fault | exact SameConfR.refused | apply SameConfR.onUnit | apply SameConfR.ite | apply SameConf.ite | apply SameConf.foldl
    | (simp only [SameConf.mk_iff]; apply SameConf.parts) | split | dsimp only

theorem State.linkAbsent_conf {s0 : State} {s : State} (n : Nat) (hs : SameConf s0 s) :
    SameConf s0 (State.linkAbsent s n) := by
  unfold State.linkAbsent
  repeat' with_reducible first
    | assumption | intro _
    | (extract_lets +onlyGivenNames x; clear_value (hx : x = _); first | refine SameConf.bind (s := s0) hx ?_ (fun _ => ?_) | (refine SameConf.isFaults x ?_; subst hx) | skip)
    | apply State.dropTraffic_conf | apply State.setFld_conf | apply State.linkBook_conf | apply State.linkTo_conf | apply State.release_conf
    | apply SameConf.ite | apply SameConf.foldl | (simp only [SameConf.mk_iff]; apply SameConf.parts) | split | dsimp only

theorem execSignalLossTimeout_conf {s0 : State} (n : Nat) {s : State} (hs : SameConf s0 s) :
    SameConfR s0 (execSignalLossTimeout n s) := by
  unfold execSignalLossTimeout
  repeat' with_reducible first
    | assumption | intro _ | apply State.linkAbsent_conf | apply onUnit_conf | apply SameConfR.next | exact SameConfR.fault | exact SameConfR.refused
    | apply SameConfR.onUnit | apply SameConfR.ite | apply SameConf.ite | apply SameConf.foldl | (simp only [SameConf.mk_iff]; apply SameConf.parts) | split | dsimp only

theorem State.retrain_conf {s0 : State} {s : State} (n : Nat) (all : Bool) (request : Bool) (hs : SameConf s0 s) :
    SameConf s0 (State.retrain s n all request) := by
  unfold State.retrain
  repeat' with_reducible first
    | assumption | intro _
    | (extract_lets +onlyGivenNames x; clear_value (hx : x = _); first | refine SameConf.bind (s := s0) hx ?_ (fun _ => ?_) | (refine SameConf.isFaults x ?_; subst hx) | skip)
    | apply State.modLink_conf | apply State.setFld_conf | apply State.askSys_conf | apply State.count_conf | apply SameConf.ite | apply SameConf.foldl
    | (simp only [SameConf.mk_iff]; apply SameConf.parts) | split | dsimp only

theorem execRetrain_conf {s0 : State} (n : Nat) {s : State} (hs : SameConf s0 s) :
    SameConfR s0 (execRetrain n s) := by
  unfold execRetrain
  repeat' with_reducible first
    | assumption | intro _ | apply onUnit_conf | apply State.retrain_conf | apply SameConfR.next | exact SameConfR.fault | exact SameConfR.refused
    | apply SameConfR.onUnit | apply SameConfR.ite | apply SameConf.ite | apply SameConf.foldl | (simp only [SameConf.mk_iff]; apply SameConf.parts) | split | dsimp only

theorem State.freshLink_conf {s0 : State} {s : State} (n : Nat) (hs : SameConf s0 s) :
    SameConf s0 (State.freshLink s n) := by
  unfold State.freshLink
  repeat' with_reducible first
    | assumption | intro _ | apply State.modLink_conf | apply SameConf.ite | apply SameConf.foldl | (simp only [SameConf.mk_iff]; apply SameConf.parts) | split
    | dsimp only

theorem State.startTraining_conf {s0 : State} {s : State} (n : Nat) (hs : SameConf s0 s) :
    SameConf s0 (State.startTraining s n) := by
  unfold State.startTraining
  repeat' with_reducible first
    | assumption | intro _
    | (extract_lets +onlyGivenNames x; clear_value (hx : x = _); first | refine SameConf.bind (s := s0) hx ?_ (fun _ => ?_) | (refine SameConf.isFaults x ?_; subst hx) | skip)
    | apply State.linkBook_conf | apply State.linkTo_conf | apply SameConf.ite | apply SameConf.foldl | (simp only [SameConf.mk_iff]; apply SameConf.parts) | split
    | dsimp only

theorem State.setLanes_conf {s0 : State} {s : State} (n : Nat) (tried : Nat) (mask : Nat) (w : Nat) (hs : SameConf s0 s) :
    SameConf s0 (State.setLanes s n tried mask w) := by
  unfold State.setLanes
  repeat' with_reducible first
    | assumption | intro _
    | (extract_lets +onlyGivenNames x; clear_value (hx : x = _); first | refine SameConf.bind (s := s0) hx ?_ (fun _ => ?_) | (refine SameConf.isFaults x ?_; subst hx) | skip)
    | apply State.setFld_conf | apply SameConf.ite | apply SameConf.foldl | (simp only [SameConf.mk_iff]; apply SameConf.parts) | split | dsimp only

theorem State.retrainComplete_conf {s0 : State} {s : State} (n : Nat) (lanes : Nat) (hs : SameConf s0 s) :
    SameConf s0 (State.retrainComplete s n lanes) := by
  unfold State.retrainComplete
  repeat' with_reducible first
    | assumption | intro _
    | (extract_lets +onlyGivenNames x; clear_value (hx : x = _); first | refine SameConf.bind (s := s0) hx ?_ (fun _ => ?_) | (refine SameConf.isFaults x ?_; subst hx) | skip)
    | apply State.modLink_conf | apply State.setLanes_conf | apply State.linkAbsent_conf | apply State.setFld_conf | apply State.linkTo_conf
    | apply State.release_conf | apply SameConf.ite | apply SameConf.foldl | (simp only [SameConf.mk_iff]; apply SameConf.parts) | split | dsimp only

theorem State.parseStream_conf {s0 : State} {s : State} (n : Nat) (p : Nat) (x4 : Nat) (x5 : List Byte) (hs : SameConf s0 s) :
    SameConf s0 (State.parseStream s n p x4 x5) := by
  induction x4 generalizing s n p x5 with
  | zero =>
    unfold State.parseStream
    repeat' with_reducible first
      | assumption | intro _ | apply State.modLink_conf | apply State.malformed_conf | apply State.deliver_conf | apply SameConf.ite
      | apply SameConf.foldl | (simp only [SameConf.mk_iff]; apply SameConf.parts) | split | dsimp only
  | succ m ih =>
    unfold State.parseStream
    repeat' with_reducible first
      | assumption | intro _ | apply State.modLink_conf | apply State.malformed_conf | apply State.deliver_conf | apply ih | apply SameConf.ite
      | apply SameConf.foldl | (simp only [SameConf.mk_iff]; apply SameConf.parts) | split | dsimp only

theorem State.takeData_conf {s0 : State} {s : State} (n : Nat) (h : Nat) (payload : List Byte) (hs : SameConf s0 s) :
    SameConf s0 (State.takeData s n h payload) := by
  unfold State.takeData
  repeat' with_reducible first
    | assumption | intro _
    | (extract_lets +onlyGivenNames x; clear_value (hx : x = _); first | refine SameConf.bind (s := s0) hx ?_ (fun _ => ?_) | (refine SameConf.isFaults x ?_; subst hx) | skip)
    | apply State.parseStream_conf | apply State.setLink_conf | apply State.count_conf | apply SameConf.ite | apply SameConf.foldl
    | (simp only [SameConf.mk_iff]; apply SameConf.parts) | split | dsimp only

theorem State.takeFlit_conf {s0 : State} {s : State} (n : Nat) (h : Nat) (payload : List Byte) (hs : SameConf s0 s) :
    SameConf s0 (State.takeFlit s n h payload) := by
  unfold State.takeFlit
  repeat' with_reducible first
    | assumption | intro _
    | (extract_lets +onlyGivenNames x; clear_value (hx : x = _); first | refine SameConf.bind (s := s0) hx ?_ (fun _ => ?_) | (refine SameConf.isFaults x ?_; subst hx) | skip)
    | apply State.setFld_conf | apply State.takeData_conf | apply State.setLink_conf | apply State.quarantine_conf | apply State.retrain_conf
    | apply SameConf.ite | apply SameConf.foldl | (simp only [SameConf.mk_iff]; apply SameConf.parts) | split | dsimp only

theorem State.sendFlit_conf {s0 : State} {s : State} (n : Nat) (typ : Nat) (vc : Nat) (cls : Nat) (replay : Nat) (seq : Nat) (paylen : Nat) (payload : List Byte) (hs : SameConf s0 s) :
    SameConf s0 (State.sendFlit s n typ vc cls replay seq paylen payload) := by
  unfold State.sendFlit
  repeat' with_reducible first
    | assumption | intro _
    | (extract_lets +onlyGivenNames x; clear_value (hx : x = _); first | refine SameConf.bind (s := s0) hx ?_ (fun _ => ?_) | (refine SameConf.isFaults x ?_; subst hx) | skip)
    | apply State.setLink_conf | apply State.send_conf | apply SameConf.ite | apply SameConf.foldl | (simp only [SameConf.mk_iff]; apply SameConf.parts) | split
    | dsimp only

theorem State.sendData_conf {s0 : State} {s : State} (n : Nat) (p : Nat) (o : Sorter) (hs : SameConf s0 s) :
    SameConf s0 (State.sendData s n p o) := by
  unfold State.sendData
  repeat' with_reducible first
    | assumption | intro _
    | (extract_lets +onlyGivenNames x; clear_value (hx : x = _); first | refine SameConf.bind (s := s0) hx ?_ (fun _ => ?_) | (refine SameConf.isFaults x ?_; subst hx) | skip)
    | apply State.sendFlit_conf | apply State.setLink_conf | apply State.count_conf | apply SameConf.ite | apply SameConf.foldl
    | (simp only [SameConf.mk_iff]; apply SameConf.parts) | split | dsimp only

theorem State.sendReplay_conf {s0 : State} {s : State} (n : Nat) (k : Nat) (hs : SameConf s0 s) :
    SameConf s0 (State.sendReplay s n k) := by
  unfold State.sendReplay
  repeat' with_reducible first
    | assumption | intro _
    | (extract_lets +onlyGivenNames x; clear_value (hx : x = _); first | refine SameConf.bind (s := s0) hx ?_ (fun _ => ?_) | (refine SameConf.isFaults x ?_; subst hx) | skip)
    | apply State.sendFlit_conf | apply State.setLink_conf | apply State.count_conf | apply SameConf.ite | apply SameConf.foldl
    | (simp only [SameConf.mk_iff]; apply SameConf.parts) | split | dsimp only

theorem State.flitTransmit_conf {s0 : State} {s : State} (n : Nat) (hs : SameConf s0 s) :
    SameConf s0 (State.flitTransmit s n) := by
  unfold State.flitTransmit
  repeat' with_reducible first
    | assumption | intro _
    | (extract_lets +onlyGivenNames x; clear_value (hx : x = _); first | refine SameConf.bind (s := s0) hx ?_ (fun _ => ?_) | (refine SameConf.isFaults x ?_; subst hx) | skip)
    | apply State.sendData_conf | apply State.sendFlit_conf | apply State.sendReplay_conf | apply State.setLink_conf | apply SameConf.ite | apply SameConf.foldl
    | (simp only [SameConf.mk_iff]; apply SameConf.parts) | split | dsimp only

theorem execFlitTransmit_conf {s0 : State} (n : Nat) {s : State} (hs : SameConf s0 s) :
    SameConfR s0 (execFlitTransmit n s) := by
  unfold execFlitTransmit
  repeat' with_reducible first
    | assumption | intro _ | apply onUnit_conf | apply State.flitTransmit_conf | apply SameConfR.next | exact SameConfR.fault | exact SameConfR.refused
    | apply SameConfR.onUnit | apply SameConfR.ite | apply SameConf.ite | apply SameConf.foldl | (simp only [SameConf.mk_iff]; apply SameConf.parts) | split | dsimp only

theorem State.countSymbols_conf {s0 : State} {s : State} (n : Nat) (syms : List Nat) (hs : SameConf s0 s) :
    SameConf s0 (State.countSymbols s n syms) := by
  unfold State.countSymbols
  repeat' with_reducible first
    | assumption | intro _ | apply State.count_conf | apply SameConf.ite | apply SameConf.foldl | (simp only [SameConf.mk_iff]; apply SameConf.parts) | split
    | dsimp only

theorem execRelease_conf {s0 : State} (n : Nat) {s : State} (hs : SameConf s0 s) :
    SameConfR s0 (execRelease n s) := by
  unfold execRelease
  repeat' with_reducible first
    | assumption | intro _ | apply State.releaseLink_conf | apply onUnit_conf | apply SameConfR.next | exact SameConfR.fault | exact SameConfR.refused
    | apply SameConfR.onUnit | apply SameConfR.ite | apply SameConf.ite | apply SameConf.foldl | (simp only [SameConf.mk_iff]; apply SameConf.parts) | split | dsimp only

theorem State.authAbandon_conf {s0 : State} {s : State} (hs : SameConf s0 s) :
    SameConf s0 (State.authAbandon s) := by
  unfold State.authAbandon
  repeat' with_reducible first
    | assumption | intro _ | apply State.modLink_conf | apply SameConf.ite | apply SameConf.foldl | (simp only [SameConf.mk_iff]; apply SameConf.parts) | split | dsimp only

theorem State.authAgain_conf {s0 : State} {s : State} (hs : SameConf s0 s) :
    SameConf s0 (State.authAgain s) := by
  unfold State.authAgain
  repeat' with_reducible first
    | assumption | intro _ | apply State.sendSpdm_conf | apply State.modLink_conf | apply SameConf.ite | apply SameConf.foldl
    | (simp only [SameConf.mk_iff]; apply SameConf.parts) | split | dsimp only

theorem execAuthTimeout_conf {s0 : State} (n : Nat) {s : State} (hs : SameConf s0 s) :
    SameConfR s0 (execAuthTimeout n s) := by
  unfold execAuthTimeout
  repeat' with_reducible first
    | assumption | intro _ | apply onUnit_conf | apply State.quarantine_conf | apply SameConfR.next | exact SameConfR.fault | exact SameConfR.refused
    | apply SameConfR.onUnit | apply SameConfR.ite | apply SameConf.ite | apply SameConf.foldl | (simp only [SameConf.mk_iff]; apply SameConf.parts) | split | dsimp only

theorem State.spdmReceive_conf {s0 : State} {s : State} (n : Nat) (verdict : Nat) (hs : SameConf s0 s) :
    SameConf s0 (State.spdmReceive s n verdict) := by
  unfold State.spdmReceive
  repeat' with_reducible first
    | assumption | intro _
    | (extract_lets +onlyGivenNames x; clear_value (hx : x = _); first | refine SameConf.bind (s := s0) hx ?_ (fun _ => ?_) | (refine SameConf.isFaults x ?_; subst hx) | skip)
    | apply State.sendLinkpar_conf | apply State.sendSpdm_conf | apply State.setLink_conf | apply State.quarantine_conf | apply SameConf.ite
    | apply SameConf.foldl | (simp only [SameConf.mk_iff]; apply SameConf.parts) | split | dsimp only

theorem execSpdm_conf {s0 : State} (n : Nat) (verdict : Nat) {s : State} (hs : SameConf s0 s) :
    SameConfR s0 (execSpdm n verdict s) := by
  unfold execSpdm
  repeat' with_reducible first
    | assumption | intro _ | apply State.spdmReceive_conf | apply onUnit_conf | apply SameConfR.next | exact SameConfR.fault | exact SameConfR.refused
    | apply SameConfR.onUnit | apply SameConfR.ite | apply SameConf.ite | apply SameConf.foldl | (simp only [SameConf.mk_iff]; apply SameConf.parts) | split | dsimp only

theorem execLaneFailure_conf {s0 : State} (n : Nat) (lane : Nat) {s : State} (hs : SameConf s0 s) :
    SameConfR s0 (execLaneFailure n lane s) := by
  unfold execLaneFailure
  repeat' with_reducible first
    | assumption | intro _ | apply State.setFld_conf | apply onUnit_conf | apply State.retrain_conf | apply SameConfR.next | exact SameConfR.fault
    | exact SameConfR.refused | apply SameConfR.onUnit | apply SameConfR.ite | apply SameConf.ite | apply SameConf.foldl | (simp only [SameConf.mk_iff]; apply SameConf.parts)
    | split | dsimp only

theorem execNakRepeat_conf {s0 : State} (n : Nat) {s : State} (hs : SameConf s0 s) :
    SameConfR s0 (execNakRepeat n s) := by
  unfold execNakRepeat
  repeat' with_reducible first
    | assumption | intro _ | apply State.modLink_conf | apply onUnit_conf | apply SameConfR.next | exact SameConfR.fault | exact SameConfR.refused
    | apply SameConfR.onUnit | apply SameConfR.ite | apply SameConf.ite | apply SameConf.foldl | (simp only [SameConf.mk_iff]; apply SameConf.parts) | split | dsimp only

theorem execRetrainComplete_conf {s0 : State} (n : Nat) (lanes : Nat) {s : State} (hs : SameConf s0 s) :
    SameConfR s0 (execRetrainComplete n lanes s) := by
  unfold execRetrainComplete
  repeat' with_reducible first
    | assumption | intro _ | apply State.retrainComplete_conf | apply onUnit_conf | apply SameConfR.next | exact SameConfR.fault | exact SameConfR.refused
    | apply SameConfR.onUnit | apply SameConfR.ite | apply SameConf.ite | apply SameConf.foldl | (simp only [SameConf.mk_iff]; apply SameConf.parts) | split | dsimp only

theorem State.flitReceive_conf {s0 : State} {s : State} (n : Nat) (flit : List Byte) (corr : Nat) (unc : Nat) (syms : List Nat) (hs : SameConf s0 s) :
    SameConf s0 (State.flitReceive s n flit corr unc syms) := by
  unfold State.flitReceive
  repeat' with_reducible first
    | assumption | intro _
    | (extract_lets +onlyGivenNames x; clear_value (hx : x = _); first | refine SameConf.bind (s := s0) hx ?_ (fun _ => ?_) | (refine SameConf.isFaults x ?_; subst hx) | skip)
    | apply State.modLink_conf | apply State.countSymbols_conf | apply State.malformed_conf | apply State.count_conf | apply State.takeFlit_conf
    | apply SameConf.ite | apply SameConf.foldl | (simp only [SameConf.mk_iff]; apply SameConf.parts) | split | dsimp only

theorem execFlitReceive_conf {s0 : State} (n : Nat) (flit : List Byte) (corr : Nat) (unc : Nat) (syms : List Nat) {s : State} (hs : SameConf s0 s) :
    SameConfR s0 (execFlitReceive n flit corr unc syms s) := by
  unfold execFlitReceive
  repeat' with_reducible first
    | assumption | intro _ | apply State.flitReceive_conf | apply onUnit_conf | apply SameConfR.next | exact SameConfR.fault | exact SameConfR.refused
    | apply SameConfR.onUnit | apply SameConfR.ite | apply SameConf.ite | apply SameConf.foldl | (simp only [SameConf.mk_iff]; apply SameConf.parts) | split | dsimp only

theorem execTrainingRetry_conf {s0 : State} (n : Nat) {s : State} (hs : SameConf s0 s) :
    SameConfR s0 (execTrainingRetry n s) := by
  unfold execTrainingRetry
  repeat' with_reducible first
    | assumption | intro _ | apply State.modLink_conf | apply State.startTraining_conf | apply onUnit_conf | apply SameConfR.next | exact SameConfR.fault
    | exact SameConfR.refused | apply SameConfR.onUnit | apply SameConfR.ite | apply SameConf.ite | apply SameConf.foldl | (simp only [SameConf.mk_iff]; apply SameConf.parts)
    | split | dsimp only

theorem execNakReceive_conf {s0 : State} (n : Nat) {s : State} (hs : SameConf s0 s) :
    SameConfR s0 (execNakReceive n s) := by
  unfold execNakReceive
  repeat' with_reducible first
    | assumption | intro _ | apply State.modLink_conf | apply onUnit_conf | apply State.count_conf | apply SameConfR.next | exact SameConfR.fault
    | exact SameConfR.refused | apply SameConfR.onUnit | apply SameConfR.ite | apply SameConf.ite | apply SameConf.foldl | (simp only [SameConf.mk_iff]; apply SameConf.parts)
    | split | dsimp only

theorem State.linkpar_conf {s0 : State} {s : State} (n : Nat) (p : LinkPar) (hs : SameConf s0 s) :
    SameConf s0 (State.linkpar s n p) := by
  unfold State.linkpar
  repeat' with_reducible first
    | assumption | intro _
    | (extract_lets +onlyGivenNames x; clear_value (hx : x = _); first | refine SameConf.bind (s := s0) hx ?_ (fun _ => ?_) | (refine SameConf.isFaults x ?_; subst hx) | skip)
    | apply State.modLink_conf | apply State.setFld_conf | apply State.linkTo_conf | apply State.quarantine_conf | apply SameConf.ite | apply SameConf.foldl
    | (simp only [SameConf.mk_iff]; apply SameConf.parts) | split | dsimp only

theorem execLinkpar_conf {s0 : State} (n : Nat) (p : LinkPar) {s : State} (hs : SameConf s0 s) :
    SameConfR s0 (execLinkpar n p s) := by
  unfold execLinkpar
  repeat' with_reducible first
    | assumption | intro _ | apply onUnit_conf | apply State.linkpar_conf | apply SameConfR.next | exact SameConfR.fault | exact SameConfR.refused
    | apply SameConfR.onUnit | apply SameConfR.ite | apply SameConf.ite | apply SameConf.foldl | (simp only [SameConf.mk_iff]; apply SameConf.parts) | split | dsimp only

theorem execLinkSignalDetect_conf {s0 : State} (n : Nat) {s : State} (hs : SameConf s0 s) :
    SameConfR s0 (execLinkSignalDetect n s) := by
  unfold execLinkSignalDetect
  repeat' with_reducible first
    | assumption | intro _ | apply State.startTraining_conf | apply onUnit_conf | apply State.count_conf | apply SameConfR.next | exact SameConfR.fault
    | exact SameConfR.refused | apply SameConfR.onUnit | apply SameConfR.ite | apply SameConf.ite | apply SameConf.foldl | (simp only [SameConf.mk_iff]; apply SameConf.parts)
    | split | dsimp only

theorem State.trainingComplete_conf {s0 : State} {s : State} (n : Nat) (lanes : Nat) (hs : SameConf s0 s) :
    SameConf s0 (State.trainingComplete s n lanes) := by
  unfold State.trainingComplete
  repeat' with_reducible first
    | assumption | intro _
    | (extract_lets +onlyGivenNames x; clear_value (hx : x = _); first | refine SameConf.bind (s := s0) hx ?_ (fun _ => ?_) | (refine SameConf.isFaults x ?_; subst hx) | skip)
    | apply State.setLanes_conf | apply State.freshLink_conf | apply State.sendSpdm_conf | apply State.linkBook_conf | apply State.linkTo_conf
    | apply SameConf.ite | apply SameConf.foldl | (simp only [SameConf.mk_iff]; apply SameConf.parts) | split | dsimp only

theorem execTrainingComplete_conf {s0 : State} (n : Nat) (lanes : Nat) {s : State} (hs : SameConf s0 s) :
    SameConfR s0 (execTrainingComplete n lanes s) := by
  unfold execTrainingComplete
  repeat' with_reducible first
    | assumption | intro _ | apply onUnit_conf | apply State.trainingComplete_conf | apply SameConfR.next | exact SameConfR.fault | exact SameConfR.refused
    | apply SameConfR.onUnit | apply SameConfR.ite | apply SameConf.ite | apply SameConf.foldl | (simp only [SameConf.mk_iff]; apply SameConf.parts) | split | dsimp only

theorem execLinkNoisy_conf {s0 : State} (n : Nat) {s : State} (hs : SameConf s0 s) :
    SameConfR s0 (execLinkNoisy n s) := by
  unfold execLinkNoisy
  repeat' with_reducible first
    | assumption | intro _ | apply State.setFld_conf | apply onUnit_conf | apply State.event_conf | apply SameConfR.next | exact SameConfR.fault
    | exact SameConfR.refused | apply SameConfR.onUnit | apply SameConfR.ite | apply SameConf.ite | apply SameConf.foldl | (simp only [SameConf.mk_iff]; apply SameConf.parts)
    | split | dsimp only

theorem execMgtStallQuarantine_conf {s0 : State} (n : Nat) {s : State} (hs : SameConf s0 s) :
    SameConfR s0 (execMgtStallQuarantine n s) := by
  unfold execMgtStallQuarantine
  repeat' with_reducible first
    | assumption | intro _
    | (extract_lets +onlyGivenNames x; clear_value (hx : x = _); first | refine SameConf.bind (s := s0) hx ?_ (fun _ => ?_) | (refine SameConf.isFaults x ?_; subst hx) | skip)
    | apply onUnit_conf | apply State.quarantine_conf | apply SameConfR.next | exact SameConfR.fault | exact SameConfR.refused | apply SameConfR.onUnit
    | apply SameConfR.ite | apply SameConf.ite | apply SameConf.foldl | (simp only [SameConf.mk_iff]; apply SameConf.parts) | split | dsimp only

theorem State.linkBeat_conf {s0 : State} {s : State} (n : Nat) (hs : SameConf s0 s) :
    SameConf s0 (State.linkBeat s n) := by
  unfold State.linkBeat
  repeat' with_reducible first
    | assumption | intro _
    | (extract_lets +onlyGivenNames x; clear_value (hx : x = _); first | refine SameConf.bind (s := s0) hx ?_ (fun _ => ?_) | (refine SameConf.isFaults x ?_; subst hx) | skip)
    | apply State.setLink_conf | apply State.count_conf | apply SameConf.ite | apply SameConf.foldl | (simp only [SameConf.mk_iff]; apply SameConf.parts) | split
    | dsimp only

theorem execTrainingTimeout_conf {s0 : State} (n : Nat) {s : State} (hs : SameConf s0 s) :
    SameConfR s0 (execTrainingTimeout n s) := by
  unfold execTrainingTimeout
  repeat' with_reducible first
    | assumption | intro _ | apply State.modLink_conf | apply State.setLanes_conf | apply State.linkBook_conf | apply onUnit_conf
    | apply State.linkTo_conf | apply SameConfR.next | exact SameConfR.fault | exact SameConfR.refused | apply SameConfR.onUnit | apply SameConfR.ite | apply SameConf.ite
    | apply SameConf.foldl | (simp only [SameConf.mk_iff]; apply SameConf.parts) | split | dsimp only

theorem State.disableLink_conf {s0 : State} {s : State} (n : Nat) (v : Nat) (hs : SameConf s0 s) :
    SameConf s0 (State.disableLink s n v) := by
  unfold State.disableLink
  repeat' with_reducible first
    | assumption | intro _
    | (extract_lets +onlyGivenNames x; clear_value (hx : x = _); first | refine SameConf.bind (s := s0) hx ?_ (fun _ => ?_) | (refine SameConf.isFaults x ?_; subst hx) | skip)
    | apply State.linkAbsent_conf | apply State.setFld_conf | apply State.linkBook_conf | apply State.release_conf | apply SameConf.ite | apply SameConf.foldl
    | (simp only [SameConf.mk_iff]; apply SameConf.parts) | split | dsimp only

theorem execDisable_conf {s0 : State} (n : Nat) (v : Nat) {s : State} (hs : SameConf s0 s) :
    SameConfR s0 (execDisable n v s) := by
  unfold execDisable
  repeat' with_reducible first
    | assumption | intro _ | apply State.disableLink_conf | apply onUnit_conf | apply SameConfR.next | exact SameConfR.fault | exact SameConfR.refused
    | apply SameConfR.onUnit | apply SameConfR.ite | apply SameConf.ite | apply SameConf.foldl | (simp only [SameConf.mk_iff]; apply SameConf.parts) | split | dsimp only

theorem execLinkStall_conf {s0 : State} (n : Nat) {s : State} (hs : SameConf s0 s) :
    SameConfR s0 (execLinkStall n s) := by
  unfold execLinkStall
  repeat' with_reducible first
    | assumption | intro _ | apply State.modLink_conf | apply State.setFld_conf | apply onUnit_conf | apply State.event_conf | apply SameConfR.next
    | exact SameConfR.fault | exact SameConfR.refused | apply SameConfR.onUnit | apply SameConfR.ite | apply SameConf.ite | apply SameConf.foldl
    | (simp only [SameConf.mk_iff]; apply SameConf.parts) | split | dsimp only

end Sys2Proof.Machine
end

