-- ==== Sys2Proof/Laws/SameConfRemote.lean ====
section
/-!
SUPPORT. What the operations of Machine/Remote.lean leave alone (Laws/SameConf.lean).
-/

set_option linter.all false

namespace Sys2Proof.Machine

theorem State.addRequest_conf {s0 : State} {s : State} (host : Bool) (kind : RemKind) (q : Nat) (i : Nat) (addr : Nat) (hs : SameConf s0 s) :
    SameConf s0 (State.addRequest s host kind q i addr) := by
  unfold State.addRequest
  repeat' with_reducible first
    | assumption | intro _
    | (extract_lets +onlyGivenNames x; clear_value (hx : x = _); first | refine SameConf.bind (s := s0) hx ?_ (fun _ => ?_) | (refine SameConf.isFaults x ?_; subst hx) | skip)
    | apply SameConf.ite | apply SameConf.foldl | (simp only [SameConf.mk_iff]; apply SameConf.parts) | split | dsimp only

theorem State.request_conf {s0 : State} {s : State} (f : Nat) (q : Nat) (i : Nat) (addr : Nat) (mtype : Nat) (flags : Nat) (aux : Nat) (sealW : Nat) (data : List Byte) (kind : RemKind) (hs : SameConf s0 s) :
    SameConf s0 (State.request s f q i addr mtype flags aux sealW data kind) := by
  unfold State.request
  repeat' with_reducible first
    | assumption | intro _ | apply State.addRequest_conf | apply State.sendMsg_conf | apply SameConf.ite | apply SameConf.foldl
    | (simp only [SameConf.mk_iff]; apply SameConf.parts) | split | dsimp only

theorem State.sendOn_conf {s0 : State} {s : State} (fl : Flight) (dst : Nat) (data : List Byte) (stored : Nat) (hs : SameConf s0 s) :
    SameConf s0 (State.sendOn s fl dst data stored) := by
  unfold State.sendOn
  repeat' with_reducible first
    | assumption | intro _
    | (extract_lets +onlyGivenNames x; clear_value (hx : x = _); first | refine SameConf.bind (s := s0) hx ?_ (fun _ => ?_) | (refine SameConf.isFaults x ?_; subst hx) | skip)
    | apply State.request_conf | apply State.modFlight_conf | apply State.send_conf | apply SameConf.ite | apply SameConf.foldl
    | (simp only [SameConf.mk_iff]; apply SameConf.parts) | split | dsimp only

theorem State.writeFetched_conf {s0 : State} {s : State} (fl : Flight) (dst : Nat) (data : List Byte) (hs : SameConf s0 s) :
    SameConf s0 (State.writeFetched s fl dst data) := by
  unfold State.writeFetched
  repeat' with_reducible first
    | assumption | intro _ | apply State.engWriteChunk_conf | apply State.modFlight_conf | apply SameConf.ite | apply SameConf.foldl
    | (simp only [SameConf.mk_iff]; apply SameConf.parts) | apply SameConf.iteFst | apply SameConf.iteSnd | refine SameConf.fstEq (by assumption) ?_ | split | dsimp only

theorem State.fetched_conf {s0 : State} {s : State} (q : Nat) (i : Nat) (dst : Nat) (data : List Byte) (hs : SameConf s0 s) :
    SameConf s0 (State.fetched s q i dst data) := by
  unfold State.fetched
  repeat' with_reducible first
    | assumption | intro _ | apply State.sendOn_conf | apply State.writeFetched_conf | apply SameConf.ite | apply SameConf.foldl
    | (simp only [SameConf.mk_iff]; apply SameConf.parts) | split | dsimp only

theorem State.respond_conf {s0 : State} {s : State} (m : FabMsg) (mtype : Nat) (flags : Nat) (status : Nat) (sealW : Nat) (data : List Byte) (hs : SameConf s0 s) :
    SameConf s0 (State.respond s m mtype flags status sealW data) := by
  unfold State.respond
  repeat' with_reducible first
    | assumption | intro _ | apply State.sendMsg_conf | apply SameConf.ite | apply SameConf.foldl | (simp only [SameConf.mk_iff]; apply SameConf.parts) | split
    | dsimp only

theorem State.serveSig_conf {s0 : State} {s : State} (m : FabMsg) (hs : SameConf s0 s) :
    SameConf s0 (State.serveSig s m) := by
  unfold State.serveSig
  repeat' with_reducible first
    | assumption | intro _
    | (extract_lets +onlyGivenNames x; clear_value (hx : x = _); first | refine SameConf.bind (s := s0) hx ?_ (fun _ => ?_) | (refine SameConf.isFaults x ?_; subst hx) | skip)
    | apply State.semOp_conf | apply State.refreshHeads_conf | apply State.respond_conf | apply SameConf.ite | apply SameConf.foldl
    | (simp only [SameConf.mk_iff]; apply SameConf.parts) | split | dsimp only

theorem State.sendVoids_conf {s0 : State} {s : State} (fl : Flight) (hs : SameConf s0 s) :
    SameConf s0 (State.sendVoids s fl) := by
  unfold State.sendVoids
  repeat' with_reducible first
    | assumption | intro _
    | (extract_lets +onlyGivenNames x; clear_value (hx : x = _); first | refine SameConf.bind (s := s0) hx ?_ (fun _ => ?_) | (refine SameConf.isFaults x ?_; subst hx) | skip)
    | apply State.request_conf | apply State.modFlight_conf | apply SameConf.ite | apply SameConf.foldl | (simp only [SameConf.mk_iff]; apply SameConf.parts) | split
    | dsimp only

theorem State.settleMove_conf {s0 : State} {s : State} (q : Nat) (i : Nat) (hs : SameConf s0 s) :
    SameConf s0 (State.settleMove s q i) := by
  unfold State.settleMove
  repeat' with_reducible first
    | assumption | intro _
    | (extract_lets +onlyGivenNames x; clear_value (hx : x = _); first | refine SameConf.bind (s := s0) hx ?_ (fun _ => ?_) | (refine SameConf.isFaults x ?_; subst hx) | skip)
    | apply State.voidBlocks_conf | apply State.modFlight_conf | apply State.sendVoids_conf | apply State.sealBlocks_conf | apply SameConf.ite
    | apply SameConf.foldl | (simp only [SameConf.mk_iff]; apply SameConf.parts) | split | dsimp only

theorem State.answered_conf {s0 : State} {s : State} (q : Nat) (i : Nat) (fail : Option (Nat × Nat × Bool)) (hs : SameConf s0 s) :
    SameConf s0 (State.answered s q i fail) := by
  unfold State.answered
  repeat' with_reducible first
    | assumption | intro _
    | (extract_lets +onlyGivenNames x; clear_value (hx : x = _); first | refine SameConf.bind (s := s0) hx ?_ (fun _ => ?_) | (refine SameConf.isFaults x ?_; subst hx) | skip)
    | apply State.settleMove_conf | apply State.modFlight_conf | apply SameConf.ite | apply SameConf.foldl | (simp only [SameConf.mk_iff]; apply SameConf.parts)
    | split | dsimp only

theorem State.serveRd_conf {s0 : State} {s : State} (m : FabMsg) (hs : SameConf s0 s) :
    SameConf s0 (State.serveRd s m) := by
  unfold State.serveRd
  repeat' with_reducible first
    | assumption | intro _
    | (extract_lets +onlyGivenNames x; clear_value (hx : x = _); first | refine SameConf.bind (s := s0) hx ?_ (fun _ => ?_) | refine SameConf.bindFst (s := s0) hx ?_ (fun _ => ?_) | (refine SameConf.isFaults x ?_; subst hx) | skip)
    | apply State.traffic_conf | apply State.respond_conf | apply State.uncorrectable_conf | apply SameConf.ite | apply SameConf.foldl
    | (simp only [SameConf.mk_iff]; apply SameConf.parts) | apply SameConf.iteFst | apply SameConf.iteSnd | refine SameConf.fstEq (by assumption) ?_ | split | dsimp only

theorem execSig_conf {s0 : State} (k : Nat) {s : State} (hs : SameConf s0 s) :
    SameConfR s0 (execSig k s) := by
  unfold execSig
  repeat' with_reducible first
    | assumption | intro _ | apply State.serveSig_conf | apply State.onMsg_conf | apply SameConfR.next | exact SameConfR.fault | exact SameConfR.refused
    | apply SameConfR.onUnit | apply SameConfR.ite | apply SameConf.ite | apply SameConf.foldl | (simp only [SameConf.mk_iff]; apply SameConf.parts) | split | dsimp only

theorem State.dropRequest_conf {s0 : State} {s : State} (host : Bool) (tag : Nat) (hs : SameConf s0 s) :
    SameConf s0 (State.dropRequest s host tag) := by
  unfold State.dropRequest
  repeat' with_reducible first
    | assumption | intro _
    | (extract_lets +onlyGivenNames x; clear_value (hx : x = _); first | refine SameConf.bind (s := s0) hx ?_ (fun _ => ?_) | (refine SameConf.isFaults x ?_; subst hx) | skip)
    | apply SameConf.ite | apply SameConf.foldl | (simp only [SameConf.mk_iff]; apply SameConf.parts) | split | dsimp only

theorem State.sealMiss_conf {s0 : State} {s : State} (f : Nat) (q : Nat) (i : Nat) (a : Nat) (data : List Byte) (w : Nat) (hs : SameConf s0 s) :
    SameConf s0 (State.sealMiss s f q i a data w) := by
  unfold State.sealMiss
  repeat' with_reducible first
    | assumption | intro _ | apply State.record_conf | apply State.count_conf | apply SameConf.ite | apply SameConf.foldl
    | (simp only [SameConf.mk_iff]; apply SameConf.parts) | split | dsimp only

theorem State.serveWr_conf {s0 : State} {s : State} (m : FabMsg) (hs : SameConf s0 s) :
    SameConf s0 (State.serveWr s m) := by
  unfold State.serveWr
  repeat' with_reducible first
    | assumption | intro _
    | (extract_lets +onlyGivenNames x; clear_value (hx : x = _); first | refine SameConf.bind (s := s0) hx ?_ (fun _ => ?_) | (refine SameConf.isFaults x ?_; subst hx) | (refine SameConf.isFun x ?_; subst hx) | skip)
    | apply State.purgeRange_conf | apply State.traffic_conf | apply State.plainWrite_conf | apply State.respond_conf | apply State.sealMiss_conf
    | apply State.count_conf | apply State.putBytes_conf | apply State.setSyndrome_conf | apply SameConf.ite | apply SameConf.foldl
    | (simp only [SameConf.mk_iff]; apply SameConf.parts) | split | dsimp only

theorem State.remoteSignal_conf {s0 : State} {s : State} (fl : Flight) (node : Nat) (n : Nat) (op : Nat) (v : Nat) (hs : SameConf s0 s) :
    SameConf s0 (State.remoteSignal s fl node n op v) := by
  unfold State.remoteSignal
  repeat' with_reducible first
    | assumption | intro _
    | (extract_lets +onlyGivenNames x; clear_value (hx : x = _); first | refine SameConf.bind (s := s0) hx ?_ (fun _ => ?_) | (refine SameConf.isFaults x ?_; subst hx) | skip)
    | apply State.addRequest_conf | apply State.endFlight_conf | apply State.modFlight_conf | apply State.sendMsg_conf | apply SameConf.ite
    | apply SameConf.foldl | (simp only [SameConf.mk_iff]; apply SameConf.parts) | split | dsimp only

theorem State.readAnswer_conf {s0 : State} {s : State} (r : RemoteReq) (dst : Nat) (len : Nat) (m : FabMsg) (hs : SameConf s0 s) :
    SameConf s0 (State.readAnswer s r dst len m) := by
  unfold State.readAnswer
  repeat' with_reducible first
    | assumption | intro _
    | (extract_lets +onlyGivenNames x; clear_value (hx : x = _); first | refine SameConf.bind (s := s0) hx ?_ (fun _ => ?_) | (refine SameConf.isFaults x ?_; subst hx) | skip)
    | apply State.dropRequest_conf | apply State.fetched_conf | apply State.answered_conf | apply State.sealMiss_conf | apply State.count_conf
    | apply SameConf.ite | apply SameConf.foldl | (simp only [SameConf.mk_iff]; apply SameConf.parts) | split | dsimp only

theorem execWr_conf {s0 : State} (k : Nat) {s : State} (hs : SameConf s0 s) :
    SameConfR s0 (execWr k s) := by
  unfold execWr
  repeat' with_reducible first
    | assumption | intro _ | apply State.serveWr_conf | apply State.onMsg_conf | apply SameConfR.next | exact SameConfR.fault | exact SameConfR.refused
    | apply SameConfR.onUnit | apply SameConfR.ite | apply SameConf.ite | apply SameConf.foldl | (simp only [SameConf.mk_iff]; apply SameConf.parts) | split | dsimp only

theorem State.lateResponse_conf {s0 : State} {s : State} (n : Nat) (hs : SameConf s0 s) :
    SameConf s0 (State.lateResponse s n) := by
  unfold State.lateResponse
  repeat' with_reducible first
    | assumption | intro _ | apply State.count_conf | apply SameConf.ite | apply SameConf.foldl | (simp only [SameConf.mk_iff]; apply SameConf.parts) | split
    | dsimp only

theorem State.sigAnswer_conf {s0 : State} {s : State} (n : Nat) (m : FabMsg) (hs : SameConf s0 s) :
    SameConf s0 (State.sigAnswer s n m) := by
  unfold State.sigAnswer
  repeat' with_reducible first
    | assumption | intro _ | apply State.dropRequest_conf | apply State.answered_conf | apply State.lateResponse_conf | apply SameConf.ite
    | apply SameConf.foldl | (simp only [SameConf.mk_iff]; apply SameConf.parts) | split | dsimp only

theorem execSigack_conf {s0 : State} (k : Nat) {s : State} (hs : SameConf s0 s) :
    SameConfR s0 (execSigack k s) := by
  unfold execSigack
  repeat' with_reducible first
    | assumption | intro _ | apply State.onMsg_conf | apply State.sigAnswer_conf | apply SameConfR.next | exact SameConfR.fault | exact SameConfR.refused
    | apply SameConfR.onUnit | apply SameConfR.ite | apply SameConf.ite | apply SameConf.foldl | (simp only [SameConf.mk_iff]; apply SameConf.parts) | split | dsimp only

theorem State.serveVoid_conf {s0 : State} {s : State} (m : FabMsg) (hs : SameConf s0 s) :
    SameConf s0 (State.serveVoid s m) := by
  unfold State.serveVoid
  repeat' with_reducible first
    | assumption | intro _ | apply State.voidBlock_conf | apply State.respond_conf | apply SameConf.ite | apply SameConf.foldl
    | (simp only [SameConf.mk_iff]; apply SameConf.parts) | split | dsimp only

theorem execVoid_conf {s0 : State} (k : Nat) {s : State} (hs : SameConf s0 s) :
    SameConfR s0 (execVoid k s) := by
  unfold execVoid
  repeat' with_reducible first
    | assumption | intro _ | apply State.onMsg_conf | apply State.serveVoid_conf | apply SameConfR.next | exact SameConfR.fault | exact SameConfR.refused
    | apply SameConfR.onUnit | apply SameConfR.ite | apply SameConf.ite | apply SameConf.foldl | (simp only [SameConf.mk_iff]; apply SameConf.parts) | split | dsimp only

theorem execRd_conf {s0 : State} (k : Nat) {s : State} (hs : SameConf s0 s) :
    SameConfR s0 (execRd k s) := by
  unfold execRd
  repeat' with_reducible first
    | assumption | intro _ | apply State.serveRd_conf | apply State.onMsg_conf | apply SameConfR.next | exact SameConfR.fault | exact SameConfR.refused
    | apply SameConfR.onUnit | apply SameConfR.ite | apply SameConf.ite | apply SameConf.foldl | (simp only [SameConf.mk_iff]; apply SameConf.parts) | split | dsimp only

theorem State.hostRequest_conf {s0 : State} {s : State} (f : Nat) (q : Nat) (i : Nat) (addr : Nat) (len : Nat) (kind : RemKind) (hs : SameConf s0 s) :
    SameConf s0 (State.hostRequest s f q i addr len kind) := by
  unfold State.hostRequest
  repeat' with_reducible first
    | assumption | intro _ | apply State.addRequest_conf | apply State.send_conf | apply SameConf.ite | apply SameConf.foldl
    | (simp only [SameConf.mk_iff]; apply SameConf.parts) | split | dsimp only

theorem execSignal_conf {s0 : State} (q : Nat) (i : Nat) {s : State} (hs : SameConf s0 s) :
    SameConfR s0 (execSignal q i s) := by
  unfold execSignal
  repeat' with_reducible first
    | assumption | intro _
    | (extract_lets +onlyGivenNames x; clear_value (hx : x = _); first | refine SameConf.bind (s := s0) hx ?_ (fun _ => ?_) | (refine SameConf.isFaults x ?_; subst hx) | skip)
    | apply State.control_conf | apply State.remoteSignal_conf | apply State.semOp_conf | apply State.endFlight_conf | apply State.refreshHeads_conf
    | apply SameConfR.next | exact SameConfR.fault | exact SameConfR.refused | apply SameConfR.onUnit | apply SameConfR.ite | apply SameConf.ite | apply SameConf.foldl
    | (simp only [SameConf.mk_iff]; apply SameConf.parts) | split | dsimp only

end Sys2Proof.Machine
end

