-- ==== Sys2Proof/Laws/SameConfMovement.lean ====
section
/-!
SUPPORT. What the operations of Machine/Movement.lean leave alone (Laws/SameConf.lean).
-/

set_option linter.all false

namespace Sys2Proof.Machine

theorem JobSt.movePiece_conf {s0 : State} {j : JobSt} (fl : Flight) (pick : State → Piece → List Byte) (p : Piece) (hj : SameConf s0 j.st) :
    SameConf s0 (JobSt.movePiece j fl pick p).st := by
  unfold JobSt.movePiece
  repeat' with_reducible first
    | assumption | intro _
    | (extract_lets +onlyGivenNames x; clear_value (hx : x = _); first | refine SameConf.bind (s := s0) hx ?_ (fun _ => ?_) | refine SameConf.bindJob (s := s0) hx ?_ (fun _ => ?_) | refine SameConf.bindRes (s := s0) hx ?_ (fun _ => ?_) | (refine SameConf.isFaults x ?_; subst hx) | (refine SameConf.isFun x ?_; subst hx) | skip)
    | apply JobSt.write_conf | apply State.request_conf | apply State.modFlight_conf | apply State.sendOn_conf | apply State.hostRequest_conf
    | apply JobSt.checkRange_conf | apply SameConf.ite | apply SameConf.foldl | (simp only [SameConf.mk_iff]; apply SameConf.parts) | apply SameConf.iteJob
    | apply SameConf.foldlJob | split | dsimp only

theorem JobSt.moveRun_conf {s0 : State} {j : JobSt} (fl : Flight) (pick : State → Piece → List Byte) (x4 : Option Nat) (x5 : List (List Piece)) (hj : SameConf s0 j.st) :
    SameConf s0 (JobSt.moveRun j fl pick x4 x5).1.st := by
  induction x5 generalizing j fl pick x4 with
  | nil =>
    unfold JobSt.moveRun
    repeat' with_reducible first
      | assumption | intro _ | apply JobSt.movePiece_conf | apply SameConf.ite | apply SameConf.foldl | (simp only [SameConf.mk_iff]; apply SameConf.parts)
      | apply SameConf.iteJob | apply SameConf.foldlJob | refine SameConf.jobEq (by assumption) ?_ | split | dsimp only
  | cons y ys ih =>
    unfold JobSt.moveRun
    repeat' with_reducible first
      | assumption | intro _ | apply JobSt.movePiece_conf | apply ih | apply SameConf.ite | apply SameConf.foldl | (simp only [SameConf.mk_iff]; apply SameConf.parts)
      | apply SameConf.iteJob | apply SameConf.foldlJob | refine SameConf.jobEq (by assumption) ?_ | split | dsimp only

theorem State.moveCommand_conf {s0 : State} {s : State} (fl : Flight) (stop : Option Nat) (pick : State → Piece → List Byte) (segs : List (List Piece)) (hs : SameConf s0 s) :
    SameConf s0 (State.moveCommand s fl stop pick segs) := by
  unfold State.moveCommand
  repeat' with_reducible first
    | assumption | intro _ | apply JobSt.moveRun_conf | apply State.settleMove_conf | apply State.endFlight_conf | apply State.modFlight_conf
    | apply SameConf.ite | apply SameConf.foldl | (simp only [SameConf.mk_iff]; apply SameConf.parts) | apply SameConf.iteJob | apply SameConf.foldlJob
    | refine SameConf.jobEq (by assumption) ?_ | split | dsimp only

theorem State.indexCheck_conf {s0 : State} {s : State} (fl : Flight) (base : Nat) (pack : Nat) (idx : Nat) (rows : Nat) (rb : Nat) (wr : Bool) (hs : SameConf s0 s) :
    SameConf s0 (State.indexCheck s fl base pack idx rows rb wr).1 := by
  unfold State.indexCheck
  repeat' with_reducible first
    | assumption | intro _
    | (extract_lets +onlyGivenNames x; clear_value (hx : x = _); first | refine SameConf.bind (s := s0) hx ?_ (fun _ => ?_) | refine SameConf.bindFst (s := s0) hx ?_ (fun _ => ?_) | refine SameConf.bindJob (s := s0) hx ?_ (fun _ => ?_) | refine SameConf.bindRes (s := s0) hx ?_ (fun _ => ?_) | (refine SameConf.isFaults x ?_; subst hx) | skip)
    | apply JobSt.checkRange_conf | apply SameConf.ite | apply SameConf.foldl | (simp only [SameConf.mk_iff]; apply SameConf.parts) | apply SameConf.iteFst
    | apply SameConf.iteSnd | apply SameConf.iteJob | apply SameConf.foldlJob | refine SameConf.fstEq (by assumption) ?_ | split | dsimp only

theorem State.rowsCommand_conf {s0 : State} {s : State} (fl : Flight) (stop : Option Nat) (scatter : Bool) (hs : SameConf s0 s) :
    SameConf s0 (State.rowsCommand s fl stop scatter) := by
  unfold State.rowsCommand
  repeat' with_reducible first
    | assumption | intro _
    | (extract_lets +onlyGivenNames x; clear_value (hx : x = _); first | refine SameConf.bind (s := s0) hx ?_ (fun _ => ?_) | refine SameConf.bindFst (s := s0) hx ?_ (fun _ => ?_) | (refine SameConf.isFaults x ?_; subst hx) | (refine SameConf.isFun x ?_; subst hx) | skip)
    | apply State.endFlight_conf | apply State.indexCheck_conf | apply State.moveCommand_conf | apply State.release_conf | apply SameConf.ite
    | apply SameConf.foldl | (simp only [SameConf.mk_iff]; apply SameConf.parts) | apply SameConf.iteFst | apply SameConf.iteSnd | refine SameConf.fstEq (by assumption) ?_
    | split | dsimp only

theorem State.idleMove_conf {s0 : State} {s : State} (fl : Flight) {k : State} (hs : SameConf s0 s) (hk : SameConf s0 k) :
    SameConf s0 (State.idleMove s fl k) := by
  unfold State.idleMove
  repeat' with_reducible first
    | assumption | intro _ | apply SameConf.ite | apply SameConf.foldl | (simp only [SameConf.mk_iff]; apply SameConf.parts) | split | dsimp only

theorem execScatter_conf {s0 : State} (q : Nat) (i : Nat) (stop : Option Nat) {s : State} (hs : SameConf s0 s) :
    SameConfR s0 (execScatter q i stop s) := by
  unfold execScatter
  repeat' with_reducible first
    | assumption | intro _ | apply State.dispatch_conf | apply State.rowsCommand_conf | apply State.idleMove_conf | apply SameConfR.next | exact SameConfR.fault
    | exact SameConfR.refused | apply SameConfR.onUnit | apply SameConfR.ite | apply SameConf.ite | apply SameConf.foldl | (simp only [SameConf.mk_iff]; apply SameConf.parts)
    | split | dsimp only

theorem State.copyCommand_conf {s0 : State} {s : State} (fl : Flight) (stop : Option Nat) (hs : SameConf s0 s) :
    SameConf s0 (State.copyCommand s fl stop) := by
  unfold State.copyCommand
  repeat' with_reducible first
    | assumption | intro _
    | (extract_lets +onlyGivenNames x; clear_value (hx : x = _); first | refine SameConf.bind (s := s0) hx ?_ (fun _ => ?_) | (refine SameConf.isFaults x ?_; subst hx) | skip)
    | apply State.moveCommand_conf | apply SameConf.ite | apply SameConf.foldl | (simp only [SameConf.mk_iff]; apply SameConf.parts) | split | dsimp only

theorem execCopy_conf {s0 : State} (q : Nat) (i : Nat) (stop : Option Nat) {s : State} (hs : SameConf s0 s) :
    SameConfR s0 (execCopy q i stop s) := by
  unfold execCopy
  repeat' with_reducible first
    | assumption | intro _ | apply State.dispatch_conf | apply State.copyCommand_conf | apply State.idleMove_conf | apply SameConfR.next | exact SameConfR.fault
    | exact SameConfR.refused | apply SameConfR.onUnit | apply SameConfR.ite | apply SameConf.ite | apply SameConf.foldl | (simp only [SameConf.mk_iff]; apply SameConf.parts)
    | split | dsimp only

theorem execGather_conf {s0 : State} (q : Nat) (i : Nat) (stop : Option Nat) {s : State} (hs : SameConf s0 s) :
    SameConfR s0 (execGather q i stop s) := by
  unfold execGather
  repeat' with_reducible first
    | assumption | intro _ | apply State.dispatch_conf | apply State.rowsCommand_conf | apply State.idleMove_conf | apply SameConfR.next | exact SameConfR.fault
    | exact SameConfR.refused | apply SameConfR.onUnit | apply SameConfR.ite | apply SameConf.ite | apply SameConf.foldl | (simp only [SameConf.mk_iff]; apply SameConf.parts)
    | split | dsimp only

end Sys2Proof.Machine
end

