-- ==== Sys2Proof/Laws/SameConfCollective.lean ====
section
/-!
SUPPORT. What the operations of Machine/Collective.lean leave alone (Laws/SameConf.lean).
-/

set_option linter.all false

namespace Sys2Proof.Machine

theorem State.putCol_conf {s0 : State} {s : State} (c : Collective) (hs : SameConf s0 s) :
    SameConf s0 (State.putCol s c) := by
  unfold State.putCol
  repeat' with_reducible first
    | assumption | intro _
    | (extract_lets +onlyGivenNames x; clear_value (hx : x = _); first | refine SameConf.bind (s := s0) hx ?_ (fun _ => ?_) | (refine SameConf.isFaults x ?_; subst hx) | skip)
    | apply SameConf.ite | apply SameConf.foldl | (simp only [SameConf.mk_iff]; apply SameConf.parts) | split | dsimp only

theorem State.colSend_conf {s0 : State} {s : State} (c : Collective) (rank : Nat) (mtype : Nat) (aux : Nat) (tag : Nat) (addr : Nat) (data : List Byte) (hs : SameConf s0 s) :
    SameConf s0 (State.colSend s c rank mtype aux tag addr data) := by
  unfold State.colSend
  repeat' with_reducible first
    | assumption | intro _ | apply State.sendMsg_conf | apply SameConf.ite | apply SameConf.foldl | (simp only [SameConf.mk_iff]; apply SameConf.parts) | split
    | dsimp only

theorem State.sendReady_conf {s0 : State} {s : State} (c : Collective) (ranks : List Nat) (hs : SameConf s0 s) :
    SameConf s0 (State.sendReady s c ranks) := by
  unfold State.sendReady
  repeat' with_reducible first
    | assumption | intro _ | apply State.colSend_conf | apply SameConf.ite | apply SameConf.foldl | (simp only [SameConf.mk_iff]; apply SameConf.parts) | split
    | dsimp only

theorem State.readyResend_conf {s0 : State} {s : State} (q : Nat) (i : Nat) (hs : SameConf s0 s) :
    SameConf s0 (State.readyResend s q i) := by
  unfold State.readyResend
  repeat' with_reducible first
    | assumption | intro _
    | (extract_lets +onlyGivenNames x; clear_value (hx : x = _); first | refine SameConf.bind (s := s0) hx ?_ (fun _ => ?_) | (refine SameConf.isFaults x ?_; subst hx) | skip)
    | apply State.putCol_conf | apply State.sendReady_conf | apply SameConf.ite | apply SameConf.foldl | (simp only [SameConf.mk_iff]; apply SameConf.parts) | split
    | dsimp only

theorem State.colStatus_conf {s0 : State} {s : State} (hs : SameConf s0 s) :
    SameConf s0 (State.colStatus s) := by
  unfold State.colStatus
  repeat' with_reducible first
    | assumption | intro _ | apply State.setFld_conf | apply SameConf.ite | apply SameConf.foldl | (simp only [SameConf.mk_iff]; apply SameConf.parts) | split
    | dsimp only

theorem State.holdMsg_conf {s0 : State} {s : State} (m : FabMsg) (hs : SameConf s0 s) :
    SameConf s0 (State.holdMsg s m) := by
  unfold State.holdMsg
  repeat' with_reducible first
    | assumption | intro _
    | (extract_lets +onlyGivenNames x; clear_value (hx : x = _); first | refine SameConf.bind (s := s0) hx ?_ (fun _ => ?_) | (refine SameConf.isFaults x ?_; subst hx) | skip)
    | apply State.count_conf | apply State.colStatus_conf | apply SameConf.ite | apply SameConf.foldl | (simp only [SameConf.mk_iff]; apply SameConf.parts) | split
    | dsimp only

theorem State.sendSpotPiece_conf {s0 : State} {s : State} (c : Collective) (kind : Nat) (chunk : Nat) (off : Nat) (mark : Nat) (b : List Byte) (hs : SameConf s0 s) :
    SameConf s0 (State.sendSpotPiece s c kind chunk off mark b) := by
  unfold State.sendSpotPiece
  repeat' with_reducible first
    | assumption | intro _ | apply State.colSend_conf | apply SameConf.ite | apply SameConf.foldl | (simp only [SameConf.mk_iff]; apply SameConf.parts) | split
    | dsimp only

theorem State.sendSpotMarks_conf {s0 : State} {s : State} (c : Collective) (hs : SameConf s0 s) :
    SameConf s0 (State.sendSpotMarks s c) := by
  unfold State.sendSpotMarks
  repeat' with_reducible first
    | assumption | intro _ | apply State.sendSpotPiece_conf | apply SameConf.ite | apply SameConf.foldl | (simp only [SameConf.mk_iff]; apply SameConf.parts) | split
    | dsimp only

theorem State.sendCtrl_conf {s0 : State} {s : State} (c : Collective) (rank : Nat) (kind : Nat) (level : Nat) (hs : SameConf s0 s) :
    SameConf s0 (State.sendCtrl s c rank kind level) := by
  unfold State.sendCtrl
  repeat' with_reducible first
    | assumption | intro _ | apply State.colSend_conf | apply SameConf.ite | apply SameConf.foldl | (simp only [SameConf.mk_iff]; apply SameConf.parts) | split
    | dsimp only

theorem State.countTx_conf {s0 : State} {s : State} (n : Nat) (hs : SameConf s0 s) :
    SameConf s0 (State.countTx s n) := by
  unfold State.countTx
  repeat' with_reducible first
    | assumption | intro _
    | (extract_lets +onlyGivenNames x; clear_value (hx : x = _); first | refine SameConf.bind (s := s0) hx ?_ (fun _ => ?_) | (refine SameConf.isFaults x ?_; subst hx) | skip)
    | apply State.count_conf
    | apply SameConf.ite | apply SameConf.foldl | (simp only [SameConf.mk_iff]; apply SameConf.parts) | refine SameConf.fstEq (by assumption) ?_ | split | dsimp only

theorem State.countRx_conf {s0 : State} {s : State} (n : Nat) (hs : SameConf s0 s) :
    SameConf s0 (State.countRx s n) := by
  unfold State.countRx
  repeat' with_reducible first
    | assumption | intro _
    | (extract_lets +onlyGivenNames x; clear_value (hx : x = _); first | refine SameConf.bind (s := s0) hx ?_ (fun _ => ?_) | (refine SameConf.isFaults x ?_; subst hx) | skip)
    | apply State.count_conf
    | apply SameConf.ite | apply SameConf.foldl | (simp only [SameConf.mk_iff]; apply SameConf.parts) | refine SameConf.fstEq (by assumption) ?_ | split | dsimp only

theorem State.sendChunk_conf {s0 : State} {s : State} (c : Collective) (o : ChunkOut) (hs : SameConf s0 s) :
    SameConf s0 (State.sendChunk s c o) := by
  unfold State.sendChunk
  repeat' with_reducible first
    | assumption | intro _ | apply State.countTx_conf
    | (extract_lets +onlyGivenNames x; clear_value (hx : x = _); first | refine SameConf.bind (s := s0) hx ?_ (fun _ => ?_) | (refine SameConf.isFaults x ?_; subst hx) | skip)
    | apply State.colSend_conf | apply State.count_conf | apply SameConf.ite | apply SameConf.foldl | (simp only [SameConf.mk_iff]; apply SameConf.parts) | split
    | dsimp only

theorem State.startLevel_conf {s0 : State} {s : State} (c : Collective) (l : ColLevel) (hs : SameConf s0 s) :
    SameConf s0 (State.startLevel s c l).1 := by
  unfold State.startLevel
  repeat' with_reducible first
    | assumption | intro _
    | (extract_lets +onlyGivenNames x; clear_value (hx : x = _); first | refine SameConf.bind (s := s0) hx ?_ (fun _ => ?_) | refine SameConf.bindFst (s := s0) hx ?_ (fun _ => ?_) | (refine SameConf.isFaults x ?_; subst hx) | skip)
    | apply State.sendCtrl_conf | apply State.sendChunk_conf | apply SameConf.ite | apply SameConf.foldl | (simp only [SameConf.mk_iff]; apply SameConf.parts)
    | apply SameConf.iteFst | apply SameConf.iteSnd | refine SameConf.fstEq (by assumption) ?_ | split | dsimp only

theorem State.slowCounters_conf {s0 : State} {s : State} (c : Collective) (hs : SameConf s0 s) :
    SameConf s0 (State.slowCounters s c) := by
  unfold State.slowCounters
  repeat' with_reducible first
    | assumption | intro _
    | (extract_lets +onlyGivenNames x; clear_value (hx : x = _); first | refine SameConf.bind (s := s0) hx ?_ (fun _ => ?_) | refine SameConf.bindJob (s := s0) hx ?_ (fun _ => ?_) | refine SameConf.bindRes (s := s0) hx ?_ (fun _ => ?_) | (refine SameConf.isFaults x ?_; subst hx) | skip)
    | apply State.runJob_conf | apply State.count_conf | apply SameConf.ite | apply SameConf.foldl | (simp only [SameConf.mk_iff]; apply SameConf.parts)
    | apply SameConf.iteJob | apply SameConf.foldlJob | split | dsimp only

theorem State.scratchWrites_conf {s0 : State} {s : State} (c : Collective) (hs : SameConf s0 s) :
    SameConf s0 (State.scratchWrites s c).1 := by
  unfold State.scratchWrites
  repeat' with_reducible first
    | assumption | intro _
    | (extract_lets +onlyGivenNames x; clear_value (hx : x = _); first | refine SameConf.bind (s := s0) hx ?_ (fun _ => ?_) | refine SameConf.bindFst (s := s0) hx ?_ (fun _ => ?_) | (refine SameConf.isFaults x ?_; subst hx) | skip)
    | apply SameConf.ite | apply SameConf.foldl | (simp only [SameConf.mk_iff]; apply SameConf.parts) | apply SameConf.iteFst | apply SameConf.iteSnd
    | refine SameConf.fstEq (by assumption) ?_ | split | dsimp only

theorem State.matchDone_conf {s0 : State} {s : State} (f comm seq : Nat) (hs : SameConf s0 s) :
    SameConf s0 (State.matchDone s f comm seq) := by
  unfold State.matchDone
  repeat' with_reducible first
    | assumption | intro _
    | (extract_lets +onlyGivenNames x; clear_value (hx : x = _); first | refine SameConf.bind (s := s0) hx ?_ (fun _ => ?_) | (refine SameConf.isFaults x ?_; subst hx) | skip)
    | apply State.colStatus_conf
    | apply State.count_conf
    | apply SameConf.ite | apply SameConf.foldl | (simp only [SameConf.mk_iff]; apply SameConf.parts) | refine SameConf.fstEq (by assumption) ?_ | split | dsimp only

theorem State.dropCol_conf {s0 : State} {s : State} (c : Collective) (hs : SameConf s0 s) :
    SameConf s0 (State.dropCol s c) := by
  unfold State.dropCol
  repeat' with_reducible first
    | assumption | intro _ | apply State.matchDone_conf
    | (extract_lets +onlyGivenNames x; clear_value (hx : x = _); first | refine SameConf.bind (s := s0) hx ?_ (fun _ => ?_) | (refine SameConf.isFaults x ?_; subst hx) | skip)
    | apply State.colStatus_conf | apply SameConf.ite | apply SameConf.foldl | (simp only [SameConf.mk_iff]; apply SameConf.parts) | split | dsimp only

theorem State.finishCol_conf {s0 : State} {s : State} (c : Collective) (hs : SameConf s0 s) :
    SameConf s0 (State.finishCol s c) := by
  unfold State.finishCol
  repeat' with_reducible first
    | assumption | intro _
    | (extract_lets +onlyGivenNames x; clear_value (hx : x = _); first | refine SameConf.bind (s := s0) hx ?_ (fun _ => ?_) | refine SameConf.bindFst (s := s0) hx ?_ (fun _ => ?_) | refine SameConf.bindJob (s := s0) hx ?_ (fun _ => ?_) | refine SameConf.bindRes (s := s0) hx ?_ (fun _ => ?_) | (refine SameConf.isFaults x ?_; subst hx) | skip)
    | apply State.slowCounters_conf | apply State.scratchWrites_conf | apply State.dropCol_conf | apply State.runJob_conf | apply State.count_conf
    | apply JobResult.finish_conf | apply SameConf.ite | apply SameConf.foldl | (simp only [SameConf.mk_iff]; apply SameConf.parts) | apply SameConf.iteFst
    | apply SameConf.iteSnd | apply SameConf.iteJob | apply SameConf.foldlJob | refine SameConf.fstEq (by assumption) ?_ | split | dsimp only

theorem State.takeVerdict_conf {s0 : State} {s : State} (c : Collective) (bad : Nat) (hs : SameConf s0 s) :
    SameConf s0 (State.takeVerdict s c bad) := by
  unfold State.takeVerdict
  repeat' with_reducible first
    | assumption | intro _ | apply State.putCol_conf | apply SameConf.ite | apply SameConf.foldl | (simp only [SameConf.mk_iff]; apply SameConf.parts) | split
    | dsimp only

theorem State.spotDecide_conf {s0 : State} {s : State} (c : Collective) (hs : SameConf s0 s) :
    SameConf s0 (State.spotDecide s c) := by
  unfold State.spotDecide
  repeat' with_reducible first
    | assumption | intro _
    | (extract_lets +onlyGivenNames x; clear_value (hx : x = _); first | refine SameConf.bind (s := s0) hx ?_ (fun _ => ?_) | (refine SameConf.isFaults x ?_; subst hx) | skip)
    | apply State.colSend_conf | apply State.takeVerdict_conf | apply State.count_conf | apply SameConf.ite | apply SameConf.foldl
    | (simp only [SameConf.mk_iff]; apply SameConf.parts) | split | dsimp only

theorem State.spoilOutputs_conf {s0 : State} {s : State} (c : Collective) (hs : SameConf s0 s) :
    SameConf s0 (State.spoilOutputs s c) := by
  unfold State.spoilOutputs
  repeat' with_reducible first
    | assumption | intro _
    | (extract_lets +onlyGivenNames x; clear_value (hx : x = _); first | refine SameConf.bind (s := s0) hx ?_ (fun _ => ?_) | (refine SameConf.isFaults x ?_; subst hx) | skip)
    | apply State.engWriteChunk_conf
    | apply State.voidBlock_conf
    | apply SameConf.ite | apply SameConf.foldl | (simp only [SameConf.mk_iff]; apply SameConf.parts) | refine SameConf.fstEq (by assumption) ?_ | split | dsimp only

theorem State.endCol_conf {s0 : State} {s : State} (c : Collective) (status : Nat) (detail : Nat) (hs : SameConf s0 s) :
    SameConf s0 (State.endCol s c status detail) := by
  unfold State.endCol
  repeat' with_reducible first
    | assumption | intro _ | apply State.spoilOutputs_conf | apply State.endFlight_conf | apply State.dropCol_conf | apply State.count_conf | apply SameConf.ite | apply SameConf.foldl
    | (simp only [SameConf.mk_iff]; apply SameConf.parts) | split | dsimp only

theorem State.sendAborts_conf {s0 : State} {s : State} (c : Collective) (hs : SameConf s0 s) :
    SameConf s0 (State.sendAborts s c) := by
  unfold State.sendAborts
  repeat' with_reducible first
    | assumption | intro _ | apply State.sendCtrl_conf | apply SameConf.ite | apply SameConf.foldl | (simp only [SameConf.mk_iff]; apply SameConf.parts) | split
    | dsimp only

theorem State.failCol_conf {s0 : State} {s : State} (c : Collective) (status : Nat) (cause : Nat) (abort : Bool) (hs : SameConf s0 s) :
    SameConf s0 (State.failCol s c status cause abort) := by
  unfold State.failCol
  repeat' with_reducible first
    | assumption | intro _
    | (extract_lets +onlyGivenNames x; clear_value (hx : x = _); first | refine SameConf.bind (s := s0) hx ?_ (fun _ => ?_) | (refine SameConf.isFaults x ?_; subst hx) | skip)
    | apply State.endCol_conf | apply State.sendAborts_conf | apply SameConf.ite | apply SameConf.foldl | (simp only [SameConf.mk_iff]; apply SameConf.parts) | split
    | dsimp only

theorem State.postmarkRecord_conf {s0 : State} {s : State} (c : Collective) (hs : SameConf s0 s) :
    SameConf s0 (State.postmarkRecord s c) := by
  unfold State.postmarkRecord
  repeat' with_reducible first
    | assumption | intro _ | apply State.record_conf | apply SameConf.ite | apply SameConf.foldl | (simp only [SameConf.mk_iff]; apply SameConf.parts) | split
    | dsimp only

theorem State.runCol_conf {s0 : State} {s : State} (c : Collective) (x3 : Nat) (hs : SameConf s0 s) :
    SameConf s0 (State.runCol s c x3) := by
  induction x3 generalizing s c with
  | zero =>
    unfold State.runCol
    repeat' with_reducible first
      | assumption | intro _ | apply State.sendSpotMarks_conf | apply State.startLevel_conf | apply State.putCol_conf | apply State.finishCol_conf
      | apply State.spotDecide_conf | apply State.failCol_conf | apply State.postmarkRecord_conf | apply SameConf.ite | apply SameConf.foldl
      | (simp only [SameConf.mk_iff]; apply SameConf.parts) | apply SameConf.iteFst | apply SameConf.iteSnd | refine SameConf.fstEq (by assumption) ?_ | split | dsimp only
  | succ m ih =>
    unfold State.runCol
    repeat' with_reducible first
      | assumption | intro _ | apply State.sendSpotMarks_conf | apply State.startLevel_conf | apply State.putCol_conf | apply State.finishCol_conf
      | apply State.spotDecide_conf | apply State.failCol_conf | apply State.postmarkRecord_conf | apply ih | apply SameConf.ite | apply SameConf.foldl
      | (simp only [SameConf.mk_iff]; apply SameConf.parts) | apply SameConf.iteFst | apply SameConf.iteSnd | refine SameConf.fstEq (by assumption) ?_ | split | dsimp only

theorem State.takeCtrl_conf {s0 : State} {s : State} (m : FabMsg) (hs : SameConf s0 s) :
    SameConf s0 (State.takeCtrl s m) := by
  unfold State.takeCtrl
  repeat' with_reducible first
    | assumption | intro _
    | (extract_lets +onlyGivenNames x; clear_value (hx : x = _); first | refine SameConf.bind (s := s0) hx ?_ (fun _ => ?_) | (refine SameConf.isFaults x ?_; subst hx) | skip)
    | apply State.holdMsg_conf | apply State.runCol_conf | apply State.failCol_conf | apply SameConf.ite | apply SameConf.foldl
    | (simp only [SameConf.mk_iff]; apply SameConf.parts) | split | dsimp only

theorem State.refuseCol_conf {s0 : State} {s : State} (fl : Flight) (status : Nat) (hs : SameConf s0 s) :
    SameConf s0 (State.refuseCol s fl status) := by
  unfold State.refuseCol
  repeat' with_reducible first
    | assumption | intro _
    | (extract_lets +onlyGivenNames x; clear_value (hx : x = _); first | refine SameConf.bind (s := s0) hx ?_ (fun _ => ?_) | (refine SameConf.isFaults x ?_; subst hx) | skip)
    | apply State.endFlight_conf
    | apply State.matchDone_conf
    | apply SameConf.ite | apply SameConf.foldl | (simp only [SameConf.mk_iff]; apply SameConf.parts) | refine SameConf.fstEq (by assumption) ?_ | split | dsimp only

theorem State.pruneCols_conf {s0 : State} {s : State} (hs : SameConf s0 s) :
    SameConf s0 (State.pruneCols s) := by
  unfold State.pruneCols
  repeat' with_reducible first
    | assumption | intro _ | apply State.spoilOutputs_conf | apply State.dropCol_conf | apply SameConf.ite | apply SameConf.foldl | (simp only [SameConf.mk_iff]; apply SameConf.parts) | split
    | dsimp only

theorem execColReadyResend_conf {s0 : State} (q : Nat) (i : Nat) {s : State} (hs : SameConf s0 s) :
    SameConfR s0 (execColReadyResend q i s) := by
  unfold execColReadyResend
  repeat' with_reducible first
    | assumption | intro _ | apply State.pruneCols_conf | apply State.readyResend_conf | apply SameConfR.next | exact SameConfR.fault | exact SameConfR.refused
    | apply SameConfR.onUnit | apply SameConfR.ite | apply SameConf.ite | apply SameConf.foldl | (simp only [SameConf.mk_iff]; apply SameConf.parts) | split | dsimp only

theorem State.sendAck_conf {s0 : State} {s : State} (c : Collective) (r : Nat) (lvl : Nat) (k : Nat) (nak : Bool) (hs : SameConf s0 s) :
    SameConf s0 (State.sendAck s c r lvl k nak) := by
  unfold State.sendAck
  repeat' with_reducible first
    | assumption | intro _ | apply State.colSend_conf | apply SameConf.ite | apply SameConf.foldl | (simp only [SameConf.mk_iff]; apply SameConf.parts) | split
    | dsimp only

theorem State.checkChunk_conf {s0 : State} {s : State} (c : Collective) (y : ChunkIn) (len : Nat) (hs : SameConf s0 s) :
    SameConf s0 (State.checkChunk s c y len) := by
  unfold State.checkChunk
  repeat' with_reducible first
    | assumption | intro _ | apply State.countRx_conf
    | (extract_lets +onlyGivenNames x; clear_value (hx : x = _); first | refine SameConf.bind (s := s0) hx ?_ (fun _ => ?_) | (refine SameConf.isFaults x ?_; subst hx) | skip)
    | apply State.runCol_conf | apply State.putCol_conf | apply State.sendAck_conf | apply State.failCol_conf | apply State.postmarkRecord_conf
    | apply State.count_conf | apply SameConf.ite | apply SameConf.foldl | (simp only [SameConf.mk_iff]; apply SameConf.parts) | split | dsimp only

theorem State.takeSpot_conf {s0 : State} {s : State} (m : FabMsg) (hs : SameConf s0 s) :
    SameConf s0 (State.takeSpot s m) := by
  unfold State.takeSpot
  repeat' with_reducible first
    | assumption | intro _
    | (extract_lets +onlyGivenNames x; clear_value (hx : x = _); first | refine SameConf.bind (s := s0) hx ?_ (fun _ => ?_) | (refine SameConf.isFaults x ?_; subst hx) | skip)
    | apply State.holdMsg_conf | apply State.runCol_conf | apply SameConf.ite | apply SameConf.foldl | (simp only [SameConf.mk_iff]; apply SameConf.parts) | split
    | dsimp only

theorem execColSpot_conf {s0 : State} (k : Nat) {s : State} (hs : SameConf s0 s) :
    SameConfR s0 (execColSpot k s) := by
  unfold execColSpot
  repeat' with_reducible first
    | assumption | intro _ | apply State.pruneCols_conf | apply State.onMsg_conf | apply State.takeSpot_conf | apply SameConfR.next | exact SameConfR.fault
    | exact SameConfR.refused | apply SameConfR.onUnit | apply SameConfR.ite | apply SameConf.ite | apply SameConf.foldl | (simp only [SameConf.mk_iff]; apply SameConf.parts)
    | split | dsimp only

theorem State.takePmk_conf {s0 : State} {s : State} (m : FabMsg) (hs : SameConf s0 s) :
    SameConf s0 (State.takePmk s m) := by
  unfold State.takePmk
  repeat' with_reducible first
    | assumption | intro _
    | (extract_lets +onlyGivenNames x; clear_value (hx : x = _); first | refine SameConf.bind (s := s0) hx ?_ (fun _ => ?_) | (refine SameConf.isFaults x ?_; subst hx) | skip)
    | apply State.holdMsg_conf | apply State.checkChunk_conf | apply State.putCol_conf | apply State.sendAck_conf | apply State.failCol_conf
    | apply SameConf.ite | apply SameConf.foldl | (simp only [SameConf.mk_iff]; apply SameConf.parts) | split | dsimp only

theorem execColPmk_conf {s0 : State} (k : Nat) {s : State} (hs : SameConf s0 s) :
    SameConfR s0 (execColPmk k s) := by
  unfold execColPmk
  repeat' with_reducible first
    | assumption | intro _ | apply State.pruneCols_conf | apply State.onMsg_conf | apply State.takePmk_conf | apply SameConfR.next | exact SameConfR.fault
    | exact SameConfR.refused | apply SameConfR.onUnit | apply SameConfR.ite | apply SameConf.ite | apply SameConf.foldl | (simp only [SameConf.mk_iff]; apply SameConf.parts)
    | split | dsimp only

theorem State.colTimeoutHit_conf {s0 : State} {s : State} (q : Nat) (i : Nat) (hs : SameConf s0 s) :
    SameConf s0 (State.colTimeoutHit s q i) := by
  unfold State.colTimeoutHit
  repeat' with_reducible first
    | assumption | intro _ | apply State.endCol_conf | apply State.sendAborts_conf | apply SameConf.ite | apply SameConf.foldl
    | (simp only [SameConf.mk_iff]; apply SameConf.parts) | split | dsimp only

theorem State.takeVerdictMsg_conf {s0 : State} {s : State} (m : FabMsg) (hs : SameConf s0 s) :
    SameConf s0 (State.takeVerdictMsg s m) := by
  unfold State.takeVerdictMsg
  repeat' with_reducible first
    | assumption | intro _
    | (extract_lets +onlyGivenNames x; clear_value (hx : x = _); first | refine SameConf.bind (s := s0) hx ?_ (fun _ => ?_) | (refine SameConf.isFaults x ?_; subst hx) | skip)
    | apply State.holdMsg_conf | apply State.runCol_conf | apply State.failCol_conf | apply State.postmarkRecord_conf | apply SameConf.ite
    | apply SameConf.foldl | (simp only [SameConf.mk_iff]; apply SameConf.parts) | split | dsimp only

theorem State.takeAck_conf {s0 : State} {s : State} (m : FabMsg) (hs : SameConf s0 s) :
    SameConf s0 (State.takeAck s m) := by
  unfold State.takeAck
  repeat' with_reducible first
    | assumption | intro _
    | (extract_lets +onlyGivenNames x; clear_value (hx : x = _); first | refine SameConf.bind (s := s0) hx ?_ (fun _ => ?_) | (refine SameConf.isFaults x ?_; subst hx) | skip)
    | apply State.runCol_conf | apply State.putCol_conf | apply State.sendChunk_conf | apply State.count_conf | apply SameConf.ite | apply SameConf.foldl
    | (simp only [SameConf.mk_iff]; apply SameConf.parts) | split | dsimp only

theorem State.takeReady_conf {s0 : State} {s : State} (m : FabMsg) (hs : SameConf s0 s) :
    SameConf s0 (State.takeReady s m) := by
  unfold State.takeReady
  repeat' with_reducible first
    | assumption | intro _
    | (extract_lets +onlyGivenNames x; clear_value (hx : x = _); first | refine SameConf.bind (s := s0) hx ?_ (fun _ => ?_) | (refine SameConf.isFaults x ?_; subst hx) | skip)
    | apply State.sendCtrl_conf | apply State.holdMsg_conf | apply State.runCol_conf | apply State.sendChunk_conf | apply State.failCol_conf
    | apply SameConf.ite | apply SameConf.foldl | (simp only [SameConf.mk_iff]; apply SameConf.parts) | split | dsimp only

theorem State.takeCol_conf {s0 : State} {s : State} (m : FabMsg) (hs : SameConf s0 s) :
    SameConf s0 (State.takeCol s m) := by
  unfold State.takeCol
  repeat' with_reducible first
    | assumption | intro _ | apply State.takeVerdictMsg_conf | apply State.takeAck_conf | apply State.takeReady_conf | apply State.takeSpot_conf
    | apply State.takeCtrl_conf | apply State.takePmk_conf | apply SameConf.ite | apply SameConf.foldl | (simp only [SameConf.mk_iff]; apply SameConf.parts) | split
    | dsimp only

theorem State.resendChunks_conf {s0 : State} {s : State} (q : Nat) (i : Nat) (hs : SameConf s0 s) :
    SameConf s0 (State.resendChunks s q i) := by
  unfold State.resendChunks
  repeat' with_reducible first
    | assumption | intro _
    | (extract_lets +onlyGivenNames x; clear_value (hx : x = _); first | refine SameConf.bind (s := s0) hx ?_ (fun _ => ?_) | (refine SameConf.isFaults x ?_; subst hx) | skip)
    | apply State.putCol_conf | apply State.sendChunk_conf | apply State.failCol_conf | apply State.count_conf | apply SameConf.ite | apply SameConf.foldl
    | (simp only [SameConf.mk_iff]; apply SameConf.parts) | split | dsimp only

theorem execColVerdict_conf {s0 : State} (k : Nat) {s : State} (hs : SameConf s0 s) :
    SameConfR s0 (execColVerdict k s) := by
  unfold execColVerdict
  repeat' with_reducible first
    | assumption | intro _ | apply State.takeVerdictMsg_conf | apply State.pruneCols_conf | apply State.onMsg_conf | apply SameConfR.next
    | exact SameConfR.fault | exact SameConfR.refused | apply SameConfR.onUnit | apply SameConfR.ite | apply SameConf.ite | apply SameConf.foldl
    | (simp only [SameConf.mk_iff]; apply SameConf.parts) | split | dsimp only

theorem State.colCheck_conf {s0 : State} {s : State} (c : Collective) (hs : SameConf s0 s) :
    SameConf s0 (State.colCheck s c).1 := by
  unfold State.colCheck
  repeat' with_reducible first
    | assumption | intro _
    | (extract_lets +onlyGivenNames x; clear_value (hx : x = _); first | refine SameConf.bind (s := s0) hx ?_ (fun _ => ?_) | refine SameConf.bindFst (s := s0) hx ?_ (fun _ => ?_) | refine SameConf.bindJob (s := s0) hx ?_ (fun _ => ?_) | refine SameConf.bindRes (s := s0) hx ?_ (fun _ => ?_) | (refine SameConf.isFaults x ?_; subst hx) | skip)
    | apply JobSt.checkRange_conf | apply SameConf.ite | apply SameConf.foldl | (simp only [SameConf.mk_iff]; apply SameConf.parts) | apply SameConf.iteFst
    | apply SameConf.iteSnd | apply SameConf.iteJob | apply SameConf.foldlJob | refine SameConf.fstEq (by assumption) ?_ | split | dsimp only

theorem State.sendSpots_conf {s0 : State} {s : State} (c : Collective) (hs : SameConf s0 s) :
    SameConf s0 (State.sendSpots s c) := by
  unfold State.sendSpots
  repeat' with_reducible first
    | assumption | intro _
    | (extract_lets +onlyGivenNames x; clear_value (hx : x = _); first | refine SameConf.bind (s := s0) hx ?_ (fun _ => ?_) | (refine SameConf.isFaults x ?_; subst hx) | skip)
    | apply State.sendSpotPiece_conf | apply SameConf.ite | apply SameConf.foldl | (simp only [SameConf.mk_iff]; apply SameConf.parts) | split | dsimp only

theorem State.replayEarly_conf {s0 : State} {s : State} (c : Collective) (hs : SameConf s0 s) :
    SameConf s0 (State.replayEarly s c) := by
  unfold State.replayEarly
  repeat' with_reducible first
    | assumption | intro _
    | (extract_lets +onlyGivenNames x; clear_value (hx : x = _); first | refine SameConf.bind (s := s0) hx ?_ (fun _ => ?_) | (refine SameConf.isFaults x ?_; subst hx) | skip)
    | apply State.takeCol_conf | apply State.colStatus_conf | apply SameConf.ite | apply SameConf.foldl | (simp only [SameConf.mk_iff]; apply SameConf.parts) | split
    | dsimp only

theorem State.startCol_conf {s0 : State} {s : State} (fl : Flight) (hs : SameConf s0 s) :
    SameConf s0 (State.startCol s fl) := by
  unfold State.startCol
  repeat' with_reducible first
    | assumption | intro _ | apply State.refuseCol_conf
    | (extract_lets +onlyGivenNames x; clear_value (hx : x = _); first | refine SameConf.bind (s := s0) hx ?_ (fun _ => ?_) | refine SameConf.bindFst (s := s0) hx ?_ (fun _ => ?_) | (refine SameConf.isFaults x ?_; subst hx) | skip)
    | apply State.sendSpots_conf | apply State.runCol_conf | apply State.replayEarly_conf | apply State.endFlight_conf | apply State.colCheck_conf
    | apply State.failCol_conf | apply State.sendReady_conf | apply State.colStatus_conf | apply SameConf.ite | apply SameConf.foldl
    | (simp only [SameConf.mk_iff]; apply SameConf.parts) | apply SameConf.iteFst | apply SameConf.iteSnd | refine SameConf.fstEq (by assumption) ?_ | split | dsimp only

theorem State.collective_conf {s0 : State} {s : State} (q : Nat) (i : Nat) (op : Nat) (hs : SameConf s0 s) :
    SameConfR s0 (State.collective s q i op) := by
  unfold State.collective
  repeat' with_reducible first
    | assumption | intro _ | apply State.pruneCols_conf | apply State.dispatch_conf | apply State.failCol_conf | apply State.startCol_conf
    | apply SameConfR.next | exact SameConfR.fault | exact SameConfR.refused | apply SameConfR.onUnit | apply SameConfR.ite | apply SameConf.ite | apply SameConf.foldl
    | (simp only [SameConf.mk_iff]; apply SameConf.parts) | split | dsimp only

theorem execAllgather_conf {s0 : State} (q : Nat) (i : Nat) {s : State} (hs : SameConf s0 s) :
    SameConfR s0 (execAllgather q i s) := by
  unfold execAllgather
  repeat' with_reducible first
    | assumption | intro _ | apply State.collective_conf | apply SameConfR.next | exact SameConfR.fault | exact SameConfR.refused | apply SameConfR.onUnit
    | apply SameConfR.ite | apply SameConf.ite | apply SameConf.foldl | (simp only [SameConf.mk_iff]; apply SameConf.parts) | split | dsimp only

theorem execCollectiveTimeout_conf {s0 : State} (q : Nat) (i : Nat) {s : State} (hs : SameConf s0 s) :
    SameConfR s0 (execCollectiveTimeout q i s) := by
  unfold execCollectiveTimeout
  repeat' with_reducible first
    | assumption | intro _ | apply State.pruneCols_conf | apply State.colTimeoutHit_conf | apply SameConfR.next | exact SameConfR.fault | exact SameConfR.refused
    | apply SameConfR.onUnit | apply SameConfR.ite | apply SameConf.ite | apply SameConf.foldl | (simp only [SameConf.mk_iff]; apply SameConf.parts) | split | dsimp only

theorem execBroadcast_conf {s0 : State} (q : Nat) (i : Nat) {s : State} (hs : SameConf s0 s) :
    SameConfR s0 (execBroadcast q i s) := by
  unfold execBroadcast
  repeat' with_reducible first
    | assumption | intro _ | apply State.collective_conf | apply SameConfR.next | exact SameConfR.fault | exact SameConfR.refused | apply SameConfR.onUnit
    | apply SameConfR.ite | apply SameConf.ite | apply SameConf.foldl | (simp only [SameConf.mk_iff]; apply SameConf.parts) | split | dsimp only

theorem State.takeColData_conf {s0 : State} {s : State} (m : FabMsg) (hs : SameConf s0 s) :
    SameConf s0 (State.takeColData s m) := by
  unfold State.takeColData
  repeat' with_reducible first
    | assumption | intro _
    | (extract_lets +onlyGivenNames x; clear_value (hx : x = _); first | refine SameConf.bind (s := s0) hx ?_ (fun _ => ?_) | (refine SameConf.isFaults x ?_; subst hx) | skip)
    | apply State.checkChunk_conf | apply State.count_conf | apply SameConf.ite | apply SameConf.foldl | (simp only [SameConf.mk_iff]; apply SameConf.parts) | split
    | dsimp only

theorem execColData_conf {s0 : State} (k : Nat) {s : State} (hs : SameConf s0 s) :
    SameConfR s0 (execColData k s) := by
  unfold execColData
  repeat' with_reducible first
    | assumption | intro _ | apply State.pruneCols_conf | apply State.takeColData_conf | apply State.onMsg_conf | apply SameConfR.next | exact SameConfR.fault
    | exact SameConfR.refused | apply SameConfR.onUnit | apply SameConfR.ite | apply SameConf.ite | apply SameConf.foldl | (simp only [SameConf.mk_iff]; apply SameConf.parts)
    | split | dsimp only

theorem execColCtrl_conf {s0 : State} (k : Nat) {s : State} (hs : SameConf s0 s) :
    SameConfR s0 (execColCtrl k s) := by
  unfold execColCtrl
  repeat' with_reducible first
    | assumption | intro _ | apply State.pruneCols_conf | apply State.onMsg_conf | apply State.takeCtrl_conf | apply SameConfR.next | exact SameConfR.fault
    | exact SameConfR.refused | apply SameConfR.onUnit | apply SameConfR.ite | apply SameConf.ite | apply SameConf.foldl | (simp only [SameConf.mk_iff]; apply SameConf.parts)
    | split | dsimp only

theorem execReduceScatter_conf {s0 : State} (q : Nat) (i : Nat) {s : State} (hs : SameConf s0 s) :
    SameConfR s0 (execReduceScatter q i s) := by
  unfold execReduceScatter
  repeat' with_reducible first
    | assumption | intro _ | apply State.collective_conf | apply SameConfR.next | exact SameConfR.fault | exact SameConfR.refused | apply SameConfR.onUnit
    | apply SameConfR.ite | apply SameConf.ite | apply SameConf.foldl | (simp only [SameConf.mk_iff]; apply SameConf.parts) | split | dsimp only

theorem execBarrier_conf {s0 : State} (q : Nat) (i : Nat) {s : State} (hs : SameConf s0 s) :
    SameConfR s0 (execBarrier q i s) := by
  unfold execBarrier
  repeat' with_reducible first
    | assumption | intro _ | apply State.collective_conf | apply SameConfR.next | exact SameConfR.fault | exact SameConfR.refused | apply SameConfR.onUnit
    | apply SameConfR.ite | apply SameConf.ite | apply SameConf.foldl | (simp only [SameConf.mk_iff]; apply SameConf.parts) | split | dsimp only

theorem execChunkResend_conf {s0 : State} (q : Nat) (i : Nat) {s : State} (hs : SameConf s0 s) :
    SameConfR s0 (execChunkResend q i s) := by
  unfold execChunkResend
  repeat' with_reducible first
    | assumption | intro _ | apply State.pruneCols_conf | apply State.resendChunks_conf | apply SameConfR.next | exact SameConfR.fault | exact SameConfR.refused
    | apply SameConfR.onUnit | apply SameConfR.ite | apply SameConf.ite | apply SameConf.foldl | (simp only [SameConf.mk_iff]; apply SameConf.parts) | split | dsimp only

theorem execAlltoallv_conf {s0 : State} (q : Nat) (i : Nat) {s : State} (hs : SameConf s0 s) :
    SameConfR s0 (execAlltoallv q i s) := by
  unfold execAlltoallv
  repeat' with_reducible first
    | assumption | intro _ | apply State.collective_conf | apply SameConfR.next | exact SameConfR.fault | exact SameConfR.refused | apply SameConfR.onUnit
    | apply SameConfR.ite | apply SameConf.ite | apply SameConf.foldl | (simp only [SameConf.mk_iff]; apply SameConf.parts) | split | dsimp only

theorem execColAck_conf {s0 : State} (k : Nat) {s : State} (hs : SameConf s0 s) :
    SameConfR s0 (execColAck k s) := by
  unfold execColAck
  repeat' with_reducible first
    | assumption | intro _ | apply State.takeAck_conf | apply State.pruneCols_conf | apply State.onMsg_conf | apply SameConfR.next | exact SameConfR.fault
    | exact SameConfR.refused | apply SameConfR.onUnit | apply SameConfR.ite | apply SameConf.ite | apply SameConf.foldl | (simp only [SameConf.mk_iff]; apply SameConf.parts)
    | split | dsimp only

theorem execReduce_conf {s0 : State} (q : Nat) (i : Nat) {s : State} (hs : SameConf s0 s) :
    SameConfR s0 (execReduce q i s) := by
  unfold execReduce
  repeat' with_reducible first
    | assumption | intro _ | apply State.collective_conf | apply SameConfR.next | exact SameConfR.fault | exact SameConfR.refused | apply SameConfR.onUnit
    | apply SameConfR.ite | apply SameConf.ite | apply SameConf.foldl | (simp only [SameConf.mk_iff]; apply SameConf.parts) | split | dsimp only

theorem execColReady_conf {s0 : State} (k : Nat) {s : State} (hs : SameConf s0 s) :
    SameConfR s0 (execColReady k s) := by
  unfold execColReady
  repeat' with_reducible first
    | assumption | intro _ | apply State.pruneCols_conf | apply State.takeReady_conf | apply State.onMsg_conf | apply SameConfR.next | exact SameConfR.fault
    | exact SameConfR.refused | apply SameConfR.onUnit | apply SameConfR.ite | apply SameConf.ite | apply SameConf.foldl | (simp only [SameConf.mk_iff]; apply SameConf.parts)
    | split | dsimp only

theorem execAllreduce_conf {s0 : State} (q : Nat) (i : Nat) {s : State} (hs : SameConf s0 s) :
    SameConfR s0 (execAllreduce q i s) := by
  unfold execAllreduce
  repeat' with_reducible first
    | assumption | intro _ | apply State.collective_conf | apply SameConfR.next | exact SameConfR.fault | exact SameConfR.refused | apply SameConfR.onUnit
    | apply SameConfR.ite | apply SameConf.ite | apply SameConf.foldl | (simp only [SameConf.mk_iff]; apply SameConf.parts) | split | dsimp only

end Sys2Proof.Machine
end

