-- ==== Sys2Proof/Laws/SameConfSteps.lean ====
section
/-!
SUPPORT. What the operations of Machine/Steps.lean leave alone (Laws/SameConf.lean).
-/

set_option linter.all false

namespace Sys2Proof.Machine

theorem State.hwWrite_conf {s0 : State} {s : State} (f : Nat) (a : Nat) (bs : List Byte) (hs : SameConf s0 s) :
    SameConf s0 (State.hwWrite s f a bs) := by
  unfold State.hwWrite
  repeat' with_reducible first
    | assumption | intro _ | apply State.purgeRange_conf | apply State.sealWrite_conf | apply State.traffic_conf | apply SameConf.ite | apply SameConf.foldl
    | (simp only [SameConf.mk_iff]; apply SameConf.parts) | split | dsimp only

theorem State.commitWatch_conf {s0 : State} {s : State} (f : Nat) (w : Nat) (hs : SameConf s0 s) :
    SameConf s0 (State.commitWatch s f w) := by
  unfold State.commitWatch
  repeat' with_reducible first
    | assumption | intro _
    | (extract_lets +onlyGivenNames x; clear_value (hx : x = _); first | refine SameConf.bind (s := s0) hx ?_ (fun _ => ?_) | (refine SameConf.isFaults x ?_; subst hx) | skip)
    | apply State.hwWrite_conf | apply State.count_conf | apply SameConf.ite | apply SameConf.foldl | (simp only [SameConf.mk_iff]; apply SameConf.parts) | split
    | dsimp only

theorem State.sendDecision_conf {s0 : State} {s : State} (f : Nat) (m : Comm) (down : Bool) (src : Nat) (dst : Nat) (c : Contrib) (hs : SameConf s0 s) :
    SameConf s0 (State.sendDecision s f m down src dst c) := by
  unfold State.sendDecision
  repeat' with_reducible first
    | assumption | intro _ | apply State.sendMsg_conf | apply SameConf.ite | apply SameConf.foldl | (simp only [SameConf.mk_iff]; apply SameConf.parts) | split
    | dsimp only

theorem State.passDown_conf {s0 : State} {s : State} (f : Nat) (m : Comm) (d : Decision) (hs : SameConf s0 s) :
    SameConf s0 (State.passDown s f m d) := by
  unfold State.passDown
  repeat' with_reducible first
    | assumption | intro _ | apply State.sendDecision_conf | apply SameConf.ite | apply SameConf.foldl | (simp only [SameConf.mk_iff]; apply SameConf.parts) | split
    | dsimp only

theorem State.restore_conf {s0 : State} {s : State} (f : Nat) (q : Nat) (i : Nat) (hs : SameConf s0 s) :
    SameConf s0 (State.restore s f q i) := by
  unfold State.restore
  repeat' with_reducible first
    | assumption | intro _
    | (extract_lets +onlyGivenNames x; clear_value (hx : x = _); first | refine SameConf.bind (s := s0) hx ?_ (fun _ => ?_) | refine SameConf.bindJob (s := s0) hx ?_ (fun _ => ?_) | refine SameConf.bindRes (s := s0) hx ?_ (fun _ => ?_) | (refine SameConf.isFaults x ?_; subst hx) | skip)
    | apply State.modCore_conf | apply State.setFld_conf | apply State.setSem_conf | apply State.setSeedpos_conf | apply State.refreshHeads_conf
    | apply State.runJob_conf | apply SameConf.ite | apply SameConf.foldl | (simp only [SameConf.mk_iff]; apply SameConf.parts) | apply SameConf.iteJob
    | apply SameConf.foldlJob | split | dsimp only

theorem State.clearWatches_conf {s0 : State} {s : State} (f : Nat) (hs : SameConf s0 s) :
    SameConf s0 (State.clearWatches s f) := by
  unfold State.clearWatches
  repeat' with_reducible first
    | assumption | intro _ | apply State.hwWrite_conf | apply SameConf.ite | apply SameConf.foldl | (simp only [SameConf.mk_iff]; apply SameConf.parts) | split
    | dsimp only

theorem State.setStep_conf {s0 : State} {s : State} (f : Nat) (st : Nat) (hs : SameConf s0 s) :
    SameConf s0 (State.setStep s f st) := by
  unfold State.setStep
  repeat' with_reducible first
    | assumption | intro _ | apply State.setFld_conf | apply SameConf.ite | apply SameConf.foldl | (simp only [SameConf.mk_iff]; apply SameConf.parts) | split
    | dsimp only

theorem State.watchEffects_conf {s0 : State} {s : State} (f : Nat) (na : Nat) (ws : List Nat) (hs : SameConf s0 s) :
    SameConf s0 (State.watchEffects s f na ws) := by
  unfold State.watchEffects
  repeat' with_reducible first
    | assumption | intro _
    | (extract_lets +onlyGivenNames x; clear_value (hx : x = _); first | refine SameConf.bind (s := s0) hx ?_ (fun _ => ?_) | (refine SameConf.isFaults x ?_; subst hx) | skip)
    | apply State.hwWrite_conf | apply SameConf.ite | apply SameConf.foldl | (simp only [SameConf.mk_iff]; apply SameConf.parts) | split | dsimp only

theorem State.openAttempt_conf {s0 : State} {s : State} (f : Nat) (attempt : Nat) (hs : SameConf s0 s) :
    SameConf s0 (State.openAttempt s f attempt) := by
  unfold State.openAttempt
  repeat' with_reducible first
    | assumption | intro _
    | (extract_lets +onlyGivenNames x; clear_value (hx : x = _); first | refine SameConf.bind (s := s0) hx ?_ (fun _ => ?_) | (refine SameConf.isFaults x ?_; subst hx) | skip)
    | apply State.setReg_conf | apply State.setStep_conf | apply State.setFld_conf | apply State.setCause_conf | apply State.modDomain_conf
    | apply SameConf.ite | apply SameConf.foldl | (simp only [SameConf.mk_iff]; apply SameConf.parts) | split | dsimp only

theorem State.stepRecord_conf {s0 : State} {s : State} (f : Nat) (step : Nat) (outcome : Nat) (causes : Nat) (localCauses : Nat) (bc : Nat) (flip : Nat) (hs : SameConf s0 s) :
    SameConf s0 (State.stepRecord s f step outcome causes localCauses bc flip) := by
  unfold State.stepRecord
  repeat' with_reducible first
    | assumption | intro _ | apply State.hwWrite_conf | apply State.draw_conf | apply SameConf.ite | apply SameConf.foldl | (simp only [SameConf.mk_iff]; apply SameConf.parts) | split
    | dsimp only

theorem State.abort_conf {s0 : State} {s : State} (f : Nat) (q : Nat) (i : Nat) (action : Nat) (causes : Nat) (bc : Nat) (policy : Bool) (hs : SameConf s0 s) :
    SameConf s0 (State.abort s f q i action causes bc policy) := by
  unfold State.abort
  repeat' with_reducible first
    | assumption | intro _
    | (extract_lets +onlyGivenNames x; clear_value (hx : x = _); first | refine SameConf.bind (s := s0) hx ?_ (fun _ => ?_) | (refine SameConf.isFaults x ?_; subst hx) | skip)
    | apply State.setReg_conf | apply State.restore_conf | apply State.clearWatches_conf | apply State.setStep_conf | apply State.setFld_conf
    | apply State.watchEffects_conf | apply State.endFlight_conf | apply State.openAttempt_conf | apply State.stepRecord_conf | apply State.count_conf
    | apply State.modDomain_conf | apply SameConf.ite | apply SameConf.foldl | (simp only [SameConf.mk_iff]; apply SameConf.parts) | split | dsimp only

theorem State.commitMaps_conf {s0 : State} {s : State} (f : Nat) (hs : SameConf s0 s) :
    SameConf s0 (State.commitMaps s f) := by
  unfold State.commitMaps
  repeat' with_reducible first
    | assumption | intro _
    | (extract_lets +onlyGivenNames x; clear_value (hx : x = _); first | refine SameConf.bind (s := s0) hx ?_ (fun _ => ?_) | (refine SameConf.isFaults x ?_; subst hx) | skip)
    | apply State.hwWrite_conf | apply SameConf.ite | apply SameConf.foldl | (simp only [SameConf.mk_iff]; apply SameConf.parts) | split | dsimp only

theorem State.flip_conf {s0 : State} {s : State} (f : Nat) (d : Decision) (hs : SameConf s0 s) :
    SameConf s0 (State.flip s f d) := by
  unfold State.flip
  repeat' with_reducible first
    | assumption | intro _
    | (extract_lets +onlyGivenNames x; clear_value (hx : x = _); first | refine SameConf.bind (s := s0) hx ?_ (fun _ => ?_) | (refine SameConf.isFaults x ?_; subst hx) | skip)
    | apply State.setReg_conf | apply State.setStep_conf | apply State.setFld_conf | apply State.commitWatch_conf | apply State.hwWrite_conf
    | apply State.endFlight_conf | apply State.commitMaps_conf | apply State.stepRecord_conf | apply State.count_conf | apply State.modDomain_conf
    | apply SameConf.ite | apply SameConf.foldl | (simp only [SameConf.mk_iff]; apply SameConf.parts) | split | dsimp only

theorem State.noteStepSlip_conf {s0 : State} {s : State} (f : Nat) (q : Nat) (i : Nat) (hs : SameConf s0 s) :
    SameConf s0 (State.noteStepSlip s f q i) := by
  unfold State.noteStepSlip
  repeat' with_reducible first
    | assumption | intro _
    | (extract_lets +onlyGivenNames x; clear_value (hx : x = _); first | refine SameConf.bind (s := s0) hx ?_ (fun _ => ?_) | (refine SameConf.isFaults x ?_; subst hx) | skip)
    | apply State.setReg_conf | apply State.count_conf | apply SameConf.ite | apply SameConf.foldl | (simp only [SameConf.mk_iff]; apply SameConf.parts) | split
    | dsimp only

theorem State.stepDecide_conf {s0 : State} {s : State} (f : Nat) (d : Decision) (hs : SameConf s0 s) :
    SameConf s0 (State.stepDecide s f d) := by
  unfold State.stepDecide
  repeat' with_reducible first
    | assumption | intro _
    | (extract_lets +onlyGivenNames x; clear_value (hx : x = _); first | refine SameConf.bind (s := s0) hx ?_ (fun _ => ?_) | (refine SameConf.isFaults x ?_; subst hx) | skip)
    | apply State.abort_conf | apply State.flip_conf | apply State.noteStepSlip_conf | apply State.count_conf | apply State.modDomain_conf
    | apply SameConf.ite | apply SameConf.foldl | (simp only [SameConf.mk_iff]; apply SameConf.parts) | split | dsimp only

theorem State.stepReduce_conf {s0 : State} {s : State} (f : Nat) (hs : SameConf s0 s) :
    SameConf s0 (State.stepReduce s f) := by
  unfold State.stepReduce
  repeat' with_reducible first
    | assumption | intro _
    | (extract_lets +onlyGivenNames x; clear_value (hx : x = _); first | refine SameConf.bind (s := s0) hx ?_ (fun _ => ?_) | (refine SameConf.isFaults x ?_; subst hx) | skip)
    | apply State.passDown_conf | apply State.stepDecide_conf | apply State.sendDecision_conf | apply State.modDomain_conf | apply SameConf.ite
    | apply SameConf.foldl | (simp only [SameConf.mk_iff]; apply SameConf.parts) | split | dsimp only

theorem State.alarm_conf {s0 : State} {s : State} (f : Nat) (w : Nat) (n : Nat) (bit : Nat) (hs : SameConf s0 s) :
    SameConf s0 (State.alarm s f w n bit) := by
  unfold State.alarm
  repeat' with_reducible first
    | assumption | intro _
    | (extract_lets +onlyGivenNames x; clear_value (hx : x = _); first | refine SameConf.bind (s := s0) hx ?_ (fun _ => ?_) | (refine SameConf.isFaults x ?_; subst hx) | skip)
    | apply State.addSem_conf | apply State.setCause_conf | apply State.hwWrite_conf | apply State.refreshHeads_conf | apply State.count_conf
    | apply State.modDomain_conf | apply State.event_conf | apply SameConf.ite | apply SameConf.foldl | (simp only [SameConf.mk_iff]; apply SameConf.parts) | split
    | dsimp only

theorem State.stepSample_conf {s0 : State} {s : State} (f : Nat) (hs : SameConf s0 s) :
    SameConf s0 (State.stepSample s f) := by
  unfold State.stepSample
  repeat' with_reducible first
    | assumption | intro _
    | (extract_lets +onlyGivenNames x; clear_value (hx : x = _); first | refine SameConf.bind (s := s0) hx ?_ (fun _ => ?_) | (refine SameConf.isFaults x ?_; subst hx) | skip)
    | apply State.setStep_conf | apply State.setCause_conf | apply State.stepDecide_conf | apply State.stepReduce_conf | apply State.modDomain_conf
    | apply SameConf.ite | apply SameConf.foldl | (simp only [SameConf.mk_iff]; apply SameConf.parts) | split | dsimp only

theorem execStepCommitSample_conf {s0 : State} (f : Nat) {s : State} (hs : SameConf s0 s) :
    SameConfR s0 (execStepCommitSample f s) := by
  unfold execStepCommitSample
  repeat' with_reducible first
    | assumption | intro _ | apply onUnit_conf | apply State.stepSample_conf | apply SameConfR.next | exact SameConfR.fault | exact SameConfR.refused
    | apply SameConfR.onUnit | apply SameConfR.ite | apply SameConf.ite | apply SameConf.foldl | (simp only [SameConf.mk_iff]; apply SameConf.parts) | split | dsimp only

theorem State.evalWatch_conf {s0 : State} {s : State} (f : Nat) (w : Nat) (hs : SameConf s0 s) :
    SameConf s0 (State.evalWatch s f w) := by
  unfold State.evalWatch
  repeat' with_reducible first
    | assumption | intro _
    | (extract_lets +onlyGivenNames x; clear_value (hx : x = _); first | refine SameConf.bind (s := s0) hx ?_ (fun _ => ?_) | (refine SameConf.isFaults x ?_; subst hx) | skip)
    | apply State.hwWrite_conf | apply State.alarm_conf | apply State.count_conf | apply SameConf.ite | apply SameConf.foldl
    | (simp only [SameConf.mk_iff]; apply SameConf.parts) | split | dsimp only

theorem State.stepCommit_conf {s0 : State} {s : State} (fl : Flight) (hs : SameConf s0 s) :
    SameConf s0 (State.stepCommit s fl) := by
  unfold State.stepCommit
  repeat' with_reducible first
    | assumption | intro _
    | (extract_lets +onlyGivenNames x; clear_value (hx : x = _); first | refine SameConf.bind (s := s0) hx ?_ (fun _ => ?_) | (refine SameConf.isFaults x ?_; subst hx) | skip)
    | apply State.endFlight_conf | apply State.modDomain_conf | apply SameConf.ite | apply SameConf.foldl | (simp only [SameConf.mk_iff]; apply SameConf.parts)
    | split | dsimp only

theorem execStepCommit_conf {s0 : State} (q : Nat) (i : Nat) {s : State} (hs : SameConf s0 s) :
    SameConfR s0 (execStepCommit q i s) := by
  unfold execStepCommit
  repeat' with_reducible first
    | assumption | intro _ | apply State.stepCommit_conf | apply State.dispatch_conf | apply SameConfR.next | exact SameConfR.fault | exact SameConfR.refused
    | apply SameConfR.onUnit | apply SameConfR.ite | apply SameConf.ite | apply SameConf.foldl | (simp only [SameConf.mk_iff]; apply SameConf.parts) | split | dsimp only

theorem execHaltClr_conf {s0 : State} (f : Nat) {s : State} (hs : SameConf s0 s) :
    SameConfR s0 (execHaltClr f s) := by
  unfold execHaltClr
  repeat' with_reducible first
    | assumption | intro _ | apply State.setStep_conf | apply onUnit_conf | apply SameConfR.next | exact SameConfR.fault | exact SameConfR.refused
    | apply SameConfR.onUnit | apply SameConfR.ite | apply SameConf.ite | apply SameConf.foldl | (simp only [SameConf.mk_iff]; apply SameConf.parts) | split | dsimp only

theorem State.takePart_conf {s0 : State} {s : State} (f : Nat) (w : Nat) (p : Nat) (sum : Nat) (hs : SameConf s0 s) :
    SameConf s0 (State.takePart s f w p sum) := by
  unfold State.takePart
  repeat' with_reducible first
    | assumption | intro _
    | (extract_lets +onlyGivenNames x; clear_value (hx : x = _); first | refine SameConf.bind (s := s0) hx ?_ (fun _ => ?_) | (refine SameConf.isFaults x ?_; subst hx) | skip)
    | apply State.hwWrite_conf | apply State.evalWatch_conf | apply SameConf.ite | apply SameConf.foldl | (simp only [SameConf.mk_iff]; apply SameConf.parts) | split
    | dsimp only

theorem State.normPart_conf {s0 : State} {s : State} (q : Nat) (i : Nat) (stop : Option Nat) (fl : Flight) (hs : SameConf s0 s) :
    SameConf s0 (State.normPart s q i stop fl) := by
  unfold State.normPart
  repeat' with_reducible first
    | assumption | intro _
    | (extract_lets +onlyGivenNames x; clear_value (hx : x = _); first | refine SameConf.bind (s := s0) hx ?_ (fun _ => ?_) | refine SameConf.bindJob (s := s0) hx ?_ (fun _ => ?_) | refine SameConf.bindRes (s := s0) hx ?_ (fun _ => ?_) | (refine SameConf.isFaults x ?_; subst hx) | skip)
    | apply State.takePart_conf | apply State.runJob_conf | apply JobResult.finish_conf | apply SameConf.ite | apply SameConf.foldl
    | (simp only [SameConf.mk_iff]; apply SameConf.parts) | apply SameConf.iteJob | apply SameConf.foldlJob | split | dsimp only

theorem State.commitTimeout_conf {s0 : State} {s : State} (f : Nat) (hs : SameConf s0 s) :
    SameConf s0 (State.commitTimeout s f) := by
  unfold State.commitTimeout
  repeat' with_reducible first
    | assumption | intro _
    | (extract_lets +onlyGivenNames x; clear_value (hx : x = _); first | refine SameConf.bind (s := s0) hx ?_ (fun _ => ?_) | (refine SameConf.isFaults x ?_; subst hx) | skip)
    | apply State.setStep_conf | apply State.setFld_conf | apply State.endFlight_conf | apply State.stepRecord_conf | apply State.modDomain_conf
    | apply SameConf.ite | apply SameConf.foldl | (simp only [SameConf.mk_iff]; apply SameConf.parts) | split | dsimp only

theorem execCommitFlip_conf {s0 : State} (f : Nat) {s : State} (hs : SameConf s0 s) :
    SameConfR s0 (execCommitFlip f s) := by
  unfold execCommitFlip
  repeat' with_reducible first
    | assumption | intro _ | apply onUnit_conf | apply State.flip_conf | apply SameConfR.next | exact SameConfR.fault | exact SameConfR.refused
    | apply SameConfR.onUnit | apply SameConfR.ite | apply SameConf.ite | apply SameConf.foldl | (simp only [SameConf.mk_iff]; apply SameConf.parts) | split | dsimp only

theorem execStepAbort_conf {s0 : State} (q : Nat) (i : Nat) {s : State} (hs : SameConf s0 s) :
    SameConfR s0 (execStepAbort q i s) := by
  unfold execStepAbort
  repeat' with_reducible first
    | assumption | intro _ | apply State.abort_conf | apply State.dispatch_conf | apply State.endFlight_conf | apply SameConfR.next | exact SameConfR.fault
    | exact SameConfR.refused | apply SameConfR.onUnit | apply SameConfR.ite | apply SameConf.ite | apply SameConf.foldl | (simp only [SameConf.mk_iff]; apply SameConf.parts)
    | split | dsimp only

theorem State.takeDecision_conf {s0 : State} {s : State} (m : FabMsg) (hs : SameConf s0 s) :
    SameConf s0 (State.takeDecision s m) := by
  unfold State.takeDecision
  repeat' with_reducible first
    | assumption | intro _
    | (extract_lets +onlyGivenNames x; clear_value (hx : x = _); first | refine SameConf.bind (s := s0) hx ?_ (fun _ => ?_) | (refine SameConf.isFaults x ?_; subst hx) | skip)
    | apply State.passDown_conf | apply State.stepDecide_conf | apply State.sendDecision_conf | apply State.stepReduce_conf | apply State.modDomain_conf
    | apply SameConf.ite | apply SameConf.foldl | (simp only [SameConf.mk_iff]; apply SameConf.parts) | split | dsimp only

theorem execColDecision_conf {s0 : State} (k : Nat) {s : State} (hs : SameConf s0 s) :
    SameConfR s0 (execColDecision k s) := by
  unfold execColDecision
  repeat' with_reducible first
    | assumption | intro _ | apply State.onMsg_conf | apply State.takeDecision_conf | apply SameConfR.next | exact SameConfR.fault | exact SameConfR.refused
    | apply SameConfR.onUnit | apply SameConfR.ite | apply SameConf.ite | apply SameConf.foldl | (simp only [SameConf.mk_iff]; apply SameConf.parts) | split | dsimp only

theorem execCommitTimeout_conf {s0 : State} (f : Nat) {s : State} (hs : SameConf s0 s) :
    SameConfR s0 (execCommitTimeout f s) := by
  unfold execCommitTimeout
  repeat' with_reducible first
    | assumption | intro _ | apply onUnit_conf | apply State.commitTimeout_conf | apply SameConfR.next | exact SameConfR.fault | exact SameConfR.refused
    | apply SameConfR.onUnit | apply SameConfR.ite | apply SameConf.ite | apply SameConf.foldl | (simp only [SameConf.mk_iff]; apply SameConf.parts) | split | dsimp only

theorem execNormWatch_conf {s0 : State} (q : Nat) (i : Nat) (stop : Option Nat) {s : State} (hs : SameConf s0 s) :
    SameConfR s0 (execNormWatch q i stop s) := by
  unfold execNormWatch
  repeat' with_reducible first
    | assumption | intro _ | apply State.normPart_conf | apply State.dispatch_conf | apply SameConfR.next | exact SameConfR.fault | exact SameConfR.refused
    | apply SameConfR.onUnit | apply SameConfR.ite | apply SameConf.ite | apply SameConf.foldl | (simp only [SameConf.mk_iff]; apply SameConf.parts) | split | dsimp only

theorem State.stepBegin_conf {s0 : State} {s : State} (fl : Flight) (hs : SameConf s0 s) :
    SameConf s0 (State.stepBegin s fl) := by
  unfold State.stepBegin
  repeat' with_reducible first
    | assumption | intro _
    | (extract_lets +onlyGivenNames x; clear_value (hx : x = _); first | refine SameConf.bind (s := s0) hx ?_ (fun _ => ?_) | refine SameConf.bindJob (s := s0) hx ?_ (fun _ => ?_) | refine SameConf.bindRes (s := s0) hx ?_ (fun _ => ?_) | (refine SameConf.isFaults x ?_; subst hx) | skip)
    | apply State.clearWatches_conf | apply State.setFld_conf | apply State.endFlight_conf | apply State.openAttempt_conf | apply State.stepRecord_conf
    | apply State.runJob_conf | apply State.modDomain_conf | apply JobResult.finish_conf | apply SameConf.ite | apply SameConf.foldl
    | (simp only [SameConf.mk_iff]; apply SameConf.parts) | apply SameConf.iteJob | apply SameConf.foldlJob | split | dsimp only

theorem execStepBegin_conf {s0 : State} (q : Nat) (i : Nat) {s : State} (hs : SameConf s0 s) :
    SameConfR s0 (execStepBegin q i s) := by
  unfold execStepBegin
  repeat' with_reducible first
    | assumption | intro _ | apply State.dispatch_conf | apply State.stepBegin_conf | apply SameConfR.next | exact SameConfR.fault | exact SameConfR.refused
    | apply SameConfR.onUnit | apply SameConfR.ite | apply SameConf.ite | apply SameConf.foldl | (simp only [SameConf.mk_iff]; apply SameConf.parts) | split | dsimp only

end Sys2Proof.Machine
end

