-- ==== Sys2Proof/Laws/SameConfTime.lean ====
section
/-!
SUPPORT. What the operations of Machine/Time.lean leave alone (Laws/SameConf.lean).
-/

set_option linter.all false

namespace Sys2Proof.Machine

theorem State.setBeatState_conf {s0 : State} {s : State} (v : Nat) (hs : SameConf s0 s) :
    SameConf s0 (State.setBeatState s v) := by
  unfold State.setBeatState
  repeat' with_reducible first
    | assumption | intro _ | apply State.setFld_conf | apply State.fabCounts_conf | apply SameConf.ite | apply SameConf.foldl
    | (simp only [SameConf.mk_iff]; apply SameConf.parts) | split | dsimp only

theorem State.phase_conf {s0 : State} {s : State} (ps : Nat) (hs : SameConf s0 s) :
    SameConf s0 (State.phase s ps) := by
  unfold State.phase
  repeat' with_reducible first
    | assumption | intro _ | apply SameConf.ite | apply SameConf.foldl | (simp only [SameConf.mk_iff]; apply SameConf.parts) | split | dsimp only

theorem execTimeSyncReceive_conf {s0 : State} (k : Nat) (ps : Nat) {s : State} (hs : SameConf s0 s) :
    SameConfR s0 (execTimeSyncReceive k ps s) := by
  unfold execTimeSyncReceive
  repeat' with_reducible first
    | assumption | intro _
    | (extract_lets +onlyGivenNames x; clear_value (hx : x = _); first | refine SameConf.bind (s := s0) hx ?_ (fun _ => ?_) | (refine SameConf.isFaults x ?_; subst hx) | skip)
    | apply State.takeMsg_conf | apply State.malformed_conf | apply State.sendLocal_conf | apply State.phase_conf | apply SameConfR.next | exact SameConfR.fault
    | exact SameConfR.refused | apply SameConfR.onUnit | apply SameConfR.ite | apply SameConf.ite | apply SameConf.foldl | (simp only [SameConf.mk_iff]; apply SameConf.parts)
    | refine SameConf.optEq3 (by assumption) ?_ | split | dsimp only

theorem execBeatNowRead_conf {s0 : State} (ps : Nat) {s : State} (hs : SameConf s0 s) :
    SameConfR s0 (execBeatNowRead ps s) := by
  unfold execBeatNowRead
  repeat' with_reducible first
    | assumption | intro _
    | (extract_lets +onlyGivenNames x; clear_value (hx : x = _); first | refine SameConf.bind (s := s0) hx ?_ (fun _ => ?_) | (refine SameConf.isFaults x ?_; subst hx) | skip)
    | apply State.setFld_conf | apply State.phase_conf | apply State.send_conf | apply SameConfR.next | exact SameConfR.fault | exact SameConfR.refused
    | apply SameConfR.onUnit | apply SameConfR.ite | apply SameConf.ite | apply SameConf.foldl | (simp only [SameConf.mk_iff]; apply SameConf.parts) | split | dsimp only

end Sys2Proof.Machine
end

