-- ==== Sys2Proof/Laws/SameConfCoreReqs.lean ====
section
/-!
SUPPORT. What the operations of Machine/CoreReqs.lean leave alone (Laws/SameConf.lean).
-/

set_option linter.all false

namespace Sys2Proof.Machine

theorem State.fill_conf {s0 : State} {s : State} (c : Nat) (r : CoreReq) (p : Nat) (data : List Byte) (hs : SameConf s0 s) :
    SameConf s0 (State.fill s c r p data) := by
  unfold State.fill
  repeat' with_reducible first
    | assumption | intro _
    | (extract_lets +onlyGivenNames x; clear_value (hx : x = _); first | refine SameConf.bind (s := s0) hx ?_ (fun _ => ?_) | (refine SameConf.isFaults x ?_; subst hx) | skip)
    | apply State.modCore_conf | apply State.putBytes_conf | apply SameConf.ite | apply SameConf.foldl | (simp only [SameConf.mk_iff]; apply SameConf.parts) | split
    | dsimp only

theorem State.sendCoh_conf {s0 : State} {s : State} (m : CohMsg) (hs : SameConf s0 s) :
    SameConf s0 (State.sendCoh s m) := by
  unfold State.sendCoh
  repeat' with_reducible first
    | assumption | intro _
    | (extract_lets +onlyGivenNames x; clear_value (hx : x = _); first | refine SameConf.bind (s := s0) hx ?_ (fun _ => ?_) | (refine SameConf.isFaults x ?_; subst hx) | skip)
    | apply SameConf.ite | apply SameConf.foldl | (simp only [SameConf.mk_iff]; apply SameConf.parts) | split | dsimp only

theorem State.evictLine_conf {s0 : State} {s : State} (k : Nat) (l : Nat) (hs : SameConf s0 s) :
    SameConf s0 (State.evictLine s k l) := by
  unfold State.evictLine
  repeat' with_reducible first
    | assumption | intro _
    | (extract_lets +onlyGivenNames x; clear_value (hx : x = _); first | refine SameConf.bind (s := s0) hx ?_ (fun _ => ?_) | (refine SameConf.isFaults x ?_; subst hx) | skip)
    | apply State.sendCoh_conf | apply State.invalPf_conf | apply State.setCLine_conf | apply State.count_conf | apply SameConf.ite | apply SameConf.foldl
    | (simp only [SameConf.mk_iff]; apply SameConf.parts) | split | dsimp only

theorem State.makeRoom_conf {s0 : State} {s : State} (k : Nat) (l : Nat) (hs : SameConf s0 s) :
    SameConfO (fun x => x) s0 (State.makeRoom s k l) := by
  unfold State.makeRoom
  repeat' with_reducible first
    | assumption | intro _
    | (extract_lets +onlyGivenNames x; clear_value (hx : x = _); first | refine SameConf.bind (s := s0) hx ?_ (fun _ => ?_) | (refine SameConf.isFaults x ?_; subst hx) | skip)
    | apply State.evictLine_conf | exact SameConfO.none | apply SameConfO.some | apply SameConfO.ite | apply SameConf.ite | apply SameConf.foldl
    | (simp only [SameConf.mk_iff]; apply SameConf.parts) | refine SameConf.optEq (by assumption) ?_ | apply SameConf.getD | split | dsimp only

theorem State.clusterRequest_conf {s0 : State} {s : State} (kind : CohKind) (l : Nat) (k : Nat) (hs : SameConf s0 s) :
    SameConf s0 (State.clusterRequest s kind l k) := by
  unfold State.clusterRequest
  repeat' with_reducible first
    | assumption | intro _ | apply State.sendCoh_conf | apply State.count_conf | apply SameConf.ite | apply SameConf.foldl
    | (simp only [SameConf.mk_iff]; apply SameConf.parts) | split | dsimp only

theorem State.waitLine_conf {s0 : State} {s : State} (c : Nat) (id : Nat) (l : Nat) (store : Bool) (hs : SameConf s0 s) :
    SameConfO (fun x => x) s0 (State.waitLine s c id l store) := by
  unfold State.waitLine
  repeat' with_reducible first
    | assumption | intro _
    | (extract_lets +onlyGivenNames x; clear_value (hx : x = _); first | refine SameConf.bind (s := s0) hx ?_ (fun _ => ?_) | (refine SameConf.isFaults x ?_; subst hx) | (refine SameConf.isFun x ?_; subst hx) | skip)
    | apply State.makeRoom_conf | apply State.clusterRequest_conf | apply State.setCLine_conf | exact SameConfO.none | apply SameConfO.some | apply SameConfO.ite
    | apply SameConf.ite | apply SameConf.foldl | (simp only [SameConf.mk_iff]; apply SameConf.parts) | refine SameConf.optEq (by assumption) ?_ | apply SameConf.getD
    | split | dsimp only

theorem State.ncRequest_conf {s0 : State} {s : State} (kind : CohKind) (c : Nat) (id : Nat) (p : Nat) (data : List Byte) (hs : SameConf s0 s) :
    SameConf s0 (State.ncRequest s kind c id p data) := by
  unfold State.ncRequest
  repeat' with_reducible first
    | assumption | intro _ | apply State.sendCoh_conf | apply State.count_conf | apply SameConf.ite | apply SameConf.foldl
    | (simp only [SameConf.mk_iff]; apply SameConf.parts) | split | dsimp only

theorem State.insertPf_conf {s0 : State} {s : State} (c : Nat) (a : Nat) (used : Bool) (hs : SameConf s0 s) :
    SameConf s0 (State.insertPf s c a used) := by
  unfold State.insertPf
  repeat' with_reducible first
    | assumption | intro _
    | (extract_lets +onlyGivenNames x; clear_value (hx : x = _); first | refine SameConf.bind (s := s0) hx ?_ (fun _ => ?_) | (refine SameConf.isFaults x ?_; subst hx) | skip)
    | apply State.setCore_conf | apply State.count_conf | apply SameConf.ite | apply SameConf.foldl | (simp only [SameConf.mk_iff]; apply SameConf.parts) | split
    | dsimp only

theorem State.groupDone_conf {s0 : State} {s : State} (c : Nat) (group : Nat) (mvc : Nat) (hs : SameConf s0 s) :
    SameConf s0 (State.groupDone s c group mvc) := by
  unfold State.groupDone
  repeat' with_reducible first
    | assumption | intro _
    | (extract_lets +onlyGivenNames x; clear_value (hx : x = _); first | refine SameConf.bind (s := s0) hx ?_ (fun _ => ?_) | (refine SameConf.isFaults x ?_; subst hx) | skip)
    | apply State.modCore_conf | apply SameConf.ite | apply SameConf.foldl | (simp only [SameConf.mk_iff]; apply SameConf.parts) | split | dsimp only

theorem State.finishReq_conf {s0 : State} {s : State} (c : Nat) (r : CoreReq) (hs : SameConf s0 s) :
    SameConf s0 (State.finishReq s c r) := by
  unfold State.finishReq
  repeat' with_reducible first
    | assumption | intro _
    | (extract_lets +onlyGivenNames x; clear_value (hx : x = _); first | refine SameConf.bind (s := s0) hx ?_ (fun _ => ?_) | (refine SameConf.isFaults x ?_; subst hx) | skip)
    | apply State.groupDone_conf | apply State.modCore_conf | apply State.insertPf_conf | apply SameConf.ite | apply SameConf.foldl
    | (simp only [SameConf.mk_iff]; apply SameConf.parts) | split | dsimp only

theorem State.writeThreadReg_conf {s0 : State} {s : State} (c : Nat) (t : Nat) (r : Nat) (v : Nat) (hs : SameConf s0 s) :
    SameConf s0 (State.writeThreadReg s c t r v) := by
  unfold State.writeThreadReg
  repeat' with_reducible first
    | assumption | intro _ | apply State.modCore_conf | apply SameConf.ite | apply SameConf.foldl | (simp only [SameConf.mk_iff]; apply SameConf.parts) | split
    | dsimp only

theorem State.programSettle_conf {s0 : State} {s : State} (c : Nat) (hs : SameConf s0 s) :
    SameConf s0 (State.programSettle s c) := by
  unfold State.programSettle
  repeat' with_reducible first
    | assumption | intro _
    | (extract_lets +onlyGivenNames x; clear_value (hx : x = _); first | refine SameConf.bind (s := s0) hx ?_ (fun _ => ?_) | (refine SameConf.isFaults x ?_; subst hx) | skip)
    | apply State.modCore_conf | apply State.settleMove_conf | apply State.modFlight_conf | apply State.sealBlocks_conf | apply SameConf.ite
    | apply SameConf.foldl | (simp only [SameConf.mk_iff]; apply SameConf.parts) | split | dsimp only

theorem State.stopProgram_conf {s0 : State} {s : State} (c : Nat) (st : Nat) (d : Nat) (hs : SameConf s0 s) :
    SameConf s0 (State.stopProgram s c st d) := by
  unfold State.stopProgram
  repeat' with_reducible first
    | assumption | intro _
    | (extract_lets +onlyGivenNames x; clear_value (hx : x = _); first | refine SameConf.bind (s := s0) hx ?_ (fun _ => ?_) | (refine SameConf.isFaults x ?_; subst hx) | skip)
    | apply State.modCore_conf | apply State.programSettle_conf | apply SameConf.ite | apply SameConf.foldl | (simp only [SameConf.mk_iff]; apply SameConf.parts)
    | split | dsimp only

theorem State.programBad_conf {s0 : State} {s : State} (c : Nat) (w : Nat) (hs : SameConf s0 s) :
    SameConf s0 (State.programBad s c w) := by
  unfold State.programBad
  repeat' with_reducible first
    | assumption | intro _ | apply State.stopProgram_conf | apply State.uncorrectable_conf | apply SameConf.ite | apply SameConf.foldl
    | (simp only [SameConf.mk_iff]; apply SameConf.parts) | apply SameConf.iteFst | apply SameConf.iteSnd | refine SameConf.fstEq (by assumption) ?_ | split | dsimp only

theorem State.perform_conf {s0 : State} {s : State} (c : Nat) (a : ThreadAcc) (poison : Option Nat) (hs : SameConf s0 s) :
    SameConf s0 (State.perform s c a poison) := by
  unfold State.perform
  repeat' with_reducible first
    | assumption | intro _ | apply State.plainWrite_conf | apply State.stopProgram_conf | apply State.programBad_conf | apply State.writeThreadReg_conf
    | apply State.putBytes_conf | apply SameConf.ite | apply SameConf.foldl | (simp only [SameConf.mk_iff]; apply SameConf.parts) | split | dsimp only

theorem State.pieceDone_conf {s0 : State} {s : State} (c : Nat) (id : Nat) (p : Nat) (hs : SameConf s0 s) :
    SameConf s0 (State.pieceDone s c id p) := by
  unfold State.pieceDone
  repeat' with_reducible first
    | assumption | intro _ | apply State.modCore_conf | apply SameConf.ite | apply SameConf.foldl | (simp only [SameConf.mk_iff]; apply SameConf.parts) | split
    | dsimp only

theorem State.touchLine_conf {s0 : State} {s : State} (k : Nat) (l : Nat) (hs : SameConf s0 s) :
    SameConf s0 (State.touchLine s k l) := by
  unfold State.touchLine
  repeat' with_reducible first
    | assumption | intro _
    | (extract_lets +onlyGivenNames x; clear_value (hx : x = _); first | refine SameConf.bind (s := s0) hx ?_ (fun _ => ?_) | (refine SameConf.isFaults x ?_; subst hx) | skip)
    | apply State.setCLine_conf | apply SameConf.ite | apply SameConf.foldl | (simp only [SameConf.mk_iff]; apply SameConf.parts) | split | dsimp only

theorem State.dropAccs_conf {s0 : State} {s : State} (c id : Nat) (hs : SameConf s0 s) :
    SameConf s0 (State.dropAccs s c id) := by
  unfold State.dropAccs
  repeat' with_reducible first
    | assumption | intro _ | apply State.modCore_conf | apply SameConf.ite | apply SameConf.foldl | (simp only [SameConf.mk_iff]; apply SameConf.parts) | split | dsimp only

theorem State.noteWritten_conf {s0 : State} {s : State} (c : Nat) (p : Nat) (n : Nat) (hs : SameConf s0 s) :
    SameConf s0 (State.noteWritten s c p n) := by
  unfold State.noteWritten
  repeat' with_reducible first
    | assumption | intro _ | apply State.modFlight_conf | apply SameConf.ite | apply SameConf.foldl | (simp only [SameConf.mk_iff]; apply SameConf.parts) | split
    | dsimp only

theorem State.fillLocal_conf {s0 : State} {s : State} (c : Nat) (r : CoreReq) (p : Nat) (n : Nat) (hs : SameConf s0 s) :
    SameConf s0 (State.fillLocal s c r p n) := by
  unfold State.fillLocal
  repeat' with_reducible first
    | assumption | intro _ | apply State.perform_conf | apply State.modCore_conf | apply State.dropAccs_conf | apply State.pieceDone_conf | apply State.fill_conf | apply State.programBad_conf | apply SameConf.ite | apply SameConf.foldl
    | (simp only [SameConf.mk_iff]; apply SameConf.parts) | split | dsimp only

theorem State.issuePiece_conf {s0 : State} {s : State} (c : Nat) (r : CoreReq) (p : Nat) (hs : SameConf s0 s) :
    SameConf s0 (State.issuePiece s c r p) := by
  unfold State.issuePiece
  repeat' with_reducible first
    | assumption | intro _ | apply State.stopProgram_conf | apply State.noteWritten_conf
    | (extract_lets +onlyGivenNames x; clear_value (hx : x = _); first | refine SameConf.bind (s := s0) hx ?_ (fun _ => ?_) | (refine SameConf.isFaults x ?_; subst hx) | skip)
    | apply State.pieceDone_conf | apply State.ncRequest_conf | apply State.touchLine_conf | apply State.request_conf | apply State.setCLine_conf
    | apply State.count_conf | apply State.waitLine_conf | apply State.putBytes_conf | apply State.fillLocal_conf | apply SameConf.ite | apply SameConf.foldl
    | (simp only [SameConf.mk_iff]; apply SameConf.parts) | refine SameConf.optEq (by assumption) ?_ | apply SameConf.getD | split | dsimp only

theorem State.issueReq_conf {s0 : State} {s : State} (c : Nat) (r : CoreReq) (hs : SameConf s0 s) :
    SameConf s0 (State.issueReq s c r) := by
  unfold State.issueReq
  repeat' with_reducible first
    | assumption | intro _ | apply State.issuePiece_conf | apply SameConf.ite | apply SameConf.foldl | (simp only [SameConf.mk_iff]; apply SameConf.parts) | split
    | dsimp only

theorem State.issueBulk_conf {s0 : State} {s : State} (c : Nat) (b : Bulk) (rest : List Bulk) (hs : SameConf s0 s) :
    SameConf s0 (State.issueBulk s c b rest) := by
  unfold State.issueBulk
  repeat' with_reducible first
    | assumption | intro _
    | (extract_lets +onlyGivenNames x; clear_value (hx : x = _); first | refine SameConf.bind (s := s0) hx ?_ (fun _ => ?_) | (refine SameConf.isFaults x ?_; subst hx) | skip)
    | apply State.issueReq_conf | apply State.setCore_conf | apply SameConf.ite | apply SameConf.foldl | (simp only [SameConf.mk_iff]; apply SameConf.parts) | split
    | dsimp only

theorem State.churn1_conf {s0 : State} {s : State} (c : Nat) (hs : SameConf s0 s) :
    SameConfO (fun x => x) s0 (State.churn1 s c) := by
  unfold State.churn1
  repeat' with_reducible first
    | assumption | intro _
    | (extract_lets +onlyGivenNames x; clear_value (hx : x = _); first | refine SameConf.bind (s := s0) hx ?_ (fun _ => ?_) | (refine SameConf.isFaults x ?_; subst hx) | skip)
    | apply State.issueBulk_conf | apply State.finishReq_conf | apply State.issueReq_conf | apply State.setCore_conf | exact SameConfO.none
    | apply SameConfO.some | apply SameConfO.ite | apply SameConf.ite | apply SameConf.foldl | (simp only [SameConf.mk_iff]; apply SameConf.parts)
    | refine SameConf.optEq (by assumption) ?_ | apply SameConf.getD | split | dsimp only

theorem State.churnN_conf {s0 : State} {s : State} (c : Nat) (x3 : Nat) (hs : SameConf s0 s) :
    SameConf s0 (State.churnN s c x3) := by
  induction x3 generalizing s c with
  | zero =>
    unfold State.churnN
    repeat' with_reducible first
      | assumption | intro _ | apply State.programSettle_conf | apply State.churn1_conf | apply SameConf.ite | apply SameConf.foldl
      | (simp only [SameConf.mk_iff]; apply SameConf.parts) | refine SameConf.optEq (by assumption) ?_ | apply SameConf.getD | split | dsimp only
  | succ m ih =>
    unfold State.churnN
    repeat' with_reducible first
      | assumption | intro _ | apply State.programSettle_conf | apply State.churn1_conf | apply ih | apply SameConf.ite | apply SameConf.foldl
      | (simp only [SameConf.mk_iff]; apply SameConf.parts) | refine SameConf.optEq (by assumption) ?_ | apply SameConf.getD | split | dsimp only

theorem State.churn_conf {s0 : State} {s : State} (c : Nat) (hs : SameConf s0 s) :
    SameConf s0 (State.churn s c) := by
  unfold State.churn
  repeat' with_reducible first
    | assumption | intro _ | apply State.churnN_conf | apply SameConf.ite | apply SameConf.foldl | (simp only [SameConf.mk_iff]; apply SameConf.parts) | split
    | dsimp only

theorem State.serveAccs_conf {s0 : State} {s : State} (c : Nat) (id : Nat) (l : Nat) (poison : Option Nat) (x6 : List ThreadAcc) (hs : SameConf s0 s) :
    SameConf s0 (State.serveAccs s c id l poison x6).1 := by
  induction x6 generalizing s c id l poison with
  | nil =>
    unfold State.serveAccs
    repeat' with_reducible first
      | assumption | intro _ | apply State.modCore_conf | apply State.perform_conf | apply State.setCLine_conf | apply SameConf.ite
      | apply SameConf.foldl | (simp only [SameConf.mk_iff]; apply SameConf.parts) | apply SameConf.iteFst | apply SameConf.iteSnd | refine SameConf.fstEq (by assumption) ?_
      | split | dsimp only
  | cons y ys ih =>
    unfold State.serveAccs
    repeat' with_reducible first
      | assumption | intro _ | apply State.modCore_conf | apply State.perform_conf | apply State.setCLine_conf | apply ih | apply SameConf.ite
      | apply SameConf.foldl | (simp only [SameConf.mk_iff]; apply SameConf.parts) | apply SameConf.iteFst | apply SameConf.iteSnd | refine SameConf.fstEq (by assumption) ?_
      | split | dsimp only

theorem State.serveWaiting_conf {s0 : State} {s : State} (k : Nat) (l : Nat) (x4 : List (Nat × Nat)) (hs : SameConf s0 s) :
    SameConf s0 (State.serveWaiting s k l x4) := by
  induction x4 generalizing s k l with
  | nil =>
    unfold State.serveWaiting
    repeat' with_reducible first
      | assumption | intro _ | apply State.churn_conf | apply State.pieceDone_conf | apply State.setCLine_conf | apply State.serveAccs_conf
      | apply SameConf.ite | apply SameConf.foldl | (simp only [SameConf.mk_iff]; apply SameConf.parts) | apply SameConf.iteFst | apply SameConf.iteSnd
      | refine SameConf.fstEq (by assumption) ?_ | split | dsimp only
  | cons y ys ih =>
    unfold State.serveWaiting
    repeat' with_reducible first
      | assumption | intro _ | apply State.churn_conf | apply State.pieceDone_conf | apply State.setCLine_conf | apply State.serveAccs_conf | apply ih
      | apply SameConf.ite | apply SameConf.foldl | (simp only [SameConf.mk_iff]; apply SameConf.parts) | apply SameConf.iteFst | apply SameConf.iteSnd
      | refine SameConf.fstEq (by assumption) ?_ | split | dsimp only

end Sys2Proof.Machine
end

