-- ==== Sys2Proof/Laws/SameConfCoherence.lean ====
section
/-!
SUPPORT. What the operations of Machine/Coherence.lean leave alone (Laws/SameConf.lean).
-/

set_option linter.all false

namespace Sys2Proof.Machine

theorem State.snoopAnswer_conf {s0 : State} {s : State} (l : Nat) (k : Nat) (kind : CohKind) (dirty : Bool) (hs : SameConf s0 s) :
    SameConf s0 (State.snoopAnswer s l k kind dirty) := by
  unfold State.snoopAnswer
  repeat' with_reducible first
    | assumption | intro _
    | (extract_lets +onlyGivenNames x; clear_value (hx : x = _); first | refine SameConf.bind (s := s0) hx ?_ (fun _ => ?_) | (refine SameConf.isFaults x ?_; subst hx) | skip)
    | apply State.sendCoh_conf | apply SameConf.ite | apply SameConf.foldl | (simp only [SameConf.mk_iff]; apply SameConf.parts) | split | dsimp only

theorem State.invalidated_conf {s0 : State} {s : State} (l : Nat) (k : Nat) (hs : SameConf s0 s) :
    SameConf s0 (State.invalidated s l k) := by
  unfold State.invalidated
  repeat' with_reducible first
    | assumption | intro _ | apply State.invalPf_conf | apply State.setCLine_conf | apply State.count_conf | apply SameConf.ite | apply SameConf.foldl
    | (simp only [SameConf.mk_iff]; apply SameConf.parts) | split | dsimp only

theorem State.answerSnoop_conf {s0 : State} {s : State} (l : Nat) (k : Nat) (sn : SnoopKind) (hs : SameConf s0 s) :
    SameConf s0 (State.answerSnoop s l k sn) := by
  unfold State.answerSnoop
  repeat' with_reducible first
    | assumption | intro _
    | (extract_lets +onlyGivenNames x; clear_value (hx : x = _); first | refine SameConf.bind (s := s0) hx ?_ (fun _ => ?_) | (refine SameConf.isFaults x ?_; subst hx) | skip)
    | apply State.invalPf_conf | apply State.setCLine_conf | apply State.snoopAnswer_conf | apply State.count_conf | apply State.invalidated_conf
    | apply SameConf.ite | apply SameConf.foldl | (simp only [SameConf.mk_iff]; apply SameConf.parts) | split | dsimp only

theorem State.takeCoh_conf {s0 : State} {s : State} (p : CohMsg → Bool) (hs : SameConf s0 s) :
    SameConfO (fun x => x.2) s0 (State.takeCoh s p) := by
  unfold State.takeCoh
  repeat' with_reducible first
    | assumption | intro _
    | (extract_lets +onlyGivenNames x; clear_value (hx : x = _); first | refine SameConf.bind (s := s0) hx ?_ (fun _ => ?_) | (refine SameConf.isFaults x ?_; subst hx) | skip)
    | exact SameConfO.none | apply SameConfO.some | apply SameConfO.ite | apply SameConf.ite | apply SameConf.foldl | (simp only [SameConf.mk_iff]; apply SameConf.parts)
    | refine SameConf.optEq2 (by assumption) ?_ | split | dsimp only

theorem State.snoopRow_conf {s0 : State} {s : State} (l : Nat) (k : Nat) (kind : CohKind) (sn : SnoopKind) (hs : SameConf s0 s) :
    SameConf s0 (State.snoopRow s l k kind sn) := by
  unfold State.snoopRow
  repeat' with_reducible first
    | assumption | intro _ | apply State.answerSnoop_conf | apply State.takeCoh_conf | apply State.count_conf | apply SameConf.ite | apply SameConf.foldl
    | (simp only [SameConf.mk_iff]; apply SameConf.parts) | refine SameConf.optEq2 (by assumption) ?_ | split | dsimp only

theorem execSnprd_conf {s0 : State} (l : Nat) (k : Nat) {s : State} (hs : SameConf s0 s) :
    SameConfR s0 (execSnprd l k s) := by
  unfold execSnprd
  repeat' with_reducible first
    | assumption | intro _ | apply State.snoopRow_conf | apply onUnit_conf | apply SameConfR.next | exact SameConfR.fault | exact SameConfR.refused
    | apply SameConfR.onUnit | apply SameConfR.ite | apply SameConf.ite | apply SameConf.foldl | (simp only [SameConf.mk_iff]; apply SameConf.parts) | split | dsimp only

theorem State.askAgain_conf {s0 : State} {s : State} (l : Nat) (k : Nat) (hs : SameConf s0 s) :
    SameConf s0 (State.askAgain s l k) := by
  unfold State.askAgain
  repeat' with_reducible first
    | assumption | intro _
    | (extract_lets +onlyGivenNames x; clear_value (hx : x = _); first | refine SameConf.bind (s := s0) hx ?_ (fun _ => ?_) | (refine SameConf.isFaults x ?_; subst hx) | skip)
    | apply State.clusterRequest_conf | apply State.setCLine_conf | apply SameConf.ite | apply SameConf.foldl | (simp only [SameConf.mk_iff]; apply SameConf.parts)
    | split | dsimp only

theorem execWback_conf {s0 : State} (l : Nat) (k : Nat) {s : State} (hs : SameConf s0 s) :
    SameConfR s0 (execWback l k s) := by
  unfold execWback
  repeat' with_reducible first
    | assumption | intro _
    | (extract_lets +onlyGivenNames x; clear_value (hx : x = _); first | refine SameConf.bind (s := s0) hx ?_ (fun _ => ?_) | (refine SameConf.isFaults x ?_; subst hx) | skip)
    | apply State.askAgain_conf | apply onUnit_conf | apply State.takeCoh_conf | apply State.setCLine_conf | apply SameConfR.next | exact SameConfR.fault
    | exact SameConfR.refused | apply SameConfR.onUnit | apply SameConfR.ite | apply SameConf.ite | apply SameConf.foldl | (simp only [SameConf.mk_iff]; apply SameConf.parts)
    | refine SameConf.optEq2 (by assumption) ?_ | split | dsimp only

theorem State.answerHeld_conf {s0 : State} {s : State} (l : Nat) (k : Nat) (hs : SameConf s0 s) :
    SameConf s0 (State.answerHeld s l k) := by
  unfold State.answerHeld
  repeat' with_reducible first
    | assumption | intro _
    | (extract_lets +onlyGivenNames x; clear_value (hx : x = _); first | refine SameConf.bind (s := s0) hx ?_ (fun _ => ?_) | (refine SameConf.isFaults x ?_; subst hx) | skip)
    | apply State.answerSnoop_conf | apply State.setCLine_conf | apply SameConf.ite | apply SameConf.foldl | (simp only [SameConf.mk_iff]; apply SameConf.parts)
    | split | dsimp only

theorem State.setDir_conf {s0 : State} {s : State} (l : Nat) (e : DirEntry) (hs : SameConf s0 s) :
    SameConf s0 (State.setDir s l e) := by
  unfold State.setDir
  repeat' with_reducible first
    | assumption | intro _
    | (extract_lets +onlyGivenNames x; clear_value (hx : x = _); first | refine SameConf.bind (s := s0) hx ?_ (fun _ => ?_) | (refine SameConf.isFaults x ?_; subst hx) | skip)
    | apply SameConf.ite | apply SameConf.foldl | (simp only [SameConf.mk_iff]; apply SameConf.parts) | split | dsimp only

theorem State.countDir_conf {s0 : State} {s : State} (l : Nat) (off : Nat) (n : Nat) (hs : SameConf s0 s) :
    SameConf s0 (State.countDir s l off n) := by
  unfold State.countDir
  repeat' with_reducible first
    | assumption | intro _ | apply State.count_conf | apply SameConf.ite | apply SameConf.foldl | (simp only [SameConf.mk_iff]; apply SameConf.parts) | split
    | dsimp only

theorem State.snoop_conf {s0 : State} {s : State} (l : Nat) (kind : CohKind) (ks : List Nat) (hs : SameConf s0 s) :
    SameConf s0 (State.snoop s l kind ks) := by
  unfold State.snoop
  repeat' with_reducible first
    | assumption | intro _ | apply State.sendCoh_conf | apply State.countDir_conf | apply SameConf.ite | apply SameConf.foldl
    | (simp only [SameConf.mk_iff]; apply SameConf.parts) | split | dsimp only

theorem State.startTxn_conf {s0 : State} {s : State} (l : Nat) (q : HomeReq) (hs : SameConf s0 s) :
    SameConf s0 (State.startTxn s l q) := by
  unfold State.startTxn
  repeat' with_reducible first
    | assumption | intro _
    | (extract_lets +onlyGivenNames x; clear_value (hx : x = _); first | refine SameConf.bind (s := s0) hx ?_ (fun _ => ?_) | (refine SameConf.isFaults x ?_; subst hx) | skip)
    | apply State.snoop_conf | apply State.setDir_conf | apply SameConf.ite | apply SameConf.foldl | (simp only [SameConf.mk_iff]; apply SameConf.parts) | split
    | dsimp only

theorem State.ncAnswer_conf {s0 : State} {s : State} (l : Nat) (t : Txn) (hs : SameConf s0 s) :
    SameConf s0 (State.ncAnswer s l t) := by
  unfold State.ncAnswer
  repeat' with_reducible first
    | assumption | intro _ | apply State.dropAccs_conf
    | (extract_lets +onlyGivenNames x; clear_value (hx : x = _); first | refine SameConf.bind (s := s0) hx ?_ (fun _ => ?_) | (refine SameConf.isFaults x ?_; subst hx) | skip)
    | apply State.churn_conf | apply State.pieceDone_conf | apply State.stopProgram_conf | apply State.fillLocal_conf | apply SameConf.ite
    | apply SameConf.foldl | (simp only [SameConf.mk_iff]; apply SameConf.parts) | split | dsimp only

theorem State.grant_conf {s0 : State} {s : State} (l : Nat) (t : Txn) (kind : CohKind) (hs : SameConf s0 s) :
    SameConf s0 (State.grant s l t kind) := by
  unfold State.grant
  repeat' with_reducible first
    | assumption | intro _
    | (extract_lets +onlyGivenNames x; clear_value (hx : x = _); first | refine SameConf.bind (s := s0) hx ?_ (fun _ => ?_) | (refine SameConf.isFaults x ?_; subst hx) | skip)
    | apply State.sendCoh_conf | apply SameConf.ite | apply SameConf.foldl | (simp only [SameConf.mk_iff]; apply SameConf.parts) | split | dsimp only

theorem State.endTxn_conf {s0 : State} {s : State} (l : Nat) (t : Txn) (hs : SameConf s0 s) :
    SameConf s0 (State.endTxn s l t) := by
  unfold State.endTxn
  repeat' with_reducible first
    | assumption | intro _
    | (extract_lets +onlyGivenNames x; clear_value (hx : x = _); first | refine SameConf.bind (s := s0) hx ?_ (fun _ => ?_) | (refine SameConf.isFaults x ?_; subst hx) | (refine SameConf.isFun x ?_; subst hx) | skip)
    | apply State.noteWritten_conf | apply State.ncAnswer_conf | apply State.traffic_conf | apply State.grant_conf | apply State.setDir_conf
    | apply State.writebackLine_conf | apply State.putBytes_conf | apply SameConf.ite | apply SameConf.foldl | (simp only [SameConf.mk_iff]; apply SameConf.parts)
    | split | dsimp only

theorem State.advance_conf {s0 : State} {s : State} (l : Nat) (x3 : Nat) (hs : SameConf s0 s) :
    SameConf s0 (State.advance s l x3) := by
  induction x3 generalizing s l with
  | zero =>
    unfold State.advance
    repeat' with_reducible first
      | assumption | intro _ | apply State.countCycles_conf | apply State.setDir_conf | apply State.startTxn_conf | apply State.endTxn_conf
      | apply SameConf.ite | apply SameConf.foldl | (simp only [SameConf.mk_iff]; apply SameConf.parts) | split | dsimp only
  | succ m ih =>
    unfold State.advance
    repeat' with_reducible first
      | assumption | intro _ | apply State.countCycles_conf | apply State.setDir_conf | apply State.startTxn_conf | apply State.endTxn_conf | apply ih
      | apply SameConf.ite | apply SameConf.foldl | (simp only [SameConf.mk_iff]; apply SameConf.parts) | split | dsimp only

theorem State.advanceLine_conf {s0 : State} {s : State} (l : Nat) (hs : SameConf s0 s) :
    SameConf s0 (State.advanceLine s l) := by
  unfold State.advanceLine
  repeat' with_reducible first
    | assumption | intro _ | apply State.advance_conf | apply SameConf.ite | apply SameConf.foldl | (simp only [SameConf.mk_iff]; apply SameConf.parts) | split
    | dsimp only

theorem State.putAt_conf {s0 : State} {s : State} (l : Nat) (k : Nat) (m : CohMsg) (hs : SameConf s0 s) :
    SameConf s0 (State.putAt s l k m) := by
  unfold State.putAt
  repeat' with_reducible first
    | assumption | intro _
    | (extract_lets +onlyGivenNames x; clear_value (hx : x = _); first | refine SameConf.bind (s := s0) hx ?_ (fun _ => ?_) | (refine SameConf.isFaults x ?_; subst hx) | (refine SameConf.isFun x ?_; subst hx) | skip)
    | apply State.sendCoh_conf | apply State.traffic_conf | apply State.advanceLine_conf | apply State.setDir_conf | apply State.writebackLine_conf
    | apply State.countDir_conf | apply SameConf.ite | apply SameConf.foldl | (simp only [SameConf.mk_iff]; apply SameConf.parts) | split | dsimp only

theorem State.putRow_conf {s0 : State} {s : State} (l : Nat) (k : Nat) (kind : CohKind) (hs : SameConf s0 s) :
    SameConf s0 (State.putRow s l k kind) := by
  unfold State.putRow
  repeat' with_reducible first
    | assumption | intro _ | apply State.putAt_conf | apply State.takeCoh_conf | apply SameConf.ite | apply SameConf.foldl
    | (simp only [SameConf.mk_iff]; apply SameConf.parts) | refine SameConf.optEq2 (by assumption) ?_ | split | dsimp only

theorem State.backInvalidate_conf {s0 : State} {s : State} (v : Nat) (hs : SameConf s0 s) :
    SameConf s0 (State.backInvalidate s v) := by
  unfold State.backInvalidate
  repeat' with_reducible first
    | assumption | intro _ | apply State.advanceLine_conf | apply State.countDir_conf | apply State.startTxn_conf | apply SameConf.ite | apply SameConf.foldl
    | (simp only [SameConf.mk_iff]; apply SameConf.parts) | split | dsimp only

theorem State.modDir_conf {s0 : State} {s : State} (l : Nat) (g : DirEntry → DirEntry) (hs : SameConf s0 s) :
    SameConf s0 (State.modDir s l g) := by
  unfold State.modDir
  repeat' with_reducible first
    | assumption | intro _ | apply State.setDir_conf | apply SameConf.ite | apply SameConf.foldl | (simp only [SameConf.mk_iff]; apply SameConf.parts) | split
    | dsimp only

theorem State.accept_conf {s0 : State} {s : State} (l : Nat) (q : HomeReq) (off : Nat) (hs : SameConf s0 s) :
    SameConf s0 (State.accept s l q off) := by
  unfold State.accept
  repeat' with_reducible first
    | assumption | intro _
    | (extract_lets +onlyGivenNames x; clear_value (hx : x = _); first | refine SameConf.bind (s := s0) hx ?_ (fun _ => ?_) | (refine SameConf.isFaults x ?_; subst hx) | skip)
    | apply State.modDir_conf | apply State.advanceLine_conf | apply State.setDir_conf | apply State.countDir_conf | apply State.startTxn_conf
    | apply SameConf.ite | apply SameConf.foldl | (simp only [SameConf.mk_iff]; apply SameConf.parts) | split | dsimp only

theorem State.atHome_conf {s0 : State} {s : State} (l : Nat) (p : CohMsg → Bool) (kind : ReqType) (off : Nat) (hs : SameConf s0 s) :
    SameConf s0 (State.atHome s l p kind off) := by
  unfold State.atHome
  repeat' with_reducible first
    | assumption | intro _
    | (extract_lets +onlyGivenNames x; clear_value (hx : x = _); first | refine SameConf.bind (s := s0) hx ?_ (fun _ => ?_) | (refine SameConf.isFaults x ?_; subst hx) | skip)
    | apply State.takeCoh_conf | apply State.backInvalidate_conf | apply State.accept_conf | apply SameConf.ite | apply SameConf.foldl
    | (simp only [SameConf.mk_iff]; apply SameConf.parts) | refine SameConf.optEq2 (by assumption) ?_ | split | dsimp only

theorem execGetm_conf {s0 : State} (l : Nat) (k : Nat) {s : State} (hs : SameConf s0 s) :
    SameConfR s0 (execGetm l k s) := by
  unfold execGetm
  repeat' with_reducible first
    | assumption | intro _ | apply onUnit_conf | apply State.atHome_conf | apply SameConfR.next | exact SameConfR.fault | exact SameConfR.refused
    | apply SameConfR.onUnit | apply SameConfR.ite | apply SameConf.ite | apply SameConf.foldl | (simp only [SameConf.mk_iff]; apply SameConf.parts) | split | dsimp only

theorem State.answerRow_conf {s0 : State} {s : State} (l : Nat) (k : Nat) (kind : CohKind) (g : Txn → CohMsg → Txn) (hs : SameConf s0 s) :
    SameConf s0 (State.answerRow s l k kind g) := by
  unfold State.answerRow
  repeat' with_reducible first
    | assumption | intro _
    | (extract_lets +onlyGivenNames x; clear_value (hx : x = _); first | refine SameConf.bind (s := s0) hx ?_ (fun _ => ?_) | (refine SameConf.isFaults x ?_; subst hx) | skip)
    | apply State.advanceLine_conf | apply State.takeCoh_conf | apply State.setDir_conf | apply State.countDir_conf | apply SameConf.ite | apply SameConf.foldl
    | (simp only [SameConf.mk_iff]; apply SameConf.parts) | refine SameConf.optEq2 (by assumption) ?_ | split | dsimp only

theorem State.scratchMemory_conf {s0 : State} {s : State} (c : Nat) (r : CoreReq) (hs : SameConf s0 s) :
    SameConf s0 (State.scratchMemory s c r) := by
  unfold State.scratchMemory
  repeat' with_reducible first
    | assumption | intro _
    | (extract_lets +onlyGivenNames x; clear_value (hx : x = _); first | refine SameConf.bind (s := s0) hx ?_ (fun _ => ?_) | (refine SameConf.isFaults x ?_; subst hx) | skip)
    | apply State.noteWritten_conf | apply State.churn_conf | apply State.modCore_conf | apply State.pieceDone_conf | apply State.perform_conf
    | apply State.putBytes_conf | apply State.fillLocal_conf | apply SameConf.ite | apply SameConf.foldl | (simp only [SameConf.mk_iff]; apply SameConf.parts) | split
    | dsimp only

theorem State.homeMemory_conf {s0 : State} {s : State} (l : Nat) (hs : SameConf s0 s) :
    SameConf s0 (State.homeMemory s l) := by
  unfold State.homeMemory
  repeat' with_reducible first
    | assumption | intro _
    | (extract_lets +onlyGivenNames x; clear_value (hx : x = _); first | refine SameConf.bind (s := s0) hx ?_ (fun _ => ?_) | refine SameConf.bindFst (s := s0) hx ?_ (fun _ => ?_) | (refine SameConf.isFaults x ?_; subst hx) | skip)
    | apply State.traffic_conf | apply State.advanceLine_conf | apply State.setDir_conf | apply State.uncorrectable_conf | apply State.endTxn_conf
    | apply SameConf.ite | apply SameConf.foldl | (simp only [SameConf.mk_iff]; apply SameConf.parts) | apply SameConf.iteFst | apply SameConf.iteSnd
    | refine SameConf.fstEq (by assumption) ?_ | split | dsimp only

theorem execMemoryResponse_conf {s0 : State} (home : Bool) (a : Nat) (b : Nat) {s : State} (hs : SameConf s0 s) :
    SameConfR s0 (execMemoryResponse home a b s) := by
  unfold execMemoryResponse
  repeat' with_reducible first
    | assumption | intro _ | apply State.scratchMemory_conf | apply onUnit_conf | apply State.homeMemory_conf | apply SameConfR.next | exact SameConfR.fault
    | exact SameConfR.refused | apply SameConfR.onUnit | apply SameConfR.ite | apply SameConf.ite | apply SameConf.foldl | (simp only [SameConf.mk_iff]; apply SameConf.parts)
    | split | dsimp only

theorem execUpg_conf {s0 : State} (l : Nat) (k : Nat) {s : State} (hs : SameConf s0 s) :
    SameConfR s0 (execUpg l k s) := by
  unfold execUpg
  repeat' with_reducible first
    | assumption | intro _ | apply onUnit_conf | apply State.atHome_conf | apply SameConfR.next | exact SameConfR.fault | exact SameConfR.refused
    | apply SameConfR.onUnit | apply SameConfR.ite | apply SameConf.ite | apply SameConf.foldl | (simp only [SameConf.mk_iff]; apply SameConf.parts) | split | dsimp only

theorem State.granted_conf {s0 : State} {s : State} (l : Nat) (k : Nat) (st : LineSt) (poison : Option Nat) (hs : SameConf s0 s) :
    SameConf s0 (State.granted s l k st poison) := by
  unfold State.granted
  repeat' with_reducible first
    | assumption | intro _
    | (extract_lets +onlyGivenNames x; clear_value (hx : x = _); first | refine SameConf.bind (s := s0) hx ?_ (fun _ => ?_) | (refine SameConf.isFaults x ?_; subst hx) | skip)
    | apply State.serveWaiting_conf | apply State.answerHeld_conf | apply State.askAgain_conf | apply State.touchLine_conf | apply State.setCLine_conf
    | apply SameConf.ite | apply SameConf.foldl | (simp only [SameConf.mk_iff]; apply SameConf.parts) | split | dsimp only

theorem State.grantRow_conf {s0 : State} {s : State} (l : Nat) (k : Nat) (kind : CohKind) (st : LineSt) (hs : SameConf s0 s) :
    SameConf s0 (State.grantRow s l k kind st) := by
  unfold State.grantRow
  repeat' with_reducible first
    | assumption | intro _ | apply State.granted_conf | apply State.takeCoh_conf | apply SameConf.ite | apply SameConf.foldl
    | (simp only [SameConf.mk_iff]; apply SameConf.parts) | refine SameConf.optEq2 (by assumption) ?_ | split | dsimp only

theorem execDatas_conf {s0 : State} (l : Nat) (k : Nat) {s : State} (hs : SameConf s0 s) :
    SameConfR s0 (execDatas l k s) := by
  unfold execDatas
  repeat' with_reducible first
    | assumption | intro _ | apply State.grantRow_conf | apply onUnit_conf | apply SameConfR.next | exact SameConfR.fault | exact SameConfR.refused
    | apply SameConfR.onUnit | apply SameConfR.ite | apply SameConf.ite | apply SameConf.foldl | (simp only [SameConf.mk_iff]; apply SameConf.parts) | split | dsimp only

theorem execGets_conf {s0 : State} (l : Nat) (k : Nat) {s : State} (hs : SameConf s0 s) :
    SameConfR s0 (execGets l k s) := by
  unfold execGets
  repeat' with_reducible first
    | assumption | intro _ | apply onUnit_conf | apply State.atHome_conf | apply SameConfR.next | exact SameConfR.fault | exact SameConfR.refused
    | apply SameConfR.onUnit | apply SameConfR.ite | apply SameConf.ite | apply SameConf.foldl | (simp only [SameConf.mk_iff]; apply SameConf.parts) | split | dsimp only

theorem execSnps_conf {s0 : State} (l : Nat) (k : Nat) {s : State} (hs : SameConf s0 s) :
    SameConfR s0 (execSnps l k s) := by
  unfold execSnps
  repeat' with_reducible first
    | assumption | intro _ | apply State.snoopRow_conf | apply onUnit_conf | apply SameConfR.next | exact SameConfR.fault | exact SameConfR.refused
    | apply SameConfR.onUnit | apply SameConfR.ite | apply SameConf.ite | apply SameConf.foldl | (simp only [SameConf.mk_iff]; apply SameConf.parts) | split | dsimp only

theorem State.loseLine_conf {s0 : State} {s : State} (l : Nat) (hs : SameConf s0 s) :
    SameConf s0 (State.loseLine s l) := by
  unfold State.loseLine
  repeat' with_reducible first
    | assumption | intro _
    | (extract_lets +onlyGivenNames x; clear_value (hx : x = _); first | refine SameConf.bind (s := s0) hx ?_ (fun _ => ?_) | (refine SameConf.isFaults x ?_; subst hx) | skip)
    | apply State.voidBlock_conf | apply State.putBytes_conf | apply SameConf.ite | apply SameConf.foldl | (simp only [SameConf.mk_iff]; apply SameConf.parts) | split
    | dsimp only

theorem execDirAgeWarn_conf {s0 : State} (l : Nat) {s : State} (hs : SameConf s0 s) :
    SameConfR s0 (execDirAgeWarn l s) := by
  unfold execDirAgeWarn
  repeat' with_reducible first
    | assumption | intro _
    | (extract_lets +onlyGivenNames x; clear_value (hx : x = _); first | refine SameConf.bind (s := s0) hx ?_ (fun _ => ?_) | (refine SameConf.isFaults x ?_; subst hx) | skip)
    | apply onUnit_conf | apply State.setDir_conf | apply State.countDir_conf | apply State.event_conf | apply SameConfR.next | exact SameConfR.fault
    | exact SameConfR.refused | apply SameConfR.onUnit | apply SameConfR.ite | apply SameConf.ite | apply SameConf.foldl | (simp only [SameConf.mk_iff]; apply SameConf.parts)
    | split | dsimp only

theorem execSnpack_conf {s0 : State} (l : Nat) (k : Nat) {s : State} (hs : SameConf s0 s) :
    SameConfR s0 (execSnpack l k s) := by
  unfold execSnpack
  repeat' with_reducible first
    | assumption | intro _ | apply State.answerRow_conf | apply onUnit_conf | apply SameConfR.next | exact SameConfR.fault | exact SameConfR.refused
    | apply SameConfR.onUnit | apply SameConfR.ite | apply SameConf.ite | apply SameConf.foldl | (simp only [SameConf.mk_iff]; apply SameConf.parts) | split | dsimp only

theorem execReadnc_conf {s0 : State} (l : Nat) (k : Nat) {s : State} (hs : SameConf s0 s) :
    SameConfR s0 (execReadnc l k s) := by
  unfold execReadnc
  repeat' with_reducible first
    | assumption | intro _ | apply onUnit_conf | apply State.atHome_conf | apply SameConfR.next | exact SameConfR.fault | exact SameConfR.refused
    | apply SameConfR.onUnit | apply SameConfR.ite | apply SameConf.ite | apply SameConf.foldl | (simp only [SameConf.mk_iff]; apply SameConf.parts) | split | dsimp only

theorem execSnpinv_conf {s0 : State} (l : Nat) (k : Nat) {s : State} (hs : SameConf s0 s) :
    SameConfR s0 (execSnpinv l k s) := by
  unfold execSnpinv
  repeat' with_reducible first
    | assumption | intro _ | apply State.snoopRow_conf | apply onUnit_conf | apply SameConfR.next | exact SameConfR.fault | exact SameConfR.refused
    | apply SameConfR.onUnit | apply SameConfR.ite | apply SameConf.ite | apply SameConf.foldl | (simp only [SameConf.mk_iff]; apply SameConf.parts) | split | dsimp only

theorem execPute_conf {s0 : State} (l : Nat) (k : Nat) {s : State} (hs : SameConf s0 s) :
    SameConfR s0 (execPute l k s) := by
  unfold execPute
  repeat' with_reducible first
    | assumption | intro _ | apply State.putRow_conf | apply onUnit_conf | apply SameConfR.next | exact SameConfR.fault | exact SameConfR.refused
    | apply SameConfR.onUnit | apply SameConfR.ite | apply SameConf.ite | apply SameConf.foldl | (simp only [SameConf.mk_iff]; apply SameConf.parts) | split | dsimp only

theorem execPutm_conf {s0 : State} (l : Nat) (k : Nat) {s : State} (hs : SameConf s0 s) :
    SameConfR s0 (execPutm l k s) := by
  unfold execPutm
  repeat' with_reducible first
    | assumption | intro _ | apply State.putRow_conf | apply onUnit_conf | apply SameConfR.next | exact SameConfR.fault | exact SameConfR.refused
    | apply SameConfR.onUnit | apply SameConfR.ite | apply SameConf.ite | apply SameConf.foldl | (simp only [SameConf.mk_iff]; apply SameConf.parts) | split | dsimp only

theorem execMiss_conf {s0 : State} (l : Nat) (k : Nat) {s : State} (hs : SameConf s0 s) :
    SameConfR s0 (execMiss l k s) := by
  unfold execMiss
  repeat' with_reducible first
    | assumption | intro _ | apply State.answerRow_conf | apply onUnit_conf | apply SameConfR.next | exact SameConfR.fault | exact SameConfR.refused
    | apply SameConfR.onUnit | apply SameConfR.ite | apply SameConf.ite | apply SameConf.foldl | (simp only [SameConf.mk_iff]; apply SameConf.parts) | split | dsimp only

theorem execSnpm_conf {s0 : State} (l : Nat) (k : Nat) {s : State} (hs : SameConf s0 s) :
    SameConfR s0 (execSnpm l k s) := by
  unfold execSnpm
  repeat' with_reducible first
    | assumption | intro _ | apply State.snoopRow_conf | apply onUnit_conf | apply SameConfR.next | exact SameConfR.fault | exact SameConfR.refused
    | apply SameConfR.onUnit | apply SameConfR.ite | apply SameConf.ite | apply SameConf.foldl | (simp only [SameConf.mk_iff]; apply SameConf.parts) | split | dsimp only

theorem execDatae_conf {s0 : State} (l : Nat) (k : Nat) {s : State} (hs : SameConf s0 s) :
    SameConfR s0 (execDatae l k s) := by
  unfold execDatae
  repeat' with_reducible first
    | assumption | intro _ | apply State.grantRow_conf | apply onUnit_conf | apply SameConfR.next | exact SameConfR.fault | exact SameConfR.refused
    | apply SameConfR.onUnit | apply SameConfR.ite | apply SameConf.ite | apply SameConf.foldl | (simp only [SameConf.mk_iff]; apply SameConf.parts) | split | dsimp only

theorem execSnoopTimeout_conf {s0 : State} (l : Nat) (k : Nat) {s : State} (hs : SameConf s0 s) :
    SameConfR s0 (execSnoopTimeout l k s) := by
  unfold execSnoopTimeout
  repeat' with_reducible first
    | assumption | intro _
    | (extract_lets +onlyGivenNames x; clear_value (hx : x = _); first | refine SameConf.bind (s := s0) hx ?_ (fun _ => ?_) | (refine SameConf.isFaults x ?_; subst hx) | skip)
    | apply State.loseLine_conf | apply State.record_conf | apply onUnit_conf | apply State.advanceLine_conf | apply State.setDir_conf
    | apply State.countDir_conf | apply SameConfR.next | exact SameConfR.fault | exact SameConfR.refused | apply SameConfR.onUnit | apply SameConfR.ite | apply SameConf.ite
    | apply SameConf.foldl | (simp only [SameConf.mk_iff]; apply SameConf.parts) | split | dsimp only

theorem execPuts_conf {s0 : State} (l : Nat) (k : Nat) {s : State} (hs : SameConf s0 s) :
    SameConfR s0 (execPuts l k s) := by
  unfold execPuts
  repeat' with_reducible first
    | assumption | intro _ | apply State.putRow_conf | apply onUnit_conf | apply SameConfR.next | exact SameConfR.fault | exact SameConfR.refused
    | apply SameConfR.onUnit | apply SameConfR.ite | apply SameConf.ite | apply SameConf.foldl | (simp only [SameConf.mk_iff]; apply SameConf.parts) | split | dsimp only

theorem execWritenc_conf {s0 : State} (l : Nat) (k : Nat) {s : State} (hs : SameConf s0 s) :
    SameConfR s0 (execWritenc l k s) := by
  unfold execWritenc
  repeat' with_reducible first
    | assumption | intro _ | apply onUnit_conf | apply State.atHome_conf | apply SameConfR.next | exact SameConfR.fault | exact SameConfR.refused
    | apply SameConfR.onUnit | apply SameConfR.ite | apply SameConf.ite | apply SameConf.foldl | (simp only [SameConf.mk_iff]; apply SameConf.parts) | split | dsimp only

theorem execSnpdata_conf {s0 : State} (l : Nat) (k : Nat) {s : State} (hs : SameConf s0 s) :
    SameConfR s0 (execSnpdata l k s) := by
  unfold execSnpdata
  repeat' with_reducible first
    | assumption | intro _ | apply State.answerRow_conf | apply onUnit_conf | apply SameConfR.next | exact SameConfR.fault | exact SameConfR.refused
    | apply SameConfR.onUnit | apply SameConfR.ite | apply SameConf.ite | apply SameConf.foldl | (simp only [SameConf.mk_iff]; apply SameConf.parts) | split | dsimp only

theorem execAck_conf {s0 : State} (l : Nat) (k : Nat) {s : State} (hs : SameConf s0 s) :
    SameConfR s0 (execAck l k s) := by
  unfold execAck
  repeat' with_reducible first
    | assumption | intro _ | apply State.grantRow_conf | apply onUnit_conf | apply SameConfR.next | exact SameConfR.fault | exact SameConfR.refused
    | apply SameConfR.onUnit | apply SameConfR.ite | apply SameConf.ite | apply SameConf.foldl | (simp only [SameConf.mk_iff]; apply SameConf.parts) | split | dsimp only

theorem execInvack_conf {s0 : State} (l : Nat) (k : Nat) {s : State} (hs : SameConf s0 s) :
    SameConfR s0 (execInvack l k s) := by
  unfold execInvack
  repeat' with_reducible first
    | assumption | intro _ | apply State.answerRow_conf | apply onUnit_conf | apply SameConfR.next | exact SameConfR.fault | exact SameConfR.refused
    | apply SameConfR.onUnit | apply SameConfR.ite | apply SameConf.ite | apply SameConf.foldl | (simp only [SameConf.mk_iff]; apply SameConf.parts) | split | dsimp only

theorem execMissPutPending_conf {s0 : State} (l : Nat) (k : Nat) {s : State} (hs : SameConf s0 s) :
    SameConfR s0 (execMissPutPending l k s) := by
  unfold execMissPutPending
  repeat' with_reducible first
    | assumption | intro _ | apply State.answerRow_conf | apply onUnit_conf | apply SameConfR.next | exact SameConfR.fault | exact SameConfR.refused
    | apply SameConfR.onUnit | apply SameConfR.ite | apply SameConf.ite | apply SameConf.foldl | (simp only [SameConf.mk_iff]; apply SameConf.parts) | split | dsimp only

theorem execDatam_conf {s0 : State} (l : Nat) (k : Nat) {s : State} (hs : SameConf s0 s) :
    SameConfR s0 (execDatam l k s) := by
  unfold execDatam
  repeat' with_reducible first
    | assumption | intro _ | apply State.grantRow_conf | apply onUnit_conf | apply SameConfR.next | exact SameConfR.fault | exact SameConfR.refused
    | apply SameConfR.onUnit | apply SameConfR.ite | apply SameConf.ite | apply SameConf.foldl | (simp only [SameConf.mk_iff]; apply SameConf.parts) | split | dsimp only

end Sys2Proof.Machine
end

