-- ==== Sys2Proof/Laws/SameConfThreads.lean ====
section
/-!
SUPPORT. What the operations of Machine/Threads.lean leave alone (Laws/SameConf.lean).
-/

set_option linter.all false

namespace Sys2Proof.Machine

theorem State.threadWait_conf {s0 : State} {s : State} (c : Nat) (t : Nat) (w : ThreadWait) (hs : SameConf s0 s) :
    SameConf s0 (State.threadWait s c t w) := by
  unfold State.threadWait
  repeat' with_reducible first
    | assumption | intro _
    | (extract_lets +onlyGivenNames x; clear_value (hx : x = _); first | refine SameConf.bind (s := s0) hx ?_ (fun _ => ?_) | (refine SameConf.isFaults x ?_; subst hx) | skip)
    | apply State.modCore_conf | apply SameConf.ite | apply SameConf.foldl | (simp only [SameConf.mk_iff]; apply SameConf.parts) | split | dsimp only

theorem State.issued_conf {s0 : State} {s : State} (c : Nat) (t : Nat) (hs : SameConf s0 s) :
    SameConf s0 (State.issued s c t) := by
  unfold State.issued
  repeat' with_reducible first
    | assumption | intro _
    | (extract_lets +onlyGivenNames x; clear_value (hx : x = _); first | refine SameConf.bind (s := s0) hx ?_ (fun _ => ?_) | (refine SameConf.isFaults x ?_; subst hx) | skip)
    | apply State.countCycles_conf | apply State.modCore_conf | apply State.count_conf | apply SameConf.ite | apply SameConf.foldl
    | (simp only [SameConf.mk_iff]; apply SameConf.parts) | split | dsimp only

theorem State.issue_conf {s0 : State} {s : State} (c : Nat) (t : Nat) (move : Bool) (k : State → Flight → State) (hs : SameConf s0 s) (hk : ∀ y0 y1, SameConf s0 y0 → SameConf s0 (k y0 y1)) :
    SameConf s0 (State.issue s c t move k) := by
  unfold State.issue
  repeat' with_reducible first
    | assumption | intro _ | apply State.issued_conf | apply State.stopProgram_conf | apply hk | apply SameConf.ite | apply SameConf.foldl
    | (simp only [SameConf.mk_iff]; apply SameConf.parts) | split | dsimp only

theorem threadRow_conf {s0 : State} (c : Nat) (t : Nat) (move : Bool) {s : State} (k : State → Flight → State) (hs : SameConf s0 s) (hk : ∀ y0 y1, SameConf s0 y0 → SameConf s0 (k y0 y1)) :
    SameConfR s0 (threadRow c t move s k) := by
  unfold threadRow
  repeat' with_reducible first
    | assumption | intro _ | apply State.issue_conf | apply onUnit_conf | apply hk | apply SameConfR.next | exact SameConfR.fault | exact SameConfR.refused
    | apply SameConfR.onUnit | apply SameConfR.ite | apply SameConf.ite | apply SameConf.foldl | (simp only [SameConf.mk_iff]; apply SameConf.parts) | split | dsimp only

theorem execFenceDevice_conf {s0 : State} (c : Nat) (t : Nat) {s : State} (hs : SameConf s0 s) :
    SameConfR s0 (execFenceDevice c t s) := by
  unfold execFenceDevice
  repeat' with_reducible first
    | assumption | intro _ | apply State.threadWait_conf | apply threadRow_conf | apply SameConfR.next | exact SameConfR.fault | exact SameConfR.refused
    | apply SameConfR.onUnit | apply SameConfR.ite | apply SameConf.ite | apply SameConf.foldl | (simp only [SameConf.mk_iff]; apply SameConf.parts) | split | dsimp only

theorem execSemwaitAcq_conf {s0 : State} (c : Nat) (t : Nat) (n : Nat) (v : Nat) (scope : Nat) {s : State} (hs : SameConf s0 s) :
    SameConfR s0 (execSemwaitAcq c t n v scope s) := by
  unfold execSemwaitAcq
  repeat' with_reducible first
    | assumption | intro _ | apply State.threadWait_conf | apply State.stopProgram_conf | apply threadRow_conf | apply SameConfR.next | exact SameConfR.fault
    | exact SameConfR.refused | apply SameConfR.onUnit | apply SameConfR.ite | apply SameConf.ite | apply SameConf.foldl | (simp only [SameConf.mk_iff]; apply SameConf.parts)
    | split | dsimp only

theorem State.movePlaces_conf {s0 : State} {s : State} (fn : Nat) (wr : Bool) (x4 : List (Nat × Nat)) (hs : SameConf s0 s) :
    SameConf s0 (State.movePlaces s fn wr x4).1 := by
  induction x4 generalizing s fn wr with
  | nil =>
    unfold State.movePlaces
    repeat' with_reducible first
      | assumption | intro _ | apply State.writePlace_conf | apply SameConf.ite | apply SameConf.foldl | (simp only [SameConf.mk_iff]; apply SameConf.parts)
      | apply SameConf.iteFst | apply SameConf.iteSnd | refine SameConf.fstEq (by assumption) ?_ | split | dsimp only
  | cons y ys ih =>
    unfold State.movePlaces
    repeat' with_reducible first
      | assumption | intro _ | apply State.writePlace_conf | apply ih | apply SameConf.ite | apply SameConf.foldl | (simp only [SameConf.mk_iff]; apply SameConf.parts)
      | apply SameConf.iteFst | apply SameConf.iteSnd | refine SameConf.fstEq (by assumption) ?_ | split | dsimp only

theorem State.moveBulk_conf {s0 : State} {u : State} (c : Nat) (fl : Flight) (m : Nat) (out : Bool) (a : Nat) (spad : Nat) (n : Nat) (hu : SameConf s0 u) :
    SameConf s0 (State.moveBulk u c fl m out a spad n) := by
  unfold State.moveBulk
  repeat' with_reducible first
    | assumption | intro _
    | (extract_lets +onlyGivenNames x; clear_value (hx : x = _); first | refine SameConf.bind (s := s0) hx ?_ (fun _ => ?_) | refine SameConf.bindFst (s := s0) hx ?_ (fun _ => ?_) | (refine SameConf.isFaults x ?_; subst hx) | skip)
    | apply State.churn_conf | apply State.movePlaces_conf | apply State.setCore_conf | apply State.stopProgram_conf | apply State.modFlight_conf
    | apply SameConf.ite | apply SameConf.foldl | (simp only [SameConf.mk_iff]; apply SameConf.parts) | apply SameConf.iteFst | apply SameConf.iteSnd
    | refine SameConf.fstEq (by assumption) ?_ | split | dsimp only

theorem State.drawLane_conf {s0 : State} {s : State} (c : Nat) (lane : Nat) (hs : SameConf s0 s) :
    SameConf s0 (State.drawLane s c lane).2 := by
  unfold State.drawLane
  repeat' with_reducible first
    | assumption | intro _
    | (extract_lets +onlyGivenNames x; clear_value (hx : x = _); first | refine SameConf.bind (s := s0) hx ?_ (fun _ => ?_) | refine SameConf.bindSnd (s := s0) hx ?_ (fun _ => ?_) | (refine SameConf.isFaults x ?_; subst hx) | skip)
    | apply State.modCore_conf | apply State.count_conf | apply SameConf.ite | apply SameConf.foldl | (simp only [SameConf.mk_iff]; apply SameConf.parts)
    | apply SameConf.iteFst | apply SameConf.iteSnd | refine SameConf.sndEq (by assumption) ?_ | split | dsimp only

theorem randRow_conf {s0 : State} (c : Nat) (t : Nat) (lane : Nat) {s : State} (k : Nat → State → State) (hs : SameConf s0 s) (hk : ∀ y0 y1, SameConf s0 y1 → SameConf s0 (k y0 y1)) :
    SameConfR s0 (randRow c t lane s k) := by
  unfold randRow
  repeat' with_reducible first
    | assumption | intro _ | apply State.drawLane_conf | apply threadRow_conf | apply hk | apply SameConfR.next | exact SameConfR.fault | exact SameConfR.refused
    | apply SameConfR.onUnit | apply SameConfR.ite | apply SameConf.ite | apply SameConf.foldl | (simp only [SameConf.mk_iff]; apply SameConf.parts) | apply SameConf.iteFst
    | apply SameConf.iteSnd | refine SameConf.sndEq (by assumption) ?_ | split | dsimp only

theorem execRandUo_conf {s0 : State} (c : Nat) (t : Nat) (lane : Nat) (reg : Nat) {s : State} (hs : SameConf s0 s) :
    SameConfR s0 (execRandUo c t lane reg s) := by
  unfold execRandUo
  repeat' with_reducible first
    | assumption | intro _ | apply randRow_conf | apply State.writeThreadReg_conf | apply SameConfR.next | exact SameConfR.fault | exact SameConfR.refused
    | apply SameConfR.onUnit | apply SameConfR.ite | apply SameConf.ite | apply SameConf.foldl | (simp only [SameConf.mk_iff]; apply SameConf.parts) | split | dsimp only

theorem State.newDemand_conf {s0 : State} {s : State} (c : Nat) (addr : Nat) (size : Nat) (acc : ThreadAcc) (hs : SameConf s0 s) :
    SameConf s0 (State.newDemand s c addr size acc) := by
  unfold State.newDemand
  repeat' with_reducible first
    | assumption | intro _
    | (extract_lets +onlyGivenNames x; clear_value (hx : x = _); first | refine SameConf.bind (s := s0) hx ?_ (fun _ => ?_) | (refine SameConf.isFaults x ?_; subst hx) | skip)
    | apply State.setCore_conf | apply SameConf.ite | apply SameConf.foldl | (simp only [SameConf.mk_iff]; apply SameConf.parts) | split | dsimp only

theorem execRandBern_conf {s0 : State} (c : Nat) (t : Nat) (lane : Nat) (reg : Nat) (p : Nat) {s : State} (hs : SameConf s0 s) :
    SameConfR s0 (execRandBern c t lane reg p s) := by
  unfold execRandBern
  repeat' with_reducible first
    | assumption | intro _ | apply randRow_conf | apply State.writeThreadReg_conf | apply SameConfR.next | exact SameConfR.fault | exact SameConfR.refused
    | apply SameConfR.onUnit | apply SameConfR.ite | apply SameConf.ite | apply SameConf.foldl | (simp only [SameConf.mk_iff]; apply SameConf.parts) | split | dsimp only

theorem State.mergeAcc_conf {s0 : State} {s : State} (c : Nat) (r : CoreReq) (acc : ThreadAcc) (hs : SameConf s0 s) :
    SameConf s0 (State.mergeAcc s c r acc) := by
  unfold State.mergeAcc
  repeat' with_reducible first
    | assumption | intro _
    | (extract_lets +onlyGivenNames x; clear_value (hx : x = _); first | refine SameConf.bind (s := s0) hx ?_ (fun _ => ?_) | (refine SameConf.isFaults x ?_; subst hx) | skip)
    | apply State.modCore_conf | apply State.count_conf | apply SameConf.ite | apply SameConf.foldl | (simp only [SameConf.mk_iff]; apply SameConf.parts) | split
    | dsimp only

theorem State.uncachedAccess_conf {s0 : State} {s back : State} (c : Nat) (fl : Flight) (acc : ThreadAcc) (hs : SameConf s0 s) (hb : SameConf s0 back) :
    SameConf s0 (State.uncachedAccess s back c fl acc) := by
  unfold State.uncachedAccess
  repeat' with_reducible first
    | assumption | intro _
    | (extract_lets +onlyGivenNames x; clear_value (hx : x = _); first | refine SameConf.bind (s := s0) hx ?_ (fun _ => ?_) | (refine SameConf.isFaults x ?_; subst hx) | skip)
    | apply State.mergeAcc_conf | apply State.countCycles_conf | apply State.newDemand_conf | apply State.request_conf | apply State.stopProgram_conf
    | apply SameConf.ite | apply SameConf.foldl | (simp only [SameConf.mk_iff]; apply SameConf.parts) | split | dsimp only

theorem State.prefetchBlock_conf {s0 : State} {s : State} (c : Nat) (x3 : Nat) (a : Nat) (hs : SameConf s0 s) :
    SameConf s0 (State.prefetchBlock s c x3 a) := by
  unfold State.prefetchBlock
  repeat' with_reducible first
    | assumption | intro _
    | (extract_lets +onlyGivenNames x; clear_value (hx : x = _); first | refine SameConf.bind (s := s0) hx ?_ (fun _ => ?_) | (refine SameConf.isFaults x ?_; subst hx) | skip)
    | apply State.churn_conf | apply State.issueReq_conf | apply State.setCore_conf | apply State.count_conf | apply SameConf.ite | apply SameConf.foldl
    | (simp only [SameConf.mk_iff]; apply SameConf.parts) | split | dsimp only

theorem State.trackDemand_conf {s0 : State} {s : State} (c : Nat) (t : Nat) (a : Nat) (miss : Bool) (hs : SameConf s0 s) :
    SameConf s0 (State.trackDemand s c t a miss) := by
  unfold State.trackDemand
  repeat' with_reducible first
    | assumption | intro _
    | (extract_lets +onlyGivenNames x; clear_value (hx : x = _); first | refine SameConf.bind (s := s0) hx ?_ (fun _ => ?_) | (refine SameConf.isFaults x ?_; subst hx) | skip)
    | apply State.modCore_conf | apply State.setCore_conf | apply State.prefetchBlock_conf | apply SameConf.ite | apply SameConf.foldl
    | (simp only [SameConf.mk_iff]; apply SameConf.parts) | split | dsimp only

theorem State.cachedAccess_conf {s0 : State} {s back : State} (c : Nat) (acc : ThreadAcc) (hs : SameConf s0 s) (hb : SameConf s0 back) :
    SameConf s0 (State.cachedAccess s back c acc) := by
  unfold State.cachedAccess
  repeat' with_reducible first
    | assumption | intro _
    | (extract_lets +onlyGivenNames x; clear_value (hx : x = _); first | refine SameConf.bind (s := s0) hx ?_ (fun _ => ?_) | (refine SameConf.isFaults x ?_; subst hx) | skip)
    | apply State.mergeAcc_conf | apply State.countCycles_conf | apply State.trackDemand_conf | apply State.setCore_conf | apply State.touchLine_conf
    | apply State.newDemand_conf | apply State.perform_conf | apply State.setCLine_conf | apply State.count_conf | apply State.waitLine_conf
    | apply SameConf.ite | apply SameConf.foldl | (simp only [SameConf.mk_iff]; apply SameConf.parts) | refine SameConf.optEq (by assumption) ?_ | apply SameConf.getD
    | split | dsimp only

theorem State.access_conf {s0 : State} {s back : State} (c : Nat) (fl : Flight) (acc0 : ThreadAcc) (hs : SameConf s0 s) (hb : SameConf s0 back) :
    SameConf s0 (State.access s back c fl acc0) := by
  unfold State.access
  repeat' with_reducible first
    | assumption | intro _
    | (extract_lets +onlyGivenNames x; clear_value (hx : x = _); first | refine SameConf.bind (s := s0) hx ?_ (fun _ => ?_) | refine SameConf.bindFst (s := s0) hx ?_ (fun _ => ?_) | (refine SameConf.isFaults x ?_; subst hx) | skip)
    | apply State.uncachedAccess_conf | apply State.perform_conf | apply State.stopProgram_conf | apply State.writePlace_conf
    | apply State.writeThreadReg_conf | apply State.cachedAccess_conf | apply SameConf.ite | apply SameConf.foldl
    | (simp only [SameConf.mk_iff]; apply SameConf.parts) | apply SameConf.iteFst | apply SameConf.iteSnd | refine SameConf.fstEq (by assumption) ?_ | split | dsimp only

theorem CoreReq.takeRegs_conf {s0 : State} {s : State} (r : CoreReq) (c : Nat) (b : List Byte) (hs : SameConf s0 s) :
    SameConf s0 (CoreReq.takeRegs r c b s) := by
  unfold CoreReq.takeRegs
  repeat' with_reducible first
    | assumption | intro _ | apply State.writeThreadReg_conf | apply SameConf.ite | apply SameConf.foldl | (simp only [SameConf.mk_iff]; apply SameConf.parts) | split | dsimp only

theorem State.coreAnswer_conf {s0 : State} {s : State} (c : Nat) (id : Nat) (data : Option (List Byte)) (fail : Option (Nat × Nat)) (hs : SameConf s0 s) :
    SameConf s0 (State.coreAnswer s c id data fail) := by
  unfold State.coreAnswer
  repeat' with_reducible first
    | assumption | intro _ | apply CoreReq.takeRegs_conf
    | (extract_lets +onlyGivenNames x; clear_value (hx : x = _); first | refine SameConf.bind (s := s0) hx ?_ (fun _ => ?_) | (refine SameConf.isFaults x ?_; subst hx) | skip)
    | apply State.churn_conf | apply State.modCore_conf | apply State.pieceDone_conf | apply State.fill_conf | apply State.stopProgram_conf
    | apply State.writeThreadReg_conf | apply SameConf.ite | apply SameConf.foldl | (simp only [SameConf.mk_iff]; apply SameConf.parts) | split | dsimp only

theorem State.wrack_conf {s0 : State} {s : State} (n : Nat) (m : FabMsg) (hs : SameConf s0 s) :
    SameConf s0 (State.wrack s n m) := by
  unfold State.wrack
  repeat' with_reducible first
    | assumption | intro _
    | (extract_lets +onlyGivenNames x; clear_value (hx : x = _); first | refine SameConf.bind (s := s0) hx ?_ (fun _ => ?_) | (refine SameConf.isFaults x ?_; subst hx) | skip)
    | apply State.coreAnswer_conf | apply State.dropRequest_conf | apply State.answered_conf | apply State.lateResponse_conf | apply SameConf.ite
    | apply SameConf.foldl | (simp only [SameConf.mk_iff]; apply SameConf.parts) | split | dsimp only

theorem execWrack_conf {s0 : State} (k : Nat) {s : State} (hs : SameConf s0 s) :
    SameConfR s0 (execWrack k s) := by
  unfold execWrack
  repeat' with_reducible first
    | assumption | intro _ | apply State.wrack_conf | apply State.onMsg_conf | apply SameConfR.next | exact SameConfR.fault | exact SameConfR.refused
    | apply SameConfR.onUnit | apply SameConfR.ite | apply SameConf.ite | apply SameConf.foldl | (simp only [SameConf.mk_iff]; apply SameConf.parts) | split | dsimp only

theorem execRandU32_conf {s0 : State} (c : Nat) (t : Nat) (lane : Nat) (reg : Nat) {s : State} (hs : SameConf s0 s) :
    SameConfR s0 (execRandU32 c t lane reg s) := by
  unfold execRandU32
  repeat' with_reducible first
    | assumption | intro _ | apply randRow_conf | apply State.writeThreadReg_conf | apply SameConfR.next | exact SameConfR.fault | exact SameConfR.refused
    | apply SameConfR.onUnit | apply SameConfR.ite | apply SameConf.ite | apply SameConf.foldl | (simp only [SameConf.mk_iff]; apply SameConf.parts) | split | dsimp only

theorem execRandNtab_conf {s0 : State} (c : Nat) (t : Nat) (lane : Nat) (reg : Nat) {s : State} (hs : SameConf s0 s) :
    SameConfR s0 (execRandNtab c t lane reg s) := by
  unfold execRandNtab
  repeat' with_reducible first
    | assumption | intro _ | apply randRow_conf | apply State.writeThreadReg_conf | apply SameConfR.next | exact SameConfR.fault | exact SameConfR.refused
    | apply SameConfR.onUnit | apply SameConfR.ite | apply SameConf.ite | apply SameConf.foldl | (simp only [SameConf.mk_iff]; apply SameConf.parts) | split | dsimp only

theorem State.placeMove_conf {s0 : State} {s : State} (c : Nat) (r : CoreReq) (hs : SameConf s0 s) :
    SameConfO (fun x => x) s0 (State.placeMove s c r) := by
  unfold State.placeMove
  repeat' with_reducible first
    | assumption | intro _
    | (extract_lets +onlyGivenNames x; clear_value (hx : x = _); first | refine SameConf.bind (s := s0) hx ?_ (fun _ => ?_) | (refine SameConf.isFaults x ?_; subst hx) | skip)
    | apply State.issueReq_conf | apply State.setCore_conf | apply State.count_conf | exact SameConfO.none | apply SameConfO.some | apply SameConfO.ite
    | apply SameConf.ite | apply SameConf.foldl | (simp only [SameConf.mk_iff]; apply SameConf.parts) | refine SameConf.optEq (by assumption) ?_ | apply SameConf.getD
    | split | dsimp only

theorem State.rddata_conf {s0 : State} {s : State} (n : Nat) (m : FabMsg) (hs : SameConf s0 s) :
    SameConf s0 (State.rddata s n m) := by
  unfold State.rddata
  repeat' with_reducible first
    | assumption | intro _
    | (extract_lets +onlyGivenNames x; clear_value (hx : x = _); first | refine SameConf.bind (s := s0) hx ?_ (fun _ => ?_) | (refine SameConf.isFaults x ?_; subst hx) | skip)
    | apply State.coreAnswer_conf | apply State.dropRequest_conf | apply State.lateResponse_conf | apply State.readAnswer_conf | apply State.sealMiss_conf
    | apply State.count_conf | apply SameConf.ite | apply SameConf.foldl | (simp only [SameConf.mk_iff]; apply SameConf.parts) | split | dsimp only

theorem execSemaddRel_conf {s0 : State} (c : Nat) (t : Nat) (n : Nat) (v : Nat) (scope : Nat) {s : State} (hs : SameConf s0 s) :
    SameConfR s0 (execSemaddRel c t n v scope s) := by
  unfold execSemaddRel
  repeat' with_reducible first
    | assumption | intro _ | apply State.addSem_conf | apply onUnit_conf | apply State.refreshHeads_conf | apply State.stopProgram_conf
    | apply threadRow_conf | apply SameConfR.next | exact SameConfR.fault | exact SameConfR.refused | apply SameConfR.onUnit | apply SameConfR.ite | apply SameConf.ite
    | apply SameConf.foldl | (simp only [SameConf.mk_iff]; apply SameConf.parts) | split | dsimp only

theorem execFenceCore_conf {s0 : State} (c : Nat) (t : Nat) {s : State} (hs : SameConf s0 s) :
    SameConfR s0 (execFenceCore c t s) := by
  unfold execFenceCore
  repeat' with_reducible first
    | assumption | intro _ | apply State.threadWait_conf | apply threadRow_conf | apply SameConfR.next | exact SameConfR.fault | exact SameConfR.refused
    | apply SameConfR.onUnit | apply SameConfR.ite | apply SameConf.ite | apply SameConf.foldl | (simp only [SameConf.mk_iff]; apply SameConf.parts) | split | dsimp only

theorem execMvBulk_conf {s0 : State} (c : Nat) (t : Nat) (m : Nat) (out : Bool) (a : Nat) (spad : Nat) (n : Nat) {s : State} (hs : SameConf s0 s) :
    SameConfR s0 (execMvBulk c t m out a spad n s) := by
  unfold execMvBulk
  repeat' with_reducible first
    | assumption | intro _ | apply threadRow_conf | apply State.moveBulk_conf | apply SameConfR.next | exact SameConfR.fault | exact SameConfR.refused
    | apply SameConfR.onUnit | apply SameConfR.ite | apply SameConf.ite | apply SameConf.foldl | (simp only [SameConf.mk_iff]; apply SameConf.parts) | split | dsimp only

theorem State.placeMoves_conf {s0 : State} {s : State} (c : Nat) (x3 : List CoreReq) (hs : SameConf s0 s) :
    SameConfO (fun x => x) s0 (State.placeMoves s c x3) := by
  induction x3 generalizing s c with
  | nil =>
    unfold State.placeMoves
    repeat' with_reducible first
      | assumption | intro _ | apply State.placeMove_conf | exact SameConfO.none | apply SameConfO.some | apply SameConfO.ite | apply SameConf.ite
      | apply SameConf.foldl | (simp only [SameConf.mk_iff]; apply SameConf.parts) | refine SameConf.optEq (by assumption) ?_ | apply SameConf.getD | split | dsimp only
  | cons y ys ih =>
    unfold State.placeMoves
    repeat' with_reducible first
      | assumption | intro _ | apply State.placeMove_conf | apply ih | exact SameConfO.none | apply SameConfO.some | apply SameConfO.ite | apply SameConf.ite
      | apply SameConf.foldl | (simp only [SameConf.mk_iff]; apply SameConf.parts) | refine SameConf.optEq (by assumption) ?_ | apply SameConf.getD | split | dsimp only

theorem State.churnMove_conf {s0 : State} {s : State} (c : Nat) (kind : ReqKind) (g : Nat) (empty : Bool) (hs : SameConf s0 s) :
    SameConf s0 (State.churnMove s c kind g empty) := by
  unfold State.churnMove
  repeat' with_reducible first
    | assumption | intro _ | apply State.groupDone_conf | apply State.churn_conf | apply SameConf.ite | apply SameConf.foldl
    | (simp only [SameConf.mk_iff]; apply SameConf.parts) | split | dsimp only

theorem State.movement_conf {s0 : State} {s back : State} (c : Nat) (fl : Flight) (kind : ReqKind) (wr : Bool) (a : Nat) (n : Nat) (spad : Nat) (hs : SameConf s0 s) (hb : SameConf s0 back) :
    SameConf s0 (State.movement s back c fl kind wr a n spad) := by
  unfold State.movement
  repeat' with_reducible first
    | assumption | intro _
    | (extract_lets +onlyGivenNames x; clear_value (hx : x = _); first | refine SameConf.bind (s := s0) hx ?_ (fun _ => ?_) | refine SameConf.bindFst (s := s0) hx ?_ (fun _ => ?_) | (refine SameConf.isFaults x ?_; subst hx) | skip)
    | apply State.countCycles_conf | apply State.modCore_conf | apply State.movePlaces_conf | apply State.placeMoves_conf | apply State.stopProgram_conf
    | apply State.churnMove_conf | apply State.modFlight_conf | apply SameConf.ite | apply SameConf.foldl | (simp only [SameConf.mk_iff]; apply SameConf.parts)
    | apply SameConf.iteFst | apply SameConf.iteSnd | refine SameConf.fstEq (by assumption) ?_ | refine SameConf.optEq (by assumption) ?_ | apply SameConf.getD | split
    | dsimp only

theorem execMvSt_conf {s0 : State} (c : Nat) (t : Nat) (m : Nat) (a : Nat) (spad : Nat) (n : Nat) {s : State} (hs : SameConf s0 s) :
    SameConfR s0 (execMvSt c t m a spad n s) := by
  unfold execMvSt
  repeat' with_reducible first
    | assumption | intro _ | apply threadRow_conf | apply State.movement_conf | apply SameConfR.next | exact SameConfR.fault | exact SameConfR.refused
    | apply SameConfR.onUnit | apply SameConfR.ite | apply SameConf.ite | apply SameConf.foldl | (simp only [SameConf.mk_iff]; apply SameConf.parts) | split | dsimp only

theorem State.applyPfBuf_conf {s0 : State} {s : State} (c : Nat) (hs : SameConf s0 s) :
    SameConf s0 (State.applyPfBuf s c) := by
  unfold State.applyPfBuf
  repeat' with_reducible first
    | assumption | intro _
    | (extract_lets +onlyGivenNames x; clear_value (hx : x = _); first | refine SameConf.bind (s := s0) hx ?_ (fun _ => ?_) | (refine SameConf.isFaults x ?_; subst hx) | skip)
    | apply State.setCore_conf | apply State.count_conf | apply SameConf.ite | apply SameConf.foldl | (simp only [SameConf.mk_iff]; apply SameConf.parts) | split
    | dsimp only

theorem State.vprog_conf {s0 : State} {s : State} (fl : Flight) (draws : Bool) (hs : SameConf s0 s) :
    SameConf s0 (State.vprog s fl draws) := by
  unfold State.vprog
  repeat' with_reducible first
    | assumption | intro _ | apply State.countCycles_conf
    | (extract_lets +onlyGivenNames x; clear_value (hx : x = _); first | refine SameConf.bind (s := s0) hx ?_ (fun _ => ?_) | (refine SameConf.isFaults x ?_; subst hx) | skip)
    | apply State.modCore_conf | apply State.programSettle_conf | apply State.setFld_conf | apply State.endFlight_conf | apply State.stopProgram_conf
    | apply State.count_conf | apply State.applyPfBuf_conf | apply SameConf.ite | apply SameConf.foldl | (simp only [SameConf.mk_iff]; apply SameConf.parts) | split
    | dsimp only

theorem execLd_conf {s0 : State} (c : Nat) (t : Nat) (reg : Nat) (a : Nat) (size : Nat) {s : State} (hs : SameConf s0 s) :
    SameConfR s0 (execLd c t reg a size s) := by
  unfold execLd
  repeat' with_reducible first
    | assumption | intro _ | apply threadRow_conf | apply State.access_conf | apply SameConfR.next | exact SameConfR.fault | exact SameConfR.refused
    | apply SameConfR.onUnit | apply SameConfR.ite | apply SameConf.ite | apply SameConf.foldl | (simp only [SameConf.mk_iff]; apply SameConf.parts) | split | dsimp only

theorem execRandNbm_conf {s0 : State} (c : Nat) (t : Nat) (lane : Nat) (reg0 : Nat) (reg1 : Nat) {s : State} (hs : SameConf s0 s) :
    SameConfR s0 (execRandNbm c t lane reg0 reg1 s) := by
  unfold execRandNbm
  repeat' with_reducible first
    | assumption | intro _
    | (extract_lets +onlyGivenNames x; clear_value (hx : x = _); first | refine SameConf.bind (s := s0) hx ?_ (fun _ => ?_) | refine SameConf.bindSnd (s := s0) hx ?_ (fun _ => ?_) | (refine SameConf.isFaults x ?_; subst hx) | skip)
    | apply randRow_conf | apply State.drawLane_conf | apply State.writeThreadReg_conf | apply SameConfR.next | exact SameConfR.fault | exact SameConfR.refused
    | apply SameConfR.onUnit | apply SameConfR.ite | apply SameConf.ite | apply SameConf.foldl | (simp only [SameConf.mk_iff]; apply SameConf.parts) | apply SameConf.iteFst
    | apply SameConf.iteSnd | refine SameConf.sndEq (by assumption) ?_ | split | dsimp only

theorem execHalt_conf {s0 : State} (c : Nat) (t : Nat) {s : State} (hs : SameConf s0 s) :
    SameConfR s0 (execHalt c t s) := by
  unfold execHalt
  repeat' with_reducible first
    | assumption | intro _ | apply State.countCycles_conf
    | (extract_lets +onlyGivenNames x; clear_value (hx : x = _); first | refine SameConf.bind (s := s0) hx ?_ (fun _ => ?_) | (refine SameConf.isFaults x ?_; subst hx) | skip)
    | apply State.modCore_conf | apply State.programSettle_conf | apply threadRow_conf | apply State.applyPfBuf_conf | apply SameConfR.next
    | exact SameConfR.fault | exact SameConfR.refused | apply SameConfR.onUnit | apply SameConfR.ite | apply SameConf.ite | apply SameConf.foldl
    | (simp only [SameConf.mk_iff]; apply SameConf.parts) | split | dsimp only

theorem execMvLd_conf {s0 : State} (c : Nat) (t : Nat) (m : Nat) (a : Nat) (spad : Nat) (n : Nat) {s : State} (hs : SameConf s0 s) :
    SameConfR s0 (execMvLd c t m a spad n s) := by
  unfold execMvLd
  repeat' with_reducible first
    | assumption | intro _ | apply threadRow_conf | apply State.movement_conf | apply SameConfR.next | exact SameConfR.fault | exact SameConfR.refused
    | apply SameConfR.onUnit | apply SameConfR.ite | apply SameConf.ite | apply SameConf.foldl | (simp only [SameConf.mk_iff]; apply SameConf.parts) | split | dsimp only

theorem execRandU_conf {s0 : State} (c : Nat) (t : Nat) (lane : Nat) (reg : Nat) {s : State} (hs : SameConf s0 s) :
    SameConfR s0 (execRandU c t lane reg s) := by
  unfold execRandU
  repeat' with_reducible first
    | assumption | intro _ | apply randRow_conf | apply State.writeThreadReg_conf | apply SameConfR.next | exact SameConfR.fault | exact SameConfR.refused
    | apply SameConfR.onUnit | apply SameConfR.ite | apply SameConf.ite | apply SameConf.foldl | (simp only [SameConf.mk_iff]; apply SameConf.parts) | split | dsimp only

theorem execFenceFabric_conf {s0 : State} (c : Nat) (t : Nat) {s : State} (hs : SameConf s0 s) :
    SameConfR s0 (execFenceFabric c t s) := by
  unfold execFenceFabric
  repeat' with_reducible first
    | assumption | intro _ | apply State.threadWait_conf | apply threadRow_conf | apply SameConfR.next | exact SameConfR.fault | exact SameConfR.refused
    | apply SameConfR.onUnit | apply SameConfR.ite | apply SameConf.ite | apply SameConf.foldl | (simp only [SameConf.mk_iff]; apply SameConf.parts) | split | dsimp only

theorem execSt_conf {s0 : State} (c : Nat) (t : Nat) (reg : Option Nat) (value : Nat) (a : Nat) (size : Nat) {s : State} (hs : SameConf s0 s) :
    SameConfR s0 (execSt c t reg value a size s) := by
  unfold execSt
  repeat' with_reducible first
    | assumption | intro _
    | (extract_lets +onlyGivenNames x; clear_value (hx : x = _); first | refine SameConf.bind (s := s0) hx ?_ (fun _ => ?_) | (refine SameConf.isFaults x ?_; subst hx) | skip)
    | apply onUnit_conf | apply threadRow_conf | apply State.access_conf | apply SameConfR.next | exact SameConfR.fault | exact SameConfR.refused
    | apply SameConfR.onUnit | apply SameConfR.ite | apply SameConf.ite | apply SameConf.foldl | (simp only [SameConf.mk_iff]; apply SameConf.parts) | split | dsimp only

theorem execMvPf_conf {s0 : State} (c : Nat) (t : Nat) (m : Nat) (a : Nat) (n : Nat) {s : State} (hs : SameConf s0 s) :
    SameConfR s0 (execMvPf c t m a n s) := by
  unfold execMvPf
  repeat' with_reducible first
    | assumption | intro _ | apply threadRow_conf | apply State.movement_conf | apply SameConfR.next | exact SameConfR.fault | exact SameConfR.refused
    | apply SameConfR.onUnit | apply SameConfR.ite | apply SameConf.ite | apply SameConf.foldl | (simp only [SameConf.mk_iff]; apply SameConf.parts) | split | dsimp only

theorem execWaitc_conf {s0 : State} (c : Nat) (t : Nat) (m : Nat) (v : Nat) {s : State} (hs : SameConf s0 s) :
    SameConfR s0 (execWaitc c t m v s) := by
  unfold execWaitc
  repeat' with_reducible first
    | assumption | intro _ | apply State.threadWait_conf | apply threadRow_conf | apply SameConfR.next | exact SameConfR.fault | exact SameConfR.refused
    | apply SameConfR.onUnit | apply SameConfR.ite | apply SameConf.ite | apply SameConf.foldl | (simp only [SameConf.mk_iff]; apply SameConf.parts) | split | dsimp only

theorem execFenceCluster_conf {s0 : State} (c : Nat) (t : Nat) {s : State} (hs : SameConf s0 s) :
    SameConfR s0 (execFenceCluster c t s) := by
  unfold execFenceCluster
  repeat' with_reducible first
    | assumption | intro _ | apply State.threadWait_conf | apply threadRow_conf | apply SameConfR.next | exact SameConfR.fault | exact SameConfR.refused
    | apply SameConfR.onUnit | apply SameConfR.ite | apply SameConf.ite | apply SameConf.foldl | (simp only [SameConf.mk_iff]; apply SameConf.parts) | split | dsimp only

theorem execRddata_conf {s0 : State} (k : Nat) {s : State} (hs : SameConf s0 s) :
    SameConfR s0 (execRddata k s) := by
  unfold execRddata
  repeat' with_reducible first
    | assumption | intro _ | apply State.rddata_conf | apply State.onMsg_conf | apply SameConfR.next | exact SameConfR.fault | exact SameConfR.refused
    | apply SameConfR.onUnit | apply SameConfR.ite | apply SameConf.ite | apply SameConf.foldl | (simp only [SameConf.mk_iff]; apply SameConf.parts) | split | dsimp only

theorem execTrace_conf {s0 : State} (c : Nat) (t : Nat) (v : Nat) {s : State} (hs : SameConf s0 s) :
    SameConfR s0 (execTrace c t v s) := by
  unfold execTrace
  repeat' with_reducible first
    | assumption | intro _ | apply State.traceCore_conf | apply threadRow_conf | apply SameConfR.next | exact SameConfR.fault | exact SameConfR.refused
    | apply SameConfR.onUnit | apply SameConfR.ite | apply SameConf.ite | apply SameConf.foldl | (simp only [SameConf.mk_iff]; apply SameConf.parts) | split | dsimp only

theorem execVprog_conf {s0 : State} (q : Nat) (i : Nat) (draws : Bool) (movBad : Bool) {s : State} (hs : SameConf s0 s) :
    SameConfR s0 (execVprog q i draws movBad s) := by
  unfold execVprog
  repeat' with_reducible first
    | assumption | intro _ | apply State.vprog_conf | apply State.dispatch_conf | apply SameConfR.next | exact SameConfR.fault | exact SameConfR.refused
    | apply SameConfR.onUnit | apply SameConfR.ite | apply SameConf.ite | apply SameConf.foldl | (simp only [SameConf.mk_iff]; apply SameConf.parts) | split | dsimp only

theorem execRemoteRequestTimeout_conf {s0 : State} (tag : Nat) {s : State} (hs : SameConf s0 s) :
    SameConfR s0 (execRemoteRequestTimeout tag s) := by
  unfold execRemoteRequestTimeout
  repeat' with_reducible first
    | assumption | intro _
    | (extract_lets +onlyGivenNames x; clear_value (hx : x = _); first | refine SameConf.bind (s := s0) hx ?_ (fun _ => ?_) | (refine SameConf.isFaults x ?_; subst hx) | skip)
    | apply State.coreAnswer_conf | apply State.dropRequest_conf | apply State.answered_conf | apply SameConfR.next | exact SameConfR.fault
    | exact SameConfR.refused | apply SameConfR.onUnit | apply SameConfR.ite | apply SameConf.ite | apply SameConf.foldl | (simp only [SameConf.mk_iff]; apply SameConf.parts)
    | split | dsimp only

end Sys2Proof.Machine
end

