-- ==== Sys2Proof/Laws/SameConfSleep.lean ====
section
/-!
SUPPORT. What the operations of Machine/Sleep.lean leave alone (Laws/SameConf.lean).
-/

set_option linter.all false

namespace Sys2Proof.Machine

theorem State.enterSleep_conf {s0 : State} {s : State} (c : Nat) (n : Nat) (hs : SameConf s0 s) :
    SameConf s0 (State.enterSleep s c n) := by
  unfold State.enterSleep
  repeat' with_reducible first
    | assumption | intro _
    | (extract_lets +onlyGivenNames x; clear_value (hx : x = _); first | refine SameConf.bind (s := s0) hx ?_ (fun _ => ?_) | (refine SameConf.isFaults x ?_; subst hx) | skip)
    | apply State.traceCore_conf | apply State.sealWrite_conf | apply State.setFld_conf | apply State.traceFlush_conf | apply State.setCore_conf
    | apply State.count_conf | apply State.release_conf | apply SameConf.ite | apply SameConf.foldl | (simp only [SameConf.mk_iff]; apply SameConf.parts) | split
    | dsimp only

theorem execC2Entry_conf {s0 : State} (c : Nat) {s : State} (hs : SameConf s0 s) :
    SameConfR s0 (execC2Entry c s) := by
  unfold execC2Entry
  repeat' with_reducible first
    | assumption | intro _ | apply onUnit_conf | apply State.enterSleep_conf | apply SameConfR.next | exact SameConfR.fault | exact SameConfR.refused
    | apply SameConfR.onUnit | apply SameConfR.ite | apply SameConf.ite | apply SameConf.foldl | (simp only [SameConf.mk_iff]; apply SameConf.parts) | split | dsimp only

theorem State.rebook_conf {s0 : State} {s : State} (r : Nat) (ca : Nat) (o : Owner) (hs : SameConf s0 s) :
    SameConf s0 (State.rebook s r ca o) := by
  unfold State.rebook
  repeat' with_reducible first
    | assumption | intro _ | apply State.askSys_conf | apply State.release_conf | apply SameConf.ite | apply SameConf.foldl
    | (simp only [SameConf.mk_iff]; apply SameConf.parts) | split | dsimp only

theorem State.sleepBookings_conf {s0 : State} {s : State} (c : Nat) (hs : SameConf s0 s) :
    SameConf s0 (State.sleepBookings s c) := by
  unfold State.sleepBookings
  repeat' with_reducible first
    | assumption | intro _
    | (extract_lets +onlyGivenNames x; clear_value (hx : x = _); first | refine SameConf.bind (s := s0) hx ?_ (fun _ => ?_) | (refine SameConf.isFaults x ?_; subst hx) | skip)
    | apply State.rebook_conf | apply State.release_conf | apply SameConf.ite | apply SameConf.foldl | (simp only [SameConf.mk_iff]; apply SameConf.parts) | split
    | dsimp only

theorem State.startWake_conf {s0 : State} {s : State} (c : Nat) (cause : Nat) (hs : SameConf s0 s) :
    SameConf s0 (State.startWake s c cause) := by
  unfold State.startWake
  repeat' with_reducible first
    | assumption | intro _
    | (extract_lets +onlyGivenNames x; clear_value (hx : x = _); first | refine SameConf.bind (s := s0) hx ?_ (fun _ => ?_) | (refine SameConf.isFaults x ?_; subst hx) | skip)
    | apply State.modCore_conf | apply State.setFld_conf | apply State.askSys_conf | apply State.sleepBookings_conf | apply SameConf.ite | apply SameConf.foldl
    | (simp only [SameConf.mk_iff]; apply SameConf.parts) | split | dsimp only

theorem State.coreBeat_conf {s0 : State} {s : State} (hs : SameConf s0 s) :
    SameConf s0 (State.coreBeat s) := by
  unfold State.coreBeat
  repeat' with_reducible first
    | assumption | intro _
    | (extract_lets +onlyGivenNames x; clear_value (hx : x = _); first | refine SameConf.bind (s := s0) hx ?_ (fun _ => ?_) | (refine SameConf.isFaults x ?_; subst hx) | skip)
    | apply State.modCore_conf | apply State.count_conf | apply SameConf.ite | apply SameConf.foldl | (simp only [SameConf.mk_iff]; apply SameConf.parts) | split
    | dsimp only

theorem State.coreWake_conf {s0 : State} {s : State} (c : Nat) (cause : Nat) (hs : SameConf s0 s) :
    SameConf s0 (State.coreWake s c cause) := by
  unfold State.coreWake
  repeat' with_reducible first
    | assumption | intro _ | apply State.startWake_conf | apply State.modCore_conf | apply SameConf.ite | apply SameConf.foldl
    | (simp only [SameConf.mk_iff]; apply SameConf.parts) | split | dsimp only

theorem execC3Entry_conf {s0 : State} (c : Nat) {s : State} (hs : SameConf s0 s) :
    SameConfR s0 (execC3Entry c s) := by
  unfold execC3Entry
  repeat' with_reducible first
    | assumption | intro _ | apply onUnit_conf | apply State.enterSleep_conf | apply SameConfR.next | exact SameConfR.fault | exact SameConfR.refused
    | apply SameConfR.onUnit | apply SameConfR.ite | apply SameConf.ite | apply SameConf.foldl | (simp only [SameConf.mk_iff]; apply SameConf.parts) | split | dsimp only

theorem execSleepEntryComplete_conf {s0 : State} (c : Nat) {s : State} (hs : SameConf s0 s) :
    SameConfR s0 (execSleepEntryComplete c s) := by
  unfold execSleepEntryComplete
  repeat' with_reducible first
    | assumption | intro _
    | (extract_lets +onlyGivenNames x; clear_value (hx : x = _); first | refine SameConf.bind (s := s0) hx ?_ (fun _ => ?_) | (refine SameConf.isFaults x ?_; subst hx) | skip)
    | apply State.startWake_conf | apply State.setFld_conf | apply onUnit_conf | apply State.setCore_conf | apply State.sleepBookings_conf
    | apply SameConfR.next | exact SameConfR.fault | exact SameConfR.refused | apply SameConfR.onUnit | apply SameConfR.ite | apply SameConf.ite | apply SameConf.foldl
    | (simp only [SameConf.mk_iff]; apply SameConf.parts) | split | dsimp only

theorem State.zeroScratch_conf {s0 : State} {s : State} (c : Nat) (hs : SameConf s0 s) :
    SameConf s0 (State.zeroScratch s c) := by
  unfold State.zeroScratch
  repeat' with_reducible first
    | assumption | intro _
    | (extract_lets +onlyGivenNames x; clear_value (hx : x = _); first | refine SameConf.bind (s := s0) hx ?_ (fun _ => ?_) | (refine SameConf.isFaults x ?_; subst hx) | skip)
    | apply SameConf.ite | apply SameConf.foldl | (simp only [SameConf.mk_iff]; apply SameConf.parts) | split | dsimp only

theorem execWakeComplete_conf {s0 : State} (c : Nat) {s : State} (hs : SameConf s0 s) :
    SameConfR s0 (execWakeComplete c s) := by
  unfold execWakeComplete
  repeat' with_reducible first
    | assumption | intro _
    | (extract_lets +onlyGivenNames x; clear_value (hx : x = _); first | refine SameConf.bind (s := s0) hx ?_ (fun _ => ?_) | (refine SameConf.isFaults x ?_; subst hx) | skip)
    | apply State.traceCore_conf | apply State.modCore_conf | apply State.setFld_conf | apply State.zeroScratch_conf | apply onUnit_conf
    | apply State.sleepBookings_conf | apply SameConfR.next | exact SameConfR.fault | exact SameConfR.refused | apply SameConfR.onUnit | apply SameConfR.ite
    | apply SameConf.ite | apply SameConf.foldl | (simp only [SameConf.mk_iff]; apply SameConf.parts) | split | dsimp only

theorem execC1Entry_conf {s0 : State} (c : Nat) {s : State} (hs : SameConf s0 s) :
    SameConfR s0 (execC1Entry c s) := by
  unfold execC1Entry
  repeat' with_reducible first
    | assumption | intro _ | apply State.setFld_conf | apply onUnit_conf | apply State.count_conf | apply SameConfR.next | exact SameConfR.fault
    | exact SameConfR.refused | apply SameConfR.onUnit | apply SameConfR.ite | apply SameConf.ite | apply SameConf.foldl | (simp only [SameConf.mk_iff]; apply SameConf.parts)
    | split | dsimp only

theorem execCoreWake_conf {s0 : State} (c : Nat) (cause : Nat) {s : State} (hs : SameConf s0 s) :
    SameConfR s0 (execCoreWake c cause s) := by
  unfold execCoreWake
  repeat' with_reducible first
    | assumption | intro _ | apply State.coreWake_conf | apply onUnit_conf | apply SameConfR.next | exact SameConfR.fault | exact SameConfR.refused
    | apply SameConfR.onUnit | apply SameConfR.ite | apply SameConf.ite | apply SameConf.foldl | (simp only [SameConf.mk_iff]; apply SameConf.parts) | split | dsimp only

end Sys2Proof.Machine
end

