-- ==== Sys2Proof/Laws/SameConfPower.lean ====
section
/-!
SUPPORT. What the operations of Machine/Power.lean leave alone (Laws/SameConf.lean).
-/

set_option linter.all false

namespace Sys2Proof.Machine

theorem State.ran_conf {s0 : State} {s : State} (key : Nat) (hs : SameConf s0 s) :
    SameConf s0 (State.ran s key) := by
  unfold State.ran
  repeat' with_reducible first
    | assumption | intro _
    | (extract_lets +onlyGivenNames x; clear_value (hx : x = _); first | refine SameConf.bind (s := s0) hx ?_ (fun _ => ?_) | (refine SameConf.isFaults x ?_; subst hx) | skip)
    | apply SameConf.ite | apply SameConf.foldl | (simp only [SameConf.mk_iff]; apply SameConf.parts) | split | dsimp only

theorem State.thermalDie_conf {s0 : State} {s : State} (k : Nat) (hs : SameConf s0 s) :
    SameConf s0 (State.thermalDie s k) := by
  unfold State.thermalDie
  repeat' with_reducible first
    | assumption | intro _
    | (extract_lets +onlyGivenNames x; clear_value (hx : x = _); first | refine SameConf.bind (s := s0) hx ?_ (fun _ => ?_) | (refine SameConf.isFaults x ?_; subst hx) | skip)
    | apply State.setFld_conf | apply State.event_conf | apply SameConf.ite | apply SameConf.foldl | (simp only [SameConf.mk_iff]; apply SameConf.parts) | split
    | dsimp only

theorem execThermalStateEval_conf {s0 : State} {s : State} (hs : SameConf s0 s) :
    SameConfR s0 (execThermalStateEval s) := by
  unfold execThermalStateEval
  repeat' with_reducible first
    | assumption | intro _ | apply State.ran_conf | apply State.thermalDie_conf | apply SameConfR.next | exact SameConfR.fault | exact SameConfR.refused
    | apply SameConfR.onUnit | apply SameConfR.ite | apply SameConf.ite | apply SameConf.foldl | (simp only [SameConf.mk_iff]; apply SameConf.parts) | split | dsimp only

theorem State.dropDirty_conf {s0 : State} {s : State} (l : Nat) (hs : SameConf s0 s) :
    SameConf s0 (State.dropDirty s l) := by
  unfold State.dropDirty
  repeat' with_reducible first
    | assumption | intro _
    | (extract_lets +onlyGivenNames x; clear_value (hx : x = _); first | refine SameConf.bind (s := s0) hx ?_ (fun _ => ?_) | (refine SameConf.isFaults x ?_; subst hx) | skip)
    | apply State.putBytes_conf | apply SameConf.ite | apply SameConf.foldl | (simp only [SameConf.mk_iff]; apply SameConf.parts) | split | dsimp only

theorem State.abandonSweep_conf {s0 : State} {s : State} (c : Nat) (hs : SameConf s0 s) :
    SameConf s0 (State.abandonSweep s c) := by
  unfold State.abandonSweep
  repeat' with_reducible first
    | assumption | intro _
    | (extract_lets +onlyGivenNames x; clear_value (hx : x = _); first | refine SameConf.bind (s := s0) hx ?_ (fun _ => ?_) | (refine SameConf.isFaults x ?_; subst hx) | skip)
    | apply State.count_conf | apply State.release_conf | apply SameConf.ite | apply SameConf.foldl | (simp only [SameConf.mk_iff]; apply SameConf.parts) | split
    | dsimp only

theorem State.setDroop_conf {s0 : State} {s : State} (c : Nat) (d : DroopState) (hs : SameConf s0 s) :
    SameConf s0 (State.setDroop s c d) := by
  unfold State.setDroop
  repeat' with_reducible first
    | assumption | intro _
    | (extract_lets +onlyGivenNames x; clear_value (hx : x = _); first | refine SameConf.bind (s := s0) hx ?_ (fun _ => ?_) | (refine SameConf.isFaults x ?_; subst hx) | skip)
    | apply SameConf.ite | apply SameConf.foldl | (simp only [SameConf.mk_iff]; apply SameConf.parts) | split | dsimp only

theorem State.droopHit_conf {s0 : State} {s : State} (d : Nat) (depth : Nat) (hs : SameConf s0 s) :
    SameConf s0 (State.droopHit s d depth) := by
  unfold State.droopHit
  repeat' with_reducible first
    | assumption | intro _
    | (extract_lets +onlyGivenNames x; clear_value (hx : x = _); first | refine SameConf.bind (s := s0) hx ?_ (fun _ => ?_) | (refine SameConf.isFaults x ?_; subst hx) | skip)
    | apply State.setReg_conf | apply State.abandonSweep_conf | apply State.setFld_conf | apply State.trace_conf | apply State.setDroop_conf
    | apply State.count_conf | apply SameConf.ite | apply SameConf.foldl | (simp only [SameConf.mk_iff]; apply SameConf.parts) | split | dsimp only

theorem execControllerAbsent_conf {s0 : State} (p : Nat) {s : State} (hs : SameConf s0 s) :
    SameConfR s0 (execControllerAbsent p s) := by
  unfold execControllerAbsent
  repeat' with_reducible first
    | assumption | intro _
    | (extract_lets +onlyGivenNames x; clear_value (hx : x = _); first | refine SameConf.bind (s := s0) hx ?_ (fun _ => ?_) | (refine SameConf.isFaults x ?_; subst hx) | skip)
    | apply State.record_conf | apply onUnit_conf | apply SameConfR.next | exact SameConfR.fault | exact SameConfR.refused | apply SameConfR.onUnit | apply SameConfR.ite
    | apply SameConf.ite | apply SameConf.foldl | (simp only [SameConf.mk_iff]; apply SameConf.parts) | split | dsimp only

theorem State.loseCaches_conf {s0 : State} {s : State} (hs : SameConf s0 s) :
    SameConf s0 (State.loseCaches s) := by
  unfold State.loseCaches
  repeat' with_reducible first
    | assumption | intro _
    | (extract_lets +onlyGivenNames x; clear_value (hx : x = _); first | refine SameConf.bind (s := s0) hx ?_ (fun _ => ?_) | (refine SameConf.isFaults x ?_; subst hx) | skip)
    | apply State.dropDirty_conf | apply SameConf.ite | apply SameConf.foldl | (simp only [SameConf.mk_iff]; apply SameConf.parts) | split | dsimp only

theorem State.stopDies_conf {s0 : State} {s : State} (hs : SameConf s0 s) :
    SameConf s0 (State.stopDies s) := by
  unfold State.stopDies
  repeat' with_reducible first
    | assumption | intro _
    | (extract_lets +onlyGivenNames x; clear_value (hx : x = _); first | refine SameConf.bind (s := s0) hx ?_ (fun _ => ?_) | (refine SameConf.isFaults x ?_; subst hx) | skip)
    | apply State.loseCaches_conf | apply State.setFld_conf | apply State.rngInvalidate_conf | apply State.release_conf | apply SameConf.ite
    | apply SameConf.foldl | (simp only [SameConf.mk_iff]; apply SameConf.parts) | split | dsimp only

theorem State.askStep_conf {s0 : State} {s : State} (k : Nat) (mv : Nat) (f : Nat) (up : Bool) (hs : SameConf s0 s) :
    SameConf s0 (State.askStep s k mv f up) := by
  unfold State.askStep
  repeat' with_reducible first
    | assumption | intro _
    | (extract_lets +onlyGivenNames x; clear_value (hx : x = _); first | refine SameConf.bind (s := s0) hx ?_ (fun _ => ?_) | (refine SameConf.isFaults x ?_; subst hx) | skip)
    | apply State.ask_conf | apply State.stepAdvance_conf | apply SameConf.ite | apply SameConf.foldl | (simp only [SameConf.mk_iff]; apply SameConf.parts) | split
    | dsimp only

theorem execDroopVoltageReturn_conf {s0 : State} (k : Nat) {s : State} (hs : SameConf s0 s) :
    SameConfR s0 (execDroopVoltageReturn k s) := by
  unfold execDroopVoltageReturn
  repeat' with_reducible first
    | assumption | intro _
    | (extract_lets +onlyGivenNames x; clear_value (hx : x = _); first | refine SameConf.bind (s := s0) hx ?_ (fun _ => ?_) | (refine SameConf.isFaults x ?_; subst hx) | skip)
    | apply State.askStep_conf | apply onUnit_conf | apply SameConfR.next | exact SameConfR.fault | exact SameConfR.refused | apply SameConfR.onUnit
    | apply SameConfR.ite | apply SameConf.ite | apply SameConf.foldl | (simp only [SameConf.mk_iff]; apply SameConf.parts) | split | dsimp only

theorem State.stepDown_conf {s0 : State} {s : State} (k : Nat) (hs : SameConf s0 s) :
    SameConf s0 (State.stepDown s k) := by
  unfold State.stepDown
  repeat' with_reducible first
    | assumption | intro _
    | (extract_lets +onlyGivenNames x; clear_value (hx : x = _); first | refine SameConf.bind (s := s0) hx ?_ (fun _ => ?_) | (refine SameConf.isFaults x ?_; subst hx) | skip)
    | apply State.rescale_conf | apply State.setFstep_conf | apply State.stepEnd_conf | apply State.stepAdvance_conf | apply SameConf.ite | apply SameConf.foldl
    | (simp only [SameConf.mk_iff]; apply SameConf.parts) | split | dsimp only

theorem State.stepUp_conf {s0 : State} {s : State} (k : Nat) (hs : SameConf s0 s) :
    SameConf s0 (State.stepUp s k) := by
  unfold State.stepUp
  repeat' with_reducible first
    | assumption | intro _ | apply State.askStep_conf | apply SameConf.ite | apply SameConf.foldl | (simp only [SameConf.mk_iff]; apply SameConf.parts) | split
    | dsimp only

theorem execOpportunisticDecision_conf {s0 : State} (k : Nat) {s : State} (hs : SameConf s0 s) :
    SameConfR s0 (execOpportunisticDecision k s) := by
  unfold execOpportunisticDecision
  repeat' with_reducible first
    | assumption | intro _
    | (extract_lets +onlyGivenNames x; clear_value (hx : x = _); first | refine SameConf.bind (s := s0) hx ?_ (fun _ => ?_) | (refine SameConf.isFaults x ?_; subst hx) | skip)
    | apply State.ran_conf | apply onUnit_conf | apply State.stepDown_conf | apply State.stepUp_conf | apply SameConfR.next | exact SameConfR.fault
    | exact SameConfR.refused | apply SameConfR.onUnit | apply SameConfR.ite | apply SameConf.ite | apply SameConf.foldl | (simp only [SameConf.mk_iff]; apply SameConf.parts)
    | split | dsimp only

theorem execCapUpdate_conf {s0 : State} {s : State} (hs : SameConf s0 s) :
    SameConfR s0 (execCapUpdate s) := by
  unfold execCapUpdate
  repeat' with_reducible first
    | assumption | intro _
    | (extract_lets +onlyGivenNames x; clear_value (hx : x = _); first | refine SameConf.bind (s := s0) hx ?_ (fun _ => ?_) | (refine SameConf.isFaults x ?_; subst hx) | skip)
    | apply State.ran_conf | apply SameConfR.next | exact SameConfR.fault | exact SameConfR.refused | apply SameConfR.onUnit | apply SameConfR.ite | apply SameConf.ite
    | apply SameConf.foldl | (simp only [SameConf.mk_iff]; apply SameConf.parts) | split | dsimp only

theorem execRqAckTimeout_conf {s0 : State} (rail : Nat) {s : State} (hs : SameConf s0 s) :
    SameConfR s0 (execRqAckTimeout rail s) := by
  unfold execRqAckTimeout
  repeat' with_reducible first
    | assumption | intro _
    | (extract_lets +onlyGivenNames x; clear_value (hx : x = _); first | refine SameConf.bind (s := s0) hx ?_ (fun _ => ?_) | (refine SameConf.isFaults x ?_; subst hx) | skip)
    | apply State.sendFrame_conf | apply onUnit_conf | apply SameConfR.next | exact SameConfR.fault | exact SameConfR.refused | apply SameConfR.onUnit
    | apply SameConfR.ite | apply SameConf.ite | apply SameConf.foldl | (simp only [SameConf.mk_iff]; apply SameConf.parts) | split | dsimp only

theorem State.powerBeat_conf {s0 : State} {s : State} (hs : SameConf s0 s) :
    SameConf s0 (State.powerBeat s) := by
  unfold State.powerBeat
  repeat' with_reducible first
    | assumption | intro _
    | (extract_lets +onlyGivenNames x; clear_value (hx : x = _); first | refine SameConf.bind (s := s0) hx ?_ (fun _ => ?_) | (refine SameConf.isFaults x ?_; subst hx) | skip)
    | apply State.abandonSweep_conf | apply State.count_conf | apply SameConf.ite | apply SameConf.foldl | (simp only [SameConf.mk_iff]; apply SameConf.parts) | split
    | dsimp only

theorem State.setFlow_conf {s0 : State} {s : State} (v : Nat) (ps : Nat) (hs : SameConf s0 s) :
    SameConf s0 (State.setFlow s v ps) := by
  unfold State.setFlow
  repeat' with_reducible first
    | assumption | intro _
    | (extract_lets +onlyGivenNames x; clear_value (hx : x = _); first | refine SameConf.bind (s := s0) hx ?_ (fun _ => ?_) | (refine SameConf.isFaults x ?_; subst hx) | skip)
    | apply State.setFld_conf | apply State.phase_conf | apply SameConf.ite | apply SameConf.foldl | (simp only [SameConf.mk_iff]; apply SameConf.parts) | split
    | dsimp only

theorem execFlowOkRise_conf {s0 : State} (ps : Nat) {s : State} (hs : SameConf s0 s) :
    SameConfR s0 (execFlowOkRise ps s) := by
  unfold execFlowOkRise
  repeat' with_reducible first
    | assumption | intro _ | apply State.setFlow_conf | apply SameConfR.next | exact SameConfR.fault | exact SameConfR.refused | apply SameConfR.onUnit
    | apply SameConfR.ite | apply SameConf.ite | apply SameConf.foldl | (simp only [SameConf.mk_iff]; apply SameConf.parts) | split | dsimp only

theorem State.droopRise_conf {s0 : State} {s : State} (c : Nat) (hs : SameConf s0 s) :
    SameConf s0 (State.droopRise s c) := by
  unfold State.droopRise
  repeat' with_reducible first
    | assumption | intro _
    | (extract_lets +onlyGivenNames x; clear_value (hx : x = _); first | refine SameConf.bind (s := s0) hx ?_ (fun _ => ?_) | (refine SameConf.isFaults x ?_; subst hx) | skip)
    | apply State.setReg_conf | apply State.setFld_conf | apply State.setDroop_conf | apply State.stepAdvance_conf | apply SameConf.ite | apply SameConf.foldl
    | (simp only [SameConf.mk_iff]; apply SameConf.parts) | split | dsimp only

theorem execDroopHoldExpiry_conf {s0 : State} (c : Nat) (ps : Nat) {s : State} (hs : SameConf s0 s) :
    SameConfR s0 (execDroopHoldExpiry c ps s) := by
  unfold execDroopHoldExpiry
  repeat' with_reducible first
    | assumption | intro _
    | (extract_lets +onlyGivenNames x; clear_value (hx : x = _); first | refine SameConf.bind (s := s0) hx ?_ (fun _ => ?_) | (refine SameConf.isFaults x ?_; subst hx) | skip)
    | apply onUnit_conf | apply State.droopRise_conf | apply State.phase_conf | apply SameConfR.next | exact SameConfR.fault | exact SameConfR.refused
    | apply SameConfR.onUnit | apply SameConfR.ite | apply SameConf.ite | apply SameConf.foldl | (simp only [SameConf.mk_iff]; apply SameConf.parts) | split | dsimp only

theorem execDroop_conf {s0 : State} (d : Nat) (depth : Nat) (ps : Nat) {s : State} (hs : SameConf s0 s) :
    SameConfR s0 (execDroop d depth ps s) := by
  unfold execDroop
  repeat' with_reducible first
    | assumption | intro _
    | (extract_lets +onlyGivenNames x; clear_value (hx : x = _); first | refine SameConf.bind (s := s0) hx ?_ (fun _ => ?_) | (refine SameConf.isFaults x ?_; subst hx) | skip)
    | apply onUnit_conf | apply State.droopHit_conf | apply State.phase_conf | apply SameConfR.next | exact SameConfR.fault | exact SameConfR.refused
    | apply SameConfR.onUnit | apply SameConfR.ite | apply SameConf.ite | apply SameConf.foldl | (simp only [SameConf.mk_iff]; apply SameConf.parts) | split | dsimp only

theorem execFlowStop_conf {s0 : State} (ps : Nat) {s : State} (hs : SameConf s0 s) :
    SameConfR s0 (execFlowStop ps s) := by
  unfold execFlowStop
  repeat' with_reducible first
    | assumption | intro _
    | (extract_lets +onlyGivenNames x; clear_value (hx : x = _); first | refine SameConf.bind (s := s0) hx ?_ (fun _ => ?_) | (refine SameConf.isFaults x ?_; subst hx) | skip)
    | apply State.setFld_conf | apply State.stopDies_conf | apply State.tally_conf | apply State.phase_conf | apply State.release_conf
    | apply State.event_conf | apply SameConfR.next | exact SameConfR.fault | exact SameConfR.refused | apply SameConfR.onUnit | apply SameConfR.ite | apply SameConf.ite
    | apply SameConf.foldl | (simp only [SameConf.mk_iff]; apply SameConf.parts) | split | dsimp only

theorem State.setCap_conf {s0 : State} {s : State} (w : Nat) (hs : SameConf s0 s) :
    SameConf s0 (State.setCap s w) := by
  unfold State.setCap
  repeat' with_reducible first
    | assumption | intro _ | apply State.setFld_conf | apply SameConf.ite | apply SameConf.foldl | (simp only [SameConf.mk_iff]; apply SameConf.parts) | split
    | dsimp only

theorem State.shareRound_conf {s0 : State} {s : State} (crit : Nat) (hs : SameConf s0 s) :
    SameConf s0 (State.shareRound s crit) := by
  unfold State.shareRound
  repeat' with_reducible first
    | assumption | intro _
    | (extract_lets +onlyGivenNames x; clear_value (hx : x = _); first | refine SameConf.bind (s := s0) hx ?_ (fun _ => ?_) | (refine SameConf.isFaults x ?_; subst hx) | skip)
    | apply State.setCap_conf | apply State.queueOn_conf | apply State.count_conf | apply SameConf.ite | apply SameConf.foldl
    | (simp only [SameConf.mk_iff]; apply SameConf.parts) | split | dsimp only

theorem execPowerSharePeriod_conf {s0 : State} {s : State} (hs : SameConf s0 s) :
    SameConfR s0 (execPowerSharePeriod s) := by
  unfold execPowerSharePeriod
  repeat' with_reducible first
    | assumption | intro _
    | (extract_lets +onlyGivenNames x; clear_value (hx : x = _); first | refine SameConf.bind (s := s0) hx ?_ (fun _ => ?_) | (refine SameConf.isFaults x ?_; subst hx) | skip)
    | apply State.shareRound_conf | apply SameConfR.next | exact SameConfR.fault | exact SameConfR.refused | apply SameConfR.onUnit | apply SameConfR.ite
    | apply SameConf.ite | apply SameConf.foldl | (simp only [SameConf.mk_iff]; apply SameConf.parts) | split | dsimp only

theorem execDroopRestoreStep_conf {s0 : State} (c : Nat) (ps : Nat) {s : State} (hs : SameConf s0 s) :
    SameConfR s0 (execDroopRestoreStep c ps s) := by
  unfold execDroopRestoreStep
  repeat' with_reducible first
    | assumption | intro _
    | (extract_lets +onlyGivenNames x; clear_value (hx : x = _); first | refine SameConf.bind (s := s0) hx ?_ (fun _ => ?_) | (refine SameConf.isFaults x ?_; subst hx) | skip)
    | apply onUnit_conf | apply State.droopRise_conf | apply State.phase_conf | apply SameConfR.next | exact SameConfR.fault | exact SameConfR.refused
    | apply SameConfR.onUnit | apply SameConfR.ite | apply SameConf.ite | apply SameConf.foldl | (simp only [SameConf.mk_iff]; apply SameConf.parts) | split | dsimp only

theorem execFlowOkFall_conf {s0 : State} (ps : Nat) {s : State} (hs : SameConf s0 s) :
    SameConfR s0 (execFlowOkFall ps s) := by
  unfold execFlowOkFall
  repeat' with_reducible first
    | assumption | intro _ | apply State.setFlow_conf | apply SameConfR.next | exact SameConfR.fault | exact SameConfR.refused | apply SameConfR.onUnit
    | apply SameConfR.ite | apply SameConf.ite | apply SameConf.foldl | (simp only [SameConf.mk_iff]; apply SameConf.parts) | split | dsimp only

theorem execRqAck_conf {s0 : State} (rail : Nat) {s : State} (hs : SameConf s0 s) :
    SameConfR s0 (execRqAck rail s) := by
  unfold execRqAck
  repeat' with_reducible first
    | assumption | intro _
    | (extract_lets +onlyGivenNames x; clear_value (hx : x = _); first | refine SameConf.bind (s := s0) hx ?_ (fun _ => ?_) | (refine SameConf.isFaults x ?_; subst hx) | skip)
    | apply onUnit_conf | apply State.stepEnd_conf | apply State.stepAdvance_conf | apply SameConfR.next | exact SameConfR.fault | exact SameConfR.refused
    | apply SameConfR.onUnit | apply SameConfR.ite | apply SameConf.ite | apply SameConf.foldl | (simp only [SameConf.mk_iff]; apply SameConf.parts) | split | dsimp only

theorem execDroopStorm_conf {s0 : State} (k : Nat) {s : State} (hs : SameConf s0 s) :
    SameConfR s0 (execDroopStorm k s) := by
  unfold execDroopStorm
  repeat' with_reducible first
    | assumption | intro _
    | (extract_lets +onlyGivenNames x; clear_value (hx : x = _); first | refine SameConf.bind (s := s0) hx ?_ (fun _ => ?_) | (refine SameConf.isFaults x ?_; subst hx) | skip)
    | apply State.askStep_conf | apply onUnit_conf | apply State.event_conf | apply SameConfR.next | exact SameConfR.fault | exact SameConfR.refused
    | apply SameConfR.onUnit | apply SameConfR.ite | apply SameConf.ite | apply SameConf.foldl | (simp only [SameConf.mk_iff]; apply SameConf.parts) | split | dsimp only

theorem execCritStep_conf {s0 : State} (k : Nat) {s : State} (hs : SameConf s0 s) :
    SameConfR s0 (execCritStep k s) := by
  unfold execCritStep
  repeat' with_reducible first
    | assumption | intro _
    | (extract_lets +onlyGivenNames x; clear_value (hx : x = _); first | refine SameConf.bind (s := s0) hx ?_ (fun _ => ?_) | (refine SameConf.isFaults x ?_; subst hx) | (refine SameConf.isFun x ?_; subst hx) | skip)
    | apply State.ran_conf | apply onUnit_conf | apply State.stepDown_conf | apply State.stepUp_conf | apply SameConfR.next | exact SameConfR.fault
    | exact SameConfR.refused | apply SameConfR.onUnit | apply SameConfR.ite | apply SameConf.ite | apply SameConf.foldl | (simp only [SameConf.mk_iff]; apply SameConf.parts)
    | split | dsimp only

theorem State.powerMessage_conf {s0 : State} {s : State} (m : FabMsg) (hs : SameConf s0 s) :
    SameConf s0 (State.powerMessage s m) := by
  unfold State.powerMessage
  repeat' with_reducible first
    | assumption | intro _
    | (extract_lets +onlyGivenNames x; clear_value (hx : x = _); first | refine SameConf.bind (s := s0) hx ?_ (fun _ => ?_) | (refine SameConf.isFaults x ?_; subst hx) | skip)
    | apply State.setCap_conf | apply State.count_conf | apply SameConf.ite | apply SameConf.foldl | (simp only [SameConf.mk_iff]; apply SameConf.parts) | split
    | dsimp only

theorem execPower_conf {s0 : State} (k : Nat) {s : State} (hs : SameConf s0 s) :
    SameConfR s0 (execPower k s) := by
  unfold execPower
  repeat' with_reducible first
    | assumption | intro _ | apply State.powerMessage_conf | apply State.onMsg_conf | apply SameConfR.next | exact SameConfR.fault | exact SameConfR.refused
    | apply SameConfR.onUnit | apply SameConfR.ite | apply SameConf.ite | apply SameConf.foldl | (simp only [SameConf.mk_iff]; apply SameConf.parts) | split | dsimp only

end Sys2Proof.Machine
end

