-- ==== Sys2Proof/Laws/SameConfJournal.lean ====
section
/-!
SUPPORT. What the operations of Machine/Journal.lean leave alone (Laws/SameConf.lean).
-/

set_option linter.all false

namespace Sys2Proof.Machine

theorem State.putHeader_conf {s0 : State} {s : State} (region : Nat) (gen : Nat) (first : Nat) (st : Nat) (hs : SameConf s0 s) :
    SameConf s0 (State.putHeader s region gen first st) := by
  unfold State.putHeader
  repeat' with_reducible first
    | assumption | intro _ | apply State.storeWrite_conf | apply SameConf.ite | apply SameConf.foldl | (simp only [SameConf.mk_iff]; apply SameConf.parts) | split
    | dsimp only

theorem State.putRec_conf {s0 : State} {s : State} (r : JRec) (flags : Nat) (batchLen : Nat) (hs : SameConf s0 s) :
    SameConf s0 (State.putRec s r flags batchLen) := by
  unfold State.putRec
  repeat' with_reducible first
    | assumption | intro _
    | (extract_lets +onlyGivenNames x; clear_value (hx : x = _); first | refine SameConf.bind (s := s0) hx ?_ (fun _ => ?_) | (refine SameConf.isFaults x ?_; subst hx) | skip)
    | apply State.storeWrite_conf | apply SameConf.ite | apply SameConf.foldl | (simp only [SameConf.mk_iff]; apply SameConf.parts) | split | dsimp only

theorem State.putBatch_conf {s0 : State} {s : State} (n : Nat) (x3 : Nat) (x4 : List Nat) (x5 : List JRec) (hs : SameConf s0 s) :
    SameConf s0 (State.putBatch s n x3 x4 x5).1 := by
  induction x5 generalizing s n x3 x4 with
  | nil =>
    unfold State.putBatch
    repeat' with_reducible first
      | assumption | intro _ | apply State.putRec_conf | apply SameConf.ite | apply SameConf.foldl | (simp only [SameConf.mk_iff]; apply SameConf.parts)
      | apply SameConf.iteFst | apply SameConf.iteSnd | refine SameConf.fstEq (by assumption) ?_ | split | dsimp only
  | cons y ys ih =>
    unfold State.putBatch
    repeat' with_reducible first
      | assumption | intro _ | apply State.putRec_conf | apply ih | apply SameConf.ite | apply SameConf.foldl | (simp only [SameConf.mk_iff]; apply SameConf.parts)
      | apply SameConf.iteFst | apply SameConf.iteSnd | refine SameConf.fstEq (by assumption) ?_ | split | dsimp only

theorem State.storeKick_conf {s0 : State} {s : State} (hs : SameConf s0 s) :
    SameConf s0 (State.storeKick s) := by
  unfold State.storeKick
  repeat' with_reducible first
    | assumption | intro _
    | (extract_lets +onlyGivenNames x; clear_value (hx : x = _); first | refine SameConf.bind (s := s0) hx ?_ (fun _ => ?_) | (refine SameConf.isFaults x ?_; subst hx) | skip)
    | apply State.askSys_conf | apply SameConf.ite | apply SameConf.foldl | (simp only [SameConf.mk_iff]; apply SameConf.parts) | split | dsimp only

theorem State.copyBatch_conf {s0 : State} {s : State} (hs : SameConf s0 s) :
    SameConf s0 (State.copyBatch s) := by
  unfold State.copyBatch
  repeat' with_reducible first
    | assumption | intro _
    | (extract_lets +onlyGivenNames x; clear_value (hx : x = _); first | refine SameConf.bind (s := s0) hx ?_ (fun _ => ?_) | refine SameConf.bindFst (s := s0) hx ?_ (fun _ => ?_) | (refine SameConf.isFaults x ?_; subst hx) | skip)
    | apply State.putHeader_conf | apply State.putBatch_conf | apply State.putRec_conf | apply State.storeKick_conf | apply SameConf.ite | apply SameConf.foldl
    | (simp only [SameConf.mk_iff]; apply SameConf.parts) | apply SameConf.iteFst | apply SameConf.iteSnd | refine SameConf.fstEq (by assumption) ?_ | split | dsimp only

theorem execCompactionCopy_conf {s0 : State} {s : State} (hs : SameConf s0 s) :
    SameConfR s0 (execCompactionCopy s) := by
  unfold execCompactionCopy
  repeat' with_reducible first
    | assumption | intro _
    | (extract_lets +onlyGivenNames x; clear_value (hx : x = _); first | refine SameConf.bind (s := s0) hx ?_ (fun _ => ?_) | (refine SameConf.isFaults x ?_; subst hx) | skip)
    | apply State.askSys_conf | apply State.copyBatch_conf | apply SameConfR.next | exact SameConfR.fault | exact SameConfR.refused | apply SameConfR.onUnit
    | apply SameConfR.ite | apply SameConf.ite | apply SameConf.foldl | (simp only [SameConf.mk_iff]; apply SameConf.parts) | split | dsimp only

theorem State.switchRegion_conf {s0 : State} {s : State} (hs : SameConf s0 s) :
    SameConf s0 (State.switchRegion s) := by
  unfold State.switchRegion
  repeat' with_reducible first
    | assumption | intro _
    | (extract_lets +onlyGivenNames x; clear_value (hx : x = _); first | refine SameConf.bind (s := s0) hx ?_ (fun _ => ?_) | (refine SameConf.isFaults x ?_; subst hx) | skip)
    | apply State.putHeader_conf | apply SameConf.ite | apply SameConf.foldl | (simp only [SameConf.mk_iff]; apply SameConf.parts) | split | dsimp only

theorem State.persist_conf {s0 : State} {s : State} (b : OdBatch) (hs : SameConf s0 s) :
    SameConf s0 (State.persist s b) := by
  unfold State.persist
  repeat' with_reducible first
    | assumption | intro _
    | (extract_lets +onlyGivenNames x; clear_value (hx : x = _); first | refine SameConf.bind (s := s0) hx ?_ (fun _ => ?_) | (refine SameConf.isFaults x ?_; subst hx) | skip)
    | apply State.storeKick_conf | apply SameConf.ite | apply SameConf.foldl | (simp only [SameConf.mk_iff]; apply SameConf.parts) | split | dsimp only

end Sys2Proof.Machine
end

