-- ==== Sys2Proof/Laws/SameConfOd.lean ====
section
/-!
SUPPORT. What the operations of Machine/Od.lean leave alone (Laws/SameConf.lean).
-/

set_option linter.all false

namespace Sys2Proof.Machine

theorem State.odServe_conf {s0 : State} {s : State} (tr : Nat) (pick : OdRequest → Bool) (k : OdRequest → State) (hs : SameConf s0 s) (hk : ∀ y0, SameConf s0 (k y0)) :
    SameConfR s0 (State.odServe s tr pick k) := by
  unfold State.odServe
  repeat' with_reducible first
    | assumption | intro _ | apply onUnit_conf | apply hk | apply SameConfR.next | exact SameConfR.fault | exact SameConfR.refused | apply SameConfR.onUnit
    | apply SameConfR.ite | apply SameConf.ite | apply SameConf.foldl | (simp only [SameConf.mk_iff]; apply SameConf.parts) | split | dsimp only

theorem State.canResult_conf {s0 : State} {s : State} (dst : Nat) (tid : Nat) (d : List Byte) (hs : SameConf s0 s) :
    SameConf s0 (State.canResult s dst tid d) := by
  unfold State.canResult
  repeat' with_reducible first
    | assumption | intro _ | apply State.send_conf | apply SameConf.ite | apply SameConf.foldl | (simp only [SameConf.mk_iff]; apply SameConf.parts) | split
    | dsimp only

theorem State.odAnswer_conf {s0 : State} {s : State} (r : OdRequest) (code : Nat) (value : List Byte) (hs : SameConf s0 s) :
    SameConf s0 (State.odAnswer s r code value) := by
  unfold State.odAnswer
  repeat' with_reducible first
    | assumption | intro _
    | (extract_lets +onlyGivenNames x; clear_value (hx : x = _); first | refine SameConf.bind (s := s0) hx ?_ (fun _ => ?_) | (refine SameConf.isFaults x ?_; subst hx) | skip)
    | apply State.setFld_conf | apply State.canResult_conf | apply State.raiseVector_conf | apply State.send_conf | apply SameConf.ite | apply SameConf.foldl
    | (simp only [SameConf.mk_iff]; apply SameConf.parts) | split | dsimp only

theorem State.odEnd_conf {s0 : State} {s : State} (r : OdRequest) (code : Nat) (value : List Byte) (hs : SameConf s0 s) :
    SameConf s0 (State.odEnd s r code value) := by
  unfold State.odEnd
  repeat' with_reducible first
    | assumption | intro _
    | (extract_lets +onlyGivenNames x; clear_value (hx : x = _); first | refine SameConf.bind (s := s0) hx ?_ (fun _ => ?_) | (refine SameConf.isFaults x ?_; subst hx) | skip)
    | apply State.odAnswer_conf | apply SameConf.ite | apply SameConf.foldl | (simp only [SameConf.mk_iff]; apply SameConf.parts) | split | dsimp only

theorem State.odAction_conf {s0 : State} {s : State} (tr : Nat) (pick : Nat → Nat → Bool) (k : OdRequest → Nat → State) (hs : SameConf s0 s) (hk : ∀ y0 y1, SameConf s0 (k y0 y1)) :
    SameConfR s0 (State.odAction s tr pick k) := by
  unfold State.odAction
  repeat' with_reducible first
    | assumption | intro _ | apply State.odServe_conf | apply State.odEnd_conf | apply hk | apply SameConfR.next | exact SameConfR.fault | exact SameConfR.refused
    | apply SameConfR.onUnit | apply SameConfR.ite | apply SameConf.ite | apply SameConf.foldl | (simp only [SameConf.mk_iff]; apply SameConf.parts) | split | dsimp only

theorem State.canMore_conf {s0 : State} {s : State} (x : CanOut) (x3 : Nat) (hs : SameConf s0 s) :
    SameConf s0 (State.canMore s x x3) := by
  induction x3 generalizing s x with
  | zero =>
    unfold State.canMore
    repeat' with_reducible first
      | assumption | intro _ | apply State.canResult_conf | apply SameConf.ite | apply SameConf.foldl | (simp only [SameConf.mk_iff]; apply SameConf.parts)
      | split | dsimp only
  | succ m ih =>
    unfold State.canMore
    repeat' with_reducible first
      | assumption | intro _ | apply State.canResult_conf | apply ih | apply SameConf.ite | apply SameConf.foldl | (simp only [SameConf.mk_iff]; apply SameConf.parts)
      | split | dsimp only

theorem State.batchWrite_conf {s0 : State} {s : State} (b : OdBatch) (fails : List Nat) (hs : SameConf s0 s) :
    SameConf s0 (State.batchWrite s b fails).1 := by
  unfold State.batchWrite
  repeat' with_reducible first
    | assumption | intro _
    | (extract_lets +onlyGivenNames x; clear_value (hx : x = _); first | refine SameConf.bind (s := s0) hx ?_ (fun _ => ?_) | refine SameConf.bindFst (s := s0) hx ?_ (fun _ => ?_) | (refine SameConf.isFaults x ?_; subst hx) | skip)
    | apply State.putBatch_conf | apply State.switchRegion_conf | apply SameConf.ite | apply SameConf.foldl | (simp only [SameConf.mk_iff]; apply SameConf.parts)
    | apply SameConf.iteFst | apply SameConf.iteSnd | refine SameConf.fstEq (by assumption) ?_ | split | dsimp only

theorem State.layoutRun_conf {s0 : State} {s : State} (f : Nat) (first : Nat) (count : Nat) (tier : Nat) (hs : SameConf s0 s) :
    SameConf s0 (State.layoutRun s f first count tier) := by
  unfold State.layoutRun
  repeat' with_reducible first
    | assumption | intro _
    | (extract_lets +onlyGivenNames x; clear_value (hx : x = _); first | refine SameConf.bind (s := s0) hx ?_ (fun _ => ?_) | (refine SameConf.isFaults x ?_; subst hx) | skip)
    | apply State.assignGranule_conf | apply SameConf.ite | apply SameConf.foldl | (simp only [SameConf.mk_iff]; apply SameConf.parts) | split | dsimp only

theorem State.layoutRuns_conf {s0 : State} {s : State} (f : Nat) (hs : SameConf s0 s) :
    SameConf s0 (State.layoutRuns s f) := by
  unfold State.layoutRuns
  repeat' with_reducible first
    | assumption | intro _
    | (extract_lets +onlyGivenNames x; clear_value (hx : x = _); first | refine SameConf.bind (s := s0) hx ?_ (fun _ => ?_) | (refine SameConf.isFaults x ?_; subst hx) | skip)
    | apply State.layoutRun_conf | apply SameConf.ite | apply SameConf.foldl | (simp only [SameConf.mk_iff]; apply SameConf.parts) | split | dsimp only

theorem State.layoutEnable_conf {s0 : State} {s : State} (f : Nat) (hs : SameConf s0 s) :
    SameConf s0 (State.layoutEnable s f) := by
  unfold State.layoutEnable
  repeat' with_reducible first
    | assumption | intro _
    | (extract_lets +onlyGivenNames x; clear_value (hx : x = _); first | refine SameConf.bind (s := s0) hx ?_ (fun _ => ?_) | (refine SameConf.isFaults x ?_; subst hx) | skip)
    | apply State.cfgErr_conf | apply State.setEnabled_conf | apply SameConf.ite | apply SameConf.foldl | (simp only [SameConf.mk_iff]; apply SameConf.parts) | split
    | dsimp only

theorem State.layoutEntry_conf {s0 : State} {s : State} (f : Nat) (hs : SameConf s0 s) :
    SameConf s0 (State.layoutEntry s f) := by
  unfold State.layoutEntry
  repeat' with_reducible first
    | assumption | intro _
    | (extract_lets +onlyGivenNames x; clear_value (hx : x = _); first | refine SameConf.bind (s := s0) hx ?_ (fun _ => ?_) | (refine SameConf.isFaults x ?_; subst hx) | skip)
    | apply State.setReg_conf | apply State.setFld_conf | apply State.countCores_conf | apply SameConf.ite | apply SameConf.foldl
    | (simp only [SameConf.mk_iff]; apply SameConf.parts) | split | dsimp only

theorem State.layoutApply_conf {s0 : State} {s : State} (hs : SameConf s0 s) :
    SameConf s0 (State.layoutApply s) := by
  unfold State.layoutApply
  repeat' with_reducible first
    | assumption | intro _
    | (extract_lets +onlyGivenNames x; clear_value (hx : x = _); first | refine SameConf.bind (s := s0) hx ?_ (fun _ => ?_) | (refine SameConf.isFaults x ?_; subst hx) | skip)
    | apply State.layoutRuns_conf | apply State.giveGranule_conf | apply State.layoutEnable_conf | apply State.setEnabled_conf
    | apply State.refreshHeads_conf | apply State.layoutEntry_conf | apply SameConf.ite | apply SameConf.foldl | (simp only [SameConf.mk_iff]; apply SameConf.parts)
    | split | dsimp only

theorem execDefaults_conf {s0 : State} (tr : Nat) {s : State} (hs : SameConf s0 s) :
    SameConfR s0 (execDefaults tr s) := by
  unfold execDefaults
  repeat' with_reducible first
    | assumption | intro _
    | (extract_lets +onlyGivenNames x; clear_value (hx : x = _); first | refine SameConf.bind (s := s0) hx ?_ (fun _ => ?_) | (refine SameConf.isFaults x ?_; subst hx) | skip)
    | apply State.odEnd_conf | apply State.odAction_conf | apply State.persist_conf | apply SameConfR.next | exact SameConfR.fault | exact SameConfR.refused
    | apply SameConfR.onUnit | apply SameConfR.ite | apply SameConf.ite | apply SameConf.foldl | (simp only [SameConf.mk_iff]; apply SameConf.parts) | split | dsimp only

theorem State.odArrive_conf {s0 : State} {s : State} (r : OdRequest) (hs : SameConf s0 s) :
    SameConf s0 (State.odArrive s r) := by
  unfold State.odArrive
  repeat' with_reducible first
    | assumption | intro _
    | (extract_lets +onlyGivenNames x; clear_value (hx : x = _); first | refine SameConf.bind (s := s0) hx ?_ (fun _ => ?_) | (refine SameConf.isFaults x ?_; subst hx) | skip)
    | apply State.odAnswer_conf | apply SameConf.ite | apply SameConf.foldl | (simp only [SameConf.mk_iff]; apply SameConf.parts) | split | dsimp only

theorem execMctpOdRequest_conf {s0 : State} (i3c : Bool) (src : Nat) (tag : Nat) (body : List Byte) {s : State} (hs : SameConf s0 s) :
    SameConfR s0 (execMctpOdRequest i3c src tag body s) := by
  unfold execMctpOdRequest
  repeat' with_reducible first
    | assumption | intro _
    | (extract_lets +onlyGivenNames x; clear_value (hx : x = _); first | refine SameConf.bind (s := s0) hx ?_ (fun _ => ?_) | (refine SameConf.isFaults x ?_; subst hx) | skip)
    | apply State.odArrive_conf | apply SameConfR.next | exact SameConfR.fault | exact SameConfR.refused | apply SameConfR.onUnit | apply SameConfR.ite | apply SameConf.ite
    | apply SameConf.foldl | (simp only [SameConf.mk_iff]; apply SameConf.parts) | split | dsimp only

theorem State.newContract_conf {s0 : State} {s : State} (cause : Nat) (hs : SameConf s0 s) :
    SameConf s0 (State.newContract s cause) := by
  unfold State.newContract
  repeat' with_reducible first
    | assumption | intro _
    | (extract_lets +onlyGivenNames x; clear_value (hx : x = _); first | refine SameConf.bind (s := s0) hx ?_ (fun _ => ?_) | (refine SameConf.isFaults x ?_; subst hx) | skip)
    | apply State.setReg_conf | apply State.event_conf | apply SameConf.ite | apply SameConf.foldl | (simp only [SameConf.mk_iff]; apply SameConf.parts) | split
    | dsimp only

theorem execTokenRefill_conf {s0 : State} {s : State} (hs : SameConf s0 s) :
    SameConfR s0 (execTokenRefill s) := by
  unfold execTokenRefill
  repeat' with_reducible first
    | assumption | intro _
    | (extract_lets +onlyGivenNames x; clear_value (hx : x = _); first | refine SameConf.bind (s := s0) hx ?_ (fun _ => ?_) | (refine SameConf.isFaults x ?_; subst hx) | skip)
    | apply SameConfR.next | exact SameConfR.fault | exact SameConfR.refused | apply SameConfR.onUnit | apply SameConfR.ite | apply SameConf.ite | apply SameConf.foldl
    | (simp only [SameConf.mk_iff]; apply SameConf.parts) | split | dsimp only

theorem State.odPersist_conf {s0 : State} {s : State} (r : OdRequest) (entries : List (Nat × Nat × Option (List Byte))) (staged : List (Nat × List Byte)) (hs : SameConf s0 s) :
    SameConf s0 (State.odPersist s r entries staged) := by
  unfold State.odPersist
  repeat' with_reducible first
    | assumption | intro _
    | (extract_lets +onlyGivenNames x; clear_value (hx : x = _); first | refine SameConf.bind (s := s0) hx ?_ (fun _ => ?_) | (refine SameConf.isFaults x ?_; subst hx) | skip)
    | apply State.odEnd_conf | apply State.persist_conf | apply SameConf.ite | apply SameConf.foldl | (simp only [SameConf.mk_iff]; apply SameConf.parts) | split
    | dsimp only

theorem execOdCommit_conf {s0 : State} (tr : Nat) {s : State} (hs : SameConf s0 s) :
    SameConfR s0 (execOdCommit tr s) := by
  unfold execOdCommit
  repeat' with_reducible first
    | assumption | intro _
    | (extract_lets +onlyGivenNames x; clear_value (hx : x = _); first | refine SameConf.bind (s := s0) hx ?_ (fun _ => ?_) | (refine SameConf.isFaults x ?_; subst hx) | skip)
    | apply State.odPersist_conf | apply State.odEnd_conf | apply State.odAction_conf | apply SameConfR.next | exact SameConfR.fault | exact SameConfR.refused
    | apply SameConfR.onUnit | apply SameConfR.ite | apply SameConf.ite | apply SameConf.foldl | (simp only [SameConf.mk_iff]; apply SameConf.parts) | split | dsimp only

theorem execFirst_conf {s0 : State} (id : Nat) (data : List Byte) {s : State} (hs : SameConf s0 s) :
    SameConfR s0 (execFirst id data s) := by
  unfold execFirst
  repeat' with_reducible first
    | assumption | intro _
    | (extract_lets +onlyGivenNames x; clear_value (hx : x = _); first | refine SameConf.bind (s := s0) hx ?_ (fun _ => ?_) | (refine SameConf.isFaults x ?_; subst hx) | skip)
    | apply State.odAnswer_conf | apply State.canResult_conf | apply SameConfR.next | exact SameConfR.fault | exact SameConfR.refused | apply SameConfR.onUnit
    | apply SameConfR.ite | apply SameConf.ite | apply SameConf.foldl | (simp only [SameConf.mk_iff]; apply SameConf.parts) | split | dsimp only

theorem execSpdmOverMctp_conf {s0 : State} (i3c : Bool) (src : Nat) (body : List Byte) {s : State} (hs : SameConf s0 s) :
    SameConfR s0 (execSpdmOverMctp i3c src body s) := by
  unfold execSpdmOverMctp
  repeat' with_reducible first
    | assumption | intro _
    | (extract_lets +onlyGivenNames x; clear_value (hx : x = _); first | refine SameConf.bind (s := s0) hx ?_ (fun _ => ?_) | (refine SameConf.isFaults x ?_; subst hx) | skip)
    | apply State.send_conf | apply SameConfR.next | exact SameConfR.fault | exact SameConfR.refused | apply SameConfR.onUnit | apply SameConfR.ite | apply SameConf.ite
    | apply SameConf.foldl | (simp only [SameConf.mk_iff]; apply SameConf.parts) | split | dsimp only

theorem execFlow_conf {s0 : State} (id : Nat) (data : List Byte) {s : State} (hs : SameConf s0 s) :
    SameConfR s0 (execFlow id data s) := by
  unfold execFlow
  repeat' with_reducible first
    | assumption | intro _
    | (extract_lets +onlyGivenNames x; clear_value (hx : x = _); first | refine SameConf.bind (s := s0) hx ?_ (fun _ => ?_) | (refine SameConf.isFaults x ?_; subst hx) | skip)
    | apply State.canMore_conf | apply SameConfR.next | exact SameConfR.fault | exact SameConfR.refused | apply SameConfR.onUnit | apply SameConfR.ite | apply SameConf.ite
    | apply SameConf.foldl | (simp only [SameConf.mk_iff]; apply SameConf.parts) | split | dsimp only

theorem execGo_conf {s0 : State} (val : Nat) {s : State} (hs : SameConf s0 s) :
    SameConfR s0 (execGo val s) := by
  unfold execGo
  repeat' with_reducible first
    | assumption | intro _
    | (extract_lets +onlyGivenNames x; clear_value (hx : x = _); first | refine SameConf.bind (s := s0) hx ?_ (fun _ => ?_) | (refine SameConf.isFaults x ?_; subst hx) | skip)
    | apply State.setReg_conf | apply State.setFld_conf | apply State.odArrive_conf | apply SameConfR.next | exact SameConfR.fault | exact SameConfR.refused
    | apply SameConfR.onUnit | apply SameConfR.ite | apply SameConf.ite | apply SameConf.foldl | (simp only [SameConf.mk_iff]; apply SameConf.parts) | split | dsimp only

theorem State.mctpReply_conf {s0 : State} {s : State} (tr : Nat) (cmd : Nat) (d : List Byte) (hs : SameConf s0 s) :
    SameConf s0 (State.mctpReply s tr cmd d).1 := by
  unfold State.mctpReply
  repeat' with_reducible first
    | assumption | intro _
    | (extract_lets +onlyGivenNames x; clear_value (hx : x = _); first | refine SameConf.bind (s := s0) hx ?_ (fun _ => ?_) | refine SameConf.bindFst (s := s0) hx ?_ (fun _ => ?_) | (refine SameConf.isFaults x ?_; subst hx) | skip)
    | apply SameConf.ite | apply SameConf.foldl | (simp only [SameConf.mk_iff]; apply SameConf.parts) | apply SameConf.iteFst | apply SameConf.iteSnd
    | refine SameConf.fstEq (by assumption) ?_ | split | dsimp only

theorem execMctpControl_conf {s0 : State} (i3c : Bool) (src : Nat) (body : List Byte) {s : State} (hs : SameConf s0 s) :
    SameConfR s0 (execMctpControl i3c src body s) := by
  unfold execMctpControl
  repeat' with_reducible first
    | assumption | intro _ | apply State.send_conf | apply State.mctpReply_conf | apply SameConfR.next | exact SameConfR.fault | exact SameConfR.refused
    | apply SameConfR.onUnit | apply SameConfR.ite | apply SameConf.ite | apply SameConf.foldl | (simp only [SameConf.mk_iff]; apply SameConf.parts) | apply SameConf.iteFst
    | apply SameConf.iteSnd | refine SameConf.fstEq (by assumption) ?_ | split | dsimp only

theorem State.canStop_conf {s0 : State} {s : State} (x : CanIn) (hs : SameConf s0 s) :
    SameConf s0 (State.canStop s x) := by
  unfold State.canStop
  repeat' with_reducible first
    | assumption | intro _
    | (extract_lets +onlyGivenNames x; clear_value (hx : x = _); first | refine SameConf.bind (s := s0) hx ?_ (fun _ => ?_) | (refine SameConf.isFaults x ?_; subst hx) | skip)
    | apply State.odAnswer_conf | apply SameConf.ite | apply SameConf.foldl | (simp only [SameConf.mk_iff]; apply SameConf.parts) | split | dsimp only

theorem execConsec_conf {s0 : State} (id : Nat) (data : List Byte) {s : State} (hs : SameConf s0 s) :
    SameConfR s0 (execConsec id data s) := by
  unfold execConsec
  repeat' with_reducible first
    | assumption | intro _
    | (extract_lets +onlyGivenNames x; clear_value (hx : x = _); first | refine SameConf.bind (s := s0) hx ?_ (fun _ => ?_) | (refine SameConf.isFaults x ?_; subst hx) | skip)
    | apply State.odArrive_conf | apply State.canStop_conf | apply SameConfR.next | exact SameConfR.fault | exact SameConfR.refused | apply SameConfR.onUnit
    | apply SameConfR.ite | apply SameConf.ite | apply SameConf.foldl | (simp only [SameConf.mk_iff]; apply SameConf.parts) | split | dsimp only

theorem execOdRead_conf {s0 : State} (tr : Nat) {s : State} (hs : SameConf s0 s) :
    SameConfR s0 (execOdRead tr s) := by
  unfold execOdRead
  repeat' with_reducible first
    | assumption | intro _ | apply State.odServe_conf | apply State.odEnd_conf | apply SameConfR.next | exact SameConfR.fault | exact SameConfR.refused
    | apply SameConfR.onUnit | apply SameConfR.ite | apply SameConf.ite | apply SameConf.foldl | (simp only [SameConf.mk_iff]; apply SameConf.parts) | split | dsimp only

theorem execSingle_conf {s0 : State} (id : Nat) (data : List Byte) {s : State} (hs : SameConf s0 s) :
    SameConfR s0 (execSingle id data s) := by
  unfold execSingle
  repeat' with_reducible first
    | assumption | intro _ | apply State.odArrive_conf | apply SameConfR.next | exact SameConfR.fault | exact SameConfR.refused | apply SameConfR.onUnit
    | apply SameConfR.ite | apply SameConf.ite | apply SameConf.foldl | (simp only [SameConf.mk_iff]; apply SameConf.parts) | split | dsimp only

theorem State.linksByEnable_conf {s0 : State} {s : State} (hs : SameConf s0 s) :
    SameConf s0 (State.linksByEnable s) := by
  unfold State.linksByEnable
  repeat' with_reducible first
    | assumption | intro _ | apply State.linkAbsent_conf | apply State.linkBook_conf | apply State.release_conf | apply SameConf.ite | apply SameConf.foldl
    | (simp only [SameConf.mk_iff]; apply SameConf.parts) | split | dsimp only

theorem State.odEffect_conf {s0 : State} {s : State} (i : Nat) (b : Nat) (hs : SameConf s0 s) :
    SameConf s0 (State.odEffect s i b) := by
  unfold State.odEffect
  repeat' with_reducible first
    | assumption | intro _
    | (extract_lets +onlyGivenNames x; clear_value (hx : x = _); first | refine SameConf.bind (s := s0) hx ?_ (fun _ => ?_) | (refine SameConf.isFaults x ?_; subst hx) | skip)
    | apply State.setCap_conf | apply State.setFld_conf | apply State.linksByEnable_conf | apply State.event_conf | apply SameConf.ite | apply SameConf.foldl
    | (simp only [SameConf.mk_iff]; apply SameConf.parts) | split | dsimp only

theorem execApplyNow_conf {s0 : State} (tr : Nat) {s : State} (hs : SameConf s0 s) :
    SameConfR s0 (execApplyNow tr s) := by
  unfold execApplyNow
  repeat' with_reducible first
    | assumption | intro _ | apply State.odEnd_conf | apply State.layoutApply_conf | apply State.odAction_conf | apply SameConfR.next | exact SameConfR.fault
    | exact SameConfR.refused | apply SameConfR.onUnit | apply SameConfR.ite | apply SameConf.ite | apply SameConf.foldl | (simp only [SameConf.mk_iff]; apply SameConf.parts)
    | split | dsimp only

theorem execCanTransferTimeout_conf {s0 : State} {s : State} (hs : SameConf s0 s) :
    SameConfR s0 (execCanTransferTimeout s) := by
  unfold execCanTransferTimeout
  repeat' with_reducible first
    | assumption | intro _
    | (extract_lets +onlyGivenNames x; clear_value (hx : x = _); first | refine SameConf.bind (s := s0) hx ?_ (fun _ => ?_) | (refine SameConf.isFaults x ?_; subst hx) | skip)
    | apply State.canStop_conf | apply SameConfR.next | exact SameConfR.fault | exact SameConfR.refused | apply SameConfR.onUnit | apply SameConfR.ite | apply SameConf.ite
    | apply SameConf.foldl | (simp only [SameConf.mk_iff]; apply SameConf.parts) | split | dsimp only

theorem execGetMeasurements_conf {s0 : State} (i3c : Bool) (src : Nat) (body : List Byte) {s : State} (hs : SameConf s0 s) :
    SameConfR s0 (execGetMeasurements i3c src body s) := by
  unfold execGetMeasurements
  repeat' with_reducible first
    | assumption | intro _
    | (extract_lets +onlyGivenNames x; clear_value (hx : x = _); first | refine SameConf.bind (s := s0) hx ?_ (fun _ => ?_) | refine SameConf.bindSnd (s := s0) hx ?_ (fun _ => ?_) | (refine SameConf.isFaults x ?_; subst hx) | skip)
    | apply State.draw_conf | apply State.send_conf | apply SameConfR.next | exact SameConfR.fault | exact SameConfR.refused | apply SameConfR.onUnit
    | apply SameConfR.ite | apply SameConf.ite | apply SameConf.foldl | (simp only [SameConf.mk_iff]; apply SameConf.parts) | apply SameConf.iteFst | apply SameConf.iteSnd
    | refine SameConf.sndEq (by assumption) ?_ | split | dsimp only

theorem State.budgetEvent_conf {s0 : State} {s : State} (before : Nat) (kind : Nat) (mark : Nat) (hs : SameConf s0 s) :
    SameConf s0 (State.budgetEvent s before kind mark) := by
  unfold State.budgetEvent
  repeat' with_reducible first
    | assumption | intro _ | apply State.event_conf | apply SameConf.ite | apply SameConf.foldl | (simp only [SameConf.mk_iff]; apply SameConf.parts) | split
    | dsimp only

end Sys2Proof.Machine
end

