-- ==== Sys2Proof/Laws/SameConfFirmware.lean ====
section
/-!
SUPPORT. What the operations of Machine/Firmware.lean leave alone (Laws/SameConf.lean).
-/

set_option linter.all false

namespace Sys2Proof.Machine

theorem State.backTo_conf {s0 : State} {s : State} (hs : SameConf s0 s) :
    SameConf s0 (State.backTo s) := by
  unfold State.backTo
  repeat' with_reducible first
    | assumption | apply State.authAbandon_conf | apply State.authAgain_conf | intro _
    | (extract_lets +onlyGivenNames x; clear_value (hx : x = _); first | refine SameConf.bind (s := s0) hx ?_ (fun _ => ?_) | (refine SameConf.isFaults x ?_; subst hx) | skip)
    | apply State.runDeferred_conf | apply State.setFld_conf | apply State.traceFlush_conf | apply State.stepAdvance_conf | apply SameConf.ite
    | apply SameConf.foldl | (simp only [SameConf.mk_iff]; apply SameConf.parts) | split | dsimp only

theorem State.fwAction_conf {s0 : State} {s : State} (tr : Nat) (i : Nat) (b : Nat) (stages : List Nat) (k : OdRequest → Nat → State) (hs : SameConf s0 s) (hk : ∀ y0 y1, SameConf s0 (k y0 y1)) :
    SameConfR s0 (State.fwAction s tr i b stages k) := by
  unfold State.fwAction
  repeat' with_reducible first
    | assumption | intro _ | apply State.odEnd_conf | apply State.odAction_conf | apply hk | apply SameConfR.next | exact SameConfR.fault | exact SameConfR.refused
    | apply SameConfR.onUnit | apply SameConfR.ite | apply SameConf.ite | apply SameConf.foldl | (simp only [SameConf.mk_iff]; apply SameConf.parts) | split | dsimp only

theorem State.flashKick_conf {s0 : State} {s : State} (hs : SameConf s0 s) :
    SameConf s0 (State.flashKick s) := by
  unfold State.flashKick
  repeat' with_reducible first
    | assumption | intro _ | apply State.askSys_conf | apply SameConf.ite | apply SameConf.foldl | (simp only [SameConf.mk_iff]; apply SameConf.parts) | split
    | dsimp only

theorem State.fwSet_conf {s0 : State} {s : State} (vals : List (Nat × Nat)) (after : AfterBatch) (hs : SameConf s0 s) :
    SameConf s0 (State.fwSet s vals after) := by
  unfold State.fwSet
  repeat' with_reducible first
    | assumption | intro _ | apply State.persist_conf | apply SameConf.ite | apply SameConf.foldl | (simp only [SameConf.mk_iff]; apply SameConf.parts) | split
    | dsimp only

theorem State.confirm_conf {s0 : State} {s : State} (hs : SameConf s0 s) :
    SameConf s0 (State.confirm s) := by
  unfold State.confirm
  repeat' with_reducible first
    | assumption | intro _
    | (extract_lets +onlyGivenNames x; clear_value (hx : x = _); first | refine SameConf.bind (s := s0) hx ?_ (fun _ => ?_) | (refine SameConf.isFaults x ?_; subst hx) | skip)
    | apply State.fwSet_conf | apply SameConf.ite | apply SameConf.foldl | (simp only [SameConf.mk_iff]; apply SameConf.parts) | split | dsimp only

theorem execAutoConfirm_conf {s0 : State} {s : State} (hs : SameConf s0 s) :
    SameConfR s0 (execAutoConfirm s) := by
  unfold execAutoConfirm
  repeat' with_reducible first
    | assumption | intro _
    | (extract_lets +onlyGivenNames x; clear_value (hx : x = _); first | refine SameConf.bind (s := s0) hx ?_ (fun _ => ?_) | (refine SameConf.isFaults x ?_; subst hx) | skip)
    | apply State.confirm_conf | apply SameConfR.next | exact SameConfR.fault | exact SameConfR.refused | apply SameConfR.onUnit | apply SameConfR.ite | apply SameConf.ite
    | apply SameConf.foldl | (simp only [SameConf.mk_iff]; apply SameConf.parts) | split | dsimp only

theorem State.canEnd_conf {s0 : State} {s : State} (hs : SameConf s0 s) :
    SameConf s0 (State.canEnd s) := by
  unfold State.canEnd
  repeat' with_reducible first
    | assumption | intro _
    | (extract_lets +onlyGivenNames x; clear_value (hx : x = _); first | refine SameConf.bind (s := s0) hx ?_ (fun _ => ?_) | (refine SameConf.isFaults x ?_; subst hx) | skip)
    | apply State.canStop_conf | apply SameConf.ite | apply SameConf.foldl | (simp only [SameConf.mk_iff]; apply SameConf.parts) | split | dsimp only

theorem execQuiesceTimeout_conf {s0 : State} {s : State} (hs : SameConf s0 s) :
    SameConfR s0 (execQuiesceTimeout s) := by
  unfold execQuiesceTimeout
  repeat' with_reducible first
    | assumption | intro _
    | (extract_lets +onlyGivenNames x; clear_value (hx : x = _); first | refine SameConf.bind (s := s0) hx ?_ (fun _ => ?_) | (refine SameConf.isFaults x ?_; subst hx) | skip)
    | apply State.fwSet_conf | apply SameConfR.next | exact SameConfR.fault | exact SameConfR.refused | apply SameConfR.onUnit | apply SameConfR.ite | apply SameConf.ite
    | apply SameConf.foldl | (simp only [SameConf.mk_iff]; apply SameConf.parts) | split | dsimp only

theorem State.fwEvent_conf {s0 : State} {s : State} (kind : Nat) (slot : Nat) (processor : Nat) (hs : SameConf s0 s) :
    SameConf s0 (State.fwEvent s kind slot processor) := by
  unfold State.fwEvent
  repeat' with_reducible first
    | assumption | intro _ | apply State.event_conf | apply SameConf.ite | apply SameConf.foldl | (simp only [SameConf.mk_iff]; apply SameConf.parts) | split
    | dsimp only

theorem execActivate_conf {s0 : State} (tr : Nat) {s : State} (hs : SameConf s0 s) :
    SameConfR s0 (execActivate tr s) := by
  unfold execActivate
  repeat' with_reducible first
    | assumption | intro _
    | (extract_lets +onlyGivenNames x; clear_value (hx : x = _); first | refine SameConf.bind (s := s0) hx ?_ (fun _ => ?_) | (refine SameConf.isFaults x ?_; subst hx) | skip)
    | apply State.fwAction_conf | apply State.odEnd_conf | apply State.fwSet_conf | apply SameConfR.next | exact SameConfR.fault | exact SameConfR.refused
    | apply SameConfR.onUnit | apply SameConfR.ite | apply SameConf.ite | apply SameConf.foldl | (simp only [SameConf.mk_iff]; apply SameConf.parts) | split | dsimp only

theorem execVerify_conf {s0 : State} (tr : Nat) {s : State} (hs : SameConf s0 s) :
    SameConfR s0 (execVerify tr s) := by
  unfold execVerify
  repeat' with_reducible first
    | assumption | intro _ | apply State.fwAction_conf | apply State.odEnd_conf | apply State.fwSet_conf | apply SameConfR.next | exact SameConfR.fault
    | exact SameConfR.refused | apply SameConfR.onUnit | apply SameConfR.ite | apply SameConf.ite | apply SameConf.foldl | (simp only [SameConf.mk_iff]; apply SameConf.parts)
    | split | dsimp only

theorem State.program_conf {s0 : State} {s : State} (o : Nat) (bs : List Byte) (hs : SameConf s0 s) :
    SameConf s0 (State.program s o bs) := by
  unfold State.program
  repeat' with_reducible first
    | assumption | intro _
    | (extract_lets +onlyGivenNames x; clear_value (hx : x = _); first | refine SameConf.bind (s := s0) hx ?_ (fun _ => ?_) | (refine SameConf.isFaults x ?_; subst hx) | skip)
    | apply SameConf.ite | apply SameConf.foldl | (simp only [SameConf.mk_iff]; apply SameConf.parts) | split | dsimp only

theorem State.pageDone_conf {s0 : State} {s : State} (bs : List Byte) (hs : SameConf s0 s) :
    SameConf s0 (State.pageDone s bs) := by
  unfold State.pageDone
  repeat' with_reducible first
    | assumption | intro _
    | (extract_lets +onlyGivenNames x; clear_value (hx : x = _); first | refine SameConf.bind (s := s0) hx ?_ (fun _ => ?_) | (refine SameConf.isFaults x ?_; subst hx) | skip)
    | apply State.flashKick_conf | apply State.fwSet_conf | apply State.release_conf | apply State.program_conf | apply SameConf.ite | apply SameConf.foldl
    | (simp only [SameConf.mk_iff]; apply SameConf.parts) | split | dsimp only

theorem State.downloadEnd_conf {s0 : State} {s : State} (result : List (Nat × Nat)) (hs : SameConf s0 s) :
    SameConf s0 (State.downloadEnd s result) := by
  unfold State.downloadEnd
  repeat' with_reducible first
    | assumption | intro _
    | (extract_lets +onlyGivenNames x; clear_value (hx : x = _); first | refine SameConf.bind (s := s0) hx ?_ (fun _ => ?_) | (refine SameConf.isFaults x ?_; subst hx) | skip)
    | apply State.fwSet_conf | apply State.release_conf | apply SameConf.ite | apply SameConf.foldl | (simp only [SameConf.mk_iff]; apply SameConf.parts) | split
    | dsimp only

theorem State.eraseSector_conf {s0 : State} {s : State} (o : Nat) (hs : SameConf s0 s) :
    SameConf s0 (State.eraseSector s o) := by
  unfold State.eraseSector
  repeat' with_reducible first
    | assumption | intro _ | apply State.program_conf | apply SameConf.ite | apply SameConf.foldl | (simp only [SameConf.mk_iff]; apply SameConf.parts) | split
    | dsimp only

theorem execReject_conf {s0 : State} (tr : Nat) {s : State} (hs : SameConf s0 s) :
    SameConfR s0 (execReject tr s) := by
  unfold execReject
  repeat' with_reducible first
    | assumption | intro _
    | (extract_lets +onlyGivenNames x; clear_value (hx : x = _); first | refine SameConf.bind (s := s0) hx ?_ (fun _ => ?_) | (refine SameConf.isFaults x ?_; subst hx) | skip)
    | apply State.fwAction_conf | apply State.odEnd_conf | apply State.fwSet_conf | apply SameConfR.next | exact SameConfR.fault | exact SameConfR.refused
    | apply SameConfR.onUnit | apply SameConfR.ite | apply SameConf.ite | apply SameConf.foldl | (simp only [SameConf.mk_iff]; apply SameConf.parts) | split | dsimp only

theorem execConfirm_conf {s0 : State} (tr : Nat) {s : State} (hs : SameConf s0 s) :
    SameConfR s0 (execConfirm tr s) := by
  unfold execConfirm
  repeat' with_reducible first
    | assumption | intro _ | apply State.odEnd_conf | apply State.confirm_conf | apply State.odAction_conf | apply SameConfR.next | exact SameConfR.fault
    | exact SameConfR.refused | apply SameConfR.onUnit | apply SameConfR.ite | apply SameConf.ite | apply SameConf.foldl | (simp only [SameConf.mk_iff]; apply SameConf.parts)
    | split | dsimp only

theorem execDlAbort_conf {s0 : State} (tr : Nat) {s : State} (hs : SameConf s0 s) :
    SameConfR s0 (execDlAbort tr s) := by
  unfold execDlAbort
  repeat' with_reducible first
    | assumption | intro _ | apply State.fwAction_conf | apply State.downloadEnd_conf | apply State.odEnd_conf | apply SameConfR.next | exact SameConfR.fault
    | exact SameConfR.refused | apply SameConfR.onUnit | apply SameConfR.ite | apply SameConf.ite | apply SameConf.foldl | (simp only [SameConf.mk_iff]; apply SameConf.parts)
    | split | dsimp only

theorem execVerifyComplete_conf {s0 : State} {s : State} (hs : SameConf s0 s) :
    SameConfR s0 (execVerifyComplete s) := by
  unfold execVerifyComplete
  repeat' with_reducible first
    | assumption | intro _
    | (extract_lets +onlyGivenNames x; clear_value (hx : x = _); first | refine SameConf.bind (s := s0) hx ?_ (fun _ => ?_) | (refine SameConf.isFaults x ?_; subst hx) | skip)
    | apply State.fwSet_conf | apply SameConfR.next | exact SameConfR.fault | exact SameConfR.refused | apply SameConfR.onUnit | apply SameConfR.ite | apply SameConf.ite
    | apply SameConf.foldl | (simp only [SameConf.mk_iff]; apply SameConf.parts) | split | dsimp only

theorem execDlFrom_conf {s0 : State} (tr : Nat) {s : State} (hs : SameConf s0 s) :
    SameConfR s0 (execDlFrom tr s) := by
  unfold execDlFrom
  repeat' with_reducible first
    | assumption | intro _
    | (extract_lets +onlyGivenNames x; clear_value (hx : x = _); first | refine SameConf.bind (s := s0) hx ?_ (fun _ => ?_) | (refine SameConf.isFaults x ?_; subst hx) | skip)
    | apply State.fwAction_conf | apply State.odEnd_conf | apply State.flashKick_conf | apply SameConfR.next | exact SameConfR.fault | exact SameConfR.refused
    | apply SameConfR.onUnit | apply SameConfR.ite | apply SameConf.ite | apply SameConf.foldl | (simp only [SameConf.mk_iff]; apply SameConf.parts) | split | dsimp only

theorem State.rejectBack_conf {s0 : State} {s : State} (hs : SameConf s0 s) :
    SameConf s0 (State.rejectBack s) := by
  unfold State.rejectBack
  repeat' with_reducible first
    | assumption | intro _
    | (extract_lets +onlyGivenNames x; clear_value (hx : x = _); first | refine SameConf.bind (s := s0) hx ?_ (fun _ => ?_) | (refine SameConf.isFaults x ?_; subst hx) | skip)
    | apply SameConf.ite | apply SameConf.foldl | (simp only [SameConf.mk_iff]; apply SameConf.parts) | split | dsimp only

theorem State.securityLost_conf {s0 : State} {s : State} (hs : SameConf s0 s) :
    SameConf s0 (State.securityLost s) := by
  unfold State.securityLost
  repeat' with_reducible first
    | assumption | apply State.authAbandon_conf | apply State.authAgain_conf | intro _
    | (extract_lets +onlyGivenNames x; clear_value (hx : x = _); first | refine SameConf.bind (s := s0) hx ?_ (fun _ => ?_) | (refine SameConf.isFaults x ?_; subst hx) | skip)
    | apply State.downloadEnd_conf | apply SameConf.ite | apply SameConf.foldl | (simp only [SameConf.mk_iff]; apply SameConf.parts) | split | dsimp only

end Sys2Proof.Machine
end

