-- ==== Sys2Proof/Laws/SameConfTiers.lean ====
section
/-!
SUPPORT. What the operations of Machine/Tiers.lean leave alone (Laws/SameConf.lean).
-/

set_option linter.all false

namespace Sys2Proof.Machine

theorem State.partStart_conf {s0 : State} {s : State} (f : Nat) (k : Nat) (apply : Bool) (hs : SameConf s0 s) :
    SameConf s0 (State.partStart s f k apply) := by
  unfold State.partStart
  repeat' with_reducible first
    | assumption | intro _
    | (extract_lets +onlyGivenNames x; clear_value (hx : x = _); first | refine SameConf.bind (s := s0) hx ?_ (fun _ => ?_) | (refine SameConf.isFaults x ?_; subst hx) | skip)
    | apply State.setFld_conf | apply SameConf.ite | apply SameConf.foldl | (simp only [SameConf.mk_iff]; apply SameConf.parts) | split | dsimp only

theorem execFlush_conf {s0 : State} (f : Nat) (k : Nat) {s : State} (hs : SameConf s0 s) :
    SameConfR s0 (execFlush f k s) := by
  unfold execFlush
  repeat' with_reducible first
    | assumption | intro _ | apply onUnit_conf | apply State.partStart_conf | apply SameConfR.next | exact SameConfR.fault | exact SameConfR.refused
    | apply SameConfR.onUnit | apply SameConfR.ite | apply SameConf.ite | apply SameConf.foldl | (simp only [SameConf.mk_iff]; apply SameConf.parts) | split | dsimp only

theorem execErrorCheckAndScrub_conf {s0 : State} (a : Nat) {s : State} (hs : SameConf s0 s) :
    SameConfR s0 (execErrorCheckAndScrub a s) := by
  unfold execErrorCheckAndScrub
  repeat' with_reducible first
    | assumption | intro _ | apply State.record_conf | apply onUnit_conf | apply State.voidBlock_conf | apply State.count_conf | apply SameConfR.next
    | exact SameConfR.fault | exact SameConfR.refused | apply SameConfR.onUnit | apply SameConfR.ite | apply SameConf.ite | apply SameConf.foldl
    | (simp only [SameConf.mk_iff]; apply SameConf.parts) | split | dsimp only

theorem State.retireBank_conf {s0 : State} {s : State} (die : Nat) (bank : Nat) (hs : SameConf s0 s) :
    SameConf s0 (State.retireBank s die bank) := by
  unfold State.retireBank
  repeat' with_reducible first
    | assumption | intro _
    | (extract_lets +onlyGivenNames x; clear_value (hx : x = _); first | refine SameConf.bind (s := s0) hx ?_ (fun _ => ?_) | (refine SameConf.isFaults x ?_; subst hx) | skip)
    | apply State.record_conf | apply State.count_conf | apply State.persist_conf | apply SameConf.ite | apply SameConf.foldl
    | (simp only [SameConf.mk_iff]; apply SameConf.parts) | split | dsimp only

theorem State.fastUncorrectable_conf {s0 : State} {s : State} (die : Nat) (off : Nat) (hs : SameConf s0 s) :
    SameConf s0 (State.fastUncorrectable s die off) := by
  unfold State.fastUncorrectable
  repeat' with_reducible first
    | assumption | intro _
    | (extract_lets +onlyGivenNames x; clear_value (hx : x = _); first | refine SameConf.bind (s := s0) hx ?_ (fun _ => ?_) | (refine SameConf.isFaults x ?_; subst hx) | skip)
    | apply State.record_conf | apply State.voidBlock_conf | apply State.retireBank_conf | apply State.count_conf | apply SameConf.ite | apply SameConf.foldl
    | (simp only [SameConf.mk_iff]; apply SameConf.parts) | split | dsimp only

theorem State.freeBytes_conf {s0 : State} {s : State} (a : Nat) (n : Nat) (hs : SameConf s0 s) :
    SameConf s0 (State.freeBytes s a n) := by
  unfold State.freeBytes
  repeat' with_reducible first
    | assumption | intro _
    | (extract_lets +onlyGivenNames x; clear_value (hx : x = _); first | refine SameConf.bind (s := s0) hx ?_ (fun _ => ?_) | (refine SameConf.isFaults x ?_; subst hx) | skip)
    | apply SameConf.ite | apply SameConf.foldl | (simp only [SameConf.mk_iff]; apply SameConf.parts) | split | dsimp only

theorem State.freeSeals_conf {s0 : State} {s : State} (a : Nat) (n : Nat) (hs : SameConf s0 s) :
    SameConf s0 (State.freeSeals s a n) := by
  unfold State.freeSeals
  repeat' with_reducible first
    | assumption | intro _ | apply State.draw_conf | apply State.setSyndrome_conf | apply SameConf.ite | apply SameConf.foldl
    | (simp only [SameConf.mk_iff]; apply SameConf.parts) | apply SameConf.iteFst | apply SameConf.iteSnd | refine SameConf.sndEq (by assumption) ?_ | split | dsimp only

theorem State.tgDestroy_conf {s0 : State} {s : State} (c : Nat) (hs : SameConf s0 s) :
    SameConf s0 (State.tgDestroy s c) := by
  unfold State.tgDestroy
  repeat' with_reducible first
    | assumption | intro _ | apply State.freeBytes_conf | apply State.freeSeals_conf | apply SameConf.ite | apply SameConf.foldl
    | (simp only [SameConf.mk_iff]; apply SameConf.parts) | split | dsimp only

theorem State.tgMismatch_conf {s0 : State} {s : State} (c : Nat) (m : TgMismatch) (hs : SameConf s0 s) :
    SameConf s0 (State.tgMismatch s c m) := by
  unfold State.tgMismatch
  repeat' with_reducible first
    | assumption | intro _
    | (extract_lets +onlyGivenNames x; clear_value (hx : x = _); first | refine SameConf.bind (s := s0) hx ?_ (fun _ => ?_) | (refine SameConf.isFaults x ?_; subst hx) | skip)
    | apply State.setReg_conf | apply State.setFld_conf | apply SameConf.ite | apply SameConf.foldl | (simp only [SameConf.mk_iff]; apply SameConf.parts) | split
    | dsimp only

theorem execTgDone_conf {s0 : State} (c : Nat) (mism : List TgMismatch) {s : State} (hs : SameConf s0 s) :
    SameConfR s0 (execTgDone c mism s) := by
  unfold execTgDone
  repeat' with_reducible first
    | assumption | intro _
    | (extract_lets +onlyGivenNames x; clear_value (hx : x = _); first | refine SameConf.bind (s := s0) hx ?_ (fun _ => ?_) | (refine SameConf.isFaults x ?_; subst hx) | skip)
    | apply State.tgDestroy_conf | apply State.setFld_conf | apply State.tgMismatch_conf | apply onUnit_conf | apply State.raiseVector_conf
    | apply State.release_conf | apply SameConfR.next | exact SameConfR.fault | exact SameConfR.refused | apply SameConfR.onUnit | apply SameConfR.ite | apply SameConf.ite
    | apply SameConf.foldl | (simp only [SameConf.mk_iff]; apply SameConf.parts) | split | dsimp only

theorem State.fastCorrected_conf {s0 : State} {s : State} (die : Nat) (off : Nat) (hs : SameConf s0 s) :
    SameConf s0 (State.fastCorrected s die off) := by
  unfold State.fastCorrected
  repeat' with_reducible first
    | assumption | intro _
    | (extract_lets +onlyGivenNames x; clear_value (hx : x = _); first | refine SameConf.bind (s := s0) hx ?_ (fun _ => ?_) | (refine SameConf.isFaults x ?_; subst hx) | skip)
    | apply State.record_conf | apply State.retireBank_conf | apply State.count_conf | apply SameConf.ite | apply SameConf.foldl
    | (simp only [SameConf.mk_iff]; apply SameConf.parts) | split | dsimp only

theorem execBankCopyComplete_conf {s0 : State} (k : Nat) (j : Nat) {s : State} (hs : SameConf s0 s) :
    SameConfR s0 (execBankCopyComplete k j s) := by
  unfold execBankCopyComplete
  repeat' with_reducible first
    | assumption | intro _
    | (extract_lets +onlyGivenNames x; clear_value (hx : x = _); first | refine SameConf.bind (s := s0) hx ?_ (fun _ => ?_) | (refine SameConf.isFaults x ?_; subst hx) | skip)
    | apply State.closeRecords_conf | apply State.voidBlocks_conf | apply onUnit_conf | apply SameConfR.next | exact SameConfR.fault | exact SameConfR.refused
    | apply SameConfR.onUnit | apply SameConfR.ite | apply SameConf.ite | apply SameConf.foldl | (simp only [SameConf.mk_iff]; apply SameConf.parts) | split | dsimp only

theorem execStart_conf {s0 : State} (c : Nat) (val : Nat) {s : State} (hs : SameConf s0 s) :
    SameConfR s0 (execStart c val s) := by
  unfold execStart
  repeat' with_reducible first
    | assumption | intro _
    | (extract_lets +onlyGivenNames x; clear_value (hx : x = _); first | refine SameConf.bind (s := s0) hx ?_ (fun _ => ?_) | (refine SameConf.isFaults x ?_; subst hx) | skip)
    | apply State.setReg_conf | apply State.setFld_conf | apply State.askSys_conf | apply onUnit_conf | apply SameConfR.next | exact SameConfR.fault
    | exact SameConfR.refused | apply SameConfR.onUnit | apply SameConfR.ite | apply SameConf.ite | apply SameConf.foldl | (simp only [SameConf.mk_iff]; apply SameConf.parts)
    | split | dsimp only

theorem State.bookStack_conf {s0 : State} {s : State} (k : Nat) (st : Nat) (hs : SameConf s0 s) :
    SameConf s0 (State.bookStack s k st) := by
  unfold State.bookStack
  repeat' with_reducible first
    | assumption | intro _ | apply State.askSys_conf | apply State.release_conf | apply SameConf.ite | apply SameConf.foldl
    | (simp only [SameConf.mk_iff]; apply SameConf.parts) | split | dsimp only

theorem State.bookRefresh_conf {s0 : State} {s : State} (k : Nat) (st : Nat) (hs : SameConf s0 s) :
    SameConf s0 (State.bookRefresh s k st) := by
  unfold State.bookRefresh
  repeat' with_reducible first
    | assumption | intro _ | apply State.askSys_conf | apply State.release_conf | apply SameConf.ite | apply SameConf.foldl
    | (simp only [SameConf.mk_iff]; apply SameConf.parts) | split | dsimp only

theorem State.stackReading_conf {s0 : State} {s : State} (k : Nat) (t : Nat) (hs : SameConf s0 s) :
    SameConf s0 (State.stackReading s k t) := by
  unfold State.stackReading
  repeat' with_reducible first
    | assumption | intro _
    | (extract_lets +onlyGivenNames x; clear_value (hx : x = _); first | refine SameConf.bind (s := s0) hx ?_ (fun _ => ?_) | (refine SameConf.isFaults x ?_; subst hx) | skip)
    | apply State.setFld_conf | apply State.bookStack_conf | apply State.bookRefresh_conf | apply State.event_conf | apply SameConf.ite | apply SameConf.foldl
    | (simp only [SameConf.mk_iff]; apply SameConf.parts) | split | dsimp only

theorem execHbmTempReading_conf {s0 : State} (temps : List Nat) {s : State} (hs : SameConf s0 s) :
    SameConfR s0 (execHbmTempReading temps s) := by
  unfold execHbmTempReading
  repeat' with_reducible first
    | assumption | intro _
    | (extract_lets +onlyGivenNames x; clear_value (hx : x = _); first | refine SameConf.bind (s := s0) hx ?_ (fun _ => ?_) | (refine SameConf.isFaults x ?_; subst hx) | skip)
    | apply State.stackReading_conf | apply State.ran_conf | apply SameConfR.next | exact SameConfR.fault | exact SameConfR.refused | apply SameConfR.onUnit
    | apply SameConfR.ite | apply SameConf.ite | apply SameConf.foldl | (simp only [SameConf.mk_iff]; apply SameConf.parts) | split | dsimp only

theorem execScrubPass_conf {s0 : State} (k : Nat) (corrected : List Nat) (lost : List Nat) {s : State} (hs : SameConf s0 s) :
    SameConfR s0 (execScrubPass k corrected lost s) := by
  unfold execScrubPass
  repeat' with_reducible first
    | assumption | intro _
    | (extract_lets +onlyGivenNames x; clear_value (hx : x = _); first | refine SameConf.bind (s := s0) hx ?_ (fun _ => ?_) | (refine SameConf.isFaults x ?_; subst hx) | skip)
    | apply State.fastUncorrectable_conf | apply State.ran_conf | apply onUnit_conf | apply State.count_conf | apply State.fastCorrected_conf
    | apply SameConfR.next | exact SameConfR.fault | exact SameConfR.refused | apply SameConfR.onUnit | apply SameConfR.ite | apply SameConf.ite | apply SameConf.foldl
    | (simp only [SameConf.mk_iff]; apply SameConf.parts) | split | dsimp only

theorem State.partWriteback_conf {s0 : State} {s : State} (pk : Nat) (hs : SameConf s0 s) :
    SameConf s0 (State.partWriteback s pk) := by
  unfold State.partWriteback
  repeat' with_reducible first
    | assumption | intro _
    | (extract_lets +onlyGivenNames x; clear_value (hx : x = _); first | refine SameConf.bind (s := s0) hx ?_ (fun _ => ?_) | (refine SameConf.isFaults x ?_; subst hx) | skip)
    | apply State.count_conf | apply SameConf.ite | apply SameConf.foldl | (simp only [SameConf.mk_iff]; apply SameConf.parts) | split | dsimp only

theorem State.partInstall_conf {s0 : State} {s : State} (f : Nat) (k : Nat) (p : CachePart) (hs : SameConf s0 s) :
    SameConf s0 (State.partInstall s f k p) := by
  unfold State.partInstall
  repeat' with_reducible first
    | assumption | intro _
    | (extract_lets +onlyGivenNames x; clear_value (hx : x = _); first | refine SameConf.bind (s := s0) hx ?_ (fun _ => ?_) | (refine SameConf.isFaults x ?_; subst hx) | skip)
    | apply State.partWriteback_conf | apply State.freeBytes_conf | apply State.freeSeals_conf | apply SameConf.ite | apply SameConf.foldl
    | (simp only [SameConf.mk_iff]; apply SameConf.parts) | split | dsimp only

theorem execStop_conf {s0 : State} (c : Nat) {s : State} (hs : SameConf s0 s) :
    SameConfR s0 (execStop c s) := by
  unfold execStop
  repeat' with_reducible first
    | assumption | intro _
    | (extract_lets +onlyGivenNames x; clear_value (hx : x = _); first | refine SameConf.bind (s := s0) hx ?_ (fun _ => ?_) | (refine SameConf.isFaults x ?_; subst hx) | skip)
    | apply onUnit_conf | apply SameConfR.next | exact SameConfR.fault | exact SameConfR.refused | apply SameConfR.onUnit | apply SameConfR.ite | apply SameConf.ite
    | apply SameConf.foldl | (simp only [SameConf.mk_iff]; apply SameConf.parts) | split | dsimp only

theorem execHotChannel_conf {s0 : State} (c : Nat) {s : State} (hs : SameConf s0 s) :
    SameConfR s0 (execHotChannel c s) := by
  unfold execHotChannel
  repeat' with_reducible first
    | assumption | intro _
    | (extract_lets +onlyGivenNames x; clear_value (hx : x = _); first | refine SameConf.bind (s := s0) hx ?_ (fun _ => ?_) | (refine SameConf.isFaults x ?_; subst hx) | skip)
    | apply State.setFld_conf | apply onUnit_conf | apply State.event_conf | apply SameConfR.next | exact SameConfR.fault | exact SameConfR.refused
    | apply SameConfR.onUnit | apply SameConfR.ite | apply SameConf.ite | apply SameConf.foldl | (simp only [SameConf.mk_iff]; apply SameConf.parts) | split | dsimp only

theorem execPcRetrainComplete_conf {s0 : State} (c : Nat) (ok : Bool) (hit : List (Nat × Nat)) {s : State} (hs : SameConf s0 s) :
    SameConfR s0 (execPcRetrainComplete c ok hit s) := by
  unfold execPcRetrainComplete
  repeat' with_reducible first
    | assumption | intro _
    | (extract_lets +onlyGivenNames x; clear_value (hx : x = _); first | refine SameConf.bind (s := s0) hx ?_ (fun _ => ?_) | (refine SameConf.isFaults x ?_; subst hx) | skip)
    | apply State.record_conf | apply onUnit_conf | apply State.endFlights_conf | apply SameConfR.next | exact SameConfR.fault | exact SameConfR.refused
    | apply SameConfR.onUnit | apply SameConfR.ite | apply SameConf.ite | apply SameConf.foldl | (simp only [SameConf.mk_iff]; apply SameConf.parts) | split | dsimp only

theorem State.hotBeat_conf {s0 : State} {s : State} (hot : List Nat) (hs : SameConf s0 s) :
    SameConf s0 (State.hotBeat s hot) := by
  unfold State.hotBeat
  repeat' with_reducible first
    | assumption | intro _
    | (extract_lets +onlyGivenNames x; clear_value (hx : x = _); first | refine SameConf.bind (s := s0) hx ?_ (fun _ => ?_) | (refine SameConf.isFaults x ?_; subst hx) | skip)
    | apply State.count_conf | apply SameConf.ite | apply SameConf.foldl | (simp only [SameConf.mk_iff]; apply SameConf.parts) | split | dsimp only

theorem execTestMode_conf {s0 : State} (v : Nat) {s : State} (hs : SameConf s0 s) :
    SameConfR s0 (execTestMode v s) := by
  unfold execTestMode
  repeat' with_reducible first
    | assumption | intro _ | apply State.setFld_conf | apply onUnit_conf | apply SameConfR.next | exact SameConfR.fault | exact SameConfR.refused
    | apply SameConfR.onUnit | apply SameConfR.ite | apply SameConf.ite | apply SameConf.foldl | (simp only [SameConf.mk_iff]; apply SameConf.parts) | split | dsimp only

theorem execApply_conf {s0 : State} (f : Nat) (k : Nat) {s : State} (hs : SameConf s0 s) :
    SameConfR s0 (execApply f k s) := by
  unfold execApply
  repeat' with_reducible first
    | assumption | intro _ | apply onUnit_conf | apply State.partStart_conf | apply SameConfR.next | exact SameConfR.fault | exact SameConfR.refused
    | apply SameConfR.onUnit | apply SameConfR.ite | apply SameConf.ite | apply SameConf.foldl | (simp only [SameConf.mk_iff]; apply SameConf.parts) | split | dsimp only

theorem execFcpActionDone_conf {s0 : State} {s : State} (hs : SameConf s0 s) :
    SameConfR s0 (execFcpActionDone s) := by
  unfold execFcpActionDone
  repeat' with_reducible first
    | assumption | intro _
    | (extract_lets +onlyGivenNames x; clear_value (hx : x = _); first | refine SameConf.bind (s := s0) hx ?_ (fun _ => ?_) | (refine SameConf.isFaults x ?_; subst hx) | skip)
    | apply State.partWriteback_conf | apply State.setFld_conf | apply State.partInstall_conf | apply SameConfR.next | exact SameConfR.fault
    | exact SameConfR.refused | apply SameConfR.onUnit | apply SameConfR.ite | apply SameConf.ite | apply SameConf.foldl | (simp only [SameConf.mk_iff]; apply SameConf.parts)
    | split | dsimp only

end Sys2Proof.Machine
end

