-- ==== Sys2Proof/Laws/SameConfFaults.lean ====
section
/-!
SUPPORT. What the operations of Machine/Faults.lean leave alone (Laws/SameConf.lean).
-/

set_option linter.all false

namespace Sys2Proof.Machine

theorem State.modSlot_conf {s0 : State} {s : State} (k : Nat) (slot : Nat) (f : SlotData → SlotData) (hs : SameConf s0 s) :
    SameConf s0 (State.modSlot s k slot f) := by
  unfold State.modSlot
  repeat' with_reducible first
    | assumption | intro _
    | (extract_lets +onlyGivenNames x; clear_value (hx : x = _); first | refine SameConf.bind (s := s0) hx ?_ (fun _ => ?_) | (refine SameConf.isFaults x ?_; subst hx) | skip)
    | apply SameConf.ite | apply SameConf.foldl | (simp only [SameConf.mk_iff]; apply SameConf.parts) | split | dsimp only

theorem State.bringDue_conf {s0 : State} {s : State} (k : Nat) (slot : Nat) (hs : SameConf s0 s) :
    SameConf s0 (State.bringDue s k slot) := by
  unfold State.bringDue
  repeat' with_reducible first
    | assumption | intro _ | apply State.modSlot_conf | apply SameConf.ite | apply SameConf.foldl | (simp only [SameConf.mk_iff]; apply SameConf.parts) | split
    | dsimp only

theorem State.loseCore_conf {s0 : State} {s : State} (c : Nat) (hs : SameConf s0 s) :
    SameConf s0 (State.loseCore s c) := by
  unfold State.loseCore
  repeat' with_reducible first
    | assumption | intro _
    | (extract_lets +onlyGivenNames x; clear_value (hx : x = _); first | refine SameConf.bind (s := s0) hx ?_ (fun _ => ?_) | (refine SameConf.isFaults x ?_; subst hx) | skip)
    | apply State.setFld_conf | apply State.setCore_conf | apply State.release_conf | apply SameConf.ite | apply SameConf.foldl
    | (simp only [SameConf.mk_iff]; apply SameConf.parts) | split | dsimp only

theorem State.endWaiting_conf {s0 : State} {s : State} (f : Nat) (seq : Nat) (hs : SameConf s0 s) :
    SameConf s0 (State.endWaiting s f seq) := by
  unfold State.endWaiting
  repeat' with_reducible first
    | assumption | apply State.dropPre_conf | intro _
    | (extract_lets +onlyGivenNames x; clear_value (hx : x = _); first | refine SameConf.bind (s := s0) hx ?_ (fun _ => ?_) | (refine SameConf.isFaults x ?_; subst hx) | skip)
    | apply State.endUngranted_conf | apply SameConf.ite | apply SameConf.foldl | (simp only [SameConf.mk_iff]; apply SameConf.parts) | split | dsimp only

theorem State.retireSlot_conf {s0 : State} {s : State} (k : Nat) (slot : Nat) (seq : Nat) (hs : SameConf s0 s) :
    SameConf s0 (State.retireSlot s k slot seq) := by
  unfold State.retireSlot
  repeat' with_reducible first
    | assumption | intro _
    | (extract_lets +onlyGivenNames x; clear_value (hx : x = _); first | refine SameConf.bind (s := s0) hx ?_ (fun _ => ?_) | (refine SameConf.isFaults x ?_; subst hx) | skip)
    | apply State.newContract_conf | apply State.loseCore_conf | apply State.bringDue_conf | apply State.refreshHeads_conf | apply State.endWaiting_conf
    | apply State.count_conf | apply State.endFlights_conf | apply State.persist_conf | apply State.event_conf | apply SameConf.ite | apply SameConf.foldl
    | (simp only [SameConf.mk_iff]; apply SameConf.parts) | split | dsimp only

theorem execCoreHang_conf {s0 : State} (c : Nat) {s : State} (hs : SameConf s0 s) :
    SameConfR s0 (execCoreHang c s) := by
  unfold execCoreHang
  repeat' with_reducible first
    | assumption | intro _
    | (extract_lets +onlyGivenNames x; clear_value (hx : x = _); first | refine SameConf.bind (s := s0) hx ?_ (fun _ => ?_) | (refine SameConf.isFaults x ?_; subst hx) | skip)
    | apply State.modCore_conf | apply State.modSlot_conf | apply State.record_conf | apply State.bringDue_conf | apply onUnit_conf
    | apply State.retireSlot_conf | apply State.count_conf | apply State.endFlights_conf | apply SameConfR.next | exact SameConfR.fault | exact SameConfR.refused
    | apply SameConfR.onUnit | apply SameConfR.ite | apply SameConf.ite | apply SameConf.foldl | (simp only [SameConf.mk_iff]; apply SameConf.parts) | split | dsimp only

theorem State.plsFail_conf {s0 : State} {s : State} (fl : Flight) (cube : Nat) (range : Bool) (sum : Bool) (injected : Bool) (detail : Nat) (hs : SameConf s0 s) :
    SameConf s0 (State.plsFail s fl cube range sum injected detail).1 := by
  unfold State.plsFail
  repeat' with_reducible first
    | assumption | intro _
    | (extract_lets +onlyGivenNames x; clear_value (hx : x = _); first | refine SameConf.bind (s := s0) hx ?_ (fun _ => ?_) | refine SameConf.bindFst (s := s0) hx ?_ (fun _ => ?_) | (refine SameConf.isFaults x ?_; subst hx) | skip)
    | apply State.modSlot_conf | apply State.record_conf | apply State.bringDue_conf | apply State.retireSlot_conf | apply SameConf.ite | apply SameConf.foldl
    | (simp only [SameConf.mk_iff]; apply SameConf.parts) | apply SameConf.iteFst | apply SameConf.iteSnd | refine SameConf.fstEq (by assumption) ?_ | split | dsimp only

theorem State.showOverdue_conf {s0 : State} {s : State} (hs : SameConf s0 s) :
    SameConf s0 (State.showOverdue s) := by
  unfold State.showOverdue
  repeat' with_reducible first
    | assumption | intro _ | apply State.setFld_conf | apply SameConf.ite | apply SameConf.foldl | (simp only [SameConf.mk_iff]; apply SameConf.parts) | split
    | dsimp only

theorem State.testStart_conf {s0 : State} {s : State} (t : FieldTest) (hs : SameConf s0 s) :
    SameConf s0 (State.testStart s t) := by
  unfold State.testStart
  repeat' with_reducible first
    | assumption | intro _
    | (extract_lets +onlyGivenNames x; clear_value (hx : x = _); first | refine SameConf.bind (s := s0) hx ?_ (fun _ => ?_) | (refine SameConf.isFaults x ?_; subst hx) | skip)
    | apply State.modCore_conf | apply State.setFld_conf | apply State.askSys_conf | apply State.coreWake_conf | apply SameConf.ite | apply SameConf.foldl
    | (simp only [SameConf.mk_iff]; apply SameConf.parts) | split | dsimp only

theorem State.forceNext_conf {s0 : State} {s : State} (hs : SameConf s0 s) :
    SameConf s0 (State.forceNext s) := by
  unfold State.forceNext
  repeat' with_reducible first
    | assumption | intro _
    | (extract_lets +onlyGivenNames x; clear_value (hx : x = _); first | refine SameConf.bind (s := s0) hx ?_ (fun _ => ?_) | (refine SameConf.isFaults x ?_; subst hx) | skip)
    | apply State.showOverdue_conf | apply State.modCore_conf | apply State.endFlight_conf | apply State.testStart_conf | apply SameConf.ite
    | apply SameConf.foldl | (simp only [SameConf.mk_iff]; apply SameConf.parts) | split | dsimp only

theorem execIftForced_conf {s0 : State} (k : Nat) (slot : Nat) {s : State} (hs : SameConf s0 s) :
    SameConfR s0 (execIftForced k slot s) := by
  unfold execIftForced
  repeat' with_reducible first
    | assumption | intro _
    | (extract_lets +onlyGivenNames x; clear_value (hx : x = _); first | refine SameConf.bind (s := s0) hx ?_ (fun _ => ?_) | (refine SameConf.isFaults x ?_; subst hx) | skip)
    | apply State.showOverdue_conf | apply State.forceNext_conf | apply onUnit_conf | apply State.count_conf | apply SameConfR.next | exact SameConfR.fault
    | exact SameConfR.refused | apply SameConfR.onUnit | apply SameConfR.ite | apply SameConf.ite | apply SameConf.foldl | (simp only [SameConf.mk_iff]; apply SameConf.parts)
    | split | dsimp only

theorem execIftComplete_conf {s0 : State} (pass : Bool) (chain : Nat) {s : State} (hs : SameConf s0 s) :
    SameConfR s0 (execIftComplete pass chain s) := by
  unfold execIftComplete
  repeat' with_reducible first
    | assumption | intro _
    | (extract_lets +onlyGivenNames x; clear_value (hx : x = _); first | refine SameConf.bind (s := s0) hx ?_ (fun _ => ?_) | (refine SameConf.isFaults x ?_; subst hx) | skip)
    | apply State.setReg_conf | apply State.forceNext_conf | apply State.modCore_conf | apply State.modSlot_conf | apply State.record_conf
    | apply State.endFlight_conf | apply State.retireSlot_conf | apply State.count_conf | apply SameConfR.next | exact SameConfR.fault | exact SameConfR.refused
    | apply SameConfR.onUnit | apply SameConfR.ite | apply SameConf.ite | apply SameConf.foldl | (simp only [SameConf.mk_iff]; apply SameConf.parts) | split | dsimp only

theorem execIftRun_conf {s0 : State} (q : Nat) (i : Nat) {s : State} (hs : SameConf s0 s) :
    SameConfR s0 (execIftRun q i s) := by
  unfold execIftRun
  repeat' with_reducible first
    | assumption | intro _
    | (extract_lets +onlyGivenNames x; clear_value (hx : x = _); first | refine SameConf.bind (s := s0) hx ?_ (fun _ => ?_) | (refine SameConf.isFaults x ?_; subst hx) | skip)
    | apply State.forceNext_conf | apply State.dispatch_conf | apply State.endFlight_conf | apply SameConfR.next | exact SameConfR.fault | exact SameConfR.refused
    | apply SameConfR.onUnit | apply SameConfR.ite | apply SameConf.ite | apply SameConf.foldl | (simp only [SameConf.mk_iff]; apply SameConf.parts) | split | dsimp only

theorem execIftStart_conf {s0 : State} {s : State} (hs : SameConf s0 s) :
    SameConfR s0 (execIftStart s) := by
  unfold execIftStart
  repeat' with_reducible first
    | assumption | intro _ | apply State.testStart_conf | apply SameConfR.next | exact SameConfR.fault | exact SameConfR.refused | apply SameConfR.onUnit
    | apply SameConfR.ite | apply SameConf.ite | apply SameConf.foldl | (simp only [SameConf.mk_iff]; apply SameConf.parts) | split | dsimp only

theorem State.flipSeal_conf {s0 : State} {s : State} (b : Nat) (hs : SameConf s0 s) :
    SameConf s0 (State.flipSeal s b) := by
  unfold State.flipSeal
  repeat' with_reducible first
    | assumption | intro _
    | (extract_lets +onlyGivenNames x; clear_value (hx : x = _); first | refine SameConf.bind (s := s0) hx ?_ (fun _ => ?_) | (refine SameConf.isFaults x ?_; subst hx) | skip)
    | apply State.setSyndrome_conf | apply SameConf.ite | apply SameConf.foldl | (simp only [SameConf.mk_iff]; apply SameConf.parts) | split | dsimp only

theorem execSpareReady_conf {s0 : State} (k : Nat) {s : State} (hs : SameConf s0 s) :
    SameConfR s0 (execSpareReady k s) := by
  unfold execSpareReady
  repeat' with_reducible first
    | assumption | intro _
    | (extract_lets +onlyGivenNames x; clear_value (hx : x = _); first | refine SameConf.bind (s := s0) hx ?_ (fun _ => ?_) | (refine SameConf.isFaults x ?_; subst hx) | skip)
    | apply State.closeRecords_conf | apply onUnit_conf | apply State.refreshHeads_conf | apply SameConfR.next | exact SameConfR.fault | exact SameConfR.refused
    | apply SameConfR.onUnit | apply SameConfR.ite | apply SameConf.ite | apply SameConf.foldl | (simp only [SameConf.mk_iff]; apply SameConf.parts) | split | dsimp only

theorem execSealScan_conf {s0 : State} (q : Nat) (i : Nat) {s : State} (hs : SameConf s0 s) :
    SameConfR s0 (execSealScan q i s) := by
  unfold execSealScan
  repeat' with_reducible first
    | assumption | intro _
    | (extract_lets +onlyGivenNames x; clear_value (hx : x = _); first | refine SameConf.bind (s := s0) hx ?_ (fun _ => ?_) | (refine SameConf.isFaults x ?_; subst hx) | skip)
    | apply State.dispatch_conf | apply State.endFlight_conf | apply SameConfR.next | exact SameConfR.fault | exact SameConfR.refused | apply SameConfR.onUnit
    | apply SameConfR.ite | apply SameConf.ite | apply SameConf.foldl | (simp only [SameConf.mk_iff]; apply SameConf.parts) | split | dsimp only

theorem execCommandComplete_conf {s0 : State} (q : Nat) (i : Nat) (m : Nat) (withheld : Bool) {s : State} (hs : SameConf s0 s) :
    SameConfR s0 (execCommandComplete q i m withheld s) := by
  unfold execCommandComplete
  repeat' with_reducible first
    | assumption | intro _ | apply State.forceNext_conf | apply State.completeFlight_conf | apply SameConfR.next | exact SameConfR.fault | exact SameConfR.refused
    | apply SameConfR.onUnit | apply SameConfR.ite | apply SameConf.ite | apply SameConf.foldl | (simp only [SameConf.mk_iff]; apply SameConf.parts) | split | dsimp only

theorem execInject_conf {s0 : State} (q : Nat) (i : Nat) {s : State} (hs : SameConf s0 s) :
    SameConfR s0 (execInject q i s) := by
  unfold execInject
  repeat' with_reducible first
    | assumption | intro _
    | (extract_lets +onlyGivenNames x; clear_value (hx : x = _); first | refine SameConf.bind (s := s0) hx ?_ (fun _ => ?_) | (refine SameConf.isFaults x ?_; subst hx) | skip)
    | apply State.flipSeal_conf | apply State.dispatch_conf | apply State.endFlight_conf | apply SameConfR.next | exact SameConfR.fault | exact SameConfR.refused
    | apply SameConfR.onUnit | apply SameConfR.ite | apply SameConf.ite | apply SameConf.foldl | (simp only [SameConf.mk_iff]; apply SameConf.parts) | split | dsimp only

end Sys2Proof.Machine
end

