-- ==== Sys2Proof/Laws/SameConfHostPort.lean ====
section
/-!
SUPPORT. What the operations of Machine/HostPort.lean leave alone (Laws/SameConf.lean).
-/

set_option linter.all false

namespace Sys2Proof.Machine

theorem execMsixHoldoffExpiry_conf {s0 : State} (f : Nat) (v : Nat) {s : State} (hs : SameConf s0 s) :
    SameConfR s0 (execMsixHoldoffExpiry f v s) := by
  unfold execMsixHoldoffExpiry
  repeat' with_reducible first
    | assumption | intro _
    | (extract_lets +onlyGivenNames x; clear_value (hx : x = _); first | refine SameConf.bind (s := s0) hx ?_ (fun _ => ?_) | (refine SameConf.isFaults x ?_; subst hx) | skip)
    | apply State.setMsix_conf | apply State.sendVector_conf | apply onUnit_conf | apply SameConfR.next | exact SameConfR.fault | exact SameConfR.refused
    | apply SameConfR.onUnit | apply SameConfR.ite | apply SameConf.ite | apply SameConf.foldl | (simp only [SameConf.mk_iff]; apply SameConf.parts) | split | dsimp only

theorem execHostCompletionTimeout_conf {s0 : State} (tag : Nat) {s : State} (hs : SameConf s0 s) :
    SameConfR s0 (execHostCompletionTimeout tag s) := by
  unfold execHostCompletionTimeout
  repeat' with_reducible first
    | assumption | intro _ | apply State.dropRequest_conf | apply State.answered_conf | apply SameConfR.next | exact SameConfR.fault | exact SameConfR.refused
    | apply SameConfR.onUnit | apply SameConfR.ite | apply SameConf.ite | apply SameConf.foldl | (simp only [SameConf.mk_iff]; apply SameConf.parts) | split | dsimp only

theorem execHostCompletion_conf {s0 : State} (tag : Nat) (status : Nat) (poison : Bool) (data : List Byte) {s : State} (hs : SameConf s0 s) :
    SameConfR s0 (execHostCompletion tag status poison data s) := by
  unfold execHostCompletion
  repeat' with_reducible first
    | assumption | intro _
    | (extract_lets +onlyGivenNames x; clear_value (hx : x = _); first | refine SameConf.bind (s := s0) hx ?_ (fun _ => ?_) | (refine SameConf.isFaults x ?_; subst hx) | skip)
    | apply State.dropRequest_conf | apply State.fetched_conf | apply State.answered_conf | apply SameConfR.next | exact SameConfR.fault | exact SameConfR.refused
    | apply SameConfR.onUnit | apply SameConfR.ite | apply SameConf.ite | apply SameConf.foldl | (simp only [SameConf.mk_iff]; apply SameConf.parts) | split | dsimp only

theorem State.flushVector_conf {s0 : State} {s : State} (f : Nat) (v : Nat) (hs : SameConf s0 s) :
    SameConf s0 (State.flushVector s f v) := by
  unfold State.flushVector
  repeat' with_reducible first
    | assumption | intro _
    | (extract_lets +onlyGivenNames x; clear_value (hx : x = _); first | refine SameConf.bind (s := s0) hx ?_ (fun _ => ?_) | (refine SameConf.isFaults x ?_; subst hx) | skip)
    | apply State.sendVector_conf | apply SameConf.ite | apply SameConf.foldl | (simp only [SameConf.mk_iff]; apply SameConf.parts) | split | dsimp only

theorem State.flushVectors_conf {s0 : State} {s : State} (f : Nat) (hs : SameConf s0 s) :
    SameConf s0 (State.flushVectors s f) := by
  unfold State.flushVectors
  repeat' with_reducible first
    | assumption | intro _ | apply State.flushVector_conf | apply SameConf.ite | apply SameConf.foldl | (simp only [SameConf.mk_iff]; apply SameConf.parts) | split
    | dsimp only

theorem execBar2Read_conf {s0 : State} (f : Nat) (o : Nat) (n : Nat) {s : State} (hs : SameConf s0 s) :
    SameConfR s0 (execBar2Read f o n s) := by
  unfold execBar2Read
  repeat' with_reducible first
    | assumption | intro _
    | (extract_lets +onlyGivenNames x; clear_value (hx : x = _); first | refine SameConf.bind (s := s0) hx ?_ (fun _ => ?_) | refine SameConf.bindFst (s := s0) hx ?_ (fun _ => ?_) | (refine SameConf.isFaults x ?_; subst hx) | skip)
    | apply State.traffic_conf | apply State.coreWake_conf | apply onUnit_conf | apply State.uncorrectable_conf | apply State.count_conf
    | apply State.send_conf | apply SameConfR.next | exact SameConfR.fault | exact SameConfR.refused | apply SameConfR.onUnit | apply SameConfR.ite | apply SameConf.ite
    | apply SameConf.foldl | (simp only [SameConf.mk_iff]; apply SameConf.parts) | apply SameConf.iteFst | apply SameConf.iteSnd | refine SameConf.fstEq (by assumption) ?_
    | split | dsimp only

theorem execBar2Write_conf {s0 : State} (f : Nat) (o : Nat) (data : List Byte) {s : State} (hs : SameConf s0 s) :
    SameConfR s0 (execBar2Write f o data s) := by
  unfold execBar2Write
  repeat' with_reducible first
    | assumption | intro _
    | (extract_lets +onlyGivenNames x; clear_value (hx : x = _); first | refine SameConf.bind (s := s0) hx ?_ (fun _ => ?_) | (refine SameConf.isFaults x ?_; subst hx) | skip)
    | apply State.purgeRange_conf | apply State.traffic_conf | apply State.coreWake_conf | apply State.plainWrite_conf | apply onUnit_conf
    | apply State.count_conf | apply SameConfR.next | exact SameConfR.fault | exact SameConfR.refused | apply SameConfR.onUnit | apply SameConfR.ite | apply SameConf.ite
    | apply SameConf.foldl | (simp only [SameConf.mk_iff]; apply SameConf.parts) | split | dsimp only

theorem execMsixUnmask_conf {s0 : State} (f : Nat) (v : Nat) {s : State} (hs : SameConf s0 s) :
    SameConfR s0 (execMsixUnmask f v s) := by
  unfold execMsixUnmask
  repeat' with_reducible first
    | assumption | intro _
    | (extract_lets +onlyGivenNames x; clear_value (hx : x = _); first | refine SameConf.bind (s := s0) hx ?_ (fun _ => ?_) | (refine SameConf.isFaults x ?_; subst hx) | skip)
    | apply State.setMsix_conf | apply State.sendVector_conf | apply onUnit_conf | apply SameConfR.next | exact SameConfR.fault | exact SameConfR.refused
    | apply SameConfR.onUnit | apply SameConfR.ite | apply SameConf.ite | apply SameConf.foldl | (simp only [SameConf.mk_iff]; apply SameConf.parts) | split | dsimp only

end Sys2Proof.Machine
end

