-- ==== Sys2Proof/Laws/SameConfBoot.lean ====
section
/-!
SUPPORT. What the operations of Machine/Boot.lean leave alone (Laws/SameConf.lean).
-/

set_option linter.all false

namespace Sys2Proof.Machine

theorem State.warmCores_conf {s0 : State} {s : State} (off : Bool) (hs : SameConf s0 s) :
    SameConf s0 (State.warmCores s off) := by
  unfold State.warmCores
  repeat' with_reducible first
    | assumption | intro _ | apply State.resetCore_conf | apply State.setFld_conf | apply SameConf.ite | apply SameConf.foldl
    | (simp only [SameConf.mk_iff]; apply SameConf.parts) | split | dsimp only

theorem State.warmLinks_conf {s0 : State} {s : State} (hs : SameConf s0 s) :
    SameConf s0 (State.warmLinks s) := by
  unfold State.warmLinks
  repeat' with_reducible first
    | assumption | intro _
    | (extract_lets +onlyGivenNames x; clear_value (hx : x = _); first | refine SameConf.bind (s := s0) hx ?_ (fun _ => ?_) | (refine SameConf.isFaults x ?_; subst hx) | skip)
    | apply State.modLink_conf | apply State.linkAbsent_conf | apply SameConf.ite | apply SameConf.foldl | (simp only [SameConf.mk_iff]; apply SameConf.parts) | split
    | dsimp only

theorem State.warmCaches_conf {s0 : State} {s : State} (hs : SameConf s0 s) :
    SameConf s0 (State.warmCaches s) := by
  unfold State.warmCaches
  repeat' with_reducible first
    | assumption | intro _
    | (extract_lets +onlyGivenNames x; clear_value (hx : x = _); first | refine SameConf.bind (s := s0) hx ?_ (fun _ => ?_) | (refine SameConf.isFaults x ?_; subst hx) | skip)
    | apply State.writebackLine_conf | apply SameConf.ite | apply SameConf.foldl | (simp only [SameConf.mk_iff]; apply SameConf.parts) | split | dsimp only

theorem State.powerDie_conf {s0 : State} {s : State} (k : Nat) (hs : SameConf s0 s) :
    SameConf s0 (State.powerDie s k) := by
  unfold State.powerDie
  repeat' with_reducible first
    | assumption | intro _
    | (extract_lets +onlyGivenNames x; clear_value (hx : x = _); first | refine SameConf.bind (s := s0) hx ?_ (fun _ => ?_) | (refine SameConf.isFaults x ?_; subst hx) | (refine SameConf.isFun x ?_; subst hx) | skip)
    | apply State.sendFrame_conf | apply State.ask_conf | apply State.setFld_conf | apply State.askSys_conf | apply SameConf.ite | apply SameConf.foldl
    | (simp only [SameConf.mk_iff]; apply SameConf.parts) | split | dsimp only

theorem State.flowBack_conf {s0 : State} {s : State} (hs : SameConf s0 s) :
    SameConf s0 (State.flowBack s) := by
  unfold State.flowBack
  repeat' with_reducible first
    | assumption | intro _
    | (extract_lets +onlyGivenNames x; clear_value (hx : x = _); first | refine SameConf.bind (s := s0) hx ?_ (fun _ => ?_) | (refine SameConf.isFaults x ?_; subst hx) | skip)
    | apply State.setFld_conf | apply State.bookStack_conf | apply State.powerDie_conf | apply SameConf.ite | apply SameConf.foldl
    | (simp only [SameConf.mk_iff]; apply SameConf.parts) | split | dsimp only

theorem State.warmTiers_conf {s0 : State} {s : State} (hs : SameConf s0 s) :
    SameConf s0 (State.warmTiers s) := by
  unfold State.warmTiers
  repeat' with_reducible first
    | assumption | intro _
    | (extract_lets +onlyGivenNames x; clear_value (hx : x = _); first | refine SameConf.bind (s := s0) hx ?_ (fun _ => ?_) | (refine SameConf.isFaults x ?_; subst hx) | skip)
    | apply State.tgDestroy_conf | apply State.release_conf | apply SameConf.ite | apply SameConf.foldl | (simp only [SameConf.mk_iff]; apply SameConf.parts) | split
    | dsimp only

theorem State.warmFaults_conf {s0 : State} {s : State} (hs : SameConf s0 s) :
    SameConf s0 (State.warmFaults s) := by
  unfold State.warmFaults
  repeat' with_reducible first
    | assumption | intro _
    | (extract_lets +onlyGivenNames x; clear_value (hx : x = _); first | refine SameConf.bind (s := s0) hx ?_ (fun _ => ?_) | (refine SameConf.isFaults x ?_; subst hx) | skip)
    | apply State.setFld_conf | apply SameConf.ite | apply SameConf.foldl | (simp only [SameConf.mk_iff]; apply SameConf.parts) | split | dsimp only

theorem State.warmRegs_conf {s0 : State} {s : State} (hs : SameConf s0 s) :
    SameConf s0 (State.warmRegs s) := by
  unfold State.warmRegs
  repeat' with_reducible first
    | assumption | intro _
    | (extract_lets +onlyGivenNames x; clear_value (hx : x = _); first | refine SameConf.bind (s := s0) hx ?_ (fun _ => ?_) | (refine SameConf.isFaults x ?_; subst hx) | skip)
    | apply State.warmReg_conf | apply State.setFld_conf | apply State.fabCounts_conf | apply SameConf.ite | apply SameConf.foldl
    | (simp only [SameConf.mk_iff]; apply SameConf.parts) | split | dsimp only

theorem State.coldRegs_conf {s0 : State} {s : State} {old : State} (hs : SameConf s0 s) (hold : SameConf s0 old) :
    SameConf s0 (State.coldRegs s old) := by
  unfold State.coldRegs
  repeat' with_reducible first
    | assumption | intro _ | apply State.setReg_conf | apply State.setFld_conf | apply SameConf.ite | apply SameConf.foldl
    | (simp only [SameConf.mk_iff]; apply SameConf.parts) | split | dsimp only

theorem State.mapsFromOd_conf {s0 : State} {s : State} (hs : SameConf s0 s) :
    SameConf s0 (State.mapsFromOd s) := by
  unfold State.mapsFromOd
  repeat' with_reducible first
    | assumption | intro _
    | (extract_lets +onlyGivenNames x; clear_value (hx : x = _); first | refine SameConf.bind (s := s0) hx ?_ (fun _ => ?_) | (refine SameConf.isFaults x ?_; subst hx) | skip)
    | apply SameConf.ite | apply SameConf.foldl | (simp only [SameConf.mk_iff]; apply SameConf.parts) | split | dsimp only

theorem State.shapeFromOd_conf {s0 : State} {s : State} (hs : SameConf s0 s) :
    SameConf s0 (State.shapeFromOd s) := by
  unfold State.shapeFromOd
  repeat' with_reducible first
    | assumption | intro _
    | (extract_lets +onlyGivenNames x; clear_value (hx : x = _); first | refine SameConf.bind (s := s0) hx ?_ (fun _ => ?_) | (refine SameConf.isFaults x ?_; subst hx) | skip)
    | apply State.setFld_conf | apply SameConf.ite | apply SameConf.foldl | (simp only [SameConf.mk_iff]; apply SameConf.parts) | split | dsimp only

theorem State.zeroDraw_conf {s0 : State} {s : State} (r : Nat) (ca : Nat) (hs : SameConf s0 s) :
    SameConf s0 (State.zeroDraw s r ca) := by
  unfold State.zeroDraw
  repeat' with_reducible first
    | assumption | intro _ | apply State.askSys_conf | apply State.release_conf | apply SameConf.ite | apply SameConf.foldl
    | (simp only [SameConf.mk_iff]; apply SameConf.parts) | split | dsimp only

theorem State.bootStep5_conf {s0 : State} {s : State} (hs : SameConf s0 s) :
    SameConf s0 (State.bootStep5 s) := by
  unfold State.bootStep5
  repeat' with_reducible first
    | assumption | intro _
    | (extract_lets +onlyGivenNames x; clear_value (hx : x = _); first | refine SameConf.bind (s := s0) hx ?_ (fun _ => ?_) | (refine SameConf.isFaults x ?_; subst hx) | skip)
    | apply State.askSys_conf | apply State.powerDie_conf | apply State.zeroDraw_conf | apply SameConf.ite | apply SameConf.foldl
    | (simp only [SameConf.mk_iff]; apply SameConf.parts) | split | dsimp only

theorem State.bootStep7_conf {s0 : State} {s : State} (hs : SameConf s0 s) :
    SameConf s0 (State.bootStep7 s) := by
  unfold State.bootStep7
  repeat' with_reducible first
    | assumption | intro _
    | (extract_lets +onlyGivenNames x; clear_value (hx : x = _); first | refine SameConf.bind (s := s0) hx ?_ (fun _ => ?_) | (refine SameConf.isFaults x ?_; subst hx) | skip)
    | apply State.bookStack_conf | apply State.bookRefresh_conf | apply State.zeroDraw_conf | apply SameConf.ite | apply SameConf.foldl
    | (simp only [SameConf.mk_iff]; apply SameConf.parts) | split | dsimp only

theorem State.bootStep6_conf {s0 : State} {s : State} (hs : SameConf s0 s) :
    SameConf s0 (State.bootStep6 s) := by
  unfold State.bootStep6
  repeat' with_reducible first
    | assumption | intro _
    | (extract_lets +onlyGivenNames x; clear_value (hx : x = _); first | refine SameConf.bind (s := s0) hx ?_ (fun _ => ?_) | (refine SameConf.isFaults x ?_; subst hx) | skip)
    | apply State.setFld_conf | apply State.askSys_conf | apply SameConf.ite | apply SameConf.foldl | (simp only [SameConf.mk_iff]; apply SameConf.parts) | split
    | dsimp only

theorem State.journalCut_conf {s0 : State} {s : State} (n : Nat) (hs : SameConf s0 s) :
    SameConf s0 (State.journalCut s n) := by
  unfold State.journalCut
  repeat' with_reducible first
    | assumption | intro _
    | (extract_lets +onlyGivenNames x; clear_value (hx : x = _); first | refine SameConf.bind (s := s0) hx ?_ (fun _ => ?_) | refine SameConf.bindFst (s := s0) hx ?_ (fun _ => ?_) | (refine SameConf.isFaults x ?_; subst hx) | skip)
    | apply State.putBatch_conf | apply State.switchRegion_conf | apply SameConf.ite | apply SameConf.foldl | (simp only [SameConf.mk_iff]; apply SameConf.parts)
    | apply SameConf.iteFst | apply SameConf.iteSnd | refine SameConf.fstEq (by assumption) ?_ | split | dsimp only

end Sys2Proof.Machine
end

