-- ==== Sys2Proof/Laws/SameConfTileEngine.lean ====
section
/-!
SUPPORT. What the operations of Machine/TileEngine.lean leave alone (Laws/SameConf.lean).
-/

set_option linter.all false

namespace Sys2Proof.Machine

theorem State.withDesc_conf {s0 : State} {s : State} (q : Nat) (i : Nat) (op : Nat) (bad : Flight → List Byte → Option Nat) (k : State → Flight → List Byte → State) (hs : SameConf s0 s) (hk : ∀ y0 y1 y2, SameConf s0 y0 → SameConf s0 (k y0 y1 y2)) :
    SameConfR s0 (State.withDesc s q i op bad k) := by
  unfold State.withDesc
  repeat' with_reducible first
    | assumption | intro _
    | (extract_lets +onlyGivenNames x; clear_value (hx : x = _); first | refine SameConf.bind (s := s0) hx ?_ (fun _ => ?_) | (refine SameConf.isFaults x ?_; subst hx) | skip)
    | apply State.dispatch_conf | apply State.endFlight_conf | apply hk | apply SameConfR.next | exact SameConfR.fault | exact SameConfR.refused
    | apply SameConfR.onUnit | apply SameConfR.ite | apply SameConf.ite | apply SameConf.foldl | (simp only [SameConf.mk_iff]; apply SameConf.parts) | split | dsimp only

theorem execRampHoldExpiry_conf {s0 : State} (c : Nat) {s : State} (hs : SameConf s0 s) :
    SameConfR s0 (execRampHoldExpiry c s) := by
  unfold execRampHoldExpiry
  repeat' with_reducible first
    | assumption | intro _ | apply State.countCycles_conf | apply State.setFld_conf | apply onUnit_conf | apply SameConfR.next | exact SameConfR.fault
    | exact SameConfR.refused | apply SameConfR.onUnit | apply SameConfR.ite | apply SameConf.ite | apply SameConf.foldl | (simp only [SameConf.mk_iff]; apply SameConf.parts)
    | split | dsimp only

theorem State.countSelected_conf {s0 : State} {s : State} (k : Nat) (n : Nat) (hs : SameConf s0 s) :
    SameConf s0 (State.countSelected s k n) := by
  unfold State.countSelected
  repeat' with_reducible first
    | assumption | intro _ | apply State.setReg_conf | apply SameConf.ite | apply SameConf.foldl | (simp only [SameConf.mk_iff]; apply SameConf.parts) | split
    | dsimp only

theorem State.streamed_conf {s0 : State} {s : State} (core : Nat) (n : Nat) (hs : SameConf s0 s) :
    SameConf s0 (State.streamed s core n) := by
  unfold State.streamed
  repeat' with_reducible first
    | assumption | intro _
    | (extract_lets +onlyGivenNames x; clear_value (hx : x = _); first | refine SameConf.bind (s := s0) hx ?_ (fun _ => ?_) | (refine SameConf.isFaults x ?_; subst hx) | skip)
    | apply State.modCore_conf | apply State.modSlot_conf | apply State.countSelected_conf | apply SameConf.ite | apply SameConf.foldl
    | (simp only [SameConf.mk_iff]; apply SameConf.parts) | split | dsimp only

theorem State.plsRecord_conf {s0 : State} {s : State} (fl : Flight) (rf : Option RangeFail) (sf : Option Nat) (hs : SameConf s0 s) :
    SameConf s0 (State.plsRecord s fl rf sf).1 := by
  unfold State.plsRecord
  repeat' with_reducible first
    | assumption | intro _
    | (extract_lets +onlyGivenNames x; clear_value (hx : x = _); first | refine SameConf.bind (s := s0) hx ?_ (fun _ => ?_) | refine SameConf.bindFst (s := s0) hx ?_ (fun _ => ?_) | (refine SameConf.isFaults x ?_; subst hx) | skip)
    | apply State.plsFail_conf | apply State.modSlot_conf | apply State.countSelected_conf | apply SameConf.ite | apply SameConf.foldl
    | (simp only [SameConf.mk_iff]; apply SameConf.parts) | apply SameConf.iteFst | apply SameConf.iteSnd | refine SameConf.fstEq (by assumption) ?_ | split | dsimp only

theorem JobResult.withPls_conf {s0 : State} {r : JobResult} (fl : Flight) (pls : Option (Nat × Option RangeFail × Option Nat)) (hr : SameConf s0 r.st) :
    SameConf s0 (JobResult.withPls r fl pls).st := by
  unfold JobResult.withPls
  repeat' with_reducible first
    | assumption | intro _ | apply State.draw_conf | apply State.voidBlocks_conf | apply State.plsRecord_conf | apply SameConf.ite | apply SameConf.foldl
    | (simp only [SameConf.mk_iff]; apply SameConf.parts) | apply SameConf.iteFst | apply SameConf.iteSnd | apply SameConf.iteJob | apply SameConf.foldlJob
    | refine SameConf.fstEq (by assumption) ?_ | refine SameConf.sndEq (by assumption) ?_ | split | dsimp only

theorem State.arrayActivity_conf {s0 : State} {s : State} (core : Nat) (shape : Nat) (mode : Nat) (hs : SameConf s0 s) :
    SameConf s0 (State.arrayActivity s core shape mode) := by
  unfold State.arrayActivity
  repeat' with_reducible first
    | assumption | intro _
    | (extract_lets +onlyGivenNames x; clear_value (hx : x = _); first | refine SameConf.bind (s := s0) hx ?_ (fun _ => ?_) | (refine SameConf.isFaults x ?_; subst hx) | skip)
    | apply State.countCycles_conf | apply State.setFld_conf | apply State.count_conf | apply SameConf.ite | apply SameConf.foldl
    | (simp only [SameConf.mk_iff]; apply SameConf.parts) | split | dsimp only

theorem State.countN_conf {s0 : State} {s : State} (k : Nat) (n : Nat) (hs : SameConf s0 s) :
    SameConf s0 (State.countN s k n) := by
  unfold State.countN
  repeat' with_reducible first
    | assumption | intro _ | apply State.count_conf | apply SameConf.ite | apply SameConf.foldl | (simp only [SameConf.mk_iff]; apply SameConf.parts) | split
    | dsimp only

theorem State.matCounters_conf {s0 : State} {s : State} (core : Nat) (r : MatRun) (done : Nat) (hs : SameConf s0 s) :
    SameConf s0 (State.matCounters s core r done) := by
  unfold State.matCounters
  repeat' with_reducible first
    | assumption | intro _
    | (extract_lets +onlyGivenNames x; clear_value (hx : x = _); first | refine SameConf.bind (s := s0) hx ?_ (fun _ => ?_) | (refine SameConf.isFaults x ?_; subst hx) | skip)
    | apply State.countCycles_conf | apply State.countN_conf | apply State.streamed_conf | apply SameConf.ite | apply SameConf.foldl
    | (simp only [SameConf.mk_iff]; apply SameConf.parts) | split | dsimp only

theorem State.runMat_conf {s0 : State} {s : State} (q : Nat) (i : Nat) (stop : Option Nat) (fl : Flight) (d : List Byte) (hs : SameConf s0 s) :
    SameConf s0 (State.runMat s q i stop fl d) := by
  unfold State.runMat
  repeat' with_reducible first
    | assumption | intro _
    | (extract_lets +onlyGivenNames x; clear_value (hx : x = _); first | refine SameConf.bind (s := s0) hx ?_ (fun _ => ?_) | refine SameConf.bindJob (s := s0) hx ?_ (fun _ => ?_) | refine SameConf.bindRes (s := s0) hx ?_ (fun _ => ?_) | (refine SameConf.isFaults x ?_; subst hx) | skip)
    | apply JobResult.withPls_conf | apply State.modCore_conf | apply State.arrayActivity_conf | apply State.runJob_conf | apply JobResult.finish_conf
    | apply State.matCounters_conf | apply SameConf.ite | apply SameConf.foldl | (simp only [SameConf.mk_iff]; apply SameConf.parts) | apply SameConf.iteJob
    | apply SameConf.foldlJob | split | dsimp only

theorem State.matCommand_conf {s0 : State} {s : State} (q : Nat) (i : Nat) (op : Nat) (stop : Option Nat) (hs : SameConf s0 s) :
    SameConfR s0 (State.matCommand s q i op stop) := by
  unfold State.matCommand
  repeat' with_reducible first
    | assumption | intro _ | apply State.runMat_conf | apply State.withDesc_conf | apply SameConfR.next | exact SameConfR.fault | exact SameConfR.refused
    | apply SameConfR.onUnit | apply SameConfR.ite | apply SameConf.ite | apply SameConf.foldl | (simp only [SameConf.mk_iff]; apply SameConf.parts) | split | dsimp only

theorem execBwdW_conf {s0 : State} (q : Nat) (i : Nat) (stop : Option Nat) {s : State} (hs : SameConf s0 s) :
    SameConfR s0 (execBwdW q i stop s) := by
  unfold execBwdW
  repeat' with_reducible first
    | assumption | intro _ | apply State.matCommand_conf | apply SameConfR.next | exact SameConfR.fault | exact SameConfR.refused | apply SameConfR.onUnit
    | apply SameConfR.ite | apply SameConf.ite | apply SameConf.foldl | (simp only [SameConf.mk_iff]; apply SameConf.parts) | split | dsimp only

theorem execMatmul_conf {s0 : State} (q : Nat) (i : Nat) (stop : Option Nat) {s : State} (hs : SameConf s0 s) :
    SameConfR s0 (execMatmul q i stop s) := by
  unfold execMatmul
  repeat' with_reducible first
    | assumption | intro _ | apply State.matCommand_conf | apply SameConfR.next | exact SameConfR.fault | exact SameConfR.refused | apply SameConfR.onUnit
    | apply SameConfR.ite | apply SameConf.ite | apply SameConf.foldl | (simp only [SameConf.mk_iff]; apply SameConf.parts) | split | dsimp only

theorem execBwdIn_conf {s0 : State} (q : Nat) (i : Nat) (stop : Option Nat) {s : State} (hs : SameConf s0 s) :
    SameConfR s0 (execBwdIn q i stop s) := by
  unfold execBwdIn
  repeat' with_reducible first
    | assumption | intro _ | apply State.matCommand_conf | apply SameConfR.next | exact SameConfR.fault | exact SameConfR.refused | apply SameConfR.onUnit
    | apply SameConfR.ite | apply SameConf.ite | apply SameConf.foldl | (simp only [SameConf.mk_iff]; apply SameConf.parts) | split | dsimp only

theorem execMatmulAcc_conf {s0 : State} (q : Nat) (i : Nat) (stop : Option Nat) {s : State} (hs : SameConf s0 s) :
    SameConfR s0 (execMatmulAcc q i stop s) := by
  unfold execMatmulAcc
  repeat' with_reducible first
    | assumption | intro _ | apply State.matCommand_conf | apply SameConfR.next | exact SameConfR.fault | exact SameConfR.refused | apply SameConfR.onUnit
    | apply SameConfR.ite | apply SameConf.ite | apply SameConf.foldl | (simp only [SameConf.mk_iff]; apply SameConf.parts) | split | dsimp only

end Sys2Proof.Machine
end

