-- ==== Sys2Proof/Laws/SameConfConvert.lean ====
section
/-!
SUPPORT. What the operations of Machine/Convert.lean leave alone (Laws/SameConf.lean).
-/

set_option linter.all false

namespace Sys2Proof.Machine

theorem State.convCounters_conf {s0 : State} {s : State} (core : Nat) (t : ConvRun) (done : Nat) (ok : Bool) (hs : SameConf s0 s) :
    SameConf s0 (State.convCounters s core t done ok) := by
  unfold State.convCounters
  repeat' with_reducible first
    | assumption | intro _
    | (extract_lets +onlyGivenNames x; clear_value (hx : x = _); first | refine SameConf.bind (s := s0) hx ?_ (fun _ => ?_) | (refine SameConf.isFaults x ?_; subst hx) | skip)
    | apply State.countN_conf | apply SameConf.ite | apply SameConf.foldl | (simp only [SameConf.mk_iff]; apply SameConf.parts) | split | dsimp only

theorem State.runConv_conf {s0 : State} {s : State} (q : Nat) (i : Nat) (stop : Option Nat) (fl : Flight) (d : List Byte) (hs : SameConf s0 s) :
    SameConf s0 (State.runConv s q i stop fl d) := by
  unfold State.runConv
  repeat' with_reducible first
    | assumption | intro _
    | (extract_lets +onlyGivenNames x; clear_value (hx : x = _); first | refine SameConf.bind (s := s0) hx ?_ (fun _ => ?_) | refine SameConf.bindSnd (s := s0) hx ?_ (fun _ => ?_) | refine SameConf.bindJob (s := s0) hx ?_ (fun _ => ?_) | refine SameConf.bindRes (s := s0) hx ?_ (fun _ => ?_) | (refine SameConf.isFaults x ?_; subst hx) | skip)
    | apply State.drawWords_conf | apply State.runJob_conf | apply State.count_conf | apply JobResult.finish_conf | apply State.convCounters_conf
    | apply SameConf.ite | apply SameConf.foldl | (simp only [SameConf.mk_iff]; apply SameConf.parts) | apply SameConf.iteFst | apply SameConf.iteSnd | apply SameConf.iteJob
    | apply SameConf.foldlJob | refine SameConf.sndEq (by assumption) ?_ | split | dsimp only

theorem State.convCommand_conf {s0 : State} {s : State} (q : Nat) (i : Nat) (op : Nat) (stop : Option Nat) (hs : SameConf s0 s) :
    SameConfR s0 (State.convCommand s q i op stop) := by
  unfold State.convCommand
  repeat' with_reducible first
    | assumption | intro _ | apply State.runConv_conf | apply State.drawing_conf | apply State.withDesc_conf | apply SameConfR.next | exact SameConfR.fault
    | exact SameConfR.refused | apply SameConfR.onUnit | apply SameConfR.ite | apply SameConf.ite | apply SameConf.foldl | (simp only [SameConf.mk_iff]; apply SameConf.parts)
    | split | dsimp only

theorem execRotate_conf {s0 : State} (q : Nat) (i : Nat) (stop : Option Nat) {s : State} (hs : SameConf s0 s) :
    SameConfR s0 (execRotate q i stop s) := by
  unfold execRotate
  repeat' with_reducible first
    | assumption | intro _ | apply State.convCommand_conf | apply SameConfR.next | exact SameConfR.fault | exact SameConfR.refused | apply SameConfR.onUnit
    | apply SameConfR.ite | apply SameConf.ite | apply SameConf.foldl | (simp only [SameConf.mk_iff]; apply SameConf.parts) | split | dsimp only

theorem execStats_conf {s0 : State} (q : Nat) (i : Nat) (stop : Option Nat) {s : State} (hs : SameConf s0 s) :
    SameConfR s0 (execStats q i stop s) := by
  unfold execStats
  repeat' with_reducible first
    | assumption | intro _ | apply State.convCommand_conf | apply SameConfR.next | exact SameConfR.fault | exact SameConfR.refused | apply SameConfR.onUnit
    | apply SameConfR.ite | apply SameConf.ite | apply SameConf.foldl | (simp only [SameConf.mk_iff]; apply SameConf.parts) | split | dsimp only

theorem State.runBook_conf {s0 : State} {s : State} (q : Nat) (i : Nat) (fl : Flight) (hs : SameConf s0 s) :
    SameConf s0 (State.runBook s q i fl) := by
  unfold State.runBook
  repeat' with_reducible first
    | assumption | intro _
    | (extract_lets +onlyGivenNames x; clear_value (hx : x = _); first | refine SameConf.bind (s := s0) hx ?_ (fun _ => ?_) | refine SameConf.bindSnd (s := s0) hx ?_ (fun _ => ?_) | refine SameConf.bindJob (s := s0) hx ?_ (fun _ => ?_) | refine SameConf.bindRes (s := s0) hx ?_ (fun _ => ?_) | (refine SameConf.isFaults x ?_; subst hx) | skip)
    | apply State.drawWords_conf | apply State.runJob_conf | apply JobResult.finish_conf | apply SameConf.ite | apply SameConf.foldl
    | (simp only [SameConf.mk_iff]; apply SameConf.parts) | apply SameConf.iteFst | apply SameConf.iteSnd | apply SameConf.iteJob | apply SameConf.foldlJob
    | refine SameConf.sndEq (by assumption) ?_ | split | dsimp only

theorem execCodebookUpd_conf {s0 : State} (q : Nat) (i : Nat) {s : State} (hs : SameConf s0 s) :
    SameConfR s0 (execCodebookUpd q i s) := by
  unfold execCodebookUpd
  repeat' with_reducible first
    | assumption | intro _ | apply State.runBook_conf | apply State.dispatch_conf | apply State.drawing_conf | apply SameConfR.next | exact SameConfR.fault
    | exact SameConfR.refused | apply SameConfR.onUnit | apply SameConfR.ite | apply SameConf.ite | apply SameConf.foldl | (simp only [SameConf.mk_iff]; apply SameConf.parts)
    | split | dsimp only

theorem execConvert_conf {s0 : State} (q : Nat) (i : Nat) (stop : Option Nat) {s : State} (hs : SameConf s0 s) :
    SameConfR s0 (execConvert q i stop s) := by
  unfold execConvert
  repeat' with_reducible first
    | assumption | intro _ | apply State.convCommand_conf | apply SameConfR.next | exact SameConfR.fault | exact SameConfR.refused | apply SameConfR.onUnit
    | apply SameConfR.ite | apply SameConf.ite | apply SameConf.foldl | (simp only [SameConf.mk_iff]; apply SameConf.parts) | split | dsimp only

end Sys2Proof.Machine
end

