-- ==== Sys2Proof/Laws/SameConfAttention.lean ====
section
/-!
SUPPORT. What the operations of Machine/Attention.lean leave alone (Laws/SameConf.lean).
-/

set_option linter.all false

namespace Sys2Proof.Machine

theorem State.runAttn_conf {s0 : State} {s : State} (q : Nat) (i : Nat) (stop : Option Nat) (fl : Flight) (d : List Byte) (hs : SameConf s0 s) :
    SameConf s0 (State.runAttn s q i stop fl d) := by
  unfold State.runAttn
  repeat' with_reducible first
    | assumption | intro _
    | (extract_lets +onlyGivenNames x; clear_value (hx : x = _); first | refine SameConf.bind (s := s0) hx ?_ (fun _ => ?_) | refine SameConf.bindSnd (s := s0) hx ?_ (fun _ => ?_) | refine SameConf.bindJob (s := s0) hx ?_ (fun _ => ?_) | refine SameConf.bindRes (s := s0) hx ?_ (fun _ => ?_) | (refine SameConf.isFaults x ?_; subst hx) | skip)
    | apply JobResult.withPls_conf | apply State.draw_conf | apply State.countCycles_conf | apply State.drawWords_conf | apply State.modCore_conf
    | apply State.countN_conf | apply State.arrayActivity_conf | apply State.runJob_conf | apply JobResult.finish_conf | apply State.streamed_conf
    | apply SameConf.ite | apply SameConf.foldl | (simp only [SameConf.mk_iff]; apply SameConf.parts) | apply SameConf.iteFst | apply SameConf.iteSnd | apply SameConf.iteJob
    | apply SameConf.foldlJob | refine SameConf.sndEq (by assumption) ?_ | split | dsimp only

theorem execAttnFwd_conf {s0 : State} (q : Nat) (i : Nat) (stop : Option Nat) {s : State} (hs : SameConf s0 s) :
    SameConfR s0 (execAttnFwd q i stop s) := by
  unfold execAttnFwd
  repeat' with_reducible first
    | assumption | intro _ | apply State.runAttn_conf | apply State.withDesc_conf | apply SameConfR.next | exact SameConfR.fault | exact SameConfR.refused
    | apply SameConfR.onUnit | apply SameConfR.ite | apply SameConf.ite | apply SameConf.foldl | (simp only [SameConf.mk_iff]; apply SameConf.parts) | split | dsimp only

theorem execAttnBwd_conf {s0 : State} (q : Nat) (i : Nat) (stop : Option Nat) {s : State} (hs : SameConf s0 s) :
    SameConfR s0 (execAttnBwd q i stop s) := by
  unfold execAttnBwd
  repeat' with_reducible first
    | assumption | intro _ | apply State.drawing_conf | apply State.runAttn_conf | apply State.withDesc_conf | apply SameConfR.next | exact SameConfR.fault
    | exact SameConfR.refused | apply SameConfR.onUnit | apply SameConfR.ite | apply SameConf.ite | apply SameConf.foldl | (simp only [SameConf.mk_iff]; apply SameConf.parts)
    | split | dsimp only

end Sys2Proof.Machine
end

