-- ==== Sys2Proof/Laws/SameConfTrain.lean ====
section
/-!
SUPPORT. What the operations of Machine/Train.lean leave alone (Laws/SameConf.lean).
-/

set_option linter.all false

namespace Sys2Proof.Machine

theorem State.runCompress_conf {s0 : State} {t : State} (q : Nat) (i : Nat) (stop : Option Nat) (fl : Flight) (ht : SameConf s0 t) :
    SameConf s0 (State.runCompress t q i stop fl) := by
  unfold State.runCompress
  repeat' with_reducible first
    | assumption | intro _
    | (extract_lets +onlyGivenNames x; clear_value (hx : x = _); first | refine SameConf.bind (s := s0) hx ?_ (fun _ => ?_) | refine SameConf.bindJob (s := s0) hx ?_ (fun _ => ?_) | refine SameConf.bindRes (s := s0) hx ?_ (fun _ => ?_) | (refine SameConf.isFaults x ?_; subst hx) | skip)
    | apply State.runJob_conf | apply JobResult.finish_conf | apply SameConf.ite | apply SameConf.foldl | (simp only [SameConf.mk_iff]; apply SameConf.parts)
    | apply SameConf.iteJob | apply SameConf.foldlJob | split | dsimp only

theorem execCompress_conf {s0 : State} (q : Nat) (i : Nat) (stop : Option Nat) {s : State} (hs : SameConf s0 s) :
    SameConfR s0 (execCompress q i stop s) := by
  unfold execCompress
  repeat' with_reducible first
    | assumption | intro _ | apply State.dispatch_conf | apply State.runCompress_conf | apply SameConfR.next | exact SameConfR.fault | exact SameConfR.refused
    | apply SameConfR.onUnit | apply SameConfR.ite | apply SameConf.ite | apply SameConf.foldl | (simp only [SameConf.mk_iff]; apply SameConf.parts) | split | dsimp only

theorem State.runOpt_conf {s0 : State} {s : State} (q : Nat) (i : Nat) (stop : Option Nat) (fl : Flight) (d : List Byte) (hs : SameConf s0 s) :
    SameConf s0 (State.runOpt s q i stop fl d) := by
  unfold State.runOpt
  repeat' with_reducible first
    | assumption | intro _
    | (extract_lets +onlyGivenNames x; clear_value (hx : x = _); first | refine SameConf.bind (s := s0) hx ?_ (fun _ => ?_) | refine SameConf.bindSnd (s := s0) hx ?_ (fun _ => ?_) | refine SameConf.bindJob (s := s0) hx ?_ (fun _ => ?_) | refine SameConf.bindRes (s := s0) hx ?_ (fun _ => ?_) | (refine SameConf.isFaults x ?_; subst hx) | skip)
    | apply State.drawWords_conf | apply State.runJob_conf | apply JobResult.finish_conf | apply SameConf.ite | apply SameConf.foldl
    | (simp only [SameConf.mk_iff]; apply SameConf.parts) | apply SameConf.iteFst | apply SameConf.iteSnd | apply SameConf.iteJob | apply SameConf.foldlJob
    | refine SameConf.sndEq (by assumption) ?_ | split | dsimp only

theorem JobResult.withBad_conf {s0 : State} {r : JobResult} (bad : Option (Nat × Nat)) (hr : SameConf s0 r.st) :
    SameConf s0 (JobResult.withBad r bad).st := by
  unfold JobResult.withBad
  repeat' with_reducible first
    | assumption | intro _ | apply State.draw_conf | apply State.voidBlocks_conf | apply SameConf.ite | apply SameConf.foldl
    | (simp only [SameConf.mk_iff]; apply SameConf.parts) | apply SameConf.iteFst | apply SameConf.iteSnd | apply SameConf.iteJob | apply SameConf.foldlJob
    | refine SameConf.sndEq (by assumption) ?_ | split | dsimp only

theorem State.runDecompress_conf {s0 : State} {t : State} (q : Nat) (i : Nat) (stop : Option Nat) (fl : Flight) (ht : SameConf s0 t) :
    SameConf s0 (State.runDecompress t q i stop fl) := by
  unfold State.runDecompress
  repeat' with_reducible first
    | assumption | intro _
    | (extract_lets +onlyGivenNames x; clear_value (hx : x = _); first | refine SameConf.bind (s := s0) hx ?_ (fun _ => ?_) | refine SameConf.bindSnd (s := s0) hx ?_ (fun _ => ?_) | refine SameConf.bindJob (s := s0) hx ?_ (fun _ => ?_) | refine SameConf.bindRes (s := s0) hx ?_ (fun _ => ?_) | (refine SameConf.isFaults x ?_; subst hx) | skip)
    | apply JobResult.withBad_conf | apply State.draw_conf | apply State.runJob_conf | apply JobResult.finish_conf | apply SameConf.ite | apply SameConf.foldl
    | (simp only [SameConf.mk_iff]; apply SameConf.parts) | apply SameConf.iteFst | apply SameConf.iteSnd | apply SameConf.iteJob | apply SameConf.foldlJob
    | refine SameConf.sndEq (by assumption) ?_ | split | dsimp only

theorem execDecompress_conf {s0 : State} (q : Nat) (i : Nat) (stop : Option Nat) {s : State} (hs : SameConf s0 s) :
    SameConfR s0 (execDecompress q i stop s) := by
  unfold execDecompress
  repeat' with_reducible first
    | assumption | intro _ | apply State.dispatch_conf | apply State.runDecompress_conf | apply SameConfR.next | exact SameConfR.fault | exact SameConfR.refused
    | apply SameConfR.onUnit | apply SameConfR.ite | apply SameConf.ite | apply SameConf.foldl | (simp only [SameConf.mk_iff]; apply SameConf.parts) | split | dsimp only

theorem execOptStep_conf {s0 : State} (q : Nat) (i : Nat) (stop : Option Nat) {s : State} (hs : SameConf s0 s) :
    SameConfR s0 (execOptStep q i stop s) := by
  unfold execOptStep
  repeat' with_reducible first
    | assumption | intro _ | apply State.runOpt_conf | apply State.drawing_conf | apply State.withDesc_conf | apply SameConfR.next | exact SameConfR.fault
    | exact SameConfR.refused | apply SameConfR.onUnit | apply SameConfR.ite | apply SameConf.ite | apply SameConf.foldl | (simp only [SameConf.mk_iff]; apply SameConf.parts)
    | split | dsimp only

end Sys2Proof.Machine
end

