-- ==== Sys2Proof/Laws/SameConfHostBus.lean ====
section
/-!
SUPPORT. What the operations of Machine/HostBus.lean leave alone (Laws/SameConf.lean).
-/

set_option linter.all false

namespace Sys2Proof.Machine

theorem State.writeContext_conf {s0 : State} {s : State} (f : Nat) (w : Nat) (val : Nat) (mask : Nat) (hs : SameConf s0 s) :
    SameConf s0 (State.writeContext s f w val mask) := by
  unfold State.writeContext
  repeat' with_reducible first
    | assumption | intro _
    | (extract_lets +onlyGivenNames x; clear_value (hx : x = _); first | refine SameConf.bind (s := s0) hx ?_ (fun _ => ?_) | (refine SameConf.isFaults x ?_; subst hx) | skip)
    | apply State.setQueue_conf | apply SameConf.ite | apply SameConf.foldl | (simp only [SameConf.mk_iff]; apply SameConf.parts) | split | dsimp only

theorem State.plainReg_conf {s0 : State} {s : State} (k : Nat) (val : Nat) (mask : Nat) (hs : SameConf s0 s) :
    SameConf s0 (State.plainReg s k val mask) := by
  unfold State.plainReg
  repeat' with_reducible first
    | assumption | intro _ | apply State.setReg_conf | apply SameConf.ite | apply SameConf.foldl | (simp only [SameConf.mk_iff]; apply SameConf.parts) | split
    | dsimp only

theorem State.writeOwn_conf {s0 : State} {s : State} (f : Nat) (o : Nat) (val : Nat) (mask : Nat) (hs : SameConf s0 s) :
    SameConf s0 (State.writeOwn s f o val mask) := by
  unfold State.writeOwn
  repeat' with_reducible first
    | assumption | intro _
    | (extract_lets +onlyGivenNames x; clear_value (hx : x = _); first | refine SameConf.bind (s := s0) hx ?_ (fun _ => ?_) | (refine SameConf.isFaults x ?_; subst hx) | skip)
    | apply State.setMsix_conf | apply State.plainReg_conf | apply SameConf.ite | apply SameConf.foldl | (simp only [SameConf.mk_iff]; apply SameConf.parts) | split
    | dsimp only

theorem State.writeQueueBlock_conf {s0 : State} {s : State} (f : Nat) (o : Nat) (val : Nat) (mask : Nat) (hs : SameConf s0 s) :
    SameConf s0 (State.writeQueueBlock s f o val mask) := by
  unfold State.writeQueueBlock
  repeat' with_reducible first
    | assumption | intro _ | apply State.plainReg_conf | apply State.dlqFullBit_conf | apply State.qcmdErr_conf | apply State.writeContext_conf
    | apply SameConf.ite | apply SameConf.foldl | (simp only [SameConf.mk_iff]; apply SameConf.parts) | split | dsimp only

theorem State.writeWindow_conf {s0 : State} {s : State} (k : Nat) (o : Nat) (val : Nat) (mask : Nat) (hs : SameConf s0 s) :
    SameConf s0 (State.writeWindow s k o val mask) := by
  unfold State.writeWindow
  repeat' with_reducible first
    | assumption | intro _
    | (extract_lets +onlyGivenNames x; clear_value (hx : x = _); first | refine SameConf.bind (s := s0) hx ?_ (fun _ => ?_) | (refine SameConf.isFaults x ?_; subst hx) | skip)
    | apply State.plainReg_conf | apply State.modSlot_conf | apply State.applyPfBuf_conf | apply SameConf.ite | apply SameConf.foldl
    | (simp only [SameConf.mk_iff]; apply SameConf.parts) | split | dsimp only

theorem State.writeKey_conf {s0 : State} {s : State} (k : Nat) (val : Nat) (mask : Nat) (hs : SameConf s0 s) :
    SameConf s0 (State.writeKey s k val mask) := by
  unfold State.writeKey
  repeat' with_reducible first
    | assumption | intro _
    | (extract_lets +onlyGivenNames x; clear_value (hx : x = _); first | refine SameConf.bind (s := s0) hx ?_ (fun _ => ?_) | (refine SameConf.isFaults x ?_; subst hx) | skip)
    | apply State.plainReg_conf | apply State.setFld_conf | apply State.writeOwn_conf | apply State.writeQueueBlock_conf | apply State.writeWindow_conf
    | apply SameConf.ite | apply SameConf.foldl | (simp only [SameConf.mk_iff]; apply SameConf.parts) | split | dsimp only

theorem execRegisterWrite_conf {s0 : State} (f : Nat) (off : Nat) (n : Nat) (val : Nat) {s : State} (hs : SameConf s0 s) :
    SameConfR s0 (execRegisterWrite f off n val s) := by
  unfold execRegisterWrite
  repeat' with_reducible first
    | assumption | intro _ | apply State.writeKey_conf | apply onUnit_conf | apply State.count_conf | apply SameConfR.next | exact SameConfR.fault
    | exact SameConfR.refused | apply SameConfR.onUnit | apply SameConfR.ite | apply SameConf.ite | apply SameConf.foldl | (simp only [SameConf.mk_iff]; apply SameConf.parts)
    | split | dsimp only

end Sys2Proof.Machine
end

