-- ==== Sys2Proof/Laws/SameConfBoundary.lean ====
section
/-!
SUPPORT. What the operations of Machine/Boundary.lean leave alone (Laws/SameConf.lean).
-/

set_option linter.all false

namespace Sys2Proof.Machine

theorem State.thermalCycle_conf {s0 : State} {s : State} (hot : Int) (hs : SameConf s0 s) :
    SameConf s0 (State.thermalCycle s hot) := by
  unfold State.thermalCycle
  repeat' with_reducible first
    | assumption | intro _
    | (extract_lets +onlyGivenNames x; clear_value (hx : x = _); first | refine SameConf.bind (s := s0) hx ?_ (fun _ => ?_) | (refine SameConf.isFaults x ?_; subst hx) | skip)
    | apply State.setFld_conf | apply SameConf.ite | apply SameConf.foldl | (simp only [SameConf.mk_iff]; apply SameConf.parts) | split | dsimp only

theorem State.throttleBeat_conf {s0 : State} {s : State} (hs : SameConf s0 s) :
    SameConf s0 (State.throttleBeat s) := by
  unfold State.throttleBeat
  repeat' with_reducible first
    | assumption | intro _ | apply State.count_conf | apply SameConf.ite | apply SameConf.foldl | (simp only [SameConf.mk_iff]; apply SameConf.parts) | split
    | dsimp only

theorem State.railMillisecond_conf {s0 : State} {s : State} (hs : SameConf s0 s) :
    SameConf s0 (State.railMillisecond s) := by
  unfold State.railMillisecond
  repeat' with_reducible first
    | assumption | intro _
    | (extract_lets +onlyGivenNames x; clear_value (hx : x = _); first | refine SameConf.bind (s := s0) hx ?_ (fun _ => ?_) | (refine SameConf.isFaults x ?_; subst hx) | skip)
    | apply State.setFld_conf | apply State.tally_conf | apply SameConf.ite | apply SameConf.foldl | (simp only [SameConf.mk_iff]; apply SameConf.parts) | split
    | dsimp only

theorem State.readRail_conf {s0 : State} {s : State} (r : Nat) (i : Nat) (v : Nat) (hs : SameConf s0 s) :
    SameConf s0 (State.readRail s r i v) := by
  unfold State.readRail
  repeat' with_reducible first
    | assumption | intro _
    | (extract_lets +onlyGivenNames x; clear_value (hx : x = _); first | refine SameConf.bind (s := s0) hx ?_ (fun _ => ?_) | (refine SameConf.isFaults x ?_; subst hx) | skip)
    | apply State.setFld_conf | apply State.count_conf | apply SameConf.ite | apply SameConf.foldl | (simp only [SameConf.mk_iff]; apply SameConf.parts) | split
    | dsimp only

theorem State.readRails_conf {s0 : State} {s : State} (amps : List Nat) (volts : List Nat) (hs : SameConf s0 s) :
    SameConf s0 (State.readRails s amps volts) := by
  unfold State.readRails
  repeat' with_reducible first
    | assumption | intro _
    | (extract_lets +onlyGivenNames x; clear_value (hx : x = _); first | refine SameConf.bind (s := s0) hx ?_ (fun _ => ?_) | (refine SameConf.isFaults x ?_; subst hx) | skip)
    | apply State.railMillisecond_conf | apply State.readRail_conf | apply SameConf.ite | apply SameConf.foldl | (simp only [SameConf.mk_iff]; apply SameConf.parts)
    | split | dsimp only

theorem State.snapBuffer_conf {s0 : State} {s : State} (hs : SameConf s0 s) :
    SameConf s0 (State.snapBuffer s) := by
  unfold State.snapBuffer
  repeat' with_reducible first
    | assumption | intro _
    | (extract_lets +onlyGivenNames x; clear_value (hx : x = _); first | refine SameConf.bind (s := s0) hx ?_ (fun _ => ?_) | (refine SameConf.isFaults x ?_; subst hx) | skip)
    | apply State.setReg_conf | apply State.setFld_conf | apply SameConf.ite | apply SameConf.foldl | (simp only [SameConf.mk_iff]; apply SameConf.parts) | split
    | dsimp only

theorem State.readSlack_conf {s0 : State} {s : State} (m : Nat) (v : Int) (hs : SameConf s0 s) :
    SameConf s0 (State.readSlack s m v) := by
  unfold State.readSlack
  repeat' with_reducible first
    | assumption | intro _
    | (extract_lets +onlyGivenNames x; clear_value (hx : x = _); first | refine SameConf.bind (s := s0) hx ?_ (fun _ => ?_) | (refine SameConf.isFaults x ?_; subst hx) | skip)
    | apply State.setFld_conf | apply State.event_conf | apply SameConf.ite | apply SameConf.foldl | (simp only [SameConf.mk_iff]; apply SameConf.parts) | split
    | dsimp only

theorem State.readSlacks_conf {s0 : State} {s : State} (l : List Int) (hs : SameConf s0 s) :
    SameConf s0 (State.readSlacks s l) := by
  unfold State.readSlacks
  repeat' with_reducible first
    | assumption | intro _ | apply State.readSlack_conf | apply SameConf.ite | apply SameConf.foldl | (simp only [SameConf.mk_iff]; apply SameConf.parts) | split
    | dsimp only

theorem State.flagBeat_conf {s0 : State} {s : State} (hs : SameConf s0 s) :
    SameConf s0 (State.flagBeat s) := by
  unfold State.flagBeat
  repeat' with_reducible first
    | assumption | intro _
    | (extract_lets +onlyGivenNames x; clear_value (hx : x = _); first | refine SameConf.bind (s := s0) hx ?_ (fun _ => ?_) | (refine SameConf.isFaults x ?_; subst hx) | skip)
    | apply SameConf.ite | apply SameConf.foldl | (simp only [SameConf.mk_iff]; apply SameConf.parts) | split | dsimp only

theorem State.snapReports_conf {s0 : State} {s : State} (hs : SameConf s0 s) :
    SameConf s0 (State.snapReports s) := by
  unfold State.snapReports
  repeat' with_reducible first
    | assumption | intro _
    | (extract_lets +onlyGivenNames x; clear_value (hx : x = _); first | refine SameConf.bind (s := s0) hx ?_ (fun _ => ?_) | (refine SameConf.isFaults x ?_; subst hx) | skip)
    | apply SameConf.ite | apply SameConf.foldl | (simp only [SameConf.mk_iff]; apply SameConf.parts) | split | dsimp only

theorem State.runMaxClr_conf {s0 : State} {s : State} (hs : SameConf s0 s) :
    SameConf s0 (State.runMaxClr s) := by
  unfold State.runMaxClr
  repeat' with_reducible first
    | assumption | intro _
    | (extract_lets +onlyGivenNames x; clear_value (hx : x = _); first | refine SameConf.bind (s := s0) hx ?_ (fun _ => ?_) | (refine SameConf.isFaults x ?_; subst hx) | skip)
    | apply State.setFld_conf | apply SameConf.ite | apply SameConf.foldl | (simp only [SameConf.mk_iff]; apply SameConf.parts) | split | dsimp only

theorem State.readTemp_conf {s0 : State} {s : State} (i : Nat) (t : Int) (hs : SameConf s0 s) :
    SameConf s0 (State.readTemp s i t) := by
  unfold State.readTemp
  repeat' with_reducible first
    | assumption | intro _
    | (extract_lets +onlyGivenNames x; clear_value (hx : x = _); first | refine SameConf.bind (s := s0) hx ?_ (fun _ => ?_) | (refine SameConf.isFaults x ?_; subst hx) | skip)
    | apply State.setFld_conf | apply SameConf.ite | apply SameConf.foldl | (simp only [SameConf.mk_iff]; apply SameConf.parts) | split | dsimp only

theorem State.testBeat_conf {s0 : State} {s : State} (hs : SameConf s0 s) :
    SameConf s0 (State.testBeat s) := by
  unfold State.testBeat
  repeat' with_reducible first
    | assumption | intro _ | apply State.count_conf | apply SameConf.ite | apply SameConf.foldl | (simp only [SameConf.mk_iff]; apply SameConf.parts) | split
    | dsimp only

theorem State.readGovernors_conf {s0 : State} {s : State} (l : List Nat) (hs : SameConf s0 s) :
    SameConf s0 (State.readGovernors s l) := by
  unfold State.readGovernors
  repeat' with_reducible first
    | assumption | intro _ | apply State.count_conf | apply SameConf.ite | apply SameConf.foldl | (simp only [SameConf.mk_iff]; apply SameConf.parts) | split
    | dsimp only

theorem State.readTemps_conf {s0 : State} {s : State} (l : List Int) (hs : SameConf s0 s) :
    SameConf s0 (State.readTemps s l) := by
  unfold State.readTemps
  repeat' with_reducible first
    | assumption | intro _ | apply State.readTemp_conf | apply State.thermalCycle_conf | apply SameConf.ite | apply SameConf.foldl
    | (simp only [SameConf.mk_iff]; apply SameConf.parts) | split | dsimp only

theorem State.readEyes_conf {s0 : State} {s : State} (l : List (Nat × Nat × Nat)) (hs : SameConf s0 s) :
    SameConf s0 (State.readEyes s l) := by
  unfold State.readEyes
  repeat' with_reducible first
    | assumption | intro _
    | (extract_lets +onlyGivenNames x; clear_value (hx : x = _); first | refine SameConf.bind (s := s0) hx ?_ (fun _ => ?_) | (refine SameConf.isFaults x ?_; subst hx) | skip)
    | apply State.setFld_conf | apply SameConf.ite | apply SameConf.foldl | (simp only [SameConf.mk_iff]; apply SameConf.parts) | split | dsimp only

theorem State.readRefreshes_conf {s0 : State} {s : State} (l : List (Nat × Nat × Nat)) (hs : SameConf s0 s) :
    SameConf s0 (State.readRefreshes s l) := by
  unfold State.readRefreshes
  repeat' with_reducible first
    | assumption | intro _ | apply State.count_conf | apply SameConf.ite | apply SameConf.foldl | (simp only [SameConf.mk_iff]; apply SameConf.parts) | split
    | dsimp only

theorem State.beaconBeat_conf {s0 : State} {s : State} (hs : SameConf s0 s) :
    SameConf s0 (State.beaconBeat s) := by
  unfold State.beaconBeat
  repeat' with_reducible first
    | assumption | intro _
    | (extract_lets +onlyGivenNames x; clear_value (hx : x = _); first | refine SameConf.bind (s := s0) hx ?_ (fun _ => ?_) | (refine SameConf.isFaults x ?_; subst hx) | skip)
    | apply SameConf.ite | apply SameConf.foldl | (simp only [SameConf.mk_iff]; apply SameConf.parts) | split | dsimp only

end Sys2Proof.Machine
end

