-- ==== Sys2Proof/Laws/SameConfDispatch.lean ====
section
/-!
SUPPORT. A command that `configures` does not list leaves the configuration alone.
-/

namespace Sys2Proof.Machine

/-- A command that `configures` does not list leaves the configuration alone. -/
theorem exec_conf (i : Instr) (hi : configures i = false) (s : State) : SameConfR s (exec i s) := by
  cases i with
  | nop q i => delta exec; exact execNop_conf _ _ (.refl s)
  | fence q i => delta exec; exact execFence_conf _ _ (.refl s)
  | wait q i => delta exec; exact execWait_conf _ _ (.refl s)
  | waitTimeout q i => delta exec; exact execWaitTimeout_conf _ _ (.refl s)
  | signal q i => delta exec; exact execSignal_conf _ _ (.refl s)
  | timer q i => delta exec; exact execTimer_conf _ _ (.refl s)
  | timerExpiry q i => delta exec; exact execTimerExpiry_conf _ _ (.refl s)
  | report q i => delta exec; exact execReport_conf _ _ (.refl s)
  | drainMark q i => delta exec; exact execDrainMark_conf _ _ (.refl s)
  | matmul q i stop => delta exec; exact execMatmul_conf _ _ _ (.refl s)
  | matmulAcc q i stop => delta exec; exact execMatmulAcc_conf _ _ _ (.refl s)
  | attnFwd q i stop => delta exec; exact execAttnFwd_conf _ _ _ (.refl s)
  | attnBwd q i stop => delta exec; exact execAttnBwd_conf _ _ _ (.refl s)
  | bwdIn q i stop => delta exec; exact execBwdIn_conf _ _ _ (.refl s)
  | bwdW q i stop => delta exec; exact execBwdW_conf _ _ _ (.refl s)
  | convert q i stop => delta exec; exact execConvert_conf _ _ _ (.refl s)
  | stats q i stop => delta exec; exact execStats_conf _ _ _ (.refl s)
  | rotate q i stop => delta exec; exact execRotate_conf _ _ _ (.refl s)
  | codebookUpd q i => delta exec; exact execCodebookUpd_conf _ _ (.refl s)
  | vprog q i draws movBad => delta exec; exact execVprog_conf _ _ _ _ (.refl s)
  | optStep q i stop => delta exec; exact execOptStep_conf _ _ _ (.refl s)
  | copy q i stop => delta exec; exact execCopy_conf _ _ _ (.refl s)
  | gather q i stop => delta exec; exact execGather_conf _ _ _ (.refl s)
  | scatter q i stop => delta exec; exact execScatter_conf _ _ _ (.refl s)
  | compress q i stop => delta exec; exact execCompress_conf _ _ _ (.refl s)
  | decompress q i stop => delta exec; exact execDecompress_conf _ _ _ (.refl s)
  | allreduce q i => delta exec; exact execAllreduce_conf _ _ (.refl s)
  | reduceScatter q i => delta exec; exact execReduceScatter_conf _ _ (.refl s)
  | allgather q i => delta exec; exact execAllgather_conf _ _ (.refl s)
  | broadcast q i => delta exec; exact execBroadcast_conf _ _ (.refl s)
  | reduce q i => delta exec; exact execReduce_conf _ _ (.refl s)
  | alltoallv q i => delta exec; exact execAlltoallv_conf _ _ (.refl s)
  | barrier q i => delta exec; exact execBarrier_conf _ _ (.refl s)
  | stepBegin q i => delta exec; exact execStepBegin_conf _ _ (.refl s)
  | stepCommit q i => delta exec; exact execStepCommit_conf _ _ (.refl s)
  | stepCommitSample f => delta exec; exact execStepCommitSample_conf _ (.refl s)
  | stepAbort q i => delta exec; exact execStepAbort_conf _ _ (.refl s)
  | normWatch q i stop => delta exec; exact execNormWatch_conf _ _ _ (.refl s)
  | sample q i stop => delta exec; exact execSample_conf _ _ _ (.refl s)
  | rngSave q i => delta exec; exact execRngSave_conf _ _ (.refl s)
  | rngLoad q i => delta exec; exact execRngLoad_conf _ _ (.refl s)
  | iftRun q i => delta exec; exact execIftRun_conf _ _ (.refl s)
  | sealScan q i => delta exec; exact execSealScan_conf _ _ (.refl s)
  | inject q i => delta exec; exact execInject_conf _ _ (.refl s)
  | ld core thread reg addr size => delta exec; exact execLd_conf _ _ _ _ _ (.refl s)
  | st core thread reg value addr size => delta exec; exact execSt_conf _ _ _ _ _ _ (.refl s)
  | mvLd core thread mvc addr spad len => delta exec; exact execMvLd_conf _ _ _ _ _ _ (.refl s)
  | mvSt core thread mvc addr spad len => delta exec; exact execMvSt_conf _ _ _ _ _ _ (.refl s)
  | mvPf core thread mvc addr len => delta exec; exact execMvPf_conf _ _ _ _ _ (.refl s)
  | mvBulk core thread mvc out addr spad len => delta exec; exact execMvBulk_conf _ _ _ _ _ _ _ (.refl s)
  | waitc core thread mvc v => delta exec; exact execWaitc_conf _ _ _ _ (.refl s)
  | fenceCore core thread => delta exec; exact execFenceCore_conf _ _ (.refl s)
  | fenceCluster core thread => delta exec; exact execFenceCluster_conf _ _ (.refl s)
  | fenceDevice core thread => delta exec; exact execFenceDevice_conf _ _ (.refl s)
  | fenceFabric core thread => delta exec; exact execFenceFabric_conf _ _ (.refl s)
  | semaddRel core thread sem v scope => delta exec; exact execSemaddRel_conf _ _ _ _ _ (.refl s)
  | semwaitAcq core thread sem v scope => delta exec; exact execSemwaitAcq_conf _ _ _ _ _ (.refl s)
  | halt core thread => delta exec; exact execHalt_conf _ _ (.refl s)
  | trace core thread v => delta exec; exact execTrace_conf _ _ _ (.refl s)
  | randU32 core thread lane reg => delta exec; exact execRandU32_conf _ _ _ _ (.refl s)
  | randU core thread lane reg => delta exec; exact execRandU_conf _ _ _ _ (.refl s)
  | randUo core thread lane reg => delta exec; exact execRandUo_conf _ _ _ _ (.refl s)
  | randBern core thread lane reg p => delta exec; exact execRandBern_conf _ _ _ _ _ (.refl s)
  | randNbm core thread lane reg0 reg1 => delta exec; exact execRandNbm_conf _ _ _ _ _ (.refl s)
  | randNtab core thread lane reg => delta exec; exact execRandNtab_conf _ _ _ _ (.refl s)
  | doorbellWrite f q size tail cdone => delta exec; exact execDoorbellWrite_conf _ _ _ _ _ (.refl s)
  | commandFetch q => delta exec; exact execCommandFetch_conf _ (.refl s)
  | notBeforeReached q => delta exec; exact execNotBeforeReached_conf _ (.refl s)
  | sorterGrant => cases hi
  | agePromotion q => delta exec; exact execAgePromotion_conf _ (.refl s)
  | commandComplete q i m withheld => delta exec; exact execCommandComplete_conf _ _ _ _ (.refl s)
  | qmgCancel f q index from_ same => delta exec; exact execQmgCancel_conf _ _ _ _ _ (.refl s)
  | queueEnable f core => delta exec; exact execQueueEnable_conf _ _ (.refl s)
  | queuePause f => delta exec; exact execQueuePause_conf _ (.refl s)
  | queueResume f => delta exec; exact execQueueResume_conf _ (.refl s)
  | queueDisable f => delta exec; exact execQueueDisable_conf _ (.refl s)
  | queueReset f => delta exec; exact execQueueReset_conf _ (.refl s)
  | migrate f core => delta exec; exact execMigrate_conf _ _ (.refl s)
  | migrationDrainDone q => delta exec; exact execMigrationDrainDone_conf _ (.refl s)
  | migrationTimeout q => delta exec; exact execMigrationTimeout_conf _ (.refl s)
  | qmgSemvalWrite f val => delta exec; exact execQmgSemvalWrite_conf _ _ (.refl s)
  | qmgSemadd f val => delta exec; exact execQmgSemadd_conf _ _ (.refl s)
  | dlqBaseWrite f val => delta exec; exact execDlqBaseWrite_conf _ _ (.refl s)
  | tenantEntryWrite f off val => delta exec; exact execTenantEntryWrite_conf _ _ _ (.refl s)
  | assign func tier clear => delta exec; exact execAssign_conf _ _ _ (.refl s)
  | query func tier clear => delta exec; exact execQuery_conf _ _ _ (.refl s)
  | granuleActionDone => delta exec; exact execGranuleActionDone_conf (.refl s)
  | haltClr f => delta exec; exact execHaltClr_conf _ (.refl s)
  | commitFlip f => delta exec; exact execCommitFlip_conf _ (.refl s)
  | commitTimeout f => delta exec; exact execCommitTimeout_conf _ (.refl s)
  | escGrant rail => delta exec; exact execEscGrant_conf _ (.refl s)
  | prebookExpiry q i => delta exec; exact execPrebookExpiry_conf _ _ (.refl s)
  | rampHoldExpiry c => delta exec; exact execRampHoldExpiry_conf _ (.refl s)
  | c1Entry core => delta exec; exact execC1Entry_conf _ (.refl s)
  | c2Entry core => delta exec; exact execC2Entry_conf _ (.refl s)
  | c3Entry core => delta exec; exact execC3Entry_conf _ (.refl s)
  | coreWake core cause => delta exec; exact execCoreWake_conf _ _ (.refl s)
  | wakeComplete core => delta exec; exact execWakeComplete_conf _ (.refl s)
  | spareReady k => delta exec; exact execSpareReady_conf _ (.refl s)
  | beatBoundary r => cases hi
  | beatNowRead ps => delta exec; exact execBeatNowRead_conf _ (.refl s)
  | counterLowRead f off => cases hi
  | ctrClear f off => cases hi
  | timeSyncSend ps => cases hi
  | timeSyncReceive k ps => delta exec; exact execTimeSyncReceive_conf _ _ (.refl s)
  | timeReplyReceive k ps => cases hi
  | trimUpdate => cases hi
  | acquireTimeout => cases hi
  | flitTransmit n => delta exec; exact execFlitTransmit_conf _ (.refl s)
  | flitReceive n flit corr unc syms => delta exec; exact execFlitReceive_conf _ _ _ _ _ (.refl s)
  | nakReceive n => delta exec; exact execNakReceive_conf _ (.refl s)
  | nakRepeat n => delta exec; exact execNakRepeat_conf _ (.refl s)
  | linkSignalDetect n => delta exec; exact execLinkSignalDetect_conf _ (.refl s)
  | trainingComplete n lanes => delta exec; exact execTrainingComplete_conf _ _ (.refl s)
  | trainingTimeout n => delta exec; exact execTrainingTimeout_conf _ (.refl s)
  | trainingRetry n => delta exec; exact execTrainingRetry_conf _ (.refl s)
  | spdm n verdict => delta exec; exact execSpdm_conf _ _ (.refl s)
  | spdmResponseTimeout n => delta exec; exact execSpdmResponseTimeout_conf _ (.refl s)
  | linkpar n p => delta exec; exact execLinkpar_conf _ _ (.refl s)
  | authTimeout n => delta exec; exact execAuthTimeout_conf _ (.refl s)
  | laneFailure n lane => delta exec; exact execLaneFailure_conf _ _ (.refl s)
  | retrainComplete n lanes => delta exec; exact execRetrainComplete_conf _ _ (.refl s)
  | signalLossTimeout n => delta exec; exact execSignalLossTimeout_conf _ (.refl s)
  | linkStall n => delta exec; exact execLinkStall_conf _ (.refl s)
  | mgtStallQuarantine n => delta exec; exact execMgtStallQuarantine_conf _ (.refl s)
  | linkNoisy n => delta exec; exact execLinkNoisy_conf _ (.refl s)
  | linkNoisyClear n => delta exec; exact execLinkNoisyClear_conf _ (.refl s)
  | retrain n => delta exec; exact execRetrain_conf _ (.refl s)
  | release n => delta exec; exact execRelease_conf _ (.refl s)
  | disable n v => delta exec; exact execDisable_conf _ _ (.refl s)
  | messageForward k => delta exec; exact execMessageForward_conf _ (.refl s)
  | rd k => delta exec; exact execRd_conf _ (.refl s)
  | wr k => delta exec; exact execWr_conf _ (.refl s)
  | void_ k => delta exec; exact execVoid_conf _ (.refl s)
  | sig k => delta exec; exact execSig_conf _ (.refl s)
  | rddata k => delta exec; exact execRddata_conf _ (.refl s)
  | wrack k => delta exec; exact execWrack_conf _ (.refl s)
  | sigack k => delta exec; exact execSigack_conf _ (.refl s)
  | remoteRequestTimeout tag => delta exec; exact execRemoteRequestTimeout_conf _ (.refl s)
  | colData k => delta exec; exact execColData_conf _ (.refl s)
  | colPmk k => delta exec; exact execColPmk_conf _ (.refl s)
  | colAck k => delta exec; exact execColAck_conf _ (.refl s)
  | colReady k => delta exec; exact execColReady_conf _ (.refl s)
  | colCtrl k => delta exec; exact execColCtrl_conf _ (.refl s)
  | colSpot k => delta exec; exact execColSpot_conf _ (.refl s)
  | colVerdict k => delta exec; exact execColVerdict_conf _ (.refl s)
  | colDecision k => delta exec; exact execColDecision_conf _ (.refl s)
  | colReadyResend q i => delta exec; exact execColReadyResend_conf _ _ (.refl s)
  | chunkResend q i => delta exec; exact execChunkResend_conf _ _ (.refl s)
  | collectiveTimeout q i => delta exec; exact execCollectiveTimeout_conf _ _ (.refl s)
  | powerSharePeriod => delta exec; exact execPowerSharePeriod_conf (.refl s)
  | power k => delta exec; exact execPower_conf _ (.refl s)
  | gets l k => delta exec; exact execGets_conf _ _ (.refl s)
  | getm l k => delta exec; exact execGetm_conf _ _ (.refl s)
  | upg l k => delta exec; exact execUpg_conf _ _ (.refl s)
  | readnc l k => delta exec; exact execReadnc_conf _ _ (.refl s)
  | writenc l k => delta exec; exact execWritenc_conf _ _ (.refl s)
  | putm l k => delta exec; exact execPutm_conf _ _ (.refl s)
  | pute l k => delta exec; exact execPute_conf _ _ (.refl s)
  | puts l k => delta exec; exact execPuts_conf _ _ (.refl s)
  | snps l k => delta exec; exact execSnps_conf _ _ (.refl s)
  | snpm l k => delta exec; exact execSnpm_conf _ _ (.refl s)
  | snpinv l k => delta exec; exact execSnpinv_conf _ _ (.refl s)
  | snprd l k => delta exec; exact execSnprd_conf _ _ (.refl s)
  | datas l k => delta exec; exact execDatas_conf _ _ (.refl s)
  | datae l k => delta exec; exact execDatae_conf _ _ (.refl s)
  | datam l k => delta exec; exact execDatam_conf _ _ (.refl s)
  | ack l k => delta exec; exact execAck_conf _ _ (.refl s)
  | wback l k => delta exec; exact execWback_conf _ _ (.refl s)
  | invack l k => delta exec; exact execInvack_conf _ _ (.refl s)
  | snpdata l k => delta exec; exact execSnpdata_conf _ _ (.refl s)
  | snpack l k => delta exec; exact execSnpack_conf _ _ (.refl s)
  | miss l k => delta exec; exact execMiss_conf _ _ (.refl s)
  | missPutPending l k => delta exec; exact execMissPutPending_conf _ _ (.refl s)
  | snoopTimeout l k => delta exec; exact execSnoopTimeout_conf _ _ (.refl s)
  | dirAgeWarn l => delta exec; exact execDirAgeWarn_conf _ (.refl s)
  | scrubPass k corrected lost => delta exec; exact execScrubPass_conf _ _ _ (.refl s)
  | bankCopyComplete k j => delta exec; exact execBankCopyComplete_conf _ _ (.refl s)
  | hbmTempReading temps => delta exec; exact execHbmTempReading_conf _ (.refl s)
  | hotChannel c => delta exec; exact execHotChannel_conf _ (.refl s)
  | apply f k => delta exec; exact execApply_conf _ _ (.refl s)
  | flush f k => delta exec; exact execFlush_conf _ _ (.refl s)
  | fcpActionDone => delta exec; exact execFcpActionDone_conf (.refl s)
  | testMode v => delta exec; exact execTestMode_conf _ (.refl s)
  | start c val => delta exec; exact execStart_conf _ _ (.refl s)
  | stop c => delta exec; exact execStop_conf _ (.refl s)
  | tgDone c mism => delta exec; exact execTgDone_conf _ _ (.refl s)
  | iftStart => delta exec; exact execIftStart_conf (.refl s)
  | iftForced k slot => delta exec; exact execIftForced_conf _ _ (.refl s)
  | iftComplete pass chain => delta exec; exact execIftComplete_conf _ _ (.refl s)
  | coreHang c => delta exec; exact execCoreHang_conf _ (.refl s)
  | hubClrst mask => cases hi
  | clusterResetDone => cases hi
  | pwrGoodRise nodeId bootSel => cases hi
  | bootStepComplete => cases hi
  | bootTimeout => cases hi
  | pwrGoodFall n => cases hi
  | perstN => cases hi
  | hotReset => cases hi
  | flr f => cases hi
  | pfFlr => cases hi
  | vfEnableClear => cases hi
  | powerLoss n => cases hi
  | flowOkFall ps => delta exec; exact execFlowOkFall_conf _ (.refl s)
  | flowStop ps => delta exec; exact execFlowStop_conf _ (.refl s)
  | thermalTrip => cases hi
  | droop d depth ps => delta exec; exact execDroop_conf _ _ _ (.refl s)
  | droopHoldExpiry cluster ps => delta exec; exact execDroopHoldExpiry_conf _ _ (.refl s)
  | droopRestoreStep cluster ps => delta exec; exact execDroopRestoreStep_conf _ _ (.refl s)
  | droopStorm die => delta exec; exact execDroopStorm_conf _ (.refl s)
  | droopVoltageReturn die => delta exec; exact execDroopVoltageReturn_conf _ (.refl s)
  | rqAck rail => delta exec; exact execRqAck_conf _ (.refl s)
  | rqAckTimeout rail => delta exec; exact execRqAckTimeout_conf _ (.refl s)
  | railFault r => cases hi
  | opportunisticDecision die => delta exec; exact execOpportunisticDecision_conf _ (.refl s)
  | capUpdate => delta exec; exact execCapUpdate_conf (.refl s)
  | thermalStateEval => delta exec; exact execThermalStateEval_conf (.refl s)
  | critStep die => delta exec; exact execCritStep_conf _ (.refl s)
  | watchdogReset p => cases hi
  | processorReturn p => cases hi
  | controllerAbsent p => delta exec; exact execControllerAbsent_conf _ (.refl s)
  | odRead tr => delta exec; exact execOdRead_conf _ (.refl s)
  | odWrite tr => cases hi
  | odCommit tr => delta exec; exact execOdCommit_conf _ (.refl s)
  | applyNow tr => delta exec; exact execApplyNow_conf _ (.refl s)
  | defaults tr => delta exec; exact execDefaults_conf _ (.refl s)
  | journalBatchPersisted fails => cases hi
  | compactionCopy => delta exec; exact execCompactionCopy_conf (.refl s)
  | tokenRefill => delta exec; exact execTokenRefill_conf (.refl s)
  | go val => delta exec; exact execGo_conf _ (.refl s)
  | single id data => delta exec; exact execSingle_conf _ _ (.refl s)
  | first id data => delta exec; exact execFirst_conf _ _ (.refl s)
  | consec id data => delta exec; exact execConsec_conf _ _ (.refl s)
  | flow id data => delta exec; exact execFlow_conf _ _ (.refl s)
  | canTransferTimeout => delta exec; exact execCanTransferTimeout_conf (.refl s)
  | mctpOdRequest i3c src tag body => delta exec; exact execMctpOdRequest_conf _ _ _ _ (.refl s)
  | mctpControl i3c src body => delta exec; exact execMctpControl_conf _ _ _ (.refl s)
  | getMeasurements i3c src body => delta exec; exact execGetMeasurements_conf _ _ _ (.refl s)
  | healthBeacon => delta exec; exact execHealthBeacon_conf (.refl s)
  | serviceLogEventWrite => delta exec; exact execServiceLogEventWrite_conf (.refl s)
  | hourlyDigest => delta exec; exact execHourlyDigest_conf (.refl s)
  | marginSweep k => delta exec; exact execMarginSweep_conf _ (.refl s)
  | marginSweepComplete k slacks => delta exec; exact execMarginSweepComplete_conf _ _ (.refl s)
  | telEvselWrite k n val => delta exec; exact execTelEvselWrite_conf _ _ _ (.refl s)
  | snapGo g => delta exec; exact execSnapGo_conf _ (.refl s)
  | maxclr => delta exec; exact execMaxclr_conf (.refl s)
  | traceFlush k => delta exec; exact execTraceFlush_conf _ (.refl s)
  | traceStart k => delta exec; exact execTraceStart_conf _ (.refl s)
  | dlBegin tr => cases hi
  | dlData tr => cases hi
  | dlFrom tr => delta exec; exact execDlFrom_conf _ (.refl s)
  | dlAbort tr => delta exec; exact execDlAbort_conf _ (.refl s)
  | verify tr => delta exec; exact execVerify_conf _ (.refl s)
  | verifyComplete => delta exec; exact execVerifyComplete_conf (.refl s)
  | activate tr => delta exec; exact execActivate_conf _ (.refl s)
  | activateQuiesced => cases hi
  | quiesceTimeout => delta exec; exact execQuiesceTimeout_conf (.refl s)
  | handoffResume ok => cases hi
  | confirm tr => delta exec; exact execConfirm_conf _ (.refl s)
  | autoConfirm => delta exec; exact execAutoConfirm_conf (.refl s)
  | reject tr => delta exec; exact execReject_conf _ (.refl s)
  | bar2Read f o n => delta exec; exact execBar2Read_conf _ _ _ (.refl s)
  | bar2Write f o data => delta exec; exact execBar2Write_conf _ _ _ (.refl s)
  | hostCompletion tag status poison data => delta exec; exact execHostCompletion_conf _ _ _ _ (.refl s)
  | hostCompletionTimeout tag => delta exec; exact execHostCompletionTimeout_conf _ (.refl s)
  | msixUnmask f v => delta exec; exact execMsixUnmask_conf _ _ (.refl s)
  | msixHoldoffExpiry f v => delta exec; exact execMsixHoldoffExpiry_conf _ _ (.refl s)
  | pcieConfigAccess f op => cases hi
  | registerWrite f off n val => delta exec; exact execRegisterWrite_conf _ _ _ _ (.refl s)
  | perstNRise => cases hi
  | flowOkRise ps => delta exec; exact execFlowOkRise_conf _ (.refl s)
  | sleepEntryComplete core => delta exec; exact execSleepEntryComplete_conf _ (.refl s)
  | memoryResponse home a b => delta exec; exact execMemoryResponse_conf _ _ _ (.refl s)
  | flashOperationComplete ok => cases hi
  | pcRetrainComplete c ok hit => delta exec; exact execPcRetrainComplete_conf _ _ _ (.refl s)
  | errorCheckAndScrub a => delta exec; exact execErrorCheckAndScrub_conf _ (.refl s)
  | tck tms tdi trstN => cases hi
  | spdmOverMctp i3c src body => delta exec; exact execSpdmOverMctp_conf _ _ _ (.refl s)

end Sys2Proof.Machine
end

