-- ==== Sys2Proof/Laws/SameMemBoot.lean ====
section
/-!
SUPPORT. What the operations of Machine/Boot.lean leave alone (Laws/SameMem.lean).
-/

set_option linter.all false

namespace Sys2Proof.Machine

theorem State.bootStep4_mem {s0 : State} {s : State} (hs : SameMem s0 s) :
    SameMem s0 (State.bootStep4 s) := by
  unfold State.bootStep4
  repeat' with_reducible first
    | assumption | intro _
    | (extract_lets +onlyGivenNames x; clear_value (hx : x = _); first | refine SameMem.bind (s := s0) hx ?_ (fun _ => ?_) | (refine SameMem.isFaults x ?_; subst hx) | skip)
    | apply State.askSys_mem | apply SameMem.ite | apply SameMem.foldl | (simp only [SameMem.mk_iff]; apply SameMem.parts) | split | dsimp only

theorem execPerstNRise_mem {s0 : State} {s : State} (hs : SameMem s0 s) :
    SameMemR s0 (execPerstNRise s) := by
  unfold execPerstNRise
  repeat' with_reducible first
    | assumption | intro _
    | (extract_lets +onlyGivenNames x; clear_value (hx : x = _); first | refine SameMem.bind (s := s0) hx ?_ (fun _ => ?_) | (refine SameMem.isFaults x ?_; subst hx) | skip)
    | apply SameMemR.next | exact SameMemR.fault | exact SameMemR.refused | apply SameMemR.onUnit | apply SameMemR.ite | apply SameMem.ite | apply SameMem.foldl
    | (simp only [SameMem.mk_iff]; apply SameMem.parts) | split | dsimp only

theorem State.warmCores_mem {s0 : State} {s : State} (off : Bool) (hs : SameMem s0 s) :
    SameMem s0 (State.warmCores s off) := by
  unfold State.warmCores
  repeat' with_reducible first
    | assumption | intro _ | apply State.resetCore_mem | apply State.setFld_mem | apply SameMem.ite | apply SameMem.foldl
    | (simp only [SameMem.mk_iff]; apply SameMem.parts) | split | dsimp only

theorem State.warmLinks_mem {s0 : State} {s : State} (hs : SameMem s0 s) :
    SameMem s0 (State.warmLinks s) := by
  unfold State.warmLinks
  repeat' with_reducible first
    | assumption | intro _
    | (extract_lets +onlyGivenNames x; clear_value (hx : x = _); first | refine SameMem.bind (s := s0) hx ?_ (fun _ => ?_) | (refine SameMem.isFaults x ?_; subst hx) | skip)
    | apply State.modLink_mem | apply State.linkAbsent_mem | apply SameMem.ite | apply SameMem.foldl | (simp only [SameMem.mk_iff]; apply SameMem.parts) | split
    | dsimp only

theorem State.warmCaches_mem {s0 : State} {s : State} (hs : SameMem s0 s) :
    SameMem s0 (State.warmCaches s) := by
  unfold State.warmCaches
  repeat' with_reducible first
    | assumption | intro _
    | (extract_lets +onlyGivenNames x; clear_value (hx : x = _); first | refine SameMem.bind (s := s0) hx ?_ (fun _ => ?_) | (refine SameMem.isFaults x ?_; subst hx) | skip)
    | apply State.writebackLine_mem | apply SameMem.ite | apply SameMem.foldl | (simp only [SameMem.mk_iff]; apply SameMem.parts) | split | dsimp only

theorem State.powerDie_mem {s0 : State} {s : State} (k : Nat) (hs : SameMem s0 s) :
    SameMem s0 (State.powerDie s k) := by
  unfold State.powerDie
  repeat' with_reducible first
    | assumption | intro _
    | (extract_lets +onlyGivenNames x; clear_value (hx : x = _); first | refine SameMem.bind (s := s0) hx ?_ (fun _ => ?_) | (refine SameMem.isFaults x ?_; subst hx) | (refine SameMem.isFun x ?_; subst hx) | skip)
    | apply State.sendFrame_mem | apply State.ask_mem | apply State.setFld_mem | apply State.askSys_mem | apply SameMem.ite | apply SameMem.foldl
    | (simp only [SameMem.mk_iff]; apply SameMem.parts) | split | dsimp only

theorem State.flowBack_mem {s0 : State} {s : State} (hs : SameMem s0 s) :
    SameMem s0 (State.flowBack s) := by
  unfold State.flowBack
  repeat' with_reducible first
    | assumption | intro _
    | (extract_lets +onlyGivenNames x; clear_value (hx : x = _); first | refine SameMem.bind (s := s0) hx ?_ (fun _ => ?_) | (refine SameMem.isFaults x ?_; subst hx) | skip)
    | apply State.setFld_mem | apply State.bookStack_mem | apply State.powerDie_mem | apply SameMem.ite | apply SameMem.foldl
    | (simp only [SameMem.mk_iff]; apply SameMem.parts) | split | dsimp only

theorem State.warmFirmware_mem {s0 : State} {s : State} (hs : SameMem s0 s) :
    SameMem s0 (State.warmFirmware s) := by
  unfold State.warmFirmware
  repeat' with_reducible first
    | assumption | intro _
    | (extract_lets +onlyGivenNames x; clear_value (hx : x = _); first | refine SameMem.bind (s := s0) hx ?_ (fun _ => ?_) | (refine SameMem.isFaults x ?_; subst hx) | skip)
    | apply State.newContract_mem | apply State.fwSet_mem | apply State.release_mem | apply SameMem.ite | apply SameMem.foldl
    | (simp only [SameMem.mk_iff]; apply SameMem.parts) | split | dsimp only

theorem State.warmQueues_mem {s0 : State} {s : State} (hs : SameMem s0 s) :
    SameMem s0 (State.warmQueues s) := by
  unfold State.warmQueues
  repeat' with_reducible first
    | assumption | intro _
    | (extract_lets +onlyGivenNames x; clear_value (hx : x = _); first | refine SameMem.bind (s := s0) hx ?_ (fun _ => ?_) | (refine SameMem.isFaults x ?_; subst hx) | skip)
    | apply State.domainIdle_mem | apply State.voidBlocks_mem | apply State.release_mem | apply SameMem.ite | apply SameMem.foldl
    | (simp only [SameMem.mk_iff]; apply SameMem.parts) | split | dsimp only

theorem State.warmTel_mem {s0 : State} {s : State} (hs : SameMem s0 s) :
    SameMem s0 (State.warmTel s) := by
  unfold State.warmTel
  repeat' with_reducible first
    | assumption | intro _
    | (extract_lets +onlyGivenNames x; clear_value (hx : x = _); first | refine SameMem.bind (s := s0) hx ?_ (fun _ => ?_) | (refine SameMem.isFaults x ?_; subst hx) | skip)
    | apply State.release_mem | apply SameMem.ite | apply SameMem.foldl | (simp only [SameMem.mk_iff]; apply SameMem.parts) | split | dsimp only

theorem State.warmFaults_mem {s0 : State} {s : State} (hs : SameMem s0 s) :
    SameMem s0 (State.warmFaults s) := by
  unfold State.warmFaults
  repeat' with_reducible first
    | assumption | intro _
    | (extract_lets +onlyGivenNames x; clear_value (hx : x = _); first | refine SameMem.bind (s := s0) hx ?_ (fun _ => ?_) | (refine SameMem.isFaults x ?_; subst hx) | skip)
    | apply State.setFld_mem | apply SameMem.ite | apply SameMem.foldl | (simp only [SameMem.mk_iff]; apply SameMem.parts) | split | dsimp only

theorem State.warmRegs_mem {s0 : State} {s : State} (hs : SameMem s0 s) :
    SameMem s0 (State.warmRegs s) := by
  unfold State.warmRegs
  repeat' with_reducible first
    | assumption | intro _
    | (extract_lets +onlyGivenNames x; clear_value (hx : x = _); first | refine SameMem.bind (s := s0) hx ?_ (fun _ => ?_) | (refine SameMem.isFaults x ?_; subst hx) | skip)
    | apply State.warmReg_mem | apply State.setFld_mem | apply State.fabCounts_mem | apply SameMem.ite | apply SameMem.foldl
    | (simp only [SameMem.mk_iff]; apply SameMem.parts) | split | dsimp only

theorem State.warmOd_mem {s0 : State} {s : State} (hs : SameMem s0 s) :
    SameMem s0 (State.warmOd s) := by
  unfold State.warmOd
  repeat' with_reducible first
    | assumption | intro _
    | (extract_lets +onlyGivenNames x; clear_value (hx : x = _); first | refine SameMem.bind (s := s0) hx ?_ (fun _ => ?_) | (refine SameMem.isFaults x ?_; subst hx) | skip)
    | apply State.storeKick_mem | apply State.release_mem | apply SameMem.ite | apply SameMem.foldl | (simp only [SameMem.mk_iff]; apply SameMem.parts) | split
    | dsimp only

theorem State.coldRegs_mem {s0 : State} {s : State} {old : State} (hs : SameMem s0 s) (hold : SameMem s0 old) :
    SameMem s0 (State.coldRegs s old) := by
  unfold State.coldRegs
  repeat' with_reducible first
    | assumption | intro _ | apply State.setReg_mem | apply State.setFld_mem | apply SameMem.ite | apply SameMem.foldl
    | (simp only [SameMem.mk_iff]; apply SameMem.parts) | split | dsimp only

theorem State.mapsFromOd_mem {s0 : State} {s : State} (hs : SameMem s0 s) :
    SameMem s0 (State.mapsFromOd s) := by
  unfold State.mapsFromOd
  repeat' with_reducible first
    | assumption | intro _
    | (extract_lets +onlyGivenNames x; clear_value (hx : x = _); first | refine SameMem.bind (s := s0) hx ?_ (fun _ => ?_) | (refine SameMem.isFaults x ?_; subst hx) | skip)
    | apply SameMem.ite | apply SameMem.foldl | (simp only [SameMem.mk_iff]; apply SameMem.parts) | split | dsimp only

theorem State.tapAct_mem {s0 : State} {s : State} (tdi : Bool) (hs : SameMem s0 s) :
    SameMem s0 (State.tapAct s tdi) := by
  unfold State.tapAct
  repeat' with_reducible first
    | assumption | intro _
    | (extract_lets +onlyGivenNames x; clear_value (hx : x = _); first | refine SameMem.bind (s := s0) hx ?_ (fun _ => ?_) | (refine SameMem.isFaults x ?_; subst hx) | (refine SameMem.isFun x ?_; subst hx) | skip)
    | apply SameMem.ite | apply SameMem.foldl | (simp only [SameMem.mk_iff]; apply SameMem.parts) | split | dsimp only

theorem State.shapeFromOd_mem {s0 : State} {s : State} (hs : SameMem s0 s) :
    SameMem s0 (State.shapeFromOd s) := by
  unfold State.shapeFromOd
  repeat' with_reducible first
    | assumption | intro _
    | (extract_lets +onlyGivenNames x; clear_value (hx : x = _); first | refine SameMem.bind (s := s0) hx ?_ (fun _ => ?_) | (refine SameMem.isFaults x ?_; subst hx) | skip)
    | apply State.setFld_mem | apply SameMem.ite | apply SameMem.foldl | (simp only [SameMem.mk_iff]; apply SameMem.parts) | split | dsimp only

theorem State.bootStep10_mem {s0 : State} {s : State} (hs : SameMem s0 s) :
    SameMem s0 (State.bootStep10 s) := by
  unfold State.bootStep10
  repeat' with_reducible first
    | assumption | intro _
    | (extract_lets +onlyGivenNames x; clear_value (hx : x = _); first | refine SameMem.bind (s := s0) hx ?_ (fun _ => ?_) | (refine SameMem.isFaults x ?_; subst hx) | skip)
    | apply State.setFld_mem | apply State.linksByEnable_mem | apply State.setBeatState_mem | apply SameMem.ite | apply SameMem.foldl
    | (simp only [SameMem.mk_iff]; apply SameMem.parts) | split | dsimp only

theorem State.zeroDraw_mem {s0 : State} {s : State} (r : Nat) (ca : Nat) (hs : SameMem s0 s) :
    SameMem s0 (State.zeroDraw s r ca) := by
  unfold State.zeroDraw
  repeat' with_reducible first
    | assumption | intro _ | apply State.askSys_mem | apply State.release_mem | apply SameMem.ite | apply SameMem.foldl
    | (simp only [SameMem.mk_iff]; apply SameMem.parts) | split | dsimp only

theorem State.bootStep5_mem {s0 : State} {s : State} (hs : SameMem s0 s) :
    SameMem s0 (State.bootStep5 s) := by
  unfold State.bootStep5
  repeat' with_reducible first
    | assumption | intro _
    | (extract_lets +onlyGivenNames x; clear_value (hx : x = _); first | refine SameMem.bind (s := s0) hx ?_ (fun _ => ?_) | (refine SameMem.isFaults x ?_; subst hx) | skip)
    | apply State.askSys_mem | apply State.powerDie_mem | apply State.zeroDraw_mem | apply SameMem.ite | apply SameMem.foldl
    | (simp only [SameMem.mk_iff]; apply SameMem.parts) | split | dsimp only

theorem State.bootStep2_mem {s0 : State} {s : State} (hs : SameMem s0 s) :
    SameMem s0 (State.bootStep2 s) := by
  unfold State.bootStep2
  repeat' with_reducible first
    | assumption | intro _
    | (extract_lets +onlyGivenNames x; clear_value (hx : x = _); first | refine SameMem.bind (s := s0) hx ?_ (fun _ => ?_) | (refine SameMem.isFaults x ?_; subst hx) | skip)
    | apply State.mapsFromOd_mem | apply State.setCap_mem | apply State.sendFrame_mem | apply State.setFld_mem | apply State.rebuild_mem
    | apply State.shapeFromOd_mem | apply SameMem.ite | apply SameMem.foldl | (simp only [SameMem.mk_iff]; apply SameMem.parts) | split | dsimp only

theorem State.bootStep7_mem {s0 : State} {s : State} (hs : SameMem s0 s) :
    SameMem s0 (State.bootStep7 s) := by
  unfold State.bootStep7
  repeat' with_reducible first
    | assumption | intro _
    | (extract_lets +onlyGivenNames x; clear_value (hx : x = _); first | refine SameMem.bind (s := s0) hx ?_ (fun _ => ?_) | (refine SameMem.isFaults x ?_; subst hx) | skip)
    | apply State.bookStack_mem | apply State.bookRefresh_mem | apply State.zeroDraw_mem | apply SameMem.ite | apply SameMem.foldl
    | (simp only [SameMem.mk_iff]; apply SameMem.parts) | split | dsimp only

theorem State.bootStep6_mem {s0 : State} {s : State} (hs : SameMem s0 s) :
    SameMem s0 (State.bootStep6 s) := by
  unfold State.bootStep6
  repeat' with_reducible first
    | assumption | intro _
    | (extract_lets +onlyGivenNames x; clear_value (hx : x = _); first | refine SameMem.bind (s := s0) hx ?_ (fun _ => ?_) | (refine SameMem.isFaults x ?_; subst hx) | skip)
    | apply State.setFld_mem | apply State.askSys_mem | apply SameMem.ite | apply SameMem.foldl | (simp only [SameMem.mk_iff]; apply SameMem.parts) | split
    | dsimp only

theorem State.recover_mem {s0 : State} {s : State} (hs : SameMem s0 s) :
    SameMem s0 (State.recover s) := by
  unfold State.recover
  repeat' with_reducible first
    | assumption | intro _
    | (extract_lets +onlyGivenNames x; clear_value (hx : x = _); first | refine SameMem.bind (s := s0) hx ?_ (fun _ => ?_) | (refine SameMem.isFaults x ?_; subst hx) | skip)
    | apply SameMem.ite | apply SameMem.foldl | (simp only [SameMem.mk_iff]; apply SameMem.parts) | split | dsimp only

theorem State.bootStep3_mem {s0 : State} {s : State} (hs : SameMem s0 s) :
    SameMem s0 (State.bootStep3 s) := by
  unfold State.bootStep3
  repeat' with_reducible first
    | assumption | intro _
    | (extract_lets +onlyGivenNames x; clear_value (hx : x = _); first | refine SameMem.bind (s := s0) hx ?_ (fun _ => ?_) | (refine SameMem.isFaults x ?_; subst hx) | skip)
    | apply State.fwSet_mem | apply State.fwEvent_mem | apply State.recover_mem | apply SameMem.ite | apply SameMem.foldl
    | (simp only [SameMem.mk_iff]; apply SameMem.parts) | split | dsimp only

theorem execRailFault_mem {s0 : State} (r : Nat) {s : State} (hs : SameMem s0 s) :
    SameMemR s0 (execRailFault r s) := by
  unfold execRailFault
  repeat' with_reducible first
    | assumption | intro _
    | (extract_lets +onlyGivenNames x; clear_value (hx : x = _); first | refine SameMem.bind (s := s0) hx ?_ (fun _ => ?_) | (refine SameMem.isFaults x ?_; subst hx) | skip)
    | apply onUnit_mem | apply SameMemR.next | exact SameMemR.fault | exact SameMemR.refused | apply SameMemR.onUnit | apply SameMemR.ite | apply SameMem.ite
    | apply SameMem.foldl | (simp only [SameMem.mk_iff]; apply SameMem.parts) | split | dsimp only

theorem State.journalCut_mem {s0 : State} {s : State} (n : Nat) (hs : SameMem s0 s) :
    SameMem s0 (State.journalCut s n) := by
  unfold State.journalCut
  repeat' with_reducible first
    | assumption | intro _
    | (extract_lets +onlyGivenNames x; clear_value (hx : x = _); first | refine SameMem.bind (s := s0) hx ?_ (fun _ => ?_) | refine SameMem.bindFst (s := s0) hx ?_ (fun _ => ?_) | (refine SameMem.isFaults x ?_; subst hx) | skip)
    | apply State.putBatch_mem | apply State.switchRegion_mem | apply SameMem.ite | apply SameMem.foldl | (simp only [SameMem.mk_iff]; apply SameMem.parts)
    | apply SameMem.iteFst | apply SameMem.iteSnd | refine SameMem.fstEq (by assumption) ?_ | split | dsimp only

theorem execTck_mem {s0 : State} (tms : Bool) (tdi : Bool) (trstN : Bool) {s : State} (hs : SameMem s0 s) :
    SameMemR s0 (execTck tms tdi trstN s) := by
  unfold execTck
  repeat' with_reducible first
    | assumption | intro _
    | (extract_lets +onlyGivenNames x; clear_value (hx : x = _); first | refine SameMem.bind (s := s0) hx ?_ (fun _ => ?_) | (refine SameMem.isFaults x ?_; subst hx) | skip)
    | apply State.tapAct_mem | apply SameMemR.next | exact SameMemR.fault | exact SameMemR.refused | apply SameMemR.onUnit | apply SameMemR.ite | apply SameMem.ite
    | apply SameMem.foldl | (simp only [SameMem.mk_iff]; apply SameMem.parts) | split | dsimp only

end Sys2Proof.Machine
end

