-- ==== Sys2Proof/Laws/SameMemTileEngine.lean ====
section
/-!
SUPPORT. What the operations of Machine/TileEngine.lean leave alone (Laws/SameMem.lean).
-/

set_option linter.all false

namespace Sys2Proof.Machine

theorem State.withDesc_mem {s0 : State} {s : State} (q : Nat) (i : Nat) (op : Nat) (bad : Flight → List Byte → Option Nat) (k : State → Flight → List Byte → State) (hs : SameMem s0 s) (hk : ∀ y0 y1 y2, SameMem s0 y0 → SameMem s0 (k y0 y1 y2)) :
    SameMemR s0 (State.withDesc s q i op bad k) := by
  unfold State.withDesc
  repeat' with_reducible first
    | assumption | intro _
    | (extract_lets +onlyGivenNames x; clear_value (hx : x = _); first | refine SameMem.bind (s := s0) hx ?_ (fun _ => ?_) | (refine SameMem.isFaults x ?_; subst hx) | skip)
    | apply State.dispatch_mem | apply State.endFlight_mem | apply hk | apply SameMemR.next | exact SameMemR.fault | exact SameMemR.refused
    | apply SameMemR.onUnit | apply SameMemR.ite | apply SameMem.ite | apply SameMem.foldl | (simp only [SameMem.mk_iff]; apply SameMem.parts) | split | dsimp only

theorem execRampHoldExpiry_mem {s0 : State} (c : Nat) {s : State} (hs : SameMem s0 s) :
    SameMemR s0 (execRampHoldExpiry c s) := by
  unfold execRampHoldExpiry
  repeat' with_reducible first
    | assumption | intro _ | apply State.countCycles_mem | apply State.setFld_mem | apply onUnit_mem | apply SameMemR.next | exact SameMemR.fault
    | exact SameMemR.refused | apply SameMemR.onUnit | apply SameMemR.ite | apply SameMem.ite | apply SameMem.foldl | (simp only [SameMem.mk_iff]; apply SameMem.parts)
    | split | dsimp only

theorem State.countSelected_mem {s0 : State} {s : State} (k : Nat) (n : Nat) (hs : SameMem s0 s) :
    SameMem s0 (State.countSelected s k n) := by
  unfold State.countSelected
  repeat' with_reducible first
    | assumption | intro _ | apply State.setReg_mem | apply SameMem.ite | apply SameMem.foldl | (simp only [SameMem.mk_iff]; apply SameMem.parts) | split
    | dsimp only

theorem State.streamed_mem {s0 : State} {s : State} (core : Nat) (n : Nat) (hs : SameMem s0 s) :
    SameMem s0 (State.streamed s core n) := by
  unfold State.streamed
  repeat' with_reducible first
    | assumption | intro _
    | (extract_lets +onlyGivenNames x; clear_value (hx : x = _); first | refine SameMem.bind (s := s0) hx ?_ (fun _ => ?_) | (refine SameMem.isFaults x ?_; subst hx) | skip)
    | apply State.modCore_mem | apply State.modSlot_mem | apply State.countSelected_mem | apply SameMem.ite | apply SameMem.foldl
    | (simp only [SameMem.mk_iff]; apply SameMem.parts) | split | dsimp only

theorem State.arrayActivity_mem {s0 : State} {s : State} (core : Nat) (shape : Nat) (mode : Nat) (hs : SameMem s0 s) :
    SameMem s0 (State.arrayActivity s core shape mode) := by
  unfold State.arrayActivity
  repeat' with_reducible first
    | assumption | intro _
    | (extract_lets +onlyGivenNames x; clear_value (hx : x = _); first | refine SameMem.bind (s := s0) hx ?_ (fun _ => ?_) | (refine SameMem.isFaults x ?_; subst hx) | skip)
    | apply State.countCycles_mem | apply State.setFld_mem | apply State.count_mem | apply SameMem.ite | apply SameMem.foldl
    | (simp only [SameMem.mk_iff]; apply SameMem.parts) | split | dsimp only

theorem State.countN_mem {s0 : State} {s : State} (k : Nat) (n : Nat) (hs : SameMem s0 s) :
    SameMem s0 (State.countN s k n) := by
  unfold State.countN
  repeat' with_reducible first
    | assumption | intro _ | apply State.count_mem | apply SameMem.ite | apply SameMem.foldl | (simp only [SameMem.mk_iff]; apply SameMem.parts) | split
    | dsimp only

theorem State.matCounters_mem {s0 : State} {s : State} (core : Nat) (r : MatRun) (done : Nat) (hs : SameMem s0 s) :
    SameMem s0 (State.matCounters s core r done) := by
  unfold State.matCounters
  repeat' with_reducible first
    | assumption | intro _
    | (extract_lets +onlyGivenNames x; clear_value (hx : x = _); first | refine SameMem.bind (s := s0) hx ?_ (fun _ => ?_) | (refine SameMem.isFaults x ?_; subst hx) | skip)
    | apply State.countCycles_mem | apply State.countN_mem | apply State.streamed_mem | apply SameMem.ite | apply SameMem.foldl
    | (simp only [SameMem.mk_iff]; apply SameMem.parts) | split | dsimp only

end Sys2Proof.Machine
end

