-- ==== Sys2Proof/Laws/SameMemConvert.lean ====
section
/-!
SUPPORT. What the operations of Machine/Convert.lean leave alone (Laws/SameMem.lean).
-/

set_option linter.all false

namespace Sys2Proof.Machine

theorem State.convCounters_mem {s0 : State} {s : State} (core : Nat) (t : ConvRun) (done : Nat) (ok : Bool) (hs : SameMem s0 s) :
    SameMem s0 (State.convCounters s core t done ok) := by
  unfold State.convCounters
  repeat' with_reducible first
    | assumption | intro _
    | (extract_lets +onlyGivenNames x; clear_value (hx : x = _); first | refine SameMem.bind (s := s0) hx ?_ (fun _ => ?_) | (refine SameMem.isFaults x ?_; subst hx) | skip)
    | apply State.countN_mem | apply SameMem.ite | apply SameMem.foldl | (simp only [SameMem.mk_iff]; apply SameMem.parts) | split | dsimp only

end Sys2Proof.Machine
end

