-- ==== Sys2Proof/Laws/SameMemTrain.lean ====
section
/-!
SUPPORT. What the operations of Machine/Train.lean leave alone (Laws/SameMem.lean).
-/

set_option linter.all false

namespace Sys2Proof.Machine

theorem JobResult.withBad_mem {s0 : State} {r : JobResult} (bad : Option (Nat × Nat)) (hr : SameMem s0 r.st) :
    SameMem s0 (JobResult.withBad r bad).st := by
  unfold JobResult.withBad
  repeat' with_reducible first
    | assumption | intro _ | apply State.draw_mem | apply State.voidBlocks_mem | apply SameMem.ite | apply SameMem.foldl
    | (simp only [SameMem.mk_iff]; apply SameMem.parts) | apply SameMem.iteFst | apply SameMem.iteSnd | apply SameMem.iteJob | apply SameMem.foldlJob
    | refine SameMem.sndEq (by assumption) ?_ | split | dsimp only

end Sys2Proof.Machine
end

