-- ==== Sys2Proof/Laws/SameMemHostBus.lean ====
section
/-!
SUPPORT. What the operations of Machine/HostBus.lean leave alone (Laws/SameMem.lean).
-/

set_option linter.all false

namespace Sys2Proof.Machine

theorem State.writeContext_mem {s0 : State} {s : State} (f : Nat) (w : Nat) (val : Nat) (mask : Nat) (hs : SameMem s0 s) :
    SameMem s0 (State.writeContext s f w val mask) := by
  unfold State.writeContext
  repeat' with_reducible first
    | assumption | intro _
    | (extract_lets +onlyGivenNames x; clear_value (hx : x = _); first | refine SameMem.bind (s := s0) hx ?_ (fun _ => ?_) | (refine SameMem.isFaults x ?_; subst hx) | skip)
    | apply State.setQueue_mem | apply SameMem.ite | apply SameMem.foldl | (simp only [SameMem.mk_iff]; apply SameMem.parts) | split | dsimp only

theorem State.plainReg_mem {s0 : State} {s : State} (k : Nat) (val : Nat) (mask : Nat) (hs : SameMem s0 s) :
    SameMem s0 (State.plainReg s k val mask) := by
  unfold State.plainReg
  repeat' with_reducible first
    | assumption | intro _ | apply State.setReg_mem | apply SameMem.ite | apply SameMem.foldl | (simp only [SameMem.mk_iff]; apply SameMem.parts) | split
    | dsimp only

theorem State.writeOwn_mem {s0 : State} {s : State} (f : Nat) (o : Nat) (val : Nat) (mask : Nat) (hs : SameMem s0 s) :
    SameMem s0 (State.writeOwn s f o val mask) := by
  unfold State.writeOwn
  repeat' with_reducible first
    | assumption | intro _
    | (extract_lets +onlyGivenNames x; clear_value (hx : x = _); first | refine SameMem.bind (s := s0) hx ?_ (fun _ => ?_) | (refine SameMem.isFaults x ?_; subst hx) | skip)
    | apply State.setMsix_mem | apply State.plainReg_mem | apply SameMem.ite | apply SameMem.foldl | (simp only [SameMem.mk_iff]; apply SameMem.parts) | split
    | dsimp only

theorem State.writeQueueBlock_mem {s0 : State} {s : State} (f : Nat) (o : Nat) (val : Nat) (mask : Nat) (hs : SameMem s0 s) :
    SameMem s0 (State.writeQueueBlock s f o val mask) := by
  unfold State.writeQueueBlock
  repeat' with_reducible first
    | assumption | intro _ | apply State.plainReg_mem | apply State.dlqFullBit_mem | apply State.qcmdErr_mem | apply State.writeContext_mem
    | apply SameMem.ite | apply SameMem.foldl | (simp only [SameMem.mk_iff]; apply SameMem.parts) | split | dsimp only

theorem State.writeWindow_mem {s0 : State} {s : State} (k : Nat) (o : Nat) (val : Nat) (mask : Nat) (hs : SameMem s0 s) :
    SameMem s0 (State.writeWindow s k o val mask) := by
  unfold State.writeWindow
  repeat' with_reducible first
    | assumption | intro _
    | (extract_lets +onlyGivenNames x; clear_value (hx : x = _); first | refine SameMem.bind (s := s0) hx ?_ (fun _ => ?_) | (refine SameMem.isFaults x ?_; subst hx) | skip)
    | apply State.plainReg_mem | apply State.modSlot_mem | apply State.applyPfBuf_mem | apply SameMem.ite | apply SameMem.foldl
    | (simp only [SameMem.mk_iff]; apply SameMem.parts) | split | dsimp only

theorem State.writeKey_mem {s0 : State} {s : State} (k : Nat) (val : Nat) (mask : Nat) (hs : SameMem s0 s) :
    SameMem s0 (State.writeKey s k val mask) := by
  unfold State.writeKey
  repeat' with_reducible first
    | assumption | intro _
    | (extract_lets +onlyGivenNames x; clear_value (hx : x = _); first | refine SameMem.bind (s := s0) hx ?_ (fun _ => ?_) | (refine SameMem.isFaults x ?_; subst hx) | skip)
    | apply State.plainReg_mem | apply State.setFld_mem | apply State.writeOwn_mem | apply State.writeQueueBlock_mem | apply State.writeWindow_mem
    | apply SameMem.ite | apply SameMem.foldl | (simp only [SameMem.mk_iff]; apply SameMem.parts) | split | dsimp only

theorem execRegisterWrite_mem {s0 : State} (f : Nat) (off : Nat) (n : Nat) (val : Nat) {s : State} (hs : SameMem s0 s) :
    SameMemR s0 (execRegisterWrite f off n val s) := by
  unfold execRegisterWrite
  repeat' with_reducible first
    | assumption | intro _ | apply State.writeKey_mem | apply onUnit_mem | apply State.count_mem | apply SameMemR.next | exact SameMemR.fault
    | exact SameMemR.refused | apply SameMemR.onUnit | apply SameMemR.ite | apply SameMem.ite | apply SameMem.foldl | (simp only [SameMem.mk_iff]; apply SameMem.parts)
    | split | dsimp only

theorem execCounterLowRead_mem {s0 : State} (f : Nat) (off : Nat) {s : State} (hs : SameMem s0 s) :
    SameMemR s0 (execCounterLowRead f off s) := by
  unfold execCounterLowRead
  repeat' with_reducible first
    | assumption | intro _ | apply onUnit_mem | apply State.send_mem | apply SameMemR.next | exact SameMemR.fault | exact SameMemR.refused | apply SameMemR.onUnit
    | apply SameMemR.ite | apply SameMem.ite | apply SameMem.foldl | (simp only [SameMem.mk_iff]; apply SameMem.parts) | split | dsimp only

end Sys2Proof.Machine
end

