-- ==== Sys2Proof/Laws/SameMemBoundary.lean ====
section
/-!
SUPPORT. What the operations of Machine/Boundary.lean leave alone (Laws/SameMem.lean).
-/

set_option linter.all false

namespace Sys2Proof.Machine

theorem State.thermalCycle_mem {s0 : State} {s : State} (hot : Int) (hs : SameMem s0 s) :
    SameMem s0 (State.thermalCycle s hot) := by
  unfold State.thermalCycle
  repeat' with_reducible first
    | assumption | intro _
    | (extract_lets +onlyGivenNames x; clear_value (hx : x = _); first | refine SameMem.bind (s := s0) hx ?_ (fun _ => ?_) | (refine SameMem.isFaults x ?_; subst hx) | skip)
    | apply State.setFld_mem | apply SameMem.ite | apply SameMem.foldl | (simp only [SameMem.mk_iff]; apply SameMem.parts) | split | dsimp only

theorem State.throttleBeat_mem {s0 : State} {s : State} (hs : SameMem s0 s) :
    SameMem s0 (State.throttleBeat s) := by
  unfold State.throttleBeat
  repeat' with_reducible first
    | assumption | intro _ | apply State.count_mem | apply SameMem.ite | apply SameMem.foldl | (simp only [SameMem.mk_iff]; apply SameMem.parts) | split
    | dsimp only

theorem State.railMillisecond_mem {s0 : State} {s : State} (hs : SameMem s0 s) :
    SameMem s0 (State.railMillisecond s) := by
  unfold State.railMillisecond
  repeat' with_reducible first
    | assumption | intro _
    | (extract_lets +onlyGivenNames x; clear_value (hx : x = _); first | refine SameMem.bind (s := s0) hx ?_ (fun _ => ?_) | (refine SameMem.isFaults x ?_; subst hx) | skip)
    | apply State.setFld_mem | apply State.tally_mem | apply SameMem.ite | apply SameMem.foldl | (simp only [SameMem.mk_iff]; apply SameMem.parts) | split
    | dsimp only

theorem State.readRail_mem {s0 : State} {s : State} (r : Nat) (i : Nat) (v : Nat) (hs : SameMem s0 s) :
    SameMem s0 (State.readRail s r i v) := by
  unfold State.readRail
  repeat' with_reducible first
    | assumption | intro _
    | (extract_lets +onlyGivenNames x; clear_value (hx : x = _); first | refine SameMem.bind (s := s0) hx ?_ (fun _ => ?_) | (refine SameMem.isFaults x ?_; subst hx) | skip)
    | apply State.setFld_mem | apply State.count_mem | apply SameMem.ite | apply SameMem.foldl | (simp only [SameMem.mk_iff]; apply SameMem.parts) | split
    | dsimp only

theorem State.readRails_mem {s0 : State} {s : State} (amps : List Nat) (volts : List Nat) (hs : SameMem s0 s) :
    SameMem s0 (State.readRails s amps volts) := by
  unfold State.readRails
  repeat' with_reducible first
    | assumption | intro _
    | (extract_lets +onlyGivenNames x; clear_value (hx : x = _); first | refine SameMem.bind (s := s0) hx ?_ (fun _ => ?_) | (refine SameMem.isFaults x ?_; subst hx) | skip)
    | apply State.railMillisecond_mem | apply State.readRail_mem | apply SameMem.ite | apply SameMem.foldl | (simp only [SameMem.mk_iff]; apply SameMem.parts)
    | split | dsimp only

theorem State.snapBuffer_mem {s0 : State} {s : State} (hs : SameMem s0 s) :
    SameMem s0 (State.snapBuffer s) := by
  unfold State.snapBuffer
  repeat' with_reducible first
    | assumption | intro _
    | (extract_lets +onlyGivenNames x; clear_value (hx : x = _); first | refine SameMem.bind (s := s0) hx ?_ (fun _ => ?_) | (refine SameMem.isFaults x ?_; subst hx) | skip)
    | apply State.setReg_mem | apply State.setFld_mem | apply SameMem.ite | apply SameMem.foldl | (simp only [SameMem.mk_iff]; apply SameMem.parts) | split
    | dsimp only

theorem State.runClears_mem {s0 : State} {s : State} (hs : SameMem s0 s) :
    SameMem s0 (State.runClears s) := by
  unfold State.runClears
  repeat' with_reducible first
    | assumption | intro _ | apply State.doClear_mem | apply SameMem.ite | apply SameMem.foldl | (simp only [SameMem.mk_iff]; apply SameMem.parts) | split
    | dsimp only

theorem State.readSlack_mem {s0 : State} {s : State} (m : Nat) (v : Int) (hs : SameMem s0 s) :
    SameMem s0 (State.readSlack s m v) := by
  unfold State.readSlack
  repeat' with_reducible first
    | assumption | intro _
    | (extract_lets +onlyGivenNames x; clear_value (hx : x = _); first | refine SameMem.bind (s := s0) hx ?_ (fun _ => ?_) | (refine SameMem.isFaults x ?_; subst hx) | skip)
    | apply State.setFld_mem | apply State.event_mem | apply SameMem.ite | apply SameMem.foldl | (simp only [SameMem.mk_iff]; apply SameMem.parts) | split
    | dsimp only

theorem State.readSlacks_mem {s0 : State} {s : State} (l : List Int) (hs : SameMem s0 s) :
    SameMem s0 (State.readSlacks s l) := by
  unfold State.readSlacks
  repeat' with_reducible first
    | assumption | intro _ | apply State.readSlack_mem | apply SameMem.ite | apply SameMem.foldl | (simp only [SameMem.mk_iff]; apply SameMem.parts) | split
    | dsimp only

theorem State.tickOver_mem {s0 : State} {s : State} (hs : SameMem s0 s) :
    SameMem s0 (State.tickOver s) := by
  unfold State.tickOver
  repeat' with_reducible first
    | assumption | intro _ | apply State.setFld_mem
    | (extract_lets +onlyGivenNames x; clear_value (hx : x = _); first | refine SameMem.bind (s := s0) hx ?_ (fun _ => ?_) | (refine SameMem.isFaults x ?_; subst hx) | skip)
    | apply SameMem.ite | apply SameMem.foldl | (simp only [SameMem.mk_iff]; apply SameMem.parts) | split | dsimp only

theorem State.flagBeat_mem {s0 : State} {s : State} (hs : SameMem s0 s) :
    SameMem s0 (State.flagBeat s) := by
  unfold State.flagBeat
  repeat' with_reducible first
    | assumption | intro _
    | (extract_lets +onlyGivenNames x; clear_value (hx : x = _); first | refine SameMem.bind (s := s0) hx ?_ (fun _ => ?_) | (refine SameMem.isFaults x ?_; subst hx) | skip)
    | apply SameMem.ite | apply SameMem.foldl | (simp only [SameMem.mk_iff]; apply SameMem.parts) | split | dsimp only

theorem State.snapReports_mem {s0 : State} {s : State} (hs : SameMem s0 s) :
    SameMem s0 (State.snapReports s) := by
  unfold State.snapReports
  repeat' with_reducible first
    | assumption | intro _
    | (extract_lets +onlyGivenNames x; clear_value (hx : x = _); first | refine SameMem.bind (s := s0) hx ?_ (fun _ => ?_) | (refine SameMem.isFaults x ?_; subst hx) | skip)
    | apply SameMem.ite | apply SameMem.foldl | (simp only [SameMem.mk_iff]; apply SameMem.parts) | split | dsimp only

theorem State.runMaxClr_mem {s0 : State} {s : State} (hs : SameMem s0 s) :
    SameMem s0 (State.runMaxClr s) := by
  unfold State.runMaxClr
  repeat' with_reducible first
    | assumption | intro _
    | (extract_lets +onlyGivenNames x; clear_value (hx : x = _); first | refine SameMem.bind (s := s0) hx ?_ (fun _ => ?_) | (refine SameMem.isFaults x ?_; subst hx) | skip)
    | apply State.setFld_mem | apply SameMem.ite | apply SameMem.foldl | (simp only [SameMem.mk_iff]; apply SameMem.parts) | split | dsimp only

theorem State.readTemp_mem {s0 : State} {s : State} (i : Nat) (t : Int) (hs : SameMem s0 s) :
    SameMem s0 (State.readTemp s i t) := by
  unfold State.readTemp
  repeat' with_reducible first
    | assumption | intro _
    | (extract_lets +onlyGivenNames x; clear_value (hx : x = _); first | refine SameMem.bind (s := s0) hx ?_ (fun _ => ?_) | (refine SameMem.isFaults x ?_; subst hx) | skip)
    | apply State.setFld_mem | apply SameMem.ite | apply SameMem.foldl | (simp only [SameMem.mk_iff]; apply SameMem.parts) | split | dsimp only

theorem State.testBeat_mem {s0 : State} {s : State} (hs : SameMem s0 s) :
    SameMem s0 (State.testBeat s) := by
  unfold State.testBeat
  repeat' with_reducible first
    | assumption | intro _ | apply State.count_mem | apply SameMem.ite | apply SameMem.foldl | (simp only [SameMem.mk_iff]; apply SameMem.parts) | split
    | dsimp only

theorem State.readGovernors_mem {s0 : State} {s : State} (l : List Nat) (hs : SameMem s0 s) :
    SameMem s0 (State.readGovernors s l) := by
  unfold State.readGovernors
  repeat' with_reducible first
    | assumption | intro _ | apply State.count_mem | apply SameMem.ite | apply SameMem.foldl | (simp only [SameMem.mk_iff]; apply SameMem.parts) | split
    | dsimp only

theorem State.runSelections_mem {s0 : State} {s : State} (hs : SameMem s0 s) :
    SameMem s0 (State.runSelections s) := by
  unfold State.runSelections
  repeat' with_reducible first
    | assumption | intro _
    | (extract_lets +onlyGivenNames x; clear_value (hx : x = _); first | refine SameMem.bind (s := s0) hx ?_ (fun _ => ?_) | (refine SameMem.isFaults x ?_; subst hx) | skip)
    | apply State.zeroCtr_mem | apply SameMem.ite | apply SameMem.foldl | (simp only [SameMem.mk_iff]; apply SameMem.parts) | split | dsimp only

theorem State.readTemps_mem {s0 : State} {s : State} (l : List Int) (hs : SameMem s0 s) :
    SameMem s0 (State.readTemps s l) := by
  unfold State.readTemps
  repeat' with_reducible first
    | assumption | intro _ | apply State.readTemp_mem | apply State.thermalCycle_mem | apply SameMem.ite | apply SameMem.foldl
    | (simp only [SameMem.mk_iff]; apply SameMem.parts) | split | dsimp only

theorem State.readEyes_mem {s0 : State} {s : State} (l : List (Nat × Nat × Nat)) (hs : SameMem s0 s) :
    SameMem s0 (State.readEyes s l) := by
  unfold State.readEyes
  repeat' with_reducible first
    | assumption | intro _
    | (extract_lets +onlyGivenNames x; clear_value (hx : x = _); first | refine SameMem.bind (s := s0) hx ?_ (fun _ => ?_) | (refine SameMem.isFaults x ?_; subst hx) | skip)
    | apply State.setFld_mem | apply SameMem.ite | apply SameMem.foldl | (simp only [SameMem.mk_iff]; apply SameMem.parts) | split | dsimp only

theorem State.readRefreshes_mem {s0 : State} {s : State} (l : List (Nat × Nat × Nat)) (hs : SameMem s0 s) :
    SameMem s0 (State.readRefreshes s l) := by
  unfold State.readRefreshes
  repeat' with_reducible first
    | assumption | intro _ | apply State.count_mem | apply SameMem.ite | apply SameMem.foldl | (simp only [SameMem.mk_iff]; apply SameMem.parts) | split
    | dsimp only

theorem State.beaconBeat_mem {s0 : State} {s : State} (hs : SameMem s0 s) :
    SameMem s0 (State.beaconBeat s) := by
  unfold State.beaconBeat
  repeat' with_reducible first
    | assumption | intro _
    | (extract_lets +onlyGivenNames x; clear_value (hx : x = _); first | refine SameMem.bind (s := s0) hx ?_ (fun _ => ?_) | (refine SameMem.isFaults x ?_; subst hx) | skip)
    | apply SameMem.ite | apply SameMem.foldl | (simp only [SameMem.mk_iff]; apply SameMem.parts) | split | dsimp only

theorem State.boundary_mem {s0 : State} {s : State} (r : BeatReading) (hs : SameMem s0 s) :
    SameMem s0 (State.boundary s r) := by
  unfold State.boundary
  repeat' with_reducible first
    | assumption | intro _
    | (extract_lets +onlyGivenNames x; clear_value (hx : x = _); first | refine SameMem.bind (s := s0) hx ?_ (fun _ => ?_) | (refine SameMem.isFaults x ?_; subst hx) | skip)
    | apply State.readEyes_mem | apply State.runMaxClr_mem | apply State.testBeat_mem | apply State.readSlacks_mem | apply State.linkBeat_mem
    | apply State.forceNext_mem | apply State.readRails_mem | apply State.runSelections_mem | apply State.readRefreshes_mem | apply State.powerBeat_mem
    | apply State.escWindow_mem | apply State.readGovernors_mem | apply State.coreBeat_mem | apply State.timeBeat_mem | apply State.readTemps_mem
    | apply State.throttleBeat_mem | apply State.runClears_mem | apply State.snapReports_mem | apply State.beaconBeat_mem | apply State.hotBeat_mem
    | apply State.snapBuffer_mem | apply State.flagBeat_mem | apply SameMem.ite | apply SameMem.foldl | (simp only [SameMem.mk_iff]; apply SameMem.parts) | split
    | dsimp only

theorem execBeatBoundary_mem {s0 : State} (r : BeatReading) {s : State} (hs : SameMem s0 s) :
    SameMemR s0 (execBeatBoundary r s) := by
  unfold execBeatBoundary
  repeat' with_reducible first
    | assumption | intro _ | apply State.tickOver_mem | apply State.boundary_mem | apply SameMemR.next | exact SameMemR.fault | exact SameMemR.refused
    | apply SameMemR.onUnit | apply SameMemR.ite | apply SameMem.ite | apply SameMem.foldl | (simp only [SameMem.mk_iff]; apply SameMem.parts) | split | dsimp only

end Sys2Proof.Machine
end

