-- ==== Sys2Proof/Laws/SameMemDispatch.lean ====
section
/-!
SUPPORT. A command that `storesSomething` does not list leaves memory and the semaphores alone.
-/

namespace Sys2Proof.Machine

/-- A command that `storesSomething` does not list leaves memory and the semaphores alone. -/
theorem exec_mem (i : Instr) (hi : storesSomething i = false) (s : State) : SameMemR s (exec i s) := by
  cases i with
  | nop q i => delta exec; exact execNop_mem _ _ (.refl s)
  | fence q i => delta exec; exact execFence_mem _ _ (.refl s)
  | wait q i => delta exec; exact execWait_mem _ _ (.refl s)
  | waitTimeout q i => delta exec; exact execWaitTimeout_mem _ _ (.refl s)
  | signal q i => cases hi
  | timer q i => delta exec; exact execTimer_mem _ _ (.refl s)
  | timerExpiry q i => delta exec; exact execTimerExpiry_mem _ _ (.refl s)
  | report q i => cases hi
  | drainMark q i => delta exec; exact execDrainMark_mem _ _ (.refl s)
  | matmul q i stop => cases hi
  | matmulAcc q i stop => cases hi
  | attnFwd q i stop => cases hi
  | attnBwd q i stop => cases hi
  | bwdIn q i stop => cases hi
  | bwdW q i stop => cases hi
  | convert q i stop => cases hi
  | stats q i stop => cases hi
  | rotate q i stop => cases hi
  | codebookUpd q i => cases hi
  | vprog q i draws movBad => delta exec; exact execVprog_mem _ _ _ _ (.refl s)
  | optStep q i stop => cases hi
  | copy q i stop => cases hi
  | gather q i stop => cases hi
  | scatter q i stop => cases hi
  | compress q i stop => cases hi
  | decompress q i stop => cases hi
  | allreduce q i => cases hi
  | reduceScatter q i => cases hi
  | allgather q i => cases hi
  | broadcast q i => cases hi
  | reduce q i => cases hi
  | alltoallv q i => cases hi
  | barrier q i => cases hi
  | stepBegin q i => cases hi
  | stepCommit q i => delta exec; exact execStepCommit_mem _ _ (.refl s)
  | stepCommitSample f => cases hi
  | stepAbort q i => cases hi
  | normWatch q i stop => cases hi
  | sample q i stop => cases hi
  | rngSave q i => cases hi
  | rngLoad q i => cases hi
  | iftRun q i => delta exec; exact execIftRun_mem _ _ (.refl s)
  | sealScan q i => delta exec; exact execSealScan_mem _ _ (.refl s)
  | inject q i => delta exec; exact execInject_mem _ _ (.refl s)
  | ld core thread reg addr size => cases hi
  | st core thread reg value addr size => cases hi
  | mvLd core thread mvc addr spad len => cases hi
  | mvSt core thread mvc addr spad len => cases hi
  | mvPf core thread mvc addr len => cases hi
  | mvBulk core thread mvc out addr spad len => cases hi
  | waitc core thread mvc v => delta exec; exact execWaitc_mem _ _ _ _ (.refl s)
  | fenceCore core thread => delta exec; exact execFenceCore_mem _ _ (.refl s)
  | fenceCluster core thread => delta exec; exact execFenceCluster_mem _ _ (.refl s)
  | fenceDevice core thread => delta exec; exact execFenceDevice_mem _ _ (.refl s)
  | fenceFabric core thread => delta exec; exact execFenceFabric_mem _ _ (.refl s)
  | semaddRel core thread sem v scope => cases hi
  | semwaitAcq core thread sem v scope => delta exec; exact execSemwaitAcq_mem _ _ _ _ _ (.refl s)
  | halt core thread => delta exec; exact execHalt_mem _ _ (.refl s)
  | trace core thread v => delta exec; exact execTrace_mem _ _ _ (.refl s)
  | randU32 core thread lane reg => delta exec; exact execRandU32_mem _ _ _ _ (.refl s)
  | randU core thread lane reg => delta exec; exact execRandU_mem _ _ _ _ (.refl s)
  | randUo core thread lane reg => delta exec; exact execRandUo_mem _ _ _ _ (.refl s)
  | randBern core thread lane reg p => delta exec; exact execRandBern_mem _ _ _ _ _ (.refl s)
  | randNbm core thread lane reg0 reg1 => delta exec; exact execRandNbm_mem _ _ _ _ _ (.refl s)
  | randNtab core thread lane reg => delta exec; exact execRandNtab_mem _ _ _ _ (.refl s)
  | doorbellWrite f q size tail cdone => cases hi
  | commandFetch q => cases hi
  | notBeforeReached q => delta exec; exact execNotBeforeReached_mem _ (.refl s)
  | sorterGrant => delta exec; exact execSorterGrant_mem (.refl s)
  | agePromotion q => delta exec; exact execAgePromotion_mem _ (.refl s)
  | commandComplete q i m withheld => cases hi
  | qmgCancel f q index from_ same => cases hi
  | queueEnable f core => delta exec; exact execQueueEnable_mem _ _ (.refl s)
  | queuePause f => delta exec; exact execQueuePause_mem _ (.refl s)
  | queueResume f => delta exec; exact execQueueResume_mem _ (.refl s)
  | queueDisable f => delta exec; exact execQueueDisable_mem _ (.refl s)
  | queueReset f => cases hi
  | migrate f core => delta exec; exact execMigrate_mem _ _ (.refl s)
  | migrationDrainDone q => cases hi
  | migrationTimeout q => delta exec; exact execMigrationTimeout_mem _ (.refl s)
  | qmgSemvalWrite f val => cases hi
  | qmgSemadd f val => cases hi
  | dlqBaseWrite f val => delta exec; exact execDlqBaseWrite_mem _ _ (.refl s)
  | tenantEntryWrite f off val => delta exec; exact execTenantEntryWrite_mem _ _ _ (.refl s)
  | assign func tier clear => delta exec; exact execAssign_mem _ _ _ (.refl s)
  | query func tier clear => delta exec; exact execQuery_mem _ _ _ (.refl s)
  | granuleActionDone => cases hi
  | haltClr f => delta exec; exact execHaltClr_mem _ (.refl s)
  | commitFlip f => cases hi
  | commitTimeout f => cases hi
  | escGrant rail => delta exec; exact execEscGrant_mem _ (.refl s)
  | prebookExpiry q i => delta exec; exact execPrebookExpiry_mem _ _ (.refl s)
  | rampHoldExpiry c => delta exec; exact execRampHoldExpiry_mem _ (.refl s)
  | c1Entry core => delta exec; exact execC1Entry_mem _ (.refl s)
  | c2Entry core => cases hi
  | c3Entry core => cases hi
  | coreWake core cause => delta exec; exact execCoreWake_mem _ _ (.refl s)
  | wakeComplete core => cases hi
  | spareReady k => delta exec; exact execSpareReady_mem _ (.refl s)
  | beatBoundary r => delta exec; exact execBeatBoundary_mem _ (.refl s)
  | beatNowRead ps => delta exec; exact execBeatNowRead_mem _ (.refl s)
  | counterLowRead f off => delta exec; exact execCounterLowRead_mem _ _ (.refl s)
  | ctrClear f off => delta exec; exact execCtrClear_mem _ _ (.refl s)
  | timeSyncSend ps => delta exec; exact execTimeSyncSend_mem _ (.refl s)
  | timeSyncReceive k ps => delta exec; exact execTimeSyncReceive_mem _ _ (.refl s)
  | timeReplyReceive k ps => delta exec; exact execTimeReplyReceive_mem _ _ (.refl s)
  | trimUpdate => delta exec; exact execTrimUpdate_mem (.refl s)
  | acquireTimeout => delta exec; exact execAcquireTimeout_mem (.refl s)
  | flitTransmit n => delta exec; exact execFlitTransmit_mem _ (.refl s)
  | flitReceive n flit corr unc syms => delta exec; exact execFlitReceive_mem _ _ _ _ _ (.refl s)
  | nakReceive n => delta exec; exact execNakReceive_mem _ (.refl s)
  | nakRepeat n => delta exec; exact execNakRepeat_mem _ (.refl s)
  | linkSignalDetect n => delta exec; exact execLinkSignalDetect_mem _ (.refl s)
  | trainingComplete n lanes => delta exec; exact execTrainingComplete_mem _ _ (.refl s)
  | trainingTimeout n => delta exec; exact execTrainingTimeout_mem _ (.refl s)
  | trainingRetry n => delta exec; exact execTrainingRetry_mem _ (.refl s)
  | spdm n verdict => delta exec; exact execSpdm_mem _ _ (.refl s)
  | spdmResponseTimeout n => delta exec; exact execSpdmResponseTimeout_mem _ (.refl s)
  | linkpar n p => delta exec; exact execLinkpar_mem _ _ (.refl s)
  | authTimeout n => delta exec; exact execAuthTimeout_mem _ (.refl s)
  | laneFailure n lane => delta exec; exact execLaneFailure_mem _ _ (.refl s)
  | retrainComplete n lanes => delta exec; exact execRetrainComplete_mem _ _ (.refl s)
  | signalLossTimeout n => delta exec; exact execSignalLossTimeout_mem _ (.refl s)
  | linkStall n => delta exec; exact execLinkStall_mem _ (.refl s)
  | mgtStallQuarantine n => delta exec; exact execMgtStallQuarantine_mem _ (.refl s)
  | linkNoisy n => delta exec; exact execLinkNoisy_mem _ (.refl s)
  | linkNoisyClear n => delta exec; exact execLinkNoisyClear_mem _ (.refl s)
  | retrain n => delta exec; exact execRetrain_mem _ (.refl s)
  | release n => delta exec; exact execRelease_mem _ (.refl s)
  | disable n v => delta exec; exact execDisable_mem _ _ (.refl s)
  | messageForward k => delta exec; exact execMessageForward_mem _ (.refl s)
  | rd k => delta exec; exact execRd_mem _ (.refl s)
  | wr k => cases hi
  | void_ k => delta exec; exact execVoid_mem _ (.refl s)
  | sig k => cases hi
  | rddata k => cases hi
  | wrack k => cases hi
  | sigack k => delta exec; exact execSigack_mem _ (.refl s)
  | remoteRequestTimeout tag => cases hi
  | colData k => cases hi
  | colPmk k => cases hi
  | colAck k => cases hi
  | colReady k => cases hi
  | colCtrl k => cases hi
  | colSpot k => cases hi
  | colVerdict k => cases hi
  | colDecision k => cases hi
  | colReadyResend q i => cases hi
  | chunkResend q i => cases hi
  | collectiveTimeout q i => cases hi
  | powerSharePeriod => delta exec; exact execPowerSharePeriod_mem (.refl s)
  | power k => delta exec; exact execPower_mem _ (.refl s)
  | gets l k => cases hi
  | getm l k => cases hi
  | upg l k => cases hi
  | readnc l k => cases hi
  | writenc l k => cases hi
  | putm l k => cases hi
  | pute l k => cases hi
  | puts l k => cases hi
  | snps l k => delta exec; exact execSnps_mem _ _ (.refl s)
  | snpm l k => delta exec; exact execSnpm_mem _ _ (.refl s)
  | snpinv l k => delta exec; exact execSnpinv_mem _ _ (.refl s)
  | snprd l k => delta exec; exact execSnprd_mem _ _ (.refl s)
  | datas l k => cases hi
  | datae l k => cases hi
  | datam l k => cases hi
  | ack l k => cases hi
  | wback l k => delta exec; exact execWback_mem _ _ (.refl s)
  | invack l k => cases hi
  | snpdata l k => cases hi
  | snpack l k => cases hi
  | miss l k => cases hi
  | missPutPending l k => cases hi
  | snoopTimeout l k => cases hi
  | dirAgeWarn l => delta exec; exact execDirAgeWarn_mem _ (.refl s)
  | scrubPass k corrected lost => delta exec; exact execScrubPass_mem _ _ _ (.refl s)
  | bankCopyComplete k j => delta exec; exact execBankCopyComplete_mem _ _ (.refl s)
  | hbmTempReading temps => delta exec; exact execHbmTempReading_mem _ (.refl s)
  | hotChannel c => delta exec; exact execHotChannel_mem _ (.refl s)
  | apply f k => delta exec; exact execApply_mem _ _ (.refl s)
  | flush f k => delta exec; exact execFlush_mem _ _ (.refl s)
  | fcpActionDone => cases hi
  | testMode v => delta exec; exact execTestMode_mem _ (.refl s)
  | start c val => delta exec; exact execStart_mem _ _ (.refl s)
  | stop c => delta exec; exact execStop_mem _ (.refl s)
  | tgDone c mism => cases hi
  | iftStart => delta exec; exact execIftStart_mem (.refl s)
  | iftForced k slot => delta exec; exact execIftForced_mem _ _ (.refl s)
  | iftComplete pass chain => cases hi
  | coreHang c => cases hi
  | hubClrst mask => delta exec; exact execHubClrst_mem _ (.refl s)
  | clusterResetDone => cases hi
  | pwrGoodRise nodeId bootSel => cases hi
  | bootStepComplete => cases hi
  | bootTimeout => cases hi
  | pwrGoodFall n => cases hi
  | perstN => cases hi
  | hotReset => cases hi
  | flr f => cases hi
  | pfFlr => cases hi
  | vfEnableClear => cases hi
  | powerLoss n => cases hi
  | flowOkFall ps => delta exec; exact execFlowOkFall_mem _ (.refl s)
  | flowStop ps => cases hi
  | thermalTrip => cases hi
  | droop d depth ps => delta exec; exact execDroop_mem _ _ _ (.refl s)
  | droopHoldExpiry cluster ps => delta exec; exact execDroopHoldExpiry_mem _ _ (.refl s)
  | droopRestoreStep cluster ps => delta exec; exact execDroopRestoreStep_mem _ _ (.refl s)
  | droopStorm die => delta exec; exact execDroopStorm_mem _ (.refl s)
  | droopVoltageReturn die => delta exec; exact execDroopVoltageReturn_mem _ (.refl s)
  | rqAck rail => delta exec; exact execRqAck_mem _ (.refl s)
  | rqAckTimeout rail => delta exec; exact execRqAckTimeout_mem _ (.refl s)
  | railFault r => delta exec; exact execRailFault_mem _ (.refl s)
  | opportunisticDecision die => delta exec; exact execOpportunisticDecision_mem _ (.refl s)
  | capUpdate => delta exec; exact execCapUpdate_mem (.refl s)
  | thermalStateEval => delta exec; exact execThermalStateEval_mem (.refl s)
  | critStep die => delta exec; exact execCritStep_mem _ (.refl s)
  | watchdogReset p => delta exec; exact execWatchdogReset_mem _ (.refl s)
  | processorReturn p => cases hi
  | controllerAbsent p => delta exec; exact execControllerAbsent_mem _ (.refl s)
  | odRead tr => delta exec; exact execOdRead_mem _ (.refl s)
  | odWrite tr => delta exec; exact execOdWrite_mem _ (.refl s)
  | odCommit tr => delta exec; exact execOdCommit_mem _ (.refl s)
  | applyNow tr => cases hi
  | defaults tr => delta exec; exact execDefaults_mem _ (.refl s)
  | journalBatchPersisted fails => delta exec; exact execJournalBatchPersisted_mem _ (.refl s)
  | compactionCopy => delta exec; exact execCompactionCopy_mem (.refl s)
  | tokenRefill => delta exec; exact execTokenRefill_mem (.refl s)
  | go val => delta exec; exact execGo_mem _ (.refl s)
  | single id data => delta exec; exact execSingle_mem _ _ (.refl s)
  | first id data => delta exec; exact execFirst_mem _ _ (.refl s)
  | consec id data => delta exec; exact execConsec_mem _ _ (.refl s)
  | flow id data => delta exec; exact execFlow_mem _ _ (.refl s)
  | canTransferTimeout => delta exec; exact execCanTransferTimeout_mem (.refl s)
  | mctpOdRequest i3c src tag body => delta exec; exact execMctpOdRequest_mem _ _ _ _ (.refl s)
  | mctpControl i3c src body => delta exec; exact execMctpControl_mem _ _ _ (.refl s)
  | getMeasurements i3c src body => delta exec; exact execGetMeasurements_mem _ _ _ (.refl s)
  | healthBeacon => delta exec; exact execHealthBeacon_mem (.refl s)
  | serviceLogEventWrite => delta exec; exact execServiceLogEventWrite_mem (.refl s)
  | hourlyDigest => delta exec; exact execHourlyDigest_mem (.refl s)
  | marginSweep k => delta exec; exact execMarginSweep_mem _ (.refl s)
  | marginSweepComplete k slacks => delta exec; exact execMarginSweepComplete_mem _ _ (.refl s)
  | telEvselWrite k n val => delta exec; exact execTelEvselWrite_mem _ _ _ (.refl s)
  | snapGo g => delta exec; exact execSnapGo_mem _ (.refl s)
  | maxclr => delta exec; exact execMaxclr_mem (.refl s)
  | traceFlush k => cases hi
  | traceStart k => delta exec; exact execTraceStart_mem _ (.refl s)
  | dlBegin tr => delta exec; exact execDlBegin_mem _ (.refl s)
  | dlData tr => delta exec; exact execDlData_mem _ (.refl s)
  | dlFrom tr => delta exec; exact execDlFrom_mem _ (.refl s)
  | dlAbort tr => delta exec; exact execDlAbort_mem _ (.refl s)
  | verify tr => delta exec; exact execVerify_mem _ (.refl s)
  | verifyComplete => delta exec; exact execVerifyComplete_mem (.refl s)
  | activate tr => delta exec; exact execActivate_mem _ (.refl s)
  | activateQuiesced => delta exec; exact execActivateQuiesced_mem (.refl s)
  | quiesceTimeout => delta exec; exact execQuiesceTimeout_mem (.refl s)
  | handoffResume ok => cases hi
  | confirm tr => delta exec; exact execConfirm_mem _ (.refl s)
  | autoConfirm => delta exec; exact execAutoConfirm_mem (.refl s)
  | reject tr => delta exec; exact execReject_mem _ (.refl s)
  | bar2Read f o n => delta exec; exact execBar2Read_mem _ _ _ (.refl s)
  | bar2Write f o data => cases hi
  | hostCompletion tag status poison data => cases hi
  | hostCompletionTimeout tag => delta exec; exact execHostCompletionTimeout_mem _ (.refl s)
  | msixUnmask f v => delta exec; exact execMsixUnmask_mem _ _ (.refl s)
  | msixHoldoffExpiry f v => delta exec; exact execMsixHoldoffExpiry_mem _ _ (.refl s)
  | pcieConfigAccess f op => delta exec; exact execPcieConfigAccess_mem _ _ (.refl s)
  | registerWrite f off n val => delta exec; exact execRegisterWrite_mem _ _ _ _ (.refl s)
  | perstNRise => delta exec; exact execPerstNRise_mem (.refl s)
  | flowOkRise ps => delta exec; exact execFlowOkRise_mem _ (.refl s)
  | sleepEntryComplete core => delta exec; exact execSleepEntryComplete_mem _ (.refl s)
  | memoryResponse home a b => cases hi
  | flashOperationComplete ok => delta exec; exact execFlashOperationComplete_mem _ (.refl s)
  | pcRetrainComplete c ok hit => delta exec; exact execPcRetrainComplete_mem _ _ _ (.refl s)
  | errorCheckAndScrub a => delta exec; exact execErrorCheckAndScrub_mem _ (.refl s)
  | tck tms tdi trstN => delta exec; exact execTck_mem _ _ _ (.refl s)
  | spdmOverMctp i3c src body => delta exec; exact execSpdmOverMctp_mem _ _ _ (.refl s)

end Sys2Proof.Machine
end

