-- ==== Sys2Proof/Laws/State.lean ====
section
/-!
SUPPORT. Each field of the state after each of the plain updates.
-/

namespace Sys2Proof.Machine

variable (s : State)

@[simp] theorem State.pending_setReg (k v : Nat) : (s.setReg k v).pending = s.pending := rfl
@[simp] theorem State.free_setReg (k v : Nat) : (s.setReg k v).free = s.free := rfl
@[simp] theorem State.outbox_setReg (k v : Nat) : (s.setReg k v).outbox = s.outbox := rfl
@[simp] theorem State.regs_setReg (k v : Nat) : (s.setReg k v).regs = smapPut regCold s.regs k (BitVec.ofNat 64 v) := rfl
@[simp] theorem State.mem_setReg (k v : Nat) : (s.setReg k v).mem = s.mem := rfl
@[simp] theorem State.seals_setReg (k v : Nat) : (s.setReg k v).seals = s.seals := rfl
@[simp] theorem State.beat_setReg (k v : Nat) : (s.setReg k v).beat = s.beat := rfl
@[simp] theorem State.ps_setReg (k v : Nat) : (s.setReg k v).ps = s.ps := rfl
@[simp] theorem State.ticks_setReg (k v : Nat) : (s.setReg k v).ticks = s.ticks := rfl
@[simp] theorem State.tiers_setReg (k v : Nat) : (s.setReg k v).tiers = s.tiers := rfl
@[simp] theorem State.coh_setReg (k v : Nat) : (s.setReg k v).coh = s.coh := rfl
@[simp] theorem State.cores_setReg (k v : Nat) : (s.setReg k v).cores = s.cores := rfl
@[simp] theorem State.queues_setReg (k v : Nat) : (s.setReg k v).queues = s.queues := rfl
@[simp] theorem State.flights_setReg (k v : Nat) : (s.setReg k v).flights = s.flights := rfl
@[simp] theorem State.sorter_setReg (k v : Nat) : (s.setReg k v).sorter = s.sorter := rfl
@[simp] theorem State.sems_setReg (k v : Nat) : (s.setReg k v).sems = s.sems := rfl
@[simp] theorem State.deadLetters_setReg (k v : Nat) : (s.setReg k v).deadLetters = s.deadLetters := rfl
@[simp] theorem State.domains_setReg (k v : Nat) : (s.setReg k v).domains = s.domains := rfl
@[simp] theorem State.faults_setReg (k v : Nat) : (s.setReg k v).faults = s.faults := rfl
@[simp] theorem State.slogQ_setReg (k v : Nat) : (s.setReg k v).slogQ = s.slogQ := rfl
@[simp] theorem State.traces_setReg (k v : Nat) : (s.setReg k v).traces = s.traces := rfl
@[simp] theorem State.msix_setReg (k v : Nat) : (s.setReg k v).msix = s.msix := rfl
@[simp] theorem State.pcie_setReg (k v : Nat) : (s.setReg k v).pcie = s.pcie := rfl
@[simp] theorem State.vfEnable_setReg (k v : Nat) : (s.setReg k v).vfEnable = s.vfEnable := rfl
@[simp] theorem State.numVfs_setReg (k v : Nat) : (s.setReg k v).numVfs = s.numVfs := rfl
@[simp] theorem State.ctrClears_setReg (k v : Nat) : (s.setReg k v).ctrClears = s.ctrClears := rfl
@[simp] theorem State.lowLatch_setReg (k v : Nat) : (s.setReg k v).lowLatch = s.lowLatch := rfl
@[simp] theorem State.fabric_setReg (k v : Nat) : (s.setReg k v).fabric = s.fabric := rfl
@[simp] theorem State.col_setReg (k v : Nat) : (s.setReg k v).col = s.col := rfl
@[simp] theorem State.beatLogic_setReg (k v : Nat) : (s.setReg k v).beatLogic = s.beatLogic := rfl
@[simp] theorem State.esc_setReg (k v : Nat) : (s.setReg k v).esc = s.esc := rfl
@[simp] theorem State.power_setReg (k v : Nat) : (s.setReg k v).power = s.power := rfl
@[simp] theorem State.od_setReg (k v : Nat) : (s.setReg k v).od = s.od := rfl
@[simp] theorem State.absent_setReg (k v : Nat) : (s.setReg k v).absent = s.absent := rfl
@[simp] theorem State.jrn_setReg (k v : Nat) : (s.setReg k v).jrn = s.jrn := rfl
@[simp] theorem State.fw_setReg (k v : Nat) : (s.setReg k v).fw = s.fw := rfl
@[simp] theorem State.boot_setReg (k v : Nat) : (s.setReg k v).boot = s.boot := rfl
@[simp] theorem State.evsel_setReg (k v : Nat) : (s.setReg k v).evsel = s.evsel := rfl
@[simp] theorem State.tel_setReg (k v : Nat) : (s.setReg k v).tel = s.tel := rfl
@[simp] theorem State.barOpen_setReg (k v : Nat) : (s.setReg k v).barOpen = s.barOpen := rfl
@[simp] theorem State.clrst_setReg (k v : Nat) : (s.setReg k v).clrst = s.clrst := rfl
@[simp] theorem State.clrstAt_setReg (k v : Nat) : (s.setReg k v).clrstAt = s.clrstAt := rfl

@[simp] theorem State.pending_setFld (k hi lo v : Nat) : (s.setFld k hi lo v).pending = s.pending := rfl
@[simp] theorem State.free_setFld (k hi lo v : Nat) : (s.setFld k hi lo v).free = s.free := rfl
@[simp] theorem State.outbox_setFld (k hi lo v : Nat) : (s.setFld k hi lo v).outbox = s.outbox := rfl
@[simp] theorem State.regs_setFld (k hi lo v : Nat) : (s.setFld k hi lo v).regs = smapPut regCold s.regs k (BitVec.ofNat 64 (setBits (s.reg k) hi lo v)) := rfl
@[simp] theorem State.mem_setFld (k hi lo v : Nat) : (s.setFld k hi lo v).mem = s.mem := rfl
@[simp] theorem State.seals_setFld (k hi lo v : Nat) : (s.setFld k hi lo v).seals = s.seals := rfl
@[simp] theorem State.beat_setFld (k hi lo v : Nat) : (s.setFld k hi lo v).beat = s.beat := rfl
@[simp] theorem State.ps_setFld (k hi lo v : Nat) : (s.setFld k hi lo v).ps = s.ps := rfl
@[simp] theorem State.ticks_setFld (k hi lo v : Nat) : (s.setFld k hi lo v).ticks = s.ticks := rfl
@[simp] theorem State.tiers_setFld (k hi lo v : Nat) : (s.setFld k hi lo v).tiers = s.tiers := rfl
@[simp] theorem State.coh_setFld (k hi lo v : Nat) : (s.setFld k hi lo v).coh = s.coh := rfl
@[simp] theorem State.cores_setFld (k hi lo v : Nat) : (s.setFld k hi lo v).cores = s.cores := rfl
@[simp] theorem State.queues_setFld (k hi lo v : Nat) : (s.setFld k hi lo v).queues = s.queues := rfl
@[simp] theorem State.flights_setFld (k hi lo v : Nat) : (s.setFld k hi lo v).flights = s.flights := rfl
@[simp] theorem State.sorter_setFld (k hi lo v : Nat) : (s.setFld k hi lo v).sorter = s.sorter := rfl
@[simp] theorem State.sems_setFld (k hi lo v : Nat) : (s.setFld k hi lo v).sems = s.sems := rfl
@[simp] theorem State.deadLetters_setFld (k hi lo v : Nat) : (s.setFld k hi lo v).deadLetters = s.deadLetters := rfl
@[simp] theorem State.domains_setFld (k hi lo v : Nat) : (s.setFld k hi lo v).domains = s.domains := rfl
@[simp] theorem State.faults_setFld (k hi lo v : Nat) : (s.setFld k hi lo v).faults = s.faults := rfl
@[simp] theorem State.slogQ_setFld (k hi lo v : Nat) : (s.setFld k hi lo v).slogQ = s.slogQ := rfl
@[simp] theorem State.traces_setFld (k hi lo v : Nat) : (s.setFld k hi lo v).traces = s.traces := rfl
@[simp] theorem State.msix_setFld (k hi lo v : Nat) : (s.setFld k hi lo v).msix = s.msix := rfl
@[simp] theorem State.pcie_setFld (k hi lo v : Nat) : (s.setFld k hi lo v).pcie = s.pcie := rfl
@[simp] theorem State.vfEnable_setFld (k hi lo v : Nat) : (s.setFld k hi lo v).vfEnable = s.vfEnable := rfl
@[simp] theorem State.numVfs_setFld (k hi lo v : Nat) : (s.setFld k hi lo v).numVfs = s.numVfs := rfl
@[simp] theorem State.ctrClears_setFld (k hi lo v : Nat) : (s.setFld k hi lo v).ctrClears = s.ctrClears := rfl
@[simp] theorem State.lowLatch_setFld (k hi lo v : Nat) : (s.setFld k hi lo v).lowLatch = s.lowLatch := rfl
@[simp] theorem State.fabric_setFld (k hi lo v : Nat) : (s.setFld k hi lo v).fabric = s.fabric := rfl
@[simp] theorem State.col_setFld (k hi lo v : Nat) : (s.setFld k hi lo v).col = s.col := rfl
@[simp] theorem State.beatLogic_setFld (k hi lo v : Nat) : (s.setFld k hi lo v).beatLogic = s.beatLogic := rfl
@[simp] theorem State.esc_setFld (k hi lo v : Nat) : (s.setFld k hi lo v).esc = s.esc := rfl
@[simp] theorem State.power_setFld (k hi lo v : Nat) : (s.setFld k hi lo v).power = s.power := rfl
@[simp] theorem State.od_setFld (k hi lo v : Nat) : (s.setFld k hi lo v).od = s.od := rfl
@[simp] theorem State.absent_setFld (k hi lo v : Nat) : (s.setFld k hi lo v).absent = s.absent := rfl
@[simp] theorem State.jrn_setFld (k hi lo v : Nat) : (s.setFld k hi lo v).jrn = s.jrn := rfl
@[simp] theorem State.fw_setFld (k hi lo v : Nat) : (s.setFld k hi lo v).fw = s.fw := rfl
@[simp] theorem State.boot_setFld (k hi lo v : Nat) : (s.setFld k hi lo v).boot = s.boot := rfl
@[simp] theorem State.evsel_setFld (k hi lo v : Nat) : (s.setFld k hi lo v).evsel = s.evsel := rfl
@[simp] theorem State.tel_setFld (k hi lo v : Nat) : (s.setFld k hi lo v).tel = s.tel := rfl
@[simp] theorem State.barOpen_setFld (k hi lo v : Nat) : (s.setFld k hi lo v).barOpen = s.barOpen := rfl
@[simp] theorem State.clrst_setFld (k hi lo v : Nat) : (s.setFld k hi lo v).clrst = s.clrst := rfl
@[simp] theorem State.clrstAt_setFld (k hi lo v : Nat) : (s.setFld k hi lo v).clrstAt = s.clrstAt := rfl

@[simp] theorem State.pending_send (o : Out) : (s.send o).pending = s.pending := rfl
@[simp] theorem State.free_send (o : Out) : (s.send o).free = s.free := rfl
@[simp] theorem State.outbox_send (o : Out) : (s.send o).outbox = s.outbox ++ [o] := rfl
@[simp] theorem State.regs_send (o : Out) : (s.send o).regs = s.regs := rfl
@[simp] theorem State.mem_send (o : Out) : (s.send o).mem = s.mem := rfl
@[simp] theorem State.seals_send (o : Out) : (s.send o).seals = s.seals := rfl
@[simp] theorem State.beat_send (o : Out) : (s.send o).beat = s.beat := rfl
@[simp] theorem State.ps_send (o : Out) : (s.send o).ps = s.ps := rfl
@[simp] theorem State.ticks_send (o : Out) : (s.send o).ticks = s.ticks := rfl
@[simp] theorem State.tiers_send (o : Out) : (s.send o).tiers = s.tiers := rfl
@[simp] theorem State.coh_send (o : Out) : (s.send o).coh = s.coh := rfl
@[simp] theorem State.cores_send (o : Out) : (s.send o).cores = s.cores := rfl
@[simp] theorem State.queues_send (o : Out) : (s.send o).queues = s.queues := rfl
@[simp] theorem State.flights_send (o : Out) : (s.send o).flights = s.flights := rfl
@[simp] theorem State.sorter_send (o : Out) : (s.send o).sorter = s.sorter := rfl
@[simp] theorem State.sems_send (o : Out) : (s.send o).sems = s.sems := rfl
@[simp] theorem State.deadLetters_send (o : Out) : (s.send o).deadLetters = s.deadLetters := rfl
@[simp] theorem State.domains_send (o : Out) : (s.send o).domains = s.domains := rfl
@[simp] theorem State.faults_send (o : Out) : (s.send o).faults = s.faults := rfl
@[simp] theorem State.slogQ_send (o : Out) : (s.send o).slogQ = s.slogQ := rfl
@[simp] theorem State.traces_send (o : Out) : (s.send o).traces = s.traces := rfl
@[simp] theorem State.msix_send (o : Out) : (s.send o).msix = s.msix := rfl
@[simp] theorem State.pcie_send (o : Out) : (s.send o).pcie = s.pcie := rfl
@[simp] theorem State.vfEnable_send (o : Out) : (s.send o).vfEnable = s.vfEnable := rfl
@[simp] theorem State.numVfs_send (o : Out) : (s.send o).numVfs = s.numVfs := rfl
@[simp] theorem State.ctrClears_send (o : Out) : (s.send o).ctrClears = s.ctrClears := rfl
@[simp] theorem State.lowLatch_send (o : Out) : (s.send o).lowLatch = s.lowLatch := rfl
@[simp] theorem State.fabric_send (o : Out) : (s.send o).fabric = s.fabric := rfl
@[simp] theorem State.col_send (o : Out) : (s.send o).col = s.col := rfl
@[simp] theorem State.beatLogic_send (o : Out) : (s.send o).beatLogic = s.beatLogic := rfl
@[simp] theorem State.esc_send (o : Out) : (s.send o).esc = s.esc := rfl
@[simp] theorem State.power_send (o : Out) : (s.send o).power = s.power := rfl
@[simp] theorem State.od_send (o : Out) : (s.send o).od = s.od := rfl
@[simp] theorem State.absent_send (o : Out) : (s.send o).absent = s.absent := rfl
@[simp] theorem State.jrn_send (o : Out) : (s.send o).jrn = s.jrn := rfl
@[simp] theorem State.fw_send (o : Out) : (s.send o).fw = s.fw := rfl
@[simp] theorem State.boot_send (o : Out) : (s.send o).boot = s.boot := rfl
@[simp] theorem State.evsel_send (o : Out) : (s.send o).evsel = s.evsel := rfl
@[simp] theorem State.tel_send (o : Out) : (s.send o).tel = s.tel := rfl
@[simp] theorem State.barOpen_send (o : Out) : (s.send o).barOpen = s.barOpen := rfl
@[simp] theorem State.clrst_send (o : Out) : (s.send o).clrst = s.clrst := rfl
@[simp] theorem State.clrstAt_send (o : Out) : (s.send o).clrstAt = s.clrstAt := rfl

@[simp] theorem State.pending_setCore (c : Nat) (v : Core) : (s.setCore c v).pending = s.pending := rfl
@[simp] theorem State.free_setCore (c : Nat) (v : Core) : (s.setCore c v).free = s.free := rfl
@[simp] theorem State.outbox_setCore (c : Nat) (v : Core) : (s.setCore c v).outbox = s.outbox := rfl
@[simp] theorem State.regs_setCore (c : Nat) (v : Core) : (s.setCore c v).regs = s.regs := rfl
@[simp] theorem State.mem_setCore (c : Nat) (v : Core) : (s.setCore c v).mem = s.mem := rfl
@[simp] theorem State.seals_setCore (c : Nat) (v : Core) : (s.setCore c v).seals = s.seals := rfl
@[simp] theorem State.beat_setCore (c : Nat) (v : Core) : (s.setCore c v).beat = s.beat := rfl
@[simp] theorem State.ps_setCore (c : Nat) (v : Core) : (s.setCore c v).ps = s.ps := rfl
@[simp] theorem State.ticks_setCore (c : Nat) (v : Core) : (s.setCore c v).ticks = s.ticks := rfl
@[simp] theorem State.tiers_setCore (c : Nat) (v : Core) : (s.setCore c v).tiers = s.tiers := rfl
@[simp] theorem State.coh_setCore (c : Nat) (v : Core) : (s.setCore c v).coh = s.coh := rfl
@[simp] theorem State.cores_setCore (c : Nat) (v : Core) : (s.setCore c v).cores = smapPut (fun _ => Core.init) s.cores c v := rfl
@[simp] theorem State.queues_setCore (c : Nat) (v : Core) : (s.setCore c v).queues = s.queues := rfl
@[simp] theorem State.flights_setCore (c : Nat) (v : Core) : (s.setCore c v).flights = s.flights := rfl
@[simp] theorem State.sorter_setCore (c : Nat) (v : Core) : (s.setCore c v).sorter = s.sorter := rfl
@[simp] theorem State.sems_setCore (c : Nat) (v : Core) : (s.setCore c v).sems = s.sems := rfl
@[simp] theorem State.deadLetters_setCore (c : Nat) (v : Core) : (s.setCore c v).deadLetters = s.deadLetters := rfl
@[simp] theorem State.domains_setCore (c : Nat) (v : Core) : (s.setCore c v).domains = s.domains := rfl
@[simp] theorem State.faults_setCore (c : Nat) (v : Core) : (s.setCore c v).faults = s.faults := rfl
@[simp] theorem State.slogQ_setCore (c : Nat) (v : Core) : (s.setCore c v).slogQ = s.slogQ := rfl
@[simp] theorem State.traces_setCore (c : Nat) (v : Core) : (s.setCore c v).traces = s.traces := rfl
@[simp] theorem State.msix_setCore (c : Nat) (v : Core) : (s.setCore c v).msix = s.msix := rfl
@[simp] theorem State.pcie_setCore (c : Nat) (v : Core) : (s.setCore c v).pcie = s.pcie := rfl
@[simp] theorem State.vfEnable_setCore (c : Nat) (v : Core) : (s.setCore c v).vfEnable = s.vfEnable := rfl
@[simp] theorem State.numVfs_setCore (c : Nat) (v : Core) : (s.setCore c v).numVfs = s.numVfs := rfl
@[simp] theorem State.ctrClears_setCore (c : Nat) (v : Core) : (s.setCore c v).ctrClears = s.ctrClears := rfl
@[simp] theorem State.lowLatch_setCore (c : Nat) (v : Core) : (s.setCore c v).lowLatch = s.lowLatch := rfl
@[simp] theorem State.fabric_setCore (c : Nat) (v : Core) : (s.setCore c v).fabric = s.fabric := rfl
@[simp] theorem State.col_setCore (c : Nat) (v : Core) : (s.setCore c v).col = s.col := rfl
@[simp] theorem State.beatLogic_setCore (c : Nat) (v : Core) : (s.setCore c v).beatLogic = s.beatLogic := rfl
@[simp] theorem State.esc_setCore (c : Nat) (v : Core) : (s.setCore c v).esc = s.esc := rfl
@[simp] theorem State.power_setCore (c : Nat) (v : Core) : (s.setCore c v).power = s.power := rfl
@[simp] theorem State.od_setCore (c : Nat) (v : Core) : (s.setCore c v).od = s.od := rfl
@[simp] theorem State.absent_setCore (c : Nat) (v : Core) : (s.setCore c v).absent = s.absent := rfl
@[simp] theorem State.jrn_setCore (c : Nat) (v : Core) : (s.setCore c v).jrn = s.jrn := rfl
@[simp] theorem State.fw_setCore (c : Nat) (v : Core) : (s.setCore c v).fw = s.fw := rfl
@[simp] theorem State.boot_setCore (c : Nat) (v : Core) : (s.setCore c v).boot = s.boot := rfl
@[simp] theorem State.evsel_setCore (c : Nat) (v : Core) : (s.setCore c v).evsel = s.evsel := rfl
@[simp] theorem State.tel_setCore (c : Nat) (v : Core) : (s.setCore c v).tel = s.tel := rfl
@[simp] theorem State.barOpen_setCore (c : Nat) (v : Core) : (s.setCore c v).barOpen = s.barOpen := rfl
@[simp] theorem State.clrst_setCore (c : Nat) (v : Core) : (s.setCore c v).clrst = s.clrst := rfl
@[simp] theorem State.clrstAt_setCore (c : Nat) (v : Core) : (s.setCore c v).clrstAt = s.clrstAt := rfl

@[simp] theorem State.pending_modCore (c : Nat) (g : Core → Core) : (s.modCore c g).pending = s.pending := rfl
@[simp] theorem State.free_modCore (c : Nat) (g : Core → Core) : (s.modCore c g).free = s.free := rfl
@[simp] theorem State.outbox_modCore (c : Nat) (g : Core → Core) : (s.modCore c g).outbox = s.outbox := rfl
@[simp] theorem State.regs_modCore (c : Nat) (g : Core → Core) : (s.modCore c g).regs = s.regs := rfl
@[simp] theorem State.mem_modCore (c : Nat) (g : Core → Core) : (s.modCore c g).mem = s.mem := rfl
@[simp] theorem State.seals_modCore (c : Nat) (g : Core → Core) : (s.modCore c g).seals = s.seals := rfl
@[simp] theorem State.beat_modCore (c : Nat) (g : Core → Core) : (s.modCore c g).beat = s.beat := rfl
@[simp] theorem State.ps_modCore (c : Nat) (g : Core → Core) : (s.modCore c g).ps = s.ps := rfl
@[simp] theorem State.ticks_modCore (c : Nat) (g : Core → Core) : (s.modCore c g).ticks = s.ticks := rfl
@[simp] theorem State.tiers_modCore (c : Nat) (g : Core → Core) : (s.modCore c g).tiers = s.tiers := rfl
@[simp] theorem State.coh_modCore (c : Nat) (g : Core → Core) : (s.modCore c g).coh = s.coh := rfl
@[simp] theorem State.cores_modCore (c : Nat) (g : Core → Core) : (s.modCore c g).cores = smapPut (fun _ => Core.init) s.cores c (g (s.core c)) := rfl
@[simp] theorem State.queues_modCore (c : Nat) (g : Core → Core) : (s.modCore c g).queues = s.queues := rfl
@[simp] theorem State.flights_modCore (c : Nat) (g : Core → Core) : (s.modCore c g).flights = s.flights := rfl
@[simp] theorem State.sorter_modCore (c : Nat) (g : Core → Core) : (s.modCore c g).sorter = s.sorter := rfl
@[simp] theorem State.sems_modCore (c : Nat) (g : Core → Core) : (s.modCore c g).sems = s.sems := rfl
@[simp] theorem State.deadLetters_modCore (c : Nat) (g : Core → Core) : (s.modCore c g).deadLetters = s.deadLetters := rfl
@[simp] theorem State.domains_modCore (c : Nat) (g : Core → Core) : (s.modCore c g).domains = s.domains := rfl
@[simp] theorem State.faults_modCore (c : Nat) (g : Core → Core) : (s.modCore c g).faults = s.faults := rfl
@[simp] theorem State.slogQ_modCore (c : Nat) (g : Core → Core) : (s.modCore c g).slogQ = s.slogQ := rfl
@[simp] theorem State.traces_modCore (c : Nat) (g : Core → Core) : (s.modCore c g).traces = s.traces := rfl
@[simp] theorem State.msix_modCore (c : Nat) (g : Core → Core) : (s.modCore c g).msix = s.msix := rfl
@[simp] theorem State.pcie_modCore (c : Nat) (g : Core → Core) : (s.modCore c g).pcie = s.pcie := rfl
@[simp] theorem State.vfEnable_modCore (c : Nat) (g : Core → Core) : (s.modCore c g).vfEnable = s.vfEnable := rfl
@[simp] theorem State.numVfs_modCore (c : Nat) (g : Core → Core) : (s.modCore c g).numVfs = s.numVfs := rfl
@[simp] theorem State.ctrClears_modCore (c : Nat) (g : Core → Core) : (s.modCore c g).ctrClears = s.ctrClears := rfl
@[simp] theorem State.lowLatch_modCore (c : Nat) (g : Core → Core) : (s.modCore c g).lowLatch = s.lowLatch := rfl
@[simp] theorem State.fabric_modCore (c : Nat) (g : Core → Core) : (s.modCore c g).fabric = s.fabric := rfl
@[simp] theorem State.col_modCore (c : Nat) (g : Core → Core) : (s.modCore c g).col = s.col := rfl
@[simp] theorem State.beatLogic_modCore (c : Nat) (g : Core → Core) : (s.modCore c g).beatLogic = s.beatLogic := rfl
@[simp] theorem State.esc_modCore (c : Nat) (g : Core → Core) : (s.modCore c g).esc = s.esc := rfl
@[simp] theorem State.power_modCore (c : Nat) (g : Core → Core) : (s.modCore c g).power = s.power := rfl
@[simp] theorem State.od_modCore (c : Nat) (g : Core → Core) : (s.modCore c g).od = s.od := rfl
@[simp] theorem State.absent_modCore (c : Nat) (g : Core → Core) : (s.modCore c g).absent = s.absent := rfl
@[simp] theorem State.jrn_modCore (c : Nat) (g : Core → Core) : (s.modCore c g).jrn = s.jrn := rfl
@[simp] theorem State.fw_modCore (c : Nat) (g : Core → Core) : (s.modCore c g).fw = s.fw := rfl
@[simp] theorem State.boot_modCore (c : Nat) (g : Core → Core) : (s.modCore c g).boot = s.boot := rfl
@[simp] theorem State.evsel_modCore (c : Nat) (g : Core → Core) : (s.modCore c g).evsel = s.evsel := rfl
@[simp] theorem State.tel_modCore (c : Nat) (g : Core → Core) : (s.modCore c g).tel = s.tel := rfl
@[simp] theorem State.barOpen_modCore (c : Nat) (g : Core → Core) : (s.modCore c g).barOpen = s.barOpen := rfl
@[simp] theorem State.clrst_modCore (c : Nat) (g : Core → Core) : (s.modCore c g).clrst = s.clrst := rfl
@[simp] theorem State.clrstAt_modCore (c : Nat) (g : Core → Core) : (s.modCore c g).clrstAt = s.clrstAt := rfl

@[simp] theorem State.pending_setQueue (q : Nat) (v : Queue) : (s.setQueue q v).pending = s.pending := rfl
@[simp] theorem State.free_setQueue (q : Nat) (v : Queue) : (s.setQueue q v).free = s.free := rfl
@[simp] theorem State.outbox_setQueue (q : Nat) (v : Queue) : (s.setQueue q v).outbox = s.outbox := rfl
@[simp] theorem State.regs_setQueue (q : Nat) (v : Queue) : (s.setQueue q v).regs = s.regs := rfl
@[simp] theorem State.mem_setQueue (q : Nat) (v : Queue) : (s.setQueue q v).mem = s.mem := rfl
@[simp] theorem State.seals_setQueue (q : Nat) (v : Queue) : (s.setQueue q v).seals = s.seals := rfl
@[simp] theorem State.beat_setQueue (q : Nat) (v : Queue) : (s.setQueue q v).beat = s.beat := rfl
@[simp] theorem State.ps_setQueue (q : Nat) (v : Queue) : (s.setQueue q v).ps = s.ps := rfl
@[simp] theorem State.ticks_setQueue (q : Nat) (v : Queue) : (s.setQueue q v).ticks = s.ticks := rfl
@[simp] theorem State.tiers_setQueue (q : Nat) (v : Queue) : (s.setQueue q v).tiers = s.tiers := rfl
@[simp] theorem State.coh_setQueue (q : Nat) (v : Queue) : (s.setQueue q v).coh = s.coh := rfl
@[simp] theorem State.cores_setQueue (q : Nat) (v : Queue) : (s.setQueue q v).cores = s.cores := rfl
@[simp] theorem State.queues_setQueue (q : Nat) (v : Queue) : (s.setQueue q v).queues = smapPut (fun _ => Queue.init) s.queues q v := rfl
@[simp] theorem State.flights_setQueue (q : Nat) (v : Queue) : (s.setQueue q v).flights = s.flights := rfl
@[simp] theorem State.sorter_setQueue (q : Nat) (v : Queue) : (s.setQueue q v).sorter = s.sorter := rfl
@[simp] theorem State.sems_setQueue (q : Nat) (v : Queue) : (s.setQueue q v).sems = s.sems := rfl
@[simp] theorem State.deadLetters_setQueue (q : Nat) (v : Queue) : (s.setQueue q v).deadLetters = s.deadLetters := rfl
@[simp] theorem State.domains_setQueue (q : Nat) (v : Queue) : (s.setQueue q v).domains = s.domains := rfl
@[simp] theorem State.faults_setQueue (q : Nat) (v : Queue) : (s.setQueue q v).faults = s.faults := rfl
@[simp] theorem State.slogQ_setQueue (q : Nat) (v : Queue) : (s.setQueue q v).slogQ = s.slogQ := rfl
@[simp] theorem State.traces_setQueue (q : Nat) (v : Queue) : (s.setQueue q v).traces = s.traces := rfl
@[simp] theorem State.msix_setQueue (q : Nat) (v : Queue) : (s.setQueue q v).msix = s.msix := rfl
@[simp] theorem State.pcie_setQueue (q : Nat) (v : Queue) : (s.setQueue q v).pcie = s.pcie := rfl
@[simp] theorem State.vfEnable_setQueue (q : Nat) (v : Queue) : (s.setQueue q v).vfEnable = s.vfEnable := rfl
@[simp] theorem State.numVfs_setQueue (q : Nat) (v : Queue) : (s.setQueue q v).numVfs = s.numVfs := rfl
@[simp] theorem State.ctrClears_setQueue (q : Nat) (v : Queue) : (s.setQueue q v).ctrClears = s.ctrClears := rfl
@[simp] theorem State.lowLatch_setQueue (q : Nat) (v : Queue) : (s.setQueue q v).lowLatch = s.lowLatch := rfl
@[simp] theorem State.fabric_setQueue (q : Nat) (v : Queue) : (s.setQueue q v).fabric = s.fabric := rfl
@[simp] theorem State.col_setQueue (q : Nat) (v : Queue) : (s.setQueue q v).col = s.col := rfl
@[simp] theorem State.beatLogic_setQueue (q : Nat) (v : Queue) : (s.setQueue q v).beatLogic = s.beatLogic := rfl
@[simp] theorem State.esc_setQueue (q : Nat) (v : Queue) : (s.setQueue q v).esc = s.esc := rfl
@[simp] theorem State.power_setQueue (q : Nat) (v : Queue) : (s.setQueue q v).power = s.power := rfl
@[simp] theorem State.od_setQueue (q : Nat) (v : Queue) : (s.setQueue q v).od = s.od := rfl
@[simp] theorem State.absent_setQueue (q : Nat) (v : Queue) : (s.setQueue q v).absent = s.absent := rfl
@[simp] theorem State.jrn_setQueue (q : Nat) (v : Queue) : (s.setQueue q v).jrn = s.jrn := rfl
@[simp] theorem State.fw_setQueue (q : Nat) (v : Queue) : (s.setQueue q v).fw = s.fw := rfl
@[simp] theorem State.boot_setQueue (q : Nat) (v : Queue) : (s.setQueue q v).boot = s.boot := rfl
@[simp] theorem State.evsel_setQueue (q : Nat) (v : Queue) : (s.setQueue q v).evsel = s.evsel := rfl
@[simp] theorem State.tel_setQueue (q : Nat) (v : Queue) : (s.setQueue q v).tel = s.tel := rfl
@[simp] theorem State.barOpen_setQueue (q : Nat) (v : Queue) : (s.setQueue q v).barOpen = s.barOpen := rfl
@[simp] theorem State.clrst_setQueue (q : Nat) (v : Queue) : (s.setQueue q v).clrst = s.clrst := rfl
@[simp] theorem State.clrstAt_setQueue (q : Nat) (v : Queue) : (s.setQueue q v).clrstAt = s.clrstAt := rfl

@[simp] theorem State.pending_modQueue (q : Nat) (g : Queue → Queue) : (s.modQueue q g).pending = s.pending := rfl
@[simp] theorem State.free_modQueue (q : Nat) (g : Queue → Queue) : (s.modQueue q g).free = s.free := rfl
@[simp] theorem State.outbox_modQueue (q : Nat) (g : Queue → Queue) : (s.modQueue q g).outbox = s.outbox := rfl
@[simp] theorem State.regs_modQueue (q : Nat) (g : Queue → Queue) : (s.modQueue q g).regs = s.regs := rfl
@[simp] theorem State.mem_modQueue (q : Nat) (g : Queue → Queue) : (s.modQueue q g).mem = s.mem := rfl
@[simp] theorem State.seals_modQueue (q : Nat) (g : Queue → Queue) : (s.modQueue q g).seals = s.seals := rfl
@[simp] theorem State.beat_modQueue (q : Nat) (g : Queue → Queue) : (s.modQueue q g).beat = s.beat := rfl
@[simp] theorem State.ps_modQueue (q : Nat) (g : Queue → Queue) : (s.modQueue q g).ps = s.ps := rfl
@[simp] theorem State.ticks_modQueue (q : Nat) (g : Queue → Queue) : (s.modQueue q g).ticks = s.ticks := rfl
@[simp] theorem State.tiers_modQueue (q : Nat) (g : Queue → Queue) : (s.modQueue q g).tiers = s.tiers := rfl
@[simp] theorem State.coh_modQueue (q : Nat) (g : Queue → Queue) : (s.modQueue q g).coh = s.coh := rfl
@[simp] theorem State.cores_modQueue (q : Nat) (g : Queue → Queue) : (s.modQueue q g).cores = s.cores := rfl
@[simp] theorem State.queues_modQueue (q : Nat) (g : Queue → Queue) : (s.modQueue q g).queues = smapPut (fun _ => Queue.init) s.queues q (g (s.queue q)) := rfl
@[simp] theorem State.flights_modQueue (q : Nat) (g : Queue → Queue) : (s.modQueue q g).flights = s.flights := rfl
@[simp] theorem State.sorter_modQueue (q : Nat) (g : Queue → Queue) : (s.modQueue q g).sorter = s.sorter := rfl
@[simp] theorem State.sems_modQueue (q : Nat) (g : Queue → Queue) : (s.modQueue q g).sems = s.sems := rfl
@[simp] theorem State.deadLetters_modQueue (q : Nat) (g : Queue → Queue) : (s.modQueue q g).deadLetters = s.deadLetters := rfl
@[simp] theorem State.domains_modQueue (q : Nat) (g : Queue → Queue) : (s.modQueue q g).domains = s.domains := rfl
@[simp] theorem State.faults_modQueue (q : Nat) (g : Queue → Queue) : (s.modQueue q g).faults = s.faults := rfl
@[simp] theorem State.slogQ_modQueue (q : Nat) (g : Queue → Queue) : (s.modQueue q g).slogQ = s.slogQ := rfl
@[simp] theorem State.traces_modQueue (q : Nat) (g : Queue → Queue) : (s.modQueue q g).traces = s.traces := rfl
@[simp] theorem State.msix_modQueue (q : Nat) (g : Queue → Queue) : (s.modQueue q g).msix = s.msix := rfl
@[simp] theorem State.pcie_modQueue (q : Nat) (g : Queue → Queue) : (s.modQueue q g).pcie = s.pcie := rfl
@[simp] theorem State.vfEnable_modQueue (q : Nat) (g : Queue → Queue) : (s.modQueue q g).vfEnable = s.vfEnable := rfl
@[simp] theorem State.numVfs_modQueue (q : Nat) (g : Queue → Queue) : (s.modQueue q g).numVfs = s.numVfs := rfl
@[simp] theorem State.ctrClears_modQueue (q : Nat) (g : Queue → Queue) : (s.modQueue q g).ctrClears = s.ctrClears := rfl
@[simp] theorem State.lowLatch_modQueue (q : Nat) (g : Queue → Queue) : (s.modQueue q g).lowLatch = s.lowLatch := rfl
@[simp] theorem State.fabric_modQueue (q : Nat) (g : Queue → Queue) : (s.modQueue q g).fabric = s.fabric := rfl
@[simp] theorem State.col_modQueue (q : Nat) (g : Queue → Queue) : (s.modQueue q g).col = s.col := rfl
@[simp] theorem State.beatLogic_modQueue (q : Nat) (g : Queue → Queue) : (s.modQueue q g).beatLogic = s.beatLogic := rfl
@[simp] theorem State.esc_modQueue (q : Nat) (g : Queue → Queue) : (s.modQueue q g).esc = s.esc := rfl
@[simp] theorem State.power_modQueue (q : Nat) (g : Queue → Queue) : (s.modQueue q g).power = s.power := rfl
@[simp] theorem State.od_modQueue (q : Nat) (g : Queue → Queue) : (s.modQueue q g).od = s.od := rfl
@[simp] theorem State.absent_modQueue (q : Nat) (g : Queue → Queue) : (s.modQueue q g).absent = s.absent := rfl
@[simp] theorem State.jrn_modQueue (q : Nat) (g : Queue → Queue) : (s.modQueue q g).jrn = s.jrn := rfl
@[simp] theorem State.fw_modQueue (q : Nat) (g : Queue → Queue) : (s.modQueue q g).fw = s.fw := rfl
@[simp] theorem State.boot_modQueue (q : Nat) (g : Queue → Queue) : (s.modQueue q g).boot = s.boot := rfl
@[simp] theorem State.evsel_modQueue (q : Nat) (g : Queue → Queue) : (s.modQueue q g).evsel = s.evsel := rfl
@[simp] theorem State.tel_modQueue (q : Nat) (g : Queue → Queue) : (s.modQueue q g).tel = s.tel := rfl
@[simp] theorem State.barOpen_modQueue (q : Nat) (g : Queue → Queue) : (s.modQueue q g).barOpen = s.barOpen := rfl
@[simp] theorem State.clrst_modQueue (q : Nat) (g : Queue → Queue) : (s.modQueue q g).clrst = s.clrst := rfl
@[simp] theorem State.clrstAt_modQueue (q : Nat) (g : Queue → Queue) : (s.modQueue q g).clrstAt = s.clrstAt := rfl

@[simp] theorem State.pending_setDomain (f : Nat) (v : StepDomain) : (s.setDomain f v).pending = s.pending := rfl
@[simp] theorem State.free_setDomain (f : Nat) (v : StepDomain) : (s.setDomain f v).free = s.free := rfl
@[simp] theorem State.outbox_setDomain (f : Nat) (v : StepDomain) : (s.setDomain f v).outbox = s.outbox := rfl
@[simp] theorem State.regs_setDomain (f : Nat) (v : StepDomain) : (s.setDomain f v).regs = s.regs := rfl
@[simp] theorem State.mem_setDomain (f : Nat) (v : StepDomain) : (s.setDomain f v).mem = s.mem := rfl
@[simp] theorem State.seals_setDomain (f : Nat) (v : StepDomain) : (s.setDomain f v).seals = s.seals := rfl
@[simp] theorem State.beat_setDomain (f : Nat) (v : StepDomain) : (s.setDomain f v).beat = s.beat := rfl
@[simp] theorem State.ps_setDomain (f : Nat) (v : StepDomain) : (s.setDomain f v).ps = s.ps := rfl
@[simp] theorem State.ticks_setDomain (f : Nat) (v : StepDomain) : (s.setDomain f v).ticks = s.ticks := rfl
@[simp] theorem State.tiers_setDomain (f : Nat) (v : StepDomain) : (s.setDomain f v).tiers = s.tiers := rfl
@[simp] theorem State.coh_setDomain (f : Nat) (v : StepDomain) : (s.setDomain f v).coh = s.coh := rfl
@[simp] theorem State.cores_setDomain (f : Nat) (v : StepDomain) : (s.setDomain f v).cores = s.cores := rfl
@[simp] theorem State.queues_setDomain (f : Nat) (v : StepDomain) : (s.setDomain f v).queues = s.queues := rfl
@[simp] theorem State.flights_setDomain (f : Nat) (v : StepDomain) : (s.setDomain f v).flights = s.flights := rfl
@[simp] theorem State.sorter_setDomain (f : Nat) (v : StepDomain) : (s.setDomain f v).sorter = s.sorter := rfl
@[simp] theorem State.sems_setDomain (f : Nat) (v : StepDomain) : (s.setDomain f v).sems = s.sems := rfl
@[simp] theorem State.deadLetters_setDomain (f : Nat) (v : StepDomain) : (s.setDomain f v).deadLetters = s.deadLetters := rfl
@[simp] theorem State.domains_setDomain (f : Nat) (v : StepDomain) : (s.setDomain f v).domains = smapPut (fun _ => StepDomain.init) s.domains f v := rfl
@[simp] theorem State.faults_setDomain (f : Nat) (v : StepDomain) : (s.setDomain f v).faults = s.faults := rfl
@[simp] theorem State.slogQ_setDomain (f : Nat) (v : StepDomain) : (s.setDomain f v).slogQ = s.slogQ := rfl
@[simp] theorem State.traces_setDomain (f : Nat) (v : StepDomain) : (s.setDomain f v).traces = s.traces := rfl
@[simp] theorem State.msix_setDomain (f : Nat) (v : StepDomain) : (s.setDomain f v).msix = s.msix := rfl
@[simp] theorem State.pcie_setDomain (f : Nat) (v : StepDomain) : (s.setDomain f v).pcie = s.pcie := rfl
@[simp] theorem State.vfEnable_setDomain (f : Nat) (v : StepDomain) : (s.setDomain f v).vfEnable = s.vfEnable := rfl
@[simp] theorem State.numVfs_setDomain (f : Nat) (v : StepDomain) : (s.setDomain f v).numVfs = s.numVfs := rfl
@[simp] theorem State.ctrClears_setDomain (f : Nat) (v : StepDomain) : (s.setDomain f v).ctrClears = s.ctrClears := rfl
@[simp] theorem State.lowLatch_setDomain (f : Nat) (v : StepDomain) : (s.setDomain f v).lowLatch = s.lowLatch := rfl
@[simp] theorem State.fabric_setDomain (f : Nat) (v : StepDomain) : (s.setDomain f v).fabric = s.fabric := rfl
@[simp] theorem State.col_setDomain (f : Nat) (v : StepDomain) : (s.setDomain f v).col = s.col := rfl
@[simp] theorem State.beatLogic_setDomain (f : Nat) (v : StepDomain) : (s.setDomain f v).beatLogic = s.beatLogic := rfl
@[simp] theorem State.esc_setDomain (f : Nat) (v : StepDomain) : (s.setDomain f v).esc = s.esc := rfl
@[simp] theorem State.power_setDomain (f : Nat) (v : StepDomain) : (s.setDomain f v).power = s.power := rfl
@[simp] theorem State.od_setDomain (f : Nat) (v : StepDomain) : (s.setDomain f v).od = s.od := rfl
@[simp] theorem State.absent_setDomain (f : Nat) (v : StepDomain) : (s.setDomain f v).absent = s.absent := rfl
@[simp] theorem State.jrn_setDomain (f : Nat) (v : StepDomain) : (s.setDomain f v).jrn = s.jrn := rfl
@[simp] theorem State.fw_setDomain (f : Nat) (v : StepDomain) : (s.setDomain f v).fw = s.fw := rfl
@[simp] theorem State.boot_setDomain (f : Nat) (v : StepDomain) : (s.setDomain f v).boot = s.boot := rfl
@[simp] theorem State.evsel_setDomain (f : Nat) (v : StepDomain) : (s.setDomain f v).evsel = s.evsel := rfl
@[simp] theorem State.tel_setDomain (f : Nat) (v : StepDomain) : (s.setDomain f v).tel = s.tel := rfl
@[simp] theorem State.barOpen_setDomain (f : Nat) (v : StepDomain) : (s.setDomain f v).barOpen = s.barOpen := rfl
@[simp] theorem State.clrst_setDomain (f : Nat) (v : StepDomain) : (s.setDomain f v).clrst = s.clrst := rfl
@[simp] theorem State.clrstAt_setDomain (f : Nat) (v : StepDomain) : (s.setDomain f v).clrstAt = s.clrstAt := rfl

@[simp] theorem State.pending_setLink (n : Nat) (l : LinkState) : (s.setLink n l).pending = s.pending := rfl
@[simp] theorem State.free_setLink (n : Nat) (l : LinkState) : (s.setLink n l).free = s.free := rfl
@[simp] theorem State.outbox_setLink (n : Nat) (l : LinkState) : (s.setLink n l).outbox = s.outbox := rfl
@[simp] theorem State.regs_setLink (n : Nat) (l : LinkState) : (s.setLink n l).regs = s.regs := rfl
@[simp] theorem State.mem_setLink (n : Nat) (l : LinkState) : (s.setLink n l).mem = s.mem := rfl
@[simp] theorem State.seals_setLink (n : Nat) (l : LinkState) : (s.setLink n l).seals = s.seals := rfl
@[simp] theorem State.beat_setLink (n : Nat) (l : LinkState) : (s.setLink n l).beat = s.beat := rfl
@[simp] theorem State.ps_setLink (n : Nat) (l : LinkState) : (s.setLink n l).ps = s.ps := rfl
@[simp] theorem State.ticks_setLink (n : Nat) (l : LinkState) : (s.setLink n l).ticks = s.ticks := rfl
@[simp] theorem State.tiers_setLink (n : Nat) (l : LinkState) : (s.setLink n l).tiers = s.tiers := rfl
@[simp] theorem State.coh_setLink (n : Nat) (l : LinkState) : (s.setLink n l).coh = s.coh := rfl
@[simp] theorem State.cores_setLink (n : Nat) (l : LinkState) : (s.setLink n l).cores = s.cores := rfl
@[simp] theorem State.queues_setLink (n : Nat) (l : LinkState) : (s.setLink n l).queues = s.queues := rfl
@[simp] theorem State.flights_setLink (n : Nat) (l : LinkState) : (s.setLink n l).flights = s.flights := rfl
@[simp] theorem State.sorter_setLink (n : Nat) (l : LinkState) : (s.setLink n l).sorter = s.sorter := rfl
@[simp] theorem State.sems_setLink (n : Nat) (l : LinkState) : (s.setLink n l).sems = s.sems := rfl
@[simp] theorem State.deadLetters_setLink (n : Nat) (l : LinkState) : (s.setLink n l).deadLetters = s.deadLetters := rfl
@[simp] theorem State.domains_setLink (n : Nat) (l : LinkState) : (s.setLink n l).domains = s.domains := rfl
@[simp] theorem State.faults_setLink (n : Nat) (l : LinkState) : (s.setLink n l).faults = s.faults := rfl
@[simp] theorem State.slogQ_setLink (n : Nat) (l : LinkState) : (s.setLink n l).slogQ = s.slogQ := rfl
@[simp] theorem State.traces_setLink (n : Nat) (l : LinkState) : (s.setLink n l).traces = s.traces := rfl
@[simp] theorem State.msix_setLink (n : Nat) (l : LinkState) : (s.setLink n l).msix = s.msix := rfl
@[simp] theorem State.pcie_setLink (n : Nat) (l : LinkState) : (s.setLink n l).pcie = s.pcie := rfl
@[simp] theorem State.vfEnable_setLink (n : Nat) (l : LinkState) : (s.setLink n l).vfEnable = s.vfEnable := rfl
@[simp] theorem State.numVfs_setLink (n : Nat) (l : LinkState) : (s.setLink n l).numVfs = s.numVfs := rfl
@[simp] theorem State.ctrClears_setLink (n : Nat) (l : LinkState) : (s.setLink n l).ctrClears = s.ctrClears := rfl
@[simp] theorem State.lowLatch_setLink (n : Nat) (l : LinkState) : (s.setLink n l).lowLatch = s.lowLatch := rfl
@[simp] theorem State.col_setLink (n : Nat) (l : LinkState) : (s.setLink n l).col = s.col := rfl
@[simp] theorem State.beatLogic_setLink (n : Nat) (l : LinkState) : (s.setLink n l).beatLogic = s.beatLogic := rfl
@[simp] theorem State.esc_setLink (n : Nat) (l : LinkState) : (s.setLink n l).esc = s.esc := rfl
@[simp] theorem State.power_setLink (n : Nat) (l : LinkState) : (s.setLink n l).power = s.power := rfl
@[simp] theorem State.od_setLink (n : Nat) (l : LinkState) : (s.setLink n l).od = s.od := rfl
@[simp] theorem State.absent_setLink (n : Nat) (l : LinkState) : (s.setLink n l).absent = s.absent := rfl
@[simp] theorem State.jrn_setLink (n : Nat) (l : LinkState) : (s.setLink n l).jrn = s.jrn := rfl
@[simp] theorem State.fw_setLink (n : Nat) (l : LinkState) : (s.setLink n l).fw = s.fw := rfl
@[simp] theorem State.boot_setLink (n : Nat) (l : LinkState) : (s.setLink n l).boot = s.boot := rfl
@[simp] theorem State.evsel_setLink (n : Nat) (l : LinkState) : (s.setLink n l).evsel = s.evsel := rfl
@[simp] theorem State.tel_setLink (n : Nat) (l : LinkState) : (s.setLink n l).tel = s.tel := rfl
@[simp] theorem State.barOpen_setLink (n : Nat) (l : LinkState) : (s.setLink n l).barOpen = s.barOpen := rfl
@[simp] theorem State.clrst_setLink (n : Nat) (l : LinkState) : (s.setLink n l).clrst = s.clrst := rfl
@[simp] theorem State.clrstAt_setLink (n : Nat) (l : LinkState) : (s.setLink n l).clrstAt = s.clrstAt := rfl

@[simp] theorem State.pending_setCLine (k l : Nat) (v : CLine) : (s.setCLine k l v).pending = s.pending := rfl
@[simp] theorem State.free_setCLine (k l : Nat) (v : CLine) : (s.setCLine k l v).free = s.free := rfl
@[simp] theorem State.outbox_setCLine (k l : Nat) (v : CLine) : (s.setCLine k l v).outbox = s.outbox := rfl
@[simp] theorem State.regs_setCLine (k l : Nat) (v : CLine) : (s.setCLine k l v).regs = s.regs := rfl
@[simp] theorem State.mem_setCLine (k l : Nat) (v : CLine) : (s.setCLine k l v).mem = s.mem := rfl
@[simp] theorem State.seals_setCLine (k l : Nat) (v : CLine) : (s.setCLine k l v).seals = s.seals := rfl
@[simp] theorem State.beat_setCLine (k l : Nat) (v : CLine) : (s.setCLine k l v).beat = s.beat := rfl
@[simp] theorem State.ps_setCLine (k l : Nat) (v : CLine) : (s.setCLine k l v).ps = s.ps := rfl
@[simp] theorem State.ticks_setCLine (k l : Nat) (v : CLine) : (s.setCLine k l v).ticks = s.ticks := rfl
@[simp] theorem State.tiers_setCLine (k l : Nat) (v : CLine) : (s.setCLine k l v).tiers = s.tiers := rfl
@[simp] theorem State.coh_setCLine (k l : Nat) (v : CLine) : (s.setCLine k l v).coh = { s.coh with lines := smapPut (fun _ => CLine.init) s.coh.lines (l * 32 + k) v } := rfl
@[simp] theorem State.cores_setCLine (k l : Nat) (v : CLine) : (s.setCLine k l v).cores = s.cores := rfl
@[simp] theorem State.queues_setCLine (k l : Nat) (v : CLine) : (s.setCLine k l v).queues = s.queues := rfl
@[simp] theorem State.flights_setCLine (k l : Nat) (v : CLine) : (s.setCLine k l v).flights = s.flights := rfl
@[simp] theorem State.sorter_setCLine (k l : Nat) (v : CLine) : (s.setCLine k l v).sorter = s.sorter := rfl
@[simp] theorem State.sems_setCLine (k l : Nat) (v : CLine) : (s.setCLine k l v).sems = s.sems := rfl
@[simp] theorem State.deadLetters_setCLine (k l : Nat) (v : CLine) : (s.setCLine k l v).deadLetters = s.deadLetters := rfl
@[simp] theorem State.domains_setCLine (k l : Nat) (v : CLine) : (s.setCLine k l v).domains = s.domains := rfl
@[simp] theorem State.faults_setCLine (k l : Nat) (v : CLine) : (s.setCLine k l v).faults = s.faults := rfl
@[simp] theorem State.slogQ_setCLine (k l : Nat) (v : CLine) : (s.setCLine k l v).slogQ = s.slogQ := rfl
@[simp] theorem State.traces_setCLine (k l : Nat) (v : CLine) : (s.setCLine k l v).traces = s.traces := rfl
@[simp] theorem State.msix_setCLine (k l : Nat) (v : CLine) : (s.setCLine k l v).msix = s.msix := rfl
@[simp] theorem State.pcie_setCLine (k l : Nat) (v : CLine) : (s.setCLine k l v).pcie = s.pcie := rfl
@[simp] theorem State.vfEnable_setCLine (k l : Nat) (v : CLine) : (s.setCLine k l v).vfEnable = s.vfEnable := rfl
@[simp] theorem State.numVfs_setCLine (k l : Nat) (v : CLine) : (s.setCLine k l v).numVfs = s.numVfs := rfl
@[simp] theorem State.ctrClears_setCLine (k l : Nat) (v : CLine) : (s.setCLine k l v).ctrClears = s.ctrClears := rfl
@[simp] theorem State.lowLatch_setCLine (k l : Nat) (v : CLine) : (s.setCLine k l v).lowLatch = s.lowLatch := rfl
@[simp] theorem State.fabric_setCLine (k l : Nat) (v : CLine) : (s.setCLine k l v).fabric = s.fabric := rfl
@[simp] theorem State.col_setCLine (k l : Nat) (v : CLine) : (s.setCLine k l v).col = s.col := rfl
@[simp] theorem State.beatLogic_setCLine (k l : Nat) (v : CLine) : (s.setCLine k l v).beatLogic = s.beatLogic := rfl
@[simp] theorem State.esc_setCLine (k l : Nat) (v : CLine) : (s.setCLine k l v).esc = s.esc := rfl
@[simp] theorem State.power_setCLine (k l : Nat) (v : CLine) : (s.setCLine k l v).power = s.power := rfl
@[simp] theorem State.od_setCLine (k l : Nat) (v : CLine) : (s.setCLine k l v).od = s.od := rfl
@[simp] theorem State.absent_setCLine (k l : Nat) (v : CLine) : (s.setCLine k l v).absent = s.absent := rfl
@[simp] theorem State.jrn_setCLine (k l : Nat) (v : CLine) : (s.setCLine k l v).jrn = s.jrn := rfl
@[simp] theorem State.fw_setCLine (k l : Nat) (v : CLine) : (s.setCLine k l v).fw = s.fw := rfl
@[simp] theorem State.boot_setCLine (k l : Nat) (v : CLine) : (s.setCLine k l v).boot = s.boot := rfl
@[simp] theorem State.evsel_setCLine (k l : Nat) (v : CLine) : (s.setCLine k l v).evsel = s.evsel := rfl
@[simp] theorem State.tel_setCLine (k l : Nat) (v : CLine) : (s.setCLine k l v).tel = s.tel := rfl
@[simp] theorem State.barOpen_setCLine (k l : Nat) (v : CLine) : (s.setCLine k l v).barOpen = s.barOpen := rfl
@[simp] theorem State.clrst_setCLine (k l : Nat) (v : CLine) : (s.setCLine k l v).clrst = s.clrst := rfl
@[simp] theorem State.clrstAt_setCLine (k l : Nat) (v : CLine) : (s.setCLine k l v).clrstAt = s.clrstAt := rfl

@[simp] theorem State.pending_setDir (l : Nat) (e : DirEntry) : (s.setDir l e).pending = s.pending := rfl
@[simp] theorem State.free_setDir (l : Nat) (e : DirEntry) : (s.setDir l e).free = s.free := rfl
@[simp] theorem State.outbox_setDir (l : Nat) (e : DirEntry) : (s.setDir l e).outbox = s.outbox := rfl
@[simp] theorem State.regs_setDir (l : Nat) (e : DirEntry) : (s.setDir l e).regs = s.regs := rfl
@[simp] theorem State.mem_setDir (l : Nat) (e : DirEntry) : (s.setDir l e).mem = s.mem := rfl
@[simp] theorem State.seals_setDir (l : Nat) (e : DirEntry) : (s.setDir l e).seals = s.seals := rfl
@[simp] theorem State.beat_setDir (l : Nat) (e : DirEntry) : (s.setDir l e).beat = s.beat := rfl
@[simp] theorem State.ps_setDir (l : Nat) (e : DirEntry) : (s.setDir l e).ps = s.ps := rfl
@[simp] theorem State.ticks_setDir (l : Nat) (e : DirEntry) : (s.setDir l e).ticks = s.ticks := rfl
@[simp] theorem State.tiers_setDir (l : Nat) (e : DirEntry) : (s.setDir l e).tiers = s.tiers := rfl
@[simp] theorem State.coh_setDir (l : Nat) (e : DirEntry) : (s.setDir l e).coh = { s.coh with dir := smapPut (fun _ => DirEntry.init) s.coh.dir l e } := rfl
@[simp] theorem State.cores_setDir (l : Nat) (e : DirEntry) : (s.setDir l e).cores = s.cores := rfl
@[simp] theorem State.queues_setDir (l : Nat) (e : DirEntry) : (s.setDir l e).queues = s.queues := rfl
@[simp] theorem State.flights_setDir (l : Nat) (e : DirEntry) : (s.setDir l e).flights = s.flights := rfl
@[simp] theorem State.sorter_setDir (l : Nat) (e : DirEntry) : (s.setDir l e).sorter = s.sorter := rfl
@[simp] theorem State.sems_setDir (l : Nat) (e : DirEntry) : (s.setDir l e).sems = s.sems := rfl
@[simp] theorem State.deadLetters_setDir (l : Nat) (e : DirEntry) : (s.setDir l e).deadLetters = s.deadLetters := rfl
@[simp] theorem State.domains_setDir (l : Nat) (e : DirEntry) : (s.setDir l e).domains = s.domains := rfl
@[simp] theorem State.faults_setDir (l : Nat) (e : DirEntry) : (s.setDir l e).faults = s.faults := rfl
@[simp] theorem State.slogQ_setDir (l : Nat) (e : DirEntry) : (s.setDir l e).slogQ = s.slogQ := rfl
@[simp] theorem State.traces_setDir (l : Nat) (e : DirEntry) : (s.setDir l e).traces = s.traces := rfl
@[simp] theorem State.msix_setDir (l : Nat) (e : DirEntry) : (s.setDir l e).msix = s.msix := rfl
@[simp] theorem State.pcie_setDir (l : Nat) (e : DirEntry) : (s.setDir l e).pcie = s.pcie := rfl
@[simp] theorem State.vfEnable_setDir (l : Nat) (e : DirEntry) : (s.setDir l e).vfEnable = s.vfEnable := rfl
@[simp] theorem State.numVfs_setDir (l : Nat) (e : DirEntry) : (s.setDir l e).numVfs = s.numVfs := rfl
@[simp] theorem State.ctrClears_setDir (l : Nat) (e : DirEntry) : (s.setDir l e).ctrClears = s.ctrClears := rfl
@[simp] theorem State.lowLatch_setDir (l : Nat) (e : DirEntry) : (s.setDir l e).lowLatch = s.lowLatch := rfl
@[simp] theorem State.fabric_setDir (l : Nat) (e : DirEntry) : (s.setDir l e).fabric = s.fabric := rfl
@[simp] theorem State.col_setDir (l : Nat) (e : DirEntry) : (s.setDir l e).col = s.col := rfl
@[simp] theorem State.beatLogic_setDir (l : Nat) (e : DirEntry) : (s.setDir l e).beatLogic = s.beatLogic := rfl
@[simp] theorem State.esc_setDir (l : Nat) (e : DirEntry) : (s.setDir l e).esc = s.esc := rfl
@[simp] theorem State.power_setDir (l : Nat) (e : DirEntry) : (s.setDir l e).power = s.power := rfl
@[simp] theorem State.od_setDir (l : Nat) (e : DirEntry) : (s.setDir l e).od = s.od := rfl
@[simp] theorem State.absent_setDir (l : Nat) (e : DirEntry) : (s.setDir l e).absent = s.absent := rfl
@[simp] theorem State.jrn_setDir (l : Nat) (e : DirEntry) : (s.setDir l e).jrn = s.jrn := rfl
@[simp] theorem State.fw_setDir (l : Nat) (e : DirEntry) : (s.setDir l e).fw = s.fw := rfl
@[simp] theorem State.boot_setDir (l : Nat) (e : DirEntry) : (s.setDir l e).boot = s.boot := rfl
@[simp] theorem State.evsel_setDir (l : Nat) (e : DirEntry) : (s.setDir l e).evsel = s.evsel := rfl
@[simp] theorem State.tel_setDir (l : Nat) (e : DirEntry) : (s.setDir l e).tel = s.tel := rfl
@[simp] theorem State.barOpen_setDir (l : Nat) (e : DirEntry) : (s.setDir l e).barOpen = s.barOpen := rfl
@[simp] theorem State.clrst_setDir (l : Nat) (e : DirEntry) : (s.setDir l e).clrst = s.clrst := rfl
@[simp] theorem State.clrstAt_setDir (l : Nat) (e : DirEntry) : (s.setDir l e).clrstAt = s.clrstAt := rfl

@[simp] theorem State.pending_setMsix (f v : Nat) (m : MsixVec) : (s.setMsix f v m).pending = s.pending := rfl
@[simp] theorem State.free_setMsix (f v : Nat) (m : MsixVec) : (s.setMsix f v m).free = s.free := rfl
@[simp] theorem State.outbox_setMsix (f v : Nat) (m : MsixVec) : (s.setMsix f v m).outbox = s.outbox := rfl
@[simp] theorem State.regs_setMsix (f v : Nat) (m : MsixVec) : (s.setMsix f v m).regs = s.regs := rfl
@[simp] theorem State.mem_setMsix (f v : Nat) (m : MsixVec) : (s.setMsix f v m).mem = s.mem := rfl
@[simp] theorem State.seals_setMsix (f v : Nat) (m : MsixVec) : (s.setMsix f v m).seals = s.seals := rfl
@[simp] theorem State.beat_setMsix (f v : Nat) (m : MsixVec) : (s.setMsix f v m).beat = s.beat := rfl
@[simp] theorem State.ps_setMsix (f v : Nat) (m : MsixVec) : (s.setMsix f v m).ps = s.ps := rfl
@[simp] theorem State.ticks_setMsix (f v : Nat) (m : MsixVec) : (s.setMsix f v m).ticks = s.ticks := rfl
@[simp] theorem State.tiers_setMsix (f v : Nat) (m : MsixVec) : (s.setMsix f v m).tiers = s.tiers := rfl
@[simp] theorem State.coh_setMsix (f v : Nat) (m : MsixVec) : (s.setMsix f v m).coh = s.coh := rfl
@[simp] theorem State.cores_setMsix (f v : Nat) (m : MsixVec) : (s.setMsix f v m).cores = s.cores := rfl
@[simp] theorem State.queues_setMsix (f v : Nat) (m : MsixVec) : (s.setMsix f v m).queues = s.queues := rfl
@[simp] theorem State.flights_setMsix (f v : Nat) (m : MsixVec) : (s.setMsix f v m).flights = s.flights := rfl
@[simp] theorem State.sorter_setMsix (f v : Nat) (m : MsixVec) : (s.setMsix f v m).sorter = s.sorter := rfl
@[simp] theorem State.sems_setMsix (f v : Nat) (m : MsixVec) : (s.setMsix f v m).sems = s.sems := rfl
@[simp] theorem State.deadLetters_setMsix (f v : Nat) (m : MsixVec) : (s.setMsix f v m).deadLetters = s.deadLetters := rfl
@[simp] theorem State.domains_setMsix (f v : Nat) (m : MsixVec) : (s.setMsix f v m).domains = s.domains := rfl
@[simp] theorem State.faults_setMsix (f v : Nat) (m : MsixVec) : (s.setMsix f v m).faults = s.faults := rfl
@[simp] theorem State.slogQ_setMsix (f v : Nat) (m : MsixVec) : (s.setMsix f v m).slogQ = s.slogQ := rfl
@[simp] theorem State.traces_setMsix (f v : Nat) (m : MsixVec) : (s.setMsix f v m).traces = s.traces := rfl
@[simp] theorem State.pcie_setMsix (f v : Nat) (m : MsixVec) : (s.setMsix f v m).pcie = s.pcie := rfl
@[simp] theorem State.vfEnable_setMsix (f v : Nat) (m : MsixVec) : (s.setMsix f v m).vfEnable = s.vfEnable := rfl
@[simp] theorem State.numVfs_setMsix (f v : Nat) (m : MsixVec) : (s.setMsix f v m).numVfs = s.numVfs := rfl
@[simp] theorem State.ctrClears_setMsix (f v : Nat) (m : MsixVec) : (s.setMsix f v m).ctrClears = s.ctrClears := rfl
@[simp] theorem State.lowLatch_setMsix (f v : Nat) (m : MsixVec) : (s.setMsix f v m).lowLatch = s.lowLatch := rfl
@[simp] theorem State.fabric_setMsix (f v : Nat) (m : MsixVec) : (s.setMsix f v m).fabric = s.fabric := rfl
@[simp] theorem State.col_setMsix (f v : Nat) (m : MsixVec) : (s.setMsix f v m).col = s.col := rfl
@[simp] theorem State.beatLogic_setMsix (f v : Nat) (m : MsixVec) : (s.setMsix f v m).beatLogic = s.beatLogic := rfl
@[simp] theorem State.esc_setMsix (f v : Nat) (m : MsixVec) : (s.setMsix f v m).esc = s.esc := rfl
@[simp] theorem State.power_setMsix (f v : Nat) (m : MsixVec) : (s.setMsix f v m).power = s.power := rfl
@[simp] theorem State.od_setMsix (f v : Nat) (m : MsixVec) : (s.setMsix f v m).od = s.od := rfl
@[simp] theorem State.absent_setMsix (f v : Nat) (m : MsixVec) : (s.setMsix f v m).absent = s.absent := rfl
@[simp] theorem State.jrn_setMsix (f v : Nat) (m : MsixVec) : (s.setMsix f v m).jrn = s.jrn := rfl
@[simp] theorem State.fw_setMsix (f v : Nat) (m : MsixVec) : (s.setMsix f v m).fw = s.fw := rfl
@[simp] theorem State.boot_setMsix (f v : Nat) (m : MsixVec) : (s.setMsix f v m).boot = s.boot := rfl
@[simp] theorem State.evsel_setMsix (f v : Nat) (m : MsixVec) : (s.setMsix f v m).evsel = s.evsel := rfl
@[simp] theorem State.tel_setMsix (f v : Nat) (m : MsixVec) : (s.setMsix f v m).tel = s.tel := rfl
@[simp] theorem State.barOpen_setMsix (f v : Nat) (m : MsixVec) : (s.setMsix f v m).barOpen = s.barOpen := rfl
@[simp] theorem State.clrst_setMsix (f v : Nat) (m : MsixVec) : (s.setMsix f v m).clrst = s.clrst := rfl
@[simp] theorem State.clrstAt_setMsix (f v : Nat) (m : MsixVec) : (s.setMsix f v m).clrstAt = s.clrstAt := rfl

@[simp] theorem State.pending_setPcie (f : Nat) (p : FnPcie) : (s.setPcie f p).pending = s.pending := rfl
@[simp] theorem State.free_setPcie (f : Nat) (p : FnPcie) : (s.setPcie f p).free = s.free := rfl
@[simp] theorem State.outbox_setPcie (f : Nat) (p : FnPcie) : (s.setPcie f p).outbox = s.outbox := rfl
@[simp] theorem State.regs_setPcie (f : Nat) (p : FnPcie) : (s.setPcie f p).regs = s.regs := rfl
@[simp] theorem State.mem_setPcie (f : Nat) (p : FnPcie) : (s.setPcie f p).mem = s.mem := rfl
@[simp] theorem State.seals_setPcie (f : Nat) (p : FnPcie) : (s.setPcie f p).seals = s.seals := rfl
@[simp] theorem State.beat_setPcie (f : Nat) (p : FnPcie) : (s.setPcie f p).beat = s.beat := rfl
@[simp] theorem State.ps_setPcie (f : Nat) (p : FnPcie) : (s.setPcie f p).ps = s.ps := rfl
@[simp] theorem State.ticks_setPcie (f : Nat) (p : FnPcie) : (s.setPcie f p).ticks = s.ticks := rfl
@[simp] theorem State.tiers_setPcie (f : Nat) (p : FnPcie) : (s.setPcie f p).tiers = s.tiers := rfl
@[simp] theorem State.coh_setPcie (f : Nat) (p : FnPcie) : (s.setPcie f p).coh = s.coh := rfl
@[simp] theorem State.cores_setPcie (f : Nat) (p : FnPcie) : (s.setPcie f p).cores = s.cores := rfl
@[simp] theorem State.queues_setPcie (f : Nat) (p : FnPcie) : (s.setPcie f p).queues = s.queues := rfl
@[simp] theorem State.flights_setPcie (f : Nat) (p : FnPcie) : (s.setPcie f p).flights = s.flights := rfl
@[simp] theorem State.sorter_setPcie (f : Nat) (p : FnPcie) : (s.setPcie f p).sorter = s.sorter := rfl
@[simp] theorem State.sems_setPcie (f : Nat) (p : FnPcie) : (s.setPcie f p).sems = s.sems := rfl
@[simp] theorem State.deadLetters_setPcie (f : Nat) (p : FnPcie) : (s.setPcie f p).deadLetters = s.deadLetters := rfl
@[simp] theorem State.domains_setPcie (f : Nat) (p : FnPcie) : (s.setPcie f p).domains = s.domains := rfl
@[simp] theorem State.faults_setPcie (f : Nat) (p : FnPcie) : (s.setPcie f p).faults = s.faults := rfl
@[simp] theorem State.slogQ_setPcie (f : Nat) (p : FnPcie) : (s.setPcie f p).slogQ = s.slogQ := rfl
@[simp] theorem State.traces_setPcie (f : Nat) (p : FnPcie) : (s.setPcie f p).traces = s.traces := rfl
@[simp] theorem State.msix_setPcie (f : Nat) (p : FnPcie) : (s.setPcie f p).msix = s.msix := rfl
@[simp] theorem State.pcie_setPcie (f : Nat) (p : FnPcie) : (s.setPcie f p).pcie = smapPut (fun _ => FnPcie.init) s.pcie f p := rfl
@[simp] theorem State.vfEnable_setPcie (f : Nat) (p : FnPcie) : (s.setPcie f p).vfEnable = s.vfEnable := rfl
@[simp] theorem State.numVfs_setPcie (f : Nat) (p : FnPcie) : (s.setPcie f p).numVfs = s.numVfs := rfl
@[simp] theorem State.ctrClears_setPcie (f : Nat) (p : FnPcie) : (s.setPcie f p).ctrClears = s.ctrClears := rfl
@[simp] theorem State.lowLatch_setPcie (f : Nat) (p : FnPcie) : (s.setPcie f p).lowLatch = s.lowLatch := rfl
@[simp] theorem State.fabric_setPcie (f : Nat) (p : FnPcie) : (s.setPcie f p).fabric = s.fabric := rfl
@[simp] theorem State.col_setPcie (f : Nat) (p : FnPcie) : (s.setPcie f p).col = s.col := rfl
@[simp] theorem State.beatLogic_setPcie (f : Nat) (p : FnPcie) : (s.setPcie f p).beatLogic = s.beatLogic := rfl
@[simp] theorem State.esc_setPcie (f : Nat) (p : FnPcie) : (s.setPcie f p).esc = s.esc := rfl
@[simp] theorem State.power_setPcie (f : Nat) (p : FnPcie) : (s.setPcie f p).power = s.power := rfl
@[simp] theorem State.od_setPcie (f : Nat) (p : FnPcie) : (s.setPcie f p).od = s.od := rfl
@[simp] theorem State.absent_setPcie (f : Nat) (p : FnPcie) : (s.setPcie f p).absent = s.absent := rfl
@[simp] theorem State.jrn_setPcie (f : Nat) (p : FnPcie) : (s.setPcie f p).jrn = s.jrn := rfl
@[simp] theorem State.fw_setPcie (f : Nat) (p : FnPcie) : (s.setPcie f p).fw = s.fw := rfl
@[simp] theorem State.boot_setPcie (f : Nat) (p : FnPcie) : (s.setPcie f p).boot = s.boot := rfl
@[simp] theorem State.evsel_setPcie (f : Nat) (p : FnPcie) : (s.setPcie f p).evsel = s.evsel := rfl
@[simp] theorem State.tel_setPcie (f : Nat) (p : FnPcie) : (s.setPcie f p).tel = s.tel := rfl
@[simp] theorem State.barOpen_setPcie (f : Nat) (p : FnPcie) : (s.setPcie f p).barOpen = s.barOpen := rfl
@[simp] theorem State.clrst_setPcie (f : Nat) (p : FnPcie) : (s.setPcie f p).clrst = s.clrst := rfl
@[simp] theorem State.clrstAt_setPcie (f : Nat) (p : FnPcie) : (s.setPcie f p).clrstAt = s.clrstAt := rfl

@[simp] theorem State.pending_putBytes (a : Nat) (bs : List Byte) : (s.putBytes a bs).pending = s.pending := rfl
@[simp] theorem State.free_putBytes (a : Nat) (bs : List Byte) : (s.putBytes a bs).free = s.free := rfl
@[simp] theorem State.outbox_putBytes (a : Nat) (bs : List Byte) : (s.putBytes a bs).outbox = s.outbox := rfl
@[simp] theorem State.regs_putBytes (a : Nat) (bs : List Byte) : (s.putBytes a bs).regs = s.regs := rfl
@[simp] theorem State.mem_putBytes (a : Nat) (bs : List Byte) : (s.putBytes a bs).mem = putBytesMem s.mem a bs := rfl
@[simp] theorem State.seals_putBytes (a : Nat) (bs : List Byte) : (s.putBytes a bs).seals = s.seals := rfl
@[simp] theorem State.beat_putBytes (a : Nat) (bs : List Byte) : (s.putBytes a bs).beat = s.beat := rfl
@[simp] theorem State.ps_putBytes (a : Nat) (bs : List Byte) : (s.putBytes a bs).ps = s.ps := rfl
@[simp] theorem State.ticks_putBytes (a : Nat) (bs : List Byte) : (s.putBytes a bs).ticks = s.ticks := rfl
@[simp] theorem State.tiers_putBytes (a : Nat) (bs : List Byte) : (s.putBytes a bs).tiers = s.tiers := rfl
@[simp] theorem State.coh_putBytes (a : Nat) (bs : List Byte) : (s.putBytes a bs).coh = s.coh := rfl
@[simp] theorem State.cores_putBytes (a : Nat) (bs : List Byte) : (s.putBytes a bs).cores = s.cores := rfl
@[simp] theorem State.queues_putBytes (a : Nat) (bs : List Byte) : (s.putBytes a bs).queues = s.queues := rfl
@[simp] theorem State.flights_putBytes (a : Nat) (bs : List Byte) : (s.putBytes a bs).flights = s.flights := rfl
@[simp] theorem State.sorter_putBytes (a : Nat) (bs : List Byte) : (s.putBytes a bs).sorter = s.sorter := rfl
@[simp] theorem State.sems_putBytes (a : Nat) (bs : List Byte) : (s.putBytes a bs).sems = s.sems := rfl
@[simp] theorem State.deadLetters_putBytes (a : Nat) (bs : List Byte) : (s.putBytes a bs).deadLetters = s.deadLetters := rfl
@[simp] theorem State.domains_putBytes (a : Nat) (bs : List Byte) : (s.putBytes a bs).domains = s.domains := rfl
@[simp] theorem State.faults_putBytes (a : Nat) (bs : List Byte) : (s.putBytes a bs).faults = s.faults := rfl
@[simp] theorem State.slogQ_putBytes (a : Nat) (bs : List Byte) : (s.putBytes a bs).slogQ = s.slogQ := rfl
@[simp] theorem State.traces_putBytes (a : Nat) (bs : List Byte) : (s.putBytes a bs).traces = s.traces := rfl
@[simp] theorem State.msix_putBytes (a : Nat) (bs : List Byte) : (s.putBytes a bs).msix = s.msix := rfl
@[simp] theorem State.pcie_putBytes (a : Nat) (bs : List Byte) : (s.putBytes a bs).pcie = s.pcie := rfl
@[simp] theorem State.vfEnable_putBytes (a : Nat) (bs : List Byte) : (s.putBytes a bs).vfEnable = s.vfEnable := rfl
@[simp] theorem State.numVfs_putBytes (a : Nat) (bs : List Byte) : (s.putBytes a bs).numVfs = s.numVfs := rfl
@[simp] theorem State.ctrClears_putBytes (a : Nat) (bs : List Byte) : (s.putBytes a bs).ctrClears = s.ctrClears := rfl
@[simp] theorem State.lowLatch_putBytes (a : Nat) (bs : List Byte) : (s.putBytes a bs).lowLatch = s.lowLatch := rfl
@[simp] theorem State.fabric_putBytes (a : Nat) (bs : List Byte) : (s.putBytes a bs).fabric = s.fabric := rfl
@[simp] theorem State.col_putBytes (a : Nat) (bs : List Byte) : (s.putBytes a bs).col = s.col := rfl
@[simp] theorem State.beatLogic_putBytes (a : Nat) (bs : List Byte) : (s.putBytes a bs).beatLogic = s.beatLogic := rfl
@[simp] theorem State.esc_putBytes (a : Nat) (bs : List Byte) : (s.putBytes a bs).esc = s.esc := rfl
@[simp] theorem State.power_putBytes (a : Nat) (bs : List Byte) : (s.putBytes a bs).power = s.power := rfl
@[simp] theorem State.od_putBytes (a : Nat) (bs : List Byte) : (s.putBytes a bs).od = s.od := rfl
@[simp] theorem State.absent_putBytes (a : Nat) (bs : List Byte) : (s.putBytes a bs).absent = s.absent := rfl
@[simp] theorem State.jrn_putBytes (a : Nat) (bs : List Byte) : (s.putBytes a bs).jrn = s.jrn := rfl
@[simp] theorem State.fw_putBytes (a : Nat) (bs : List Byte) : (s.putBytes a bs).fw = s.fw := rfl
@[simp] theorem State.boot_putBytes (a : Nat) (bs : List Byte) : (s.putBytes a bs).boot = s.boot := rfl
@[simp] theorem State.evsel_putBytes (a : Nat) (bs : List Byte) : (s.putBytes a bs).evsel = s.evsel := rfl
@[simp] theorem State.tel_putBytes (a : Nat) (bs : List Byte) : (s.putBytes a bs).tel = s.tel := rfl
@[simp] theorem State.barOpen_putBytes (a : Nat) (bs : List Byte) : (s.putBytes a bs).barOpen = s.barOpen := rfl
@[simp] theorem State.clrst_putBytes (a : Nat) (bs : List Byte) : (s.putBytes a bs).clrst = s.clrst := rfl
@[simp] theorem State.clrstAt_putBytes (a : Nat) (bs : List Byte) : (s.putBytes a bs).clrstAt = s.clrstAt := rfl

end Sys2Proof.Machine
end

