-- ==== Sys2Proof/WellFormed.lean ====
section
/-!
DEFINITION. Which commands are well formed: the units they name exist, and the values they carry fit the fields and ranges the spec gives
them. A command that is not well formed names no command of the device; `exec` answers it with the fault `unitAbsent` where it names a unit, and
else as its meaning says.
-/

namespace Sys2Proof.Wf

/-- A queue (R303). -/
def queue (q : Nat) : Bool := decide (q < 262144)
/-- A command's index, of 32 bits (R303). -/
def index (i : Nat) : Bool := decide (i < 2 ^ 32)
/-- A command in flight: a queue and an index. -/
def flight (q i : Nat) : Bool := queue q && index i
/-- A function (R319). -/
def fn (f : Nat) : Bool := decide (f < 512)
/-- A logical core (R3). -/
def lcore (c : Nat) : Bool := decide (c < 512)
/-- A hardware thread of a core (R224). -/
def thread (c t : Nat) : Bool := lcore c && decide (t < 16)
/-- A movement thread of a core (R224). -/
def mover (c t : Nat) : Bool := thread c t && decide (12 ≤ t)
/-- A completion counter (R226). -/
def mvc (m : Nat) : Bool := decide (m < 8)
/-- A generator lane of a core (R205). -/
def lane (l : Nat) : Bool := decide (l < 64)
/-- A cluster (R3). -/
def cluster (k : Nat) : Bool := decide (k < 32)
/-- A compute die. -/
def die (k : Nat) : Bool := decide (k < 4)
/-- A fabric link (R3). -/
def link (n : Nat) : Bool := decide (n < 36)
/-- The lanes of a link, as a mask (R3). -/
def lanes (m : Nat) : Bool := decide (m < 256)
/-- A booked rail (R474). -/
def rail (r : Nat) : Bool := decide (r < 19)
/-- A pseudo-channel (R16). -/
def channel (c : Nat) : Bool := decide (c < 768)
/-- A processor: security, power management, scheduler, or a cluster's control core (R576). -/
def processor (p : Nat) : Bool := decide (p < 35)
/-- A transport of the object dictionary (R518). -/
def transport (tr : Nat) : Bool := decide (tr < 4)
/-- Picoseconds since the latest beat (R412). -/
def phase (ps : Nat) : Bool := decide (ps < 1000000)
/-- A 32-bit value. -/
def w32 (v : Nat) : Bool := decide (v < 2 ^ 32)
/-- A 64-bit value. -/
def w64 (v : Nat) : Bool := decide (v < 2 ^ 64)
/-- A line of 128 B and the cluster a coherence message is of (R282, R287). -/
def line (l k : Nat) : Bool := decide (l * 128 < 2 ^ 52) && cluster k
/-- The bytes of a CAN FD frame (R532). -/
def frame (data : List Byte) : Bool := decide (1 ≤ data.length) && decide (data.length ≤ 64)
/-- A thread's access: a power of two of bytes up to 64 (R232, R241). -/
def access (addr size : Nat) : Bool := w64 addr && [1, 2, 4, 8, 16, 32, 64].contains size
/-- A semaphore, an amount and a scope (R243). -/
def semop (sem v scope : Nat) : Bool := decide (sem < 2 ^ 20) && w64 v && decide (scope < 4)
/-- The offset of a register in BAR0 and the bytes of its access (R598). -/
def access0 (off n : Nat) : Bool := decide (off < 0x1000000) && (n == 4 || n == 8) && off % n == 0
/-- An MSI-X vector of a function (R594). -/
def vector (f v : Nat) : Bool := fn f && decide (v < if f = 0 then 2048 else 64)
/-- Link parameters (R363): coordinates within the shape. -/
def linkPar (p : LinkPar) : Bool :=
  decide (p.x < p.dimX) && decide (p.y < p.dimY) && decide (p.z < p.dimZ) && decide (p.wrap < 8) && decide (p.dir < 6) && decide (p.pos < 6) && lanes p.lanes
/-- A PCIe configuration request (R594, R596, R601). -/
def config : CfgOp → Bool
  | .vfEnable n => decide (n < 512)
  | .maxPayload n => n == 128 || n == 256 || n == 512
  | .bar2Size _ log => decide (log < 64)
  | .completionTimeout us => decide (0 < us)
  | .identity | .busMaster _ | .msix _ _ => true
/-- What the monitors measured (R554): the units named exist. -/
def reading (r : BeatReading) : Bool :=
  r.eyes.all (fun e => decide (e.1 < 288)) && r.hot.all channel && r.refreshes.all (fun e => channel e.1) && r.withheld.all rail

end Sys2Proof.Wf

namespace Sys2Proof

open Wf in
/-- The command is well formed. -/
def Instr.wf : Instr → Bool
  | .nop q i | .fence q i | .wait q i | .waitTimeout q i | .signal q i | .timer q i | .timerExpiry q i | .report q i | .drainMark q i
  | .codebookUpd q i | .allreduce q i | .reduceScatter q i | .allgather q i | .broadcast q i | .reduce q i | .alltoallv q i | .barrier q i
  | .stepBegin q i | .stepCommit q i | .stepAbort q i | .rngSave q i | .rngLoad q i | .iftRun q i | .sealScan q i | .inject q i
  | .prebookExpiry q i | .colReadyResend q i | .chunkResend q i | .collectiveTimeout q i => flight q i
  | .matmul q i _ | .matmulAcc q i _ | .attnFwd q i _ | .attnBwd q i _ | .bwdIn q i _ | .bwdW q i _ | .convert q i _ | .stats q i _ | .rotate q i _
  | .optStep q i _ | .copy q i _ | .gather q i _ | .scatter q i _ | .compress q i _ | .decompress q i _ | .normWatch q i _ | .sample q i _
  | .vprog q i _ _ | .commandComplete q i _ _ => flight q i
  | .stepCommitSample f | .queuePause f | .queueResume f | .queueDisable f | .queueReset f | .haltClr f | .commitFlip f | .commitTimeout f
  | .flr f => fn f
  | .ld c t _ a n => thread c t && access a n
  | .st c t _ v a n => thread c t && w64 v && access a n
  | .mvLd c t m a spad _ | .mvSt c t m a spad _ => mover c t && mvc m && w64 a && decide (spad < 0x400000)
  | .mvPf c t m a _ => mover c t && mvc m && w64 a
  | .mvBulk c t m _ a spad _ => mover c t && mvc m && w64 a && decide (spad < 0x400000)
  | .waitc c t m v => thread c t && mvc m && w32 v
  | .fenceCore c t | .fenceCluster c t | .fenceDevice c t | .fenceFabric c t | .halt c t => thread c t
  | .semaddRel c t n v sc | .semwaitAcq c t n v sc => thread c t && semop n v sc
  | .trace c t v => thread c t && decide (v < 65536)
  | .randU32 c t l _ | .randU c t l _ | .randUo c t l _ | .randNtab c t l _ | .randNbm c t l _ _ => thread c t && lane l
  | .randBern c t l _ p => thread c t && lane l && w32 p
  | .doorbellWrite f q _ tail cdone => fn f && queue q && w32 tail && w32 cdone
  | .commandFetch q | .notBeforeReached q | .agePromotion q | .migrationDrainDone q | .migrationTimeout q => queue q
  | .qmgCancel f q i _ _ => fn f && flight q i
  | .queueEnable f c | .migrate f c => fn f && lcore c
  | .qmgSemvalWrite f v | .qmgSemadd f v | .dlqBaseWrite f v => fn f && w64 v
  | .tenantEntryWrite f off v => fn f && w64 v && off % 8 == 0 && decide (off < 0x80)
  | .assign f tier clear | .query f tier clear => fn f && decide (tier < 4) && decide (clear < 2)
  | .escGrant r | .rqAck r | .rqAckTimeout r | .railFault r => rail r
  | .rampHoldExpiry c | .c1Entry c | .c2Entry c | .c3Entry c | .wakeComplete c | .coreHang c | .sleepEntryComplete c => lcore c
  | .coreWake c cause => lcore c && decide (1 ≤ cause) && decide (cause ≤ 6)
  | .spareReady k | .marginSweep k | .traceFlush k | .traceStart k => cluster k
  | .beatBoundary r => reading r
  | .beatNowRead ps | .timeSyncSend ps | .timeSyncReceive _ ps | .timeReplyReceive _ ps | .flowOkFall ps | .flowStop ps | .flowOkRise ps => phase ps
  | .counterLowRead f off | .ctrClear f off => fn f && access0 off 4
  | .flitTransmit n | .nakReceive n | .nakRepeat n | .linkSignalDetect n | .trainingTimeout n | .trainingRetry n | .spdmResponseTimeout n
  | .authTimeout n | .signalLossTimeout n | .linkStall n | .mgtStallQuarantine n | .linkNoisy n | .linkNoisyClear n | .retrain n | .release n => link n
  | .flitReceive n fl _ _ syms => link n && fl.length == 256 && decide (syms.length ≤ 8)
  | .trainingComplete n m | .retrainComplete n m => link n && lanes m
  | .spdm n v => link n && (v == 0 || v == 1 || v == 3 || v == 9)
  | .linkpar n p => link n && linkPar p
  | .laneFailure n l => link n && decide (l < 8)
  | .disable n v => link n && decide (v < 2)
  | .messageForward _ | .rd _ | .wr _ | .void_ _ | .sig _ | .rddata _ | .wrack _ | .sigack _ | .remoteRequestTimeout _ | .colData _ | .colPmk _
  | .colAck _ | .colReady _ | .colCtrl _ | .colSpot _ | .colVerdict _ | .colDecision _ | .power _ | .hostCompletionTimeout _ => true
  | .gets l k | .getm l k | .upg l k | .readnc l k | .writenc l k | .putm l k | .pute l k | .puts l k | .snps l k | .snpm l k | .snpinv l k
  | .snprd l k | .datas l k | .datae l k | .datam l k | .ack l k | .wback l k | .invack l k | .snpdata l k | .snpack l k | .miss l k
  | .missPutPending l k | .snoopTimeout l k => line l k
  | .dirAgeWarn l => line l 0
  | .scrubPass k _ _ | .droopStorm k | .droopVoltageReturn k | .opportunisticDecision k | .critStep k => die k
  | .bankCopyComplete k j => die k && decide (j < 8)
  | .hbmTempReading temps => temps.length == 12
  | .hotChannel c | .stop c => channel c
  | .start c v => channel c && w64 v
  | .tgDone c mism => channel c && mism.all (fun m => decide (m.seg < 2 ^ 32) && w32 m.diff)
  | .pcRetrainComplete c _ _ => channel c
  | .apply f k | .flush f k => fn f && die k
  | .testMode v => decide (v < 2)
  | .iftForced k slot => cluster k && decide (slot < 17)
  | .hubClrst mask => w32 mask
  | .pwrGoodRise node sel => decide (node < 64) && decide (sel < 4)
  | .droop d _ ps => decide (d < 256) && phase ps
  | .droopHoldExpiry k ps | .droopRestoreStep k ps => cluster k && phase ps
  | .watchdogReset p | .processorReturn p | .controllerAbsent p => processor p
  | .odRead tr | .odWrite tr | .odCommit tr | .applyNow tr | .defaults tr | .dlBegin tr | .dlData tr | .dlFrom tr | .dlAbort tr | .verify tr
  | .activate tr | .confirm tr | .reject tr => transport tr
  | .go v => w64 v
  | .single id data | .first id data | .consec id data | .flow id data => decide (id < 2 ^ 29) && frame data
  | .mctpOdRequest _ src tag _ => decide (src < 256) && decide (tag < 8)
  | .mctpControl _ src _ | .getMeasurements _ src _ | .spdmOverMctp _ src _ => decide (src < 256)
  | .marginSweepComplete k slacks => cluster k && slacks.length == 30
  | .telEvselWrite k n v => cluster k && decide (n < 16) && w64 v
  | .snapGo g => decide (g < 16)
  | .bar2Read f _ n => fn f && decide (n ≤ 4096)
  | .bar2Write f _ data => fn f && decide (data.length ≤ 512)
  | .hostCompletion _ code _ _ => code == 0 || code == 1 || code == 4
  | .msixUnmask f v | .msixHoldoffExpiry f v => vector f v
  | .pcieConfigAccess f op => fn f && config op
  | .registerWrite f off n v => fn f && access0 off n && w64 v
  | .memoryResponse home a b => if home then line a 0 else lcore a && w64 b
  | .errorCheckAndScrub a => decide (a < 0xC000000000)
  | .sorterGrant | .granuleActionDone | .trimUpdate | .acquireTimeout | .powerSharePeriod | .fcpActionDone | .iftStart | .iftComplete _ _
  | .clusterResetDone | .bootStepComplete | .bootTimeout | .pwrGoodFall _ | .perstN | .hotReset | .pfFlr | .vfEnableClear | .powerLoss _
  | .thermalTrip | .capUpdate | .thermalStateEval | .journalBatchPersisted _ | .compactionCopy | .tokenRefill | .canTransferTimeout | .healthBeacon
  | .serviceLogEventWrite | .hourlyDigest | .maxclr | .verifyComplete | .activateQuiesced | .quiesceTimeout | .handoffResume _ | .autoConfirm
  | .perstNRise | .flashOperationComplete _ | .tck _ _ _ => true

end Sys2Proof
end

