-- ==== Sys2Proof/Tests/Slice0.lean ====
section
/-!
SUPPORT. The model's own tests: an ill-formed command for every check of WellFormed.lean; values the spec works out; and, for every statement with
hypotheses, states and operands that meet them. A witness `meets_…` takes the statement as `h` and applies it: each `by decide` among its arguments
shows one of the statement's hypotheses of that state and those operands, so a hypothesis nothing meets would stop it.
-/

set_option Elab.async false

namespace Sys2Proof.Machine

/-- `n` bytes, 0 but for the (offset, byte) pairs given. -/
def tBytes (n : Nat) (l : List (Nat × Nat)) : List Byte :=
  (List.range n).map (fun k => match l.find? (fun x => x.1 == k) with | some x => BitVec.ofNat 8 x.2 | none => 0)

/-- The command in flight (0, 0) of function 0 on core 0, granted at beat 0, with these bytes. -/
def tFly (l : List (Nat × Nat)) : Flight :=
  { queue := 0, index := 0, fn := 0, core := 0, epoch := 0, bytes := tBytes 64 l, grantBeat := 0, grantTick := 0, powered := true, booked := 0, ended := false,
    status := 0, detail := 0, nanf := false, inff := false, reservedCode := false, outlierOvf := false, firstNan := false, firstRow := 0, firstCol := 0,
    blocks := [], cancel := false, stale := false, waiting := 0, wrote := [], remoteBlocks := [], voided := false, undelivered := false, inAttempt := false }

/-- The state after reset with one command in flight. -/
def tRun (l : List (Nat × Nat)) : State := { State.reset with flights := [tFly l] }

/-- The state after reset with BAR0 open. -/
def tBar : State := { State.reset with barOpen := true }

/-! ### ControlCommandsEnd -/

theorem meets_nop (h : Obligations.ControlCommandsEnd) : ∃ t, exec (.nop 0 0) (tRun []) = .next t :=
  ⟨_, (h.1 0 0 (tFly []) _).1 (by decide) (by decide)⟩

theorem meets_fence (h : Obligations.ControlCommandsEnd) : ∃ t, exec (.fence 0 0) (tRun [(0, 1), (32, 2)]) = .next t :=
  ⟨_, (h.1 0 0 (tFly [(0, 1), (32, 2)]) _).2.1 (by decide) (by decide) (by decide) (by decide)⟩

theorem meets_wait (h : Obligations.ControlCommandsEnd) : ∃ t, exec (.wait 0 0) (tRun [(0, 2), (36, 1)]) = .next t :=
  ⟨_, (h.1 0 0 (tFly [(0, 2), (36, 1)]) _).2.2.1 (by decide) (by decide) (by decide) (by decide) (by decide) (by decide)⟩

theorem meets_timer (h : Obligations.ControlCommandsEnd) : ∃ t u, exec (.timer 0 0) (tRun [(0, 4)]) = .next t ∧ exec (.timerExpiry 0 0) (tRun [(0, 4)]) = .next u :=
  ⟨_, _, (h.1 0 0 (tFly [(0, 4)]) _).2.2.2.1 (by decide) (by decide) (by decide)⟩

theorem meets_drainMark (h : Obligations.ControlCommandsEnd) : ∃ t, exec (.drainMark 0 0) (tRun [(0, 6)]) = .next t :=
  ⟨_, (h.1 0 0 (tFly [(0, 6)]) _).2.2.2.2 (by decide) (by decide) (by decide)⟩

theorem meets_waitTimeout (h : Obligations.ControlCommandsEnd) :
    ∃ t, exec (.waitTimeout 0 0) { tRun [(0, 2), (36, 1), (40, 1), (48, 5)] with ticks := 5 } = .next t :=
  ⟨_, (h.2 0 0 (tFly [(0, 2), (36, 1), (40, 1), (48, 5)]) _).1 (by decide) (by decide) (by decide) (by decide)⟩

theorem meets_signal (h : Obligations.ControlCommandsEnd) : ∃ t, exec (.signal 0 0) (tRun [(0, 3), (38, 0xFF), (39, 0x0F)]) = .next t :=
  ⟨_, (h.2 0 0 (tFly [(0, 3), (38, 0xFF), (39, 0x0F)]) _).2.1 (by decide) (by decide) (by decide) (by decide) (by decide) (by decide) (by decide)⟩

theorem meets_report (h : Obligations.ControlCommandsEnd) : ∃ t, exec (.report 0 0) (tRun [(0, 5)]) = .next t :=
  ⟨_, (h.2 0 0 (tFly [(0, 5)]) _).2.2.1 (by decide) (by decide) (by decide) (by decide) (by decide)⟩

theorem meets_report_snapshot (h : Obligations.ControlCommandsEnd) :
    ∃ t, exec (.report 0 0) { tRun [(0, 5), (40, 1)] with tel := { Tel.init with captures := [(0, 0, [])] } } = .next t :=
  ⟨_, (h.2 0 0 (tFly [(0, 5), (40, 1)]) _).2.2.2 [] (by decide) (by decide) (by decide) (by decide) (by decide) (by decide) (by decide)⟩

/-! ### CommandsEnterQueues, GrantsAndCompletions -/

/-- A queue of 16 slots at address 0, ENABLED on core 0, with one command submitted. -/
def tQ : Queue := { Queue.init with state := 1, log2size := 4, tail := 1 }

/-- BAR0 open and queue 0 as given. -/
def tQs (x : Queue) : State := { tBar with queues := [(0, x)] }

/-- A fetched NOP that has waited since beat 0. -/
def tFetched : Fetched := { index := 0, bytes := tBytes 64 [], latched := [], nbReached := true, readyBeat := some 0, promoted := none, prebooked := false }

theorem meets_doorbell (h : Obligations.CommandsEnterQueues) : ∃ t, exec (.doorbellWrite 0 0 8 2 0) (tQs tQ) = .next t :=
  ⟨_, (h 0 0 2 0 0 tFetched [] _ (by decide) (by decide)).1 (by decide) (by decide) (by decide) (by decide) (by decide) (by decide)⟩

theorem meets_commandFetch (h : Obligations.CommandsEnterQueues) : ∃ t, exec (.commandFetch 0) (tQs tQ) = .next t :=
  ⟨_, (h 0 0 0 0 0 tFetched [] _ (by decide) (by decide)).2.1 0 _ (by decide) (by decide) (by decide) (by decide) (by decide) (by decide) rfl
    (by decide +kernel) (by decide) (by decide) (by decide)⟩

theorem meets_agePromotion (h : Obligations.CommandsEnterQueues) :
    ∃ t, exec (.agePromotion 0) { tQs { tQ with fetched := [tFetched] } with ticks := 1000 } = .next t :=
  ⟨_, (h 0 0 0 0 0 tFetched [] _ (by decide) (by decide)).2.2.2 (by decide) (by decide) (by decide) (by decide)⟩

theorem meets_sorterGrant_promoted (h : Obligations.GrantsAndCompletions) :
    ∃ t, exec .sorterGrant (tQs { tQ with fetched := [{ tFetched with promoted := some 0 }] }) = .next t :=
  ⟨_, ((h 0 0 0 false (tFly []) _).1 _ _ rfl (by decide +kernel) rfl).1 0 (by decide +kernel)⟩

theorem tGrant : (tQs { tQ with fetched := [tFetched] }).eligibleQueues = [(0, { tQ with fetched := [tFetched] })] := by decide +kernel

set_option maxRecDepth 20000 in
theorem meets_sorterGrant (h : Obligations.GrantsAndCompletions) : ∃ t, exec .sorterGrant (tQs { tQ with fetched := [tFetched] }) = .next t :=
  ⟨_, ((h 0 0 0 false (tFly []) _).1 _ _ tGrant (by decide) (if_pos rfl).symm).2
    ((tQs { tQ with fetched := [tFetched] }).arbitrate [(0, { tQ with fetched := [tFetched] })]).2 (by decide +kernel) (Prod.ext (by decide +kernel) rfl)⟩

theorem meets_grantQueue (h : Obligations.GrantsAndCompletions) : ∃ t, (tQs { tQ with fetched := [tFetched] }).grantQueue 0 = State.refreshHeads t :=
  ((h 0 0 0 false (tFly []) (tQs { tQ with fetched := [tFetched] })).2.1 tFetched [] (by decide)).imp fun _ x => x.1

theorem meets_commandComplete (h : Obligations.GrantsAndCompletions) :
    ∃ t, exec (.commandComplete 0 0 0 false) { State.reset with flights := [{ tFly [] with ended := true }] } = .next t :=
  ⟨_, (h 0 0 0 false { tFly [] with ended := true } _).2.2 (by decide) (by decide) (by decide)⟩

/-! ### QueuesControlled, MigrationsEnd -/

theorem meets_qmgCancel (h : Obligations.QueuesControlled) : ∃ t, exec (.qmgCancel 0 0 0 true false) (tQs tQ) = .next t :=
  ⟨_, (h.1 0 0 0 0 true false _ (by decide) (by decide)).1 (by decide) (by decide) (by decide)⟩

theorem meets_queueEnable (h : Obligations.QueuesControlled) : ∃ t, exec (.queueEnable 0 511) (tQs { tQ with state := 0, tail := 0, cpl := 1024 }) = .next t :=
  ⟨_, ((h.1 0 511 0 0 false false _ (by decide) (by decide)).2 (by decide) (by decide) (by decide) (by decide)).1 (by decide) (by decide) (by decide)⟩

theorem meets_queuePause (h : Obligations.QueuesControlled) : ∃ t, exec (.queuePause 0) (tQs tQ) = .next t :=
  ⟨_, ((h.1 0 0 0 0 false false _ (by decide) (by decide)).2 (by decide) (by decide) (by decide) (by decide)).2.1 (by decide)⟩

theorem meets_queueResume (h : Obligations.QueuesControlled) : ∃ t, exec (.queueResume 0) (tQs { tQ with state := 2 }) = .next t :=
  ⟨_, ((h.1 0 0 0 0 false false _ (by decide) (by decide)).2 (by decide) (by decide) (by decide) (by decide)).2.2.1 (by decide)⟩

theorem meets_queueDisable (h : Obligations.QueuesControlled) : ∃ t, exec (.queueDisable 0) (tQs tQ) = .next t :=
  ⟨_, ((h.1 0 0 0 0 false false _ (by decide) (by decide)).2 (by decide) (by decide) (by decide) (by decide)).2.2.2.1 (by decide) (by decide)⟩

theorem meets_queueReset (h : Obligations.QueuesControlled) : ∃ t, exec (.queueReset 0) (tQs tQ) = .next t :=
  ⟨_, ((h.1 0 0 0 0 false false _ (by decide) (by decide)).2 (by decide) (by decide) (by decide) (by decide)).2.2.2.2.1⟩

theorem meets_migrate (h : Obligations.QueuesControlled) : ∃ t, exec (.migrate 0 511) (tQs tQ) = .next t :=
  ⟨_, ((h.1 0 511 0 0 false false _ (by decide) (by decide)).2 (by decide) (by decide) (by decide) (by decide)).2.2.2.2.2 (by decide) (by decide)⟩

theorem meets_qmgSemval (h : Obligations.QueuesControlled) : ∃ t u, exec (.qmgSemvalWrite 0 7) tBar = .next t ∧ exec (.qmgSemadd 0 7) tBar = .next u :=
  ⟨_, _, (h.2 0 7 _ (by decide) (by decide)).1 (by decide)⟩

/-- A migration from core 0 to core 1. -/
def tMig : Migration := { oldCore := 0, newCore := 1, drained := false, saved := false, since := 0 }

theorem meets_migrationDrainDone (h : Obligations.MigrationsEnd) : ∃ t, exec (.migrationDrainDone 0) (tQs { tQ with state := 3, migration := some tMig }) = .next t :=
  ⟨_, ((h 0 tMig _ (by decide) (by decide)).1 (by decide)).1 (by decide)⟩

theorem meets_migrationDrainDone_bound (h : Obligations.MigrationsEnd) :
    ∃ t, exec (.migrationDrainDone 0) (tQs { tQ with state := 3, migration := some tMig, rngBind := true }) = .next t :=
  ⟨_, ((h 0 tMig _ (by decide) (by decide)).1 (by decide)).2 (by decide) (by decide) (by decide)⟩

theorem meets_migrationTimeout (h : Obligations.MigrationsEnd) :
    ∃ t, exec (.migrationTimeout 0) { tQs { tQ with state := 3, migration := some tMig } with ticks := 100000, flights := [tFly []] } = .next t :=
  ⟨_, (h 0 tMig _ (by decide) (by decide)).2 (by decide) (by decide) (by decide)⟩

/-! ### TenancyActs, TicketsGranted -/

theorem meets_tenantEntryWrite (h : Obligations.TenancyActs) : ∃ t, exec (.tenantEntryWrite 511 0x10 5) tBar = .next t :=
  ⟨_, (h 511 0x10 5 0 0 { zero := false, tier := 0, first := 0, count := 1, fn := 0, query := false } _).1 (by decide) (by decide) (by decide)⟩

theorem meets_assign (h : Obligations.TenancyActs) : ∃ t, exec (.assign 1 1 1) (tBar.setReg A.GRAN_RANGE (2 ^ 32 + 16351)) = .next t :=
  ⟨_, ((h 1 0 0 1 1 { zero := false, tier := 0, first := 0, count := 1, fn := 0, query := false } _).2.1 (by decide) (by decide) (by decide) (by decide)
    (by decide)).1 (by decide +kernel)⟩

theorem meets_query (h : Obligations.TenancyActs) : ∃ t, exec (.query 0 0 0) tBar = .next t :=
  ⟨_, ((h 0 0 0 0 0 { zero := false, tier := 0, first := 0, count := 1, fn := 0, query := false } _).2.1 (by decide) (by decide) (by decide) (by decide)
    (by decide)).2 (by decide)⟩

/-- A granule action in progress. -/
def tGran (query : Bool) : State :=
  { State.reset with tiers := { State.reset.tiers with granAction := some { zero := false, tier := 0, first := 0, count := 1, fn := 1, query := query } } }

theorem meets_granuleActionDone_assign (h : Obligations.TenancyActs) : ∃ t, exec .granuleActionDone (tGran false) = .next t :=
  ⟨_, ((h 0 0 0 0 0 _ (tGran false)).2.2 rfl _ rfl).1 rfl⟩

theorem meets_granuleActionDone_query (h : Obligations.TenancyActs) : ∃ t, exec .granuleActionDone (tGran true) = .next t :=
  ⟨_, ((h 0 0 0 0 0 _ (tGran true)).2.2 rfl _ rfl).2 rfl⟩

/-- A request of 100 tickets on rail 16. -/
def tReq : EscReq := { rail := 16, amount := 100, nominal := 0, windows := some 4, permanent := false, sys := true, owner := .store, earliest := 0, since := 0 }

theorem meets_escGrant (h : Obligations.TicketsGranted) :
    ∃ t, exec (.escGrant 16) { State.reset with esc := { State.reset.esc with waiting := [tReq] } } = .next t :=
  ⟨_, (h 16 0 0 tReq { rail := 0, amount := 0, nominal := 0, start := 0, stop := none, permanent := false, owner := .store } _).1 (by decide) rfl
    (by decide +kernel)⟩

/-- A pre-booking of queue 0, made at beat 0. -/
def tPre : Booking := { rail := 0, amount := 10, nominal := 0, start := 0, stop := none, permanent := false, owner := .pre 0 0 }

theorem meets_prebookExpiry (h : Obligations.TicketsGranted) :
    ∃ t, exec (.prebookExpiry 0 0) { State.reset with esc := { State.reset.esc with bookings := [tPre] }, ticks := 8 } = .next t :=
  ⟨_, (h 0 0 0 tReq tPre _).2 (by decide) (by decide) (by decide)⟩

/-! ### LinksTrain, LinksAuthenticate, FlitsMove, LinkTroubleAndControl -/

/-- Two devices along X, this one at coordinate 0; link `n` in state `st` with `w` lanes, and what the link holds. -/
def tLink (n st w : Nat) (l : LinkState) : State :=
  { tBar.setReg (A.LNK n 8) (w * 2 ^ 8 + 255 * 2 ^ 16 + st) with fabric := { Fabric.init with dimX := 2, links := [(n, l)] } }

/-- The current a link trains with, booked. -/
def tLinkTickets (n : Nat) (s : State) : State :=
  { s with esc := { s.esc with bookings := [{ rail := 17, amount := 120, nominal := 0, start := 0, stop := none, permanent := false, owner := .link n }] } }

theorem meets_linkSignalDetect (h : Obligations.LinksTrain) : ∃ t, exec (.linkSignalDetect 0) (tLinkTickets 0 (tLink 0 0 0 LinkState.init)) = .next t :=
  ⟨_, ((h 0 0 _ (by decide)).1 (by decide) (by decide) (by decide)).1 (by decide)⟩

theorem meets_trainingRetry (h : Obligations.LinksTrain) :
    ∃ t, exec (.trainingRetry 0) { tLinkTickets 0 (tLink 0 0 0 { LinkState.init with retryAt := 5 }) with ticks := 5 } = .next t :=
  ⟨_, ((h 0 0 _ (by decide)).1 (by decide) (by decide) (by decide)).2 (by decide) _ rfl (by decide)⟩

theorem meets_trainingComplete (h : Obligations.LinksTrain) : ∃ t, exec (.trainingComplete 35 1) (tLink 35 1 0 LinkState.init) = .next t :=
  ⟨_, (h 35 1 _ (by decide)).2.1 (by decide) (by decide) (by decide) _ rfl⟩

theorem meets_trainingTimeout (h : Obligations.LinksTrain) : ∃ t, exec (.trainingTimeout 0) { tLink 0 1 0 LinkState.init with ticks := 150000 } = .next t :=
  ⟨_, (h 0 0 _ (by decide)).2.2 (by decide) (by decide)⟩

/-- Link parameters as link 0's partner sends them. -/
def tPar : LinkPar := { dimX := 2, dimY := 1, dimZ := 1, wrap := 7, x := 1, y := 0, z := 0, dir := 1, pos := 0, digest := State.reset.keyDigest, lanes := 255 }

theorem meets_spdm_failed (h : Obligations.LinksAuthenticate) : ∃ t, exec (.spdm 0 9) (tLink 0 2 8 LinkState.init) = .next t :=
  ⟨_, (((h 0 9 tPar _ (by decide) (by decide)).1 (by decide)).1 (by decide)).1 (by decide)⟩

theorem meets_spdm_next (h : Obligations.LinksAuthenticate) : ∃ t, exec (.spdm 0 0) (tLink 0 2 8 LinkState.init) = .next t :=
  ⟨_, ((((h 0 0 tPar _ (by decide) (by decide)).1 (by decide)).1 (by decide)).2 _ rfl _ rfl).1 (by decide)⟩

theorem meets_spdm_last (h : Obligations.LinksAuthenticate) : ∃ t, exec (.spdm 0 0) (tLink 0 2 8 { LinkState.init with spdm := 5 }) = .next t :=
  ⟨_, ((((h 0 0 tPar _ (by decide) (by decide)).1 (by decide)).1 (by decide)).2 _ rfl _ rfl).2 (by decide)⟩

theorem meets_spdmResponseTimeout (h : Obligations.LinksAuthenticate) :
    (∃ t, exec (.spdmResponseTimeout 0) { tLink 0 2 8 { LinkState.init with spdmTwice := true } with ticks := 200000 } = .next t)
    ∧ ∃ t, exec (.spdmResponseTimeout 0) { tLink 0 2 8 LinkState.init with ticks := 200000 } = .next t :=
  ⟨⟨_, (((h 0 0 tPar _ (by decide) (by decide)).1 (by decide)).2.1 (by decide) (by decide)).1 (by decide)⟩,
    ⟨_, (((h 0 0 tPar _ (by decide) (by decide)).1 (by decide)).2.1 (by decide) (by decide)).2 (by decide) _ rfl⟩⟩

theorem meets_linkpar (h : Obligations.LinksAuthenticate) : ∃ t, exec (.linkpar 0 tPar) (tLink 0 2 8 { LinkState.init with spdm := 6 }) = .next t :=
  ⟨_, ((h 0 0 tPar _ (by decide) (by decide)).1 (by decide)).2.2 (by decide) (by simp [State.linkparBad, tPar, tLink, tBar, State.reset, State.keyDigest, State.setReg, State.neighbour, State.coord, State.fld, State.reg, linkPlace, Fabric.init]; decide) _ rfl⟩

theorem meets_authTimeout (h : Obligations.LinksAuthenticate) : ∃ t, exec (.authTimeout 0) { tLink 0 2 8 LinkState.init with ticks := 1500000 } = .next t :=
  ⟨_, (h 0 0 tPar _ (by decide) (by decide)).2.2 (by decide)⟩

theorem meets_spdm_waits (h : Obligations.LinksAuthenticate) :
    exec (.spdm 0 0) { tLink 0 2 8 LinkState.init with absent := [(0, 0)] } = .next { tLink 0 2 8 LinkState.init with absent := [(0, 0)] } :=
  ((h 0 0 tPar _ (by decide) (by decide)).2.1 (by decide) (by decide)).1

theorem meets_flitTransmit_ctrl (h : Obligations.FlitsMove) : ∃ t, exec (.flitTransmit 0) (tLink 0 3 8 { LinkState.init with ctrl := [1] }) = .next t :=
  ⟨_, ((h 0 0 [] [] _ (by decide)).1 (by decide) (by decide) (by decide) (by decide)).1 1 [] (by decide)⟩

theorem meets_flitTransmit_replay (h : Obligations.FlitsMove) : ∃ t, exec (.flitTransmit 0) (tLink 0 3 8 { LinkState.init with resend := some 0 }) = .next t :=
  ⟨_, (((h 0 0 [] [] _ (by decide)).1 (by decide) (by decide) (by decide) (by decide)).2 (by decide)).1 0 (by decide)⟩

theorem meets_flitTransmit_data (h : Obligations.FlitsMove) :
    ∃ t, exec (.flitTransmit 0) (tLink 0 3 8 { LinkState.init with txq := [(6, [1])], credits := [(6, 16)] }) = .next t :=
  ⟨_, (((h 0 0 [] [] _ (by decide)).1 (by decide) (by decide) (by decide) (by decide)).2 (by decide)).2.1 6 LinkState.init.arb (by decide) (by decide) (by decide)⟩

theorem meets_flitTransmit_idle (h : Obligations.FlitsMove) : ∃ t, exec (.flitTransmit 0) (tLink 0 3 8 LinkState.init) = .next t :=
  ⟨_, (((h 0 0 [] [] _ (by decide)).1 (by decide) (by decide) (by decide) (by decide)).2 (by decide)).2.2 (by decide) (by decide)⟩

/-- An IDLE flit with ACK 4095. -/
def tIdle : List Byte := flitBytes 0 0 0 0 0 4095 0 0 0 0 []

set_option maxRecDepth 100000 in
theorem meets_flitReceive (h : Obligations.FlitsMove) : ∃ t, exec (.flitReceive 0 tIdle 0 0 []) (tLink 0 3 8 LinkState.init) = .next t :=
  ⟨_, (h 0 0 tIdle [] _ (by decide)).2.1 (by decide) (by decide) _ rfl (by decide +kernel) (by decide +kernel) (by decide +kernel)⟩

theorem meets_nakReceive (h : Obligations.FlitsMove) : ∃ t, exec (.nakReceive 0) (tLink 0 3 8 { LinkState.init with nakFrom := some 0 }) = .next t :=
  ⟨_, (h 0 0 [] [] _ (by decide)).2.2.1 0 (by decide)⟩

theorem meets_nakRepeat (h : Obligations.FlitsMove) : ∃ t, exec (.nakRepeat 0) (tLink 0 3 8 { LinkState.init with nakWait := true }) = .next t :=
  ⟨_, (h 0 0 [] [] _ (by decide)).2.2.2 (by decide)⟩

theorem meets_laneFailure (h : Obligations.LinkTroubleAndControl) : ∃ t, exec (.laneFailure 0 7) (tLink 0 3 8 LinkState.init) = .next t :=
  ⟨_, (h.1 0 7 0 0 0 _ (by decide)).1 (by decide) (by decide)⟩

theorem meets_retrainComplete (h : Obligations.LinkTroubleAndControl) : ∃ t, exec (.retrainComplete 0 15) (tLink 0 11 8 LinkState.init) = .next t :=
  ⟨_, (h.1 0 0 15 0 0 _ (by decide)).2.1 (by decide) (by decide) (by decide) _ _ _ rfl rfl rfl (by decide) _ rfl⟩

theorem meets_signalLossTimeout (h : Obligations.LinkTroubleAndControl) : ∃ t, exec (.signalLossTimeout 0) (tLink 0 4 4 LinkState.init) = .next t :=
  ⟨_, (h.1 0 0 0 0 0 _ (by decide)).2.2.1 (by decide)⟩

theorem meets_linkStall (h : Obligations.LinkTroubleAndControl) : ∃ t, exec (.linkStall 0) (tLink 0 3 8 { LinkState.init with starve := [(2, 100)] }) = .next t :=
  ⟨_, (h.1 0 0 0 2 100 _ (by decide)).2.2.2.1 (by decide) (by decide)⟩

theorem meets_mgtStallQuarantine (h : Obligations.LinkTroubleAndControl) :
    ∃ t, exec (.mgtStallQuarantine 0) (tLink 0 3 8 { LinkState.init with starve := [(7, 10000)] }) = .next t :=
  ⟨_, (h.1 0 0 0 7 10000 _ (by decide)).2.2.2.2.1 (by decide) (by decide) (by decide) (by decide) (by decide) (by decide)⟩

theorem meets_linkNoisy (h : Obligations.LinkTroubleAndControl) : ∃ t, exec (.linkNoisy 0) (tLink 0 3 8 { LinkState.init with noisy := 1000 }) = .next t :=
  ⟨_, (h.1 0 0 0 0 0 _ (by decide)).2.2.2.2.2.1 (by decide) (by decide)⟩

theorem meets_linkNoisyClear (h : Obligations.LinkTroubleAndControl) :
    ∃ t, exec (.linkNoisyClear 0) ((tLink 0 3 8 { LinkState.init with quiet := 1000 }).setFld (A.LNK 0 0x10) 9 9 1) = .next t :=
  ⟨_, (h.1 0 0 0 0 0 _ (by decide)).2.2.2.2.2.2 (by decide) (by decide)⟩

theorem meets_retrain (h : Obligations.LinkTroubleAndControl) : ∃ t, exec (.retrain 0) (tLink 0 4 4 LinkState.init) = .next t :=
  ⟨_, (h.2 0 _ (by decide) (by decide)).1 (by decide) _ rfl⟩

theorem meets_release (h : Obligations.LinkTroubleAndControl) : ∃ t, exec (.release 0) (tLink 0 5 0 LinkState.init) = .next t :=
  ⟨_, (h.2 0 _ (by decide) (by decide)).2.1 (by decide) _ rfl⟩

theorem meets_disable (h : Obligations.LinkTroubleAndControl) : ∃ t, exec (.disable 0 1) (tLink 0 3 8 LinkState.init) = .next t :=
  ⟨_, (h.2 0 _ (by decide) (by decide)).2.2.1 (by decide)⟩

theorem meets_disable_off (h : Obligations.LinkTroubleAndControl) : ∃ t, exec (.disable 0 0) ((tLink 0 0 0 LinkState.init).setFld (A.LNK 0 0) 1 1 1) = .next t :=
  ⟨_, (h.2 0 _ (by decide) (by decide)).2.2.2 (by decide) _ rfl (by decide) (by decide)⟩

/-! ### MessagesServed, OutsideRequestsEnd -/

/-- A message of type `t`, from node 1. -/
def tMsg (t : Nat) : FabMsg := { dst := 0, src := 1, pkey := 0, mtype := t, flags := 0, aux := 0, tag := 0, addr := 0, sealW := 0, data := [] }

/-- The message stands first in the inbox, received on link 0. -/
def tIn (t : Nat) : State := { State.reset with fabric := { Fabric.init with inbox := [(0, tMsg t)] } }

theorem meets_messages (h : Obligations.MessagesServed) :
    (∃ t, exec (.rd 0) (tIn 1) = .next t) ∧ (∃ t, exec (.wr 0) (tIn 2) = .next t) ∧ (∃ t, exec (.sig 0) (tIn 3) = .next t)
    ∧ (∃ t, exec (.void_ 0) (tIn 4) = .next t) ∧ (∃ t, exec (.rddata 0) (tIn 0x10) = .next t) ∧ (∃ t, exec (.wrack 0) (tIn 0x11) = .next t)
    ∧ ∃ t, exec (.sigack 0) (tIn 0x12) = .next t :=
  ⟨⟨_, (h 0 0 (tMsg 1) _).1 (by decide)⟩, ⟨_, (h 0 0 (tMsg 2) _).2.1 (by decide)⟩, ⟨_, (h 0 0 (tMsg 3) _).2.2.1 (by decide)⟩,
    ⟨_, (h 0 0 (tMsg 4) _).2.2.2.1 (by decide)⟩, ⟨_, (h 0 0 (tMsg 0x10) _).2.2.2.2.1 (by decide)⟩, ⟨_, (h 0 0 (tMsg 0x11) _).2.2.2.2.2.1 (by decide)⟩,
    ⟨_, (h 0 0 (tMsg 0x12) _).2.2.2.2.2.2.1 (by decide)⟩⟩

theorem meets_colMessages (h : Obligations.MessagesServed) :
    (∃ t, exec (.colData 0) (tIn 0x20) = .next t) ∧ (∃ t, exec (.colPmk 0) (tIn 0x21) = .next t) ∧ (∃ t, exec (.colAck 0) (tIn 0x22) = .next t)
    ∧ (∃ t, exec (.colReady 0) (tIn 0x23) = .next t) ∧ (∃ t, exec (.colCtrl 0) (tIn 0x24) = .next t) ∧ (∃ t, exec (.colSpot 0) (tIn 0x25) = .next t)
    ∧ (∃ t, exec (.colVerdict 0) (tIn 0x26) = .next t) ∧ (∃ t, exec (.colDecision 0) (tIn 0x27) = .next t) ∧ ∃ t, exec (.power 0) (tIn 0x32) = .next t :=
  have m (x : Nat) := (h 0 0 (tMsg x) (tIn x)).2.2.2.2.2.2.2
  ⟨⟨_, (m 0x20).1 (by decide)⟩, ⟨_, (m 0x21).2.1 (by decide)⟩, ⟨_, (m 0x22).2.2.1 (by decide)⟩, ⟨_, (m 0x23).2.2.2.1 (by decide)⟩,
    ⟨_, (m 0x24).2.2.2.2.1 (by decide)⟩, ⟨_, (m 0x25).2.2.2.2.2.1 (by decide)⟩, ⟨_, (m 0x26).2.2.2.2.2.2.1 (by decide)⟩,
    ⟨_, (m 0x27).2.2.2.2.2.2.2.1 (by decide)⟩, ⟨_, (m 0x32).2.2.2.2.2.2.2.2.1 (by decide) (by decide)⟩⟩

theorem meets_messageForward (h : Obligations.MessagesServed) :
    ∃ t, exec (.messageForward 0) { State.reset with fabric := { Fabric.init with forward := [(0, 0, tMsg 1)] } } = .next t :=
  ⟨_, (h 0 0 (tMsg 1) _).2.2.2.2.2.2.2.2.2.2.2.2.2.2.2.2 0 0 rfl⟩

/-- A request outstanding since beat 0. -/
def tRem (host : Bool) (kind : RemKind) : RemoteReq := { tag := 0, host := host, kind := kind, queue := 0, index := 0, addr := 0, since := 0 }

/-- That request is the only one, `n` beats later. -/
def tOut (host : Bool) (kind : RemKind) (n : Nat) : State :=
  { State.reset with fabric := { Fabric.init with requests := [tRem host kind] }, ticks := n }

theorem meets_remoteRequestTimeout (h : Obligations.OutsideRequestsEnd) :
    (∃ t, exec (.remoteRequestTimeout 0) (tOut false (.core 0 0) 1000) = .next t) ∧ (∃ t, exec (.remoteRequestTimeout 0) (tOut false .void 1000) = .next t)
    ∧ ∃ t, exec (.remoteRequestTimeout 0) (tOut false .sig 1000) = .next t :=
  ⟨⟨_, ((h 0 0 0 0 [] (tRem false (.core 0 0)) _).1 (by decide) (by decide) _ rfl).1 0 0 rfl⟩,
    ⟨_, ((h 0 0 0 0 [] (tRem false .void) _).1 (by decide) (by decide) _ rfl).2.1 rfl⟩,
    ⟨_, ((h 0 0 0 0 [] (tRem false .sig) _).1 (by decide) (by decide) _ rfl).2.2 (fun _ _ e => nomatch e) (by decide)⟩⟩

theorem meets_hostCompletion (h : Obligations.OutsideRequestsEnd) :
    (∃ t, exec (.hostCompletion 0 0 false [1]) (tOut true (.read 0 1) 0) = .next t) ∧ (∃ t, exec (.hostCompletion 0 4 false []) (tOut true (.read 0 1) 0) = .next t)
    ∧ (∃ t, exec (.hostCompletion 0 0 true []) (tOut true (.read 0 1) 0) = .next t) ∧ ∃ t, exec (.hostCompletionTimeout 0) (tOut true (.read 0 1) 50000) = .next t :=
  ⟨⟨_, (((h 0 0 0 1 [1] (tRem true (.read 0 1)) _).2 (by decide) _ rfl).1 rfl).1 (by decide)⟩,
    ⟨_, (((h 0 4 0 1 [] (tRem true (.read 0 1)) _).2 (by decide) _ rfl).1 rfl).2.1 (by decide)⟩,
    ⟨_, (((h 0 0 0 1 [] (tRem true (.read 0 1)) _).2 (by decide) _ rfl).1 rfl).2.2⟩,
    ⟨_, ((h 0 0 0 1 [] (tRem true (.read 0 1)) _).2 (by decide) _ rfl).2 (by decide)⟩⟩

/-! ### TileCommandsRun, DescribedCommandsRun, DrawingCommandsRun, MovementCommandsRun -/

/-- Little-endian bytes of a value at an offset, as (offset, byte) pairs. -/
def tAt (o n v : Nat) : List (Nat × Nat) := (List.range n).map (fun k => (o + k, v / 256 ^ k % 256))

/-- A command whose descriptor at 0x10000 is given, with the generators of its core valid. -/
def tDesc (l d : List (Nat × Nat)) : State := ((tRun (tAt 32 8 0x10000 ++ l)).putBytes 0x10000 (tBytes 128 d)).setFld (A.RNG 0 8) 1 1 1

/-- An 8 × 8 product over K = 32 of E4M3 codes, to FP32. -/
def tMat (op : Nat) : List (Nat × Nat) := (0, op) :: tAt 40 4 8 ++ tAt 44 4 8 ++ tAt 48 4 32 ++ [(56, 0x44), (57, 9)]

/-- Its descriptor: A at 0x20000, B at 0x30000, C at 0x40000, CIN at 0x50000. -/
def tMatD : List (Nat × Nat) :=
  tAt 0 8 0x20000 ++ tAt 8 8 0x30000 ++ tAt 16 8 0x40000 ++ tAt 24 4 32 ++ tAt 28 4 32 ++ tAt 32 4 32 ++ tAt 36 4 32 ++ tAt 104 8 0x50000

theorem meets_matmul (h : Obligations.TileCommandsRun) :
    (∃ t, exec (.matmul 0 0 none) (tDesc (tMat 0x10) tMatD) = .next t) ∧ (∃ t, exec (.matmulAcc 0 0 none) (tDesc (tMat 0x11) tMatD) = .next t)
    ∧ (∃ t, exec (.bwdIn 0 0 none) (tDesc (tMat 0x14) tMatD) = .next t) ∧ ∃ t, exec (.bwdW 0 0 none) (tDesc (tMat 0x15) tMatD) = .next t :=
  ⟨⟨_, ((h 0 0 0 none (tFly (tAt 32 8 0x10000 ++ tMat 0x10)) _ _).1 ⟨by decide, by decide +kernel, rfl⟩ (by decide +kernel)).1 (by decide +kernel)⟩,
    ⟨_, ((h 0 0 0 none (tFly (tAt 32 8 0x10000 ++ tMat 0x11)) _ _).1 ⟨by decide, by decide +kernel, rfl⟩ (by decide +kernel)).2.1 (by decide +kernel)⟩,
    ⟨_, ((h 0 0 0 none (tFly (tAt 32 8 0x10000 ++ tMat 0x14)) _ _).1 ⟨by decide, by decide +kernel, rfl⟩ (by decide +kernel)).2.2.1 (by decide +kernel)⟩,
    ⟨_, ((h 0 0 0 none (tFly (tAt 32 8 0x10000 ++ tMat 0x15)) _ _).1 ⟨by decide, by decide +kernel, rfl⟩ (by decide +kernel)).2.2.2 (by decide +kernel)⟩⟩

theorem meets_rampHoldExpiry (h : Obligations.TileCommandsRun) : ∃ t, exec (.rampHoldExpiry 511) (State.reset.setFld (A.CUB 511 8) 5 5 1) = .next t :=
  ⟨_, (h 0 0 511 none (tFly []) [] _).2 (by decide) (by decide)⟩

/-- Attention of one query row over one key, widths 32. -/
def tAttn (op x : Nat) : List (Nat × Nat) := (0, op) :: tAt 40 4 1 ++ tAt 44 4 1 ++ tAt 48 2 32 ++ tAt 50 2 32 ++ [(56, x), (57, 9)]

/-- Its descriptor: sixteen arrays 64 KiB apart. -/
def tAttnD : List (Nat × Nat) := (List.range 14).flatMap (fun k => tAt (8 * k) 8 (0x20000 + 0x10000 * k))

theorem meets_attention (h : Obligations.DescribedCommandsRun) :
    (∃ t, exec (.attnFwd 0 0 none) (tDesc (tAttn 0x12 0) (tAttnD.take 64)) = .next t) ∧ ∃ t, exec (.attnBwd 0 0 none) (tDesc (tAttn 0x13 0) tAttnD) = .next t :=
  ⟨⟨_, ((h 0 0 none (tFly (tAt 32 8 0x10000 ++ tAttn 0x12 0)) _ _ ⟨by decide, by decide +kernel, rfl⟩).1 (by decide +kernel)).1 (by decide +kernel)⟩,
    ⟨_, ((h 0 0 none (tFly (tAt 32 8 0x10000 ++ tAttn 0x13 0)) _ _ ⟨by decide, by decide +kernel, rfl⟩).1 (by decide +kernel)).2 (by decide +kernel) (by decide +kernel)⟩⟩

/-- Conversion of 1 × 32 FP32 values to BF16 (or of statistics, or rotation). -/
def tConv (op x : Nat) : List (Nat × Nat) := (0, op) :: tAt 40 4 1 ++ tAt 44 4 32 ++ [(50, 0x89), (51, x)]

/-- Its descriptor: source at 0x20000, output at 0x30000. -/
def tConvD : List (Nat × Nat) := tAt 0 8 0x20000 ++ tAt 8 8 0x30000 ++ tAt 24 4 128 ++ tAt 28 4 64 ++ tAt 40 8 0x50000 ++ tAt 48 8 0x60000

theorem meets_conversion (h : Obligations.DescribedCommandsRun) :
    (∃ t, exec (.convert 0 0 none) (tDesc (tConv 0x30 0) tConvD) = .next t) ∧ (∃ t, exec (.stats 0 0 none) (tDesc (tConv 0x31 0) tConvD) = .next t)
    ∧ ∃ t, exec (.rotate 0 0 none) (tDesc (tConv 0x32 0) tConvD) = .next t :=
  ⟨⟨_, ((h 0 0 none (tFly (tAt 32 8 0x10000 ++ tConv 0x30 0)) _ _ ⟨by decide, by decide +kernel, rfl⟩).2.1 (by decide +kernel) (by decide +kernel)).1 (by decide +kernel)⟩,
    ⟨_, ((h 0 0 none (tFly (tAt 32 8 0x10000 ++ tConv 0x31 0)) _ _ ⟨by decide, by decide +kernel, rfl⟩).2.1 (by decide +kernel) (by decide +kernel)).2.1 (by decide +kernel)⟩,
    ⟨_, ((h 0 0 none (tFly (tAt 32 8 0x10000 ++ tConv 0x32 0)) _ _ ⟨by decide, by decide +kernel, rfl⟩).2.1 (by decide +kernel) (by decide +kernel)).2.2 (by decide +kernel)⟩⟩

/-- An update of one element, and its arrays 64 KiB apart. -/
def tOpt (x : Nat) : List (Nat × Nat) := (0, 0x41) :: tAt 40 4 1 ++ [(44, x)]
def tOptD : List (Nat × Nat) := (List.range 11).flatMap (fun k => tAt (8 * k) 8 (0x20000 + 0x10000 * k))

theorem meets_optStep (h : Obligations.DescribedCommandsRun) : ∃ t, exec (.optStep 0 0 none) (tDesc (tOpt 0) tOptD) = .next t :=
  ⟨_, (h 0 0 none (tFly (tAt 32 8 0x10000 ++ tOpt 0)) _ _ ⟨by decide, by decide +kernel, rfl⟩).2.2.1 (by decide +kernel) (by decide +kernel) (by decide +kernel)⟩

theorem meets_codebookUpd (h : Obligations.DescribedCommandsRun) : ∃ t, exec (.codebookUpd 0 0) (tDesc [(0, 0x33)] []) = .next t :=
  ⟨_, (h 0 0 none (tFly (tAt 32 8 0x10000 ++ [(0, 0x33)])) _ _ ⟨by decide, by decide +kernel, rfl⟩).2.2.2 (by decide +kernel) (by decide) (by decide) (by decide)⟩

theorem meets_drawing (h : Obligations.DrawingCommandsRun) :
    (∃ t, exec (.attnBwd 0 0 none) (tDesc (tAttn 0x13 16) tAttnD) = .next t) ∧ (∃ t, exec (.convert 0 0 none) (tDesc (tConv 0x30 32) tConvD) = .next t)
    ∧ (∃ t, exec (.optStep 0 0 none) (tDesc (tOpt 4) tOptD) = .next t) ∧ ∃ t, exec (.codebookUpd 0 0) (tDesc [(0, 0x33), (62, 1)] []) = .next t :=
  ⟨⟨_, ((h 0 0 none (tFly (tAt 32 8 0x10000 ++ tAttn 0x13 16)) _ _ (by decide +kernel)).1 ⟨by decide, by decide +kernel, rfl⟩).1 (by decide +kernel) (by decide +kernel)
      (by decide +kernel)⟩,
    ⟨_, (((h 0 0 none (tFly (tAt 32 8 0x10000 ++ tConv 0x30 32)) _ _ (by decide +kernel)).1 ⟨by decide, by decide +kernel, rfl⟩).2.1 (by decide +kernel)
      (by decide +kernel)).1 (by decide +kernel)⟩,
    ⟨_, ((h 0 0 none (tFly (tAt 32 8 0x10000 ++ tOpt 4)) _ _ (by decide +kernel)).1 ⟨by decide, by decide +kernel, rfl⟩).2.2 (by decide +kernel) (by decide +kernel)
      (by decide +kernel)⟩,
    ⟨_, (h 0 0 none (tFly (tAt 32 8 0x10000 ++ [(0, 0x33), (62, 1)])) [] _ (by decide +kernel)).2.1 (by decide +kernel) (by decide) (by decide) (by decide)⟩⟩

theorem meets_sample (h : Obligations.DrawingCommandsRun) :
    (∃ t, exec (.sample 0 0 none) ((tRun ((0, 0x80) :: tAt 40 8 0x20000 ++ tAt 52 4 0x3F800000)).setFld (A.RNG 0 8) 1 1 1) = .next t)
    ∧ ∃ t, exec (.rngSave 0 0) ((tRun [(0, 0x81)]).setFld (A.RNG 0 8) 1 1 1) = .next t :=
  ⟨⟨_, (h 0 0 none (tFly ((0, 0x80) :: tAt 40 8 0x20000 ++ tAt 52 4 0x3F800000)) [] _ (by decide +kernel)).2.2.1 (by decide +kernel) (by decide +kernel)⟩,
    ⟨_, (h 0 0 none (tFly [(0, 0x81)]) [] _ (by decide +kernel)).2.2.2 (by decide +kernel) (by decide +kernel)⟩⟩

/-- A movement of 64 bytes, and of one row of 64 bytes by an index at 0x30000. -/
def tCopy : List (Nat × Nat) := (0, 0x50) :: tAt 40 8 0x20000 ++ tAt 48 8 64
def tRows (op : Nat) : List (Nat × Nat) := (0, op) :: tAt 40 8 0x20000 ++ tAt 48 8 0x30000 ++ tAt 56 4 1 ++ tAt 60 4 64

theorem meets_movement (h : Obligations.MovementCommandsRun) :
    (∃ t, exec (.copy 0 0 none) (tRun tCopy) = .next t) ∧ (∃ t, exec (.gather 0 0 none) (tRun (tRows 0x51)) = .next t)
    ∧ ∃ t, exec (.scatter 0 0 none) (tRun (tRows 0x52)) = .next t :=
  ⟨⟨_, ((h 0 0 none (tFly tCopy) _).1 (by decide)).1 (by decide +kernel) (by decide +kernel)⟩,
    ⟨_, ((h 0 0 none (tFly (tRows 0x51)) _).1 (by decide)).2.1 (by decide +kernel) (by decide +kernel)⟩,
    ⟨_, ((h 0 0 none (tFly (tRows 0x52)) _).1 (by decide)).2.2 (by decide +kernel) (by decide +kernel)⟩⟩

/-- COMPRESS of one code, DECOMPRESS of one segment. -/
def tComp : List (Nat × Nat) := (0, 0x53) :: tAt 40 8 0x20000 ++ tAt 48 8 0x30000 ++ tAt 56 4 1 ++ tAt 60 4 2112
def tDecomp : List (Nat × Nat) := (0, 0x54) :: tAt 40 8 0x20000 ++ tAt 48 8 0x30000 ++ tAt 60 4 1

theorem meets_compression (h : Obligations.MovementCommandsRun) :
    (∃ t, exec (.compress 0 0 none) (tRun tComp) = .next t) ∧ ∃ t, exec (.decompress 0 0 none) ((tRun tDecomp).putBytes 0x20004 [64]) = .next t :=
  ⟨⟨_, (h 0 0 none (tFly tComp) _).2.1 (by decide +kernel) (by decide +kernel)⟩, ⟨_, (h 0 0 none (tFly tDecomp) _).2.2.1 (by decide +kernel) (by decide +kernel)⟩⟩

theorem meets_rngLoad (h : Obligations.MovementCommandsRun) :
    (∃ t, exec (.rngLoad 0 0) (tRun [(0, 0x82), (40, 1)]) = .next t) ∧ ∃ t, exec (.rngLoad 0 0) (tRun [(0, 0x82)]) = .next t :=
  ⟨⟨_, ((h 0 0 none (tFly [(0, 0x82), (40, 1)]) _).2.2.2 (by decide +kernel) (by decide +kernel) (by decide)).1 (by decide)⟩,
    ⟨_, ((h 0 0 none (tFly [(0, 0x82)]) _).2.2.2 (by decide +kernel) (by decide +kernel) (by decide)).2 (by decide)⟩⟩

/-! ### CollectivesRun -/

/-- A collective command of node 0 alone: a communicator entry at 0 with one member, itself, whose word stands at 0x1000. -/
def tCol (op : Nat) : State :=
  ((tRun ((0, op) :: tAt 32 8 0x10000 ++ (if op = 0x60 ∨ op = 0x61 ∨ op = 0x64 then [(52, 0x99)] else []))).putBytes 0 (tBytes 64 ((0, 1) :: tAt 4 2 0xFFFF ++ tAt 8 8 0x1000))).setFld
    (A.COLF 0 8) 15 0 1

theorem meets_collectives (h : Obligations.CollectivesRun) :
    (∃ t, exec (.allreduce 0 0) (tCol 0x60) = .next t) ∧ (∃ t, exec (.reduceScatter 0 0) (tCol 0x61) = .next t) ∧ (∃ t, exec (.allgather 0 0) (tCol 0x62) = .next t)
    ∧ (∃ t, exec (.broadcast 0 0) (tCol 0x63) = .next t) ∧ (∃ t, exec (.reduce 0 0) (tCol 0x64) = .next t) ∧ (∃ t, exec (.alltoallv 0 0) (tCol 0x65) = .next t)
    ∧ ∃ t, exec (.barrier 0 0) (tCol 0x66) = .next t :=
  have g (op : Nat) (fl : Flight) (c : Collective) := (h.1 0 0 fl c (tCol op) _ rfl).1
  have c := State.reset.newCol (tFly [])
  ⟨⟨_, (g 0x60 ((tCol 0x60).flights.headD (tFly [])) c (by decide +kernel) (by decide +kernel)).1 (by decide +kernel)⟩,
    ⟨_, (g 0x61 ((tCol 0x61).flights.headD (tFly [])) c (by decide +kernel) (by decide +kernel)).2.1 (by decide +kernel)⟩,
    ⟨_, (g 0x62 ((tCol 0x62).flights.headD (tFly [])) c (by decide +kernel) (by decide +kernel)).2.2.1 (by decide +kernel)⟩,
    ⟨_, (g 0x63 ((tCol 0x63).flights.headD (tFly [])) c (by decide +kernel) (by decide +kernel)).2.2.2.1 (by decide +kernel)⟩,
    ⟨_, (g 0x64 ((tCol 0x64).flights.headD (tFly [])) c (by decide +kernel) (by decide +kernel)).2.2.2.2.1 (by decide +kernel)⟩,
    ⟨_, (g 0x65 ((tCol 0x65).flights.headD (tFly [])) c (by decide +kernel) (by decide +kernel)).2.2.2.2.2.1 (by decide +kernel)⟩,
    ⟨_, (g 0x66 ((tCol 0x66).flights.headD (tFly [])) c (by decide +kernel) (by decide +kernel)).2.2.2.2.2.2 (by decide +kernel)⟩⟩

/-- A running collective of two ranks, rank 0 here, that awaits a chunk of rank 1 and has one chunk unacknowledged. -/
def tRunning : Collective :=
  { queue := 0, index := 0, fn := 0, op := 0x63, commId := 0, seq := 0
    comm := { p := 2, rank := 0, checker := 0xFFFF, members := [0, 1], thresh := 0, timeout := 0, waitAddr := 0, spotSeed := 0 }
    cmd := tBytes 64 [(0, 0x63)], desc := tBytes 128 [], counts := [0, 0], a2a := [], algo := 1, digest := 0, arrival := 0, since := 0, aMax := 0, aRank := 0, aMin := 0
    vecs := [], levels := [{ sends := [], recvs := [{ peer := 1, slot := 0, lo := 0, len := 4, wire := 0, raw := false }], locals := [], combine := false }]
    started := true, ready := [], heard := [], arrived := []
    out := [{ peer := 1, level := 0, chunk := 0, bytes := [], resends := 0, sentBeat := 0, waits := false }], inn := [], readyBeat := 0, spot := [], spotMarks := [], verdict := none }

/-- That collective and its command, `n` beats later. -/
def tColRun (n : Nat) : State := { tRun [(0, 0x63)] with col := { running := [tRunning], early := [], done := [] }, ticks := n }

theorem meets_colReadyResend (h : Obligations.CollectivesRun) : ∃ t, exec (.colReadyResend 0 0) (tColRun 50) = .next t :=
  ⟨_, ((h.1 0 0 (tFly [(0, 0x63)]) tRunning (tColRun 50) _ rfl).2 (by decide +kernel)).1 (by decide +kernel) (by decide +kernel)⟩

theorem meets_chunkResend (h : Obligations.CollectivesRun) : ∃ t, exec (.chunkResend 0 0) (tColRun 50) = .next t :=
  ⟨_, ((h.1 0 0 (tFly [(0, 0x63)]) tRunning (tColRun 50) _ rfl).2 (by decide +kernel)).2.1 _ rfl (by decide +kernel)⟩

theorem meets_collectiveTimeout (h : Obligations.CollectivesRun) : ∃ t, exec (.collectiveTimeout 0 0) (tColRun 100000) = .next t :=
  ⟨_, ((h.1 0 0 (tFly [(0, 0x63)]) tRunning (tColRun 100000) _ rfl).2 (by decide +kernel)).2.2 (by decide +kernel)⟩

theorem meets_startCol (h : Obligations.CollectivesRun) : ∃ t, (tCol 0x66).startCol ((tCol 0x66).flights.headD (tFly [])) = t :=
  ⟨_, h.2 ((tCol 0x66).flights.headD (tFly [])) _ _ (tCol 0x66) (tCol 0x66) _ rfl (by decide +kernel) (by decide +kernel) (by decide +kernel)
    (by decide +kernel) (by decide +kernel) (by decide +kernel) (by decide +kernel) (by decide +kernel) (by decide +kernel) rfl rfl⟩

/-! ### StepDomainsRun, TestCommandsRun -/

theorem meets_stepBegin (h : Obligations.StepDomainsRun) : ∃ t, exec (.stepBegin 0 0) (tRun [(0, 0x70), (32, 1)]) = .next t :=
  ⟨_, (h.1 0 0 none (tFly [(0, 0x70), (32, 1)]) _).1 (by decide +kernel) (by decide +kernel) (by decide)⟩

/-- The command in an attempt that is open, with one watch of one part. -/
def tOpen (l : List (Nat × Nat)) : State :=
  (((tRun l).setReg (A.NWT 0 0) 0x10000).putBytes 0x10000 (tBytes 128 [(8, 1), (10, 1), (2, 2)])).putBytes 0x20000 (tBytes 128 [(1, 1)]) |>.setFld (A.NWT 0 0x10) 2 0 1

theorem meets_stepCommit (h : Obligations.StepDomainsRun) : ∃ t, exec (.stepCommit 0 0) (tOpen [(0, 0x71), (32, 1)]) = .next t :=
  ⟨_, (h.1 0 0 none (tFly [(0, 0x71), (32, 1)]) _).2.1 (by decide +kernel) (by decide +kernel) (by decide)⟩

theorem meets_stepAbort (h : Obligations.StepDomainsRun) : ∃ t, exec (.stepAbort 0 0) (tOpen [(0, 0x72), (32, 1), (40, 1)]) = .next t :=
  ⟨_, (h.1 0 0 none (tFly [(0, 0x72), (32, 1), (40, 1)]) _).2.2.1 (by decide +kernel) (by decide +kernel) (by decide) (by decide)⟩

/-- NORM_WATCH of one FP32 value. -/
def tNorm : List (Nat × Nat) := (0, 0x73) :: tAt 32 8 0x30000 ++ tAt 40 4 1 ++ tAt 44 4 1 ++ tAt 48 4 16 ++ [(55, 9)]

theorem meets_normWatch (h : Obligations.StepDomainsRun) :
    ∃ t, exec (.normWatch 0 0 none) { tOpen tNorm with domains := [(0, { StepDomain.init with desc := tBytes 128 [(8, 1), (10, 1), (2, 2)] })] } = .next t :=
  ⟨_, (h.1 0 0 none (tFly tNorm) _).2.2.2 (by decide +kernel) (by decide +kernel)⟩

/-- The domain of function 0 as given, with command (0, 0) in flight. -/
def tDomain (st : Nat) (d : StepDomain) : State := { (tRun [(0, 0x71)]).setFld (A.NWT 0 0x10) 2 0 st with domains := [(0, d)], barOpen := true, ticks := 200000 }

theorem meets_stepCommitSample (h : Obligations.StepDomainsRun) :
    (∃ t, exec (.stepCommitSample 0) (tDomain 1 { StepDomain.init with commit := some (0, 0), commitLocal := true }) = .next t)
    ∧ ∃ t, exec (.stepCommitSample 0) (tDomain 1 { StepDomain.init with commit := some (0, 0) }) = .next t :=
  ⟨⟨_, ((h.2 0 0 0 _ (tFly [(0, 0x71)]) { step := 0, attempt := 0, action := 0, causes := 0, beat := 0 } _ _ _ _ (by decide)).1 (by decide) (by decide) (by decide)
      (by decide) rfl rfl rfl rfl).1 (by decide)⟩,
    ⟨_, ((h.2 0 0 0 _ (tFly [(0, 0x71)]) { step := 0, attempt := 0, action := 0, causes := 0, beat := 0 } _ _ _ _ (by decide)).1 (by decide) (by decide) (by decide)
      (by decide) rfl rfl rfl rfl).2 (by decide)⟩⟩

theorem meets_commitFlip (h : Obligations.StepDomainsRun) :
    ∃ t, exec (.commitFlip 0) (tDomain 2 { StepDomain.init with decision := some { step := 1, attempt := 0, action := 0, causes := 0, beat := 0 } }) = .next t :=
  ⟨_, (h.2 0 0 0 0 (tFly []) { step := 1, attempt := 0, action := 0, causes := 0, beat := 0 } _ State.reset State.reset State.reset (by decide)).2.1 (by decide) (by decide)⟩

theorem meets_commitTimeout (h : Obligations.StepDomainsRun) :
    ∃ t, exec (.commitTimeout 0) (tDomain 2 { StepDomain.init with commit := some (0, 0) }) = .next t :=
  ⟨_, (h.2 0 0 0 0 (tFly []) { step := 1, attempt := 0, action := 0, causes := 0, beat := 0 } _ State.reset State.reset State.reset (by decide)).2.2.1 (by decide) (by decide)
    (by decide) (by decide)⟩

theorem meets_haltClr (h : Obligations.StepDomainsRun) : ∃ t, exec (.haltClr 0) (tDomain 4 StepDomain.init) = .next t :=
  ⟨_, (h.2 0 0 0 0 (tFly []) { step := 1, attempt := 0, action := 0, causes := 0, beat := 0 } _ State.reset State.reset State.reset (by decide)).2.2.2 (by decide) (by decide)⟩

theorem meets_iftRun (h : Obligations.TestCommandsRun) : ∃ t, exec (.iftRun 0 0) (tRun [(0, 0xF0), (32, 1)]) = .next t :=
  ⟨_, (h 0 0 0 0 1 (tFly [(0, 0xF0), (32, 1)]) _).1 (by decide) (by decide) (by decide) (by decide) (by decide) (by decide) (by decide) (by decide) (by decide) _ rfl⟩

theorem meets_sealScan (h : Obligations.TestCommandsRun) : ∃ t, exec (.sealScan 0 0) (tRun ((0, 0xF1) :: tAt 40 8 2048)) = .next t :=
  ⟨_, (h 0 0 0 2048 0 (tFly ((0, 0xF1) :: tAt 40 8 2048)) _).2.1 (by decide) (by decide) (by decide) (by decide) (by decide) (by decide) (by decide +kernel) _ rfl⟩

/-- INJECT of a kind, with injection enabled. -/
def tInject (kind : Nat) : State := (tRun [(0, 0xF2), (32, kind)]).setFld A.IFT_CFG 3 3 1

theorem meets_inject (h : Obligations.TestCommandsRun) :
    (∃ t, exec (.inject 0 0) (tInject 1) = .next t) ∧ (∃ t, exec (.inject 0 0) (tInject 5) = .next t) ∧ ∃ t, exec (.inject 0 0) (tInject 4) = .next t :=
  have g (k : Nat) (hk : _) := (h 0 0 0 0 0 (tFly [(0, 0xF2), (32, k)]) (tInject k)).2.2 hk
  ⟨⟨_, (g 1 (by decide) (by decide) (by decide) (by decide) (by decide) (by decide)).1 (by decide) (by decide)⟩,
    ⟨_, ((g 5 (by decide) (by decide) (by decide) (by decide) (by decide) (by decide)).2 _ _ rfl rfl).1 (by decide)⟩,
    ⟨_, ((g 4 (by decide) (by decide) (by decide) (by decide) (by decide) (by decide)).2 _ _ rfl rfl).2 (by decide) (by decide)⟩⟩

/-! ### VectorProgramsStart, ThreadsMoveData, ThreadsSynchronize, ThreadsDraw -/

theorem meets_vprog (h : Obligations.VectorProgramsStart) : ∃ t, exec (.vprog 0 0 false false) (tRun [(0, 0x40), (48, 1)]) = .next t :=
  ⟨_, h 0 0 0 (tFly [(0, 0x40), (48, 1)]) _ _ (by decide +kernel) rfl (by decide +kernel) (by decide) (by decide +kernel) (by decide +kernel) rfl⟩

/-- Core 0 runs a program whose thread `t` is ready. -/
def tThread (t : Nat) (draws : Bool) : State :=
  { tRun [(0, 0x40), (48, 1)] with cores := [(0, { Core.init with
      vprog := some { queue := 0, index := 0, threads := [t], draws := draws, fills := [], stop := none }, threads := [(t, { Thread.init with running := true })] })] }

theorem meets_access (h : Obligations.ThreadsMoveData) :
    (∃ t, exec (.ld 0 0 1 64 64) (tThread 0 false) = .next t) ∧ (∃ t, exec (.st 0 0 none 5 8 8) (tThread 0 false) = .next t)
    ∧ ∃ t, exec (.st 0 0 (some 1) 0 64 64) (tThread 0 false) = .next t :=
  have g (a n : Nat) := (h 0 0 0 1 5 a 0 n false (tFly [(0, 0x40), (48, 1)]) (tThread 0 false) _ rfl).1 (by decide +kernel)
  ⟨⟨_, (g 64 64 (by decide +kernel)).1⟩, ⟨_, (g 8 8 (by decide +kernel)).2.1⟩,
    ⟨_, ((h 0 0 0 1 0 64 0 64 false (tFly [(0, 0x40), (48, 1)]) (tThread 0 false) _ rfl).1 (by decide +kernel) (by decide +kernel)).2.2 (by decide +kernel)⟩⟩

theorem meets_movementThread (h : Obligations.ThreadsMoveData) :
    (∃ t, exec (.mvLd 0 12 7 0 16 4096) (tThread 12 false) = .next t) ∧ (∃ t, exec (.mvSt 0 12 7 0 16 4096) (tThread 12 false) = .next t)
    ∧ (∃ t, exec (.mvPf 0 12 7 0 64) (tThread 12 false) = .next t) ∧ ∃ t, exec (.mvBulk 0 12 7 true 0 0 16) (tThread 12 false) = .next t :=
  have g (n spad : Nat) := (h 0 12 7 0 0 0 spad n true (tFly [(0, 0x40), (48, 1)]) (tThread 12 false) _ rfl).2 (by decide +kernel) (by decide)
  ⟨⟨_, ((g 4096 16).1 (by decide) (by decide)).1⟩, ⟨_, ((g 4096 16).1 (by decide) (by decide)).2⟩,
    ⟨_, (g 64 0).2.1 (by decide) (by decide) (by decide) (by decide)⟩, ⟨_, (g 16 0).2.2 (by decide)⟩⟩

theorem meets_synchronize (h : Obligations.ThreadsSynchronize) :
    (∃ t, exec (.waitc 0 0 7 1) (tThread 0 false) = .next t) ∧ (∃ t, exec (.fenceCore 0 0) (tThread 0 false) = .next t)
    ∧ (∃ t, exec (.fenceCluster 0 0) (tThread 0 false) = .next t) ∧ (∃ t, exec (.fenceDevice 0 0) (tThread 0 false) = .next t)
    ∧ (∃ t, exec (.fenceFabric 0 0) (tThread 0 false) = .next t) ∧ (∃ t, exec (.semwaitAcq 0 0 2047 1 2) (tThread 0 false) = .next t)
    ∧ (∃ t, exec (.semaddRel 0 0 2047 1 2) (tThread 0 false) = .next t) ∧ (∃ t, exec (.halt 0 0) (tThread 0 false) = .next t)
    ∧ ∃ t, exec (.trace 0 0 5) (tThread 0 false) = .next t :=
  have g := h 0 0 7 1 2047 2 (tFly [(0, 0x40), (48, 1)]) (tThread 0 false) _ rfl (by decide +kernel)
  have w := h 0 0 7 5 2047 2 (tFly [(0, 0x40), (48, 1)]) (tThread 0 false) _ rfl (by decide +kernel)
  ⟨⟨_, g.1 (by decide)⟩, ⟨_, g.2.1⟩, ⟨_, g.2.2.1⟩, ⟨_, g.2.2.2.1⟩, ⟨_, g.2.2.2.2.1⟩, ⟨_, (g.2.2.2.2.2.1 (by decide +kernel)).1⟩,
    ⟨_, (g.2.2.2.2.2.1 (by decide +kernel)).2 (by decide +kernel)⟩, ⟨_, g.2.2.2.2.2.2.1⟩, ⟨_, w.2.2.2.2.2.2.2⟩⟩

theorem meets_draw (h : Obligations.ThreadsDraw) :
    (∃ t, exec (.randU32 0 11 63 0) (tThread 11 true) = .next t) ∧ (∃ t, exec (.randU 0 11 63 0) (tThread 11 true) = .next t)
    ∧ (∃ t, exec (.randUo 0 11 63 0) (tThread 11 true) = .next t) ∧ (∃ t, exec (.randBern 0 11 63 0 9) (tThread 11 true) = .next t)
    ∧ (∃ t, exec (.randNtab 0 11 63 0) (tThread 11 true) = .next t) ∧ ∃ t, exec (.randNbm 0 11 63 0 1) (tThread 11 true) = .next t :=
  have g := h 0 11 63 0 1 9 _ _ (tFly [(0, 0x40), (48, 1)]) { queue := 0, index := 0, threads := [11], draws := true, fills := [], stop := none } (tThread 11 true) _ _
    (by decide +kernel) (by decide) (by decide +kernel) rfl (by decide) rfl rfl
  ⟨⟨_, g.1⟩, ⟨_, g.2.1⟩, ⟨_, g.2.2.1⟩, ⟨_, g.2.2.2.1⟩, ⟨_, g.2.2.2.2.1⟩, ⟨_, g.2.2.2.2.2 _ rfl⟩⟩


/-! ### CoresSleepAndWake -/

/-- The state after reset, `n` beats later, with core 0 as given and its status register holding `st`. -/
def tCore (n st : Nat) (x : Core) : State := { State.reset with cores := [(0, x)], ticks := n, regs := [] } |>.setFld (A.PMCC 0 8) 3 0 st |>.setFld (A.PMCC 0 0) 1 0 3

theorem meets_c1Entry (h : Obligations.CoresSleepAndWake) : ∃ t, exec (.c1Entry 0) (tCore 0 0 Core.init) = .next t :=
  ⟨_, (h 0 0 (tCore 0 0 Core.init) (by decide)).1 (by decide +kernel) (by decide +kernel)⟩

theorem meets_c2Entry (h : Obligations.CoresSleepAndWake) : ∃ t, exec (.c2Entry 0) (tCore 100 0 Core.init) = .next t :=
  ⟨_, (h 0 0 (tCore 100 0 Core.init) (by decide)).2.1 (by decide +kernel) (by decide +kernel) (by decide +kernel) (by decide +kernel)⟩

theorem meets_c3Entry (h : Obligations.CoresSleepAndWake) : ∃ t, exec (.c3Entry 0) (tCore 10000 2 Core.init) = .next t :=
  ⟨_, (h 0 0 (tCore 10000 2 Core.init) (by decide)).2.2.1 (by decide) (by decide +kernel) (by decide +kernel) (by decide +kernel) (by decide +kernel) (by decide +kernel)
    (by decide +kernel)⟩

theorem meets_sleepEntryComplete (h : Obligations.CoresSleepAndWake) : ∃ t, exec (.sleepEntryComplete 0) (tCore 0 4 { Core.init with entering := 2 }) = .next t :=
  ⟨_, (h 0 0 (tCore 0 4 { Core.init with entering := 2 }) (by decide)).2.2.2.1 (by decide +kernel) _ rfl⟩

theorem meets_coreWake (h : Obligations.CoresSleepAndWake) : ∃ t, exec (.coreWake 0 6) (tCore 0 2 Core.init) = .next t :=
  ⟨_, (h 0 6 (tCore 0 2 Core.init) (by decide)).2.2.2.2.1 (by decide) (by decide) rfl (by decide) (by decide +kernel) (by decide +kernel)⟩

theorem meets_wakeComplete (h : Obligations.CoresSleepAndWake) :
    (∃ t, exec (.wakeComplete 0) (tCore 0 9 Core.init) = .next t) ∧ (∃ t, exec (.wakeComplete 0) (tCore 0 10 Core.init) = .next t)
    ∧ ∃ t, exec (.wakeComplete 0) (tCore 0 11 Core.init) = .next t :=
  ⟨⟨_, ((h 0 0 (tCore 0 9 Core.init) (by decide)).2.2.2.2.2 (by decide +kernel) (by decide) (by decide) _ rfl).1 (by decide +kernel)⟩,
    ⟨_, ((h 0 0 (tCore 0 10 Core.init) (by decide)).2.2.2.2.2 (by decide +kernel) (by decide) (by decide) _ rfl).2.1 (by decide +kernel)⟩,
    ⟨_, ((h 0 0 (tCore 0 11 Core.init) (by decide)).2.2.2.2.2 (by decide +kernel) (by decide) (by decide) _ rfl).2.2 (by decide +kernel) _ rfl⟩⟩

/-! ### DeviceTimeRuns -/

theorem meets_beatNowRead (h : Obligations.DeviceTimeRuns) : ∃ t, exec (.beatNowRead 5) State.reset = .next t := ⟨_, (h 0 0 5 (tMsg 0) State.reset State.reset).1⟩

theorem meets_timeSyncSend (h : Obligations.DeviceTimeRuns) : ∃ t, exec (.timeSyncSend 5) { State.reset with ticks := 100 } = .next t :=
  ⟨_, (h 0 0 5 (tMsg 0) { State.reset with ticks := 100 } State.reset).2.1 (by decide +kernel)⟩

/-- A TIME message of link 0 with these bytes, the phase at 100 ns, and SYNC 0 of link 0 sent at beat 0. -/
def tTime (l : List (Nat × Nat)) : State :=
  { State.reset with fabric := { Fabric.init with inbox := [(0, { tMsg 0x31 with data := tBytes 48 l })] }, beatLogic := { BeatLogic.init with syncs := [(0, 0, 0, 0)] } }

theorem meets_timeSyncReceive (h : Obligations.DeviceTimeRuns) : ∃ t, exec (.timeSyncReceive 0 0) (tTime [(0, 1)]) = .next t :=
  ⟨_, ((h 0 0 0 { tMsg 0x31 with data := tBytes 48 [(0, 1)] } (tTime [(0, 1)]) _).2.2.1 (by decide) (by decide) rfl).1 (by decide)⟩

/-- A REPLY of the ALIGNED origin, 50 ns after the SYNC left, which arrives 50 ns later. -/
def tReply : List (Nat × Nat) := (0, 2) :: (1, 2) :: tAt 28 4 50000 ++ tAt 40 4 50000

theorem meets_timeReplyReceive (h : Obligations.DeviceTimeRuns) : ∃ t, exec (.timeReplyReceive 0 100000) (tTime tReply) = .next t :=
  ⟨_, ((h 0 0 100000 { tMsg 0x31 with data := tBytes 48 tReply } (tTime tReply) _).2.2.1 (by decide) (by decide +kernel) rfl).2 0 0 50000 50000 (by decide +kernel)
    (by decide +kernel) (by decide +kernel) (by decide +kernel) (by decide +kernel) (by decide +kernel) (by decide) (by decide) (by decide +kernel)⟩

/-- An ACQUIRING device, 1,000 beats after its latest trim, with a fresh sample from the origin, 5 ps ahead. -/
def tAcquiring (n : Nat) : State :=
  { State.reset with
    fabric := { Fabric.init with origin := 1 }, ticks := n
    beatLogic := { BeatLogic.init with samples := [{ link := 0, node := 1, hops := 0, theta := 5, beat := 1000, aligned := true }] } } |>.setFld (A.BEAT 0x10) 2 0 1

theorem meets_trimUpdate (h : Obligations.DeviceTimeRuns) : ∃ t, exec .trimUpdate (tAcquiring 1000) = .next t :=
  ⟨_, (h 0 0 0 (tMsg 0) (tAcquiring 1000) _).2.2.2.1 5 _ _ (by decide +kernel) (by decide +kernel) rfl (by decide +kernel) (by decide +kernel) (by decide +kernel) rfl⟩

theorem meets_acquireTimeout (h : Obligations.DeviceTimeRuns) : ∃ t, exec .acquireTimeout (tAcquiring 50000) = .next t :=
  ⟨_, (h 0 0 0 (tMsg 0) (tAcquiring 50000) State.reset).2.2.2.2 (by decide +kernel) (by decide +kernel)⟩

/-! ### CoherenceRuns -/

/-- A message of line 0 of this kind between its home and cluster 31. -/
def tCoh (k : CohKind) : CohMsg := { kind := k, line := 0, cluster := 31, dirty := false, poison := none, core := 0, req := 0, off := 0, data := [] }

/-- The line waiting in state `st` at the cluster, and the messages `net` under way. -/
def tLine (net : List CohMsg) (st : LineSt) : State :=
  { State.reset with coh := { State.reset.coh with net := net, lines := [(31, { CLine.init with st := st })] } }

/-- That message alone under way. -/
def tNet (k : CohKind) (st : LineSt) : State := tLine [tCoh k] st

theorem meets_homeRequests (h : Obligations.CoherenceRuns) :
    (∃ t, exec (.gets 0 31) (tNet .getS .I) = .next t) ∧ (∃ t, exec (.getm 0 31) (tNet .getM .I) = .next t) ∧ (∃ t, exec (.upg 0 31) (tNet .upg .I) = .next t)
    ∧ (∃ t, exec (.readnc 0 31) (tNet .readNC .I) = .next t) ∧ ∃ t, exec (.writenc 0 31) (tNet .writeNC .I) = .next t :=
  have g (k : CohKind) := h.1 0 31 (tCoh k) (tNet k .I) (tLine [] .I) (by decide) (by decide) (by cases k <;> decide) (by cases k <;> decide)
  ⟨⟨_, (g .getS).1 (by decide)⟩, ⟨_, (g .getM).2.1 (by decide)⟩, ⟨_, (g .upg).2.2.1 (by decide)⟩, ⟨_, (g .readNC).2.2.2.1 (by decide)⟩, ⟨_, (g .writeNC).2.2.2.2 (by decide)⟩⟩

theorem meets_putsAndSnoops (h : Obligations.CoherenceRuns) :
    (∃ t, exec (.putm 0 31) (tNet .putM .IW) = .next t) ∧ (∃ t, exec (.pute 0 31) (tNet .putE .IW) = .next t) ∧ (∃ t, exec (.puts 0 31) (tNet .putS .IW) = .next t)
    ∧ (∃ t, exec (.snps 0 31) (tNet .snpS .IW) = .next t) ∧ (∃ t, exec (.snpm 0 31) (tNet .snpM .IW) = .next t) ∧ (∃ t, exec (.snpinv 0 31) (tNet .snpInv .IW) = .next t)
    ∧ (∃ t, exec (.snprd 0 31) (tNet .snpRd .IW) = .next t) ∧ ∃ t, exec (.wback 0 31) (tNet .wbAck .IW) = .next t :=
  have g (k : CohKind) := h.2.1 0 31 (tCoh k) (tNet k .IW) (tLine [] .IW) (by decide) (by decide)
  ⟨⟨_, (g .putM).1 (by decide)⟩, ⟨_, (g .putE).2.1 (by decide)⟩, ⟨_, (g .putS).2.2.1 (by decide)⟩, ⟨_, (g .snpS).2.2.2.1 (by decide)⟩,
    ⟨_, (g .snpM).2.2.2.2.1 (by decide)⟩, ⟨_, (g .snpInv).2.2.2.2.2.1 (by decide)⟩, ⟨_, (g .snpRd).2.2.2.2.2.2.1 (by decide)⟩,
    ⟨_, (g .wbAck).2.2.2.2.2.2.2.2 (by decide) (by decide)⟩⟩

theorem meets_grants (h : Obligations.CoherenceRuns) :
    (∃ t, exec (.datas 0 31) (tNet .dataS .IS) = .next t) ∧ (∃ t, exec (.datae 0 31) (tNet .dataE .IS) = .next t) ∧ (∃ t, exec (.datam 0 31) (tNet .dataM .IM) = .next t)
    ∧ ∃ t, exec (.ack 0 31) (tNet .ack .SM) = .next t :=
  have g (k : CohKind) (l : LineSt) := (h.2.1 0 31 (tCoh k) (tNet k l) (tLine [] l) (by decide) (by decide)).2.2.2.2.2.2.2.1
  ⟨⟨_, (g .dataS .IS (by decide)).1 (by decide)⟩, ⟨_, (g .dataE .IS (by decide)).2.1 (by decide)⟩, ⟨_, (g .dataM .IM (by decide)).2.2.1 (by decide)⟩,
    ⟨_, (g .ack .SM (by decide)).2.2.2 (by decide)⟩⟩

/-- An open transaction that awaits cluster 31, and memory when `mem`. -/
def tTxn (mem : Bool) : Txn :=
  { req := { kind := .getS, from_ := 0, core := 0, req := 0, off := 0, data := [], warnAt := 0, warned := false }, awaits := [31], awaitsPut := [], putEarly := []
    memWait := mem, gotData := false, dirty := false, poison := none, crossed := false, snoopDue := 5 }

/-- Line 0 with that transaction and these messages under way, `n` beats after reset. -/
def tHome (n : Nat) (mem : Bool) (net : List CohMsg) : State :=
  { State.reset with ticks := n, coh := { State.reset.coh with net := net, dir := [(0, { DirEntry.init with txn := some (tTxn mem) })] } }

theorem meets_answers (h : Obligations.CoherenceRuns) :
    (∃ t, exec (.invack 0 31) (tHome 0 false [tCoh .invAck]) = .next t) ∧ (∃ t, exec (.snpack 0 31) (tHome 0 false [tCoh .snpAck]) = .next t)
    ∧ (∃ t, exec (.snpdata 0 31) (tHome 0 false [tCoh .snpData]) = .next t) ∧ (∃ t, exec (.miss 0 31) (tHome 0 false [tCoh .miss]) = .next t)
    ∧ ∃ t, exec (.missPutPending 0 31) (tHome 0 false [tCoh .missPutPending]) = .next t :=
  have g (k : CohKind) := (h.2.2 0 31 (tCoh k) (tTxn false) _ (tHome 0 false [tCoh k]) (tHome 0 false []) (by decide) (by decide)).1 (by decide) (by decide) (by decide) rfl
  ⟨⟨_, (g .invAck).1 (by decide)⟩, ⟨_, (g .snpAck).2.1 (by decide)⟩, ⟨_, (g .snpData).2.2.1 (by decide)⟩, ⟨_, (g .miss).2.2.2.1 (by decide)⟩,
    ⟨_, (g .missPutPending).2.2.2.2 (by decide)⟩⟩

theorem meets_snoopTimeout (h : Obligations.CoherenceRuns) : ∃ t, exec (.snoopTimeout 0 31) (tHome 5 false []) = .next t :=
  ⟨_, (h.2.2 0 31 (tCoh .getS) (tTxn false) (tTxn false) (tHome 5 false []) _ (by decide) (by decide)).2.1 (by decide) (by decide) (by decide) (by decide) rfl⟩

theorem meets_dirAgeWarn (h : Obligations.CoherenceRuns) :
    ∃ t, exec (.dirAgeWarn 0) { State.reset with ticks := 1, coh := { State.reset.coh with dir := [(0, { DirEntry.init with queue := [(tTxn false).req] })] } } = .next t :=
  ⟨_, (h.2.2 0 31 (tCoh .getS) (tTxn false) (tTxn false) _ State.reset (by decide) (by decide)).2.2.1 (tTxn false).req (by decide) (by decide) (by decide) (by decide)⟩

theorem meets_memoryResponse (h : Obligations.CoherenceRuns) : ∃ t, exec (.memoryResponse true 0 31) (tHome 0 true []) = .next t :=
  ⟨_, (h.2.2 0 31 (tCoh .getS) (tTxn true) (tTxn true) (tHome 0 true []) State.reset (by decide) (by decide)).2.2.2.1 (by decide) (by decide) (by decide) (by decide)⟩

/-- Core 0 moves a block of its scratchpad. -/
def tMove : CoreReq := { id := 7, kind := .moveIn 0, addr := 0, size := 512, other := 0, group := 0, left := [0], accs := [] }

theorem meets_memoryResponse_core (h : Obligations.CoherenceRuns) : ∃ t, exec (.memoryResponse false 0 7) (tCore 0 0 { Core.init with missRegs := [tMove] }) = .next t :=
  ⟨_, (h.2.2 0 7 (tCoh .getS) (tTxn true) (tTxn true) (tCore 0 0 { Core.init with missRegs := [tMove] }) State.reset (by decide) (by decide)).2.2.2.2 0 tMove (by decide)
    (by decide) (by decide)⟩

/-! ### BeatBoundariesPass, ProtectionActs -/

theorem meets_beatBoundary (h : Obligations.BeatBoundariesPass) (r : BeatReading) :
    (∃ t, exec (.beatBoundary r) State.reset = .next t) ∧ ∃ t, exec (.beatBoundary r) { State.reset with power := { State.reset.power with tripped := true } } = .next t :=
  ⟨⟨_, ((h r State.reset _ rfl).2.2.2.1 (by decide) (by decide)).1⟩,
    ⟨_, (h r { State.reset with power := { State.reset.power with tripped := true } } _ rfl).2.2.2.2 (by decide)⟩⟩

/-- PMC_STATUS with these bits of its flow and trip inputs, and this instant of the latest change of FLOW_OK. -/
def tFlow (v : Nat) : State := { State.reset with ticks := 1, power := { State.reset.power with flowSince := 0 } } |>.setFld A.PMC_STATUS 35 33 v

theorem meets_flow (h : Obligations.ProtectionActs) :
    (∃ t, exec (.flowOkFall 0) (tFlow 1) = .next t) ∧ (∃ t, exec (.flowOkRise 0) (tFlow 0) = .next t) ∧ (∃ t, exec (.flowStop 0) (tFlow 2) = .next t)
    ∧ ∃ t, exec .thermalTrip (tFlow 4) = .next t :=
  ⟨⟨_, (h 0 0 0 0 (tFlow 1) _ rfl).1 (by decide)⟩, ⟨_, (h 0 0 0 0 (tFlow 0) _ rfl).2.1 (by decide)⟩,
    ⟨_, (h 0 0 0 0 (tFlow 2) _ rfl).2.2.1 (by decide) (by decide) (by decide) (by decide) (by decide) _ _ rfl rfl⟩, ⟨_, (h 0 0 0 0 (tFlow 4) _ rfl).2.2.2.1 (by decide) (by decide)⟩⟩

theorem meets_droop (h : Obligations.ProtectionActs) : ∃ t, exec (.droop 255 45 0) State.reset = .next t :=
  ⟨_, (h 255 45 0 0 State.reset _ rfl).2.2.2.2.1 (by decide) (by decide) (by decide)⟩

/-- Cluster 0 stepped down 4 steps, last at instant 0. -/
def tDroop (holding : Bool) : State :=
  { State.reset with ticks := 1, power := { State.reset.power with droops := [(0, { DroopState.init with steps := 4, holding := holding })] } }

theorem meets_droopRise (h : Obligations.ProtectionActs) :
    (∃ t, exec (.droopHoldExpiry 0 0) (tDroop true) = .next t) ∧ ∃ t, exec (.droopRestoreStep 0 0) (tDroop false) = .next t :=
  ⟨⟨_, ((h 0 0 0 0 (tDroop true) _ rfl).2.2.2.2.2 (by decide) (by decide)).1 (by decide) (by decide)⟩,
    ⟨_, ((h 0 0 0 0 (tDroop false) _ rfl).2.2.2.2.2 (by decide) (by decide)).2 (by decide) (by decide)⟩⟩

/-! ### RailsStep, PowerControllersAct -/

/-- The state after reset, `n` beats later, with die 0's status word fields and power state as given. -/
def tDie (n mv f st : Nat) (p : Power → Power) : State :=
  { State.reset with ticks := n, power := p State.reset.power } |>.setFld (A.PMC_DIE 0) 47 32 mv |>.setFld (A.PMC_DIE 0) 23 16 f |>.setFld (A.PMC_DIE 0) 9 8 st

/-- No frame. -/
def tFrame : RailFrame := { rail := 16, mv := 700, since := 0, repeats := 0 }

/-- No step. -/
def tStep : RailStep := { die := 16, mv := 700, up := false, phase := 1 }

theorem meets_droopStorm (h : Obligations.RailsStep) :
    ∃ t, exec (.droopStorm 0) (tDie 0 700 30 0 (fun p => { p with stormBeats := [(0, List.replicate 65 0)] })) = .next t :=
  ⟨_, ((h 0 65 0 tFrame tStep (tDie 0 700 30 0 (fun p => { p with stormBeats := [(0, List.replicate 65 0)] })) _).1 (by decide) (by decide) (by decide)).1 (by decide +kernel)
    (by decide) (by decide) (by decide) rfl⟩

theorem meets_droopVoltageReturn (h : Obligations.RailsStep) :
    ∃ t, exec (.droopVoltageReturn 0) (tDie 100000 825 30 0 (fun p => { p with stormSteps := [(0, 1)] })) = .next t :=
  ⟨_, ((h 0 1 0 tFrame tStep (tDie 100000 825 30 0 (fun p => { p with stormSteps := [(0, 1)] })) _).1 (by decide) (by decide) (by decide)).2 (by decide) (by decide) (by decide) rfl
    (Nat.lt_of_le_of_lt (Nat.min_le_left _ _) (by decide))⟩

theorem meets_thermal (h : Obligations.RailsStep) :
    (∃ t, exec .thermalStateEval (tDie 10 700 30 2 id) = .next t) ∧ ∃ t, exec (.critStep 0) (tDie 100 700 30 2 id) = .next t :=
  ⟨⟨_, (h 0 0 0 tFrame tStep (tDie 10 700 30 2 id) State.reset).2.1 (by decide) (by decide)⟩,
    ⟨_, (h 0 0 0 tFrame tStep (tDie 100 700 30 2 id) State.reset).2.2.1 (by decide) (by decide) (by decide) (by decide) (by decide)⟩⟩

theorem meets_rqAck (h : Obligations.RailsStep) :
    (∃ t, exec (.rqAck 16) (tDie 0 700 30 0 (fun p => { p with frames := [tFrame], steps := [tStep] })) = .next t)
    ∧ (∃ t, exec (.rqAck 16) (tDie 0 700 30 0 (fun p => { p with frames := [tFrame] })) = .next t)
    ∧ ∃ t, exec (.rqAckTimeout 16) (tDie 4 700 30 0 (fun p => { p with frames := [tFrame] })) = .next t :=
  ⟨⟨_, (((h 0 0 16 tFrame tStep (tDie 0 700 30 0 (fun p => { p with frames := [tFrame], steps := [tStep] })) _).2.2.2 (by decide)).1 (by decide) (by decide) (by decide) rfl).1 (by decide)⟩,
    ⟨_, (((h 0 0 16 tFrame tStep (tDie 0 700 30 0 (fun p => { p with frames := [tFrame] })) _).2.2.2 (by decide)).1 (by decide) (by decide) (by decide) rfl).2 (by decide)⟩,
    ⟨_, ((h 0 0 16 tFrame tStep (tDie 4 700 30 0 (fun p => { p with frames := [tFrame] })) State.reset).2.2.2 (by decide)).2 (by decide) (by decide) (by decide) (by decide)⟩⟩

/-- A ledger request of nothing is always within a ceiling. -/
theorem tNoneBooked (s : State) (k a b c : Nat) (h : s.booked100 k = 0) : s.booked100 k * a ≤ b * c := by rw [h, Nat.zero_mul]; exact Nat.zero_le _

theorem meets_opportunisticDecision (h : Obligations.PowerControllersAct) :
    (∃ t, exec (.opportunisticDecision 0) (tDie 100 700 31 0 id) = .next t)
    ∧ ∃ t, exec (.opportunisticDecision 0) ((tDie 100 700 31 0 id).setFld A.PMC_STATUS 1 0 1) = .next t :=
  ⟨⟨_, ((h 0 0 0 (tDie 100 700 31 0 id) State.reset).1 (by decide) (by decide) (by decide) (by decide) (by decide) (by decide) (by decide)).1 (by decide) (by decide)⟩,
    ⟨_, ((h 0 0 0 ((tDie 100 700 31 0 id).setFld A.PMC_STATUS 1 0 1) State.reset).1 (by decide) (by decide) (by decide) (by decide) (by decide) (by decide) (by decide)).2 (by decide)
      (by decide +kernel) (by decide) (by decide) (by decide +kernel) (tNoneBooked _ _ _ _ _ (by decide +kernel))⟩⟩

theorem meets_powerControls (h : Obligations.PowerControllersAct) :
    (∃ t, exec .capUpdate (tDie 1000 700 30 1 id) = .next t) ∧ (∃ t, exec .powerSharePeriod (tDie 1 700 30 0 id) = .next t)
    ∧ ∃ t, exec .powerSharePeriod ((tDie 1 700 30 0 id).setFld (A.BEAT 0x10) 2 0 2) = .next t :=
  ⟨⟨_, (h 0 0 0 (tDie 1000 700 30 1 id) _).2.1 (by decide) (by decide) (by decide) _ rfl rfl _ rfl⟩,
    ⟨_, ((h 0 0 0 (tDie 1 700 30 0 id) _).2.2.1 (by decide) (by decide) (by decide) rfl).1 (by decide)⟩,
    ⟨_, ((h 0 0 0 ((tDie 1 700 30 0 id).setFld (A.BEAT 0x10) 2 0 2) _).2.2.1 (by decide) (by decide) (by decide) rfl).2 (by decide) (by decide)⟩⟩

/-- Processor 34 absent since beat 0. -/
def tAbsent (n : Nat) : State := { State.reset with ticks := n, absent := [(34, 0)] }

theorem meets_processors (h : Obligations.PowerControllersAct) :
    (∃ t, exec (.controllerAbsent 34) (tAbsent 50000) = .next t) ∧ (∃ t, exec (.watchdogReset 34) State.reset = .next t) ∧ ∃ t, exec (.processorReturn 34) (tAbsent 0) = .next t :=
  ⟨⟨_, ((h 0 34 0 (tAbsent 50000) State.reset).2.2.2 (by decide)).1 (by decide) (by decide) (by decide)⟩,
    ⟨_, ((h 0 34 0 State.reset _).2.2.2 (by decide)).2.1 (by decide) (by decide) rfl _ rfl⟩, ⟨_, ((h 0 34 0 (tAbsent 0) State.reset).2.2.2 (by decide)).2.2 (by decide) (by decide)⟩⟩

/-! ### DictionaryServes, JournalWorks -/

/-- A request over the mailbox: OP, index, subindex, value. -/
def tOd (op i b : Nat) (v : List Byte) : OdRequest := { tr := 3, src := 0, tid := 0, op := op, index := i, sub := b, len := v.length, value := v, started := false }

/-- That request outstanding. -/
def tAsk (op i b : Nat) (v : List Byte) : State := { State.reset with jrn := { Journal.init with requests := [tOd op i b v] } }

theorem meets_odRead (h : Obligations.DictionaryServes) : ∃ t, exec (.odRead 3) (tAsk 1 0x2010 1 []) = .next t :=
  ⟨_, (h 3 0 (tOd 1 0x2010 1 []) (odB 0 0 0) (tAsk 1 0x2010 1 []) (by decide)).1 (by decide)⟩

theorem meets_odWrite (h : Obligations.DictionaryServes) :
    (∃ t, exec (.odWrite 3) (tAsk 2 0x2030 1 [1]) = .next t) ∧ (∃ t, exec (.odWrite 3) (tAsk 2 0x7030 1 (List.replicate 8 9)) = .next t)
    ∧ ∃ t, exec (.odWrite 3) (tAsk 2 0x2010 1 [1]) = .next t :=
  ⟨⟨_, ((h 3 0 (tOd 2 0x2030 1 [1]) (odB 0x2030 1 1 3) (tAsk 2 0x2030 1 [1]) (by decide)).2.1 (by decide)  rfl (by decide) (by decide) (by decide)).1 (by decide)⟩,
    ⟨_, ((h 3 0 (tOd 2 0x7030 1 (List.replicate 8 9)) ⟨0x7030, 1, 1, 1, .uint 8, .rw, 0, 0, u64, 0⟩ (tAsk 2 0x7030 1 (List.replicate 8 9)) (by decide)).2.1 (by decide) rfl
      (by decide) (by decide) (by decide)).2.1 (by decide) (by decide)⟩,
    ⟨_, ((h 3 0 (tOd 2 0x2010 1 [1]) (odP 0x2010 1 1 0 0 1) (tAsk 2 0x2010 1 [1]) (by decide)).2.1 (by decide)  rfl (by decide) (by decide) (by decide)).2.2 (by decide)
      (by decide)⟩⟩

theorem meets_odCommit (h : Obligations.DictionaryServes) : ∃ t, exec (.odCommit 3) (tAsk 2 0x2020 7 [1]) = .next t :=
  ⟨_, (h 3 1 (tOd 2 0x2020 7 [1]) (odB 0 0 0) (tAsk 2 0x2020 7 [1]) (by decide)).2.2.1 (by decide) (by decide) (by decide) (by decide) (by decide)⟩

theorem meets_odActions (h : Obligations.DictionaryServes) :
    (∃ t, exec (.applyNow 3) (tAsk 2 0x5011 0 [1]) = .next t) ∧ ∃ t, exec (.defaults 3) (tAsk 2 0x9040 1 [1]) = .next t :=
  ⟨⟨_, (h 3 1 (tOd 2 0x5011 0 [1]) (odB 0 0 0) (tAsk 2 0x5011 0 [1]) (by decide)).2.2.2.1 (by decide) (by decide +kernel) (by decide)⟩,
    ⟨_, (h 3 1 (tOd 2 0x9040 1 [1]) (odB 0 0 0) (tAsk 2 0x9040 1 [1]) (by decide)).2.2.2.2 (by decide) (by decide) (by decide) _ rfl (by decide)⟩⟩

/-- A batch of one value at the front of the persistence queue, its current granted. -/
def tBatch : OdBatch := { entries := [(0x2010, 1, some [1])], exempt := false, answers := none, staged := [], after := .none }

theorem meets_journal (h : Obligations.JournalWorks) :
    (∃ t, exec (.journalBatchPersisted []) { State.reset with jrn := { Journal.init with batches := [tBatch], busy := 1 } } = .next t)
    ∧ (∃ t, exec .compactionCopy { State.reset with jrn := { Journal.init with compacting := true, busy := 2 } } = .next t)
    ∧ ∃ t, exec .tokenRefill { State.reset with beat := 1000000 } = .next t :=
  ⟨⟨_, (h [] tBatch [] _ { State.reset with jrn := { Journal.init with batches := [tBatch], busy := 1 } } _ _ _ _ _).1 (by decide) (by decide) (by decide) rfl rfl rfl rfl rfl⟩,
    ⟨_, (h [] tBatch [] true { State.reset with jrn := { Journal.init with compacting := true, busy := 2 } } State.reset State.reset State.reset State.reset State.reset).2.1
      (by decide) (by decide) (by decide) (by decide)⟩,
    ⟨_, (h [] tBatch [] true { State.reset with beat := 1000000 } State.reset State.reset State.reset State.reset State.reset).2.2 (by decide) (by decide) (by decide)⟩⟩

/-! ### CanAndMailboxCarryRequests, MctpMessagesAnswered -/

/-- The identifier of a request of master 0x40 to device 0, tag 0. -/
def tId : Nat := canId 2 0 0 0x40 0

/-- Boot step 8 reached, with these transfers. -/
def tCan (n : Nat) (x : Option CanIn) (y : Option CanOut) : State :=
  { State.reset with ticks := n, boot := { Boot.init with step := 8 }, jrn := { Journal.init with canIn := x, canOut := y } }

/-- A segmented write of 100 bytes of which 56 have come, and an answer of 70 bytes of which the first 56 have gone. -/
def tCanIn (len : Nat) : CanIn :=
  { req := { tr := 0, src := 0x40, tid := 0, op := 2, index := 0x5200, sub := 10, len := len, value := List.replicate 56 0, started := false }, next := 1, since := 0 }
def tCanOut : CanOut := { dst := 0x40, tid := 0, left := List.replicate 14 0, next := 1, since := 0 }

theorem meets_canFrames (h : Obligations.CanAndMailboxCarryRequests) :
    (∃ t, exec (.single tId (tBytes 8 [(1, 1)])) (tCan 0 none none) = .next t) ∧ (∃ t, exec (.first tId (tBytes 64 [(0, 0x40), (1, 2), (6, 100)])) (tCan 0 none none) = .next t)
    ∧ (∃ t, exec (.consec tId (tBytes 64 [(0, 0x81)])) (tCan 0 (some (tCanIn 200)) none) = .next t)
    ∧ (∃ t, exec (.consec tId (tBytes 64 [(0, 0x81)])) (tCan 0 (some (tCanIn 100)) none) = .next t)
    ∧ ∃ t, exec (.flow tId (tBytes 4 [(0, 0xC0)])) (tCan 0 none (some tCanOut)) = .next t :=
  ⟨⟨_, ((h tId 0x40 0 0 (tBytes 8 [(1, 1)]) [] (tCanIn 0) tCanOut (tCan 0 none none)).1 (by decide)).1 (by decide) (by decide)⟩,
    ⟨_, ((h tId 0x40 0 0 (tBytes 64 [(0, 0x40), (1, 2), (6, 100)]) [] (tCanIn 0) tCanOut (tCan 0 none none)).1 (by decide)).2.1 (by decide) (by decide) (by decide) (by decide)
      (by decide)⟩,
    ⟨_, (((h tId 0x40 0 0 (tBytes 64 [(0, 0x81)]) _ (tCanIn 200) tCanOut (tCan 0 (some (tCanIn 200)) none)).1 (by decide)).2.2.1 rfl (by decide) (by decide) (by decide) (by decide)
      (by decide) rfl).1 (by decide)⟩,
    ⟨_, (((h tId 0x40 0 0 (tBytes 64 [(0, 0x81)]) _ (tCanIn 100) tCanOut (tCan 0 (some (tCanIn 100)) none)).1 (by decide)).2.2.1 rfl (by decide) (by decide) (by decide) (by decide)
      (by decide) rfl).2 (by decide)⟩,
    ⟨_, ((h tId 0x40 0 0 (tBytes 4 [(0, 0xC0)]) [] (tCanIn 0) tCanOut (tCan 0 none (some tCanOut))).1 (by decide)).2.2.2 (by decide) (by decide) (by decide) (by decide) (by decide)⟩⟩

theorem meets_canTransferTimeout (h : Obligations.CanAndMailboxCarryRequests) : ∃ t, exec .canTransferTimeout (tCan 100001 (some (tCanIn 100)) none) = .next t :=
  ⟨_, (h tId 0x40 0 0 [] [] (tCanIn 100) tCanOut (tCan 100001 (some (tCanIn 100)) none)).2.1 rfl (by decide) (by decide)⟩

theorem meets_go (h : Obligations.CanAndMailboxCarryRequests) : ∃ t, exec (.go 4) tBar = .next t :=
  ⟨_, (h tId 0x40 0 4 [] [] (tCanIn 0) tCanOut tBar).2.2 (by decide) (by decide +kernel) _ rfl⟩

theorem tVendor (l : List Byte) (h : l.length = 2) : (l.getD 1 0).toNat * 256 + (l.getD 0 0).toNat = leNat l := by
  match l, h with
  | [a, b], _ => simp only [leNat, List.getD_cons_zero, List.getD_cons_succ]; omega

/-- A vendor-defined OD request of Pyrud: a read of 0:0. -/
def tMctp : List Byte := [0x7E, (factoryBytes 0x100004 2).getD 1 0, (factoryBytes 0x100004 2).getD 0 0, 1, 1, 0, 0, 0, 0, 0, 0]

theorem meets_mctpOdRequest (h : Obligations.MctpMessagesAnswered) : ∃ t, exec (.mctpOdRequest true 9 1 tMctp) State.reset = .next t :=
  ⟨_, (h true 9 1 tMctp [] State.reset State.reset).1 (by decide) rfl
    (Eq.trans (by simp only [byteAt, tMctp, List.getD_cons_zero, List.getD_cons_succ]) (tVendor (factoryBytes 0x100004 2) (by simp [factoryBytes]))) rfl⟩

theorem meets_mctpControl (h : Obligations.MctpMessagesAnswered) : ∃ t, exec (.mctpControl true 9 (tBytes 3 [(1, 0x81), (2, 2)])) State.reset = .next t :=
  ⟨_, (h true 9 1 (tBytes 3 [(1, 0x81), (2, 2)]) _ State.reset _).2.1 (by decide) (by decide) (by decide) (by decide) rfl⟩

theorem meets_spdmOverMctp (h : Obligations.MctpMessagesAnswered) :
    (∃ t, exec (.getMeasurements true 9 (tBytes 5 [(0, 5), (2, 0xE0)])) (tCan 0 none none) = .next t)
    ∧ ∃ t, exec (.spdmOverMctp true 9 (tBytes 5 [(0, 5), (2, 0x84)])) (tCan 0 none none) = .next t :=
  ⟨((h true 9 1 (tBytes 5 [(0, 5), (2, 0xE0)]) [] (tCan 0 none none) State.reset).2.2 (by decide) (by decide) (by decide)).1 (by decide) |>.elim (fun _ e => ⟨_, e⟩),
    ((h true 9 1 (tBytes 5 [(0, 5), (2, 0x84)]) [] (tCan 0 none none) State.reset).2.2 (by decide) (by decide) (by decide)).2 (by decide) |>.elim (fun _ e => ⟨_, e⟩)⟩

/-! ### TelemetryActs -/

theorem meets_ctrClear (h : Obligations.TelemetryActs) : ∃ t, exec (.ctrClear 0 0x404000) tBar = .next t :=
  ⟨_, (h.1 0 0x404000 0 0 0 0 0x404000 0 .cub tBar (by decide) (by decide) (by decide) (by decide) (by decide)).1 (by decide) (by decide) (by decide)⟩

theorem meets_counterLowRead (h : Obligations.TelemetryActs) : ∃ t, exec (.counterLowRead 0 0x404010) tBar = .next t :=
  ⟨_, (h.1 0 0x404010 0 0 0 0 0x404010 0 .cub tBar (by decide) (by decide) (by decide) (by decide) (by decide)).2.1 (by decide) (by decide) (by decide) (by decide +kernel)⟩

theorem meets_telemetryWrites (h : Obligations.TelemetryActs) :
    (∃ t, exec (.telEvselWrite 31 15 9) tBar = .next t) ∧ (∃ t, exec (.snapGo 15) tBar = .next t) ∧ (∃ t, exec .maxclr tBar = .next t) ∧ (∃ t, exec (.traceFlush 31) tBar = .next t)
    ∧ ∃ t, exec (.traceStart 31) tBar = .next t :=
  have g := (h.1 0 0 31 15 9 15 0 0 .cub tBar (by decide) (by decide) (by decide) (by decide) (by decide)).2.2
  ⟨⟨_, g.1 _ rfl⟩, ⟨_, g.2.1 (by decide)⟩, ⟨_, g.2.2.1⟩, ⟨_, g.2.2.2.1 (by decide)⟩, ⟨_, g.2.2.2.2⟩⟩

/-- An event of the log. -/
def tEvent : SlogEvent := { kind := 9, beat := 0, data := [(0, 1)] }

theorem meets_healthBeacon (h : Obligations.TelemetryActs) : ∃ t, exec .healthBeacon State.reset = .next t :=
  ⟨_, (h.2 0 0 [] 0 0 tEvent [] State.reset _ State.reset).1 (by decide) (by decide) (by decide) rfl⟩

theorem meets_marginSweep (h : Obligations.TelemetryActs) : ∃ t, exec (.marginSweep 31) (State.reset.setFld (A.PMC_DIE 3) 23 16 30) = .next t :=
  ⟨_, (h.2 31 0 [] 0 0 tEvent [] (State.reset.setFld (A.PMC_DIE 3) 23 16 30) _ State.reset).2.1 (by decide) (by decide +kernel) rfl⟩

theorem tSlack (n : Nat) : 30 ≤ min 0xFFFE ((1000 : Int) * 100 / ((n % 1000 + 1 : Nat) : Int)).toNat := by
  have h : (100 : Int) ≤ 1000 * 100 / ((n % 1000 + 1 : Nat) : Int) := Int.le_ediv_of_mul_le (by omega) (by omega)
  omega

/-- Cluster 31's sweep has run for 40 beats. -/
def tSweep : State := { State.reset with ticks := 40, tel := { Tel.init with sweeps := [(31, 0)] } }

theorem tSweep_inv : tSweep.Inv := by
  refine ⟨rfl, rfl, ?_, ?_, ?_, ?_, rfl, rfl⟩ <;> decide

theorem meets_marginSweepComplete (h : Obligations.TelemetryActs) : ∃ t, exec (.marginSweepComplete 31 (List.replicate 30 1000)) tSweep = .next t :=
  ((h.2 31 0 (List.replicate 30 1000) 1000 _ tEvent [] tSweep State.reset State.reset).2.2.1 tSweep_inv (by decide) (by decide) (by decide) (by decide +kernel) (by decide +kernel) (by decide +kernel) rfl
    (tSlack (Config.fused 1 (31 / 8)))).elim (fun t e => ⟨t, e.1⟩)

theorem meets_serviceLog (h : Obligations.TelemetryActs) :
    (∃ t, exec .serviceLogEventWrite { State.reset with slogQ := [tEvent] } = .next t)
    ∧ ∃ t, exec .serviceLogEventWrite { State.reset with slogQ := [tEvent], tel := { Tel.init with supp := [(9, 0, 16)] } } = .next t :=
  ⟨⟨_, ((h.2 0 0 [] 0 0 tEvent [] { State.reset with slogQ := [tEvent] } State.reset State.reset).2.2.2.1 (by decide) (by decide) (by decide)).2 (by decide)⟩,
    ⟨_, ((h.2 0 0 [] 0 0 tEvent [] { State.reset with slogQ := [tEvent], tel := { Tel.init with supp := [(9, 0, 16)] } } State.reset State.reset).2.2.2.1 (by decide) (by decide)
      (by decide)).1 (by decide) (by decide)⟩⟩

theorem meets_hourlyDigest (h : Obligations.TelemetryActs) :
    ∃ t, exec .hourlyDigest { State.reset with tel := { Tel.init with hourBeats := 3600000000, logAsked := true } } = .next t :=
  ⟨_, (h.2 0 0 [] 0 0 tEvent [] { State.reset with tel := { Tel.init with hourBeats := 3600000000, logAsked := true } } _ _).2.2.2.2 (by decide) (by decide) (by decide) (by decide)
    (by decide) rfl rfl⟩

/-! ### UpdatesRun -/

/-- A request outstanding and the update at `stage`. -/
def tUp (stage : Nat) (fw : Firmware) (b : Nat) (i : Nat) (v : List Byte) : State :=
  { tAsk 2 i b v with od := [(odKey 0x8010 6, [BitVec.ofNat 8 stage])], fw := fw }

/-- A download of 256 bytes. -/
def tDown : Firmware := { Firmware.init with length := 256 }

theorem meets_dlBegin (h : Obligations.UpdatesRun) : ∃ t, exec (.dlBegin 3) (tUp 0 tDown 1 0x8020 [0, 1, 0, 0]) = .next t :=
  ⟨_, (h.1 3 256 (tOd 2 0x8020 1 [0, 1, 0, 0]) (tUp 0 tDown 1 0x8020 [0, 1, 0, 0]) (by decide)).1 (by decide) (by decide) (by decide) _ rfl _ rfl⟩

theorem meets_dlData (h : Obligations.UpdatesRun) : ∃ t, exec (.dlData 3) (tUp 1 tDown 3 0x8020 [7]) = .next t :=
  ⟨_, (h.1 3 7 (tOd 2 0x8020 3 [7]) (tUp 1 tDown 3 0x8020 [7]) (by decide)).2.1 (by decide) (by decide) (by decide) (by decide) _ rfl⟩

theorem meets_dlFrom (h : Obligations.UpdatesRun) : ∃ t, exec (.dlFrom 3) (tUp 1 tDown 4 0x8020 [0, 1, 0, 0, 0, 0, 0, 0]) = .next t :=
  ⟨_, (h.1 3 256 (tOd 2 0x8020 4 [0, 1, 0, 0, 0, 0, 0, 0]) (tUp 1 tDown 4 0x8020 [0, 1, 0, 0, 0, 0, 0, 0]) (by decide)).2.2.1 (by decide) (by decide) (by decide) (by decide)
    (by decide) _ rfl⟩

theorem meets_dlAbort (h : Obligations.UpdatesRun) : ∃ t, exec (.dlAbort 3) (tUp 1 tDown 5 0x8020 [1]) = .next t :=
  ⟨_, (h.1 3 1 (tOd 2 0x8020 5 [1]) (tUp 1 tDown 5 0x8020 [1]) (by decide)).2.2.2.1 (by decide) (by decide)⟩

theorem meets_verify (h : Obligations.UpdatesRun) : ∃ t, exec (.verify 3) (tUp 2 tDown 0 0x8021 [1]) = .next t :=
  ⟨_, (h.1 3 1 (tOd 2 0x8021 0 [1]) (tUp 2 tDown 0 0x8021 [1]) (by decide)).2.2.2.2.1 (by decide) (by decide)⟩

/-- Both images say that they fit each other: their blob formats are 0. -/
def tFits : Firmware := { tDown with flash := [10, 11, 12, 13, 14, 15, 0x200000A, 0x200000B, 0x200000C, 0x200000D, 0x200000E, 0x200000F].map (fun o => (o, 1)) }

theorem meets_activate (h : Obligations.UpdatesRun) : (∃ t, exec (.activate 3) (tUp 4 tFits 1 0x8022 [2]) = .next t) ∧ ∃ t, exec (.activate 3) (tUp 4 tFits 1 0x8022 [1]) = .next t :=
  ⟨⟨_, ((h.1 3 2 (tOd 2 0x8022 1 [2]) (tUp 4 tFits 1 0x8022 [2]) (by decide)).2.2.2.2.2.1 (by decide) (by decide)).1 (by decide)⟩,
    ⟨_, ((h.1 3 1 (tOd 2 0x8022 1 [1]) (tUp 4 tFits 1 0x8022 [1]) (by decide)).2.2.2.2.2.1 (by decide) (by decide)).2 (by decide) (by decide +kernel)⟩⟩

theorem meets_confirmReject (h : Obligations.UpdatesRun) : (∃ t, exec (.confirm 3) (tUp 5 tDown 2 0x8022 [1]) = .next t) ∧ ∃ t, exec (.reject 3) (tUp 5 tDown 3 0x8022 [1]) = .next t :=
  ⟨⟨_, (h.1 3 1 (tOd 2 0x8022 2 [1]) (tUp 5 tDown 2 0x8022 [1]) (by decide)).2.2.2.2.2.2.1 (by decide) (by decide)⟩,
    ⟨_, (h.1 3 1 (tOd 2 0x8022 3 [1]) (tUp 5 tDown 3 0x8022 [1]) (by decide)).2.2.2.2.2.2.2 (by decide) (by decide) _ rfl⟩⟩

/-- A download whose flash operation has its current. -/
def tFlash (fw : Firmware) : State :=
  { tUp 1 fw 0 0 [] with esc := { State.reset.esc with bookings := [{ rail := 17, amount := 1, nominal := 0, start := 0, stop := none, permanent := false, owner := .flash }] } }

theorem meets_flashOperationComplete (h : Obligations.UpdatesRun) :
    (∃ t, exec (.flashOperationComplete false) (tFlash { tDown with erase := 1 }) = .next t) ∧ (∃ t, exec (.flashOperationComplete true) (tFlash { tDown with erase := 1 }) = .next t)
    ∧ ∃ t, exec (.flashOperationComplete true) (tFlash { tDown with buffer := [7] }) = .next t :=
  ⟨⟨_, ((h.2 0 0 0 (tFlash { tDown with erase := 1 }) State.reset).1 (by decide) (by decide)).1⟩,
    ⟨_, ((h.2 0 0 0 (tFlash { tDown with erase := 1 }) _).1 (by decide) (by decide)).2.1 (by decide) (by decide) rfl⟩,
    ⟨_, ((h.2 0 0 0 (tFlash { tDown with buffer := [7] }) _).1 (by decide) (by decide)).2.2 (by decide) (by decide) rfl⟩⟩

/-- Slot B whose first byte is not the magic number's. -/
def tBroken : Firmware := { tDown with flash := [0x2000000, 0x2000001, 0x2000002, 0x2000003].map (fun o => (o, 1)) }

theorem meets_verifyComplete_fails (h : Obligations.UpdatesRun) : ∃ t, exec .verifyComplete (tUp 3 tBroken 0 0 []) = .next t :=
  ⟨_, ((h.2 1 1 0 (tUp 3 tBroken 0 0 []) State.reset).2.1 (by decide) (by decide) (by decide) (by decide)).1
    (by have e : (tUp 3 tBroken 0 0 []).imageField 1 0 4 ≠ 0x5746584C := by decide
        unfold State.imageFails; exact if_pos (Or.inl e))⟩

/-- Whether an image passes is a free value (DESIGN CHOICE, log 28): any that does meets the hypotheses. -/
theorem meets_verifyComplete_passes (h : Obligations.UpdatesRun) (fw : Firmware) (ht : fw.target = 1) (hq : fw.quiesce = 0) (hp : (tUp 3 fw 0 0 []).imageFails 1 fw.length = none) :
    ∃ t, exec .verifyComplete (tUp 3 fw 0 0 []) = .next t :=
  ⟨_, ((h.2 1 0 0 (tUp 3 fw 0 0 []) State.reset).2.1 rfl (by simp [State.fwBusy, tUp, tAsk, Journal.init, hq]) rfl ht.symm).2 hp⟩

theorem meets_quiesce (h : Obligations.UpdatesRun) :
    (∃ t, exec .activateQuiesced (tUp 4 { tDown with quiesce := 1 } 0 0 []) = .next t)
    ∧ ∃ t, exec .quiesceTimeout { tUp 4 { tDown with quiesce := 1 } 0 0 [] with ticks := 200000, flights := [tFly []] } = .next t :=
  ⟨⟨_, ((h.2 0 0 0 (tUp 4 { tDown with quiesce := 1 } 0 0 []) _).2.2.1 (by decide) (by decide)).1 (by decide) rfl⟩,
    ⟨_, ((h.2 0 0 0 { tUp 4 { tDown with quiesce := 1 } 0 0 [] with ticks := 200000, flights := [tFly []] } State.reset).2.2.1 (by decide) (by decide)).2 (by decide) (by decide)⟩⟩

theorem meets_handoffResume (h : Obligations.UpdatesRun) :
    (∃ t, exec (.handoffResume false) (tUp 5 { tDown with handed := true } 0 0 []) = .next t) ∧ ∃ t, exec (.handoffResume true) (tUp 5 { tDown with handed := true } 0 0 []) = .next t :=
  ⟨⟨_, ((h.2 0 0 0 (tUp 5 { tDown with handed := true } 0 0 []) State.reset).2.2.2.1 (by decide) (by decide)).1⟩,
    ⟨_, ((h.2 0 0 0 (tUp 5 { tDown with handed := true } 0 0 []) _).2.2.2.1 (by decide) (by decide)).2 rfl⟩⟩

theorem meets_autoConfirm (h : Obligations.UpdatesRun) : ∃ t, exec .autoConfirm { tUp 5 { tDown with trialSince := 1 } 0 0 [] with ticks := 3600000000 } = .next t :=
  ⟨_, (h.2 0 0 60 { tUp 5 { tDown with trialSince := 1 } 0 0 [] with ticks := 3600000000 } State.reset).2.2.2.2 (by decide) (by decide) (by decide) (by decide) (by decide) (by decide)
    (by decide) (by decide) (by decide)⟩

/-! ### TiersAct, MemoryTestsRun -/

/-- The state after reset, `n` beats later, with one booking of this owner. -/
def tHeld (n : Nat) (o : Owner) : State :=
  { State.reset with ticks := n, esc := { State.reset.esc with bookings := [{ rail := 4, amount := 1, nominal := 0, start := 0, stop := none, permanent := false, owner := o }] } }

/-- A copy of bank 3 of die 0 into spare 7, and an action. -/
def tBankCopy : BankCopy := { die := 0, spare := 7, bank := 3, copied := [] }
def tPart (apply : Bool) : PartAction := { fn := 1, die := 3, apply := apply }
def tTier (g : MemTiers → MemTiers) : State := { tBar with tiers := g State.reset.tiers, boot := { Boot.init with step := 8 }, ticks := 1000 }

theorem meets_scrubPass (h : Obligations.TiersAct) : ∃ t, exec (.scrubPass 0 [64] [128]) (tHeld 14400000000 (.scrub 0)) = .next t :=
  ⟨_, (h 0 0 0 0 0 [64] [128] [] tBankCopy (tPart true) [] (tHeld 14400000000 (.scrub 0)) State.reset).1 (by decide) (by decide) (by decide) (by decide)⟩

theorem meets_bankCopyComplete (h : Obligations.TiersAct) : ∃ t, exec (.bankCopyComplete 0 7) (tTier (fun x => { x with copies := [tBankCopy] })) = .next t :=
  ((h 0 7 0 0 0 [] [] [] tBankCopy (tPart true) [] (tTier (fun x => { x with copies := [tBankCopy] })) State.reset).2.1 (by decide) (by decide) (by decide)).elim (fun _ e => ⟨_, e.1⟩)

theorem meets_hbm (h : Obligations.TiersAct) :
    (∃ t, exec (.hbmTempReading (List.replicate 12 50)) (tTier id) = .next t)
    ∧ ∃ t, exec (.hotChannel 767) ((tTier (fun x => { x with hotRun := [(767, 1000)] })).setFld A.MEM_GCTL 1 1 1) = .next t :=
  ⟨⟨_, (h 0 0 0 0 0 [] [] (List.replicate 12 50) tBankCopy (tPart true) [] (tTier id) _).2.2.1 (by decide) (by decide) (by decide) (by decide) rfl⟩,
    ⟨_, (h 0 0 0 767 0 [] [] [] tBankCopy (tPart true) [] ((tTier (fun x => { x with hotRun := [(767, 1000)] })).setFld A.MEM_GCTL 1 1 1) _).2.2.2.1 (by decide) (by decide) (by decide)
      (by decide) rfl⟩⟩

theorem meets_cacheParts (h : Obligations.TiersAct) :
    (∃ t, exec (.apply 1 3) (tTier id) = .next t) ∧ (∃ t, exec (.flush 1 3) (tTier id) = .next t)
    ∧ (∃ t, exec .fcpActionDone (tTier (fun x => { x with partAction := some (tPart true) })) = .next t)
    ∧ ∃ t, exec .fcpActionDone (tTier (fun x => { x with partAction := some (tPart false) })) = .next t :=
  ⟨⟨_, ((h 3 0 1 0 0 [] [] [] tBankCopy (tPart true) [] (tTier id) _).2.2.2.2.1 (by decide) (by decide) (by decide) (by decide) rfl).1 (by decide +kernel)⟩,
    ⟨_, ((h 3 0 1 0 0 [] [] [] tBankCopy (tPart true) [] (tTier id) _).2.2.2.2.1 (by decide) (by decide) (by decide) (by decide) rfl).2⟩,
    ⟨_, ((h 3 0 1 0 0 [] [] [] tBankCopy (tPart true) [] (tTier (fun x => { x with partAction := some (tPart true) })) _).2.2.2.2.2.1 (by decide) rfl).1 (by decide)⟩,
    ⟨_, ((h 3 0 1 0 0 [] [] [] tBankCopy (tPart false) [] (tTier (fun x => { x with partAction := some (tPart false) })) _).2.2.2.2.2.1 (by decide) rfl).2 (by decide)⟩⟩

theorem meets_capacityTier (h : Obligations.TiersAct) : (∃ t, exec (.errorCheckAndScrub 4096) (tTier id) = .next t) ∧ ∃ t, exec (.pcRetrainComplete 767 true []) (tTier id) = .next t :=
  ⟨⟨_, (h 0 0 0 0 4096 [] [] [] tBankCopy (tPart true) [] (tTier id) State.reset).2.2.2.2.2.2.1 (by decide)⟩,
    ⟨_, (h 0 0 0 767 0 [] [] [] tBankCopy (tPart true) [] (tTier id) State.reset).2.2.2.2.2.2.2 (by decide) _ rfl⟩⟩

/-- Test generator 767 running, in a single pass (ctl 0) or until stopped (ctl 4). -/
def tGen (ctl : Nat) : State := { ((tHeld 0 (.tg 767)).setReg (A.TG 767 0x18) 1).setReg (A.TG 767 0) ctl with barOpen := true }

theorem meets_memoryTests (h : Obligations.MemoryTestsRun) :
    (∃ t, exec (.testMode 0) tBar = .next t) ∧ (∃ t, exec (.testMode 1) tBar = .next t) ∧ (∃ t, exec (.start 767 0) (tBar.setFld A.MEM_GCTL 0 0 1) = .next t)
    ∧ (∃ t, exec (.stop 767) (tGen 4) = .next t) ∧ (∃ t, exec (.tgDone 767 []) (tGen 4) = .next t) ∧ ∃ t, exec (.tgDone 767 []) (tGen 0) = .next t :=
  ⟨⟨_, (h 0 0 0 [] tBar State.reset (by decide) (by decide)).1⟩, ⟨_, (h 0 0 0 [] tBar State.reset (by decide) (by decide)).2.1 (by decide +kernel) (by decide)⟩,
    ⟨_, (h 767 _ 0 [] (tBar.setFld A.MEM_GCTL 0 0 1) State.reset (by decide) (by decide)).2.2.1 (by decide) (by decide) (by decide) rfl⟩,
    ⟨_, ((h 767 0 0 [] (tGen 4) State.reset (by decide) (by decide)).2.2.2 (by decide)).1 (by decide)⟩,
    ⟨_, (((h 767 0 0 [] (tGen 4) _ (by decide) (by decide)).2.2.2 (by decide)).2 (by decide) rfl).1 (by decide) (by decide)⟩,
    ⟨_, (((h 767 0 0 [] (tGen 0) _ (by decide) (by decide)).2.2.2 (by decide)).2 (by decide) rfl).2 (by decide) _ _ rfl rfl⟩⟩

/-! ### FieldTestsRun -/

/-- A test of slot 3 of cluster 31, running and over. -/
def tTest : FieldTest := { cluster := 31, slot := 3, cmd := none, forced := false }
def tTesting : State := { State.reset with faults := { State.reset.faults with test := some tTest } }

theorem meets_iftStart (h : Obligations.FieldTestsRun) : ∃ t, exec .iftStart State.reset = .next t :=
  ⟨_, (h 0 0 0 0 0 0 tTest tTest (tFly []) State.reset State.reset).1 (by decide) (by decide) (by decide) (by decide +kernel)⟩

theorem meets_iftForced (h : Obligations.FieldTestsRun) : ∃ t, exec (.iftForced 31 16) { State.reset with beat := 600000000 } = .next t :=
  ⟨_, (h 0 31 16 0 0 0 tTest _ (tFly []) { State.reset with beat := 600000000 } _).2.1 (by decide) (by decide) (by decide) (by decide) (by decide) (by decide) rfl rfl⟩

theorem meets_iftComplete (h : Obligations.FieldTestsRun) : (∃ t, exec (.iftComplete true 0) tTesting = .next t) ∧ ∃ t, exec (.iftComplete false 5) tTesting = .next t :=
  ⟨⟨_, ((h 0 0 0 0 0 499 tTest tTest (tFly []) tTesting _).2.2.1 (by decide) (by decide) (by decide) (by decide +kernel) (by decide) rfl).1⟩,
    ⟨_, ((h 0 0 0 5 0 499 tTest tTest (tFly []) tTesting _).2.2.1 (by decide) (by decide) (by decide) (by decide +kernel) (by decide) rfl).2 _ _ rfl rfl⟩⟩

theorem meets_spareReady (h : Obligations.FieldTestsRun) :
    ∃ t, exec (.spareReady 31) { State.reset with faults := { State.reset.faults with spareWaking := [31], unitMap := [(31, 0x00CC1000)] } } = .next t :=
  ⟨_, (h 0 31 0 0 508 0 tTest tTest (tFly []) { State.reset with faults := { State.reset.faults with spareWaking := [31], unitMap := [(31, 0x00CC1000)] } } State.reset).2.2.2.1 (by decide)
    (by decide) (by decide) (by decide +kernel) (by decide +kernel)⟩

theorem meets_coreHang (h : Obligations.FieldTestsRun) : ∃ t, exec (.coreHang 0) { tRun [(0, 0x10)] with ticks := 8 } = .next t :=
  ⟨_, (h 0 0 0 0 0 0 tTest tTest (tFly [(0, 0x10)]) { tRun [(0, 0x10)] with ticks := 8 } State.reset).2.2.2.2 (by decide) (by decide) (by decide) (by decide +kernel) _ _ _ rfl rfl rfl _ _ _
    rfl rfl rfl⟩

/-! ### RunningResetsAct, PowerBootAndTap -/

theorem meets_hubClrst (h : Obligations.RunningResetsAct) : ∃ t, exec (.hubClrst 1) tBar = .next t :=
  ⟨_, (h 1 0 tBar _ State.reset).1 (by decide) (by decide) (by decide) rfl⟩

/-- Cluster 0 being reset. -/
def tClrst : State := { State.reset with clrst := 1 } |>.setFld A.HUB_CLRST 63 63 1

theorem meets_clusterResetDone (h : Obligations.RunningResetsAct) : ∃ t, exec .clusterResetDone tClrst = .next t :=
  ⟨_, (h 0 0 tClrst _ _).2.1 (by decide) rfl (by right; decide +kernel) rfl⟩

/-- A booted device whose PCIe link is up, or not, with one VF. -/
def tUpLink (b : Boot → Boot) : State := { State.reset with boot := b { Boot.init with step := 10, pcieUp := true }, vfEnable := true, numVfs := 1, barOpen := true }

theorem meets_resets (h : Obligations.RunningResetsAct) :
    (∃ t, exec (.flr 1) (tUpLink id) = .next t) ∧ (∃ t, exec (.flr 0) (tUpLink id) = .next t) ∧ (∃ t, exec .pfFlr (tUpLink id) = .next t)
    ∧ (∃ t, exec .vfEnableClear (tUpLink id) = .next t) ∧ (∃ t, exec .hotReset (tUpLink id) = .next t) ∧ (∃ t, exec .perstN (tUpLink id) = .next t)
    ∧ ∃ t, exec .perstNRise (tUpLink (fun b => { b with perst := false })) = .next t :=
  have g := (h 0 1 (tUpLink id) State.reset State.reset).2.2.1 (by decide)
  ⟨⟨_, g.1 (by decide) (by decide) (by decide)⟩, ⟨_, g.2.1⟩, ⟨_, g.2.2.1⟩, ⟨_, g.2.2.2.1 (by decide)⟩, ⟨_, g.2.2.2.2 (by decide)⟩,
    ⟨_, (h 0 1 (tUpLink id) _ State.reset).2.2.2.1 (by decide) rfl⟩, ⟨_, (h 0 1 (tUpLink (fun b => { b with perst := false })) State.reset State.reset).2.2.2.2 (by decide)⟩⟩

theorem meets_powerGood (h : Obligations.PowerBootAndTap) :
    (∃ t, exec (.pwrGoodRise 63 3) (tUpLink (fun b => { b with pwrGood := false })) = .next t) ∧ ∃ t, exec (.pwrGoodFall 0) (tUpLink id) = .next t :=
  ⟨⟨_, (h.1 63 3 0 0 0 0 (tUpLink (fun b => { b with pwrGood := false })) _ State.reset).1 (by decide) (by decide) rfl⟩,
    ⟨_, (h.1 0 0 0 0 0 0 (tUpLink id) _ State.reset).2.1 (by decide) rfl⟩⟩

theorem meets_boot (h : Obligations.PowerBootAndTap) :
    (∃ t, exec .bootStepComplete State.reset = .next t) ∧ (∃ t, exec .bootTimeout { State.reset with boot := { Boot.init with railFault := true } } = .next t)
    ∧ ∃ t, exec (.railFault 17) { State.reset with ticks := 5000, power := { State.reset.power with enables := [(0, 0)] } } = .next t :=
  ⟨⟨_, ((h.1 0 0 0 0 0 0 State.reset _ State.reset).2.2.2.1 (by decide) (by decide) (by decide) (by decide)).1 (by decide) (by decide) (by decide) (by decide) rfl⟩,
    ⟨_, ((h.1 0 0 0 0 _ 0 { State.reset with boot := { Boot.init with railFault := true } } _ _).2.2.2.1 (by decide) (by decide) (by decide) (by decide)).2 (by decide) rfl rfl rfl⟩,
    ⟨_, (h.1 0 0 0 17 0 0 { State.reset with ticks := 5000, power := { State.reset.power with enables := [(0, 0)] } } State.reset State.reset).2.2.2.2 (by decide) (by decide)
      (by decide)⟩⟩

/-- The test access port in a state, with instruction `i`. -/
def tTap (st i : Nat) : State := { State.reset with boot := { Boot.init with tap := st, ir := i } }

theorem meets_tck (h : Obligations.PowerBootAndTap) :
    (∃ t, exec (.tck true true true) (tTap 0 1) = .next t) ∧ (∃ t, exec (.tck true true true) (tTap 14 1) = .next t) ∧ (∃ t, exec (.tck true true true) (tTap 5 2) = .next t)
    ∧ ∃ t, exec (.tck false true true) (tTap 0 1) = .next t :=
  ⟨⟨_, (h.2 true true (tTap 0 1) _ Boot.init rfl).2.1 (by decide)⟩, ⟨_, (h.2 true true (tTap 12 1) _ Boot.init rfl).2.2.1 (by decide)⟩,
    ⟨_, (h.2 true true (tTap 5 2) _ Boot.init rfl).2.2.2.1 (by decide) (by decide) (by decide)⟩,
    ⟨_, (h.2 false true (tTap 0 1) _ _ rfl).2.2.2.2 (by decide) (by decide) (by decide) rfl⟩⟩

/-! ### HostAccessesAct -/

theorem meets_bar2 (h : Obligations.HostAccessesAct) : (∃ t, exec (.bar2Read 0 4088 8) tBar = .next t) ∧ ∃ t, exec (.bar2Write 0 4095 [7, 8]) tBar = .next t :=
  ⟨⟨_, ((h 0 4088 8 0 0 0 0 [] true true true _ tBar (by decide)).1 (by decide)).1 (by decide) (by decide) rfl (by decide) (by decide) (by decide)⟩,
    ⟨_, ((h 0 4095 8 0 0 0 0 [7, 8] true true true _ tBar (by decide)).1 (by decide)).2.1 (by decide) (by decide) rfl (by decide) (by decide)⟩⟩

theorem meets_registerWrite (h : Obligations.HostAccessesAct) :
    (∃ t, exec (.registerWrite 0 A.DIR_CFG 8 5) tBar = .next t) ∧ (∃ t, exec (.registerWrite 0 (A.DIR_CFG + 4) 4 5) tBar = .next t) ∧ ∃ t, exec (.msixUnmask 0 2047) tBar = .next t :=
  ⟨⟨_, ((h 0 0 0 0 5 A.DIR_CFG A.DIR_CFG [] true true true 0 tBar (by decide)).1 (by decide)).2.2.2.1 (by decide) (by decide) (by decide)⟩,
    ⟨_, ((h 0 0 0 0 5 (A.DIR_CFG + 4) A.DIR_CFG [] true true true 0 tBar (by decide)).1 (by decide)).2.2.2.2 (by decide) (by decide) (by decide)⟩,
    ⟨_, ((h 0 0 0 2047 0 0 0 [] true true true 0 tBar (by decide)).1 (by decide)).2.2.1 (by decide) _ rfl _ rfl⟩⟩

theorem meets_msixHoldoffExpiry (h : Obligations.HostAccessesAct) :
    ∃ t, exec (.msixHoldoffExpiry 0 3) ({ State.reset with ticks := 9, msix := [(3, { MsixVec.init with causes := 1 })] }.setFld (A.MSIX_MOD 0 3) 31 16 9) = .next t :=
  ⟨_, (h 0 0 0 3 0 0 0 [] true true true 0 ({ State.reset with ticks := 9, msix := [(3, { MsixVec.init with causes := 1 })] }.setFld (A.MSIX_MOD 0 3) 31 16 9) (by decide)).2.1
    (by decide) (by decide) (by decide +kernel) (by decide +kernel)⟩

theorem meets_pcieConfigAccess (h : Obligations.HostAccessesAct) :
    (∃ t, exec (.pcieConfigAccess 1 .identity) (tUpLink id) = .next t) ∧ (∃ t, exec (.pcieConfigAccess 0 (.bar2Size false 30)) (tUpLink id) = .next t)
    ∧ (∃ t, exec (.pcieConfigAccess 0 (.bar2Size true 36)) (tUpLink id) = .next t) ∧ (∃ t, exec (.pcieConfigAccess 0 (.maxPayload 512)) (tUpLink id) = .next t)
    ∧ (∃ t, exec (.pcieConfigAccess 0 (.completionTimeout 50)) (tUpLink id) = .next t) ∧ ∃ t, exec (.pcieConfigAccess 0 (.vfEnable 511)) { tUpLink id with vfEnable := false } = .next t :=
  have g (n : Nat) := (h 1 0 n 0 0 0 0 [] true true true 0 (tUpLink id) (by decide)).2.2 (by decide) (by decide)
  ⟨⟨_, (g 0).1⟩, ⟨_, (g 30).2.2.2.1 (by decide) (by decide)⟩, ⟨_, (g 36).2.2.2.2.1 (by decide) (by decide)⟩, ⟨_, (g 512).2.2.2.2.2.1 (by decide)⟩,
    ⟨_, (g 50).2.2.2.2.2.2.1 (by decide) (by decide)⟩,
    ⟨_, ((h 0 0 511 0 0 0 0 [] true true true 0 { tUpLink id with vfEnable := false } (by decide)).2.2 (by decide) (by decide)).2.2.2.2.2.2.2 (by decide) (by decide)⟩⟩

/-! ### The statements about the whole machine and about shared operations -/

theorem tReset_inv : State.reset.Inv := by refine ⟨rfl, rfl, ?_, ?_, ?_, ?_, rfl, rfl⟩ <;> decide

theorem meets_InvariantKept (h : Obligations.InvariantKept) : ∃ t, step { tBar with pending := [.maxclr] } = .next t ∧ t.Inv :=
  ⟨_, rfl, h { tBar with pending := [.maxclr] } _ (by refine ⟨rfl, rfl, ?_, ?_, ?_, ?_, rfl, rfl⟩ <;> decide) rfl⟩

theorem meets_OneCommandLeaves (h : Obligations.OneCommandLeaves) : ∃ t, step { tBar with pending := [.maxclr] } = .next t ∧ t.pending = [] :=
  ⟨_, rfl, h { tBar with pending := [.maxclr] } _ rfl⟩

theorem meets_StoringNothing (h : Obligations.StoringNothing) : ∃ t, exec .maxclr tBar = .next t ∧ ∀ a, t.byte a = tBar.byte a := ⟨_, rfl, (h .maxclr tBar _ rfl rfl).1⟩

theorem meets_ConfigurationStays (h : Obligations.ConfigurationStays) : ∃ t, exec .maxclr tBar = .next t ∧ t.beat = tBar.beat := ⟨_, rfl, (h .maxclr tBar _ rfl rfl).1⟩

theorem meets_WritesStoreExactly (h : Obligations.WritesStoreExactly) : (State.reset.plainWrite 2047 [7, 8]).byte 2048 = 8 ∧ (State.reset.plainWrite 2047 [7, 8]).sealState 2048 = .valid :=
  ⟨(h 2047 2048 [7, 8] _ tReset_inv).1, ((h 2047 2048 [7, 8] _ tReset_inv).2.2 (by decide)).1⟩

theorem tBar_inv : tBar.Inv := by refine ⟨rfl, rfl, ?_, ?_, ?_, ?_, rfl, rfl⟩ <;> decide

theorem meets_HostWriteStoresExactly (h : Obligations.HostWriteStoresExactly) : ∃ t, exec (.bar2Write 0 4095 [7, 8]) tBar = .next t ∧ ∀ x, t.byte x
      = if tBar.bar2Addr 0 4095 ≤ x ∧ x < tBar.bar2Addr 0 4095 + [7#8, 8#8].length then [7#8, 8#8].getD (x - tBar.bar2Addr 0 4095) 0 else tBar.byte x :=
  (h 0 4095 (tBar.bar2Addr 0 4095) [7#8, 8#8] tBar tBar_inv (by decide) (by decide) (by decide) (by decide) rfl).elim (fun t e => ⟨t, e.1, e.2.1 (by decide) (by decide)⟩)

theorem meets_HostWriteStoresExactly_refused (h : Obligations.HostWriteStoresExactly) : ∃ t, exec (.bar2Write 0 (2 ^ 36 - 1) [7]) (tBar.setReg (A.BAR2_WIN 0) (0xC * 2 ^ 36)) = .next t
    ∧ ∀ x, t.byte x = (tBar.setReg (A.BAR2_WIN 0) (0xC * 2 ^ 36)).byte x :=
  (h 0 (2 ^ 36 - 1) _ [7] (tBar.setReg (A.BAR2_WIN 0) (0xC * 2 ^ 36)) (by refine ⟨rfl, rfl, ?_, ?_, ?_, ?_, rfl, rfl⟩ <;> decide) (by decide) (by decide) (by decide) (by decide) rfl).elim
    (fun t e => ⟨t, e.1, e.2.2 (by decide)⟩)

theorem meets_EndingCommands (h : Obligations.EndingCommands) :
    ((tRun []).endFlight 0 0 9 7).flight? 0 0 = some { tFly [] with ended := true, status := 9, detail := 7 } :=
  ((h 0 0 9 7 (tRun []) _).1 rfl).1 (tFly []) (by decide) (by decide)

theorem meets_SealStates (h : Obligations.SealStates) : (State.reset.plainWrite 4095 [1, 2]).sealState 2048 = .valid :=
  (h State.reset 2048).2.2.2.2 4095 [1, 2] tReset_inv (by decide) (by decide) (by decide) (by decide)

/-- A job that has found nothing yet. -/
def tJob (s : State) : JobSt := { st := s, fail := none, seen := [], wrote := [] }

theorem meets_SealStates_check (h : Obligations.SealStates) : ((tJob State.reset).checkBlock 0 0 0 true 5).fail = none ↔ State.reset.sealState 0 = .valid :=
  (h State.reset 0).2.2.2.1 0 0 0 5 5 (tJob State.reset) rfl rfl (by decide) rfl (by decide) (by decide)

theorem meets_SemaphoreRule (h : Obligations.SemaphoreRule) : (State.reset.addSem 5 (2 ^ 64 + 3)).sem 5 = (State.reset.sem 5 + (2 ^ 64 + 3)) % 2 ^ 64 :=
  ((h 5 6 (2 ^ 64 + 3) _ tReset_inv).2.2.1 (by decide)).2

theorem meets_ErrorsContained (h : Obligations.ErrorsContained) : (State.reset.containFatal 1).fatal = true := (h 0 1 State.reset State.reset).2.2.2 tReset_inv

/-- Vector 3 of the PF enabled, with message moderation after two causes. -/
def tVector (en : Bool) (n : Nat) : State :=
  ({ State.reset with pcie := [(0, { FnPcie.init with busMaster := true, msixEnable := en })], msix := [(3, { MsixVec.init with masked := false })] }.setFld (A.MSIX_MOD 0 3) 15 0 n)

theorem meets_InterruptsModerated (h : Obligations.InterruptsModerated) :
    ((tVector true 1).raiseVector 0 3).outbox = [.msix 0 3 0 0] ∧ ((tVector true 2).raiseVector 0 3).outbox = [] ∧ ((tVector false 1).raiseVector 0 3).outbox = [] :=
  ⟨((h 0 3 _ (tVector true 1) (by decide) (by decide) rfl _ rfl).1 (by decide) (by decide +kernel)).1,
    (congrArg State.outbox ((h 0 3 _ (tVector true 2) (by decide) (by decide) rfl _ rfl).2.1 (by decide) (by decide +kernel))).trans rfl,
    ((h 0 3 _ (tVector false 1) (by decide) (by decide) rfl _ rfl).2.2 (by decide)).1⟩

theorem meets_CountersCount (h : Obligations.CountersCount) : (State.reset.count A.QMG_AGE_PROMO 5).reg A.QMG_AGE_PROMO % 2 ^ 48 = (State.reset.reg A.QMG_AGE_PROMO + 5) % 2 ^ 48 :=
  (h A.QMG_AGE_PROMO 5 0 State.reset tReset_inv (by decide) (by decide)).1

/-- Queue 0 in a state, four commands long, one of them fetched. -/
def tDoor (st : Nat) : State := { tBar with queues := [(0, { Queue.init with state := st, log2size := 2, head := 1, tail := 1 })] }

theorem meets_DoorbellsChecked (h : Obligations.DoorbellsChecked) :
    (∃ t, exec (.doorbellWrite 0 0 8 4 0) (tDoor 1) = .next t) ∧ (∃ t, exec (.doorbellWrite 0 0 8 0 0) (tDoor 2) = .next t) ∧ ∃ t, exec (.doorbellWrite 0 0 8 4 0) (tDoor 4) = .next t :=
  ⟨⟨_, ((h 0 0 4 0 _ (tDoor 1) (by decide) (by decide) (by decide) (by decide) rfl (by decide)).2.1 (by decide)).1 (by decide)⟩,
    ⟨_, ((h 0 0 0 0 _ (tDoor 2) (by decide) (by decide) (by decide) (by decide) rfl (by decide)).2.1 (by decide)).2 (by decide) _ rfl⟩,
    ⟨_, (h 0 0 4 0 _ (tDoor 4) (by decide) (by decide) (by decide) (by decide) rfl (by decide)).2.2 (by decide)⟩⟩

/-! ### Values that the spec works out -/

/-- The example of R622: VDD_CD2 to 0.725 V with SEQ 5. -/
theorem test_railFrame : crc8 0xA12445 = 0x05 ∧ railFrame 2 725 5 = 0xA1244505 := by decide

/-- The examples of R22 and R458: slot 5 of cluster 18 served by the spare, and the map word after slot 12 is retired. -/
theorem test_unitMap :
    mapAfter 0 12 = 0x00CC1000 ∧ mapAfter 0 5 / 2 ^ 19 * 2 ^ 19 + 0x20 = 0x00580020 ∧ ({ State.reset with faults := { State.reset.faults with unitMap := [(18, 0x00580020)] } } : State).slotOf 293 = 16
    ∧ ({ State.reset with faults := { State.reset.faults with unitMap := [(18, 0x00580020)] } } : State).slotOf 300 = 12
    ∧ ({ State.reset with faults := { State.reset.faults with unitMap := [(18, 0x00580020)] } } : State).unavailable 293 = false := by decide

/-- The example of R203: the position of lane 0 of core 293 on the spare. -/
theorem test_lanePosition : ({ State.reset with faults := { State.reset.faults with unitMap := [(18, 0x00580020)] } } : State).posBase 293 = 20608 ∧ State.reset.posBase 293 = 19904 := by decide

/-- The identifiers of the worked example of chapter 18, and whom the request is from. -/
theorem test_canIds :
    canId 1 0 5 0x40 3 = 0x040B00C0 ∧ canId 1 1 0x40 5 3 = 0x058014C0 ∧ ({ State.reset with boot := { Boot.init with nodeId := 5 } } : State).canFor 0x040B00C0 = some (0x40, 3) := by decide

/-- The example of R186: 40 zero codes, and 24 with exponent fields from 5 to 8. -/
theorem test_groupRecord :
    (groupRecord ([0x31, 0x28] ++ List.replicate 22 0x40 ++ List.replicate 40 0)).take 2 = [0x97, 0x52]
    ∧ (groupRecord ([0x31, 0x28] ++ List.replicate 22 0x40 ++ List.replicate 40 0)).length = 28
    ∧ byteAt (groupRecord ([0x31, 0x28] ++ List.replicate 22 0x40 ++ List.replicate 40 0)) 10 % 64 = 0b001001 := by decide +kernel

/-- The worked example of the outliers of one block (R115). -/
theorem test_sideRecord : sideRecord [(17, 0x51), (90, 0xCF)] = 0x0000CF510002D112 := by decide

/-- The worked example of one block over three steps (R125). -/
theorem test_nextScale : nextScale 1 0x80 0x7F true = 0x80 ∧ nextScale 1 0x7E 0x80 false = 0x7F ∧ nextScale 1 0x7E 0x7F false = 0x7E := by decide

/-- The example of R50: 2.7 to F4 with two random numbers. -/
theorem test_stochasticRounding : quantElem 0 [] (.sr 0x5000) 0x402CCCCD 0x3F800000 = (5, false) ∧ quantElem 0 [] (.sr 0x4000) 0x402CCCCD 0x3F800000 = (4, false) := by decide +kernel

/-- The example of R31: codebook entries. -/
theorem test_codebook : elemVal 2 [0x9C, 0x7F, 0x80] 0 = .fin (-100) (-4) ∧ elemVal 2 [0x9C, 0x7F, 0x80] 1 = .fin 127 (-4) ∧ elemVal 2 [0x9C, 0x7F, 0x80] 2 = .fin (-128) (-4) := by decide

/-- The example of R391: 2^24 + 1 + 1 in the canonical tree. -/
theorem test_canonicalTree : ptree fadd [some 0x4B800000, some 0x3F800000, some 0x3F800000] = some 0x4B800000 := by decide +kernel

/-- The example of R497: a cap of 2,100 W, 780 W beside the dies, 0.70 V; and 25 W more. -/
theorem test_newCeil :
    ((State.reset.setCap 2100).setFld (A.PMC_DIE 0) 47 32 700).newCeil 0 7800000 = 4714
    ∧ ((State.reset.setCap 2125).setFld (A.PMC_DIE 0) 47 32 700).newCeil 0 7800000 = 4803 := by decide +kernel

/-- The example of R266 and R284: pseudo-channel 615 lies on CD3, and its lines have slice 55 for a home. -/
theorem test_home : pcDie 615 = 3 ∧ 16 * pcDie 615 + 615 % 16 = 55 := by decide

/-! ### WellFormed.lean: a term that each check accepts and one that it refuses -/

theorem test_wf_queues :
    Instr.wf (.nop 262143 (2 ^ 32 - 1)) = true ∧ Instr.wf (.nop 262144 0) = false ∧ Instr.wf (.nop 0 (2 ^ 32)) = false ∧ Instr.wf (.flr 511) = true ∧ Instr.wf (.flr 512) = false
    ∧ Instr.wf (.queueEnable 0 511) = true ∧ Instr.wf (.queueEnable 0 512) = false ∧ Instr.wf (.qmgSemadd 0 (2 ^ 64)) = false ∧ Instr.wf (.doorbellWrite 0 0 8 (2 ^ 32) 0) = false
    ∧ Instr.wf (.tenantEntryWrite 1 0x78 0) = true ∧ Instr.wf (.tenantEntryWrite 1 0x7C 0) = false ∧ Instr.wf (.tenantEntryWrite 1 0x80 0) = false
    ∧ Instr.wf (.assign 1 1 1) = true ∧ Instr.wf (.assign 1 4 0) = false ∧ Instr.wf (.assign 1 0 2) = false := by decide

theorem test_wf_threads :
    Instr.wf (.halt 511 15) = true ∧ Instr.wf (.halt 512 0) = false ∧ Instr.wf (.halt 0 16) = false ∧ Instr.wf (.mvPf 0 12 7 0 64) = true ∧ Instr.wf (.mvPf 0 11 0 0 64) = false
    ∧ Instr.wf (.mvPf 0 12 8 0 64) = false ∧ Instr.wf (.ld 0 0 1 0 64) = true ∧ Instr.wf (.ld 0 0 1 0 128) = false ∧ Instr.wf (.ld 0 0 1 0 3) = false ∧ Instr.wf (.ld 0 0 1 (2 ^ 64) 8) = false
    ∧ Instr.wf (.mvLd 0 12 0 0 0x400000 16) = false ∧ Instr.wf (.semaddRel 0 0 (2 ^ 20 - 1) 1 3) = true ∧ Instr.wf (.semaddRel 0 0 (2 ^ 20) 1 3) = false ∧ Instr.wf (.semaddRel 0 0 0 1 4) = false
    ∧ Instr.wf (.trace 0 0 65535) = true ∧ Instr.wf (.trace 0 0 65536) = false ∧ Instr.wf (.randU 0 0 63 0) = true ∧ Instr.wf (.randU 0 0 64 0) = false
    ∧ Instr.wf (.waitc 0 0 0 (2 ^ 32)) = false := by decide

theorem test_wf_units :
    Instr.wf (.spareReady 31) = true ∧ Instr.wf (.spareReady 32) = false ∧ Instr.wf (.critStep 3) = true ∧ Instr.wf (.critStep 4) = false ∧ Instr.wf (.retrain 35) = true ∧ Instr.wf (.retrain 36) = false
    ∧ Instr.wf (.trainingComplete 0 255) = true ∧ Instr.wf (.trainingComplete 0 256) = false ∧ Instr.wf (.laneFailure 0 8) = false ∧ Instr.wf (.rqAck 18) = true ∧ Instr.wf (.rqAck 19) = false
    ∧ Instr.wf (.stop 767) = true ∧ Instr.wf (.stop 768) = false ∧ Instr.wf (.watchdogReset 34) = true ∧ Instr.wf (.watchdogReset 35) = false ∧ Instr.wf (.odRead 3) = true ∧ Instr.wf (.odRead 4) = false
    ∧ Instr.wf (.gets 0 31) = true ∧ Instr.wf (.gets 0 32) = false ∧ Instr.wf (.gets (2 ^ 45) 0) = false ∧ Instr.wf (.bankCopyComplete 0 8) = false ∧ Instr.wf (.iftForced 0 16) = true
    ∧ Instr.wf (.iftForced 0 17) = false ∧ Instr.wf (.coreWake 0 6) = true ∧ Instr.wf (.coreWake 0 7) = false ∧ Instr.wf (.errorCheckAndScrub 0xC000000000) = false
    ∧ Instr.wf (.memoryResponse false 512 0) = false ∧ Instr.wf (.droop 256 0 0) = false := by decide

theorem test_wf_values :
    Instr.wf (.beatNowRead 999999) = true ∧ Instr.wf (.beatNowRead 1000000) = false ∧ Instr.wf (.single (2 ^ 29 - 1) [0]) = true ∧ Instr.wf (.single (2 ^ 29) [0]) = false
    ∧ Instr.wf (.single 0 []) = false ∧ Instr.wf (.mctpOdRequest true 256 0 []) = false ∧ Instr.wf (.mctpOdRequest true 0 8 []) = false ∧ Instr.wf (.counterLowRead 0 4) = true
    ∧ Instr.wf (.counterLowRead 0 2) = false ∧ Instr.wf (.registerWrite 0 4 8 0) = false ∧ Instr.wf (.registerWrite 0 0x1000000 8 0) = false ∧ Instr.wf (.msixUnmask 0 2047) = true
    ∧ Instr.wf (.msixUnmask 1 64) = false ∧ Instr.wf (.spdm 0 9) = true ∧ Instr.wf (.spdm 0 2) = false ∧ Instr.wf (.disable 0 2) = false ∧ Instr.wf (.hbmTempReading []) = false
    ∧ Instr.wf (.marginSweepComplete 0 []) = false ∧ Instr.wf (.snapGo 16) = false ∧ Instr.wf (.telEvselWrite 0 16 0) = false ∧ Instr.wf (.testMode 2) = false ∧ Instr.wf (.hubClrst (2 ^ 32)) = false
    ∧ Instr.wf (.pwrGoodRise 64 0) = false ∧ Instr.wf (.pwrGoodRise 0 4) = false ∧ Instr.wf (.bar2Read 0 0 4097) = false ∧ Instr.wf (.bar2Write 0 0 (List.replicate 513 0)) = false
    ∧ Instr.wf (.flitReceive 0 [] 0 0 []) = false ∧ Instr.wf (.hostCompletion 0 2 false []) = false := by decide +kernel

/-- A beat's measurements with these hot channels. -/
def tReading (hot : List Nat) : BeatReading := { temps := [], slacks := [], amps := [], volts := [], eyes := [], hot := hot, refreshes := [], withheld := [] }

theorem test_wf_requests :
    Instr.wf (.beatBoundary (tReading [767])) = true ∧ Instr.wf (.beatBoundary (tReading [768])) = false 
    ∧ Instr.wf (.linkpar 0 tPar) = true ∧ Instr.wf (.linkpar 0 { tPar with x := 2 }) = false ∧ Instr.wf (.linkpar 0 { tPar with wrap := 8 }) = false ∧ Instr.wf (.linkpar 0 { tPar with dir := 6 }) = false
    ∧ Instr.wf (.pcieConfigAccess 0 (.vfEnable 511)) = true ∧ Instr.wf (.pcieConfigAccess 0 (.vfEnable 512)) = false ∧ Instr.wf (.pcieConfigAccess 0 (.maxPayload 64)) = false
    ∧ Instr.wf (.pcieConfigAccess 0 (.bar2Size false 64)) = false ∧ Instr.wf (.pcieConfigAccess 0 (.completionTimeout 0)) = false ∧ Instr.wf (.start 0 (2 ^ 64)) = false
    ∧ Instr.wf (.tgDone 0 [{ bank := 0, row := 0, seg := 2 ^ 32, word := 0, diff := 0 }]) = false := by decide

end Sys2Proof.Machine
end

/-!
## The frame of the commands that do not configure the device
-/

namespace Sys2Proof.Machine

/-- Settles O49: `configures` lists every command that does not leave `State.conf` alone (`exec_conf`), and the statement reads that tuple field by field. -/
theorem configurationStays : Obligations.ConfigurationStays := by
  intro c s t hc hst
  have hconf : t.conf = s.conf := exec_conf c hc s t hst
  simpa only [State.conf, Prod.mk.injEq] using hconf

end Sys2Proof.Machine

/-!
## The reset state meets the invariant
-/

namespace Sys2Proof.Machine

/-- A map that lists nothing is in canonical form, whatever its default. -/
theorem smapWf_nil {α : Type} [DecidableEq α] (d : Nat → α) : smapWf d [] = true := rfl

/-- Settles O46: after reset the memory, the seals, the registers and the semaphores list nothing, the time base stands at 0, and no event or record waits. -/
theorem resetMeetsInvariant : Obligations.ResetMeetsInvariant := by
  have hmem : Memory.wf State.reset.mem := smapWf_nil _
  have hbeat : State.reset.beat < 2 ^ 64 := Nat.two_pow_pos 64
  have hps : State.reset.ps < 1000000 := by decide
  have hslog : State.reset.slogQ.length ≤ 256 := Nat.zero_le _
  have hring : State.reset.faults.ring.length ≤ 256 := Nat.zero_le _
  exact ⟨hmem, smapWf_nil _, hbeat, hps, hslog, hring, smapWf_nil _, smapWf_nil _⟩

end Sys2Proof.Machine

/-!
## The host's window and registers (R7, R594, R599, R602, R608): what each row of the PCIe port does once the conditions of its guards hold
-/

namespace Sys2Proof.Machine

/-! ### The rows and their guards -/

theorem exec_bar2Read (f o n : Nat) (s : State) : exec (.bar2Read f o n) s = execBar2Read f o n s := rfl

theorem exec_bar2Write (f o : Nat) (data : List Byte) (s : State) : exec (.bar2Write f o data) s = execBar2Write f o data s := rfl

theorem exec_msixUnmask (f v : Nat) (s : State) : exec (.msixUnmask f v) s = execMsixUnmask f v s := rfl

theorem exec_msixHoldoffExpiry (f v : Nat) (s : State) : exec (.msixHoldoffExpiry f v) s = execMsixHoldoffExpiry f v s := rfl

theorem exec_pcieConfigAccess (f : Nat) (op : CfgOp) (s : State) : exec (.pcieConfigAccess f op) s = execPcieConfigAccess f op s := rfl

theorem exec_registerWrite (f off n val : Nat) (s : State) : exec (.registerWrite f off n val) s = execRegisterWrite f off n val s := rfl

theorem onUnit_present {p : Bool} (hp : p = true) (t : State) : onUnit p t = .next t := if_pos hp

/-- A row of a present unit whose guard `c` does not hold leads to the state behind the guard. -/
theorem onUnit_passed {p : Bool} {c : Prop} [Decidable c] (hp : p = true) (hc : ¬ c) (s t : State) : onUnit p (if c then s else t) = .next t := by
  rw [onUnit_present hp, if_neg hc]

/-- A function reaches its BARs when they are open and it exists on PCIe. -/
theorem State.reaches_iff {s : State} {f : Nat} : s.reaches f = true ↔ s.barOpen = true ∧ s.fnPresent f = true := Bool.and_eq_true_iff

variable {f o n v off key val : Nat} {data : List Byte} {s : State}

/-! ### BAR2 (R594, R602) -/

theorem exec_bar2Read_granted (hf : f < 512) (hreach : s.reaches f = true) (hhit : s.bar2Hit f o n = true) (hn : n ≤ 4096)
    (hok : s.bar2Bad f (s.bar2Addr f o) n false = false) (hawake : s.bar2Sleeper (s.bar2Addr f o) = none) (hgood : s.badWord (s.bar2Addr f o) n = none) :
    exec (.bar2Read f o n) s = .next (((chunks (s.bar2Addr f o) n).foldl (fun t c => t.traffic c.1 c.2 false) s).send
      (.hostData f o (s.hostBytes (s.bar2Addr f o) n) false)) := by
  obtain ⟨hopen, hfn⟩ := State.reaches_iff.mp hreach
  rw [exec_bar2Read, execBar2Read, onUnit_present (decide_eq_true hf)]
  simp only [hfn, hopen, hhit, hok, hawake, hgood, Nat.not_lt.mpr hn, Bool.not_true, Bool.false_eq_true, or_self, if_false]

theorem exec_bar2Write_granted (hf : f < 512) (hreach : s.reaches f = true) (hhit : s.bar2Hit f o data.length = true) (hn : data.length ≤ 512)
    (hok : s.bar2Bad f (s.bar2Addr f o) data.length true = false) (hawake : s.bar2Sleeper (s.bar2Addr f o) = none) :
    exec (.bar2Write f o data) s = .next ((chunks (s.bar2Addr f o) data.length).foldl (fun t c =>
      ((t.purgeRange c.1 c.2).traffic c.1 c.2 true).plainWrite c.1 ((data.drop (c.1 - s.bar2Addr f o)).take c.2)) s) := by
  obtain ⟨-, hfn⟩ := State.reaches_iff.mp hreach
  rw [exec_bar2Write, execBar2Write, onUnit_present (decide_eq_true hf)]
  simp only [hfn, hhit, hok, hawake, Nat.not_lt.mpr hn, Bool.not_true, Bool.false_eq_true, or_self, if_false]

/-! ### MSI-X (R607, R608) -/

theorem exec_msixUnmask_reached (hf : f < 512) (hv : v < vectorCount f) (hreach : s.reaches f = true) {m : MsixVec} (hm : m = s.msixVec f v) {t : State}
    (ht : t = s.setMsix f v { m with masked := false }) :
    exec (.msixUnmask f v) s = .next (if m.masked && decide (m.causes ≠ 0) && t.vectorOpen f v then t.sendVector f v else t) := by
  subst hm ht
  rw [exec_msixUnmask, execMsixUnmask, onUnit_passed (by simp [hf, hv]) (by simp [hreach])]

theorem exec_msixHoldoffExpiry_due (hf : f < 512) (hv : v < vectorCount f) (hc : (s.msixVec f v).causes ≠ 0) (hh : s.fld (A.MSIX_MOD f v) 31 16 ≠ 0)
    (hdue : (s.msixVec f v).firstBeat + s.fld (A.MSIX_MOD f v) 31 16 ≤ s.ticks) :
    exec (.msixHoldoffExpiry f v) s = .next (if s.vectorOpen f v then s.sendVector f v else s.setMsix f v { (s.msixVec f v) with pend := true }) := by
  rw [exec_msixHoldoffExpiry, execMsixHoldoffExpiry, onUnit_present (by simp [hf, hv])]
  simp only [hc, hh, Nat.not_lt.mpr hdue, or_self, if_false]

/-! ### Register writes (R599) -/

theorem exec_registerWrite_whole (hf : f < 512) (hreach : s.reaches f = true) (hal : off % 8 = 0) (hdb : doorbellOf off = none) (hkey : barKey f off = some key) :
    exec (.registerWrite f off 8 val) s = .next (s.writeKey key (val % 2 ^ 64) (2 ^ 64 - 1)) := by
  have hrow : off / 8 * 8 = off := Nat.div_mul_cancel (Nat.dvd_of_mod_eq_zero hal)
  rw [exec_registerWrite, execRegisterWrite, onUnit_present (decide_eq_true hf), hrow]
  simp [hreach, hal, hdb, hkey]

theorem exec_registerWrite_half (hf : f < 512) (hreach : s.reaches f = true) (hal : off % 4 = 0) (hdb : doorbellOf off = none)
    (hkey : barKey f (off / 8 * 8) = some key) :
    exec (.registerWrite f off 4 val) s = .next (s.writeKey key (val % 2 ^ 32 * 2 ^ (off % 8 * 8)) ((2 ^ 32 - 1) * 2 ^ (off % 8 * 8))) := by
  rw [exec_registerWrite, execRegisterWrite, onUnit_present (decide_eq_true hf)]
  simp [hreach, hal, hdb, hkey]

/-! ### Configuration requests (R594 to R596, R601) -/

/-- A configuration request to a present function is served while PCIe is up. -/
theorem State.config_unrefused (hup : s.boot.pcieUp = true) (hfn : s.fnPresent f = true) : ¬ ((!s.boot.pcieUp) = true ∨ (!s.fnPresent f) = true) := by
  simp [hup, hfn]

/-- The physical function is one of the 512 functions. -/
theorem pf_inRange : decide (0 < 512) = true := rfl

/-- The physical function is always present (R596). -/
theorem State.fnPresent_zero : s.fnPresent 0 = true := rfl

theorem exec_pcieConfigAccess_identity (hf : f < 512) (hup : s.boot.pcieUp = true) (hfn : s.fnPresent f = true) :
    exec (.pcieConfigAccess f .identity) s = .next (s.send (.hostData f 0 (identityBytes f) false)) := by
  rw [exec_pcieConfigAccess, execPcieConfigAccess, onUnit_passed (decide_eq_true hf) (State.config_unrefused hup hfn)]

theorem exec_pcieConfigAccess_busMaster (hf : f < 512) (hup : s.boot.pcieUp = true) (hfn : s.fnPresent f = true) (on : Bool) :
    exec (.pcieConfigAccess f (.busMaster on)) s = .next ((s.setPcie f { (s.fnPcie f) with busMaster := on }).flushVectors f) := by
  rw [exec_pcieConfigAccess, execPcieConfigAccess, onUnit_passed (decide_eq_true hf) (State.config_unrefused hup hfn)]

theorem exec_pcieConfigAccess_msix (hf : f < 512) (hup : s.boot.pcieUp = true) (hfn : s.fnPresent f = true) (en all : Bool) :
    exec (.pcieConfigAccess f (.msix en all)) s = .next ((s.setPcie f { (s.fnPcie f) with msixEnable := en, msixMaskAll := all }).flushVectors f) := by
  rw [exec_pcieConfigAccess, execPcieConfigAccess, onUnit_passed (decide_eq_true hf) (State.config_unrefused hup hfn)]

theorem exec_pcieConfigAccess_bar2Size_pf (hup : s.boot.pcieUp = true) (hlo : 30 ≤ n) (hhi : n ≤ 41) :
    exec (.pcieConfigAccess 0 (.bar2Size false n)) s = .next (s.setPcie 0 { (s.fnPcie 0) with bar2Log := n }) := by
  rw [exec_pcieConfigAccess, execPcieConfigAccess, onUnit_passed pf_inRange (State.config_unrefused hup State.fnPresent_zero)]
  simp [hlo, hhi]

theorem exec_pcieConfigAccess_bar2Size_vf (hup : s.boot.pcieUp = true) (hlo : 21 ≤ n) (hhi : n ≤ 36) :
    exec (.pcieConfigAccess 0 (.bar2Size true n)) s = .next (s.setPcie 0 { (s.fnPcie 0) with vfBar2Log := n }) := by
  rw [exec_pcieConfigAccess, execPcieConfigAccess, onUnit_passed pf_inRange (State.config_unrefused hup State.fnPresent_zero)]
  simp [hlo, hhi]

theorem exec_pcieConfigAccess_maxPayload (hup : s.boot.pcieUp = true) (hn : n = 128 ∨ n = 256 ∨ n = 512) :
    exec (.pcieConfigAccess 0 (.maxPayload n)) s = .next (s.setPcie 0 { (s.fnPcie 0) with maxPayload := n }) := by
  rw [exec_pcieConfigAccess, execPcieConfigAccess, onUnit_passed pf_inRange (State.config_unrefused hup State.fnPresent_zero)]
  simp [hn]

theorem exec_pcieConfigAccess_completionTimeout (hup : s.boot.pcieUp = true) (hlo : 50 ≤ n) (hhi : n ≤ 64000000) :
    exec (.pcieConfigAccess 0 (.completionTimeout n)) s = .next (s.setPcie 0 { (s.fnPcie 0) with cplTimeout := n }) := by
  rw [exec_pcieConfigAccess, execPcieConfigAccess, onUnit_passed pf_inRange (State.config_unrefused hup State.fnPresent_zero)]
  simp [hlo, hhi]

theorem exec_pcieConfigAccess_vfEnable (hup : s.boot.pcieUp = true) (hoff : s.vfEnable = false) (hn : n ≤ 511) :
    exec (.pcieConfigAccess 0 (.vfEnable n)) s = .next { s with vfEnable := true, numVfs := n } := by
  rw [exec_pcieConfigAccess, execPcieConfigAccess, onUnit_passed pf_inRange (State.config_unrefused hup State.fnPresent_zero)]
  simp [hoff, hn]

/-- Settles O44, row by row: under the hypotheses of each clause the guards of its row let the access through. -/
theorem hostAccessesAct : Obligations.HostAccessesAct := by
  intro f o n v val off key data on en all a s hf
  refine ⟨fun hreach => ⟨?read, ?write, ?unmask, ?whole, ?half⟩, exec_msixHoldoffExpiry_due hf, fun hup hfn => ?config⟩
  case read =>
    rintro hhit hn rfl hok hawake hgood
    exact exec_bar2Read_granted hf hreach hhit hn hok hawake hgood
  case write =>
    rintro hhit hn rfl hok hawake
    exact exec_bar2Write_granted hf hreach hhit hn hok hawake
  case unmask => exact fun hv m hm t ht => exec_msixUnmask_reached hf hv hreach hm ht
  case whole => exact exec_registerWrite_whole hf hreach
  case half => exact exec_registerWrite_half hf hreach
  case config =>
    exact ⟨exec_pcieConfigAccess_identity hf hup hfn, exec_pcieConfigAccess_busMaster hf hup hfn on, exec_pcieConfigAccess_msix hf hup hfn en all,
      exec_pcieConfigAccess_bar2Size_pf hup, exec_pcieConfigAccess_bar2Size_vf hup, exec_pcieConfigAccess_maxPayload hup,
      exec_pcieConfigAccess_completionTimeout hup, exec_pcieConfigAccess_vfEnable hup⟩

end Sys2Proof.Machine

/-!
## Field tests, spares and hangs (R23, R455 to R459): what each row does once the conditions of its guards hold
-/

namespace Sys2Proof.Machine

/-! ### The rows -/

theorem exec_iftStart (s : State) : exec .iftStart s = execIftStart s := rfl

theorem exec_iftForced (k slot : Nat) (s : State) : exec (.iftForced k slot) s = execIftForced k slot s := rfl

theorem exec_iftComplete (pass : Bool) (chain : Nat) (s : State) : exec (.iftComplete pass chain) s = execIftComplete pass chain s := rfl

theorem exec_spareReady (k : Nat) (s : State) : exec (.spareReady k) s = execSpareReady k s := rfl

theorem exec_coreHang (c : Nat) (s : State) : exec (.coreHang c) s = execCoreHang c s := rfl

variable {n k slot chain c core : Nat} {t : FieldTest} {fl : Flight} {s : State}

/-! ### Tests that start (R456, R457) -/

theorem exec_iftStart_due (hgo : s.testsWait = false) (hnone : s.faults.test = none) (hwait : s.faults.waiting = []) (hdue : s.firstDue = some n) :
    exec .iftStart s = .next (s.testStart { cluster := n / 17, slot := n % 17, cmd := none, forced := false }) := by
  rw [exec_iftStart, execIftStart, if_neg (by simp [hgo, hnone, hwait]), hdue]

theorem exec_iftForced_alone (hk : k < 32) (hslot : slot < 17) (hgood : s.slotRetired k slot = false) (hdue : (s.slotData (slotKey k slot)).due ≤ s.beat)
    (hnone : s.faults.test = none) (hwait : s.faults.waiting = []) {x : FieldTest} (hx : x = { cluster := k, slot := slot, cmd := none, forced := true }) :
    exec (.iftForced k slot) s = .next (((({ s with faults := { s.faults with waiting := s.insertForced x [] } } : State).count (A.IFT 0x20)).showOverdue).forceNext) := by
  subst hx
  rw [exec_iftForced, execIftForced, onUnit_passed (by simp [hk, hslot]) (by simp [hgood, hdue, hnone, hwait]), hwait]

/-! ### Tests that end (R458) -/

theorem b2n_false : b2n false = 0 := rfl

theorem b2n_true : b2n true = 1 := rfl

/-- No test is in progress any more, one more is counted, and core `core` is let go, idle since now with no tile and an empty prefetch buffer. -/
def State.leaveTest (s : State) (core : Nat) : State :=
  ((({ s with faults := { s.faults with test := none } } : State).setReg A.IFT_STATUS (s.fld A.IFT_STATUS 9 0)).count (A.IFT 0x10)).modCore core
    (fun x => { x with testHold := false, tile := none, pfBuf := [], idleSince := s.ticks })

section
variable (ht : s.faults.test = some t) (hover : s.testOver = true) (hcore : s.coreOfSlot t.cluster t.slot = some core) (hawake : s.awake core = true) (hcmd : t.cmd = none)
include ht hover hcore hawake hcmd

/-- A test that no command asked for passes: its slot's next deadline runs from this beat. -/
theorem exec_iftComplete_pass :
    exec (.iftComplete true chain) s = .next ((((s.leaveTest core).modSlot t.cluster t.slot (fun d => { d with testsRun := d.testsRun + 1, testsFailed := d.testsFailed })).modSlot
      t.cluster t.slot (fun d => { d with lastPass := s.beat, due := s.beat + s.iftDeadline })).forceNext) := by
  rw [exec_iftComplete, execIftComplete]
  simp only [ht, hover, hcore, hawake, hcmd, Bool.not_true, b2n_false, Nat.add_zero, Bool.or_self, Bool.false_eq_true, if_false, if_true, State.leaveTest]

/-- A test that no command asked for fails: the failure is counted and recorded, a new image is no longer healthy, and the slot is retired. -/
theorem exec_iftComplete_fail {v w : State}
    (hv : v = (((s.leaveTest core).modSlot t.cluster t.slot (fun d => { d with testsRun := d.testsRun + 1, testsFailed := d.testsFailed + 1 })).count (A.IFT 0x18)).record
      { cls := 1, cause := 6, unitKind := 1, slot := t.slot, unit := core, detail := chain })
    (hw : w = { v with fw := { v.fw with healthy := v.fw.healthy && v.fw.trialSince == 0 } }) :
    exec (.iftComplete false chain) s = .next ((w.retireSlot t.cluster t.slot (s.reg A.ERR_WR)).forceNext) := by
  subst hv hw
  rw [exec_iftComplete, execIftComplete]
  simp only [ht, hover, hcore, hawake, hcmd, Bool.not_true, Bool.not_false, b2n_true, Bool.or_self, Bool.false_eq_true, if_false, Option.getD_some, State.leaveTest]

end

/-! ### Spares and hangs (R23, R459) -/

theorem exec_spareReady_awake (hk : k < 32) (hc : c = 16 * k + bitsOf (s.mapWord k) 23 20) (hspare : s.faults.spareWaking.contains k = true)
    (hstate : s.cstate c = 0) (hwoken : s.waking c = false) :
    exec (.spareReady k) s = .next ((({ s with faults := { s.faults with spareWaking := s.faults.spareWaking.filter (fun x => x != k) } } : State).closeRecords
      (fun r => r.cause == 6 && r.unit == c)).refreshHeads) := by
  subst hc
  rw [exec_spareReady, execSpareReady, onUnit_passed (decide_eq_true hk) (by simp only [hspare, hstate, hwoken]; decide)]

/-- A hang that no injection made. It is told from the slot's last one before the slot's data take the new. -/
theorem exec_coreHang_found (hc : c < Config.cores) (hreal : s.faults.armed.find? (fun a => a.kind == 6 && a.core == c) = none) (hup : s.isAbsent (3 + c / 16) = false)
    (hfl : (s.flights.filter (fun f => f.core == c && f.inCore && !f.ended && f.powered && decide (f.grantTick + s.hangBeats ≤ s.ticks))).head? = some fl)
    {last : Nat} (hk : k = c / 16) (hslot : slot = s.slotOf c) (hlast : last = (s.slotData (slotKey k slot)).lastHang) {v w y : State}
    (hv : v = (({ s with faults := { s.faults with armed := s.faults.armed.filter (fun a => !(a.kind == 6 && a.core == c)) } } : State).endFlights
      (fun f => f.core == c && f.inCore) 3 (s.reg A.ERR_WR)).record
      { cls := 1, cause := 7, unitKind := 1, slot := slot, unit := c, fn := fl.fn, queue := fl.queue, index := fl.index })
    (hw : w = ((v.modCore c (fun x => { x with tile := none })).count (A.IFT 0x30)).modSlot k slot (fun d => { d with hangs := d.hangs + 1, lastHang := s.ticks + 1 }))
    (hy : y = w.bringDue k slot) :
    exec (.coreHang c) s = .next (if last ≠ 0 ∧ s.ticks + 1 ≤ last + 3600000 then y.retireSlot k slot (s.reg A.ERR_WR) else y) := by
  subst hk hslot hlast hv hw hy
  rw [exec_coreHang, execCoreHang, onUnit_present (decide_eq_true hc)]
  simp only [hreal, hfl, hup, Option.isSome_none, Bool.not_false, Bool.true_and, Bool.and_eq_true, decide_eq_true_eq, Bool.false_eq_true, if_false]

/-- Settles O41, row by row: under the hypotheses of each clause the guards of its row let the event through, and the row does what the clause says. -/
theorem fieldTestsRun : Obligations.FieldTestsRun := by
  intro n k slot chain c core t x fl s u
  refine ⟨exec_iftStart_due, ?forced, ?complete, exec_spareReady_awake, ?hang⟩
  case forced =>
    rintro hk hslot hgood hdue hnone hwait hx rfl
    exact exec_iftForced_alone hk hslot hgood hdue hnone hwait hx
  case complete =>
    rintro ht hover hcore hawake hcmd rfl
    exact ⟨exec_iftComplete_pass ht hover hcore hawake hcmd, fun v w => exec_iftComplete_fail ht hover hcore hawake hcmd⟩
  case hang =>
    intro hc hreal hup hfl k slot last hk hslot hlast v w y hv hw hy
    exact exec_coreHang_found hc hreal hup hfl hk hslot hlast hv hw hy

end Sys2Proof.Machine

/-!
## Integer codes and UE8M0 scales (R30, R35, R39)
-/

namespace Sys2Proof.Machine

/-- A word that fits in `w` bits is read as it stands below half the range, and `2 ^ w` lower from there on. -/
theorem sext_of_lt {w c : Nat} (hc : c < 2 ^ w) : sext w c = if c < 2 ^ (w - 1) then (c : Int) else (c : Int) - (2 ^ w : Nat) := by
  simp only [sext, Nat.mod_eq_of_lt hc]

theorem elemVal_i4 (book : List Byte) (c : Nat) : elemVal 1 book c = .fin (sext 4 c) 0 := rfl

theorem elemVal_i8 (book : List Byte) (c : Nat) : elemVal 6 book c = .fin (sext 8 c) 0 := rfl

theorem ue8m0_nan : ue8m0 255 = .nan := rfl

theorem ue8m0_of_ne_nan {e : Nat} (he : e ≠ 255) : ue8m0 e = .fin 1 ((e : Int) - 127) := if_neg he

/-- Settles O55: the integer formats read their code in two's complement (`sext_of_lt`); a scale is NaN at 255 and has mantissa 1 everywhere else, so none
is a zero. -/
theorem codesAndScales : Obligations.CodesAndScales := by
  refine ⟨fun c book hc => ?i4, fun c book hc => ?i8, fun e he => ue8m0_of_ne_nan (Nat.ne_of_lt he), ue8m0_nan, fun e x n => ?nonzero⟩
  case i4 => exact (elemVal_i4 book c).trans (congrArg (XVal.fin · 0) (sext_of_lt hc))
  case i8 => exact (elemVal_i8 book c).trans (congrArg (XVal.fin · 0) (sext_of_lt hc))
  case nonzero =>
    by_cases he : e = 255
    · subst he
      simp only [ue8m0_nan, ne_eq, reduceCtorEq, not_false_eq_true, and_self]
    · simp only [ue8m0_of_ne_nan he, ne_eq, XVal.fin.injEq, Int.reduceEq, false_and, reduceCtorEq, not_false_eq_true, and_self]

end Sys2Proof.Machine

/-!
## Every step keeps the invariant
-/

namespace Sys2Proof.Machine

variable {s : State} {c : Instr} {rest : List Instr}

theorem step_idle (h : s.pending = []) : step s = .next s := by
  rw [step, h]

theorem step_front (h : s.pending = c :: rest) : step s = exec c { s with pending := rest } := by
  rw [step, h]

/-- The invariant says nothing of the commands that wait. -/
theorem inv_withPending (l : List Instr) : ({ s with pending := l } : State).Inv ↔ s.Inv := Iff.rfl

/-- A command run on its own keeps the invariant: the part of `exec_keeps` that speaks of it. -/
theorem exec_inv {t : State} (c : Instr) (hs : s.Inv) (ht : exec c s = .next t) : t.Inv :=
  (exec_keeps c (Keeps.refl s) t ht).inv hs

/-- Settles O45: an idle step is no change; any other runs the command in front of the queue, and no command breaks the invariant (`exec_inv`). -/
theorem invariantKept : Obligations.InvariantKept := by
  intro s t hs ht
  cases hq : s.pending with
  | nil =>
    rw [step_idle hq] at ht
    cases ht
    exact hs
  | cons c rest =>
    rw [step_front hq] at ht
    exact exec_inv c ((inv_withPending rest).mpr hs) ht

end Sys2Proof.Machine

/-!
## Tile commands and the ramp (R72, R79, R80, R175, R176): what each row does once the conditions of its guards hold
-/

namespace Sys2Proof.Machine

theorem exec_matmul (q i : Nat) (stop : Option Nat) (s : State) : exec (.matmul q i stop) s = s.matCommand q i 0x10 stop := rfl

theorem exec_matmulAcc (q i : Nat) (stop : Option Nat) (s : State) : exec (.matmulAcc q i stop) s = s.matCommand q i 0x11 stop := rfl

theorem exec_bwdIn (q i : Nat) (stop : Option Nat) (s : State) : exec (.bwdIn q i stop) s = s.matCommand q i 0x14 stop := rfl

theorem exec_bwdW (q i : Nat) (stop : Option Nat) (s : State) : exec (.bwdW q i stop) s = s.matCommand q i 0x15 stop := rfl

theorem exec_rampHoldExpiry (c : Nat) (s : State) : exec (.rampHoldExpiry c) s = execRampHoldExpiry c s := rfl

variable {q i op c : Nat} {fl : Flight} {d : List Byte} {s : State}

/-- A tile command that its engine may work on, with a sound command and descriptor, does its work, whatever its opcode. -/
theorem matCommand_of_works (hd : s.Describes fl d) (hok : (s.matCmd fl.fn fl.bytes d).bad fl.bytes d = none) (hw : s.Works q i op fl) (stop : Option Nat) :
    s.matCommand q i op stop = .next (s.runMat q i stop fl d) :=
  withDesc_of_works hw hd _ hok _

/-- The ramp of an array whose activity is held (CUB_STATUS bit 5) goes down to idle. -/
theorem exec_rampHoldExpiry_held (hc : c < Config.cores) (hheld : s.fld (A.CUB c 8) 5 5 = 1) :
    exec (.rampHoldExpiry c) s = .next (((s.setFld (A.CUB c 8) 10 8 0).setFld (A.CUB c 8) 5 5 0).countCycles (A.CUB c 0x38)) := by
  rw [exec_rampHoldExpiry, execRampHoldExpiry, onUnit_passed (decide_eq_true hc) (by simp [hheld])]

/-- Settles O15: the four rows are one tile command at four opcodes (`matCommand_of_works`); the fifth takes down a ramp that is held. -/
theorem tileCommandsRun : Obligations.TileCommandsRun := by
  intro q i c stop fl d s
  refine ⟨fun hd hok => ⟨fun hw => ?matmul, fun hw => ?matmulAcc, fun hw => ?bwdIn, fun hw => ?bwdW⟩, exec_rampHoldExpiry_held⟩
  case matmul => rw [exec_matmul, matCommand_of_works hd hok hw]
  case matmulAcc => rw [exec_matmulAcc, matCommand_of_works hd hok hw]
  case bwdIn => rw [exec_bwdIn, matCommand_of_works hd hok hw]
  case bwdW => rw [exec_bwdW, matCommand_of_works hd hok hw]

end Sys2Proof.Machine

/-!
## Step domains (R150, R156 to R163, R170): what each row does once the conditions of its guards hold
-/

namespace Sys2Proof.Machine

/-! ### The rows -/

theorem exec_stepBegin (q i : Nat) (s : State) : exec (.stepBegin q i) s = execStepBegin q i s := rfl

theorem exec_stepCommit (q i : Nat) (s : State) : exec (.stepCommit q i) s = execStepCommit q i s := rfl

theorem exec_stepAbort (q i : Nat) (s : State) : exec (.stepAbort q i) s = execStepAbort q i s := rfl

theorem exec_normWatch (q i : Nat) (stop : Option Nat) (s : State) : exec (.normWatch q i stop) s = execNormWatch q i stop s := rfl

theorem exec_stepCommitSample (f : Nat) (s : State) : exec (.stepCommitSample f) s = execStepCommitSample f s := rfl

theorem exec_commitFlip (f : Nat) (s : State) : exec (.commitFlip f) s = execCommitFlip f s := rfl

theorem exec_commitTimeout (f : Nat) (s : State) : exec (.commitTimeout f) s = execCommitTimeout f s := rfl

theorem exec_haltClr (f : Nat) (s : State) : exec (.haltClr f) s = execHaltClr f s := rfl

variable {q i f c : Nat} {stop : Option Nat} {fl : Flight} {d : Decision} {s s1 s2 t : State}

/-! ### The commands (R150, R156, R157, R163) -/

theorem exec_stepBegin_of_works (hw : s.Works q i 0x70 fl) (hok : s.stepBeginBad fl = none) (hcore : s.isAbsent 2 = false) :
    exec (.stepBegin q i) s = .next (s.stepBegin fl) := by
  rw [exec_stepBegin, execStepBegin, dispatch_of_works hw _ hok, hcore, if_neg Bool.false_ne_true]

/-- In a domain that has no commit yet, STEP_COMMIT becomes the one that waits for its decision. -/
theorem State.stepCommit_of_none (hnone : (s.domain fl.fn).commit = none) :
    s.stepCommit fl = s.modDomain fl.fn (fun x => { x with commit := some (fl.queue, fl.index), commitLocal := bitOf (byteAt fl.bytes 40) 1 }) := by
  simp only [State.stepCommit, hnone, reduceCtorEq, Option.isSome_none, Bool.false_eq_true, if_false]

theorem exec_stepCommit_of_works (hw : s.Works q i 0x71 fl) (hok : s.stepCommitBad fl = none) (hnone : (s.domain fl.fn).commit = none) :
    exec (.stepCommit q i) s = .next (s.modDomain fl.fn (fun x => { x with
      commit := some (fl.queue, fl.index), commitLocal := bitOf (byteAt fl.bytes 40) 1 })) := by
  rw [exec_stepCommit, execStepCommit, dispatch_of_works hw _ hok, State.stepCommit_of_none hnone]

theorem exec_stepAbort_of_works (hw : s.Works q i 0x72 fl) (hok : s.stepAbortBad fl = none) (hcore : s.isAbsent 2 = false)
    (hdone : s.earlierDone fl.fn q i = true) :
    exec (.stepAbort q i) s = .next (s.abort fl.fn q i (byteAt fl.bytes 40) (s.fld (A.NWT fl.fn 0x20) 31 0) 0 false) := by
  rw [exec_stepAbort, execStepAbort, dispatch_of_works hw _ hok]
  simp only [hcore, hdone, Bool.not_true, Bool.false_eq_true, if_false]

theorem exec_normWatch_of_works (hw : s.Works q i 0x73 fl) (hok : s.normBad fl = none) : exec (.normWatch q i stop) s = .next (s.normPart q i stop fl) := by
  rw [exec_normWatch, execNormWatch, dispatch_of_works hw _ hok]

/-! ### The sample (R158, R162) -/

section
variable (hf : f < 512) (hcommit : (s.domain f).commit = some (q, i)) (hopen : s.stepState f = 1) (hdone : s.earlierDone f q i = true)
  (hfl : s.flight? q i = some fl) (hs1 : s1 = if s.genIncomplete f then s.setCause f 3 else s)
  (hs2 : s2 = if bitOf (byteAt fl.bytes 40) 0 then s1.setCause f 5 else s1) (hc : c = s2.fld (A.NWT f 0x20) 31 0)
  (ht : t = (s2.setStep f 2).modDomain f (fun d => { d with sampledCause := c, sampledBeat := s.beat, sampledTick := s.ticks }))
include hf hcommit hopen hdone hfl hs1 hs2 hc ht

/-- The sample of a commit whose earlier commands have completed: with LOCAL set the local values decide, else the domain's tree does. -/
theorem exec_stepCommitSample_due :
    exec (.stepCommitSample f) s = .next (if (s.domain f).commitLocal = true then
      t.stepDecide f { step := s.nwtStep f + 1, attempt := s.nwtAttempt f, action := t.localAction f c, causes := c, beat := s.beat + 1 }
    else t.stepReduce f) := by
  subst hs1 hs2 hc ht
  rw [exec_stepCommitSample, execStepCommitSample, onUnit_present (decide_eq_true hf), State.stepSample]
  simp only [hcommit, hopen, hdone, hfl, ne_eq, not_true_eq_false, Bool.not_true, Bool.false_eq_true, or_self, if_false]

theorem exec_stepCommitSample_local (hlocal : (s.domain f).commitLocal = true) :
    exec (.stepCommitSample f) s = .next (t.stepDecide f
      { step := s.nwtStep f + 1, attempt := s.nwtAttempt f, action := t.localAction f c, causes := c, beat := s.beat + 1 }) := by
  rw [exec_stepCommitSample_due hf hcommit hopen hdone hfl hs1 hs2 hc ht, if_pos hlocal]

theorem exec_stepCommitSample_tree (htree : (s.domain f).commitLocal = false) : exec (.stepCommitSample f) s = .next (t.stepReduce f) := by
  rw [exec_stepCommitSample_due hf hcommit hopen hdone hfl hs1 hs2 hc ht, if_neg (ne_true_of_eq_false htree)]

end

/-! ### The flip, the timeout and HALT_CLR (R160, R162, R170) -/

theorem exec_commitFlip_due (hf : f < 512) (hdec : (s.domain f).decision = some d) (hdue : d.beat ≤ s.beat) :
    exec (.commitFlip f) s = .next (s.flip f d) := by
  rw [exec_commitFlip, execCommitFlip, onUnit_present (decide_eq_true hf)]
  simp only [hdec, if_pos hdue]

theorem exec_commitTimeout_due (hf : f < 512) (hcommit : (s.domain f).commit = some (q, i)) (hstate : s.stepState f = 2)
    (hnone : (s.domain f).decision = none) (hlate : (s.domain f).sampledTick + zeroAs 100000 (s.dd f 68 4) ≤ s.ticks) :
    exec (.commitTimeout f) s = .next (((((s.setStep f 1).setFld (A.NWT f 0x10) 5 3 4).modDomain f (fun x => { x with commit := none })).stepRecord f
      (s.nwtStep f + 1) 5 0 (s.domain f).sampledCause 0 0).endFlight q i 9 (s.ticks - (s.domain f).sampledTick)) := by
  rw [exec_commitTimeout, execCommitTimeout, onUnit_present (decide_eq_true hf), State.commitTimeout]
  simp only [hcommit, hstate, hnone, Nat.not_lt.mpr hlate, ne_eq, not_true_eq_false, Option.isSome_none, Bool.false_eq_true, or_self, if_false]

theorem exec_haltClr_halted (hf : f < 512) (hbar : s.barOpen = true) (hhalted : s.stepState f = 4) : exec (.haltClr f) s = .next (s.setStep f 0) := by
  rw [exec_haltClr, execHaltClr, onUnit_present (decide_eq_true hf), if_pos ⟨hbar, hhalted⟩]

/-- Settles O20, row by row: a command its engine may work on does its work, and each decision's guards hold under the hypotheses of its clause. -/
theorem stepDomainsRun : Obligations.StepDomainsRun := by
  refine ⟨fun q i stop fl s => ?commands, fun f q i c fl d s s1 s2 t hf => ⟨?sample, ?flip, ?timeout, ?haltClr⟩⟩
  case commands => exact ⟨exec_stepBegin_of_works, exec_stepCommit_of_works, exec_stepAbort_of_works, exec_normWatch_of_works⟩
  case sample =>
    intro hcommit hopen hdone hfl hs1 hs2 hc ht
    exact ⟨exec_stepCommitSample_local hf hcommit hopen hdone hfl hs1 hs2 hc ht, exec_stepCommitSample_tree hf hcommit hopen hdone hfl hs1 hs2 hc ht⟩
  case flip => exact exec_commitFlip_due hf
  case timeout => exact exec_commitTimeout_due hf
  case haltClr => exact exec_haltClr_halted hf

end Sys2Proof.Machine

/-!
## Commands with a descriptor beside the tile's (R124, R130, R133, R181, R193, R194): what each row does, in its form that draws no random numbers, once
the conditions of its guards hold
-/

namespace Sys2Proof.Machine

/-! ### The rows -/

theorem exec_attnFwd (q i : Nat) (stop : Option Nat) (s : State) : exec (.attnFwd q i stop) s = execAttnFwd q i stop s := rfl

theorem exec_attnBwd (q i : Nat) (stop : Option Nat) (s : State) : exec (.attnBwd q i stop) s = execAttnBwd q i stop s := rfl

theorem exec_convert (q i : Nat) (stop : Option Nat) (s : State) : exec (.convert q i stop) s = s.convCommand q i 0x30 stop := rfl

theorem exec_stats (q i : Nat) (stop : Option Nat) (s : State) : exec (.stats q i stop) s = s.convCommand q i 0x31 stop := rfl

theorem exec_rotate (q i : Nat) (stop : Option Nat) (s : State) : exec (.rotate q i stop) s = s.convCommand q i 0x32 stop := rfl

theorem exec_optStep (q i : Nat) (stop : Option Nat) (s : State) : exec (.optStep q i stop) s = execOptStep q i stop s := rfl

theorem exec_codebookUpd (q i : Nat) (s : State) : exec (.codebookUpd q i) s = execCodebookUpd q i s := rfl

section
variable {q i op : Nat} {stop : Option Nat} {fl : Flight} {d : List Byte} {s : State}

/-! ### Attention (R193, R194) -/

theorem exec_attnFwd_of_works (hd : s.Describes fl d) (hok : (attnCmd fl.bytes d).bad fl.bytes d = none) (hw : s.Works q i 0x12 fl) :
    exec (.attnFwd q i stop) s = .next (s.runAttn q i stop fl d) := by
  rw [exec_attnFwd, execAttnFwd, withDesc_of_works hw hd _ hok]

theorem exec_attnBwd_of_works (hd : s.Describes fl d) (hok : (attnCmd fl.bytes d).bad fl.bytes d = none) (hw : s.Works q i 0x13 fl)
    (hquiet : (attnCmd fl.bytes d).srDs = false) : exec (.attnBwd q i stop) s = .next (s.runAttn q i stop fl d) := by
  rw [exec_attnBwd, execAttnBwd, withDesc_of_works hw hd _ hok, if_neg (ne_true_of_eq_false hquiet)]

/-! ### Conversion, statistics and rotation (R124, R133) -/

/-- A conversion command that its engine may work on, with a sound command and descriptor and no draws, does its work, whatever its opcode. -/
theorem convCommand_of_works (hd : s.Describes fl d) (hok : (s.convCmd fl.fn fl.core fl.bytes d).bad fl.bytes d = none)
    (hquiet : (s.convCmd fl.fn fl.core fl.bytes d).draws = false) (hw : s.Works q i op fl) :
    s.convCommand q i op stop = .next (s.runConv q i stop fl d) := by
  rw [State.convCommand, withDesc_of_works hw hd _ hok, if_neg (ne_true_of_eq_false hquiet)]

/-! ### The optimizer (R181) and codebooks (R130) -/

theorem exec_optStep_of_works (hd : s.Describes fl d) (hok : (optCmd fl.bytes d).bad fl.bytes d = none) (hquiet : (optCmd fl.bytes d).sr = false)
    (hw : s.Works q i 0x41 fl) : exec (.optStep q i stop) s = .next (s.runOpt q i stop fl d) := by
  rw [exec_optStep, execOptStep, withDesc_of_works hw hd _ hok, if_neg (ne_true_of_eq_false hquiet)]

/-- The checks of CODEBOOK_UPD: no mode bit beyond the two that R130 names, and a reserved byte of zero. -/
theorem firstBad_codebook {b : List Byte} (hmode : byteAt b 62 < 4) (hzero : byteAt b 63 = 0) :
    firstBad [(62, decide (byteAt b 62 < 4)), (63, byteAt b 63 == 0)] = none := by
  simp [firstBad_eq_none, hmode, hzero]

theorem exec_codebookUpd_of_works (hw : s.Works q i 0x33 fl) (hmode : byteAt fl.bytes 62 < 4) (hzero : byteAt fl.bytes 63 = 0)
    (hquiet : bitOf (byteAt fl.bytes 62) 0 = false) : exec (.codebookUpd q i) s = .next (s.runBook q i fl) := by
  rw [exec_codebookUpd, execCodebookUpd, dispatch_of_works hw _ (firstBad_codebook hmode hzero), if_neg (ne_true_of_eq_false hquiet)]

end

/-- Settles O16, row by row: a command its engine may work on, with a sound command and descriptor, does its work, and one that draws nothing does so
without asking for the generators; the three conversion rows are one command at three opcodes (`convCommand_of_works`). -/
theorem describedCommandsRun : Obligations.DescribedCommandsRun := by
  intro q i stop fl d s hd
  refine ⟨fun hok => ⟨?attnFwd, ?attnBwd⟩, fun hok hquiet => ⟨fun hw => ?convert, fun hw => ?stats, fun hw => ?rotate⟩, ?optStep, ?codebookUpd⟩
  case attnFwd => exact exec_attnFwd_of_works hd hok
  case attnBwd => exact exec_attnBwd_of_works hd hok
  case convert => rw [exec_convert, convCommand_of_works hd hok hquiet hw]
  case stats => rw [exec_stats, convCommand_of_works hd hok hquiet hw]
  case rotate => rw [exec_rotate, convCommand_of_works hd hok hquiet hw]
  case optStep => exact exec_optStep_of_works hd
  case codebookUpd => exact exec_codebookUpd_of_works

end Sys2Proof.Machine

/-!
## Data movement, compression and RNG_LOAD (R186 to R189, R204, R212, R317): what each row does once the conditions of its guards hold
-/

namespace Sys2Proof.Machine

/-! ### The rows -/

theorem exec_copy (q i : Nat) (stop : Option Nat) (s : State) : exec (.copy q i stop) s = execCopy q i stop s := rfl

theorem exec_gather (q i : Nat) (stop : Option Nat) (s : State) : exec (.gather q i stop) s = execGather q i stop s := rfl

theorem exec_scatter (q i : Nat) (stop : Option Nat) (s : State) : exec (.scatter q i stop) s = execScatter q i stop s := rfl

theorem exec_compress (q i : Nat) (stop : Option Nat) (s : State) : exec (.compress q i stop) s = execCompress q i stop s := rfl

theorem exec_decompress (q i : Nat) (stop : Option Nat) (s : State) : exec (.decompress q i stop) s = execDecompress q i stop s := rfl

theorem exec_rngLoad (q i : Nat) (s : State) : exec (.rngLoad q i) s = execRngLoad q i s := rfl

section
variable {q i : Nat} {stop : Option Nat} {fl : Flight} {s : State}

/-! ### Movements (R317) -/

/-- A movement that has nothing outstanding starts. -/
theorem State.idleMove_of_idle (hidle : fl.waiting = 0) (k : State) : s.idleMove fl k = k := if_pos hidle

theorem exec_copy_of_works (hidle : fl.waiting = 0) (hw : s.Works q i 0x50 fl) (hok : s.copyBad fl = none) :
    exec (.copy q i stop) s = .next (s.copyCommand fl stop) := by
  rw [exec_copy, execCopy, dispatch_of_works hw _ hok, State.idleMove_of_idle hidle]

theorem exec_gather_of_works (hidle : fl.waiting = 0) (hw : s.Works q i 0x51 fl) (hok : s.rowsBad 40 fl = none) :
    exec (.gather q i stop) s = .next (s.rowsCommand fl stop false) := by
  rw [exec_gather, execGather, dispatch_of_works hw _ hok, State.idleMove_of_idle hidle]

theorem exec_scatter_of_works (hidle : fl.waiting = 0) (hw : s.Works q i 0x52 fl) (hok : s.rowsBad 32 fl = none) :
    exec (.scatter q i stop) s = .next (s.rowsCommand fl stop true) := by
  rw [exec_scatter, execScatter, dispatch_of_works hw _ hok, State.idleMove_of_idle hidle]

/-! ### Compression (R186 to R189) -/

theorem exec_compress_of_works (hw : s.Works q i 0x53 fl) (hok : (compCmd fl.bytes).bad = none) :
    exec (.compress q i stop) s = .next (s.runCompress q i stop fl) := by
  rw [exec_compress, execCompress, dispatch_of_works hw _ hok]

theorem exec_decompress_of_works (hw : s.Works q i 0x54 fl) (hok : s.decompBad fl = none) :
    exec (.decompress q i stop) s = .next (s.runDecompress q i stop fl) := by
  rw [exec_decompress, execDecompress, dispatch_of_works hw _ hok]

/-! ### RNG_LOAD (R204, R212) -/

/-- In seed mode the generators are taken at once, since no other command holds them. -/
theorem exec_rngLoad_seed (hw : s.Works q i 0x82 fl) (hok : s.rngBad true fl = none) (hfree : s.rngHeldByOther fl.core q i = false)
    (hseed : byteAt fl.bytes 40 = 1) : exec (.rngLoad q i) s = .next (s.seedLanes q i fl) := by
  rw [exec_rngLoad, execRngLoad, dispatch_of_works hw _ hok, if_neg (fun hmode => hmode hseed), if_neg (ne_true_of_eq_false hfree)]

/-- From an area the generators are taken only after it is read and checked, so the row itself does not ask who holds them. -/
theorem exec_rngLoad_area (hw : s.Works q i 0x82 fl) (hok : s.rngBad true fl = none) (harea : byteAt fl.bytes 40 = 0) :
    exec (.rngLoad q i) s = .next (s.areaLanes q i fl) := by
  have hmode : byteAt fl.bytes 40 ≠ 1 := by omega
  rw [exec_rngLoad, execRngLoad, dispatch_of_works hw _ hok, if_pos hmode]

end

/-- Settles O18, row by row: a sound command its engine may work on does its work; a movement also needs nothing outstanding (`State.idleMove_of_idle`),
and the two modes of RNG_LOAD part at the byte that names them. -/
theorem movementCommandsRun : Obligations.MovementCommandsRun := by
  intro q i stop fl s
  refine ⟨fun hidle => ?movement, exec_compress_of_works, exec_decompress_of_works, fun hw hok hfree => ?rngLoad⟩
  case movement => exact ⟨exec_copy_of_works hidle, exec_gather_of_works hidle, exec_scatter_of_works hidle⟩
  case rngLoad => exact ⟨exec_rngLoad_seed hw hok hfree, exec_rngLoad_area hw hok⟩

end Sys2Proof.Machine

/-!
## Commands that draw (R205, R207, R208): with valid generators that no other command holds, each row does its work, and what ended other than OK takes its
draws back
-/

namespace Sys2Proof.Machine

theorem exec_sample (q i : Nat) (stop : Option Nat) (s : State) : exec (.sample q i stop) s = execSample q i stop s := rfl

theorem exec_rngSave (q i : Nat) (s : State) : exec (.rngSave q i) s = execRngSave q i s := rfl

section
variable {q i op : Nat} {stop : Option Nat} {fl : Flight} {d : List Byte} {s : State}

/-! ### Rows with a descriptor: attention backward (R194), conversion and rotation (R124, R133), OPT_STEP (R181) -/

theorem exec_attnBwd_of_draws (hmay : s.MayDraw q i fl) (hd : s.Describes fl d) (hw : s.Works q i 0x13 fl)
    (hok : (attnCmd fl.bytes d).bad fl.bytes d = none) (hdraws : (attnCmd fl.bytes d).srDs = true) :
    exec (.attnBwd q i stop) s = .next (s.afterDraw q i fl (s.runAttn q i stop fl d)) := by
  rw [exec_attnBwd, execAttnBwd, withDesc_of_works hw hd _ hok, if_pos hdraws, drawing_of_mayDraw hmay]

/-- A conversion command that its engine may work on, sound and drawing, whatever its opcode; `convCommand_of_works` is its quiet form. -/
theorem convCommand_of_draws (hmay : s.MayDraw q i fl) (hd : s.Describes fl d) (hok : (s.convCmd fl.fn fl.core fl.bytes d).bad fl.bytes d = none)
    (hdraws : (s.convCmd fl.fn fl.core fl.bytes d).draws = true) (hw : s.Works q i op fl) :
    s.convCommand q i op stop = .next (s.afterDraw q i fl (s.runConv q i stop fl d)) := by
  rw [State.convCommand, withDesc_of_works hw hd _ hok, if_pos hdraws, drawing_of_mayDraw hmay]

theorem exec_optStep_of_draws (hmay : s.MayDraw q i fl) (hd : s.Describes fl d) (hw : s.Works q i 0x41 fl)
    (hok : (optCmd fl.bytes d).bad fl.bytes d = none) (hdraws : (optCmd fl.bytes d).sr = true) :
    exec (.optStep q i stop) s = .next (s.afterDraw q i fl (s.runOpt q i stop fl d)) := by
  rw [exec_optStep, execOptStep, withDesc_of_works hw hd _ hok, if_pos hdraws, drawing_of_mayDraw hmay]

/-! ### Rows without one: CODEBOOK_UPD (R130), SAMPLE (R215), RNG_SAVE (R210, R211) -/

theorem exec_codebookUpd_of_draws (hmay : s.MayDraw q i fl) (hw : s.Works q i 0x33 fl) (hmode : byteAt fl.bytes 62 < 4)
    (hzero : byteAt fl.bytes 63 = 0) (hdraws : bitOf (byteAt fl.bytes 62) 0 = true) :
    exec (.codebookUpd q i) s = .next (s.afterDraw q i fl (s.runBook q i fl)) := by
  rw [exec_codebookUpd, execCodebookUpd, dispatch_of_works hw _ (firstBad_codebook hmode hzero), if_pos hdraws, drawing_of_mayDraw hmay]

theorem exec_sample_of_works (hmay : s.MayDraw q i fl) (hw : s.Works q i 0x80 fl) (hok : sampleBad fl = none) :
    exec (.sample q i stop) s = .next (s.afterDraw q i fl (s.sampleRows q i stop fl)) := by
  rw [exec_sample, execSample, dispatch_of_works hw _ hok, drawing_of_mayDraw hmay]

theorem exec_rngSave_of_works (hmay : s.MayDraw q i fl) (hw : s.Works q i 0x81 fl) (hok : s.rngBad false fl = none) :
    exec (.rngSave q i) s = .next (s.afterDraw q i fl (s.saveLanes q i fl)) := by
  rw [exec_rngSave, execRngSave, dispatch_of_works hw _ hok, drawing_of_mayDraw hmay]

end

/-- Settles O17, row by row: a sound command its engine may work on reaches `State.drawing`, and with valid generators that no other command holds that is
its work followed by the rollback of R207 (`drawing_of_mayDraw`). -/
theorem drawingCommandsRun : Obligations.DrawingCommandsRun := by
  intro q i stop fl d s hmay
  refine ⟨fun hd => ⟨?attnBwd, fun hok hdraws => ⟨fun hw => ?convert, fun hw => ?rotate⟩, ?optStep⟩, ?codebookUpd, ?sample, ?rngSave⟩
  case attnBwd => exact exec_attnBwd_of_draws hmay hd
  case convert => rw [exec_convert, convCommand_of_draws hmay hd hok hdraws hw]
  case rotate => rw [exec_rotate, convCommand_of_draws hmay hd hok hdraws hw]
  case optStep => exact exec_optStep_of_draws hmay hd
  case codebookUpd => exact exec_codebookUpd_of_draws hmay
  case sample => exact exec_sample_of_works hmay
  case rngSave => exact exec_rngSave_of_works hmay

end Sys2Proof.Machine

/-!
## The random operations of programs (R205, R214): each steps its lane once, and the Box-Muller pair twice
-/

namespace Sys2Proof.Machine

/-! ### The rows -/

theorem exec_randU32 (c t lane reg : Nat) (s : State) : exec (.randU32 c t lane reg) s = execRandU32 c t lane reg s := rfl

theorem exec_randU (c t lane reg : Nat) (s : State) : exec (.randU c t lane reg) s = execRandU c t lane reg s := rfl

theorem exec_randUo (c t lane reg : Nat) (s : State) : exec (.randUo c t lane reg) s = execRandUo c t lane reg s := rfl

theorem exec_randBern (c t lane reg p : Nat) (s : State) : exec (.randBern c t lane reg p) s = execRandBern c t lane reg p s := rfl

theorem exec_randNtab (c t lane reg : Nat) (s : State) : exec (.randNtab c t lane reg) s = execRandNtab c t lane reg s := rfl

theorem exec_randNbm (c t lane reg reg1 : Nat) (s : State) : exec (.randNbm c t lane reg reg1) s = execRandNbm c t lane reg reg1 s := rfl

/-- A random operation of a thread that may issue, in a program that draws, hands its continuation the lane's word and the state after the lane's step. -/
theorem randRow_of_draws {c t lane w : Nat} {fl : Flight} {v : VProgram} {s u : State} (hiss : s.Issues c t false fl)
    (hprog : ((s.issued c t).core c).vprog = some v) (hdraws : v.draws = true) (hlane : lane < 64) (hword : (s.issued c t).drawLane c lane = (w, u))
    (k : Nat → State → State) : randRow c t lane s k = .next (k w u) := by
  rw [randRow, threadRow_of_issues hiss]
  simp only [hprog, hword, if_pos (And.intro hdraws hlane)]

theorem b2n_decide (P : Prop) [Decidable P] : b2n (decide P) = if P then 1 else 0 := by
  simp only [b2n, decide_eq_true_eq]

/-- Settles O25: every row draws through `randRow`, whose guard the hypotheses open; the Box-Muller pair draws its second word from the state after the
first. -/
theorem threadsDraw : Obligations.ThreadsDraw := by
  intro c t lane reg reg1 p w w2 fl v s u1 u2 hiss _ hprog hdraws hlane hword hword2
  have hrow := randRow_of_draws hiss hprog hdraws hlane hword
  refine ⟨?u32, ?u, ?uo, ?bern, ?ntab, fun z hz => ?nbm⟩
  case u32 => rw [exec_randU32, execRandU32, hrow]
  case u => rw [exec_randU, execRandU, hrow]
  case uo => rw [exec_randUo, execRandUo, hrow]
  case bern => rw [exec_randBern, execRandBern, hrow, b2n_decide]
  case ntab => rw [exec_randNtab, execRandNtab, hrow]
  case nbm => rw [exec_randNbm, execRandNbm, hrow, hword2, hz]

end Sys2Proof.Machine

/-!
## Vector programs begin (R224, R317)
-/

namespace Sys2Proof.Machine

theorem exec_vprog (q i : Nat) (draws movBad : Bool) (s : State) : exec (.vprog q i draws movBad) s = execVprog q i draws movBad s := rfl

section
variable {q i : Nat} {fl : Flight} {s : State}

/-- On a core that runs no program, one that draws nothing and whose image and arguments are readable starts the threads of its mask. -/
theorem State.vprog_of_free (hfree : (s.core fl.core).vprog = none) (himg : s.refused fl.fn (fieldAt fl.bytes 32 8) 64 false = none)
    (hargs : s.refused fl.fn (fieldAt fl.bytes 40 8) 64 false = none) {ts : List Nat}
    (hts : ts = (List.range 16).filter (bitOf (fieldAt fl.bytes 48 2))) :
    s.vprog fl false = ((((s.countCycles (A.LSU fl.core 0x18)).applyPfBuf fl.core).modCore fl.core (fun x => { x with
      vprog := some { queue := fl.queue, index := fl.index, threads := ts, draws := false, fills := [], stop := none }
      lanesSaved := []
      threads := (ts.foldl (fun y t => y.setThread t { y.thread t with running := true, wait := .none }) x).threads })).programSettle fl.core) := by
  subst hts
  simp only [State.vprog, hfree, himg, hargs, Bool.false_and, Bool.false_eq_true, if_false]

end

/-- Settles O22: a sound VPROG that its core may work on reaches `State.vprog`, whose checks the hypotheses pass one after the other. -/
theorem vectorProgramsStart : Obligations.VectorProgramsStart := by
  rintro q i c fl s ts hw rfl hok hfree himg hargs hts
  rw [exec_vprog, execVprog, dispatch_of_works hw _ hok, State.vprog_of_free hfree himg hargs hts]

end Sys2Proof.Machine

/-!
## Threads move data, wait and signal (R224, R226, R227, R241 to R243, R560): what a thread that may issue does in each row
-/

namespace Sys2Proof.Machine

/-! ### The rows -/

theorem exec_ld (c t reg a n : Nat) (s : State) : exec (.ld c t reg a n) s = execLd c t reg a n s := rfl

theorem exec_st (c t : Nat) (reg : Option Nat) (value a n : Nat) (s : State) : exec (.st c t reg value a n) s = execSt c t reg value a n s := rfl

theorem exec_mvLd (c t m a spad n : Nat) (s : State) : exec (.mvLd c t m a spad n) s = execMvLd c t m a spad n s := rfl

theorem exec_mvSt (c t m a spad n : Nat) (s : State) : exec (.mvSt c t m a spad n) s = execMvSt c t m a spad n s := rfl

theorem exec_mvPf (c t m a n : Nat) (s : State) : exec (.mvPf c t m a n) s = execMvPf c t m a n s := rfl

theorem exec_mvBulk (c t m : Nat) (out : Bool) (a spad n : Nat) (s : State) : exec (.mvBulk c t m out a spad n) s = execMvBulk c t m out a spad n s := rfl

theorem exec_waitc (c t m v : Nat) (s : State) : exec (.waitc c t m v) s = execWaitc c t m v s := rfl

theorem exec_fenceCore (c t : Nat) (s : State) : exec (.fenceCore c t) s = execFenceCore c t s := rfl

theorem exec_fenceCluster (c t : Nat) (s : State) : exec (.fenceCluster c t) s = execFenceCluster c t s := rfl

theorem exec_fenceDevice (c t : Nat) (s : State) : exec (.fenceDevice c t) s = execFenceDevice c t s := rfl

theorem exec_fenceFabric (c t : Nat) (s : State) : exec (.fenceFabric c t) s = execFenceFabric c t s := rfl

theorem exec_semaddRel (c t n v scope : Nat) (s : State) : exec (.semaddRel c t n v scope) s = execSemaddRel c t n v scope s := rfl

theorem exec_semwaitAcq (c t n v scope : Nat) (s : State) : exec (.semwaitAcq c t n v scope) s = execSemwaitAcq c t n v scope s := rfl

theorem exec_halt (c t : Nat) (s : State) : exec (.halt c t) s = execHalt c t s := rfl

theorem exec_trace (c t v : Nat) (s : State) : exec (.trace c t v) s = execTrace c t v s := rfl

section
variable {c t m reg value v a spad n scope : Nat} {out move : Bool} {fl : Flight} {s : State}

/-- A row that checks its operands acts when they pass. -/
theorem threadRow_of_checked (hiss : s.Issues c t move fl) {P : Prop} [Decidable P] (hP : P) (k : State → Flight → State) :
    threadRow c t move s (fun u f => if P then k u f else u) = .next (k (s.issued c t) fl) := by
  rw [threadRow_of_issues hiss, if_pos hP]

/-! ### Loads and stores (R241) -/

theorem exec_ld_of_issues (hiss : s.Issues c t false fl) : exec (.ld c t reg a n) s = .next ((s.issued c t).access s c fl
    { thread := t, store := false, reg := reg, addr := a, size := n, value := 0 }) := by
  rw [exec_ld, execLd, threadRow_of_issues hiss]

/-- A store of a value waits for no register. -/
theorem exec_st_value (hiss : s.Issues c t false fl) : exec (.st c t none value a n) s = .next ((s.issued c t).access s c fl
    { thread := t, store := true, reg := 0, addr := a, size := n, value := value }) := by
  rw [exec_st, execSt, if_neg Bool.false_ne_true, threadRow_of_issues hiss]

/-- A store of a register issues once no load to that register is outstanding (R225). -/
theorem exec_st_register (hiss : s.Issues c t false fl)
    (harrived : (s.core c).underWay.any (fun q => q.accs.any (fun x => !x.store && x.thread == t && x.reg == reg)) = false) :
    exec (.st c t (some reg) value a n) s = .next ((s.issued c t).access s c fl
      { thread := t, store := true, reg := 0, addr := a, size := n, value := (((s.issued c t).core c).thread t).reg reg }) := by
  rw [exec_st, execSt, if_neg (ne_true_of_eq_false harrived), threadRow_of_issues hiss]

/-! ### Movements (R226, R227) -/

theorem exec_mvLd_of_issues (hiss : s.Issues c t true fl) (hm : m < 8) (hlen : moveLenOk n = true) (hal : moveAligned a spad = true) :
    exec (.mvLd c t m a spad n) s = .next ((s.issued c t).movement s c fl (.moveIn m) false a n spad) := by
  rw [exec_mvLd, execMvLd, threadRow_of_checked hiss ⟨hlen, hal, hm⟩]

theorem exec_mvSt_of_issues (hiss : s.Issues c t true fl) (hm : m < 8) (hlen : moveLenOk n = true) (hal : moveAligned a spad = true) :
    exec (.mvSt c t m a spad n) s = .next ((s.issued c t).movement s c fl (.moveOut m) true a n spad) := by
  rw [exec_mvSt, execMvSt, threadRow_of_checked hiss ⟨hlen, hal, hm⟩]

theorem exec_mvPf_of_issues (hiss : s.Issues c t true fl) (hm : m < 8) (hlo : 64 ≤ n) (hhi : n ≤ 4096) (hn : n % 16 = 0) (ha : a % 16 = 0) :
    exec (.mvPf c t m a n) s = .next ((s.issued c t).movement s c fl (.moveCache m) false a n 0) := by
  rw [exec_mvPf, execMvPf, threadRow_of_checked hiss ⟨hlo, hhi, hn, ha, hm⟩]

theorem exec_mvBulk_of_issues (hiss : s.Issues c t true fl) (hok : bulkOk m a spad n = true) :
    exec (.mvBulk c t m out a spad n) s = .next ((s.issued c t).moveBulk c fl m out a spad n) := by
  rw [exec_mvBulk, execMvBulk, threadRow_of_checked hiss hok]

/-! ### Waits, fences and semaphores (R226, R242, R243) -/

theorem exec_waitc_of_issues (hiss : s.Issues c t false fl) (hm : m < 8) :
    exec (.waitc c t m v) s = .next ((s.issued c t).threadWait c t (.counter m v)) := by
  rw [exec_waitc, execWaitc, threadRow_of_checked hiss hm]

theorem exec_semwaitAcq_owned (hiss : s.Issues c t false fl) (hown : (s.issued c t).ownsSem fl.fn n = true) :
    exec (.semwaitAcq c t n v scope) s = .next ((s.issued c t).threadWait c t (.sem n v (min scope 3))) := by
  rw [exec_semwaitAcq, execSemwaitAcq, threadRow_of_issues hiss, if_neg (by simp [hown])]

/-- SEMADD.REL issues once the thread's earlier accesses are performed with respect to its scope (R243). -/
theorem exec_semaddRel_owned (hiss : s.Issues c t false fl) (hown : (s.issued c t).ownsSem fl.fn n = true)
    (hdone : s.fenceDone c t (min scope 3) = true) : exec (.semaddRel c t n v scope) s = .next (((s.issued c t).addSem n v).refreshHeads) := by
  rw [exec_semaddRel, execSemaddRel, if_neg (by simp [hdone]), threadRow_of_issues hiss, if_neg (by simp [hown])]

/-! ### HALT (R224) -/

/-- A thread that is no movement thread has a number below 12. -/
theorem State.Issues.below_movers (hiss : s.Issues c t false fl) : decide (12 ≤ t) = false := by
  obtain ⟨-, -, hkind, -⟩ := hiss
  simpa using hkind

theorem exec_halt_of_issues (hiss : s.Issues c t false fl) :
    exec (.halt c t) s = .next (((((s.issued c t).countCycles (A.LSU c 0x18)).modCore c (fun x =>
      x.setThread t { x.thread t with running := false, wait := .none })).programSettle c).applyPfBuf c) := by
  rw [exec_halt, execHalt, hiss.below_movers, threadRow_of_issues hiss]

end

/-- Settles O23, row by row: a thread that may issue does (`threadRow_of_issues`), and the lengths and alignments of the clauses are the checks of the
movement rows; a size or address that no access may have is turned away inside `State.access`, so the hypothesis on them is not needed here. -/
theorem threadsMoveData : Obligations.ThreadsMoveData := by
  rintro c t m reg value a spad n out fl s u rfl
  refine ⟨fun hiss _ => ⟨exec_ld_of_issues hiss, exec_st_value hiss, exec_st_register hiss⟩, fun hiss hm => ⟨fun hlen hal => ⟨?mvLd, ?mvSt⟩, ?mvPf, ?mvBulk⟩⟩
  case mvLd => exact exec_mvLd_of_issues hiss hm hlen hal
  case mvSt => exact exec_mvSt_of_issues hiss hm hlen hal
  case mvPf => exact exec_mvPf_of_issues hiss hm
  case mvBulk => exact exec_mvBulk_of_issues hiss

/-- Settles O24, row by row: a thread that may issue does (`threadRow_of_issues`); the four fences are one wait at four scopes. -/
theorem threadsSynchronize : Obligations.ThreadsSynchronize := by
  rintro c t m v n scope fl s u rfl hiss
  refine ⟨exec_waitc_of_issues hiss, ?core, ?cluster, ?device, ?fabric, fun hown => ⟨?semwait, ?semadd⟩, exec_halt_of_issues hiss, ?trace⟩
  case core => rw [exec_fenceCore, execFenceCore, threadRow_of_issues hiss]
  case cluster => rw [exec_fenceCluster, execFenceCluster, threadRow_of_issues hiss]
  case device => rw [exec_fenceDevice, execFenceDevice, threadRow_of_issues hiss]
  case fabric => rw [exec_fenceFabric, execFenceFabric, threadRow_of_issues hiss]
  case semwait => exact exec_semwaitAcq_owned hiss hown
  case semadd => exact exec_semaddRel_owned hiss hown
  case trace => rw [exec_trace, execTrace, threadRow_of_issues hiss]

end Sys2Proof.Machine

/-!
## Sleep states of the cores (R236 to R239): what each row does once the conditions of its guards hold
-/

namespace Sys2Proof.Machine

/-! ### The rows -/

theorem exec_c1Entry (c : Nat) (s : State) : exec (.c1Entry c) s = execC1Entry c s := rfl

theorem exec_c2Entry (c : Nat) (s : State) : exec (.c2Entry c) s = execC2Entry c s := rfl

theorem exec_c3Entry (c : Nat) (s : State) : exec (.c3Entry c) s = execC3Entry c s := rfl

theorem exec_sleepEntryComplete (c : Nat) (s : State) : exec (.sleepEntryComplete c) s = execSleepEntryComplete c s := rfl

theorem exec_coreWake (c cause : Nat) (s : State) : exec (.coreWake c cause) s = execCoreWake c cause s := rfl

theorem exec_wakeComplete (c : Nat) (s : State) : exec (.wakeComplete c) s = execWakeComplete c s := rfl

/-- A row of a present unit whose condition `P` holds does its work; `onUnit_passed` is its form for a guard that turns a row away. -/
theorem onUnit_due {p : Bool} {P : Prop} [Decidable P] (hp : p = true) (hP : P) (t s : State) : onUnit p (if P then t else s) = .next t := by
  rw [onUnit_present hp, if_pos hP]

section
variable {c cause : Nat} {s : State}

/-! ### Entry (R236, R237, R239) -/

theorem exec_c1Entry_idle (hc : c < Config.cores) (hon : s.fld (A.PMCC c 8) 3 0 = 0) (hidle : s.idle c = true) :
    exec (.c1Entry c) s = .next ((s.setFld (A.PMCC c 8) 1 0 1).count (A.PMCC c 0x10)) := by
  rw [exec_c1Entry, execC1Entry, onUnit_due (decide_eq_true hc) ⟨hon, hidle⟩]

theorem exec_c2Entry_due (hc : c < Config.cores) (hon : s.fld (A.PMCC c 8) 3 1 = 0) (hmax : 2 ≤ s.maxC c) (hidle : s.idle c = true)
    (hdue : (s.core c).idleSince + zeroAs 100 (s.fld (A.PMCC c 0) 31 16) ≤ s.ticks) : exec (.c2Entry c) s = .next (s.enterSleep c 2) := by
  rw [exec_c2Entry, execC2Entry, onUnit_due (decide_eq_true hc) ⟨hon, hmax, hidle, hdue⟩]

theorem exec_c3Entry_due (hc : c < Config.cores) (hpresent : s.isAbsent (3 + c / 16) = false) (hon : s.fld (A.PMCC c 8) 3 2 = 0) (hst : s.cstate c ≤ 2)
    (hmax : 3 ≤ s.maxC c) (hidle : s.idle c = true) (hhalted : (s.core c).halted = true)
    (hdue : (s.core c).idleSince + 1000 * zeroAs 10 (s.fld (A.PMCC c 0) 47 32) ≤ s.ticks) : exec (.c3Entry c) s = .next (s.enterSleep c 3) := by
  rw [exec_c3Entry, execC3Entry, onUnit_passed (decide_eq_true hc) (ne_true_of_eq_false hpresent), if_pos ⟨hon, hst, hmax, hidle, hhalted, hdue⟩]

/-- The entry ends in the state it went to; a wake event that came meanwhile takes effect then (R239). -/
theorem exec_sleepEntryComplete_entering (hc : c < Config.cores) (hent : (s.core c).entering ≠ 0) {t : State}
    (ht : t = (((s.setFld (A.PMCC c 8) 2 2 0).setFld (A.PMCC c 8) 1 0 (s.core c).entering).setCore c
      { s.core c with entering := 0, wakeAfterEntry := 0 }).sleepBookings c) :
    exec (.sleepEntryComplete c) s = .next (if (s.core c).wakeAfterEntry = 0 then t else t.startWake c (s.core c).wakeAfterEntry) := by
  subst ht
  rw [exec_sleepEntryComplete, execSleepEntryComplete, onUnit_passed (decide_eq_true hc) hent, ite_not]

/-! ### Wake (R238, R239) -/

theorem State.coreWake_of_asleep (hev : s.wakeEvent c cause = true) (hent : (s.core c).entering = 0) (hst : s.cstate c ≠ 0) (hwk : s.waking c = false) :
    s.coreWake c cause = s.startWake c cause := by
  rw [State.coreWake, if_neg (by simp [hev]), if_neg (not_not_intro hent), if_neg (by simp [hst, hwk])]

theorem exec_coreWake_asleep (hc : c < Config.cores) (hlo : 1 ≤ cause) (hhi : cause ≤ 6) (hev : s.wakeEvent c cause = true)
    (hent : (s.core c).entering = 0) (hst : s.cstate c ≠ 0) (hwk : s.waking c = false) : exec (.coreWake c cause) s = .next (s.startWake c cause) := by
  rw [exec_coreWake, execCoreWake, onUnit_present (by simp [hc, hlo, hhi]), State.coreWake_of_asleep hev hent hst hwk]

/-- The core's wake is under way, with its current granted and its cluster's PLL not waiting. -/
def State.WakeGranted (s : State) (c : Nat) : Prop :=
  s.waking c = true ∧ (s.core c).wakeWaitsGrant = false
    ∧ s.esc.waiting.any (fun q => decide (q.owner = .wake c) || decide (q.owner = .pll (c / 16))) = false

/-- What core `c` comes back to from C3: its scratchpad zero, its threads and completion counters anew, its generators from the list `l` (R237). -/
def State.rebuilt (s : State) (c : Nat) (l : List (BitVec 128)) : State :=
  (s.zeroScratch c).modCore c (fun y => { y.putLanes l with threads := [], mvc := [] })

/-- The generator states that the wake of core `c` from C3 brings back: none after a retirement, else those of its area (R208, R237). -/
def State.wakeLanes (s : State) (c : Nat) : List (BitVec 128) :=
  if (s.core c).wakeCause = 5 then [] else lanesOfBytes (s.bytes (sysAddr (c / 128) (0x600000 + c % 128 * 1024)) 1024)

/-- `u` with core `c` in C0 from beat `now` on. -/
def State.awakened (u : State) (c now : Nat) : State :=
  ((u.setFld (A.PMCC c 8) 3 3 0).setFld (A.PMCC c 8) 1 0 0).modCore c (fun y => { y with idleSince := now, wakeCause := 0 })

/-- A granted wake leaves the core in C0, from C3 rebuilt; only a wake from C1 writes no marker. -/
theorem exec_wakeComplete_granted (hc : c < Config.cores) (hwake : s.WakeGranted c) {u : State}
    (hu : u = (if s.cstate c = 3 then s.rebuilt c (s.wakeLanes c) else s).awakened c s.ticks) :
    exec (.wakeComplete c) s = .next ((if s.cstate c = 1 then u else u.traceCore c 0x11 0 0 (s.cstate c * 256 + (s.core c).wakeCause)).sleepBookings c) := by
  obtain ⟨hwk, hgrant, hwait⟩ := hwake
  subst hu
  rw [exec_wakeComplete, execWakeComplete, onUnit_passed (decide_eq_true hc) (by simp only [hwk, hgrant, hwait]; decide)]
  rfl

end

/-- Settles O26, row by row: under the hypotheses of each clause the guards of its row let the event through; the three wakes are one row
(`exec_wakeComplete_granted`) at the three sleep states. -/
theorem coresSleepAndWake : Obligations.CoresSleepAndWake := by
  intro c cause s hc
  refine ⟨exec_c1Entry_idle hc, exec_c2Entry_due hc, exec_c3Entry_due hc, fun hent t => exec_sleepEntryComplete_entering hc hent, exec_coreWake_asleep hc,
    fun hwk hgrant hwait awakened hawake => ?wake⟩
  have hrow := exec_wakeComplete_granted hc ⟨hwk, hgrant, hwait⟩ rfl
  subst hawake
  refine ⟨fun hst => ?c1, fun hst => ?c2, fun hst l hl => ?c3⟩
  case c1 =>
    rw [hrow, hst]
    rfl
  case c2 =>
    rw [hrow, hst]
    rfl
  case c3 =>
    subst hl
    rw [hrow, hst]
    rfl

end Sys2Proof.Machine

/-!
## Test generators of the capacity tier (R272, R273, R279, R280): what each row does once the conditions of its guards hold
-/

namespace Sys2Proof.Machine

/-! ### The rows -/

theorem exec_testMode (v : Nat) (s : State) : exec (.testMode v) s = execTestMode v s := rfl

theorem exec_start (c val : Nat) (s : State) : exec (.start c val) s = execStart c val s := rfl

theorem exec_stop (c : Nat) (s : State) : exec (.stop c) s = execStop c s := rfl

theorem exec_tgDone (c : Nat) (mism : List TgMismatch) (s : State) : exec (.tgDone c mism) s = execTgDone c mism s := rfl

variable {c v val : Nat} {mism : List TgMismatch} {s t : State}

/-! ### TEST_MODE (R272) -/

/-- Some virtual function is enabled, or some queue of the physical function is: what test mode is refused for. -/
def State.tenantsOpen (s : State) : Bool :=
  (List.range 512).any (fun f => f != 0 && s.fnEnabled f) || s.queues.any (fun q => s.ownsQueue 0 q.1 && q.2.state == 1)

/-- A write of TEST_MODE is taken, unless it is a 1 that tenants stand against: then it only sets TEST_REFUSED. -/
theorem exec_testMode_reached (hreach : s.reaches 0 = true) (hv : v < 2) :
    exec (.testMode v) s = .next (if v = 1 ∧ s.tenantsOpen = true then s.setFld A.MEM_GCTL 2 2 1 else s.setFld A.MEM_GCTL 0 0 v) := by
  rw [exec_testMode, execTestMode, onUnit_passed (decide_eq_true hv) (by simp [hreach])]
  simp only [State.tenantsOpen, Bool.or_eq_true]

/-! ### START and STOP (R272, R273, R279) -/

/-- What START stores of the bus word `val` in MEM_TG_CTL: SEED, RDPCT, PATTERN, PRBS and LOOP. -/
def tgCtlWord (val : Nat) : Nat :=
  setBits (setBits (setBits (setBits (setBits 0 63 32 (bitsOf val 63 32)) 23 16 (bitsOf val 23 16)) 11 8 (bitsOf val 11 8)) 7 6 (bitsOf val 7 6)) 2 2 (bitsOf val 2 2)

/-- The generator of pseudo-channel `c` with control word `ctl`: BUSY, with its log and results clear, and its current asked for. -/
def State.tgBegin (s : State) (c ctl : Nat) : State :=
  ((List.range 16).foldl (fun t e => t.setReg (A.TG c (0x40 + 8 * e)) 0) ((s.setReg (A.TG c 0) ctl).setReg (A.TG c 0x18) 1)).askSys (hbcRail (c / 64)) 40 none false (.tg c)

/-- A write with START to an idle generator begins a run; outside test mode, or with a pattern that does not exist, it only stores its word and
sets TEST_REFUSED. -/
theorem exec_start_idle (hreach : s.reaches 0 = true) (hc : c < 768) (hidle : s.fld (A.TG c 0x18) 0 0 = 0) :
    exec (.start c val) s = .next (if s.fld A.MEM_GCTL 0 0 = 0 ∨ 4 ≤ bitsOf val 11 8 then (s.setReg (A.TG c 0) (tgCtlWord val)).setFld A.MEM_GCTL 2 2 1
      else s.tgBegin c (tgCtlWord val)) := by
  rw [exec_start, execStart, onUnit_passed (decide_eq_true hc) (by simp [hreach, hidle])]
  rfl

theorem exec_stop_busy (hreach : s.reaches 0 = true) (hc : c < 768) (hbusy : s.fld (A.TG c 0x18) 0 0 = 1) (hrun : s.tiers.tgStop.contains c = false) :
    exec (.stop c) s = .next { s with tiers := { s.tiers with tgStop := c :: s.tiers.tgStop } } := by
  rw [exec_stop, execStop, onUnit_passed (decide_eq_true hc) (by simp only [hreach, hbusy, hrun]; decide)]

/-! ### The end of a pass (R272, R280) -/

/-- The run of generator `c` is over: its current is free, the data of its range is destroyed, and no STOP is remembered. -/
def State.tgRelease (s : State) (c : Nat) : State :=
  let u := (s.release (.tg c)).tgDestroy c
  { u with tiers := { u.tiers with tgStop := u.tiers.tgStop.filter (fun x => x != c) } }

/-- Generator `c` shows the end of its run: not BUSY, DONE, FAIL when a word mismatched, and vector 2 of the physical function. -/
def State.tgFinish (s : State) (c : Nat) : State :=
  (((s.setFld (A.TG c 0x18) 0 0 0).setFld (A.TG c 0x18) 1 1 1).setFld (A.TG c 0x18) 2 2 (if s.fld (A.TG c 0x18) 63 32 = 0 then 0 else 1)).raiseVector 0 2

/-- A pass of a busy generator ends with its mismatches; the run goes on only with LOOP and no STOP. -/
theorem exec_tgDone_busy (hc : c < 768) (hbusy : s.fld (A.TG c 0x18) 0 0 = 1) (hheld : s.holds (.tg c) = true) (ht : t = mism.foldl (fun t m => t.tgMismatch c m) s) :
    exec (.tgDone c mism) s = .next (if s.fld (A.TG c 0) 2 2 = 1 ∧ s.tiers.tgStop.contains c = false then t else (t.tgRelease c).tgFinish c) := by
  subst ht
  rw [exec_tgDone, execTgDone, onUnit_passed (decide_eq_true hc) (by simp [hbusy, hheld])]
  simp only [Bool.not_eq_true']
  rfl

/-- Settles O40, row by row: under the hypotheses of each clause the guards of its row let the write or event through, and choose the branch that the
clause tells of. -/
theorem memoryTestsRun : Obligations.MemoryTestsRun := by
  intro c v val mism s t hreach hc
  refine ⟨?off, fun hvfs hpf => ?on, ?start, fun hbusy => ⟨exec_stop_busy hreach hc hbusy, fun hheld ht => ⟨fun hloop hrun => ?again, ?ended⟩⟩⟩
  case off => rw [exec_testMode_reached hreach Nat.two_pos, if_neg (fun h => Nat.zero_ne_one h.1)]
  case on =>
    have hopen : s.tenantsOpen = false := by rw [State.tenantsOpen, hvfs, hpf, Bool.or_self]
    rw [exec_testMode_reached hreach Nat.one_lt_two, if_neg (fun h => ne_true_of_eq_false hopen h.2)]
  case start =>
    rintro hidle hmode hpat rfl
    rw [exec_start_idle hreach hc hidle, if_neg (by omega)]
    rfl
  case again => rw [exec_tgDone_busy hc hbusy hheld ht, if_pos ⟨hloop, hrun⟩]
  case ended =>
    intro honce u w hu hw
    have hrelease : w = t.tgRelease c := by rw [hw, hu]; rfl
    rw [exec_tgDone_busy hc hbusy hheld ht, if_neg (fun h => Nat.zero_ne_one (honce.symm.trans h.1)), hrelease]
    rfl

end Sys2Proof.Machine

/-!
## Cluster cache coherence (R285 to R296): what each row does once the conditions of its guards hold
-/

namespace Sys2Proof.Machine

/-! ### The rows -/

section
variable (l k : Nat) (s : State)

theorem exec_gets : exec (.gets l k) s = onUnit (lineOk l k) (s.atHome l (isMsg .getS l k) .getS 0x10) := rfl

theorem exec_getm : exec (.getm l k) s = onUnit (lineOk l k) (s.atHome l (isMsg .getM l k) .getM 0x18) := rfl

theorem exec_upg : exec (.upg l k) s = onUnit (lineOk l k) (s.atHome l (isMsg .upg l k) .upg 0x20) := rfl

theorem exec_readnc : exec (.readnc l k) s = onUnit (lineOk l k) (s.atHome l (isMsg .readNC l k) .readNC 0x28) := rfl

theorem exec_writenc : exec (.writenc l k) s = onUnit (lineOk l k) (s.atHome l (isMsg .writeNC l k) .writeNC 0x28) := rfl

theorem exec_putm : exec (.putm l k) s = onUnit (lineOk l k) (s.putRow l k .putM) := rfl

theorem exec_pute : exec (.pute l k) s = onUnit (lineOk l k) (s.putRow l k .putE) := rfl

theorem exec_puts : exec (.puts l k) s = onUnit (lineOk l k) (s.putRow l k .putS) := rfl

theorem exec_snps : exec (.snps l k) s = onUnit (lineOk l k) (s.snoopRow l k .snpS .snpS) := rfl

theorem exec_snpm : exec (.snpm l k) s = onUnit (lineOk l k) (s.snoopRow l k .snpM .snpM) := rfl

theorem exec_snpinv : exec (.snpinv l k) s = onUnit (lineOk l k) (s.snoopRow l k .snpInv .snpInv) := rfl

theorem exec_snprd : exec (.snprd l k) s = onUnit (lineOk l k) (s.snoopRow l k .snpRd .snpRd) := rfl

theorem exec_datas : exec (.datas l k) s = onUnit (lineOk l k) (s.grantRow l k .dataS .S) := rfl

theorem exec_datae : exec (.datae l k) s = onUnit (lineOk l k) (s.grantRow l k .dataE .E) := rfl

theorem exec_datam : exec (.datam l k) s = onUnit (lineOk l k) (s.grantRow l k .dataM .M) := rfl

theorem exec_ack : exec (.ack l k) s = onUnit (lineOk l k) (s.grantRow l k .ack .M) := rfl

theorem exec_wback : exec (.wback l k) s = execWback l k s := rfl

theorem exec_invack : exec (.invack l k) s = onUnit (lineOk l k) (s.answerRow l k .invAck (fun t _ => t)) := rfl

theorem exec_snpack : exec (.snpack l k) s = onUnit (lineOk l k) (s.answerRow l k .snpAck (fun t _ => t)) := rfl

theorem exec_snpdata : exec (.snpdata l k) s = onUnit (lineOk l k) (s.answerRow l k .snpData (fun t m => t.withData m)) := rfl

theorem exec_miss : exec (.miss l k) s = onUnit (lineOk l k) (s.answerRow l k .miss (fun t _ => t.withMiss k)) := rfl

theorem exec_missPutPending : exec (.missPutPending l k) s = onUnit (lineOk l k) (s.answerRow l k .missPutPending (fun t _ => t.withMiss k)) := rfl

theorem exec_snoopTimeout : exec (.snoopTimeout l k) s = execSnoopTimeout l k s := rfl

theorem exec_dirAgeWarn : exec (.dirAgeWarn l) s = execDirAgeWarn l s := rfl

theorem exec_memoryResponse_home : exec (.memoryResponse true l k) s = onUnit (cacheable (l * 128)) (s.homeMemory l) := rfl

theorem exec_memoryResponse_core (c : Nat) : exec (.memoryResponse false c k) s = execMemoryResponse false c k s := rfl

end

variable {l k : Nat} {m : CohMsg} {s t : State}

/-- A cluster's number and a line of the two tiers name a line of a cluster cache (R282). -/
theorem lineOk_of_cacheable (hk : k < 32) (hl : cacheable (l * 128) = true) : lineOk l k = true := by
  rw [lineOk, decide_eq_true hk, hl, Bool.and_self]

/-! ### Requests at a home (R285, R286, R288, R294) -/

/-- What the home keeps of a request that reaches it now. Non-caching agents share position 32 as requester (R289); the warning is due AGE_WARN
later (R293). -/
def State.homeReq (s : State) (kind : ReqType) (m : CohMsg) : HomeReq :=
  { kind := kind, from_ := if decide (kind = .readNC) || decide (kind = .writeNC) then 32 else m.cluster, core := m.core, req := m.req, off := m.off,
    data := m.data, warnAt := s.ticks + s.ageWarn, warned := false }

theorem State.atHome_accepted {p : CohMsg → Bool} {kind : ReqType} {off : Nat} (hroom : s.reqInUse (s.lineHome l) < 256) (hset : s.dirFull l = false)
    (htake : s.takeCoh p = some (m, t)) : s.atHome l p kind off = t.accept l (s.homeReq kind m) off := by
  rw [State.atHome, if_neg (Nat.not_le.mpr hroom)]
  simp only [htake, hset, Bool.false_eq_true, if_false, State.homeReq]

/-! ### Messages at a home and at a cluster (R286, R287, R290, R291) -/

theorem State.putRow_taken {kind : CohKind} (htake : s.takeCoh (isMsg kind l k) = some (m, t)) : s.putRow l k kind = t.putAt l k m := by
  simp only [State.putRow, htake]

theorem State.snoopRow_taken {kind : CohKind} {sn : SnoopKind} (htake : s.takeCoh (isMsg kind l k) = some (m, t)) :
    s.snoopRow l k kind sn = (t.count (A.DIRC k 0x10)).answerSnoop l k sn := by
  simp only [State.snoopRow, htake]

/-- A grant is taken by a line in IS, IM or SM, the states that wait for one. -/
theorem State.grantRow_waiting {kind : CohKind} {st : LineSt} (hwait : (t.cline k l).st = .IS ∨ (t.cline k l).st = .IM ∨ (t.cline k l).st = .SM)
    (htake : s.takeCoh (isMsg kind l k) = some (m, t)) : s.grantRow l k kind st = t.granted l k st m.poison := by
  obtain hst | hst | hst := hwait <;> simp only [State.grantRow, htake, hst]

theorem exec_wback_taken (hline : lineOk l k = true) (htake : s.takeCoh (isMsg .wbAck l k) = some (m, t)) (hst : (t.cline k l).st = .IW) :
    exec (.wback l k) s = .next ((t.setCLine k l { CLine.init with waiting := (t.cline k l).waiting }).askAgain l k) := by
  rw [exec_wback, execWback, onUnit_present hline]
  simp only [htake, if_pos hst]

/-! ### Answers to snoops (R288, R291, R296) -/

/-- An awaited answer whose snoop has not timed out leaves the awaited ones, and brings what `g` says. -/
theorem State.answerRow_awaited {kind : CohKind} {g : Txn → CohMsg → Txn} {x : Txn} (htxn : (t.dirEntry l).txn = some x)
    (hawait : x.awaits.contains k = true) (hfresh : t.coh.timedOut.contains (l * 32 + k) = false)
    (htake : s.takeCoh (isMsg kind l k) = some (m, t)) : s.answerRow l k kind g =
      (t.setDir l { t.dirEntry l with txn := some (g { x with awaits := x.awaits.erase k } m) }).advanceLine l := by
  simp only [State.answerRow, htake, hfresh, htxn, hawait, Bool.false_eq_true, if_false, if_true]

/-- A cluster that is not the owner holds no data of its own: a snoop past its time leaves the block's seal alone. -/
theorem exec_snoopTimeout_sharer {x : Txn} (hline : lineOk l k = true) (htxn : (s.dirEntry l).txn = some x) (hawait : x.awaits.contains k = true)
    (hdue : x.snoopDue ≤ s.ticks) (howner : (s.dirEntry l).owner ≠ some k)
    (ht : t = ((({ s with coh := { s.coh with timedOut := (l * 32 + k) :: s.coh.timedOut } } : State).countDir l 0x58).record
      { cls := 1, cause := 8, unitKind := 7, unit := k, addr := l * 128, closeNow := true })) :
    exec (.snoopTimeout l k) s = .next ((t.setDir l { s.dirEntry l with
      txn := some { x with awaits := x.awaits.erase k, awaitsPut := x.awaitsPut.erase k }, sharers := (s.dirEntry l).sharers.erase k }).advanceLine l) := by
  subst ht
  have hother : ((s.dirEntry l).owner == some k) = false := beq_false_of_ne howner
  rw [exec_snoopTimeout, execSnoopTimeout, onUnit_present hline]
  simp only [htxn, hawait, hother, decide_eq_false (Nat.not_lt.mpr hdue), Bool.true_or, Bool.not_true, Bool.or_self, Bool.or_false,
    Bool.false_eq_true, if_false, if_true]

/-! ### Warnings and memory's answers (R231, R293) -/

/-- The one request that waits for the line is past its warning time: it is marked, counted and logged. -/
theorem exec_dirAgeWarn_late {q : HomeReq} (hl : cacheable (l * 128) = true) (hqueue : (s.dirEntry l).queue = [q]) (hnc : (s.dirEntry l).ncWait = [])
    (hlate : q.warnAt < s.ticks) (hnew : q.warned = false) :
    exec (.dirAgeWarn l) s = .next (((s.setDir l { s.dirEntry l with queue := [{ q with warned := true }], ncWait := [] }).countDir l 0x60).event 0x0F
      [(s.lineHome l, 1), (q.from_, 1), (s.ticks - (q.warnAt - s.ageWarn), 4)]) := by
  have hdue : (decide (q.warnAt < s.ticks) && !q.warned) = true := by rw [decide_eq_true hlate, hnew]; rfl
  rw [exec_dirAgeWarn, execDirAgeWarn, onUnit_present hl]
  simp only [hqueue, hnc, List.append_nil, List.filter_cons, List.filter_nil, List.map_cons, List.map_nil, hdue, if_true, List.foldl_cons, List.foldl_nil,
    List.isEmpty_cons, Bool.false_eq_true, if_false]

/-- The line that memory returns has no bad word: the transaction's read ends it, and nothing is poisoned. -/
theorem State.homeMemory_read {x : Txn} (htxn : (s.dirEntry l).txn = some x) (hmem : x.memWait = true) (hread : x.req.kind ≠ .writeNC)
    (hgood : s.badWord (l * 128) 128 = none) :
    s.homeMemory l = (((s.traffic (l * 128) 128 false).setDir l { s.dirEntry l with txn := none }).endTxn l
      { x with memWait := false, gotData := true }).advanceLine l := by
  simp only [State.homeMemory, htxn, hmem, decide_eq_false hread, hgood, Bool.not_true, Bool.false_eq_true, if_false]

theorem exec_memoryResponse_waiting {c : Nat} {r : CoreReq} (hc : c < Config.cores) (hreq : s.coreReq? c k = some r) (hleft : r.left.contains r.addr = true) :
    exec (.memoryResponse false c k) s = .next (s.scratchMemory c r) := by
  rw [exec_memoryResponse_core, execMemoryResponse, if_neg Bool.false_ne_true, onUnit_present (decide_eq_true hc)]
  simp only [hreq, if_pos hleft]

/-- Settles O28, row by row: on a line of the two tiers each row does its work (`onUnit_present`), and under the hypotheses of its clause that is what
the operation of its family says: a request at its home (`State.atHome_accepted`), a writeback, a snoop, a grant (`State.grantRow_waiting`), an answer to
a snoop (`State.answerRow_awaited`). -/
theorem coherenceRuns : Obligations.CoherenceRuns := by
  refine ⟨fun l k m s t hk hl hroom hset => ?requests, fun l k m s t hk hl => ?messages, fun l k m x x1 s t hk hl => ?answers⟩
  case requests =>
    have hline := lineOk_of_cacheable hk hl
    have accepted {p kind off} (htake : s.takeCoh p = some (m, t)) :
        onUnit (lineOk l k) (s.atHome l p kind off) = .next (t.accept l (s.homeReq kind m) off) := by
      rw [onUnit_present hline, State.atHome_accepted hroom hset htake]
    exact ⟨fun h => (exec_gets l k s).trans (accepted h), fun h => (exec_getm l k s).trans (accepted h), fun h => (exec_upg l k s).trans (accepted h),
      fun h => (exec_readnc l k s).trans (accepted h), fun h => (exec_writenc l k s).trans (accepted h)⟩
  case messages =>
    have hline := lineOk_of_cacheable hk hl
    have put {kind} (htake : s.takeCoh (isMsg kind l k) = some (m, t)) : onUnit (lineOk l k) (s.putRow l k kind) = .next (t.putAt l k m) := by
      rw [onUnit_present hline, State.putRow_taken htake]
    have snooped {kind sn} (htake : s.takeCoh (isMsg kind l k) = some (m, t)) :
        onUnit (lineOk l k) (s.snoopRow l k kind sn) = .next ((t.count (A.DIRC k 0x10)).answerSnoop l k sn) := by
      rw [onUnit_present hline, State.snoopRow_taken htake]
    refine ⟨fun h => (exec_putm l k s).trans (put h), fun h => (exec_pute l k s).trans (put h), fun h => (exec_puts l k s).trans (put h),
      fun h => (exec_snps l k s).trans (snooped h), fun h => (exec_snpm l k s).trans (snooped h), fun h => (exec_snpinv l k s).trans (snooped h),
      fun h => (exec_snprd l k s).trans (snooped h), fun hwait => ?grants, exec_wback_taken hline⟩
    have granted {kind st} (htake : s.takeCoh (isMsg kind l k) = some (m, t)) :
        onUnit (lineOk l k) (s.grantRow l k kind st) = .next (t.granted l k st m.poison) := by
      rw [onUnit_present hline, State.grantRow_waiting hwait htake]
    exact ⟨fun h => (exec_datas l k s).trans (granted h), fun h => (exec_datae l k s).trans (granted h), fun h => (exec_datam l k s).trans (granted h),
      fun h => (exec_ack l k s).trans (granted h)⟩
  case answers =>
    have hline := lineOk_of_cacheable hk hl
    refine ⟨fun htxn hawait hfresh hx1 => ?answered, exec_snoopTimeout_sharer hline, fun q => exec_dirAgeWarn_late hl, fun htxn hmem hread hgood => ?memory,
      fun c r => exec_memoryResponse_waiting⟩
    case answered =>
      subst hx1
      have answered {kind g} (htake : s.takeCoh (isMsg kind l k) = some (m, t)) : onUnit (lineOk l k) (s.answerRow l k kind g) =
          .next ((t.setDir l { t.dirEntry l with txn := some (g { x with awaits := x.awaits.erase k } m) }).advanceLine l) := by
        rw [onUnit_present hline, State.answerRow_awaited htxn hawait hfresh htake]
      exact ⟨fun h => (exec_invack l k s).trans (answered h), fun h => (exec_snpack l k s).trans (answered h),
        fun h => (exec_snpdata l k s).trans (answered h), fun h => (exec_miss l k s).trans (answered h), fun h => (exec_missPutPending l k s).trans (answered h)⟩
    case memory => rw [exec_memoryResponse_home, onUnit_present hl, State.homeMemory_read htxn hmem hread hgood]

end Sys2Proof.Machine

/-!
## Semaphores (R309): what one reads after a write or an addition
-/

namespace Sys2Proof.Machine

variable {n m v : Nat} {s : State}

theorem State.sem_zero (s : State) : s.sem 0 = 0 := if_pos rfl

theorem State.setSem_zero (s : State) (v : Nat) : s.setSem 0 v = s := if_pos rfl

theorem State.sem_setSem_self (hs : smapWf (fun _ => (0 : W64)) s.sems = true) (hn : n ≠ 0) (v : Nat) : (s.setSem n v).sem n = v % 2 ^ 64 := by
  rw [State.sem, State.setSem, if_neg hn, if_neg hn, smapGet_put hs, if_pos rfl, BitVec.toNat_ofNat]

theorem State.sem_setSem_of_ne (hmn : m ≠ n) (v : Nat) : (s.setSem n v).sem m = s.sem m := by
  by_cases hn : n = 0
  · rw [hn, State.setSem_zero]
  · simp only [State.sem, State.setSem, if_neg hn, smapGet_put_other _ _ hmn]

/-- Settles O54: an addition is a write of the sum, so both come down to what a read finds after a write of the same (`State.sem_setSem_self`) and of
another semaphore (`State.sem_setSem_of_ne`). -/
theorem semaphoreRule : Obligations.SemaphoreRule := by
  intro n m v s hinv
  obtain ⟨-, -, -, -, -, -, hsems, -⟩ := hinv
  exact ⟨s.sem_zero, s.setSem_zero v, fun hn => ⟨State.sem_setSem_self hsems hn v, State.sem_setSem_self hsems hn _⟩,
    fun hmn => ⟨State.sem_setSem_of_ne hmn v, State.sem_setSem_of_ne hmn _⟩⟩

end Sys2Proof.Machine

/-!
## Doorbells, fetch and age promotion (R304 to R308, R310, R311, R325): what each row does once the conditions of its guards hold
-/

namespace Sys2Proof.Machine

/-! ### The rows -/

theorem exec_doorbellWrite (f q size tail cdone : Nat) (s : State) : exec (.doorbellWrite f q size tail cdone) s = execDoorbellWrite f q size tail cdone s := rfl

theorem exec_commandFetch (q : Nat) (s : State) : exec (.commandFetch q) s = execCommandFetch q s := rfl

theorem exec_notBeforeReached (q : Nat) (s : State) : exec (.notBeforeReached q) s = execNotBeforeReached q s := rfl

theorem exec_agePromotion (q : Nat) (s : State) : exec (.agePromotion q) s = execAgePromotion q s := rfl

variable {f q tail cdone : Nat} {s : State}

/-! ### Modular order (R305) -/

theorem modSub_cast (w a b : Nat) : (modSub w a b : Int) = ((a : Int) - b) % ((2 ^ w : Nat) : Int) := by
  have hb : b % 2 ^ w ≤ a % 2 ^ w + 2 ^ w := Nat.le_trans (Nat.le_of_lt (Nat.mod_lt b (Nat.two_pow_pos w))) (Nat.le_add_left _ _)
  rw [modSub]
  generalize 2 ^ w = n at hb ⊢
  have hswap : (a : Int) % n + n - b % n = a % n - b % n + n := by omega
  rw [Int.natCast_emod, Int.ofNat_sub hb, Int.natCast_add, Int.natCast_emod, Int.natCast_emod, hswap, Int.add_emod_right, ← Int.sub_emod]

/-- "At or after" is a distance below half the range. -/
theorem modGe_iff (w a b : Nat) : modGe w a b = true ↔ modSub w a b < 2 ^ (w - 1) := by
  have hb : b % 2 ^ w ≤ 2 ^ w := Nat.le_of_lt (Nat.mod_lt b (Nat.two_pow_pos w))
  have hsub : modSub w a b = (a + 2 ^ w - b % 2 ^ w) % 2 ^ w := by
    rw [modSub, Nat.add_sub_assoc hb, Nat.add_sub_assoc hb, Nat.mod_add_mod]
  rw [modGe, decide_eq_true_iff, hsub]

/-- The four conditions of R305. -/
theorem Queue.doorbellValid_iff (x : Queue) : x.doorbellValid tail cdone = true ↔
    ((tail : Int) - x.tail) % 2 ^ 32 < 2 ^ 31 ∧ ((tail : Int) - x.head) % 2 ^ 32 ≤ x.size ∧ ((tail : Int) - cdone) % 2 ^ 32 ≤ x.size
      ∧ ((cdone : Int) - x.cdone) % 2 ^ 32 < 2 ^ 31 := by
  have htail := modSub_cast 32 tail x.tail
  have hhead := modSub_cast 32 tail x.head
  have hspace := modSub_cast 32 tail cdone
  have hcdone := modSub_cast 32 cdone x.cdone
  simp only [Queue.doorbellValid, Bool.and_eq_true, decide_eq_true_eq, modGe_iff, and_assoc]
  omega

/-! ### Counting -/

/-- Counting writes registers only. -/
theorem State.count_eq_withRegs (s : State) (k n : Nat) : s.count k n = { s with regs := (s.count k n).regs } := by
  have hfold (l : List Nat) : ∀ t : State,
      l.foldl (fun t e => t.setReg (A.EVCNT (e / 16) (e % 16)) (counterAdd (t.reg (A.EVCNT (e / 16) (e % 16))) n)) t
        = { t with regs := (l.foldl (fun t e => t.setReg (A.EVCNT (e / 16) (e % 16)) (counterAdd (t.reg (A.EVCNT (e / 16) (e % 16))) n)) t).regs } := by
    induction l with
    | nil => exact fun t => rfl
    | cons e l ih => exact fun t => ih _
  exact hfold _ _

theorem State.queue_count (s : State) (k n q : Nat) : (s.count k n).queue q = s.queue q := by rw [State.count_eq_withRegs]; rfl

/-! ### DOORBELL_WRITE (R305) -/

theorem exec_doorbellWrite_unit (hf : f < 512) (hq : q < Config.queues) (size : Nat) :
    exec (.doorbellWrite f q size tail cdone) s = .next (s.doorbell f q size tail cdone) :=
  (exec_doorbellWrite ..).trans (onUnit_present (by simp [hf, hq]) _)

/-- A doorbell that the checks see: of a function that reaches its registers, on a queue it owns that is neither DISABLED, nor in ERROR, nor stopping. -/
theorem State.doorbell_checked (hreach : s.reaches f = true) (hown : s.ownsQueue f q = true) (hon : (s.queue q).state ≠ 0) (hok : (s.queue q).state ≠ 4)
    (hrun : (s.queue q).stopping = 0) :
    s.doorbell f q 8 tail cdone = if (s.queue q).doorbellValid tail cdone = true
      then s.setQueue q { s.queue q with tail := tail % 2 ^ 32, cdone := cdone % 2 ^ 32 }
      else (((s.count (A.QMGF f 0xA8)).queueError q 1).deadLetter f q (List.replicate 64 0) (List.replicate 32 0) 4).1 := by
  rw [State.doorbell, if_neg (by simp [hreach]), if_neg (by simp [hown, hon, hok, hrun])]

theorem exec_doorbellWrite_valid (hf : f < 512) (hq : q < Config.queues) (hreach : s.reaches f = true) (hown : s.ownsQueue f q = true)
    (hon : (s.queue q).state ≠ 0) (hok : (s.queue q).state ≠ 4) (hrun : (s.queue q).stopping = 0) (hvalid : (s.queue q).doorbellValid tail cdone = true) :
    exec (.doorbellWrite f q 8 tail cdone) s = .next (s.setQueue q { s.queue q with tail := tail % 2 ^ 32, cdone := cdone % 2 ^ 32 }) := by
  rw [exec_doorbellWrite_unit hf hq, State.doorbell_checked hreach hown hon hok hrun, if_pos hvalid]

theorem exec_doorbellWrite_invalid (hf : f < 512) (hq : q < Config.queues) (hreach : s.reaches f = true) (hown : s.ownsQueue f q = true)
    (hon : (s.queue q).state ≠ 0) (hok : (s.queue q).state ≠ 4) (hrun : (s.queue q).stopping = 0) (hbad : (s.queue q).doorbellValid tail cdone = false)
    {t : State} (ht : t = (s.count (A.QMGF f 0xA8)).setQueue q { s.queue q with state := 4, errState := 1 }) :
    exec (.doorbellWrite f q 8 tail cdone) s = .next (t.deadLetter f q (List.replicate 64 0) (List.replicate 32 0) 4).1 := by
  have herr : (s.count (A.QMGF f 0xA8)).queueError q 1 = t := by rw [ht, State.queueError, State.modQueue, State.queue_count]
  rw [exec_doorbellWrite_unit hf hq, State.doorbell_checked hreach hown hon hok hrun, if_neg (by simp [hbad]), herr]

theorem exec_doorbellWrite_ignored (hf : f < 512) (hq : q < Config.queues) (hreach : s.reaches f = true)
    (hoff : (s.queue q).state = 0 ∨ (s.queue q).state = 4) : exec (.doorbellWrite f q 8 tail cdone) s = .next (s.count (A.QMGF f 0xA8)) := by
  have hign : (8 ≠ 8 ∨ (!s.ownsQueue f q) = true ∨ (s.queue q).state = 0 ∨ (s.queue q).state = 4 ∨ (s.queue q).stopping ≠ 0) :=
    .inr (.inr (or_assoc.mp (.inl hoff)))
  rw [exec_doorbellWrite_unit hf hq, State.doorbell, if_neg (by simp [hreach]), if_pos hign]

/-- Settles O60: the four conditions are R305's (`Queue.doorbellValid_iff`), and the doorbell branches on them for a queue that is ENABLED or PAUSED. -/
theorem doorbellsChecked : Obligations.DoorbellsChecked := by
  rintro f q tail cdone x s hf hq hreach hown rfl hrun
  refine ⟨Queue.doorbellValid_iff _, fun hstate => ?checked, exec_doorbellWrite_ignored hf hq hreach⟩
  have hon : (s.queue q).state ≠ 0 := by omega
  have hok : (s.queue q).state ≠ 4 := by omega
  exact ⟨exec_doorbellWrite_valid hf hq hreach hown hon hok hrun, fun hbad t => exec_doorbellWrite_invalid hf hq hreach hown hon hok hrun hbad⟩

/-! ### COMMAND_FETCH and AGE_PROMOTION (R306 to R308, R310, R325) -/

/-- A command that a fetch finds, neither cancelled nor refused for its header: it waits at the end of its queue, no condition of it latched. -/
theorem exec_commandFetch_found (hq : q < Config.queues) {a : Nat} {cmd : List Byte} (hon : (s.queue q).state ≠ 0) (hok : (s.queue q).state ≠ 4)
    (hrun : (s.queue q).stopping = 0) (hsome : (s.queue q).head ≠ (s.queue q).tail) (hfatal : s.fatal = false)
    (ha : a = (s.queue q).ring + (s.queue q).head % (s.queue q).size * 64) (hcmd : cmd = s.ncBytes a 64) (hslot : s.slotBad (s.fnOfQueue q) a = false)
    (hkeep : (s.queue q).cancelMarks.contains (s.queue q).head = false) (hform : headerMalformed cmd = none)
    (hperm : s.headerDenied (s.fnOfQueue q) cmd = none) :
    exec (.commandFetch q) s
      = .next ((((s.traffic a 64 false).setQueue q { s.queue q with
            head := ((s.queue q).head + 1) % 2 ^ 32, cancelMarks := (s.queue q).cancelMarks.filter (· != (s.queue q).head) }).modQueue q
          (fun y => { y with fetched := y.fetched ++ [{ index := (s.queue q).head, bytes := cmd, latched := [], nbReached := false, readyBeat := none, promoted := none, prebooked := false }] })).refreshHeads) := by
  subst ha hcmd
  rw [exec_commandFetch, execCommandFetch, onUnit_present (decide_eq_true hq), State.fetch, if_neg (by simp [hon, hok, hrun, hsome, hfatal]),
    if_neg (by simp [hslot]), if_neg (ne_true_of_eq_false hkeep)]
  simp only [hform, hperm]

theorem exec_agePromotion_due (hq : q < Config.queues) {h : Fetched} {rest : List Fetched} {b : Nat} (hhead : (s.queue q).fetched = h :: rest)
    (hready : h.readyBeat = some b) (hnew : h.promoted = none) (hdue : b + zeroAs 1000 (s.fld A.QMG_CFG 47 32) ≤ s.ticks) :
    exec (.agePromotion q) s = .next ((s.setQueue q { s.queue q with fetched := { h with promoted := some s.ticks } :: rest }).refreshHeads) := by
  rw [exec_agePromotion, execAgePromotion, onUnit_present (decide_eq_true hq), State.promote]
  simp only [hhead, hready, hnew, if_pos hdue]

/-- Settles O3, row by row: under the hypotheses of each clause the guards of its row let the write or event through. -/
theorem commandsEnterQueues : Obligations.CommandsEnterQueues := by
  intro f q tail cdone b h rest s hf hq
  exact ⟨exec_doorbellWrite_valid hf hq, fun a cmd => exec_commandFetch_found hq,
    (exec_notBeforeReached q s).trans (onUnit_present (decide_eq_true hq) _), exec_agePromotion_due hq⟩

end Sys2Proof.Machine

/-!
## The control commands (R316, R553): what each row does once the conditions of its guards hold
-/

namespace Sys2Proof.Machine

/-! ### The rows -/

section
variable (q i : Nat) (s : State)

theorem exec_nop : exec (.nop q i) s = execNop q i s := rfl

theorem exec_fence : exec (.fence q i) s = execFence q i s := rfl

theorem exec_wait : exec (.wait q i) s = execWait q i s := rfl

theorem exec_waitTimeout : exec (.waitTimeout q i) s = execWaitTimeout q i s := rfl

theorem exec_signal : exec (.signal q i) s = execSignal q i s := rfl

theorem exec_timer : exec (.timer q i) s = execTimer q i s := rfl

theorem exec_timerExpiry : exec (.timerExpiry q i) s = execTimerExpiry q i s := rfl

theorem exec_report : exec (.report q i) s = execReport q i s := rfl

theorem exec_drainMark : exec (.drainMark q i) s = execDrainMark q i s := rfl

end

variable {q i : Nat} {fl : Flight} {s : State}

/-- A control command without checks of its own has none that fails. -/
theorem noChecks (b : List Byte) : ∀ x ∈ (fun _ : List Byte => ([] : List (Nat × Bool))) b, x.2 = true := List.forall_mem_nil _

/-! ### NOP, FENCE, TIMER and DRAIN_MARK -/

theorem exec_nop_live (hlive : s.Live q i 0 fl) (hzero : reservedZero 0 fl) : exec (.nop q i) s = .next (s.endFlight q i 0 0) := by
  rw [exec_nop, execNop, control_of_live hlive hzero _ (noChecks fl.bytes)]

theorem exec_fence_alone (hlive : s.Live q i 1 fl) (hzero : reservedZero 1 fl) (hscope : byteAt fl.bytes 32 = 2 ∨ byteAt fl.bytes 32 = 3)
    (halone : s.earlierInFlight fl = false) : exec (.fence q i) s = .next (s.endFlight q i 0 0) := by
  rw [exec_fence, execFence, control_of_live hlive hzero _ (by simpa using hscope), if_neg (by simp [halone])]

theorem exec_timer_reached (hlive : s.Live q i 4 fl) (hzero : reservedZero 4 fl) (hdue : fieldAt fl.bytes 32 8 ≤ s.beat) :
    exec (.timer q i) s = .next (s.endFlight q i 0 0) := by
  rw [exec_timer, execTimer, control_of_live hlive hzero _ (noChecks fl.bytes), if_pos hdue]

theorem exec_timerExpiry_reached (hlive : s.Live q i 4 fl) (hzero : reservedZero 4 fl) (hdue : fieldAt fl.bytes 32 8 ≤ s.beat) :
    exec (.timerExpiry q i) s = .next (s.endFlight q i 0 0) := by
  rw [exec_timerExpiry, execTimerExpiry, control_of_live hlive hzero _ (noChecks fl.bytes), if_pos hdue]

theorem exec_drainMark_drained (hlive : s.Live q i 6 fl) (hzero : reservedZero 6 fl)
    (hdrained : ∀ g ∈ s.flights, g.queue = q → g.core = (s.queue q).core → g.stale = false → g.index = i ∨ 2 ^ 31 ≤ modSub 32 fl.index g.index) :
    exec (.drainMark q i) s = .next (s.endFlight q i 0 0) := by
  have hnone : ¬ s.flights.any (fun g => g.queue == q && g.index != i && !g.stale && g.core == (s.queue q).core
      && decide (modSub 32 fl.index g.index < 2 ^ 31)) = true := by
    intro hany
    obtain ⟨g, hg, hp⟩ := List.any_eq_true.mp hany
    simp only [Bool.and_eq_true, beq_iff_eq, bne_iff_ne, Bool.not_eq_true', decide_eq_true_eq] at hp
    obtain ⟨⟨⟨⟨hqueue, hother⟩, hfresh⟩, hcore⟩, hearlier⟩ := hp
    exact (hdrained g hg hqueue hcore hfresh).elim hother (Nat.not_le.mpr hearlier)
  rw [exec_drainMark, execDrainMark, control_of_live hlive hzero _ (noChecks fl.bytes), if_neg hnone]

/-! ### WAIT and SIGNAL -/

theorem exec_wait_holds (hlive : s.Live q i 2 fl) (hzero : reservedZero 2 fl) (hsem : fieldAt fl.bytes 32 4 < 2 ^ 20) (hmode : byteAt fl.bytes 36 < 2)
    (hown : s.semDenied fl.fn (fieldAt fl.bytes 32 4) = false) (hholds : s.waitHolds fl.bytes = true) :
    exec (.wait q i) s = .next (s.endFlight q i 0 0) := by
  rw [exec_wait, execWait, control_of_live hlive hzero _ (by simp [hmode, show fieldAt fl.bytes 32 4 < 1048576 from hsem])]
  simp only [hown, hholds, Bool.false_eq_true, if_false, if_true]

theorem exec_waitTimeout_passed (hlive : s.Live q i 2 fl) (hlimit : fieldAt fl.bytes 48 4 ≠ 0) (hdue : fl.grantTick + fieldAt fl.bytes 48 4 ≤ s.ticks)
    (hwaits : s.waitHolds fl.bytes = false) : exec (.waitTimeout q i) s = .next (s.endFlight q i 9 (s.ticks - fl.grantTick)) := by
  rw [exec_waitTimeout, execWaitTimeout, engine_of_live hlive, if_pos ⟨hlimit, hdue, by simp [hwaits]⟩]

theorem exec_signal_local (hlive : s.Live q i 3 fl) (hzero : reservedZero 3 fl) (hsem : fieldAt fl.bytes 32 4 < 2 ^ 20) (hop : byteAt fl.bytes 36 < 3)
    (hpad : byteAt fl.bytes 39 < 16) (hnode : fieldAt fl.bytes 38 2 = 0xFFF ∨ fieldAt fl.bytes 38 2 = s.node)
    (hown : s.semDenied fl.fn (fieldAt fl.bytes 32 4) = false) :
    exec (.signal q i) s
      = .next (((s.semOp (fieldAt fl.bytes 32 4) (byteAt fl.bytes 36) (fieldAt fl.bytes 40 8)).endFlight q i 0 0).refreshHeads) := by
  rw [exec_signal, execSignal, control_of_live hlive hzero _ (by simp [hop, hpad, show fieldAt fl.bytes 32 4 < 1048576 from hsem])]
  simp only [if_pos hnode, hown, Bool.false_eq_true, if_false]

/-! ### REPORT -/

/-- A sound REPORT of either kind: the checks of its fields hold. -/
theorem reportChecks (halign : fieldAt fl.bytes 32 8 % 64 = 0) (hkind : byteAt fl.bytes 40 < 2) (hgroup : byteAt fl.bytes 41 < 16) :
    ∀ x ∈ (fun b => [(32, fieldAt b 32 8 % 64 == 0), (40, decide (byteAt b 40 < 2)), (41, decide (byteAt b 41 < 16))]) fl.bytes, x.2 = true := by
  simp [halign, hkind, hgroup]

theorem exec_report_queue (hlive : s.Live q i 5 fl) (hzero : reservedZero 5 fl) (halign : fieldAt fl.bytes 32 8 % 64 = 0) (hgroup : byteAt fl.bytes 41 < 16)
    (hkind : byteAt fl.bytes 40 = 0) :
    exec (.report q i) s = .next ((s.runJob fl.fn q i false none [{ reads := [], writes := [(fieldAt fl.bytes 32 8, s.queueReport q)] }]).finish q i {}) := by
  rw [exec_report, execReport, control_of_live hlive hzero _ (reportChecks halign (by omega) hgroup)]
  simp only [if_pos hkind]

theorem exec_report_snapshot {rec_ : List Byte} (hlive : s.Live q i 5 fl) (hzero : reservedZero 5 fl) (halign : fieldAt fl.bytes 32 8 % 64 = 0)
    (hgroup : byteAt fl.bytes 41 < 16) (hkind : byteAt fl.bytes 40 = 1) (hmay : fl.fn = 0 ∨ (s.snapList (byteAt fl.bytes 41)).all (vfOffset fl.fn) = true)
    (hcapture : s.tel.captures.find? (fun x => x.1 == q && x.2.1 == i) = some (q, i, rec_)) :
    exec (.report q i) s = .next ((s.runJob fl.fn q i false none [{ reads := [], writes := [(fieldAt fl.bytes 32 8, rec_)] }]).finish q i {}) := by
  have hgranted : ¬ (fl.fn ≠ 0 ∧ (!(s.snapList (byteAt fl.bytes 41)).all (vfOffset fl.fn)) = true) := by
    rintro ⟨hvf, hout⟩
    exact hmay.elim hvf (ne_true_of_eq_false (Bool.not_eq_true' _ |>.mp hout))
  rw [exec_report, execReport, control_of_live hlive hzero _ (reportChecks halign (by omega) hgroup)]
  simp only [hkind, Nat.one_ne_zero, if_false, if_neg hgranted, hcapture]

/-- Settles O2, row by row: a live control command whose fields are sound takes its effect (`control_of_live`), and the condition of its clause chooses it. -/
theorem controlCommandsEnd : Obligations.ControlCommandsEnd := by
  refine ⟨fun q i fl s => ⟨exec_nop_live, exec_fence_alone, exec_wait_holds, fun hlive hzero hdue => ?timers, exec_drainMark_drained⟩,
    fun q i fl s => ⟨exec_waitTimeout_passed, exec_signal_local, exec_report_queue, fun rec_ => exec_report_snapshot⟩⟩
  exact ⟨exec_timer_reached hlive hzero hdue, exec_timerExpiry_reached hlive hzero hdue⟩

end Sys2Proof.Machine

/-!
## Grants and completions (R312, R322, R323, R325): what each row does once the conditions of its guards hold
-/

namespace Sys2Proof.Machine

theorem exec_sorterGrant (s : State) : exec .sorterGrant s = .next s.sorterCycle := rfl

theorem exec_commandComplete (q i m : Nat) (withheld : Bool) (s : State) : exec (.commandComplete q i m withheld) s = execCommandComplete q i m withheld s := rfl

variable {q : Nat} {s : State}

/-! ### The choice (R323, R325) -/

section
variable {es : List (Nat × Queue)} {s1 : State}
variable (hes : s.eligibleQueues = es) (hne : es ≠ []) (hs1 : s1 = if es.length = 1 then s else s.count A.QMG_FULL_CYC)
include hes hne hs1

theorem State.sorterCycle_promoted {t : Nat} (hold : oldestPromotion es = some (t, q)) : s.sorterCycle = (s1.count A.QMG_AGE_PROMO).grantQueue q := by
  obtain ⟨e, more, rfl⟩ := List.exists_cons_of_ne_nil hne
  subst hs1
  simp only [State.sorterCycle, hes, hold, List.isEmpty_iff, List.length_cons, Nat.add_eq_right, List.length_eq_zero_iff]

theorem State.sorterCycle_roundRobin {o : Sorter} (hnone : oldestPromotion es = none) (hchoice : s1.arbitrate es = (q, o)) :
    s.sorterCycle = ({ s1 with sorter := o } : State).grantQueue q := by
  obtain ⟨e, more, rfl⟩ := List.exists_cons_of_ne_nil hne
  simp only [List.length_cons, Nat.add_eq_right, List.length_eq_zero_iff] at hs1
  simp only [State.sorterCycle, hes, hnone, List.isEmpty_iff, ← hs1, hchoice]

end

/-! ### The grant (R322) -/

/-- What the Sorter works on: the commands in flight, the queues and the arbiter. -/
def State.sorting (s : State) : List Flight × List (Nat × Queue) × Sorter := (s.flights, s.queues, s.sorter)

theorem State.sorting_count (s : State) (k n : Nat) : (s.count k n).sorting = s.sorting := by rw [State.count_eq_withRegs]; rfl

theorem State.sorting_noteSlip (s : State) (f : Nat) (cmd : List Byte) : (s.noteSlip f cmd).sorting = s.sorting := by
  rw [State.noteSlip]
  split <;> rfl

theorem State.sorting_traceCore (s : State) (c kind queue opcode info : Nat) : (s.traceCore c kind queue opcode info).sorting = s.sorting := by
  rw [State.traceCore, State.trace]
  split
  · rfl
  · dsimp only [State.draw]
    split <;> rfl

/-- Queue `q` without its head `h`, which is in flight: a grant before the heads are looked at again. -/
def State.grantHead (s : State) (q : Nat) (h : Fetched) (rest : List Fetched) : State :=
  let s1 := (s.setQueue q { s.queue q with fetched := rest }).count A.QMG_GRANTS
  let s2 := { s1 with
    flights := s1.flights ++ [s.newFlight q (s.queue q) h]
    sorter := { s1.sorter with lastGrant := some (q, h.index) } }
  (s2.noteSlip (s.fnOfQueue q) h.bytes).traceCore (s.queue q).core 0x01 q (byteAt h.bytes 0) (h.index % 65536)

variable {h : Fetched} {rest : List Fetched}

theorem State.grantQueue_head (hhead : (s.queue q).fetched = h :: rest) : s.grantQueue q = (s.grantHead q h rest).refreshHeads := by
  simp only [State.grantQueue, hhead, State.grantHead]

theorem State.sorting_grantHead (s : State) (q : Nat) (h : Fetched) (rest : List Fetched) : (s.grantHead q h rest).sorting =
    (s.flights ++ [s.newFlight q (s.queue q) h], (s.setQueue q { s.queue q with fetched := rest }).queues, { s.sorter with lastGrant := some (q, h.index) }) := by
  have hcount := State.sorting_count (s.setQueue q { s.queue q with fetched := rest }) A.QMG_GRANTS 1
  simp only [State.sorting, Prod.mk.injEq] at hcount
  obtain ⟨hflights, hqueues, hsorter⟩ := hcount
  rw [State.grantHead, State.sorting_traceCore, State.sorting_noteSlip]
  simp only [State.sorting, hflights, hqueues, hsorter, State.flights_setQueue, State.sorter_setQueue]

/-- Settles O4: the Sorter's choice is the oldest promotion, or the arbiter's (`State.sorterCycle_promoted`, `State.sorterCycle_roundRobin`), and a grant
moves the head of its queue into flight (`State.sorting_grantHead`). -/
theorem grantsAndCompletions : Obligations.GrantsAndCompletions := by
  intro q i m withheld fl s
  refine ⟨fun es s1 hes hne hs1 => ⟨fun t hold => ?promoted, fun o hnone hchoice => ?roundRobin⟩, fun h rest hhead => ?grant, fun hfl hended hidle => ?complete⟩
  case promoted => rw [exec_sorterGrant, State.sorterCycle_promoted hes hne hs1 hold]
  case roundRobin => rw [exec_sorterGrant, State.sorterCycle_roundRobin hes hne hs1 hnone hchoice]
  case grant =>
    have hsorting := State.sorting_grantHead s q h rest
    simp only [State.sorting, Prod.mk.injEq] at hsorting
    obtain ⟨hflights, hqueues, hsorter⟩ := hsorting
    exact ⟨s.grantHead q h rest, State.grantQueue_head hhead, hflights, hqueues, congrArg Sorter.lastGrant hsorter⟩
  case complete =>
    rw [exec_commandComplete, execCommandComplete, hfl]
    simp only [hended, hidle, beq_self_eq_true, Bool.and_self, if_true]

end Sys2Proof.Machine

/-!
## Cancels, queue actions and registers of the queue manager (R309, R327, R331, R333, R336): what each row does once the conditions of its guards hold
-/

namespace Sys2Proof.Machine

/-! ### The rows -/

section
variable (f q core val : Nat) (s : State)

theorem exec_qmgCancel (index : Nat) (from_ same : Bool) : exec (.qmgCancel f q index from_ same) s = execQmgCancel f q index from_ same s := rfl

theorem exec_queueEnable : exec (.queueEnable f core) s = onUnit (decide (f < 512)) (s.queueAction f 0 core (fun t q => t.enableOn f core q)) := rfl

theorem exec_queuePause : exec (.queuePause f) s = onUnit (decide (f < 512)) (s.queueAction f 1 0 (fun t q => t.pauseOn f q)) := rfl

theorem exec_queueResume : exec (.queueResume f) s = onUnit (decide (f < 512)) (s.queueAction f 2 0 (fun t q => t.resumeOn f q)) := rfl

theorem exec_queueDisable : exec (.queueDisable f) s = onUnit (decide (f < 512)) (s.queueAction f 3 0 (fun t q => t.disableOn f q)) := rfl

theorem exec_queueReset : exec (.queueReset f) s = onUnit (decide (f < 512)) (s.queueAction f 4 0 (fun t q => t.resetOn f q)) := rfl

theorem exec_migrate : exec (.migrate f core) s = onUnit (decide (f < 512)) (s.queueAction f 5 core (fun t q => t.migrateOn f core q)) := rfl

theorem exec_qmgSemvalWrite : exec (.qmgSemvalWrite f val) s = execQmgSemvalWrite f val s := rfl

theorem exec_qmgSemadd : exec (.qmgSemadd f val) s = execQmgSemadd f val s := rfl

theorem exec_dlqBaseWrite : exec (.dlqBaseWrite f val) s = execDlqBaseWrite f val s := rfl

end

variable {f q core val : Nat} {s : State}

/-! ### QMG_CANCEL (R327) -/

theorem exec_qmgCancel_owned (hf : f < 512) (hreach : s.reaches f = true) (hq : q < Config.queues) (hown : s.ownsQueue f q = true) {index : Nat}
    {from_ same : Bool} (hnear : from_ = true → modSub 32 (s.queue q).tail index ≤ 2 ^ 17) :
    exec (.qmgCancel f q index from_ same) s = .next (((((s.queue q).cancelList index from_).foldl (fun t i => t.cancelOne q i same) s).count
      (A.QMGF f 0x90)).refreshHeads) := by
  have hlist : ¬ (from_ && decide (2 ^ 17 < modSub 32 (s.queue q).tail index)) = true := by
    rw [Bool.and_eq_true, decide_eq_true_eq]
    exact fun hfar => Nat.not_lt.mpr (hnear hfar.1) hfar.2
  rw [exec_qmgCancel, execQmgCancel, onUnit_due (by simp [hf, hq]) hreach, State.cancel, if_neg (by simp [hown])]
  simp only [if_neg hlist]

/-! ### Queue actions (R333, R336) -/

theorem reg_setReg_of_ne {k k' : Nat} (hk : k' ≠ k) (v : Nat) : (s.setReg k v).reg k' = s.reg k' := by
  simp only [State.reg, State.regs_setReg, smapGet_put_other _ _ hk]

/-- QMG_QCMD of a function is no word of a tenant entry: what a function owns does not depend on it. -/
theorem State.ownsQueue_setQcmd (hf : f < 512) (hi lo v : Nat) : (s.setFld (A.QMGF f 8) hi lo v).ownsQueue f q = s.ownsQueue f q := by
  have hreg : (s.setFld (A.QMGF f 8) hi lo v).reg (A.TENANT f 0) = s.reg (A.TENANT f 0) := by
    refine reg_setReg_of_ne ?_ _
    simp only [A.TENANT, A.QMGF]
    omega
  have hbase : (s.setFld (A.QMGF f 8) hi lo v).qbase f = s.qbase f := congrArg (bitsOf · 49 32) hreg
  have hcount : (s.setFld (A.QMGF f 8) hi lo v).qcount f = s.qcount f := congrArg (bitsOf · 18 0) hreg
  simp only [State.ownsQueue, hbase, hcount]

/-- The action that a function wrote acts at once on the queue it selects, with the scheduler core present. -/
theorem queueAction_now (hf : f < 512) (hreach : s.reaches f = true) (hsel : s.selected f = q) (hpresent : s.isAbsent 2 = false) (a c : Nat)
    (run : State → Nat → State) : onUnit (decide (f < 512)) (s.queueAction f a c run) = .next (run s q) := by
  rw [onUnit_present (decide_eq_true hf), State.queueAction, if_neg (by simp [hreach]), if_neg (by simp [hpresent]), hsel]

/-- An action on an owned queue that no other action holds, and that nothing else refuses, acts. -/
theorem State.actOn_accepted (hfree : (s.queue q).busy = false) (hown : s.ownsQueue f q = true) {bad : Queue → Option Nat} (hok : bad (s.queue q) = none)
    (act : Queue → State) : s.actOn f q bad act = (act (s.queue q)).refreshHeads := by
  rw [State.actOn, if_neg (by simp [hfree]), if_neg (by simp [hown])]
  simp only [hok]

section
variable (hfree : (s.queue q).busy = false) (hown : s.ownsQueue f q = true)
include hfree hown

theorem State.enableOn_disabled (hf : f < 512) (hstate : (s.queue q).state = 0) (hcore : s.coreOk f core = true) (hctx : s.contextOk f (s.queue q) = true) :
    s.enableOn f core q
      = ((s.setFld (A.QMGF f 8) 24 16 core).setQueue q { s.queue q with state := 1, core := core, errState := 0 }).refreshHeads := by
  have hown' : (s.setFld (A.QMGF f 8) 24 16 core).ownsQueue f q = true := (State.ownsQueue_setQcmd hf ..).trans hown
  refine State.actOn_accepted (s := s.setFld (A.QMGF f 8) 24 16 core) hfree hown' ?_ _
  change (if (s.queue q).state ≠ 0 then _ else if _ then _ else if (!s.contextOk f (s.queue q)) = true then _ else none) = none
  simp only [hstate, hcore, hctx, ne_eq, not_true_eq_false, Bool.not_true, Bool.false_eq_true, if_false]

theorem State.pauseOn_enabled (hstate : (s.queue q).state = 1) : s.pauseOn f q = (s.setQueue q { s.queue q with state := 2 }).refreshHeads :=
  State.actOn_accepted hfree hown (if_neg (fun hne => hne hstate)) _

theorem State.resumeOn_paused (hstate : (s.queue q).state = 2) : s.resumeOn f q = (s.resume f q (s.queue q)).refreshHeads :=
  State.actOn_accepted hfree hown (if_neg (fun hne => hne hstate)) _

theorem State.disableOn_running (hon : (s.queue q).state ≠ 0) (hstill : (s.queue q).state ≠ 3) :
    s.disableOn f q = ((s.setQueue q { s.queue q with stopping := 1 }).settleQueue q).refreshHeads :=
  State.actOn_accepted hfree hown (if_neg (not_or.mpr ⟨hon, hstill⟩)) _

theorem State.resetOn_owned : s.resetOn f q = (s.resetQueue q).refreshHeads := State.actOn_accepted hfree hown rfl _

theorem State.migrateOn_enabled (hf : f < 512) (hstate : (s.queue q).state = 1) (hcore : s.coreOk f core = true) :
    s.migrateOn f core q = ((s.setFld (A.QMGF f 8) 24 16 core).setQueue q { s.queue q with
      state := 3, epoch := (s.queue q).epoch + 1
      migration := some { oldCore := (s.queue q).core, newCore := core, drained := false, saved := false, since := s.ticks } }).refreshHeads := by
  have hown' : (s.setFld (A.QMGF f 8) 24 16 core).ownsQueue f q = true := (State.ownsQueue_setQcmd hf ..).trans hown
  refine State.actOn_accepted (s := s.setFld (A.QMGF f 8) 24 16 core) hfree hown' ?_ _
  change (if (s.queue q).state ≠ 1 then _ else if _ then _ else none) = none
  simp only [hstate, hcore, ne_eq, not_true_eq_false, Bool.not_true, Bool.false_eq_true, if_false]

end

/-! ### QMG_SEMVAL, QMG_SEMADD and QMG_DLQ_BASE (R309, R331, R336) -/

theorem exec_qmgSemvalWrite_owned (hf : f < 512) (hreach : s.reaches f = true) (hown : s.ownsSem f (s.fld (A.QMGF f 0x58) 19 0) = true) :
    exec (.qmgSemvalWrite f val) s = .next ((s.setSem (s.fld (A.QMGF f 0x58) 19 0) val).refreshHeads) := by
  rw [exec_qmgSemvalWrite, execQmgSemvalWrite, onUnit_passed (decide_eq_true hf) (by simp [hreach]), if_pos hown]

theorem exec_qmgSemadd_owned (hf : f < 512) (hreach : s.reaches f = true) (hown : s.ownsSem f (s.fld (A.QMGF f 0x58) 19 0) = true) :
    exec (.qmgSemadd f val) s = .next ((s.addSem (s.fld (A.QMGF f 0x58) 19 0) val).refreshHeads) := by
  rw [exec_qmgSemadd, execQmgSemadd, onUnit_passed (decide_eq_true hf) (by simp [hreach]), if_pos hown]

theorem exec_dlqBaseWrite_reached (hf : f < 512) (hreach : s.reaches f = true) :
    exec (.dlqBaseWrite f val) s = .next ((((s.setReg (A.QMGF f 0x70) (setBits (setBits 0 63 11 (bitsOf val 63 11)) 4 0 val)).setReg (A.QMGF f 0x78) 0).setLetters f
      { lost := (s.letters f).lost, seq := 0 }).dlqFullBit f) := by
  rw [exec_dlqBaseWrite, execDlqBaseWrite, onUnit_passed (decide_eq_true hf) (by simp [hreach])]

/-- Settles O5: the six actions are one row (`queueAction_now`) with one set of refusals (`State.actOn_accepted`), and the registers' guards hold. -/
theorem queuesControlled : Obligations.QueuesControlled := by
  refine ⟨fun f core q index from_ same s hf hreach => ⟨fun hq hown => exec_qmgCancel_owned hf hreach hq hown, fun hsel hpresent hown hfree => ?actions⟩,
    fun f val s hf hreach => ⟨fun hown => ⟨exec_qmgSemvalWrite_owned hf hreach hown, exec_qmgSemadd_owned hf hreach hown⟩, exec_dlqBaseWrite_reached hf hreach⟩⟩
  have hnow := queueAction_now hf hreach hsel hpresent
  refine ⟨fun hstate hcore hctx => ?enable, fun hstate => ?pause, fun hstate => ?resume, fun hon hstill => ?disable, ?reset, fun hstate hcore => ?migrate⟩
  case enable => rw [exec_queueEnable, hnow, State.enableOn_disabled hfree hown hf hstate hcore hctx]
  case pause => rw [exec_queuePause, hnow, State.pauseOn_enabled hfree hown hstate]
  case resume => rw [exec_queueResume, hnow, State.resumeOn_paused hfree hown hstate]
  case disable => rw [exec_queueDisable, hnow, State.disableOn_running hfree hown hon hstill]
  case reset => rw [exec_queueReset, hnow, State.resetOn_owned hfree hown]
  case migrate => rw [exec_migrate, hnow, State.migrateOn_enabled hfree hown hf hstate hcore]

end Sys2Proof.Machine

/-!
## The end of a migration (R328, R329)
-/

namespace Sys2Proof.Machine

theorem exec_migrationDrainDone (q : Nat) (s : State) : exec (.migrationDrainDone q) s = execMigrationDrainDone q s := rfl

theorem exec_migrationTimeout (q : Nat) (s : State) : exec (.migrationTimeout q) s = execMigrationTimeout q s := rfl

/-- Something of the queue is in flight that no migration has left behind. -/
def State.freshFlight (s : State) (q : Nat) : Bool := s.flights.any (fun f => f.queue == q && !f.stale)

variable {q : Nat} {m : Migration} {s : State}

theorem exec_migrationDrainDone_unbound (hq : q < Config.queues) (hmig : (s.queue q).migration = some m) (hdrained : s.freshFlight q = false)
    (hbind : (s.queue q).rngBind = false) : exec (.migrationDrainDone q) s = .next (s.migrateEnd q m) := by
  rw [State.freshFlight] at hdrained
  rw [exec_migrationDrainDone, execMigrationDrainDone, onUnit_present (decide_eq_true hq), State.drainDone]
  simp only [hmig, hdrained, hbind, Bool.false_eq_true, if_false]

theorem exec_migrationDrainDone_bound (hq : q < Config.queues) (hmig : (s.queue q).migration = some m) (hdrained : s.freshFlight q = false)
    (hbind : (s.queue q).rngBind = true) (hold : s.rngHeldByOther m.oldCore q 0 = false) (hnew : s.rngHeldByOther m.newCore q 0 = false) :
    exec (.migrationDrainDone q) s = .next ((s.migrateRng q m).migrateEnd q m) := by
  rw [State.freshFlight] at hdrained
  rw [exec_migrationDrainDone, execMigrationDrainDone, onUnit_present (decide_eq_true hq), State.drainDone]
  simp only [hmig, hdrained, hbind, hold, hnew, Bool.false_eq_true, or_self, if_false, if_true]

theorem exec_migrationTimeout_due (hq : q < Config.queues) (hmig : (s.queue q).migration = some m)
    (hdue : m.since + zeroAs 50 (s.fld A.QMG_CFG 23 16) ≤ s.ticks) (hbusy : s.freshFlight q = true) (hbind : (s.queue q).rngBind = false) :
    exec (.migrationTimeout q) s = .next (({ s with flights := s.flights.map (fun (f : Flight) =>
      if f.queue == q then { f with stale := true } else f) } : State).migrateEnd q m) := by
  rw [State.freshFlight] at hbusy
  rw [exec_migrationTimeout, execMigrationTimeout, onUnit_present (decide_eq_true hq), State.migrationTimeout]
  simp only [hmig, hbusy, hbind, Nat.not_lt.mpr hdue, Bool.not_true, Bool.false_eq_true, or_self, if_false]

/-- Settles O6, row by row: under the hypotheses of each clause the guards of its row let the event through. -/
theorem migrationsEnd : Obligations.MigrationsEnd := by
  intro q m s hq hmig
  exact ⟨fun hdrained => ⟨exec_migrationDrainDone_unbound hq hmig hdrained, exec_migrationDrainDone_bound hq hmig hdrained⟩,
    exec_migrationTimeout_due hq hmig⟩

end Sys2Proof.Machine

/-!
## Tenant entries and granule actions (R320, R334, R335): what each row does once the conditions of its guards hold
-/

namespace Sys2Proof.Machine

theorem exec_tenantEntryWrite (f off val : Nat) (s : State) : exec (.tenantEntryWrite f off val) s = execTenantEntryWrite f off val s := rfl

theorem exec_assign (f tier clear : Nat) (s : State) : exec (.assign f tier clear) s = execAssign f tier clear s := rfl

theorem exec_query (f tier clear : Nat) (s : State) : exec (.query f tier clear) s = execQuery f tier clear s := rfl

theorem exec_granuleActionDone (s : State) : exec .granuleActionDone s = .next s.granDone := rfl

variable {f tier clear : Nat} {s : State}

/-- The operands of a granule action on a tier are in range. -/
theorem granOperands (hf : f < 512) (htier : tier < 2) (hclear : clear < 2) : (decide (f < 512) && decide (tier < 4) && decide (clear < 2)) = true := by
  simp only [hf, hclear, Nat.lt_of_lt_of_le htier (show 2 ≤ 4 by decide), decide_true, Bool.and_self]

/-- Granule action `g` in progress: the fields of QMG_GRAN_CMD written, BUSY set. -/
def State.granBegun (s : State) (g : GranAction) (clear : Nat) : State :=
  ({ s.granFields g.fn g.tier clear with tiers := { (s.granFields g.fn g.tier clear).tiers with granAction := some g } } : State).setFld A.GRAN_CMD 63 63 1

/-- The granule action that a write asks for, on the range that QMG_GRAN_RANGE names. -/
def State.granAsked (s : State) (query : Bool) (f tier clear : Nat) : GranAction :=
  { zero := clear == 1, tier := tier, first := s.fld A.GRAN_RANGE 18 0, count := s.fld A.GRAN_RANGE 50 32, fn := f, query := query }

section
variable (hreach : s.reaches 0 = true) (hidle : s.tiers.granAction = none)
include hreach hidle

theorem State.granStart_assign (hok : s.assignRefused f tier (s.fld A.GRAN_RANGE 18 0) (s.fld A.GRAN_RANGE 50 32) = false) :
    s.granStart false f tier clear = s.granBegun (s.granAsked false f tier clear) clear := by
  simp only [State.granStart, hreach, hidle, hok, Option.isSome_none, Bool.not_true, Bool.false_eq_true, if_false]
  rfl

theorem State.granStart_query (htier : tier < 2) (hin : s.fld A.GRAN_RANGE 18 0 < tierGranules tier) :
    s.granStart true f tier clear = s.granBegun (s.granAsked true f tier clear) clear := by
  simp only [State.granStart, hreach, hidle, Nat.not_lt.mpr (Nat.le_of_lt_succ htier), Nat.not_le.mpr hin, Option.isSome_none, decide_false,
    Bool.or_self, Bool.not_true, Bool.false_eq_true, if_false, if_true]
  rfl

end

theorem State.granDone_assign {g : GranAction} (hg : s.tiers.granAction = some g) (hassign : g.query = false) :
    s.granDone = (List.range g.count).foldl (fun t j => t.assignGranule g.zero g.tier (g.first + j) g.fn)
      (({ s with tiers := { s.tiers with granAction := none } } : State).setFld A.GRAN_CMD 63 63 0) := by
  simp only [State.granDone, hg, hassign, Bool.false_eq_true, if_false]

theorem State.granDone_query {g : GranAction} (hg : s.tiers.granAction = some g) (hquery : g.query = true) :
    s.granDone = ((({ s with tiers := { s.tiers with granAction := none } } : State).setFld A.GRAN_CMD 63 63 0).setFld A.GRAN_CMD 24 16
      (s.granuleOwner g.tier g.first)).setFld A.GRAN_RANGE 50 32
        (s.runLength g.tier (s.granuleOwner g.tier g.first) (tierGranules g.tier - g.first) g.first) := by
  simp only [State.granDone, hg, hquery, if_true]

/-- Settles O7: with the PF's registers in reach and no action in progress, an action in range begins, and its end does what it asked for. -/
theorem tenancyActs : Obligations.TenancyActs := by
  intro f off val tier clear g s
  refine ⟨fun hf hoff hreach => ?entry, fun hf htier hclear hreach hidle => ⟨fun hok => ?assign, fun hin => ?query⟩, ?done⟩
  case entry => rw [exec_tenantEntryWrite, execTenantEntryWrite, onUnit_due (by simp [hf, hoff]) hreach]
  case assign =>
    rw [exec_assign, execAssign, onUnit_present (granOperands hf htier hclear), State.granStart_assign hreach hidle hok]
    rfl
  case query =>
    rw [exec_query, execQuery, onUnit_present (granOperands hf htier hclear), State.granStart_query hreach hidle htier hin]
    rfl
  case done =>
    rintro hg s1 rfl
    exact ⟨fun hassign => by rw [exec_granuleActionDone, State.granDone_assign hg hassign],
      fun hquery => by rw [exec_granuleActionDone, State.granDone_query hg hquery]⟩

end Sys2Proof.Machine

/-!
## Tenant entries after a cold reset (R321, R334)
-/

namespace Sys2Proof.Machine

/-! ### The rows of the register map for tenant entries -/

/-- The registers at offset `b` of the tenant entries, `n` of them `stride` bytes apart. -/
abbrev tenantDesc (b n stride : Nat) (fs : List Fld) : RegDesc := regA (0x330000 + b) 512 0x80 n stride fs

/-- The registers of the tenant entries, as R334 lays them out. -/
def tenantRegs : List RegDesc :=
  [ tenantDesc 0 1 0 [⟨63, 63, .rws, .zeroElse 1 0, .keep⟩, w1c 62, roW 61 56 0, ⟨49, 32, .rws, .outer 512, .keep⟩, rwsF 18 0 512],
    tenantDesc 8 1 0 [rwsF 52 32 2048, ⟨19, 0, .rws, .outer 2048, .keep⟩],
    tenantDesc 0x10 1 0 [rwsF 63 48 0, rwsF 15 0 1],
    tenantDesc 0x18 2 8 [rwsF 63 0 0x0101010101010101],
    tenantDesc 0x28 1 0 [⟨41, 32, .ro, .zeroElse 512 0, .keep⟩, ⟨18, 0, .ro, .zeroElse 409568 0, .keep⟩],
    tenantDesc 0x40 8 8 [⟨63, 0, .rws, .zeroElse 0xFFFFFFFFFFFFFFFF 0, .keep⟩] ]

/-- The model's register map begins with them. -/
theorem regTable_tenants : ∃ ds, regTable = tenantRegs ++ ds := ⟨_, rfl⟩

theorem regFind_append {l ds : List RegDesc} {k : Nat} {x : RegDesc × Nat × Nat} (h : regFind l k = some x) : regFind (l ++ ds) k = some x := by
  induction l with
  | nil => cases h
  | cons d l ih =>
    cases hd : d.locate k with
    | none =>
      simp only [regFind, hd] at h
      simp only [List.cons_append, regFind, hd, ih h]
    | some ij =>
      simp only [regFind, hd] at h
      simp only [List.cons_append, regFind, hd, h]

/-- What a register of a tenant entry holds after a cold reset (R8). -/
theorem reset_reg_tenant {k i j : Nat} {d : RegDesc} (h : regFind tenantRegs k = some (d, i, j)) : State.reset.reg k = regColdOf d i j % 2 ^ 64 := by
  obtain ⟨ds, hds⟩ := regTable_tenants
  have hfind : regFind regTable k = some (d, i, j) := hds ▸ regFind_append h
  have hreg : State.reset.reg k = (regCold k).toNat := rfl
  simp only [hreg, regCold, hfind, BitVec.toNat_ofNat]

/-! ### Finding a register of a tenant entry -/

section
variable {b n stride o f : Nat} {fs : List Fld} {ds : List RegDesc}
variable (hf : f < 512) (hb : b ≤ o) (ho : o < 0x80)
include hf hb ho

/-- Offset `o` of entry `f` lies `o - b` past the row's register for `f`. -/
theorem tenantDesc_locate : (tenantDesc b n stride fs).locate (A.TENANT f o) =
    if o - b = (if stride = 0 then 0 else min ((o - b) / stride) (n - 1)) * stride
    then some (f, if stride = 0 then 0 else min ((o - b) / stride) (n - 1)) else none := by
  have hbase : ¬ A.TENANT f o < 0x330000 + b := by simp only [A.TENANT]; omega
  have hrow : min ((A.TENANT f o - (0x330000 + b)) / 0x80) (512 - 1) = f := by simp only [A.TENANT]; omega
  have hrest : A.TENANT f o - (0x330000 + b) - f * 0x80 = o - b := by simp only [A.TENANT]; omega
  have hstride : ¬ 0x80 = 0 := by decide
  simp only [RegDesc.locate, tenantDesc, regA, hbase, if_false, hstride, hrow, hrest, hf, and_true]

theorem regFind_tenant_single (hat : o = b) : regFind (tenantDesc b 1 0 fs :: ds) (A.TENANT f o) = some (tenantDesc b 1 0 fs, f, 0) := by
  have hoff : o - b = 0 := by omega
  simp only [regFind, tenantDesc_locate hf hb ho, if_true, Nat.zero_mul, hoff]

theorem regFind_tenant_after (hat : o ≠ b) : regFind (tenantDesc b 1 0 fs :: ds) (A.TENANT f o) = regFind ds (A.TENANT f o) := by
  have hoff : ¬ o - b = 0 := by omega
  simp only [regFind, tenantDesc_locate hf hb ho, if_true, Nat.zero_mul, hoff, if_false]

theorem regFind_tenant_member {j : Nat} (hj : j < n) (hat : o = b + j * 8) :
    regFind (tenantDesc b n 8 fs :: ds) (A.TENANT f o) = some (tenantDesc b n 8 fs, f, j) := by
  have hoff : o - b = j * 8 := by omega
  have hidx : min (j * 8 / 8) (n - 1) = j := by omega
  have hstride : ¬ 8 = 0 := by decide
  simp only [regFind, tenantDesc_locate hf hb ho, hstride, if_false, hoff, hidx, if_true]

theorem regFind_tenant_past (hpast : b + n * 8 ≤ o) (hn : 0 < n) : regFind (tenantDesc b n 8 fs :: ds) (A.TENANT f o) = regFind ds (A.TENANT f o) := by
  have hidx : ¬ o - b = min ((o - b) / 8) (n - 1) * 8 := by omega
  have hstride : ¬ 8 = 0 := by decide
  simp only [regFind, tenantDesc_locate hf hb ho, hstride, if_false, hidx]

end

/-! ### The words of an entry (R321, R334) -/

/-- The cold reset values of the fields `fs` laid over the word `n`. -/
def coldOver (fs : List Fld) (n i j : Nat) : Nat := fs.foldl (fun n x => setBits n x.hi x.lo (x.cold.value i j)) n

theorem regColdOf_regA (base n1 s1 n2 s2 : Nat) (fs : List Fld) (i j : Nat) : regColdOf (regA base n1 s1 n2 s2 fs) i j = coldOver fs 0 i j := rfl

theorem ResetV.value_num (n i j : Nat) : (ResetV.num n).value i j = n := rfl

theorem coldOver_nil (n i j : Nat) : coldOver [] n i j = n := by rw [coldOver, List.foldl_nil]

/-- Setting a field of a word whose bits up to the field's top are zero adds the field's value in its place. -/
theorem setBits_top {n hi lo : Nat} (hz : n % 2 ^ (hi + 1) = 0) (hlo : lo ≤ hi) (v : Nat) : setBits n hi lo v = n + v % 2 ^ (hi + 1 - lo) * 2 ^ lo := by
  have hlow : n % 2 ^ lo = 0 := Nat.mod_eq_zero_of_dvd (Nat.dvd_trans (Nat.pow_dvd_pow 2 (by omega)) (Nat.dvd_of_mod_eq_zero hz))
  rw [setBits, hlow, Nat.div_mul_cancel (Nat.dvd_of_mod_eq_zero hz), Nat.zero_add, Nat.add_comm]

/-- Fields listed from the top of a word down each add their value in their place. -/
theorem coldOver_cons {n hi lo : Nat} (hz : n % 2 ^ (hi + 1) = 0) (hlo : lo ≤ hi) (acc : Acc) (cold : ResetV) (warm : WarmV) (fs : List Fld) (i j : Nat) :
    coldOver (⟨hi, lo, acc, cold, warm⟩ :: fs) n i j = coldOver fs (n + cold.value i j % 2 ^ (hi + 1 - lo) * 2 ^ lo) i j := by
  rw [coldOver, List.foldl_cons, setBits_top hz hlo, coldOver]

section
variable {f j : Nat} (hf : f < 512)
include hf

/-- Word 0: ENABLE for the physical function alone, QBASE 512 f and QCOUNT 512. -/
theorem reset_tenantQueues : State.reset.reg (A.TENANT f 0) = (if f = 0 then 2 ^ 63 else 0) + 512 * f * 2 ^ 32 + 512 := by
  rw [reset_reg_tenant (regFind_tenant_single hf (Nat.le_refl _) (by decide) rfl), regColdOf_regA]
  simp (disch := omega) only [w1c, roW, rwsF, coldOver_cons, coldOver_nil, ResetV.value]
  split <;> omega

/-- Word 1: SEM_COUNT 2048 and SEM_BASE 2048 f. -/
theorem reset_tenantSems : State.reset.reg (A.TENANT f 8) = 2048 * 2 ^ 32 + 2048 * f := by
  rw [reset_reg_tenant ((regFind_tenant_after hf (by decide) (by decide) (by decide)).trans (regFind_tenant_single hf (Nat.le_refl _) (by decide) rfl)), regColdOf_regA]
  simp (disch := omega) only [rwsF, coldOver_cons, coldOver_nil, ResetV.value]
  omega

/-- Word 2: PKEY 0 and WEIGHT 1. -/
theorem reset_tenantKey : State.reset.reg (A.TENANT f 0x10) = 1 := by
  rw [reset_reg_tenant ((regFind_tenant_after hf (by decide) (by decide) (by decide)).trans <|
    (regFind_tenant_after hf (by decide) (by decide) (by decide)).trans <| regFind_tenant_single hf (Nat.le_refl _) (by decide) rfl), regColdOf_regA]
  have hkey := ResetV.value_num 0 f 0
  have hweight := ResetV.value_num 1 f 0
  simp (disch := omega) only [rwsF, coldOver_cons, coldOver_nil]
  omega

/-- Words 3 and 4: every branch group weighs 1. -/
theorem reset_tenantGroups (hj : j < 2) : State.reset.reg (A.TENANT f (0x18 + j * 8)) = 0x0101010101010101 := by
  rw [reset_reg_tenant ((regFind_tenant_after hf (by omega) (by omega) (by omega)).trans <|
    (regFind_tenant_after hf (by omega) (by omega) (by omega)).trans <| (regFind_tenant_after hf (by omega) (by omega) (by omega)).trans <|
    regFind_tenant_member hf (by omega) (by omega) hj rfl), regColdOf_regA]
  have hweights := ResetV.value_num 0x0101010101010101 f j
  simp (disch := omega) only [rwsF, coldOver_cons, coldOver_nil]
  omega

/-- The core mask: every core is the physical function's. -/
theorem reset_tenantCores (hj : j < 8) : State.reset.reg (A.TENANT f (0x40 + j * 8)) = if f = 0 then 2 ^ 64 - 1 else 0 := by
  rw [reset_reg_tenant ((regFind_tenant_after hf (by omega) (by omega) (by omega)).trans <|
    (regFind_tenant_after hf (by omega) (by omega) (by omega)).trans <| (regFind_tenant_after hf (by omega) (by omega) (by omega)).trans <|
    (regFind_tenant_past hf (by omega) (by omega) (by omega) (by omega)).trans <| (regFind_tenant_after hf (by omega) (by omega) (by omega)).trans <|
    regFind_tenant_member hf (by omega) (by omega) hj rfl), regColdOf_regA]
  simp (disch := omega) only [coldOver_cons, coldOver_nil, ResetV.value]
  split <;> omega

theorem reset_fnEnabled : State.reset.fnEnabled f = decide (f = 0) := by
  have htop : State.reset.fld (A.TENANT f 0) 63 63 = if f = 0 then 1 else 0 := by
    rw [State.fld, reset_tenantQueues hf, bitsOf]
    split <;> omega
  rw [State.fnEnabled, htop]
  split
  case isTrue h0 => rw [decide_eq_true h0, beq_self_eq_true]
  case isFalse h0 => rw [decide_eq_false h0]; rfl

theorem reset_ownsCore {c : Nat} (hc : c < 512) : State.reset.ownsCore f c = decide (f = 0) := by
  have hmask : bitOf (State.reset.reg (A.TENANT f (0x40 + 8 * (c / 64)))) (c % 64) = (if f = 0 then 2 ^ 64 - 1 else 0).testBit (c % 64) := by
    rw [Nat.mul_comm 8, reset_tenantCores hf (by omega), Nat.testBit_eq_decide_div_mod_eq]
    rfl
  rw [State.ownsCore, hmask]
  split
  case isTrue h0 => rw [Nat.testBit_two_pow_sub_one, decide_eq_true h0, decide_eq_true (by omega)]
  case isFalse h0 => rw [Nat.zero_testBit, decide_eq_false h0]

end

/-- Settles O56: each word of an entry is the register map's (`reset_reg_tenant`), and the fields are read off the words. -/
theorem tenantsAfterColdReset : Obligations.TenantsAfterColdReset := by
  have hpf : 0 < 512 := by decide
  refine ⟨(reset_fnEnabled hpf).trans (decide_eq_true rfl), fun c hc => (reset_ownsCore hpf hc).trans (decide_eq_true rfl), fun a => rfl,
    fun f hf => ?entry, fun f hpos hf => ?vf⟩
  case entry =>
    have hqueues := reset_tenantQueues hf
    have hsems := reset_tenantSems hf
    have hkey := reset_tenantKey hf
    refine ⟨?_, ?_, ?_, ?_, ?_, reset_tenantGroups (j := 0) hf (by decide), reset_tenantGroups (j := 1) hf (by decide), ?_⟩
    · rw [State.qbase, State.fld, hqueues, bitsOf]; split <;> omega
    · rw [State.qcount, State.fld, hqueues, bitsOf]; split <;> omega
    · rw [State.semBase, State.fld, hsems, bitsOf]; omega
    · rw [State.semCount, State.fld, hsems, bitsOf]; omega
    · rw [State.fld, hkey]; rfl
    · rw [State.pkey, State.fld, hkey]; rfl
  case vf =>
    have h0 : decide (f = 0) = false := decide_eq_false (Nat.ne_of_gt hpos)
    exact ⟨(reset_fnEnabled hf).trans h0, fun c hc => (reset_ownsCore hf hc).trans h0⟩

end Sys2Proof.Machine

/-!
## Training and authentication of the links (R358, R360 to R363, R369, R372, R576): what each row does once the conditions of its guards hold
-/

namespace Sys2Proof.Machine

section
variable {n v lanes : Nat} {p : LinkPar} {s t : State} (hn : n < Config.links)
include hn

/-! ### Training (R358, R369) -/

omit hn in
theorem State.startTraining_booked (hheld : 120 ≤ s.linkTickets n) : s.startTraining n = s.linkTo n 1 := by
  simp only [State.startTraining, decide_eq_true hheld, Bool.true_or, if_true, if_pos hheld]

theorem execLinkSignalDetect_booked (hst : s.linkSt n = 0) (hexp : s.expects n = true) (hretry : (s.link n).retryAt ≤ s.ticks)
    (hheld : 120 ≤ s.linkTickets n) : execLinkSignalDetect n s = .next (s.linkTo n 1) := by
  rw [execLinkSignalDetect, onUnit_passed (decide_eq_true hn) (not_not_intro hst), if_neg (by simp [hexp]), if_neg (Nat.not_lt.mpr hretry),
    State.startTraining_booked hheld]

theorem execTrainingRetry_booked (hst : s.linkSt n = 0) (hexp : s.expects n = true) (hretry : (s.link n).retryAt ≤ s.ticks)
    (hfailed : (s.link n).retryAt ≠ 0) (ht : t = s.modLink n (fun l => { l with retryAt := 0 })) (hheld : 120 ≤ t.linkTickets n) :
    execTrainingRetry n s = .next (t.linkTo n 1) := by
  subst ht
  rw [execTrainingRetry, onUnit_due (decide_eq_true hn) ⟨hst, hexp, hfailed, hretry⟩, State.startTraining_booked hheld]

theorem execTrainingComplete_trained (hst : s.linkSt n = 1) (htime : s.ticks ≤ (s.link n).since + 150000) (hw : widthOf (laneCount lanes) ≠ 0)
    (ht : t = (((s.setLanes n 255 (lanes % 256) (widthOf (laneCount lanes))).freshLink n).linkBook n 930).linkTo n 2) :
    execTrainingComplete n lanes s = .next (if requester n then t.sendSpdm n 1 else t) := by
  subst ht
  rw [execTrainingComplete, State.trainingComplete, onUnit_passed (decide_eq_true hn) (by simp [hst, htime, hw])]

theorem execTrainingTimeout_late (hst : s.linkSt n = 1) (hlate : (s.link n).since + 150000 ≤ s.ticks) :
    execTrainingTimeout n s = .next ((((s.setLanes n 255 0 0).linkBook n 50).linkTo n 0).modLink n (fun l => { l with retryAt := s.ticks + 100000 })) := by
  rw [execTrainingTimeout, onUnit_due (decide_eq_true hn) ⟨hst, hlate⟩]

end
/-- Settles O9, row by row. -/
theorem linksTrain : Obligations.LinksTrain := by
  intro n lanes s hn
  refine ⟨fun hst hexp hretry => ⟨?signal, fun hfailed t => ?again⟩, fun hst htime hw t => ?trained, ?late⟩
  case signal => exact execLinkSignalDetect_booked hn hst hexp hretry
  case again => exact execTrainingRetry_booked hn hst hexp hretry hfailed
  case trained => exact execTrainingComplete_trained hn hst htime hw
  case late => exact execTrainingTimeout_late hn
end Sys2Proof.Machine

/-!
## Authentication of the links (R358, R360 to R363, R372, R576)
-/

namespace Sys2Proof.Machine

section
variable {n k v : Nat} {p : LinkPar} {s t : State} (hn : n < Config.links)
include hn

/-! ### SPDM exchanges (R360 to R362) -/

/-- The security core's verdict on an exchange is one that R361 knows. -/
theorem spdmOperands (hv : v = 0 ∨ v = 1 ∨ v = 3 ∨ v = 9) :
    (decide (n < Config.links) && (v == 0 || v == 1 || v == 3 || v == 9)) = true := by
  simpa [hn, or_assoc] using hv

section
variable (hst : s.linkSt n = 2) (hcore : s.isAbsent 0 = false)
include hst hcore

theorem execSpdm_failed (hmore : (s.link n).spdm < 6) (hv : v = 1 ∨ v = 3 ∨ v = 9) : execSpdm n v s = .next (s.quarantine n v) := by
  have hbad : v ≠ 0 := by omega
  rw [execSpdm, onUnit_present (spdmOperands hn (.inr hv)), State.spdmReceive]
  simp [hst, hcore, Nat.not_le.mpr hmore, hbad]

/-- Exchange `k` is accepted: the requester sends the next one, the responder its answer, and after the sixth both send LINKPAR. -/
theorem execSpdm_accepted (hk : k = (s.link n).spdm + 1) (hmore : (s.link n).spdm < 6)
    (ht : t = s.setLink n { s.link n with spdm := k, spdmBeat := s.ticks, spdmTwice := false }) :
    execSpdm n 0 s = .next
      (let u := if requester n then (if k < 6 then t.sendSpdm n (k + 1) else t) else t.sendSpdm n (0x10 + k)
       if k = 6 then u.sendLinkpar n else u) := by
  subst hk ht
  rw [execSpdm, onUnit_present (spdmOperands hn (.inl rfl)), State.spdmReceive]
  simp [hst, hcore, Nat.not_le.mpr hmore]

theorem execSpdm_next (hk : k = (s.link n).spdm + 1) (hmore : (s.link n).spdm < 6)
    (ht : t = s.setLink n { s.link n with spdm := k, spdmBeat := s.ticks, spdmTwice := false }) (hnext : k < 6) :
    execSpdm n 0 s = .next (if requester n then t.sendSpdm n (k + 1) else t.sendSpdm n (0x10 + k)) := by
  simp only [execSpdm_accepted hn hst hcore hk hmore ht, if_pos hnext, if_neg (Nat.ne_of_lt hnext)]

theorem execSpdm_sixth (hk : k = (s.link n).spdm + 1) (hmore : (s.link n).spdm < 6)
    (ht : t = s.setLink n { s.link n with spdm := k, spdmBeat := s.ticks, spdmTwice := false }) (hlast : k = 6) :
    execSpdm n 0 s = .next ((if requester n then t else t.sendSpdm n (0x10 + k)).sendLinkpar n) := by
  simp only [execSpdm_accepted hn hst hcore hk hmore ht, if_neg (Nat.not_lt.mpr (Nat.le_of_eq hlast.symm)), if_pos hlast]

section
variable (hreq : requester n = true) (hlate : (s.link n).spdmBeat + 200000 ≤ s.ticks)
include hreq hlate

theorem execSpdmResponseTimeout_again (htwice : (s.link n).spdmTwice = true) : execSpdmResponseTimeout n s = .next (s.quarantine n 1) := by
  rw [execSpdmResponseTimeout, onUnit_passed (decide_eq_true hn) (by simp [hst, hcore, hreq, hlate]), if_pos htwice]

theorem execSpdmResponseTimeout_first (hfirst : (s.link n).spdmTwice = false)
    (ht : t = s.setLink n { s.link n with spdmTwice := true, spdmBeat := s.ticks }) :
    execSpdmResponseTimeout n s = .next (if 6 ≤ (s.link n).spdm then t.sendLinkpar n else t.sendSpdm n ((s.link n).spdm + 1)) := by
  subst ht
  rw [execSpdmResponseTimeout, onUnit_passed (decide_eq_true hn) (by simp [hst, hcore, hreq, hlate]), if_neg (ne_true_of_eq_false hfirst)]

end

/-! ### LINKPAR (R363, R375) -/

theorem execLinkpar_matching (hsix : (s.link n).spdm = 6) (hok : s.linkparBad n p = none)
    (ht : t = ((s.setFld (A.LNK n 8) 63 52 (p.x + s.fabric.dimX * (p.y + s.fabric.dimY * p.z))).setFld (A.LNK n 8) 51 49 p.pos).setFld (A.LNK n 8) 48 46 p.dir) :
    execLinkpar n p s = .next ((t.modLink n (fun l => { l with
      credits := (List.range 6).foldl (fun c q => smapPut (fun _ => 0) c q (poolSize q)) l.credits, starve := [] })).linkTo n
        (if s.fld (A.LNK n 8) 11 8 = 8 then 3 else 4)) := by
  subst ht
  rw [execLinkpar, State.linkpar, onUnit_passed (decide_eq_true hn) (by simp [hst, hcore, hsix]), hok]

end

/-! ### Without the security core, and after 1.5 s (R358, R372, R576) -/

theorem authentication_waits (habsent : s.isAbsent 0 = true) (hv : v = 0 ∨ v = 1 ∨ v = 3 ∨ v = 9) :
    execSpdm n v s = .next s ∧ execSpdmResponseTimeout n s = .next s ∧ execLinkpar n p s = .next s := by
  refine ⟨?exchange, ?timeout, ?linkpar⟩
  case exchange => rw [execSpdm, onUnit_present (spdmOperands hn hv), State.spdmReceive, if_pos (.inr (.inr habsent))]
  case timeout => rw [execSpdmResponseTimeout, onUnit_present (decide_eq_true hn), if_pos (.inr (.inr (.inl habsent)))]
  case linkpar => rw [execLinkpar, State.linkpar, onUnit_due (decide_eq_true hn) (.inr (.inr habsent))]

theorem execAuthTimeout_late (hst : s.linkSt n = 2) (hlate : (s.link n).since + 1500000 ≤ s.ticks) :
    execAuthTimeout n s = .next (s.quarantine n 2) := by
  rw [execAuthTimeout, onUnit_due (decide_eq_true hn) ⟨hst, hlate⟩]

end

/-- Settles O10, row by row: under the hypotheses of each clause the guards of its row let the exchange through; the next exchange and the sixth are one
accepted exchange (`execSpdm_accepted`). -/
theorem linksAuthenticate : Obligations.LinksAuthenticate := by
  intro n v p s hn hst
  refine ⟨fun hcore => ⟨fun hmore => ⟨?failed, fun k hk t ht => ?accepted⟩, fun hreq hlate => ⟨?again, fun hfirst t => ?first⟩,
    fun hsix hok t => ?linkpar⟩, ?waits, ?late⟩
  case failed => exact execSpdm_failed hn hst hcore hmore
  case accepted => exact ⟨execSpdm_next hn hst hcore hk hmore ht, execSpdm_sixth hn hst hcore hk hmore ht⟩
  case again => exact execSpdmResponseTimeout_again hn hst hcore hreq hlate
  case first => exact execSpdmResponseTimeout_first hn hst hcore hreq hlate hfirst
  case linkpar => exact execLinkpar_matching hn hst hcore hsix hok
  case waits => exact authentication_waits hn
  case late => exact execAuthTimeout_late hn hst

end Sys2Proof.Machine

/-!
## Flits (R346, R347, R349): what each row does once the conditions of its guards hold
-/

namespace Sys2Proof.Machine

section
variable {n corr k c a pool : Nat} {rest syms : List Nat} {o : Sorter} {flit : List Byte} {s t : State}

/-! ### Sending (R346, R347, R349) -/

section
variable (hlo : 2 ≤ s.linkSt n) (hhi : s.linkSt n ≤ 4)
include hlo hhi

/-- A link in AUTHENTICATING, UP or DEGRADED is neither down nor QUARANTINED. -/
theorem State.linkSt_carrying : ¬ (s.linkSt n < 2 ∨ 5 < s.linkSt n) ∧ s.linkSt n ≠ 5 := by omega

section
variable (hclock : s.power.clocksOff = false)
include hclock

theorem State.flitTransmit_ctrl (hctrl : (s.link n).ctrl = c :: rest) :
    s.flitTransmit n = (s.setLink n { s.link n with ctrl := rest }).sendFlit n 2 0 0 0 0 0 [BitVec.ofNat 8 c] := by
  obtain ⟨hst, -⟩ := State.linkSt_carrying hlo hhi
  simp only [State.flitTransmit, hst, hclock, hctrl, Bool.false_eq_true, if_false]

section
variable (hretrain : s.fld (A.LNK n 8) 3 3 = 0) (hctrl : (s.link n).ctrl = [])
include hretrain hctrl

theorem State.flitTransmit_replay (hresend : (s.link n).resend = some k) : s.flitTransmit n = s.sendReplay n k := by
  obtain ⟨hst, hopen⟩ := State.linkSt_carrying hlo hhi
  simp only [State.flitTransmit, hst, hclock, hctrl, hopen, hretrain, hresend, Nat.zero_ne_one, Bool.false_eq_true, or_self, if_false]

theorem State.flitTransmit_data (hresend : (s.link n).resend = none) (hroom : (s.link n).replay.length < 256)
    (hpool : (s.link n).choosePool = some (pool, o)) : s.flitTransmit n = s.sendData n pool o := by
  obtain ⟨hst, hopen⟩ := State.linkSt_carrying hlo hhi
  simp only [State.flitTransmit, hst, hclock, hctrl, hopen, hretrain, hresend, Nat.not_le.mpr hroom, hpool, Nat.zero_ne_one, Bool.false_eq_true,
    or_self, if_false]

theorem State.flitTransmit_idle (hresend : (s.link n).resend = none) (hpool : (s.link n).choosePool = none) :
    s.flitTransmit n = s.sendFlit n 0 0 0 0 0 0 [] := by
  obtain ⟨hst, hopen⟩ := State.linkSt_carrying hlo hhi
  simp only [State.flitTransmit, hst, hclock, hctrl, hopen, hretrain, hresend, hpool, Nat.zero_ne_one, Bool.false_eq_true, or_self, if_false, ite_self]

end

end

/-! ### Receiving (R342, R347, R349) -/

/-- An intact flit that breaks no rule is counted and acted on. -/
theorem State.flitReceive_intact (ht : t = ((s.countSymbols n syms).count (A.LNK n 0x50) corr).count (A.LNK n 0x58) 0) (hlen : flit.length = 256)
    (hcrc : (crc32ieee (flit.take 252)).toNat = fieldAt flit 252 4) (hok : t.flitBroken n (fieldAt flit 0 8) = false) :
    s.flitReceive n flit corr 0 syms = t.takeFlit n (fieldAt flit 0 8) (flit.drop 8) := by
  rw [ht] at hok ⊢
  obtain ⟨hst, hopen⟩ := State.linkSt_carrying hlo hhi
  have hwhole : (flit.length == 256 && (crc32ieee (flit.take 252)).toNat == fieldAt flit 252 4) = true := by simp [hlen, hcrc]
  simp only [State.flitReceive, hst, hopen, hwhole, hok, ne_eq, not_true_eq_false, Bool.not_true, decide_false, Bool.or_self, Bool.false_eq_true,
    and_false, if_false, if_true]

end

variable (hn : n < Config.links)
include hn

theorem execNakReceive_named (hnak : (s.link n).nakFrom = some a) : execNakReceive n s = .next ((s.modLink n (fun l => { l with
    nakFrom := none, resend := if l.replay.isEmpty then none else some 0 })).count (A.LNK n 0x68)) := by
  rw [execNakReceive, onUnit_present (decide_eq_true hn), hnak]

theorem execNakRepeat_waiting (hwait : (s.link n).nakWait = true) : execNakRepeat n s = .next (s.modLink n (fun l => { l with nakSend := true })) := by
  rw [execNakRepeat, onUnit_due (decide_eq_true hn) hwait]

end

/-- Settles O11, row by row: what a link sends is chosen in R349's order (`State.flitTransmit_ctrl` to `State.flitTransmit_idle`), and what it receives
intact is acted on. -/
theorem flitsMove : Obligations.FlitsMove := by
  intro n corr flit syms s hn
  have transmits {t : State} (ht : s.flitTransmit n = t) : exec (.flitTransmit n) s = .next t :=
    (onUnit_present (decide_eq_true hn) _).trans (congrArg _ ht)
  have receives {t : State} (ht : s.flitReceive n flit corr 0 syms = t) : exec (.flitReceive n flit corr 0 syms) s = .next t :=
    (onUnit_present (decide_eq_true hn) _).trans (congrArg _ ht)
  refine ⟨fun hlo hhi hretrain hclock => ⟨fun c rest hctrl => ?ctrl, fun hctrl => ⟨fun k hresend => ?replay, fun p o hresend hroom hpool => ?data,
    fun hresend hpool => ?idle⟩⟩, fun hlo hhi t ht hlen hcrc hok => ?received, fun a => ?nak, ?again⟩
  case ctrl => exact transmits (State.flitTransmit_ctrl hlo hhi hclock hctrl)
  case replay => exact transmits (State.flitTransmit_replay hlo hhi hclock hretrain hctrl hresend)
  case data => exact transmits (State.flitTransmit_data hlo hhi hclock hretrain hctrl hresend hroom hpool)
  case idle => exact transmits (State.flitTransmit_idle hlo hhi hclock hretrain hctrl hresend hpool)
  case received => exact receives (State.flitReceive_intact hlo hhi ht hlen hcrc hok)
  case nak => exact execNakReceive_named hn
  case again => exact execNakRepeat_waiting hn

end Sys2Proof.Machine

/-!
## Link failures and LNK_CTL (R358, R359, R364 to R367, R374): what each row does once the conditions of its guards hold
-/

namespace Sys2Proof.Machine

section
variable {n lane lanes p b tried mask w : Nat} {s t : State} (hn : n < Config.links)

/-! ### Retraining (R358, R359) -/

theorem State.retrain_usable (huse : s.usable n = true) (all request : Bool)
    (ht : t = (s.setFld (A.LNK n 8) 3 3 1).modLink n (fun l => { l with
      ctrl := if request then l.ctrl ++ [1] else l.ctrl, allLanes := all, timeBad := s.ticks + 1000000 })) :
    s.retrain n all request = ((t.setFld (A.LNK n 0x10) 2 2 1).count (A.LNK n 0x98)).askSys railLnk 270 none false (.link (36 + n)) := by
  subst ht
  rw [State.retrain, if_neg (by simp [huse])]

/-- A retrain that does not try every lane, and after which a lane is left: the link goes on with the width that the lanes tried give, at most the old. -/
theorem State.retrainComplete_some (hretrain : s.fld (A.LNK n 8) 3 3 = 1) (hup : s.linkUp n = true) (hpart : (s.link n).allLanes = false)
    (htried : tried = 255 - s.fld (A.LNK n 8) 31 24) (hmask : mask = (lanes % 256 &&& tried))
    (hw : w = min (s.fld (A.LNK n 8) 11 8) (widthOf (laneCount mask))) (hleft : w ≠ 0)
    (ht : t = ((s.setLanes n tried mask w).release (.link (36 + n))).setFld (A.LNK n 8) 3 3 0) :
    s.retrainComplete n lanes = ((if w < s.fld (A.LNK n 8) 11 8 then t.setFld (A.LNK n 0x10) 3 3 1 else t).modLink n (fun l => { l with
      resend := if l.replay.isEmpty then none else some 0, allLanes := false, timeBad := s.ticks + 3, sent := 0, resent := 0 })).linkTo n
        (if w = 8 then 3 else 4) := by
  have hgo : ¬ (s.fld (A.LNK n 8) 3 3 = 0 ∨ (!s.linkUp n) = true) := by simp [hretrain, hup]
  subst htried hmask hw
  rw [ht, State.retrainComplete, if_neg hgo]
  simp only [hpart, Bool.false_eq_true, if_false, if_neg hleft]

include hn

theorem execLaneFailure_active (hlane : lane < 8) (hactive : bitOf (s.fld (A.LNK n 8) 23 16) lane = true) :
    execLaneFailure n lane s = .next ((s.setFld (A.LANE n lane 0) 0 0 0).retrain n false true) := by
  rw [execLaneFailure, onUnit_due (by simp [hn, hlane]) hactive]

theorem execRetrainComplete_onLink : execRetrainComplete n lanes s = .next (s.retrainComplete n lanes) := onUnit_present (decide_eq_true hn) _

theorem execSignalLossTimeout_up (hup : s.linkUp n = true) : execSignalLossTimeout n s = .next (s.linkAbsent n) := by
  rw [execSignalLossTimeout, onUnit_due (decide_eq_true hn) hup]

/-! ### Stall and noise (R364, R366, R367) -/

theorem execLinkStall_starved (hpool : (s.link n).starve.find? (fun e => decide (100 ≤ e.2)) = some (p, b)) (hnew : s.fld (A.LNK n 0x10) 8 8 = 0) :
    execLinkStall n s = .next ((((s.setFld (A.LNK n 0x10) 0 0 1).setFld (A.LNK n 0x10) 8 8 1).modLink n (fun l =>
      { l with stallPool := p })).event 5 [(n, 1), (0, 1), (p, 1)]) := by
  rw [execLinkStall, onUnit_present (decide_eq_true hn), hpool]
  simp only [hnew, Nat.zero_ne_one, if_false]

theorem execMgtStallQuarantine_late (hp : p = 6 ∨ p = 7) (hmem : (p, b) ∈ (s.link n).starve) (hon : bitsOf (s.link n).cfg 63 48 ≠ 0)
    (hlate : 1000 * bitsOf (s.link n).cfg 63 48 ≤ b) (hlo : 2 ≤ s.linkSt n) (hhi : s.linkSt n ≤ 4) :
    execMgtStallQuarantine n s = .next (s.quarantine n 7) := by
  have hpool : (s.link n).starve.any (fun e => (e.1 == 6 || e.1 == 7) && decide (1000 * bitsOf (s.link n).cfg 63 48 ≤ e.2)) = true :=
    List.any_eq_true.mpr ⟨(p, b), hmem, by simp [hp, hlate]⟩
  rw [execMgtStallQuarantine, onUnit_due (decide_eq_true hn) ⟨hon, hpool, hlo, hhi⟩]

theorem execLinkNoisy_due (hnoisy : 1000 ≤ (s.link n).noisy) (hnew : s.fld (A.LNK n 0x10) 9 9 = 0) :
    execLinkNoisy n s = .next (((s.setFld (A.LNK n 0x10) 1 1 1).setFld (A.LNK n 0x10) 9 9 1).event 5 [(n, 1), (1, 1), (0, 1)]) := by
  rw [execLinkNoisy, onUnit_due (decide_eq_true hn) ⟨hnoisy, hnew⟩]

theorem execLinkNoisyClear_due (hquiet : 1000 ≤ (s.link n).quiet) (hset : s.fld (A.LNK n 0x10) 9 9 = 1) :
    execLinkNoisyClear n s = .next (s.setFld (A.LNK n 0x10) 9 9 0) := by
  rw [execLinkNoisyClear, onUnit_due (decide_eq_true hn) ⟨hquiet, hset⟩]

/-! ### LNK_CTL (R365, R374) -/

section
variable (hreach : s.reaches 0 = true)
include hreach

theorem execRetrain_reached : execRetrain n s = .next (s.retrain n true true) := by
  rw [execRetrain, onUnit_due (decide_eq_true hn) hreach]

theorem execRelease_quarantined (hst : s.linkSt n = 5) (ht : t = (s.setFld (A.LNK n 8) 63 46 0).setFld (A.LNK n 8) 39 32 0) :
    execRelease n s = .next ((if t.esc.waiting.any (fun x => decide (x.owner = .link n)) then t else t.linkBook n 1200).linkTo n 1) := by
  subst ht
  rw [execRelease, onUnit_due (decide_eq_true hn) hreach, State.releaseLink, if_neg (not_not_intro hst)]

theorem execDisable_on (hst : s.linkSt n ≠ 0) : execDisable n 1 s = .next ((s.setFld (A.LNK n 0) 1 1 1).linkAbsent n) := by
  rw [execDisable, onUnit_due (by simp [hn]) hreach, State.disableLink]
  simp only [if_true, if_neg hst]

theorem execDisable_off (hheld : s.fld (A.LNK n 0) 1 1 = 1) (ht : t = s.setFld (A.LNK n 0) 1 1 0) (hexp : t.expects n = true)
    (hfree : t.holds (.link n) = false) : execDisable n 0 s = .next (t.linkBook n 50) := by
  subst ht
  have hbook : s.fld (A.LNK n 0) 1 1 = 1 ∧ (s.setFld (A.LNK n 0) 1 1 0).expects n = true ∧ (!(s.setFld (A.LNK n 0) 1 1 0).holds (.link n)) = true :=
    ⟨hheld, hexp, by rw [hfree]; rfl⟩
  rw [execDisable, onUnit_due (by simp [hn]) hreach, State.disableLink]
  simp only [Nat.zero_ne_one, if_false, if_pos hbook]

end

end

/-- Settles O12, row by row: under the hypotheses of each clause the guards of its row let the event or the write through. -/
theorem linkTroubleAndControl : Obligations.LinkTroubleAndControl := by
  refine ⟨fun n lane lanes p b s hn => ⟨?lane, fun hretrain hup hpart tried mask w htried hmask hw hleft t ht => ?retrained, ?signal, ?stall, ?management,
    ?noisy, ?quiet⟩, fun n s hn hreach => ⟨fun huse t ht => ?retrain, fun hst t => ?release, ?disable, fun hheld t => ?enable⟩⟩
  case lane => exact execLaneFailure_active hn
  case retrained => exact (execRetrainComplete_onLink hn).trans (congrArg _ (State.retrainComplete_some hretrain hup hpart htried hmask hw hleft ht))
  case signal => exact execSignalLossTimeout_up hn
  case stall => exact execLinkStall_starved hn
  case management => exact execMgtStallQuarantine_late hn
  case noisy => exact execLinkNoisy_due hn
  case quiet => exact execLinkNoisyClear_due hn
  case retrain => exact (execRetrain_reached hn hreach).trans (congrArg _ (State.retrain_usable huse true true ht))
  case release => exact execRelease_quarantined hn hreach hst
  case disable => exact execDisable_on hn hreach
  case enable => exact execDisable_off hn hreach hheld

end Sys2Proof.Machine

/-!
## Messages of the fabric (R345, R352 to R356, R396 to R405, R159, R503): each is taken from the inbox and served by its type
-/

namespace Sys2Proof.Machine

section
variable {k ty n : Nat} {m : FabMsg} {s : State}

/-- A message of type `ty` at place `k` of the inbox is taken from it. -/
theorem State.takeMsg_arrived (h : s.Arrived k ty n m) : s.takeMsg k ty = some (n, m, s.withoutMsg k) := by
  obtain ⟨hat, hty⟩ := h
  simp only [State.takeMsg, hat, if_pos hty, State.withoutMsg]

/-- The row of message type `ty` serves the message. -/
theorem State.onMsg_arrived (h : s.Arrived k ty n m) (f : State → Nat → FabMsg → State) : s.onMsg k ty f = .next (f (s.withoutMsg k) n m) := by
  simp only [State.onMsg, State.takeMsg_arrived h]

theorem execPower_open (h : s.Arrived k 0x32 n m) (hopen : s.held = false) : execPower k s = .next ((s.withoutMsg k).powerMessage m) := by
  rw [execPower, if_neg (ne_true_of_eq_false hopen), State.onMsg_arrived h]

theorem execMessageForward_at {k0 c0 : Nat} (hat : s.fabric.forward[k]? = some (k0, c0, m)) : execMessageForward k s =
    .next (({ s with fabric := { s.fabric with forward := s.fabric.forward.eraseIdx k } } : State).transmit m k0 c0) := by
  simp only [execMessageForward, hat]

end

/-- Settles O13: every row of a message is one row (`State.onMsg_arrived`) at its type; POWER also asks whether outputs are held. -/
theorem messagesServed : Obligations.MessagesServed := by
  intro k n m s
  refine ⟨?rd, ?wr, ?sig, ?void, ?rddata, ?wrack, ?sigack, ?data, ?pmk, ?ack, ?ready, ?ctrl, ?spot, ?verdict, ?decision, ?power, ?forward⟩
  case power => exact execPower_open
  case forward => exact fun k0 c0 => execMessageForward_at
  all_goals exact fun h => State.onMsg_arrived h _

end Sys2Proof.Machine

/-!
## Requests that leave the device (R354, R604, R606): how each ends
-/

namespace Sys2Proof.Machine

section
variable {tag status dst len : Nat} {data : List Byte} {r : RemoteReq} {s t : State}

section
variable (hreq : s.findRequest false tag = some r) (hlate : r.since + 1000 ≤ s.ticks) (ht : t = s.dropRequest false tag)
include hreq hlate ht

theorem execRemoteRequestTimeout_core {c id : Nat} (hkind : r.kind = .core c id) :
    execRemoteRequestTimeout tag s = .next (t.coreAnswer c id none (some (9, s.ticks - r.since))) := by
  simp only [ht, execRemoteRequestTimeout, hreq, Nat.not_lt.mpr hlate, if_false, hkind]

theorem execRemoteRequestTimeout_void (hkind : r.kind = .void) : execRemoteRequestTimeout tag s = .next (t.answered r.queue r.index none) := by
  simp only [ht, execRemoteRequestTimeout, hreq, Nat.not_lt.mpr hlate, if_false, hkind]

/-- A request that is neither a core's nor a VOID, by the two hypotheses that decide the match, ends its command. -/
theorem execRemoteRequestTimeout_command (hcore : ∀ c id : Nat, r.kind ≠ .core c id) (hvoid : r.kind ≠ .void) :
    execRemoteRequestTimeout tag s = .next (t.answered r.queue r.index (some (9, s.ticks - r.since, false))) := by
  simp only [ht, execRemoteRequestTimeout, hreq, Nat.not_lt.mpr hlate, if_false]

end

section
variable (hreq : s.findRequest true tag = some r) (ht : t = s.dropRequest true tag)
include hreq ht

section
variable (hkind : r.kind = .read dst len)
include hkind

theorem execHostCompletion_data (hlen : len ≤ data.length) :
    execHostCompletion tag 0 false data s = .next ((t.fetched r.queue r.index dst (data.take len)).answered r.queue r.index none) := by
  simp only [ht, execHostCompletion, hreq, hkind, Nat.not_lt.mpr hlen, ne_eq, not_true_eq_false, Bool.false_eq_true, and_false, if_false]

theorem execHostCompletion_error (hstatus : status ≠ 0) :
    execHostCompletion tag status false data s = .next (t.answered r.queue r.index (some (7, r.addr, false))) := by
  simp only [ht, execHostCompletion, hreq, hkind, hstatus, ne_eq, not_false_eq_true, false_and, if_false, if_true]

theorem execHostCompletion_poisoned :
    execHostCompletion tag 0 true data s = .next (t.answered r.queue r.index (some (3, r.addr, false))) := by
  simp only [ht, execHostCompletion, hreq, hkind, Bool.not_true, Bool.false_eq_true, false_and, and_false, ne_eq, not_true_eq_false, if_false, if_true]

end

theorem execHostCompletionTimeout_late (hlate : r.since + (s.fnPcie 0).cplTimeout ≤ s.ticks) :
    execHostCompletionTimeout tag s = .next (t.answered r.queue r.index (some (9, s.ticks - r.since, false))) := by
  simp only [ht, execHostCompletionTimeout, hreq, Nat.not_lt.mpr hlate, if_false]

end

end

/-- Settles O14: a late remote request ends by what waits for it, a host request by its completion's status and poison, or at its timeout. -/
theorem outsideRequestsEnd : Obligations.OutsideRequestsEnd := by
  intro tag status dst len data r s
  refine ⟨fun hreq hlate t ht => ⟨fun c id => ?core, ?void, ?command⟩,
    fun hreq t ht => ⟨fun hkind => ⟨?data, ?error, ?poison⟩, ?late⟩⟩
  case core => exact execRemoteRequestTimeout_core hreq hlate ht
  case void => exact execRemoteRequestTimeout_void hreq hlate ht
  case command => exact execRemoteRequestTimeout_command hreq hlate ht
  case data => exact execHostCompletion_data hreq ht hkind
  case error => exact execHostCompletion_error hreq ht hkind
  case poison => exact execHostCompletion_poisoned hreq ht hkind
  case late => exact execHostCompletionTimeout_late hreq ht

end Sys2Proof.Machine

/-!
## Collectives (R383 to R386, R390, R398, R399, R404, R405): starts, resends and timeouts
-/

namespace Sys2Proof.Machine

section
variable {q i op : Nat} {fl : Flight} {c c1 : Collective} {s s1 s2 t : State}

/-! ### The seven commands -/

/-- A collective command that its engine may work on, with sound fields and not yet running, starts, whatever its opcode. -/
theorem State.collective_of_works (ht : t = s.pruneCols) (hok : colBad fl = none) (hnew : t.findCol q i = none) (hw : t.Works q i op fl) :
    s.collective q i op = .next (t.startCol fl) := by
  rw [ht] at hw hnew ⊢
  rw [State.collective, dispatch_of_works hw _ (by rw [hok, Option.map_none]), hnew]

/-! ### Times (R398, R399, R405) -/

section
variable (hrun : t.findCol q i = some c)
include hrun

theorem State.readyResend_due (hleft : c.sources.filter (fun r => !c.heard.contains r) ≠ []) (hdue : c.readyBeat + t.chunkResend ≤ t.ticks) :
    t.readyResend q i = (t.sendReady c (c.sources.filter (fun r => !c.heard.contains r))).putCol { c with readyBeat := t.ticks } := by
  have hnow : ¬ ((c.sources.filter (fun r => !c.heard.contains r)).isEmpty = true ∨ t.ticks < c.readyBeat + t.chunkResend) := by
    simp only [List.isEmpty_iff, hleft, Nat.not_lt.mpr hdue, or_self, not_false_eq_true]
  simp only [State.readyResend, hrun, if_neg hnow]

theorem State.resendChunks_due {due : ChunkOut → Bool} (hdue : due = (fun o => !o.waits && decide (o.sentBeat + t.chunkResend ≤ t.ticks)))
    (hmore : c.out.any (fun o => due o && decide (zeroAs 2 (t.fld A.COL_CFG 11 8) ≤ o.resends)) = false) :
    t.resendChunks q i = ((c.out.filter due).foldl (fun u o => (u.sendChunk c o).count (A.COL 0x30)) t).putCol
      { c with out := c.out.map (fun o => if due o then { o with resends := o.resends + 1, sentBeat := t.ticks } else o) } := by
  subst hdue
  simp only [State.resendChunks, hrun, hmore, Bool.false_eq_true, if_false]

theorem State.colTimeoutHit_late (hlate : c.since + t.colTimeout c ≤ t.ticks) :
    t.colTimeoutHit q i = (t.sendAborts c).endCol c 9 (colDetail c.algo 0 (t.ticks - c.since) c.awaited) := by
  simp only [State.colTimeoutHit, hrun, Nat.not_lt.mpr hlate, if_false]

end

/-! ### The start (R383 to R390) -/

/-- No range of a list is refused. -/
theorem State.findSome_refused_none {l : List (Nat × Nat)} {f : Nat} {wr : Bool} (hok : ∀ r ∈ l, s.refused f r.1 r.2 wr = none) :
    l.findSome? (fun r => s.refused f r.1 r.2 wr) = none := List.findSome?_eq_none_iff.mpr hok

/-- A sound communicator is one of the function's table (R381). -/
theorem State.comm_inTable {f comm : Nat} (hok : s.commBad f comm = false) : ¬ min 4096 (s.fld (A.COLF f 8) 15 0) ≤ comm := by
  intro hout
  simp only [State.commBad, decide_eq_true hout, Bool.true_or, Bool.true_eq_false] at hok

theorem State.startCol_sound (hc : c = s.newCol fl) (htables : ∀ r ∈ s.colTables fl, s.refused fl.fn r.1 r.2 false = none)
    (hcomm : s.commBad fl.fn (fieldAt fl.bytes 40 4) = false) (hdesc : c.op ≠ 0x66 → c.descBad = none)
    (hreads : ∀ r ∈ c.inputs ++ c.arrays, s.refused fl.fn r.1 r.2 false = none) (hwrites : ∀ r ∈ c.outputs, s.refused fl.fn r.1 r.2 true = none)
    (hop : c.op ≠ 0x65) (hkey : s.mayRemote fl.fn = true) (habort : s.abortHeld c = false) (hseals : s.colCheck c = (s1, none))
    (hc1 : c1 = { c with vecs := s1.colVectors c, levels := c.geo.plan c.op c.algo c.a2a })
    (hs2 : s2 = ({ s1 with col := { s1.col with
      running := s1.col.running ++ [c1], done := s1.col.done.filter (· != (c.fn, c.commId, c.seq)) } } : State).colStatus) :
    s.startCol fl = (((s2.sendReady c1 c1.sources).sendSpots c1).runCol c1 c1.fuel).replayEarly c1 := by
  have hinputs := State.findSome_refused_none (fun r hr => hreads r (List.mem_append_left _ hr))
  have harrays := State.findSome_refused_none (fun r hr => hreads r (List.mem_append_right _ hr))
  have houtputs := State.findSome_refused_none hwrites
  have hsound : ¬ (if c.op = 0x66 then none else c.descBad).isSome = true := by
    split
    case isTrue => exact Bool.false_ne_true
    case isFalse hne => rw [hdesc hne]; exact Bool.false_ne_true
  subst hc
  rw [hs2, hc1, State.startCol, if_neg (State.comm_inTable hcomm), State.findSome_refused_none htables]
  simp only [hcomm, harrays, hsound, hinputs, houtputs, hop, hkey, habort, hseals, Bool.not_true, Bool.false_eq_true, false_and, if_false]

end

/-- Settles O19: the seven rows are one collective command at seven opcodes (`State.collective_of_works`), and a sound start passes every check of
`State.startCol`. -/
theorem collectivesRun : Obligations.CollectivesRun := by
  refine ⟨fun q i fl c s t ht => ⟨fun hok hnew => ?commands, fun hrun => ⟨fun hleft hdue => ?ready, fun due hdue hmore => ?chunks, fun hlate => ?timeout⟩⟩,
    fun fl c c1 s s1 s2 => State.startCol_sound⟩
  case commands => exact ⟨State.collective_of_works ht hok hnew, State.collective_of_works ht hok hnew, State.collective_of_works ht hok hnew,
    State.collective_of_works ht hok hnew, State.collective_of_works ht hok hnew, State.collective_of_works ht hok hnew, State.collective_of_works ht hok hnew⟩
  case ready =>
    have hrow : exec (.colReadyResend q i) s = .next (t.readyResend q i) := by rw [ht]; rfl
    rw [hrow, State.readyResend_due hrun hleft hdue]
  case chunks =>
    have hrow : exec (.chunkResend q i) s = .next (t.resendChunks q i) := by rw [ht]; rfl
    rw [hrow, State.resendChunks_due hrun hdue hmore]
  case timeout =>
    have hrow : exec (.collectiveTimeout q i) s = .next (t.colTimeoutHit q i) := by rw [ht]; rfl
    rw [hrow, State.colTimeoutHit_late hrun hlate]

end Sys2Proof.Machine

/-!
## Device time (R415 to R422): what each row does once the conditions of its guards hold
-/

namespace Sys2Proof.Machine

section
variable {k n ps : Nat} {m : FabMsg} {s t : State}

theorem execTimeSyncSend_due (hdue : s.beatLogic.lastSync + (if s.beatState < 2 then s.acqPeriod else s.ttPeriod) ≤ s.ticks) :
    execTimeSyncSend ps s = .next (((List.range 36).filter s.usable).foldl State.syncLink ((s.phase ps).modBeat (fun b => { b with lastSync := s.ticks }))) := by
  rw [execTimeSyncSend, if_neg (Nat.not_lt.mpr hdue)]

/-! ### TIME messages (R418, R419) -/

section
variable (harr : s.Arrived k 0x31 n m) (hwhole : timeBroken m.data = false) (ht : t = (s.withoutMsg k).phase ps)
include harr hwhole ht

theorem execTimeSyncReceive_sync (hkind : byteAt m.data 0 = 1) : execTimeSyncReceive k ps s = .next (t.sendLocal n 0x31 (timeBytes 2 t.beatState t.beatHops
    (fieldAt m.data 4 4) (fieldAt m.data 8 8, fieldAt m.data 16 4) (t.beat, t.ps) (t.beat, t.ps) t.fabric.origin)) := by
  subst ht
  simp only [execTimeSyncReceive, State.takeMsg_arrived harr, hwhole, hkind, ne_eq, not_true_eq_false, Bool.false_eq_true, if_false]

/-- A REPLY of an ALIGNED partner of the same origin, whose delay is from 20 ns to 2 µs, is a valid sample of a device that is not ALIGNED itself. -/
theorem execTimeReplyReceive_valid {b1 p1 : Nat} {fwd bwd : Int} (hkind : byteAt m.data 0 = 2)
    (hsync : t.beatLogic.syncs.find? (fun x => x.1 == n && x.2.1 == fieldAt m.data 4 4) = some (n, fieldAt m.data 4 4, b1, p1))
    (hfwd : fwd = ((fieldAt m.data 20 8 : Nat) : Int) * psBeat + (fieldAt m.data 28 4 : Nat) - ((b1 : Int) * psBeat + (p1 : Nat)))
    (hbwd : bwd = t.clock - (((fieldAt m.data 32 8 : Nat) : Int) * psBeat + (fieldAt m.data 40 4 : Nat))) (horigin : fieldAt m.data 44 2 = t.fabric.origin)
    (haligned : byteAt m.data 1 = 2) (hlo : 20000 ≤ (fwd + bwd) / 2) (hhi : (fwd + bwd) / 2 ≤ 2000000) (hst : t.beatState ≠ 2) :
    execTimeReplyReceive k ps s = .next ((t.modBeat (fun b => { b with syncs := b.syncs.filter (fun x => x.1 != n) })).validSample n m ((fwd - bwd) / 2)) := by
  have hshort : ¬ (fwd + bwd) / 2 < 20000 := by omega
  have hlong : ¬ 2000000 < (fwd + bwd) / 2 := by omega
  subst ht
  rw [hfwd, hbwd] at hshort hlong ⊢
  simp only [execTimeReplyReceive, State.takeMsg_arrived harr, hwhole, hkind, hsync, horigin, haligned, hshort, hlong, hst, ne_eq, not_true_eq_false,
    Bool.false_eq_true, false_and, or_self, if_false]

end

/-! ### Steering (R416, R422) -/

/-- A device that follows others, in ACQUIRING or ALIGNED and with a target, moves its trim; the integral term is the state's next free value. -/
theorem execTrimUpdate_due {e : Int} {x : Nat} {u : State} (hdue : s.beatLogic.lastTrim + s.ttPeriod ≤ s.ticks) (hfollows : s.isOrigin = false)
    (ht : t = (s.modBeat (fun b => { b with lastTrim := s.ticks })).pathCheck) (hzero : t.beatState ≠ 0) (hhold : t.beatState ≠ 3)
    (htarget : t.target = some e) (hdraw : t.draw = (x, u)) :
    execTrimUpdate s = .next ((u.setReg (A.BEAT 0x20) (unsext 32 (clampInt 6000000 (sext 32 (s.reg (A.BEAT 0x20)) + e * 100000 / (8 * (s.ttPeriod : Int))
      + (Config.freeWord x).toInt)))).setFld (A.BEAT 0x10) 47 32 (unsext 16 (clampInt 32767 (e / 1000)))) := by
  rw [ht] at hzero hhold htarget hdraw
  simp only [execTrimUpdate, Nat.not_lt.mpr hdue, hfollows, hzero, hhold, htarget, hdraw, Bool.false_eq_true, or_self, if_false]

theorem execAcquireTimeout_late (hst : s.beatState = 1) (hlate : s.beatLogic.lastValid + 50000 ≤ s.ticks) : execAcquireTimeout s =
    .next ((((s.modBeat (fun b => { b with samples := [], syncs := [], good := 0 })).setReg (A.BEAT 0x20) 0).setBeatState 0).pathCheck) :=
  if_pos ⟨hst, hlate⟩

end

/-- Settles O27, row by row: a read of BEAT_NOW has no guard, and under the hypotheses of each other clause the guards of its row hold. -/
theorem deviceTimeRuns : Obligations.DeviceTimeRuns := by
  intro k n ps m s t
  refine ⟨rfl, execTimeSyncSend_due, fun harr hwhole ht => ⟨?sync, fun b1 p1 fwd bwd => ?reply⟩, fun e x u => execTrimUpdate_due, execAcquireTimeout_late⟩
  case sync => exact execTimeSyncReceive_sync harr hwhole ht
  case reply => exact execTimeReplyReceive_valid harr hwhole ht

end Sys2Proof.Machine

/-!
## The beat boundary (R412, R414, R551)
-/

namespace Sys2Proof.Machine

section
variable {s : State}

/-- The end of a power-on hour is counted in TEL_LIFE, and leaves the time base alone. -/
theorem State.tickOver_time : s.tickOver.beat = (s.beat + 1) % 2 ^ 64 ∧ s.tickOver.ps = 0 ∧ s.tickOver.ticks = s.ticks + 1 := by
  rw [State.tickOver]
  split <;> exact ⟨rfl, rfl, rfl⟩

theorem execBeatBoundary_powered (hpower : s.boot.pwrGood = true) (htrip : s.power.tripped = false) (r : BeatReading) :
    execBeatBoundary r s = .next (s.tickOver.boundary r) := by
  rw [execBeatBoundary, if_neg (by simp [hpower, htrip])]

theorem execBeatBoundary_down (hdown : s.boot.pwrGood = false ∨ s.power.tripped = true) (r : BeatReading) : execBeatBoundary r s = .next s.tickOver := by
  rw [execBeatBoundary, if_pos (by simpa using hdown)]

end

/-- Settles O29: the time base steps at every boundary, and the rest of the work follows, in the order of `State.boundary`, while the device has power. -/
theorem beatBoundariesPass : Obligations.BeatBoundariesPass := by
  rintro r s t rfl
  obtain ⟨hbeat, hps, hticks⟩ := s.tickOver_time
  exact ⟨hbeat, hps, hticks, fun hpower htrip => ⟨execBeatBoundary_powered hpower htrip r, _, rfl, _, rfl, rfl⟩, fun hdown => execBeatBoundary_down hdown r⟩

end Sys2Proof.Machine

/-!
## Memory, semaphores and seals (R309, R442 to R445, R449): what a command that stores nothing leaves, and what a write makes of bytes and blocks
-/

namespace Sys2Proof.Machine

/-- Settles O48: `storesSomething` lists every command that does not leave memory and the semaphores alone (`exec_mem`). -/
theorem storingNothing : Obligations.StoringNothing := by
  intro c s t hc hst
  have hsame : SameMem s t := exec_mem c hc s t hst
  exact ⟨hsame.byte, hsame.sem⟩

/-! ### Syndromes after a write (R445) -/

/-- The seals list blocks strictly rising and no void one. -/
abbrev Seals.wf (l : List (Nat × W32)) : Prop := smapWf (fun _ => 0xFFFFFFFF#32) l = true

section
variable {a b x : Nat} {bs : List Byte} {s : State}

theorem State.syndrome_setSyndrome (hs : Seals.wf s.seals) (y : W32) : (s.setSyndrome b y).syndrome x = if x = b then y else s.syndrome x :=
  smapGet_put hs b x y

theorem State.seals_count (s : State) (k n : Nat) : (s.count k n).seals = s.seals := by rw [State.count_eq_withRegs]

theorem State.syndrome_count (s : State) (k n : Nat) : (s.count k n).syndrome x = s.syndrome x := by rw [State.syndrome, State.seals_count, State.syndrome]

theorem State.seals_wf_setSyndrome (hs : Seals.wf s.seals) (y : W32) : Seals.wf (s.setSyndrome b y).seals := smapWf_put b y hs

/-- A step over a list of blocks that makes a block of `p` valid, and leaves every other block alone, makes the blocks of `p` in the list valid. -/
theorem State.syndrome_foldl {p : Nat → Prop} [DecidablePred p] {g : State → Nat → State}
    (hg : ∀ t b, Seals.wf t.seals → Seals.wf (g t b).seals ∧ (g t b).syndrome x = if x = b ∧ p b then 0 else t.syndrome x) (l : List Nat)
    (hs : Seals.wf s.seals) : (l.foldl g s).syndrome x = if x ∈ l ∧ p x then 0 else s.syndrome x := by
  induction l generalizing s with
  | nil => simp only [List.foldl_nil, List.not_mem_nil, false_and, if_false]
  | cons b l ih =>
    obtain ⟨hwf, hstep⟩ := hg s b hs
    rw [List.foldl_cons, ih hwf, hstep]
    by_cases hx : x = b
    · subst hx
      by_cases hp : p x <;> simp [hp]
    · simp [hx]

theorem State.syndrome_plainWrite (hs : Seals.wf s.seals) : (s.plainWrite a bs).syndrome x = if x ∈ blocksOf a bs.length then 0 else s.syndrome x := by
  have hstep (t : State) (b : Nat) (ht : Seals.wf t.seals) : Seals.wf ((t.setSyndrome b 0).count (A.SEAL 0x30)).seals
      ∧ ((t.setSyndrome b 0).count (A.SEAL 0x30)).syndrome x = if x = b ∧ True then 0 else t.syndrome x := by
    simp only [State.seals_count, State.syndrome_count, State.syndrome_setSyndrome ht, and_true]
    exact State.seals_wf_setSyndrome ht 0
  have hfold := State.syndrome_foldl hstep (blocksOf a bs.length) (s := s.putBytes a bs) hs
  simp only [and_true] at hfold
  exact hfold

theorem State.syndrome_sealWrite (hs : Seals.wf s.seals) : (s.sealWrite a bs).syndrome x =
    if x ∈ blocksOf a bs.length ∧ a ≤ x ∧ x + 2048 ≤ a + bs.length then 0 else s.syndrome x := by
  refine State.syndrome_foldl (p := fun b => a ≤ b ∧ b + 2048 ≤ a + bs.length) (fun t b ht => ?_) (blocksOf a bs.length) (s := s.putBytes a bs) hs
  split
  case isTrue hwhole =>
    rw [State.syndrome_setSyndrome ht]
    exact ⟨State.seals_wf_setSyndrome ht 0, by simp only [hwhole, and_self, and_true]⟩
  case isFalse hpart =>
    rw [State.seals_count, State.syndrome_count, if_neg (fun h => hpart h.2)]
    exact ⟨ht, rfl⟩

/-! ### The states of a block (R444) -/

theorem State.sealState_valid_iff : s.sealState b = .valid ↔ s.syndrome b = 0 := by
  rw [State.sealState]
  split
  case isTrue h0 => exact iff_of_true rfl h0
  case isFalse h0 => exact iff_of_false (by split <;> decide) h0

theorem State.sealState_void_iff : s.sealState b = .void ↔ s.syndrome b = 0xFFFFFFFF#32 := by
  rw [State.sealState]
  split
  case isTrue h0 => exact iff_of_false (by decide) (by rw [h0]; decide)
  case isFalse =>
    split
    case isTrue h1 => exact iff_of_true rfl h1
    case isFalse h1 => exact iff_of_false (by decide) h1

theorem State.sealState_mismatched_iff : s.sealState b = .mismatched ↔ s.sealState b ≠ .valid ∧ s.sealState b ≠ .void := by
  cases s.sealState b <;> simp

/-- A block whose syndrome is set to 0 in one case, and stays in the other, becomes valid in the one case, and keeps its state in the other. -/
theorem State.sealState_ite {t : State} {c : Prop} [Decidable c] (h : t.syndrome b = if c then 0 else s.syndrome b) :
    t.sealState b = if c then .valid else s.sealState b := by
  split at h
  case isTrue hc => rw [if_pos hc, State.sealState_valid_iff, h]
  case isFalse hc => rw [if_neg hc, State.sealState, h, State.sealState]

theorem State.sealState_plainWrite (hs : Seals.wf s.seals) (hx : x % 2048 = 0) :
    (s.plainWrite a bs).sealState x = if bs ≠ [] ∧ a < x + 2048 ∧ x < a + bs.length then .valid else s.sealState x := by
  have htouched : x ∈ blocksOf a bs.length ↔ bs ≠ [] ∧ a < x + 2048 ∧ x < a + bs.length := by
    rw [mem_blocksOf, ne_eq, List.length_eq_zero_iff, and_congr_right_iff]
    omega
  have hsyn := State.syndrome_plainWrite (a := a) (bs := bs) (x := x) hs
  simp only [htouched] at hsyn
  exact State.sealState_ite hsyn

theorem State.sealState_sealWrite (hs : Seals.wf s.seals) (hx : x % 2048 = 0) :
    (s.sealWrite a bs).sealState x = if a ≤ x ∧ x + 2048 ≤ a + bs.length then .valid else s.sealState x := by
  have hwhole : (x ∈ blocksOf a bs.length ∧ a ≤ x ∧ x + 2048 ≤ a + bs.length) ↔ a ≤ x ∧ x + 2048 ≤ a + bs.length := by
    rw [mem_blocksOf]
    omega
  have hsyn := State.syndrome_sealWrite (a := a) (bs := bs) (x := x) hs
  simp only [hwhole] at hsyn
  exact State.sealState_ite hsyn

/-! ### The stored seal and its check (R444, R447, R449) -/

theorem State.storedSeal_eq_iff (y : W32) : s.storedSeal b = crc32c (s.bytes b 2048) ^^^ y ↔ s.syndrome b = y := BitVec.xor_right_inj _

theorem State.sealState_valid_iff_stored : s.sealState b = .valid ↔ s.storedSeal b = crc32c (s.bytes b 2048) := by
  have hzero : crc32c (s.bytes b 2048) ^^^ (0 : W32) = crc32c (s.bytes b 2048) := BitVec.xor_zero
  rw [State.sealState_valid_iff, ← State.storedSeal_eq_iff, hzero]

theorem State.sealState_void_iff_stored : s.sealState b = .void ↔ s.storedSeal b = crc32c (s.bytes b 2048) ^^^ 0xFFFFFFFF#32 := by
  rw [State.sealState_void_iff, State.storedSeal_eq_iff]

/-- The first check of a block with no bad word fails a job without a failure, unless the block is valid. -/
theorem JobSt.checkBlock_fail {f q i p : Nat} {j : JobSt} (hfail : j.fail = none) (hres : j.st.resolve f a false = .phys p)
    (hseen : j.seen.contains (blockOf p) = false) (hgood : j.st.tiers.badWords.find? (fun w => w / 2048 == blockOf p / 2048) = none) :
    (j.checkBlock f q i true a).fail = none ↔ j.st.sealState (blockOf p) = .valid := by
  simp only [JobSt.checkBlock, hres, hseen, hgood, hfail, Bool.not_true, Bool.false_eq_true, if_false]
  cases j.st.sealState (blockOf p) <;> simp

end

/-- Settles O50: bytes by what a canonical memory reads after a store, seals by what the fold over the blocks touched leaves of each syndrome. -/
theorem writesStoreExactly : Obligations.WritesStoreExactly := by
  intro a x bs s hinv
  obtain ⟨hmem, -, -, -, -, -, -, hseals⟩ := hinv
  exact ⟨State.byte_plainWrite hmem a bs x, State.byte_sealWrite hmem a bs x,
    fun hx => ⟨State.sealState_plainWrite hseals hx, State.sealState_sealWrite hseals hx⟩⟩

/-- Settles O53: the state of a block is its syndrome's, which is the stored seal with the CRC of the contents taken out (`State.storedSeal_eq_iff`). -/
theorem sealStates : Obligations.SealStates := by
  intro s b
  refine ⟨State.sealState_valid_iff_stored, State.sealState_void_iff_stored, ?mismatched, fun f q i a p j hst hfail hres hb hseen hgood => ?check,
    fun a bs hinv hb hbs hlo hhi => ?written⟩
  case mismatched =>
    rw [State.sealState_mismatched_iff, ne_eq, ne_eq, State.sealState_valid_iff_stored, State.sealState_void_iff_stored]
  case check =>
    subst hst hb
    exact JobSt.checkBlock_fail hfail hres hseen hgood
  case written =>
    obtain ⟨-, -, -, -, -, -, -, hseals⟩ := hinv
    rw [State.sealState_plainWrite hseals hb, if_pos ⟨hbs, hlo, hhi⟩]

end Sys2Proof.Machine

/-!
## Writes of the host through BAR2 (R238, R445, R601, R602)
-/

namespace Sys2Proof.Machine

section
variable {f o a n x : Nat} {data : List Byte} {s t : State}

/-! ### The part of a write within one block -/

theorem mem_chunks {c : Nat × Nat} : c ∈ chunks a n ↔ ∃ b ∈ blocksOf a n, (max a b, min (a + n) (b + 2048) - max a b) = c := List.mem_map

/-- The chunks of a range lie in it. -/
theorem chunk_within {c : Nat × Nat} (hc : c ∈ chunks a n) : a ≤ c.1 ∧ c.1 + c.2 ≤ a + n := by
  obtain ⟨b, hb, rfl⟩ := mem_chunks.mp hc
  rw [mem_blocksOf] at hb
  simp only
  omega

/-- The chunks of a range cover it. -/
theorem chunks_cover : (∃ c ∈ chunks a n, c.1 ≤ x ∧ x < c.1 + c.2) ↔ a ≤ x ∧ x < a + n := by
  constructor
  case mp =>
    rintro ⟨c, hc, hlo, hhi⟩
    have hin := chunk_within hc
    omega
  case mpr =>
    intro hx
    have hb : x / 2048 * 2048 ∈ blocksOf a n := mem_blocksOf.mpr (by omega)
    exact ⟨_, mem_chunks.mpr ⟨_, hb, rfl⟩, by simp only; omega⟩

/-- Chunk `c` of a host write of `data` from address `a` on is written: its lines leave the caches, its traffic is counted, its bytes are stored. -/
def State.hostChunk (s : State) (a : Nat) (data : List Byte) (c : Nat × Nat) : State :=
  ((s.purgeRange c.1 c.2).traffic c.1 c.2 true).plainWrite c.1 ((data.drop (c.1 - a)).take c.2)

theorem State.hostChunk_inv (hinv : s.Inv) (c : Nat × Nat) : (s.hostChunk a data c).Inv :=
  (State.plainWrite_keeps _ _ (State.traffic_keeps _ _ _ (State.purgeRange_keeps _ _ (Keeps.refl s)))).inv hinv

theorem State.byte_hostChunk (hinv : s.Inv) {c : Nat × Nat} (hlo : a ≤ c.1) (hhi : c.1 + c.2 ≤ a + data.length) :
    (s.hostChunk a data c).byte x = if c.1 ≤ x ∧ x < c.1 + c.2 then data.getD (x - a) 0 else s.byte x := by
  have hbefore : Keeps s ((s.purgeRange c.1 c.2).traffic c.1 c.2 true) := State.traffic_keeps _ _ _ (State.purgeRange_keeps _ _ (Keeps.refl s))
  have hsame : SameMem s ((s.purgeRange c.1 c.2).traffic c.1 c.2 true) := State.traffic_mem _ _ _ (State.purgeRange_mem _ _ (SameMem.refl s))
  have hlen : ((data.drop (c.1 - a)).take c.2).length = c.2 := by
    rw [List.length_take, List.length_drop]
    omega
  obtain ⟨hmem, -⟩ := hbefore.inv hinv
  rw [State.hostChunk, State.byte_plainWrite hmem, hlen, hsame.byte]
  split
  case isTrue hx =>
    have hat : c.1 - a + (x - c.1) = x - a := by omega
    have hin : x - c.1 < c.2 := by omega
    rw [List.getD_eq_getElem?_getD, List.getElem?_take_of_lt hin, List.getElem?_drop, hat, List.getD_eq_getElem?_getD]
  case isFalse => rfl

theorem State.byte_hostChunks (l : List (Nat × Nat)) (hl : ∀ c ∈ l, a ≤ c.1 ∧ c.1 + c.2 ≤ a + data.length) (hinv : s.Inv) :
    (l.foldl (fun t c => t.hostChunk a data c) s).byte x = if ∃ c ∈ l, c.1 ≤ x ∧ x < c.1 + c.2 then data.getD (x - a) 0 else s.byte x := by
  induction l generalizing s with
  | nil => simp only [List.foldl_nil, List.not_mem_nil, false_and, exists_false, if_false]
  | cons c l ih =>
    obtain ⟨hlo, hhi⟩ := hl c List.mem_cons_self
    rw [List.foldl_cons, ih (fun d hd => hl d (List.mem_cons_of_mem _ hd)) (State.hostChunk_inv hinv c), State.byte_hostChunk hinv hlo hhi]
    by_cases hrest : ∃ d ∈ l, d.1 ≤ x ∧ x < d.1 + d.2
    · rw [if_pos hrest, if_pos (hrest.imp fun d hd => ⟨List.mem_cons_of_mem _ hd.1, hd.2⟩)]
    · simp only [List.mem_cons, or_and_right, exists_or, exists_eq_left, hrest, or_false, if_false]

/-! ### The row -/

/-- A write that is refused, or that waits for a sleeping core, stores nothing. -/
theorem execBar2Write_refused (hf : f < 512) (hreach : s.reaches f = true) (hhit : s.bar2Hit f o data.length = true) (hn : data.length ≤ 512)
    (hbad : s.bar2Bad f (s.bar2Addr f o) data.length true = true ∨ s.bar2Sleeper (s.bar2Addr f o) ≠ none) :
    ∃ t : State, execBar2Write f o data s = .next t ∧ SameMem s t := by
  obtain ⟨-, hfn⟩ := State.reaches_iff.mp hreach
  have hgo : ¬ ((!s.fnPresent f) = true ∨ 512 < data.length ∨ (!s.bar2Hit f o data.length) = true) := by simp [hfn, hhit, hn]
  rw [execBar2Write, onUnit_passed (decide_eq_true hf) hgo]
  refine ⟨_, rfl, ?_⟩
  dsimp only
  split
  case isTrue => exact State.count_mem _ _ (SameMem.refl s)
  case isFalse hok =>
    split
    case h_1 c _ => exact State.coreWake_mem _ _ (SameMem.refl s)
    case h_2 hnone => exact absurd hnone (hbad.resolve_left hok)

end

/-- Settles O51: a granted write is a fold over its chunks (`exec_bar2Write_granted`), which lie in the range and cover it; any other write leaves memory
alone. -/
theorem hostWriteStoresExactly : Obligations.HostWriteStoresExactly := by
  rintro f o a data s hinv hf hreach hhit hn rfl
  by_cases hok : s.bar2Bad f (s.bar2Addr f o) data.length true = false ∧ s.bar2Sleeper (s.bar2Addr f o) = none
  case pos =>
    obtain ⟨hgood, hawake⟩ := hok
    refine ⟨_, exec_bar2Write_granted hf hreach hhit hn hgood hawake, fun _ _ x => ?_, fun hbad => ?_⟩
    · have hfold := State.byte_hostChunks (x := x) (chunks (s.bar2Addr f o) data.length) (fun c hc => chunk_within hc) hinv
      simp only [chunks_cover] at hfold
      exact hfold
    · simp [hgood, hawake] at hbad
  case neg =>
    have hbad : s.bar2Bad f (s.bar2Addr f o) data.length true = true ∨ s.bar2Sleeper (s.bar2Addr f o) ≠ none := by
      rw [Classical.not_and_iff_not_or_not, Bool.not_eq_false] at hok
      exact hok
    obtain ⟨t, hrow, hsame⟩ := execBar2Write_refused hf hreach hhit hn hbad
    exact ⟨t, hrow, fun hgood hawake => absurd ⟨hgood, hawake⟩ hok, fun _ => hsame.byte⟩

end Sys2Proof.Machine

/-!
## Counters (R549)
-/

namespace Sys2Proof.Machine

section
variable {k k' n v : Nat} {s : State}

/-! ### The value of a counter -/

theorem b2n_le_one (b : Bool) : b2n b ≤ 1 := by cases b <;> decide

theorem b2n_eq_one_iff {b : Bool} : b2n b = 1 ↔ b = true := by cases b <;> decide

theorem counterAdd_eq (v n : Nat) : counterAdd v n = b2n (bitOf v 63 || decide (2 ^ 48 ≤ v % 2 ^ 48 + n)) * 2 ^ 63 + (v % 2 ^ 48 + n) % 2 ^ 48 := rfl

theorem counterAdd_lt (v n : Nat) : counterAdd v n < 2 ^ 64 := by
  have hwrap := b2n_le_one (bitOf v 63 || decide (2 ^ 48 ≤ v % 2 ^ 48 + n))
  rw [counterAdd_eq]
  omega

/-- COUNT goes on modulo 2^48. -/
theorem counterAdd_count (v n : Nat) : counterAdd v n % 2 ^ 48 = (v + n) % 2 ^ 48 := by
  rw [counterAdd_eq]
  omega

/-- WRAP stays, and is set when COUNT passes its largest value. -/
theorem counterAdd_wrap (v n : Nat) : bitOf (counterAdd v n) 63 = true ↔ bitOf v 63 = true ∨ 2 ^ 48 ≤ v % 2 ^ 48 + n := by
  have hwrap := b2n_le_one (bitOf v 63 || decide (2 ^ 48 ≤ v % 2 ^ 48 + n))
  have htop : counterAdd v n / 2 ^ 63 % 2 = b2n (bitOf v 63 || decide (2 ^ 48 ≤ v % 2 ^ 48 + n)) := by
    rw [counterAdd_eq]
    omega
  rw [bitOf, htop, beq_iff_eq, b2n_eq_one_iff, Bool.or_eq_true, decide_eq_true_iff]

/-! ### Counting -/

/-- No programmable counter selects an event of the hub, since they lie in the clusters (R552). -/
theorem State.evMatches_hub (hk : k < 0x400000) : s.evMatches k = [] := by
  have hout : decide (0x400000 ≤ k) = false := decide_eq_false (Nat.not_le.mpr hk)
  rw [State.evMatches, List.map_eq_nil_iff, List.filter_eq_nil_iff]
  intro e _
  rw [hout, Bool.false_and, Bool.false_and, Bool.false_and]
  exact Bool.false_ne_true

theorem State.count_hub (hk : k < 0x400000) (n : Nat) : s.count k n = s.setReg k (counterAdd (s.reg k) n) := by
  rw [State.count, State.evMatches_hub hk, List.foldl_nil]

theorem State.reg_count_hub (hs : smapWf regCold s.regs = true) (hk : k < 0x400000) (n : Nat) : (s.count k n).reg k = counterAdd (s.reg k) n := by
  rw [State.count_hub hk, reg_setReg hs, if_pos rfl, Nat.mod_eq_of_lt (counterAdd_lt _ _)]

end

/-- Settles O59: a hub counter moves alone (`State.count_hub`), by `counterAdd`. -/
theorem countersCount : Obligations.CountersCount := by
  intro k n k' s hinv hk _
  obtain ⟨-, hregs, -⟩ := hinv
  rw [State.reg_count_hub hregs hk]
  exact ⟨counterAdd_count _ n, counterAdd_wrap _ n, fun hne => by rw [State.count_hub hk, reg_setReg hregs, if_neg hne]⟩

end Sys2Proof.Machine

/-!
## Interrupt moderation (R608)
-/

namespace Sys2Proof.Machine

section
variable {f v : Nat} {m m1 : MsixVec} {s t : State}

/-- What is written is read back in any map, canonical or not, unless it is the value of an unlisted key. -/
theorem smapGet_put_self {α : Type} [DecidableEq α] {d : Nat → α} (l : List (Nat × α)) {k : Nat} {x : α} (hx : x ≠ d k) :
    smapGet d (smapPut d l k x) k = x := by
  induction l with
  | nil => simp only [smapPut, hx, if_false, smapGet_cons, if_true]
  | cons kv l ih =>
    obtain ⟨k0, y⟩ := kv
    simp only [smapPut, hx, if_false]
    split
    case isTrue => rw [smapGet_cons, if_pos rfl]
    case isFalse =>
      split
      case isTrue => rw [smapGet_cons, if_pos rfl]
      case isFalse hne => rw [smapGet_cons, if_neg (Ne.symm hne), ih]

/-- Vector `m` with one more cause, that arrives at tick `now`. -/
def MsixVec.withCause (m : MsixVec) (now : Nat) : MsixVec :=
  { m with causes := m.causes + 1, firstBeat := if m.causes = 0 then now else m.firstBeat }

/-- A vector with a pending cause is not as PCIe resets it, so the table lists it. -/
theorem State.msixVec_withCause (s : State) (f v : Nat) (m : MsixVec) (now : Nat) : (s.setMsix f v (m.withCause now)).msixVec f v = m.withCause now :=
  smapGet_put_self s.msix (fun h => Nat.succ_ne_zero _ (congrArg MsixVec.causes h))

section
variable (hv : v < vectorCount f) (hfn : s.fnPresent f = true) (hm1 : m1 = (s.msixVec f v).withCause s.ticks)
include hv hfn hm1

theorem State.raiseVector_present : s.raiseVector f v =
    if s.vectorOpen f v then (if zeroAs 1 (s.fld (A.MSIX_MOD f v) 15 0) ≤ (s.msixVec f v).causes + 1 then (s.setMsix f v m1).sendVector f v else s.setMsix f v m1)
    else (s.setMsix f v m1).setMsix f v { m1 with pend := true } := by
  subst hm1
  rw [State.raiseVector, if_neg (Nat.not_le.mpr hv), if_neg (by simp [hfn])]
  rfl

theorem State.raiseVector_sends (hopen : s.vectorOpen f v = true) (hfull : zeroAs 1 (s.fld (A.MSIX_MOD f v) 15 0) ≤ (s.msixVec f v).causes + 1) :
    s.raiseVector f v = ((s.setMsix f v m1).setMsix f v { m1 with causes := 0, firstBeat := 0, pend := false }).send (.msix f v m1.addr m1.data) := by
  rw [State.raiseVector_present hv hfn hm1, if_pos hopen, if_pos hfull, State.sendVector, hm1, State.msixVec_withCause]

theorem State.raiseVector_waits (hopen : s.vectorOpen f v = true) (hmore : (s.msixVec f v).causes + 1 < zeroAs 1 (s.fld (A.MSIX_MOD f v) 15 0)) :
    s.raiseVector f v = s.setMsix f v m1 := by
  rw [State.raiseVector_present hv hfn hm1, if_pos hopen, if_neg (Nat.not_le.mpr hmore)]

theorem State.raiseVector_shut (hshut : s.vectorOpen f v = false) : s.raiseVector f v = (s.setMsix f v m1).setMsix f v { m1 with pend := true } := by
  rw [State.raiseVector_present hv hfn hm1, if_neg (ne_true_of_eq_false hshut)]

end

end

/-- Settles O58: the three cases of a cause at a vector of a present function; the message that leaves has the vector's address and data, which a cause
does not touch. -/
theorem interruptsModerated : Obligations.InterruptsModerated := by
  rintro f v m s hv hfn rfl m1 hm1
  have hcause : m1 = (s.msixVec f v).withCause s.ticks := hm1
  have haddr : m1.addr = (s.msixVec f v).addr := by rw [hm1]
  have hdata : m1.data = (s.msixVec f v).data := by rw [hm1]
  refine ⟨fun hopen hfull => ?sends, State.raiseVector_waits hv hfn hcause, fun hshut => ?shut⟩
  case sends =>
    rw [State.raiseVector_sends hv hfn hcause hopen hfull, haddr, hdata]
    exact ⟨rfl, rfl⟩
  case shut =>
    rw [State.raiseVector_shut hv hfn hcause hshut]
    exact ⟨rfl, rfl⟩

end Sys2Proof.Machine

/-!
## One step (log 1)
-/

namespace Sys2Proof.Machine

/-- Settles O1: the two forms of the queue choose the two cases of a step. -/
theorem stepRunsFront : Obligations.StepRunsFront := ⟨fun _ _ _ => step_front rfl, fun _ => step_idle⟩

/-- Settles O47: an idle step changes nothing; any other takes the command in front, and no command touches the queue (`exec_keeps`). -/
theorem oneCommandLeaves : Obligations.OneCommandLeaves := by
  intro s t ht
  cases hq : s.pending with
  | nil =>
    rw [step_idle hq] at ht
    cases ht
    exact hq
  | cons c rest =>
    rw [step_front hq] at ht
    exact (exec_keeps c (Keeps.refl _) t ht).pending

end Sys2Proof.Machine

/-!
## Test commands (R455, R467)
-/

namespace Sys2Proof.Machine

section
variable {q i a c n : Nat} {fl : Flight} {s : State} {b : List Byte}

/-! ### Their checks -/

theorem mem_reservedBad {os : List Nat} (hzero : ∀ o ∈ os, byteAt b o = 0) : ∀ x ∈ reservedBad b os, x.2 = true := by
  intro x hx
  obtain ⟨o, ho, rfl⟩ := List.mem_map.mp hx
  exact beq_iff_eq.mpr (hzero o ho)

/-- Checks that hold, and reserved bytes that are zero. -/
theorem firstBad_reserved {checks : List (Nat × Bool)} {os : List Nat} (hok : ∀ x ∈ checks, x.2 = true) (hzero : ∀ o ∈ os, byteAt b o = 0) :
    firstBad (checks ++ reservedBad b os) = none :=
  firstBad_eq_none.mpr (fun x hx => (List.mem_append.mp hx).elim (hok x) (mem_reservedBad hzero x))

theorem firstBad_iftRun (hc : fieldAt b 32 2 < Config.cores) (hspare : byteAt b 34 = 0) (hzero : ∀ o ∈ offs 35 63, byteAt b o = 0) :
    firstBad ([(32, decide (fieldAt b 32 2 < Config.cores)), (34, decide (byteAt b 34 < 2))] ++ reservedBad b (offs 35 63)) = none := by
  refine firstBad_reserved ?_ hzero
  simp only [List.forall_mem_cons, hc, hspare, decide_true, Nat.zero_lt_two, List.not_mem_nil, false_implies, implies_true, and_self]

theorem firstBad_sealScan (ha : fieldAt b 32 8 % 2048 = 0) (hn : fieldAt b 40 8 % 2048 = 0) (hzero : ∀ o ∈ offs 48 63, byteAt b o = 0) :
    firstBad ([(32, fieldAt b 32 8 % 2048 == 0), (40, fieldAt b 40 8 % 2048 == 0)] ++ reservedBad b (offs 48 63)) = none := by
  refine firstBad_reserved ?_ hzero
  simp only [List.forall_mem_cons, ha, hn, BEq.rfl, List.not_mem_nil, false_implies, implies_true, and_self]

theorem firstBad_inject (hkind : 1 ≤ byteAt b 32 ∧ byteAt b 32 ≤ 5) (hcore : fieldAt b 48 2 < Config.cores) (hcube : byteAt b 50 < 8)
    (hzero : ∀ o ∈ offs 33 39 ++ offs 51 63, byteAt b o = 0) :
    firstBad ([(32, decide (1 ≤ byteAt b 32) && decide (byteAt b 32 ≤ 5))] ++ reservedBad b (offs 33 39)
      ++ [(48, decide (fieldAt b 48 2 < Config.cores)), (50, !(byteAt b 32 == 2 || byteAt b 32 == 3) || decide (byteAt b 50 < 8))]
      ++ reservedBad b (offs 51 63)) = none := by
  obtain ⟨hlow, hhigh⟩ := List.forall_mem_append.mp hzero
  refine firstBad_reserved ?_ hhigh
  rw [List.forall_mem_append, List.forall_mem_append]
  refine ⟨⟨?_, mem_reservedBad hlow⟩, ?_⟩
  all_goals simp only [List.forall_mem_cons, hkind, hcore, hcube, decide_true, Bool.or_true, Bool.and_self, List.not_mem_nil, false_implies, implies_true, and_self]

/-! ### IFT_RUN and SEAL_SCAN -/

theorem execIftRun_of_inService (hw : s.Works q i 0xF0 fl) (hcore : c = fieldAt fl.bytes 32 2) (hc : c < Config.cores) (hspare : byteAt fl.bytes 34 = 0)
    (hzero : ∀ o ∈ offs 35 63, byteAt fl.bytes o = 0) (hrunning : s.faults.test.any (fun t => t.cmd == some (q, i)) = false)
    (hwaiting : s.faults.waiting.any (fun t => t.cmd == some (q, i)) = false) (hslot : s.slotRetired (c / 16) (s.slotOf c) = false)
    (hhere : s.unavailable c = false) {x : FieldTest} (hx : x = { cluster := c / 16, slot := s.slotOf c, cmd := some (q, i), forced := false }) :
    execIftRun q i s = .next (({ s with faults := { s.faults with waiting := s.insertForced x s.faults.waiting } } : State).forceNext) := by
  have hown : ¬ (0 : Nat) = 1 := by decide
  rw [hcore] at hc hslot hhere hx
  rw [hx, execIftRun, dispatch_of_works hw _ (firstBad_iftRun hc hspare hzero)]
  simp only [hspare, hown, hrunning, hwaiting, hslot, hhere, Bool.false_eq_true, and_false, or_self, if_false]

/-- The seal states that a scan of `n` bytes from `a` meets. -/
def State.sealKinds (s : State) (f a n : Nat) : List SealState :=
  (chunks a n).map (fun c => match s.resolve f c.1 false with
    | .phys p => s.sealState (blockOf p)
    | _ => SealState.valid)

theorem execSealScan_of_allowed (hw : s.Works q i 0xF1 fl) (ha : a = fieldAt fl.bytes 32 8) (hn : n = fieldAt fl.bytes 40 8) (hastart : a % 2048 = 0)
    (hnwhole : n % 2048 = 0) (hzero : ∀ o ∈ offs 48 63, byteAt fl.bytes o = 0) (hok : s.refused fl.fn a n false = none) :
    execSealScan q i s = .next (s.endFlight q i 0
      (((s.sealKinds fl.fn a n).filter (fun k => decide (k = SealState.void))).length * 2 ^ 32
        + ((s.sealKinds fl.fn a n).filter (fun k => decide (k = SealState.mismatched))).length)) := by
  rw [ha] at hastart hok ⊢
  rw [hn] at hnwhole hok ⊢
  rw [execSealScan, dispatch_of_works hw _ (firstBad_sealScan hastart hnwhole hzero)]
  simp only [hok]
  rfl

/-! ### INJECT -/

/-- The injection that INJECT's fields name. -/
def injectionOf (b : List Byte) : Injection :=
  { kind := byteAt b 32, addr := fieldAt b 40 8 / 8 * 8, core := fieldAt b 48 2, cube := byteAt b 50 }

/-- The state with an injection armed. -/
def State.armed (s : State) (x : Injection) : State := { s with faults := { s.faults with armed := s.faults.armed ++ [x] } }

/-- INJECT may act: it is enabled and its fields are legal. -/
def State.Injects (s : State) (q i : Nat) (fl : Flight) : Prop :=
  s.Works q i 0xF2 fl ∧ s.fld A.IFT_CFG 3 3 = 1 ∧ (∀ o ∈ offs 33 39 ++ offs 51 63, byteAt fl.bytes o = 0) ∧ fieldAt fl.bytes 48 2 < Config.cores
    ∧ byteAt fl.bytes 50 < 8

theorem execInject_of_injects (hj : s.Injects q i fl) (hkind : 1 ≤ byteAt fl.bytes 32 ∧ byteAt fl.bytes 32 ≤ 5) :
    execInject q i s = .next
      (if (byteAt fl.bytes 32 = 1 ∨ byteAt fl.bytes 32 = 4) ∧ !injectable (fieldAt fl.bytes 40 8) then s.endFlight q i 7 (fieldAt fl.bytes 40 8)
      else if byteAt fl.bytes 32 = 1 then (s.flipSeal (blockOf (fieldAt fl.bytes 40 8))).endFlight q i 0 0
      else (if byteAt fl.bytes 32 = 4 then
          { s.armed (injectionOf fl.bytes) with tiers := { s.tiers with badWords := (fieldAt fl.bytes 40 8 / 8 * 8) :: s.tiers.badWords } }
        else s.armed (injectionOf fl.bytes)).endFlight q i 0 0) := by
  obtain ⟨hw, hon, hzero, hcore, hcube⟩ := hj
  have hen : ¬ s.fld A.IFT_CFG 3 3 = 0 := by omega
  rw [execInject, dispatch_of_works hw _ ((if_neg hen).trans (firstBad_inject hkind hcore hcube hzero))]
  exact congrArg Host.Outcome.next (if_neg hen)

theorem execInject_flips (hj : s.Injects q i fl) (hkind : byteAt fl.bytes 32 = 1) (ha : injectable (fieldAt fl.bytes 40 8) = true) :
    execInject q i s = .next ((s.flipSeal (blockOf (fieldAt fl.bytes 40 8))).endFlight q i 0 0) := by
  rw [execInject_of_injects hj (by omega)]
  simp only [hkind, ha, Bool.not_true, Bool.false_eq_true, and_false, if_false, if_true]

theorem execInject_arms (hj : s.Injects q i fl) (hkind : byteAt fl.bytes 32 = 2 ∨ byteAt fl.bytes 32 = 3 ∨ byteAt fl.bytes 32 = 5) :
    execInject q i s = .next ((s.armed (injectionOf fl.bytes)).endFlight q i 0 0) := by
  have hseal : ¬ byteAt fl.bytes 32 = 1 := by omega
  have hword : ¬ byteAt fl.bytes 32 = 4 := by omega
  rw [execInject_of_injects hj (by omega)]
  simp only [hseal, hword, or_self, false_and, if_false]

theorem execInject_spoils (hj : s.Injects q i fl) (hkind : byteAt fl.bytes 32 = 4) (ha : injectable (fieldAt fl.bytes 40 8) = true) :
    execInject q i s = .next (({ s.armed (injectionOf fl.bytes) with
      tiers := { s.tiers with badWords := (fieldAt fl.bytes 40 8 / 8 * 8) :: s.tiers.badWords } } : State).endFlight q i 0 0) := by
  have hseal : ¬ (4 : Nat) = 1 := by decide
  rw [execInject_of_injects hj (by omega)]
  simp only [hkind, hseal, ha, Bool.not_true, Bool.false_eq_true, and_false, if_false, if_true]

end

/-- Settles O21: sound test commands pass their checks (`firstBad_reserved`), and INJECT acts by its kind. -/
theorem testCommandsRun : Obligations.TestCommandsRun := by
  intro q i a n c fl s
  refine ⟨fun hw hcore hc hspare hzero hrunning hwaiting hslot hhere x hx => ?ift, fun hw ha hn hastart hnwhole hzero hok kinds hkinds => ?scan,
    fun hw hon hzero ha hcore hcube => ?inject⟩
  case ift => exact execIftRun_of_inService hw hcore hc hspare hzero hrunning hwaiting hslot hhere hx
  case scan => rw [hkinds]; exact execSealScan_of_allowed hw ha hn hastart hnwhole hzero hok
  case inject =>
    have hj : s.Injects q i fl := ⟨hw, hon, hzero, hcore, hcube⟩
    rw [ha]
    refine ⟨fun hkind hable => ?flips, fun x t hx ht => ⟨fun hkind => ?arms, fun hkind hable => ?spoils⟩⟩
    case flips => exact execInject_flips hj hkind hable
    case arms => rw [ht, hx]; exact execInject_arms hj hkind
    case spoils => rw [ht, hx]; exact execInject_spoils hj hkind hable

end Sys2Proof.Machine

/-!
## Tickets of the escapement (R476, R478, R486)
-/

namespace Sys2Proof.Machine

section
variable {r q i : Nat} {x : EscReq} {b : Booking} {s : State}

theorem execEscGrant_of_fits (hr : r < Config.rails) (hnext : s.nextRequest r = some x) (hfits : s.fits r x.amount (max x.earliest s.ticks) x.windows = true) :
    execEscGrant r s = .next (({ s with esc := { s.esc with waiting := s.esc.waiting.erase x } } : State).enter x (max x.earliest s.ticks)) := by
  rw [execEscGrant, onUnit_present (decide_eq_true hr)]
  simp only [State.escGrant, hnext, hfits, if_true]

theorem execPrebookExpiry_of_unused (hq : q < Config.queues) (hheld : s.esc.bookings.find? (fun b => decide (b.owner = .pre q i) && b.stop.isNone) = some b)
    (hlate : b.start + zeroAs 8 (bitsOf s.esc.cfg 47 40) ≤ s.ticks) :
    execPrebookExpiry q i s = .next ((s.release (.pre q i)).count (A.RAIL b.rail 0x30)) := by
  rw [execPrebookExpiry, onUnit_present (decide_eq_true hq)]
  simp only [State.prebookExpiry, hheld, hlate, if_true]

end

/-- Settles O8: the request served next is granted when it fits, and the pre-booking that is still open is released when its windows have passed. -/
theorem ticketsGranted : Obligations.TicketsGranted := by
  intro r q i x b s
  exact ⟨fun hr hnext hfits => execEscGrant_of_fits hr hnext hfits, fun hq hheld hlate => execPrebookExpiry_of_unused hq hheld hlate⟩

end Sys2Proof.Machine

/-!
## Coolant flow, the thermal trip and droops (R491, R499, R500, R627)
-/

namespace Sys2Proof.Machine

section
variable {d depth c ps v : Nat} {s : State}

/-! ### Coolant flow -/

/-- FLOW_OK takes a new value, and its time starts. -/
theorem State.setFlow_of_ne (hv : (s.phase ps).fld A.PMC_STATUS 33 33 ≠ v) :
    s.setFlow v ps = { (s.phase ps).setFld A.PMC_STATUS 33 33 v with power := { ((s.phase ps).setFld A.PMC_STATUS 33 33 v).power with flowSince := (s.phase ps).now } } := by
  rw [State.setFlow]
  exact if_neg hv

theorem execFlowStop_of_due (harmed : (s.phase ps).fld A.PMC_STATUS 34 34 = 1) (hlow : (s.phase ps).fld A.PMC_STATUS 33 33 = 0)
    (hfirst : (s.phase ps).flowStop = false) (hup : (s.phase ps).power.tripped = false) (hlate : (s.phase ps).power.flowSince + 1000000 ≤ (s.phase ps).now)
    {u v : State} (hu : u = ((s.phase ps).setFld A.PMC_STATUS 32 32 1).stopDies) (hv : v = { u with faults := { u.faults with alert := true } }) :
    execFlowStop ps s = .next ((List.range 12).foldl (fun x k => x.release (.stack k))
      ((({ v with fw := { v.fw with quiesce := if v.fw.blob then v.fw.quiesce else 0 } } : State).event 0x0A []).tally 1)) := by
  have hdue : ¬ ((s.phase ps).fld A.PMC_STATUS 34 34 = 0 ∨ (s.phase ps).fld A.PMC_STATUS 33 33 = 1 ∨ (s.phase ps).flowStop ∨ (s.phase ps).power.tripped
      ∨ (s.phase ps).now < (s.phase ps).power.flowSince + 1000000) := by
    simp only [harmed, hlow, hfirst, hup, Nat.not_lt.mpr hlate, Nat.one_ne_zero, Nat.zero_ne_one, Bool.false_eq_true, or_self, not_false_eq_true]
  rw [hv, hu]
  exact congrArg Host.Outcome.next (if_neg hdue)

/-! ### The thermal trip -/

theorem execThermalTrip_of_armed (harmed : s.fld A.PMC_STATUS 35 35 = 1) (hup : s.power.tripped = false) :
    execThermalTrip s = .next ((List.range Config.links).foldl (fun x n => x.setFld (A.LNK n 8) 2 0 0) s.trip) := by
  have hdue : ¬ (s.fld A.PMC_STATUS 35 35 = 0 ∨ s.power.tripped) := by simp only [harmed, hup, Nat.one_ne_zero, Bool.false_eq_true, or_self, not_false_eq_true]
  exact congrArg Host.Outcome.next (if_neg hdue)

/-! ### Droops -/

theorem execDroop_of_deep (hd : d < 256) (hdeep : s.odNat 0x2050 1 45 ≤ depth) (hclock : s.clocked (d / 8) = true) :
    execDroop d depth ps s = .next ((s.phase ps).droopHit d depth) := by
  rw [execDroop, onUnit_due (decide_eq_true hd) ⟨hdeep, hclock⟩]

theorem execDroopHoldExpiry_of_due (hc : c < Config.clusters) (hdown : ((s.phase ps).droop c).steps ≠ 0) (hhold : ((s.phase ps).droop c).holding = true)
    (hlate : ((s.phase ps).droop c).last + 1000 * s.odNat 0x2050 3 200 ≤ (s.phase ps).now) :
    execDroopHoldExpiry c ps s = .next ((s.phase ps).droopRise c) := by
  rw [execDroopHoldExpiry, onUnit_due (decide_eq_true hc) ⟨hdown, hhold, hlate⟩]

theorem execDroopRestoreStep_of_due (hc : c < Config.clusters) (hdown : ((s.phase ps).droop c).steps ≠ 0) (hhold : ((s.phase ps).droop c).holding = false)
    (hlate : ((s.phase ps).droop c).last + 50000 ≤ (s.phase ps).now) :
    execDroopRestoreStep c ps s = .next ((s.phase ps).droopRise c) := by
  have hfree : (!((s.phase ps).droop c).holding) = true := by rw [hhold, Bool.not_false]
  rw [execDroopRestoreStep, onUnit_due (decide_eq_true hc) ⟨hdown, hfree, hlate⟩]

end

/-- Settles O30: each protection acts at the phase its input names. -/
theorem protectionActs : Obligations.ProtectionActs := by
  intro d depth c ps s t ht
  rw [ht]
  refine ⟨fun hhigh => ?flowFall, fun hlow => ?flowRise, fun harmed hlow hfirst hup hlate u v hu hv => ?flowStop, fun harmed hup => ?trip,
    fun hd hdeep hclock => ?droop, fun hc hdown => ⟨fun hhold hlate => ?hold, fun hfree hlate => ?restore⟩⟩
  case flowFall => exact congrArg Host.Outcome.next (State.setFlow_of_ne (fun h => Nat.one_ne_zero (hhigh.symm.trans h)))
  case flowRise => exact congrArg Host.Outcome.next (State.setFlow_of_ne (fun h => Nat.zero_ne_one (hlow.symm.trans h)))
  case flowStop => exact execFlowStop_of_due harmed hlow hfirst hup hlate hu hv
  case trip => exact execThermalTrip_of_armed harmed hup
  case droop => exact execDroop_of_deep hd hdeep hclock
  case hold => exact execDroopHoldExpiry_of_due hc hdown hhold hlate
  case restore => exact execDroopRestoreStep_of_due hc hdown hfree hlate

end Sys2Proof.Machine

/-!
## Voltages and thermal states (R489, R492, R498, R622)
-/

namespace Sys2Proof.Machine

section
variable {k n rail : Nat} {f : RailFrame} {x : RailStep} {s t : State}

/-! ### Droop storms -/

theorem execDroopStorm_of_many (hk : k < 4) (hheld : s.held = false) (hidle : s.stepping k = false)
    (hn : n = ((smapGet (fun _ => ([] : List Nat)) s.power.stormBeats k).filter (fun b => decide (s.ticks < b + 1000))).length)
    (hmany : s.odNat 0x2050 4 64 < n) (hclocks : s.power.clocksOff = false) (hroom : s.volt k < 800)
    (ht : t = { s with power := { s.power with
      stormBeats := smapPut (fun _ => ([] : List Nat)) s.power.stormBeats k []
      stormLast := smapPut (fun _ => 0) s.power.stormLast k s.ticks
      stormSteps := smapPut (fun _ => 0) s.power.stormSteps k (smapGet (fun _ => 0) s.power.stormSteps k + 1) } }) :
    execDroopStorm k s = .next ((t.askStep k (s.volt k + 25) (s.fstep k) false).event 9 [(k, 1), (s.volt k + 25, 2), (n, 2)]) := by
  have hdue : ¬ (n ≤ s.odNat 0x2050 4 64 ∨ s.held ∨ s.stepping k ∨ s.power.clocksOff) := by
    simp only [Nat.not_le.mpr hmany, hheld, hidle, hclocks, Bool.false_eq_true, or_self, not_false_eq_true]
  rw [hn] at hdue ⊢
  rw [ht, execDroopStorm, onUnit_passed (decide_eq_true hk) hdue]
  exact congrArg Host.Outcome.next (if_neg (Nat.not_le.mpr hroom))

theorem execDroopVoltageReturn_of_quiet (hk : k < 4) (hheld : s.held = false) (hidle : s.stepping k = false)
    (hn : n = smapGet (fun _ => 0) s.power.stormSteps k) (hraised : n ≠ 0) (hquiet : smapGet (fun _ => 0) s.power.stormLast k + 100000 ≤ s.ticks)
    (ht : t = { s with power := { s.power with
      stormSteps := smapPut (fun _ => 0) s.power.stormSteps k (n - 1), stormLast := smapPut (fun _ => 0) s.power.stormLast k s.ticks } })
    (habove : t.vTarget k (s.fstep k) < s.volt k) :
    execDroopVoltageReturn k s = .next (t.askStep k (max (vOf k (s.fstep k)) (s.volt k - 25)) (s.fstep k) false) := by
  have hdue : ¬ (n = 0 ∨ s.ticks < smapGet (fun _ => 0) s.power.stormLast k + 100000 ∨ s.held ∨ s.stepping k) := by
    simp only [hraised, Nat.not_lt.mpr hquiet, hheld, hidle, Bool.false_eq_true, or_self, not_false_eq_true]
  rw [hn] at hdue ht
  rw [ht] at habove ⊢
  rw [execDroopVoltageReturn, onUnit_passed (decide_eq_true hk) hdue]
  exact congrArg Host.Outcome.next (if_pos habove)

/-! ### Thermal states -/

theorem execThermalStateEval_of_due (hdue : s.due 1 10 = true) (hup : s.power.tripped = false) :
    execThermalStateEval s = .next ((List.range 4).foldl State.thermalDie (s.ran 1)) := by
  have hruns : (s.due 1 10 && !s.power.tripped) = true := by rw [hdue, hup, Bool.not_false, Bool.and_true]
  exact congrArg Host.Outcome.next (if_pos hruns)

theorem execCritStep_of_crit (hk : k < 4) (hdue : s.due (16 + k) 100 = true) (hclocks : s.power.clocksOff = false) (hcrit : s.tstate k = 2)
    (hfast : 20 < s.fstep k) :
    execCritStep k s = .next ((({ s with power := { s.power with
      critSteps := smapPut (fun _ => 0) s.power.critSteps k (smapGet (fun _ => 0) s.power.critSteps k + 1) } } : State).stepDown k).ran (16 + k)) := by
  have hruns : ¬ ((!s.due (16 + k) 100) = true ∨ s.power.clocksOff = true) := by simp only [hdue, hclocks, Bool.not_true, Bool.false_eq_true, or_self, not_false_eq_true]
  rw [execCritStep, onUnit_passed (decide_eq_true hk) hruns]
  exact congrArg Host.Outcome.next (if_pos ⟨hcrit, hfast⟩)

/-! ### Rail frames -/

theorem execRqAck_of_step (hr : rail < Config.rails) (hsent : s.power.frames.any (fun f => f.rail == rail) = true) (hheld : s.held = false)
    (hups : s.power.noUp.contains rail = false) (hstep : s.power.steps.find? (fun x => x.die == rail) = some x)
    (ht : t = { s with power := { s.power with frames := s.power.frames.filter (fun f => f.rail != rail) } }) :
    execRqAck rail s = .next (t.stepAdvance rail) := by
  rw [ht, execRqAck, onUnit_passed (decide_eq_true hr) (by rw [hsent]; decide)]
  have hheld' : ({ s with power := { s.power with frames := s.power.frames.filter (fun f => f.rail != rail) } } : State).held = false := hheld
  simp only [hstep, hups, hheld', Bool.and_false, Bool.false_eq_true, if_false]

theorem execRqAck_of_none (hr : rail < Config.rails) (hsent : s.power.frames.any (fun f => f.rail == rail) = true)
    (hnone : s.power.steps.find? (fun x => x.die == rail) = none)
    (ht : t = { s with power := { s.power with frames := s.power.frames.filter (fun f => f.rail != rail) } }) :
    execRqAck rail s = .next t := by
  rw [ht, execRqAck, onUnit_passed (decide_eq_true hr) (by rw [hsent]; decide)]
  simp only [hnone]

theorem execRqAckTimeout_of_late (hr : rail < Config.rails) (hsent : s.power.frames.find? (fun f => f.rail == rail) = some f)
    (hlate : f.since + (if f.repeats < 3 then 4 else 1000) ≤ s.ticks) (hflow : s.flowStop = false) (hups : f.repeats ≠ 2 ∨ 4 ≤ rail) :
    execRqAckTimeout rail s = .next (s.sendFrame rail f.mv (f.repeats + 1)) := by
  have hstill : ¬ (f.repeats = 2 ∧ rail < 4) := by omega
  rw [execRqAckTimeout, onUnit_present (decide_eq_true hr)]
  simp only [hsent, Nat.not_lt.mpr hlate, hflow, hstill, Bool.false_eq_true, if_false]

end

/-- Settles O31: the storms and their return, the thermal tasks at their periods, and the frames to the tray. -/
theorem railsStep : Obligations.RailsStep := by
  intro k n rail f x s t
  refine ⟨fun hk hheld hidle => ⟨fun hn hmany hclocks hroom ht => ?storm, fun hn hraised hquiet ht habove => ?back⟩, fun hdue hup => ?thermal,
    fun hk hdue hclocks hcrit hfast => ?crit,
    fun hr => ⟨fun hsent hheld hups ht => ⟨fun hstep => ?step, fun hnone => ?alone⟩, fun hsent hlate hflow hups => ?timeout⟩⟩
  case storm => exact execDroopStorm_of_many hk hheld hidle hn hmany hclocks hroom ht
  case back => exact execDroopVoltageReturn_of_quiet hk hheld hidle hn hraised hquiet ht habove
  case thermal => exact execThermalStateEval_of_due hdue hup
  case crit => exact execCritStep_of_crit hk hdue hclocks hcrit hfast
  case step => exact execRqAck_of_step hr hsent hheld hups hstep ht
  case alone => exact execRqAck_of_none hr hsent hnone ht
  case timeout => exact execRqAckTimeout_of_late hr hsent hlate hflow hups

end Sys2Proof.Machine

/-!
## The slow power controls (R493, R494, R496, R502, R503, R505, R576)
-/

namespace Sys2Proof.Machine

section
variable {k p b : Nat} {s t : State}

/-! ### Operating modes -/

/-- The decision on die k is taken: its time has come, and neither CRIT, a step in progress nor a controller's absence holds it. -/
def State.decides (s : State) (k : Nat) : Prop :=
  s.due (8 + k) 100 = true ∧ s.held = false ∧ s.power.clocksOff = false ∧ s.stepping k = false ∧ s.tstate k ≠ 2
    ∧ smapGet (fun _ => 0) s.power.critSteps k = 0

theorem State.decides.unheld (hd : s.decides k) :
    ¬ ((!s.due (8 + k) 100) = true ∨ s.held = true ∨ s.power.clocksOff = true ∨ s.stepping k = true ∨ s.tstate k = 2
      ∨ smapGet (fun _ => 0) s.power.critSteps k ≠ 0) := by
  obtain ⟨hdue, hheld, hclocks, hidle, hcool, hback⟩ := hd
  simp only [hdue, hheld, hclocks, hidle, hcool, hback, Bool.not_true, Bool.false_eq_true, ne_eq, not_true_eq_false, or_self, not_false_eq_true]

theorem execOpportunisticDecision_of_fixed (hk : k < 4) (hd : s.decides k) (hmode : s.fld A.PMC_STATUS 1 0 ≠ 1) (hfast : 30 < s.fstep k) :
    execOpportunisticDecision k s = .next ((s.ran (8 + k)).stepDown k) := by
  rw [execOpportunisticDecision, onUnit_passed (decide_eq_true hk) hd.unheld]
  exact congrArg Host.Outcome.next ((if_pos hmode).trans (if_pos hfast))

theorem execOpportunisticDecision_of_room (hk : k < 4) (hd : s.decides k) (hmode : s.fld A.PMC_STATUS 1 0 = 1)
    (hbooked : s.booked100 k ≤ 100 * s.avgEff k) (hnormal : s.tstate k = 0) (hslow : s.fstep k < 37) (hcool : s.hottest k < s.tjHot - 40)
    (hroom : s.booked100 k * (s.vTarget k (s.fstep k + 1) * (s.fstep k + 1)) ≤ 100 * s.avgEff k * (s.vTarget k (s.fstep k) * s.fstep k)) :
    execOpportunisticDecision k s = .next ((s.ran (8 + k)).stepUp k) := by
  have hkeep : ¬ (100 * s.avgEff k < s.booked100 k ∨ s.tstate k ≠ 0) := fun h => h.elim (Nat.not_lt.mpr hbooked) (fun hne => hne hnormal)
  rw [execOpportunisticDecision, onUnit_passed (decide_eq_true hk) hd.unheld]
  exact congrArg Host.Outcome.next ((if_neg (not_not_intro hmode)).trans ((if_neg hkeep).trans (if_pos ⟨hslow, hroom, hcool⟩)))

/-! ### The cap and its sharing -/

theorem execCapUpdate_of_due (hdue : s.due 0 1000 = true) (hheld : s.held = false) (hup : s.power.tripped = false) {hot eff : List (Nat × Nat)}
    (hhot : hot = (List.range 4).foldl (fun m k => if s.tstate k = 1 then smapPut (fun _ => 0) m k (smapGet (fun _ => 0) m k + 1) else m)
      (s.ran 0).power.hotMs)
    (ht : t = { s.ran 0 with power := { (s.ran 0).power with hotMs := hot } })
    (heff : eff = (List.range 4).foldl (fun m k => smapPut t.avgCeil m k (t.newCeil k t.restPower)) t.esc.avgEff) :
    execCapUpdate s = .next { t with esc := { t.esc with avgEff := eff } } := by
  have hruns : ¬ ((!s.due 0 1000 || s.held || s.power.tripped) = true) := by rw [hdue, hheld, hup]; decide
  rw [heff, ht, hhot]
  exact congrArg Host.Outcome.next (if_neg hruns)

/-- The period of sharing has come, and is not yet counted. -/
def State.sharesNow (s : State) : Prop := s.beat % 10000 = 0 ∧ smapGet (fun _ => 0) s.power.timers 2 ≠ s.ticks + 1 ∧ s.held = false

theorem State.sharesNow.unheld (hn : s.sharesNow) : ¬ (s.beat % 10000 ≠ 0 ∨ smapGet (fun _ => 0) s.power.timers 2 = s.ticks + 1 ∨ s.held = true) := by
  obtain ⟨hperiod, hfirst, hheld⟩ := hn
  simp only [hperiod, hfirst, hheld, Bool.false_eq_true, ne_eq, not_true_eq_false, or_self, not_false_eq_true]

/-- The state in which a period of sharing has been counted. -/
def State.shareCounted (s : State) : State :=
  { s with power := { s.power with timers := smapPut (fun _ => 0) s.power.timers 2 (s.ticks + 1), critLast := s.total (A.COL 0x60) } }

theorem execPowerSharePeriod_of_alone (hn : s.sharesNow) (halone : s.beatState ≠ 2 ∨ s.sharing = false) : execPowerSharePeriod s = .next s.shareCounted := by
  have hquiet : s.shareCounted.beatState ≠ 2 ∨ (!s.shareCounted.sharing) = true := halone.imp_right (fun h => (congrArg not h : (!s.sharing) = true))
  exact congrArg Host.Outcome.next ((if_neg hn.unheld).trans (if_pos hquiet))

theorem execPowerSharePeriod_of_shared (hn : s.sharesNow) (haligned : s.beatState = 2) (hshares : s.sharing = true) :
    execPowerSharePeriod s = .next (s.shareCounted.shareRound (s.total (A.COL 0x60) - s.power.critLast)) := by
  have hround : ¬ (s.shareCounted.beatState ≠ 2 ∨ (!s.shareCounted.sharing) = true) :=
    fun h => h.elim (fun hne => hne haligned) (fun h => Bool.false_ne_true ((congrArg not hshares).symm.trans h))
  exact congrArg Host.Outcome.next ((if_neg hn.unheld).trans (if_neg hround))

/-! ### Firmware processors -/

theorem execControllerAbsent_of_late (hp : p < 35) (habsent : s.absent.find? (fun x => x.1 == p) = some (p, b)) (hlate : b + 50000 ≤ s.ticks)
    (hfirst : s.power.fwTimedOut.contains p = false) :
    execControllerAbsent p s = .next (({ s with
      power := { s.power with clocksOff := true, fwTimedOut := p :: s.power.fwTimedOut }
      faults := { s.faults with alert := true } } : State).record { cls := 3, cause := 0x10, unitKind := 12, unit := p }) := by
  rw [execControllerAbsent, onUnit_present (decide_eq_true hp)]
  simp only [habsent, Nat.not_lt.mpr hlate, hfirst, Bool.false_eq_true, or_self, if_false]

theorem execWatchdogReset_of_present (hp : p < 35) (hhere : s.isAbsent p = false) (hup : s.power.tripped = false)
    (ht : t = { s with absent := s.absent ++ [(p, s.ticks)], fw := { s.fw with healthy := false } }) {u : State}
    (hu : u = (if t.held then t.setFld A.PMC_STATUS 16 16 1 else t)) :
    execWatchdogReset p s = .next ((if p = 0 then u.securityLost else u).fwEvent 1 s.fw.running p) := by
  have hruns : ¬ (s.isAbsent p = true ∨ s.power.tripped = true) := by simp only [hhere, hup, Bool.false_eq_true, or_self, not_false_eq_true]
  rw [hu, ht, execWatchdogReset, onUnit_passed (decide_eq_true hp) hruns]

theorem execProcessorReturn_of_absent (hp : p < 35) (habsent : s.isAbsent p = true) (hkeeps : s.fw.handed = false) :
    execProcessorReturn p s = .next (({ s with absent := s.absent.filter (fun x => x.1 != p) } : State).backTo) := by
  have hruns : ¬ ((!s.isAbsent p) = true ∨ s.fw.handed = true) := by
    simp only [habsent, hkeeps, Bool.not_true, Bool.false_eq_true, or_self, not_false_eq_true]
  rw [execProcessorReturn, onUnit_passed (decide_eq_true hp) hruns]

end

/-- Settles O32: the periodic decisions at their times, and the processors that leave and return. -/
theorem powerControllersAct : Obligations.PowerControllersAct := by
  intro k p b s t
  refine ⟨fun hk hdue hheld hclocks hidle hcool hback => ⟨fun hmode hfast => ?fixed, fun hmode hbooked hnormal hslow hcold hroom => ?room⟩,
    fun hdue hheld hup hot hhot ht eff heff => ?cap, fun hperiod hfirst hheld ht => ⟨fun halone => ?alone, fun haligned hshares => ?share⟩,
    fun hp => ⟨fun habsent hlate hfirst => ?absent, fun hhere hup ht u hu => ?watchdog, fun habsent hkeeps => ?comesBack⟩⟩
  case fixed => exact execOpportunisticDecision_of_fixed hk ⟨hdue, hheld, hclocks, hidle, hcool, hback⟩ hmode hfast
  case room => exact execOpportunisticDecision_of_room hk ⟨hdue, hheld, hclocks, hidle, hcool, hback⟩ hmode hbooked hnormal hslow hcold hroom
  case cap => exact execCapUpdate_of_due hdue hheld hup hhot ht heff
  case alone => rw [ht]; exact execPowerSharePeriod_of_alone ⟨hperiod, hfirst, hheld⟩ halone
  case share => rw [ht]; exact execPowerSharePeriod_of_shared ⟨hperiod, hfirst, hheld⟩ haligned hshares
  case absent => exact execControllerAbsent_of_late hp habsent hlate hfirst
  case watchdog => exact execWatchdogReset_of_present hp hhere hup ht hu
  case comesBack => exact execProcessorReturn_of_absent hp habsent hkeeps

end Sys2Proof.Machine

/-!
## The object dictionary (R518 to R521, R526, R547)
-/

namespace Sys2Proof.Machine

section
variable {tr v : Nat} {r : OdRequest} {e : OdEntry} {s : State}

/-! ### Reads and writes -/

theorem execOdRead_of_serves (hr : s.Serves tr r) (hop : r.op = 1) :
    execOdRead tr s = .next (s.odEnd r (s.odRead r.index r.sub).1 (s.odRead r.index r.sub).2) := by
  rw [execOdRead, odServe_of_serves hr (fun r => r.op == 1) (beq_iff_eq.mpr hop)]

/-- OD_WRITE serves the write `r` of transport `tr`, all its checks hold, and it writes the entry `e`. -/
def State.Writes (s : State) (tr : Nat) (r : OdRequest) (e : OdEntry) : Prop :=
  s.Serves tr r ∧ r.op = 2 ∧ s.odEntry r.index r.sub = .ok e ∧ e.acc ≠ .wo ∧ s.odRefused r = none ∧ odFind r.index r.sub = some e

/-- What OD_WRITE does then, by what the entry is. -/
theorem execOdWrite_of_writes (hw : s.Writes tr r e) :
    execOdWrite tr s = .next
      (if e.commit ≠ 0 then
        ({ s with jrn := { s.jrn with
          staged := (odKey r.index r.sub, r.value) :: s.jrn.staged.filter (fun x => x.1 != odKey r.index r.sub) } } : State).odEnd r 0 []
      else if e.acc = .rw then ({ s with od := smapPut (fun _ => ([] : List Byte)) s.od (odKey r.index r.sub) r.value } : State).odEnd r 0 []
      else s.odPersist r [(r.index, r.sub, some r.value)] []) := by
  obtain ⟨hr, hop, hentry, hacc, hok, hfind⟩ := hw
  rw [execOdWrite, odServe_of_serves hr _ (by simp only [hop, hentry, hacc, ne_eq, not_false_eq_true, decide_true, BEq.rfl, Bool.and_self])]
  simp only [hok, hfind]

theorem execOdCommit_of_rule (hr : s.Serves tr r) (hop : r.op = 2) (hcommit : isCommit r.index r.sub = true) (hok : s.odRefused r = none)
    (hv : leNat r.value ≠ 0) (hrule : s.groupRule r.index = true) :
    execOdCommit tr s = .next (s.odPersist r ((odMembers r.index r.sub).map (fun b => (r.index, b, some (s.candidate r.index b))))
      (s.jrn.staged.filter (fun x => (odMembers r.index r.sub).any (fun b => odKey r.index b == x.1)))) := by
  rw [execOdCommit, odAction_of_serves hr _ hop hcommit hok hv, hrule, Bool.not_true, if_neg Bool.false_ne_true]

/-! ### Actions -/

/-- The action of an entry that a write commands. -/
theorem odAction_of_commands {index sub : Nat} (hc : s.Commands tr index sub r v) (k : OdRequest → Nat → State) :
    s.odAction tr (fun i b => i == index && b == sub) k = .next (k r v) := by
  obtain ⟨hr, hop, hindex, hsub, hok, hvalue, hv⟩ := hc
  rw [odAction_of_serves hr _ hop (by rw [hindex, hsub, BEq.rfl, BEq.rfl, Bool.and_self]) hok (fun h => hv (hvalue.symm.trans h)), hvalue]

theorem execApplyNow_of_alone (hc : s.Commands tr 0x5011 0 r v) (halone : (List.range 512).any (fun f => f != 0 && s.fnEnabled f) = false)
    (hhere : s.isAbsent 2 = false) : execApplyNow tr s = .next (s.layoutApply.odEnd r 0 []) := by
  rw [execApplyNow, odAction_of_commands hc]
  simp only [halone, hhere, Bool.false_eq_true, if_false]

theorem execDefaults_of_none (hc : s.Commands tr 0x9040 1 r v) (htokens : s.jrn.tokens ≠ 0) (hbudget : 1000000 < s.budgetLeft) {keys : List Nat}
    (hkeys : keys = (s.jrn.live.map Prod.fst).filter (fun k => decide (0x1000 ≤ k / 256) && decide (k / 256 < 0x8000)
      && (odFind (k / 256) (k % 256)).any (fun e => decide (e.acc = .rwp))))
    (hnone : s.tombBatches keys (keys.length + 1) = []) :
    execDefaults tr s = .next (({ s with jrn := { s.jrn with tokens := s.jrn.tokens - 1 } } : State).odEnd r 0 []) := by
  rw [hkeys] at hnone
  rw [execDefaults, odAction_of_commands hc]
  simp only [hnone, htokens, Nat.not_le.mpr hbudget, List.isEmpty_nil, if_false, if_true]

end

/-- Settles O33: an outstanding request whose checks hold is served by its row. -/
theorem dictionaryServes : Obligations.DictionaryServes := by
  intro tr v r e s hr
  refine ⟨fun hop => ?read, fun hop hentry hacc hok hfind => ⟨fun hgroup => ?stage, fun halone hrw => ?now, fun halone hrwp => ?persist⟩,
    fun hop hcommit hok hv hrule => ?commit, fun hc halone hhere => ?apply, fun hc htokens hbudget keys hkeys hnone => ?defaults⟩
  case read => exact execOdRead_of_serves hr hop
  case stage => exact (execOdWrite_of_writes ⟨hr, hop, hentry, hacc, hok, hfind⟩).trans (congrArg Host.Outcome.next (if_pos hgroup))
  case now =>
    exact (execOdWrite_of_writes ⟨hr, hop, hentry, hacc, hok, hfind⟩).trans (congrArg Host.Outcome.next ((if_neg (not_not_intro halone)).trans (if_pos hrw)))
  case persist =>
    exact (execOdWrite_of_writes ⟨hr, hop, hentry, hacc, hok, hfind⟩).trans (congrArg Host.Outcome.next ((if_neg (not_not_intro halone)).trans (if_neg hrwp)))
  case commit => exact execOdCommit_of_rule hr hop hcommit hok hv hrule
  case apply => exact execApplyNow_of_alone hc halone hhere
  case defaults => exact execDefaults_of_none hc htokens hbudget hkeys hnone

end Sys2Proof.Machine

/-!
## The journal (R538 to R543)
-/

namespace Sys2Proof.Machine

section
variable {fails : List Nat} {b : OdBatch} {rest : List OdBatch} {ok : Bool} {s s1 s2 s3 s4 s5 : State}

theorem execJournalBatchPersisted_of_front (hfront : s.jrn.batches = b :: rest) (hbusy : s.jrn.busy = 1) (hgrant : s.storeGranted = true)
    (hwrite : s.batchWrite b fails = (s1, ok)) (h2 : s2 = s1.batchEnd b (b.entries.flatMap (recsOf 1)).length ok)
    (h3 : s3 = (if ok && b.entries.any (fun e => e.1 == 0x8010) then s2.fwEvent 0 s2.fw.target 0xFF else s2))
    (h4 : s4 = (if ok then s3.afterBatch b.after else s3))
    (h5 : s5 = (if switchSlot ≤ s4.jrn.next ∧ !s4.jrn.compacting then s4.switchRegion else s4)) :
    execJournalBatchPersisted fails s = .next s5.storeKick := by
  rw [execJournalBatchPersisted, h5, h4, h3, h2]
  simp only [hfront, hbusy, hgrant, hwrite, Bool.not_true, Bool.false_eq_true, ne_eq, not_true_eq_false, or_self, if_false]

theorem execCompactionCopy_of_granted (hon : s.jrn.compacting = true) (hbusy : s.jrn.busy = 2) (hup : s.power.tripped = false)
    (hgrant : s.storeGranted = true) : execCompactionCopy s = .next s.copyBatch := by
  have hother : ¬ (2 : Nat) = 1 := by decide
  rw [execCompactionCopy]
  simp only [hon, hbusy, hup, hgrant, hother, Bool.not_true, Bool.false_eq_true, or_self, if_false, if_true]

theorem execTokenRefill_of_due (hperiod : s.beat % 1000000 = 0) (hstart : s.beat ≠ 0) (hfirst : smapGet (fun _ => 0) s.power.timers 4 ≠ s.ticks + 1) :
    execTokenRefill s = .next { s with
      power := { s.power with timers := smapPut (fun _ => 0) s.power.timers 4 (s.ticks + 1) }
      jrn := { s.jrn with tokens := min 64 (s.jrn.tokens + 1) } } := by
  have hdue : ¬ (s.beat % 1000000 ≠ 0 ∨ s.beat = 0 ∨ smapGet (fun _ => 0) s.power.timers 4 = s.ticks + 1) := by
    simp only [hperiod, hstart, hfirst, ne_eq, not_true_eq_false, or_self, not_false_eq_true]
  exact congrArg Host.Outcome.next (if_neg hdue)

end

/-- Settles O34: the batch in front is written, the next copy is made, and the token comes. -/
theorem journalWorks : Obligations.JournalWorks := by
  intro fails b rest ok s s1 s2 s3 s4 s5
  refine ⟨fun hfront hbusy hgrant hwrite h2 h3 h4 h5 => ?batch, fun hon hbusy hup hgrant => ?copy, fun hperiod hstart hfirst => ?token⟩
  case batch => exact execJournalBatchPersisted_of_front hfront hbusy hgrant hwrite h2 h3 h4 h5
  case copy => exact execCompactionCopy_of_granted hon hbusy hup hgrant
  case token => exact execTokenRefill_of_due hperiod hstart hfirst

end Sys2Proof.Machine

/-!
## CAN FD and the mailbox (R531, R532, R534)
-/

namespace Sys2Proof.Machine

section
variable {id src tid val : Nat} {data v : List Byte} {x : CanIn} {y : CanOut} {s : State}

/-! ### Frames of a request -/

theorem execSingle_of_whole (hid : s.canFor id = some (src, tid)) (htype : canType 0 data = true) (hzero : byteAt data 0 % 64 = 0) :
    execSingle id data s = .next (s.odArrive (canRequest src tid data)) := by
  rw [execSingle]
  simp only [hid, htype, hzero, and_self, if_true]

theorem execFirst_of_free (hid : s.canFor id = some (src, tid)) (htype : canType 1 data = true) (hlong : 56 < (canRequest src tid data).len)
    (hserved : s.odServed 0 = true) (hhere : s.isAbsent 0 = false) (hfree : s.odBusy 0 = false) :
    execFirst id data s = .next (({ s with jrn := { s.jrn with
      canIn := some { req := canRequest src tid data, next := 1, since := s.ticks } } } : State).canResult src tid [0xC0#8, 0#8, 0#8, 0#8]) := by
  rw [execFirst]
  simp only [hid, htype, Nat.not_le.mpr hlong, hserved, hhere, hfree, Bool.not_true, Bool.false_eq_true, or_self, if_false]

/-- The frame of `src` and `tid` is the next of the transfer `x` being received, in time. -/
def State.Continues (s : State) (id src tid : Nat) (data : List Byte) (x : CanIn) : Prop :=
  s.canFor id = some (src, tid) ∧ s.jrn.canIn = some x ∧ x.req.src = src ∧ x.req.tid = tid ∧ byteAt data 0 / 64 = 2
    ∧ byteAt data 0 % 64 = x.next % 64 ∧ s.ticks ≤ x.since + 100000

/-- A frame in sequence: the transfer goes on, or its last bytes complete the request. -/
theorem execConsec_of_continues (hin : s.Continues id src tid data x) (hv : v = (x.req.value ++ (data.drop 1).take 63).take x.req.len) :
    execConsec id data s = .next
      (if v.length < x.req.len then
        { s with jrn := { s.jrn with canIn := some { req := { x.req with value := v }, next := x.next + 1, since := s.ticks } } }
      else ({ s with jrn := { s.jrn with canIn := none } } : State).odArrive { x.req with value := v }) := by
  obtain ⟨hid, hx, hsrc, htid, htype, hseq, hsoon⟩ := hin
  rw [execConsec, hv]
  simp only [hid, hx, hsrc, htid, htype, hseq, Nat.not_lt.mpr hsoon, ne_eq, not_true_eq_false, or_self, if_false]

theorem execFlow_of_goesOn (hid : s.canFor id = some (src, tid)) (hy : s.jrn.canOut = some y) (hdst : y.dst = src) (htid : y.tid = tid)
    (htype : byteAt data 0 / 64 = 3) (hgo : byteAt data 1 = 0) :
    execFlow id data s = .next (s.canMore y (if byteAt data 2 = 0 then y.left.length + 1 else byteAt data 2)) := by
  rw [execFlow]
  simp only [hid, hy, hdst, htid, htype, hgo, ne_eq, not_true_eq_false, or_self, if_false, if_true]

theorem execCanTransferTimeout_of_silent (hx : s.jrn.canIn = some x) (hlate : x.since + 100000 < s.ticks) (hout : (s.canStop x).jrn.canOut = none) :
    execCanTransferTimeout s = .next (s.canStop x) := by
  rw [execCanTransferTimeout]
  simp only [hx, hlate, if_true, hout]

/-! ### The mailbox -/

theorem execGo_of_idle (hbar : s.reaches 0 = true) (hidle : s.fld A.MB_STATUS 0 0 = 0) {n : Nat}
    (hn : n = (if bitsOf val 3 2 = 2 then bitsOf val 47 32 else 0)) :
    execGo val s = .next (((s.setReg A.MB_CTL (setBits (setBits 0 47 8 (bitsOf val 47 8)) 3 2 (bitsOf val 3 2))).setFld A.MB_STATUS 0 0 1).odArrive
      { tr := 3, src := 0, tid := 0, op := bitsOf val 3 2, index := bitsOf val 31 16, sub := bitsOf val 15 8, len := n
        value := (List.range n).map (smapGet (fun _ => (0 : Byte)) s.jrn.mbBuf), started := false }) := by
  have hstarts : ¬ ((!s.reaches 0) = true ∨ s.fld A.MB_STATUS 0 0 = 1) := by
    simp only [hbar, hidle, Bool.not_true, Bool.false_eq_true, Nat.zero_ne_one, or_self, not_false_eq_true]
  rw [hn]
  exact congrArg Host.Outcome.next (if_neg hstarts)

end

/-- Settles O35: the frames of a request and of its answer, the silence that ends a transfer, and the mailbox. -/
theorem canAndMailboxCarryRequests : Obligations.CanAndMailboxCarryRequests := by
  intro id src tid val data v x y s
  refine ⟨fun hid => ⟨fun htype hzero => ?single, fun htype hlong hserved hhere hfree => ?first, fun hx hsrc htid htype hseq hsoon hv => ⟨fun hmore => ?goesOn, fun hlast => ?ends⟩,
    fun hy hdst htid htype hgo => ?flow⟩, fun hx hlate hout => ?silence, fun hbar hidle n hn => ?go⟩
  case single => exact execSingle_of_whole hid htype hzero
  case first => exact execFirst_of_free hid htype hlong hserved hhere hfree
  case goesOn => exact (execConsec_of_continues ⟨hid, hx, hsrc, htid, htype, hseq, hsoon⟩ hv).trans (congrArg Host.Outcome.next (if_pos hmore))
  case ends =>
    exact (execConsec_of_continues ⟨hid, hx, hsrc, htid, htype, hseq, hsoon⟩ hv).trans (congrArg Host.Outcome.next (if_neg (Nat.not_lt.mpr hlast)))
  case flow => exact execFlow_of_goesOn hid hy hdst htid htype hgo
  case silence => exact execCanTransferTimeout_of_silent hx hlate hout
  case go => exact execGo_of_idle hbar hidle hn

end Sys2Proof.Machine

/-!
## Firmware updates (R582 to R587)
-/

namespace Sys2Proof.Machine

section
variable {tr v k c m : Nat} {r : OdRequest} {s t : State}

/-! ### The update's actions -/

/-- A write of an update entry at the one stage that takes it. -/
theorem fwAction_of_stage {index sub st : Nat} (hc : s.Commands tr index sub r v) (hfree : s.fwBusy = false) (hstage : s.stage = st)
    (act : OdRequest → Nat → State) : s.fwAction tr index sub [st] act = .next (act r v) :=
  fwAction_of_commands hc hfree (by rw [hstage, List.contains_cons, BEq.rfl, Bool.true_or]) act

theorem execDlBegin_of_idle (hfree : s.fwBusy = false) (hc : s.Commands tr 0x8020 1 r v) (hstage : s.stage = 0) (hfits : v ≤ 33554432)
    (hk : k = s.inactiveSlot)
    (ht : t = { s with fw := { s.fw with length := v, target := k, erase := 0, buffer := [], next := 0, copyFrom := none }, od := smapPut (fun _ => ([] : List Byte)) s.od (odKey 0x8020 2) (leBytes 4 0) }) :
    execDlBegin tr s = .next ((t.fwSet [(2 + k, 0), (4 + k, 0), (6, 1)] .erase).odEnd r 0 []) := by
  have hv : v ≠ 0 := by
    obtain ⟨-, -, -, -, -, -, hv⟩ := hc
    exact hv
  rw [ht, hk, execDlBegin, fwAction_of_stage hc hfree hstage, if_neg (not_or.mpr ⟨hv, Nat.not_lt.mpr hfits⟩)]

theorem execDlData_of_room (hfree : s.fwBusy = false) (hc : s.Commands tr 0x8020 3 r v) (hstage : s.stage = 1) (hidle : s.dlRunning = false)
    (hfits : s.dlOffset + r.value.length ≤ s.fw.length) (ht : t = { s with fw := { s.fw with buffer := r.value, next := s.dlOffset } }) :
    execDlData tr s = .next (((t.setDlOffset (s.dlOffset + r.value.length)).flashKick).odEnd r 0 []) := by
  rw [ht, execDlData, fwAction_of_stage hc hfree hstage, if_neg (ne_true_of_eq_false hidle), if_neg (Nat.not_lt.mpr hfits)]

theorem execDlFrom_of_owned (hfree : s.fwBusy = false) (hc : s.Commands tr 0x8020 4 r v) (hstage : s.stage = 1) (hidle : s.dlRunning = false)
    (hleft : s.dlOffset < s.fw.length) (howned : s.ownedByPf v (s.fw.length - s.dlOffset) = true)
    (ht : t = { s with fw := { s.fw with copyFrom := some v, next := s.dlOffset } }) :
    execDlFrom tr s = .next (t.flashKick.odEnd r 0 []) := by
  have hok : ¬ (s.fw.length - s.dlOffset = 0 ∨ (!s.ownedByPf v (s.fw.length - s.dlOffset)) = true) := by
    rw [howned, Bool.not_true]
    exact not_or.mpr ⟨Nat.sub_ne_zero_of_lt hleft, Bool.false_ne_true⟩
  rw [ht, execDlFrom, fwAction_of_stage hc hfree hstage]
  exact congrArg Host.Outcome.next ((if_neg (ne_true_of_eq_false hidle)).trans (if_neg hok))

theorem execDlAbort_of_download (hfree : s.fwBusy = false) (hc : s.Commands tr 0x8020 5 r v) (hstage : s.stage = 1 ∨ s.stage = 2) :
    execDlAbort tr s = .next ((s.downloadEnd []).odEnd r 0 []) := by
  have hin : [1, 2].contains s.stage = true := by
    rw [List.contains_iff_mem, List.mem_cons, List.mem_singleton]
    exact hstage
  rw [execDlAbort, fwAction_of_commands hc hfree hin]

theorem execVerify_of_written (hfree : s.fwBusy = false) (hc : s.Commands tr 0x8021 0 r v) (hstage : s.stage = 2) :
    execVerify tr s = .next ((s.fwSet [(6, 3)] .none).odEnd r 0 []) := by
  rw [execVerify, fwAction_of_stage hc hfree hstage]

theorem execActivate_atReset (hfree : s.fwBusy = false) (hc : s.Commands tr 0x8022 1 r v) (hstage : s.stage = 4) (hv : v = 2) :
    execActivate tr s = .next ((s.fwSet [(2 + s.fw.target, 2), (6, 5), (7, 0)] .none).odEnd r 0 []) := by
  rw [execActivate, fwAction_of_stage hc hfree hstage]
  exact congrArg Host.Outcome.next (if_pos hv)

theorem execActivate_atOnce (hfree : s.fwBusy = false) (hc : s.Commands tr 0x8022 1 r v) (hstage : s.stage = 4) (hv : v = 1)
    (hfits : s.canHandOff s.fw.target = true) :
    execActivate tr s = .next (({ s with fw := { s.fw with quiesce := s.ticks + 1, back := false } } : State).odEnd r 0 []) := by
  have hnow : ¬ v = 2 := by omega
  rw [execActivate, fwAction_of_stage hc hfree hstage]
  simp only [hnow, hfits, Bool.not_true, Bool.false_eq_true, if_false]

theorem execConfirm_of_trial (hfree : s.fwBusy = false) (hc : s.Commands tr 0x8022 2 r v) (hstage : s.stage = 5) :
    execConfirm tr s = .next (s.confirm.odEnd r 0 []) := by
  rw [execConfirm, odAction_of_commands hc, if_neg (not_not_intro hstage), if_neg (ne_true_of_eq_false hfree)]

theorem execReject_of_trial (hfree : s.fwBusy = false) (hc : s.Commands tr 0x8022 3 r v) (hstage : s.stage = 5) (hk : k = s.trialSlot) :
    execReject tr s = .next ((({ s with fw := { s.fw with trialSince := 0 } } : State).fwSet
      [(1, 1 - k), (2 + k, 5), (2 + (1 - k), 3), (6, 0), (7, 0)] .reject).odEnd r 0 []) := by
  rw [hk, execReject, fwAction_of_stage hc hfree hstage]

/-! ### The update's own events -/

/-- A flash operation of the download has its current. -/
theorem State.flash_runs (hstage : s.stage = 1) (hgrant : s.holds .flash = true) : ¬ (s.stage ≠ 1 ∨ (!s.holds .flash) = true) := by
  simp only [hstage, hgrant, ne_eq, not_true_eq_false, Bool.not_true, Bool.false_eq_true, or_self, not_false_eq_true]

theorem execFlashOperationComplete_of_failed (hstage : s.stage = 1) (hgrant : s.holds .flash = true) :
    execFlashOperationComplete false s = .next (s.downloadEnd [(9, 9)]) :=
  congrArg Host.Outcome.next ((if_neg (State.flash_runs hstage hgrant)).trans (if_pos rfl))

theorem execFlashOperationComplete_of_erase (hstage : s.stage = 1) (hgrant : s.holds .flash = true) (herase : s.fw.erase ≠ 0)
    (hk : k = (s.fw.length + 65535) / 65536 - s.fw.erase) (ht : t = s.eraseSector (s.fw.target * 0x2000000 + k * 65536)) :
    execFlashOperationComplete true s = .next ((({ t with fw := { t.fw with erase := s.fw.erase - 1 } } : State).release .flash).flashKick) := by
  rw [ht, hk]
  exact congrArg Host.Outcome.next ((if_neg (State.flash_runs hstage hgrant)).trans ((if_neg Bool.false_ne_true).trans (if_pos herase)))

theorem execFlashOperationComplete_of_page (hstage : s.stage = 1) (hgrant : s.holds .flash = true) (herase : s.fw.erase = 0) (hbytes : s.fw.buffer ≠ [])
    (ht : t = { s with fw := { s.fw with buffer := s.fw.buffer.drop (256 - s.fw.next % 256) } }) :
    execFlashOperationComplete true s = .next (t.pageDone (s.fw.buffer.take (256 - s.fw.next % 256))) := by
  have hsent : (!s.fw.buffer.isEmpty) = true := by rw [List.isEmpty_eq_false_iff.mpr hbytes, Bool.not_false]
  rw [ht]
  exact congrArg Host.Outcome.next
    ((if_neg (State.flash_runs hstage hgrant)).trans ((if_neg Bool.false_ne_true).trans ((if_neg (not_not_intro herase)).trans (if_pos hsent))))

/-- Verification ends by what the image's checks say. -/
theorem State.verify_runs (hstage : s.stage = 3) (hfree : s.fwBusy = false) (hhere : s.isAbsent 0 = false) :
    ¬ (s.stage ≠ 3 ∨ s.fwBusy = true ∨ s.isAbsent 0 = true) := by
  simp only [hstage, hfree, hhere, ne_eq, not_true_eq_false, Bool.false_eq_true, or_self, not_false_eq_true]

theorem execVerifyComplete_of_fails (hstage : s.stage = 3) (hfree : s.fwBusy = false) (hhere : s.isAbsent 0 = false) (hk : k = s.fw.target)
    (hbad : s.imageFails k s.fw.length = some c) : execVerifyComplete s = .next (s.fwSet [(2 + k, 0), (6, 0), (9, c)] .none) := by
  rw [hk] at hbad ⊢
  rw [execVerifyComplete, if_neg (State.verify_runs hstage hfree hhere)]
  simp only [hbad]

theorem execVerifyComplete_of_passes (hstage : s.stage = 3) (hfree : s.fwBusy = false) (hhere : s.isAbsent 0 = false) (hk : k = s.fw.target)
    (hok : s.imageFails k s.fw.length = none) : execVerifyComplete s = .next (s.fwSet [(2 + k, 1), (4 + k, s.imageField k 4 4), (6, 4)] .none) := by
  rw [hk] at hok ⊢
  rw [execVerifyComplete, if_neg (State.verify_runs hstage hfree hhere)]
  simp only [hok]

theorem execActivateQuiesced_of_quiet (hasked : s.fw.quiesce ≠ 0) (hopen : s.fw.blob = false) (hquiet : s.quiesced = true)
    (ht : t = { s with fw := { s.fw with blob := true } }) :
    execActivateQuiesced s = .next (if s.fw.back then t.handOff else t.fwSet [(2 + s.fw.target, 2), (6, 5), (7, 1)] .handoff) := by
  have hruns : ¬ (s.fw.quiesce = 0 ∨ s.fw.blob = true ∨ (!s.quiesced) = true) := by
    simp only [hasked, hopen, hquiet, Bool.not_true, Bool.false_eq_true, or_self, not_false_eq_true]
  rw [ht]
  exact congrArg Host.Outcome.next (if_neg hruns)

theorem execQuiesceTimeout_of_late (hasked : s.fw.quiesce ≠ 0) (hopen : s.fw.blob = false) (hbusy : s.quiesced = false)
    (hlate : s.fw.quiesce + 1000 * s.odNat 0x8023 2 200 ≤ s.ticks + 1) :
    execQuiesceTimeout s = .next (({ s with fw := { s.fw with quiesce := 0 } } : State).fwSet [(9, 7)] .none) := by
  have hruns : ¬ (s.fw.quiesce = 0 ∨ s.fw.blob = true ∨ s.quiesced = true ∨ s.ticks + 1 < s.fw.quiesce + 1000 * s.odNat 0x8023 2 200) := by
    simp only [hasked, hopen, hbusy, Nat.not_lt.mpr hlate, Bool.false_eq_true, or_self, not_false_eq_true]
  exact congrArg Host.Outcome.next (if_neg hruns)

theorem State.handoff_runs (hhanded : s.fw.handed = true) (hclocks : s.power.clocksOff = false) :
    ¬ ((!s.fw.handed) = true ∨ s.power.clocksOff = true) := by
  simp only [hhanded, hclocks, Bool.not_true, Bool.false_eq_true, or_self, not_false_eq_true]

theorem execHandoffResume_of_refused (hhanded : s.fw.handed = true) (hclocks : s.power.clocksOff = false) :
    execHandoffResume false s = .next (({ s with fw := { s.fw with handed := false } } : State).fwSet [(9, 10)] .none) :=
  congrArg Host.Outcome.next ((if_neg (State.handoff_runs hhanded hclocks)).trans (if_pos rfl))

theorem execHandoffResume_of_taken (hhanded : s.fw.handed = true) (hclocks : s.power.clocksOff = false)
    (ht : t = { s with absent := [], fw := { s.fw with quiesce := 0, blob := false, handed := false, trialSince := if s.fw.back then 0 else s.ticks + 1, healthy := true } }) :
    execHandoffResume true s = .next ((t.backTo.newContract 1).refreshHeads) := by
  rw [ht]
  exact congrArg Host.Outcome.next ((if_neg (State.handoff_runs hhanded hclocks)).trans (if_neg Bool.false_ne_true))

theorem execAutoConfirm_of_healthy (hstage : s.stage = 5) (hfree : s.fwBusy = false) (hm : m = s.odNat 0x8023 1 60) (hon : m ≠ 0)
    (htrial : s.fw.trialSince ≠ 0) (hhealthy : s.fw.healthy = true) (hfatal : s.fatal = false) (hhere : s.isAbsent 0 = false)
    (hlate : s.fw.trialSince + 60000000 * m ≤ s.ticks + 1) : execAutoConfirm s = .next s.confirm := by
  rw [hm] at hon hlate
  rw [execAutoConfirm]
  simp only [hstage, hfree, hon, htrial, hhealthy, hfatal, hhere, Nat.not_lt.mpr hlate, ne_eq, not_true_eq_false, Bool.not_true, Bool.false_eq_true,
    or_self, if_false]

end

/-- Settles O38: each entry of the update at its stage, and each event of the stages that run by themselves. -/
theorem updatesRun : Obligations.UpdatesRun := by
  refine ⟨fun tr v r s hfree => ?actions, fun k c m s t => ?events⟩
  case actions =>
    refine ⟨fun hc hstage hfits k hk t ht => ?begin, fun hc hstage hidle hfits t ht => ?data, fun hc hstage hidle hleft howned t ht => ?copied,
      fun hc hstage => ?abort, fun hc hstage => ?verify, fun hc hstage => ⟨fun hv => ?later, fun hv hfits => ?now⟩, fun hc hstage => ?confirm,
      fun hc hstage k hk => ?reject⟩
    case begin => exact execDlBegin_of_idle hfree hc hstage hfits hk ht
    case data => exact execDlData_of_room hfree hc hstage hidle hfits ht
    case copied => exact execDlFrom_of_owned hfree hc hstage hidle hleft howned ht
    case abort => exact execDlAbort_of_download hfree hc hstage
    case verify => exact execVerify_of_written hfree hc hstage
    case later => exact execActivate_atReset hfree hc hstage hv
    case now => exact execActivate_atOnce hfree hc hstage hv hfits
    case confirm => exact execConfirm_of_trial hfree hc hstage
    case reject => exact execReject_of_trial hfree hc hstage hk
  case events =>
    refine ⟨fun hstage hgrant => ⟨?failed, fun herase hk ht => ?erase, fun herase hbytes ht => ?page⟩,
      fun hstage hfree hhere hk => ⟨fun hbad => ?fails, fun hok => ?passes⟩,
      fun hasked hopen => ⟨fun hquiet ht => ?quiet, fun hbusy hlate => ?late⟩,
      fun hhanded hclocks => ⟨?refused, fun ht => ?taken⟩,
      fun hstage hfree hm hon htrial hhealthy hfatal hhere hlate => ?auto⟩
    case failed => exact execFlashOperationComplete_of_failed hstage hgrant
    case erase => exact execFlashOperationComplete_of_erase hstage hgrant herase hk ht
    case page => exact execFlashOperationComplete_of_page hstage hgrant herase hbytes ht
    case fails => exact execVerifyComplete_of_fails hstage hfree hhere hk hbad
    case passes => exact execVerifyComplete_of_passes hstage hfree hhere hk hok
    case quiet => exact execActivateQuiesced_of_quiet hasked hopen hquiet ht
    case late => exact execQuiesceTimeout_of_late hasked hopen hbusy hlate
    case refused => exact execHandoffResume_of_refused hhanded hclocks
    case taken => exact execHandoffResume_of_taken hhanded hclocks ht
    case auto => exact execAutoConfirm_of_healthy hstage hfree hm hon htrial hhealthy hfatal hhere hlate

end Sys2Proof.Machine

/-!
## Resets while the device runs (R596, R600, R610 to R612, R625)
-/

namespace Sys2Proof.Machine

section
variable {mask f : Nat} {s t u : State}

/-! ### Cluster resets -/

theorem execHubClrst_of_idle (hbar : s.reaches 0 = true) (hidle : s.fld A.HUB_CLRST 63 63 ≠ 1) (hmask : mask % 2 ^ 32 ≠ 0)
    (ht : t = ({ s with clrst := mask % 2 ^ 32, clrstAt := s.ticks } : State).setFld A.HUB_CLRST 63 63 1) :
    execHubClrst mask s = .next ((clustersOf (mask % 2 ^ 32)).foldl (fun t k =>
      ((List.range 16).foldl (fun u j => u.resetCore (16 * k + j)) (t.endFlights (fun f => f.core / 16 == k) 3 0)).writeOut k) t) := by
  have hruns : ¬ ((!s.reaches 0) = true ∨ s.fld A.HUB_CLRST 63 63 = 1 ∨ mask % 2 ^ 32 = 0) := by
    simp only [hbar, hidle, hmask, Bool.not_true, Bool.false_eq_true, or_self, not_false_eq_true]
  rw [ht]
  exact congrArg Host.Outcome.next (if_neg hruns)

theorem execClusterResetDone_of_out (hbusy : s.fld A.HUB_CLRST 63 63 ≠ 0) (ht : t = (clustersOf s.clrst).foldl State.writeOut s)
    (hout : s.clrstAt + s.snpTo ≤ s.ticks ∨ (clustersOf s.clrst).all t.clusterOut = true)
    (hu : u = ((clustersOf s.clrst).filter (fun k => !t.clusterOut k)).foldl State.loseCluster t) :
    execClusterResetDone s
      = .next (((({ u with clrst := 0 } : State).setFld A.HUB_CLRST 63 63 0).closeRecords (fun r => r.cause == 8 && r.cls == 1)).refreshHeads) := by
  have hends : ¬ ((!decide (s.clrstAt + s.snpTo ≤ s.ticks) && !(clustersOf s.clrst).all t.clusterOut) = true) := by
    rw [← Bool.not_or, Bool.not_eq_true', Bool.not_eq_false, Bool.or_eq_true, decide_eq_true_iff]
    exact hout
  rw [ht] at hends hu
  rw [hu]
  exact congrArg Host.Outcome.next ((if_neg hbusy).trans (if_neg hends))

/-! ### Resets of functions -/

theorem State.flr_unrefused (hup : s.boot.pcieUp = true) (hfn : s.fnPresent f = true) : ¬ ((!s.boot.pcieUp) = true ∨ (!s.fnPresent f) = true) := by
  simp only [hup, hfn, Bool.not_true, Bool.false_eq_true, or_self, not_false_eq_true]

theorem execFlr_of_vf (hup : s.boot.pcieUp = true) (hf : f < 512) (hvf : f ≠ 0) (hfn : s.fnPresent f = true) : execFlr f s = .next (s.flr f) := by
  rw [execFlr, onUnit_passed (decide_eq_true hf) (State.flr_unrefused hup hfn), if_neg hvf]

theorem execFlr_of_pf (hup : s.boot.pcieUp = true) : execFlr 0 s = .next s.pfFlr := by
  rw [execFlr, onUnit_passed pf_inRange (State.flr_unrefused hup State.fnPresent_zero), if_pos rfl]

theorem execVfEnableClear_of_set (hup : s.boot.pcieUp = true) (hvfs : s.vfEnable = true) :
    execVfEnableClear s = .next { ((List.range s.numVfs).foldl (fun t j => t.flr (j + 1)) s) with vfEnable := false } := by
  have hruns : ¬ ((!s.boot.pcieUp) = true ∨ (!s.vfEnable) = true) := by simp only [hup, hvfs, Bool.not_true, Bool.false_eq_true, or_self, not_false_eq_true]
  exact congrArg Host.Outcome.next (if_neg hruns)

/-! ### Warm resets -/

theorem execHotReset_of_runs (hup : s.boot.pcieUp = true) (hruns : s.runs = true) : execHotReset s = .next s.warmReset :=
  congrArg Host.Outcome.next (if_pos (Bool.and_eq_true_iff.mpr ⟨hup, hruns⟩))

theorem execPerstN_of_high (hhigh : s.boot.perst = true) (ht : t = (if s.runs then s.warmReset else s)) :
    execPerstN s = .next { t with boot := { t.boot with perst := false, pcieUp := false }, barOpen := false } := by
  have hfalls : ¬ ((!s.boot.perst) = true) := by rw [hhigh]; decide
  rw [ht]
  exact congrArg Host.Outcome.next (if_neg hfalls)

theorem execPerstNRise_of_low (hlow : s.boot.perst = false) :
    execPerstNRise s = .next { s with
      boot := { s.boot with perst := true, pcieUp := s.boot.pwrGood && !s.power.tripped && (decide (4 ≤ s.boot.step) || s.boot.recovery) }
      barOpen := s.runs } :=
  congrArg Host.Outcome.next (if_neg (ne_true_of_eq_false hlow))

end

/-- Settles O42: each reset with nothing that refuses it. -/
theorem runningResetsAct : Obligations.RunningResetsAct := by
  intro mask f s t u
  refine ⟨fun hbar hidle hmask ht => ?clrst, fun hbusy ht hout hu => ?clrstDone,
    fun hup => ⟨fun hf hvf hfn => ?vf, ?pf, ?pfOwn, fun hvfs => ?vfs, fun hruns => ?hot⟩, fun hhigh ht => ?perstFall, fun hlow => ?perstRise⟩
  case clrst => exact execHubClrst_of_idle hbar hidle hmask ht
  case clrstDone => exact execClusterResetDone_of_out hbusy ht hout hu
  case vf => exact execFlr_of_vf hup hf hvf hfn
  case pf => exact execFlr_of_pf hup
  case pfOwn => exact congrArg Host.Outcome.next (if_pos hup)
  case vfs => exact execVfEnableClear_of_set hup hvfs
  case hot => exact execHotReset_of_runs hup hruns
  case perstFall => exact execPerstN_of_high hhigh ht
  case perstRise => exact execPerstNRise_of_low hlow

end Sys2Proof.Machine
